-- ==== Sys2Proof/Word.lean ====
section
/-!
DEFINITION. Word.lean: the word types of the model.
Every register and every structure the module reads or writes is little-endian (R8); a word type here is a bit vector
of the width the spec gives the field, and a count or an address in use is a Nat.
-/

namespace Sys2Proof

/-- One byte. -/
abbrev Byte := BitVec 8

/-- A 16-bit field: role ids, codes, generations. -/
abbrev W16 := BitVec 16

/-- A 32-bit word: FP32 codes, Dresser lanes, narrow counters. -/
abbrev W32 := BitVec 32

/-- A 64-bit word: control-space registers (R480), tally counters (R232). -/
abbrev W64 := BitVec 64

end Sys2Proof
end

