-- ==== Sys2Proof/Machine/Bits.lean ====
section
/-!
DEFINITION. Machine/Bits.lean: bit fields, two's complement readings and little-endian byte order (R8).
-/

namespace Sys2Proof.Machine

/-- Bits `hi:lo` of a number, as a number (the bit ranges of R10 are written high to low). -/
def bitsOf (w hi lo : Nat) : Nat := (w >>> lo) % 2 ^ (hi + 1 - lo)

/-- Bit `i` of a number. -/
def bitOf (w i : Nat) : Bool := bitsOf w i i == 1

/-- The number a Bool stands for in a register field. -/
def bitNat (b : Bool) : Nat := if b then 1 else 0

/-- A field value placed at bit `lo` of a word (no masking: the caller's value fits the field). -/
def placeAt (v lo : Nat) : Nat := v <<< lo

/-- A number read as two's complement of `w` bits. -/
def signedOf (w v : Nat) : Int :=
  let x := v % 2 ^ w
  if x < 2 ^ (w - 1) then (x : Int) else (x : Int) - (2 ^ w : Nat)

/-- The `w`-bit two's complement code of an integer (wraps). -/
def twosOf (w : Nat) (i : Int) : Nat := (i % ((2 ^ w : Nat) : Int)).toNat

/-- `n` little-endian bytes of a number (R8). -/
def bytesOfNat : Nat → Nat → List Byte
  | 0, _ => []
  | n + 1, v => BitVec.ofNat 8 v :: bytesOfNat n (v / 256)

/-- The number that little-endian bytes spell (R8). -/
def natOfBytes : List Byte → Nat
  | [] => 0
  | b :: bs => b.toNat + 256 * natOfBytes bs

/-- `n` bytes of a list from byte `off` on, zeros past its end. -/
def sliceBytes (bs : List Byte) (off n : Nat) : List Byte :=
  let t := (bs.drop off).take n
  t ++ List.replicate (n - t.length) 0#8

/-- The little-endian field of `n` bytes at byte `off` of a structure (R8). -/
def fieldOf (bs : List Byte) (off n : Nat) : Nat := natOfBytes (sliceBytes bs off n)

/-- Whether `n` bytes from `off` on are all zero (a reserved field, R7). -/
def zeroAt (bs : List Byte) (off n : Nat) : Bool := fieldOf bs off n == 0

/-- Whether a number is a power of two. -/
def isPow2 (n : Nat) : Bool := n != 0 && 2 ^ Nat.log2 n == n

/-- Rounding a quotient up. -/
def ceilDiv (a b : Nat) : Nat := (a + b - 1) / b

/-- A counter of `w` bits after one more (it wraps). -/
def wrapAdd (w a b : Nat) : Nat := (a + b) % 2 ^ w

/-- A counter of `w` bits that holds its greatest value. -/
def satAdd (w a b : Nat) : Nat := min (a + b) (2 ^ w - 1)

/-- The first `some` a function gives over a list. -/
def firstSome {α β : Type} (f : α → Option β) : List α → Option β
  | [] => none
  | a :: as => match f a with
    | some b => some b
    | none => firstSome f as

end Sys2Proof.Machine
end

