-- ==== Sys2Proof/Machine/Table.lean ====
section
/-!
DEFINITION. Machine/Table.lean: sparse tables in one canonical form, and memory as a table of bytes.
A table lists (index, value) pairs, indices strictly rising, no entry equal to what an unlisted index reads as; so equal
tables are equal data. Memory and every large register array of the module are such tables.
-/

namespace Sys2Proof.Machine

/-- A sparse table: what an unlisted index reads as is given at each access. -/
structure Table (α : Type) where
  cells : List (Nat × α) := []
deriving DecidableEq, Repr

variable {α : Type}

/-- What a cell list holds at an index. -/
def cellsFind (k : Nat) : List (Nat × α) → Option α
  | [] => none
  | (j, v) :: cs => if j = k then some v else cellsFind k cs

/-- A cell list with one index set. -/
def cellsInsert (k : Nat) (v : α) : List (Nat × α) → List (Nat × α)
  | [] => [(k, v)]
  | (j, w) :: cs =>
    if k < j then (k, v) :: (j, w) :: cs
    else if k = j then (k, v) :: cs
    else (j, w) :: cellsInsert k v cs

/-- A cell list with one index taken out. -/
def cellsErase (k : Nat) : List (Nat × α) → List (Nat × α)
  | [] => []
  | (j, w) :: cs => if j = k then cellsErase k cs else (j, w) :: cellsErase k cs

/-- A cell list with every value changed by a function of its index and value; a value that becomes `d` is not listed. -/
def cellsMap [DecidableEq α] (d : α) (f : Nat → α → α) : List (Nat × α) → List (Nat × α)
  | [] => []
  | (j, w) :: cs => if f j w = d then cellsErase j (cellsMap d f cs) else (j, f j w) :: cellsMap d f cs

/-- The value at an index; `d` is what an unlisted index reads as. -/
def Table.get (t : Table α) (d : α) (k : Nat) : α := (cellsFind k t.cells).getD d

/-- The table with one index set; a value equal to `d` is not listed. -/
def Table.set [DecidableEq α] (t : Table α) (d : α) (k : Nat) (v : α) : Table α :=
  if v = d then ⟨cellsErase k t.cells⟩ else ⟨cellsInsert k v t.cells⟩

/-- One index changed by a function. -/
def Table.update [DecidableEq α] (t : Table α) (d : α) (k : Nat) (f : α → α) : Table α :=
  t.set d k (f (t.get d k))

/-- The table with every listed index that a test names read as `d` again. -/
def Table.dropWhere (t : Table α) (p : Nat → Bool) : Table α :=
  ⟨t.cells.filter fun c => !p c.1⟩

/-- The table with the half-open index range read as `d` again. -/
def Table.clearRange (t : Table α) (lo n : Nat) : Table α :=
  t.dropWhere fun k => decide (lo ≤ k ∧ k < lo + n)

/-- Every listed value changed by a function of its index and value (values equal to `d` are dropped). -/
def Table.mapListed [DecidableEq α] (t : Table α) (d : α) (f : Nat → α → α) : Table α :=
  ⟨cellsMap d f t.cells⟩

/-- A table of the values of a function below a bound. -/
def tableOf {α : Type} [DecidableEq α] (d : α) (n : Nat) (f : Nat → α) : Table α :=
  ⟨((List.range n).map fun i => (i, f i)).filter fun c => decide (c.2 ≠ d)⟩

/-- Indices strictly rising. -/
def cellsSorted : List (Nat × α) → Bool
  | [] => true
  | [_] => true
  | (j, _) :: (k, w) :: cs => decide (j < k) && cellsSorted ((k, w) :: cs)

/-- The canonical form: strictly rising, nothing equal to the unlisted value. -/
def Table.wf [DecidableEq α] (t : Table α) (d : α) : Bool :=
  cellsSorted t.cells && t.cells.all fun c => decide (c.2 ≠ d)

/-- Memory: a table of bytes. -/
abbrev Memory := Table Byte

/-- What a byte of memory that nothing has written reads as: near and bulk tier are zeroed at start (R84), a flash unit
never written reads zero (R276). -/
def unlistedByte : Byte := 0

/-- The canonical form of memory. -/
abbrev Memory.wf (m : Memory) : Bool := Table.wf m unlistedByte

/-- One byte of memory. -/
def memGet (m : Memory) (a : Nat) : Byte := m.get unlistedByte a

/-- One byte of memory written. -/
def memSet (m : Memory) (a : Nat) (b : Byte) : Memory := m.set unlistedByte a b

/-- `n` bytes from an address on. -/
def memRead (m : Memory) : Nat → Nat → List Byte
  | _, 0 => []
  | a, n + 1 => memGet m a :: memRead m (a + 1) n

/-- Bytes written from an address on. -/
def memWrite (m : Memory) : Nat → List Byte → Memory
  | _, [] => m
  | a, b :: bs => memWrite (memSet m a b) (a + 1) bs

/-- A little-endian number of `n` bytes (R8). -/
def memNat (m : Memory) (a n : Nat) : Nat := natOfBytes (memRead m a n)

/-- A little-endian number of `n` bytes written (R8). -/
def memWriteNat (m : Memory) (a n v : Nat) : Memory := memWrite m a (bytesOfNat n v)

/-- `n` bytes from an address on zeroed. -/
def memZero (m : Memory) (a n : Nat) : Memory := m.clearRange a n

end Sys2Proof.Machine
end

