-- ==== Sys2Proof/Machine/Parts/Fabric.lean ====
section
/-!
DEFINITION. Machine/Parts/Fabric.lean: Genpex ports, fabric time, windows, slot tables, transfers and peers (R362–R392).
-/

namespace Sys2Proof.Machine

/-- STATE of a port (R390). -/
inductive PortState where
  | disabled | training | keyWait | up | down | markedDown
deriving DecidableEq, Repr

/-- A Genpex port (R362–R366, R390). -/
structure Port where
  state : PortState := .disabled
  peer : Nat := 0
  peerPort : Nat := 0
  /-- What the peer told when the port last trained: its module generation, and each of its global ports with the cord it leads to (R364). -/
  peerGen : Nat := 0
  peerGlobals : List (Nat × Nat) := []
  code : W16 := 0
  keyEpoch : Nat := 0
  downs : Nat := 0
  tagFails : Nat := 0
  replays : Nat := 0
  /-- Times of the tag failures of the last 1 ms (R366). -/
  tagFailTimes : List Nat := []
  lastSent : Nat := 0
  lastReceived : Nat := 0
  downSince : Nat := 0
  /-- Attempts at training again since it went DOWN (R366). -/
  attempts : Nat := 0
  /-- Number of the next frame it sends; it keeps the last 256 (R366). -/
  sent : Nat := 0
  /-- Number of the next frame it takes in. -/
  taken : Nat := 0
  replayFrom : Option Nat := none
  /-- Frame counters of the nonce, for the key of epoch 0 and of epoch 1 (R367). -/
  nonce0 : Nat := 0
  nonce1 : Nat := 0
  /-- It was UP and went DOWN since (R391, 0x7104). -/
  wasUp : Bool := false
deriving DecidableEq, Repr

/-- STATE of fabric time (R370). -/
inductive TimeState where
  | unsync | acquiring | sync | holdover
deriving DecidableEq, Repr

/-- A slot table entry (R58, R378). -/
structure SlotEntry where
  slot : Nat := 0
  port : Nat := 0
  receive : Bool := false
  peer : Nat := 0
  window : Nat := 0
  bytes : Nat := 0
deriving DecidableEq, Repr

/-- A slot table (R58). -/
structure SlotTable where
  period : Nat := 0
  entries : List SlotEntry := []
deriving DecidableEq, Repr

/-- STANDBY (R390). -/
inductive StandbyState where
  | empty | loading | loaded | armed
deriving DecidableEq, Repr

/-- A window (R372–R375, R390). -/
structure Window where
  base : Nat := 0
  units : Nat := 0
  enable : Bool := false
  busy : Bool := false
  cfgErr : Bool := false
  context : Nat := 0
  abortOnCut : Bool := false
  cordOnly : Bool := false
  atomic : Bool := false
  read : Bool := false
  write : Bool := false
  tally : Nat := 0
deriving DecidableEq, Repr

/-- An outbound window (R376). -/
structure OutWindow where
  handleHi : Nat := 0
  scope : Bool := false
  valid : Bool := false
deriving DecidableEq, Repr

/-- An entry of the unit target table (R377). -/
structure UnitTarget where
  id : W64 := 0
  epoch : Nat := 0
deriving DecidableEq, Repr

/-- STATE of PEER_STATE (R386). -/
inductive PeerReach where
  | unknown | reachable | unreachable
deriving DecidableEq, Repr

/-- What the module keeps of another module (R386). -/
structure Peer where
  reach : PeerReach := .unknown
  gen : Nat := 0
  changedUs : Nat := 0
  /-- Ports of that module that link notices, this module's own port counted, report DOWN. -/
  portsDown : List Nat := []
deriving DecidableEq, Repr

/-- A cord key (R367, R368). -/
structure CordKey where
  cord : Nat
  epoch : Nat
  key : BitVec 256
deriving DecidableEq, Repr

/-- Where a fabric transfer stands (R380–R387). -/
inductive TransferState where
  /-- On its way to the port die: not yet handed over (R387). -/
  | leaving
  /-- Held: a timed transfer that has bytes left to send in slots. -/
  | held
  /-- Sent and not acknowledged: last sent then. -/
  | sent (at_ : Nat)
deriving DecidableEq, Repr

/-- What a timed transfer claims of one slot (R380): the entry of the active table, the bytes, when its offer was sent, whether ACCEPT
has admitted it. -/
structure SlotPart where
  slotStart : Nat
  entry : Nat
  bytes : Nat
  offered : Option Nat := none
  admitted : Bool := false
deriving DecidableEq, Repr

/-- A fabric transfer handed to a port die (R165, R380, R384). -/
structure Transfer where
  id : Nat
  /-- The task that produced it, when one did. -/
  ring : Option Nat := none
  seq : Nat := 0
  /-- The hart whose store it carries, and the physical address stored to; the same of the stores that joined it (R376). -/
  hart : Option (Nat × Nat) := none
  joined : List (Nat × Nat) := []
  context : Nat := 0
  timed : Bool := false
  handle : Nat := 0
  /-- Destination module. -/
  module : Nat := 0
  /-- The unit target entry of a unit-form transfer. -/
  unit : Option Nat := none
  data : List Byte := []
  /-- Further runs of the same write, by handle: those of a hart's stores to one row (R376). -/
  more : List (Nat × List Byte) := []
  /-- When it came to be. -/
  made : Nat := 0
  /-- Generation tag (R386). -/
  tag : Nat := 0
  sealed : Bool := false
  handedAt : Nat := 0
  state : TransferState := .leaving
  /-- Bytes of a timed transfer that have no slot. -/
  remaining : Nat := 0
  /-- The slots it claims (R380). -/
  parts : List SlotPart := []
deriving DecidableEq, Repr

/-- It carries a store of a hart. -/
def Transfer.ofHart (x : Transfer) (h : Nat) : Bool := (x.hart.map (·.1)) == some h || x.joined.any fun y => y.1 == h

/-- An incoming transfer not yet whole (R388): its frames so far by offset, with the bytes of a unit message, which its target
takes whole (R33). -/
structure Incoming where
  origin : Nat
  id : Nat
  window : Nat
  arrived : Nat
  length : Nat
  frames : List (Nat × List Byte) := []
deriving DecidableEq, Repr

/-- Bytes accepted for a slot that has not ended (R381): slot start, entry number, bytes. -/
structure Claim where
  slotStart : Nat
  entry : Nat
  bytes : Nat
deriving DecidableEq, Repr

/-- A remote load or atomic that waits for its reply (R376). -/
structure RemoteOp where
  hart : Nat
  id : Nat
  handle : Nat
  /-- Physical address of the access, and the address in the program. -/
  pa : Nat
  va : Nat
  atomic : Bool
  since : Nat
  /-- The context it carries (R314). -/
  context : Nat := 1
deriving DecidableEq, Repr

/-- A route to a cord: a seat of this cord and its port toward it (R364). -/
structure CordRoute where
  cord : Nat
  seat : Nat
  port : Nat
deriving DecidableEq, Repr

/-- An answer that leaves the module for another one: a result code, and the data of a remote read or atomic (R380, R381, R385). -/
structure FabricAnswer where
  module : Nat
  code : W16
  data : List Byte := []
deriving DecidableEq, Repr

/-- The Genpex block. -/
structure FabricBlock where
  /-- FABRIC_TIME, in ns. -/
  time : Nat := 0
  /-- FABRIC_TIME counts (from step 4 of a start on, R369). -/
  counting : Bool := false
  /-- Nanoseconds that slewing has still to add or to hold back (R370). -/
  slew : Int := 0
  source : Option (Nat × Nat) := none
  /-- OFFSET, in units of 100 ps. -/
  offset : Int := 0
  timeRole : Nat := 0
  timeState : TimeState := .unsync
  /-- When HOLDOVER was entered. -/
  holdoverSince : Nat := 0
  /-- When the system root's first local port came UP (R371). -/
  rootSince : Option Nat := none
  /-- Modules that claim TIME_ROLE 2, each with the port its time comes by (R371). -/
  rootsSeen : List (Nat × Nat) := []
  loadTimeoutUs : Nat := 100
  slotAddr : Nat := 0
  switchTime : Nat := 0
  stCode : W16 := 0
  standby : StandbyState := .empty
  standbyTable : SlotTable := {}
  active : SlotTable := {}
  forfeits : Nat := 0
  late : Nat := 0
  overbooked : Nat := 0
  drainIssued : Nat := 0
  drainDone : Nat := 0
  ports : Table Port := {}
  windows : Table Window := {}
  outWindows : Table OutWindow := {}
  unitTargets : Table UnitTarget := {}
  peers : Table Peer := {}
  keys : List CordKey := []
  /-- Epoch in use for sending, by cord, plus one; 0 for none (R368). -/
  sendEpoch : Table Nat := {}
  /-- The cord route table: what cord-mates told of their global ports once their links were up (R364). -/
  routes : List CordRoute := []
  transfers : List Transfer := []
  nextTransfer : Nat := 1
  claims : List Claim := []
  incoming : List Incoming := []
  /-- Transfers already taken in whole, for the discard of duplicates (R384): origin, transfer number. -/
  received : List (Nat × Nat) := []
  remoteOps : List RemoteOp := []
  nextRemote : Nat := 1
  /-- The last answer that left the module. -/
  answer : Option FabricAnswer := none
deriving DecidableEq, Repr

end Sys2Proof.Machine
end

