-- ==== Sys2Proof/Machine/Parts/Tiers.lean ====
section
/-!
DEFINITION. Machine/Parts/Tiers.lean: the tier directory, its pools, objects, copies and poison (R259–R285).
-/

namespace Sys2Proof.Machine

/-- Who waits on a migration, a walk or an answer. -/
inductive Waiter where
  | task (ring seq : Nat)
  | hart (h : Nat)
  /-- A requester outside the engines and harts, which asks again. -/
  | external
deriving DecidableEq, Repr

/-- Whether a waiter belongs to a ring. -/
def Waiter.ofRing (r : Nat) : Waiter → Bool
  | .task x _ => x == r
  | .hart _ | .external => false

/-- An object of the tier directory (R265, R283). -/
structure TierObject where
  /-- OBJ_RANGE.BASE, as a tier offset. -/
  base : Nat := 0
  /-- OBJ_HOME.HOME_BASE, as a physical address. -/
  homeBase : Nat := 0
  valid : Bool := false
  busy : Bool := false
  /-- Its context was sealed when VALID was written 0: the drain zeroes (R308). -/
  zeroes : Bool := false
  failed : Bool := false
  granules : Nat := 0
  context : Nat := 0
  replicated : Bool := false
  writable : Bool := false
  affinity : Nat := 0
  policy : Nat := 0
  replica : W64 := 0
deriving DecidableEq, Repr

/-- A frame of a near pool in use (R268, R269). -/
structure PoolFrame where
  grove : Nat
  /-- Index of the frame in its pool. -/
  index : Nat
  /-- Tier offset of the ashlar the frame holds. -/
  ashlar : Nat
  stream : Bool
  /-- Ordinal of its last use (least recently used is least). -/
  lastUse : Nat
  /-- The copy from the home is in progress. -/
  copying : Bool := false
  /-- An EVICT has met reads in flight: the copy goes once they end, and no later read finds it (R271). -/
  leaving : Bool := false
deriving DecidableEq, Repr

/-- A migration or replica repair in progress (R267, R271, R280). -/
structure Migration where
  /-- Tier offset of the ashlar. -/
  ashlar : Nat
  /-- The frame taken; none while every frame is excluded, or when the repair serves a RESIDENT object. -/
  frame : Option (Nat × Nat)
  /-- The uncorrectable addresses that the fetch of the replica is to repair; none while there is no repair (R280). -/
  repair : List Nat := []
  /-- The best-effort read of the peer that a repair waits for, by transfer number (R280, R385). -/
  fetch : Option Nat := none
  /-- The home or the frame did not serve TIER when the migration began: it fails (R303). -/
  refused : Bool := false
  waiters : List Waiter := []
deriving DecidableEq, Repr

/-- Pool registers of one grove (R283). -/
structure NearPool where
  base : Nat := 0
  frames : Nat := 0
deriving DecidableEq, Repr

/-- What a stack or bulk package reports (R281–R283). -/
structure DeviceStatus where
  temp : Nat := 0
  refresh2x : Bool := false
  sparesUsed : Nat := 0
  corrected : Nat := 0
deriving DecidableEq, Repr

/-- The tier directory block. -/
structure TierBlock where
  replicaTimeoutUs : Nat := 2000
  enable : Bool := false
  cfgErr : Bool := false
  objErr : Nat := 0
  frameWaits : Nat := 0
  migrations : Nat := 0
  evictions : Nat := 0
  repaired : Nat := 0
  repairFailed : Nat := 0
  pools : Table NearPool := {}
  /-- Stacks 0–11. -/
  stackStatus : Table DeviceStatus := {}
  /-- Bulk packages 0–11. -/
  packageStatus : Table DeviceStatus := {}
  objects : Table TierObject := {}
  frames : List PoolFrame := []
  inProgress : List Migration := []
  /-- Accesses accepted, whose wait for an ashlar is over and which have yet to be made: who makes them, and the ashlar (R271). -/
  admitted : List (Waiter × Nat) := []
  useClock : Nat := 0
  /-- Poisoned codewords of near and bulk tier, by physical address / 512 (R278). -/
  poison : Table Bool := {}
  /-- The flash poison table, by physical address / 65,536; kept across every reset (R278). -/
  flashPoison : Table Bool := {}
  /-- Flash units ever written, by physical address / 65,536; kept across every reset (R276). -/
  flashWritten : Table Bool := {}
  /-- Flash units whose next read meets an uncorrectable error that the full poison table does not remember (R279). -/
  metError : List Nat := []
deriving DecidableEq, Repr

end Sys2Proof.Machine
end

