-- ==== Sys2Proof/Machine/Parts/Translation.lean ====
section
/-!
DEFINITION. Machine/Parts/Translation.lean: the translation unit, fault batches, stakes, seals and operand caches
(R286–R315, R329–R331).
-/

namespace Sys2Proof.Machine

/-- A translation held in a cache: a leaf entry of some page size (R291). -/
structure TlbEntry where
  /-- Grove of a grove translation cache; none for the shared one. -/
  grove : Option Nat
  context : Nat
  /-- Virtual page number, of 4 KiB pages, of the first page the leaf covers. -/
  vpn : Nat
  /-- 4 KiB pages the leaf covers. -/
  pages : Nat
  /-- The leaf entry as walked. -/
  pte : Nat
deriving DecidableEq, Repr

/-- A non-leaf entry of the walk cache (R291). -/
structure WalkEntry where
  context : Nat
  level : Nat
  vpnPrefix : Nat
  pte : Nat
deriving DecidableEq, Repr

/-- SOURCE of a waiter tag (R295). -/
inductive TagSource where
  | movePort | dresserPort | tally
deriving DecidableEq, Repr

/-- A waiter of a fault batch entry: what its tag holds, and whether it writes (R295, R296). -/
structure FaultWaiter where
  source : TagSource
  ring : Nat
  bench : Nat
  seq : Nat
  write : Bool
  /-- It waits for a descriptor read of its ring, which belongs to no task yet (R225). -/
  descriptor : Bool := false
deriving DecidableEq, Repr

/-- A fault batch entry (R295, R296). -/
structure FaultEntry where
  /-- Virtual address of the faulting 4 KiB page, of 48 bits. -/
  page : Nat
  context : Nat
  cause : Nat
  level : Nat
  read : Bool
  write : Bool
  waiters : List FaultWaiter
  /-- Tags held, at most six (R296). -/
  tags : List FaultWaiter
deriving DecidableEq, Repr

/-- CLOSE_REASON (R295). -/
inductive CloseReason where
  | count | time | flush
deriving DecidableEq, Repr

/-- An open or delivered fault batch (R295–R299). -/
structure FaultBatch where
  slot : Nat
  openedAt : Nat
  entries : List FaultEntry := []
  sequence : Nat := 0
  deliveredAt : Nat := 0
deriving DecidableEq, Repr

/-- A batch fault that waits unentered for a free slot (R297). -/
structure HeldFault where
  page : Nat
  context : Nat
  cause : Nat
  level : Nat
  waiter : FaultWaiter
deriving DecidableEq, Repr

/-- SCOPE of an invalidation (R300). -/
inductive InvalScope where
  | all
  | context (c : Nat)
  | range (c vpn pages : Nat)
deriving DecidableEq, Repr

/-- STATE of a stake (R302). -/
inductive StakeState where
  | free | owned | releasing
deriving DecidableEq, Repr

/-- An entry of the stake table (R302). -/
structure Stake where
  owner : Nat := 0
  state : StakeState := .free
  sealed : Bool := false
  export_ : Bool := false
deriving DecidableEq, Repr

/-- A sealed context: its key and the requester that sealed it (R306, R310). -/
structure SealedContext where
  context : Nat
  /-- The two AES-256 keys of XTS, 512 bits; none once a fatal error destroyed them (R458). -/
  key : Option (BitVec 512)
  imported : Bool
  /-- The certificate chain the sealing session's requester presented. -/
  requester : Nat
deriving DecidableEq, Repr

/-- A stake command in progress (R304, R305): the stakes concerned, by index. -/
inductive StakeWork where
  | none
  | assign (first count owner : Nat)
  | release (stakes : List Nat)
deriving DecidableEq, Repr

/-- Who made a control-space access that is not yet answered (R300, R331, R357, R483). -/
inductive RegWriter where
  /-- No one who waits: the command stood for the write itself. -/
  | nobody
  | hart (h : Nat)
  /-- A register request, by the mailbox or by the management port, with its tag. -/
  | mgmt (mailbox : Bool) (tag : Nat)
deriving DecidableEq, Repr

/-- A piece, within one 4 KiB page, of an engine access that is under way: translated, and if a read is done what it read. It completes
against the frame it was translated to, whatever is withdrawn meanwhile (R300). -/
structure AcceptedPiece where
  waiter : Waiter
  /-- The access: its context, virtual address and length, and whether it writes. -/
  context : Nat
  va : Nat
  len : Nat
  write : Bool
  /-- The piece: its virtual address, and its physical one. -/
  at_ : Nat
  pa : Nat
  /-- Done: the bytes read; none while it waits. -/
  data : Option (List Byte) := none
  /-- The invalidations, by number, that name its page and were issued while it waited: each drains when it has completed. -/
  holds : List Nat := []
deriving DecidableEq, Repr

/-- The translation unit block. -/
structure TuBlock where
  ctxBase : Nat := 0
  ctxEnable : Bool := false
  fbBase : Nat := 0
  fbEnable : Bool := false
  msiAddress : Nat := 0
  msiEiid : Nat := 0
  answerTimeoutMs : Nat := 100
  invalAddr : Nat := 0
  invalIssued : Nat := 0
  invalDone : Nat := 0
  /-- Invalidations issued and not drained, oldest first (at most 16). -/
  invals : List InvalScope := []
  /-- Pieces of engine accesses that wait on a migration or repair, or whose access does (R300). -/
  accepted : List AcceptedPiece := []
  /-- Writes of TU_INVAL not yet acknowledged (R300). -/
  invalWaiting : List (InvalScope × RegWriter) := []
  walks : Nat := 0
  openBatch : Option FaultBatch := none
  delivered : List FaultBatch := []
  held : List HeldFault := []
  /-- Waiters answered RETRY, whose walk is under way again (R298). -/
  walking : List HeldFault := []
  /-- SEQUENCE of the next batch, from 1 (R295). -/
  nextSequence : Nat := 1
  groveCache : List TlbEntry := []
  sharedCache : List TlbEntry := []
  walkCache : List WalkEntry := []
deriving DecidableEq, Repr

/-- The stake table and the sealed contexts. -/
structure StakeBlock where
  /-- STAKE_ADDR.GRANULE, as a physical address. -/
  addr : Nat := 0
  busy : Bool := false
  result : W16 := 0
  work : StakeWork := .none
  /-- Stakes by index: near 0–442,367, bulk 442,368 on (R302). -/
  table : Table Stake := {}
  sealedContexts : List SealedContext := []
deriving DecidableEq, Repr

/-- A line of a grove operand cache: 512 bytes (R303, R329). -/
structure OpLine where
  grove : Nat
  /-- Physical address / 512. -/
  line : Nat
  context : Nat
  data : List Byte
  /-- Ring and sequence number of the task that filled it before its WAIT resolved: no task reads the line (R324). -/
  tentative : Option (Nat × Nat) := none
deriving DecidableEq, Repr

/-- Operand cache invalidation registers of one grove (R330, R331). -/
structure OpcacheRegs where
  base : Nat := 0
  issued : Nat := 0
  done : Nat := 0
  /-- Invalidations issued and not done: first line and lines, or none for every line. -/
  held : List (Option (Nat × Nat)) := []
  waiting : List (Option (Nat × Nat) × RegWriter) := []
deriving DecidableEq, Repr

end Sys2Proof.Machine
end

