-- ==== Sys2Proof/Machine/Parts/Kerf.lean ====
section
/-!
DEFINITION. Machine/Parts/Kerf.lean: Kerf bundles, their lanes and repairs, and the admitted-die sites (R337–R361).
-/

namespace Sys2Proof.Machine

/-- Role of a Kerf bundle (R55, R337). -/
inductive KerfRole where
  | off | hub | hubOverflow | bulk | direct | port
deriving DecidableEq, Repr

/-- WIDTH of a bundle (R343, R358). -/
inductive KerfWidth where
  | down | half | full
deriving DecidableEq, Repr

/-- Hub-class messages (R345). -/
inductive HubMessage where
  | coherence | controlSpace | interrupt | translationRequest | translationReply | boom | tally | errorRecord
deriving DecidableEq, Repr

/-- What the 256 bytes of a flit hold (R339): two whole 128-byte rows of one 2 KiB unit, hub-class messages, or a Genpex frame of a port,
which crosses the Landing die's edges at an address. -/
inductive FlitContent where
  | rows (first second : Nat)
  | hub (messages : List HubMessage)
  | frame (port addr : Nat)
deriving DecidableEq, Repr

/-- A flit from one die to another: groves 0–3, the Landing die 4, fabric port dies 5 and 6 (R337, R339). -/
structure KerfFlit where
  source : Nat
  dest : Nat
  content : FlitContent
  bytes : List Byte
  /-- Sequence number per source and destination of the hub class (R346). -/
  seq : Nat := 0
deriving DecidableEq, Repr

/-- One direction of a bundle. Lanes: D0–D63 are 0–63, S0 is 64, S1 is 65, the lanes borrowed from bundle b − 1 are 66–69
and those from b + 1 are 70–73 (R338, R342). -/
structure LaneDir where
  /-- Lanes declared failed (R341). -/
  failed : List Nat := []
  /-- Lanes that failed the last lane check (R341). -/
  suspect : List Nat := []
  /-- Data positions carried by another lane, with that lane (R342). -/
  replaced : List (Nat × Nat) := []
  /-- Lent lanes it has borrowed; none is returned while the bundle is up (R342). -/
  borrowed : List Nat := []
  /-- The half used at half width is the upper one (R343). -/
  upper : Bool := false
  clockFailed : Bool := false
  /-- Flits queued on it and not delivered yet, oldest first; the first is number `delivered` (R340, R347). -/
  queue : List KerfFlit := []
  /-- Number of the next flit the sender sends; it keeps the last 64 (R340). -/
  sent : Nat := 0
  /-- Number of the next flit the receiver delivers. -/
  delivered : Nat := 0
  /-- A replay asked for, from this flit on (R340). -/
  replayFrom : Option Nat := none
  /-- Times of the replays of the last 10 µs (R340). -/
  replayTimes : List Nat := []
  /-- Times at which 256 replays in 10 µs were counted with no lane failed (R341). -/
  bursts : List Nat := []
  /-- An armed point made one of them (R465, R466). -/
  burstInjected : Bool := false
  /-- Lane checks still to run after such a count (R340). -/
  checksDue : Nat := 0
deriving DecidableEq, Repr

/-- A Kerf bundle (R358). -/
structure KerfBundle where
  role : KerfRole := .off
  width : KerfWidth := .down
  dirA : LaneDir := {}
  dirB : LaneDir := {}
  /-- A retraining since this time (R341). -/
  retraining : Bool := false
  /-- A paused repair since this time (R350). -/
  repairing : Bool := false
  retrains : Nat := 0
  repairs : Nat := 0
  replays : Nat := 0
deriving DecidableEq, Repr

/-- STATE of an admitted-die site (R359). -/
inductive SiteState where
  | empty | admitted | refused | shutDown | discovering
deriving DecidableEq, Repr

/-- An access to a site window that the die has not answered (R357). -/
structure SiteAccess where
  /-- The hart, or the request of the management processor, that waits for it. -/
  accessor : RegWriter
  addr : Nat
  since : Nat
  write : Bool := false
deriving DecidableEq, Repr

/-- An admitted-die site (R353–R359). -/
structure Site where
  state : SiteState := .empty
  cls : Nat := 0
  claimW : Nat := 0
  modules : Nat := 0
  lanes : Nat := 0
  rate : Nat := 0
  code : W16 := 0
  vendor : Nat := 0
  device : Nat := 0
  tempLimit : Nat := 0
  minRate : Nat := 0
  minModules : Nat := 0
  temp : Nat := 0
  lastReport : Nat := 0
  access : List SiteAccess := []
deriving DecidableEq, Repr

/-- The Kerf and UCIe block: bundles by edge × 32 + bundle. -/
structure KerfBlock where
  bundles : Table KerfBundle := {}
  sites : Table Site := {}
  /-- Flits that wait at a die for a bundle of their role (R351). -/
  waiting : List (Nat × KerfFlit) := []
  /-- Next sequence number of the hub class by source × 7 + destination: given by the source, and expected by the destination (R345, R346). -/
  hubSent : Table Nat := {}
  hubNext : Table Nat := {}
  /-- Hub-class flits that arrived ahead of their turn (R345). -/
  hubHeld : List KerfFlit := []
  /-- Next turn of the HUB_OVERFLOW bundles, by edge × 2 + direction (R346). -/
  overflowTurn : Table Nat := {}
deriving DecidableEq, Repr

end Sys2Proof.Machine
end

