-- ==== Sys2Proof/Machine/Parts/Roles.lean ====
section
/-!
DEFINITION. Machine/Parts/Roles.lean: unit names, bench roles and role epochs (R22–R41).
-/

namespace Sys2Proof.Machine

/-- What a unit identifier names within a module (R22, R40, R468). -/
inductive UnitPlace where
  | bench (n : Nat)
  | grove (g : Nat)
  /-- The sixteen benches of a Mladyth cluster (R40). -/
  | cluster (g c : Nat)
  | module
  /-- Diagnostic places: bench number, section, row, cell (R468). -/
  | sect (n s : Nat)
  | row (n s r : Nat)
  | cell (n s r c : Nat)
deriving DecidableEq, Repr

/-- A unit identifier taken apart: module index (0xFFFF for this module) and place. -/
structure UnitName where
  moduleIx : Nat
  place : UnitPlace
deriving DecidableEq, Repr

/-- STATE of BENCH_ROLE (R37). -/
inductive BenchState where
  | idle | active | standby | quarantined
deriving DecidableEq, Repr

/-- A bench's place in the role table (R28–R37). -/
structure RoleEntry where
  state : BenchState := .idle
  role : Option Nat := none
  partition : Option Nat := none
  unitGen : Nat := 0
  /-- The role it held at the last start (R28). -/
  startRole : Option Nat := none
  /-- Events whose advance of the unit generation has yet to take effect (R31, R34). -/
  advances : Nat := 0
  /-- Where its role changed after the start, newest first: the first unit generation under which it held the role (R35). -/
  changes : List (Nat × Option Nat) := []
deriving DecidableEq, Repr

end Sys2Proof.Machine
end

