-- ==== Sys2Proof/Machine/Parts/Image.lean ====
section
/-!
DEFINITION. Machine/Parts/Image.lean: the boot flash, the settings an image holds, the start record and log, the fuses, and
where the module stands in its starts and resets (R42–R96).
-/

namespace Sys2Proof.Machine

/-- SLOT_STATE of an image slot (R43). -/
inductive SlotState where
  | empty | written | verified | failed
deriving DecidableEq, Repr

/-- What an image slot of the boot flash holds. -/
inductive SlotContents where
  | erased
  /-- The acceptance-test image of R509, whose bytes the spec does not give. -/
  | factory
  /-- Bytes that staging programmed, over erased flash. -/
  | staged (bytes : Table Byte)
deriving DecidableEq, Repr

/-- The start record (R43). -/
structure StartRecord where
  sequence : Nat := 0
  startCount : Nat := 0
  activeSlot : Nat := 0
  runningSlot : Option Nat := none
  pendingSlot : Option Nat := none
  trial : Bool := false
  state0 : SlotState := .empty
  state1 : SlotState := .empty
  fail0 : W16 := 0
  fail1 : W16 := 0
deriving DecidableEq, Repr

/-- An entry of the start log (R45). -/
structure LogEntry where
  startCount : Nat
  code : W16
  slot : Option Nat
  warm : Bool
  imageId : Nat
  /-- The stack 0–11 or package 12–23 that a failure 0x1205 names (R83); the 16 bytes of an entry have no place for it (log 79). -/
  device : Option Nat := none
deriving DecidableEq, Repr

/-- A staging session (R70). -/
structure StageSession where
  slot : Nat
  /-- Where the previous write ended. -/
  next : Nat := 0
  /-- A byte has been written in this session. -/
  wrote : Bool := false
deriving DecidableEq, Repr

/-- The boot flash with the fuses of R62 and R63. -/
structure BootBlock where
  /-- The two copies of the start record; none for a copy that is not valid. -/
  copy0 : Option StartRecord := none
  copy1 : Option StartRecord := none
  slot0 : SlotContents := .erased
  slot1 : SlotContents := .erased
  /-- Oldest first. -/
  log : List LogEntry := []
  session : Option StageSession := none
  /-- A reset ended a session, and its next command has not arrived (R72). -/
  sessionEnded : Bool := false
  /-- The module shipped with a loader in copy 0, in copy 1, of the core boot area; FLASH_WRITE replaces its units (R430). -/
  shipped0 : Bool := false
  shipped1 : Bool := false
  /-- Key slots 0–3: the digest fused, none where unprogrammed. -/
  keyDigests : List (Option (BitVec 384)) := []
  revoked : List Nat := []
  minVersion : Nat := 0
deriving DecidableEq, Repr

/-- A partition entry (R53). -/
structure PartitionEntry where
  valid : Bool := false
  roleCount : Nat := 0
  deckQuota : Nat := 0
deriving DecidableEq, Repr

/-- A bench entry (R53). -/
structure BenchEntry where
  state : BenchState := .idle
  role : Option Nat := none
  partition : Option Nat := none
deriving DecidableEq, Repr

/-- A region attribute entry (R59). -/
structure RegionEntry where
  base : Nat
  granules : Nat
  tiered : Bool
  posted : Bool
deriving DecidableEq, Repr

/-- An entry of the ADMITTED section (R61). -/
structure AdmittedEntry where
  cls : Nat := 0
  failStart : Bool := false
  vendor : Nat := 0
  device : Nat := 0
deriving DecidableEq, Repr

/-- The settings of an image (R48–R61). -/
structure Settings where
  imageId : Nat := 0
  securityVersion : Nat := 0
  featureRequire : Nat := 0
  variants : Nat := 0
  advanceMinimum : Bool := false
  buildTime : Nat := 0
  beyntax : Nat := 0
  formatMinor : Nat := 0
  keySlot : Nat := 0
  cord : Nat := 0
  seat : Nat := 0
  mladyth : Bool := false
  cordCount : Nat := 1
  systemId : Nat := 0
  /-- By partition number. -/
  partitions : Table PartitionEntry := {}
  /-- By bench number. -/
  benches : Table BenchEntry := {}
  /-- The partition of each ring that is defined, plus one (0 where undefined). -/
  rings : Table Nat := {}
  /-- By edge × 32 + bundle. -/
  kerfRoles : Table KerfRole := {}
  sustainedW : Nat := 0
  peakW : Nat := 0
  peakMs : Nat := 0
  groveQuanta : List Nat := []
  portEnable : Nat := 0
  timeRole : Nat := 0
  /-- Ports 47–70 in order: cord and seat of the peer, and the byte after them, which only CFG_GLOBAL_PEER shows (R57, R488). -/
  globalPeers : List (Nat × Nat) := []
  peerReserved : List Nat := []
  slotTable : SlotTable := {}
  regions : List RegionEntry := []
  sealing : Bool := false
  injection : Nat := 0
  revokeMask : Nat := 0
  authority : Nat × Nat := (0, 0)
  admitted : List AdmittedEntry := []
  tallyFwVersion : Nat := 0
  mgmtFwVersion : Nat := 0
  /-- SHA-384 digests of TALLY_FW, MGMT_FW and the signed message (R443). -/
  tallyFwDigest : BitVec 384 := 0
  mgmtFwDigest : BitVec 384 := 0
  messageDigest : BitVec 384 := 0
deriving DecidableEq, Repr

/-- Where the module stands (R68, R76, R89, R90, R409). -/
inductive PowerState where
  /-- No 24 V, or the always-on domain lost. -/
  | off
  | starting
  | running
  | hold
  /-- At step 6 of a warm reset. -/
  | warmReset
  /-- After steps 1–5, waiting for the input (R90). -/
  | brownOut
  | trip
deriving DecidableEq, Repr

/-- What one UCIe site answers at discovery (R353, R354). -/
structure SiteFound where
  present : Bool := false
  vendor : Nat := 0
  device : Nat := 0
  /-- The 32 bytes of the admission record; none when it did not come within 2 ms. -/
  record : Option (List Byte) := none
  /-- Rate and modules at full width that the mainband trained to. -/
  rate : Nat := 0
  modules : Nat := 0
  lanes : Nat := 64
deriving DecidableEq, Repr

/-- Failed lanes that training of one Kerf bundle finds (R83). -/
structure LanesFound where
  edge : Nat
  bundle : Nat
  dirA : List Nat := []
  dirB : List Nat := []
deriving DecidableEq, Repr

/-- What the hardware shows a start: everything the module finds out about itself and its surroundings (R76–R85). -/
structure StartInputs where
  flashAnswers : Bool := true
  enclavePasses : Bool := true
  /-- Dies that do not answer: groves 0–3, port dies 4 and 5. -/
  silentDies : List Nat := []
  /-- Dies that report a stepping other than their own: groves 0–3, port dies 4 and 5, Landing 6. -/
  steppings : List (Nat × Nat) := []
  lanes : List LanesFound := []
  /-- Failed lanes of stacks 0–11 and packages 12–23, where any: the device and its lane group, one entry a lane (R281). -/
  deviceLanes : List (Nat × Nat) := []
  /-- Groves whose Tally slice or operand cache fails its self-test. -/
  badGroves : List Nat := []
  /-- Benches that fail the self-test. -/
  badBenches : List Nat := []
  sites : List SiteFound := []
  /-- MGMT_ADDR2–0 as a number (R498). -/
  straps : Nat := 0
  /-- MODULE_RESET_N, or PWRBRK_N, is low as a cold start begins to sample the pins (R499, R500). -/
  resetLow : Bool := false
  brakeLow : Bool := false
  /-- Width and rate code of the link partner of each root port, if any. -/
  pcie : List (Option (Nat × Nat)) := []
deriving DecidableEq, Repr

/-- The life of the module: starts, resets, pins. -/
structure Lifecycle where
  power : PowerState := .off
  /-- Start stage code (R77). -/
  stage : Nat := 0
  /-- Code kept by the always-on domain across a warm reset (R88). -/
  keptCause : Option W16 := none
  /-- When the warm reset's steps 1–5 began. -/
  resetAt : Nat := 0
  /-- MODULE_RESET_N has been high since; none while it is low. -/
  resetPinHigh : Option Nat := some 0
  /-- PWRBRK_N is low. -/
  brakePinLow : Bool := false
  /-- This start is a module warm reset. -/
  warm : Bool := false
  /-- What a start that waits for the brake has found (R86). -/
  waiting : Option StartInputs := none
  /-- When step 15 began (R83). -/
  portsSince : Nat := 0
  /-- Start log entries appended since the last start that succeeded (R69). -/
  unreported : List LogEntry := []
  /-- SMBus address (R498). -/
  smbus : Nat := 0
  /-- Steppings of groves 0–3, port dies 0–1 and the Landing die, the groves' feature words, and the common feature level, as discovery
  read them (R80, R486). -/
  steppings : List Nat := []
  features : List Nat := []
  common : Nat := 0
  /-- What the sites answered at the last start (R354); STAGE_VERIFY checks against it. -/
  sites : List SiteFound := []
  /-- The dies have been identified (R486). -/
  identified : Bool := false
  /-- Input voltage in mV as last seen. -/
  inputMv : Nat := 0
  /-- The always-on domain has stayed in regulation since the last start (R90). -/
  alwaysOn : Bool := false
deriving DecidableEq, Repr

/-- Grove reset state of one grove (R91, R93). -/
structure GroveReset where
  count : Nat := 0
  busy : Bool := false
  since : Nat := 0
  /-- Quarantines held until step 7 (R93): the benches of each event, and its cause. -/
  held : List (List Nat × W16) := []
deriving DecidableEq, Repr

/-- Facts of this part that no command changes (R1, R5, R80, R486). -/
structure Part where
  /-- Order code suffix: 0 -E, 1 -P, 2 -C (R5). -/
  orderCode : Nat := 0
  /-- IDENTITY.VENDOR and SERIAL. -/
  vendor : Nat := 0
  serial : Nat := 0
  /-- Grove steppings: B1 where true, B0 otherwise; the Landing die is B0 (R80). -/
  groveB1 : List Bool := [false, false, false, false]
  /-- Stepping bytes of the two fabric port dies, which the spec does not give (R486; log 43). -/
  portSteppings : List Nat := [0xB0, 0xB0]
  /-- Setpoint fuses V_FUSE of each grove in units of 0.1 mV (R417). -/
  vFuse : List Nat := [8000, 8000, 8000, 8000]
  /-- SHA-384 digest of the management processor's ROM (R443). -/
  romDigest : BitVec 384 := 0
  /-- VENDOR_ID and DEVICE_ID the separate agreement names for customer dies (R509). -/
  customer : Nat × Nat := (0, 0)
  /-- The SYSTEM_ID of the acceptance-test image (R509). -/
  factorySystemId : Nat := 1
deriving DecidableEq, Repr

end Sys2Proof.Machine
end

