-- ==== Sys2Proof/Machine/Parts/Landing.lean ====
section
/-!
DEFINITION. Machine/Parts/Landing.lean: the harts as the module sees them, interrupts, PCIe root ports, the management
processor with its port and mailbox, and the SPDM responder (R424–R446).
-/

namespace Sys2Proof.Machine

/-- Privilege a hart runs at (R424, R429). -/
inductive HartMode where
  | m | hs | u | vs | vu
deriving DecidableEq, Repr

/-- Where a hart's program stands (R430). -/
inductive HartState where
  | inReset | running | wfi
deriving DecidableEq, Repr

/-- Exceptions a hart takes at an access (R427–R429, R481), those of its page tables and of its hypervisor's among them (R15, R288). -/
inductive HartTrap where
  | fetchAccess | loadAccess | storeAccess | virtualInstruction | illegalInstruction
  | fetchPage | loadPage | storePage | fetchGuest | loadGuest | storeGuest
deriving DecidableEq, Repr

/-- Its exception code in the RISC-V privileged specification, by which medeleg delegates it (R428). -/
def HartTrap.cause : HartTrap → Nat
  | .fetchAccess => 1 | .illegalInstruction => 2 | .loadAccess => 5 | .storeAccess => 7 | .fetchPage => 12 | .loadPage => 13
  | .storePage => 15 | .fetchGuest => 20 | .loadGuest => 21 | .virtualInstruction => 22 | .storeGuest => 23

/-- What an instruction of a hart brings to its access (R15, R424): where it stands and its bits, and the CSRs of the hart that bear on
the access. -/
structure HartView where
  pc : W64 := 0
  insn : W32 := 0
  medeleg : W64 := 0
  /-- Root page table of satp, or of vsatp in VS-mode and VU-mode; none in Bare mode. Sv39 in place of Sv48. -/
  root : Option Nat := none
  sv39 : Bool := false
  /-- Root of the G-stage tables (hgatp), in VS-mode and VU-mode; Sv39x4 in place of Sv48x4. -/
  guest : Option Nat := none
  guestSv39 : Bool := false
  sum : Bool := false
  mxr : Bool := false
deriving DecidableEq, Repr

/-- Stores of a hart to one codeword that have not left (R426): codeword, bytes by offset, and the context they carry (R314). -/
structure Combined where
  codeword : Nat
  bytes : List (Nat × Byte)
  since : Nat
  context : Nat := 1
deriving DecidableEq, Repr

/-- A refusal of a store that has yet to reach the hart (R428). -/
structure Deferred where
  code : W16
  addr : Nat
deriving DecidableEq, Repr

/-- A part of a hart's access that one page maps: its address in the program, its physical address and its bytes. -/
structure HartPiece where
  va : Nat
  pa : Nat
  n : Nat
deriving DecidableEq, Repr

/-- What a hart waits for before its next access (R270, R331, R376). -/
inductive HartWait where
  | nothing
  /-- A load or fetch of the tiers that waits for a migration or repair, the context it carries (R314), and whether it goes through the
  caches (R426). -/
  | migration (fetch : Bool) (pieces : List HartPiece) (context : Nat) (cached : Bool)
  /-- The reply to a remote load or atomic. -/
  | remote (id : Nat)
  /-- The acknowledgement of a control-space write. -/
  | write
  /-- The answer of an admitted die to an access of its window (R357). -/
  | site (n : Nat)
  /-- A store barrier or full barrier, until its earlier stores are acknowledged (R322). -/
  | barrier
  /-- WRS.NTO on a reservation set, until a write to the set wakes it (R327). -/
  | stalled (block : Nat)
deriving DecidableEq, Repr

/-- A Landing hart, as far as the module's rules name its state. -/
structure Hart where
  state : HartState := .inReset
  /-- Privilege of its last access, and where the instruction stands. -/
  mode : HartMode := .m
  pc : W64 := 0
  a0 : W64 := 0
  a1 : W64 := 0
  accFault : W64 := 0
  /-- What the last load or atomic returned, not extended; the upper half of a 16-byte one. -/
  value : W64 := 0
  valueHi : W64 := 0
  /-- Bytes of a vector access beyond these two. -/
  valueRest : List Byte := []
  medeleg : W64 := 0
  /-- The last exception it took, with stval; the address that sepc or mepc holds, the guest physical address of a guest-page fault as
  htval holds it, and whether medeleg delegated it (R428). -/
  trap : Option (HartTrap × W64) := none
  epc : W64 := 0
  tval2 : W64 := 0
  delegated : Bool := false
  combined : List Combined := []
  deferred : List Deferred := []
  /-- The reservation of LR: its 64-byte block (R327). -/
  reservation : Option Nat := none
  waiting : HartWait := .nothing
deriving DecidableEq, Repr

/-- The last completion a root port sent to an inbound request (R434). -/
inductive PcieCompletion where
  | none
  | data (bytes : List Byte)
  | unsupported
deriving DecidableEq, Repr

/-- How PERST_N of a root port is driven (R499, R500). -/
inductive PerstPin where
  | undriven | asserted | deasserted
deriving DecidableEq, Repr

/-- An interrupt file as the AIA has it beside its pending bits (R431): eidelivery, eithreshold, eie. -/
structure ImsicFile where
  delivery : Bool := false
  threshold : Nat := 0
  enables : Table Bool := {}
deriving DecidableEq, Repr

/-- A root port (R433–R435). -/
structure PciePort where
  context : Nat := 1
  inbound : Bool := false
  width : Nat := 0
  rate : Nat := 0
  refused : Nat := 0
  perst : PerstPin := .asserted
  /-- The reference clock runs (R506). -/
  refclk : Bool := false
  /-- A link change or AER error is reported and not cleared (R432). -/
  reports : Bool := false
  /-- Stores to its own configuration space, bus 0 device 0 function 0, the latest first (R433; log 92). -/
  config : List (Nat × W32) := []
  completion : PcieCompletion := .none
deriving DecidableEq, Repr

/-- Where a management request came from. -/
inductive MgmtSource where
  | port | mailbox
deriving DecidableEq, Repr

/-- Where the key of a sealed context comes from (R306, R310). -/
inductive KeySource where
  /-- The enclave's random source. -/
  | ephemeral
  /-- The tenant's key, as it unwraps. -/
  | imported (key : BitVec 512)
  /-- A wrapped key that does not unwrap. -/
  | badWrap
deriving DecidableEq, Repr

/-- A request to the SPDM responder or, in a session, to the enclave (R442, R444). -/
inductive SpdmRequest where
  | getVersion
  | getCapabilities
  | negotiateAlgorithms
  | getDigests
  | getCertificate (slot offset length : Nat)
  | challenge (slot : Nat) (nonce : List Byte)
  | getMeasurements (session : Option Nat) (index : Nat) (signed : Bool)
  | keyExchange (requester : Nat)
  | finish (session : Nat) (verifies : Bool)
  | heartbeat (session : Nat)
  | keyUpdate (session : Nat)
  | endSession (session : Nat)
  | vendorDefined (session : Option Nat) (standard vendor opcode : Nat) (payload : List Byte)
  | sealContext (session context : Nat) (key : KeySource)
  | sealStakes (session context addr count : Nat)
  | setExport (session context addr count : Nat) (on : Bool)
  | unsealContext (session context : Nat)
  | installCordKey (session cord epoch : Nat) (key : BitVec 256) (sigR sigS : Nat)
  | activateCordKey (session cord epoch : Nat)
  | eraseCordKey (session cord epoch : Nat)
deriving DecidableEq, Repr

/-- What a request to the management processor is (R439). -/
inductive MgmtRequest where
  /-- The bytes of a vendor message (R440). -/
  | vendor (message : List Byte)
  /-- The bytes of an MCTP control message. -/
  | control (message : List Byte)
  | spdm (request : SpdmRequest)
deriving DecidableEq, Repr

/-- A request that waits in the backlog (R437). -/
structure QueuedRequest where
  source : MgmtSource
  request : MgmtRequest
  at_ : Nat
deriving DecidableEq, Repr

/-- What a long operation does when it ends. -/
inductive LongKind where
  | vendor (command : Nat)
  /-- STAGE_SELECT and IMAGE_CONFIRM, whose record is written as they end (R44, R70). -/
  | select
  | confirm
  /-- RETRAIN of a port of a kind: it returns the state the port ends in (R440). -/
  | retrain (kind port : Nat)
  | spdm
  | enclave
deriving DecidableEq, Repr

/-- A long operation that runs (R441): its kind, its source and the response it will send. -/
structure LongOp where
  kind : LongKind
  source : MgmtSource
  response : List Byte
  since : Nat
  bound : Nat
deriving DecidableEq, Repr

/-- Stage of an SPDM connection (R442; DSP0274's order of requests). -/
inductive SpdmStage where
  | start | version | capabilities | negotiated
deriving DecidableEq, Repr

/-- An SPDM session (R442). -/
structure SpdmSession where
  id : Nat
  established : Bool := false
  /-- Key update count of the session's keys. -/
  keyUpdates : Nat := 0
  lastHeartbeat : Nat := 0
  /-- The requester's certificate chain presented in mutual authentication (R306). -/
  requester : Nat := 0
deriving DecidableEq, Repr

/-- The management processor, its port and its mailbox. -/
structure MgmtBlock where
  backlog : List QueuedRequest := []
  backlogMax : Nat := 0
  heartbeat : Nat := 0
  served : Nat := 0
  refused : Nat := 0
  request : Table Byte := {}
  response : Table Byte := {}
  rspLen : Nat := 0
  reqLen : Nat := 0
  rspReady : Bool := false
  /-- The mailbox request posted is unanswered. -/
  posted : Bool := false
  /-- The last response sent on the management port. -/
  portResponse : List Byte := []
  long : Option LongOp := none
  spdm : SpdmStage := .start
  sessions : List SpdmSession := []
  nextSession : Nat := 1
  /-- Endpoint identifier given by MCTP control (R439). -/
  eid : Nat := 0
  /-- A READ_REGISTER or WRITE_REGISTER is under way and not yet answered (R300, R331, R357). -/
  writing : Bool := false
deriving DecidableEq, Repr

/-- One domain of the APLIC (R432; fields of the RISC-V AIA, MSI delivery mode). -/
structure AplicDomain where
  /-- domaincfg.IE. -/
  enabled : Bool := false
  /-- sourcecfg by source: bit 10 delegates to the S domain, bits 2:0 the source mode. -/
  sources : Table Nat := {}
  pending : Table Bool := {}
  enables : Table Bool := {}
  /-- target by source: hart index 31:18, guest index 17:12, identity 10:0. -/
  targets : Table Nat := {}
deriving DecidableEq, Repr

/-- Harts, interrupt files, APLIC and root ports. -/
structure LandingBlock where
  harts : Table Hart := {}
  /-- Pending identities, by file × 2,048 + identity; files as R431 numbers them. -/
  pendingMsi : Table Bool := {}
  /-- The files' own registers, by file. -/
  imsic : Table ImsicFile := {}
  /-- APLIC sources whose wire is asserted (R432). -/
  wires : Table Bool := {}
  aplicM : AplicDomain := {}
  aplicS : AplicDomain := {}
  pcie : Table PciePort := {}
  /-- ENTRY and the copy used, once a core boot header was valid (R430). -/
  bootEntry : Option (W64 × Nat) := none
  /-- Core clocks halved or held at 800 MHz are Boom's (R407, R414); THROTTLE_LOG_COUNT when source 3 was last cleared. -/
  throttleSeen : Nat := 0
  /-- A PEER_STATE entry, or a Genpex port, has changed since the APLIC last took the source (R432). -/
  peerChanged : Bool := false
  /-- Codewords of the near and bulk tiers that the system cache holds (R425). -/
  systemCache : List Nat := []
  /-- When the cores left reset (R424). -/
  coresSince : Option Nat := none
  portChanged : Bool := false
deriving DecidableEq, Repr

end Sys2Proof.Machine
end

