-- ==== Sys2Proof/Machine/Parts/Power.lean ====
section
/-!
DEFINITION. Machine/Parts/Power.lean: Boom, clocks, grants, throttle reasons, temperatures and ageing (R393–R423).
-/

namespace Sys2Proof.Machine

/-- STATE of BENCH_GRANT (R420). -/
inductive ClockState where
  | stopped | running | stretched | revoked
deriving DecidableEq, Repr

/-- PLL of a grove (R394, R420). -/
inductive PllState where
  | off | locking | running | sleep
deriving DecidableEq, Repr

/-- What a bench holds of Boom (R395–R400). -/
structure BenchPower where
  clock : ClockState := .stopped
  demand : Nat := 0
  granted : Nat := 0
  /-- Quanta a revocation took and a restore gives back (R400). -/
  revoked : Nat := 0
  /-- A task of it must stop under a ring reset or a squash (R400). -/
  stopping : Bool := false
  /-- When its last top-up was granted (R398). -/
  toppedAt : Option Nat := none
  starts : Nat := 0
deriving DecidableEq, Repr

/-- What a grant request asks for, in the order of R397. -/
inductive GrantKind where
  | restore | topUp | fresh
deriving DecidableEq, Repr

/-- A grant request that waits (R397, R398). -/
structure GrantRequest where
  bench : Nat
  kind : GrantKind
  /-- The grant asked for, in all. -/
  quanta : Nat
  /-- PRIORITY of the ring whose task asks. -/
  priority : Nat := 0
  /-- A ring reset or a squash waits for the bench (R400). -/
  stopping : Bool := false
  /-- The throttle reason that made it wait or revoked it; 0 for none. -/
  reason : Nat := 0
  since : Nat := 0
deriving DecidableEq, Repr

/-- What Boom holds of a grove (R394–R418). -/
structure GrovePower where
  pool : Nat := 0
  temp : Nat := 0
  stackTemp : Nat := 0
  pll : PllState := .off
  /-- When the last grant of the grove ended. -/
  idleSince : Nat := 0
  cap : Nat := 0
  /-- Reason of a lowered cap: 0, 5 or 6. -/
  capReason : Nat := 0
  stretched : Bool := false
  /-- No bench clock starts before this time (R406). -/
  holdoff : Option Nat := none
  /-- Stretched until the next margin sample (R417). -/
  marginStretch : Bool := false
  fmaxSteps : Nat := 0
  trimSteps : Nat := 0
  marginPs : Nat := 0
  lowStreak : Nat := 0
  /-- The ageing margin is exhausted (R418): no bench task issues to the grove again. -/
  ended : Bool := false
  /-- Times of its clock starts of the last 250 ns (R399). -/
  startTimes : List Nat := []
  /-- Benches whose start the stagger or the PLL defers. -/
  deferred : List Nat := []
deriving DecidableEq, Repr

/-- A temperature sensor (R407): grove dies, stacks, packages, Landing die, port dies, always-on domain. -/
inductive Sensor where
  | grove (g i : Nat)
  | stack (n : Nat)
  | package (n : Nat)
  | landing (i : Nat)
  | portDie (d i : Nat)
  | alwaysOn (i : Nat)
deriving DecidableEq, Repr

/-- The last report of a sensor. -/
structure SensorState where
  sensor : Sensor
  temp : Nat := 0
  at_ : Nat := 0
  /-- Silent for 1 ms: it counts at its threshold (R408). -/
  silent : Bool := false
deriving DecidableEq, Repr

/-- An episode of a throttle reason that is still running (R416). -/
structure RunningReason where
  reason : Nat
  start : Nat
  scope : Nat
  depth : Nat
  /-- The same start in the module's own count, which no step of fabric time changes. -/
  began : Nat := 0
deriving DecidableEq, Repr

/-- A throttle log entry (R416). -/
structure ThrottleEntry where
  start : Nat := 0
  durationUs : Nat := 0
  reason : Nat := 0
  scope : Nat := 0
  depth : Nat := 0
deriving DecidableEq, Repr

/-- The Boom block. -/
structure PowerBlock where
  braked : Bool := false
  measured : Bool := false
  episode : Bool := false
  episodeStart : Nat := 0
  recovering : Bool := false
  /-- Length of the episode whose recovery runs, in ns, and since when M has stayed at or below the budget (R403). -/
  recoveryNs : Nat := 0
  recoverSince : Option Nat := none
  budget : Nat := 0
  vIn : Nat := 0
  estimatedW : Nat := 0
  measuredW : Nat := 0
  /-- Energy drawn at the entry, in µJ; ENERGY reads its mJ (R419). -/
  energy : Nat := 0
  /-- P_other of R402 as the estimator last formed it, in mW. -/
  otherMw : Nat := 0
  sleepUs : Nat := 200
  softLimit : Nat := 0
  lastEpisodeUs : Nat := 0
  episodes : Nat := 0
  /-- |E − M| has exceeded 0.12 M since, and has stayed at or below 0.04 M since (R405). -/
  divergedSince : Option Nat := none
  agreedSince : Option Nat := none
  /-- M was missing or implausible: 80% budgets and no episode until a restart (R405). -/
  fallback : Bool := false
  /-- No comparison of E and M before this time (R404). -/
  compareFrom : Nat := 0
  /-- The limit of R411 is in force, and since when V_in has been back. -/
  inputLow : Bool := false
  benches : Table BenchPower := {}
  groves : Table GrovePower := {}
  requests : List GrantRequest := []
  /-- Benches that hold quanta, most recently granted first (R400). -/
  order : List Nat := []
  /-- The grove the next round-robin refill serves (R397). -/
  turn : Nat := 0
  sensors : List SensorState := []
  packageThrottled : List Nat := []
  landingHalved : Bool := false
  thermAsserted : Bool := false
  acc : Table Nat := {}
  running : List RunningReason := []
  /-- By how much steps have moved fabric time ahead of the module's own count since its start (R370). -/
  stepped : Int := 0
  /-- When each active reason became active, over all its scopes, in the module's own count (R415). -/
  activeFrom : Table Nat := {}
  log : Table ThrottleEntry := {}
  logCount : Nat := 0
  /-- The kept trip code's sensor (R409). -/
  trip : Option Sensor := none
  /-- An injected sample made that trip (R465). -/
  tripInjected : Bool := false
deriving DecidableEq, Repr

end Sys2Proof.Machine
end

