-- ==== Sys2Proof/Syntax.lean ====
section
/-!
DEFINITION. Syntax.lean: the commands of the block, one constructor per row of the opcode table, and their operands.
The table gives its rows no bits, so the operands are the model's own (log 1): what a rule lets the command's sender or the
surroundings of the module decide.
-/

namespace Sys2Proof

open Sys2Proof.Machine

/-- A unit message at its target (R33, R377). -/
structure UnitMsg where
  /-- Bench-level unit identifier of the target. -/
  target : W64 := 0
  epoch : Nat := 0
  /-- Byte offset in the target's scratch. -/
  offset : Nat := 0
  data : List Byte := []
  /-- Index of the sending module; 0xFFFF for this one. -/
  origin : Nat := 0xFFFF
  /-- The sending task of this module, or the sending hart. -/
  task : Option (Nat × Nat) := none
  /-- The hart, and the physical address it stored to. -/
  hart : Option (Nat × Nat) := none
deriving DecidableEq, Repr

/-- A stale-epoch notice as it reaches the sender (R35). -/
structure StaleNotice where
  /-- The fabric transfer whose message was dropped. -/
  transfer : Nat := 0
  /-- Present role epoch of the target, and its state: 1 active, 2 standby, 3 quarantined. -/
  present : Nat := 0
  state : Nat := 1
  /-- Identifier and role epoch of the role's present holder; zero when it has none. -/
  holder : W64 := 0
  holderEpoch : Nat := 0
deriving DecidableEq, Repr

/-- What a fence clock belongs to (R234, R248). -/
inductive FenceOwner where
  | task (ring seq : Nat)
  | group (g : Nat)
deriving DecidableEq, Repr

/-- Atomics of a hart (R327, R376); `wrs` is WRS.NTO, which stalls the hart on its reservation set (R327). -/
inductive AmoOp where
  | swap | add | and | or | xor | min | max | minu | maxu | cas | lr | sc | wrs
deriving DecidableEq, Repr

/-- An access to the ACC_FAULT CSR (R429). -/
inductive CsrAccess where
  | read
  | write (v : W64)
deriving DecidableEq, Repr

/-- An inbound PCIe request (R434). -/
structure PcieRequest where
  addr : Nat := 0
  /-- The bytes of a write; none for a read. -/
  write : Option (List Byte) := none
  /-- Bytes of a read. -/
  length : Nat := 0
deriving DecidableEq, Repr

/-- The end of a link the peer shows at setup (R364), and its global ports with the cords they lead to. -/
structure LinkPeer where
  systemId : Nat := 0
  module : Nat := 0
  port : Nat := 0
  gen : Nat := 0
  globals : List (Nat × Nat) := []
deriving DecidableEq, Repr

/-- What a Genpex data frame carries (R366, R374). -/
structure DataFrame where
  /-- Number of the frame on its link. -/
  number : Nat := 0
  /-- Its correction is good (R366). -/
  corrected : Bool := true
  /-- The 32 bytes of its header, which the tag covers; what they say stands beside them (log 91). -/
  header : List Byte := []
  /-- The frame counter of its nonce, and its tag (R367). -/
  counter : Nat := 0
  authTag : BitVec 128 := 0
  /-- Key epoch the header names. -/
  keyEpoch : Nat := 0
  origin : Nat := 0
  /-- Module the frame is for; 0xFFFF for this one. -/
  destination : Nat := 0xFFFF
  /-- Links its path has, which its bound depends on (R382). -/
  links : Nat := 1
  transfer : Nat := 0
  tag : Nat := 0
  /-- WINDOW; 255 for the unit form. -/
  window : Nat := 0
  offset : Nat := 0
  /-- Bytes of the whole transfer. -/
  length : Nat := 0
  /-- Its rows, as they come: encrypted (R367). -/
  payload : List Byte := []
  sealed : Bool := false
  /-- Unit form: identifier and role epoch the message carries. -/
  unit : W64 := 0
  epoch : Nat := 0
  /-- Sent in this slot (its start); none for best effort. -/
  slotStart : Option Nat := none
deriving DecidableEq, Repr

/-- An offer as it arrives at this module (R380). -/
structure Offer where
  port : Nat := 0
  origin : Nat := 0
  destination : Nat := 0
  slotStart : Nat := 0
  window : Nat := 0
  offset : Nat := 0
  length : Nat := 0
  tag : Nat := 0
  /-- It carries the SEALED mark (R309). -/
  sealed : Bool := false
deriving DecidableEq, Repr

/-- A remote access served at this module (R385). -/
structure RemoteAccess where
  origin : Nat := 0
  window : Nat := 0
  offset : Nat := 0
  tag : Nat := 0
  size : Nat := 8
deriving DecidableEq, Repr

/-- A two-way exchange with a time source (R369–R371). -/
structure TimeExchange where
  port : Nat := 0
  module : Nat := 0
  /-- TIME_ROLE and time state the source claims, and the system root its time flows from (R369). -/
  role : Nat := 0
  root : Nat := 0
  state : TimeState := .sync
  /-- The source's fabric time at this moment, as measured. -/
  sourceTime : Nat := 0
deriving DecidableEq, Repr

/-- A microsecond of activity as Boom's estimator sums it (R404): watts at the point of load before the division. -/
structure PowerSample where
  /-- The estimator's sum for the benches and for every other load, in mW at the point of load. -/
  benchMw : Nat := 0
  otherMw : Nat := 0
  /-- Measured entry power in W; none when it has not been updated for 100 µs. -/
  measured : Option Nat := none
  /-- Energy of the microsecond in µJ (R419 counts mJ). -/
  inputMv : Nat := 24000
deriving DecidableEq, Repr

/-- One command of the block. -/
inductive Instr where
  -- Starts, resets, roles (chapters 02 and 04)
  | coldStart (inp : StartInputs)
  | portTrainTimeout
  | moduleResetNRecognised
  | warmResetResume (inp : StartInputs)
  | inputBrownOut (mv : Nat)
  | brownOutRestart (inp : StartInputs)
  | powerLoss
  | groveResetRequest (g : Nat)
  | groveResetComplete (g : Nat) (bad : List Nat)
  | benchQuarantine (g b : Nat)
  | epochAdvance (n : Nat)
  | unitMessage (m : UnitMsg)
  | staleEpochNotice (n : StaleNotice)
  -- Staging (chapter 03)
  | stageOpen (src : MgmtSource) (slot : Nat)
  | stageWrite (src : MgmtSource) (offset : Nat) (data : List Byte)
  | stageVerify (src : MgmtSource)
  | stageSelect (src : MgmtSource)
  | stageAbort (src : MgmtSource)
  | imageConfirm (src : MgmtSource)
  | startRecordRead (src : MgmtSource) (n : Nat)
  -- Rings and Tally (chapter 10)
  | ringDoorbell (r : Nat) (v : W64)
  | ringEnable (r : Nat)
  | ringPause (r : Nat)
  | ringResume (r : Nat)
  | ringReset (r : Nat)
  | benchReport (r n : Nat)
  | failureAcknowledge (r : Nat)
  | taskStage (r : Nat)
  | counterChangeObserved (pa : Nat)
  | fenceTimeout (o : FenceOwner)
  | matmul (r seq : Nat)
  | semiring (r seq : Nat)
  | vector (r seq : Nat)
  | fenceWait (r seq : Nat)
  | fenceSignal (r seq : Nat)
  | enqueue (r seq : Nat)
  | enqueueAppend (r seq : Nat)
  | barrier (r seq : Nat)
  | barrierComplete (r seq : Nat)
  | taskComplete (r seq : Nat)
  -- Bench array and Dresser (chapters 06 and 08)
  | passStart (n : Nat)
  | tileDrain (n : Nat)
  | tileBoundary (n : Nat)
  | arrayParityError (n : Nat) (code : W16)
  | dresserEntryStart (n : Nat)
  | skidEntryFree (n : Nat)
  | dresserParityError (n : Nat)
  | skidEntryError (n : Nat) (corrected : Bool)
  | nop (n : Nat)
  | load (n : Nat)
  | loadskid (n : Nat)
  | store (n : Nat)
  | sload (n : Nat)
  | sstore (n : Nat)
  | gather (n : Nat)
  | scatter (n : Nat)
  | scatadd (n : Nat)
  | mov (n : Nat)
  | iota (n : Nat)
  | select (n : Nat)
  | add (n : Nat)
  | sub (n : Nat)
  | mul (n : Nat)
  | fma (n : Nat)
  | min (n : Nat)
  | max (n : Nat)
  | abs (n : Nat)
  | neg (n : Nat)
  | clamp (n : Nat)
  | rcp (n : Nat)
  | sqrt (n : Nat)
  | rsqrt (n : Nat)
  | exp (n : Nat)
  | log (n : Nat)
  | tanh (n : Nat)
  | sigmoid (n : Nat)
  | silu (n : Nat)
  | gelu (n : Nat)
  | relu (n : Nat)
  | rope (n : Nat)
  | div (n : Nat)
  | cmp (n : Nat)
  | mand (n : Nat)
  | mor (n : Nat)
  | mnot (n : Nat)
  | iadd (n : Nat)
  | isub (n : Nat)
  | imul (n : Nat)
  | imin (n : Nat)
  | imax (n : Nat)
  | ishr (n : Nat)
  | cvti (n : Nat)
  | cvtf (n : Nat)
  | rsum (n : Nat)
  | rmax (n : Nat)
  | rmin (n : Nat)
  | topkClear (n : Nat)
  | topk (n : Nat)
  | topkEmit (n : Nat)
  -- Deck (chapter 09)
  | deckEnable (g : Nat) (v : W64)
  | deckZeroingDone (g : Nat)
  | deckCreate (r seq : Nat)
  | deckExtendProvisional (r seq : Nat)
  | deckExtendCommitted (r seq : Nat)
  | deckWrite (r seq : Nat)
  | deckRead (r seq : Nat)
  | deckCommit (r seq : Nat)
  | deckRollback (r seq : Nat)
  | deckFork (r seq : Nat)
  | deckRelease (r seq : Nat)
  | deckQuery (r seq : Nat)
  | deckScrubDone (g slot : Nat)
  | deckTruncation (handle group : Nat)
  | deckRelabel (handle group : Nat)
  -- MOVE (chapter 11)
  | copy (r seq : Nat)
  | fill (r seq : Nat)
  | prefetch (r seq : Nat)
  | evict (r seq : Nat)
  | flashWrite (r seq : Nat)
  -- Tiers (chapter 11); an ashlar is named by its tier offset (R264)
  | migration (offset : Nat)
  | migrationComplete (ashlar : Nat)
  | correctedError (pa : Nat)
  | uncorrectableRead (pa : Nat)
  | replicaFetchArrival (ashlar : Nat) (data : List Byte)
  | replicaTimeout (ashlar : Nat)
  | tierEnable (v : W64)
  | objectValidate (o : Nat) (v : W64)
  | objectDrain (o : Nat) (v : W64)
  | objectDrainDone (o : Nat)
  | tierStatusRead
  | stackTempReport (device temp : Nat)
  -- Translation, stakes, seals (chapter 12)
  | pageWalkDone (r seq : Nat)
  | batchTimerClose
  | flush
  | tuFbDone (v : W64)
  | batchAnswerTimeout (slot : Nat)
  | tuCtxEnable (v : W64)
  | tuFbEnable (v : W64)
  | tuInval (v : W64)
  | invalidationDrainDone
  | assign (v : W64)
  | release (v : W64)
  | revokeSeal (v : W64)
  | stakeReleaseDone
  | sealContext (session context : Nat) (key : KeySource)
  | sealStakes (session context addr count : Nat)
  | setExport (session context addr count : Nat) (on : Bool)
  | unsealContext (session context : Nat)
  | installCordKey (session cord epoch : Nat) (key : BitVec 256) (sigR sigS : Nat)
  | activateCordKey (session cord epoch : Nat)
  | eraseCordKey (session cord epoch : Nat)
  | opcacheInval (g : Nat) (v : W64)
  | opcacheInvalDone (g : Nat)
  -- Harts (chapters 13 and 17)
  -- `x` is the instruction and the hart's CSRs; `fetch` is an instruction fetch (R481); `rl` is an atomic's rl bit (R322)
  | hartLoad (h : Nat) (mode : HartMode) (addr size : Nat) (fetch : Bool) (x : HartView)
  | hartStore (h : Nat) (mode : HartMode) (addr size : Nat) (v : BitVec 512) (x : HartView)
  | hartAtomic (h : Nat) (mode : HartMode) (op : AmoOp) (addr size : Nat) (a b : BitVec 128) (rl : Bool) (x : HartView)
  | combinedStoreSend (h codeword : Nat)
  | loadBarrier (h : Nat)
  | storeBarrier (h : Nat)
  | fullBarrier (h : Nat)
  | deferredStoreFault (h : Nat) (x : HartView)
  | postedWriteCheckFail (addr context : Nat) (code : W16)
  | accFaultAccess (h : Nat) (mode : HartMode) (a : CsrAccess) (x : HartView)
  | imsicMsi (addr : Nat) (v : W32)
  | aplicSourceChange (source : Nat)
  | pcieInbound (p : Nat) (q : PcieRequest)
  | pcieLinkChange (p width rate : Nat) (aer : Bool)
  -- Management (chapter 17)
  | mailboxGo (v : W64)
  | mgmtResponse
  | mgmtHeartbeat
  | mctpControl (pec : Bool) (message : List Byte)
  | getIdentity (src : MgmtSource)
  | getStatus (src : MgmtSource)
  | readRegister (src : MgmtSource) (addr : Nat)
  | writeRegister (src : MgmtSource) (addr : Nat) (v : W64)
  | readErrorRecords (src : MgmtSource) (count : Nat)
  | moduleReset (src : MgmtSource)
  | retrain (src : MgmtSource) (kind port : Nat)
  | inject (src : MgmtSource) (slot : Nat) (ctl locator : W64)
  | mgmtLongOpDone
  | getVersion
  | getCapabilities
  | negotiateAlgorithms
  | getDigests
  | getCertificate (slot offset length : Nat)
  | challenge (slot : Nat) (nonce : List Byte)
  | getMeasurements (session : Option Nat) (index : Nat) (signed : Bool)
  | keyExchange (requester : Nat)
  | finish (session : Nat) (verifies : Bool)
  | heartbeat (session : Nat)
  | keyUpdate (session : Nat)
  | endSession (session : Nat)
  | vendorDefinedRequest (session : Option Nat) (standard vendor opcode : Nat) (payload : List Byte)
  -- Kerf and sites (chapter 14)
  | kerfFlitReceive (edge bundle : Nat) (dirB : Bool) (number : Nat) (good : Bool) (offered : List KerfFlit)
  | kerfReplay (edge bundle : Nat) (dirB : Bool)
  | kerfLaneCheck (edge bundle : Nat) (dirB : Bool) (bad : List Nat)
  | pausedRepairDone (edge bundle : Nat) (badA badB : List Nat)
  | kerfRetrainDone (edge bundle : Nat) (badA badB : List Nat)
  | kerfClockLoss (edge bundle : Nat) (dirB : Bool)
  | siteTempReport (site temp : Nat)
  | siteReportTimeout (site : Nat)
  | siteMainbandFailure (site : Nat) (recovered : Bool) (modules lanes rate : Nat)
  | siteWindowAccess (site h offset : Nat) (write : Option W64) (answer : Option W64)
  | siteWindowTimeout (site : Nat)
  -- Fabric (chapter 15)
  | linkSetup (port : Nat) (peer : LinkPeer)
  | portReceiveTimeout (port : Nat)
  | portRetrainTimer (port : Nat)
  | frameKeepalive (port : Nat)
  | dataFrameReceive (port : Nat) (f : DataFrame)
  | frameReplay (port fromFrame : Nat)
  | timeExchange (x : TimeExchange)
  | holdoverExpire
  | rootSyncTimeout
  | selfNotice (module gen arrival : Nat)
  | linkNotice (module port arrival : Nat)
  | transferHandover (id : Nat)
  | offerSend (id : Nat)
  | offerReceive (o : Offer)
  | offerAnswer (id : Nat) (code : W16)
  | offerForfeit (id : Nat)
  | slotStart
  | bestEffortAck (id : Nat) (code : W16)
  | bestEffortResend (id : Nat)
  | remoteReadRequest (q : RemoteAccess)
  | remoteAtomicRequest (q : RemoteAccess) (op : AmoOp) (a b : W64)
  | remoteReply (id : Nat) (code : W16) (v : W64)
  | remoteLoadTimeout (id : Nat)
  | windowEnable (w : Nat) (v : W64)
  | windowDrain (w : Nat) (v : W64)
  | windowDrainDone (w : Nat)
  | arm
  | cancel
  | slotTableSwitch
  -- Power (chapter 16)
  | grantRequest (n : Nat)
  | grant (g : Nat)
  | staggeredStart (g : Nat)
  | poolRefill (g : Nat)
  | topUpRequest (n : Nat)
  | reclaimReview (used : List (Nat × Nat))
  | budgetUpdate
  | episodeTimeout
  | estimateSample (p : PowerSample)
  | measuredControlStep
  | measuredPowerMissing
  | pllSleep (g : Nat)
  | pllRelockDone (g : Nat)
  | droop (g : Nat)
  | droopRecover (g : Nat)
  | droopStartHoldoffEnd (g : Nat)
  | tempSample (x : Sensor) (temp : Nat)
  | groveCapUpdate
  | sensorTimeout (x : Sensor)
  | thermNRelease
  | inputLowLimit (mv : Nat)
  | inputLowLimitEnd (mv : Nat)
  | powerBrake
  | powerBrakeRelease
  | marginSample (g ps : Nat)
  | boomCtlWrite (v : W64)
  -- Errors, injection, monitors (chapter 18)
  | errRead (v : W64)
  | ack
  | tallyStateError (g : Nat)
  | opcacheLineError (g line : Nat)
  | systemCacheLineError (pa : Nat)
  | landingStateError
  | injectionArm (slot : Nat) (v : W64)
  | injectionDisarm (slot : Nat)
  | go (v : W64)
  | abort
  | diagScanDone (fails : Nat) (first : W64)
  | scalerArm (ch : Nat) (v : W64)
  | scalerAbort (ch : Nat)
  | scalerCaptureStart (ch : Nat)
  | scalerSample (ch : Nat) (v : Nat)
  | scalerCaptureStop (ch : Nat)
  | registerWrite (addr : Nat) (v : W64)
  | slotTableLoad
  | slotTableLoadDone
  | stakeAssignDone
deriving DecidableEq, Repr

end Sys2Proof
end

