-- ==== Sys2Proof/Machine/Parts/Deck.lean ====
section
/-!
DEFINITION. Machine/Parts/Deck.lean: the Deck unit of a grove and DECK descriptors (R200–R222). The sequence table, the page
lists and the page metadata are held as what they say (only the Deck unit reaches their bytes, R204); the page pool is memory.
-/

namespace Sys2Proof.Machine

/-- STATE of a sequence slot (R207). -/
inductive SeqState where
  | free | live | scrubbing | retired
deriving DecidableEq, Repr

/-- A sequence table entry with its page list (R207). PROV is the length of `groups`. -/
structure SeqEntry where
  gen : Nat := 0
  state : SeqState := .free
  streamsLog2 : Nat := 0
  context : Nat := 0
  partition : Nat := 0
  committed : Nat := 0
  /-- PROV_GROUP of each provisional token. -/
  groups : List Nat := []
  /-- Pool page indices in position order. -/
  pages : List Nat := []
deriving DecidableEq, Repr

/-- A grove's Deck unit (R205, R206). -/
structure DeckUnit where
  pageLog2 : Nat := 0
  listLog2 : Nat := 0
  zeroing : Bool := false
  enable : Bool := false
  areaBase : Nat := 0
  poolPages : Nat := 0
  configErr : Bool := false
  /-- DECK_OPS.COUNT. -/
  ops : Nat := 0
  seqs : Table SeqEntry := {}
  /-- Freed pages, top first (R206). -/
  freeStack : List Nat := []
  /-- The lowest pool page never yet used. -/
  neverUsed : Nat := 0
  /-- Reference counts of pool pages. -/
  refs : Table Nat := {}
deriving DecidableEq, Repr

/-- OP of a DECK task, EXTEND told apart by COMMITTED (R208). -/
inductive DeckOp where
  | create | extendProvisional | extendCommitted | write | read | commit | rollback | fork | release | query
deriving DecidableEq, Repr

/-- A DECK descriptor (R208). -/
structure DeckDesc where
  op : DeckOp := .query
  /-- VIEW 1 of a READ. -/
  view : Bool := false
  streamsLog2 : Nat := 0
  handle : Nat := 0
  count : Nat := 0
  first : Nat := 0
  streamFirst : Nat := 0
  streamCount : Nat := 0
  rowStride : Nat := 0
  data : Nat := 0
  result : Nat := 0
  streamPitch : Nat := 0
deriving DecidableEq, Repr

end Sys2Proof.Machine
end

