-- ==== Sys2Proof/Machine/Parts/Formats.lean ====
section
/-!
DEFINITION. Machine/Parts/Formats.lean: the number formats of the array and the Dresser (R97, R150, R176), and exact values.
-/

namespace Sys2Proof.Machine

/-- An exact value: a NaN, an infinity, or (-1)^neg · mag · 2^exp (a zero keeps its sign). -/
inductive Val where
  | nan
  | inf (neg : Bool)
  | fin (neg : Bool) (mag : Nat) (exp : Int)
deriving DecidableEq, Repr

/-- How a floating-point layout spends its all-ones exponent (R97). -/
inductive Specials where
  /-- Inf and NaN as IEEE 754 (BF16, FP16, FP32, E5M2). -/
  | ieee
  /-- No Inf; only exponent and mantissa all ones is NaN (E4M3). -/
  | e4m3
  /-- Neither (the 6-bit and 4-bit elements). -/
  | none
deriving DecidableEq, Repr

/-- A sign, exponent, mantissa layout with its bias (R97). -/
structure FpLayout where
  ebits : Nat
  mbits : Nat
  bias : Nat
  specials : Specials
deriving DecidableEq, Repr

/-- The element encodings of R97, with FP32 and INT32 (R176). -/
inductive Elem where
  | e4m3 | e5m2 | e3m2 | e2m3 | e2m1 | int8 | int4 | mxint8 | bf16 | fp16 | fp32 | raw16 | int32
deriving DecidableEq, Repr

/-- The format codes of R150, with INT32 of R176. -/
inductive Format where
  | fp8e4m3 | fp8e5m2 | int8 | int4
  | mxfp8e4m3 | mxfp8e5m2 | mxfp6e3m2 | mxfp6e2m3 | mxfp4 | mxint8
  | bf16 | fp16 | fp32 | int32 | raw16 | acc96
deriving DecidableEq, Repr

/-- The path of a task's arithmetic (R151, R140). -/
inductive MathMode where
  | exact | tree | minPlus | maxPlus | l1 | l2 | matchWords | xorPop
deriving DecidableEq, Repr

/-- The packing geometries of R128. -/
inductive Geometry where
  | g1 | g4 | g16
deriving DecidableEq, Repr

end Sys2Proof.Machine
end

