-- ==== Sys2Proof/Machine/Parts/Acc.lean ====
section
/-!
DEFINITION. Machine/Parts/Acc.lean: what the foot of the array holds for one output (R103–R105, R113, R114).
-/

namespace Sys2Proof.Machine

/-- One output of an accumulator bank. On the exact path `n` is the integer in its hidden extended width, with the
flags of R104, R105 and R111; on the tree path and in a semiring mode `run` is the running value (R114, R140) and
`parts` the finished subtree sums of the K-slice in progress (R131). -/
structure OutCell where
  n : Int := 0
  anchor : Int := 0
  sticky : Bool := false
  nan : Bool := false
  posInf : Bool := false
  negInf : Bool := false
  /-- An ACC96 input had SAT set (R111): the sign of its N, true for negative. -/
  satIn : Option Bool := none
  run : Option W32 := none
  parts : List W32 := []
  /-- A MATCH or XORPOP count (R140). -/
  count : Nat := 0
deriving DecidableEq, Repr

end Sys2Proof.Machine
end

