-- ==== Sys2Proof/Machine/Parts/Matrix.lean ====
section
/-!
DEFINITION. Machine/Parts/Matrix.lean: MATMUL and SEMIRING tasks and Dresser programs as Tally holds them once staged
(R146–R148, R173–R178). An address is the 64-bit address field of R147, as the descriptor gives it.
-/

namespace Sys2Proof.Machine

/-- A problem entry (R148). -/
structure Problem where
  m : Nat := 0
  n : Nat := 0
  k : Nat := 0
  aElem : Nat := 0
  aScale : Nat := 0
  bElem : Nat := 0
  bScale : Nat := 0
  cAddr : Nat := 0
  initAddr : Nat := 0
deriving DecidableEq, Repr

/-- OUT_LAYOUT (R160). -/
inductive OutLayout where
  | tile | paired | strided
deriving DecidableEq, Repr

/-- The kind of a tensor (R176). -/
inductive TensorKind where
  | memory | fabric | deck | taskOutput
deriving DecidableEq, Repr

/-- A tensor entry (R176). -/
structure Tensor where
  address : Nat := 0
  scaleAddress : Nat := 0
  kind : TensorKind := .memory
  format : Format := .fp32
  colBcast : Bool := false
  timed : Bool := false
  stride1 : Nat := 0
  stride2 : Nat := 0
  stride3 : Nat := 0
deriving DecidableEq, Repr

/-- A Dresser instruction, its fields taken apart (R178). -/
structure DInstr where
  imm : W32 := 0
  opcode : Nat := 0
  phase : Nat := 0
  mask : Nat := 0
  bsrc : Nat := 0
  dst : Nat := 0
  srcA : Nat := 0
  srcB : Nat := 0
deriving DecidableEq, Repr

/-- A VECTOR descriptor with its program and tensor table (R173). -/
structure VectorDesc where
  d0 : Nat := 0
  d1 : Nat := 0
  d2 : Nat := 0
  d3 : Nat := 0
  epilogue : Bool := false
  program : List DInstr := []
  tensors : List Tensor := []
deriving DecidableEq, Repr

/-- A MATMUL or SEMIRING task with its problems and epilogue (R146). -/
structure MatDesc where
  geometry : Geometry := .g1
  nMajor : Bool := false
  floor : Option Int := none
  mode : MathMode := .exact
  fmtA : Format := .fp8e4m3
  fmtB : Format := .fp8e4m3
  fmtOut : Format := .fp32
  layout : OutLayout := .tile
  initKind : Nat := 0
  cRowStride : Nat := 0
  /-- SKID_MODE 1: the epilogue the Dresser runs on each entry (R163). -/
  epilogue : Option VectorDesc := none
  problems : List Problem := []
deriving DecidableEq, Repr

/-- The tile tag of a skid entry (R162). -/
structure TileTag where
  tile : Nat := 0
  problems : List Nat := []
  format : Format := .fp32
  part : Nat := 0
  first : Bool := false
  last : Bool := false
  sat : Bool := false
  nan : Bool := false
  epilogue : Bool := false
deriving DecidableEq, Repr

end Sys2Proof.Machine
end

