-- ==== Sys2Proof/Machine/Parts/Rings.lean ====
section
/-!
DEFINITION. Machine/Parts/Rings.lean: rings, task headers and bodies, staged tasks, speculation groups (R223–R258).
-/

namespace Sys2Proof.Machine

/-- STATUS of a ring (R225). -/
inductive RingStatus where
  | disabled | running | paused | faulted | resetting
deriving DecidableEq, Repr

/-- A failure a ring holds (R242): of a task, or of the ring itself at the value HEAD had. -/
structure HeldFailure where
  /-- The place in ring order. -/
  at_ : Nat
  /-- A failure of the ring itself. -/
  ofRing : Bool
  code : W16
deriving DecidableEq, Repr

/-- A descriptor that waits for a Tally entry: its grove and slice, and the WAIT that may leave its task blocked, by counter and target
(R236). -/
structure SliceWait where
  grove : Nat
  slice : Nat
  counter : Option (Nat × Nat) := none
deriving DecidableEq, Repr

/-- A submission ring: its configuration registers and its register page (R224, R225). -/
structure Ring where
  /-- RING_BASE.BASE as a 48-bit virtual address. -/
  base : Nat := 0
  priority : Nat := 0
  sizeLog2 : Nat := 0
  context : Nat := 0
  timeoutUs : Nat := 1000000
  tail : Nat := 0
  head : Nat := 0
  completed : Nat := 0
  status : RingStatus := .disabled
  /-- MODE: DEVICE (R225). -/
  device : Bool := false
  dropped : Bool := false
  /-- Held failures in ring order, oldest first. -/
  failures : List HeldFailure := []
  /-- Sequence numbers at or above `completed` of tasks that have retired. -/
  retired : List Nat := []
  /-- Benches that have yet to report during a ring reset (R253). -/
  pending : List Nat := []
  /-- A read of staging waits on a fault batch, a migration or a repair (R225, R231). -/
  readWaits : Bool := false
  /-- The read that waits is that of the descriptor itself (R225). -/
  descriptorWaits : Bool := false
  /-- The code with which the task that staging waits on is to end, once its wait has been answered (R231, R298). -/
  stageFails : Option W16 := none
  /-- The address read that staging waits on (R149). -/
  stageAddr : Nat := 0
  /-- What the next descriptor waits for, when its slice had no entry for it (R236, R237). -/
  sliceWait : Option SliceWait := none
  /-- Transfers of the ring's tasks that failed after their hand-over and that no BARRIER has answered for yet: the task's sequence number,
  the code, and the handle (R244, R387). -/
  lost : List (Nat × W16 × Nat) := []
deriving DecidableEq, Repr

/-- TYPE of a task (R229). -/
inductive TaskType where
  | matmul | semiring | vector | move | deck | fenceWait | fenceSignal | enqueue | barrier
deriving DecidableEq, Repr

/-- The common header (R228). -/
structure Header where
  type : TaskType := .fenceWait
  speculative : Bool := false
  abortOnFail : Bool := false
  setAbort : Bool := false
  group : Nat := 0
  waitTarget : Nat := 0
  target : Nat := 0
  waitAddr : Nat := 0
  timeout : Nat := 0
  signalAddr : Nat := 0
  signalAdd : Nat := 0
deriving DecidableEq, Repr

/-- OP of a MOVE (R273). -/
inductive MoveOp where
  | copy | fill | prefetch | evict | flashWrite
deriving DecidableEq, Repr

/-- A MOVE descriptor (R273). -/
structure MoveDesc where
  op : MoveOp := .copy
  dstHandle : Bool := false
  timed : Bool := false
  length : Nat := 0
  src : Nat := 0
  dst : Nat := 0
  pattern : Nat := 0
deriving DecidableEq, Repr

/-- An ENQUEUE descriptor (R245). -/
structure EnqueueDesc where
  ring : Nat := 0
  count : Nat := 0
  source : Nat := 0
  result : Nat := 0
deriving DecidableEq, Repr

end Sys2Proof.Machine
end

