-- ==== Sys2Proof/Machine/Parts/Tasks.lean ====
section
/-!
DEFINITION. Machine/Parts/Tasks.lean: staged and issued tasks, and what a bench holds while it runs them
(R123–R131, R159, R168–R198, R225–R252).
-/

namespace Sys2Proof.Machine

/-- The body of a task, as Tally holds it from staging on (R149). -/
inductive TaskBody where
  | mat (d : MatDesc)
  | vector (d : VectorDesc)
  | move (d : MoveDesc)
  | deck (d : DeckDesc)
  | enqueue (d : EnqueueDesc)
  | gate
deriving DecidableEq, Repr

/-- Where a task stands. -/
inductive TaskPhase where
  /-- Staged and not issued. -/
  | staged
  /-- Issued to its bench, or acting at its Tally. -/
  | issued
  /-- A speculative member that has completed and awaits its group (R251). -/
  | awaiting
  /-- Failed, its failure held by the ring (R242). -/
  | failed
deriving DecidableEq, Repr

/-- How a task ends that is still to finish its entries or to write its result record: its code, the address and detail of its record,
whether it was injected, and the detector's place where there is one (R163, R210, R448). -/
structure TaskEnd where
  code : W16
  addr : Nat := 0
  detail : Nat := 0
  injected : Bool := false
  source : Option W64 := none
deriving DecidableEq, Repr

/-- A task that Tally holds from staging until it retires (R225, R236). -/
structure Task where
  ring : Nat
  seq : Nat
  header : Header
  body : TaskBody
  partition : Nat := 0
  context : Nat := 0
  /-- The role a bench task names (R28, R230). -/
  role : Option Nat := none
  /-- The role's holder: the bench number the task is staged for; a quarantine restages it (R92). -/
  bench : Option Nat := none
  /-- The bench its TARGET named, or the holder that R230 took at staging. -/
  named : Option Nat := none
  /-- Grove and slice whose Tally entry it occupies (R236). -/
  grove : Nat := 0
  slice : Nat := 0
  phase : TaskPhase := .staged
  /-- Its WAIT is absent or has resolved. -/
  waitDone : Bool := false
  /-- Physical addresses of its WAIT and SIGNAL counters (R232). -/
  waitPa : Option Nat := none
  signalPa : Option Nat := none
  /-- Since when it has been staged, or restaged: what RING_FENCE_WAIT.ELAPSED counts from (R225, R258; log 2). -/
  waitSince : Nat := 0
  /-- Its fence clock has started (R234). -/
  clockStarted : Bool := false
  /-- It waits on a fault batch, a migration or a repair (R165, R294). -/
  blocked : Bool := false
  /-- Its array work has ended (R235). -/
  arrayDone : Bool := false
  /-- Its last Dresser entry, run or move unit is finished and its stores are complete (R240). -/
  workDone : Bool := false
  /-- Units of a MOVE, or rows of a Deck transfer, already done. -/
  progress : Nat := 0
  /-- Source units of an overlapping COPY, as they stood when it began (R274). -/
  kept : Table Nat := {}
  /-- The visible length of a READ, or the effect of a WRITE, once it has taken effect (R213). -/
  snapshot : Option Nat := none
  /-- It has ended, and its Dresser entries are still to be finished (R163) or its result record to be written (R210). -/
  ends : Option TaskEnd := none
  /-- A ring reset or a squash stops it at its stop point (R252, R253). -/
  stopping : Bool := false
  /-- It joined its group before the group's outcome (R248). -/
  member : Bool := false
  /-- Handles of the sequences it extended provisionally (R217, R251). -/
  extended : List Nat := []
  /-- Fabric transfers it handed over that are not complete at their targets (R244). -/
  transfers : List Nat := []
deriving DecidableEq, Repr

/-- STATE of a speculation group (R250). -/
inductive GroupState where
  | free | opened | confirming | squashing
deriving DecidableEq, Repr

/-- OUTCOME of a speculation group (R250). -/
inductive GroupOutcome where
  | none | confirmed | squashedAbort | squashedOther
deriving DecidableEq, Repr

/-- A speculation group (R248–R252). -/
structure SpecGroup where
  state : GroupState := .free
  outcome : GroupOutcome := .none
  partition : Nat := 0
  waitAddr : Nat := 0
  waitPa : Nat := 0
  waitTarget : Nat := 0
  /-- The context of the task that opened it, whose WAIT its guard is (R248, R287). -/
  context : Nat := 0
  /-- Benches whose shadow scratch the group holds (R249). -/
  holds : List Nat := []
  /-- Sequences extended by members, members that a reset ended included (R251, R257). -/
  extended : List Nat := []
  /-- Relabels or truncations sent to a Deck unit and not yet in effect (R217, R251). -/
  deckPending : List Nat := []
  /-- Members that had completed when their ring was reset: their signals still await the group's resolution (R251, R254). -/
  deferred : List Task := []
deriving DecidableEq, Repr

/-- A skid entry (R162, R190–R193). -/
structure SkidEntry where
  ring : Nat
  seq : Nat
  /-- The drain is writing it. -/
  draining : Bool := false
  /-- Drained: the Dresser may begin it. -/
  drained : Bool := false
  tag : TileTag := {}
  /-- Outputs, by row × 128 + column of the tile: the code in the slot of its format (R117). -/
  outputs : Table Nat := {}
  /-- Scale codes of an MX output, by row × 4 + block of 32 columns of the tile (R116). -/
  scales : Table Nat := {}
deriving DecidableEq, Repr

/-- What an accumulator bank holds: the tile it belongs to and its outputs, by row × 128 + column (R124). -/
structure Bank where
  ring : Nat
  seq : Nat
  tile : Nat
  cells : Table OutCell := {}
  /-- The scales of its slots over the whole of K, as read before its first pass: (slot, A, B) (R157). -/
  scales : List (Nat × (List Nat × List Nat)) := []
  /-- Initial values that act as a bias at the conversion, as codes of their format, by row × 128 + column (R109, R158). -/
  inits : Table Nat := {}
  /-- Every pass of the tile has been taken in; the drain is due. -/
  full : Bool := false
  /-- The drain has begun. -/
  draining : Bool := false
deriving DecidableEq, Repr

/-- The array of a bench: the task whose passes enter, and the next pass (R123, R159). -/
structure ArrayRun where
  ring : Nat
  seq : Nat
  tile : Nat := 0
  kp : Nat := 0
deriving DecidableEq, Repr

/-- A top-k list of one strip row (R188). -/
structure TopkRow where
  k : Nat := 64
  ascending : Bool := false
  /-- (value, index), best first. -/
  items : List (W32 × W32) := []
deriving DecidableEq, Repr

/-- A block 2j that waits for its partner in a store to an MX tensor (R185). -/
structure MxHold where
  instr : Nat
  block : Nat
  /-- Lane values and whether each lane is active, in row-major order. -/
  lanes : List (W32 × Bool) := []
deriving DecidableEq, Repr

/-- What ends a run of the Dresser at the end of its block: the code and address of the task's failure, and whether it was injected (R198,
R211). -/
structure RunEnd where
  code : W16
  addr : Nat := 0
  injected : Bool := false
deriving DecidableEq, Repr

/-- A run of the Dresser: one VECTOR task, or the slot runs of one epilogue entry (R170, R175). -/
structure DresserRun where
  ring : Nat
  seq : Nat
  desc : VectorDesc
  /-- The epilogue's tile index, its slots still to run after the present one, and the present slot. -/
  entry : Option TileTag := none
  slotsLeft : List Nat := []
  d3 : Nat := 0
  d2 : Nat := 0
  strip : Nat := 0
  phase : Nat := 0
  block : Nat := 0
  /-- Index of the next instruction of the program. -/
  pc : Nat := 0
  /-- An instruction of the present block has begun, and the block has not ended. -/
  blockOpen : Bool := false
  /-- An instruction of the present strip has run. -/
  midStrip : Bool := false
  /-- Every instruction of the run has run. -/
  done : Bool := false
  hold : List MxHold := []
  /-- The Deck append records have been read (R211). -/
  begun : Bool := false
  /-- Deck append records of this run, by tensor: handle, FIRST, STREAM_FIRST (R211). -/
  appends : List (Nat × Nat × Nat × Nat) := []
  /-- Handles of the sequences the run has stored to (R214). -/
  touched : List Nat := []
  /-- What ends the run at the end of its block, if anything. -/
  ends : Option RunEnd := none
deriving DecidableEq, Repr

/-- Dresser registers (R168): lanes by register × 256 + row × 16 + column, strips by register × 16 + row, masks by
register × 256 + lane, top-k rows by row. -/
structure DresserRegs where
  tiles : Table W32 := {}
  strips : Table W32 := {}
  masks : Table Bool := {}
  topk : Table TopkRow := {}
deriving DecidableEq, Repr

/-- ACTIVITY of DRESSER_STATUS (R196). -/
inductive DresserActivity where
  | idle | storing | epilogue | vector
deriving DecidableEq, Repr

/-- The stationary operand of one pass: whose pass it is, and the codes of each slot's B panel (R120, R123). -/
structure Weights where
  ring : Nat
  seq : Nat
  tile : Nat
  kp : Nat
  panels : List (Nat × List Nat) := []
deriving DecidableEq, Repr

/-- The scales of a tile, read while the tile before it runs (R157). -/
structure TileScales where
  ring : Nat
  seq : Nat
  tile : Nat
  scales : List (Nat × (List Nat × List Nat)) := []
deriving DecidableEq, Repr

/-- A bench: its array, its skid and its Dresser. -/
structure Bench where
  /-- Ring and sequence number of the task that Tally has preloaded to issue next (R238). -/
  preloaded : Option (Nat × Nat) := none
  /-- The active stationary registers, and the shadow registers that the next pass loads meanwhile (R123). -/
  activeB : Option Weights := none
  shadowB : Option Weights := none
  nextScales : Option TileScales := none
  run : Option ArrayRun := none
  bankA : Option Bank := none
  bankB : Option Bank := none
  /-- The bank the next tile fills is B (R124). -/
  nextB : Bool := false
  skid : List SkidEntry := []
  regs : DresserRegs := {}
  dresser : Option DresserRun := none
  activity : DresserActivity := .idle
  accSat : Nat := 0
  passes : Nat := 0
  gated : Nat := 0
  clampTally : Nat := 0
  nanTally : Nat := 0
  skidWait : Nat := 0
  /-- Weighted section count of the governor in a cycle of its last pass, in hundredths (R396). -/
  governor : Nat := 0
  entriesMax : Nat := 0
  /-- SKID_USED and ACTIVITY as its quarantine froze them (R199). -/
  frozen : Option (Nat × DresserActivity) := none
deriving DecidableEq, Repr

end Sys2Proof.Machine
end

