-- ==== Sys2Proof/Machine/Fp.lean ====
section
/-!
DEFINITION. Machine/Fp.lean: reading encodings as exact values, exact arithmetic, and rounding once to nearest even
(R97, R98, R112, R115, R116, R180, R183, R184).
-/

namespace Sys2Proof.Machine

/-- The layout of a floating-point element (R97). -/
def layoutOf : Elem → FpLayout
  | .e4m3 => ⟨4, 3, 7, .e4m3⟩
  | .e5m2 => ⟨5, 2, 15, .ieee⟩
  | .e3m2 => ⟨3, 2, 3, .none⟩
  | .e2m3 => ⟨2, 3, 1, .none⟩
  | .e2m1 => ⟨2, 1, 1, .none⟩
  | .bf16 => ⟨8, 7, 127, .ieee⟩
  | .fp16 => ⟨5, 10, 15, .ieee⟩
  | _ => ⟨8, 23, 127, .ieee⟩

/-- The bits of an element. -/
def elemBits : Elem → Nat
  | .e4m3 | .e5m2 | .int8 | .mxint8 => 8
  | .e3m2 | .e2m3 => 6
  | .e2m1 | .int4 => 4
  | .bf16 | .fp16 | .raw16 => 16
  | .fp32 | .int32 => 32

/-- A floating-point encoding as a value: subnormals as they are encoded, never flushed (R97). -/
def decodeLayout (f : FpLayout) (w : Nat) : Val :=
  let m := w % 2 ^ f.mbits
  let e := (w / 2 ^ f.mbits) % 2 ^ f.ebits
  let neg := bitOf w (f.mbits + f.ebits)
  let top := 2 ^ f.ebits - 1
  let finite : Val :=
    if e = 0 then .fin neg m (1 - (f.bias : Int) - f.mbits)
    else .fin neg (2 ^ f.mbits + m) ((e : Int) - f.bias - f.mbits)
  match f.specials with
  | .ieee => if e = top then (if m = 0 then .inf neg else .nan) else finite
  | .e4m3 => if e = top ∧ m = 2 ^ f.mbits - 1 then .nan else finite
  | .none => finite

/-- An integer as a value. -/
def valOfInt (i : Int) (exp : Int) : Val := .fin (decide (i < 0)) i.natAbs exp

/-- An element encoding as a value (R97). -/
def decodeElem (el : Elem) (w : Nat) : Val :=
  match el with
  | .int8 => valOfInt (signedOf 8 w) 0
  | .int4 => valOfInt (signedOf 4 w) 0
  | .mxint8 => valOfInt (signedOf 8 w) (-6)
  | .int32 => valOfInt (signedOf 32 w) 0
  | .raw16 => .fin false (w % 65536) 0
  | e => decodeLayout (layoutOf e) w

/-- Whether a value is a NaN. -/
def Val.isNan : Val → Bool
  | .nan => true
  | _ => false

/-- Whether a value is a zero of either sign. -/
def Val.isZero : Val → Bool
  | .fin _ m _ => m == 0
  | _ => false

/-- Whether a value is an infinity. -/
def Val.isInf : Val → Bool
  | .inf _ => true
  | _ => false

/-- The sign of a value (a NaN counts as positive). -/
def Val.negative : Val → Bool
  | .nan => false
  | .inf n => n
  | .fin n _ _ => n

/-- The signed integer mantissa of a finite value at exponent `e` not above its own. -/
def signedAt (neg : Bool) (m : Nat) (exp e : Int) : Int :=
  let v : Int := (m <<< (exp - e).toNat : Nat)
  if neg then -v else v

/-- The exact sum (R180: an exact zero sum is +0, except -0 with -0; Inf with -Inf is NaN). -/
def Val.add : Val → Val → Val
  | .nan, _ => .nan
  | _, .nan => .nan
  | .inf a, .inf b => if a = b then .inf a else .nan
  | .inf a, _ => .inf a
  | _, .inf b => .inf b
  | .fin na ma ea, .fin nb mb eb =>
    let e := min ea eb
    let s := signedAt na ma ea e + signedAt nb mb eb e
    if s = 0 then .fin (na && nb && decide (ma = 0) && decide (mb = 0)) 0 e else valOfInt s e

/-- The value with its sign changed. -/
def Val.neg : Val → Val
  | .nan => .nan
  | .inf n => .inf (!n)
  | .fin n m e => .fin (!n) m e

/-- The magnitude. -/
def Val.abs : Val → Val
  | .nan => .nan
  | .inf _ => .inf false
  | .fin _ m e => .fin false m e

/-- The exact product (R112: Inf times zero is NaN; a zero carries the XOR of the signs). -/
def Val.mul : Val → Val → Val
  | .nan, _ => .nan
  | _, .nan => .nan
  | .inf a, .inf b => .inf (a != b)
  | .inf a, .fin n m _ => if m = 0 then .nan else .inf (a != n)
  | .fin n m _, .inf b => if m = 0 then .nan else .inf (n != b)
  | .fin na ma ea, .fin nb mb eb => .fin (na != nb) (ma * mb) (ea + eb)

/-- Whether the first of two non-NaN values is the smaller as a number (both zeros are equal). -/
def Val.lt (a b : Val) : Bool :=
  match a, b with
  | .nan, _ => false
  | _, .nan => false
  | .inf na, .inf nb => na && !nb
  | .inf na, .fin _ _ _ => na
  | .fin _ _ _, .inf nb => !nb
  | .fin na ma ea, .fin nb mb eb =>
    let e := min ea eb
    decide (signedAt na ma ea e < signedAt nb mb eb e)

/-- Whether two non-NaN values are equal as numbers. -/
def Val.eqv (a b : Val) : Bool := !a.isNan && !b.isNan && !Val.lt a b && !Val.lt b a

/-- The value times a power of two. -/
def Val.scale : Val → Int → Val
  | .fin n m e, k => .fin n m (e + k)
  | v, _ => v

/-- `mag · 2^exp` rounded to nearest even at quantum `2^q`, in quanta. -/
def roundQuanta (mag : Nat) (exp q : Int) : Nat :=
  if q ≤ exp then mag <<< (exp - q).toNat
  else
    let d := (q - exp).toNat
    let t := mag >>> d
    let r := mag % 2 ^ d
    let half := 2 ^ (d - 1)
    if r > half ∨ (r = half ∧ t % 2 = 1) then t + 1 else t

/-- A magnitude rounded once to a layout with its exponent range unbounded above: the code without its sign (R115). -/
def roundCode (f : FpLayout) (mag : Nat) (exp : Int) : Nat :=
  if mag = 0 then 0
  else
    let top : Int := (Nat.log2 mag : Int) + exp
    let emin : Int := 1 - (f.bias : Int)
    let e := max top emin
    let quanta := roundQuanta mag exp (e - f.mbits)
    (e - emin).toNat * 2 ^ f.mbits + quanta

/-- The code of the largest finite magnitude of a layout (R97). -/
def maxCode (f : FpLayout) : Nat :=
  match f.specials with
  | .ieee => (2 ^ f.ebits - 1) * 2 ^ f.mbits - 1
  | .e4m3 => 2 ^ (f.ebits + f.mbits) - 2
  | .none => 2 ^ (f.ebits + f.mbits) - 1

/-- The sign bit of a layout, placed. -/
def signCode (f : FpLayout) (neg : Bool) : Nat := if neg then 2 ^ (f.ebits + f.mbits) else 0

/-- The NaN code of an output layout (R115). -/
def nanCode (f : FpLayout) : Nat :=
  match f.specials with
  | .ieee => (2 ^ f.ebits - 1) * 2 ^ f.mbits + 2 ^ (f.mbits - 1)
  | .e4m3 => 2 ^ (f.ebits + f.mbits) - 1
  | .none => 0

/-- Whether a layout has infinities. -/
def hasInf (f : FpLayout) : Bool :=
  match f.specials with
  | .ieee => true
  | _ => false

/-- The code of a value in a layout, rounded once; the Bool says that a finite limit took the value's place (R115, R196). -/
def encodeVal (f : FpLayout) (v : Val) : Nat × Bool :=
  match v with
  | .nan => (nanCode f, false)
  | .inf n => if hasInf f then (signCode f n + (maxCode f + 1), false) else (signCode f n + maxCode f, true)
  | .fin n m e =>
    let c := roundCode f m e
    if c ≤ maxCode f then (signCode f n + c, false)
    else if hasInf f then (signCode f n + (maxCode f + 1), false)
    else (signCode f n + maxCode f, true)

/-- An FP32 code as a value. -/
def fp32Val (w : W32) : Val := decodeLayout (layoutOf .fp32) w.toNat

/-- A value rounded once to FP32, every NaN the canonical one (R112, R180). -/
def fp32Of (v : Val) : W32 := BitVec.ofNat 32 (encodeVal (layoutOf .fp32) v).1

/-- The canonical NaN (R112). -/
def fp32Nan : W32 := 0x7FC00000#32

/-- FP32 zero of negative sign: the neutral value of R113. -/
def fp32NegZero : W32 := 0x80000000#32

/-- FP32 addition, round-to-nearest-even with subnormals kept (R113). -/
def fp32Add (a b : W32) : W32 := fp32Of ((fp32Val a).add (fp32Val b))

/-- FP32 subtraction. -/
def fp32Sub (a b : W32) : W32 := fp32Of ((fp32Val a).add (fp32Val b).neg)

/-- FP32 multiplication. -/
def fp32Mul (a b : W32) : W32 := fp32Of ((fp32Val a).mul (fp32Val b))

/-- Fused multiply-add, one rounding (R179). -/
def fp32Fma (a b c : W32) : W32 := fp32Of (((fp32Val a).mul (fp32Val b)).add (fp32Val c))

/-- The smaller of two: a NaN makes NaN, -0 is below +0 (R180). -/
def fp32Min (a b : W32) : W32 :=
  let x := fp32Val a
  let y := fp32Val b
  if x.isNan || y.isNan then fp32Nan
  else if Val.lt x y then a
  else if Val.lt y x then b
  else if x.negative then a else b

/-- The larger of two: a NaN makes NaN, +0 is above -0 (R180). -/
def fp32Max (a b : W32) : W32 :=
  let x := fp32Val a
  let y := fp32Val b
  if x.isNan || y.isNan then fp32Nan
  else if Val.lt x y then b
  else if Val.lt y x then a
  else if x.negative then b else a

/-- Floor of the square root, by bits from `fuel` down. -/
def isqrtFrom (n : Nat) : Nat → Nat → Nat
  | 0, r => r
  | k + 1, r =>
    let t := r + 2 ^ k
    if t * t ≤ n then isqrtFrom n k t else isqrtFrom n k r

/-- Floor of the square root. -/
def isqrt (n : Nat) : Nat := isqrtFrom n (Nat.log2 n / 2 + 1) 0

/-- The exact quotient cut to many bits, its last bit sticky, so that rounding it once is rounding the quotient once. -/
def quotientVal (neg : Bool) (ma : Nat) (ea : Int) (mb : Nat) (eb : Int) : Val :=
  let k := 80 + Nat.log2 mb
  let n := ma <<< k
  let q := n / mb
  .fin neg (2 * q + (if n % mb = 0 then 0 else 1)) (ea - eb - k - 1)

/-- FP32 division (R180). -/
def fp32Div (a b : W32) : W32 :=
  match fp32Val a, fp32Val b with
  | .nan, _ => fp32Nan
  | _, .nan => fp32Nan
  | .inf _, .inf _ => fp32Nan
  | .inf n, .fin m _ _ => fp32Of (.inf (n != m))
  | .fin n _ _, .inf m => fp32Of (.fin (n != m) 0 0)
  | .fin na ma ea, .fin nb mb eb =>
    if mb = 0 then (if ma = 0 then fp32Nan else fp32Of (.inf (na != nb)))
    else fp32Of (quotientVal (na != nb) ma ea mb eb)

/-- FP32 reciprocal (R180). -/
def fp32Rcp (a : W32) : W32 := fp32Div 0x3F800000#32 a

/-- FP32 square root (R180). -/
def fp32Sqrt (a : W32) : W32 :=
  match fp32Val a with
  | .nan => fp32Nan
  | .inf n => if n then fp32Nan else a
  | .fin n m e =>
    if m = 0 then a
    else if n then fp32Nan
    else
      let x := m <<< (if e % 2 = 0 then 200 else 201)
      let e2 := (e - (if e % 2 = 0 then 200 else 201)) / 2
      let r := isqrt x
      fp32Of (.fin false (2 * r + (if r * r = x then 0 else 1)) (e2 - 1))

/-- FP32 reciprocal square root (R180: the reciprocal of -0 is -Inf). -/
def fp32Rsqrt (a : W32) : W32 :=
  match fp32Val a with
  | .nan => fp32Nan
  | .inf n => if n then fp32Nan else 0#32
  | .fin n m e =>
    if m = 0 then fp32Of (.inf n)
    else if n then fp32Nan
    else
      let m2 := if e % 2 = 0 then m else 2 * m
      let e2 := (e - (if e % 2 = 0 then 0 else 1)) / 2
      let x := 2 ^ 240 / m2
      let r := isqrt x
      fp32Of (.fin false (2 * r + (if r * r * m2 = 2 ^ 240 then 0 else 1)) (-e2 - 121))

/-- A value rounded to nearest even as an integer and clamped; the Bool says that a limit took its place (R184). -/
def intOfVal (lo hi : Int) (v : Val) : Int × Bool :=
  match v with
  | .nan => (0, false)
  | .inf n => (if n then lo else hi, true)
  | .fin n m e =>
    let q : Int := (roundQuanta m e 0 : Nat)
    let x := if n then -q else q
    if x < lo then (lo, true) else if hi < x then (hi, true) else (x, false)

/-- The exponent of the largest power of two in an MX element format (R116). -/
def mxEmax : Elem → Int
  | .e4m3 => 8
  | .e5m2 => 15
  | .e3m2 => 4
  | .e2m3 => 2
  | .e2m1 => 2
  | _ => 0

/-- One MX element of a value times 2^(127 - X), clamped to the largest value of its own sign (R116). -/
def mxElement (el : Elem) (x : Nat) (v : Val) : Nat × Bool :=
  match v.scale (127 - (x : Int)) with
  | .fin n m e =>
    match el with
    | .mxint8 =>
      let r := intOfVal (-128) 127 (.fin n m (e + 6))
      (twosOf 8 r.1, r.2)
    | el =>
      let f := layoutOf el
      let c := roundCode f m e
      if c ≤ maxCode f then (signCode f n + c, false) else (signCode f n + maxCode f, true)
  | _ => (0, false)

/-- floor(log2) of a non-zero finite magnitude. -/
def floorLog2 (m : Nat) (e : Int) : Int := (Nat.log2 m : Int) + e

/-- The greater magnitude of two finite values. -/
def maxMag (a b : Val) : Val := if Val.lt a.abs b.abs then b.abs else a.abs

/-- One MX block: the scale code and, for each value, its element code and whether a clamp took its place (R116). -/
def mxBlock (el : Elem) (vs : List Val) : Nat × List (Nat × Bool) :=
  if vs.any fun v => v.isNan || v.isInf then (0xFF, vs.map fun _ => (0, false))
  else
    match vs.foldl maxMag (.fin false 0 0) with
    | .fin _ m e =>
      if m = 0 then (0, vs.map fun _ => (0, false))
      else
        let x := (min (max (floorLog2 m e - mxEmax el + 127) 0) 0xFE).toNat
        (x, vs.map (mxElement el x))
    | _ => (0xFF, vs.map fun _ => (0, false))

end Sys2Proof.Machine
end

