-- ==== Sys2Proof/Machine/Accum.lean ====
section
/-!
DEFINITION. Machine/Accum.lean: exact accumulation, the reduction tree, the semiring reductions and output conversion
(R98–R117, R131, R140, R141).
-/

namespace Sys2Proof.Machine

/-! ### Formats (R150, R151) -/

/-- The element encoding of a format. -/
def formatElem : Format → Elem
  | .fp8e4m3 | .mxfp8e4m3 => .e4m3
  | .fp8e5m2 | .mxfp8e5m2 => .e5m2
  | .int8 => .int8
  | .int4 => .int4
  | .mxfp6e3m2 => .e3m2
  | .mxfp6e2m3 => .e2m3
  | .mxfp4 => .e2m1
  | .mxint8 => .mxint8
  | .bf16 => .bf16
  | .fp16 => .fp16
  | .fp32 | .acc96 => .fp32
  | .int32 => .int32
  | .raw16 => .raw16

/-- Element bits of a format (R150). -/
def formatBits : Format → Nat
  | .acc96 => 128
  | f => elemBits (formatElem f)

/-- Whether a format carries block scales (R98). -/
def isMx : Format → Bool
  | .mxfp8e4m3 | .mxfp8e5m2 | .mxfp6e3m2 | .mxfp6e2m3 | .mxfp4 | .mxint8 => true
  | _ => false

/-- The codes of R150, with 0x15 INT32 of R176. -/
def formatOfCode (c : Nat) : Option Format :=
  match c with
  | 0x01 => some .fp8e4m3
  | 0x02 => some .fp8e5m2
  | 0x03 => some .int8
  | 0x04 => some .int4
  | 0x08 => some .mxfp8e4m3
  | 0x09 => some .mxfp8e5m2
  | 0x0A => some .mxfp6e3m2
  | 0x0B => some .mxfp6e2m3
  | 0x0C => some .mxfp4
  | 0x0D => some .mxint8
  | 0x10 => some .bf16
  | 0x11 => some .fp16
  | 0x14 => some .fp32
  | 0x15 => some .int32
  | 0x18 => some .raw16
  | 0x1F => some .acc96
  | _ => none

/-- The code of a format (R150, R176). -/
def codeOfFormat : Format → Nat
  | .fp8e4m3 => 0x01
  | .fp8e5m2 => 0x02
  | .int8 => 0x03
  | .int4 => 0x04
  | .mxfp8e4m3 => 0x08
  | .mxfp8e5m2 => 0x09
  | .mxfp6e3m2 => 0x0A
  | .mxfp6e2m3 => 0x0B
  | .mxfp4 => 0x0C
  | .mxint8 => 0x0D
  | .bf16 => 0x10
  | .fp16 => 0x11
  | .fp32 => 0x14
  | .int32 => 0x15
  | .raw16 => 0x18
  | .acc96 => 0x1F

/-- The exact group of R151: codes 0x01-0x04 and 0x08-0x0D. -/
def inExactGroup (f : Format) : Bool :=
  let c := codeOfFormat f
  decide ((0x01 ≤ c ∧ c ≤ 0x04) ∨ (0x08 ≤ c ∧ c ≤ 0x0D))

/-- The bounds e and q of an exact-path element (R101). -/
def exactBounds : Elem → Int × Int
  | .e4m3 => (9, -9)
  | .e5m2 => (16, -16)
  | .e3m2 => (5, -4)
  | .e2m3 => (3, -3)
  | .e2m1 => (3, -1)
  | .int8 => (7, 0)
  | .int4 => (3, 0)
  | .mxint8 => (1, -6)
  | _ => (0, 0)

/-- The product bound P_hi of a pair (R101). -/
def productHi (a b : Elem) : Int := (exactBounds a).1 + (exactBounds b).1

/-- The product quantum P_lo of a pair (R101). -/
def productLo (a b : Elem) : Int := (exactBounds a).2 + (exactBounds b).2

/-- The guard of a pair: 74 less the span (R101). -/
def guardOf (a b : Elem) : Int := 74 - (productHi a b - productLo a b)

/-! ### The exact path -/

/-- The combined scale of a block (R102). -/
def combinedScale (xa xb : Nat) : Int := (xa : Int) + xb - 254

/-- The anchor of a reduction: the largest of its terms, 0 when there is none (R102). -/
def anchorOf (scales : List (Nat × Nat)) (floor input : Option Int) : Int :=
  let blocks := (scales.filter fun p => p.1 != 0xFF && p.2 != 0xFF).map fun p => combinedScale p.1 p.2
  match blocks ++ floor.toList ++ input.toList with
  | [] => 0
  | t :: ts => ts.foldl max t

/-- A finite product in quanta of 2^P_lo; a special product counts nothing in N. -/
def productQuanta (lo : Int) (p : Val) : Int :=
  match p with
  | .fin neg m e => signedAt neg m e lo
  | _ => 0

/-- One product's flags ORed into an output's (R105). -/
def flagProduct (c : OutCell) (p : Val) : OutCell :=
  match p with
  | .nan => { c with nan := true }
  | .inf n => if n then { c with negInf := true } else { c with posInf := true }
  | .fin _ _ _ => c

/-- An integer shifted right with rounding toward minus infinity, and whether any bit shifted out was 1. -/
def floorShift (v : Int) (d : Nat) : Int × Bool := (v / (2 ^ d : Nat), decide (v % (2 ^ d : Nat) ≠ 0))

/-- A contribution of `quanta` quanta with a shift added into N (R104). -/
def addShifted (c : OutCell) (quanta shift : Int) : OutCell :=
  if 0 ≤ shift then { c with n := c.n + quanta * (2 ^ shift.toNat : Nat) }
  else
    let t := floorShift quanta (-shift).toNat
    { c with n := c.n + t.1, sticky := c.sticky || t.2 }

/-- One block of element pairs with its two scales added into an output (R104, R105). A block with a NaN scale adds nothing to N and no Inf
flag (log 82). -/
def addBlock (ea eb : Elem) (xa xb : Nat) (pairs : List (Val × Val)) (c : OutCell) : OutCell :=
  if xa = 0xFF ∨ xb = 0xFF then { c with nan := true }
  else
    let ps := pairs.map fun p => p.1.mul p.2
    let quanta := ps.foldl (fun t p => t + productQuanta (productLo ea eb) p) 0
    let c := ps.foldl flagProduct c
    addShifted c quanta (guardOf ea eb - (c.anchor - combinedScale xa xb))

/-- Whether a value lies outside the 96-bit range (R107). -/
def outside96 (n : Int) : Bool := decide (n < -(2 ^ 95 : Nat) ∨ (2 ^ 95 : Nat) ≤ n)

/-- Whether an output is saturated, and the sign it saturates with, true for negative (R107, R111). -/
def saturation (c : OutCell) : Option Bool :=
  match c.satIn with
  | some n => some n
  | none => if outside96 c.n then some (decide (c.n < 0)) else none

/-- What R105 decides for an output before any bias. -/
def specialOut (c : OutCell) : Option Val :=
  if c.nan || (c.posInf && c.negInf) then some .nan
  else if c.posInf then some (.inf false)
  else if c.negInf then some (.inf true)
  else none

/-- Whether R105 makes an output NaN before any bias. -/
def cellIsNan (c : OutCell) : Bool := specialOut c == some .nan

/-- What an output of the exact path converts to: a value, or a saturated sign. -/
inductive ExactOut where
  | value (v : Val)
  | saturated (neg : Bool)
deriving DecidableEq, Repr

/-- Bits that place ε below any difference an output format can represent (R106). -/
def epsilonBits : Nat := 1024

/-- `(N + B) · LSB + ε` (R106, R109): ε lies below both LSB and the least magnitude of every output format. -/
def withEpsilon (n : Int) (sticky : Bool) (lsb : Int) : Val :=
  let bits := epsilonBits + lsb.toNat
  if sticky then valOfInt (n * (2 ^ bits : Nat) + 1) (lsb - bits) else valOfInt n lsb

/-- The output of the exact path with its bias, in the order of R109. -/
def exactResult (phi : Int) (bias : Option Val) (c : OutCell) : ExactOut :=
  let lsb := c.anchor + phi - 74
  let finiteBias (b : Option (Bool × Nat × Int)) : ExactOut :=
    match specialOut c with
    | some v => .value v
    | none =>
      match saturation c with
      | some n => .saturated n
      | none =>
        match b with
        | none => .value (withEpsilon c.n c.sticky lsb)
        | some (neg, m, e) =>
          if lsb ≤ e then .value (withEpsilon (c.n + signedAt neg m e lsb) c.sticky lsb)
          else
            let v : Int := if neg then -(m : Int) else m
            let t := floorShift v (lsb - e).toNat
            .value (withEpsilon (c.n + t.1) (c.sticky || t.2) lsb)
  match bias with
  | none => finiteBias none
  | some .nan => .value .nan
  | some (.inf n) =>
    match specialOut c with
    | some .nan => .value .nan
    | some (.inf k) => if k = n then .value (.inf n) else .value .nan
    | _ => .value (.inf n)
  | some (.fin neg m e) => finiteBias (some (neg, m, e))

/-- The ACC96 flag byte (R110). -/
def acc96Flags (c : OutCell) : Nat :=
  bitNat c.sticky + 2 * bitNat (saturation c).isSome + 4 * bitNat (cellIsNan c) + 8 * bitNat c.posInf + 16 * bitNat c.negInf

/-- N as an ACC96 output holds it: clamped when the accumulator saturated (R115). -/
def acc96N (c : OutCell) : Int :=
  match saturation c with
  | some true => -(2 ^ 95 : Nat)
  | some false => (2 ^ 95 : Nat) - 1
  | none => c.n

/-- The 128 bits of an ACC96 element (R110). -/
def acc96Code (phi : Int) (c : OutCell) : Nat :=
  twosOf 96 (acc96N c) + twosOf 16 c.anchor * 2 ^ 96 + acc96Flags c * 2 ^ 112 + twosOf 8 phi * 2 ^ 120

/-- The anchor an ACC96 input element carries (R110). -/
def acc96Anchor (w : Nat) : Int := signedOf 16 (bitsOf w 111 96)

/-- Whether an ACC96 input element stops its task: its P_HI differs (0x2101) or a reserved flag is set (0x2102) (R111). An
element with both ends it with 0x2101, and elements are met in slot and row order (log 82). -/
def acc96Refusal (phi : Int) (w : Nat) : Option W16 :=
  if signedOf 8 (bitsOf w 127 120) ≠ phi then some 0x2101
  else if bitsOf w 119 117 ≠ 0 then some 0x2102
  else none

/-- An ACC96 input element taken in as one further contribution (R111). -/
def addAcc96 (w : Nat) (c : OutCell) : OutCell :=
  let n := signedOf 96 (bitsOf w 95 0)
  let d := (c.anchor - acc96Anchor w).toNat
  let t := floorShift n d
  { c with
    n := c.n + t.1
    sticky := c.sticky || t.2 || bitOf w 112
    nan := c.nan || bitOf w 114
    posInf := c.posInf || bitOf w 115
    negInf := c.negInf || bitOf w 116
    satIn := if bitOf w 113 then some (decide (n < 0)) else c.satIn }

/-! ### The tree path and the semiring modes -/

/-- One level of the balanced tree of R113: the left operand is the lower-indexed half. -/
def treeLevel : List W32 → List W32
  | a :: b :: ts => fp32Add a b :: treeLevel ts
  | ts => ts

/-- `k` levels of the tree. -/
def treeLevels : Nat → List W32 → List W32
  | 0, ts => ts
  | k + 1, ts => treeLevels k (treeLevel ts)

/-- The sum of `2^k` terms padded with -0 (R113). -/
def treeSum (k : Nat) (ts : List W32) : W32 :=
  (treeLevels k (ts ++ List.replicate (2 ^ k - ts.length) fp32NegZero)).headD fp32NegZero

/-- A slice sum added into the running sum; the first one becomes it (R114). -/
def addSlice (c : OutCell) (s : W32) : OutCell :=
  { c with run := some (match c.run with | some r => fp32Add r s | none => s), parts := [] }

/-- One term of the tree path or of a semiring mode (R112, R140, R141). -/
def termOf (mode : MathMode) (a b : Val) : W32 :=
  match mode with
  | .minPlus | .maxPlus => fp32Of (a.add b)
  | .l1 =>
    if a.isNan || b.isNan then fp32Nan
    else if a.isInf && b.isInf && a.negative == b.negative then fp32Nan
    else fp32Of (match (a.add b.neg).abs with | .fin _ m e => .fin false m e | v => v)
  | .l2 =>
    let d := a.add b.neg
    fp32Of (match d.mul d with | .fin _ m e => .fin false m e | v => v)
  | _ => fp32Of (a.mul b)

/-- One pass's terms of one output taken in: `levels` is log2 of the slot's K per pass, `last` says that no later pass
of the reduction follows (R131, R140). -/
def addTerms (mode : MathMode) (levels : Nat) (last : Bool) (ts : List W32) (c : OutCell) : OutCell :=
  match mode with
  | .minPlus => { c with run := ts.foldl (fun r t => some (match r with | some x => fp32Min x t | none => t)) c.run }
  | .maxPlus => { c with run := ts.foldl (fun r t => some (match r with | some x => fp32Max x t | none => t)) c.run }
  | _ =>
    let ps := c.parts ++ [treeSum levels ts]
    if last ∨ ps.length = 2 ^ (7 - levels) then addSlice c (treeSum (7 - levels) ps) else { c with parts := ps }

/-- Number of 1 bits of a word of 16 bits. -/
def popCount16 (w : Nat) : Nat := ((List.range 16).filter fun i => bitOf w i).length

/-- One pass's words of one output counted (R140). -/
def addWords (mode : MathMode) (ws : List (Nat × Nat)) (c : OutCell) : OutCell :=
  { c with count := ws.foldl (fun t p =>
      t + (match mode with
        | .matchWords => if p.1 = p.2 then 1 else 0
        | _ => popCount16 (p.1 ^^^ p.2))) c.count }

/-- The identity of a mode when K is 0 and no initial value is given (R114, R140). -/
def runIdentity (mode : MathMode) : W32 :=
  match mode with
  | .minPlus => 0x7F800000#32
  | .maxPlus => 0xFF800000#32
  | _ => 0#32

/-- The value an output converts from, on any path (R105–R109, R114, R140). -/
def resultOf (mode : MathMode) (phi : Int) (bias : Option Val) (c : OutCell) : ExactOut :=
  match mode with
  | .exact => exactResult phi bias c
  | .matchWords | .xorPop => .value (.fin false c.count 0)
  | m => .value (fp32Val (c.run.getD (runIdentity m)))

/-! ### Output conversion (R115, R116) -/

/-- The saturated value of an output layout (R107, R115). -/
def saturatedVal (el : Elem) (neg : Bool) : Val :=
  let f := layoutOf el
  match decodeLayout f (maxCode f) with
  | .fin _ m e => .fin neg m e
  | v => v

/-- One output as the code of a scalar output format (R115). -/
def convertOut (f : Format) (r : ExactOut) : Nat :=
  let el := formatElem f
  match r with
  | .value v => (encodeVal (layoutOf el) v).1
  | .saturated n => (encodeVal (layoutOf el) (saturatedVal el n)).1

/-- A value for the MX block rule: a saturated output takes the greatest FP32-range magnitude of its sign (R107, R115). -/
def mxValue (el : Elem) (r : ExactOut) : Val :=
  match r with
  | .value v => v
  | .saturated n =>
    match el with
    | .mxint8 => .fin n (if n then 128 else 127) (254 - 127 - 6)
    | _ => (saturatedVal el n).scale 127

/-- Whether an output is NaN (R162). -/
def outIsNan (r : ExactOut) : Bool :=
  match r with
  | .value v => v.isNan
  | .saturated _ => false

end Sys2Proof.Machine
end

