-- ==== Sys2Proof/Machine/Address.lean ====
section
/-!
DEFINITION. Machine/Address.lean: address fields (R147) and packed elements (R153).
-/

namespace Sys2Proof.Machine

/-- SPACE of an address field (R147). -/
def addrSpace (a : Nat) : Nat := bitsOf a 63 62

/-- Whether an address field is present: 64 zero bits mean absent (R147). -/
def addrPresent (a : Nat) : Bool := a != 0

/-- Whether a reserved field of an address field is non-zero (R7, R147). -/
def addrReserved (a : Nat) : Bool := bitsOf a 61 48 != 0 || (addrSpace a == 1 && bitsOf a 47 21 != 0)

/-- Whether an address field names scratch. -/
def addrScratch (a : Nat) : Bool := addrSpace a == 1

/-- Whether a present address field lies in virtual space (R147). -/
def addrVirtual (a : Nat) : Bool := addrPresent a && addrSpace a == 0

/-- The ADDRESS field. -/
def addrOffset (a : Nat) : Nat := bitsOf a 47 0

/-- A 48-bit address sign-extended from bit 47 to 64 bits (R147, R288). -/
def signExtend48 (v : Nat) : Nat :=
  let x := v % 2 ^ 48
  if bitOf x 47 then x + (2 ^ 64 - 2 ^ 48) else x

/-- Bytes of bench scratch (R18). -/
def scratchBytes : Nat := 0x200000

/-- The first byte of the stage area (R156). -/
def stageBase : Nat := 0x180000

/-- Bytes that `n` packed elements take from the start of a row (R153). -/
def packedBytes (bits n : Nat) : Nat := ceilDiv (n * bits) 8

/-- Element `i` of packed bytes (R153: little-endian groups, so element i holds bits i·bits up). -/
def packedElem (bits : Nat) (bs : List Byte) (i : Nat) : Nat :=
  let lo := i * bits
  let first := lo / 8
  let last := (lo + bits - 1) / 8
  (natOfBytes (sliceBytes bs first (last + 1 - first)) >>> (lo % 8)) % 2 ^ bits

/-- All elements of packed bytes, `n` of them. -/
def packedElems (bits n : Nat) (bs : List Byte) : List Nat :=
  if bits % 8 = 0 then
    let w := bits / 8
    (List.range n).foldl (fun (acc : List Nat × List Byte) _ => (natOfBytes (acc.2.take w) :: acc.1, acc.2.drop w)) ([], bs)
      |>.1.reverse
  else (List.range n).map (packedElem bits bs)

/-- Bytes with the element at `i` written, its neighbours in shared bytes kept (R153, R184). -/
def setPacked (bits : Nat) (bs : List Byte) (i v : Nat) : List Byte :=
  let lo := i * bits
  let first := lo / 8
  let last := (lo + bits - 1) / 8
  let n := last + 1 - first
  let old := natOfBytes (sliceBytes bs first n)
  let sh := lo % 8
  let kept := old - ((old >>> sh) % 2 ^ bits) <<< sh
  bs.take first ++ bytesOfNat n (kept + ((v % 2 ^ bits) <<< sh)) ++ bs.drop (last + 1)

end Sys2Proof.Machine
end

