-- ==== Sys2Proof/Machine/MatrixDesc.lean ====
section
/-!
DEFINITION. Machine/MatrixDesc.lean: reading and validating MATMUL and SEMIRING descriptors (R146–R164).
-/

namespace Sys2Proof.Machine

/-- Slots of a geometry (R128). -/
def geometrySlots : Geometry → Nat
  | .g1 => 1
  | .g4 => 4
  | .g16 => 16

/-- N per pass, and the largest row count, of a geometry (R128). -/
def slotN : Geometry → Nat
  | .g1 => 128
  | .g4 => 64
  | .g16 => 32

/-- Stationary elements a cell holds (R121). -/
def stationaryPerCell (b : Format) : Nat := if formatBits b ≤ 6 then 2 else 1

/-- K per pass of a geometry and a stationary format (R121, R128). -/
def slotK (g : Geometry) (b : Format) : Nat := slotN g * stationaryPerCell b

/-- Row time in cycles (R121). -/
def rowTime (mode : MathMode) (b : Format) : Nat :=
  match mode with
  | .exact => 1
  | .xorPop => 1
  | _ => if formatBits b = 16 then 4 else 1

/-- The slot rows and columns where slot s begins (R129). -/
def slotOrigin (g : Geometry) (s : Nat) : Nat × Nat :=
  match g with
  | .g1 => (0, 0)
  | .g4 => (64 * (s / 2), 64 * (s % 2))
  | .g16 => (32 * (s / 4), 32 * (s % 4))

/-- KP of a problem: panels along K (R152, R159). -/
def probKP (d : MatDesc) (p : Problem) : Nat := ceilDiv p.k (slotK d.geometry d.fmtB)

/-- MT of a problem (R159). -/
def probMT (d : MatDesc) (p : Problem) : Nat := ceilDiv p.m (slotN d.geometry)

/-- NT of a problem (R159). -/
def probNT (d : MatDesc) (p : Problem) : Nat := ceilDiv p.n (slotN d.geometry)

/-- T of a problem: its output tiles (R159). -/
def probT (d : MatDesc) (p : Problem) : Nat := probMT d p * probNT d p

/-- Output tiles of a task (R159). -/
def taskTiles (d : MatDesc) : Nat := (d.problems.map (probT d)).foldl max 0

/-- Passes per output tile (R159). -/
def taskPasses (d : MatDesc) : Nat := (d.problems.map (probKP d)).foldl max 0

/-- Tile coordinates (mt, nt) of tile t of a problem (R159). -/
def tileCoords (d : MatDesc) (p : Problem) (t : Nat) : Nat × Nat :=
  if d.nMajor then (t % probMT d p, t / probMT d p) else (t / probNT d p, t % probNT d p)

/-- Rows that slot p streams in a pass of tile t (R159). -/
def tileRows (d : MatDesc) (p : Problem) (t : Nat) : Nat :=
  min (slotN d.geometry) (p.m - (tileCoords d p t).1 * slotN d.geometry)

/-- Columns that tile t of a problem produces. -/
def tileCols (d : MatDesc) (p : Problem) (t : Nat) : Nat :=
  min (slotN d.geometry) (p.n - (tileCoords d p t).2 * slotN d.geometry)

/-- Element bytes of an output run (R160). -/
def outRunBytes (d : MatDesc) (p : Problem) (bits : Nat) : Nat :=
  let np := slotN d.geometry
  match d.layout with
  | .tile => probMT d p * probNT d p * np * np * bits / 8
  | .paired => probMT d p * ceilDiv (probNT d p) 2 * np * (2 * np) * bits / 8
  | .strided => p.m * (d.cRowStride * bits / 8)

/-- Bytes of the scale run that follows an MX output (R161). -/
def outScaleBytes (d : MatDesc) (p : Problem) : Nat :=
  let np := slotN d.geometry
  match d.layout with
  | .tile => probMT d p * probNT d p * np * (np / 32)
  | .paired => probMT d p * ceilDiv (probNT d p) 2 * np * (2 * np / 32)
  | .strided => p.m * (d.cRowStride / 32)

/-- Where the scale run of an MX output begins past C_ADDR (R161). -/
def outScaleStart (d : MatDesc) (p : Problem) (bits : Nat) : Nat := ceilDiv (p.cAddr + outRunBytes d p bits) 512 * 512 - p.cAddr

/-- The index, in elements past the run's start, of output (m, n) under the layout, as (row bytes' start in bits, column)
folded into one bit offset (R160). -/
def outBitOffset (d : MatDesc) (p : Problem) (bits m n : Nat) : Nat :=
  let np := slotN d.geometry
  let mt := m / np
  let nt := n / np
  match d.layout with
  | .tile => ((mt * probNT d p + nt) * np * np + (m % np) * np + n % np) * bits
  | .paired => ((mt * ceilDiv (probNT d p) 2 + nt / 2) * np * (2 * np) + (m % np) * (2 * np) + n % (2 * np)) * bits
  | .strided => (m * d.cRowStride + n) * bits

/-- The index of the scale byte of output (m, n) in the scale run (R161). -/
def outScaleIndex (d : MatDesc) (p : Problem) (m n : Nat) : Nat :=
  let np := slotN d.geometry
  let mt := m / np
  let nt := n / np
  match d.layout with
  | .tile => (mt * probNT d p + nt) * (np * (np / 32)) + (m % np) * (np / 32) + (n % np) / 32
  | .paired =>
    (mt * ceilDiv (probNT d p) 2 + nt / 2) * (np * (2 * np / 32)) + (m % np) * (2 * np / 32) + (n % (2 * np)) / 32
  | .strided => m * (d.cRowStride / 32) + n / 32

/-- Element bits of an initial value (R158). -/
def initBits (kind : Nat) : Nat :=
  match kind with
  | 1 | 4 => 32
  | 2 | 3 | 5 | 6 => 16
  | 7 => 128
  | _ => 0

/-- The element of an initial value (R158). -/
def initElem (kind : Nat) : Elem :=
  match kind with
  | 2 | 5 => .bf16
  | 3 | 6 => .fp16
  | _ => .fp32

/-- Whether an initial value is one per column (R158). -/
def initPerColumn (kind : Nat) : Bool := decide (1 ≤ kind ∧ kind ≤ 3)

/-- Bytes of the initial value of a problem (R158). -/
def initBytes (d : MatDesc) (p : Problem) : Nat :=
  if d.initKind = 0 then 0
  else if initPerColumn d.initKind then p.n * initBits d.initKind / 8
  else outRunBytes d p (initBits d.initKind)

/-- Bytes of one element panel of A and of B (R152). -/
def aPanelBytes (d : MatDesc) : Nat := slotN d.geometry * slotK d.geometry d.fmtB * formatBits d.fmtA / 8

/-- Bytes of one element panel of B (R152). -/
def bPanelBytes (d : MatDesc) : Nat := slotK d.geometry d.fmtB * slotN d.geometry * formatBits d.fmtB / 8

/-- Scale bytes of one panel of either operand (R152). -/
def scalePanelBytes (d : MatDesc) : Nat := slotK d.geometry d.fmtB / 32 * slotN d.geometry

/-- The four operand runs of a problem, (address, bytes): A elements, A scales, B elements, B scales (R152). -/
def operandRuns (d : MatDesc) (p : Problem) : List (Nat × Nat) :=
  let a := probMT d p * probKP d p
  let b := probNT d p * probKP d p
  [(p.aElem, a * aPanelBytes d), (p.aScale, if isMx d.fmtA then a * scalePanelBytes d else 0),
    (p.bElem, b * bPanelBytes d), (p.bScale, if isMx d.fmtB then b * scalePanelBytes d else 0)]

/-- An output run of a format with its scale run, in bytes (R160, R161, R177). -/
def outExtentAs (d : MatDesc) (p : Problem) (f : Format) : Nat :=
  let bits := formatBits f
  if isMx f then outScaleStart d p bits + outScaleBytes d p else outRunBytes d p bits

/-- The output run with its scale run, in bytes (R160, R161). -/
def outExtent (d : MatDesc) (p : Problem) : Nat := outExtentAs d p d.fmtOut

/-- Whether any operand run or initial value of a task lies in virtual space (R156). -/
def hasVirtualInput (d : MatDesc) : Bool :=
  d.problems.any fun p => (operandRuns d p).any (fun r => addrVirtual r.1) || addrVirtual p.initAddr

/-- Whether a scratch run overlaps the stage area (R156). -/
def hitsStage (a n : Nat) : Bool := addrPresent a && addrScratch a && decide (0 < n ∧ stageBase < addrOffset a + n)

/-! ### Reading -/

/-- A problem entry of 64 bytes (R148). -/
def readProblem (bs : List Byte) : Problem :=
  { m := fieldOf bs 0 4, n := fieldOf bs 4 4, k := fieldOf bs 8 4, aElem := fieldOf bs 0x10 8,
    aScale := fieldOf bs 0x18 8, bElem := fieldOf bs 0x20 8, bScale := fieldOf bs 0x28 8,
    cAddr := fieldOf bs 0x30 8, initAddr := fieldOf bs 0x38 8 }

/-- MODE as a mode: a MATMUL task is on the exact path when FMT_A is in the exact group, else on the tree path (R151). -/
def modeOf (mode : Nat) (fmtA : Format) : MathMode :=
  match mode with
  | 1 => .minPlus
  | 2 => .maxPlus
  | 3 => .l1
  | 4 => .l2
  | 5 => .matchWords
  | 6 => .xorPop
  | _ => if inExactGroup fmtA then .exact else .tree

/-- A descriptor and the bytes of its problem entries as a task, fields out of range read as their zero code (validation
has refused them before this is used). -/
def readMatDesc (bs : List Byte) (entries : List (List Byte)) (epilogue : Option VectorDesc) : MatDesc :=
  let ctl := fieldOf bs 0x20 1
  let fmt (o : Nat) : Format := (formatOfCode (fieldOf bs o 1)).getD .fp8e4m3
  { geometry := match bitsOf ctl 1 0 with | 1 => .g4 | 2 => .g16 | _ => .g1
    nMajor := bitOf ctl 3
    floor := if bitOf ctl 4 then some (signedOf 16 (fieldOf bs 0x2A 2)) else none
    mode := modeOf (fieldOf bs 0x21 1) (fmt 0x22)
    fmtA := fmt 0x22
    fmtB := fmt 0x23
    fmtOut := fmt 0x24
    layout := match fieldOf bs 0x25 1 with | 1 => .paired | 2 => .strided | _ => .tile
    initKind := fieldOf bs 0x26 1
    cRowStride := fieldOf bs 0x2C 4
    epilogue := epilogue
    problems := entries.map readProblem }

/-- Whether TABLE is set (R146). -/
def matHasTable (bs : List Byte) : Bool := bitOf (fieldOf bs 0x20 1) 2

/-- The PROBLEM_TABLE read that staging makes: address and bytes, when the field can name one (R148, R149). -/
def problemTableRead (bs : List Byte) : Option (Nat × Nat) :=
  let a := fieldOf bs 0x38 8
  let n := fieldOf bs 0x28 1
  if matHasTable bs && addrPresent a && !addrReserved a && decide (addrSpace a < 2 ∧ 1 ≤ n ∧ n ≤ 16) then some (a, 64 * n)
  else none

/-- The EPILOGUE address when SKID_MODE is 1 (R163). -/
def epilogueAddr (bs : List Byte) : Nat := fieldOf bs 0x30 8

/-- Bytes in 64-byte entries. -/
def chunks64 : Nat → List Byte → List (List Byte)
  | 0, _ => []
  | k + 1, bs => bs.take 64 :: chunks64 k (bs.drop 64)

/-- The problem entries of a task: the inline one, or those of its table (R148). -/
def problemEntries (bs table : List Byte) : List (List Byte) :=
  if matHasTable bs then chunks64 (table.length / 64) table else [sliceBytes bs 0x40 64]

/-! ### Validation (R164) -/

/-- The address fields of a problem entry, by offset (R148). -/
def problemAddrOffsets : List Nat := [0x10, 0x18, 0x20, 0x28, 0x30, 0x38]

/-- Formats accepted as FMT_A or FMT_B (R150). -/
def acceptedIn (c : Nat) : Bool := [0x01, 0x02, 0x03, 0x04, 0x08, 0x09, 0x0A, 0x0B, 0x0C, 0x0D, 0x10, 0x11, 0x18].contains c

/-- Formats accepted as FMT_OUT (R150). -/
def acceptedOut (c : Nat) : Bool := [0x01, 0x02, 0x08, 0x09, 0x0A, 0x0B, 0x0C, 0x0D, 0x10, 0x11, 0x14, 0x1F].contains c

/-- Codes of the exact group (R151). -/
def exactCode (c : Nat) : Bool := [0x01, 0x02, 0x03, 0x04, 0x08, 0x09, 0x0A, 0x0B, 0x0C, 0x0D].contains c

/-- Codes of the tree path (R151). -/
def treeCode (c : Nat) : Bool := c == 0x10 || c == 0x11

/-- Whether FMT_A and FMT_B form a pair for MODE (R151). -/
def pairAllowed (mode fa fb : Nat) : Bool :=
  match mode with
  | 0 => (exactCode fa && exactCode fb) || (treeCode fa && treeCode fb)
  | 5 | 6 => fa == 0x18 && fb == 0x18
  | _ => treeCode fa && treeCode fb

/-- Whether INIT_KIND is accepted (R158). -/
def initAllowed (exactPath : Bool) (mode kind out : Nat) : Bool :=
  decide (kind ≤ 7) && (kind == 0 || decide (mode < 5)) && (kind != 7 || exactPath) && (out != 0x1F || kind == 0 || kind == 7)

/-- A failed check: its code and the problem entry concerned, when there is one. -/
abbrev CheckFailure := W16 × Option Nat

/-- The first entry, in ascending index, that a check fails. -/
def failingEntry {α : Type} (bad : α → Bool) (l : List α) : Option Nat := l.findIdx? bad

/-- One check of the table: the task-wide fields first, then the entries (R164). -/
def checkStep {α : Type} (code : W16) (wide : Bool) (bad : α → Bool) (l : List α) : Option CheckFailure :=
  if wide then some (code, none) else (failingEntry bad l).map fun i => (code, some i)

/-- Whether a scratch run of `n` bytes ends beyond scratch (R155). -/
def beyondScratch (a n : Nat) : Bool := addrScratch a && decide (scratchBytes < addrOffset a + n)

/-- The alignment of R155 for a run or address: `virt` in virtual space, 512 for every run in scratch. -/
def misaligned (a virt scratch : Nat) : Bool := addrPresent a && addrOffset a % (if addrScratch a then scratch else virt) != 0

/-- Whether the address fields of a problem break 0x211A. -/
def problemAddrBad (d : MatDesc) (skidStore : Bool) (p : Problem) : Bool :=
  let need := decide (0 < p.m ∧ 0 < p.n ∧ 0 < p.k)
  let all := [p.aElem, p.aScale, p.bElem, p.bScale, p.cAddr, p.initAddr]
  all.any (fun a => decide (2 ≤ addrSpace a))
    || (need && !(addrPresent p.aElem && addrPresent p.bElem))
    || (addrPresent p.aScale && !isMx d.fmtA) || (addrPresent p.bScale && !isMx d.fmtB)
    || (need && isMx d.fmtA && !addrPresent p.aScale) || (need && isMx d.fmtB && !addrPresent p.bScale)
    || (skidStore && decide (0 < p.m ∧ 0 < p.n) && !addrPresent p.cAddr)
    || ((d.initKind != 0) != addrPresent p.initAddr)
    || misaligned p.aElem 0x10000 512 || misaligned p.bElem 0x10000 512
    || misaligned p.aScale 512 512 || misaligned p.bScale 512 512
    || misaligned p.cAddr 128 512 || misaligned p.initAddr 128 128
    || (operandRuns d p).any (fun r => beyondScratch r.1 r.2)
    || beyondScratch p.cAddr (outExtent d p) || beyondScratch p.initAddr (initBytes d p)

/-- Whether a scratch run or initial value of a problem meets the stage area (R156). -/
def problemHitsStage (d : MatDesc) (p : Problem) : Bool :=
  (operandRuns d p).any (fun r => hitsStage r.1 r.2) || hitsStage p.cAddr (outExtent d p)
    || hitsStage p.initAddr (initBytes d p)

/-- The checks of R164 in order: the first failure, or none. `semiring` is the task type. -/
def validateMat (semiring : Bool) (bs : List Byte) (entries : List (List Byte)) : Option CheckFailure :=
  let ctl := fieldOf bs 0x20 1
  let geo := bitsOf ctl 1 0
  let mode := fieldOf bs 0x21 1
  let fa := fieldOf bs 0x22 1
  let fb := fieldOf bs 0x23 1
  let fo := fieldOf bs 0x24 1
  let layout := fieldOf bs 0x25 1
  let kind := fieldOf bs 0x26 1
  let skid := fieldOf bs 0x27 1
  let count := fieldOf bs 0x28 1
  let epi := fieldOf bs 0x30 8
  let tab := fieldOf bs 0x38 8
  let stride := fieldOf bs 0x2C 4
  let d := readMatDesc bs entries none
  let exactPath := mode == 0 && exactCode fa && exactCode fb
  let never (_ : Problem) : Bool := false
  firstSome (fun c : Unit → Option CheckFailure => c ())
    [ fun _ => checkStep 0x2110 (bitsOf ctl 7 5 != 0 || fieldOf bs 0x29 1 != 0 || addrReserved epi || addrReserved tab)
        (fun e => fieldOf e 0x0C 4 != 0 || problemAddrOffsets.any fun o => addrReserved (fieldOf e o 8)) entries
    , fun _ => checkStep 0x2111 (geo == 3 || decide (6 < mode) || (!semiring && mode != 0) || (semiring && mode == 0))
        never d.problems
    , fun _ => checkStep 0x2112 (!(acceptedIn fa && acceptedIn fb && acceptedOut fo)) never d.problems
    , fun _ => checkStep 0x2113 (!pairAllowed mode fa fb) never d.problems
    , fun _ => checkStep 0x2114 ((fo == 0x1F && !exactPath) || decide (1 < skid) || (skid == 1 && fo != 0x14))
        never d.problems
    , fun _ => checkStep 0x2115 (!initAllowed exactPath mode kind fo) never d.problems
    , fun _ => checkStep 0x2116 (match d.floor with
        | some f => !exactPath || decide (f < -254 ∨ 254 < f)
        | none => false) never d.problems
    , fun _ => checkStep 0x2117 (count == 0 || decide (geometrySlots d.geometry < count)
        || (!matHasTable bs && count != 1) || (matHasTable bs && !zeroAt bs 0x40 64)) never d.problems
    , fun _ => checkStep 0x2118 (decide (2 < layout) || (layout == 1 && fo == 0x1F) || (layout != 2 && stride != 0)
        || (layout == 2 && (decide (stride < (d.problems.map (·.n)).foldl max 0)
          || stride * formatBits d.fmtOut % 1024 != 0 || decide (2 ^ 32 ≤ stride * formatBits d.fmtOut / 8))))
        never d.problems
    , fun _ => checkStep 0x2119 false (fun p : Problem =>
        decide (16777216 < p.m ∨ 16777216 < p.n ∨ 268435456 < p.k)) d.problems
    , fun _ => checkStep 0x211A (decide (2 ≤ addrSpace epi ∨ 2 ≤ addrSpace tab)
        || ((skid == 1) != addrPresent epi) || (matHasTable bs != addrPresent tab)
        || misaligned epi 128 128 || misaligned tab 64 64 || beyondScratch epi 128 || beyondScratch tab (64 * count))
        (problemAddrBad d (skid == 0)) d.problems
    , fun _ => checkStep 0x211B (hasVirtualInput d && hitsStage epi 128)
        (fun p => hasVirtualInput d && problemHitsStage d p) d.problems ]

end Sys2Proof.Machine
end

