-- ==== Sys2Proof/Machine/VectorDesc.lean ====
section
/-!
DEFINITION. Machine/VectorDesc.lean: reading and validating VECTOR descriptors, Dresser programs and tensor tables
(R173–R179, R197).
-/

namespace Sys2Proof.Machine

/-- Which register an operation's field names. -/
inductive RegUse where
  /-- The operation does not use the field. -/
  | unused
  /-- A tile register in a block phase, a strip register in a strip phase. -/
  | lane
  /-- A strip register in every phase. -/
  | strip
  /-- A mask register 1-7. -/
  | maskDst
  /-- A mask register 0-7. -/
  | mask
deriving DecidableEq, Repr

/-- A row of the operation catalogue (R179): phases, the use of each field, and the IMM bits in use. -/
structure OpRow where
  block : Bool
  strip : Bool
  dst : RegUse
  srcA : RegUse
  /-- Operand B through BSRC. -/
  operandB : Bool := false
  /-- SRC_B read as a tile or mask register without BSRC. -/
  srcB : RegUse := .unused
  /-- GATHER, SCATTER, SCATADD: BSRC 0 element mode, 1 row mode (R187). -/
  indexed : Bool := false
  immBits : Nat := 0
deriving DecidableEq, Repr

/-- The catalogue of R179; none is a reserved opcode. -/
def opRow (op : Nat) : Option OpRow :=
  let binary : OpRow := ⟨true, true, .lane, .lane, true, .unused, false, 0⟩
  let unary : OpRow := ⟨true, true, .lane, .lane, false, .unused, false, 0⟩
  match op with
  | 0x00 => some ⟨true, true, .unused, .unused, false, .unused, false, 0⟩
  | 0x01 => some ⟨true, false, .lane, .unused, false, .unused, false, 7⟩
  | 0x02 => some ⟨true, false, .lane, .unused, false, .unused, false, 0⟩
  | 0x03 => some ⟨true, false, .unused, .lane, false, .unused, false, 7⟩
  | 0x04 => some ⟨false, true, .lane, .unused, false, .unused, false, 7⟩
  | 0x05 => some ⟨false, true, .unused, .lane, false, .unused, false, 7⟩
  | 0x06 => some ⟨true, false, .lane, .lane, false, .unused, true, 0xFFFFFF07⟩
  | 0x07 => some ⟨true, false, .unused, .lane, false, .lane, true, 0xFFFFFF07⟩
  | 0x08 => some ⟨true, false, .unused, .lane, false, .lane, true, 0xFFFFFF07⟩
  | 0x09 => some ⟨true, true, .lane, .unused, true, .unused, false, 0⟩
  | 0x0A => some ⟨true, false, .lane, .unused, false, .unused, false, 3⟩
  | 0x0B => some ⟨true, false, .lane, .lane, true, .unused, false, 0⟩
  | 0x10 | 0x11 | 0x12 | 0x13 | 0x14 | 0x15 | 0x24 | 0x38 | 0x39 | 0x3A | 0x3B | 0x3C => some binary
  | 0x16 | 0x17 | 0x19 | 0x1A | 0x1B | 0x1C | 0x1D | 0x1E | 0x1F | 0x20 | 0x21 | 0x22 | 0x3E | 0x3F => some unary
  | 0x18 => some { binary with immBits := 0xFFFFFFFF }
  | 0x23 => some { binary with strip := false, immBits := 0x1F }
  | 0x30 => some ⟨true, false, .maskDst, .lane, true, .unused, false, 7⟩
  | 0x31 | 0x32 => some ⟨true, false, .maskDst, .mask, false, .mask, false, 0⟩
  | 0x33 => some ⟨true, false, .maskDst, .mask, false, .unused, false, 0⟩
  | 0x3D => some { unary with immBits := 0x1F }
  | 0x40 | 0x41 | 0x42 => some ⟨true, false, .strip, .lane, false, .unused, false, 0⟩
  | 0x48 => some ⟨false, true, .unused, .unused, false, .unused, false, 0x17F⟩
  | 0x49 => some ⟨true, false, .unused, .lane, false, .unused, false, 1⟩
  | 0x4A => some ⟨false, true, .unused, .unused, false, .unused, false, 0x77⟩
  | _ => none

/-- An instruction's fields (R178). -/
def readDInstr (w : Nat) : DInstr :=
  { imm := BitVec.ofNat 32 (bitsOf w 63 32), opcode := bitsOf w 31 24, phase := bitsOf w 23 21, mask := bitsOf w 20 18
    bsrc := bitsOf w 17 16, dst := bitsOf w 15 11, srcA := bitsOf w 10 6, srcB := bitsOf w 5 1 }

/-- IMM 2:0: the tensor of a transfer. -/
def instrTensor (i : DInstr) : Nat := bitsOf i.imm.toNat 2 0

/-- Whether SRC_B is used: operand B as a register, an indexed source, or TOPK with IMM bit 0 (R188). -/
def usesSrcB (r : OpRow) (i : DInstr) : Bool :=
  (r.operandB && decide (i.bsrc < 2)) || r.srcB != .unused || (i.opcode == 0x49 && bitOf i.imm.toNat 0)

/-- Whether an unused field or IMM bit, or bit 0, of an instruction is non-zero (R179, R197 0x2310). -/
def instrReserved (w : Nat) : Bool :=
  let i := readDInstr w
  bitOf w 0 ||
  match opRow i.opcode with
  | none => false
  | some r =>
    let immUsed := if r.operandB && i.bsrc == 2 then 0xFFFFFFFF else r.immBits
    (i.imm.toNat &&& (0xFFFFFFFF ^^^ immUsed)) != 0
      || (r.dst == .unused && i.dst != 0) || (r.srcA == .unused && i.srcA != 0)
      || (!usesSrcB r i && i.srcB != 0) || (!r.operandB && !r.indexed && i.bsrc != 0)

/-- Whether a register number lies beyond the range its use allows. -/
def regBad (use : RegUse) (stripPhase : Bool) (n : Nat) : Bool :=
  match use with
  | .unused => false
  | .lane => stripPhase && decide (8 ≤ n)
  | .strip | .mask => decide (8 ≤ n)
  | .maskDst => decide (n = 0 ∨ 8 ≤ n)

/-- Whether an opcode names a tensor by IMM 2:0. -/
def namesTensor (op : Nat) : Bool := [0x01, 0x03, 0x04, 0x05, 0x06, 0x07, 0x08, 0x4A].contains op

/-- Whether an instruction fails check 0x2315 of R197. -/
def instrBad (tensors : Nat) (i : DInstr) : Bool :=
  let stripPhase := i.phase % 2 == 0
  decide (4 < i.phase) ||
  match opRow i.opcode with
  | none => true
  | some r =>
    (if stripPhase then !r.strip else !r.block)
      || (stripPhase && i.mask != 0)
      || (i.bsrc == 3) || (r.indexed && i.bsrc == 2) || (r.operandB && stripPhase && i.bsrc == 1)
      || regBad r.dst stripPhase i.dst
      || regBad (if r.indexed && i.bsrc == 1 then .strip else r.srcA) stripPhase i.srcA
      || (usesSrcB r i && regBad
            (if r.operandB && i.bsrc == 1 then .strip else if r.srcB == .unused then .lane else r.srcB) stripPhase i.srcB)
      || (namesTensor i.opcode && decide (tensors ≤ instrTensor i))
      || (i.opcode == 0x4A && decide (tensors ≤ bitsOf i.imm.toNat 6 4))
      || (i.opcode == 0x48 && decide (bitsOf i.imm.toNat 6 0 = 0 ∨ 64 < bitsOf i.imm.toNat 6 0))

/-- A tensor entry of 32 bytes (R176). -/
def readTensor (bs : List Byte) : Tensor :=
  { address := fieldOf bs 0 8, scaleAddress := fieldOf bs 8 8
    kind := match fieldOf bs 0x10 1 with | 1 => .fabric | 2 => .deck | 3 => .taskOutput | _ => .memory
    format := (formatOfCode (fieldOf bs 0x11 1)).getD .fp32
    colBcast := bitOf (fieldOf bs 0x12 1) 0, timed := bitOf (fieldOf bs 0x12 1) 1
    stride1 := fieldOf bs 0x14 4, stride2 := fieldOf bs 0x18 4, stride3 := fieldOf bs 0x1C 4 }

/-- Bytes in 32-byte entries. -/
def chunks32 : Nat → List Byte → List (List Byte)
  | 0, _ => []
  | k + 1, bs => bs.take 32 :: chunks32 k (bs.drop 32)

/-- Bytes as 64-bit words. -/
def words64 : Nat → List Byte → List Nat
  | 0, _ => []
  | k + 1, bs => natOfBytes (bs.take 8) :: words64 k (bs.drop 8)

/-- The read of PROGRAM that staging makes (R149, R174): address and bytes, when the field can name one. -/
def programRead (bs : List Byte) : Option (Nat × Nat) :=
  let a := fieldOf bs 0x30 8
  if addrPresent a && !addrReserved a && decide (addrSpace a < 2) then some (a, 8 * min (fieldOf bs 0x2C 1) 64) else none

/-- The read of TENSOR_TABLE that staging makes. -/
def tensorTableRead (bs : List Byte) : Option (Nat × Nat) :=
  let a := fieldOf bs 0x38 8
  let n := fieldOf bs 0x2D 1
  if addrPresent a && !addrReserved a && decide (addrSpace a < 2 ∧ n ≤ 8) then some (a, 32 * n) else none

/-- The instruction words of a descriptor: inline, or those read at PROGRAM (R173). -/
def programWords (bs program : List Byte) : List Nat :=
  let n := fieldOf bs 0x2C 1
  if addrPresent (fieldOf bs 0x30 8) then words64 (min n (program.length / 8)) program
  else words64 (min n 8) (sliceBytes bs 0x40 64)

/-- A descriptor, its program words and its tensor table as a Dresser program. -/
def readVectorDesc (bs program table : List Byte) : VectorDesc :=
  { d0 := fieldOf bs 0x20 4, d1 := fieldOf bs 0x24 4, d2 := fieldOf bs 0x28 2, d3 := fieldOf bs 0x2A 2
    epilogue := bitOf (fieldOf bs 0x2E 1) 0
    program := (programWords bs program).map readDInstr
    tensors := (chunks32 (table.length / 32) table).map readTensor }

/-- Whether a tensor entry holds a non-zero reserved field (R176, 0x2310). -/
def tensorReserved (bs : List Byte) : Bool :=
  let kind := fieldOf bs 0x10 1
  let flags := fieldOf bs 0x12 1
  bitsOf flags 7 2 != 0 || fieldOf bs 0x13 1 != 0 || (bitOf flags 1 && kind != 1)
    || ((kind == 0 || kind == 2) && addrReserved (fieldOf bs 0 8)) || addrReserved (fieldOf bs 8 8)
    || (kind == 3 && fieldOf bs 0 8 != 0)

/-- Whether a tensor entry fails check 0x2314. -/
def tensorMisplaced (bs : List Byte) : Bool :=
  let t := readTensor bs
  let eb := if (formatOfCode (fieldOf bs 0x11 1)).isSome then formatBits t.format / 8 else 0
  (((t.kind == .memory && fieldOf bs 0x10 1 == 0) || t.kind == .deck) && decide (2 ≤ addrSpace t.address)) || decide (2 ≤ addrSpace t.scaleAddress)
    || (t.kind == .deck && t.address % 32 != 0)
    || ((eb == 2 || eb == 4) && ([t.address, t.scaleAddress, t.stride1, t.stride2, t.stride3].any fun x => x % eb != 0))

/-- Whether a tensor's KIND, FORMAT or SCALE_ADDRESS is out of place whatever uses it (0x2316). DESIGN CHOICE: no row of R197 names a code
for a SCALE_ADDRESS that stands where R176 has it absent; it counts as one out of place (log 86). -/
def tensorUnsuited (epilogue : Bool) (bs : List Byte) : Bool :=
  let t := readTensor bs
  let code := fieldOf bs 0x11 1
  decide (3 < fieldOf bs 0x10 1) || (formatOfCode code).isNone || code == 0x18 || code == 0x1F
    || (t.kind == .taskOutput && !epilogue)
    || (isMx t.format && (t.kind == .fabric || t.kind == .deck
        || (t.kind == .memory && (epilogue || !addrPresent t.scaleAddress))))
    || (addrPresent t.scaleAddress && !(isMx t.format && t.kind == .memory && !epilogue))

/-- Whether an instruction puts a tensor to a use it does not suit (0x2316). -/
def instrUnsuited (epilogue : Bool) (ts : List Tensor) (i : DInstr) : Bool :=
  let t := ts.getD (instrTensor i) {}
  ([0x01, 0x04, 0x06, 0x07, 0x08].contains i.opcode && t.kind != .memory)
    || (i.opcode == 0x02 && !epilogue)
    || (i.opcode == 0x08 && t.format != .fp32)
    || (i.opcode == 0x4A && (ts.getD (bitsOf i.imm.toNat 6 4) {}).format != .int32)

/-- The iteration space an extent is computed over: D0, D1, D2, D3 (R197 0x2317). -/
structure ExtentSpace where
  d0 : Nat
  d1 : Nat
  d2 : Nat
  d3 : Nat
deriving DecidableEq, Repr

/-- A gather or scatter, by opcode, and its LIMIT (R187). -/
def DInstr.indexes (i : DInstr) : Bool := [0x06, 0x07, 0x08].contains i.opcode
def DInstr.limit (i : DInstr) : Nat := bitsOf i.imm.toNat 31 8

/-- The gathers and scatters of a tensor that reach some element. -/
def gathersOf (prog : List DInstr) (idx : Nat) : List DInstr :=
  prog.filter fun i => i.indexes && instrTensor i == idx && decide (0 < i.limit)

/-- Whether a TOPK_EMIT stores to a tensor (R188). -/
def emitsTo (prog : List DInstr) (idx : Nat) : Bool :=
  prog.any fun i => i.opcode == 0x4A && (instrTensor i == idx || bitsOf i.imm.toNat 6 4 == idx)

/-- Columns of a tensor that a program reaches: those of the space, or as many as the longest list it emits. -/
def tensorCols (prog : List DInstr) (sp : ExtentSpace) (idx : Nat) : Nat :=
  let ks := (prog.filter fun i => i.opcode == 0x48).map fun i => bitsOf i.imm.toNat 6 0
  if emitsTo prog idx then (if ks.isEmpty then max sp.d0 64 else ks.foldl max sp.d0) else sp.d0

/-- Whether a tensor is swept over the iteration space: it is named otherwise than by gathers and scatters, or not at all. -/
def tensorSwept (prog : List DInstr) (idx : Nat) : Bool :=
  !(prog.any fun i => i.indexes && instrTensor i == idx) || emitsTo prog idx ||
  prog.any fun i => namesTensor i.opcode && !i.indexes && instrTensor i == idx

/-- Bytes a memory tensor reaches past its ADDRESS over the space and over LIMIT of its gathers and scatters (R177, R187). -/
def tensorExtent (prog : List DInstr) (sp : ExtentSpace) (idx : Nat) (t : Tensor) : Nat :=
  if sp.d0 = 0 ∨ sp.d1 = 0 ∨ sp.d2 = 0 ∨ sp.d3 = 0 then 0
  else
    let bits := formatBits t.format
    let row := packedBytes bits (if t.colBcast then 1 else tensorCols prog sp idx)
    let lead := (sp.d3 - 1) * t.stride3 + (sp.d2 - 1) * t.stride2
    ((gathersOf prog idx).map fun i =>
      if i.bsrc = 0 then packedBytes bits i.limit else lead + (i.limit - 1) * t.stride1 + row).foldl max
      (if tensorSwept prog idx then lead + (sp.d1 - 1) * t.stride1 + row else 0)

/-- Bytes of an MX memory tensor's scale run that are reached past SCALE_ADDRESS, over the space and over LIMIT of its gathers and scatters
(R177, R187). -/
def tensorScaleExtent (prog : List DInstr) (sp : ExtentSpace) (idx : Nat) (t : Tensor) : Nat :=
  if sp.d0 = 0 ∨ sp.d1 = 0 ∨ sp.d2 = 0 ∨ sp.d3 = 0 then 0
  else
    let blocks := ceilDiv sp.d0 32
    let row := if t.colBcast then 1 else max blocks (ceilDiv (tensorCols prog sp idx) 32)
    let lead := ((sp.d3 - 1) * sp.d2 + (sp.d2 - 1)) * sp.d1
    ((gathersOf prog idx).map fun i =>
      if i.bsrc = 0 then ceilDiv i.limit 32 else (lead + (i.limit - 1)) * blocks + row).foldl max
      (if tensorSwept prog idx then (lead + (sp.d1 - 1)) * blocks + row else 0)

/-- The checks of R197 in order; the index of a failure names the instruction or the tensor entry. `guard` says that an
epilogue's task has an operand run or initial value in virtual space. -/
def validateVector (epilogue guard : Bool) (space : Option ExtentSpace) (bs program table : List Byte) :
    Option CheckFailure :=
  let d := readVectorDesc bs program table
  let words := programWords bs program
  let entries := chunks32 (table.length / 32) table
  let prog := fieldOf bs 0x30 8
  let tab := fieldOf bs 0x38 8
  let plen := fieldOf bs 0x2C 1
  let tcount := fieldOf bs 0x2D 1
  let sp := space.getD ⟨d.d0, d.d1, d.d2, d.d3⟩
  let never (_ : List Byte) : Bool := false
  let indexed := (List.range d.tensors.length).zip d.tensors
  firstSome (fun c : Unit → Option CheckFailure => c ())
    [ fun _ => checkStep 0x2310 (bitsOf (fieldOf bs 0x2E 1) 7 1 != 0 || fieldOf bs 0x2F 1 != 0
        || addrReserved prog || addrReserved tab) instrReserved words
    , fun _ => checkStep 0x2310 false tensorReserved entries
    , fun _ => checkStep 0x2311 (d.epilogue != epilogue
        || (epilogue && (d.d0 != 0 || d.d1 != 0 || d.d2 != 0 || d.d3 != 0)) || decide (16777216 < d.d0 ∨ 16777216 < d.d1))
        never entries
    , fun _ => checkStep 0x2312 (plen == 0 || decide (64 < plen) || (!addrPresent prog && decide (8 < plen))
        || (addrPresent prog && !zeroAt bs 0x40 64)) never entries
    , fun _ => checkStep 0x2313 (decide (8 < tcount) || ((tcount != 0) != addrPresent tab)) never entries
    , fun _ => checkStep 0x2314 (decide (2 ≤ addrSpace prog ∨ 2 ≤ addrSpace tab) || misaligned prog 64 64
        || misaligned tab 64 64) tensorMisplaced entries
    , fun _ => checkStep 0x2315 false (instrBad tcount) d.program
    , fun _ => checkStep 0x2316 false (tensorUnsuited epilogue) entries
    , fun _ => checkStep 0x2316 false (instrUnsuited epilogue d.tensors) d.program
    , fun _ => checkStep 0x2317 false (fun p : Nat × Tensor =>
        p.2.kind == .memory &&
        ((addrScratch p.2.address &&
            (let n := tensorExtent d.program sp p.1 p.2
             beyondScratch p.2.address n || (epilogue && guard && hitsStage p.2.address n)))
          || (isMx p.2.format && beyondScratch p.2.scaleAddress (tensorScaleExtent d.program sp p.1 p.2)))) indexed ]

/-- The space an epilogue's extents are computed over: every slot run its task can produce (R197). -/
def epilogueSpace (d : MatDesc) : ExtentSpace :=
  ⟨(d.problems.map (·.n)).foldl max 0, (d.problems.map (·.m)).foldl max 0, d.problems.length, 1⟩

end Sys2Proof.Machine
end

