-- ==== Sys2Proof/Machine/TaskDesc.lean ====
section
/-!
DEFINITION. Machine/TaskDesc.lean: reading task headers, and reading and validating MOVE, DECK and ENQUEUE descriptors
(R208, R221, R228, R229, R245, R273–R275).
-/

namespace Sys2Proof.Machine

/-- The task types of R229; none is a reserved TYPE. -/
def taskTypeOfCode (c : Nat) : Option TaskType :=
  match c with
  | 0x01 => some .matmul
  | 0x02 => some .semiring
  | 0x03 => some .vector
  | 0x04 => some .move
  | 0x05 => some .deck
  | 0x08 => some .fenceWait
  | 0x09 => some .fenceSignal
  | 0x0A => some .enqueue
  | 0x0B => some .barrier
  | _ => none

/-- Whether a type runs on a bench (R229). -/
def isBenchType : TaskType → Bool
  | .matmul | .semiring | .vector | .move | .deck => true
  | _ => false

/-- The common header of a descriptor (R228); a reserved TYPE reads as FENCE_WAIT (staging has refused it, R231). -/
def readHeader (bs : List Byte) : Header :=
  let flags := fieldOf bs 1 1
  { type := (taskTypeOfCode (fieldOf bs 0 1)).getD .fenceWait
    speculative := bitOf flags 0, abortOnFail := bitOf flags 1, setAbort := bitOf flags 2
    group := bitsOf (fieldOf bs 2 2) 9 0, waitTarget := fieldOf bs 4 4, target := fieldOf bs 8 8
    waitAddr := fieldOf bs 0x10 6, timeout := fieldOf bs 0x16 2
    signalAddr := fieldOf bs 0x18 6, signalAdd := fieldOf bs 0x1E 2 }

/-- Whether a reserved field or bit of the header is non-zero (0x3001). -/
def headerReserved (bs : List Byte) : Bool := bitsOf (fieldOf bs 1 1) 7 3 != 0 || bitsOf (fieldOf bs 2 2) 15 10 != 0

/-- Whether WAIT and SIGNAL fields break check 0x3004 of R231. -/
def headerFencesBad (h : Header) : Bool :=
  h.waitAddr % 8 != 0 || h.signalAddr % 8 != 0 || ((h.signalAddr != 0) != (h.signalAdd != 0))
    || (h.setAbort && h.type != .fenceSignal) || (h.setAbort && h.signalAddr == 0)

/-- Whether the speculation fields break check 0x3005 of R231. -/
def headerSpecBad (h : Header) : Bool :=
  (h.speculative != (h.group != 0)) || (h.speculative && !isBenchType h.type) || (h.speculative && h.waitAddr == 0)

/-! ### MOVE -/

/-- OP of a MOVE (R273). -/
def moveOpOfCode (c : Nat) : Option MoveOp :=
  match c with
  | 1 => some .copy
  | 2 => some .fill
  | 3 => some .prefetch
  | 4 => some .evict
  | 5 => some .flashWrite
  | _ => none

/-- A MOVE descriptor (R273). -/
def readMove (bs : List Byte) : MoveDesc :=
  let flags := fieldOf bs 0x21 1
  { op := (moveOpOfCode (fieldOf bs 0x20 1)).getD .copy, dstHandle := bitOf flags 0, timed := bitOf flags 1
    length := fieldOf bs 0x24 4, src := fieldOf bs 0x28 8, dst := fieldOf bs 0x30 8, pattern := fieldOf bs 0x38 8 }

/-- Whether a MOVE works in whole 64 KiB units of a tier (R273). -/
def moveWhole : MoveOp → Bool
  | .prefetch | .evict | .flashWrite => true
  | _ => false

/-- Whether an address field of a MOVE breaks check 0x4013 of R275. -/
def moveAddrBad (d : MoveDesc) (a : Nat) (need : Bool) (align : Nat) : Bool :=
  (addrPresent a != need) || decide (2 ≤ addrSpace a) || addrOffset a % align != 0
    || (addrScratch a && (moveWhole d.op || beyondScratch a d.length))

/-- The checks of R275 in order. A FLAGS bit that the OP does not use is a reserved bit, which the first row names (log 75). -/
def validateMove (bs : List Byte) : Option CheckFailure :=
  let d := readMove bs
  let op := fieldOf bs 0x20 1
  let flags := fieldOf bs 0x21 1
  if bitsOf flags 7 2 != 0 || (op != 1 && flags != 0) || !zeroAt bs 0x22 2 || !zeroAt bs 0x40 64 || (op != 2 && d.pattern != 0)
      || addrReserved d.src || (!d.dstHandle && addrReserved d.dst) then some (0x4010, none)
  else if (moveOpOfCode op).isNone || (d.dstHandle && d.op != .copy) || (d.timed && !d.dstHandle) then some (0x4011, none)
  else if d.length % 128 != 0 || decide (d.length < 128 ∨ 0xFFFFFF80 < d.length)
      || (moveWhole d.op && d.length % 65536 != 0) then some (0x4012, none)
  else if moveAddrBad d d.src (d.op != .fill) (if d.op == .prefetch || d.op == .evict then 65536 else 128)
      || (if d.dstHandle then d.dst % 128 != 0
          else moveAddrBad d d.dst (d.op == .copy || d.op == .fill || d.op == .flashWrite) (if d.op == .flashWrite then 65536 else 128)) then some (0x4013, none)
  else none

/-! ### DECK -/

/-- OP of a DECK task, with COMMITTED of an EXTEND (R208). -/
def deckOpOfCode (c : Nat) (committed : Bool) : Option DeckOp :=
  match c with
  | 1 => some .create
  | 2 => some (if committed then .extendCommitted else .extendProvisional)
  | 3 => some .write
  | 4 => some .read
  | 5 => some .commit
  | 6 => some .rollback
  | 7 => some .fork
  | 8 => some .release
  | 9 => some .query
  | _ => none

/-- A DECK descriptor (R208). -/
def readDeck (bs : List Byte) : DeckDesc :=
  let flags := fieldOf bs 0x21 1
  { op := (deckOpOfCode (fieldOf bs 0x20 1) (bitOf flags 1)).getD .query, view := bitOf flags 0
    streamsLog2 := fieldOf bs 0x22 1, handle := fieldOf bs 0x24 4, count := fieldOf bs 0x28 4, first := fieldOf bs 0x2C 4
    streamFirst := fieldOf bs 0x30 1, streamCount := fieldOf bs 0x31 1, rowStride := fieldOf bs 0x34 4
    data := fieldOf bs 0x38 8, result := fieldOf bs 0x40 8, streamPitch := fieldOf bs 0x48 4 }

/-- Whether a DECK task moves rows (R220). -/
def deckMovesRows : DeckOp → Bool
  | .write | .read | .fork => true
  | _ => false

/-- Whether ROW_BYTES would be below 128 (R202). -/
def rowBytesShort (pageLog2 streamsLog2 : Nat) : Bool := decide (pageLog2 < 11 + streamsLog2)

/-- The staging check of R221; `pageLog2` is that of the issuing grove's Deck unit when it is enabled. -/
def validateDeck (pageLog2 : Option Nat) (bs : List Byte) : Option CheckFailure :=
  let d := readDeck bs
  let rows := d.op == .write || d.op == .read
  if bitsOf (fieldOf bs 0x21 1) 7 2 != 0 || !zeroAt bs 0x23 1 || !zeroAt bs 0x32 2 || !zeroAt bs 0x4C 52
      || (deckOpOfCode (fieldOf bs 0x20 1) false).isNone || decide (6 < d.streamsLog2)
      || (d.op == .create && (match pageLog2 with | some p => rowBytesShort p d.streamsLog2 | none => false))
      || (rows && d.streamCount == 0)
      || addrReserved d.data || addrReserved d.result || decide (2 ≤ addrSpace d.data ∨ 2 ≤ addrSpace d.result)
      || d.data % 128 != 0 || d.result % 64 != 0 || d.rowStride % 128 != 0 || d.streamPitch % 128 != 0
      || (rows && !addrPresent d.data) || (d.op == .query && !addrPresent d.result)
      || beyondScratch d.result 64
  then some (0x380C, none) else none

/-! ### ENQUEUE and the gates -/

/-- An ENQUEUE descriptor (R245). -/
def readEnqueue (bs : List Byte) : EnqueueDesc :=
  { ring := fieldOf bs 0x20 2, count := fieldOf bs 0x24 4, source := fieldOf bs 0x28 8, result := fieldOf bs 0x30 8 }

/-- The fields of an ENQUEUE (R245, R246: 0x3301). -/
def validateEnqueue (bs : List Byte) : Option CheckFailure :=
  let d := readEnqueue bs
  if !zeroAt bs 0x22 2 || !zeroAt bs 0x38 72 || decide (1023 < d.ring) || decide (d.count < 1 ∨ 4096 < d.count)
      || addrReserved d.source || addrReserved d.result || addrSpace d.source != 0 || addrSpace d.result != 0
      || !addrPresent d.source || d.source % 128 != 0 || d.result % 8 != 0
  then some (0x3301, none) else none

/-- A FENCE_WAIT, FENCE_SIGNAL or BARRIER has bytes 0x20-0x7F reserved (R229): a non-zero one is a reserved field (0x3001). -/
def validateGate (bs : List Byte) : Option CheckFailure := if zeroAt bs 0x20 96 then none else some (0x3001, none)

end Sys2Proof.Machine
end

