-- ==== Sys2Proof/Machine/Parts/Errors.lean ====
section
/-!
DEFINITION. Machine/Parts/Errors.lean: error records, fatal handling, injection slots, the array scan and Scaler
(R447–R474).
-/

namespace Sys2Proof.Machine

/-- CLASS of a record (R447, R450). -/
inductive ErrClass where
  | info | corrected | failure | fatal
deriving DecidableEq, Repr

/-- A 64-byte error record, its fields (R447). -/
structure ErrRecord where
  time : W64 := 0
  code : W16 := 0
  cls : ErrClass := .info
  nested : Bool := false
  injected : Bool := false
  kept : Bool := false
  timeUnsync : Bool := false
  posted : Bool := false
  context : W16 := 0
  ring : W16 := 0xFFFF
  source : W64 := 0
  address : W64 := 0
  seq : W64 := 0xFFFFFFFFFFFFFFFF
  detail0 : W64 := 0
  detail1 : W64 := 0
  detail2 : W32 := 0
  repeats : W32 := 0
deriving DecidableEq, Repr

/-- What R454 remembers of one CODE and SOURCE: the times of the CORRECTED records written in the last 1 ms, and how
many were suppressed since. -/
structure Suppression where
  code : W16
  source : W64
  written : List Nat
  count : Nat
deriving DecidableEq, Repr

/-- Records lost to a full queue, by class, not yet told by a 0x9301 record (R453). -/
structure LostCounts where
  info : Nat := 0
  corrected : Nat := 0
  failure : Nat := 0
  fatal : Nat := 0
deriving DecidableEq, Repr

/-- The scope of a fatal error (R457, R458). -/
inductive FatalScope where
  | none | grove (g : Nat) | portDie (d : Nat) | module
deriving DecidableEq, Repr

/-- Codes and detection times that R459 keeps across a module warm reset. -/
structure Escalation where
  firstCode : W16
  secondCode : W16
  firstTime : W64
  secondTime : W64
deriving DecidableEq, Repr

/-- STATE of an injection slot (R467). -/
inductive InjState where
  | free | armed | spent | refused
deriving DecidableEq, Repr

/-- An injection slot (R464, R467). -/
structure InjSlot where
  code : W16 := 0
  count : Nat := 0
  locator : W64 := 0
  state : InjState := .free
  fired : Nat := 0
  result : W16 := 0
deriving DecidableEq, Repr

/-- STATE of DIAG_RESULT (R469). -/
inductive ScanState where
  | idle | running | passed | failed
deriving DecidableEq, Repr

/-- The error block: queue, fatal handling, thresholds, injection and the array scan. -/
structure ErrBlock where
  /-- Record n at index n mod 1,024 (R452). -/
  queue : Table ErrRecord := {}
  /-- ERR_WRITTEN. -/
  written : Nat := 0
  /-- ERR_READ. -/
  read : Nat := 0
  /-- ERR_STATUS.LOST. -/
  lostTotal : Nat := 0
  lost : LostCounts := {}
  suppressed : List Suppression := []
  /-- ERR_STATUS.FATAL_ACTIVE. -/
  fatalActive : Bool := false
  fatalCode : W16 := 0
  fatalScope : FatalScope := .none
  /-- Number of the fatal record in handling; none when it was lost (R457). -/
  fatalRecord : Option Nat := none
  fatalTime : W64 := 0
  /-- Kept by the always-on domain for the record of the next start (R459). -/
  escalation : Option Escalation := none
  quarCorr : Nat := 256
  quarUncorr : Nat := 3
  /-- Bench errors of the last second: bench, uncorrectable, time (R460). -/
  benchErrors : List (Nat × Bool × Nat) := []
  /-- Error-requested grove resets of the last 60 s: grove, time (R461). -/
  groveResets : List (Nat × Nat) := []
  /-- INJ_START.CODE (R467). -/
  injStart : W16 := 0
  inj : Table InjSlot := {}
  /-- The code that has just fired on a read whose detector's record is still to be written (R465). -/
  firing : Option W16 := none
  diagLocator : W64 := 0
  /-- What DIAG_LOCATOR named at the GO of the last scan. -/
  scanLocator : W64 := 0
  diagState : ScanState := .idle
  diagCode : W16 := 0
  diagFails : Nat := 0
  diagFirst : W64 := 0
  /-- Groves fenced (R458). -/
  fenced : List Nat := []
  /-- The module-scope action of 0x9303 is in force (R458). -/
  moduleStopped : Bool := false
  /-- Rows of the data frames sent on the maintenance port, oldest first (R473). -/
  maintRows : List (List Byte) := []
deriving DecidableEq, Repr

/-- STATE of a capture channel (R472). -/
inductive CaptureState where
  | idle | armed | running | done
deriving DecidableEq, Repr

/-- A Scaler channel (R470–R472). -/
structure Channel where
  base : Nat := 0
  select : Nat := 0
  shift : Nat := 0
  logarithmic : Bool := false
  source : Nat := 0
  periodUs : Nat := 1
  start : Nat := 0
  stop : Nat := 0
  state : CaptureState := .idle
  unsync : Bool := false
  refused : Bool := false
  dropped : Nat := 0
  min : Nat := 0
  max : Nat := 0
  count : Nat := 0
  sum : Nat := 0
  bins : Table Nat := {}
  /-- Time of the last sample taken (R471: one every 2 ns). -/
  lastSample : Option Nat := none
deriving DecidableEq, Repr

/-- Scaler. -/
structure Scaler where
  done : BitVec 16 := 0
  channels : Table Channel := {}
deriving DecidableEq, Repr

end Sys2Proof.Machine
end

