-- ==== Sys2Proof/Machine/Flags.lean ====
section
/-!
DEFINITION. Machine/Flags.lean: classes and flags of error records and of the register fields that report a condition
(R447, R450, R456).
-/

namespace Sys2Proof.Machine

/-- Codes whose tables call them correctable, corrected or record only (R450; R145, R198, R285, R360, R391, R421, R451). -/
def correctedCodes : List Nat :=
  [0x2204, 0x2322, 0x3902, 0x4101, 0x4103, 0x4303, 0x6101, 0x6102, 0x6105, 0x6206, 0x7104, 0x7111,
   0x8103, 0x8104, 0x8105, 0x8201, 0x8301, 0x9304]

/-- Codes of class INFO (R450). -/
def infoCodes : List Nat := [0x120A, 0x120B, 0x1210]

/-- Codes that are fatal in every case; 0x6104 is fatal by the role lost (R348, R450, R451). -/
def fatalCodes : List Nat := [0x8101, 0x9303, 0x9305]

/-- CLASS of a code (R450); 0x6104 is raised with a class of its own (R348). -/
def classOf (code : W16) : ErrClass :=
  if infoCodes.contains code.toNat then .info
  else if correctedCodes.contains code.toNat then .corrected
  else if fatalCodes.contains code.toNat then .fatal
  else .failure

/-- CLASS as the record holds it (R447). -/
def classNat : ErrClass → Nat
  | .info => 0 | .corrected => 1 | .failure => 2 | .fatal => 3

/-- Whether a class reports a failure, and so may carry NESTED (R456). -/
def classFails : ErrClass → Bool
  | .failure | .fatal => true
  | .info | .corrected => false

/-- FLAGS as the record holds them (R447). -/
def flagsNat (e : ErrRecord) : Nat :=
  bitNat e.nested + 2 * bitNat e.injected + 4 * bitNat e.kept + 8 * bitNat e.timeUnsync + 16 * bitNat e.posted

/-- Records not yet read (R452). -/
def unreadOf (b : ErrBlock) : Nat := b.written - b.read

/-- FULL (R453). -/
def queueFull (b : ErrBlock) : Bool := decide (1024 ≤ unreadOf b)

/-- The numbers of the unread records. -/
def unreadNumbers (b : ErrBlock) : List Nat := (List.range (min (unreadOf b) 1024)).map (· + b.read)

/-- Record `n` as the queue holds it (R452). -/
def recordAt (b : ErrBlock) (n : Nat) : ErrRecord := b.queue.get {} (n % 1024)

/-- NESTED (R456): handling is in progress, or an unread failure of the same source stands before. -/
def nestedFlag (b : ErrBlock) (e : ErrRecord) : Bool :=
  classFails e.cls && !e.kept &&
  (b.fatalActive || (unreadNumbers b).any fun n => classFails (recordAt b n).cls && (recordAt b n).source == e.source)

/-- TIME_UNSYNC (R447). -/
def timeUnsyncFlag (f : FabricBlock) : Bool :=
  match f.timeState with
  | .unsync | .acquiring => true
  | .sync | .holdover => false

end Sys2Proof.Machine
end

