-- ==== Sys2Proof/Config.lean ====
section
/-!
DEFINITION. Config.lean: the free values of the model. A constant without a body stands for a value the spec leaves open;
a claim about it holds whatever it is.
-/

namespace Sys2Proof.Config

/-- The FP32 result that correct rounding (R180) gives a transcendental operation, numbered by its opcode, when the
enclosure of Machine/Trans.lean does not yet decide it. -/
opaque roundedTail (opcode : Nat) (a : W32) : W32

/-- The free values of 64 bits, one for each draw: what the spec calls undefined, unspecified or does not state. -/
opaque freeWord (draw : Nat) : W64

/-- The certificate chain of slot 0 (R442): the spec says what it runs through and not its bytes. -/
opaque certificateChain : List Byte

/-- The number by which address, port or sequence number of a flit chooses among the bundles of its role (R346): the spec gives what the
choice goes by, not the function. -/
opaque kerfSpread (key : Nat) : Nat

/-- Word i of the core ROM (R430): the spec gives its place and size and not its contents. -/
opaque coreRom (i : Nat) : W64

/-- What the factory acceptance-test image holds beyond the settings of R509: 0 IMAGE_ID, 1 BUILD_TIME, 2 BEYNTAX_VERSION,
3 FORMAT_MINOR. -/
opaque factoryWord (i : Nat) : W64

/-- SHA-384 digests of the factory image: 0 TALLY_FW, 1 MGMT_FW, 2 the signed message. -/
opaque factoryDigest (i : Nat) : BitVec 384

/-- The version number that a TALLY_FW or MGMT_FW build of this digest carries in its internal format, which is not in the spec
(R51). -/
opaque firmwareVersion (digest : BitVec 384) : W32

/-- What a load of a root port's own configuration space returns (R433): it goes by the port, the register, the stores made to that space,
and whether AER has reported an error; the PCI Express layout of the port is not in the spec. -/
opaque pcieConfig (port register : Nat) (stores : List (Nat × W32)) (aer : Bool) : W32

/-- LOAD, ENTRY and the program of the core loader that the module ships with (R430): its contents are not in the spec. -/
opaque shippedLoader : Nat × W64 × List Byte

end Sys2Proof.Config
end

