-- ==== Sys2Proof/Machine/State.lean ====
section
/-!
DEFINITION. Machine/State.lean: the state of the module, its faults and refusals, and the state at reset.
Reset is the module without 24 V (R76 starts from there): no start has run, the boot flash holds what the factory left
(R509), and every field reads the value its register table gives, or the value log 3 names.
-/

namespace Sys2Proof.Machine

/-- Why a step stops with a fault. -/
inductive Fault where
  /-- Raised by INPUT_BROWN_OUT, INPUT_LOW_LIMIT, INPUT_LOW_LIMIT_END and ESTIMATE_SAMPLE for an input voltage above 26.4 V,
  whose behaviour R490 and R492 leave uncharacterised. Safe: the hardware may do anything there, and the model goes no further. -/
  | notCharacterised
deriving DecidableEq, Repr

/-- Why a step is refused. -/
inductive Refusal where
  /-- Raised by an arm of exec whose command has no meaning yet. Safe: the model stops by name. -/
  | notModelled (mnemonic : String)
deriving DecidableEq, Repr

/-- The state of the module. -/
structure State where
  /-- Commands that wait, first in, first out. -/
  pending : List Instr := []
  /-- The model's own clock, in ns (log 2). -/
  now : Nat := 0
  /-- The model's own count of free values drawn (log 4). -/
  freeCount : Nat := 0
  part : Part := {}
  boot : BootBlock := {}
  life : Lifecycle := {}
  /-- The settings in force: the Landing die's copy of the running image (R66, R75). -/
  cfg : Option Settings := none
  /-- Bench roles by bench number (R37). -/
  roles : Table RoleEntry := {}
  groveResets : Table GroveReset := {}
  /-- Near, bulk and flash tier by physical address (R475). -/
  mem : Memory := {}
  /-- Bench scratch, bench number × 2 MiB + offset (R18). -/
  scratch : Memory := {}
  benches : Table Bench := {}
  decks : Table DeckUnit := {}
  rings : Table Ring := {}
  tasks : List Task := []
  groups : Table SpecGroup := {}
  /-- The ring last served in staging, by home grove × 4 + PRIORITY, and in issue, by bench × 4 + PRIORITY; 1,023 stands for none
  yet (R237). -/
  stageTurns : Table Nat := {}
  issueTurns : Table Nat := {}
  /-- TALLY_ISSUED by grove (R255). -/
  tallyIssued : Table Nat := {}
  tier : TierBlock := {}
  tu : TuBlock := {}
  stakes : StakeBlock := {}
  opLines : List OpLine := []
  /-- Elements that SCATADDs have updated: (physical address, ring, sequence number) (R328). -/
  scatAdds : List (Nat × Nat × Nat) := []
  /-- Writes made, while a task with SCATADDs runs, by requesters outside its bench: (physical address, bytes, ring, sequence number)
  (R328). -/
  outsideWrites : List (Nat × Nat × Nat × Nat) := []
  opRegs : Table OpcacheRegs := {}
  /-- HART_CONTEXT by hart; an unlisted one reads its reset value 0x0001 (R312). -/
  hartContext : Table Nat := {}
  kerf : KerfBlock := {}
  fabric : FabricBlock := {}
  power : PowerBlock := {}
  landing : LandingBlock := {}
  mgmt : MgmtBlock := {}
  err : ErrBlock := {}
  scaler : Scaler := {}
deriving DecidableEq, Repr

/-- The start record a module leaves the factory with (R509; START_COUNT 0 and SEQUENCE 0 are log 3's). -/
def factoryRecord : StartRecord := { activeSlot := 0, state0 := .verified }

/-- Both root ports of a module without power (R500). -/
def unpoweredPcie : Table PciePort := ⟨[(0, { perst := .undriven }), (1, { perst := .undriven })]⟩

/-- Reset: no 24 V, factory boot flash (R509), one key slot programmed with the factory key's digest (log 3). -/
def State.reset : State :=
  { landing := { pcie := unpoweredPcie }
    boot := { copy0 := some factoryRecord, slot0 := .factory, keyDigests := [some 0, none, none, none], shipped0 := true, shipped1 := true } }

end Sys2Proof.Machine
end

