-- ==== Sys2Proof/Machine/UnitId.lean ====
section
/-!
DEFINITION. Machine/UnitId.lean: reading and writing unit identifiers and diagnostic locators in both presentations
(R23–R25, R39–R41, R468).
-/

namespace Sys2Proof.Machine

/-- The MODULE value that means the module that holds the identifier (R23). -/
def thisModule : Nat := 0xFFFF

/-- Whether a MODULE value is reserved (R23). -/
def moduleReserved (m : Nat) : Bool := decide (0xC000 ≤ m ∧ m ≠ 0xFFFF)

/-- A native unit identifier (R24, R25); none is malformed. -/
def readNativeId (w : Nat) : Option UnitName :=
  let m := bitsOf w 63 48
  let n := bitsOf w 8 0
  if moduleReserved m || bitsOf w 47 19 != 0 || bitsOf w 15 9 != 0 then none
  else
    match bitsOf w 18 16 with
    | 2 => some ⟨m, .bench n⟩
    | 3 => if bitsOf w 6 0 = 0 then some ⟨m, .grove (bitsOf w 8 7)⟩ else none
    | 4 => if n = 0 then some ⟨m, .module⟩ else none
    | _ => none

/-- A Mladyth unit identifier (R39–R41); none is malformed. -/
def readMladythId (w : Nat) : Option UnitName :=
  let m := bitsOf w 63 48
  let n := bitsOf w 8 0
  if moduleReserved m || bitsOf w 47 19 != 0 || bitsOf w 15 9 != 0 then none
  else
    match bitsOf w 18 16 with
    | 3 => some ⟨m, .bench n⟩
    | 4 => if bitsOf w 3 0 = 0 then some ⟨m, .cluster (bitsOf w 8 7) (bitsOf w 6 4)⟩ else none
    | 5 => if bitsOf w 6 0 = 0 then some ⟨m, .grove (bitsOf w 8 7)⟩ else none
    | 6 => if n = 0 then some ⟨m, .module⟩ else none
    | _ => none

/-- A unit identifier in the presentation in force (R39). -/
def readUnitId (mladyth : Bool) (w : Nat) : Option UnitName := if mladyth then readMladythId w else readNativeId w

/-- A diagnostic locator (R468; LEVEL 0b101-0b111 native, 2-0 in the Mladyth presentation, R41). -/
def readDiagId (mladyth : Bool) (w : Nat) : Option UnitName :=
  let m := bitsOf w 63 48
  let n := bitsOf w 8 0
  let sec := bitsOf w 35 30
  let row := bitsOf w 29 26
  let cell := bitsOf w 25 22
  let level := bitsOf w 18 16
  if moduleReserved m || bitsOf w 47 36 != 0 || bitsOf w 21 19 != 0 || bitsOf w 15 9 != 0 then none
  else if level = (if mladyth then 2 else 5) then (if row = 0 ∧ cell = 0 then some ⟨m, .sect n sec⟩ else none)
  else if level = (if mladyth then 1 else 6) then (if cell = 0 then some ⟨m, .row n sec row⟩ else none)
  else if level = (if mladyth then 0 else 7) then some ⟨m, .cell n sec row cell⟩
  else none

/-- A place as the identifier software reads (R24, R39, R468). -/
def writeUnitId (mladyth : Bool) (u : UnitName) : Nat :=
  let level (native ml : Nat) : Nat := (if mladyth then ml else native) <<< 16
  let diag (n s r c : Nat) : Nat := (s <<< 30) + (r <<< 26) + (c <<< 22) + n
  (u.moduleIx <<< 48) +
  match u.place with
  | .bench n => level 2 3 + n
  | .grove g => level 3 5 + (g <<< 7)
  | .cluster g c => level 3 4 + (g <<< 7) + (c <<< 4)
  | .module => level 4 6
  | .sect n s => level 5 2 + diag n s 0 0
  | .row n s r => level 6 1 + diag n s r 0
  | .cell n s r c => level 7 0 + diag n s r c

/-- The bench a place lies in, when it names one. -/
def placeBench : UnitPlace → Option Nat
  | .bench n | .sect n _ | .row n _ _ | .cell n _ _ _ => some n
  | _ => none

/-- The grove of a bench number (R24). -/
def benchGrove (n : Nat) : Nat := n / 128

/-- Whether a MODULE field names the module of index `me`. -/
def namesModule (me m : Nat) : Bool := m == thisModule || m == me

end Sys2Proof.Machine
end

