-- ==== Sys2Proof/Machine/Ops.lean ====
section
/-!
DEFINITION. Machine/Ops.lean: the shared operations that every family rests on: time, the module's own coordinates, error
records (R447–R456), raw accesses to memory with their effects on what holds copies of it.
-/

namespace Sys2Proof.Machine

/-- A next state, in the form exec answers. -/
abbrev Answer := Host.Outcome State Fault Refusal

/-- FABRIC_TIME once it counts (R369): one count a nanosecond, but that slewing adds or holds back one in 5,000 (R370: 200 ppm). -/
def fabricTick (now : Nat) (f : FabricBlock) : FabricBlock :=
  if !f.counting then f
  else if now % 5000 = 0 ∧ 0 < f.slew then { f with time := wrapAdd 64 f.time 2, slew := f.slew - 1 }
  else if now % 5000 = 0 ∧ f.slew < 0 then { f with slew := f.slew + 1 }
  else { f with time := wrapAdd 64 f.time 1 }

/-- Time passes by 1 ns (log 2). -/
def tick (s : State) : State := { s with now := s.now + 1, fabric := fabricTick s.now s.fabric }

/-- The next of the free values (log 4), and the state that has drawn it. -/
def drawFree (s : State) : W64 × State := (Config.freeWord s.freeCount, { s with freeCount := s.freeCount + 1 })

/-- `n` free bytes, eight of a free value. -/
def drawFreeBytes (n : Nat) (s : State) : List Byte × State :=
  ((List.range n).map fun i => BitVec.ofNat 8 ((Config.freeWord (s.freeCount + i / 8)).toNat / 256 ^ (i % 8)),
    { s with freeCount := s.freeCount + ceilDiv n 8 })

/-! ### The module's own coordinates -/

/-- The module index: 48 × CORD + SEAT (R23); zero before an image is in force. -/
def moduleIndex (s : State) : Nat :=
  match s.cfg with
  | some c => 48 * c.cord + c.seat
  | none => 0

/-- PRESENTATION 1 is in force (R39). -/
def mladyth (s : State) : Bool :=
  match s.cfg with
  | some c => c.mladyth
  | none => false

/-- The newest valid copy of the start record (R44). -/
def newestRecord (b : BootBlock) : Option StartRecord :=
  match b.copy0, b.copy1 with
  | some r, some q => if r.sequence < q.sequence then some q else some r
  | some r, none => some r
  | none, some q => some q
  | none, none => none

/-- A write of the start record: the copy not in use is programmed with SEQUENCE one greater (R44); where no copy is valid, copy 0 with
SEQUENCE 1 (log 78). -/
def writeRecord (r : StartRecord) (b : BootBlock) : BootBlock :=
  let next (q : StartRecord) : StartRecord := { r with sequence := wrapAdd 32 q.sequence 1 }
  match b.copy0, b.copy1 with
  | some p, some q => if p.sequence < q.sequence then { b with copy0 := some (next q) } else { b with copy1 := some (next p) }
  | some p, none => { b with copy1 := some (next p) }
  | none, some q => { b with copy0 := some (next q) }
  | none, none => { b with copy0 := some { r with sequence := 1 } }

/-- START_COUNT of this start (R47). -/
def startCount (s : State) : Nat := ((newestRecord s.boot).map (·.startCount)).getD 0

/-- The module generation: bits 15:0 of START_COUNT (R30). -/
def moduleGen (s : State) : Nat := startCount s % 65536

/-- The module runs: rings, cores and engines are in service (from step 14 on, R76). -/
def inService (s : State) : Bool :=
  match s.life.power with
  | .running => true
  | .starting => decide (s.life.stage = 0x0C)
  | _ => false

/-- SOURCE of a module-level event (R448). -/
def srcModule (s : State) : W64 := BitVec.ofNat 64 (writeUnitId (mladyth s) ⟨moduleIndex s, .module⟩)

/-- SOURCE of an event of a grove (R448). -/
def srcGrove (s : State) (g : Nat) : W64 := BitVec.ofNat 64 (writeUnitId (mladyth s) ⟨moduleIndex s, .grove g⟩)

/-- SOURCE of an event of a bench (R448). -/
def srcBench (s : State) (n : Nat) : W64 := BitVec.ofNat 64 (writeUnitId (mladyth s) ⟨moduleIndex s, .bench n⟩)

/-! ### Error records -/

/-- A count of lost records raised by one for a class (R453). -/
def LostCounts.bump (l : LostCounts) : ErrClass → LostCounts
  | .info => { l with info := l.info + 1 }
  | .corrected => { l with corrected := l.corrected + 1 }
  | .failure => { l with failure := l.failure + 1 }
  | .fatal => { l with fatal := l.fatal + 1 }

/-- Nothing lost. -/
def LostCounts.none (l : LostCounts) : Bool := l.info + l.corrected + l.failure + l.fatal == 0

/-- A record put at the end of the queue, or counted as lost when 1,024 are unread (R452, R453). -/
def queueRecord (e : ErrRecord) (b : ErrBlock) : ErrBlock :=
  if queueFull b then
    { b with lostTotal := satAdd 32 b.lostTotal 1, lost := b.lost.bump e.cls }
  else
    { b with queue := b.queue.set {} (b.written % 1024) { e with nested := nestedFlag b e }, written := b.written + 1 }

/-- Whether a suppression entry is that of a record. -/
def Suppression.isOf (e : ErrRecord) (x : Suppression) : Bool := x.code == e.code && x.source == e.source

/-- A record of class CORRECTED: at most 16 of one CODE and SOURCE in any 1 ms; the next one carries the count of those
suppressed (R454). -/
def queueCorrected (now : Nat) (e : ErrRecord) (b : ErrBlock) : ErrBlock :=
  let old := (b.suppressed.find? (Suppression.isOf e)).getD ⟨e.code, e.source, [], 0⟩
  let recent := old.written.filter fun t => decide (now < t + 1000000)
  let rest := b.suppressed.filter fun x => !Suppression.isOf e x
  if 16 ≤ recent.length then
    { b with suppressed := { old with written := recent, count := old.count + 1 } :: rest }
  else
    let e' := { e with repeats := BitVec.ofNat 32 (min old.count 0xFFFFFFFF) }
    if queueFull b then queueRecord e' b
    else queueRecord e' { b with suppressed := ⟨e.code, e.source, now :: recent, 0⟩ :: rest }

/-- A record given its class and queued (R450, R454). -/
def pushRecord (now : Nat) (e : ErrRecord) (b : ErrBlock) : ErrBlock :=
  match e.cls with
  | .corrected => queueCorrected now e b
  | _ => queueRecord e b

/-- Bits of a record as its 64 bytes (R447). -/
def recordBytes (e : ErrRecord) : List Byte :=
  bytesOfNat 8 e.time.toNat ++ bytesOfNat 2 e.code.toNat ++ bytesOfNat 1 (classNat e.cls) ++ bytesOfNat 1 (flagsNat e) ++
  bytesOfNat 2 e.context.toNat ++ bytesOfNat 2 e.ring.toNat ++ bytesOfNat 8 e.source.toNat ++ bytesOfNat 8 e.address.toNat ++
  bytesOfNat 8 e.seq.toNat ++ bytesOfNat 8 e.detail0.toNat ++ bytesOfNat 8 e.detail1.toNat ++ bytesOfNat 4 e.detail2.toNat ++
  bytesOfNat 4 e.repeats.toNat

/-- The row of a maintenance frame: a record (kind 0) or a throttle log entry (kind 1) from byte 0, its kind at byte 64, zeros elsewhere
(R473). -/
def maintRow (kind : Nat) (bs : List Byte) : List Byte :=
  (List.range 128).map fun i => if i = 64 then BitVec.ofNat 8 kind else if i < 64 then bs.getD i 0 else 0

/-- Port 71 is UP: it sends one frame for each record queued (R473). -/
def maintUp (s : State) : Bool := decide ((s.fabric.ports.get {} 71).state = .up)

/-- One port changed. -/
def updPort (p : Nat) (f : Port → Port) (s : State) : State := { s with fabric := { s.fabric with ports := s.fabric.ports.update {} p f } }

/-- A frame sent on a port: its number, its nonce, its time (R366, R367). -/
def countFrames (n p : Nat) (s : State) : State :=
  updPort p (fun q => { q with
    sent := q.sent + n
    lastSent := s.now
    nonce0 := if q.keyEpoch = 0 then q.nonce0 + n else q.nonce0
    nonce1 := if q.keyEpoch = 1 then q.nonce1 + n else q.nonce1 }) s

/-- The data frames that port 71, being UP, sends: one for each row (R473). -/
def sendMaint (rows : List (List Byte)) (s : State) : State :=
  if maintUp s ∧ rows ≠ [] then countFrames rows.length 71 { s with err := { s.err with maintRows := s.err.maintRows ++ rows } } else s

/-- The grove that a SOURCE names, or that its bench lies in (R448). -/
def sourceGrove (s : State) (w : Nat) : Option Nat :=
  let place : Option UnitPlace := ((readUnitId (mladyth s) w).orElse fun _ => readDiagId (mladyth s) w).map (·.place)
  match place with
  | some (.grove g) | some (.cluster g _) => some g
  | some (.bench n) | some (.sect n _) | some (.row n _ _) | some (.cell n _ _ _) => some (benchGrove n)
  | some .module | none => none

/-- Every HUB bundle of a grove's edge is down: the grove delivers no record (R452). -/
def hubLost (s : State) (g : Nat) : Bool :=
  let hubs := ((List.range 32).map fun b => s.kerf.bundles.get {} (g * 32 + b)).filter fun k => decide (k.role = .hub)
  !hubs.isEmpty && hubs.all fun k => decide (k.width = .down)

/-- Whether a record cannot be delivered: it is of a grove that has lost its HUB, and neither the record of that loss nor the one of the
quarantine that follows (R452, R458). -/
def undelivered (s : State) (e : ErrRecord) : Bool :=
  e.code != 0x6104 && e.code != 0x1211 && (sourceGrove s e.source.toNat).any (hubLost s)

/-- An error record written with a class of the caller's (R452); every other field of it is the caller's but TIME and
TIME_UNSYNC, and INJECTED of the detector's record after a firing (R465). -/
def reportAs (cls : ErrClass) (e : ErrRecord) (s : State) : State :=
  let fired := s.err.firing == some e.code
  let e' := { e with
    cls := cls, time := BitVec.ofNat 64 s.fabric.time, timeUnsync := timeUnsyncFlag s.fabric, injected := e.injected || fired }
  let b0 := pushRecord s.now e' s.err
  let b := if fired then { b0 with firing := none } else b0
  if undelivered s e then s
  else sendMaint (if b.written = s.err.written then [] else [maintRow 0 (recordBytes (b.queue.get {} (s.err.written % 1024)))]) { s with err := b }

/-- An error record of its code's class (R450). -/
def report (e : ErrRecord) (s : State) : State := reportAs (classOf e.code) e s

/-- A record of a module-level event with a code and an address. -/
def reportModule (code : W16) (s : State) (addr : Nat := 0) (d0 d1 : Nat := 0) (d2 : Nat := 0) (context : Nat := 0) : State :=
  report { code := code, source := srcModule s, address := BitVec.ofNat 64 addr, detail0 := BitVec.ofNat 64 d0,
           detail1 := BitVec.ofNat 64 d1, detail2 := BitVec.ofNat 32 d2, context := BitVec.ofNat 16 context } s

end Sys2Proof.Machine
end

