-- ==== Sys2Proof/Machine/MgmtOps.lean ====
section
/-!
DEFINITION. Machine/MgmtOps.lean: how the management processor takes in and answers requests (R437–R441), and how a control-space
write that waited is acknowledged (R300, R331, R483).
-/

namespace Sys2Proof.Machine

/-- Hart h, and with a change. -/
def hartOf (s : State) (h : Nat) : Hart := s.landing.harts.get {} h
def updHart (h : Nat) (f : Hart → Hart) (s : State) : State :=
  { s with landing := { s.landing with harts := s.landing.harts.update {} h f } }

/-- The management block changed. -/
def updMgmt (f : MgmtBlock → MgmtBlock) (s : State) : State := { s with mgmt := f s.mgmt }

/-- Bytes 0–4 of a vendor message of a command (R440). -/
def vendorHead (s : State) (cmd tag : Nat) : List Byte := [0x7E] ++ bytesOfNat 2 s.part.vendor ++ bytesOfNat 1 cmd ++ bytesOfNat 1 tag

/-- A vendor response: bytes 0–4 of its request, STATUS, BUSY_INFO, data (R440). -/
def echoResponse (head : List Byte) (status info : Nat) (data : List Byte) : List Byte :=
  head ++ bytesOfNat 2 status ++ bytesOfNat 1 info ++ data

/-- The response to a command of the module's own vendor messages. -/
def vendorResponse (s : State) (cmd tag status info : Nat) (data : List Byte) : List Byte :=
  echoResponse (vendorHead s cmd tag) status info data

/-- Bytes 0–4 of a message; one that lacks some of them has zeros there (log 54). -/
def echoHead (m : List Byte) : List Byte := (List.range 5).map fun i => m.getD i 0

/-- A response put where its request came from: sent on the port, or in the response buffer (R438). -/
def placeResponse (src : MgmtSource) (bs : List Byte) (m : MgmtBlock) : MgmtBlock :=
  match src with
  | .port => { m with portResponse := bs }
  | .mailbox => { m with response := memWrite {} 0 (bs.take 4095), rspLen := min bs.length 4095, rspReady := true, posted := false }

/-- A request answered (R437). -/
def mgmtSend (src : MgmtSource) (bs : List Byte) (s : State) : State :=
  updMgmt (fun m => { placeResponse src bs m with served := satAdd 32 m.served 1 }) s

/-- A request answered busy (R437). -/
def mgmtBusy (src : MgmtSource) (bs : List Byte) (s : State) : State :=
  updMgmt (fun m => { placeResponse src bs m with refused := satAdd 32 m.refused 1 }) s

/-- BUSY_INFO of a long operation (R441). -/
def longInfo : LongKind → Nat
  | .vendor c => 0x80 + c
  | .select => 0x80 + 0x23
  | .confirm => 0x80 + 0x25
  | .retrain _ _ => 0x80 + 0x11
  | .spdm => 0xC0
  | .enclave => 0xC1

/-- What becomes of a request (R437, R438, R441). -/
inductive MgmtGate where
  /-- It is not taken in: no power, or an ignored GO. -/
  | nothing
  | busy (info : Nat)
  /-- Not accepted in this state. -/
  | refused
  /-- It waits in the backlog behind older requests. -/
  | queue
  | serve
deriving DecidableEq, Repr

/-- A request while the management processor is at work (R437, R441). One that finds it idle and the backlog empty is served as it comes
(log 52). -/
def gateWork (m : MgmtBlock) : MgmtGate :=
  match m.long with
  | some l => .busy (longInfo l.kind)
  | none => if 256 ≤ m.backlog.length then .busy 0xFF else if m.writing || !m.backlog.isEmpty then .queue else .serve

/-- What becomes of a request from a source; `inHold` for one that R68 names. -/
def mgmtGate (s : State) (src : MgmtSource) (inHold : Bool) : MgmtGate :=
  if src = .mailbox ∧ (s.mgmt.rspReady ∨ s.mgmt.posted) then .nothing
  else match s.life.power with
    | .off => .nothing
    | .starting | .warmReset | .brownOut => .busy s.life.stage
    | .hold | .trip => match gateWork s.mgmt with
      | .serve => if inHold then .serve else .refused
      | .queue => if inHold then .queue else .refused
      | .nothing => .nothing
      | .busy info => .busy info
      | .refused => .refused
    | .running => gateWork s.mgmt

/-- A request of a source has entered the backlog; a mailbox request is unanswered from then on (R437, R438). -/
def noteBacklog (src : MgmtSource) (m : MgmtBlock) : MgmtBlock :=
  { m with backlogMax := max m.backlogMax (m.backlog.length + 1), posted := m.posted || decide (src = .mailbox) }

/-- A request put at the end of the backlog (R437). -/
def queueRequest (src : MgmtSource) (r : MgmtRequest) (s : State) : State :=
  updMgmt (fun m => { noteBacklog src m with backlog := m.backlog ++ [⟨src, r, s.now⟩] }) s

/-- What a command of a vendor request gives: STATUS and data. -/
structure VendorResult where
  status : Nat := 0
  data : List Byte := []
deriving DecidableEq, Repr

/-- Commands that the hold and trip states accept (R68, R409): MODULE_RESET and the staging commands. -/
def acceptedInHold (cmd : Nat) : Bool := decide (cmd = 0x10 ∨ (0x20 ≤ cmd ∧ cmd ≤ 0x26))

/-- A vendor message refused, answered busy or queued, or served (R437, R440, R441). -/
def vendorGated (src : MgmtSource) (m : List Byte) (f : State → State) (s : State) : State :=
  match mgmtGate s src (acceptedInHold (fieldOf m 3 1)) with
  | .nothing => s
  | .busy info => mgmtBusy src (echoResponse (echoHead m) 0x9101 info []) s
  | .refused => mgmtSend src (echoResponse (echoHead m) 0x9102 0 []) s
  | .queue => queueRequest src (.vendor m) s
  | .serve => f (updMgmt (noteBacklog src) s)

/-- A vendor command's answer sent. -/
def vendorAnswer (src : MgmtSource) (cmd tag : Nat) (r : VendorResult × State) : State :=
  mgmtSend src (vendorResponse r.2 cmd tag r.1.status 0 r.1.data) r.2

/-- A vendor command that is a long operation: its effect now, its answer at MGMT_LONG_OP_DONE; a failed one answers at once.
`bound` is in µs (R440, R441). -/
def vendorLong (src : MgmtSource) (cmd tag bound : Nat) (r : VendorResult × State) : State :=
  if r.1.status ≠ 0 then vendorAnswer src cmd tag r
  else updMgmt (fun m => { m with
    long := some ⟨.vendor cmd, src, vendorResponse r.2 cmd tag 0 0 r.1.data, r.2.now, bound⟩ }) r.2

/-- A control-space write is acknowledged at last: its hart goes on, or its WRITE_REGISTER is answered (R300, R331). -/
def releaseWriter (w : Option RegWriter) (s : State) : State :=
  match w with
  | some (.hart h) => updHart h (fun x => { x with waiting := .nothing }) s
  | some (.mgmt mailbox tag) =>
    vendorAnswer (if mailbox then .mailbox else .port) 0x04 tag ({}, updMgmt (fun m => { m with writing := false }) s)
  | some .nobody | none => s

end Sys2Proof.Machine
end

