-- ==== Sys2Proof/Machine/Boom.lean ====
section
/-!
DEFINITION. Machine/Boom.lean: Boom's quanta: what is held, what is pooled, how a grant is given, returned, revoked and
restored, and how throttle reasons are kept (R394–R402, R415, R416).
-/

namespace Sys2Proof.Machine

/-- What Boom holds of a bench, and of a grove. -/
def benchPow (p : PowerBlock) (n : Nat) : BenchPower := p.benches.get {} n
def grovePow (p : PowerBlock) (g : Nat) : GrovePower := p.groves.get {} g

/-- One bench's or one grove's entry changed. -/
def updBench (p : PowerBlock) (n : Nat) (f : BenchPower → BenchPower) : PowerBlock :=
  { p with benches := p.benches.update {} n f }
def updGrove (p : PowerBlock) (g : Nat) (f : GrovePower → GrovePower) : PowerBlock :=
  { p with groves := p.groves.update {} g f }

/-- Quanta held by the benches of a grove (GROVE_POWER.HELD). -/
def heldIn (p : PowerBlock) (g : Nat) : Nat :=
  p.benches.cells.foldl (fun n c => if benchGrove c.1 = g then n + c.2.granted else n) 0

/-- Quanta held by all benches (BOOM_STATUS.QUANTA_HELD). -/
def heldAll (p : PowerBlock) : Nat := p.benches.cells.foldl (fun n c => n + c.2.granted) 0

/-- Quanta in the four pools. -/
def pooledAll (p : PowerBlock) : Nat := (List.range 4).foldl (fun n g => n + (grovePow p g).pool) 0

/-- Whether a bench of the grove holds a grant. -/
def groveGranted (p : PowerBlock) (g : Nat) : Bool :=
  p.benches.cells.any fun c => benchGrove c.1 == g && decide (0 < c.2.granted)

/-- Quanta put into a pool; beyond 96 they go back to central Boom (R397). -/
def poolAdd (p : PowerBlock) (g q : Nat) : PowerBlock := updGrove p g fun x => { x with pool := min 96 (x.pool + q) }

/-- A bench's requests and grant order forgotten. -/
def forgetBench (p : PowerBlock) (n : Nat) : PowerBlock :=
  { p with requests := p.requests.filter fun r => r.bench != n, order := p.order.filter fun m => m != n }

/-- The idle clock of a grove starts when none of its benches holds a grant (R394). -/
def noteIdle (now : Nat) (p : PowerBlock) (g : Nat) : PowerBlock :=
  if groveGranted p g then p else updGrove p g fun x => { x with idleSince := now }

/-- A bench stops its clock and its quanta go to its grove's pool (R397). -/
def returnQuanta (now n : Nat) (p : PowerBlock) : PowerBlock :=
  let q := (benchPow p n).granted
  let p1 := updBench (forgetBench p n) n fun b => { b with clock := .stopped, demand := 0, granted := 0, revoked := 0, stopping := false }
  let p2 := updGrove p1 (benchGrove n) fun x => { x with deferred := x.deferred.filter fun m => m != n }
  noteIdle now (poolAdd p2 (benchGrove n) q) (benchGrove n)

/-- A grant lowered to a smaller demand: the excess goes to the pool at once (R397). -/
def lowerGrant (n q : Nat) (p : PowerBlock) : PowerBlock :=
  let old := (benchPow p n).granted
  poolAdd (updBench p n fun b => { b with granted := min old q }) (benchGrove n) (old - q)

/-- A grant revoked whole: the clock stops, the task stays issued, a restore waits (R400). -/
def revokeGrant (now reason n : Nat) (p : PowerBlock) : PowerBlock :=
  let b := benchPow p n
  let p0 := updBench p n fun b => { b with clock := .revoked, revoked := b.granted, granted := 0 }
  let p1 := updGrove p0 (benchGrove n) fun x => { x with deferred := x.deferred.filter fun m => m != n }
  { p1 with
    order := p1.order.filter fun m => m != n
    requests := p1.requests.filter (fun r => r.bench != n) ++
      [{ bench := n, kind := .restore, quanta := b.granted, stopping := b.stopping, reason := reason, since := now }] }

/-- A task of a bench must stop under a ring reset or a squash: a restore of the bench comes before every other request (R400). -/
def markStop (n : Nat) (p : PowerBlock) : PowerBlock :=
  { updBench p n (fun b => { b with stopping := true }) with
    requests := p.requests.map fun r => if r.bench = n ∧ r.kind = .restore then { r with stopping := true } else r }

/-- The requests of a bench once its demand has fallen: none asks for more than the demand, and a top-up to no more than the grant is gone
(R397). -/
def fitRequests (n want granted : Nat) (rs : List GrantRequest) : List GrantRequest :=
  (rs.map fun r => if r.bench = n then { r with quanta := min r.quanta want } else r).filter fun r =>
    !(r.bench == n && r.kind == .topUp && decide (r.quanta ≤ granted))

/-- Grants of a scope revoked, the most recently granted first, until `excess` quanta are freed (R400). -/
def revokeUntil (now reason : Nat) (inScope : Nat → Bool) : List Nat → Nat → PowerBlock → PowerBlock
  | [], _, p => p
  | n :: ns, excess, p =>
    if excess = 0 then p
    else if inScope n && decide (0 < (benchPow p n).granted) then
      revokeUntil now reason inScope ns (excess - (benchPow p n).granted) (revokeGrant now reason n p)
    else revokeUntil now reason inScope ns excess p

/-- Up to `excess` quanta taken back from the pools of some groves (R397). -/
def drainPools : List Nat → Nat → PowerBlock → PowerBlock
  | [], _, p => p
  | g :: gs, excess, p =>
    let t := min excess (grovePow p g).pool
    drainPools gs (excess - t) (updGrove p g fun x => { x with pool := x.pool - t })

/-- The module's held and pooled quanta brought within a budget (R397, R400). -/
def fitBudget (now reason q : Nat) (p : PowerBlock) : PowerBlock :=
  let p1 := drainPools [0, 1, 2, 3] (heldAll p + pooledAll p - q) p
  revokeUntil now reason (fun _ => true) p1.order (heldAll p1 - q) p1

/-- A grove's held and pooled quanta brought within its cap (R397, R408). -/
def fitCap (now g : Nat) (p : PowerBlock) : PowerBlock :=
  let x := grovePow p g
  let p1 := drainPools [g] (heldIn p g + x.pool - x.cap) p
  revokeUntil now x.capReason (fun n => benchGrove n == g) p1.order (heldIn p1 g - x.cap) p1

/-- Every grant revoked (R412). -/
def revokeAll (now reason : Nat) (p : PowerBlock) : PowerBlock :=
  revokeUntil now reason (fun _ => true) p.order (heldAll p) p

/-- Rank of a request in the order of R397 and R400 (lowest first). -/
def requestRank (r : GrantRequest) : Nat :=
  match r.kind with
  | .restore => if r.stopping then 0 else 1
  | .topUp => 2
  | .fresh => 3 + (3 - r.priority)

/-- The request a sub-arbiter serves next: the first of the lowest rank among those of its grove (arrival order decides within
a rank). -/
def bestRequest (g : Nat) : List GrantRequest → Option GrantRequest
  | [] => none
  | r :: rs =>
    match bestRequest g rs with
    | none => if benchGrove r.bench = g then some r else none
    | some q => if benchGrove r.bench = g ∧ requestRank r ≤ requestRank q then some r else some q

/-- A clock start is possible now: the PLL runs, no hold-off, at most 16 starts in 250 ns, 15 ns apart (R394, R399, R406). -/
def startAllowed (now : Nat) (x : GrovePower) : Bool :=
  let recent := x.startTimes.filter fun t => decide (now < t + 250)
  decide (x.pll = .running) && x.holdoff.all (fun t => decide (t ≤ now)) &&
  decide (recent.length < 16) && recent.all fun t => decide (t + 15 ≤ now)

/-- A bench clock starts (R394): stretched when its grove is (R406, R417). -/
def startClock (now n : Nat) (p : PowerBlock) : PowerBlock :=
  let g := benchGrove n
  let p1 := updGrove p g fun x =>
    { x with startTimes := now :: x.startTimes.filter (fun t => decide (now < t + 250)), deferred := x.deferred.filter fun m => m != n }
  updBench p1 n fun b =>
    { b with clock := if (grovePow p g).marginStretch || (grovePow p g).stretched then .stretched else .running, starts := satAdd 32 b.starts 1 }

/-- A bench that has its grant starts its clock, or waits for the stagger, the PLL or the hold-off (R394, R399). -/
def startOrDefer (now n : Nat) (p : PowerBlock) : PowerBlock :=
  let g := benchGrove n
  match (benchPow p n).clock with
  | .running | .stretched => p
  | .stopped | .revoked =>
    if startAllowed now (grovePow p g) then startClock now n p
    else
      let p1 := updBench p n fun b => { b with clock := .stopped }
      updGrove p1 g fun x =>
        { x with deferred := x.deferred.filter (fun m => m != n) ++ [n], pll := if x.pll = .sleep then .locking else x.pll }

/-- A request served from the pool: the bench holds what it asked for (R397); a top-up is remembered (R398). -/
def giveGrant (now : Nat) (r : GrantRequest) (p : PowerBlock) : PowerBlock :=
  let n := r.bench
  let g := benchGrove n
  let need := r.quanta - (benchPow p n).granted
  let p1 := updGrove p g fun x => { x with pool := x.pool - need }
  let p2 := updBench p1 n fun b => { b with
    granted := max b.granted r.quanta, revoked := 0, toppedAt := if r.kind = .topUp then some now else b.toppedAt }
  let p3 := { p2 with
    requests := p2.requests.filter fun q => !(q.bench == n && q.kind == r.kind)
    order := n :: p2.order.filter fun m => m != n }
  startOrDefer now n p3

/-- Whether the pool of a request's grove holds what it lacks. -/
def poolServes (p : PowerBlock) (r : GrantRequest) : Bool :=
  decide (r.quanta - (benchPow p r.bench).granted ≤ (grovePow p (benchGrove r.bench)).pool)

/-! ### Throttle reasons -/

/-- Fabric time in the module's own count: without the steps it has made (R370). Lengths of episodes go by it. -/
def ownTime (time : Nat) (p : PowerBlock) : Nat := ((time : Int) - p.stepped).toNat

/-- A throttle reason becomes active; one that is active already keeps the episode (R416). -/
def reasonOn (time reason scope depth : Nat) (p : PowerBlock) : PowerBlock :=
  if p.running.any fun r => r.reason == reason && r.scope == scope then
    { p with running := p.running.map fun r =>
        if r.reason = reason ∧ r.scope = scope then { r with depth := min r.depth depth } else r }
  else
    { p with
      activeFrom := if p.running.any fun r => r.reason == reason then p.activeFrom else p.activeFrom.set 0 reason (ownTime time p)
      running := ⟨reason, time, scope, depth, ownTime time p⟩ :: p.running }

/-- A throttle log entry written (R416). -/
def logThrottle (e : ThrottleEntry) (p : PowerBlock) : PowerBlock :=
  { p with log := p.log.set {} (p.logCount % 1024) e, logCount := wrapAdd 64 p.logCount 1 }

/-- The whole µs for which a reason has been active, in any scope, until a time (R415). -/
def activeUs (time reason : Nat) (p : PowerBlock) : Nat :=
  if p.running.any fun r => r.reason == reason then (ownTime time p - p.activeFrom.get 0 reason) / 1000 else 0

/-- THROTTLE_ACC of a reason: what its past activity added, and the µs of its present one (R415; log 12). -/
def throttleAcc (time reason : Nat) (p : PowerBlock) : Nat := wrapAdd 64 (p.acc.get 0 reason) (activeUs time reason p)

/-- A reason that is active in no scope any more has its µs added to its accumulator (R415). -/
def addReason (time reason : Nat) (before p : PowerBlock) : PowerBlock :=
  if p.running.any fun r => r.reason == reason then p
  else { p with acc := p.acc.set 0 reason (throttleAcc time reason before) }

/-- A throttle reason ends: an episode of 1 µs or more is logged (R416), and its µs are added to THROTTLE_ACC (R415; log 12). -/
def reasonOff (time reason scope : Nat) (p : PowerBlock) : PowerBlock :=
  match p.running.find? fun r => r.reason == reason && r.scope == scope with
  | none => p
  | some r =>
    let us := (ownTime time p - r.began) / 1000
    let p1 := { p with running := p.running.filter fun q => !(q.reason == reason && q.scope == scope) }
    let p2 := addReason time reason p p1
    if us = 0 then p2
    else logThrottle ⟨r.start, min us 0xFFFFFFFF, reason, scope, min r.depth 0xFFFF⟩ p2

/-- SCOPE of an episode: a grove, or the module (R416). -/
def moduleScope : Nat := 16

end Sys2Proof.Machine
end

