-- ==== Sys2Proof/Machine/Crypto.lean ====
section
/-!
DEFINITION. Machine/Crypto.lean: the checks and ciphers that the spec takes from published standards: CRC-32C (R43, R49),
SHA-384 and ECDSA on P-384 (R50), AES-256 in XTS mode (R307) and in GCM (R367). Constants that the standards define by a formula are computed
by it.
-/

namespace Sys2Proof.Machine

/-! ### CRC-32C -/

/-- One bit of the reflected CRC-32C register. -/
def crcBit (c : Nat) : Nat := if c % 2 = 1 then (c / 2) ^^^ 0x82F63B78 else c / 2

/-- The register after a byte. -/
def crcByte (c : Nat) (b : Byte) : Nat := (List.range 8).foldl (fun c _ => crcBit c) (c ^^^ b.toNat)

/-- CRC-32C of bytes. -/
def crc32c (bs : List Byte) : Nat := (bs.foldl crcByte 0xFFFFFFFF) ^^^ 0xFFFFFFFF

/-! ### SHA-384 -/

/-- Whether a number above 1 is prime (trial division). -/
def primeNat (n : Nat) : Bool := decide (2 ≤ n) && (List.range n).all fun d => decide (d < 2) || n % d != 0

/-- The first `k` primes (all lie below 420 for the 80 that SHA-384 takes). -/
def primesUpTo (k : Nat) : List Nat := ((List.range 420).filter primeNat).take k

/-- The greatest `r` with `r ^ e ≤ n`, found bit by bit from bit `b` down. -/
def rootNat (e n : Nat) : Nat → Nat → Nat
  | 0, r => if (r + 1) ^ e ≤ n then r + 1 else r
  | b + 1, r => rootNat e n b (if (r + 2 ^ (b + 1)) ^ e ≤ n then r + 2 ^ (b + 1) else r)

/-- Round constants: the first 64 bits of the fraction of the cube root of each of the first 80 primes. -/
def shaRound : List W64 := (primesUpTo 80).map fun p => BitVec.ofNat 64 (rootNat 3 (p * 2 ^ 192) 68 0)

/-- SHA-384's initial words: the first 64 bits of the fraction of the square roots of the 9th to the 16th prime. -/
def shaInit : List W64 := ((primesUpTo 16).drop 8).map fun p => BitVec.ofNat 64 (rootNat 2 (p * 2 ^ 128) 68 0)

/-- Rotation to the right. -/
def rotr64 (x : W64) (n : Nat) : W64 := x.rotateRight n

/-- A big-endian word of eight bytes. -/
def word64BE (bs : List Byte) : W64 := BitVec.ofNat 64 (bs.foldl (fun a b => 256 * a + b.toNat) 0)

/-- The message padded to whole blocks of 128 bytes. -/
def shaPad (bs : List Byte) : List Byte :=
  let n := bs.length
  let z := (239 - n % 128) % 128
  bs ++ [0x80#8] ++ List.replicate z 0#8 ++ (bytesOfNat 16 (8 * n)).reverse

/-- The message schedule: words so far, newest first, extended `k` times. -/
def shaSchedule : Nat → List W64 → List W64
  | 0, ws => ws
  | k + 1, ws =>
    let w2 := ws.getD 1 0
    let w7 := ws.getD 6 0
    let w15 := ws.getD 14 0
    let w16 := ws.getD 15 0
    let s0 := rotr64 w15 1 ^^^ rotr64 w15 8 ^^^ (w15 >>> 7)
    let s1 := rotr64 w2 19 ^^^ rotr64 w2 61 ^^^ (w2 >>> 6)
    shaSchedule k ((s1 + w7 + s0 + w16) :: ws)

/-- The eight working words. -/
structure ShaRegs where
  a : W64
  b : W64
  c : W64
  d : W64
  e : W64
  f : W64
  g : W64
  h : W64
deriving DecidableEq, Repr

/-- One round. -/
def shaStep (r : ShaRegs) (kw : W64 × W64) : ShaRegs :=
  let s1 := rotr64 r.e 14 ^^^ rotr64 r.e 18 ^^^ rotr64 r.e 41
  let ch := (r.e &&& r.f) ^^^ (~~~r.e &&& r.g)
  let t1 := r.h + s1 + ch + kw.1 + kw.2
  let s0 := rotr64 r.a 28 ^^^ rotr64 r.a 34 ^^^ rotr64 r.a 39
  let maj := (r.a &&& r.b) ^^^ (r.a &&& r.c) ^^^ (r.b &&& r.c)
  ⟨t1 + (s0 + maj), r.a, r.b, r.c, r.d + t1, r.e, r.f, r.g⟩

/-- The registers after one block. -/
def shaBlock (ks : List W64) (r : ShaRegs) (block : List Byte) : ShaRegs :=
  let ws := (List.range 16).map fun i => word64BE (sliceBytes block (8 * i) 8)
  let all := (shaSchedule 64 ws.reverse).reverse
  let q := (ks.zip all).foldl shaStep r
  ⟨r.a + q.a, r.b + q.b, r.c + q.c, r.d + q.d, r.e + q.e, r.f + q.f, r.g + q.g, r.h + q.h⟩

/-- Blocks of 128 bytes taken in, `n` of them. -/
def shaBlocks (ks : List W64) : Nat → ShaRegs → List Byte → ShaRegs
  | 0, r, _ => r
  | n + 1, r, bs => shaBlocks ks n (shaBlock ks r (bs.take 128)) (bs.drop 128)

/-- SHA-384, as the number its 48 bytes spell most significant first. -/
def sha384 (bs : List Byte) : BitVec 384 :=
  let iv := shaInit
  let r0 : ShaRegs := ⟨iv.getD 0 0, iv.getD 1 0, iv.getD 2 0, iv.getD 3 0, iv.getD 4 0, iv.getD 5 0, iv.getD 6 0, iv.getD 7 0⟩
  let p := shaPad bs
  let r := shaBlocks shaRound (p.length / 128) r0 p
  BitVec.ofNat 384 ([r.a, r.b, r.c, r.d, r.e, r.f].foldl (fun n (w : W64) => n * 2 ^ 64 + w.toNat) 0)

/-! ### ECDSA on P-384 -/

/-- The field prime of P-384. -/
def p384P : Nat := 2 ^ 384 - 2 ^ 128 - 2 ^ 96 + 2 ^ 32 - 1

/-- The order of P-384's base point. -/
def p384N : Nat :=
  0xFFFFFFFFFFFFFFFFFFFFFFFFFFFFFFFFFFFFFFFFFFFFFFFFC7634D81F4372DDF581A0DB248B0A77AECEC196ACCC52973

/-- P-384's coefficient b. -/
def p384B : Nat :=
  0xB3312FA7E23EE7E4988E056BE3F82D19181D9C6EFE8141120314088F5013875AC656398D8A2ED19D2A85C8EDD3EC2AEF

/-- P-384's base point. -/
def p384G : Nat × Nat :=
  (0xAA87CA22BE8B05378EB1C71EF320AD746E1D3B628BA79B9859F741E082542A385502F25DBF55296C3A545E3872760AB7,
   0x3617DE4A96262C6F5D9E98BF9292DC29F8F41DBD289A147CE9DA3113B5F0B8C00A60B1CE1D7E819D7A431D7C90EA0E5F)

/-- `b ^ e` modulo `m`, over the `k` low bits of `e`. -/
def powMod (m : Nat) : Nat → Nat → Nat → Nat
  | 0, _, _ => 1 % m
  | k + 1, b, e =>
    let r := powMod m k (b * b % m) (e / 2)
    if e % 2 = 1 then r * b % m else r

/-- The inverse modulo a prime of at most 384 bits. -/
def invMod (m a : Nat) : Nat := powMod m 384 (a % m) (m - 2)

/-- The sum of two points of P-384; none is the point at infinity. -/
def p384Add : Option (Nat × Nat) → Option (Nat × Nat) → Option (Nat × Nat)
  | none, q => q
  | p, none => p
  | some (x1, y1), some (x2, y2) =>
    let p := p384P
    let line (l : Nat) : Nat × Nat :=
      let x3 := (l * l + 2 * p - x1 - x2) % p
      (x3, (l * (x1 + p - x3) + p - y1) % p)
    if x1 = x2 then
      if (y1 + y2) % p = 0 then none
      else some (line ((3 * x1 * x1 + p - 3) % p * invMod p (2 * y1) % p))
    else some (line ((y2 + p - y1) % p * invMod p (x2 + p - x1) % p))

/-- `k` times a point, over the `n` low bits of `k`. -/
def p384Mul : Nat → Nat → Option (Nat × Nat) → Option (Nat × Nat)
  | 0, _, _ => none
  | n + 1, k, q =>
    let r := p384Mul n (k / 2) (p384Add q q)
    if k % 2 = 1 then p384Add r q else r

/-- Whether a signature verifies over a digest (FIPS 186-5, R50). -/
def ecdsaVerifies (key : Nat × Nat) (digest : BitVec 384) (r s : Nat) : Bool :=
  let onCurve := decide (key.1 < p384P) && decide (key.2 < p384P) &&
    key.2 * key.2 % p384P == (key.1 * key.1 * key.1 + p384P * key.1 - 3 * key.1 + p384B) % p384P
  if !onCurve || r == 0 || s == 0 || decide (p384N ≤ r) || decide (p384N ≤ s) then false
  else
    let w := invMod p384N s
    match p384Add (p384Mul 384 (digest.toNat * w % p384N) (some p384G)) (p384Mul 384 (r * w % p384N) (some key)) with
    | some (x, _) => x % p384N == r
    | none => false

/-! ### AES-256-XTS -/

/-- Doubling in AES's field. -/
def gfDouble (a : Byte) : Byte := if a.getMsbD 0 then (a <<< 1) ^^^ 0x1B#8 else a <<< 1

/-- A product in AES's field, over `k` bits of the second factor. -/
def gfMulBits : Nat → Byte → Byte → Byte
  | 0, _, _ => 0
  | k + 1, a, b => (if b.getLsbD 0 then a else 0) ^^^ gfMulBits k (gfDouble a) (b >>> 1)

/-- A product in AES's field. -/
def gfMul (a b : Byte) : Byte := gfMulBits 8 a b

/-- The 254th power in AES's field: the inverse. -/
def gfInv (a : Byte) : Byte :=
  let a2 := gfMul a a
  let a4 := gfMul a2 a2
  let a8 := gfMul a4 a4
  let a16 := gfMul a8 a8
  let a32 := gfMul a16 a16
  let a64 := gfMul a32 a32
  let a128 := gfMul a64 a64
  gfMul a128 (gfMul a64 (gfMul a32 (gfMul a16 (gfMul a8 (gfMul a4 a2)))))

/-- AES's S-box. -/
def aesSub (a : Byte) : Byte :=
  let b := gfInv a
  b ^^^ b.rotateLeft 1 ^^^ b.rotateLeft 2 ^^^ b.rotateLeft 3 ^^^ b.rotateLeft 4 ^^^ 0x63#8

/-- The inverse S-box. -/
def aesInvSub (a : Byte) : Byte := gfInv (a.rotateLeft 1 ^^^ a.rotateLeft 3 ^^^ a.rotateLeft 6 ^^^ 0x05#8)

/-- Bytewise exclusive or. -/
def xorBytes (a b : List Byte) : List Byte := List.zipWith (· ^^^ ·) a b

/-- Further words of the key schedule, newest first, `k` of them from number `i` on. -/
def aesExpand : Nat → Nat → Byte → List (List Byte) → List (List Byte)
  | 0, _, _, ws => ws
  | k + 1, i, rc, ws =>
    let t := ws.getD 0 []
    let t' := if i % 8 = 0 then
        (match (t.drop 1 ++ t.take 1).map aesSub with
          | b :: bs => (b ^^^ rc) :: bs
          | [] => [])
      else if i % 8 = 4 then t.map aesSub else t
    aesExpand k (i + 1) (if i % 8 = 0 then gfDouble rc else rc) (xorBytes (ws.getD 7 []) t' :: ws)

/-- The fifteen round keys of AES-256. -/
def aesKeys (key : List Byte) : List (List Byte) :=
  let w0 := (List.range 8).map fun i => sliceBytes key (4 * i) 4
  let ws := (aesExpand 52 8 1#8 w0.reverse).reverse
  (List.range 15).map fun r => ((ws.drop (4 * r)).take 4).flatten

/-- Rows shifted by `k` places per row to the left. -/
def aesShift (k : Nat) (st : List Byte) : List Byte :=
  (List.range 16).map fun i => st.getD (4 * ((i / 4 + k * (i % 4)) % 4) + i % 4) 0

/-- A column times a circulant matrix given by its first row. -/
def aesMix (m : List Byte) (st : List Byte) : List Byte :=
  (List.range 16).map fun i =>
    (List.range 4).foldl (fun a j => a ^^^ gfMul (m.getD ((j + 4 - i % 4) % 4) 0) (st.getD (4 * (i / 4) + j) 0)) 0

/-- One block encrypted. -/
def aesEncrypt (ks : List (List Byte)) (block : List Byte) : List Byte :=
  let s0 := xorBytes block (ks.getD 0 [])
  let s13 := ((ks.drop 1).take 13).foldl (fun st k => xorBytes (aesMix [2#8, 3#8, 1#8, 1#8] (aesShift 1 (st.map aesSub))) k) s0
  xorBytes (aesShift 1 (s13.map aesSub)) (ks.getD 14 [])

/-- One block decrypted. -/
def aesDecrypt (ks : List (List Byte)) (block : List Byte) : List Byte :=
  let s14 := (aesShift 3 (xorBytes block (ks.getD 14 []))).map aesInvSub
  let s1 := ((ks.drop 1).take 13).reverse.foldl
    (fun st k => (aesShift 3 (aesMix [14#8, 11#8, 13#8, 9#8] (xorBytes st k))).map aesInvSub) s14
  xorBytes s1 (ks.getD 0 [])

/-- XTS's tweak for the next block: times x in the field of 2^128. -/
def xtsNext (t : Nat) : Nat := if 2 ^ 127 ≤ t then (2 * t) % 2 ^ 128 ^^^ 0x87 else 2 * t

/-- The blocks of a data unit, each through a block function under its tweak. -/
def xtsBlocks (f : List Byte → List Byte) : Nat → Nat → List Byte → List Byte
  | 0, _, _ => []
  | n + 1, t, bs =>
    let tb := bytesOfNat 16 t
    xorBytes (f (xorBytes (bs.take 16) tb)) tb ++ xtsBlocks f n (xtsNext t) (bs.drop 16)

/-- A data unit of 512 bytes under a 512-bit key (data key in its low half), the unit number as the tweak (R307). -/
def xtsUnit (encrypt : Bool) (key : BitVec 512) (unit : Nat) (bs : List Byte) : List Byte :=
  let kb := bytesOfNat 64 key.toNat
  let k1 := aesKeys (kb.take 32)
  let t := natOfBytes (aesEncrypt (aesKeys (kb.drop 32)) (bytesOfNat 16 unit))
  xtsBlocks (if encrypt then aesEncrypt k1 else aesDecrypt k1) 32 t bs

/-! ### AES-256-GCM -/

/-- A number of a block, and a block of a number, most significant byte first. -/
def beNat (bs : List Byte) : Nat := bs.foldl (fun a b => 256 * a + b.toNat) 0
def beBytes (n v : Nat) : List Byte := (bytesOfNat n v).reverse

/-- A product in GCM's field, over the `k` low bits of `x`, the most significant first. -/
def ghashMul : Nat → Nat → Nat → Nat
  | 0, _, _ => 0
  | k + 1, x, v => (if x.testBit k then v else 0) ^^^ ghashMul k x (if v % 2 = 1 then (v / 2) ^^^ (0xE1 * 2 ^ 120) else v / 2)

/-- GHASH over `n` blocks. -/
def ghash (h : Nat) : Nat → Nat → List Byte → Nat
  | 0, y, _ => y
  | n + 1, y, bs => ghash h n (ghashMul 128 (y ^^^ beNat (bs.take 16)) h) (bs.drop 16)

/-- Bytes filled up with zeros to whole blocks. -/
def padBlocks (bs : List Byte) : List Byte := bs ++ List.replicate ((16 - bs.length % 16) % 16) 0#8

/-- A block of the key stream: the 96-bit nonce and a block counter, encrypted. -/
def gcmStream (ks : List (List Byte)) (nonce i : Nat) : List Byte := aesEncrypt ks (beBytes 12 nonce ++ beBytes 4 i)

/-- Bytes under the key stream from a block counter on, `n` blocks. -/
def gcmBlocks (ks : List (List Byte)) (nonce : Nat) : Nat → Nat → List Byte → List Byte
  | 0, _, _ => []
  | n + 1, i, bs => xorBytes (bs.take 16) (gcmStream ks nonce i) ++ gcmBlocks ks nonce n (i + 1) (bs.drop 16)

/-- A payload encrypted, or decrypted, in GCM (NIST SP 800-38D). -/
def gcmCrypt (key : BitVec 256) (nonce : Nat) (bs : List Byte) : List Byte :=
  gcmBlocks (aesKeys (bytesOfNat 32 key.toNat)) nonce (ceilDiv bs.length 16) 2 bs

/-- The 128-bit tag of GCM over additional data and an encrypted payload. -/
def gcmTag (key : BitVec 256) (nonce : Nat) (aad sent : List Byte) : BitVec 128 :=
  let ks := aesKeys (bytesOfNat 32 key.toNat)
  let h := beNat (aesEncrypt ks (List.replicate 16 0#8))
  let all := padBlocks aad ++ padBlocks sent ++ beBytes 8 (8 * aad.length) ++ beBytes 8 (8 * sent.length)
  BitVec.ofNat 128 (ghash h (all.length / 16) 0 all ^^^ beNat (gcmStream ks nonce 1))

end Sys2Proof.Machine
end

