-- ==== Sys2Proof/Machine/Store.lean ====
section
/-!
DEFINITION. Machine/Store.lean: the physical address map (R259, R475), raw reads and writes of the tiers with their effects on
poison marks, reservations and operand cache lines (R278, R317, R327, R329), and tally counters (R232).
-/

namespace Sys2Proof.Machine

/-- Bases and sizes of the tiers (R259). -/
def nearSize : Nat := 0xD800000000
def bulkBase : Nat := 0x10000000000
def bulkSize : Nat := 0x18000000000
def flashBase : Nat := 0x200000000000
def flashSize : Nat := 0x200000000000
def controlBase : Nat := 0x400000000000
def controlSize : Nat := 0x10000000
def apertureBase : Nat := 0x800000000000
def apertureSize : Nat := 0x400000000000
def outBase : Nat := 0xA00000000000
def outSize : Nat := 0x100000000000
def pcieBase : Nat := 0xC00000000000

/-- Size of a copy of the core boot area, which begins the flash tier (R430). -/
def bootCopySize : Nat := 0x2000000

/-- One near range, one stake, one ashlar, one bench's scratch. -/
def groveRange : Nat := 0x3600000000
def stakeSize : Nat := 0x200000
def ashlarSize : Nat := 0x10000
def scratchSize : Nat := 0x200000

/-- Regions of the physical address map (R475); the outbound overlay is the hart's reading of part of the aperture (R477). -/
inductive Region where
  | near | bulk | flash | control | aperture | pcie (p : Nat) | unserved
deriving DecidableEq, Repr

/-- The region of a physical address. -/
def regionOf (pa : Nat) : Region :=
  if pa < nearSize then .near
  else if pa < bulkBase then .unserved
  else if pa < bulkBase + bulkSize then .bulk
  else if pa < flashBase then .unserved
  else if pa < flashBase + flashSize then .flash
  else if pa < controlBase + controlSize then .control
  else if pa < apertureBase then .unserved
  else if pa < apertureBase + apertureSize then .aperture
  else if pa < pcieBase + 0x80000000000 then .pcie 0
  else if pa < pcieBase + 0x100000000000 then .pcie 1
  else .unserved

/-- Whether the caches take in lines of a region (R330, R426, R427). -/
def cachedRegion (r : Region) : Bool :=
  match r with
  | .near | .bulk | .flash | .aperture => true
  | .control | .pcie _ | .unserved => false

/-- Whether a whole range lies in one region. -/
def rangeIn (r : Region) (pa n : Nat) : Bool := regionOf pa == r && regionOf (pa + n - 1) == r

/-- Whether an address lies in the near or bulk tier. -/
def nearOrBulk (pa : Nat) : Bool := regionOf pa == .near || regionOf pa == .bulk

/-- Whether a whole range lies in the near tier or in the bulk tier. -/
def rangeNearOrBulk (pa n : Nat) : Bool := rangeIn .near pa n || rangeIn .bulk pa n

/-- The outbound overlay (R477). -/
def inOverlay (pa : Nat) : Bool := decide (outBase ≤ pa ∧ pa < outBase + outSize)

/-- The grove whose near range holds an address (R260). -/
def nearGrove (pa : Nat) : Nat := pa / groveRange

/-- The stack of a near address (R259). -/
def stackOf (pa : Nat) : Nat := 3 * nearGrove pa + (pa % groveRange / ashlarSize) % 3

/-- The package of a bulk address (R259). -/
def packageOf (pa : Nat) : Nat := ((pa - bulkBase) / 2048) % 12

/-- The stake index of a near or bulk address (R302). -/
def stakeIndex (pa : Nat) : Nat := if pa < bulkBase then pa / stakeSize else 442368 + (pa - bulkBase) / stakeSize

/-- The address of a stake. -/
def stakeAddr (i : Nat) : Nat := if i < 442368 then i * stakeSize else bulkBase + (i - 442368) * stakeSize

/-- Stakes in all (R302). -/
def stakeCount : Nat := 1228800

/-- The numbers of the aligned blocks of `b` bytes that a range touches. -/
def blocksOf (b pa n : Nat) : List Nat :=
  if n = 0 then [] else (List.range ((pa + n - 1) / b + 1 - pa / b)).map (· + pa / b)

/-- The numbers of the aligned blocks that a range covers whole. -/
def wholeBlocks (b pa n : Nat) : List Nat := (blocksOf b pa n).filter fun k => decide (pa ≤ k * b ∧ k * b + b ≤ pa + n)

/-- The pieces of a range, each within one aligned block of `b` bytes: (start, length). -/
def piecesOf (b pa n : Nat) : List (Nat × Nat) :=
  (blocksOf b pa n).map fun k =>
    let lo := max pa (k * b)
    (lo, min (pa + n) (k * b + b) - lo)

/-! ### Poison -/

/-- Whether a read of a physical range meets poison (R279). -/
def poisonIn (s : State) (pa n : Nat) : Bool :=
  match regionOf pa with
  | .flash => (blocksOf ashlarSize pa n).any fun u => s.tier.flashPoison.get false u
  | _ => (blocksOf 512 pa n).any fun c => s.tier.poison.get false c

/-- Whether a store covers only part of a poisoned codeword (R278). -/
def partialPoison (s : State) (pa n : Nat) : Bool :=
  ((blocksOf 512 pa n).filter fun c => !(wholeBlocks 512 pa n).contains c).any fun c => s.tier.poison.get false c

/-! ### Raw reads and writes -/

/-- Bytes of the tiers at a physical address. -/
def rawRead (s : State) (pa n : Nat) : List Byte := memRead s.mem pa n

/-- A copy of the core boot area as the module ships: header and program of the loader (R430). -/
def shippedImage : List Byte :=
  let x := Config.shippedLoader
  bytesOfNat 4 0x42434B51 ++ bytesOfNat 4 x.2.2.length ++ bytesOfNat 8 x.1 ++ bytesOfNat 8 x.2.1.toNat ++ bytesOfNat 4 (crc32c x.2.2) ++
  List.replicate 36 0#8 ++ x.2.2

/-- The copy of the core boot area that an address lies in, when the module shipped with a loader there and its unit was never written. -/
def shippedCopy (s : State) (a : Nat) : Option Nat :=
  if s.tier.flashWritten.get false (a / ashlarSize) then none
  else if s.boot.shipped0 ∧ flashBase ≤ a ∧ a < flashBase + bootCopySize then some 0
  else if s.boot.shipped1 ∧ flashBase + bootCopySize ≤ a ∧ a < flashBase + 2 * bootCopySize then some 1
  else none

/-- Bytes of the flash tier: those last written, the loader that the module shipped with, or zeros (R276, R430). -/
def flashBytes (s : State) (pa n : Nat) : List Byte :=
  if (s.boot.shipped0 || s.boot.shipped1) && decide (pa < flashBase + 2 * bootCopySize) then
    (List.range n).map fun i => match shippedCopy s (pa + i) with
      | some k => shippedImage.getD (pa + i - flashBase - k * bootCopySize) 0#8
      | none => memGet s.mem (pa + i)
  else rawRead s pa n

/-- A hart that holds a reservation over a written block loses it (R327). -/
def loseReservation (pa n : Nat) (h : Hart) : Hart :=
  match h.reservation with
  | some b => if n ≠ 0 ∧ pa < b * 64 + 64 ∧ b * 64 < pa + n then { h with reservation := none } else h
  | none => h

/-- Every hart after a write of a range took its place in coherence order (R327). -/
def breakReservations (pa n : Nat) (l : LandingBlock) : LandingBlock :=
  { l with harts := l.harts.mapListed {} fun _ h => loseReservation pa n h }

/-- System cache lines over a written range invalidated (R317, R425). -/
def dropSystemLines (pa n : Nat) (l : LandingBlock) : LandingBlock :=
  { l with systemCache := l.systemCache.filter fun c => !decide (n ≠ 0 ∧ pa < c * 512 + 512 ∧ c * 512 < pa + n) }

/-- A write that takes its place in coherence order: the bytes, the poison marks it covers whole (R278), the reservations it
ends (R327), the system cache lines it invalidates (R317). -/
def rawWrite (pa : Nat) (bs : List Byte) (s : State) : State :=
  let n := bs.length
  { s with
    mem := memWrite s.mem pa bs
    tier := { s.tier with poison := (wholeBlocks 512 pa n).foldl (fun t c => t.set false c false) s.tier.poison }
    landing := dropSystemLines pa n (breakReservations pa n s.landing) }

/-- A range of the near or bulk tier written with zeros: its poison marks go with it (R278). -/
def zeroRange (pa n : Nat) (s : State) : State :=
  { s with
    mem := memZero s.mem pa n
    tier := { s.tier with poison := s.tier.poison.clearRange (pa / 512) (n / 512) }
    landing := dropSystemLines pa n (breakReservations pa n s.landing) }

/-- Operand cache lines over a range dropped in every grove (R317, R329). -/
def dropOpLines (pa n : Nat) (s : State) : State :=
  { s with opLines := s.opLines.filter fun l => !(blocksOf 512 pa n).contains l.line }

/-! ### Tally counters -/

/-- COUNT of a counter word (R232). -/
def counterCount (w : Nat) : Nat := bitsOf w 62 0

/-- ABORT of a counter word (R232). -/
def counterAbort (w : Nat) : Bool := bitOf w 63

/-- The three states of a WAIT (R232). -/
inductive WaitState where
  | aborted | resolved | unresolved
deriving DecidableEq, Repr

/-- The state of a WAIT for a target on a counter word (R232). -/
def waitStateOf (w target : Nat) : WaitState :=
  if counterAbort w then .aborted
  else if (counterCount w + 2 ^ 32 - target % 2 ^ 32) % 2 ^ 32 < 2 ^ 31 then .resolved
  else .unresolved

/-- A counter word after an addition to COUNT (R232). -/
def counterAdded (w n : Nat) : Nat := (counterCount w + n) % 2 ^ 63 + (if counterAbort w then 2 ^ 63 else 0)

/-- A counter word with ABORT set (R232). -/
def counterAborted (w : Nat) : Nat := counterCount w + 2 ^ 63

end Sys2Proof.Machine
end

