-- ==== Sys2Proof/Machine/Stakes.lean ====
section
/-!
DEFINITION. Machine/Stakes.lean: requesters (R286, R287), sealed contexts and their encryption (R306, R307), the stake check (R303,
R308, R309), and tally counters as requests (R232).
-/

namespace Sys2Proof.Machine

/-! ### Requesters -/

/-- Who makes a request (R287, and the requesters of chapter 13). -/
inductive Agent where
  | hart (h : Nat)
  | movePort | dresserPort | tally
  | deck | tier | transUnit
  /-- A fabric port die; whether the transfer carries the SEALED mark (R309). -/
  | portDie (mark : Bool)
  | pcie
deriving DecidableEq, Repr

/-- A requester: its agent, the context it carries (R287), and for an engine the task and bench it acts for. -/
structure Requester where
  agent : Agent
  context : Nat
  grove : Nat := 0
  ring : Nat := 0
  seq : Nat := 0
  bench : Nat := 0
  /-- A descriptor read of the ring, before there is a task (R225). -/
  descriptor : Bool := false
  /-- Its writes are atomics, which no region makes posted (R321, R326). -/
  atomic : Bool := false
  /-- A Dresser port's read that the move port makes, through the operand cache (R189, R329). -/
  cached : Bool := false
  /-- A prefetch of running ahead: it reports no fault and no one waits for it (R238). -/
  quiet : Bool := false
  /-- Ring and sequence number of the task, whose WAIT is unresolved, that a fill is tentative for (R324). -/
  tentative : Option (Nat × Nat) := none
  /-- The access belongs to a migration, a Deck operation or a Dresser run that was accepted before, which a RELEASE lets complete (R305,
  R314). -/
  accepted : Bool := false
deriving DecidableEq, Repr

/-- A move port, a Dresser port or a Tally. -/
def Agent.engine : Agent → Bool
  | .movePort | .dresserPort | .tally => true
  | _ => false

/-! ### Sealed contexts -/

/-- The sealed context of an identifier, if it is sealed (R306). -/
def sealedContext (s : State) (c : Nat) : Option SealedContext := s.stakes.sealedContexts.find? fun x => x.context == c

/-- Whether a context is sealed. -/
def isSealed (s : State) (c : Nat) : Bool := (sealedContext s c).isSome

/-- The stake entry of a near or bulk address (R302). -/
def stakeAt (s : State) (pa : Nat) : Stake := s.stakes.table.get {} (stakeIndex pa)

/-! ### Encryption outside the package -/

/-- The key under which data outside the package is encrypted: of a sealed context, in the bulk or flash tier (R307). -/
inductive HomeKey where
  | plain
  | sealed (k : BitVec 512)
  /-- The key has been destroyed (R458). -/
  | gone
deriving DecidableEq, Repr

/-- The key of a context's data outside the package. -/
def contextKey (s : State) (context : Nat) : HomeKey :=
  match sealedContext s context with
  | none => .plain
  | some c => match c.key with
    | some k => .sealed k
    | none => .gone

/-- The key of a near or bulk address: that of the owner of a sealed stake of the bulk tier (R307). -/
def stakeKey (s : State) (pa : Nat) : HomeKey :=
  if regionOf pa = .bulk ∧ (stakeAt s pa).sealed then contextKey s (stakeAt s pa).owner else .plain

/-- Whether a range needs a key that is destroyed. -/
def keyGone (s : State) (pa n : Nat) : Bool := (piecesOf stakeSize pa n).any fun p => stakeKey s p.1 == .gone

/-! ### The stake check -/

/-- Whether the stake's owner and state serve a context (R303); a RELEASING one serves its owner's accesses accepted before (R305, R314). -/
def stakeServes (k : Stake) (context : Nat) (accepted : Bool := false) : Bool :=
  match k.state with
  | .owned => k.owner == context
  | .free => context == 1
  | .releasing => accepted && k.owner == context

/-- The stake check of one address (R303, R308, R309, R434): the code of a refusal. -/
def stakeRefusal (s : State) (q : Requester) (write : Bool) (pa : Nat) : Option W16 :=
  let k := stakeAt s pa
  match q.agent with
  | .hart _ => if k.sealed then some 0x5202 else if stakeServes k q.context then none else some 0x5201
  | .portDie mark =>
    if write && k.sealed && !(mark && k.owner == q.context) then some 0x5204
    else if !stakeServes k q.context then some 0x5201
    else if write && mark && !k.sealed then some 0x5204
    else none
  | .pcie => if k.sealed then some 0x9203 else if stakeServes k q.context then none else some 0x9202
  | .transUnit => if k.sealed || !stakeServes k q.context then some 0x5102 else none
  | .movePort | .dresserPort | .tally | .deck | .tier =>
    if !stakeServes k q.context q.accepted then some 0x5201
    else if write && isSealed s q.context && !(k.sealed || k.export_) then some 0x5203
    else none

/-- The stake check of a range of the near or bulk tier. -/
def stakeRefusalIn (s : State) (q : Requester) (write : Bool) (pa n : Nat) : Option W16 :=
  firstSome (fun i => stakeRefusal s q write (stakeAddr i)) ((blocksOf stakeSize pa n).map fun b =>
    if pa < bulkBase then b else stakeIndex (b * stakeSize))

/-- An access that needs the near range of a fenced grove (R458). -/
def needsFenced (s : State) (q : Requester) (pa : Nat) : Bool :=
  q.agent.engine && decide (pa < nearSize) && s.err.fenced.contains (nearGrove pa)

/-- What refuses an access to the near or bulk tier before any data moves: a fence, the stake, or a key that is destroyed (R458). -/
def accessRefusal (s : State) (q : Requester) (write : Bool) (pa n : Nat) : Option W16 :=
  if needsFenced s q pa then some 0x9302
  else match stakeRefusalIn s q write pa n with
    | some c => some c
    | none => if keyGone s pa n then some 0x9302 else none

/-! ### Reads and writes through the encryption -/

/-- Units of 512 bytes of a physical range, each through XTS, `k` of them (R307). -/
def xtsRange (enc : Bool) (key : BitVec 512) : Nat → Nat → List Byte → List Byte
  | 0, _, _ => []
  | k + 1, unit, bs => xtsUnit enc key unit (bs.take 512) ++ xtsRange enc key k (unit + 1) (bs.drop 512)

/-- Bytes at a physical address decrypted under a key. -/
def decryptedAt (s : State) (k : BitVec 512) (pa n : Nat) : List Byte :=
  let u := pa / 512
  let c := (pa + n + 511) / 512 - u
  sliceBytes (xtsRange false k c u (rawRead s (u * 512) (c * 512))) (pa - u * 512) n

/-- Bytes at a physical address, decrypted where a key encrypts them; a flash unit never written reads as zero (R276). -/
def homeBytes (s : State) (key : HomeKey) (pa n : Nat) : List Byte :=
  match key with
  | .sealed k =>
    if regionOf pa = .flash then (piecesOf ashlarSize pa n).flatMap fun p =>
      if s.tier.flashWritten.get false (p.1 / ashlarSize) then decryptedAt s k p.1 p.2 else List.replicate p.2 0
    else decryptedAt s k pa n
  | .plain | .gone => if regionOf pa = .flash then flashBytes s pa n else rawRead s pa n

/-- Bytes written at a physical address, encrypted under a key: whole units are rewritten, and the bytes given take their place in
coherence order. -/
def homeStore (key : HomeKey) (pa : Nat) (bs : List Byte) (s : State) : State :=
  match key with
  | .sealed k =>
    let u := pa / 512
    let c := (pa + bs.length + 511) / 512 - u
    let old := xtsRange false k c u (rawRead s (u * 512) (c * 512))
    let mixed := old.take (pa - u * 512) ++ bs ++ old.drop (pa - u * 512 + bs.length)
    { rawWrite pa bs s with mem := memWrite s.mem (u * 512) (xtsRange true k c u mixed) }
  | _ => rawWrite pa bs s

/-- Bytes of the near or bulk tier as a requester reads them: a sealed bulk stake decrypted, 512 bytes a unit (R261, R307). -/
def plainRead (s : State) (pa n : Nat) : List Byte :=
  (piecesOf stakeSize pa n).flatMap fun p => homeBytes s (stakeKey s p.1) p.1 p.2

/-- Bytes written to the near or bulk tier, encrypted where the stake is a sealed one of the bulk tier (R261, R307). -/
def plainWrite (pa : Nat) (bs : List Byte) (s : State) : State :=
  (piecesOf stakeSize pa bs.length).foldl (fun t p => homeStore (stakeKey s p.1) p.1 (sliceBytes bs (p.1 - pa) p.2) t) s

/-! ### Writes that meet a SCATADD of another bench (R328) -/

/-- Whether the program of a task has a SCATADD (R179). -/
def TaskBody.scatters : TaskBody → Bool
  | .vector d => d.program.any fun i => i.opcode == 0x08
  | .mat d => d.epilogue.any fun e => e.program.any fun i => i.opcode == 0x08
  | .move _ | .deck _ | .enqueue _ | .gate => false

/-- The tasks at work whose SCATADDs are of bench scope and do not cover a requester (R326). -/
def scattersAround (s : State) (q : Requester) : List Task :=
  s.tasks.filter fun t => decide (t.phase = .issued) && t.body.scatters &&
    !((q.agent == .movePort || q.agent == .dresserPort) && t.bench == some q.bench)

/-- Bytes about to be written at an address: a free value for each of an element that one of the tasks has updated (log 4). -/
def spoilBytes (ts : List Task) (scatAdds : List (Nat × Nat × Nat)) : Nat → List Byte → State → List Byte × State
  | _, [], s => ([], s)
  | a, b :: bs, s =>
    if scatAdds.any fun x => decide (x.1 ≤ a ∧ a < x.1 + 4) && ts.any fun t => t.ring == x.2.1 && t.seq == x.2.2 then
      let f := drawFree s
      let r := spoilBytes ts scatAdds (a + 1) bs f.2
      (f.1.truncate 8 :: r.1, r.2)
    else
      let r := spoilBytes ts scatAdds (a + 1) bs s
      (b :: r.1, r.2)

/-- A write by a requester outside the scope of SCATADDs at work: what it leaves in their elements is undefined, and so is what they leave
there after it (R328). -/
def outsideWrite (q : Requester) (pa : Nat) (bs : List Byte) (s : State) : List Byte × State :=
  match scattersAround s q with
  | [] => (bs, s)
  | t :: ts =>
    let r := spoilBytes (t :: ts) s.scatAdds pa bs s
    let mine := (t :: ts).map fun t => (pa, bs.length, t.ring, t.seq)
    let live := s.outsideWrites.filter fun x => s.tasks.any fun t => t.ring == x.2.2.1 && t.seq == x.2.2.2 && decide (t.phase = .issued)
    (r.1, { r.2 with outsideWrites := (live ++ mine).eraseDups })

/-! ### Tally counters as requests -/

/-- A tally counter as a requester reads it: its word, or the code of the refusal (R232, R287, R303). -/
def counterSeen (q : Requester) (pa : Nat) (s : State) : Except W16 Nat :=
  match accessRefusal s q false pa 8 with
  | some c => .error c
  | none => if poisonIn s pa 8 then .error 0x4301 else .ok (natOfBytes (plainRead s pa 8))

/-- What refuses a signal, an atomic on its counter (R232, R303, R308). -/
def signalRefusal (q : Requester) (pa : Nat) (s : State) : Option W16 :=
  match accessRefusal s q true pa 8 with
  | some c => some c
  | none => if poisonIn s pa 8 then some 0x4301 else none

/-- A signal by a change of the counter word (R232): a refused one changes nothing. -/
def signalBy (f : Nat → Nat) (q : Requester) (pa : Nat) (s : State) : State :=
  match signalRefusal q pa s with
  | some _ => s
  | none =>
    let r := outsideWrite q pa (bytesOfNat 8 (f (natOfBytes (plainRead s pa 8)))) s
    plainWrite pa r.1 r.2

/-- A signal that adds, and one that sets ABORT (R232). -/
def signalAdd (q : Requester) (pa n : Nat) (s : State) : State := signalBy (fun w => counterAdded w n) q pa s
def signalAbort (q : Requester) (pa : Nat) (s : State) : State := signalBy counterAborted q pa s

end Sys2Proof.Machine
end

