-- ==== Sys2Proof/Machine/Sched.lean ====
section
/-!
DEFINITION. Machine/Sched.lean: rings, tasks and groups as Tally holds them, the conditions and the order of issue (R225–R238), fence
clocks (R234), and what the Dresser takes up (R194).
-/

namespace Sys2Proof.Machine

/-! ### Rings -/

/-- Ring `r` as Tally holds it, and with a change. -/
def ringOf (s : State) (r : Nat) : Ring := s.rings.get {} r
def updRing (r : Nat) (f : Ring → Ring) (s : State) : State := { s with rings := s.rings.update {} r f }

/-- The partition of a ring, where the image defines one (R54, R223). -/
def ringPartition (s : State) (r : Nat) : Option Nat :=
  match s.cfg with
  | some c => if r < 1024 ∧ c.rings.get 0 r ≠ 0 then some (c.rings.get 0 r - 1) else none
  | none => none

/-- The ring exists (R223) and rings are in service. -/
def ringExists (s : State) (r : Nat) : Bool := (ringPartition s r).isSome && inService s

/-- The home grove of a ring (R223). -/
def homeGrove (r : Nat) : Nat := r / 256

/-- Descriptors a ring holds (R225). -/
def ringSize (q : Ring) : Nat := 2 ^ (q.sizeLog2 + 4)

/-- A failure in its place among the held ones (R242): by place, the ring's own failure first. -/
def insertFailure (f : HeldFailure) : List HeldFailure → List HeldFailure
  | [] => [f]
  | g :: gs =>
    if f.at_ < g.at_ || (f.at_ == g.at_ && f.ofRing && !g.ofRing) then f :: g :: gs else g :: insertFailure f gs

/-- A ring holds a failure and faults unless it is PAUSED, RESETTING or DISABLED (R242, R227). -/
def holdFailure (f : HeldFailure) (q : Ring) : Ring :=
  { q with
    failures := insertFailure f q.failures
    status := match q.status with
      | .running => .faulted
      | .disabled => .disabled
      | .paused => .paused
      | .faulted => .faulted
      | .resetting => .resetting }

/-- RING_COMPLETED over the leading retired tasks (R241). -/
def advanceCompleted : Nat → Nat → List Nat → Nat × List Nat
  | 0, c, l => (c, l)
  | k + 1, c, l => if l.contains c then advanceCompleted k (c + 1) (l.filter fun x => x != c) else (c, l)

/-- A sequence number retired. -/
def ringRetire (seq : Nat) (q : Ring) : Ring :=
  let a := advanceCompleted (q.retired.length + 1) q.completed (seq :: q.retired)
  { q with completed := a.1, retired := a.2 }

/-! ### Tasks -/

/-- Whether a task is the one of a ring and sequence number. -/
def Task.is (r seq : Nat) (t : Task) : Bool := t.ring == r && t.seq == seq

/-- The task of a ring and sequence number. -/
def findTask (s : State) (r seq : Nat) : Option Task := s.tasks.find? (Task.is r seq)

/-- One task changed. -/
def updTask (r seq : Nat) (f : Task → Task) (s : State) : State :=
  { s with tasks := s.tasks.map fun t => if t.is r seq then f t else t }

/-- A task taken out. -/
def dropTask (r seq : Nat) (s : State) : State := { s with tasks := s.tasks.filter fun t => !t.is r seq }

/-- A bench task (R229). -/
def Task.onBench (t : Task) : Bool :=
  match t.header.type with
  | .matmul | .semiring | .vector | .move | .deck => true
  | .fenceWait | .fenceSignal | .enqueue | .barrier => false

/-- Issued and not yet complete. -/
def Task.running (t : Task) : Bool := decide (t.phase = .issued)

/-- MATMUL or SEMIRING. -/
def Task.onArray (t : Task) : Bool :=
  match t.header.type with
  | .matmul | .semiring => true
  | _ => false

/-- Sections of the busiest pass: the first pass of tile 0, slot by slot (R132, R395). -/
def busiestSections (d : MatDesc) : Nat :=
  d.problems.foldl (fun n p =>
    if p.m = 0 then n
    else n + ceilDiv (ceilDiv (min p.k (slotK d.geometry d.fmtB)) (stationaryPerCell d.fmtB)) 16 *
      ceilDiv (min p.n (slotN d.geometry)) 16) 0

/-- The demand of a task, in quanta (R395). -/
def demandOf (t : Task) : Nat :=
  match t.body with
  | .mat d => 1 + ceilDiv (5 * busiestSections d) 64
  | .vector _ => 2
  | .move _ => 1
  | .deck d => if d.op = .read ∨ d.op = .write then 1 else 0
  | .enqueue _ | .gate => 0

/-- Tasks issued to a bench and not ended. -/
def runningOn (s : State) (n : Nat) : List Task := s.tasks.filter fun t => t.running && t.bench == some n

/-- The demand of a bench: the greatest of its running tasks (R397). -/
def benchDemand (s : State) (n : Nat) : Nat := (runningOn s n).foldl (fun d t => max d (demandOf t)) 0

/-! ### Benches and groups -/

/-- Whether an owner pair is that of a task. -/
def ownedBy (r seq r' seq' : Nat) : Bool := r == r' && seq == seq'

/-- A bench changed. -/
def updBenchState (n : Nat) (f : Bench → Bench) (s : State) : State := { s with benches := s.benches.update {} n f }

/-- Members of a group: staged and not retired (R250). -/
def groupMembers (s : State) (g : Nat) : List Task := s.tasks.filter fun t => t.member && t.header.group == g

/-- A group's entry, and with a change. -/
def groupOf (s : State) (g : Nat) : SpecGroup := s.groups.get {} g
def updGroup (g : Nat) (f : SpecGroup → SpecGroup) (s : State) : State := { s with groups := s.groups.update {} g f }

/-- Shadow scratch of a bench (R249). -/
def shadowBase : Nat := 0x100000
def shadowSize : Nat := 0x80000

/-! ### Scratch a task touches -/

/-- A scratch range of an address field, if the field names one. -/
def scratchRun (a n : Nat) : List (Nat × Nat) := if addrPresent a && addrScratch a && decide (0 < n) then [(addrOffset a, n)] else []

/-- The opcodes that store to a tensor: STORE, SSTORE, SCATTER, SCATADD, TOPK_EMIT (R179). -/
def storesTensor (idx : Nat) (i : DInstr) : Bool :=
  ([0x03, 0x05, 0x07, 0x08, 0x4A].contains i.opcode && instrTensor i == idx) || (i.opcode == 0x4A && bitsOf i.imm.toNat 6 4 == idx)

/-- The tensors of a program, numbered. -/
def numbered {α : Type} (l : List α) : List (Nat × α) := (List.range l.length).zip l

/-- Scratch ranges a Dresser program's tensors reach over a space, the Deck append records it reads among them (R211); `written` restricts
them to those stored to. -/
def vectorRuns (written : Bool) (d : VectorDesc) (sp : ExtentSpace) : List (Nat × Nat) :=
  (numbered d.tensors).flatMap fun p =>
    let stored := d.program.any (storesTensor p.1)
    match p.2.kind with
    | .memory =>
      if !written || stored then
        scratchRun p.2.address (tensorExtent d.program sp p.1 p.2) ++
        (if isMx p.2.format then scratchRun p.2.scaleAddress (tensorScaleExtent d.program sp p.1 p.2) else [])
      else []
    | .deck => if stored && !written then scratchRun p.2.address 32 else []
    | .fabric | .taskOutput => []

/-- The space of a VECTOR task. -/
def ownSpace (d : VectorDesc) : ExtentSpace := ⟨d.d0, d.d1, d.d2, d.d3⟩

/-- Bytes that the rows of a READ or WRITE span at DATA (R208). -/
def deckRun (d : DeckDesc) : Nat :=
  if d.count = 0 ∨ d.streamCount = 0 then 0 else d.count * d.rowStride + (d.streamCount - 1) * d.streamPitch

/-- Scratch ranges a task reads or writes (R235); with `written`, those it writes. -/
def taskRuns (written : Bool) (b : TaskBody) : List (Nat × Nat) :=
  match b with
  | .mat d =>
    (d.problems.flatMap fun p =>
      (if written then [] else (operandRuns d p).flatMap (fun r => scratchRun r.1 r.2) ++ scratchRun p.initAddr (initBytes d p)) ++
      (if d.epilogue.isNone then scratchRun p.cAddr (outExtent d p) else [])) ++
    match d.epilogue with
    | some e => vectorRuns written e (epilogueSpace d) ++
        (numbered e.tensors).flatMap fun t =>
          if t.2.kind = .taskOutput ∧ e.program.any (storesTensor t.1) then
            d.problems.flatMap fun p => scratchRun p.cAddr (outExtentAs d p t.2.format) else []
    | none => []
  | .vector d => vectorRuns written d (ownSpace d)
  | .move d => (if written then [] else scratchRun d.src d.length) ++ (if d.dstHandle then [] else scratchRun d.dst d.length)
  | .deck d => (if d.op = .read ∨ (d.op = .write ∧ !written) then scratchRun d.data (deckRun d) else []) ++
      scratchRun d.result 64
  | .enqueue _ | .gate => []

/-- Whether a scratch range meets the shadow scratch (R249). -/
def meetsShadow (r : Nat × Nat) : Bool := decide (r.1 < shadowBase + shadowSize ∧ shadowBase < r.1 + r.2)

/-- Whether a scratch range lies within the shadow scratch. -/
def inShadow (r : Nat × Nat) : Bool := decide (shadowBase ≤ r.1 ∧ r.1 + r.2 ≤ shadowBase + shadowSize)

/-! ### The scratch interlock (R319) -/

/-- Scratch ranges that running earlier tasks of a task's engine queue have still to write on bench `n`: those of a task stand until its
work is done. -/
def earlierWrites (s : State) (t : Task) (n : Nat) : List (Nat × Nat) :=
  (runningOn s n).flatMap fun x =>
    if x.ring = t.ring ∧ x.role = t.role ∧ x.seq < t.seq ∧ !x.workDone then taskRuns true x.body else []

/-- Whether two scratch ranges lie in a common 4 KiB block. -/
def blocksMeet (x y : Nat × Nat) : Bool :=
  decide (x.1 / 4096 ≤ (y.1 + y.2 - 1) / 4096 ∧ y.1 / 4096 ≤ (x.1 + x.2 - 1) / 4096)

/-- The bench holds a task's access to these scratch ranges: an earlier task of its engine queue has not completed its writes to a 4 KiB
block of them (R319). -/
def scratchHeld (s : State) (t : Task) (n : Nat) (runs : List (Nat × Nat)) : Bool :=
  runs.any fun r => (earlierWrites s t n).any (blocksMeet r)

/-- Whether a Dresser program stores to rows of memory: a tensor outside scratch, or Deck rows. -/
def vectorStoresRows (d : VectorDesc) : Bool :=
  (numbered d.tensors).any fun p => d.program.any (storesTensor p.1) &&
    match p.2.kind with
    | .memory => !addrScratch p.2.address
    | .deck => true
    | .fabric | .taskOutput => false

/-- Whether an array task's entries write rows of memory. -/
def entriesStoreRows (d : MatDesc) : Bool :=
  let outside := d.problems.any fun p => addrPresent p.cAddr && !addrScratch p.cAddr
  match d.epilogue with
  | none => outside
  | some e => vectorStoresRows e ||
      (outside && (numbered e.tensors).any fun t => t.2.kind == .taskOutput && e.program.any (storesTensor t.1))

/-- A write to memory waits while skid entries of an earlier array task of the engine queue are still to write theirs, so that writes to one
row take their places in task order (R319). Which rows they are is not looked at: the wait is only time. -/
def rowsHeld (s : State) (t : Task) (n : Nat) : Bool :=
  (runningOn s n).any fun x => x.ring == t.ring && x.role == t.role && decide (x.seq < t.seq) && !x.workDone &&
    match x.body with
    | .mat d => entriesStoreRows d
    | _ => false

/-! ### The conditions of issue (R235) -/

/-- Whether a Tally works: neither stopped nor in a reset of its grove (R91, R458). -/
def tallyRuns (s : State) (g : Nat) : Bool :=
  !s.err.moduleStopped && !(s.groveResets.get {} g).busy && !s.err.fenced.contains g

/-- Tasks of a ring before a sequence number that Tally still holds. -/
def earlierTasks (s : State) (r seq : Nat) : List Task := s.tasks.filter fun t => t.ring == r && decide (t.seq < seq)

/-- Every earlier task of the ring has retired. -/
def earlierRetired (s : State) (t : Task) : Bool := (earlierTasks s t.ring t.seq).isEmpty

/-- Every earlier FENCE_WAIT and BARRIER of the ring has completed or been acknowledged (R235, condition 3). -/
def gatesOpen (s : State) (t : Task) : Bool :=
  (earlierTasks s t.ring t.seq).all fun x => x.header.type != .fenceWait && x.header.type != .barrier

/-- Every earlier task of the engine queue has issued (R235, condition 4). -/
def queueReached (s : State) (t : Task) : Bool :=
  (earlierTasks s t.ring t.seq).all fun x => !(decide (x.phase = .staged) && x.role == t.role && x.role.isSome)

/-- No scratch range of the task meets a shadow scratch that another group holds (R235, condition 6). -/
def shadowClear (s : State) (t : Task) : Bool :=
  match t.bench with
  | none => true
  | some n =>
    !((taskRuns false t.body).any meetsShadow) ||
    s.groups.cells.all fun c => !(c.2.holds.contains n && !(t.header.speculative && t.header.group == c.1))

/-- A MOVE, or a DECK task. -/
def Task.moves (t : Task) : Bool := t.header.type == .move || t.header.type == .deck

/-- The bench can take the task (R235, condition 5). -/
def benchTakes (s : State) (t : Task) : Bool :=
  match t.bench with
  | none => true
  | some n => (runningOn s n).all fun x =>
      (!x.onArray || x.arrayDone) && !x.moves && !(x.header.type == .vector && !t.onArray)

/-- Boom has granted the quanta of the task (R235, condition 5; R395). -/
def grantHeld (s : State) (t : Task) : Bool :=
  match t.bench with
  | none => true
  | some n =>
    let b := benchPow s.power n
    demandOf t == 0 || (decide (demandOf t ≤ b.granted) && (b.clock == .running || b.clock == .stretched))

/-- It is a member of an open group, which stands in the place of its WAIT (R248). -/
def inOpenGroup (s : State) (t : Task) : Bool := t.member && decide ((groupOf s t.header.group).state = .opened)

/-- Its WAIT is resolved, or its group stands in its place (R235, condition 2; R248). -/
def waitMet (s : State) (t : Task) : Bool := t.waitDone || inOpenGroup s t

/-- The ageing margin of a task's bench's grove is not exhausted (R418). -/
def groveServes (s : State) (t : Task) : Bool :=
  match t.bench with
  | some n => !(grovePow s.power (benchGrove n)).ended
  | none => true

/-- A staged task that stands next in its engine queue and that no gate, hold or ring holds back: conditions 1, 3, 4, 6 and 7 of R235. -/
def queuedNext (s : State) (t : Task) : Bool :=
  decide (t.phase = .staged) && !t.stopping && gatesOpen s t && queueReached s t && shadowClear s t && groveServes s t &&
  decide ((ringOf s t.ring).status = .running) && tallyRuns s t.grove && tallyRuns s (homeGrove t.ring)

/-- The conditions of R235 but for the WAIT and the grant: those that start its fence clock (R234). -/
def clockRuns (s : State) (t : Task) : Bool := queuedNext s t && benchTakes s t

/-! ### Order among rings (R237) -/

/-- Rings from the one after the last served on, in cyclic order of `m` rings: how far a ring stands from its turn. -/
def turnOf (m last r : Nat) : Nat := (r % m + m - last % m - 1) % m

/-- Of two tasks, the one served first: by PRIORITY of its ring, then by turn (R237); of one ring, the earlier. -/
def servedFirst (s : State) (turn : Nat → Nat) (best : Option Task) (t : Task) : Option Task :=
  let p := (ringOf s t.ring).priority
  match best with
  | none => some t
  | some b =>
    let q := (ringOf s b.ring).priority
    let d (x : Task) : Nat := turnOf 1024 (turn q) x.ring
    if q < p ∨ (q = p ∧ (d t < d b ∨ (d t = d b ∧ t.seq < b.seq))) then some t else some b

/-- The ring last served at a priority, for a bench. -/
def issueTurnOf (s : State) (n p : Nat) : Nat := s.issueTurns.get 1023 (n * 4 + p)

/-- The task of a bench that a test admits and R237 serves first. -/
def firstFor (s : State) (n : Nat) (p : Task → Bool) : Option Task :=
  (s.tasks.filter fun t => t.bench == some n && p t).foldl (servedFirst s (issueTurnOf s n)) none

/-- The task that a bench has preloaded, while it may still issue (R238). -/
def preloadedOf (s : State) (n : Nat) : Option Task :=
  match (s.benches.get {} n).preloaded with
  | some x => (findTask s x.1 x.2).filter fun t => t.bench == some n && queuedNext s t
  | none => none

/-- The task that issues next on a bench: the preloaded one, else the one that R237 serves first of those ready (R237, R238). -/
def nextIssue (s : State) (n : Nat) : Option Task :=
  match preloadedOf s n with
  | some t => some t
  | none => firstFor s n fun t => clockRuns s t && waitMet s t

/-- A task stands first on its bench. -/
def benchTurn (s : State) (t : Task) : Bool :=
  match t.bench with
  | none => true
  | some n => ((nextIssue s n).map (Task.is t.ring t.seq)) == some true

/-- Every condition of R235, and the order of R237 and R238. -/
def mayIssue (s : State) (t : Task) : Bool := clockRuns s t && waitMet s t && grantHeld s t && benchTurn s t

/-- While a task runs on a bench, the next is chosen, whether or not its WAIT has resolved (R238). -/
def choosePreload (n : Nat) (s : State) : State :=
  if (runningOn s n).isEmpty || (preloadedOf s n).isSome then s
  else updBenchState n (fun b => { b with preloaded := (firstFor s n (queuedNext s)).map fun t => (t.ring, t.seq) }) s

/-- What a bench's grant passes to at a task's end: the task it has preloaded, or would issue next, with its WAIT resolved (R397). -/
def preloadedNext (s : State) (n : Nat) : Option Task :=
  match preloadedOf s n with
  | some t => if waitMet s t then some t else none
  | none => firstFor s n fun t => queuedNext s t && waitMet s t

/-! ### Fence clocks (R234) -/

/-- Whether a task waits on a counter of its own: staged, no open group in its place. -/
def waitsItself (s : State) (t : Task) : Bool := decide (t.phase = .staged) && !t.waitDone && !t.stopping && !inOpenGroup s t

/-- The fence clocks that the present state starts: a started clock runs on whatever becomes of the conditions (R234). -/
def noteClocks (s : State) : State :=
  { s with tasks := s.tasks.map fun t => if !t.clockStarted && waitsItself s t && clockRuns s t then { t with clockStarted := true } else t }

/-! ### Runs of the Dresser -/

/-- The first instruction from phase `ph` on: its phase and index (R171). -/
def firstInstr (prog : List DInstr) (ph : Nat) : Option (Nat × Nat) :=
  firstSome (fun k => ((numbered prog).find? fun i => i.2.phase == k).map fun i => (k, i.1)) ((List.range 5).drop ph)

/-- A run placed at its first instruction of a strip. -/
def atStripStart (r : DresserRun) : DresserRun :=
  match firstInstr r.desc.program 0 with
  | some (ph, i) => { r with phase := ph, pc := i, block := 0, midStrip := false, hold := [] }
  | none => { r with done := true }

/-- The VECTOR task that the Dresser of a bench runs or is to run (R194). -/
def vectorDue (s : State) (n : Nat) : Option (Task × VectorDesc) :=
  firstSome (fun t => match t.body with
    | .vector d => if t.header.type = .vector ∧ !t.workDone ∧ !t.stopping then some (t, d) else none
    | _ => none) (runningOn s n)

/-- A bench's Dresser begins a run with every register as R169 sets it. -/
def beginRun (r : DresserRun) (a : DresserActivity) (b : Bench) : Bench :=
  { b with dresser := some (atStripStart r), regs := {}, activity := a }

/-- The Dresser takes up a VECTOR task once it is idle and the skid holds no entry (R194). -/
def takeVector (n : Nat) (s : State) : State :=
  let b := s.benches.get {} n
  if b.dresser.isSome || !b.skid.isEmpty then s
  else match vectorDue s n with
    | some (t, d) => updBenchState n (beginRun { ring := t.ring, seq := t.seq, desc := d } .vector) s
    | none => s

end Sys2Proof.Machine
end

