-- ==== Sys2Proof/Machine/Tally.lean ====
section
/-!
DEFINITION. Machine/Tally.lean: what Tally holds and how a task ends: completion, retirement, failure, squash and
confirmation (R223–R258), with the bench and the quanta the task leaves.
-/

namespace Sys2Proof.Machine

/-! ### What a task leaves on its bench -/

/-- A bank emptied when it belongs to the task and holds a tile from `tile` on whose drain has not begun. -/
def clearBank (tile r seq : Nat) (b : Option Bank) : Option Bank :=
  b.filter fun k => !(ownedBy r seq k.ring k.seq && !k.draining && decide (tile ≤ k.tile))

/-- Whether a bank holds an entry's tile. -/
def bankHolds (e : SkidEntry) (b : Option Bank) : Bool := b.any fun k => ownedBy k.ring k.seq e.ring e.seq && k.tile == e.tag.tile

/-- The array run of a task abandoned, with what the array holds and has loaded ahead for it, its tiles from `tile` on whose drain has not
begun, and the entries reserved for them. -/
def abandonTile (tile r seq : Nat) (b : Bench) : Bench :=
  let a := clearBank tile r seq b.bankA
  let c := clearBank tile r seq b.bankB
  { b with
    run := b.run.filter fun x => !ownedBy r seq x.ring x.seq
    activeB := b.activeB.filter fun x => !ownedBy r seq x.ring x.seq
    shadowB := b.shadowB.filter fun x => !ownedBy r seq x.ring x.seq
    nextScales := b.nextScales.filter fun x => !ownedBy r seq x.ring x.seq
    bankA := a
    bankB := c
    skid := b.skid.filter fun e =>
      !(ownedBy r seq e.ring e.seq && !e.drained && !e.draining && !bankHolds e a && !bankHolds e c) }

/-- The task's array work stopped: only tiles whose drain has begun stay (R253). -/
def stopArray (r seq : Nat) (b : Bench) : Bench := abandonTile 0 r seq b

/-- The tile of the pass that the array holds, when that pass is the task's. -/
def activeTile (r seq : Nat) (b : Bench) : Option Nat := (b.activeB.filter fun w => ownedBy r seq w.ring w.seq).map (·.tile)

/-- The tile in progress of a task whose operand or store cannot be had: the one its next pass belongs to, else that of its last (R163,
R165). -/
def tileInProgress (r seq : Nat) (b : Bench) : Nat :=
  match b.run.filter fun x => ownedBy r seq x.ring x.seq with
  | some x => x.tile
  | none => (activeTile r seq b).getD 0

/-- The tile in progress of a task in whose present pass the array has found an error: that pass's own (R145). -/
def erroneousTile (r seq : Nat) (b : Bench) : Nat := (activeTile r seq b).getD (tileInProgress r seq b)

/-- The task's Dresser run and every skid entry of it gone (R198, R199). -/
def stopDresser (r seq : Nat) (b : Bench) : Bench :=
  let mine := match b.dresser with
    | some d => ownedBy r seq d.ring d.seq
    | none => false
  let drop (k : Option Bank) : Option Bank := match k with
    | some k => if ownedBy r seq k.ring k.seq then none else some k
    | none => none
  { b with
    bankA := drop b.bankA
    bankB := drop b.bankB
    skid := b.skid.filter fun e => !ownedBy r seq e.ring e.seq
    dresser := if mine then none else b.dresser
    activity := if mine then .idle else b.activity }

/-- Both. -/
def stopOnBench (r seq : Nat) (b : Bench) : Bench := stopDresser r seq (stopArray r seq b)

/-- The task's skid entries that the Dresser has still to finish. -/
def entriesLeft (s : State) (t : Task) : Bool :=
  match t.bench with
  | some n => (s.benches.get {} n).skid.any fun e => ownedBy t.ring t.seq e.ring e.seq
  | none => false

/-! ### Quanta at a task's end -/

/-- A bench's grant once a task of it has ended: kept for its other running tasks or for its next task, lowered to the new
demand, or returned (R397). A raise asks for a top-up. -/
def settleGrant (n : Nat) (s : State) : State :=
  let d := benchDemand s n
  let next := match preloadedNext s n with
    | some t => demandOf t
    | none => 0
  let want := if d = 0 then next else d
  let held := (benchPow s.power n).granted
  if want = 0 ∨ (d = 0 ∧ held = 0) then { s with power := returnQuanta s.now n s.power }
  else
    let p0 := updBench (lowerGrant n want s.power) n fun b => { b with demand := want, stopping := (runningOn s n).any (·.stopping) }
    let p := { p0 with requests := fitRequests n want (benchPow p0 n).granted p0.requests }
    if held < want ∧ 0 < held then
      { s with power := { p with requests := p.requests.filter (fun q => !(q.bench == n && q.kind == .topUp)) ++
          [{ bench := n, kind := .topUp, quanta := want, since := s.now }] } }
    else { s with power := p }

/-- A task's bench, if any, settled after it ended: a VECTOR task that waited for the Dresser begins (R194), and the grant passes on. -/
def settleBenchOf (t : Task) (s : State) : State :=
  match t.bench with
  | some n => settleGrant n (takeVector n s)
  | none => s

/-! ### Retirement, completion -/

/-- A task retires: out of Tally's entries and counted by its ring (R241). -/
def retireTask (r seq : Nat) (s : State) : State := updRing r (ringRetire seq) (dropTask r seq s)

/-- Shadow scratch of the benches a group holds zeroed, and released (R252). -/
def dropHolds (g : Nat) (s : State) : State :=
  let s1 := { s with
    scratch := (groupOf s g).holds.foldl (fun m n => memZero m (n * scratchSize + shadowBase) shadowSize) s.scratch }
  updGroup g (fun x => { x with holds := [] }) s1

/-- A group once FREE keeps its last outcome; its members are members no more. -/
def closeGroup (g : Nat) (s : State) : State :=
  updGroup g (fun x => { outcome := x.outcome })
    { s with tasks := s.tasks.map fun t => if t.member && t.header.group == g then { t with member := false } else t }

/-- A group becomes FREE once its resolution is carried out: at a confirmation no member is left (R251), at a squash none but failed
ones, whereupon the shadow scratch is zeroed and released (R252); and nothing is pending at a Deck unit. -/
def freeGroup (g : Nat) (s : State) : State :=
  let x := groupOf s g
  match x.state with
  | .confirming =>
    if (groupMembers s g).isEmpty && x.deckPending.isEmpty then closeGroup g s else s
  | .squashing =>
    if (groupMembers s g).all fun t => decide (t.phase = .failed) then
      let s1 := dropHolds g s
      if x.deckPending.isEmpty then closeGroup g s1 else s1
    else s
  | .free | .opened => s

/-- A task as the requester of its fence counters (R287). -/
def counterRequester (t : Task) : Requester := { agent := .tally, context := t.context, grove := t.grove, ring := t.ring, seq := t.seq }

/-- The signal of a task that ends as it should (R232). -/
def performSignal (t : Task) (s : State) : State :=
  match t.signalPa with
  | some pa => if t.header.setAbort then signalAbort (counterRequester t) pa s else signalAdd (counterRequester t) pa t.header.signalAdd s
  | none => s

/-- The ABORT that ABORT_ON_FAIL sets (R95, R232). -/
def abortSignal (t : Task) (s : State) : State :=
  match t.signalPa with
  | some pa => if t.header.abortOnFail then signalAbort (counterRequester t) pa s else s
  | none => s

/-- What refuses the task's signal: a poisoned counter (R232), or its stake (R303, R308). -/
def signalRefused (t : Task) (s : State) : Option W16 :=
  match t.signalPa with
  | some pa => signalRefusal (counterRequester t) pa s
  | none => none

/-- A fault-batch waiter of a task taken out of the batches; entries not yet delivered drop when none is left (R94, R314). -/
def dropWaiters (gone : FaultWaiter → Bool) (tu : TuBlock) : TuBlock :=
  let entry (e : FaultEntry) : FaultEntry :=
    { e with waiters := e.waiters.filter fun w => !gone w, tags := e.tags.filter fun w => !gone w }
  let batch (b : FaultBatch) : FaultBatch := { b with entries := b.entries.map entry }
  { tu with
    openBatch := match tu.openBatch with
      | some b =>
        let es := (b.entries.map entry).filter fun e => !e.waiters.isEmpty
        if es.isEmpty then none else some { b with entries := es }
      | none => none
    delivered := tu.delivered.map batch
    held := tu.held.filter fun h => !gone h.waiter
    walking := tu.walking.filter fun h => !gone h.waiter }

/-- The accepted pieces of some waiters gone with their accesses (R300). -/
def dropAccepted (gone : Waiter → Bool) (tu : TuBlock) : TuBlock := { tu with accepted := tu.accepted.filter fun p => !gone p.waiter }

/-- The tentative lines of a task dropped (R324). -/
def dropTentative (r seq : Nat) (s : State) : State :=
  { s with opLines := s.opLines.filter fun l => l.tentative != some (r, seq) }

/-- A task's waiters everywhere gone, fault batches and migrations (R94, R285), and its tentative lines with them. -/
def forgetWaits (r seq : Nat) (s : State) : State :=
  { dropTentative r seq s with
    tu := dropAccepted (· == .task r seq) (dropWaiters (fun w => w.ring == r && w.seq == seq) s.tu)
    tier := { s.tier with
      inProgress := s.tier.inProgress.map fun m => { m with waiters := m.waiters.filter (· != .task r seq) }
      admitted := s.tier.admitted.filter fun x => x.1 != .task r seq } }

/-! ### Squash and confirmation -/

/-- Whether an issued task stands at its stop point (R253): no drained entry of it in the skid, and a VECTOR run at the start
of a strip. -/
def atStop (s : State) (t : Task) : Bool :=
  match t.bench with
  | none => true
  | some n =>
    let b := s.benches.get {} n
    let midStrip := match b.dresser with
      | some d => ownedBy t.ring t.seq d.ring d.seq && !d.done && (d.entry.isSome || d.midStrip)
      | none => false
    !midStrip && !(b.skid.any fun e => ownedBy t.ring t.seq e.ring e.seq && (e.drained || e.draining))

/-- A member retires as squashed (R252). -/
def retireSquashed (t : Task) (s : State) : State :=
  let s1 := match t.bench with
    | some n => updBenchState n (stopOnBench t.ring t.seq) s
    | none => s
  settleBenchOf t (retireTask t.ring t.seq (abortSignal t (forgetWaits t.ring t.seq s1)))

/-- A member at a squash: it retires at once, one that waits on a fault batch or a migration too, or stops at the end of its VECTOR strip;
a failed one keeps its failure (R252, R253). -/
def squashMember (s : State) (t : Task) : State :=
  match t.phase with
  | .failed => s
  | .staged | .awaiting => retireSquashed t s
  | .issued =>
    let s1 := match t.bench with
      | some n => updBenchState n (fun b => { stopArray t.ring t.seq b with
          bankA := if (b.bankA.map fun k => ownedBy t.ring t.seq k.ring k.seq) = some true then none else b.bankA
          bankB := if (b.bankB.map fun k => ownedBy t.ring t.seq k.ring k.seq) = some true then none else b.bankB
          dresser := b.dresser.filter fun d => !(ownedBy t.ring t.seq d.ring d.seq && d.entry.isSome)
          activity := if (b.dresser.any fun d => ownedBy t.ring t.seq d.ring d.seq && d.entry.isSome) then .idle else b.activity
          skid := b.skid.filter fun e => !ownedBy t.ring t.seq e.ring e.seq }) s
      | none => s
    if t.blocked || atStop s1 t then retireSquashed t s1
    else
      let s2 := updTask t.ring t.seq (fun t => { t with stopping := true }) s1
      match t.bench with
      | some n => { s2 with power := markStop n s2.power }
      | none => s2

/-- A squash (R252): members, deferred signals, one truncation per extended sequence sent to Deck; once the members have stopped, shadow
scratch is zeroed and released. -/
def squashGroup (g : Nat) (outcome : GroupOutcome) (s : State) : State :=
  let x := groupOf s g
  if x.state ≠ .opened then s
  else
    let ext := (x.extended ++ (groupMembers s g).flatMap (·.extended)).eraseDups
    let s1 := updGroup g (fun x => { x with state := .squashing, outcome := outcome, deckPending := ext, deferred := [] }) s
    let s2 := x.deferred.foldl (fun s t => abortSignal t s) s1
    freeGroup g ((groupMembers s2 g).foldl squashMember s2)

/-! ### Failure -/

/-- Codes of fabric transfers, whose records carry the handle and, for the unit form, the unit target entry (R449). -/
def fabricCode (code : W16) : Bool :=
  decide (0x7201 ≤ code.toNat ∧ code.toNat ≤ 0x7208) || code == 0x7301 || decide (0x7303 ≤ code.toNat ∧ code.toNat ≤ 0x7306)

/-- DETAIL1 of a record of a fabric transfer: the unit target entry its handle names (R372, R449). -/
def handleEntry (code : W16) (handle : Nat) : Nat :=
  if fabricCode code && bitsOf handle 47 40 == 0xFF then bitsOf handle 39 30 else 0

/-- The record of a task's failure (R447): its SOURCE is the detector's own place where there is one (R448). -/
def taskRecord (t : Task) (code : W16) (addr d0 d1 d2 : Nat) (injected : Bool) (source : Option W64) (s : State) : ErrRecord :=
  { code := code
    injected := injected
    context := BitVec.ofNat 16 t.context
    ring := BitVec.ofNat 16 t.ring
    source := source.getD (match t.bench with
      | some n => srcBench s n
      | none => srcGrove s t.grove)
    address := BitVec.ofNat 64 addr
    seq := BitVec.ofNat 64 t.seq
    detail0 := BitVec.ofNat 64 d0
    detail1 := BitVec.ofNat 64 (d1 + handleEntry code d0)
    detail2 := BitVec.ofNat 32 d2 }

/-- A task fails (R242): record, held failure, ABORT, bench and quanta left; a member's failure squashes its group (R248). -/
def failTask (t : Task) (code : W16) (s : State) (addr d0 d1 d2 : Nat := 0) (injected : Bool := false) (source : Option W64 := none) : State :=
  let s1 := match t.bench with
    | some n => updBenchState n (stopOnBench t.ring t.seq) s
    | none => s
  let s2 := updTask t.ring t.seq (fun t => { t with phase := .failed, blocked := false, stopping := false, ends := none })
    (forgetWaits t.ring t.seq (noteClocks s1))
  let s3 := updRing t.ring (holdFailure ⟨t.seq, false, code⟩) s2
  let s4 := abortSignal t (report (taskRecord t code addr d0 d1 d2 injected source s) s3)
  let s5 := settleBenchOf t s4
  if t.member then squashGroup t.header.group .squashedOther s5 else s5

/-- A failure by the ring and sequence number of a task, when there is one that has not failed. -/
def failBy (r seq : Nat) (code : W16) (s : State) (addr d0 d1 d2 : Nat := 0) : State :=
  match findTask s r seq with
  | some t => if t.phase = .failed then s else failTask t code s addr d0 d1 d2
  | none => s

/-- A failure of the ring itself, at the value HEAD has (R242). -/
def failRing (r : Nat) (code : W16) (s : State) : State :=
  let q := ringOf s r
  let e : ErrRecord := { code := code, ring := BitVec.ofNat 16 r, source := srcGrove s (homeGrove r),
                         context := BitVec.ofNat 16 q.context }
  report e (updRing r (holdFailure ⟨q.head, true, code⟩) (noteClocks s))

/-- A task fails as an end says. -/
def failAs (t : Task) (e : TaskEnd) (s : State) : State := failTask t e.code s e.addr e.detail 0 0 e.injected e.source

/-- An issued array task ends early, its tiles from the one in progress on abandoned: it fails at once, or once the Dresser has finished the
entries already in the skid (R145, R163, R165). DESIGN CHOICE: when one of those entries fails too, the task reports the later code
(log 85). -/
def endAtTile (tile : Bench → Nat) (t : Task) (e : TaskEnd) (s : State) : State :=
  match t.bench with
  | some n =>
    let s1 := updBenchState n (fun b => abandonTile (tile b) t.ring t.seq b) s
    if t.onArray && entriesLeft s1 t then
      updTask t.ring t.seq (fun t => { t with ends := some e, arrayDone := true, blocked := false }) s1
    else failAs t e s1
  | none => failAs t e s

/-- An issued task whose operand, store or transfer cannot be had ends (R165). -/
def endEarly (t : Task) (code : W16) (s : State) (addr d0 : Nat := 0) : State :=
  endAtTile (tileInProgress t.ring t.seq) t { code := code, addr := addr, detail := d0 } s

/-- Whether a READ or WRITE that has taken effect has rows still to move: what it then waits for is a row (R213). -/
def rowsLeft (t : Task) : Bool :=
  match t.body, t.snapshot with
  | .deck d, some rec =>
    t.ends.isNone && ((d.op == .write && decide (t.progress < d.streamCount * d.count)) ||
      (d.op == .read && decide (t.progress < d.streamCount * (rec / 2 ^ 96))))
  | _, _ => false

/-- An issued task that waited for an access which cannot be made ends: a Deck READ or WRITE that waited for a row has its result record
still to write (R210), every other ends as one that meets the refusal at once. -/
def endWaiting (t : Task) (code : W16) (pa : Nat) (s : State) : State :=
  if rowsLeft t then
    updTask t.ring t.seq (fun t => { t with ends := some { code := code, addr := pa }, snapshot := none, blocked := false }) s
  else endEarly t code s pa

/-- A completed task performs its signal and retires (R240, R241); on a poisoned counter, or one whose stake refuses it, it fails (R232,
R303). -/
def finishTask (t : Task) (s : State) : State :=
  match signalRefused t s with
  | some c => failTask t c s (t.signalPa.getD 0)
  | none => settleBenchOf t (retireTask t.ring t.seq (performSignal t s))

/-- A task completes (R240): a member of an open group awaits its group (R251), any other retires. -/
def completeTask (t : Task) (s : State) : State :=
  if t.member && decide ((groupOf s t.header.group).state = .opened) then
    settleBenchOf t (updTask t.ring t.seq (fun t => { t with phase := .awaiting }) s)
  else
    let s1 := finishTask t s
    if t.member then freeGroup t.header.group s1 else s1

/-- A deferred signal of a member whose ring has been reset takes effect (R251, R254). -/
def deferredSignal (s : State) (t : Task) : State :=
  match signalRefused t s with
  | some c => report (taskRecord t c (t.signalPa.getD 0) 0 0 0 false none s) s
  | none => performSignal t s

/-- A confirmation (R251): completed members retire with their signals in ring order, one relabel per extended sequence goes to
Deck, the holds are released, the rest runs on as ordinary tasks. -/
def confirmGroup (g : Nat) (s : State) : State :=
  let x := groupOf s g
  if x.state ≠ .opened then s
  else
    let ext := (x.extended ++ (groupMembers s g).flatMap (·.extended)).eraseDups
    let s1 := updGroup g (fun x => { x with state := .confirming, outcome := .confirmed, deckPending := ext, holds := [], deferred := [] }) s
    let done := (groupMembers s1 g).filter fun t => decide (t.phase = .awaiting)
    freeGroup g (done.foldl (fun s t => finishTask t s) (x.deferred.foldl deferredSignal s1))

/-- Stores of tasks that a test names which no port die has been handed: a reset of their bench or grove discards them (R91, R92,
R96). -/
def discardLeaving (p : Task → Bool) (s : State) : State :=
  let gone (x : Transfer) : Bool := x.state == .leaving && match x.ring with
    | some r => s.tasks.any fun t => t.is r x.seq && p t
    | none => false
  { s with fabric := { s.fabric with transfers := s.fabric.transfers.filter fun x => !gone x } }

/-- A reset ends a task with a code (R95, R257): as a failure, but a member leaves its group without squashing it, and the
group keeps the sequences the member extended. -/
def resetEndsTask (t : Task) (code : W16) (s : State) : State :=
  let s0 := if t.member then updGroup t.header.group (fun x => { x with extended := x.extended ++ t.extended }) s else s
  let s1 := failTask { t with member := false } code (updTask t.ring t.seq (fun t => { t with member := false }) s0)
  freeGroup t.header.group s1

end Sys2Proof.Machine
end

