-- ==== Sys2Proof/Machine/Resets.lean ====
section
/-!
DEFINITION. Machine/Resets.lean: the shared steps of resets and of fatal errors: role moves and quarantine (R29–R34, R92), grove
reset (R91), module warm reset (R88, R89, R94), fences and scope actions (R457–R459).
-/

namespace Sys2Proof.Machine

/-! ### Module warm reset -/

/-- A slot's state in the start record. -/
def markSlot (slot : Nat) (st : SlotState) (r : StartRecord) : StartRecord :=
  if slot = 0 then { r with state0 := st } else { r with state1 := st }

/-- The staging session a reset ends: its slot is marked empty, PENDING_SLOT stays (R72). -/
def endSession (b : BootBlock) : BootBlock :=
  match b.session, newestRecord b with
  | some x, some r => { writeRecord (markSlot x.slot .empty r) b with session := none, sessionEnded := true }
  | some _, none => { b with session := none, sessionEnded := true }
  | none, _ => b

/-- What of Boom outlives a warm reset: fuses, the energy counter, the kept trip, the input voltage, and THERM_N, which follows R410
(R409, R418, R419, R423, R506). -/
def powerAfterReset (p : PowerBlock) : PowerBlock :=
  { vIn := p.vIn, energy := p.energy, trip := p.trip, tripInjected := p.tripInjected, thermAsserted := p.thermAsserted
    sensors := p.sensors.map fun x => { x with silent := false }
    groves := p.groves.mapListed {} fun _ g => { fmaxSteps := g.fmaxSteps, trimSteps := g.trimSteps, ended := g.ended } }

/-- What of the error block outlives a warm reset: INJ_START and what R459 keeps (R474). -/
def errAfterReset (b : ErrBlock) : ErrBlock := { injStart := b.injStart, escalation := b.escalation }

/-- Steps 1–5 of the module warm reset table (R89) and its column of every reset table: everything outside the always-on domain,
the boot flash and the flash tier goes, a staging session too where a trip or a brown-out takes these steps (R72; log 78). The turns of
R237 begin anew (log 47). The module then stands where the caller says. -/
def resetSteps (stand : PowerState) (cause : Option W16) (s : State) : State :=
  { s with
    boot := endSession s.boot
    life := { s.life with
      power := stand, stage := 0x0D, keptCause := cause, resetAt := s.now, warm := true, waiting := none, steppings := [], features := []
      common := 0, identified := false }
    cfg := none
    roles := {}
    groveResets := {}
    mem := s.mem.dropWhere fun a => decide (a < flashBase)
    scratch := {}
    benches := {}
    decks := {}
    rings := {}
    tasks := []
    groups := {}
    tallyIssued := {}
    stageTurns := {}
    issueTurns := {}
    scatAdds := []
    outsideWrites := []
    tier := { flashPoison := s.tier.flashPoison, flashWritten := s.tier.flashWritten }
    tu := {}
    stakes := {}
    opLines := []
    opRegs := {}
    hartContext := {}
    kerf := {}
    fabric := {}
    power := powerAfterReset s.power
    landing := {}
    mgmt := {}
    err := errAfterReset s.err
    scaler := {} }

/-- What the dies told a start stays known in the hold and trip states (R489). -/
def keepIdentity (s t : State) : State :=
  { t with life := { t.life with steppings := s.life.steppings, features := s.life.features, common := s.life.common, identified := s.life.identified } }

/-- A module warm reset begins (R88): it stands at step 6 until it resumes. -/
def beginWarmReset (cause : W16) (s : State) : State := resetSteps .warmReset (some cause) s

/-! ### Diagnostic places -/

/-- A locator that is a unit identifier or diagnostic locator of this module, taken apart (R466). -/
def locatorPlace (s : State) (w : Nat) : Option UnitPlace :=
  let u := match readUnitId (mladyth s) w with
    | some u => some u
    | none => readDiagId (mladyth s) w
  match u with
  | some u => if namesModule (moduleIndex s) u.moduleIx then some u.place else none
  | none => none

/-- A locator that names a grove, or in the Mladyth presentation a cluster of it, which stands wherever a grove does (R40, R466). -/
def locatesGrove (s : State) (g w : Nat) : Bool :=
  match locatorPlace s w with
  | some (.grove k) | some (.cluster k _) => k == g
  | _ => false

/-- The place of the array scan: what DIAG_LOCATOR named at GO, where it lies in a bench (R469). -/
def scanPlace (s : State) : Option UnitPlace :=
  match locatorPlace s s.err.scanLocator.toNat with
  | some u => if (placeBench u).isSome then some u else none
  | none => none

/-- The bench that a running array scan tests. -/
def scannedBench (s : State) : Option Nat :=
  if s.err.diagState = .running then (scanPlace s).bind placeBench else none

/-! ### Roles, epochs and quarantine -/

/-- A bench's role entry, and with a change. -/
def roleOf (s : State) (n : Nat) : RoleEntry := s.roles.get {} n
def updRole (n : Nat) (f : RoleEntry → RoleEntry) (s : State) : State := { s with roles := s.roles.update {} n f }

/-- The role epoch of a bench (R30): module generation and unit generation. -/
def epochOf (s : State) (n : Nat) : Nat := moduleGen s * 65536 + (roleOf s n).unitGen

/-- Groves whose benches take no role: under reset (R29) or fenced (R458). -/
def groveIneligible (s : State) (g : Nat) : Bool := (s.groveResets.get {} g).busy || s.err.fenced.contains g

/-- The standby bench that takes a role: the lowest-numbered of the partition in the same grove, then in any (R29). -/
def standbyFor (s : State) (n : Nat) : Option Nat :=
  let e := roleOf s n
  let fits (m : Nat) : Bool := decide ((roleOf s m).state = .standby) && (roleOf s m).partition == e.partition &&
    !groveIneligible s (benchGrove m)
  ((List.range 512).find? fun m => fits m && benchGrove m == benchGrove n).orElse fun _ => (List.range 512).find? fits

/-- The present holder of a role of a partition (R28). -/
def roleHolder (s : State) (p role : Nat) : Option Nat :=
  (List.range 512).find? fun m =>
    decide ((roleOf s m).state = .active) && (roleOf s m).partition == some p && (roleOf s m).role == some role

/-- Whether one more advance would pass 0xFFFF (R32). -/
def genExhausted (s : State) (n : Nat) : Bool :=
  let e := roleOf s n
  decide (0xFFFF < e.unitGen + e.advances + 1)

/-- The role that a bench held under a role epoch of this module (R35): of an epoch of an earlier start the module knows no role, and
answers with the one of this start (log 73). -/
def roleAtEpoch (s : State) (n epoch : Nat) : Option Nat :=
  let e := roleOf s n
  if epoch / 65536 ≠ moduleGen s then e.startRole
  else match e.changes.find? fun c => decide (c.1 ≤ epoch % 65536) with
    | some c => c.2
    | none => e.startRole

/-- A bench's role from its next unit generation on, noted beside it (R35). -/
def changeRole (role : Option Nat) (e : RoleEntry) : RoleEntry :=
  { e with role := role, changes := (e.unitGen + e.advances + 1, role) :: e.changes }

/-- An advance of the unit generation falls due (R31). -/
def dueAdvance (n : Nat) (s : State) : State := updRole n (fun e => { e with advances := e.advances + 1 }) s

/-- A staged task follows its role to another bench, or to none (R28, R92, R236); its fence clock restarts (R258). -/
def restage (now : Nat) (dest : Option Nat) (t : Task) : Task :=
  match dest with
  | some m => { t with bench := some m, grove := benchGrove m, slice := m % 128 / 32, waitSince := now, clockStarted := false }
  | none => { t with bench := none, waitSince := now, clockStarted := false }

/-- A task of a quarantined bench: a staged one is restaged; the entry of any other moves with the role (R236). -/
def followRole (now : Nat) (dest : Option Nat) (t : Task) : Task :=
  if t.phase = .staged then restage now dest t
  else match dest with
    | some m => { t with grove := benchGrove m, slice := m % 128 / 32 }
    | none => t

/-- What a quarantined bench loses; its tallies stay readable (R94, R135, R199). -/
def benchLost (b : Bench) : Bench :=
  { accSat := b.accSat, passes := b.passes, gated := b.gated, clampTally := b.clampTally, nanTally := b.nanTally,
    skidWait := b.skidWait, entriesMax := b.entriesMax, frozen := b.frozen }

/-- What a quarantine freezes: DRESSER_STATUS as it reads (R199). -/
def freezeStatus (was b : Bench) : Bench := { b with frozen := some (was.skid.length, was.activity) }

/-- The role of a quarantined bench is handed to its taker, if there is one; the unit generation of both advances (R29, R31). -/
def handRole (n : Nat) (role : Option Nat) (taker : Option Nat) (s : State) : State :=
  let s1 := dueAdvance n (updRole n (fun e => { changeRole none e with state := .quarantined }) s)
  match taker with
  | some m => dueAdvance m (updRole m (fun x => { changeRole role x with state := .active }) s1)
  | none => s1

/-- A bench's quarantine but its record: the running task ends with 0x120F, its stores that no port die has are discarded, the role moves,
staged tasks follow it (R29, R92, R96); its scratch is never readable again (R94); a scan of the bench goes on with its quanta (R474). -/
def quarantineCore (n : Nat) (s : State) : State :=
  let e := roleOf s n
  let s1 := (runningOn s n).foldl (fun s t => resetEndsTask t 0x120F s) (discardLeaving (fun t => t.bench == some n) s)
  let taker := if e.role.isSome then standbyFor s1 n else none
  let s3 := handRole n e.role taker s1
  let s4 := { s3 with
    tasks := s3.tasks.map fun t => if t.bench = some n then followRole s3.now taker t else t
    scratch := s3.scratch.dropWhere fun a => a / scratchSize == n
    opLines := s3.opLines.filter fun l => !(l.tentative.any fun x => s3.tasks.any fun t => t.ring == x.1 && t.seq == x.2 && t.bench == some n)
    groups := s3.groups.mapListed {} fun _ g => { g with holds := g.holds.filter fun m => m != n }
    power := if scannedBench s3 = some n then s3.power else returnQuanta s3.now n s3.power }
  updBenchState n (fun b => freezeStatus (s.benches.get {} n) (benchLost b)) s4

/-- Benches of a grove. -/
def grovesBenches (g : Nat) : List Nat := (List.range 128).map (· + 128 * g)

/-- DETAIL0 or DETAIL1 of a quarantine record: the bits of some benches of a grove (R449). -/
def benchBits (lo : Nat) (ns : List Nat) : Nat :=
  ns.foldl (fun b n => if lo ≤ n % 128 ∧ n % 128 < lo + 64 then b + 2 ^ (n % 128 - lo) else b) 0

/-- The record 0x1211 of a quarantine event of one grove (R449, R460). -/
def recordQuarantine (g : Nat) (ns : List Nat) (cause : W16) (s : State) : State :=
  report { code := 0x1211, source := srcGrove s g, detail0 := BitVec.ofNat 64 (benchBits 0 ns),
           detail1 := BitVec.ofNat 64 (benchBits 64 ns), detail2 := BitVec.ofNat 32 cause.toNat } s

/-- Whether quarantining a bench would exhaust a unit generation: its own or its taker's (R32). -/
def quarantineExhausts (s : State) (n : Nat) : Bool :=
  genExhausted s n || ((roleOf s n).role.isSome && match standbyFor s n with
    | some m => genExhausted s m
    | none => false)

/-- Benches quarantined one after the other; none where an advance that one of them makes would pass 0xFFFF (R32). -/
def quarantineEach : List Nat → State → Option State
  | [], s => some s
  | n :: ns, s => if quarantineExhausts s n then none else quarantineEach ns (quarantineCore n s)

/-- Benches of one grove quarantined at once as one event, lowest first (R29, R458). -/
def quarantineNow (g : Nat) (ns : List Nat) (cause : W16) (s : State) : State :=
  let due := ns.filter fun n => decide ((roleOf s n).state ≠ .quarantined)
  if due.isEmpty then s
  else match quarantineEach due s with
    | none => beginWarmReset 0x1404 s
    | some t => recordQuarantine g due cause t

/-- A request to quarantine benches of one grove as one event (R92): nothing for those already quarantined; held during a reset of
their grove (R93, R460). -/
def quarantineAll (g : Nat) (ns : List Nat) (cause : W16) (s : State) : State :=
  let x := s.groveResets.get {} g
  if x.busy then
    let due := ns.filter fun n => decide ((roleOf s n).state ≠ .quarantined) && !(x.held.any fun h => h.1.contains n)
    if due.isEmpty then s else { s with groveResets := s.groveResets.set {} g { x with held := x.held ++ [(due, cause)] } }
  else quarantineNow g ns cause s

/-- A quarantine request for one bench. -/
def quarantine (n : Nat) (cause : W16) (s : State) : State := quarantineAll (benchGrove n) [n] cause s

/-- Quarantines held during a grove reset, applied together: lowest bench number first, a record an event (R29, R93, R449). -/
def applyHeld (g : Nat) (held : List (List Nat × W16)) (s : State) : State :=
  let due := (grovesBenches g).filter fun n => (held.any fun h => h.1.contains n) && decide ((roleOf s n).state ≠ .quarantined)
  match quarantineEach due s with
  | none => beginWarmReset 0x1404 s
  | some t => held.foldl (fun t h =>
      let ns := h.1.filter due.contains
      if ns.isEmpty then t else recordQuarantine g ns h.2 t) t

/-! ### Grove reset -/

/-- A bench after the reset of its grove: zeroed but for its tallies (R94, R135, R199). -/
def benchReset (b : Bench) : Bench := benchLost b

/-- Tasks that the reset of a grove ends: staged or issued in its Tally (R91, R258). -/
def groveTasks (s : State) (g : Nat) : List Task :=
  s.tasks.filter fun t => t.grove == g && (decide (t.phase = .staged) || decide (t.phase = .issued))

/-- The start of a grove reset: steps 1–5 of its table (R91, R94). With the cache invalidated every invalidation of the grove completes,
those that waited issue and complete with it, and their writers go on (R331, R336). -/
def groveResetStart (g : Nat) (s : State) : State :=
  let s1 := (groveTasks s g).foldl (fun s t => resetEndsTask t 0x120E s) (discardLeaving (fun t => t.grove == g) (noteClocks s))
  let ns := grovesBenches g
  let inGrove (n : Nat) : Bool := benchGrove n == g
  let scan := (scannedBench s1).any inGrove
  let regs := s1.opRegs.get {} g
  regs.waiting.foldl (fun s x => releaseWriter (some x.2) s) { s1 with
    groveResets := s1.groveResets.update {} g fun x => { x with busy := true, since := s1.now }
    roles := ns.foldl (fun t n => t.update {} n fun e => { e with advances := e.advances + 1 }) s1.roles
    benches := s1.benches.mapListed {} fun n b => if inGrove n then benchReset b else b
    scratch := s1.scratch.dropWhere fun a => inGrove (a / scratchSize)
    groups := s1.groups.mapListed {} fun _ x => { x with holds := x.holds.filter fun n => !inGrove n }
    opLines := s1.opLines.filter fun l => l.grove != g
    opRegs := s1.opRegs.set {} g { regs with issued := (regs.issued + regs.waiting.length) % 2 ^ 32,
                                             done := (regs.issued + regs.waiting.length) % 2 ^ 32, held := [], waiting := [] }
    tu := { s1.tu with groveCache := s1.tu.groveCache.filter fun e => e.grove != some g }
    power := updGrove (ns.foldl (fun p n => returnQuanta s1.now n p) s1.power) g fun x =>
      { x with pll := .running, deferred := [], startTimes := [] }
    err := { s1.err with
      benchErrors := s1.err.benchErrors.filter fun e => !inGrove e.1
      diagState := if scan then .idle else s1.err.diagState
      diagCode := if scan then 0x9315 else s1.err.diagCode } }

/-- Whether a grove reset is taken up: not before start is complete, not twice, not for a fenced grove (R91, R458). -/
def groveResetTaken (s : State) (g : Nat) : Bool :=
  decide (s.life.power = .running) && decide (g < 4) && !(s.groveResets.get {} g).busy && !s.err.fenced.contains g

/-- A request for a grove reset, from software or from error handling (R91, R461); a unit generation that it would exhaust
makes it a module warm reset (R32). -/
def requestGroveReset (g : Nat) (s : State) : State :=
  if !groveResetTaken s g then s
  else if (grovesBenches g).any (genExhausted s) then beginWarmReset 0x1404 s
  else groveResetStart g s

/-! ### Fatal errors -/

/-- The grove's rings read no descriptor again: each faults with 0x9302 of its own (R458). -/
def fenceRings (g : Nat) (s : State) : State :=
  ((List.range 256).map (· + 256 * g)).foldl (fun s r => if ringExists s r then failRing r 0x9302 s else s) s

/-- The fence of a grove (R458). -/
def fenceGrove (g : Nat) (code : W16) (s : State) : State :=
  let s1 := { s with err := { s.err with fenced := s.err.fenced ++ [g] } }
  fenceRings g (quarantineAll g (grovesBenches g) code s1)

/-- Every port of a fabric port die MARKED_DOWN (R458). -/
def markDie (d : Nat) (f : FabricBlock) : FabricBlock :=
  { f with ports := ((List.range 36).map (· + 36 * d)).foldl (fun t p =>
      t.update {} p fun x => if x.state = .disabled then x else { x with state := .markedDown }) f.ports }

/-- An issued task at the module-scope action (R253, R458): one whose work is done completes as usual; an array task stops at its pass
boundary, and fails once its entries are finished; a VECTOR task at the end of its strip; any other at once. -/
def stopIssued (s : State) (t : Task) : State :=
  match t.bench with
  | none => failBy t.ring t.seq 0x9302 s
  | some n =>
    if t.workDone then s
    else if t.blocked || t.moves then failBy t.ring t.seq 0x9302 s
    else
      let s1 := updTask t.ring t.seq (fun t => { t with
        stopping := true
        arrayDone := t.arrayDone || t.onArray
        ends := if t.onArray then t.ends.orElse fun _ => some { code := 0x9302 } else t.ends })
        (updBenchState n (fun b => if t.onArray then stopArray t.ring t.seq b else b) s)
      if atStop s1 t && !entriesLeft s1 t then failBy t.ring t.seq 0x9302 s1 else s1

/-- The module-scope action of 0x9303 (R458): issued tasks stop and end, rings fault, keys go, ports wait for keys (log 67). -/
def stopModule (s : State) : State :=
  let s1 := { s with err := { s.err with moduleStopped := true } }
  let s2 := (s1.tasks.filter Task.running).foldl stopIssued s1
  { s2 with
    rings := tableOf {} 1024 fun r =>
      let q := s2.rings.get {} r
      if (ringPartition s2 r).isNone || q.status == .resetting then q else { q with status := .faulted }
    stakes := { s2.stakes with sealedContexts := s2.stakes.sealedContexts.map fun c => { c with key := none } }
    fabric := { s2.fabric with
      keys := []
      sendEpoch := {}
      ports := s2.fabric.ports.mapListed {} fun _ p => if p.state = .up then { p with state := .keyWait } else p } }

/-- The scope action of a fatal error (R458). -/
def scopeAction (scope : FatalScope) (code : W16) (s : State) : State :=
  match scope with
  | .none => s
  | .grove g => fenceGrove g code s
  | .portDie d => { s with fabric := markDie d s.fabric }
  | .module => stopModule s

/-- A fatal error (R457–R459): its record, then its handling; while another is handled, a module warm reset with cause 0x120C. -/
def raiseFatal (scope : FatalScope) (e : ErrRecord) (s : State) : State :=
  let lost := queueFull s.err
  let number := s.err.written
  let time := BitVec.ofNat 64 s.fabric.time
  if s.err.fatalActive then
    let s1 := reportAs .fatal e s
    beginWarmReset 0x120C { s1 with err := { s1.err with
      escalation := some ⟨s1.err.fatalCode, e.code, s1.err.fatalTime, time⟩ } }
  else
    let s1 := reportAs .fatal e s
    let s2 := { s1 with err := { s1.err with
      fatalActive := true, fatalCode := e.code, fatalScope := scope, fatalRecord := if lost then none else some number,
      fatalTime := time } }
    scopeAction scope e.code s2

/-- Landing internal state is uncorrectable (R451, R458). -/
def landingFault (injected : Bool) (s : State) : State :=
  raiseFatal .module { code := 0x9303, source := srcModule s, injected := injected } s

/-! ### Bench error counts -/

/-- A bench's detector reports an error (R460): counted in the last 1 s; at its threshold the bench is quarantined. -/
def countBenchError (n : Nat) (uncorrectable : Bool) (code : W16) (s : State) : State :=
  let recent := (n, uncorrectable, s.now) :: s.err.benchErrors.filter fun e => decide (s.now < e.2.2 + 1000000000)
  let s1 := { s with err := { s.err with benchErrors := recent } }
  let k := (recent.filter fun e => e.1 == n && e.2.1 == uncorrectable).length
  let limit := if uncorrectable then s.err.quarUncorr else s.err.quarCorr
  if limit ≠ 0 ∧ limit ≤ k then quarantine n code s1 else s1

end Sys2Proof.Machine
end

