-- ==== Sys2Proof/Machine/Inject.lean ====
section
/-!
DEFINITION. Machine/Inject.lean: armed injection points and their firing (R462–R466), sealed data, and delivery of MSIs (R431).
-/

namespace Sys2Proof.Machine

/-! ### Sealed data -/

/-- The valid object whose home holds a physical address. -/
def objectAtHome (s : State) (pa : Nat) : Option (Nat × TierObject) :=
  s.tier.objects.cells.find? fun c =>
    c.2.valid && decide (c.2.homeBase ≤ pa ∧ pa < c.2.homeBase + c.2.granules * stakeSize)

/-- Whether a physical address holds sealed data: a sealed stake, or the home of an object of a sealed context (R464, R465). -/
def sealedData (s : State) (pa : Nat) : Bool :=
  (nearOrBulk pa && (stakeAt s pa).sealed) ||
  match objectAtHome s pa with
  | some c => isSealed s c.2.context
  | none => false

/-! ### Firing -/

/-- Whether an injection slot is armed for a code and its locator matches. -/
def slotHits (code : W16) (hit : Nat → Bool) (x : InjSlot) : Bool :=
  decide (x.state = .armed) && x.code == code && hit x.locator.toNat

/-- A slot after one firing: spent when FIRED equals COUNT (R465). -/
def fireSlot (x : InjSlot) : InjSlot :=
  { x with fired := x.fired + 1, state := if x.fired + 1 = x.count then .spent else .armed }

/-- An event of a detector: whether an armed point fires on it, and the state that has counted the firings (R465). -/
def fireInjection (code : W16) (hit : Nat → Bool) (s : State) : Bool × State :=
  if s.err.inj.cells.any fun c => slotHits code hit c.2 then
    (true, { s with err := { s.err with inj := s.err.inj.mapListed {} fun _ x => if slotHits code hit x then fireSlot x else x } })
  else (false, s)

/-- OVERRIDE of the sensor injections that fire, if any (R466). -/
def firedOverride (code : W16) (hit : Nat → Bool) (s : State) : Option Nat :=
  (s.err.inj.cells.find? fun c => slotHits code hit c.2).map fun c => bitsOf c.2.locator.toNat 31 24

/-! ### Tally state -/

/-- A Tally state error (R461): a grove reset, or a fatal 0x9305 for the third in 60 s. A request that no reset would follow, the
grove being under reset or fenced, counts for nothing (R91, R458). -/
def tallyStateError (g : Nat) (injected : Bool) (s : State) : State :=
  let s1 := report { code := 0x3901, source := srcGrove s g, injected := injected } s
  let recent := s1.err.groveResets.filter fun e => decide (s.now < e.2 + 60000000000)
  if !groveResetTaken s1 g then s1 else
  let ours := (recent.filter fun e => e.1 == g).length
  if 2 ≤ ours then raiseFatal (.grove g) { code := 0x9305, source := srcGrove s g } s1
  else requestGroveReset g { s1 with err := { s1.err with groveResets := (g, s.now) :: recent } }

/-! ### Interrupt files -/

/-- The interrupt file at an address, numbered hart × 16 + 0 for the M-level file, 1 for the S-level file and 2–8 for the guest
files (R431). -/
def msiFile (pa : Nat) : Option Nat :=
  let page := pa / 0x1000 * 0x1000
  if 0x400002400000 ≤ page ∧ page < 0x400002440000 then some ((page - 0x400002400000) / 0x1000 * 16)
  else if 0x400002000000 ≤ page ∧ page < 0x400002200000 then
    let i := (page - 0x400002000000) / 0x1000
    some (i / 8 * 16 + 1 + i % 8)
  else none

/-- A hart that waits in WFI for identity 1 of its M-level file enters the loaded program (R430). -/
def wakeHart (l : LandingBlock) (file identity : Nat) : LandingBlock :=
  let h := file / 16
  match l.bootEntry with
  | some (entry, copy) =>
    if file % 16 = 0 ∧ identity = 1 ∧ h ≠ 0 ∧ (l.harts.get {} h).state = .wfi then
      { l with harts := l.harts.update {} h fun x =>
          { x with state := .running, mode := .m, pc := entry, a0 := BitVec.ofNat 64 h, a1 := BitVec.ofNat 64 copy } }
    else l
  | none => l

/-- An MSI: a 4-byte write of an identity to a file's seteipnum register makes it pend (R431). -/
def deliverMsi (pa identity : Nat) (l : LandingBlock) : LandingBlock :=
  match msiFile pa with
  | some f =>
    if pa % 0x1000 = 0 ∧ 1 ≤ identity ∧ identity ≤ 2047 then
      wakeHart { l with pendingMsi := l.pendingMsi.set false (f * 2048 + identity) true } f identity
    else l
  | none => l

end Sys2Proof.Machine
end

