-- ==== Sys2Proof/Machine/Access.lean ====
section
/-!
DEFINITION. Machine/Access.lean: the path of a memory access: its replies and injections, reads
and writes of the tiers with poison and posted regions (R278, R279, R321), and the tiered range (R264–R271).
-/

namespace Sys2Proof.Machine

/-- How an access ends: with its result, with a code (and the physical address where there is one), or waiting for a fault
batch, a migration or a replica. -/
inductive Reply (α : Type) where
  | done (a : α)
  | fail (code : W16) (pa : Nat)
  | wait
deriving DecidableEq, Repr

/-- A reply carried on. -/
def Reply.andThen {α β : Type} (r : Reply α × State) (f : α → State → Reply β × State) : Reply β × State :=
  match r with
  | (.done a, s) => f a s
  | (.fail c pa, s) => (.fail c pa, s)
  | (.wait, s) => (.wait, s)

/-- What a task waits as, when its agent waits. -/
def Requester.waiter (q : Requester) : Waiter :=
  match q.agent with
  | .hart h => .hart h
  | .movePort | .dresserPort | .tally => .task q.ring q.seq
  | .deck | .tier | .transUnit | .portDie _ | .pcie => .external

/-- Who waits, if anyone does: no one for a prefetch (R238). -/
def Requester.asWaiter (q : Requester) : Option Waiter := if q.quiet then none else some q.waiter

/-! ### Injection on the memory path -/

/-- The block a memory injection names: a codeword, or a flash unit (R466). -/
def memBlock (pa : Nat) : Nat := match regionOf pa with
  | .flash => pa / ashlarSize * ashlarSize
  | _ => pa / 512 * 512

/-- Whether a memory locator names a block of a range. -/
def memHit (s : State) (pa n : Nat) (loc : Nat) : Bool :=
  decide (memBlock loc < pa + n) && decide (pa < memBlock loc + (if regionOf loc = .flash then ashlarSize else 512)) &&
  regionOf loc == regionOf pa && !sealedData s loc

/-- CORRECTED of the device that holds an address goes up, saturating (R277, R283). -/
def countCorrected (pa : Nat) (t : TierBlock) : TierBlock :=
  match regionOf pa with
  | .near => { t with stackStatus := t.stackStatus.update {} (stackOf pa) fun d => { d with corrected := satAdd 32 d.corrected 1 } }
  | .bulk => { t with packageStatus := t.packageStatus.update {} (packageOf pa) fun d => { d with corrected := satAdd 32 d.corrected 1 } }
  | _ => t

/-- A corrected error at an address: its record, its count, no data changed (R277). -/
def correctedAt (pa : Nat) (injected : Bool) (s : State) : State :=
  report { code := 0x4101, source := srcModule s, address := BitVec.ofNat 64 pa, injected := injected }
    { s with tier := countCorrected pa s.tier }

/-- Entries of the flash poison table (R283). -/
def flashPoisoned (t : TierBlock) : Nat := t.flashPoison.cells.length

/-- The valid objects whose home holds a flash unit become FAILED (R279). -/
def failObjectsAt (unit : Nat) (t : TierBlock) : TierBlock :=
  { t with objects := t.objects.mapListed {} fun _ o =>
      if o.valid ∧ o.homeBase ≤ unit ∧ unit < o.homeBase + o.granules * stakeSize then { o with failed := true } else o }

/-- The poisoning of a location after an uncorrectable read (R278); with a full flash poison table the objects homed there fail
(R279). -/
def poisonAt (pa : Nat) (s : State) : State :=
  match regionOf pa with
  | .flash =>
    let u := pa / ashlarSize
    if s.tier.flashPoison.get false u then s
    else if flashPoisoned s.tier < 65536 then { s with tier := { s.tier with flashPoison := s.tier.flashPoison.set false u true } }
    else report { code := 0x4305, source := srcModule s, address := BitVec.ofNat 64 (u * ashlarSize) }
      { s with tier := failObjectsAt (u * ashlarSize) s.tier }
  | _ => { s with tier := { s.tier with poison := s.tier.poison.set false (pa / 512) true } }

/-- The detector's record to come carries INJECTED (R465). -/
def fired (code : W16) (s : State) : State := { s with err := { s.err with firing := some code } }

/-- Injection points on a read of a physical range: corrected errors and poison marks (R466). True when the read itself met an
uncorrectable error, which no table need remember (R279). -/
def injectRead (q : Requester) (pa n : Nat) (s : State) : Bool × State :=
  if isSealed s q.context then (false, s)
  else
    let a := fireInjection 0x4101 (memHit s pa n) { s with err := { s.err with firing := none } }
    let s1 := if a.1 then correctedAt pa true a.2 else a.2
    let b := fireInjection 0x4301 (memHit s1 pa n) s1
    if b.1 then (true, fired 0x4301 (poisonAt (firstSome (fun c => if slotHits 0x4301 (memHit s1 pa n) c.2 then some c.2.locator.toNat else none)
      s1.err.inj.cells |>.getD pa) b.2)) else (false, b.2)

/-- The stake table read of an access, where 0x9303 may be injected, but not on a request of a sealed context (R465, R466). -/
def stakeTableRead (q : Requester) (s : State) : State :=
  let a := fireInjection 0x9303 (fun l => l == 0 && !isSealed s q.context) s
  if a.1 then landingFault true a.2 else a.2

/-! ### Posted regions -/

/-- Whether the region attribute table makes an address posted (R59, R321). -/
def postedAt (s : State) (tiered : Bool) (a : Nat) : Bool :=
  match s.cfg with
  | some c => c.regions.any fun r => r.tiered == tiered && r.posted && decide (r.base ≤ a ∧ a < r.base + r.granules * stakeSize)
  | none => false

/-- The hart of a request, which its record names in DETAIL2 (R428; log 58); 0 for every other agent. -/
def Requester.hartId (q : Requester) : Nat :=
  match q.agent with
  | .hart h => h
  | _ => 0

/-- The record of a posted write that failed a check (R321, R428). -/
def reportPosted (q : Requester) (code : W16) (pa : Nat) (s : State) : State :=
  report { code := code, source := srcModule s, address := BitVec.ofNat 64 pa, context := BitVec.ofNat 16 q.context, posted := true
           detail2 := BitVec.ofNat 32 q.hartId } s

/-! ### The near, bulk and flash tiers -/

/-- The ashlar in repair from its replica whose failing blocks a read meets (R280). -/
def repairMet (s : State) (pa n : Nat) : Option Nat :=
  (s.tier.inProgress.find? fun m => m.repair.any fun a =>
    decide (memBlock a < pa + n ∧ pa < memBlock a + (if regionOf a = .flash then ashlarSize else 512))).map (·.ashlar)

/-- A waiter joins a migration or repair in progress (R271). -/
def Migration.join (w : Option Waiter) (m : Migration) : Migration :=
  match w with
  | some w => if m.waiters.contains w then m else { m with waiters := m.waiters ++ [w] }
  | none => m
def joinWait (ashlar : Nat) (w : Option Waiter) (s : State) : State :=
  { s with tier := { s.tier with inProgress := s.tier.inProgress.map fun m => if m.ashlar = ashlar then m.join w else m } }

/-- Whether a flash read meets an error that the full poison table does not remember; the error met (R279). -/
def flashMet (s : State) (pa n : Nat) : Bool := regionOf pa == .flash && (blocksOf ashlarSize pa n).any fun u => s.tier.metError.contains u
def clearMet (pa n : Nat) (s : State) : State :=
  { s with tier := { s.tier with metError := s.tier.metError.filter fun u => !(blocksOf ashlarSize pa n).contains u } }

/-- A read of a physical range that lies in one tier; one that meets a block in repair from a replica waits for it (R280). -/
def physRead (q : Requester) (pa n : Nat) (s0 : State) : Reply (List Byte) × State :=
  let i := injectRead q pa n s0
  let finish (s : State) (bs : List Byte) : Reply (List Byte) × State :=
    match repairMet s pa n with
    | some a => (.wait, joinWait a q.asWaiter s)
    | none =>
      if flashMet s pa n then (.fail 0x4301 pa, clearMet pa n s)
      else if i.1 || poisonIn s pa n then (.fail 0x4301 pa, s) else (.done bs, s)
  match regionOf pa with
  | .near | .bulk =>
    let s := stakeTableRead q i.2
    match accessRefusal s q false pa n with
    | some c => (.fail c pa, s)
    | none => finish s (plainRead s pa n)
  | .flash => finish i.2 (flashBytes i.2 pa n)
  | _ => (.fail 0x5105 pa, i.2)

/-- A write that has passed its checks: harts and PCIe writes also drop operand cache lines (R317, R329); one that meets a SCATADD of
another bench leaves undefined bytes (R328). -/
def placeBytes (q : Requester) (pa : Nat) (bs : List Byte) (s0 : State) : State :=
  let r := outsideWrite q pa bs s0
  match q.agent with
  | .hart _ | .pcie => plainWrite pa r.1 (dropOpLines pa bs.length r.2)
  | _ => plainWrite pa r.1 r.2

/-- Whether a write of a requester is posted: its place is, and it is neither Tally's nor an atomic (R321). -/
def writePosted (s : State) (q : Requester) (tiered : Bool) (a : Nat) : Bool := postedAt s tiered a && q.agent != .tally && !q.atomic

/-- What refuses a write of one piece of the near or bulk tier. -/
def pieceRefusal (s : State) (q : Requester) (p : Nat × Nat) : Option W16 :=
  match accessRefusal s q true p.1 p.2 with
  | some c => some c
  | none => if partialPoison s p.1 p.2 then some 0x4301 else none

/-- One piece of a write: placed, or discarded with a record of its own (R321). -/
def writePiece (q : Requester) (pa : Nat) (bs : List Byte) (s : State) (p : Nat × Nat) : State :=
  match pieceRefusal s q p with
  | some c => reportPosted q c p.1 s
  | none => placeBytes q p.1 (sliceBytes bs (p.1 - pa) p.2) s

/-- Bytes of a write that take their place: those of the pieces nothing refuses (R321, R332). -/
def bytesPlaced (s : State) (q : Requester) (pa n : Nat) : Nat :=
  ((piecesOf stakeSize pa n).filter fun p => (pieceRefusal s q p).isNone).foldl (fun k p => k + p.2) 0

/-- A write to the near or bulk tier, granule by granule as the region attributes have it: with a confirmed piece that fails no confirmed
piece is placed, and the issuer is told; each posted piece takes its place, or is discarded with a record of its own, whatever becomes of
the others (R321). -/
def physWrite (q : Requester) (pa : Nat) (bs : List Byte) (s0 : State) : Reply Unit × State :=
  match regionOf pa with
  | .near | .bulk =>
    let s := stakeTableRead q s0
    let ps := piecesOf stakeSize pa bs.length
    match firstSome (fun p => if writePosted s q false p.1 then none else (pieceRefusal s q p).map fun c => (c, p.1)) ps with
    | some (c, a) => (.fail c a, (ps.filter fun p => writePosted s q false p.1).foldl (writePiece q pa bs) s)
    | none => (.done (), ps.foldl (writePiece q pa bs) s)
  | .flash => (.fail 0x4201 pa, s0)
  | _ => (.fail 0x5105 pa, s0)

/-! ### Object homes -/

/-- The home key of an object: its home lies outside the package and its context is sealed (R307). -/
def homeKey (s : State) (o : TierObject) : HomeKey :=
  if regionOf o.homeBase = .near then .plain else contextKey s o.context

/-! ### The tiered range -/

/-- The valid object that holds a tier offset (R265). -/
def objectAt (s : State) (t : Nat) : Option (Nat × TierObject) :=
  s.tier.objects.cells.find? fun c => c.2.valid && decide (c.2.base ≤ t ∧ t < c.2.base + c.2.granules * stakeSize)

/-- An object that holds a tier offset, valid or draining. -/
def servingObject (s : State) (t : Nat) : Option (Nat × TierObject) :=
  s.tier.objects.cells.find? fun c => (c.2.valid || c.2.busy) && decide (c.2.base ≤ t ∧ t < c.2.base + c.2.granules * stakeSize)

/-- Whether one whose wait is over has still to make its access: its task, the ring that reads for it, or the hart goes on. -/
def stillWaits (s : State) (w : Waiter) : Bool :=
  match w with
  | .task r seq => match findTask s r seq with
    | some t => t.running
    | none => decide ((ringOf s r).head = seq)
  | .hart h => match (hartOf s h).waiting with
    | .migration _ _ _ _ => true
    | .nothing | .remote _ | .write | .site _ | .barrier | .stalled _ => !(hartOf s h).combined.isEmpty
  | .external => false

/-- The copy of an ashlar has reads in flight: accesses that waited for it and have yet to be made (R269, R271). -/
def readsInFlight (s : State) (ashlar : Nat) : Bool := s.tier.admitted.any fun x => x.2 == ashlar && stillWaits s x.1

/-- The evicted copies that no read in flight holds any more discarded (R271). -/
def dropLeaving (s : State) : State :=
  { s with tier := { s.tier with frames := s.tier.frames.filter fun f => !(f.leaving && !readsInFlight s f.ashlar) } }

/-- The object that serves an access: the valid one, or a draining one for an access that it accepted before (R265, R271). -/
def objectFor (s : State) (q : Requester) (t : Nat) : Option (Nat × TierObject) :=
  match objectAt s t with
  | some x => some x
  | none => if s.tier.admitted.contains (q.waiter, t / ashlarSize * ashlarSize) then servingObject s t else none

/-- An access that waited for its ashlar is complete: a move port's, once it reaches the ashlar's end, since it requests the whole ashlar
(R155, R271). -/
def settleAdmitted (q : Requester) (t n : Nat) (s : State) : State :=
  if (q.agent = .movePort ∨ q.cached) ∧ (t + n) % ashlarSize ≠ 0 then s
  else dropLeaving { s with tier := { s.tier with admitted := s.tier.admitted.filter fun x => x != (q.waiter, t / ashlarSize * ashlarSize) } }

/-- One that begins to wait for an ashlar has made its accesses to the others it waited for. -/
def leaveOthers (q : Requester) (ashlar : Nat) (s : State) : State :=
  dropLeaving { s with tier := { s.tier with admitted := s.tier.admitted.filter fun x => x.1 != q.waiter || x.2 == ashlar } }

/-- The home address of a tier offset of an object (R265). -/
def homeAddr (o : TierObject) (t : Nat) : Nat := o.homeBase + (t - o.base)

/-- The pool grove of an ashlar of an object (R266). -/
def poolGrove (o : TierObject) (t : Nat) : Nat := if o.affinity = 4 then ((t - o.base) / ashlarSize) % 4 else o.affinity

/-- The pool registers of a grove. -/
def poolOf (s : State) (g : Nat) : NearPool := s.tier.pools.get {} g

/-- Whether a read of an object that misses is served from the home: RESIDENT, or no pool to copy into (R266, R268). -/
def servedFromHome (s : State) (o : TierObject) (t : Nat) : Bool := o.policy == 0 || (poolOf s (poolGrove o t)).frames == 0

/-- The frame that holds or receives an ashlar, for accesses made now. -/
def frameOf (s : State) (ashlar : Nat) : Option PoolFrame := s.tier.frames.find? fun f => f.ashlar == ashlar && !f.leaving

/-- A requester waited for an ashlar and now makes its access, which was accepted before (R271). -/
def wasAdmitted (s : State) (q : Requester) (ashlar : Nat) : Bool := s.tier.admitted.contains (q.waiter, ashlar)

/-- The near copy that serves a requester: an evicted one too, for a read accepted before the EVICT (R271). -/
def copyFor (s : State) (q : Requester) (ashlar : Nat) : Option PoolFrame :=
  if wasAdmitted s q ashlar then (s.tier.frames.find? fun f => f.ashlar == ashlar && f.leaving).orElse fun _ => frameOf s ashlar
  else frameOf s ashlar

/-- Physical address of a frame. -/
def frameAddr (s : State) (f : PoolFrame) : Nat := (poolOf s f.grove).base + f.index * ashlarSize

/-- The first free frame of a grove's pool. -/
def freeFrame (s : State) (g : Nat) : Option Nat :=
  (List.range (min (poolOf s g).frames ((s.tier.frames.length) + 1))).find? fun i =>
    !(s.tier.frames.any fun f => f.grove == g && f.index == i)

/-- The least recently used frame of a kind that may be reclaimed: it has no copy in progress and no reads in flight (R269). -/
def reclaimable (s : State) (g : Nat) (stream : Bool) : Option PoolFrame :=
  (s.tier.frames.filter fun f => f.grove == g && f.stream == stream && !f.copying && !readsInFlight s f.ashlar).foldl
    (fun best f => match best with
      | none => some f
      | some b => if f.lastUse < b.lastUse then some f else some b) none

/-- A frame taken for an ashlar: a free one, else a reclaimed one; none when every frame is excluded (R269). -/
def takeFrame (g ashlar : Nat) (stream : Bool) (s0 : State) : Option PoolFrame × State :=
  let s := dropLeaving s0
  let fresh (i : Nat) : PoolFrame := ⟨g, i, ashlar, stream, s.tier.useClock, true, false⟩
  match freeFrame s g with
  | some i => (some (fresh i), { s with tier := { s.tier with frames := fresh i :: s.tier.frames, useClock := s.tier.useClock + 1 } })
  | none =>
    let victim := match reclaimable s g true with
      | some f => some f
      | none => reclaimable s g false
    match victim with
    | some f =>
      (some (fresh f.index), { s with tier := { s.tier with
        frames := fresh f.index :: s.tier.frames.filter fun x => x != f
        evictions := wrapAdd 64 s.tier.evictions 1
        useClock := s.tier.useClock + 1 } })
    | none => (none, s)

/-- The stake check of the tier directory's own access to a frame or a home: it carries TIER (R287, R303). -/
def tierRefusal (s : State) (write : Bool) (pa n : Nat) (accepted : Bool := false) : Option W16 :=
  if nearOrBulk pa then stakeRefusalIn s { agent := .tier, context := 0xFFF1, accepted := accepted } write pa n else none

/-- Whether TIER may not read the home of an ashlar or write the frame taken for it, as a migration begins (R303). -/
def migrationRefused (s : State) (o : TierObject) (ashlar : Nat) (f : Option PoolFrame) : Bool :=
  (tierRefusal s false (homeAddr o ashlar) ashlarSize).isSome || f.any fun f => (tierRefusal s true (frameAddr s f) ashlarSize).isSome

/-- A migration of an ashlar begun for a waiter, or joined (R267, R271). -/
def beginMigration (o : TierObject) (ashlar : Nat) (w : Option Waiter) (s : State) : State :=
  if s.tier.inProgress.any fun m => m.ashlar == ashlar then joinWait ashlar w s
  else
    let r := takeFrame (poolGrove o ashlar) ashlar (o.policy == 2) s
    let s1 := r.2
    let m : Migration := Migration.join w
      { ashlar := ashlar, frame := r.1.map fun f => (f.grove, f.index), refused := migrationRefused s1 o ashlar r.1 }
    { s1 with tier := { s1.tier with
      inProgress := s1.tier.inProgress ++ [m]
      frameWaits := if r.1.isNone then satAdd 32 s1.tier.frameWaits 1 else s1.tier.frameWaits } }

/-- A frame counts as just used (R269). -/
def touchFrame (f : PoolFrame) (s : State) : State :=
  { s with tier := { s.tier with
    frames := s.tier.frames.map fun x => if x = f then { x with lastUse := s.tier.useClock } else x
    useClock := s.tier.useClock + 1 } }

/-- An access to an object that is FAILED: refused, but for the read of the home that met the error (R279). -/
def failedObject (s : State) (o : TierObject) (t : Nat) : Bool :=
  o.failed && !(servedFromHome s o t && flashMet s (homeAddr o t) 1)

/-- What refuses an access to a tier offset, else its object (R265, R267, R270, R279, R311). -/
def tieredObject (s : State) (q : Requester) (t : Nat) : Except W16 TierObject :=
  if !s.tier.enable then .error 0x4203
  else match objectFor s q t with
    | none => .error 0x4203
    | some (_, o) =>
      match q.agent with
      | .hart _ => if isSealed s o.context then .error 0x5202
          else if o.context ≠ q.context then .error 0x5201
          else if failedObject s o t then .error 0x4302 else .ok o
      | _ => if o.context ≠ q.context then .error 0x5201 else if failedObject s o t then .error 0x4302 else .ok o

/-- A near copy met an uncorrectable error: it is discarded and copied again, the reader waits (R278). -/
def refetchCopy (f : PoolFrame) (o : TierObject) (w : Option Waiter) (injected : Bool) (s : State) : State :=
  let s1 := report { code := 0x4103, source := srcModule s, address := BitVec.ofNat 64 (frameAddr s f), injected := injected } s
  beginMigration o f.ashlar w { s1 with tier := { s1.tier with frames := s1.tier.frames.filter fun x => x != f } }

/-- The ashlar is being repaired from its replica (R280). -/
def inRepair (s : State) (ashlar : Nat) : Bool := s.tier.inProgress.any fun m => m.ashlar == ashlar && !m.repair.isEmpty

/-- The access to an ashlar for which a requester waited, if it did, is over. -/
def settled {α : Type} (q : Requester) (t n : Nat) (r : Reply α × State) : Reply α × State :=
  match r.1 with
  | .wait => if q.quiet then r else (.wait, leaveOthers q (t / ashlarSize * ashlarSize) r.2)
  | .done a => (.done a, settleAdmitted q t n r.2)
  | .fail c pa => (.fail c pa, settleAdmitted q t ashlarSize r.2)

/-- Whether the pool that an ashlar would be copied into lies in a fenced grove (R458). -/
def poolFenced (s : State) (q : Requester) (o : TierObject) (t : Nat) : Bool := q.agent.engine && s.err.fenced.contains (poolGrove o t)

/-- A read of the near copy of an ashlar (R267): one that meets an uncorrectable error waits for a new copy (R278). -/
def copyRead (q : Requester) (o : TierObject) (f : PoolFrame) (pa n : Nat) (accepted : Bool) (s : State) : Reply (List Byte) × State :=
  if needsFenced s q pa then (.fail 0x9302 pa, s)
  else if (tierRefusal s false pa n accepted).isSome then (.fail 0x5201 pa, s)
  else
    let i := injectRead q pa n s
    let a := fireInjection 0x4103 (fun l => memHit s pa n l && !isSealed s q.context) i.2
    if i.1 || a.1 || poisonIn a.2 pa n then (.wait, refetchCopy f o q.asWaiter (i.1 || a.1) { a.2 with err := { a.2.err with firing := none } })
    else (.done (rawRead a.2 pa n), touchFrame f a.2)

/-- A read of an object's home (R267): decrypted, failing where it meets an error (R279). -/
def homeRead (q : Requester) (o : TierObject) (pa n : Nat) (accepted : Bool) (s : State) : Reply (List Byte) × State :=
  if needsFenced s q pa then (.fail 0x9302 pa, s)
  else
    let i := injectRead q pa n s
    let s1 := i.2
    match homeKey s o with
    | .gone => (.fail 0x9302 pa, s1)
    | key => if (tierRefusal s1 false pa n accepted).isSome then (.fail 0x5201 pa, s1)
      else if flashMet s1 pa n then (.fail 0x4301 pa, clearMet pa n s1)
      else if i.1 || poisonIn s1 pa n then (.fail 0x4301 pa, s1) else (.done (homeBytes s1 key pa n), s1)

/-- A read of the tiered range within one ashlar (R267); of a home in repair it waits (R280). -/
def tieredReadOf (q : Requester) (t n : Nat) (s : State) : Reply (List Byte) × State :=
  match tieredObject s q t with
  | .error c => (.fail c (apertureBase + t), s)
  | .ok o =>
    let ashlar := t / ashlarSize * ashlarSize
    match copyFor s q ashlar with
    | some f =>
      if f.copying then (.wait, beginMigration o ashlar q.asWaiter s)
      else copyRead q o f (frameAddr s f + (t - ashlar)) n (wasAdmitted s q ashlar) s
    | none =>
      if servedFromHome s o t && !inRepair s ashlar then homeRead q o (homeAddr o t) n (wasAdmitted s q ashlar) s
      else if poolFenced s q o t then (.fail 0x9302 (homeAddr o t), s)
      else (.wait, beginMigration o ashlar q.asWaiter s)
def tieredRead (q : Requester) (t n : Nat) (s : State) : Reply (List Byte) × State := settled q t n (tieredReadOf q t n s)

/-- Bytes that runs of a write cover, from its first address on. -/
def runsEnd (runs : List (Nat × List Byte)) : Nat := runs.foldl (fun n r => max n (r.1 + r.2.length)) 0

/-- A store to the tiered range within one ashlar, in runs of bytes by their offset from `t`: written through to the home and the copy; it
waits while the ashlar is copied or repaired (R270, R271, R280). -/
def tieredWriteOf (q : Requester) (t : Nat) (runs : List (Nat × List Byte)) (s0 : State) : Reply Unit × State :=
  let n := runsEnd runs
  let refuse (c : W16) (pa : Nat) (s : State) : Reply Unit × State :=
    if writePosted s q true t then (.done (), reportPosted q c pa s) else (.fail c pa, s)
  match tieredObject s0 q t with
  | .error c => refuse c (apertureBase + t) s0
  | .ok o =>
    if !o.writable then refuse 0x4201 (apertureBase + t) s0
    else
      let ashlar := t / ashlarSize * ashlarSize
      let pa := homeAddr o t
      let accepted := wasAdmitted s0 q ashlar
      if s0.tier.inProgress.any fun m => m.ashlar == ashlar then (.wait, joinWait ashlar q.asWaiter s0)
      else
        let copy := (copyFor s0 q ashlar).map fun f => frameAddr s0 f + (t - ashlar)
        match homeKey s0 o with
        | .gone => refuse 0x9302 pa s0
        | key =>
          if needsFenced s0 q pa || copy.any (needsFenced s0 q) then refuse 0x9302 pa s0
          else if (tierRefusal s0 true pa n accepted).isSome then refuse 0x5201 pa s0
          else match copy.filter fun fa => (tierRefusal s0 true fa n accepted).isSome with
            | some fa => refuse 0x5201 fa s0
            | none =>
              if runs.any fun r => partialPoison s0 (pa + r.1) r.2.length then refuse 0x4301 pa s0
              else (.done (), runs.foldl (fun s x =>
                let r := outsideWrite q (apertureBase + t + x.1) x.2 s
                let u := homeStore key (pa + x.1) r.1 r.2
                match copy with
                  | some fa => rawWrite (fa + x.1) r.1 u
                  | none => u) s0)

def tieredWriteRuns (q : Requester) (t : Nat) (runs : List (Nat × List Byte)) (s : State) : Reply Unit × State :=
  settled q t (runsEnd runs) (tieredWriteOf q t runs s)
def tieredWrite (q : Requester) (t : Nat) (bs : List Byte) (s : State) : Reply Unit × State := tieredWriteRuns q t [(0, bs)] s

/-- A read at the place a physical address names: a tier, or the tiered aperture. -/
def placeRead (q : Requester) (pa n : Nat) (s : State) : Reply (List Byte) × State :=
  match regionOf pa with
  | .aperture => tieredRead q (pa - apertureBase) n s
  | _ => physRead q pa n s

/-- A write at the place a physical address names. -/
def placeWrite (q : Requester) (pa : Nat) (bs : List Byte) (s : State) : Reply Unit × State :=
  match regionOf pa with
  | .aperture => tieredWrite q (pa - apertureBase) bs s
  | _ => physWrite q pa bs s

end Sys2Proof.Machine
end

