-- ==== Sys2Proof/Machine/ScalerOps.lean ====
section
/-!
DEFINITION. Machine/ScalerOps.lean: Scaler's channels: arming, sampling, stopping (R470–R472, R474).
-/

namespace Sys2Proof.Machine

/-- The kind of unit a source watches (R470). -/
inductive SourceKind where
  | ring | slice | grove | module | bench | stack | package | edge | edgeRole | window | port | outbound | hart
deriving DecidableEq, Repr

/-- The table of sources (R470): whether the source is a level, and its kind. -/
def sourceOf : Nat → Bool × SourceKind
  | 0 | 1 | 2 | 3 => (false, .ring)
  | 4 => (true, .ring)
  | 5 => (true, .slice)
  | 6 => (false, .grove)
  | 7 => (true, .grove)
  | 8 => (true, .module)
  | 9 | 10 | 12 => (false, .bench)
  | 11 => (true, .bench)
  | 13 | 15 | 18 | 23 => (false, .grove)
  | 14 | 19 | 24 | 42 | 43 | 44 => (true, .grove)
  | 16 | 17 | 22 => (false, .module)
  | 20 => (false, .stack)
  | 21 => (false, .package)
  | 25 | 27 => (true, .stack)
  | 26 => (true, .package)
  | 28 => (true, .edge)
  | 29 => (true, .edgeRole)
  | 30 | 37 => (false, .window)
  | 31 | 32 => (false, .port)
  | 33 | 34 => (true, .port)
  | 36 => (false, .outbound)
  | 45 => (false, .hart)
  | _ => (true, .module)

/-- Units of a kind. -/
def unitsOf : SourceKind → Nat
  | .ring => 1024
  | .slice => 16
  | .grove => 4
  | .module => 0
  | .bench => 512
  | .stack | .package => 12
  | .edge => 10
  | .edgeRole => 160
  | .window => 256
  | .port => 72
  | .outbound => 16
  | .hart => 64

/-- SELECT is in range for a source: a unit of its kind, or 0xFFFF (R470). -/
def selectOk (source select : Nat) : Bool := select == 0xFFFF || decide (select < unitsOf (sourceOf source).2)

/-- The grove whose unit a channel watches, when it watches one unit of a grove. -/
def watchedGrove (c : Channel) : Option Nat :=
  if c.select = 0xFFFF then none
  else match (sourceOf c.source).2 with
    | .ring => some (c.select / 256)
    | .slice => some (c.select / 4)
    | .grove => some c.select
    | .bench => some (benchGrove c.select)
    | .stack => some (c.select / 3)
    | _ => none

/-- A channel, and with a change. -/
def channelOf (s : State) (ch : Nat) : Channel := s.scaler.channels.get {} ch
def updChannel (ch : Nat) (f : Channel → Channel) (s : State) : State :=
  { s with scaler := { s.scaler with channels := s.scaler.channels.update {} ch f } }

/-- A capture in progress, or about to be. -/
def Channel.busy (c : Channel) : Bool := decide (c.state = .armed) || decide (c.state = .running)

/-- Whether ARM is refused (R472). -/
def armRefused (time : Nat) (c : Channel) : Bool :=
  decide (47 < c.source) || !selectOk c.source c.select || decide (c.stop ≤ c.start) || decide (c.stop ≤ time)

/-- A channel that begins to run (R472). -/
def runChannel (f : FabricBlock) (c : Channel) : Channel := { c with state := .running, unsync := timeUnsyncFlag f }

/-- A channel's statistics cleared. -/
def clearStats (c : Channel) : Channel :=
  { c with refused := false, dropped := 0, min := 0, max := 0, count := 0, sum := 0, bins := {}, lastSample := none, unsync := false }

/-- ARM (R472). -/
def armChannel (f : FabricBlock) (c : Channel) : Channel :=
  if c.busy then c
  else if armRefused f.time c then { c with refused := true }
  else
    let c1 := { clearStats c with state := .armed }
    if c.start ≤ f.time then runChannel f c1 else c1

/-- A capture ends: the channel becomes done and sets its bit in SCALER_DONE (R472). -/
def endCapture (ch : Nat) (s : State) : State :=
  if (channelOf s ch).busy then
    let s1 := updChannel ch (fun c => { c with state := .done }) s
    { s1 with scaler := { s1.scaler with done := s1.scaler.done ||| BitVec.ofNat 16 (2 ^ ch) } }
  else s

/-- A write of SC_CTL: ARM, then ABORT (log 41). -/
def scCtlWrite (ch : Nat) (v : W64) (s : State) : State :=
  let s1 := if v.toNat.testBit 0 then updChannel ch (armChannel s.fabric) s else s
  if v.toNat.testBit 1 then endCapture ch s1 else s1

/-- Writes of SC_CFG, SC_PERIOD, SC_START, SC_STOP: not while the channel is armed or running (R472). -/
def scIdleWrite (ch : Nat) (f : Channel → Channel) (s : State) : State := updChannel ch (fun c => if c.busy then c else f c) s
def scCfgWrite (ch : Nat) (v : W64) (s : State) : State :=
  let n := v.toNat
  scIdleWrite ch (fun c => { c with
    base := bitsOf n 63 32, select := bitsOf n 31 16, shift := bitsOf n 13 8, logarithmic := n.testBit 7, source := bitsOf n 5 0 }) s
def scPeriodWrite (ch : Nat) (v : W64) (s : State) : State :=
  let p := bitsOf v.toNat 15 0
  scIdleWrite ch (fun c => if p = 0 then c else { c with periodUs := p }) s
def scStartWrite (ch : Nat) (v : W64) (s : State) : State := scIdleWrite ch (fun c => { c with start := v.toNat }) s
def scStopWrite (ch : Nat) (v : W64) (s : State) : State := scIdleWrite ch (fun c => { c with stop := v.toNat }) s

/-- A write of SCALER_DONE: 1 clears a bit. -/
def scalerDoneWrite (v : W64) (s : State) : State :=
  { s with scaler := { s.scaler with done := s.scaler.done &&& ~~~ BitVec.ofNat 16 (bitsOf v.toNat 15 0) } }

/-- The bin of a sample (R471). -/
def binOf (c : Channel) (v : Nat) : Nat :=
  if c.logarithmic then
    if v < 2 ^ c.shift then 0 else min 63 (Nat.log2 (v / 2 ^ c.shift) + 1)
  else if v < c.base then 0 else min 63 ((v - c.base) / 2 ^ c.shift)

/-- A sample taken into the statistics (R471). -/
def takeSample (now v : Nat) (c : Channel) : Channel :=
  { c with
    min := if c.count = 0 then v else min c.min v
    max := max c.max v
    count := satAdd 64 c.count 1
    sum := satAdd 64 c.sum v
    bins := c.bins.update 0 (binOf c v) fun n => satAdd 64 n 1
    lastSample := some now }

/-- Whether the source of a channel gives a sample now: a level only at its period (R470), no unit of a grove under reset (R474). -/
def sampleDue (s : State) (c : Channel) : Bool :=
  (!(sourceOf c.source).1 || s.fabric.time % (c.periodUs * 1000) == 0) &&
  !(watchedGrove c).any fun g => (s.groveResets.get {} g).busy

/-- A sample of a running channel (R471): left out within 2 ns of the one before. -/
def sampleChannel (s : State) (v : Nat) (c : Channel) : Channel :=
  if c.lastSample.any fun t => decide (s.now < t + 2) then { c with dropped := satAdd 32 c.dropped 1 }
  else takeSample s.now (v % 2 ^ 64) c

/-- SCALER_ARM: a write of SC_CTL (R472). -/
def execScalerArm (ch : Nat) (v : W64) (s : State) : Answer := if inService s ∧ ch < 16 then .next (scCtlWrite ch v s) else .next s

/-- SCALER_ABORT (R472). -/
def execScalerAbort (ch : Nat) (s : State) : Answer := .next (if ch < 16 then endCapture ch s else s)

/-- SCALER_CAPTURE_START: fabric time reaches SC_START (R472). -/
def execScalerCaptureStart (ch : Nat) (s : State) : Answer :=
  .next (updChannel ch (fun c => if c.state = .armed then runChannel s.fabric c else c) s)

/-- A channel whose source gives a sample (R470, R471); an armed one whose start has passed begins with it. -/
def sourceSample (s : State) (v : Nat) (c : Channel) : Channel :=
  let c1 := if c.state = .armed ∧ c.start ≤ s.fabric.time then runChannel s.fabric c else c
  if c1.state = .running ∧ s.fabric.time < c1.stop ∧ sampleDue s c1 then sampleChannel s v c1 else c1

/-- An event of a source of kind module: every channel that watches it takes a sample (R470). -/
def scalerEvent (source v : Nat) (s : State) : State :=
  { s with scaler := { s.scaler with channels := s.scaler.channels.mapListed {} fun _ c => if c.source = source then sourceSample s v c else c } }

/-- SCALER_CAPTURE_STOP: fabric time reaches SC_STOP (R472). -/
def execScalerCaptureStop (ch : Nat) (s : State) : Answer := .next (if ch < 16 then endCapture ch s else s)

end Sys2Proof.Machine
end

