-- ==== Sys2Proof/Machine/Translate.lean ====
section
/-!
DEFINITION. Machine/Translate.lean: the translation unit: Sv48 walks, the translation caches, fault batches (R289–R299), the grove
operand cache (R303, R329), and reads and writes of engines at virtual addresses.
-/

namespace Sys2Proof.Machine

/-! ### Leaf entries -/

/-- The first batch-fault condition of a leaf entry for an access, in the order of R294. -/
def leafCause (pte : Nat) (write : Bool) : Option Nat :=
  if !bitOf pte 0 then some 1
  else if !bitOf pte 4 then some 6
  else if write && !bitOf pte 2 then some 3
  else if !write && !bitOf pte 1 then some 2
  else if !bitOf pte 6 then some 4
  else if write && !bitOf pte 7 then some 5
  else none

/-- PPN of an entry. -/
def ptePpn (pte : Nat) : Nat := bitsOf pte 53 10

/-- A leaf: R or X set. -/
def pteLeaf (pte : Nat) : Bool := bitOf pte 1 || bitOf pte 3

/-- Whether a valid entry at a level is malformed (R290; a reserved bit of a non-leaf entry counts as one, log 18). -/
def pteMalformed (pte level : Nat) : Bool :=
  (bitOf pte 2 && !bitOf pte 1) || bitsOf pte 60 54 != 0 || decide (2 ^ 40 ≤ ptePpn pte) ||
  if pteLeaf pte then
    if bitOf pte 63 then level != 0 || bitsOf (ptePpn pte) 3 0 != 8
    else ptePpn pte % 2 ^ (9 * level) != 0
  else level == 0 || bitOf pte 63 || bitOf pte 4 || bitOf pte 6 || bitOf pte 7

/-- 4 KiB pages a leaf covers (R291). -/
def leafPages (pte level : Nat) : Nat := if bitOf pte 63 then 16 else 2 ^ (9 * level)

/-- The physical address a cached leaf gives a virtual address. -/
def leafPa (e : TlbEntry) (v : Nat) : Nat :=
  let base := if bitOf e.pte 63 then ptePpn e.pte / 16 * 16 else ptePpn e.pte
  base * 4096 + (v - e.vpn * 4096)

/-- Whether a cached leaf maps an address of a context. -/
def leafMaps (e : TlbEntry) (context v : Nat) : Bool :=
  e.context == context && decide (e.vpn ≤ v / 4096 ∧ v / 4096 < e.vpn + e.pages)

/-! ### Walks -/

/-- How a walk ends: a leaf that permits the access, a batch fault, or an immediate failure (R290, R294). -/
inductive WalkEnd where
  | leaf (pte level : Nat)
  | batch (cause level : Nat)
  | failed (code : W16) (pa : Nat)
deriving DecidableEq, Repr

/-- A read by the walker for a context: of a page table or of the context table (R287, R289, R290); none is 0x5102. -/
def walkRead (context pa : Nat) (s : State) : Option Nat × State :=
  let a := fireInjection 0x5102 (fun l => l == context && !isSealed s context) s
  if a.1 then (none, fired 0x5102 a.2)
  else if !rangeNearOrBulk pa 8 then (none, a.2)
  else match physRead { agent := .transUnit, context := 1 } pa 8 a.2 with
    | (.done bs, t) => (some (natOfBytes bs), t)
    | (_, t) => (none, t)

/-- The prefix of an address that a non-leaf entry at a level covers. -/
def walkPrefix (v level : Nat) : Nat := v / 2 ^ (12 + 9 * level)

/-- The deepest non-leaf entry of the walk cache for an address. -/
def walkCached (tu : TuBlock) (context v : Nat) : Option WalkEntry :=
  firstSome (fun level => tu.walkCache.find? fun e =>
    e.context == context && e.level == level && e.vpnPrefix == walkPrefix v level) [1, 2, 3]

/-- A non-leaf entry kept, the oldest of more than 1,024 dropped (R291; log 5). -/
def keepWalk (e : WalkEntry) (tu : TuBlock) : TuBlock :=
  { tu with walkCache := (e :: tu.walkCache.filter fun x => x != e).take 1024 }

/-- A walk from the table of level `n − 1` on. -/
def walkFrom (context v : Nat) (write : Bool) : Nat → Nat → State → WalkEnd × State
  | 0, table, s => (.failed 0x5102 table, s)
  | n + 1, table, s =>
    let a := table + bitsOf v (20 + 9 * n) (12 + 9 * n) * 8
    match walkRead context a s with
    | (none, t) => (.failed 0x5102 a, t)
    | (some pte, t) =>
      if !bitOf pte 0 then (.batch 1 n, t)
      else if pteMalformed pte n then (.failed 0x5102 a, t)
      else if pteLeaf pte then
        match leafCause pte write with
        | some c => (.batch c n, t)
        | none => (.leaf pte n, t)
      else walkFrom context v write n (ptePpn pte * 4096) { t with tu := keepWalk ⟨context, n, walkPrefix v n, pte⟩ t.tu }

/-- The root table of a context (R289). -/
def contextRoot (context : Nat) (s : State) : Except (W16 × Nat) Nat × State :=
  let pa := s.tu.ctxBase + 16 * context
  match walkRead context pa s with
  | (none, t) => (.error (0x5102, pa), t)
  | (some w, t) => (if bitsOf w 63 60 = 9 then .ok (bitsOf w 43 0 * 4096) else .error (0x5103, 0), t)

/-- A page-table walk (R290, R291): counted, begun at the deepest cached level. -/
def walk (context v : Nat) (write : Bool) (s0 : State) : WalkEnd × State :=
  let s := { s0 with tu := { s0.tu with walks := wrapAdd 64 s0.tu.walks 1 } }
  match walkCached s.tu context v with
  | some e => walkFrom context v write e.level (ptePpn e.pte * 4096) s
  | none => match contextRoot context s with
    | (.error e, t) => (.failed e.1 e.2, t)
    | (.ok root, t) => walkFrom context v write 4 root t

/-! ### Translation caches -/

/-- A leaf put into a grove's cache and the shared one, the oldest beyond 4,096 and 32,768 dropped (R291; log 5). -/
def keepLeaf (grove : Option Nat) (e : TlbEntry) (tu : TuBlock) : TuBlock :=
  let mine (x : TlbEntry) : Bool := x.grove == grove
  match grove with
  | some g =>
    { tu with groveCache := ({ e with grove := some g } :: tu.groveCache.filter mine).take 4096 ++
                tu.groveCache.filter fun x => !mine x }
  | none => { tu with sharedCache := ({ e with grove := none } :: tu.sharedCache).take 32768 }

/-- The cached leaf of a grove for an address. -/
def groveLeaf (tu : TuBlock) (g context v : Nat) : Option TlbEntry :=
  tu.groveCache.find? fun e => e.grove == some g && leafMaps e context v

/-- The shared cached leaf for an address. -/
def sharedLeaf (tu : TuBlock) (context v : Nat) : Option TlbEntry := tu.sharedCache.find? fun e => leafMaps e context v

/-- A grove entry, or a shared entry, dropped. -/
def dropGroveLeaf (e : TlbEntry) (tu : TuBlock) : TuBlock := { tu with groveCache := tu.groveCache.filter fun x => x != e }
def dropSharedLeaf (e : TlbEntry) (tu : TuBlock) : TuBlock := { tu with sharedCache := tu.sharedCache.filter fun x => x != e }

/-- A usable leaf of the shared cache, kept for the grove too: one that does not permit the access is dropped (R294), and one whose line
an armed 0x9304 point names (R466). -/
def sharedHit (g context v : Nat) (write : Bool) (s : State) : Option TlbEntry × State :=
  match sharedLeaf s.tu context v with
  | none => (none, s)
  | some e =>
    let base := leafPa e (e.vpn * 4096)
    let f := fireInjection 0x9304 (fun l => decide (base ≤ l ∧ l < base + e.pages * 4096) && !isSealed s context) s
    if f.1 then
      (none, report { code := 0x9304, source := srcModule s, address := BitVec.ofNat 64 base, injected := true }
        { f.2 with tu := dropSharedLeaf e f.2.tu })
    else if (leafCause e.pte write).isNone then (some e, { f.2 with tu := keepLeaf (some g) e f.2.tu })
    else (none, { f.2 with tu := dropSharedLeaf e f.2.tu })

/-- A usable leaf of the caches; the grove's entry that does not permit the access is dropped, and the tables are walked again (R294). -/
def cachedLeaf (g context v : Nat) (write : Bool) (s : State) : Option TlbEntry × State :=
  match groveLeaf s.tu g context v with
  | some e => if (leafCause e.pte write).isNone then (some e, s) else (none, { s with tu := dropGroveLeaf e s.tu })
  | none => sharedHit g context v write s

/-! ### Fault batches -/

/-- The slot numbers in use. -/
def slotsUsed (tu : TuBlock) : List Nat :=
  (match tu.openBatch with
   | some b => [b.slot]
   | none => []) ++ tu.delivered.map (·.slot)

/-- The lowest free slot (R297). -/
def freeSlot (tu : TuBlock) : Option Nat := (List.range 8).find? fun i => !(slotsUsed tu).contains i

/-- Whether a fault is that of an entry: same context, page and CAUSE (R296). -/
def FaultEntry.isOf (h : HeldFault) (e : FaultEntry) : Bool := e.context == h.context && e.page == h.page && e.cause == h.cause

/-- Whether an entry's ACCESS covers a new access. -/
def FaultEntry.covers (h : HeldFault) (e : FaultEntry) : Bool := if h.waiter.write then e.write else e.read

/-- A join to an entry of the open batch (R296). -/
def FaultEntry.join (h : HeldFault) (e : FaultEntry) : FaultEntry :=
  { e with
    waiters := e.waiters ++ [h.waiter]
    tags := if e.tags.length < 6 then e.tags ++ [h.waiter] else e.tags
    read := e.read || !h.waiter.write
    write := e.write || h.waiter.write }

/-- A new entry. -/
def newEntry (h : HeldFault) : FaultEntry :=
  { page := h.page, context := h.context, cause := h.cause, level := h.level, read := !h.waiter.write, write := h.waiter.write,
    waiters := [h.waiter], tags := [h.waiter] }

/-- The first entry of a list that a test names, changed. -/
def changeFirst {α : Type} (p : α → Bool) (f : α → α) : List α → List α
  | [] => []
  | a :: as => if p a then f a :: as else a :: changeFirst p f as

/-- SOURCE code of a waiter tag (R295). -/
def tagSourceCode : TagSource → Nat
  | .movePort => 1 | .dresserPort => 2 | .tally => 3

/-- A waiter tag as a word (R295). -/
def tagWord (w : FaultWaiter) : Nat :=
  (tagSourceCode w.source <<< 60) + (w.ring <<< 50) + ((if w.source = .tally then 0 else w.bench) <<< 32) + w.seq % 2 ^ 32

/-- A fault batch entry as its 64 bytes (R295). -/
def entryBytes (e : FaultEntry) : List Byte :=
  bytesOfNat 8 (signExtend48 (e.page * 4096)) ++ bytesOfNat 2 e.context ++ bytesOfNat 1 e.cause ++
  bytesOfNat 1 (bitNat e.read + 2 * bitNat e.write) ++ bytesOfNat 2 (min e.waiters.length 0xFFFF) ++ bytesOfNat 1 e.level ++ [0] ++
  (List.range 6).flatMap fun i => bytesOfNat 8 ((e.tags.map tagWord).getD i 0)

/-- CLOSE_REASON (R295). -/
def closeCode : CloseReason → Nat
  | .count => 1 | .time => 2 | .flush => 3

/-- The translation unit writes its slot (R287: context 0x0001). -/
def slotWrite (pa : Nat) (bs : List Byte) (s : State) : State := (physWrite { agent := .transUnit, context := 1 } pa bs s).2

/-- The open batch closes (R297): entries, header and zeroed RESPONSE bytes written, the slot delivered, one MSI sent; a sample of
Scaler source 17 (R470). -/
def closeBatch (reason : CloseReason) (s : State) : State :=
  match s.tu.openBatch with
  | none => s
  | some b =>
    let base := s.tu.fbBase + b.slot * 0x8000
    let n := s.tu.nextSequence
    let s1 := slotWrite base (b.entries.flatMap entryBytes) s
    let s2 := slotWrite (base + 0x4100) (bytesOfNat 8 n ++ bytesOfNat 2 b.entries.length ++ bytesOfNat 1 (closeCode reason)) s1
    let s3 := slotWrite (base + 0x4000) (List.replicate 256 0) s2
    scalerEvent 17 b.entries.length { s3 with
      tu := { s3.tu with
        openBatch := none
        nextSequence := n + 1
        delivered := s3.tu.delivered ++ [{ b with sequence := n, deliveredAt := s.now }] }
      landing := if s3.tu.msiAddress = 0 then s3.landing else deliverMsi s3.tu.msiAddress s3.tu.msiEiid s3.landing }

/-- A batch fault enters (R296, R297): it joins where it may, else takes a new entry, else waits unentered. -/
def enterFault (h : HeldFault) (s : State) : State :=
  let tu := s.tu
  let openHas := match tu.openBatch with
    | some b => b.entries.any (FaultEntry.isOf h)
    | none => false
  let joins (e : FaultEntry) : Bool := e.isOf h && e.covers h
  if openHas then
    { s with tu := { tu with openBatch := tu.openBatch.map fun b =>
        { b with entries := changeFirst (FaultEntry.isOf h) (FaultEntry.join h) b.entries } } }
  else if tu.delivered.any fun b => b.entries.any joins then
    let add (b : FaultBatch) : FaultBatch :=
      { b with entries := changeFirst joins (fun e => { e with waiters := e.waiters ++ [h.waiter] }) b.entries }
    { s with tu := { tu with delivered := changeFirst (fun b => b.entries.any joins) add tu.delivered } }
  else match tu.openBatch with
    | some b =>
      let s1 := { s with tu := { tu with openBatch := some { b with entries := b.entries ++ [newEntry h] } } }
      if 255 ≤ b.entries.length then closeBatch .count s1 else s1
    | none => match freeSlot tu with
      | some i => { s with tu := { tu with openBatch := some { slot := i, openedAt := s.now, entries := [newEntry h] } } }
      | none => { s with tu := { tu with held := tu.held ++ [h] } }

/-- The faults that waited for a free slot enter once one is free (R297). -/
def enterHeld (s : State) : State :=
  let hs := s.tu.held
  hs.foldl (fun s h => enterFault h s) { s with tu := { s.tu with held := [] } }

/-- SOURCE of an engine's tag. -/
def tagSourceOf : Agent → TagSource
  | .movePort => .movePort
  | .dresserPort => .dresserPort
  | _ => .tally

/-- The waiter of a requester. -/
def faultWaiterOf (q : Requester) (write : Bool) : FaultWaiter :=
  { source := tagSourceOf q.agent, ring := q.ring, bench := q.bench, seq := q.seq, write := write, descriptor := q.descriptor }

/-! ### Translation -/

/-- Whether an engine access may go to a physical address (R292); a FLASH_WRITE may write flash (R276). -/
def engineServed (pa : Nat) (write flashWrite : Bool) : Bool :=
  match regionOf pa with
  | .near | .bulk | .aperture => true
  | .flash => !write || flashWrite
  | _ => false

/-- A leaf used for an access. -/
def useLeaf (e : TlbEntry) (v : Nat) (write flashWrite : Bool) (s : State) : Reply Nat × State :=
  let pa := leafPa e v
  if engineServed pa write flashWrite then (.done pa, s) else (.fail 0x5105 pa, s)

/-- The translation of an engine access within one 4 KiB page (R289–R294, R299). -/
def translate (q : Requester) (va : Nat) (write : Bool) (s : State) (flashWrite : Bool := false) : Reply Nat × State :=
  let v := va % 2 ^ 48
  if !s.tu.ctxEnable || decide (q.context < 1 ∨ 0xFFEF < q.context) then (.fail 0x5103 0, s)
  else match cachedLeaf q.grove q.context v write s with
    | (some e, t) => useLeaf e v write flashWrite t
    | (none, t) => match walk q.context v write t with
      | (.failed c pa, u) => (.fail c pa, u)
      | (.batch cause level, u) =>
        if !u.tu.fbEnable then (.fail 0x5106 0, u)
        else if q.quiet then (.wait, u)
        else (.wait, enterFault ⟨v / 4096, q.context, cause, level, faultWaiterOf q write⟩ u)
      | (.leaf pte level, u) =>
        let n := leafPages pte level
        let e : TlbEntry := ⟨some q.grove, q.context, v / 4096 / n * n, n, pte⟩
        useLeaf e v write flashWrite { u with tu := keepLeaf (some q.grove) e (keepLeaf none e u.tu) }

/-! ### The grove operand cache -/

/-- The line of a grove's operand cache that serves a context (R303); no task reads a tentative one (R324). -/
def opLineOf (s : State) (g line context : Nat) : Option OpLine :=
  s.opLines.find? fun l => l.grove == g && l.line == line && l.context == context && l.tentative.isNone

/-- A line kept; the oldest of more than 65,536 of the grove is replaced (R329; log 5). -/
def keepOpLine (l : OpLine) (s : State) : State :=
  let mine (x : OpLine) : Bool := x.grove == l.grove
  { s with opLines := (l :: s.opLines.filter fun x => mine x && x.line != l.line).take 65536 ++ s.opLines.filter fun x => !mine x }

/-- The line refetched: read whole and kept. -/
def fillOpLine (q : Requester) (line : Nat) (s : State) : Reply (List Byte) × State :=
  Reply.andThen (placeRead q (line * 512) 512 s) fun bs t => (.done bs, keepOpLine ⟨q.grove, line, q.context, bs, q.tentative⟩ t)

/-- A read of one line through the operand cache: a hit returns the data as filled (R329); an uncorrectable line is dropped and
refetched (R451, R466). -/
def opLineRead (q : Requester) (line : Nat) (s : State) : Reply (List Byte) × State :=
  match opLineOf s q.grove line q.context with
  | none => fillOpLine q line s
  | some l =>
    let f := fireInjection 0x3902 (fun a => a / 512 == line && !isSealed s q.context) s
    if f.1 then
      fillOpLine q line (report { code := 0x3902, source := srcGrove s q.grove, address := BitVec.ofNat 64 (line * 512), injected := true }
        { f.2 with opLines := f.2.opLines.filter fun x => x != l })
    else (.done l.data, f.2)

/-- Lines read one after the other. -/
def opLinesRead (q : Requester) : List Nat → State → Reply (List Byte) × State
  | [], s => (.done [], s)
  | l :: ls, s => Reply.andThen (opLineRead q l s) fun bs t => Reply.andThen (opLinesRead q ls t) fun r u => (.done (bs ++ r), u)

/-- A read of a physical range within one page: a move port reads through its grove's operand cache, for the Dresser too (R189, R329). -/
def engineAt (q : Requester) (pa n : Nat) (s : State) : Reply (List Byte) × State :=
  if q.agent = .movePort ∨ q.cached then
    Reply.andThen (opLinesRead q (blocksOf 512 pa n) s) fun bs t => (.done (sliceBytes bs (pa % 512) n), t)
  else placeRead q pa n s

/-! ### Reads and writes at virtual addresses -/

/-- The pieces of a virtual range, each within one 4 KiB page (R293). -/
def pagePieces (va n : Nat) : List (Nat × Nat) := piecesOf 4096 va n

/-- An access of an engine: its virtual address and length, and whether it writes. -/
structure EngineOp where
  va : Nat
  len : Nat
  write : Bool
deriving DecidableEq, Repr

/-- Whether an accepted piece is one of an access of a requester. -/
def AcceptedPiece.isOf (q : Requester) (x : EngineOp) (p : AcceptedPiece) : Bool :=
  p.waiter == q.waiter && p.context == q.context && p.va == x.va && p.len == x.len && p.write == x.write

/-- The accepted piece of an access that begins at an address (R300). -/
def acceptedPiece (s : State) (q : Requester) (x : EngineOp) (a : Nat) : Option AcceptedPiece :=
  s.tu.accepted.find? fun p => p.isOf q x && p.at_ == a

/-- The pieces of an access kept while it waits; with its end they go. -/
def keepPieces (q : Requester) (x : EngineOp) (ps : List AcceptedPiece) (s : State) : State :=
  if q.quiet then s else { s with tu := { s.tu with accepted := (s.tu.accepted.filter fun p => !p.isOf q x) ++ ps } }

/-- An accepted piece of an access at an address. -/
def pieceAt (q : Requester) (x : EngineOp) (a pa : Nat) (data : Option (List Byte)) (old : Option AcceptedPiece) : AcceptedPiece :=
  { waiter := q.waiter, context := q.context, va := x.va, len := x.len, write := x.write, at_ := a, pa := pa, data := data
    holds := (old.map (·.holds)).getD [] }

/-- The address a piece of an access goes to: the one it was translated to before it came to wait, else a translation (R300). -/
def pieceTarget (q : Requester) (x : EngineOp) (a : Nat) (s : State) : Reply Nat × State :=
  match acceptedPiece s q x a with
  | some p => (.done p.pa, s)
  | none => translate q a x.write s

/-- Pieces read in order, those done before a wait not again; `done` are the pieces read so far. -/
def readPieces (q : Requester) (x : EngineOp) : List (Nat × Nat) → List AcceptedPiece → State → Reply (List Byte) × State
  | [], done, s => (.done (done.flatMap fun p => p.data.getD []), keepPieces q x [] s)
  | (a, n) :: ps, done, s =>
    match (acceptedPiece s q x a).filter fun p => p.data.isSome with
    | some p => readPieces q x ps (done ++ [p]) s
    | none => match pieceTarget q x a s with
      | (.wait, t) => (.wait, keepPieces q x done t)
      | (.fail c pa, t) => (.fail c pa, keepPieces q x [] t)
      | (.done pa, t) => match engineAt q pa n t with
        | (.wait, u) => (.wait, keepPieces q x (done ++ [pieceAt q x a pa none (acceptedPiece s q x a)]) u)
        | (.fail c e, u) => (.fail c e, keepPieces q x [] u)
        | (.done bs, u) => readPieces q x ps (done ++ [pieceAt q x a pa (some bs) none]) u

/-- A read of an engine at a virtual address. -/
def engineRead (q : Requester) (va n : Nat) (s : State) : Reply (List Byte) × State :=
  readPieces q ⟨va, n, false⟩ (pagePieces va n) [] s

/-- Pieces translated before any of them is written. -/
def translatePieces (q : Requester) (write : Bool) : List (Nat × Nat) → State → Reply (List Nat) × State
  | [], s => (.done [], s)
  | (a, _) :: ps, s =>
    Reply.andThen (translate q a write s) fun pa t =>
      Reply.andThen (translatePieces q write ps t) fun r u => (.done (pa :: r), u)

/-- The places an access writes to: those it was translated to before it came to wait, else translations of every piece (R300). -/
def writeTargets (q : Requester) (x : EngineOp) (ps : List (Nat × Nat)) (s : State) : Reply (List Nat) × State :=
  if ps.all fun p => (acceptedPiece s q x p.1).isSome then (.done (ps.filterMap fun p => (acceptedPiece s q x p.1).map (·.pa)), s)
  else translatePieces q true ps s

/-- Whether a write at a physical address is posted (R321). -/
def placePosted (s : State) (q : Requester) (pa : Nat) : Bool :=
  match regionOf pa with
  | .aperture => writePosted s q true (pa - apertureBase)
  | _ => writePosted s q false pa

/-- Pieces of a write of which one has failed: the posted ones take their place, or are recorded (R321). -/
def writePostedPieces (q : Requester) : List (Nat × Nat × Nat) → List Byte → State → State
  | [], _, s => s
  | (_, pa, n) :: ps, bs, s =>
    writePostedPieces q ps (bs.drop n) (if placePosted s q pa then (placeWrite q pa (bs.take n) s).2 else s)

/-- Translated pieces written in order, each with its part of the bytes, those written before a wait not again. -/
def writePieces (q : Requester) (x : EngineOp) : List (Nat × Nat × Nat) → List AcceptedPiece → List Byte → State → Reply Unit × State
  | [], _, _, s => (.done (), keepPieces q x [] s)
  | (a, pa, n) :: ps, done, bs, s =>
    let old := acceptedPiece s q x a
    if old.any fun p => p.data.isSome then writePieces q x ps (done ++ [pieceAt q x a pa (some []) none]) (bs.drop n) s
    else match placeWrite q pa (bs.take n) s with
      | (.done _, t) => writePieces q x ps (done ++ [pieceAt q x a pa (some []) none]) (bs.drop n) t
      | (.wait, t) => (.wait, keepPieces q x
          (done ++ pieceAt q x a pa none old :: ps.map fun p => pieceAt q x p.1 p.2.1 none (acceptedPiece s q x p.1)) t)
      | (.fail c e, t) => (.fail c e, keepPieces q x [] (writePostedPieces q ps (bs.drop n) t))

/-- A write of an engine at a virtual address: every piece is translated, then every piece is written. -/
def engineWrite (q : Requester) (va : Nat) (bs : List Byte) (s : State) : Reply Unit × State :=
  let ps := pagePieces va bs.length
  let x : EngineOp := ⟨va, bs.length, true⟩
  Reply.andThen (writeTargets q x ps s) fun pas t =>
    writePieces q x ((ps.zip pas).map fun p => (p.1.1, p.2, p.1.2)) [] bs t

/-! ### Bench scratch -/

/-- Bytes of a bench's scratch. -/
def scratchRead (s : State) (bench off n : Nat) : List Byte := memRead s.scratch (bench * scratchSize + off) n

/-- Bytes written to a bench's scratch. -/
def scratchWrite (bench off : Nat) (bs : List Byte) (s : State) : State :=
  { s with scratch := memWrite s.scratch (bench * scratchSize + off) bs }

/-- A read at an address field (R147): scratch of the bench, or virtual memory. -/
def fieldRead (q : Requester) (a n : Nat) (s : State) : Reply (List Byte) × State :=
  if n = 0 then (.done [], s)
  else if addrScratch a then (.done (scratchRead s q.bench (addrOffset a) n), s)
  else engineRead q (addrOffset a) n s

/-- A write at an address field (R147). -/
def fieldWrite (q : Requester) (a : Nat) (bs : List Byte) (s : State) : Reply Unit × State :=
  if bs.isEmpty then (.done (), s)
  else if addrScratch a then (.done (), scratchWrite q.bench (addrOffset a) bs s)
  else engineWrite q (addrOffset a) bs s

/-! ### Answers -/

/-- A waiter resumes: its task, or its ring's descriptor read, runs on (R298). -/
def resumeWaiter (w : FaultWaiter) (s : State) : State :=
  if (findTask s w.ring w.seq).isSome then updTask w.ring w.seq (fun t => { t with blocked := false }) s
  else updRing w.ring (fun q => { q with readWaits := false }) s

/-- A read of staging that waited cannot be completed: the task ends when it is staged, its record with the physical address of the refusal
where there is one, else the address read (R149, R231); that of the descriptor itself faults the ring with 0x3103 (R225). -/
def failStaging (code : W16) (pa : Option Nat) (r : Nat) (s : State) : State :=
  let q := ringOf s r
  if q.descriptorWaits then failRing r 0x3103 (updRing r (fun q => { q with readWaits := false, descriptorWaits := false }) s)
  else updRing r (fun q => { q with readWaits := false, stageFails := some code, stageAddr := pa.getD q.stageAddr }) s

/-- A waiter ends with a code (R298, R299): its task fails, or its staging ends. -/
def failWaiter (code : W16) (w : FaultWaiter) (s : State) : State :=
  match findTask s w.ring w.seq with
  | some t => if t.phase = .failed then s else endWaiting t code 0 s
  | none => failStaging code none w.ring s

end Sys2Proof.Machine
end

