-- ==== Sys2Proof/Machine/Stage.lean ====
section
/-!
DEFINITION. Machine/Stage.lean: staging: what Tally reads and checks before it holds a task (R149, R164, R230, R231, R236, R249), and
what it then sees of the task's WAIT (R232, R233, R248).
-/

namespace Sys2Proof.Machine

/-- Whether a Dresser program stores to a tensor of memory outside scratch, or to the fabric (R249). -/
def vectorLeaves (d : VectorDesc) : Bool :=
  (numbered d.tensors).any fun p => d.program.any (storesTensor p.1) &&
    (p.2.kind == .fabric || (p.2.kind == .memory && !addrScratch p.2.address))

/-- Whether a task's fields break R249: it writes something other than Deck and shadow scratch. -/
def specWritesBad (h : Header) (b : TaskBody) : Bool :=
  (taskRuns true b).any (fun r => !inShadow r) ||
  match b with
  | .mat d => (d.epilogue.isNone && d.problems.any fun p => addrPresent p.cAddr && !addrScratch p.cAddr) ||
      (match d.epilogue with
       | some e => vectorLeaves e || (numbered e.tensors).any fun t => t.2.kind == .taskOutput && e.program.any (storesTensor t.1) &&
           d.problems.any fun p => addrPresent p.cAddr && !addrScratch p.cAddr
       | none => false)
  | .vector d => vectorLeaves d
  | .move d => d.dstHandle || d.op == .flashWrite || ((d.op == .copy || d.op == .fill) && !addrScratch d.dst)
  | .deck d => (d.op == .read && addrPresent d.data && !addrScratch d.data) || (addrPresent d.result && !addrScratch d.result)
  | .enqueue _ | .gate => !isBenchType h.type

/-! ### The target -/

/-- Where a staged task is to run (R28, R230): its role and present holder, or its home Tally. -/
structure StageTarget where
  role : Option Nat := none
  bench : Option Nat := none
  /-- The bench named, or the holder taken at staging (R230). -/
  named : Option Nat := none
  grove : Nat := 0
  slice : Nat := 0
deriving DecidableEq, Repr

/-- Staged tasks of a bench. -/
def stagedOn (s : State) (n : Nat) : Nat := (s.tasks.filter fun t => decide (t.phase = .staged) && t.bench == some n).length

/-- Benches of a cluster: sixteen, those of one half of a slice's (R40). -/
def clusterBenches (g c : Nat) : List Nat := (List.range 16).map (· + 128 * g + 16 * c)

/-- The role that a TARGET naming several benches takes among their holders: the one with the fewest staged tasks, then the lower role
number (R230). -/
def leastLoaded (s : State) (p : Nat) (benches : List Nat) : Option (Nat × Nat) :=
  benches.foldl (fun best n =>
    let e := roleOf s n
    match e.role with
    | some r =>
      if e.state = .active ∧ e.partition = some p then
        match best with
        | none => some (r, n)
        | some (br, bn) =>
          if stagedOn s n < stagedOn s bn ∨ (stagedOn s n = stagedOn s bn ∧ r < br) then some (r, n) else best
      else best
    | none => best) none

/-- Grove and slice of a holder, or of the home Tally (R236). -/
def placeOf (r : Nat) (role bench : Option Nat) : StageTarget :=
  match bench with
  | some n => { role := role, bench := bench, named := bench, grove := benchGrove n, slice := n % 128 / 32 }
  | none => { role := role, grove := homeGrove r, slice := r % 4 }

/-- The place of a TARGET that names several benches (R230). -/
def chooseRole (s : State) (r p : Nat) (h : Header) (benches : List Nat) : Except W16 StageTarget :=
  if !isBenchType h.type then .error 0x3003
  else match leastLoaded s p benches with
    | none => .error 0x1403
    | some (role, n) => .ok (placeOf r (some role) (some n))

/-- The checks of R231 on TARGET, and its place. -/
def resolveTarget (s : State) (r p : Nat) (h : Header) : Except W16 StageTarget :=
  match readUnitId (mladyth s) h.target with
  | none => .error 0x1402
  | some u =>
    if !namesModule (moduleIndex s) u.moduleIx then .error 0x3003
    else match u.place with
      | .bench n =>
        if !isBenchType h.type then .error 0x3003
        else if (roleOf s n).partition ≠ some p then .error 0x1403
        else match (roleOf s n).startRole with
          | none => .error 0x1405
          | some role => .ok { placeOf r (some role) (roleHolder s p role) with named := some n }
      | .grove g => chooseRole s r p h (grovesBenches g)
      | .cluster g c => chooseRole s r p h (clusterBenches g c)
      | .module => if isBenchType h.type then .error 0x3003 else .ok (placeOf r none none)
      | _ => .error 0x3003

/-! ### Reads of staging -/

/-- How staging ends: with a result, with a failure of the task (code, address, entry concerned), or waiting. -/
inductive StageEnd (α : Type) where
  | ok (a : α)
  | fail (code : W16) (addr detail : Nat)
  | wait (addr : Nat)
deriving DecidableEq, Repr

/-- Staging carried on. -/
def StageEnd.andThen {α β : Type} (r : StageEnd α × State) (f : α → State → StageEnd β × State) : StageEnd β × State :=
  match r with
  | (.ok a, s) => f a s
  | (.fail c a d, s) => (.fail c a d, s)
  | (.wait a, s) => (.wait a, s)

/-- Who reads at staging, and whether the task's role has no holder whose scratch it could read. -/
structure StageReader where
  requester : Requester
  noHolder : Bool
deriving DecidableEq, Repr

/-- The requester of staging reads: Tally for a ring, at the holder's scratch (R287). -/
def stageReader (s : State) (r : Nat) (tg : StageTarget) : StageReader :=
  { requester := { agent := .tally, context := (ringOf s r).context, grove := homeGrove r, ring := r, seq := (ringOf s r).head,
                   bench := tg.bench.getD 0 }
    noHolder := tg.bench.isNone }

/-- A code of a translation that cannot be completed, which leaves no physical address (R289–R299). -/
def translationCode (c : W16) : Bool := decide (0x5101 ≤ c.toNat ∧ c.toNat ≤ 0x5106)

/-- The address that the record of a refused staging read carries: the one read, in the space in which it was refused (R149). -/
def readAddr (c : W16) (a pa : Nat) : Nat := if translationCode c then addrOffset a else pa

/-- A read of staging; a refusal fails the task with its own code (R149). Scratch is that of the role's holder: with none, the task fails
as one that cannot issue (R28, R167). -/
def stageRead (q : StageReader) (a n : Nat) (s : State) : StageEnd (List Byte) × State :=
  if q.noHolder && addrScratch a then (.fail 0x1401 0 0, s)
  else match fieldRead q.requester a n s with
    | (.done bs, t) => (.ok bs, t)
    | (.fail c pa, t) => (.fail c (readAddr c a pa) 0, t)
    | (.wait, t) => (.wait (addrOffset a), t)

/-- A read that is made only when the descriptor names one. -/
def stageReadIf (q : StageReader) (r : Option (Nat × Nat)) (s : State) : StageEnd (List Byte) × State :=
  match r with
  | some (a, n) => stageRead q a n s
  | none => (.ok [], s)

/-- A check of a task type: a failure names the entry concerned, 0xFF for none (R449). -/
def stageCheck (c : Option CheckFailure) (s : State) : StageEnd Unit × State :=
  match c with
  | none => (.ok (), s)
  | some (code, i) =>
    let detailed := (decide (0x2110 ≤ code.toNat ∧ code.toNat ≤ 0x211B)) || decide (0x2310 ≤ code.toNat ∧ code.toNat ≤ 0x2317)
    (.fail code 0 (if detailed then i.getD 0xFF else 0), s)

/-- A VECTOR descriptor with its program and tensor table read and validated (R174, R197). -/
def stageVector (q : StageReader) (epilogue guard : Bool) (space : Option ExtentSpace) (bs : List Byte) (s : State) :
    StageEnd VectorDesc × State :=
  StageEnd.andThen (stageReadIf q (programRead bs) s) fun prog t =>
    StageEnd.andThen (stageReadIf q (tensorTableRead bs) t) fun tab u =>
      StageEnd.andThen (stageCheck (validateVector epilogue guard space bs prog tab) u) fun _ v =>
        (.ok (readVectorDesc bs prog tab), v)

/-- A MATMUL or SEMIRING task with its problem table and epilogue (R149, R164, R174). DESIGN CHOICE: the problem table is read before the
first check of R164, so a refused read of it is reported ahead of any of them (log 86). -/
def stageMat (q : StageReader) (semiring : Bool) (bs : List Byte) (s : State) : StageEnd TaskBody × State :=
  StageEnd.andThen (stageReadIf q (problemTableRead bs) s) fun table t =>
    let entries := problemEntries bs table
    StageEnd.andThen (stageCheck (validateMat semiring bs entries) t) fun _ u =>
      if fieldOf bs 0x27 1 = 1 then
        let d := readMatDesc bs entries none
        StageEnd.andThen (stageRead q (epilogueAddr bs) 128 u) fun eb v =>
          StageEnd.andThen (stageVector q true (hasVirtualInput d) (some (epilogueSpace d)) eb v) fun e w =>
            (.ok (.mat (readMatDesc bs entries (some e))), w)
      else (.ok (.mat (readMatDesc bs entries none)), u)

/-- The body of a task by its type, read and validated. -/
def stageBody (q : StageReader) (tg : StageTarget) (ty : TaskType) (bs : List Byte) (s : State) : StageEnd TaskBody × State :=
  let done (c : Option CheckFailure) (b : TaskBody) : StageEnd TaskBody × State :=
    StageEnd.andThen (stageCheck c s) fun _ t => (.ok b, t)
  match ty with
  | .matmul => stageMat q false bs s
  | .semiring => stageMat q true bs s
  | .vector => StageEnd.andThen (stageVector q false false none bs s) fun d t => (.ok (.vector d), t)
  | .move => done (validateMove bs) (.move (readMove bs))
  | .deck =>
    let u := s.decks.get {} tg.grove
    done (validateDeck (if u.enable then some u.pageLog2 else none) bs) (.deck (readDeck bs))
  | .enqueue => done (validateEnqueue bs) (.enqueue (readEnqueue bs))
  | .fenceWait | .fenceSignal | .barrier => done (validateGate bs) .gate

/-- The translation of a fence counter at staging (R231). -/
def stageCounter (q : StageReader) (a : Nat) (write : Bool) (s : State) : StageEnd (Option Nat) × State :=
  if a = 0 then (.ok none, s)
  else match translate q.requester a write s with
    | (.wait, t) => (.wait a, t)
    | (.fail c pa, t) => (.fail c (readAddr c a pa) 0, t)
    | (.done pa, t) => if nearOrBulk pa then (.ok (some pa), t) else (.fail 0x3203 pa 0, t)

/-- The header checks of R231 up to TARGET. -/
def headerCheck (bs : List Byte) : Option W16 :=
  if headerReserved bs then some 0x3001
  else if (taskTypeOfCode (fieldOf bs 0 1)).isNone then some 0x3002
  else none

/-- The header checks of R231 after TARGET. -/
def headerCheck2 (h : Header) : Option W16 :=
  if headerFencesBad h then some 0x3004 else if headerSpecBad h then some 0x3005 else none

/-- A check of staging by its code alone. -/
def stageCode (c : Option W16) (s : State) : StageEnd Unit × State :=
  match c with
  | some c => (.fail c 0 0, s)
  | none => (.ok (), s)

/-- The checks of R249 on a speculative task. -/
def specCheck (s : State) (p : Nat) (h : Header) (b : TaskBody) : Option W16 :=
  if !h.speculative then none
  else
    let g := groupOf s h.group
    if specWritesBad h b then some 0x3220
    else if g.state ≠ .free ∧ (g.waitAddr ≠ h.waitAddr ∨ g.waitTarget ≠ h.waitTarget) then some 0x3221
    else if g.state ≠ .free ∧ g.partition ≠ p then some 0x3222
    else none

/-- Everything staging reads and checks of a descriptor (R231, then the type's checks, then R249). -/
def stageChecks (r p : Nat) (bs : List Byte) (s : State) : StageEnd Task × State :=
  let h := readHeader bs
  let bare : Task := { ring := r, seq := (ringOf s r).head, header := h, body := .gate }
  StageEnd.andThen (stageCode (headerCheck bs) s) fun _ s1 =>
    match resolveTarget s1 r p h with
    | .error c => (.fail c 0 0, s1)
    | .ok tg =>
      let q := stageReader s1 r tg
      StageEnd.andThen (stageCode (headerCheck2 h) s1) fun _ s2 =>
        StageEnd.andThen (stageCounter q h.waitAddr false s2) fun wpa s3 =>
          StageEnd.andThen (stageCounter q h.signalAddr true s3) fun spa s4 =>
            StageEnd.andThen (stageBody q tg h.type bs s4) fun b s5 =>
              StageEnd.andThen (stageCode (specCheck s5 p h b) s5) fun _ s6 =>
                (.ok { bare with
                  body := b, partition := p, context := q.requester.context, role := tg.role, bench := tg.bench, named := tg.named
                  grove := tg.grove, slice := tg.slice, waitPa := wpa, signalPa := spa, waitDone := wpa.isNone, waitSince := s6.now }, s6)

/-! ### What Tally sees of a WAIT -/

/-- The state of a WAIT on a counter as a requester sees it, or the code of its refusal: poison (R232), or the stake (R303). -/
def waitSeen (s : State) (q : Requester) (pa target : Nat) : Except W16 WaitState :=
  match counterSeen q pa s with
  | .error c => .error c
  | .ok w => .ok (waitStateOf w target)

/-- A FENCE_WAIT whose WAIT has resolved completes (R243); any other task stays staged, its WAIT done, its tentative lines dropped
(R324). -/
def waitResolved (t : Task) (s : State) : State :=
  let s1 := dropTentative t.ring t.seq (updTask t.ring t.seq (fun t => { t with waitDone := true }) s)
  if t.header.type = .fenceWait then completeTask { t with waitDone := true } s1 else s1

/-- Tally looks at the counter a staged, non-speculative task waits on (R232, R233). -/
def observeTask (t : Task) (s : State) : State :=
  match t.waitPa with
  | none => s
  | some pa =>
    if t.waitDone then s
    else match waitSeen s (counterRequester t) pa t.header.waitTarget with
      | .error c => failTask t c s pa
      | .ok .aborted => failTask t 0x3202 s
      | .ok .resolved => waitResolved t s
      | .ok .unresolved => s

/-- Who looks at a group's guard: Tally, in the context of the task that opened the group (R248, R287). -/
def guardRequester (x : SpecGroup) : Requester := { agent := .tally, context := x.context }

/-- Tally looks at a group's guard (R248); members fail on a poisoned or refused one (R232, R303). -/
def observeGroup (g : Nat) (s : State) : State :=
  let x := groupOf s g
  if x.state ≠ .opened then s
  else match waitSeen s (guardRequester x) x.waitPa x.waitTarget with
    | .error c => match (groupMembers s g).find? fun t => decide (t.phase ≠ .failed) with
      | some t => failTask t c s x.waitPa
      | none => s
    | .ok .aborted => squashGroup g .squashedAbort s
    | .ok .resolved =>
      let s1 := { s with tasks := s.tasks.map fun t => if t.member && t.header.group == g then { t with waitDone := true } else t }
      confirmGroup g ((groupMembers s1 g).foldl (fun s t => dropTentative t.ring t.seq s) s1)
    | .ok .unresolved => s

/-- Every staged task and every open group that waits on a counter looks at it (R233). -/
def observeCounter (pa : Nat) (s : State) : State :=
  let ts := s.tasks.filter fun t => waitsItself s t && t.waitPa == some pa
  let s1 := ts.foldl (fun s t => match findTask s t.ring t.seq with
    | some t => observeTask t s
    | none => s) s
  let gs := (s1.groups.cells.filter fun c => decide (c.2.state = .opened) && c.2.waitPa == pa).map (·.1)
  gs.foldl (fun s g => observeGroup g s) s1

/-! ### Entering a task -/

/-- Entries of a slice in use, and those blocked in their WAIT (R236). -/
def sliceTasks (s : State) (g i : Nat) : List Task := s.tasks.filter fun t => t.grove == g && t.slice == i

/-- Whether a WAIT, by counter and target, is unresolved: Tally looks at the counter (R232, R236). -/
def counterBlocks (s : State) (q : Requester) (w : Option (Nat × Nat)) : Bool :=
  match w with
  | some w => match waitSeen s q w.1 w.2 with
    | .ok .unresolved => true
    | .ok .resolved | .ok .aborted | .error _ => false
  | none => false

/-- The WAIT in which a task that is to enter may be blocked: a member of an open group waits in none (R248). -/
def ownWait (t : Task) : Option (Nat × Nat) :=
  if t.waitDone || t.header.speculative then none else t.waitPa.map fun pa => (pa, t.header.waitTarget)

/-- Whether a slice has an entry for a task, blocked in its WAIT or not (R236); the Tally of a grove in reset takes none (R91). -/
def sliceRoom (s : State) (g i : Nat) (blocked : Bool) : Bool :=
  let ts := sliceTasks s g i
  !(s.groveResets.get {} g).busy && decide (ts.length < 1024) && (!blocked || decide ((ts.filter fun x => waitsItself s x).length < 768))

/-- Whether a slice has an entry for a task. -/
def sliceTakes (s : State) (t : Task) : Bool := sliceRoom s t.grove t.slice (counterBlocks s (counterRequester t) (ownWait t))

/-- The ring's HEAD passes the descriptor staged (R225). -/
def passHead (r : Nat) (s : State) : State :=
  updRing r (fun q => { q with
    head := q.head + 1, stageFails := none, stageAddr := 0, readWaits := false, descriptorWaits := false, sliceWait := none }) s

/-- A speculative task meets its group (R248): it opens it, joins it, runs as an ordinary task, or is squashed at once. -/
def joinGroup (t : Task) (s : State) : State :=
  let g := t.header.group
  match (groupOf s g).state with
  | .free =>
    let s1 := updGroup g (fun x => { x with
      state := .opened, partition := t.partition, waitAddr := t.header.waitAddr, waitPa := t.waitPa.getD 0
      waitTarget := t.header.waitTarget, context := t.context, holds := [], extended := [], deckPending := [], deferred := [] }) s
    observeGroup g { s1 with tasks := s1.tasks ++ [{ t with member := true }] }
  | .opened => observeGroup g { s with tasks := s.tasks ++ [{ t with member := true }] }
  | .confirming => { s with tasks := s.tasks ++ [{ t with member := true, waitDone := true }] }
  | .squashing => retireSquashed t { s with tasks := s.tasks ++ [t] }

/-! ### Running ahead (R238, R247, R324) -/

/-- The requester of a task's move port (R287). -/
def moveRequester (t : Task) (n : Nat) : Requester :=
  { agent := .movePort, context := t.context, grove := benchGrove n, ring := t.ring, seq := t.seq, bench := n }

/-- Bytes of memory at an address field, as (address, bytes); none in scratch. -/
def memoryRun (a n : Nat) : List (Nat × Nat) := if addrPresent a && !addrScratch a && decide (0 < n) then [(addrOffset a, n)] else []

/-- The runs of memory that a Dresser program reads over a space. -/
def vectorReads (d : VectorDesc) (sp : ExtentSpace) : List (Nat × Nat) :=
  (numbered d.tensors).flatMap fun p =>
    if p.2.kind = .memory ∧ d.program.any (fun i => [0x01, 0x04, 0x06, 0x08].contains i.opcode && instrTensor i == p.1) then
      memoryRun p.2.address (tensorExtent d.program sp p.1 p.2) ++
      (if isMx p.2.format then memoryRun p.2.scaleAddress (tensorScaleExtent d.program sp p.1 p.2) else [])
    else []

/-- The runs of memory that a task reads as its operands: those whose start preloading translates (R238), and whose ashlars running ahead
prefetches (R247). -/
def operandReads (b : TaskBody) : List (Nat × Nat) :=
  match b with
  | .mat d =>
    (d.problems.flatMap fun p => ((operandRuns d p).flatMap fun r => memoryRun r.1 r.2) ++ memoryRun p.initAddr (initBytes d p)) ++
    match d.epilogue with
    | some e => vectorReads e (epilogueSpace d)
    | none => []
  | .vector d => vectorReads d (ownSpace d)
  | .move d => if d.op = .copy ∨ d.op = .flashWrite then memoryRun d.src d.length else []
  | .deck d => if d.op = .write then memoryRun d.data (deckRun d) else []
  | .enqueue _ | .gate => []

/-- The operand bytes of the first output tile, as (address, bytes): the A and B panels of tile 0 over the whole of K (R152, R159). -/
def firstTileRuns (d : MatDesc) : List (Nat × Nat) :=
  d.problems.flatMap fun p =>
    ([(p.aElem, probKP d p * aPanelBytes d), (p.bElem, probKP d p * bPanelBytes d)].filter fun r =>
      addrPresent r.1 && !addrScratch r.1).map fun r => (addrOffset r.1, r.2)

/-- The ashlars of some runs, by virtual address. -/
def ashlarsIn (rs : List (Nat × Nat)) : List Nat := (rs.flatMap fun r => (blocksOf ashlarSize r.1 r.2).map (· * ashlarSize)).eraseDups

/-- The ashlars that preloading requests: up to 8 of the first output tile (R238). -/
def preloadAshlars (b : TaskBody) : List Nat :=
  match b with
  | .mat d => (ashlarsIn (firstTileRuns d)).take 8
  | .vector _ | .move _ | .deck _ | .enqueue _ | .gate => []

/-- Running ahead for a task: no fault is reported and no one waits; what a task fills before its WAIT has resolved is tentative, a member's
of an open group too, whose guard stands unresolved (R238, R324, R325). -/
def aheadRequester (t : Task) (n : Nat) : Requester :=
  { moveRequester t n with quiet := true, tentative := if t.waitDone then none else some (t.ring, t.seq) }

/-- Ashlars requested through the grove's operand cache. -/
def requestAshlars (q : Requester) (as : List Nat) (s : State) : State := as.foldl (fun s a => (engineRead q a ashlarSize s).2) s

/-- A task preloaded: the start of each operand run is translated and up to 8 ashlars are requested (R238). -/
def preloadTask (t : Task) (s : State) : State :=
  match t.bench with
  | some n =>
    requestAshlars (aheadRequester t n) (preloadAshlars t.body)
      ((operandReads t.body).foldl (fun s r => (translate (aheadRequester t n) r.1 false s).2) s)
  | none => s

/-- Tally runs ahead on a task while its WAIT, or its group's guard, is unresolved: it preloads the task and prefetches its ashlars (R247). -/
def runAheadOn (r seq : Nat) (s : State) : State :=
  match findTask s r seq with
  | some t => match t.bench with
    | some n =>
      if t.phase = .staged ∧ !t.waitDone ∧ !t.stopping then
        requestAshlars (aheadRequester t n) (ashlarsIn (operandReads t.body)) (preloadTask t s)
      else s
    | none => s
  | none => s

/-- The next task of a bench at work is chosen and preloaded (R238). -/
def preload (n : Nat) (s : State) : State :=
  let s1 := choosePreload n s
  match preloadedOf s n, preloadedOf s1 n with
  | none, some t => preloadTask t s1
  | _, _ => s1

/-- Every bench at work whose next task is not chosen has it chosen, whatever has let that task come next: a gate, a hold or a failure gone, a
ring that runs again, or the end of another task (R238). -/
def preloadBenches (s : State) : State := (s.benches.cells.map (·.1)).foldl (fun s n => preload n s) s

/-! ### Tasks enter -/

/-- A task that staging has accepted enters its slice; Tally looks at its WAIT (R232, R248), runs ahead on it while it is unresolved
(R247), and chooses the next task of a bench at work (R238). -/
def enterTask (t : Task) (s : State) : State :=
  let s1 := passHead t.ring s
  let s2 := if t.header.speculative then joinGroup t s1 else observeTask t { s1 with tasks := s1.tasks ++ [t] }
  let s3 := runAheadOn t.ring t.seq s2
  preloadBenches s3

/-- STATE of a task's target bench for the record of 0x1401 (R449). -/
def targetStateCode (s : State) (n : Nat) : Nat :=
  match (roleOf s n).state with
  | .idle => 0 | .active => 1 | .standby => 2 | .quarantined => 3

/-- A task whose role has no holder fails with 0x1401 (R28, R235): the record names the target as it stands (R449). -/
def failNoHolder (t : Task) (s : State) : State :=
  match t.named with
  | some n => failTask t 0x1401 s 0 0 (epochOf s n * 2 ^ 32) (targetStateCode s n)
  | none => failTask t 0x1401 s

/-- Whether a task that fails at staging is a member of its group, which its failure squashes (R248, R249). -/
def failsAsMember (s : State) (t : Task) (code : W16) : Bool :=
  (code == 0x3221 || code == 0x3222) && decide ((groupOf s t.header.group).state = .opened)

/-- A task that failed at staging: held as a failed task until it is acknowledged (R164, R242). -/
def enterFailed (t : Task) (code : W16) (addr detail : Nat) (s : State) : State :=
  let t' := { t with member := failsAsMember s t code }
  let s1 := { passHead t.ring s with tasks := s.tasks ++ [t'] }
  if code = 0x1401 then failNoHolder t' s1 else failTask t' code s1 addr detail

/-- The task a failing descriptor stands for: its header, and where its ring's Tally keeps it. -/
def failedShell (s : State) (r p : Nat) (bs : List Byte) : Task :=
  let tg := match headerCheck bs, resolveTarget s r p (readHeader bs) with
    | none, .ok tg => tg
    | _, _ => placeOf r none none
  { ring := r, seq := (ringOf s r).head, header := readHeader bs, body := .gate, partition := p, context := (ringOf s r).context,
    role := tg.role, bench := tg.bench, named := tg.named, grove := tg.grove, slice := tg.slice, waitSince := s.now }

/-- The SIGNAL counter of a task that fails at staging, for ABORT_ON_FAIL (R232), where it translates. -/
def shellSignal (t : Task) (s : State) : Task × State :=
  if t.header.abortOnFail ∧ t.header.signalAddr ≠ 0 ∧ t.header.signalAddr % 8 = 0 then
    let q := { (stageReader s t.ring (placeOf t.ring none none)).requester with seq := t.seq }
    match translate q t.header.signalAddr true s with
    | (.done pa, u) => ({ t with signalPa := if nearOrBulk pa then some pa else none }, u)
    | (_, _) => (t, s)
  else (t, s)

/-- Tasks of a ring staged and not issued (R237). -/
def stagedOf (s : State) (r : Nat) : Nat := (s.tasks.filter fun t => t.ring == r && decide (t.phase = .staged)).length

/-- Whether the slice that a ring's next descriptor found without an entry still has none for it (R236, R237). -/
def sliceFull (s : State) (q : Ring) : Bool :=
  match q.sliceWait with
  | some x => !sliceRoom s x.grove x.slice (counterBlocks s { agent := .tally, context := q.context } x.counter)
  | none => false

/-- Whether a ring waits for the staging of its next descriptor (R225, R237). -/
def wantsStage (s : State) (r : Nat) : Bool :=
  let q := ringOf s r
  ringExists s r && decide (q.status = .running) && decide (q.head < q.tail) && !q.readWaits && decide (stagedOf s r < 64) &&
  tallyRuns s (homeGrove r) && !sliceFull s q

/-- The ring last served in staging at a priority by a home grove. -/
def stageTurnOf (s : State) (g p : Nat) : Nat := s.stageTurns.get 1023 (g * 4 + p)

/-- Whether another ring of the same home grove is to be served before a ring: of a higher PRIORITY, or nearer its turn (R237). -/
def servedBefore (s : State) (r x : Nat) : Bool :=
  let p := (ringOf s r).priority
  let q := (ringOf s x).priority
  let d := turnOf 256 (stageTurnOf s (homeGrove r) p)
  homeGrove x == homeGrove r && wantsStage s x && (decide (p < q) || (p == q && decide (d x < d r)))

/-- Whether a ring's next descriptor may be staged: it waits for staging and no ring is to be served before it (R225, R237). -/
def mayStage (s : State) (r : Nat) : Bool := wantsStage s r && !(s.rings.cells.any fun c => servedBefore s r c.1)

/-- Address of the next descriptor (R225). -/
def descriptorAddr (q : Ring) : Nat := q.base + q.head % ringSize q * 128

/-- A descriptor whose slice has no entry for it waits in its ring (R236, R237). -/
def waitForSlice (r : Nat) (t : Task) (s : State) : State :=
  updRing r (fun q => { q with sliceWait := some { grove := t.grove, slice := t.slice, counter := ownWait t } }) s

/-- The turn of a ring at its priority has been served (R237). -/
def takeTurn (r : Nat) (s : State) : State :=
  { s with stageTurns := s.stageTurns.set 1023 (homeGrove r * 4 + (ringOf s r).priority) r }

/-- A descriptor read whole: its task enters, fails or waits (R231). -/
def stageDescriptor (r : Nat) (bs : List Byte) (s : State) : State :=
  let p := (ringPartition s r).getD 0
  let failed (code : W16) (addr detail : Nat) (s : State) : State :=
    let a := shellSignal (failedShell s r p bs) s
    if sliceTakes s { a.1 with waitDone := true } then enterFailed a.1 code addr detail a.2 else waitForSlice r a.1 s
  match (ringOf s r).stageFails with
  | some c => failed c (ringOf s r).stageAddr 0 s
  | none => match stageChecks r p bs s with
    | (.ok t, u) => if sliceTakes u t then enterTask t u else waitForSlice r t u
    | (.fail c a d, u) => failed c a d u
    | (.wait a, u) => updRing r (fun q => { q with readWaits := true, descriptorWaits := false, stageAddr := a }) u

/-- Staging of a ring's next descriptor (R225, R237). -/
def stageNext (r : Nat) (s : State) : State :=
  if !mayStage s r then s
  else
    let ring := ringOf s r
    let q : Requester := { agent := .tally, context := ring.context, grove := homeGrove r, ring := r, seq := ring.head, descriptor := true }
    match engineRead q (descriptorAddr ring) 128 (takeTurn r s) with
    | (.wait, t) => updRing r (fun q => { q with readWaits := true, descriptorWaits := true }) t
    | (.fail _ _, t) => failRing r 0x3103 t
    | (.done bs, t) => stageDescriptor r bs t

end Sys2Proof.Machine
end

