-- ==== Sys2Proof/Machine/Issue.lean ====
section
/-!
DEFINITION. Machine/Issue.lean: what the issue of a staged task does (R235, R249, R255).
-/

namespace Sys2Proof.Machine

/-- The group of a task that issues to a bench while the group is open holds the bench's shadow scratch (R249). -/
def holdShadow (t : Task) (s : State) : State :=
  match t.bench with
  | some n =>
    if inOpenGroup s t then updGroup t.header.group (fun g => { g with holds := if g.holds.contains n then g.holds else g.holds ++ [n] }) s
    else s
  | none => s

/-- The turn of a task's ring on its bench has been served, and its place as the preloaded task with it (R237, R238). -/
def takeIssueTurn (t : Task) (s : State) : State :=
  match t.bench with
  | some n =>
    updBenchState n (fun b => { b with preloaded := if b.preloaded = some (t.ring, t.seq) then none else b.preloaded })
      { s with issueTurns := s.issueTurns.set 1023 (n * 4 + (ringOf s t.ring).priority) t.ring }
  | none => s

/-- A task issued: counted by its Tally (R255); its group holds its bench's shadow scratch (R249), and what ran ahead of a member's guard
is dropped, since it reads as if its WAIT had resolved at this moment (R324, R325). -/
def markIssued (t : Task) (s : State) : State :=
  let s1 := dropTentative t.ring t.seq (updTask t.ring t.seq (fun t => { t with phase := .issued }) (takeIssueTurn t (noteClocks s)))
  holdShadow t { s1 with tallyIssued := s1.tallyIssued.update 0 t.grove fun n => wrapAdd 64 n 1 }

/-- A bench task comes to issue: with no holder of its role it fails, else it issues when R235 lets it, and the bench's next task is
chosen (R238). -/
def issueBench (t : Task) (start : Task → State → State) (s : State) : State :=
  match t.bench with
  | none => if clockRuns s t && waitMet s t then failNoHolder t s else s
  | some n => if mayIssue s t then preload n (start t (markIssued t s)) else s

end Sys2Proof.Machine
end

