-- ==== Sys2Proof/Machine/Array.lean ====
section
/-!
DEFINITION. Machine/Array.lean: the bench array: what one pass reads and adds (R102–R114, R123–R133, R152–R159), the drain of a tile into
the skid (R115–R117, R124, R162).
-/

namespace Sys2Proof.Machine

/-! ### Panels -/

/-- The element encodings of a task's operands. -/
def elemA (d : MatDesc) : Elem := formatElem d.fmtA
def elemB (d : MatDesc) : Elem := formatElem d.fmtB

/-- P_hi of the task (R101). -/
def taskPhi (d : MatDesc) : Int := productHi (elemA d) (elemB d)

/-- Blocks of 32 K elements in a pass of a slot. -/
def passBlocks (d : MatDesc) : Nat := slotK d.geometry d.fmtB / 32

/-- log2 of a slot's K per pass (R131). -/
def passLevels (d : MatDesc) : Nat := Nat.log2 (slotK d.geometry d.fmtB)

/-- The operands one slot brings to one pass: panel codes in index order (R152), and the scale bytes of row mt and column nt over
the whole of K (R157). -/
structure SlotPanels where
  a : List Nat := []
  b : List Nat := []
  scaleA : List Nat := []
  scaleB : List Nat := []
deriving DecidableEq, Repr

/-- The requester of a task's Dresser port (R287). -/
def dresserRequester (t : Task) (n : Nat) : Requester := { moveRequester t n with agent := .dresserPort }

/-- Whether problem p has a pass kp of tile t (R130, R159). -/
def slotPasses (d : MatDesc) (p : Problem) (t kp : Nat) : Bool := decide (t < probT d p ∧ kp < probKP d p)

/-- Whole ashlars of virtual space read one after the other through the grove's operand cache. -/
def readAshlars (q : Requester) : List Nat → State → Reply (List Byte) × State
  | [], s => (.done [], s)
  | a :: as, s =>
    Reply.andThen (engineRead q (a * ashlarSize) ashlarSize s) fun bs t => Reply.andThen (readAshlars q as t) fun r u => (.done (bs ++ r), u)

/-- Element bytes of a run: in virtual space the move port requests each ashlar they lie in as a unit (R155). -/
def elementRead (q : Requester) (a n : Nat) (s : State) : Reply (List Byte) × State :=
  if addrScratch a then fieldRead q a n s
  else
    let v := addrOffset a
    Reply.andThen (readAshlars q (blocksOf ashlarSize v n) s) fun bs t => (.done (sliceBytes bs (v % ashlarSize) n), t)

/-- Elements of one panel of a slot. -/
def panelCount (d : MatDesc) : Nat := slotN d.geometry * slotK d.geometry d.fmtB

/-- The stationary panel of a pass of one slot, and the streaming one, as element codes (R152). -/
def readPanelB (q : Requester) (d : MatDesc) (p : Problem) (t kp : Nat) (s : State) : Reply (List Nat) × State :=
  Reply.andThen (elementRead q (p.bElem + ((tileCoords d p t).2 * probKP d p + kp) * bPanelBytes d) (bPanelBytes d) s) fun bs u =>
    (.done (packedElems (formatBits d.fmtB) (panelCount d) bs), u)
def readPanelA (q : Requester) (d : MatDesc) (p : Problem) (t kp : Nat) (s : State) : Reply (List Nat) × State :=
  Reply.andThen (elementRead q (p.aElem + ((tileCoords d p t).1 * probKP d p + kp) * aPanelBytes d) (aPanelBytes d) s) fun bs u =>
    (.done (packedElems (formatBits d.fmtA) (panelCount d) bs), u)

/-- The scale panels of row mt and column nt over the whole of K (R157); implied scales are not read (R99). -/
def readScales (q : Requester) (d : MatDesc) (p : Problem) (t : Nat) (s : State) : Reply (List Nat × List Nat) × State :=
  let c := tileCoords d p t
  let n := probKP d p * scalePanelBytes d
  let get (mx : Bool) (a : Nat) (s : State) : Reply (List Nat) × State :=
    if mx then Reply.andThen (fieldRead q a n s) fun bs u => (.done (bs.map BitVec.toNat), u) else (.done [], s)
  Reply.andThen (get (isMx d.fmtA) (p.aScale + c.1 * n) s) fun sa s1 =>
    Reply.andThen (get (isMx d.fmtB) (p.bScale + c.2 * n) s1) fun sb s2 => (.done (sa, sb), s2)

/-- The scale byte of row `m` of A, or of column `n` of B, for block `kb` of the whole K; 0x7F where the format has none (R99). -/
def scaleAOf (d : MatDesc) (sc : List Nat) (m kb : Nat) : Nat :=
  if isMx d.fmtA then sc.getD (kb / passBlocks d * scalePanelBytes d + m * passBlocks d + kb % passBlocks d) 0 else 0x7F
def scaleBOf (d : MatDesc) (sc : List Nat) (n kb : Nat) : Nat :=
  if isMx d.fmtB then sc.getD (kb / passBlocks d * scalePanelBytes d + kb % passBlocks d * slotN d.geometry + n) 0 else 0x7F

/-- Scratch ranges of the panels of a pass, and of what a tile reads before its first pass (R157, R158). -/
def panelRuns (d : MatDesc) (t kp : Nat) : List (Nat × Nat) :=
  d.problems.flatMap fun p =>
    if slotPasses d p t kp then
      scratchRun (p.bElem + ((tileCoords d p t).2 * probKP d p + kp) * bPanelBytes d) (bPanelBytes d) ++
      scratchRun (p.aElem + ((tileCoords d p t).1 * probKP d p + kp) * aPanelBytes d) (aPanelBytes d)
    else []
def scaleRuns (d : MatDesc) (t : Nat) : List (Nat × Nat) :=
  d.problems.flatMap fun p =>
    let n := probKP d p * scalePanelBytes d
    let c := tileCoords d p t
    if t < probT d p ∧ p.k ≠ 0 then
      (if isMx d.fmtA then scratchRun (p.aScale + c.1 * n) n else []) ++ (if isMx d.fmtB then scratchRun (p.bScale + c.2 * n) n else [])
    else []
def initRuns (d : MatDesc) : List (Nat × Nat) :=
  if d.initKind = 0 then [] else d.problems.flatMap fun p => scratchRun p.initAddr (initBytes d p)

/-! ### One pass -/

/-- K elements that pass kp of a problem holds. -/
def passK (d : MatDesc) (p : Problem) (kp : Nat) : Nat :=
  min (slotK d.geometry d.fmtB) (p.k - kp * slotK d.geometry d.fmtB)

/-- The element pairs of one output within a pass, in K order. -/
def pairsOf (d : MatDesc) (ps : SlotPanels) (k m n : Nat) : List (Nat × Nat) :=
  (List.range k).map fun i => (ps.a.getD (m * slotK d.geometry d.fmtB + i) 0, ps.b.getD (i * slotN d.geometry + n) 0)

/-- The blocks of a list of pairs: 32 at a time. -/
def blocks32 {α : Type} : Nat → List α → List (List α)
  | 0, _ => []
  | k + 1, l => if l.isEmpty then [] else l.take 32 :: blocks32 k (l.drop 32)

/-- One pass added to one output (R104, R112–R114, R131, R140). -/
def passCell (d : MatDesc) (p : Problem) (ps : SlotPanels) (kp m n : Nat) (c : OutCell) : OutCell :=
  let pairs := pairsOf d ps (passK d p kp) m n
  let vals (l : List (Nat × Nat)) : List (Val × Val) := l.map fun x => (decodeElem (elemA d) x.1, decodeElem (elemB d) x.2)
  match d.mode with
  | .exact =>
    (numbered (blocks32 (passBlocks d) pairs)).foldl (fun c b =>
      let kb := kp * passBlocks d + b.1
      addBlock (elemA d) (elemB d) (scaleAOf d ps.scaleA m kb) (scaleBOf d ps.scaleB n kb) (vals b.2) c) c
  | .matchWords | .xorPop => addWords d.mode pairs c
  | .tree | .minPlus | .maxPlus | .l1 | .l2 =>
    addTerms d.mode (passLevels d) (kp + 1 == probKP d p) ((vals pairs).map fun x => termOf d.mode x.1 x.2) c

/-- The outputs a problem has in a tile: (row, column) within its slot (R160). -/
def slotOutputs (d : MatDesc) (p : Problem) (t : Nat) : List (Nat × Nat) :=
  if t < probT d p then
    (List.range (tileRows d p t)).flatMap fun m => (List.range (tileCols d p t)).map fun n => (m, n)
  else []

/-- The place of an output of slot s in the tile (R129). -/
def cellIndex (d : MatDesc) (s m n : Nat) : Nat :=
  let o := slotOrigin d.geometry s
  (o.1 + m) * 128 + o.2 + n

/-- One pass of one slot added into a bank. -/
def passSlot (d : MatDesc) (s : Nat) (p : Problem) (ps : SlotPanels) (t kp : Nat) (cells : Table OutCell) : Table OutCell :=
  (slotOutputs d p t).foldl (fun c o => c.update {} (cellIndex d s o.1 o.2) (passCell d p ps kp o.1 o.2)) cells

/-! ### The start of a tile -/

/-- The initial value of an output, as read: its code in INIT_KIND's format (R158). -/
def initOffset (d : MatDesc) (p : Problem) (m n : Nat) : Nat :=
  if initPerColumn d.initKind then n * initBits d.initKind / 8 else outBitOffset d p (initBits d.initKind) m n / 8

/-- The initial values of a slot's outputs of a tile, by cell; each tile's are read before its first pass (R166). -/
def readInits (q : Requester) (d : MatDesc) (s : Nat) (p : Problem) (t : Nat) :
    List (Nat × Nat) → State → Reply (List (Nat × Nat)) × State
  | [], st => (.done [], st)
  | o :: os, st =>
    let c := tileCoords d p t
    let m := c.1 * slotN d.geometry + o.1
    let n := c.2 * slotN d.geometry + o.2
    Reply.andThen (fieldRead q (p.initAddr + initOffset d p m n) (initBits d.initKind / 8) st) fun bs u =>
      Reply.andThen (readInits q d s p t os u) fun r v => (.done ((cellIndex d s o.1 o.2, natOfBytes bs) :: r), v)

/-- The initial values of every slot of a tile. -/
def readTileInits (q : Requester) (d : MatDesc) (t : Nat) : List (Nat × Problem) → State → Reply (List (Nat × Nat)) × State
  | [], s => (.done [], s)
  | (i, p) :: ps, s =>
    if d.initKind = 0 then (.done [], s)
    else Reply.andThen (readInits q d i p t (slotOutputs d p t) s) fun r u =>
      Reply.andThen (readTileInits q d t ps u) fun rs v => (.done (r ++ rs), v)

/-- Scales of every slot of a tile: (slot, (A, B)). -/
def readTileScales (q : Requester) (d : MatDesc) (t : Nat) :
    List (Nat × Problem) → State → Reply (List (Nat × (List Nat × List Nat))) × State
  | [], s => (.done [], s)
  | (i, p) :: ps, s =>
    if t < probT d p ∧ p.k ≠ 0 then
      Reply.andThen (readScales q d p t s) fun r u =>
        Reply.andThen (readTileScales q d t ps u) fun rs v => (.done ((i, r) :: rs), v)
    else readTileScales q d t ps s

/-- The first ACC96 input element that stops the task (R111, R165). -/
def initRefusal (d : MatDesc) (inits : List (Nat × Nat)) : Option W16 :=
  if d.initKind = 7 then firstSome (fun i => acc96Refusal (taskPhi d) i.2) inits else none

/-- The scale pairs of one output over the whole of K (R102). -/
def outputScales (d : MatDesc) (p : Problem) (sc : List Nat × List Nat) (m n : Nat) : List (Nat × Nat) :=
  (List.range (ceilDiv p.k 32)).map fun kb => (scaleAOf d sc.1 m kb, scaleBOf d sc.2 n kb)

/-- An output before its first pass: its anchor, an ACC96 input taken in, or its initial value (R102, R111, R114, R137, R140). -/
def freshCell (d : MatDesc) (p : Problem) (sc : List Nat × List Nat) (init : Option Nat) (m n : Nat) : OutCell :=
  match d.mode with
  | .exact =>
    let acc := if d.initKind = 7 then init else none
    let c : OutCell := { anchor := anchorOf (outputScales d p sc m n) d.floor (acc.map acc96Anchor) }
    match acc with
    | some w => addAcc96 w c
    | none => c
  | .matchWords | .xorPop => {}
  | .tree | .minPlus | .maxPlus | .l1 | .l2 =>
    match init with
    | some w => { run := some (fp32Of (decodeElem (initElem d.initKind) w)) }
    | none => {}

/-- The cells of a tile before its first pass. -/
def freshCells (d : MatDesc) (t : Nat) (scales : List (Nat × (List Nat × List Nat))) (inits : List (Nat × Nat)) : Table OutCell :=
  (numbered d.problems).foldl (fun c ip =>
    let sc := ((scales.find? fun x => x.1 == ip.1).map (·.2)).getD ([], [])
    (slotOutputs d ip.2 t).foldl (fun c o =>
      let i := cellIndex d ip.1 o.1 o.2
      c.set {} i (freshCell d ip.2 sc ((inits.find? fun x => x.1 == i).map (·.2)) o.1 o.2)) c) {}

/-- The initial values kept as a bias until the conversion: kinds 1–6 on the exact path (R109, R158). -/
def biasInits (d : MatDesc) (inits : List (Nat × Nat)) : Table Nat :=
  if d.mode = .exact ∧ d.initKind ≠ 7 then inits.foldl (fun t i => t.set 0 i.1 i.2) {} else {}

/-! ### Zero-gating -/

/-- Section-cycles of one pass that are zero-gated while its rows enter, and the sections whose stationary elements are all zero, which
stay gated for as long as the pass is active (R133): geometry G1, MATMUL. DESIGN CHOICE: the K elements that share a cell of a 6-bit or 4-bit
stationary format are consecutive, so that section row r holds K 32r to 32r + 31 (log 85). -/
def gatedCycles (d : MatDesc) (p : Problem) (ps : SlotPanels) (t kp : Nat) : Nat × Nat :=
  if d.geometry ≠ .g1 ∨ !(d.mode = .exact ∨ d.mode = .tree) then (0, 0)
  else
    let spc := stationaryPerCell d.fmtB
    let k := passK d p kp
    let rows := tileRows d p t
    let cycles := rowTime d.mode d.fmtB
    let zero (e : Elem) (w : Nat) : Bool := (decodeElem e w).isZero
    let rowZero (sr m : Nat) : Bool := (List.range (16 * spc)).all fun i =>
      let kk := sr * 16 * spc + i
      decide (k ≤ kk) || zero (elemA d) (ps.a.getD (m * slotK d.geometry d.fmtB + kk) 0)
    let panelZero (sr sc : Nat) : Bool := (List.range (16 * spc)).all fun i =>
      let kk := sr * 16 * spc + i
      decide (k ≤ kk) || (List.range 16).all fun j =>
        decide (p.n - (tileCoords d p t).2 * 128 ≤ sc * 16 + j) || zero (elemB d) (ps.b.getD (kk * 128 + sc * 16 + j) 0)
    (List.range (ceilDiv (ceilDiv k spc) 16)).foldl (fun n sr =>
      let streamed := ((List.range rows).filter (rowZero sr)).length
      (List.range (ceilDiv (tileCols d p t) 16)).foldl (fun n sc =>
        if panelZero sr sc then (n.1 + cycles * rows, n.2 + 1) else (n.1 + cycles * streamed, n.2)) n) (0, 0)

/-! ### The drain -/

/-- Skid entries of a tile: one, or four for ACC96 (R110, R190). -/
def tileEntries (d : MatDesc) : Nat := if d.fmtOut = .acc96 then 4 else 1

/-- PROBLEMS of the tag of tile t (R162). -/
def tileProblems (d : MatDesc) (t : Nat) : List Nat := ((numbered d.problems).filter fun ip => decide (t < probT d ip.2)).map (·.1)

/-- The skid entries reserved for a tile, with their tags (R162, R190). -/
def reservedEntries (t : Task) (d : MatDesc) (tile : Nat) : List SkidEntry :=
  (List.range (tileEntries d)).map fun part =>
    { ring := t.ring, seq := t.seq,
      tag := { tile := tile, problems := tileProblems d tile, format := if d.epilogue.isSome then .fp32 else d.fmtOut, part := part,
               first := tile == 0 && part == 0, last := tile + 1 == taskTiles d && part + 1 == tileEntries d,
               epilogue := d.epilogue.isSome } }

/-- The value an output of a bank converts from. -/
def bankResult (d : MatDesc) (k : Bank) (i : Nat) : ExactOut :=
  let bias := if d.mode = .exact ∧ d.initKind ≠ 0 ∧ d.initKind ≠ 7 then some (decodeElem (initElem d.initKind) (k.inits.get 0 i)) else none
  resultOf d.mode (taskPhi d) bias (k.cells.get {} i)

/-- What the conversion of a tile leaves: codes, scale codes, and the outputs that saturated or are NaN (R107, R115–R117, R162). -/
structure Drained where
  outputs : Table Nat := {}
  scales : Table Nat := {}
  sat : List Nat := []
  nan : List Nat := []
deriving DecidableEq, Repr

/-- A scalar output added (R115). -/
def drainCell (d : MatDesc) (k : Bank) (i : Nat) (o : Drained) : Drained :=
  let c := k.cells.get {} i
  let sat := if d.mode = .exact ∧ (saturation c).isSome then i :: o.sat else o.sat
  let nan (b : Bool) : List Nat := if b then i :: o.nan else o.nan
  if d.fmtOut = .acc96 then { o with outputs := o.outputs.set 0 i (acc96Code (taskPhi d) c), sat := sat, nan := nan (cellIsNan c) }
  else
    let r := bankResult d k i
    { o with outputs := o.outputs.set 0 i (convertOut d.fmtOut r), sat := sat, nan := nan (outIsNan r) }

/-- An MX block of 32 columns of one row added, its N tail as +0 (R116). The magnitudes from which the
scale is taken hold the sticky ε too (log 82). DESIGN CHOICE: NAN looks at each output's own result, so that an output which is a NaN only
because an infinity in its block gives the scale 0xFF does not set it (log 85). -/
def drainBlock (d : MatDesc) (k : Bank) (row b cols : Nat) (slot : Nat) (o : Drained) : Drained :=
  let el := formatElem d.fmtOut
  let idx := (List.range (min 32 (cols - b * 32))).map fun j => cellIndex d slot row (b * 32 + j)
  let rs := idx.map (bankResult d k)
  let m := mxBlock el (rs.map (mxValue el))
  let codes := m.2.map (·.1)
  let o1 := (numbered (codes ++ List.replicate (32 - codes.length) 0)).foldl
    (fun (t : Table Nat) x => t.set 0 (cellIndex d slot row (b * 32) + x.1) x.2) o.outputs
  let sat := idx.filter fun i =>
    let c := k.cells.get {} i
    d.mode == .exact && (saturation c).isSome
  { outputs := o1, scales := o.scales.set 0 (cellIndex d slot row (b * 32) / 32) m.1, sat := sat ++ o.sat
    nan := (idx.filter fun i => outIsNan (bankResult d k i)) ++ o.nan }

/-! ### Outputs that overlap what the task reads (R166) -/

/-- Whether two runs, as (address field, bytes), share a byte. -/
def runsMeet (x y : Nat × Nat) : Bool :=
  addrPresent x.1 && addrPresent y.1 && decide (x.1 < y.1 + y.2 ∧ y.1 < x.1 + x.2 ∧ 0 < x.2 ∧ 0 < y.2)

/-- Whether an output of a problem, of an element size under the task's layout, coincides with its initial value in base, layout and
element size. -/
def initCoincides (d : MatDesc) (p : Problem) (bits : Nat) : Bool :=
  p.initAddr == p.cAddr && !initPerColumn d.initKind && initBits d.initKind == bits

/-- The bytes that a problem's outputs take under the task's layout, row by row of each column panel, as runs; with a format's scales
(R160, R161, R177). -/
def outRuns (d : MatDesc) (p : Problem) (f : Format) : List (Nat × Nat) :=
  let bits := formatBits f
  let np := slotN d.geometry
  (List.range p.m).flatMap fun m => (List.range (probNT d p)).flatMap fun nt =>
    let cols := min np (p.n - nt * np)
    let c := p.cAddr + outBitOffset d p bits m (nt * np) / 8
    if isMx f then (c, ceilDiv cols 32 * 32 * bits / 8) :: (List.range (ceilDiv cols 32)).map fun b =>
      (p.cAddr + outScaleStart d p bits + outScaleIndex d p m (nt * np + 32 * b), 1)
    else [(c, packedBytes bits cols)]

/-- The bytes of an initial value that are read, as runs (R158). -/
def initRunsOf (d : MatDesc) (p : Problem) : List (Nat × Nat) :=
  if d.initKind = 0 then []
  else if initPerColumn d.initKind then [(p.initAddr, initBytes d p)]
  else (List.range p.m).flatMap fun m => (List.range (probNT d p)).map fun nt =>
    (p.initAddr + outBitOffset d p (initBits d.initKind) m (nt * slotN d.geometry) / 8,
      min (slotN d.geometry) (p.n - nt * slotN d.geometry) * initBits d.initKind / 8)

/-- The bytes that an epilogue's stores to a memory tensor reach for one problem, as runs (R177, R179, R187, R188): those of a scatter by its
LIMIT. -/
def storedRuns (v : VectorDesc) (idx : Nat) (t : Tensor) (i : Nat) (p : Problem) : List (Nat × Nat) :=
  let bits := formatBits t.format
  let a := t.address + i * t.stride2
  let rows (w : Nat) : List (Nat × Nat) := (List.range p.m).map fun r => (a + r * t.stride1, packedBytes bits (if t.colBcast then 1 else w))
  v.program.flatMap fun x =>
    if !storesTensor idx x then []
    else if x.opcode = 0x03 then rows p.n
    else if x.opcode = 0x05 then rows 1
    else if x.opcode = 0x4A then rows 64
    else if x.limit = 0 then []
    else if x.bsrc = 0 then [(t.address, packedBytes bits x.limit)]
    else [(a, (x.limit - 1) * t.stride1 + packedBytes bits p.n)]

/-- The outputs of a task that leave for memory or scratch: the problem, the bytes, and the element size under the task's layout; an
epilogue's are those its program stores (R163, R177). -/
def taskOutputs (d : MatDesc) : List (Nat × List (Nat × Nat) × Option Nat) :=
  match d.epilogue with
  | none => (numbered d.problems).map fun x => (x.1, outRuns d x.2 d.fmtOut, if isMx d.fmtOut then none else some (formatBits d.fmtOut))
  | some v => (numbered v.tensors).flatMap fun t =>
      if !(v.program.any (storesTensor t.1)) then []
      else (numbered d.problems).filterMap fun x => match t.2.kind with
        | .taskOutput => some (x.1, outRuns d x.2 t.2.format, if isMx t.2.format then none else some (formatBits t.2.format))
        | .memory => some (x.1, storedRuns v t.1 t.2 x.1 x.2, none)
        | .fabric | .deck => none

/-- Whether some run of one list meets one of another. -/
def anyMeet (xs ys : List (Nat × Nat)) : Bool := xs.any fun x => ys.any (runsMeet x)

/-- Whether an output of the task overlaps one of its operands, an initial value it does not coincide with, or another problem's output:
its results are then undefined (R166). -/
def outputsOverlap (d : MatDesc) : Bool :=
  let outs := taskOutputs d
  outs.any fun x => (numbered d.problems).any fun y =>
    anyMeet x.2.1 (operandRuns d y.2) ||
    (anyMeet x.2.1 (initRunsOf d y.2) && !(x.1 == y.1 && x.2.2.any (initCoincides d y.2))) ||
    (x.1 != y.1 && outs.any fun z => z.1 == y.1 && anyMeet x.2.1 z.2.1)

/-- The `i`-th free code of a format from a free value on: two words for ACC96. -/
def freeCode (first bits i : Nat) : Nat :=
  ((Config.freeWord (first + 2 * i)).toNat + (Config.freeWord (first + 2 * i + 1)).toNat * 2 ^ 64) % 2 ^ bits

/-- The outputs and scales of a tile whose results are undefined: free codes (R166; log 4). -/
def freeDrained (d : MatDesc) (tile first : Nat) (o : Drained) : Drained :=
  let bits := formatBits (if d.epilogue.isSome then .fp32 else d.fmtOut)
  let idx := (numbered d.problems).flatMap fun ip => (slotOutputs d ip.2 tile).map fun x => cellIndex d ip.1 x.1 x.2
  { o with
    outputs := idx.foldl (fun t i => t.set 0 i (freeCode first bits i)) o.outputs
    scales := if isMx d.fmtOut then idx.foldl (fun t i => t.set 0 (i / 32) (freeCode first 8 (16384 + i / 32))) o.scales else o.scales }

/-- Free values that a tile of undefined results takes. -/
def freeTileWords : Nat := 2 * (16384 + 512)

/-- The conversion of a whole tile. -/
def drainTile (d : MatDesc) (k : Bank) : Drained :=
  (numbered d.problems).foldl (fun o ip =>
    if k.tile < probT d ip.2 then
      if isMx d.fmtOut then
        let cols := tileCols d ip.2 k.tile
        (List.range (tileRows d ip.2 k.tile)).foldl (fun o m =>
          (List.range (ceilDiv cols 32)).foldl (fun o b => drainBlock d k m b cols ip.1 o) o) o
      else (slotOutputs d ip.2 k.tile).foldl (fun o x => drainCell d k (cellIndex d ip.1 x.1 x.2) o) o
    else o) {}

/-- The tile's entries take the conversion; an ACC96 entry holds the rows of its PART (R110, R162). -/
def fillEntries (t : Task) (tile : Nat) (o : Drained) (l : List SkidEntry) : List SkidEntry :=
  l.map fun e =>
    if ownedBy t.ring t.seq e.ring e.seq ∧ e.tag.tile = tile then
      let mine (i : Nat) : Bool := e.tag.format != .acc96 || i / 4096 == e.tag.part
      { e with draining := true, outputs := ⟨o.outputs.cells.filter fun c => mine c.1⟩, scales := o.scales
               tag := { e.tag with sat := o.sat.any mine, nan := o.nan.any mine } }
    else e

end Sys2Proof.Machine
end

