-- ==== Sys2Proof/Machine/Bench.lean ====
section
/-!
DEFINITION. Machine/Bench.lean: commands of the bench: passes, drains, skid entries, array and Dresser errors (R123–R145, R159–R165,
R190–R194, R198), and the beginning and end of Dresser runs.
-/

namespace Sys2Proof.Machine

/-- Bench n. -/
def benchOf (s : State) (n : Nat) : Bench := s.benches.get {} n

/-- The bench clock runs (R394). -/
def clockOn (s : State) (n : Nat) : Bool :=
  let c := (benchPow s.power n).clock
  c == .running || c == .stretched

/-- A task's work on its bench goes on: issued, not waiting, its clock running. -/
def worksOn (s : State) (n : Nat) (t : Task) : Bool := t.running && !t.blocked && clockOn s n

/-- A task waits for a fault batch, a migration or a repair. -/
def blockTask (t : Task) (s : State) : State := updTask t.ring t.seq (fun t => { t with blocked := true }) s

/-! ### Errors of the array and the Dresser -/

/-- The place of an armed point that fires for a code (R448, R465), as SOURCE. -/
def firedSource (s : State) (n : Nat) (code : W16) (hit : Nat → Bool) : W64 :=
  match s.err.inj.cells.find? fun c => slotHits code hit c.2 with
  | some c => match locatorPlace s c.2.locator.toNat with
    | some p => BitVec.ofNat 64 (writeUnitId (mladyth s) ⟨moduleIndex s, p⟩)
    | none => srcBench s n
  | none => srcBench s n

/-- A corrected error of a bench: its record, counted (R145, R198, R460). -/
def correctedBench (n : Nat) (code : W16) (injected : Bool) (source : W64) (s : State) : State :=
  countBenchError n false code (report { code := code, source := source, injected := injected } s)

/-- An uncorrectable error of a bench that ends a task, or only a record when no task is concerned; counted (R145, R198, R460). -/
def uncorrectedBench (n : Nat) (code : W16) (injected : Bool) (source : W64) (t : Option Task) (early : Bool) (s : State) : State :=
  let s1 := match t with
    | some t =>
      let e : TaskEnd := { code := code, injected := injected, source := some source }
      if early then endAtTile (erroneousTile t.ring t.seq) t e s else failAs t e s
    | none => report { code := code, source := source, injected := injected } s
  countBenchError n true code s1

/-- The task whose pass the array holds: that of the pass last taken in, while its tile is not drained or its passes go on (R145). -/
def arrayTask (s : State) (n : Nat) : Option Task :=
  let b := benchOf s n
  b.activeB.bind fun w =>
    let undrained (k : Option Bank) : Bool := k.any fun k => ownedBy w.ring w.seq k.ring k.seq && k.tile == w.tile && !k.draining
    if undrained b.bankA || undrained b.bankB || (b.run.any fun a => ownedBy w.ring w.seq a.ring a.seq) then findTask s w.ring w.seq
    else none

/-- The accumulator bank in which an uncorrectable error lies: the one that holds a tile, or of two either, as a free value has it (R145;
log 4). -/
def faultyBank (n : Nat) (s : State) : Option Bank × State :=
  let b := benchOf s n
  match b.bankA, b.bankB with
  | some k, some l =>
    let f := drawFree s
    (some (if f.1.toNat % 2 = 0 then k else l), f.2)
  | some k, none => (some k, s)
  | none, x => (x, s)

/-- A bank's contents discarded, with the tiles of its task after it: no later pass or tile of the task goes on (R145). -/
def discardTile (k : Bank) (b : Bench) : Bench :=
  let later (x : Bank) : Bool := ownedBy k.ring k.seq x.ring x.seq && decide (k.tile ≤ x.tile)
  { b with
    bankA := b.bankA.filter fun x => !later x
    bankB := b.bankB.filter fun x => !later x
    skid := b.skid.filter fun e => !(ownedBy k.ring k.seq e.ring e.seq && decide (k.tile ≤ e.tag.tile) && !e.drained) }

/-- An uncorrectable error of an accumulator bank (R145). -/
def bankError (n : Nat) (injected : Bool) (source : W64) (s : State) : State :=
  let f := faultyBank n s
  match f.1 with
  | none => uncorrectedBench n 0x2203 injected source none true f.2
  | some k => uncorrectedBench n 0x2203 injected source (findTask f.2 k.ring k.seq) true (updBenchState n (discardTile k) f.2)

/-- An error that an array detector finds (R145). -/
def arrayError (n : Nat) (code : W16) (injected : Bool) (source : W64) (s : State) : State :=
  if code = 0x2204 then correctedBench n code injected source s
  else if code = 0x2203 then bankError n injected source s
  else uncorrectedBench n code injected source (arrayTask s n) true s

/-- The task of the first drained skid entry. -/
def entryTask (s : State) (n : Nat) : Option Task :=
  ((benchOf s n).skid.find? fun e => e.drained).bind fun e => findTask s e.ring e.seq

/-- The task that an uncorrectable error of the Dresser ends: of a register, that of the run, else of the entry taken next; of a skid
entry, that of the entry, which a VECTOR task has none of (R198). -/
def dresserTask (s : State) (n : Nat) (code : W16) : Option Task :=
  match (benchOf s n).dresser with
  | some d => if code = 0x2321 ∧ d.entry.isNone then entryTask s n else findTask s d.ring d.seq
  | none => entryTask s n

/-- Whether a run stands inside a block. -/
def DresserRun.midBlock (r : DresserRun) : Bool := r.blockOpen && !r.done

/-- Whether a VECTOR run stands inside a block. -/
def vectorMidBlock (b : Bench) : Bool :=
  match b.dresser with
  | some r => r.entry.isNone && r.midBlock
  | none => false

/-- An error that a Dresser detector finds (R198): on a register error a VECTOR task stops at the end of the block in progress, the error
counted as it is detected (R460); one in a block that already ends for a cause has its own record. -/
def dresserError (n : Nat) (code : W16) (injected : Bool) (s : State) : State :=
  if code = 0x2322 then correctedBench n code injected (srcBench s n) s
  else if code = 0x2320 ∧ vectorMidBlock (benchOf s n) then
    if (benchOf s n).dresser.any fun r => r.ends.isSome then uncorrectedBench n code injected (srcBench s n) none false s
    else countBenchError n true code (updBenchState n (fun b => { b with dresser := b.dresser.map fun r =>
      { r with ends := some { code := code, injected := injected } } }) s)
  else uncorrectedBench n code injected (srcBench s n) (dresserTask s n code) false s

/-- Whether a bench runs for a sealed context, where no point fires (R465). -/
def benchSealed (s : State) (t : Task) : Bool := isSealed s t.context

/-- An armed point of a code list on an event of bench n that covers some sections fires (R466): the first that does. -/
def benchInject (codes : List Nat) (n : Nat) (sections : List Nat) (act : W16 → W64 → State → State) (s : State) : State :=
  codes.foldl (fun s c =>
    let code : W16 := BitVec.ofNat 16 c
    let hit (l : Nat) : Bool := match locatorPlace s l with
      | some (.bench m) => m == n
      | some (.sect m x) => m == n && sections.contains x
      | some (.row m x _) => m == n && sections.contains x
      | some (.cell m x _ _) => m == n && sections.contains x
      | _ => false
    let source := firedSource s n code hit
    let a := fireInjection code hit s
    if a.1 then act code source a.2 else a.2) s

/-! ### Passes -/

/-- Sections clocked in a pass (R132): by slot, the section rows within the pass's K and the section columns within N. -/
def clockedSections (d : MatDesc) (t kp : Nat) : List Nat :=
  (numbered d.problems).flatMap fun ip =>
    if slotPasses d ip.2 t kp then
      let o := slotOrigin d.geometry ip.1
      (List.range (ceilDiv (ceilDiv (passK d ip.2 kp) (stationaryPerCell d.fmtB)) 16)).flatMap fun r =>
        (List.range (ceilDiv (tileCols d ip.2 t) 16)).map fun c => (o.1 / 16 + r) * 8 + o.2 / 16 + c
    else []

/-- One panel of every slot that has the pass, stationary or streaming: (slot, codes). -/
def readPanels (rd : Problem → State → Reply (List Nat) × State) (d : MatDesc) (t kp : Nat) :
    List (Nat × Problem) → State → Reply (List (Nat × List Nat)) × State
  | [], s => (.done [], s)
  | (i, p) :: ps, s =>
    if slotPasses d p t kp then
      Reply.andThen (rd p s) fun e u => Reply.andThen (readPanels rd d t kp ps u) fun r v => (.done ((i, e) :: r), v)
    else readPanels rd d t kp ps s

/-- The stationary panels of a pass, and the streaming ones. -/
def readWeights (q : Requester) (d : MatDesc) (t kp : Nat) (s : State) : Reply (List (Nat × List Nat)) × State :=
  readPanels (fun p => readPanelB q d p t kp) d t kp (numbered d.problems) s
def readStreams (q : Requester) (d : MatDesc) (t kp : Nat) (s : State) : Reply (List (Nat × List Nat)) × State :=
  readPanels (fun p => readPanelA q d p t kp) d t kp (numbered d.problems) s

/-- Whether the registers hold the weights of a pass. -/
def Weights.isOf (a : ArrayRun) (w : Weights) : Bool := w.ring == a.ring && w.seq == a.seq && w.tile == a.tile && w.kp == a.kp

/-- The weights of a pass: those that the shadow registers have loaded, else loaded now (R123). -/
def passWeights (q : Requester) (d : MatDesc) (a : ArrayRun) (b : Bench) (s : State) : Reply (List (Nat × List Nat)) × State :=
  match b.shadowB.filter (Weights.isOf a) with
  | some w => (.done w.panels, s)
  | none => readWeights q d a.tile a.kp s

/-- What the slots of a pass bring to the array: their panels, and the scales of the tile (R157). -/
def passPanels (k : Option Bank) (ws as : List (Nat × List Nat)) : List (Nat × SlotPanels) :=
  as.map fun x =>
    let sc := ((k.bind fun k => k.scales.find? fun y => y.1 == x.1).map (·.2)).getD ([], [])
    (x.1, { a := x.2, b := ((ws.find? fun y => y.1 == x.1).map (·.2)).getD [], scaleA := sc.1, scaleB := sc.2 })

/-- The bank a tile fills: A when it is the next (R124). -/
def setBank (b : Bench) (inB : Bool) (k : Option Bank) : Bench := if inB then { b with bankB := k } else { b with bankA := k }
def getBank (b : Bench) (inB : Bool) : Option Bank := if inB then b.bankB else b.bankA

/-- Entries in use, and the greatest number seen (R196). -/
def noteEntries (b : Bench) : Bench := { b with entriesMax := max b.entriesMax (min b.skid.length 16) }

/-- What a tile brings to its bank before its first pass: the scales of its slots, its cells and its bias. -/
structure TileInput where
  scales : List (Nat × (List Nat × List Nat)) := []
  cells : Table OutCell := {}
  inits : Table Nat := {}
deriving DecidableEq, Repr

/-- A tile begins in a bank with its entries reserved (R124, R190). -/
def openTile (t : Task) (d : MatDesc) (tile : Nat) (x : TileInput) (b : Bench) : Bench :=
  noteEntries { setBank b b.nextB (some { ring := t.ring, seq := t.seq, tile := tile, cells := x.cells, scales := x.scales, inits := x.inits }) with
    skid := b.skid ++ reservedEntries t d tile
    nextScales := b.nextScales.filter fun y => !(ownedBy t.ring t.seq y.ring y.seq && y.tile == tile) }

/-- Zero-gated section-cycles of a pass while its rows enter, and its sections of zero weights (R133). -/
def passGated (d : MatDesc) (a : ArrayRun) (ps : List (Nat × SlotPanels)) : Nat × Nat :=
  ps.foldl (fun n x =>
    let g := gatedCycles d (d.problems.getD x.1 {}) x.2 a.tile a.kp
    (n.1 + g.1, n.2 + g.2)) (0, 0)

/-- Cycles in which the rows of a pass enter: those of the slot with most rows (R159). -/
def passCycles (d : MatDesc) (a : ArrayRun) : Nat :=
  rowTime d.mode d.fmtB * d.problems.foldl (fun n p => max n (tileRows d p a.tile)) 0

/-- The weighted section count of a pass in a cycle of its rows, in hundredths: 100 for an active section, 25 for a zero-gated one (R396);
`gated` counts the latter's section-cycles. -/
def passWeight (d : MatDesc) (a : ArrayRun) (gated : Nat) : Nat :=
  let n := 100 * (clockedSections d a.tile a.kp).length
  if passCycles d a = 0 then 0 else n - 75 * gated / passCycles d a

/-- The pass added into the bank of its tile, its weights active, the counters advanced (R104, R123, R133, R135): a pass counts once its
first row has entered, so one with no rows does not. -/
def takePass (d : MatDesc) (a : ArrayRun) (ps : List (Nat × SlotPanels)) (gated governor : Nat) (b : Bench) : Bench :=
  let add (k : Bank) : Bank := { k with
    cells := ps.foldl (fun c x => passSlot d x.1 (d.problems.getD x.1 {}) x.2 a.tile a.kp c) k.cells }
  { setBank b b.nextB ((getBank b b.nextB).map add) with
    activeB := some { ring := a.ring, seq := a.seq, tile := a.tile, kp := a.kp, panels := ps.map fun x => (x.1, x.2.b) }
    shadowB := none
    passes := wrapAdd 64 b.passes (bitNat !ps.isEmpty)
    governor := governor
    gated := wrapAdd 64 b.gated gated }

/-- A pass taken in. The cycles for which the pass stays active beyond those of its rows, in which sections of zero weights stay gated, are
timing: a free value where there are such sections (R123, R133; log 6). -/
def addPass (n : Nat) (d : MatDesc) (a : ArrayRun) (ps : List (Nat × SlotPanels)) (s : State) : State :=
  let g := passGated d a ps
  let w := passWeight d a g.1
  if g.2 = 0 then updBenchState n (takePass d a ps g.1 w) s
  else
    let f := drawFree s
    updBenchState n (takePass d a ps (g.1 + g.2 * f.1.toNat) w) f.2

/-- The array past a pass: the next pass of the tile, the next tile, or the end of the task's passes (R159). -/
def nextPass (d : MatDesc) (a : ArrayRun) (b : Bench) : Bench :=
  if a.kp + 1 < taskPasses d then { b with run := some { a with kp := a.kp + 1 } }
  else
    let b1 := { setBank b b.nextB ((getBank b b.nextB).map fun k => { k with full := true }) with nextB := !b.nextB }
    { b1 with run := if a.tile + 1 < taskTiles d then some { a with tile := a.tile + 1, kp := 0 } else none }

/-- A task whose last pass has been taken in has ended its array work (R126, R235). -/
def noteArrayDone (t : Task) (n : Nat) (s : State) : State :=
  if (benchOf s n).run.isNone then updTask t.ring t.seq (fun t => { t with arrayDone := true }) s else s

/-- The first pass of a tile is withheld (R125, R190): SKID_WAIT counts the cycles for want of skid entries, a number that the
model's clock does not give (log 6). -/
def withhold (n : Nat) (s : State) : State :=
  let f := drawFree s
  updBenchState n (fun b => { b with skidWait := wrapAdd 64 b.skidWait f.1.toNat }) f.2

/-- The scales of a tile: those read while the tile before it ran, else read now (R157). -/
def tileScales (q : Requester) (d : MatDesc) (tile : Nat) (b : Bench) (s : State) : Reply (List (Nat × (List Nat × List Nat))) × State :=
  match b.nextScales.filter fun x => ownedBy q.ring q.seq x.ring x.seq && x.tile == tile with
  | some x => (.done x.scales, s)
  | none => readTileScales q d tile (numbered d.problems) s

/-- What a tile reads before its first pass (R102, R111, R157, R158). -/
def readTile (q : Requester) (d : MatDesc) (tile : Nat) (b : Bench) (s : State) : Reply (Except W16 TileInput) × State :=
  Reply.andThen (tileScales q d tile b s) fun sc s1 =>
    Reply.andThen (readTileInits q d tile (numbered d.problems) s1) fun is s2 =>
      match initRefusal d is with
      | some c => (.done (.error c), s2)
      | none => (.done (.ok { scales := sc, cells := freshCells d tile sc is, inits := biasInits d is }), s2)

/-! ### Loads ahead -/

/-- The pass whose weights load next: the next of the running task, else the first of the task the bench has preloaded with its own WAIT
resolved (R123, R126, R238): a member of an open group reads nothing that is kept before it issues (R325). -/
def nextWeights (n : Nat) (s : State) : Option (Task × MatDesc × ArrayRun) :=
  let first (t : Task) (a : ArrayRun) : Option (Task × MatDesc × ArrayRun) := match t.body with
    | .mat d => if taskPasses d = 0 ∨ taskTiles d = 0 then none else some (t, d, a)
    | _ => none
  match (benchOf s n).run with
  | some a => (findTask s a.ring a.seq).bind fun t => first t a
  | none => ((preloadedOf s n).filter fun t => t.waitDone).bind fun t => first t { ring := t.ring, seq := t.seq }

/-- The shadow registers load the weights of the next pass while the present one is active (R123); what the load cannot read is met again
by the pass itself (R238). -/
def loadShadow (n : Nat) (s : State) : State :=
  match nextWeights n s with
  | none => s
  | some (t, d, a) => if scratchHeld s t n (panelRuns d a.tile a.kp) then s else match readWeights { moveRequester t n with quiet := true } d a.tile a.kp s with
    | (.done ws, u) => updBenchState n (fun b => { b with
        shadowB := some { ring := a.ring, seq := a.seq, tile := a.tile, kp := a.kp, panels := ws } }) u
    | (_, u) => u

/-- The scales of the next tile, read during the present one (R157). -/
def loadScales (n : Nat) (t : Task) (d : MatDesc) (tile : Nat) (s : State) : State :=
  if taskTiles d ≤ tile + 1 || scratchHeld s t n (scaleRuns d (tile + 1)) then s
  else match readTileScales { moveRequester t n with quiet := true } d (tile + 1) (numbered d.problems) s with
    | (.done sc, u) => updBenchState n (fun b => { b with
        nextScales := some { ring := t.ring, seq := t.seq, tile := tile + 1, scales := sc } }) u
    | (_, u) => u

/-- The answer to a read of an array task: it goes on, waits at the pass boundary, or ends at the tile in progress (R165). -/
def arrayReply {α : Type} (t : Task) (r : Reply α × State) (go : α → State → State) : State :=
  match r with
  | (.done a, s) => go a s
  | (.wait, s) => blockTask t s
  | (.fail c pa, s) => endEarly t c s pa

/-- One pass of a task whose tile is open. -/
def runPass (n : Nat) (t : Task) (d : MatDesc) (a : ArrayRun) (s : State) : State :=
  let q := moveRequester t n
  arrayReply t (passWeights q d a (benchOf s n) s) fun ws s0 => arrayReply t (readStreams q d a.tile a.kp s0) fun as s1 =>
    let b := benchOf s1 n
    let u := addPass n d a (passPanels (getBank b b.nextB) ws as) s1
    let v := if a.kp = 0 then loadScales n t d a.tile u else u
    let s2 := loadShadow n (noteArrayDone t n (updBenchState n (nextPass d a) v))
    if benchSealed s2 t then s2
    else benchInject [0x2201, 0x2202, 0x2203, 0x2204] n (clockedSections d a.tile a.kp) (fun c src s => arrayError n c true src s) s2

/-- Whether a VECTOR task has yet to begin on the Dresser: a task issued after it reserves entries only while it runs (R194). -/
def vectorWaits (s : State) (n : Nat) : Bool :=
  (vectorDue s n).isSome && !((benchOf s n).dresser.any fun r => r.entry.isNone)

/-- Whether the bank of the next tile already holds the tile of a run: its first pass waited for an operand (R165). -/
def tileOpen (b : Bench) (a : ArrayRun) : Bool :=
  match getBank b b.nextB with
  | some k => k.ring == a.ring && k.seq == a.seq && k.tile == a.tile && !k.full
  | none => false

/-- A tile opened, when its bank and its skid entries are free; else its first row is withheld (R125, R190). -/
def beginTile (n : Nat) (t : Task) (d : MatDesc) (a : ArrayRun) (go : State → State) (s : State) : State :=
  let b := benchOf s n
  if (getBank b b.nextB).isSome || vectorWaits s n then s
  else if 16 < b.skid.length + tileEntries d then withhold n s
  else arrayReply t (readTile (moveRequester t n) d a.tile b s) fun r s1 =>
    match r with
    | .error c => endEarly t c s1
    | .ok x => go (updBenchState n (openTile t d a.tile x) s1)

/-- Scratch ranges that the next pass of a run reads, with those of its tile before its first pass. -/
def passRuns (d : MatDesc) (a : ArrayRun) : List (Nat × Nat) :=
  panelRuns d a.tile a.kp ++ if a.kp = 0 then scaleRuns d a.tile ++ initRuns d else []

/-- The governor admits array input: not under a grant of 1, while sections are clocked (R396). -/
def governorAdmits (s : State) (n : Nat) (d : MatDesc) (a : ArrayRun) : Bool :=
  decide (2 ≤ (benchPow s.power n).granted) || (clockedSections d a.tile a.kp).isEmpty

/-- The next pass of bench n enters (R123, R159), unless the bench holds its reads of scratch (R319) or the governor its rows (R396). -/
def passStart (n : Nat) (s : State) : State :=
  match (benchOf s n).run with
  | none => s
  | some a => match findTask s a.ring a.seq with
    | none => s
    | some t => match t.body with
      | .mat d =>
        if !worksOn s n t || t.stopping || taskPasses d == 0 || scratchHeld s t n (passRuns d a) || !governorAdmits s n d a then s
        else if a.kp = 0 && !tileOpen (benchOf s n) a then beginTile n t d a (runPass n t d a) s
        else runPass n t d a s
      | _ => s

/-- PASS_START. -/
def execPassStart (n : Nat) (s : State) : Answer := .next (passStart n s)

/-! ### Drains -/

/-- Whether a bank waits for its drain. -/
def bankDue (k : Option Bank) : Bool :=
  match k with
  | some k => k.full && !k.draining
  | none => false

/-- The bank whose drain is due first: the one the next tile fills holds the older tile (R124). -/
def drainDue (b : Bench) : Option Bool :=
  if bankDue (getBank b b.nextB) then some b.nextB
  else if bankDue (getBank b (!b.nextB)) then some (!b.nextB)
  else none

/-- The drain of a tile begins: the conversion into its reserved entries, and ACC_SAT_TALLY (R107, R124). -/
def drainBank (n : Nat) (inB : Bool) (s : State) : State :=
  match getBank (benchOf s n) inB with
  | none => s
  | some k => match findTask s k.ring k.seq with
    | none => s
    | some t => match t.body with
      | .mat d =>
        let o := if outputsOverlap d then freeDrained d k.tile s.freeCount (drainTile d k) else drainTile d k
        let s := if outputsOverlap d then { s with freeCount := s.freeCount + freeTileWords } else s
        updBenchState n (fun b => { setBank b inB (some { k with draining := true }) with
          skid := fillEntries t k.tile o b.skid, accSat := wrapAdd 64 b.accSat o.sat.length }) s
      | _ => s

/-- A tile whose task runs no pass takes its outputs from the foot (R137, R159). -/
def footTile (n : Nat) (s : State) : State :=
  match (benchOf s n).run with
  | none => s
  | some a => match findTask s a.ring a.seq with
    | none => s
    | some t => match t.body with
      | .mat d =>
        if !worksOn s n t || t.stopping || taskPasses d != 0 || scratchHeld s t n (initRuns d) then s
        else beginTile n t d a (fun s =>
          let inB := (benchOf s n).nextB
          drainBank n inB (noteArrayDone t n (updBenchState n (nextPass d a) s))) s
      | _ => s

/-- TILE_DRAIN: the drain of the tile that is due, one at a time (R124). -/
def tileDrain (n : Nat) (s : State) : State :=
  let b := benchOf s n
  let busy (k : Option Bank) : Bool := match k with
    | some k => k.draining
    | none => false
  if busy b.bankA || busy b.bankB || !clockOn s n then s
  else match drainDue b with
    | some inB => drainBank n inB s
    | none => footTile n s

def execTileDrain (n : Nat) (s : State) : Answer := .next (tileDrain n s)

/-- TILE_BOUNDARY: the drain ends, the bank is free and the entries are drained (R124). -/
def tileBoundary (b : Bench) : Bench :=
  let free (k : Option Bank) : Option Bank := match k with
    | some k => if k.draining then none else some k
    | none => none
  { b with
    bankA := free b.bankA, bankB := free b.bankB
    skid := b.skid.map fun e => if e.draining then { e with draining := false, drained := true } else e }

def execTileBoundary (n : Nat) (s : State) : Answer :=
  .next (if n < 512 ∧ clockOn s n then updBenchState n tileBoundary s else s)

/-- ARRAY_PARITY_ERROR. -/
def execArrayParityError (n : Nat) (code : W16) (s : State) : Answer :=
  .next (if n < 512 ∧ 0x2201 ≤ code.toNat ∧ code.toNat ≤ 0x2204 then arrayError n code false (srcBench s n) s else s)

/-! ### Storing a skid entry (SKID_MODE 0, R192) -/

/-- Codes packed into bytes (R153). -/
def packCodes (bits : Nat) (cs : List Nat) : List Byte :=
  bytesOfNat (ceilDiv (cs.length * bits) 8) ((numbered cs).foldl (fun w c => w + (c.2 % 2 ^ bits) <<< (c.1 * bits)) 0)

/-- The writes of one row of one slot of an entry: elements, then MX scales, as (address field, bytes) (R160, R161). -/
def rowWrites (d : MatDesc) (e : SkidEntry) (s : Nat) (p : Problem) (m : Nat) : List (Nat × List Byte) :=
  let c := tileCoords d p e.tag.tile
  let np := slotN d.geometry
  let cols := tileCols d p e.tag.tile
  let mg := c.1 * np + m
  let ng := c.2 * np
  let bits := formatBits e.tag.format
  let n := if isMx e.tag.format then ceilDiv cols 32 * 32 else cols
  let codes := (List.range n).map fun j => e.outputs.get 0 (cellIndex d s m j)
  let elems := (p.cAddr + outBitOffset d p bits mg ng / 8, packCodes bits codes)
  if isMx e.tag.format then
    elems :: (List.range (ceilDiv cols 32)).map fun b =>
      (p.cAddr + outScaleStart d p bits + outScaleIndex d p mg (ng + 32 * b),
        [BitVec.ofNat 8 (e.scales.get 0 (cellIndex d s m (32 * b) / 32))])
  else [elems]

/-- Whether a row of a slot belongs to the entry: an ACC96 entry holds one quarter of the tile's rows (R162). -/
def entryHasRow (d : MatDesc) (e : SkidEntry) (s m : Nat) : Bool :=
  e.tag.format != .acc96 || ((slotOrigin d.geometry s).1 + m) / 32 == e.tag.part

/-- The writes of an entry. -/
def entryWrites (d : MatDesc) (e : SkidEntry) : List (Nat × List Byte) :=
  e.tag.problems.flatMap fun s =>
    let p := d.problems.getD s {}
    ((List.range (tileRows d p e.tag.tile)).filter (entryHasRow d e s)).flatMap fun m => rowWrites d e s p m

/-- Writes made in order. -/
def writeAll (q : Requester) : List (Nat × List Byte) → State → Reply Unit × State
  | [], s => (.done (), s)
  | (a, bs) :: ws, s => Reply.andThen (fieldWrite q a bs s) fun _ u => writeAll q ws u

/-! ### Dresser runs -/

/-- The next instruction of a phase after an index. -/
def nextInPhase (prog : List DInstr) (ph pc : Nat) : Option Nat :=
  ((numbered prog).find? fun i => decide (pc < i.1) && i.2.phase == ph).map (·.1)

/-- Columns and rows of the iteration space of a run (R170, R175). -/
def runD0 (d : Option MatDesc) (r : DresserRun) : Nat := match d with
  | some d => slotN d.geometry
  | none => r.desc.d0
def runD1 (d : Option MatDesc) (r : DresserRun) : Nat := match d with
  | some d => slotN d.geometry
  | none => r.desc.d1

/-- The run after its strip: the next strip, d2, d3 or slot, or its end (R170, R175). -/
def nextStrip (d : Option MatDesc) (r : DresserRun) : DresserRun :=
  if r.strip + 1 < ceilDiv (runD1 d r) 16 then atStripStart { r with strip := r.strip + 1 }
  else match d with
    | some _ => match r.slotsLeft with
      | x :: xs => atStripStart { r with strip := 0, d2 := x, slotsLeft := xs }
      | [] => { r with done := true, midStrip := false }
    | none =>
      if r.d2 + 1 < r.desc.d2 then atStripStart { r with strip := 0, d2 := r.d2 + 1 }
      else if r.d3 + 1 < r.desc.d3 then atStripStart { r with strip := 0, d2 := 0, d3 := r.d3 + 1 }
      else { r with done := true, midStrip := false }

/-- The run after an instruction (R171): the next of its phase, of the next block, of a later phase, or the next strip. -/
def nextInstr (d : Option MatDesc) (r : DresserRun) : DresserRun :=
  match nextInPhase r.desc.program r.phase r.pc with
  | some i => { r with pc := i, midStrip := true }
  | none =>
    let r := { r with blockOpen := false }
    if r.phase % 2 = 1 ∧ r.block + 1 < ceilDiv (runD0 d r) 16 then
      match firstInstr r.desc.program r.phase with
      | some (_, i) => { r with pc := i, block := r.block + 1, midStrip := true }
      | none => { r with done := true }
    else match firstInstr r.desc.program (r.phase + 1) with
      | some (ph, i) => { r with phase := ph, pc := i, block := 0, midStrip := true }
      | none => nextStrip d r

/-- A task's last Dresser work is finished (R163, R240). -/
def markWorkDone (r seq : Nat) (s : State) : State := updTask r seq (fun t => { t with workDone := true }) s

/-- A store of an entry could not be made: the entry is freed, and its task ends at its tile in progress, once the entries already in the
skid are finished (R163, R165). -/
def endEntry (n : Nat) (t : Task) (code : W16) (pa : Nat) (s : State) : State :=
  endEarly t code (updBenchState n (fun b => { b with dresser := none, activity := .idle, skid := b.skid.drop 1 }) s) pa

/-- DRESSER_ENTRY_START: the Dresser takes the first reserved entry once it is drained (R191). -/
def entryStart (n : Nat) (s : State) : State :=
  let b := benchOf s n
  match b.dresser, b.skid with
  | none, e :: _ =>
    if !e.drained || !clockOn s n then s
    else match findTask s e.ring e.seq with
      | none => s
      | some t => match t.body with
        | .mat d =>
          if t.blocked then s
          else
            let s0 := if benchSealed s t then s
              else benchInject [0x2320, 0x2321, 0x2322] n [] (fun c _ s => dresserError n c true s) s
            if ((benchOf s0 n).skid.head?.map fun x => ownedBy t.ring t.seq x.ring x.seq) ≠ some true then s0
            else match d.epilogue with
              | none => match writeAll (dresserRequester t n) (entryWrites d e) s0 with
                | (.wait, s1) => blockTask t s1
                | (.fail c pa, s1) => endEntry n t c pa s1
                | (.done _, s1) => updBenchState n (fun b => { b with
                    regs := {}
                    dresser := some { ring := t.ring, seq := t.seq, desc := {}, entry := some e.tag, done := true }
                    activity := .storing }) s1
              | some v => match e.tag.problems with
                | [] => updBenchState n (fun b => { b with
                    regs := {}
                    dresser := some { ring := t.ring, seq := t.seq, desc := v, entry := some e.tag, done := true }
                    activity := .epilogue }) s0
                | x :: xs => updBenchState n (beginRun
                    { ring := t.ring, seq := t.seq, desc := v, entry := some e.tag, slotsLeft := xs, d2 := x } .epilogue) s0
        | _ => s
  | _, _ => s

def execDresserEntryStart (n : Nat) (s : State) : Answer := .next (entryStart n s)

/-- A task that ended early fails once the Dresser has finished its entries (R163). -/
def settleEnds (r seq : Nat) (s : State) : State :=
  match findTask s r seq with
  | some t => match t.ends with
    | some e => if entriesLeft s t then s else failAs t e s
    | none => s
  | none => s

/-- A squashed member that has reached its stop point retires (R252), a task that the module-scope action stops fails (R458); a ring reset
waits for the bench's report (R253). -/
def settleStop (r seq : Nat) (s : State) : State :=
  match findTask s r seq with
  | some t =>
    if t.stopping && t.member && decide ((groupOf s t.header.group).state = .squashing) && atStop s t then
      freeGroup t.header.group (retireSquashed t s)
    else if s.err.moduleStopped && t.stopping && !t.workDone && atStop s t then failTask t 0x9302 s
    else s
  | none => s

/-- SKID_ENTRY_FREE: the Dresser is done with its entry (R191, R193). -/
def entryFree (n : Nat) (s : State) : State :=
  match (benchOf s n).dresser with
  | some r => match r.entry with
    | some tag =>
      if !r.done then s
      else
        let s1 := updBenchState n (fun b => { b with dresser := none, activity := .idle, skid := b.skid.drop 1 }) s
        let s2 := if tag.last then markWorkDone r.ring r.seq s1 else s1
        takeVector n (settleStop r.ring r.seq (settleEnds r.ring r.seq s2))
    | none => s
  | none => s

def execSkidEntryFree (n : Nat) (s : State) : Answer := .next (entryFree n s)

/-- DRESSER_PARITY_ERROR. -/
def execDresserParityError (n : Nat) (s : State) : Answer := .next (if n < 512 then dresserError n 0x2320 false s else s)

/-- SKID_ENTRY_ERROR. -/
def execSkidEntryError (n : Nat) (corrected : Bool) (s : State) : Answer :=
  .next (if n < 512 then dresserError n (if corrected then 0x2322 else 0x2321) false s else s)

end Sys2Proof.Machine
end

