-- ==== Sys2Proof/Machine/HartOps.lean ====
section
/-!
DEFINITION. Machine/HartOps.lean: what an access of a Landing hart is to the module (R425–R429): its faults, its combined stores, its
loads of the tiers.
-/

namespace Sys2Proof.Machine

/-- The context of a hart (R287, R312): an unlisted hart has the reset value 0x0001. -/
def hartContextOf (s : State) (h : Nat) : Nat := s.hartContext.get 1 h

/-- A hart as a requester, with the context that an earlier access carries, and with its present one (R314). -/
def hartRequesterIn (h context : Nat) : Requester := { agent := .hart h, context := context }
def hartRequester (s : State) (h : Nat) : Requester := hartRequesterIn h (hartContextOf s h)

/-- The time CSR of every hart: the 25 MHz reference counted from when the cores left reset (R424). -/
def coreTime (s : State) : Nat := match s.landing.coresSince with
  | some t => (s.now - t) / 40
  | none => 0

/-- Every earlier store of a hart has been acknowledged: none is combined, none is on its way to a port die (R322). -/
def storesAcked (s : State) (h : Nat) : Bool :=
  (hartOf s h).combined.isEmpty && s.fabric.transfers.all fun x => x.state != .leaving || !x.ofHart h

/-- A hart waits for nothing, or for a barrier that has completed, or a write to the set it stalls on has woken it (R322, R327). -/
def hartFree (s : State) (h : Nat) : Bool :=
  match (hartOf s h).waiting with
  | .nothing => true
  | .barrier => storesAcked s h
  | .stalled b => decide ((hartOf s h).reservation ≠ some b)
  | .migration _ _ _ _ | .remote _ | .write | .site _ => false

/-- A hart that runs: out of reset, waiting for nothing. -/
def hartRuns (s : State) (h : Nat) : Bool :=
  decide (h < 64) && decide ((hartOf s h).state = .running) && hartFree s h && inService s

/-! ### Faults (R427–R429) -/

/-- ACC_FAULT after a fault of a code. -/
def accFaultAfter (old : W64) (deferred : Bool) (code : W16) : W64 :=
  let valid := old.getLsbD 63
  let overrun := valid || old.getLsbD 61
  BitVec.ofNat 64 (2 ^ 63 + bitNat deferred * 2 ^ 62 + bitNat overrun * 2 ^ 61 + code.toNat)

/-- The codeword's bytes of a combined store as a run from the codeword's start, the old bytes where it has none. -/
def mergeCombined (old : List Byte) (c : List (Nat × Byte)) : List Byte :=
  (List.range old.length).map fun i => match c.find? fun x => x.1 == i with
    | some x => x.2
    | none => old.getD i 0

/-- The runs of consecutive offsets of a combined store. -/
def byteRuns : List (Nat × Byte) → List (Nat × List Byte)
  | [] => []
  | (o, b) :: bs => match byteRuns bs with
    | (p, cs) :: rs => if p = o + 1 then (o, b :: cs) :: rs else (o, [b]) :: (p, cs) :: rs
    | [] => [(o, [b])]

/-- The bytes of a combined store in rising order. -/
def sortedBytes (bs : List (Nat × Byte)) : List (Nat × Byte) :=
  (List.range 512).filterMap fun i => bs.find? fun x => x.1 == i

/-- The record of a refusal of a hart's access (R428). -/
def reportHart (q : Requester) (code : W16) (pa : Nat) (s : State) : State :=
  report { code := code, source := srcModule s, address := BitVec.ofNat 64 pa, context := BitVec.ofNat 16 q.context
           detail2 := BitVec.ofNat 32 q.hartId } s

/-- What refuses a write of runs of bytes within one codeword of the near or bulk tier. -/
def runsRefusal (s : State) (q : Requester) (base : Nat) (runs : List (Nat × List Byte)) : Option W16 :=
  firstSome (fun r => pieceRefusal s q (base + r.1, r.2.length)) runs

/-- A write of runs of bytes within one codeword (R426): all of them take their place, or, of a write that is refused, none; a posted one
then leaves one record (R321, R428). -/
def writeRuns (q : Requester) (base : Nat) (runs : List (Nat × List Byte)) (s0 : State) : Reply Unit × State :=
  match regionOf base with
  | .aperture => tieredWriteRuns q (base - apertureBase) runs s0
  | .near | .bulk =>
    let s := stakeTableRead q s0
    match runsRefusal s q base runs with
    | some c => if writePosted s q false base then (.done (), reportPosted q c base s) else (.fail c base, s)
    | none => (.done (), runs.foldl (fun s r => placeBytes q (base + r.1) r.2 s) s)
  | .flash => (.fail 0x4201 base, s0)
  | _ => (.fail 0x5105 base, s0)

/-- A hart's oldest combined store to one codeword leaves as one write of the bytes written, with the context it carries (R314, R426):
whole codewords clear poison; a refusal is recorded and comes back to the hart later (R428); a store into an ashlar being copied stays
(R271). -/
def sendCombined (h codeword : Nat) (s : State) : State :=
  match (hartOf s h).combined.find? fun c => c.codeword == codeword with
  | none => s
  | some c =>
    let q := hartRequesterIn h c.context
    let gone (s : State) : State := updHart h (fun x => { x with combined := x.combined.filter fun y => y != c }) s
    match writeRuns q (codeword * 512) (byteRuns (sortedBytes c.bytes)) s with
    | (.done _, u) => gone u
    | (.wait, u) => u
    | (.fail code pa, u) => updHart h (fun x => { x with deferred := x.deferred ++ [⟨code, pa⟩] }) (reportHart q code pa (gone u))

/-- Every combined store of a hart leaves: a store barrier, an atomic or a trap (R426). -/
def sendAllCombined (h : Nat) (s : State) : State :=
  ((hartOf s h).combined.map (·.codeword)).foldl (fun s c => sendCombined h c s) s

/-- A hart takes an exception at the instruction it stands at; medeleg delegates it unless the hart is in M-mode (R428). -/
def Hart.take (trap : HartTrap) (stval : Nat) (x : Hart) : Hart :=
  { x with trap := some (trap, BitVec.ofNat 64 stval), epc := x.pc, tval2 := 0
           delegated := x.medeleg.getLsbD trap.cause && decide (x.mode ≠ .m) }

/-- A hart takes an exception that the module causes: its combined stores leave, ACC_FAULT is set (R426, R428, R429). -/
def hartFault (h : Nat) (trap : HartTrap) (stval : Nat) (deferred : Bool) (code : W16) (s : State) : State :=
  updHart h (fun x => { x.take trap stval with accFault := accFaultAfter x.accFault deferred code }) (sendAllCombined h s)

/-- A refusal by the module of a load or atomic: its record with the physical address, and a precise fault at the address in the program
(R428). -/
def hartRefused (q : Requester) (h : Nat) (trap : HartTrap) (code : W16) (va pa : Nat) (s : State) : State :=
  hartFault h trap va false code (reportHart q code pa s)

/-- An access that the address map does not allow: it never leaves the hart (R427). -/
def hartBarred (h : Nat) (trap : HartTrap) (va : Nat) (s : State) : State := hartFault h trap va false 0x9103 s

/-! ### Loads of the tiers -/

/-- A hart's own combined bytes over what memory holds; the latest store of a byte wins. -/
def overlayOwn (x : Hart) (pa : Nat) (bs : List Byte) : List Byte :=
  (List.range bs.length).map fun i =>
    let a := pa + i
    x.combined.foldl (fun v c =>
      if c.codeword = a / 512 then match c.bytes.find? fun b => b.1 == a % 512 with
        | some b => b.2
        | none => v
      else v) (bs.getD i 0)

/-- The pieces of an access, each within one codeword. -/
def codewordPieces (p : HartPiece) : List HartPiece :=
  (blocksOf 512 p.pa p.n).map fun c =>
    let a := max p.pa (c * 512)
    ⟨p.va + (a - p.pa), a, min (p.pa + p.n) (c * 512 + 512) - a⟩

/-- Pieces read one after the other, the hart's own bytes over them; and the address in the program where the reading ended. -/
def readPiecesOf (q : Requester) (h : Nat) : List HartPiece → State → Reply (List Byte) × Nat × State
  | [], s => (.done [], 0, s)
  | p :: ps, s => match placeRead q p.pa p.n s with
    | (.done bs, u) => match readPiecesOf q h ps u with
      | (.done r, a, v) => (.done (overlayOwn (hartOf v h) p.pa bs ++ r), a, v)
      | (.wait, a, v) => (.wait, a, v)
      | (.fail c pa, a, v) => (.fail c pa, a, v)
    | (.wait, u) => (.wait, p.va, u)
    | (.fail c pa, u) => (.fail c pa, p.va, u)

/-- Codewords that the system cache holds: 128 MiB (R14). -/
def systemCacheLines : Nat := 262144

/-- An access of a hart in a context looks a codeword up in the system cache: a line present is where 0x9304 may be injected, and is
refetched (R425, R466); a read that misses brings it in (R426), in place of the oldest when the cache is full (log 69). -/
def systemCacheAccess (context : Nat) (fill : Bool) (s : State) (codeword : Nat) : State :=
  if !cachedRegion (regionOf (codeword * 512)) then s
  else if s.landing.systemCache.contains codeword then
    let f := fireInjection 0x9304 (fun l => l / 512 == codeword && !isSealed s context && !sealedData s (codeword * 512)) s
    if f.1 then report { code := 0x9304, source := srcModule s, address := BitVec.ofNat 64 (codeword * 512), injected := true } f.2 else f.2
  else if fill then { s with landing := { s.landing with systemCache := (codeword :: s.landing.systemCache).take systemCacheLines } } else s

/-- The codewords of an access looked up. -/
def systemCacheRange (context : Nat) (fill : Bool) (ps : List HartPiece) (s : State) : State :=
  (ps.flatMap fun p => blocksOf 512 p.pa p.n).foldl (systemCacheAccess context fill) s

/-- What a load leaves with its hart; of a vector access the bytes beyond the first eight too. -/
def Hart.loaded (bs : List Byte) (x : Hart) : Hart :=
  { x with
    value := BitVec.ofNat 64 (natOfBytes (bs.take 8))
    valueHi := if bs.length ≤ 8 then x.valueHi else BitVec.ofNat 64 (natOfBytes ((bs.drop 8).take 8))
    valueRest := bs.drop 16 }

/-- The access fault of a load or of a fetch. -/
def loadTrap (fetch : Bool) : HartTrap := if fetch then .fetchAccess else .loadAccess

/-- A load or fetch of the tiers by a hart, with the context it carries (R314, R427); an access to an uncached page bypasses the caches
(R426). -/
def hartTierLoad (h context : Nat) (fetch cached : Bool) (ps : List HartPiece) (s : State) : State :=
  let q := hartRequesterIn h context
  match readPiecesOf q h (ps.flatMap codewordPieces) s with
  | (.done bs, _, u) => updHart h (fun x => { x.loaded bs with waiting := .nothing }) (if cached then systemCacheRange context true ps u else u)
  | (.wait, _, u) => updHart h (fun x => { x with waiting := .migration fetch ps context cached }) u
  | (.fail code a, va, u) => hartRefused q h (loadTrap fetch) code va a (updHart h (fun x => { x with waiting := .nothing }) u)

/-- A hart whose migration has ended carries out its load (R267). -/
def hartResume (h : Nat) (s : State) : State :=
  match (hartOf s h).waiting with
  | .migration fetch ps context cached => hartTierLoad h context fetch cached ps s
  | .nothing | .remote _ | .write | .site _ | .barrier | .stalled _ => s

/-- A hart whose migration has failed takes the fault of its load (R279). -/
def hartFailWait (h : Nat) (code : W16) (pa : Nat) (s : State) : State :=
  match (hartOf s h).waiting with
  | .migration fetch ps context _ => hartRefused (hartRequesterIn h context) h (loadTrap fetch) code ((ps.head?.map (·.va)).getD 0) pa
      (updHart h (fun x => { x with waiting := .nothing }) s)
  | .nothing | .remote _ | .write | .site _ | .barrier | .stalled _ => s

end Sys2Proof.Machine
end

