-- ==== Sys2Proof/Machine/Repair.lean ====
section
/-!
DEFINITION. Machine/Repair.lean: who waits for an ashlar, how they are served or fail, and a repair from a replica that fails (R267, R271,
R278–R280).
-/

namespace Sys2Proof.Machine

/-- A handle with an offset added to its bits 39:0 (R177). -/
def handlePlus (h off : Nat) : Nat := h / 2 ^ 40 * 2 ^ 40 + (h + off) % 2 ^ 40

/-! ### Waiters -/

/-- A waiter served: its task goes on, its ring reads on, its hart carries out its load (R267). -/
def serveWaiter (s : State) (w : Waiter) : State :=
  match w with
  | .task r seq =>
    if (findTask s r seq).isSome then updTask r seq (fun t => { t with blocked := false }) s
    else updRing r (fun q => { q with readWaits := false }) s
  | .hart h => hartResume h s
  | .external => s

/-- The waiters of an ashlar served: the accesses they make next were accepted before (R267, R271). -/
def serveWaiters (ashlar : Nat) (ws : List Waiter) (s : State) : State :=
  let waits := (ws.filter (· != .external)).map fun w => (w, ashlar)
  ws.foldl serveWaiter { s with tier := { s.tier with admitted := s.tier.admitted ++ waits } }

/-- A waiter of a migration that has failed (R279): its task ends, its staging ends with the code, its hart takes a fault. -/
def failTierWaiter (code : W16) (pa : Nat) (s : State) (w : Waiter) : State :=
  match w with
  | .task r seq => match findTask s r seq with
    | some t => if t.phase = .failed then s else endWaiting t code pa s
    | none => failStaging code (some pa) r s
  | .hart h => hartFailWait h code pa s
  | .external => s

/-- A migration taken out of those in progress, and its frame with it when it leaves no copy. -/
def endMigration (m : Migration) (keep : Bool) (s : State) : State :=
  { s with tier := { s.tier with
    inProgress := s.tier.inProgress.filter fun x => x.ashlar != m.ashlar
    frames := if keep then s.tier.frames.map fun f =>
        if f.ashlar = m.ashlar ∧ !f.leaving then { f with copying := false, lastUse := s.tier.useClock } else f
      else s.tier.frames.filter fun f => f.ashlar != m.ashlar || f.leaving
    useClock := s.tier.useClock + 1 } }

/-- Every waiter of a migration fails, and no copy is left (R279). -/
def failMigration (m : Migration) (code : W16) (pa : Nat) (s : State) : State :=
  m.waiters.foldl (failTierWaiter code pa) (endMigration m false s)

/-- The replica's handle of an ashlar (R280). -/
def replicaHandle (o : TierObject) (ashlar : Nat) : Nat := handlePlus o.replica.toNat ((ashlar - o.base) / ashlarSize * ashlarSize)

/-- A repair whose fetch fails: every failing block is poisoned, the waiters fail, the record names the peer by its handle (R280). -/
def repairFailed (m : Migration) (s : State) : State :=
  match servingObject s m.ashlar with
  | none => s
  | some (_, o) =>
    let pa := m.repair.headD 0
    let s1 := m.repair.foldl (fun s a => poisonAt a s) s
    let s2 := failMigration m 0x4301 pa { s1 with tier := { s1.tier with repairFailed := satAdd 32 s1.tier.repairFailed 1 } }
    report { code := 0x4304, source := srcModule s, address := BitVec.ofNat 64 pa, context := BitVec.ofNat 16 o.context,
             detail0 := BitVec.ofNat 64 (replicaHandle o m.ashlar) } s2

end Sys2Proof.Machine
end

