-- ==== Sys2Proof/Machine/DeckOps.lean ====
section
/-!
DEFINITION. Machine/DeckOps.lean: the Deck unit's own operations: handles, pages, rows and what each operation checks and changes
(R200–R217).
-/

namespace Sys2Proof.Machine

/-- Home grove, slot and generation of a handle (R200). -/
def handleGrove (h : Nat) : Nat := h % 65536 / 16384
def handleSlot (h : Nat) : Nat := h % 16384
def handleGen (h : Nat) : Nat := h / 65536 % 65536

/-- The handle of a slot of a grove. -/
def handleOf (g slot gen : Nat) : Nat := gen * 65536 + g * 16384 + slot

/-- The Deck unit of a grove, an entry of it, and either with a change. -/
def deckOf (s : State) (g : Nat) : DeckUnit := s.decks.get {} g
def updDeck (g : Nat) (f : DeckUnit → DeckUnit) (s : State) : State := { s with decks := s.decks.update {} g f }
def seqOf (u : DeckUnit) (slot : Nat) : SeqEntry := u.seqs.get {} slot
def updSeq (slot : Nat) (f : SeqEntry → SeqEntry) (u : DeckUnit) : DeckUnit := { u with seqs := u.seqs.update {} slot f }

/-- PROV of an entry. -/
def provOf (e : SeqEntry) : Nat := e.groups.length

/-- ROW_BYTES (R202). -/
def rowBytes (u : DeckUnit) (e : SeqEntry) : Nat := 2 ^ (u.pageLog2 - 4 - e.streamsLog2)

/-- Offset of the page pool in the area, and the bytes of the area (R204). -/
def poolOffset (u : DeckUnit) : Nat :=
  let a := max 0x200000 (2 ^ u.pageLog2)
  ceilDiv (0x100000 + 16384 * 2 ^ u.listLog2 + u.poolPages * 8) a * a
def areaBytes (u : DeckUnit) : Nat := poolOffset u + u.poolPages * 2 ^ u.pageLog2

/-- Address of a pool page. -/
def pageAddr (u : DeckUnit) (i : Nat) : Nat := u.areaBase + poolOffset u + i * 2 ^ u.pageLog2

/-- Address of a row (R203). -/
def rowAddr (u : DeckUnit) (e : SeqEntry) (stream tok : Nat) : Nat :=
  pageAddr u (e.pages.getD (tok / 16) 0) + stream * 16 * rowBytes u e + tok % 16 * rowBytes u e

/-- The Deck unit as a requester (R287). -/
def deckRequester : Requester := { agent := .deck, context := 0xFFF0 }

/-- Where a slot's sequence table entry and its page list lie in the area: (address, bytes) (R204). -/
def slotPlaces (u : DeckUnit) (slot : Nat) : List (Nat × Nat) :=
  [(u.areaBase + 64 * slot, 64), (u.areaBase + 0x100000 + slot * 2 ^ u.listLog2, 2 ^ u.listLog2)]

/-- Where the metadata of a pool page lies (R204); the base stands last, where evaluation of the sum stops. -/
def pagePlace (u : DeckUnit) (i : Nat) : Nat × Nat := (8 * i + (16384 * 2 ^ u.listLog2 + (0x100000 + u.areaBase)), 8)

/-- What refuses the Deck unit's accesses to some places of its area: their stakes, or poison (R204, R279, R303). -/
def placesRefusal (s : State) (ps : List (Nat × Nat)) : Option W16 :=
  firstSome (fun p => match accessRefusal s deckRequester false p.1 p.2 with
    | some c => some c
    | none => if poisonIn s p.1 p.2 then some 0x4301 else none) ps

/-- What refuses the Deck unit's accesses to some slots' entries and page lists, and to some pages' metadata. -/
def tableRefusal (s : State) (g : Nat) (slots pages : List Nat) : Option W16 :=
  let u := deckOf s g
  placesRefusal s (slots.flatMap (slotPlaces u) ++ pages.map (pagePlace u))

/-- A list up to its first element that a test names, that one included. -/
def throughFirst (p : Nat → Bool) : List Nat → List Nat
  | [] => []
  | i :: is => if p i then [i] else i :: throughFirst p is

/-- A grove's tables once a range of its area has been zeroed: an entry there is FREE with GEN 0, a page list there names page 0, a
reference count there is 0, and the free stack ends at a page whose link is zeroed (R204, R305; log 87). -/
def zeroTables (pa n : Nat) (u : DeckUnit) : DeckUnit :=
  let inRange (a : Nat) : Bool := decide (pa ≤ a ∧ a < pa + n)
  let list (slot : Nat) (e : SeqEntry) : SeqEntry :=
    { e with pages := (numbered e.pages).map fun p => if inRange (u.areaBase + 0x100000 + slot * 2 ^ u.listLog2 + 4 * p.1) then 0 else p.2 }
  let counted (i : Nat) : Bool := inRange (u.areaBase + 0x100000 + 16384 * 2 ^ u.listLog2 + 8 * i)
  if !u.enable then u
  else { u with
    seqs := (u.seqs.mapListed {} list).mapListed {} fun slot e => if inRange (u.areaBase + 64 * slot) then {} else e
    refs := u.refs.mapListed 0 fun i r => if counted i then 0 else r
    freeStack := throughFirst counted u.freeStack }

/-- Live sequences of a partition (R201). -/
def partitionLive (s : State) (p : Nat) : Nat :=
  s.decks.cells.foldl (fun n c => n + (c.2.seqs.cells.filter fun e => decide (e.2.state = .live) && e.2.partition == p).length) 0

/-- DECK_QUOTA of a partition (R53). -/
def deckQuota (s : State) (p : Nat) : Nat :=
  match s.cfg with
  | some c => (c.partitions.get {} p).deckQuota
  | none => 0

/-- The lowest FREE slot (R209). -/
def freeSlotOf (u : DeckUnit) : Option Nat := (List.range 16384).find? fun i => decide ((seqOf u i).state = .free)

/-- A page taken: the top of the free stack, else the lowest never used (R206). -/
def takePage (u : DeckUnit) : Option (Nat × DeckUnit) :=
  match u.freeStack with
  | i :: is => some (i, { u with freeStack := is, refs := u.refs.set 0 i 1 })
  | [] => if u.neverUsed < u.poolPages then some (u.neverUsed, { u with neverUsed := u.neverUsed + 1, refs := u.refs.set 0 u.neverUsed 1 })
    else none

/-- The pages that the next `n` allocations take. -/
def nextPages (u : DeckUnit) (n : Nat) : List Nat :=
  u.freeStack.take n ++ (List.range (n - u.freeStack.length)).map (u.neverUsed + ·)

/-- `n` pages taken for a slot, appended to its page list; none when the pool is exhausted (R206, R209). -/
def takePages (slot : Nat) : Nat → DeckUnit → Option DeckUnit
  | 0, u => some u
  | n + 1, u => match takePage u with
    | none => none
    | some (i, v) => takePages slot n (updSeq slot (fun e => { e with pages := e.pages ++ [i] }) v)

/-- Pages a slot still needs to hold `tokens` tokens (R209). -/
def pagesShort (e : SeqEntry) (tokens : Nat) : Nat := ceilDiv tokens 16 - e.pages.length

/-- Tokens a sequence holds at most (R204). -/
def tokenLimit (u : DeckUnit) : Nat := 2 ^ (u.listLog2 + 2)

/-- The group with which a task's tokens are labelled: that of a speculative member whose group is not confirmed (R251); a squashed one
that still stops is speculative yet (R212). -/
def deckGroup (s : State) (t : Task) : Nat :=
  if t.member then match (groupOf s t.header.group).state with
    | .opened | .squashing => t.header.group
    | .confirming | .free => 0
  else 0

/-- A token's group as it counts: a confirmed one counts as 0 (R216). -/
def countsAs (s : State) (g : Nat) : Nat := if g ≠ 0 ∧ (groupOf s g).state = .confirming then 0 else g

/-- Whether labels keep R216: at most one non-zero group, and no group-0 token after one. -/
def labelsGood : List Nat → Bool
  | [] => true
  | g :: gs => if g = 0 then labelsGood gs else gs.all fun x => x == g

/-- Whether a provisional token carries a group neither confirmed nor squashed (R216). -/
def groupsOpen (s : State) (e : SeqEntry) : Bool := e.groups.any fun g => g != 0 && decide ((groupOf s g).state = .opened)

/-- The conditions on the handle and the owner (R209). -/
def seqRefusal (s : State) (t : Task) (h : Nat) : Option W16 :=
  let e := seqOf (deckOf s (handleGrove h)) (handleSlot h)
  if h = 0 ∨ e.state ≠ .live ∨ e.gen ≠ handleGen h then some 0x3801
  else if e.context ≠ t.context ∨ e.partition ≠ t.partition then some 0x3802
  else none

/-- Whether a row may be written, over a byte range of it (R212). -/
def rowWritable (s : State) (t : Task) (u : DeckUnit) (e : SeqEntry) (stream tok lo n : Nat) : Bool :=
  let g := deckGroup s t
  decide (stream < 2 ^ e.streamsLog2) && decide (tok < e.committed + provOf e) && decide (lo + n ≤ rowBytes u e) &&
  (if tok < e.committed then u.refs.get 0 (e.pages.getD (tok / 16) 0) == 1 && g == 0
   else g == 0 || countsAs s (e.groups.getD (tok - e.committed) 0) == g)

/-- A row read, one 128-byte unit of it read, and a row written, by the Deck unit, for an operation or a run that has been accepted (R314). -/
def rowRequester : Requester := { deckRequester with accepted := true }
def rowRead (u : DeckUnit) (e : SeqEntry) (stream tok : Nat) (s : State) : Reply (List Byte) × State :=
  physRead rowRequester (rowAddr u e stream tok) (rowBytes u e) s
def unitRead (u : DeckUnit) (e : SeqEntry) (stream tok k : Nat) (s : State) : Reply (List Byte) × State :=
  physRead rowRequester (rowAddr u e stream tok + 128 * k) 128 s
def rowWrite (u : DeckUnit) (e : SeqEntry) (stream tok lo : Nat) (bs : List Byte) (s : State) : Reply Unit × State :=
  physWrite rowRequester (rowAddr u e stream tok + lo) bs s

/-- What the stakes of some rows refuse, by stream and token, as an operation or a run is accepted (R303, R305). -/
def rowsRefusal (s : State) (u : DeckUnit) (e : SeqEntry) (rows : List (Nat × Nat)) : Option W16 :=
  firstSome (fun r => accessRefusal s deckRequester false (rowAddr u e r.1 r.2) (rowBytes u e)) rows

/-- DECK_OPS counts an operation that took effect (R205). -/
def countDeckOp (g : Nat) (s : State) : State := updDeck g (fun u => { u with ops := wrapAdd 64 u.ops 1 }) s

/-- The sequence table entry as its 64 bytes (R207). -/
def seqStateCode : SeqState → Nat
  | .free => 0 | .live => 1 | .scrubbing => 2 | .retired => 3
def seqBytes (e : SeqEntry) : List Byte :=
  bytesOfNat 2 e.gen ++ bytesOfNat 1 (seqStateCode e.state) ++ bytesOfNat 1 e.streamsLog2 ++ bytesOfNat 2 e.context ++
  bytesOfNat 1 e.partition ++ bytesOfNat 1 (provOf e) ++ bytesOfNat 4 e.committed ++ bytesOfNat 4 e.pages.length ++
  (List.range 16).flatMap (fun i => bytesOfNat 2 (e.groups.getD i 0)) ++ List.replicate 16 0

/-! ### Fabric transfers leaving a bench -/

/-- A transfer of a task's bytes made ready for a port die (R177, R274, R387). -/
def sendTransfer (t : Task) (handle : Nat) (timed : Bool) (bs : List Byte) (s : State) : State :=
  let id := s.fabric.nextTransfer
  let x : Transfer := { id := id, ring := some t.ring, seq := t.seq, context := t.context, timed := timed, handle := handle, data := bs,
                        sealed := isSealed s t.context, remaining := bs.length }
  updTask t.ring t.seq (fun t => { t with transfers := t.transfers ++ [id] })
    { s with fabric := { s.fabric with transfers := s.fabric.transfers ++ [x], nextTransfer := id + 1 } }

end Sys2Proof.Machine
end

