-- ==== Sys2Proof/Machine/Trans.lean ====
section
/-!
DEFINITION. Machine/Trans.lean: the transcendental operations of the Dresser, correctly rounded (R180).
Each forms an interval that holds the exact result, at a fixed scale far below the smallest FP32 difference, and rounds both
ends; where both round alike that code is the correctly rounded result.
-/

namespace Sys2Proof.Machine

/-- Bits below the point of the intervals. -/
def fixBits : Nat := 800

/-- One at that scale. -/
def fixOne : Nat := 2 ^ fixBits

/-- An interval of non-negative numbers at scale 2^-fixBits. -/
structure Ivl where
  lo : Nat
  hi : Nat
deriving DecidableEq, Repr

/-- Interval sum. -/
def ivAdd (a b : Ivl) : Ivl := ⟨a.lo + b.lo, a.hi + b.hi⟩

/-- Interval difference of a greater and a smaller number. -/
def ivSub (a b : Ivl) : Ivl := ⟨a.lo - b.hi, a.hi - b.lo⟩

/-- Interval product. -/
def ivMul (a b : Ivl) : Ivl := ⟨(a.lo * b.lo) >>> fixBits, (a.hi * b.hi) / fixOne + 1⟩

/-- Interval quotient (the divisor's lower end is positive). -/
def ivDiv (a b : Ivl) : Ivl := ⟨(a.lo <<< fixBits) / b.hi, (a.hi <<< fixBits) / b.lo + 1⟩

/-- A positive whole number divided into an interval. -/
def ivDivNat (a : Ivl) (n : Nat) : Ivl := ⟨a.lo / n, a.hi / n + 1⟩

/-- A whole number as an interval. -/
def ivNat (n : Nat) : Ivl := ⟨n <<< fixBits, n <<< fixBits⟩

/-- The interval of a magnitude `m · 2^e`. -/
def ivOfMag (m : Nat) (e : Int) : Ivl :=
  let k := e + fixBits
  if 0 ≤ k then ⟨m <<< k.toNat, m <<< k.toNat⟩
  else ⟨m >>> (-k).toNat, (m >>> (-k).toNat) + 1⟩

/-- `1 + r + r²/2! + …` by `fuel` terms, with a bound on the rest added above (r below 2^-8). -/
def expTerms (r : Ivl) : Nat → Nat → Ivl → Ivl → Ivl
  | 0, _, term, sum => ⟨sum.lo, sum.hi + 2 * term.hi⟩
  | k + 1, n, term, sum =>
    let t := ivDivNat (ivMul term r) n
    expTerms r k (n + 1) t (ivAdd sum t)

/-- An interval squared `k` times. -/
def ivSquares : Nat → Ivl → Ivl
  | 0, a => a
  | k + 1, a => ivSquares k (ivMul a a)

/-- e^x of a non-negative x at most 2^8. -/
def expIv (x : Ivl) : Ivl :=
  let r : Ivl := ⟨x.lo >>> 16, (x.hi >>> 16) + 1⟩
  ivSquares 16 (expTerms r 80 1 (ivNat 1) (ivNat 1))

/-- z + z³/3 + z⁵/5 + … by `fuel` terms, with a bound on the rest (z at most 1/3). -/
def atanhTerms (z2 : Ivl) : Nat → Nat → Ivl → Ivl → Ivl
  | 0, _, pw, sum => ⟨sum.lo, sum.hi + 2 * pw.hi⟩
  | k + 1, n, pw, sum => atanhTerms z2 k (n + 2) (ivMul pw z2) (ivAdd sum (ivDivNat pw n))

/-- atanh z. -/
def atanhIv (z : Ivl) : Ivl := atanhTerms (ivMul z z) 280 1 z ⟨0, 0⟩

/-- ln 2. -/
def ln2Iv : Ivl :=
  let a := atanhIv (ivDivNat (ivNat 1) 3)
  ivAdd a a

/-- z - z³/3 + z⁵/5 - …, the terms of one sign summed apart. -/
def atanTerms (z2 : Ivl) : Nat → Nat → Ivl → Ivl → Ivl → Ivl
  | 0, _, pw, plus, minus => ⟨plus.lo - minus.hi, plus.hi + pw.hi - minus.lo⟩
  | k + 1, n, pw, plus, minus =>
    let pw2 := ivMul pw z2
    atanTerms z2 k (n + 4) (ivMul pw2 z2) (ivAdd plus (ivDivNat pw n)) (ivAdd minus (ivDivNat pw2 (n + 2)))

/-- atan 1/n. -/
def atanInv (n : Nat) : Ivl :=
  let z := ivDivNat (ivNat 1) n
  atanTerms (ivMul z z) 90 1 z ⟨0, 0⟩ ⟨0, 0⟩

/-- π, by 16 atan 1/5 - 4 atan 1/239. -/
def piIv : Ivl :=
  let a := atanInv 5
  let b := atanInv 239
  ivSub ⟨16 * a.lo, 16 * a.hi⟩ ⟨4 * b.lo, 4 * b.hi⟩

/-- Square root of an interval. -/
def ivSqrt (a : Ivl) : Ivl := ⟨isqrt (a.lo <<< fixBits), isqrt (a.hi <<< fixBits) + 1⟩

/-- An interval with a sign rounded to FP32: the code where both ends round alike, else the undecided tail. -/
def ivRound (opcode : Nat) (a : W32) (neg : Bool) (v : Ivl) : W32 :=
  let lo := fp32Of (.fin neg v.lo (-(fixBits : Int)))
  let hi := fp32Of (.fin neg v.hi (-(fixBits : Int)))
  if lo = hi then lo else Config.roundedTail opcode a

/-- Whether a magnitude reaches `2^k`. -/
def reaches (m : Nat) (e : Int) (k : Int) : Bool := m != 0 && decide (k ≤ floorLog2 m e)

/-- e^x of a signed magnitude below 2^7; above it, an interval whose ends round as the value does. -/
def expSigned (neg : Bool) (m : Nat) (e : Int) : Ivl :=
  if reaches m e 7 then
    if neg then ⟨0, 1 <<< (fixBits - 184)⟩ else ⟨1 <<< (fixBits + 184), 1 <<< (fixBits + 185)⟩
  else
    let p := expIv (ivOfMag m e)
    if neg then ivDiv (ivNat 1) p else p

/-- EXP (R180). -/
def fp32Exp (a : W32) : W32 :=
  match fp32Val a with
  | .nan => fp32Nan
  | .inf n => if n then 0#32 else a
  | .fin n m e => if m = 0 then 0x3F800000#32 else ivRound 0x1C a false (expSigned n m e)

/-- LOG (R180). -/
def fp32Log (a : W32) : W32 :=
  match fp32Val a with
  | .nan => fp32Nan
  | .inf n => if n then fp32Nan else a
  | .fin n m e =>
    if m = 0 then 0xFF800000#32
    else if n then fp32Nan
    else
      let l := Nat.log2 m
      -- m·2^e = y·2^k with y in [3/4, 3/2)
      let big := decide (3 * 2 ^ l ≤ 2 * m)
      let k : Int := e + l + (if big then 1 else 0)
      let y := ivOfMag m (-(l : Int) - (if big then 1 else 0))
      let one := ivNat 1
      if m = 2 ^ l ∧ k = 0 then 0#32
      else
        let below := big
        let d := if below then ivSub one y else ivSub y one
        let z := ivDiv d (ivAdd one y)
        let h := atanhIv z
        let t := ivAdd h h
        let base : Ivl := ⟨k.natAbs * ln2Iv.lo, k.natAbs * ln2Iv.hi⟩
        if k = 0 then ivRound 0x1D a below t
        else
          let negK := decide (k < 0)
          ivRound 0x1D a negK (if negK = below then ivAdd base t else ivSub base t)

/-- 1 / (1 + e^-x) of a signed magnitude. -/
def sigmoidIv (n : Bool) (m : Nat) (e : Int) : Ivl :=
  ivDiv (ivNat 1) (ivAdd (ivNat 1) (expSigned (!n) m e))

/-- SIGMOID (R180). -/
def fp32Sigmoid (a : W32) : W32 :=
  match fp32Val a with
  | .nan => fp32Nan
  | .inf n => if n then 0#32 else 0x3F800000#32
  | .fin n m e => if m = 0 then 0x3F000000#32 else ivRound 0x1F a false (sigmoidIv n m e)

/-- TANH (R180). -/
def fp32Tanh (a : W32) : W32 :=
  match fp32Val a with
  | .nan => fp32Nan
  | .inf n => if n then 0xBF800000#32 else 0x3F800000#32
  | .fin n m e =>
    if m = 0 then a
    else
      let one := ivNat 1
      if reaches m e 6 then ivRound 0x1E a n ⟨one.lo - (1 <<< (fixBits - 100)), one.hi⟩
      else
        let t := expSigned false m (e + 1)
        ivRound 0x1E a n (ivDiv (ivSub t one) (ivAdd t one))

/-- SILU (R180). -/
def fp32Silu (a : W32) : W32 :=
  match fp32Val a with
  | .nan => fp32Nan
  | .inf n => if n then 0x80000000#32 else a
  | .fin n m e =>
    if m = 0 then a
    else if reaches m e 8 then
      if n then 0x80000000#32 else a
    else ivRound 0x20 a n (ivMul (ivOfMag m e) (sigmoidIv n m e))

/-- x + x³/3 + x⁵/15 + … (odd double factorials), with a bound on the rest. -/
def phiTerms (x2 : Ivl) : Nat → Nat → Ivl → Ivl → Ivl
  | 0, _, term, sum => ⟨sum.lo, sum.hi + 2 * term.hi⟩
  | k + 1, n, term, sum =>
    let t := ivDivNat (ivMul term x2) n
    phiTerms x2 k (n + 2) t (ivAdd sum t)

/-- The half-distribution Φ(x) - 1/2 of a non-negative x below 16. -/
def halfPhi (m : Nat) (e : Int) : Ivl :=
  let x := ivOfMag m e
  let x2 := ivMul x x
  let s := phiTerms x2 1500 3 x x
  let half : Ivl := ⟨x2.lo / 2, x2.hi / 2 + 1⟩
  ivDiv (ivDiv s (expIv half)) (ivSqrt ⟨2 * piIv.lo, 2 * piIv.hi⟩)

/-- GELU (R180). -/
def fp32Gelu (a : W32) : W32 :=
  match fp32Val a with
  | .nan => fp32Nan
  | .inf n => if n then 0x80000000#32 else a
  | .fin n m e =>
    if m = 0 then a
    else if reaches m e 4 then
      if n then 0x80000000#32 else a
    else
      let h := halfPhi m e
      let half : Ivl := ⟨fixOne / 2, fixOne / 2⟩
      ivRound 0x21 a n (ivMul (ivOfMag m e) (if n then ivSub half h else ivAdd half h))

/-- RELU (R180). -/
def fp32Relu (a : W32) : W32 := if (fp32Val a).isNan then fp32Nan else fp32Max a 0#32

end Sys2Proof.Machine
end

