-- ==== Sys2Proof/Machine/Operands.lean ====
section
/-!
DEFINITION. Machine/Operands.lean: the operand forms of Dresser instructions: registers, masks and lanes (R168, R172, R178), and the
elements of tensors they load and store (R176, R177, R183–R187).
-/

namespace Sys2Proof.Machine

/-- What a Dresser instruction runs in: its bench, task, run and MATMUL or SEMIRING descriptor. -/
structure DCtx where
  bench : Nat
  task : Task
  run : DresserRun
  mat : Option MatDesc := none
  instr : DInstr := {}
deriving DecidableEq, Repr

/-! ### Registers -/

/-- Lane l of tile register r, of strip register r, of mask register r (R168). -/
def tileLane (g : DresserRegs) (r l : Nat) : W32 := g.tiles.get 0 (r * 256 + l)
def stripLane (g : DresserRegs) (r l : Nat) : W32 := g.strips.get 0 (r * 16 + l)
def maskLane (g : DresserRegs) (r l : Nat) : Bool := g.masks.get false (r * 256 + l)

/-- Whether the instruction runs in a block phase (R171). -/
def DCtx.block (c : DCtx) : Bool := c.run.phase % 2 == 1

/-- The problem of an epilogue's slot run (R175). -/
def DCtx.problem (c : DCtx) : Problem := match c.mat with
  | some d => d.problems.getD c.run.d2 {}
  | none => {}

/-- Tile index of an epilogue's entry. -/
def DCtx.tile (c : DCtx) : Nat := (c.run.entry.map (·.tile)).getD 0

/-- Rows and columns that M0 covers (R172, R175). -/
def DCtx.rows (c : DCtx) : Nat := match c.mat with
  | some d => tileRows d c.problem c.tile
  | none => c.run.desc.d1
def DCtx.cols (c : DCtx) : Nat := match c.mat with
  | some d => tileCols d c.problem c.tile
  | none => c.run.desc.d0

/-- Global row of lane row r, and global column of lane column c (R175). -/
def DCtx.grow (c : DCtx) (r : Nat) : Nat := match c.mat with
  | some d => (tileCoords d c.problem c.tile).1 * slotN d.geometry + 16 * c.run.strip + r
  | none => 16 * c.run.strip + r
def DCtx.gcol (c : DCtx) (k : Nat) : Nat := match c.mat with
  | some d => (tileCoords d c.problem c.tile).2 * slotN d.geometry + 16 * c.run.block + k
  | none => 16 * c.run.block + k

/-- M0: the tail mask of a block lane, and of a strip lane (R172). -/
def DCtx.m0 (c : DCtx) (l : Nat) : Bool :=
  if c.block then decide (16 * c.run.strip + l / 16 < c.rows ∧ 16 * c.run.block + l % 16 < c.cols)
  else decide (l < 16 ∧ 16 * c.run.strip + l < c.rows)

/-- Mask register k at a lane: M0 is the tail mask. -/
def DCtx.maskAt (c : DCtx) (g : DresserRegs) (k l : Nat) : Bool := if k = 0 then c.m0 l else maskLane g k l

/-- Whether a lane is active (R172). -/
def DCtx.active (c : DCtx) (g : DresserRegs) (l : Nat) : Bool := c.m0 l && c.maskAt g c.instr.mask l

/-- The lanes of the phase. -/
def DCtx.lanes (c : DCtx) : List Nat := List.range (if c.block then 256 else 16)

/-- Operand A, operand B, and the destination's old value at a lane (R178). -/
def DCtx.opA (c : DCtx) (g : DresserRegs) (l : Nat) : W32 := if c.block then tileLane g c.instr.srcA l else stripLane g c.instr.srcA l
def DCtx.opB (c : DCtx) (g : DresserRegs) (l : Nat) : W32 :=
  if c.instr.bsrc = 2 then c.instr.imm
  else if c.block then (if c.instr.bsrc = 1 then stripLane g c.instr.srcB (l / 16) else tileLane g c.instr.srcB l)
  else stripLane g c.instr.srcB l
def DCtx.opD (c : DCtx) (g : DresserRegs) (l : Nat) : W32 := if c.block then tileLane g c.instr.dst l else stripLane g c.instr.dst l

/-- A lane of the destination written. -/
def DCtx.setD (c : DCtx) (l : Nat) (v : W32) (g : DresserRegs) : DresserRegs :=
  if c.block then { g with tiles := g.tiles.set 0 (c.instr.dst * 256 + l) v } else { g with strips := g.strips.set 0 (c.instr.dst * 16 + l) v }

/-- A strip lane of the destination written, whatever the phase (reductions, R179). -/
def DCtx.setS (c : DCtx) (r : Nat) (v : W32) (g : DresserRegs) : DresserRegs := { g with strips := g.strips.set 0 (c.instr.dst * 16 + r) v }

/-- A lane of the destination mask register written. -/
def DCtx.setM (c : DCtx) (l : Nat) (v : Bool) (g : DresserRegs) : DresserRegs := { g with masks := g.masks.set false (c.instr.dst * 256 + l) v }

/-- Every active lane of the destination takes a value computed from the registers as they stood before (R172). -/
def DCtx.mapLanes (c : DCtx) (f : DresserRegs → Nat → W32) (g : DresserRegs) : DresserRegs :=
  c.lanes.foldl (fun h l => if c.active g l then c.setD l (f g l) h else h) g

/-! ### Elements of tensors -/

/-- Byte offset of a tensor's row (R177). -/
def DCtx.rowOffset (c : DCtx) (t : Tensor) (row : Nat) : Nat := c.run.d3 * t.stride3 + c.run.d2 * t.stride2 + row * t.stride1

/-- The column whose element a tensor reads (R176, R177). -/
def tensorCol (t : Tensor) (col : Nat) : Nat := if t.colBcast then 0 else col

/-- Offset of the scale byte of a row's element (R177). -/
def DCtx.scaleOffset (c : DCtx) (row col : Nat) : Nat :=
  ((c.run.d3 * c.run.desc.d2 + c.run.d2) * c.run.desc.d1 + row) * ceilDiv c.run.desc.d0 32 + col / 32

/-- The Dresser's requester. -/
def DCtx.requester (c : DCtx) : Requester := dresserRequester c.task c.bench

/-- The packed element `i` of a row at an address field. -/
def readElem (q : Requester) (bits a i : Nat) (s : State) : Reply Nat × State :=
  let lo := i * bits / 8
  let hi := (i * bits + bits - 1) / 8
  Reply.andThen (fieldRead q (a + lo) (hi + 1 - lo) s) fun bs u => (.done ((natOfBytes bs >>> (i * bits % 8)) % 2 ^ bits), u)

/-- A packed element written; the bits of its neighbours in shared bytes keep their values (R184). -/
def writeElem (q : Requester) (bits a i v : Nat) (s : State) : Reply Unit × State :=
  let lo := i * bits / 8
  let hi := (i * bits + bits - 1) / 8
  if bits % 8 = 0 then fieldWrite q (a + lo) (bytesOfNat (bits / 8) v) s
  else Reply.andThen (fieldRead q (a + lo) (hi + 1 - lo) s) fun bs u =>
    let old := natOfBytes bs
    let sh := i * bits % 8
    let kept := old - ((old >>> sh) % 2 ^ bits) <<< sh
    fieldWrite q (a + lo) (bytesOfNat (hi + 1 - lo) (kept + (v % 2 ^ bits) <<< sh)) u

/-- An element as a lane: INT32 raw, every other format as FP32, an MX element times its scale (R183). -/
def laneOf (f : Format) (scale code : Nat) : W32 :=
  if f = .int32 then BitVec.ofNat 32 code
  else
    let v := decodeElem (formatElem f) code
    if isMx f then (if scale = 0xFF then fp32Nan else fp32Of (v.scale ((scale : Int) - 127)))
    else if v.isNan then fp32Nan else fp32Of v

/-- The element of a KIND 0 tensor at a row and column as a lane (R177, R183). -/
def DCtx.loadLane (c : DCtx) (t : Tensor) (row col : Nat) (s : State) : Reply W32 × State :=
  let k := tensorCol t col
  let q := { c.requester with cached := true }
  Reply.andThen (readElem q (formatBits t.format) (t.address + c.rowOffset t row) k s) fun code u =>
    if isMx t.format then
      Reply.andThen (fieldRead q (t.scaleAddress + c.scaleOffset row k) 1 u) fun b v => (.done (laneOf t.format (natOfBytes b) code), v)
    else (.done (laneOf t.format 0x7F code), u)

/-! ### Conversion on stores -/

/-- What a conversion adds to the Dresser tallies (R196). -/
structure Counts where
  clamp : Nat := 0
  nan : Nat := 0
deriving DecidableEq, Repr

/-- One count added to another. -/
def Counts.add (a b : Counts) : Counts := ⟨a.clamp + b.clamp, a.nan + b.nan⟩

/-- A lane as the code of a scalar format, with what it counts (R181, R184, R196). -/
def storeCode (f : Format) (w : W32) : Nat × Counts :=
  match f with
  | .int32 => (w.toNat, {})
  | .int8 | .int4 =>
    let v := fp32Val w
    let b := if f = .int8 then 8 else 4
    if v.isNan then (0, ⟨0, 1⟩)
    else
      let r := intOfVal (-(2 ^ (b - 1) : Nat)) ((2 ^ (b - 1) : Nat) - 1) v
      (twosOf b r.1, ⟨bitNat r.2, 0⟩)
  | _ =>
    let v := fp32Val w
    let r := encodeVal (layoutOf (formatElem f)) v
    (r.1, ⟨bitNat r.2, bitNat v.isNan⟩)

/-- Counts added to a bench's tallies (R196). -/
def addCounts (n : Nat) (k : Counts) (s : State) : State :=
  updBenchState n (fun b => { b with clampTally := wrapAdd 64 b.clampTally k.clamp, nanTally := wrapAdd 64 b.nanTally k.nan }) s

/-- An MX block of 32 lanes, inactive ones as +0: the scale, the codes, and what it counts (R116, R185, R196). -/
def mxCodes (f : Format) (lanes : List (W32 × Bool)) : Nat × List Nat × Counts :=
  let el := formatElem f
  if lanes.all fun l => !l.2 then (0, List.replicate 32 0, {})
  else
    let r := mxBlock el (lanes.map fun l => if l.2 then fp32Val l.1 else .fin false 0 0)
    let codes := (r.2.map (·.1)) ++ List.replicate (32 - r.2.length) 0
    (r.1, codes, ⟨(r.2.filter (·.2)).length, if r.1 = 0xFF then 32 else 0⟩)

/-! ### Where a store goes -/

/-- An element of a KIND 3 tensor: the place R160 gives from C_ADDR, with the tensor's own element bits (R177). -/
def DCtx.outAddr (c : DCtx) (t : Tensor) (row col : Nat) : Nat × Nat :=
  match c.mat with
  | some d => (c.problem.cAddr, outBitOffset d c.problem (formatBits t.format) row col / formatBits t.format)
  | none => (t.address, 0)

/-- The append records of the tensors of KIND 2 that a program stores to, read in tensor order (R211); a malformed one ends the run
at its first block with 0x380C. -/
def readAppends (q : Requester) (prog : List DInstr) : List (Nat × Tensor) → State → Reply (List (Nat × Nat × Nat × Nat) × Bool) × State
  | [], s => (.done ([], false), s)
  | (i, t) :: ts, s =>
    if t.kind ≠ .deck ∨ !prog.any (storesTensor i) then readAppends q prog ts s
    else Reply.andThen (fieldRead q t.address 32 s) fun bs u =>
      Reply.andThen (readAppends q prog ts u) fun r v =>
        (.done ((i, fieldOf bs 0 4, fieldOf bs 4 4, fieldOf bs 8 1) :: r.1, r.2 || !zeroAt bs 9 23), v)

/-- What ends the run of a bench at the end of its block: the first cause stands. -/
def noteRunEnd (n : Nat) (e : RunEnd) (s : State) : State :=
  updBenchState n (fun b => { b with dresser := b.dresser.map fun r => { r with ends := some (r.ends.getD e) } }) s

/-- The run of a bench has stored to a sequence (R214). -/
def touchSeq (n h : Nat) (s : State) : State :=
  updBenchState n (fun b => { b with dresser := b.dresser.map fun r =>
    { r with touched := if r.touched.contains h then r.touched else h :: r.touched } }) s

/-- Whether a run may go on storing to a row of a sequence: the sequence's entry and page list and the page's metadata can be read, and it
has stored to the sequence before, or the handle and owner are good and the row's stake serves it (R204, R209, R214, R303). -/
def DCtx.appendRefusal (c : DCtx) (s : State) (h stream tok : Nat) : Option W16 :=
  let g := handleGrove h
  let e := seqOf (deckOf s g) (handleSlot h)
  if !(deckOf s g).enable then some 0x380B
  else match tableRefusal s g [handleSlot h] (if tok / 16 < e.pages.length then [e.pages.getD (tok / 16) 0] else []) with
    | some code => some code
    | none =>
      if c.run.touched.contains h then none
      else match seqRefusal s c.task h with
        | some code => some code
        | none => if tok / 16 < e.pages.length then rowsRefusal s (deckOf s g) e [(stream, tok)] else none

/-- How a store of the Dresser ends: done, waiting, or with a code that ends the run. -/
abbrev StoreReply := Reply Unit × State

/-- Elements of one Deck row written: each 128-byte unit that one of them lies in is read, merged and written as one row write; a unit
that none touches keeps its bytes (R211). -/
def deckUnits (u : DeckUnit) (e : SeqEntry) (stream tok bits : Nat) (es : List (Nat × Nat)) : List Nat → State → StoreReply
  | [], s => (.done (), s)
  | k :: ks, s =>
    let per := 1024 / bits
    Reply.andThen (unitRead u e stream tok k s) fun old v =>
      let new := (es.filter fun x => x.1 / per == k).foldl (fun bs x => setPacked bits bs (x.1 % per) x.2) old
      Reply.andThen (rowWrite u e stream tok (128 * k) new v) fun _ w => deckUnits u e stream tok bits es ks w

/-- Lanes of one row written into a Deck row; a row that breaks R212 is not written and ends the run at its block (R211). -/
def DCtx.deckRow (c : DCtx) (t : Tensor) (rec : Nat × Nat × Nat) (row : Nat) (es : List (Nat × Nat)) (s : State) : StoreReply :=
  let h := rec.1
  let u := deckOf s (handleGrove h)
  let bits := formatBits t.format
  let tok := rec.2.1 + row
  let stream := rec.2.2 + c.run.d2
  let last := (es.map (·.1)).foldl max 0
  if es.isEmpty then (.done (), s)
  else match c.appendRefusal s h stream tok with
    | some code => (.done (), noteRunEnd c.bench { code := code } s)
    | none =>
      let e := seqOf u (handleSlot h)
      if !rowWritable s c.task u e stream tok 0 (ceilDiv ((last + 1) * bits) 8) then
        (.done (), noteRunEnd c.bench { code := 0x3809 } s)
      else deckUnits u e stream tok bits es ((es.map fun x => x.1 / (1024 / bits)).eraseDups) (touchSeq c.bench h s)

/-- One element of a scalar format stored to memory or to the task's output (R177, R184). -/
def DCtx.storeElem (c : DCtx) (t : Tensor) (row col code : Nat) (s : State) : StoreReply :=
  match t.kind with
  | .taskOutput =>
    let a := c.outAddr t row col
    writeElem c.requester (formatBits t.format) a.1 a.2 code s
  | _ => writeElem c.requester (formatBits t.format) (t.address + c.rowOffset t row) (tensorCol t col) code s

/-- Elements of one row stored one after the other. -/
def DCtx.storeElems (c : DCtx) (t : Tensor) (row : Nat) : List (Nat × Nat) → State → StoreReply
  | [], s => (.done (), s)
  | (col, code) :: es, s => Reply.andThen (c.storeElem t row col code s) fun _ u => c.storeElems t row es u

/-- The runs of consecutive columns of a list of elements. -/
def columnRuns : List (Nat × Nat) → List (Nat × List Nat)
  | [] => []
  | (c, v) :: es =>
    match columnRuns es with
    | (d, vs) :: rs => if d = c + 1 then (c, v :: vs) :: rs else (c, [v]) :: (d, vs) :: rs
    | [] => [(c, [v])]

/-- A run of 4-bit codes from a column on, brought to whole bytes: an odd column lies in bits 7:4 of its byte (R153), and what a transfer
carries in the half of a byte that no active lane fills is a free value (R177; log 4). -/
def padNibbles (bits col : Nat) (codes : List Nat) (s : State) : List Nat × State :=
  if bits ≠ 4 then (codes, s)
  else
    let f := drawFree s
    let before := if col % 2 = 1 then [f.1.toNat % 16] else []
    let after := if (col + codes.length) % 2 = 1 then [f.1.toNat / 16 % 16] else []
    (before ++ codes ++ after, if col % 2 = 0 ∧ codes.length % 2 = 0 then s else f.2)

/-- One row's elements of a scalar format stored to a tensor of any kind: columns are global (R177). -/
def DCtx.storeRow (c : DCtx) (idx : Nat) (t : Tensor) (row : Nat) (es : List (Nat × Nat)) (s : State) : StoreReply :=
  match t.kind with
  | .memory | .taskOutput => c.storeElems t row es s
  | .fabric =>
    let bits := formatBits t.format
    let send (s : State) (r : Nat × List Nat) : State :=
      let p := padNibbles bits r.1 r.2 s
      sendTransfer c.task (handlePlus t.address (c.rowOffset t row + r.1 * bits / 8)) t.timed (packCodes bits p.1) p.2
    (.done (), (columnRuns (es.map fun e => (tensorCol t e.1, e.2))).foldl send s)
  | .deck => match c.run.appends.find? fun a => a.1 == idx with
      | some a => c.deckRow t a.2 row es s
      | none => (.done (), s)

/-- Rows stored one after the other. -/
def DCtx.storeRows (c : DCtx) (idx : Nat) (t : Tensor) : List (Nat × List (Nat × Nat)) → State → StoreReply
  | [], s => (.done (), s)
  | (row, es) :: rs, s => Reply.andThen (c.storeRow idx t row es s) fun _ u => c.storeRows idx t rs u

/-- An MX block of one row stored: its elements from column `col` on, then its scale (R161, R177, R185). -/
def DCtx.storeMx (c : DCtx) (t : Tensor) (row col : Nat) (scale : Nat) (codes : List Nat) (s : State) : StoreReply :=
  let bits := formatBits t.format
  let place : Nat × Nat := match t.kind, c.mat with
    | .taskOutput, some d => (c.problem.cAddr + outBitOffset d c.problem bits row col / 8,
        c.problem.cAddr + outScaleStart d c.problem bits + outScaleIndex d c.problem row col)
    | _, _ => (t.address + c.rowOffset t row + tensorCol t col * bits / 8, t.scaleAddress + c.scaleOffset row (tensorCol t col))
  Reply.andThen (fieldWrite c.requester place.1 (packCodes bits codes) s) fun _ u =>
    fieldWrite c.requester place.2 [BitVec.ofNat 8 scale] u

end Sys2Proof.Machine
end

