-- ==== Sys2Proof/Machine/Dresser.lean ====
section
/-!
DEFINITION. Machine/Dresser.lean: the operations of the Dresser (R168–R188, R195, R196). Each command runs the next instruction of
the bench's run, when its opcode is the command's.
-/

namespace Sys2Proof.Machine

/-! ### The walk -/

/-- The descriptor behind an epilogue run. -/
def matOf (t : Task) : Option MatDesc := match t.body with
  | .mat d => some d
  | _ => none

/-- What the next instruction of a bench's run runs in, when its opcode is `op` (R171, R195). -/
def dresserNext (op n : Nat) (s : State) : Option DCtx :=
  match (benchOf s n).dresser with
  | none => none
  | some r => match findTask s r.ring r.seq, r.desc.program[r.pc]? with
    | some t, some i =>
      if !r.done && i.opcode == op && worksOn s n t && !(r.entry.isNone && t.stopping && !r.midStrip) then
        some { bench := n, task := t, run := r, mat := matOf t, instr := i }
      else none
    | _, _ => none

/-- Whether the run ends where it stands: a malformed append record at the first block, any other cause outside a block (R198,
R211). -/
def endDue (r : DresserRun) : Bool :=
  match r.ends with
  | some e => r.done || (!r.midBlock && (e.code != 0x380C || r.phase % 2 == 1 || !r.desc.program.any fun i => i.phase % 2 == 1))
  | none => false

/-- A run ends by its cause: its task fails (R198, R211). -/
def endRun (t : Task) (e : RunEnd) (s : State) : State := failAs t { code := e.code, addr := e.addr, injected := e.injected } s

/-- A VECTOR task's run over: the Dresser is idle and the next run may begin (R194). -/
def leaveDresser (n : Nat) (s : State) : State :=
  takeVector n (updBenchState n (fun b => { b with dresser := none, activity := .idle }) s)

/-- What follows an instruction: the end of the run by a cause, of a VECTOR task's walk, or of its strip when it is to stop (R194,
R252, R253). -/
def settleRun (n : Nat) (s : State) : State :=
  match (benchOf s n).dresser with
  | none => s
  | some r => match findTask s r.ring r.seq with
    | none => s
    | some t =>
      match r.ends with
      | some e => if endDue r then endRun t e s else s
      | none =>
        if r.entry.isSome then s
        else if r.done then settleStop t.ring t.seq (leaveDresser n (markWorkDone t.ring t.seq s))
        else if t.stopping && !r.midStrip then settleStop t.ring t.seq (leaveDresser n s)
        else s

/-- The registers an instruction leaves, and the run past it. -/
def pastInstr (c : DCtx) (g : DresserRegs) (s : State) : State :=
  settleRun c.bench (updBenchState c.bench (fun b => { b with regs := g, dresser := b.dresser.map (nextInstr c.mat) }) s)

/-- Whether an instruction reads a register of the Dresser: a detector's event (R466). -/
def readsRegister (i : DInstr) : Bool :=
  i.mask != 0 ||
  match opRow i.opcode with
  | some r => r.srcA != .unused || usesSrcB r i || i.opcode == 0x13 || i.opcode == 0x23
  | none => false

/-- A bench's present run begins: its append records are read (R211). -/
def beginAppends (c : DCtx) (s : State) : Reply Unit × State :=
  if c.run.begun then (.done (), s)
  else Reply.andThen (readAppends c.requester c.run.desc.program (numbered c.run.desc.tensors) s) fun a u =>
    (.done (), updBenchState c.bench (fun b => { b with dresser := b.dresser.map fun r =>
      { r with begun := true, appends := a.1, ends := if a.2 then some { code := 0x380C } else r.ends } }) u)

/-- An armed register parity point fires on a register read of a task that is not sealed (R465, R466). -/
def parityPoint (c : DCtx) (s : State) : State :=
  if !readsRegister c.instr || benchSealed s c.task then s
  else benchInject [0x2320] c.bench [] (fun code _ s => dresserError c.bench code true s) s

/-- A load or store of a run could not be made: a VECTOR task fails, an epilogue's entry ends as R165 has it. -/
def endOfRun (n : Nat) (t : Task) (r : DresserRun) (code : W16) (pa : Nat) (s : State) : State :=
  if r.entry.isSome then endEntry n t code pa s else failTask t code s pa

/-- The run stands inside its block from the block's first instruction on. -/
def openBlock (n : Nat) (s : State) : State :=
  updBenchState n (fun b => { b with dresser := b.dresser.map fun r => { r with blockOpen := r.phase % 2 == 1 } }) s

/-- The effect of an instruction: registers and state, a wait, or a failure. -/
abbrev Effect := DCtx → DresserRegs → State → Reply DresserRegs × State

/-- The next instruction of bench `n` runs, when its opcode is `op`. -/
def dresserStep (op : Nat) (f : Effect) (n : Nat) (s : State) : State :=
  match dresserNext op n s with
  | none => s
  | some c => match beginAppends c s with
    | (.wait, u) => blockTask c.task u
    | (.fail code pa, u) => endOfRun n c.task c.run code pa u
    | (.done _, u) =>
      let v := settleRun n (parityPoint c (openBlock n u))
      match dresserNext op n v with
      | none => v
      | some d => match f d (benchOf v n).regs v with
        | (.wait, w) => blockTask d.task w
        | (.fail code pa, w) => endOfRun n d.task d.run code pa w
        | (.done g, w) => pastInstr d g w

/-- An effect on registers alone. -/
def onRegs (f : DCtx → DresserRegs → DresserRegs) : Effect := fun c g s => (.done (f c g), s)

/-- An operation of two lanes into a third, over the active lanes (R180). -/
def lanes2 (f : W32 → W32 → W32) : Effect := onRegs fun c => c.mapLanes fun g l => f (c.opA g l) (c.opB g l)

/-- An operation of one lane. -/
def lanes1 (f : W32 → W32) : Effect := onRegs fun c => c.mapLanes fun g l => f (c.opA g l)

/-! ### Loads -/

/-- Active lanes of the phase, in row-major order. -/
def DCtx.activeLanes (c : DCtx) (g : DresserRegs) : List Nat := c.lanes.filter (c.active g)

/-- Lanes read one after the other into the destination. -/
def loadInto (c : DCtx) (rd : Nat → State → Reply W32 × State) : List Nat → DresserRegs → State → Reply DresserRegs × State
  | [], g, s => (.done g, s)
  | l :: ls, g, s => Reply.andThen (rd l s) fun w u => loadInto c rd ls (c.setD l w g) u

/-- The tensor an instruction names by IMM 2:0. -/
def DCtx.tensor (c : DCtx) : Tensor := c.run.desc.tensors.getD (instrTensor c.instr) {}

/-- LOAD (R183). -/
def loadEffect : Effect := fun c g s =>
  loadInto c (fun l => c.loadLane c.tensor (c.grow (l / 16)) (c.gcol (l % 16))) (c.activeLanes g) g s

/-- SLOAD: one element per strip row, at column 0. -/
def sloadEffect : Effect := fun c g s => loadInto c (fun l => c.loadLane c.tensor (c.grow l) 0) (c.activeLanes g) g s

/-- A lane of the current skid entry at the present position (R175, R183). -/
def DCtx.skidLane (c : DCtx) (e : SkidEntry) (l : Nat) : W32 :=
  match c.mat with
  | some d =>
    let i := cellIndex d c.run.d2 (16 * c.run.strip + l / 16) (16 * c.run.block + l % 16)
    laneOf e.tag.format (e.scales.get 0 (i / 32)) (e.outputs.get 0 i)
  | none => 0

/-- LOADSKID. -/
def loadskidEffect : Effect := fun c g s =>
  match (benchOf s c.bench).skid with
  | e :: _ => (.done (c.mapLanes (fun _ l => c.skidLane e l) g), s)
  | [] => (.done g, s)

/-! ### Stores -/

/-- The rows of a block or strip with the columns and lane values that are active. -/
def DCtx.activeRows (c : DCtx) (g : DresserRegs) (v : Nat → W32) : List (Nat × List (Nat × W32)) :=
  (List.range 16).map fun r =>
    (c.grow r, if c.block then ((List.range 16).filter fun k => c.active g (r * 16 + k)).map fun k => (c.gcol k, v (r * 16 + k))
               else if c.active g r then [(0, v r)] else [])

/-- The counts of a conversion of rows. -/
def countRows (f : Format) (rows : List (Nat × List (Nat × W32))) : Counts :=
  rows.foldl (fun k r => r.2.foldl (fun k x => k.add (storeCode f x.2).2) k) {}

/-- Rows converted to a scalar format and stored (R184). -/
def DCtx.storeScalar (c : DCtx) (idx : Nat) (t : Tensor) (rows : List (Nat × List (Nat × W32))) (s : State) : StoreReply :=
  c.storeRows idx t (rows.map fun r => (r.1, r.2.map fun x => (x.1, (storeCode t.format x.2).1))) s

/-- An MX block to be stored: its row, its first column, 32 lanes. -/
abbrev MxLine := Nat × Nat × List (W32 × Bool)

/-- MX blocks stored one after the other (R185). -/
def DCtx.storeMxLines (c : DCtx) (t : Tensor) : List MxLine → State → StoreReply
  | [], s => (.done (), s)
  | (row, col, lanes) :: ls, s =>
    let m := mxCodes t.format lanes
    Reply.andThen (c.storeMx t row col m.1 m.2.1 s) fun _ u => c.storeMxLines t ls u

/-- What the conversion of MX blocks counts (R196). -/
def countLines (f : Format) (ls : List MxLine) : Counts := ls.foldl (fun k l => k.add (mxCodes f l.2.2).2.2) {}

/-- The MX blocks that hold the lanes of rows from column 0 on, lanes that no row gives excluded (R185; log 20). -/
def mxLinesOf (rows : List (Nat × List (Nat × W32))) : List MxLine :=
  rows.flatMap fun r =>
    ((r.2.map fun x => x.1 / 32).eraseDups).map fun b =>
      (r.1, 32 * b, (List.range 32).map fun k => match r.2.find? fun x => x.1 == 32 * b + k with
        | some x => (x.2, true)
        | none => (0, false))

/-- Rows stored to a tensor of any format. -/
def DCtx.storeAll (c : DCtx) (idx : Nat) (t : Tensor) (rows : List (Nat × List (Nat × W32))) (s : State) : StoreReply :=
  if isMx t.format then c.storeMxLines t (mxLinesOf rows) s else c.storeScalar idx t rows s

/-- What the conversion of rows counts. -/
def countAll (f : Format) (rows : List (Nat × List (Nat × W32))) : Counts :=
  if isMx f then countLines f (mxLinesOf rows) else countRows f rows

/-- A store finished: what it counts is added once it is whole (R196). -/
def DCtx.counted (c : DCtx) (k : Counts) (g : DresserRegs) (r : StoreReply) : Reply DresserRegs × State :=
  Reply.andThen r fun _ u => (.done g, addCounts c.bench k u)

/-- A block held until its partner has run through the same instruction (R185). -/
def holdBlock (c : DCtx) (lanes : List (W32 × Bool)) (s : State) : State :=
  updBenchState c.bench (fun b => { b with dresser := b.dresser.map fun r =>
    { r with hold := { instr := r.pc, block := r.block, lanes := lanes } :: r.hold.filter fun h => h.instr != r.pc } }) s

/-- The lanes of a block, an inactive one excluded. -/
def DCtx.blockLanes (c : DCtx) (g : DresserRegs) : List (W32 × Bool) :=
  (List.range 256).map fun l => (c.opA g l, c.active g l)

/-- Sixteen lanes that are not there. -/
def noLanes : List (W32 × Bool) := List.replicate 16 (0, false)

/-- The MX blocks of a strip that a block and its held partner make: rows within M0 (R185). -/
def DCtx.mxBlockLines (c : DCtx) (g : DresserRegs) : List MxLine :=
  let now := c.blockLanes g
  let odd := c.run.block % 2 == 1
  let held := match c.run.hold.find? fun h => h.instr == c.run.pc && h.block + 1 == c.run.block with
    | some h => h.lanes
    | none => noLanes ++ (List.replicate 240 (0, false))
  ((List.range 16).filter fun r => decide (16 * c.run.strip + r < c.rows)).map fun r =>
    let row (ls : List (W32 × Bool)) : List (W32 × Bool) := (ls.drop (16 * r)).take 16
    (c.grow r, if odd then c.gcol 0 - 16 else c.gcol 0, if odd then row held ++ row now else row now ++ noLanes)

/-- STORE (R184, R185). -/
def storeEffect : Effect := fun c g s =>
  let t := c.tensor
  if isMx t.format then
    if c.run.block % 2 = 0 ∧ c.run.block + 1 < ceilDiv (runD0 c.mat c.run) 16 then (.done g, holdBlock c (c.blockLanes g) s)
    else c.counted (countLines t.format (c.mxBlockLines g)) g (c.storeMxLines t (c.mxBlockLines g) s)
  else
    let rows := c.activeRows g (c.opA g)
    c.counted (countRows t.format rows) g (c.storeScalar (instrTensor c.instr) t rows s)

/-- SSTORE: column 0. -/
def sstoreEffect : Effect := fun c g s =>
  let rows := c.activeRows g (c.opA g)
  c.counted (countAll c.tensor.format rows) g (c.storeAll (instrTensor c.instr) c.tensor rows s)

/-! ### Gather and scatter (R187) -/

/-- LIMIT. -/
def DCtx.limit (c : DCtx) : Nat := bitsOf c.instr.imm.toNat 31 8

/-- The index of a lane: of a tile register in element mode, of a strip register in row mode. -/
def DCtx.index (c : DCtx) (g : DresserRegs) (l : Nat) : Int :=
  signedOf 32 (if c.instr.bsrc = 1 then stripLane g c.instr.srcA (l / 16) else tileLane g c.instr.srcA l).toNat

/-- The place an index names: the address field of a row and the element in it. -/
def DCtx.indexedPlace (c : DCtx) (t : Tensor) (l i : Nat) : Nat × Nat :=
  if c.instr.bsrc = 1 then (t.address + c.rowOffset t i, tensorCol t (c.gcol (l % 16))) else (t.address, i)

/-- The index of a lane when it is in range (R187). -/
def DCtx.inRange (c : DCtx) (g : DresserRegs) (t : Tensor) (l : Nat) : Option Nat :=
  let i := c.index g l
  let p := c.indexedPlace t l i.toNat
  let bits := formatBits t.format
  if decide (0 ≤ i) && decide (i.toNat < c.limit) &&
      (!addrScratch t.address || decide (addrOffset t.address + (p.1 - t.address) + (p.2 * bits + bits - 1) / 8 < scratchSize)) then
    some i.toNat
  else none

/-- The scale byte of an indexed MX element: of its row, or in element mode of the 32 elements that hold it (log 20). -/
def DCtx.indexedScale (c : DCtx) (t : Tensor) (l i : Nat) : Nat :=
  t.scaleAddress + (if c.instr.bsrc = 1 then c.scaleOffset i (tensorCol t (c.gcol (l % 16))) else i / 32)

/-- An indexed element as a lane. -/
def DCtx.gatherLane (c : DCtx) (g : DresserRegs) (l : Nat) (s : State) : Reply W32 × State :=
  let t := c.tensor
  match c.inRange g t l with
  | none => (.done 0, s)
  | some i =>
    let p := c.indexedPlace t l i
    let q := { c.requester with cached := true }
    Reply.andThen (readElem q (formatBits t.format) p.1 p.2 s) fun code u =>
      if isMx t.format then
        Reply.andThen (fieldRead q (c.indexedScale t l i) 1 u) fun b v => (.done (laneOf t.format (natOfBytes b) code), v)
      else (.done (laneOf t.format 0x7F code), u)

/-- GATHER. -/
def gatherEffect : Effect := fun c g s => loadInto c (c.gatherLane g) (c.activeLanes g) g s

/-- The MX block of one element, the other elements excluded (log 20). -/
def DCtx.scatterBlock (c : DCtx) (g : DresserRegs) (l i : Nat) : Nat × List Nat × Counts :=
  let e := (c.indexedPlace c.tensor l i).2
  mxCodes c.tensor.format ((List.range 32).map fun k => if k = e % 32 then (tileLane g c.instr.srcB l, true) else (0, false))

/-- One lane scattered: an MX element as a block of its own, the other elements of the block +0 (log 20). -/
def DCtx.scatterLane (c : DCtx) (g : DresserRegs) (l : Nat) (s : State) : StoreReply :=
  let t := c.tensor
  let bits := formatBits t.format
  match c.inRange g t l with
  | none => (.done (), s)
  | some i =>
    let p := c.indexedPlace t l i
    if isMx t.format then
      let m := c.scatterBlock g l i
      Reply.andThen (fieldWrite c.requester (p.1 + p.2 / 32 * 32 * bits / 8) (packCodes bits m.2.1) s) fun _ u =>
        fieldWrite c.requester (c.indexedScale t l i) [BitVec.ofNat 8 m.1] u
    else writeElem c.requester bits p.1 p.2 (storeCode t.format (tileLane g c.instr.srcB l)).1 s

/-- Lanes scattered in row-major order. -/
def DCtx.scatterLanes (c : DCtx) (g : DresserRegs) : List Nat → State → StoreReply
  | [], s => (.done (), s)
  | l :: ls, s => Reply.andThen (c.scatterLane g l s) fun _ u => c.scatterLanes g ls u

/-- What one scattered lane counts (R196). -/
def DCtx.scatterCount (c : DCtx) (g : DresserRegs) (l : Nat) : Counts :=
  match c.inRange g c.tensor l with
  | none => {}
  | some i => if isMx c.tensor.format then (c.scatterBlock g l i).2.2 else (storeCode c.tensor.format (tileLane g c.instr.srcB l)).2

/-- SCATTER. -/
def scatterEffect : Effect := fun c g s =>
  let ls := c.activeLanes g
  c.counted (ls.foldl (fun k l => k.add (c.scatterCount g l)) {}) g (c.scatterLanes g ls s)

/-- The places and addends of the lanes of a SCATADD that are in range, in lane order. -/
def DCtx.addends (c : DCtx) (g : DresserRegs) : List (Nat × W32) :=
  (c.activeLanes g).filterMap fun l => match c.inRange g c.tensor l with
    | some i =>
      let p := c.indexedPlace c.tensor l i
      some (p.1 + 4 * p.2, tileLane g c.instr.srcB l)
    | none => none

/-- Words read from places, for places not read before, and their addresses translated for the writes to come. -/
def readWords (q : Requester) : List Nat → List (Nat × W32) → State → Reply (List (Nat × W32)) × State
  | [], acc, s => (.done acc, s)
  | a :: as, acc, s =>
    if acc.any fun x => x.1 == a then readWords q as acc s
    else Reply.andThen (fieldRead q a 4 s) fun bs u =>
      let read : List (Nat × W32) := acc ++ [(a, BitVec.ofNat 32 (natOfBytes bs))]
      if addrScratch a then readWords q as read u
      else Reply.andThen (translatePieces q true (pagePieces (addrOffset a) 4) u) fun _ v => readWords q as read v

/-- Words with addends added in order (R180, R187). -/
def addWordsAt (adds : List (Nat × W32)) (ws : List (Nat × W32)) : List (Nat × W32) :=
  adds.foldl (fun ws x => ws.map fun w => if w.1 = x.1 then (w.1, fp32Add w.2 x.2) else w) ws

/-- Sums that are a NaN, one for each addition stored (R196). -/
def nanSums : List (Nat × W32) → List (Nat × W32) → Nat
  | [], _ => 0
  | x :: xs, ws =>
    let v := addWordsAt [x] ws
    bitNat ((v.find? fun w => w.1 == x.1).any fun w => (fp32Val w.2).isNan) + nanSums xs v

/-- The physical address of an element in memory; bench scratch has none, and no other bench reaches it. -/
def elementPa (q : Requester) (a : Nat) (s : State) : Option Nat :=
  if addrScratch a then none
  else match translate q (addrOffset a) true s with
    | (.done pa, _) => some pa
    | _ => none

/-- Whether the SCATADD of another bench's task, not yet ended, has updated an element, or a requester outside the bench has written it
while this task is at work: outside its scope (R326, R328). -/
def contested (s : State) (t : Task) (pa : Option Nat) : Bool :=
  (s.outsideWrites.any fun x => (t.ring == x.2.2.1 && t.seq == x.2.2.2) && pa.any fun a => decide (x.1 < a + 4 ∧ a < x.1 + x.2.1)) ||
  s.scatAdds.any fun x => some x.1 == pa && !(x.2.1 == t.ring && x.2.2 == t.seq) &&
    (findTask s x.2.1 x.2.2).any fun y => y.running && y.bench != t.bench

/-- The sums a SCATADD leaves: of an element that another bench also updates, a free value (R328; log 4). -/
def contestedSums (t : Task) (q : Requester) : List (Nat × W32) → State → List (Nat × W32) × State
  | [], s => ([], s)
  | w :: ws, s =>
    if contested s t (elementPa q w.1 s) then
      let f := drawFree s
      let r := contestedSums t q ws f.2
      ((w.1, f.1.setWidth 32) :: r.1, r.2)
    else
      let r := contestedSums t q ws s
      (w :: r.1, r.2)

/-- The elements a SCATADD updates noted, those of tasks that have ended forgotten. -/
def noteScatAdds (t : Task) (q : Requester) (ws : List (Nat × W32)) (s : State) : State :=
  let mine := ws.filterMap fun w => (elementPa q w.1 s).map fun pa => (pa, t.ring, t.seq)
  { s with scatAdds := (mine ++ s.scatAdds.filter fun x => (findTask s x.2.1 x.2.2).any (·.running)).eraseDups }

/-- SCATADD: every element is read, the lanes are added in order, the sums are written. -/
def scataddEffect : Effect := fun c g s =>
  let adds := c.addends g
  let q := { c.requester with atomic := true }
  Reply.andThen (readWords q (adds.map (·.1)) [] s) fun ws u =>
    let sums := contestedSums c.task q (addWordsAt adds ws) u
    Reply.andThen (writeAll q (sums.1.map fun w => (w.1, bytesOfNat 4 w.2.toNat)) (noteScatAdds c.task q ws sums.2)) fun _ v =>
      (.done g, addCounts c.bench ⟨0, nanSums adds ws⟩ v)

/-! ### Registers -/

/-- IOTA: global row, global column, d2 or d3. -/
def iotaEffect : Effect := onRegs fun c => c.mapLanes fun _ l =>
  BitVec.ofNat 32 (match bitsOf c.instr.imm.toNat 1 0 with
    | 0 => c.grow (l / 16)
    | 1 => c.gcol (l % 16)
    | 2 => c.run.d2
    | _ => c.run.d3)

/-- SELECT: every lane set in M0 is written. -/
def selectEffect : Effect := onRegs fun c g =>
  (c.lanes.filter c.m0).foldl (fun h l => c.setD l (if c.maskAt g c.instr.mask l then c.opA g l else c.opB g l) h) g

/-- The sign bit alone changed; a NaN becomes the canonical one (R180). -/
def fp32Abs (a : W32) : W32 := if (fp32Val a).isNan then fp32Nan else a &&& 0x7FFFFFFF#32
def fp32Neg (a : W32) : W32 := if (fp32Val a).isNan then fp32Nan else a ^^^ 0x80000000#32

/-- ROPE (R186): pairs of an even column and the next, both active. -/
def ropeEffect : Effect := onRegs fun c g =>
  let sinReg := bitsOf c.instr.imm.toNat 4 0
  ((c.lanes.filter fun l => l % 2 == 0 && c.active g l && c.active g (l + 1)).foldl (fun h l =>
    let x := fp32Val (c.opA g l)
    let y := fp32Val (c.opA g (l + 1))
    let co := fp32Val (c.opB g l)
    let si := fp32Val (tileLane g sinReg l)
    c.setD (l + 1) (fp32Of ((x.mul si).add (y.mul co))) (c.setD l (fp32Of ((x.mul co).add (y.mul si).neg)) h)) g)

/-- A predicate of CMP (R179, R180). -/
def cmpLane (p : Nat) (a b : W32) : Bool :=
  let x := fp32Val a
  let y := fp32Val b
  let ordered := !x.isNan && !y.isNan
  match p with
  | 0 => ordered && Val.lt x y
  | 1 => ordered && !Val.lt y x
  | 2 => ordered && !Val.lt x y && !Val.lt y x
  | 3 => !ordered || Val.lt x y || Val.lt y x
  | 4 => ordered && !Val.lt x y
  | 5 => ordered && Val.lt y x
  | 6 => x.isNan
  | _ => x.isInf

/-- Every active lane of the destination mask register takes a value (R172). -/
def DCtx.mapMask (c : DCtx) (f : DresserRegs → Nat → Bool) (g : DresserRegs) : DresserRegs :=
  c.lanes.foldl (fun h l => if c.active g l then c.setM l (f g l) h else h) g

/-- CMP. -/
def cmpEffect : Effect := onRegs fun c =>
  c.mapMask fun g l => cmpLane (bitsOf c.instr.imm.toNat 2 0) (c.opA g l) (c.opB g l)

/-- Operations on masks. -/
def maskEffect (f : Bool → Bool → Bool) : Effect := onRegs fun c =>
  c.mapMask fun g l => f (c.maskAt g c.instr.srcA l) (c.maskAt g c.instr.srcB l)

/-- Signed minimum and maximum. -/
def imin (a b : W32) : W32 := if b.toInt < a.toInt then b else a
def imax (a b : W32) : W32 := if a.toInt < b.toInt then b else a

/-- INT32 to FP32. -/
def cvti (a : W32) : W32 := fp32Of (valOfInt a.toInt 0)

/-- FP32 to INT32, with what it counts (R184, R196). -/
def cvtf (a : W32) : W32 × Counts :=
  let v := fp32Val a
  if v.isNan then (0, ⟨0, 1⟩)
  else
    let r := intOfVal (-(2 ^ 31 : Nat)) ((2 ^ 31 : Nat) - 1) v
    (BitVec.ofInt 32 r.1, ⟨bitNat r.2, 0⟩)

/-- CVTF. -/
def cvtfEffect : Effect := fun c g s =>
  let k := (c.activeLanes g).foldl (fun k l => k.add (cvtf (c.opA g l)).2) {}
  (.done (c.mapLanes (fun g l => (cvtf (c.opA g l)).1) g), addCounts c.bench k s)

/-- A row reduction: the value of each row that has an active lane, from its 16 lanes, an inactive one the identity (R182). -/
def DCtx.reduce (c : DCtx) (identity : W32) (row : W32 → List W32 → W32) (g : DresserRegs) : DresserRegs :=
  (List.range 16).foldl (fun h r =>
    let on := (List.range 16).any fun k => c.active g (r * 16 + k)
    let lanes := (List.range 16).map fun k => if c.active g (r * 16 + k) then c.opA g (r * 16 + k) else identity
    if on then c.setS r (row (stripLane g c.instr.dst r) lanes) h else h) g

/-- RSUM, RMAX, RMIN. -/
def rsumEffect : Effect := onRegs fun c => c.reduce fp32NegZero fun x ls => fp32Add x (treeSum 4 ls)
def rmaxEffect : Effect := onRegs fun c => c.reduce 0xFF800000#32 fun x ls => fp32Max x (ls.foldl fp32Max 0xFF800000#32)
def rminEffect : Effect := onRegs fun c => c.reduce 0x7F800000#32 fun x ls => fp32Min x (ls.foldl fp32Min 0x7F800000#32)

/-! ### Top-k (R188) -/

/-- Whether a candidate comes before another in a list's order: by value, then by index, a NaN after every number. -/
def topkBefore (ascending : Bool) (a b : W32 × W32) : Bool :=
  let x := fp32Val a.1
  let y := fp32Val b.1
  if x.isNan || y.isNan then (if x.isNan && y.isNan then decide (a.2.toNat < b.2.toNat) else !x.isNan)
  else if Val.lt x y then ascending
  else if Val.lt y x then !ascending
  else decide (a.2.toNat < b.2.toNat)

/-- A candidate in its place. -/
def topkInsert (ascending : Bool) (a : W32 × W32) : List (W32 × W32) → List (W32 × W32)
  | [] => [a]
  | b :: bs => if topkBefore ascending a b then a :: b :: bs else b :: topkInsert ascending a bs

/-- A candidate merged into a row's list. -/
def topkMerge (a : W32 × W32) (t : TopkRow) : TopkRow := { t with items := (topkInsert t.ascending a t.items).take t.k }

/-- TOPK_CLEAR. -/
def topkClearEffect : Effect := onRegs fun c g =>
  let row : TopkRow := { k := bitsOf c.instr.imm.toNat 6 0, ascending := bitOf c.instr.imm.toNat 8 }
  { g with topk := (c.activeLanes g).foldl (fun t r => t.set {} r row) g.topk }

/-- TOPK. -/
def topkEffect : Effect := onRegs fun c g =>
  let index (l : Nat) : W32 := if bitOf c.instr.imm.toNat 0 then tileLane g c.instr.srcB l else BitVec.ofNat 32 (c.gcol (l % 16))
  { g with topk := (c.activeLanes g).foldl (fun t l => t.update {} (l / 16) (topkMerge (c.opA g l, index l))) g.topk }

/-- A row's list as k elements, filled (R188). -/
def topkFilled (t : TopkRow) : List (W32 × W32) :=
  t.items ++ List.replicate (t.k - t.items.length) (fp32Nan, 0xFFFFFFFF#32)

/-- TOPK_EMIT: values, then indices. A tensor of the fabric, whose store never waits, goes last, so that a wait repeats nothing. -/
def topkEmitEffect : Effect := fun c g s =>
  let rows (f : W32 × W32 → W32) : List (Nat × List (Nat × W32)) :=
    (c.activeLanes g).map fun r => (c.grow r, numbered ((topkFilled (g.topk.get {} r)).map f))
  let first := instrTensor c.instr
  let second := bitsOf c.instr.imm.toNat 6 4
  let values (s : State) : StoreReply := c.storeAll first c.tensor (rows (·.1)) s
  let indices (s : State) : StoreReply := c.storeAll second (c.run.desc.tensors.getD second {}) (rows (·.2)) s
  c.counted (countAll c.tensor.format (rows (·.1))) g
    (if c.tensor.kind = .fabric then Reply.andThen (indices s) fun _ u => values u
     else Reply.andThen (values s) fun _ u => indices u)

/-! ### The commands, one for each row of the catalogue (R179) -/

/-- NOP. -/
def execNop (n : Nat) (s : State) : Answer := .next (dresserStep 0x00 (onRegs fun _ g => g) n s)

/-- LOAD. -/
def execLoad (n : Nat) (s : State) : Answer := .next (dresserStep 0x01 loadEffect n s)

/-- LOADSKID. -/
def execLoadskid (n : Nat) (s : State) : Answer := .next (dresserStep 0x02 loadskidEffect n s)

/-- STORE. -/
def execStore (n : Nat) (s : State) : Answer := .next (dresserStep 0x03 storeEffect n s)

/-- SLOAD. -/
def execSload (n : Nat) (s : State) : Answer := .next (dresserStep 0x04 sloadEffect n s)

/-- SSTORE. -/
def execSstore (n : Nat) (s : State) : Answer := .next (dresserStep 0x05 sstoreEffect n s)

/-- GATHER. -/
def execGather (n : Nat) (s : State) : Answer := .next (dresserStep 0x06 gatherEffect n s)

/-- SCATTER. -/
def execScatter (n : Nat) (s : State) : Answer := .next (dresserStep 0x07 scatterEffect n s)

/-- SCATADD. -/
def execScatadd (n : Nat) (s : State) : Answer := .next (dresserStep 0x08 scataddEffect n s)

/-- MOV. -/
def execMov (n : Nat) (s : State) : Answer := .next (dresserStep 0x09 (onRegs fun c => c.mapLanes fun g l => c.opB g l) n s)

/-- IOTA. -/
def execIota (n : Nat) (s : State) : Answer := .next (dresserStep 0x0A iotaEffect n s)

/-- SELECT. -/
def execSelect (n : Nat) (s : State) : Answer := .next (dresserStep 0x0B selectEffect n s)

/-- ADD. -/
def execAdd (n : Nat) (s : State) : Answer := .next (dresserStep 0x10 (lanes2 fp32Add) n s)

/-- SUB. -/
def execSub (n : Nat) (s : State) : Answer := .next (dresserStep 0x11 (lanes2 fp32Sub) n s)

/-- MUL. -/
def execMul (n : Nat) (s : State) : Answer := .next (dresserStep 0x12 (lanes2 fp32Mul) n s)

/-- FMA. -/
def execFma (n : Nat) (s : State) : Answer := .next (dresserStep 0x13 (onRegs fun c => c.mapLanes fun g l => fp32Fma (c.opA g l) (c.opB g l) (c.opD g l)) n s)

/-- MIN. -/
def execMin (n : Nat) (s : State) : Answer := .next (dresserStep 0x14 (lanes2 fp32Min) n s)

/-- MAX. -/
def execMax (n : Nat) (s : State) : Answer := .next (dresserStep 0x15 (lanes2 fp32Max) n s)

/-- ABS. -/
def execAbs (n : Nat) (s : State) : Answer := .next (dresserStep 0x16 (lanes1 fp32Abs) n s)

/-- NEG. -/
def execNeg (n : Nat) (s : State) : Answer := .next (dresserStep 0x17 (lanes1 fp32Neg) n s)

/-- CLAMP. -/
def execClamp (n : Nat) (s : State) : Answer := .next (dresserStep 0x18 (onRegs fun c => c.mapLanes fun g l => fp32Min (fp32Max (c.opA g l) (c.opB g l)) c.instr.imm) n s)

/-- RCP. -/
def execRcp (n : Nat) (s : State) : Answer := .next (dresserStep 0x19 (lanes1 fp32Rcp) n s)

/-- SQRT. -/
def execSqrt (n : Nat) (s : State) : Answer := .next (dresserStep 0x1A (lanes1 fp32Sqrt) n s)

/-- RSQRT. -/
def execRsqrt (n : Nat) (s : State) : Answer := .next (dresserStep 0x1B (lanes1 fp32Rsqrt) n s)

/-- EXP. -/
def execExp (n : Nat) (s : State) : Answer := .next (dresserStep 0x1C (lanes1 fp32Exp) n s)

/-- LOG. -/
def execLog (n : Nat) (s : State) : Answer := .next (dresserStep 0x1D (lanes1 fp32Log) n s)

/-- TANH. -/
def execTanh (n : Nat) (s : State) : Answer := .next (dresserStep 0x1E (lanes1 fp32Tanh) n s)

/-- SIGMOID. -/
def execSigmoid (n : Nat) (s : State) : Answer := .next (dresserStep 0x1F (lanes1 fp32Sigmoid) n s)

/-- SILU. -/
def execSilu (n : Nat) (s : State) : Answer := .next (dresserStep 0x20 (lanes1 fp32Silu) n s)

/-- GELU. -/
def execGelu (n : Nat) (s : State) : Answer := .next (dresserStep 0x21 (lanes1 fp32Gelu) n s)

/-- RELU. -/
def execRelu (n : Nat) (s : State) : Answer := .next (dresserStep 0x22 (lanes1 fp32Relu) n s)

/-- ROPE. -/
def execRope (n : Nat) (s : State) : Answer := .next (dresserStep 0x23 ropeEffect n s)

/-- DIV. -/
def execDiv (n : Nat) (s : State) : Answer := .next (dresserStep 0x24 (lanes2 fp32Div) n s)

/-- CMP. -/
def execCmp (n : Nat) (s : State) : Answer := .next (dresserStep 0x30 cmpEffect n s)

/-- MAND. -/
def execMand (n : Nat) (s : State) : Answer := .next (dresserStep 0x31 (maskEffect (· && ·)) n s)

/-- MOR. -/
def execMor (n : Nat) (s : State) : Answer := .next (dresserStep 0x32 (maskEffect (· || ·)) n s)

/-- MNOT. -/
def execMnot (n : Nat) (s : State) : Answer := .next (dresserStep 0x33 (maskEffect fun a _ => !a) n s)

/-- IADD. -/
def execIadd (n : Nat) (s : State) : Answer := .next (dresserStep 0x38 (lanes2 (· + ·)) n s)

/-- ISUB. -/
def execIsub (n : Nat) (s : State) : Answer := .next (dresserStep 0x39 (lanes2 (· - ·)) n s)

/-- IMUL. -/
def execImul (n : Nat) (s : State) : Answer := .next (dresserStep 0x3A (lanes2 (· * ·)) n s)

/-- IMIN. -/
def execImin (n : Nat) (s : State) : Answer := .next (dresserStep 0x3B (lanes2 imin) n s)

/-- IMAX. -/
def execImax (n : Nat) (s : State) : Answer := .next (dresserStep 0x3C (lanes2 imax) n s)

/-- ISHR. -/
def execIshr (n : Nat) (s : State) : Answer := .next (dresserStep 0x3D (onRegs fun c => c.mapLanes fun g l => (c.opA g l).sshiftRight (bitsOf c.instr.imm.toNat 4 0)) n s)

/-- CVTI. -/
def execCvti (n : Nat) (s : State) : Answer := .next (dresserStep 0x3E (lanes1 cvti) n s)

/-- CVTF. -/
def execCvtf (n : Nat) (s : State) : Answer := .next (dresserStep 0x3F cvtfEffect n s)

/-- RSUM. -/
def execRsum (n : Nat) (s : State) : Answer := .next (dresserStep 0x40 rsumEffect n s)

/-- RMAX. -/
def execRmax (n : Nat) (s : State) : Answer := .next (dresserStep 0x41 rmaxEffect n s)

/-- RMIN. -/
def execRmin (n : Nat) (s : State) : Answer := .next (dresserStep 0x42 rminEffect n s)

/-- TOPK_CLEAR. -/
def execTopkClear (n : Nat) (s : State) : Answer := .next (dresserStep 0x48 topkClearEffect n s)

/-- TOPK. -/
def execTopk (n : Nat) (s : State) : Answer := .next (dresserStep 0x49 topkEffect n s)

/-- TOPK_EMIT. -/
def execTopkEmit (n : Nat) (s : State) : Answer := .next (dresserStep 0x4A topkEmitEffect n s)

end Sys2Proof.Machine
end

