-- ==== Sys2Proof/Machine/Rings.lean ====
section
/-!
DEFINITION. Machine/Rings.lean: rings and scheduling (R223–R258): doorbells and ring commands, staging, gates, enqueues, the issue of
bench tasks, completion, and the ring reset.
-/

namespace Sys2Proof.Machine

/-! ### The register page -/

/-- A write of RING_DOORBELL (R226). -/
def doorbell (r t : Nat) (s : State) : State :=
  let q := ringOf s r
  let taken := match q.status with
    | .running | .paused | .faulted => !q.device
    | .disabled | .resetting => false
  if !ringExists s r then s
  else if !taken then updRing r (fun q => { q with dropped := true }) s
  else if t = q.tail then s
  else if q.tail < t ∧ t ≤ q.head + ringSize q then updRing r (fun q => { q with tail := t }) s
  else failRing r 0x3102 s

def execRingDoorbell (r : Nat) (v : W64) (s : State) : Answer := .next (doorbell r v.toNat s)

/-- ENABLE (R227). -/
def ringEnable (r : Nat) (s : State) : State :=
  let q := ringOf s r
  if !ringExists s r || decide (q.status ≠ .disabled) then s
  else if q.base ≠ 0 ∧ q.sizeLog2 ≤ 12 then
    updRing r (fun q => { q with
      head := 0, tail := 0, completed := 0, retired := [], failures := [], sliceWait := none, lost := [], status := .running }) s
  else
    let e : ErrRecord := { code := 0x3101, ring := BitVec.ofNat 16 r, source := srcGrove s (homeGrove r), context := BitVec.ofNat 16 q.context }
    report e (updRing r (fun q => { q with failures := [⟨q.head, true, 0x3101⟩] }) s)

def execRingEnable (r : Nat) (s : State) : Answer := .next (ringEnable r s)

/-- PAUSE (R227). -/
def ringPause (r : Nat) (s : State) : State :=
  if !ringExists s r then s
  else match (ringOf s r).status with
    | .running | .faulted => updRing r (fun q => { q with status := .paused }) (noteClocks s)
    | .disabled | .paused | .resetting => s

def execRingPause (r : Nat) (s : State) : Answer := .next (ringPause r s)

/-- RESUME (R227). -/
def ringResume (r : Nat) (s : State) : State :=
  let q := ringOf s r
  if !ringExists s r || decide (q.status ≠ .paused) then s
  else preloadBenches (updRing r (fun q => { q with status := if q.failures.isEmpty then .running else .faulted }) s)

def execRingResume (r : Nat) (s : State) : Answer := .next (ringResume r s)

/-- The task of a failure acknowledged retires (R241, R242). -/
def retireFailed (r seq : Nat) (s : State) : State :=
  match findTask s r seq with
  | some t =>
    let s1 := retireTask r seq s
    if t.member then freeGroup t.header.group s1 else s1
  | none => s

/-- A ring's oldest failure acknowledged (R242). -/
def acknowledge (r : Nat) (s : State) : State :=
  if !ringExists s r then s
  else match (ringOf s r).failures with
    | [] => s
    | f :: fs =>
      let s1 := if f.ofRing then s else retireFailed r f.at_ s
      preloadBenches (updRing r (fun q => { q with
        failures := fs, status := if fs.isEmpty ∧ q.status = .faulted then .running else q.status }) s1)

def execFailureAcknowledge (r : Nat) (s : State) : Answer := .next (acknowledge r s)

/-! ### Staging and counters -/

/-- TASK_STAGE (R225). Reading the ring's entries is a read of Tally state, where 0x3901 is injected (R466). -/
def execTaskStage (r : Nat) (s : State) : Answer :=
  if mayStage s r ∧ !isSealed s (ringOf s r).context then
    let f := fireInjection 0x3901 (locatesGrove s (homeGrove r)) s
    .next (if f.1 then tallyStateError (homeGrove r) true f.2 else stageNext r f.2)
  else .next (stageNext r s)

/-- COUNTER_CHANGE_OBSERVED (R233). -/
def execCounterChangeObserved (pa : Nat) (s : State) : Answer := .next (preloadBenches (observeCounter pa s))

/-! ### Fence clocks (R234) -/

/-- Of two tasks, the one in the lower-numbered ring. -/
def lowerRing (best : Option Task) (t : Task) : Option Task :=
  match best with
  | some b => if t.ring < b.ring then some t else some b
  | none => some t

/-- The blocker of a timed-out WAIT: a task of the lowest-numbered ring that has neither failed nor signalled and signals the counter. -/
def blockerOf (s : State) (t : Task) : Option Task :=
  (s.tasks.filter fun x => decide (x.phase ≠ .failed) && !x.is t.ring t.seq && x.signalPa.isSome && x.signalPa == t.waitPa).foldl lowerRing none

/-- Whether a task is itself waiting on its WAIT. -/
def waitUnmet (s : State) (t : Task) : Bool := t.waitPa.isSome && !t.waitDone && decide (t.phase = .staged) && !waitMet s t

/-- A fence timeout: the record names the waiter and its blocker (R234). -/
def fenceTimedOut (t : Task) (s : State) : State :=
  match blockerOf s t with
  | some b => failTask t 0x3201 s 0 t.header.waitAddr (if waitUnmet s b then b.header.waitAddr else 0) b.ring
  | none => failTask t 0x3201 s 0 t.header.waitAddr 0 0xFFFF

/-- ENQUEUEs issued to a ring and not yet in effect, in the order in which they reached its home Tally (R246). -/
def enqueuesTo (s : State) (d : Nat) : List Task :=
  s.tasks.filter fun t => t.running && !t.stopping && match t.body with
    | .enqueue e => e.ring == d
    | _ => false

/-- Whether a ring has room for an ENQUEUE (R246). -/
def hasRoom (s : State) (e : EnqueueDesc) : Bool := let q := ringOf s e.ring; decide (q.tail + e.count ≤ q.head + ringSize q)

/-- The guard of an open group timed out (R248). -/
def guardTimedOut (g : Nat) (s : State) : State :=
  let x := groupOf s g
  if x.state ≠ .opened then s
  else squashGroup g .squashedOther (reportModule 0x3223 s)

/-- FENCE_TIMEOUT. -/
def fenceTimeout (o : FenceOwner) (s : State) : State :=
  match o with
  | .group g => guardTimedOut g s
  | .task r seq => match findTask s r seq with
    | none => s
    | some t =>
      if waitsItself s t && (t.header.type == .fenceWait || t.clockStarted || clockRuns s t) then fenceTimedOut t s
      else match t.body with
        | .enqueue e => if t.running ∧ !t.stopping ∧ !t.workDone ∧ !hasRoom s e then failTask t 0x3303 s else s
        | _ => s

def execFenceTimeout (o : FenceOwner) (s : State) : Answer := .next (preloadBenches (fenceTimeout o s))

/-! ### Issue of bench tasks -/

/-- The stage area of a bench, which the move port writes while a task with operands in virtual space runs: what it then holds is undefined
to every later task, so each byte is a free value (R156; log 4). -/
def fillStageArea (n : Nat) (s : State) : State :=
  let f := drawFreeBytes (scratchSize - stageBase) s
  scratchWrite n stageBase f.1 f.2

/-- A MATMUL or SEMIRING begins on its bench (R159): with no tile its work is done. -/
def startArray (t : Task) (s : State) : State :=
  match t.body, t.bench with
  | .mat d, some n =>
    if taskTiles d = 0 then updTask t.ring t.seq (fun t => { t with arrayDone := true, workDone := true }) s
    else
      let s1 := if hasVirtualInput d then fillStageArea n s else s
      updBenchState n (fun b => { b with
        run := some { ring := t.ring, seq := t.seq }
        nextB := b.nextB && (b.bankA.isSome || b.bankB.isSome) }) s1
  | _, _ => s

/-- A VECTOR begins on its bench (R173, R194): with a zero dimension its work is done. -/
def startVector (t : Task) (s : State) : State :=
  match t.body, t.bench with
  | .vector d, some n =>
    if d.d0 = 0 ∨ d.d1 = 0 ∨ d.d2 = 0 ∨ d.d3 = 0 then markWorkDone t.ring t.seq s else takeVector n s
  | _, _ => s

/-- A task of a ring issues when its type is the command's. -/
def issueTyped (ty : TaskType) (start : Task → State → State) (r seq : Nat) (s : State) : State :=
  match findTask s r seq with
  | some t => if t.header.type = ty ∧ t.phase = .staged then issueBench t start s else s
  | none => s

/-- MATMUL. -/
def execMatmul (r seq : Nat) (s : State) : Answer := .next (issueTyped .matmul startArray r seq s)

/-- SEMIRING. -/
def execSemiring (r seq : Nat) (s : State) : Answer := .next (issueTyped .semiring startArray r seq s)

/-- VECTOR. -/
def execVector (r seq : Nat) (s : State) : Answer := .next (issueTyped .vector startVector r seq s)

/-! ### Gates -/

/-- FENCE_WAIT: it completes once its WAIT has resolved (R243). -/
def fenceWait (r seq : Nat) (s : State) : State :=
  match findTask s r seq with
  | some t =>
    if t.header.type ≠ .fenceWait ∨ t.phase ≠ .staged ∨ t.stopping then s
    else if t.waitDone then completeTask t s else observeTask t s
  | none => s

def execFenceWait (r seq : Nat) (s : State) : Answer := .next (preloadBenches (fenceWait r seq s))

/-- An issued FENCE_SIGNAL completes once every earlier task of its ring has retired (R243), whatever has become of its ring (R227). -/
def signalWhenRetired (r seq : Nat) (s : State) : State :=
  match findTask s r seq with
  | some t => if t.running ∧ !t.stopping ∧ earlierRetired s t then completeTask t s else s
  | none => s

/-- FENCE_SIGNAL: it issues, and completes once every earlier task of its ring has retired (R243). -/
def fenceSignal (r seq : Nat) (s : State) : State :=
  match findTask s r seq with
  | some t =>
    if t.header.type ≠ .fenceSignal then s
    else signalWhenRetired r seq (if mayIssue s t then markIssued t s else s)
  | none => s

def execFenceSignal (r seq : Nat) (s : State) : Answer := .next (preloadBenches (fenceSignal r seq s))

/-- The transfers lost before a BARRIER are answered for by it. -/
def takeLost (r seq : Nat) (s : State) : State := updRing r (fun q => { q with lost := q.lost.filter fun x => !decide (x.1 < seq) }) s

/-- BARRIER: it issues, and waits; one that finds a transfer of an earlier task lost fails with it (R244, R387; log 88). -/
def barrier (r seq : Nat) (s : State) : State :=
  match findTask s r seq with
  | some t =>
    if t.header.type = .barrier ∧ mayIssue s t then
      match (ringOf s r).lost.find? fun x => decide (x.1 < seq) with
      | some x => failTask t x.2.1 (takeLost r seq (markIssued t s)) 0 x.2.2
      | none => markIssued t s
    else s
  | none => s

def execBarrier (r seq : Nat) (s : State) : Answer := .next (barrier r seq s)

/-- Fabric transfers of a ring's tasks before a sequence number that are not complete at their targets (R244). -/
def ringTransfers (s : State) (r seq : Nat) : List Transfer :=
  s.fabric.transfers.filter fun x => x.ring == some r && decide (x.seq < seq)

/-- BARRIER_COMPLETE. -/
def barrierComplete (r seq : Nat) (s : State) : State :=
  match findTask s r seq with
  | some t =>
    if t.header.type = .barrier ∧ t.running ∧ !t.stopping ∧ earlierRetired s t ∧ (ringTransfers s r seq).isEmpty then completeTask t s
    else s
  | none => s

def execBarrierComplete (r seq : Nat) (s : State) : Answer := .next (preloadBenches (barrierComplete r seq s))

/-! ### Enqueues (R246) -/

/-- Whether a destination ring takes an ENQUEUE of a task. -/
def enqueueEligible (s : State) (t : Task) (d : Nat) : Bool :=
  let q := ringOf s d
  ringExists s d && q.device && (q.status == .running || q.status == .paused || q.status == .faulted) &&
  ringPartition s d == some t.partition && q.context == t.context

/-- ENQUEUE: it reaches the destination's home Tally. -/
def enqueue (r seq : Nat) (s : State) : State :=
  match findTask s r seq with
  | none => s
  | some t => match t.body with
    | .enqueue e =>
      if !mayIssue s t then s
      else
        let s1 := markIssued t s
        if !enqueueEligible s1 t e.ring then failTask t 0x3302 s1
        else { s1 with tasks := (s1.tasks.filter fun x => !x.is r seq) ++ (s1.tasks.filter fun x => x.is r seq) }
    | _ => s

def execEnqueue (r seq : Nat) (s : State) : Answer := .next (enqueue r seq s)

/-- Descriptors written into consecutive slots of a ring from one number on. -/
def writeSlots (q : Requester) (ring : Ring) : Nat → List Byte → Nat → State → Reply Unit × State
  | 0, _, _, s => (.done (), s)
  | k + 1, bs, n, s =>
    Reply.andThen (engineWrite q (ring.base + n % ringSize ring * 128) (bs.take 128) s) fun _ u => writeSlots q ring k (bs.drop 128) (n + 1) u

/-- Tally acting for a module-level task. -/
def tallyRequester (t : Task) : Requester :=
  { agent := .tally, context := t.context, grove := t.grove, ring := t.ring, seq := t.seq }

/-- The effect of an ENQUEUE: descriptors copied, RESULT written, TAIL raised. -/
def appendDescs (t : Task) (e : EnqueueDesc) (s : State) : Reply Unit × State :=
  let q := tallyRequester t
  let d := ringOf s e.ring
  Reply.andThen (fieldRead q e.source (128 * e.count) s) fun bs u =>
    Reply.andThen (writeSlots q d e.count bs d.tail u) fun _ v =>
      Reply.andThen (if addrPresent e.result then fieldWrite q e.result (bytesOfNat 8 d.tail) v else (.done (), v)) fun _ w =>
        (.done (), updRing e.ring (fun x => { x with tail := x.tail + e.count }) w)

/-- ENQUEUE_APPEND: the first ENQUEUE to have reached the destination, once there is room. -/
def enqueueAppend (r seq : Nat) (s : State) : State :=
  match findTask s r seq with
  | none => s
  | some t => match t.body with
    | .enqueue e =>
      if !t.running || t.stopping || t.blocked || ((enqueuesTo s e.ring).head?.map (Task.is r seq)) != some true || !hasRoom s e then s
      else match appendDescs t e s with
        | (.done _, u) => completeTask t u
        | (.wait, u) => blockTask t u
        | (.fail code pa, u) => failTask t code u pa
    | _ => s

def execEnqueueAppend (r seq : Nat) (s : State) : Answer := .next (preloadBenches (enqueueAppend r seq s))

/-! ### Completion -/

/-- TASK_COMPLETE: the task's work is done and its transfers are handed over (R240). -/
def taskComplete (r seq : Nat) (s : State) : State :=
  match findTask s r seq with
  | some t => if t.running ∧ t.workDone ∧ !t.blocked ∧ t.transfers.isEmpty then completeTask t s else s
  | none => s

def execTaskComplete (r seq : Nat) (s : State) : Answer := .next (preloadBenches (taskComplete r seq s))

/-! ### Ring reset -/

/-- A member that had completed is not ended by the reset of its ring: its group keeps it, its signal still deferred (R251, R254). -/
def deferMember (t : Task) (s : State) : State :=
  updGroup t.header.group (fun x => { x with extended := x.extended ++ t.extended, deferred := x.deferred ++ [t] }) (dropTask t.ring t.seq s)

/-- A task at the end of a ring reset (R254): it ends with no signal, its ABORT if it asks for one; a member leaves its group (R257); one
that had completed stays its group's. -/
def endByRingReset (s : State) (t : Task) : State :=
  if t.phase = .awaiting then deferMember t s else
  let s1 := match t.bench with
    | some n => updBenchState n (stopOnBench t.ring t.seq) s
    | none => s
  let s2 := forgetWaits t.ring t.seq s1
  let s3 := if t.phase = .failed then s2 else abortSignal t s2
  let s4 := settleBenchOf t (dropTask t.ring t.seq s3)
  if t.member then
    freeGroup t.header.group (updGroup t.header.group (fun x => { x with extended := x.extended ++ t.extended }) s4)
  else s4

/-- The end of a ring reset (R254). -/
def finishRingReset (r : Nat) (s : State) : State :=
  let q := ringOf s r
  let ts := s.tasks.filter fun t => t.ring == r
  let ended := (ts.filter fun t => decide (t.phase = .staged) || decide (t.phase = .issued)).length
  let s1 := ts.foldl endByRingReset s
  let e : ErrRecord := { code := 0x3110, ring := BitVec.ofNat 16 r, source := srcGrove s (homeGrove r), context := BitVec.ofNat 16 q.context,
                         detail0 := BitVec.ofNat 64 ended }
  updRing r (fun q => { q with
    head := 0, tail := 0, completed := 0, failures := [], retired := [], dropped := false, status := .disabled, pending := []
    readWaits := false, descriptorWaits := false, stageFails := none, stageAddr := 0, sliceWait := none, lost := [] })
    (report e { s1 with scatAdds := s1.scatAdds.filter fun x => x.2.1 != r })

/-- A task at a ring reset (R253): a staged one never runs; an issued one stops at once, at its pass boundary, with which its array work has
ended (R235), or at the end of its strip. -/
def stopByRingReset (s : State) (t : Task) : State :=
  let mark (s : State) : State :=
    updTask t.ring t.seq (fun t => { t with stopping := true, blocked := false, arrayDone := t.arrayDone || t.onArray }) s
  match t.phase, t.bench with
  | .staged, _ | .issued, none => mark s
  | .issued, some n =>
    if t.blocked || t.moves then takeVector n (mark (updBenchState n (stopOnBench t.ring t.seq) s))
    else
      let s1 := { s with power := markStop n s.power }
      if t.onArray then takeVector n (mark (updBenchState n (stopArray t.ring t.seq) s1)) else settleRun n (mark s1)
  | .awaiting, _ | .failed, _ => s

/-- Waits of a ring's tasks and of its staging gone (R94). -/
def forgetRing (r : Nat) (s : State) : State :=
  { s with
    tu := dropAccepted (Waiter.ofRing r) (dropWaiters (fun w => w.ring == r) s.tu)
    tier := { s.tier with
      inProgress := s.tier.inProgress.map fun m => { m with waiters := m.waiters.filter fun w => !w.ofRing r }
      admitted := s.tier.admitted.filter fun x => !x.1.ofRing r } }

/-- RESET (R253): the ring's tasks are stopped, ENQUEUEs that wait on it fail (R246), the benches with issued tasks are to report. -/
def ringReset (r : Nat) (s : State) : State :=
  let q := ringOf s r
  if !ringExists s r || !(q.status == .running || q.status == .paused || q.status == .faulted) then s
  else
    let mine := s.tasks.filter fun t => t.ring == r
    let benches := (mine.filterMap fun t => if t.running then t.bench else none).eraseDups
    let s1 := forgetRing r (updRing r (fun q => { q with status := .resetting, pending := benches, readWaits := false, descriptorWaits := false, stageFails := none, sliceWait := none }) s)
    let s2 := mine.foldl stopByRingReset s1
    let s3 := (enqueuesTo s2 r).foldl (fun s t => failTask t 0x3304 s) s2
    if benches.isEmpty then finishRingReset r s3 else s3

def execRingReset (r : Nat) (s : State) : Answer := .next (preloadBenches (ringReset r s))

/-- Whether a bench may report: no issued task of the ring on it runs on towards its stop point or its completion. -/
def mayReport (s : State) (r n : Nat) : Bool :=
  (runningOn s n).all fun t => t.ring != r || (atStop s t && !t.workDone)

/-- BENCH_REPORT (R253). -/
def benchReport (r n : Nat) (s : State) : State :=
  let q := ringOf s r
  if q.status ≠ .resetting ∨ !q.pending.contains n ∨ !mayReport s r n then s
  else
    let left := q.pending.filter fun m => m != n
    let s1 := updRing r (fun q => { q with pending := left }) s
    if left.isEmpty then finishRingReset r s1 else s1

def execBenchReport (r n : Nat) (s : State) : Answer := .next (preloadBenches (benchReport r n s))

end Sys2Proof.Machine
end

