-- ==== Sys2Proof/Machine/Deck.lean ====
section
/-!
DEFINITION. Machine/Deck.lean: the Deck units (R200–R222): enabling, the operations of DECK tasks, scrubs, truncations, relabels.
-/

namespace Sys2Proof.Machine

/-! ### Enabling (R205) -/

/-- Whether every stake of a range is assigned to Deck. -/
def stakesOfDeck (s : State) (pa n : Nat) : Bool :=
  (blocksOf stakeSize pa n).all fun b =>
    let k := stakeAt s (b * stakeSize)
    decide (k.state = .owned) && k.owner == 0xFFF0

/-- Whether a write of 1 to ENABLE is accepted. -/
def deckConfigGood (s : State) (u : DeckUnit) : Bool :=
  decide (16 ≤ u.pageLog2 ∧ u.pageLog2 ≤ 22 ∧ 12 ≤ u.listLog2 ∧ u.listLog2 ≤ 18 ∧ u.areaBase ≠ 0 ∧ u.poolPages ≠ 0) &&
  decide (u.areaBase + areaBytes u ≤ nearSize) && stakesOfDeck s u.areaBase (areaBytes u)

/-- A write of DECK_CTL. -/
def deckCtlWrite (g v : Nat) (s : State) : State :=
  let u := deckOf s g
  if u.enable || u.zeroing then s
  else
    let u1 := { u with pageLog2 := bitsOf v 20 16, listLog2 := bitsOf v 12 8 }
    let s1 := updDeck g (fun _ => u1) s
    if !bitOf v 0 then s1
    else if deckConfigGood s1 u1 then updDeck g (fun u => { u with zeroing := true, configErr := false }) s1
    else updDeck g (fun u => { u with configErr := true }) s1

/-- DECK_ENABLE. -/
def execDeckEnable (g : Nat) (v : W64) (s : State) : Answer := .next (if g < 4 ∧ inService s then deckCtlWrite g v.toNat s else s)

/-- DECK_ZEROING_DONE: the last byte of the area is zeroed. -/
def deckZeroingDone (g : Nat) (s : State) : State :=
  let u := deckOf s g
  if !u.zeroing then s
  else updDeck g (fun u => { u with zeroing := false, enable := true }) (zeroRange u.areaBase (areaBytes u) s)

def execDeckZeroingDone (g : Nat) (s : State) : Answer := .next (deckZeroingDone g s)

/-! ### Operations (R209) -/

/-- What an operation does when it reaches its home Deck unit: a refusal, or the state, the handle and the last word of its result
record (R210). -/
abbrev DeckEffect := Except W16 (State × Nat × Nat)

/-- The home grove of a DECK task's operation: CREATE acts at the issuing grove (R209). -/
def homeOf (t : Task) (d : DeckDesc) : Nat := if d.op = .create then t.grove else handleGrove d.handle

/-- The entry a descriptor names. -/
def namedSeq (s : State) (d : DeckDesc) : SeqEntry := seqOf (deckOf s (handleGrove d.handle)) (handleSlot d.handle)

/-- A sequence table entry changed. -/
def updNamed (d : DeckDesc) (f : SeqEntry → SeqEntry) (s : State) : State :=
  updDeck (handleGrove d.handle) (updSeq (handleSlot d.handle) f) s

/-- The result record (R210): handle, C, PROV and the operation's own word. -/
def resultRecord (h : Nat) (e : SeqEntry) (word : Nat) : List Byte :=
  bytesOfNat 4 h ++ bytesOfNat 4 e.committed ++ bytesOfNat 1 (provOf e) ++ bytesOfNat 3 0 ++ bytesOfNat 4 word

/-- The record of a failed operation: the entry's values, or zero when the handle is stale or names nothing. -/
def failedRecord (s : State) (d : DeckDesc) : List Byte :=
  let e := namedSeq s d
  if d.op = .create ∨ d.handle = 0 ∨ e.state ≠ .live ∨ e.gen ≠ handleGen d.handle then bytesOfNat 16 0 else resultRecord d.handle e 0

/-- Whether R201 refuses a new sequence of a partition at a grove. -/
def newSeqRefusal (s : State) (p g : Nat) : Option W16 :=
  if deckQuota s p < partitionLive s p + 1 then some 0x3803
  else if (freeSlotOf (deckOf s g)).isNone then some 0x3804
  else none

/-- The generation after one. -/
def nextGen (gen : Nat) : Nat := min (gen + 1) 0xFFFF

/-- CREATE. -/
def deckCreate (t : Task) (d : DeckDesc) (s : State) : DeckEffect :=
  let u := deckOf s t.grove
  if rowBytesShort u.pageLog2 d.streamsLog2 then .error 0x380C
  else match newSeqRefusal s t.partition t.grove, freeSlotOf u with
    | some c, _ => .error c
    | none, none => .error 0x3804
    | none, some i =>
      let gen := nextGen (seqOf u i).gen
      let e : SeqEntry := { gen := gen, state := .live, streamsLog2 := d.streamsLog2, context := t.context, partition := t.partition }
      .ok (updDeck t.grove (updSeq i fun _ => e) s, handleOf t.grove i gen, 0)

/-- Tokens added to a sequence, with the pages they need (R206, R209); beyond the sequence limit nothing is added (R204; log 21). -/
def extendSeq (d : DeckDesc) (tokens : Nat) (f : SeqEntry → SeqEntry) (s : State) : DeckEffect :=
  let g := handleGrove d.handle
  let u := deckOf s g
  let e := namedSeq s d
  if tokenLimit u < tokens then .error 0x3807
  else match takePages (handleSlot d.handle) (pagesShort e tokens) u, tableRefusal s g [] (nextPages u (pagesShort e tokens)) with
    | none, _ => .error 0x3805
    | some _, some c => .error c
    | some v, none => .ok (updDeck g (fun _ => updSeq (handleSlot d.handle) f v) s, d.handle, e.committed + provOf e)

/-- EXTEND, provisional (R209, R216). -/
def deckExtendProvisional (t : Task) (d : DeckDesc) (s : State) : DeckEffect :=
  let e := namedSeq s d
  let g := deckGroup s t
  let labels := e.groups ++ List.replicate d.count g
  if d.count = 0 ∨ 16 < provOf e + d.count then .error 0x3806
  else if !labelsGood (labels.map (countsAs s)) then .error 0x380A
  else match extendSeq d (e.committed + provOf e + d.count) (fun e => { e with groups := labels }) s with
    | .error c => .error c
    | .ok (u, h, w) =>
      .ok (if g ≠ 0 then updTask t.ring t.seq (fun t => { t with extended := if t.extended.contains h then t.extended else h :: t.extended }) u
           else u, h, w)

/-- EXTEND, committed. -/
def deckExtendCommitted (_ : Task) (d : DeckDesc) (s : State) : DeckEffect :=
  let e := namedSeq s d
  if provOf e ≠ 0 ∨ d.count = 0 ∨ 65536 < d.count then .error 0x3807
  else extendSeq d (e.committed + d.count) (fun e => { e with committed := e.committed + d.count }) s

/-- COMMIT. -/
def deckCommit (_ : Task) (d : DeckDesc) (s : State) : DeckEffect :=
  let e := namedSeq s d
  if provOf e < d.count then .error 0x3808
  else if groupsOpen s e then .error 0x380A
  else .ok (updNamed d (fun e => { e with committed := e.committed + d.count, groups := [] }) s, d.handle, 0)

/-- ROLLBACK. -/
def deckRollback (_ : Task) (d : DeckDesc) (s : State) : DeckEffect :=
  if groupsOpen s (namedSeq s d) then .error 0x380A else .ok (updNamed d (fun e => { e with groups := [] }) s, d.handle, 0)

/-- RELEASE (R214). -/
def deckRelease (_ : Task) (d : DeckDesc) (s : State) : DeckEffect :=
  .ok (updNamed d (fun e => { e with gen := nextGen e.gen, state := .scrubbing }) s, d.handle, 0)

/-- QUERY: the entry itself is the result. -/
def deckQuery (_ : Task) (d : DeckDesc) (s : State) : DeckEffect := .ok (s, d.handle, 0)

/-- The rows a WRITE or READ moves: stream, token. -/
def deckRows (d : DeckDesc) (tokens : Nat) : List (Nat × Nat) :=
  (List.range d.streamCount).flatMap fun i => (List.range tokens).map fun j => (d.streamFirst + i, d.first + j)

/-- The pages of a sequence's list in which some rows lie. -/
def rowPages (e : SeqEntry) (rows : List (Nat × Nat)) : List Nat :=
  ((rows.filter fun r => decide (r.2 / 16 < e.pages.length)).map fun r => e.pages.getD (r.2 / 16) 0).eraseDups

/-- WRITE: every row must be writable (R212). -/
def deckWrite (t : Task) (d : DeckDesc) (s : State) : DeckEffect :=
  let u := deckOf s (handleGrove d.handle)
  let e := namedSeq s d
  let rows := deckRows d d.count
  match tableRefusal s (handleGrove d.handle) [] (rowPages e rows) with
  | some c => .error c
  | none =>
    if rows.all fun r => rowWritable s t u e r.1 r.2 0 (rowBytes u e) then
      match rowsRefusal s u e rows with
      | some c => .error c
      | none => .ok (s, d.handle, 0)
    else .error 0x3809

/-- Tokens a READ copies: those of its range within the visible length (R213). -/
def readTokens (e : SeqEntry) (d : DeckDesc) : Nat :=
  min (d.first + d.count) (e.committed + (if d.view then provOf e else 0)) - d.first

/-- READ: the snapshot. -/
def deckRead (_ : Task) (d : DeckDesc) (s : State) : DeckEffect :=
  let e := namedSeq s d
  if 2 ^ e.streamsLog2 < d.streamFirst + d.streamCount then .error 0x3809
  else match rowsRefusal s (deckOf s (handleGrove d.handle)) e (deckRows d (readTokens e d)) with
    | some c => .error c
    | none => .ok (s, d.handle, readTokens e d)

/-- Reference counts of shared pages raised. -/
def sharePages (pages : List Nat) (u : DeckUnit) : DeckUnit :=
  { u with refs := pages.foldl (fun t i => t.update 0 i (· + 1)) u.refs }

/-- The first rows of every stream of one page copied into another (R209). -/
def copyRows (u : DeckUnit) (e : SeqEntry) (src dst rows : Nat) : List Nat → State → Reply Unit × State
  | [], s => (.done (), s)
  | st :: sts, s =>
    let off := st * 16 * rowBytes u e
    Reply.andThen (physRead deckRequester (pageAddr u src + off) (rows * rowBytes u e) s) fun bs v =>
      Reply.andThen (physWrite deckRequester (pageAddr u dst + off) bs v) fun _ w => copyRows u e src dst rows sts w

/-- FORK: whole pages shared, a partial page copied (R209); a row that cannot be read ends it without effect. -/
def deckFork (t : Task) (d : DeckDesc) (s : State) : DeckEffect :=
  let g := handleGrove d.handle
  let u := deckOf s g
  let e := namedSeq s d
  let shared := e.pages.take (d.count / 16)
  let rest := d.count % 16
  if e.committed < d.count then .error 0x3808
  else match newSeqRefusal s t.partition g, freeSlotOf u with
    | some c, _ => .error c
    | none, none => .error 0x3804
    | none, some i => match tableRefusal s g [] (shared ++ if rest = 0 then [] else nextPages u 1) with
    | some c => .error c
    | none =>
      let gen := nextGen (seqOf u i).gen
      let child : SeqEntry := { e with gen := gen, committed := d.count, groups := [], pages := shared }
      let u1 := updSeq i (fun _ => child) (sharePages shared u)
      if rest = 0 then .ok (updDeck g (fun _ => u1) s, handleOf g i gen, 0)
      else match takePages i 1 u1 with
        | none => .error 0x3805
        | some u2 =>
          match copyRows u e (e.pages.getD (d.count / 16) 0) ((seqOf u2 i).pages.getLastD 0) rest (List.range (2 ^ e.streamsLog2))
              (updDeck g (fun _ => u2) s) with
          | (.done _, v) => .ok (v, handleOf g i gen, 0)
          | (.fail c _, _) => .error c
          | (.wait, _) => .error 0x5101

/-! ### A DECK task -/

/-- The operations a speculative task may perform (R216). -/
def specAllows : DeckOp → Bool
  | .extendProvisional | .write | .read | .query => true
  | .create | .extendCommitted | .commit | .rollback | .fork | .release => false

/-- Slots whose entries an operation reads: the one its handle names, and the free one that CREATE and FORK take. -/
def operationSlots (d : DeckDesc) (u : DeckUnit) : List Nat :=
  (if d.op = .create then [] else [handleSlot d.handle]) ++ (if d.op = .create ∨ d.op = .fork then (freeSlotOf u).toList else [])

/-- What refuses an operation before its own conditions: a fenced or disabled home, the handle, the owner, speculation (R205, R209, R216,
R458). -/
def deckRefusal (s : State) (t : Task) (d : DeckDesc) : Option W16 :=
  let g := homeOf t d
  if s.err.fenced.contains g then some 0x9302
  else if !(deckOf s g).enable then some 0x380B
  else match tableRefusal s g (operationSlots d (deckOf s g)) [] with
  | some c => some c
  | none => match (if d.op = .create then none else seqRefusal s t d.handle) with
    | some c => some c
    | none => if deckGroup s t ≠ 0 ∧ !specAllows d.op then some 0x380A else none

/-- Whether a task's operation writes a result: RESULT is present. -/
def hasResult (d : DeckDesc) : Bool := addrPresent d.result

/-- The result written, and the task past it: it is done, or fails with the code it holds (R210). A wait keeps the record. -/
def deckResult (t : Task) (d : DeckDesc) (n : Nat) (bytes : Nat) (record : Nat) (s : State) : State :=
  let fin (s : State) : State := match t.ends with
    | some e => failAs t e s
    | none => markWorkDone t.ring t.seq s
  if !hasResult d then fin s
  else match fieldWrite (moveRequester t n) d.result (bytesOfNat bytes record) s with
    | (.done _, u) => fin u
    | (.wait, u) => blockTask t u
    | (.fail c pa, u) => failTask t c u pa

/-- Rows moved from the task's progress on: one row at a time, the progress counted. -/
def moveRows (t : Task) (d : DeckDesc) (n : Nat) : List (Nat × Nat) → State → Reply Unit × State
  | [], s => (.done (), s)
  | (st, tok) :: rs, s =>
    let u := deckOf s (handleGrove d.handle)
    let e := namedSeq s d
    let a := d.data + (st - d.streamFirst) * d.streamPitch + (tok - d.first) * d.rowStride
    let q := moveRequester t n
    let r := if d.op = .write then Reply.andThen (fieldRead q a (rowBytes u e) s) fun bs v => rowWrite u e st tok 0 bs v
             else Reply.andThen (rowRead u e st tok s) fun bs v => fieldWrite q a bs v
    Reply.andThen r fun _ v => moveRows t d n rs (updTask t.ring t.seq (fun t => { t with progress := t.progress + 1 }) v)

/-- A refused or failed operation: its record with the entry as it stands, then the failure (R209, R210). -/
def refuseDeck (t : Task) (d : DeckDesc) (n : Nat) (code : W16) (pa : Nat) (s : State) : State :=
  if d.op = .query then failTask t code s pa
  else
    let res := natOfBytes (failedRecord s d)
    let t1 := { t with snapshot := some res, ends := some { code := code, addr := pa } }
    deckResult t1 d n 16 res (updTask t.ring t.seq (fun _ => t1) s)

/-- What follows the effect: rows, then the result (R213, R221); a row that cannot be moved leaves those before it in place. -/
def afterEffect (t : Task) (d : DeckDesc) (n record : Nat) (s : State) : State :=
  let tokens := if d.op = .write then d.count else record / 2 ^ 96
  let rows := if (d.op = .write ∨ d.op = .read) ∧ t.ends.isNone then (deckRows d tokens).drop t.progress else []
  match moveRows t d n rows s with
  | (.done _, u) => deckResult t d n (if d.op = .query then 64 else 16) record u
  | (.wait, u) => blockTask t u
  | (.fail c pa, u) => refuseDeck t d n c pa u

/-- The operation reaches its home Deck unit (R209, R222): in a reset of the home grove it waits. One that has taken effect goes on; one
that has ended has its record to write. -/
def runDeck (f : Task → DeckDesc → State → DeckEffect) (t : Task) (d : DeckDesc) (n : Nat) (s : State) : State :=
  match t.snapshot, t.ends with
  | some rec, some _ => deckResult t d n 16 rec s
  | some rec, none => afterEffect t d n rec s
  | none, some e => refuseDeck t d n e.code e.addr s
  | none, none =>
    if (s.groveResets.get {} (homeOf t d)).busy then s
    else match deckRefusal s t d with
      | some code => refuseDeck t d n code 0 s
      | none => match f t d s with
        | .error code => refuseDeck t d n code 0 s
        | .ok (u, h, word) =>
          let e := seqOf (deckOf u (handleGrove h)) (handleSlot h)
          let res := natOfBytes (if d.op = .query then seqBytes e else resultRecord h e word)
          let v := updTask t.ring t.seq (fun t => { t with snapshot := some res }) (countDeckOp (homeOf t d) u)
          match findTask v t.ring t.seq with
          | some t1 => afterEffect t1 d n res v
          | none => v

/-- Whether a DECK task writes rows of memory (R319). -/
def deckWritesRows (d : DeckDesc) : Bool :=
  d.op == .write || d.op == .fork || (d.op == .read && !addrScratch d.data) || (hasResult d && !addrScratch d.result)

/-- A command of a DECK task: it issues, and its operation runs. -/
def deckStep (op : DeckOp) (f : Task → DeckDesc → State → DeckEffect) (r seq : Nat) (s : State) : State :=
  let s1 := match findTask s r seq with
    | some t => match t.body with
      | .deck d => if d.op = op ∧ t.phase = .staged then issueBench t (fun _ s => s) s else s
      | _ => s
    | none => s
  match findTask s1 r seq with
  | some t => match t.body, t.bench with
    | .deck d, some n =>
      if d.op = op ∧ t.running ∧ !t.blocked ∧ !t.stopping ∧ !t.workDone ∧ (demandOf t = 0 ∨ clockOn s1 n) ∧
          !scratchHeld s1 t n (taskRuns false t.body) ∧ !(deckWritesRows d && rowsHeld s1 t n) then runDeck f t d n s1 else s1
    | _, _ => s1
  | none => s1

def execDeckCreate (r seq : Nat) (s : State) : Answer := .next (deckStep .create deckCreate r seq s)
def execDeckExtendProvisional (r seq : Nat) (s : State) : Answer := .next (deckStep .extendProvisional deckExtendProvisional r seq s)
def execDeckExtendCommitted (r seq : Nat) (s : State) : Answer := .next (deckStep .extendCommitted deckExtendCommitted r seq s)
def execDeckWrite (r seq : Nat) (s : State) : Answer := .next (deckStep .write deckWrite r seq s)
def execDeckRead (r seq : Nat) (s : State) : Answer := .next (deckStep .read deckRead r seq s)
def execDeckCommit (r seq : Nat) (s : State) : Answer := .next (deckStep .commit deckCommit r seq s)
def execDeckRollback (r seq : Nat) (s : State) : Answer := .next (deckStep .rollback deckRollback r seq s)
def execDeckFork (r seq : Nat) (s : State) : Answer := .next (deckStep .fork deckFork r seq s)
def execDeckRelease (r seq : Nat) (s : State) : Answer := .next (deckStep .release deckRelease r seq s)
def execDeckQuery (r seq : Nat) (s : State) : Answer := .next (deckStep .query deckQuery r seq s)

/-! ### Scrubs, truncations, relabels -/

/-- Whether a READ, WRITE or Dresser run that took effect on a slot's sequence goes on (R214). -/
def seqInUse (s : State) (g slot : Nat) : Bool :=
  (s.tasks.any fun t => t.running && !t.workDone && t.snapshot.isSome && match t.body with
    | .deck d => (d.op == .read || d.op == .write) && handleGrove d.handle == g && handleSlot d.handle == slot
    | _ => false) ||
  s.benches.cells.any fun c => match c.2.dresser with
    | some r => r.touched.any fun h => handleGrove h == g && handleSlot h == slot
    | none => false

/-- The record of an access of a Deck unit for itself, no task's, that was refused (R303). -/
def reportDeck (g : Nat) (code : W16) (pa : Nat) (s : State) : State :=
  report { code := code, source := srcGrove s g, address := BitVec.ofNat 64 pa, context := 0xFFF0 } s

/-- A page that no sequence refers to any more: zeroed and free, but for a page that its stake refuses (R214, R303). -/
def freePage (g i : Nat) (s : State) : State :=
  let u := deckOf s g
  match accessRefusal s rowRequester true (pageAddr u i) (2 ^ u.pageLog2) with
  | some c => reportDeck g c (pageAddr u i) s
  | none => updDeck g (fun u => { u with freeStack := i :: u.freeStack }) (zeroRange (pageAddr u i) (2 ^ u.pageLog2) s)

/-- A page's reference dropped; a page that none refers to is zeroed and pushed on the free stack (R214). What a stake or poison refuses
changes nothing and leaves a record (R303): metadata that cannot be had keeps the page, a page that cannot be zeroed is not pushed
(log 87). -/
def dropPage (g : Nat) (s : State) (i : Nat) : State :=
  match tableRefusal s g [] [i] with
  | some c => reportDeck g c (pagePlace (deckOf s g) i).1 s
  | none =>
    let n := (deckOf s g).refs.get 0 i - 1
    let s1 := updDeck g (fun u => { u with refs := u.refs.set 0 i n }) s
    if n = 0 then freePage g i s1 else s1

/-- DECK_SCRUB_DONE: the pages of a released sequence are done (R214); a slot whose entry or page list cannot be had stays as it is, with a
record (log 87). -/
def deckScrubDone (g slot : Nat) (s : State) : State :=
  let e := seqOf (deckOf s g) slot
  if e.state ≠ .scrubbing ∨ seqInUse s g slot ∨ (s.groveResets.get {} g).busy then s
  else match tableRefusal s g [slot] [] with
  | some c => reportDeck g c ((deckOf s g).areaBase + 64 * slot) s
  | none =>
    let s1 := e.pages.foldl (dropPage g) s
    updDeck g (updSeq slot fun e => { gen := e.gen, state := if e.gen = 0xFFFF then .retired else .free }) s1

def execDeckScrubDone (g slot : Nat) (s : State) : Answer := .next (deckScrubDone g slot s)

/-- A group's action on a sequence reaches the home Deck unit (R217, R251): the labels change where the handle is still good and the
sequence's entry can be had; an entry that cannot leaves a record (log 87). -/
def groupAction (st : GroupState) (f : List Nat → List Nat) (h g : Nat) (s : State) : State :=
  let x := groupOf s g
  if x.state ≠ st ∨ !x.deckPending.contains h ∨ (s.groveResets.get {} (handleGrove h)).busy then s
  else
    let u := deckOf s (handleGrove h)
    let e := seqOf u (handleSlot h)
    let entry := (u.areaBase + 64 * handleSlot h, 64)
    let s1 := if e.state = .live ∧ e.gen = handleGen h then
        match placesRefusal s [entry] with
        | some c => reportDeck (handleGrove h) c entry.1 s
        | none => updDeck (handleGrove h) (updSeq (handleSlot h) fun e => { e with groups := f e.groups }) s
      else s
    freeGroup g (updGroup g (fun x => { x with deckPending := x.deckPending.filter fun y => y != h }) s1)

/-- DECK_TRUNCATION: PROV becomes the number of tokens before the group's first (R217). -/
def execDeckTruncation (handle group : Nat) (s : State) : Answer :=
  .next (groupAction .squashing (fun l => l.takeWhile fun x => x != group) handle group s)

/-- DECK_RELABEL: the group's entries become 0 (R251). -/
def execDeckRelabel (handle group : Nat) (s : State) : Answer :=
  .next (groupAction .confirming (fun l => l.map fun x => if x = group then 0 else x) handle group s)

end Sys2Proof.Machine
end

