-- ==== Sys2Proof/Machine/Lanes.lean ====
section
/-!
DEFINITION. Machine/Lanes.lean: Kerf bundles and their lanes: spares, lent lanes and half width (R337, R338, R342, R343), and flit
framing and rates (R339).
-/

namespace Sys2Proof.Machine

/-! ### Bundles and their lanes -/

/-- Bundles of an edge (R337). -/
def bundlesOf (e : Nat) : Nat := if e < 8 then 32 else 16

/-- Bundle b of edge e, and with a change. -/
def bundleOf (s : State) (e b : Nat) : KerfBundle := s.kerf.bundles.get {} (e * 32 + b)
def updBundle (e b : Nat) (f : KerfBundle → KerfBundle) (s : State) : State :=
  { s with kerf := { s.kerf with bundles := s.kerf.bundles.update {} (e * 32 + b) f } }

/-- One direction of a bundle, and with a change. -/
def dirOf (k : KerfBundle) (dirB : Bool) : LaneDir := if dirB then k.dirB else k.dirA
def setDir (dirB : Bool) (d : LaneDir) (k : KerfBundle) : KerfBundle := if dirB then { k with dirB := d } else { k with dirA := d }

/-- Admitted-die site k, and with a change. -/
def siteOf (s : State) (k : Nat) : Site := s.kerf.sites.get {} k
def updSite (k : Nat) (f : Site → Site) (s : State) : State := { s with kerf := { s.kerf with sites := s.kerf.sites.update {} k f } }

/-- ROLE codes (R55, R358). -/
def roleCode : KerfRole → Nat
  | .off => 0 | .hub => 1 | .hubOverflow => 2 | .bulk => 3 | .direct => 4 | .port => 5

/-- A Kerf lane locator by its LANE (R466). -/
def laneLocator (e b : Nat) (dirB : Bool) (lane : Nat) : Nat := e + (b <<< 4) + (bitNat dirB <<< 9) + (lane <<< 10)

/-- LANE of a lane of a direction: 66 for the clock pair, which is 1000 here; a lent lane, which R466 gives no number, is named by the data
position it carries (log 90). -/
def laneName (d : LaneDir) (lane : Nat) : Nat :=
  if lane = 1000 then 66 else if lane < 66 then lane else ((d.replaced.find? fun x => x.2 == lane).map (·.1)).getD 0

/-- Whether an OFF bundle lends to this one from below, or from above (R342). -/
def lentBelow (s : State) (e b : Nat) : Bool := decide (e < 8) && decide (0 < b) && decide ((bundleOf s e (b - 1)).role = .off)
def lentAbove (s : State) (e b : Nat) : Bool := decide (e < 8) && decide (b < 31) && decide ((bundleOf s e (b + 1)).role = .off)

/-- Lanes that can replace a failed one, in the order of R342. -/
def spareLanes (below above : Bool) : List Nat :=
  (if below then [66, 67, 68, 69] else []) ++ (if above then [70, 71, 72, 73] else []) ++ [64, 65]

/-- The lane that carries a data position. -/
def carrier (d : LaneDir) (p : Nat) : Nat := ((d.replaced.find? fun x => x.1 == p).map (·.2)).getD p

/-- Data positions whose lane has failed, lowest first. -/
def brokenPositions (d : LaneDir) : List Nat := (List.range 64).filter fun p => d.failed.contains (carrier d p)

/-- A failed position given the first available lane (R342, R351); a lent lane stays with its borrower. -/
def repairPosition (spares : List Nat) (d : LaneDir) (p : Nat) : LaneDir :=
  match spares.find? fun l => !d.failed.contains l && !(d.replaced.any fun x => x.2 == l) with
  | some l => { d with
      replaced := d.replaced.filter (fun x => x.1 != p) ++ [(p, l)]
      borrowed := if 66 ≤ l ∧ !d.borrowed.contains l then d.borrowed ++ [l] else d.borrowed }
  | none => d

/-- Every failed position repaired as far as lanes last. -/
def repairDir (spares : List Nat) (d : LaneDir) : LaneDir := (brokenPositions d).foldl (repairPosition spares) d

/-- Lanes of a half: its data lanes and its spare (R343). -/
def halfLanes (upper : Bool) : List Nat := if upper then (List.range 32).map (· + 32) ++ [65] else List.range 32 ++ [64]

/-- Working lanes of a half among its 33 (R343). -/
def halfWorking (d : LaneDir) (upper : Bool) : Nat := ((halfLanes upper).filter fun l => !d.failed.contains l).length

/-- A direction runs at full width: its clock pair works and every data position has a lane. -/
def runsFull (d : LaneDir) : Bool := !d.clockFailed && (brokenPositions d).isEmpty

/-- A direction can run at half width (R343). -/
def runsHalf (d : LaneDir) : Bool := !d.clockFailed && (decide (32 ≤ halfWorking d false) || decide (32 ≤ halfWorking d true))

/-- A direction on its half: the lower one where it qualifies, its spare in the place of a failed data lane (R343). -/
def takeHalf (d : LaneDir) : LaneDir :=
  let upper := decide (halfWorking d false < 32)
  let spare := if upper then 65 else 64
  { d with upper := upper
           replaced := ((halfLanes upper).filter fun l => decide (l < 64) && d.failed.contains l).map fun p => (p, spare) }

/-- A bundle with its lanes repaired and its width set; it never grows wider. Where one direction needs half width, the other one must
qualify for it on lanes of its own, else the bundle goes down (R343; log 76). -/
def fitBundle (spares : List Nat) (k : KerfBundle) : KerfBundle :=
  let a := if k.width = .full then repairDir spares k.dirA else k.dirA
  let b := if k.width = .full then repairDir spares k.dirB else k.dirB
  if k.width = .down then k
  else if k.width = .full ∧ runsFull a ∧ runsFull b then { k with dirA := a, dirB := b }
  else if runsHalf a ∧ runsHalf b then { k with width := .half, dirA := takeHalf a, dirB := takeHalf b }
  else { k with width := .down, dirA := a, dirB := b }

/-- Own spares in use, and lanes borrowed, in a direction (R358). -/
def sparesUsed (d : LaneDir) : Nat := (d.replaced.filter fun x => x.2 == 64 || x.2 == 65).length
def lanesBorrowed (d : LaneDir) : Nat := d.borrowed.length

/-- Lanes that a direction lacks for an idle spare: none is idle at full width, or the half's is in use. -/
def idleSpares (k : KerfBundle) (d : LaneDir) : List Nat :=
  let own : List Nat := match k.width with
    | .down => []
    | .full => [64, 65]
    | .half => if d.upper then [65] else [64]
  own.filter fun l => !d.failed.contains l && !(d.replaced.any fun x => x.2 == l)

/-- How the check code of a flit travels (R339). -/
structure FlitCheck where
  /-- Width of the CRC. -/
  crc : Nat
  /-- Unit intervals of a flit. -/
  ui : Nat
  /-- Spares that carry the code; none where it is in band. -/
  spares : List Nat
  /-- Payload rate of the direction, in 0.1 GB/s. -/
  rate : Nat
deriving DecidableEq, Repr

/-- Flit framing of a direction (R339); none while the bundle is down. -/
def flitCheck (k : KerfBundle) (d : LaneDir) : Option FlitCheck :=
  let idle := idleSpares k d
  match k.width, idle with
  | .down, _ => none
  | .full, [] => some ⟨64, 33, [], 1241⟩
  | .full, [_] => some ⟨32, 32, idle, 1280⟩
  | .full, _ => some ⟨64, 32, idle, 1280⟩
  | .half, [] => some ⟨64, 66, [], 621⟩
  | .half, _ => some ⟨64, 64, idle, 640⟩

/-- A direction carries its check code in band (R339). -/
def inBand (k : KerfBundle) (d : LaneDir) : Bool := (flitCheck k d).any fun c => c.spares.isEmpty

/-- Payload rate of a direction, in 0.1 GB/s (R339). -/
def dirRate (k : KerfBundle) (d : LaneDir) : Nat := ((flitCheck k d).map (·.rate)).getD 0

/-- A direction carries flits: the bundle is up and neither retrains nor is paused (R341, R350). -/
def carriesFlits (k : KerfBundle) : Bool := decide (k.width ≠ .down) && !k.retraining && !k.repairing

end Sys2Proof.Machine
end

