-- ==== Sys2Proof/Machine/Flits.lean ====
section
/-!
DEFINITION. Machine/Flits.lean: Kerf traffic: the classes and roles of flits (R345, R346), the bundle each takes, the order of the hub
class, and how queued flits leave a bundle (R347, R351).
-/

namespace Sys2Proof.Machine

/-- The Kerf block changed. -/
def updKerf (f : KerfBlock → KerfBlock) (s : State) : State := { s with kerf := f s.kerf }

/-! ### Classes and paths -/

/-- A message that keeps no order (R346). -/
def HubMessage.unordered : HubMessage → Bool
  | .translationReply | .errorRecord => true
  | .coherence | .controlSpace | .interrupt | .translationRequest | .boom | .tally => false

/-- A flit of the hub class (R345), and one that keeps the order of its source and destination. -/
def hubClass (f : KerfFlit) : Bool :=
  match f.content with
  | .hub _ => true
  | .rows _ _ | .frame _ _ => false
def hubOrdered (f : KerfFlit) : Bool :=
  match f.content with
  | .hub ms => !(ms.all HubMessage.unordered)
  | .rows _ _ | .frame _ _ => false

/-- Source and destination as one number. -/
def flitPair (f : KerfFlit) : Nat := f.source * 7 + f.dest

/-- A grove-to-grove edge has a DIRECT bundle that is not down (R346). -/
def directUp (s : State) (e : Nat) : Bool :=
  (List.range 32).any fun b => decide ((bundleOf s e b).role = .direct) && decide ((bundleOf s e b).width ≠ .down)

/-- The edge and the direction a flit at a die takes next: hub class always through the Landing die, data class between neighbouring
groves by their own edge while it has a DIRECT bundle up (R346, R348). -/
def nextHop (s : State) (die : Nat) (f : KerfFlit) : Nat × Bool :=
  if die = 4 then (if f.dest < 4 then f.dest else f.dest + 3, false)
  else if 4 < die then (die + 3, true)
  else
    let up := 4 + die
    let down := 4 + (die + 3) % 4
    if hubClass f then (die, true)
    else if f.dest = (die + 1) % 4 ∧ directUp s up then (up, false)
    else if f.dest = (die + 3) % 4 ∧ f.dest < 4 ∧ directUp s down then (down, true)
    else (die, true)

/-- The dies at the sending and the receiving end of a direction of an edge (R337). -/
def sendingDie (e : Nat) (dirB : Bool) : Nat :=
  let a := if e < 4 then 4 else if e < 8 then e - 4 else 4
  let b := if e < 4 then e else if e < 8 then (e - 3) % 4 else e - 3
  if dirB then b else a
def receivingDie (e : Nat) (dirB : Bool) : Nat := sendingDie e (!dirB)

/-! ### The bundle of a flit -/

/-- Bundles of a role on an edge that take flits. -/
def roleBundles (s : State) (e : Nat) (r : KerfRole) : List Nat :=
  (List.range (bundlesOf e)).filter fun b => decide ((bundleOf s e b).role = r) && carriesFlits (bundleOf s e b)

/-- Payload rate and queued bytes of the bundles of a role in a direction. -/
def roleRate (s : State) (e : Nat) (dirB : Bool) (bs : List Nat) : Nat :=
  bs.foldl (fun n b => n + dirRate (bundleOf s e b) (dirOf (bundleOf s e b) dirB)) 0
def roleQueued (s : State) (e : Nat) (dirB : Bool) (bs : List Nat) : Nat :=
  bs.foldl (fun n b => n + 256 * (dirOf (bundleOf s e b) dirB).queue.length) 0

/-- The HUB bundles of an edge have more than 2 µs of flits queued (R346); rates are in 0.1 GB/s. -/
def hubFull (s : State) (e : Nat) (dirB : Bool) : Bool :=
  let bs := roleBundles s e .hub
  decide (200 * roleRate s e dirB bs < roleQueued s e dirB bs)

/-- The role whose bundles a flit takes on an edge (R346); HUB_OVERFLOW only while one of its bundles takes flits (R348). -/
def flitRole (s : State) (e : Nat) (dirB : Bool) (f : KerfFlit) : KerfRole :=
  if 8 ≤ e then .port
  else if 4 ≤ e then .direct
  else if !hubClass f then .bulk
  else if !hubOrdered f && hubFull s e dirB && !(roleBundles s e .hubOverflow).isEmpty then .hubOverflow
  else .hub

/-- What a flit is spread by: the 2 KiB unit of its address, the port on the edges of the port dies, its sequence number (R346). -/
def spreadKey (e : Nat) (f : KerfFlit) : Nat :=
  match f.content with
  | .rows a _ => a / 2048
  | .frame p a => if 8 ≤ e then p else a / 2048
  | .hub _ => f.seq

/-- The bundle at a place of the bundles' rates laid end to end: shares are in proportion to the rates (R347). -/
def bundleAt (s : State) (e : Nat) (dirB : Bool) : Nat → List Nat → Option Nat
  | _, [] => none
  | _, [b] => some b
  | at_, b :: bs =>
    let r := dirRate (bundleOf s e b) (dirOf (bundleOf s e b) dirB)
    if at_ < r then some b else bundleAt s e dirB (at_ - r) bs

/-- A flit queued at the end of a bundle. -/
def queueFlit (e b : Nat) (dirB : Bool) (f : KerfFlit) (s : State) : State :=
  updBundle e b (fun k => setDir dirB { dirOf k dirB with queue := (dirOf k dirB).queue ++ [f] } k) s

/-- A flit at a die takes a bundle of its role, or waits there until one takes flits (R346, R347, R351). -/
def assignFlit (die : Nat) (f : KerfFlit) (s : State) : State :=
  let h := nextHop s die f
  let r := flitRole s h.1 h.2 f
  let bs := roleBundles s h.1 r
  let turn := s.kerf.overflowTurn.get 0 (h.1 * 2 + bitNat h.2)
  let chosen : Option Nat :=
    if r = .hubOverflow then bs[turn % bs.length]?
    else bundleAt s h.1 h.2 (Config.kerfSpread (spreadKey h.1 f) % max 1 (roleRate s h.1 h.2 bs)) bs
  match chosen with
  | none => updKerf (fun k => { k with waiting := k.waiting ++ [(die, f)] }) s
  | some b =>
    let s1 := queueFlit h.1 b h.2 f s
    if r = .hubOverflow then updKerf (fun k => { k with overflowTurn := k.overflowTurn.set 0 (h.1 * 2 + bitNat h.2) (turn + 1) }) s1 else s1

/-- A flit that its source die offers: the hub class is numbered for its source and destination (R345, R346). -/
def offerFlit (f : KerfFlit) (s : State) : State :=
  let n := s.kerf.hubSent.get 0 (flitPair f)
  if hubOrdered f then
    assignFlit f.source { f with seq := n } (updKerf (fun k => { k with hubSent := k.hubSent.set 0 (flitPair f) (n + 1) }) s)
  else assignFlit f.source { f with seq := n } s

/-! ### Delivery -/

/-- Held flits of a pair delivered while the next one of the order is there; the fuel is their number. -/
def deliverHeld (pair : Nat) : Nat → Nat → List KerfFlit → Nat × List KerfFlit
  | 0, next, held => (next, held)
  | fuel + 1, next, held =>
    match held.find? fun f => flitPair f == pair && f.seq == next with
    | none => (next, held)
    | some f => deliverHeld pair fuel (next + 1) (held.filter fun g => g != f)

/-- A flit at its destination: the hub class in the order sent (R345). -/
def takeFlit (f : KerfFlit) (s : State) : State :=
  if !hubOrdered f then s
  else
    let held := s.kerf.hubHeld ++ [f]
    let r := deliverHeld (flitPair f) held.length (s.kerf.hubNext.get 0 (flitPair f)) held
    updKerf (fun k => { k with hubNext := k.hubNext.set 0 (flitPair f) r.1, hubHeld := r.2 }) s

/-- A flit delivered over an edge: at its destination, or on its way from there. -/
def arriveFlit (die : Nat) (f : KerfFlit) (s : State) : State := if die = f.dest then takeFlit f s else assignFlit die f s

/-! ### Flits that leave a bundle (R347, R351) -/

/-- Flits that waited at a die try again, oldest first. -/
def wakeFlits (s : State) : State :=
  s.kerf.waiting.foldl (fun s x => assignFlit x.1 x.2 s) (updKerf (fun k => { k with waiting := [] }) s)

/-- A direction without its flits: none is outstanding. -/
def emptyDir (d : LaneDir) : LaneDir := { d with queue := [], sent := d.delivered, replayFrom := none }

/-- The flits of a bundle that are queued or not acknowledged go to the other bundles of its role. -/
def moveFlits (e b : Nat) (s : State) : State :=
  let k := bundleOf s e b
  let s1 := updBundle e b (fun k => { k with dirA := emptyDir k.dirA, dirB := emptyDir k.dirB }) s
  let s2 := k.dirA.queue.foldl (fun s f => assignFlit (sendingDie e false) f s) s1
  wakeFlits (k.dirB.queue.foldl (fun s f => assignFlit (sendingDie e true) f s) s2)

end Sys2Proof.Machine
end

