-- ==== Sys2Proof/Machine/FabricOps.lean ====
section
/-!
DEFINITION. Machine/FabricOps.lean: what the Genpex rows share: ports and cord keys (R362–R368), peers (R386–R388), handles and windows
(R372–R374), unit messages (R33–R35), and how a transfer fails (R387).
-/

namespace Sys2Proof.Machine

/-! ### Ports and keys -/

/-- Port p. -/
def portOf (s : State) (p : Nat) : Port := s.fabric.ports.get {} p

/-- The Genpex block changed. -/
def updFabric (f : FabricBlock → FabricBlock) (s : State) : State := { s with fabric := f s.fabric }

/-- FABRIC.PORT_ENABLE of a port (R57, R362). -/
def portEnabled (s : State) (p : Nat) : Bool :=
  match s.cfg with
  | some c => decide (p < 72) && bitOf c.portEnable p
  | none => false

/-- A port is UP; some port that carries transfers is (port 71 never is part of a path, R362). -/
def isUp (s : State) (p : Nat) : Bool := decide ((portOf s p).state = .up)
def anyUp (s : State) : Bool := (List.range 71).any (isUp s)

/-- CORD and SEAT of this module. -/
def ownCord (s : State) : Nat := moduleIndex s / 48
def ownSeat (s : State) : Nat := moduleIndex s % 48

/-- Cord and seat of the GLOBAL_PEER entry of a port (R57). -/
def globalPeer (s : State) (p : Nat) : Option (Nat × Nat) :=
  match s.cfg with
  | some c => if 47 ≤ p ∧ p < 71 then c.globalPeers[p - 47]? else none
  | none => none

/-- The cord of the module that receives what a port sends, whose key its frames are under (R367; port 71: R473). -/
def receivingCord (s : State) (p : Nat) : Nat :=
  match globalPeer s p with
  | some (c, _) => c
  | none => ownCord s

/-- Cords whose keys this module holds: its own and those its enabled global ports reach (R367). -/
def holdsCord (s : State) (c : Nat) : Bool :=
  c == ownCord s || (List.range 24).any fun i => portEnabled s (47 + i) && (globalPeer s (47 + i)).map (·.1) == some c

/-- The key installed for a cord and an epoch. -/
def cordKey (s : State) (c e : Nat) : Option (BitVec 256) := (s.fabric.keys.find? fun k => k.cord == c && k.epoch == e).map (·.key)

/-- The 96-bit nonce of a frame: sender, its port, key epoch, the sender's generation, frame counter, in that order from the most
significant bit (R367; log 91). -/
def frameNonce (module port epoch gen counter : Nat) : Nat :=
  (((module % 2 ^ 16 * 2 ^ 7 + port % 2 ^ 7) * 2 + epoch % 2) * 2 ^ 16 + gen % 2 ^ 16) * 2 ^ 56 + counter % 2 ^ 56

/-- A cord key is installed. -/
def hasKey (s : State) (c e : Nat) : Bool := s.fabric.keys.any fun k => k.cord == c && k.epoch == e

/-- The epoch in use for sending to a cord (R368). -/
def sendingEpoch (s : State) (c : Nat) : Option Nat :=
  match s.fabric.sendEpoch.get 0 c with
  | 0 => none
  | e + 1 => some e

/-- One frame sent on each port of a list that is UP (R386). -/
def floodFrames (ps : List Nat) (s : State) : State := (ps.filter (isUp s)).foldl (fun s p => countFrames 1 p s) s

/-- A port has changed its state: APLIC source 9 (R432). -/
def notePort (s : State) : State := { s with landing := { s.landing with portChanged := true } }

/-! ### Peers -/

/-- What the module keeps of module m. -/
def peerOf (s : State) (m : Nat) : Peer := s.fabric.peers.get {} m

/-- STATE of a peer: with no port UP every other module is treated as UNREACHABLE (R386). -/
def reachOf (s : State) (m : Nat) : PeerReach := if anyUp s then (peerOf s m).reach else .unreachable

/-- FABRIC_TIME in µs, modulo 2^32. -/
def timeUs (s : State) : Nat := s.fabric.time / 1000 % 2 ^ 32

/-- A peer's state and generation set; a change is timed and asserts APLIC source 8 (R386, R432). -/
def setPeer (m : Nat) (reach : PeerReach) (gen : Nat) (s : State) : State :=
  let old := peerOf s m
  if old.reach = reach ∧ old.gen = gen then s
  else
    { s with
      fabric := { s.fabric with peers := s.fabric.peers.set {} m { old with reach := reach, gen := gen, changedUs := timeUs s } }
      landing := { s.landing with peerChanged := true } }

/-! ### Handles (R372) -/

/-- MODULE, WINDOW and offset of a handle; the entry and the scratch offset of the unit form. -/
def handleModule (h : Nat) : Nat := bitsOf h 63 48
def handleWindow (h : Nat) : Nat := bitsOf h 47 40
def handleOffset (h : Nat) : Nat := bitsOf h 39 0
def unitEntry (h : Nat) : Nat := bitsOf h 39 30
def unitOffset (h : Nat) : Nat := bitsOf h 20 0

/-- Modules of the system. -/
def systemModules (s : State) : Nat :=
  match s.cfg with
  | some c => 48 * c.cordCount
  | none => 0

/-- A malformed handle for a transfer of n bytes (R372). -/
def handleMalformed (s : State) (h n : Nat) : Bool :=
  let m := handleModule h
  (m != 0xFFFF && decide (systemModules s ≤ m)) ||
  (handleWindow h == 255 && (bitsOf h 29 21 != 0 || decide (scratchSize < unitOffset h + n)))

/-- The module a handle names. -/
def handleTarget (s : State) (h : Nat) : Nat := if handleModule h = 0xFFFF then moduleIndex s else handleModule h

/-- The module a unit identifier names. -/
def unitModule (s : State) (u : UnitName) : Nat := if u.moduleIx = 0xFFFF then moduleIndex s else u.moduleIx

/-- The unit target entry of a unit-form handle, when it is bench-level and names the handle's module (R377); a malformed identifier is
rejected with the code of R25 and R41. -/
def unitTargetOf (s : State) (h : Nat) : Except W16 UnitTarget :=
  let t := s.fabric.unitTargets.get {} (unitEntry h)
  match readUnitId (mladyth s) t.id.toNat with
  | some u => match u.place with
    | .bench _ => if unitModule s u = handleTarget s h then .ok t else .error 0x7305
    | .grove _ | .cluster _ _ | .module | .sect _ _ | .row _ _ _ | .cell _ _ _ _ => .error 0x7305
  | none => .error 0x1402

/-! ### Paths (R365) -/

/-- The local port that joins this module to a seat of its cord (R363). -/
def localPortTo (s : State) (seat : Nat) : Nat := (seat + 48 - ownSeat s - 1) % 48

/-- The cord-mate at the other end of a local port. -/
def mateAt (s : State) (p : Nat) : Nat := 48 * ownCord s + (ownSeat s + p + 1) % 48

/-- The cord route table: the links of this module's own global ports, and those its cord-mates told of (R364). -/
def cordRoutes (s : State) : List CordRoute :=
  ((List.range 24).filterMap fun i =>
    if portEnabled s (47 + i) then (globalPeer s (47 + i)).map fun e => ⟨e.1, ownSeat s, 47 + i⟩ else none) ++ s.fabric.routes

/-- The port by which a transfer sets out on a route. -/
def routePort (s : State) (r : CordRoute) : Nat := if r.seat = ownSeat s then r.port else localPortTo s r.seat

/-- A route whose local and global link are up: a cord-mate's global link is down when a link notice reports it (R365, R386). -/
def routeUp (s : State) (r : CordRoute) : Bool :=
  isUp s (routePort s r) && (r.seat == ownSeat s || !(peerOf s (48 * ownCord s + r.seat)).portsDown.contains r.port)

/-- First ports of the routes to a cord that are up, and of all routes: a detour goes through another cord (R365). -/
def routePorts (s : State) (cord : Nat) : List Nat :=
  ((cordRoutes s).filter fun r => r.cord == cord && routeUp s r).map (routePort s)
def detourPorts (s : State) : List Nat := ((cordRoutes s).filter (routeUp s)).map (routePort s)

/-- Local ports that are up to cord-mates whose link to a module of the cord is not told to be down. -/
def matePorts (s : State) (m : Nat) : List Nat :=
  (List.range 47).filter fun i => isUp s i && !((peerOf s m).portsDown.contains (46 - (m % 48 + 48 - mateAt s i % 48 - 1) % 48))

/-- Whether a path to a module, or a detour R365 allows, is up. -/
def pathUp (s : State) (m : Nat) : Bool :=
  if m / 48 = ownCord s then
    isUp s (localPortTo s (m % 48)) || !(matePorts s m).isEmpty
  else !(detourPorts s).isEmpty

/-- The first port of a best-effort transfer's path: the direct link, or one of the links the route table lists, over which the origin
spreads its transfers in turn; else a detour (R365; log 81). -/
def firstPort (s : State) (m : Nat) : Nat :=
  let turn (ps : List Nat) : Option Nat := ps[s.fabric.nextTransfer % ps.length]?
  let chosen : Option Nat :=
    if m / 48 = ownCord s then
      (if isUp s (localPortTo s (m % 48)) then some (localPortTo s (m % 48)) else (matePorts s m).head?)
    else (turn (routePorts s (m / 48))).orElse fun _ => turn (detourPorts s)
  chosen.getD 0

/-! ### How a transfer fails (R387) -/

/-- A transfer gone from the port dies. -/
def dropTransfer (id : Nat) (s : State) : State := updFabric (fun f => { f with transfers := f.transfers.filter fun x => x.id != id }) s

/-- One transfer changed. -/
def updTransfer (id : Nat) (g : Transfer → Transfer) (s : State) : State :=
  updFabric (fun f => { f with transfers := f.transfers.map fun x => if x.id = id then g x else x }) s

/-- The transfer of a number. -/
def findTransfer (s : State) (id : Nat) : Option Transfer := s.fabric.transfers.find? fun x => x.id == id

/-- The record of a transfer's failure (R387, R449; a hart's names the address it stored to, and the hart where R449 gives DETAIL2 no
meaning, R428; log 58). -/
def transferRecord (x : Transfer) (code : W16) (d0 d1 d2 : Nat) (s : State) : ErrRecord :=
  { code := code
    context := BitVec.ofNat 16 x.context
    ring := match x.ring with
      | some r => BitVec.ofNat 16 r
      | none => 0xFFFF
    source := srcModule s
    address := match x.hart with
      | some (_, pa) => BitVec.ofNat 64 pa
      | none => 0
    seq := match x.ring with
      | some _ => BitVec.ofNat 64 x.seq
      | none => 0xFFFFFFFFFFFFFFFF
    detail0 := BitVec.ofNat 64 d0
    detail1 := BitVec.ofNat 64 d1
    detail2 := BitVec.ofNat 32 (match x.hart with
      | some (h, _) => if code = 0x1401 then d2 else h
      | none => d2) }

/-- The BARRIER of a ring that waits on a transfer fails with it; with none issued the ring keeps the loss for the next (R244, R387;
log 88). -/
def failBarriers (x : Transfer) (code : W16) (s : State) : State :=
  match x.ring with
  | none => s
  | some r =>
    match s.tasks.filter fun t => t.ring == r && t.header.type == .barrier && t.running && decide (x.seq < t.seq) with
    | [] => updRing r (fun q => { q with lost := q.lost ++ [(x.seq, code, x.handle)] }) s
    | ts => ts.foldl (fun s t => failTask t code s 0 x.handle) s

/-- A transfer fails after its hand-over (R387). -/
def failTransfer (x : Transfer) (code : W16) (s : State) : State :=
  failBarriers x code (report (transferRecord x code x.handle (handleEntry code x.handle) 0 s) (dropTransfer x.id s))

/-- The task of a transfer that is still at work. -/
def transferTask (s : State) (x : Transfer) : Option Task :=
  match x.ring with
  | some r => (findTask s r x.seq).filter Task.running
  | none => none

/-- A transfer fails at its hand-over: its task ends at the tile or unit in progress (R165, R387). -/
def failHandover (x : Transfer) (code : W16) (s : State) : State :=
  match transferTask s x with
  | some t =>
    let t' := { t with transfers := t.transfers.filter fun i => i != x.id }
    endEarly t' code (updTask t.ring t.seq (fun _ => t') (dropTransfer x.id s)) 0 x.handle
  | none => failTransfer x code s

/-! ### A peer that stops (R386–R388) -/

/-- The requester of an access through a window (R287). -/
def windowRequester (w : Window) (mark : Bool) : Requester := { agent := .portDie mark, context := w.context }

/-- The requester of the port die's atomic on a window's tally: it carries the window's context, and the mark where the tally's stake is
sealed (R287, R309, R374). -/
def tallyAccess (w : Window) (mark : Bool) (s : State) : Requester := windowRequester w (mark && (stakeAt s w.tally).sealed)

/-- Record 0x7302 of an incoming transfer cut off, and the ABORT of its window's tally (R388, R449). -/
def cutIncoming (i : Incoming) (s : State) : State :=
  let w := s.fabric.windows.get {} i.window
  let s1 := reportModule 0x7302 s 0 i.origin (i.length * 2 ^ 32 + i.window) (min i.arrived 0xFFFFFFFF) w.context
  if w.abortOnCut then signalAbort (tallyAccess w false s1) w.tally s1 else s1

/-- The repairs that read a module's memory fail (R280, R387). -/
def failRepairsTo (m : Nat) (s : State) : State :=
  (s.tier.inProgress.filter fun x => !x.repair.isEmpty && match servingObject s x.ashlar with
    | some (_, o) => handleTarget s (replicaHandle o x.ashlar) == m
    | none => false).foldl (fun s x => repairFailed x s) s

/-- What follows once a module counts as UNREACHABLE: every transfer to it fails, every incoming one from it is cut off (R387, R388). -/
def cutOff (m : Nat) (s : State) : State :=
  let s1 := (s.fabric.transfers.filter fun x => x.module == m && x.state != .leaving).foldl (fun s x => failTransfer x 0x7301 s) (failRepairsTo m s)
  let cut := s1.fabric.incoming.filter fun i => i.origin == m
  cut.foldl (fun s i => cutIncoming i s) (updFabric (fun f => { f with incoming := f.incoming.filter fun i => i.origin != m }) s1)

/-- A module becomes UNREACHABLE; a claim of it to be the system root is gone (R371, R386). -/
def markUnreachable (m : Nat) (s : State) : State :=
  if (peerOf s m).reach = .unreachable then s
  else cutOff m (updFabric (fun f => { f with rootsSeen := f.rootsSeen.filter fun x => x.1 != m }) (setPeer m .unreachable (peerOf s m).gen s))

/-- Local links of a module that count as enabled: as many as this module has (R386; log 26). -/
def enabledLinks (s : State) : Nat := ((List.range 47).filter (portEnabled s)).length

/-- A link of a module reported DOWN, a local or a global one (R365): more than half of its enabled local links make it UNREACHABLE
(R386). -/
def noteLinkDown (m port : Nat) (s : State) : State :=
  let old := peerOf s m
  let ps := if old.portsDown.contains port then old.portsDown else port :: old.portsDown
  let s1 := updFabric (fun f => { f with peers := f.peers.set {} m { old with portsDown := ps } }) s
  if enabledLinks s < 2 * (ps.filter fun p => decide (p < 47)).length then markUnreachable m s1 else s1

/-- Modules that a repair in progress reads (R280). -/
def repairTargets (s : State) : List Nat :=
  s.tier.inProgress.filterMap fun x =>
    if x.repair.isEmpty then none else (servingObject s x.ashlar).map fun o => handleTarget s (replicaHandle o.2 x.ashlar)

/-- With the last port DOWN every other module counts as UNREACHABLE, while that lasts (R386). -/
def noteIsolation (s : State) : State :=
  if anyUp s then s
  else
    let ms := ((s.fabric.transfers.filter fun x => x.state != .leaving).map (·.module) ++ s.fabric.incoming.map (·.origin) ++ repairTargets s).eraseDups
    ms.foldl (fun s m => if m = moduleIndex s then s else cutOff m s) s

/-- The time source is lost with its port (R370): SYNC goes to HOLDOVER, ACQUIRING back to UNSYNC; a root in SYNC has none (R371). A
claim to be the system root that came by the port is gone too. -/
def loseSource (p : Nat) (s0 : State) : State :=
  let s := updFabric (fun f => { f with rootsSeen := f.rootsSeen.filter fun x => x.2 != p }) s0
  match s.fabric.source with
  | some (_, q) =>
    if q = p then
      updFabric (fun f => { f with
        source := none
        holdoverSince := s.now
        timeState := match f.timeState with
          | .sync => .holdover
          | .acquiring => .unsync
          | .unsync => .unsync
          | .holdover => .holdover }) s
    else s
  | none => s

/-- What follows of the loss of a port that was UP: a link notice on every port that still is, its local peer told (R386). -/
def linkLost (p : Nat) (before : Port) (s : State) : State :=
  if before.state ≠ .up ∨ 71 ≤ p then s
  else
    let s1 := floodFrames (List.range 71) s
    if p < 47 then noteLinkDown before.peer before.peerPort s1 else s1

/-- A port goes DOWN with a code: recorded, counted, a link notice flooded, its time source lost (R366, R370, R386). -/
def portDown (p : Nat) (code : W16) (injected : Bool) (s : State) : State :=
  let q := portOf s p
  let s1 := updPort p (fun q => { q with
    state := .down
    code := code
    downs := min (q.downs + 1) 65535
    downSince := s.now
    attempts := 0
    tagFailTimes := []
    replayFrom := none
    wasUp := q.wasUp || decide (q.state = .up) }) s
  let s2 := report { code := code, source := srcModule s, injected := injected } (notePort s1)
  let s3 := linkLost p q s2
  loseSource p (if q.state = .up then noteIsolation s3 else s3)

/-! ### Incoming accesses (R373, R374) -/

/-- What an incoming access does. -/
inductive RemoteKind where
  | write | read | atomic
deriving DecidableEq, Repr

/-- A window, and with a change. -/
def windowOf (s : State) (w : Nat) : Window := s.fabric.windows.get {} w
def updWindow (w : Nat) (f : Window → Window) (s : State) : State := updFabric (fun b => { b with windows := b.windows.update {} w f }) s

/-- WRITE, READ or ATOMIC of a window. -/
def windowPermits (k : RemoteKind) (w : Window) : Bool :=
  match k with
  | .write => w.write
  | .read => w.read
  | .atomic => w.atomic

/-- The first failed check of R373 that needs no data, for a memory window; window 255 has no range (R374). -/
def windowRefusal (s : State) (win : Nat) (k : RemoteKind) (origin tag offset n : Nat) (mark : Bool) : Option W16 :=
  let w := windowOf s win
  if tag ≠ moduleGen s then some 0x7204
  else if !w.enable || w.busy then some 0x7201
  else if !windowPermits k w || (w.cordOnly && origin / 48 != ownCord s) then some 0x7203
  else if win = 255 ∨ w.units * 65536 < offset + n then some 0x7202
  else stakeRefusalIn s (windowRequester w mark) (k != .read) (w.base + offset) n

/-- The checks of window 255, which has no range and takes no generation tag (R374, R375, R386); a transfer with the SEALED mark writes only
into sealed stakes, which bench scratch is not (R309). -/
def unitRefusal (s : State) (origin : Nat) (mark : Bool) : Option W16 :=
  let w := windowOf s 255
  if !w.enable || w.busy then some 0x7201
  else if !w.write || (w.cordOnly && origin / 48 != ownCord s) then some 0x7203
  else if mark then some 0x5204
  else none

/-- Bytes counted in a window's arrival tally (R374); an atomic that the tally's stake refuses changes nothing and is reported (R303). -/
def countArrival (win n : Nat) (mark : Bool) (s : State) : State :=
  let w := windowOf s win
  let q := tallyAccess w mark s
  if n = 0 ∨ !(w.enable || w.busy) then s
  else match signalRefusal q w.tally s with
    | some c => reportModule c s w.tally 0 0 0 w.context
    | none => signalAdd q w.tally n s

/-- Bytes written through a memory window and counted; the code of a refusal otherwise. -/
def windowWrite (win origin tag offset : Nat) (bs : List Byte) (mark : Bool) (s : State) : Option W16 × State :=
  match windowRefusal s win .write origin tag offset bs.length mark with
  | some c => (some c, s)
  | none =>
    let w := windowOf s win
    match physWrite (windowRequester w mark) (w.base + offset) bs s with
    | (.done _, t) => (none, countArrival win (bytesPlaced s (windowRequester w mark) (w.base + offset) bs.length) mark t)
    | (.fail c _, t) => (some c, t)
    | (.wait, t) => (some 0x7201, t)

/-- A load of a Landing core of another module that meets a sealed stake: R385 knows two remote reads, and a replica's is of a whole ashlar
(R308; log 88). -/
def coreLoadSealed (s : State) (pa n : Nat) : Bool := n != ashlarSize && (blocksOf stakeSize pa n).any fun b => (stakeAt s (b * stakeSize)).sealed

/-- Bytes read through a memory window; the code of a refusal otherwise (R373, R385). -/
def windowRead (win origin tag offset n : Nat) (s : State) : Except W16 (List Byte) × State :=
  match windowRefusal s win .read origin tag offset n false with
  | some c => (.error c, s)
  | none =>
    let w := windowOf s win
    if coreLoadSealed s (w.base + offset) n then (.error 0x5202, s) else
    match physRead (windowRequester w false) (w.base + offset) n s with
    | (.done bs, t) => (.ok bs, t)
    | (.fail c _, t) => (.error c, t)
    | (.wait, t) => (.error 0x7201, t)

/-! ### Unit messages (R33–R35) -/

/-- The bench of this module that a bench-level identifier names; a malformed one is rejected (R25, R41, R377). -/
def unitBench (s : State) (id : W64) : Except W16 Nat :=
  match readUnitId (mladyth s) id.toNat with
  | some u => match u.place with
    | .bench n => if namesModule (moduleIndex s) u.moduleIx then .ok n else .error 0x7305
    | .grove _ | .cluster _ _ | .module | .sect _ _ | .row _ _ _ | .cell _ _ _ _ => .error 0x7305
  | none => .error 0x1402

/-- STATE of a bench in a stale-epoch notice (R35, R449). -/
def stateCode : BenchState → Nat
  | .idle => 0 | .active => 1 | .standby => 2 | .quarantined => 3

/-- The present holder of the role that a bench held under a dropped epoch (R35). -/
def presentHolder (s : State) (n epoch : Nat) : Option Nat :=
  match (roleOf s n).partition, roleAtEpoch s n epoch with
  | some p, some r => roleHolder s p r
  | _, _ => none

/-- DETAIL0–2 of the stale-epoch notice of a bench that dropped a message of an epoch (R35, R449). -/
def staleDetails (s : State) (n epoch : Nat) : Nat × Nat × Nat :=
  let h := presentHolder s n epoch
  ((match h with
    | some m => writeUnitId (mladyth s) ⟨moduleIndex s, .bench m⟩
    | none => 0),
   epochOf s n * 2 ^ 32 + (match h with
    | some m => epochOf s m
    | none => 0),
   stateCode (roleOf s n).state)

/-- What becomes of a unit message at its target: taken whole, dropped (R33), or rejected with a code (R25, R377). -/
inductive UnitFate where
  | taken (n : Nat)
  | stale (n : Nat)
  | refused (code : W16)
deriving DecidableEq, Repr

/-- The check of a unit message's epoch (R33). A bench outside every partition accepts no message (R26): it drops every one, with the
notice (log 74). -/
def unitFate (s : State) (id : W64) (epoch : Nat) : UnitFate :=
  match unitBench s id with
  | .error c => .refused c
  | .ok n => if epochOf s n = epoch ∧ (roleOf s n).partition.isSome then .taken n else .stale n

/-- A unit message written whole into its bench's scratch, and counted in window 255's tally (R33, R374). -/
def takeMessage (n off : Nat) (bs : List Byte) (s : State) : State := countArrival 255 bs.length false (scratchWrite n off bs s)

/-- A stale-epoch notice reaches a task, or a hart's module, of this module (R35). -/
def staleAtSender (x : Transfer) (d : Nat × Nat × Nat) (s : State) : State :=
  match transferTask s x with
  | some t => failTask t 0x1401 s 0 d.1 d.2.1 d.2.2
  | none => report (transferRecord x 0x1401 d.1 d.2.1 d.2.2 s) s

end Sys2Proof.Machine
end

