-- ==== Sys2Proof/Machine/Links.lean ====
section
/-!
DEFINITION. Machine/Links.lean: the Genpex links: setup, loss, frames in and out (R364–R368, R374, R382), fabric time (R369–R371), and
the notices that keep PEER_STATE (R386).
-/

namespace Sys2Proof.Machine

/-! ### Link setup (R363, R364, R473) -/

/-- Whether the peer found at setup is the expected one, on the expected port. -/
def peerExpected (s : State) (p : Nat) (x : LinkPeer) : Bool :=
  if p < 47 then x.module == 48 * ownCord s + (ownSeat s + p + 1) % 48 && x.port == 46 - p
  else match globalPeer s p with
    | some (c, seat) => x.module == 48 * c + seat && decide (47 ≤ x.port ∧ x.port < 71)
    | none => p == 71 && x.module == 0xFFFE

/-- The routes a cord-mate's global ports give, in place of those it told before (R364). -/
def takeRoutes (q : Port) (f : FabricBlock) : FabricBlock :=
  let seat := q.peer % 48
  { f with routes := f.routes.filter (fun r => r.seat != seat) ++ q.peerGlobals.map fun e => ⟨e.2, seat, e.1⟩ }

/-- The port's link carries frames: UP, with the record of a return (R366, R391); the self notice goes out over it (R386); over a local link
the modules exchange their global peers (R364). -/
def portUp (p epoch : Nat) (s : State) : State :=
  let q := portOf s p
  let s1 := countFrames (if p < 71 then 1 else 0) p (updPort p (fun q => { q with
    state := .up, keyEpoch := epoch, lastSent := s.now, lastReceived := s.now, sent := 0, taken := 0, replayFrom := none
    code := if q.wasUp then 0x7104 else q.code, wasUp := false }) (notePort s))
  let s2 := if q.wasUp then report { code := 0x7104, source := srcModule s } s1 else s1
  let s3 := if p < 47 then updFabric (fun f => takeRoutes q { f with peers := f.peers.update {} q.peer fun x =>
      { x with portsDown := x.portsDown.filter fun i => i != q.peerPort } }) s2 else s2
  match s3.cfg with
  | some c =>
    if c.timeRole = 2 ∧ p < 47 ∧ s3.fabric.timeState = .unsync then
      updFabric (fun f => { f with timeState := .acquiring, rootSince := some s.now }) s3
    else s3
  | none => s3

/-- A trained port with its peer found: UP when the key it sends under is installed, else KEY_WAIT (R367). -/
def portReady (p : Nat) (s : State) : State :=
  match sendingEpoch s (receivingCord s p) with
  | some e => if hasKey s (receivingCord s p) e then portUp p e s else updPort p (fun q => { q with state := .keyWait }) (notePort s)
  | none => updPort p (fun q => { q with state := .keyWait }) (notePort s)

/-- LINK_SETUP (R364). -/
def linkSetup (p : Nat) (x : LinkPeer) (s : State) : State :=
  if (portOf s p).state ≠ .training then s
  else match s.cfg with
    | none => s
    | some c =>
      if x.systemId = c.systemId ∧ peerExpected s p x then
        portReady p (updPort p (fun q => { q with peer := x.module, peerPort := x.port, peerGen := x.gen, peerGlobals := x.globals }) s)
      else portDown p 0x7102 false s

/-- A start whose ports train is complete once each enabled port has trained or is marked down (R76); a root with no local port UP
then keeps its own count (R371). -/
def completeStart (s : State) : State :=
  let root : Bool := (s.cfg.map (·.timeRole)) == some 2 && !(List.range 47).any (isUp s)
  { s with
    life := { s.life with power := .running, stage := 0, unreported := [] }
    fabric := if root then { s.fabric with timeState := .sync, source := none } else s.fabric }

/-- Ports train at step 15 of a start (R76). -/
def portsTrain (s : State) : Bool := decide (s.life.power = .starting) && decide (s.life.stage = 0x0C) && s.life.waiting.isNone

/-- A port that the end of a start need not wait for. -/
def portSettled (q : Port) : Bool :=
  match q.state with
  | .disabled | .keyWait | .up | .markedDown => true
  | .training | .down => false

/-- A start ends with the last of its ports (R76, R87). -/
def settleStart (s : State) : State :=
  if portsTrain s && (List.range 72).all (fun p => portSettled (portOf s p)) then completeStart s else s

def execLinkSetup (p : Nat) (x : LinkPeer) (s : State) : Answer := .next (settleStart (linkSetup p x s))

/-- PORT_TRAIN_TIMEOUT: 2 s after step 15 the ports that have not trained are marked down and the start completes; they train again by
R366 (R83, R87). -/
def portTrainTimeout (s : State) : State :=
  let down (q : Port) : Port :=
    if portSettled q then q
    else { q with state := .down, downSince := s.now, attempts := 0, downs := if q.state = .training then min (q.downs + 1) 65535 else q.downs }
  completeStart (notePort (updFabric (fun f => { f with ports := f.ports.mapListed {} fun _ q => down q }) s))

def execPortTrainTimeout (s : State) : Answer := .next (if portsTrain s then portTrainTimeout s else s)

/-! ### Link loss (R366) -/

/-- PORT_RECEIVE_TIMEOUT. -/
def execPortReceiveTimeout (p : Nat) (s : State) : Answer := .next (if isUp s p then portDown p 0x7101 false s else s)

/-- PORT_RETRAIN_TIMER: a port that is DOWN, and not marked down, trains again. -/
def execPortRetrainTimer (p : Nat) (s : State) : Answer :=
  .next (if (portOf s p).state = .down then
    updPort p (fun q => { q with state := .training, attempts := q.attempts + 1 }) (notePort s) else s)

/-- FRAME_KEEPALIVE. -/
def execFrameKeepalive (p : Nat) (s : State) : Answer := .next (if isUp s p then countFrames 1 p s else s)

/-- FRAME_REPLAY: the kept frames from the one asked for on are sent again (R366). -/
def execFrameReplay (p fromFrame : Nat) (s : State) : Answer :=
  let q := portOf s p
  .next (if isUp s p ∧ fromFrame < q.sent ∧ q.sent ≤ fromFrame + 256 then
    updPort p (fun q => { q with replays := satAdd 32 q.replays (q.sent - fromFrame), lastSent := s.now }) s else s)

/-! ### The active slot table (R378, R379) -/

/-- The first start of a slot at or after a time. -/
def nextSlot (period slot t : Nat) : Nat :=
  let p := 2000 * period
  let b := t / p * p + 2000 * slot
  if t ≤ b then b else b + p

/-- Bytes an entry charges its slot and port (R379). -/
def entryCharge (e : SlotEntry) : Nat := ceilDiv e.bytes 2048 * 2096

/-- Whether each entry of a table is overbooked, in table order (R379); `before` are the (slot, port, charge) taken so far. -/
def overbookedFrom : List (Nat × Nat × Nat) → List SlotEntry → List Bool
  | _, [] => []
  | before, e :: es =>
    if e.receive then false :: overbookedFrom before es
    else
      let used := before.foldl (fun n x => if x.1 = e.slot ∧ x.2.1 = e.port then n + x.2.2 else n) 0
      if 99000 < used + entryCharge e then true :: overbookedFrom before es
      else false :: overbookedFrom ((e.slot, e.port, entryCharge e) :: before) es

/-- Entries of the active table with their number and whether they are overbooked. -/
def activeEntries (s : State) : List (SlotEntry × Nat × Bool) :=
  s.fabric.active.entries.zip ((List.range s.fabric.active.entries.length).zip (overbookedFrom [] s.fabric.active.entries))

/-! ### Frames in (R365–R367, R373, R374, R382, R384) -/

/-- A replay asked for from a frame on (R366). -/
def askReplay (p number : Nat) (s : State) : State :=
  updPort p (fun q => { q with replayFrom := some (q.replayFrom.getD number) }) s

/-- A frame whose tag fails: discarded, a replay asked for; the sixteenth within 1 ms takes the port DOWN (R366). -/
def tagFailure (p number : Nat) (injected : Bool) (s : State) : State :=
  let q := portOf s p
  let recent := s.now :: q.tagFailTimes.filter fun t => decide (s.now < t + 1000000)
  let s1 := updPort p (fun q => { q with
    tagFails := min (q.tagFails + 1) 65535, tagFailTimes := recent, replayFrom := some (q.replayFrom.getD number) }) s
  if 16 ≤ recent.length then portDown p 0x7103 injected s1 else s1

/-- What has arrived of a transfer. -/
def incomingOf (s : State) (f : DataFrame) : Option Incoming :=
  s.fabric.incoming.find? fun i => i.origin == f.origin && i.id == f.transfer

/-- A frame noted as arrived; a whole transfer is kept for the discard of duplicates (R384, R388). -/
def noteArrived (f : DataFrame) (keep : Bool) (s : State) : State :=
  let old := (incomingOf s f).getD { origin := f.origin, id := f.transfer, window := f.window, arrived := 0, length := f.length }
  let i := { old with arrived := old.arrived + f.payload.length
                      frames := old.frames ++ [(f.offset, if keep then f.payload else [])] }
  let rest := s.fabric.incoming.filter fun i => !(i.origin == f.origin && i.id == f.transfer)
  if i.length ≤ i.arrived then
    updFabric (fun b => { b with incoming := rest, received := (f.origin, f.transfer) :: b.received }) s
  else updFabric (fun b => { b with incoming := rest ++ [i] }) s

/-- The whole of a transfer is settled: no further frame of it is taken. -/
def noteSettled (f : DataFrame) (s : State) : State :=
  updFabric (fun b => { b with
    incoming := b.incoming.filter fun i => !(i.origin == f.origin && i.id == f.transfer)
    received := (f.origin, f.transfer) :: b.received }) s

/-- SLOT_LATE (R382): a frame counted after the slot's end plus 0.2 µs and 1.0 µs a link. -/
def noteLate (f : DataFrame) (s : State) : State :=
  match f.slotStart with
  | some t => if t + 2200 + 1000 * f.links < s.fabric.time then updFabric (fun b => { b with late := wrapAdd 64 b.late 1 }) s else s
  | none => s

/-- What leaves the module for another one. -/
def answerTo (m : Nat) (code : W16) (data : List Byte) (s : State) : State := updFabric (fun f => { f with answer := some ⟨m, code, data⟩ }) s

/-- A frame of a memory-form transfer at its window. -/
def takeMemoryFrame (f : DataFrame) (s : State) : State :=
  match windowWrite f.window f.origin f.tag f.offset f.payload f.sealed s with
  | (some c, t) => answerTo f.origin c [] (noteSettled f t)
  | (none, t) =>
    let u := noteArrived f false (noteLate f t)
    if (incomingOf u f).isSome then u else answerTo f.origin 0 [] u

/-- The bytes of a unit message from its frames, in order of their offsets. -/
def messageBytes (base : Nat) (frames : List (Nat × List Byte)) (n : Nat) : List Byte :=
  (frames.foldl (fun (m : Memory) x => memWrite m (x.1 - base) x.2) {}) |> fun m => memRead m 0 n

/-- A stale-epoch notice leaves for the module that sent a dropped message (R35). -/
def noticeTo (m : Nat) (d : Nat × Nat × Nat) (s : State) : State :=
  answerTo m 0x1401 (bytesOfNat 8 d.1 ++ bytesOfNat 8 d.2.1 ++ bytesOfNat 4 d.2.2) s

/-- A frame of a unit-form transfer: the message is checked and taken, or dropped, when it is whole (R33). A stale one gets its notice
whether or not window 255 takes messages: after a restart it takes none yet (R36). -/
def takeUnitFrame (f : DataFrame) (s : State) : State :=
  match unitRefusal s f.origin f.sealed with
  | some c =>
    match unitFate s f.unit f.epoch with
    | .stale n => noticeTo f.origin (staleDetails s n f.epoch) (noteSettled f s)
    | .refused e => answerTo f.origin e [] (noteSettled f s)
    | .taken _ => answerTo f.origin c [] (noteSettled f s)
  | none =>
    let old := ((incomingOf s f).map (·.frames)).getD []
    let frames := old ++ [(f.offset, f.payload)]
    let u := noteArrived f true s
    if (incomingOf u f).isSome then u
    else
      let base := frames.foldl (fun a x => min a x.1) f.offset
      match unitFate u f.unit f.epoch with
      | .taken n => answerTo f.origin 0 [] (takeMessage n base (messageBytes base frames f.length) (noteLate f u))
      | .stale n => noticeTo f.origin (staleDetails u n f.epoch) u
      | .refused e => answerTo f.origin e [] u

/-- A good frame for this module: a duplicate is discarded (R384). -/
def takeDataFrame (f : DataFrame) (s : State) : State :=
  if s.fabric.received.contains (f.origin, f.transfer) || ((incomingOf s f).any fun i => i.frames.any fun x => x.1 == f.offset) then s
  else if f.window = 255 then takeUnitFrame f s
  else takeMemoryFrame f s

/-- The optical site that carries a global port on order code -P (R362). -/
def siteOfPort (s : State) (p : Nat) : Option Nat :=
  if s.part.orderCode ≠ 1 then none
  else if 47 ≤ p ∧ p < 59 then some 0
  else if 59 ≤ p ∧ p < 71 then some 1
  else none

/-- A mainband injection of the site whose flits carry a frame: a retraining that recovers (R356, R466). -/
def siteFlit (p : Nat) (s : State) : State :=
  match siteOfPort s p with
  | none => s
  | some k =>
    let a := fireInjection 0x6206 (fun l => l == k) s
    if a.1 then report { code := 0x6206, source := srcModule s, injected := true } (updSite k (fun x => { x with code := 0x6206 }) a.2) else s

/-- The port a frame for another module goes on by (R365, R378): that of the send entry for its slot, destination and window when it is
timed, else the first of the best-effort path from here. -/
def forwardPort (s : State) (f : DataFrame) : Option Nat :=
  match f.slotStart with
  | some t => ((activeEntries s).find? fun e => !e.1.receive && e.1.peer == f.destination && e.1.window == f.window && !e.2.2 &&
      nextSlot s.fabric.active.period e.1.slot t == t).map fun e => e.1.port
  | none => if pathUp s f.destination then some (firstPort s f.destination) else none

/-- A frame for another module forwarded; without a path that is up it is lost (R365). -/
def forwardFrame (f : DataFrame) (s : State) : State :=
  match forwardPort s f with
  | some p => if isUp s p then countFrames 1 p s else s
  | none => s

/-- What a good frame of the link that comes in its turn carries. Port 71 discards data frames (R473). -/
def frameTaken (p : Nat) (f : DataFrame) (s : State) : State :=
  if p = 71 then s
  else if f.destination = 0xFFFF ∨ f.destination = moduleIndex s then takeDataFrame f s
  else forwardFrame f s

/-- The nonce of a frame that comes in on a port (R367). -/
def nonceOf (s : State) (p : Nat) (f : DataFrame) : Nat :=
  frameNonce (portOf s p).peer (portOf s p).peerPort f.keyEpoch (portOf s p).peerGen f.counter

/-- A frame with its payload decrypted, when its tag is good under the key of this module's cord (R367). -/
def openFrame (s : State) (p : Nat) (f : DataFrame) : Option DataFrame :=
  match cordKey s (ownCord s) f.keyEpoch with
  | none => none
  | some k =>
    if gcmTag k (nonceOf s p f) f.header f.payload = f.authTag then some { f with payload := gcmCrypt k (nonceOf s p f) f.payload } else none

/-- DATA_FRAME_RECEIVE: the receive timer, the correction, the tag, the number, then what it carries. A frame beyond the next one asks for a
replay, as one whose correction fails does (R366). -/
def dataFrameReceive (p : Nat) (f : DataFrame) (s : State) : State :=
  if !isUp s p then s
  else
    let a := fireInjection 0x7101 (fun l => l == p) (siteFlit p s)
    if a.1 then portDown p 0x7101 true a.2
    else if !f.corrected then askReplay p (portOf a.2 p).taken a.2
    else
      let b := fireInjection 0x7103 (fun l => l == p) a.2
      if b.1 then tagFailure p f.number true b.2
      else match openFrame b.2 p f with
        | none => tagFailure p f.number false b.2
        | some g =>
          let v := updPort p (fun q => { q with lastReceived := s.now }) b.2
          if f.number < (portOf v p).taken then v
          else if (portOf v p).taken < f.number then askReplay p (portOf v p).taken v
          else frameTaken p g (updPort p (fun q => { q with taken := q.taken + 1, replayFrom := none }) v)

/-- A control frame arrives on a port that is UP: the points armed for it fire first (R466), and one discarded does nothing; else it is
received, and acts. -/
def controlFrame (p : Nat) (act : State → State) (s : State) : State :=
  if !isUp s p then act s
  else
    let a := fireInjection 0x7101 (fun l => l == p) (siteFlit p s)
    if a.1 then portDown p 0x7101 true a.2
    else
      let b := fireInjection 0x7103 (fun l => l == p) a.2
      if b.1 then tagFailure p (portOf b.2 p).taken true b.2 else act (updPort p (fun q => { q with lastReceived := s.now }) b.2)

def execDataFrameReceive (p : Nat) (f : DataFrame) (s : State) : Answer := .next (dataFrameReceive p f s)

/-! ### Fabric time (R369–R371) -/

/-- A step of fabric time to a source's time; more than 1 µs is recorded (R370). -/
def stepTime (t : Nat) (s : State) : State :=
  let d : Int := (t : Int) - s.fabric.time
  let s0 := { s with power := { s.power with stepped := s.power.stepped + d } }
  let s1 := updFabric (fun f => { f with time := t % 2 ^ 64, slew := 0 }) s0
  if 1000 < d ∨ d < -1000 then report { code := 0x7111, source := srcModule s } s1 else s1

/-- A module that claims to be the system root, or no longer does: the lowest index is followed, and a second one is recorded (R371). -/
def noteRoot (x : TimeExchange) (s : State) : State :=
  let rest := s.fabric.rootsSeen.filter fun r => r.1 != x.module
  if x.role ≠ 2 then updFabric (fun f => { f with rootsSeen := rest }) s
  else
    let s1 := updFabric (fun f => { f with rootsSeen := (x.module, x.port) :: rest }) s
    if rest.isEmpty || s.fabric.rootsSeen.any (fun r => r.1 == x.module) then s1 else report { code := 0x7110, source := srcModule s } s1

/-- The source an exchange takes the module to, with OFFSET measured (R390) in units of 100 ps. -/
def takeSource (x : TimeExchange) (state : TimeState) (s : State) : State :=
  updFabric (fun f => { f with
    timeState := state
    source := some (x.module, x.port)
    offset := ((x.sourceTime : Int) - f.time) * 10 }) s

/-- An exchange with the module's time source (R370): it steps on leaving UNSYNC and slews in every other state. -/
def followSource (x : TimeExchange) (s : State) : State :=
  let slewed := updFabric (fun f => { f with slew := (x.sourceTime : Int) - f.time }) s
  match s.fabric.timeState with
  | .unsync => stepTime x.sourceTime (takeSource x .acquiring s)
  | .acquiring => takeSource x .sync slewed
  | .sync => takeSource x .sync slewed
  | .holdover => takeSource x .sync slewed

/-- The way time comes to a cord root (R369): its lowest-numbered global port whose peer lies in the root's cord; without one, the
lowest-seat cord-mate that has such a port. -/
def rootPort (s : State) (cord : Nat) : Option Nat :=
  ((List.range 24).map (· + 47)).find? fun p => portEnabled s p && (globalPeer s p).map (·.1) == some cord
def rootMate (s : State) (cord : Nat) : Option Nat :=
  ((s.fabric.routes.filter fun r => r.cord == cord).map (·.seat)).min?

/-- Whether an exchange is with the module's time source (R369): the root over the local link in the root's own cord; the root's cord, as
the cord root finds its way to it; the cord root over the local link otherwise. -/
def fromSource (s : State) (c : Settings) (x : TimeExchange) : Bool :=
  if x.root / 48 = ownCord s then decide (x.port < 47) && x.module == x.root
  else if c.timeRole = 1 then
    match rootPort s (x.root / 48) with
    | some p => x.port == p
    | none => decide (x.port < 47) && (rootMate s (x.root / 48)).any fun seat => x.module == 48 * ownCord s + seat
  else decide (x.port < 47) && x.role == 1

/-- TIME_EXCHANGE: with a source in SYNC or HOLDOVER, over a port that is UP. A system root takes time from a cord-mate while it is
ACQUIRING, and from nobody in SYNC (R371). -/
def timeExchange (x : TimeExchange) (s : State) : State :=
  if !isUp s x.port || !(x.state == .sync || x.state == .holdover) then s
  else match s.cfg with
    | none => s
    | some c =>
      if c.timeRole = 2 then
        if s.fabric.timeState = .acquiring ∧ x.port < 47 then
          updFabric (fun f => { f with timeState := .sync, source := none })
            (stepTime x.sourceTime (takeSource x .sync s))
        else s
      else
        let s1 := noteRoot x s
        if x.role = 2 ∧ s1.fabric.rootsSeen.any (fun r => decide (r.1 < x.module)) then s1
        else if fromSource s1 c x then followSource x s1 else s1

/-- Every running capture has met UNSYNC (R472). -/
def noteUnsync (c : Scaler) : Scaler :=
  { c with channels := c.channels.mapListed {} fun _ x => if x.state = .running then { x with unsync := true } else x }

/-- Synchronisation lost (R370). -/
def loseSync (injected : Bool) (s : State) : State :=
  report { code := 0x7112, source := srcModule s, injected := injected }
    { s with fabric := { s.fabric with timeState := .unsync, source := none }, scaler := noteUnsync s.scaler }

/-- TIME_EXCHANGE (R369–R371, R466). -/
def execTimeExchange (x : TimeExchange) (s : State) : Answer :=
  .next (controlFrame x.port (fun s =>
    let a := fireInjection 0x7112 (fun l => l == 0) s
    if a.1 ∧ a.2.fabric.timeState ≠ .unsync then loseSync true a.2 else timeExchange x a.2) s)

/-- HOLDOVER_EXPIRE (R370). -/
def execHoldoverExpire (s : State) : Answer :=
  .next (if s.fabric.timeState = .holdover then loseSync false s else s)

/-- ROOT_SYNC_TIMEOUT (R371): the root keeps its own count. -/
def execRootSyncTimeout (s : State) : Answer :=
  match s.cfg with
  | some c => .next (if c.timeRole = 2 ∧ s.fabric.timeState = .acquiring then
      updFabric (fun f => { f with timeState := .sync, source := none }) s else s)
  | none => .next s

/-! ### Notices (R386, R387) -/

/-- A module announces itself; one that restarted fails the transfers tagged with its old generation, and numbers its own anew. From
UNREACHABLE only a new generation leads back (R386). -/
def selfNotice (m gen : Nat) (s : State) : State :=
  if m = moduleIndex s ∨ systemModules s ≤ m ∨ !anyUp s ∨ ((peerOf s m).reach = .unreachable ∧ (peerOf s m).gen = gen) then s
  else
    let old := peerOf s m
    let s1 := setPeer m .reachable gen s
    let s2 := updFabric (fun f => { f with peers := f.peers.update {} m fun x => { x with portsDown := [] } }) s1
    if old.reach = .unknown ∨ old.gen = gen then s2
    else
      let s3 := updFabric (fun f => { f with
        received := f.received.filter fun x => x.1 != m, incoming := f.incoming.filter fun i => i.origin != m }) s2
      (s3.fabric.transfers.filter fun x => x.module == m && x.state != .leaving && x.unit.isNone && x.tag != gen).foldl
        (fun s x => failTransfer x 0x7204 s) (failRepairsTo m s3)

/-- A notice that arrives from another cord, over a global port, is passed on within this one: a frame on each local port that is UP
(R386). -/
def passNotice (arrival : Nat) (s : State) : State :=
  if 47 ≤ arrival ∧ arrival < 71 then floodFrames (List.range 47) s else s

def execSelfNotice (m gen arrival : Nat) (s : State) : Answer :=
  .next (if m = moduleIndex s ∨ systemModules s ≤ m ∨ !anyUp s then s
  else controlFrame arrival (fun s => selfNotice m gen (passNotice arrival s)) s)

/-- LINK_NOTICE. -/
def execLinkNotice (m port arrival : Nat) (s : State) : Answer :=
  .next (if m = moduleIndex s ∨ systemModules s ≤ m ∨ !anyUp s then s
  else controlFrame arrival (fun s => noteLinkDown m port (passNotice arrival s)) s)

end Sys2Proof.Machine
end

