-- ==== Sys2Proof/Machine/Kerf.lean ====
section
/-!
DEFINITION. Machine/Kerf.lean: the Kerf edges: flits and replays (R340), lane checks (R341), what is lost with a bundle (R347–R349),
repairs (R350, R351); and the admitted-die sites in service (R356, R357).
-/

namespace Sys2Proof.Machine

/-! ### What is lost with a bundle (R348, R349) -/

/-- A Kerf record: the lane or bundle, and its role (R449). -/
def kerfRecord (code : W16) (e b : Nat) (dirB : Bool) (lane : Nat) (injected : Bool) (s : State) : ErrRecord :=
  { code := code, source := srcModule s, injected := injected, detail0 := BitVec.ofNat 64 (laneLocator e b dirB lane)
    detail1 := BitVec.ofNat 64 (roleCode (bundleOf s e b).role) }

/-- What followed for ports that were UP before: peers told, the time source lost (R366, R370, R386). -/
def followPorts (before : State) (s : State) : State :=
  let lost := (List.range 72).filter fun p => isUp before p && !isUp s p
  let s1 := lost.foldl (fun s p => loseSource p (linkLost p (portOf before p) s)) s
  if lost.isEmpty then s else noteIsolation (notePort s1)

/-- Bundles of a role on an edge that are not down. -/
def roleUp (s : State) (e : Nat) (r : KerfRole) : Bool :=
  (List.range (bundlesOf e)).any fun b => decide ((bundleOf s e b).role = r) && decide ((bundleOf s e b).width ≠ .down)

/-- The loss of every bundle of a role on an edge (R348, R458). -/
def roleLost (e b : Nat) (s : State) : State :=
  let r := (bundleOf s e b).role
  let x := kerfRecord 0x6104 e b false 0 false s
  match r with
  | .hub | .bulk => raiseFatal (if e < 4 then .grove e else if e < 8 then .none else .portDie (e - 8)) x s
  | .port =>
    let s1 := raiseFatal (.portDie (e - 8)) x s
    if inService s1 then followPorts s s1 else s1
  | .hubOverflow | .direct => reportAs .failure x s
  | .off => s

/-- Payload rate of the PORT bundles of an edge in one direction, in 0.1 GB/s. -/
def portRate (s : State) (e : Nat) (dirB : Bool) : Nat :=
  (List.range 16).foldl (fun n b => n + dirRate (bundleOf s e b) (dirOf (bundleOf s e b) dirB)) 0

/-- Ports that the rate left does not carry are marked down, highest first, with one record 0x6107: all 36 count at 50 GB/s, disabled
ones too (R349). -/
def fitPorts (e : Nat) (s : State) : State :=
  if e < 8 then s
  else
    let d := e - 8
    let kept := min (portRate s e false) (portRate s e true) / 500
    let out := (((List.range 36).map (· + 36 * d)).drop kept).filter fun p =>
      !((portOf s p).state == .disabled) && !((portOf s p).state == .markedDown)
    if out.isEmpty then s
    else
      let s1 := out.foldl (fun s p => updPort p (fun q => { q with state := .markedDown }) s) s
      let bits (lo : Nat) : Nat := out.foldl (fun n p => if lo ≤ p ∧ p < lo + 64 then n + 2 ^ (p - lo) else n) 0
      followPorts s (reportModule 0x6107 s1 0 (bits 0) (bits 64))

/-- A bundle goes down: recorded, its lent lanes returned, its flits moved, and with it what its role leaves (R342, R343, R347, R348). -/
def bundleDown (e b : Nat) (injected : Bool) (s : State) : State :=
  let s0 := updBundle e b (fun k => { k with
    width := .down, repairing := false, retraining := false
    dirA := { k.dirA with borrowed := [] }, dirB := { k.dirB with borrowed := [] } }) s
  let s1 := moveFlits e b s0
  let s2 := report (kerfRecord 0x6103 e b false 0 injected s1) s1
  if roleUp s2 e (bundleOf s2 e b).role then fitPorts e s2 else roleLost e b s2

/-! ### Flits (R340) -/

/-- Flit `number` arrives in a direction, good or with a CRC mismatch; it is one of the 64 that the sender keeps. A bad one is discarded
and a replay asked for; a good one is delivered in its turn, and no one twice. -/
def flitReceive (number : Nat) (good : Bool) (d : LaneDir) : Option KerfFlit × LaneDir :=
  if number < d.delivered ∨ d.delivered + min 64 d.queue.length ≤ number then (none, d)
  else
    let d1 := { d with sent := max d.sent (number + 1) }
    if !good then (none, { d1 with replayFrom := some (min (d.replayFrom.getD number) number) })
    else match number - d.delivered, d.queue with
      | 0, f :: fs => (some f, { d1 with delivered := number + 1, queue := fs, replayFrom := none })
      | _, _ => (none, d1)

/-- A flit arrives at the receiving die of a direction. -/
def flitArrives (e b : Nat) (dirB : Bool) (number : Nat) (good : Bool) (s : State) : State :=
  let r := flitReceive number good (dirOf (bundleOf s e b) dirB)
  let s1 := updBundle e b (setDir dirB r.2) s
  match r.1 with
  | some f => arriveFlit (receivingDie e dirB) f s1
  | none => s1

/-- KERF_FLIT_RECEIVE: what the dies have offered since takes its bundles (R346); then the flit is delivered or discarded (R340). -/
def execKerfFlitReceive (e b : Nat) (dirB : Bool) (number : Nat) (good : Bool) (offered : List KerfFlit) (s : State) : Answer :=
  let s1 := offered.foldl (fun s f => offerFlit f s) s
  .next (if e < 10 ∧ b < bundlesOf e ∧ carriesFlits (bundleOf s1 e b) then flitArrives e b dirB number good s1 else s1)

/-- Replays counted in a direction: 256 within 10 µs make one burst, after which the lane check runs twice (R340, R341). -/
def countReplays (now n : Nat) (d : LaneDir) : LaneDir :=
  let recent := List.replicate n now ++ d.replayTimes.filter fun t => decide (now < t + 10000)
  if 256 ≤ recent.length then
    { d with replayTimes := [], bursts := now :: d.bursts.filter (fun t => decide (now < t + 1000000)), checksDue := 2 }
  else { d with replayTimes := recent }

/-- KERF_REPLAY: the sender resends the flit and those after it, of the 64 it keeps. -/
def kerfReplay (e b : Nat) (dirB : Bool) (s : State) : State :=
  let d := dirOf (bundleOf s e b) dirB
  match d.replayFrom with
  | none => s
  | some k =>
    let n := min 64 (d.sent - k)
    let a := fireInjection 0x6105 (fun l => l == laneLocator e b dirB (bitsOf l 16 10)) s
    let m := if a.1 then 256 else n
    updBundle e b (fun k => { setDir dirB { countReplays a.2.now m (dirOf k dirB) with
        replayFrom := none, burstInjected := (dirOf k dirB).burstInjected || a.1 } k with
      replays := satAdd 32 k.replays n }) a.2

def execKerfReplay (e b : Nat) (dirB : Bool) (s : State) : Answer :=
  .next (if e < 10 ∧ b < bundlesOf e ∧ carriesFlits (bundleOf s e b) then kerfReplay e b dirB s else s)

/-! ### Lane checks and repairs (R341–R343, R350, R351) -/

/-- Live repair: BULK, DIRECT or HUB_OVERFLOW, with LIVE_LANE_REPAIR in the common feature level (R350). -/
def liveRepair (s : State) (k : KerfBundle) : Bool :=
  bitOf s.life.common 1 && match k.role with
    | .bulk | .direct | .hubOverflow => true
    | .off | .hub | .port => false

/-- Lanes declared failed in a direction; 1000 stands for its clock pair. -/
def failLanes (ls : List Nat) (d : LaneDir) : LaneDir :=
  { d with failed := (d.failed ++ ls.filter fun l => l != 1000).eraseDups
           clockFailed := d.clockFailed || ls.contains 1000, bursts := [], checksDue := 0 }

/-- A bundle paused: it takes no new flits, and its flits move (R347, R350). -/
def pauseBundle (e b : Nat) (s : State) : State := moveFlits e b (updBundle e b (fun k => { k with repairing := true }) s)

/-- What a bundle's lanes make of failures (R343, R350): nothing to steer, a lane steered in, another half, or half width. -/
inductive RepairKind where
  | none | lane | otherHalf | toHalf
deriving DecidableEq, Repr

/-- The repair that leads from a bundle's lanes before to those after. -/
def repairKind (old new : KerfBundle) : RepairKind :=
  if new.width ≠ old.width then .toHalf
  else if new.width = .half ∧ (new.dirA.upper ≠ old.dirA.upper ∨ new.dirB.upper ≠ old.dirB.upper) then .otherHalf
  else if new.dirA.replaced ≠ old.dirA.replaced ∨ new.dirB.replaced ≠ old.dirB.replaced then .lane
  else .none

/-- The lanes of a bundle after failures: repaired, live or with the bundle paused, or at half width; a bundle that cannot run goes down.
`quiet` marks failures that fall into a repair or retraining in progress: they are part of it, and neither pause the bundle again nor
count as one more repair (R351). -/
def settleBundle (e b : Nat) (dirB : Bool) (lane : Nat) (injected quiet : Bool) (s : State) : State :=
  let old := bundleOf s e b
  let new := fitBundle (spareLanes (lentBelow s e b) (lentAbove s e b)) old
  let s1 := updBundle e b (fun _ => new) s
  if new.width = .down then bundleDown e b injected s1
  else
    let kind := repairKind old new
    let own := decide (kind ≠ .none) && !quiet
    let s2 := if own then updBundle e b (fun k => { k with repairs := min (k.repairs + 1) 65535 }) s1 else s1
    let s3 := if own && !(decide (kind = .lane) && liveRepair s old) then pauseBundle e b s2 else s2
    fitPorts e (report (kerfRecord (if kind = .toHalf then 0x6102 else 0x6101) e b dirB (laneName (dirOf old dirB) lane) injected s3) s3)

/-- Lanes in service, idle spares and lent lanes, which stay lent at half width too: what a lane check tests (R340, R342). A failed lane is
none of these, nor, at half width, a lane of the other half. -/
def checkedLanes (k : KerfBundle) (d : LaneDir) : List Nat :=
  (match k.width with
    | .down => []
    | .full => List.range 66 ++ d.borrowed
    | .half => halfLanes d.upper ++ d.borrowed).filter fun l => !d.failed.contains l

/-- A retraining begins: three bursts of replays within 1 ms with no lane failed (R341). -/
def beginRetrain (e b : Nat) (dirB : Bool) (injected : Bool) (s : State) : State :=
  let s1 := updBundle e b (fun k => { k with
    retraining := true, retrains := min (k.retrains + 1) 65535
    dirA := { k.dirA with bursts := [], replayTimes := [], burstInjected := false }
    dirB := { k.dirB with bursts := [], replayTimes := [], burstInjected := false } }) s
  report (kerfRecord 0x6105 e b dirB 0 injected s1) s1

/-- Lanes an armed point names in this lane check (R466): 66 is the clock pair. -/
def injectedLanes (e b : Nat) (dirB : Bool) (s : State) : List Nat :=
  (s.err.inj.cells.filter fun c => slotHits 0x6101 (fun l => l == laneLocator e b dirB (bitsOf l 16 10)) c.2).map
    fun c => bitsOf c.2.locator.toNat 16 10

/-- KERF_LANE_CHECK: a lane that fails two checks in a row is failed. Once the checks that three bursts of replays called for have run and
none declares a lane failed, the bundle retrains (R340, R341). -/
def laneCheck (e b : Nat) (dirB : Bool) (bad : List Nat) (s0 : State) : State :=
  let inj := injectedLanes e b dirB s0
  let s := (fireInjection 0x6101 (fun l => l == laneLocator e b dirB (bitsOf l 16 10)) s0).2
  let k := bundleOf s e b
  let d := dirOf k dirB
  let struck := inj.map fun l => if l = 66 then 1000 else l
  let tested := (bad.filter fun l => (checkedLanes k d).contains l) ++ struck
  let fresh := tested.filter fun l => d.suspect.contains l && !d.failed.contains l
  let s1 := updBundle e b (setDir dirB { d with suspect := tested, checksDue := d.checksDue - 1 }) s
  match fresh with
  | l :: _ =>
    settleBundle e b dirB l (struck.contains l) (k.repairing || k.retraining) (updBundle e b (fun k => setDir dirB (failLanes fresh (dirOf k dirB)) k) s1)
  | [] => if 3 ≤ d.bursts.length ∧ d.checksDue ≤ 1 ∧ !k.retraining then beginRetrain e b dirB d.burstInjected s1 else s1

def execKerfLaneCheck (e b : Nat) (dirB : Bool) (bad : List Nat) (s : State) : Answer :=
  .next (if e < 10 ∧ b < bundlesOf e ∧ (bundleOf s e b).width ≠ .down then laneCheck e b dirB bad s else s)

/-- Failures found while a repair or a retraining goes on. -/
def takeFailures (e b : Nat) (badA badB : List Nat) (s : State) : State :=
  let s1 := updBundle e b (fun k => { k with dirA := failLanes badA k.dirA, dirB := failLanes badB k.dirB }) s
  match badA, badB with
  | l :: _, _ => settleBundle e b false l false true s1
  | [], l :: _ => settleBundle e b true l false true s1
  | [], [] => s1

/-- PAUSED_REPAIR_DONE: the two lane checks of step 4; a lane that fails is taken into the repair, which goes on; else the bundle takes
traffic again (R350). -/
def execPausedRepairDone (e b : Nat) (badA badB : List Nat) (s : State) : Answer :=
  let k := bundleOf s e b
  .next (if !(decide (e < 10) && decide (b < bundlesOf e) && k.repairing) then s
  else if badA.isEmpty && badB.isEmpty then wakeFlits (updBundle e b (fun k => { k with repairing := false }) s)
  else takeFailures e b badA badB s)

/-- KERF_RETRAIN_DONE: lanes found failed are repaired, and the bundle carries traffic again (R341). -/
def execKerfRetrainDone (e b : Nat) (badA badB : List Nat) (s : State) : Answer :=
  let k := bundleOf s e b
  .next (if !(decide (e < 10) && decide (b < bundlesOf e) && k.retraining) then s
  else wakeFlits (updBundle e b (fun k => { k with retraining := false }) (takeFailures e b badA badB s)))

/-- KERF_CLOCK_LOSS: the direction cannot run, and its bundle goes down (R341). -/
def execKerfClockLoss (e b : Nat) (dirB : Bool) (s : State) : Answer :=
  .next (if e < 10 ∧ b < bundlesOf e ∧ (bundleOf s e b).width ≠ .down then
    bundleDown e b false (updBundle e b (fun k => setDir dirB { dirOf k dirB with clockFailed := true } k) s) else s)

/-! ### Admitted-die sites in service (R356, R357) -/

/-- Genpex ports a site's optical engine carries (R352). -/
def sitePorts (k : Nat) : List Nat := (List.range 12).map (· + 47 + 12 * k)

/-- The ports a site would have carried are marked down (R355). -/
def markSitePorts (k : Nat) (s : State) : State :=
  if s.part.orderCode = 1 then
    followPorts s ((sitePorts k).foldl (fun s p => updPort p (fun q => if q.state = .disabled then q else { q with state := .markedDown }) s) s)
  else s

/-- A site shut down in service (R356). -/
def shutSite (k : Nat) (injected : Bool) (s : State) : State :=
  let s1 := updSite k (fun x => { x with state := .shutDown, code := 0x6205, modules := 0, lanes := 0, rate := 0 }) s
  report { code := 0x6205, source := srcModule s, injected := injected } (markSitePorts k s1)

/-- A site that is admitted. -/
def admittedSite (s : State) (k : Nat) : Bool := decide (k < 2) && decide ((siteOf s k).state = .admitted)

/-- SITE_TEMP_REPORT. -/
def execSiteTempReport (k temp : Nat) (s : State) : Answer :=
  if !admittedSite s k then .next s
  else
    let a := fireInjection 0x6205 (fun l => l == k) s
    let s1 := updSite k (fun x => { x with temp := temp, lastReport := a.2.now }) a.2
    .next (if a.1 ∨ (siteOf s k).tempLimit + 5 ≤ temp then shutSite k a.1 s1 else s1)

/-- SITE_REPORT_TIMEOUT. -/
def execSiteReportTimeout (k : Nat) (s : State) : Answer := .next (if admittedSite s k then shutSite k false s else s)

/-- Capacity R355 accepts from an optical engine: 600 GB/s, MIN_RATE and MIN_MODULES at full width. -/
def engineCapacity (x : Site) (modules lanes rate : Nat) : Bool :=
  decide (x.minRate ≤ rate) && decide (lanes = 64 → x.minModules ≤ modules) && decide (lanes ≠ 64 → x.minModules = 0) &&
  decide (600 * 8 ≤ modules * lanes * rate)

/-- A width and rate that the module supports at a site (R352). -/
def mainbandSupported (modules lanes rate : Nat) : Bool :=
  decide (1 ≤ modules ∧ modules ≤ 4) && (lanes == 64 || lanes == 32) && (rate == 16 || rate == 24 || rate == 32)

/-- SITE_MAINBAND_FAILURE: retraining that recovers within 1 ms leaves the modules, lanes and rate it says, of those R352 supports. -/
def execSiteMainbandFailure (k : Nat) (recovered : Bool) (modules lanes rate : Nat) (s : State) : Answer :=
  let x := siteOf s k
  .next (if !admittedSite s k then s
  else if !recovered || !mainbandSupported modules lanes rate || (x.cls == 1 && !engineCapacity x modules lanes rate) then shutSite k false s
  else report { code := 0x6206, source := srcModule s } (updSite k (fun x => { x with modules := modules, lanes := lanes, rate := rate, code := 0x6206 }) s))

/-- A site whose window is forwarded to its die (R357). -/
def windowForwards (s : State) (k : Nat) : Bool := admittedSite s k && (siteOf s k).cls == 2

/-- The site window that an offset of the control space lies in, and the offset there. -/
def siteWindowOf (off : Nat) : Option (Nat × Nat) :=
  if 0x1040000 ≤ off ∧ off < 0x1060000 then some ((off - 0x1040000) / 0x10000, off % 0x10000) else none

/-- The physical address of an offset in a site window. -/
def siteWindowAddr (k offset : Nat) : Nat := 0x400001040000 + 0x10000 * k + offset

/-- An access made on behalf of hart h, or of no hart that waits, which the command names 64: by the management processor, or a
REGISTER_WRITE. -/
def SiteAccess.isFor (h : Nat) (a : SiteAccess) : Bool :=
  match a.accessor with
  | .hart x => x == h
  | .mgmt _ _ => h == 64
  | .nobody => h == 64

/-- An access ends with a value: its hart goes on, or the management processor answers its request (R357, R440). -/
def endSiteAccess (a : SiteAccess) (v : W64) (s : State) : State :=
  match a.accessor with
  | .hart h => updHart h (fun x => { x with value := if a.write then x.value else v, waiting := .nothing }) s
  | .mgmt mailbox tag =>
    if a.write then releaseWriter (some a.accessor) s
    else vendorAnswer (if mailbox then .mailbox else .port) 0x03 tag ({ data := bytesOfNat 8 v.toNat }, updMgmt (fun m => { m with writing := false }) s)
  | .nobody => s

/-- The die's answer to the oldest access that waits for it at an offset. -/
def siteAnswered (k h offset : Nat) (v : W64) (s : State) : State :=
  match (siteOf s k).access.find? fun a => a.isFor h && a.addr == siteWindowAddr k offset with
  | some a => endSiteAccess a v (updSite k (fun x => { x with access := x.access.erase a }) s)
  | none => s

/-- An access forwarded to the die as a sideband register access (R357). -/
def forwardAccess (k : Nat) (by_ : RegWriter) (offset : Nat) (write : Bool) (s : State) : State :=
  updSite k (fun x => { x with access := x.access ++ [⟨by_, siteWindowAddr k offset, s.now, write⟩] }) s

/-- SITE_WINDOW_ACCESS: a hart's access to a site window, with the die's answer when it has come; a command with an answer for an
access that already waits is that answer. The management processor's accesses begin with its requests (R440). -/
def siteWindowAccess (k h offset : Nat) (write : Option W64) (answer : Option W64) (s : State) : State :=
  if 2 ≤ k ∨ 0x10000 ≤ offset ∨ offset % 8 ≠ 0 then s
  else if h = 64 ∨ (hartOf s h).waiting = .site k then
    match answer with
    | some v => siteAnswered k h offset v s
    | none => s
  else if !hartRuns s h then s
  else
    let took (v : W64) : State := if write.isSome then s else updHart h (fun x => { x with value := v }) s
    if !windowForwards s k then took 0
    else match answer with
      | some v => took v
      | none => forwardAccess k (.hart h) offset write.isSome (updHart h (fun x => { x with waiting := .site k }) s)

def execSiteWindowAccess (k h offset : Nat) (write : Option W64) (answer : Option W64) (s : State) : Answer :=
  .next (siteWindowAccess k h offset write answer s)

/-- SITE_WINDOW_TIMEOUT: the oldest unanswered access reads all ones and is recorded. -/
def execSiteWindowTimeout (k : Nat) (s : State) : Answer :=
  match (siteOf s k).access with
  | [] => .next s
  | a :: rest =>
    .next (reportModule 0x6208 (endSiteAccess a 0xFFFFFFFFFFFFFFFF (updSite k (fun x => { x with access := rest }) s)) a.addr)

end Sys2Proof.Machine
end

