-- ==== Sys2Proof/Machine/Transfers.lean ====
section
/-!
DEFINITION. Machine/Transfers.lean: fabric transfers from their hand-over to their end, the timed class and its slot tables (R378–R384),
windows and what arrives through them (R373–R376, R385), unit messages and their notices (R33–R36).
-/

namespace Sys2Proof.Machine

/-- Frames of a number of payload bytes: at most 16 rows of 128 bytes each (R366). -/
def framesOf (n : Nat) : Nat := ceilDiv n 2048

/-! ### Slots (R378–R381) -/

/-- Send entries of a transfer's destination and window (R380). -/
def sendEntries (s : State) (x : Transfer) : List (SlotEntry × Nat × Bool) :=
  (activeEntries s).filter fun e => !e.1.receive && e.1.peer == x.module && e.1.window == handleWindow x.handle

/-- Bytes of an entry's slot that are claimed. -/
def claimedIn (s : State) (t i : Nat) : Nat :=
  s.fabric.claims.foldl (fun n c => if c.slotStart = t ∧ c.entry = i then n + c.bytes else n) 0

/-- Bytes of an entry's slot that are not. -/
def unclaimed (s : State) (t : Nat) (e : SlotEntry × Nat × Bool) : Nat := e.1.bytes - claimedIn s t e.2.1

/-- The first slot of an entry at or after a time that has bytes left, within `k` periods. -/
def openSlot (s : State) (e : SlotEntry × Nat × Bool) : Nat → Nat → Option Nat
  | 0, _ => none
  | k + 1, t =>
    let a := nextSlot s.fabric.active.period e.1.slot t
    if 0 < unclaimed s a e then some a else openSlot s e k (a + 1)

/-- The first slot of a transfer's entries at or after a time that has bytes left; overbooked entries carry nothing (R379, R380). -/
def chooseSlot (s : State) (x : Transfer) (t : Nat) : Option (Nat × (SlotEntry × Nat × Bool)) :=
  let all := ((sendEntries s x).filter fun e => !e.2.2).filterMap fun e =>
    (openSlot s e (s.fabric.claims.length + 1) t).map fun a => (a, e)
  all.foldl (fun best c => match best with
    | none => some c
    | some b => if c.1 < b.1 then some c else some b) none

/-- The earliest start of a slot that a transfer may be offered for now: 4.2 µs after its hand-over, and 4.0 µs ahead (R380). -/
def firstStart (s : State) (x : Transfer) : Nat := max (x.handedAt + 4200) (s.fabric.time + 4000)

/-- Bytes of a slot claimed, and given up. -/
def addClaim (t i n : Nat) (s : State) : State := updFabric (fun f => { f with claims := f.claims ++ [⟨t, i, n⟩] }) s
def dropClaim (t i n : Nat) (s : State) : State := updFabric (fun f => { f with claims := f.claims.erase ⟨t, i, n⟩ }) s

/-- A transfer claims the first slot that matches, and as many later ones as its bytes need (R380); `k` bounds their number. -/
def claimSlots (id : Nat) : Nat → State → State
  | 0, s => s
  | k + 1, s =>
    match findTransfer s id with
    | none => s
    | some x =>
      if x.remaining = 0 then s
      else match chooseSlot s x (firstStart s x) with
        | none => s
        | some (t, e) =>
          let n := min x.remaining (unclaimed s t e)
          claimSlots id k (addClaim t e.2.1 n (updTransfer id (fun y =>
            { y with remaining := y.remaining - n, parts := y.parts ++ [{ slotStart := t, entry := e.2.1, bytes := n }] }) s))

/-- Parts of a transfer given up: their bytes have no slot again. -/
def freeParts (x : Transfer) (ps : List SlotPart) (s : State) : State :=
  let s1 := ps.foldl (fun s q => dropClaim q.slotStart q.entry q.bytes s) s
  updTransfer x.id (fun y => { y with
    remaining := y.remaining + (ps.map (·.bytes)).sum, parts := y.parts.filter fun q => !ps.contains q }) s1

/-! ### Hand-over (R384, R387) -/

/-- A transfer to this module itself: its own window table or its own benches serve it (R372). The code of a refusal. -/
def deliverHere (x : Transfer) (s : State) : Option W16 × State :=
  if handleWindow x.handle = 255 then
    match unitTargetOf s x.handle with
    | .error c => (some c, s)
    | .ok t => match unitFate s t.id t.epoch with
      | .taken n => match unitRefusal s (moduleIndex s) x.sealed with
        | some c => (some c, s)
        | none => (none, takeMessage n (unitOffset x.handle) x.data s)
      | .stale n => (none, staleAtSender x (staleDetails s n t.epoch) s)
      | .refused c => (some c, s)
  else ((x.handle, x.data) :: x.more).foldl (fun (r : Option W16 × State) run => match r with
    | (some c, t) => (some c, t)
    | (none, t) => windowWrite (handleWindow x.handle) (moduleIndex s) (moduleGen s) (handleOffset run.1) run.2 x.sealed t) (none, s)

/-- What is wrong with the unit target entry that a unit-form handle names (R25, R377). -/
def unitEntryRefusal (s : State) (h : Nat) : Option W16 :=
  if handleWindow h ≠ 255 then none
  else match unitTargetOf s h with
    | .ok _ => none
    | .error c => some c

/-- What refuses a hand-over to another module (R25, R378, R387). -/
def handoverRefusal (s : State) (x : Transfer) : Option W16 :=
  let m := handleTarget s x.handle
  if (unitEntryRefusal s x.handle).isSome then unitEntryRefusal s x.handle
  else if reachOf s m ≠ .reachable then some 0x7301
  else if x.timed then
    if s.fabric.timeState = .unsync then some 0x7208
    else if (sendEntries s { x with module := m }).isEmpty then some 0x7205 else none
  else if pathUp s m then none else some 0x7306

/-- The task of a transfer no longer waits for its hand-over (R240). -/
def leftBench (x : Transfer) (s : State) : State :=
  match x.ring with
  | some r => updTask r x.seq (fun t => { t with transfers := t.transfers.filter fun i => i != x.id }) s
  | none => s

/-- TRANSFER_HANDOVER. -/
def handOver (x : Transfer) (s : State) : State :=
  let m := handleTarget s x.handle
  if handleMalformed s x.handle x.data.length then failHandover x 0x7304 s
  else if m = moduleIndex s then
    match deliverHere x s with
    | (some c, t) => failHandover x c t
    | (none, t) => dropTransfer x.id (leftBench x t)
  else match handoverRefusal s x with
    | some c => failHandover x c s
    | none =>
      let s1 := leftBench x (updTransfer x.id (fun y => { y with
        module := m
        unit := if handleWindow x.handle = 255 then some (unitEntry x.handle) else none
        tag := (peerOf s m).gen
        handedAt := s.fabric.time
        state := if x.timed then .held else .sent s.now }) s)
      if x.timed then claimSlots x.id x.remaining s1 else countFrames (framesOf x.data.length) (firstPort s m) s1

def execTransferHandover (id : Nat) (s : State) : Answer :=
  match findTransfer s id with
  | some x => .next (if x.state = .leaving then handOver x s else s)
  | none => .next s

/-! ### Offers (R380, R381) -/

/-- The first part of a list, by its slot. -/
def firstPart (ps : List SlotPart) : Option SlotPart :=
  ps.foldl (fun best q => match best with
    | none => some q
    | some b => if q.slotStart < b.slotStart then some q else some b) none

/-- The claim of a transfer that is offered next; the offer whose answer has not come. -/
def nextPart (x : Transfer) : Option SlotPart := firstPart (x.parts.filter fun q => q.offered.isNone)
def openOffer (x : Transfer) : Option SlotPart := firstPart (x.parts.filter fun q => q.offered.isSome && !q.admitted)

/-- One part of a transfer changed. -/
def updPart (x : Transfer) (q : SlotPart) (f : SlotPart → SlotPart) (s : State) : State :=
  updTransfer x.id (fun y => { y with parts := y.parts.map fun z => if z = q then f z else z }) s

/-- OFFER_SEND: the offer for the next slot the transfer claims. Bytes without a slot claim one first; a slot that has begun is given up for
the next that matches. -/
def offerSend (x : Transfer) (s : State) : State :=
  if s.fabric.timeState = .unsync then s
  else match nextPart x with
    | none => claimSlots x.id x.remaining s
    | some q =>
      if q.slotStart ≤ s.fabric.time then claimSlots x.id (x.remaining + q.bytes) (freeParts x [q] s)
      else countFrames 1 (s.fabric.active.entries[q.entry]?.getD {}).port (updPart x q (fun z => { z with offered := some s.now }) s)

def execOfferSend (id : Nat) (s : State) : Answer :=
  match findTransfer s id with
  | some x => .next (if x.state = .held ∧ x.timed then offerSend x s else s)
  | none => .next s

/-- OFFER_ANSWER: ACCEPT, or the code of a refusal, which fails the transfer; an answer later than 2 µs after the offer is ignored. A module
whose time is UNSYNC admits nothing (R378). -/
def offerAnswer (x : Transfer) (code : W16) (s : State) : State :=
  match openOffer x with
  | none => s
  | some q =>
    if !q.offered.any (fun t => decide (s.now ≤ t + 2000)) then s
    else if code = 0 then (if s.fabric.timeState = .unsync then s else updPart x q (fun z => { z with admitted := true }) s)
    else failTransfer x code (freeParts x x.parts s)

def execOfferAnswer (id : Nat) (code : W16) (s : State) : Answer :=
  match findTransfer s id with
  | some x => .next (offerAnswer x code s)
  | none => .next s

/-- OFFER_FORFEIT: no answer within 2 µs: the claim is given up, and the transfer claims its next matching slot. -/
def offerForfeit (x : Transfer) (s : State) : State :=
  match openOffer x with
  | none => s
  | some q =>
    claimSlots x.id (x.remaining + q.bytes)
      (updFabric (fun f => { f with forfeits := wrapAdd 64 f.forfeits 1 }) (freeParts x [q] s))

def execOfferForfeit (id : Nat) (s : State) : Answer :=
  match findTransfer s id with
  | some x => .next (offerForfeit x s)
  | none => .next s

/-- Entries of this module for an offer's slot, of a direction. -/
def slotEntries (s : State) (o : Offer) (receive : Bool) (peer : Nat) : List (SlotEntry × Nat × Bool) :=
  (activeEntries s).filter fun e =>
    e.1.receive == receive && e.1.peer == peer && e.1.window == o.window && !e.2.2 && (!receive || e.1.port == o.port) &&
    nextSlot s.fabric.active.period e.1.slot o.slotStart == o.slotStart

/-- The checks of R373 that need no data, at the destination of an offer. A unit message of an old generation passes, and gets its notice
when it arrives (R36, R387). -/
def offerRefusal (s : State) (o : Offer) : Option W16 :=
  if o.window = 255 then (if o.tag ≠ moduleGen s then none else unitRefusal s o.origin o.sealed)
  else windowRefusal s o.window .write o.origin o.tag o.offset o.length o.sealed

/-- OFFER_RECEIVE at the destination (R380, R381): the answer that leaves, and the claim. -/
def offerAtTarget (o : Offer) (s : State) : W16 × State :=
  match offerRefusal s o with
  | some c => (c, s)
  | none =>
    if s.fabric.timeState = .unsync then (0x7208, s)
    else match (slotEntries s o true o.origin).find? fun e => decide (o.length ≤ unclaimed s o.slotStart e) with
      | some e => (0, addClaim o.slotStart e.2.1 o.length s)
      | none => (0x7206, s)

/-- OFFER_RECEIVE at a forwarder: a refusal, or none for an offer that passes on, one frame on the next link (R381). -/
def offerAtForwarder (o : Offer) (s : State) : Option W16 × State :=
  if s.fabric.timeState = .unsync then (some 0x7208, s)
  else match slotEntries s o true o.origin, slotEntries s o false o.destination with
    | rs, e :: es =>
      if !isUp s e.1.port then (some 0x7306, s)
      else match rs.find? (fun e => decide (o.length ≤ unclaimed s o.slotStart e)),
                 (e :: es).find? (fun e => decide (o.length ≤ unclaimed s o.slotStart e)) with
        | some r, some d =>
          (none, countFrames 1 d.1.port (addClaim o.slotStart d.2.1 o.length (addClaim o.slotStart r.2.1 o.length s)))
        | _, _ => (some 0x7206, s)
    | _, [] => (some 0x7206, s)

/-- An offer that has come in. -/
def offerReceive (o : Offer) (s : State) : State :=
  if o.destination = moduleIndex s then
    let r := offerAtTarget o s
    answerTo o.origin r.1 [] r.2
  else match offerAtForwarder o s with
    | (some c, t) => answerTo o.origin c [] t
    | (none, t) => t

def execOfferReceive (o : Offer) (s : State) : Answer := .next (if isUp s o.port then controlFrame o.port (offerReceive o) s else s)

/-! ### Slots in time (R379, R382) -/

/-- The parts of a transfer that are admitted to a slot. -/
def admittedTo (t : Nat) (x : Transfer) : List SlotPart := x.parts.filter fun q => q.admitted && q.slotStart == t

/-- A transfer admitted to the slot that begins sends its bytes there; with its last bytes it is sent. -/
def sendAdmitted (t : Nat) (x : Transfer) (s : State) : State :=
  let ps := admittedTo t x
  let s1 := ps.foldl (fun s q => dropClaim t q.entry q.bytes
    (countFrames (framesOf q.bytes) (s.fabric.active.entries[q.entry]?.getD {}).port s)) s
  updTransfer x.id (fun y =>
    let rest := y.parts.filter fun q => !ps.contains q
    { y with parts := rest, state := if y.remaining = 0 ∧ rest = [] then .sent s.now else .held }) s1

/-- SLOT_START: the slot in which fabric time stands begins. -/
def slotStart (s : State) : State :=
  if s.fabric.timeState = .unsync ∨ s.fabric.active.period = 0 then s
  else
    let t := s.fabric.time / 2000 * 2000
    let n := s.fabric.time / 2000 % s.fabric.active.period
    let tooMany := ((activeEntries s).filter fun e => e.2.2 && e.1.slot == n).length
    let s1 := updFabric (fun f => { f with
      overbooked := wrapAdd 64 f.overbooked tooMany
      claims := f.claims.filter fun c => decide (t < c.slotStart + 2000) }) s
    (s1.fabric.transfers.filter fun x => !(admittedTo t x).isEmpty).foldl (fun s x => sendAdmitted t x s) s1

def execSlotStart (s : State) : Answer := .next (slotStart s)

/-! ### End to end (R384) -/

/-- The repair that waits for a best-effort read of a peer (R280, R385). -/
def fetchOf (s : State) (id : Nat) : Option Migration := s.tier.inProgress.find? fun m => m.fetch == some id

/-- BEST_EFFORT_ACK: the destination's report, of completion or of a refusal, which fails a replica's fetch too (R373). -/
def execBestEffortAck (id : Nat) (code : W16) (s : State) : Answer :=
  match findTransfer s id with
  | some x => match x.state with
    | .sent _ => .next (if code = 0 then dropTransfer id s else failTransfer x code s)
    | .leaving | .held => .next s
  | none => .next (match fetchOf s id with
    | some m => if code = 0 then s else repairFailed m s
    | none => s)

/-- A replica's fetch asked for again: without any path it fails (R384). -/
def fetchResend (m : Migration) (s : State) : State :=
  match servingObject s m.ashlar with
  | none => s
  | some (_, o) =>
    let peer := handleTarget s (replicaHandle o m.ashlar)
    if pathUp s peer then countFrames 1 (firstPort s peer) s else repairFailed m s

/-- BEST_EFFORT_RESEND: never under an old generation tag (R387); without any path the transfer fails (R384). -/
def bestEffortResend (x : Transfer) (s : State) : State :=
  if x.unit.isNone ∧ x.tag ≠ (peerOf s x.module).gen then failTransfer x 0x7204 s
  else if !pathUp s x.module then failTransfer x 0x7306 s
  else countFrames (framesOf x.data.length) (firstPort s x.module) (updTransfer x.id (fun y => { y with state := .sent s.now }) s)

def execBestEffortResend (id : Nat) (s : State) : Answer :=
  match findTransfer s id with
  | some x => match x.state with
    | .sent _ => .next (bestEffortResend x s)
    | .leaving | .held => .next s
  | none => .next (match fetchOf s id with
    | some m => fetchResend m s
    | none => s)

/-! ### Remote reads and atomics (R376, R385) -/

/-- REMOTE_READ_REQUEST: the rows, or the refusal, leave for the origin. -/
def execRemoteReadRequest (q : RemoteAccess) (s : State) : Answer :=
  if !anyUp s then .next s
  else match windowRead q.window q.origin q.tag q.offset q.size s with
    | (.ok bs, t) => .next (answerTo q.origin 0 bs t)
    | (.error c, t) => .next (answerTo q.origin c [] t)

/-- The value an atomic leaves, and whether it stores (R376; LR, SC and WRS.NTO have no remote form). -/
def amoResult (op : AmoOp) (bits old a b : Nat) : Option Nat :=
  let sold := signedOf bits old
  let sa := signedOf bits a
  match op with
  | .swap => some a
  | .add => some (wrapAdd bits old a)
  | .and => some (Nat.land old a)
  | .or => some (Nat.lor old a)
  | .xor => some (Nat.xor old a)
  | .min => some (if sold ≤ sa then old else a)
  | .max => some (if sa ≤ sold then old else a)
  | .minu => some (Nat.min old a)
  | .maxu => some (Nat.max old a)
  | .cas => if old = a then some b else none
  | .lr => none
  | .sc => none
  | .wrs => none

/-- An atomic through a window, at the location's ordering point (R326, R373, R385): the old value, or the refusal. -/
def windowAtomic (win origin tag offset : Nat) (op : AmoOp) (a b : W64) (s : State) : Except W16 W64 × State :=
  match windowRefusal s win .atomic origin tag offset 8 false with
  | some c => (.error c, s)
  | none =>
    let w := windowOf s win
    let pa := w.base + offset
    match physRead (windowRequester w false) pa 8 s with
    | (.done bs, t) =>
      let old := natOfBytes bs
      match amoResult op 64 old a.toNat b.toNat with
      | none => (.ok (BitVec.ofNat 64 old), t)
      | some v => match physWrite { windowRequester w false with atomic := true } pa (bytesOfNat 8 v) t with
        | (.done _, u) => (.ok (BitVec.ofNat 64 old), u)
        | (.fail c _, u) => (.error c, u)
        | (.wait, u) => (.error 0x7201, u)
    | (.fail c _, t) => (.error c, t)
    | (.wait, t) => (.error 0x7201, t)

/-- An operation that has a remote form, on an aligned location. -/
def remoteForm (op : AmoOp) (q : RemoteAccess) : Bool :=
  q.size == 8 && q.offset % 8 == 0 && match op with
    | .lr | .sc | .wrs => false
    | .swap | .add | .and | .or | .xor | .min | .max | .minu | .maxu | .cas => true

/-- REMOTE_ATOMIC_REQUEST. -/
def execRemoteAtomicRequest (q : RemoteAccess) (op : AmoOp) (a b : W64) (s : State) : Answer :=
  if !anyUp s || !remoteForm op q then .next s
  else match windowAtomic q.window q.origin q.tag q.offset op a b s with
    | (.ok v, t) => .next (answerTo q.origin 0 (bytesOfNat 8 v.toNat) t)
    | (.error c, t) => .next (answerTo q.origin c [] t)

/-- A remote load or atomic of a hart ends with a code: its record, its fault (R376, R428, R449). -/
def failRemote (x : RemoteOp) (code : W16) (s : State) : State :=
  let s1 := report { code := code, source := srcModule s, address := BitVec.ofNat 64 x.pa, context := BitVec.ofNat 16 x.context,
                     detail0 := BitVec.ofNat 64 x.handle, detail2 := BitVec.ofNat 32 x.hart } s
  hartFault x.hart (if x.atomic then .storeAccess else .loadAccess) x.va false code
    (updHart x.hart (fun y => { y with waiting := .nothing })
      (updFabric (fun f => { f with remoteOps := f.remoteOps.filter fun y => y.id != x.id }) s1))

/-- The remote operation of a number. -/
def remoteOp (s : State) (id : Nat) : Option RemoteOp := s.fabric.remoteOps.find? fun x => x.id == id

/-- REMOTE_REPLY. -/
def execRemoteReply (id : Nat) (code : W16) (v : W64) (s : State) : Answer :=
  match remoteOp s id with
  | none => .next s
  | some x =>
    .next (if code = 0 then
      updHart x.hart (fun y => { y with value := v, waiting := .nothing })
        (updFabric (fun f => { f with remoteOps := f.remoteOps.filter fun y => y.id != x.id }) s)
    else failRemote x code s)

/-- REMOTE_LOAD_TIMEOUT. -/
def execRemoteLoadTimeout (id : Nat) (s : State) : Answer :=
  match remoteOp s id with
  | some x => .next (failRemote x 0x7303 s)
  | none => .next s

/-! ### Window registers (R375, R390) -/

/-- What WINDOW_CTL.ENABLE checks (R375). -/
def windowInOrder (s : State) (i : Nat) (w : Window) : Bool :=
  (i == 255 || (decide (1 ≤ w.units) && decide (w.units ≤ 16777216) && rangeNearOrBulk w.base (w.units * 65536))) &&
  rangeNearOrBulk w.tally 8 && stakeServes (stakeAt s w.tally) w.context

/-- The fields of WINDOW_CTL but ENABLE, BUSY and CFG_ERR. -/
def windowFields (v : W64) (w : Window) : Window :=
  { w with context := bitsOf v.toNat 47 32, abortOnCut := v.getLsbD 7, cordOnly := v.getLsbD 6, atomic := v.getLsbD 2
           read := v.getLsbD 1, write := v.getLsbD 0 }

/-- A write of WINDOW_CTL. -/
def windowCtlWrite (i : Nat) (v : W64) (s : State) : State :=
  let w := windowOf s i
  if 256 ≤ i ∨ w.busy then s
  else if w.enable then
    if v.getLsbD 63 then s
    else updFabric (fun f => { f with drainIssued := wrapAdd 32 f.drainIssued 1 })
      (updWindow i (fun w => { w with enable := false, busy := true }) s)
  else
    let w' := windowFields v w
    if !v.getLsbD 63 then updWindow i (fun _ => w') s
    else if windowInOrder s i w' then updWindow i (fun _ => { w' with enable := true, cfgErr := false }) s
    else updWindow i (fun _ => { w' with cfgErr := true }) s

def execWindowEnable (w : Nat) (v : W64) (s : State) : Answer := .next (windowCtlWrite w v s)
def execWindowDrain (w : Nat) (v : W64) (s : State) : Answer := .next (windowCtlWrite w v s)

/-- WINDOW_DRAIN_DONE. -/
def execWindowDrainDone (w : Nat) (s : State) : Answer :=
  .next (if (windowOf s w).busy then
    updFabric (fun f => { f with drainDone := wrapAdd 32 f.drainDone 1 }) (updWindow w (fun x => { x with busy := false }) s) else s)

/-! ### Run-time slot tables (R383) -/

/-- The switch is armed and less than 4 µs away. -/
def switchNear (f : FabricBlock) : Bool := decide (f.standby = .armed) && decide (f.switchTime < f.time + 4000)

/-- SLOT_TABLE_CTL.LOAD: the copy begins. -/
def slotTableLoad (s : State) : State :=
  if switchNear s.fabric then s else updFabric (fun f => { f with standby := .loading, standbyTable := {} }) s

def execSlotTableLoad (s : State) : Answer := .next (slotTableLoad s)

/-- An entry of a slot table (R58); none when a reserved field is not zero or DIR is not 0 or 1. -/
def readSlotEntry (bs : List Byte) : Option SlotEntry :=
  if fieldOf bs 5 1 ≤ 1 ∧ zeroAt bs 6 2 ∧ zeroAt bs 11 1 then
    some { slot := fieldOf bs 0 4, port := fieldOf bs 4 1, receive := fieldOf bs 5 1 == 1, peer := fieldOf bs 8 2
           window := fieldOf bs 10 1, bytes := fieldOf bs 12 4 }
  else none

/-- Entries of a table, `n` of them. -/
def readSlotEntries : Nat → List Byte → Option (List SlotEntry)
  | 0, _ => some []
  | n + 1, bs => match readSlotEntry (bs.take 16), readSlotEntries n (bs.drop 16) with
    | some e, some es => some (e :: es)
    | _, _ => none

/-- Slots in ascending order. -/
def slotsRise : List SlotEntry → Bool
  | a :: b :: es => decide (a.slot ≤ b.slot) && slotsRise (b :: es)
  | [_] | [] => true

/-- The rules of R58 for a table of a module. -/
def slotTableOk (index modules portEnable : Nat) (t : SlotTable) : Bool :=
  decide (1 ≤ t.period ∧ t.period ≤ 65536) && decide (t.entries.length ≤ 65536) && slotsRise t.entries &&
  t.entries.all fun e =>
    decide (e.slot < t.period) && decide (e.port < 71) && bitOf portEnable e.port && decide (e.peer < modules) && e.peer != index &&
    decide (1 ≤ e.bytes ∧ e.bytes ≤ 96000) &&
    decide ((t.entries.foldl (fun n x => if x.slot = e.slot ∧ x.port = e.port ∧ x.receive = e.receive then n + x.bytes else n) 0) ≤ 96000)

/-- The table at SLOT_TABLE_ADDR, when it can be read as the run-time's and keeps R58 and R7. -/
def runtimeTable (s : State) : Option SlotTable :=
  match s.cfg with
  | none => none
  | some c =>
    let pa := s.fabric.slotAddr
    let readable (n : Nat) : Bool := rangeNearOrBulk pa n && !poisonIn s pa n &&
      (stakeRefusalIn s { agent := .transUnit, context := 1 } false pa n).isNone
    if !readable 16 then none
    else
      let head := rawRead s pa 16
      let n := fieldOf head 4 4
      if !zeroAt head 8 8 || decide (65536 < n) || !readable (16 + 16 * n) then none
      else match readSlotEntries n (rawRead s (pa + 16) (16 * n)) with
        | none => none
        | some es =>
          let t : SlotTable := { period := fieldOf head 0 4, entries := es }
          if slotTableOk (moduleIndex s) (systemModules s) c.portEnable t then some t else none

/-- SLOT_TABLE_LOAD_DONE: the standby table is loaded, or refused with 0x7207. -/
def execSlotTableLoadDone (s : State) : Answer :=
  if s.fabric.standby ≠ .loading then .next s
  else match runtimeTable s with
    | some t => .next (updFabric (fun f => { f with standby := .loaded, standbyTable := t, stCode := 0 }) s)
    | none => .next (updFabric (fun f => { f with standby := .empty, standbyTable := {}, stCode := 0x7207 }) s)

/-- ARM (R383). -/
def slotTableArm (s : State) : State :=
  let f := s.fabric
  if (f.standby = .loaded ∨ f.standby = .armed) ∧ f.switchTime % 2000 = 0 ∧ f.time + 100000 ≤ f.switchTime then
    updFabric (fun f => { f with standby := .armed, stCode := 0 }) s
  else updFabric (fun f => { f with stCode := 0x7207 }) s

def execArm (s : State) : Answer := .next (slotTableArm s)

/-- CANCEL (R383). -/
def slotTableCancel (s : State) : State :=
  if switchNear s.fabric then s else updFabric (fun f => { f with standby := .empty, standbyTable := {} }) s

def execCancel (s : State) : Answer := .next (slotTableCancel s)

/-- A timed transfer at the switch: claims of slots before it stay, every other byte is matched again under the new table, or the
transfer fails (R383). The claims it had of later slots went with the old table. -/
def rematch (switch : Nat) (s : State) (x : Transfer) : State :=
  let late := x.parts.filter fun q => decide (switch ≤ q.slotStart)
  let bytes := x.remaining + (late.map (·.bytes)).sum
  if x.state ≠ .held ∨ bytes = 0 then s
  else
    let s1 := updTransfer x.id (fun y => { y with remaining := bytes, parts := y.parts.filter fun q => !late.contains q }) s
    if (sendEntries s1 x).isEmpty then failTransfer x 0x7205 s1 else claimSlots x.id bytes s1

/-- SLOT_TABLE_SWITCH: at the switch time the standby table becomes the active one. -/
def slotTableSwitch (s : State) : State :=
  if s.fabric.standby ≠ .armed ∨ s.fabric.time < s.fabric.switchTime then s
  else
    let t := s.fabric.switchTime
    let s1 := updFabric (fun f => { f with
      active := f.standbyTable, standby := .empty, standbyTable := {}, claims := f.claims.filter fun c => decide (c.slotStart < t) }) s
    (s1.fabric.transfers.filter (·.timed)).foldl (rematch t) s1

def execSlotTableSwitch (s : State) : Answer := .next (slotTableSwitch s)

/-! ### Unit messages (R33–R35) -/

/-- The transfer of this module that carried a unit message: its task, or the hart that stored it. -/
def messageSender (s : State) (m : UnitMsg) : Transfer :=
  { id := 0, ring := m.task.map (·.1), seq := (m.task.map (·.2)).getD 0, hart := m.hart, handle := 0, module := moduleIndex s
    context := match m.task with
      | some (r, _) => (ringOf s r).context
      | none => match m.hart with
        | some (h, _) => hartContextOf s h
        | none => 0 }

/-- A unit message that its target rejects: its task ends with the code, or the record is written (R25, R377). -/
def rejectedAtSender (x : Transfer) (code : W16) (s : State) : State :=
  match transferTask s x with
  | some t => failTask t code s
  | none => report (transferRecord x code 0 0 0 s) s

/-- UNIT_MESSAGE: a message at its target of this module, whole, through window 255, whose tally counts it (R374); of a dropped, refused or
rejected one its sender is told. -/
def unitMessage (m : UnitMsg) (s : State) : State :=
  let own : Bool := m.origin == 0xFFFF || m.origin == moduleIndex s
  if !inService s || decide (65536 < m.data.length) || decide (scratchSize < m.offset + m.data.length) then s
  else match unitFate s m.target m.epoch with
    | .taken n => match unitRefusal s (if own then moduleIndex s else m.origin) false with
      | none => takeMessage n m.offset m.data s
      | some c => if own then rejectedAtSender (messageSender s m) c s else answerTo m.origin c [] s
    | .stale n =>
      let d := staleDetails s n m.epoch
      if own then staleAtSender (messageSender s m) d s else noticeTo m.origin d s
    | .refused c => if own then rejectedAtSender (messageSender s m) c s else answerTo m.origin c [] s

def execUnitMessage (m : UnitMsg) (s : State) : Answer := .next (unitMessage m s)

/-- STALE_EPOCH_NOTICE: the notice of a message this module sent over Genpex (R35, R36). The target of a
message is read in the receiver's presentation, and the holder of a notice is recorded as it came (R39; log 83). -/
def execStaleEpochNotice (n : StaleNotice) (s : State) : Answer :=
  match findTransfer s n.transfer with
  | some x => match x.state with
    | .leaving => .next s
    | .held | .sent _ =>
      let d := (n.holder.toNat, n.present * 2 ^ 32 + n.holderEpoch, n.state)
      .next (staleAtSender x d (failBarriers x 0x1401 (dropTransfer x.id s)))
  | none => .next s

/-- EPOCH_ADVANCE: an advance that is due takes effect; unit messages are written whole before it (R31, R34). One beyond 0xFFFF is a
module warm reset (R32). -/
def execEpochAdvance (n : Nat) (s : State) : Answer :=
  .next (if (roleOf s n).advances = 0 then s
    else if 0xFFFF ≤ (roleOf s n).unitGen then beginWarmReset 0x1404 s
    else updRole n (fun e => { e with unitGen := e.unitGen + 1, advances := e.advances - 1 }) s)

end Sys2Proof.Machine
end

