-- ==== Sys2Proof/Machine/ImageCheck.lean ====
section
/-!
DEFINITION. Machine/ImageCheck.lean: the configuration image: its layout (R48–R61), the validation of phases B–E (R65), the settings
it holds, and those of the factory acceptance-test image (R509).
-/

namespace Sys2Proof.Machine

/-! ### Bytes and sections -/

/-- Bytes of an image slot: flash that staging did not program reads 0xFF. -/
def slotBytes : List (Nat × Byte) → Nat → Nat → List Byte
  | _, _, 0 => []
  | [], a, n + 1 => 0xFF :: slotBytes [] (a + 1) n
  | (k, v) :: cs, a, n + 1 => if k = a then v :: slotBytes cs (a + 1) n else 0xFF :: slotBytes ((k, v) :: cs) (a + 1) n

/-- A section directory entry (R49). -/
structure SectionEntry where
  type : Nat
  flags : Nat
  reserved : Nat
  offset : Nat
  length : Nat
  crc : Nat
deriving DecidableEq, Repr

/-- The directory of an image: `n` entries from 0x100 on. -/
def directoryOf (img : List Byte) (n : Nat) : List SectionEntry :=
  (List.range n).map fun i =>
    let e := sliceBytes img (0x100 + 16 * i) 16
    ⟨fieldOf e 0 2, fieldOf e 2 1, fieldOf e 3 1, fieldOf e 4 4, fieldOf e 8 4, fieldOf e 12 4⟩

/-- Bytes of a section. -/
def sectionBytes (img : List Byte) (e : SectionEntry) : List Byte := sliceBytes img e.offset e.length

/-- The section of a type; empty when there is none. -/
def sectionOf (img : List Byte) (dir : List SectionEntry) (ty : Nat) : List Byte :=
  match dir.find? fun e => e.type == ty with
  | some e => sectionBytes img e
  | none => []

/-- A section of a type is present. -/
def hasSection (dir : List SectionEntry) (ty : Nat) : Bool := dir.any fun e => e.type == ty

/-- A check that fails gives its code, else the checks after it decide. -/
def check (ok : Bool) (code rest : W16) : W16 := if ok then rest else code

/-! ### Phase B -/

/-- LENGTH equals the size of the section type table (R49, R51); the firmware sections have a range, which phase D checks (log 50). -/
def sectionSizeOk (img : List Byte) (e : SectionEntry) : Bool :=
  match e.type with
  | 1 => e.length == 64
  | 2 => e.length == 2560
  | 3 => e.length == 1024
  | 4 => e.length == 256
  | 5 => e.length == 16
  | 6 => e.length == 128
  | 7 => e.length == 16 + 16 * fieldOf img (e.offset + 4) 4
  | 8 => e.length == 16 + 16 * fieldOf img e.offset 4
  | 9 => e.length == 128
  | 10 => e.length == 32
  | _ => true

/-- A section starts and ends where R49 lets it. -/
def sectionPlaceOk (size count : Nat) (e : SectionEntry) : Bool :=
  e.offset % 64 == 0 && decide (0x100 + 16 * count ≤ e.offset) && decide (e.offset + e.length ≤ size - 256)

/-- No two sections overlap (R49). -/
def sectionsApart : List SectionEntry → Bool
  | [] => true
  | e :: es => es.all (fun f => decide (e.offset + e.length ≤ f.offset ∨ f.offset + f.length ≤ e.offset)) && sectionsApart es

/-- IMAGE_SIZE and SECTION_COUNT of a header, with room for the directory and the signature block (R48). -/
def headerSizeOk (head : List Byte) : Bool :=
  let size := fieldOf head 8 4
  let count := fieldOf head 12 2
  size % 64 == 0 && decide (size ≤ 32505856) && decide (10 ≤ count) && decide (count ≤ 64) && decide (512 + 16 * count ≤ size)

/-- Phase B (R65). -/
def phaseB (head img : List Byte) (dir : List SectionEntry) : W16 :=
  let size := fieldOf head 8 4
  let count := fieldOf head 12 2
  check (fieldOf head 0 4 == 0x49434B51) 0x1103
    (check (fieldOf head 4 1 == 1 && fieldOf head 6 2 == 0x0100) 0x1104
      (check (headerSizeOk head && dir.all (sectionPlaceOk size count) && sectionsApart dir && dir.all (sectionSizeOk img)) 0x1105
        (check (dir.all fun e => crc32c (sectionBytes img e) == e.crc) 0x1106 0)))

/-! ### Phase C -/

/-- The signature block (R50). -/
def signatureOf (img : List Byte) : List Byte := img.drop (img.length - 256)

/-- The signed message (R50). -/
def messageOf (img : List Byte) : List Byte := img.take (img.length - 256)

/-- A key slot is programmed and not revoked (R62). -/
def keySlotGood (b : BootBlock) (k : Nat) : Bool := (b.keyDigests.getD k none).isSome && !b.revoked.contains k

/-- Phase C (R62–R65). -/
def phaseC (b : BootBlock) (orderCode : Nat) (img : List Byte) : W16 :=
  let g := signatureOf img
  let k := fieldOf g 4 1
  check (fieldOf g 0 4 == 0x47534B51 && decide (k ≤ 3) && keySlotGood b k) 0x1107
    (check (b.keyDigests.getD k none == some (sha384 (sliceBytes g 8 96))) 0x1108
      (check (ecdsaVerifies (fieldOf g 0x08 48, fieldOf g 0x38 48) (sha384 (messageOf img)) (fieldOf g 0x68 48) (fieldOf g 0x98 48)) 0x1109
        (check (decide (fieldOf img 0x18 4 ≤ 64) && decide (b.minVersion ≤ fieldOf img 0x18 4)) 0x110A
          (check (bitOf (fieldOf img 0x0E 1) orderCode) 0x110B 0))))

/-! ### Phase D -/

/-- Every type of the table at most once, and the required ones present (R51). Another type may stand twice (log 78). -/
def sectionsPresent (dir : List SectionEntry) : Bool :=
  ((List.range 12).map (· + 1)).all fun ty =>
    let n := (dir.filter fun e => e.type == ty).length
    decide (n ≤ 1) && (decide (1 ≤ n) || ty == 7 || ty == 10)

/-- No section of another type is CRITICAL (R51). -/
def noUnknownCritical (dir : List SectionEntry) : Bool :=
  dir.all fun e => decide (1 ≤ e.type ∧ e.type ≤ 12) || !bitOf e.flags 0

/-- Reserved bytes of the entries of a table section: those at `rs` of each of its 16-byte entries. -/
def entriesZero (bs : List Byte) (rs : List (Nat × Nat)) : Bool :=
  (List.range ((bs.length - 16) / 16)).all fun i => rs.all fun r => zeroAt bs (16 + 16 * i + r.1) r.2

/-- Reserved bytes of GLOBAL_PEER, of enabled ports only (R57). -/
def peersZero (f : List Byte) : Bool :=
  (List.range 24).all fun i => !bitOf (fieldOf f 0 16) (47 + i) || zeroAt f (0x20 + 4 * i + 3) 1

/-- Reserved bytes and bits of PARTITIONS (R53). -/
def partitionsZero (p : List Byte) : Bool :=
  ((List.range 64).all fun i => zeroAt p (8 * i + 1) 1) &&
  (List.range 512).all fun n => bitsOf (fieldOf p (0x200 + 4 * n) 4) 29 28 == 0 && zeroAt p (0x200 + 4 * n) 1

/-- Reserved fields of the header, the directory, the signature block and every section (R7, R48–R61). -/
def reservedZero (img : List Byte) (dir : List SectionEntry) : Bool :=
  let g := signatureOf img
  let sec := sectionOf img dir
  bitsOf (fieldOf img 0x0E 1) 7 3 == 0 && bitsOf (fieldOf img 0x0F 1) 7 1 == 0 && zeroAt img 0x2C 212 &&
  dir.all (fun e => bitsOf e.flags 7 1 == 0 && e.reserved == 0) &&
  zeroAt g 5 3 && zeroAt g 0xC8 56 &&
  zeroAt (sec 1) 6 2 && zeroAt (sec 1) 0x10 48 && partitionsZero (sec 2) && zeroAt (sec 5) 6 2 &&
  bitsOf (fieldOf (sec 6) 0 16) 127 72 == 0 && zeroAt (sec 6) 0x11 15 && peersZero (sec 6) &&
  zeroAt (sec 7) 8 8 && entriesZero (sec 7) [(6, 2), (11, 1)] && zeroAt (sec 8) 4 12 && entriesZero (sec 8) [(14, 2)] &&
  bitsOf (fieldOf (sec 9) 2 1) 7 4 == 0 && zeroAt (sec 9) 3 5 && zeroAt (sec 9) 0x68 24 && zeroAt (sec 10) 6 10 && zeroAt (sec 10) 22 10

/-- MODULE in range (R52). -/
def moduleOk (m : List Byte) : Bool :=
  let count := fieldOf m 4 2
  decide (fieldOf m 0 2 < count) && decide (1 ≤ count) && decide (count ≤ 1024) && decide (fieldOf m 2 1 ≤ 47) &&
  decide (fieldOf m 3 1 ≤ 1) && fieldOf m 8 8 != 0

/-- POWER in range (R56). -/
def powerOk (p : List Byte) : Bool :=
  let sus := fieldOf p 0 2
  decide (1000 ≤ sus ∧ sus ≤ 3800) && decide (sus ≤ fieldOf p 2 2 ∧ fieldOf p 2 2 ≤ 4400) && decide (fieldOf p 4 2 ≤ 20) &&
  (List.range 4).all fun g => decide (6 ≤ fieldOf p (8 + 2 * g) 2 ∧ fieldOf p (8 + 2 * g) 2 ≤ 768)

/-- FABRIC in range (R57): CORD and CORD_COUNT of the MODULE section with it. -/
def fabricOk (cord count : Nat) (f : List Byte) : Bool :=
  let enable := fieldOf f 0 16
  decide (fieldOf f 0x10 1 ≤ 2) &&
  (List.range 24).all fun i => !bitOf enable (47 + i) ||
    (decide (count ≠ 1) && decide (fieldOf f (0x20 + 4 * i) 2 < count) && fieldOf f (0x20 + 4 * i) 2 != cord &&
     decide (fieldOf f (0x20 + 4 * i + 2) 1 ≤ 47))

/-- SECURITY in range (R60): the key slot of the signature, and PORT_ENABLE. -/
def securityOk (keySlot enable : Nat) (s : List Byte) : Bool :=
  decide (fieldOf s 0 1 ≤ 1) && decide (fieldOf s 1 1 ≤ 2) && !bitOf (fieldOf s 2 1) keySlot &&
  (enable == 0 || fieldOf s 8 96 != 0) && !(fieldOf s 1 1 == 2 && fieldOf s 0 1 == 1)

/-- ADMITTED in range (R61). -/
def admittedOk (a : List Byte) : Bool :=
  [0, 16].all fun k => decide (fieldOf a k 1 ≤ 2) && decide (fieldOf a (k + 1) 1 ≤ 1)

/-- The fields of 0x110F: MODULE, POWER, FABRIC, SECURITY, ADMITTED, and the sizes of TALLY_FW and MGMT_FW. -/
def fieldsOk (img : List Byte) (dir : List SectionEntry) : Bool :=
  let sec := sectionOf img dir
  moduleOk (sec 1) && powerOk (sec 5) && fabricOk (fieldOf (sec 1) 0 2) (fieldOf (sec 1) 4 2) (sec 6) &&
  securityOk (fieldOf (signatureOf img) 4 1) (fieldOf (sec 6) 0 16) (sec 9) && admittedOk (sec 10) &&
  decide (65536 ≤ (sec 11).length ∧ (sec 11).length ≤ 8388608) && decide (65536 ≤ (sec 12).length ∧ (sec 12).length ≤ 4194304)

/-- BenchState codes of an image (R53). -/
def benchStateOf (n : Nat) : BenchState :=
  match n with
  | 1 => .active
  | 2 => .standby
  | 3 => .quarantined
  | _ => .idle

/-- Entries of the PARTITIONS section (R53). -/
def partitionAt (p : List Byte) (i : Nat) : PartitionEntry :=
  { valid := fieldOf p (8 * i) 1 == 1, roleCount := fieldOf p (8 * i + 2) 2, deckQuota := fieldOf p (8 * i + 4) 4 }
def benchAt (p : List Byte) (n : Nat) : BenchEntry :=
  let w := fieldOf p (0x200 + 4 * n) 4
  { state := benchStateOf (bitsOf w 31 30)
    role := if bitsOf w 27 16 = 0xFFF then none else some (bitsOf w 27 16)
    partition := if bitsOf w 15 8 = 0xFF then none else some (bitsOf w 15 8) }

/-- One bench of the PARTITIONS section (R26, R53). -/
def benchEntryOk (parts : Nat → PartitionEntry) (e : BenchEntry) : Bool :=
  match e.partition with
  | none => decide (e.state = .idle) && e.role.isNone
  | some p =>
    decide (e.state ≠ .idle) && decide (p < 64) && (parts p).valid &&
    (if e.state = .active then e.role.any fun r => decide (r < (parts p).roleCount) else e.role.isNone)

/-- PARTITIONS keeps R26 and R53. ROLE_COUNT is checked of defined partitions only, and the DECK_QUOTA of all 64 entries is summed (log 50). -/
def partitionsOk (p : List Byte) : Bool :=
  let parts := partitionAt p
  let benches := (List.range 512).map (benchAt p)
  let holders (i r : Nat) : Nat := (benches.filter fun e => e.partition == some i && e.role == some r).length
  let valid := (List.range 64).filter fun i => (parts i).valid
  ((List.range 64).all fun i => decide (fieldOf p (8 * i) 1 ≤ 1)) && !valid.isEmpty &&
  valid.all (fun i => decide (1 ≤ (parts i).roleCount ∧ (parts i).roleCount ≤ 512)) &&
  benches.all (benchEntryOk parts) &&
  valid.all (fun i => (List.range (parts i).roleCount).all fun r => holders i r == 1) &&
  decide ((List.range 64).foldl (fun n i => n + (parts i).deckQuota) 0 ≤ 65536)

/-- RINGS keeps R26 and R54. -/
def ringsOk (p r : List Byte) : Bool :=
  ((List.range 1024).all fun n => fieldOf r n 1 == 0xFF || (decide (fieldOf r n 1 < 64) && (partitionAt p (fieldOf r n 1)).valid)) &&
  (List.range 64).all fun i => !(partitionAt p i).valid || (List.range 1024).any fun n => fieldOf r n 1 == i

/-- KERF_ROLES keeps R55. -/
def kerfRolesOk (k : List Byte) : Bool :=
  let role (e b : Nat) : Nat := fieldOf k (32 * e + b) 1
  ((List.range 4).all fun e =>
    ((List.range 4).all fun b => role e b == 1) &&
    (((List.range 28).map (· + 4)).all fun b => role e b == 0 || role e b == 2 || role e b == 3) &&
    decide (4 ≤ (((List.range 28).map (· + 4)).filter fun b => role e b == 3).length)) &&
  ((List.range 4).map (· + 4)).all fun e => (List.range 32).all fun b => role e b == 0 || role e b == 4

/-- The slot table of an image; an absent section is an empty table (R58). -/
def slotTableOf (t : List Byte) : Option SlotTable :=
  match readSlotEntries ((t.length - 16) / 16) (t.drop 16) with
  | some es => some { period := fieldOf t 0 4, entries := es }
  | none => none

/-- A region attribute entry (R59), and whether its own fields are in range. -/
def regionAt (t : List Byte) (i : Nat) : RegionEntry :=
  let e := sliceBytes t (16 + 16 * i) 16
  { base := fieldOf e 0 8, granules := fieldOf e 8 4, tiered := fieldOf e 12 1 == 1, posted := fieldOf e 13 1 == 1 }
def regionOk (t : List Byte) (i : Nat) : Bool :=
  let r := regionAt t i
  let stop := r.base + r.granules * stakeSize
  decide (fieldOf t (16 + 16 * i + 12) 1 ≤ 1) && decide (fieldOf t (16 + 16 * i + 13) 1 ≤ 1) && r.base % stakeSize == 0 && decide (1 ≤ r.granules) &&
  (if r.tiered then decide (stop ≤ apertureSize)
   else decide (stop ≤ nearSize) || (decide (bulkBase ≤ r.base) && decide (stop ≤ bulkBase + bulkSize)))

/-- Entries sorted by SPACE and BASE, none overlapping (R59). -/
def regionsRise : List RegionEntry → Bool
  | a :: b :: rs =>
    ((!a.tiered && b.tiered) || (a.tiered == b.tiered && decide (a.base + a.granules * stakeSize ≤ b.base))) && regionsRise (b :: rs)
  | [_] | [] => true

/-- Entries of REGION_ATTR. -/
def regionsOf (t : List Byte) : List RegionEntry := (List.range ((t.length - 16) / 16)).map (regionAt t)

/-- REGION_ATTR keeps R59. -/
def regionsOk (t : List Byte) : Bool :=
  decide (fieldOf t 0 4 ≤ 256) && (List.range ((t.length - 16) / 16)).all (regionOk t) && regionsRise (regionsOf t)

/-- SLOT_TABLE keeps R58. -/
def imageSlotsOk (img : List Byte) (dir : List SectionEntry) : Bool :=
  let m := sectionOf img dir 1
  !hasSection dir 7 ||
  match slotTableOf (sectionOf img dir 7) with
  | some t => slotTableOk (48 * fieldOf m 0 2 + fieldOf m 2 1) (48 * fieldOf m 4 2) (fieldOf (sectionOf img dir 6) 0 16) t
  | none => false

/-- Phase D (R65). -/
def phaseD (img : List Byte) (dir : List SectionEntry) : W16 :=
  let sec := sectionOf img dir
  check (sectionsPresent dir) 0x110C
    (check (noUnknownCritical dir) 0x110D
      (check (reservedZero img dir) 0x110E
        (check (fieldsOk img dir) 0x110F
          (check (partitionsOk (sec 2) && ringsOk (sec 2) (sec 3)) 0x1110
            (check (kerfRolesOk (sec 4)) 0x1111
              (check (imageSlotsOk img dir) 0x1112
                (check (regionsOk (sec 8)) 0x1113 0)))))))

/-! ### Settings -/

/-- A Kerf role code (R55). -/
def kerfRoleOf (n : Nat) : KerfRole :=
  match n with
  | 1 => .hub
  | 2 => .hubOverflow
  | 3 => .bulk
  | 4 => .direct
  | _ => .off

/-- An ADMITTED entry (R61). -/
def admittedAt (a : List Byte) (k : Nat) : AdmittedEntry :=
  { cls := fieldOf a (16 * k) 1, failStart := fieldOf a (16 * k + 1) 1 == 1, vendor := fieldOf a (16 * k + 2) 2
    device := fieldOf a (16 * k + 4) 2 }

/-- The settings an image holds (R48–R61). -/
def settingsOf (img : List Byte) (dir : List SectionEntry) : Settings :=
  let sec := sectionOf img dir
  let tally := sha384 (sec 11)
  let mgmt := sha384 (sec 12)
  { imageId := fieldOf img 0x10 8, securityVersion := fieldOf img 0x18 4, featureRequire := fieldOf img 0x1C 4
    variants := fieldOf img 0x0E 1, advanceMinimum := bitOf (fieldOf img 0x0F 1) 0, buildTime := fieldOf img 0x20 8
    beyntax := fieldOf img 0x28 4, formatMinor := fieldOf img 5 1, keySlot := fieldOf (signatureOf img) 4 1
    cord := fieldOf (sec 1) 0 2, seat := fieldOf (sec 1) 2 1, mladyth := fieldOf (sec 1) 3 1 == 1, cordCount := fieldOf (sec 1) 4 2
    systemId := fieldOf (sec 1) 8 8
    partitions := tableOf {} 64 (partitionAt (sec 2)), benches := tableOf {} 512 (benchAt (sec 2))
    rings := tableOf 0 1024 (fun n => if fieldOf (sec 3) n 1 = 0xFF then 0 else fieldOf (sec 3) n 1 + 1)
    kerfRoles := tableOf .off 256 (fun i => kerfRoleOf (fieldOf (sec 4) i 1))
    sustainedW := fieldOf (sec 5) 0 2, peakW := fieldOf (sec 5) 2 2, peakMs := fieldOf (sec 5) 4 2
    groveQuanta := (List.range 4).map (fun g => fieldOf (sec 5) (8 + 2 * g) 2)
    portEnable := fieldOf (sec 6) 0 16, timeRole := fieldOf (sec 6) 0x10 1
    globalPeers := (List.range 24).map (fun i => (fieldOf (sec 6) (0x20 + 4 * i) 2, fieldOf (sec 6) (0x20 + 4 * i + 2) 1))
    peerReserved := (List.range 24).map (fun i => fieldOf (sec 6) (0x20 + 4 * i + 3) 1)
    slotTable := if hasSection dir 7 then (slotTableOf (sec 7)).getD {} else {}
    regions := regionsOf (sec 8)
    sealing := fieldOf (sec 9) 0 1 == 1, injection := fieldOf (sec 9) 1 1, revokeMask := fieldOf (sec 9) 2 1
    authority := (fieldOf (sec 9) 8 48, fieldOf (sec 9) 0x38 48)
    admitted := [admittedAt (sec 10) 0, admittedAt (sec 10) 1]
    tallyFwVersion := (Config.firmwareVersion tally).toNat, mgmtFwVersion := (Config.firmwareVersion mgmt).toNat
    tallyFwDigest := tally, mgmtFwDigest := mgmt, messageDigest := sha384 (messageOf img) }

/-- The Kerf roles of the factory image (R509), by edge × 32 + bundle. -/
def factoryKerfRole (i : Nat) : KerfRole :=
  if 128 ≤ i then .direct
  else if i % 32 < 4 then .hub
  else if i % 32 < 8 then .hubOverflow
  else .bulk

/-- The ADMITTED section of the factory image (R508, R509). -/
def factoryAdmitted (p : Part) : List AdmittedEntry :=
  match p.orderCode with
  | 1 => List.replicate 2 { cls := 1, vendor := p.vendor, device := 0x0E01 }
  | 2 => List.replicate 2 { cls := 2, vendor := p.customer.1, device := p.customer.2 }
  | _ => [{}, {}]

/-- The settings of the factory acceptance-test image (R509). What R509 does not state of it is in Config, but for FEATURE_REQUIRE, which is
taken as 0, so that the image runs on every part it is shipped with (log 50). -/
def factorySettings (p : Part) : Settings :=
  { imageId := (Config.factoryWord 0).toNat, buildTime := (Config.factoryWord 1).toNat
    beyntax := (Config.factoryWord 2).toNat % 2 ^ 32, formatMinor := (Config.factoryWord 3).toNat % 256
    variants := 2 ^ p.orderCode, systemId := p.factorySystemId
    partitions := tableOf {} 1 (fun _ => { valid := true, roleCount := 512, deckQuota := 65536 })
    benches := tableOf {} 512 (fun n => { state := .active, role := some n, partition := some 0 })
    rings := tableOf 0 1024 (fun _ => 1)
    kerfRoles := tableOf .off 256 factoryKerfRole
    sustainedW := 3800, peakW := 4400, peakMs := 20, groveQuanta := [768, 768, 768, 768]
    timeRole := 2, globalPeers := List.replicate 24 (0, 0), injection := 1, admitted := factoryAdmitted p
    tallyFwVersion := (Config.firmwareVersion (Config.factoryDigest 0)).toNat
    mgmtFwVersion := (Config.firmwareVersion (Config.factoryDigest 1)).toNat
    tallyFwDigest := Config.factoryDigest 0, mgmtFwDigest := Config.factoryDigest 1, messageDigest := Config.factoryDigest 2 }

/-! ### Validation -/

/-- What phases B–D make of a slot: the code, the IMAGE_ID of a readable header, and the settings. -/
structure ImageResult where
  code : W16
  imageId : Nat := 0
  settings : Settings := {}
deriving DecidableEq, Repr

/-- Phases B–D over the bytes of a slot. -/
def checkBytes (b : BootBlock) (orderCode : Nat) (cells : List (Nat × Byte)) : ImageResult :=
  let head := slotBytes cells 0 256
  let size := if headerSizeOk head then fieldOf head 8 4 else 256
  let img := slotBytes cells 0 size
  let dir := directoryOf img (fieldOf head 12 2)
  let code := match phaseB head img dir with
    | 0 => match phaseC b orderCode img with
      | 0 => phaseD img dir
      | c => c
    | c => c
  { code := code, imageId := if fieldOf head 0 4 = 0x49434B51 then fieldOf head 0x10 8 else 0
    settings := if code = 0 then settingsOf img dir else {} }

/-- The factory image is well formed, and the fuses alone can refuse it (R62, R63). -/
def checkFactory (b : BootBlock) (p : Part) : ImageResult :=
  let c := factorySettings p
  let code := check (keySlotGood b 0) 0x1107 (check (decide (b.minVersion ≤ 0)) 0x110A 0)
  { code := code, imageId := c.imageId, settings := if code = 0 then c else {} }

/-- Contents of an image slot. -/
def slotContents (b : BootBlock) (slot : Nat) : SlotContents := if slot = 0 then b.slot0 else b.slot1

/-- Phases B–D of a slot (R65). -/
def checkSlot (b : BootBlock) (p : Part) (slot : Nat) : ImageResult :=
  match slotContents b slot with
  | .erased => { code := 0x1103 }
  | .factory => checkFactory b p
  | .staged t => checkBytes b p.orderCode t.cells

/-- CLASS of an admission record (R353). -/
def recordClass (f : SiteFound) : Option Nat := f.record.map fun r => fieldOf r 0 1

/-- A site mismatches its entry (R61). -/
def siteMismatch (e : AdmittedEntry) (f : SiteFound) : Bool :=
  if e.cls = 0 then f.present
  else !f.present || f.vendor != e.vendor || f.device != e.device || (recordClass f).any fun c => c != e.cls

/-- The feature word of a grove of a stepping (R81), and the common feature level of feature words (R80). -/
def featureWord (stepping : Nat) : Nat := if stepping = 0xB1 then 7 else 1
def commonLevel (words : List Nat) : Nat := words.foldl (fun a w => a &&& w) 7

/-- Phase E (R65), against a common feature level and what the sites show. -/
def phaseE (level : Nat) (sites : List SiteFound) (c : Settings) : W16 :=
  check (c.featureRequire &&& (2 ^ 32 - 1 - level) == 0) 0x1114
    (check (!(List.range 2).any fun k =>
      let e := c.admitted.getD k {}
      e.failStart && siteMismatch e (sites.getD k {})) 0x1115 0)

/-- Phases B–E of a slot. -/
def validateSlot (b : BootBlock) (p : Part) (level : Nat) (sites : List SiteFound) (slot : Nat) : ImageResult :=
  let r := checkSlot b p slot
  if r.code = 0 then { r with code := phaseE level sites r.settings } else r

end Sys2Proof.Machine
end

