-- ==== Sys2Proof/Machine/Protect.lean ====
section
/-!
DEFINITION. Machine/Protect.lean: fault batches and their answers (R297–R299), the withdrawal of translations (R300), stake commands
(R304, R305), operand cache invalidations (R331). The enclave operations stand in Machine/Enclave.lean.
-/

namespace Sys2Proof.Machine

/-! ### Walks and batches -/

/-- The waiter of a walk that goes on, by ring and sequence number (R298). -/
def walkingOf (s : State) (r seq : Nat) : Option HeldFault := s.tu.walking.find? fun h => h.waiter.ring == r && h.waiter.seq == seq

/-- The grove whose translation cache serves a waiter. -/
def waiterGrove (s : State) (w : FaultWaiter) : Nat :=
  match findTask s w.ring w.seq with
  | some t => t.grove
  | none => homeGrove w.ring

/-- The end of the walk that a RETRY started: the waiter resumes, enters the open batch anew, or ends (R290, R294, R298, R299). -/
def walkDone (h : HeldFault) (s0 : State) : State :=
  let s := { s0 with tu := { s0.tu with walking := s0.tu.walking.filter fun x => x != h } }
  match walk h.context (h.page * 4096) h.waiter.write s with
  | (.failed code _, t) => failWaiter code h.waiter t
  | (.batch cause level, t) =>
    if t.tu.fbEnable then enterFault { h with cause := cause, level := level } t else failWaiter 0x5106 h.waiter t
  | (.leaf pte level, t) =>
    let n := leafPages pte level
    let g := waiterGrove s h.waiter
    let e : TlbEntry := ⟨some g, h.context, h.page / n * n, n, pte⟩
    resumeWaiter h.waiter { t with tu := keepLeaf (some g) e (keepLeaf none e t.tu) }

/-- PAGE_WALK_DONE (R290, R298): the walk of a waiter that RETRY set going ends. The walk of a first access ends within the access. -/
def execPageWalkDone (r seq : Nat) (s : State) : Answer :=
  match walkingOf s r seq with
  | some h => .next (walkDone h s)
  | none => .next s

/-- BATCH_TIMER_CLOSE (R297). -/
def execBatchTimerClose (s : State) : Answer := .next (closeBatch .time s)

/-- FLUSH (R297). -/
def execFlush (s : State) : Answer := .next (closeBatch .flush s)

/-- The RESPONSE byte of an entry of a slot (R295, R298): RETRY reads 0; a byte that cannot be read counts as FAIL. -/
def responseRetry (s : State) (slot i : Nat) : Bool :=
  match (physRead { agent := .transUnit, context := 1 } (s.tu.fbBase + slot * 0x8000 + 0x4000 + i) 1 s).1 with
  | .done bs => natOfBytes bs == 0
  | .fail _ _ | .wait => false

/-- The waiters of an entry go back to the walk (R298). -/
def retryEntry (e : FaultEntry) (s : State) : State :=
  { s with tu := { s.tu with walking := s.tu.walking ++ e.waiters.map fun w => ⟨e.page, e.context, e.cause, e.level, w⟩ } }

/-- The waiters of an entry end with a code (R298, R299). -/
def failEntry (code : W16) (e : FaultEntry) (s : State) : State := e.waiters.foldl (fun s w => failWaiter code w s) s

/-- A delivered slot freed; the faults that waited for one enter (R297, R298). -/
def freeBatch (slot : Nat) (s : State) : State :=
  enterHeld { s with tu := { s.tu with delivered := s.tu.delivered.filter fun b => b.slot != slot } }

/-- The answer to a delivered batch, entry by entry (R298). -/
def answerBatch (b : FaultBatch) (s : State) : State :=
  let s1 := b.entries.zipIdx.foldl (fun t e => if responseRetry s b.slot e.2 then retryEntry e.1 t else failEntry 0x5101 e.1 t) s
  freeBatch b.slot s1

/-- A write of TU_FB_DONE (R298): ignored unless SEQ matches the slot's delivered batch. -/
def tuFbDoneWrite (v : W64) (s : State) : State :=
  let slot := bitsOf v.toNat 2 0
  match s.tu.delivered.find? fun b => b.slot == slot && b.sequence % 65536 == bitsOf v.toNat 18 3 with
  | some b => answerBatch b s
  | none => s

def execTuFbDone (v : W64) (s : State) : Answer := .next (tuFbDoneWrite v s)

/-- BATCH_ANSWER_TIMEOUT (R299). -/
def batchTimeout (slot : Nat) (s : State) : State :=
  match s.tu.delivered.find? fun b => b.slot == slot with
  | some b => freeBatch slot (b.entries.foldl (fun s e => failEntry 0x5104 e s) s)
  | none => s

def execBatchAnswerTimeout (slot : Nat) (s : State) : Answer := .next (batchTimeout slot s)

/-- A write of TU_CTX_BASE (R312): BASE is ignored while ENABLE is 1; ENABLE is set by a 1. -/
def tuCtxBaseWrite (v : W64) (s : State) : State :=
  { s with tu := { s.tu with
    ctxBase := if s.tu.ctxEnable then s.tu.ctxBase else bitsOf v.toNat 51 20 * 0x100000
    ctxEnable := s.tu.ctxEnable || v.getLsbD 0 } }

def execTuCtxEnable (v : W64) (s : State) : Answer := .next (tuCtxBaseWrite v s)

/-- A write of TU_FB_BASE (R312). -/
def tuFbBaseWrite (v : W64) (s : State) : State :=
  { s with tu := { s.tu with
    fbBase := if s.tu.fbEnable then s.tu.fbBase else bitsOf v.toNat 51 18 * 0x40000
    fbEnable := s.tu.fbEnable || v.getLsbD 0 } }

def execTuFbEnable (v : W64) (s : State) : Answer := .next (tuFbBaseWrite v s)

/-! ### Withdrawing translations (R300) -/

/-- Whether two ranges of pages meet. -/
def pagesMeet (a n b m : Nat) : Bool := decide (a < b + m ∧ b < a + n)

/-- Whether an invalidation names pages of a context. -/
def invalNames (x : InvalScope) (context vpn pages : Nat) : Bool :=
  match x with
  | .all => true
  | .context c => c == context
  | .range c v n => c == context && pagesMeet v n vpn pages

/-- Every matching entry of every translation cache dropped. -/
def dropTranslations (x : InvalScope) (tu : TuBlock) : TuBlock :=
  { tu with
    groveCache := tu.groveCache.filter fun e => !invalNames x e.context e.vpn e.pages
    sharedCache := tu.sharedCache.filter fun e => !invalNames x e.context e.vpn e.pages
    walkCache := tu.walkCache.filter fun e => !invalNames x e.context (e.vpnPrefix * 2 ^ (9 * e.level)) (2 ^ (9 * e.level)) }

/-- An invalidation issues: the accesses that wait at pages it names complete against the old frames, before it drains (R300). -/
def issueInval (x : InvalScope) (tu : TuBlock) : TuBlock :=
  let n := wrapAdd 32 tu.invalIssued 1
  dropTranslations x { tu with
    invalIssued := n
    invals := tu.invals ++ [x]
    accepted := tu.accepted.map fun p =>
      if p.data.isNone ∧ invalNames x p.context (p.at_ / 4096) 1 then { p with holds := p.holds ++ [n] } else p }

/-- Whether an access that was accepted before an invalidation, by number, is still to complete (R300). -/
def invalHeld (s : State) (n : Nat) : Bool := s.tu.accepted.any fun p => p.data.isNone && p.holds.contains n && stillWaits s p.waiter

/-- The invalidation a write of TU_INVAL asks for; none for a write that is ignored (R300, R312). -/
def invalOf (tu : TuBlock) (v : W64) : Option InvalScope :=
  let c := bitsOf v.toNat 47 32
  let pages := bitsOf v.toNat 19 0
  match bitsOf v.toNat 29 28 with
  | 0 => some .all
  | 1 => some (.context c)
  | 2 => if pages = 0 then none else some (.range c (tu.invalAddr / 4096) pages)
  | _ => none

/-- A write of TU_INVAL: whether it is acknowledged, and its effect; the seventeenth waits (R300). -/
def tuInvalWrite (w : RegWriter) (v : W64) (s : State) : Bool × State :=
  match invalOf s.tu v with
  | none => (true, s)
  | some x =>
    if s.tu.invals.length < 16 then (true, { s with tu := issueInval x s.tu })
    else (false, { s with tu := { s.tu with invalWaiting := s.tu.invalWaiting ++ [(x, w)] } })

/-- TU_INVAL (R300). -/
def execTuInval (v : W64) (s : State) : Answer := .next (tuInvalWrite .nobody v s).2

/-- The oldest invalidation has drained, unless an access it must wait for goes on: DONE advances, a waiting write issues (R300). Also the
writer it acknowledges. -/
def invalDrained (s : State) : Option RegWriter × State :=
  match s.tu.invals with
  | [] => (none, s)
  | _ :: rest =>
    if invalHeld s (wrapAdd 32 s.tu.invalDone 1) then (none, s) else
    let tu := { s.tu with invals := rest, invalDone := wrapAdd 32 s.tu.invalDone 1 }
    match tu.invalWaiting with
    | [] => (none, { s with tu := tu })
    | (x, w) :: ws => (some w, { s with tu := issueInval x { tu with invalWaiting := ws } })

/-- INVALIDATION_DRAIN_DONE (R300). -/
def execInvalidationDrainDone (s : State) : Answer :=
  let r := invalDrained s
  .next (releaseWriter r.1 r.2)

/-! ### Stake commands (R304, R305) -/

/-- The indices of a command's stakes. -/
def stakeRange (addr count : Nat) : List Nat := (List.range count).map (· + stakeIndex addr)

/-- The entry of a stake by index. -/
def stakeEntry (s : State) (i : Nat) : Stake := s.stakes.table.get {} i

/-- Stakes changed by a function. -/
def updStakes (f : Stake → Stake) (is : List Nat) (s : State) : State :=
  { s with stakes := { s.stakes with table := is.foldl (fun t i => t.update {} i f) s.stakes.table } }

/-- The operand cache lines of stakes dropped in every grove, and their lines in the system cache (R305). -/
def dropStakeLines (is : List Nat) (s : State) : State :=
  let within (line : Nat) : Bool := nearOrBulk (line * 512) && is.contains (stakeIndex (line * 512))
  { s with
    opLines := s.opLines.filter fun l => !within l.line
    landing := { s.landing with systemCache := s.landing.systemCache.filter fun c => !within c } }

/-- An ASSIGN in progress takes effect (R304). -/
def carryAssign (s : State) : State :=
  match s.stakes.work with
  | .assign first count owner =>
    let s1 := updStakes (fun _ => { owner := owner, state := .owned }) ((List.range count).map (· + first)) s
    { s1 with stakes := { s1.stakes with work := .none, busy := false } }
  | .none | .release _ => s

/-- A RELEASE of stakes begins (R305). -/
def beginRelease (is : List Nat) (s0 : State) : State :=
  let s := carryAssign s0
  let old := match s.stakes.work with
    | .release js => js
    | .none | .assign _ _ _ => []
  let s1 := dropStakeLines is (updStakes (fun k => { k with state := .releasing }) is s)
  { s1 with stakes := { s1.stakes with busy := true, work := .release (old ++ is) } }

/-- The stakes a context owns. -/
def ownedStakes (s : State) (c : Nat) : List Nat :=
  (s.stakes.table.cells.filter fun k => decide (k.2.state = .owned) && k.2.owner == c).map (·.1)

/-- A context unsealed, its key destroyed, its stakes released (R304, R310). -/
def unsealContext (c : Nat) (s : State) : State :=
  let s1 := beginRelease (ownedStakes (carryAssign s) c) s
  { s1 with stakes := { s1.stakes with sealedContexts := s1.stakes.sealedContexts.filter fun x => x.context != c } }

/-- RESULT of a command. -/
def stakeResult (code : W16) (s : State) : State := { s with stakes := { s.stakes with result := code } }

/-- A stake command's range check, which comes before every other (R304). -/
def stakeRangeOk (s : State) (count : Nat) : Bool := rangeNearOrBulk s.stakes.addr (count * stakeSize)

/-- ASSIGN (R304): it takes effect when STAKE_ASSIGN_DONE says so. -/
def stakeAssign (owner count : Nat) (s : State) : State :=
  if !stakeRangeOk s count then stakeResult 0x5304 s
  else if (stakeRange s.stakes.addr count).any fun i => decide ((stakeEntry s i).state ≠ .free) then stakeResult 0x5301 s
  else if owner < 2 ∨ 0xFFF1 < owner then stakeResult 0x5303 s
  else stakeResult 0 { s with stakes := { s.stakes with busy := true, work := .assign (stakeIndex s.stakes.addr) count owner } }

/-- RELEASE (R304, R305). -/
def stakeRelease (count : Nat) (s : State) : State :=
  if !stakeRangeOk s count then stakeResult 0x5304 s
  else if (stakeRange s.stakes.addr count).any fun i => decide ((stakeEntry s i).state ≠ .owned) then stakeResult 0x5302 s
  else stakeResult 0 (beginRelease (stakeRange s.stakes.addr count) s)

/-- REVOKE_SEAL (R304). -/
def stakeRevoke (owner count : Nat) (s : State) : State :=
  if !stakeRangeOk s count then stakeResult 0x5304 s
  else if !isSealed s owner then stakeResult 0x5305 s
  else stakeResult 0 (unsealContext owner s)

/-- A write of STAKE_CMD is ignored: COUNT 0, or BUSY (R304). -/
def stakeIgnored (v : W64) (s : State) : Bool := bitsOf v.toNat 19 0 == 0 || s.stakes.busy

/-- OWNER and COUNT of STAKE_CMD (R312). -/
def cmdOwner (v : W64) : Nat := bitsOf v.toNat 47 32
def cmdCount (v : W64) : Nat := bitsOf v.toNat 19 0

def execAssign (v : W64) (s : State) : Answer :=
  .next (if stakeIgnored v s then s else stakeAssign (cmdOwner v) (cmdCount v) s)

def execRelease (v : W64) (s : State) : Answer := .next (if stakeIgnored v s then s else stakeRelease (cmdCount v) s)

def execRevokeSeal (v : W64) (s : State) : Answer :=
  .next (if stakeIgnored v s then s else stakeRevoke (cmdOwner v) (cmdCount v) s)

/-- A write of STAKE_CMD by its OP (R304, R312). -/
def stakeCmdWrite (v : W64) (s : State) : State :=
  if stakeIgnored v s then s
  else match bitsOf v.toNat 63 60 with
    | 1 => stakeAssign (cmdOwner v) (cmdCount v) s
    | 2 => stakeRelease (cmdCount v) s
    | 3 => stakeRevoke (cmdOwner v) (cmdCount v) s
    | _ => s

/-- STAKE_ASSIGN_DONE (R304). -/
def execStakeAssignDone (s : State) : Answer := .next (carryAssign s)

/-- Whether a stake is zeroed as it is released: sealed, or owned by DECK or TIER (R305). -/
def zeroedAtRelease (k : Stake) : Bool := k.sealed || k.owner == 0xFFF0 || k.owner == 0xFFF1

/-- Stakes that become FREE, zeroed where R305 says so. -/
def freeStakes (is : List Nat) (s : State) : State :=
  let zero (t : State) (i : Nat) : State :=
    let u := zeroRange (stakeAddr i) stakeSize t
    { u with decks := u.decks.mapListed {} fun _ d => zeroTables (stakeAddr i) stakeSize d }
  let s1 := is.foldl (fun t i => if zeroedAtRelease (stakeEntry s i) then zero t i else t) s
  updStakes (fun _ => {}) is s1

/-- Whether a migration that is copying uses a stake: its frame, or its home (R314). -/
def migrationUses (s : State) (i : Nat) : Bool :=
  s.tier.inProgress.any fun m =>
    (match frameOf s m.ashlar with
     | some f => stakeIndex (frameAddr s f) == i
     | none => false) ||
    (m.frame.isSome || !m.repair.isEmpty) && match servingObject s m.ashlar with
      | some (_, o) => nearOrBulk (homeAddr o m.ashlar) && stakeIndex (homeAddr o m.ashlar) == i
      | none => false

/-- Whether a Deck operation on a stake goes on: the zeroing of an area, a scrub, or a READ, WRITE or Dresser run that took effect on a
sequence with a page there (R214, R314). -/
def deckUses (s : State) (i : Nat) : Bool :=
  s.decks.cells.any fun c =>
    let u := c.2
    let here (pa n : Nat) : Bool := decide (pa < stakeAddr i + stakeSize ∧ stakeAddr i < pa + n)
    (u.zeroing && here u.areaBase (areaBytes u)) ||
    u.seqs.cells.any fun e => (decide (e.2.state = .scrubbing) || seqInUse s c.1 e.1) &&
      e.2.pages.any fun p => here (pageAddr u p) (2 ^ u.pageLog2)

/-- STAKE_RELEASE_DONE (R305): not while a migration or a Deck operation on one of the stakes goes on (R314). -/
def stakeReleaseDone (s : State) : State :=
  match s.stakes.work with
  | .release is =>
    if is.any fun i => migrationUses s i || deckUses s i then s
    else
      let s1 := freeStakes is s
      { s1 with stakes := { s1.stakes with busy := false, work := .none } }
  | .none | .assign _ _ _ => s

def execStakeReleaseDone (s : State) : Answer := .next (stakeReleaseDone s)

/-! ### Operand cache invalidations (R330, R331) -/

/-- The lines an invalidation names; none for every line. -/
def opRangeHas (x : Option (Nat × Nat)) (line : Nat) : Bool :=
  match x with
  | none => true
  | some (first, n) => decide (first ≤ line ∧ line < first + n)

/-- An invalidation issues: its lines are dropped. -/
def issueOpInval (g : Nat) (x : Option (Nat × Nat)) (s : State) : State :=
  { s with
    opLines := s.opLines.filter fun l => !(l.grove == g && opRangeHas x l.line)
    opRegs := s.opRegs.update {} g fun r => { r with issued := wrapAdd 32 r.issued 1, held := r.held ++ [x] } }

/-- A write of OPCACHE_INVAL: whether it is acknowledged, and its effect; the ninth waits (R331). -/
def opcacheInvalWrite (w : RegWriter) (g : Nat) (v : W64) (s : State) : Bool × State :=
  let r := s.opRegs.get {} g
  let units := bitsOf v.toNat 31 0
  let all := v.getLsbD 63
  if !all && units == 0 then (true, s)
  else
    let x := if all then none else some (r.base / 512, units * 128)
    if r.held.length < 8 then (true, issueOpInval g x s)
    else (false, { s with opRegs := s.opRegs.set {} g { r with waiting := r.waiting ++ [(x, w)] } })

def execOpcacheInval (g : Nat) (v : W64) (s : State) : Answer :=
  .next (if g < 4 then (opcacheInvalWrite .nobody g v s).2 else s)

/-- The oldest invalidation of a grove is complete: every line of its range has been dropped, those filled since it issued too, DONE
advances, a waiting write issues (R331). Also the writer it acknowledges. -/
def opInvalDone (g : Nat) (s : State) : Option RegWriter × State :=
  let r := s.opRegs.get {} g
  match r.held with
  | [] => (none, s)
  | x :: rest =>
    let s := { s with opLines := s.opLines.filter fun l => !(l.grove == g && opRangeHas x l.line) }
    let r1 := { r with held := rest, done := wrapAdd 32 r.done 1 }
    match r1.waiting with
    | [] => (none, { s with opRegs := s.opRegs.set {} g r1 })
    | (x, w) :: ws => (some w, issueOpInval g x { s with opRegs := s.opRegs.set {} g { r1 with waiting := ws } })

/-- OPCACHE_INVAL_DONE (R331). -/
def execOpcacheInvalDone (g : Nat) (s : State) : Answer :=
  let r := opInvalDone g s
  .next (releaseWriter r.1 r.2)

end Sys2Proof.Machine
end

