-- ==== Sys2Proof/Machine/Enclave.lean ====
section
/-!
DEFINITION. Machine/Enclave.lean: the SPDM responder (R442, R443) and the enclave operations (R306, R310, R368, R444).
What DSP0274 fixes of a message (codes, the order of requests) is PRESUMED (log 30); a response holds its code, its parameters and the
content that the spec states.
-/

namespace Sys2Proof.Machine

/-! ### Messages -/

/-- An SPDM response (R442, DSP0274): version, code, two parameters, payload. -/
def spdmMessage (code p1 p2 : Nat) (payload : List Byte) : List Byte :=
  [if code = 0x04 then 0x10#8 else 0x13#8] ++ bytesOfNat 1 code ++ bytesOfNat 1 p1 ++ bytesOfNat 1 p2 ++ payload

/-- An SPDM ERROR: InvalidRequest 1, Busy 3, UnexpectedRequest 4, DecryptError 6, SessionLimitExceeded 0x0A. -/
def spdmError (code : Nat) : List Byte := spdmMessage 0x7F code 0 []

/-- A long operation begins: its effect stands, its response follows; the bound is in µs (R442, R444). -/
def beginLong (kind : LongKind) (bound : Nat) (response : List Byte) (s : State) : State :=
  updMgmt (fun m => { m with long := some ⟨kind, .port, response, s.now, bound⟩ }) s

/-- A request served once algorithms are negotiated; earlier it is unexpected. -/
def afterNegotiation (f : State → State) (s : State) : State :=
  if s.mgmt.spdm = .negotiated then f s else mgmtSend .port (spdmError 4) s

/-! ### Connection (R442) -/

/-- The stage of the connection moved on, and a response sent. -/
def spdmStep (stage : SpdmStage) (response : List Byte) (s : State) : State :=
  mgmtSend .port response (updMgmt (fun m => { m with spdm := stage }) s)

/-- GET_VERSION: version 1.3; the connection begins anew, its sessions end. -/
def getVersion (s : State) : State :=
  spdmStep .version (spdmMessage 0x04 0 0 ([0, 1] ++ bytesOfNat 2 0x1300)) (updMgmt (fun m => { m with sessions := [] }) s)

/-- Capability flags of the requests that R442 lists, by their bits in DSP0274: certificates, challenge, signed measurements, encryption,
authentication, mutual authentication, key exchange, heartbeat, key update (PRESUMED; log 30). -/
def spdmFlags : Nat := 0x2 + 0x4 + 0x10 + 0x40 + 0x80 + 0x100 + 0x200 + 0x2000 + 0x4000

/-- CAPABILITIES: the flags; CTExponent 19 covers the longest bound of R442; the transfer sizes are free (log 30). -/
def capabilities (s : State) : List Byte × State :=
  let r := drawFree s
  ([0, 19, 0, 0] ++ bytesOfNat 4 spdmFlags ++ bytesOfNat 8 r.1.toNat, r.2)

/-- GET_CAPABILITIES. -/
def getCapabilities (s : State) : State :=
  if s.mgmt.spdm = .version then
    let r := capabilities s
    spdmStep .capabilities (spdmMessage 0x61 0 0 r.1) r.2
  else mgmtSend .port (spdmError 4) s

/-- ALGORITHMS, by the codes of DSP0274 (PRESUMED; log 30): DMTF measurements with SHA-384, ECDSA P-384, SHA-384; then DHE secp384r1, AEAD
AES-256-GCM, requester ECDSA P-384, the SPDM key schedule. -/
def algorithms : List Byte :=
  bytesOfNat 2 52 ++ [1, 0] ++ bytesOfNat 4 4 ++ bytesOfNat 4 0x80 ++ bytesOfNat 4 2 ++ List.replicate 16 0 ++
  [2, 0x20, 0x10, 0, 3, 0x20, 2, 0, 4, 0x20, 0x80, 0, 5, 0x20, 1, 0]

/-- NEGOTIATE_ALGORITHMS: the one choice of R442. -/
def negotiateAlgorithms (s : State) : State :=
  if s.mgmt.spdm = .capabilities then spdmStep .negotiated (spdmMessage 0x63 4 0 algorithms) s else mgmtSend .port (spdmError 4) s

/-- Free bytes: what the enclave signs, draws or holds and the spec does not state (log 4). -/
def freeBytes : Nat → State → List Byte × State
  | 0, s => ([], s)
  | n + 1, s =>
    let r := drawFree s
    let q := freeBytes n r.2
    (bytesOfNat 8 r.1.toNat ++ q.1, q.2)

/-- A digest as its 48 bytes. -/
def digestBytes (d : BitVec 384) : List Byte := (bytesOfNat 48 d.toNat).reverse

/-- GET_DIGESTS: the digest of the chain in slot 0. -/
def getDigests : State → State :=
  afterNegotiation fun s => mgmtSend .port (spdmMessage 0x01 0 1 (digestBytes (sha384 Config.certificateChain))) s

/-- GET_CERTIFICATE: slot 0 only; the part of the chain from an offset on, and how much remains. An offset beyond the chain is invalid. -/
def getCertificate (slot offset length : Nat) : State → State :=
  afterNegotiation fun s =>
    let rest := Config.certificateChain.drop offset
    let part := rest.take length
    if slot = 0 ∧ offset ≤ Config.certificateChain.length then
      mgmtSend .port (spdmMessage 0x02 0 0 (bytesOfNat 2 part.length ++ bytesOfNat 2 (rest.length - part.length) ++ part)) s
    else mgmtSend .port (spdmError 1) s

/-- CHALLENGE: a long operation of 200 ms. -/
def challenge (slot : Nat) (nonce : List Byte) : State → State :=
  afterNegotiation fun s =>
    if slot = 0 then let r := freeBytes 12 s; beginLong .spdm 200000 (spdmMessage 0x03 0 1 (nonce ++ r.1)) r.2
    else mgmtSend .port (spdmError 1) s

/-! ### Measurements (R443) -/

/-- SECURITY_VERSION of the running image: that of the settings in force, or, in the trip state, that of the running slot; zero where none
runs (R443, R489; log 31). -/
def runningVersion (s : State) : Nat :=
  match s.cfg, (newestRecord s.boot).bind (·.runningSlot) with
  | some c, _ => c.securityVersion
  | none, some k => (checkSlot s.boot s.part k).settings.securityVersion
  | none, none => 0

/-- The content of a measurement; the layout of the raw ones is log 31's. -/
def measurement (s : State) (i : Nat) : Option (List Byte) :=
  match i, s.cfg with
  | 1, _ => some (digestBytes s.part.romDigest)
  | 2, some c => some (digestBytes c.mgmtFwDigest)
  | 3, some c => some (digestBytes c.tallyFwDigest)
  | 4, some c => some (digestBytes c.messageDigest)
  | 5, _ => some ((s.boot.keyDigests.flatMap fun d => digestBytes (d.getD 0)) ++
      bytesOfNat 1 (s.boot.revoked.foldl (fun n k => n + 2 ^ k) 0) ++ bytesOfNat 1 s.boot.minVersion)
  | 6, _ => some ((s.life.steppings.flatMap (bytesOfNat 1)) ++ (s.life.features.flatMap (bytesOfNat 4)) ++ bytesOfNat 4 s.life.common)
  | 7, _ => some ((List.range 2).flatMap fun i =>
      let x := s.kerf.sites.get {} i
      bytesOfNat 1 x.cls ++ bytesOfNat 2 x.vendor ++ bytesOfNat 2 x.device)
  | 8, _ => some (bytesOfNat 8 (startCount s) ++ bytesOfNat 4 (runningVersion s))
  | _, _ => none

/-- DMTF value type of a measurement: its kind in bit 7, raw or digest, and what is measured in bits 6:0 (PRESUMED: log 31). -/
def measurementType (i : Nat) : Nat := match i with
  | 1 => 0x00
  | 2 | 3 => 0x01
  | 4 => 0x03
  | 8 => 0x83
  | _ => 0x82

/-- A measurement block in the DMTF measurement specification format (R443; PRESUMED: log 31). -/
def measurementBlock (s : State) (i : Nat) : Option (List Byte) :=
  (measurement s i).map fun bs =>
    bytesOfNat 1 i ++ bytesOfNat 1 1 ++ bytesOfNat 2 (bs.length + 3) ++ bytesOfNat 1 (measurementType i) ++ bytesOfNat 2 bs.length ++ bs

/-- The blocks a GET_MEASUREMENTS names: none but their number for 0, all for 0xFF, else one. -/
def measurements (s : State) (i : Nat) : Option (List Byte) :=
  if i = 0 then some [8]
  else if i = 0xFF then some ((List.range 8).flatMap fun k => (measurementBlock s (k + 1)).getD [])
  else measurementBlock s i

/-- A session by its identifier. -/
def sessionOf (s : State) (id : Nat) : Option SpdmSession := s.mgmt.sessions.find? fun x => x.id == id

/-- A session that is established. -/
def established (s : State) (id : Nat) : Bool := (sessionOf s id).any (·.established)

/-- GET_MEASUREMENTS: a long operation of 250 ms with a signature. -/
def getMeasurements (session : Option Nat) (index : Nat) (signed : Bool) : State → State :=
  afterNegotiation fun s =>
    if session.any (fun i => !established s i) then mgmtSend .port (spdmError 1) s
    else match measurements s index with
      | none => mgmtSend .port (spdmError 1) s
      | some bs =>
        if signed then
          let r := freeBytes 12 s
          beginLong .spdm 250000 (spdmMessage 0x60 0 0 (bs ++ r.1)) r.2
        else mgmtSend .port (spdmMessage 0x60 0 0 bs) s

/-! ### Sessions (R442) -/

/-- KEY_EXCHANGE: at most four sessions; a long operation of 300 ms. The response asks for mutual authentication; what follows it, random
data, the exchange and the signature, is free (log 30). -/
def keyExchange (requester : Nat) : State → State :=
  afterNegotiation fun s =>
    if 4 ≤ s.mgmt.sessions.length then mgmtSend .port (spdmError 0x0A) s
    else
      let r := freeBytes 28 s
      let id := s.mgmt.nextSession
      beginLong .spdm 300000 (spdmMessage 0x64 0 0 (bytesOfNat 2 id ++ [1, 0] ++ r.1))
        (updMgmt (fun m => { m with sessions := m.sessions ++ [{ id := id, requester := requester }], nextSession := id + 1 }) r.2)

/-- A session changed, and gone. -/
def updSession (id : Nat) (f : SpdmSession → SpdmSession) (s : State) : State :=
  updMgmt (fun m => { m with sessions := m.sessions.map fun x => if x.id = id then f x else x }) s
def dropSession (id : Nat) (s : State) : State := updMgmt (fun m => { m with sessions := m.sessions.filter fun x => x.id != id }) s

/-- FINISH: the requester's signature over the exchange verifies, or the session ends; a long operation of 50 ms. -/
def finish (session : Nat) (verifies : Bool) : State → State :=
  afterNegotiation fun s => match sessionOf s session with
    | none => mgmtSend .port (spdmError 1) s
    | some x =>
      if x.established then mgmtSend .port (spdmError 4) s
      else if verifies then
        beginLong .spdm 50000 (spdmMessage 0x65 0 0 []) (updSession session (fun x => { x with established := true, lastHeartbeat := s.now }) s)
      else mgmtSend .port (spdmError 6) (dropSession session s)

/-- A request inside an established session. -/
def inSession (session : Nat) (f : State → State) : State → State :=
  afterNegotiation fun s => if established s session then f s else mgmtSend .port (spdmError 4) s

/-- HEARTBEAT. -/
def heartbeat (session : Nat) : State → State :=
  inSession session fun s => mgmtSend .port (spdmMessage 0x68 0 0 []) (updSession session (fun x => { x with lastHeartbeat := s.now }) s)

/-- KEY_UPDATE. -/
def keyUpdate (session : Nat) : State → State :=
  inSession session fun s => mgmtSend .port (spdmMessage 0x69 0 0 []) (updSession session (fun x => { x with keyUpdates := x.keyUpdates + 1 }) s)

/-- END_SESSION. -/
def closeSession (session : Nat) : State → State :=
  inSession session fun s => mgmtSend .port (spdmMessage 0x6C 0 0 []) (dropSession session s)

/-! ### Enclave operations (R310, R368) -/

/-- The requester of a session. -/
def requesterOf (s : State) (session : Nat) : Nat := ((sessionOf s session).map (·.requester)).getD 0

/-- Whether a session may operate on a context: its requester sealed it (R310). -/
def sealedBy (s : State) (session context : Nat) : Bool :=
  (sealedContext s context).any fun c => c.requester == requesterOf s session

/-- Eight free words as a key: the enclave's random source, or what a wrapped key of unstated form unwraps to. -/
def freeKey (s : State) : BitVec 512 × State :=
  let r := freeBytes 8 s
  (BitVec.ofNat 512 (natOfBytes r.1), r.2)

/-- The key of a source; none where it does not unwrap. -/
def keyFrom (k : KeySource) (s : State) : Option (BitVec 512) × Bool × State :=
  match k with
  | .ephemeral => let r := freeKey s; (some r.1, false, r.2)
  | .imported key => (some key, true, s)
  | .badWrap => (none, true, s)

/-- SEAL_CONTEXT. -/
def sealContext (session context : Nat) (k : KeySource) (s : State) : W16 × State :=
  if !(match s.cfg with
    | some c => c.sealing
    | none => false) then (0x5310, s)
  else if context < 2 ∨ 0xFFEF < context ∨ isSealed s context ∨ !(ownedStakes s context).isEmpty ∨ 1024 ≤ s.stakes.sealedContexts.length then
    (0x5311, s)
  else match keyFrom k s with
    | (none, _, t) => (0x5314, t)
    | (some key, imported, t) =>
      (0, { t with stakes := { t.stakes with
        sealedContexts := ⟨context, some key, imported, requesterOf t session⟩ :: t.stakes.sealedContexts } })

/-- The stakes of an enclave operation, when they lie in the near or bulk tier. -/
def enclaveStakes (addr count : Nat) : Option (List Nat) :=
  if count = 0 then some [] else if rangeNearOrBulk addr (count * stakeSize) then some (stakeRange addr count) else none

/-- A stake zeroed as it is sealed: of the bulk tier under the context's key, so that its owner reads zeros (R307, R310; log 68). -/
def zeroSealed (context : Nat) (s : State) (i : Nat) : State :=
  let pa := stakeAddr i
  if regionOf pa = .bulk then homeStore (contextKey s context) pa (List.replicate stakeSize 0) s else zeroRange pa stakeSize s

/-- SEAL_STAKES: each stake is zeroed, then SEALED is set. -/
def sealStakes (session context addr count : Nat) (s : State) : W16 × State :=
  match enclaveStakes addr count with
  | none => (0x5312, s)
  | some is =>
    if is.any fun i =>
        let k := stakeEntry s i
        decide (k.state ≠ .owned) || k.owner != context || k.sealed || k.export_ then (0x5312, s)
    else if !sealedBy s session context then (0x5313, s)
    else (0, updStakes (fun k => { k with sealed := true }) is (is.foldl (zeroSealed context) s))

/-- SET_EXPORT. -/
def setExport (session context addr count : Nat) (on : Bool) (s : State) : W16 × State :=
  match enclaveStakes addr count with
  | none => (0x5312, s)
  | some is =>
    if is.any fun i =>
        let k := stakeEntry s i
        decide (k.state ≠ .owned) || k.owner != context || k.sealed then (0x5312, s)
    else if !sealedBy s session context then (0x5313, s)
    else (0, updStakes (fun k => { k with export_ := on }) is s)

/-- UNSEAL_CONTEXT. -/
def unsealByRequester (session context : Nat) (s : State) : W16 × State :=
  if sealedBy s session context then (0, unsealContext context s) else (0x5313, s)

/-- The message CORD_KEY_AUTHORITY signs: SYSTEM_ID, cord, epoch and the digest of the key, little-endian (log 32). -/
def cordKeyMessage (s : State) (cord epoch : Nat) (key : BitVec 256) : List Byte :=
  bytesOfNat 8 ((s.cfg.map (·.systemId)).getD 0) ++ bytesOfNat 2 cord ++ bytesOfNat 1 epoch ++ digestBytes (sha384 (bytesOfNat 32 key.toNat))

/-- The signature of a cord key verifies. -/
def cordKeySigned (s : State) (cord epoch : Nat) (key : BitVec 256) (sigR sigS : Nat) : Bool :=
  match s.cfg with
  | some c => ecdsaVerifies c.authority (sha384 (cordKeyMessage s cord epoch key)) sigR sigS
  | none => false

/-- Ports that wait for a key look again (R367). -/
def wakePorts (s : State) : State :=
  ((List.range 72).filter fun p => decide ((portOf s p).state = .keyWait)).foldl (fun s p => portReady p s) s

/-- A frame counter of a cord's ports starts at 0 for a new key (R367). -/
def clearNonces (cord epoch : Nat) (s : State) : State :=
  ((List.range 72).filter fun p => receivingCord s p == cord).foldl (fun s p => updPort p (fun q =>
    if epoch = 0 then { q with nonce0 := 0 } else { q with nonce1 := 0 }) s) s

/-- INSTALL_CORD_KEY; the first key of a cord is at once the one in use for sending (log 33). -/
def installCordKey (cord epoch : Nat) (key : BitVec 256) (sigR sigS : Nat) (s : State) : W16 × State :=
  if !cordKeySigned s cord epoch key sigR sigS then (0x7401, s)
  else if !holdsCord s cord then (0x7402, s)
  else if sendingEpoch s cord = some epoch then (0x7403, s)
  else
    let s1 := updFabric (fun f => { f with
      keys := ⟨cord, epoch, key⟩ :: f.keys.filter fun k => !(k.cord == cord && k.epoch == epoch)
      sendEpoch := if f.sendEpoch.get 0 cord = 0 then f.sendEpoch.set 0 cord (epoch + 1) else f.sendEpoch }) s
    (0, wakePorts (clearNonces cord epoch s1))

/-- ACTIVATE_CORD_KEY. -/
def activateCordKey (cord epoch : Nat) (s : State) : W16 × State :=
  if !hasKey s cord epoch then (0x7404, s)
  else
    let s1 := updFabric (fun f => { f with sendEpoch := f.sendEpoch.set 0 cord (epoch + 1) }) s
    let s2 := ((List.range 72).filter fun p => receivingCord s1 p == cord && isUp s1 p).foldl
      (fun s p => updPort p (fun q => { q with keyEpoch := epoch }) s) s1
    (0, wakePorts s2)

/-- ERASE_CORD_KEY. -/
def eraseCordKey (cord epoch : Nat) (s : State) : W16 × State :=
  if sendingEpoch s cord = some epoch then (0x7403, s)
  else (0, updFabric (fun f => { f with keys := f.keys.filter fun k => !(k.cord == cord && k.epoch == epoch) }) s)

/-- The response to an enclave operation: a VENDOR_DEFINED_RESPONSE of StandardID 3 with the vendor's identifier and the 16-bit result, laid out as
DSP0274 has it (R444; log 30). -/
def enclaveResponse (s : State) (code : W16) : List Byte :=
  spdmMessage 0x7E 0 0 (bytesOfNat 2 3 ++ [2] ++ bytesOfNat 2 s.part.vendor ++ bytesOfNat 2 2 ++ bytesOfNat 2 code.toNat)

/-- An enclave operation carried out: a long operation (R444). -/
def runEnclave (bound : Nat) (op : State → W16 × State) (s : State) : State :=
  let r := op s
  beginLong .enclave bound (enclaveResponse r.2 r.1) r.2

/-- An enclave operation inside a session. -/
def enclaveOp (session bound : Nat) (op : State → W16 × State) : State → State := inSession session (runEnclave bound op)

/-- The bound of an operation, in µs; SEAL_STAKES adds 2.7 ms for each GiB (R444). -/
def sealBound (count : Nat) : Nat := 10000 + 2700 * ceilDiv count 512

/-! ### Vendor-defined requests (R444) -/

/-- A wrapped key whose form the spec does not state: whether it unwraps, and to what, is free (log 4). -/
def wrappedKey (s : State) : KeySource × State :=
  let r := drawFree s
  let k := freeKey r.2
  if r.1.getLsbD 0 then (.imported k.1, k.2) else (.badWrap, k.2)

/-- The operation of an opcode and its arguments, with its bound; none for a request that is not well formed (log 34). -/
def vendorOp (session opcode : Nat) (a : List Byte) : Option (Nat × (State → W16 × State)) :=
  let f := fieldOf a
  match opcode with
  | 0x01 =>
    if a.length < 3 then none
    else if f 2 1 = 0 then some (10000, sealContext session (f 0 2) .ephemeral)
    else some (10000, fun s => let w := wrappedKey s; sealContext session (f 0 2) w.1 w.2)
  | 0x02 => if a.length = 14 then some (sealBound (f 10 4), sealStakes session (f 0 2) (f 2 8) (f 10 4)) else none
  | 0x03 =>
    if a.length = 15 ∧ f 14 1 < 2 then some (10000, setExport session (f 0 2) (f 2 8) (f 10 4) (f 14 1 == 1)) else none
  | 0x04 => if a.length = 2 then some (10000, unsealByRequester session (f 0 2)) else none
  | 0x10 =>
    if a.length = 131 ∧ f 2 1 < 2 then
      some (10000, installCordKey (f 0 2) (f 2 1) (BitVec.ofNat 256 (f 3 32)) (f 35 48) (f 83 48))
    else none
  | 0x11 => if a.length = 3 then some (10000, activateCordKey (f 0 2) (f 2 1)) else none
  | 0x12 => if a.length = 3 then some (10000, eraseCordKey (f 0 2) (f 2 1)) else none
  | _ => none

/-- VENDOR_DEFINED_REQUEST (R444): outside a session it is unexpected; with another StandardID, another vendor or another opcode it is
invalid. -/
def vendorDefined (session : Option Nat) (standard vendor opcode : Nat) (payload : List Byte) : State → State :=
  afterNegotiation fun s => match session with
    | none => mgmtSend .port (spdmError 4) s
    | some i =>
      if !established s i then mgmtSend .port (spdmError 4) s
      else if standard ≠ 3 ∨ vendor ≠ s.part.vendor then mgmtSend .port (spdmError 1) s
      else match vendorOp i opcode payload with
        | none => mgmtSend .port (spdmError 1) s
        | some (bound, op) => runEnclave bound op s

/-! ### Requests -/

/-- A request of the SPDM responder served. -/
def serveSpdm (r : SpdmRequest) (s : State) : State :=
  match r with
  | .getVersion => getVersion s
  | .getCapabilities => getCapabilities s
  | .negotiateAlgorithms => negotiateAlgorithms s
  | .getDigests => getDigests s
  | .getCertificate slot offset length => getCertificate slot offset length s
  | .challenge slot nonce => challenge slot nonce s
  | .getMeasurements session index signed => getMeasurements session index signed s
  | .keyExchange requester => keyExchange requester s
  | .finish session verifies => finish session verifies s
  | .heartbeat session => heartbeat session s
  | .keyUpdate session => keyUpdate session s
  | .endSession session => closeSession session s
  | .vendorDefined session standard vendor opcode payload => vendorDefined session standard vendor opcode payload s
  | .sealContext session context key => enclaveOp session 10000 (sealContext session context key) s
  | .sealStakes session context addr count => enclaveOp session (sealBound count) (sealStakes session context addr count) s
  | .setExport session context addr count on => enclaveOp session 10000 (setExport session context addr count on) s
  | .unsealContext session context => enclaveOp session 10000 (unsealByRequester session context) s
  | .installCordKey session cord epoch key sigR sigS => enclaveOp session 10000 (installCordKey cord epoch key sigR sigS) s
  | .activateCordKey session cord epoch => enclaveOp session 10000 (activateCordKey cord epoch) s
  | .eraseCordKey session cord epoch => enclaveOp session 10000 (eraseCordKey cord epoch) s

/-- An SPDM request as it arrives: served, queued, or answered with ERROR Busy (R437, R441). -/
def spdmGated (r : SpdmRequest) (s : State) : State :=
  match mgmtGate s .port true with
  | .nothing => s
  | .busy _ => mgmtBusy .port (spdmError 3) s
  | .refused => mgmtSend .port (spdmError 4) s
  | .queue => queueRequest .port (.spdm r) s
  | .serve => serveSpdm r (updMgmt (noteBacklog .port) s)

def execGetVersion (s : State) : Answer := .next (spdmGated .getVersion s)
def execGetCapabilities (s : State) : Answer := .next (spdmGated .getCapabilities s)
def execNegotiateAlgorithms (s : State) : Answer := .next (spdmGated .negotiateAlgorithms s)
def execGetDigests (s : State) : Answer := .next (spdmGated .getDigests s)
def execGetCertificate (slot offset length : Nat) (s : State) : Answer := .next (spdmGated (.getCertificate slot offset length) s)
def execChallenge (slot : Nat) (nonce : List Byte) (s : State) : Answer := .next (spdmGated (.challenge slot nonce) s)
def execGetMeasurements (session : Option Nat) (index : Nat) (signed : Bool) (s : State) : Answer :=
  .next (spdmGated (.getMeasurements session index signed) s)
def execKeyExchange (requester : Nat) (s : State) : Answer := .next (spdmGated (.keyExchange requester) s)
def execFinish (session : Nat) (verifies : Bool) (s : State) : Answer := .next (spdmGated (.finish session verifies) s)
def execHeartbeat (session : Nat) (s : State) : Answer := .next (spdmGated (.heartbeat session) s)
def execKeyUpdate (session : Nat) (s : State) : Answer := .next (spdmGated (.keyUpdate session) s)
def execEndSession (session : Nat) (s : State) : Answer := .next (spdmGated (.endSession session) s)
def execVendorDefinedRequest (session : Option Nat) (standard vendor opcode : Nat) (payload : List Byte) (s : State) : Answer :=
  .next (spdmGated (.vendorDefined session standard vendor opcode payload) s)
def execSealContext (session context : Nat) (key : KeySource) (s : State) : Answer := .next (spdmGated (.sealContext session context key) s)
def execSealStakes (session context addr count : Nat) (s : State) : Answer := .next (spdmGated (.sealStakes session context addr count) s)
def execSetExport (session context addr count : Nat) (on : Bool) (s : State) : Answer :=
  .next (spdmGated (.setExport session context addr count on) s)
def execUnsealContext (session context : Nat) (s : State) : Answer := .next (spdmGated (.unsealContext session context) s)
def execInstallCordKey (session cord epoch : Nat) (key : BitVec 256) (sigR sigS : Nat) (s : State) : Answer :=
  .next (if epoch < 2 then spdmGated (.installCordKey session cord epoch key sigR sigS) s else s)
def execActivateCordKey (session cord epoch : Nat) (s : State) : Answer := .next (spdmGated (.activateCordKey session cord epoch) s)
def execEraseCordKey (session cord epoch : Nat) (s : State) : Answer := .next (spdmGated (.eraseCordKey session cord epoch) s)

end Sys2Proof.Machine
end

