-- ==== Sys2Proof/Machine/Power.lean ====
section
/-!
DEFINITION. Machine/Power.lean: Boom's commands: requests and grants, budgets and episodes, estimated and measured power,
droop, temperature, input voltage, the power brake and ageing (R393–R423).
-/

namespace Sys2Proof.Machine

/-- Boom runs: the module is running, or a start has passed step 10. -/
def boomRuns (s : State) : Bool := decide (s.life.power = .running) || (decide (s.life.power = .starting) && s.life.waiting.isNone)

/-- The POWER section in force. -/
def powerCfg (s : State) : Settings := s.cfg.getD {}

/-- SCOPE of an episode of one grove (R416). -/
def groveScope (g : Nat) : Nat := 2 ^ g

/-! ### Limits and budgets -/

/-- V_SET_MV of a grove (R417, R420; whole mV, log 35). -/
def setpointMv (s : State) (g : Nat) : Nat := (s.part.vFuse.getD g 0 + 25 * (grovePow s.power g).trimSteps) / 10

/-- The limit of R411 in W, while it is in force. -/
def inputCap (p : PowerBlock) (w : Nat) : Nat := if p.inputLow then min w (p.vIn * 150 / 100) else w

/-- An image limit after the fallback of 0x8202 (R405). -/
def fallbackCap (p : PowerBlock) (w : Nat) : Nat := if p.fallback then w * 80 / 100 else w

/-- The lesser of the image's sustained budget and SOFT_LIMIT_W, after the fallback of 0x8202 (R401, R405). -/
def softBudget (s : State) : Nat :=
  let image := fallbackCap s.power (powerCfg s).sustainedW
  if s.power.softLimit = 0 then image else min image s.power.softLimit

/-- The sustained budget in W (R401, R405, R411). -/
def sustainedLimit (s : State) : Nat := inputCap s.power (softBudget s)

/-- The peak budget in W. -/
def peakLimit (s : State) : Nat := inputCap s.power (fallbackCap s.power (powerCfg s).peakW)

/-- R402: a limit in W as a budget of quanta. -/
def quantaFor (s : State) (limit : Nat) : Nat :=
  let mv := setpointMv s 0 + setpointMv s 1 + setpointMv s 2 + setpointMv s 3
  if mv = 0 then 0 else (91000 * limit - 100 * s.power.otherMw) * 40 / (1000 * mv)

/-- The quanta budget under estimate control within the sustained budget, and within the peak budget. -/
def sustainedQuanta (s : State) : Nat := quantaFor s (sustainedLimit s)
def peakQuanta (s : State) : Nat := quantaFor s (peakLimit s)

/-- The budget that Boom grants within outside an episode: the measured-power budget, or the sustained one; none when braked. -/
def baseQuanta (s : State) : Nat :=
  if s.power.braked then 0 else if s.power.measured then s.power.budget else sustainedQuanta s

/-- QUANTA_BUDGET: the budget under the binding limit (R402, R403). -/
def boundQuanta (s : State) : Nat := if s.power.episode && !s.power.braked then peakQuanta s else baseQuanta s

/-- Boom may open an episode (R403). -/
def episodeAllowed (s : State) : Bool :=
  decide ((powerCfg s).peakMs ≠ 0) && !s.power.measured && !s.power.fallback && !s.power.recovering && !s.power.braked

/-- The most quanta held and pooled that Boom may reach now. -/
def reachQuanta (s : State) : Nat :=
  if s.power.episode || episodeAllowed s then max (baseQuanta s) (peakQuanta s) else baseQuanta s

/-- The throttle reason of a request that the module budget holds back (R401, R415). -/
def budgetReason (s : State) : Nat :=
  if s.power.braked then 3
  else if s.power.measured then 7
  else if s.power.inputLow && decide (sustainedLimit s < softBudget s) then 8
  else if s.power.episode then 2 else 1

/-- A throttle log entry as its 16 bytes (R416). -/
def throttleBytes (e : ThrottleEntry) : List Byte :=
  bytesOfNat 8 e.start ++ bytesOfNat 4 e.durationUs ++ bytesOfNat 1 e.reason ++ bytesOfNat 1 e.scope ++ bytesOfNat 2 e.depth

/-- The maintenance rows of the throttle log entries written between two states of Boom, in their order (R473). -/
def throttleRows (before after : PowerBlock) : List (List Byte) :=
  (List.range (after.logCount - before.logCount)).map fun i =>
    maintRow 1 (throttleBytes (after.log.get {} ((before.logCount + i) % 1024)))

/-- A change of Boom's state; the maintenance port sends one frame for each throttle log entry written (R473). -/
def updPower (f : PowerBlock → PowerBlock) (s : State) : State :=
  let p := f s.power
  sendMaint (throttleRows s.power p) { s with power := p }

/-- Reasons 0x01 and 0x02 are active while a request waits, or a grant is revoked, because of them (R415). -/
def settleWaits (time : Nat) (p : PowerBlock) : PowerBlock :=
  let one (r : Nat) (p : PowerBlock) : PowerBlock :=
    if p.requests.any fun q => q.reason == r then reasonOn time r moduleScope p.budget p else reasonOff time r moduleScope p
  one 2 (one 1 p)

/-- DEPTH of the running episodes of a scope follows its budget down (R416). -/
def lowerDepth (scope depth : Nat) (p : PowerBlock) : PowerBlock :=
  { p with running := p.running.map fun r => if r.scope = scope then { r with depth := min r.depth depth } else r }

/-- A budget stored; DEPTH of the module-wide episodes follows it down (R416). -/
def setBudget (q : Nat) (p : PowerBlock) : PowerBlock :=
  lowerDepth moduleScope q { p with budget := q }

/-- The budget formed again and what exceeds it taken back (R397, R400, R402). -/
def refreshBudget (s : State) : State :=
  let q := boundQuanta s
  updPower (fun p => settleWaits s.fabric.time (fitBudget s.now (budgetReason s) q (setBudget q p))) s

/-! ### Episodes -/

/-- An episode begins (R403); COUNT counts it (log 36). -/
def beginEpisode (now : Nat) (p : PowerBlock) : PowerBlock :=
  { p with episode := true, episodeStart := now, episodes := satAdd 32 p.episodes 1 }

/-- An episode ends and its recovery begins (R403). -/
def endEpisode (now : Nat) (p : PowerBlock) : PowerBlock :=
  if !p.episode then p
  else
    { p with
      episode := false, recovering := true, recoverSince := none
      recoveryNs := now - p.episodeStart, lastEpisodeUs := min ((now - p.episodeStart) / 1000) 0xFFFFFFFF
      requests := p.requests.map fun r => if r.reason = 2 then { r with reason := 1 } else r }

/-- An episode ends once the held quanta are back within the sustained budget (R403). -/
def settleEpisode (s : State) : State :=
  if s.power.episode && decide (heldAll s.power ≤ sustainedQuanta s) then updPower (endEpisode s.now) s else s

/-! ### Refills and grants -/

/-- Quanta a refill of a grove's pool may bring: a block of 48, or what the budget and the cap leave (R397). Beyond the base budget
only for a waiting request (R403). -/
def refillQuanta (s : State) (g : Nat) : Nat :=
  let p := s.power
  let x := grovePow p g
  let waits := p.requests.any fun r => benchGrove r.bench == g
  let budget := if waits then reachQuanta s else boundQuanta s
  min 48 (min (budget - (heldAll p + pooledAll p)) (x.cap - (heldIn p g + x.pool)))

/-- A refill of a grove's pool, when it holds fewer than 48 quanta (R397). -/
def refill (g : Nat) (s : State) : State :=
  if 48 ≤ (grovePow s.power g).pool then s
  else
    let q := refillQuanta s g
    updPower (fun p => { updGrove p g (fun x => { x with pool := x.pool + q }) with turn := (g + 1) % 4 }) s

/-- Why a grove's request waits: its cap, or the module budget, against which the pools count (R397, R415). -/
def waitReason (s : State) (r : GrantRequest) : Nat :=
  let p := s.power
  let g := benchGrove r.bench
  let need := r.quanta - (benchPow p r.bench).granted
  if (grovePow p g).cap < heldIn p g + need then (grovePow p g).capReason
  else if reachQuanta s + (grovePow p g).pool < heldAll p + pooledAll p + need then budgetReason s
  else 0

/-- A request marked with the reason that holds it back. -/
def markRequest (r : GrantRequest) (reason : Nat) (p : PowerBlock) : PowerBlock :=
  { p with requests := p.requests.map fun q => if q.bench = r.bench ∧ q.kind = r.kind then { q with reason := reason } else q }

/-- A request served when the pool holds its quanta and the budget admits them; beyond the base budget inside an episode, which it
may begin (R397, R403). -/
def serveRequest (r : GrantRequest) (s : State) : State :=
  let held := heldAll s.power + (r.quanta - (benchPow s.power r.bench).granted)
  let give (p : PowerBlock) : PowerBlock := settleWaits s.fabric.time (giveGrant s.now r p)
  let wait (s : State) : State := updPower (fun p => settleWaits s.fabric.time (markRequest r (waitReason s r) p)) s
  if s.power.braked || !poolServes s.power r then wait s
  else if held ≤ baseQuanta s then updPower give s
  else if s.power.episode && decide (held ≤ peakQuanta s) then updPower give s
  else if episodeAllowed s && decide (held ≤ peakQuanta s) then
    let s1 := updPower (beginEpisode s.now) s
    updPower (fun p => give (setBudget (peakQuanta s1) p)) s1
  else updPower (fun p => settleWaits s.fabric.time (markRequest r (budgetReason s) p)) s

/-- The restore that Boom serves first among the groves not passed over: one that a ring reset or a squash waits for, else the oldest
revocation (R400). -/
def bestRestore (passed : List Nat) : List GrantRequest → Option GrantRequest
  | [] => none
  | r :: rs =>
    if r.kind ≠ .restore ∨ passed.contains (benchGrove r.bench) then bestRestore passed rs
    else match bestRestore passed rs with
      | none => some r
      | some q => if requestRank r ≤ requestRank q then some r else some q

/-- Restores in the order of R400, over all groves: one that the budget does not allow yet holds back those after it, one that only its
grove's pool or cap holds back is passed over with its grove; `k` bounds their number. -/
def serveRestores : Nat → List Nat → State → State
  | 0, _, s => s
  | k + 1, passed, s =>
    match bestRestore passed s.power.requests with
    | none => s
    | some r =>
      let s1 := if poolServes s.power r then s else refill (benchGrove r.bench) s
      if reachQuanta s1 < heldAll s1.power + r.quanta then
        updPower (fun p => settleWaits s1.fabric.time (markRequest r (budgetReason s1) p)) s1
      else if poolServes s1.power r then serveRestores k passed (serveRequest r s1)
      else serveRestores k (passed ++ [benchGrove r.bench]) s1

/-- Restores first, then central Boom's turn over the groves, from the one whose turn it is (R397, R400). -/
def restoreAll (s : State) : State :=
  let s1 := serveRestores (s.power.requests.length + 4) [] s
  [0, 1, 2, 3].foldl (fun s i =>
    let g := (s1.power.turn + i) % 4
    if refillQuanta s g = 0 then s else refill g s) s1

/-- The first deferred start of a grove made, if it is allowed now (R399). -/
def startDeferred (now g : Nat) (p : PowerBlock) : PowerBlock :=
  match (grovePow p g).deferred with
  | [] => p
  | n :: _ => if startAllowed now (grovePow p g) then startClock now n p else p

/-! ### Requests and grants -/

/-- The staged tasks of a bench whose WAIT is resolved, best first: what a grant request is for (R397). -/
def requestTask (s : State) (n : Nat) : Option Task := (preloadedNext s n).filter fun t => demandOf t != 0

/-- GRANT_REQUEST: a bench task with resolved WAIT requests its demand: a new grant, or a top-up of the bench's grant for a task that
may issue beside the running one (R397). -/
def execGrantRequest (n : Nat) (s : State) : Answer :=
  if !boomRuns s || (grovePow s.power (benchGrove n)).ended then .next s
  else match requestTask s n with
    | none => .next s
    | some t =>
      let b := benchPow s.power n
      let running := benchDemand s n
      let want := max running (demandOf t)
      let kind : GrantKind := if b.granted = 0 then .fresh else .topUp
      let r : GrantRequest := { bench := n, kind := kind, quanta := want, priority := (ringOf s t.ring).priority, since := s.now }
      if (running ≠ 0 ∧ clockRuns s t = false) ∨ b.clock = .revoked ∨ s.power.requests.any (fun q => q.bench == n) then .next s
      else if want ≤ b.granted then .next (updPower (fun p => updBench p n fun b => { b with demand := want }) s)
      else .next (updPower (fun p => { updBench p n (fun b => { b with demand := want }) with requests := p.requests ++ [r] }) s)

/-- Whether a request of another grove that Boom serves before this one waits for the module budget (R397, R401). -/
def outranked (r : GrantRequest) (p : PowerBlock) : Bool :=
  p.requests.any fun q => decide (requestRank q < requestRank r) && [1, 2, 3, 7, 8].contains q.reason

/-- GRANT: the sub-arbiter of a grove serves its next request from the pool (R397). -/
def execGrant (g : Nat) (s : State) : Answer :=
  if !boomRuns s then .next s
  else match bestRequest g s.power.requests with
    | none => .next s
    | some r => .next (if outranked r s.power then updPower (fun p => settleWaits s.fabric.time (markRequest r (budgetReason s) p)) s
        else serveRequest r s)

/-- STAGGERED_START: a deferred start is made (R399). -/
def execStaggeredStart (g : Nat) (s : State) : Answer := .next (updPower (startDeferred s.now g) s)

/-- Whether it is a grove's turn: none that comes before it in the round has a refill due (R397). -/
def refillTurn (s : State) (g : Nat) : Bool :=
  ((List.range 4).map fun i => (s.power.turn + i) % 4).find? (fun k =>
    k == g || (decide ((grovePow s.power k).pool < 48) && refillQuanta s k != 0)) == some g

/-- POOL_REFILL: central Boom refills a pool in its round-robin turn (R397). -/
def execPoolRefill (g : Nat) (s : State) : Answer :=
  if !boomRuns s || s.power.braked || !refillTurn s g then .next s else .next (refill g s)

/-- The governor withholds rows of a bench: the weighted count of its sections exceeds what its quanta cover (R396). -/
def governorWithholds (s : State) (n : Nat) : Bool := decide (1280 * ((benchPow s.power n).granted - 1) < (s.benches.get {} n).governor)

/-- TOP_UP_REQUEST: a bench whose governor withholds a row asks for its demand (R398). -/
def execTopUpRequest (n : Nat) (s : State) : Answer :=
  let b := benchPow s.power n
  let r : GrantRequest := { bench := n, kind := .topUp, quanta := b.demand, since := s.now }
  if b.granted = 0 ∨ !governorWithholds s n ∨ b.demand ≤ b.granted ∨ s.power.requests.any (fun q => q.bench == n && q.kind == .topUp) then .next s
  else .next (updPower (fun p => { p with requests := p.requests ++ [r] }) s)

/-- One bench's grant reviewed; `u` is its governor count in hundredths. A top-up that waits, or was granted within the review period,
stands (R398, R422). -/
def reclaim (now n u : Nat) (p : PowerBlock) : PowerBlock :=
  let used := 1 + ceilDiv u 1280
  if used + 2 ≤ (benchPow p n).granted ∧ !(p.requests.any fun q => q.bench == n && q.kind == .topUp) ∧
      !((benchPow p n).toppedAt.any fun t => decide (now < t + 10000)) then
    lowerGrant n (max 2 (used + 1)) p
  else p

/-- RECLAIM_REVIEW: the operand lists (bench, governor count over the last 10 µs in hundredths) of the running benches (R398). -/
def execReclaimReview (used : List (Nat × Nat)) (s : State) : Answer :=
  if !boomRuns s || s.power.requests.isEmpty then .next s
  else .next (updPower (fun p => used.foldl (fun p x => reclaim s.now x.1 x.2 p) p) s)

/-- BUDGET_UPDATE: the binding limit becomes a quanta budget; grants are revoked or restored (R402, R403). -/
def execBudgetUpdate (s : State) : Answer :=
  if !boomRuns s then .next s
  else .next (restoreAll (refreshBudget (settleEpisode s)))

/-- EPISODE_TIMEOUT: PEAK_MS after its start an episode ends; grants go down to the sustained budget (R403). -/
def execEpisodeTimeout (s : State) : Answer :=
  if !s.power.episode then .next s else .next (refreshBudget (updPower (endEpisode s.now) s))

/-! ### Estimate and measurement -/

/-- Entry into measured-power control (R405, R422). -/
def enterMeasured (injected : Bool) (s : State) : State :=
  let q := min (sustainedQuanta s) (quantaFor s (sustainedLimit s * 9 / 10))
  let s1 := report { code := 0x8201, source := srcModule s, injected := injected } s
  let s2 := updPower (fun p => { endEpisode s.now p with measured := true, divergedSince := none, agreedSince := none }) s1
  refreshBudget (updPower (fun p => reasonOn s.fabric.time 7 moduleScope q { p with budget := q }) s2)

/-- Return to estimate control (R405). -/
def leaveMeasured (s : State) : State :=
  refreshBudget (updPower (fun p =>
    { reasonOff s.fabric.time 7 moduleScope p with measured := false, divergedSince := none, agreedSince := none }) s)

/-- M is missing or implausible (R405). -/
def measuredMissing (injected : Bool) (s : State) : State :=
  refreshBudget (updPower (fun p => { p with fallback := true })
    (report { code := 0x8202, source := srcModule s, injected := injected } s))

/-- The time a condition has held since: kept while it holds, set when it begins, none otherwise. -/
def sinceWhen (holds : Bool) (now : Nat) (old : Option Nat) : Option Nat := if holds then some (old.getD now) else none

/-- Whether a span that began at a time has lasted `ns`. -/
def lasted (since : Option Nat) (ns now : Nat) : Bool := since.any fun t => decide (t + ns ≤ now)

/-- E against M at one sample (R404, R405). -/
def compareSample (e m : Nat) (injected : Bool) (s : State) : State :=
  if s.power.braked ∨ s.now < s.power.compareFrom then
    updPower (fun p => { p with divergedSince := none, agreedSince := none }) s
  else
    let d := (e - m) + (m - e)
    let s1 := updPower (fun p =>
      { p with
        divergedSince := sinceWhen (decide (12 * m < 100 * d)) s.now p.divergedSince
        agreedSince := sinceWhen (decide (100 * d ≤ 4 * m)) s.now p.agreedSince }) s
    if !s1.power.measured && lasted s1.power.divergedSince 200000 s.now then enterMeasured injected s1
    else if s1.power.measured && lasted s1.power.agreedSince 10000000 s.now then leaveMeasured s1
    else s1

/-- The recovery after an episode, at one sample (R403). -/
def recoverSample (m : Nat) (s : State) : State :=
  if !s.power.recovering then s
  else
    let since := sinceWhen (decide (m ≤ sustainedLimit s)) s.now s.power.recoverSince
    updPower (fun p => { p with recoverSince := since, recovering := !lasted since (5 * p.recoveryNs) s.now }) s

/-- An input voltage measured (R411); above 26.4 V nothing is characterised (R490). -/
def withInput (mv : Nat) (s : State) : State :=
  { s with life := { s.life with inputMv := mv }, power := { s.power with vIn := min (mv / 10) 0xFFFF } }

/-- The energy of one microsecond (R419). -/
def countEnergy (m : Nat) (s : State) : State := updPower (fun p => { p with energy := p.energy + m }) s

/-- A sample while Boom runs: E formed, M read, the two compared; an implausible M counts as missing (R404, R405). -/
def boomSample (x : PowerSample) (s : State) : State :=
  let a := fireInjection 0x8201 (fun w => w == 0) s
  let b := fireInjection 0x8202 (fun w => w == 0) a.2
  let e0 := (x.benchMw + x.otherMw) * 100 / 91000
  let s1 := updPower (fun p => { p with otherMw := x.otherMw, estimatedW := min e0 0xFFFF }) b.2
  if b.1 then measuredMissing true s1
  else match x.measured with
    | none => s1
    | some m =>
      let e := if a.1 then m * 115 / 100 else e0
      let s2 := updPower (fun p => { p with estimatedW := min e 0xFFFF, measuredW := min m 0xFFFF }) s1
      if 6000 < m then (if s2.power.fallback then s2 else measuredMissing false s2)
      else recoverSample m (compareSample e m a.1 s2)

/-- While V_in is below 21.6 V Boom limits its budgets, and reason 0x08 is active (R411). -/
def limitInput (s : State) : State :=
  let s1 := refreshBudget (updPower (fun p => { p with inputLow := true }) s)
  updPower (fun p => reasonOn s.fabric.time 8 moduleScope p.budget p) s1

/-- ESTIMATE_SAMPLE: every 1 µs (R404, R405, R411, R419). The energy counter counts in every state with 24 V. -/
def execEstimateSample (x : PowerSample) (s : State) : Answer :=
  if 26400 < x.inputMv then .fault .notCharacterised
  else if s.life.power = .off then .next s
  else
    let s1 := countEnergy (x.measured.getD 0) (withInput x.inputMv s)
    let s2 := if x.inputMv < 21600 ∧ boomRuns s then limitInput s1 else s1
    .next (if boomRuns s then boomSample x s2 else s2)

/-- MEASURED_CONTROL_STEP: every 10 µs the budget moves by (0.9 L − M) / 0.879 W, within ±64 quanta (R405; log 37). -/
def execMeasuredControlStep (s : State) : Answer :=
  if !s.power.measured || s.power.braked then .next s
  else
    let d : Int := (900 * (sustainedLimit s : Int) - 1000 * (s.power.measuredW : Int)) / 879
    let q := (min (max ((s.power.budget : Int) + max (-64) (min 64 d)) 0) 0xFFFF).toNat
    .next (restoreAll (refreshBudget (updPower (fun p => { p with budget := q }) s)))

/-- MEASURED_POWER_MISSING (R405). -/
def execMeasuredPowerMissing (s : State) : Answer :=
  if boomRuns s then .next (measuredMissing false s) else .next s

/-! ### PLLs and droop -/

/-- PLL_SLEEP: deep sleep of a grove's PLL once no bench of it has held a grant for GROVE_SLEEP_US (R394). -/
def execPllSleep (g : Nat) (s : State) : Answer :=
  if (grovePow s.power g).pll = .running ∧ !groveGranted s.power g then
    .next (updPower (fun p => updGrove p g fun x => { x with pll := .sleep }) s)
  else .next s

/-- PLL_RELOCK_DONE: the PLL runs again and the waiting clock starts (R394). -/
def execPllRelockDone (g : Nat) (s : State) : Answer :=
  if (grovePow s.power g).pll = .locking then
    .next (updPower (fun p => startDeferred s.now g (updGrove p g fun x => { x with pll := .running })) s)
  else .next s

/-- Every running clock of a grove stretched, or back at its frequency (R406). -/
def stretchClocks (g : Nat) (on : Bool) (p : PowerBlock) : PowerBlock :=
  { p with benches := p.benches.mapListed {} fun n b =>
      if benchGrove n = g ∧ (b.clock = .running ∨ b.clock = .stretched) then { b with clock := if on then .stretched else .running }
      else b }

/-- DROOP: the running bench clocks of the grove are stretched (R406). -/
def execDroop (g : Nat) (s : State) : Answer :=
  if !boomRuns s || decide (4 ≤ g) then .next s
  else .next (updPower (fun p =>
    let p1 := updGrove p g fun x => { x with stretched := true }
    reasonOn s.fabric.time 4 (groveScope g) (grovePow p g).cap (stretchClocks g true p1)) s)

/-- The stretch of a grove ends where neither droop nor margin holds it (R406, R417). -/
def endStretch (time g : Nat) (p : PowerBlock) : PowerBlock :=
  if (grovePow p g).stretched || (grovePow p g).marginStretch then p
  else reasonOff time 4 (groveScope g) (stretchClocks g false p)

/-- DROOP_RECOVER: the stretch ends and no bench clock starts in the grove for 5 µs (R406). -/
def execDroopRecover (g : Nat) (s : State) : Answer :=
  if (grovePow s.power g).stretched then
    .next (updPower (fun p =>
      endStretch s.fabric.time g (updGrove p g fun x => { x with stretched := false, holdoff := some (s.now + 5000) })) s)
  else .next s

/-- DROOP_START_HOLDOFF_END: the 5 µs are over; the first deferred start is made (R406, R399). -/
def execDroopStartHoldoffEnd (g : Nat) (s : State) : Answer :=
  if (grovePow s.power g).holdoff.isSome then
    .next (updPower (fun p => startDeferred s.now g (updGrove p g fun x => { x with holdoff := none })) s)
  else .next s

/-! ### Temperature -/

/-- The sensors of the module (R407). -/
def sensorExists : Sensor → Bool
  | .grove g i => decide (g < 4 ∧ i < 16)
  | .stack n => decide (n < 12)
  | .package n => decide (n < 12)
  | .landing i => decide (i < 8)
  | .portDie d i => decide (d < 2 ∧ i < 4)
  | .alwaysOn _ => true

/-- Alarm and trip thresholds in °C (R407); a sensor of the always-on domain has neither. -/
def alarmAt : Sensor → Option Nat
  | .grove _ _ => some 105
  | .stack _ => some 95
  | .package _ => some 95
  | .landing _ => some 105
  | .portDie _ _ => some 105
  | .alwaysOn _ => none
def tripAt : Sensor → Option Nat
  | .grove _ _ => some 110
  | .stack _ => some 100
  | .package _ => some 100
  | .landing _ => some 110
  | .portDie _ _ => some 110
  | .alwaysOn _ => none

/-- What a sensor that has not reported for 1 ms counts as reading: its full-throttle threshold, else its alarm threshold, which is the
same temperature where a part has both (R407, R408; log 38). -/
def silentTemp (x : Sensor) : Nat := (alarmAt x).getD 0

/-- The sensor locator of a sensor, without OVERRIDE (R466; DIE counts within the class, log 39). -/
def sensorLocator : Sensor → Nat
  | .grove g i => i + (0 <<< 8) + (g <<< 12)
  | .stack n => 0 + (1 <<< 8) + (n <<< 12)
  | .package n => 0 + (2 <<< 8) + (n <<< 12)
  | .landing i => i + (3 <<< 8)
  | .portDie d i => i + (4 <<< 8) + (d <<< 12)
  | .alwaysOn i => i % 256 + (5 <<< 8)

/-- The state of a sensor. -/
def sensorState (p : PowerBlock) (x : Sensor) : SensorState :=
  (p.sensors.find? fun e => e.sensor == x).getD { sensor := x }

/-- What a sensor counts as reading. -/
def SensorState.counts (e : SensorState) : Nat := if e.silent then silentTemp e.sensor else e.temp

/-- A sensor's state stored. -/
def putSensor (e : SensorState) (p : PowerBlock) : PowerBlock :=
  { p with sensors := e :: p.sensors.filter fun x => x.sensor != e.sensor }

/-- The hottest sensor of those a test names. -/
def hottest (p : PowerBlock) (mine : Sensor → Bool) : Nat :=
  p.sensors.foldl (fun t e => if mine e.sensor then max t e.counts else t) 0

/-- The sensors of a grove, of its three stacks, of the Landing die. -/
def isGroveSensor (g : Nat) : Sensor → Bool
  | .grove h _ => g == h
  | _ => false
def isStackSensor (g : Nat) : Sensor → Bool
  | .stack n => n / 3 == g
  | _ => false
def isLandingSensor : Sensor → Bool
  | .landing _ => true
  | _ => false

/-- TEMP and STACK_TEMP of the groves (R420). -/
def noteTemps (p : PowerBlock) : PowerBlock :=
  [0, 1, 2, 3].foldl (fun p g =>
    updGrove p g fun x => { x with temp := hottest p (isGroveSensor g), stackTemp := hottest p (isStackSensor g) }) p

/-- A module trip (R409): the sensor kept, THERM_N asserted, steps 1–5 of the warm reset, then the trip state. -/
def tripModule (x : Sensor) (injected : Bool) (s : State) : State :=
  let s1 := keepIdentity s (resetSteps .trip s.life.keptCause s)
  updPower (fun p => { p with trip := some x, tripInjected := injected, thermAsserted := true }) s1

/-- THERM_N asserted, with its record at each assertion (R410). -/
def assertTherm (injected : Bool) (s : State) : State :=
  if s.power.thermAsserted then s
  else report { code := 0x8103, source := srcModule s, injected := injected } (updPower (fun p => { p with thermAsserted := true }) s)

/-- The throttle of a bulk package: on above 90 °C, off once 5 °C below (R407). -/
def packageResponse (n temp : Nat) (injected : Bool) (s : State) : State :=
  if 90 < temp ∧ !s.power.packageThrottled.contains n then
    report { code := 0x8104, source := srcModule s, injected := injected }
      (updPower (fun p => { p with packageThrottled := p.packageThrottled ++ [n] }) s)
  else if temp ≤ 85 then updPower (fun p => { p with packageThrottled := p.packageThrottled.filter fun m => m != n }) s
  else s

/-- The throttle of the Landing die: core clocks halved above 100 °C, back once 5 °C below (R407). -/
def landingResponse (injected : Bool) (s : State) : State :=
  let t := hottest s.power isLandingSensor
  if 100 < t ∧ !s.power.landingHalved then
    report { code := 0x8105, source := srcModule s, injected := injected } (updPower (fun p => { p with landingHalved := true }) s)
  else if t ≤ 95 then updPower (fun p => { p with landingHalved := false }) s
  else s

/-- What a reading makes the module do while Boom runs (R407–R410). -/
def tempResponse (x : Sensor) (injected : Bool) (s : State) : State :=
  let t := (sensorState s.power x).counts
  if (tripAt x).any (fun k => decide (k ≤ t)) then tripModule x injected s
  else
    let s1 := if (alarmAt x).any (fun k => decide (k ≤ t)) then assertTherm injected s else s
    match x with
    | .package n => packageResponse n t injected s1
    | .landing _ => landingResponse injected s1
    | _ => s1

/-- In the hold state THERM_N is asserted when a sensor of the always-on domain reads above 85 °C (R410). -/
def holdTherm (injected : Bool) (s : State) : State :=
  let hot := s.power.sensors.any fun e => match e.sensor with
    | .alwaysOn _ => decide (85 < e.temp)
    | _ => false
  if hot then assertTherm injected s else s

/-- TEMP and REFRESH_2X of a stack or package (R282, R283). -/
def noteDevice (x : Sensor) (t : Nat) (b : TierBlock) : TierBlock :=
  let f (d : DeviceStatus) : DeviceStatus := { d with temp := t, refresh2x := decide (85 < t) }
  match x with
  | .stack n => { b with stackStatus := b.stackStatus.update {} n f }
  | .package n => { b with packageStatus := b.packageStatus.update {} n f }
  | _ => b

/-- A reading of a sensor (R282, R407). -/
def takeReading (x : Sensor) (temp : Nat) (s : State) : State :=
  if s.life.power = .off ∨ !sensorExists x then s
  else
    let mine (w : Nat) : Bool := w % 65536 == sensorLocator x
    let codes : List W16 := [0x8101, 0x8103, 0x8104, 0x8105]
    let o := firstSome (fun c => firedOverride c mine s) codes
    let s0 := codes.foldl (fun s c => (fireInjection c mine s).2) s
    let t := min (o.getD temp) 255
    let old := sensorState s0.power x
    let e := { old with temp := t, at_ := s.now, silent := false }
    let s1 := updPower (fun p => noteTemps (putSensor e p)) s0
    if boomRuns s then tempResponse x o.isSome { s1 with tier := noteDevice x t s1.tier }
    else if s.life.power = .hold then holdTherm o.isSome s1
    else s1

/-- TEMP_SAMPLE (R407). -/
def execTempSample (x : Sensor) (temp : Nat) (s : State) : Answer := .next (takeReading x temp s)

/-- STACK_TEMP_REPORT: a stack (0–11) or bulk package (12–23) reports its temperature through its tier controller to Boom (R282).
REFRESH_2X follows the reading. -/
def execStackTempReport (device temp : Nat) (s : State) : Answer :=
  .next (takeReading (if device < 12 then .stack device else .package (device - 12)) temp s)

/-- The cap of a grove, and its reason (R408, R418); on a tie of the two figures the reason is 0x05 (log 40). -/
def capOf (s : State) (g : Nat) : Nat × Nat :=
  let x := grovePow s.power g
  let q := (powerCfg s).groveQuanta.getD g 0
  let a := q * min 10 (105 - x.temp) / 10
  let b := q * min 5 (95 - x.stackTemp) / 5
  let reason := if a ≤ b then (if a < q then 5 else 0) else 6
  (if x.ended then 0 else min a b, reason)

/-- A grove's cap set: its reason and the depth of its episodes follow, and what exceeds it is taken back (R400, R408, R415, R416). -/
def setCap (g : Nat) (s : State) : State :=
  let c := capOf s g
  let time := s.fabric.time
  let one (r : Nat) (p : PowerBlock) : PowerBlock :=
    if c.2 = r then reasonOn time r (groveScope g) c.1 p else reasonOff time r (groveScope g) p
  updPower (fun p =>
    let p1 := one 6 (one 5 (lowerDepth (groveScope g) c.1 (updGrove p g fun x => { x with cap := c.1, capReason := c.2 })))
    fitCap s.now g p1) s

/-- GROVE_CAP_UPDATE: every 100 µs (R408). -/
def execGroveCapUpdate (s : State) : Answer :=
  if !boomRuns s then .next s else .next ([0, 1, 2, 3].foldl (fun s g => setCap g s) s)

/-- A sensor silent for 1 ms (R408): it counts at its threshold, with one record 0x8102. -/
def sensorSilent (x : Sensor) (s : State) : State :=
  let a := fireInjection 0x8102 (fun w => w % 65536 == sensorLocator x) s
  let old := sensorState s.power x
  if !boomRuns s || !sensorExists x || old.silent then s
  else
    let e := { old with silent := true }
    let s1 := updPower (fun p => noteTemps (putSensor e p)) a.2
    let r : ErrRecord := { code := 0x8102, source := srcModule s, injected := a.1,
                           detail0 := BitVec.ofNat 64 (sensorLocator x), detail1 := BitVec.ofNat 64 old.temp }
    tempResponse x false (report r s1)

/-- SENSOR_TIMEOUT (R408). -/
def execSensorTimeout (x : Sensor) (s : State) : Answer := .next (sensorSilent x s)

/-- THERM_N_RELEASE: every sensor has stayed 5 °C below its alarm threshold for 1 s, and no other cause holds the pin (R410). -/
def execThermNRelease (s : State) : Answer :=
  let hot (e : SensorState) : Bool := match alarmAt e.sensor with
    | some k => decide (k < e.counts + 5)
    | none => decide (s.life.power = .hold) && decide (85 < e.temp)
  if s.life.power = .trip ∨ s.power.sensors.any hot then .next s
  else .next (updPower (fun p => { p with
    thermAsserted := false }) s)

/-! ### Input voltage -/

/-- INPUT_LOW_LIMIT: below 21.6 V the budgets are limited to V_in × 150 A (R411). -/
def execInputLowLimit (mv : Nat) (s : State) : Answer :=
  if 26400 < mv then .fault .notCharacterised
  else if s.life.power = .off then .next s
  else
    let s1 := withInput mv s
    .next (if 21600 ≤ mv ∨ !boomRuns s then s1 else limitInput s1)

/-- INPUT_LOW_LIMIT_END: the input has stayed at or above 21.6 V for 1 ms (R411). -/
def execInputLowLimitEnd (mv : Nat) (s : State) : Answer :=
  if 26400 < mv then .fault .notCharacterised
  else if s.life.power = .off then .next s
  else
    let s1 := withInput mv s
    if mv < 21600 then .next s1
    else
      let s2 := updPower (fun p => reasonOff s.fabric.time 8 moduleScope { p with inputLow := false }) s1
      .next (if boomRuns s then refreshBudget s2 else s2)

/-! ### The power brake -/

/-- The brake is recognised while Boom runs: every grant revoked, deferred starts void, an episode over (R412, R422). -/
def applyBrake (s : State) : State :=
  if s.power.braked then s
  else updPower (fun p =>
    let p1 := setBudget 0 { endEpisode s.now p with braked := true }
    let p2 := revokeAll s.now 3 p1
    reasonOn s.fabric.time 3 moduleScope 0 (settleWaits s.fabric.time p2)) s

/-- POWER_BRAKE: PWRBRK_N has been low for 2 µs (R412); before step 2 of a cold start no notice is taken of it (R499). -/
def execPowerBrake (s : State) : Answer :=
  let s1 := { s with life := { s.life with brakePinLow := true } }
  .next (if s.life.power = .off then s else if boomRuns s then applyBrake s1 else s1)

/-- The brake released: BRAKED cleared, no comparison for 200 µs, grants restored (R404, R413). -/
def releaseBrake (s : State) : State :=
  if !s.power.braked then s
  else
    let s1 := updPower (fun p =>
      reasonOff s.fabric.time 3 moduleScope { p with braked := false, compareFrom := s.now + 200000 }) s
    restoreAll (refreshBudget (if s1.power.measured then
      updPower (fun p => { p with budget := quantaFor s1 (sustainedLimit s1 * 9 / 10) }) s1 else s1))

/-! ### Ageing -/

/-- One trim step, else one lowering of F_MAX, else the end of the grove (R417, R418). -/
def ageStep (g : Nat) (s : State) : State :=
  let x := grovePow s.power g
  let rec_ (code : W16) (s : State) : State := report { code := code, source := srcModule s } s
  if x.trimSteps < 24 then
    rec_ 0x8301 (updPower (fun p => updGrove p g fun x => { x with trimSteps := x.trimSteps + 1 }) s)
  else if x.fmaxSteps < 24 then
    rec_ 0x8302 (updPower (fun p =>
      reasonOn s.fabric.time 9 (groveScope g) x.cap (updGrove p g fun x => { x with fmaxSteps := x.fmaxSteps + 1 })) s)
  else if x.ended then s
  else setCap g (rec_ 0x8303 (updPower (fun p => updGrove p g fun x => { x with ended := true }) s))

/-- Whether a bench of a grove runs. -/
def groveBusy (p : PowerBlock) (g : Nat) : Bool :=
  p.benches.cells.any fun c => benchGrove c.1 == g && (c.2.clock == .running || c.2.clock == .stretched)

/-- Injected ageing records: the record only (R465, R466). -/
def ageInjections (g : Nat) (s : State) : State :=
  ([0x8301, 0x8302, 0x8303] : List W16).foldl (fun s c =>
    let a := fireInjection c (locatesGrove s g) s
    if a.1 then report { code := c, source := srcModule s, injected := true } a.2 else a.2) s

/-- MARGIN_SAMPLE: the ring monitors of a grove with a running bench (R417, R418). -/
def execMarginSample (g ps : Nat) (s : State) : Answer :=
  if !boomRuns s || decide (4 ≤ g) || !groveBusy s.power g then .next s
  else
    let x := grovePow s.power g
    let streak := if ps < 25 then x.lowStreak + 1 else 0
    let steps : Bool := decide (ps < 10) || decide (60 ≤ streak)
    let s1 := updPower (fun p => updGrove p g fun x =>
      { x with marginPs := min ps 0xFFFF, lowStreak := if steps then 0 else streak, marginStretch := decide (ps < 10) }) s
    let s2 := if ps < 10 then
        updPower (fun p => reasonOn s.fabric.time 4 (groveScope g) x.cap (stretchClocks g true p)) s1
      else updPower (endStretch s.fabric.time g) s1
    .next (ageInjections g (if steps then ageStep g s2 else s2))

/-! ### BOOM_CTL -/

/-- A write of BOOM_CTL (R420): each field out of its range keeps its value. -/
def boomCtlWrite (v : W64) (s : State) : State :=
  let soft := bitsOf v.toNat 15 0
  let sleep := bitsOf v.toNat 47 32
  let s1 := updPower (fun p =>
    { p with
      softLimit := if soft = 0 ∨ (600 ≤ soft ∧ soft ≤ 3800) then soft else p.softLimit
      sleepUs := if 10 ≤ sleep then sleep else p.sleepUs }) s
  if boomRuns s then refreshBudget s1 else s1

/-- BOOM_CTL_WRITE (R420, R422). -/
def execBoomCtlWrite (v : W64) (s : State) : Answer := .next (if inService s then boomCtlWrite v s else s)

end Sys2Proof.Machine
end

