-- ==== Sys2Proof/Machine/Errors.lean ====
section
/-!
DEFINITION. Machine/Errors.lean: the record queue, fatal handling, error requests, grove resets and quarantines, injection
slots and the array scan (R85, R91–R93, R447–R469).
-/

namespace Sys2Proof.Machine

/-- The error block changed. -/
def updErr (f : ErrBlock → ErrBlock) (s : State) : State := { s with err := f s.err }

/-! ### The record queue -/

/-- A count of lost records in its 16-bit field, saturating (R449). -/
def lostField (n : Nat) : Nat := min n 0xFFFF

/-- The 0x9301 record for what was lost, once there is room (R453). -/
def tellLost (s : State) : State :=
  let l := s.err.lost
  if l.none then s
  else
    let d := lostField l.info + (lostField l.corrected <<< 16) + (lostField l.failure <<< 32) + (lostField l.fatal <<< 48)
    reportModule 0x9301 (updErr (fun b => { b with lost := {} }) s) 0 d

/-- A write of ERR_READ (R453, R455). -/
def errReadWrite (v : W64) (s : State) : State :=
  if s.err.read < v.toNat ∧ v.toNat ≤ s.err.written then tellLost (updErr (fun b => { b with read := v.toNat }) s) else s

/-- ERR_READ: a write of the register (R455). -/
def execErrRead (v : W64) (s : State) : Answer := .next (errReadWrite v s)

/-- A write of 1 to ERR_FATAL.ACK: handling ends once ERR_READ has passed the fatal record, or at once for a lost one (R457). -/
def errAck (s : State) : State :=
  let passed : Bool := match s.err.fatalRecord with
    | some n => decide (n < s.err.read)
    | none => true
  if s.err.fatalActive && passed then updErr (fun b => { b with fatalActive := false, fatalRecord := none }) s else s

/-- ACK (R457). -/
def execAck (s : State) : Answer := .next (errAck s)

/-- A write of ERR_CTL (R460). -/
def errCtlWrite (v : W64) (s : State) : State :=
  updErr (fun b => { b with quarCorr := bitsOf v.toNat 47 32, quarUncorr := bitsOf v.toNat 3 0 }) s

/-! ### Grove resets and quarantines -/

/-- GROVE_RESET_REQUEST: software requests a grove reset (R91). -/
def execGroveResetRequest (g : Nat) (s : State) : Answer := .next (requestGroveReset g s)

/-- Steps 6 and 7 of a grove reset: failing benches quarantined, BUSY cleared, RESET_COUNT advanced, held quarantines, the record
(R85, R91, R93). No rule orders the parts of step 7 among themselves. DESIGN CHOICE (log 95): BUSY falls before the held quarantines
are applied, so the grove's own standby benches may take the roles, and the records 0x1211 of those stand before 0x1210. -/
def completeGroveReset (g : Nat) (bad : List Nat) (s : State) : State :=
  let x := s.groveResets.get {} g
  let tested := (grovesBenches g).filter fun n =>
    bad.contains n && (decide ((roleOf s n).state = .active) || decide ((roleOf s n).state = .standby))
  let s1 := quarantineNow g tested 0x1208 s
  let s2 := { s1 with groveResets := s1.groveResets.update {} g fun y =>
    { y with busy := false, count := wrapAdd 32 y.count 1, held := [] } }
  let s3 := applyHeld g x.held s2
  if s1.life.power ≠ .running then s1
  else if s3.life.power ≠ .running then s3
  else report { code := 0x1210, source := srcGrove s g } s3

/-- GROVE_RESET_COMPLETE; the operand names the benches that fail the self-test (R91). -/
def execGroveResetComplete (g : Nat) (bad : List Nat) (s : State) : Answer :=
  if (s.groveResets.get {} g).busy then .next (completeGroveReset g bad s) else .next s

/-- BENCH_QUARANTINE: software quarantines bench b of grove g; its record has cause 0 (R92, R460). -/
def execBenchQuarantine (g b : Nat) (s : State) : Answer :=
  if inService s ∧ g < 4 ∧ b < 128 then .next (quarantine (128 * g + b) 0 s) else .next s

/-- TALLY_STATE_ERROR (R461). -/
def execTallyStateError (g : Nat) (s : State) : Answer :=
  if inService s ∧ g < 4 then .next (tallyStateError g false s) else .next s

/-- OPCACHE_LINE_ERROR: an operand cache line is dropped (R451). -/
def execOpcacheLineError (g line : Nat) (s : State) : Answer :=
  if s.opLines.any fun l => l.grove == g && l.line == line then
    .next (report { code := 0x3902, source := srcGrove s g, address := BitVec.ofNat 64 (line * 512) }
      { s with opLines := s.opLines.filter fun l => !(l.grove == g && l.line == line) })
  else .next s

/-- SYSTEM_CACHE_LINE_ERROR: a system cache line is dropped; it holds nothing that memory does not (R425, R451). -/
def execSystemCacheLineError (pa : Nat) (s : State) : Answer :=
  if inService s then .next (reportModule 0x9304
      { s with landing := { s.landing with systemCache := s.landing.systemCache.filter fun c => c != pa / 512 } } (pa / 512 * 512))
  else .next s

/-- LANDING_STATE_ERROR (R458). -/
def execLandingStateError (s : State) : Answer := if inService s then .next (landingFault false s) else .next s

/-! ### Injection slots -/

/-- Form of a locator of an array point, a bench, a grove (R466). -/
def arrayLocator (s : State) (w : Nat) : Bool := ((locatorPlace s w).bind placeBench).isSome
def benchLocator (s : State) (w : Nat) : Bool :=
  match locatorPlace s w with
  | some (.bench _) => true
  | _ => false
def groveLocator (s : State) (w : Nat) : Bool :=
  match locatorPlace s w with
  | some (.grove _) | some (.cluster _ _) => true
  | _ => false

/-- A physical address of the near, bulk or flash tier. -/
def tierAddress (w : Nat) : Bool := nearOrBulk w || decide (flashBase ≤ w ∧ w < flashBase + flashSize)

/-- A Kerf lane locator of a bundle that exists. -/
def laneForm (w : Nat) : Bool :=
  decide (w < 2 ^ 17 ∧ bitsOf w 3 0 < 10 ∧ bitsOf w 8 4 < bundlesOf (bitsOf w 3 0) ∧ bitsOf w 16 10 ≤ 66)

/-- A sensor locator of a sensor that exists. -/
def sensorForm (w : Nat) : Bool :=
  let i := bitsOf w 7 0
  let d := bitsOf w 15 12
  bitsOf w 63 32 == 0 && bitsOf w 23 16 == 0 &&
  match bitsOf w 11 8 with
  | 0 => sensorExists (.grove d i)
  | 1 => i == 0 && sensorExists (.stack d)
  | 2 => i == 0 && sensorExists (.package d)
  | 3 => d == 0 && sensorExists (.landing i)
  | 4 => sensorExists (.portDie d i)
  | 5 => d == 0
  | _ => false

/-- Whether a locator has the form that R466 gives for a code; false for a code without an injection point. -/
def locatorForm (s : State) (code w : Nat) : Bool :=
  match code with
  | 0x2201 | 0x2202 | 0x2203 | 0x2204 => arrayLocator s w
  | 0x2320 | 0x2321 | 0x2322 => benchLocator s w
  | 0x3901 | 0x8301 | 0x8302 | 0x8303 => groveLocator s w
  | 0x3902 | 0x9304 => decide (w < 2 ^ 48) && cachedRegion (regionOf w)
  | 0x4101 | 0x4103 | 0x4301 => tierAddress w
  | 0x5102 => decide (w < 2 ^ 16)
  | 0x6101 | 0x6105 => laneForm w
  | 0x6205 | 0x6206 | 0x9201 => decide (w < 2)
  | 0x7101 | 0x7103 => decide (w < 72)
  | 0x7112 | 0x8201 | 0x8202 | 0x9303 => w == 0
  | 0x8101 | 0x8102 | 0x8103 | 0x8104 | 0x8105 => sensorForm w
  | _ => false

/-- Whether the point's locator is an address. -/
def addressPoint (code : Nat) : Bool := [0x3902, 0x9304, 0x4101, 0x4103, 0x4301].contains code

/-- The checks of ARM (R464): the code that refuses it, or 0. -/
def armRefusal (s : State) (code count w : Nat) : W16 :=
  if !locatorForm s code w || count == 0 then 0x9311
  else if addressPoint code && sealedData s w then 0x9312
  else 0

/-- An injection slot, and with a change. -/
def slotOf (s : State) (k : Nat) : InjSlot := s.err.inj.get {} k
def updSlot (k : Nat) (f : InjSlot → InjSlot) (s : State) : State := updErr (fun b => { b with inj := b.inj.update {} k f }) s

/-- ARM (R464). -/
def armSlot (k : Nat) (s : State) : State :=
  let x := slotOf s k
  let c := armRefusal s x.code.toNat x.count x.locator.toNat
  updSlot k (fun x => { x with state := if c = 0 then .armed else .refused, fired := 0, result := c }) s

/-- DISARM: free again, FIRED kept (R464). -/
def disarmSlot (k : Nat) (s : State) : State := updSlot k (fun x => { x with state := .free }) s

/-- A write of INJ_CTL_k; DISARM, when written with ARM, comes after it (log 41). -/
def injCtlWrite (k : Nat) (v : W64) (s : State) : State :=
  let s1 := if v.toNat.testBit 0 then armSlot k s else s
  if v.toNat.testBit 1 then disarmSlot k s1 else s1

/-- Writes of INJ_POINT_k and INJ_LOCATOR_k: only while the slot is not armed (R464). -/
def injPointWrite (k : Nat) (v : W64) (s : State) : State :=
  if (slotOf s k).state = .armed then s
  else updSlot k (fun x => { x with code := BitVec.ofNat 16 (bitsOf v.toNat 15 0), count := bitsOf v.toNat 47 32 }) s
def injLocatorWrite (k : Nat) (v : W64) (s : State) : State :=
  if (slotOf s k).state = .armed then s else updSlot k (fun x => { x with locator := v }) s

/-- Whether a requester may inject (R463): the management port, or a hart in S-mode or M-mode. -/
def mayInject (s : State) (hart : Bool) : Bool :=
  let level := (powerCfg s).injection
  if hart then level == 2 else level == 1 || level == 2

/-- Codes that INJ_START accepts: phases A–C, R79, and 0 (R467). -/
def injStartCode (c : Nat) : Bool := c == 0 || decide (0x1101 ≤ c ∧ c ≤ 0x110B) || decide (0x1201 ≤ c ∧ c ≤ 0x1207)
def injStartWrite (v : W64) (s : State) : State :=
  let c := bitsOf v.toNat 15 0
  if injStartCode c then updErr (fun b => { b with injStart := BitVec.ofNat 16 c }) s else s

/-- INJECTION_ARM: a write of INJ_CTL by a requester that may inject (R463, R464). -/
def execInjectionArm (k : Nat) (v : W64) (s : State) : Answer :=
  if inService s ∧ k < 16 ∧ mayInject s false then .next (injCtlWrite k v s) else .next s

/-- INJECTION_DISARM (R464). -/
def execInjectionDisarm (k : Nat) (s : State) : Answer :=
  if inService s ∧ k < 16 ∧ mayInject s false then .next (disarmSlot k s) else .next s

/-! ### The array scan (R469) -/

/-- Quanta a scan asks Boom for (R469). -/
def scanQuanta : Nat := 6

/-- GO: a scan of an idle or quarantined bench asks for its quanta; any other is refused (R469). One that runs goes on. -/
def startScan (s : State) : State :=
  let refuse (s : State) : State := updErr (fun b => { b with diagState := .idle, diagCode := 0x9314 }) s
  if s.err.diagState = .running then s
  else
    let s := updErr (fun b => { b with scanLocator := b.diagLocator }) s
    match (scanPlace s).bind placeBench with
    | none => refuse s
    | some n =>
      let st := (roleOf s n).state
      if (st = .idle ∨ st = .quarantined) ∧ !groveIneligible s (benchGrove n) then
        let r : GrantRequest := { bench := n, kind := .fresh, quanta := scanQuanta, since := s.now }
        let s1 := updPower (fun p => { updBench p n (fun b => { b with demand := scanQuanta }) with requests := p.requests ++ [r] }) s
        updErr (fun b => { b with diagState := .running, diagCode := 0, diagFails := 0 }) s1
      else refuse s

/-- A running scan ends; its bench gives its quanta back. -/
def leaveScan (state : ScanState) (s : State) : State :=
  let s1 := match (scanPlace s).bind placeBench with
    | some n => updPower (fun p => returnQuanta s.now n p) s
    | none => s
  updErr (fun b => { b with diagState := state }) s1

/-- ABORT: a running scan ends and STATE returns to 0. -/
def abortScan (s : State) : State := if s.err.diagState = .running then leaveScan .idle s else s

/-- A write of DIAG_CTL. -/
def diagCtlWrite (v : W64) (s : State) : State :=
  let s1 := if v.toNat.testBit 1 then abortScan s else s
  if v.toNat.testBit 0 then startScan s1 else s1

/-- A write of DIAG_LOCATOR; a scan that runs goes on where it began (R469). -/
def diagLocatorWrite (v : W64) (s : State) : State := updErr (fun b => { b with diagLocator := v }) s

/-- GO: a write of DIAG_CTL (R469). -/
def execGo (v : W64) (s : State) : Answer := if inService s then .next (diagCtlWrite v s) else .next s

/-- ABORT (R469). -/
def execAbort (s : State) : Answer := .next (abortScan s)

/-- Whether a place lies at or within a scanned place. -/
def placeWithin (scan u : UnitPlace) : Bool :=
  match scan, u with
  | .bench n, _ => placeBench u == some n
  | .sect n x, .sect m y => n == m && x == y
  | .sect n x, .row m y _ => n == m && x == y
  | .sect n x, .cell m y _ _ => n == m && x == y
  | .row n x r, .row m y q => n == m && x == y && r == q
  | .row n x r, .cell m y q _ => n == m && x == y && r == q
  | .cell n x r c, .cell m y q d => n == m && x == y && r == q && c == d
  | _, _ => false

/-- Codes of the array points that a scan tests (R466). -/
def scanCodes : List W16 := [0x2201, 0x2202, 0x2203, 0x2204]

/-- Whether a locator names a place that the scan covers. -/
def scanCovers (scan : UnitPlace) (s : State) (w : Nat) : Bool := (locatorPlace s w).any (placeWithin scan)

/-- The places at which armed array points fire on a scan. -/
def scannedPoints (scan : UnitPlace) (s : State) : List UnitPlace :=
  ((s.err.inj.cells.filter fun c => scanCodes.any fun k => slotHits k (scanCovers scan s) c.2).filterMap
    fun c => locatorPlace s c.2.locator.toNat).eraseDups

/-- Armed array points that the scan covers fire on it (R466, R469). -/
def scanInjections (scan : UnitPlace) (s : State) : State :=
  scanCodes.foldl (fun s c => (fireInjection c (scanCovers scan s) s).2) s

/-- The lowest locator of the cells among some places. -/
def firstCell (s : State) (us : List UnitPlace) : Option Nat :=
  (us.filterMap fun u => match u with
    | .cell _ _ _ _ => some (writeUnitId (mladyth s) ⟨moduleIndex s, u⟩)
    | .bench _ | .grove _ | .cluster _ _ | .module | .sect _ _ | .row _ _ _ => none).min?

/-- The scan's outcome (R469); each place at which a point fires counts as a failing cell (log 94). Where no cell failed, or only points
that name no cell failed the scan, the spec names no first failing cell: DIAG_FIRST is a free value. -/
def finishScan (scan : UnitPlace) (fails : Nat) (first : W64) (s : State) : State :=
  let us := scannedPoints scan s
  let a := scanInjections scan s
  let total := fails + us.length
  let s1 := if fails ≠ 0 then updErr (fun b => { b with diagFirst := first }) a
    else match firstCell s us with
      | some w => updErr (fun b => { b with diagFirst := BitVec.ofNat 64 w }) a
      | none => updErr (fun b => { b with diagFirst := (drawFree a).1 }) (drawFree a).2
  leaveScan (if total = 0 then .passed else .failed) (updErr (fun b => { b with diagFails := min total 0xFFFF }) s1)

/-- The scan holds its grant and its clock runs. -/
def scanRuns (s : State) (n : Nat) : Bool :=
  let b := benchPow s.power n
  decide (scanQuanta ≤ b.granted) && (b.clock == .running || b.clock == .stretched)

/-- DIAG_SCAN_DONE: what the scan found, and the first failing cell (R469). -/
def execDiagScanDone (fails : Nat) (first : W64) (s : State) : Answer :=
  match scanPlace s with
  | some u =>
    match placeBench u with
    | some n => if s.err.diagState = .running ∧ scanRuns s n then .next (finishScan u fails first s) else .next s
    | none => .next s
  | none => .next s

end Sys2Proof.Machine
end

