-- ==== Sys2Proof/Machine/Move.lean ====
section
/-!
DEFINITION. Machine/Move.lean: MOVE tasks (R273–R276): copies, fills, prefetches, evictions and flash writes, unit by unit.
-/

namespace Sys2Proof.Machine

/-- Bytes of a MOVE unit (R274). -/
def moveUnit : Nat := 65536

/-- The units of a transfer from number `k` on: offset and bytes. -/
def moveUnits (length k : Nat) : List (Nat × Nat) :=
  ((List.range (ceilDiv length moveUnit)).drop k).map fun i => (i * moveUnit, min moveUnit (length - i * moveUnit))

/-- Scratch that a unit of a MOVE reads or writes. -/
def unitRuns (d : MoveDesc) (off len : Nat) : List (Nat × Nat) :=
  (if d.op = .copy then scratchRun (d.src + off) len else []) ++
  (if (d.op = .copy ∧ !d.dstHandle) ∨ d.op = .fill then scratchRun (d.dst + off) len else [])

/-- Whether a MOVE writes rows of memory. -/
def moveWritesRows (d : MoveDesc) : Bool := (d.op == .copy || d.op == .fill) && !d.dstHandle && !addrScratch d.dst

/-- The work of one unit: its offset and bytes. -/
abbrev UnitWork := Task → MoveDesc → Nat → Nat → Nat → State → Reply Unit × State

/-- Units done one after the other, the task's progress counted: all of them, or those before one whose scratch the bench holds, or whose
rows are to be written after those of an earlier task (R319). -/
def moveAll (w : UnitWork) (t : Task) (d : MoveDesc) (n : Nat) : List (Nat × Nat) → State → Reply Bool × State
  | [], s => (.done true, s)
  | (off, len) :: us, s =>
    if scratchHeld s t n (unitRuns d off len) || (moveWritesRows d && rowsHeld s t n) then (.done false, s)
    else Reply.andThen (w t d n off len s) fun _ u =>
      moveAll w t d n us (updTask t.ring t.seq (fun t => { t with progress := t.progress + 1 }) u)

/-! ### COPY and FILL -/

/-- Whether a byte of the destination lies in the source: its value after an overlapping COPY is undefined (R274). -/
def overlaps (d : MoveDesc) (a : Nat) : Bool :=
  !d.dstHandle && addrScratch d.src == addrScratch d.dst && decide (addrOffset d.src ≤ a ∧ a < addrOffset d.src + d.length)

/-- Whether source and destination of a COPY overlap. -/
def rangesOverlap (d : MoveDesc) : Bool :=
  !d.dstHandle && addrScratch d.src == addrScratch d.dst &&
  decide (addrOffset d.src < addrOffset d.dst + d.length ∧ addrOffset d.dst < addrOffset d.src + d.length)

/-- Whether the source byte at an offset has been overwritten by the units of a COPY before unit `k` of its transfer. -/
def overwritten (d : MoveDesc) (k off : Nat) : Bool :=
  let a := addrOffset d.src + off
  decide (addrOffset d.dst ≤ a ∧ a < addrOffset d.dst + k * moveUnit)

/-- Bytes of a source unit with those that earlier units have overwritten as they were before (R274). -/
def restoreSource (d : MoveDesc) (kept : Table Nat) (off : Nat) (bs : List Byte) : List Byte :=
  let k := off / moveUnit
  match kept.cells.find? fun c => c.1 == k with
  | some c => (numbered bs).map fun x => if overwritten d k (off + x.1) then BitVec.ofNat 8 (c.2 >>> (8 * x.1)) else x.2
  | none => bs

/-- Bytes on their way to the destination at an offset: a free value for each that the overlap leaves undefined (log 4). -/
def undefineOverlap (d : MoveDesc) : Nat → List Byte → State → List Byte × State
  | _, [], s => ([], s)
  | off, b :: bs, s =>
    if overlaps d (addrOffset d.dst + off) then
      let f := drawFree s
      let r := undefineOverlap d (off + 1) bs f.2
      (f.1.truncate 8 :: r.1, r.2)
    else
      let r := undefineOverlap d (off + 1) bs s
      (b :: r.1, r.2)

/-- What stands in the source of an overlapping COPY, unit by unit, as it begins: what cannot be read is met when its unit is. -/
def keepSource (t : Task) (d : MoveDesc) (n : Nat) (s : State) : State :=
  let q := { moveRequester t n with quiet := true }
  (moveUnits d.length 0).foldl (fun s u =>
    match fieldRead q (d.src + u.1) u.2 s with
    | (.done bs, v) => updTask t.ring t.seq (fun t => { t with kept := t.kept.set 0 (u.1 / moveUnit) (natOfBytes bs) }) v
    | (.fail _ _, _) | (.wait, _) => s) s

/-- One unit of a COPY. -/
def copyUnit : UnitWork := fun t d n off len s =>
  Reply.andThen (fieldRead (moveRequester t n) (d.src + off) len s) fun bs u =>
    if d.dstHandle then (.done (), sendTransfer t (handlePlus d.dst off) d.timed bs u)
    else if rangesOverlap d then
      let kept := ((findTask u t.ring t.seq).map (·.kept)).getD {}
      let q := moveRequester t n
      Reply.andThen (if addrScratch d.dst then (.done [], u) else translatePieces q true (pagePieces (addrOffset d.dst + off) len) u) fun _ v =>
        let r := undefineOverlap d off (restoreSource d kept off bs) v
        fieldWrite q (d.dst + off) r.1 r.2
    else fieldWrite (moveRequester t n) (d.dst + off) bs u

/-- COPY, unit by unit in ascending order (R274): every byte of the destination outside the overlap arrives as the source had it. -/
def copyWork (t : Task) (d : MoveDesc) (n : Nat) (s : State) : Reply Bool × State :=
  moveAll copyUnit t d n (moveUnits d.length t.progress) (if rangesOverlap d ∧ t.progress = 0 then keepSource t d n s else s)

/-- Bytes of PATTERN, repeated. -/
def patternBytes (p n : Nat) : List Byte := (List.range n).map fun i => BitVec.ofNat 8 (p >>> (i % 8 * 8))

/-- FILL. -/
def fillWork (t : Task) (d : MoveDesc) (n : Nat) (s : State) : Reply Bool × State :=
  moveAll (fun t d n off len s => fieldWrite (moveRequester t n) (d.dst + off) (patternBytes d.pattern len) s)
    t d n (moveUnits d.length t.progress) s

/-! ### PREFETCH and EVICT -/

/-- The ashlars, as tier offsets, behind translated pieces; none when a piece lies outside the aperture (R274). -/
def ashlarsOf (pas : List Nat) : Option (List Nat) :=
  if pas.all fun pa => decide (regionOf pa = .aperture) then
    some ((pas.map fun pa => (pa - apertureBase) / ashlarSize * ashlarSize).eraseDups)
  else none

/-- The near copy of an ashlar made as a read would make it (R267): present, it counts as just used (R271). -/
def prefetchAshlar (q : Requester) (a : Nat) (s : State) : Reply Unit × State :=
  match tieredObject s q a with
  | .error c => (.fail c (apertureBase + a), s)
  | .ok o => match frameOf s a with
    | some f => if f.copying then (.wait, beginMigration o a (some q.waiter) s) else (.done (), touchFrame f s)
    | none => if servedFromHome s o a then (.done (), s) else (.wait, beginMigration o a (some q.waiter) s)

/-- The near copy of an ashlar discarded: with reads in flight on it once they end, later reads missing it (R271, R274). -/
def evictAshlar (q : Requester) (a : Nat) (s : State) : Reply Unit × State :=
  match tieredObject s q a with
  | .error c => (.fail c (apertureBase + a), s)
  | .ok _ => match frameOf s a with
    | some f =>
      if f.copying then (.done (), s)
      else (.done (), dropLeaving { s with tier := { s.tier with
        frames := s.tier.frames.map fun x => if x = f then { x with leaving := true } else x
        evictions := wrapAdd 64 s.tier.evictions 1 } })
    | none => (.done (), s)

/-- Ashlars treated one after the other. -/
def eachAshlar (f : Requester → Nat → State → Reply Unit × State) (q : Requester) : List Nat → State → Reply Unit × State
  | [], s => (.done (), s)
  | a :: as, s => Reply.andThen (f q a s) fun _ u => eachAshlar f q as u

/-- One unit of a PREFETCH or EVICT. -/
def ashlarUnit (f : Requester → Nat → State → Reply Unit × State) : UnitWork := fun t d n off len s =>
  let q := moveRequester t n
  Reply.andThen (translatePieces q false (pagePieces (addrOffset d.src + off) len) s) fun pas u =>
    match ashlarsOf pas with
    | none => (.fail 0x4205 (pas.headD 0), u)
    | some as => eachAshlar f q as u

/-- PREFETCH. -/
def prefetchWork (t : Task) (d : MoveDesc) (n : Nat) (s : State) : Reply Bool × State :=
  moveAll (ashlarUnit prefetchAshlar) t d n (moveUnits d.length t.progress) s

/-- EVICT. -/
def evictWork (t : Task) (d : MoveDesc) (n : Nat) (s : State) : Reply Bool × State :=
  moveAll (ashlarUnit evictAshlar) t d n (moveUnits d.length t.progress) s

/-! ### FLASH_WRITE (R276) -/

/-- Pieces of a range translated for a flash write. -/
def translateFlash (q : Requester) : List (Nat × Nat) → State → Reply (List Nat) × State
  | [], s => (.done [], s)
  | (a, _) :: ps, s =>
    Reply.andThen (translate q a true s true) fun pa u => Reply.andThen (translateFlash q ps u) fun r v => (.done (pa :: r), v)

/-- The flash unit that translated pieces name, when they are one whole unit in order. -/
def flashUnitOf (pas : List Nat) : Option Nat :=
  match pas with
  | [] => none
  | pa :: _ =>
    if regionOf pa = .flash ∧ pa % ashlarSize = 0 ∧ pas = (List.range pas.length).map fun i => pa + i * 4096 then some pa else none

/-- Whether a flash unit belongs to the home of a VALID object (R271). -/
def flashHome (s : State) (pa : Nat) : Bool :=
  s.tier.objects.cells.any fun c => c.2.valid && decide (c.2.homeBase < pa + ashlarSize ∧ pa < c.2.homeBase + c.2.granules * stakeSize)

/-- A flash unit replaced whole; its poison entry goes (R276, R278). -/
def writeFlashUnit (key : HomeKey) (pa : Nat) (bs : List Byte) (s : State) : State :=
  let u := homeStore key pa bs s
  { u with
    tier := { u.tier with
      flashPoison := u.tier.flashPoison.set false (pa / ashlarSize) false
      flashWritten := u.tier.flashWritten.set false (pa / ashlarSize) true
      metError := u.tier.metError.filter (· != pa / ashlarSize) } }

/-- One unit of a FLASH_WRITE. -/
def flashUnit : UnitWork := fun t d n off len s =>
  let q := moveRequester t n
  let src := addrOffset d.src + off
  Reply.andThen (translatePieces q false (pagePieces src len) s) fun spas u =>
    if spas.any fun pa => !nearOrBulk pa then (.fail 0x4205 (spas.headD 0), u)
    else Reply.andThen (translateFlash q (pagePieces (addrOffset d.dst + off) len) u) fun dpas v =>
      match flashUnitOf dpas with
      | none => (.fail 0x4205 (dpas.headD 0), v)
      | some pa =>
        if flashHome v pa then (.fail 0x4204 pa, v)
        else match contextKey v t.context with
          | .gone => (.fail 0x9302 pa, v)
          | key => Reply.andThen (engineRead q src len v) fun bs w => (.done (), writeFlashUnit key pa bs w)

/-- FLASH_WRITE. -/
def flashWork (t : Task) (d : MoveDesc) (n : Nat) (s : State) : Reply Bool × State :=
  moveAll flashUnit t d n (moveUnits d.length t.progress) s

/-! ### The task -/

/-- A command of a MOVE task: it issues, and its units are moved from its progress on. -/
def moveStep (op : MoveOp) (w : Task → MoveDesc → Nat → State → Reply Bool × State) (r seq : Nat) (s : State) : State :=
  let s1 := match findTask s r seq with
    | some t => match t.body with
      | .move d => if d.op = op ∧ t.phase = .staged then issueBench t (fun _ s => s) s else s
      | _ => s
    | none => s
  match findTask s1 r seq with
  | some t => match t.body, t.bench with
    | .move d, some n =>
      if d.op = op ∧ worksOn s1 n t ∧ !t.stopping ∧ !t.workDone then
        match w t d n s1 with
        | (.done true, u) => markWorkDone r seq u
        | (.done false, u) => u
        | (.wait, u) => blockTask t u
        | (.fail code pa, u) => failTask t code u pa
      else s1
    | _, _ => s1
  | none => s1

def execCopy (r seq : Nat) (s : State) : Answer := .next (moveStep .copy copyWork r seq s)
def execFill (r seq : Nat) (s : State) : Answer := .next (moveStep .fill fillWork r seq s)
def execPrefetch (r seq : Nat) (s : State) : Answer := .next (moveStep .prefetch prefetchWork r seq s)
def execEvict (r seq : Nat) (s : State) : Answer := .next (moveStep .evict evictWork r seq s)
def execFlashWrite (r seq : Nat) (s : State) : Answer := .next (moveStep .flashWrite flashWork r seq s)

end Sys2Proof.Machine
end

