-- ==== Sys2Proof/Machine/Tiers.lean ====
section
/-!
DEFINITION. Machine/Tiers.lean: the tier directory (R264–R285): migrations, errors and repairs, enabling, objects and their drains.
-/

namespace Sys2Proof.Machine

/-! ### Migrations (R267, R269, R271) -/

/-- A migration that waited for a frame takes one (R269). -/
def frameForWaiting (m : Migration) (o : TierObject) (s : State) : State :=
  let r := takeFrame (poolGrove o m.ashlar) m.ashlar (o.policy == 2) s
  match r.1 with
  | none => s
  | some f => { r.2 with tier := { r.2.tier with inProgress := r.2.tier.inProgress.map fun x =>
      if x.ashlar = m.ashlar then { x with frame := some (f.grove, f.index), refused := migrationRefused r.2 o m.ashlar (some f) } else x } }

/-- MIGRATION: a read that misses begins the copy of its ashlar; one that found no frame takes it now (R267, R269). -/
def migration (offset : Nat) (s : State) : State :=
  let a := offset / ashlarSize * ashlarSize
  match s.tier.inProgress.find? fun m => m.ashlar == a with
  | some m => match servingObject s a with
    | some (_, o) => if m.frame.isNone && !servedFromHome s o a then frameForWaiting m o s else s
    | none => s
  | none =>
    if !s.tier.enable || !inService s then s
    else match objectAt s a with
      | some (_, o) => if (frameOf s a).isSome || servedFromHome s o a || o.failed then s else beginMigration o a none s
      | none => s

def execMigration (offset : Nat) (s : State) : Answer := .next (migration offset s)

/-- The near copy of an ashlar made from its bytes: written into its frame, counted, the waiters served (R267, R271, R283). -/
def finishCopy (m : Migration) (bs : List Byte) (s : State) : State :=
  let s1 := match frameOf s m.ashlar with
    | some f => { rawWrite (frameAddr s f) bs s with tier := { (rawWrite (frameAddr s f) bs s).tier with
        migrations := wrapAdd 64 s.tier.migrations 1 } }
    | none => s
  serveWaiters m.ashlar m.waiters (endMigration m true s1)

/-- The tier directory, with the context TIER, may not write the frame of an ashlar, for a migration accepted before (R287, R303, R314). -/
def frameRefused (s : State) (ashlar : Nat) : Bool :=
  (frameOf s ashlar).any fun f => (tierRefusal s true (frameAddr s f) ashlarSize true).isSome

/-- The tier directory reading a home for an object. -/
def tierRequester (o : TierObject) : Requester := { agent := .tier, context := o.context }

/-- MIGRATION_COMPLETE: the copy of an ashlar into its frame ends (R267, R271, R279). -/
def migrationComplete (ashlar : Nat) (s : State) : State :=
  match s.tier.inProgress.find? fun m => m.ashlar == ashlar with
  | none => s
  | some m =>
    if m.frame.isNone || !m.repair.isEmpty then s
    else match servingObject s ashlar with
      | none => s
      | some (_, o) =>
        let pa := homeAddr o ashlar
        let i := injectRead (tierRequester o) pa ashlarSize s
        let s1 := i.2
        if m.refused || (tierRefusal s1 false pa ashlarSize true).isSome || frameRefused s1 ashlar then failMigration m 0x5201 pa s1
        else if flashMet s1 pa ashlarSize then failMigration m 0x4301 pa (clearMet pa ashlarSize s1)
        else if i.1 || poisonIn s1 pa ashlarSize then failMigration m 0x4301 pa s1
        else match homeKey s1 o with
          | .gone => failMigration m 0x9302 pa s1
          | key => finishCopy m (homeBytes s1 key pa ashlarSize) s1

def execMigrationComplete (ashlar : Nat) (s : State) : Answer := .next (migrationComplete ashlar s)

/-! ### Errors and repairs (R277–R280) -/

/-- Whether a physical address lies in a tier. -/
def inTier (pa : Nat) : Bool := match regionOf pa with
  | .near | .bulk | .flash => true
  | _ => false

/-- CORRECTED_ERROR (R277). -/
def execCorrectedError (pa : Nat) (s : State) : Answer := .next (if inTier pa && inService s then correctedAt pa false s else s)

/-- The frame whose copy a physical address lies in. -/
def frameHolding (s : State) (pa : Nat) : Option PoolFrame :=
  s.tier.frames.find? fun f => !f.copying && decide (frameAddr s f ≤ pa ∧ pa < frameAddr s f + ashlarSize)

/-- The near copy that met an uncorrectable error is discarded and copied again (R278). -/
def refetchFrame (f : PoolFrame) (s : State) : State :=
  let s1 := report { code := 0x4103, source := srcModule s, address := BitVec.ofNat 64 (frameAddr s f) }
    { s with tier := { s.tier with frames := s.tier.frames.filter fun x => x != f } }
  match servingObject s1 f.ashlar with
  | some (_, o) => beginMigration o f.ashlar none s1
  | none => s1

/-- REPLICA_FETCH_ARRIVAL: the home is rewritten, the near copy made, the waiters served (R280), where their stakes serve TIER
(R303). -/
def replicaArrival (ashlar : Nat) (data : List Byte) (s : State) : State :=
  match s.tier.inProgress.find? fun m => m.ashlar == ashlar with
  | none => s
  | some m =>
    if m.repair.isEmpty || data.length != ashlarSize then s
    else match servingObject s ashlar with
      | none => s
      | some (_, o) =>
        let pa := homeAddr o ashlar
        if (tierRefusal s true pa ashlarSize true).isSome || frameRefused s ashlar then failMigration m 0x5201 pa s
        else match homeKey s o with
        | .gone => failMigration m 0x9302 pa s
        | key =>
          let s1 := if regionOf pa = .flash then writeFlashUnit key pa data s else homeStore key pa data s
          let s2 := { s1 with tier := { s1.tier with repaired := satAdd 32 s1.tier.repaired 1 } }
          let s3 := if m.frame.isSome then finishCopy m data s2 else serveWaiters ashlar m.waiters (endMigration m true s2)
          report { code := 0x4303, source := srcModule s, address := BitVec.ofNat 64 pa, context := BitVec.ofNat 16 o.context } s3

/-- The module a handle of a replica names can be read: it is reachable over a path that is up (R280, R365, R386). -/
def replicaReachable (s : State) (h : Nat) : Bool :=
  let m := handleTarget s h
  decide (reachOf s m = .reachable) && pathUp s m && !handleMalformed s h ashlarSize

/-- A repair from the replica is asked for, with a best-effort read of the peer, or of this module's own window table where the handle names
it (R372); the ashlar's migration waits for it, and another failing block of the ashlar joins it (R280). -/
def beginRepair (o : TierObject) (ashlar pa : Nat) (s : State) : State :=
  let fresh := !inRepair s ashlar
  let s1 := if (s.tier.inProgress.any fun m => m.ashlar == ashlar) then s
    else if servedFromHome s o ashlar || (frameOf s ashlar).isSome then
      { s with tier := { s.tier with inProgress := s.tier.inProgress ++ [{ ashlar := ashlar, frame := none }] } }
    else beginMigration o ashlar none s
  let s2 := { s1 with tier := { s1.tier with inProgress := s1.tier.inProgress.map fun m =>
      if m.ashlar = ashlar ∧ !m.repair.contains pa then { m with repair := m.repair ++ [pa] } else m } }
  let h := replicaHandle o ashlar
  let fail (s : State) : State := match s.tier.inProgress.find? fun m => m.ashlar == ashlar with
    | some m => repairFailed m s
    | none => s
  if !fresh then s2
  else if handleTarget s2 h = moduleIndex s2 then
    if handleMalformed s2 h ashlarSize then fail s2
    else match windowRead (handleWindow h) (moduleIndex s2) (moduleGen s2) (handleOffset h) ashlarSize s2 with
      | (.ok bs, t) => replicaArrival ashlar bs t
      | (.error _, t) => fail t
  else if replicaReachable s2 h then
    let id := s2.fabric.nextTransfer
    let s3 := { s2 with
      fabric := { s2.fabric with nextTransfer := id + 1 }
      tier := { s2.tier with inProgress := s2.tier.inProgress.map fun m => if m.ashlar = ashlar then { m with fetch := some id } else m } }
    countFrames 1 (firstPort s3 (handleTarget s3 h)) s3
  else fail s2

/-- The flash poison table is full, so that a failing unit does not enter it: the read that met the error fails, a migration in progress, else
the next read of the unit, which stands for it (R279; log 89). -/
def failFlashRead (pa : Nat) (s : State) : State :=
  if regionOf pa = .flash ∧ !s.tier.flashPoison.get false (pa / ashlarSize) then
    match s.tier.inProgress.filter fun m => match servingObject s m.ashlar with
      | some (_, o) => homeAddr o m.ashlar / ashlarSize == pa / ashlarSize
      | none => false with
    | [] => { s with tier := { s.tier with metError := (pa / ashlarSize :: s.tier.metError).eraseDups } }
    | ms => ms.foldl (fun s m => failMigration m 0x4301 pa s) s
  else s

/-- UNCORRECTABLE_READ: a near copy is copied again, a replicated home is repaired, any other place is poisoned (R278, R280). -/
def uncorrectableRead (pa : Nat) (s : State) : State :=
  if !inTier pa || !inService s then s
  else match frameHolding s pa with
    | some f => refetchFrame f s
    | none => match objectAtHome s pa with
      | some (_, o) =>
        if o.replicated then beginRepair o (o.base + (pa - o.homeBase) / ashlarSize * ashlarSize) pa s
        else failFlashRead pa (poisonAt pa s)
      | none => failFlashRead pa (poisonAt pa s)

def execUncorrectableRead (pa : Nat) (s : State) : Answer := .next (uncorrectableRead pa s)

def execReplicaFetchArrival (ashlar : Nat) (data : List Byte) (s : State) : Answer := .next (replicaArrival ashlar data s)

/-- REPLICA_TIMEOUT: the fetch has not ended within REPLICA_TIMEOUT_US (R280). -/
def replicaTimeout (ashlar : Nat) (s : State) : State :=
  match s.tier.inProgress.find? fun m => m.ashlar == ashlar with
  | some m => if m.repair.isEmpty then s else repairFailed m s
  | none => s

def execReplicaTimeout (ashlar : Nat) (s : State) : Answer := .next (replicaTimeout ashlar s)

/-! ### Registers (R268, R283) -/

/-- Whether every stake of a range of the near or bulk tier is assigned to an owner. -/
def stakesOwned (s : State) (owner pa n : Nat) : Bool :=
  (blocksOf stakeSize pa n).all fun b => let k := stakeAt s (b * stakeSize); decide (k.state = .owned) && k.owner == owner

/-- Bytes of a pool with its tag area (R268). -/
def poolBytes (p : NearPool) : Nat := p.frames * ashlarSize + ceilDiv (p.frames * 16) stakeSize * stakeSize

/-- Whether a grove's pool is in order: none, or within the grove's near range with its stakes assigned to TIER. -/
def poolGood (s : State) (g : Nat) : Bool :=
  let p := poolOf s g
  p.frames == 0 || (decide (g * groveRange ≤ p.base ∧ p.base + poolBytes p ≤ (g + 1) * groveRange) && stakesOwned s 0xFFF1 p.base (poolBytes p))

/-- A write of TIER_CTL: REPLICA_TIMEOUT_US within its range, and ENABLE. -/
def tierCtlWrite (v : Nat) (s : State) : State :=
  let us := bitsOf v 63 32
  let s1 := if 100 ≤ us ∧ us ≤ 1000000 then { s with tier := { s.tier with replicaTimeoutUs := us } } else s
  if !bitOf v 0 || s1.tier.enable then s1
  else if (List.range 4).all (poolGood s1) then { s1 with tier := { s1.tier with enable := true, cfgErr := false } }
  else { s1 with tier := { s1.tier with cfgErr := true } }

/-- TIER_ENABLE. -/
def execTierEnable (v : W64) (s : State) : Answer := .next (if inService s then tierCtlWrite v.toNat s else s)

/-- Object n, and with a change. -/
def objectOf (s : State) (o : Nat) : TierObject := s.tier.objects.get {} o
def updObject (o : Nat) (f : TierObject → TierObject) (s : State) : State :=
  { s with tier := { s.tier with objects := s.tier.objects.update {} o f } }

/-- The tier a whole range lies in, if it lies in one. -/
def tierOfRange (pa n : Nat) : Option Nat :=
  match regionOf pa, regionOf (pa + n - 1) with
  | .near, .near => some 0
  | .bulk, .bulk => some 1
  | .flash, .flash => some 2
  | _, _ => none

/-- Whether two objects' ranges overlap. -/
def objectsOverlap (a b : TierObject) : Bool :=
  decide (a.base < b.base + b.granules * stakeSize ∧ b.base < a.base + a.granules * stakeSize)

/-- The check that refuses a VALID of 1, as OBJ_ERR codes it (R283). -/
def objectCheck (s : State) (i : Nat) (o : TierObject) : Option Nat :=
  let n := o.granules * stakeSize
  if o.granules = 0 ∨ 33554432 < o.granules ∨ 2 ^ 46 < o.base + n then some 1
  else if s.tier.objects.cells.any fun c => c.1 != i && (c.2.valid || c.2.busy) && objectsOverlap o c.2 then some 2
  else match tierOfRange o.homeBase n with
    | none => some 3
    | some tier =>
      if tier < 2 ∧ !stakesOwned s 0xFFF1 o.homeBase n then some 3
      else if 2 < o.policy ∨ 4 < o.affinity then some 4
      else if o.policy ≠ 0 ∧ tier = 0 then some 5
      else if o.writable ∧ tier = 2 then some 6
      else if o.replicated ∧ o.replica = 0 then some 7
      else none

/-- A write of OBJ_POLICY (R272, R283): of a valid object only VALID acts, and a 0 begins its drain (R271). -/
def objPolicyWrite (i v : Nat) (s : State) : State :=
  let o := objectOf s i
  if o.busy then s
  else if o.valid then
    if bitOf v 63 then s else updObject i (fun o => { o with valid := false, busy := true, failed := false, zeroes := isSealed s o.context }) s
  else
    let o1 := { o with
      granules := bitsOf v 57 32, context := bitsOf v 31 16, replicated := bitOf v 11, writable := bitOf v 10
      affinity := bitsOf v 9 7, policy := bitsOf v 2 0, failed := false }
    if !bitOf v 63 then updObject i (fun _ => o1) s
    else match objectCheck s i o1 with
      | none => updObject i (fun _ => { o1 with valid := true }) s
      | some e => let s1 := updObject i (fun _ => o1) s; { s1 with tier := { s1.tier with objErr := e } }

/-- OBJECT_VALIDATE: a write of VALID 1. -/
def execObjectValidate (o : Nat) (v : W64) (s : State) : Answer :=
  .next (if o < 4096 ∧ inService s ∧ v.getLsbD 63 then objPolicyWrite o v.toNat s else s)

/-- OBJECT_DRAIN: a write of VALID 0. -/
def execObjectDrain (o : Nat) (v : W64) (s : State) : Answer :=
  .next (if o < 4096 ∧ inService s ∧ !v.getLsbD 63 then objPolicyWrite o v.toNat s else s)

/-- Whether a tier offset lies in an object's range. -/
def TierObject.holds (o : TierObject) (t : Nat) : Bool := decide (o.base ≤ t ∧ t < o.base + o.granules * stakeSize)

/-- A range zeroed by the tier directory, granule by granule, where its stakes still serve TIER; a refusal is recorded (R303). -/
def zeroServed (pa n : Nat) (s : State) : State :=
  (piecesOf stakeSize pa n).foldl (fun s p => match tierRefusal s true p.1 p.2 true with
    | some c => reportModule c s p.1 0 0 0 0xFFF1
    | none => zeroRange p.1 p.2 s) s

/-- OBJECT_DRAIN_DONE: accepted accesses are complete and the copies are discarded (R271); of a context that was
sealed when VALID was written 0, the copies and a near home are zeroed before (R308). -/
def objectDrainDone (i : Nat) (s : State) : State :=
  let o := objectOf s i
  if !o.busy || (s.tier.inProgress.any fun m => o.holds m.ashlar) || (s.tier.admitted.any fun x => o.holds x.2 && stillWaits s x.1) then s
  else
    let copies := s.tier.frames.filter fun f => o.holds f.ashlar
    let s1 := if o.zeroes then
        let s0 := copies.foldl (fun s f => zeroServed (frameAddr s f) ashlarSize s) s
        if regionOf o.homeBase = .near then zeroServed o.homeBase (o.granules * stakeSize) s0 else s0
      else s
    updObject i (fun o => { o with busy := false, zeroes := false })
      { s1 with tier := { s1.tier with
        frames := s1.tier.frames.filter fun f => !o.holds f.ashlar
        admitted := s1.tier.admitted.filter fun x => !o.holds x.2 } }

def execObjectDrainDone (o : Nat) (s : State) : Answer := .next (objectDrainDone o s)

/-- TIER_STATUS_READ: the value read, and OBJ_ERR cleared (R283). -/
def tierStatusValue (s : State) : Nat :=
  bitNat s.tier.cfgErr * 2 ^ 63 + s.tier.objErr % 65536 * 2 ^ 32 + s.tier.frameWaits
def tierStatusRead (s : State) : W64 × State :=
  (BitVec.ofNat 64 (tierStatusValue s), { s with tier := { s.tier with objErr := 0 } })

def execTierStatusRead (s : State) : Answer := .next (tierStatusRead s).2

end Sys2Proof.Machine
end

