-- ==== Sys2Proof/Machine/RegRead.lean ====
section
/-!
DEFINITION. Machine/RegRead.lean: what every register of the module control space reads as (R475–R488, and the register tables of the
owning chapters). Offsets are from 0x4000_0000_0000; an offset that holds no register reads zero (R480).
-/

namespace Sys2Proof.Machine

/-- A value in its field; bits that do not fit are cut off. -/
def fld (v hi lo : Nat) : Nat := v % 2 ^ (hi - lo + 1) * 2 ^ lo

/-- A flag at a bit. -/
def flag (b : Bool) (i : Nat) : Nat := bitNat b * 2 ^ i

/-- The index of an offset in an array of `n` registers `stride` bytes apart, when it lies at one. -/
def arrayIx (off base stride n : Nat) : Option Nat :=
  if base ≤ off ∧ off < base + stride * n ∧ (off - base) % stride = 0 then some ((off - base) / stride) else none

/-- The value at an array register, if the offset lies at one. -/
def arrayReg (off base stride n : Nat) (f : Nat → Nat) : Option Nat := (arrayIx off base stride n).map f

/-- The first of several register files that has a register at an offset; zero where none has (R480). -/
def firstReg : List (Option Nat) → Nat
  | [] => 0
  | some v :: _ => v
  | none :: rs => firstReg rs

/-- A register at one offset. -/
def reg (off at_ v : Nat) : Option Nat := if off = at_ then some v else none

/-! ### Identity and configuration readback (R486–R488) -/

/-- The common feature level (R80). -/
def commonFeatures (s : State) : Nat := s.life.common

/-- STEPPING, as the dies reported their steppings: groves, Landing die, port dies (R486). -/
def steppingReg (s : State) : Nat :=
  let d (i : Nat) : Nat := s.life.steppings.getD i 0 % 256
  d 0 + d 1 * 2 ^ 8 + d 2 * 2 ^ 16 + d 3 * 2 ^ 24 + d 6 * 2 ^ 32 + d 4 * 2 ^ 40 + d 5 * 2 ^ 48

/-- VARIANT: the order-code suffix in ASCII (R486). -/
def variantCode (s : State) : Nat := match s.part.orderCode with
  | 0 => 0x45
  | 1 => 0x50
  | _ => 0x43

/-- The six identity registers in offset order; zero before the dies are identified (R486). -/
def identityRegs (s : State) : List Nat :=
  let w (g : Nat) : Nat := s.life.features.getD g 0
  if !s.life.identified then [0, 0, 0, 0, 0, 0]
  else
    [fld 0x8600 63 48 + fld 0x48 47 40 + fld (variantCode s) 39 32 + fld s.part.vendor 15 0,
     s.part.serial, steppingReg s, fld (w 1) 63 32 + fld (w 0) 31 0, fld (w 3) 63 32 + fld (w 2) 31 0, commonFeatures s]

/-- Eight bytes of a section, as a readback register packs them. -/
def pack8 (f : Nat → Nat) (j : Nat) : Nat := (List.range 8).foldl (fun n k => n + f (8 * j + k) % 256 * 2 ^ (8 * k)) 0

/-- Byte i of CORD_KEY_AUTHORITY, of RINGS, of KERF_ROLES, of GLOBAL_PEER. -/
def authorityByte (c : Settings) (i : Nat) : Nat :=
  if i < 48 then c.authority.1 / 2 ^ (8 * i) % 256 else c.authority.2 / 2 ^ (8 * (i - 48)) % 256
def ringsByte (c : Settings) (i : Nat) : Nat := match c.rings.get 0 i with
  | 0 => 0xFF
  | p + 1 => p
def kerfByte (c : Settings) (i : Nat) : Nat := roleCode (c.kerfRoles.get .off i)
def peerByte (c : Settings) (i : Nat) : Nat :=
  let e := c.globalPeers.getD (i / 4) (0, 0)
  match i % 4 with
  | 0 => e.1 % 256
  | 1 => e.1 / 256
  | 2 => e.2
  | _ => c.peerReserved.getD (i / 4) 0

/-- STATE of a bench as the image sets it, or as BENCH_ROLE has it (R37, R488). -/
def benchStateCode : BenchState → Nat
  | .idle => 0
  | .active => 1
  | .standby => 2
  | .quarantined => 3

/-- CFG_BENCH_n. -/
def cfgBench (e : BenchEntry) : Nat :=
  fld (benchStateCode e.state) 31 30 + fld (e.role.getD 0xFFF) 27 16 + fld (e.partition.getD 0xFF) 15 8

/-- CFG_PARTITION_p. -/
def cfgPartition (e : PartitionEntry) : Nat :=
  if e.valid then flag true 63 + fld e.roleCount 47 32 + fld e.deckQuota 16 0 else fld e.deckQuota 16 0

/-- CFG_ADMITTED_s. -/
def cfgAdmitted (e : AdmittedEntry) : Nat :=
  fld e.device 47 32 + fld e.vendor 31 16 + flag e.failStart 8 + fld e.cls 1 0

/-- CFG_REGION_ATTR_i: GRANULES, SPACE, ACK. -/
def cfgRegionAttr (r : RegionEntry) : Nat := fld r.granules 31 0 + flag r.tiered 32 + flag r.posted 40

/-- CFG_FUSES: slots programmed and revoked, the minimum security version. -/
def cfgFuses (b : BootBlock) : Nat :=
  fld b.minVersion 22 16 + fld (b.revoked.foldl (fun n k => n + 2 ^ k) 0) 7 4 +
  fld ((List.range 4).foldl (fun n k => n + flag ((b.keyDigests.getD k none).isSome) k) 0) 3 0

/-- CFG_IMAGE. -/
def cfgImage (s : State) (c : Settings) : Nat :=
  let r := (newestRecord s.boot).getD {}
  fld c.formatMinor 63 56 + fld 1 55 48 + fld c.variants 39 32 + flag c.advanceMinimum 24 + fld c.securityVersion 23 16 +
  fld c.keySlot 9 8 + flag r.trial 7 + fld (r.runningSlot.getD 0) 0 0

/-- CFG_MODULE. -/
def cfgModule (c : Settings) : Nat :=
  fld (48 * c.cord + c.seat) 63 48 + fld c.cordCount 47 32 + fld c.cord 31 16 + fld c.seat 15 8 + fld c.timeRole 3 2 + flag c.mladyth 0

/-- The configuration readback of a running image. -/
def readConfig (s : State) (c : Settings) (off : Nat) : Nat :=
  firstReg
    [reg off 0x1000 c.imageId, reg off 0x1008 (startCount s), reg off 0x1010 (cfgImage s c), reg off 0x1018 (cfgFuses s.boot),
     reg off 0x1020 (fld c.tallyFwVersion 63 32 + fld c.mgmtFwVersion 31 0), reg off 0x1028 (fld c.beyntax 31 0),
     reg off 0x1030 c.buildTime, reg off 0x1040 (cfgModule c), reg off 0x1048 c.systemId,
     reg off 0x1050 (fld c.sustainedW 47 32 + fld c.peakW 31 16 + fld c.peakMs 15 0),
     reg off 0x1058 ((List.range 4).foldl (fun n g => n + fld (c.groveQuanta.getD g 0) 15 0 * 2 ^ (16 * g)) 0),
     reg off 0x1060 (fld c.portEnable 63 0), reg off 0x1068 (c.portEnable / 2 ^ 64 % 256),
     reg off 0x1070 (fld c.revokeMask 11 8 + fld c.injection 5 4 + flag c.sealing 0),
     arrayReg off 0x1080 8 2 (fun i => cfgAdmitted (c.admitted.getD i {})),
     reg off 0x1090 (fld c.slotTable.entries.length 63 32 + fld c.slotTable.period 31 0), reg off 0x1098 (fld c.regions.length 31 0),
     arrayReg off 0x1100 8 12 (pack8 (authorityByte c)),
     arrayReg off 0x2000 8 64 (fun p => cfgPartition (c.partitions.get {} p)),
     arrayReg off 0x3000 8 512 (fun n => cfgBench (c.benches.get {} n)),
     arrayReg off 0x4000 8 128 (pack8 (ringsByte c)), arrayReg off 0x4400 8 32 (pack8 (kerfByte c)), arrayReg off 0x4600 8 12 (pack8 (peerByte c)),
     arrayReg off 0x5000 16 256 (fun i => (c.regions[i]?.map (·.base)).getD 0),
     arrayReg off 0x5008 16 256 (fun i => (c.regions[i]?.map cfgRegionAttr).getD 0)]

/-- The identity block. -/
def readIdentity (s : State) (off : Nat) : Nat :=
  if off < 0x1000 then (identityRegs s).getD (off / 8) 0
  else match s.cfg with
    | some c => readConfig s c off
    | none => 0

/-! ### Rings and Tally (chapters 02, 04–06, 08–10, 13) -/

/-- STATUS (R225). -/
def ringStatusCode : RingStatus → Nat
  | .disabled => 0
  | .running => 1
  | .paused => 2
  | .faulted => 3
  | .resetting => 4

/-- RING_STATE. -/
def ringState (s : State) (r : Nat) (q : Ring) : Nat :=
  fld (s.tasks.filter fun t => t.ring == r).length 63 48 + fld q.pending.length 47 38 + flag q.dropped 9 + flag q.device 8 +
  fld (ringStatusCode q.status) 2 0

/-- RING_ERROR (R242). -/
def ringError (q : Ring) : Nat :=
  match q.failures with
  | [] => 0
  | f :: fs => fld f.code.toNat 63 48 + fld (if f.ofRing then 0xFFFFFFFFFF else f.at_) 47 8 + flag (!fs.isEmpty) 1 + flag true 0

/-- A failed gate that still holds back a later task of its ring, until its failure is acknowledged (R235). -/
def holdsLater (s : State) (t : Task) : Bool :=
  decide (t.phase = .failed) && s.tasks.any fun x => x.ring == t.ring && decide (t.seq < x.seq) && decide (x.phase = .staged)

/-- What a task of a ring is blocked on, as KIND of RING_FENCE_WAIT codes it; 0 for nothing (R225). -/
def blockKind (s : State) (t : Task) : Nat :=
  let waits := decide (t.phase = .staged) && !waitMet s t
  match t.header.type with
  | .barrier => if waits then 1 else if t.phase = .staged ∨ t.phase = .issued ∨ holdsLater s t then 3 else 0
  | .fenceWait => if waits ∨ holdsLater s t then 2 else 0
  | _ =>
    if waits then 1
    else match t.body with
      | .enqueue e => if t.running ∧ !t.workDone ∧ !hasRoom s e then 4 else 0
      | _ => if t.phase = .staged ∧ !shadowClear s t then 5 else 0

/-- The earlier of two tasks of a ring. -/
def olderTask (best : Option Task) (t : Task) : Option Task :=
  match best with
  | some b => if t.seq < b.seq then some t else some b
  | none => some t

/-- The task that is blocked where a task has some KIND: itself, or behind a failed gate the oldest that the gate holds back (R225,
R235). -/
def blockedTask (s : State) (t : Task) : Task :=
  if t.phase = .failed then
    ((s.tasks.filter fun x => x.ring == t.ring && decide (t.seq < x.seq) && decide (x.phase = .staged)).foldl olderTask none).getD t
  else t

/-- RING_FENCE_WAIT. -/
def ringFenceWait (s : State) (r : Nat) : Nat :=
  match (s.tasks.filter fun t => t.ring == r && blockKind s t != 0).foldl olderTask none with
  | none => 0
  | some t =>
    let k := blockKind s t
    fld k 63 61 + fld (min ((s.now - (blockedTask s t).waitSince) / 16000) 8191) 60 48 + (if k = 1 ∨ k = 2 then fld (t.header.waitAddr / 8) 47 3 else 0)

/-- A ring's register page. -/
def readRingPage (s : State) (r off : Nat) : Nat :=
  let q := ringOf s r
  if !ringExists s r then 0
  else firstReg [reg off 0 q.tail, reg off 8 q.head, reg off 0x10 q.completed, reg off 0x18 (ringState s r q), reg off 0x20 (ringError q),
    reg off 0x28 (ringFenceWait s r)]

/-- A ring's configuration registers, by offset within their 32 bytes. -/
def readRingConfig (s : State) (r off : Nat) : Nat :=
  let q := ringOf s r
  if !ringExists s r then 0
  else match off with
    | 0 => q.base
    | 8 => fld q.priority 7 6 + fld q.sizeLog2 3 0
    | 16 => q.context
    | _ => q.timeoutUs

/-- STATE and OUTCOME of a group (R250). -/
def groupStateCode : GroupState → Nat
  | .free => 0
  | .opened => 1
  | .confirming => 2
  | .squashing => 3
def outcomeCode : GroupOutcome → Nat
  | .none => 0
  | .confirmed => 1
  | .squashedAbort => 2
  | .squashedOther => 3

/-- SPEC_GROUP. -/
def readGroup (s : State) (g : Nat) : Nat :=
  let x := groupOf s g
  if g = 0 then 0
  else (if x.state = .free then 0 else fld x.partition 55 48) + fld ((groupMembers s g).length + x.deferred.length) 47 32 + fld (outcomeCode x.outcome) 5 4 +
    fld (groupStateCode x.state) 2 0

/-- Entries of a slice in use (R236). -/
def sliceUsed (s : State) (g i : Nat) : Nat := (s.tasks.filter fun t => t.grove == g && t.slice == i).length

/-- DECK_STATUS: sequences live, pages waiting to be zeroed, pages free. -/
def deckStatus (u : DeckUnit) : Nat :=
  let scrub := u.seqs.cells.filter fun c => decide (c.2.state = .scrubbing)
  let waiting := (scrub.flatMap fun c => c.2.pages).eraseDups.filter fun i =>
    u.refs.get 0 i == (scrub.filter fun c => c.2.pages.contains i).length
  flag u.configErr 63 + fld (u.seqs.cells.filter fun c => decide (c.2.state = .live)).length 62 48 + fld waiting.length 47 24 +
  (if u.enable then fld (u.poolPages - u.neverUsed + u.freeStack.length) 23 0 else 0)

/-- BENCH_ROLE (R37). -/
def benchRole (s : State) (n : Nat) : Nat :=
  let e := roleOf s n
  fld (moduleGen s) 63 48 + fld e.unitGen 47 32 + fld (benchStateCode e.state) 31 30 + fld (e.role.getD 0xFFF) 27 16 +
  fld (e.partition.getD 0xFF) 15 8

/-- ACTIVITY (R196). -/
def activityCode : DresserActivity → Nat
  | .idle => 0
  | .storing => 1
  | .epilogue => 2
  | .vector => 3

/-- DRESSER_STATUS: SKID_USED and ACTIVITY as they stand, or as the bench's quarantine froze them (R196, R199). -/
def dresserStatus (b : Bench) : Nat :=
  let now := b.frozen.getD (b.skid.length, b.activity)
  fld b.entriesMax 23 16 + fld (activityCode now.2) 9 8 + fld now.1 4 0

/-- The Tally block of a grove (R479). -/
def readTally (s : State) (g off : Nat) : Nat :=
  let u := deckOf s g
  let o := s.opRegs.get {} g
  let x := s.groveResets.get {} g
  let bench (b : Nat) : Bench := s.benches.get {} (128 * g + b)
  if off < 0x2000 then readRingConfig s (256 * g + off / 32) (off % 32)
  else firstReg
    [arrayReg off 0x2000 8 1024 (readGroup s),
     reg off 0x4000 (fld (sliceUsed s g 3) 63 48 + fld (sliceUsed s g 2) 47 32 + fld (sliceUsed s g 1) 31 16 + fld (sliceUsed s g 0) 15 0),
     reg off 0x4008 (s.tallyIssued.get 0 g), reg off 0x5000 o.base, reg off 0x5010 (fld o.done 63 32 + fld o.issued 31 0),
     reg off 0xC000 (fld u.pageLog2 20 16 + fld u.listLog2 12 8 + flag u.zeroing 1 + flag u.enable 0), reg off 0xC008 u.areaBase,
     reg off 0xC010 u.poolPages, reg off 0xC018 (deckStatus u), reg off 0xC020 u.ops,
     arrayReg off 0xD000 8 128 (fun b => (bench b).clampTally), arrayReg off 0xD400 8 128 (fun b => (bench b).nanTally),
     arrayReg off 0xD800 8 128 (fun b => (bench b).skidWait),
     arrayReg off 0xDC00 8 128 (fun b => dresserStatus (bench b)),
     arrayReg off 0xE000 8 128 (fun b => benchRole s (128 * g + b)), arrayReg off 0xE400 8 128 (fun b => (bench b).accSat),
     arrayReg off 0xE800 8 128 (fun b => (bench b).passes), arrayReg off 0xEC00 8 128 (fun b => (bench b).gated),
     reg off 0xF000 (fld x.count 63 32 + flag x.busy 1),
     reg off 0xF008 (fld ((grovesBenches g).filter fun n => decide ((roleOf s n).state = .quarantined)).length 47 32)]

/-! ### Boom (R420) -/

/-- PLL and STATE codes (R420). -/
def pllCode : PllState → Nat
  | .off => 0
  | .locking => 1
  | .running => 2
  | .sleep => 3
def clockCode : ClockState → Nat
  | .stopped => 0
  | .running => 1
  | .stretched => 2
  | .revoked => 3

/-- Half h of a throttle log entry (R416). -/
def throttleWord (e : ThrottleEntry) (h : Nat) : Nat :=
  if h = 0 then fld e.start 63 0 else fld e.durationUs 31 0 + fld e.reason 39 32 + fld e.scope 47 40 + fld e.depth 63 48

/-- GROVE_POWER_g and MARGIN_g. -/
def grovePowerReg (p : PowerBlock) (g : Nat) : Nat :=
  let x := grovePow p g
  fld x.temp 63 56 + fld x.stackTemp 55 48 + fld (pllCode x.pll) 47 46 + fld (1800 - 25 * x.fmaxSteps) 43 32 + fld x.cap 31 16 + fld (heldIn p g) 15 0
def marginReg (s : State) (g : Nat) : Nat :=
  let x := grovePow s.power g
  fld x.fmaxSteps 47 40 + fld x.trimSteps 39 32 + fld (setpointMv s g) 31 16 + fld x.marginPs 15 0

/-- The Boom block. -/
def readBoom (s : State) (off : Nat) : Nat :=
  let p := s.power
  firstReg
    [reg off 0 (flag p.braked 63 + flag p.measured 62 + flag p.episode 61 + flag p.recovering 60 + fld p.requests.length 47 32 +
       fld (heldAll p) 31 16 + fld p.budget 15 0),
     reg off 8 (fld p.vIn 47 32 + fld p.estimatedW 31 16 + fld p.measuredW 15 0), reg off 0x10 (fld (p.energy / 1000) 63 0),
     reg off 0x18 (fld p.sleepUs 47 32 + fld p.softLimit 15 0), reg off 0x20 (fld p.lastEpisodeUs 63 32 + fld p.episodes 31 0),
     arrayReg off 0x100 8 4 (grovePowerReg p), arrayReg off 0x140 8 4 (marginReg s),
     arrayReg off 0x200 8 10 (fun r => if r = 0 then 0 else throttleAcc s.fabric.time r p), reg off 0x300 p.logCount,
     arrayReg off 0x1000 8 512 (fun n => let b := benchPow p n
       fld (clockCode b.clock) 63 62 + fld b.demand 47 40 + fld b.granted 39 32 + fld b.starts 31 0),
     arrayReg off 0x8000 8 2048 (fun i => throttleWord (p.log.get {} (i / 2)) (i % 2))]

/-! ### Scaler and errors (chapter 18) -/

/-- STATE of a capture channel. -/
def captureCode : CaptureState → Nat
  | .idle => 0
  | .armed => 1
  | .running => 2
  | .done => 3

/-- A channel's registers. -/
def readChannel (c : Channel) (off : Nat) : Nat :=
  firstReg
    [reg off 0 (fld c.base 63 32 + fld c.select 31 16 + fld c.shift 13 8 + flag c.logarithmic 7 + fld c.source 5 0), reg off 8 c.periodUs,
     reg off 0x10 c.start, reg off 0x18 c.stop,
     reg off 0x28 (fld (captureCode c.state) 63 62 + flag c.unsync 61 + flag c.refused 60 + fld c.dropped 31 0),
     reg off 0x30 c.min, reg off 0x38 c.max, reg off 0x40 c.count, reg off 0x48 c.sum, arrayReg off 0x200 8 64 (fun i => c.bins.get 0 i)]

/-- The Scaler block. -/
def readScaler (s : State) (off : Nat) : Nat :=
  if off = 0 then s.scaler.done.toNat
  else if 0x1000 ≤ off ∧ off < 0x5000 then readChannel (channelOf s ((off - 0x1000) / 0x400)) ((off - 0x1000) % 0x400)
  else 0

/-- SCOPE of ERR_FATAL. -/
def scopeCode : FatalScope → Nat
  | .none => 0
  | .grove g => 0x10 + g
  | .portDie d => 0x20 + d
  | .module => 0x30

/-- STATE of an injection slot, and of the scan. -/
def injStateCode : InjState → Nat
  | .free => 0
  | .armed => 1
  | .spent => 2
  | .refused => 3
def scanCode : ScanState → Nat
  | .idle => 0
  | .running => 1
  | .passed => 2
  | .failed => 3

/-- An injection slot's registers. -/
def readSlot (x : InjSlot) (off : Nat) : Nat :=
  match off with
  | 0 => fld x.count 47 32 + fld x.code.toNat 15 0
  | 8 => x.locator.toNat
  | 16 => fld (injStateCode x.state) 63 62 + fld x.fired 47 32 + fld x.result.toNat 31 16
  | _ => 0

/-- Eight bytes of a record in the queue. -/
def recordWord (b : ErrBlock) (off : Nat) : Nat :=
  let i := off / 64
  if i < b.written ∨ 1024 ≤ b.written then natOfBytes (sliceBytes (recordBytes (b.queue.get {} i)) (off % 64) 8) else 0

/-- The error block. DIAG_CTL.GO reads 1 while a scan runs (R11; log 80). -/
def readErr (s : State) (off : Nat) : Nat :=
  let b := s.err
  if 0x10000 ≤ off then recordWord b (off - 0x10000)
  else if 0x8000 ≤ off ∧ off < 0x8200 then readSlot (slotOf s ((off - 0x8000) / 32)) (off % 32)
  else firstReg
    [reg off 0 b.written, reg off 8 b.read,
     reg off 0x10 (flag b.fatalActive 63 + flag (queueFull b) 62 + fld (b.written - b.read) 42 32 + fld b.lostTotal 31 0),
     reg off 0x18 (fld b.fatalCode.toNat 63 48 + fld (scopeCode b.fatalScope) 47 40), reg off 0x20 (fld b.quarCorr 47 32 + fld b.quarUncorr 3 0),
     reg off 0x30 b.injStart.toNat, reg off 0x9000 b.diagLocator.toNat, reg off 0x9008 (flag (b.diagState = .running) 0),
     reg off 0x9010 (fld (scanCode b.diagState) 63 62 + fld b.diagCode.toNat 47 32 + fld b.diagFails 15 0), reg off 0x9018 b.diagFirst.toNat]

/-! ### Translation, tiers (chapters 11, 12) -/

/-- TU_FB_STATUS. -/
def fbStatus (tu : TuBlock) : Nat :=
  fld (tu.delivered.foldl (fun n b => n + 2 ^ b.slot) 0) 55 48 + fld ((tu.openBatch.map (·.slot)).getD 0xFF) 47 40 + fld tu.held.length 31 16 +
  fld ((tu.openBatch.map (·.entries.length)).getD 0) 8 0

/-- STATE of a stake, and STAKE_INFO of the stake at STAKE_ADDR; zero outside the near and bulk tiers. -/
def stakeCode : StakeState → Nat
  | .free => 0
  | .owned => 1
  | .releasing => 2
def stakeInfo (s : State) : Nat :=
  let k := stakeAt s s.stakes.addr
  if nearOrBulk s.stakes.addr then fld k.owner 47 32 + flag k.export_ 5 + flag k.sealed 4 + fld (stakeCode k.state) 1 0 else 0

/-- FREE stakes of STAKE_STATUS. -/
def freeStakeCount (s : State) : Nat := 1228800 - (s.stakes.table.cells.filter fun c => decide (c.2.state ≠ .free)).length

/-- The translation unit block. -/
def readTu (s : State) (off : Nat) : Nat :=
  let u := s.tu
  firstReg
    [reg off 0 (u.ctxBase + bitNat u.ctxEnable), reg off 8 (u.fbBase + bitNat u.fbEnable), reg off 0x10 (fld (u.msiAddress / 4096) 51 12 + fld u.msiEiid 10 0),
     reg off 0x18 (fld u.answerTimeoutMs 63 32), reg off 0x20 (fbStatus u), reg off 0x30 u.invalAddr,
     reg off 0x40 (fld u.invalDone 63 32 + fld u.invalIssued 31 0), reg off 0x48 u.walks, reg off 0x100 s.stakes.addr,
     reg off 0x110 (flag s.stakes.busy 63 + fld s.stakes.result.toNat 47 32 + fld (freeStakeCount s) 20 0), reg off 0x118 (stakeInfo s),
     reg off 0x120 (fld s.stakes.sealedContexts.length 10 0), arrayReg off 0x800 8 64 (hartContextOf s)]

/-- STACK_STATUS_n and BULK_STATUS_n. -/
def deviceReg (d : DeviceStatus) : Nat := fld d.temp 55 48 + flag d.refresh2x 40 + fld d.sparesUsed 39 32 + fld d.corrected 31 0

/-- The registers of an object. -/
def readObject (o : TierObject) (off : Nat) : Nat :=
  match off with
  | 0 => o.base
  | 8 => o.homeBase
  | 16 => flag o.valid 63 + flag o.busy 62 + flag o.failed 61 + fld o.granules 57 32 + fld o.context 31 16 + flag o.replicated 11 +
      flag o.writable 10 + fld o.affinity 9 7 + fld o.policy 2 0
  | _ => o.replica.toNat

/-- The tier directory block. -/
def readTier (s : State) (off : Nat) : Nat :=
  let t := s.tier
  if 0x10000 ≤ off ∧ off < 0x10000 + 32 * 4096 then readObject (objectOf s ((off - 0x10000) / 32)) (off % 32)
  else firstReg
    [reg off 0 (fld t.replicaTimeoutUs 63 32 + flag t.enable 0), reg off 8 (tierStatusValue s), reg off 0x10 t.migrations, reg off 0x18 t.evictions,
     reg off 0x20 (fld t.repaired 63 32 + fld t.repairFailed 31 0), reg off 0x28 (fld (flashPoisoned t) 16 0),
     arrayReg off 0x100 8 4 (fun g => (poolOf s g).base + (poolOf s g).frames), arrayReg off 0x200 8 12 (fun n => deviceReg (t.stackStatus.get {} n)),
     arrayReg off 0x280 8 12 (fun n => deviceReg (t.packageStatus.get {} n))]

/-! ### Genpex (R390) -/

/-- Codes of time states, standby states, ports and peers (R390). -/
def timeStateCode : TimeState → Nat
  | .unsync => 0
  | .acquiring => 1
  | .sync => 2
  | .holdover => 3
def standbyCode : StandbyState → Nat
  | .empty => 0
  | .loading => 1
  | .loaded => 2
  | .armed => 3
def portStateCode : PortState → Nat
  | .disabled => 0
  | .training => 1
  | .keyWait => 2
  | .up => 3
  | .down => 4
  | .markedDown => 5
def reachCode : PeerReach → Nat
  | .unknown => 0
  | .reachable => 1
  | .unreachable => 2

/-- FABRIC_TIME_STATUS. -/
def fabricStatus (f : FabricBlock) (role : Nat) : Nat :=
  fld ((f.source.map (·.1)).getD 0xFFFF) 63 48 + fld ((f.source.map (·.2)).getD 0xFF) 47 40 +
  fld (BitVec.ofInt 16 f.offset).toNat 31 16 + fld role 3 2 + fld (timeStateCode f.timeState) 1 0

/-- PORT_STATUS_p and PORT_ERRORS_p. -/
def portStatus (p : Port) : Nat :=
  fld p.peer 63 48 + fld p.peerPort 47 40 + fld p.code.toNat 31 16 + fld p.keyEpoch 8 8 + fld (portStateCode p.state) 2 0
def portErrors (p : Port) : Nat := fld p.downs 63 48 + fld p.tagFails 47 32 + fld p.replays 31 0

/-- The registers of a window, of an outbound window, of a peer. -/
def readWindow (w : Window) (off : Nat) : Nat :=
  match off with
  | 0 => w.base
  | 8 => w.units
  | 16 => flag w.enable 63 + flag w.busy 62 + flag w.cfgErr 61 + fld w.context 47 32 + flag w.abortOnCut 7 + flag w.cordOnly 6 + flag w.atomic 2 +
      flag w.read 1 + flag w.write 0
  | _ => w.tally
def outWindowReg (w : OutWindow) : Nat := fld w.handleHi 63 40 + flag w.scope 1 + flag w.valid 0
def peerReg (p : Peer) : Nat := fld (reachCode p.reach) 63 62 + fld p.gen 47 32 + fld p.changedUs 31 0

/-- The Genpex block. -/
def readGenpex (s : State) (off : Nat) : Nat :=
  let f := s.fabric
  if 0x10000 ≤ off then (arrayReg off 0x10000 8 49152 (fun m => peerReg (f.peers.get {} m))).getD 0
  else if 0x6000 ≤ off ∧ off < 0xA000 then
    let x := f.unitTargets.get {} ((off - 0x6000) / 16)
    if off % 16 = 0 then x.id.toNat else fld x.epoch 31 0
  else if 0x2000 ≤ off ∧ off < 0x4000 then readWindow (f.windows.get {} ((off - 0x2000) / 32)) (off % 32)
  else firstReg
    [reg off 0 f.time, reg off 8 (fabricStatus f f.timeRole), reg off 0x10 (fld f.loadTimeoutUs 63 32), reg off 0x20 f.slotAddr,
     reg off 0x30 f.switchTime, reg off 0x38 (fld f.stCode.toNat 63 48 + fld (standbyCode f.standby) 33 32 + fld f.active.period 16 0),
     reg off 0x40 f.forfeits, reg off 0x48 f.late, reg off 0x50 f.overbooked, reg off 0x58 (fld f.drainDone 63 32 + fld f.drainIssued 31 0),
     arrayReg off 0x1000 8 72 (fun p => portStatus (f.ports.get {} p)), arrayReg off 0x1400 8 72 (fun p => portErrors (f.ports.get {} p)),
     arrayReg off 0x4000 8 16 (fun i => outWindowReg (f.outWindows.get {} i))]

/-! ### Kerf and sites (R358, R359) -/

/-- WIDTH of a bundle. -/
def widthCode : KerfWidth → Nat
  | .down => 0
  | .half => 1
  | .full => 2

/-- Lanes that an OFF bundle lends: those its neighbours have borrowed of it. -/
def lanesLent (s : State) (e b : Nat) : Nat :=
  if (bundleOf s e b).role ≠ .off then 0
  else
    let below (d : LaneDir) : Nat := (d.borrowed.filter fun l => decide (l < 70)).length
    let above (d : LaneDir) : Nat := (d.borrowed.filter fun l => decide (70 ≤ l)).length
    let up := if b + 1 < bundlesOf e then below (bundleOf s e (b + 1)).dirA + below (bundleOf s e (b + 1)).dirB else 0
    let down := if 0 < b then above (bundleOf s e (b - 1)).dirA + above (bundleOf s e (b - 1)).dirB else 0
    up + down

/-- Failed lanes of a direction: its own, and lent ones, which are failed lanes of the borrower (R342, R358). -/
def failedLanes (d : LaneDir) : Nat := d.failed.length

/-- KERF_BUNDLE and KERF_RETRY. -/
def kerfBundleReg (s : State) (e b : Nat) : Nat :=
  let k := bundleOf s e b
  fld (roleCode k.role) 59 56 + fld (widthCode k.width) 55 54 + flag k.dirA.upper 53 + flag k.dirB.upper 52 + fld (sparesUsed k.dirA) 51 50 +
  fld (sparesUsed k.dirB) 49 48 + fld (lanesBorrowed k.dirA) 47 45 + fld (lanesBorrowed k.dirB) 44 42 + fld (lanesLent s e b) 39 32 +
  fld (failedLanes k.dirA) 31 24 + fld (failedLanes k.dirB) 23 16 + flag (inBand k k.dirA || inBand k k.dirB) 2 + flag k.retraining 1 + flag k.repairing 0
def kerfRetryReg (s : State) (e b : Nat) : Nat :=
  let k := bundleOf s e b
  fld k.retrains 63 48 + fld k.repairs 47 32 + fld k.replays 31 0

/-- STATE of a site. -/
def siteStateCode : SiteState → Nat
  | .empty => 0
  | .admitted => 1
  | .refused => 2
  | .shutDown => 3
  | .discovering => 4

/-- UCIE_SITE_STATUS. -/
def siteStatus (x : Site) : Nat :=
  fld (siteStateCode x.state) 63 61 + fld x.cls 57 56 + fld x.claimW 55 48 + fld x.modules 42 40 + fld x.lanes 39 32 + fld x.rate 31 24 + fld x.code.toNat 15 0

/-- The Kerf and UCIe block but its site windows. -/
def readKerf (s : State) (off : Nat) : Nat :=
  let e := off % 0x1000 / 0x100
  let b := off % 0x100 / 8
  if off < 0x2000 then
    if e < 10 ∧ b < bundlesOf e then (if off < 0x1000 then kerfBundleReg s e b else kerfRetryReg s e b) else 0
  else firstReg
    [arrayReg off 0x3000 0x100 2 (fun k => siteStatus (siteOf s k)),
     arrayReg off 0x3008 0x100 2 (fun k => fld (siteOf s k).device 31 16 + fld (siteOf s k).vendor 15 0)]

/-! ### Management, ROM, PCIe (chapter 17) -/

/-- Age of the oldest queued request in ms (R437). -/
def oldestMs (s : State) : Nat :=
  match s.mgmt.backlog with
  | [] => 0
  | q :: _ => min ((s.now - q.at_) / 1000000) 0xFFFF

/-- MGMT_LOAD. -/
def mgmtLoad (s : State) : Nat :=
  fld s.mgmt.backlog.length 63 48 + fld s.mgmt.backlogMax 47 32 + fld (oldestMs s) 31 16 + fld s.mgmt.heartbeat 15 0

/-- The management block with its mailbox buffers. MBOX_CTL.GO reads 1 while the request it posted is unanswered (R11; log 80). -/
def readMgmt (s : State) (off : Nat) : Nat :=
  let m := s.mgmt
  if 0x1000 ≤ off ∧ off < 0x2000 then memNat m.request (off - 0x1000) 8
  else if 0x2000 ≤ off then memNat m.response (off - 0x2000) 8
  else firstReg [reg off 0 (mgmtLoad s), reg off 8 (fld m.served 63 32 + fld m.refused 31 0),
    reg off 0x10 (fld m.rspLen 43 32 + fld m.reqLen 27 16 + flag m.rspReady 1 + flag m.posted 0)]

/-- A root port, and its registers. -/
def pcieOf (s : State) (p : Nat) : PciePort := s.landing.pcie.get {} p
def readPcie (s : State) (off : Nat) : Nat :=
  let q := pcieOf s (off / 0x1000)
  match off % 0x1000 with
  | 0 => fld q.context 47 32 + flag q.inbound 0
  | 8 => fld q.width 55 48 + fld q.rate 47 40 + fld q.refused 31 0
  | _ => 0

/-! ### The whole control space (R478) -/

/-- A block of the control space: base, size, and what it reads at an offset within. -/
def blockAt (off base size : Nat) (f : Nat → Nat) : Option Nat := if base ≤ off ∧ off < base + size then some (f (off - base)) else none

/-- The value of the register at an offset, a multiple of 8 (R478, R480). The core ROM's contents are its own (log 44). -/
def regValue (s : State) (off : Nat) : Nat :=
  firstReg
    [blockAt off 0 0x100000 (readIdentity s), blockAt off 0x100000 0x400000 (fun o => readRingPage s (o / 0x1000) (o % 0x1000)),
     blockAt off 0x800000 0x40000 (fun o => readTally s (o / 0x10000) (o % 0x10000)), blockAt off 0xA00000 0x10000 (readBoom s),
     blockAt off 0xB00000 0x10000 (readScaler s), blockAt off 0xC00000 0x20000 (readErr s), blockAt off 0xD00000 0x1000 (readTu s),
     blockAt off 0xE00000 0x30000 (readTier s), blockAt off 0xF00000 0x70000 (readGenpex s), blockAt off 0x1000000 0x60000 (readKerf s),
     blockAt off 0x1100000 0x3000 (readMgmt s), blockAt off 0x2800000 0x10000 (fun o => (Config.coreRom (o / 8)).toNat),
     blockAt off 0x2900000 0x2000 (readPcie s)]

/-- TIER_STATUS, whose OBJ_ERR a read clears (R283). -/
def tierStatusAt : Nat := 0xE00008

/-- A read of the register at an offset (R482, R483). -/
def regRead (off : Nat) (s : State) : W64 × State :=
  if off = tierStatusAt then tierStatusRead s else (BitVec.ofNat 64 (regValue s off), s)

end Sys2Proof.Machine
end

