-- ==== Sys2Proof/Machine/RegWrite.lean ====
section
/-!
DEFINITION. Machine/RegWrite.lean: what a write to a register of the module control space does (R480–R484 and the register tables of
the owning chapters). Offsets are from 0x4000_0000_0000; a write where there is no register, or where every field is RO, is ignored.
Each write answers whether it is acknowledged (R300, R331), and its effect.
-/

namespace Sys2Proof.Machine

/-- A write acknowledged at once. -/
def acked (s : State) : Bool × State := (true, s)

/-- The effect of a write at the first register file that has a register at the offset. -/
def firstWrite (s : State) : List (Option (Bool × State)) → Bool × State
  | [] => acked s
  | some r :: _ => r
  | none :: rs => firstWrite s rs

/-- A write of the register at one offset, and of a register of an array. -/
def wreg (off at_ : Nat) (r : State) : Option (Bool × State) := if off = at_ then some (acked r) else none
def warr (off base stride n : Nat) (f : Nat → State) : Option (Bool × State) := (arrayIx off base stride n).map fun i => acked (f i)

/-- Whether a writer is a hart, as R463 asks: a WRITE_REGISTER of the mailbox is a hart's. -/
def RegWriter.isHart : RegWriter → Bool
  | .nobody | .hart _ => true
  | .mgmt mailbox _ => mailbox

/-! ### Rings (R224, R225, R227, R242) -/

/-- RING_STATE: MODE takes effect before CMD (R227). -/
def ringStateWrite (r v : Nat) (s : State) : State :=
  let s1 := updRing r (fun q => { q with
    device := if q.status = .disabled then bitOf v 8 else q.device
    dropped := q.dropped && !bitOf v 9 }) s
  match bitsOf v 15 12 with
  | 1 => ringEnable r s1
  | 2 => ringPause r s1
  | 3 => ringResume r s1
  | 4 => ringReset r s1
  | _ => s1

/-- A ring's register page. -/
def ringPageWrite (r off v : Nat) (s : State) : Bool × State :=
  if !ringExists s r then acked s
  else firstWrite s [wreg off 0 (doorbell r v s), wreg off 0x18 (ringStateWrite r v s),
    wreg off 0x20 (if bitOf v 0 then acknowledge r s else s)]

/-- A ring's configuration registers: ignored while STATUS is not DISABLED (R224). -/
def ringConfigWrite (r off v : Nat) (s : State) : State :=
  if !ringExists s r || decide ((ringOf s r).status ≠ .disabled) then s
  else match off with
    | 0 => updRing r (fun q => { q with base := bitsOf v 47 12 * 4096 }) s
    | 8 => updRing r (fun q => { q with priority := bitsOf v 7 6, sizeLog2 := bitsOf v 3 0 }) s
    | 16 => updRing r (fun q => { q with context := bitsOf v 15 0 }) s
    | _ => if bitsOf v 31 0 < 10 then s else updRing r (fun q => { q with timeoutUs := bitsOf v 31 0 }) s

/-! ### The Tally block (R479) -/

/-- DECK_AREA and DECK_POOL: only while ENABLE and ZEROING are 0 (R205). -/
def deckIdleWrite (g : Nat) (f : DeckUnit → DeckUnit) (s : State) : State :=
  updDeck g (fun u => if u.enable || u.zeroing then u else f u) s

/-- BENCH_QUARANTINE_CTL (R92). -/
def quarantineCtlWrite (g v : Nat) (s : State) : State :=
  if bitOf v 7 ∧ inService s then quarantine (128 * g + bitsOf v 6 0) 0 s else s

/-- The Tally block of a grove. -/
def tallyWrite (w : RegWriter) (g off : Nat) (v : W64) (s : State) : Bool × State :=
  let n := v.toNat
  if off < 0x2000 then acked (ringConfigWrite (256 * g + off / 32) (off % 32) n s)
  else if off = 0x5008 then opcacheInvalWrite w g v s
  else firstWrite s
    [wreg off 0x5000 { s with opRegs := s.opRegs.update {} g fun r => { r with base := bitsOf n 51 16 * 65536 } },
     wreg off 0xC000 (deckCtlWrite g n s),
     wreg off 0xC008 (deckIdleWrite g (fun u => { u with areaBase := bitsOf n 51 21 * 0x200000 }) s),
     wreg off 0xC010 (deckIdleWrite g (fun u => { u with poolPages := bitsOf n 23 0 }) s),
     wreg off 0xF000 (if bitOf n 0 then requestGroveReset g s else s), wreg off 0xF008 (quarantineCtlWrite g n s)]

/-! ### Scaler and errors (chapter 18) -/

/-- The Scaler block. -/
def scalerWrite (off : Nat) (v : W64) (s : State) : State :=
  if off = 0 then scalerDoneWrite v s
  else if 0x1000 ≤ off ∧ off < 0x5000 then
    let ch := (off - 0x1000) / 0x400
    match (off - 0x1000) % 0x400 with
    | 0 => scCfgWrite ch v s
    | 8 => scPeriodWrite ch v s
    | 0x10 => scStartWrite ch v s
    | 0x18 => scStopWrite ch v s
    | 0x20 => scCtlWrite ch v s
    | _ => s
  else s

/-- The injection registers: ignored from a requester that may not inject (R463). -/
def injWrite (w : RegWriter) (off : Nat) (v : W64) (s : State) : State :=
  if !mayInject s w.isHart then s
  else if off = 0x30 then injStartWrite v s
  else
    let k := (off - 0x8000) / 32
    match off % 32 with
    | 0 => injPointWrite k v s
    | 8 => injLocatorWrite k v s
    | 16 => injCtlWrite k v s
    | _ => s

/-- The error block. -/
def errWrite (w : RegWriter) (off : Nat) (v : W64) (s : State) : Bool × State :=
  if off = 0x30 ∨ (0x8000 ≤ off ∧ off < 0x8200) then acked (injWrite w off v s)
  else firstWrite s
    [wreg off 8 (errReadWrite v s), wreg off 0x18 (if v.getLsbD 0 then errAck s else s), wreg off 0x20 (errCtlWrite v s),
     wreg off 0x9000 (diagLocatorWrite v s), wreg off 0x9008 (diagCtlWrite v s)]

/-! ### Translation and tiers (R283, R304, R312) -/

/-- TU_FB_CTL: ANSWER_TIMEOUT_MS of 1–60,000, and FLUSH. -/
def tuFbCtlWrite (v : Nat) (s : State) : State :=
  let ms := bitsOf v 63 32
  let s1 := if 1 ≤ ms ∧ ms ≤ 60000 then { s with tu := { s.tu with answerTimeoutMs := ms } } else s
  if bitOf v 0 then closeBatch .flush s1 else s1

/-- HART_CONTEXT_h: 0x0000 and 0xFFF0–0xFFFF are ignored. -/
def hartContextWrite (h v : Nat) (s : State) : State :=
  let c := bitsOf v 15 0
  if c = 0 ∨ 0xFFF0 ≤ c then s else { s with hartContext := s.hartContext.set 1 h c }

/-- The translation unit block. -/
def tuWrite (w : RegWriter) (off : Nat) (v : W64) (s : State) : Bool × State :=
  let n := v.toNat
  if off = 0x38 then tuInvalWrite w v s
  else firstWrite s
    [wreg off 0 (tuCtxBaseWrite v s), wreg off 8 (tuFbBaseWrite v s),
     wreg off 0x10 { s with tu := { s.tu with msiAddress := bitsOf n 51 12 * 4096, msiEiid := bitsOf n 10 0 } },
     wreg off 0x18 (tuFbCtlWrite n s), wreg off 0x28 (tuFbDoneWrite v s),
     wreg off 0x30 { s with tu := { s.tu with invalAddr := bitsOf n 47 12 * 4096 } },
     wreg off 0x100 { s with stakes := { s.stakes with addr := bitsOf n 51 21 * 0x200000 } }, wreg off 0x108 (stakeCmdWrite v s),
     warr off 0x800 8 64 (fun h => hartContextWrite h n s)]

/-- NEAR_POOL_g: ignored while ENABLE is 1. -/
def poolWrite (g v : Nat) (s : State) : State :=
  if s.tier.enable then s
  else { s with tier := { s.tier with
    pools := s.tier.pools.update {} g fun _ => { base := bitsOf v 51 21 * 0x200000, frames := bitsOf v 20 0 } } }

/-- An object's registers but OBJ_POLICY: only while VALID and BUSY are 0 (R272). -/
def objIdleWrite (i : Nat) (f : TierObject → TierObject) (s : State) : State := updObject i (fun o => if o.valid || o.busy then o else f o) s

/-- The registers of an object. -/
def objWrite (i off : Nat) (v : W64) (s : State) : State :=
  let n := v.toNat
  match off with
  | 0 => objIdleWrite i (fun o => { o with base := bitsOf n 45 21 * 0x200000 }) s
  | 8 => objIdleWrite i (fun o => { o with homeBase := bitsOf n 51 21 * 0x200000 }) s
  | 16 => objPolicyWrite i n s
  | _ => objIdleWrite i (fun o => { o with replica := v }) s

/-- The tier directory block. -/
def tierWrite (off : Nat) (v : W64) (s : State) : Bool × State :=
  if 0x10000 ≤ off ∧ off < 0x10000 + 32 * 4096 then acked (objWrite ((off - 0x10000) / 32) (off % 32) v s)
  else firstWrite s [wreg off 0 (tierCtlWrite v.toNat s), warr off 0x100 8 4 (fun g => poolWrite g v.toNat s)]

/-! ### Genpex (R375, R383, R390) -/

/-- FABRIC_CTL: LOAD_TIMEOUT_US of 10–1,000,000. -/
def fabricCtlWrite (v : Nat) (s : State) : State :=
  let us := bitsOf v 63 32
  if 10 ≤ us ∧ us ≤ 1000000 then updFabric (fun f => { f with loadTimeoutUs := us }) s else s

/-- SLOT_TABLE_CTL: LOAD, ARM, CANCEL in bit order (log 41). -/
def slotTableCtlWrite (v : Nat) (s : State) : State :=
  let s1 := if bitOf v 0 then slotTableLoad s else s
  let s2 := if bitOf v 1 then slotTableArm s1 else s1
  if bitOf v 2 then slotTableCancel s2 else s2

/-- The registers of a window but WINDOW_CTL: only while ENABLE and BUSY are 0 (R375). -/
def windowIdleWrite (i : Nat) (f : Window → Window) (s : State) : State := updWindow i (fun w => if w.enable || w.busy then w else f w) s

/-- The registers of a window. -/
def windowRegWrite (i off : Nat) (v : W64) (s : State) : State :=
  let n := v.toNat
  match off with
  | 0 => windowIdleWrite i (fun w => { w with base := bitsOf n 51 16 * 65536 }) s
  | 8 => windowIdleWrite i (fun w => { w with units := bitsOf n 24 0 }) s
  | 16 => windowCtlWrite i v s
  | _ => windowIdleWrite i (fun w => { w with tally := bitsOf n 51 3 * 8 }) s

/-- The registers of a unit target entry (R377). -/
def unitTargetWrite (e off : Nat) (v : W64) (s : State) : State :=
  updFabric (fun f => { f with unitTargets := f.unitTargets.update {} e fun x =>
    if off = 0 then { x with id := v } else { x with epoch := bitsOf v.toNat 31 0 } }) s

/-- OUT_WINDOW_i (R376). -/
def outWindowWrite (i v : Nat) (s : State) : State :=
  let x : OutWindow := { handleHi := bitsOf v 63 40, scope := bitOf v 1, valid := bitOf v 0 }
  updFabric (fun f => { f with outWindows := f.outWindows.set {} i x }) s

/-- The Genpex block. -/
def genpexWrite (off : Nat) (v : W64) (s : State) : Bool × State :=
  let n := v.toNat
  if 0x6000 ≤ off ∧ off < 0xA000 then acked (unitTargetWrite ((off - 0x6000) / 16) (off % 16) v s)
  else if 0x2000 ≤ off ∧ off < 0x4000 then acked (windowRegWrite ((off - 0x2000) / 32) (off % 32) v s)
  else firstWrite s
    [wreg off 0x10 (fabricCtlWrite n s), wreg off 0x20 (updFabric (fun f => { f with slotAddr := bitsOf n 51 7 * 128 }) s),
     wreg off 0x28 (slotTableCtlWrite n s), wreg off 0x30 (updFabric (fun f => { f with switchTime := n }) s),
     warr off 0x4000 8 16 (fun i => outWindowWrite i n s)]

/-! ### The mailbox (R437, R438, R441) -/

/-- The request in the request buffer. -/
def mailboxMessage (m : MgmtBlock) : List Byte := memRead m.request 0 m.reqLen

/-- MODULE_RESET: answered, then a warm reset with cause 0x120B; one under way goes on (R440, R441, R93). -/
def moduleReset (src : MgmtSource) (tag : Nat) (s : State) : State :=
  let response := vendorResponse s 0x10 tag 0 0 []
  let sent (t : State) : State := if src = .port then updMgmt (fun m => { m with portResponse := response }) t else t
  match s.life.power with
  | .off => s
  | .warmReset | .brownOut => sent s
  | .starting | .running | .hold | .trip => sent (beginWarmReset 0x120B s)

/-- A message is a MODULE_RESET, which every state accepts at once (R441). -/
def isModuleReset (s : State) (m : List Byte) : Bool := m.length == 5 && m.take 4 == (vendorHead s 0x10 0).take 4

/-- GO: the request is posted to the backlog, or answered busy; while one is unanswered it is ignored (R437, R438, R441). -/
def mailboxPost (s : State) : State :=
  let m := mailboxMessage s.mgmt
  match mgmtGate s .mailbox (acceptedInHold (fieldOf m 3 1)) with
  | .nothing => s
  | .busy info => if isModuleReset s m then moduleReset .mailbox (fieldOf m 4 1) s else mgmtBusy .mailbox (echoResponse (echoHead m) 0x9101 info []) s
  | .refused => mgmtSend .mailbox (echoResponse (echoHead m) 0x9102 0 []) s
  | .queue | .serve => if isModuleReset s m then moduleReset .mailbox (fieldOf m 4 1) s else queueRequest .mailbox (.vendor m) s

/-- MBOX_CTL: REQ_LEN and RSP_READY take effect before GO (log 45). -/
def mboxCtlWrite (v : Nat) (s : State) : State :=
  let s1 := updMgmt (fun m => { m with reqLen := bitsOf v 27 16, rspReady := m.rspReady && !bitOf v 1 }) s
  if bitOf v 0 then mailboxPost s1 else s1

/-- The management block: MBOX_CTL and the request buffer. -/
def mgmtWrite (off : Nat) (v : W64) (s : State) : State :=
  if off = 0x10 then mboxCtlWrite v.toNat s
  else if 0x1000 ≤ off ∧ off < 0x2000 then
    updMgmt (fun m => { m with request := memWrite m.request (off - 0x1000) (bytesOfNat 8 v.toNat) }) s
  else s

/-- PCIE_CTL_p (R435): a CONTEXT outside 0x0001–0xFFEF keeps its value. -/
def pcieCtlWrite (p v : Nat) (s : State) : State :=
  let c := bitsOf v 47 32
  { s with landing := { s.landing with pcie := s.landing.pcie.update {} p fun q =>
    { q with context := if 1 ≤ c ∧ c ≤ 0xFFEF then c else q.context, inbound := bitOf v 0 } } }

/-! ### The whole control space (R478) -/

/-- A block of the control space: base and size, and the effect of a write at an offset within. -/
def wblock (off base size : Nat) (f : Nat → Bool × State) : Option (Bool × State) :=
  if base ≤ off ∧ off < base + size then some (f (off - base)) else none

/-- A write of the register at an offset, a multiple of 8 (R482–R484). -/
def regWrite (w : RegWriter) (off : Nat) (v : W64) (s : State) : Bool × State :=
  firstWrite s
    [wblock off 0x100000 0x400000 (fun o => ringPageWrite (o / 0x1000) (o % 0x1000) v.toNat s),
     wblock off 0x800000 0x40000 (fun o => tallyWrite w (o / 0x10000) (o % 0x10000) v s),
     wblock off 0xA00000 0x10000 (fun o => acked (if o = 0x18 then boomCtlWrite v s else s)),
     wblock off 0xB00000 0x10000 (fun o => acked (scalerWrite o v s)), wblock off 0xC00000 0x20000 (fun o => errWrite w o v s),
     wblock off 0xD00000 0x1000 (fun o => tuWrite w o v s), wblock off 0xE00000 0x30000 (fun o => tierWrite o v s),
     wblock off 0xF00000 0x70000 (fun o => genpexWrite o v s), wblock off 0x1100000 0x3000 (fun o => acked (mgmtWrite o v s)),
     wblock off 0x2900000 0x2000 (fun o => acked (if o % 0x1000 = 0 then pcieCtlWrite (o / 0x1000) v.toNat s else s))]

/-- Offsets of the 4-byte files: interrupt files and APLIC domains (R478, R481). -/
def fourByteOffset (off : Nat) : Bool :=
  decide (0x2000000 ≤ off ∧ off < 0x2200000) || decide (0x2400000 ≤ off ∧ off < 0x2440000) || decide (0x2600000 ≤ off ∧ off < 0x2608000)

/-- An address that an 8-byte register access may name (R481). -/
def registerAddress (pa : Nat) : Bool :=
  decide (controlBase ≤ pa ∧ pa < controlBase + controlSize) && pa % 8 == 0 && !fourByteOffset (pa - controlBase)

/-- A write that no one waits for: of a site window it is forwarded to the admitted die, and ignored where none is (R357). -/
def registerWrite (off : Nat) (v : W64) (s : State) : State :=
  match siteWindowOf off with
  | some (k, o) => if windowForwards s k then forwardAccess k .nobody o true s else s
  | none => (regWrite .nobody off v s).2

/-- REGISTER_WRITE: a write that no one waits for, by a hart in S-mode or M-mode (R482–R484). -/
def execRegisterWrite (addr : Nat) (v : W64) (s : State) : Answer :=
  .next (if inService s ∧ registerAddress addr then registerWrite (addr - controlBase) v s else s)

/-- MAILBOX_GO: a write of MBOX_CTL (R438). -/
def execMailboxGo (v : W64) (s : State) : Answer := .next (if inService s then mboxCtlWrite v.toNat s else s)

end Sys2Proof.Machine
end

