-- ==== Sys2Proof/Machine/Interrupts.lean ====
section
/-!
DEFINITION. Machine/Interrupts.lean: message-signalled interrupts, the APLIC, and the PCIe root ports (R431–R435). The registers of an
APLIC domain are those of the RISC-V Advanced Interrupt Architecture, whose reading is log 46.
-/

namespace Sys2Proof.Machine

/-- The Landing block changed. -/
def updLanding (f : LandingBlock → LandingBlock) (s : State) : State := { s with landing := f s.landing }

/-- The identity that an interrupt file gives its hart (R431): the lowest that pends and is enabled, below the threshold where there is one,
while the file delivers. -/
def topIdentity (l : LandingBlock) (file : Nat) : Option Nat :=
  let f := l.imsic.get {} file
  if !f.delivery then none
  else ((l.pendingMsi.cells.filter fun c => c.2 && c.1 / 2048 == file && f.enables.get false (c.1 % 2048) &&
      (f.threshold == 0 || decide (c.1 % 2048 < f.threshold))).map fun c => c.1 % 2048).min?

/-- IMSIC_MSI: a 4-byte write of an identity to an interrupt file (R431). -/
def execImsicMsi (addr : Nat) (v : W32) (s : State) : Answer :=
  .next (if inService s then updLanding (deliverMsi addr v.toNat) s else s)

/-! ### APLIC sources (R432) -/

/-- Whether a source is asserted. -/
def sourceAsserted (s : State) (source : Nat) : Bool :=
  match source with
  | 1 => decide (s.err.read < s.err.written)
  | 2 => s.mgmt.rspReady
  | 3 => decide (s.landing.throttleSeen ≠ s.power.logCount)
  | 4 => s.power.thermAsserted
  | 5 => (pcieOf s 0).reports
  | 6 => (pcieOf s 1).reports
  | 7 => decide (s.scaler.done ≠ 0)
  | 8 => s.landing.peerChanged
  | 9 => s.landing.portChanged
  | _ => false

/-- A source is cleared: an event that asserted it counts no more. -/
def clearSource (source : Nat) (s : State) : State :=
  match source with
  | 3 => updLanding (fun l => { l with throttleSeen := s.power.logCount }) s
  | 5 => updLanding (fun l => { l with pcie := l.pcie.update {} 0 fun q => { q with reports := false } }) s
  | 6 => updLanding (fun l => { l with pcie := l.pcie.update {} 1 fun q => { q with reports := false } }) s
  | 8 => updLanding (fun l => { l with peerChanged := false }) s
  | 9 => updLanding (fun l => { l with portChanged := false }) s
  | _ => s

/-- A domain: the M domain, or the S domain. -/
def domainOf (l : LandingBlock) (m : Bool) : AplicDomain := if m then l.aplicM else l.aplicS
def updDomain (m : Bool) (f : AplicDomain → AplicDomain) (s : State) : State :=
  updLanding (fun l => if m then { l with aplicM := f l.aplicM } else { l with aplicS := f l.aplicS }) s

/-- The M domain delegates a source to the S domain. -/
def delegated (l : LandingBlock) (source : Nat) : Bool := bitOf (l.aplicM.sources.get 0 source) 10

/-- Mode of a source in a domain: 0 inactive, 1 detached, 4 and 5 edge, 6 and 7 level. -/
def sourceMode (l : LandingBlock) (m : Bool) (source : Nat) : Nat :=
  if m == delegated l source then 0 else (domainOf l m).sources.get 0 source % 8

/-- The rectified input of a source. -/
def rectified (mode : Nat) (wire : Bool) : Bool :=
  match mode with
  | 4 | 6 => wire
  | 5 | 7 => !wire
  | _ => false

/-- The interrupt file that a target names. -/
def targetFile (m : Bool) (target : Nat) : Nat :=
  if m then 0x400002400000 + bitsOf target 31 18 * 0x1000
  else 0x400002000000 + bitsOf target 31 18 * 0x8000 + bitsOf target 17 12 * 0x1000

/-- A source that pends and is enabled in an enabled domain is sent as an MSI; it pends no more (R432). -/
def deliverSource (m : Bool) (s : State) (source : Nat) : State :=
  let d := domainOf s.landing m
  if d.enabled && d.pending.get false source && d.enables.get false source then
    let t := d.targets.get 0 source
    let sent := if bitsOf t 31 18 < 64 ∧ (m ∨ bitsOf t 17 12 < 8) then updLanding (deliverMsi (targetFile m t) (bitsOf t 10 0)) s else s
    clearSource source (updDomain m (fun d => { d with pending := d.pending.set false source false }) sent)
  else s

/-- The nine sources. -/
def aplicSources : List Nat := [1, 2, 3, 4, 5, 6, 7, 8, 9]

/-- Everything deliverable in a domain is delivered. -/
def deliverDomain (m : Bool) (s : State) : State := aplicSources.foldl (deliverSource m) s

/-- A domain after the wire of a source changed. -/
def wireChange (mode source : Nat) (old new : Bool) (d : AplicDomain) : AplicDomain :=
  let was := rectified mode old
  let now := rectified mode new
  if !was && now then { d with pending := d.pending.set false source true }
  else if was && !now && decide (6 ≤ mode) then { d with pending := d.pending.set false source false }
  else d

/-- APLIC_SOURCE_CHANGE: the wire of a source follows what asserts it (R432). -/
def aplicSourceChange (source : Nat) (s : State) : State :=
  if !inService s || !aplicSources.contains source then s
  else
    let old := s.landing.wires.get false source
    let new := sourceAsserted s source
    let m := !delegated s.landing source
    let mode := sourceMode s.landing m source
    deliverDomain m (updDomain m (wireChange mode source old new) (updLanding (fun l => { l with wires := l.wires.set false source new }) s))

def execAplicSourceChange (source : Nat) (s : State) : Answer := .next (aplicSourceChange source s)

/-! ### Registers of an APLIC domain (R481) -/

/-- The word of a set of sources. -/
def sourceBits (f : Nat → Bool) : Nat := aplicSources.foldl (fun n i => n + flag (f i) i) 0

/-- A domain's register read. -/
def aplicRead (m : Bool) (off : Nat) (s : State) : Nat × State :=
  let l := s.landing
  let d := domainOf l m
  if 4 ≤ off ∧ off < 0x1000 then
    let i := off / 4
    (if !aplicSources.contains i || (!m && !delegated l i) then 0 else if m && delegated l i then 0x400 else sourceMode l m i, s)
  else if 0x1BC0 ≤ off ∧ off < 0x1BD0 ∧ m then ((drawFree s).1.toNat % 2 ^ 32, (drawFree s).2)
  else if 0x3004 ≤ off ∧ off < 0x4000 then
    let i := (off - 0x3000) / 4
    (if sourceMode l m i = 0 then 0 else d.targets.get 0 i, s)
  else match off with
    | 0 => (0x80000004 + flag d.enabled 8, s)
    | 0x1C00 => (sourceBits (fun i => d.pending.get false i), s)
    | 0x1D00 => (sourceBits (fun i => rectified (sourceMode l m i) (l.wires.get false i)), s)
    | 0x1E00 => (sourceBits (fun i => d.enables.get false i), s)
    | _ => (0, s)

/-- A write of sourcecfg: delegation only from the M domain, reserved modes read inactive; an inactive source neither pends nor is
enabled. -/
def sourceCfgWrite (m : Bool) (source v : Nat) (s : State) : State :=
  let deleg := m && bitOf v 10
  let mode := if v % 8 = 2 ∨ v % 8 = 3 then 0 else v % 8
  let drop (d : AplicDomain) : AplicDomain :=
    { d with pending := d.pending.set false source false, enables := d.enables.set false source false }
  if !m && !delegated s.landing source then s
  else
    let put (d : AplicDomain) : AplicDomain := { d with sources := d.sources.set 0 source (if deleg then 0x400 else mode) }
    let s1 := updDomain m put s
    let s2 := if deleg ∨ mode = 0 then updDomain m drop s1 else s1
    if m ∧ !deleg then updDomain false (fun d => { drop d with sources := d.sources.set 0 source 0 }) s2 else s2

/-- A source set pending: an active one, at a level mode only while its input is high. -/
def setPending (m : Bool) (s : State) (source : Nat) : State :=
  let mode := sourceMode s.landing m source
  if mode = 0 ∨ (6 ≤ mode ∧ !rectified mode (s.landing.wires.get false source)) then s
  else updDomain m (fun d => { d with pending := d.pending.set false source true }) s

/-- A source no longer pends. -/
def clearPending (m : Bool) (s : State) (source : Nat) : State :=
  if (domainOf s.landing m).pending.get false source then
    clearSource source (updDomain m (fun d => { d with pending := d.pending.set false source false }) s)
  else s

/-- A source enabled or not. -/
def setEnable (m on : Bool) (s : State) (source : Nat) : State :=
  if sourceMode s.landing m source = 0 then s else updDomain m (fun d => { d with enables := d.enables.set false source on }) s

/-- The sources a word of bits names, and those a number names. -/
def namedBits (v : Nat) : List Nat := aplicSources.filter fun i => bitOf v i
def namedOne (v : Nat) : List Nat := aplicSources.filter fun i => i == v

/-- A domain's register written; what can be delivered then is. -/
def aplicWrite (m : Bool) (off v : Nat) (s : State) : State :=
  let wrote : State :=
    if 4 ≤ off ∧ off < 0x1000 then (if aplicSources.contains (off / 4) then sourceCfgWrite m (off / 4) v s else s)
    else if 0x3004 ≤ off ∧ off < 0x4000 then
      let i := (off - 0x3000) / 4
      let keep := bitsOf v 31 18 * 2 ^ 18 + (if m then 0 else bitsOf v 17 12 * 2 ^ 12) + bitsOf v 10 0
      if sourceMode s.landing m i = 0 then s else updDomain m (fun d => { d with targets := d.targets.set 0 i keep }) s
    else match off with
      | 0 => updDomain m (fun d => { d with enabled := bitOf v 8 }) s
      | 0x1C00 => (namedBits v).foldl (setPending m) s
      | 0x1CDC => (namedOne v).foldl (setPending m) s
      | 0x1D00 => (namedBits v).foldl (clearPending m) s
      | 0x1DDC => (namedOne v).foldl (clearPending m) s
      | 0x1E00 => (namedBits v).foldl (setEnable m true) s
      | 0x1EDC => (namedOne v).foldl (setEnable m true) s
      | 0x1F00 => (namedBits v).foldl (setEnable m false) s
      | 0x1FDC => (namedOne v).foldl (setEnable m false) s
      | 0x2000 => (namedOne v).foldl (setPending m) s
      | 0x3000 => if bitsOf v 31 18 < 64 then updLanding (deliverMsi (targetFile m (bitsOf v 31 18 * 2 ^ 18)) (bitsOf v 10 0)) s else s
      | _ => s
  deliverDomain m wrote

/-- A 4-byte access to the interrupt files and APLIC domains, by offset in the control space; an interrupt file reads zero. -/
def fourByteRead (off : Nat) (s : State) : Nat × State :=
  if 0x2600000 ≤ off then aplicRead (decide (off < 0x2604000)) (off % 0x4000) s else (0, s)
def fourByteWrite (off v : Nat) (s : State) : State :=
  if 0x2600000 ≤ off then aplicWrite (decide (off < 0x2604000)) (off % 0x4000) v s
  else updLanding (deliverMsi (controlBase + off) v) s

/-! ### PCIe root ports (R433–R435) -/

/-- A root port changed. -/
def updPcie (p : Nat) (f : PciePort → PciePort) (s : State) : State := updLanding (fun l => { l with pcie := l.pcie.update {} p f }) s

/-- A refused inbound request: counted, answered Unsupported Request, recorded (R434). -/
def pcieRefuse (p : Nat) (code : W16) (addr : Nat) (s : State) : State :=
  report { code := code, source := srcModule s, address := BitVec.ofNat 64 addr, context := BitVec.ofNat 16 (pcieOf s p).context }
    (updPcie p (fun q => { q with refused := satAdd 32 q.refused 1, completion := .unsupported }) s)

/-- An inbound request that meets poison (R278, R279). -/
def pciePoison (p : Nat) (code : W16) (addr : Nat) (s : State) : State :=
  report { code := code, source := srcModule s, address := BitVec.ofNat 64 addr, context := BitVec.ofNat 16 (pcieOf s p).context }
    (updPcie p (fun q => { q with completion := .unsupported }) s)

/-- A memory request that may be served (R434). -/
def pcieMemory (p : Nat) (r : PcieRequest) (s : State) : State :=
  let q : Requester := { agent := .pcie, context := (pcieOf s p).context }
  let n := (r.write.map (·.length)).getD r.length
  if !rangeNearOrBulk r.addr n || n == 0 then pcieRefuse p 0x9202 r.addr s
  else match stakeRefusalIn s q r.write.isSome r.addr n with
    | some c => pcieRefuse p c r.addr s
    | none => match r.write with
      | some bs => match physWrite q r.addr bs s with
        | (.fail c a, t) => pciePoison p c a t
        | (.done _, t) | (.wait, t) => updPcie p (fun x => { x with completion := .none }) t
      | none => match physRead q r.addr n s with
        | (.done bs, t) => updPcie p (fun x => { x with completion := .data bs }) t
        | (.fail c a, t) => pciePoison p c a t
        | (.wait, t) => t

/-- An uncorrectable error reported by AER (R432, R445). -/
def aerError (p : Nat) (injected : Bool) (s : State) : State :=
  report { code := 0x9201, source := srcModule s, injected := injected } (updPcie p (fun q => { q with reports := true }) s)

/-- Whether a request keeps the port's Max_Payload_Size and Max_Read_Request_Size (R433). -/
def pcieSized (r : PcieRequest) : Bool :=
  match r.write with
  | some bs => decide (bs.length ≤ 512)
  | none => decide (r.length ≤ 4096)

/-- An inbound request: an MSI, or a memory request (R434); one longer than the port takes is malformed, an error that AER reports (R433;
log 92). -/
def pcieRequest (p : Nat) (r : PcieRequest) (s : State) : State :=
  if !pcieSized r then aerError p false s
  else match r.write, msiFile r.addr with
  | some bs, some _ => if bs.length = 4 ∧ r.addr % 4 = 0 then updLanding (deliverMsi r.addr (natOfBytes bs)) s else s
  | _, _ => if !(pcieOf s p).inbound then pcieRefuse p 0x9202 r.addr s else pcieMemory p r s

/-- PCIE_INBOUND: a request from a device below a root port whose link is up; the next one is where 0x9201 may be injected (R466). -/
def execPcieInbound (p : Nat) (r : PcieRequest) (s : State) : Answer :=
  if !inService s || decide (2 ≤ p) || (pcieOf s p).width == 0 then .next s
  else
    let a := fireInjection 0x9201 (fun l => l == p) s
    .next (pcieRequest p r (if a.1 then aerError p true a.2 else a.2))

/-- Widths and rates of a link: both zero while it is down (R435). -/
def linkForm (width rate : Nat) : Bool :=
  (width == 0 && rate == 0) || ([1, 2, 4, 8, 16].contains width && decide (1 ≤ rate ∧ rate ≤ 6))

/-- PCIE_LINK_CHANGE: the link trains, retrains or is lost; or AER reports an uncorrectable error (R432, R433, R445). -/
def execPcieLinkChange (p width rate : Nat) (aer : Bool) (s : State) : Answer :=
  if !inService s || decide (2 ≤ p) || !linkForm width rate then .next s
  else
    let lost : Bool := decide ((pcieOf s p).width ≠ 0) && width == 0
    let s1 := if (pcieOf s p).width = width ∧ (pcieOf s p).rate = rate then s
      else updPcie p (fun q => { q with width := width, rate := rate, reports := true }) s
    let s2 := if lost then reportModule 0x9204 s1 else s1
    .next (if aer then aerError p false s2 else s2)

end Sys2Proof.Machine
end

