-- ==== Sys2Proof/Machine/Harts.lean ====
section
/-!
DEFINITION. Machine/Harts.lean: accesses of the Landing harts (R15, R322, R327, R376, R426–R429, R481).
-/

namespace Sys2Proof.Machine

/-! ### Where an access goes (R427, R477) -/

/-- What a physical range is to a hart. -/
inductive HartPlace where
  | tier | register | fourByte | outbound
  | pcie (ecam : Bool)
  | nothing
deriving DecidableEq, Repr

/-- The place of an access of n bytes. -/
def hartPlace (pa n : Nat) : HartPlace :=
  if inOverlay pa || inOverlay (pa + n - 1) then (if inOverlay pa && inOverlay (pa + n - 1) then .outbound else .nothing)
  else if regionOf pa ≠ regionOf (pa + n - 1) then .nothing
  else match regionOf pa with
    | .near | .bulk | .flash | .aperture => .tier
    | .control => if fourByteOffset (pa - controlBase) then .fourByte else .register
    | .pcie _ => .pcie (decide ((pa - pcieBase) % 0x80000000000 < 0x10000000))
    | .unserved => .nothing

/-- Modes that reach the control space (R288). -/
def HartMode.reachesControl : HartMode → Bool
  | .m | .hs | .vs => true
  | .u | .vu => false

/-- Scalar sizes. -/
def scalarSize (n : Nat) : Bool := n == 1 || n == 2 || n == 4 || n == 8

/-- The core ROM, by offset in the control space (R430). -/
def inCoreRom (off n : Nat) : Bool := decide (0x2800000 ≤ off ∧ off + n ≤ 0x2810000)

/-- Whether a place accepts an access of n bytes in a mode (R427, R481): a tier accepts every load and store; instructions are fetched from
the tiers and from the core ROM alone (log 70). -/
def placeAccepts (mode : HartMode) (fetch : Bool) (pa n : Nat) : HartPlace → Bool
  | .tier => true
  | .register => mode.reachesControl && if fetch then inCoreRom (pa - controlBase) n else n == 8 && pa % 8 == 0
  | .fourByte => mode.reachesControl && !fetch && n == 4 && pa % 4 == 0
  | .outbound => !fetch && scalarSize n && pa % n == 0
  | .pcie ecam => !fetch && scalarSize n && pa % n == 0 && (!ecam || n == 4)
  | .nothing => false

/-- A hart begins an access in a mode, with its instruction and CSRs; a barrier it waited for is over. -/
def beginAccess (h : Nat) (mode : HartMode) (v : HartView) (s : State) : State :=
  updHart h (fun x => { x with mode := mode, pc := v.pc, medeleg := v.medeleg, waiting := .nothing }) s

/-! ### Outbound windows (R376) -/

/-- The outbound window of an address, and the handle it forms. -/
def outWindowOf (s : State) (pa : Nat) : OutWindow := s.fabric.outWindows.get {} ((pa - outBase) / 2 ^ 40)
def outHandle (s : State) (pa : Nat) : Nat := (outWindowOf s pa).handleHi * 2 ^ 40 + (pa - outBase) % 2 ^ 40

/-- VALID is 0, or the handle is malformed. -/
def outBarred (s : State) (pa n : Nat) : Bool := !(outWindowOf s pa).valid || handleMalformed s (outHandle s pa) n

/-- What refuses a load or atomic for another module before it leaves (R386, R387). -/
def remoteRefusal (s : State) (m : Nat) : Option W16 :=
  if reachOf s m ≠ .reachable then some 0x7301 else if pathUp s m then none else some 0x7306

/-- A remote load or atomic of a hart, before or at its sending. -/
def remoteOpOf (h va pa : Nat) (atomic : Bool) (s : State) : RemoteOp :=
  ⟨h, s.fabric.nextRemote, outHandle s pa, pa, va, atomic, s.now, hartContextOf s h⟩

/-- A request leaves for another module, and the hart waits for its reply. -/
def sendRemote (x : RemoteOp) (m : Nat) (s : State) : State :=
  updHart x.hart (fun y => { y with waiting := .remote x.id })
    (countFrames 1 (firstPort s m) (updFabric (fun f => { f with remoteOps := f.remoteOps ++ [x], nextRemote := x.id + 1 }) s))

/-- A load or atomic through an outbound window; `here` serves it when the handle names this module. -/
def outAccess (h va pa n : Nat) (atomic : Bool) (here : State → Except W16 Nat × State) (s : State) : State :=
  let x := remoteOpOf h va pa atomic s
  let m := handleTarget s x.handle
  if outBarred s pa n then failRemote x 0x7304 s
  else if m = moduleIndex s then
    match here s with
    | (.ok v, t) => updHart h (fun y => { y with value := BitVec.ofNat 64 v }) t
    | (.error c, t) => failRemote x c t
  else match remoteRefusal s m with
    | some c => failRemote x c s
    | none => sendRemote x m s

/-- A load of this module's own window. -/
def windowLoadHere (pa n : Nat) (s : State) : Except W16 Nat × State :=
  let hd := outHandle s pa
  match windowRead (handleWindow hd) (moduleIndex s) (moduleGen s) (handleOffset hd) n s with
  | (.ok bs, t) => (.ok (natOfBytes bs), t)
  | (.error c, t) => (.error c, t)

/-- An atomic on this module's own window. -/
def windowAtomicHere (op : AmoOp) (pa : Nat) (a b : W64) (s : State) : Except W16 Nat × State :=
  let hd := outHandle s pa
  match windowAtomic (handleWindow hd) (moduleIndex s) (moduleGen s) (handleOffset hd) op a b s with
  | (.ok v, t) => (.ok v.toNat, t)
  | (.error c, t) => (.error c, t)

/-- Bytes joined to what a hart has combined for their codeword; later bytes win. -/
def combineBytes (old : List (Nat × Byte)) (new : List (Nat × Byte)) : List (Nat × Byte) :=
  new ++ old.filter fun x => !new.any fun y => y.1 == x.1

/-- Whether a store of a hart to a handle travels with a transfer: with stores of harts to the same row of a memory window, not 64 ns
old and not yet at a port die (R376; log 84). -/
def travelsWith (s : State) (handle : Nat) (x : Transfer) : Bool :=
  decide (x.state = .leaving) && x.hart.isSome && x.handle / 128 == handle / 128 && handleWindow handle != 255 && decide (s.now ≤ x.made + 64)

/-- The bytes of a run by offset in their row. -/
def rowCells (b : Nat) (bs : List Byte) : List (Nat × Byte) := bs.zipIdx.map fun y => (b % 128 + y.2, y.1)

/-- A transfer with its bytes in runs, which a store of a hart to a physical address has joined. -/
def carryRuns (h pa : Nat) (x : Transfer) : List (Nat × List Byte) → Transfer
  | [] => x
  | r :: rs => { x with handle := r.1, data := r.2, more := rs, joined := x.joined ++ [(h, pa)] }

/-- A transfer of a hart with the bytes of a further store to its row, by a hart to a physical address (R376). -/
def joinRow (h pa handle : Nat) (bs : List Byte) (x : Transfer) : Transfer :=
  let old := rowCells x.handle x.data ++ x.more.flatMap fun r => rowCells r.1 r.2
  carryRuns h pa x ((byteRuns (sortedBytes (combineBytes old (rowCells handle bs)))).map fun r => (handle / 128 * 128 + r.1, r.2))

/-- A store through an outbound window, on its way to a port die, alone or with an earlier one to its row (R376); only a task's transfer
carries the SEALED mark (R309). -/
def outStore (h va pa n v : Nat) (s : State) : State :=
  if outBarred s pa n then failRemote (remoteOpOf h va pa true s) 0x7304 s
  else
    let id := s.fabric.nextTransfer
    let handle := outHandle s pa
    let context := hartContextOf s h
    match s.fabric.transfers.find? (travelsWith s handle) with
    | some y => updTransfer y.id (joinRow h pa handle (bytesOfNat n v)) s
    | none =>
      let x : Transfer := { id := id, hart := some (h, pa), context := context, handle := handle, data := bytesOfNat n v, made := s.now
                            remaining := n }
      updFabric (fun f => { f with transfers := f.transfers ++ [x], nextTransfer := id + 1 }) s

/-- Earlier transfers of a hart, in the scope of an outbound window, that are not complete (R326, R376). -/
def scopeBusy (s : State) (h pa : Nat) : Bool :=
  s.fabric.transfers.any fun x => x.ofHart h &&
    ((outWindowOf s pa).scope || handleTarget s x.handle / 48 == ownCord s)

/-! ### A hart's own translation (R15, R288, R424) -/

/-- What a hart's access is. -/
inductive HartKind where
  | fetch | load | store
deriving DecidableEq, Repr

/-- The access fault, page fault and guest-page fault of an access. -/
def HartKind.accessTrap : HartKind → HartTrap
  | .fetch => .fetchAccess | .load => .loadAccess | .store => .storeAccess
def HartKind.pageTrap : HartKind → HartTrap
  | .fetch => .fetchPage | .load => .loadPage | .store => .storePage
def HartKind.guestTrap : HartKind → HartTrap
  | .fetch => .fetchGuest | .load => .loadGuest | .store => .storeGuest

/-- How the translation of a page stops: with a page fault, with a guest-page fault at a guest physical address, with the refusal of a
table read, or with a table read that waits. -/
inductive HartStop where
  | page
  | guest (gpa : Nat)
  | access (code : W16) (pa : Nat)
  | again
deriving DecidableEq, Repr

/-- R, W and X of a leaf, and A and D, which the harts do not set (R424). -/
def leafAllows (kind : HartKind) (mxr : Bool) (pte : Nat) : Bool :=
  (match kind with
   | .fetch => bitOf pte 3
   | .load => bitOf pte 1 || (mxr && bitOf pte 3)
   | .store => bitOf pte 2) && bitOf pte 6 && (kind != .store || bitOf pte 7)

/-- Whether a leaf permits an access of a mode; U-mode pages are open to S-mode under SUM, but for fetches. -/
def hartLeafOk (x : HartView) (mode : HartMode) (kind : HartKind) (pte : Nat) : Bool :=
  (match mode with
   | .u | .vu => bitOf pte 4
   | .hs | .vs => !bitOf pte 4 || (x.sum && kind != .fetch)
   | .m => true) && leafAllows kind x.mxr pte

/-- Whether a G-stage leaf permits an access: it is a U-mode page. -/
def guestLeafOk (x : HartView) (kind : HartKind) (pte : Nat) : Bool := bitOf pte 4 && leafAllows kind x.mxr pte

/-- A table entry read at a physical address. -/
def readEntry (q : Requester) (a : Nat) (s : State) : Except HartStop Nat × State :=
  if !rangeNearOrBulk a 8 then (.error (.access 0x9103 a), s)
  else match physRead q a 8 s with
    | (.done bs, t) => (.ok (natOfBytes bs), t)
    | (.fail c pa, t) => (.error (.access c pa), t)
    | (.wait, t) => (.error .again, t)

/-- A walk from the table of level `n − 1` on, whose index has `extra` further bits in the root: the address a leaf gives, and whether the
page bypasses the caches (PBMT of NC or IO, R426). -/
def hartWalk (read : Nat → State → Except HartStop Nat × State) (ok : Nat → Bool) (v : Nat) :
    Nat → Nat → Nat → State → Except HartStop (Nat × Bool) × State
  | 0, _, _, s => (.error .page, s)
  | n + 1, extra, table, s =>
    match read (table + bitsOf v (20 + 9 * n + extra) (12 + 9 * n) * 8) s with
    | (.error e, t) => (.error e, t)
    | (.ok pte, t) =>
      if !bitOf pte 0 || pteMalformed pte n || bitsOf pte 62 61 == 3 then (.error .page, t)
      else if pteLeaf pte then
        let k := leafPages pte n
        if ok pte then (.ok (leafPa ⟨none, 0, v / 4096 / k * k, k, pte⟩ v, bitsOf pte 62 61 != 0), t) else (.error .page, t)
      else hartWalk read ok v n 0 (ptePpn pte * 4096) t

/-- A guest physical address through the G-stage tables, where the hart has any (R288). -/
def guestPage (q : Requester) (x : HartView) (kind : HartKind) (gpa : Nat) (s : State) : Except HartStop (Nat × Bool) × State :=
  match x.guest with
  | none => (.ok (gpa, false), s)
  | some r =>
    if 2 ^ (if x.guestSv39 then 41 else 50) ≤ gpa then (.error (.guest gpa), s)
    else match hartWalk (readEntry q) (guestLeafOk x kind) gpa (if x.guestSv39 then 3 else 4) 2 r s with
      | (.error .page, t) => (.error (.guest gpa), t)
      | y => y

/-- A guest's table entry, whose address is a guest physical one. -/
def readGuestEntry (q : Requester) (x : HartView) (a : Nat) (s : State) : Except HartStop Nat × State :=
  match guestPage q x .load a s with
  | (.ok p, t) => readEntry q p.1 t
  | (.error e, t) => (.error e, t)

/-- A page of an access through the first stage alone, or, of a guest's, through both. -/
def secondStage (q : Requester) (x : HartView) (virt : Bool) (kind : HartKind) (p : Nat × Bool) (s : State) :
    Except HartStop (Nat × Bool) × State :=
  if !virt then (.ok p, s)
  else match guestPage q x kind p.1 s with
    | (.ok r, t) => (.ok (r.1, p.2 || r.2), t)
    | (.error e, t) => (.error e, t)

/-- A guest's modes. -/
def HartMode.virtual : HartMode → Bool
  | .vs | .vu => true
  | .m | .hs | .u => false

/-- Where an address of a hart's program lies: at itself in M-mode and in Bare mode, else where the tables put it (R15). -/
def hartPage (q : Requester) (x : HartView) (mode : HartMode) (kind : HartKind) (va : Nat) (s : State) :
    Except HartStop (Nat × Bool) × State :=
  if mode = .m then (.ok (va, false), s)
  else match x.root with
    | none => secondStage q x mode.virtual kind (va, false) s
    | some r =>
      let bits := if x.sv39 then 39 else 48
      if va / 2 ^ (bits - 1) ≠ 0 ∧ va / 2 ^ (bits - 1) ≠ 2 ^ (65 - bits) - 1 then (.error .page, s)
      else
        let read := if mode.virtual then readGuestEntry q x else readEntry q
        match hartWalk read (hartLeafOk x mode kind) (va % 2 ^ bits) (if x.sv39 then 3 else 4) 0 r s with
        | (.ok p, t) => secondStage q x mode.virtual kind p t
        | (.error e, t) => (.error e, t)

/-- The pages of a hart's access, each translated; and the page at which the translation stops. -/
def hartPages (q : Requester) (x : HartView) (mode : HartMode) (kind : HartKind) :
    List (Nat × Nat) → State → Except (Nat × HartStop) (List HartPiece × Bool) × State
  | [], s => (.ok ([], false), s)
  | (va, n) :: ps, s =>
    match hartPage q x mode kind va s with
    | (.error e, t) => (.error (va, e), t)
    | (.ok p, t) => match hartPages q x mode kind ps t with
      | (.ok (rest, u), w) => (.ok (⟨va, p.1, n⟩ :: rest, p.2 || u), w)
      | (.error e, w) => (.error e, w)

/-- Where an access of a hart lies, in one piece where nothing translates it. Its table reads carry context 0x0001 (R287). -/
def hartMap (h : Nat) (mode : HartMode) (kind : HartKind) (x : HartView) (va n : Nat) (s : State) :
    Except (Nat × HartStop) (List HartPiece × Bool) × State :=
  if mode = .m ∨ (x.root = none ∧ (x.guest = none ∨ !mode.virtual)) then (.ok ([⟨va, va, n⟩], false), s)
  else hartPages (hartRequesterIn h 1) x mode kind (pagePieces va n) s

/-- An exception that the hart itself raises: its combined stores leave (R426). -/
def hartTrap (h : Nat) (trap : HartTrap) (stval tval2 : Nat) (s : State) : State :=
  updHart h (fun x => { x.take trap stval with tval2 := BitVec.ofNat 64 tval2 }) (sendAllCombined h s)

/-- An access goes on where the tables put it: in one piece, or in the pieces of two pages of the tiers; a page fault, a guest-page fault
and the refusal of a table read are the hart's (R15, R288, R428). A table read that waits leaves the access to be made again. -/
def hartAt (h : Nat) (mode : HartMode) (kind : HartKind) (x : HartView) (va n : Nat)
    (go : List HartPiece → Bool → State → State) (s : State) : State :=
  match hartMap h mode kind x va n s with
  | (.ok (ps, u), t) => go ps u t
  | (.error (a, .page), t) => hartTrap h kind.pageTrap a 0 t
  | (.error (a, .guest gpa), t) => hartTrap h kind.guestTrap a (gpa / 4) t
  | (.error (a, .access c pa), t) =>
    if c = 0x9103 then hartBarred h kind.accessTrap a t else hartRefused (hartRequesterIn h 1) h kind.accessTrap c a pa t
  | (.error (_, .again), t) => t

/-- The place of an access: of its one piece, or a tier when both its pages lie in tiers. -/
def piecesPlace (ps : List HartPiece) : HartPlace :=
  match ps with
  | [p] => hartPlace p.pa p.n
  | ps => if ps.all fun p => hartPlace p.pa p.n == .tier then .tier else .nothing

/-! ### Loads (R427) -/

/-- A load of a register or of a site window. -/
def hartRegLoadAt (h off : Nat) (s : State) : State :=
  match siteWindowOf off with
  | some (k, o) => siteWindowAccess k h o none none s
  | none =>
    let r := regRead off s
    updHart h (fun x => { x with value := r.1 }) r.2

/-- A load from the control space. -/
def hartRegLoad (h pa : Nat) (s : State) : State := hartRegLoadAt h (pa - controlBase) s

/-- Bytes of the core ROM by offset in the control space (R430). -/
def romBytes (off n : Nat) : List Byte :=
  (List.range n).map fun i => BitVec.ofNat 8 ((Config.coreRom ((off - 0x2800000 + i) / 8)).toNat / 256 ^ ((off + i) % 8))

/-- The root port and the register that an address names in the port's own configuration space: bus 0 device 0 function 0 of its hierarchy
(R433, R435). -/
def ownConfig (pa : Nat) : Option (Nat × Nat) :=
  if pa % 0x80000000000 < 0x1000 then some (pa / 0x80000000000 - pcieBase / 0x80000000000, pa % 0x80000000000) else none

/-- A load through a PCIe window: of a port's own configuration space (log 92), else a free value, the device's answer (log 4). -/
def pcieLoad (h pa n : Nat) (s : State) : State :=
  match ownConfig pa with
  | some (p, r) => updHart h (fun x => { x with value := (Config.pcieConfig p r (pcieOf s p).config (pcieOf s p).reports).setWidth 64 }) s
  | none =>
    let r := drawFree s
    updHart h (fun x => { x with value := BitVec.ofNat 64 (r.1.toNat % 2 ^ (8 * n)) }) r.2

/-- A store through a PCIe window: into a port's own configuration space, else to a device. -/
def pcieStore (pa v : Nat) (s : State) : State :=
  match ownConfig pa with
  | some (p, r) => updPcie p (fun q => { q with config := (r, BitVec.ofNat 32 v) :: q.config }) s
  | none => s

/-- A load of n bytes, or a fetch. -/
def hartLoad (h : Nat) (mode : HartMode) (va n : Nat) (fetch : Bool) (x : HartView) (s : State) : State :=
  let kind : HartKind := if fetch then .fetch else .load
  if !hartRuns s h || n == 0 then s
  else hartAt h mode kind x va n (fun ps uncached s0 =>
    let pa := (ps.head?.map (·.pa)).getD va
    let place := piecesPlace ps
    if !placeAccepts mode fetch pa n place then hartBarred h kind.accessTrap va s0
    else match place with
      | .tier => hartTierLoad h (hartContextOf s0 h) fetch (!uncached) ps s0
      | .register => if fetch then updHart h (Hart.loaded (romBytes (pa - controlBase) n)) s0 else hartRegLoad h pa s0
      | .fourByte =>
        let r := fourByteRead (pa - controlBase) s0
        updHart h (fun x => { x with value := BitVec.ofNat 64 r.1 }) r.2
      | .outbound => outAccess h va pa n false (windowLoadHere pa n) s0
      | .pcie _ => pcieLoad h pa n s0
      | .nothing => s) (beginAccess h mode x s)

def execHartLoad (h : Nat) (mode : HartMode) (addr size : Nat) (fetch : Bool) (x : HartView) (s : State) : Answer :=
  .next (hartLoad h mode addr size fetch x s)

/-! ### Stores (R426–R428) -/

/-- Bytes of one codeword combined with those of the same context (R314, R426). -/
def combineInto (now codeword context : Nat) (bs : List (Nat × Byte)) (x : Hart) : Hart :=
  let same (c : Combined) : Bool := c.codeword == codeword && c.context == context
  if x.combined.any same then
    { x with combined := x.combined.map fun c => if same c then { c with bytes := combineBytes c.bytes bs } else c }
  else { x with combined := x.combined ++ [⟨codeword, bs, now, context⟩] }

/-- Stores of another context to a codeword, and those that have combined for 64 ns, leave before one is combined there (R314, R426). -/
def sendOthers (h codeword context : Nat) (s : State) : State :=
  if (hartOf s h).combined.any fun c => c.codeword == codeword && (c.context != context || decide (c.since + 64 < s.now)) then
    sendCombined h codeword s
  else s

/-- A store combined, codeword by codeword. -/
def combineStore (h pa : Nat) (bs : List Byte) (s : State) : State :=
  let cells := bs.zipIdx.map fun b => (pa + b.2, b.1)
  let context := hartContextOf s h
  (blocksOf 512 pa bs.length).foldl (fun s c =>
    updHart h (combineInto s.now c context ((cells.filter fun x => x.1 / 512 == c).map fun x => (x.1 % 512, x.2)))
      (sendOthers h c context s)) s

/-- A store to the tiers, page by page: one to an uncached page leaves as a request of its own (R426). -/
def hartTierStore (h : Nat) (uncached : Bool) : List HartPiece → List Byte → State → State
  | [], _, s => s
  | p :: ps, bs, s =>
    let mine := bs.take p.n
    let leave (s : State) : State := if uncached then (blocksOf 512 p.pa p.n).foldl (fun s c => sendCombined h c s) s else s
    hartTierStore h uncached ps (bs.drop p.n) (leave (combineStore h p.pa mine (leave
      (if uncached then s else systemCacheRange (hartContextOf s h) false [p] s))))

/-- A store of a register or of a site window: the hart waits until it is acknowledged (R331, R483). -/
def hartRegStoreAt (h off : Nat) (v : W64) (s : State) : State :=
  match siteWindowOf off with
  | some (k, o) => siteWindowAccess k h o (some v) none s
  | none =>
    let r := regWrite (.hart h) off v s
    if r.1 then r.2 else updHart h (fun x => { x with waiting := .write }) r.2

/-- A store to the control space. -/
def hartRegStore (h pa : Nat) (v : W64) (s : State) : State := hartRegStoreAt h (pa - controlBase) v s

/-- Whether the tiered aperture has no WRITABLE object at a place stored to: the map does not allow the store (R427). -/
def storeBarred (s : State) (p : HartPiece) : Bool :=
  regionOf p.pa == .aperture && s.tier.enable && !((objectAt s (p.pa - apertureBase)).any fun o => o.2.writable)

/-- A store of n bytes. -/
def hartStore (h : Nat) (mode : HartMode) (va n : Nat) (v : BitVec 512) (x : HartView) (s : State) : State :=
  if !hartRuns s h || n == 0 then s
  else hartAt h mode .store x va n (fun ps uncached s0 =>
    let pa := (ps.head?.map (·.pa)).getD va
    let place := piecesPlace ps
    if !placeAccepts mode false pa n place || (place == .tier && ps.any (storeBarred s0)) then hartBarred h .storeAccess va s0
    else match place with
      | .tier => hartTierStore h uncached ps (bytesOfNat n v.toNat) s0
      | .register => hartRegStore h pa (v.setWidth 64) s0
      | .fourByte => fourByteWrite (pa - controlBase) (v.toNat % 2 ^ 32) s0
      | .outbound => outStore h va pa n (v.toNat % 2 ^ 64) s0
      | .pcie _ => pcieStore pa (v.toNat % 2 ^ 32) s0
      | .nothing => s) (beginAccess h mode x s)

def execHartStore (h : Nat) (mode : HartMode) (addr size : Nat) (v : BitVec 512) (x : HartView) (s : State) : Answer :=
  .next (hartStore h mode addr size v x s)

/-! ### Atomics (R327, R376) -/

/-- Sizes of atomics: 4 and 8 bytes, and 16 for a compare-and-swap (A and Zacas, R424). -/
def atomicSize (op : AmoOp) (n : Nat) : Bool := n == 4 || n == 8 || (op == .cas && n == 16)

/-- A hart's register after an atomic. -/
def atomicValue (v : Nat) (x : Hart) : Hart := { x with value := BitVec.ofNat 64 v, valueHi := BitVec.ofNat 64 (v / 2 ^ 64) }

/-- What refuses an atomic's store at its place: the stake check, or a codeword whose poison it does not cover. -/
def atomicRefusal (s : State) (q : Requester) (pa n : Nat) : Option W16 :=
  match accessRefusal s q true pa n with
  | some c => some c
  | none => if partialPoison s pa n then some 0x4301 else none

/-- SC: it stores when the hart holds the reservation of the block; the reservation ends (R327). -/
def storeConditional (h va pa n v : Nat) (s : State) : State :=
  let q := hartRequester s h
  let held := decide ((hartOf s h).reservation = some (pa / 64))
  let s1 := updHart h (fun x => { x with reservation := none }) s
  if !held then updHart h (atomicValue 1) s1
  else match atomicRefusal s1 q pa n with
    | some c => hartRefused q h .storeAccess c va pa s1
    | none => updHart h (atomicValue 0) (placeBytes q pa (bytesOfNat n v) s1)

/-- An atomic on the near or bulk tier, at the location's ordering point (R326, R327). -/
def atomicHere (h : Nat) (op : AmoOp) (va pa n a b : Nat) (s : State) : State :=
  let q := hartRequester s h
  let trap : HartTrap := if op = .lr then .loadAccess else .storeAccess
  if op = .sc then storeConditional h va pa n a s
  else match physRead q pa n s with
    | (.done bs, t) =>
      let old := natOfBytes bs
      let t1 := match amoResult op (8 * n) old (a % 2 ^ (8 * n)) (b % 2 ^ (8 * n)) with
        | some v => placeBytes q pa (bytesOfNat n v) t
        | none => t
      updHart h (fun x => { atomicValue old x with reservation := if op = .lr then some (pa / 64) else x.reservation }) t1
    | (.fail c p, t) => hartRefused q h trap c va p t
    | (.wait, t) => t

/-- WRS.NTO: a hart that holds a reservation stalls until a write to its set (R327). -/
def hartStall (h : Nat) (s : State) : State :=
  match (hartOf s h).reservation with
  | some b => updHart h (fun x => { x with waiting := .stalled b }) s
  | none => s

/-- An atomic of n bytes; the hart's combined stores leave first (R426), and one with rl set waits until every earlier store is
acknowledged (R322). The later accesses of a hart come after it, as aq asks. -/
def hartAtomic (h : Nat) (mode : HartMode) (op : AmoOp) (va n : Nat) (a b : BitVec 128) (rl : Bool) (x : HartView) (s : State) : State :=
  let trap : HartTrap := if op = .lr then .loadAccess else .storeAccess
  if !hartRuns s h || !atomicSize op n then s
  else if op = .wrs then hartStall h (beginAccess h mode x s)
  else hartAt h mode (if op = .lr then .load else .store) x va n (fun ps _ s1 =>
    let pa := (ps.head?.map (·.pa)).getD va
    if inOverlay pa && scopeBusy s1 h pa then s
    else
      let s0 := sendAllCombined h s1
      if !(hartOf s0 h).combined.isEmpty || (rl && !storesAcked s0 h) then s0
      else if ps.length = 1 ∧ rangeNearOrBulk pa n ∧ pa % n = 0 then atomicHere h op va pa n a.toNat b.toNat s0
      else if ps.length = 1 ∧ hartPlace pa n = .outbound ∧ n = 8 ∧ pa % 8 = 0 ∧ op ≠ .lr ∧ op ≠ .sc then
        outAccess h va pa n true (windowAtomicHere op pa (a.setWidth 64) (b.setWidth 64)) s0
      else hartBarred h trap va s0) (beginAccess h mode x s)

def execHartAtomic (h : Nat) (mode : HartMode) (op : AmoOp) (addr size : Nat) (a b : BitVec 128) (rl : Bool) (x : HartView)
    (s : State) : Answer := .next (hartAtomic h mode op addr size a b rl x s)

/-! ### Combined stores, barriers, late faults -/

/-- COMBINED_STORE_SEND: 64 ns have passed since a codeword's first store (R426). -/
def execCombinedStoreSend (h codeword : Nat) (s : State) : Answer := .next (if inService s then sendCombined h codeword s else s)

/-- LOAD_BARRIER: a hart that runs has had every load's value returned (R322). -/
def execLoadBarrier (h : Nat) (s : State) : Answer :=
  .next (if hartRuns s h then updHart h (fun x => { x with waiting := .nothing }) s else s)

/-- A store or full barrier: the combined stores leave, and the hart waits until every store is acknowledged (R322, R426). -/
def storeBarrier (h : Nat) (s : State) : State :=
  if hartRuns s h then updHart h (fun x => { x with waiting := .barrier }) (sendAllCombined h s) else s

def execStoreBarrier (h : Nat) (s : State) : Answer := .next (storeBarrier h s)

/-- FULL_BARRIER: loads have returned, stores are acknowledged (R322). -/
def fullBarrier (h : Nat) (s : State) : State := storeBarrier h s

def execFullBarrier (h : Nat) (s : State) : Answer := .next (fullBarrier h s)

/-- DEFERRED_STORE_FAULT: the hart takes the oldest refusal that has come back, at the instruction boundary it stands at (R428). -/
def execDeferredStoreFault (h : Nat) (v : HartView) (s : State) : Answer :=
  match (hartOf s h).deferred with
  | [] => .next s
  | d :: ds => .next (hartFault h .storeAccess 0 true d.code
      (updHart h (fun x => { x with deferred := ds, pc := v.pc, medeleg := v.medeleg }) s))

/-- POSTED_WRITE_CHECK_FAIL: a write acknowledged to a posted region fails its check and is discarded; only its record tells (R321). -/
def execPostedWriteCheckFail (addr context : Nat) (code : W16) (s : State) : Answer :=
  let tiered := decide (regionOf addr = .aperture)
  let q : Requester := { agent := .tier, context := context }
  .next (if inService s ∧ postedAt s tiered (if tiered then addr - apertureBase else addr) then reportPosted q code addr s else s)

/-! ### ACC_FAULT (R429) -/

/-- A write of ACC_FAULT: its reserved bits read zero. -/
def accFaultWrite (v : W64) : W64 := v &&& 0xE00000000000FFFF

/-- ACC_FAULT_ACCESS: in HS-mode and M-mode an access of the CSR; a virtual-instruction exception in VS-mode and VU-mode, an
illegal-instruction exception in U-mode, with the instruction's bits in stval (Sstvala, R424). -/
def accFaultAccess (h : Nat) (mode : HartMode) (a : CsrAccess) (v : HartView) (s : State) : State :=
  let s0 := updHart h (fun x => { x with mode := mode, pc := v.pc, medeleg := v.medeleg }) s
  if !hartRuns s h then s
  else match mode with
    | .m | .hs => match a with
      | .read => updHart h (fun x => { x with value := x.accFault }) s0
      | .write v => updHart h (fun x => { x with accFault := accFaultWrite v }) s0
    | .vs | .vu => hartTrap h .virtualInstruction v.insn.toNat 0 s0
    | .u => hartTrap h .illegalInstruction v.insn.toNat 0 s0

def execAccFaultAccess (h : Nat) (mode : HartMode) (a : CsrAccess) (x : HartView) (s : State) : Answer :=
  .next (accFaultAccess h mode a x s)

end Sys2Proof.Machine
end

