-- ==== Sys2Proof/Machine/Start.lean ====
section
/-!
DEFINITION. Machine/Start.lean: starts and the resets of the whole module: cold start (R76), the start record and log (R43–R47), the
choice of the image (R67), hold (R68, R79), discovery and training (R78–R85, R354, R355), core boot (R430), warm reset (R88, R89),
brown-out (R90, R492) and the power brake's release (R413).
-/

namespace Sys2Proof.Machine

/-! ### The start log (R45) -/

/-- An entry appended; a full ring first loses the block of its oldest 4,096 entries. -/
def appendEntry (e : LogEntry) (b : BootBlock) : BootBlock :=
  { b with log := (if 65536 ≤ b.log.length then b.log.drop 4096 else b.log) ++ [e] }

/-- An entry of this start, with the device it names; a non-zero one is kept for R69. -/
def logEvent (code : W16) (slot : Option Nat) (imageId : Nat) (device : Option Nat) (s : State) : State :=
  let e : LogEntry :=
    { startCount := startCount s, code := code, slot := slot, warm := s.life.warm, imageId := imageId % 2 ^ 32, device := device }
  { s with
    boot := appendEntry e s.boot
    life := { s.life with unreported := if code = 0 then s.life.unreported else s.life.unreported ++ [e] } }

/-- An entry that names no device. -/
def logStart (code : W16) (slot : Option Nat) (imageId : Nat) (s : State) : State := logEvent code slot imageId none s

/-! ### The hold state (R68, R79) -/

/-- The module enters the hold state; what the dies told stays known. -/
def holdState (s : State) : State :=
  let t := keepIdentity s (resetSteps .hold s.life.keptCause s)
  { t with
    life := { t.life with stage := 0, warm := s.life.warm }
    err := { t.err with injStart := 0 } }

/-- The record as a failure charged to the hardware leaves it (R79). -/
def holdRecord (r : StartRecord) : StartRecord :=
  { r with runningSlot := none, trial := false, pendingSlot := if r.trial then r.runningSlot else r.pendingSlot }

/-- A failure charged to the hardware ends the start (R79); its entry names no slot and IMAGE_ID 0 (log 14). -/
def failHardware (code : W16) (device : Option Nat) (r : StartRecord) (s : State) : State :=
  let s1 := logEvent code none 0 device s
  holdState { s1 with boot := writeRecord (holdRecord r) s1.boot }

/-- The first check that fails, or that INJ_START names (R467). -/
def firstFailure (inj : W16) : List (W16 × Bool) → W16
  | [] => 0
  | (code, fails) :: cs => if fails || inj == code then code else firstFailure inj cs

/-! ### Kerf training (R83) -/

/-- Role of a bundle under an image. -/
def roleUnder (c : Settings) (e b : Nat) : KerfRole := if e < 8 then c.kerfRoles.get .off (e * 32 + b) else .port

/-- Failed lanes that training finds in a bundle. -/
def lanesFound (inp : StartInputs) (e b : Nat) : LanesFound :=
  (inp.lanes.find? fun l => l.edge == e && l.bundle == b).getD { edge := e, bundle := b }

/-- A bundle of a role after training with the lanes that may replace failed ones. -/
def trainLanes (inp : StartInputs) (e b : Nat) (role : KerfRole) (spares : List Nat) : KerfBundle :=
  let l := lanesFound inp e b
  fitBundle spares { role := role, width := .full, dirA := failLanes l.dirA {}, dirB := failLanes l.dirB {} }

/-- HUB bundles 0–3 of a Landing edge and port-die links train before any image is read, with spares of their own (R78). -/
def trainFixed (inp : StartInputs) (e b : Nat) : KerfBundle := trainLanes inp e b (if e < 4 then .hub else .port) [64, 65]

/-- A bundle after training under an image. -/
def trainBundle (c : Settings) (inp : StartInputs) (e b : Nat) : KerfBundle :=
  let off (b : Nat) : Bool := decide (roleUnder c e b = .off)
  match roleUnder c e b with
  | .off => {}
  | .hub => trainFixed inp e b
  | .port => trainFixed inp e b
  | r => trainLanes inp e b r (spareLanes (decide (0 < b) && off (b - 1)) (decide (b < 31) && off (b + 1)))

/-- All bundles after training. -/
def trainAll (c : Settings) (inp : StartInputs) : Table KerfBundle :=
  tableOf {} 320 fun i => if i % 32 < bundlesOf (i / 32) then trainBundle c inp (i / 32) (i % 32) else {}

/-- A bundle that the image gives a role and that training held down. -/
def heldDown (k : KerfBundle) : Bool := decide (k.role ≠ .off) && decide (k.width = .down)

/-- An edge has lost every bundle of a role that KERF_ROLES gives it (R79). -/
def roleGone (t : Table KerfBundle) : Bool :=
  t.cells.any fun x => heldDown x.2 &&
    !(t.cells.any fun y => y.1 / 32 == x.1 / 32 && y.2.role == x.2.role && decide (y.2.width ≠ .down))

/-! ### Stacks and packages (R83, R281) -/

/-- Failed lanes of a lane group of a device. -/
def groupFailures (inp : StartInputs) (d g : Nat) : Nat := (inp.deviceLanes.filter fun x => x.1 == d && x.2 == g).length

/-- The first stack or package with a group that has more failed lanes than its spare. -/
def failedDevice (inp : StartInputs) : Option Nat :=
  (List.range 24).find? fun d => inp.deviceLanes.any fun x => x.1 == d && decide (2 ≤ groupFailures inp d x.2)
def deviceFails (inp : StartInputs) : Bool := (failedDevice inp).isSome

/-- SPARES_USED: data groups repaired with their spare (R283). -/
def deviceSpares (inp : StartInputs) (d : Nat) : Nat :=
  ((List.range (if d < 12 then 64 else 4)).filter fun g => groupFailures inp d g == 1).length

/-! ### Admitted-die sites (R354, R355) -/

/-- The checks of R355 on a die that was found, in their order. -/
def siteCode (e : AdmittedEntry) (f : SiteFound) (x : Site) : W16 :=
  match f.record with
  | none => if siteMismatch e f then 0x6201 else 0x6204
  | some r =>
    let good : Bool := fieldOf r 1 1 == 1 && (fieldOf r 0 1 == 1 || fieldOf r 0 1 == 2) && zeroAt r 7 25
    let claims : Bool := decide (fieldOf r 3 1 ≤ 45) && decide (85 ≤ fieldOf r 4 1 ∧ fieldOf r 4 1 ≤ 115)
    let trained : Bool := mainbandSupported f.modules f.lanes f.rate && decide (x.minRate ≤ f.rate) && decide (x.minModules ≤ if f.lanes = 64 then f.modules else 0) &&
      (x.cls != 1 || engineCapacity x f.modules f.lanes f.rate)
    if siteMismatch e f then 0x6201 else check good 0x6204 (check claims 0x6203 (check trained 0x6202 0))

/-- The die's vendor and device are those of its entry, so that its admission record is read at step 4 of R354. -/
def readsRecord (e : AdmittedEntry) (f : SiteFound) : Bool := e.cls != 0 && f.vendor == e.vendor && f.device == e.device

/-- A site after its admission (R354, R355, R359): CLASS is that of the record where step 4 read one. -/
def admitSite (now : Nat) (e : AdmittedEntry) (f : SiteFound) : Site :=
  if !f.present then (if e.cls = 0 then {} else { state := .refused, code := 0x6201 })
  else
    let r := f.record.getD []
    let x : Site := { vendor := f.vendor, device := f.device, cls := if fieldOf r 0 1 ≤ 2 then fieldOf r 0 1 else 0
                      tempLimit := fieldOf r 4 1, minRate := fieldOf r 5 1, minModules := fieldOf r 6 1, lastReport := now }
    match siteCode e f x with
    | 0 => { x with state := .admitted, claimW := fieldOf r 3 1, modules := f.modules, lanes := f.lanes, rate := f.rate }
    | c => { x with state := .refused, code := c, claimW := if c = 0x6202 then fieldOf r 3 1 else 0, cls := if readsRecord e f then x.cls else 0 }

/-- Both sites under an image. -/
def admitSites (now : Nat) (c : Settings) (inp : StartInputs) : Table Site :=
  tableOf {} 2 fun k => admitSite now (c.admitted.getD k {}) (inp.sites.getD k {})

/-! ### Records of a start (R69, R88, R409, R459) -/

/-- The cause record of a warm reset. -/
def causeRecord (code : W16) (s : State) : ErrRecord :=
  match s.err.escalation with
  | some x => if code = 0x120C then
      { code := code, source := srcModule s, kept := true, detail0 := x.firstTime, detail1 := x.secondTime
        detail2 := BitVec.ofNat 32 (x.secondCode.toNat * 65536 + x.firstCode.toNat) }
    else { code := code, source := srcModule s, kept := true }
  | none => { code := code, source := srcModule s, kept := true }

/-- First physical address that a stack 0–11 or a package 12–23 serves (R260, R261). -/
def deviceBase (d : Nat) : Nat := if d < 12 then groveRange * (d / 3) + ashlarSize * (d % 3) else bulkBase + 2048 * (d - 12)

/-- The record of a start log entry (R449); that of 0x1205 names its device in ADDRESS (R83; log 79). -/
def entryRecord (e : LogEntry) (s : State) : ErrRecord :=
  if 0x1101 ≤ e.code.toNat ∧ e.code.toNat ≤ 0x1117 then
    { code := e.code, source := srcModule s, detail0 := BitVec.ofNat 64 e.startCount, detail1 := BitVec.ofNat 64 (e.slot.getD 0xFF) }
  else { code := e.code, source := srcModule s, address := BitVec.ofNat 64 ((e.device.map deviceBase).getD 0) }

/-- What the always-on domain and the start log kept is recorded, and the always-on domain clears its codes. -/
def reportKept (s : State) : State :=
  let s1 := match s.life.keptCause with
    | some c => report (causeRecord c s) s
    | none => s
  let s2 := match s.power.trip with
    | some x => report { code := 0x8101, source := srcModule s, kept := true, injected := s.power.tripInjected
                         detail0 := BitVec.ofNat 64 (sensorLocator x), detail1 := BitVec.ofNat 64 (sensorState s.power x).temp } s1
    | none => s1
  let es := s.life.unreported.drop (s.life.unreported.length - 256)
  let s3 := es.foldl (fun s e => report (entryRecord e s) s) s2
  { s3 with
    life := { s3.life with keptCause := none }
    power := { s3.power with trip := none, tripInjected := false }
    err := { s3.err with escalation := none } }

/-! ### Core boot (R430) -/

/-- LOAD, ENTRY and the program of a copy of the core boot area, when it is valid. The fields of its header are in range and its
units can be read, else it is not valid (log 51). -/
def bootCopy (s : State) (copy : Nat) : Option (Nat × W64 × List Byte) :=
  let base := flashBase + copy * bootCopySize
  if (if copy = 0 then s.boot.shipped0 else s.boot.shipped1) && !(s.tier.flashWritten.cells.any fun c =>
      decide (base ≤ c.1 * ashlarSize ∧ c.1 * ashlarSize < base + bootCopySize)) then some Config.shippedLoader
  else
    let head := flashBytes s base 64
    let n := fieldOf head 4 4
    let load := fieldOf head 8 8
    if fieldOf head 0 4 = 0x42434B51 ∧ 64 ≤ n ∧ n ≤ 33554368 ∧ load % 4096 = 0 ∧ rangeNearOrBulk load n ∧ !poisonIn s base (64 + n) ∧
        crc32c (flashBytes s (base + 64) n) = fieldOf head 0x18 4 then
      some (load, BitVec.ofNat 64 (fieldOf head 0x10 8), flashBytes s (base + 64) n)
    else none

/-- Harts 0–63 after step 14: hart 0 has run the core ROM, the others wait. -/
def bootHarts (start : Option (W64 × Nat)) : Table Hart :=
  tableOf {} 64 fun h =>
    match start with
    | some (entry, copy) =>
      if h = 0 then { state := .running, pc := entry, a1 := BitVec.ofNat 64 copy } else { state := .wfi, pc := 0x400002800000 }
    | none => { state := .wfi, pc := 0x400002800000 }

/-- The cores leave reset. -/
def bootCores (s : State) : State :=
  let found : Option (Nat × (Nat × W64 × List Byte)) := match bootCopy s 0 with
    | some x => some (0, x)
    | none => (bootCopy s 1).map fun x => (1, x)
  let start := found.map fun x => (x.2.2.1, x.1)
  let s1 := { s with landing := { s.landing with harts := bootHarts start, bootEntry := start, coresSince := some s.now } }
  match found with
  | some (_, load, _, program) => rawWrite load program s1
  | none => reportModule 0x9104 s1

/-! ### Into service (steps 10–16 of R76) -/

/-- The input limit at the start of Boom: the input voltage may stand below 21.6 V (R411, R492). -/
def limitAtStart (s : State) : State := if 0 < s.power.vIn ∧ s.power.vIn < 2160 then limitInput s else s

/-- Boom at step 10: PLLs run, caps as the image and the temperatures give them, what F_MAX has lost, the limit of a low input, and the
pools' first refill (R394, R397, R408, R411, R418, R423). -/
def startBoom (s : State) : State :=
  let p0 := [0, 1, 2, 3].foldl (fun p g => updGrove p g fun x => { x with pll := .running, idleSince := s.now }) (noteTemps s.power)
  let s1 := [0, 1, 2, 3].foldl (fun s g => setCap g s) { s with power := p0 }
  let lost (g : Nat) (p : PowerBlock) : PowerBlock :=
    if 0 < (grovePow p g).fmaxSteps then reasonOn s.fabric.time 9 (groveScope g) (grovePow p g).cap p else p
  let s2 := refreshBudget { s1 with power := lost 3 (lost 2 (lost 1 (lost 0 s1.power))) }
  [0, 1, 2, 3].foldl (fun s g => refill g s) (limitAtStart s2)

/-- A sensor at its trip threshold as Boom starts (R409). -/
def trippingSensor (p : PowerBlock) : Option Sensor :=
  (p.sensors.find? fun e => (tripAt e.sensor).any fun k => decide (k ≤ e.counts)).map (·.sensor)

/-- Bundles and sites as training left them, with their records (R83, R355). -/
def startKerf (c : Settings) (inp : StartInputs) (s : State) : State :=
  let t := trainAll c inp
  let sites := admitSites s.now c inp
  let s1 := { s with kerf := { bundles := t, sites := sites } }
  let s2 := (t.cells.filter fun x => heldDown x.2).foldl (fun s x => report (kerfRecord 0x6103 (x.1 / 32) (x.1 % 32) false 0 false s) s) s1
  sites.cells.foldl (fun s x => if x.2.state = .refused then reportModule x.2.code s else s) s2

/-- The benches that fail the self-test (R85); an event a grove. -/
def startBenches (inp : StartInputs) (s : State) : State :=
  let tested (n : Nat) : Bool := decide ((roleOf s n).state = .active) || decide ((roleOf s n).state = .standby)
  [0, 1, 2, 3].foldl (fun s g => quarantineAll g ((grovesBenches g).filter fun n => inp.badBenches.contains n && tested n) 0x1208 s) s

/-- Genpex ports at step 15: the enabled ones train, but those of a refused optical site are marked down (R76, R355, R362). -/
def startPorts (c : Settings) (s : State) : State :=
  let refused (p : Nat) : Bool := match siteOfPort s p with
    | some k => decide ((siteOf s k).state = .refused)
    | none => false
  let state (p : Nat) : PortState := if !bitOf c.portEnable p then .disabled else if refused p then .markedDown else .training
  let s1 := { s with
    fabric := { s.fabric with ports := tableOf {} 72 (fun p => { state := state p }), timeRole := c.timeRole, active := c.slotTable }
    life := { s.life with portsSince := s.now } }
  fitPorts 9 (fitPorts 8 s1)

/-- The root ports at step 14: the reference clock runs, PERST is released and the link partner, if any, trains (R83, R433, R499). -/
def startPcie (inp : StartInputs) (s : State) : State :=
  let port (k : Nat) : PciePort := match inp.pcie.getD k none with
    | some (w, r) => { perst := .deasserted, refclk := true, width := w, rate := r }
    | none => { perst := .deasserted, refclk := true }
  { s with landing := { s.landing with pcie := tableOf {} 2 port } }

/-- What stacks and packages report of their training (R281, R283). -/
def startDevices (inp : StartInputs) (s : State) : State :=
  { s with tier := { s.tier with
      stackStatus := tableOf {} 12 fun d => { sparesUsed := deviceSpares inp d }
      packageStatus := tableOf {} 12 fun d => { sparesUsed := deviceSpares inp (12 + d) } } }

/-- The temperatures that the sensors last reported act as Boom starts (R407, R410). -/
def startTemps (s : State) : State := s.power.sensors.foldl (fun s e => tempResponse e.sensor false s) s

/-- Steps 10–15 of a start whose checks all pass. -/
def enterService (c : Settings) (inp : StartInputs) (s : State) : State :=
  settleStart (startPorts c (startPcie inp (bootCores (startBenches inp (startDevices inp (startTemps (startKerf c inp (reportKept s))))))))

/-- The failures of steps 10–13 that are charged to the hardware (R79). -/
def trainFailure (c : Settings) (inp : StartInputs) (inj : W16) : W16 :=
  firstFailure inj [(0x1206, roleGone (trainAll c inp)), (0x1205, deviceFails inp), (0x1207, !inp.badGroves.isEmpty)]

/-- A start from step 10 on. -/
def bringUp (inp : StartInputs) (s : State) : State :=
  match s.cfg with
  | none => s
  | some c =>
    let inj := s.err.injStart
    let s1 := startBoom { s with
      life := { s.life with stage := 0x0C, waiting := none }
      err := { s.err with injStart := 0 } }
    match trippingSensor s1.power with
    | some x => tripModule x false s1
    | none => match trainFailure c inp inj with
      | 0 => enterService c inp s1
      | code => failHardware code (if code = 0x1205 then failedDevice inp else none) ((newestRecord s1.boot).getD {}) s1

/-! ### The image in force (step 9) -/

/-- The fuse steps of R73: slots revoked, the minimum security version raised. -/
def burnFuses (c : Settings) (b : BootBlock) : BootBlock :=
  { b with
    revoked := b.revoked ++ (List.range 4).filter fun k => bitOf c.revokeMask k && !b.revoked.contains k
    minVersion := if c.advanceMinimum then max b.minVersion c.securityVersion else b.minVersion }

/-- Roles at start (R37, R53). -/
def startRoles (c : Settings) : Table RoleEntry :=
  tableOf {} 512 fun n =>
    let e := c.benches.get {} n
    { state := e.state, role := e.role, partition := e.partition, startRole := e.role }

/-- The settings are applied and pending fuse steps completed; the start goes on, or waits for the brake (R66, R73, R86). -/
def runImage (inp : StartInputs) (c : Settings) (s : State) : State :=
  let confirmed := !((newestRecord s.boot).map (·.trial)).getD false
  let s1 := { s with cfg := some c, roles := startRoles c, boot := if confirmed then burnFuses c s.boot else s.boot }
  if s.life.brakePinLow then { s1 with life := { s1.life with stage := 0x0E, waiting := some inp } } else bringUp inp s1

/-! ### The choice of the image (R67) -/

/-- A slot marked failed with its code. -/
def failSlot (k : Nat) (code : W16) (r : StartRecord) : StartRecord :=
  let r1 := markSlot k .failed r
  if k = 0 then { r1 with fail0 := code } else { r1 with fail1 := code }

/-- The code of a validation in which INJ_START makes a check fail (R467): the first check that fails decides (R65). -/
def injectedCheck (inj code : W16) : W16 :=
  if 0x1103 ≤ inj.toNat ∧ inj.toNat ≤ 0x110B ∧ (code = 0 ∨ inj.toNat < code.toNat) then inj else code

/-- The slots tried in order; the injected check is the first slot's. The settings of the one that passes. -/
def tryImages (inp : StartInputs) : List Nat → W16 → StartRecord → State → Option Settings × State
  | [], _, r, s => (none, logStart 0x1116 none 0 { s with boot := writeRecord { r with runningSlot := none, pendingSlot := none } s.boot })
  | k :: ks, inj, r, s =>
    let v := validateSlot s.boot s.part s.life.common inp.sites k
    let code := injectedCheck inj v.code
    let s1 := logStart code (some k) v.imageId s
    if code = 0 then
      let r1 := if r.pendingSlot = some k then { r with trial := true } else { r with activeSlot := k }
      (some v.settings, { s1 with boot := writeRecord { r1 with runningSlot := some k, pendingSlot := none } s1.boot })
    else tryImages inp ks 0 (failSlot k code r) s1

/-- The order in which slots are tried. -/
def slotOrder (rebuilt : Bool) (r : StartRecord) : List Nat :=
  if rebuilt then [0, 1]
  else match r.pendingSlot with
    | some p => if p = r.activeSlot then [p] else [p, r.activeSlot]
    | none => [r.activeSlot]

/-- The image is chosen and run, or the hold state entered. -/
def chooseImage (inp : StartInputs) (rebuilt : Bool) (r : StartRecord) (s : State) : State :=
  match tryImages inp (slotOrder rebuilt r) s.err.injStart r s with
  | (some c, t) => runImage inp c t
  | (none, t) => holdState t

/-! ### Discovery (R78–R80) -/

/-- A stepping byte of a die, as it reports it: groves 0–3, port dies 4 and 5, the Landing die 6 (R487). -/
def steppingOf (p : Part) (inp : StartInputs) (d : Nat) : Nat :=
  match inp.steppings.find? fun x => x.1 == d with
  | some x => x.2
  | none => if d = 4 ∨ d = 5 then p.portSteppings.getD (d - 4) 0 else if d < 4 ∧ p.groveB1.getD d false then 0xB1 else 0xB0

/-- A die does not answer, or one of its HUB bundles or port-die links cannot run. -/
def dieFails (inp : StartInputs) : Bool :=
  (inp.silentDies.any fun d => decide (d < 6)) ||
  ((List.range 4).any fun e => (List.range 4).any fun b => decide ((trainFixed inp e b).width = .down)) ||
  [8, 9].any fun e => (List.range 16).any fun b => decide ((trainFixed inp e b).width = .down)

/-- The Landing base letter is older than a grove's (R4). -/
def landingOlder (p : Part) (inp : StartInputs) : Bool :=
  (List.range 4).any fun g => decide (steppingOf p inp 6 / 16 < steppingOf p inp g / 16)

/-- A die reports a stepping outside those of R80. -/
def steppingUnknown (p : Part) (inp : StartInputs) : Bool :=
  steppingOf p inp 6 != 0xB0 || (List.range 4).any fun g => steppingOf p inp g != 0xB0 && steppingOf p inp g != 0xB1

/-- The checks of steps 4 and 5 (R79). -/
def discoveryFailure (p : Part) (inp : StartInputs) (inj : W16) : W16 :=
  firstFailure inj [(0x1204, !inp.enclavePasses), (0x1201, dieFails inp), (0x1202, landingOlder p inp), (0x1203, steppingUnknown p inp)]

/-- The feature words of the groves, as their dies report them (R80). -/
def featureWords (p : Part) (inp : StartInputs) : List Nat := (List.range 4).map fun g => featureWord (steppingOf p inp g)

/-- The dies identified: their steppings, feature words and the common feature level (R80, R486). -/
def identify (p : Part) (inp : StartInputs) (s : State) : State :=
  { s with life := { s.life with
      steppings := (List.range 7).map (steppingOf p inp), features := featureWords p inp, common := commonLevel (featureWords p inp)
      identified := true } }

/-- Discovery: the dies are identified and the common feature level formed, or the start fails. -/
def discover (inp : StartInputs) (rebuilt : Bool) (r : StartRecord) (s : State) : State :=
  let code := discoveryFailure s.part inp s.err.injStart
  let known := identify s.part inp s
  match code with
  | 0 => chooseImage inp rebuilt r known
  | 0x1204 => failHardware code none r s
  | 0x1201 => failHardware code none r s
  | _ => failHardware code none r known

/-! ### A start -/

/-- The start record in use, or as R46 rebuilds it from the log, with ACTIVE_SLOT and both FAIL_CODEs 0 (log 78). -/
def openRecord (b : BootBlock) : Option (StartRecord × Bool) :=
  match newestRecord b, b.log with
  | some r, _ => some (r, false)
  | none, [] => none
  | none, e :: es => some ({ startCount := es.foldl (fun m x => max m x.startCount) e.startCount, state0 := .written, state1 := .written }, true)

/-- An unconfirmed image of the start before is reverted (R67). -/
def revertTrial (r : StartRecord) (s : State) : StartRecord × State :=
  if r.trial then
    let k := r.runningSlot.getD r.activeSlot
    ({ markSlot k .failed r with trial := false }, logStart 0x1117 (some k) (checkSlot s.boot s.part k).imageId s)
  else (r, s)

/-- Step 3 on. A boot flash that does not answer, and INJ_START's 0x1101, leave no start log entry and no record (R45, R467; log 14). Else the start record is opened, START_COUNT incremented and written (R47), and the start goes on. -/
def startFrom (inp : StartInputs) (s : State) : State :=
  let inj := s.err.injStart
  if !inp.flashAnswers || inj == 0x1101 then holdState s
  else match (if inj = 0x1102 then none else openRecord s.boot) with
    | none => holdState (logStart 0x1102 none 0 s)
    | some (r, rebuilt) =>
      let r1 := { r with startCount := r.startCount + 1 }
      let x := revertTrial r1 { s with boot := writeRecord r1 s.boot }
      discover inp rebuilt x.1 x.2

/-- The module as a start finds it: nothing outside the always-on domain, the boot flash and the flash tier; straps sampled (R498),
FABRIC_TIME counting from 0 (R369). -/
def blankModule (warm : Bool) (inp : StartInputs) (s : State) : State :=
  let t := resetSteps .starting s.life.keptCause s
  { t with
    life := { t.life with stage := 0x01, warm := warm, smbus := 0x68 + inp.straps % 8, sites := inp.sites }
    fabric := { t.fabric with counting := true } }

/-- What a site of a part shows: -E has none fitted, the engines of -P report the identity of R508, and a customer die of -C is no
optical engine (R5; log 77). -/
def fitSite (p : Part) (f : SiteFound) : SiteFound :=
  match p.orderCode with
  | 0 => {}
  | 1 => { f with vendor := p.vendor, device := 0x0E01, record := f.record.map fun r => (1 : Byte) :: r.drop 1 }
  | _ => { f with record := f.record.filter fun r => fieldOf r 0 1 != 1 }

/-- What a part shows a start: its sites as the order code fits them (R5). -/
def fitInputs (p : Part) (inp : StartInputs) : StartInputs := { inp with sites := inp.sites.map (fitSite p) }

/-- A start of the module from step 1 of a cold start, or from step 3 of a warm one (R76, R89). -/
def startModule (warm : Bool) (inp : StartInputs) (s : State) : State := startFrom (fitInputs s.part inp) (blankModule warm (fitInputs s.part inp) s)

/-- A warm start: steps 3–16 (R89). -/
def warmStart (inp : StartInputs) (s : State) : State := startModule true inp s

/-- The always-on domain as a cold start finds it: no kept code, no energy, no sensor read (R88, R409, R423, R467, R474). -/
def freshAlwaysOn (s : State) : State :=
  { s with
    life := { s.life with keptCause := none, inputMv := 21600, alwaysOn := true, resetPinHigh := some s.now }
    power := { powerAfterReset s.power with vIn := 2160, energy := 0, trip := none, tripInjected := false, thermAsserted := false, sensors := [] }
    err := {} }

/-- MODULE_RESET_N is low. -/
def resetPinLow (s : State) : State := { s with life := { s.life with resetPinHigh := none } }

/-- A cold start (R76). From its step 2 the pins act: a low PWRBRK_N holds it at 0x0E, and a low MODULE_RESET_N makes it a module warm reset
(R89, R499, R500). -/
def coldStart (inp : StartInputs) (s : State) : State :=
  let s1 := freshAlwaysOn s
  let s2 := { s1 with life := { s1.life with brakePinLow := inp.brakeLow } }
  if inp.resetLow then resetPinLow (beginWarmReset 0x120A s2) else startModule false inp s2

/-- COLD_START: the input of a module without power rises through 21.6 V. -/
def execColdStart (inp : StartInputs) (s : State) : Answer := .next (if s.life.power = .off then coldStart inp s else s)

/-! ### Warm reset, brown-out, loss of power -/

/-- MODULE_RESET_N_RECOGNISED: a warm reset already under way keeps its cause; in a brown-out wait the pin is noted (R89, R93, R500). -/
def moduleResetN (s : State) : State :=
  match s.life.power with
  | .off => s
  | .warmReset | .brownOut => resetPinLow s
  | .starting | .running | .hold | .trip => resetPinLow (beginWarmReset 0x120A s)

def execModuleResetNRecognised (s : State) : Answer := .next (moduleResetN s)

/-- WARM_RESET_RESUME: the pin has been high for 1 ms and 5 ms have passed (R89). -/
def execWarmResetResume (inp : StartInputs) (s : State) : Answer :=
  let s1 := { s with life := { s.life with resetPinHigh := some s.now } }
  .next (match s.life.power with
    | .warmReset => warmStart inp s1
    | .brownOut => s1
    | .off | .starting | .running | .hold | .trip => s)

/-- Loss of the always-on domain (R90, R492, R500): fuses, boot flash and flash tier stay, PERST_N is undriven; a staging session ends at the next start (R72). -/
def losePower (s : State) : State :=
  let t := resetSteps .off none s
  { t with
    boot := s.boot
    life := { t.life with stage := 0, alwaysOn := false, inputMv := 0, brakePinLow := false, resetPinHigh := some s.now }
    landing := { pcie := unpoweredPcie }
    power := { t.power with vIn := 0, energy := 0, trip := none, tripInjected := false, thermAsserted := false, sensors := [] }
    err := {} }

/-- INPUT_BROWN_OUT (R90, R492): below 12.0 V the always-on domain is lost; below 19.5 V the module takes steps 1–5 and waits. The hold
and trip states, which stand after those steps, stay: only a cold start, MODULE_RESET_N or the command ends them (R68, R409; log 57). -/
def execInputBrownOut (mv : Nat) (s : State) : Answer :=
  if 26400 < mv then .fault .notCharacterised
  else .next (if s.life.power = .off then s
    else if mv < 12000 then losePower s
    else if mv < 19500 ∧ s.life.power ≠ .trip ∧ s.life.power ≠ .hold then withInput mv (resetSteps .brownOut s.life.keptCause s)
    else withInput mv s)

/-- BROWN_OUT_RESTART: the input has stayed above 21.6 V for 10 ms: a warm reset with cause 0x120D, once the reset pin allows it, or a
cold start when the always-on domain was lost (R90, R500). -/
def execBrownOutRestart (inp : StartInputs) (s : State) : Answer :=
  .next (match s.life.power with
    | .off => coldStart inp s
    | .brownOut =>
      let s1 := beginWarmReset 0x120D (withInput 21600 s)
      if s.life.resetPinHigh.isNone then s1 else warmStart inp s1
    | .starting | .running | .hold | .warmReset | .trip => s)

/-- POWER_LOSS: the input falls below 12.0 V. -/
def execPowerLoss (s : State) : Answer := .next (losePower s)

/-! ### The power brake -/

/-- POWER_BRAKE_RELEASE: PWRBRK_N has been high for 50 µs; a start that waits goes on, and no comparison is made for 200 µs (R86, R404,
R413). -/
def execPowerBrakeRelease (s : State) : Answer :=
  let s1 := { s with life := { s.life with brakePinLow := false } }
  .next (match s.life.power, s.life.waiting with
    | .starting, some inp => bringUp inp { s1 with power := { s1.power with compareFrom := s.now + 200000 } }
    | _, _ => if boomRuns s then releaseBrake s1 else s1)

end Sys2Proof.Machine
end

