-- ==== Sys2Proof/Machine/Manage.lean ====
section
/-!
DEFINITION. Machine/Manage.lean: the vendor commands of the management port and the mailbox (R437–R441, R455, R464), the staging commands
(R70–R73) and MCTP control (R439). Where a row names its command, its tag is 0; a queued message brings its own (log 52).
-/

namespace Sys2Proof.Machine

/-! ### Commands that answer at once -/

/-- A refusal, and success with data. -/
def refusal (code : Nat) (s : State) : VendorResult × State := ({ status := code }, s)
def success (data : List Byte) (s : State) : VendorResult × State := ({ data := data }, s)

/-- GET_IDENTITY: the identity registers (R486). -/
def vendorIdentity (s : State) : VendorResult × State := success ((identityRegs s).flatMap (bytesOfNat 8)) s

/-- Hold or trip state, as GET_STATUS tells it (log 53). -/
def standCode : PowerState → Nat
  | .off => 0 | .starting => 1 | .running => 2 | .hold => 3 | .trip => 4 | .warmReset => 5 | .brownOut => 6

/-- GET_STATUS: start stage, state, kept codes, MGMT_LOAD, FABRIC_TIME (R440; order and widths are log 53's). -/
def vendorStatus (s : State) : VendorResult × State :=
  success (bytesOfNat 1 s.life.stage ++ bytesOfNat 1 (standCode s.life.power) ++ bytesOfNat 2 ((s.life.keptCause.map (·.toNat)).getD 0) ++
    bytesOfNat 2 (if s.power.trip.isSome then 0x8101 else 0) ++ bytesOfNat 8 (mgmtLoad s) ++ bytesOfNat 8 s.fabric.time) s

/-- The site and the offset in its window where an offset of the control space lies in a window that forwards to its die (R357). -/
def forwardedWindow (s : State) (off : Nat) : Option (Nat × Nat) := (siteWindowOf off).filter fun x => windowForwards s x.1

/-- The register at an offset of the control space as READ_REGISTER reads it; a site window that does not forward reads zero (R357). -/
def vendorValue (off : Nat) (s : State) : W64 × State := if (siteWindowOf off).isSome then (0, s) else regRead off s

/-- READ_REGISTER at an offset of the control space; one that a site window forwards is answered when its die answers, or at 100 µs (R357). -/
def vendorReadAt (src : MgmtSource) (tag off : Nat) (s : State) : State :=
  match forwardedWindow s off with
  | some (k, o) => forwardAccess k (.mgmt (decide (src = .mailbox)) tag) o false (updMgmt (fun m => { m with writing := true }) s)
  | none => vendorAnswer src 0x03 tag (success (bytesOfNat 8 (vendorValue off s).1.toNat) (vendorValue off s).2)

/-- READ_REGISTER (R440). -/
def vendorRead (src : MgmtSource) (tag addr : Nat) (s : State) : State :=
  if !registerAddress addr then vendorAnswer src 0x03 tag (refusal 0x9106 s) else vendorReadAt src tag (addr - controlBase) s

/-- WRITE_REGISTER at an offset of the control space, and whether it is acknowledged at once (R357, R440). -/
def vendorWriteAt (w : RegWriter) (off : Nat) (v : W64) (s : State) : Bool × State :=
  match forwardedWindow s off with
  | some (k, o) => (false, forwardAccess k w o true s)
  | none => regWrite w off v s

/-- WRITE_REGISTER: as by an S-mode hart (R440); one that is not acknowledged yet is answered when it is (R300, R331, R357). -/
def vendorWrite (src : MgmtSource) (tag addr : Nat) (v : W64) (s : State) : State :=
  if !registerAddress addr then vendorAnswer src 0x04 tag (refusal 0x9106 s)
  else
    let r := vendorWriteAt (.mgmt (decide (src = .mailbox)) tag) (addr - controlBase) v s
    if r.1 then vendorAnswer src 0x04 tag (success [] r.2) else updMgmt (fun m => { m with writing := true }) r.2

/-- READ_ERROR_RECORDS: the oldest unread records (R455). -/
def vendorRecords (n : Nat) (s : State) : VendorResult × State :=
  if n = 0 ∨ 16 < n then refusal 0x9105 s
  else success (((unreadNumbers s.err).take n).flatMap fun i => recordBytes (recordAt s.err i)) s

/-- INJECT (R464): `slot` from 16 on names no slot, and the lowest one that is not armed is taken (log 54). -/
def vendorInject (src : MgmtSource) (slot : Nat) (ctl locator : W64) (s : State) : VendorResult × State :=
  if !mayInject s (decide (src = .mailbox)) then refusal 0x9310 s
  else
    let free := (List.range 16).find? fun k => decide ((slotOf s k).state ≠ .armed)
    match if slot < 16 then some slot else free with
    | none => refusal 0x9313 s
    | some k =>
      let t := armSlot k (injLocatorWrite k locator (injPointWrite k ctl s))
      refusal (slotOf t k).result.toNat t

/-! ### RETRAIN -/

/-- A port trains again; one that is disabled or marked down stays as it is (R349, R366). -/
def retrainPort (p : Nat) (s : State) : State :=
  match (portOf s p).state with
  | .disabled | .markedDown => s
  | .training | .keyWait | .up | .down =>
    followPorts s (updPort p (fun q => { q with state := .training, wasUp := q.wasUp || decide (q.state = .up) }) (notePort s))

/-- RETRAIN is a long operation of 2.2 s, which returns the state of the port (R440). -/
def beginRetrainPort (src : MgmtSource) (tag kind p : Nat) (s : State) : State :=
  if (kind = 0 ∧ p < 72) ∨ (kind = 1 ∧ p < 2) then
    updMgmt (fun m => { m with long := some ⟨.retrain kind p, src, bytesOfNat 1 tag, s.now, 2200000⟩ }) (if kind = 0 then retrainPort p s else s)
  else vendorAnswer src 0x11 tag (refusal 0x9105 s)

/-- STATE codes of a port (R390). -/
def portCode : PortState → Nat
  | .disabled => 0 | .training => 1 | .keyWait => 2 | .up => 3 | .down => 4 | .markedDown => 5

/-- The end of a RETRAIN: a Genpex port that has not trained within its time is DOWN (R366); a root port whose link has trained again reports
the change of its link (R432; log 19). -/
def endRetrain (kind p : Nat) (s : State) : State :=
  if kind = 1 then (if (pcieOf s p).width = 0 then s else updPcie p (fun q => { q with reports := true }) s)
  else if (portOf s p).state = .training then
    updPort p (fun q => { q with state := .down, downSince := s.now, attempts := 0, downs := min (q.downs + 1) 65535 }) (notePort s)
  else s

/-- What RETRAIN returns: STATE of a Genpex port, WIDTH and RATE of a root port (log 53). -/
def retrainData (kind p : Nat) (s : State) : List Byte :=
  if kind = 0 then bytesOfNat 1 (portCode (portOf s p).state) else bytesOfNat 1 (pcieOf s p).width ++ bytesOfNat 1 (pcieOf s p).rate

/-! ### Staging (R70–R73) -/

/-- The start record in use. -/
def recordOf (s : State) : StartRecord := (newestRecord s.boot).getD {}

/-- The record written with a change; where no copy is valid, a new record is begun, with START_COUNT 0 (log 78). -/
def rewrite (f : StartRecord → StartRecord) (b : BootBlock) : BootBlock := writeRecord (f ((newestRecord b).getD {})) b

/-- RUNNING_SLOT; none in the hold state (R71). -/
def runningSlot (s : State) : Option Nat := if s.life.power = .hold then none else (recordOf s).runningSlot

/-- A slot's contents replaced. -/
def setContents (k : Nat) (c : SlotContents) (b : BootBlock) : BootBlock := if k = 0 then { b with slot0 := c } else { b with slot1 := c }

/-- SLOT_STATE of a slot. -/
def slotState (k : Nat) (r : StartRecord) : SlotState := if k = 0 then r.state0 else r.state1

/-- PENDING_SLOT cleared where it names a slot. -/
def clearPendingSlot (k : Nat) (r : StartRecord) : StartRecord := { r with pendingSlot := if r.pendingSlot = some k then none else r.pendingSlot }

/-- STAGE_OPEN (R70, R71): while an image is on trial, no slot can be opened. -/
def stageOpen (k : Nat) (s : State) : VendorResult × State :=
  if 2 ≤ k then refusal 0x9105 s
  else if runningSlot s = some k ∨ (recordOf s).trial then refusal 0x111A s
  else success [] { s with boot :=
    { rewrite (fun r => clearPendingSlot k (markSlot k .empty r)) (setContents k .erased s.boot) with session := some { slot := k }, sessionEnded := false } }

/-- A command of a session that a reset has ended is answered 0x111B, once (R72). -/
def inStage (f : State → VendorResult × State) (s : State) : VendorResult × State :=
  if s.boot.sessionEnded then refusal 0x111B { s with boot := { s.boot with sessionEnded := false } } else f s

/-- Bytes that staging has programmed into a slot. -/
def stagedBytes (b : BootBlock) (k : Nat) : Table Byte :=
  match slotContents b k with
  | .staged t => t
  | .erased | .factory => {}

/-- Bytes programmed; a write at offset 0 over bytes already programmed replaces them (log 78). -/
def programBytes (t : Table Byte) : Nat → List Byte → Table Byte
  | _, [] => t
  | a, b :: bs => programBytes (t.set 0xFF a b) (a + 1) bs

/-- STAGE_WRITE (R70, R71). -/
def stageWrite (offset : Nat) (data : List Byte) (s : State) : VendorResult × State :=
  if data.isEmpty ∨ 64 < data.length then refusal 0x9105 s
  else inStage (fun s => match s.boot.session with
    | none => refusal 0x1118 s
    | some x =>
      if (offset ≠ 0 ∧ offset ≠ x.next) ∨ 32505856 < offset + data.length then refusal 0x1118 s
      else success [] { s with boot :=
        { rewrite (markSlot x.slot .written) (setContents x.slot (.staged (programBytes (stagedBytes s.boot x.slot) offset data)) s.boot) with
          session := some { x with next := offset + data.length, wrote := true } } }) s

/-- STAGE_VERIFY: phases B–E against the present hardware; the code is the answer's STATUS (R70, R71; log 53). A slot marked failed keeps
the code in its FAIL_CODE (log 78). -/
def stageVerify (s : State) : VendorResult × State :=
  inStage (fun s => match s.boot.session with
    | none => refusal 0x1119 s
    | some x =>
      if !x.wrote then refusal 0x1119 s
      else
        let v := validateSlot s.boot s.part s.life.common s.life.sites x.slot
        let mark (r : StartRecord) : StartRecord := if v.code = 0 then markSlot x.slot .verified r else failSlot x.slot v.code r
        ({ status := v.code.toNat }, { s with boot := rewrite mark s.boot })) s

/-- STAGE_SELECT's conditions (R71); its effect comes as it ends. -/
def stageSelect (s : State) : VendorResult × State :=
  inStage (fun s => match s.boot.session with
    | none => refusal 0x1119 s
    | some x => if slotState x.slot (recordOf s) = .verified then success [] s else refusal 0x1119 s) s

/-- STAGE_SELECT takes effect (R70). -/
def selectSlot (s : State) : State :=
  match s.boot.session with
  | some x => { s with boot := { rewrite (fun r => { r with pendingSlot := some x.slot }) s.boot with session := none } }
  | none => s

/-- STAGE_ABORT (R70). -/
def stageAbort (s : State) : VendorResult × State :=
  let clear (r : StartRecord) : StartRecord := match s.boot.session with
    | some x => { markSlot x.slot .empty r with pendingSlot := none }
    | none => { r with pendingSlot := none }
  success [] { s with boot := { rewrite clear s.boot with session := none, sessionEnded := false } }

/-- IMAGE_CONFIRM is taken in, but not as the next command of a session that a reset ended (R70, R72). -/
def imageConfirm (s : State) : VendorResult × State := inStage (success []) s

/-- The settings of the image on trial: those in force, or, where the trip state holds none, as its slot gives them (R73, R409). -/
def trialSettings (s : State) : Settings :=
  s.cfg.getD (checkSlot s.boot s.part ((recordOf s).runningSlot.getD 0)).settings

/-- IMAGE_CONFIRM takes effect: the record is written, then the fuses are burned (R73). -/
def confirmImage (s : State) : State :=
  let r := recordOf s
  if !r.trial then s
  else
    let b := rewrite (fun r => { r with activeSlot := r.runningSlot.getD r.activeSlot, trial := false }) s.boot
    { s with boot := burnFuses (trialSettings s) b }

/-- SLOT_STATE codes (R43). -/
def slotCode : SlotState → Nat
  | .empty => 0 | .written => 1 | .verified => 2 | .failed => 3

/-- The 64 bytes of a start record (R43). -/
def startRecordBytes (r : StartRecord) : List Byte :=
  let body := bytesOfNat 4 0x53524B51 ++ bytesOfNat 4 r.sequence ++ bytesOfNat 8 r.startCount ++ bytesOfNat 1 r.activeSlot ++
    bytesOfNat 1 (r.runningSlot.getD 0xFF) ++ bytesOfNat 1 (r.pendingSlot.getD 0xFF) ++ bytesOfNat 1 (bitNat r.trial) ++
    bytesOfNat 1 (slotCode r.state0) ++ bytesOfNat 1 (slotCode r.state1) ++ bytesOfNat 2 0 ++ bytesOfNat 2 r.fail0.toNat ++
    bytesOfNat 2 r.fail1.toNat ++ bytesOfNat 32 0
  body ++ bytesOfNat 4 (crc32c body)

/-- The 16 bytes of a start log entry (R45). -/
def logEntryBytes (e : LogEntry) : List Byte :=
  bytesOfNat 8 e.startCount ++ bytesOfNat 2 e.code.toNat ++ bytesOfNat 1 (e.slot.getD 0xFF) ++ bytesOfNat 1 (bitNat e.warm) ++ bytesOfNat 4 e.imageId

/-- START_RECORD_READ (R70): the record's 64 bytes, none where no copy is valid, then the entries, oldest first (log 53). -/
def startRecordRead (n : Nat) (s : State) : VendorResult × State :=
  if 16 < n then refusal 0x9105 s
  else success ((match newestRecord s.boot with
      | some r => startRecordBytes r
      | none => []) ++ (s.boot.log.drop (s.boot.log.length - n)).flatMap logEntryBytes) s

/-! ### Long operations (R441) -/

/-- A long operation begins; its answer waits for its end. -/
def beginVendorLong (kind : LongKind) (src : MgmtSource) (cmd tag bound : Nat) (r : VendorResult × State) : State :=
  updMgmt (fun m => { m with
    long := some ⟨kind, src, vendorResponse r.2 cmd tag r.1.status 0 r.1.data, r.2.now, bound⟩ }) r.2

/-- A staging command that is a long operation when it is accepted; a refused one answers at once (R70, R71). -/
def stageLong (kind : LongKind) (src : MgmtSource) (cmd tag bound : Nat) (r : VendorResult × State) : State :=
  if r.1.status = 0 then beginVendorLong kind src cmd tag bound r else vendorAnswer src cmd tag r

/-- STAGE_VERIFY is a long operation whatever phases B–E give (R70). -/
def verifyLong (src : MgmtSource) (tag : Nat) (r : VendorResult × State) : State :=
  if r.1.status = 0x1119 ∨ r.1.status = 0x111B then vendorAnswer src 0x22 tag r
  else beginVendorLong (.vendor 0x22) src 0x22 tag 1500000 r

/-- What a long operation does as it ends. -/
def endLong (k : LongKind) (s : State) : State :=
  match k with
  | .vendor _ | .spdm | .enclave => s
  | .select => selectSlot s
  | .confirm => confirmImage s
  | .retrain kind p => endRetrain kind p s

/-- The response of a long operation: RETRAIN's is formed as it ends. -/
def longResponse (l : LongOp) (s : State) : List Byte :=
  match l.kind with
  | .retrain kind p => vendorResponse s 0x11 (natOfBytes l.response) 0 0 (retrainData kind p s)
  | .vendor _ | .select | .confirm | .spdm | .enclave => l.response

/-- MGMT_LONG_OP_DONE (R441). -/
def execMgmtLongOpDone (s : State) : Answer :=
  match s.mgmt.long with
  | none => .next s
  | some l =>
    let t := endLong l.kind (updMgmt (fun m => { m with long := none }) s)
    .next (mgmtSend l.source (longResponse l t) t)

/-! ### The rows -/

/-- A vendor message of a row: its command and arguments, with tag 0. -/
def rowMessage (s : State) (cmd : Nat) (args : List Byte) : List Byte := vendorHead s cmd 0 ++ args

/-- A command that answers at once. -/
def quick (src : MgmtSource) (cmd : Nat) (args : List Byte) (f : State → VendorResult × State) (s : State) : State :=
  vendorGated src (rowMessage s cmd args) (fun s => vendorAnswer src cmd 0 (f s)) s

def execGetIdentity (src : MgmtSource) (s : State) : Answer := .next (quick src 0x01 [] vendorIdentity s)
def execGetStatus (src : MgmtSource) (s : State) : Answer := .next (quick src 0x02 [] vendorStatus s)
def execReadRegister (src : MgmtSource) (addr : Nat) (s : State) : Answer :=
  .next (vendorGated src (rowMessage s 0x03 (bytesOfNat 8 addr)) (vendorRead src 0 addr) s)
def execWriteRegister (src : MgmtSource) (addr : Nat) (v : W64) (s : State) : Answer :=
  .next (vendorGated src (rowMessage s 0x04 (bytesOfNat 8 addr ++ bytesOfNat 8 v.toNat)) (vendorWrite src 0 addr v) s)
def execReadErrorRecords (src : MgmtSource) (n : Nat) (s : State) : Answer := .next (quick src 0x05 (bytesOfNat 1 n) (vendorRecords n) s)
def execModuleReset (src : MgmtSource) (s : State) : Answer :=
  .next (if src = .mailbox ∧ (s.mgmt.rspReady ∨ s.mgmt.posted) then s else moduleReset src 0 s)
def execRetrain (src : MgmtSource) (kind port : Nat) (s : State) : Answer :=
  .next (vendorGated src (rowMessage s 0x11 (bytesOfNat 1 kind ++ bytesOfNat 1 port)) (beginRetrainPort src 0 kind port) s)
/-- The arguments of an INJECT message (log 54). -/
def injectArgs (slot : Nat) (ctl locator : W64) : List Byte :=
  bytesOfNat 1 (min slot 0xFF) ++ bytesOfNat 2 (ctl.toNat % 2 ^ 16) ++ bytesOfNat 2 (ctl.toNat / 2 ^ 32 % 2 ^ 16) ++ bytesOfNat 8 locator.toNat
def execInject (src : MgmtSource) (slot : Nat) (ctl locator : W64) (s : State) : Answer :=
  .next (quick src 0x30 (injectArgs slot ctl locator) (vendorInject src slot ctl locator) s)

def execStageOpen (src : MgmtSource) (slot : Nat) (s : State) : Answer :=
  .next (vendorGated src (rowMessage s 0x20 (bytesOfNat 1 slot)) (fun s => stageLong (.vendor 0x20) src 0x20 0 45000000 (stageOpen slot s)) s)
def execStageWrite (src : MgmtSource) (offset : Nat) (data : List Byte) (s : State) : Answer :=
  .next (vendorGated src (rowMessage s 0x21 (bytesOfNat 4 offset ++ data))
    (fun s => stageLong (.vendor 0x21) src 0x21 0 2000 (stageWrite offset data s)) s)
def execStageVerify (src : MgmtSource) (s : State) : Answer :=
  .next (vendorGated src (rowMessage s 0x22 []) (fun s => verifyLong src 0 (stageVerify s)) s)
def execStageSelect (src : MgmtSource) (s : State) : Answer :=
  .next (vendorGated src (rowMessage s 0x23 []) (fun s => stageLong .select src 0x23 0 200000 (stageSelect s)) s)
def execStageAbort (src : MgmtSource) (s : State) : Answer := .next (quick src 0x24 [] stageAbort s)
def execImageConfirm (src : MgmtSource) (s : State) : Answer :=
  .next (vendorGated src (rowMessage s 0x25 []) (fun s => stageLong .confirm src 0x25 0 200000 (imageConfirm s)) s)
def execStartRecordRead (src : MgmtSource) (n : Nat) (s : State) : Answer := .next (quick src 0x26 (bytesOfNat 1 n) (startRecordRead n) s)

/-! ### Queued requests (R437, R438) -/

/-- A vendor command served: its arguments are the bytes from 5 on of its message; the layouts that the spec does not state are log 54's. -/
def serveVendor (src : MgmtSource) (cmd tag : Nat) (a : List Byte) (s : State) : State :=
  let f := fieldOf a
  let need (n : Nat) (go : State) : State := if a.length = n then go else vendorAnswer src cmd tag (refusal 0x9105 s)
  let quick (g : State → VendorResult × State) : State := vendorAnswer src cmd tag (g s)
  match cmd with
  | 0x01 => need 0 (quick vendorIdentity)
  | 0x02 => need 0 (quick vendorStatus)
  | 0x03 => need 8 (vendorRead src tag (f 0 8) s)
  | 0x04 => need 16 (vendorWrite src tag (f 0 8) (BitVec.ofNat 64 (f 8 8)) s)
  | 0x05 => need 1 (quick (vendorRecords (f 0 1)))
  | 0x10 => need 0 (moduleReset src tag s)
  | 0x11 => need 2 (beginRetrainPort src tag (f 0 1) (f 1 1) s)
  | 0x20 => need 1 (stageLong (.vendor 0x20) src 0x20 tag 45000000 (stageOpen (f 0 1) s))
  | 0x21 => if a.length < 5 then quick (refusal 0x9105) else stageLong (.vendor 0x21) src 0x21 tag 2000 (stageWrite (f 0 4) (a.drop 4) s)
  | 0x22 => need 0 (verifyLong src tag (stageVerify s))
  | 0x23 => need 0 (stageLong .select src 0x23 tag 200000 (stageSelect s))
  | 0x24 => need 0 (quick stageAbort)
  | 0x25 => need 0 (stageLong .confirm src 0x25 tag 200000 (imageConfirm s))
  | 0x26 => need 1 (quick (startRecordRead (f 0 1)))
  | 0x30 => need 13 (quick (vendorInject src (f 0 1) (BitVec.ofNat 64 (f 1 2 + f 3 2 * 2 ^ 32)) (BitVec.ofNat 64 (f 5 8))))
  | _ => quick (refusal 0x9105)

/-- A vendor message served: SPDM and enclave messages are not accepted through the mailbox (R438), and one of another vendor is malformed
(R440). Its response carries its bytes 0–4. -/
def serveMessage (src : MgmtSource) (m : List Byte) (s : State) : State :=
  let refuse (code : Nat) : State := mgmtSend src (echoResponse (echoHead m) code 0 []) s
  if fieldOf m 0 1 = 0x05 ∨ fieldOf m 0 1 = 0x06 then refuse 0x9102
  else if m.length < 5 ∨ m.take 3 ≠ (vendorHead s 0 0).take 3 then refuse 0x9105
  else serveVendor src (fieldOf m 3 1) (fieldOf m 4 1) (m.drop 5) s

/-- MGMT_HEARTBEAT: MGMT_FW runs once start is complete (R76, R437). -/
def execMgmtHeartbeat (s : State) : Answer :=
  .next (if s.life.power = .running then updMgmt (fun m => { m with heartbeat := wrapAdd 16 m.heartbeat 1 }) s else s)

/-! ### MCTP control (R439; DSP0236, PRESUMED, log 55) -/

/-- The completion code and data of a control command, and the endpoint identifier after it. -/
def mctpAnswer (m : List Byte) (eid : Nat) : List Byte × Nat :=
  let f := fieldOf m
  match f 2 1 with
  | 0x01 =>
    if 1 < f 3 1 % 4 then ([0x02], eid)
    else if f 4 1 = 0 ∨ f 4 1 = 0xFF then ([0x02], eid)
    else ([0x00, 0x00] ++ bytesOfNat 1 (f 4 1) ++ [0x00], f 4 1)
  | 0x02 => ([0x00] ++ bytesOfNat 1 eid ++ [0x00, 0x00], eid)
  | 0x04 => ([0x00, 0x01, 0xF1, 0xF3, 0xF1, 0x00], eid)
  | 0x05 => ([0x00, 0x03, 0x05, 0x06, 0x7E], eid)
  | _ => ([0x05], eid)

/-- A control message's response: type, instance, command, completion code and data. -/
def mctpResponse (m : List Byte) (body : List Byte) : List Byte := [0x00] ++ bytesOfNat 1 (fieldOf m 1 1 % 32) ++ bytesOfNat 1 (fieldOf m 2 1) ++ body

/-- A control message served. -/
def serveControl (m : List Byte) (s : State) : State :=
  let r := mctpAnswer m s.mgmt.eid
  mgmtSend .port (mctpResponse m r.1) (updMgmt (fun x => { x with eid := r.2 }) s)

/-- A control message as it arrives: ERROR_NOT_READY while the port is busy. -/
def controlGated (m : List Byte) (s : State) : State :=
  match mgmtGate s .port true with
  | .nothing | .refused => s
  | .busy _ => mgmtBusy .port (mctpResponse m [0x04]) s
  | .queue => queueRequest .port (.control m) s
  | .serve => serveControl m (updMgmt (noteBacklog .port) s)

/-- MCTP_CONTROL: a message of the management port as MCTP brings it, its packets put together. One whose PEC fails, and one of a type or a
vendor that R439 does not list, is dropped; SPDM messages have rows of their own (log 55). -/
def execMctpControl (pec : Bool) (m : List Byte) (s : State) : Answer :=
  .next (if !pec then s
    else if fieldOf m 0 1 = 0x00 then controlGated m s
    else if m.take 3 = (vendorHead s 0 0).take 3 then
      (if isModuleReset s m then moduleReset .port (fieldOf m 4 1) s else vendorGated .port m (serveMessage .port m) s)
    else s)

/-! ### The backlog (R437) -/

/-- A request of the backlog served. -/
def serveQueued (q : QueuedRequest) (s : State) : State :=
  match q.request with
  | .vendor m => serveMessage q.source m s
  | .control m => serveControl m s
  | .spdm r => serveSpdm r s

/-- MGMT_RESPONSE: the oldest request of the backlog is served, between long operations (R437, R441). -/
def execMgmtResponse (s : State) : Answer :=
  match s.mgmt.backlog with
  | q :: qs =>
    if s.mgmt.long.isNone ∧ !s.mgmt.writing then .next (serveQueued q (updMgmt (fun m => { m with backlog := qs }) s))
    else .next s
  | [] => .next s

end Sys2Proof.Machine
end

