-- ==== Sys2Proof/Machine/ScalerLevels.lean ====
section
/-!
DEFINITION. Machine/ScalerLevels.lean: what the level sources of Scaler read (R470), and SCALER_SAMPLE. The rates among them, the analogue
quantities and the durations of the event sources come with the command (log 93).
-/

namespace Sys2Proof.Machine

/-- Tasks of a ring staged and not issued (R237). -/
def stagedTasks (s : State) (r : Nat) : Nat := (s.tasks.filter fun t => t.ring == r && decide (t.phase = .staged)).length

/-- Quanta that the benches of a grove hold (R395). -/
def quantaHeld (s : State) (g : Nat) : Nat :=
  s.power.benches.cells.foldl (fun n c => if benchGrove c.1 = g then n + c.2.granted else n) 0

/-- Free pages of a grove's Deck area (R221), frames of its pool that hold no copy (R266). -/
def deckFreePages (s : State) (g : Nat) : Nat :=
  let u := deckOf s g
  if u.enable then u.poolPages - u.neverUsed + u.freeStack.length else 0
def poolFreeFrames (s : State) (g : Nat) : Nat := (poolOf s g).frames - (s.tier.frames.filter fun f => f.grove == g).length

/-- Bytes queued on the bundles of a role of an edge (R346). -/
def roleBytes (s : State) (e r : Nat) : Nat :=
  let bs := (List.range (bundlesOf e)).filter fun b => roleCode (bundleOf s e b).role == r
  roleQueued s e false bs + roleQueued s e true bs

/-- What a level source reads of one unit; none where the value is a rate or an analogue quantity. -/
def levelOf (s : State) (source unit : Nat) : Option Nat :=
  match source with
  | 4 => some (stagedTasks s unit)
  | 5 => some (sliceTasks s (unit / 4) (unit % 4)).length
  | 7 => some (quantaHeld s unit)
  | 8 => some s.power.requests.length
  | 11 => some (benchOf s unit).skid.length
  | 19 => some (deckFreePages s unit)
  | 24 => some (poolFreeFrames s unit)
  | 27 => some (hottest s.power fun x => x == .stack unit)
  | 29 => some (roleBytes s (unit / 16) (unit % 16))
  | 35 => some (s.fabric.offset + 32768).toNat
  | 38 => some s.power.measuredW
  | 39 => some s.power.estimatedW
  | 40 => some (max s.power.estimatedW s.power.measuredW - min s.power.estimatedW s.power.measuredW)
  | 41 => some s.power.vIn
  | 42 => some (hottest s.power (isGroveSensor unit))
  | 44 => some (s.power.groves.get {} unit).marginPs
  | 46 => some s.mgmt.backlog.length
  | _ => none

/-- Whether the grove of a unit is not under reset: its units give no samples (R474). -/
def unitSampled (s : State) (source unit : Nat) : Bool :=
  !(watchedGrove { source := source, select := unit }).any fun g => (s.groveResets.get {} g).busy

/-- What a level source reads of its unit, or of every unit together: the sum, of temperatures and margins the greatest (log 93). -/
def levelValue (s : State) (c : Channel) : Option Nat :=
  if c.select ≠ 0xFFFF then levelOf s c.source c.select
  else match (sourceOf c.source).2 with
    | .module => levelOf s c.source 0
    | k =>
      let vs := ((List.range (unitsOf k)).filter (unitSampled s c.source)).filterMap (levelOf s c.source)
      if vs.isEmpty then none
      else if c.source = 27 ∨ c.source = 42 ∨ c.source = 44 then vs.max? else some vs.sum

/-- SCALER_SAMPLE: the source of a channel gives a sample (R470): of a level what the module holds, else the value of the command. Source 17
samples when a batch closes. -/
def execScalerSample (ch v : Nat) (s : State) : Answer :=
  .next (updChannel ch (fun c => if c.source = 17 then c else sourceSample s ((levelValue s c).getD v) c) s)

end Sys2Proof.Machine
end

