-- ==== Sys2Proof/Machine/Dispatch.lean ====
section
/-!
DEFINITION. Machine/Dispatch.lean: one arm per command, each one direct call of its meaning.
-/

namespace Sys2Proof.Machine

/-- The effect of a command on everything but the queue. -/
def exec (i : Instr) (s : State) : Host.Outcome State Fault Refusal :=
  match i with
  | .coldStart inp => Sys2Proof.Machine.execColdStart inp s
  | .portTrainTimeout => Sys2Proof.Machine.execPortTrainTimeout s
  | .moduleResetNRecognised => Sys2Proof.Machine.execModuleResetNRecognised s
  | .warmResetResume inp => Sys2Proof.Machine.execWarmResetResume inp s
  | .inputBrownOut mv => Sys2Proof.Machine.execInputBrownOut mv s
  | .brownOutRestart inp => Sys2Proof.Machine.execBrownOutRestart inp s
  | .powerLoss => Sys2Proof.Machine.execPowerLoss s
  | .groveResetRequest g => Sys2Proof.Machine.execGroveResetRequest g s
  | .groveResetComplete g bad => Sys2Proof.Machine.execGroveResetComplete g bad s
  | .benchQuarantine g b => Sys2Proof.Machine.execBenchQuarantine g b s
  | .epochAdvance n => Sys2Proof.Machine.execEpochAdvance n s
  | .unitMessage m => Sys2Proof.Machine.execUnitMessage m s
  | .staleEpochNotice n => Sys2Proof.Machine.execStaleEpochNotice n s
  | .stageOpen src slot => Sys2Proof.Machine.execStageOpen src slot s
  | .stageWrite src offset data => Sys2Proof.Machine.execStageWrite src offset data s
  | .stageVerify src => Sys2Proof.Machine.execStageVerify src s
  | .stageSelect src => Sys2Proof.Machine.execStageSelect src s
  | .stageAbort src => Sys2Proof.Machine.execStageAbort src s
  | .imageConfirm src => Sys2Proof.Machine.execImageConfirm src s
  | .startRecordRead src n => Sys2Proof.Machine.execStartRecordRead src n s
  | .ringDoorbell r v => Sys2Proof.Machine.execRingDoorbell r v s
  | .ringEnable r => Sys2Proof.Machine.execRingEnable r s
  | .ringPause r => Sys2Proof.Machine.execRingPause r s
  | .ringResume r => Sys2Proof.Machine.execRingResume r s
  | .ringReset r => Sys2Proof.Machine.execRingReset r s
  | .benchReport r n => Sys2Proof.Machine.execBenchReport r n s
  | .failureAcknowledge r => Sys2Proof.Machine.execFailureAcknowledge r s
  | .taskStage r => Sys2Proof.Machine.execTaskStage r s
  | .counterChangeObserved pa => Sys2Proof.Machine.execCounterChangeObserved pa s
  | .fenceTimeout o => Sys2Proof.Machine.execFenceTimeout o s
  | .matmul r seq => Sys2Proof.Machine.execMatmul r seq s
  | .semiring r seq => Sys2Proof.Machine.execSemiring r seq s
  | .vector r seq => Sys2Proof.Machine.execVector r seq s
  | .fenceWait r seq => Sys2Proof.Machine.execFenceWait r seq s
  | .fenceSignal r seq => Sys2Proof.Machine.execFenceSignal r seq s
  | .enqueue r seq => Sys2Proof.Machine.execEnqueue r seq s
  | .enqueueAppend r seq => Sys2Proof.Machine.execEnqueueAppend r seq s
  | .barrier r seq => Sys2Proof.Machine.execBarrier r seq s
  | .barrierComplete r seq => Sys2Proof.Machine.execBarrierComplete r seq s
  | .taskComplete r seq => Sys2Proof.Machine.execTaskComplete r seq s
  | .passStart n => Sys2Proof.Machine.execPassStart n s
  | .tileDrain n => Sys2Proof.Machine.execTileDrain n s
  | .tileBoundary n => Sys2Proof.Machine.execTileBoundary n s
  | .arrayParityError n code => Sys2Proof.Machine.execArrayParityError n code s
  | .dresserEntryStart n => Sys2Proof.Machine.execDresserEntryStart n s
  | .skidEntryFree n => Sys2Proof.Machine.execSkidEntryFree n s
  | .dresserParityError n => Sys2Proof.Machine.execDresserParityError n s
  | .skidEntryError n corrected => Sys2Proof.Machine.execSkidEntryError n corrected s
  | .nop n => Sys2Proof.Machine.execNop n s
  | .load n => Sys2Proof.Machine.execLoad n s
  | .loadskid n => Sys2Proof.Machine.execLoadskid n s
  | .store n => Sys2Proof.Machine.execStore n s
  | .sload n => Sys2Proof.Machine.execSload n s
  | .sstore n => Sys2Proof.Machine.execSstore n s
  | .gather n => Sys2Proof.Machine.execGather n s
  | .scatter n => Sys2Proof.Machine.execScatter n s
  | .scatadd n => Sys2Proof.Machine.execScatadd n s
  | .mov n => Sys2Proof.Machine.execMov n s
  | .iota n => Sys2Proof.Machine.execIota n s
  | .select n => Sys2Proof.Machine.execSelect n s
  | .add n => Sys2Proof.Machine.execAdd n s
  | .sub n => Sys2Proof.Machine.execSub n s
  | .mul n => Sys2Proof.Machine.execMul n s
  | .fma n => Sys2Proof.Machine.execFma n s
  | .min n => Sys2Proof.Machine.execMin n s
  | .max n => Sys2Proof.Machine.execMax n s
  | .abs n => Sys2Proof.Machine.execAbs n s
  | .neg n => Sys2Proof.Machine.execNeg n s
  | .clamp n => Sys2Proof.Machine.execClamp n s
  | .rcp n => Sys2Proof.Machine.execRcp n s
  | .sqrt n => Sys2Proof.Machine.execSqrt n s
  | .rsqrt n => Sys2Proof.Machine.execRsqrt n s
  | .exp n => Sys2Proof.Machine.execExp n s
  | .log n => Sys2Proof.Machine.execLog n s
  | .tanh n => Sys2Proof.Machine.execTanh n s
  | .sigmoid n => Sys2Proof.Machine.execSigmoid n s
  | .silu n => Sys2Proof.Machine.execSilu n s
  | .gelu n => Sys2Proof.Machine.execGelu n s
  | .relu n => Sys2Proof.Machine.execRelu n s
  | .rope n => Sys2Proof.Machine.execRope n s
  | .div n => Sys2Proof.Machine.execDiv n s
  | .cmp n => Sys2Proof.Machine.execCmp n s
  | .mand n => Sys2Proof.Machine.execMand n s
  | .mor n => Sys2Proof.Machine.execMor n s
  | .mnot n => Sys2Proof.Machine.execMnot n s
  | .iadd n => Sys2Proof.Machine.execIadd n s
  | .isub n => Sys2Proof.Machine.execIsub n s
  | .imul n => Sys2Proof.Machine.execImul n s
  | .imin n => Sys2Proof.Machine.execImin n s
  | .imax n => Sys2Proof.Machine.execImax n s
  | .ishr n => Sys2Proof.Machine.execIshr n s
  | .cvti n => Sys2Proof.Machine.execCvti n s
  | .cvtf n => Sys2Proof.Machine.execCvtf n s
  | .rsum n => Sys2Proof.Machine.execRsum n s
  | .rmax n => Sys2Proof.Machine.execRmax n s
  | .rmin n => Sys2Proof.Machine.execRmin n s
  | .topkClear n => Sys2Proof.Machine.execTopkClear n s
  | .topk n => Sys2Proof.Machine.execTopk n s
  | .topkEmit n => Sys2Proof.Machine.execTopkEmit n s
  | .deckEnable g v => Sys2Proof.Machine.execDeckEnable g v s
  | .deckZeroingDone g => Sys2Proof.Machine.execDeckZeroingDone g s
  | .deckCreate r seq => Sys2Proof.Machine.execDeckCreate r seq s
  | .deckExtendProvisional r seq => Sys2Proof.Machine.execDeckExtendProvisional r seq s
  | .deckExtendCommitted r seq => Sys2Proof.Machine.execDeckExtendCommitted r seq s
  | .deckWrite r seq => Sys2Proof.Machine.execDeckWrite r seq s
  | .deckRead r seq => Sys2Proof.Machine.execDeckRead r seq s
  | .deckCommit r seq => Sys2Proof.Machine.execDeckCommit r seq s
  | .deckRollback r seq => Sys2Proof.Machine.execDeckRollback r seq s
  | .deckFork r seq => Sys2Proof.Machine.execDeckFork r seq s
  | .deckRelease r seq => Sys2Proof.Machine.execDeckRelease r seq s
  | .deckQuery r seq => Sys2Proof.Machine.execDeckQuery r seq s
  | .deckScrubDone g slot => Sys2Proof.Machine.execDeckScrubDone g slot s
  | .deckTruncation handle group => Sys2Proof.Machine.execDeckTruncation handle group s
  | .deckRelabel handle group => Sys2Proof.Machine.execDeckRelabel handle group s
  | .copy r seq => Sys2Proof.Machine.execCopy r seq s
  | .fill r seq => Sys2Proof.Machine.execFill r seq s
  | .prefetch r seq => Sys2Proof.Machine.execPrefetch r seq s
  | .evict r seq => Sys2Proof.Machine.execEvict r seq s
  | .flashWrite r seq => Sys2Proof.Machine.execFlashWrite r seq s
  | .migration offset => Sys2Proof.Machine.execMigration offset s
  | .migrationComplete ashlar => Sys2Proof.Machine.execMigrationComplete ashlar s
  | .correctedError pa => Sys2Proof.Machine.execCorrectedError pa s
  | .uncorrectableRead pa => Sys2Proof.Machine.execUncorrectableRead pa s
  | .replicaFetchArrival ashlar data => Sys2Proof.Machine.execReplicaFetchArrival ashlar data s
  | .replicaTimeout ashlar => Sys2Proof.Machine.execReplicaTimeout ashlar s
  | .tierEnable v => Sys2Proof.Machine.execTierEnable v s
  | .objectValidate o v => Sys2Proof.Machine.execObjectValidate o v s
  | .objectDrain o v => Sys2Proof.Machine.execObjectDrain o v s
  | .objectDrainDone o => Sys2Proof.Machine.execObjectDrainDone o s
  | .tierStatusRead => Sys2Proof.Machine.execTierStatusRead s
  | .stackTempReport device temp => Sys2Proof.Machine.execStackTempReport device temp s
  | .pageWalkDone r seq => Sys2Proof.Machine.execPageWalkDone r seq s
  | .batchTimerClose => Sys2Proof.Machine.execBatchTimerClose s
  | .flush => Sys2Proof.Machine.execFlush s
  | .tuFbDone v => Sys2Proof.Machine.execTuFbDone v s
  | .batchAnswerTimeout slot => Sys2Proof.Machine.execBatchAnswerTimeout slot s
  | .tuCtxEnable v => Sys2Proof.Machine.execTuCtxEnable v s
  | .tuFbEnable v => Sys2Proof.Machine.execTuFbEnable v s
  | .tuInval v => Sys2Proof.Machine.execTuInval v s
  | .invalidationDrainDone => Sys2Proof.Machine.execInvalidationDrainDone s
  | .assign v => Sys2Proof.Machine.execAssign v s
  | .release v => Sys2Proof.Machine.execRelease v s
  | .revokeSeal v => Sys2Proof.Machine.execRevokeSeal v s
  | .stakeReleaseDone => Sys2Proof.Machine.execStakeReleaseDone s
  | .sealContext session context key => Sys2Proof.Machine.execSealContext session context key s
  | .sealStakes session context addr count => Sys2Proof.Machine.execSealStakes session context addr count s
  | .setExport session context addr count on => Sys2Proof.Machine.execSetExport session context addr count on s
  | .unsealContext session context => Sys2Proof.Machine.execUnsealContext session context s
  | .installCordKey session cord epoch key sigR sigS => Sys2Proof.Machine.execInstallCordKey session cord epoch key sigR sigS s
  | .activateCordKey session cord epoch => Sys2Proof.Machine.execActivateCordKey session cord epoch s
  | .eraseCordKey session cord epoch => Sys2Proof.Machine.execEraseCordKey session cord epoch s
  | .opcacheInval g v => Sys2Proof.Machine.execOpcacheInval g v s
  | .opcacheInvalDone g => Sys2Proof.Machine.execOpcacheInvalDone g s
  | .hartLoad h mode addr size fetch x => Sys2Proof.Machine.execHartLoad h mode addr size fetch x s
  | .hartStore h mode addr size v x => Sys2Proof.Machine.execHartStore h mode addr size v x s
  | .hartAtomic h mode op addr size a b rl x => Sys2Proof.Machine.execHartAtomic h mode op addr size a b rl x s
  | .combinedStoreSend h codeword => Sys2Proof.Machine.execCombinedStoreSend h codeword s
  | .loadBarrier h => Sys2Proof.Machine.execLoadBarrier h s
  | .storeBarrier h => Sys2Proof.Machine.execStoreBarrier h s
  | .fullBarrier h => Sys2Proof.Machine.execFullBarrier h s
  | .deferredStoreFault h x => Sys2Proof.Machine.execDeferredStoreFault h x s
  | .postedWriteCheckFail addr context code => Sys2Proof.Machine.execPostedWriteCheckFail addr context code s
  | .accFaultAccess h mode a x => Sys2Proof.Machine.execAccFaultAccess h mode a x s
  | .imsicMsi addr v => Sys2Proof.Machine.execImsicMsi addr v s
  | .aplicSourceChange source => Sys2Proof.Machine.execAplicSourceChange source s
  | .pcieInbound p q => Sys2Proof.Machine.execPcieInbound p q s
  | .pcieLinkChange p width rate aer => Sys2Proof.Machine.execPcieLinkChange p width rate aer s
  | .mailboxGo v => Sys2Proof.Machine.execMailboxGo v s
  | .mgmtResponse => Sys2Proof.Machine.execMgmtResponse s
  | .mgmtHeartbeat => Sys2Proof.Machine.execMgmtHeartbeat s
  | .mctpControl pec message => Sys2Proof.Machine.execMctpControl pec message s
  | .getIdentity src => Sys2Proof.Machine.execGetIdentity src s
  | .getStatus src => Sys2Proof.Machine.execGetStatus src s
  | .readRegister src addr => Sys2Proof.Machine.execReadRegister src addr s
  | .writeRegister src addr v => Sys2Proof.Machine.execWriteRegister src addr v s
  | .readErrorRecords src count => Sys2Proof.Machine.execReadErrorRecords src count s
  | .moduleReset src => Sys2Proof.Machine.execModuleReset src s
  | .retrain src kind port => Sys2Proof.Machine.execRetrain src kind port s
  | .inject src slot ctl locator => Sys2Proof.Machine.execInject src slot ctl locator s
  | .mgmtLongOpDone => Sys2Proof.Machine.execMgmtLongOpDone s
  | .getVersion => Sys2Proof.Machine.execGetVersion s
  | .getCapabilities => Sys2Proof.Machine.execGetCapabilities s
  | .negotiateAlgorithms => Sys2Proof.Machine.execNegotiateAlgorithms s
  | .getDigests => Sys2Proof.Machine.execGetDigests s
  | .getCertificate slot offset length => Sys2Proof.Machine.execGetCertificate slot offset length s
  | .challenge slot nonce => Sys2Proof.Machine.execChallenge slot nonce s
  | .getMeasurements session index signed => Sys2Proof.Machine.execGetMeasurements session index signed s
  | .keyExchange requester => Sys2Proof.Machine.execKeyExchange requester s
  | .finish session verifies => Sys2Proof.Machine.execFinish session verifies s
  | .heartbeat session => Sys2Proof.Machine.execHeartbeat session s
  | .keyUpdate session => Sys2Proof.Machine.execKeyUpdate session s
  | .endSession session => Sys2Proof.Machine.execEndSession session s
  | .vendorDefinedRequest session standard vendor opcode payload => Sys2Proof.Machine.execVendorDefinedRequest session standard vendor opcode payload s
  | .kerfFlitReceive edge bundle dirB number good offered => Sys2Proof.Machine.execKerfFlitReceive edge bundle dirB number good offered s
  | .kerfReplay edge bundle dirB => Sys2Proof.Machine.execKerfReplay edge bundle dirB s
  | .kerfLaneCheck edge bundle dirB bad => Sys2Proof.Machine.execKerfLaneCheck edge bundle dirB bad s
  | .pausedRepairDone edge bundle badA badB => Sys2Proof.Machine.execPausedRepairDone edge bundle badA badB s
  | .kerfRetrainDone edge bundle badA badB => Sys2Proof.Machine.execKerfRetrainDone edge bundle badA badB s
  | .kerfClockLoss edge bundle dirB => Sys2Proof.Machine.execKerfClockLoss edge bundle dirB s
  | .siteTempReport site temp => Sys2Proof.Machine.execSiteTempReport site temp s
  | .siteReportTimeout site => Sys2Proof.Machine.execSiteReportTimeout site s
  | .siteMainbandFailure site recovered modules lanes rate => Sys2Proof.Machine.execSiteMainbandFailure site recovered modules lanes rate s
  | .siteWindowAccess site h offset write answer => Sys2Proof.Machine.execSiteWindowAccess site h offset write answer s
  | .siteWindowTimeout site => Sys2Proof.Machine.execSiteWindowTimeout site s
  | .linkSetup port peer => Sys2Proof.Machine.execLinkSetup port peer s
  | .portReceiveTimeout port => Sys2Proof.Machine.execPortReceiveTimeout port s
  | .portRetrainTimer port => Sys2Proof.Machine.execPortRetrainTimer port s
  | .frameKeepalive port => Sys2Proof.Machine.execFrameKeepalive port s
  | .dataFrameReceive port f => Sys2Proof.Machine.execDataFrameReceive port f s
  | .frameReplay port fromFrame => Sys2Proof.Machine.execFrameReplay port fromFrame s
  | .timeExchange x => Sys2Proof.Machine.execTimeExchange x s
  | .holdoverExpire => Sys2Proof.Machine.execHoldoverExpire s
  | .rootSyncTimeout => Sys2Proof.Machine.execRootSyncTimeout s
  | .selfNotice module gen arrival => Sys2Proof.Machine.execSelfNotice module gen arrival s
  | .linkNotice module port arrival => Sys2Proof.Machine.execLinkNotice module port arrival s
  | .transferHandover id => Sys2Proof.Machine.execTransferHandover id s
  | .offerSend id => Sys2Proof.Machine.execOfferSend id s
  | .offerReceive o => Sys2Proof.Machine.execOfferReceive o s
  | .offerAnswer id code => Sys2Proof.Machine.execOfferAnswer id code s
  | .offerForfeit id => Sys2Proof.Machine.execOfferForfeit id s
  | .slotStart => Sys2Proof.Machine.execSlotStart s
  | .bestEffortAck id code => Sys2Proof.Machine.execBestEffortAck id code s
  | .bestEffortResend id => Sys2Proof.Machine.execBestEffortResend id s
  | .remoteReadRequest q => Sys2Proof.Machine.execRemoteReadRequest q s
  | .remoteAtomicRequest q op a b => Sys2Proof.Machine.execRemoteAtomicRequest q op a b s
  | .remoteReply id code v => Sys2Proof.Machine.execRemoteReply id code v s
  | .remoteLoadTimeout id => Sys2Proof.Machine.execRemoteLoadTimeout id s
  | .windowEnable w v => Sys2Proof.Machine.execWindowEnable w v s
  | .windowDrain w v => Sys2Proof.Machine.execWindowDrain w v s
  | .windowDrainDone w => Sys2Proof.Machine.execWindowDrainDone w s
  | .arm => Sys2Proof.Machine.execArm s
  | .cancel => Sys2Proof.Machine.execCancel s
  | .slotTableSwitch => Sys2Proof.Machine.execSlotTableSwitch s
  | .grantRequest n => Sys2Proof.Machine.execGrantRequest n s
  | .grant g => Sys2Proof.Machine.execGrant g s
  | .staggeredStart g => Sys2Proof.Machine.execStaggeredStart g s
  | .poolRefill g => Sys2Proof.Machine.execPoolRefill g s
  | .topUpRequest n => Sys2Proof.Machine.execTopUpRequest n s
  | .reclaimReview used => Sys2Proof.Machine.execReclaimReview used s
  | .budgetUpdate => Sys2Proof.Machine.execBudgetUpdate s
  | .episodeTimeout => Sys2Proof.Machine.execEpisodeTimeout s
  | .estimateSample p => Sys2Proof.Machine.execEstimateSample p s
  | .measuredControlStep => Sys2Proof.Machine.execMeasuredControlStep s
  | .measuredPowerMissing => Sys2Proof.Machine.execMeasuredPowerMissing s
  | .pllSleep g => Sys2Proof.Machine.execPllSleep g s
  | .pllRelockDone g => Sys2Proof.Machine.execPllRelockDone g s
  | .droop g => Sys2Proof.Machine.execDroop g s
  | .droopRecover g => Sys2Proof.Machine.execDroopRecover g s
  | .droopStartHoldoffEnd g => Sys2Proof.Machine.execDroopStartHoldoffEnd g s
  | .tempSample x temp => Sys2Proof.Machine.execTempSample x temp s
  | .groveCapUpdate => Sys2Proof.Machine.execGroveCapUpdate s
  | .sensorTimeout x => Sys2Proof.Machine.execSensorTimeout x s
  | .thermNRelease => Sys2Proof.Machine.execThermNRelease s
  | .inputLowLimit mv => Sys2Proof.Machine.execInputLowLimit mv s
  | .inputLowLimitEnd mv => Sys2Proof.Machine.execInputLowLimitEnd mv s
  | .powerBrake => Sys2Proof.Machine.execPowerBrake s
  | .powerBrakeRelease => Sys2Proof.Machine.execPowerBrakeRelease s
  | .marginSample g ps => Sys2Proof.Machine.execMarginSample g ps s
  | .boomCtlWrite v => Sys2Proof.Machine.execBoomCtlWrite v s
  | .errRead v => Sys2Proof.Machine.execErrRead v s
  | .ack => Sys2Proof.Machine.execAck s
  | .tallyStateError g => Sys2Proof.Machine.execTallyStateError g s
  | .opcacheLineError g line => Sys2Proof.Machine.execOpcacheLineError g line s
  | .systemCacheLineError pa => Sys2Proof.Machine.execSystemCacheLineError pa s
  | .landingStateError => Sys2Proof.Machine.execLandingStateError s
  | .injectionArm slot v => Sys2Proof.Machine.execInjectionArm slot v s
  | .injectionDisarm slot => Sys2Proof.Machine.execInjectionDisarm slot s
  | .go v => Sys2Proof.Machine.execGo v s
  | .abort => Sys2Proof.Machine.execAbort s
  | .diagScanDone fails first => Sys2Proof.Machine.execDiagScanDone fails first s
  | .scalerArm ch v => Sys2Proof.Machine.execScalerArm ch v s
  | .scalerAbort ch => Sys2Proof.Machine.execScalerAbort ch s
  | .scalerCaptureStart ch => Sys2Proof.Machine.execScalerCaptureStart ch s
  | .scalerSample ch v => Sys2Proof.Machine.execScalerSample ch v s
  | .scalerCaptureStop ch => Sys2Proof.Machine.execScalerCaptureStop ch s
  | .registerWrite addr v => Sys2Proof.Machine.execRegisterWrite addr v s
  | .slotTableLoad => Sys2Proof.Machine.execSlotTableLoad s
  | .slotTableLoadDone => Sys2Proof.Machine.execSlotTableLoadDone s
  | .stakeAssignDone => Sys2Proof.Machine.execStakeAssignDone s

end Sys2Proof.Machine
end

