-- ==== Sys2Proof/Safety.lean ====
section
/-!
DEFINITION. Safety.lean: what a sound state of the module is, in the terms that claims use.
-/

namespace Sys2Proof

open Sys2Proof.Machine

/-- Memory and bench scratch are in canonical form (log 3): equal contents are equal data. -/
def MemoryCanonical (s : State) : Prop := Memory.wf s.mem = true ∧ Memory.wf s.scratch = true

/-- The error record queue: what is read was written, and at most 1,024 records wait, so none of them has been overwritten
(R452, R453). -/
abbrev QueueBounded (s : State) : Prop := s.err.read ≤ s.err.written ∧ s.err.written ≤ s.err.read + 1024

/-- What every command of the block keeps: memory in canonical form, the record queue bounded, and the part the part it is: order
code, serial, steppings, setpoint fuses, ROM digest (R1, R5, R80, R417, R486). -/
def Sound (p : Part) (s : State) : Prop := MemoryCanonical s ∧ QueueBounded s ∧ s.part = p

/-- The module executes nothing: no power, or one of the states in which every part outside the always-on domain is off (R68, R89, R90,
R409). -/
abbrev Asleep (s : State) : Prop :=
  s.life.power = .off ∨ s.life.power = .hold ∨ s.life.power = .trip ∨ s.life.power = .warmReset ∨ s.life.power = .brownOut

/-- What a start finds of the stores (R84, R89): nothing below the flash tier, scratch, rings and tasks gone, the flash tier and the part
as they were, a staging session ended (R72), FABRIC_TIME counting from 0 (R369), the SMBus address of the straps (R498). -/
def BlankStart (inp : StartInputs) (warm : Bool) (s s0 : State) : Prop :=
  (∀ a, a < flashBase → memGet s0.mem a = 0) ∧ (∀ a, flashBase ≤ a → memGet s0.mem a = memGet s.mem a) ∧ s0.scratch = {} ∧
    s0.tasks = [] ∧ s0.rings = {} ∧ s0.stakes = {} ∧ s0.part = s.part ∧ s0.fabric.time = 0 ∧ s0.fabric.counting = true ∧
    s0.life.smbus = 0x68 + inp.straps % 8 ∧ s0.life.warm = warm ∧ s0.err.written = 0 ∧ s0.boot = endSession s.boot

/-- Fewer than 16 CORRECTED records of a code and source were written in the last millisecond, so the next is written and not counted
as suppressed (R454). -/
abbrev UnderRate (code : W16) (source : W64) (s : State) : Prop :=
  let r : ErrRecord := { code := code, source := source }
  (((s.err.suppressed.find? (Suppression.isOf r)).getD ⟨code, source, [], 0⟩).written.filter fun a =>
    decide (s.now < a + 1000000)).length < 16

/-- Nothing but the error block has changed and, where port 71 is UP, what that port counts of the frames it sends (R452, R473). -/
def OnlyRecords (s t : State) : Prop :=
  t = { s with err := t.err, fabric := { s.fabric with ports := t.fabric.ports } } ∧
    ∀ q, q ≠ 71 → t.fabric.ports.get {} q = s.fabric.ports.get {} q

/-- Rings accept doorbells and cores run (R76, step 14 on). -/
def InService (s : State) : Prop := inService s = true

/-- A task of no group has retired (R232, R240, R241): Tally holds it no more and every other task as before, its ring counts it, its
counter holds what its signal leaves, and no other byte of memory, no scratch and no record has changed. -/
def Retired (t : Task) (s u : State) : Prop :=
  u.tasks = s.tasks.filter (fun x => !x.is t.ring t.seq) ∧ ringOf u t.ring = ringRetire t.seq (ringOf s t.ring) ∧
    (∀ q, q ≠ t.ring → ringOf u q = ringOf s q) ∧ u.scratch = s.scratch ∧ u.err = s.err ∧
    (t.signalPa = none → u.mem = s.mem) ∧
    ∀ pa, t.signalPa = some pa →
      memNat u.mem pa 8 = (if t.header.setAbort then counterAborted (memNat s.mem pa 8) else counterAdded (memNat s.mem pa 8) t.header.signalAdd) ∧
      ∀ a, a < pa ∨ pa + 8 ≤ a → memGet u.mem a = memGet s.mem a

/-- A task that may end now: found, of no group; its counter is not poisoned, its stake permits the signal and no key encrypts it (R232,
R303), and no SCATADD at work has updated it (R328). -/
abbrev MayEnd (t : Task) (s : State) : Prop :=
  findTask s t.ring t.seq = some t ∧ t.member = false ∧ signalRefused t s = none ∧ ∀ pa, t.signalPa = some pa →
    stakeKey s pa = .plain ∧ pa % 8 = 0 ∧ ∀ x ∈ s.scatAdds, x.1 + 4 ≤ pa ∨ pa + 8 ≤ x.1

/-- The Dresser of bench `n` stands at an instruction of opcode `op` and runs it now, in the state `v` in which its run stands inside the
instruction's block: its run has begun and no cause ends it, and no injection point is armed (R171, R198, R211, R465). -/
abbrev DresserReady (op n : Nat) (c : DCtx) (s v : State) : Prop :=
  v = openBlock n s ∧ dresserNext op n v = some c ∧ c.run.begun = true ∧ c.run.ends = none ∧ s.err.inj.cells = []

/-- Lane operations of two operands A and B, with the value an active lane takes (R179, R180). -/
def laneOps2 (n : Nat) : List (Nat × Instr × (W32 → W32 → W32)) :=
  [(0x10, .add n, fp32Add), (0x11, .sub n, fp32Sub), (0x12, .mul n, fp32Mul), (0x14, .min n, fp32Min), (0x15, .max n, fp32Max),
   (0x24, .div n, fp32Div), (0x38, .iadd n, fun a b => a + b), (0x39, .isub n, fun a b => a - b), (0x3A, .imul n, fun a b => a * b),
   (0x3B, .imin n, fun a b => if b.toInt < a.toInt then b else a), (0x3C, .imax n, fun a b => if a.toInt < b.toInt then b else a),
   (0x09, .mov n, fun _ b => b)]

/-- Lane operations of operand A alone. -/
def laneOps1 (n : Nat) : List (Nat × Instr × (W32 → W32)) :=
  [(0x16, .abs n, fp32Abs), (0x17, .neg n, fp32Neg), (0x19, .rcp n, fp32Rcp), (0x1A, .sqrt n, fp32Sqrt), (0x1B, .rsqrt n, fp32Rsqrt),
   (0x1C, .exp n, fp32Exp), (0x1D, .log n, fp32Log), (0x1E, .tanh n, fp32Tanh), (0x1F, .sigmoid n, fp32Sigmoid),
   (0x20, .silu n, fp32Silu), (0x21, .gelu n, fp32Gelu), (0x22, .relu n, fp32Relu), (0x3E, .cvti n, cvti)]

/-- A DECK task at work whose operation reaches its home Deck unit now (R222): no earlier write to the scratch it reads, or to the rows it is to
follow, is outstanding (R319). -/
abbrev DeckWorks (op : DeckOp) (t : Task) (d : DeckDesc) (n : Nat) (s : State) : Prop :=
  findTask s t.ring t.seq = some t ∧ t.body = .deck d ∧ d.op = op ∧ t.bench = some n ∧ t.phase = .issued ∧ t.blocked = false ∧
    t.stopping = false ∧ t.workDone = false ∧ t.ends = none ∧ t.snapshot = none ∧ (demandOf t = 0 ∨ clockOn s n = true) ∧
    (s.groveResets.get {} (homeOf t d)).busy = false ∧ scratchHeld s t n (taskRuns false t.body) = false ∧
    (deckWritesRows d = true → rowsHeld s t n = false)

/-- And it is refused for none of the common causes (R205, R209, R216). -/
abbrev DeckRuns (op : DeckOp) (t : Task) (d : DeckDesc) (n : Nat) (s : State) : Prop := DeckWorks op t d n s ∧ deckRefusal s t d = none

/-- A DECK task's result record has gone where RESULT says (R210, R221): into scratch, of which it changes nothing else, or nowhere. -/
def ResultIn (d : DeckDesc) (n : Nat) (rec : List Byte) (s u : State) : Prop :=
  (hasResult d = false → u.scratch = s.scratch) ∧
  (hasResult d = true → scratchRead u n (addrOffset d.result) rec.length = rec ∧
    ∀ a, a < n * scratchSize + addrOffset d.result ∨ n * scratchSize + addrOffset d.result + rec.length ≤ a →
      memGet u.scratch a = memGet s.scratch a)

/-- The task's work is done, its record is where RESULT says, its home has counted it in DECK_OPS, and nothing but it and its home Deck unit
has changed (R205, R210, R213, R240). -/
def DeckDone (t : Task) (d : DeckDesc) (n : Nat) (rec : List Byte) (s u : State) : Prop :=
  (findTask u t.ring t.seq).map (·.workDone) = some true ∧ (∀ x ∈ s.tasks, x.is t.ring t.seq = false → x ∈ u.tasks) ∧ ResultIn d n rec s u ∧
    (deckOf u (homeOf t d)).ops = ((deckOf s (homeOf t d)).ops + 1) % 2 ^ 64 ∧ (∀ g, g ≠ homeOf t d → deckOf u g = deckOf s g) ∧
    u.mem = s.mem ∧ u.err = s.err ∧ u.power = s.power ∧ u.rings = s.rings ∧ u.benches = s.benches

/-- A read of a physical range of the near or bulk tier that is served as it stands: permitted, no poison and no repair in its way, no
injection point armed (R278, R280, R303, R465). -/
abbrev ServesRead (q : Requester) (pa n : Nat) (s : State) : Prop :=
  (regionOf pa = .near ∨ regionOf pa = .bulk) ∧ s.err.inj.cells = [] ∧ s.err.firing = none ∧ accessRefusal s q false pa n = none ∧ poisonIn s pa n = false ∧
    repairMet s pa n = none

/-- A write of a physical range of the near or bulk tier that is served as it stands, every granule of it, with no SCATADD at work that
does not cover the writer (R278, R303, R321, R328, R465). -/
abbrev ServesWrite (q : Requester) (pa n : Nat) (s : State) : Prop :=
  (regionOf pa = .near ∨ regionOf pa = .bulk) ∧ s.err.inj.cells = [] ∧ scattersAround s q = [] ∧
    ∀ p ∈ piecesOf stakeSize pa n, pieceRefusal s q p = none

/-- No byte of a physical range is encrypted: none lies in a sealed stake of the bulk tier (R307). -/
abbrev InPlain (s : State) (pa n : Nat) : Prop := ∀ p ∈ piecesOf stakeSize pa n, stakeKey s p.1 = .plain

/-- An access of a hart, of n bytes, goes to one physical address as it begins: where Bare mode or the tables of its roots put it (R15, R288). -/
abbrev MapsTo (h : Nat) (mode : HartMode) (kind : HartKind) (x : HartView) (va n pa : Nat) (uncached : Bool) (s : State) : Prop :=
  0 < n ∧ hartMap h mode kind x va n (beginAccess h mode x s) = (.ok ([⟨va, pa, n⟩], uncached), beginAccess h mode x s)

/-- A hart as it begins an access: in its mode, at its instruction, waiting for nothing. -/
def hartBegun (mode : HartMode) (x : HartView) (y : Hart) : Hart :=
  { y with mode := mode, pc := x.pc, medeleg := x.medeleg, waiting := .nothing }

/-- Only one hart has changed, and into what it is said to be. -/
def OnlyHart (h : Nat) (y : Hart) (s t : State) : Prop :=
  t = { s with landing := { s.landing with harts := t.landing.harts } } ∧ hartOf t h = y ∧ ∀ k, k ≠ h → hartOf t k = hartOf s k

/-- A MOVE task at work on its bench: issued, not waiting, its clock running (R240, R273). -/
abbrev MoveRuns (op : MoveOp) (t : Task) (d : MoveDesc) (n : Nat) (s : State) : Prop :=
  findTask s t.ring t.seq = some t ∧ t.body = .move d ∧ d.op = op ∧ t.bench = some n ∧ worksOn s n t = true ∧ t.stopping = false ∧
    t.workDone = false

/-- An address field of `n` bytes that names bench scratch all along (R147). -/
abbrev InScratch (a n : Nat) : Prop := ∀ k, k < n → addrScratch (a + k) = true ∧ addrOffset (a + k) = addrOffset a + k

/-- The management processor serves a request of the management port at once: the module runs, no long operation and no WRITE_REGISTER is
under way, and the backlog is empty (R437, R441). -/
abbrev MgmtServes (s : State) : Prop :=
  s.life.power = .running ∧ s.mgmt.long = none ∧ s.mgmt.writing = false ∧ s.mgmt.backlog = []

/-- An SPDM request is served, inside a session if one is named (R442, R444). -/
def SpdmServes (session : Option Nat) (s : State) : Prop :=
  MgmtServes s ∧ s.mgmt.spdm = .negotiated ∧ ∀ i, session = some i → established s i = true

/-- A request of the port has been answered at once with a message (R437). -/
def Answered (m : List Byte) (s t : State) : Prop :=
  t.mgmt.portResponse = m ∧ t.mgmt.served = min (s.mgmt.served + 1) (2 ^ 32 - 1) ∧ t.mgmt.long = none

/-- A request of the port runs as a long operation, with the message it will be answered with, within a bound in µs (R441). -/
def AnsweredLater (m : List Byte) (bound : Nat) (s t : State) : Prop :=
  ∃ l, t.mgmt.long = some l ∧ l.source = .port ∧ l.response = m ∧ l.since = s.now ∧ l.bound = bound

/-- A control-space offset that lies in no block of R478. -/
def inNoBlock (off : Nat) : Bool :=
  !([(0x000000, 0x100000), (0x100000, 0x400000), (0x800000, 0x40000), (0xA00000, 0x10000), (0xB00000, 0x10000), (0xC00000, 0x20000),
     (0xD00000, 0x1000), (0xE00000, 0x30000), (0xF00000, 0x70000), (0x1000000, 0x60000), (0x1100000, 0x3000), (0x2000000, 0x200000),
     (0x2400000, 0x40000), (0x2600000, 0x8000), (0x2800000, 0x10000), (0x2900000, 0x2000)].any fun (b : Nat × Nat) =>
       decide (b.1 ≤ off ∧ off < b.1 + b.2))

end Sys2Proof
end

