-- ==== Sys2Proof/Certificates/Slice0/Obligations.lean ====
section
/-!
DEFINITION. Certificates/Slice0/Obligations.lean: what the provers are to prove about the model.
-/

section

open Sys2Proof Sys2Proof.Machine

/-! ### The block -/

/-- A step takes the command at the front of the queue and runs it on everything but the queue, whose rest stands. -/
def Obligations.StepRunsFrontCommand : Prop :=
  ∀ (c : Instr) (rest : List Instr) (s : State), step { s with pending := c :: rest } = exec c { s with pending := rest }

/-- The model's own choice (log 2): on an empty queue a step is one nanosecond. Only the clock and the Genpex block move; FABRIC_TIME counts
by one once it counts, unless it is being slewed. -/
def Obligations.EmptyQueueIsOneNanosecond : Prop :=
  ∀ s : State, s.pending = [] → ∃ t, step s = .next t ∧ t = { s with now := s.now + 1, fabric := t.fabric } ∧
    (s.fabric.counting = false → t.fabric = s.fabric) ∧
    (s.fabric.counting = true → s.fabric.slew = 0 → t.fabric = { s.fabric with time := (s.fabric.time + 1) % 2 ^ 64 })

/-- What a cold start's Reset column gives some registers (R12): no record written and none read, GROVE_SLEEP_US 200, LOAD_TIMEOUT_US 100;
the module has no power and nothing pends, and the state is sound. The memories list nothing, which reads as zero by the model's choice (log
3). -/
def Obligations.ResetIsSound : Prop :=
  Sound State.reset.part State.reset ∧ State.reset.pending = [] ∧ State.reset.err.written = 0 ∧ State.reset.err.read = 0 ∧
    State.reset.power.sleepUs = 200 ∧ State.reset.fabric.loadTimeoutUs = 100 ∧ State.reset.life.power = .off ∧
    ∀ a, memGet State.reset.mem a = 0

/-- The invariant of the whole block: whatever command a step takes, and on an empty queue too, memory and scratch stay in canonical form,
the record queue never holds more than 1,024 unread records nor fewer than none (R452, R453), and the part stays the part. -/
def Obligations.StepKeepsSound : Prop :=
  ∀ (p : Part) (s t : State), Sound p s → step s = .next t → Sound p t

/-! ### Error records (chapter 18) -/

/-- A record of any class but CORRECTED, with room in the queue, becomes record ERR_WRITTEN with its class, the fabric time, the NESTED flag
of R456 and, if its detector's injection point has fired, INJECTED; ERR_WRITTEN rises by one; no unread record is overwritten; nothing but
the error block changes, and port 71, being UP, sends it as one more row (R450, R452, R465, R473). A record of a grove that has lost its HUB
is not delivered and changes nothing. ERR_READ: a value between the present ERR_READ and ERR_WRITTEN takes effect, any other write is
ignored (R455). ACK ends the handling once ERR_READ has passed the fatal record, at once for a fatal record that was lost, and is ignored
before (R457). Completes: ERR_READ, ACK. -/
def Obligations.RecordsQueueAndAreRead : Prop :=
  (∀ (e : ErrRecord) (s : State),
     (undelivered s e = true → report e s = s) ∧
     (undelivered s e = false → e.code ≠ 0 → classOf e.code ≠ .corrected → QueueBounded s → queueFull s.err = false →
       let w : ErrRecord := { e with
         cls := classOf e.code, time := BitVec.ofNat 64 s.fabric.time, timeUnsync := timeUnsyncFlag s.fabric
         injected := e.injected || s.err.firing == some e.code }
       let t := report e s
       OnlyRecords s t ∧ t.err.written = s.err.written + 1 ∧ t.err.read = s.err.read ∧
         recordAt t.err s.err.written = { w with nested := nestedFlag s.err w } ∧
         (∀ n, s.err.read ≤ n → n < s.err.written → recordAt t.err n = recordAt s.err n) ∧
         (maintUp s = false → t.fabric = s.fabric ∧ t.err.maintRows = s.err.maintRows) ∧
         (maintUp s = true → (t.fabric.ports.get {} 71).sent = (s.fabric.ports.get {} 71).sent + 1 ∧
           t.err.maintRows = s.err.maintRows ++ [maintRow 0 (recordBytes (recordAt t.err s.err.written))]))) ∧
  ((∀ (v : W64) (s : State), s.err.read < v.toNat → v.toNat ≤ s.err.written → s.err.lost.none = true →
     exec (.errRead v) s = .next { s with err := { s.err with read := v.toNat } }) ∧
   (∀ (v : W64) (s : State), v.toNat ≤ s.err.read ∨ s.err.written < v.toNat → exec (.errRead v) s = .next s) ∧
   (∀ s : State, s.err.fatalActive = true → (∀ n, s.err.fatalRecord = some n → n < s.err.read) →
     exec .ack s = .next { s with err := { s.err with fatalActive := false, fatalRecord := none } }) ∧
   (∀ (s : State) (n : Nat), s.err.fatalRecord = some n → s.err.read ≤ n → exec .ack s = .next s))

/-- R453: while 1,024 records are unread no record is written: it is counted in LOST and in its class; a fatal error that finds the queue
full still starts its handling and ERR_FATAL shows it. Once ERR_READ has advanced, the module first writes one 0x9301 record with the counts
of what was lost, by class, and forgets them. A CORRECTED record that R454 suppresses and one that R452 leaves undelivered are not of these;
a fence that would exhaust a unit generation resets the module instead (R32); of the module-scope action no task is issued when it begins.
-/
def Obligations.FullQueueCountsLost : Prop :=
  (∀ (e : ErrRecord) (s : State), queueFull s.err = true → undelivered s e = false →
    let x := (s.err.suppressed.find? (Suppression.isOf e)).getD ⟨e.code, e.source, [], 0⟩
    classOf e.code ≠ .corrected ∨ (x.written.filter fun t => decide (s.now < t + 1000000)).length < 16 →
    report e s = { s with err := { s.err with
      firing := if s.err.firing = some e.code then none else s.err.firing
      lostTotal := min (s.err.lostTotal + 1) (2 ^ 32 - 1), lost := s.err.lost.bump (classOf e.code) } }) ∧
  (∀ (scope : FatalScope) (e : ErrRecord) (s : State), queueFull s.err = true → s.err.fatalActive = false →
    (∀ n, genExhausted s n = false) → (scope = .module → s.tasks.all (fun t => !t.running) = true) → let t := raiseFatal scope e s
    t.err.fatalActive = true ∧ t.err.fatalCode = e.code ∧ t.err.fatalScope = scope ∧ t.err.written = s.err.written) ∧
  (∀ (v : W64) (s : State), QueueBounded s → s.err.read < v.toNat → v.toNat ≤ s.err.written → s.err.lost.none = false →
    ∃ t, exec (.errRead v) s = .next t ∧ OnlyRecords s t ∧ t.err.read = v.toNat ∧ t.err.lost = {} ∧
      t.err.written = s.err.written + 1 ∧ (recordAt t.err s.err.written).code = 0x9301 ∧
      (recordAt t.err s.err.written).detail0 = BitVec.ofNat 64 (min s.err.lost.info 0xFFFF + min s.err.lost.corrected 0xFFFF * 2 ^ 16 +
        min s.err.lost.failure 0xFFFF * 2 ^ 32 + min s.err.lost.fatal 0xFFFF * 2 ^ 48))

/-- R454: with 16 CORRECTED records of one CODE and SOURCE written in the last 1 ms the next is suppressed and counted; with fewer, and
room, it is written and carries the count in REPEATS, saturating. -/
def Obligations.CorrectedRecordsLimited : Prop :=
  ∀ (e : ErrRecord) (s : State), e.code ≠ 0 → classOf e.code = .corrected → undelivered s e = false →
    let x := (s.err.suppressed.find? (Suppression.isOf e)).getD ⟨e.code, e.source, [], 0⟩
    let recent := (x.written.filter fun t => decide (s.now < t + 1000000)).length
    (16 ≤ recent → (report e s).err.written = s.err.written ∧ (report e s).err.queue = s.err.queue ∧
      ((report e s).err.suppressed.find? (Suppression.isOf e)).map (·.count) = some (x.count + 1)) ∧
    (recent < 16 → queueFull s.err = false → (report e s).err.written = s.err.written + 1 ∧
      (recordAt (report e s).err s.err.written).repeats = BitVec.ofNat 32 (min x.count (2 ^ 32 - 1)))

/-- Detectors of single lines: an operand cache line in error is dropped with record 0x3902, a system cache line with 0x9304, each at the
line's address; nothing else changes (R451). A Landing state error is fatal 0x9303 with the module as its scope (R457, R458): with no task
issued, its record is written, handling begins, every ring of a partition that is not being reset faults, the keys of sealed contexts and
the cord keys are gone, and ports that are UP wait for a key. That a ring under reset keeps its state and that only ports that are UP wait
is the model's reading (log 67). Completes: OPCACHE_LINE_ERROR, SYSTEM_CACHE_LINE_ERROR, LANDING_STATE_ERROR. -/
def Obligations.DetectedErrorsAct : Prop :=
  ((∀ (g line : Nat) (s : State), (∃ l ∈ s.opLines, l.grove = g ∧ l.line = line) →
     exec (.opcacheLineError g line) s =
       .next (report { code := 0x3902, source := srcGrove s g, address := BitVec.ofNat 64 (line * 512) }
         { s with opLines := s.opLines.filter fun l => !(l.grove == g && l.line == line) })) ∧
   (∀ (pa : Nat) (s : State), inService s = true →
     exec (.systemCacheLineError pa) s =
       .next (report { code := 0x9304, source := srcModule s, address := BitVec.ofNat 64 (pa / 512 * 512) }
         { s with landing := { s.landing with systemCache := s.landing.systemCache.filter fun c => c != pa / 512 } }))) ∧
  (∀ s : State, inService s = true → QueueBounded s → queueFull s.err = false → s.err.fatalActive = false →
     (s.tasks.all fun t => !t.running) = true →
     ∃ t, exec .landingStateError s = .next t ∧ (recordAt t.err s.err.written).code = 0x9303 ∧
       (recordAt t.err s.err.written).cls = .fatal ∧ t.err.fatalActive = true ∧ t.err.fatalCode = 0x9303 ∧
       t.err.fatalRecord = some s.err.written ∧ t.err.moduleStopped = true ∧ t.fabric.keys = [] ∧
       (∀ c ∈ t.stakes.sealedContexts, c.key = none) ∧
       (∀ r, r < 1024 → (ringPartition s r).isSome = true → (ringOf s r).status ≠ .resetting → (ringOf t r).status = .faulted) ∧
       (∀ x ∈ t.fabric.ports.cells, x.2.state ≠ .up) ∧
       t.mem = s.mem ∧ t.scratch = s.scratch ∧ t.tasks = s.tasks)

/-- A 0x3901 record requests a grove reset of its grove, unless it would be the third error-requested one within 60 s: then the module does
not reset the grove but writes 0x9305, and the grove is fenced (unless a unit generation is exhausted, which resets the module, R32); a
reset that software requests leaves the count of the three (R461). Where no reset would be taken up (start not complete, the grove under
reset or fenced: R91, R458) only the record is written, and it counts for nothing: the model's reading (log 66). That the grove is SOURCE of
0x9305 is the model's too (log 59). Completes: TALLY_STATE_ERROR. -/
def Obligations.TallyStateErrorEscalates : Prop :=
  ∀ (g : Nat) (s : State), inService s = true → g < 4 →
    let r := report { code := 0x3901, source := srcGrove s g } s
    let recent := s.err.groveResets.filter fun e => decide (s.now < e.2 + 60000000000)
    (groveResetTaken s g = false → exec (.tallyStateError g) s = .next r) ∧
    (groveResetTaken s g = true → (recent.filter fun e => e.1 == g).length < 2 → exec (.tallyStateError g) s =
      .next (requestGroveReset g { r with err := { r.err with groveResets := (g, s.now) :: recent } })) ∧
    (groveResetTaken s g = true → 2 ≤ (recent.filter fun e => e.1 == g).length →
      exec (.tallyStateError g) s = .next (raiseFatal (.grove g) { code := 0x9305, source := srcGrove s g } r) ∧
      (s.err.fatalActive = false → (∀ n, genExhausted s n = false) →
        (raiseFatal (.grove g) { code := 0x9305, source := srcGrove s g } r).err.fenced.contains g = true)) ∧
    ((grovesBenches g).any (genExhausted s) = false →
      ∃ t, exec (.groveResetRequest g) s = .next t ∧ t.err.groveResets = s.err.groveResets)

/-- Injection slots (R464): ARM by a permitted requester arms a slot whose locator has the form of its code, whose COUNT is not 0 and whose
address is not sealed, with FIRED and RESULT zero; it refuses with 0x9311 a bad locator or COUNT and with 0x9312 an address of sealed data;
DISARM frees it and keeps FIRED. The command stands for a write by a permitted requester (log 59). The array scan (R469): GO asks Boom for 6
quanta for the bench of the place that DIAG_LOCATOR names, an idle or quarantined one, and runs; a locator of no bench, an active or standby
bench, and a bench of a grove under reset or fenced are refused with 0x9314 (active and standby by the model's reading, log 42). ABORT of a
running scan returns the quanta and the state to idle. Where no injection point is armed, a scan that found nothing passes, and DIAG_FIRST
is then a free value (log 4); one that found failing cells fails with their number and the first. Completes: INJECTION_ARM,
INJECTION_DISARM, GO, ABORT, DIAG_SCAN_DONE. -/
def Obligations.DiagnosticsRun : Prop :=
  (∀ (k : Nat) (s : State), inService s = true → k < 16 → mayInject s false = true →
     (let x := s.err.inj.get {} k
      (locatorForm s x.code.toNat x.locator.toNat = true → x.count ≠ 0 →
         (addressPoint x.code.toNat && sealedData s x.locator.toNat) = false →
         exec (.injectionArm k 1) s = .next (updSlot k (fun y => { y with state := .armed, fired := 0, result := 0 }) s)) ∧
      (locatorForm s x.code.toNat x.locator.toNat = true → x.count ≠ 0 →
         (addressPoint x.code.toNat && sealedData s x.locator.toNat) = true →
         exec (.injectionArm k 1) s = .next (updSlot k (fun y => { y with state := .refused, fired := 0, result := 0x9312 }) s)) ∧
      (locatorForm s x.code.toNat x.locator.toNat = false ∨ x.count = 0 →
         exec (.injectionArm k 1) s = .next (updSlot k (fun y => { y with state := .refused, fired := 0, result := 0x9311 }) s))) ∧
     exec (.injectionDisarm k) s = .next (updSlot k (fun y => { y with state := .free }) s)) ∧
  ((∀ (s : State) (n : Nat), inService s = true → s.err.diagState ≠ .running →
     (locatorPlace s s.err.diagLocator.toNat).bind placeBench = some n →
     ((roleOf s n).state = .idle ∨ (roleOf s n).state = .quarantined) → groveIneligible s (benchGrove n) = false →
     ∃ t, exec (.go 1) s = .next t ∧ t = { s with power := t.power, err := t.err } ∧ t.err.diagState = .running ∧ t.err.diagCode = 0 ∧
       t.err.diagFails = 0 ∧ t.err.scanLocator = s.err.diagLocator ∧
       t.power.requests = s.power.requests ++ [{ bench := n, kind := .fresh, quanta := 6, since := s.now }]) ∧
   (∀ s : State, inService s = true → s.err.diagState ≠ .running →
     (∀ n, (locatorPlace s s.err.diagLocator.toNat).bind placeBench = some n →
       (roleOf s n).state = .active ∨ (roleOf s n).state = .standby ∨ groveIneligible s (benchGrove n) = true) →
     exec (.go 1) s = .next { s with err := { s.err with scanLocator := s.err.diagLocator, diagState := .idle, diagCode := 0x9314 } }) ∧
   (∀ (s : State) (n : Nat), s.err.diagState = .running → (scanPlace s).bind placeBench = some n →
     exec .abort s = .next { s with power := returnQuanta s.now n s.power, err := { s.err with diagState := .idle } }) ∧
   (∀ (s : State) (u : UnitPlace) (n fails : Nat) (first : W64), s.err.diagState = .running → scanPlace s = some u → placeBench u = some n →
     scanRuns s n = true → s.err.inj.cells = [] →
     exec (.diagScanDone fails first) s = .next (if fails = 0 then
       { s with
         freeCount := s.freeCount + 1, power := returnQuanta s.now n s.power
         err := { s.err with diagState := .passed, diagFails := 0, diagFirst := Config.freeWord s.freeCount } }
       else
       { s with
         power := returnQuanta s.now n s.power
         err := { s.err with diagState := .failed, diagFails := min fails 0xFFFF, diagFirst := first } })))

/-- Scaler (R470–R472): ARM of an idle channel with a good configuration clears its statistics and arms it, and a channel whose start has
come runs; SC_START starts an armed one; SC_STOP and ABORT end a capture with its bit in SCALER_DONE; a refused ARM sets REFUSED. A sample
of a running channel before its stop (R470, R471), of any source but 17 and where one is due: the command's value for an event source, what
the module holds for a level source that it holds, else the command's (log 93). The first sets MIN and MAX, every one moves them, COUNT and
SUM saturate at 2^64 − 1, its bin is counted; a sample within 2 ns of the last is dropped and counted. Completes: SCALER_ARM, SCALER_ABORT,
SCALER_CAPTURE_START, SCALER_CAPTURE_STOP, SCALER_SAMPLE. -/
def Obligations.ScalerChannelsCapture : Prop :=
  ((∀ (ch : Nat) (s : State), inService s = true → ch < 16 → (channelOf s ch).busy = false →
     armRefused s.fabric.time (channelOf s ch) = true →
     exec (.scalerArm ch 1) s = .next (updChannel ch (fun c => { c with refused := true }) s)) ∧
   (∀ (ch : Nat) (s : State), inService s = true → ch < 16 → (channelOf s ch).busy = false →
     armRefused s.fabric.time (channelOf s ch) = false → s.fabric.time < (channelOf s ch).start →
     exec (.scalerArm ch 1) s = .next (updChannel ch (fun c => { c with
       state := .armed, refused := false, dropped := 0, min := 0, max := 0, count := 0, sum := 0, bins := {}, lastSample := none
       unsync := false }) s)) ∧
   (∀ (ch : Nat) (s : State), inService s = true → ch < 16 → (channelOf s ch).busy = false →
     armRefused s.fabric.time (channelOf s ch) = false → (channelOf s ch).start ≤ s.fabric.time →
     exec (.scalerArm ch 1) s = .next (updChannel ch (fun c => { c with
       state := .running, refused := false, dropped := 0, min := 0, max := 0, count := 0, sum := 0, bins := {}, lastSample := none
       unsync := timeUnsyncFlag s.fabric }) s)) ∧
   (∀ (ch : Nat) (s : State), (channelOf s ch).state = .armed →
     exec (.scalerCaptureStart ch) s = .next (updChannel ch (fun c => { c with state := .running, unsync := timeUnsyncFlag s.fabric }) s)) ∧
   (∀ (ch : Nat) (s : State), ch < 16 → (channelOf s ch).state = .armed ∨ (channelOf s ch).state = .running →
     let t : State := { s with scaler := { s.scaler with
       channels := s.scaler.channels.update {} ch fun c => { c with state := .done }, done := s.scaler.done ||| BitVec.ofNat 16 (2 ^ ch) } }
     exec (.scalerCaptureStop ch) s = .next t ∧ exec (.scalerAbort ch) s = .next t)) ∧
  (∀ (ch v : Nat) (s : State), let c := channelOf s ch
     let w := (levelValue s c).getD v % 2 ^ 64
     ((sourceOf c.source).1 = false → levelValue s c = none) ∧
     (c.state = .running → c.source ≠ 17 → s.fabric.time < c.stop → sampleDue s c = true →
     ∃ t, exec (.scalerSample ch v) s = .next t ∧ t = { s with scaler := { s.scaler with channels := t.scaler.channels } } ∧
       ((∀ x, c.lastSample = some x → x + 2 ≤ s.now) →
         (channelOf t ch).min = (if c.count = 0 then w else min c.min w) ∧ (channelOf t ch).max = max c.max w ∧
         (channelOf t ch).count = min (c.count + 1) (2 ^ 64 - 1) ∧ (channelOf t ch).sum = min (c.sum + w) (2 ^ 64 - 1) ∧
         (channelOf t ch).bins = c.bins.update 0 (binOf c w) (fun n => min (n + 1) (2 ^ 64 - 1)) ∧ (channelOf t ch).lastSample = some s.now) ∧
       (∀ x, c.lastSample = some x → s.now < x + 2 → channelOf t ch = { c with dropped := min (c.dropped + 1) (2 ^ 32 - 1) })))

/-! ### Start, reset, power (chapters 03 and 04) -/

/-- COLD_START of an unpowered module, WARM_RESET_RESUME of one that stands in a warm reset, and BROWN_OUT_RESTART of one that waits for its
input, or has lost it, each begin a start on blank stores, with the dies that the part's order code fits (R5, R76, R89, R90; what the sites
of a part show is the model's choice, log 77). A MODULE_RESET_N that is low then makes a cold start a module warm reset, and holds the
restart after a brown-out in one (R89, R90, R500). A start whose record is valid, whose last image was confirmed and whose dies are found
increments START_COUNT, writes the record, and runs the image of the slot it tries first when that passes every check: PENDING_SLOT on
trial, else ACTIVE_SLOT (R47, R65, R67). The common feature level that it checks is that of the groves found (R80). Completes: COLD_START,
WARM_RESET_RESUME, BROWN_OUT_RESTART. -/
def Obligations.StartsRunTheFirstGoodImage : Prop :=
  ((∀ (inp : StartInputs) (s : State), s.life.power = .off → inp.resetLow = true →
     ∃ t, exec (.coldStart inp) s = .next t ∧ t.life.power = .warmReset ∧ t.life.keptCause = some 0x120A ∧ t.life.resetPinHigh = none) ∧
   (∀ (inp : StartInputs) (s : State), s.life.power = .brownOut → s.life.resetPinHigh = none →
     ∃ t, exec (.brownOutRestart inp) s = .next t ∧ t.life.power = .warmReset ∧ t.life.keptCause = some 0x120D ∧ t.life.resetPinHigh = none) ∧
   (∀ (inp : StartInputs) (s : State), s.life.power = .off → inp.resetLow = false →
     ∃ s0, exec (.coldStart inp) s = .next (startFrom (fitInputs s.part inp) s0) ∧ BlankStart inp false s s0 ∧ s0.err = {} ∧
       s0.power.energy = 0 ∧ exec (.brownOutRestart inp) s = .next (startFrom (fitInputs s.part inp) s0)) ∧
   (∀ (inp : StartInputs) (s : State), s.life.power = .warmReset →
     ∃ s0, exec (.warmResetResume inp) s = .next (startFrom (fitInputs s.part inp) s0) ∧ BlankStart inp true s s0 ∧
       s0.life.keptCause = s.life.keptCause ∧ s0.power.energy = s.power.energy) ∧
   (∀ (inp : StartInputs) (s : State), s.life.power = .brownOut → s.life.resetPinHigh ≠ none →
     ∃ s0, exec (.brownOutRestart inp) s = .next (startFrom (fitInputs s.part inp) s0) ∧ BlankStart inp true s s0 ∧
       s0.life.keptCause = some 0x120D) ∧
   (∀ (p : Part) (inp : StartInputs), (p.orderCode = 0 → ∀ x ∈ (fitInputs p inp).sites, x.present = false) ∧
     (p.orderCode = 1 → ∀ x ∈ (fitInputs p inp).sites, x.vendor = p.vendor ∧ x.device = 0x0E01) ∧
     { fitInputs p inp with sites := inp.sites } = inp)) ∧
  (∀ (inp : StartInputs) (s : State) (r : StartRecord), newestRecord s.boot = some r → r.trial = false → s.err.injStart = 0 →
     inp.flashAnswers = true → discoveryFailure s.part inp 0 = 0 → r.sequence < 2 ^ 32 - 3 →
     let b := writeRecord { r with startCount := r.startCount + 1 } s.boot
     let k := r.pendingSlot.getD r.activeSlot
     let v := validateSlot b s.part (commonLevel (featureWords s.part inp)) inp.sites k
     v.code = 0 →
     ∃ t, startFrom inp s = runImage inp v.settings t ∧ startCount t = r.startCount + 1 ∧
       (newestRecord t.boot).map (·.runningSlot) = some (some k) ∧
       (newestRecord t.boot).map (·.trial) = some r.pendingSlot.isSome ∧ (newestRecord t.boot).map (·.pendingSlot) = some none ∧
       t.life.common = commonLevel (featureWords s.part inp) ∧ t.mem = s.mem ∧ t.fabric = s.fabric ∧ t.err = s.err)

/-- A module warm reset by MODULE_RESET_N (R88, R89): the cause 0x120A is kept, the module stands at step 6, everything outside the always-
on domain, the boot flash and the flash tier is gone; a reset under way keeps its cause. Input voltage (R90, R492): between 12.0 V and 19.5
V a module takes steps 1–5 and waits, but in the hold and trip states, which only a cold start, MODULE_RESET_N or the command ends (R68,
R409; the model's reading, log 57); that POWER_LOSS leaves what the boot flash holds of a staging session to the cold start that ends it is
its choice (log 8); below 12.0 V, as at POWER_LOSS, the always-on domain is lost and only fuses, boot flash and flash tier stay; at 19.5 V
and above the voltage is noted. Outside the input range nothing is characterised (R9, R490): above 26.4 V the four commands that give a
voltage stop, by the model's choice (log 13). Completes: MODULE_RESET_N_RECOGNISED, INPUT_BROWN_OUT, POWER_LOSS. -/
def Obligations.ResetsAndInputLossClear : Prop :=
  ((∀ s : State, s.life.power = .running ∨ s.life.power = .starting ∨ s.life.power = .hold ∨ s.life.power = .trip →
     ∃ t, exec .moduleResetNRecognised s = .next t ∧ t.life.power = .warmReset ∧ t.life.keptCause = some 0x120A ∧
       t.life.resetPinHigh = none ∧ (∀ a, a < flashBase → memGet t.mem a = 0) ∧ (∀ a, flashBase ≤ a → memGet t.mem a = memGet s.mem a) ∧
       t.scratch = {} ∧ t.benches = {} ∧ t.rings = {} ∧ t.tasks = [] ∧ t.decks = {} ∧ t.tier.objects = {} ∧ t.stakes = {} ∧
       t.landing = {} ∧ t.mgmt = {} ∧ t.fabric = {} ∧ t.scaler = {} ∧ t.err.written = 0 ∧ t.err.injStart = s.err.injStart ∧
       t.power.energy = s.power.energy ∧ t.part = s.part ∧ t.boot.revoked = s.boot.revoked ∧ t.boot.minVersion = s.boot.minVersion) ∧
   (∀ s : State, s.life.power = .warmReset ∨ s.life.power = .brownOut →
     exec .moduleResetNRecognised s = .next { s with life := { s.life with resetPinHigh := none } })) ∧
  ((∀ (mv : Nat) (s : State), s.life.power ≠ .off → s.life.power ≠ .trip → s.life.power ≠ .hold → 12000 ≤ mv → mv < 19500 →
     ∃ t, exec (.inputBrownOut mv) s = .next t ∧ t.life.power = .brownOut ∧ t.life.inputMv = mv ∧ t.power.vIn = mv / 10 ∧
       (∀ a, a < flashBase → memGet t.mem a = 0) ∧ (∀ a, flashBase ≤ a → memGet t.mem a = memGet s.mem a) ∧ t.scratch = {} ∧ t.tasks = [] ∧
       t.power.energy = s.power.energy ∧ t.part = s.part) ∧
   (∀ (mv : Nat) (s : State), s.life.power ≠ .off → 19500 ≤ mv ∨ ((s.life.power = .trip ∨ s.life.power = .hold) ∧ 12000 ≤ mv) →
     mv ≤ 26400 →
     exec (.inputBrownOut mv) s = .next { s with
       life := { s.life with inputMv := mv }, power := { s.power with vIn := mv / 10 } }) ∧
   (∀ s : State, ∃ t, exec .powerLoss s = .next t ∧ (s.life.power ≠ .off → ∀ mv, mv < 12000 → exec (.inputBrownOut mv) s = .next t) ∧
       t.life.power = .off ∧ t.life.alwaysOn = false ∧ t.boot = s.boot ∧ t.part = s.part ∧ (∀ a, a < flashBase → memGet t.mem a = 0) ∧
       (∀ a, flashBase ≤ a → memGet t.mem a = memGet s.mem a) ∧ t.scratch = {} ∧ t.tasks = [] ∧ t.rings = {} ∧ t.err = {} ∧
       t.power.energy = 0)) ∧
  (∀ (mv : Nat) (x : PowerSample) (s : State), 26400 < mv → x.inputMv = mv →
     exec (.inputBrownOut mv) s = .fault .notCharacterised ∧ exec (.inputLowLimit mv) s = .fault .notCharacterised ∧
     exec (.inputLowLimitEnd mv) s = .fault .notCharacterised ∧ exec (.estimateSample x) s = .fault .notCharacterised)

/-! ### Roles, epochs, grove resets (chapters 02 and 04) -/

/-- R33: the target bench compares a unit message's epoch with its own once, before it writes any byte; when they are equal it writes all of
it, and no other byte of scratch changes; when they differ it writes nothing and a stale-epoch notice goes back to the sender with the
holder, the epochs and the state of R35: to another module as the answer, to a task of this module as its failure, to a hart of this module
as the record 0x1401 with its context and address. The bench is one of a partition, and window 255 admits the sender (R26, R374). Completes:
UNIT_MESSAGE. -/
def Obligations.UnitMessageChecksEpoch : Prop :=
  ∀ (m : UnitMsg) (n : Nat) (s : State), inService s = true → m.data.length ≤ 65536 → m.offset + m.data.length ≤ scratchSize →
    unitBench s m.target = .ok n → (roleOf s n).partition ≠ none →
    let own : Prop := m.origin = 0xFFFF ∨ m.origin = moduleIndex s
    let sender := if m.origin = 0xFFFF then moduleIndex s else m.origin
    let d := staleDetails s n m.epoch
    (epochOf s n = m.epoch → unitRefusal s sender false = none → ∃ t, exec (.unitMessage m) s = .next t ∧
      memRead t.scratch (n * scratchSize + m.offset) m.data.length = m.data ∧
      (∀ a, a < n * scratchSize + m.offset ∨ n * scratchSize + m.offset + m.data.length ≤ a → memGet t.scratch a = memGet s.scratch a) ∧
      (¬own → t = countArrival 255 m.data.length false { s with scratch := t.scratch })) ∧
    (epochOf s n ≠ m.epoch →
      (¬own → ∃ t, exec (.unitMessage m) s = .next t ∧ t = { s with fabric := { s.fabric with answer := t.fabric.answer } } ∧
        t.fabric.answer = some ⟨m.origin, 0x1401, bytesOfNat 8 d.1 ++ bytesOfNat 8 d.2.1 ++ bytesOfNat 4 d.2.2⟩) ∧
      (∀ (h pa : Nat), own → m.task = none → m.hart = some (h, pa) → exec (.unitMessage m) s = .next (report
        { code := 0x1401, source := srcModule s, address := BitVec.ofNat 64 pa, context := BitVec.ofNat 16 (hartContextOf s h)
          detail0 := BitVec.ofNat 64 d.1, detail1 := BitVec.ofNat 64 d.2.1, detail2 := BitVec.ofNat 32 d.2.2 } s)) ∧
      (∀ (r q : Nat) (t0 : Task), own → m.task = some (r, q) → findTask s r q = some t0 → t0.phase = .issued →
        exec (.unitMessage m) s = .next (failTask t0 0x1401 s 0 d.1 d.2.1 d.2.2)))

/-- A stale-epoch notice reaches the task that sent the message: the transfer is gone and the task, still issued, fails with 0x1401 and the
notice's details (R35, R36), and its ring keeps the loss for the next BARRIER (R244; the model's reading, log 88); an advance that is due
takes effect, one at a time (R31), and one beyond 0xFFFF resets the module with 0x1404 (R32). Unit messages beside R33's: a bench in no
partition, which accepts no message (R26), drops every one with the notice: the model's choice (log 74); that window 255's tally counts
messages of this module too is its reading (log 23), and what it does with one of no task and no hart. What window 255 does not admit, and a
message whose target is no bench of this module, is rejected with its code (R25, R374, R377). BENCH_QUARANTINE of an active bench with
nothing running (R29, R92, R449): the bench is quarantined and its role goes to the standby bench R29 picks, if there is one; both owe an
epoch advance; the bench's scratch reads zero and no other byte changes; record 0x1211 names the bench with cause 0. The SOURCE of the
record and the list of the role's changes are the model's reading (logs 24, 59). Completes: EPOCH_ADVANCE, STALE_EPOCH_NOTICE, UNIT_MESSAGE,
BENCH_QUARANTINE. -/
def Obligations.EpochsAndRolesMove : Prop :=
  ((∀ (n : StaleNotice) (x : Transfer) (r : Nat) (t0 : Task) (s : State), findTransfer s n.transfer = some x → x.state ≠ .leaving →
     x.ring = some r → findTask s r x.seq = some t0 → t0.phase = .issued →
     (s.tasks.all fun t => !(t.ring == r && t.header.type == .barrier && t.running && decide (x.seq < t.seq))) = true →
     exec (.staleEpochNotice n) s =
       .next (failTask t0 0x1401 (updRing r (fun q => { q with lost := q.lost ++ [(x.seq, 0x1401, x.handle)] }) (dropTransfer x.id s))
         0 n.holder.toNat (n.present * 2 ^ 32 + n.holderEpoch) n.state)) ∧
   (∀ (n : Nat) (s : State), 0 < (roleOf s n).advances → 0xFFFF ≤ (roleOf s n).unitGen →
     exec (.epochAdvance n) s = .next (beginWarmReset 0x1404 s)) ∧
   (∀ (n : Nat) (s : State), 0 < (roleOf s n).advances → (roleOf s n).unitGen < 0xFFFF →
     exec (.epochAdvance n) s = .next (updRole n (fun e => { e with unitGen := e.unitGen + 1, advances := e.advances - 1 }) s) ∧
     epochOf (updRole n (fun e => { e with unitGen := e.unitGen + 1, advances := e.advances - 1 }) s) n = epochOf s n + 1)) ∧
  (∀ (m : UnitMsg) (s : State), inService s = true → m.data.length ≤ 65536 → m.offset + m.data.length ≤ scratchSize →
     let own : Prop := m.origin = 0xFFFF ∨ m.origin = moduleIndex s
     let sender := if m.origin = 0xFFFF then moduleIndex s else m.origin
     let refused (c : W16) : Prop :=
       (¬own → exec (.unitMessage m) s = .next { s with fabric := { s.fabric with answer := some ⟨m.origin, c, []⟩ } }) ∧
       (∀ (r q : Nat) (t0 : Task), own → m.task = some (r, q) → findTask s r q = some t0 → t0.phase = .issued →
         exec (.unitMessage m) s = .next (failTask t0 c s))
     (∀ n, unitBench s m.target = .ok n →
       let d := staleDetails s n m.epoch
       (epochOf s n = m.epoch → (roleOf s n).partition ≠ none → own → unitRefusal s sender false = none →
         ∃ t, exec (.unitMessage m) s = .next t ∧ t = countArrival 255 m.data.length false { s with scratch := t.scratch }) ∧
       (∀ c, epochOf s n = m.epoch → (roleOf s n).partition ≠ none → unitRefusal s sender false = some c → refused c) ∧
       ((roleOf s n).partition = none → ¬own → ∃ t, exec (.unitMessage m) s = .next t ∧
         t = { s with fabric := { s.fabric with answer := t.fabric.answer } } ∧
         t.fabric.answer = some ⟨m.origin, 0x1401, bytesOfNat 8 d.1 ++ bytesOfNat 8 d.2.1 ++ bytesOfNat 4 d.2.2⟩) ∧
       (epochOf s n ≠ m.epoch ∨ (roleOf s n).partition = none → own → m.task = none → m.hart = none → exec (.unitMessage m) s = .next (report
         { code := 0x1401, source := srcModule s, detail0 := BitVec.ofNat 64 d.1, detail1 := BitVec.ofNat 64 d.2.1
           detail2 := BitVec.ofNat 32 d.2.2 } s))) ∧
     (∀ c, unitBench s m.target = .error c → refused c)) ∧
  (∀ (g b : Nat) (s : State), inService s = true → g < 4 → b < 128 → QueueBounded s → queueFull s.err = false →
     let n := 128 * g + b
     (roleOf s n).state = .active → (roleOf s n).role ≠ none → (s.groveResets.get {} g).busy = false → quarantineExhausts s n = false →
     runningOn s n = [] →
     ∃ t, exec (.benchQuarantine g b) s = .next t ∧ (roleOf t n).state = .quarantined ∧ (roleOf t n).role = none ∧
       (roleOf t n).changes = ((roleOf s n).unitGen + (roleOf s n).advances + 1, none) :: (roleOf s n).changes ∧ (roleOf t n).advances = (roleOf s n).advances + 1 ∧
       (∀ m, standbyFor s n = some m → (roleOf t m).state = .active ∧ (roleOf t m).role = (roleOf s n).role ∧
         (roleOf t m).advances = (roleOf s m).advances + 1) ∧
       (recordAt t.err s.err.written).code = 0x1211 ∧ (recordAt t.err s.err.written).source = srcGrove s g ∧
       (recordAt t.err s.err.written).detail0 = (if b < 64 then BitVec.ofNat 64 (2 ^ b) else 0) ∧
       (recordAt t.err s.err.written).detail1 = (if b < 64 then 0 else BitVec.ofNat 64 (2 ^ (b - 64))) ∧
       (recordAt t.err s.err.written).detail2 = 0 ∧ t.mem = s.mem ∧ (∀ a, a / scratchSize = n → memGet t.scratch a = 0) ∧
       ∀ a, a / scratchSize ≠ n → memGet t.scratch a = memGet s.scratch a)

/-- A grove reset that is taken up (R91, R94): BUSY is set, every byte of the grove's bench scratch reads zero and no other byte of scratch
changes, its operand cache is empty and no invalidation of it waits, every bench of it owes an epoch advance (that the table's rows divide
R91's steps so is the model's reading, log 66); with no task of the grove at work memory stands, and the tasks of other groves with it, but
for the fence clocks that have started (R234). The end of a grove reset whose benches pass, with no quarantine held (R91): BUSY is cleared,
RESET_COUNT rises by one, and record 0x1210 is written; that its SOURCE is the grove is the model's reading (log 59). Completes:
GROVE_RESET_REQUEST, GROVE_RESET_COMPLETE. -/
def Obligations.GroveResetClearsItsGrove : Prop :=
  (∀ (g : Nat) (s : State), s.life.power = .running → g < 4 → (s.groveResets.get {} g).busy = false → s.err.fenced.contains g = false →
     (grovesBenches g).any (genExhausted s) = false → groveTasks s g = [] →
     ∃ t, exec (.groveResetRequest g) s = .next t ∧ (t.groveResets.get {} g).busy = true ∧ t.mem = s.mem ∧ t.tasks = (noteClocks s).tasks ∧
       (∀ a, benchGrove (a / scratchSize) = g → memGet t.scratch a = 0) ∧
       (∀ a, benchGrove (a / scratchSize) ≠ g → memGet t.scratch a = memGet s.scratch a) ∧
       (∀ l ∈ t.opLines, l.grove ≠ g) ∧ (t.opRegs.get {} g).waiting = [] ∧ (∀ n, n / 128 = g → (roleOf t n).advances = (roleOf s n).advances + 1) ∧
       (∀ n, n / 128 ≠ g → roleOf t n = roleOf s n)) ∧
  (∀ (g : Nat) (s : State), s.life.power = .running → (s.groveResets.get {} g).busy = true → (s.groveResets.get {} g).held = [] →
     exec (.groveResetComplete g []) s =
       .next (report { code := 0x1210, source := srcGrove s g }
         { s with groveResets := s.groveResets.update {} g fun y => { y with busy := false, count := (y.count + 1) % 2 ^ 32, held := [] } }))

/-! ### The Genpex fabric (chapters 04 and 15) -/

/-- Link setup (R364, R367): with the expected peer and SYSTEM_ID a training port comes UP when the key it sends under is installed and
waits for its key otherwise; with any other peer it goes DOWN with 0x7102. Stated while the module runs. The end of a start (R76, R83, R87):
2 s after step 15 every enabled port that has not trained is DOWN and the module runs; the last port to settle ends the start as well.
Completes: LINK_SETUP, PORT_TRAIN_TIMEOUT. -/
def Obligations.PortsComeUp : Prop :=
  (∀ (p : Nat) (x : LinkPeer) (c : Settings) (s : State), s.life.power = .running → s.cfg = some c → (portOf s p).state = .training →
     (x.systemId = c.systemId → peerExpected s p x = true → sendingEpoch s (receivingCord s p) = none →
       ∃ t, exec (.linkSetup p x) s = .next t ∧ (portOf t p).state = .keyWait ∧ (portOf t p).peer = x.module ∧
         (portOf t p).peerPort = x.port ∧ t.landing = { s.landing with portChanged := true } ∧
         (∀ q, q ≠ p → portOf t q = portOf s q) ∧ t.err = s.err ∧ t.mem = s.mem) ∧
     (∀ e, x.systemId = c.systemId → peerExpected s p x = true → sendingEpoch s (receivingCord s p) = some e →
       hasKey s (receivingCord s p) e = true → (portOf s p).wasUp = false →
       ∃ t, exec (.linkSetup p x) s = .next t ∧ (portOf t p).state = .up ∧ (portOf t p).keyEpoch = e ∧ (portOf t p).peer = x.module ∧
         (portOf t p).sent = (if p < 71 then 1 else 0) ∧ (portOf t p).taken = 0 ∧ (portOf t p).lastReceived = s.now ∧ t.err = s.err ∧
         (∀ q, q ≠ p → portOf t q = portOf s q)) ∧
     (x.systemId ≠ c.systemId ∨ peerExpected s p x = false → exec (.linkSetup p x) s = .next (portDown p 0x7102 false s) ∧
       (portOf (portDown p 0x7102 false s) p).state = .down ∧ (portOf (portDown p 0x7102 false s) p).code = 0x7102)) ∧
  ((∀ s : State, portsTrain s = true → ∃ t, exec .portTrainTimeout s = .next t ∧ t.life.power = .running ∧ t.life.stage = 0 ∧
     (∀ x ∈ t.fabric.ports.cells, x.2.state ≠ .training) ∧ t.mem = s.mem ∧ t.err = s.err ∧ t.rings = s.rings) ∧
   (∀ (p : Nat) (x : LinkPeer) (s : State), portsTrain s = true → (portOf s p).state ≠ .training →
     (∀ q, q < 72 → portSettled (portOf s q) = true) → exec (.linkSetup p x) s = .next (completeStart s) ∧
     (completeStart s).life.power = .running))

/-- Ports in service (R366): no frame for the receive timeout takes a port DOWN with 0x7101; a port that is DOWN trains again at its timer;
a keepalive is one frame, with its nonce; a replay counts the frames sent again. A frame of a write transfer that arrives in order, whole in
one frame, its tag good, at a window that admits it (R366, R367, R373, R374): its bytes, decrypted, stand at the window's base plus the
offset, its tally counts them, no other byte of memory changes but the tally's eight, and the origin is told of the completion. What memory
holds is stated of stakes that no key encrypts; the encryption of the others is SealedStakesAreEncrypted's. Completes: PORT_RECEIVE_TIMEOUT,
PORT_RETRAIN_TIMER, FRAME_KEEPALIVE, FRAME_REPLAY, DATA_FRAME_RECEIVE. -/
def Obligations.PortsCarryFrames : Prop :=
  ((∀ (p : Nat) (s : State), (portOf s p).state = .up → exec (.portReceiveTimeout p) s = .next (portDown p 0x7101 false s)) ∧
   (∀ (p : Nat) (s : State), (portOf s p).state = .down → exec (.portRetrainTimer p) s =
     .next (updPort p (fun q => { q with state := .training, attempts := q.attempts + 1 }) (notePort s))) ∧
   (∀ (p : Nat) (s : State), (portOf s p).state = .up → exec (.frameKeepalive p) s = .next (updPort p (fun q => { q with
     sent := q.sent + 1, lastSent := s.now, nonce0 := if q.keyEpoch = 0 then q.nonce0 + 1 else q.nonce0
     nonce1 := if q.keyEpoch = 1 then q.nonce1 + 1 else q.nonce1 }) s)) ∧
   (∀ (p k : Nat) (s : State), (portOf s p).state = .up → k < (portOf s p).sent → (portOf s p).sent ≤ k + 256 →
     exec (.frameReplay p k) s = .next (updPort p (fun q => { q with
       replays := min (q.replays + (q.sent - k)) (2 ^ 32 - 1), lastSent := s.now }) s))) ∧
  (∀ (p : Nat) (f g : DataFrame) (s : State), (portOf s p).state = .up → s.err.inj.cells = [] → f.corrected = true →
     openFrame s p f = some g → f.number = (portOf s p).taken → p < 71 → f.destination = 0xFFFF ∨ f.destination = moduleIndex s →
     f.window < 255 →
     f.length = g.payload.length → s.fabric.received.contains (f.origin, f.transfer) = false →
     (s.fabric.incoming.all fun i => !(i.origin == f.origin && i.id == f.transfer)) = true →
     let w := windowOf s f.window
     windowRefusal s f.window .write f.origin f.tag f.offset g.payload.length f.sealed = none →
     ServesWrite (windowRequester w f.sealed) (w.base + f.offset) g.payload.length s →
     ∃ t, exec (.dataFrameReceive p f) s = .next t ∧ (portOf t p).taken = (portOf s p).taken + 1 ∧ (portOf t p).lastReceived = s.now ∧
       t.fabric.answer = some ⟨f.origin, 0, []⟩ ∧ t.fabric.received.contains (f.origin, f.transfer) = true ∧
       (InPlain s (w.base + f.offset) g.payload.length → InPlain s w.tally 8 →
         (∀ a, (a < w.base + f.offset ∨ w.base + f.offset + g.payload.length ≤ a) → (a < w.tally ∨ w.tally + 8 ≤ a) →
           memGet t.mem a = memGet s.mem a) ∧
         ((w.tally + 8 ≤ w.base + f.offset ∨ w.base + f.offset + g.payload.length ≤ w.tally) →
           memRead t.mem (w.base + f.offset) g.payload.length = g.payload ∧
           (g.payload ≠ [] → w.tally % 8 = 0 → signalRefusal (tallyAccess w f.sealed s) w.tally s = none →
             memNat t.mem w.tally 8 = counterAdded (memNat s.mem w.tally 8) g.payload.length))))

/-- Fabric time (R370, R371). A module that is no root steps to its time source (R369) on leaving UNSYNC, and slews to it in every other
state, in SYNC; from any other module it takes no time; HOLDOVER_EXPIRE loses synchronisation with record 0x7112; a root without a source
keeps its own count. That the step leads to ACQUIRING and the next exchange to SYNC is the model's reading (log 25). Notices (R386, R387): a
self notice makes its module REACHABLE with its generation and forgets its link notices, but one of an UNREACHABLE module's old generation
changes nothing of it; a link notice is kept, and with more than half of a module's enabled local links DOWN the module is UNREACHABLE. That
as many count as this module has enabled, and what a self notice forgets, are the model's reading (log 26). Completes: TIME_EXCHANGE,
HOLDOVER_EXPIRE, ROOT_SYNC_TIMEOUT, SELF_NOTICE, LINK_NOTICE. -/
def Obligations.TimeAndPeersAreKept : Prop :=
  ((∀ (x : TimeExchange) (c : Settings) (s : State), s.err.inj.cells = [] → s.cfg = some c → c.timeRole ≠ 2 → x.role ≠ 2 →
     let heard := updFabric (fun f => { f with rootsSeen := f.rootsSeen.filter fun r => r.1 != x.module })
       (updPort x.port (fun q => { q with lastReceived := s.now }) s)
     ((portOf s x.port).state ≠ .up → exec (.timeExchange x) s = .next s) ∧
     ((portOf s x.port).state = .up → x.state = .sync ∨ x.state = .holdover →
       (fromSource s c x = true → x.sourceTime < 2 ^ 64 →
         (s.fabric.timeState = .unsync → ∃ t, exec (.timeExchange x) s = .next t ∧ t.fabric.timeState = .acquiring ∧
           t.fabric.time = x.sourceTime ∧ t.fabric.slew = 0 ∧ t.fabric.source = some (x.module, x.port) ∧ t.mem = s.mem) ∧
         (s.fabric.timeState ≠ .unsync → exec (.timeExchange x) s = .next (updFabric (fun f => { f with
           timeState := .sync, source := some (x.module, x.port), slew := (x.sourceTime : Int) - s.fabric.time
           offset := ((x.sourceTime : Int) - s.fabric.time) * 10 }) heard))) ∧
       (fromSource s c x = false → exec (.timeExchange x) s = .next heard))) ∧
   (∀ s : State, s.fabric.timeState = .holdover → QueueBounded s → queueFull s.err = false →
     ∃ t, exec .holdoverExpire s = .next t ∧ t.fabric.timeState = .unsync ∧ t.fabric.source = none ∧ t.fabric.time = s.fabric.time ∧
       (recordAt t.err s.err.written).code = 0x7112 ∧ (∀ p, p ≠ 71 → portOf t p = portOf s p) ∧ t.mem = s.mem ∧
       ∀ ch, (channelOf s ch).state = .running → (channelOf t ch).unsync = true) ∧
   (∀ (c : Settings) (s : State), s.cfg = some c → c.timeRole = 2 → s.fabric.timeState = .acquiring →
     exec .rootSyncTimeout s = .next { s with fabric := { s.fabric with timeState := .sync, source := none } })) ∧
  (∀ (m k arrival : Nat) (s : State), m ≠ moduleIndex s → m < systemModules s → anyUp s = true → s.fabric.transfers = [] → s.fabric.incoming = [] →
     s.tier.inProgress = [] → s.err.inj.cells = [] →
     (∃ t, exec (.selfNotice m k arrival) s = .next t ∧
       (if (peerOf s m).reach = .unreachable ∧ (peerOf s m).gen = k then peerOf t m = peerOf s m
        else (peerOf t m).reach = .reachable ∧ (peerOf t m).gen = k ∧ (peerOf t m).portsDown = []) ∧
       (∀ n, n ≠ m → peerOf t n = peerOf s n) ∧ t.err = s.err ∧ t.mem = s.mem) ∧
     (let ps := if (peerOf s m).portsDown.contains k then (peerOf s m).portsDown else k :: (peerOf s m).portsDown
      let n := (ps.filter fun p => decide (p < 47)).length
      ∃ t, exec (.linkNotice m k arrival) s = .next t ∧ (∀ n, n ≠ m → peerOf t n = peerOf s n) ∧
         (2 * n ≤ enabledLinks s → (peerOf t m).portsDown = ps ∧ (peerOf t m).reach = (peerOf s m).reach) ∧
         (enabledLinks s < 2 * n → (peerOf t m).reach = .unreachable ∧ (peerOf t m).gen = (peerOf s m).gen) ∧
         t.err = s.err ∧ t.mem = s.mem))

/-- Hand-over and best effort (R378, R384, R387). Stated of the only transfer of the port dies, from no task: handed over to a REACHABLE
module it is held for its slot when it is timed and sent when it is not, under the module's generation; a refusal fails it; its
acknowledgement ends it, a timed one too by the model's reading (log 22); a resend is never under an old generation. Completes:
TRANSFER_HANDOVER, BEST_EFFORT_ACK, BEST_EFFORT_RESEND. -/
def Obligations.BestEffortEndToEnd : Prop :=
  ∀ (x : Transfer) (s : State), s.fabric.transfers = [x] → x.ring = none →
    (x.state = .leaving → handleMalformed s x.handle x.data.length = false → handleTarget s x.handle ≠ moduleIndex s →
      (handoverRefusal s x = none →
        ∃ t y, exec (.transferHandover x.id) s = .next t ∧ t.fabric.transfers = [y] ∧ y.id = x.id ∧ y.data = x.data ∧
          y.module = handleTarget s x.handle ∧ y.tag = (peerOf s (handleTarget s x.handle)).gen ∧
          y.state = (if x.timed then .held else .sent s.now) ∧ t.err = s.err ∧ t.mem = s.mem) ∧
      (∀ c, handoverRefusal s x = some c → exec (.transferHandover x.id) s =
        .next (report (transferRecord x c x.handle (handleEntry c x.handle) 0 s)
          { s with fabric := { s.fabric with transfers := [] } }))) ∧
    (∀ n, x.state = .sent n →
      exec (.bestEffortAck x.id 0) s = .next { s with fabric := { s.fabric with transfers := [] } } ∧
      (∀ c, c ≠ 0 → exec (.bestEffortAck x.id c) s = .next
        (report (transferRecord x c x.handle (handleEntry c x.handle) 0 s) { s with fabric := { s.fabric with transfers := [] } })) ∧
      (x.unit = none → x.tag = (peerOf s x.module).gen → pathUp s x.module = true →
        ∃ t, exec (.bestEffortResend x.id) s = .next t ∧ t.fabric.transfers = [{ x with state := .sent s.now }] ∧ t.err = s.err ∧
          t.mem = s.mem) ∧
      (x.unit = none → x.tag ≠ (peerOf s x.module).gen → exec (.bestEffortResend x.id) s = .next
        (report (transferRecord x 0x7204 x.handle (handleEntry 0x7204 x.handle) 0 s)
          { s with fabric := { s.fabric with transfers := [] } })))

/-- Admission to a slot (R380, R381): bytes without a slot claim the first that matches; the offer of a claim is sent before its slot
begins; ACCEPT within 2 µs admits it, a later answer is ignored; a refusal fails the transfer and gives its claim up; a forfeit is counted
and loses no byte; that one offer at a time waits for its answer is the model's reading (log 22); in its slot the bytes are sent, and with
the last of them the transfer is. At the destination bytes left in a receive entry are claimed and accepted; without them the offer is
refused with 0x7206. Stated of the only transfer, from no task, with at most one claim of its own. Completes: OFFER_SEND, OFFER_RECEIVE,
OFFER_ANSWER, OFFER_FORFEIT, SLOT_START. -/
def Obligations.OffersClaimSlots : Prop :=
  (∀ (x : Transfer) (s : State), s.fabric.transfers = [x] → x.ring = none → s.fabric.timeState ≠ .unsync → x.state = .held →
    (∀ t e, x.timed = true → x.parts = [] → chooseSlot s x (firstStart s x) = some (t, e) → 0 < x.remaining →
      x.remaining ≤ unclaimed s t e →
      exec (.offerSend x.id) s = .next (updFabric (fun f => { f with
        transfers := [{ x with remaining := 0, parts := [{ slotStart := t, entry := e.2.1, bytes := x.remaining }] }]
        claims := f.claims ++ [⟨t, e.2.1, x.remaining⟩] }) s)) ∧
    (∀ q : SlotPart, x.parts = [q] →
      (q.offered = none → x.timed = true → s.fabric.time < q.slotStart →
        ∃ u, exec (.offerSend x.id) s = .next u ∧ u.fabric.transfers = [{ x with parts := [{ q with offered := some s.now }] }] ∧
          u.fabric.claims = s.fabric.claims ∧ u.mem = s.mem ∧ u.err = s.err) ∧
      (∀ n, q.offered = some n → q.admitted = false →
        (s.now ≤ n + 2000 →
          exec (.offerAnswer x.id 0) s = .next (updFabric (fun f => { f with
            transfers := [{ x with parts := [{ q with admitted := true }] }] }) s) ∧
          (s.fabric.claims = [⟨q.slotStart, q.entry, q.bytes⟩] → ∀ c, c ≠ 0 → exec (.offerAnswer x.id c) s = .next (report
            (transferRecord x c x.handle (handleEntry c x.handle) 0 s)
            (updFabric (fun f => { f with transfers := [], claims := [] }) s)))) ∧
        (n + 2000 < s.now → ∀ c, exec (.offerAnswer x.id c) s = .next s) ∧
        ∃ u y, exec (.offerForfeit x.id) s = .next u ∧ u.fabric.forfeits = (s.fabric.forfeits + 1) % 2 ^ 64 ∧ u.fabric.transfers = [y] ∧
          y.id = x.id ∧ y.data = x.data ∧ y.state = .held ∧ y.remaining + (y.parts.map (·.bytes)).sum = x.remaining + q.bytes ∧
          u.mem = s.mem ∧ u.err = s.err) ∧
      (q.admitted = true → q.slotStart = s.fabric.time / 2000 * 2000 → s.fabric.active.period ≠ 0 →
        ∃ u, exec .slotStart s = .next u ∧ u.fabric.transfers = [{ x with
            parts := [], state := if x.remaining = 0 then .sent s.now else .held }] ∧ u.mem = s.mem ∧ u.err = s.err))) ∧
  (∀ (o : Offer) (s : State), (portOf s o.port).state = .up → o.destination = moduleIndex s → s.fabric.timeState ≠ .unsync →
    s.err.inj.cells = [] → offerRefusal s o = none →
    let heard := updPort o.port (fun q => { q with lastReceived := s.now }) s
    let fits := (slotEntries s o true o.origin).filter fun e => decide (o.length ≤ unclaimed s o.slotStart e)
    (∀ e es, fits = e :: es → exec (.offerReceive o) s = .next (updFabric (fun f => { f with
      claims := f.claims ++ [⟨o.slotStart, e.2.1, o.length⟩], answer := some ⟨o.origin, 0, []⟩ }) heard)) ∧
    (fits = [] → exec (.offerReceive o) s = .next (updFabric (fun f => { f with answer := some ⟨o.origin, 0x7206, []⟩ }) heard)))

/-- Remote reads and atomics (R373, R376, R385). At this module the bytes as the window's context reads them (R307), or the old value, or
the refusal of the window leave for the origin, and an atomic that stores leaves its new value in memory and nowhere else; a read of a core
that meets a sealed stake is refused (R308; log 88); a reply or its timeout ends the hart's access. Completes: REMOTE_READ_REQUEST,
REMOTE_ATOMIC_REQUEST, REMOTE_REPLY, REMOTE_LOAD_TIMEOUT. -/
def Obligations.RemoteAccesses : Prop :=
  (∀ (q : RemoteAccess) (s : State), anyUp s = true →
    windowRefusal s q.window .read q.origin q.tag q.offset q.size false = none →
    (coreLoadSealed s ((windowOf s q.window).base + q.offset) q.size = true → exec (.remoteReadRequest q) s = .next { s with
      fabric := { s.fabric with answer := some ⟨q.origin, 0x5202, []⟩ } }) ∧
    (coreLoadSealed s ((windowOf s q.window).base + q.offset) q.size = false → ServesRead (windowRequester (windowOf s q.window) false) ((windowOf s q.window).base + q.offset) q.size s →
    exec (.remoteReadRequest q) s = .next { s with fabric := { s.fabric with
      answer := some ⟨q.origin, 0, plainRead s ((windowOf s q.window).base + q.offset) q.size⟩ } } ∧
    (InPlain s ((windowOf s q.window).base + q.offset) q.size →
      plainRead s ((windowOf s q.window).base + q.offset) q.size = memRead s.mem ((windowOf s q.window).base + q.offset) q.size))) ∧
  (∀ (q : RemoteAccess) (op : AmoOp) (a b : W64) (code : W16) (s : State), anyUp s = true → remoteForm op q = true →
    (windowRefusal s q.window .read q.origin q.tag q.offset q.size false = some code →
      exec (.remoteReadRequest q) s = .next { s with fabric := { s.fabric with answer := some ⟨q.origin, code, []⟩ } }) ∧
    (windowRefusal s q.window .atomic q.origin q.tag q.offset 8 false = some code →
      exec (.remoteAtomicRequest q op a b) s = .next { s with fabric := { s.fabric with answer := some ⟨q.origin, code, []⟩ } })) ∧
  (∀ (q : RemoteAccess) (op : AmoOp) (a b : W64) (v : Nat) (s : State), anyUp s = true → remoteForm op q = true →
    windowRefusal s q.window .atomic q.origin q.tag q.offset 8 false = none →
    let w := windowRequester (windowOf s q.window) false
    let pa := (windowOf s q.window).base + q.offset
    let old := natOfBytes (plainRead s pa 8)
    ServesRead w pa 8 s → ServesWrite { w with atomic := true } pa 8 s → amoResult op 64 old a.toNat b.toNat = some v →
    ∃ t, exec (.remoteAtomicRequest q op a b) s = .next t ∧ t.fabric.answer = some ⟨q.origin, 0, bytesOfNat 8 old⟩ ∧
      (InPlain s pa 8 → old = memNat s.mem pa 8 ∧ memRead t.mem pa 8 = bytesOfNat 8 v ∧
        ∀ x, x < pa ∨ pa + 8 ≤ x → memGet t.mem x = memGet s.mem x) ∧
      (op = .add → v = (old + a.toNat) % 2 ^ 64) ∧ (op = .swap → v = a.toNat)) ∧
  (∀ (x : RemoteOp) (s : State), s.fabric.remoteOps = [x] →
    (∀ v, exec (.remoteReply x.id 0 v) s = .next (updHart x.hart (fun y => { y with value := v, waiting := .nothing })
      { s with fabric := { s.fabric with remoteOps := [] } })) ∧
    (∀ c v, c ≠ 0 → exec (.remoteReply x.id c v) s = .next (failRemote x c s)) ∧
    exec (.remoteLoadTimeout x.id) s = .next (failRemote x 0x7303 s))

/-- Window registers (R375): ENABLE of a disabled window whose settings are in order enables it and clears CFG_ERR, and sets CFG_ERR when
they are not; clearing it begins a drain, counted; the drain's end clears BUSY and is counted. Run-time slot tables (R383): LOAD begins a
copy, whose end leaves the standby table loaded, or 0x7207 (read and checked at the copy's end, with context 1, by the model's choice, log
27); ARM arms it for a time at least 100 µs away and a multiple of 2 µs; CANCEL empties it; at the switch time it becomes the active table.
Completes: WINDOW_ENABLE, WINDOW_DRAIN, WINDOW_DRAIN_DONE, ARM, CANCEL, SLOT_TABLE_SWITCH, SLOT_TABLE_LOAD, SLOT_TABLE_LOAD_DONE. -/
def Obligations.WindowsAndSlotTablesSwitch : Prop :=
  (∀ (w : Nat) (v : W64) (s : State), w < 256 →
     let x := windowOf s w
     let y := windowFields v x
     (x.busy = false → x.enable = false → v.getLsbD 63 = true →
       ∃ t, exec (.windowEnable w v) s = .next t ∧ t = { s with fabric := { s.fabric with windows := t.fabric.windows } } ∧
         windowOf t w = (if windowInOrder s w y then { y with enable := true, cfgErr := false } else { y with cfgErr := true }) ∧
         ∀ n, n ≠ w → windowOf t n = windowOf s n) ∧
     (x.busy = false → x.enable = true → v.getLsbD 63 = false →
       ∃ t, exec (.windowDrain w v) s = .next t ∧ windowOf t w = { x with enable := false, busy := true } ∧
         t.fabric.drainIssued = (s.fabric.drainIssued + 1) % 2 ^ 32 ∧ t.mem = s.mem ∧ ∀ n, n ≠ w → windowOf t n = windowOf s n) ∧
     (x.busy = true → ∃ t, exec (.windowDrainDone w) s = .next t ∧ windowOf t w = { x with busy := false } ∧
       t.fabric.drainDone = (s.fabric.drainDone + 1) % 2 ^ 32 ∧ t.mem = s.mem ∧ ∀ n, n ≠ w → windowOf t n = windowOf s n)) ∧
  (∀ s : State,
     (switchNear s.fabric = false →
       exec .slotTableLoad s = .next { s with fabric := { s.fabric with standby := .loading, standbyTable := {} } } ∧
       exec .cancel s = .next { s with fabric := { s.fabric with standby := .empty, standbyTable := {} } }) ∧
     (s.fabric.standby = .loading →
       (∀ t, runtimeTable s = some t →
         exec .slotTableLoadDone s = .next { s with fabric := { s.fabric with standby := .loaded, standbyTable := t, stCode := 0 } }) ∧
       (runtimeTable s = none → exec .slotTableLoadDone s =
         .next { s with fabric := { s.fabric with standby := .empty, standbyTable := {}, stCode := 0x7207 } })) ∧
     (s.fabric.standby = .loaded →
       ((s.fabric.switchTime % 2000 = 0 ∧ s.fabric.time + 100000 ≤ s.fabric.switchTime) →
         exec .arm s = .next { s with fabric := { s.fabric with standby := .armed, stCode := 0 } }) ∧
       (¬(s.fabric.switchTime % 2000 = 0 ∧ s.fabric.time + 100000 ≤ s.fabric.switchTime) →
         exec .arm s = .next { s with fabric := { s.fabric with stCode := 0x7207 } })) ∧
     (s.fabric.standby = .armed → s.fabric.switchTime ≤ s.fabric.time → (s.fabric.transfers.any (·.timed)) = false →
       exec .slotTableSwitch s = .next { s with fabric := { s.fabric with
         active := s.fabric.standbyTable, standby := .empty, standbyTable := {}
         claims := s.fabric.claims.filter fun c => decide (c.slotStart < s.fabric.switchTime) } }))

/-! ### Boom (chapter 16) -/

/-- Requests (R397, R398): an idle bench asks for the demand of its next task, a running bench whose demand exceeds its grant asks for the
difference when its governor withholds a row; a review takes back what a grant leaves unused, to the pool, but for a top-up granted within
its 10 µs. Stated while Boom runs. Grants (R397, R399): the best waiting request of a grove takes from the grove's pool what it lacks, and
the bench is the most recently granted, unless one that Boom serves before it waits for the budget in another grove; a deferred start is
made once it is allowed; in its turn a pool short of 48 quanta is refilled within the budget and the cap. Completes: GRANT_REQUEST,
TOP_UP_REQUEST, RECLAIM_REVIEW, GRANT, STAGGERED_START, POOL_REFILL. -/
def Obligations.GrantsAreAskedAndMade : Prop :=
  ((∀ (n : Nat) (t : Task) (s : State), boomRuns s = true → (grovePow s.power (benchGrove n)).ended = false → requestTask s n = some t →
     benchDemand s n = 0 → (benchPow s.power n).granted = 0 → (benchPow s.power n).clock ≠ .revoked →
     (s.power.requests.any fun q => q.bench == n) = false →
     ∃ u, exec (.grantRequest n) s = .next u ∧ u.power.requests = s.power.requests ++
         [{ bench := n, kind := .fresh, quanta := demandOf t, priority := (ringOf s t.ring).priority, since := s.now }] ∧
       (benchPow u.power n).demand = demandOf t ∧ (∀ m, m ≠ n → benchPow u.power m = benchPow s.power m) ∧ u.mem = s.mem ∧
       u.tasks = s.tasks) ∧
   (∀ (n : Nat) (s : State), (benchPow s.power n).granted ≠ 0 → (benchPow s.power n).granted < (benchPow s.power n).demand →
     (s.power.requests.any fun q => q.bench == n && q.kind == .topUp) = false →
     (governorWithholds s n = false → exec (.topUpRequest n) s = .next s) ∧
     (governorWithholds s n = true → exec (.topUpRequest n) s = .next { s with power := { s.power with requests := s.power.requests ++
       [{ bench := n, kind := .topUp, quanta := (benchPow s.power n).demand, since := s.now }] } })) ∧
   (∀ (n u : Nat) (s : State), boomRuns s = true → s.power.requests.isEmpty = false →
     (s.power.requests.any fun q => q.bench == n && q.kind == .topUp) = false → 1 + ceilDiv u 1280 + 2 ≤ (benchPow s.power n).granted →
     let recent := (benchPow s.power n).toppedAt.any fun a => decide (s.now < a + 10000)
     (recent = true → exec (.reclaimReview [(n, u)]) s = .next s) ∧
     (recent = false → ∃ t, exec (.reclaimReview [(n, u)]) s = .next t ∧ (benchPow t.power n).granted = max 2 (2 + ceilDiv u 1280) ∧
       (grovePow t.power (benchGrove n)).pool =
         min 96 ((grovePow s.power (benchGrove n)).pool + ((benchPow s.power n).granted - max 2 (2 + ceilDiv u 1280))) ∧
       t.mem = s.mem ∧ t.tasks = s.tasks))) ∧
  ((∀ (g : Nat) (r : GrantRequest) (s : State), boomRuns s = true → s.power.braked = false →
     bestRequest g s.power.requests = some r →
     (outranked r s.power = true → ∃ t, exec (.grant g) s = .next t ∧ t.power.benches = s.power.benches ∧ t.power.groves = s.power.groves ∧
       t.mem = s.mem ∧ t.tasks = s.tasks) ∧
     (outranked r s.power = false → poolServes s.power r = true → 0 < r.quanta →
     heldAll s.power + (r.quanta - (benchPow s.power r.bench).granted) ≤ baseQuanta s →
     ∃ t, exec (.grant g) s = .next t ∧ benchGrove r.bench = g ∧
       (benchPow t.power r.bench).granted = max (benchPow s.power r.bench).granted r.quanta ∧
       (grovePow t.power g).pool = (grovePow s.power g).pool - (r.quanta - (benchPow s.power r.bench).granted) ∧
       t.power.order.head? = some r.bench ∧ (∀ q ∈ t.power.requests, ¬(q.bench = r.bench ∧ q.kind = r.kind)) ∧
       (∀ m, m ≠ r.bench → benchPow t.power m = benchPow s.power m) ∧ t.mem = s.mem ∧ t.tasks = s.tasks)) ∧
   (∀ (g n : Nat) (ns : List Nat) (s : State), (grovePow s.power g).deferred = n :: ns → startAllowed s.now (grovePow s.power g) = true →
     ∃ t, exec (.staggeredStart g) s = .next t ∧ t = { s with power := t.power } ∧
       ((benchPow t.power n).clock = .running ∨ (benchPow t.power n).clock = .stretched) ∧
       (benchPow t.power n).starts = min ((benchPow s.power n).starts + 1) (2 ^ 32 - 1) ∧
       (benchPow t.power n).granted = (benchPow s.power n).granted ∧ ∀ m, m ≠ n → benchPow t.power m = benchPow s.power m) ∧
   (∀ (g : Nat) (s : State), boomRuns s = true → s.power.braked = false → refillTurn s g = true → (grovePow s.power g).pool < 48 →
     ∃ t, exec (.poolRefill g) s = .next t ∧ t = { s with power := t.power } ∧
       (grovePow t.power g).pool = (grovePow s.power g).pool + refillQuanta s g ∧ refillQuanta s g ≤ 48 ∧
       (heldIn s.power g + (grovePow s.power g).pool ≤ (grovePow s.power g).cap →
         heldIn t.power g + (grovePow t.power g).pool ≤ (grovePow t.power g).cap) ∧
       (∀ h, h ≠ g → grovePow t.power h = grovePow s.power h) ∧ t.power.benches = s.power.benches ∧ t.power.turn = (g + 1) % 4))

/-- Budgets and episodes (R402, R403): each update makes the binding limit a budget of quanta; an episode ends at PEAK_MS, and its recovery
begins; with no request and nothing held beyond the budget an update moves no grant. The power brake (R412, R413): recognised, it revokes
every grant, ends an episode and leaves no budget; stated of one bench that holds quanta. Released, BRAKED is cleared, the budget is formed
again, and no comparison is made for 200 µs; a bench whose restore its pool and the budget cover holds its quanta again. The budget of 0
while braked is the model's reading (log 56). Completes: BUDGET_UPDATE, EPISODE_TIMEOUT, BOOM_CTL_WRITE, POWER_BRAKE, POWER_BRAKE_RELEASE.
-/
def Obligations.BudgetsAndTheBrake : Prop :=
  ((∀ s : State, boomRuns s = true → s.power.episode = false → s.power.requests = [] → heldAll s.power + pooledAll s.power ≤ baseQuanta s →
     ∃ t, exec .budgetUpdate s = .next t ∧ t.power.budget = baseQuanta s ∧ t.power.benches = s.power.benches ∧ t.power.requests = [] ∧
       t.mem = s.mem ∧ t.tasks = s.tasks) ∧
   (∀ s : State, s.power.episode = true → s.power.braked = false → s.power.measured = false →
     ∃ t, exec .episodeTimeout s = .next t ∧ t.power.episode = false ∧ t.power.recovering = true ∧
       t.power.recoveryNs = s.now - s.power.episodeStart ∧
       t.power.lastEpisodeUs = min ((s.now - s.power.episodeStart) / 1000) 0xFFFFFFFF ∧ t.power.budget = sustainedQuanta s ∧
       (t.power.running.any fun r => r.reason == 2 && r.scope == moduleScope) = false ∧ t.mem = s.mem ∧ t.tasks = s.tasks) ∧
   (∀ (v : W64) (s : State), inService s = true →
     ∃ t, exec (.boomCtlWrite v) s = .next t ∧ t.mem = s.mem ∧ t.tasks = s.tasks ∧ t.rings = s.rings ∧
       (bitsOf v.toNat 15 0 = 0 ∨ (600 ≤ bitsOf v.toNat 15 0 ∧ bitsOf v.toNat 15 0 ≤ 3800) → t.power.softLimit = bitsOf v.toNat 15 0) ∧
       (¬(bitsOf v.toNat 15 0 = 0 ∨ (600 ≤ bitsOf v.toNat 15 0 ∧ bitsOf v.toNat 15 0 ≤ 3800)) → t.power.softLimit = s.power.softLimit) ∧
       (10 ≤ bitsOf v.toNat 47 32 → t.power.sleepUs = bitsOf v.toNat 47 32) ∧
       (bitsOf v.toNat 47 32 < 10 → t.power.sleepUs = s.power.sleepUs))) ∧
  ((∀ (n : Nat) (s : State), boomRuns s = true → s.power.braked = false → s.power.order = [n] → 0 < (benchPow s.power n).granted →
     ∃ t, exec .powerBrake s = .next t ∧ t.power.braked = true ∧ t.power.episode = false ∧ t.power.budget = 0 ∧ boundQuanta t = 0 ∧
       (benchPow t.power n).clock = .revoked ∧ (benchPow t.power n).granted = 0 ∧
       (benchPow t.power n).revoked = (benchPow s.power n).granted ∧ (∀ m, m ≠ n → benchPow t.power m = benchPow s.power m) ∧
       (t.power.running.any fun r => r.reason == 3) = true ∧ t.life.brakePinLow = true ∧ t.mem = s.mem ∧ t.tasks = s.tasks) ∧
   (∀ s : State, boomRuns s = true → s.power.braked = true →
     ∃ t, exec .powerBrakeRelease s = .next t ∧ t.power.braked = false ∧ t.power.compareFrom = s.now + 200000 ∧
       t.power.budget = boundQuanta t ∧ t.life.brakePinLow = false ∧ t.mem = s.mem ∧ t.tasks = s.tasks ∧
       ∀ r : GrantRequest, s.power.requests = [r] → r.kind = .restore → (benchPow s.power r.bench).granted = 0 → s.power.measured = false →
         s.power.episode = false → heldAll s.power + pooledAll s.power ≤ sustainedQuanta s → benchGrove r.bench < 4 →
         r.quanta ≤ (grovePow s.power (benchGrove r.bench)).pool →
         (benchPow t.power r.bench).granted = r.quanta ∧ t.power.requests = []))

/-- Estimated and measured power (R404, R405, R419): a sample forms both figures and counts the energy; a divergence of more than 12% for
200 µs puts measured-power control in force with record 0x8201, where R454 does not suppress it; its step moves the budget towards 0.9 of
the limit by at most 64 quanta; without measurement the limits fall back, with record 0x8202. The rounding of the step is the model's (log
37). Completes: ESTIMATE_SAMPLE, MEASURED_CONTROL_STEP, MEASURED_POWER_MISSING. -/
def Obligations.MeasuredPowerControls : Prop :=
  (∀ (x : PowerSample) (m : Nat) (s : State), 21600 ≤ x.inputMv → x.inputMv ≤ 26400 → boomRuns s = true → s.err.inj.cells = [] → x.measured = some m → m ≤ 6000 →
    s.power.braked = false → s.power.compareFrom ≤ s.now → s.power.measured = false → s.power.recovering = false →
    let e := (x.benchMw + x.otherMw) * 100 / 91000
    (100 * ((e - m) + (m - e)) ≤ 12 * m →
      ∃ t, exec (.estimateSample x) s = .next t ∧ t.power.estimatedW = min e 0xFFFF ∧ t.power.measuredW = m ∧
        t.power.energy = s.power.energy + m ∧ t.power.vIn = x.inputMv / 10 ∧ t.power.otherMw = x.otherMw ∧ t.power.divergedSince = none ∧
        t.power.measured = false ∧ t.power.budget = s.power.budget ∧ t.power.benches = s.power.benches ∧ t.err = s.err ∧ t.mem = s.mem) ∧
    (∀ t0, 12 * m < 100 * ((e - m) + (m - e)) → s.power.divergedSince = some t0 → t0 + 200000 ≤ s.now → QueueBounded s →
      queueFull s.err = false →
      UnderRate 0x8201 (srcModule s) s →
      ∃ t, exec (.estimateSample x) s = .next t ∧ t.power.measured = true ∧ t.power.episode = false ∧
        (recordAt t.err s.err.written).code = 0x8201 ∧ t.power.energy = s.power.energy + m ∧ t.mem = s.mem ∧ t.tasks = s.tasks)) ∧
  (∀ s : State, s.power.measured = true → s.power.braked = false → s.power.episode = false →
    let d : Int := (900 * (sustainedLimit s : Int) - 1000 * (s.power.measuredW : Int)) / 879
    ∃ t, exec .measuredControlStep s = .next t ∧
      t.power.budget = (min (max ((s.power.budget : Int) + max (-64) (min 64 d)) 0) 0xFFFF).toNat ∧ t.mem = s.mem ∧ t.tasks = s.tasks) ∧
  (∀ s : State, boomRuns s = true → QueueBounded s → queueFull s.err = false →
    ∃ t, exec .measuredPowerMissing s = .next t ∧ t.power.fallback = true ∧ (recordAt t.err s.err.written).code = 0x8202 ∧
      t.power.budget = boundQuanta t ∧ t.mem = s.mem ∧ t.tasks = s.tasks)

/-- R411: while the input is below 21.6 V Boom limits the sustained and the peak budget to V_in × 150 A and reason 0x08 accumulates; at 21.0
V the limit is 3,150 W; a sample that measures less than 21.6 V limits them too; it ends with INPUT_LOW_LIMIT_END, which stands for 1 ms at
or above 21.6 V (log 2). Completes: ESTIMATE_SAMPLE, INPUT_LOW_LIMIT, INPUT_LOW_LIMIT_END. -/
def Obligations.LowInputLimitsBudgets : Prop :=
  (∀ (mv : Nat) (s : State), boomRuns s = true → mv < 21600 →
    ∃ t, exec (.inputLowLimit mv) s = .next t ∧ t.power.vIn = mv / 10 ∧ sustainedLimit t ≤ mv / 10 * 150 / 100 ∧
      peakLimit t ≤ mv / 10 * 150 / 100 ∧ t.power.budget = boundQuanta t ∧ (t.power.running.any fun r => r.reason == 8) = true ∧
      (mv = 21000 → sustainedLimit t ≤ 3150 ∧ peakLimit t ≤ 3150) ∧ t.mem = s.mem ∧ t.tasks = s.tasks) ∧
  (∀ (x : PowerSample) (s : State), boomRuns s = true → x.inputMv < 21600 →
    ∃ t, exec (.estimateSample x) s = .next t ∧ t.power.vIn = x.inputMv / 10 ∧ t.power.inputLow = true ∧
      sustainedLimit t ≤ x.inputMv / 10 * 150 / 100 ∧ peakLimit t ≤ x.inputMv / 10 * 150 / 100 ∧ t.mem = s.mem ∧ t.tasks = s.tasks) ∧
  (∀ (mv : Nat) (s : State), boomRuns s = true → 21600 ≤ mv → mv ≤ 26400 →
    ∃ t, exec (.inputLowLimitEnd mv) s = .next t ∧ t.power.inputLow = false ∧ t.power.vIn = mv / 10 ∧
      peakLimit t = fallbackCap t.power (powerCfg t).peakW ∧ t.power.budget = boundQuanta t ∧
      (t.power.running.any fun r => r.reason == 8 && r.scope == moduleScope) = false ∧ t.mem = s.mem ∧ t.tasks = s.tasks)

/-- PLLs and droop (R394, R399, R406): a grove none of whose benches holds a grant sleeps, and its PLL relocks; a droop stretches the
running clocks of its grove, and of no other; its end brings them back and holds starts off for 5 µs. Temperatures (R282, R407–R410): a
reading below its alarm is noted and records nothing; at the alarm THERM_N is asserted with 0x8103; at the trip threshold the module trips;
the record of the alarm is stated where R454 does not suppress it. A silent sensor is recorded as 0x8102 with its locator and last reading.
THERM_N is released when every sensor reads 5 °C below its alarm. Stated while Boom runs, of a sensor that has thresholds. The locator's DIE
and the thresholds that act are read by logs 39 and 57. Completes: PLL_SLEEP, PLL_RELOCK_DONE, DROOP, DROOP_RECOVER,
DROOP_START_HOLDOFF_END, TEMP_SAMPLE, GROVE_CAP_UPDATE, SENSOR_TIMEOUT, THERM_N_RELEASE, STACK_TEMP_REPORT. -/
def Obligations.ClocksAndTemperaturesAct : Prop :=
  (∀ (g : Nat) (s : State), (grovePow s.power g).marginStretch = false →
     ((grovePow s.power g).pll = .running → groveGranted s.power g = false →
       exec (.pllSleep g) s = .next { s with power := updGrove s.power g fun x => { x with pll := .sleep } }) ∧
     ((grovePow s.power g).pll = .locking → (grovePow s.power g).deferred = [] →
       exec (.pllRelockDone g) s = .next { s with power := updGrove s.power g fun x => { x with pll := .running } }) ∧
     (boomRuns s = true → g < 4 → ∃ t, exec (.droop g) s = .next t ∧ (grovePow t.power g).stretched = true ∧
       (∀ n, benchGrove n = g → (benchPow s.power n).clock = .running →
         (benchPow t.power n).clock = .stretched ∧ (benchPow t.power n).granted = (benchPow s.power n).granted) ∧
       (∀ n, benchGrove n ≠ g → benchPow t.power n = benchPow s.power n) ∧
       (t.power.running.any fun r => r.reason == 4 && r.scope == groveScope g) = true ∧ t.mem = s.mem ∧ t.tasks = s.tasks) ∧
     ((grovePow s.power g).stretched = true →
       ∃ t, exec (.droopRecover g) s = .next t ∧ (grovePow t.power g).stretched = false ∧
         (grovePow t.power g).holdoff = some (s.now + 5000) ∧
         (∀ n, benchGrove n = g → (benchPow s.power n).clock = .stretched → (benchPow t.power n).clock = .running) ∧
         startAllowed s.now (grovePow t.power g) = false ∧ t.mem = s.mem ∧ t.tasks = s.tasks) ∧
     ((grovePow s.power g).holdoff.isSome = true → (grovePow s.power g).deferred = [] →
       exec (.droopStartHoldoffEnd g) s = .next { s with power := updGrove s.power g fun x => { x with holdoff := none } })) ∧
  ((∀ (x : Sensor) (temp a k : Nat) (s : State), boomRuns s = true → sensorExists x = true → s.err.inj.cells = [] → alarmAt x = some a →
     tripAt x = some k → QueueBounded s → queueFull s.err = false → s.power.thermAsserted = false →
     (temp ≤ 85 → s.power.sensors = [] → s.power.packageThrottled = [] → ∃ t, exec (.tempSample x temp) s = .next t ∧
       (sensorState t.power x).temp = temp ∧ (sensorState t.power x).at_ = s.now ∧ t.power.thermAsserted = false ∧ t.err = s.err ∧
       t.life = s.life ∧ t.mem = s.mem) ∧
     (a ≤ temp → temp < k → ∃ t, exec (.tempSample x temp) s = .next t ∧ (sensorState t.power x).temp = temp ∧
       t.power.thermAsserted = true ∧ (UnderRate 0x8103 (srcModule s) s → (recordAt t.err s.err.written).code = 0x8103) ∧ t.life = s.life ∧ t.mem = s.mem) ∧
     (k ≤ temp → ∃ t, exec (.tempSample x temp) s = .next t ∧ t.life.power = .trip ∧ t.power.trip = some x ∧
       t.power.thermAsserted = true ∧ t.tasks = [] ∧ t.scratch = {}) ∧
     ((sensorState s.power x).silent = false → ∃ t, exec (.sensorTimeout x) s = .next t ∧ (sensorState t.power x).silent = true ∧
       (recordAt t.err s.err.written).code = 0x8102 ∧
       (recordAt t.err s.err.written).detail0 = BitVec.ofNat 64 (sensorLocator x) ∧
       (recordAt t.err s.err.written).detail1 = BitVec.ofNat 64 (sensorState s.power x).temp ∧ t.mem = s.mem)) ∧
   (∀ (d temp : Nat) (s : State),
     (d < 12 → exec (.stackTempReport d temp) s = exec (.tempSample (.stack d) temp) s) ∧
     (12 ≤ d → exec (.stackTempReport d temp) s = exec (.tempSample (.package (d - 12)) temp) s)) ∧
   (∀ s : State, boomRuns s = true →
     ∃ t, exec .groveCapUpdate s = .next t ∧ (∀ g, g < 4 → (grovePow t.power g).cap = (capOf s g).1) ∧ t.mem = s.mem ∧ t.tasks = s.tasks) ∧
   (∀ s : State, s.life.power ≠ .trip → s.life.power ≠ .hold →
     (∀ e ∈ s.power.sensors, ∀ a, alarmAt e.sensor = some a → e.counts + 5 ≤ a) →
     exec .thermNRelease s = .next { s with power := { s.power with thermAsserted := false } }))

/-- R417, R418: a short margin takes a trim step, with record 0x8301 where R454 does not suppress it; with all 24 taken, a short margin
lowers F_MAX by 25 MHz, with record 0x8302, down to 1.20 GHz; from there the module sets the grove's cap to 0, writes 0x8303, and no bench
task of the grove is granted again. Trim steps and F_MAX survive the loss of 24 V and every warm reset. Completes: MARGIN_SAMPLE. -/
def Obligations.AgeingEndsAGrove : Prop :=
  (∀ (g ps : Nat) (s : State), boomRuns s = true → g < 4 → groveBusy s.power g = true → s.err.inj.cells = [] → QueueBounded s →
    queueFull s.err = false → ps < 10 ∨ (ps < 25 ∧ 59 ≤ (grovePow s.power g).lowStreak) →
    ∃ t, exec (.marginSample g ps) s = .next t ∧ (grovePow t.power g).marginPs = ps ∧ t.mem = s.mem ∧ t.tasks = s.tasks ∧
      ((grovePow s.power g).trimSteps < 24 → (grovePow t.power g).trimSteps = (grovePow s.power g).trimSteps + 1 ∧
        (grovePow t.power g).fmaxSteps = (grovePow s.power g).fmaxSteps ∧
        (UnderRate 0x8301 (srcModule s) s → (recordAt t.err s.err.written).code = 0x8301)) ∧
      ((grovePow s.power g).trimSteps = 24 → (grovePow s.power g).fmaxSteps < 24 →
        (grovePow t.power g).trimSteps = 24 ∧ (grovePow t.power g).fmaxSteps = (grovePow s.power g).fmaxSteps + 1 ∧
        1800 - 25 * (grovePow t.power g).fmaxSteps + 25 = 1800 - 25 * (grovePow s.power g).fmaxSteps ∧
        1200 ≤ 1800 - 25 * (grovePow t.power g).fmaxSteps ∧ (recordAt t.err s.err.written).code = 0x8302) ∧
      ((grovePow s.power g).trimSteps = 24 → (grovePow s.power g).fmaxSteps = 24 → (grovePow s.power g).ended = false →
        (grovePow t.power g).ended = true ∧ (grovePow t.power g).cap = 0 ∧ (capOf t g).1 = 0 ∧
        (recordAt t.err s.err.written).code = 0x8303 ∧ (∀ n, benchGrove n = g → exec (.grantRequest n) t = .next t) ∧
        ∀ x n, x.bench = some n → benchGrove n = g → mayIssue t x = false)) ∧
  (∀ (g : Nat) (s : State), let kept (t : State) : Prop := (grovePow t.power g).trimSteps = (grovePow s.power g).trimSteps ∧
      (grovePow t.power g).fmaxSteps = (grovePow s.power g).fmaxSteps ∧ (grovePow t.power g).ended = (grovePow s.power g).ended
    (∃ t, exec .powerLoss s = .next t ∧ kept t) ∧ (∃ t, exec .moduleResetNRecognised s = .next t ∧ kept t) ∧
    ∀ h, ∃ t, exec (.groveResetRequest h) s = .next t ∧ kept t)

/-! ### Rings and scheduling (chapter 10) -/

/-- Ring commands (R225–R227, R242). A doorbell raises TAIL within the ring, is dropped with a mark where the ring takes none, and faults
the ring with 0x3102 out of range; ENABLE starts a ring whose settings are in order from 0; PAUSE, which stops no fence clock that has
started (R234), and RESUME; the oldest failure acknowledged, the last one lifting a fault. What lets a task come next on a bench at work has
it chosen (R238, `preloadBenches`). Ring reset (R253, R254): a ring none of whose tasks is issued ends its staged tasks at once, with one
record 0x3110 of their number, and is DISABLED with every count 0; with issued tasks it waits for their benches, and the last report ends
it. Then the benches at work choose their next tasks anew where they have none (R238). Completes: RING_DOORBELL, RING_ENABLE, RING_PAUSE,
RING_RESUME, FAILURE_ACKNOWLEDGE, RING_RESET, BENCH_REPORT. -/
def Obligations.RingsObeyAndReset : Prop :=
  (∀ (r : Nat) (v : W64) (s : State), ringExists s r = true →
     let q := ringOf s r
     (q.status = .running → q.device = false → q.tail < v.toNat → v.toNat ≤ q.head + ringSize q →
       exec (.ringDoorbell r v) s = .next (updRing r (fun q => { q with tail := v.toNat }) s)) ∧
     (q.status = .running → q.device = false → v.toNat < q.tail ∨ q.head + ringSize q < v.toNat → v.toNat ≠ q.tail →
       exec (.ringDoorbell r v) s = .next (failRing r 0x3102 s)) ∧
     (q.status = .disabled ∨ q.status = .resetting ∨ q.device = true →
       exec (.ringDoorbell r v) s = .next (updRing r (fun q => { q with dropped := true }) s)) ∧
     (q.status = .disabled → q.base ≠ 0 → q.sizeLog2 ≤ 12 → exec (.ringEnable r) s = .next (updRing r (fun q => { q with
       head := 0, tail := 0, completed := 0, retired := [], failures := [], sliceWait := none, lost := [], status := .running }) s)) ∧
     (q.status = .running ∨ q.status = .faulted →
       exec (.ringPause r) s = .next (updRing r (fun q => { q with status := .paused }) (noteClocks s))) ∧
     (q.status = .paused → exec (.ringResume r) s =
       .next (preloadBenches (updRing r (fun p => { p with status := if q.failures.isEmpty then .running else .faulted }) s))) ∧
     (∀ f fs, q.failures = f :: fs → f.ofRing = true → exec (.failureAcknowledge r) s = .next (preloadBenches (updRing r (fun p => { p with
       failures := fs, status := if fs.isEmpty ∧ p.status = .faulted then .running else p.status }) s))) ∧
     (∀ f fs t, q.failures = f :: fs → f.ofRing = false → findTask s r f.at_ = some t → t.member = false →
       ∃ u, exec (.failureAcknowledge r) s = .next (preloadBenches u) ∧ u.tasks = s.tasks.filter (fun x => !x.is r f.at_) ∧
         (ringOf u r).failures = fs ∧ u.mem = s.mem ∧ u.err = s.err)) ∧
  ((∀ (r : Nat) (s : State), ringExists s r = true → (ringOf s r).status = .running →
     (∀ t ∈ s.tasks, t.ring = r → t.phase = .staged ∧ t.member = false ∧ t.signalPa = none) → (enqueuesTo s r = []) → QueueBounded s →
     queueFull s.err = false → hubLost s (homeGrove r) = false →
     ∃ u, exec (.ringReset r) s = .next (preloadBenches u) ∧ (ringOf u r).status = .disabled ∧ (ringOf u r).head = 0 ∧ (ringOf u r).tail = 0 ∧
       (ringOf u r).completed = 0 ∧ (ringOf u r).failures = [] ∧ (∀ t ∈ u.tasks, t.ring ≠ r) ∧
       (∀ t ∈ s.tasks, t.ring ≠ r → t ∈ u.tasks) ∧ u.mem = s.mem ∧ (recordAt u.err s.err.written).code = 0x3110 ∧
       (recordAt u.err s.err.written).detail0 = BitVec.ofNat 64 (s.tasks.filter fun t => t.ring == r).length) ∧
   (∀ (r n m : Nat) (s : State), (ringOf s r).status = .resetting → mayReport s r n = true →
     ((ringOf s r).pending = [n, m] → n ≠ m →
       exec (.benchReport r n) s = .next (preloadBenches (updRing r (fun q => { q with pending := [m] }) s))) ∧
     ((ringOf s r).pending = [n] → ∃ u, exec (.benchReport r n) s = .next (preloadBenches u) ∧ (ringOf u r).status = .disabled ∧ (ringOf u r).head = 0 ∧
       (ringOf u r).tail = 0 ∧ (ringOf u r).pending = [] ∧ ∀ t ∈ u.tasks, t.ring ≠ r)))

/-- Staging and fences (R225, R231–R234, R238): a descriptor that passes every check and whose slice has an entry becomes a staged task,
HEAD rises, and the benches at work choose their next tasks; one that fails is held as a failed task with its code; a change of its counter
lets a waiting task go, whose tentative lines are then dropped (R324); its fence clock, once started, ends it with 0x3201. Completes:
TASK_STAGE, COUNTER_CHANGE_OBSERVED, FENCE_TIMEOUT. -/
def Obligations.TasksStageAndWait : Prop :=
  (∀ (r : Nat) (bs : List Byte) (t : Task) (s v w : State), mayStage s r = true → s.err.inj.cells = [] →
    engineRead { agent := .tally, context := (ringOf s r).context, grove := homeGrove r, ring := r, seq := (ringOf s r).head, descriptor := true }
      (descriptorAddr (ringOf s r)) 128 (takeTurn r s) = (.done bs, v) → (ringOf v r).stageFails = none →
    stageChecks r ((ringPartition v r).getD 0) bs v = (.ok t, w) → sliceTakes w t = true → t.header.speculative = false →
    t.waitPa = none →
    let u : State := { passHead r w with tasks := w.tasks ++ [t] }
    t.ring = r ∧ t.seq = (ringOf v r).head ∧ t.phase = .staged ∧ (ringOf u r).head = (ringOf w r).head + 1 ∧
      exec (.taskStage r) s = .next (preloadBenches u) ∧ ((∀ n, runningOn u n = []) → exec (.taskStage r) s = .next u)) ∧
  (∀ (r : Nat) (bs : List Byte) (code : W16) (s v : State), mayStage s r = true → s.err.inj.cells = [] →
    engineRead { agent := .tally, context := (ringOf s r).context, grove := homeGrove r, ring := r, seq := (ringOf s r).head, descriptor := true }
      (descriptorAddr (ringOf s r)) 128 (takeTurn r s) = (.done bs, v) → v.rings = s.rings → (ringOf s r).stageFails = none →
    headerCheck bs = some code → (readHeader bs).abortOnFail = false →
    sliceTakes v { failedShell v r ((ringPartition v r).getD 0) bs with waitDone := true } = true →
    ∃ u, exec (.taskStage r) s = .next u ∧ (ringOf u r).status = .faulted ∧ (ringOf u r).head = (ringOf s r).head + 1 ∧
      (∃ f ∈ (ringOf u r).failures, f.code = code ∧ f.at_ = (ringOf s r).head) ∧ u.mem = v.mem) ∧
  (∀ (pa : Nat) (t : Task) (s : State), s.tasks = [t] → s.groups = {} → t.phase = .staged → t.waitDone = false → t.stopping = false →
    t.member = false → t.waitPa = some pa → t.header.type ≠ .fenceWait →
    let seen := waitSeen s (counterRequester t) pa t.header.waitTarget
    (seen = .ok .resolved → exec (.counterChangeObserved pa) s = .next { s with
      tasks := [{ t with waitDone := true }], opLines := s.opLines.filter fun l => l.tentative != some (t.ring, t.seq) }) ∧
    (seen = .ok .unresolved → exec (.counterChangeObserved pa) s = .next s) ∧
    (seen = .ok .aborted → exec (.counterChangeObserved pa) s = .next (failTask t 0x3202 s)) ∧
    (∀ c, seen = .error c → exec (.counterChangeObserved pa) s = .next (failTask t c s pa)) ∧
    (t.clockStarted = true ∨ clockRuns s t = true →
      exec (.fenceTimeout (.task t.ring t.seq)) s = .next (failTask t 0x3201 s 0 t.header.waitAddr 0 0xFFFF)) ∧
    (t.clockStarted = false → clockRuns s t = false → t.body = .gate →
      exec (.fenceTimeout (.task t.ring t.seq)) s = .next s))

/-- Bench tasks issue (R159, R169, R194, R235, R238): with every condition met the task is issued and counted, and the bench chooses its
next task; a MATMUL or SEMIRING begins on the array, the stage area undefined where it has operands in virtual space (R156); a VECTOR begins
on an idle Dresser with its registers as R169 sets them; an array task with no output tile has done its work at once; without its conditions
nothing happens. Members of open groups are no exception (R249). Completes: MATMUL, SEMIRING, VECTOR. -/
def Obligations.BenchTasksIssue : Prop :=
  ∀ (t : Task) (n : Nat) (s : State), findTask s t.ring t.seq = some t → t.bench = some n →
    (mayIssue s t = false → (t.header.type = .matmul → exec (.matmul t.ring t.seq) s = .next s) ∧
      (t.header.type = .semiring → exec (.semiring t.ring t.seq) s = .next s) ∧
      (t.header.type = .vector → exec (.vector t.ring t.seq) s = .next s)) ∧
    (mayIssue s t = true → s.tallyIssued.get 0 t.grove < 2 ^ 64 - 1 →
      (∀ d, t.body = .mat d → taskTiles d ≠ 0 →
        ∃ v, (t.header.type = .matmul → exec (.matmul t.ring t.seq) s = .next (preload n v)) ∧
          (t.header.type = .semiring → exec (.semiring t.ring t.seq) s = .next (preload n v)) ∧
          v.tasks = (noteClocks s).tasks.map (fun x => if x.is t.ring t.seq then { x with phase := .issued } else x) ∧
          (benchOf v n).run = some { ring := t.ring, seq := t.seq } ∧ (benchOf v n).regs = (benchOf s n).regs ∧
          (∀ m, m ≠ n → benchOf v m = benchOf s m) ∧ v.tallyIssued.get 0 t.grove = s.tallyIssued.get 0 t.grove + 1 ∧ v.mem = s.mem ∧
          (hasVirtualInput d = false → v.scratch = s.scratch) ∧
          (∀ a, a < n * scratchSize + stageBase ∨ (n + 1) * scratchSize ≤ a → memGet v.scratch a = memGet s.scratch a) ∧
          v.power = s.power ∧ v.rings = s.rings) ∧
      (∀ d, t.body = .mat d → taskTiles d = 0 →
        ∃ v, (t.header.type = .matmul → exec (.matmul t.ring t.seq) s = .next (preload n v)) ∧
          (t.header.type = .semiring → exec (.semiring t.ring t.seq) s = .next (preload n v)) ∧
          v.tasks = (noteClocks s).tasks.map (fun x => if x.is t.ring t.seq then
            { x with phase := .issued, arrayDone := true, workDone := true } else x) ∧
          (benchOf v n).run = (benchOf s n).run ∧ v.tallyIssued.get 0 t.grove = s.tallyIssued.get 0 t.grove + 1 ∧ v.mem = s.mem ∧
          v.scratch = s.scratch ∧ v.power = s.power) ∧
      (∀ d, t.body = .vector d → t.header.type = .vector → d.d0 ≠ 0 → d.d1 ≠ 0 → d.d2 ≠ 0 → d.d3 ≠ 0 → t.workDone = false →
        t.stopping = false → (benchOf s n).dresser = none → (benchOf s n).skid = [] → runningOn s n = [] → (∃ i, s.tasks = [i]) →
        ∃ v, exec (.vector t.ring t.seq) s = .next (preload n v) ∧
          (benchOf v n).dresser = some (atStripStart { ring := t.ring, seq := t.seq, desc := d }) ∧ (benchOf v n).regs = {} ∧
          (benchOf v n).activity = .vector ∧ (∀ m, m ≠ n → benchOf v m = benchOf s m) ∧ v.mem = s.mem ∧ v.scratch = s.scratch))

/-- Gates and the end of tasks (R227, R240, R243, R244): FENCE_WAIT ends once its WAIT is done; FENCE_SIGNAL issues, and ends once every
earlier task of its ring has retired; BARRIER issues, and ends at its completion, as every other task does; each retires with its signal,
and the benches at work choose their next tasks (R238). A BARRIER that finds a transfer of an earlier task lost fails with its code: that
the first such BARRIER answers for it is the model's choice (log 88). ENQUEUE (R246): it is issued and takes its place behind the ENQUEUEs
that came before it; to a ring that does not take it it fails with 0x3302. Once there is room its descriptors stand in the ring's next
slots, TAIL rises by their number, and it retires. Completes: FENCE_WAIT, FENCE_SIGNAL, BARRIER, BARRIER_COMPLETE, TASK_COMPLETE, ENQUEUE,
ENQUEUE_APPEND. -/
def Obligations.TasksEndAndEnqueue : Prop :=
  (∀ (t : Task) (s : State), MayEnd t s →
     (t.header.type = .fenceWait → t.phase = .staged → t.stopping = false → t.waitDone = true →
       ∃ u, exec (.fenceWait t.ring t.seq) s = .next (preloadBenches u) ∧ Retired t s u) ∧
     (t.header.type = .fenceSignal →
       (mayIssue s t = true → earlierRetired s t = true →
         ∃ u, exec (.fenceSignal t.ring t.seq) s = .next (preloadBenches u) ∧ Retired t (noteClocks s) u) ∧
       (mayIssue s t = true → earlierRetired s t = false → exec (.fenceSignal t.ring t.seq) s = .next (preloadBenches (markIssued t s))) ∧
       (t.phase = .issued → t.stopping = false → earlierRetired s t = true →
         ∃ u, exec (.fenceSignal t.ring t.seq) s = .next (preloadBenches u) ∧ Retired t s u)) ∧
     (t.header.type = .barrier → t.bench = none → mayIssue s t = true →
       ((∀ x ∈ (ringOf s t.ring).lost, t.seq ≤ x.1) →
         exec (.barrier t.ring t.seq) s = .next { updTask t.ring t.seq (fun x => { x with phase := .issued }) (noteClocks s) with
           tallyIssued := s.tallyIssued.update 0 t.grove fun n => (n + 1) % 2 ^ 64
           opLines := s.opLines.filter fun l => l.tentative != some (t.ring, t.seq) }) ∧
       ∀ x xs, (ringOf s t.ring).lost = x :: xs → x.1 < t.seq →
         exec (.barrier t.ring t.seq) s = .next (failTask t x.2.1 (takeLost t.ring t.seq (markIssued t s)) 0 x.2.2)) ∧
     (t.header.type = .barrier → t.phase = .issued → t.stopping = false → earlierRetired s t = true →
       (ringTransfers s t.ring t.seq).isEmpty = true → ∃ u, exec (.barrierComplete t.ring t.seq) s = .next (preloadBenches u) ∧ Retired t s u) ∧
     (t.phase = .issued → t.workDone = true → t.blocked = false → t.transfers = [] →
       ∃ u, exec (.taskComplete t.ring t.seq) s = .next (preloadBenches u) ∧ Retired t s u)) ∧
  ((∀ (t : Task) (e : EnqueueDesc) (s : State), findTask s t.ring t.seq = some t → t.body = .enqueue e → t.bench = none →
     mayIssue s t = true →
     (enqueueEligible (markIssued t s) t e.ring = true → ∃ u, exec (.enqueue t.ring t.seq) s = .next u ∧
       u.tasks = (markIssued t s).tasks.filter (fun x => !x.is t.ring t.seq) ++ (markIssued t s).tasks.filter (Task.is t.ring t.seq) ∧
       (∀ x ∈ u.tasks, x.is t.ring t.seq = true → x.phase = .issued) ∧ u.rings = s.rings ∧ u.mem = s.mem ∧ u.err = s.err) ∧
     (enqueueEligible (markIssued t s) t e.ring = false →
       exec (.enqueue t.ring t.seq) s = .next (failTask t 0x3302 (markIssued t s)))) ∧
   (∀ (t : Task) (e : EnqueueDesc) (s v : State), findTask s t.ring t.seq = some t → t.body = .enqueue e → t.bench = none →
     t.phase = .issued → t.stopping = false → t.blocked = false → t.member = false → t.signalPa = none → enqueuesTo s e.ring = [t] →
     hasRoom s e = true → e.ring ≠ t.ring → v.rings = s.rings → v.tasks = s.tasks →
     appendDescs t e s = (.done (), updRing e.ring (fun q => { q with tail := q.tail + e.count }) v) →
     ∃ u, exec (.enqueueAppend t.ring t.seq) s = .next (preloadBenches u) ∧ (ringOf u e.ring).tail = (ringOf s e.ring).tail + e.count ∧
       u.tasks = s.tasks.filter (fun x => !x.is t.ring t.seq) ∧ u.mem = v.mem))

/-! ### The array and the Dresser (chapters 06 to 09) -/

/-- A pass (R123–R125, R157, R159, R190, R396): it waits while earlier tasks are still to write the scratch it reads (R319), and while the
governor admits no array input. The first pass of a tile reads its scales and initial values, opens its bank and reserves its entries, or
ends its task on an ACC96 input that R111 refuses; unless a VECTOR task issued before it has yet to begin (R194); without free entries the
row is withheld, and SKID_WAIT counts a number the model leaves free (log 6). A pass reads its panels, adds them into the bank and goes on
to the next pass; its cycles with zero weights beyond those of its rows are timing (log 6). Completes: PASS_START. -/
def Obligations.PassesAddIntoTheBank : Prop :=
  ∀ (n : Nat) (a : ArrayRun) (t : Task) (d : MatDesc) (s : State), (benchOf s n).run = some a → findTask s a.ring a.seq = some t →
    t.body = .mat d → worksOn s n t = true → t.stopping = false → taskPasses d ≠ 0 →
    (scratchHeld s t n (passRuns d a) = true ∨ governorAdmits s n d a = false → exec (.passStart n) s = .next s) ∧
    (scratchHeld s t n (passRuns d a) = false → governorAdmits s n d a = true → a.kp ≠ 0 ∨ tileOpen (benchOf s n) a = true →
      exec (.passStart n) s = .next (runPass n t d a s)) ∧
    (scratchHeld s t n (passRuns d a) = false → governorAdmits s n d a = true → a.kp = 0 → tileOpen (benchOf s n) a = false → vectorWaits s n = false →
      getBank (benchOf s n) (benchOf s n).nextB = none →
      (∀ r s1, (benchOf s n).skid.length + tileEntries d ≤ 16 → readTile (moveRequester t n) d a.tile (benchOf s n) s = (.done r, s1) →
        (∀ x, r = .ok x → exec (.passStart n) s = .next (runPass n t d a (updBenchState n (openTile t d a.tile x) s1)) ∧
          ∀ b : Bench, (openTile t d a.tile x b).skid = b.skid ++ reservedEntries t d a.tile ∧
            (reservedEntries t d a.tile).length = tileEntries d ∧ ∃ k, getBank (openTile t d a.tile x b) b.nextB = some k ∧
              k.cells = x.cells ∧ k.scales = x.scales ∧ k.full = false ∧ k.draining = false) ∧
        (∀ e, r = .error e → exec (.passStart n) s = .next (endEarly t e s1))) ∧
      (16 < (benchOf s n).skid.length + tileEntries d →
        ∃ u, exec (.passStart n) s = .next u ∧ u.mem = s.mem ∧ u.scratch = s.scratch ∧ u.tasks = s.tasks ∧
          { benchOf u n with skidWait := 0 } = { benchOf s n with skidWait := 0 } ∧ ∀ m, m ≠ n → benchOf u m = benchOf s m)) ∧
    (∀ x ws as s0 s1, passWeights (moveRequester t n) d a (benchOf x n) x = (.done ws, s0) →
      readStreams (moveRequester t n) d a.tile a.kp s0 = (.done as, s1) →
      let b := benchOf s1 n
      let ps := passPanels (getBank b b.nextB) ws as
      let u := addPass n d a ps s1
      let v := loadShadow n (noteArrayDone t n (updBenchState n (nextPass d a) (if a.kp = 0 then loadScales n t d a.tile u else u)))
      (v.err.inj.cells = [] → runPass n t d a x = v) ∧
      (∀ m, m ≠ n → benchOf u m = benchOf s1 m) ∧ u.mem = s1.mem ∧ u.scratch = s1.scratch ∧ u.err = s1.err ∧ u.power = s1.power ∧
      (benchOf u n).skid = b.skid ∧ (benchOf u n).passes = (b.passes + (if ps.isEmpty then 0 else 1)) % 2 ^ 64 ∧
      (getBank b (!b.nextB) = getBank (benchOf u n) (!b.nextB)) ∧
      (∀ k, getBank b b.nextB = some k → getBank (benchOf u n) b.nextB = some { k with
        cells := ps.foldl (fun c x => passSlot d x.1 (d.problems.getD x.1 {}) x.2 a.tile a.kp c) k.cells }) ∧
      ((passGated d a ps).2 = 0 → (benchOf u n).gated = (b.gated + (passGated d a ps).1) % 2 ^ 64))

/-- Drains and the skid (R107, R124, R191–R193): the drain fills the tile's entries with its conversion, or with free values where outputs
overlap what the task reads (R166; log 4); its boundary frees the bank; the Dresser takes the first drained entry, stores it or runs its
epilogue, and frees it; the last one ends its task's work. Detectors of a bench (R145, R198, R460): a corrected error is recorded and
counted and ends nothing; an uncorrected one with no task in its unit is recorded and counted; one that meets a task abandons the tile in
progress and ends the task with its code, once the Dresser has finished the entries already in the skid; an error of an accumulator bank
discards the tile of that bank; a register error within a block of a VECTOR task is counted when it is detected, and ends the task at the
end of the block. Which bank of two an error lies in is free (log 4). Completes: TILE_DRAIN, TILE_BOUNDARY, DRESSER_ENTRY_START,
SKID_ENTRY_FREE, ARRAY_PARITY_ERROR, DRESSER_PARITY_ERROR, SKID_ENTRY_ERROR. -/
def Obligations.TilesDrainOrFail : Prop :=
  (∀ (n : Nat) (s : State), clockOn s n = true →
     (∀ inB k t d, drainDue (benchOf s n) = some inB → getBank (benchOf s n) inB = some k → findTask s k.ring k.seq = some t →
       t.body = .mat d → ((benchOf s n).bankA.all fun b => !b.draining) = true → ((benchOf s n).bankB.all fun b => !b.draining) = true →
       let o := if outputsOverlap d then freeDrained d k.tile s.freeCount (drainTile d k) else drainTile d k
       ∃ u, exec (.tileDrain n) s = .next u ∧ getBank (benchOf u n) inB = some { k with draining := true } ∧
         (benchOf u n).skid = fillEntries t k.tile o (benchOf s n).skid ∧
         (benchOf u n).accSat = ((benchOf s n).accSat + (drainTile d k).sat.length) % 2 ^ 64 ∧ u.mem = s.mem ∧ u.scratch = s.scratch ∧
         u.tasks = s.tasks) ∧
     (n < 512 → ∃ u, exec (.tileBoundary n) s = .next u ∧ (∀ k, (benchOf u n).bankA = some k ∨ (benchOf u n).bankB = some k →
         k.draining = false) ∧ (∀ e ∈ (benchOf u n).skid, e.draining = false) ∧ (benchOf u n).skid.length = (benchOf s n).skid.length ∧
         (∀ e ∈ (benchOf s n).skid, e.draining = true → { e with draining := false, drained := true } ∈ (benchOf u n).skid) ∧
         u.mem = s.mem ∧ u.scratch = s.scratch ∧ u.tasks = s.tasks) ∧
     (∀ e es t d, (benchOf s n).dresser = none → (benchOf s n).skid = e :: es → e.drained = true → findTask s e.ring e.seq = some t →
       t.ring = e.ring → t.seq = e.seq → t.body = .mat d → t.blocked = false → s.err.inj.cells = [] →
       (∀ s1, d.epilogue = none → writeAll (dresserRequester t n) (entryWrites d e) s = (.done (), s1) →
         ∃ u, exec (.dresserEntryStart n) s = .next u ∧ (benchOf u n).activity = .storing ∧ (benchOf u n).regs = {} ∧
           (benchOf u n).dresser.map (·.done) = some true ∧ u.mem = s1.mem ∧ u.scratch = s1.scratch) ∧
       (∀ v x xs, d.epilogue = some v → e.tag.problems = x :: xs →
         ∃ u, exec (.dresserEntryStart n) s = .next u ∧ (benchOf u n).activity = .epilogue ∧ (benchOf u n).regs = {} ∧
           (benchOf u n).dresser = some (atStripStart
             { ring := t.ring, seq := t.seq, desc := v, entry := some e.tag, slotsLeft := xs, d2 := x }) ∧
           u.mem = s.mem ∧ u.scratch = s.scratch ∧ u.tasks = s.tasks)) ∧
     (∀ r tag t, (benchOf s n).dresser = some r → r.entry = some tag → r.done = true → s.tasks = [t] → t.ring = r.ring → t.seq = r.seq →
       t.ends = none → t.stopping = false → t.header.type ≠ .vector →
       ∃ u, exec (.skidEntryFree n) s = .next u ∧ (benchOf u n).dresser = none ∧ (benchOf u n).activity = .idle ∧
         (benchOf u n).skid = (benchOf s n).skid.drop 1 ∧ u.tasks = [if tag.last then { t with workDone := true } else t] ∧
         u.mem = s.mem ∧ u.scratch = s.scratch)) ∧
  (∀ (n : Nat) (s : State), n < 512 →
     exec (.arrayParityError n 0x2204) s =
       .next (countBenchError n false 0x2204 (report { code := 0x2204, source := srcBench s n } s)) ∧
     exec (.skidEntryError n true) s =
       .next (countBenchError n false 0x2322 (report { code := 0x2322, source := srcBench s n } s)) ∧
     (∀ c : W16, c = 0x2201 ∨ c = 0x2202 →
       (arrayTask s n = none → exec (.arrayParityError n c) s =
         .next (countBenchError n true c (report { code := c, source := srcBench s n } s))) ∧
       (∀ t, arrayTask s n = some t → t.onArray = true → t.bench = some n →
         let u := updBenchState n (fun b => abandonTile (erroneousTile t.ring t.seq b) t.ring t.seq b) s
         let e : TaskEnd := { code := c, source := some (srcBench s n) }
         (entriesLeft u t = false → exec (.arrayParityError n c) s = .next (countBenchError n true c (failAs t e u))) ∧
         (entriesLeft u t = true → exec (.arrayParityError n c) s = .next (countBenchError n true c
           (updTask t.ring t.seq (fun t => { t with ends := some e, arrayDone := true, blocked := false }) u))))) ∧
     ((benchOf s n).bankA = none → (benchOf s n).bankB = none → exec (.arrayParityError n 0x2203) s =
       .next (countBenchError n true 0x2203 (report { code := 0x2203, source := srcBench s n } s))) ∧
     let bankEnd (t : Task) : State → State :=
       endAtTile (erroneousTile t.ring t.seq) t { code := 0x2203, source := some (srcBench s n) }
     (∀ k t, ((benchOf s n).bankA = some k ∧ (benchOf s n).bankB = none) ∨ ((benchOf s n).bankA = none ∧ (benchOf s n).bankB = some k) →
       findTask s k.ring k.seq = some t → exec (.arrayParityError n 0x2203) s =
         .next (countBenchError n true 0x2203 (bankEnd t (updBenchState n (discardTile k) s)))) ∧
     (∀ k l, (benchOf s n).bankA = some k → (benchOf s n).bankB = some l → ∃ x u, (x = k ∨ x = l) ∧
       u = updBenchState n (discardTile x) { s with freeCount := s.freeCount + 1 } ∧
       ∀ t, findTask s x.ring x.seq = some t → exec (.arrayParityError n 0x2203) s =
         .next (countBenchError n true 0x2203 (bankEnd t u))) ∧
     (∀ t, vectorMidBlock (benchOf s n) = false → dresserTask s n 0x2320 = some t →
       exec (.dresserParityError n) s = .next (countBenchError n true 0x2320 (failAs t { code := 0x2320, source := some (srcBench s n) } s))) ∧
     (∀ r, (benchOf s n).dresser = some r → r.entry = none → r.midBlock = true →
       (r.ends = none → exec (.dresserParityError n) s = .next (countBenchError n true 0x2320
         (updBenchState n (fun b => { b with dresser := some { r with ends := some { code := 0x2320 } } }) s))) ∧
       (r.ends.isSome = true → exec (.dresserParityError n) s =
         .next (countBenchError n true 0x2320 (report { code := 0x2320, source := srcBench s n } s)))) ∧
     (∀ t, dresserTask s n 0x2321 = some t →
       exec (.skidEntryError n false) s = .next (countBenchError n true 0x2321 (failAs t { code := 0x2321, source := some (srcBench s n) } s))))

/-- Lane operations (R172, R179, R180): every active lane of the destination takes the operation's value of its operands as they stood
before; the run goes on past the instruction. Completes: NOP, IOTA, FMA, CLAMP, ISHR, CVTF, MOV, ADD, SUB, MUL, MIN, MAX, ABS, NEG, RCP,
SQRT, RSQRT, EXP, LOG, TANH, SIGMOID, SILU, GELU, RELU, DIV, IADD, ISUB, IMUL, IMIN, IMAX, CVTI. -/
def Obligations.LaneOperationsWriteActiveLanes : Prop :=
  ∀ (op n : Nat) (i : Instr) (c : DCtx) (s v : State), DresserReady op n c s v →
    (∀ f, (op, i, f) ∈ laneOps2 n →
      exec i s = .next (pastInstr c (c.mapLanes (fun g l => f (c.opA g l) (c.opB g l)) (benchOf v n).regs) v)) ∧
    (∀ f, (op, i, f) ∈ laneOps1 n → exec i s = .next (pastInstr c (c.mapLanes (fun g l => f (c.opA g l)) (benchOf v n).regs) v)) ∧
    (op = 0x13 → exec (.fma n) s =
      .next (pastInstr c (c.mapLanes (fun g l => fp32Fma (c.opA g l) (c.opB g l) (c.opD g l)) (benchOf v n).regs) v)) ∧
    (op = 0x18 → exec (.clamp n) s =
      .next (pastInstr c (c.mapLanes (fun g l => fp32Min (fp32Max (c.opA g l) (c.opB g l)) c.instr.imm) (benchOf v n).regs) v)) ∧
    (op = 0x3D → exec (.ishr n) s =
      .next (pastInstr c (c.mapLanes (fun g l => (c.opA g l).sshiftRight (bitsOf c.instr.imm.toNat 4 0)) (benchOf v n).regs) v)) ∧
    (op = 0x0A → exec (.iota n) s = .next (pastInstr c (c.mapLanes (fun _ l => BitVec.ofNat 32
      (if bitsOf c.instr.imm.toNat 1 0 = 0 then c.grow (l / 16) else if bitsOf c.instr.imm.toNat 1 0 = 1 then c.gcol (l % 16)
       else if bitsOf c.instr.imm.toNat 1 0 = 2 then c.run.d2 else c.run.d3)) (benchOf v n).regs) v)) ∧
    (op = 0x00 → exec (.nop n) s = .next (pastInstr c (benchOf v n).regs v)) ∧
    (op = 0x3F → exec (.cvtf n) s = .next (pastInstr c (c.mapLanes (fun g l => (cvtf (c.opA g l)).1) (benchOf v n).regs)
      (addCounts n ((c.activeLanes (benchOf v n).regs).foldl (fun k l => k.add (cvtf (c.opA (benchOf v n).regs l)).2) {}) v)))

/-- What "the active lanes take a value" means (R172), for any values: an active lane of the destination holds its value, an inactive lane,
every other register, the masks and the top-k lists what they held; and the instruction leaves memory, scratch and every other bench alone,
unless it is the last of a task that is to stop. -/
def Obligations.LaneWritesKeepTheRest : Prop :=
  (∀ (c : DCtx) (f : DresserRegs → Nat → W32) (g : DresserRegs),
    let h := c.mapLanes f g
    (∀ l ∈ c.lanes, c.opD h l = if c.active g l then f g l else c.opD g l) ∧
    (∀ r l, l < 256 → r ≠ c.instr.dst ∨ c.block = false → tileLane h r l = tileLane g r l) ∧
    (∀ r l, l < 16 → r ≠ c.instr.dst ∨ c.block = true → stripLane h r l = stripLane g r l) ∧ h.masks = g.masks ∧ h.topk = g.topk) ∧
  (∀ (op n : Nat) (c : DCtx) (g : DresserRegs) (s v : State), DresserReady op n c s v → c.task.stopping = false →
    let u := pastInstr c g v
    u.mem = s.mem ∧ u.scratch = s.scratch ∧ u.err = s.err ∧ u.power = s.power ∧ u.rings = s.rings ∧
      (∀ m, m ≠ n → benchOf u m = benchOf s m) ∧
      ((nextInstr c.mat c.run).done = false →
        (benchOf u n).regs = g ∧ (benchOf u n).dresser = some (nextInstr c.mat c.run) ∧ u.tasks = s.tasks))

/-- Masks, SELECT, ROPE, reductions and top-k lists (R172, R182, R186, R188). CMP and the mask operations write the active lanes of a mask
register; SELECT writes every lane within M0; a reduction writes the strip lane of each row that has an active lane. Completes: SELECT,
ROPE, CMP, MAND, MOR, MNOT, TOPK_CLEAR, TOPK, RSUM, RMAX, RMIN. -/
def Obligations.MasksRowsAndLists : Prop :=
  ∀ (op n : Nat) (c : DCtx) (s v : State), DresserReady op n c s v →
    let g := (benchOf v n).regs
    let masks (f : Nat → Bool) := pastInstr c (c.lanes.foldl (fun h l => if c.active g l then c.setM l (f l) h else h) g) v
    (op = 0x30 → exec (.cmp n) s = .next (masks fun l => cmpLane (bitsOf c.instr.imm.toNat 2 0) (c.opA g l) (c.opB g l))) ∧
    (op = 0x31 → exec (.mand n) s = .next (masks fun l => c.maskAt g c.instr.srcA l && c.maskAt g c.instr.srcB l)) ∧
    (op = 0x32 → exec (.mor n) s = .next (masks fun l => c.maskAt g c.instr.srcA l || c.maskAt g c.instr.srcB l)) ∧
    (op = 0x33 → exec (.mnot n) s = .next (masks fun l => !c.maskAt g c.instr.srcA l)) ∧
    (op = 0x0B → exec (.select n) s = .next (pastInstr c ((c.lanes.filter c.m0).foldl (fun h l =>
      c.setD l (if c.maskAt g c.instr.mask l then c.opA g l else c.opB g l) h) g) v)) ∧
    (op = 0x23 → c.block = true → ∃ h, exec (.rope n) s = .next (pastInstr c h v) ∧ h.masks = g.masks ∧
      h.strips = g.strips ∧ (∀ r l, l < 256 → r ≠ c.instr.dst → tileLane h r l = tileLane g r l) ∧
      ∀ l, l < 256 → l % 2 = 0 → c.active g l = true → c.active g (l + 1) = true →
        let x := fp32Val (c.opA g l)
        let y := fp32Val (c.opA g (l + 1))
        let co := fp32Val (c.opB g l)
        let si := fp32Val (tileLane g (bitsOf c.instr.imm.toNat 4 0) l)
        tileLane h c.instr.dst l = fp32Of ((x.mul co).add (y.mul si).neg) ∧
          tileLane h c.instr.dst (l + 1) = fp32Of ((x.mul si).add (y.mul co))) ∧
    (∀ id f i, (op, id, f, i) ∈ ([(0x40, fp32NegZero, (fun x ls => fp32Add x (treeSum 4 ls)), .rsum n),
        (0x41, 0xFF800000#32, (fun x ls => fp32Max x (ls.foldl fp32Max 0xFF800000#32)), .rmax n),
        (0x42, 0x7F800000#32, (fun x ls => fp32Min x (ls.foldl fp32Min 0x7F800000#32)), .rmin n)] :
          List (Nat × W32 × (W32 → List W32 → W32) × Instr)) →
      ∃ h, exec i s = .next (pastInstr c h v) ∧ h.tiles = g.tiles ∧ h.masks = g.masks ∧
        (∀ r l, l < 16 → r ≠ c.instr.dst → stripLane h r l = stripLane g r l) ∧
        ∀ r, r < 16 → stripLane h c.instr.dst r =
          (if (List.range 16).any (fun k => c.active g (r * 16 + k)) then
             f (stripLane g c.instr.dst r) ((List.range 16).map fun k => if c.active g (r * 16 + k) then c.opA g (r * 16 + k) else id)
           else stripLane g c.instr.dst r)) ∧
    (op = 0x48 → c.block = false → ∃ h, exec (.topkClear n) s = .next (pastInstr c h v) ∧ h.tiles = g.tiles ∧
      h.strips = g.strips ∧ h.masks = g.masks ∧ ∀ r, r < 16 → h.topk.get {} r =
        (if c.active g r then { k := bitsOf c.instr.imm.toNat 6 0, ascending := bitOf c.instr.imm.toNat 8, items := [] }
         else g.topk.get {} r)) ∧
    (op = 0x49 → exec (.topk n) s = .next (pastInstr c { g with topk := (c.activeLanes g).foldl (fun t l => t.update {} (l / 16)
      (topkMerge (c.opA g l, if bitOf c.instr.imm.toNat 0 then tileLane g c.instr.srcB l else BitVec.ofNat 32 (c.gcol (l % 16))))) g.topk } v))

/-- A top-k list (R188): merging a candidate keeps it in order and within its k, and every element of the old list that is no longer there
comes after every element that is. -/
def Obligations.TopkKeepsTheBest : Prop :=
  ∀ (a : W32 × W32) (t : TopkRow), t.items.Pairwise (fun x y => topkBefore t.ascending y x = false) → t.items.length ≤ t.k →
    let u := topkMerge a t
    u.items.Pairwise (fun x y => topkBefore t.ascending y x = false) ∧ u.items.length = min (t.items.length + 1) t.k ∧
      (∀ x ∈ u.items, x = a ∨ x ∈ t.items) ∧ ∀ x, (x = a ∨ x ∈ t.items) → x ∉ u.items → ∀ y ∈ u.items, topkBefore t.ascending x y = false

/-- Loads (R175, R183, R187): when the elements can be read the instruction completes, and the lanes that are not active and the other
registers stay; where each active lane's element is read as it stands, the lanes take them and nothing else changes. Completes: LOAD,
LOADSKID, SLOAD, GATHER. -/
def Obligations.LoadsFillActiveLanes : Prop :=
  ∀ (op n : Nat) (c : DCtx) (x : Nat → W32) (s v : State), DresserReady op n c s v →
    let g := (benchOf v n).regs
    (∀ (f : Effect) (i : Instr) (h : DresserRegs) (w : State),
      (op, f, i) ∈ ([(0x01, loadEffect, .load n), (0x04, sloadEffect, .sload n), (0x06, gatherEffect, .gather n)] :
        List (Nat × Effect × Instr)) → f c g v = (.done h, w) → exec i s = .next (pastInstr c h w) ∧
        (∀ l ∈ c.lanes, c.active g l = false → c.opD h l = c.opD g l) ∧
        (∀ r l, l < 256 → r ≠ c.instr.dst ∨ c.block = false → tileLane h r l = tileLane g r l) ∧
        (∀ r l, l < 16 → r ≠ c.instr.dst ∨ c.block = true → stripLane h r l = stripLane g r l) ∧ h.masks = g.masks ∧ h.topk = g.topk) ∧
    (op = 0x01 → (∀ l ∈ c.activeLanes g, c.loadLane c.tensor (c.grow (l / 16)) (c.gcol (l % 16)) v = (.done (x l), v)) →
      exec (.load n) s = .next (pastInstr c (c.mapLanes (fun _ l => x l) g) v)) ∧
    (op = 0x04 → (∀ l ∈ c.activeLanes g, c.loadLane c.tensor (c.grow l) 0 v = (.done (x l), v)) →
      exec (.sload n) s = .next (pastInstr c (c.mapLanes (fun _ l => x l) g) v)) ∧
    (op = 0x06 → (∀ l ∈ c.activeLanes g, c.gatherLane g l v = (.done (x l), v)) →
      exec (.gather n) s = .next (pastInstr c (c.mapLanes (fun _ l => x l) g) v)) ∧
    (∀ e es, op = 0x02 → (benchOf v n).skid = e :: es →
      exec (.loadskid n) s = .next (pastInstr c (c.mapLanes (fun _ l => c.skidLane e l) g) v)) ∧
    (∀ l, c.inRange g c.tensor l = none → c.gatherLane g l v = (.done 0, v)) ∧
    (c.tensor.kind = .memory → addrScratch (c.tensor.address + c.rowOffset c.tensor (c.grow 0)) = true → isMx c.tensor.format = false →
      0 < formatBits c.tensor.format → ∃ w, c.loadLane c.tensor (c.grow 0) 0 v = (.done w, v))

/-- Stores (R177, R184, R187). To a tensor of a scalar format in bench scratch each completes, leaves memory as it was, and changes no byte
of scratch outside the elements of its active lanes, at the addresses the operation itself forms; whatever the tensor, a store whose lanes
are all written goes on past the instruction with its registers unchanged. Completes: STORE, SSTORE, SCATTER, SCATADD, TOPK_EMIT. -/
def Obligations.StoresStayInTheirElements : Prop :=
  ∀ (op n : Nat) (c : DCtx) (s v : State), DresserReady op n c s v →
    let g := (benchOf v n).regs
    let t := c.tensor
    let bits := formatBits t.format
    let outside (a p i : Nat) : Prop := a < n * scratchSize + addrOffset (p + i * bits / 8) ∨
      n * scratchSize + addrOffset (p + i * bits / 8) + ((i * bits + bits - 1) / 8 - i * bits / 8) < a
    (∀ (f : Effect) (i : Instr) (h : DresserRegs) (w : State),
      (op, f, i) ∈ ([(0x03, storeEffect, .store n), (0x05, sstoreEffect, .sstore n), (0x07, scatterEffect, .scatter n),
        (0x08, scataddEffect, .scatadd n), (0x4A, topkEmitEffect, .topkEmit n)] : List (Nat × Effect × Instr)) →
      f c g v = (.done h, w) → h = g ∧ exec i s = .next (pastInstr c g w)) ∧
    (t.kind = .memory → isMx t.format = false → 0 < bits → c.task.stopping = false →
      let scratch (p i : Nat) : Prop := addrScratch (p + i * bits / 8) = true
      (op = 0x03 → c.block = true →
        (∀ l ∈ c.activeLanes g, scratch (t.address + c.rowOffset t (c.grow (l / 16))) (tensorCol t (c.gcol (l % 16)))) →
        ∃ u, exec (.store n) s = .next u ∧ u.mem = s.mem ∧ u.rings = s.rings ∧
          ∀ a, (∀ l ∈ c.activeLanes g, outside a (t.address + c.rowOffset t (c.grow (l / 16))) (tensorCol t (c.gcol (l % 16)))) →
            memGet u.scratch a = memGet s.scratch a) ∧
      (∀ l u, op = 0x03 → c.block = true → c.activeLanes g = [l] → exec (.store n) s = .next u →
        scratch (t.address + c.rowOffset t (c.grow (l / 16))) (tensorCol t (c.gcol (l % 16))) →
        readElem c.requester bits (t.address + c.rowOffset t (c.grow (l / 16))) (tensorCol t (c.gcol (l % 16))) u =
          (.done ((storeCode t.format (c.opA g l)).1 % 2 ^ bits), u)) ∧
      (op = 0x05 → c.block = false → (∀ l ∈ c.activeLanes g, scratch (t.address + c.rowOffset t (c.grow l)) (tensorCol t 0)) →
        ∃ u, exec (.sstore n) s = .next u ∧ u.mem = s.mem ∧ u.rings = s.rings ∧
          ∀ a, (∀ l ∈ c.activeLanes g, outside a (t.address + c.rowOffset t (c.grow l)) (tensorCol t 0)) →
            memGet u.scratch a = memGet s.scratch a) ∧
      (op = 0x07 ∨ (op = 0x08 ∧ bits = 32) →
        (∀ l ∈ c.activeLanes g, ∀ i, c.inRange g t l = some i → scratch (c.indexedPlace t l i).1 (c.indexedPlace t l i).2) →
        ∃ u, (op = 0x07 → exec (.scatter n) s = .next u) ∧ (op = 0x08 → exec (.scatadd n) s = .next u) ∧ u.mem = s.mem ∧
          u.rings = s.rings ∧
          ∀ a, (∀ l ∈ c.activeLanes g, ∀ i, c.inRange g t l = some i → outside a (c.indexedPlace t l i).1 (c.indexedPlace t l i).2) →
            memGet u.scratch a = memGet s.scratch a))

/-! ### Deck (chapter 09) -/

/-- Operations on sequences (R201, R206, R209, R210, R214, R221): what each leaves in the sequence table of its home, and in its result
record: handle, C, PROV and the operation's word; QUERY's is the entry's 64 bytes. CREATE makes the lowest free slot live with the next
generation; EXTEND adds tokens, with the pages they need; COMMIT and ROLLBACK settle the provisional ones; RELEASE moves the slot to
SCRUBBING under a new generation; FORK shares whole pages, each counted once more; QUERY changes nothing. No other entry of the home
changes; each counts in DECK_OPS. A slot of generation 0xFFFF keeps it (log 48). The record of an operation (R209, R210, R221, R222),
wherever RESULT places it: an operation whose effect is `v` writes it and its work is done; one that is refused leaves its record with the
entry as it stands, then fails with the code; a FORK that copies part of a page is one of the former. QUERY writes none when it is refused.
Completes: DECK_CREATE, DECK_EXTEND_PROVISIONAL, DECK_EXTEND_COMMITTED, DECK_COMMIT, DECK_ROLLBACK, DECK_FORK, DECK_RELEASE, DECK_QUERY. -/
def Obligations.DeckOperationsTakeEffect : Prop :=
  (∀ (t : Task) (d : DeckDesc) (n : Nat) (s : State), (hasResult d = true → InScratch d.result (if d.op = .query then 64 else 16)) →
     let g := handleGrove d.handle
     let i := handleSlot d.handle
     let e := seqOf (deckOf s g) i
     let only (u : State) (k : Nat) : Prop := ∀ m, m ≠ k → seqOf (deckOf u g) m = seqOf (deckOf s g) m
     (∀ j, DeckRuns .create t d n s → t.grove < 4 → rowBytesShort (deckOf s t.grove).pageLog2 d.streamsLog2 = false →
       newSeqRefusal s t.partition t.grove = none → freeSlotOf (deckOf s t.grove) = some j →
       let x : SeqEntry := { gen := min ((seqOf (deckOf s t.grove) j).gen + 1) 0xFFFF, state := .live, streamsLog2 := d.streamsLog2
                             context := t.context, partition := t.partition }
       ∃ u, exec (.deckCreate t.ring t.seq) s = .next u ∧ DeckDone t d n (resultRecord (handleOf t.grove j x.gen) x 0) s u ∧
         seqOf (deckOf u t.grove) j = x ∧ ∀ k, k ≠ j → seqOf (deckOf u t.grove) k = seqOf (deckOf s t.grove) k) ∧
     (∀ v, DeckRuns .extendCommitted t d n s → provOf e = 0 → 1 ≤ d.count → d.count ≤ 65536 →
       e.committed + d.count ≤ tokenLimit (deckOf s g) → takePages i (pagesShort e (e.committed + d.count)) (deckOf s g) = some v →
       tableRefusal s g [] (nextPages (deckOf s g) (pagesShort e (e.committed + d.count))) = none →
       ∃ u, exec (.deckExtendCommitted t.ring t.seq) s = .next u ∧ DeckDone t d n (resultRecord d.handle (seqOf (deckOf u g) i) e.committed) s u ∧
         (seqOf (deckOf u g) i).committed = e.committed + d.count ∧ (seqOf (deckOf u g) i).groups = [] ∧
         (seqOf (deckOf u g) i).pages.length = e.pages.length + pagesShort e (e.committed + d.count) ∧ only u i) ∧
     (∀ v, DeckRuns .extendProvisional t d n s → 1 ≤ d.count → provOf e + d.count ≤ 16 →
       labelsGood ((e.groups ++ List.replicate d.count (deckGroup s t)).map (countsAs s)) = true →
       e.committed + provOf e + d.count ≤ tokenLimit (deckOf s g) →
       takePages i (pagesShort e (e.committed + provOf e + d.count)) (deckOf s g) = some v →
       tableRefusal s g [] (nextPages (deckOf s g) (pagesShort e (e.committed + provOf e + d.count))) = none →
       ∃ u, exec (.deckExtendProvisional t.ring t.seq) s = .next u ∧
         DeckDone t d n (resultRecord d.handle (seqOf (deckOf u g) i) (e.committed + provOf e)) s u ∧
         (seqOf (deckOf u g) i).committed = e.committed ∧
         (seqOf (deckOf u g) i).groups = e.groups ++ List.replicate d.count (deckGroup s t) ∧ only u i) ∧
     (DeckRuns .commit t d n s → d.count ≤ provOf e → groupsOpen s e = false →
       let x := { e with committed := e.committed + d.count, groups := [] }
       ∃ u, exec (.deckCommit t.ring t.seq) s = .next u ∧ DeckDone t d n (resultRecord d.handle x 0) s u ∧ seqOf (deckOf u g) i = x ∧ only u i) ∧
     (DeckRuns .rollback t d n s → groupsOpen s e = false →
       let x := { e with groups := [] }
       ∃ u, exec (.deckRollback t.ring t.seq) s = .next u ∧ DeckDone t d n (resultRecord d.handle x 0) s u ∧ seqOf (deckOf u g) i = x ∧ only u i) ∧
     (DeckRuns .release t d n s →
       let x : SeqEntry := { e with gen := min (e.gen + 1) 0xFFFF, state := .scrubbing }
       ∃ u, exec (.deckRelease t.ring t.seq) s = .next u ∧ DeckDone t d n (resultRecord d.handle x 0) s u ∧ seqOf (deckOf u g) i = x ∧ only u i) ∧
     (∀ j, DeckRuns .fork t d n s → d.count ≤ e.committed → d.count % 16 = 0 → newSeqRefusal s t.partition g = none →
       freeSlotOf (deckOf s g) = some j → tableRefusal s g [] (e.pages.take (d.count / 16)) = none →
       let x := { e with gen := min ((seqOf (deckOf s g) j).gen + 1) 0xFFFF, committed := d.count, groups := []
                         pages := e.pages.take (d.count / 16) }
       ∃ u, exec (.deckFork t.ring t.seq) s = .next u ∧ DeckDone t d n (resultRecord (handleOf g j x.gen) x 0) s u ∧
         seqOf (deckOf u g) j = x ∧ only u j ∧ (deckOf u g).refs = (sharePages x.pages (deckOf s g)).refs ∧
         (deckOf u g).freeStack = (deckOf s g).freeStack) ∧
     (DeckRuns .query t d n s → ∃ u, exec (.deckQuery t.ring t.seq) s = .next u ∧ DeckDone t d n (seqBytes e) s u ∧
       ∀ k, seqOf (deckOf u g) k = seqOf (deckOf s g) k)) ∧
  (∀ (op : DeckOp) (f : Task → DeckDesc → State → DeckEffect) (c : Instr) (t : Task) (d : DeckDesc) (n : Nat) (s : State),
     (op, f, c) ∈ ([(.create, deckCreate, .deckCreate t.ring t.seq), (.extendCommitted, deckExtendCommitted, .deckExtendCommitted t.ring t.seq),
       (.extendProvisional, deckExtendProvisional, .deckExtendProvisional t.ring t.seq), (.commit, deckCommit, .deckCommit t.ring t.seq),
       (.rollback, deckRollback, .deckRollback t.ring t.seq), (.release, deckRelease, .deckRelease t.ring t.seq),
       (.fork, deckFork, .deckFork t.ring t.seq), (.query, deckQuery, .deckQuery t.ring t.seq)] :
         List (DeckOp × (Task → DeckDesc → State → DeckEffect) × Instr)) →
     (∀ u h word w, DeckRuns op t d n s → s.err.inj.cells = [] → f t d s = .ok (u, h, word) →
       let e := seqOf (deckOf u (handleGrove h)) (handleSlot h)
       let record := if op = .query then seqBytes e else resultRecord h e word
       let v := updTask t.ring t.seq (fun t => { t with snapshot := some (natOfBytes record) }) (countDeckOp (homeOf t d) u)
       (hasResult d = false → exec c s = .next (markWorkDone t.ring t.seq v)) ∧
       (hasResult d = true → fieldWrite (moveRequester t n) d.result record v = (.done (), w) →
         exec c s = .next (markWorkDone t.ring t.seq w))) ∧
     (∀ code, DeckWorks op t d n s → deckRefusal s t d = some code ∨ (deckRefusal s t d = none ∧ f t d s = .error code) → t.member = false →
       t.header.abortOnFail = false → (hasResult d = true → InScratch d.result 16) →
       ∃ u, exec c s = .next u ∧ (∃ x ∈ (ringOf u t.ring).failures, x.code = code ∧ x.at_ = t.seq) ∧ u.mem = s.mem ∧
         (∀ g, deckOf u g = deckOf s g) ∧ (op = .query → u.scratch = s.scratch) ∧ (op ≠ .query → ResultIn d n (failedRecord s d) s u)))

/-- WRITE and READ (R210, R212, R213, R303): once every row may be written, or the snapshot is taken, and their stakes serve, the rows move,
the record is written and the task's work is done; a row that breaks R212 refuses the WRITE with 0x3809 and nothing is written but its
record. A row between scratch and the pool carries its bytes and changes no other. Deck units (R205, R214, R217, R251): DECK_CTL.ENABLE of a
good configuration begins the zeroing of its area, of a bad one sets CONFIG_ERR; the unit is enabled once the area is zeroed; a released
sequence is FREE again once its pages are done; a truncation drops a group's provisional tokens and a relabel confirms them. Stated where
the unit's own accesses to its area are served: what a refused one leaves is the model's choice (log 87). Completes: DECK_WRITE, DECK_READ,
DECK_ENABLE, DECK_ZEROING_DONE, DECK_SCRUB_DONE, DECK_TRUNCATION, DECK_RELABEL. -/
def Obligations.DeckRowsAndUnits : Prop :=
  (∀ (t : Task) (d : DeckDesc) (n : Nat) (s : State),
     let g := handleGrove d.handle
     let u := deckOf s g
     let e := seqOf u (handleSlot d.handle)
     let pages (tokens : Nat) := tableRefusal s g [] (rowPages e (deckRows d tokens))
     let stakes (tokens : Nat) := rowsRefusal s u e (deckRows d tokens)
     let writable := (deckRows d d.count).all fun r => rowWritable s t u e r.1 r.2 0 (rowBytes u e)
     let begun (record : List Byte) := updTask t.ring t.seq (fun t => { t with snapshot := some (natOfBytes record) }) (countDeckOp g s)
     let ends (c : Instr) (record : List Byte) (w : State) : Prop :=
       (hasResult d = false → exec c s = .next (markWorkDone t.ring t.seq w)) ∧
       (∀ x, hasResult d = true → fieldWrite (moveRequester t n) d.result record w = (.done (), x) →
         exec c s = .next (markWorkDone t.ring t.seq x))
     let wrote := resultRecord d.handle e 0
     let read := resultRecord d.handle e (readTokens e d)
     (DeckRuns .write t d n s → pages d.count = none → writable = false →
       t.member = false → t.header.abortOnFail = false → (hasResult d = true → InScratch d.result 16) →
       ∃ w, exec (.deckWrite t.ring t.seq) s = .next w ∧ (∃ f ∈ (ringOf w t.ring).failures, f.code = 0x3809 ∧ f.at_ = t.seq) ∧
         w.mem = s.mem ∧ ResultIn d n wrote s w) ∧
     (∀ w, DeckRuns .write t d n s → t.progress = 0 → pages d.count = none → stakes d.count = none → writable = true →
       moveRows { t with snapshot := some (natOfBytes wrote) } d n (deckRows d d.count) (begun wrote) = (.done (), w) →
       ends (.deckWrite t.ring t.seq) wrote w) ∧
     (∀ w, DeckRuns .read t d n s → t.progress = 0 → d.streamFirst + d.streamCount ≤ 2 ^ e.streamsLog2 → readTokens e d < 2 ^ 32 →
       stakes (readTokens e d) = none →
       moveRows { t with snapshot := some (natOfBytes read) } d n (deckRows d (readTokens e d)) (begun read) = (.done (), w) →
       ends (.deckRead t.ring t.seq) read w) ∧
     (DeckRuns .write t d n s → t.progress = 0 → d.count = 1 → d.streamCount = 1 → hasResult d = false → pages 1 = none → stakes 1 = none →
       rowWritable s t u e d.streamFirst d.first 0 (rowBytes u e) = true → addrScratch d.data = true → 0 < rowBytes u e →
       ServesWrite rowRequester (rowAddr u e d.streamFirst d.first) (rowBytes u e) s →
       InPlain s (rowAddr u e d.streamFirst d.first) (rowBytes u e) →
       ∃ w, exec (.deckWrite t.ring t.seq) s = .next w ∧ (findTask w t.ring t.seq).map (·.workDone) = some true ∧
         memRead w.mem (rowAddr u e d.streamFirst d.first) (rowBytes u e) = scratchRead s n (addrOffset d.data) (rowBytes u e) ∧
         (∀ a, a < rowAddr u e d.streamFirst d.first ∨ rowAddr u e d.streamFirst d.first + rowBytes u e ≤ a →
           memGet w.mem a = memGet s.mem a) ∧ w.scratch = s.scratch) ∧
     (DeckRuns .read t d n s → t.progress = 0 → readTokens e d = 1 → d.streamCount = 1 → d.streamFirst + 1 ≤ 2 ^ e.streamsLog2 →
       hasResult d = false → stakes 1 = none → addrScratch d.data = true → 0 < rowBytes u e →
       ServesRead rowRequester (rowAddr u e d.streamFirst d.first) (rowBytes u e) s →
       InPlain s (rowAddr u e d.streamFirst d.first) (rowBytes u e) →
       ∃ w, exec (.deckRead t.ring t.seq) s = .next w ∧ (findTask w t.ring t.seq).map (·.workDone) = some true ∧ w.mem = s.mem ∧
         scratchRead w n (addrOffset d.data) (rowBytes u e) = memRead s.mem (rowAddr u e d.streamFirst d.first) (rowBytes u e) ∧
         ∀ a, a < n * scratchSize + addrOffset d.data ∨ n * scratchSize + addrOffset d.data + rowBytes u e ≤ a →
           memGet w.scratch a = memGet s.scratch a)) ∧
  (∀ (g i : Nat) (v : W64) (s : State),
     (g < 4 → inService s = true → (deckOf s g).enable = false → (deckOf s g).zeroing = false → v.getLsbD 0 = true →
       let u := { deckOf s g with pageLog2 := bitsOf v.toNat 20 16, listLog2 := bitsOf v.toNat 12 8 }
       ∃ t, exec (.deckEnable g v) s = .next t ∧
         deckOf t g = (if deckConfigGood s u then { u with zeroing := true, configErr := false } else { u with configErr := true }) ∧
         (∀ h, h ≠ g → deckOf t h = deckOf s h) ∧ t.mem = s.mem) ∧
     ((deckOf s g).zeroing = true → ∃ t, exec (.deckZeroingDone g) s = .next t ∧
       deckOf t g = { deckOf s g with zeroing := false, enable := true } ∧
       (∀ a, (deckOf s g).areaBase ≤ a → a < (deckOf s g).areaBase + areaBytes (deckOf s g) → memGet t.mem a = 0) ∧
       (∀ a, a < (deckOf s g).areaBase ∨ (deckOf s g).areaBase + areaBytes (deckOf s g) ≤ a → memGet t.mem a = memGet s.mem a)) ∧
     ((seqOf (deckOf s g) i).state = .scrubbing → seqInUse s g i = false → (s.groveResets.get {} g).busy = false → tableRefusal s g [i] [] = none →
       ∃ t, exec (.deckScrubDone g i) s = .next t ∧ seqOf (deckOf t g) i =
         { gen := (seqOf (deckOf s g) i).gen, state := if (seqOf (deckOf s g) i).gen = 0xFFFF then .retired else .free } ∧
         (∀ k, k ≠ i → seqOf (deckOf t g) k = seqOf (deckOf s g) k) ∧
         ((seqOf (deckOf s g) i).pages = [] → t.mem = s.mem) ∧
         ∀ p, (seqOf (deckOf s g) i).pages = [p] → tableRefusal s g [] [p] = none →
           ((deckOf s g).refs.get 0 p = 1 → accessRefusal s rowRequester true (pageAddr (deckOf s g) p) (2 ^ (deckOf s g).pageLog2) = none →
             (deckOf t g).freeStack = p :: (deckOf s g).freeStack ∧ ∀ a, memGet t.mem a =
             (if pageAddr (deckOf s g) p ≤ a ∧ a < pageAddr (deckOf s g) p + 2 ^ (deckOf s g).pageLog2 then 0 else memGet s.mem a)) ∧
           (1 < (deckOf s g).refs.get 0 p → (deckOf t g).refs.get 0 p = (deckOf s g).refs.get 0 p - 1 ∧ t.mem = s.mem ∧
             (deckOf t g).freeStack = (deckOf s g).freeStack)) ∧
     (∀ h k, handleGrove h = g → handleSlot h = i → (seqOf (deckOf s g) i).state = .live → (seqOf (deckOf s g) i).gen = handleGen h →
       (groupOf s k).deckPending.contains h = true → (s.groveResets.get {} g).busy = false →
       placesRefusal s [((deckOf s g).areaBase + 64 * i, 64)] = none →
       ((groupOf s k).state = .squashing → ∃ t, exec (.deckTruncation h k) s = .next t ∧
         (seqOf (deckOf t g) i).groups = (seqOf (deckOf s g) i).groups.takeWhile (fun x => x != k) ∧
         (seqOf (deckOf t g) i).committed = (seqOf (deckOf s g) i).committed ∧ t.mem = s.mem) ∧
       ((groupOf s k).state = .confirming → ∃ t, exec (.deckRelabel h k) s = .next t ∧
         (seqOf (deckOf t g) i).groups = (seqOf (deckOf s g) i).groups.map (fun x => if x = k then 0 else x) ∧
         (seqOf (deckOf t g) i).committed = (seqOf (deckOf s g) i).committed ∧ t.mem = s.mem)))

/-! ### MOVE and the tiers (chapter 11) -/

/-- MOVE (R273–R276): a task whose units are all done has done its work; it stands where it is while the bench holds its scratch for earlier
tasks (R319). Within bench scratch a COPY leaves the source's bytes in the destination and a FILL the repeated pattern, and no other byte
changes; where the ranges of a COPY overlap, the bytes that do not lie in the source arrive as they were; one to the fabric makes a
transfer. EVICT drops a copy once no read in flight holds it, PREFETCH of one that is there touches it. FLASH_WRITE replaces a whole unit
outside every home. Completes: COPY, FILL, PREFETCH, EVICT, FLASH_WRITE. -/
def Obligations.MovesCarryTheirBytes : Prop :=
  ∀ (t : Task) (d : MoveDesc) (n : Nat) (s : State), t.progress = 0 →
    (∀ u, (MoveRuns .copy t d n s → copyWork t d n s = (.done true, u) →
        exec (.copy t.ring t.seq) s = .next (markWorkDone t.ring t.seq u)) ∧
      (MoveRuns .fill t d n s → fillWork t d n s = (.done true, u) → exec (.fill t.ring t.seq) s = .next (markWorkDone t.ring t.seq u)) ∧
      (MoveRuns .prefetch t d n s → prefetchWork t d n s = (.done true, u) →
        exec (.prefetch t.ring t.seq) s = .next (markWorkDone t.ring t.seq u)) ∧
      (MoveRuns .evict t d n s → evictWork t d n s = (.done true, u) → exec (.evict t.ring t.seq) s = .next (markWorkDone t.ring t.seq u)) ∧
      (MoveRuns .flashWrite t d n s → flashWork t d n s = (.done true, u) →
        exec (.flashWrite t.ring t.seq) s = .next (markWorkDone t.ring t.seq u)) ∧
      (MoveRuns .copy t d n s → copyWork t d n s = (.done false, u) → exec (.copy t.ring t.seq) s = .next u) ∧
      (MoveRuns .fill t d n s → fillWork t d n s = (.done false, u) → exec (.fill t.ring t.seq) s = .next u)) ∧
    (MoveRuns .copy t d n s → earlierWrites s t n = [] → d.dstHandle = false → InScratch d.src d.length → InScratch d.dst d.length →
      ∃ u, exec (.copy t.ring t.seq) s = .next u ∧ (findTask u t.ring t.seq).map (·.workDone) = some true ∧ u.mem = s.mem ∧
        (∀ k, k < d.length → overlaps d (addrOffset d.dst + k) = false →
          memGet u.scratch (n * scratchSize + addrOffset d.dst + k) = memGet s.scratch (n * scratchSize + addrOffset d.src + k)) ∧
        ∀ a, a < n * scratchSize + addrOffset d.dst ∨ n * scratchSize + addrOffset d.dst + d.length ≤ a →
          memGet u.scratch a = memGet s.scratch a) ∧
    (MoveRuns .copy t d n s → earlierWrites s t n = [] → d.dstHandle = true → InScratch d.src d.length → 0 < d.length → d.length ≤ 65536 →
      ∃ u x, exec (.copy t.ring t.seq) s = .next u ∧ u.fabric.transfers = s.fabric.transfers ++ [x] ∧ x.state = .leaving ∧
        x.handle = handlePlus d.dst 0 ∧ x.timed = d.timed ∧ x.ring = some t.ring ∧ x.seq = t.seq ∧
        x.data = scratchRead s n (addrOffset d.src) d.length ∧ u.mem = s.mem ∧ u.scratch = s.scratch) ∧
    (MoveRuns .fill t d n s → earlierWrites s t n = [] → InScratch d.dst d.length →
      ∃ u, exec (.fill t.ring t.seq) s = .next u ∧ (findTask u t.ring t.seq).map (·.workDone) = some true ∧ u.mem = s.mem ∧
        (∀ k, k < d.length →
          memGet u.scratch (n * scratchSize + addrOffset d.dst + k) = BitVec.ofNat 8 (d.pattern >>> (k % 8 * 8))) ∧
        ∀ a, a < n * scratchSize + addrOffset d.dst ∨ n * scratchSize + addrOffset d.dst + d.length ≤ a →
          memGet u.scratch a = memGet s.scratch a) ∧
    (∀ pas a o f w, 0 < d.length → d.length ≤ 65536 →
      translatePieces (moveRequester t n) false (pagePieces (addrOffset (d.src + 0)) d.length) s = (.done pas, w) → ashlarsOf pas = some [a] →
      tieredObject w (moveRequester t n) a = .ok o → frameOf w a = some f → f.copying = false →
      (MoveRuns .evict t d n s → ∃ u, exec (.evict t.ring t.seq) s = .next u ∧ u.tier.frames =
          (w.tier.frames.map fun x => if x = f then { x with leaving := true } else x).filter (fun x => !(x.leaving && !readsInFlight w x.ashlar)) ∧
        frameOf u a = (w.tier.frames.find? fun x => x.ashlar == a && !x.leaving && x != f) ∧
        u.tier.evictions = (w.tier.evictions + 1) % 2 ^ 64 ∧ u.mem = w.mem ∧ u.scratch = w.scratch) ∧
      (MoveRuns .prefetch t d n s → ∃ u, exec (.prefetch t.ring t.seq) s = .next u ∧
        u.tier.frames = w.tier.frames.map (fun x => if x = f then { x with lastUse := w.tier.useClock } else x) ∧ u.mem = w.mem ∧
        u.scratch = w.scratch)) ∧
    (∀ spas dpas pa bs s1 s2 w, MoveRuns .flashWrite t d n s → d.length = 65536 → bs.length = 65536 →
      translatePieces (moveRequester t n) false (pagePieces (addrOffset d.src + 0) 65536) s = (.done spas, s1) →
      (spas.all fun x => nearOrBulk x) = true →
      translateFlash (moveRequester t n) (pagePieces (addrOffset d.dst + 0) 65536) s1 = (.done dpas, s2) → flashUnitOf dpas = some pa →
      flashHome s2 pa = false → contextKey s2 t.context = .plain → engineRead (moveRequester t n) (addrOffset d.src + 0) 65536 s2 = (.done bs, w) →
      ∃ u, exec (.flashWrite t.ring t.seq) s = .next u ∧ memRead u.mem pa 65536 = bs ∧
        (∀ a, a < pa ∨ pa + 65536 ≤ a → memGet u.mem a = memGet w.mem a) ∧ u.scratch = w.scratch)

/-- The tier directory (R267, R269, R271, R277–R280): a read that misses begins the copy of its ashlar; its end leaves the home's bytes in
the frame, and no other byte of memory changed; a corrected error changes no data; an uncorrectable one poisons its codeword; a replica's
ashlar rewrites the home, and one that never comes poisons the place. Stated of a migration nobody waits for and of places that serve TIER;
the record of a repair where R454 does not suppress it. Tier registers (R268, R271, R283): ENABLE with good pools enables the tiers, with
bad ones sets CFG_ERR; VALID 1 of an object makes it valid or sets OBJ_ERR to the check that fails; VALID 0 begins its drain, whose end
drops its copies, a sealed object's near home zeroed (R308); a read of TIER_STATUS clears OBJ_ERR. Completes: MIGRATION, MIGRATION_COMPLETE,
CORRECTED_ERROR, UNCORRECTABLE_READ, REPLICA_FETCH_ARRIVAL, REPLICA_TIMEOUT, TIER_ENABLE, OBJECT_VALIDATE, OBJECT_DRAIN, OBJECT_DRAIN_DONE,
TIER_STATUS_READ. -/
def Obligations.TierCopiesAndRegisters : Prop :=
  ((∀ (offset : Nat) (i : Nat) (o : TierObject) (s : State), let a := offset / ashlarSize * ashlarSize
     s.tier.enable = true → inService s = true → s.tier.inProgress = [] → objectAt s a = some (i, o) → frameOf s a = none →
     servedFromHome s o a = false → o.failed = false →
     ∃ t m, exec (.migration offset) s = .next t ∧ t.tier.inProgress = [m] ∧ m.ashlar = a ∧ m.waiters = [] ∧ t.mem = s.mem ∧
       t.err = s.err ∧ (m.frame.isSome = true → (frameOf t a).map (·.copying) = some true)) ∧
   (∀ (a i : Nat) (o : TierObject) (f : PoolFrame) (m : Migration) (s : State), s.tier.inProgress = [m] → m.ashlar = a →
     m.frame = some (f.grove, f.index) → m.repair = [] → m.waiters = [] → servingObject s a = some (i, o) → frameOf s a = some f →
     s.err.inj.cells = [] → s.err.firing = none → m.refused = false → tierRefusal s false (homeAddr o a) ashlarSize true = none →
     frameRefused s a = false → flashMet s (homeAddr o a) ashlarSize = false → poisonIn s (homeAddr o a) ashlarSize = false → homeKey s o ≠ .gone →
     ∃ t, exec (.migrationComplete a) s = .next t ∧
       memRead t.mem (frameAddr s f) ashlarSize = homeBytes s (homeKey s o) (homeAddr o a) ashlarSize ∧
       (homeKey s o = .plain → regionOf (homeAddr o a) ≠ .flash → memRead t.mem (frameAddr s f) ashlarSize = memRead s.mem (homeAddr o a) ashlarSize) ∧
       (∀ x, x < frameAddr s f ∨ frameAddr s f + ashlarSize ≤ x → memGet t.mem x = memGet s.mem x) ∧ t.tier.inProgress = [] ∧
       (frameOf t a).map (·.copying) = some false ∧ t.tier.migrations = (s.tier.migrations + 1) % 2 ^ 64 ∧ t.err = s.err) ∧
   (∀ (pa : Nat) (s : State), inTier pa = true → inService s = true → exec (.correctedError pa) s = .next (report
     { code := 0x4101, source := srcModule s, address := BitVec.ofNat 64 pa } { s with tier := countCorrected pa s.tier })) ∧
   (∀ (pa : Nat) (s : State), regionOf pa = .near ∨ regionOf pa = .bulk → inService s = true → frameHolding s pa = none →
     objectAtHome s pa = none → exec (.uncorrectableRead pa) s =
       .next { s with tier := { s.tier with poison := s.tier.poison.set false (pa / 512) true } }) ∧
   (∀ (a i : Nat) (o : TierObject) (m : Migration) (bs : List Byte) (s : State), s.tier.inProgress = [m] → m.ashlar = a → m.waiters = [] →
     servingObject s a = some (i, o) →
     (m.repair ≠ [] → m.frame = none → (∀ pa ∈ m.repair, regionOf pa = .near ∨ regionOf pa = .bulk) →
       ∃ t, exec (.replicaTimeout a) s = .next t ∧ (∀ pa ∈ m.repair, t.tier.poison.get false (pa / 512) = true) ∧ t.tier.inProgress = [] ∧
         (QueueBounded s → queueFull s.err = false → (recordAt t.err s.err.written).code = 0x4304) ∧ t.mem = s.mem) ∧
     (m.repair ≠ [] → m.frame = none → bs.length = ashlarSize → homeKey s o = .plain → regionOf (homeAddr o a) = .bulk →
       tierRefusal s true (homeAddr o a) ashlarSize true = none → frameRefused s a = false →
       ∃ t, exec (.replicaFetchArrival a bs) s = .next t ∧ memRead t.mem (homeAddr o a) ashlarSize = bs ∧
         (∀ x, x < homeAddr o a ∨ homeAddr o a + ashlarSize ≤ x → memGet t.mem x = memGet s.mem x) ∧ t.tier.inProgress = [] ∧
         t.tier.repaired = min (s.tier.repaired + 1) (2 ^ 32 - 1) ∧
         (QueueBounded s → queueFull s.err = false → UnderRate 0x4303 (srcModule s) s → (recordAt t.err s.err.written).code = 0x4303)))) ∧
  (∀ (i : Nat) (v : W64) (s : State), inService s = true → i < 4096 →
     let o := objectOf s i
     let o1 : TierObject := { o with
       granules := bitsOf v.toNat 57 32, context := bitsOf v.toNat 31 16, replicated := bitOf v.toNat 11, writable := bitOf v.toNat 10
       affinity := bitsOf v.toNat 9 7, policy := bitsOf v.toNat 2 0, failed := false }
     (let us := bitsOf v.toNat 63 32
      let timed : State := { s with tier := { s.tier with
        replicaTimeoutUs := if 100 ≤ us ∧ us ≤ 1000000 then us else s.tier.replicaTimeoutUs } }
      (v.getLsbD 0 = true → s.tier.enable = false → exec (.tierEnable v) s = .next
        (if (List.range 4).all (poolGood s) then { timed with tier := { timed.tier with enable := true, cfgErr := false } }
         else { timed with tier := { timed.tier with cfgErr := true } })) ∧
      (v.getLsbD 0 = false ∨ s.tier.enable = true → exec (.tierEnable v) s = .next timed)) ∧
     (v.getLsbD 63 = true → o.busy = false → o.valid = false → ∃ t, exec (.objectValidate i v) s = .next t ∧
       (objectCheck s i o1 = none → objectOf t i = { o1 with valid := true } ∧ t.tier.objErr = s.tier.objErr) ∧
       (∀ e, objectCheck s i o1 = some e → objectOf t i = o1 ∧ t.tier.objErr = e) ∧ (∀ j, j ≠ i → objectOf t j = objectOf s j) ∧
       t.mem = s.mem) ∧
     (v.getLsbD 63 = false → o.busy = false → o.valid = true → ∃ t, exec (.objectDrain i v) s = .next t ∧
       objectOf t i = { o with valid := false, busy := true, failed := false, zeroes := isSealed s o.context } ∧ (∀ j, j ≠ i → objectOf t j = objectOf s j) ∧
       t.mem = s.mem) ∧
     (o.busy = true → (s.tier.inProgress.all fun m => !o.holds m.ashlar) = true →
       (s.tier.admitted.all fun x => !(o.holds x.2 && stillWaits s x.1)) = true →
       ∃ t, exec (.objectDrainDone i) s = .next t ∧ objectOf t i = { o with busy := false, zeroes := false } ∧
         (∀ f ∈ t.tier.frames, o.holds f.ashlar = false) ∧ (∀ f ∈ s.tier.frames, o.holds f.ashlar = false → f ∈ t.tier.frames) ∧
         (o.zeroes = false → t.mem = s.mem) ∧
         (o.zeroes = true → regionOf o.homeBase = .near →
           (∀ p ∈ piecesOf stakeSize o.homeBase (o.granules * stakeSize), tierRefusal s true p.1 p.2 true = none) → ∀ a, o.homeBase ≤ a → a < o.homeBase + o.granules * stakeSize → memGet t.mem a = 0)) ∧
     exec .tierStatusRead s = .next { s with tier := { s.tier with objErr := 0 } })

/-! ### Translation and protection (chapter 12) -/

/-- Fault batches (R295–R298): a batch that closes is written into its slot and delivered under the next SEQUENCE, and no byte of memory
outside the slot changes; the answer sends a waiter back to its walk, or ends it with 0x5101; a walk that finds a leaf lets its waiter go
on. R299: when a delivered slot is not answered in time, every waiter of its entries fails with 0x5104, an array task at the tile in
progress and a Deck READ or WRITE once its record is written, and the slot frees; when TU_FB_BASE.ENABLE is 0 a batch fault fails at once
with 0x5106. Stated of tasks of no group. Completes: PAGE_WALK_DONE, BATCH_TIMER_CLOSE, FLUSH, TU_FB_DONE, BATCH_ANSWER_TIMEOUT. -/
def Obligations.FaultBatchesAreAnswered : Prop :=
  ((∀ (b : FaultBatch) (s : State), s.tu.openBatch = some b → b.entries.length ≤ 256 →
     let base := s.tu.fbBase + b.slot * 0x8000
     ∃ t u, exec .batchTimerClose s = .next t ∧ exec .flush s = .next u ∧ t.tu.openBatch = none ∧ u.tu.openBatch = none ∧
       t.tu.delivered = s.tu.delivered ++ [{ b with sequence := s.tu.nextSequence, deliveredAt := s.now }] ∧
       t.tu.nextSequence = s.tu.nextSequence + 1 ∧
       (∀ a, a < base ∨ base + 0x8000 ≤ a → memGet t.mem a = memGet s.mem a ∧ memGet u.mem a = memGet s.mem a) ∧
       (ServesWrite { agent := .transUnit, context := 1 } base 0x8000 s → poisonIn s base 0x8000 = false → base % 0x8000 = 0 →
         memNat t.mem (base + 0x4100) 8 = s.tu.nextSequence % 2 ^ 64 ∧ memNat t.mem (base + 0x4108) 2 = b.entries.length ∧
         memNat t.mem (base + 0x410A) 1 = 2 ∧ memNat u.mem (base + 0x410A) 1 = 3 ∧
         ∀ a, base + 0x4000 ≤ a → a < base + 0x4100 → memGet t.mem a = 0)) ∧
   (∀ (v : W64) (b : FaultBatch) (e : FaultEntry) (w : FaultWaiter) (s : State), s.tu.delivered = [b] → b.slot = bitsOf v.toNat 2 0 →
     b.sequence % 65536 = bitsOf v.toNat 18 3 → b.entries = [e] → e.waiters = [w] → s.tu.held = [] →
     (responseRetry s b.slot 0 = true → exec (.tuFbDone v) s = .next { s with tu := { s.tu with
       delivered := [], walking := s.tu.walking ++ [⟨e.page, e.context, e.cause, e.level, w⟩] } }) ∧
     (responseRetry s b.slot 0 = false → ∃ t, exec (.tuFbDone v) s = .next t ∧
       t = { failWaiter 0x5101 w s with tu := { (failWaiter 0x5101 w s).tu with delivered := t.tu.delivered, held := [] } } ∧
       ∀ x ∈ t.tu.delivered, x.slot ≠ b.slot)) ∧
   (∀ (r seq pte level : Nat) (h : HeldFault) (s t : State), walkingOf s r seq = some h →
     walk h.context (h.page * 4096) h.waiter.write { s with tu := { s.tu with walking := s.tu.walking.filter fun x => x != h } } =
       (.leaf pte level, t) → t.tasks = s.tasks →
     ∃ u, exec (.pageWalkDone r seq) s = .next u ∧ u.mem = t.mem ∧ u.tu.walking = t.tu.walking ∧
       (∀ x, findTask s h.waiter.ring h.waiter.seq = some x → findTask u h.waiter.ring h.waiter.seq = some { x with blocked := false }) ∧
       u.tu.groveCache.head? = some ⟨some (waiterGrove t h.waiter), h.context, h.page / leafPages pte level * leafPages pte level,
         leafPages pte level, pte⟩)) ∧
  ((∀ (slot : Nat) (b : FaultBatch) (s : State), s.tu.delivered.find? (fun b => b.slot == slot) = some b →
     (s.tasks.all fun t => !t.member) = true →
     (∀ e ∈ b.entries, ∀ w ∈ e.waiters, ∃ t, findTask s w.ring w.seq = some t ∧ t.phase = .issued) →
     ∃ u, exec (.batchAnswerTimeout slot) s = .next u ∧
       (s.tu.held = [] → ∀ x ∈ u.tu.delivered, x.slot ≠ slot) ∧
       ∀ e ∈ b.entries, ∀ w ∈ e.waiters, ∃ t, findTask u w.ring w.seq = some t ∧
         ((t.phase = .failed ∧ ∃ f ∈ (ringOf u w.ring).failures, f.at_ = w.seq ∧ f.code = 0x5104) ∨
           t.ends.map (·.code) = some 0x5104)) ∧
   (∀ (q : Requester) (va cause level : Nat) (write flash : Bool) (s t u : State), s.tu.ctxEnable = true → 1 ≤ q.context → q.context ≤ 0xFFEF →
     cachedLeaf q.grove q.context (va % 2 ^ 48) write s = (none, t) →
     walk q.context (va % 2 ^ 48) write t = (.batch cause level, u) → u.tu.fbEnable = false →
     translate q va write s flash = (.fail 0x5106 0, u)))

/-- Translation registers (R300, R312, R330, R331): BASE takes a value while ENABLE is 0, and ENABLE stays once set; a TU_INVAL drops the
translations it names at once and is counted, a seventeenth waits; its drain advances DONE once no access accepted before waits at a page it
names; an operand cache invalidation likewise, and its end drops the lines filled since. Completes: TU_CTX_ENABLE, TU_FB_ENABLE, TU_INVAL,
INVALIDATION_DRAIN_DONE, OPCACHE_INVAL, OPCACHE_INVAL_DONE. -/
def Obligations.TranslationsAreWithdrawn : Prop :=
  ∀ (v : W64) (g : Nat) (s : State),
    exec (.tuCtxEnable v) s = .next { s with tu := { s.tu with
      ctxBase := if s.tu.ctxEnable then s.tu.ctxBase else bitsOf v.toNat 51 20 * 0x100000, ctxEnable := s.tu.ctxEnable || v.getLsbD 0 } } ∧
    exec (.tuFbEnable v) s = .next { s with tu := { s.tu with
      fbBase := if s.tu.fbEnable then s.tu.fbBase else bitsOf v.toNat 51 18 * 0x40000, fbEnable := s.tu.fbEnable || v.getLsbD 0 } } ∧
    (∀ x, invalOf s.tu v = some x →
      (s.tu.invals.length < 16 → ∃ t, exec (.tuInval v) s = .next t ∧ t = { s with tu := t.tu } ∧
        t.tu.invalIssued = (s.tu.invalIssued + 1) % 2 ^ 32 ∧ t.tu.invals = s.tu.invals ++ [x] ∧
        (∀ e ∈ t.tu.groveCache, invalNames x e.context e.vpn e.pages = false) ∧
        (∀ e ∈ t.tu.sharedCache, invalNames x e.context e.vpn e.pages = false) ∧
        (∀ e ∈ s.tu.groveCache, invalNames x e.context e.vpn e.pages = false → e ∈ t.tu.groveCache)) ∧
      (16 ≤ s.tu.invals.length → exec (.tuInval v) s = .next { s with tu := { s.tu with invalWaiting := s.tu.invalWaiting ++ [(x, .nobody)] } })) ∧
    (invalHeld s ((s.tu.invalDone + 1) % 2 ^ 32) = true → exec .invalidationDrainDone s = .next s) ∧
    (∀ x xs, s.tu.invals = x :: xs → s.tu.invalWaiting = [] → invalHeld s ((s.tu.invalDone + 1) % 2 ^ 32) = false →
      exec .invalidationDrainDone s = .next { s with tu := { s.tu with invals := xs, invalDone := (s.tu.invalDone + 1) % 2 ^ 32 } }) ∧
    (g < 4 → v.getLsbD 63 = true ∨ bitsOf v.toNat 31 0 ≠ 0 →
      let r := s.opRegs.get {} g
      let x := if v.getLsbD 63 then none else some (r.base / 512, bitsOf v.toNat 31 0 * 128)
      (r.held.length < 8 → ∃ t, exec (.opcacheInval g v) s = .next t ∧ (∀ l ∈ t.opLines, ¬(l.grove = g ∧ opRangeHas x l.line = true)) ∧
        (∀ l ∈ s.opLines, ¬(l.grove = g ∧ opRangeHas x l.line = true) → l ∈ t.opLines) ∧
        t.opRegs.get {} g = { r with issued := (r.issued + 1) % 2 ^ 32, held := r.held ++ [x] } ∧ t.mem = s.mem) ∧
      (∀ y ys, r.held = y :: ys → r.waiting = [] → ∃ t, exec (.opcacheInvalDone g) s = .next t ∧
        t.opRegs.get {} g = { r with held := ys, done := (r.done + 1) % 2 ^ 32 } ∧ t.mem = s.mem ∧
        t.opLines = s.opLines.filter fun l => !(l.grove == g && opRangeHas y l.line)))

/-- Stake commands (R303–R305): ASSIGN of free stakes takes effect at its end; RELEASE drops the lines of its stakes at once, and its end
frees them, zeroing those that were sealed or of DECK or TIER and no others; REVOKE_SEAL unseals a context. Each is refused with 0x5304 when
its range leaves the tiers, ASSIGN with 0x5301, RELEASE with 0x5302 of a stake that is not OWNED, REVOKE_SEAL with 0x5305, and each is
ignored while BUSY. That ASSIGN takes effect at STAKE_ASSIGN_DONE, and what RELEASE waits for there, is the model's reading (log 28).
Completes: ASSIGN, RELEASE, REVOKE_SEAL, STAKE_RELEASE_DONE, STAKE_ASSIGN_DONE. -/
def Obligations.StakeCommandsAct : Prop :=
  ∀ (v : W64) (s : State),
    let is := stakeRange s.stakes.addr (cmdCount v)
    (stakeIgnored v s = true → exec (.assign v) s = .next s ∧ exec (.release v) s = .next s ∧ exec (.revokeSeal v) s = .next s) ∧
    (stakeIgnored v s = false → stakeRangeOk s (cmdCount v) = false →
      exec (.assign v) s = .next { s with stakes := { s.stakes with result := 0x5304 } } ∧
      exec (.release v) s = .next { s with stakes := { s.stakes with result := 0x5304 } }) ∧
    (stakeIgnored v s = false → stakeRangeOk s (cmdCount v) = true →
      ((∀ i ∈ is, (stakeEntry s i).state = .free) → 2 ≤ cmdOwner v → cmdOwner v ≤ 0xFFF1 →
        exec (.assign v) s = .next { s with stakes := { s.stakes with
          busy := true, result := 0, work := .assign (stakeIndex s.stakes.addr) (cmdCount v) (cmdOwner v) } }) ∧
      (∀ i ∈ is, (stakeEntry s i).state ≠ .free → exec (.assign v) s = .next { s with stakes := { s.stakes with result := 0x5301 } }) ∧
      ((∃ i ∈ is, (stakeEntry s i).state ≠ .owned) → exec (.release v) s = .next { s with stakes := { s.stakes with result := 0x5302 } }) ∧
      ((∀ i ∈ is, (stakeEntry s i).state = .owned) → s.stakes.work = .none →
        ∃ t, exec (.release v) s = .next t ∧ t.stakes.busy = true ∧ t.stakes.result = 0 ∧ t.stakes.work = .release is ∧
          (∀ i ∈ is, stakeEntry t i = { stakeEntry s i with state := .releasing }) ∧
          (∀ i, i ∉ is → stakeEntry t i = stakeEntry s i) ∧
          (∀ l ∈ t.opLines, nearOrBulk (l.line * 512) = true → stakeIndex (l.line * 512) ∉ is) ∧ t.mem = s.mem) ∧
      (isSealed s (cmdOwner v) = false → exec (.revokeSeal v) s = .next { s with stakes := { s.stakes with result := 0x5305 } }) ∧
      (isSealed s (cmdOwner v) = true → s.stakes.work = .none → ∃ t, exec (.revokeSeal v) s = .next t ∧
        isSealed t (cmdOwner v) = false ∧ t.stakes.result = 0 ∧
        (∀ i, (stakeEntry s i).state = .owned → (stakeEntry s i).owner = cmdOwner v → (stakeEntry t i).state = .releasing) ∧
        t.mem = s.mem)) ∧
    (∀ first count owner, s.stakes.work = .assign first count owner → ∃ t, exec .stakeAssignDone s = .next t ∧ t.stakes.busy = false ∧
      t.stakes.work = .none ∧ (∀ i, first ≤ i → i < first + count → stakeEntry t i = { owner := owner, state := .owned }) ∧
      (∀ i, i < first ∨ first + count ≤ i → stakeEntry t i = stakeEntry s i) ∧ t.mem = s.mem) ∧
    (∀ i, s.stakes.work = .release [i] → migrationUses s i = false → deckUses s i = false → ∃ t, exec .stakeReleaseDone s = .next t ∧
      t.stakes.busy = false ∧ t.stakes.work = .none ∧ stakeEntry t i = {} ∧ (∀ j, j ≠ i → stakeEntry t j = stakeEntry s j) ∧
      (zeroedAtRelease (stakeEntry s i) = false → t.mem = s.mem) ∧
      (zeroedAtRelease (stakeEntry s i) = true → (∀ a, stakeAddr i ≤ a → a < stakeAddr i + stakeSize → memGet t.mem a = 0) ∧
        ∀ a, a < stakeAddr i ∨ stakeAddr i + stakeSize ≤ a → memGet t.mem a = memGet s.mem a))

/-- Sealed stakes of the bulk tier (R261, R307): whole units of 512 bytes stand in memory as XTS-AES leaves them under the owner's key, with
the tweak their physical address gives; the requester reads what was written; no other byte changes. Enclave operations (R306, R310, R368,
R444), inside a session; the layout of their response is the model's (log 30), and that sealing leaves the ciphertext of zeros in a bulk
stake is its reading (log 68): each runs as a long operation whose answer holds its result. A context seals with no stakes of its own; its
stakes seal after they are zeroed; exports are marked; unsealing releases its stakes; a cord key that verifies is installed, taken into use,
and erased, where it is not in use. A VENDOR_DEFINED_REQUEST carries the same operations; one with another StandardID or vendor is invalid.
Completes: SEAL_CONTEXT, SEAL_STAKES, SET_EXPORT, UNSEAL_CONTEXT, INSTALL_CORD_KEY, ACTIVATE_CORD_KEY, ERASE_CORD_KEY,
VENDOR_DEFINED_REQUEST. -/
def Obligations.EnclaveOperationsAct : Prop :=
  (∀ (q : Requester) (pa k : Nat) (key : BitVec 512) (bs : List Byte) (s : State), 0 < k → pa % 512 = 0 → pa / stakeSize = (pa + k * 512 - 1) / stakeSize →
     regionOf pa = .bulk → stakeKey s pa = .sealed key → bs.length = k * 512 →
     (ServesWrite q pa (k * 512) s → ∃ t, physWrite q pa bs s = (.done (), t) ∧
       memRead t.mem pa (k * 512) = xtsRange true key k (pa / 512) bs ∧
       ∀ a, a < pa ∨ pa + k * 512 ≤ a → memGet t.mem a = memGet s.mem a) ∧
     (ServesRead q pa (k * 512) s → physRead q pa (k * 512) s = (.done (xtsRange false key k (pa / 512) (memRead s.mem pa (k * 512))), s))) ∧
  (∀ (session context : Nat) (s : State), SpdmServes (some session) s →
     let done (code : W16) := enclaveResponse s code
     (∀ c k, s.cfg = some c → c.sealing = true → 2 ≤ context → context ≤ 0xFFEF → isSealed s context = false → ownedStakes s context = [] →
       s.stakes.sealedContexts.length < 1024 →
       ∃ t, exec (.sealContext session context (.imported k)) s = .next t ∧ AnsweredLater (done 0) 10000 s t ∧ t.mem = s.mem ∧
         t.stakes.sealedContexts = ⟨context, some k, true, requesterOf s session⟩ :: s.stakes.sealedContexts) ∧
     (∀ addr i, enclaveStakes addr 1 = some [i] → (stakeEntry s i).state = .owned → (stakeEntry s i).owner = context →
       (stakeEntry s i).sealed = false → sealedBy s session context = true →
       ((stakeEntry s i).export_ = false → ∃ t, exec (.sealStakes session context addr 1) s = .next t ∧
         AnsweredLater (done 0) (sealBound 1) s t ∧ stakeEntry t i = { stakeEntry s i with sealed := true } ∧
         (∀ j, j ≠ i → stakeEntry t j = stakeEntry s j) ∧
         (regionOf (stakeAddr i) ≠ .bulk ∨ contextKey s context = .plain → ∀ a, stakeAddr i ≤ a → a < stakeAddr i + stakeSize → memGet t.mem a = 0) ∧
         (∀ k, regionOf (stakeAddr i) = .bulk → contextKey s context = .sealed k →
           memRead t.mem (stakeAddr i) stakeSize = xtsRange true k 4096 (stakeAddr i / 512) (List.replicate stakeSize 0)) ∧
         ∀ a, a < stakeAddr i ∨ stakeAddr i + stakeSize ≤ a → memGet t.mem a = memGet s.mem a) ∧
       (∀ on, ∃ t, exec (.setExport session context addr 1 on) s = .next t ∧ AnsweredLater (done 0) 10000 s t ∧
         stakeEntry t i = { stakeEntry s i with export_ := on } ∧ (∀ j, j ≠ i → stakeEntry t j = stakeEntry s j) ∧ t.mem = s.mem)) ∧
     (sealedBy s session context = true → ∃ t, exec (.unsealContext session context) s = .next t ∧ AnsweredLater (done 0) 10000 s t ∧
       isSealed t context = false ∧ t.mem = s.mem) ∧
     (sealedBy s session context = false → ∃ t, exec (.unsealContext session context) s = .next t ∧
       AnsweredLater (done 0x5313) 10000 s t ∧ t.stakes = s.stakes ∧ t.mem = s.mem) ∧
     (∀ cord epoch key r q, epoch < 2 → cordKeySigned s cord epoch key r q = true → holdsCord s cord = true →
       sendingEpoch s cord ≠ some epoch →
       ∃ t, exec (.installCordKey session cord epoch key r q) s = .next t ∧ AnsweredLater (done 0) 10000 s t ∧
         hasKey t cord epoch = true ∧ t.mem = s.mem) ∧
     (∀ cord epoch key r q, epoch < 2 → cordKeySigned s cord epoch key r q = false →
       ∃ t, exec (.installCordKey session cord epoch key r q) s = .next t ∧ AnsweredLater (done 0x7401) 10000 s t ∧ t.fabric = s.fabric) ∧
     (∀ cord epoch, hasKey s cord epoch = true → ∃ t, exec (.activateCordKey session cord epoch) s = .next t ∧
       AnsweredLater (done 0) 10000 s t ∧ sendingEpoch t cord = some epoch ∧ t.mem = s.mem) ∧
     (∀ cord epoch, sendingEpoch s cord ≠ some epoch → ∃ t, exec (.eraseCordKey session cord epoch) s = .next t ∧
       AnsweredLater (done 0) 10000 s t ∧ hasKey t cord epoch = false ∧ t.mem = s.mem) ∧
     (∀ opcode payload op bound, vendorOp session opcode payload = some (bound, op) →
       exec (.vendorDefinedRequest (some session) 3 s.part.vendor opcode payload) s =
         .next (runEnclave bound op (updMgmt (noteBacklog .port) s))) ∧
     (∀ standard vendor opcode payload, standard ≠ 3 ∨ vendor ≠ s.part.vendor →
       ∃ t, exec (.vendorDefinedRequest (some session) standard vendor opcode payload) s = .next t ∧ Answered (spdmError 1) s t ∧
         t = { s with mgmt := t.mgmt }))

/-- The SPDM responder (R442, R443; the codes and the order of requests are PRESUMED from DSP0274, log 30; digests, certificates and
signatures are free values, log 4): the connection moves stage by stage, at most four sessions are open, a session is established by a
FINISH that verifies and gone after END_SESSION, and measurements are answered with the blocks of their index. Completes: GET_VERSION,
GET_CAPABILITIES, NEGOTIATE_ALGORITHMS, GET_DIGESTS, GET_CERTIFICATE, CHALLENGE, GET_MEASUREMENTS, KEY_EXCHANGE, FINISH, HEARTBEAT,
KEY_UPDATE, END_SESSION. -/
def Obligations.SpdmConnectionMoves : Prop :=
  (∀ s : State, MgmtServes s →
    (∃ t, exec .getVersion s = .next t ∧ Answered (spdmMessage 0x04 0 0 ([0, 1] ++ bytesOfNat 2 0x1300)) s t ∧ t.mgmt.spdm = .version ∧
      t.mgmt.sessions = [] ∧ t.mem = s.mem) ∧
    (s.mgmt.spdm = .version → ∃ t bs, exec .getCapabilities s = .next t ∧ bs.length = 8 ∧
      Answered (spdmMessage 0x61 0 0 ([0, 19, 0, 0] ++ bytesOfNat 4 spdmFlags ++ bs)) s t ∧
      t.mgmt.spdm = .capabilities ∧ t.mem = s.mem) ∧
    (s.mgmt.spdm = .capabilities → ∃ t, exec .negotiateAlgorithms s = .next t ∧ Answered (spdmMessage 0x63 4 0 algorithms) s t ∧
      t.mgmt.spdm = .negotiated ∧ t.mem = s.mem)) ∧
  (∀ s : State, SpdmServes none s →
    (∃ t bs, exec .getDigests s = .next t ∧ Answered (spdmMessage 0x01 0 1 bs) s t ∧ bs.length = 48 ∧ t.mem = s.mem) ∧
    (∀ off len,
      let rest := Config.certificateChain.drop off
      ∃ t, exec (.getCertificate 0 off len) s = .next t ∧ t.mem = s.mem ∧
        (off ≤ Config.certificateChain.length → Answered (spdmMessage 0x02 0 0
          (bytesOfNat 2 (rest.take len).length ++ bytesOfNat 2 (rest.length - (rest.take len).length) ++ rest.take len)) s t) ∧
        (Config.certificateChain.length < off → Answered (spdmError 1) s t)) ∧
    (∀ nonce, ∃ t bs, exec (.challenge 0 nonce) s = .next t ∧ AnsweredLater (spdmMessage 0x03 0 1 (nonce ++ bs)) 200000 s t ∧
      bs.length = 96 ∧ t.mem = s.mem) ∧
    (∀ i bs, measurements s i = some bs → ∃ t, exec (.getMeasurements none i false) s = .next t ∧
      Answered (spdmMessage 0x60 0 0 bs) s t ∧ t.mem = s.mem) ∧
    (∀ r, s.mgmt.sessions.length < 4 → ∃ t bs, exec (.keyExchange r) s = .next t ∧
      AnsweredLater (spdmMessage 0x64 0 0 (bytesOfNat 2 s.mgmt.nextSession ++ [1, 0] ++ bs)) 300000 s t ∧
      t.mgmt.sessions = s.mgmt.sessions ++ [{ id := s.mgmt.nextSession, requester := r }] ∧ t.mem = s.mem) ∧
    (∀ r, 4 ≤ s.mgmt.sessions.length → ∃ t, exec (.keyExchange r) s = .next t ∧ Answered (spdmError 0x0A) s t ∧
      t.mgmt.sessions = s.mgmt.sessions)) ∧
  (∀ (i : Nat) (x : SpdmSession) (s : State), SpdmServes none s → s.mgmt.sessions = [x] → x.id = i →
    (x.established = false → ∃ t, exec (.finish i true) s = .next t ∧ AnsweredLater (spdmMessage 0x65 0 0 []) 50000 s t ∧
      t.mgmt.sessions = [{ x with established := true, lastHeartbeat := s.now }] ∧ t.mem = s.mem) ∧
    (x.established = true →
      (∃ t, exec (.heartbeat i) s = .next t ∧ Answered (spdmMessage 0x68 0 0 []) s t ∧
        t.mgmt.sessions = [{ x with lastHeartbeat := s.now }]) ∧
      (∃ t, exec (.keyUpdate i) s = .next t ∧ Answered (spdmMessage 0x69 0 0 []) s t ∧
        t.mgmt.sessions = [{ x with keyUpdates := x.keyUpdates + 1 }]) ∧
      ∃ t, exec (.endSession i) s = .next t ∧ Answered (spdmMessage 0x6C 0 0 []) s t ∧ t.mgmt.sessions = []))

/-! ### Landing harts (chapters 13 and 17) -/

/-- A hart's own translation (R15, R288, R290, R424): in Bare mode and in M-mode an access lies at its address; else the shared tables of
its root are walked, Sv48 or Sv39: an entry that is not valid or malformed ends in a page fault, a leaf that permits the access ends the
walk, any other entry names the next table. A guest's addresses go on through its G-stage tables, whose misses are guest-page faults. A page
fault, and a guest-page fault with its guest physical address, is taken at its address, by a load, a fetch and a store. What else of a hart
is left out is the model's choice (log 70). Loads and atomics of a hart that runs (R326, R327, R426, R427, R430, R481): a load or a fetch of
the near or bulk tier returns the bytes there under the hart's own combined ones, and leaves its codeword in the system cache unless its
page is uncached; an atomic returns the old value and leaves its result, a compare that fails leaves memory; LR reserves the 64-byte block,
SC stores and returns 0 where the hart holds it and returns 1 where it does not; WRS.NTO stalls a hart that holds a reservation; a load of
the control space reads its register, a fetch of the core ROM its bytes. The sizes of atomics are the model's reading (log 61), the system
cache's replacement its choice (log 69). Completes: HART_LOAD, HART_ATOMIC. -/
def Obligations.HartsReadAndUpdateMemory : Prop :=
  ((∀ (h va n : Nat) (mode : HartMode) (kind : HartKind) (x : HartView) (s : State),
     mode = .m ∨ (x.root = none ∧ (x.guest = none ∨ mode.virtual = false)) →
     hartMap h mode kind x va n s = (.ok ([⟨va, va, n⟩], false), s)) ∧
   (∀ (q : Requester) (a pte : Nat) (s : State),
     (rangeNearOrBulk a 8 = true → pte < 2 ^ 64 → physRead q a 8 s = (.done (bytesOfNat 8 pte), s) → readEntry q a s = (.ok pte, s)) ∧
     (rangeNearOrBulk a 8 = false → readEntry q a s = (.error (.access 0x9103 a), s))) ∧
   (∀ (read : Nat → State → Except HartStop Nat × State) (ok : Nat → Bool) (v n extra table pte : Nat) (s : State),
     read (table + bitsOf v (20 + 9 * n + extra) (12 + 9 * n) * 8) s = (.ok pte, s) →
     let walk := hartWalk read ok v (n + 1) extra table s
     (bitOf pte 0 = false ∨ pteMalformed pte n = true ∨ bitsOf pte 62 61 = 3 → walk = (.error .page, s)) ∧
     (bitOf pte 0 = true → pteMalformed pte n = false → bitsOf pte 62 61 ≠ 3 →
       (pteLeaf pte = false → walk = hartWalk read ok v n 0 (ptePpn pte * 4096) s) ∧
       (pteLeaf pte = true → ok pte = false → walk = (.error .page, s)) ∧
       (pteLeaf pte = true → ok pte = true → ∃ p, walk = (.ok (p, decide (bitsOf pte 62 61 ≠ 0)), s) ∧ p % 4096 = v % 4096))) ∧
   (∀ (x : HartView) (mode : HartMode) (kind : HartKind) (pte : Nat), mode ≠ .m → (hartLeafOk x mode kind pte = true ↔
     (bitOf pte 6 = true ∧ (kind = .store → bitOf pte 7 = true) ∧
       (match kind with
         | .fetch => bitOf pte 3 = true
         | .load => bitOf pte 1 = true ∨ (x.mxr = true ∧ bitOf pte 3 = true)
         | .store => bitOf pte 2 = true) ∧
       (bitOf pte 4 = true ↔ mode = .u ∨ mode = .vu) ∨ (bitOf pte 6 = true ∧ (kind = .store → bitOf pte 7 = true) ∧
       (match kind with
         | .fetch => False
         | .load => bitOf pte 1 = true ∨ (x.mxr = true ∧ bitOf pte 3 = true)
         | .store => bitOf pte 2 = true) ∧ bitOf pte 4 = true ∧ x.sum = true)))) ∧
   (∀ (q : Requester) (x : HartView) (mode : HartMode) (kind : HartKind) (va r : Nat) (s : State), mode = .hs ∨ mode = .u → x.root = some r →
     let bits := if x.sv39 then 39 else 48
     (va / 2 ^ (bits - 1) ≠ 0 → va / 2 ^ (bits - 1) ≠ 2 ^ (65 - bits) - 1 → hartPage q x mode kind va s = (.error .page, s)) ∧
     (va / 2 ^ (bits - 1) = 0 ∨ va / 2 ^ (bits - 1) = 2 ^ (65 - bits) - 1 → hartPage q x mode kind va s =
       hartWalk (readEntry q) (hartLeafOk x mode kind) (va % 2 ^ bits) (if x.sv39 then 3 else 4) 0 r s)) ∧
   (∀ (q : Requester) (x : HartView) (kind : HartKind) (gpa : Nat) (s : State),
     (x.guest = none → guestPage q x kind gpa s = (.ok (gpa, false), s)) ∧
     (∀ r t, x.guest = some r → gpa < 2 ^ (if x.guestSv39 then 41 else 50) →
       hartWalk (readEntry q) (guestLeafOk x kind) gpa (if x.guestSv39 then 3 else 4) 2 r s = (.error .page, t) →
       guestPage q x kind gpa s = (.error (.guest gpa), t))) ∧
   (∀ (h va a gpa n : Nat) (mode : HartMode) (fetch : Bool) (x : HartView) (v : BitVec 512) (s : State), hartRuns s h = true → 0 < n →
     (hartOf s h).combined = [] →
     let s0 := beginAccess h mode x s
     let read : HartKind := if fetch then .fetch else .load
     let taken (trap : HartTrap) (tval2 : Nat) : Host.Outcome State Fault Refusal :=
       .next (updHart h (fun y => { y.take trap a with tval2 := BitVec.ofNat 64 tval2 }) s0)
     (hartMap h mode read x va n s0 = (.error (a, .page), s0) → exec (.hartLoad h mode va n fetch x) s = taken read.pageTrap 0) ∧
     (hartMap h mode read x va n s0 = (.error (a, .guest gpa), s0) → exec (.hartLoad h mode va n fetch x) s = taken read.guestTrap (gpa / 4)) ∧
     (hartMap h mode .store x va n s0 = (.error (a, .page), s0) → exec (.hartStore h mode va n v x) s = taken .storePage 0) ∧
     (hartMap h mode .store x va n s0 = (.error (a, .guest gpa), s0) → exec (.hartStore h mode va n v x) s = taken .storeGuest (gpa / 4)))) ∧
  (∀ (h n va pa : Nat) (mode : HartMode) (x : HartView) (uncached : Bool) (s : State), hartRuns s h = true →
     let q := hartRequester s h
     let y := hartBegun mode x (hartOf s h)
     (∀ fetch, MapsTo h mode (if fetch then .fetch else .load) x va n pa uncached s → pa / 512 = (pa + n - 1) / 512 → ServesRead q pa n s →
       let bs := overlayOwn (hartOf s h) pa (plainRead s pa n)
       ∃ t, exec (.hartLoad h mode va n fetch x) s = .next t ∧
         t = { s with landing := { s.landing with harts := t.landing.harts, systemCache := t.landing.systemCache } } ∧
         (if uncached then t.landing.systemCache = s.landing.systemCache else pa / 512 ∈ t.landing.systemCache) ∧
         hartOf t h = y.loaded bs ∧ (n ≤ 8 → (hartOf t h).value = BitVec.ofNat 64 (natOfBytes bs)) ∧ ∀ k, k ≠ h → hartOf t k = hartOf s k) ∧
     (MapsTo h mode .load x va 8 pa uncached s → registerAddress pa = true → mode.reachesControl = true →
       siteWindowOf (pa - controlBase) = none →
       let r := regRead (pa - controlBase) (beginAccess h mode x s)
       exec (.hartLoad h mode va 8 false x) s = .next (updHart h (fun z => { z with value := r.1 }) r.2)) ∧
     (MapsTo h mode .fetch x va n pa uncached s → mode.reachesControl = true → 0x2800000 ≤ pa - controlBase → controlBase ≤ pa →
       pa - controlBase + n ≤ 0x2810000 → ∃ t, exec (.hartLoad h mode va n true x) s = .next t ∧
         OnlyHart h (y.loaded (romBytes (pa - controlBase) n)) s t) ∧
     (∀ (a b : BitVec 128) (rl : Bool), n = 4 ∨ n = 8 → exec (.hartAtomic h mode .wrs va n a b rl x) s = .next
       (match (hartOf s h).reservation with
         | some k => updHart h (fun z => { z with waiting := .stalled k }) (beginAccess h mode x s)
         | none => beginAccess h mode x s)) ∧
     (∀ (rl : Bool), pa % n = 0 → (hartOf s h).combined = [] → rl = false ∨ storesAcked s h = true →
       let old := natOfBytes (plainRead s pa n)
       (∀ (op : AmoOp) (a b : BitVec 128), atomicSize op n = true → op ≠ .sc → op ≠ .lr → op ≠ .wrs →
         MapsTo h mode .store x va n pa uncached s → ServesRead q pa n s → InPlain s pa n → scattersAround s q = [] →
         let result := amoResult op (8 * n) old (a.toNat % 2 ^ (8 * n)) (b.toNat % 2 ^ (8 * n))
         ∃ t, exec (.hartAtomic h mode op va n a b rl x) s = .next t ∧ (hartOf t h).value = BitVec.ofNat 64 old ∧
           (hartOf t h).valueHi = BitVec.ofNat 64 (old / 2 ^ 64) ∧ t.scratch = s.scratch ∧ t.err = s.err ∧
           (∀ a, a < pa ∨ pa + n ≤ a → memGet t.mem a = memGet s.mem a) ∧ (∀ v, result = some v → memRead t.mem pa n = bytesOfNat n v) ∧
           (result = none → t.mem = s.mem)) ∧
       (∀ (a b : BitVec 128), n = 4 ∨ n = 8 → MapsTo h mode .load x va n pa uncached s → ServesRead q pa n s →
         ∃ t, exec (.hartAtomic h mode .lr va n a b rl x) s = .next t ∧ (hartOf t h).value = BitVec.ofNat 64 old ∧
           (hartOf t h).reservation = some (pa / 64) ∧ t.mem = s.mem ∧ t.err = s.err) ∧
       (∀ (a b : BitVec 128), n = 4 ∨ n = 8 → MapsTo h mode .store x va n pa uncached s → ServesWrite q pa n s → InPlain s pa n →
         (hartOf s h).reservation = some (pa / 64) →
         ∃ t, exec (.hartAtomic h mode .sc va n a b rl x) s = .next t ∧ (hartOf t h).value = 0 ∧ (hartOf t h).reservation = none ∧
           memRead t.mem pa n = bytesOfNat n a.toNat ∧ (∀ a, a < pa ∨ pa + n ≤ a → memGet t.mem a = memGet s.mem a) ∧ t.err = s.err) ∧
       (∀ (a b : BitVec 128), n = 4 ∨ n = 8 → MapsTo h mode .store x va n pa uncached s → regionOf pa = .near ∨ regionOf pa = .bulk →
         (hartOf s h).reservation ≠ some (pa / 64) →
         ∃ t, exec (.hartAtomic h mode .sc va n a b rl x) s = .next t ∧ (hartOf t h).value = 1 ∧ (hartOf t h).reservation = none ∧
           t.mem = s.mem ∧ t.err = s.err)))

/-- Stores and barriers of a hart that runs (R322, R426): a store to a tier joins what the hart has combined for its codeword and changes no
memory, one to an uncached page leaves at once; the combined bytes of a codeword leave as one write when their time ends, with the context
they were stored with, and at a store or full barrier, which the hart then waits at; a load barrier has nothing to wait for; a store to the
control space writes its register. Completes: HART_STORE, LOAD_BARRIER, COMBINED_STORE_SEND, STORE_BARRIER, FULL_BARRIER. -/
def Obligations.StoresCombineThenLeave : Prop :=
  ∀ (h n va pa : Nat) (mode : HartMode) (x : HartView) (v : BitVec 512) (s : State), hartRuns s h = true →
    let y := hartBegun mode x (hartOf s h)
    (MapsTo h mode .store x va n pa true s → pa / 512 = (pa + n - 1) / 512 → (hartOf s h).combined = [] →
      ServesWrite (hartRequester s h) pa n s → InPlain s pa n →
      ∃ t, exec (.hartStore h mode va n v x) s = .next t ∧ (hartOf t h).combined = [] ∧ memRead t.mem pa n = bytesOfNat n v.toNat ∧
        (∀ a, a < pa ∨ pa + n ≤ a → memGet t.mem a = memGet s.mem a) ∧ t.scratch = s.scratch ∧ t.err = s.err) ∧
    (MapsTo h mode .store x va n pa false s → hartPlace pa n = .tier → storeBarred s ⟨va, pa, n⟩ = false →
      pa / 512 = (pa + n - 1) / 512 → (hartOf s h).combined = [] → s.err.inj.cells = [] →
      ∃ t, exec (.hartStore h mode va n v x) s = .next t ∧ OnlyHart h { y with
        combined := [⟨pa / 512, (bytesOfNat n v.toNat).zipIdx.map (fun b => (pa % 512 + b.2, b.1)), s.now, hartContextOf s h⟩] } s t) ∧
    (∀ uncached, MapsTo h mode .store x va 8 pa uncached s → registerAddress pa = true → mode.reachesControl = true →
      siteWindowOf (pa - controlBase) = none →
      let r := regWrite (.hart h) (pa - controlBase) (v.setWidth 64) (beginAccess h mode x s)
      exec (.hartStore h mode va 8 v x) s = .next (if r.1 then r.2 else updHart h (fun z => { z with waiting := .write }) r.2)) ∧
    exec (.loadBarrier h) s = .next (updHart h (fun z => { z with waiting := .nothing }) s) ∧
    (∀ (w o since context : Nat) (bs : List Byte), bs ≠ [] → o + bs.length ≤ 512 →
      (hartOf s h).combined = [⟨w, bs.zipIdx.map (fun b => (o + b.2, b.1)), since, context⟩] →
      ServesWrite (hartRequesterIn h context) (w * 512 + o) bs.length s → InPlain s (w * 512 + o) bs.length →
      ∀ c ∈ [Instr.combinedStoreSend h w, .storeBarrier h, .fullBarrier h],
        ∃ t, exec c s = .next t ∧ (hartOf t h).combined = [] ∧ memRead t.mem (w * 512 + o) bs.length = bs ∧
          (∀ a, a < w * 512 + o ∨ w * 512 + o + bs.length ≤ a → memGet t.mem a = memGet s.mem a) ∧
          (c = .storeBarrier h ∨ c = .fullBarrier h → (hartOf t h).waiting = .barrier) ∧ t.scratch = s.scratch ∧ t.err = s.err)

/-- Faults of a hart that runs (R321, R427–R429, R481): an access the address map does not allow leaves no record and faults with 0x9103, a
store to an object that is not WRITABLE among them; a refused load or fetch leaves a record of its code and faults with it, at the address
in the program; a refusal that comes back later is taken as a store fault with DEFERRED set and stval 0; a later fault sets OVERRUN while
VALID stands; the address of the instruction goes to sepc or mepc, by medeleg. A posted write that fails a check leaves a record alone.
ACC_FAULT is read and written in M-mode and HS-mode; its access is a virtual-instruction exception in VS-mode and VU-mode, an illegal-
instruction exception in U-mode. The hart stands in DETAIL2 of its record by the model's choice (log 58). Completes: DEFERRED_STORE_FAULT,
POSTED_WRITE_CHECK_FAIL, ACC_FAULT_ACCESS. -/
def Obligations.HartFaultsTellTheirCode : Prop :=
  (∀ (old : W64) (deferred : Bool) (code : W16), let x := accFaultAfter old deferred code
    x.getLsbD 63 = true ∧ x.getLsbD 62 = deferred ∧ x.getLsbD 61 = (old.getLsbD 63 || old.getLsbD 61) ∧ x.toNat % 2 ^ 61 = code.toNat) ∧
  (∀ (trap : HartTrap) (stval : Nat) (y : Hart), let z := y.take trap stval
    z.trap = some (trap, BitVec.ofNat 64 stval) ∧ z.epc = y.pc ∧ (z.delegated = true ↔ y.medeleg.getLsbD trap.cause = true ∧ y.mode ≠ .m)) ∧
  (∀ (h n va pa : Nat) (mode : HartMode) (x : HartView) (uncached : Bool) (v : BitVec 512) (s : State), hartRuns s h = true →
    (hartOf s h).combined = [] →
    let y := hartBegun mode x (hartOf s h)
    let faulted (trap : HartTrap) (stval : Nat) (deferred : Bool) (code : W16) (z : Hart) : Hart :=
      { z.take trap stval with accFault := accFaultAfter z.accFault deferred code }
    (∀ fetch, placeAccepts mode fetch pa n (hartPlace pa n) = false →
      MapsTo h mode (if fetch then .fetch else .load) x va n pa uncached s → ∃ t, exec (.hartLoad h mode va n fetch x) s = .next t ∧
        OnlyHart h (faulted (if fetch then .fetchAccess else .loadAccess) va false 0x9103 y) s t) ∧
    (placeAccepts mode false pa n (hartPlace pa n) = false ∨ (hartPlace pa n = .tier ∧ storeBarred s ⟨va, pa, n⟩ = true) →
      MapsTo h mode .store x va n pa uncached s → ∃ t, exec (.hartStore h mode va n v x) s = .next t ∧
        OnlyHart h (faulted .storeAccess va false 0x9103 y) s t) ∧
    (∀ c fetch, MapsTo h mode (if fetch then .fetch else .load) x va n pa uncached s → regionOf pa = .near ∨ regionOf pa = .bulk →
      pa / 512 = (pa + n - 1) / 512 → s.err.inj.cells = [] → s.err.firing = none → accessRefusal s (hartRequester s h) false pa n = some c →
      ∃ t, exec (.hartLoad h mode va n fetch x) s = .next t ∧ t.mem = s.mem ∧
        t.err = (report { code := c, source := srcModule s, address := BitVec.ofNat 64 pa
                          context := BitVec.ofNat 16 (hartContextOf s h), detail2 := BitVec.ofNat 32 h } s).err ∧
        hartOf t h = faulted (if fetch then .fetchAccess else .loadAccess) va false c y) ∧
    (∀ d ds, (hartOf s h).deferred = d :: ds → ∃ t, exec (.deferredStoreFault h x) s = .next t ∧
      OnlyHart h (faulted .storeAccess 0 true d.code { hartOf s h with deferred := ds, pc := x.pc, medeleg := x.medeleg }) s t) ∧
    (mode = .m ∨ mode = .hs →
      (∃ t, exec (.accFaultAccess h mode .read x) s = .next t ∧ (hartOf t h).value = (hartOf s h).accFault ∧
        (hartOf t h).accFault = (hartOf s h).accFault ∧ t.mem = s.mem) ∧
      ∀ w, ∃ t, exec (.accFaultAccess h mode (.write w) x) s = .next t ∧ (hartOf t h).accFault = w &&& 0xE00000000000FFFF ∧ t.mem = s.mem) ∧
    (∀ a, mode = .vs ∨ mode = .vu ∨ mode = .u → ∃ t, exec (.accFaultAccess h mode a x) s = .next t ∧
      (hartOf t h).trap = some (if mode = .u then .illegalInstruction else .virtualInstruction, x.insn.setWidth 64) ∧
      (hartOf t h).epc = x.pc ∧ (hartOf t h).accFault = (hartOf s h).accFault ∧ t.mem = s.mem)) ∧
  (∀ (addr context : Nat) (code : W16) (s : State), inService s = true → regionOf addr = .near ∨ regionOf addr = .bulk →
    (postedAt s false addr = true → exec (.postedWriteCheckFail addr context code) s = .next (report
      { code := code, source := srcModule s, address := BitVec.ofNat 64 addr, context := BitVec.ofNat 16 context, posted := true } s)) ∧
    (postedAt s false addr = false → exec (.postedWriteCheckFail addr context code) s = .next s))

/-! ### Interrupts and PCIe (chapter 17) -/

/-- Interrupts (R431, R432; the APLIC's registers are PRESUMED from the RISC-V Advanced Interrupt Architecture, log 46): an MSI makes its
identity pend in its file alone; a source that rises at an enabled edge of an enabled M domain is sent as the MSI of its target and pends no
more, in a disabled domain it pends. PCIe root ports (R433–R435): an inbound memory request that the checks allow reads or writes the near
or bulk tier; one that may not be served is counted, answered Unsupported Request and recorded; one longer than Max_Payload_Size or
Max_Read_Request_Size is an AER error, by the model's choice (log 92); a change of the link is noted and reported, its loss recorded.
Completes: IMSIC_MSI, APLIC_SOURCE_CHANGE, PCIE_INBOUND, PCIE_LINK_CHANGE. -/
def Obligations.DevicesInterruptAndAccess : Prop :=
  ((∀ (addr f : Nat) (v : W32) (s : State), inService s = true → msiFile addr = some f →
     (addr % 0x1000 = 0 → 1 ≤ v.toNat → v.toNat ≤ 2047 → ∃ t, exec (.imsicMsi addr v) s = .next t ∧
       t.landing.pendingMsi.get false (f * 2048 + v.toNat) = true ∧
       (∀ k, k ≠ f * 2048 + v.toNat → t.landing.pendingMsi.get false k = s.landing.pendingMsi.get false k) ∧
       (s.landing.bootEntry = none → t.landing.harts = s.landing.harts) ∧ t.mem = s.mem ∧ t.err = s.err) ∧
     (addr % 0x1000 ≠ 0 ∨ v.toNat = 0 ∨ 2047 < v.toNat → exec (.imsicMsi addr v) s = .next s)) ∧
   (∀ (source : Nat) (s : State), inService s = true → 1 ≤ source → source ≤ 9 → s.landing.aplicM.sources.get 0 source = 4 →
     s.landing.wires.get false source = false → sourceAsserted s source = true → s.landing.aplicM.pending.cells = [] →
     let target := s.landing.aplicM.targets.get 0 source
     (s.landing.aplicM.enabled = true → s.landing.aplicM.enables.get false source = true → bitsOf target 31 18 < 64 →
       1 ≤ bitsOf target 10 0 → ∃ t, exec (.aplicSourceChange source) s = .next t ∧
         t.landing.pendingMsi.get false (bitsOf target 31 18 * 16 * 2048 + bitsOf target 10 0) = true ∧
         t.landing.aplicM.pending.get false source = false ∧ t.landing.wires.get false source = true ∧ t.mem = s.mem) ∧
     (s.landing.aplicM.enabled = false → ∃ t, exec (.aplicSourceChange source) s = .next t ∧
       t.landing.aplicM.pending.get false source = true ∧ t.landing.pendingMsi = s.landing.pendingMsi ∧
       t.landing.wires.get false source = true ∧ t.mem = s.mem))) ∧
  (∀ (p : Nat) (s : State), inService s = true → p < 2 →
     let q : Requester := { agent := .pcie, context := (pcieOf s p).context }
     (∀ addr n, (pcieOf s p).width ≠ 0 → 0 < n → n ≤ 4096 → rangeNearOrBulk addr n = true → ServesRead q addr n s → (pcieOf s p).inbound = true →
       ∃ t, exec (.pcieInbound p { addr := addr, length := n, write := none }) s = .next t ∧
         t = { s with landing := { s.landing with pcie := t.landing.pcie } } ∧
         pcieOf t p = { pcieOf s p with completion := .data (plainRead s addr n) }) ∧
     (∀ addr n bs, (pcieOf s p).width ≠ 0 → bs ≠ [] → bs.length ≤ 512 → rangeNearOrBulk addr bs.length = true → ServesWrite q addr bs.length s →
       InPlain s addr bs.length → (pcieOf s p).inbound = true → ∃ t, exec (.pcieInbound p { addr := addr, length := n, write := some bs }) s = .next t ∧
         memRead t.mem addr bs.length = bs ∧ (∀ a, a < addr ∨ addr + bs.length ≤ a → memGet t.mem a = memGet s.mem a) ∧
         (pcieOf t p).refused = (pcieOf s p).refused ∧ t.err = s.err ∧ t.scratch = s.scratch) ∧
     (∀ x : PcieRequest, (pcieOf s p).width ≠ 0 → s.err.inj.cells = [] → pcieSized x = false →
       exec (.pcieInbound p x) s = .next (report { code := 0x9201, source := srcModule s } (updPcie p (fun q => { q with reports := true }) s))) ∧
     (∀ addr n, (pcieOf s p).width ≠ 0 → n ≤ 4096 → s.err.inj.cells = [] → (pcieOf s p).inbound = false →
       ∃ t, exec (.pcieInbound p { addr := addr, length := n, write := none }) s = .next t ∧ t.mem = s.mem ∧
         (pcieOf t p).completion = .unsupported ∧ (pcieOf t p).refused = min ((pcieOf s p).refused + 1) (2 ^ 32 - 1) ∧
         t.err = (report { code := 0x9202, source := srcModule s, address := BitVec.ofNat 64 addr
                           context := BitVec.ofNat 16 (pcieOf s p).context } s).err) ∧
     (∀ width rate, linkForm width rate = true → (pcieOf s p).width ≠ width →
       ∃ t, exec (.pcieLinkChange p width rate false) s = .next t ∧
         pcieOf t p = { pcieOf s p with width := width, rate := rate, reports := true } ∧ t.mem = s.mem ∧
         (width ≠ 0 → t.err = s.err) ∧ (width = 0 → t.err = (reportModule 0x9204 s).err)))

/-! ### The management processor (chapters 03 and 17) -/

/-- Vendor commands that are answered at once, from the management port (R437, R439, R440, R455, R464): what each answers, and what it
changes; an MCTP control message is answered, a vendor message served by its command, and a message whose PEC fails, or of another type or
vendor, is dropped. The layouts of GET_STATUS and INJECT are logs 53 and 54, what MCTP answers is log 55. Completes: MGMT_HEARTBEAT,
MCTP_CONTROL, GET_IDENTITY, GET_STATUS, READ_REGISTER, WRITE_REGISTER, READ_ERROR_RECORDS, INJECT. -/
def Obligations.VendorCommandsAnswer : Prop :=
  ∀ s : State, MgmtServes s →
    let u := updMgmt (noteBacklog .port) s
    let done (cmd status : Nat) (data : List Byte) : List Byte := vendorResponse s cmd 0 status 0 data
    (∃ t, exec (.getIdentity .port) s = .next t ∧ Answered (done 1 0 ((identityRegs s).flatMap (bytesOfNat 8))) s t ∧
      t = { s with mgmt := t.mgmt }) ∧
    (∃ t, exec (.getStatus .port) s = .next t ∧ t = { s with mgmt := t.mgmt } ∧
      Answered (done 2 0 (bytesOfNat 1 s.life.stage ++ [2] ++ bytesOfNat 2 ((s.life.keptCause.map (·.toNat)).getD 0) ++
        bytesOfNat 2 (if s.power.trip.isSome then 0x8101 else 0) ++ bytesOfNat 8 (mgmtLoad u) ++ bytesOfNat 8 s.fabric.time)) s t) ∧
    (∀ a, registerAddress a = true →
      (siteWindowOf (a - controlBase) = none → let r := regRead (a - controlBase) u
        exec (.readRegister .port a) s = .next (mgmtSend .port (vendorResponse r.2 3 0 0 0 (bytesOfNat 8 r.1.toNat)) r.2)) ∧
      ∀ k o, siteWindowOf (a - controlBase) = some (k, o) →
        (windowForwards s k = false → exec (.readRegister .port a) s = .next (mgmtSend .port (done 3 0 (bytesOfNat 8 0)) u)) ∧
        (windowForwards s k = true → (∃ t, exec (.readRegister .port a) s = .next t ∧ t.mgmt.writing = true ∧
            (siteOf t k).access = (siteOf s k).access ++ [⟨.mgmt false 0, siteWindowAddr k o, s.now, false⟩] ∧ t.mem = s.mem) ∧
          ∀ v, ∃ t, exec (.writeRegister .port a v) s = .next t ∧ t.mgmt.writing = true ∧
            (siteOf t k).access = (siteOf s k).access ++ [⟨.mgmt false 0, siteWindowAddr k o, s.now, true⟩] ∧ t.mem = s.mem)) ∧
    (∀ a v, registerAddress a = false →
      (∃ t, exec (.readRegister .port a) s = .next t ∧ Answered (done 3 0x9106 []) s t ∧ t = { s with mgmt := t.mgmt }) ∧
      ∃ t, exec (.writeRegister .port a v) s = .next t ∧ Answered (done 4 0x9106 []) s t ∧ t = { s with mgmt := t.mgmt }) ∧
    (∀ a v, registerAddress a = true → forwardedWindow s (a - controlBase) = none → let r := regWrite (.mgmt false 0) (a - controlBase) v u
      exec (.writeRegister .port a v) s = .next
        (if r.1 then mgmtSend .port (vendorResponse r.2 4 0 0 0 []) r.2 else updMgmt (fun m => { m with writing := true }) r.2)) ∧
    (∀ n, 1 ≤ n → n ≤ 16 → ∃ t, exec (.readErrorRecords .port n) s = .next t ∧ t = { s with mgmt := t.mgmt } ∧
      Answered (done 5 0 (((unreadNumbers s.err).take n).flatMap fun i => recordBytes (recordAt s.err i))) s t) ∧
    (∀ n, n = 0 ∨ 16 < n → ∃ t, exec (.readErrorRecords .port n) s = .next t ∧ Answered (done 5 0x9105 []) s t ∧ t = { s with mgmt := t.mgmt }) ∧
    (∀ slot ctl loc, mayInject s false = false →
      ∃ t, exec (.inject .port slot ctl loc) s = .next t ∧ Answered (done 0x30 0x9310 []) s t ∧ t = { s with mgmt := t.mgmt }) ∧
    (∀ slot ctl loc, mayInject s false = true → slot < 16 → (slotOf s slot).state ≠ .armed →
      let code := BitVec.ofNat 16 (bitsOf ctl.toNat 15 0)
      let count := bitsOf ctl.toNat 47 32
      ∃ t, exec (.inject .port slot ctl loc) s = .next t ∧ Answered (done 0x30 (slotOf t slot).result.toNat []) s t ∧
        slotOf t slot = { slotOf s slot with
          code := code, count := count, locator := loc, fired := 0, result := armRefusal s code.toNat count loc.toNat
          state := if armRefusal s code.toNat count loc.toNat = 0 then .armed else .refused } ∧
        (∀ k, k ≠ slot → slotOf t k = slotOf s k) ∧ t.mem = s.mem) ∧
    exec .mgmtHeartbeat s = .next { s with mgmt := { s.mgmt with heartbeat := (s.mgmt.heartbeat + 1) % 65536 } } ∧
    (∀ m, fieldOf m 0 1 = 0 → ∃ t, exec (.mctpControl true m) s = .next t ∧ Answered (mctpResponse m (mctpAnswer m s.mgmt.eid).1) s t ∧
      t.mgmt.eid = (mctpAnswer m s.mgmt.eid).2 ∧ t = { s with mgmt := t.mgmt }) ∧
    (∀ cmd tag a, cmd < 256 → tag < 256 → cmd ≠ 0x10 →
      exec (.mctpControl true (vendorHead s cmd tag ++ a)) s = .next (serveVendor .port cmd tag a u)) ∧
    (∀ m, exec (.mctpControl false m) s = .next s) ∧
    (∀ m, fieldOf m 0 1 ≠ 0 → m.take 3 ≠ (vendorHead s 0 0).take 3 → exec (.mctpControl true m) s = .next s)

/-- The mailbox, the backlog, MODULE_RESET, RETRAIN and long operations (R437, R438, R440, R441): GO posts the request of REQ_LEN bytes, is
answered busy during a long operation, and is ignored while a request is unanswered; MODULE_RESET is accepted in every state. The oldest
request of the backlog is served, a GET_IDENTITY of the mailbox into the response buffer. RETRAIN makes a port train; a long operation ends
with its answer, RETRAIN's with the state of the port, or the width and rate of the root port, by the model's choice (logs 19, 53).
Completes: MAILBOX_GO, MGMT_RESPONSE, MODULE_RESET, RETRAIN, MGMT_LONG_OP_DONE. -/
def Obligations.RequestsQueueAndComplete : Prop :=
  (∀ (v : W64) (s : State), s.life.power = .running → v.getLsbD 0 = true → v.getLsbD 1 = false →
    let m := memRead s.mgmt.request 0 (bitsOf v.toNat 27 16)
    (s.mgmt.rspReady = false → s.mgmt.posted = false → isModuleReset s m = false →
      (s.mgmt.long = none → s.mgmt.backlog.length < 256 → ∃ t, exec (.mailboxGo v) s = .next t ∧ t = { s with mgmt := t.mgmt } ∧
        t.mgmt.posted = true ∧ t.mgmt.reqLen = bitsOf v.toNat 27 16 ∧ t.mgmt.backlog = s.mgmt.backlog ++ [⟨.mailbox, .vendor m, s.now⟩]) ∧
      (∀ l, s.mgmt.long = some l → let r := echoResponse (echoHead m) 0x9101 (longInfo l.kind) []
        ∃ t, exec (.mailboxGo v) s = .next t ∧ t = { s with mgmt := t.mgmt } ∧ t.mgmt.rspReady = true ∧ t.mgmt.rspLen = r.length ∧
          memRead t.mgmt.response 0 r.length = r ∧ t.mgmt.long = some l ∧ t.mgmt.backlog = s.mgmt.backlog)) ∧
    (s.mgmt.rspReady = false → s.mgmt.posted = false → isModuleReset s m = true → ∃ t, exec (.mailboxGo v) s = .next t ∧
      t.life.power = .warmReset ∧ t.life.keptCause = some 0x120B) ∧
    (s.mgmt.rspReady = true ∨ s.mgmt.posted = true →
      exec (.mailboxGo v) s = .next { s with mgmt := { s.mgmt with reqLen := bitsOf v.toNat 27 16 } })) ∧
  (∀ (q : QueuedRequest) (qs : List QueuedRequest) (s : State), s.life.power = .running → s.mgmt.long = none → s.mgmt.writing = false →
    s.mgmt.backlog = q :: qs →
    let u : State := { s with mgmt := { s.mgmt with backlog := qs } }
    (∀ m, q.request = .vendor m → exec .mgmtResponse s = .next (serveMessage q.source m u)) ∧
    (∀ m, q.request = .control m → exec .mgmtResponse s = .next (serveControl m u)) ∧
    (∀ r, q.request = .spdm r → exec .mgmtResponse s = .next (serveSpdm r u)) ∧
    (∀ tag, q.source = .mailbox → tag < 256 → q.request = .vendor (vendorHead s 1 tag) →
      let r := vendorResponse s 1 tag 0 0 ((identityRegs s).flatMap (bytesOfNat 8))
      ∃ t, exec .mgmtResponse s = .next t ∧ t = { s with mgmt := t.mgmt } ∧ t.mgmt.backlog = qs ∧ t.mgmt.rspReady = true ∧
        t.mgmt.posted = false ∧ t.mgmt.rspLen = r.length ∧ memRead t.mgmt.response 0 r.length = r)) ∧
  (∀ s : State, (s.life.power = .running ∨ s.life.power = .starting ∨ s.life.power = .hold ∨ s.life.power = .trip →
      ∃ t, exec (.moduleReset .port) s = .next t ∧ t.life.power = .warmReset ∧ t.life.keptCause = some 0x120B ∧
        t.mgmt.portResponse = vendorResponse s 0x10 0 0 0 [] ∧ t.mgmt.long = none ∧ t.scratch = {} ∧ t.tasks = [] ∧
        (∀ a, a < flashBase → memGet t.mem a = 0) ∧ (∀ a, flashBase ≤ a → memGet t.mem a = memGet s.mem a)) ∧
    (s.life.power = .warmReset ∨ s.life.power = .brownOut → exec (.moduleReset .port) s =
      .next { s with mgmt := { s.mgmt with portResponse := vendorResponse s 0x10 0 0 0 [] } })) ∧
  (∀ (p : Nat) (s : State), MgmtServes s →
    (p < 72 → (portOf s p).state ≠ .disabled → (portOf s p).state ≠ .markedDown →
      ∃ t l, exec (.retrain .port 0 p) s = .next t ∧ (portOf t p).state = .training ∧ t.mgmt.long = some l ∧ l.kind = .retrain 0 p ∧
        l.source = .port ∧ l.bound = 2200000 ∧
        (s.fabric.transfers = [] → s.fabric.incoming = [] → s.tier.inProgress = [] → t.mem = s.mem)) ∧
    (p < 2 → ∃ t l, exec (.retrain .port 1 p) s = .next t ∧ t = { s with mgmt := t.mgmt } ∧ t.mgmt.long = some l ∧ l.kind = .retrain 1 p ∧
      l.source = .port ∧ l.bound = 2200000)) ∧
  (∀ (l : LongOp) (s : State), s.mgmt.long = some l → l.source = .port →
    (∀ c, l.kind = .vendor c → ∃ t, exec .mgmtLongOpDone s = .next t ∧ Answered l.response s t ∧ t = { s with mgmt := t.mgmt }) ∧
    (∀ p, l.kind = .retrain 0 p → l.response = [0] → (portOf s p).state = .up → ∃ t, exec .mgmtLongOpDone s = .next t ∧
      Answered (vendorResponse s 0x11 0 0 0 [3]) s t ∧ t.fabric = s.fabric) ∧
    (∀ p, l.kind = .retrain 1 p → l.response = [0] → (pcieOf s p).width ≠ 0 → ∃ t, exec .mgmtLongOpDone s = .next t ∧
      Answered (vendorResponse s 0x11 0 0 0 (bytesOfNat 1 (pcieOf s p).width ++ bytesOfNat 1 (pcieOf s p).rate)) s t ∧
      pcieOf t p = { pcieOf s p with reports := true } ∧ t.mem = s.mem))

/-- Staging (R70–R73): what each command accepts, what it does to the slot, the session and the start record, and with which code it is
refused, changing nothing; while an image is on trial no slot can be opened; IMAGE_CONFIRM writes the record, then burns the fuses; the next
command of a session that a reset ended is answered 0x111B. The model's choice are the layout of START_RECORD_READ's data (log 53), the
codes of commands whose fields or session do not fit (log 15), and what a write at offset 0 and a failed STAGE_VERIFY leave (log 78).
Completes: STAGE_OPEN, STAGE_WRITE, STAGE_VERIFY, STAGE_SELECT, STAGE_ABORT, IMAGE_CONFIRM, START_RECORD_READ, MGMT_LONG_OP_DONE. -/
def Obligations.StagingMovesSlots : Prop :=
  (∀ (off : Nat) (data : List Byte) (s : State), MgmtServes s → s.boot.sessionEnded = true → 1 ≤ data.length → data.length ≤ 64 →
    ∀ x ∈ [(Instr.stageWrite .port off data, 0x21), (.stageVerify .port, 0x22), (.stageSelect .port, 0x23), (.imageConfirm .port, 0x25)],
      ∃ t, exec x.1 s = .next t ∧ Answered (vendorResponse s x.2 0 0x111B 0 []) s t ∧ t.boot = { s.boot with sessionEnded := false }) ∧
  ∀ (r : StartRecord) (s : State), MgmtServes s → newestRecord s.boot = some r → r.sequence < 2 ^ 32 - 3 → s.boot.sessionEnded = false →
    let done (cmd status : Nat) (data : List Byte) : List Byte := vendorResponse s cmd 0 status 0 data
    let record (t : State) (f : StartRecord → StartRecord) : Prop := newestRecord t.boot = some { f r with sequence := r.sequence + 1 }
    (∀ k, k < 2 → r.runningSlot ≠ some k → r.trial = false →
      ∃ t, exec (.stageOpen .port k) s = .next t ∧ AnsweredLater (done 0x20 0 []) 45000000 s t ∧ slotContents t.boot k = .erased ∧
        slotContents t.boot (1 - k) = slotContents s.boot (1 - k) ∧ t.boot.session = some { slot := k } ∧
        record t (fun r => clearPendingSlot k (markSlot k .empty r)) ∧ t.mem = s.mem) ∧
    (∀ k, k < 2 → r.runningSlot = some k ∨ r.trial = true →
      ∃ t, exec (.stageOpen .port k) s = .next t ∧ Answered (done 0x20 0x111A []) s t ∧ t.boot = s.boot) ∧
    (∀ x off data, s.boot.session = some x → x.slot < 2 → 1 ≤ data.length → data.length ≤ 64 →
      (off = 0 ∨ off = x.next → off + data.length ≤ 32505856 → ∃ t, exec (.stageWrite .port off data) s = .next t ∧
        AnsweredLater (done 0x21 0 []) 2000 s t ∧ (∀ i, i < data.length → (stagedBytes t.boot x.slot).get 0xFF (off + i) = data.getD i 0) ∧
        (∀ a, a < off ∨ off + data.length ≤ a → (stagedBytes t.boot x.slot).get 0xFF a = (stagedBytes s.boot x.slot).get 0xFF a) ∧
        t.boot.session = some { x with next := off + data.length, wrote := true } ∧ record t (markSlot x.slot .written)) ∧
      ((off ≠ 0 ∧ off ≠ x.next) ∨ 32505856 < off + data.length → ∃ t, exec (.stageWrite .port off data) s = .next t ∧
        Answered (done 0x21 0x1118 []) s t ∧ t.boot = s.boot)) ∧
    (∀ x, s.boot.session = some x → x.slot < 2 →
      let v := validateSlot s.boot s.part s.life.common s.life.sites x.slot
      (x.wrote = true → v.code ≠ 0x1119 → v.code ≠ 0x111B → ∃ t, exec (.stageVerify .port) s = .next t ∧
        AnsweredLater (done 0x22 v.code.toNat []) 1500000 s t ∧ (v.code = 0 → record t (markSlot x.slot .verified)) ∧
        (v.code ≠ 0 → record t (failSlot x.slot v.code)) ∧ t.boot.session = some x) ∧
      (x.wrote = false → ∃ t, exec (.stageVerify .port) s = .next t ∧ Answered (done 0x22 0x1119 []) s t ∧ t.boot = s.boot) ∧
      (slotState x.slot r = .verified → ∃ t l, exec (.stageSelect .port) s = .next t ∧ t.mgmt.long = some l ∧ l.kind = .select ∧
        l.response = done 0x23 0 [] ∧ l.bound = 200000 ∧ t.boot = s.boot) ∧
      (slotState x.slot r ≠ .verified → ∃ t, exec (.stageSelect .port) s = .next t ∧ Answered (done 0x23 0x1119 []) s t ∧ t.boot = s.boot) ∧
      ∃ t, exec (.stageAbort .port) s = .next t ∧ Answered (done 0x24 0 []) s t ∧ t.boot.session = none ∧
        record t (fun r => { markSlot x.slot .empty r with pendingSlot := none })) ∧
    (∃ t l, exec (.imageConfirm .port) s = .next t ∧ t.mgmt.long = some l ∧ l.kind = .confirm ∧ l.response = done 0x25 0 [] ∧
      l.bound = 200000 ∧ t.boot = s.boot) ∧
    (∀ n, n ≤ 16 → ∃ t, exec (.startRecordRead .port n) s = .next t ∧ t.boot = s.boot ∧
      Answered (done 0x26 0 (startRecordBytes r ++ (s.boot.log.drop (s.boot.log.length - n)).flatMap logEntryBytes)) s t) ∧
    (∀ (l : LongOp), let b : State := { s with mgmt := { s.mgmt with long := some l } }
      (∀ x, l.kind = .select → s.boot.session = some x → ∃ t, exec .mgmtLongOpDone b = .next t ∧ t.boot.session = none ∧
        record t (fun r => { r with pendingSlot := some x.slot })) ∧
      (∀ k, l.kind = .confirm → r.trial = true → r.runningSlot = some k → ∃ t, exec .mgmtLongOpDone b = .next t ∧
        record t (fun r => { r with activeSlot := k, trial := false }) ∧ t.mem = s.mem ∧
        let fused := burnFuses (trialSettings b) s.boot
        t.boot.revoked = fused.revoked ∧ t.boot.minVersion = fused.minVersion))

/-! ### Kerf links, admitted dies, and registers (chapters 14 and 19) -/

/-- Kerf traffic (R345–R348): on the edges of the Landing die the data class takes BULK, a message that keeps its order HUB; on an edge
between groves flits take DIRECT, on one of a port die PORT. A flit waits at its die while no bundle of the role takes flits, else it is
queued on one of them, the same one for every flit with its key; HUB_OVERFLOW bundles are taken in turn. The hub class is delivered in the
order sent. What is offered while the bundle takes no flits is still given its bundles. When a flit takes its bundle, and how keys are
spread over the bundles, are the model's choice (log 71). Kerf links (R340–R343, R350): a good flit in order is taken, a bad one asks for a
replay from its number; a replay is counted; a lane fails at its second bad check in a row and the first lane of R342 takes its place, live
or in a paused repair; three bursts without a failed lane retrain the bundle; a repair or retraining that finds no further failure ends; a
clock pair that fails takes its bundle down, and its flits leave. That a live repair takes effect at its check, and that after three bursts
the check runs twice, are the model's reading (log 63). Completes: KERF_FLIT_RECEIVE, KERF_REPLAY, KERF_LANE_CHECK, PAUSED_REPAIR_DONE,
KERF_RETRAIN_DONE, KERF_CLOCK_LOSS. -/
def Obligations.KerfLanesRepair : Prop :=
  ((∀ (die : Nat) (f : KerfFlit) (s : State),
     let e := (nextHop s die f).1
     let dirB := (nextHop s die f).2
     let r := flitRole s e dirB f
     let bs := roleBundles s e r
     (8 ≤ e → r = .port) ∧ (4 ≤ e → e < 8 → r = .direct) ∧ (e < 4 → hubClass f = false → r = .bulk) ∧ (e < 4 → hubOrdered f = true → r = .hub) ∧
     (die < 4 → hubClass f = true → e = die ∧ dirB = true) ∧
     (die < 4 → hubClass f = false → f.dest = (die + 1) % 4 → directUp s (4 + die) = true → e = 4 + die ∧ dirB = false) ∧
     (bs = [] → assignFlit die f s = { s with kerf := { s.kerf with waiting := s.kerf.waiting ++ [(die, f)] } }) ∧
     (bs ≠ [] → r ≠ .hubOverflow → ∃ b ∈ bs, ∀ g, nextHop s die g = nextHop s die f → flitRole s e dirB g = r →
       spreadKey e g = spreadKey e f → assignFlit die g s = queueFlit e b dirB g s) ∧
     (r = .hubOverflow → let turn := s.kerf.overflowTurn.get 0 (e * 2 + bitNat dirB)
       ∃ b, bs[turn % bs.length]? = some b ∧ ∃ t, assignFlit die f s = t ∧
         (dirOf (bundleOf t e b) dirB).queue = (dirOf (bundleOf s e b) dirB).queue ++ [f] ∧
         t.kerf.overflowTurn.get 0 (e * 2 + bitNat dirB) = turn + 1)) ∧
   (∀ (f : KerfFlit) (s : State), hubOrdered f = true → s.kerf.hubHeld = [] →
     let next := s.kerf.hubNext.get 0 (flitPair f)
     (f.seq = next → (takeFlit f s).kerf.hubNext.get 0 (flitPair f) = next + 1 ∧ (takeFlit f s).kerf.hubHeld = []) ∧
     (f.seq ≠ next → (takeFlit f s).kerf.hubNext.get 0 (flitPair f) = next ∧ (takeFlit f s).kerf.hubHeld = [f])) ∧
   ∀ (e b number : Nat) (dirB good : Bool) (offered : List KerfFlit) (s : State), carriesFlits (bundleOf s e b) = false →
     exec (.kerfFlitReceive e b dirB number good offered) s = .next (offered.foldl (fun s f => offerFlit f s) s)) ∧
  (∀ (e b : Nat) (dirB : Bool) (s : State), e < 10 → b < bundlesOf e → (bundleOf s e b).width ≠ .down → s.err.inj.cells = [] →
     let k := bundleOf s e b
     let d := dirOf k dirB
     let only (t : State) : Prop := t = { s with kerf := { s.kerf with bundles := t.kerf.bundles } }
     (∀ number, carriesFlits k = true →
       (number < d.delivered ∨ d.delivered + min 64 d.queue.length ≤ number → ∀ good,
         ∃ t, exec (.kerfFlitReceive e b dirB number good []) s = .next t ∧ only t ∧ bundleOf t e b = k) ∧
       (d.delivered ≤ number → number < d.delivered + min 64 d.queue.length →
         ∃ t, exec (.kerfFlitReceive e b dirB number false []) s = .next t ∧ only t ∧ bundleOf t e b = setDir dirB
           { d with sent := max d.sent (number + 1), replayFrom := some (min (d.replayFrom.getD number) number) } k) ∧
       ∀ f fs, d.queue = f :: fs → number = d.delivered →
         let u := updBundle e b (setDir dirB { d with
           sent := max d.sent (number + 1), delivered := number + 1, queue := fs, replayFrom := none }) s
         exec (.kerfFlitReceive e b dirB number true []) s = .next (arriveFlit (receivingDie e dirB) f u) ∧
         (f.dest = receivingDie e dirB → hubOrdered f = false → arriveFlit (receivingDie e dirB) f u = u)) ∧
     (∀ m, carriesFlits k = true → d.replayFrom = some m → ∃ t, exec (.kerfReplay e b dirB) s = .next t ∧ only t ∧
       (bundleOf t e b).replays = min (k.replays + min 64 (d.sent - m)) (2 ^ 32 - 1) ∧ (dirOf (bundleOf t e b) dirB).replayFrom = none ∧
       (dirOf (bundleOf t e b) dirB).delivered = d.delivered) ∧
     (∀ l, (checkedLanes k d).contains l = true → d.suspect.contains l = false → d.bursts.length < 3 →
       ∃ t, exec (.kerfLaneCheck e b dirB [l]) s = .next t ∧ only t ∧ (dirOf (bundleOf t e b) dirB).suspect = [l] ∧
         (bundleOf t e b).width = k.width ∧ (dirOf (bundleOf t e b) dirB).replaced = d.replaced) ∧
     (UnderRate 0x6101 (srcModule s) s → ∀ l, l < 64 → e < 8 → d.suspect.contains l = true → k.width = .full → k.repairing = false → k.retraining = false →
       (∀ x ∈ [k.dirA, k.dirB], x.failed = [] ∧ x.replaced = [] ∧ x.clockFailed = false) → QueueBounded s → queueFull s.err = false →
       let spare := (spareLanes (lentBelow s e b) (lentAbove s e b)).headD 64
       ∃ t, exec (.kerfLaneCheck e b dirB [l]) s = .next t ∧ (dirOf (bundleOf t e b) dirB).failed = [l] ∧
         (dirOf (bundleOf t e b) dirB).replaced = [(l, spare)] ∧ (bundleOf t e b).width = .full ∧
         (bundleOf t e b).repairing = !liveRepair s k ∧ (recordAt t.err s.err.written).code = 0x6101 ∧
         (recordAt t.err s.err.written).detail0 = BitVec.ofNat 64 (laneLocator e b dirB l) ∧
         (recordAt t.err s.err.written).detail1 = BitVec.ofNat 64 (roleCode k.role) ∧ t.mem = s.mem) ∧
     (UnderRate 0x6105 (srcModule s) s → 3 ≤ d.bursts.length → d.checksDue ≤ 1 → k.retraining = false → QueueBounded s → queueFull s.err = false →
       ∃ t, exec (.kerfLaneCheck e b dirB []) s = .next t ∧ (bundleOf t e b).retraining = true ∧ (bundleOf t e b).width = k.width ∧
         (recordAt t.err s.err.written).code = 0x6105 ∧ t.mem = s.mem) ∧
     (k.repairing = true → s.kerf.waiting = [] → ∃ t, exec (.pausedRepairDone e b [] []) s = .next t ∧ only t ∧ bundleOf t e b = { k with repairing := false }) ∧
     (k.retraining = true → s.kerf.waiting = [] → ∃ t, exec (.kerfRetrainDone e b [] []) s = .next t ∧ only t ∧ (bundleOf t e b).retraining = false ∧
       (bundleOf t e b).width = k.width ∧ (bundleOf t e b).role = k.role ∧ (bundleOf t e b).repairing = k.repairing) ∧
     (QueueBounded s → queueFull s.err = false → (∃ c, c < bundlesOf e ∧ c ≠ b ∧ (bundleOf s e c).role = k.role ∧
       (bundleOf s e c).width ≠ .down) → ∃ t, exec (.kerfClockLoss e b dirB) s = .next t ∧ (bundleOf t e b).width = .down ∧
       (dirOf (bundleOf t e b) dirB).clockFailed = true ∧ (recordAt t.err s.err.written).code = 0x6103 ∧
       (bundleOf t e b).dirA.queue = [] ∧ (bundleOf t e b).dirB.queue = []))

/-- Admitted dies in service (R356, R357): a report below TEMP_LIMIT_C + 5 is noted; one at it or above, reports that stay away, and a
mainband that does not recover shut the site down with 0x6205; one that recovers leaves what it says and 0x6206. A window that forwards
makes the hart wait; any other reads zero; the answer that never comes reads all ones, with record 0x6208. Completes: SITE_TEMP_REPORT,
SITE_REPORT_TIMEOUT, SITE_MAINBAND_FAILURE, SITE_WINDOW_ACCESS, SITE_WINDOW_TIMEOUT. -/
def Obligations.SitesStayWithinLimits : Prop :=
  (∀ (k : Nat) (s : State), admittedSite s k = true → s.err.inj.cells = [] → s.part.orderCode ≠ 1 → QueueBounded s → queueFull s.err = false →
    let shut (t : State) : Prop := (siteOf t k).state = .shutDown ∧ (siteOf t k).code = 0x6205 ∧ (siteOf t k).modules = 0 ∧
      (siteOf t k).lanes = 0 ∧ (siteOf t k).rate = 0 ∧ (recordAt t.err s.err.written).code = 0x6205 ∧ t.mem = s.mem
    (∀ temp, temp < (siteOf s k).tempLimit + 5 → ∃ t, exec (.siteTempReport k temp) s = .next t ∧
      siteOf t k = { siteOf s k with temp := temp, lastReport := s.now } ∧ t.err = s.err) ∧
    (∀ temp, (siteOf s k).tempLimit + 5 ≤ temp → ∃ t, exec (.siteTempReport k temp) s = .next t ∧ shut t) ∧
    (∃ t, exec (.siteReportTimeout k) s = .next t ∧ shut t) ∧
    (∀ m l r good, good = false ∨ mainbandSupported m l r = false ∨ ((siteOf s k).cls = 1 ∧ engineCapacity (siteOf s k) m l r = false) →
      ∃ t, exec (.siteMainbandFailure k good m l r) s = .next t ∧ shut t) ∧
    (∀ m l r, mainbandSupported m l r = true → (siteOf s k).cls ≠ 1 ∨ engineCapacity (siteOf s k) m l r = true → ∃ t, exec (.siteMainbandFailure k true m l r) s = .next t ∧
      siteOf t k = { siteOf s k with modules := m, lanes := l, rate := r, code := 0x6206 } ∧
      (UnderRate 0x6206 (srcModule s) s → (recordAt t.err s.err.written).code = 0x6206) ∧ t.mem = s.mem)) ∧
  (∀ (k h off : Nat) (s : State), k < 2 → off < 0x10000 → off % 8 = 0 → hartRuns s h = true →
    (windowForwards s k = false → (∃ t, exec (.siteWindowAccess k h off none none) s = .next t ∧ (hartOf t h).value = 0 ∧ t.kerf = s.kerf ∧
        (hartOf t h).waiting = (hartOf s h).waiting) ∧
      ∀ v, exec (.siteWindowAccess k h off (some v) none) s = .next s) ∧
    (windowForwards s k = true → ∃ t, exec (.siteWindowAccess k h off none none) s = .next t ∧ (hartOf t h).waiting = .site k ∧
      (siteOf t k).access = (siteOf s k).access ++ [⟨.hart h, siteWindowAddr k off, s.now, false⟩])) ∧
  (∀ (k : Nat) (a : SiteAccess) (rest : List SiteAccess) (s : State), (siteOf s k).access = a :: rest → QueueBounded s →
    queueFull s.err = false → a.write = false →
    ∃ t, exec (.siteWindowTimeout k) s = .next t ∧ (siteOf t k).access = rest ∧ (recordAt t.err s.err.written).code = 0x6208 ∧
      (∀ h, a.accessor = .hart h → (hartOf t h).value = 0xFFFFFFFFFFFFFFFF ∧ (hartOf t h).waiting = .nothing) ∧
      (∀ tag, a.accessor = .mgmt false tag → t.mgmt.writing = false ∧
        t.mgmt.portResponse = vendorResponse s 3 tag 0 0 (bytesOfNat 8 0xFFFFFFFFFFFFFFFF)))

/-- Register writes (R438, R455, R480, R482): a write acts on the register at its address, here ERR_READ, MBOX_CTL, PCIE_CTL and the request
buffer; an offset that lies in no block of R478, the registers of a ring that does not exist and those of the identity block, which are all
read-only, ignore it. An offset in no block reads zero. Completes: REGISTER_WRITE. -/
def Obligations.RegisterWritesAct : Prop :=
  ∀ (v : W64) (s : State), inService s = true →
    exec (.registerWrite 0x400000C00008 v) s = exec (.errRead v) s ∧
    exec (.registerWrite 0x400001100010 v) s = exec (.mailboxGo v) s ∧
    (∀ i, i < 512 → ∃ t, exec (.registerWrite (0x400001101000 + 8 * i) v) s = .next t ∧ t = { s with mgmt := t.mgmt } ∧
      memNat t.mgmt.request (8 * i) 8 = v.toNat ∧
      ∀ a, a < 8 * i ∨ 8 * i + 8 ≤ a → memGet t.mgmt.request a = memGet s.mgmt.request a) ∧
    (∀ p, p < 2 → ∃ t, exec (.registerWrite (0x400002900000 + 0x1000 * p) v) s = .next t ∧
      t = { s with landing := { s.landing with pcie := t.landing.pcie } } ∧
      pcieOf t p = { pcieOf s p with
        inbound := v.getLsbD 0
        context := if 1 ≤ bitsOf v.toNat 47 32 ∧ bitsOf v.toNat 47 32 ≤ 0xFFEF then bitsOf v.toNat 47 32 else (pcieOf s p).context }) ∧
    (∀ off, off % 8 = 0 → off < 0x10000000 → inNoBlock off = true → exec (.registerWrite (0x400000000000 + off) v) s = .next s ∧ regRead off s = (0, s)) ∧
    (∀ off, off % 8 = 0 → off < 0x100000 → exec (.registerWrite (0x400000000000 + off) v) s = .next s) ∧
    ∀ r o, r < 1024 → o < 0x1000 → o % 8 = 0 → ringExists s r = false →
      exec (.registerWrite (0x400000100000 + r * 0x1000 + o) v) s = .next s ∧ regRead (0x100000 + r * 0x1000 + o) s = (0, s)

end
end

