-- ==== Sys2Proof/Laws/Idle.lean ====
section
/-!
SUPPORT. Laws/Idle.lean: where shared operations leave things alone: preloads of a bench with no task at work (R238), and records that the loss
of a HUB does not withhold (R452).
-/

namespace Sys2Proof.Machine

/-- A bench with nothing at work chooses no task to preload. -/
theorem choosePreload_idle (n : Nat) (s : State) (h : runningOn s n = []) : choosePreload n s = s := by
  simp [choosePreload, h]

/-- A bench with nothing at work preloads nothing. -/
theorem preload_idle (n : Nat) (s : State) (h : runningOn s n = []) : preload n s = s := by
  simp only [preload, choosePreload_idle n s h]
  cases preloadedOf s n <;> rfl

/-- With nothing at work on any bench nothing is preloaded. -/
theorem preloadBenches_idle (s : State) (h : ∀ n, runningOn s n = []) : preloadBenches s = s := by
  have fixed : ∀ l : List Nat, l.foldl (fun s n => preload n s) s = s := by
    intro l
    induction l with
    | nil => rfl
    | cons n l ih => simpa [preload_idle n s (h n)] using ih
  exact fixed _

/-- With no task staged nothing is at work on any bench. -/
theorem runningOn_no_tasks (n : Nat) (s : State) (h : s.tasks = []) : runningOn s n = [] := by simp [runningOn, h]

/-- A field above another: the upper one is the quotient, the lower the rest. -/
theorem bitsOf_eq (w hi lo : Nat) : bitsOf w hi lo = w / 2 ^ lo % 2 ^ (hi + 1 - lo) := by
  simp [bitsOf, Nat.shiftRight_eq_div_pow]

/-- An identifier of the module level names no place in a grove, in either presentation. -/
theorem moduleLevel_place (ml : Bool) (w : Nat) (h : bitsOf w 18 16 = if ml then 6 else 4) :
    ((readUnitId ml w).orElse fun _ => readDiagId ml w).map (·.place) = some .module ∨
      ((readUnitId ml w).orElse fun _ => readDiagId ml w).map (·.place) = none := by
  cases ml
  · simp only [readUnitId, readNativeId, readDiagId, h]
    split <;> split <;> simp_all [Decidable.em]
  · simp only [readUnitId, readMladythId, readDiagId, h]
    split <;> split <;> simp_all [Decidable.em]

/-- The identifier of a module names no grove. -/
theorem sourceGrove_module (s : State) : sourceGrove s (srcModule s).toNat = none := by
  have h : bitsOf (srcModule s).toNat 18 16 = if mladyth s then 6 else 4 := by
    simp only [srcModule, writeUnitId, BitVec.toNat_ofNat, bitsOf_eq, Nat.shiftLeft_eq]
    cases mladyth s <;> simp <;> omega
  rcases moduleLevel_place (mladyth s) _ h with e | e <;> simp only [sourceGrove, e]

/-- A record of the module is delivered whatever HUB is lost. -/
theorem undelivered_module (s : State) (e : ErrRecord) (h : e.source = srcModule s) : undelivered s e = false := by
  simp [undelivered, h, sourceGrove_module]

end Sys2Proof.Machine
end

