-- ==== Sys2Proof/Laws/Table.lean ====
section
/-!
SUPPORT. Laws/Table.lean: sparse tables: reading back what was set, and the canonical form kept by every operation.
-/

namespace Sys2Proof.Machine

variable {α : Type}

/-! ### Sorted cell lists -/

/-- Every key of a list lies above a bound. -/
def cellsAbove (k : Nat) (cs : List (Nat × α)) : Prop := ∀ c ∈ cs, k < c.1

theorem cellsSorted_cons {j : Nat} {v : α} {cs : List (Nat × α)} :
    cellsSorted ((j, v) :: cs) = true ↔ cellsAbove j cs ∧ cellsSorted cs = true := by
  induction cs generalizing j v with
  | nil => simp [cellsSorted, cellsAbove]
  | cons c cs ih =>
    obtain ⟨k, w⟩ := c
    simp only [cellsSorted, Bool.and_eq_true, decide_eq_true_eq]
    constructor
    · rintro ⟨h, hs⟩
      refine ⟨?_, hs⟩
      have := (ih (j := k) (v := w)).1 hs
      intro c hc
      rcases List.mem_cons.1 hc with rfl | hc
      · exact h
      · exact Nat.lt_trans h (this.1 c hc)
    · rintro ⟨h, hs⟩
      exact ⟨h (k, w) (List.mem_cons_self ..), hs⟩

theorem cellsAbove_insert {j k : Nat} {v : α} {cs : List (Nat × α)} (h : cellsAbove j cs) (hk : j < k) :
    cellsAbove j (cellsInsert k v cs) := by
  induction cs with
  | nil => simpa [cellsInsert, cellsAbove] using hk
  | cons c cs ih =>
    obtain ⟨i, w⟩ := c
    have hi : j < i := h (i, w) (List.mem_cons_self ..)
    have ht : cellsAbove j cs := fun c hc => h c (List.mem_cons_of_mem _ hc)
    unfold cellsInsert
    split
    · intro c hc
      rcases List.mem_cons.1 hc with rfl | hc
      · exact hk
      · exact h c hc
    · split
      · intro c hc
        rcases List.mem_cons.1 hc with rfl | hc
        · exact hk
        · exact ht c hc
      · intro c hc
        rcases List.mem_cons.1 hc with rfl | hc
        · exact hi
        · exact ih ht c hc

theorem cellsSorted_insert {k : Nat} {v : α} {cs : List (Nat × α)} (h : cellsSorted cs = true) :
    cellsSorted (cellsInsert k v cs) = true := by
  induction cs with
  | nil => rfl
  | cons c cs ih =>
    obtain ⟨i, w⟩ := c
    have hs := cellsSorted_cons.1 h
    unfold cellsInsert
    split
    · rename_i hk
      refine cellsSorted_cons.2 ⟨?_, h⟩
      intro c hc
      rcases List.mem_cons.1 hc with rfl | hc
      · exact hk
      · exact Nat.lt_trans hk (hs.1 c hc)
    · split
      · rename_i h1 h2
        subst h2
        exact cellsSorted_cons.2 hs
      · rename_i h1 h2
        exact cellsSorted_cons.2 ⟨cellsAbove_insert hs.1 (by omega), ih hs.2⟩

theorem mem_cellsErase {k : Nat} {cs : List (Nat × α)} {c : Nat × α} (h : c ∈ cellsErase k cs) : c ∈ cs := by
  induction cs with
  | nil => simp [cellsErase] at h
  | cons d cs ih =>
    obtain ⟨i, w⟩ := d
    unfold cellsErase at h
    split at h
    · exact List.mem_cons_of_mem _ (ih h)
    · rcases List.mem_cons.1 h with rfl | h
      · exact List.mem_cons_self ..
      · exact List.mem_cons_of_mem _ (ih h)

theorem cellsSorted_erase {k : Nat} {cs : List (Nat × α)} (h : cellsSorted cs = true) : cellsSorted (cellsErase k cs) = true := by
  induction cs with
  | nil => rfl
  | cons c cs ih =>
    obtain ⟨i, w⟩ := c
    have hs := cellsSorted_cons.1 h
    unfold cellsErase
    split
    · exact ih hs.2
    · exact cellsSorted_cons.2 ⟨fun c hc => hs.1 c (mem_cellsErase hc), ih hs.2⟩

theorem cellsSorted_filter (p : Nat × α → Bool) {cs : List (Nat × α)} (h : cellsSorted cs = true) :
    cellsSorted (cs.filter p) = true := by
  induction cs with
  | nil => rfl
  | cons c cs ih =>
    obtain ⟨i, w⟩ := c
    have hs := cellsSorted_cons.1 h
    rw [List.filter_cons]
    split
    · exact cellsSorted_cons.2 ⟨fun c hc => hs.1 c (List.mem_filter.1 hc).1, ih hs.2⟩
    · exact ih hs.2

theorem mem_cellsInsert {k : Nat} {v : α} {cs : List (Nat × α)} {c : Nat × α} (h : c ∈ cellsInsert k v cs) :
    c = (k, v) ∨ c ∈ cs := by
  induction cs with
  | nil => simpa [cellsInsert] using h
  | cons d cs ih =>
    obtain ⟨i, w⟩ := d
    unfold cellsInsert at h
    split at h
    · exact List.mem_cons.1 h
    · split at h
      · rcases List.mem_cons.1 h with h | h
        · exact .inl h
        · exact .inr (List.mem_cons_of_mem _ h)
      · rcases List.mem_cons.1 h with h | h
        · exact .inr (h ▸ List.mem_cons_self ..)
        · rcases ih h with h | h
          · exact .inl h
          · exact .inr (List.mem_cons_of_mem _ h)

/-! ### Reading back -/

theorem cellsFind_none_of_above {k : Nat} {cs : List (Nat × α)} (h : cellsAbove k cs) : cellsFind k cs = none := by
  induction cs with
  | nil => rfl
  | cons c cs ih =>
    obtain ⟨i, w⟩ := c
    have hi : k < i := h (i, w) (List.mem_cons_self ..)
    unfold cellsFind
    rw [if_neg (by omega)]
    exact ih fun c hc => h c (List.mem_cons_of_mem _ hc)

theorem cellsFind_insert_self (k : Nat) (v : α) (cs : List (Nat × α)) : cellsFind k (cellsInsert k v cs) = some v := by
  induction cs with
  | nil => simp [cellsInsert, cellsFind]
  | cons c cs ih =>
    obtain ⟨i, w⟩ := c
    unfold cellsInsert
    split
    · simp [cellsFind]
    · split
      · simp [cellsFind]
      · rename_i h1 h2
        unfold cellsFind
        rw [if_neg (Ne.symm h2)]
        exact ih

theorem cellsFind_insert_ne {j k : Nat} (v : α) (cs : List (Nat × α)) (h : j ≠ k) :
    cellsFind j (cellsInsert k v cs) = cellsFind j cs := by
  induction cs with
  | nil => simp [cellsInsert, cellsFind, Ne.symm h]
  | cons c cs ih =>
    obtain ⟨i, w⟩ := c
    unfold cellsInsert
    split
    · rw [cellsFind, if_neg (Ne.symm h)]
    · split
      · rename_i _ h2
        subst h2
        simp [cellsFind, Ne.symm h]
      · simp only [cellsFind, ih]

theorem cellsFind_erase_ne {j k : Nat} (cs : List (Nat × α)) (h : j ≠ k) : cellsFind j (cellsErase k cs) = cellsFind j cs := by
  induction cs with
  | nil => rfl
  | cons c cs ih =>
    obtain ⟨i, w⟩ := c
    unfold cellsErase
    split
    · rename_i h2
      subst h2
      simp [cellsFind, Ne.symm h, ih]
    · simp only [cellsFind, ih]

theorem cellsFind_erase_self (k : Nat) (cs : List (Nat × α)) : cellsFind k (cellsErase k cs) = none := by
  induction cs with
  | nil => rfl
  | cons c cs ih =>
    obtain ⟨i, w⟩ := c
    unfold cellsErase
    split
    · exact ih
    · rename_i h2
      simp only [cellsFind, if_neg h2, ih]

variable [DecidableEq α]

/-- A table reads back what was set. -/
theorem Table.get_set_self (t : Table α) (d : α) (k : Nat) (v : α) : (t.set d k v).get d k = v := by
  unfold Table.set Table.get
  split
  · rename_i hv
    simp [cellsFind_erase_self, hv]
  · simp [cellsFind_insert_self]

/-- Setting one index leaves the others. -/
theorem Table.get_set_ne (t : Table α) (d : α) {j k : Nat} (v : α) (h : j ≠ k) : (t.set d k v).get d j = t.get d j := by
  unfold Table.set Table.get
  split
  · simp [cellsFind_erase_ne _ h]
  · simp [cellsFind_insert_ne _ _ h]

/-- An index after an update of an index. -/
theorem Table.get_update (t : Table α) (d : α) (j k : Nat) (f : α → α) :
    (t.update d k f).get d j = if j = k then f (t.get d k) else t.get d j := by
  unfold Table.update
  split
  · rename_i h
    subst h
    exact Table.get_set_self ..
  · rename_i h
    exact Table.get_set_ne _ _ _ h

omit [DecidableEq α] in
/-- An index after the indices a test names have been dropped. -/
theorem Table.get_dropWhere (t : Table α) (d : α) (p : Nat → Bool) (k : Nat) :
    (t.dropWhere p).get d k = if p k then d else t.get d k := by
  obtain ⟨cs⟩ := t
  show (cellsFind k (cs.filter fun c => !p c.1)).getD d = if p k then d else (cellsFind k cs).getD d
  induction cs with
  | nil => simp [cellsFind]
  | cons c cs ih =>
    obtain ⟨i, w⟩ := c
    rw [List.filter_cons]
    by_cases hi : i = k
    · subst hi
      by_cases hp : p i
      · simpa [hp] using ih
      · simp [hp, cellsFind]
    · by_cases hp : p i
      · simp [hp, cellsFind, hi, ih]
      · simp [hp, cellsFind, hi, ih]

/-- An index after every listed value has been changed by a function that leaves the unlisted value. -/
theorem Table.get_mapListed (t : Table α) (d : α) (f : Nat → α → α) (k : Nat) (h : f k d = d) :
    (t.mapListed d f).get d k = f k (t.get d k) := by
  obtain ⟨cs⟩ := t
  show (cellsFind k (cellsMap d f cs)).getD d = f k ((cellsFind k cs).getD d)
  induction cs with
  | nil => simpa [cellsMap, cellsFind] using h.symm
  | cons c cs ih =>
    obtain ⟨i, w⟩ := c
    by_cases hi : i = k
    · subst hi
      by_cases hw : f i w = d
      · simp [cellsMap, cellsFind, hw, cellsFind_erase_self]
      · simp [cellsMap, cellsFind, hw]
    · by_cases hw : f i w = d
      · simp [cellsMap, cellsFind, hw, hi, cellsFind_erase_ne _ (Ne.symm hi), ih]
      · simp [cellsMap, cellsFind, hw, hi, ih]

/-! ### The canonical form -/

theorem Table.wf_iff {t : Table α} {d : α} : t.wf d = true ↔ cellsSorted t.cells = true ∧ ∀ c ∈ t.cells, c.2 ≠ d := by
  simp [Table.wf]

theorem Table.wf_empty (d : α) : Table.wf ({} : Table α) d = true := rfl

/-- Setting keeps the canonical form. -/
theorem Table.wf_set {t : Table α} {d : α} (k : Nat) (v : α) (h : t.wf d = true) : (t.set d k v).wf d = true := by
  rw [Table.wf_iff] at h ⊢
  unfold Table.set
  split
  · exact ⟨cellsSorted_erase h.1, fun c hc => h.2 c (mem_cellsErase hc)⟩
  · rename_i hv
    refine ⟨cellsSorted_insert h.1, fun c hc => ?_⟩
    rcases mem_cellsInsert hc with rfl | hc
    · exact hv
    · exact h.2 c hc

/-- Dropping indices keeps the canonical form. -/
theorem Table.wf_dropWhere {t : Table α} {d : α} (p : Nat → Bool) (h : t.wf d = true) : (t.dropWhere p).wf d = true := by
  rw [Table.wf_iff] at h ⊢
  exact ⟨cellsSorted_filter _ h.1, fun c hc => h.2 c (List.mem_filter.1 hc).1⟩

theorem Table.wf_clearRange {t : Table α} {d : α} (lo n : Nat) (h : t.wf d = true) : (t.clearRange lo n).wf d = true :=
  Table.wf_dropWhere _ h

/-! ### Memory -/

theorem wf_memSet {m : Memory} (a : Nat) (b : Byte) (h : Memory.wf m = true) : Memory.wf (memSet m a b) = true := Table.wf_set a b h

theorem wf_memWrite {m : Memory} (a : Nat) (bs : List Byte) (h : Memory.wf m = true) : Memory.wf (memWrite m a bs) = true := by
  induction bs generalizing m a with
  | nil => exact h
  | cons b bs ih => exact ih (a + 1) (wf_memSet a b h)

theorem wf_memZero {m : Memory} (a n : Nat) (h : Memory.wf m = true) : Memory.wf (memZero m a n) = true := Table.wf_clearRange a n h

/-- A byte read after it was written. -/
theorem memGet_memSet_self (m : Memory) (a : Nat) (b : Byte) : memGet (memSet m a b) a = b :=
  Table.get_set_self ..

/-- A write of one byte leaves every other byte. -/
theorem memGet_memSet_ne (m : Memory) {a c : Nat} (b : Byte) (h : c ≠ a) : memGet (memSet m a b) c = memGet m c :=
  Table.get_set_ne m _ b h

/-- A write leaves every byte outside it. -/
theorem memGet_memWrite_of_out (m : Memory) (a : Nat) (bs : List Byte) {c : Nat} (h : c < a ∨ a + bs.length ≤ c) :
    memGet (memWrite m a bs) c = memGet m c := by
  induction bs generalizing m a with
  | nil => rfl
  | cons b bs ih =>
    simp only [List.length_cons] at h
    rw [memWrite, ih _ _ (by omega), memGet_memSet_ne _ _ (by omega)]

/-- What was written is read back. -/
theorem memRead_memWrite (m : Memory) (a : Nat) (bs : List Byte) : memRead (memWrite m a bs) a bs.length = bs := by
  induction bs generalizing m a with
  | nil => rfl
  | cons b bs ih =>
    rw [memWrite, List.length_cons, memRead, ih, memGet_memWrite_of_out _ _ _ (by omega), memGet_memSet_self]

/-- A byte after a range has been zeroed. -/
theorem memGet_memZero (m : Memory) (a n c : Nat) : memGet (memZero m a n) c = if a ≤ c ∧ c < a + n then 0 else memGet m c := by
  unfold memGet memZero Table.clearRange
  rw [Table.get_dropWhere]
  simp [unlistedByte]

/-- Zeroing leaves every byte outside its range. -/
theorem memGet_memZero_of_out (m : Memory) (a n : Nat) {c : Nat} (h : c < a ∨ a + n ≤ c) : memGet (memZero m a n) c = memGet m c := by
  rw [memGet_memZero, if_neg (by omega)]

end Sys2Proof.Machine
end

