-- ==== Sys2Proof/Laws/Sound/Base.lean ====
section
/-!
SUPPORT. Laws/Sound/Base.lean: the shared steps of the proofs that a state stays sound (Sys2Proof.Sound).
-/

namespace Sys2Proof.Machine

/-- An answer whose next state, if any, is sound. -/
def SoundAnswer (p : Part) (o : Answer) : Prop :=
  match o with
  | .next t => Sound p t
  | .fault _ | .refused _ => True

theorem soundAnswer_next {p : Part} {t : State} (h : Sound p t) : SoundAnswer p (.next t) := h

theorem soundAnswer_fault {p : Part} {f : Fault} : SoundAnswer p (.fault f) := True.intro

/-- What an operation of Deck leaves, if it is not refused, is sound. -/
def SoundEffect (p : Part) (o : Except W16 (State × Nat × Nat)) : Prop :=
  match o with
  | .ok x => Sound p x.1
  | .error _ => True

theorem soundEffect_ok {p : Part} {x : State × Nat × Nat} (h : Sound p x.1) : SoundEffect p (.ok x) := h

theorem soundEffect_error {p : Part} {c : W16} : SoundEffect p (.error c) := True.intro

/-- The state of an operation that is known. -/
theorem sound_of_effect {p : Part} {o : Except W16 (State × Nat × Nat)} {t : State} {a b : Nat} (e : o = .ok (t, a, b))
    (h : SoundEffect p o) : Sound p t := by
  subst e
  exact h

/-- What Sound reads of a state. -/
def SoundParts (p : Part) (part : Part) (mem scratch : Memory) (err : ErrBlock) : Prop :=
  (Memory.wf mem = true ∧ Memory.wf scratch = true) ∧ (err.read ≤ err.written ∧ err.written ≤ err.read + 1024) ∧ part = p

/-- Sound of a state written out. -/
theorem sound_mk_eq (p part : Part) (pending : List Instr) (now freeCount : Nat) (boot : BootBlock) (life : Lifecycle)
    (cfg : Option Settings) (roles : Table RoleEntry) (groveResets : Table GroveReset) (mem scratch : Memory) (benches : Table Bench)
    (decks : Table DeckUnit) (rings : Table Ring) (tasks : List Task) (groups : Table SpecGroup) (stageTurns issueTurns tallyIssued : Table Nat)
    (tier : TierBlock) (tu : TuBlock) (stakes : StakeBlock) (opLines : List OpLine) (scatAdds : List (Nat × Nat × Nat))
    (outsideWrites : List (Nat × Nat × Nat × Nat)) (opRegs : Table OpcacheRegs)
    (hartContext : Table Nat) (kerf : KerfBlock) (fabric : FabricBlock) (power : PowerBlock) (landing : LandingBlock)
    (mgmt : MgmtBlock) (err : ErrBlock) (scaler : Scaler) :
    Sound p ⟨pending, now, freeCount, part, boot, life, cfg, roles, groveResets, mem, scratch, benches, decks, rings, tasks, groups,
      stageTurns, issueTurns, tallyIssued, tier, tu, stakes, opLines, scatAdds, outsideWrites, opRegs, hartContext, kerf, fabric, power, landing, mgmt, err, scaler⟩ =
    SoundParts p part mem scratch err := rfl

/-- A state that differs only in what Sound does not read. -/
theorem sound_parts {p : Part} {s : State} {err : ErrBlock} (h : Sound p s) (hw : err.written = s.err.written)
    (hr : err.read = s.err.read) : SoundParts p s.part s.mem s.scratch err := by
  obtain ⟨h1, h2, h3⟩ := h
  refine ⟨h1, ?_, h3⟩
  simp only [QueueBounded] at h2
  omega

theorem sound_mk {p : Part} {s : State} {pending : List Instr} {now freeCount : Nat} {boot : BootBlock} {life : Lifecycle}
    {cfg : Option Settings} {roles : Table RoleEntry} {groveResets : Table GroveReset} {benches : Table Bench}
    {decks : Table DeckUnit} {rings : Table Ring} {tasks : List Task} {groups : Table SpecGroup} {stageTurns issueTurns tallyIssued : Table Nat}
    {tier : TierBlock} {tu : TuBlock} {stakes : StakeBlock} {opLines : List OpLine} {scatAdds : List (Nat × Nat × Nat)}
    {outsideWrites : List (Nat × Nat × Nat × Nat)} {opRegs : Table OpcacheRegs}
    {hartContext : Table Nat} {kerf : KerfBlock} {fabric : FabricBlock} {power : PowerBlock} {landing : LandingBlock}
    {mgmt : MgmtBlock} {err : ErrBlock} {scaler : Scaler}
    (h : Sound p s) (hw : err.written = s.err.written) (hr : err.read = s.err.read) :
    Sound p ⟨pending, now, freeCount, s.part, boot, life, cfg, roles, groveResets, s.mem, s.scratch, benches, decks, rings, tasks, groups,
      stageTurns, issueTurns, tallyIssued, tier, tu, stakes, opLines, scatAdds, outsideWrites, opRegs, hartContext, kerf, fabric, power, landing, mgmt, err, scaler⟩ :=
  sound_parts (s := s) h hw hr

/-- The second of a pair that is known. -/
theorem sound_of_snd {p : Part} {α : Type} {x : α × State} {a : α} {t : State} (e : x = (a, t)) (h : Sound p x.2) : Sound p t := by
  subst e
  exact h

/-- The last of a triple that is known. -/
theorem sound_of_snd_snd {p : Part} {α β : Type} {x : α × β × State} {a : α} {b : β} {t : State} (e : x = (a, b, t))
    (h : Sound p x.2.2) : Sound p t := by
  subst e
  exact h

/-- A fold of sound steps that carries something beside the state. -/
theorem foldl_snd_sound {p : Part} {α β : Type} {f : β × State → α → β × State} {l : List α} {r : β × State}
    (hf : ∀ r x, Sound p r.2 → Sound p (f r x).2) (h : Sound p r.2) : Sound p (l.foldl f r).2 := by
  induction l generalizing r with
  | nil => exact h
  | cons x xs ih => exact ih (hf r x h)

/-- A fold of sound steps. -/
theorem foldl_sound {p : Part} {α : Type} {f : State → α → State} {l : List α} {s : State}
    (hf : ∀ s x, Sound p s → Sound p (f s x)) (h : Sound p s) : Sound p (l.foldl f s) := by
  induction l generalizing s with
  | nil => exact h
  | cons x xs ih => exact ih (hf s x h)

/-- A sound state with memory or scratch replaced by a canonical one. -/
theorem sound_mem {p : Part} {s : State} {m : Memory} (h : Sound p s) (hm : Memory.wf m = true) : Sound p { s with mem := m } :=
  ⟨⟨hm, h.1.2⟩, h.2.1, h.2.2⟩

theorem sound_scratch {p : Part} {s : State} {m : Memory} (h : Sound p s) (hm : Memory.wf m = true) : Sound p { s with scratch := m } :=
  ⟨⟨h.1.1, hm⟩, h.2.1, h.2.2⟩

end Sys2Proof.Machine
end

