-- ==== Sys2Proof/Laws/Sound/Ops.lean ====
section
/-!
SUPPORT. Laws/Sound/Ops.lean: what Machine/Ops.lean does keeps a state sound (Sys2Proof.Sound): memory canonical, the record
queue bounded, the part unchanged.
-/

namespace Sys2Proof.Machine

/-- A record is queued only where fewer than 1,024 wait. -/
theorem queueRecord_bounds (e : ErrRecord) {b : ErrBlock} (h1 : b.read ≤ b.written) (h2 : b.written ≤ b.read + 1024) :
    (queueRecord e b).read = b.read ∧ b.written ≤ (queueRecord e b).written ∧ (queueRecord e b).written ≤ b.read + 1024 := by
  unfold queueRecord
  split
  · exact ⟨rfl, Nat.le_refl _, h2⟩
  · rename_i hq
    have hq' : ¬ 1024 ≤ b.written - b.read := fun c => hq (decide_eq_true c)
    exact ⟨rfl, Nat.le_succ _, by show b.written + 1 ≤ b.read + 1024; omega⟩

/-- What pushing a record does to READ and WRITTEN. -/
theorem pushRecord_bounds (now : Nat) (e : ErrRecord) {b : ErrBlock} (h1 : b.read ≤ b.written) (h2 : b.written ≤ b.read + 1024) :
    (pushRecord now e b).read = b.read ∧ b.written ≤ (pushRecord now e b).written ∧ (pushRecord now e b).written ≤ b.read + 1024 := by
  unfold pushRecord
  split
  · unfold queueCorrected
    dsimp only
    repeat' split
    all_goals first | exact ⟨rfl, Nat.le_refl _, h2⟩ | exact queueRecord_bounds _ (b := { b with suppressed := _ }) h1 h2
  · exact queueRecord_bounds e h1 h2

theorem tick_sound {p : Part} : ∀ s, Sound p s → Sound p (tick s) := by
  intro s h0
  unfold tick
  repeat' with_reducible first
    | assumption | rfl | intro _ | refine sound_parts ?_ ?_ ?_ | dsimp only [sound_mk_eq]

theorem drawFree_sound {p : Part} : ∀ s, Sound p s → Sound p (drawFree s).2 := by
  intro s h0
  unfold drawFree
  repeat' with_reducible first
    | assumption | rfl | intro _ | refine sound_parts ?_ ?_ ?_ | dsimp only [sound_mk_eq]

theorem drawFreeBytes_sound {p : Part} : ∀ a0 s, Sound p s → Sound p (drawFreeBytes a0 s).2 := by
  intro a0 s h0
  unfold drawFreeBytes
  repeat' with_reducible first
    | assumption | rfl | intro _ | refine sound_parts ?_ ?_ ?_ | dsimp only [sound_mk_eq]

theorem updPort_sound {p : Part} : ∀ a0 a1 s, Sound p s → Sound p (updPort a0 a1 s) := by
  intro a0 a1 s h0
  unfold updPort
  repeat' with_reducible first
    | assumption | rfl | intro _ | refine sound_parts ?_ ?_ ?_ | dsimp only [sound_mk_eq]

theorem countFrames_sound {p : Part} : ∀ a0 a1 s, Sound p s → Sound p (countFrames a0 a1 s) := by
  intro a0 a1 s h0
  unfold countFrames
  repeat' with_reducible first
    | assumption | rfl | intro _ | apply updPort_sound

theorem sendMaint_sound {p : Part} : ∀ a0 s, Sound p s → Sound p (sendMaint a0 s) := by
  intro a0 s h0
  unfold sendMaint
  repeat' with_reducible first
    | assumption | rfl | intro _ | apply countFrames_sound | refine sound_parts ?_ ?_ ?_ | dsimp only [sound_mk_eq] | split

theorem reportAs_sound {p : Part} : ∀ cls e s, Sound p s → Sound p (reportAs cls e s) := by
  intro cls e s h
  unfold reportAs
  dsimp only
  split
  · exact h
  · apply sendMaint_sound
    obtain ⟨hm, ⟨h1, h2⟩, hp⟩ := h
    refine ⟨hm, ?_, hp⟩
    generalize he : ({ e with
      cls := cls, time := BitVec.ofNat 64 s.fabric.time, timeUnsync := timeUnsyncFlag s.fabric
      injected := e.injected || s.err.firing == some e.code } : ErrRecord) = e'
    obtain ⟨b1, b2, b3⟩ := pushRecord_bounds s.now e' h1 h2
    split
    · show (pushRecord s.now e' s.err).read ≤ _ ∧ (pushRecord s.now e' s.err).written ≤ (pushRecord s.now e' s.err).read + 1024
      exact ⟨by show _ ≤ (pushRecord s.now e' s.err).written; omega, by omega⟩
    · show (pushRecord s.now e' s.err).read ≤ _ ∧ (pushRecord s.now e' s.err).written ≤ (pushRecord s.now e' s.err).read + 1024
      exact ⟨by show _ ≤ (pushRecord s.now e' s.err).written; omega, by omega⟩

theorem report_sound {p : Part} : ∀ a0 s, Sound p s → Sound p (report a0 s) := by
  intro a0 s h0
  unfold report
  repeat' with_reducible first
    | assumption | rfl | intro _ | apply reportAs_sound

theorem reportModule_sound {p : Part} : ∀ a0 s a2 a3 a4 a5 a6, Sound p s → Sound p (reportModule a0 s a2 a3 a4 a5 a6) := by
  intro a0 s a2 a3 a4 a5 a6 h0
  unfold reportModule
  repeat' with_reducible first
    | assumption | rfl | intro _ | apply report_sound

end Sys2Proof.Machine
end

