-- ==== Sys2Proof/Laws/Sound/MgmtOps.lean ====
section
/-!
SUPPORT. Laws/Sound/MgmtOps.lean: what Machine/MgmtOps.lean does keeps a state sound (Sys2Proof.Sound): memory canonical, the record
queue bounded, the part unchanged.
-/

namespace Sys2Proof.Machine

theorem updHart_sound {p : Part} : ∀ a0 a1 s, Sound p s → Sound p (updHart a0 a1 s) := by
  intro a0 a1 s h0
  unfold updHart
  repeat' with_reducible first
    | assumption | rfl | intro _ | refine sound_parts ?_ ?_ ?_ | dsimp only [sound_mk_eq]

theorem updMgmt_sound {p : Part} : ∀ a0 s, Sound p s → Sound p (updMgmt a0 s) := by
  intro a0 s h0
  unfold updMgmt
  repeat' with_reducible first
    | assumption | rfl | intro _ | refine sound_parts ?_ ?_ ?_ | dsimp only [sound_mk_eq]

theorem mgmtSend_sound {p : Part} : ∀ a0 a1 s, Sound p s → Sound p (mgmtSend a0 a1 s) := by
  intro a0 a1 s h0
  unfold mgmtSend
  repeat' with_reducible first
    | assumption | rfl | intro _ | apply updMgmt_sound

theorem mgmtBusy_sound {p : Part} : ∀ a0 a1 s, Sound p s → Sound p (mgmtBusy a0 a1 s) := by
  intro a0 a1 s h0
  unfold mgmtBusy
  repeat' with_reducible first
    | assumption | rfl | intro _ | apply updMgmt_sound

theorem queueRequest_sound {p : Part} : ∀ a0 a1 s, Sound p s → Sound p (queueRequest a0 a1 s) := by
  intro a0 a1 s h0
  unfold queueRequest
  repeat' with_reducible first
    | assumption | rfl | intro _ | apply updMgmt_sound

theorem vendorGated_sound {p : Part} : ∀ a0 a1 a2 s,
    (∀ t, Sound p t → Sound p (a2 t)) → Sound p s → Sound p (vendorGated a0 a1 a2 s) := by
  intro a0 a1 a2 s h0 h1
  unfold vendorGated
  repeat' with_reducible first
    | assumption | rfl | intro _ | apply h0 | apply mgmtBusy_sound | apply mgmtSend_sound | apply queueRequest_sound
    | apply updMgmt_sound | refine sound_parts ?_ ?_ ?_ | refine sound_of_snd_snd (by assumption) ?_
    | refine sound_of_snd (by assumption) ?_ | dsimp only [sound_mk_eq] | split

theorem vendorAnswer_sound {p : Part} : ∀ a0 a1 a2 a3, Sound p a3.2 → Sound p (vendorAnswer a0 a1 a2 a3) := by
  intro a0 a1 a2 a3 h0
  unfold vendorAnswer
  repeat' with_reducible first
    | assumption | rfl | intro _ | apply mgmtSend_sound

theorem vendorLong_sound {p : Part} : ∀ a0 a1 a2 a3 a4, Sound p a4.2 → Sound p (vendorLong a0 a1 a2 a3 a4) := by
  intro a0 a1 a2 a3 a4 h0
  unfold vendorLong
  repeat' with_reducible first
    | assumption | rfl | intro _ | apply vendorAnswer_sound | apply updMgmt_sound | refine sound_parts ?_ ?_ ?_
    | dsimp only [sound_mk_eq] | split

theorem releaseWriter_sound {p : Part} : ∀ a0 s, Sound p s → Sound p (releaseWriter a0 s) := by
  intro a0 s h0
  unfold releaseWriter
  repeat' with_reducible first
    | assumption | rfl | intro _ | apply updHart_sound | apply vendorAnswer_sound | apply updMgmt_sound
    | refine sound_parts ?_ ?_ ?_ | refine sound_of_snd_snd (by assumption) ?_ | refine sound_of_snd (by assumption) ?_
    | dsimp only [sound_mk_eq] | split

end Sys2Proof.Machine
end

