-- ==== Sys2Proof/Laws/Sound/Store.lean ====
section
/-!
SUPPORT. Laws/Sound/Store.lean: what Machine/Store.lean does keeps a state sound (Sys2Proof.Sound): memory canonical, the record
queue bounded, the part unchanged.
-/

namespace Sys2Proof.Machine

theorem rawWrite_sound {p : Part} : ∀ pa bs s, Sound p s → Sound p (rawWrite pa bs s) :=
  fun pa bs _ h => ⟨⟨wf_memWrite pa bs h.1.1, h.1.2⟩, h.2.1, h.2.2⟩

theorem zeroRange_sound {p : Part} : ∀ pa n s, Sound p s → Sound p (zeroRange pa n s) :=
  fun pa n _ h => ⟨⟨wf_memZero pa n h.1.1, h.1.2⟩, h.2.1, h.2.2⟩

theorem dropOpLines_sound {p : Part} : ∀ a0 a1 s, Sound p s → Sound p (dropOpLines a0 a1 s) := by
  intro a0 a1 s h0
  unfold dropOpLines
  repeat' with_reducible first
    | assumption | rfl | intro _ | refine sound_parts ?_ ?_ ?_ | dsimp only [sound_mk_eq]

end Sys2Proof.Machine
end

