-- ==== Sys2Proof/Laws/Sound/Stakes.lean ====
section
/-!
SUPPORT. Laws/Sound/Stakes.lean: what Machine/Stakes.lean does keeps a state sound (Sys2Proof.Sound): memory canonical, the record
queue bounded, the part unchanged.
-/

namespace Sys2Proof.Machine

theorem homeStore_sound {p : Part} : ∀ key pa bs s, Sound p s → Sound p (homeStore key pa bs s) := by
  intro key pa bs s h
  unfold homeStore
  split
  · exact sound_mem (rawWrite_sound _ _ _ h) (wf_memWrite _ _ h.1.1)
  · exact rawWrite_sound _ _ _ h

theorem plainWrite_sound {p : Part} : ∀ a0 a1 s, Sound p s → Sound p (plainWrite a0 a1 s) := by
  intro a0 a1 s h0
  unfold plainWrite
  repeat' with_reducible first
    | assumption | rfl | intro _ | apply homeStore_sound | apply foldl_sound

theorem spoilBytes_sound {p : Part} : ∀ a0 a1 a2 a3 s, Sound p s → Sound p (spoilBytes a0 a1 a2 a3 s).2 := by
  intro a0 a1 a2 a3 s h0
  fun_induction spoilBytes a0 a1 a2 a3 s
  all_goals repeat' with_reducible first
    | assumption | rfl | intro _ | apply drawFree_sound | refine sound_parts ?_ ?_ ?_ | apply_assumption -exfalso -symm

theorem outsideWrite_sound {p : Part} : ∀ a0 a1 a2 s, Sound p s → Sound p (outsideWrite a0 a1 a2 s).2 := by
  intro a0 a1 a2 s h0
  unfold outsideWrite
  repeat' with_reducible first
    | assumption | rfl | intro _ | apply spoilBytes_sound | refine sound_parts ?_ ?_ ?_
    | refine sound_of_snd_snd (by assumption) ?_ | refine sound_of_snd (by assumption) ?_ | dsimp only [sound_mk_eq] | split

theorem signalBy_sound {p : Part} : ∀ a0 a1 a2 s, Sound p s → Sound p (signalBy a0 a1 a2 s) := by
  intro a0 a1 a2 s h0
  unfold signalBy
  repeat' with_reducible first
    | assumption | rfl | intro _ | apply outsideWrite_sound | apply plainWrite_sound | refine sound_parts ?_ ?_ ?_
    | refine sound_of_snd_snd (by assumption) ?_ | refine sound_of_snd (by assumption) ?_ | dsimp only [sound_mk_eq] | split

theorem signalAdd_sound {p : Part} : ∀ a0 a1 a2 s, Sound p s → Sound p (signalAdd a0 a1 a2 s) := by
  intro a0 a1 a2 s h0
  unfold signalAdd
  repeat' with_reducible first
    | assumption | rfl | intro _ | apply signalBy_sound

theorem signalAbort_sound {p : Part} : ∀ a0 a1 s, Sound p s → Sound p (signalAbort a0 a1 s) := by
  intro a0 a1 s h0
  unfold signalAbort
  repeat' with_reducible first
    | assumption | rfl | intro _ | apply signalBy_sound

end Sys2Proof.Machine
end

