-- ==== Sys2Proof/Laws/Sound/Sched.lean ====
section
/-!
SUPPORT. Laws/Sound/Sched.lean: what Machine/Sched.lean does keeps a state sound (Sys2Proof.Sound): memory canonical, the record
queue bounded, the part unchanged.
-/

namespace Sys2Proof.Machine

theorem updRing_sound {p : Part} : ∀ a0 a1 s, Sound p s → Sound p (updRing a0 a1 s) := by
  intro a0 a1 s h0
  unfold updRing
  repeat' with_reducible first
    | assumption | rfl | intro _ | refine sound_parts ?_ ?_ ?_ | dsimp only [sound_mk_eq]

theorem updTask_sound {p : Part} : ∀ a0 a1 a2 s, Sound p s → Sound p (updTask a0 a1 a2 s) := by
  intro a0 a1 a2 s h0
  unfold updTask
  repeat' with_reducible first
    | assumption | rfl | intro _ | refine sound_parts ?_ ?_ ?_ | dsimp only [sound_mk_eq]

theorem dropTask_sound {p : Part} : ∀ a0 a1 s, Sound p s → Sound p (dropTask a0 a1 s) := by
  intro a0 a1 s h0
  unfold dropTask
  repeat' with_reducible first
    | assumption | rfl | intro _ | refine sound_parts ?_ ?_ ?_ | dsimp only [sound_mk_eq]

theorem updBenchState_sound {p : Part} : ∀ a0 a1 s, Sound p s → Sound p (updBenchState a0 a1 s) := by
  intro a0 a1 s h0
  unfold updBenchState
  repeat' with_reducible first
    | assumption | rfl | intro _ | refine sound_parts ?_ ?_ ?_ | dsimp only [sound_mk_eq]

theorem updGroup_sound {p : Part} : ∀ a0 a1 s, Sound p s → Sound p (updGroup a0 a1 s) := by
  intro a0 a1 s h0
  unfold updGroup
  repeat' with_reducible first
    | assumption | rfl | intro _ | refine sound_parts ?_ ?_ ?_ | dsimp only [sound_mk_eq]

theorem choosePreload_sound {p : Part} : ∀ a0 s, Sound p s → Sound p (choosePreload a0 s) := by
  intro a0 s h0
  unfold choosePreload
  repeat' with_reducible first
    | assumption | rfl | intro _ | apply updBenchState_sound | refine sound_parts ?_ ?_ ?_ | dsimp only [sound_mk_eq] | split

theorem noteClocks_sound {p : Part} : ∀ s, Sound p s → Sound p (noteClocks s) := by
  intro s h0
  unfold noteClocks
  repeat' with_reducible first
    | assumption | rfl | intro _ | refine sound_parts ?_ ?_ ?_ | dsimp only [sound_mk_eq]

theorem takeVector_sound {p : Part} : ∀ a0 s, Sound p s → Sound p (takeVector a0 s) := by
  intro a0 s h0
  unfold takeVector
  repeat' with_reducible first
    | assumption | rfl | intro _ | apply updBenchState_sound | refine sound_parts ?_ ?_ ?_
    | refine sound_of_snd_snd (by assumption) ?_ | refine sound_of_snd (by assumption) ?_ | dsimp only [sound_mk_eq] | split

end Sys2Proof.Machine
end

