-- ==== Sys2Proof/Laws/Sound/Tally.lean ====
section
/-!
SUPPORT. Laws/Sound/Tally.lean: what Machine/Tally.lean does keeps a state sound (Sys2Proof.Sound): memory canonical, the record
queue bounded, the part unchanged.
-/

namespace Sys2Proof.Machine

/-- A fold of operations that keep memory canonical. -/
theorem wf_foldl {α : Type} {f : Memory → α → Memory} (hf : ∀ m x, Memory.wf m = true → Memory.wf (f m x) = true) (l : List α)
    {m : Memory} (h : Memory.wf m = true) : Memory.wf (l.foldl f m) = true := by
  induction l generalizing m with
  | nil => exact h
  | cons x xs ih => exact ih (hf m x h)

theorem settleGrant_sound {p : Part} : ∀ a0 s, Sound p s → Sound p (settleGrant a0 s) := by
  intro a0 s h0
  unfold settleGrant
  repeat' with_reducible first
    | assumption | rfl | intro _ | refine sound_parts ?_ ?_ ?_ | refine sound_of_snd_snd (by assumption) ?_
    | refine sound_of_snd (by assumption) ?_ | dsimp only [sound_mk_eq] | split

theorem settleBenchOf_sound {p : Part} : ∀ a0 s, Sound p s → Sound p (settleBenchOf a0 s) := by
  intro a0 s h0
  unfold settleBenchOf
  repeat' with_reducible first
    | assumption | rfl | intro _ | apply settleGrant_sound | apply takeVector_sound | refine sound_parts ?_ ?_ ?_
    | refine sound_of_snd_snd (by assumption) ?_ | refine sound_of_snd (by assumption) ?_ | dsimp only [sound_mk_eq] | split

theorem retireTask_sound {p : Part} : ∀ a0 a1 s, Sound p s → Sound p (retireTask a0 a1 s) := by
  intro a0 a1 s h0
  unfold retireTask
  repeat' with_reducible first
    | assumption | rfl | intro _ | apply updRing_sound | apply dropTask_sound

theorem dropHolds_sound {p : Part} : ∀ g s, Sound p s → Sound p (dropHolds g s) := by
  intro g s h
  unfold dropHolds
  exact updGroup_sound _ _ _ (sound_scratch h (wf_foldl (fun m n hm => wf_memZero _ _ hm) _ h.1.2))

theorem closeGroup_sound {p : Part} : ∀ a0 s, Sound p s → Sound p (closeGroup a0 s) := by
  intro a0 s h0
  unfold closeGroup
  repeat' with_reducible first
    | assumption | rfl | intro _ | apply updGroup_sound | refine sound_parts ?_ ?_ ?_ | dsimp only [sound_mk_eq]

theorem freeGroup_sound {p : Part} : ∀ a0 s, Sound p s → Sound p (freeGroup a0 s) := by
  intro a0 s h0
  unfold freeGroup
  repeat' with_reducible first
    | assumption | rfl | intro _ | apply closeGroup_sound | apply dropHolds_sound | refine sound_parts ?_ ?_ ?_
    | refine sound_of_snd_snd (by assumption) ?_ | refine sound_of_snd (by assumption) ?_ | dsimp only [sound_mk_eq] | split

theorem performSignal_sound {p : Part} : ∀ a0 s, Sound p s → Sound p (performSignal a0 s) := by
  intro a0 s h0
  unfold performSignal
  repeat' with_reducible first
    | assumption | rfl | intro _ | apply signalAbort_sound | apply signalAdd_sound | refine sound_parts ?_ ?_ ?_
    | refine sound_of_snd_snd (by assumption) ?_ | refine sound_of_snd (by assumption) ?_ | dsimp only [sound_mk_eq] | split

theorem abortSignal_sound {p : Part} : ∀ a0 s, Sound p s → Sound p (abortSignal a0 s) := by
  intro a0 s h0
  unfold abortSignal
  repeat' with_reducible first
    | assumption | rfl | intro _ | apply signalAbort_sound | refine sound_parts ?_ ?_ ?_
    | refine sound_of_snd_snd (by assumption) ?_ | refine sound_of_snd (by assumption) ?_ | dsimp only [sound_mk_eq] | split

theorem dropTentative_sound {p : Part} : ∀ a0 a1 s, Sound p s → Sound p (dropTentative a0 a1 s) := by
  intro a0 a1 s h0
  unfold dropTentative
  repeat' with_reducible first
    | assumption | rfl | intro _ | refine sound_parts ?_ ?_ ?_ | dsimp only [sound_mk_eq]

theorem forgetWaits_sound {p : Part} : ∀ a0 a1 s, Sound p s → Sound p (forgetWaits a0 a1 s) := by
  intro a0 a1 s h0
  unfold forgetWaits
  repeat' with_reducible first
    | assumption | rfl | intro _ | apply dropTentative_sound | refine sound_parts ?_ ?_ ?_ | dsimp only [sound_mk_eq]

theorem retireSquashed_sound {p : Part} : ∀ a0 s, Sound p s → Sound p (retireSquashed a0 s) := by
  intro a0 s h0
  unfold retireSquashed
  repeat' with_reducible first
    | assumption | rfl | intro _ | apply updBenchState_sound | apply settleBenchOf_sound | apply retireTask_sound
    | apply abortSignal_sound | apply forgetWaits_sound | refine sound_parts ?_ ?_ ?_
    | refine sound_of_snd_snd (by assumption) ?_ | refine sound_of_snd (by assumption) ?_ | dsimp only [sound_mk_eq] | split

theorem squashMember_sound {p : Part} : ∀ s a1, Sound p s → Sound p (squashMember s a1) := by
  intro s a1 h0
  unfold squashMember
  repeat' with_reducible first
    | assumption | rfl | intro _ | apply retireSquashed_sound | apply updBenchState_sound | apply updTask_sound
    | refine sound_parts ?_ ?_ ?_ | refine sound_of_snd_snd (by assumption) ?_ | refine sound_of_snd (by assumption) ?_
    | dsimp only [sound_mk_eq] | split

theorem squashGroup_sound {p : Part} : ∀ g outcome s, Sound p s → Sound p (squashGroup g outcome s) := by
  intro g outcome s h
  unfold squashGroup
  dsimp only
  split
  · exact h
  · apply freeGroup_sound
    exact foldl_sound (fun _ _ h => squashMember_sound _ _ h)
      (foldl_sound (fun _ _ h => abortSignal_sound _ _ h) (updGroup_sound _ _ _ h))

theorem failTask_sound {p : Part} : ∀ a0 a1 s a3 a4 a5 a6 a7 a8, Sound p s → Sound p (failTask a0 a1 s a3 a4 a5 a6 a7 a8) := by
  intro a0 a1 s a3 a4 a5 a6 a7 a8 h0
  unfold failTask
  repeat' with_reducible first
    | assumption | rfl | intro _ | apply updBenchState_sound | apply updTask_sound | apply forgetWaits_sound
    | apply noteClocks_sound | apply updRing_sound | apply abortSignal_sound | apply report_sound | apply settleBenchOf_sound
    | apply squashGroup_sound | refine sound_parts ?_ ?_ ?_ | refine sound_of_snd_snd (by assumption) ?_
    | refine sound_of_snd (by assumption) ?_ | dsimp only [sound_mk_eq] | split

theorem failBy_sound {p : Part} : ∀ a0 a1 a2 s a4 a5 a6 a7, Sound p s → Sound p (failBy a0 a1 a2 s a4 a5 a6 a7) := by
  intro a0 a1 a2 s a4 a5 a6 a7 h0
  unfold failBy
  repeat' with_reducible first
    | assumption | rfl | intro _ | apply failTask_sound | refine sound_parts ?_ ?_ ?_
    | refine sound_of_snd_snd (by assumption) ?_ | refine sound_of_snd (by assumption) ?_ | dsimp only [sound_mk_eq] | split

theorem failRing_sound {p : Part} : ∀ a0 a1 s, Sound p s → Sound p (failRing a0 a1 s) := by
  intro a0 a1 s h0
  unfold failRing
  repeat' with_reducible first
    | assumption | rfl | intro _ | apply report_sound | apply updRing_sound | apply noteClocks_sound

theorem failAs_sound {p : Part} : ∀ a0 a1 s, Sound p s → Sound p (failAs a0 a1 s) := by
  intro a0 a1 s h0
  unfold failAs
  repeat' with_reducible first
    | assumption | rfl | intro _ | apply failTask_sound

theorem endAtTile_sound {p : Part} : ∀ a0 a1 a2 s, Sound p s → Sound p (endAtTile a0 a1 a2 s) := by
  intro a0 a1 a2 s h0
  unfold endAtTile
  repeat' with_reducible first
    | assumption | rfl | intro _ | apply updBenchState_sound | apply updTask_sound | apply failAs_sound
    | refine sound_parts ?_ ?_ ?_ | refine sound_of_snd_snd (by assumption) ?_ | refine sound_of_snd (by assumption) ?_
    | dsimp only [sound_mk_eq] | split

theorem endEarly_sound {p : Part} : ∀ a0 a1 s a3 a4, Sound p s → Sound p (endEarly a0 a1 s a3 a4) := by
  intro a0 a1 s a3 a4 h0
  unfold endEarly
  repeat' with_reducible first
    | assumption | rfl | intro _ | apply endAtTile_sound

theorem endWaiting_sound {p : Part} : ∀ a0 a1 a2 s, Sound p s → Sound p (endWaiting a0 a1 a2 s) := by
  intro a0 a1 a2 s h0
  unfold endWaiting
  repeat' with_reducible first
    | assumption | rfl | intro _ | apply updTask_sound | apply endEarly_sound | refine sound_parts ?_ ?_ ?_
    | dsimp only [sound_mk_eq] | split

theorem finishTask_sound {p : Part} : ∀ a0 s, Sound p s → Sound p (finishTask a0 s) := by
  intro a0 s h0
  unfold finishTask
  repeat' with_reducible first
    | assumption | rfl | intro _ | apply failTask_sound | apply settleBenchOf_sound | apply retireTask_sound
    | apply performSignal_sound | refine sound_parts ?_ ?_ ?_ | refine sound_of_snd_snd (by assumption) ?_
    | refine sound_of_snd (by assumption) ?_ | dsimp only [sound_mk_eq] | split

theorem completeTask_sound {p : Part} : ∀ a0 s, Sound p s → Sound p (completeTask a0 s) := by
  intro a0 s h0
  unfold completeTask
  repeat' with_reducible first
    | assumption | rfl | intro _ | apply settleBenchOf_sound | apply updTask_sound | apply finishTask_sound
    | apply freeGroup_sound | refine sound_parts ?_ ?_ ?_ | dsimp only [sound_mk_eq] | split

theorem deferredSignal_sound {p : Part} : ∀ s a1, Sound p s → Sound p (deferredSignal s a1) := by
  intro s a1 h0
  unfold deferredSignal
  repeat' with_reducible first
    | assumption | rfl | intro _ | apply report_sound | apply performSignal_sound | refine sound_parts ?_ ?_ ?_
    | refine sound_of_snd_snd (by assumption) ?_ | refine sound_of_snd (by assumption) ?_ | dsimp only [sound_mk_eq] | split

theorem confirmGroup_sound {p : Part} : ∀ a0 s, Sound p s → Sound p (confirmGroup a0 s) := by
  intro a0 s h0
  unfold confirmGroup
  repeat' with_reducible first
    | assumption | rfl | intro _ | apply updGroup_sound | apply freeGroup_sound | apply finishTask_sound
    | apply deferredSignal_sound | apply foldl_sound | apply foldl_snd_sound | refine sound_parts ?_ ?_ ?_
    | dsimp only [sound_mk_eq] | split

theorem discardLeaving_sound {p : Part} : ∀ a0 s, Sound p s → Sound p (discardLeaving a0 s) := by
  intro a0 s h0
  unfold discardLeaving
  repeat' with_reducible first
    | assumption | rfl | intro _ | refine sound_parts ?_ ?_ ?_ | refine sound_of_snd_snd (by assumption) ?_
    | refine sound_of_snd (by assumption) ?_ | dsimp only [sound_mk_eq]

theorem resetEndsTask_sound {p : Part} : ∀ a0 a1 s, Sound p s → Sound p (resetEndsTask a0 a1 s) := by
  intro a0 a1 s h0
  unfold resetEndsTask
  repeat' with_reducible first
    | assumption | rfl | intro _ | apply updGroup_sound | apply failTask_sound | apply updTask_sound | apply freeGroup_sound
    | refine sound_parts ?_ ?_ ?_ | dsimp only [sound_mk_eq] | split

end Sys2Proof.Machine
end

