-- ==== Sys2Proof/Laws/Sound/Resets.lean ====
section
/-!
SUPPORT. Laws/Sound/Resets.lean: what Machine/Resets.lean does keeps a state sound (Sys2Proof.Sound): memory canonical, the record
queue bounded, the part unchanged.
-/

namespace Sys2Proof.Machine

theorem resetSteps_sound {p : Part} : ∀ stand cause s, Sound p s → Sound p (resetSteps stand cause s) := by
  intro stand cause s h
  refine ⟨⟨Table.wf_dropWhere _ h.1.1, Table.wf_empty _⟩, ⟨Nat.le_refl _, ?_⟩, h.2.2⟩
  show (0 : Nat) ≤ 0 + 1024
  omega

theorem keepIdentity_sound {p : Part} : ∀ a0 s, Sound p s → Sound p (keepIdentity a0 s) := by
  intro a0 s h0
  unfold keepIdentity
  repeat' with_reducible first
    | assumption | rfl | intro _ | refine sound_parts ?_ ?_ ?_ | dsimp only [sound_mk_eq]

theorem beginWarmReset_sound {p : Part} : ∀ a0 s, Sound p s → Sound p (beginWarmReset a0 s) := by
  intro a0 s h0
  unfold beginWarmReset
  repeat' with_reducible first
    | assumption | rfl | intro _ | apply resetSteps_sound

theorem updRole_sound {p : Part} : ∀ a0 a1 s, Sound p s → Sound p (updRole a0 a1 s) := by
  intro a0 a1 s h0
  unfold updRole
  repeat' with_reducible first
    | assumption | rfl | intro _ | refine sound_parts ?_ ?_ ?_ | dsimp only [sound_mk_eq]

theorem dueAdvance_sound {p : Part} : ∀ a0 s, Sound p s → Sound p (dueAdvance a0 s) := by
  intro a0 s h0
  unfold dueAdvance
  repeat' with_reducible first
    | assumption | rfl | intro _ | apply updRole_sound

theorem handRole_sound {p : Part} : ∀ a0 a1 a2 s, Sound p s → Sound p (handRole a0 a1 a2 s) := by
  intro a0 a1 a2 s h0
  unfold handRole
  repeat' with_reducible first
    | assumption | rfl | intro _ | apply dueAdvance_sound | apply updRole_sound | refine sound_parts ?_ ?_ ?_
    | refine sound_of_snd_snd (by assumption) ?_ | refine sound_of_snd (by assumption) ?_ | dsimp only [sound_mk_eq] | split

theorem quarantineCore_sound {p : Part} : ∀ n s, Sound p s → Sound p (quarantineCore n s) := by
  intro n s h
  unfold quarantineCore
  dsimp only
  apply updBenchState_sound
  generalize hs : handRole n _ _ _ = s3
  have h3 : Sound p s3 := hs ▸ handRole_sound _ _ _ _
    (foldl_sound (fun _ _ h => resetEndsTask_sound _ _ _ h) (discardLeaving_sound _ _ h))
  exact ⟨⟨h3.1.1, Table.wf_dropWhere _ h3.1.2⟩, h3.2.1, h3.2.2⟩

theorem recordQuarantine_sound {p : Part} : ∀ a0 a1 a2 s, Sound p s → Sound p (recordQuarantine a0 a1 a2 s) := by
  intro a0 a1 a2 s h0
  unfold recordQuarantine
  repeat' with_reducible first
    | assumption | rfl | intro _ | apply report_sound

theorem quarantineEach_sound {p : Part} {t : State} : ∀ ns s, Sound p s → quarantineEach ns s = some t → Sound p t := by
  intro ns
  induction ns with
  | nil =>
    intro s h e
    cases e
    exact h
  | cons n ns ih =>
    intro s h e
    simp only [quarantineEach] at e
    split at e
    · cases e
    · exact ih _ (quarantineCore_sound _ _ h) e

theorem quarantineNow_sound {p : Part} : ∀ g ns cause s, Sound p s → Sound p (quarantineNow g ns cause s) := by
  intro g ns cause s h
  unfold quarantineNow
  dsimp only
  split
  · exact h
  · split
    · exact beginWarmReset_sound _ _ h
    · exact recordQuarantine_sound _ _ _ _ (quarantineEach_sound _ _ h (by assumption))

theorem quarantineAll_sound {p : Part} : ∀ a0 a1 a2 s, Sound p s → Sound p (quarantineAll a0 a1 a2 s) := by
  intro a0 a1 a2 s h0
  unfold quarantineAll
  repeat' with_reducible first
    | assumption | rfl | intro _ | apply quarantineNow_sound | refine sound_parts ?_ ?_ ?_ | dsimp only [sound_mk_eq] | split

theorem quarantine_sound {p : Part} : ∀ a0 a1 s, Sound p s → Sound p (quarantine a0 a1 s) := by
  intro a0 a1 s h0
  unfold quarantine
  repeat' with_reducible first
    | assumption | rfl | intro _ | apply quarantineAll_sound

theorem applyHeld_sound {p : Part} : ∀ g held s, Sound p s → Sound p (applyHeld g held s) := by
  intro g held s h
  unfold applyHeld
  dsimp only
  split
  · exact beginWarmReset_sound _ _ h
  · refine foldl_sound (fun u x hu => ?_) (quarantineEach_sound _ _ h (by assumption))
    split
    · exact hu
    · exact recordQuarantine_sound _ _ _ _ hu

theorem groveResetStart_sound {p : Part} : ∀ g s, Sound p s → Sound p (groveResetStart g s) := by
  intro g s h
  unfold groveResetStart
  dsimp only
  refine foldl_sound (fun u x hu => releaseWriter_sound _ _ hu) ?_
  have h1 : Sound p ((groveTasks s g).foldl (fun s t => resetEndsTask t 0x120E s) (discardLeaving (fun t => t.grove == g) (noteClocks s))) :=
    foldl_sound (fun _ _ h => resetEndsTask_sound _ _ _ h) (discardLeaving_sound _ _ (noteClocks_sound _ h))
  exact ⟨⟨h1.1.1, Table.wf_dropWhere _ h1.1.2⟩, h1.2.1, h1.2.2⟩

theorem requestGroveReset_sound {p : Part} : ∀ a0 s, Sound p s → Sound p (requestGroveReset a0 s) := by
  intro a0 s h0
  unfold requestGroveReset
  repeat' with_reducible first
    | assumption | rfl | intro _ | apply beginWarmReset_sound | apply groveResetStart_sound | refine sound_parts ?_ ?_ ?_
    | dsimp only [sound_mk_eq] | split

theorem fenceRings_sound {p : Part} : ∀ a0 s, Sound p s → Sound p (fenceRings a0 s) := by
  intro a0 s h0
  unfold fenceRings
  repeat' with_reducible first
    | assumption | rfl | intro _ | apply failRing_sound | apply foldl_sound | apply foldl_snd_sound
    | refine sound_parts ?_ ?_ ?_ | dsimp only [sound_mk_eq] | split

theorem fenceGrove_sound {p : Part} : ∀ a0 a1 s, Sound p s → Sound p (fenceGrove a0 a1 s) := by
  intro a0 a1 s h0
  unfold fenceGrove
  repeat' with_reducible first
    | assumption | rfl | intro _ | apply fenceRings_sound | apply quarantineAll_sound | refine sound_parts ?_ ?_ ?_
    | dsimp only [sound_mk_eq]

theorem stopIssued_sound {p : Part} : ∀ s a1, Sound p s → Sound p (stopIssued s a1) := by
  intro s a1 h0
  unfold stopIssued
  repeat' with_reducible first
    | assumption | rfl | intro _ | apply failBy_sound | apply updTask_sound | apply updBenchState_sound
    | refine sound_parts ?_ ?_ ?_ | refine sound_of_snd_snd (by assumption) ?_ | refine sound_of_snd (by assumption) ?_
    | dsimp only [sound_mk_eq] | split

theorem stopModule_sound {p : Part} : ∀ s, Sound p s → Sound p (stopModule s) := by
  intro s h0
  unfold stopModule
  repeat' with_reducible first
    | assumption | rfl | intro _ | apply stopIssued_sound | apply foldl_sound | apply foldl_snd_sound
    | refine sound_parts ?_ ?_ ?_ | dsimp only [sound_mk_eq]

theorem scopeAction_sound {p : Part} : ∀ a0 a1 s, Sound p s → Sound p (scopeAction a0 a1 s) := by
  intro a0 a1 s h0
  unfold scopeAction
  repeat' with_reducible first
    | assumption | rfl | intro _ | apply fenceGrove_sound | apply stopModule_sound | refine sound_parts ?_ ?_ ?_
    | refine sound_of_snd_snd (by assumption) ?_ | refine sound_of_snd (by assumption) ?_ | dsimp only [sound_mk_eq] | split

theorem raiseFatal_sound {p : Part} : ∀ a0 a1 s, Sound p s → Sound p (raiseFatal a0 a1 s) := by
  intro a0 a1 s h0
  unfold raiseFatal
  repeat' with_reducible first
    | assumption | rfl | intro _ | apply reportAs_sound | apply beginWarmReset_sound | apply scopeAction_sound
    | refine sound_parts ?_ ?_ ?_ | dsimp only [sound_mk_eq] | split

theorem landingFault_sound {p : Part} : ∀ a0 s, Sound p s → Sound p (landingFault a0 s) := by
  intro a0 s h0
  unfold landingFault
  repeat' with_reducible first
    | assumption | rfl | intro _ | apply raiseFatal_sound

theorem countBenchError_sound {p : Part} : ∀ a0 a1 a2 s, Sound p s → Sound p (countBenchError a0 a1 a2 s) := by
  intro a0 a1 a2 s h0
  unfold countBenchError
  repeat' with_reducible first
    | assumption | rfl | intro _ | apply quarantine_sound | refine sound_parts ?_ ?_ ?_ | dsimp only [sound_mk_eq] | split

end Sys2Proof.Machine
end

