-- ==== Sys2Proof/Laws/Sound/Inject.lean ====
section
/-!
SUPPORT. Laws/Sound/Inject.lean: what Machine/Inject.lean does keeps a state sound (Sys2Proof.Sound): memory canonical, the record
queue bounded, the part unchanged.
-/

namespace Sys2Proof.Machine

theorem fireInjection_sound {p : Part} : ∀ a0 a1 s, Sound p s → Sound p (fireInjection a0 a1 s).2 := by
  intro a0 a1 s h0
  unfold fireInjection
  repeat' with_reducible first
    | assumption | rfl | intro _ | refine sound_parts ?_ ?_ ?_ | dsimp only [sound_mk_eq] | split

theorem tallyStateError_sound {p : Part} : ∀ a0 a1 s, Sound p s → Sound p (tallyStateError a0 a1 s) := by
  intro a0 a1 s h0
  unfold tallyStateError
  repeat' with_reducible first
    | assumption | rfl | intro _ | apply report_sound | apply raiseFatal_sound | apply requestGroveReset_sound
    | refine sound_parts ?_ ?_ ?_ | dsimp only [sound_mk_eq] | split

end Sys2Proof.Machine
end

