-- ==== Sys2Proof/Laws/Sound/Access.lean ====
section
/-!
SUPPORT. Laws/Sound/Access.lean: what Machine/Access.lean does keeps a state sound (Sys2Proof.Sound): memory canonical, the record
queue bounded, the part unchanged.
-/

namespace Sys2Proof.Machine

theorem Reply.andThen_sound {p : Part} {α β : Type} : ∀ (a0 : Sys2Proof.Machine.Reply α × Sys2Proof.Machine.State) (a1 : α → Sys2Proof.Machine.State → Sys2Proof.Machine.Reply β × Sys2Proof.Machine.State),
    Sound p a0.2 → (∀ x0 t, Sound p t → Sound p (a1 x0 t).2) → Sound p (Reply.andThen a0 a1).2 := by
  intro a0 a1 h0 h1
  unfold Reply.andThen
  repeat' with_reducible first
    | assumption | rfl | intro _ | apply h1 | refine sound_parts ?_ ?_ ?_ | refine sound_of_snd_snd (by assumption) ?_
    | refine sound_of_snd (by assumption) ?_ | dsimp only [sound_mk_eq] | split

theorem correctedAt_sound {p : Part} : ∀ a0 a1 s, Sound p s → Sound p (correctedAt a0 a1 s) := by
  intro a0 a1 s h0
  unfold correctedAt
  repeat' with_reducible first
    | assumption | rfl | intro _ | apply report_sound | refine sound_parts ?_ ?_ ?_ | dsimp only [sound_mk_eq]

theorem poisonAt_sound {p : Part} : ∀ a0 s, Sound p s → Sound p (poisonAt a0 s) := by
  intro a0 s h0
  unfold poisonAt
  repeat' with_reducible first
    | assumption | rfl | intro _ | apply report_sound | refine sound_parts ?_ ?_ ?_ | refine sound_of_snd_snd (by assumption) ?_
    | refine sound_of_snd (by assumption) ?_ | dsimp only [sound_mk_eq] | split

theorem fired_sound {p : Part} : ∀ a0 s, Sound p s → Sound p (fired a0 s) := by
  intro a0 s h0
  unfold fired
  repeat' with_reducible first
    | assumption | rfl | intro _ | refine sound_parts ?_ ?_ ?_ | dsimp only [sound_mk_eq]

theorem injectRead_sound {p : Part} : ∀ a0 a1 a2 s, Sound p s → Sound p (injectRead a0 a1 a2 s).2 := by
  intro a0 a1 a2 s h0
  unfold injectRead
  repeat' with_reducible first
    | assumption | rfl | intro _ | apply fireInjection_sound | apply correctedAt_sound | apply fired_sound
    | apply poisonAt_sound | refine sound_parts ?_ ?_ ?_ | dsimp only [sound_mk_eq] | split

theorem stakeTableRead_sound {p : Part} : ∀ a0 s, Sound p s → Sound p (stakeTableRead a0 s) := by
  intro a0 s h0
  unfold stakeTableRead
  repeat' with_reducible first
    | assumption | rfl | intro _ | apply fireInjection_sound | apply landingFault_sound | refine sound_parts ?_ ?_ ?_
    | dsimp only [sound_mk_eq] | split

theorem reportPosted_sound {p : Part} : ∀ a0 a1 a2 s, Sound p s → Sound p (reportPosted a0 a1 a2 s) := by
  intro a0 a1 a2 s h0
  unfold reportPosted
  repeat' with_reducible first
    | assumption | rfl | intro _ | apply report_sound

theorem joinWait_sound {p : Part} : ∀ a0 a1 s, Sound p s → Sound p (joinWait a0 a1 s) := by
  intro a0 a1 s h0
  unfold joinWait
  repeat' with_reducible first
    | assumption | rfl | intro _ | refine sound_parts ?_ ?_ ?_ | dsimp only [sound_mk_eq]

theorem clearMet_sound {p : Part} : ∀ a0 a1 s, Sound p s → Sound p (clearMet a0 a1 s) := by
  intro a0 a1 s h0
  unfold clearMet
  repeat' with_reducible first
    | assumption | rfl | intro _ | refine sound_parts ?_ ?_ ?_ | dsimp only [sound_mk_eq]

theorem physRead_sound {p : Part} : ∀ a0 a1 a2 s, Sound p s → Sound p (physRead a0 a1 a2 s).2 := by
  intro a0 a1 a2 s h0
  unfold physRead
  repeat' with_reducible first
    | assumption | rfl | intro _ | apply injectRead_sound | apply joinWait_sound | apply clearMet_sound
    | apply stakeTableRead_sound | refine sound_parts ?_ ?_ ?_ | refine sound_of_snd_snd (by assumption) ?_
    | refine sound_of_snd (by assumption) ?_ | dsimp only [sound_mk_eq] | split

theorem placeBytes_sound {p : Part} : ∀ a0 a1 a2 s, Sound p s → Sound p (placeBytes a0 a1 a2 s) := by
  intro a0 a1 a2 s h0
  unfold placeBytes
  repeat' with_reducible first
    | assumption | rfl | intro _ | apply outsideWrite_sound | apply plainWrite_sound | apply dropOpLines_sound
    | refine sound_parts ?_ ?_ ?_ | refine sound_of_snd_snd (by assumption) ?_ | refine sound_of_snd (by assumption) ?_
    | dsimp only [sound_mk_eq] | split

theorem writePiece_sound {p : Part} : ∀ a0 a1 a2 s a4, Sound p s → Sound p (writePiece a0 a1 a2 s a4) := by
  intro a0 a1 a2 s a4 h0
  unfold writePiece
  repeat' with_reducible first
    | assumption | rfl | intro _ | apply reportPosted_sound | apply placeBytes_sound | refine sound_parts ?_ ?_ ?_
    | refine sound_of_snd_snd (by assumption) ?_ | refine sound_of_snd (by assumption) ?_ | dsimp only [sound_mk_eq] | split

theorem physWrite_sound {p : Part} : ∀ a0 a1 a2 s, Sound p s → Sound p (physWrite a0 a1 a2 s).2 := by
  intro a0 a1 a2 s h0
  unfold physWrite
  repeat' with_reducible first
    | assumption | rfl | intro _ | apply stakeTableRead_sound | apply writePiece_sound | apply foldl_sound
    | apply foldl_snd_sound | refine sound_parts ?_ ?_ ?_ | refine sound_of_snd_snd (by assumption) ?_
    | refine sound_of_snd (by assumption) ?_ | dsimp only [sound_mk_eq] | split

theorem dropLeaving_sound {p : Part} : ∀ s, Sound p s → Sound p (dropLeaving s) := by
  intro s h0
  unfold dropLeaving
  repeat' with_reducible first
    | assumption | rfl | intro _ | refine sound_parts ?_ ?_ ?_ | dsimp only [sound_mk_eq]

theorem settleAdmitted_sound {p : Part} : ∀ a0 a1 a2 s, Sound p s → Sound p (settleAdmitted a0 a1 a2 s) := by
  intro a0 a1 a2 s h0
  unfold settleAdmitted
  repeat' with_reducible first
    | assumption | rfl | intro _ | apply dropLeaving_sound | refine sound_parts ?_ ?_ ?_ | dsimp only [sound_mk_eq] | split

theorem leaveOthers_sound {p : Part} : ∀ a0 a1 s, Sound p s → Sound p (leaveOthers a0 a1 s) := by
  intro a0 a1 s h0
  unfold leaveOthers
  repeat' with_reducible first
    | assumption | rfl | intro _ | apply dropLeaving_sound | refine sound_parts ?_ ?_ ?_ | dsimp only [sound_mk_eq]

theorem takeFrame_sound {p : Part} : ∀ a0 a1 a2 s, Sound p s → Sound p (takeFrame a0 a1 a2 s).2 := by
  intro a0 a1 a2 s h0
  unfold takeFrame
  repeat' with_reducible first
    | assumption | rfl | intro _ | apply dropLeaving_sound | refine sound_parts ?_ ?_ ?_
    | refine sound_of_snd_snd (by assumption) ?_ | refine sound_of_snd (by assumption) ?_ | dsimp only [sound_mk_eq] | split

theorem beginMigration_sound {p : Part} : ∀ a0 a1 a2 s, Sound p s → Sound p (beginMigration a0 a1 a2 s) := by
  intro a0 a1 a2 s h0
  unfold beginMigration
  repeat' with_reducible first
    | assumption | rfl | intro _ | apply joinWait_sound | apply takeFrame_sound | refine sound_parts ?_ ?_ ?_
    | dsimp only [sound_mk_eq] | split

theorem touchFrame_sound {p : Part} : ∀ a0 s, Sound p s → Sound p (touchFrame a0 s) := by
  intro a0 s h0
  unfold touchFrame
  repeat' with_reducible first
    | assumption | rfl | intro _ | refine sound_parts ?_ ?_ ?_ | dsimp only [sound_mk_eq]

theorem refetchCopy_sound {p : Part} : ∀ a0 a1 a2 a3 s, Sound p s → Sound p (refetchCopy a0 a1 a2 a3 s) := by
  intro a0 a1 a2 a3 s h0
  unfold refetchCopy
  repeat' with_reducible first
    | assumption | rfl | intro _ | apply report_sound | apply beginMigration_sound | refine sound_parts ?_ ?_ ?_
    | dsimp only [sound_mk_eq]

theorem settled_sound {p : Part} {α : Type} : ∀ (a0 : Sys2Proof.Machine.Requester) (a1 : ℕ) (a2 : ℕ) (a3 : Sys2Proof.Machine.Reply α × Sys2Proof.Machine.State),
    Sound p a3.2 → Sound p (settled a0 a1 a2 a3).2 := by
  intro a0 a1 a2 a3 h0
  unfold settled
  repeat' with_reducible first
    | assumption | rfl | intro _ | apply leaveOthers_sound | apply settleAdmitted_sound | refine sound_parts ?_ ?_ ?_
    | refine sound_of_snd_snd (by assumption) ?_ | refine sound_of_snd (by assumption) ?_ | dsimp only [sound_mk_eq] | split

theorem copyRead_sound {p : Part} : ∀ a0 a1 a2 a3 a4 a5 s, Sound p s → Sound p (copyRead a0 a1 a2 a3 a4 a5 s).2 := by
  intro a0 a1 a2 a3 a4 a5 s h0
  unfold copyRead
  repeat' with_reducible first
    | assumption | rfl | intro _ | apply injectRead_sound | apply fireInjection_sound | apply refetchCopy_sound
    | apply touchFrame_sound | refine sound_parts ?_ ?_ ?_ | dsimp only [sound_mk_eq] | split

theorem homeRead_sound {p : Part} : ∀ a0 a1 a2 a3 a4 s, Sound p s → Sound p (homeRead a0 a1 a2 a3 a4 s).2 := by
  intro a0 a1 a2 a3 a4 s h0
  unfold homeRead
  repeat' with_reducible first
    | assumption | rfl | intro _ | apply injectRead_sound | apply clearMet_sound | refine sound_parts ?_ ?_ ?_
    | refine sound_of_snd_snd (by assumption) ?_ | refine sound_of_snd (by assumption) ?_ | dsimp only [sound_mk_eq] | split

theorem tieredReadOf_sound {p : Part} : ∀ a0 a1 a2 s, Sound p s → Sound p (tieredReadOf a0 a1 a2 s).2 := by
  intro a0 a1 a2 s h0
  unfold tieredReadOf
  repeat' with_reducible first
    | assumption | rfl | intro _ | apply beginMigration_sound | apply copyRead_sound | apply homeRead_sound
    | refine sound_parts ?_ ?_ ?_ | refine sound_of_snd_snd (by assumption) ?_ | refine sound_of_snd (by assumption) ?_
    | dsimp only [sound_mk_eq] | split

theorem tieredRead_sound {p : Part} : ∀ a0 a1 a2 s, Sound p s → Sound p (tieredRead a0 a1 a2 s).2 := by
  intro a0 a1 a2 s h0
  unfold tieredRead
  repeat' with_reducible first
    | assumption | rfl | intro _ | apply settled_sound | apply tieredReadOf_sound

theorem tieredWriteOf_sound {p : Part} : ∀ a0 a1 a2 s, Sound p s → Sound p (tieredWriteOf a0 a1 a2 s).2 := by
  intro a0 a1 a2 s h0
  unfold tieredWriteOf
  repeat' with_reducible first
    | assumption | rfl | intro _ | apply reportPosted_sound | apply joinWait_sound | apply outsideWrite_sound
    | apply homeStore_sound | apply rawWrite_sound | apply foldl_sound | apply foldl_snd_sound | refine sound_parts ?_ ?_ ?_
    | refine sound_of_snd_snd (by assumption) ?_ | refine sound_of_snd (by assumption) ?_ | dsimp only [sound_mk_eq] | split

theorem tieredWriteRuns_sound {p : Part} : ∀ a0 a1 a2 s, Sound p s → Sound p (tieredWriteRuns a0 a1 a2 s).2 := by
  intro a0 a1 a2 s h0
  unfold tieredWriteRuns
  repeat' with_reducible first
    | assumption | rfl | intro _ | apply settled_sound | apply tieredWriteOf_sound

theorem tieredWrite_sound {p : Part} : ∀ a0 a1 a2 s, Sound p s → Sound p (tieredWrite a0 a1 a2 s).2 := by
  intro a0 a1 a2 s h0
  unfold tieredWrite
  repeat' with_reducible first
    | assumption | rfl | intro _ | apply tieredWriteRuns_sound

theorem placeRead_sound {p : Part} : ∀ a0 a1 a2 s, Sound p s → Sound p (placeRead a0 a1 a2 s).2 := by
  intro a0 a1 a2 s h0
  unfold placeRead
  repeat' with_reducible first
    | assumption | rfl | intro _ | apply tieredRead_sound | apply physRead_sound | refine sound_parts ?_ ?_ ?_
    | refine sound_of_snd_snd (by assumption) ?_ | refine sound_of_snd (by assumption) ?_ | dsimp only [sound_mk_eq] | split

theorem placeWrite_sound {p : Part} : ∀ a0 a1 a2 s, Sound p s → Sound p (placeWrite a0 a1 a2 s).2 := by
  intro a0 a1 a2 s h0
  unfold placeWrite
  repeat' with_reducible first
    | assumption | rfl | intro _ | apply tieredWrite_sound | apply physWrite_sound | refine sound_parts ?_ ?_ ?_
    | refine sound_of_snd_snd (by assumption) ?_ | refine sound_of_snd (by assumption) ?_ | dsimp only [sound_mk_eq] | split

end Sys2Proof.Machine
end

