-- ==== Sys2Proof/Laws/Sound/ScalerOps.lean ====
section
/-!
SUPPORT. Laws/Sound/ScalerOps.lean: what Machine/ScalerOps.lean does keeps a state sound (Sys2Proof.Sound): memory canonical, the record
queue bounded, the part unchanged.
-/

namespace Sys2Proof.Machine

theorem updChannel_sound {p : Part} : ∀ a0 a1 s, Sound p s → Sound p (updChannel a0 a1 s) := by
  intro a0 a1 s h0
  unfold updChannel
  repeat' with_reducible first
    | assumption | rfl | intro _ | refine sound_parts ?_ ?_ ?_ | dsimp only [sound_mk_eq]

theorem endCapture_sound {p : Part} : ∀ a0 s, Sound p s → Sound p (endCapture a0 s) := by
  intro a0 s h0
  unfold endCapture
  repeat' with_reducible first
    | assumption | rfl | intro _ | apply updChannel_sound | refine sound_parts ?_ ?_ ?_ | dsimp only [sound_mk_eq] | split

theorem scCtlWrite_sound {p : Part} : ∀ a0 a1 s, Sound p s → Sound p (scCtlWrite a0 a1 s) := by
  intro a0 a1 s h0
  unfold scCtlWrite
  repeat' with_reducible first
    | assumption | rfl | intro _ | apply updChannel_sound | apply endCapture_sound | refine sound_parts ?_ ?_ ?_
    | dsimp only [sound_mk_eq] | split

theorem scIdleWrite_sound {p : Part} : ∀ a0 a1 s, Sound p s → Sound p (scIdleWrite a0 a1 s) := by
  intro a0 a1 s h0
  unfold scIdleWrite
  repeat' with_reducible first
    | assumption | rfl | intro _ | apply updChannel_sound

theorem scCfgWrite_sound {p : Part} : ∀ a0 a1 s, Sound p s → Sound p (scCfgWrite a0 a1 s) := by
  intro a0 a1 s h0
  unfold scCfgWrite
  repeat' with_reducible first
    | assumption | rfl | intro _ | apply scIdleWrite_sound

theorem scPeriodWrite_sound {p : Part} : ∀ a0 a1 s, Sound p s → Sound p (scPeriodWrite a0 a1 s) := by
  intro a0 a1 s h0
  unfold scPeriodWrite
  repeat' with_reducible first
    | assumption | rfl | intro _ | apply scIdleWrite_sound

theorem scStartWrite_sound {p : Part} : ∀ a0 a1 s, Sound p s → Sound p (scStartWrite a0 a1 s) := by
  intro a0 a1 s h0
  unfold scStartWrite
  repeat' with_reducible first
    | assumption | rfl | intro _ | apply scIdleWrite_sound

theorem scStopWrite_sound {p : Part} : ∀ a0 a1 s, Sound p s → Sound p (scStopWrite a0 a1 s) := by
  intro a0 a1 s h0
  unfold scStopWrite
  repeat' with_reducible first
    | assumption | rfl | intro _ | apply scIdleWrite_sound

theorem scalerDoneWrite_sound {p : Part} : ∀ a0 s, Sound p s → Sound p (scalerDoneWrite a0 s) := by
  intro a0 s h0
  unfold scalerDoneWrite
  repeat' with_reducible first
    | assumption | rfl | intro _ | refine sound_parts ?_ ?_ ?_ | dsimp only [sound_mk_eq]

theorem execScalerArm_sound {p : Part} : ∀ a0 a1 s, Sound p s → SoundAnswer p (execScalerArm a0 a1 s) := by
  intro a0 a1 s h0
  unfold execScalerArm
  repeat' with_reducible first
    | assumption | rfl | intro _ | apply scCtlWrite_sound | apply soundAnswer_next | apply soundAnswer_fault
    | refine sound_parts ?_ ?_ ?_ | dsimp only [sound_mk_eq] | split

theorem execScalerAbort_sound {p : Part} : ∀ a0 s, Sound p s → SoundAnswer p (execScalerAbort a0 s) := by
  intro a0 s h0
  unfold execScalerAbort
  repeat' with_reducible first
    | assumption | rfl | intro _ | apply endCapture_sound | apply soundAnswer_next | apply soundAnswer_fault
    | refine sound_parts ?_ ?_ ?_ | dsimp only [sound_mk_eq] | split

theorem execScalerCaptureStart_sound {p : Part} : ∀ a0 s, Sound p s → SoundAnswer p (execScalerCaptureStart a0 s) := by
  intro a0 s h0
  unfold execScalerCaptureStart
  repeat' with_reducible first
    | assumption | rfl | intro _ | apply updChannel_sound | apply soundAnswer_next

theorem scalerEvent_sound {p : Part} : ∀ a0 a1 s, Sound p s → Sound p (scalerEvent a0 a1 s) := by
  intro a0 a1 s h0
  unfold scalerEvent
  repeat' with_reducible first
    | assumption | rfl | intro _ | refine sound_parts ?_ ?_ ?_ | dsimp only [sound_mk_eq]

theorem execScalerCaptureStop_sound {p : Part} : ∀ a0 s, Sound p s → SoundAnswer p (execScalerCaptureStop a0 s) := by
  intro a0 s h0
  unfold execScalerCaptureStop
  repeat' with_reducible first
    | assumption | rfl | intro _ | apply endCapture_sound | apply soundAnswer_next | apply soundAnswer_fault
    | refine sound_parts ?_ ?_ ?_ | dsimp only [sound_mk_eq] | split

end Sys2Proof.Machine
end

