-- ==== Sys2Proof/Laws/Sound/Translate.lean ====
section
/-!
SUPPORT. Laws/Sound/Translate.lean: what Machine/Translate.lean does keeps a state sound (Sys2Proof.Sound): memory canonical, the record
queue bounded, the part unchanged.
-/

namespace Sys2Proof.Machine

theorem walkRead_sound {p : Part} : ∀ a0 a1 s, Sound p s → Sound p (walkRead a0 a1 s).2 := by
  intro a0 a1 s h0
  unfold walkRead
  repeat' with_reducible first
    | assumption | rfl | intro _ | apply fireInjection_sound | apply fired_sound | apply physRead_sound
    | refine sound_parts ?_ ?_ ?_ | refine sound_of_snd_snd (by assumption) ?_ | refine sound_of_snd (by assumption) ?_
    | dsimp only [sound_mk_eq] | split

theorem walkFrom_sound {p : Part} : ∀ a0 a1 a2 a3 a4 s, Sound p s → Sound p (walkFrom a0 a1 a2 a3 a4 s).2 := by
  intro a0 a1 a2 a3 a4 s h0
  fun_induction walkFrom a0 a1 a2 a3 a4 s
  all_goals repeat' with_reducible first
    | assumption | rfl | intro _ | apply walkRead_sound | refine sound_parts ?_ ?_ ?_
    | refine sound_of_snd_snd (by assumption) ?_ | refine sound_of_snd (by assumption) ?_ | apply_assumption -exfalso -symm
    | dsimp only [sound_mk_eq]

theorem contextRoot_sound {p : Part} : ∀ a0 s, Sound p s → Sound p (contextRoot a0 s).2 := by
  intro a0 s h0
  unfold contextRoot
  repeat' with_reducible first
    | assumption | rfl | intro _ | apply walkRead_sound | refine sound_parts ?_ ?_ ?_
    | refine sound_of_snd_snd (by assumption) ?_ | refine sound_of_snd (by assumption) ?_ | dsimp only [sound_mk_eq] | split

theorem walk_sound {p : Part} : ∀ a0 a1 a2 s, Sound p s → Sound p (walk a0 a1 a2 s).2 := by
  intro a0 a1 a2 s h0
  unfold walk
  repeat' with_reducible first
    | assumption | rfl | intro _ | apply walkFrom_sound | apply contextRoot_sound | refine sound_parts ?_ ?_ ?_
    | refine sound_of_snd_snd (by assumption) ?_ | refine sound_of_snd (by assumption) ?_ | dsimp only [sound_mk_eq] | split

theorem sharedHit_sound {p : Part} : ∀ a0 a1 a2 a3 s, Sound p s → Sound p (sharedHit a0 a1 a2 a3 s).2 := by
  intro a0 a1 a2 a3 s h0
  unfold sharedHit
  repeat' with_reducible first
    | assumption | rfl | intro _ | apply fireInjection_sound | apply report_sound | refine sound_parts ?_ ?_ ?_
    | refine sound_of_snd_snd (by assumption) ?_ | refine sound_of_snd (by assumption) ?_ | dsimp only [sound_mk_eq] | split

theorem cachedLeaf_sound {p : Part} : ∀ a0 a1 a2 a3 s, Sound p s → Sound p (cachedLeaf a0 a1 a2 a3 s).2 := by
  intro a0 a1 a2 a3 s h0
  unfold cachedLeaf
  repeat' with_reducible first
    | assumption | rfl | intro _ | apply sharedHit_sound | refine sound_parts ?_ ?_ ?_
    | refine sound_of_snd_snd (by assumption) ?_ | refine sound_of_snd (by assumption) ?_ | dsimp only [sound_mk_eq] | split

theorem slotWrite_sound {p : Part} : ∀ a0 a1 s, Sound p s → Sound p (slotWrite a0 a1 s) := by
  intro a0 a1 s h0
  unfold slotWrite
  repeat' with_reducible first
    | assumption | rfl | intro _ | apply physWrite_sound

theorem closeBatch_sound {p : Part} : ∀ a0 s, Sound p s → Sound p (closeBatch a0 s) := by
  intro a0 s h0
  unfold closeBatch
  repeat' with_reducible first
    | assumption | rfl | intro _ | apply slotWrite_sound | apply scalerEvent_sound | refine sound_parts ?_ ?_ ?_
    | refine sound_of_snd_snd (by assumption) ?_ | refine sound_of_snd (by assumption) ?_ | dsimp only [sound_mk_eq] | split

theorem enterFault_sound {p : Part} : ∀ a0 s, Sound p s → Sound p (enterFault a0 s) := by
  intro a0 s h0
  unfold enterFault
  repeat' with_reducible first
    | assumption | rfl | intro _ | apply closeBatch_sound | refine sound_parts ?_ ?_ ?_
    | refine sound_of_snd_snd (by assumption) ?_ | refine sound_of_snd (by assumption) ?_ | dsimp only [sound_mk_eq] | split

theorem enterHeld_sound {p : Part} : ∀ s, Sound p s → Sound p (enterHeld s) := by
  intro s h0
  unfold enterHeld
  repeat' with_reducible first
    | assumption | rfl | intro _ | apply enterFault_sound | apply foldl_sound | apply foldl_snd_sound
    | refine sound_parts ?_ ?_ ?_ | dsimp only [sound_mk_eq]

theorem useLeaf_sound {p : Part} : ∀ a0 a1 a2 a3 s, Sound p s → Sound p (useLeaf a0 a1 a2 a3 s).2 := by
  intro a0 a1 a2 a3 s h0
  unfold useLeaf
  repeat' with_reducible first
    | assumption | rfl | intro _ | refine sound_parts ?_ ?_ ?_ | dsimp only [sound_mk_eq] | split

theorem translate_sound {p : Part} : ∀ a0 a1 a2 s a4, Sound p s → Sound p (translate a0 a1 a2 s a4).2 := by
  intro a0 a1 a2 s a4 h0
  unfold translate
  repeat' with_reducible first
    | assumption | rfl | intro _ | apply cachedLeaf_sound | apply useLeaf_sound | apply walk_sound | apply enterFault_sound
    | refine sound_parts ?_ ?_ ?_ | refine sound_of_snd_snd (by assumption) ?_ | refine sound_of_snd (by assumption) ?_
    | dsimp only [sound_mk_eq] | split

theorem keepOpLine_sound {p : Part} : ∀ a0 s, Sound p s → Sound p (keepOpLine a0 s) := by
  intro a0 s h0
  unfold keepOpLine
  repeat' with_reducible first
    | assumption | rfl | intro _ | refine sound_parts ?_ ?_ ?_ | dsimp only [sound_mk_eq]

theorem fillOpLine_sound {p : Part} : ∀ a0 a1 s, Sound p s → Sound p (fillOpLine a0 a1 s).2 := by
  intro a0 a1 s h0
  unfold fillOpLine
  repeat' with_reducible first
    | assumption | rfl | intro _ | apply Reply.andThen_sound | apply placeRead_sound | apply keepOpLine_sound

theorem opLineRead_sound {p : Part} : ∀ a0 a1 s, Sound p s → Sound p (opLineRead a0 a1 s).2 := by
  intro a0 a1 s h0
  unfold opLineRead
  repeat' with_reducible first
    | assumption | rfl | intro _ | apply fillOpLine_sound | apply fireInjection_sound | apply report_sound
    | refine sound_parts ?_ ?_ ?_ | refine sound_of_snd_snd (by assumption) ?_ | refine sound_of_snd (by assumption) ?_
    | dsimp only [sound_mk_eq] | split

theorem opLinesRead_sound {p : Part} : ∀ a0 a1 s, Sound p s → Sound p (opLinesRead a0 a1 s).2 := by
  intro a0 a1 s h0
  fun_induction opLinesRead a0 a1 s
  all_goals repeat' with_reducible first
    | assumption | rfl | intro _ | apply Reply.andThen_sound | apply opLineRead_sound | refine sound_parts ?_ ?_ ?_
    | apply_assumption -exfalso -symm

theorem engineAt_sound {p : Part} : ∀ a0 a1 a2 s, Sound p s → Sound p (engineAt a0 a1 a2 s).2 := by
  intro a0 a1 a2 s h0
  unfold engineAt
  repeat' with_reducible first
    | assumption | rfl | intro _ | apply Reply.andThen_sound | apply opLinesRead_sound | apply placeRead_sound
    | refine sound_parts ?_ ?_ ?_ | dsimp only [sound_mk_eq] | split

theorem keepPieces_sound {p : Part} : ∀ a0 a1 a2 s, Sound p s → Sound p (keepPieces a0 a1 a2 s) := by
  intro a0 a1 a2 s h0
  unfold keepPieces
  repeat' with_reducible first
    | assumption | rfl | intro _ | refine sound_parts ?_ ?_ ?_ | dsimp only [sound_mk_eq] | split

theorem pieceTarget_sound {p : Part} : ∀ a0 a1 a2 s, Sound p s → Sound p (pieceTarget a0 a1 a2 s).2 := by
  intro a0 a1 a2 s h0
  unfold pieceTarget
  repeat' with_reducible first
    | assumption | rfl | intro _ | apply translate_sound | refine sound_parts ?_ ?_ ?_
    | refine sound_of_snd_snd (by assumption) ?_ | refine sound_of_snd (by assumption) ?_ | dsimp only [sound_mk_eq] | split

theorem readPieces_sound {p : Part} : ∀ a0 a1 a2 a3 s, Sound p s → Sound p (readPieces a0 a1 a2 a3 s).2 := by
  intro a0 a1 a2 a3 s h0
  fun_induction readPieces a0 a1 a2 a3 s
  all_goals repeat' with_reducible first
    | assumption | rfl | intro _ | apply keepPieces_sound | apply engineAt_sound | apply pieceTarget_sound
    | refine sound_parts ?_ ?_ ?_ | refine sound_of_snd_snd (by assumption) ?_ | refine sound_of_snd (by assumption) ?_
    | apply_assumption -exfalso -symm

theorem engineRead_sound {p : Part} : ∀ a0 a1 a2 s, Sound p s → Sound p (engineRead a0 a1 a2 s).2 := by
  intro a0 a1 a2 s h0
  unfold engineRead
  repeat' with_reducible first
    | assumption | rfl | intro _ | apply readPieces_sound

theorem translatePieces_sound {p : Part} : ∀ a0 a1 a2 s, Sound p s → Sound p (translatePieces a0 a1 a2 s).2 := by
  intro a0 a1 a2 s h0
  fun_induction translatePieces a0 a1 a2 s
  all_goals repeat' with_reducible first
    | assumption | rfl | intro _ | apply Reply.andThen_sound | apply translate_sound | refine sound_parts ?_ ?_ ?_
    | apply_assumption -exfalso -symm

theorem writeTargets_sound {p : Part} : ∀ a0 a1 a2 s, Sound p s → Sound p (writeTargets a0 a1 a2 s).2 := by
  intro a0 a1 a2 s h0
  unfold writeTargets
  repeat' with_reducible first
    | assumption | rfl | intro _ | apply translatePieces_sound | refine sound_parts ?_ ?_ ?_ | dsimp only [sound_mk_eq] | split

theorem writePostedPieces_sound {p : Part} : ∀ a0 a1 a2 s, Sound p s → Sound p (writePostedPieces a0 a1 a2 s) := by
  intro a0 a1 a2 s h0
  fun_induction writePostedPieces a0 a1 a2 s
  all_goals repeat' with_reducible first
    | assumption | rfl | intro _ | apply placeWrite_sound | refine sound_parts ?_ ?_ ?_ | apply_assumption -exfalso -symm
    | dsimp only [sound_mk_eq] | dsimp +zetaDelta only [sound_mk_eq] | split

theorem writePieces_sound {p : Part} : ∀ a0 a1 a2 a3 a4 s, Sound p s → Sound p (writePieces a0 a1 a2 a3 a4 s).2 := by
  intro a0 a1 a2 a3 a4 s h0
  fun_induction writePieces a0 a1 a2 a3 a4 s
  all_goals repeat' with_reducible first
    | assumption | rfl | intro _ | apply keepPieces_sound | apply writePostedPieces_sound | apply placeWrite_sound
    | refine sound_parts ?_ ?_ ?_ | refine sound_of_snd_snd (by assumption) ?_ | refine sound_of_snd (by assumption) ?_
    | apply_assumption -exfalso -symm

theorem engineWrite_sound {p : Part} : ∀ a0 a1 a2 s, Sound p s → Sound p (engineWrite a0 a1 a2 s).2 := by
  intro a0 a1 a2 s h0
  unfold engineWrite
  repeat' with_reducible first
    | assumption | rfl | intro _ | apply Reply.andThen_sound | apply writeTargets_sound | apply writePieces_sound

theorem scratchWrite_sound {p : Part} : ∀ bench off bs s, Sound p s → Sound p (scratchWrite bench off bs s) :=
  fun _ _ bs _ h => ⟨⟨h.1.1, wf_memWrite _ bs h.1.2⟩, h.2.1, h.2.2⟩

theorem fieldRead_sound {p : Part} : ∀ a0 a1 a2 s, Sound p s → Sound p (fieldRead a0 a1 a2 s).2 := by
  intro a0 a1 a2 s h0
  unfold fieldRead
  repeat' with_reducible first
    | assumption | rfl | intro _ | apply engineRead_sound | refine sound_parts ?_ ?_ ?_ | dsimp only [sound_mk_eq] | split

theorem fieldWrite_sound {p : Part} : ∀ a0 a1 a2 s, Sound p s → Sound p (fieldWrite a0 a1 a2 s).2 := by
  intro a0 a1 a2 s h0
  unfold fieldWrite
  repeat' with_reducible first
    | assumption | rfl | intro _ | apply scratchWrite_sound | apply engineWrite_sound | refine sound_parts ?_ ?_ ?_
    | dsimp only [sound_mk_eq] | split

theorem resumeWaiter_sound {p : Part} : ∀ a0 s, Sound p s → Sound p (resumeWaiter a0 s) := by
  intro a0 s h0
  unfold resumeWaiter
  repeat' with_reducible first
    | assumption | rfl | intro _ | apply updTask_sound | apply updRing_sound | refine sound_parts ?_ ?_ ?_
    | dsimp only [sound_mk_eq] | split

theorem failStaging_sound {p : Part} : ∀ a0 a1 a2 s, Sound p s → Sound p (failStaging a0 a1 a2 s) := by
  intro a0 a1 a2 s h0
  unfold failStaging
  repeat' with_reducible first
    | assumption | rfl | intro _ | apply failRing_sound | apply updRing_sound | refine sound_parts ?_ ?_ ?_
    | dsimp only [sound_mk_eq] | split

theorem failWaiter_sound {p : Part} : ∀ a0 a1 s, Sound p s → Sound p (failWaiter a0 a1 s) := by
  intro a0 a1 s h0
  unfold failWaiter
  repeat' with_reducible first
    | assumption | rfl | intro _ | apply endWaiting_sound | apply failStaging_sound | refine sound_parts ?_ ?_ ?_
    | refine sound_of_snd_snd (by assumption) ?_ | refine sound_of_snd (by assumption) ?_ | dsimp only [sound_mk_eq] | split

end Sys2Proof.Machine
end

