-- ==== Sys2Proof/Laws/Sound/Stage.lean ====
section
/-!
SUPPORT. Laws/Sound/Stage.lean: what Machine/Stage.lean does keeps a state sound (Sys2Proof.Sound): memory canonical, the record
queue bounded, the part unchanged.
-/

namespace Sys2Proof.Machine

theorem StageEnd.andThen_sound {p : Part} {α β : Type} : ∀ (a0 : Sys2Proof.Machine.StageEnd α × Sys2Proof.Machine.State) (a1 : α → Sys2Proof.Machine.State → Sys2Proof.Machine.StageEnd β × Sys2Proof.Machine.State),
    Sound p a0.2 → (∀ x0 t, Sound p t → Sound p (a1 x0 t).2) → Sound p (StageEnd.andThen a0 a1).2 := by
  intro a0 a1 h0 h1
  unfold StageEnd.andThen
  repeat' with_reducible first
    | assumption | rfl | intro _ | apply h1 | refine sound_parts ?_ ?_ ?_ | refine sound_of_snd_snd (by assumption) ?_
    | refine sound_of_snd (by assumption) ?_ | dsimp only [sound_mk_eq] | split

theorem stageRead_sound {p : Part} : ∀ a0 a1 a2 s, Sound p s → Sound p (stageRead a0 a1 a2 s).2 := by
  intro a0 a1 a2 s h0
  unfold stageRead
  repeat' with_reducible first
    | assumption | rfl | intro _ | apply fieldRead_sound | refine sound_parts ?_ ?_ ?_
    | refine sound_of_snd_snd (by assumption) ?_ | refine sound_of_snd (by assumption) ?_ | dsimp only [sound_mk_eq] | split

theorem stageReadIf_sound {p : Part} : ∀ a0 a1 s, Sound p s → Sound p (stageReadIf a0 a1 s).2 := by
  intro a0 a1 s h0
  unfold stageReadIf
  repeat' with_reducible first
    | assumption | rfl | intro _ | apply stageRead_sound | refine sound_parts ?_ ?_ ?_
    | refine sound_of_snd_snd (by assumption) ?_ | refine sound_of_snd (by assumption) ?_ | dsimp only [sound_mk_eq] | split

theorem stageCheck_sound {p : Part} : ∀ a0 s, Sound p s → Sound p (stageCheck a0 s).2 := by
  intro a0 s h0
  unfold stageCheck
  repeat' with_reducible first
    | assumption | rfl | intro _ | refine sound_parts ?_ ?_ ?_ | refine sound_of_snd_snd (by assumption) ?_
    | refine sound_of_snd (by assumption) ?_ | dsimp only [sound_mk_eq] | split

theorem stageVector_sound {p : Part} : ∀ a0 a1 a2 a3 a4 s, Sound p s → Sound p (stageVector a0 a1 a2 a3 a4 s).2 := by
  intro a0 a1 a2 a3 a4 s h0
  unfold stageVector
  repeat' with_reducible first
    | assumption | rfl | intro _ | apply StageEnd.andThen_sound | apply stageReadIf_sound | apply stageCheck_sound

theorem stageMat_sound {p : Part} : ∀ a0 a1 a2 s, Sound p s → Sound p (stageMat a0 a1 a2 s).2 := by
  intro a0 a1 a2 s h0
  unfold stageMat
  repeat' with_reducible first
    | assumption | rfl | intro _ | apply StageEnd.andThen_sound | apply stageReadIf_sound | apply stageCheck_sound
    | apply stageRead_sound | apply stageVector_sound | refine sound_parts ?_ ?_ ?_ | dsimp only [sound_mk_eq] | split

theorem stageBody_sound {p : Part} : ∀ a0 a1 a2 a3 s, Sound p s → Sound p (stageBody a0 a1 a2 a3 s).2 := by
  intro a0 a1 a2 a3 s h0
  unfold stageBody
  repeat' with_reducible first
    | assumption | rfl | intro _ | apply StageEnd.andThen_sound | apply stageCheck_sound | apply stageMat_sound
    | apply stageVector_sound | refine sound_parts ?_ ?_ ?_ | refine sound_of_snd_snd (by assumption) ?_
    | refine sound_of_snd (by assumption) ?_ | dsimp only [sound_mk_eq] | split

theorem stageCounter_sound {p : Part} : ∀ a0 a1 a2 s, Sound p s → Sound p (stageCounter a0 a1 a2 s).2 := by
  intro a0 a1 a2 s h0
  unfold stageCounter
  repeat' with_reducible first
    | assumption | rfl | intro _ | apply translate_sound | refine sound_parts ?_ ?_ ?_
    | refine sound_of_snd_snd (by assumption) ?_ | refine sound_of_snd (by assumption) ?_ | dsimp only [sound_mk_eq] | split

theorem stageCode_sound {p : Part} : ∀ a0 s, Sound p s → Sound p (stageCode a0 s).2 := by
  intro a0 s h0
  unfold stageCode
  repeat' with_reducible first
    | assumption | rfl | intro _ | refine sound_parts ?_ ?_ ?_ | refine sound_of_snd_snd (by assumption) ?_
    | refine sound_of_snd (by assumption) ?_ | dsimp only [sound_mk_eq] | split

theorem stageChecks_sound {p : Part} : ∀ a0 a1 a2 s, Sound p s → Sound p (stageChecks a0 a1 a2 s).2 := by
  intro a0 a1 a2 s h0
  unfold stageChecks
  repeat' with_reducible first
    | assumption | rfl | intro _ | apply StageEnd.andThen_sound | apply stageCode_sound | apply stageCounter_sound
    | apply stageBody_sound | refine sound_parts ?_ ?_ ?_ | refine sound_of_snd_snd (by assumption) ?_
    | refine sound_of_snd (by assumption) ?_ | dsimp only [sound_mk_eq] | split

theorem waitResolved_sound {p : Part} : ∀ a0 s, Sound p s → Sound p (waitResolved a0 s) := by
  intro a0 s h0
  unfold waitResolved
  repeat' with_reducible first
    | assumption | rfl | intro _ | apply dropTentative_sound | apply updTask_sound | apply completeTask_sound
    | refine sound_parts ?_ ?_ ?_ | dsimp only [sound_mk_eq] | split

theorem observeTask_sound {p : Part} : ∀ a0 s, Sound p s → Sound p (observeTask a0 s) := by
  intro a0 s h0
  unfold observeTask
  repeat' with_reducible first
    | assumption | rfl | intro _ | apply failTask_sound | apply waitResolved_sound | refine sound_parts ?_ ?_ ?_
    | refine sound_of_snd_snd (by assumption) ?_ | refine sound_of_snd (by assumption) ?_ | dsimp only [sound_mk_eq] | split

theorem observeGroup_sound {p : Part} : ∀ a0 s, Sound p s → Sound p (observeGroup a0 s) := by
  intro a0 s h0
  unfold observeGroup
  repeat' with_reducible first
    | assumption | rfl | intro _ | apply failTask_sound | apply squashGroup_sound | apply confirmGroup_sound
    | apply dropTentative_sound | apply foldl_sound | apply foldl_snd_sound | refine sound_parts ?_ ?_ ?_
    | refine sound_of_snd_snd (by assumption) ?_ | refine sound_of_snd (by assumption) ?_ | dsimp only [sound_mk_eq] | split

theorem observeCounter_sound {p : Part} : ∀ a0 s, Sound p s → Sound p (observeCounter a0 s) := by
  intro a0 s h0
  unfold observeCounter
  repeat' with_reducible first
    | assumption | rfl | intro _ | apply observeTask_sound | apply observeGroup_sound | apply foldl_sound
    | apply foldl_snd_sound | refine sound_parts ?_ ?_ ?_ | refine sound_of_snd_snd (by assumption) ?_
    | refine sound_of_snd (by assumption) ?_ | dsimp only [sound_mk_eq] | split

theorem passHead_sound {p : Part} : ∀ a0 s, Sound p s → Sound p (passHead a0 s) := by
  intro a0 s h0
  unfold passHead
  repeat' with_reducible first
    | assumption | rfl | intro _ | apply updRing_sound

theorem joinGroup_sound {p : Part} : ∀ a0 s, Sound p s → Sound p (joinGroup a0 s) := by
  intro a0 s h0
  unfold joinGroup
  repeat' with_reducible first
    | assumption | rfl | intro _ | apply updGroup_sound | apply observeGroup_sound | apply retireSquashed_sound
    | refine sound_parts ?_ ?_ ?_ | refine sound_of_snd_snd (by assumption) ?_ | refine sound_of_snd (by assumption) ?_
    | dsimp only [sound_mk_eq] | split

theorem requestAshlars_sound {p : Part} : ∀ a0 a1 s, Sound p s → Sound p (requestAshlars a0 a1 s) := by
  intro a0 a1 s h0
  unfold requestAshlars
  repeat' with_reducible first
    | assumption | rfl | intro _ | apply engineRead_sound | apply foldl_sound

theorem preloadTask_sound {p : Part} : ∀ a0 s, Sound p s → Sound p (preloadTask a0 s) := by
  intro a0 s h0
  unfold preloadTask
  repeat' with_reducible first
    | assumption | rfl | intro _ | apply requestAshlars_sound | apply translate_sound | apply foldl_sound
    | apply foldl_snd_sound | refine sound_parts ?_ ?_ ?_ | refine sound_of_snd_snd (by assumption) ?_
    | refine sound_of_snd (by assumption) ?_ | dsimp only [sound_mk_eq] | split

theorem runAheadOn_sound {p : Part} : ∀ a0 a1 s, Sound p s → Sound p (runAheadOn a0 a1 s) := by
  intro a0 a1 s h0
  unfold runAheadOn
  repeat' with_reducible first
    | assumption | rfl | intro _ | apply requestAshlars_sound | apply preloadTask_sound | refine sound_parts ?_ ?_ ?_
    | refine sound_of_snd_snd (by assumption) ?_ | refine sound_of_snd (by assumption) ?_ | dsimp only [sound_mk_eq] | split

theorem preload_sound {p : Part} : ∀ a0 s, Sound p s → Sound p (preload a0 s) := by
  intro a0 s h0
  unfold preload
  repeat' with_reducible first
    | assumption | rfl | intro _ | apply choosePreload_sound | apply preloadTask_sound | refine sound_parts ?_ ?_ ?_
    | refine sound_of_snd_snd (by assumption) ?_ | refine sound_of_snd (by assumption) ?_ | dsimp only [sound_mk_eq] | split

theorem preloadBenches_sound {p : Part} : ∀ s, Sound p s → Sound p (preloadBenches s) := by
  intro s h0
  unfold preloadBenches
  repeat' with_reducible first
    | assumption | rfl | intro _ | apply preload_sound | apply foldl_sound

theorem enterTask_sound {p : Part} : ∀ a0 s, Sound p s → Sound p (enterTask a0 s) := by
  intro a0 s h0
  unfold enterTask
  repeat' with_reducible first
    | assumption | rfl | intro _ | apply passHead_sound | apply joinGroup_sound | apply observeTask_sound
    | apply runAheadOn_sound | apply preloadBenches_sound | refine sound_parts ?_ ?_ ?_ | dsimp only [sound_mk_eq] | split

theorem failNoHolder_sound {p : Part} : ∀ a0 s, Sound p s → Sound p (failNoHolder a0 s) := by
  intro a0 s h0
  unfold failNoHolder
  repeat' with_reducible first
    | assumption | rfl | intro _ | apply failTask_sound | refine sound_parts ?_ ?_ ?_
    | refine sound_of_snd_snd (by assumption) ?_ | refine sound_of_snd (by assumption) ?_ | dsimp only [sound_mk_eq] | split

theorem enterFailed_sound {p : Part} : ∀ a0 a1 a2 a3 s, Sound p s → Sound p (enterFailed a0 a1 a2 a3 s) := by
  intro a0 a1 a2 a3 s h0
  unfold enterFailed
  repeat' with_reducible first
    | assumption | rfl | intro _ | apply passHead_sound | apply failNoHolder_sound | apply failTask_sound
    | refine sound_parts ?_ ?_ ?_ | dsimp only [sound_mk_eq] | split

theorem shellSignal_sound {p : Part} : ∀ a0 s, Sound p s → Sound p (shellSignal a0 s).2 := by
  intro a0 s h0
  unfold shellSignal
  repeat' with_reducible first
    | assumption | rfl | intro _ | apply translate_sound | refine sound_parts ?_ ?_ ?_
    | refine sound_of_snd_snd (by assumption) ?_ | refine sound_of_snd (by assumption) ?_ | dsimp only [sound_mk_eq] | split

theorem waitForSlice_sound {p : Part} : ∀ a0 a1 s, Sound p s → Sound p (waitForSlice a0 a1 s) := by
  intro a0 a1 s h0
  unfold waitForSlice
  repeat' with_reducible first
    | assumption | rfl | intro _ | apply updRing_sound

theorem takeTurn_sound {p : Part} : ∀ a0 s, Sound p s → Sound p (takeTurn a0 s) := by
  intro a0 s h0
  unfold takeTurn
  repeat' with_reducible first
    | assumption | rfl | intro _ | refine sound_parts ?_ ?_ ?_ | dsimp only [sound_mk_eq]

theorem stageDescriptor_sound {p : Part} : ∀ a0 a1 s, Sound p s → Sound p (stageDescriptor a0 a1 s) := by
  intro a0 a1 s h0
  unfold stageDescriptor
  repeat' with_reducible first
    | assumption | rfl | intro _ | apply shellSignal_sound | apply enterFailed_sound | apply waitForSlice_sound
    | apply stageChecks_sound | apply enterTask_sound | apply updRing_sound | refine sound_parts ?_ ?_ ?_
    | refine sound_of_snd_snd (by assumption) ?_ | refine sound_of_snd (by assumption) ?_ | dsimp only [sound_mk_eq] | split

theorem stageNext_sound {p : Part} : ∀ a0 s, Sound p s → Sound p (stageNext a0 s) := by
  intro a0 s h0
  unfold stageNext
  repeat' with_reducible first
    | assumption | rfl | intro _ | apply engineRead_sound | apply takeTurn_sound | apply updRing_sound | apply failRing_sound
    | apply stageDescriptor_sound | refine sound_parts ?_ ?_ ?_ | refine sound_of_snd_snd (by assumption) ?_
    | refine sound_of_snd (by assumption) ?_ | dsimp only [sound_mk_eq] | split

end Sys2Proof.Machine
end

