-- ==== Sys2Proof/Laws/Sound/Issue.lean ====
section
/-!
SUPPORT. Laws/Sound/Issue.lean: what Machine/Issue.lean does keeps a state sound (Sys2Proof.Sound): memory canonical, the record
queue bounded, the part unchanged.
-/

namespace Sys2Proof.Machine

theorem holdShadow_sound {p : Part} : ∀ a0 s, Sound p s → Sound p (holdShadow a0 s) := by
  intro a0 s h0
  unfold holdShadow
  repeat' with_reducible first
    | assumption | rfl | intro _ | apply updGroup_sound | refine sound_parts ?_ ?_ ?_
    | refine sound_of_snd_snd (by assumption) ?_ | refine sound_of_snd (by assumption) ?_ | dsimp only [sound_mk_eq] | split

theorem takeIssueTurn_sound {p : Part} : ∀ a0 s, Sound p s → Sound p (takeIssueTurn a0 s) := by
  intro a0 s h0
  unfold takeIssueTurn
  repeat' with_reducible first
    | assumption | rfl | intro _ | apply updBenchState_sound | refine sound_parts ?_ ?_ ?_
    | refine sound_of_snd_snd (by assumption) ?_ | refine sound_of_snd (by assumption) ?_ | dsimp only [sound_mk_eq] | split

theorem markIssued_sound {p : Part} : ∀ a0 s, Sound p s → Sound p (markIssued a0 s) := by
  intro a0 s h0
  unfold markIssued
  repeat' with_reducible first
    | assumption | rfl | intro _ | apply dropTentative_sound | apply updTask_sound | apply takeIssueTurn_sound
    | apply noteClocks_sound | apply holdShadow_sound | refine sound_parts ?_ ?_ ?_ | dsimp only [sound_mk_eq]

theorem issueBench_sound {p : Part} : ∀ a0 a1 s,
    (∀ x0 t, Sound p t → Sound p (a1 x0 t)) → Sound p s → Sound p (issueBench a0 a1 s) := by
  intro a0 a1 s h0 h1
  unfold issueBench
  repeat' with_reducible first
    | assumption | rfl | intro _ | apply h0 | apply failNoHolder_sound | apply preload_sound | apply markIssued_sound
    | refine sound_parts ?_ ?_ ?_ | refine sound_of_snd_snd (by assumption) ?_ | refine sound_of_snd (by assumption) ?_
    | dsimp only [sound_mk_eq] | split

end Sys2Proof.Machine
end

