-- ==== Sys2Proof/Laws/Sound/Array.lean ====
section
/-!
SUPPORT. Laws/Sound/Array.lean: what Machine/Array.lean does keeps a state sound (Sys2Proof.Sound): memory canonical, the record
queue bounded, the part unchanged.
-/

namespace Sys2Proof.Machine

theorem readAshlars_sound {p : Part} : ∀ a0 a1 s, Sound p s → Sound p (readAshlars a0 a1 s).2 := by
  intro a0 a1 s h0
  fun_induction readAshlars a0 a1 s
  all_goals repeat' with_reducible first
    | assumption | rfl | intro _ | apply Reply.andThen_sound | apply engineRead_sound | refine sound_parts ?_ ?_ ?_
    | apply_assumption -exfalso -symm

theorem elementRead_sound {p : Part} : ∀ a0 a1 a2 s, Sound p s → Sound p (elementRead a0 a1 a2 s).2 := by
  intro a0 a1 a2 s h0
  unfold elementRead
  repeat' with_reducible first
    | assumption | rfl | intro _ | apply fieldRead_sound | apply Reply.andThen_sound | apply readAshlars_sound
    | refine sound_parts ?_ ?_ ?_ | dsimp only [sound_mk_eq] | split

theorem readPanelB_sound {p : Part} : ∀ a0 a1 a2 a3 a4 s, Sound p s → Sound p (readPanelB a0 a1 a2 a3 a4 s).2 := by
  intro a0 a1 a2 a3 a4 s h0
  unfold readPanelB
  repeat' with_reducible first
    | assumption | rfl | intro _ | apply Reply.andThen_sound | apply elementRead_sound

theorem readPanelA_sound {p : Part} : ∀ a0 a1 a2 a3 a4 s, Sound p s → Sound p (readPanelA a0 a1 a2 a3 a4 s).2 := by
  intro a0 a1 a2 a3 a4 s h0
  unfold readPanelA
  repeat' with_reducible first
    | assumption | rfl | intro _ | apply Reply.andThen_sound | apply elementRead_sound

theorem readScales_sound {p : Part} : ∀ a0 a1 a2 a3 s, Sound p s → Sound p (readScales a0 a1 a2 a3 s).2 := by
  intro a0 a1 a2 a3 s h0
  unfold readScales
  repeat' with_reducible first
    | assumption | rfl | intro _ | apply Reply.andThen_sound | apply fieldRead_sound | refine sound_parts ?_ ?_ ?_
    | dsimp only [sound_mk_eq] | split

theorem readInits_sound {p : Part} : ∀ a0 a1 a2 a3 a4 a5 s, Sound p s → Sound p (readInits a0 a1 a2 a3 a4 a5 s).2 := by
  intro a0 a1 a2 a3 a4 a5 s h0
  fun_induction readInits a0 a1 a2 a3 a4 a5 s
  all_goals repeat' with_reducible first
    | assumption | rfl | intro _ | apply Reply.andThen_sound | apply fieldRead_sound | refine sound_parts ?_ ?_ ?_
    | apply_assumption -exfalso -symm

theorem readTileInits_sound {p : Part} : ∀ a0 a1 a2 a3 s, Sound p s → Sound p (readTileInits a0 a1 a2 a3 s).2 := by
  intro a0 a1 a2 a3 s h0
  fun_induction readTileInits a0 a1 a2 a3 s
  all_goals repeat' with_reducible first
    | assumption | rfl | intro _ | apply Reply.andThen_sound | apply readInits_sound | refine sound_parts ?_ ?_ ?_
    | apply_assumption -exfalso -symm

theorem readTileScales_sound {p : Part} : ∀ a0 a1 a2 a3 s, Sound p s → Sound p (readTileScales a0 a1 a2 a3 s).2 := by
  intro a0 a1 a2 a3 s h0
  fun_induction readTileScales a0 a1 a2 a3 s
  all_goals repeat' with_reducible first
    | assumption | rfl | intro _ | apply Reply.andThen_sound | apply readScales_sound | refine sound_parts ?_ ?_ ?_
    | apply_assumption -exfalso -symm

end Sys2Proof.Machine
end

