-- ==== Sys2Proof/Laws/Sound/Bench.lean ====
section
/-!
SUPPORT. Laws/Sound/Bench.lean: what Machine/Bench.lean does keeps a state sound (Sys2Proof.Sound): memory canonical, the record
queue bounded, the part unchanged.
-/

namespace Sys2Proof.Machine

theorem blockTask_sound {p : Part} : ∀ a0 s, Sound p s → Sound p (blockTask a0 s) := by
  intro a0 s h0
  unfold blockTask
  repeat' with_reducible first
    | assumption | rfl | intro _ | apply updTask_sound

theorem correctedBench_sound {p : Part} : ∀ a0 a1 a2 a3 s, Sound p s → Sound p (correctedBench a0 a1 a2 a3 s) := by
  intro a0 a1 a2 a3 s h0
  unfold correctedBench
  repeat' with_reducible first
    | assumption | rfl | intro _ | apply countBenchError_sound | apply report_sound

theorem uncorrectedBench_sound {p : Part} : ∀ a0 a1 a2 a3 a4 a5 s,
    Sound p s → Sound p (uncorrectedBench a0 a1 a2 a3 a4 a5 s) := by
  intro a0 a1 a2 a3 a4 a5 s h0
  unfold uncorrectedBench
  repeat' with_reducible first
    | assumption | rfl | intro _ | apply endAtTile_sound | apply failAs_sound | apply report_sound | apply countBenchError_sound
    | refine sound_parts ?_ ?_ ?_ | refine sound_of_snd_snd (by assumption) ?_ | refine sound_of_snd (by assumption) ?_
    | dsimp only [sound_mk_eq] | split

theorem faultyBank_sound {p : Part} : ∀ a0 s, Sound p s → Sound p (faultyBank a0 s).2 := by
  intro a0 s h0
  unfold faultyBank
  repeat' with_reducible first
    | assumption | rfl | intro _ | apply drawFree_sound | refine sound_parts ?_ ?_ ?_
    | refine sound_of_snd_snd (by assumption) ?_ | refine sound_of_snd (by assumption) ?_ | dsimp only [sound_mk_eq] | split

theorem bankError_sound {p : Part} : ∀ a0 a1 a2 s, Sound p s → Sound p (bankError a0 a1 a2 s) := by
  intro a0 a1 a2 s h0
  unfold bankError
  repeat' with_reducible first
    | assumption | rfl | intro _ | apply faultyBank_sound | apply uncorrectedBench_sound | apply updBenchState_sound
    | refine sound_parts ?_ ?_ ?_ | refine sound_of_snd_snd (by assumption) ?_ | refine sound_of_snd (by assumption) ?_
    | dsimp only [sound_mk_eq] | split

theorem arrayError_sound {p : Part} : ∀ a0 a1 a2 a3 s, Sound p s → Sound p (arrayError a0 a1 a2 a3 s) := by
  intro a0 a1 a2 a3 s h0
  unfold arrayError
  repeat' with_reducible first
    | assumption | rfl | intro _ | apply correctedBench_sound | apply bankError_sound | apply uncorrectedBench_sound
    | refine sound_parts ?_ ?_ ?_ | dsimp only [sound_mk_eq] | split

theorem dresserError_sound {p : Part} : ∀ a0 a1 a2 s, Sound p s → Sound p (dresserError a0 a1 a2 s) := by
  intro a0 a1 a2 s h0
  unfold dresserError
  repeat' with_reducible first
    | assumption | rfl | intro _ | apply correctedBench_sound | apply uncorrectedBench_sound | apply countBenchError_sound
    | apply updBenchState_sound | refine sound_parts ?_ ?_ ?_ | dsimp only [sound_mk_eq] | split

theorem benchInject_sound {p : Part} : ∀ a0 a1 a2 a3 s,
    (∀ x0 x1 t, Sound p t → Sound p (a3 x0 x1 t)) → Sound p s → Sound p (benchInject a0 a1 a2 a3 s) := by
  intro a0 a1 a2 a3 s h0 h1
  unfold benchInject
  repeat' with_reducible first
    | assumption | rfl | intro _ | apply h0 | apply fireInjection_sound | apply foldl_sound | apply foldl_snd_sound
    | refine sound_parts ?_ ?_ ?_ | refine sound_of_snd_snd (by assumption) ?_ | refine sound_of_snd (by assumption) ?_
    | dsimp only [sound_mk_eq] | split

theorem readPanels_sound {p : Part} : ∀ a0 a1 a2 a3 a4 s,
    (∀ x0 t, Sound p t → Sound p (a0 x0 t).2) → Sound p s → Sound p (readPanels a0 a1 a2 a3 a4 s).2 := by
  intro a0 a1 a2 a3 a4 s h0 h1
  fun_induction readPanels a0 a1 a2 a3 a4 s
  all_goals repeat' with_reducible first
    | assumption | rfl | intro _ | apply h0 | apply Reply.andThen_sound | refine sound_parts ?_ ?_ ?_
    | apply_assumption -exfalso -symm

theorem readWeights_sound {p : Part} : ∀ a0 a1 a2 a3 s, Sound p s → Sound p (readWeights a0 a1 a2 a3 s).2 := by
  intro a0 a1 a2 a3 s h0
  unfold readWeights
  repeat' with_reducible first
    | assumption | rfl | intro _ | apply readPanels_sound | apply readPanelB_sound

theorem readStreams_sound {p : Part} : ∀ a0 a1 a2 a3 s, Sound p s → Sound p (readStreams a0 a1 a2 a3 s).2 := by
  intro a0 a1 a2 a3 s h0
  unfold readStreams
  repeat' with_reducible first
    | assumption | rfl | intro _ | apply readPanels_sound | apply readPanelA_sound

theorem passWeights_sound {p : Part} : ∀ a0 a1 a2 a3 s, Sound p s → Sound p (passWeights a0 a1 a2 a3 s).2 := by
  intro a0 a1 a2 a3 s h0
  unfold passWeights
  repeat' with_reducible first
    | assumption | rfl | intro _ | apply readWeights_sound | refine sound_parts ?_ ?_ ?_
    | refine sound_of_snd_snd (by assumption) ?_ | refine sound_of_snd (by assumption) ?_ | dsimp only [sound_mk_eq] | split

theorem addPass_sound {p : Part} : ∀ a0 a1 a2 a3 s, Sound p s → Sound p (addPass a0 a1 a2 a3 s) := by
  intro a0 a1 a2 a3 s h0
  unfold addPass
  repeat' with_reducible first
    | assumption | rfl | intro _ | apply updBenchState_sound | apply drawFree_sound | refine sound_parts ?_ ?_ ?_
    | dsimp only [sound_mk_eq] | split

theorem noteArrayDone_sound {p : Part} : ∀ a0 a1 s, Sound p s → Sound p (noteArrayDone a0 a1 s) := by
  intro a0 a1 s h0
  unfold noteArrayDone
  repeat' with_reducible first
    | assumption | rfl | intro _ | apply updTask_sound | refine sound_parts ?_ ?_ ?_ | dsimp only [sound_mk_eq] | split

theorem withhold_sound {p : Part} : ∀ a0 s, Sound p s → Sound p (withhold a0 s) := by
  intro a0 s h0
  unfold withhold
  repeat' with_reducible first
    | assumption | rfl | intro _ | apply drawFree_sound | apply updBenchState_sound

theorem tileScales_sound {p : Part} : ∀ a0 a1 a2 a3 s, Sound p s → Sound p (tileScales a0 a1 a2 a3 s).2 := by
  intro a0 a1 a2 a3 s h0
  unfold tileScales
  repeat' with_reducible first
    | assumption | rfl | intro _ | apply readTileScales_sound | refine sound_parts ?_ ?_ ?_
    | refine sound_of_snd_snd (by assumption) ?_ | refine sound_of_snd (by assumption) ?_ | dsimp only [sound_mk_eq] | split

theorem readTile_sound {p : Part} : ∀ a0 a1 a2 a3 s, Sound p s → Sound p (readTile a0 a1 a2 a3 s).2 := by
  intro a0 a1 a2 a3 s h0
  unfold readTile
  repeat' with_reducible first
    | assumption | rfl | intro _ | apply Reply.andThen_sound | apply tileScales_sound | apply readTileInits_sound
    | refine sound_parts ?_ ?_ ?_ | refine sound_of_snd_snd (by assumption) ?_ | refine sound_of_snd (by assumption) ?_
    | dsimp only [sound_mk_eq] | split

theorem loadShadow_sound {p : Part} : ∀ a0 s, Sound p s → Sound p (loadShadow a0 s) := by
  intro a0 s h0
  unfold loadShadow
  repeat' with_reducible first
    | assumption | rfl | intro _ | apply readWeights_sound | apply updBenchState_sound | refine sound_parts ?_ ?_ ?_
    | refine sound_of_snd_snd (by assumption) ?_ | refine sound_of_snd (by assumption) ?_ | dsimp only [sound_mk_eq] | split

theorem loadScales_sound {p : Part} : ∀ a0 a1 a2 a3 s, Sound p s → Sound p (loadScales a0 a1 a2 a3 s) := by
  intro a0 a1 a2 a3 s h0
  unfold loadScales
  repeat' with_reducible first
    | assumption | rfl | intro _ | apply readTileScales_sound | apply updBenchState_sound | refine sound_parts ?_ ?_ ?_
    | refine sound_of_snd_snd (by assumption) ?_ | refine sound_of_snd (by assumption) ?_ | dsimp only [sound_mk_eq] | split

theorem arrayReply_sound {p : Part} {α : Type} : ∀ (a0 : Sys2Proof.Machine.Task) (a1 : Sys2Proof.Machine.Reply α × Sys2Proof.Machine.State) (a2 : α → Sys2Proof.Machine.State → Sys2Proof.Machine.State),
    Sound p a1.2 → (∀ x0 t, Sound p t → Sound p (a2 x0 t)) → Sound p (arrayReply a0 a1 a2) := by
  intro a0 a1 a2 h0 h1
  unfold arrayReply
  repeat' with_reducible first
    | assumption | rfl | intro _ | apply h1 | apply blockTask_sound | apply endEarly_sound | refine sound_parts ?_ ?_ ?_
    | refine sound_of_snd_snd (by assumption) ?_ | refine sound_of_snd (by assumption) ?_ | dsimp only [sound_mk_eq] | split

theorem runPass_sound {p : Part} : ∀ a0 a1 a2 a3 s, Sound p s → Sound p (runPass a0 a1 a2 a3 s) := by
  intro a0 a1 a2 a3 s h0
  unfold runPass
  repeat' with_reducible first
    | assumption | rfl | intro _ | apply arrayReply_sound | apply passWeights_sound | apply readStreams_sound
    | apply addPass_sound | apply loadScales_sound | apply loadShadow_sound | apply noteArrayDone_sound
    | apply updBenchState_sound | apply benchInject_sound | apply arrayError_sound | refine sound_parts ?_ ?_ ?_
    | dsimp only [sound_mk_eq] | split

theorem beginTile_sound {p : Part} : ∀ a0 a1 a2 a3 a4 s,
    (∀ t, Sound p t → Sound p (a4 t)) → Sound p s → Sound p (beginTile a0 a1 a2 a3 a4 s) := by
  intro a0 a1 a2 a3 a4 s h0 h1
  unfold beginTile
  repeat' with_reducible first
    | assumption | rfl | intro _ | apply h0 | apply withhold_sound | apply arrayReply_sound | apply readTile_sound
    | apply endEarly_sound | apply updBenchState_sound | refine sound_parts ?_ ?_ ?_
    | refine sound_of_snd_snd (by assumption) ?_ | refine sound_of_snd (by assumption) ?_ | dsimp only [sound_mk_eq] | split

theorem passStart_sound {p : Part} : ∀ a0 s, Sound p s → Sound p (passStart a0 s) := by
  intro a0 s h0
  unfold passStart
  repeat' with_reducible first
    | assumption | rfl | intro _ | apply beginTile_sound | apply runPass_sound | refine sound_parts ?_ ?_ ?_
    | refine sound_of_snd_snd (by assumption) ?_ | refine sound_of_snd (by assumption) ?_ | dsimp only [sound_mk_eq] | split

theorem execPassStart_sound {p : Part} : ∀ a0 s, Sound p s → SoundAnswer p (execPassStart a0 s) := by
  intro a0 s h0
  unfold execPassStart
  repeat' with_reducible first
    | assumption | rfl | intro _ | apply passStart_sound | apply soundAnswer_next

theorem drainBank_sound {p : Part} : ∀ a0 a1 s, Sound p s → Sound p (drainBank a0 a1 s) := by
  intro a0 a1 s h0
  unfold drainBank
  repeat' with_reducible first
    | assumption | rfl | intro _ | apply updBenchState_sound | refine sound_parts ?_ ?_ ?_
    | refine sound_of_snd_snd (by assumption) ?_ | refine sound_of_snd (by assumption) ?_ | dsimp only [sound_mk_eq] | split

theorem footTile_sound {p : Part} : ∀ a0 s, Sound p s → Sound p (footTile a0 s) := by
  intro a0 s h0
  unfold footTile
  repeat' with_reducible first
    | assumption | rfl | intro _ | apply beginTile_sound | apply drainBank_sound | apply noteArrayDone_sound
    | apply updBenchState_sound | refine sound_parts ?_ ?_ ?_ | refine sound_of_snd_snd (by assumption) ?_
    | refine sound_of_snd (by assumption) ?_ | dsimp only [sound_mk_eq] | split

theorem tileDrain_sound {p : Part} : ∀ a0 s, Sound p s → Sound p (tileDrain a0 s) := by
  intro a0 s h0
  unfold tileDrain
  repeat' with_reducible first
    | assumption | rfl | intro _ | apply drainBank_sound | apply footTile_sound | refine sound_parts ?_ ?_ ?_
    | refine sound_of_snd_snd (by assumption) ?_ | refine sound_of_snd (by assumption) ?_ | dsimp only [sound_mk_eq] | split

theorem execTileDrain_sound {p : Part} : ∀ a0 s, Sound p s → SoundAnswer p (execTileDrain a0 s) := by
  intro a0 s h0
  unfold execTileDrain
  repeat' with_reducible first
    | assumption | rfl | intro _ | apply tileDrain_sound | apply soundAnswer_next

theorem execTileBoundary_sound {p : Part} : ∀ a0 s, Sound p s → SoundAnswer p (execTileBoundary a0 s) := by
  intro a0 s h0
  unfold execTileBoundary
  repeat' with_reducible first
    | assumption | rfl | intro _ | apply updBenchState_sound | apply soundAnswer_next | apply soundAnswer_fault
    | refine sound_parts ?_ ?_ ?_ | dsimp only [sound_mk_eq] | split

theorem execArrayParityError_sound {p : Part} : ∀ a0 a1 s, Sound p s → SoundAnswer p (execArrayParityError a0 a1 s) := by
  intro a0 a1 s h0
  unfold execArrayParityError
  repeat' with_reducible first
    | assumption | rfl | intro _ | apply arrayError_sound | apply soundAnswer_next | apply soundAnswer_fault
    | refine sound_parts ?_ ?_ ?_ | dsimp only [sound_mk_eq] | split

theorem writeAll_sound {p : Part} : ∀ a0 a1 s, Sound p s → Sound p (writeAll a0 a1 s).2 := by
  intro a0 a1 s h0
  fun_induction writeAll a0 a1 s
  all_goals repeat' with_reducible first
    | assumption | rfl | intro _ | apply Reply.andThen_sound | apply fieldWrite_sound

theorem markWorkDone_sound {p : Part} : ∀ a0 a1 s, Sound p s → Sound p (markWorkDone a0 a1 s) := by
  intro a0 a1 s h0
  unfold markWorkDone
  repeat' with_reducible first
    | assumption | rfl | intro _ | apply updTask_sound

theorem endEntry_sound {p : Part} : ∀ a0 a1 a2 a3 s, Sound p s → Sound p (endEntry a0 a1 a2 a3 s) := by
  intro a0 a1 a2 a3 s h0
  unfold endEntry
  repeat' with_reducible first
    | assumption | rfl | intro _ | apply endEarly_sound | apply updBenchState_sound

theorem entryStart_sound {p : Part} : ∀ a0 s, Sound p s → Sound p (entryStart a0 s) := by
  intro a0 s h0
  unfold entryStart
  repeat' with_reducible first
    | assumption | rfl | intro _ | apply benchInject_sound | apply dresserError_sound | apply writeAll_sound
    | apply blockTask_sound | apply endEntry_sound | apply updBenchState_sound | refine sound_parts ?_ ?_ ?_
    | refine sound_of_snd_snd (by assumption) ?_ | refine sound_of_snd (by assumption) ?_ | dsimp only [sound_mk_eq] | split

theorem execDresserEntryStart_sound {p : Part} : ∀ a0 s, Sound p s → SoundAnswer p (execDresserEntryStart a0 s) := by
  intro a0 s h0
  unfold execDresserEntryStart
  repeat' with_reducible first
    | assumption | rfl | intro _ | apply entryStart_sound | apply soundAnswer_next

theorem settleEnds_sound {p : Part} : ∀ a0 a1 s, Sound p s → Sound p (settleEnds a0 a1 s) := by
  intro a0 a1 s h0
  unfold settleEnds
  repeat' with_reducible first
    | assumption | rfl | intro _ | apply failAs_sound | refine sound_parts ?_ ?_ ?_ | refine sound_of_snd_snd (by assumption) ?_
    | refine sound_of_snd (by assumption) ?_ | dsimp only [sound_mk_eq] | split

theorem settleStop_sound {p : Part} : ∀ a0 a1 s, Sound p s → Sound p (settleStop a0 a1 s) := by
  intro a0 a1 s h0
  unfold settleStop
  repeat' with_reducible first
    | assumption | rfl | intro _ | apply freeGroup_sound | apply retireSquashed_sound | apply failTask_sound
    | refine sound_parts ?_ ?_ ?_ | refine sound_of_snd_snd (by assumption) ?_ | refine sound_of_snd (by assumption) ?_
    | dsimp only [sound_mk_eq] | split

theorem entryFree_sound {p : Part} : ∀ a0 s, Sound p s → Sound p (entryFree a0 s) := by
  intro a0 s h0
  unfold entryFree
  repeat' with_reducible first
    | assumption | rfl | intro _ | apply updBenchState_sound | apply markWorkDone_sound | apply takeVector_sound
    | apply settleStop_sound | apply settleEnds_sound | refine sound_parts ?_ ?_ ?_ | refine sound_of_snd_snd (by assumption) ?_
    | refine sound_of_snd (by assumption) ?_ | dsimp only [sound_mk_eq] | split

theorem execSkidEntryFree_sound {p : Part} : ∀ a0 s, Sound p s → SoundAnswer p (execSkidEntryFree a0 s) := by
  intro a0 s h0
  unfold execSkidEntryFree
  repeat' with_reducible first
    | assumption | rfl | intro _ | apply entryFree_sound | apply soundAnswer_next

theorem execDresserParityError_sound {p : Part} : ∀ a0 s, Sound p s → SoundAnswer p (execDresserParityError a0 s) := by
  intro a0 s h0
  unfold execDresserParityError
  repeat' with_reducible first
    | assumption | rfl | intro _ | apply dresserError_sound | apply soundAnswer_next | apply soundAnswer_fault
    | refine sound_parts ?_ ?_ ?_ | dsimp only [sound_mk_eq] | split

theorem execSkidEntryError_sound {p : Part} : ∀ a0 a1 s, Sound p s → SoundAnswer p (execSkidEntryError a0 a1 s) := by
  intro a0 a1 s h0
  unfold execSkidEntryError
  repeat' with_reducible first
    | assumption | rfl | intro _ | apply dresserError_sound | apply soundAnswer_next | apply soundAnswer_fault
    | refine sound_parts ?_ ?_ ?_ | dsimp only [sound_mk_eq] | split

end Sys2Proof.Machine
end

