-- ==== Sys2Proof/Laws/Sound/HartOps.lean ====
section
/-!
SUPPORT. Laws/Sound/HartOps.lean: what Machine/HartOps.lean does keeps a state sound (Sys2Proof.Sound): memory canonical, the record
queue bounded, the part unchanged.
-/

namespace Sys2Proof.Machine

theorem reportHart_sound {p : Part} : ∀ a0 a1 a2 s, Sound p s → Sound p (reportHart a0 a1 a2 s) := by
  intro a0 a1 a2 s h0
  unfold reportHart
  repeat' with_reducible first
    | assumption | rfl | intro _ | apply report_sound

theorem writeRuns_sound {p : Part} : ∀ a0 a1 a2 s, Sound p s → Sound p (writeRuns a0 a1 a2 s).2 := by
  intro a0 a1 a2 s h0
  unfold writeRuns
  repeat' with_reducible first
    | assumption | rfl | intro _ | apply tieredWriteRuns_sound | apply stakeTableRead_sound | apply reportPosted_sound
    | apply placeBytes_sound | apply foldl_sound | apply foldl_snd_sound | refine sound_parts ?_ ?_ ?_
    | refine sound_of_snd_snd (by assumption) ?_ | refine sound_of_snd (by assumption) ?_ | dsimp only [sound_mk_eq] | split

theorem sendCombined_sound {p : Part} : ∀ a0 a1 s, Sound p s → Sound p (sendCombined a0 a1 s) := by
  intro a0 a1 s h0
  unfold sendCombined
  repeat' with_reducible first
    | assumption | rfl | intro _ | apply updHart_sound | apply writeRuns_sound | apply reportHart_sound
    | refine sound_parts ?_ ?_ ?_ | refine sound_of_snd_snd (by assumption) ?_ | refine sound_of_snd (by assumption) ?_
    | dsimp only [sound_mk_eq] | split

theorem sendAllCombined_sound {p : Part} : ∀ a0 s, Sound p s → Sound p (sendAllCombined a0 s) := by
  intro a0 s h0
  unfold sendAllCombined
  repeat' with_reducible first
    | assumption | rfl | intro _ | apply sendCombined_sound | apply foldl_sound

theorem hartFault_sound {p : Part} : ∀ a0 a1 a2 a3 a4 s, Sound p s → Sound p (hartFault a0 a1 a2 a3 a4 s) := by
  intro a0 a1 a2 a3 a4 s h0
  unfold hartFault
  repeat' with_reducible first
    | assumption | rfl | intro _ | apply updHart_sound | apply sendAllCombined_sound

theorem hartRefused_sound {p : Part} : ∀ a0 a1 a2 a3 a4 a5 s, Sound p s → Sound p (hartRefused a0 a1 a2 a3 a4 a5 s) := by
  intro a0 a1 a2 a3 a4 a5 s h0
  unfold hartRefused
  repeat' with_reducible first
    | assumption | rfl | intro _ | apply hartFault_sound | apply reportHart_sound

theorem hartBarred_sound {p : Part} : ∀ a0 a1 a2 s, Sound p s → Sound p (hartBarred a0 a1 a2 s) := by
  intro a0 a1 a2 s h0
  unfold hartBarred
  repeat' with_reducible first
    | assumption | rfl | intro _ | apply hartFault_sound

theorem readPiecesOf_sound {p : Part} : ∀ a0 a1 a2 s, Sound p s → Sound p (readPiecesOf a0 a1 a2 s).2.2 := by
  intro a0 a1 a2 s h0
  fun_induction readPiecesOf a0 a1 a2 s
  all_goals repeat' with_reducible first
    | assumption | rfl | intro _ | apply placeRead_sound | refine sound_parts ?_ ?_ ?_
    | refine sound_of_snd_snd (by assumption) ?_ | refine sound_of_snd (by assumption) ?_ | apply_assumption -exfalso -symm

theorem systemCacheAccess_sound {p : Part} : ∀ a0 a1 s a3, Sound p s → Sound p (systemCacheAccess a0 a1 s a3) := by
  intro a0 a1 s a3 h0
  unfold systemCacheAccess
  repeat' with_reducible first
    | assumption | rfl | intro _ | apply fireInjection_sound | apply report_sound | refine sound_parts ?_ ?_ ?_
    | dsimp only [sound_mk_eq] | split

theorem systemCacheRange_sound {p : Part} : ∀ a0 a1 a2 s, Sound p s → Sound p (systemCacheRange a0 a1 a2 s) := by
  intro a0 a1 a2 s h0
  unfold systemCacheRange
  repeat' with_reducible first
    | assumption | rfl | intro _ | apply systemCacheAccess_sound | apply foldl_sound

theorem hartTierLoad_sound {p : Part} : ∀ a0 a1 a2 a3 a4 s, Sound p s → Sound p (hartTierLoad a0 a1 a2 a3 a4 s) := by
  intro a0 a1 a2 a3 a4 s h0
  unfold hartTierLoad
  repeat' with_reducible first
    | assumption | rfl | intro _ | apply readPiecesOf_sound | apply updHart_sound | apply systemCacheRange_sound
    | apply hartRefused_sound | refine sound_parts ?_ ?_ ?_ | refine sound_of_snd_snd (by assumption) ?_
    | refine sound_of_snd (by assumption) ?_ | dsimp only [sound_mk_eq] | split

theorem hartResume_sound {p : Part} : ∀ a0 s, Sound p s → Sound p (hartResume a0 s) := by
  intro a0 s h0
  unfold hartResume
  repeat' with_reducible first
    | assumption | rfl | intro _ | apply hartTierLoad_sound | refine sound_parts ?_ ?_ ?_
    | refine sound_of_snd_snd (by assumption) ?_ | refine sound_of_snd (by assumption) ?_ | dsimp only [sound_mk_eq] | split

theorem hartFailWait_sound {p : Part} : ∀ a0 a1 a2 s, Sound p s → Sound p (hartFailWait a0 a1 a2 s) := by
  intro a0 a1 a2 s h0
  unfold hartFailWait
  repeat' with_reducible first
    | assumption | rfl | intro _ | apply hartRefused_sound | apply updHart_sound | refine sound_parts ?_ ?_ ?_
    | refine sound_of_snd_snd (by assumption) ?_ | refine sound_of_snd (by assumption) ?_ | dsimp only [sound_mk_eq] | split

end Sys2Proof.Machine
end

