-- ==== Sys2Proof/Laws/Sound/Repair.lean ====
section
/-!
SUPPORT. Laws/Sound/Repair.lean: what Machine/Repair.lean does keeps a state sound (Sys2Proof.Sound): memory canonical, the record
queue bounded, the part unchanged.
-/

namespace Sys2Proof.Machine

theorem serveWaiter_sound {p : Part} : ∀ s a1, Sound p s → Sound p (serveWaiter s a1) := by
  intro s a1 h0
  unfold serveWaiter
  repeat' with_reducible first
    | assumption | rfl | intro _ | apply updTask_sound | apply updRing_sound | apply hartResume_sound
    | refine sound_parts ?_ ?_ ?_ | refine sound_of_snd_snd (by assumption) ?_ | refine sound_of_snd (by assumption) ?_
    | dsimp only [sound_mk_eq] | split

theorem serveWaiters_sound {p : Part} : ∀ a0 a1 s, Sound p s → Sound p (serveWaiters a0 a1 s) := by
  intro a0 a1 s h0
  unfold serveWaiters
  repeat' with_reducible first
    | assumption | rfl | intro _ | apply serveWaiter_sound | apply foldl_sound | apply foldl_snd_sound
    | refine sound_parts ?_ ?_ ?_ | dsimp only [sound_mk_eq]

theorem failTierWaiter_sound {p : Part} : ∀ a0 a1 s a3, Sound p s → Sound p (failTierWaiter a0 a1 s a3) := by
  intro a0 a1 s a3 h0
  unfold failTierWaiter
  repeat' with_reducible first
    | assumption | rfl | intro _ | apply endWaiting_sound | apply failStaging_sound | apply hartFailWait_sound
    | refine sound_parts ?_ ?_ ?_ | refine sound_of_snd_snd (by assumption) ?_ | refine sound_of_snd (by assumption) ?_
    | dsimp only [sound_mk_eq] | split

theorem endMigration_sound {p : Part} : ∀ a0 a1 s, Sound p s → Sound p (endMigration a0 a1 s) := by
  intro a0 a1 s h0
  unfold endMigration
  repeat' with_reducible first
    | assumption | rfl | intro _ | refine sound_parts ?_ ?_ ?_ | dsimp only [sound_mk_eq]

theorem failMigration_sound {p : Part} : ∀ a0 a1 a2 s, Sound p s → Sound p (failMigration a0 a1 a2 s) := by
  intro a0 a1 a2 s h0
  unfold failMigration
  repeat' with_reducible first
    | assumption | rfl | intro _ | apply failTierWaiter_sound | apply endMigration_sound | apply foldl_sound

theorem repairFailed_sound {p : Part} : ∀ a0 s, Sound p s → Sound p (repairFailed a0 s) := by
  intro a0 s h0
  unfold repairFailed
  repeat' with_reducible first
    | assumption | rfl | intro _ | apply poisonAt_sound | apply failMigration_sound | apply report_sound | apply foldl_sound
    | apply foldl_snd_sound | refine sound_parts ?_ ?_ ?_ | refine sound_of_snd_snd (by assumption) ?_
    | refine sound_of_snd (by assumption) ?_ | dsimp only [sound_mk_eq] | split

end Sys2Proof.Machine
end

