-- ==== Sys2Proof/Laws/Sound/DeckOps.lean ====
section
/-!
SUPPORT. Laws/Sound/DeckOps.lean: what Machine/DeckOps.lean does keeps a state sound (Sys2Proof.Sound): memory canonical, the record
queue bounded, the part unchanged.
-/

namespace Sys2Proof.Machine

theorem updDeck_sound {p : Part} : ∀ a0 a1 s, Sound p s → Sound p (updDeck a0 a1 s) := by
  intro a0 a1 s h0
  unfold updDeck
  repeat' with_reducible first
    | assumption | rfl | intro _ | refine sound_parts ?_ ?_ ?_ | dsimp only [sound_mk_eq]

theorem rowRead_sound {p : Part} : ∀ a0 a1 a2 a3 s, Sound p s → Sound p (rowRead a0 a1 a2 a3 s).2 := by
  intro a0 a1 a2 a3 s h0
  unfold rowRead
  repeat' with_reducible first
    | assumption | rfl | intro _ | apply physRead_sound

theorem unitRead_sound {p : Part} : ∀ a0 a1 a2 a3 a4 s, Sound p s → Sound p (unitRead a0 a1 a2 a3 a4 s).2 := by
  intro a0 a1 a2 a3 a4 s h0
  unfold unitRead
  repeat' with_reducible first
    | assumption | rfl | intro _ | apply physRead_sound

theorem rowWrite_sound {p : Part} : ∀ a0 a1 a2 a3 a4 a5 s, Sound p s → Sound p (rowWrite a0 a1 a2 a3 a4 a5 s).2 := by
  intro a0 a1 a2 a3 a4 a5 s h0
  unfold rowWrite
  repeat' with_reducible first
    | assumption | rfl | intro _ | apply physWrite_sound

theorem countDeckOp_sound {p : Part} : ∀ a0 s, Sound p s → Sound p (countDeckOp a0 s) := by
  intro a0 s h0
  unfold countDeckOp
  repeat' with_reducible first
    | assumption | rfl | intro _ | apply updDeck_sound

theorem sendTransfer_sound {p : Part} : ∀ a0 a1 a2 a3 s, Sound p s → Sound p (sendTransfer a0 a1 a2 a3 s) := by
  intro a0 a1 a2 a3 s h0
  unfold sendTransfer
  repeat' with_reducible first
    | assumption | rfl | intro _ | apply updTask_sound | refine sound_parts ?_ ?_ ?_ | dsimp only [sound_mk_eq]

end Sys2Proof.Machine
end

