-- ==== Sys2Proof/Laws/Sound/Operands.lean ====
section
/-!
SUPPORT. Laws/Sound/Operands.lean: what Machine/Operands.lean does keeps a state sound (Sys2Proof.Sound): memory canonical, the record
queue bounded, the part unchanged.
-/

namespace Sys2Proof.Machine

theorem readElem_sound {p : Part} : ∀ a0 a1 a2 a3 s, Sound p s → Sound p (readElem a0 a1 a2 a3 s).2 := by
  intro a0 a1 a2 a3 s h0
  unfold readElem
  repeat' with_reducible first
    | assumption | rfl | intro _ | apply Reply.andThen_sound | apply fieldRead_sound

theorem writeElem_sound {p : Part} : ∀ a0 a1 a2 a3 a4 s, Sound p s → Sound p (writeElem a0 a1 a2 a3 a4 s).2 := by
  intro a0 a1 a2 a3 a4 s h0
  unfold writeElem
  repeat' with_reducible first
    | assumption | rfl | intro _ | apply fieldWrite_sound | apply Reply.andThen_sound | apply fieldRead_sound
    | refine sound_parts ?_ ?_ ?_ | dsimp only [sound_mk_eq] | split

theorem DCtx.loadLane_sound {p : Part} : ∀ a0 a1 a2 a3 s, Sound p s → Sound p (DCtx.loadLane a0 a1 a2 a3 s).2 := by
  intro a0 a1 a2 a3 s h0
  unfold DCtx.loadLane
  repeat' with_reducible first
    | assumption | rfl | intro _ | apply Reply.andThen_sound | apply readElem_sound | apply fieldRead_sound
    | refine sound_parts ?_ ?_ ?_ | dsimp only [sound_mk_eq] | split

theorem addCounts_sound {p : Part} : ∀ a0 a1 s, Sound p s → Sound p (addCounts a0 a1 s) := by
  intro a0 a1 s h0
  unfold addCounts
  repeat' with_reducible first
    | assumption | rfl | intro _ | apply updBenchState_sound

theorem readAppends_sound {p : Part} : ∀ a0 a1 a2 s, Sound p s → Sound p (readAppends a0 a1 a2 s).2 := by
  intro a0 a1 a2 s h0
  fun_induction readAppends a0 a1 a2 s
  all_goals repeat' with_reducible first
    | assumption | rfl | intro _ | apply Reply.andThen_sound | apply fieldRead_sound | refine sound_parts ?_ ?_ ?_
    | apply_assumption -exfalso -symm

theorem noteRunEnd_sound {p : Part} : ∀ a0 a1 s, Sound p s → Sound p (noteRunEnd a0 a1 s) := by
  intro a0 a1 s h0
  unfold noteRunEnd
  repeat' with_reducible first
    | assumption | rfl | intro _ | apply updBenchState_sound

theorem touchSeq_sound {p : Part} : ∀ a0 a1 s, Sound p s → Sound p (touchSeq a0 a1 s) := by
  intro a0 a1 s h0
  unfold touchSeq
  repeat' with_reducible first
    | assumption | rfl | intro _ | apply updBenchState_sound

theorem deckUnits_sound {p : Part} : ∀ a0 a1 a2 a3 a4 a5 a6 s, Sound p s → Sound p (deckUnits a0 a1 a2 a3 a4 a5 a6 s).2 := by
  intro a0 a1 a2 a3 a4 a5 a6 s h0
  fun_induction deckUnits a0 a1 a2 a3 a4 a5 a6 s
  all_goals repeat' with_reducible first
    | assumption | rfl | intro _ | apply Reply.andThen_sound | apply rowWrite_sound | apply unitRead_sound

theorem DCtx.deckRow_sound {p : Part} : ∀ a0 a1 a2 a3 a4 s, Sound p s → Sound p (DCtx.deckRow a0 a1 a2 a3 a4 s).2 := by
  intro a0 a1 a2 a3 a4 s h0
  unfold DCtx.deckRow
  repeat' with_reducible first
    | assumption | rfl | intro _ | apply noteRunEnd_sound | apply deckUnits_sound | apply touchSeq_sound | apply foldl_sound
    | apply foldl_snd_sound | refine sound_parts ?_ ?_ ?_ | refine sound_of_snd_snd (by assumption) ?_
    | refine sound_of_snd (by assumption) ?_ | dsimp only [sound_mk_eq] | split

theorem DCtx.storeElem_sound {p : Part} : ∀ a0 a1 a2 a3 a4 s, Sound p s → Sound p (DCtx.storeElem a0 a1 a2 a3 a4 s).2 := by
  intro a0 a1 a2 a3 a4 s h0
  unfold DCtx.storeElem
  repeat' with_reducible first
    | assumption | rfl | intro _ | apply writeElem_sound | refine sound_parts ?_ ?_ ?_
    | refine sound_of_snd_snd (by assumption) ?_ | refine sound_of_snd (by assumption) ?_ | dsimp only [sound_mk_eq] | split

theorem DCtx.storeElems_sound {p : Part} : ∀ a0 a1 a2 a3 s, Sound p s → Sound p (DCtx.storeElems a0 a1 a2 a3 s).2 := by
  intro a0 a1 a2 a3 s h0
  fun_induction DCtx.storeElems a0 a1 a2 a3 s
  all_goals repeat' with_reducible first
    | assumption | rfl | intro _ | apply Reply.andThen_sound | apply DCtx.storeElem_sound

theorem padNibbles_sound {p : Part} : ∀ a0 a1 a2 s, Sound p s → Sound p (padNibbles a0 a1 a2 s).2 := by
  intro a0 a1 a2 s h0
  unfold padNibbles
  repeat' with_reducible first
    | assumption | rfl | intro _ | apply drawFree_sound | refine sound_parts ?_ ?_ ?_ | dsimp only [sound_mk_eq] | split

theorem DCtx.storeRow_sound {p : Part} : ∀ a0 a1 a2 a3 a4 s, Sound p s → Sound p (DCtx.storeRow a0 a1 a2 a3 a4 s).2 := by
  intro a0 a1 a2 a3 a4 s h0
  unfold DCtx.storeRow
  repeat' with_reducible first
    | assumption | rfl | intro _ | apply DCtx.storeElems_sound | apply padNibbles_sound | apply sendTransfer_sound
    | apply DCtx.deckRow_sound | apply foldl_sound | apply foldl_snd_sound | refine sound_parts ?_ ?_ ?_
    | refine sound_of_snd_snd (by assumption) ?_ | refine sound_of_snd (by assumption) ?_ | dsimp only [sound_mk_eq] | split

theorem DCtx.storeRows_sound {p : Part} : ∀ a0 a1 a2 a3 s, Sound p s → Sound p (DCtx.storeRows a0 a1 a2 a3 s).2 := by
  intro a0 a1 a2 a3 s h0
  fun_induction DCtx.storeRows a0 a1 a2 a3 s
  all_goals repeat' with_reducible first
    | assumption | rfl | intro _ | apply Reply.andThen_sound | apply DCtx.storeRow_sound

theorem DCtx.storeMx_sound {p : Part} : ∀ a0 a1 a2 a3 a4 a5 s, Sound p s → Sound p (DCtx.storeMx a0 a1 a2 a3 a4 a5 s).2 := by
  intro a0 a1 a2 a3 a4 a5 s h0
  unfold DCtx.storeMx
  repeat' with_reducible first
    | assumption | rfl | intro _ | apply Reply.andThen_sound | apply fieldWrite_sound

end Sys2Proof.Machine
end

