-- ==== Sys2Proof/Laws/Sound/Dresser.lean ====
section
/-!
SUPPORT. Laws/Sound/Dresser.lean: what Machine/Dresser.lean does keeps a state sound (Sys2Proof.Sound): memory canonical, the record
queue bounded, the part unchanged.
-/

namespace Sys2Proof.Machine

theorem endRun_sound {p : Part} : ∀ a0 a1 s, Sound p s → Sound p (endRun a0 a1 s) := by
  intro a0 a1 s h0
  unfold endRun
  repeat' with_reducible first
    | assumption | rfl | intro _ | apply failAs_sound

theorem leaveDresser_sound {p : Part} : ∀ a0 s, Sound p s → Sound p (leaveDresser a0 s) := by
  intro a0 s h0
  unfold leaveDresser
  repeat' with_reducible first
    | assumption | rfl | intro _ | apply takeVector_sound | apply updBenchState_sound

theorem settleRun_sound {p : Part} : ∀ a0 s, Sound p s → Sound p (settleRun a0 s) := by
  intro a0 s h0
  unfold settleRun
  repeat' with_reducible first
    | assumption | rfl | intro _ | apply endRun_sound | apply settleStop_sound | apply leaveDresser_sound
    | apply markWorkDone_sound | refine sound_parts ?_ ?_ ?_ | refine sound_of_snd_snd (by assumption) ?_
    | refine sound_of_snd (by assumption) ?_ | dsimp only [sound_mk_eq] | split

theorem pastInstr_sound {p : Part} : ∀ a0 a1 s, Sound p s → Sound p (pastInstr a0 a1 s) := by
  intro a0 a1 s h0
  unfold pastInstr
  repeat' with_reducible first
    | assumption | rfl | intro _ | apply settleRun_sound | apply updBenchState_sound

theorem beginAppends_sound {p : Part} : ∀ a0 s, Sound p s → Sound p (beginAppends a0 s).2 := by
  intro a0 s h0
  unfold beginAppends
  repeat' with_reducible first
    | assumption | rfl | intro _ | apply Reply.andThen_sound | apply readAppends_sound | apply updBenchState_sound
    | refine sound_parts ?_ ?_ ?_ | dsimp only [sound_mk_eq] | split

theorem parityPoint_sound {p : Part} : ∀ a0 s, Sound p s → Sound p (parityPoint a0 s) := by
  intro a0 s h0
  unfold parityPoint
  repeat' with_reducible first
    | assumption | rfl | intro _ | apply benchInject_sound | apply dresserError_sound | refine sound_parts ?_ ?_ ?_
    | dsimp only [sound_mk_eq] | split

theorem endOfRun_sound {p : Part} : ∀ a0 a1 a2 a3 a4 s, Sound p s → Sound p (endOfRun a0 a1 a2 a3 a4 s) := by
  intro a0 a1 a2 a3 a4 s h0
  unfold endOfRun
  repeat' with_reducible first
    | assumption | rfl | intro _ | apply endEntry_sound | apply failTask_sound | refine sound_parts ?_ ?_ ?_
    | dsimp only [sound_mk_eq] | split

theorem openBlock_sound {p : Part} : ∀ a0 s, Sound p s → Sound p (openBlock a0 s) := by
  intro a0 s h0
  unfold openBlock
  repeat' with_reducible first
    | assumption | rfl | intro _ | apply updBenchState_sound

theorem dresserStep_sound {p : Part} : ∀ a0 a1 a2 s,
    (∀ x0 x1 t, Sound p t → Sound p (a1 x0 x1 t).2) → Sound p s → Sound p (dresserStep a0 a1 a2 s) := by
  intro a0 a1 a2 s h0 h1
  unfold dresserStep
  repeat' with_reducible first
    | assumption | rfl | intro _ | apply h0 | apply beginAppends_sound | apply blockTask_sound | apply endOfRun_sound
    | apply settleRun_sound | apply parityPoint_sound | apply openBlock_sound | apply pastInstr_sound
    | refine sound_parts ?_ ?_ ?_ | refine sound_of_snd_snd (by assumption) ?_ | refine sound_of_snd (by assumption) ?_
    | dsimp only [sound_mk_eq] | split

theorem onRegs_sound {p : Part} : ∀ a0 a1 a2 s, Sound p s → Sound p (onRegs a0 a1 a2 s).2 := by
  intro a0 a1 a2 s h0
  unfold onRegs
  repeat' with_reducible first
    | assumption

theorem lanes2_sound {p : Part} : ∀ a0 a1 a2 s, Sound p s → Sound p (lanes2 a0 a1 a2 s).2 := by
  intro a0 a1 a2 s h0
  unfold lanes2
  repeat' with_reducible first
    | assumption | rfl | intro _ | apply onRegs_sound

theorem lanes1_sound {p : Part} : ∀ a0 a1 a2 s, Sound p s → Sound p (lanes1 a0 a1 a2 s).2 := by
  intro a0 a1 a2 s h0
  unfold lanes1
  repeat' with_reducible first
    | assumption | rfl | intro _ | apply onRegs_sound

theorem loadInto_sound {p : Part} : ∀ a0 a1 a2 a3 s,
    (∀ x0 t, Sound p t → Sound p (a1 x0 t).2) → Sound p s → Sound p (loadInto a0 a1 a2 a3 s).2 := by
  intro a0 a1 a2 a3 s h0 h1
  fun_induction loadInto a0 a1 a2 a3 s
  all_goals repeat' with_reducible first
    | assumption | rfl | intro _ | apply h0 | apply Reply.andThen_sound

theorem loadEffect_sound {p : Part} : ∀ a0 a1 s, Sound p s → Sound p (loadEffect a0 a1 s).2 := by
  intro a0 a1 s h0
  unfold loadEffect
  repeat' with_reducible first
    | assumption | rfl | intro _ | apply loadInto_sound | apply DCtx.loadLane_sound

theorem sloadEffect_sound {p : Part} : ∀ a0 a1 s, Sound p s → Sound p (sloadEffect a0 a1 s).2 := by
  intro a0 a1 s h0
  unfold sloadEffect
  repeat' with_reducible first
    | assumption | rfl | intro _ | apply loadInto_sound | apply DCtx.loadLane_sound

theorem loadskidEffect_sound {p : Part} : ∀ a0 a1 s, Sound p s → Sound p (loadskidEffect a0 a1 s).2 := by
  intro a0 a1 s h0
  unfold loadskidEffect
  repeat' with_reducible first
    | assumption | rfl | intro _ | refine sound_parts ?_ ?_ ?_ | refine sound_of_snd_snd (by assumption) ?_
    | refine sound_of_snd (by assumption) ?_ | dsimp only [sound_mk_eq] | split

theorem DCtx.storeScalar_sound {p : Part} : ∀ a0 a1 a2 a3 s, Sound p s → Sound p (DCtx.storeScalar a0 a1 a2 a3 s).2 := by
  intro a0 a1 a2 a3 s h0
  unfold DCtx.storeScalar
  repeat' with_reducible first
    | assumption | rfl | intro _ | apply DCtx.storeRows_sound

theorem DCtx.storeMxLines_sound {p : Part} : ∀ a0 a1 a2 s, Sound p s → Sound p (DCtx.storeMxLines a0 a1 a2 s).2 := by
  intro a0 a1 a2 s h0
  fun_induction DCtx.storeMxLines a0 a1 a2 s
  all_goals repeat' with_reducible first
    | assumption | rfl | intro _ | apply Reply.andThen_sound | apply DCtx.storeMx_sound

theorem DCtx.storeAll_sound {p : Part} : ∀ a0 a1 a2 a3 s, Sound p s → Sound p (DCtx.storeAll a0 a1 a2 a3 s).2 := by
  intro a0 a1 a2 a3 s h0
  unfold DCtx.storeAll
  repeat' with_reducible first
    | assumption | rfl | intro _ | apply DCtx.storeMxLines_sound | apply DCtx.storeScalar_sound | refine sound_parts ?_ ?_ ?_
    | dsimp only [sound_mk_eq] | split

theorem DCtx.counted_sound {p : Part} : ∀ a0 a1 a2 a3, Sound p a3.2 → Sound p (DCtx.counted a0 a1 a2 a3).2 := by
  intro a0 a1 a2 a3 h0
  unfold DCtx.counted
  repeat' with_reducible first
    | assumption | rfl | intro _ | apply Reply.andThen_sound | apply addCounts_sound

theorem holdBlock_sound {p : Part} : ∀ a0 a1 s, Sound p s → Sound p (holdBlock a0 a1 s) := by
  intro a0 a1 s h0
  unfold holdBlock
  repeat' with_reducible first
    | assumption | rfl | intro _ | apply updBenchState_sound

theorem storeEffect_sound {p : Part} : ∀ a0 a1 s, Sound p s → Sound p (storeEffect a0 a1 s).2 := by
  intro a0 a1 s h0
  unfold storeEffect
  repeat' with_reducible first
    | assumption | rfl | intro _ | apply holdBlock_sound | apply DCtx.counted_sound | apply DCtx.storeMxLines_sound
    | apply DCtx.storeScalar_sound | refine sound_parts ?_ ?_ ?_ | dsimp only [sound_mk_eq] | split

theorem sstoreEffect_sound {p : Part} : ∀ a0 a1 s, Sound p s → Sound p (sstoreEffect a0 a1 s).2 := by
  intro a0 a1 s h0
  unfold sstoreEffect
  repeat' with_reducible first
    | assumption | rfl | intro _ | apply DCtx.counted_sound | apply DCtx.storeAll_sound

theorem DCtx.gatherLane_sound {p : Part} : ∀ a0 a1 a2 s, Sound p s → Sound p (DCtx.gatherLane a0 a1 a2 s).2 := by
  intro a0 a1 a2 s h0
  unfold DCtx.gatherLane
  repeat' with_reducible first
    | assumption | rfl | intro _ | apply Reply.andThen_sound | apply readElem_sound | apply fieldRead_sound
    | refine sound_parts ?_ ?_ ?_ | refine sound_of_snd_snd (by assumption) ?_ | refine sound_of_snd (by assumption) ?_
    | dsimp only [sound_mk_eq] | split

theorem gatherEffect_sound {p : Part} : ∀ a0 a1 s, Sound p s → Sound p (gatherEffect a0 a1 s).2 := by
  intro a0 a1 s h0
  unfold gatherEffect
  repeat' with_reducible first
    | assumption | rfl | intro _ | apply loadInto_sound | apply DCtx.gatherLane_sound

theorem DCtx.scatterLane_sound {p : Part} : ∀ a0 a1 a2 s, Sound p s → Sound p (DCtx.scatterLane a0 a1 a2 s).2 := by
  intro a0 a1 a2 s h0
  unfold DCtx.scatterLane
  repeat' with_reducible first
    | assumption | rfl | intro _ | apply Reply.andThen_sound | apply fieldWrite_sound | apply writeElem_sound
    | refine sound_parts ?_ ?_ ?_ | refine sound_of_snd_snd (by assumption) ?_ | refine sound_of_snd (by assumption) ?_
    | dsimp only [sound_mk_eq] | split

theorem DCtx.scatterLanes_sound {p : Part} : ∀ a0 a1 a2 s, Sound p s → Sound p (DCtx.scatterLanes a0 a1 a2 s).2 := by
  intro a0 a1 a2 s h0
  fun_induction DCtx.scatterLanes a0 a1 a2 s
  all_goals repeat' with_reducible first
    | assumption | rfl | intro _ | apply Reply.andThen_sound | apply DCtx.scatterLane_sound

theorem scatterEffect_sound {p : Part} : ∀ a0 a1 s, Sound p s → Sound p (scatterEffect a0 a1 s).2 := by
  intro a0 a1 s h0
  unfold scatterEffect
  repeat' with_reducible first
    | assumption | rfl | intro _ | apply DCtx.counted_sound | apply DCtx.scatterLanes_sound

theorem readWords_sound {p : Part} : ∀ a0 a1 a2 s, Sound p s → Sound p (readWords a0 a1 a2 s).2 := by
  intro a0 a1 a2 s h0
  fun_induction readWords a0 a1 a2 s
  all_goals repeat' with_reducible first
    | assumption | rfl | intro _ | apply Reply.andThen_sound | apply translatePieces_sound | apply fieldRead_sound
    | refine sound_parts ?_ ?_ ?_ | apply_assumption -exfalso -symm | dsimp only [sound_mk_eq]
    | dsimp +zetaDelta only [sound_mk_eq] | split

theorem contestedSums_sound {p : Part} : ∀ a0 a1 a2 s, Sound p s → Sound p (contestedSums a0 a1 a2 s).2 := by
  intro a0 a1 a2 s h0
  fun_induction contestedSums a0 a1 a2 s
  all_goals repeat' with_reducible first
    | assumption | rfl | intro _ | apply drawFree_sound | refine sound_parts ?_ ?_ ?_ | apply_assumption -exfalso -symm

theorem noteScatAdds_sound {p : Part} : ∀ a0 a1 a2 s, Sound p s → Sound p (noteScatAdds a0 a1 a2 s) := by
  intro a0 a1 a2 s h0
  unfold noteScatAdds
  repeat' with_reducible first
    | assumption | rfl | intro _ | refine sound_parts ?_ ?_ ?_ | dsimp only [sound_mk_eq]

theorem scataddEffect_sound {p : Part} : ∀ a0 a1 s, Sound p s → Sound p (scataddEffect a0 a1 s).2 := by
  intro a0 a1 s h0
  unfold scataddEffect
  repeat' with_reducible first
    | assumption | rfl | intro _ | apply Reply.andThen_sound | apply readWords_sound | apply contestedSums_sound
    | apply writeAll_sound | apply noteScatAdds_sound | apply addCounts_sound

theorem iotaEffect_sound {p : Part} : ∀ a0 a1 s, Sound p s → Sound p (iotaEffect a0 a1 s).2 := by
  intro a0 a1 s h0
  unfold iotaEffect
  repeat' with_reducible first
    | assumption | rfl | intro _ | apply onRegs_sound

theorem selectEffect_sound {p : Part} : ∀ a0 a1 s, Sound p s → Sound p (selectEffect a0 a1 s).2 := by
  intro a0 a1 s h0
  unfold selectEffect
  repeat' with_reducible first
    | assumption | rfl | intro _ | apply onRegs_sound

theorem ropeEffect_sound {p : Part} : ∀ a0 a1 s, Sound p s → Sound p (ropeEffect a0 a1 s).2 := by
  intro a0 a1 s h0
  unfold ropeEffect
  repeat' with_reducible first
    | assumption | rfl | intro _ | apply onRegs_sound

theorem cmpEffect_sound {p : Part} : ∀ a0 a1 s, Sound p s → Sound p (cmpEffect a0 a1 s).2 := by
  intro a0 a1 s h0
  unfold cmpEffect
  repeat' with_reducible first
    | assumption | rfl | intro _ | apply onRegs_sound

theorem maskEffect_sound {p : Part} : ∀ a0 a1 a2 s, Sound p s → Sound p (maskEffect a0 a1 a2 s).2 := by
  intro a0 a1 a2 s h0
  unfold maskEffect
  repeat' with_reducible first
    | assumption | rfl | intro _ | apply onRegs_sound

theorem cvtfEffect_sound {p : Part} : ∀ a0 a1 s, Sound p s → Sound p (cvtfEffect a0 a1 s).2 := by
  intro a0 a1 s h0
  unfold cvtfEffect
  repeat' with_reducible first
    | assumption | rfl | intro _ | apply addCounts_sound

theorem rsumEffect_sound {p : Part} : ∀ a0 a1 s, Sound p s → Sound p (rsumEffect a0 a1 s).2 := by
  intro a0 a1 s h0
  unfold rsumEffect
  repeat' with_reducible first
    | assumption | rfl | intro _ | apply onRegs_sound

theorem rmaxEffect_sound {p : Part} : ∀ a0 a1 s, Sound p s → Sound p (rmaxEffect a0 a1 s).2 := by
  intro a0 a1 s h0
  unfold rmaxEffect
  repeat' with_reducible first
    | assumption | rfl | intro _ | apply onRegs_sound

theorem rminEffect_sound {p : Part} : ∀ a0 a1 s, Sound p s → Sound p (rminEffect a0 a1 s).2 := by
  intro a0 a1 s h0
  unfold rminEffect
  repeat' with_reducible first
    | assumption | rfl | intro _ | apply onRegs_sound

theorem topkClearEffect_sound {p : Part} : ∀ a0 a1 s, Sound p s → Sound p (topkClearEffect a0 a1 s).2 := by
  intro a0 a1 s h0
  unfold topkClearEffect
  repeat' with_reducible first
    | assumption | rfl | intro _ | apply onRegs_sound

theorem topkEffect_sound {p : Part} : ∀ a0 a1 s, Sound p s → Sound p (topkEffect a0 a1 s).2 := by
  intro a0 a1 s h0
  unfold topkEffect
  repeat' with_reducible first
    | assumption | rfl | intro _ | apply onRegs_sound

theorem topkEmitEffect_sound {p : Part} : ∀ a0 a1 s, Sound p s → Sound p (topkEmitEffect a0 a1 s).2 := by
  intro a0 a1 s h0
  unfold topkEmitEffect
  repeat' with_reducible first
    | assumption | rfl | intro _ | apply DCtx.storeAll_sound | apply DCtx.counted_sound | apply Reply.andThen_sound
    | refine sound_parts ?_ ?_ ?_ | dsimp only [sound_mk_eq] | split

theorem execNop_sound {p : Part} : ∀ a0 s, Sound p s → SoundAnswer p (execNop a0 s) := by
  intro a0 s h0
  unfold execNop
  repeat' with_reducible first
    | assumption | rfl | intro _ | apply dresserStep_sound | apply onRegs_sound | apply soundAnswer_next

theorem execLoad_sound {p : Part} : ∀ a0 s, Sound p s → SoundAnswer p (execLoad a0 s) := by
  intro a0 s h0
  unfold execLoad
  repeat' with_reducible first
    | assumption | rfl | intro _ | apply dresserStep_sound | apply loadEffect_sound | apply soundAnswer_next

theorem execLoadskid_sound {p : Part} : ∀ a0 s, Sound p s → SoundAnswer p (execLoadskid a0 s) := by
  intro a0 s h0
  unfold execLoadskid
  repeat' with_reducible first
    | assumption | rfl | intro _ | apply dresserStep_sound | apply loadskidEffect_sound | apply soundAnswer_next

theorem execStore_sound {p : Part} : ∀ a0 s, Sound p s → SoundAnswer p (execStore a0 s) := by
  intro a0 s h0
  unfold execStore
  repeat' with_reducible first
    | assumption | rfl | intro _ | apply dresserStep_sound | apply storeEffect_sound | apply soundAnswer_next

theorem execSload_sound {p : Part} : ∀ a0 s, Sound p s → SoundAnswer p (execSload a0 s) := by
  intro a0 s h0
  unfold execSload
  repeat' with_reducible first
    | assumption | rfl | intro _ | apply dresserStep_sound | apply sloadEffect_sound | apply soundAnswer_next

theorem execSstore_sound {p : Part} : ∀ a0 s, Sound p s → SoundAnswer p (execSstore a0 s) := by
  intro a0 s h0
  unfold execSstore
  repeat' with_reducible first
    | assumption | rfl | intro _ | apply dresserStep_sound | apply sstoreEffect_sound | apply soundAnswer_next

theorem execGather_sound {p : Part} : ∀ a0 s, Sound p s → SoundAnswer p (execGather a0 s) := by
  intro a0 s h0
  unfold execGather
  repeat' with_reducible first
    | assumption | rfl | intro _ | apply dresserStep_sound | apply gatherEffect_sound | apply soundAnswer_next

theorem execScatter_sound {p : Part} : ∀ a0 s, Sound p s → SoundAnswer p (execScatter a0 s) := by
  intro a0 s h0
  unfold execScatter
  repeat' with_reducible first
    | assumption | rfl | intro _ | apply dresserStep_sound | apply scatterEffect_sound | apply soundAnswer_next

theorem execScatadd_sound {p : Part} : ∀ a0 s, Sound p s → SoundAnswer p (execScatadd a0 s) := by
  intro a0 s h0
  unfold execScatadd
  repeat' with_reducible first
    | assumption | rfl | intro _ | apply dresserStep_sound | apply scataddEffect_sound | apply soundAnswer_next

theorem execMov_sound {p : Part} : ∀ a0 s, Sound p s → SoundAnswer p (execMov a0 s) := by
  intro a0 s h0
  unfold execMov
  repeat' with_reducible first
    | assumption | rfl | intro _ | apply dresserStep_sound | apply onRegs_sound | apply soundAnswer_next

theorem execIota_sound {p : Part} : ∀ a0 s, Sound p s → SoundAnswer p (execIota a0 s) := by
  intro a0 s h0
  unfold execIota
  repeat' with_reducible first
    | assumption | rfl | intro _ | apply dresserStep_sound | apply iotaEffect_sound | apply soundAnswer_next

theorem execSelect_sound {p : Part} : ∀ a0 s, Sound p s → SoundAnswer p (execSelect a0 s) := by
  intro a0 s h0
  unfold execSelect
  repeat' with_reducible first
    | assumption | rfl | intro _ | apply dresserStep_sound | apply selectEffect_sound | apply soundAnswer_next

theorem execAdd_sound {p : Part} : ∀ a0 s, Sound p s → SoundAnswer p (execAdd a0 s) := by
  intro a0 s h0
  unfold execAdd
  repeat' with_reducible first
    | assumption | rfl | intro _ | apply dresserStep_sound | apply lanes2_sound | apply soundAnswer_next

theorem execSub_sound {p : Part} : ∀ a0 s, Sound p s → SoundAnswer p (execSub a0 s) := by
  intro a0 s h0
  unfold execSub
  repeat' with_reducible first
    | assumption | rfl | intro _ | apply dresserStep_sound | apply lanes2_sound | apply soundAnswer_next

theorem execMul_sound {p : Part} : ∀ a0 s, Sound p s → SoundAnswer p (execMul a0 s) := by
  intro a0 s h0
  unfold execMul
  repeat' with_reducible first
    | assumption | rfl | intro _ | apply dresserStep_sound | apply lanes2_sound | apply soundAnswer_next

theorem execFma_sound {p : Part} : ∀ a0 s, Sound p s → SoundAnswer p (execFma a0 s) := by
  intro a0 s h0
  unfold execFma
  repeat' with_reducible first
    | assumption | rfl | intro _ | apply dresserStep_sound | apply onRegs_sound | apply soundAnswer_next

theorem execMin_sound {p : Part} : ∀ a0 s, Sound p s → SoundAnswer p (execMin a0 s) := by
  intro a0 s h0
  unfold execMin
  repeat' with_reducible first
    | assumption | rfl | intro _ | apply dresserStep_sound | apply lanes2_sound | apply soundAnswer_next

theorem execMax_sound {p : Part} : ∀ a0 s, Sound p s → SoundAnswer p (execMax a0 s) := by
  intro a0 s h0
  unfold execMax
  repeat' with_reducible first
    | assumption | rfl | intro _ | apply dresserStep_sound | apply lanes2_sound | apply soundAnswer_next

theorem execAbs_sound {p : Part} : ∀ a0 s, Sound p s → SoundAnswer p (execAbs a0 s) := by
  intro a0 s h0
  unfold execAbs
  repeat' with_reducible first
    | assumption | rfl | intro _ | apply dresserStep_sound | apply lanes1_sound | apply soundAnswer_next

theorem execNeg_sound {p : Part} : ∀ a0 s, Sound p s → SoundAnswer p (execNeg a0 s) := by
  intro a0 s h0
  unfold execNeg
  repeat' with_reducible first
    | assumption | rfl | intro _ | apply dresserStep_sound | apply lanes1_sound | apply soundAnswer_next

theorem execClamp_sound {p : Part} : ∀ a0 s, Sound p s → SoundAnswer p (execClamp a0 s) := by
  intro a0 s h0
  unfold execClamp
  repeat' with_reducible first
    | assumption | rfl | intro _ | apply dresserStep_sound | apply onRegs_sound | apply soundAnswer_next

theorem execRcp_sound {p : Part} : ∀ a0 s, Sound p s → SoundAnswer p (execRcp a0 s) := by
  intro a0 s h0
  unfold execRcp
  repeat' with_reducible first
    | assumption | rfl | intro _ | apply dresserStep_sound | apply lanes1_sound | apply soundAnswer_next

theorem execSqrt_sound {p : Part} : ∀ a0 s, Sound p s → SoundAnswer p (execSqrt a0 s) := by
  intro a0 s h0
  unfold execSqrt
  repeat' with_reducible first
    | assumption | rfl | intro _ | apply dresserStep_sound | apply lanes1_sound | apply soundAnswer_next

theorem execRsqrt_sound {p : Part} : ∀ a0 s, Sound p s → SoundAnswer p (execRsqrt a0 s) := by
  intro a0 s h0
  unfold execRsqrt
  repeat' with_reducible first
    | assumption | rfl | intro _ | apply dresserStep_sound | apply lanes1_sound | apply soundAnswer_next

theorem execExp_sound {p : Part} : ∀ a0 s, Sound p s → SoundAnswer p (execExp a0 s) := by
  intro a0 s h0
  unfold execExp
  repeat' with_reducible first
    | assumption | rfl | intro _ | apply dresserStep_sound | apply lanes1_sound | apply soundAnswer_next

theorem execLog_sound {p : Part} : ∀ a0 s, Sound p s → SoundAnswer p (execLog a0 s) := by
  intro a0 s h0
  unfold execLog
  repeat' with_reducible first
    | assumption | rfl | intro _ | apply dresserStep_sound | apply lanes1_sound | apply soundAnswer_next

theorem execTanh_sound {p : Part} : ∀ a0 s, Sound p s → SoundAnswer p (execTanh a0 s) := by
  intro a0 s h0
  unfold execTanh
  repeat' with_reducible first
    | assumption | rfl | intro _ | apply dresserStep_sound | apply lanes1_sound | apply soundAnswer_next

theorem execSigmoid_sound {p : Part} : ∀ a0 s, Sound p s → SoundAnswer p (execSigmoid a0 s) := by
  intro a0 s h0
  unfold execSigmoid
  repeat' with_reducible first
    | assumption | rfl | intro _ | apply dresserStep_sound | apply lanes1_sound | apply soundAnswer_next

theorem execSilu_sound {p : Part} : ∀ a0 s, Sound p s → SoundAnswer p (execSilu a0 s) := by
  intro a0 s h0
  unfold execSilu
  repeat' with_reducible first
    | assumption | rfl | intro _ | apply dresserStep_sound | apply lanes1_sound | apply soundAnswer_next

theorem execGelu_sound {p : Part} : ∀ a0 s, Sound p s → SoundAnswer p (execGelu a0 s) := by
  intro a0 s h0
  unfold execGelu
  repeat' with_reducible first
    | assumption | rfl | intro _ | apply dresserStep_sound | apply lanes1_sound | apply soundAnswer_next

theorem execRelu_sound {p : Part} : ∀ a0 s, Sound p s → SoundAnswer p (execRelu a0 s) := by
  intro a0 s h0
  unfold execRelu
  repeat' with_reducible first
    | assumption | rfl | intro _ | apply dresserStep_sound | apply lanes1_sound | apply soundAnswer_next

theorem execRope_sound {p : Part} : ∀ a0 s, Sound p s → SoundAnswer p (execRope a0 s) := by
  intro a0 s h0
  unfold execRope
  repeat' with_reducible first
    | assumption | rfl | intro _ | apply dresserStep_sound | apply ropeEffect_sound | apply soundAnswer_next

theorem execDiv_sound {p : Part} : ∀ a0 s, Sound p s → SoundAnswer p (execDiv a0 s) := by
  intro a0 s h0
  unfold execDiv
  repeat' with_reducible first
    | assumption | rfl | intro _ | apply dresserStep_sound | apply lanes2_sound | apply soundAnswer_next

theorem execCmp_sound {p : Part} : ∀ a0 s, Sound p s → SoundAnswer p (execCmp a0 s) := by
  intro a0 s h0
  unfold execCmp
  repeat' with_reducible first
    | assumption | rfl | intro _ | apply dresserStep_sound | apply cmpEffect_sound | apply soundAnswer_next

theorem execMand_sound {p : Part} : ∀ a0 s, Sound p s → SoundAnswer p (execMand a0 s) := by
  intro a0 s h0
  unfold execMand
  repeat' with_reducible first
    | assumption | rfl | intro _ | apply dresserStep_sound | apply maskEffect_sound | apply soundAnswer_next

theorem execMor_sound {p : Part} : ∀ a0 s, Sound p s → SoundAnswer p (execMor a0 s) := by
  intro a0 s h0
  unfold execMor
  repeat' with_reducible first
    | assumption | rfl | intro _ | apply dresserStep_sound | apply maskEffect_sound | apply soundAnswer_next

theorem execMnot_sound {p : Part} : ∀ a0 s, Sound p s → SoundAnswer p (execMnot a0 s) := by
  intro a0 s h0
  unfold execMnot
  repeat' with_reducible first
    | assumption | rfl | intro _ | apply dresserStep_sound | apply maskEffect_sound | apply soundAnswer_next

theorem execIadd_sound {p : Part} : ∀ a0 s, Sound p s → SoundAnswer p (execIadd a0 s) := by
  intro a0 s h0
  unfold execIadd
  repeat' with_reducible first
    | assumption | rfl | intro _ | apply dresserStep_sound | apply lanes2_sound | apply soundAnswer_next

theorem execIsub_sound {p : Part} : ∀ a0 s, Sound p s → SoundAnswer p (execIsub a0 s) := by
  intro a0 s h0
  unfold execIsub
  repeat' with_reducible first
    | assumption | rfl | intro _ | apply dresserStep_sound | apply lanes2_sound | apply soundAnswer_next

theorem execImul_sound {p : Part} : ∀ a0 s, Sound p s → SoundAnswer p (execImul a0 s) := by
  intro a0 s h0
  unfold execImul
  repeat' with_reducible first
    | assumption | rfl | intro _ | apply dresserStep_sound | apply lanes2_sound | apply soundAnswer_next

theorem execImin_sound {p : Part} : ∀ a0 s, Sound p s → SoundAnswer p (execImin a0 s) := by
  intro a0 s h0
  unfold execImin
  repeat' with_reducible first
    | assumption | rfl | intro _ | apply dresserStep_sound | apply lanes2_sound | apply soundAnswer_next

theorem execImax_sound {p : Part} : ∀ a0 s, Sound p s → SoundAnswer p (execImax a0 s) := by
  intro a0 s h0
  unfold execImax
  repeat' with_reducible first
    | assumption | rfl | intro _ | apply dresserStep_sound | apply lanes2_sound | apply soundAnswer_next

theorem execIshr_sound {p : Part} : ∀ a0 s, Sound p s → SoundAnswer p (execIshr a0 s) := by
  intro a0 s h0
  unfold execIshr
  repeat' with_reducible first
    | assumption | rfl | intro _ | apply dresserStep_sound | apply onRegs_sound | apply soundAnswer_next

theorem execCvti_sound {p : Part} : ∀ a0 s, Sound p s → SoundAnswer p (execCvti a0 s) := by
  intro a0 s h0
  unfold execCvti
  repeat' with_reducible first
    | assumption | rfl | intro _ | apply dresserStep_sound | apply lanes1_sound | apply soundAnswer_next

theorem execCvtf_sound {p : Part} : ∀ a0 s, Sound p s → SoundAnswer p (execCvtf a0 s) := by
  intro a0 s h0
  unfold execCvtf
  repeat' with_reducible first
    | assumption | rfl | intro _ | apply dresserStep_sound | apply cvtfEffect_sound | apply soundAnswer_next

theorem execRsum_sound {p : Part} : ∀ a0 s, Sound p s → SoundAnswer p (execRsum a0 s) := by
  intro a0 s h0
  unfold execRsum
  repeat' with_reducible first
    | assumption | rfl | intro _ | apply dresserStep_sound | apply rsumEffect_sound | apply soundAnswer_next

theorem execRmax_sound {p : Part} : ∀ a0 s, Sound p s → SoundAnswer p (execRmax a0 s) := by
  intro a0 s h0
  unfold execRmax
  repeat' with_reducible first
    | assumption | rfl | intro _ | apply dresserStep_sound | apply rmaxEffect_sound | apply soundAnswer_next

theorem execRmin_sound {p : Part} : ∀ a0 s, Sound p s → SoundAnswer p (execRmin a0 s) := by
  intro a0 s h0
  unfold execRmin
  repeat' with_reducible first
    | assumption | rfl | intro _ | apply dresserStep_sound | apply rminEffect_sound | apply soundAnswer_next

theorem execTopkClear_sound {p : Part} : ∀ a0 s, Sound p s → SoundAnswer p (execTopkClear a0 s) := by
  intro a0 s h0
  unfold execTopkClear
  repeat' with_reducible first
    | assumption | rfl | intro _ | apply dresserStep_sound | apply topkClearEffect_sound | apply soundAnswer_next

theorem execTopk_sound {p : Part} : ∀ a0 s, Sound p s → SoundAnswer p (execTopk a0 s) := by
  intro a0 s h0
  unfold execTopk
  repeat' with_reducible first
    | assumption | rfl | intro _ | apply dresserStep_sound | apply topkEffect_sound | apply soundAnswer_next

theorem execTopkEmit_sound {p : Part} : ∀ a0 s, Sound p s → SoundAnswer p (execTopkEmit a0 s) := by
  intro a0 s h0
  unfold execTopkEmit
  repeat' with_reducible first
    | assumption | rfl | intro _ | apply dresserStep_sound | apply topkEmitEffect_sound | apply soundAnswer_next

end Sys2Proof.Machine
end

