-- ==== Sys2Proof/Laws/Sound/Rings.lean ====
section
/-!
SUPPORT. Laws/Sound/Rings.lean: what Machine/Rings.lean does keeps a state sound (Sys2Proof.Sound): memory canonical, the record
queue bounded, the part unchanged.
-/

namespace Sys2Proof.Machine

theorem doorbell_sound {p : Part} : ∀ a0 a1 s, Sound p s → Sound p (doorbell a0 a1 s) := by
  intro a0 a1 s h0
  unfold doorbell
  repeat' with_reducible first
    | assumption | rfl | intro _ | apply updRing_sound | apply failRing_sound | refine sound_parts ?_ ?_ ?_
    | refine sound_of_snd_snd (by assumption) ?_ | refine sound_of_snd (by assumption) ?_ | dsimp only [sound_mk_eq] | split

theorem execRingDoorbell_sound {p : Part} : ∀ a0 a1 s, Sound p s → SoundAnswer p (execRingDoorbell a0 a1 s) := by
  intro a0 a1 s h0
  unfold execRingDoorbell
  repeat' with_reducible first
    | assumption | rfl | intro _ | apply doorbell_sound | apply soundAnswer_next

theorem ringEnable_sound {p : Part} : ∀ a0 s, Sound p s → Sound p (ringEnable a0 s) := by
  intro a0 s h0
  unfold ringEnable
  repeat' with_reducible first
    | assumption | rfl | intro _ | apply updRing_sound | apply report_sound | refine sound_parts ?_ ?_ ?_
    | dsimp only [sound_mk_eq] | split

theorem execRingEnable_sound {p : Part} : ∀ a0 s, Sound p s → SoundAnswer p (execRingEnable a0 s) := by
  intro a0 s h0
  unfold execRingEnable
  repeat' with_reducible first
    | assumption | rfl | intro _ | apply ringEnable_sound | apply soundAnswer_next

theorem ringPause_sound {p : Part} : ∀ a0 s, Sound p s → Sound p (ringPause a0 s) := by
  intro a0 s h0
  unfold ringPause
  repeat' with_reducible first
    | assumption | rfl | intro _ | apply updRing_sound | apply noteClocks_sound | refine sound_parts ?_ ?_ ?_
    | refine sound_of_snd_snd (by assumption) ?_ | refine sound_of_snd (by assumption) ?_ | dsimp only [sound_mk_eq] | split

theorem execRingPause_sound {p : Part} : ∀ a0 s, Sound p s → SoundAnswer p (execRingPause a0 s) := by
  intro a0 s h0
  unfold execRingPause
  repeat' with_reducible first
    | assumption | rfl | intro _ | apply ringPause_sound | apply soundAnswer_next

theorem ringResume_sound {p : Part} : ∀ a0 s, Sound p s → Sound p (ringResume a0 s) := by
  intro a0 s h0
  unfold ringResume
  repeat' with_reducible first
    | assumption | rfl | intro _ | apply preloadBenches_sound | apply updRing_sound | refine sound_parts ?_ ?_ ?_
    | dsimp only [sound_mk_eq] | split

theorem execRingResume_sound {p : Part} : ∀ a0 s, Sound p s → SoundAnswer p (execRingResume a0 s) := by
  intro a0 s h0
  unfold execRingResume
  repeat' with_reducible first
    | assumption | rfl | intro _ | apply ringResume_sound | apply soundAnswer_next

theorem retireFailed_sound {p : Part} : ∀ a0 a1 s, Sound p s → Sound p (retireFailed a0 a1 s) := by
  intro a0 a1 s h0
  unfold retireFailed
  repeat' with_reducible first
    | assumption | rfl | intro _ | apply retireTask_sound | apply freeGroup_sound | refine sound_parts ?_ ?_ ?_
    | refine sound_of_snd_snd (by assumption) ?_ | refine sound_of_snd (by assumption) ?_ | dsimp only [sound_mk_eq] | split

theorem acknowledge_sound {p : Part} : ∀ a0 s, Sound p s → Sound p (acknowledge a0 s) := by
  intro a0 s h0
  unfold acknowledge
  repeat' with_reducible first
    | assumption | rfl | intro _ | apply retireFailed_sound | apply preloadBenches_sound | apply updRing_sound
    | refine sound_parts ?_ ?_ ?_ | refine sound_of_snd_snd (by assumption) ?_ | refine sound_of_snd (by assumption) ?_
    | dsimp only [sound_mk_eq] | split

theorem execFailureAcknowledge_sound {p : Part} : ∀ a0 s, Sound p s → SoundAnswer p (execFailureAcknowledge a0 s) := by
  intro a0 s h0
  unfold execFailureAcknowledge
  repeat' with_reducible first
    | assumption | rfl | intro _ | apply acknowledge_sound | apply soundAnswer_next

theorem execTaskStage_sound {p : Part} : ∀ a0 s, Sound p s → SoundAnswer p (execTaskStage a0 s) := by
  intro a0 s h0
  unfold execTaskStage
  repeat' with_reducible first
    | assumption | rfl | intro _ | apply fireInjection_sound | apply tallyStateError_sound | apply stageNext_sound
    | apply soundAnswer_next | apply soundAnswer_fault | refine sound_parts ?_ ?_ ?_ | dsimp only [sound_mk_eq] | split

theorem execCounterChangeObserved_sound {p : Part} : ∀ a0 s, Sound p s → SoundAnswer p (execCounterChangeObserved a0 s) := by
  intro a0 s h0
  unfold execCounterChangeObserved
  repeat' with_reducible first
    | assumption | rfl | intro _ | apply preloadBenches_sound | apply observeCounter_sound | apply soundAnswer_next

theorem fenceTimedOut_sound {p : Part} : ∀ a0 s, Sound p s → Sound p (fenceTimedOut a0 s) := by
  intro a0 s h0
  unfold fenceTimedOut
  repeat' with_reducible first
    | assumption | rfl | intro _ | apply failTask_sound | refine sound_parts ?_ ?_ ?_
    | refine sound_of_snd_snd (by assumption) ?_ | refine sound_of_snd (by assumption) ?_ | dsimp only [sound_mk_eq] | split

theorem guardTimedOut_sound {p : Part} : ∀ a0 s, Sound p s → Sound p (guardTimedOut a0 s) := by
  intro a0 s h0
  unfold guardTimedOut
  repeat' with_reducible first
    | assumption | rfl | intro _ | apply squashGroup_sound | apply reportModule_sound | refine sound_parts ?_ ?_ ?_
    | dsimp only [sound_mk_eq] | split

theorem fenceTimeout_sound {p : Part} : ∀ a0 s, Sound p s → Sound p (fenceTimeout a0 s) := by
  intro a0 s h0
  unfold fenceTimeout
  repeat' with_reducible first
    | assumption | rfl | intro _ | apply guardTimedOut_sound | apply fenceTimedOut_sound | apply failTask_sound
    | refine sound_parts ?_ ?_ ?_ | refine sound_of_snd_snd (by assumption) ?_ | refine sound_of_snd (by assumption) ?_
    | dsimp only [sound_mk_eq] | split

theorem execFenceTimeout_sound {p : Part} : ∀ a0 s, Sound p s → SoundAnswer p (execFenceTimeout a0 s) := by
  intro a0 s h0
  unfold execFenceTimeout
  repeat' with_reducible first
    | assumption | rfl | intro _ | apply preloadBenches_sound | apply fenceTimeout_sound | apply soundAnswer_next

theorem fillStageArea_sound {p : Part} : ∀ a0 s, Sound p s → Sound p (fillStageArea a0 s) := by
  intro a0 s h0
  unfold fillStageArea
  repeat' with_reducible first
    | assumption | rfl | intro _ | apply drawFreeBytes_sound | apply scratchWrite_sound

theorem startArray_sound {p : Part} : ∀ a0 s, Sound p s → Sound p (startArray a0 s) := by
  intro a0 s h0
  unfold startArray
  repeat' with_reducible first
    | assumption | rfl | intro _ | apply updTask_sound | apply fillStageArea_sound | apply updBenchState_sound
    | refine sound_parts ?_ ?_ ?_ | refine sound_of_snd_snd (by assumption) ?_ | refine sound_of_snd (by assumption) ?_
    | dsimp only [sound_mk_eq] | split

theorem startVector_sound {p : Part} : ∀ a0 s, Sound p s → Sound p (startVector a0 s) := by
  intro a0 s h0
  unfold startVector
  repeat' with_reducible first
    | assumption | rfl | intro _ | apply markWorkDone_sound | apply takeVector_sound | refine sound_parts ?_ ?_ ?_
    | refine sound_of_snd_snd (by assumption) ?_ | refine sound_of_snd (by assumption) ?_ | dsimp only [sound_mk_eq] | split

theorem issueTyped_sound {p : Part} : ∀ a0 a1 a2 a3 s,
    (∀ x0 t, Sound p t → Sound p (a1 x0 t)) → Sound p s → Sound p (issueTyped a0 a1 a2 a3 s) := by
  intro a0 a1 a2 a3 s h0 h1
  unfold issueTyped
  repeat' with_reducible first
    | assumption | rfl | intro _ | apply h0 | apply issueBench_sound | refine sound_parts ?_ ?_ ?_
    | refine sound_of_snd_snd (by assumption) ?_ | refine sound_of_snd (by assumption) ?_ | dsimp only [sound_mk_eq] | split

theorem execMatmul_sound {p : Part} : ∀ a0 a1 s, Sound p s → SoundAnswer p (execMatmul a0 a1 s) := by
  intro a0 a1 s h0
  unfold execMatmul
  repeat' with_reducible first
    | assumption | rfl | intro _ | apply issueTyped_sound | apply startArray_sound | apply soundAnswer_next

theorem execSemiring_sound {p : Part} : ∀ a0 a1 s, Sound p s → SoundAnswer p (execSemiring a0 a1 s) := by
  intro a0 a1 s h0
  unfold execSemiring
  repeat' with_reducible first
    | assumption | rfl | intro _ | apply issueTyped_sound | apply startArray_sound | apply soundAnswer_next

theorem execVector_sound {p : Part} : ∀ a0 a1 s, Sound p s → SoundAnswer p (execVector a0 a1 s) := by
  intro a0 a1 s h0
  unfold execVector
  repeat' with_reducible first
    | assumption | rfl | intro _ | apply issueTyped_sound | apply startVector_sound | apply soundAnswer_next

theorem fenceWait_sound {p : Part} : ∀ a0 a1 s, Sound p s → Sound p (fenceWait a0 a1 s) := by
  intro a0 a1 s h0
  unfold fenceWait
  repeat' with_reducible first
    | assumption | rfl | intro _ | apply completeTask_sound | apply observeTask_sound | refine sound_parts ?_ ?_ ?_
    | refine sound_of_snd_snd (by assumption) ?_ | refine sound_of_snd (by assumption) ?_ | dsimp only [sound_mk_eq] | split

theorem execFenceWait_sound {p : Part} : ∀ a0 a1 s, Sound p s → SoundAnswer p (execFenceWait a0 a1 s) := by
  intro a0 a1 s h0
  unfold execFenceWait
  repeat' with_reducible first
    | assumption | rfl | intro _ | apply preloadBenches_sound | apply fenceWait_sound | apply soundAnswer_next

theorem signalWhenRetired_sound {p : Part} : ∀ a0 a1 s, Sound p s → Sound p (signalWhenRetired a0 a1 s) := by
  intro a0 a1 s h0
  unfold signalWhenRetired
  repeat' with_reducible first
    | assumption | rfl | intro _ | apply completeTask_sound | refine sound_parts ?_ ?_ ?_
    | refine sound_of_snd_snd (by assumption) ?_ | refine sound_of_snd (by assumption) ?_ | dsimp only [sound_mk_eq] | split

theorem fenceSignal_sound {p : Part} : ∀ a0 a1 s, Sound p s → Sound p (fenceSignal a0 a1 s) := by
  intro a0 a1 s h0
  unfold fenceSignal
  repeat' with_reducible first
    | assumption | rfl | intro _ | apply signalWhenRetired_sound | apply markIssued_sound | refine sound_parts ?_ ?_ ?_
    | refine sound_of_snd_snd (by assumption) ?_ | refine sound_of_snd (by assumption) ?_ | dsimp only [sound_mk_eq] | split

theorem execFenceSignal_sound {p : Part} : ∀ a0 a1 s, Sound p s → SoundAnswer p (execFenceSignal a0 a1 s) := by
  intro a0 a1 s h0
  unfold execFenceSignal
  repeat' with_reducible first
    | assumption | rfl | intro _ | apply preloadBenches_sound | apply fenceSignal_sound | apply soundAnswer_next

theorem takeLost_sound {p : Part} : ∀ a0 a1 s, Sound p s → Sound p (takeLost a0 a1 s) := by
  intro a0 a1 s h0
  unfold takeLost
  repeat' with_reducible first
    | assumption | rfl | intro _ | apply updRing_sound

theorem barrier_sound {p : Part} : ∀ a0 a1 s, Sound p s → Sound p (barrier a0 a1 s) := by
  intro a0 a1 s h0
  unfold barrier
  repeat' with_reducible first
    | assumption | rfl | intro _ | apply failTask_sound | apply takeLost_sound | apply markIssued_sound
    | refine sound_parts ?_ ?_ ?_ | refine sound_of_snd_snd (by assumption) ?_ | refine sound_of_snd (by assumption) ?_
    | dsimp only [sound_mk_eq] | split

theorem execBarrier_sound {p : Part} : ∀ a0 a1 s, Sound p s → SoundAnswer p (execBarrier a0 a1 s) := by
  intro a0 a1 s h0
  unfold execBarrier
  repeat' with_reducible first
    | assumption | rfl | intro _ | apply barrier_sound | apply soundAnswer_next

theorem barrierComplete_sound {p : Part} : ∀ a0 a1 s, Sound p s → Sound p (barrierComplete a0 a1 s) := by
  intro a0 a1 s h0
  unfold barrierComplete
  repeat' with_reducible first
    | assumption | rfl | intro _ | apply completeTask_sound | refine sound_parts ?_ ?_ ?_
    | refine sound_of_snd_snd (by assumption) ?_ | refine sound_of_snd (by assumption) ?_ | dsimp only [sound_mk_eq] | split

theorem execBarrierComplete_sound {p : Part} : ∀ a0 a1 s, Sound p s → SoundAnswer p (execBarrierComplete a0 a1 s) := by
  intro a0 a1 s h0
  unfold execBarrierComplete
  repeat' with_reducible first
    | assumption | rfl | intro _ | apply preloadBenches_sound | apply barrierComplete_sound | apply soundAnswer_next

theorem enqueue_sound {p : Part} : ∀ a0 a1 s, Sound p s → Sound p (enqueue a0 a1 s) := by
  intro a0 a1 s h0
  unfold enqueue
  repeat' with_reducible first
    | assumption | rfl | intro _ | apply markIssued_sound | apply failTask_sound | refine sound_parts ?_ ?_ ?_
    | refine sound_of_snd_snd (by assumption) ?_ | refine sound_of_snd (by assumption) ?_ | dsimp only [sound_mk_eq] | split

theorem execEnqueue_sound {p : Part} : ∀ a0 a1 s, Sound p s → SoundAnswer p (execEnqueue a0 a1 s) := by
  intro a0 a1 s h0
  unfold execEnqueue
  repeat' with_reducible first
    | assumption | rfl | intro _ | apply enqueue_sound | apply soundAnswer_next

theorem writeSlots_sound {p : Part} : ∀ a0 a1 a2 a3 a4 s, Sound p s → Sound p (writeSlots a0 a1 a2 a3 a4 s).2 := by
  intro a0 a1 a2 a3 a4 s h0
  fun_induction writeSlots a0 a1 a2 a3 a4 s
  all_goals repeat' with_reducible first
    | assumption | rfl | intro _ | apply Reply.andThen_sound | apply engineWrite_sound

theorem appendDescs_sound {p : Part} : ∀ a0 a1 s, Sound p s → Sound p (appendDescs a0 a1 s).2 := by
  intro a0 a1 s h0
  unfold appendDescs
  repeat' with_reducible first
    | assumption | rfl | intro _ | apply Reply.andThen_sound | apply fieldRead_sound | apply writeSlots_sound
    | apply fieldWrite_sound | apply updRing_sound | refine sound_parts ?_ ?_ ?_ | dsimp only [sound_mk_eq] | split

theorem enqueueAppend_sound {p : Part} : ∀ a0 a1 s, Sound p s → Sound p (enqueueAppend a0 a1 s) := by
  intro a0 a1 s h0
  unfold enqueueAppend
  repeat' with_reducible first
    | assumption | rfl | intro _ | apply appendDescs_sound | apply completeTask_sound | apply blockTask_sound
    | apply failTask_sound | refine sound_parts ?_ ?_ ?_ | refine sound_of_snd_snd (by assumption) ?_
    | refine sound_of_snd (by assumption) ?_ | dsimp only [sound_mk_eq] | split

theorem execEnqueueAppend_sound {p : Part} : ∀ a0 a1 s, Sound p s → SoundAnswer p (execEnqueueAppend a0 a1 s) := by
  intro a0 a1 s h0
  unfold execEnqueueAppend
  repeat' with_reducible first
    | assumption | rfl | intro _ | apply preloadBenches_sound | apply enqueueAppend_sound | apply soundAnswer_next

theorem taskComplete_sound {p : Part} : ∀ a0 a1 s, Sound p s → Sound p (taskComplete a0 a1 s) := by
  intro a0 a1 s h0
  unfold taskComplete
  repeat' with_reducible first
    | assumption | rfl | intro _ | apply completeTask_sound | refine sound_parts ?_ ?_ ?_
    | refine sound_of_snd_snd (by assumption) ?_ | refine sound_of_snd (by assumption) ?_ | dsimp only [sound_mk_eq] | split

theorem execTaskComplete_sound {p : Part} : ∀ a0 a1 s, Sound p s → SoundAnswer p (execTaskComplete a0 a1 s) := by
  intro a0 a1 s h0
  unfold execTaskComplete
  repeat' with_reducible first
    | assumption | rfl | intro _ | apply preloadBenches_sound | apply taskComplete_sound | apply soundAnswer_next

theorem deferMember_sound {p : Part} : ∀ a0 s, Sound p s → Sound p (deferMember a0 s) := by
  intro a0 s h0
  unfold deferMember
  repeat' with_reducible first
    | assumption | rfl | intro _ | apply updGroup_sound | apply dropTask_sound

theorem endByRingReset_sound {p : Part} : ∀ s a1, Sound p s → Sound p (endByRingReset s a1) := by
  intro s a1 h0
  unfold endByRingReset
  repeat' with_reducible first
    | assumption | rfl | intro _ | apply deferMember_sound | apply updBenchState_sound | apply forgetWaits_sound
    | apply abortSignal_sound | apply settleBenchOf_sound | apply dropTask_sound | apply freeGroup_sound | apply updGroup_sound
    | refine sound_parts ?_ ?_ ?_ | refine sound_of_snd_snd (by assumption) ?_ | refine sound_of_snd (by assumption) ?_
    | dsimp only [sound_mk_eq] | split

theorem finishRingReset_sound {p : Part} : ∀ a0 s, Sound p s → Sound p (finishRingReset a0 s) := by
  intro a0 s h0
  unfold finishRingReset
  repeat' with_reducible first
    | assumption | rfl | intro _ | apply endByRingReset_sound | apply updRing_sound | apply report_sound | apply foldl_sound
    | apply foldl_snd_sound | refine sound_parts ?_ ?_ ?_ | dsimp only [sound_mk_eq]

theorem stopByRingReset_sound {p : Part} : ∀ s a1, Sound p s → Sound p (stopByRingReset s a1) := by
  intro s a1 h0
  unfold stopByRingReset
  repeat' with_reducible first
    | assumption | rfl | intro _ | apply updTask_sound | apply takeVector_sound | apply updBenchState_sound
    | apply settleRun_sound | refine sound_parts ?_ ?_ ?_ | refine sound_of_snd_snd (by assumption) ?_
    | refine sound_of_snd (by assumption) ?_ | dsimp only [sound_mk_eq] | split

theorem forgetRing_sound {p : Part} : ∀ a0 s, Sound p s → Sound p (forgetRing a0 s) := by
  intro a0 s h0
  unfold forgetRing
  repeat' with_reducible first
    | assumption | rfl | intro _ | refine sound_parts ?_ ?_ ?_ | dsimp only [sound_mk_eq]

theorem ringReset_sound {p : Part} : ∀ a0 s, Sound p s → Sound p (ringReset a0 s) := by
  intro a0 s h0
  unfold ringReset
  repeat' with_reducible first
    | assumption | rfl | intro _ | apply forgetRing_sound | apply updRing_sound | apply stopByRingReset_sound
    | apply failTask_sound | apply finishRingReset_sound | apply foldl_sound | apply foldl_snd_sound
    | refine sound_parts ?_ ?_ ?_ | dsimp only [sound_mk_eq] | split

theorem execRingReset_sound {p : Part} : ∀ a0 s, Sound p s → SoundAnswer p (execRingReset a0 s) := by
  intro a0 s h0
  unfold execRingReset
  repeat' with_reducible first
    | assumption | rfl | intro _ | apply preloadBenches_sound | apply ringReset_sound | apply soundAnswer_next

theorem benchReport_sound {p : Part} : ∀ a0 a1 s, Sound p s → Sound p (benchReport a0 a1 s) := by
  intro a0 a1 s h0
  unfold benchReport
  repeat' with_reducible first
    | assumption | rfl | intro _ | apply updRing_sound | apply finishRingReset_sound | refine sound_parts ?_ ?_ ?_
    | dsimp only [sound_mk_eq] | split

theorem execBenchReport_sound {p : Part} : ∀ a0 a1 s, Sound p s → SoundAnswer p (execBenchReport a0 a1 s) := by
  intro a0 a1 s h0
  unfold execBenchReport
  repeat' with_reducible first
    | assumption | rfl | intro _ | apply preloadBenches_sound | apply benchReport_sound | apply soundAnswer_next

end Sys2Proof.Machine
end

