-- ==== Sys2Proof/Laws/Sound/Deck.lean ====
section
/-!
SUPPORT. Laws/Sound/Deck.lean: what Machine/Deck.lean does keeps a state sound (Sys2Proof.Sound): memory canonical, the record
queue bounded, the part unchanged.
-/

namespace Sys2Proof.Machine

theorem deckCtlWrite_sound {p : Part} : ∀ a0 a1 s, Sound p s → Sound p (deckCtlWrite a0 a1 s) := by
  intro a0 a1 s h0
  unfold deckCtlWrite
  repeat' with_reducible first
    | assumption | rfl | intro _ | apply updDeck_sound | refine sound_parts ?_ ?_ ?_ | apply soundEffect_ok
    | apply soundEffect_error | refine sound_of_effect (by assumption) ?_ | dsimp only [sound_mk_eq] | split

theorem execDeckEnable_sound {p : Part} : ∀ a0 a1 s, Sound p s → SoundAnswer p (execDeckEnable a0 a1 s) := by
  intro a0 a1 s h0
  unfold execDeckEnable
  repeat' with_reducible first
    | assumption | rfl | intro _ | apply deckCtlWrite_sound | apply soundAnswer_next | apply soundAnswer_fault
    | refine sound_parts ?_ ?_ ?_ | apply soundEffect_ok | apply soundEffect_error | refine sound_of_effect (by assumption) ?_
    | dsimp only [sound_mk_eq] | split

theorem deckZeroingDone_sound {p : Part} : ∀ a0 s, Sound p s → Sound p (deckZeroingDone a0 s) := by
  intro a0 s h0
  unfold deckZeroingDone
  repeat' with_reducible first
    | assumption | rfl | intro _ | apply updDeck_sound | apply zeroRange_sound | refine sound_parts ?_ ?_ ?_
    | apply soundEffect_ok | apply soundEffect_error | refine sound_of_effect (by assumption) ?_ | dsimp only [sound_mk_eq]
    | split

theorem execDeckZeroingDone_sound {p : Part} : ∀ a0 s, Sound p s → SoundAnswer p (execDeckZeroingDone a0 s) := by
  intro a0 s h0
  unfold execDeckZeroingDone
  repeat' with_reducible first
    | assumption | rfl | intro _ | apply deckZeroingDone_sound | apply soundAnswer_next

theorem updNamed_sound {p : Part} : ∀ a0 a1 s, Sound p s → Sound p (updNamed a0 a1 s) := by
  intro a0 a1 s h0
  unfold updNamed
  repeat' with_reducible first
    | assumption | rfl | intro _ | apply updDeck_sound

theorem deckCreate_sound {p : Part} : ∀ a0 a1 s, Sound p s → SoundEffect p (deckCreate a0 a1 s) := by
  intro a0 a1 s h0
  unfold deckCreate
  repeat' with_reducible first
    | assumption | rfl | intro _ | apply updDeck_sound | refine sound_parts ?_ ?_ ?_
    | refine sound_of_snd_snd (by assumption) ?_ | refine sound_of_snd (by assumption) ?_ | apply soundEffect_ok
    | apply soundEffect_error | refine sound_of_effect (by assumption) ?_ | dsimp only [sound_mk_eq] | split

theorem extendSeq_sound {p : Part} : ∀ a0 a1 a2 s, Sound p s → SoundEffect p (extendSeq a0 a1 a2 s) := by
  intro a0 a1 a2 s h0
  unfold extendSeq
  repeat' with_reducible first
    | assumption | rfl | intro _ | apply updDeck_sound | refine sound_parts ?_ ?_ ?_
    | refine sound_of_snd_snd (by assumption) ?_ | refine sound_of_snd (by assumption) ?_ | apply soundEffect_ok
    | apply soundEffect_error | refine sound_of_effect (by assumption) ?_ | dsimp only [sound_mk_eq] | split

theorem deckExtendProvisional_sound {p : Part} : ∀ a0 a1 s, Sound p s → SoundEffect p (deckExtendProvisional a0 a1 s) := by
  intro a0 a1 s h0
  unfold deckExtendProvisional
  repeat' with_reducible first
    | assumption | rfl | intro _ | apply extendSeq_sound | apply updTask_sound | refine sound_parts ?_ ?_ ?_
    | refine sound_of_snd_snd (by assumption) ?_ | refine sound_of_snd (by assumption) ?_ | apply soundEffect_ok
    | apply soundEffect_error | refine sound_of_effect (by assumption) ?_ | dsimp only [sound_mk_eq] | split

theorem deckExtendCommitted_sound {p : Part} : ∀ a0 a1 s, Sound p s → SoundEffect p (deckExtendCommitted a0 a1 s) := by
  intro a0 a1 s h0
  unfold deckExtendCommitted
  repeat' with_reducible first
    | assumption | rfl | intro _ | apply extendSeq_sound | refine sound_parts ?_ ?_ ?_ | apply soundEffect_ok
    | apply soundEffect_error | refine sound_of_effect (by assumption) ?_ | dsimp only [sound_mk_eq] | split

theorem deckCommit_sound {p : Part} : ∀ a0 a1 s, Sound p s → SoundEffect p (deckCommit a0 a1 s) := by
  intro a0 a1 s h0
  unfold deckCommit
  repeat' with_reducible first
    | assumption | rfl | intro _ | apply updNamed_sound | refine sound_parts ?_ ?_ ?_ | apply soundEffect_ok
    | apply soundEffect_error | refine sound_of_effect (by assumption) ?_ | dsimp only [sound_mk_eq] | split

theorem deckRollback_sound {p : Part} : ∀ a0 a1 s, Sound p s → SoundEffect p (deckRollback a0 a1 s) := by
  intro a0 a1 s h0
  unfold deckRollback
  repeat' with_reducible first
    | assumption | rfl | intro _ | apply updNamed_sound | refine sound_parts ?_ ?_ ?_ | apply soundEffect_ok
    | apply soundEffect_error | refine sound_of_effect (by assumption) ?_ | dsimp only [sound_mk_eq] | split

theorem deckRelease_sound {p : Part} : ∀ a0 a1 s, Sound p s → SoundEffect p (deckRelease a0 a1 s) := by
  intro a0 a1 s h0
  unfold deckRelease
  repeat' with_reducible first
    | assumption | rfl | intro _ | apply updNamed_sound | refine sound_parts ?_ ?_ ?_ | apply soundEffect_ok

theorem deckQuery_sound {p : Part} : ∀ a0 a1 s, Sound p s → SoundEffect p (deckQuery a0 a1 s) := by
  intro a0 a1 s h0
  unfold deckQuery
  repeat' with_reducible first
    | assumption | rfl | intro _ | refine sound_parts ?_ ?_ ?_ | apply soundEffect_ok

theorem deckWrite_sound {p : Part} : ∀ a0 a1 s, Sound p s → SoundEffect p (deckWrite a0 a1 s) := by
  intro a0 a1 s h0
  unfold deckWrite
  repeat' with_reducible first
    | assumption | rfl | intro _ | refine sound_parts ?_ ?_ ?_ | refine sound_of_snd_snd (by assumption) ?_
    | refine sound_of_snd (by assumption) ?_ | apply soundEffect_ok | apply soundEffect_error
    | refine sound_of_effect (by assumption) ?_ | dsimp only [sound_mk_eq] | split

theorem deckRead_sound {p : Part} : ∀ a0 a1 s, Sound p s → SoundEffect p (deckRead a0 a1 s) := by
  intro a0 a1 s h0
  unfold deckRead
  repeat' with_reducible first
    | assumption | rfl | intro _ | refine sound_parts ?_ ?_ ?_ | refine sound_of_snd_snd (by assumption) ?_
    | refine sound_of_snd (by assumption) ?_ | apply soundEffect_ok | apply soundEffect_error
    | refine sound_of_effect (by assumption) ?_ | dsimp only [sound_mk_eq] | split

theorem copyRows_sound {p : Part} : ∀ a0 a1 a2 a3 a4 a5 s, Sound p s → Sound p (copyRows a0 a1 a2 a3 a4 a5 s).2 := by
  intro a0 a1 a2 a3 a4 a5 s h0
  fun_induction copyRows a0 a1 a2 a3 a4 a5 s
  all_goals repeat' with_reducible first
    | assumption | rfl | intro _ | apply Reply.andThen_sound | apply physWrite_sound | apply physRead_sound

theorem deckFork_sound {p : Part} : ∀ a0 a1 s, Sound p s → SoundEffect p (deckFork a0 a1 s) := by
  intro a0 a1 s h0
  unfold deckFork
  repeat' with_reducible first
    | assumption | rfl | intro _ | apply updDeck_sound | apply copyRows_sound | refine sound_parts ?_ ?_ ?_
    | refine sound_of_snd_snd (by assumption) ?_ | refine sound_of_snd (by assumption) ?_ | apply soundEffect_ok
    | apply soundEffect_error | refine sound_of_effect (by assumption) ?_ | dsimp only [sound_mk_eq] | split

theorem deckResult_sound {p : Part} : ∀ a0 a1 a2 a3 a4 s, Sound p s → Sound p (deckResult a0 a1 a2 a3 a4 s) := by
  intro a0 a1 a2 a3 a4 s h0
  unfold deckResult
  repeat' with_reducible first
    | assumption | rfl | intro _ | apply failAs_sound | apply markWorkDone_sound | apply fieldWrite_sound
    | apply blockTask_sound | apply failTask_sound | refine sound_parts ?_ ?_ ?_ | refine sound_of_snd_snd (by assumption) ?_
    | refine sound_of_snd (by assumption) ?_ | apply soundEffect_ok | apply soundEffect_error
    | refine sound_of_effect (by assumption) ?_ | dsimp only [sound_mk_eq] | split

theorem moveRows_sound {p : Part} : ∀ a0 a1 a2 a3 s, Sound p s → Sound p (moveRows a0 a1 a2 a3 s).2 := by
  intro a0 a1 a2 a3 s h0
  fun_induction moveRows a0 a1 a2 a3 s
  all_goals repeat' with_reducible first
    | assumption | rfl | intro _ | apply Reply.andThen_sound | apply updTask_sound | apply fieldRead_sound
    | apply fieldWrite_sound | apply rowWrite_sound | apply rowRead_sound | refine sound_parts ?_ ?_ ?_ | apply soundEffect_ok
    | apply soundEffect_error | refine sound_of_effect (by assumption) ?_ | apply_assumption -exfalso -symm
    | dsimp only [sound_mk_eq] | dsimp +zetaDelta only [sound_mk_eq] | split

theorem refuseDeck_sound {p : Part} : ∀ a0 a1 a2 a3 a4 s, Sound p s → Sound p (refuseDeck a0 a1 a2 a3 a4 s) := by
  intro a0 a1 a2 a3 a4 s h0
  unfold refuseDeck
  repeat' with_reducible first
    | assumption | rfl | intro _ | apply failTask_sound | apply deckResult_sound | apply updTask_sound
    | refine sound_parts ?_ ?_ ?_ | apply soundEffect_ok | apply soundEffect_error | refine sound_of_effect (by assumption) ?_
    | dsimp only [sound_mk_eq] | split

theorem afterEffect_sound {p : Part} : ∀ a0 a1 a2 a3 s, Sound p s → Sound p (afterEffect a0 a1 a2 a3 s) := by
  intro a0 a1 a2 a3 s h0
  unfold afterEffect
  repeat' with_reducible first
    | assumption | rfl | intro _ | apply moveRows_sound | apply deckResult_sound | apply blockTask_sound
    | apply refuseDeck_sound | refine sound_parts ?_ ?_ ?_ | refine sound_of_snd_snd (by assumption) ?_
    | refine sound_of_snd (by assumption) ?_ | apply soundEffect_ok | apply soundEffect_error
    | refine sound_of_effect (by assumption) ?_ | dsimp only [sound_mk_eq] | split

theorem runDeck_sound {p : Part} : ∀ a0 a1 a2 a3 s,
    (∀ x0 x1 t, Sound p t → SoundEffect p (a0 x0 x1 t)) → Sound p s → Sound p (runDeck a0 a1 a2 a3 s) := by
  intro a0 a1 a2 a3 s h0 h1
  unfold runDeck
  repeat' with_reducible first
    | assumption | rfl | intro _ | apply h0 | apply deckResult_sound | apply afterEffect_sound | apply refuseDeck_sound
    | apply updTask_sound | apply countDeckOp_sound | refine sound_parts ?_ ?_ ?_ | refine sound_of_snd_snd (by assumption) ?_
    | refine sound_of_snd (by assumption) ?_ | apply soundEffect_ok | apply soundEffect_error
    | refine sound_of_effect (by assumption) ?_ | dsimp only [sound_mk_eq] | split

theorem deckStep_sound {p : Part} : ∀ a0 a1 a2 a3 s,
    (∀ x0 x1 t, Sound p t → SoundEffect p (a1 x0 x1 t)) → Sound p s → Sound p (deckStep a0 a1 a2 a3 s) := by
  intro a0 a1 a2 a3 s h0 h1
  unfold deckStep
  repeat' with_reducible first
    | assumption | rfl | intro _ | apply h0 | apply issueBench_sound | apply runDeck_sound | refine sound_parts ?_ ?_ ?_
    | refine sound_of_snd_snd (by assumption) ?_ | refine sound_of_snd (by assumption) ?_ | apply soundEffect_ok
    | apply soundEffect_error | refine sound_of_effect (by assumption) ?_ | dsimp only [sound_mk_eq] | split

theorem execDeckCreate_sound {p : Part} : ∀ a0 a1 s, Sound p s → SoundAnswer p (execDeckCreate a0 a1 s) := by
  intro a0 a1 s h0
  unfold execDeckCreate
  repeat' with_reducible first
    | assumption | rfl | intro _ | apply deckStep_sound | apply deckCreate_sound | apply soundAnswer_next

theorem execDeckExtendProvisional_sound {p : Part} : ∀ a0 a1 s,
    Sound p s → SoundAnswer p (execDeckExtendProvisional a0 a1 s) := by
  intro a0 a1 s h0
  unfold execDeckExtendProvisional
  repeat' with_reducible first
    | assumption | rfl | intro _ | apply deckStep_sound | apply deckExtendProvisional_sound | apply soundAnswer_next

theorem execDeckExtendCommitted_sound {p : Part} : ∀ a0 a1 s, Sound p s → SoundAnswer p (execDeckExtendCommitted a0 a1 s) := by
  intro a0 a1 s h0
  unfold execDeckExtendCommitted
  repeat' with_reducible first
    | assumption | rfl | intro _ | apply deckStep_sound | apply deckExtendCommitted_sound | apply soundAnswer_next

theorem execDeckWrite_sound {p : Part} : ∀ a0 a1 s, Sound p s → SoundAnswer p (execDeckWrite a0 a1 s) := by
  intro a0 a1 s h0
  unfold execDeckWrite
  repeat' with_reducible first
    | assumption | rfl | intro _ | apply deckStep_sound | apply deckWrite_sound | apply soundAnswer_next

theorem execDeckRead_sound {p : Part} : ∀ a0 a1 s, Sound p s → SoundAnswer p (execDeckRead a0 a1 s) := by
  intro a0 a1 s h0
  unfold execDeckRead
  repeat' with_reducible first
    | assumption | rfl | intro _ | apply deckStep_sound | apply deckRead_sound | apply soundAnswer_next

theorem execDeckCommit_sound {p : Part} : ∀ a0 a1 s, Sound p s → SoundAnswer p (execDeckCommit a0 a1 s) := by
  intro a0 a1 s h0
  unfold execDeckCommit
  repeat' with_reducible first
    | assumption | rfl | intro _ | apply deckStep_sound | apply deckCommit_sound | apply soundAnswer_next

theorem execDeckRollback_sound {p : Part} : ∀ a0 a1 s, Sound p s → SoundAnswer p (execDeckRollback a0 a1 s) := by
  intro a0 a1 s h0
  unfold execDeckRollback
  repeat' with_reducible first
    | assumption | rfl | intro _ | apply deckStep_sound | apply deckRollback_sound | apply soundAnswer_next

theorem execDeckFork_sound {p : Part} : ∀ a0 a1 s, Sound p s → SoundAnswer p (execDeckFork a0 a1 s) := by
  intro a0 a1 s h0
  unfold execDeckFork
  repeat' with_reducible first
    | assumption | rfl | intro _ | apply deckStep_sound | apply deckFork_sound | apply soundAnswer_next

theorem execDeckRelease_sound {p : Part} : ∀ a0 a1 s, Sound p s → SoundAnswer p (execDeckRelease a0 a1 s) := by
  intro a0 a1 s h0
  unfold execDeckRelease
  repeat' with_reducible first
    | assumption | rfl | intro _ | apply deckStep_sound | apply deckRelease_sound | apply soundAnswer_next

theorem execDeckQuery_sound {p : Part} : ∀ a0 a1 s, Sound p s → SoundAnswer p (execDeckQuery a0 a1 s) := by
  intro a0 a1 s h0
  unfold execDeckQuery
  repeat' with_reducible first
    | assumption | rfl | intro _ | apply deckStep_sound | apply deckQuery_sound | apply soundAnswer_next

theorem reportDeck_sound {p : Part} : ∀ a0 a1 a2 s, Sound p s → Sound p (reportDeck a0 a1 a2 s) := by
  intro a0 a1 a2 s h0
  unfold reportDeck
  repeat' with_reducible first
    | assumption | rfl | intro _ | apply report_sound

theorem freePage_sound {p : Part} : ∀ a0 a1 s, Sound p s → Sound p (freePage a0 a1 s) := by
  intro a0 a1 s h0
  unfold freePage
  repeat' with_reducible first
    | assumption | rfl | intro _ | apply reportDeck_sound | apply updDeck_sound | apply zeroRange_sound
    | refine sound_parts ?_ ?_ ?_ | refine sound_of_snd_snd (by assumption) ?_ | refine sound_of_snd (by assumption) ?_
    | apply soundEffect_ok | apply soundEffect_error | refine sound_of_effect (by assumption) ?_ | dsimp only [sound_mk_eq]
    | split

theorem dropPage_sound {p : Part} : ∀ g s i, Sound p s → Sound p (dropPage g s i) := by
  intro g s i h
  unfold dropPage
  dsimp only
  split
  · exact reportDeck_sound _ _ _ _ h
  · split
    · exact freePage_sound _ _ _ (updDeck_sound _ _ _ h)
    · exact updDeck_sound _ _ _ h

theorem deckScrubDone_sound {p : Part} : ∀ a0 a1 s, Sound p s → Sound p (deckScrubDone a0 a1 s) := by
  intro a0 a1 s h0
  unfold deckScrubDone
  repeat' with_reducible first
    | assumption | rfl | intro _ | apply reportDeck_sound | apply dropPage_sound | apply updDeck_sound | apply foldl_sound
    | apply foldl_snd_sound | refine sound_parts ?_ ?_ ?_ | refine sound_of_snd_snd (by assumption) ?_
    | refine sound_of_snd (by assumption) ?_ | apply soundEffect_ok | apply soundEffect_error
    | refine sound_of_effect (by assumption) ?_ | dsimp only [sound_mk_eq] | split

theorem execDeckScrubDone_sound {p : Part} : ∀ a0 a1 s, Sound p s → SoundAnswer p (execDeckScrubDone a0 a1 s) := by
  intro a0 a1 s h0
  unfold execDeckScrubDone
  repeat' with_reducible first
    | assumption | rfl | intro _ | apply deckScrubDone_sound | apply soundAnswer_next

theorem groupAction_sound {p : Part} : ∀ a0 a1 a2 a3 s, Sound p s → Sound p (groupAction a0 a1 a2 a3 s) := by
  intro a0 a1 a2 a3 s h0
  unfold groupAction
  repeat' with_reducible first
    | assumption | rfl | intro _ | apply reportDeck_sound | apply updDeck_sound | apply freeGroup_sound | apply updGroup_sound
    | refine sound_parts ?_ ?_ ?_ | refine sound_of_snd_snd (by assumption) ?_ | refine sound_of_snd (by assumption) ?_
    | apply soundEffect_ok | apply soundEffect_error | refine sound_of_effect (by assumption) ?_ | dsimp only [sound_mk_eq]
    | split

theorem execDeckTruncation_sound {p : Part} : ∀ a0 a1 s, Sound p s → SoundAnswer p (execDeckTruncation a0 a1 s) := by
  intro a0 a1 s h0
  unfold execDeckTruncation
  repeat' with_reducible first
    | assumption | rfl | intro _ | apply groupAction_sound | apply soundAnswer_next

theorem execDeckRelabel_sound {p : Part} : ∀ a0 a1 s, Sound p s → SoundAnswer p (execDeckRelabel a0 a1 s) := by
  intro a0 a1 s h0
  unfold execDeckRelabel
  repeat' with_reducible first
    | assumption | rfl | intro _ | apply groupAction_sound | apply soundAnswer_next

end Sys2Proof.Machine
end

