-- ==== Sys2Proof/Laws/Sound/Lanes.lean ====
section
/-!
SUPPORT. Laws/Sound/Lanes.lean: what Machine/Lanes.lean does keeps a state sound (Sys2Proof.Sound): memory canonical, the record
queue bounded, the part unchanged.
-/

namespace Sys2Proof.Machine

theorem updBundle_sound {p : Part} : ∀ a0 a1 a2 s, Sound p s → Sound p (updBundle a0 a1 a2 s) := by
  intro a0 a1 a2 s h0
  unfold updBundle
  repeat' with_reducible first
    | assumption | rfl | intro _ | refine sound_parts ?_ ?_ ?_ | dsimp only [sound_mk_eq]

theorem updSite_sound {p : Part} : ∀ a0 a1 s, Sound p s → Sound p (updSite a0 a1 s) := by
  intro a0 a1 s h0
  unfold updSite
  repeat' with_reducible first
    | assumption | rfl | intro _ | refine sound_parts ?_ ?_ ?_ | dsimp only [sound_mk_eq]

end Sys2Proof.Machine
end

