-- ==== Sys2Proof/Laws/Sound/Flits.lean ====
section
/-!
SUPPORT. Laws/Sound/Flits.lean: what Machine/Flits.lean does keeps a state sound (Sys2Proof.Sound): memory canonical, the record
queue bounded, the part unchanged.
-/

namespace Sys2Proof.Machine

theorem updKerf_sound {p : Part} : ∀ a0 s, Sound p s → Sound p (updKerf a0 s) := by
  intro a0 s h0
  unfold updKerf
  repeat' with_reducible first
    | assumption | rfl | intro _ | refine sound_parts ?_ ?_ ?_ | dsimp only [sound_mk_eq]

theorem queueFlit_sound {p : Part} : ∀ a0 a1 a2 a3 s, Sound p s → Sound p (queueFlit a0 a1 a2 a3 s) := by
  intro a0 a1 a2 a3 s h0
  unfold queueFlit
  repeat' with_reducible first
    | assumption | rfl | intro _ | apply updBundle_sound

theorem assignFlit_sound {p : Part} : ∀ a0 a1 s, Sound p s → Sound p (assignFlit a0 a1 s) := by
  intro a0 a1 s h0
  unfold assignFlit
  repeat' with_reducible first
    | assumption | rfl | intro _ | apply updKerf_sound | apply queueFlit_sound | refine sound_parts ?_ ?_ ?_
    | refine sound_of_snd_snd (by assumption) ?_ | refine sound_of_snd (by assumption) ?_ | dsimp only [sound_mk_eq] | split

theorem offerFlit_sound {p : Part} : ∀ a0 s, Sound p s → Sound p (offerFlit a0 s) := by
  intro a0 s h0
  unfold offerFlit
  repeat' with_reducible first
    | assumption | rfl | intro _ | apply assignFlit_sound | apply updKerf_sound | refine sound_parts ?_ ?_ ?_
    | dsimp only [sound_mk_eq] | split

theorem takeFlit_sound {p : Part} : ∀ a0 s, Sound p s → Sound p (takeFlit a0 s) := by
  intro a0 s h0
  unfold takeFlit
  repeat' with_reducible first
    | assumption | rfl | intro _ | apply updKerf_sound | refine sound_parts ?_ ?_ ?_ | dsimp only [sound_mk_eq] | split

theorem arriveFlit_sound {p : Part} : ∀ a0 a1 s, Sound p s → Sound p (arriveFlit a0 a1 s) := by
  intro a0 a1 s h0
  unfold arriveFlit
  repeat' with_reducible first
    | assumption | rfl | intro _ | apply takeFlit_sound | apply assignFlit_sound | refine sound_parts ?_ ?_ ?_
    | dsimp only [sound_mk_eq] | split

theorem wakeFlits_sound {p : Part} : ∀ s, Sound p s → Sound p (wakeFlits s) := by
  intro s h0
  unfold wakeFlits
  repeat' with_reducible first
    | assumption | rfl | intro _ | apply assignFlit_sound | apply updKerf_sound | apply foldl_sound

theorem moveFlits_sound {p : Part} : ∀ a0 a1 s, Sound p s → Sound p (moveFlits a0 a1 s) := by
  intro a0 a1 s h0
  unfold moveFlits
  repeat' with_reducible first
    | assumption | rfl | intro _ | apply updBundle_sound | apply assignFlit_sound | apply wakeFlits_sound | apply foldl_sound

end Sys2Proof.Machine
end

