-- ==== Sys2Proof/Laws/Sound/FabricOps.lean ====
section
/-!
SUPPORT. Laws/Sound/FabricOps.lean: what Machine/FabricOps.lean does keeps a state sound (Sys2Proof.Sound): memory canonical, the record
queue bounded, the part unchanged.
-/

namespace Sys2Proof.Machine

theorem updFabric_sound {p : Part} : ∀ a0 s, Sound p s → Sound p (updFabric a0 s) := by
  intro a0 s h0
  unfold updFabric
  repeat' with_reducible first
    | assumption | rfl | intro _ | refine sound_parts ?_ ?_ ?_ | dsimp only [sound_mk_eq]

theorem floodFrames_sound {p : Part} : ∀ a0 s, Sound p s → Sound p (floodFrames a0 s) := by
  intro a0 s h0
  unfold floodFrames
  repeat' with_reducible first
    | assumption | rfl | intro _ | apply countFrames_sound | apply foldl_sound

theorem notePort_sound {p : Part} : ∀ s, Sound p s → Sound p (notePort s) := by
  intro s h0
  unfold notePort
  repeat' with_reducible first
    | assumption | rfl | intro _ | refine sound_parts ?_ ?_ ?_ | dsimp only [sound_mk_eq]

theorem setPeer_sound {p : Part} : ∀ a0 a1 a2 s, Sound p s → Sound p (setPeer a0 a1 a2 s) := by
  intro a0 a1 a2 s h0
  unfold setPeer
  repeat' with_reducible first
    | assumption | rfl | intro _ | refine sound_parts ?_ ?_ ?_ | dsimp only [sound_mk_eq] | split

theorem dropTransfer_sound {p : Part} : ∀ a0 s, Sound p s → Sound p (dropTransfer a0 s) := by
  intro a0 s h0
  unfold dropTransfer
  repeat' with_reducible first
    | assumption | rfl | intro _ | apply updFabric_sound

theorem updTransfer_sound {p : Part} : ∀ a0 a1 s, Sound p s → Sound p (updTransfer a0 a1 s) := by
  intro a0 a1 s h0
  unfold updTransfer
  repeat' with_reducible first
    | assumption | rfl | intro _ | apply updFabric_sound

theorem failBarriers_sound {p : Part} : ∀ a0 a1 s, Sound p s → Sound p (failBarriers a0 a1 s) := by
  intro a0 a1 s h0
  unfold failBarriers
  repeat' with_reducible first
    | assumption | rfl | intro _ | apply updRing_sound | apply failTask_sound | apply foldl_sound | apply foldl_snd_sound
    | refine sound_parts ?_ ?_ ?_ | refine sound_of_snd_snd (by assumption) ?_ | refine sound_of_snd (by assumption) ?_
    | dsimp only [sound_mk_eq] | split

theorem failTransfer_sound {p : Part} : ∀ a0 a1 s, Sound p s → Sound p (failTransfer a0 a1 s) := by
  intro a0 a1 s h0
  unfold failTransfer
  repeat' with_reducible first
    | assumption | rfl | intro _ | apply failBarriers_sound | apply report_sound | apply dropTransfer_sound

theorem failHandover_sound {p : Part} : ∀ a0 a1 s, Sound p s → Sound p (failHandover a0 a1 s) := by
  intro a0 a1 s h0
  unfold failHandover
  repeat' with_reducible first
    | assumption | rfl | intro _ | apply endEarly_sound | apply updTask_sound | apply dropTransfer_sound
    | apply failTransfer_sound | refine sound_parts ?_ ?_ ?_ | refine sound_of_snd_snd (by assumption) ?_
    | refine sound_of_snd (by assumption) ?_ | dsimp only [sound_mk_eq] | split

theorem cutIncoming_sound {p : Part} : ∀ a0 s, Sound p s → Sound p (cutIncoming a0 s) := by
  intro a0 s h0
  unfold cutIncoming
  repeat' with_reducible first
    | assumption | rfl | intro _ | apply reportModule_sound | apply signalAbort_sound | refine sound_parts ?_ ?_ ?_
    | dsimp only [sound_mk_eq] | split

theorem failRepairsTo_sound {p : Part} : ∀ a0 s, Sound p s → Sound p (failRepairsTo a0 s) := by
  intro a0 s h0
  unfold failRepairsTo
  repeat' with_reducible first
    | assumption | rfl | intro _ | apply repairFailed_sound | apply foldl_sound

theorem cutOff_sound {p : Part} : ∀ a0 s, Sound p s → Sound p (cutOff a0 s) := by
  intro a0 s h0
  unfold cutOff
  repeat' with_reducible first
    | assumption | rfl | intro _ | apply failTransfer_sound | apply failRepairsTo_sound | apply cutIncoming_sound
    | apply updFabric_sound | apply foldl_sound

theorem markUnreachable_sound {p : Part} : ∀ a0 s, Sound p s → Sound p (markUnreachable a0 s) := by
  intro a0 s h0
  unfold markUnreachable
  repeat' with_reducible first
    | assumption | rfl | intro _ | apply cutOff_sound | apply updFabric_sound | apply setPeer_sound
    | refine sound_parts ?_ ?_ ?_ | dsimp only [sound_mk_eq] | split

theorem noteLinkDown_sound {p : Part} : ∀ a0 a1 s, Sound p s → Sound p (noteLinkDown a0 a1 s) := by
  intro a0 a1 s h0
  unfold noteLinkDown
  repeat' with_reducible first
    | assumption | rfl | intro _ | apply updFabric_sound | apply markUnreachable_sound | refine sound_parts ?_ ?_ ?_
    | dsimp only [sound_mk_eq] | split

theorem noteIsolation_sound {p : Part} : ∀ s, Sound p s → Sound p (noteIsolation s) := by
  intro s h0
  unfold noteIsolation
  repeat' with_reducible first
    | assumption | rfl | intro _ | apply cutOff_sound | apply foldl_sound | apply foldl_snd_sound | refine sound_parts ?_ ?_ ?_
    | dsimp only [sound_mk_eq] | split

theorem loseSource_sound {p : Part} : ∀ a0 s, Sound p s → Sound p (loseSource a0 s) := by
  intro a0 s h0
  unfold loseSource
  repeat' with_reducible first
    | assumption | rfl | intro _ | apply updFabric_sound | refine sound_parts ?_ ?_ ?_
    | refine sound_of_snd_snd (by assumption) ?_ | refine sound_of_snd (by assumption) ?_ | dsimp only [sound_mk_eq] | split

theorem linkLost_sound {p : Part} : ∀ a0 a1 s, Sound p s → Sound p (linkLost a0 a1 s) := by
  intro a0 a1 s h0
  unfold linkLost
  repeat' with_reducible first
    | assumption | rfl | intro _ | apply floodFrames_sound | apply noteLinkDown_sound | refine sound_parts ?_ ?_ ?_
    | dsimp only [sound_mk_eq] | split

theorem portDown_sound {p : Part} : ∀ a0 a1 a2 s, Sound p s → Sound p (portDown a0 a1 a2 s) := by
  intro a0 a1 a2 s h0
  unfold portDown
  repeat' with_reducible first
    | assumption | rfl | intro _ | apply updPort_sound | apply report_sound | apply notePort_sound | apply linkLost_sound
    | apply loseSource_sound | apply noteIsolation_sound | refine sound_parts ?_ ?_ ?_ | dsimp only [sound_mk_eq] | split

theorem updWindow_sound {p : Part} : ∀ a0 a1 s, Sound p s → Sound p (updWindow a0 a1 s) := by
  intro a0 a1 s h0
  unfold updWindow
  repeat' with_reducible first
    | assumption | rfl | intro _ | apply updFabric_sound

theorem countArrival_sound {p : Part} : ∀ a0 a1 a2 s, Sound p s → Sound p (countArrival a0 a1 a2 s) := by
  intro a0 a1 a2 s h0
  unfold countArrival
  repeat' with_reducible first
    | assumption | rfl | intro _ | apply reportModule_sound | apply signalAdd_sound | refine sound_parts ?_ ?_ ?_
    | refine sound_of_snd_snd (by assumption) ?_ | refine sound_of_snd (by assumption) ?_ | dsimp only [sound_mk_eq] | split

theorem windowWrite_sound {p : Part} : ∀ a0 a1 a2 a3 a4 a5 s, Sound p s → Sound p (windowWrite a0 a1 a2 a3 a4 a5 s).2 := by
  intro a0 a1 a2 a3 a4 a5 s h0
  unfold windowWrite
  repeat' with_reducible first
    | assumption | rfl | intro _ | apply physWrite_sound | apply countArrival_sound | refine sound_parts ?_ ?_ ?_
    | refine sound_of_snd_snd (by assumption) ?_ | refine sound_of_snd (by assumption) ?_ | dsimp only [sound_mk_eq] | split

theorem windowRead_sound {p : Part} : ∀ a0 a1 a2 a3 a4 s, Sound p s → Sound p (windowRead a0 a1 a2 a3 a4 s).2 := by
  intro a0 a1 a2 a3 a4 s h0
  unfold windowRead
  repeat' with_reducible first
    | assumption | rfl | intro _ | apply physRead_sound | refine sound_parts ?_ ?_ ?_
    | refine sound_of_snd_snd (by assumption) ?_ | refine sound_of_snd (by assumption) ?_ | dsimp only [sound_mk_eq] | split

theorem takeMessage_sound {p : Part} : ∀ a0 a1 a2 s, Sound p s → Sound p (takeMessage a0 a1 a2 s) := by
  intro a0 a1 a2 s h0
  unfold takeMessage
  repeat' with_reducible first
    | assumption | rfl | intro _ | apply countArrival_sound | apply scratchWrite_sound

theorem staleAtSender_sound {p : Part} : ∀ a0 a1 s, Sound p s → Sound p (staleAtSender a0 a1 s) := by
  intro a0 a1 s h0
  unfold staleAtSender
  repeat' with_reducible first
    | assumption | rfl | intro _ | apply failTask_sound | apply report_sound | refine sound_parts ?_ ?_ ?_
    | refine sound_of_snd_snd (by assumption) ?_ | refine sound_of_snd (by assumption) ?_ | dsimp only [sound_mk_eq] | split

end Sys2Proof.Machine
end

