-- ==== Sys2Proof/Laws/Sound/Links.lean ====
section
/-!
SUPPORT. Laws/Sound/Links.lean: what Machine/Links.lean does keeps a state sound (Sys2Proof.Sound): memory canonical, the record
queue bounded, the part unchanged.
-/

namespace Sys2Proof.Machine

theorem portUp_sound {p : Part} : ∀ a0 a1 s, Sound p s → Sound p (portUp a0 a1 s) := by
  intro a0 a1 s h0
  unfold portUp
  repeat' with_reducible first
    | assumption | rfl | intro _ | apply countFrames_sound | apply updPort_sound | apply notePort_sound | apply report_sound
    | apply updFabric_sound | refine sound_parts ?_ ?_ ?_ | refine sound_of_snd_snd (by assumption) ?_
    | refine sound_of_snd (by assumption) ?_ | dsimp only [sound_mk_eq] | split

theorem portReady_sound {p : Part} : ∀ a0 s, Sound p s → Sound p (portReady a0 s) := by
  intro a0 s h0
  unfold portReady
  repeat' with_reducible first
    | assumption | rfl | intro _ | apply portUp_sound | apply updPort_sound | apply notePort_sound | refine sound_parts ?_ ?_ ?_
    | refine sound_of_snd_snd (by assumption) ?_ | refine sound_of_snd (by assumption) ?_ | dsimp only [sound_mk_eq] | split

theorem linkSetup_sound {p : Part} : ∀ a0 a1 s, Sound p s → Sound p (linkSetup a0 a1 s) := by
  intro a0 a1 s h0
  unfold linkSetup
  repeat' with_reducible first
    | assumption | rfl | intro _ | apply portReady_sound | apply updPort_sound | apply portDown_sound
    | refine sound_parts ?_ ?_ ?_ | refine sound_of_snd_snd (by assumption) ?_ | refine sound_of_snd (by assumption) ?_
    | dsimp only [sound_mk_eq] | split

theorem completeStart_sound {p : Part} : ∀ s, Sound p s → Sound p (completeStart s) := by
  intro s h0
  unfold completeStart
  repeat' with_reducible first
    | assumption | rfl | intro _ | refine sound_parts ?_ ?_ ?_ | dsimp only [sound_mk_eq]

theorem settleStart_sound {p : Part} : ∀ s, Sound p s → Sound p (settleStart s) := by
  intro s h0
  unfold settleStart
  repeat' with_reducible first
    | assumption | rfl | intro _ | apply completeStart_sound | refine sound_parts ?_ ?_ ?_ | dsimp only [sound_mk_eq] | split

theorem execLinkSetup_sound {p : Part} : ∀ a0 a1 s, Sound p s → SoundAnswer p (execLinkSetup a0 a1 s) := by
  intro a0 a1 s h0
  unfold execLinkSetup
  repeat' with_reducible first
    | assumption | rfl | intro _ | apply settleStart_sound | apply linkSetup_sound | apply soundAnswer_next

theorem portTrainTimeout_sound {p : Part} : ∀ s, Sound p s → Sound p (portTrainTimeout s) := by
  intro s h0
  unfold portTrainTimeout
  repeat' with_reducible first
    | assumption | rfl | intro _ | apply completeStart_sound | apply notePort_sound | apply updFabric_sound

theorem execPortTrainTimeout_sound {p : Part} : ∀ s, Sound p s → SoundAnswer p (execPortTrainTimeout s) := by
  intro s h0
  unfold execPortTrainTimeout
  repeat' with_reducible first
    | assumption | rfl | intro _ | apply portTrainTimeout_sound | apply soundAnswer_next | apply soundAnswer_fault
    | refine sound_parts ?_ ?_ ?_ | dsimp only [sound_mk_eq] | split

theorem execPortReceiveTimeout_sound {p : Part} : ∀ a0 s, Sound p s → SoundAnswer p (execPortReceiveTimeout a0 s) := by
  intro a0 s h0
  unfold execPortReceiveTimeout
  repeat' with_reducible first
    | assumption | rfl | intro _ | apply portDown_sound | apply soundAnswer_next | apply soundAnswer_fault
    | refine sound_parts ?_ ?_ ?_ | dsimp only [sound_mk_eq] | split

theorem execPortRetrainTimer_sound {p : Part} : ∀ a0 s, Sound p s → SoundAnswer p (execPortRetrainTimer a0 s) := by
  intro a0 s h0
  unfold execPortRetrainTimer
  repeat' with_reducible first
    | assumption | rfl | intro _ | apply updPort_sound | apply notePort_sound | apply soundAnswer_next | apply soundAnswer_fault
    | refine sound_parts ?_ ?_ ?_ | dsimp only [sound_mk_eq] | split

theorem execFrameKeepalive_sound {p : Part} : ∀ a0 s, Sound p s → SoundAnswer p (execFrameKeepalive a0 s) := by
  intro a0 s h0
  unfold execFrameKeepalive
  repeat' with_reducible first
    | assumption | rfl | intro _ | apply countFrames_sound | apply soundAnswer_next | apply soundAnswer_fault
    | refine sound_parts ?_ ?_ ?_ | dsimp only [sound_mk_eq] | split

theorem execFrameReplay_sound {p : Part} : ∀ a0 a1 s, Sound p s → SoundAnswer p (execFrameReplay a0 a1 s) := by
  intro a0 a1 s h0
  unfold execFrameReplay
  repeat' with_reducible first
    | assumption | rfl | intro _ | apply updPort_sound | apply soundAnswer_next | apply soundAnswer_fault
    | refine sound_parts ?_ ?_ ?_ | dsimp only [sound_mk_eq] | split

theorem askReplay_sound {p : Part} : ∀ a0 a1 s, Sound p s → Sound p (askReplay a0 a1 s) := by
  intro a0 a1 s h0
  unfold askReplay
  repeat' with_reducible first
    | assumption | rfl | intro _ | apply updPort_sound

theorem tagFailure_sound {p : Part} : ∀ a0 a1 a2 s, Sound p s → Sound p (tagFailure a0 a1 a2 s) := by
  intro a0 a1 a2 s h0
  unfold tagFailure
  repeat' with_reducible first
    | assumption | rfl | intro _ | apply updPort_sound | apply portDown_sound | refine sound_parts ?_ ?_ ?_
    | dsimp only [sound_mk_eq] | split

theorem noteArrived_sound {p : Part} : ∀ a0 a1 s, Sound p s → Sound p (noteArrived a0 a1 s) := by
  intro a0 a1 s h0
  unfold noteArrived
  repeat' with_reducible first
    | assumption | rfl | intro _ | apply updFabric_sound | refine sound_parts ?_ ?_ ?_ | dsimp only [sound_mk_eq] | split

theorem noteSettled_sound {p : Part} : ∀ a0 s, Sound p s → Sound p (noteSettled a0 s) := by
  intro a0 s h0
  unfold noteSettled
  repeat' with_reducible first
    | assumption | rfl | intro _ | apply updFabric_sound

theorem noteLate_sound {p : Part} : ∀ a0 s, Sound p s → Sound p (noteLate a0 s) := by
  intro a0 s h0
  unfold noteLate
  repeat' with_reducible first
    | assumption | rfl | intro _ | apply updFabric_sound | refine sound_parts ?_ ?_ ?_
    | refine sound_of_snd_snd (by assumption) ?_ | refine sound_of_snd (by assumption) ?_ | dsimp only [sound_mk_eq] | split

theorem answerTo_sound {p : Part} : ∀ a0 a1 a2 s, Sound p s → Sound p (answerTo a0 a1 a2 s) := by
  intro a0 a1 a2 s h0
  unfold answerTo
  repeat' with_reducible first
    | assumption | rfl | intro _ | apply updFabric_sound

theorem takeMemoryFrame_sound {p : Part} : ∀ a0 s, Sound p s → Sound p (takeMemoryFrame a0 s) := by
  intro a0 s h0
  unfold takeMemoryFrame
  repeat' with_reducible first
    | assumption | rfl | intro _ | apply windowWrite_sound | apply answerTo_sound | apply noteSettled_sound
    | apply noteArrived_sound | apply noteLate_sound | refine sound_parts ?_ ?_ ?_ | refine sound_of_snd_snd (by assumption) ?_
    | refine sound_of_snd (by assumption) ?_ | dsimp only [sound_mk_eq] | split

theorem noticeTo_sound {p : Part} : ∀ a0 a1 s, Sound p s → Sound p (noticeTo a0 a1 s) := by
  intro a0 a1 s h0
  unfold noticeTo
  repeat' with_reducible first
    | assumption | rfl | intro _ | apply answerTo_sound

theorem takeUnitFrame_sound {p : Part} : ∀ a0 s, Sound p s → Sound p (takeUnitFrame a0 s) := by
  intro a0 s h0
  unfold takeUnitFrame
  repeat' with_reducible first
    | assumption | rfl | intro _ | apply noticeTo_sound | apply noteSettled_sound | apply answerTo_sound
    | apply noteArrived_sound | apply takeMessage_sound | apply noteLate_sound | apply foldl_sound | apply foldl_snd_sound
    | refine sound_parts ?_ ?_ ?_ | refine sound_of_snd_snd (by assumption) ?_ | refine sound_of_snd (by assumption) ?_
    | dsimp only [sound_mk_eq] | split

theorem takeDataFrame_sound {p : Part} : ∀ a0 s, Sound p s → Sound p (takeDataFrame a0 s) := by
  intro a0 s h0
  unfold takeDataFrame
  repeat' with_reducible first
    | assumption | rfl | intro _ | apply takeUnitFrame_sound | apply takeMemoryFrame_sound | refine sound_parts ?_ ?_ ?_
    | dsimp only [sound_mk_eq] | split

theorem siteFlit_sound {p : Part} : ∀ a0 s, Sound p s → Sound p (siteFlit a0 s) := by
  intro a0 s h0
  unfold siteFlit
  repeat' with_reducible first
    | assumption | rfl | intro _ | apply fireInjection_sound | apply report_sound | apply updSite_sound
    | refine sound_parts ?_ ?_ ?_ | refine sound_of_snd_snd (by assumption) ?_ | refine sound_of_snd (by assumption) ?_
    | dsimp only [sound_mk_eq] | split

theorem forwardFrame_sound {p : Part} : ∀ a0 s, Sound p s → Sound p (forwardFrame a0 s) := by
  intro a0 s h0
  unfold forwardFrame
  repeat' with_reducible first
    | assumption | rfl | intro _ | apply countFrames_sound | refine sound_parts ?_ ?_ ?_
    | refine sound_of_snd_snd (by assumption) ?_ | refine sound_of_snd (by assumption) ?_ | dsimp only [sound_mk_eq] | split

theorem frameTaken_sound {p : Part} : ∀ a0 a1 s, Sound p s → Sound p (frameTaken a0 a1 s) := by
  intro a0 a1 s h0
  unfold frameTaken
  repeat' with_reducible first
    | assumption | rfl | intro _ | apply takeDataFrame_sound | apply forwardFrame_sound | refine sound_parts ?_ ?_ ?_
    | dsimp only [sound_mk_eq] | split

theorem dataFrameReceive_sound {p : Part} : ∀ a0 a1 s, Sound p s → Sound p (dataFrameReceive a0 a1 s) := by
  intro a0 a1 s h0
  unfold dataFrameReceive
  repeat' with_reducible first
    | assumption | rfl | intro _ | apply fireInjection_sound | apply siteFlit_sound | apply portDown_sound
    | apply askReplay_sound | apply tagFailure_sound | apply updPort_sound | apply frameTaken_sound
    | refine sound_parts ?_ ?_ ?_ | refine sound_of_snd_snd (by assumption) ?_ | refine sound_of_snd (by assumption) ?_
    | dsimp only [sound_mk_eq] | split

theorem controlFrame_sound {p : Part} : ∀ a0 a1 s,
    (∀ t, Sound p t → Sound p (a1 t)) → Sound p s → Sound p (controlFrame a0 a1 s) := by
  intro a0 a1 s h0 h1
  unfold controlFrame
  repeat' with_reducible first
    | assumption | rfl | intro _ | apply h0 | apply fireInjection_sound | apply siteFlit_sound | apply portDown_sound
    | apply tagFailure_sound | apply updPort_sound | refine sound_parts ?_ ?_ ?_ | dsimp only [sound_mk_eq] | split

theorem execDataFrameReceive_sound {p : Part} : ∀ a0 a1 s, Sound p s → SoundAnswer p (execDataFrameReceive a0 a1 s) := by
  intro a0 a1 s h0
  unfold execDataFrameReceive
  repeat' with_reducible first
    | assumption | rfl | intro _ | apply dataFrameReceive_sound | apply soundAnswer_next

theorem stepTime_sound {p : Part} : ∀ a0 s, Sound p s → Sound p (stepTime a0 s) := by
  intro a0 s h0
  unfold stepTime
  repeat' with_reducible first
    | assumption | rfl | intro _ | apply updFabric_sound | apply report_sound | refine sound_parts ?_ ?_ ?_
    | dsimp only [sound_mk_eq] | split

theorem noteRoot_sound {p : Part} : ∀ a0 s, Sound p s → Sound p (noteRoot a0 s) := by
  intro a0 s h0
  unfold noteRoot
  repeat' with_reducible first
    | assumption | rfl | intro _ | apply updFabric_sound | apply report_sound | refine sound_parts ?_ ?_ ?_
    | dsimp only [sound_mk_eq] | split

theorem takeSource_sound {p : Part} : ∀ a0 a1 s, Sound p s → Sound p (takeSource a0 a1 s) := by
  intro a0 a1 s h0
  unfold takeSource
  repeat' with_reducible first
    | assumption | rfl | intro _ | apply updFabric_sound

theorem followSource_sound {p : Part} : ∀ a0 s, Sound p s → Sound p (followSource a0 s) := by
  intro a0 s h0
  unfold followSource
  repeat' with_reducible first
    | assumption | rfl | intro _ | apply updFabric_sound | apply stepTime_sound | apply takeSource_sound
    | refine sound_parts ?_ ?_ ?_ | refine sound_of_snd_snd (by assumption) ?_ | refine sound_of_snd (by assumption) ?_
    | dsimp only [sound_mk_eq] | split

theorem timeExchange_sound {p : Part} : ∀ a0 s, Sound p s → Sound p (timeExchange a0 s) := by
  intro a0 s h0
  unfold timeExchange
  repeat' with_reducible first
    | assumption | rfl | intro _ | apply updFabric_sound | apply stepTime_sound | apply takeSource_sound | apply noteRoot_sound
    | apply followSource_sound | refine sound_parts ?_ ?_ ?_ | refine sound_of_snd_snd (by assumption) ?_
    | refine sound_of_snd (by assumption) ?_ | dsimp only [sound_mk_eq] | split

theorem loseSync_sound {p : Part} : ∀ a0 s, Sound p s → Sound p (loseSync a0 s) := by
  intro a0 s h0
  unfold loseSync
  repeat' with_reducible first
    | assumption | rfl | intro _ | apply report_sound | refine sound_parts ?_ ?_ ?_ | dsimp only [sound_mk_eq]

theorem execTimeExchange_sound {p : Part} : ∀ a0 s, Sound p s → SoundAnswer p (execTimeExchange a0 s) := by
  intro a0 s h0
  unfold execTimeExchange
  repeat' with_reducible first
    | assumption | rfl | intro _ | apply controlFrame_sound | apply fireInjection_sound | apply loseSync_sound
    | apply timeExchange_sound | apply soundAnswer_next | apply soundAnswer_fault | refine sound_parts ?_ ?_ ?_
    | dsimp only [sound_mk_eq] | split

theorem execHoldoverExpire_sound {p : Part} : ∀ s, Sound p s → SoundAnswer p (execHoldoverExpire s) := by
  intro s h0
  unfold execHoldoverExpire
  repeat' with_reducible first
    | assumption | rfl | intro _ | apply loseSync_sound | apply soundAnswer_next | apply soundAnswer_fault
    | refine sound_parts ?_ ?_ ?_ | dsimp only [sound_mk_eq] | split

theorem execRootSyncTimeout_sound {p : Part} : ∀ s, Sound p s → SoundAnswer p (execRootSyncTimeout s) := by
  intro s h0
  unfold execRootSyncTimeout
  repeat' with_reducible first
    | assumption | rfl | intro _ | apply updFabric_sound | apply soundAnswer_next | apply soundAnswer_fault
    | refine sound_parts ?_ ?_ ?_ | refine sound_of_snd_snd (by assumption) ?_ | refine sound_of_snd (by assumption) ?_
    | dsimp only [sound_mk_eq] | split

theorem selfNotice_sound {p : Part} : ∀ a0 a1 s, Sound p s → Sound p (selfNotice a0 a1 s) := by
  intro a0 a1 s h0
  unfold selfNotice
  repeat' with_reducible first
    | assumption | rfl | intro _ | apply setPeer_sound | apply updFabric_sound | apply failTransfer_sound
    | apply failRepairsTo_sound | apply foldl_sound | apply foldl_snd_sound | refine sound_parts ?_ ?_ ?_
    | dsimp only [sound_mk_eq] | split

theorem passNotice_sound {p : Part} : ∀ a0 s, Sound p s → Sound p (passNotice a0 s) := by
  intro a0 s h0
  unfold passNotice
  repeat' with_reducible first
    | assumption | rfl | intro _ | apply floodFrames_sound | refine sound_parts ?_ ?_ ?_ | dsimp only [sound_mk_eq] | split

theorem execSelfNotice_sound {p : Part} : ∀ a0 a1 a2 s, Sound p s → SoundAnswer p (execSelfNotice a0 a1 a2 s) := by
  intro a0 a1 a2 s h0
  unfold execSelfNotice
  repeat' with_reducible first
    | assumption | rfl | intro _ | apply controlFrame_sound | apply selfNotice_sound | apply passNotice_sound
    | apply soundAnswer_next | apply soundAnswer_fault | refine sound_parts ?_ ?_ ?_ | dsimp only [sound_mk_eq] | split

theorem execLinkNotice_sound {p : Part} : ∀ a0 a1 a2 s, Sound p s → SoundAnswer p (execLinkNotice a0 a1 a2 s) := by
  intro a0 a1 a2 s h0
  unfold execLinkNotice
  repeat' with_reducible first
    | assumption | rfl | intro _ | apply controlFrame_sound | apply noteLinkDown_sound | apply passNotice_sound
    | apply soundAnswer_next | apply soundAnswer_fault | refine sound_parts ?_ ?_ ?_ | dsimp only [sound_mk_eq] | split

end Sys2Proof.Machine
end

