-- ==== Sys2Proof/Laws/Sound/Kerf.lean ====
section
/-!
SUPPORT. Laws/Sound/Kerf.lean: what Machine/Kerf.lean does keeps a state sound (Sys2Proof.Sound): memory canonical, the record
queue bounded, the part unchanged.
-/

namespace Sys2Proof.Machine

theorem followPorts_sound {p : Part} : ∀ a0 s, Sound p s → Sound p (followPorts a0 s) := by
  intro a0 s h0
  unfold followPorts
  repeat' with_reducible first
    | assumption | rfl | intro _ | apply loseSource_sound | apply linkLost_sound | apply noteIsolation_sound
    | apply notePort_sound | apply foldl_sound | apply foldl_snd_sound | refine sound_parts ?_ ?_ ?_ | dsimp only [sound_mk_eq]
    | split

theorem roleLost_sound {p : Part} : ∀ a0 a1 s, Sound p s → Sound p (roleLost a0 a1 s) := by
  intro a0 a1 s h0
  unfold roleLost
  repeat' with_reducible first
    | assumption | rfl | intro _ | apply raiseFatal_sound | apply followPorts_sound | apply reportAs_sound
    | refine sound_parts ?_ ?_ ?_ | refine sound_of_snd_snd (by assumption) ?_ | refine sound_of_snd (by assumption) ?_
    | dsimp only [sound_mk_eq] | split

theorem fitPorts_sound {p : Part} : ∀ a0 s, Sound p s → Sound p (fitPorts a0 s) := by
  intro a0 s h0
  unfold fitPorts
  repeat' with_reducible first
    | assumption | rfl | intro _ | apply updPort_sound | apply followPorts_sound | apply reportModule_sound | apply foldl_sound
    | apply foldl_snd_sound | refine sound_parts ?_ ?_ ?_ | dsimp only [sound_mk_eq] | split

theorem bundleDown_sound {p : Part} : ∀ a0 a1 a2 s, Sound p s → Sound p (bundleDown a0 a1 a2 s) := by
  intro a0 a1 a2 s h0
  unfold bundleDown
  repeat' with_reducible first
    | assumption | rfl | intro _ | apply updBundle_sound | apply moveFlits_sound | apply report_sound | apply fitPorts_sound
    | apply roleLost_sound | refine sound_parts ?_ ?_ ?_ | refine sound_of_snd_snd (by assumption) ?_
    | refine sound_of_snd (by assumption) ?_ | dsimp only [sound_mk_eq] | split

theorem flitArrives_sound {p : Part} : ∀ a0 a1 a2 a3 a4 s, Sound p s → Sound p (flitArrives a0 a1 a2 a3 a4 s) := by
  intro a0 a1 a2 a3 a4 s h0
  unfold flitArrives
  repeat' with_reducible first
    | assumption | rfl | intro _ | apply updBundle_sound | apply arriveFlit_sound | refine sound_parts ?_ ?_ ?_
    | refine sound_of_snd_snd (by assumption) ?_ | refine sound_of_snd (by assumption) ?_ | dsimp only [sound_mk_eq] | split

theorem execKerfFlitReceive_sound {p : Part} : ∀ a0 a1 a2 a3 a4 a5 s,
    Sound p s → SoundAnswer p (execKerfFlitReceive a0 a1 a2 a3 a4 a5 s) := by
  intro a0 a1 a2 a3 a4 a5 s h0
  unfold execKerfFlitReceive
  repeat' with_reducible first
    | assumption | rfl | intro _ | apply offerFlit_sound | apply flitArrives_sound | apply foldl_sound | apply foldl_snd_sound
    | apply soundAnswer_next | apply soundAnswer_fault | refine sound_parts ?_ ?_ ?_ | dsimp only [sound_mk_eq] | split

theorem kerfReplay_sound {p : Part} : ∀ a0 a1 a2 s, Sound p s → Sound p (kerfReplay a0 a1 a2 s) := by
  intro a0 a1 a2 s h0
  unfold kerfReplay
  repeat' with_reducible first
    | assumption | rfl | intro _ | apply fireInjection_sound | apply updBundle_sound | refine sound_parts ?_ ?_ ?_
    | refine sound_of_snd_snd (by assumption) ?_ | refine sound_of_snd (by assumption) ?_ | dsimp only [sound_mk_eq] | split

theorem execKerfReplay_sound {p : Part} : ∀ a0 a1 a2 s, Sound p s → SoundAnswer p (execKerfReplay a0 a1 a2 s) := by
  intro a0 a1 a2 s h0
  unfold execKerfReplay
  repeat' with_reducible first
    | assumption | rfl | intro _ | apply kerfReplay_sound | apply soundAnswer_next | apply soundAnswer_fault
    | refine sound_parts ?_ ?_ ?_ | dsimp only [sound_mk_eq] | split

theorem pauseBundle_sound {p : Part} : ∀ a0 a1 s, Sound p s → Sound p (pauseBundle a0 a1 s) := by
  intro a0 a1 s h0
  unfold pauseBundle
  repeat' with_reducible first
    | assumption | rfl | intro _ | apply moveFlits_sound | apply updBundle_sound

theorem settleBundle_sound {p : Part} : ∀ a0 a1 a2 a3 a4 a5 s, Sound p s → Sound p (settleBundle a0 a1 a2 a3 a4 a5 s) := by
  intro a0 a1 a2 a3 a4 a5 s h0
  unfold settleBundle
  repeat' with_reducible first
    | assumption | rfl | intro _ | apply updBundle_sound | apply bundleDown_sound | apply pauseBundle_sound
    | apply fitPorts_sound | apply report_sound | refine sound_parts ?_ ?_ ?_ | dsimp only [sound_mk_eq] | split

theorem beginRetrain_sound {p : Part} : ∀ a0 a1 a2 a3 s, Sound p s → Sound p (beginRetrain a0 a1 a2 a3 s) := by
  intro a0 a1 a2 a3 s h0
  unfold beginRetrain
  repeat' with_reducible first
    | assumption | rfl | intro _ | apply updBundle_sound | apply report_sound

theorem laneCheck_sound {p : Part} : ∀ a0 a1 a2 a3 s, Sound p s → Sound p (laneCheck a0 a1 a2 a3 s) := by
  intro a0 a1 a2 a3 s h0
  unfold laneCheck
  repeat' with_reducible first
    | assumption | rfl | intro _ | apply fireInjection_sound | apply updBundle_sound | apply settleBundle_sound
    | apply beginRetrain_sound | refine sound_parts ?_ ?_ ?_ | refine sound_of_snd_snd (by assumption) ?_
    | refine sound_of_snd (by assumption) ?_ | dsimp only [sound_mk_eq] | split

theorem execKerfLaneCheck_sound {p : Part} : ∀ a0 a1 a2 a3 s, Sound p s → SoundAnswer p (execKerfLaneCheck a0 a1 a2 a3 s) := by
  intro a0 a1 a2 a3 s h0
  unfold execKerfLaneCheck
  repeat' with_reducible first
    | assumption | rfl | intro _ | apply laneCheck_sound | apply soundAnswer_next | apply soundAnswer_fault
    | refine sound_parts ?_ ?_ ?_ | dsimp only [sound_mk_eq] | split

theorem takeFailures_sound {p : Part} : ∀ a0 a1 a2 a3 s, Sound p s → Sound p (takeFailures a0 a1 a2 a3 s) := by
  intro a0 a1 a2 a3 s h0
  unfold takeFailures
  repeat' with_reducible first
    | assumption | rfl | intro _ | apply updBundle_sound | apply settleBundle_sound | refine sound_parts ?_ ?_ ?_
    | refine sound_of_snd_snd (by assumption) ?_ | refine sound_of_snd (by assumption) ?_ | dsimp only [sound_mk_eq] | split

theorem execPausedRepairDone_sound {p : Part} : ∀ a0 a1 a2 a3 s,
    Sound p s → SoundAnswer p (execPausedRepairDone a0 a1 a2 a3 s) := by
  intro a0 a1 a2 a3 s h0
  unfold execPausedRepairDone
  repeat' with_reducible first
    | assumption | rfl | intro _ | apply wakeFlits_sound | apply updBundle_sound | apply takeFailures_sound
    | apply soundAnswer_next | apply soundAnswer_fault | refine sound_parts ?_ ?_ ?_ | dsimp only [sound_mk_eq] | split

theorem execKerfRetrainDone_sound {p : Part} : ∀ a0 a1 a2 a3 s,
    Sound p s → SoundAnswer p (execKerfRetrainDone a0 a1 a2 a3 s) := by
  intro a0 a1 a2 a3 s h0
  unfold execKerfRetrainDone
  repeat' with_reducible first
    | assumption | rfl | intro _ | apply wakeFlits_sound | apply updBundle_sound | apply takeFailures_sound
    | apply soundAnswer_next | apply soundAnswer_fault | refine sound_parts ?_ ?_ ?_ | dsimp only [sound_mk_eq] | split

theorem execKerfClockLoss_sound {p : Part} : ∀ a0 a1 a2 s, Sound p s → SoundAnswer p (execKerfClockLoss a0 a1 a2 s) := by
  intro a0 a1 a2 s h0
  unfold execKerfClockLoss
  repeat' with_reducible first
    | assumption | rfl | intro _ | apply bundleDown_sound | apply updBundle_sound | apply soundAnswer_next
    | apply soundAnswer_fault | refine sound_parts ?_ ?_ ?_ | dsimp only [sound_mk_eq] | split

theorem markSitePorts_sound {p : Part} : ∀ a0 s, Sound p s → Sound p (markSitePorts a0 s) := by
  intro a0 s h0
  unfold markSitePorts
  repeat' with_reducible first
    | assumption | rfl | intro _ | apply followPorts_sound | apply updPort_sound | apply foldl_sound | apply foldl_snd_sound
    | refine sound_parts ?_ ?_ ?_ | dsimp only [sound_mk_eq] | split

theorem shutSite_sound {p : Part} : ∀ a0 a1 s, Sound p s → Sound p (shutSite a0 a1 s) := by
  intro a0 a1 s h0
  unfold shutSite
  repeat' with_reducible first
    | assumption | rfl | intro _ | apply updSite_sound | apply report_sound | apply markSitePorts_sound

theorem execSiteTempReport_sound {p : Part} : ∀ a0 a1 s, Sound p s → SoundAnswer p (execSiteTempReport a0 a1 s) := by
  intro a0 a1 s h0
  unfold execSiteTempReport
  repeat' with_reducible first
    | assumption | rfl | intro _ | apply fireInjection_sound | apply updSite_sound | apply shutSite_sound
    | apply soundAnswer_next | apply soundAnswer_fault | refine sound_parts ?_ ?_ ?_ | dsimp only [sound_mk_eq] | split

theorem execSiteReportTimeout_sound {p : Part} : ∀ a0 s, Sound p s → SoundAnswer p (execSiteReportTimeout a0 s) := by
  intro a0 s h0
  unfold execSiteReportTimeout
  repeat' with_reducible first
    | assumption | rfl | intro _ | apply shutSite_sound | apply soundAnswer_next | apply soundAnswer_fault
    | refine sound_parts ?_ ?_ ?_ | dsimp only [sound_mk_eq] | split

theorem execSiteMainbandFailure_sound {p : Part} : ∀ a0 a1 a2 a3 a4 s,
    Sound p s → SoundAnswer p (execSiteMainbandFailure a0 a1 a2 a3 a4 s) := by
  intro a0 a1 a2 a3 a4 s h0
  unfold execSiteMainbandFailure
  repeat' with_reducible first
    | assumption | rfl | intro _ | apply shutSite_sound | apply report_sound | apply updSite_sound | apply soundAnswer_next
    | apply soundAnswer_fault | refine sound_parts ?_ ?_ ?_ | dsimp only [sound_mk_eq] | split

theorem endSiteAccess_sound {p : Part} : ∀ a0 a1 s, Sound p s → Sound p (endSiteAccess a0 a1 s) := by
  intro a0 a1 s h0
  unfold endSiteAccess
  repeat' with_reducible first
    | assumption | rfl | intro _ | apply updHart_sound | apply releaseWriter_sound | apply vendorAnswer_sound
    | apply updMgmt_sound | refine sound_parts ?_ ?_ ?_ | refine sound_of_snd_snd (by assumption) ?_
    | refine sound_of_snd (by assumption) ?_ | dsimp only [sound_mk_eq] | split

theorem siteAnswered_sound {p : Part} : ∀ a0 a1 a2 a3 s, Sound p s → Sound p (siteAnswered a0 a1 a2 a3 s) := by
  intro a0 a1 a2 a3 s h0
  unfold siteAnswered
  repeat' with_reducible first
    | assumption | rfl | intro _ | apply endSiteAccess_sound | apply updSite_sound | refine sound_parts ?_ ?_ ?_
    | refine sound_of_snd_snd (by assumption) ?_ | refine sound_of_snd (by assumption) ?_ | dsimp only [sound_mk_eq] | split

theorem forwardAccess_sound {p : Part} : ∀ a0 a1 a2 a3 s, Sound p s → Sound p (forwardAccess a0 a1 a2 a3 s) := by
  intro a0 a1 a2 a3 s h0
  unfold forwardAccess
  repeat' with_reducible first
    | assumption | rfl | intro _ | apply updSite_sound

theorem siteWindowAccess_sound {p : Part} : ∀ a0 a1 a2 a3 a4 s, Sound p s → Sound p (siteWindowAccess a0 a1 a2 a3 a4 s) := by
  intro a0 a1 a2 a3 a4 s h0
  unfold siteWindowAccess
  repeat' with_reducible first
    | assumption | rfl | intro _ | apply siteAnswered_sound | apply updHart_sound | apply forwardAccess_sound
    | refine sound_parts ?_ ?_ ?_ | refine sound_of_snd_snd (by assumption) ?_ | refine sound_of_snd (by assumption) ?_
    | dsimp only [sound_mk_eq] | split

theorem execSiteWindowAccess_sound {p : Part} : ∀ a0 a1 a2 a3 a4 s,
    Sound p s → SoundAnswer p (execSiteWindowAccess a0 a1 a2 a3 a4 s) := by
  intro a0 a1 a2 a3 a4 s h0
  unfold execSiteWindowAccess
  repeat' with_reducible first
    | assumption | rfl | intro _ | apply siteWindowAccess_sound | apply soundAnswer_next

theorem execSiteWindowTimeout_sound {p : Part} : ∀ a0 s, Sound p s → SoundAnswer p (execSiteWindowTimeout a0 s) := by
  intro a0 s h0
  unfold execSiteWindowTimeout
  repeat' with_reducible first
    | assumption | rfl | intro _ | apply reportModule_sound | apply endSiteAccess_sound | apply updSite_sound
    | apply soundAnswer_next | apply soundAnswer_fault | refine sound_parts ?_ ?_ ?_
    | refine sound_of_snd_snd (by assumption) ?_ | refine sound_of_snd (by assumption) ?_ | dsimp only [sound_mk_eq] | split

end Sys2Proof.Machine
end

