-- ==== Sys2Proof/Laws/Sound/Protect.lean ====
section
/-!
SUPPORT. Laws/Sound/Protect.lean: what Machine/Protect.lean does keeps a state sound (Sys2Proof.Sound): memory canonical, the record
queue bounded, the part unchanged.
-/

namespace Sys2Proof.Machine

theorem walkDone_sound {p : Part} : ∀ a0 s, Sound p s → Sound p (walkDone a0 s) := by
  intro a0 s h0
  unfold walkDone
  repeat' with_reducible first
    | assumption | rfl | intro _ | apply walk_sound | apply failWaiter_sound | apply enterFault_sound | apply resumeWaiter_sound
    | refine sound_parts ?_ ?_ ?_ | refine sound_of_snd_snd (by assumption) ?_ | refine sound_of_snd (by assumption) ?_
    | dsimp only [sound_mk_eq] | split

theorem execPageWalkDone_sound {p : Part} : ∀ a0 a1 s, Sound p s → SoundAnswer p (execPageWalkDone a0 a1 s) := by
  intro a0 a1 s h0
  unfold execPageWalkDone
  repeat' with_reducible first
    | assumption | rfl | intro _ | apply walkDone_sound | apply soundAnswer_next | apply soundAnswer_fault
    | refine sound_parts ?_ ?_ ?_ | refine sound_of_snd_snd (by assumption) ?_ | refine sound_of_snd (by assumption) ?_
    | dsimp only [sound_mk_eq] | split

theorem execBatchTimerClose_sound {p : Part} : ∀ s, Sound p s → SoundAnswer p (execBatchTimerClose s) := by
  intro s h0
  unfold execBatchTimerClose
  repeat' with_reducible first
    | assumption | rfl | intro _ | apply closeBatch_sound | apply soundAnswer_next

theorem execFlush_sound {p : Part} : ∀ s, Sound p s → SoundAnswer p (execFlush s) := by
  intro s h0
  unfold execFlush
  repeat' with_reducible first
    | assumption | rfl | intro _ | apply closeBatch_sound | apply soundAnswer_next

theorem retryEntry_sound {p : Part} : ∀ a0 s, Sound p s → Sound p (retryEntry a0 s) := by
  intro a0 s h0
  unfold retryEntry
  repeat' with_reducible first
    | assumption | rfl | intro _ | refine sound_parts ?_ ?_ ?_ | dsimp only [sound_mk_eq]

theorem failEntry_sound {p : Part} : ∀ a0 a1 s, Sound p s → Sound p (failEntry a0 a1 s) := by
  intro a0 a1 s h0
  unfold failEntry
  repeat' with_reducible first
    | assumption | rfl | intro _ | apply failWaiter_sound | apply foldl_sound

theorem freeBatch_sound {p : Part} : ∀ a0 s, Sound p s → Sound p (freeBatch a0 s) := by
  intro a0 s h0
  unfold freeBatch
  repeat' with_reducible first
    | assumption | rfl | intro _ | apply enterHeld_sound | refine sound_parts ?_ ?_ ?_ | dsimp only [sound_mk_eq]

theorem answerBatch_sound {p : Part} : ∀ a0 s, Sound p s → Sound p (answerBatch a0 s) := by
  intro a0 s h0
  unfold answerBatch
  repeat' with_reducible first
    | assumption | rfl | intro _ | apply retryEntry_sound | apply failEntry_sound | apply freeBatch_sound | apply foldl_sound
    | apply foldl_snd_sound | refine sound_parts ?_ ?_ ?_ | refine sound_of_snd_snd (by assumption) ?_
    | refine sound_of_snd (by assumption) ?_ | dsimp only [sound_mk_eq] | split

theorem tuFbDoneWrite_sound {p : Part} : ∀ a0 s, Sound p s → Sound p (tuFbDoneWrite a0 s) := by
  intro a0 s h0
  unfold tuFbDoneWrite
  repeat' with_reducible first
    | assumption | rfl | intro _ | apply answerBatch_sound | refine sound_parts ?_ ?_ ?_
    | refine sound_of_snd_snd (by assumption) ?_ | refine sound_of_snd (by assumption) ?_ | dsimp only [sound_mk_eq] | split

theorem execTuFbDone_sound {p : Part} : ∀ a0 s, Sound p s → SoundAnswer p (execTuFbDone a0 s) := by
  intro a0 s h0
  unfold execTuFbDone
  repeat' with_reducible first
    | assumption | rfl | intro _ | apply tuFbDoneWrite_sound | apply soundAnswer_next

theorem batchTimeout_sound {p : Part} : ∀ a0 s, Sound p s → Sound p (batchTimeout a0 s) := by
  intro a0 s h0
  unfold batchTimeout
  repeat' with_reducible first
    | assumption | rfl | intro _ | apply freeBatch_sound | apply failEntry_sound | apply foldl_sound | apply foldl_snd_sound
    | refine sound_parts ?_ ?_ ?_ | refine sound_of_snd_snd (by assumption) ?_ | refine sound_of_snd (by assumption) ?_
    | dsimp only [sound_mk_eq] | split

theorem execBatchAnswerTimeout_sound {p : Part} : ∀ a0 s, Sound p s → SoundAnswer p (execBatchAnswerTimeout a0 s) := by
  intro a0 s h0
  unfold execBatchAnswerTimeout
  repeat' with_reducible first
    | assumption | rfl | intro _ | apply batchTimeout_sound | apply soundAnswer_next

theorem tuCtxBaseWrite_sound {p : Part} : ∀ a0 s, Sound p s → Sound p (tuCtxBaseWrite a0 s) := by
  intro a0 s h0
  unfold tuCtxBaseWrite
  repeat' with_reducible first
    | assumption | rfl | intro _ | refine sound_parts ?_ ?_ ?_ | dsimp only [sound_mk_eq]

theorem execTuCtxEnable_sound {p : Part} : ∀ a0 s, Sound p s → SoundAnswer p (execTuCtxEnable a0 s) := by
  intro a0 s h0
  unfold execTuCtxEnable
  repeat' with_reducible first
    | assumption | rfl | intro _ | apply tuCtxBaseWrite_sound | apply soundAnswer_next

theorem tuFbBaseWrite_sound {p : Part} : ∀ a0 s, Sound p s → Sound p (tuFbBaseWrite a0 s) := by
  intro a0 s h0
  unfold tuFbBaseWrite
  repeat' with_reducible first
    | assumption | rfl | intro _ | refine sound_parts ?_ ?_ ?_ | dsimp only [sound_mk_eq]

theorem execTuFbEnable_sound {p : Part} : ∀ a0 s, Sound p s → SoundAnswer p (execTuFbEnable a0 s) := by
  intro a0 s h0
  unfold execTuFbEnable
  repeat' with_reducible first
    | assumption | rfl | intro _ | apply tuFbBaseWrite_sound | apply soundAnswer_next

theorem tuInvalWrite_sound {p : Part} : ∀ a0 a1 s, Sound p s → Sound p (tuInvalWrite a0 a1 s).2 := by
  intro a0 a1 s h0
  unfold tuInvalWrite
  repeat' with_reducible first
    | assumption | rfl | intro _ | refine sound_parts ?_ ?_ ?_ | refine sound_of_snd_snd (by assumption) ?_
    | refine sound_of_snd (by assumption) ?_ | dsimp only [sound_mk_eq] | split

theorem execTuInval_sound {p : Part} : ∀ a0 s, Sound p s → SoundAnswer p (execTuInval a0 s) := by
  intro a0 s h0
  unfold execTuInval
  repeat' with_reducible first
    | assumption | rfl | intro _ | apply tuInvalWrite_sound | apply soundAnswer_next

theorem invalDrained_sound {p : Part} : ∀ s, Sound p s → Sound p (invalDrained s).2 := by
  intro s h0
  unfold invalDrained
  repeat' with_reducible first
    | assumption | rfl | intro _ | refine sound_parts ?_ ?_ ?_ | refine sound_of_snd_snd (by assumption) ?_
    | refine sound_of_snd (by assumption) ?_ | dsimp only [sound_mk_eq] | split

theorem execInvalidationDrainDone_sound {p : Part} : ∀ s, Sound p s → SoundAnswer p (execInvalidationDrainDone s) := by
  intro s h0
  unfold execInvalidationDrainDone
  repeat' with_reducible first
    | assumption | rfl | intro _ | apply invalDrained_sound | apply releaseWriter_sound | apply soundAnswer_next

theorem updStakes_sound {p : Part} : ∀ a0 a1 s, Sound p s → Sound p (updStakes a0 a1 s) := by
  intro a0 a1 s h0
  unfold updStakes
  repeat' with_reducible first
    | assumption | rfl | intro _ | apply foldl_sound | apply foldl_snd_sound | refine sound_parts ?_ ?_ ?_
    | dsimp only [sound_mk_eq]

theorem dropStakeLines_sound {p : Part} : ∀ a0 s, Sound p s → Sound p (dropStakeLines a0 s) := by
  intro a0 s h0
  unfold dropStakeLines
  repeat' with_reducible first
    | assumption | rfl | intro _ | refine sound_parts ?_ ?_ ?_ | dsimp only [sound_mk_eq]

theorem carryAssign_sound {p : Part} : ∀ s, Sound p s → Sound p (carryAssign s) := by
  intro s h0
  unfold carryAssign
  repeat' with_reducible first
    | assumption | rfl | intro _ | apply updStakes_sound | refine sound_parts ?_ ?_ ?_
    | refine sound_of_snd_snd (by assumption) ?_ | refine sound_of_snd (by assumption) ?_ | dsimp only [sound_mk_eq] | split

theorem beginRelease_sound {p : Part} : ∀ a0 s, Sound p s → Sound p (beginRelease a0 s) := by
  intro a0 s h0
  unfold beginRelease
  repeat' with_reducible first
    | assumption | rfl | intro _ | apply carryAssign_sound | apply dropStakeLines_sound | apply updStakes_sound
    | refine sound_parts ?_ ?_ ?_ | refine sound_of_snd_snd (by assumption) ?_ | refine sound_of_snd (by assumption) ?_
    | dsimp only [sound_mk_eq]

theorem unsealContext_sound {p : Part} : ∀ a0 s, Sound p s → Sound p (unsealContext a0 s) := by
  intro a0 s h0
  unfold unsealContext
  repeat' with_reducible first
    | assumption | rfl | intro _ | apply beginRelease_sound | apply carryAssign_sound | refine sound_parts ?_ ?_ ?_
    | dsimp only [sound_mk_eq]

theorem stakeResult_sound {p : Part} : ∀ a0 s, Sound p s → Sound p (stakeResult a0 s) := by
  intro a0 s h0
  unfold stakeResult
  repeat' with_reducible first
    | assumption | rfl | intro _ | refine sound_parts ?_ ?_ ?_ | dsimp only [sound_mk_eq]

theorem stakeAssign_sound {p : Part} : ∀ a0 a1 s, Sound p s → Sound p (stakeAssign a0 a1 s) := by
  intro a0 a1 s h0
  unfold stakeAssign
  repeat' with_reducible first
    | assumption | rfl | intro _ | apply stakeResult_sound | refine sound_parts ?_ ?_ ?_ | dsimp only [sound_mk_eq] | split

theorem stakeRelease_sound {p : Part} : ∀ a0 s, Sound p s → Sound p (stakeRelease a0 s) := by
  intro a0 s h0
  unfold stakeRelease
  repeat' with_reducible first
    | assumption | rfl | intro _ | apply stakeResult_sound | apply beginRelease_sound | refine sound_parts ?_ ?_ ?_
    | dsimp only [sound_mk_eq] | split

theorem stakeRevoke_sound {p : Part} : ∀ a0 a1 s, Sound p s → Sound p (stakeRevoke a0 a1 s) := by
  intro a0 a1 s h0
  unfold stakeRevoke
  repeat' with_reducible first
    | assumption | rfl | intro _ | apply stakeResult_sound | apply unsealContext_sound | refine sound_parts ?_ ?_ ?_
    | dsimp only [sound_mk_eq] | split

theorem execAssign_sound {p : Part} : ∀ a0 s, Sound p s → SoundAnswer p (execAssign a0 s) := by
  intro a0 s h0
  unfold execAssign
  repeat' with_reducible first
    | assumption | rfl | intro _ | apply stakeAssign_sound | apply soundAnswer_next | apply soundAnswer_fault
    | refine sound_parts ?_ ?_ ?_ | dsimp only [sound_mk_eq] | split

theorem execRelease_sound {p : Part} : ∀ a0 s, Sound p s → SoundAnswer p (execRelease a0 s) := by
  intro a0 s h0
  unfold execRelease
  repeat' with_reducible first
    | assumption | rfl | intro _ | apply stakeRelease_sound | apply soundAnswer_next | apply soundAnswer_fault
    | refine sound_parts ?_ ?_ ?_ | dsimp only [sound_mk_eq] | split

theorem execRevokeSeal_sound {p : Part} : ∀ a0 s, Sound p s → SoundAnswer p (execRevokeSeal a0 s) := by
  intro a0 s h0
  unfold execRevokeSeal
  repeat' with_reducible first
    | assumption | rfl | intro _ | apply stakeRevoke_sound | apply soundAnswer_next | apply soundAnswer_fault
    | refine sound_parts ?_ ?_ ?_ | dsimp only [sound_mk_eq] | split

theorem stakeCmdWrite_sound {p : Part} : ∀ a0 s, Sound p s → Sound p (stakeCmdWrite a0 s) := by
  intro a0 s h0
  unfold stakeCmdWrite
  repeat' with_reducible first
    | assumption | rfl | intro _ | apply stakeAssign_sound | apply stakeRelease_sound | apply stakeRevoke_sound
    | refine sound_parts ?_ ?_ ?_ | refine sound_of_snd_snd (by assumption) ?_ | refine sound_of_snd (by assumption) ?_
    | dsimp only [sound_mk_eq] | split

theorem execStakeAssignDone_sound {p : Part} : ∀ s, Sound p s → SoundAnswer p (execStakeAssignDone s) := by
  intro s h0
  unfold execStakeAssignDone
  repeat' with_reducible first
    | assumption | rfl | intro _ | apply carryAssign_sound | apply soundAnswer_next

theorem freeStakes_sound {p : Part} : ∀ a0 s, Sound p s → Sound p (freeStakes a0 s) := by
  intro a0 s h0
  unfold freeStakes
  repeat' with_reducible first
    | assumption | rfl | intro _ | apply zeroRange_sound | apply updStakes_sound | apply foldl_sound | apply foldl_snd_sound
    | refine sound_parts ?_ ?_ ?_ | dsimp only [sound_mk_eq] | split

theorem stakeReleaseDone_sound {p : Part} : ∀ s, Sound p s → Sound p (stakeReleaseDone s) := by
  intro s h0
  unfold stakeReleaseDone
  repeat' with_reducible first
    | assumption | rfl | intro _ | apply freeStakes_sound | refine sound_parts ?_ ?_ ?_
    | refine sound_of_snd_snd (by assumption) ?_ | refine sound_of_snd (by assumption) ?_ | dsimp only [sound_mk_eq] | split

theorem execStakeReleaseDone_sound {p : Part} : ∀ s, Sound p s → SoundAnswer p (execStakeReleaseDone s) := by
  intro s h0
  unfold execStakeReleaseDone
  repeat' with_reducible first
    | assumption | rfl | intro _ | apply stakeReleaseDone_sound | apply soundAnswer_next

theorem issueOpInval_sound {p : Part} : ∀ a0 a1 s, Sound p s → Sound p (issueOpInval a0 a1 s) := by
  intro a0 a1 s h0
  unfold issueOpInval
  repeat' with_reducible first
    | assumption | rfl | intro _ | refine sound_parts ?_ ?_ ?_ | dsimp only [sound_mk_eq]

theorem opcacheInvalWrite_sound {p : Part} : ∀ a0 a1 a2 s, Sound p s → Sound p (opcacheInvalWrite a0 a1 a2 s).2 := by
  intro a0 a1 a2 s h0
  unfold opcacheInvalWrite
  repeat' with_reducible first
    | assumption | rfl | intro _ | apply issueOpInval_sound | refine sound_parts ?_ ?_ ?_ | dsimp only [sound_mk_eq] | split

theorem execOpcacheInval_sound {p : Part} : ∀ a0 a1 s, Sound p s → SoundAnswer p (execOpcacheInval a0 a1 s) := by
  intro a0 a1 s h0
  unfold execOpcacheInval
  repeat' with_reducible first
    | assumption | rfl | intro _ | apply opcacheInvalWrite_sound | apply soundAnswer_next | apply soundAnswer_fault
    | refine sound_parts ?_ ?_ ?_ | dsimp only [sound_mk_eq] | split

theorem opInvalDone_sound {p : Part} : ∀ a0 s, Sound p s → Sound p (opInvalDone a0 s).2 := by
  intro a0 s h0
  unfold opInvalDone
  repeat' with_reducible first
    | assumption | rfl | intro _ | apply issueOpInval_sound | refine sound_parts ?_ ?_ ?_
    | refine sound_of_snd_snd (by assumption) ?_ | refine sound_of_snd (by assumption) ?_ | dsimp only [sound_mk_eq] | split

theorem execOpcacheInvalDone_sound {p : Part} : ∀ a0 s, Sound p s → SoundAnswer p (execOpcacheInvalDone a0 s) := by
  intro a0 s h0
  unfold execOpcacheInvalDone
  repeat' with_reducible first
    | assumption | rfl | intro _ | apply opInvalDone_sound | apply releaseWriter_sound | apply soundAnswer_next

end Sys2Proof.Machine
end

