-- ==== Sys2Proof/Laws/Sound/Transfers.lean ====
section
/-!
SUPPORT. Laws/Sound/Transfers.lean: what Machine/Transfers.lean does keeps a state sound (Sys2Proof.Sound): memory canonical, the record
queue bounded, the part unchanged.
-/

namespace Sys2Proof.Machine

theorem addClaim_sound {p : Part} : ∀ a0 a1 a2 s, Sound p s → Sound p (addClaim a0 a1 a2 s) := by
  intro a0 a1 a2 s h0
  unfold addClaim
  repeat' with_reducible first
    | assumption | rfl | intro _ | apply updFabric_sound

theorem dropClaim_sound {p : Part} : ∀ a0 a1 a2 s, Sound p s → Sound p (dropClaim a0 a1 a2 s) := by
  intro a0 a1 a2 s h0
  unfold dropClaim
  repeat' with_reducible first
    | assumption | rfl | intro _ | apply updFabric_sound

theorem claimSlots_sound {p : Part} : ∀ a0 a1 s, Sound p s → Sound p (claimSlots a0 a1 s) := by
  intro a0 a1 s h0
  fun_induction claimSlots a0 a1 s
  all_goals repeat' with_reducible first
    | assumption | rfl | intro _ | apply addClaim_sound | apply updTransfer_sound | refine sound_parts ?_ ?_ ?_
    | refine sound_of_snd_snd (by assumption) ?_ | refine sound_of_snd (by assumption) ?_ | apply_assumption -exfalso -symm

theorem freeParts_sound {p : Part} : ∀ a0 a1 s, Sound p s → Sound p (freeParts a0 a1 s) := by
  intro a0 a1 s h0
  unfold freeParts
  repeat' with_reducible first
    | assumption | rfl | intro _ | apply dropClaim_sound | apply updTransfer_sound | apply foldl_sound

theorem deliverHere_sound {p : Part} : ∀ a0 s, Sound p s → Sound p (deliverHere a0 s).2 := by
  intro a0 s h0
  unfold deliverHere
  repeat' with_reducible first
    | assumption | rfl | intro _ | apply takeMessage_sound | apply staleAtSender_sound | apply windowWrite_sound
    | apply foldl_sound | apply foldl_snd_sound | refine sound_parts ?_ ?_ ?_ | refine sound_of_snd_snd (by assumption) ?_
    | refine sound_of_snd (by assumption) ?_ | dsimp only [sound_mk_eq] | split

theorem leftBench_sound {p : Part} : ∀ a0 s, Sound p s → Sound p (leftBench a0 s) := by
  intro a0 s h0
  unfold leftBench
  repeat' with_reducible first
    | assumption | rfl | intro _ | apply updTask_sound | refine sound_parts ?_ ?_ ?_
    | refine sound_of_snd_snd (by assumption) ?_ | refine sound_of_snd (by assumption) ?_ | dsimp only [sound_mk_eq] | split

theorem handOver_sound {p : Part} : ∀ a0 s, Sound p s → Sound p (handOver a0 s) := by
  intro a0 s h0
  unfold handOver
  repeat' with_reducible first
    | assumption | rfl | intro _ | apply failHandover_sound | apply deliverHere_sound | apply dropTransfer_sound
    | apply leftBench_sound | apply updTransfer_sound | apply claimSlots_sound | apply countFrames_sound
    | refine sound_parts ?_ ?_ ?_ | refine sound_of_snd_snd (by assumption) ?_ | refine sound_of_snd (by assumption) ?_
    | dsimp only [sound_mk_eq] | split

theorem execTransferHandover_sound {p : Part} : ∀ a0 s, Sound p s → SoundAnswer p (execTransferHandover a0 s) := by
  intro a0 s h0
  unfold execTransferHandover
  repeat' with_reducible first
    | assumption | rfl | intro _ | apply handOver_sound | apply soundAnswer_next | apply soundAnswer_fault
    | refine sound_parts ?_ ?_ ?_ | refine sound_of_snd_snd (by assumption) ?_ | refine sound_of_snd (by assumption) ?_
    | dsimp only [sound_mk_eq] | split

theorem updPart_sound {p : Part} : ∀ a0 a1 a2 s, Sound p s → Sound p (updPart a0 a1 a2 s) := by
  intro a0 a1 a2 s h0
  unfold updPart
  repeat' with_reducible first
    | assumption | rfl | intro _ | apply updTransfer_sound

theorem offerSend_sound {p : Part} : ∀ a0 s, Sound p s → Sound p (offerSend a0 s) := by
  intro a0 s h0
  unfold offerSend
  repeat' with_reducible first
    | assumption | rfl | intro _ | apply claimSlots_sound | apply freeParts_sound | apply countFrames_sound
    | apply updPart_sound | refine sound_parts ?_ ?_ ?_ | refine sound_of_snd_snd (by assumption) ?_
    | refine sound_of_snd (by assumption) ?_ | dsimp only [sound_mk_eq] | split

theorem execOfferSend_sound {p : Part} : ∀ a0 s, Sound p s → SoundAnswer p (execOfferSend a0 s) := by
  intro a0 s h0
  unfold execOfferSend
  repeat' with_reducible first
    | assumption | rfl | intro _ | apply offerSend_sound | apply soundAnswer_next | apply soundAnswer_fault
    | refine sound_parts ?_ ?_ ?_ | refine sound_of_snd_snd (by assumption) ?_ | refine sound_of_snd (by assumption) ?_
    | dsimp only [sound_mk_eq] | split

theorem offerAnswer_sound {p : Part} : ∀ a0 a1 s, Sound p s → Sound p (offerAnswer a0 a1 s) := by
  intro a0 a1 s h0
  unfold offerAnswer
  repeat' with_reducible first
    | assumption | rfl | intro _ | apply updPart_sound | apply failTransfer_sound | apply freeParts_sound
    | refine sound_parts ?_ ?_ ?_ | refine sound_of_snd_snd (by assumption) ?_ | refine sound_of_snd (by assumption) ?_
    | dsimp only [sound_mk_eq] | split

theorem execOfferAnswer_sound {p : Part} : ∀ a0 a1 s, Sound p s → SoundAnswer p (execOfferAnswer a0 a1 s) := by
  intro a0 a1 s h0
  unfold execOfferAnswer
  repeat' with_reducible first
    | assumption | rfl | intro _ | apply offerAnswer_sound | apply soundAnswer_next | apply soundAnswer_fault
    | refine sound_parts ?_ ?_ ?_ | refine sound_of_snd_snd (by assumption) ?_ | refine sound_of_snd (by assumption) ?_
    | dsimp only [sound_mk_eq] | split

theorem offerForfeit_sound {p : Part} : ∀ a0 s, Sound p s → Sound p (offerForfeit a0 s) := by
  intro a0 s h0
  unfold offerForfeit
  repeat' with_reducible first
    | assumption | rfl | intro _ | apply claimSlots_sound | apply updFabric_sound | apply freeParts_sound
    | refine sound_parts ?_ ?_ ?_ | refine sound_of_snd_snd (by assumption) ?_ | refine sound_of_snd (by assumption) ?_
    | dsimp only [sound_mk_eq] | split

theorem execOfferForfeit_sound {p : Part} : ∀ a0 s, Sound p s → SoundAnswer p (execOfferForfeit a0 s) := by
  intro a0 s h0
  unfold execOfferForfeit
  repeat' with_reducible first
    | assumption | rfl | intro _ | apply offerForfeit_sound | apply soundAnswer_next | apply soundAnswer_fault
    | refine sound_parts ?_ ?_ ?_ | refine sound_of_snd_snd (by assumption) ?_ | refine sound_of_snd (by assumption) ?_
    | dsimp only [sound_mk_eq] | split

theorem offerAtTarget_sound {p : Part} : ∀ a0 s, Sound p s → Sound p (offerAtTarget a0 s).2 := by
  intro a0 s h0
  unfold offerAtTarget
  repeat' with_reducible first
    | assumption | rfl | intro _ | apply addClaim_sound | refine sound_parts ?_ ?_ ?_
    | refine sound_of_snd_snd (by assumption) ?_ | refine sound_of_snd (by assumption) ?_ | dsimp only [sound_mk_eq] | split

theorem offerAtForwarder_sound {p : Part} : ∀ a0 s, Sound p s → Sound p (offerAtForwarder a0 s).2 := by
  intro a0 s h0
  unfold offerAtForwarder
  repeat' with_reducible first
    | assumption | rfl | intro _ | apply countFrames_sound | apply addClaim_sound | refine sound_parts ?_ ?_ ?_
    | refine sound_of_snd_snd (by assumption) ?_ | refine sound_of_snd (by assumption) ?_ | dsimp only [sound_mk_eq] | split

theorem offerReceive_sound {p : Part} : ∀ a0 s, Sound p s → Sound p (offerReceive a0 s) := by
  intro a0 s h0
  unfold offerReceive
  repeat' with_reducible first
    | assumption | rfl | intro _ | apply offerAtTarget_sound | apply answerTo_sound | apply offerAtForwarder_sound
    | refine sound_parts ?_ ?_ ?_ | refine sound_of_snd_snd (by assumption) ?_ | refine sound_of_snd (by assumption) ?_
    | dsimp only [sound_mk_eq] | split

theorem execOfferReceive_sound {p : Part} : ∀ a0 s, Sound p s → SoundAnswer p (execOfferReceive a0 s) := by
  intro a0 s h0
  unfold execOfferReceive
  repeat' with_reducible first
    | assumption | rfl | intro _ | apply controlFrame_sound | apply offerReceive_sound | apply soundAnswer_next
    | apply soundAnswer_fault | refine sound_parts ?_ ?_ ?_ | dsimp only [sound_mk_eq] | split

theorem sendAdmitted_sound {p : Part} : ∀ a0 a1 s, Sound p s → Sound p (sendAdmitted a0 a1 s) := by
  intro a0 a1 s h0
  unfold sendAdmitted
  repeat' with_reducible first
    | assumption | rfl | intro _ | apply dropClaim_sound | apply countFrames_sound | apply updTransfer_sound | apply foldl_sound

theorem slotStart_sound {p : Part} : ∀ s, Sound p s → Sound p (slotStart s) := by
  intro s h0
  unfold slotStart
  repeat' with_reducible first
    | assumption | rfl | intro _ | apply updFabric_sound | apply sendAdmitted_sound | apply foldl_sound | apply foldl_snd_sound
    | refine sound_parts ?_ ?_ ?_ | dsimp only [sound_mk_eq] | split

theorem execSlotStart_sound {p : Part} : ∀ s, Sound p s → SoundAnswer p (execSlotStart s) := by
  intro s h0
  unfold execSlotStart
  repeat' with_reducible first
    | assumption | rfl | intro _ | apply slotStart_sound | apply soundAnswer_next

theorem execBestEffortAck_sound {p : Part} : ∀ a0 a1 s, Sound p s → SoundAnswer p (execBestEffortAck a0 a1 s) := by
  intro a0 a1 s h0
  unfold execBestEffortAck
  repeat' with_reducible first
    | assumption | rfl | intro _ | apply dropTransfer_sound | apply failTransfer_sound | apply repairFailed_sound
    | apply soundAnswer_next | apply soundAnswer_fault | refine sound_parts ?_ ?_ ?_
    | refine sound_of_snd_snd (by assumption) ?_ | refine sound_of_snd (by assumption) ?_ | dsimp only [sound_mk_eq] | split

theorem fetchResend_sound {p : Part} : ∀ a0 s, Sound p s → Sound p (fetchResend a0 s) := by
  intro a0 s h0
  unfold fetchResend
  repeat' with_reducible first
    | assumption | rfl | intro _ | apply countFrames_sound | apply repairFailed_sound | refine sound_parts ?_ ?_ ?_
    | refine sound_of_snd_snd (by assumption) ?_ | refine sound_of_snd (by assumption) ?_ | dsimp only [sound_mk_eq] | split

theorem bestEffortResend_sound {p : Part} : ∀ a0 s, Sound p s → Sound p (bestEffortResend a0 s) := by
  intro a0 s h0
  unfold bestEffortResend
  repeat' with_reducible first
    | assumption | rfl | intro _ | apply failTransfer_sound | apply countFrames_sound | apply updTransfer_sound
    | refine sound_parts ?_ ?_ ?_ | dsimp only [sound_mk_eq] | split

theorem execBestEffortResend_sound {p : Part} : ∀ a0 s, Sound p s → SoundAnswer p (execBestEffortResend a0 s) := by
  intro a0 s h0
  unfold execBestEffortResend
  repeat' with_reducible first
    | assumption | rfl | intro _ | apply bestEffortResend_sound | apply fetchResend_sound | apply soundAnswer_next
    | apply soundAnswer_fault | refine sound_parts ?_ ?_ ?_ | refine sound_of_snd_snd (by assumption) ?_
    | refine sound_of_snd (by assumption) ?_ | dsimp only [sound_mk_eq] | split

theorem execRemoteReadRequest_sound {p : Part} : ∀ a0 s, Sound p s → SoundAnswer p (execRemoteReadRequest a0 s) := by
  intro a0 s h0
  unfold execRemoteReadRequest
  repeat' with_reducible first
    | assumption | rfl | intro _ | apply windowRead_sound | apply answerTo_sound | apply soundAnswer_next
    | apply soundAnswer_fault | refine sound_parts ?_ ?_ ?_ | refine sound_of_snd_snd (by assumption) ?_
    | refine sound_of_snd (by assumption) ?_ | dsimp only [sound_mk_eq] | split

theorem windowAtomic_sound {p : Part} : ∀ a0 a1 a2 a3 a4 a5 a6 s,
    Sound p s → Sound p (windowAtomic a0 a1 a2 a3 a4 a5 a6 s).2 := by
  intro a0 a1 a2 a3 a4 a5 a6 s h0
  unfold windowAtomic
  repeat' with_reducible first
    | assumption | rfl | intro _ | apply physRead_sound | apply physWrite_sound | refine sound_parts ?_ ?_ ?_
    | refine sound_of_snd_snd (by assumption) ?_ | refine sound_of_snd (by assumption) ?_ | dsimp only [sound_mk_eq] | split

theorem execRemoteAtomicRequest_sound {p : Part} : ∀ a0 a1 a2 a3 s,
    Sound p s → SoundAnswer p (execRemoteAtomicRequest a0 a1 a2 a3 s) := by
  intro a0 a1 a2 a3 s h0
  unfold execRemoteAtomicRequest
  repeat' with_reducible first
    | assumption | rfl | intro _ | apply windowAtomic_sound | apply answerTo_sound | apply soundAnswer_next
    | apply soundAnswer_fault | refine sound_parts ?_ ?_ ?_ | refine sound_of_snd_snd (by assumption) ?_
    | refine sound_of_snd (by assumption) ?_ | dsimp only [sound_mk_eq] | split

theorem failRemote_sound {p : Part} : ∀ a0 a1 s, Sound p s → Sound p (failRemote a0 a1 s) := by
  intro a0 a1 s h0
  unfold failRemote
  repeat' with_reducible first
    | assumption | rfl | intro _ | apply report_sound | apply hartFault_sound | apply updHart_sound | apply updFabric_sound

theorem execRemoteReply_sound {p : Part} : ∀ a0 a1 a2 s, Sound p s → SoundAnswer p (execRemoteReply a0 a1 a2 s) := by
  intro a0 a1 a2 s h0
  unfold execRemoteReply
  repeat' with_reducible first
    | assumption | rfl | intro _ | apply updHart_sound | apply updFabric_sound | apply failRemote_sound | apply soundAnswer_next
    | apply soundAnswer_fault | refine sound_parts ?_ ?_ ?_ | refine sound_of_snd_snd (by assumption) ?_
    | refine sound_of_snd (by assumption) ?_ | dsimp only [sound_mk_eq] | split

theorem execRemoteLoadTimeout_sound {p : Part} : ∀ a0 s, Sound p s → SoundAnswer p (execRemoteLoadTimeout a0 s) := by
  intro a0 s h0
  unfold execRemoteLoadTimeout
  repeat' with_reducible first
    | assumption | rfl | intro _ | apply failRemote_sound | apply soundAnswer_next | apply soundAnswer_fault
    | refine sound_parts ?_ ?_ ?_ | refine sound_of_snd_snd (by assumption) ?_ | refine sound_of_snd (by assumption) ?_
    | dsimp only [sound_mk_eq] | split

theorem windowCtlWrite_sound {p : Part} : ∀ a0 a1 s, Sound p s → Sound p (windowCtlWrite a0 a1 s) := by
  intro a0 a1 s h0
  unfold windowCtlWrite
  repeat' with_reducible first
    | assumption | rfl | intro _ | apply updFabric_sound | apply updWindow_sound | refine sound_parts ?_ ?_ ?_
    | dsimp only [sound_mk_eq] | split

theorem execWindowEnable_sound {p : Part} : ∀ a0 a1 s, Sound p s → SoundAnswer p (execWindowEnable a0 a1 s) := by
  intro a0 a1 s h0
  unfold execWindowEnable
  repeat' with_reducible first
    | assumption | rfl | intro _ | apply windowCtlWrite_sound | apply soundAnswer_next

theorem execWindowDrain_sound {p : Part} : ∀ a0 a1 s, Sound p s → SoundAnswer p (execWindowDrain a0 a1 s) := by
  intro a0 a1 s h0
  unfold execWindowDrain
  repeat' with_reducible first
    | assumption | rfl | intro _ | apply windowCtlWrite_sound | apply soundAnswer_next

theorem execWindowDrainDone_sound {p : Part} : ∀ a0 s, Sound p s → SoundAnswer p (execWindowDrainDone a0 s) := by
  intro a0 s h0
  unfold execWindowDrainDone
  repeat' with_reducible first
    | assumption | rfl | intro _ | apply updFabric_sound | apply updWindow_sound | apply soundAnswer_next
    | apply soundAnswer_fault | refine sound_parts ?_ ?_ ?_ | dsimp only [sound_mk_eq] | split

theorem slotTableLoad_sound {p : Part} : ∀ s, Sound p s → Sound p (slotTableLoad s) := by
  intro s h0
  unfold slotTableLoad
  repeat' with_reducible first
    | assumption | rfl | intro _ | apply updFabric_sound | refine sound_parts ?_ ?_ ?_ | dsimp only [sound_mk_eq] | split

theorem execSlotTableLoad_sound {p : Part} : ∀ s, Sound p s → SoundAnswer p (execSlotTableLoad s) := by
  intro s h0
  unfold execSlotTableLoad
  repeat' with_reducible first
    | assumption | rfl | intro _ | apply slotTableLoad_sound | apply soundAnswer_next

theorem execSlotTableLoadDone_sound {p : Part} : ∀ s, Sound p s → SoundAnswer p (execSlotTableLoadDone s) := by
  intro s h0
  unfold execSlotTableLoadDone
  repeat' with_reducible first
    | assumption | rfl | intro _ | apply updFabric_sound | apply soundAnswer_next | apply soundAnswer_fault
    | refine sound_parts ?_ ?_ ?_ | refine sound_of_snd_snd (by assumption) ?_ | refine sound_of_snd (by assumption) ?_
    | dsimp only [sound_mk_eq] | split

theorem slotTableArm_sound {p : Part} : ∀ s, Sound p s → Sound p (slotTableArm s) := by
  intro s h0
  unfold slotTableArm
  repeat' with_reducible first
    | assumption | rfl | intro _ | apply updFabric_sound | refine sound_parts ?_ ?_ ?_ | dsimp only [sound_mk_eq] | split

theorem execArm_sound {p : Part} : ∀ s, Sound p s → SoundAnswer p (execArm s) := by
  intro s h0
  unfold execArm
  repeat' with_reducible first
    | assumption | rfl | intro _ | apply slotTableArm_sound | apply soundAnswer_next

theorem slotTableCancel_sound {p : Part} : ∀ s, Sound p s → Sound p (slotTableCancel s) := by
  intro s h0
  unfold slotTableCancel
  repeat' with_reducible first
    | assumption | rfl | intro _ | apply updFabric_sound | refine sound_parts ?_ ?_ ?_ | dsimp only [sound_mk_eq] | split

theorem execCancel_sound {p : Part} : ∀ s, Sound p s → SoundAnswer p (execCancel s) := by
  intro s h0
  unfold execCancel
  repeat' with_reducible first
    | assumption | rfl | intro _ | apply slotTableCancel_sound | apply soundAnswer_next

theorem rematch_sound {p : Part} : ∀ a0 s a2, Sound p s → Sound p (rematch a0 s a2) := by
  intro a0 s a2 h0
  unfold rematch
  repeat' with_reducible first
    | assumption | rfl | intro _ | apply updTransfer_sound | apply failTransfer_sound | apply claimSlots_sound
    | refine sound_parts ?_ ?_ ?_ | dsimp only [sound_mk_eq] | split

theorem slotTableSwitch_sound {p : Part} : ∀ s, Sound p s → Sound p (slotTableSwitch s) := by
  intro s h0
  unfold slotTableSwitch
  repeat' with_reducible first
    | assumption | rfl | intro _ | apply updFabric_sound | apply rematch_sound | apply foldl_sound | apply foldl_snd_sound
    | refine sound_parts ?_ ?_ ?_ | refine sound_of_snd_snd (by assumption) ?_ | refine sound_of_snd (by assumption) ?_
    | dsimp only [sound_mk_eq] | split

theorem execSlotTableSwitch_sound {p : Part} : ∀ s, Sound p s → SoundAnswer p (execSlotTableSwitch s) := by
  intro s h0
  unfold execSlotTableSwitch
  repeat' with_reducible first
    | assumption | rfl | intro _ | apply slotTableSwitch_sound | apply soundAnswer_next

theorem rejectedAtSender_sound {p : Part} : ∀ a0 a1 s, Sound p s → Sound p (rejectedAtSender a0 a1 s) := by
  intro a0 a1 s h0
  unfold rejectedAtSender
  repeat' with_reducible first
    | assumption | rfl | intro _ | apply failTask_sound | apply report_sound | refine sound_parts ?_ ?_ ?_
    | refine sound_of_snd_snd (by assumption) ?_ | refine sound_of_snd (by assumption) ?_ | dsimp only [sound_mk_eq] | split

theorem unitMessage_sound {p : Part} : ∀ a0 s, Sound p s → Sound p (unitMessage a0 s) := by
  intro a0 s h0
  unfold unitMessage
  repeat' with_reducible first
    | assumption | rfl | intro _ | apply takeMessage_sound | apply rejectedAtSender_sound | apply answerTo_sound
    | apply staleAtSender_sound | apply noticeTo_sound | refine sound_parts ?_ ?_ ?_
    | refine sound_of_snd_snd (by assumption) ?_ | refine sound_of_snd (by assumption) ?_ | dsimp only [sound_mk_eq] | split

theorem execUnitMessage_sound {p : Part} : ∀ a0 s, Sound p s → SoundAnswer p (execUnitMessage a0 s) := by
  intro a0 s h0
  unfold execUnitMessage
  repeat' with_reducible first
    | assumption | rfl | intro _ | apply unitMessage_sound | apply soundAnswer_next

theorem execStaleEpochNotice_sound {p : Part} : ∀ a0 s, Sound p s → SoundAnswer p (execStaleEpochNotice a0 s) := by
  intro a0 s h0
  unfold execStaleEpochNotice
  repeat' with_reducible first
    | assumption | rfl | intro _ | apply staleAtSender_sound | apply failBarriers_sound | apply dropTransfer_sound
    | apply soundAnswer_next | apply soundAnswer_fault | refine sound_parts ?_ ?_ ?_
    | refine sound_of_snd_snd (by assumption) ?_ | refine sound_of_snd (by assumption) ?_ | dsimp only [sound_mk_eq] | split

theorem execEpochAdvance_sound {p : Part} : ∀ a0 s, Sound p s → SoundAnswer p (execEpochAdvance a0 s) := by
  intro a0 s h0
  unfold execEpochAdvance
  repeat' with_reducible first
    | assumption | rfl | intro _ | apply beginWarmReset_sound | apply updRole_sound | apply soundAnswer_next
    | apply soundAnswer_fault | refine sound_parts ?_ ?_ ?_ | dsimp only [sound_mk_eq] | split

end Sys2Proof.Machine
end

