-- ==== Sys2Proof/Laws/Sound/Enclave.lean ====
section
/-!
SUPPORT. Laws/Sound/Enclave.lean: what Machine/Enclave.lean does keeps a state sound (Sys2Proof.Sound): memory canonical, the record
queue bounded, the part unchanged.
-/

namespace Sys2Proof.Machine

theorem beginLong_sound {p : Part} : ∀ a0 a1 a2 s, Sound p s → Sound p (beginLong a0 a1 a2 s) := by
  intro a0 a1 a2 s h0
  unfold beginLong
  repeat' with_reducible first
    | assumption | rfl | intro _ | apply updMgmt_sound

theorem afterNegotiation_sound {p : Part} : ∀ a0 s,
    (∀ t, Sound p t → Sound p (a0 t)) → Sound p s → Sound p (afterNegotiation a0 s) := by
  intro a0 s h0 h1
  unfold afterNegotiation
  repeat' with_reducible first
    | assumption | rfl | intro _ | apply h0 | apply mgmtSend_sound | refine sound_parts ?_ ?_ ?_ | dsimp only [sound_mk_eq]
    | split

theorem spdmStep_sound {p : Part} : ∀ a0 a1 s, Sound p s → Sound p (spdmStep a0 a1 s) := by
  intro a0 a1 s h0
  unfold spdmStep
  repeat' with_reducible first
    | assumption | rfl | intro _ | apply mgmtSend_sound | apply updMgmt_sound

theorem getVersion_sound {p : Part} : ∀ s, Sound p s → Sound p (getVersion s) := by
  intro s h0
  unfold getVersion
  repeat' with_reducible first
    | assumption | rfl | intro _ | apply spdmStep_sound | apply updMgmt_sound

theorem capabilities_sound {p : Part} : ∀ s, Sound p s → Sound p (capabilities s).2 := by
  intro s h0
  unfold capabilities
  repeat' with_reducible first
    | assumption | rfl | intro _ | apply drawFree_sound

theorem getCapabilities_sound {p : Part} : ∀ s, Sound p s → Sound p (getCapabilities s) := by
  intro s h0
  unfold getCapabilities
  repeat' with_reducible first
    | assumption | rfl | intro _ | apply capabilities_sound | apply spdmStep_sound | apply mgmtSend_sound
    | refine sound_parts ?_ ?_ ?_ | dsimp only [sound_mk_eq] | split

theorem negotiateAlgorithms_sound {p : Part} : ∀ s, Sound p s → Sound p (negotiateAlgorithms s) := by
  intro s h0
  unfold negotiateAlgorithms
  repeat' with_reducible first
    | assumption | rfl | intro _ | apply spdmStep_sound | apply mgmtSend_sound | refine sound_parts ?_ ?_ ?_
    | dsimp only [sound_mk_eq] | split

theorem freeBytes_sound {p : Part} : ∀ a0 s, Sound p s → Sound p (freeBytes a0 s).2 := by
  intro a0 s h0
  fun_induction freeBytes a0 s
  all_goals repeat' with_reducible first
    | assumption | rfl | intro _ | apply drawFree_sound | refine sound_parts ?_ ?_ ?_ | apply_assumption -exfalso -symm

theorem getDigests_sound {p : Part} : ∀ s, Sound p s → Sound p (getDigests s) := by
  intro s h0
  unfold getDigests
  repeat' with_reducible first
    | assumption | rfl | intro _ | apply afterNegotiation_sound | apply mgmtSend_sound

theorem getCertificate_sound {p : Part} : ∀ a0 a1 a2 s, Sound p s → Sound p (getCertificate a0 a1 a2 s) := by
  intro a0 a1 a2 s h0
  unfold getCertificate
  repeat' with_reducible first
    | assumption | rfl | intro _ | apply afterNegotiation_sound | apply mgmtSend_sound | refine sound_parts ?_ ?_ ?_
    | dsimp only [sound_mk_eq] | split

theorem challenge_sound {p : Part} : ∀ a0 a1 s, Sound p s → Sound p (challenge a0 a1 s) := by
  intro a0 a1 s h0
  unfold challenge
  repeat' with_reducible first
    | assumption | rfl | intro _ | apply afterNegotiation_sound | apply freeBytes_sound | apply beginLong_sound
    | apply mgmtSend_sound | refine sound_parts ?_ ?_ ?_ | dsimp only [sound_mk_eq] | split

theorem getMeasurements_sound {p : Part} : ∀ a0 a1 a2 s, Sound p s → Sound p (getMeasurements a0 a1 a2 s) := by
  intro a0 a1 a2 s h0
  unfold getMeasurements
  repeat' with_reducible first
    | assumption | rfl | intro _ | apply afterNegotiation_sound | apply mgmtSend_sound | apply freeBytes_sound
    | apply beginLong_sound | refine sound_parts ?_ ?_ ?_ | refine sound_of_snd_snd (by assumption) ?_
    | refine sound_of_snd (by assumption) ?_ | dsimp only [sound_mk_eq] | split

theorem keyExchange_sound {p : Part} : ∀ a0 s, Sound p s → Sound p (keyExchange a0 s) := by
  intro a0 s h0
  unfold keyExchange
  repeat' with_reducible first
    | assumption | rfl | intro _ | apply afterNegotiation_sound | apply mgmtSend_sound | apply freeBytes_sound
    | apply beginLong_sound | apply updMgmt_sound | refine sound_parts ?_ ?_ ?_ | dsimp only [sound_mk_eq] | split

theorem updSession_sound {p : Part} : ∀ a0 a1 s, Sound p s → Sound p (updSession a0 a1 s) := by
  intro a0 a1 s h0
  unfold updSession
  repeat' with_reducible first
    | assumption | rfl | intro _ | apply updMgmt_sound

theorem dropSession_sound {p : Part} : ∀ a0 s, Sound p s → Sound p (dropSession a0 s) := by
  intro a0 s h0
  unfold dropSession
  repeat' with_reducible first
    | assumption | rfl | intro _ | apply updMgmt_sound

theorem finish_sound {p : Part} : ∀ a0 a1 s, Sound p s → Sound p (finish a0 a1 s) := by
  intro a0 a1 s h0
  unfold finish
  repeat' with_reducible first
    | assumption | rfl | intro _ | apply afterNegotiation_sound | apply mgmtSend_sound | apply beginLong_sound
    | apply updSession_sound | apply dropSession_sound | refine sound_parts ?_ ?_ ?_
    | refine sound_of_snd_snd (by assumption) ?_ | refine sound_of_snd (by assumption) ?_ | dsimp only [sound_mk_eq] | split

theorem inSession_sound {p : Part} : ∀ a0 a1 s, (∀ t, Sound p t → Sound p (a1 t)) → Sound p s → Sound p (inSession a0 a1 s) := by
  intro a0 a1 s h0 h1
  unfold inSession
  repeat' with_reducible first
    | assumption | rfl | intro _ | apply h0 | apply afterNegotiation_sound | apply mgmtSend_sound | refine sound_parts ?_ ?_ ?_
    | dsimp only [sound_mk_eq] | split

theorem heartbeat_sound {p : Part} : ∀ a0 s, Sound p s → Sound p (heartbeat a0 s) := by
  intro a0 s h0
  unfold heartbeat
  repeat' with_reducible first
    | assumption | rfl | intro _ | apply inSession_sound | apply mgmtSend_sound | apply updSession_sound

theorem keyUpdate_sound {p : Part} : ∀ a0 s, Sound p s → Sound p (keyUpdate a0 s) := by
  intro a0 s h0
  unfold keyUpdate
  repeat' with_reducible first
    | assumption | rfl | intro _ | apply inSession_sound | apply mgmtSend_sound | apply updSession_sound

theorem closeSession_sound {p : Part} : ∀ a0 s, Sound p s → Sound p (closeSession a0 s) := by
  intro a0 s h0
  unfold closeSession
  repeat' with_reducible first
    | assumption | rfl | intro _ | apply inSession_sound | apply mgmtSend_sound | apply dropSession_sound

theorem freeKey_sound {p : Part} : ∀ s, Sound p s → Sound p (freeKey s).2 := by
  intro s h0
  unfold freeKey
  repeat' with_reducible first
    | assumption | rfl | intro _ | apply freeBytes_sound

theorem keyFrom_sound {p : Part} : ∀ a0 s, Sound p s → Sound p (keyFrom a0 s).2.2 := by
  intro a0 s h0
  unfold keyFrom
  repeat' with_reducible first
    | assumption | rfl | intro _ | apply freeKey_sound | refine sound_parts ?_ ?_ ?_
    | refine sound_of_snd_snd (by assumption) ?_ | refine sound_of_snd (by assumption) ?_ | dsimp only [sound_mk_eq] | split

theorem sealContext_sound {p : Part} : ∀ a0 a1 a2 s, Sound p s → Sound p (sealContext a0 a1 a2 s).2 := by
  intro a0 a1 a2 s h0
  unfold sealContext
  repeat' with_reducible first
    | assumption | rfl | intro _ | apply keyFrom_sound | refine sound_parts ?_ ?_ ?_
    | refine sound_of_snd_snd (by assumption) ?_ | refine sound_of_snd (by assumption) ?_ | dsimp only [sound_mk_eq] | split

theorem zeroSealed_sound {p : Part} : ∀ a0 s a2, Sound p s → Sound p (zeroSealed a0 s a2) := by
  intro a0 s a2 h0
  unfold zeroSealed
  repeat' with_reducible first
    | assumption | rfl | intro _ | apply homeStore_sound | apply zeroRange_sound | refine sound_parts ?_ ?_ ?_
    | dsimp only [sound_mk_eq] | split

theorem sealStakes_sound {p : Part} : ∀ a0 a1 a2 a3 s, Sound p s → Sound p (sealStakes a0 a1 a2 a3 s).2 := by
  intro a0 a1 a2 a3 s h0
  unfold sealStakes
  repeat' with_reducible first
    | assumption | rfl | intro _ | apply updStakes_sound | apply zeroSealed_sound | apply foldl_sound | apply foldl_snd_sound
    | refine sound_parts ?_ ?_ ?_ | refine sound_of_snd_snd (by assumption) ?_ | refine sound_of_snd (by assumption) ?_
    | dsimp only [sound_mk_eq] | split

theorem setExport_sound {p : Part} : ∀ a0 a1 a2 a3 a4 s, Sound p s → Sound p (setExport a0 a1 a2 a3 a4 s).2 := by
  intro a0 a1 a2 a3 a4 s h0
  unfold setExport
  repeat' with_reducible first
    | assumption | rfl | intro _ | apply updStakes_sound | refine sound_parts ?_ ?_ ?_
    | refine sound_of_snd_snd (by assumption) ?_ | refine sound_of_snd (by assumption) ?_ | dsimp only [sound_mk_eq] | split

theorem unsealByRequester_sound {p : Part} : ∀ a0 a1 s, Sound p s → Sound p (unsealByRequester a0 a1 s).2 := by
  intro a0 a1 s h0
  unfold unsealByRequester
  repeat' with_reducible first
    | assumption | rfl | intro _ | apply unsealContext_sound | refine sound_parts ?_ ?_ ?_ | dsimp only [sound_mk_eq] | split

theorem wakePorts_sound {p : Part} : ∀ s, Sound p s → Sound p (wakePorts s) := by
  intro s h0
  unfold wakePorts
  repeat' with_reducible first
    | assumption | rfl | intro _ | apply portReady_sound | apply foldl_sound

theorem clearNonces_sound {p : Part} : ∀ a0 a1 s, Sound p s → Sound p (clearNonces a0 a1 s) := by
  intro a0 a1 s h0
  unfold clearNonces
  repeat' with_reducible first
    | assumption | rfl | intro _ | apply updPort_sound | apply foldl_sound

theorem installCordKey_sound {p : Part} : ∀ a0 a1 a2 a3 a4 s, Sound p s → Sound p (installCordKey a0 a1 a2 a3 a4 s).2 := by
  intro a0 a1 a2 a3 a4 s h0
  unfold installCordKey
  repeat' with_reducible first
    | assumption | rfl | intro _ | apply updFabric_sound | apply wakePorts_sound | apply clearNonces_sound
    | refine sound_parts ?_ ?_ ?_ | dsimp only [sound_mk_eq] | split

theorem activateCordKey_sound {p : Part} : ∀ a0 a1 s, Sound p s → Sound p (activateCordKey a0 a1 s).2 := by
  intro a0 a1 s h0
  unfold activateCordKey
  repeat' with_reducible first
    | assumption | rfl | intro _ | apply updFabric_sound | apply updPort_sound | apply wakePorts_sound | apply foldl_sound
    | apply foldl_snd_sound | refine sound_parts ?_ ?_ ?_ | dsimp only [sound_mk_eq] | split

theorem eraseCordKey_sound {p : Part} : ∀ a0 a1 s, Sound p s → Sound p (eraseCordKey a0 a1 s).2 := by
  intro a0 a1 s h0
  unfold eraseCordKey
  repeat' with_reducible first
    | assumption | rfl | intro _ | apply updFabric_sound | refine sound_parts ?_ ?_ ?_ | dsimp only [sound_mk_eq] | split

theorem runEnclave_sound {p : Part} : ∀ a0 a1 s,
    (∀ t, Sound p t → Sound p (a1 t).2) → Sound p s → Sound p (runEnclave a0 a1 s) := by
  intro a0 a1 s h0 h1
  unfold runEnclave
  repeat' with_reducible first
    | assumption | rfl | intro _ | apply h0 | apply beginLong_sound

theorem enclaveOp_sound {p : Part} : ∀ a0 a1 a2 s,
    (∀ t, Sound p t → Sound p (a2 t).2) → Sound p s → Sound p (enclaveOp a0 a1 a2 s) := by
  intro a0 a1 a2 s h0 h1
  unfold enclaveOp
  repeat' with_reducible first
    | assumption | rfl | intro _ | apply h0 | apply inSession_sound | apply runEnclave_sound

theorem wrappedKey_sound {p : Part} : ∀ s, Sound p s → Sound p (wrappedKey s).2 := by
  intro s h0
  unfold wrappedKey
  repeat' with_reducible first
    | assumption | rfl | intro _ | apply drawFree_sound | apply freeKey_sound | refine sound_parts ?_ ?_ ?_
    | dsimp only [sound_mk_eq] | split

/-- Every vendor-defined operation keeps a state sound. -/
theorem vendorOp_sound {p : Part} {session opcode bound : Nat} {a : List Byte} {op : State → W16 × State}
    (h : vendorOp session opcode a = some (bound, op)) {t : State} (ht : Sound p t) : Sound p (op t).2 := by
  unfold vendorOp at h
  dsimp only at h
  repeat' split at h
  all_goals first
    | contradiction
    | simp only [Option.some.injEq, Prod.mk.injEq] at h
      obtain ⟨-, rfl⟩ := h
      with_reducible first
        | exact sealContext_sound _ _ _ _ ht
        | exact sealContext_sound _ _ _ _ (wrappedKey_sound _ ht)
        | exact sealStakes_sound _ _ _ _ _ ht
        | exact setExport_sound _ _ _ _ _ _ ht
        | exact unsealByRequester_sound _ _ _ ht
        | exact installCordKey_sound _ _ _ _ _ _ ht
        | exact activateCordKey_sound _ _ _ ht
        | exact eraseCordKey_sound _ _ _ ht

theorem vendorDefined_sound {p : Part} : ∀ session standard vendor opcode payload s, Sound p s →
    Sound p (vendorDefined session standard vendor opcode payload s) := by
  intro session standard vendor opcode payload s h
  unfold vendorDefined
  refine afterNegotiation_sound _ _ (fun t ht => ?_) h
  split
  · exact mgmtSend_sound _ _ _ ht
  · split
    · exact mgmtSend_sound _ _ _ ht
    · split
      · exact mgmtSend_sound _ _ _ ht
      · split
        · exact mgmtSend_sound _ _ _ ht
        · rename_i he
          exact runEnclave_sound _ _ _ (fun u hu => vendorOp_sound he hu) ht

theorem serveSpdm_sound {p : Part} : ∀ a0 s, Sound p s → Sound p (serveSpdm a0 s) := by
  intro a0 s h0
  unfold serveSpdm
  repeat' with_reducible first
    | assumption | rfl | intro _ | apply getVersion_sound | apply getCapabilities_sound | apply negotiateAlgorithms_sound
    | apply getDigests_sound | apply getCertificate_sound | apply challenge_sound | apply getMeasurements_sound
    | apply keyExchange_sound | apply finish_sound | apply heartbeat_sound | apply keyUpdate_sound | apply closeSession_sound
    | apply vendorDefined_sound | apply enclaveOp_sound | apply sealContext_sound | apply sealStakes_sound
    | apply setExport_sound | apply unsealByRequester_sound | apply installCordKey_sound | apply activateCordKey_sound
    | apply eraseCordKey_sound | refine sound_parts ?_ ?_ ?_ | refine sound_of_snd_snd (by assumption) ?_
    | refine sound_of_snd (by assumption) ?_ | dsimp only [sound_mk_eq] | split

theorem spdmGated_sound {p : Part} : ∀ a0 s, Sound p s → Sound p (spdmGated a0 s) := by
  intro a0 s h0
  unfold spdmGated
  repeat' with_reducible first
    | assumption | rfl | intro _ | apply mgmtBusy_sound | apply mgmtSend_sound | apply queueRequest_sound
    | apply serveSpdm_sound | apply updMgmt_sound | refine sound_parts ?_ ?_ ?_ | refine sound_of_snd_snd (by assumption) ?_
    | refine sound_of_snd (by assumption) ?_ | dsimp only [sound_mk_eq] | split

theorem execGetVersion_sound {p : Part} : ∀ s, Sound p s → SoundAnswer p (execGetVersion s) := by
  intro s h0
  unfold execGetVersion
  repeat' with_reducible first
    | assumption | rfl | intro _ | apply spdmGated_sound | apply soundAnswer_next

theorem execGetCapabilities_sound {p : Part} : ∀ s, Sound p s → SoundAnswer p (execGetCapabilities s) := by
  intro s h0
  unfold execGetCapabilities
  repeat' with_reducible first
    | assumption | rfl | intro _ | apply spdmGated_sound | apply soundAnswer_next

theorem execNegotiateAlgorithms_sound {p : Part} : ∀ s, Sound p s → SoundAnswer p (execNegotiateAlgorithms s) := by
  intro s h0
  unfold execNegotiateAlgorithms
  repeat' with_reducible first
    | assumption | rfl | intro _ | apply spdmGated_sound | apply soundAnswer_next

theorem execGetDigests_sound {p : Part} : ∀ s, Sound p s → SoundAnswer p (execGetDigests s) := by
  intro s h0
  unfold execGetDigests
  repeat' with_reducible first
    | assumption | rfl | intro _ | apply spdmGated_sound | apply soundAnswer_next

theorem execGetCertificate_sound {p : Part} : ∀ a0 a1 a2 s, Sound p s → SoundAnswer p (execGetCertificate a0 a1 a2 s) := by
  intro a0 a1 a2 s h0
  unfold execGetCertificate
  repeat' with_reducible first
    | assumption | rfl | intro _ | apply spdmGated_sound | apply soundAnswer_next

theorem execChallenge_sound {p : Part} : ∀ a0 a1 s, Sound p s → SoundAnswer p (execChallenge a0 a1 s) := by
  intro a0 a1 s h0
  unfold execChallenge
  repeat' with_reducible first
    | assumption | rfl | intro _ | apply spdmGated_sound | apply soundAnswer_next

theorem execGetMeasurements_sound {p : Part} : ∀ a0 a1 a2 s, Sound p s → SoundAnswer p (execGetMeasurements a0 a1 a2 s) := by
  intro a0 a1 a2 s h0
  unfold execGetMeasurements
  repeat' with_reducible first
    | assumption | rfl | intro _ | apply spdmGated_sound | apply soundAnswer_next

theorem execKeyExchange_sound {p : Part} : ∀ a0 s, Sound p s → SoundAnswer p (execKeyExchange a0 s) := by
  intro a0 s h0
  unfold execKeyExchange
  repeat' with_reducible first
    | assumption | rfl | intro _ | apply spdmGated_sound | apply soundAnswer_next

theorem execFinish_sound {p : Part} : ∀ a0 a1 s, Sound p s → SoundAnswer p (execFinish a0 a1 s) := by
  intro a0 a1 s h0
  unfold execFinish
  repeat' with_reducible first
    | assumption | rfl | intro _ | apply spdmGated_sound | apply soundAnswer_next

theorem execHeartbeat_sound {p : Part} : ∀ a0 s, Sound p s → SoundAnswer p (execHeartbeat a0 s) := by
  intro a0 s h0
  unfold execHeartbeat
  repeat' with_reducible first
    | assumption | rfl | intro _ | apply spdmGated_sound | apply soundAnswer_next

theorem execKeyUpdate_sound {p : Part} : ∀ a0 s, Sound p s → SoundAnswer p (execKeyUpdate a0 s) := by
  intro a0 s h0
  unfold execKeyUpdate
  repeat' with_reducible first
    | assumption | rfl | intro _ | apply spdmGated_sound | apply soundAnswer_next

theorem execEndSession_sound {p : Part} : ∀ a0 s, Sound p s → SoundAnswer p (execEndSession a0 s) := by
  intro a0 s h0
  unfold execEndSession
  repeat' with_reducible first
    | assumption | rfl | intro _ | apply spdmGated_sound | apply soundAnswer_next

theorem execVendorDefinedRequest_sound {p : Part} : ∀ a0 a1 a2 a3 a4 s,
    Sound p s → SoundAnswer p (execVendorDefinedRequest a0 a1 a2 a3 a4 s) := by
  intro a0 a1 a2 a3 a4 s h0
  unfold execVendorDefinedRequest
  repeat' with_reducible first
    | assumption | rfl | intro _ | apply spdmGated_sound | apply soundAnswer_next

theorem execSealContext_sound {p : Part} : ∀ a0 a1 a2 s, Sound p s → SoundAnswer p (execSealContext a0 a1 a2 s) := by
  intro a0 a1 a2 s h0
  unfold execSealContext
  repeat' with_reducible first
    | assumption | rfl | intro _ | apply spdmGated_sound | apply soundAnswer_next

theorem execSealStakes_sound {p : Part} : ∀ a0 a1 a2 a3 s, Sound p s → SoundAnswer p (execSealStakes a0 a1 a2 a3 s) := by
  intro a0 a1 a2 a3 s h0
  unfold execSealStakes
  repeat' with_reducible first
    | assumption | rfl | intro _ | apply spdmGated_sound | apply soundAnswer_next

theorem execSetExport_sound {p : Part} : ∀ a0 a1 a2 a3 a4 s, Sound p s → SoundAnswer p (execSetExport a0 a1 a2 a3 a4 s) := by
  intro a0 a1 a2 a3 a4 s h0
  unfold execSetExport
  repeat' with_reducible first
    | assumption | rfl | intro _ | apply spdmGated_sound | apply soundAnswer_next

theorem execUnsealContext_sound {p : Part} : ∀ a0 a1 s, Sound p s → SoundAnswer p (execUnsealContext a0 a1 s) := by
  intro a0 a1 s h0
  unfold execUnsealContext
  repeat' with_reducible first
    | assumption | rfl | intro _ | apply spdmGated_sound | apply soundAnswer_next

theorem execInstallCordKey_sound {p : Part} : ∀ a0 a1 a2 a3 a4 a5 s,
    Sound p s → SoundAnswer p (execInstallCordKey a0 a1 a2 a3 a4 a5 s) := by
  intro a0 a1 a2 a3 a4 a5 s h0
  unfold execInstallCordKey
  repeat' with_reducible first
    | assumption | rfl | intro _ | apply spdmGated_sound | apply soundAnswer_next | apply soundAnswer_fault
    | refine sound_parts ?_ ?_ ?_ | dsimp only [sound_mk_eq] | split

theorem execActivateCordKey_sound {p : Part} : ∀ a0 a1 a2 s, Sound p s → SoundAnswer p (execActivateCordKey a0 a1 a2 s) := by
  intro a0 a1 a2 s h0
  unfold execActivateCordKey
  repeat' with_reducible first
    | assumption | rfl | intro _ | apply spdmGated_sound | apply soundAnswer_next

theorem execEraseCordKey_sound {p : Part} : ∀ a0 a1 a2 s, Sound p s → SoundAnswer p (execEraseCordKey a0 a1 a2 s) := by
  intro a0 a1 a2 s h0
  unfold execEraseCordKey
  repeat' with_reducible first
    | assumption | rfl | intro _ | apply spdmGated_sound | apply soundAnswer_next

end Sys2Proof.Machine
end

