-- ==== Sys2Proof/Laws/Sound/Power.lean ====
section
/-!
SUPPORT. Laws/Sound/Power.lean: what Machine/Power.lean does keeps a state sound (Sys2Proof.Sound): memory canonical, the record
queue bounded, the part unchanged.
-/

namespace Sys2Proof.Machine

theorem updPower_sound {p : Part} : ∀ a0 s, Sound p s → Sound p (updPower a0 s) := by
  intro a0 s h0
  unfold updPower
  repeat' with_reducible first
    | assumption | rfl | intro _ | apply sendMaint_sound | refine sound_parts ?_ ?_ ?_ | dsimp only [sound_mk_eq]

theorem refreshBudget_sound {p : Part} : ∀ s, Sound p s → Sound p (refreshBudget s) := by
  intro s h0
  unfold refreshBudget
  repeat' with_reducible first
    | assumption | rfl | intro _ | apply updPower_sound

theorem settleEpisode_sound {p : Part} : ∀ s, Sound p s → Sound p (settleEpisode s) := by
  intro s h0
  unfold settleEpisode
  repeat' with_reducible first
    | assumption | rfl | intro _ | apply updPower_sound | refine sound_parts ?_ ?_ ?_ | dsimp only [sound_mk_eq] | split

theorem refill_sound {p : Part} : ∀ a0 s, Sound p s → Sound p (refill a0 s) := by
  intro a0 s h0
  unfold refill
  repeat' with_reducible first
    | assumption | rfl | intro _ | apply updPower_sound | refine sound_parts ?_ ?_ ?_ | dsimp only [sound_mk_eq] | split

theorem serveRequest_sound {p : Part} : ∀ a0 s, Sound p s → Sound p (serveRequest a0 s) := by
  intro a0 s h0
  unfold serveRequest
  repeat' with_reducible first
    | assumption | rfl | intro _ | apply updPower_sound | refine sound_parts ?_ ?_ ?_ | dsimp only [sound_mk_eq] | split

/-- A refill where the pool does not serve. -/
theorem refillFor_sound {p : Part} {now : Nat} {r : GrantRequest} {s : State} (h : Sound p s) :
    Sound p (if poolServes s.power r = true then s else refill now s) := by
  split
  · exact h
  · exact refill_sound _ _ h

theorem serveRestores_sound {p : Part} : ∀ k passed s, Sound p s → Sound p (serveRestores k passed s) := by
  intro k passed s h
  fun_induction serveRestores k passed s with
  | case1 => exact h
  | case2 => exact h
  | case3 => exact updPower_sound _ _ (refillFor_sound h)
  | case4 _ _ _ _ _ _ _ _ ih => exact ih (serveRequest_sound _ _ (refillFor_sound h))
  | case5 _ _ _ _ _ _ _ _ ih => exact ih (refillFor_sound h)

theorem restoreAll_sound {p : Part} : ∀ s, Sound p s → Sound p (restoreAll s) := by
  intro s h0
  unfold restoreAll
  repeat' with_reducible first
    | assumption | rfl | intro _ | apply serveRestores_sound | apply refill_sound | apply foldl_sound | apply foldl_snd_sound
    | refine sound_parts ?_ ?_ ?_ | dsimp only [sound_mk_eq] | split

theorem execGrantRequest_sound {p : Part} : ∀ a0 s, Sound p s → SoundAnswer p (execGrantRequest a0 s) := by
  intro a0 s h0
  unfold execGrantRequest
  repeat' with_reducible first
    | assumption | rfl | intro _ | apply updPower_sound | apply soundAnswer_next | apply soundAnswer_fault
    | refine sound_parts ?_ ?_ ?_ | refine sound_of_snd_snd (by assumption) ?_ | refine sound_of_snd (by assumption) ?_
    | dsimp only [sound_mk_eq] | split

theorem execGrant_sound {p : Part} : ∀ a0 s, Sound p s → SoundAnswer p (execGrant a0 s) := by
  intro a0 s h0
  unfold execGrant
  repeat' with_reducible first
    | assumption | rfl | intro _ | apply updPower_sound | apply serveRequest_sound | apply soundAnswer_next
    | apply soundAnswer_fault | refine sound_parts ?_ ?_ ?_ | refine sound_of_snd_snd (by assumption) ?_
    | refine sound_of_snd (by assumption) ?_ | dsimp only [sound_mk_eq] | split

theorem execStaggeredStart_sound {p : Part} : ∀ a0 s, Sound p s → SoundAnswer p (execStaggeredStart a0 s) := by
  intro a0 s h0
  unfold execStaggeredStart
  repeat' with_reducible first
    | assumption | rfl | intro _ | apply updPower_sound | apply soundAnswer_next

theorem execPoolRefill_sound {p : Part} : ∀ a0 s, Sound p s → SoundAnswer p (execPoolRefill a0 s) := by
  intro a0 s h0
  unfold execPoolRefill
  repeat' with_reducible first
    | assumption | rfl | intro _ | apply refill_sound | apply soundAnswer_next | apply soundAnswer_fault
    | refine sound_parts ?_ ?_ ?_ | dsimp only [sound_mk_eq] | split

theorem execTopUpRequest_sound {p : Part} : ∀ a0 s, Sound p s → SoundAnswer p (execTopUpRequest a0 s) := by
  intro a0 s h0
  unfold execTopUpRequest
  repeat' with_reducible first
    | assumption | rfl | intro _ | apply updPower_sound | apply soundAnswer_next | apply soundAnswer_fault
    | refine sound_parts ?_ ?_ ?_ | dsimp only [sound_mk_eq] | split

theorem execReclaimReview_sound {p : Part} : ∀ a0 s, Sound p s → SoundAnswer p (execReclaimReview a0 s) := by
  intro a0 s h0
  unfold execReclaimReview
  repeat' with_reducible first
    | assumption | rfl | intro _ | apply updPower_sound | apply foldl_sound | apply foldl_snd_sound | apply soundAnswer_next
    | apply soundAnswer_fault | refine sound_parts ?_ ?_ ?_ | dsimp only [sound_mk_eq] | split

theorem execBudgetUpdate_sound {p : Part} : ∀ s, Sound p s → SoundAnswer p (execBudgetUpdate s) := by
  intro s h0
  unfold execBudgetUpdate
  repeat' with_reducible first
    | assumption | rfl | intro _ | apply restoreAll_sound | apply refreshBudget_sound | apply settleEpisode_sound
    | apply soundAnswer_next | apply soundAnswer_fault | refine sound_parts ?_ ?_ ?_ | dsimp only [sound_mk_eq] | split

theorem execEpisodeTimeout_sound {p : Part} : ∀ s, Sound p s → SoundAnswer p (execEpisodeTimeout s) := by
  intro s h0
  unfold execEpisodeTimeout
  repeat' with_reducible first
    | assumption | rfl | intro _ | apply refreshBudget_sound | apply updPower_sound | apply soundAnswer_next
    | apply soundAnswer_fault | refine sound_parts ?_ ?_ ?_ | dsimp only [sound_mk_eq] | split

theorem enterMeasured_sound {p : Part} : ∀ a0 s, Sound p s → Sound p (enterMeasured a0 s) := by
  intro a0 s h0
  unfold enterMeasured
  repeat' with_reducible first
    | assumption | rfl | intro _ | apply report_sound | apply updPower_sound | apply refreshBudget_sound

theorem leaveMeasured_sound {p : Part} : ∀ s, Sound p s → Sound p (leaveMeasured s) := by
  intro s h0
  unfold leaveMeasured
  repeat' with_reducible first
    | assumption | rfl | intro _ | apply refreshBudget_sound | apply updPower_sound

theorem measuredMissing_sound {p : Part} : ∀ a0 s, Sound p s → Sound p (measuredMissing a0 s) := by
  intro a0 s h0
  unfold measuredMissing
  repeat' with_reducible first
    | assumption | rfl | intro _ | apply refreshBudget_sound | apply updPower_sound | apply report_sound

theorem compareSample_sound {p : Part} : ∀ a0 a1 a2 s, Sound p s → Sound p (compareSample a0 a1 a2 s) := by
  intro a0 a1 a2 s h0
  unfold compareSample
  repeat' with_reducible first
    | assumption | rfl | intro _ | apply updPower_sound | apply enterMeasured_sound | apply leaveMeasured_sound
    | refine sound_parts ?_ ?_ ?_ | dsimp only [sound_mk_eq] | split

theorem recoverSample_sound {p : Part} : ∀ a0 s, Sound p s → Sound p (recoverSample a0 s) := by
  intro a0 s h0
  unfold recoverSample
  repeat' with_reducible first
    | assumption | rfl | intro _ | apply updPower_sound | refine sound_parts ?_ ?_ ?_ | dsimp only [sound_mk_eq] | split

theorem withInput_sound {p : Part} : ∀ a0 s, Sound p s → Sound p (withInput a0 s) := by
  intro a0 s h0
  unfold withInput
  repeat' with_reducible first
    | assumption | rfl | intro _ | refine sound_parts ?_ ?_ ?_ | dsimp only [sound_mk_eq]

theorem countEnergy_sound {p : Part} : ∀ a0 s, Sound p s → Sound p (countEnergy a0 s) := by
  intro a0 s h0
  unfold countEnergy
  repeat' with_reducible first
    | assumption | rfl | intro _ | apply updPower_sound

theorem boomSample_sound {p : Part} : ∀ a0 s, Sound p s → Sound p (boomSample a0 s) := by
  intro a0 s h0
  unfold boomSample
  repeat' with_reducible first
    | assumption | rfl | intro _ | apply fireInjection_sound | apply updPower_sound | apply measuredMissing_sound
    | apply recoverSample_sound | apply compareSample_sound | refine sound_parts ?_ ?_ ?_
    | refine sound_of_snd_snd (by assumption) ?_ | refine sound_of_snd (by assumption) ?_ | dsimp only [sound_mk_eq] | split

theorem limitInput_sound {p : Part} : ∀ s, Sound p s → Sound p (limitInput s) := by
  intro s h0
  unfold limitInput
  repeat' with_reducible first
    | assumption | rfl | intro _ | apply refreshBudget_sound | apply updPower_sound

theorem execEstimateSample_sound {p : Part} : ∀ a0 s, Sound p s → SoundAnswer p (execEstimateSample a0 s) := by
  intro a0 s h0
  unfold execEstimateSample
  repeat' with_reducible first
    | assumption | rfl | intro _ | apply countEnergy_sound | apply withInput_sound | apply limitInput_sound
    | apply boomSample_sound | apply soundAnswer_next | apply soundAnswer_fault | refine sound_parts ?_ ?_ ?_
    | dsimp only [sound_mk_eq] | split

theorem execMeasuredControlStep_sound {p : Part} : ∀ s, Sound p s → SoundAnswer p (execMeasuredControlStep s) := by
  intro s h0
  unfold execMeasuredControlStep
  repeat' with_reducible first
    | assumption | rfl | intro _ | apply restoreAll_sound | apply refreshBudget_sound | apply updPower_sound
    | apply soundAnswer_next | apply soundAnswer_fault | refine sound_parts ?_ ?_ ?_ | dsimp only [sound_mk_eq] | split

theorem execMeasuredPowerMissing_sound {p : Part} : ∀ s, Sound p s → SoundAnswer p (execMeasuredPowerMissing s) := by
  intro s h0
  unfold execMeasuredPowerMissing
  repeat' with_reducible first
    | assumption | rfl | intro _ | apply measuredMissing_sound | apply soundAnswer_next | apply soundAnswer_fault
    | refine sound_parts ?_ ?_ ?_ | dsimp only [sound_mk_eq] | split

theorem execPllSleep_sound {p : Part} : ∀ a0 s, Sound p s → SoundAnswer p (execPllSleep a0 s) := by
  intro a0 s h0
  unfold execPllSleep
  repeat' with_reducible first
    | assumption | rfl | intro _ | apply updPower_sound | apply soundAnswer_next | apply soundAnswer_fault
    | refine sound_parts ?_ ?_ ?_ | dsimp only [sound_mk_eq] | split

theorem execPllRelockDone_sound {p : Part} : ∀ a0 s, Sound p s → SoundAnswer p (execPllRelockDone a0 s) := by
  intro a0 s h0
  unfold execPllRelockDone
  repeat' with_reducible first
    | assumption | rfl | intro _ | apply updPower_sound | apply soundAnswer_next | apply soundAnswer_fault
    | refine sound_parts ?_ ?_ ?_ | dsimp only [sound_mk_eq] | split

theorem execDroop_sound {p : Part} : ∀ a0 s, Sound p s → SoundAnswer p (execDroop a0 s) := by
  intro a0 s h0
  unfold execDroop
  repeat' with_reducible first
    | assumption | rfl | intro _ | apply updPower_sound | apply soundAnswer_next | apply soundAnswer_fault
    | refine sound_parts ?_ ?_ ?_ | dsimp only [sound_mk_eq] | split

theorem execDroopRecover_sound {p : Part} : ∀ a0 s, Sound p s → SoundAnswer p (execDroopRecover a0 s) := by
  intro a0 s h0
  unfold execDroopRecover
  repeat' with_reducible first
    | assumption | rfl | intro _ | apply updPower_sound | apply soundAnswer_next | apply soundAnswer_fault
    | refine sound_parts ?_ ?_ ?_ | dsimp only [sound_mk_eq] | split

theorem execDroopStartHoldoffEnd_sound {p : Part} : ∀ a0 s, Sound p s → SoundAnswer p (execDroopStartHoldoffEnd a0 s) := by
  intro a0 s h0
  unfold execDroopStartHoldoffEnd
  repeat' with_reducible first
    | assumption | rfl | intro _ | apply updPower_sound | apply soundAnswer_next | apply soundAnswer_fault
    | refine sound_parts ?_ ?_ ?_ | dsimp only [sound_mk_eq] | split

theorem tripModule_sound {p : Part} : ∀ a0 a1 s, Sound p s → Sound p (tripModule a0 a1 s) := by
  intro a0 a1 s h0
  unfold tripModule
  repeat' with_reducible first
    | assumption | rfl | intro _ | apply keepIdentity_sound | apply resetSteps_sound | apply updPower_sound

theorem assertTherm_sound {p : Part} : ∀ a0 s, Sound p s → Sound p (assertTherm a0 s) := by
  intro a0 s h0
  unfold assertTherm
  repeat' with_reducible first
    | assumption | rfl | intro _ | apply report_sound | apply updPower_sound | refine sound_parts ?_ ?_ ?_
    | dsimp only [sound_mk_eq] | split

theorem packageResponse_sound {p : Part} : ∀ a0 a1 a2 s, Sound p s → Sound p (packageResponse a0 a1 a2 s) := by
  intro a0 a1 a2 s h0
  unfold packageResponse
  repeat' with_reducible first
    | assumption | rfl | intro _ | apply report_sound | apply updPower_sound | refine sound_parts ?_ ?_ ?_
    | dsimp only [sound_mk_eq] | split

theorem landingResponse_sound {p : Part} : ∀ a0 s, Sound p s → Sound p (landingResponse a0 s) := by
  intro a0 s h0
  unfold landingResponse
  repeat' with_reducible first
    | assumption | rfl | intro _ | apply report_sound | apply updPower_sound | refine sound_parts ?_ ?_ ?_
    | dsimp only [sound_mk_eq] | split

theorem tempResponse_sound {p : Part} : ∀ a0 a1 s, Sound p s → Sound p (tempResponse a0 a1 s) := by
  intro a0 a1 s h0
  unfold tempResponse
  repeat' with_reducible first
    | assumption | rfl | intro _ | apply tripModule_sound | apply assertTherm_sound | apply packageResponse_sound
    | apply landingResponse_sound | refine sound_parts ?_ ?_ ?_ | refine sound_of_snd_snd (by assumption) ?_
    | refine sound_of_snd (by assumption) ?_ | dsimp only [sound_mk_eq] | split

theorem holdTherm_sound {p : Part} : ∀ a0 s, Sound p s → Sound p (holdTherm a0 s) := by
  intro a0 s h0
  unfold holdTherm
  repeat' with_reducible first
    | assumption | rfl | intro _ | apply assertTherm_sound | refine sound_parts ?_ ?_ ?_
    | refine sound_of_snd_snd (by assumption) ?_ | refine sound_of_snd (by assumption) ?_ | dsimp only [sound_mk_eq] | split

theorem takeReading_sound {p : Part} : ∀ a0 a1 s, Sound p s → Sound p (takeReading a0 a1 s) := by
  intro a0 a1 s h0
  unfold takeReading
  repeat' with_reducible first
    | assumption | rfl | intro _ | apply fireInjection_sound | apply updPower_sound | apply tempResponse_sound
    | apply holdTherm_sound | apply foldl_sound | apply foldl_snd_sound | refine sound_parts ?_ ?_ ?_ | dsimp only [sound_mk_eq]
    | split

theorem execTempSample_sound {p : Part} : ∀ a0 a1 s, Sound p s → SoundAnswer p (execTempSample a0 a1 s) := by
  intro a0 a1 s h0
  unfold execTempSample
  repeat' with_reducible first
    | assumption | rfl | intro _ | apply takeReading_sound | apply soundAnswer_next

theorem execStackTempReport_sound {p : Part} : ∀ a0 a1 s, Sound p s → SoundAnswer p (execStackTempReport a0 a1 s) := by
  intro a0 a1 s h0
  unfold execStackTempReport
  repeat' with_reducible first
    | assumption | rfl | intro _ | apply takeReading_sound | apply soundAnswer_next

theorem setCap_sound {p : Part} : ∀ a0 s, Sound p s → Sound p (setCap a0 s) := by
  intro a0 s h0
  unfold setCap
  repeat' with_reducible first
    | assumption | rfl | intro _ | apply updPower_sound

theorem execGroveCapUpdate_sound {p : Part} : ∀ s, Sound p s → SoundAnswer p (execGroveCapUpdate s) := by
  intro s h0
  unfold execGroveCapUpdate
  repeat' with_reducible first
    | assumption | rfl | intro _ | apply setCap_sound | apply foldl_sound | apply foldl_snd_sound | apply soundAnswer_next
    | apply soundAnswer_fault | refine sound_parts ?_ ?_ ?_ | dsimp only [sound_mk_eq] | split

theorem sensorSilent_sound {p : Part} : ∀ a0 s, Sound p s → Sound p (sensorSilent a0 s) := by
  intro a0 s h0
  unfold sensorSilent
  repeat' with_reducible first
    | assumption | rfl | intro _ | apply fireInjection_sound | apply updPower_sound | apply tempResponse_sound
    | apply report_sound | refine sound_parts ?_ ?_ ?_ | dsimp only [sound_mk_eq] | split

theorem execSensorTimeout_sound {p : Part} : ∀ a0 s, Sound p s → SoundAnswer p (execSensorTimeout a0 s) := by
  intro a0 s h0
  unfold execSensorTimeout
  repeat' with_reducible first
    | assumption | rfl | intro _ | apply sensorSilent_sound | apply soundAnswer_next

theorem execThermNRelease_sound {p : Part} : ∀ s, Sound p s → SoundAnswer p (execThermNRelease s) := by
  intro s h0
  unfold execThermNRelease
  repeat' with_reducible first
    | assumption | rfl | intro _ | apply updPower_sound | apply soundAnswer_next | apply soundAnswer_fault
    | refine sound_parts ?_ ?_ ?_ | refine sound_of_snd_snd (by assumption) ?_ | refine sound_of_snd (by assumption) ?_
    | dsimp only [sound_mk_eq] | split

theorem execInputLowLimit_sound {p : Part} : ∀ a0 s, Sound p s → SoundAnswer p (execInputLowLimit a0 s) := by
  intro a0 s h0
  unfold execInputLowLimit
  repeat' with_reducible first
    | assumption | rfl | intro _ | apply withInput_sound | apply limitInput_sound | apply soundAnswer_next
    | apply soundAnswer_fault | refine sound_parts ?_ ?_ ?_ | dsimp only [sound_mk_eq] | split

theorem execInputLowLimitEnd_sound {p : Part} : ∀ a0 s, Sound p s → SoundAnswer p (execInputLowLimitEnd a0 s) := by
  intro a0 s h0
  unfold execInputLowLimitEnd
  repeat' with_reducible first
    | assumption | rfl | intro _ | apply withInput_sound | apply updPower_sound | apply refreshBudget_sound
    | apply soundAnswer_next | apply soundAnswer_fault | refine sound_parts ?_ ?_ ?_ | dsimp only [sound_mk_eq] | split

theorem applyBrake_sound {p : Part} : ∀ s, Sound p s → Sound p (applyBrake s) := by
  intro s h0
  unfold applyBrake
  repeat' with_reducible first
    | assumption | rfl | intro _ | apply updPower_sound | refine sound_parts ?_ ?_ ?_ | dsimp only [sound_mk_eq] | split

theorem execPowerBrake_sound {p : Part} : ∀ s, Sound p s → SoundAnswer p (execPowerBrake s) := by
  intro s h0
  unfold execPowerBrake
  repeat' with_reducible first
    | assumption | rfl | intro _ | apply applyBrake_sound | apply soundAnswer_next | apply soundAnswer_fault
    | refine sound_parts ?_ ?_ ?_ | dsimp only [sound_mk_eq] | split

theorem releaseBrake_sound {p : Part} : ∀ s, Sound p s → Sound p (releaseBrake s) := by
  intro s h0
  unfold releaseBrake
  repeat' with_reducible first
    | assumption | rfl | intro _ | apply updPower_sound | apply restoreAll_sound | apply refreshBudget_sound
    | refine sound_parts ?_ ?_ ?_ | dsimp only [sound_mk_eq] | split

theorem ageStep_sound {p : Part} : ∀ a0 s, Sound p s → Sound p (ageStep a0 s) := by
  intro a0 s h0
  unfold ageStep
  repeat' with_reducible first
    | assumption | rfl | intro _ | apply report_sound | apply updPower_sound | apply setCap_sound | refine sound_parts ?_ ?_ ?_
    | dsimp only [sound_mk_eq] | split

theorem ageInjections_sound {p : Part} : ∀ a0 s, Sound p s → Sound p (ageInjections a0 s) := by
  intro a0 s h0
  unfold ageInjections
  repeat' with_reducible first
    | assumption | rfl | intro _ | apply fireInjection_sound | apply report_sound | apply foldl_sound | apply foldl_snd_sound
    | refine sound_parts ?_ ?_ ?_ | dsimp only [sound_mk_eq] | split

theorem execMarginSample_sound {p : Part} : ∀ a0 a1 s, Sound p s → SoundAnswer p (execMarginSample a0 a1 s) := by
  intro a0 a1 s h0
  unfold execMarginSample
  repeat' with_reducible first
    | assumption | rfl | intro _ | apply updPower_sound | apply ageInjections_sound | apply ageStep_sound
    | apply soundAnswer_next | apply soundAnswer_fault | refine sound_parts ?_ ?_ ?_ | dsimp only [sound_mk_eq] | split

theorem boomCtlWrite_sound {p : Part} : ∀ a0 s, Sound p s → Sound p (boomCtlWrite a0 s) := by
  intro a0 s h0
  unfold boomCtlWrite
  repeat' with_reducible first
    | assumption | rfl | intro _ | apply updPower_sound | apply refreshBudget_sound | refine sound_parts ?_ ?_ ?_
    | dsimp only [sound_mk_eq] | split

theorem execBoomCtlWrite_sound {p : Part} : ∀ a0 s, Sound p s → SoundAnswer p (execBoomCtlWrite a0 s) := by
  intro a0 s h0
  unfold execBoomCtlWrite
  repeat' with_reducible first
    | assumption | rfl | intro _ | apply boomCtlWrite_sound | apply soundAnswer_next | apply soundAnswer_fault
    | refine sound_parts ?_ ?_ ?_ | dsimp only [sound_mk_eq] | split

end Sys2Proof.Machine
end

