-- ==== Sys2Proof/Laws/Sound/Errors.lean ====
section
/-!
SUPPORT. Laws/Sound/Errors.lean: what Machine/Errors.lean does keeps a state sound (Sys2Proof.Sound): memory canonical, the record
queue bounded, the part unchanged.
-/

namespace Sys2Proof.Machine

theorem updErr_sound {p : Part} : ∀ f s, Sound p s → (f s.err).written = s.err.written → (f s.err).read = s.err.read →
    Sound p (updErr f s) := by
  intro f s h hw hr
  unfold updErr
  exact sound_mk h hw hr

theorem tellLost_sound {p : Part} : ∀ s, Sound p s → Sound p (tellLost s) := by
  intro s h0
  unfold tellLost
  repeat' with_reducible first
    | assumption | rfl | intro _ | apply reportModule_sound | apply updErr_sound | refine sound_parts ?_ ?_ ?_
    | dsimp only [sound_mk_eq] | split

theorem errReadWrite_sound {p : Part} : ∀ v s, Sound p s → Sound p (errReadWrite v s) := by
  intro v s h
  unfold errReadWrite
  split
  · rename_i hv
    refine tellLost_sound _ ⟨h.1, ⟨?_, ?_⟩, h.2.2⟩
    · exact hv.2
    · have := h.2.1.2
      show s.err.written ≤ v.toNat + 1024
      omega
  · exact h

theorem execErrRead_sound {p : Part} : ∀ a0 s, Sound p s → SoundAnswer p (execErrRead a0 s) := by
  intro a0 s h0
  unfold execErrRead
  repeat' with_reducible first
    | assumption | rfl | intro _ | apply errReadWrite_sound | apply soundAnswer_next

theorem errAck_sound {p : Part} : ∀ s, Sound p s → Sound p (errAck s) := by
  intro s h0
  unfold errAck
  repeat' with_reducible first
    | assumption | rfl | intro _ | apply updErr_sound | refine sound_parts ?_ ?_ ?_ | refine sound_of_snd_snd (by assumption) ?_
    | refine sound_of_snd (by assumption) ?_ | dsimp only [sound_mk_eq] | split

theorem execAck_sound {p : Part} : ∀ s, Sound p s → SoundAnswer p (execAck s) := by
  intro s h0
  unfold execAck
  repeat' with_reducible first
    | assumption | rfl | intro _ | apply errAck_sound | apply soundAnswer_next

theorem errCtlWrite_sound {p : Part} : ∀ a0 s, Sound p s → Sound p (errCtlWrite a0 s) := by
  intro a0 s h0
  unfold errCtlWrite
  repeat' with_reducible first
    | assumption | rfl | intro _ | apply updErr_sound

theorem execGroveResetRequest_sound {p : Part} : ∀ a0 s, Sound p s → SoundAnswer p (execGroveResetRequest a0 s) := by
  intro a0 s h0
  unfold execGroveResetRequest
  repeat' with_reducible first
    | assumption | rfl | intro _ | apply requestGroveReset_sound | apply soundAnswer_next

theorem completeGroveReset_sound {p : Part} : ∀ a0 a1 s, Sound p s → Sound p (completeGroveReset a0 a1 s) := by
  intro a0 a1 s h0
  unfold completeGroveReset
  repeat' with_reducible first
    | assumption | rfl | intro _ | apply quarantineNow_sound | apply applyHeld_sound | apply report_sound
    | refine sound_parts ?_ ?_ ?_ | dsimp only [sound_mk_eq] | split

theorem execGroveResetComplete_sound {p : Part} : ∀ a0 a1 s, Sound p s → SoundAnswer p (execGroveResetComplete a0 a1 s) := by
  intro a0 a1 s h0
  unfold execGroveResetComplete
  repeat' with_reducible first
    | assumption | rfl | intro _ | apply completeGroveReset_sound | apply soundAnswer_next | apply soundAnswer_fault
    | refine sound_parts ?_ ?_ ?_ | dsimp only [sound_mk_eq] | split

theorem execBenchQuarantine_sound {p : Part} : ∀ a0 a1 s, Sound p s → SoundAnswer p (execBenchQuarantine a0 a1 s) := by
  intro a0 a1 s h0
  unfold execBenchQuarantine
  repeat' with_reducible first
    | assumption | rfl | intro _ | apply quarantine_sound | apply soundAnswer_next | apply soundAnswer_fault
    | refine sound_parts ?_ ?_ ?_ | dsimp only [sound_mk_eq] | split

theorem execTallyStateError_sound {p : Part} : ∀ a0 s, Sound p s → SoundAnswer p (execTallyStateError a0 s) := by
  intro a0 s h0
  unfold execTallyStateError
  repeat' with_reducible first
    | assumption | rfl | intro _ | apply tallyStateError_sound | apply soundAnswer_next | apply soundAnswer_fault
    | refine sound_parts ?_ ?_ ?_ | dsimp only [sound_mk_eq] | split

theorem execOpcacheLineError_sound {p : Part} : ∀ a0 a1 s, Sound p s → SoundAnswer p (execOpcacheLineError a0 a1 s) := by
  intro a0 a1 s h0
  unfold execOpcacheLineError
  repeat' with_reducible first
    | assumption | rfl | intro _ | apply report_sound | apply soundAnswer_next | apply soundAnswer_fault
    | refine sound_parts ?_ ?_ ?_ | dsimp only [sound_mk_eq] | split

theorem execSystemCacheLineError_sound {p : Part} : ∀ a0 s, Sound p s → SoundAnswer p (execSystemCacheLineError a0 s) := by
  intro a0 s h0
  unfold execSystemCacheLineError
  repeat' with_reducible first
    | assumption | rfl | intro _ | apply reportModule_sound | apply soundAnswer_next | apply soundAnswer_fault
    | refine sound_parts ?_ ?_ ?_ | dsimp only [sound_mk_eq] | split

theorem execLandingStateError_sound {p : Part} : ∀ s, Sound p s → SoundAnswer p (execLandingStateError s) := by
  intro s h0
  unfold execLandingStateError
  repeat' with_reducible first
    | assumption | rfl | intro _ | apply landingFault_sound | apply soundAnswer_next | apply soundAnswer_fault
    | refine sound_parts ?_ ?_ ?_ | dsimp only [sound_mk_eq] | split

theorem updSlot_sound {p : Part} : ∀ a0 a1 s, Sound p s → Sound p (updSlot a0 a1 s) := by
  intro a0 a1 s h0
  unfold updSlot
  repeat' with_reducible first
    | assumption | rfl | intro _ | apply updErr_sound

theorem armSlot_sound {p : Part} : ∀ a0 s, Sound p s → Sound p (armSlot a0 s) := by
  intro a0 s h0
  unfold armSlot
  repeat' with_reducible first
    | assumption | rfl | intro _ | apply updSlot_sound

theorem disarmSlot_sound {p : Part} : ∀ a0 s, Sound p s → Sound p (disarmSlot a0 s) := by
  intro a0 s h0
  unfold disarmSlot
  repeat' with_reducible first
    | assumption | rfl | intro _ | apply updSlot_sound

theorem injCtlWrite_sound {p : Part} : ∀ a0 a1 s, Sound p s → Sound p (injCtlWrite a0 a1 s) := by
  intro a0 a1 s h0
  unfold injCtlWrite
  repeat' with_reducible first
    | assumption | rfl | intro _ | apply armSlot_sound | apply disarmSlot_sound | refine sound_parts ?_ ?_ ?_
    | dsimp only [sound_mk_eq] | split

theorem injPointWrite_sound {p : Part} : ∀ a0 a1 s, Sound p s → Sound p (injPointWrite a0 a1 s) := by
  intro a0 a1 s h0
  unfold injPointWrite
  repeat' with_reducible first
    | assumption | rfl | intro _ | apply updSlot_sound | refine sound_parts ?_ ?_ ?_ | dsimp only [sound_mk_eq] | split

theorem injLocatorWrite_sound {p : Part} : ∀ a0 a1 s, Sound p s → Sound p (injLocatorWrite a0 a1 s) := by
  intro a0 a1 s h0
  unfold injLocatorWrite
  repeat' with_reducible first
    | assumption | rfl | intro _ | apply updSlot_sound | refine sound_parts ?_ ?_ ?_ | dsimp only [sound_mk_eq] | split

theorem injStartWrite_sound {p : Part} : ∀ a0 s, Sound p s → Sound p (injStartWrite a0 s) := by
  intro a0 s h0
  unfold injStartWrite
  repeat' with_reducible first
    | assumption | rfl | intro _ | apply updErr_sound | refine sound_parts ?_ ?_ ?_ | dsimp only [sound_mk_eq] | split

theorem execInjectionArm_sound {p : Part} : ∀ a0 a1 s, Sound p s → SoundAnswer p (execInjectionArm a0 a1 s) := by
  intro a0 a1 s h0
  unfold execInjectionArm
  repeat' with_reducible first
    | assumption | rfl | intro _ | apply injCtlWrite_sound | apply soundAnswer_next | apply soundAnswer_fault
    | refine sound_parts ?_ ?_ ?_ | dsimp only [sound_mk_eq] | split

theorem execInjectionDisarm_sound {p : Part} : ∀ a0 s, Sound p s → SoundAnswer p (execInjectionDisarm a0 s) := by
  intro a0 s h0
  unfold execInjectionDisarm
  repeat' with_reducible first
    | assumption | rfl | intro _ | apply disarmSlot_sound | apply soundAnswer_next | apply soundAnswer_fault
    | refine sound_parts ?_ ?_ ?_ | dsimp only [sound_mk_eq] | split

theorem startScan_sound {p : Part} : ∀ s, Sound p s → Sound p (startScan s) := by
  intro s h0
  unfold startScan
  repeat' with_reducible first
    | assumption | rfl | intro _ | apply updErr_sound | apply updPower_sound | refine sound_parts ?_ ?_ ?_
    | refine sound_of_snd_snd (by assumption) ?_ | refine sound_of_snd (by assumption) ?_ | dsimp only [sound_mk_eq] | split

theorem leaveScan_sound {p : Part} : ∀ a0 s, Sound p s → Sound p (leaveScan a0 s) := by
  intro a0 s h0
  unfold leaveScan
  repeat' with_reducible first
    | assumption | rfl | intro _ | apply updPower_sound | apply updErr_sound | refine sound_parts ?_ ?_ ?_
    | refine sound_of_snd_snd (by assumption) ?_ | refine sound_of_snd (by assumption) ?_ | dsimp only [sound_mk_eq] | split

theorem abortScan_sound {p : Part} : ∀ s, Sound p s → Sound p (abortScan s) := by
  intro s h0
  unfold abortScan
  repeat' with_reducible first
    | assumption | rfl | intro _ | apply leaveScan_sound | refine sound_parts ?_ ?_ ?_ | dsimp only [sound_mk_eq] | split

theorem diagCtlWrite_sound {p : Part} : ∀ a0 s, Sound p s → Sound p (diagCtlWrite a0 s) := by
  intro a0 s h0
  unfold diagCtlWrite
  repeat' with_reducible first
    | assumption | rfl | intro _ | apply abortScan_sound | apply startScan_sound | refine sound_parts ?_ ?_ ?_
    | dsimp only [sound_mk_eq] | split

theorem diagLocatorWrite_sound {p : Part} : ∀ a0 s, Sound p s → Sound p (diagLocatorWrite a0 s) := by
  intro a0 s h0
  unfold diagLocatorWrite
  repeat' with_reducible first
    | assumption | rfl | intro _ | apply updErr_sound

theorem execGo_sound {p : Part} : ∀ a0 s, Sound p s → SoundAnswer p (execGo a0 s) := by
  intro a0 s h0
  unfold execGo
  repeat' with_reducible first
    | assumption | rfl | intro _ | apply diagCtlWrite_sound | apply soundAnswer_next | apply soundAnswer_fault
    | refine sound_parts ?_ ?_ ?_ | dsimp only [sound_mk_eq] | split

theorem execAbort_sound {p : Part} : ∀ s, Sound p s → SoundAnswer p (execAbort s) := by
  intro s h0
  unfold execAbort
  repeat' with_reducible first
    | assumption | rfl | intro _ | apply abortScan_sound | apply soundAnswer_next

theorem scanInjections_sound {p : Part} : ∀ a0 s, Sound p s → Sound p (scanInjections a0 s) := by
  intro a0 s h0
  unfold scanInjections
  repeat' with_reducible first
    | assumption | rfl | intro _ | apply fireInjection_sound | apply foldl_sound

theorem finishScan_sound {p : Part} : ∀ a0 a1 a2 s, Sound p s → Sound p (finishScan a0 a1 a2 s) := by
  intro a0 a1 a2 s h0
  unfold finishScan
  repeat' with_reducible first
    | assumption | rfl | intro _ | apply scanInjections_sound | apply updErr_sound | apply drawFree_sound
    | apply leaveScan_sound | refine sound_parts ?_ ?_ ?_ | refine sound_of_snd_snd (by assumption) ?_
    | refine sound_of_snd (by assumption) ?_ | dsimp only [sound_mk_eq] | split

theorem execDiagScanDone_sound {p : Part} : ∀ a0 a1 s, Sound p s → SoundAnswer p (execDiagScanDone a0 a1 s) := by
  intro a0 a1 s h0
  unfold execDiagScanDone
  repeat' with_reducible first
    | assumption | rfl | intro _ | apply finishScan_sound | apply soundAnswer_next | apply soundAnswer_fault
    | refine sound_parts ?_ ?_ ?_ | refine sound_of_snd_snd (by assumption) ?_ | refine sound_of_snd (by assumption) ?_
    | dsimp only [sound_mk_eq] | split

end Sys2Proof.Machine
end

