-- ==== Sys2Proof/Laws/Sound/Move.lean ====
section
/-!
SUPPORT. Laws/Sound/Move.lean: what Machine/Move.lean does keeps a state sound (Sys2Proof.Sound): memory canonical, the record
queue bounded, the part unchanged.
-/

namespace Sys2Proof.Machine

theorem moveAll_sound {p : Part} : ∀ a0 a1 a2 a3 a4 s,
    (∀ x0 x1 x2 x3 x4 t, Sound p t → Sound p (a0 x0 x1 x2 x3 x4 t).2) → Sound p s → Sound p (moveAll a0 a1 a2 a3 a4 s).2 := by
  intro a0 a1 a2 a3 a4 s h0 h1
  fun_induction moveAll a0 a1 a2 a3 a4 s
  all_goals repeat' with_reducible first
    | assumption | rfl | intro _ | apply h0 | apply Reply.andThen_sound | apply updTask_sound | refine sound_parts ?_ ?_ ?_
    | apply_assumption -exfalso -symm

theorem undefineOverlap_sound {p : Part} : ∀ a0 a1 a2 s, Sound p s → Sound p (undefineOverlap a0 a1 a2 s).2 := by
  intro a0 a1 a2 s h0
  fun_induction undefineOverlap a0 a1 a2 s
  all_goals repeat' with_reducible first
    | assumption | rfl | intro _ | apply drawFree_sound | refine sound_parts ?_ ?_ ?_ | apply_assumption -exfalso -symm

theorem keepSource_sound {p : Part} : ∀ a0 a1 a2 s, Sound p s → Sound p (keepSource a0 a1 a2 s) := by
  intro a0 a1 a2 s h0
  unfold keepSource
  repeat' with_reducible first
    | assumption | rfl | intro _ | apply fieldRead_sound | apply updTask_sound | apply foldl_sound | apply foldl_snd_sound
    | refine sound_parts ?_ ?_ ?_ | refine sound_of_snd_snd (by assumption) ?_ | refine sound_of_snd (by assumption) ?_
    | dsimp only [sound_mk_eq] | split

theorem copyUnit_sound {p : Part} : ∀ a0 a1 a2 a3 a4 s, Sound p s → Sound p (copyUnit a0 a1 a2 a3 a4 s).2 := by
  intro a0 a1 a2 a3 a4 s h0
  unfold copyUnit
  repeat' with_reducible first
    | assumption | rfl | intro _ | apply Reply.andThen_sound | apply fieldRead_sound | apply sendTransfer_sound
    | apply translatePieces_sound | apply undefineOverlap_sound | apply fieldWrite_sound | refine sound_parts ?_ ?_ ?_
    | dsimp only [sound_mk_eq] | split

theorem copyWork_sound {p : Part} : ∀ a0 a1 a2 s, Sound p s → Sound p (copyWork a0 a1 a2 s).2 := by
  intro a0 a1 a2 s h0
  unfold copyWork
  repeat' with_reducible first
    | assumption | rfl | intro _ | apply moveAll_sound | apply copyUnit_sound | apply keepSource_sound
    | refine sound_parts ?_ ?_ ?_ | dsimp only [sound_mk_eq] | split

theorem fillWork_sound {p : Part} : ∀ a0 a1 a2 s, Sound p s → Sound p (fillWork a0 a1 a2 s).2 := by
  intro a0 a1 a2 s h0
  unfold fillWork
  repeat' with_reducible first
    | assumption | rfl | intro _ | apply moveAll_sound | apply fieldWrite_sound

theorem prefetchAshlar_sound {p : Part} : ∀ a0 a1 s, Sound p s → Sound p (prefetchAshlar a0 a1 s).2 := by
  intro a0 a1 s h0
  unfold prefetchAshlar
  repeat' with_reducible first
    | assumption | rfl | intro _ | apply beginMigration_sound | apply touchFrame_sound | refine sound_parts ?_ ?_ ?_
    | refine sound_of_snd_snd (by assumption) ?_ | refine sound_of_snd (by assumption) ?_ | dsimp only [sound_mk_eq] | split

theorem evictAshlar_sound {p : Part} : ∀ a0 a1 s, Sound p s → Sound p (evictAshlar a0 a1 s).2 := by
  intro a0 a1 s h0
  unfold evictAshlar
  repeat' with_reducible first
    | assumption | rfl | intro _ | apply dropLeaving_sound | refine sound_parts ?_ ?_ ?_
    | refine sound_of_snd_snd (by assumption) ?_ | refine sound_of_snd (by assumption) ?_ | dsimp only [sound_mk_eq] | split

theorem eachAshlar_sound {p : Part} : ∀ a0 a1 a2 s,
    (∀ x0 x1 t, Sound p t → Sound p (a0 x0 x1 t).2) → Sound p s → Sound p (eachAshlar a0 a1 a2 s).2 := by
  intro a0 a1 a2 s h0 h1
  fun_induction eachAshlar a0 a1 a2 s
  all_goals repeat' with_reducible first
    | assumption | rfl | intro _ | apply h0 | apply Reply.andThen_sound

theorem ashlarUnit_sound {p : Part} : ∀ a0 a1 a2 a3 a4 a5 s,
    (∀ x0 x1 t, Sound p t → Sound p (a0 x0 x1 t).2) → Sound p s → Sound p (ashlarUnit a0 a1 a2 a3 a4 a5 s).2 := by
  intro a0 a1 a2 a3 a4 a5 s h0 h1
  unfold ashlarUnit
  repeat' with_reducible first
    | assumption | rfl | intro _ | apply h0 | apply Reply.andThen_sound | apply translatePieces_sound | apply eachAshlar_sound
    | refine sound_parts ?_ ?_ ?_ | refine sound_of_snd_snd (by assumption) ?_ | refine sound_of_snd (by assumption) ?_
    | dsimp only [sound_mk_eq] | split

theorem prefetchWork_sound {p : Part} : ∀ a0 a1 a2 s, Sound p s → Sound p (prefetchWork a0 a1 a2 s).2 := by
  intro a0 a1 a2 s h0
  unfold prefetchWork
  repeat' with_reducible first
    | assumption | rfl | intro _ | apply moveAll_sound | apply ashlarUnit_sound | apply prefetchAshlar_sound

theorem evictWork_sound {p : Part} : ∀ a0 a1 a2 s, Sound p s → Sound p (evictWork a0 a1 a2 s).2 := by
  intro a0 a1 a2 s h0
  unfold evictWork
  repeat' with_reducible first
    | assumption | rfl | intro _ | apply moveAll_sound | apply ashlarUnit_sound | apply evictAshlar_sound

theorem translateFlash_sound {p : Part} : ∀ a0 a1 s, Sound p s → Sound p (translateFlash a0 a1 s).2 := by
  intro a0 a1 s h0
  fun_induction translateFlash a0 a1 s
  all_goals repeat' with_reducible first
    | assumption | rfl | intro _ | apply Reply.andThen_sound | apply translate_sound | refine sound_parts ?_ ?_ ?_
    | apply_assumption -exfalso -symm

theorem writeFlashUnit_sound {p : Part} : ∀ a0 a1 a2 s, Sound p s → Sound p (writeFlashUnit a0 a1 a2 s) := by
  intro a0 a1 a2 s h0
  unfold writeFlashUnit
  repeat' with_reducible first
    | assumption | rfl | intro _ | apply homeStore_sound | refine sound_parts ?_ ?_ ?_ | dsimp only [sound_mk_eq]

theorem flashUnit_sound {p : Part} : ∀ a0 a1 a2 a3 a4 s, Sound p s → Sound p (flashUnit a0 a1 a2 a3 a4 s).2 := by
  intro a0 a1 a2 a3 a4 s h0
  unfold flashUnit
  repeat' with_reducible first
    | assumption | rfl | intro _ | apply Reply.andThen_sound | apply translatePieces_sound | apply translateFlash_sound
    | apply engineRead_sound | apply writeFlashUnit_sound | refine sound_parts ?_ ?_ ?_
    | refine sound_of_snd_snd (by assumption) ?_ | refine sound_of_snd (by assumption) ?_ | dsimp only [sound_mk_eq] | split

theorem flashWork_sound {p : Part} : ∀ a0 a1 a2 s, Sound p s → Sound p (flashWork a0 a1 a2 s).2 := by
  intro a0 a1 a2 s h0
  unfold flashWork
  repeat' with_reducible first
    | assumption | rfl | intro _ | apply moveAll_sound | apply flashUnit_sound

theorem moveStep_sound {p : Part} : ∀ a0 a1 a2 a3 s,
    (∀ x0 x1 x2 t, Sound p t → Sound p (a1 x0 x1 x2 t).2) → Sound p s → Sound p (moveStep a0 a1 a2 a3 s) := by
  intro a0 a1 a2 a3 s h0 h1
  unfold moveStep
  repeat' with_reducible first
    | assumption | rfl | intro _ | apply h0 | apply issueBench_sound | apply markWorkDone_sound | apply blockTask_sound
    | apply failTask_sound | refine sound_parts ?_ ?_ ?_ | refine sound_of_snd_snd (by assumption) ?_
    | refine sound_of_snd (by assumption) ?_ | dsimp only [sound_mk_eq] | split

theorem execCopy_sound {p : Part} : ∀ a0 a1 s, Sound p s → SoundAnswer p (execCopy a0 a1 s) := by
  intro a0 a1 s h0
  unfold execCopy
  repeat' with_reducible first
    | assumption | rfl | intro _ | apply moveStep_sound | apply copyWork_sound | apply soundAnswer_next

theorem execFill_sound {p : Part} : ∀ a0 a1 s, Sound p s → SoundAnswer p (execFill a0 a1 s) := by
  intro a0 a1 s h0
  unfold execFill
  repeat' with_reducible first
    | assumption | rfl | intro _ | apply moveStep_sound | apply fillWork_sound | apply soundAnswer_next

theorem execPrefetch_sound {p : Part} : ∀ a0 a1 s, Sound p s → SoundAnswer p (execPrefetch a0 a1 s) := by
  intro a0 a1 s h0
  unfold execPrefetch
  repeat' with_reducible first
    | assumption | rfl | intro _ | apply moveStep_sound | apply prefetchWork_sound | apply soundAnswer_next

theorem execEvict_sound {p : Part} : ∀ a0 a1 s, Sound p s → SoundAnswer p (execEvict a0 a1 s) := by
  intro a0 a1 s h0
  unfold execEvict
  repeat' with_reducible first
    | assumption | rfl | intro _ | apply moveStep_sound | apply evictWork_sound | apply soundAnswer_next

theorem execFlashWrite_sound {p : Part} : ∀ a0 a1 s, Sound p s → SoundAnswer p (execFlashWrite a0 a1 s) := by
  intro a0 a1 s h0
  unfold execFlashWrite
  repeat' with_reducible first
    | assumption | rfl | intro _ | apply moveStep_sound | apply flashWork_sound | apply soundAnswer_next

end Sys2Proof.Machine
end

