-- ==== Sys2Proof/Laws/Sound/Tiers.lean ====
section
/-!
SUPPORT. Laws/Sound/Tiers.lean: what Machine/Tiers.lean does keeps a state sound (Sys2Proof.Sound): memory canonical, the record
queue bounded, the part unchanged.
-/

namespace Sys2Proof.Machine

theorem frameForWaiting_sound {p : Part} : ∀ a0 a1 s, Sound p s → Sound p (frameForWaiting a0 a1 s) := by
  intro a0 a1 s h0
  unfold frameForWaiting
  repeat' with_reducible first
    | assumption | rfl | intro _ | apply takeFrame_sound | refine sound_parts ?_ ?_ ?_
    | refine sound_of_snd_snd (by assumption) ?_ | refine sound_of_snd (by assumption) ?_ | dsimp only [sound_mk_eq] | split

theorem migration_sound {p : Part} : ∀ a0 s, Sound p s → Sound p (migration a0 s) := by
  intro a0 s h0
  unfold migration
  repeat' with_reducible first
    | assumption | rfl | intro _ | apply frameForWaiting_sound | apply beginMigration_sound | refine sound_parts ?_ ?_ ?_
    | refine sound_of_snd_snd (by assumption) ?_ | refine sound_of_snd (by assumption) ?_ | dsimp only [sound_mk_eq] | split

theorem execMigration_sound {p : Part} : ∀ a0 s, Sound p s → SoundAnswer p (execMigration a0 s) := by
  intro a0 s h0
  unfold execMigration
  repeat' with_reducible first
    | assumption | rfl | intro _ | apply migration_sound | apply soundAnswer_next

theorem finishCopy_sound {p : Part} : ∀ a0 a1 s, Sound p s → Sound p (finishCopy a0 a1 s) := by
  intro a0 a1 s h0
  unfold finishCopy
  repeat' with_reducible first
    | assumption | rfl | intro _ | apply rawWrite_sound | apply serveWaiters_sound | apply endMigration_sound
    | refine sound_parts ?_ ?_ ?_ | refine sound_of_snd_snd (by assumption) ?_ | refine sound_of_snd (by assumption) ?_
    | dsimp only [sound_mk_eq] | split

theorem migrationComplete_sound {p : Part} : ∀ a0 s, Sound p s → Sound p (migrationComplete a0 s) := by
  intro a0 s h0
  unfold migrationComplete
  repeat' with_reducible first
    | assumption | rfl | intro _ | apply injectRead_sound | apply failMigration_sound | apply clearMet_sound
    | apply finishCopy_sound | refine sound_parts ?_ ?_ ?_ | refine sound_of_snd_snd (by assumption) ?_
    | refine sound_of_snd (by assumption) ?_ | dsimp only [sound_mk_eq] | split

theorem execMigrationComplete_sound {p : Part} : ∀ a0 s, Sound p s → SoundAnswer p (execMigrationComplete a0 s) := by
  intro a0 s h0
  unfold execMigrationComplete
  repeat' with_reducible first
    | assumption | rfl | intro _ | apply migrationComplete_sound | apply soundAnswer_next

theorem execCorrectedError_sound {p : Part} : ∀ a0 s, Sound p s → SoundAnswer p (execCorrectedError a0 s) := by
  intro a0 s h0
  unfold execCorrectedError
  repeat' with_reducible first
    | assumption | rfl | intro _ | apply correctedAt_sound | apply soundAnswer_next | apply soundAnswer_fault
    | refine sound_parts ?_ ?_ ?_ | dsimp only [sound_mk_eq] | split

theorem refetchFrame_sound {p : Part} : ∀ a0 s, Sound p s → Sound p (refetchFrame a0 s) := by
  intro a0 s h0
  unfold refetchFrame
  repeat' with_reducible first
    | assumption | rfl | intro _ | apply report_sound | apply beginMigration_sound | refine sound_parts ?_ ?_ ?_
    | refine sound_of_snd_snd (by assumption) ?_ | refine sound_of_snd (by assumption) ?_ | dsimp only [sound_mk_eq] | split

theorem replicaArrival_sound {p : Part} : ∀ a0 a1 s, Sound p s → Sound p (replicaArrival a0 a1 s) := by
  intro a0 a1 s h0
  unfold replicaArrival
  repeat' with_reducible first
    | assumption | rfl | intro _ | apply failMigration_sound | apply writeFlashUnit_sound | apply homeStore_sound
    | apply finishCopy_sound | apply serveWaiters_sound | apply endMigration_sound | apply report_sound
    | refine sound_parts ?_ ?_ ?_ | refine sound_of_snd_snd (by assumption) ?_ | refine sound_of_snd (by assumption) ?_
    | dsimp only [sound_mk_eq] | split

theorem beginRepair_sound {p : Part} : ∀ a0 a1 a2 s, Sound p s → Sound p (beginRepair a0 a1 a2 s) := by
  intro a0 a1 a2 s h0
  unfold beginRepair
  repeat' with_reducible first
    | assumption | rfl | intro _ | apply beginMigration_sound | apply repairFailed_sound | apply windowRead_sound
    | apply replicaArrival_sound | apply countFrames_sound | refine sound_parts ?_ ?_ ?_
    | refine sound_of_snd_snd (by assumption) ?_ | refine sound_of_snd (by assumption) ?_ | dsimp only [sound_mk_eq] | split

theorem failFlashRead_sound {p : Part} : ∀ a0 s, Sound p s → Sound p (failFlashRead a0 s) := by
  intro a0 s h0
  unfold failFlashRead
  repeat' with_reducible first
    | assumption | rfl | intro _ | apply failMigration_sound | apply foldl_sound | apply foldl_snd_sound
    | refine sound_parts ?_ ?_ ?_ | refine sound_of_snd_snd (by assumption) ?_ | refine sound_of_snd (by assumption) ?_
    | dsimp only [sound_mk_eq] | split

theorem uncorrectableRead_sound {p : Part} : ∀ a0 s, Sound p s → Sound p (uncorrectableRead a0 s) := by
  intro a0 s h0
  unfold uncorrectableRead
  repeat' with_reducible first
    | assumption | rfl | intro _ | apply refetchFrame_sound | apply beginRepair_sound | apply failFlashRead_sound
    | apply poisonAt_sound | refine sound_parts ?_ ?_ ?_ | refine sound_of_snd_snd (by assumption) ?_
    | refine sound_of_snd (by assumption) ?_ | dsimp only [sound_mk_eq] | split

theorem execUncorrectableRead_sound {p : Part} : ∀ a0 s, Sound p s → SoundAnswer p (execUncorrectableRead a0 s) := by
  intro a0 s h0
  unfold execUncorrectableRead
  repeat' with_reducible first
    | assumption | rfl | intro _ | apply uncorrectableRead_sound | apply soundAnswer_next

theorem execReplicaFetchArrival_sound {p : Part} : ∀ a0 a1 s, Sound p s → SoundAnswer p (execReplicaFetchArrival a0 a1 s) := by
  intro a0 a1 s h0
  unfold execReplicaFetchArrival
  repeat' with_reducible first
    | assumption | rfl | intro _ | apply replicaArrival_sound | apply soundAnswer_next

theorem replicaTimeout_sound {p : Part} : ∀ a0 s, Sound p s → Sound p (replicaTimeout a0 s) := by
  intro a0 s h0
  unfold replicaTimeout
  repeat' with_reducible first
    | assumption | rfl | intro _ | apply repairFailed_sound | refine sound_parts ?_ ?_ ?_
    | refine sound_of_snd_snd (by assumption) ?_ | refine sound_of_snd (by assumption) ?_ | dsimp only [sound_mk_eq] | split

theorem execReplicaTimeout_sound {p : Part} : ∀ a0 s, Sound p s → SoundAnswer p (execReplicaTimeout a0 s) := by
  intro a0 s h0
  unfold execReplicaTimeout
  repeat' with_reducible first
    | assumption | rfl | intro _ | apply replicaTimeout_sound | apply soundAnswer_next

theorem tierCtlWrite_sound {p : Part} : ∀ a0 s, Sound p s → Sound p (tierCtlWrite a0 s) := by
  intro a0 s h0
  unfold tierCtlWrite
  repeat' with_reducible first
    | assumption | rfl | intro _ | refine sound_parts ?_ ?_ ?_ | dsimp only [sound_mk_eq] | split

theorem execTierEnable_sound {p : Part} : ∀ a0 s, Sound p s → SoundAnswer p (execTierEnable a0 s) := by
  intro a0 s h0
  unfold execTierEnable
  repeat' with_reducible first
    | assumption | rfl | intro _ | apply tierCtlWrite_sound | apply soundAnswer_next | apply soundAnswer_fault
    | refine sound_parts ?_ ?_ ?_ | dsimp only [sound_mk_eq] | split

theorem updObject_sound {p : Part} : ∀ a0 a1 s, Sound p s → Sound p (updObject a0 a1 s) := by
  intro a0 a1 s h0
  unfold updObject
  repeat' with_reducible first
    | assumption | rfl | intro _ | refine sound_parts ?_ ?_ ?_ | dsimp only [sound_mk_eq]

theorem objPolicyWrite_sound {p : Part} : ∀ a0 a1 s, Sound p s → Sound p (objPolicyWrite a0 a1 s) := by
  intro a0 a1 s h0
  unfold objPolicyWrite
  repeat' with_reducible first
    | assumption | rfl | intro _ | apply updObject_sound | refine sound_parts ?_ ?_ ?_
    | refine sound_of_snd_snd (by assumption) ?_ | refine sound_of_snd (by assumption) ?_ | dsimp only [sound_mk_eq] | split

theorem execObjectValidate_sound {p : Part} : ∀ a0 a1 s, Sound p s → SoundAnswer p (execObjectValidate a0 a1 s) := by
  intro a0 a1 s h0
  unfold execObjectValidate
  repeat' with_reducible first
    | assumption | rfl | intro _ | apply objPolicyWrite_sound | apply soundAnswer_next | apply soundAnswer_fault
    | refine sound_parts ?_ ?_ ?_ | dsimp only [sound_mk_eq] | split

theorem execObjectDrain_sound {p : Part} : ∀ a0 a1 s, Sound p s → SoundAnswer p (execObjectDrain a0 a1 s) := by
  intro a0 a1 s h0
  unfold execObjectDrain
  repeat' with_reducible first
    | assumption | rfl | intro _ | apply objPolicyWrite_sound | apply soundAnswer_next | apply soundAnswer_fault
    | refine sound_parts ?_ ?_ ?_ | dsimp only [sound_mk_eq] | split

theorem zeroServed_sound {p : Part} : ∀ a0 a1 s, Sound p s → Sound p (zeroServed a0 a1 s) := by
  intro a0 a1 s h0
  unfold zeroServed
  repeat' with_reducible first
    | assumption | rfl | intro _ | apply reportModule_sound | apply zeroRange_sound | apply foldl_sound | apply foldl_snd_sound
    | refine sound_parts ?_ ?_ ?_ | refine sound_of_snd_snd (by assumption) ?_ | refine sound_of_snd (by assumption) ?_
    | dsimp only [sound_mk_eq] | split

theorem objectDrainDone_sound {p : Part} : ∀ a0 s, Sound p s → Sound p (objectDrainDone a0 s) := by
  intro a0 s h0
  unfold objectDrainDone
  repeat' with_reducible first
    | assumption | rfl | intro _ | apply zeroServed_sound | apply updObject_sound | apply foldl_sound | apply foldl_snd_sound
    | refine sound_parts ?_ ?_ ?_ | dsimp only [sound_mk_eq] | split

theorem execObjectDrainDone_sound {p : Part} : ∀ a0 s, Sound p s → SoundAnswer p (execObjectDrainDone a0 s) := by
  intro a0 s h0
  unfold execObjectDrainDone
  repeat' with_reducible first
    | assumption | rfl | intro _ | apply objectDrainDone_sound | apply soundAnswer_next

theorem tierStatusRead_sound {p : Part} : ∀ s, Sound p s → Sound p (tierStatusRead s).2 := by
  intro s h0
  unfold tierStatusRead
  repeat' with_reducible first
    | assumption | rfl | intro _ | refine sound_parts ?_ ?_ ?_ | dsimp only [sound_mk_eq]

theorem execTierStatusRead_sound {p : Part} : ∀ s, Sound p s → SoundAnswer p (execTierStatusRead s) := by
  intro s h0
  unfold execTierStatusRead
  repeat' with_reducible first
    | assumption | rfl | intro _ | apply tierStatusRead_sound | apply soundAnswer_next

end Sys2Proof.Machine
end

