-- ==== Sys2Proof/Laws/Sound/RegRead.lean ====
section
/-!
SUPPORT. Laws/Sound/RegRead.lean: what Machine/RegRead.lean does keeps a state sound (Sys2Proof.Sound): memory canonical, the record
queue bounded, the part unchanged.
-/

namespace Sys2Proof.Machine

theorem regRead_sound {p : Part} : ∀ a0 s, Sound p s → Sound p (regRead a0 s).2 := by
  intro a0 s h0
  unfold regRead
  repeat' with_reducible first
    | assumption | rfl | intro _ | apply tierStatusRead_sound | refine sound_parts ?_ ?_ ?_ | dsimp only [sound_mk_eq] | split

end Sys2Proof.Machine
end

