-- ==== Sys2Proof/Laws/Sound/RegWrite.lean ====
section
/-!
SUPPORT. Laws/Sound/RegWrite.lean: what Machine/RegWrite.lean does keeps a state sound (Sys2Proof.Sound): memory canonical, the record
queue bounded, the part unchanged.
-/

namespace Sys2Proof.Machine

theorem acked_sound {p : Part} : ∀ s, Sound p s → Sound p (acked s).2 := by
  intro s h0
  unfold acked
  repeat' with_reducible first
    | assumption

/-- A write that has an effect leaves a sound state. -/
def SoundWrite (p : Part) (o : Option (Bool × State)) : Prop :=
  match o with
  | some r => Sound p r.2
  | none => True

/-- Every write of a list does. -/
def SoundWrites (p : Part) : List (Option (Bool × State)) → Prop
  | [] => True
  | o :: os => SoundWrite p o ∧ SoundWrites p os

theorem soundWrites_nil {p : Part} : SoundWrites p [] := True.intro

theorem soundWrites_cons {p : Part} {o : Option (Bool × State)} {os : List (Option (Bool × State))} (h : SoundWrite p o)
    (hs : SoundWrites p os) : SoundWrites p (o :: os) := ⟨h, hs⟩

theorem firstWrite_sound {p : Part} : ∀ s l, Sound p s → SoundWrites p l → Sound p (firstWrite s l).2 := by
  intro s l h hl
  induction l with
  | nil => exact h
  | cons o os ih =>
    match o with
    | some r => exact hl.1
    | none => exact ih hl.2

theorem wreg_sound {p : Part} {off at_ : Nat} {r : State} (h : Sound p r) : SoundWrite p (wreg off at_ r) := by
  unfold wreg
  split
  · exact h
  · exact True.intro

theorem warr_sound {p : Part} {off base stride n : Nat} {f : Nat → State} (h : ∀ i, Sound p (f i)) :
    SoundWrite p (warr off base stride n f) := by
  unfold warr
  cases arrayIx off base stride n with
  | none => exact True.intro
  | some i => exact h i

theorem ringStateWrite_sound {p : Part} : ∀ a0 a1 s, Sound p s → Sound p (ringStateWrite a0 a1 s) := by
  intro a0 a1 s h0
  unfold ringStateWrite
  repeat' with_reducible first
    | assumption | rfl | intro _ | apply updRing_sound | apply ringEnable_sound | apply ringPause_sound | apply ringResume_sound
    | apply ringReset_sound | refine sound_parts ?_ ?_ ?_ | refine sound_of_snd_snd (by assumption) ?_
    | refine sound_of_snd (by assumption) ?_ | apply soundWrites_cons | apply soundWrites_nil | apply wreg_sound
    | apply warr_sound | dsimp only [sound_mk_eq] | split

theorem ringPageWrite_sound {p : Part} : ∀ a0 a1 a2 s, Sound p s → Sound p (ringPageWrite a0 a1 a2 s).2 := by
  intro a0 a1 a2 s h0
  unfold ringPageWrite
  repeat' with_reducible first
    | assumption | rfl | intro _ | apply acked_sound | apply firstWrite_sound | apply doorbell_sound
    | apply ringStateWrite_sound | apply acknowledge_sound | refine sound_parts ?_ ?_ ?_ | apply soundWrites_cons
    | apply soundWrites_nil | apply wreg_sound | apply warr_sound | dsimp only [sound_mk_eq] | split

theorem ringConfigWrite_sound {p : Part} : ∀ a0 a1 a2 s, Sound p s → Sound p (ringConfigWrite a0 a1 a2 s) := by
  intro a0 a1 a2 s h0
  unfold ringConfigWrite
  repeat' with_reducible first
    | assumption | rfl | intro _ | apply updRing_sound | refine sound_parts ?_ ?_ ?_
    | refine sound_of_snd_snd (by assumption) ?_ | refine sound_of_snd (by assumption) ?_ | apply soundWrites_cons
    | apply soundWrites_nil | apply wreg_sound | apply warr_sound | dsimp only [sound_mk_eq] | split

theorem deckIdleWrite_sound {p : Part} : ∀ a0 a1 s, Sound p s → Sound p (deckIdleWrite a0 a1 s) := by
  intro a0 a1 s h0
  unfold deckIdleWrite
  repeat' with_reducible first
    | assumption | rfl | intro _ | apply updDeck_sound

theorem quarantineCtlWrite_sound {p : Part} : ∀ a0 a1 s, Sound p s → Sound p (quarantineCtlWrite a0 a1 s) := by
  intro a0 a1 s h0
  unfold quarantineCtlWrite
  repeat' with_reducible first
    | assumption | rfl | intro _ | apply quarantine_sound | refine sound_parts ?_ ?_ ?_ | apply soundWrites_cons
    | apply soundWrites_nil | apply wreg_sound | apply warr_sound | dsimp only [sound_mk_eq] | split

theorem tallyWrite_sound {p : Part} : ∀ a0 a1 a2 a3 s, Sound p s → Sound p (tallyWrite a0 a1 a2 a3 s).2 := by
  intro a0 a1 a2 a3 s h0
  unfold tallyWrite
  repeat' with_reducible first
    | assumption | rfl | intro _ | apply acked_sound | apply ringConfigWrite_sound | apply opcacheInvalWrite_sound
    | apply firstWrite_sound | apply deckCtlWrite_sound | apply deckIdleWrite_sound | apply requestGroveReset_sound
    | apply quarantineCtlWrite_sound | refine sound_parts ?_ ?_ ?_ | apply soundWrites_cons | apply soundWrites_nil
    | apply wreg_sound | apply warr_sound | dsimp only [sound_mk_eq] | split

theorem scalerWrite_sound {p : Part} : ∀ a0 a1 s, Sound p s → Sound p (scalerWrite a0 a1 s) := by
  intro a0 a1 s h0
  unfold scalerWrite
  repeat' with_reducible first
    | assumption | rfl | intro _ | apply scalerDoneWrite_sound | apply scCfgWrite_sound | apply scPeriodWrite_sound
    | apply scStartWrite_sound | apply scStopWrite_sound | apply scCtlWrite_sound | refine sound_parts ?_ ?_ ?_
    | refine sound_of_snd_snd (by assumption) ?_ | refine sound_of_snd (by assumption) ?_ | apply soundWrites_cons
    | apply soundWrites_nil | apply wreg_sound | apply warr_sound | dsimp only [sound_mk_eq] | split

theorem injWrite_sound {p : Part} : ∀ a0 a1 a2 s, Sound p s → Sound p (injWrite a0 a1 a2 s) := by
  intro a0 a1 a2 s h0
  unfold injWrite
  repeat' with_reducible first
    | assumption | rfl | intro _ | apply injStartWrite_sound | apply injPointWrite_sound | apply injLocatorWrite_sound
    | apply injCtlWrite_sound | refine sound_parts ?_ ?_ ?_ | refine sound_of_snd_snd (by assumption) ?_
    | refine sound_of_snd (by assumption) ?_ | apply soundWrites_cons | apply soundWrites_nil | apply wreg_sound
    | apply warr_sound | dsimp only [sound_mk_eq] | split

theorem errWrite_sound {p : Part} : ∀ a0 a1 a2 s, Sound p s → Sound p (errWrite a0 a1 a2 s).2 := by
  intro a0 a1 a2 s h0
  unfold errWrite
  repeat' with_reducible first
    | assumption | rfl | intro _ | apply acked_sound | apply injWrite_sound | apply firstWrite_sound | apply errReadWrite_sound
    | apply errAck_sound | apply errCtlWrite_sound | apply diagLocatorWrite_sound | apply diagCtlWrite_sound
    | refine sound_parts ?_ ?_ ?_ | apply soundWrites_cons | apply soundWrites_nil | apply wreg_sound | apply warr_sound
    | dsimp only [sound_mk_eq] | split

theorem tuFbCtlWrite_sound {p : Part} : ∀ a0 s, Sound p s → Sound p (tuFbCtlWrite a0 s) := by
  intro a0 s h0
  unfold tuFbCtlWrite
  repeat' with_reducible first
    | assumption | rfl | intro _ | apply closeBatch_sound | refine sound_parts ?_ ?_ ?_ | apply soundWrites_cons
    | apply soundWrites_nil | apply wreg_sound | apply warr_sound | dsimp only [sound_mk_eq] | split

theorem hartContextWrite_sound {p : Part} : ∀ a0 a1 s, Sound p s → Sound p (hartContextWrite a0 a1 s) := by
  intro a0 a1 s h0
  unfold hartContextWrite
  repeat' with_reducible first
    | assumption | rfl | intro _ | refine sound_parts ?_ ?_ ?_ | apply soundWrites_cons | apply soundWrites_nil
    | apply wreg_sound | apply warr_sound | dsimp only [sound_mk_eq] | split

theorem tuWrite_sound {p : Part} : ∀ a0 a1 a2 s, Sound p s → Sound p (tuWrite a0 a1 a2 s).2 := by
  intro a0 a1 a2 s h0
  unfold tuWrite
  repeat' with_reducible first
    | assumption | rfl | intro _ | apply tuInvalWrite_sound | apply firstWrite_sound | apply tuCtxBaseWrite_sound
    | apply tuFbBaseWrite_sound | apply tuFbCtlWrite_sound | apply tuFbDoneWrite_sound | apply stakeCmdWrite_sound
    | apply hartContextWrite_sound | refine sound_parts ?_ ?_ ?_ | apply soundWrites_cons | apply soundWrites_nil
    | apply wreg_sound | apply warr_sound | dsimp only [sound_mk_eq] | split

theorem poolWrite_sound {p : Part} : ∀ a0 a1 s, Sound p s → Sound p (poolWrite a0 a1 s) := by
  intro a0 a1 s h0
  unfold poolWrite
  repeat' with_reducible first
    | assumption | rfl | intro _ | refine sound_parts ?_ ?_ ?_ | apply soundWrites_cons | apply soundWrites_nil
    | apply wreg_sound | apply warr_sound | dsimp only [sound_mk_eq] | split

theorem objIdleWrite_sound {p : Part} : ∀ a0 a1 s, Sound p s → Sound p (objIdleWrite a0 a1 s) := by
  intro a0 a1 s h0
  unfold objIdleWrite
  repeat' with_reducible first
    | assumption | rfl | intro _ | apply updObject_sound

theorem objWrite_sound {p : Part} : ∀ a0 a1 a2 s, Sound p s → Sound p (objWrite a0 a1 a2 s) := by
  intro a0 a1 a2 s h0
  unfold objWrite
  repeat' with_reducible first
    | assumption | rfl | intro _ | apply objIdleWrite_sound | apply objPolicyWrite_sound | refine sound_parts ?_ ?_ ?_
    | refine sound_of_snd_snd (by assumption) ?_ | refine sound_of_snd (by assumption) ?_ | apply soundWrites_cons
    | apply soundWrites_nil | apply wreg_sound | apply warr_sound | dsimp only [sound_mk_eq] | split

theorem tierWrite_sound {p : Part} : ∀ a0 a1 s, Sound p s → Sound p (tierWrite a0 a1 s).2 := by
  intro a0 a1 s h0
  unfold tierWrite
  repeat' with_reducible first
    | assumption | rfl | intro _ | apply acked_sound | apply objWrite_sound | apply firstWrite_sound | apply tierCtlWrite_sound
    | apply poolWrite_sound | refine sound_parts ?_ ?_ ?_ | apply soundWrites_cons | apply soundWrites_nil | apply wreg_sound
    | apply warr_sound | dsimp only [sound_mk_eq] | split

theorem fabricCtlWrite_sound {p : Part} : ∀ a0 s, Sound p s → Sound p (fabricCtlWrite a0 s) := by
  intro a0 s h0
  unfold fabricCtlWrite
  repeat' with_reducible first
    | assumption | rfl | intro _ | apply updFabric_sound | refine sound_parts ?_ ?_ ?_ | apply soundWrites_cons
    | apply soundWrites_nil | apply wreg_sound | apply warr_sound | dsimp only [sound_mk_eq] | split

theorem slotTableCtlWrite_sound {p : Part} : ∀ a0 s, Sound p s → Sound p (slotTableCtlWrite a0 s) := by
  intro a0 s h0
  unfold slotTableCtlWrite
  repeat' with_reducible first
    | assumption | rfl | intro _ | apply slotTableLoad_sound | apply slotTableArm_sound | apply slotTableCancel_sound
    | refine sound_parts ?_ ?_ ?_ | apply soundWrites_cons | apply soundWrites_nil | apply wreg_sound | apply warr_sound
    | dsimp only [sound_mk_eq] | split

theorem windowIdleWrite_sound {p : Part} : ∀ a0 a1 s, Sound p s → Sound p (windowIdleWrite a0 a1 s) := by
  intro a0 a1 s h0
  unfold windowIdleWrite
  repeat' with_reducible first
    | assumption | rfl | intro _ | apply updWindow_sound

theorem windowRegWrite_sound {p : Part} : ∀ a0 a1 a2 s, Sound p s → Sound p (windowRegWrite a0 a1 a2 s) := by
  intro a0 a1 a2 s h0
  unfold windowRegWrite
  repeat' with_reducible first
    | assumption | rfl | intro _ | apply windowIdleWrite_sound | apply windowCtlWrite_sound | refine sound_parts ?_ ?_ ?_
    | refine sound_of_snd_snd (by assumption) ?_ | refine sound_of_snd (by assumption) ?_ | apply soundWrites_cons
    | apply soundWrites_nil | apply wreg_sound | apply warr_sound | dsimp only [sound_mk_eq] | split

theorem unitTargetWrite_sound {p : Part} : ∀ a0 a1 a2 s, Sound p s → Sound p (unitTargetWrite a0 a1 a2 s) := by
  intro a0 a1 a2 s h0
  unfold unitTargetWrite
  repeat' with_reducible first
    | assumption | rfl | intro _ | apply updFabric_sound

theorem outWindowWrite_sound {p : Part} : ∀ a0 a1 s, Sound p s → Sound p (outWindowWrite a0 a1 s) := by
  intro a0 a1 s h0
  unfold outWindowWrite
  repeat' with_reducible first
    | assumption | rfl | intro _ | apply updFabric_sound

theorem genpexWrite_sound {p : Part} : ∀ a0 a1 s, Sound p s → Sound p (genpexWrite a0 a1 s).2 := by
  intro a0 a1 s h0
  unfold genpexWrite
  repeat' with_reducible first
    | assumption | rfl | intro _ | apply acked_sound | apply unitTargetWrite_sound | apply windowRegWrite_sound
    | apply firstWrite_sound | apply fabricCtlWrite_sound | apply updFabric_sound | apply slotTableCtlWrite_sound
    | apply outWindowWrite_sound | refine sound_parts ?_ ?_ ?_ | apply soundWrites_cons | apply soundWrites_nil
    | apply wreg_sound | apply warr_sound | dsimp only [sound_mk_eq] | split

theorem moduleReset_sound {p : Part} : ∀ a0 a1 s, Sound p s → Sound p (moduleReset a0 a1 s) := by
  intro a0 a1 s h0
  unfold moduleReset
  repeat' with_reducible first
    | assumption | rfl | intro _ | apply updMgmt_sound | apply beginWarmReset_sound | refine sound_parts ?_ ?_ ?_
    | refine sound_of_snd_snd (by assumption) ?_ | refine sound_of_snd (by assumption) ?_ | apply soundWrites_cons
    | apply soundWrites_nil | apply wreg_sound | apply warr_sound | dsimp only [sound_mk_eq] | split

theorem mailboxPost_sound {p : Part} : ∀ s, Sound p s → Sound p (mailboxPost s) := by
  intro s h0
  unfold mailboxPost
  repeat' with_reducible first
    | assumption | rfl | intro _ | apply moduleReset_sound | apply mgmtBusy_sound | apply mgmtSend_sound
    | apply queueRequest_sound | refine sound_parts ?_ ?_ ?_ | refine sound_of_snd_snd (by assumption) ?_
    | refine sound_of_snd (by assumption) ?_ | apply soundWrites_cons | apply soundWrites_nil | apply wreg_sound
    | apply warr_sound | dsimp only [sound_mk_eq] | split

theorem mboxCtlWrite_sound {p : Part} : ∀ a0 s, Sound p s → Sound p (mboxCtlWrite a0 s) := by
  intro a0 s h0
  unfold mboxCtlWrite
  repeat' with_reducible first
    | assumption | rfl | intro _ | apply updMgmt_sound | apply mailboxPost_sound | refine sound_parts ?_ ?_ ?_
    | apply soundWrites_cons | apply soundWrites_nil | apply wreg_sound | apply warr_sound | dsimp only [sound_mk_eq] | split

theorem mgmtWrite_sound {p : Part} : ∀ a0 a1 s, Sound p s → Sound p (mgmtWrite a0 a1 s) := by
  intro a0 a1 s h0
  unfold mgmtWrite
  repeat' with_reducible first
    | assumption | rfl | intro _ | apply mboxCtlWrite_sound | apply updMgmt_sound | refine sound_parts ?_ ?_ ?_
    | apply soundWrites_cons | apply soundWrites_nil | apply wreg_sound | apply warr_sound | dsimp only [sound_mk_eq] | split

theorem pcieCtlWrite_sound {p : Part} : ∀ a0 a1 s, Sound p s → Sound p (pcieCtlWrite a0 a1 s) := by
  intro a0 a1 s h0
  unfold pcieCtlWrite
  repeat' with_reducible first
    | assumption | rfl | intro _ | refine sound_parts ?_ ?_ ?_ | apply soundWrites_cons | apply soundWrites_nil
    | apply wreg_sound | apply warr_sound | dsimp only [sound_mk_eq]

theorem wblock_sound {p : Part} {off base size : Nat} {f : Nat → Bool × State} (h : ∀ o, Sound p (f o).2) :
    SoundWrite p (wblock off base size f) := by
  unfold wblock
  split
  · exact h _
  · exact True.intro

theorem regWrite_sound {p : Part} : ∀ w off v s, Sound p s → Sound p (regWrite w off v s).2 := by
  intro w off v s h
  unfold regWrite
  refine firstWrite_sound _ _ h ?_
  refine soundWrites_cons (wblock_sound fun _ => ringPageWrite_sound _ _ _ _ h) ?_
  refine soundWrites_cons (wblock_sound fun _ => tallyWrite_sound _ _ _ _ _ h) ?_
  refine soundWrites_cons (wblock_sound fun _ => acked_sound _ ?_) ?_
  · split
    · exact boomCtlWrite_sound _ _ h
    · exact h
  refine soundWrites_cons (wblock_sound fun _ => acked_sound _ (scalerWrite_sound _ _ _ h)) ?_
  refine soundWrites_cons (wblock_sound fun _ => errWrite_sound _ _ _ _ h) ?_
  refine soundWrites_cons (wblock_sound fun _ => tuWrite_sound _ _ _ _ h) ?_
  refine soundWrites_cons (wblock_sound fun _ => tierWrite_sound _ _ _ h) ?_
  refine soundWrites_cons (wblock_sound fun _ => genpexWrite_sound _ _ _ h) ?_
  refine soundWrites_cons (wblock_sound fun _ => acked_sound _ (mgmtWrite_sound _ _ _ h)) ?_
  refine soundWrites_cons (wblock_sound fun _ => acked_sound _ ?_) soundWrites_nil
  split
  · exact pcieCtlWrite_sound _ _ _ h
  · exact h

theorem registerWrite_sound {p : Part} : ∀ a0 a1 s, Sound p s → Sound p (registerWrite a0 a1 s) := by
  intro a0 a1 s h0
  unfold registerWrite
  repeat' with_reducible first
    | assumption | rfl | intro _ | apply forwardAccess_sound | apply regWrite_sound | refine sound_parts ?_ ?_ ?_
    | refine sound_of_snd_snd (by assumption) ?_ | refine sound_of_snd (by assumption) ?_ | apply soundWrites_cons
    | apply soundWrites_nil | apply wreg_sound | apply warr_sound | dsimp only [sound_mk_eq] | split

theorem execRegisterWrite_sound {p : Part} : ∀ a0 a1 s, Sound p s → SoundAnswer p (execRegisterWrite a0 a1 s) := by
  intro a0 a1 s h0
  unfold execRegisterWrite
  repeat' with_reducible first
    | assumption | rfl | intro _ | apply registerWrite_sound | apply soundAnswer_next | apply soundAnswer_fault
    | refine sound_parts ?_ ?_ ?_ | apply soundWrites_cons | apply soundWrites_nil | apply wreg_sound | apply warr_sound
    | dsimp only [sound_mk_eq] | split

theorem execMailboxGo_sound {p : Part} : ∀ a0 s, Sound p s → SoundAnswer p (execMailboxGo a0 s) := by
  intro a0 s h0
  unfold execMailboxGo
  repeat' with_reducible first
    | assumption | rfl | intro _ | apply mboxCtlWrite_sound | apply soundAnswer_next | apply soundAnswer_fault
    | refine sound_parts ?_ ?_ ?_ | apply soundWrites_cons | apply soundWrites_nil | apply wreg_sound | apply warr_sound
    | dsimp only [sound_mk_eq] | split

end Sys2Proof.Machine
end

