-- ==== Sys2Proof/Laws/Sound/Interrupts.lean ====
section
/-!
SUPPORT. Laws/Sound/Interrupts.lean: what Machine/Interrupts.lean does keeps a state sound (Sys2Proof.Sound): memory canonical, the record
queue bounded, the part unchanged.
-/

namespace Sys2Proof.Machine

theorem updLanding_sound {p : Part} : ∀ a0 s, Sound p s → Sound p (updLanding a0 s) := by
  intro a0 s h0
  unfold updLanding
  repeat' with_reducible first
    | assumption | rfl | intro _ | refine sound_parts ?_ ?_ ?_ | dsimp only [sound_mk_eq]

theorem execImsicMsi_sound {p : Part} : ∀ a0 a1 s, Sound p s → SoundAnswer p (execImsicMsi a0 a1 s) := by
  intro a0 a1 s h0
  unfold execImsicMsi
  repeat' with_reducible first
    | assumption | rfl | intro _ | apply updLanding_sound | apply soundAnswer_next | apply soundAnswer_fault
    | refine sound_parts ?_ ?_ ?_ | dsimp only [sound_mk_eq] | split

theorem clearSource_sound {p : Part} : ∀ a0 s, Sound p s → Sound p (clearSource a0 s) := by
  intro a0 s h0
  unfold clearSource
  repeat' with_reducible first
    | assumption | rfl | intro _ | apply updLanding_sound | refine sound_parts ?_ ?_ ?_
    | refine sound_of_snd_snd (by assumption) ?_ | refine sound_of_snd (by assumption) ?_ | dsimp only [sound_mk_eq] | split

theorem updDomain_sound {p : Part} : ∀ a0 a1 s, Sound p s → Sound p (updDomain a0 a1 s) := by
  intro a0 a1 s h0
  unfold updDomain
  repeat' with_reducible first
    | assumption | rfl | intro _ | apply updLanding_sound

theorem deliverSource_sound {p : Part} : ∀ a0 s a2, Sound p s → Sound p (deliverSource a0 s a2) := by
  intro a0 s a2 h0
  unfold deliverSource
  repeat' with_reducible first
    | assumption | rfl | intro _ | apply updLanding_sound | apply clearSource_sound | apply updDomain_sound
    | refine sound_parts ?_ ?_ ?_ | dsimp only [sound_mk_eq] | split

theorem deliverDomain_sound {p : Part} : ∀ a0 s, Sound p s → Sound p (deliverDomain a0 s) := by
  intro a0 s h0
  unfold deliverDomain
  repeat' with_reducible first
    | assumption | rfl | intro _ | apply deliverSource_sound | apply foldl_sound

theorem aplicSourceChange_sound {p : Part} : ∀ a0 s, Sound p s → Sound p (aplicSourceChange a0 s) := by
  intro a0 s h0
  unfold aplicSourceChange
  repeat' with_reducible first
    | assumption | rfl | intro _ | apply deliverDomain_sound | apply updDomain_sound | apply updLanding_sound
    | refine sound_parts ?_ ?_ ?_ | dsimp only [sound_mk_eq] | split

theorem execAplicSourceChange_sound {p : Part} : ∀ a0 s, Sound p s → SoundAnswer p (execAplicSourceChange a0 s) := by
  intro a0 s h0
  unfold execAplicSourceChange
  repeat' with_reducible first
    | assumption | rfl | intro _ | apply aplicSourceChange_sound | apply soundAnswer_next

theorem aplicRead_sound {p : Part} : ∀ a0 a1 s, Sound p s → Sound p (aplicRead a0 a1 s).2 := by
  intro a0 a1 s h0
  unfold aplicRead
  repeat' with_reducible first
    | assumption | rfl | intro _ | apply drawFree_sound | refine sound_parts ?_ ?_ ?_
    | refine sound_of_snd_snd (by assumption) ?_ | refine sound_of_snd (by assumption) ?_ | dsimp only [sound_mk_eq] | split

theorem sourceCfgWrite_sound {p : Part} : ∀ a0 a1 a2 s, Sound p s → Sound p (sourceCfgWrite a0 a1 a2 s) := by
  intro a0 a1 a2 s h0
  unfold sourceCfgWrite
  repeat' with_reducible first
    | assumption | rfl | intro _ | apply updDomain_sound | refine sound_parts ?_ ?_ ?_ | dsimp only [sound_mk_eq] | split

theorem setPending_sound {p : Part} : ∀ a0 s a2, Sound p s → Sound p (setPending a0 s a2) := by
  intro a0 s a2 h0
  unfold setPending
  repeat' with_reducible first
    | assumption | rfl | intro _ | apply updDomain_sound | refine sound_parts ?_ ?_ ?_ | dsimp only [sound_mk_eq] | split

theorem clearPending_sound {p : Part} : ∀ a0 s a2, Sound p s → Sound p (clearPending a0 s a2) := by
  intro a0 s a2 h0
  unfold clearPending
  repeat' with_reducible first
    | assumption | rfl | intro _ | apply clearSource_sound | apply updDomain_sound | refine sound_parts ?_ ?_ ?_
    | dsimp only [sound_mk_eq] | split

theorem setEnable_sound {p : Part} : ∀ a0 a1 s a3, Sound p s → Sound p (setEnable a0 a1 s a3) := by
  intro a0 a1 s a3 h0
  unfold setEnable
  repeat' with_reducible first
    | assumption | rfl | intro _ | apply updDomain_sound | refine sound_parts ?_ ?_ ?_ | dsimp only [sound_mk_eq] | split

theorem aplicWrite_sound {p : Part} : ∀ a0 a1 a2 s, Sound p s → Sound p (aplicWrite a0 a1 a2 s) := by
  intro a0 a1 a2 s h0
  unfold aplicWrite
  repeat' with_reducible first
    | assumption | rfl | intro _ | apply sourceCfgWrite_sound | apply updDomain_sound | apply setPending_sound
    | apply clearPending_sound | apply setEnable_sound | apply updLanding_sound | apply deliverDomain_sound | apply foldl_sound
    | apply foldl_snd_sound | refine sound_parts ?_ ?_ ?_ | refine sound_of_snd_snd (by assumption) ?_
    | refine sound_of_snd (by assumption) ?_ | dsimp only [sound_mk_eq] | split

theorem fourByteRead_sound {p : Part} : ∀ a0 s, Sound p s → Sound p (fourByteRead a0 s).2 := by
  intro a0 s h0
  unfold fourByteRead
  repeat' with_reducible first
    | assumption | rfl | intro _ | apply aplicRead_sound | refine sound_parts ?_ ?_ ?_ | dsimp only [sound_mk_eq] | split

theorem fourByteWrite_sound {p : Part} : ∀ a0 a1 s, Sound p s → Sound p (fourByteWrite a0 a1 s) := by
  intro a0 a1 s h0
  unfold fourByteWrite
  repeat' with_reducible first
    | assumption | rfl | intro _ | apply aplicWrite_sound | apply updLanding_sound | refine sound_parts ?_ ?_ ?_
    | dsimp only [sound_mk_eq] | split

theorem updPcie_sound {p : Part} : ∀ a0 a1 s, Sound p s → Sound p (updPcie a0 a1 s) := by
  intro a0 a1 s h0
  unfold updPcie
  repeat' with_reducible first
    | assumption | rfl | intro _ | apply updLanding_sound

theorem pcieRefuse_sound {p : Part} : ∀ a0 a1 a2 s, Sound p s → Sound p (pcieRefuse a0 a1 a2 s) := by
  intro a0 a1 a2 s h0
  unfold pcieRefuse
  repeat' with_reducible first
    | assumption | rfl | intro _ | apply report_sound | apply updPcie_sound

theorem pciePoison_sound {p : Part} : ∀ a0 a1 a2 s, Sound p s → Sound p (pciePoison a0 a1 a2 s) := by
  intro a0 a1 a2 s h0
  unfold pciePoison
  repeat' with_reducible first
    | assumption | rfl | intro _ | apply report_sound | apply updPcie_sound

theorem pcieMemory_sound {p : Part} : ∀ a0 a1 s, Sound p s → Sound p (pcieMemory a0 a1 s) := by
  intro a0 a1 s h0
  unfold pcieMemory
  repeat' with_reducible first
    | assumption | rfl | intro _ | apply pcieRefuse_sound | apply physWrite_sound | apply pciePoison_sound | apply updPcie_sound
    | apply physRead_sound | refine sound_parts ?_ ?_ ?_ | refine sound_of_snd_snd (by assumption) ?_
    | refine sound_of_snd (by assumption) ?_ | dsimp only [sound_mk_eq] | split

theorem aerError_sound {p : Part} : ∀ a0 a1 s, Sound p s → Sound p (aerError a0 a1 s) := by
  intro a0 a1 s h0
  unfold aerError
  repeat' with_reducible first
    | assumption | rfl | intro _ | apply report_sound | apply updPcie_sound

theorem pcieRequest_sound {p : Part} : ∀ a0 a1 s, Sound p s → Sound p (pcieRequest a0 a1 s) := by
  intro a0 a1 s h0
  unfold pcieRequest
  repeat' with_reducible first
    | assumption | rfl | intro _ | apply aerError_sound | apply updLanding_sound | apply pcieRefuse_sound
    | apply pcieMemory_sound | refine sound_parts ?_ ?_ ?_ | refine sound_of_snd_snd (by assumption) ?_
    | refine sound_of_snd (by assumption) ?_ | dsimp only [sound_mk_eq] | split

theorem execPcieInbound_sound {p : Part} : ∀ a0 a1 s, Sound p s → SoundAnswer p (execPcieInbound a0 a1 s) := by
  intro a0 a1 s h0
  unfold execPcieInbound
  repeat' with_reducible first
    | assumption | rfl | intro _ | apply fireInjection_sound | apply pcieRequest_sound | apply aerError_sound
    | apply soundAnswer_next | apply soundAnswer_fault | refine sound_parts ?_ ?_ ?_ | dsimp only [sound_mk_eq] | split

theorem execPcieLinkChange_sound {p : Part} : ∀ a0 a1 a2 a3 s, Sound p s → SoundAnswer p (execPcieLinkChange a0 a1 a2 a3 s) := by
  intro a0 a1 a2 a3 s h0
  unfold execPcieLinkChange
  repeat' with_reducible first
    | assumption | rfl | intro _ | apply updPcie_sound | apply reportModule_sound | apply aerError_sound
    | apply soundAnswer_next | apply soundAnswer_fault | refine sound_parts ?_ ?_ ?_ | dsimp only [sound_mk_eq] | split

end Sys2Proof.Machine
end

