-- ==== Sys2Proof/Laws/Sound/Harts.lean ====
section
/-!
SUPPORT. Laws/Sound/Harts.lean: what Machine/Harts.lean does keeps a state sound (Sys2Proof.Sound): memory canonical, the record
queue bounded, the part unchanged.
-/

namespace Sys2Proof.Machine

theorem beginAccess_sound {p : Part} : ∀ a0 a1 a2 s, Sound p s → Sound p (beginAccess a0 a1 a2 s) := by
  intro a0 a1 a2 s h0
  unfold beginAccess
  repeat' with_reducible first
    | assumption | rfl | intro _ | apply updHart_sound

theorem sendRemote_sound {p : Part} : ∀ a0 a1 s, Sound p s → Sound p (sendRemote a0 a1 s) := by
  intro a0 a1 s h0
  unfold sendRemote
  repeat' with_reducible first
    | assumption | rfl | intro _ | apply updHart_sound | apply countFrames_sound | apply updFabric_sound

theorem outAccess_sound {p : Part} : ∀ a0 a1 a2 a3 a4 a5 s,
    (∀ t, Sound p t → Sound p (a5 t).2) → Sound p s → Sound p (outAccess a0 a1 a2 a3 a4 a5 s) := by
  intro a0 a1 a2 a3 a4 a5 s h0 h1
  unfold outAccess
  repeat' with_reducible first
    | assumption | rfl | intro _ | apply h0 | apply failRemote_sound | apply updHart_sound | apply sendRemote_sound
    | refine sound_parts ?_ ?_ ?_ | refine sound_of_snd_snd (by assumption) ?_ | refine sound_of_snd (by assumption) ?_
    | dsimp only [sound_mk_eq] | split

theorem windowLoadHere_sound {p : Part} : ∀ a0 a1 s, Sound p s → Sound p (windowLoadHere a0 a1 s).2 := by
  intro a0 a1 s h0
  unfold windowLoadHere
  repeat' with_reducible first
    | assumption | rfl | intro _ | apply windowRead_sound | refine sound_parts ?_ ?_ ?_
    | refine sound_of_snd_snd (by assumption) ?_ | refine sound_of_snd (by assumption) ?_ | dsimp only [sound_mk_eq] | split

theorem windowAtomicHere_sound {p : Part} : ∀ a0 a1 a2 a3 s, Sound p s → Sound p (windowAtomicHere a0 a1 a2 a3 s).2 := by
  intro a0 a1 a2 a3 s h0
  unfold windowAtomicHere
  repeat' with_reducible first
    | assumption | rfl | intro _ | apply windowAtomic_sound | refine sound_parts ?_ ?_ ?_
    | refine sound_of_snd_snd (by assumption) ?_ | refine sound_of_snd (by assumption) ?_ | dsimp only [sound_mk_eq] | split

theorem outStore_sound {p : Part} : ∀ a0 a1 a2 a3 a4 s, Sound p s → Sound p (outStore a0 a1 a2 a3 a4 s) := by
  intro a0 a1 a2 a3 a4 s h0
  unfold outStore
  repeat' with_reducible first
    | assumption | rfl | intro _ | apply failRemote_sound | apply updTransfer_sound | apply updFabric_sound
    | refine sound_parts ?_ ?_ ?_ | refine sound_of_snd_snd (by assumption) ?_ | refine sound_of_snd (by assumption) ?_
    | dsimp only [sound_mk_eq] | split

theorem readEntry_sound {p : Part} : ∀ a0 a1 s, Sound p s → Sound p (readEntry a0 a1 s).2 := by
  intro a0 a1 s h0
  unfold readEntry
  repeat' with_reducible first
    | assumption | rfl | intro _ | apply physRead_sound | refine sound_parts ?_ ?_ ?_
    | refine sound_of_snd_snd (by assumption) ?_ | refine sound_of_snd (by assumption) ?_ | dsimp only [sound_mk_eq] | split

theorem hartWalk_sound {p : Part} : ∀ a0 a1 a2 a3 a4 a5 s,
    (∀ x0 t, Sound p t → Sound p (a0 x0 t).2) → Sound p s → Sound p (hartWalk a0 a1 a2 a3 a4 a5 s).2 := by
  intro a0 a1 a2 a3 a4 a5 s h0 h1
  fun_induction hartWalk a0 a1 a2 a3 a4 a5 s
  all_goals repeat' with_reducible first
    | assumption | rfl | intro _ | apply h0 | refine sound_parts ?_ ?_ ?_ | refine sound_of_snd_snd (by assumption) ?_
    | refine sound_of_snd (by assumption) ?_ | apply_assumption -exfalso -symm

theorem guestPage_sound {p : Part} : ∀ a0 a1 a2 a3 s, Sound p s → Sound p (guestPage a0 a1 a2 a3 s).2 := by
  intro a0 a1 a2 a3 s h0
  unfold guestPage
  repeat' with_reducible first
    | assumption | rfl | intro _ | apply hartWalk_sound | apply readEntry_sound | refine sound_parts ?_ ?_ ?_
    | refine sound_of_snd_snd (by assumption) ?_ | refine sound_of_snd (by assumption) ?_ | dsimp only [sound_mk_eq] | split

theorem readGuestEntry_sound {p : Part} : ∀ a0 a1 a2 s, Sound p s → Sound p (readGuestEntry a0 a1 a2 s).2 := by
  intro a0 a1 a2 s h0
  unfold readGuestEntry
  repeat' with_reducible first
    | assumption | rfl | intro _ | apply guestPage_sound | apply readEntry_sound | refine sound_parts ?_ ?_ ?_
    | refine sound_of_snd_snd (by assumption) ?_ | refine sound_of_snd (by assumption) ?_ | dsimp only [sound_mk_eq] | split

theorem secondStage_sound {p : Part} : ∀ a0 a1 a2 a3 a4 s, Sound p s → Sound p (secondStage a0 a1 a2 a3 a4 s).2 := by
  intro a0 a1 a2 a3 a4 s h0
  unfold secondStage
  repeat' with_reducible first
    | assumption | rfl | intro _ | apply guestPage_sound | refine sound_parts ?_ ?_ ?_
    | refine sound_of_snd_snd (by assumption) ?_ | refine sound_of_snd (by assumption) ?_ | dsimp only [sound_mk_eq] | split

theorem hartPage_sound {p : Part} : ∀ a0 a1 a2 a3 a4 s, Sound p s → Sound p (hartPage a0 a1 a2 a3 a4 s).2 := by
  intro a0 a1 a2 a3 a4 s h0
  unfold hartPage
  repeat' with_reducible first
    | assumption | rfl | intro _ | apply secondStage_sound | apply readGuestEntry_sound | apply readEntry_sound
    | apply hartWalk_sound | refine sound_parts ?_ ?_ ?_ | refine sound_of_snd_snd (by assumption) ?_
    | refine sound_of_snd (by assumption) ?_ | dsimp only [sound_mk_eq] | split

theorem hartPages_sound {p : Part} : ∀ a0 a1 a2 a3 a4 s, Sound p s → Sound p (hartPages a0 a1 a2 a3 a4 s).2 := by
  intro a0 a1 a2 a3 a4 s h0
  fun_induction hartPages a0 a1 a2 a3 a4 s
  all_goals repeat' with_reducible first
    | assumption | rfl | intro _ | apply hartPage_sound | refine sound_parts ?_ ?_ ?_
    | refine sound_of_snd_snd (by assumption) ?_ | refine sound_of_snd (by assumption) ?_ | apply_assumption -exfalso -symm

theorem hartMap_sound {p : Part} : ∀ a0 a1 a2 a3 a4 a5 s, Sound p s → Sound p (hartMap a0 a1 a2 a3 a4 a5 s).2 := by
  intro a0 a1 a2 a3 a4 a5 s h0
  unfold hartMap
  repeat' with_reducible first
    | assumption | rfl | intro _ | apply hartPages_sound | refine sound_parts ?_ ?_ ?_ | dsimp only [sound_mk_eq] | split

theorem hartTrap_sound {p : Part} : ∀ a0 a1 a2 a3 s, Sound p s → Sound p (hartTrap a0 a1 a2 a3 s) := by
  intro a0 a1 a2 a3 s h0
  unfold hartTrap
  repeat' with_reducible first
    | assumption | rfl | intro _ | apply updHart_sound | apply sendAllCombined_sound

theorem hartAt_sound {p : Part} : ∀ a0 a1 a2 a3 a4 a5 a6 s,
    (∀ x0 x1 t, Sound p t → Sound p (a6 x0 x1 t)) → Sound p s → Sound p (hartAt a0 a1 a2 a3 a4 a5 a6 s) := by
  intro a0 a1 a2 a3 a4 a5 a6 s h0 h1
  unfold hartAt
  repeat' with_reducible first
    | assumption | rfl | intro _ | apply h0 | apply hartMap_sound | apply hartTrap_sound | apply hartBarred_sound
    | apply hartRefused_sound | refine sound_parts ?_ ?_ ?_ | refine sound_of_snd_snd (by assumption) ?_
    | refine sound_of_snd (by assumption) ?_ | dsimp only [sound_mk_eq] | split

theorem hartRegLoadAt_sound {p : Part} : ∀ a0 a1 s, Sound p s → Sound p (hartRegLoadAt a0 a1 s) := by
  intro a0 a1 s h0
  unfold hartRegLoadAt
  repeat' with_reducible first
    | assumption | rfl | intro _ | apply siteWindowAccess_sound | apply regRead_sound | apply updHart_sound
    | refine sound_parts ?_ ?_ ?_ | refine sound_of_snd_snd (by assumption) ?_ | refine sound_of_snd (by assumption) ?_
    | dsimp only [sound_mk_eq] | split

theorem hartRegLoad_sound {p : Part} : ∀ a0 a1 s, Sound p s → Sound p (hartRegLoad a0 a1 s) := by
  intro a0 a1 s h0
  unfold hartRegLoad
  repeat' with_reducible first
    | assumption | rfl | intro _ | apply hartRegLoadAt_sound

theorem pcieLoad_sound {p : Part} : ∀ a0 a1 a2 s, Sound p s → Sound p (pcieLoad a0 a1 a2 s) := by
  intro a0 a1 a2 s h0
  unfold pcieLoad
  repeat' with_reducible first
    | assumption | rfl | intro _ | apply updHart_sound | apply drawFree_sound | refine sound_parts ?_ ?_ ?_
    | refine sound_of_snd_snd (by assumption) ?_ | refine sound_of_snd (by assumption) ?_ | dsimp only [sound_mk_eq] | split

theorem pcieStore_sound {p : Part} : ∀ a0 a1 s, Sound p s → Sound p (pcieStore a0 a1 s) := by
  intro a0 a1 s h0
  unfold pcieStore
  repeat' with_reducible first
    | assumption | rfl | intro _ | apply updPcie_sound | refine sound_parts ?_ ?_ ?_
    | refine sound_of_snd_snd (by assumption) ?_ | refine sound_of_snd (by assumption) ?_ | dsimp only [sound_mk_eq] | split

theorem hartLoad_sound {p : Part} : ∀ a0 a1 a2 a3 a4 a5 s, Sound p s → Sound p (hartLoad a0 a1 a2 a3 a4 a5 s) := by
  intro a0 a1 a2 a3 a4 a5 s h0
  unfold hartLoad
  repeat' with_reducible first
    | assumption | rfl | intro _ | apply hartAt_sound | apply hartBarred_sound | apply hartTierLoad_sound | apply updHart_sound
    | apply hartRegLoad_sound | apply fourByteRead_sound | apply outAccess_sound | apply windowLoadHere_sound
    | apply pcieLoad_sound | apply beginAccess_sound | refine sound_parts ?_ ?_ ?_ | refine sound_of_snd_snd (by assumption) ?_
    | refine sound_of_snd (by assumption) ?_ | dsimp only [sound_mk_eq] | split

theorem execHartLoad_sound {p : Part} : ∀ a0 a1 a2 a3 a4 a5 s, Sound p s → SoundAnswer p (execHartLoad a0 a1 a2 a3 a4 a5 s) := by
  intro a0 a1 a2 a3 a4 a5 s h0
  unfold execHartLoad
  repeat' with_reducible first
    | assumption | rfl | intro _ | apply hartLoad_sound | apply soundAnswer_next

theorem sendOthers_sound {p : Part} : ∀ a0 a1 a2 s, Sound p s → Sound p (sendOthers a0 a1 a2 s) := by
  intro a0 a1 a2 s h0
  unfold sendOthers
  repeat' with_reducible first
    | assumption | rfl | intro _ | apply sendCombined_sound | refine sound_parts ?_ ?_ ?_ | dsimp only [sound_mk_eq] | split

theorem combineStore_sound {p : Part} : ∀ a0 a1 a2 s, Sound p s → Sound p (combineStore a0 a1 a2 s) := by
  intro a0 a1 a2 s h0
  unfold combineStore
  repeat' with_reducible first
    | assumption | rfl | intro _ | apply updHart_sound | apply sendOthers_sound | apply foldl_sound

theorem hartTierStore_sound {p : Part} : ∀ a0 a1 a2 a3 s, Sound p s → Sound p (hartTierStore a0 a1 a2 a3 s) := by
  intro a0 a1 a2 a3 s h0
  fun_induction hartTierStore a0 a1 a2 a3 s
  all_goals repeat' with_reducible first
    | assumption | rfl | intro _ | apply sendCombined_sound | apply systemCacheRange_sound | apply combineStore_sound
    | apply foldl_sound | apply foldl_snd_sound | refine sound_parts ?_ ?_ ?_ | apply_assumption -exfalso -symm
    | dsimp only [sound_mk_eq] | dsimp +zetaDelta only [sound_mk_eq] | split

theorem hartRegStoreAt_sound {p : Part} : ∀ a0 a1 a2 s, Sound p s → Sound p (hartRegStoreAt a0 a1 a2 s) := by
  intro a0 a1 a2 s h0
  unfold hartRegStoreAt
  repeat' with_reducible first
    | assumption | rfl | intro _ | apply siteWindowAccess_sound | apply regWrite_sound | apply updHart_sound
    | refine sound_parts ?_ ?_ ?_ | refine sound_of_snd_snd (by assumption) ?_ | refine sound_of_snd (by assumption) ?_
    | dsimp only [sound_mk_eq] | split

theorem hartRegStore_sound {p : Part} : ∀ a0 a1 a2 s, Sound p s → Sound p (hartRegStore a0 a1 a2 s) := by
  intro a0 a1 a2 s h0
  unfold hartRegStore
  repeat' with_reducible first
    | assumption | rfl | intro _ | apply hartRegStoreAt_sound

theorem hartStore_sound {p : Part} : ∀ a0 a1 a2 a3 a4 a5 s, Sound p s → Sound p (hartStore a0 a1 a2 a3 a4 a5 s) := by
  intro a0 a1 a2 a3 a4 a5 s h0
  unfold hartStore
  repeat' with_reducible first
    | assumption | rfl | intro _ | apply hartAt_sound | apply hartBarred_sound | apply hartTierStore_sound
    | apply hartRegStore_sound | apply fourByteWrite_sound | apply outStore_sound | apply pcieStore_sound
    | apply beginAccess_sound | refine sound_parts ?_ ?_ ?_ | refine sound_of_snd_snd (by assumption) ?_
    | refine sound_of_snd (by assumption) ?_ | dsimp only [sound_mk_eq] | split

theorem execHartStore_sound {p : Part} : ∀ a0 a1 a2 a3 a4 a5 s,
    Sound p s → SoundAnswer p (execHartStore a0 a1 a2 a3 a4 a5 s) := by
  intro a0 a1 a2 a3 a4 a5 s h0
  unfold execHartStore
  repeat' with_reducible first
    | assumption | rfl | intro _ | apply hartStore_sound | apply soundAnswer_next

theorem storeConditional_sound {p : Part} : ∀ a0 a1 a2 a3 a4 s, Sound p s → Sound p (storeConditional a0 a1 a2 a3 a4 s) := by
  intro a0 a1 a2 a3 a4 s h0
  unfold storeConditional
  repeat' with_reducible first
    | assumption | rfl | intro _ | apply updHart_sound | apply hartRefused_sound | apply placeBytes_sound
    | refine sound_parts ?_ ?_ ?_ | refine sound_of_snd_snd (by assumption) ?_ | refine sound_of_snd (by assumption) ?_
    | dsimp only [sound_mk_eq] | split

theorem atomicHere_sound {p : Part} : ∀ a0 a1 a2 a3 a4 a5 a6 s, Sound p s → Sound p (atomicHere a0 a1 a2 a3 a4 a5 a6 s) := by
  intro a0 a1 a2 a3 a4 a5 a6 s h0
  unfold atomicHere
  repeat' with_reducible first
    | assumption | rfl | intro _ | apply storeConditional_sound | apply physRead_sound | apply placeBytes_sound
    | apply updHart_sound | apply hartRefused_sound | refine sound_parts ?_ ?_ ?_ | refine sound_of_snd_snd (by assumption) ?_
    | refine sound_of_snd (by assumption) ?_ | dsimp only [sound_mk_eq] | split

theorem hartStall_sound {p : Part} : ∀ a0 s, Sound p s → Sound p (hartStall a0 s) := by
  intro a0 s h0
  unfold hartStall
  repeat' with_reducible first
    | assumption | rfl | intro _ | apply updHart_sound | refine sound_parts ?_ ?_ ?_
    | refine sound_of_snd_snd (by assumption) ?_ | refine sound_of_snd (by assumption) ?_ | dsimp only [sound_mk_eq] | split

theorem hartAtomic_sound {p : Part} : ∀ a0 a1 a2 a3 a4 a5 a6 a7 a8 s,
    Sound p s → Sound p (hartAtomic a0 a1 a2 a3 a4 a5 a6 a7 a8 s) := by
  intro a0 a1 a2 a3 a4 a5 a6 a7 a8 s h0
  unfold hartAtomic
  repeat' with_reducible first
    | assumption | rfl | intro _ | apply hartStall_sound | apply beginAccess_sound | apply hartAt_sound
    | apply sendAllCombined_sound | apply atomicHere_sound | apply outAccess_sound | apply windowAtomicHere_sound
    | apply hartBarred_sound | refine sound_parts ?_ ?_ ?_ | dsimp only [sound_mk_eq] | split

theorem execHartAtomic_sound {p : Part} : ∀ a0 a1 a2 a3 a4 a5 a6 a7 a8 s,
    Sound p s → SoundAnswer p (execHartAtomic a0 a1 a2 a3 a4 a5 a6 a7 a8 s) := by
  intro a0 a1 a2 a3 a4 a5 a6 a7 a8 s h0
  unfold execHartAtomic
  repeat' with_reducible first
    | assumption | rfl | intro _ | apply hartAtomic_sound | apply soundAnswer_next

theorem execCombinedStoreSend_sound {p : Part} : ∀ a0 a1 s, Sound p s → SoundAnswer p (execCombinedStoreSend a0 a1 s) := by
  intro a0 a1 s h0
  unfold execCombinedStoreSend
  repeat' with_reducible first
    | assumption | rfl | intro _ | apply sendCombined_sound | apply soundAnswer_next | apply soundAnswer_fault
    | refine sound_parts ?_ ?_ ?_ | dsimp only [sound_mk_eq] | split

theorem execLoadBarrier_sound {p : Part} : ∀ a0 s, Sound p s → SoundAnswer p (execLoadBarrier a0 s) := by
  intro a0 s h0
  unfold execLoadBarrier
  repeat' with_reducible first
    | assumption | rfl | intro _ | apply updHart_sound | apply soundAnswer_next | apply soundAnswer_fault
    | refine sound_parts ?_ ?_ ?_ | dsimp only [sound_mk_eq] | split

theorem storeBarrier_sound {p : Part} : ∀ a0 s, Sound p s → Sound p (storeBarrier a0 s) := by
  intro a0 s h0
  unfold storeBarrier
  repeat' with_reducible first
    | assumption | rfl | intro _ | apply updHart_sound | apply sendAllCombined_sound | refine sound_parts ?_ ?_ ?_
    | dsimp only [sound_mk_eq] | split

theorem execStoreBarrier_sound {p : Part} : ∀ a0 s, Sound p s → SoundAnswer p (execStoreBarrier a0 s) := by
  intro a0 s h0
  unfold execStoreBarrier
  repeat' with_reducible first
    | assumption | rfl | intro _ | apply storeBarrier_sound | apply soundAnswer_next

theorem fullBarrier_sound {p : Part} : ∀ a0 s, Sound p s → Sound p (fullBarrier a0 s) := by
  intro a0 s h0
  unfold fullBarrier
  repeat' with_reducible first
    | assumption | rfl | intro _ | apply storeBarrier_sound

theorem execFullBarrier_sound {p : Part} : ∀ a0 s, Sound p s → SoundAnswer p (execFullBarrier a0 s) := by
  intro a0 s h0
  unfold execFullBarrier
  repeat' with_reducible first
    | assumption | rfl | intro _ | apply fullBarrier_sound | apply soundAnswer_next

theorem execDeferredStoreFault_sound {p : Part} : ∀ a0 a1 s, Sound p s → SoundAnswer p (execDeferredStoreFault a0 a1 s) := by
  intro a0 a1 s h0
  unfold execDeferredStoreFault
  repeat' with_reducible first
    | assumption | rfl | intro _ | apply hartFault_sound | apply updHart_sound | apply soundAnswer_next
    | apply soundAnswer_fault | refine sound_parts ?_ ?_ ?_ | refine sound_of_snd_snd (by assumption) ?_
    | refine sound_of_snd (by assumption) ?_ | dsimp only [sound_mk_eq] | split

theorem execPostedWriteCheckFail_sound {p : Part} : ∀ a0 a1 a2 s,
    Sound p s → SoundAnswer p (execPostedWriteCheckFail a0 a1 a2 s) := by
  intro a0 a1 a2 s h0
  unfold execPostedWriteCheckFail
  repeat' with_reducible first
    | assumption | rfl | intro _ | apply reportPosted_sound | apply soundAnswer_next | apply soundAnswer_fault
    | refine sound_parts ?_ ?_ ?_ | dsimp only [sound_mk_eq] | split

theorem accFaultAccess_sound {p : Part} : ∀ a0 a1 a2 a3 s, Sound p s → Sound p (accFaultAccess a0 a1 a2 a3 s) := by
  intro a0 a1 a2 a3 s h0
  unfold accFaultAccess
  repeat' with_reducible first
    | assumption | rfl | intro _ | apply updHart_sound | apply hartTrap_sound | refine sound_parts ?_ ?_ ?_
    | refine sound_of_snd_snd (by assumption) ?_ | refine sound_of_snd (by assumption) ?_ | dsimp only [sound_mk_eq] | split

theorem execAccFaultAccess_sound {p : Part} : ∀ a0 a1 a2 a3 s, Sound p s → SoundAnswer p (execAccFaultAccess a0 a1 a2 a3 s) := by
  intro a0 a1 a2 a3 s h0
  unfold execAccFaultAccess
  repeat' with_reducible first
    | assumption | rfl | intro _ | apply accFaultAccess_sound | apply soundAnswer_next

end Sys2Proof.Machine
end

