-- ==== Sys2Proof/Laws/Sound/Start.lean ====
section
/-!
SUPPORT. Laws/Sound/Start.lean: what Machine/Start.lean does keeps a state sound (Sys2Proof.Sound): memory canonical, the record
queue bounded, the part unchanged.
-/

namespace Sys2Proof.Machine

theorem logEvent_sound {p : Part} : ∀ a0 a1 a2 a3 s, Sound p s → Sound p (logEvent a0 a1 a2 a3 s) := by
  intro a0 a1 a2 a3 s h0
  unfold logEvent
  repeat' with_reducible first
    | assumption | rfl | intro _ | refine sound_parts ?_ ?_ ?_ | dsimp only [sound_mk_eq]

theorem logStart_sound {p : Part} : ∀ a0 a1 a2 s, Sound p s → Sound p (logStart a0 a1 a2 s) := by
  intro a0 a1 a2 s h0
  unfold logStart
  repeat' with_reducible first
    | assumption | rfl | intro _ | apply logEvent_sound

theorem holdState_sound {p : Part} : ∀ s, Sound p s → Sound p (holdState s) := by
  intro s h0
  unfold holdState
  repeat' with_reducible first
    | assumption | rfl | intro _ | apply keepIdentity_sound | apply resetSteps_sound | refine sound_parts ?_ ?_ ?_
    | dsimp only [sound_mk_eq]

theorem failHardware_sound {p : Part} : ∀ a0 a1 a2 s, Sound p s → Sound p (failHardware a0 a1 a2 s) := by
  intro a0 a1 a2 s h0
  unfold failHardware
  repeat' with_reducible first
    | assumption | rfl | intro _ | apply logEvent_sound | apply holdState_sound | refine sound_parts ?_ ?_ ?_
    | dsimp only [sound_mk_eq]

theorem reportKept_sound {p : Part} : ∀ s, Sound p s → Sound p (reportKept s) := by
  intro s h0
  unfold reportKept
  repeat' with_reducible first
    | assumption | rfl | intro _ | apply report_sound | apply foldl_sound | apply foldl_snd_sound | refine sound_parts ?_ ?_ ?_
    | refine sound_of_snd_snd (by assumption) ?_ | refine sound_of_snd (by assumption) ?_ | dsimp only [sound_mk_eq] | split

theorem bootCores_sound {p : Part} : ∀ s, Sound p s → Sound p (bootCores s) := by
  intro s h0
  unfold bootCores
  repeat' with_reducible first
    | assumption | rfl | intro _ | apply rawWrite_sound | apply reportModule_sound | refine sound_parts ?_ ?_ ?_
    | refine sound_of_snd_snd (by assumption) ?_ | refine sound_of_snd (by assumption) ?_ | dsimp only [sound_mk_eq] | split

theorem limitAtStart_sound {p : Part} : ∀ s, Sound p s → Sound p (limitAtStart s) := by
  intro s h0
  unfold limitAtStart
  repeat' with_reducible first
    | assumption | rfl | intro _ | apply limitInput_sound | refine sound_parts ?_ ?_ ?_ | dsimp only [sound_mk_eq] | split

theorem startBoom_sound {p : Part} : ∀ s, Sound p s → Sound p (startBoom s) := by
  intro s h0
  unfold startBoom
  repeat' with_reducible first
    | assumption | rfl | intro _ | apply setCap_sound | apply refreshBudget_sound | apply refill_sound
    | apply limitAtStart_sound | apply foldl_sound | apply foldl_snd_sound | refine sound_parts ?_ ?_ ?_
    | dsimp only [sound_mk_eq]

theorem startKerf_sound {p : Part} : ∀ a0 a1 s, Sound p s → Sound p (startKerf a0 a1 s) := by
  intro a0 a1 s h0
  unfold startKerf
  repeat' with_reducible first
    | assumption | rfl | intro _ | apply report_sound | apply reportModule_sound | apply foldl_sound | apply foldl_snd_sound
    | refine sound_parts ?_ ?_ ?_ | dsimp only [sound_mk_eq] | split

theorem startBenches_sound {p : Part} : ∀ a0 s, Sound p s → Sound p (startBenches a0 s) := by
  intro a0 s h0
  unfold startBenches
  repeat' with_reducible first
    | assumption | rfl | intro _ | apply quarantineAll_sound | apply foldl_sound

theorem startPorts_sound {p : Part} : ∀ a0 s, Sound p s → Sound p (startPorts a0 s) := by
  intro a0 s h0
  unfold startPorts
  repeat' with_reducible first
    | assumption | rfl | intro _ | apply fitPorts_sound | refine sound_parts ?_ ?_ ?_
    | refine sound_of_snd_snd (by assumption) ?_ | refine sound_of_snd (by assumption) ?_ | dsimp only [sound_mk_eq]

theorem startPcie_sound {p : Part} : ∀ a0 s, Sound p s → Sound p (startPcie a0 s) := by
  intro a0 s h0
  unfold startPcie
  repeat' with_reducible first
    | assumption | rfl | intro _ | refine sound_parts ?_ ?_ ?_ | refine sound_of_snd_snd (by assumption) ?_
    | refine sound_of_snd (by assumption) ?_ | dsimp only [sound_mk_eq]

theorem startDevices_sound {p : Part} : ∀ a0 s, Sound p s → Sound p (startDevices a0 s) := by
  intro a0 s h0
  unfold startDevices
  repeat' with_reducible first
    | assumption | rfl | intro _ | refine sound_parts ?_ ?_ ?_ | dsimp only [sound_mk_eq]

theorem startTemps_sound {p : Part} : ∀ s, Sound p s → Sound p (startTemps s) := by
  intro s h0
  unfold startTemps
  repeat' with_reducible first
    | assumption | rfl | intro _ | apply tempResponse_sound | apply foldl_sound

theorem enterService_sound {p : Part} : ∀ a0 a1 s, Sound p s → Sound p (enterService a0 a1 s) := by
  intro a0 a1 s h0
  unfold enterService
  repeat' with_reducible first
    | assumption | rfl | intro _ | apply settleStart_sound | apply startPorts_sound | apply startPcie_sound
    | apply bootCores_sound | apply startBenches_sound | apply startDevices_sound | apply startTemps_sound
    | apply startKerf_sound | apply reportKept_sound

theorem bringUp_sound {p : Part} : ∀ a0 s, Sound p s → Sound p (bringUp a0 s) := by
  intro a0 s h0
  unfold bringUp
  repeat' with_reducible first
    | assumption | rfl | intro _ | apply startBoom_sound | apply tripModule_sound | apply enterService_sound
    | apply failHardware_sound | refine sound_parts ?_ ?_ ?_ | refine sound_of_snd_snd (by assumption) ?_
    | refine sound_of_snd (by assumption) ?_ | dsimp only [sound_mk_eq] | split

theorem runImage_sound {p : Part} : ∀ a0 a1 s, Sound p s → Sound p (runImage a0 a1 s) := by
  intro a0 a1 s h0
  unfold runImage
  repeat' with_reducible first
    | assumption | rfl | intro _ | apply bringUp_sound | refine sound_parts ?_ ?_ ?_ | dsimp only [sound_mk_eq] | split

theorem tryImages_sound {p : Part} : ∀ a0 a1 a2 a3 s, Sound p s → Sound p (tryImages a0 a1 a2 a3 s).2 := by
  intro a0 a1 a2 a3 s h0
  fun_induction tryImages a0 a1 a2 a3 s
  all_goals repeat' with_reducible first
    | assumption | rfl | intro _ | apply logStart_sound | refine sound_parts ?_ ?_ ?_ | apply_assumption -exfalso -symm

theorem chooseImage_sound {p : Part} : ∀ a0 a1 a2 s, Sound p s → Sound p (chooseImage a0 a1 a2 s) := by
  intro a0 a1 a2 s h0
  unfold chooseImage
  repeat' with_reducible first
    | assumption | rfl | intro _ | apply tryImages_sound | apply runImage_sound | apply holdState_sound
    | refine sound_parts ?_ ?_ ?_ | refine sound_of_snd_snd (by assumption) ?_ | refine sound_of_snd (by assumption) ?_
    | dsimp only [sound_mk_eq] | split

theorem identify_sound {p : Part} : ∀ a0 a1 s, Sound p s → Sound p (identify a0 a1 s) := by
  intro a0 a1 s h0
  unfold identify
  repeat' with_reducible first
    | assumption | rfl | intro _ | refine sound_parts ?_ ?_ ?_ | dsimp only [sound_mk_eq]

theorem discover_sound {p : Part} : ∀ a0 a1 a2 s, Sound p s → Sound p (discover a0 a1 a2 s) := by
  intro a0 a1 a2 s h0
  unfold discover
  repeat' with_reducible first
    | assumption | rfl | intro _ | apply identify_sound | apply chooseImage_sound | apply failHardware_sound
    | refine sound_parts ?_ ?_ ?_ | refine sound_of_snd_snd (by assumption) ?_ | refine sound_of_snd (by assumption) ?_
    | dsimp only [sound_mk_eq] | split

theorem revertTrial_sound {p : Part} : ∀ a0 s, Sound p s → Sound p (revertTrial a0 s).2 := by
  intro a0 s h0
  unfold revertTrial
  repeat' with_reducible first
    | assumption | rfl | intro _ | apply logStart_sound | refine sound_parts ?_ ?_ ?_ | dsimp only [sound_mk_eq] | split

theorem startFrom_sound {p : Part} : ∀ a0 s, Sound p s → Sound p (startFrom a0 s) := by
  intro a0 s h0
  unfold startFrom
  repeat' with_reducible first
    | assumption | rfl | intro _ | apply holdState_sound | apply logStart_sound | apply revertTrial_sound | apply discover_sound
    | refine sound_parts ?_ ?_ ?_ | refine sound_of_snd_snd (by assumption) ?_ | refine sound_of_snd (by assumption) ?_
    | dsimp only [sound_mk_eq] | split

theorem blankModule_sound {p : Part} : ∀ a0 a1 s, Sound p s → Sound p (blankModule a0 a1 s) := by
  intro a0 a1 s h0
  unfold blankModule
  repeat' with_reducible first
    | assumption | rfl | intro _ | apply resetSteps_sound | refine sound_parts ?_ ?_ ?_ | dsimp only [sound_mk_eq]

theorem startModule_sound {p : Part} : ∀ a0 a1 s, Sound p s → Sound p (startModule a0 a1 s) := by
  intro a0 a1 s h0
  unfold startModule
  repeat' with_reducible first
    | assumption | rfl | intro _ | apply startFrom_sound | apply blankModule_sound

theorem warmStart_sound {p : Part} : ∀ a0 s, Sound p s → Sound p (warmStart a0 s) := by
  intro a0 s h0
  unfold warmStart
  repeat' with_reducible first
    | assumption | rfl | intro _ | apply startModule_sound

theorem freshAlwaysOn_sound {p : Part} : ∀ s, Sound p s → Sound p (freshAlwaysOn s) :=
  fun _ h => ⟨h.1, ⟨Nat.le_refl _, by show (0 : Nat) ≤ 0 + 1024; omega⟩, h.2.2⟩

theorem resetPinLow_sound {p : Part} : ∀ s, Sound p s → Sound p (resetPinLow s) := by
  intro s h0
  unfold resetPinLow
  repeat' with_reducible first
    | assumption | rfl | intro _ | refine sound_parts ?_ ?_ ?_ | dsimp only [sound_mk_eq]

theorem coldStart_sound {p : Part} : ∀ a0 s, Sound p s → Sound p (coldStart a0 s) := by
  intro a0 s h0
  unfold coldStart
  repeat' with_reducible first
    | assumption | rfl | intro _ | apply freshAlwaysOn_sound | apply resetPinLow_sound | apply beginWarmReset_sound
    | apply startModule_sound | refine sound_parts ?_ ?_ ?_ | dsimp only [sound_mk_eq] | split

theorem execColdStart_sound {p : Part} : ∀ a0 s, Sound p s → SoundAnswer p (execColdStart a0 s) := by
  intro a0 s h0
  unfold execColdStart
  repeat' with_reducible first
    | assumption | rfl | intro _ | apply coldStart_sound | apply soundAnswer_next | apply soundAnswer_fault
    | refine sound_parts ?_ ?_ ?_ | dsimp only [sound_mk_eq] | split

theorem moduleResetN_sound {p : Part} : ∀ s, Sound p s → Sound p (moduleResetN s) := by
  intro s h0
  unfold moduleResetN
  repeat' with_reducible first
    | assumption | rfl | intro _ | apply resetPinLow_sound | apply beginWarmReset_sound | refine sound_parts ?_ ?_ ?_
    | refine sound_of_snd_snd (by assumption) ?_ | refine sound_of_snd (by assumption) ?_ | dsimp only [sound_mk_eq] | split

theorem execModuleResetNRecognised_sound {p : Part} : ∀ s, Sound p s → SoundAnswer p (execModuleResetNRecognised s) := by
  intro s h0
  unfold execModuleResetNRecognised
  repeat' with_reducible first
    | assumption | rfl | intro _ | apply moduleResetN_sound | apply soundAnswer_next

theorem execWarmResetResume_sound {p : Part} : ∀ a0 s, Sound p s → SoundAnswer p (execWarmResetResume a0 s) := by
  intro a0 s h0
  unfold execWarmResetResume
  repeat' with_reducible first
    | assumption | rfl | intro _ | apply warmStart_sound | apply soundAnswer_next | apply soundAnswer_fault
    | refine sound_parts ?_ ?_ ?_ | refine sound_of_snd_snd (by assumption) ?_ | refine sound_of_snd (by assumption) ?_
    | dsimp only [sound_mk_eq] | split

theorem losePower_sound {p : Part} : ∀ s, Sound p s → Sound p (losePower s) := by
  intro s h
  have hr := resetSteps_sound .off none s h
  exact ⟨hr.1, ⟨Nat.le_refl _, by show (0 : Nat) ≤ 0 + 1024; omega⟩, hr.2.2⟩

theorem execInputBrownOut_sound {p : Part} : ∀ a0 s, Sound p s → SoundAnswer p (execInputBrownOut a0 s) := by
  intro a0 s h0
  unfold execInputBrownOut
  repeat' with_reducible first
    | assumption | rfl | intro _ | apply losePower_sound | apply withInput_sound | apply resetSteps_sound
    | apply soundAnswer_next | apply soundAnswer_fault | refine sound_parts ?_ ?_ ?_ | dsimp only [sound_mk_eq] | split

theorem execBrownOutRestart_sound {p : Part} : ∀ a0 s, Sound p s → SoundAnswer p (execBrownOutRestart a0 s) := by
  intro a0 s h0
  unfold execBrownOutRestart
  repeat' with_reducible first
    | assumption | rfl | intro _ | apply coldStart_sound | apply beginWarmReset_sound | apply withInput_sound
    | apply warmStart_sound | apply soundAnswer_next | apply soundAnswer_fault | refine sound_parts ?_ ?_ ?_
    | refine sound_of_snd_snd (by assumption) ?_ | refine sound_of_snd (by assumption) ?_ | dsimp only [sound_mk_eq] | split

theorem execPowerLoss_sound {p : Part} : ∀ s, Sound p s → SoundAnswer p (execPowerLoss s) := by
  intro s h0
  unfold execPowerLoss
  repeat' with_reducible first
    | assumption | rfl | intro _ | apply losePower_sound | apply soundAnswer_next

theorem execPowerBrakeRelease_sound {p : Part} : ∀ s, Sound p s → SoundAnswer p (execPowerBrakeRelease s) := by
  intro s h0
  unfold execPowerBrakeRelease
  repeat' with_reducible first
    | assumption | rfl | intro _ | apply bringUp_sound | apply releaseBrake_sound | apply soundAnswer_next
    | apply soundAnswer_fault | refine sound_parts ?_ ?_ ?_ | refine sound_of_snd_snd (by assumption) ?_
    | refine sound_of_snd (by assumption) ?_ | dsimp only [sound_mk_eq] | split

end Sys2Proof.Machine
end

