-- ==== Sys2Proof/Laws/Sound/Manage.lean ====
section
/-!
SUPPORT. Laws/Sound/Manage.lean: what Machine/Manage.lean does keeps a state sound (Sys2Proof.Sound): memory canonical, the record
queue bounded, the part unchanged.
-/

namespace Sys2Proof.Machine

theorem refusal_sound {p : Part} : ∀ a0 s, Sound p s → Sound p (refusal a0 s).2 := by
  intro a0 s h0
  unfold refusal
  repeat' with_reducible first
    | assumption

theorem success_sound {p : Part} : ∀ a0 s, Sound p s → Sound p (success a0 s).2 := by
  intro a0 s h0
  unfold success
  repeat' with_reducible first
    | assumption

theorem vendorIdentity_sound {p : Part} : ∀ s, Sound p s → Sound p (vendorIdentity s).2 := by
  intro s h0
  unfold vendorIdentity
  repeat' with_reducible first
    | assumption | rfl | intro _ | apply success_sound

theorem vendorStatus_sound {p : Part} : ∀ s, Sound p s → Sound p (vendorStatus s).2 := by
  intro s h0
  unfold vendorStatus
  repeat' with_reducible first
    | assumption | rfl | intro _ | apply success_sound

theorem vendorValue_sound {p : Part} : ∀ a0 s, Sound p s → Sound p (vendorValue a0 s).2 := by
  intro a0 s h0
  unfold vendorValue
  repeat' with_reducible first
    | assumption | rfl | intro _ | apply regRead_sound | refine sound_parts ?_ ?_ ?_ | dsimp only [sound_mk_eq] | split

theorem vendorReadAt_sound {p : Part} : ∀ a0 a1 a2 s, Sound p s → Sound p (vendorReadAt a0 a1 a2 s) := by
  intro a0 a1 a2 s h0
  unfold vendorReadAt
  repeat' with_reducible first
    | assumption | rfl | intro _ | apply forwardAccess_sound | apply updMgmt_sound | apply vendorAnswer_sound
    | apply success_sound | apply vendorValue_sound | refine sound_parts ?_ ?_ ?_ | refine sound_of_snd_snd (by assumption) ?_
    | refine sound_of_snd (by assumption) ?_ | dsimp only [sound_mk_eq] | split

theorem vendorRead_sound {p : Part} : ∀ a0 a1 a2 s, Sound p s → Sound p (vendorRead a0 a1 a2 s) := by
  intro a0 a1 a2 s h0
  unfold vendorRead
  repeat' with_reducible first
    | assumption | rfl | intro _ | apply vendorAnswer_sound | apply refusal_sound | apply vendorReadAt_sound
    | refine sound_parts ?_ ?_ ?_ | dsimp only [sound_mk_eq] | split

theorem vendorWriteAt_sound {p : Part} : ∀ a0 a1 a2 s, Sound p s → Sound p (vendorWriteAt a0 a1 a2 s).2 := by
  intro a0 a1 a2 s h0
  unfold vendorWriteAt
  repeat' with_reducible first
    | assumption | rfl | intro _ | apply forwardAccess_sound | apply regWrite_sound | refine sound_parts ?_ ?_ ?_
    | refine sound_of_snd_snd (by assumption) ?_ | refine sound_of_snd (by assumption) ?_ | dsimp only [sound_mk_eq] | split

theorem vendorWrite_sound {p : Part} : ∀ a0 a1 a2 a3 s, Sound p s → Sound p (vendorWrite a0 a1 a2 a3 s) := by
  intro a0 a1 a2 a3 s h0
  unfold vendorWrite
  repeat' with_reducible first
    | assumption | rfl | intro _ | apply vendorAnswer_sound | apply refusal_sound | apply vendorWriteAt_sound
    | apply success_sound | apply updMgmt_sound | refine sound_parts ?_ ?_ ?_ | dsimp only [sound_mk_eq] | split

theorem vendorRecords_sound {p : Part} : ∀ a0 s, Sound p s → Sound p (vendorRecords a0 s).2 := by
  intro a0 s h0
  unfold vendorRecords
  repeat' with_reducible first
    | assumption | rfl | intro _ | apply refusal_sound | apply success_sound | refine sound_parts ?_ ?_ ?_
    | dsimp only [sound_mk_eq] | split

theorem vendorInject_sound {p : Part} : ∀ a0 a1 a2 a3 s, Sound p s → Sound p (vendorInject a0 a1 a2 a3 s).2 := by
  intro a0 a1 a2 a3 s h0
  unfold vendorInject
  repeat' with_reducible first
    | assumption | rfl | intro _ | apply refusal_sound | apply armSlot_sound | apply injLocatorWrite_sound
    | apply injPointWrite_sound | refine sound_parts ?_ ?_ ?_ | refine sound_of_snd_snd (by assumption) ?_
    | refine sound_of_snd (by assumption) ?_ | dsimp only [sound_mk_eq] | split

theorem retrainPort_sound {p : Part} : ∀ a0 s, Sound p s → Sound p (retrainPort a0 s) := by
  intro a0 s h0
  unfold retrainPort
  repeat' with_reducible first
    | assumption | rfl | intro _ | apply followPorts_sound | apply updPort_sound | apply notePort_sound
    | refine sound_parts ?_ ?_ ?_ | refine sound_of_snd_snd (by assumption) ?_ | refine sound_of_snd (by assumption) ?_
    | dsimp only [sound_mk_eq] | split

theorem beginRetrainPort_sound {p : Part} : ∀ a0 a1 a2 a3 s, Sound p s → Sound p (beginRetrainPort a0 a1 a2 a3 s) := by
  intro a0 a1 a2 a3 s h0
  unfold beginRetrainPort
  repeat' with_reducible first
    | assumption | rfl | intro _ | apply updMgmt_sound | apply retrainPort_sound | apply vendorAnswer_sound
    | apply refusal_sound | refine sound_parts ?_ ?_ ?_ | dsimp only [sound_mk_eq] | split

theorem endRetrain_sound {p : Part} : ∀ a0 a1 s, Sound p s → Sound p (endRetrain a0 a1 s) := by
  intro a0 a1 s h0
  unfold endRetrain
  repeat' with_reducible first
    | assumption | rfl | intro _ | apply updPcie_sound | apply updPort_sound | apply notePort_sound
    | refine sound_parts ?_ ?_ ?_ | dsimp only [sound_mk_eq] | split

theorem stageOpen_sound {p : Part} : ∀ a0 s, Sound p s → Sound p (stageOpen a0 s).2 := by
  intro a0 s h0
  unfold stageOpen
  repeat' with_reducible first
    | assumption | rfl | intro _ | apply refusal_sound | apply success_sound | refine sound_parts ?_ ?_ ?_
    | dsimp only [sound_mk_eq] | split

theorem inStage_sound {p : Part} : ∀ a0 s, (∀ t, Sound p t → Sound p (a0 t).2) → Sound p s → Sound p (inStage a0 s).2 := by
  intro a0 s h0 h1
  unfold inStage
  repeat' with_reducible first
    | assumption | rfl | intro _ | apply h0 | apply refusal_sound | refine sound_parts ?_ ?_ ?_ | dsimp only [sound_mk_eq]
    | split

theorem stageWrite_sound {p : Part} : ∀ a0 a1 s, Sound p s → Sound p (stageWrite a0 a1 s).2 := by
  intro a0 a1 s h0
  unfold stageWrite
  repeat' with_reducible first
    | assumption | rfl | intro _ | apply refusal_sound | apply inStage_sound | apply success_sound | refine sound_parts ?_ ?_ ?_
    | refine sound_of_snd_snd (by assumption) ?_ | refine sound_of_snd (by assumption) ?_ | dsimp only [sound_mk_eq] | split

theorem stageVerify_sound {p : Part} : ∀ s, Sound p s → Sound p (stageVerify s).2 := by
  intro s h0
  unfold stageVerify
  repeat' with_reducible first
    | assumption | rfl | intro _ | apply inStage_sound | apply refusal_sound | refine sound_parts ?_ ?_ ?_
    | refine sound_of_snd_snd (by assumption) ?_ | refine sound_of_snd (by assumption) ?_ | dsimp only [sound_mk_eq] | split

theorem stageSelect_sound {p : Part} : ∀ s, Sound p s → Sound p (stageSelect s).2 := by
  intro s h0
  unfold stageSelect
  repeat' with_reducible first
    | assumption | rfl | intro _ | apply inStage_sound | apply refusal_sound | apply success_sound | refine sound_parts ?_ ?_ ?_
    | refine sound_of_snd_snd (by assumption) ?_ | refine sound_of_snd (by assumption) ?_ | dsimp only [sound_mk_eq] | split

theorem selectSlot_sound {p : Part} : ∀ s, Sound p s → Sound p (selectSlot s) := by
  intro s h0
  unfold selectSlot
  repeat' with_reducible first
    | assumption | rfl | intro _ | refine sound_parts ?_ ?_ ?_ | refine sound_of_snd_snd (by assumption) ?_
    | refine sound_of_snd (by assumption) ?_ | dsimp only [sound_mk_eq] | split

theorem stageAbort_sound {p : Part} : ∀ s, Sound p s → Sound p (stageAbort s).2 := by
  intro s h0
  unfold stageAbort
  repeat' with_reducible first
    | assumption | rfl | intro _ | apply success_sound | refine sound_parts ?_ ?_ ?_
    | refine sound_of_snd_snd (by assumption) ?_ | refine sound_of_snd (by assumption) ?_ | dsimp only [sound_mk_eq]

theorem imageConfirm_sound {p : Part} : ∀ s, Sound p s → Sound p (imageConfirm s).2 := by
  intro s h0
  unfold imageConfirm
  repeat' with_reducible first
    | assumption | rfl | intro _ | apply inStage_sound | apply success_sound

theorem confirmImage_sound {p : Part} : ∀ s, Sound p s → Sound p (confirmImage s) := by
  intro s h0
  unfold confirmImage
  repeat' with_reducible first
    | assumption | rfl | intro _ | refine sound_parts ?_ ?_ ?_ | dsimp only [sound_mk_eq] | split

theorem startRecordRead_sound {p : Part} : ∀ a0 s, Sound p s → Sound p (startRecordRead a0 s).2 := by
  intro a0 s h0
  unfold startRecordRead
  repeat' with_reducible first
    | assumption | rfl | intro _ | apply refusal_sound | apply success_sound | refine sound_parts ?_ ?_ ?_
    | refine sound_of_snd_snd (by assumption) ?_ | refine sound_of_snd (by assumption) ?_ | dsimp only [sound_mk_eq] | split

theorem beginVendorLong_sound {p : Part} : ∀ a0 a1 a2 a3 a4 a5, Sound p a5.2 → Sound p (beginVendorLong a0 a1 a2 a3 a4 a5) := by
  intro a0 a1 a2 a3 a4 a5 h0
  unfold beginVendorLong
  repeat' with_reducible first
    | assumption | rfl | intro _ | apply updMgmt_sound

theorem stageLong_sound {p : Part} : ∀ a0 a1 a2 a3 a4 a5, Sound p a5.2 → Sound p (stageLong a0 a1 a2 a3 a4 a5) := by
  intro a0 a1 a2 a3 a4 a5 h0
  unfold stageLong
  repeat' with_reducible first
    | assumption | rfl | intro _ | apply beginVendorLong_sound | apply vendorAnswer_sound | refine sound_parts ?_ ?_ ?_
    | dsimp only [sound_mk_eq] | split

theorem verifyLong_sound {p : Part} : ∀ a0 a1 a2, Sound p a2.2 → Sound p (verifyLong a0 a1 a2) := by
  intro a0 a1 a2 h0
  unfold verifyLong
  repeat' with_reducible first
    | assumption | rfl | intro _ | apply vendorAnswer_sound | apply beginVendorLong_sound | refine sound_parts ?_ ?_ ?_
    | dsimp only [sound_mk_eq] | split

theorem endLong_sound {p : Part} : ∀ a0 s, Sound p s → Sound p (endLong a0 s) := by
  intro a0 s h0
  unfold endLong
  repeat' with_reducible first
    | assumption | rfl | intro _ | apply selectSlot_sound | apply confirmImage_sound | apply endRetrain_sound
    | refine sound_parts ?_ ?_ ?_ | refine sound_of_snd_snd (by assumption) ?_ | refine sound_of_snd (by assumption) ?_
    | dsimp only [sound_mk_eq] | split

theorem execMgmtLongOpDone_sound {p : Part} : ∀ s, Sound p s → SoundAnswer p (execMgmtLongOpDone s) := by
  intro s h0
  unfold execMgmtLongOpDone
  repeat' with_reducible first
    | assumption | rfl | intro _ | apply endLong_sound | apply updMgmt_sound | apply mgmtSend_sound | apply soundAnswer_next
    | apply soundAnswer_fault | refine sound_parts ?_ ?_ ?_ | refine sound_of_snd_snd (by assumption) ?_
    | refine sound_of_snd (by assumption) ?_ | dsimp only [sound_mk_eq] | split

theorem quick_sound {p : Part} : ∀ a0 a1 a2 a3 s,
    (∀ t, Sound p t → Sound p (a3 t).2) → Sound p s → Sound p (quick a0 a1 a2 a3 s) := by
  intro a0 a1 a2 a3 s h0 h1
  unfold quick
  repeat' with_reducible first
    | assumption | rfl | intro _ | apply h0 | apply vendorGated_sound | apply vendorAnswer_sound

theorem execGetIdentity_sound {p : Part} : ∀ a0 s, Sound p s → SoundAnswer p (execGetIdentity a0 s) := by
  intro a0 s h0
  unfold execGetIdentity
  repeat' with_reducible first
    | assumption | rfl | intro _ | apply quick_sound | apply vendorIdentity_sound | apply soundAnswer_next

theorem execGetStatus_sound {p : Part} : ∀ a0 s, Sound p s → SoundAnswer p (execGetStatus a0 s) := by
  intro a0 s h0
  unfold execGetStatus
  repeat' with_reducible first
    | assumption | rfl | intro _ | apply quick_sound | apply vendorStatus_sound | apply soundAnswer_next

theorem execReadRegister_sound {p : Part} : ∀ a0 a1 s, Sound p s → SoundAnswer p (execReadRegister a0 a1 s) := by
  intro a0 a1 s h0
  unfold execReadRegister
  repeat' with_reducible first
    | assumption | rfl | intro _ | apply vendorGated_sound | apply vendorRead_sound | apply soundAnswer_next

theorem execWriteRegister_sound {p : Part} : ∀ a0 a1 a2 s, Sound p s → SoundAnswer p (execWriteRegister a0 a1 a2 s) := by
  intro a0 a1 a2 s h0
  unfold execWriteRegister
  repeat' with_reducible first
    | assumption | rfl | intro _ | apply vendorGated_sound | apply vendorWrite_sound | apply soundAnswer_next

theorem execReadErrorRecords_sound {p : Part} : ∀ a0 a1 s, Sound p s → SoundAnswer p (execReadErrorRecords a0 a1 s) := by
  intro a0 a1 s h0
  unfold execReadErrorRecords
  repeat' with_reducible first
    | assumption | rfl | intro _ | apply quick_sound | apply vendorRecords_sound | apply soundAnswer_next

theorem execModuleReset_sound {p : Part} : ∀ a0 s, Sound p s → SoundAnswer p (execModuleReset a0 s) := by
  intro a0 s h0
  unfold execModuleReset
  repeat' with_reducible first
    | assumption | rfl | intro _ | apply moduleReset_sound | apply soundAnswer_next | apply soundAnswer_fault
    | refine sound_parts ?_ ?_ ?_ | dsimp only [sound_mk_eq] | split

theorem execRetrain_sound {p : Part} : ∀ a0 a1 a2 s, Sound p s → SoundAnswer p (execRetrain a0 a1 a2 s) := by
  intro a0 a1 a2 s h0
  unfold execRetrain
  repeat' with_reducible first
    | assumption | rfl | intro _ | apply vendorGated_sound | apply beginRetrainPort_sound | apply soundAnswer_next

theorem execInject_sound {p : Part} : ∀ a0 a1 a2 a3 s, Sound p s → SoundAnswer p (execInject a0 a1 a2 a3 s) := by
  intro a0 a1 a2 a3 s h0
  unfold execInject
  repeat' with_reducible first
    | assumption | rfl | intro _ | apply quick_sound | apply vendorInject_sound | apply soundAnswer_next

theorem execStageOpen_sound {p : Part} : ∀ a0 a1 s, Sound p s → SoundAnswer p (execStageOpen a0 a1 s) := by
  intro a0 a1 s h0
  unfold execStageOpen
  repeat' with_reducible first
    | assumption | rfl | intro _ | apply vendorGated_sound | apply stageLong_sound | apply stageOpen_sound
    | apply soundAnswer_next

theorem execStageWrite_sound {p : Part} : ∀ a0 a1 a2 s, Sound p s → SoundAnswer p (execStageWrite a0 a1 a2 s) := by
  intro a0 a1 a2 s h0
  unfold execStageWrite
  repeat' with_reducible first
    | assumption | rfl | intro _ | apply vendorGated_sound | apply stageLong_sound | apply stageWrite_sound
    | apply soundAnswer_next

theorem execStageVerify_sound {p : Part} : ∀ a0 s, Sound p s → SoundAnswer p (execStageVerify a0 s) := by
  intro a0 s h0
  unfold execStageVerify
  repeat' with_reducible first
    | assumption | rfl | intro _ | apply vendorGated_sound | apply verifyLong_sound | apply stageVerify_sound
    | apply soundAnswer_next

theorem execStageSelect_sound {p : Part} : ∀ a0 s, Sound p s → SoundAnswer p (execStageSelect a0 s) := by
  intro a0 s h0
  unfold execStageSelect
  repeat' with_reducible first
    | assumption | rfl | intro _ | apply vendorGated_sound | apply stageLong_sound | apply stageSelect_sound
    | apply soundAnswer_next

theorem execStageAbort_sound {p : Part} : ∀ a0 s, Sound p s → SoundAnswer p (execStageAbort a0 s) := by
  intro a0 s h0
  unfold execStageAbort
  repeat' with_reducible first
    | assumption | rfl | intro _ | apply quick_sound | apply stageAbort_sound | apply soundAnswer_next

theorem execImageConfirm_sound {p : Part} : ∀ a0 s, Sound p s → SoundAnswer p (execImageConfirm a0 s) := by
  intro a0 s h0
  unfold execImageConfirm
  repeat' with_reducible first
    | assumption | rfl | intro _ | apply vendorGated_sound | apply stageLong_sound | apply imageConfirm_sound
    | apply soundAnswer_next

theorem execStartRecordRead_sound {p : Part} : ∀ a0 a1 s, Sound p s → SoundAnswer p (execStartRecordRead a0 a1 s) := by
  intro a0 a1 s h0
  unfold execStartRecordRead
  repeat' with_reducible first
    | assumption | rfl | intro _ | apply quick_sound | apply startRecordRead_sound | apply soundAnswer_next

theorem serveVendor_sound {p : Part} : ∀ a0 a1 a2 a3 s, Sound p s → Sound p (serveVendor a0 a1 a2 a3 s) := by
  intro a0 a1 a2 a3 s h0
  unfold serveVendor
  repeat' with_reducible first
    | assumption | rfl | intro _ | apply vendorAnswer_sound | apply refusal_sound | apply vendorIdentity_sound
    | apply vendorStatus_sound | apply vendorRead_sound | apply vendorWrite_sound | apply vendorRecords_sound
    | apply moduleReset_sound | apply beginRetrainPort_sound | apply stageLong_sound | apply stageOpen_sound
    | apply stageWrite_sound | apply verifyLong_sound | apply stageVerify_sound | apply stageSelect_sound
    | apply stageAbort_sound | apply imageConfirm_sound | apply startRecordRead_sound | apply vendorInject_sound
    | refine sound_parts ?_ ?_ ?_ | refine sound_of_snd_snd (by assumption) ?_ | refine sound_of_snd (by assumption) ?_
    | dsimp only [sound_mk_eq] | split

theorem serveMessage_sound {p : Part} : ∀ a0 a1 s, Sound p s → Sound p (serveMessage a0 a1 s) := by
  intro a0 a1 s h0
  unfold serveMessage
  repeat' with_reducible first
    | assumption | rfl | intro _ | apply mgmtSend_sound | apply serveVendor_sound | refine sound_parts ?_ ?_ ?_
    | dsimp only [sound_mk_eq] | split

theorem execMgmtHeartbeat_sound {p : Part} : ∀ s, Sound p s → SoundAnswer p (execMgmtHeartbeat s) := by
  intro s h0
  unfold execMgmtHeartbeat
  repeat' with_reducible first
    | assumption | rfl | intro _ | apply updMgmt_sound | apply soundAnswer_next | apply soundAnswer_fault
    | refine sound_parts ?_ ?_ ?_ | dsimp only [sound_mk_eq] | split

theorem serveControl_sound {p : Part} : ∀ a0 s, Sound p s → Sound p (serveControl a0 s) := by
  intro a0 s h0
  unfold serveControl
  repeat' with_reducible first
    | assumption | rfl | intro _ | apply mgmtSend_sound | apply updMgmt_sound

theorem controlGated_sound {p : Part} : ∀ a0 s, Sound p s → Sound p (controlGated a0 s) := by
  intro a0 s h0
  unfold controlGated
  repeat' with_reducible first
    | assumption | rfl | intro _ | apply mgmtBusy_sound | apply queueRequest_sound | apply serveControl_sound
    | apply updMgmt_sound | refine sound_parts ?_ ?_ ?_ | refine sound_of_snd_snd (by assumption) ?_
    | refine sound_of_snd (by assumption) ?_ | dsimp only [sound_mk_eq] | split

theorem execMctpControl_sound {p : Part} : ∀ a0 a1 s, Sound p s → SoundAnswer p (execMctpControl a0 a1 s) := by
  intro a0 a1 s h0
  unfold execMctpControl
  repeat' with_reducible first
    | assumption | rfl | intro _ | apply controlGated_sound | apply moduleReset_sound | apply vendorGated_sound
    | apply serveMessage_sound | apply soundAnswer_next | apply soundAnswer_fault | refine sound_parts ?_ ?_ ?_
    | dsimp only [sound_mk_eq] | split

theorem serveQueued_sound {p : Part} : ∀ a0 s, Sound p s → Sound p (serveQueued a0 s) := by
  intro a0 s h0
  unfold serveQueued
  repeat' with_reducible first
    | assumption | rfl | intro _ | apply serveMessage_sound | apply serveControl_sound | apply serveSpdm_sound
    | refine sound_parts ?_ ?_ ?_ | refine sound_of_snd_snd (by assumption) ?_ | refine sound_of_snd (by assumption) ?_
    | dsimp only [sound_mk_eq] | split

theorem execMgmtResponse_sound {p : Part} : ∀ s, Sound p s → SoundAnswer p (execMgmtResponse s) := by
  intro s h0
  unfold execMgmtResponse
  repeat' with_reducible first
    | assumption | rfl | intro _ | apply serveQueued_sound | apply updMgmt_sound | apply soundAnswer_next
    | apply soundAnswer_fault | refine sound_parts ?_ ?_ ?_ | refine sound_of_snd_snd (by assumption) ?_
    | refine sound_of_snd (by assumption) ?_ | dsimp only [sound_mk_eq] | split

end Sys2Proof.Machine
end

