-- ==== Sys2Proof/Laws/Sound/ScalerLevels.lean ====
section
/-!
SUPPORT. Laws/Sound/ScalerLevels.lean: what Machine/ScalerLevels.lean does keeps a state sound (Sys2Proof.Sound): memory canonical, the record
queue bounded, the part unchanged.
-/

namespace Sys2Proof.Machine

theorem execScalerSample_sound {p : Part} : ∀ a0 a1 s, Sound p s → SoundAnswer p (execScalerSample a0 a1 s) := by
  intro a0 a1 s h0
  unfold execScalerSample
  repeat' with_reducible first
    | assumption | rfl | intro _ | apply updChannel_sound | apply soundAnswer_next

end Sys2Proof.Machine
end

