-- ==== Sys2Proof/Laws/State.lean ====
section
/-!
SUPPORT. Laws/State.lean: what each named update of the state leaves in each field, so that no later proof unfolds a record update.
-/

namespace Sys2Proof.Machine

/-! ### updDeck -/

@[simp] theorem updDeck_pending (g : Nat) (f : DeckUnit → DeckUnit) (s : State) : (updDeck g f s).pending = s.pending := rfl
@[simp] theorem updDeck_now (g : Nat) (f : DeckUnit → DeckUnit) (s : State) : (updDeck g f s).now = s.now := rfl
@[simp] theorem updDeck_freeCount (g : Nat) (f : DeckUnit → DeckUnit) (s : State) : (updDeck g f s).freeCount = s.freeCount := rfl
@[simp] theorem updDeck_part (g : Nat) (f : DeckUnit → DeckUnit) (s : State) : (updDeck g f s).part = s.part := rfl
@[simp] theorem updDeck_boot (g : Nat) (f : DeckUnit → DeckUnit) (s : State) : (updDeck g f s).boot = s.boot := rfl
@[simp] theorem updDeck_life (g : Nat) (f : DeckUnit → DeckUnit) (s : State) : (updDeck g f s).life = s.life := rfl
@[simp] theorem updDeck_cfg (g : Nat) (f : DeckUnit → DeckUnit) (s : State) : (updDeck g f s).cfg = s.cfg := rfl
@[simp] theorem updDeck_roles (g : Nat) (f : DeckUnit → DeckUnit) (s : State) : (updDeck g f s).roles = s.roles := rfl
@[simp] theorem updDeck_groveResets (g : Nat) (f : DeckUnit → DeckUnit) (s : State) : (updDeck g f s).groveResets = s.groveResets := rfl
@[simp] theorem updDeck_mem (g : Nat) (f : DeckUnit → DeckUnit) (s : State) : (updDeck g f s).mem = s.mem := rfl
@[simp] theorem updDeck_scratch (g : Nat) (f : DeckUnit → DeckUnit) (s : State) : (updDeck g f s).scratch = s.scratch := rfl
@[simp] theorem updDeck_benches (g : Nat) (f : DeckUnit → DeckUnit) (s : State) : (updDeck g f s).benches = s.benches := rfl
@[simp] theorem updDeck_decks (g : Nat) (f : DeckUnit → DeckUnit) (s : State) : (updDeck g f s).decks = s.decks.update {} g f := rfl
@[simp] theorem updDeck_rings (g : Nat) (f : DeckUnit → DeckUnit) (s : State) : (updDeck g f s).rings = s.rings := rfl
@[simp] theorem updDeck_tasks (g : Nat) (f : DeckUnit → DeckUnit) (s : State) : (updDeck g f s).tasks = s.tasks := rfl
@[simp] theorem updDeck_groups (g : Nat) (f : DeckUnit → DeckUnit) (s : State) : (updDeck g f s).groups = s.groups := rfl
@[simp] theorem updDeck_stageTurns (g : Nat) (f : DeckUnit → DeckUnit) (s : State) : (updDeck g f s).stageTurns = s.stageTurns := rfl
@[simp] theorem updDeck_issueTurns (g : Nat) (f : DeckUnit → DeckUnit) (s : State) : (updDeck g f s).issueTurns = s.issueTurns := rfl
@[simp] theorem updDeck_tallyIssued (g : Nat) (f : DeckUnit → DeckUnit) (s : State) : (updDeck g f s).tallyIssued = s.tallyIssued := rfl
@[simp] theorem updDeck_tier (g : Nat) (f : DeckUnit → DeckUnit) (s : State) : (updDeck g f s).tier = s.tier := rfl
@[simp] theorem updDeck_tu (g : Nat) (f : DeckUnit → DeckUnit) (s : State) : (updDeck g f s).tu = s.tu := rfl
@[simp] theorem updDeck_stakes (g : Nat) (f : DeckUnit → DeckUnit) (s : State) : (updDeck g f s).stakes = s.stakes := rfl
@[simp] theorem updDeck_opLines (g : Nat) (f : DeckUnit → DeckUnit) (s : State) : (updDeck g f s).opLines = s.opLines := rfl
@[simp] theorem updDeck_scatAdds (g : Nat) (f : DeckUnit → DeckUnit) (s : State) : (updDeck g f s).scatAdds = s.scatAdds := rfl
@[simp] theorem updDeck_outsideWrites (g : Nat) (f : DeckUnit → DeckUnit) (s : State) : (updDeck g f s).outsideWrites = s.outsideWrites := rfl
@[simp] theorem updDeck_opRegs (g : Nat) (f : DeckUnit → DeckUnit) (s : State) : (updDeck g f s).opRegs = s.opRegs := rfl
@[simp] theorem updDeck_hartContext (g : Nat) (f : DeckUnit → DeckUnit) (s : State) : (updDeck g f s).hartContext = s.hartContext := rfl
@[simp] theorem updDeck_kerf (g : Nat) (f : DeckUnit → DeckUnit) (s : State) : (updDeck g f s).kerf = s.kerf := rfl
@[simp] theorem updDeck_fabric (g : Nat) (f : DeckUnit → DeckUnit) (s : State) : (updDeck g f s).fabric = s.fabric := rfl
@[simp] theorem updDeck_power (g : Nat) (f : DeckUnit → DeckUnit) (s : State) : (updDeck g f s).power = s.power := rfl
@[simp] theorem updDeck_landing (g : Nat) (f : DeckUnit → DeckUnit) (s : State) : (updDeck g f s).landing = s.landing := rfl
@[simp] theorem updDeck_mgmt (g : Nat) (f : DeckUnit → DeckUnit) (s : State) : (updDeck g f s).mgmt = s.mgmt := rfl
@[simp] theorem updDeck_err (g : Nat) (f : DeckUnit → DeckUnit) (s : State) : (updDeck g f s).err = s.err := rfl
@[simp] theorem updDeck_scaler (g : Nat) (f : DeckUnit → DeckUnit) (s : State) : (updDeck g f s).scaler = s.scaler := rfl

/-! ### updErr -/

@[simp] theorem updErr_pending (f : ErrBlock → ErrBlock) (s : State) : (updErr f s).pending = s.pending := rfl
@[simp] theorem updErr_now (f : ErrBlock → ErrBlock) (s : State) : (updErr f s).now = s.now := rfl
@[simp] theorem updErr_freeCount (f : ErrBlock → ErrBlock) (s : State) : (updErr f s).freeCount = s.freeCount := rfl
@[simp] theorem updErr_part (f : ErrBlock → ErrBlock) (s : State) : (updErr f s).part = s.part := rfl
@[simp] theorem updErr_boot (f : ErrBlock → ErrBlock) (s : State) : (updErr f s).boot = s.boot := rfl
@[simp] theorem updErr_life (f : ErrBlock → ErrBlock) (s : State) : (updErr f s).life = s.life := rfl
@[simp] theorem updErr_cfg (f : ErrBlock → ErrBlock) (s : State) : (updErr f s).cfg = s.cfg := rfl
@[simp] theorem updErr_roles (f : ErrBlock → ErrBlock) (s : State) : (updErr f s).roles = s.roles := rfl
@[simp] theorem updErr_groveResets (f : ErrBlock → ErrBlock) (s : State) : (updErr f s).groveResets = s.groveResets := rfl
@[simp] theorem updErr_mem (f : ErrBlock → ErrBlock) (s : State) : (updErr f s).mem = s.mem := rfl
@[simp] theorem updErr_scratch (f : ErrBlock → ErrBlock) (s : State) : (updErr f s).scratch = s.scratch := rfl
@[simp] theorem updErr_benches (f : ErrBlock → ErrBlock) (s : State) : (updErr f s).benches = s.benches := rfl
@[simp] theorem updErr_decks (f : ErrBlock → ErrBlock) (s : State) : (updErr f s).decks = s.decks := rfl
@[simp] theorem updErr_rings (f : ErrBlock → ErrBlock) (s : State) : (updErr f s).rings = s.rings := rfl
@[simp] theorem updErr_tasks (f : ErrBlock → ErrBlock) (s : State) : (updErr f s).tasks = s.tasks := rfl
@[simp] theorem updErr_groups (f : ErrBlock → ErrBlock) (s : State) : (updErr f s).groups = s.groups := rfl
@[simp] theorem updErr_stageTurns (f : ErrBlock → ErrBlock) (s : State) : (updErr f s).stageTurns = s.stageTurns := rfl
@[simp] theorem updErr_issueTurns (f : ErrBlock → ErrBlock) (s : State) : (updErr f s).issueTurns = s.issueTurns := rfl
@[simp] theorem updErr_tallyIssued (f : ErrBlock → ErrBlock) (s : State) : (updErr f s).tallyIssued = s.tallyIssued := rfl
@[simp] theorem updErr_tier (f : ErrBlock → ErrBlock) (s : State) : (updErr f s).tier = s.tier := rfl
@[simp] theorem updErr_tu (f : ErrBlock → ErrBlock) (s : State) : (updErr f s).tu = s.tu := rfl
@[simp] theorem updErr_stakes (f : ErrBlock → ErrBlock) (s : State) : (updErr f s).stakes = s.stakes := rfl
@[simp] theorem updErr_opLines (f : ErrBlock → ErrBlock) (s : State) : (updErr f s).opLines = s.opLines := rfl
@[simp] theorem updErr_scatAdds (f : ErrBlock → ErrBlock) (s : State) : (updErr f s).scatAdds = s.scatAdds := rfl
@[simp] theorem updErr_outsideWrites (f : ErrBlock → ErrBlock) (s : State) : (updErr f s).outsideWrites = s.outsideWrites := rfl
@[simp] theorem updErr_opRegs (f : ErrBlock → ErrBlock) (s : State) : (updErr f s).opRegs = s.opRegs := rfl
@[simp] theorem updErr_hartContext (f : ErrBlock → ErrBlock) (s : State) : (updErr f s).hartContext = s.hartContext := rfl
@[simp] theorem updErr_kerf (f : ErrBlock → ErrBlock) (s : State) : (updErr f s).kerf = s.kerf := rfl
@[simp] theorem updErr_fabric (f : ErrBlock → ErrBlock) (s : State) : (updErr f s).fabric = s.fabric := rfl
@[simp] theorem updErr_power (f : ErrBlock → ErrBlock) (s : State) : (updErr f s).power = s.power := rfl
@[simp] theorem updErr_landing (f : ErrBlock → ErrBlock) (s : State) : (updErr f s).landing = s.landing := rfl
@[simp] theorem updErr_mgmt (f : ErrBlock → ErrBlock) (s : State) : (updErr f s).mgmt = s.mgmt := rfl
@[simp] theorem updErr_err (f : ErrBlock → ErrBlock) (s : State) : (updErr f s).err = f s.err := rfl
@[simp] theorem updErr_scaler (f : ErrBlock → ErrBlock) (s : State) : (updErr f s).scaler = s.scaler := rfl

/-! ### updSlot -/

@[simp] theorem updSlot_pending (k : Nat) (f : InjSlot → InjSlot) (s : State) : (updSlot k f s).pending = s.pending := rfl
@[simp] theorem updSlot_now (k : Nat) (f : InjSlot → InjSlot) (s : State) : (updSlot k f s).now = s.now := rfl
@[simp] theorem updSlot_freeCount (k : Nat) (f : InjSlot → InjSlot) (s : State) : (updSlot k f s).freeCount = s.freeCount := rfl
@[simp] theorem updSlot_part (k : Nat) (f : InjSlot → InjSlot) (s : State) : (updSlot k f s).part = s.part := rfl
@[simp] theorem updSlot_boot (k : Nat) (f : InjSlot → InjSlot) (s : State) : (updSlot k f s).boot = s.boot := rfl
@[simp] theorem updSlot_life (k : Nat) (f : InjSlot → InjSlot) (s : State) : (updSlot k f s).life = s.life := rfl
@[simp] theorem updSlot_cfg (k : Nat) (f : InjSlot → InjSlot) (s : State) : (updSlot k f s).cfg = s.cfg := rfl
@[simp] theorem updSlot_roles (k : Nat) (f : InjSlot → InjSlot) (s : State) : (updSlot k f s).roles = s.roles := rfl
@[simp] theorem updSlot_groveResets (k : Nat) (f : InjSlot → InjSlot) (s : State) : (updSlot k f s).groveResets = s.groveResets := rfl
@[simp] theorem updSlot_mem (k : Nat) (f : InjSlot → InjSlot) (s : State) : (updSlot k f s).mem = s.mem := rfl
@[simp] theorem updSlot_scratch (k : Nat) (f : InjSlot → InjSlot) (s : State) : (updSlot k f s).scratch = s.scratch := rfl
@[simp] theorem updSlot_benches (k : Nat) (f : InjSlot → InjSlot) (s : State) : (updSlot k f s).benches = s.benches := rfl
@[simp] theorem updSlot_decks (k : Nat) (f : InjSlot → InjSlot) (s : State) : (updSlot k f s).decks = s.decks := rfl
@[simp] theorem updSlot_rings (k : Nat) (f : InjSlot → InjSlot) (s : State) : (updSlot k f s).rings = s.rings := rfl
@[simp] theorem updSlot_tasks (k : Nat) (f : InjSlot → InjSlot) (s : State) : (updSlot k f s).tasks = s.tasks := rfl
@[simp] theorem updSlot_groups (k : Nat) (f : InjSlot → InjSlot) (s : State) : (updSlot k f s).groups = s.groups := rfl
@[simp] theorem updSlot_stageTurns (k : Nat) (f : InjSlot → InjSlot) (s : State) : (updSlot k f s).stageTurns = s.stageTurns := rfl
@[simp] theorem updSlot_issueTurns (k : Nat) (f : InjSlot → InjSlot) (s : State) : (updSlot k f s).issueTurns = s.issueTurns := rfl
@[simp] theorem updSlot_tallyIssued (k : Nat) (f : InjSlot → InjSlot) (s : State) : (updSlot k f s).tallyIssued = s.tallyIssued := rfl
@[simp] theorem updSlot_tier (k : Nat) (f : InjSlot → InjSlot) (s : State) : (updSlot k f s).tier = s.tier := rfl
@[simp] theorem updSlot_tu (k : Nat) (f : InjSlot → InjSlot) (s : State) : (updSlot k f s).tu = s.tu := rfl
@[simp] theorem updSlot_stakes (k : Nat) (f : InjSlot → InjSlot) (s : State) : (updSlot k f s).stakes = s.stakes := rfl
@[simp] theorem updSlot_opLines (k : Nat) (f : InjSlot → InjSlot) (s : State) : (updSlot k f s).opLines = s.opLines := rfl
@[simp] theorem updSlot_scatAdds (k : Nat) (f : InjSlot → InjSlot) (s : State) : (updSlot k f s).scatAdds = s.scatAdds := rfl
@[simp] theorem updSlot_outsideWrites (k : Nat) (f : InjSlot → InjSlot) (s : State) : (updSlot k f s).outsideWrites = s.outsideWrites := rfl
@[simp] theorem updSlot_opRegs (k : Nat) (f : InjSlot → InjSlot) (s : State) : (updSlot k f s).opRegs = s.opRegs := rfl
@[simp] theorem updSlot_hartContext (k : Nat) (f : InjSlot → InjSlot) (s : State) : (updSlot k f s).hartContext = s.hartContext := rfl
@[simp] theorem updSlot_kerf (k : Nat) (f : InjSlot → InjSlot) (s : State) : (updSlot k f s).kerf = s.kerf := rfl
@[simp] theorem updSlot_fabric (k : Nat) (f : InjSlot → InjSlot) (s : State) : (updSlot k f s).fabric = s.fabric := rfl
@[simp] theorem updSlot_power (k : Nat) (f : InjSlot → InjSlot) (s : State) : (updSlot k f s).power = s.power := rfl
@[simp] theorem updSlot_landing (k : Nat) (f : InjSlot → InjSlot) (s : State) : (updSlot k f s).landing = s.landing := rfl
@[simp] theorem updSlot_mgmt (k : Nat) (f : InjSlot → InjSlot) (s : State) : (updSlot k f s).mgmt = s.mgmt := rfl
@[simp] theorem updSlot_err (k : Nat) (f : InjSlot → InjSlot) (s : State) : (updSlot k f s).err = { s.err with inj := s.err.inj.update {} k f } := rfl
@[simp] theorem updSlot_scaler (k : Nat) (f : InjSlot → InjSlot) (s : State) : (updSlot k f s).scaler = s.scaler := rfl

/-! ### updPort -/

@[simp] theorem updPort_pending (p : Nat) (f : Port → Port) (s : State) : (updPort p f s).pending = s.pending := rfl
@[simp] theorem updPort_now (p : Nat) (f : Port → Port) (s : State) : (updPort p f s).now = s.now := rfl
@[simp] theorem updPort_freeCount (p : Nat) (f : Port → Port) (s : State) : (updPort p f s).freeCount = s.freeCount := rfl
@[simp] theorem updPort_part (p : Nat) (f : Port → Port) (s : State) : (updPort p f s).part = s.part := rfl
@[simp] theorem updPort_boot (p : Nat) (f : Port → Port) (s : State) : (updPort p f s).boot = s.boot := rfl
@[simp] theorem updPort_life (p : Nat) (f : Port → Port) (s : State) : (updPort p f s).life = s.life := rfl
@[simp] theorem updPort_cfg (p : Nat) (f : Port → Port) (s : State) : (updPort p f s).cfg = s.cfg := rfl
@[simp] theorem updPort_roles (p : Nat) (f : Port → Port) (s : State) : (updPort p f s).roles = s.roles := rfl
@[simp] theorem updPort_groveResets (p : Nat) (f : Port → Port) (s : State) : (updPort p f s).groveResets = s.groveResets := rfl
@[simp] theorem updPort_mem (p : Nat) (f : Port → Port) (s : State) : (updPort p f s).mem = s.mem := rfl
@[simp] theorem updPort_scratch (p : Nat) (f : Port → Port) (s : State) : (updPort p f s).scratch = s.scratch := rfl
@[simp] theorem updPort_benches (p : Nat) (f : Port → Port) (s : State) : (updPort p f s).benches = s.benches := rfl
@[simp] theorem updPort_decks (p : Nat) (f : Port → Port) (s : State) : (updPort p f s).decks = s.decks := rfl
@[simp] theorem updPort_rings (p : Nat) (f : Port → Port) (s : State) : (updPort p f s).rings = s.rings := rfl
@[simp] theorem updPort_tasks (p : Nat) (f : Port → Port) (s : State) : (updPort p f s).tasks = s.tasks := rfl
@[simp] theorem updPort_groups (p : Nat) (f : Port → Port) (s : State) : (updPort p f s).groups = s.groups := rfl
@[simp] theorem updPort_stageTurns (p : Nat) (f : Port → Port) (s : State) : (updPort p f s).stageTurns = s.stageTurns := rfl
@[simp] theorem updPort_issueTurns (p : Nat) (f : Port → Port) (s : State) : (updPort p f s).issueTurns = s.issueTurns := rfl
@[simp] theorem updPort_tallyIssued (p : Nat) (f : Port → Port) (s : State) : (updPort p f s).tallyIssued = s.tallyIssued := rfl
@[simp] theorem updPort_tier (p : Nat) (f : Port → Port) (s : State) : (updPort p f s).tier = s.tier := rfl
@[simp] theorem updPort_tu (p : Nat) (f : Port → Port) (s : State) : (updPort p f s).tu = s.tu := rfl
@[simp] theorem updPort_stakes (p : Nat) (f : Port → Port) (s : State) : (updPort p f s).stakes = s.stakes := rfl
@[simp] theorem updPort_opLines (p : Nat) (f : Port → Port) (s : State) : (updPort p f s).opLines = s.opLines := rfl
@[simp] theorem updPort_scatAdds (p : Nat) (f : Port → Port) (s : State) : (updPort p f s).scatAdds = s.scatAdds := rfl
@[simp] theorem updPort_outsideWrites (p : Nat) (f : Port → Port) (s : State) : (updPort p f s).outsideWrites = s.outsideWrites := rfl
@[simp] theorem updPort_opRegs (p : Nat) (f : Port → Port) (s : State) : (updPort p f s).opRegs = s.opRegs := rfl
@[simp] theorem updPort_hartContext (p : Nat) (f : Port → Port) (s : State) : (updPort p f s).hartContext = s.hartContext := rfl
@[simp] theorem updPort_kerf (p : Nat) (f : Port → Port) (s : State) : (updPort p f s).kerf = s.kerf := rfl
@[simp] theorem updPort_fabric (p : Nat) (f : Port → Port) (s : State) : (updPort p f s).fabric = { s.fabric with ports := s.fabric.ports.update {} p f } := rfl
@[simp] theorem updPort_power (p : Nat) (f : Port → Port) (s : State) : (updPort p f s).power = s.power := rfl
@[simp] theorem updPort_landing (p : Nat) (f : Port → Port) (s : State) : (updPort p f s).landing = s.landing := rfl
@[simp] theorem updPort_mgmt (p : Nat) (f : Port → Port) (s : State) : (updPort p f s).mgmt = s.mgmt := rfl
@[simp] theorem updPort_err (p : Nat) (f : Port → Port) (s : State) : (updPort p f s).err = s.err := rfl
@[simp] theorem updPort_scaler (p : Nat) (f : Port → Port) (s : State) : (updPort p f s).scaler = s.scaler := rfl

/-! ### updFabric -/

@[simp] theorem updFabric_pending (f : FabricBlock → FabricBlock) (s : State) : (updFabric f s).pending = s.pending := rfl
@[simp] theorem updFabric_now (f : FabricBlock → FabricBlock) (s : State) : (updFabric f s).now = s.now := rfl
@[simp] theorem updFabric_freeCount (f : FabricBlock → FabricBlock) (s : State) : (updFabric f s).freeCount = s.freeCount := rfl
@[simp] theorem updFabric_part (f : FabricBlock → FabricBlock) (s : State) : (updFabric f s).part = s.part := rfl
@[simp] theorem updFabric_boot (f : FabricBlock → FabricBlock) (s : State) : (updFabric f s).boot = s.boot := rfl
@[simp] theorem updFabric_life (f : FabricBlock → FabricBlock) (s : State) : (updFabric f s).life = s.life := rfl
@[simp] theorem updFabric_cfg (f : FabricBlock → FabricBlock) (s : State) : (updFabric f s).cfg = s.cfg := rfl
@[simp] theorem updFabric_roles (f : FabricBlock → FabricBlock) (s : State) : (updFabric f s).roles = s.roles := rfl
@[simp] theorem updFabric_groveResets (f : FabricBlock → FabricBlock) (s : State) : (updFabric f s).groveResets = s.groveResets := rfl
@[simp] theorem updFabric_mem (f : FabricBlock → FabricBlock) (s : State) : (updFabric f s).mem = s.mem := rfl
@[simp] theorem updFabric_scratch (f : FabricBlock → FabricBlock) (s : State) : (updFabric f s).scratch = s.scratch := rfl
@[simp] theorem updFabric_benches (f : FabricBlock → FabricBlock) (s : State) : (updFabric f s).benches = s.benches := rfl
@[simp] theorem updFabric_decks (f : FabricBlock → FabricBlock) (s : State) : (updFabric f s).decks = s.decks := rfl
@[simp] theorem updFabric_rings (f : FabricBlock → FabricBlock) (s : State) : (updFabric f s).rings = s.rings := rfl
@[simp] theorem updFabric_tasks (f : FabricBlock → FabricBlock) (s : State) : (updFabric f s).tasks = s.tasks := rfl
@[simp] theorem updFabric_groups (f : FabricBlock → FabricBlock) (s : State) : (updFabric f s).groups = s.groups := rfl
@[simp] theorem updFabric_stageTurns (f : FabricBlock → FabricBlock) (s : State) : (updFabric f s).stageTurns = s.stageTurns := rfl
@[simp] theorem updFabric_issueTurns (f : FabricBlock → FabricBlock) (s : State) : (updFabric f s).issueTurns = s.issueTurns := rfl
@[simp] theorem updFabric_tallyIssued (f : FabricBlock → FabricBlock) (s : State) : (updFabric f s).tallyIssued = s.tallyIssued := rfl
@[simp] theorem updFabric_tier (f : FabricBlock → FabricBlock) (s : State) : (updFabric f s).tier = s.tier := rfl
@[simp] theorem updFabric_tu (f : FabricBlock → FabricBlock) (s : State) : (updFabric f s).tu = s.tu := rfl
@[simp] theorem updFabric_stakes (f : FabricBlock → FabricBlock) (s : State) : (updFabric f s).stakes = s.stakes := rfl
@[simp] theorem updFabric_opLines (f : FabricBlock → FabricBlock) (s : State) : (updFabric f s).opLines = s.opLines := rfl
@[simp] theorem updFabric_scatAdds (f : FabricBlock → FabricBlock) (s : State) : (updFabric f s).scatAdds = s.scatAdds := rfl
@[simp] theorem updFabric_outsideWrites (f : FabricBlock → FabricBlock) (s : State) : (updFabric f s).outsideWrites = s.outsideWrites := rfl
@[simp] theorem updFabric_opRegs (f : FabricBlock → FabricBlock) (s : State) : (updFabric f s).opRegs = s.opRegs := rfl
@[simp] theorem updFabric_hartContext (f : FabricBlock → FabricBlock) (s : State) : (updFabric f s).hartContext = s.hartContext := rfl
@[simp] theorem updFabric_kerf (f : FabricBlock → FabricBlock) (s : State) : (updFabric f s).kerf = s.kerf := rfl
@[simp] theorem updFabric_fabric (f : FabricBlock → FabricBlock) (s : State) : (updFabric f s).fabric = f s.fabric := rfl
@[simp] theorem updFabric_power (f : FabricBlock → FabricBlock) (s : State) : (updFabric f s).power = s.power := rfl
@[simp] theorem updFabric_landing (f : FabricBlock → FabricBlock) (s : State) : (updFabric f s).landing = s.landing := rfl
@[simp] theorem updFabric_mgmt (f : FabricBlock → FabricBlock) (s : State) : (updFabric f s).mgmt = s.mgmt := rfl
@[simp] theorem updFabric_err (f : FabricBlock → FabricBlock) (s : State) : (updFabric f s).err = s.err := rfl
@[simp] theorem updFabric_scaler (f : FabricBlock → FabricBlock) (s : State) : (updFabric f s).scaler = s.scaler := rfl

/-! ### updWindow -/

@[simp] theorem updWindow_pending (w : Nat) (f : Window → Window) (s : State) : (updWindow w f s).pending = s.pending := rfl
@[simp] theorem updWindow_now (w : Nat) (f : Window → Window) (s : State) : (updWindow w f s).now = s.now := rfl
@[simp] theorem updWindow_freeCount (w : Nat) (f : Window → Window) (s : State) : (updWindow w f s).freeCount = s.freeCount := rfl
@[simp] theorem updWindow_part (w : Nat) (f : Window → Window) (s : State) : (updWindow w f s).part = s.part := rfl
@[simp] theorem updWindow_boot (w : Nat) (f : Window → Window) (s : State) : (updWindow w f s).boot = s.boot := rfl
@[simp] theorem updWindow_life (w : Nat) (f : Window → Window) (s : State) : (updWindow w f s).life = s.life := rfl
@[simp] theorem updWindow_cfg (w : Nat) (f : Window → Window) (s : State) : (updWindow w f s).cfg = s.cfg := rfl
@[simp] theorem updWindow_roles (w : Nat) (f : Window → Window) (s : State) : (updWindow w f s).roles = s.roles := rfl
@[simp] theorem updWindow_groveResets (w : Nat) (f : Window → Window) (s : State) : (updWindow w f s).groveResets = s.groveResets := rfl
@[simp] theorem updWindow_mem (w : Nat) (f : Window → Window) (s : State) : (updWindow w f s).mem = s.mem := rfl
@[simp] theorem updWindow_scratch (w : Nat) (f : Window → Window) (s : State) : (updWindow w f s).scratch = s.scratch := rfl
@[simp] theorem updWindow_benches (w : Nat) (f : Window → Window) (s : State) : (updWindow w f s).benches = s.benches := rfl
@[simp] theorem updWindow_decks (w : Nat) (f : Window → Window) (s : State) : (updWindow w f s).decks = s.decks := rfl
@[simp] theorem updWindow_rings (w : Nat) (f : Window → Window) (s : State) : (updWindow w f s).rings = s.rings := rfl
@[simp] theorem updWindow_tasks (w : Nat) (f : Window → Window) (s : State) : (updWindow w f s).tasks = s.tasks := rfl
@[simp] theorem updWindow_groups (w : Nat) (f : Window → Window) (s : State) : (updWindow w f s).groups = s.groups := rfl
@[simp] theorem updWindow_stageTurns (w : Nat) (f : Window → Window) (s : State) : (updWindow w f s).stageTurns = s.stageTurns := rfl
@[simp] theorem updWindow_issueTurns (w : Nat) (f : Window → Window) (s : State) : (updWindow w f s).issueTurns = s.issueTurns := rfl
@[simp] theorem updWindow_tallyIssued (w : Nat) (f : Window → Window) (s : State) : (updWindow w f s).tallyIssued = s.tallyIssued := rfl
@[simp] theorem updWindow_tier (w : Nat) (f : Window → Window) (s : State) : (updWindow w f s).tier = s.tier := rfl
@[simp] theorem updWindow_tu (w : Nat) (f : Window → Window) (s : State) : (updWindow w f s).tu = s.tu := rfl
@[simp] theorem updWindow_stakes (w : Nat) (f : Window → Window) (s : State) : (updWindow w f s).stakes = s.stakes := rfl
@[simp] theorem updWindow_opLines (w : Nat) (f : Window → Window) (s : State) : (updWindow w f s).opLines = s.opLines := rfl
@[simp] theorem updWindow_scatAdds (w : Nat) (f : Window → Window) (s : State) : (updWindow w f s).scatAdds = s.scatAdds := rfl
@[simp] theorem updWindow_outsideWrites (w : Nat) (f : Window → Window) (s : State) : (updWindow w f s).outsideWrites = s.outsideWrites := rfl
@[simp] theorem updWindow_opRegs (w : Nat) (f : Window → Window) (s : State) : (updWindow w f s).opRegs = s.opRegs := rfl
@[simp] theorem updWindow_hartContext (w : Nat) (f : Window → Window) (s : State) : (updWindow w f s).hartContext = s.hartContext := rfl
@[simp] theorem updWindow_kerf (w : Nat) (f : Window → Window) (s : State) : (updWindow w f s).kerf = s.kerf := rfl
@[simp] theorem updWindow_fabric (w : Nat) (f : Window → Window) (s : State) : (updWindow w f s).fabric = { s.fabric with windows := s.fabric.windows.update {} w f } := rfl
@[simp] theorem updWindow_power (w : Nat) (f : Window → Window) (s : State) : (updWindow w f s).power = s.power := rfl
@[simp] theorem updWindow_landing (w : Nat) (f : Window → Window) (s : State) : (updWindow w f s).landing = s.landing := rfl
@[simp] theorem updWindow_mgmt (w : Nat) (f : Window → Window) (s : State) : (updWindow w f s).mgmt = s.mgmt := rfl
@[simp] theorem updWindow_err (w : Nat) (f : Window → Window) (s : State) : (updWindow w f s).err = s.err := rfl
@[simp] theorem updWindow_scaler (w : Nat) (f : Window → Window) (s : State) : (updWindow w f s).scaler = s.scaler := rfl

/-! ### updLanding -/

@[simp] theorem updLanding_pending (f : LandingBlock → LandingBlock) (s : State) : (updLanding f s).pending = s.pending := rfl
@[simp] theorem updLanding_now (f : LandingBlock → LandingBlock) (s : State) : (updLanding f s).now = s.now := rfl
@[simp] theorem updLanding_freeCount (f : LandingBlock → LandingBlock) (s : State) : (updLanding f s).freeCount = s.freeCount := rfl
@[simp] theorem updLanding_part (f : LandingBlock → LandingBlock) (s : State) : (updLanding f s).part = s.part := rfl
@[simp] theorem updLanding_boot (f : LandingBlock → LandingBlock) (s : State) : (updLanding f s).boot = s.boot := rfl
@[simp] theorem updLanding_life (f : LandingBlock → LandingBlock) (s : State) : (updLanding f s).life = s.life := rfl
@[simp] theorem updLanding_cfg (f : LandingBlock → LandingBlock) (s : State) : (updLanding f s).cfg = s.cfg := rfl
@[simp] theorem updLanding_roles (f : LandingBlock → LandingBlock) (s : State) : (updLanding f s).roles = s.roles := rfl
@[simp] theorem updLanding_groveResets (f : LandingBlock → LandingBlock) (s : State) : (updLanding f s).groveResets = s.groveResets := rfl
@[simp] theorem updLanding_mem (f : LandingBlock → LandingBlock) (s : State) : (updLanding f s).mem = s.mem := rfl
@[simp] theorem updLanding_scratch (f : LandingBlock → LandingBlock) (s : State) : (updLanding f s).scratch = s.scratch := rfl
@[simp] theorem updLanding_benches (f : LandingBlock → LandingBlock) (s : State) : (updLanding f s).benches = s.benches := rfl
@[simp] theorem updLanding_decks (f : LandingBlock → LandingBlock) (s : State) : (updLanding f s).decks = s.decks := rfl
@[simp] theorem updLanding_rings (f : LandingBlock → LandingBlock) (s : State) : (updLanding f s).rings = s.rings := rfl
@[simp] theorem updLanding_tasks (f : LandingBlock → LandingBlock) (s : State) : (updLanding f s).tasks = s.tasks := rfl
@[simp] theorem updLanding_groups (f : LandingBlock → LandingBlock) (s : State) : (updLanding f s).groups = s.groups := rfl
@[simp] theorem updLanding_stageTurns (f : LandingBlock → LandingBlock) (s : State) : (updLanding f s).stageTurns = s.stageTurns := rfl
@[simp] theorem updLanding_issueTurns (f : LandingBlock → LandingBlock) (s : State) : (updLanding f s).issueTurns = s.issueTurns := rfl
@[simp] theorem updLanding_tallyIssued (f : LandingBlock → LandingBlock) (s : State) : (updLanding f s).tallyIssued = s.tallyIssued := rfl
@[simp] theorem updLanding_tier (f : LandingBlock → LandingBlock) (s : State) : (updLanding f s).tier = s.tier := rfl
@[simp] theorem updLanding_tu (f : LandingBlock → LandingBlock) (s : State) : (updLanding f s).tu = s.tu := rfl
@[simp] theorem updLanding_stakes (f : LandingBlock → LandingBlock) (s : State) : (updLanding f s).stakes = s.stakes := rfl
@[simp] theorem updLanding_opLines (f : LandingBlock → LandingBlock) (s : State) : (updLanding f s).opLines = s.opLines := rfl
@[simp] theorem updLanding_scatAdds (f : LandingBlock → LandingBlock) (s : State) : (updLanding f s).scatAdds = s.scatAdds := rfl
@[simp] theorem updLanding_outsideWrites (f : LandingBlock → LandingBlock) (s : State) : (updLanding f s).outsideWrites = s.outsideWrites := rfl
@[simp] theorem updLanding_opRegs (f : LandingBlock → LandingBlock) (s : State) : (updLanding f s).opRegs = s.opRegs := rfl
@[simp] theorem updLanding_hartContext (f : LandingBlock → LandingBlock) (s : State) : (updLanding f s).hartContext = s.hartContext := rfl
@[simp] theorem updLanding_kerf (f : LandingBlock → LandingBlock) (s : State) : (updLanding f s).kerf = s.kerf := rfl
@[simp] theorem updLanding_fabric (f : LandingBlock → LandingBlock) (s : State) : (updLanding f s).fabric = s.fabric := rfl
@[simp] theorem updLanding_power (f : LandingBlock → LandingBlock) (s : State) : (updLanding f s).power = s.power := rfl
@[simp] theorem updLanding_landing (f : LandingBlock → LandingBlock) (s : State) : (updLanding f s).landing = f s.landing := rfl
@[simp] theorem updLanding_mgmt (f : LandingBlock → LandingBlock) (s : State) : (updLanding f s).mgmt = s.mgmt := rfl
@[simp] theorem updLanding_err (f : LandingBlock → LandingBlock) (s : State) : (updLanding f s).err = s.err := rfl
@[simp] theorem updLanding_scaler (f : LandingBlock → LandingBlock) (s : State) : (updLanding f s).scaler = s.scaler := rfl

/-! ### updPcie -/

@[simp] theorem updPcie_pending (p : Nat) (f : PciePort → PciePort) (s : State) : (updPcie p f s).pending = s.pending := rfl
@[simp] theorem updPcie_now (p : Nat) (f : PciePort → PciePort) (s : State) : (updPcie p f s).now = s.now := rfl
@[simp] theorem updPcie_freeCount (p : Nat) (f : PciePort → PciePort) (s : State) : (updPcie p f s).freeCount = s.freeCount := rfl
@[simp] theorem updPcie_part (p : Nat) (f : PciePort → PciePort) (s : State) : (updPcie p f s).part = s.part := rfl
@[simp] theorem updPcie_boot (p : Nat) (f : PciePort → PciePort) (s : State) : (updPcie p f s).boot = s.boot := rfl
@[simp] theorem updPcie_life (p : Nat) (f : PciePort → PciePort) (s : State) : (updPcie p f s).life = s.life := rfl
@[simp] theorem updPcie_cfg (p : Nat) (f : PciePort → PciePort) (s : State) : (updPcie p f s).cfg = s.cfg := rfl
@[simp] theorem updPcie_roles (p : Nat) (f : PciePort → PciePort) (s : State) : (updPcie p f s).roles = s.roles := rfl
@[simp] theorem updPcie_groveResets (p : Nat) (f : PciePort → PciePort) (s : State) : (updPcie p f s).groveResets = s.groveResets := rfl
@[simp] theorem updPcie_mem (p : Nat) (f : PciePort → PciePort) (s : State) : (updPcie p f s).mem = s.mem := rfl
@[simp] theorem updPcie_scratch (p : Nat) (f : PciePort → PciePort) (s : State) : (updPcie p f s).scratch = s.scratch := rfl
@[simp] theorem updPcie_benches (p : Nat) (f : PciePort → PciePort) (s : State) : (updPcie p f s).benches = s.benches := rfl
@[simp] theorem updPcie_decks (p : Nat) (f : PciePort → PciePort) (s : State) : (updPcie p f s).decks = s.decks := rfl
@[simp] theorem updPcie_rings (p : Nat) (f : PciePort → PciePort) (s : State) : (updPcie p f s).rings = s.rings := rfl
@[simp] theorem updPcie_tasks (p : Nat) (f : PciePort → PciePort) (s : State) : (updPcie p f s).tasks = s.tasks := rfl
@[simp] theorem updPcie_groups (p : Nat) (f : PciePort → PciePort) (s : State) : (updPcie p f s).groups = s.groups := rfl
@[simp] theorem updPcie_stageTurns (p : Nat) (f : PciePort → PciePort) (s : State) : (updPcie p f s).stageTurns = s.stageTurns := rfl
@[simp] theorem updPcie_issueTurns (p : Nat) (f : PciePort → PciePort) (s : State) : (updPcie p f s).issueTurns = s.issueTurns := rfl
@[simp] theorem updPcie_tallyIssued (p : Nat) (f : PciePort → PciePort) (s : State) : (updPcie p f s).tallyIssued = s.tallyIssued := rfl
@[simp] theorem updPcie_tier (p : Nat) (f : PciePort → PciePort) (s : State) : (updPcie p f s).tier = s.tier := rfl
@[simp] theorem updPcie_tu (p : Nat) (f : PciePort → PciePort) (s : State) : (updPcie p f s).tu = s.tu := rfl
@[simp] theorem updPcie_stakes (p : Nat) (f : PciePort → PciePort) (s : State) : (updPcie p f s).stakes = s.stakes := rfl
@[simp] theorem updPcie_opLines (p : Nat) (f : PciePort → PciePort) (s : State) : (updPcie p f s).opLines = s.opLines := rfl
@[simp] theorem updPcie_scatAdds (p : Nat) (f : PciePort → PciePort) (s : State) : (updPcie p f s).scatAdds = s.scatAdds := rfl
@[simp] theorem updPcie_outsideWrites (p : Nat) (f : PciePort → PciePort) (s : State) : (updPcie p f s).outsideWrites = s.outsideWrites := rfl
@[simp] theorem updPcie_opRegs (p : Nat) (f : PciePort → PciePort) (s : State) : (updPcie p f s).opRegs = s.opRegs := rfl
@[simp] theorem updPcie_hartContext (p : Nat) (f : PciePort → PciePort) (s : State) : (updPcie p f s).hartContext = s.hartContext := rfl
@[simp] theorem updPcie_kerf (p : Nat) (f : PciePort → PciePort) (s : State) : (updPcie p f s).kerf = s.kerf := rfl
@[simp] theorem updPcie_fabric (p : Nat) (f : PciePort → PciePort) (s : State) : (updPcie p f s).fabric = s.fabric := rfl
@[simp] theorem updPcie_power (p : Nat) (f : PciePort → PciePort) (s : State) : (updPcie p f s).power = s.power := rfl
@[simp] theorem updPcie_landing (p : Nat) (f : PciePort → PciePort) (s : State) : (updPcie p f s).landing = { s.landing with pcie := s.landing.pcie.update {} p f } := rfl
@[simp] theorem updPcie_mgmt (p : Nat) (f : PciePort → PciePort) (s : State) : (updPcie p f s).mgmt = s.mgmt := rfl
@[simp] theorem updPcie_err (p : Nat) (f : PciePort → PciePort) (s : State) : (updPcie p f s).err = s.err := rfl
@[simp] theorem updPcie_scaler (p : Nat) (f : PciePort → PciePort) (s : State) : (updPcie p f s).scaler = s.scaler := rfl

/-! ### updMgmt -/

@[simp] theorem updMgmt_pending (f : MgmtBlock → MgmtBlock) (s : State) : (updMgmt f s).pending = s.pending := rfl
@[simp] theorem updMgmt_now (f : MgmtBlock → MgmtBlock) (s : State) : (updMgmt f s).now = s.now := rfl
@[simp] theorem updMgmt_freeCount (f : MgmtBlock → MgmtBlock) (s : State) : (updMgmt f s).freeCount = s.freeCount := rfl
@[simp] theorem updMgmt_part (f : MgmtBlock → MgmtBlock) (s : State) : (updMgmt f s).part = s.part := rfl
@[simp] theorem updMgmt_boot (f : MgmtBlock → MgmtBlock) (s : State) : (updMgmt f s).boot = s.boot := rfl
@[simp] theorem updMgmt_life (f : MgmtBlock → MgmtBlock) (s : State) : (updMgmt f s).life = s.life := rfl
@[simp] theorem updMgmt_cfg (f : MgmtBlock → MgmtBlock) (s : State) : (updMgmt f s).cfg = s.cfg := rfl
@[simp] theorem updMgmt_roles (f : MgmtBlock → MgmtBlock) (s : State) : (updMgmt f s).roles = s.roles := rfl
@[simp] theorem updMgmt_groveResets (f : MgmtBlock → MgmtBlock) (s : State) : (updMgmt f s).groveResets = s.groveResets := rfl
@[simp] theorem updMgmt_mem (f : MgmtBlock → MgmtBlock) (s : State) : (updMgmt f s).mem = s.mem := rfl
@[simp] theorem updMgmt_scratch (f : MgmtBlock → MgmtBlock) (s : State) : (updMgmt f s).scratch = s.scratch := rfl
@[simp] theorem updMgmt_benches (f : MgmtBlock → MgmtBlock) (s : State) : (updMgmt f s).benches = s.benches := rfl
@[simp] theorem updMgmt_decks (f : MgmtBlock → MgmtBlock) (s : State) : (updMgmt f s).decks = s.decks := rfl
@[simp] theorem updMgmt_rings (f : MgmtBlock → MgmtBlock) (s : State) : (updMgmt f s).rings = s.rings := rfl
@[simp] theorem updMgmt_tasks (f : MgmtBlock → MgmtBlock) (s : State) : (updMgmt f s).tasks = s.tasks := rfl
@[simp] theorem updMgmt_groups (f : MgmtBlock → MgmtBlock) (s : State) : (updMgmt f s).groups = s.groups := rfl
@[simp] theorem updMgmt_stageTurns (f : MgmtBlock → MgmtBlock) (s : State) : (updMgmt f s).stageTurns = s.stageTurns := rfl
@[simp] theorem updMgmt_issueTurns (f : MgmtBlock → MgmtBlock) (s : State) : (updMgmt f s).issueTurns = s.issueTurns := rfl
@[simp] theorem updMgmt_tallyIssued (f : MgmtBlock → MgmtBlock) (s : State) : (updMgmt f s).tallyIssued = s.tallyIssued := rfl
@[simp] theorem updMgmt_tier (f : MgmtBlock → MgmtBlock) (s : State) : (updMgmt f s).tier = s.tier := rfl
@[simp] theorem updMgmt_tu (f : MgmtBlock → MgmtBlock) (s : State) : (updMgmt f s).tu = s.tu := rfl
@[simp] theorem updMgmt_stakes (f : MgmtBlock → MgmtBlock) (s : State) : (updMgmt f s).stakes = s.stakes := rfl
@[simp] theorem updMgmt_opLines (f : MgmtBlock → MgmtBlock) (s : State) : (updMgmt f s).opLines = s.opLines := rfl
@[simp] theorem updMgmt_scatAdds (f : MgmtBlock → MgmtBlock) (s : State) : (updMgmt f s).scatAdds = s.scatAdds := rfl
@[simp] theorem updMgmt_outsideWrites (f : MgmtBlock → MgmtBlock) (s : State) : (updMgmt f s).outsideWrites = s.outsideWrites := rfl
@[simp] theorem updMgmt_opRegs (f : MgmtBlock → MgmtBlock) (s : State) : (updMgmt f s).opRegs = s.opRegs := rfl
@[simp] theorem updMgmt_hartContext (f : MgmtBlock → MgmtBlock) (s : State) : (updMgmt f s).hartContext = s.hartContext := rfl
@[simp] theorem updMgmt_kerf (f : MgmtBlock → MgmtBlock) (s : State) : (updMgmt f s).kerf = s.kerf := rfl
@[simp] theorem updMgmt_fabric (f : MgmtBlock → MgmtBlock) (s : State) : (updMgmt f s).fabric = s.fabric := rfl
@[simp] theorem updMgmt_power (f : MgmtBlock → MgmtBlock) (s : State) : (updMgmt f s).power = s.power := rfl
@[simp] theorem updMgmt_landing (f : MgmtBlock → MgmtBlock) (s : State) : (updMgmt f s).landing = s.landing := rfl
@[simp] theorem updMgmt_mgmt (f : MgmtBlock → MgmtBlock) (s : State) : (updMgmt f s).mgmt = f s.mgmt := rfl
@[simp] theorem updMgmt_err (f : MgmtBlock → MgmtBlock) (s : State) : (updMgmt f s).err = s.err := rfl
@[simp] theorem updMgmt_scaler (f : MgmtBlock → MgmtBlock) (s : State) : (updMgmt f s).scaler = s.scaler := rfl

/-! ### updRole -/

@[simp] theorem updRole_pending (n : Nat) (f : RoleEntry → RoleEntry) (s : State) : (updRole n f s).pending = s.pending := rfl
@[simp] theorem updRole_now (n : Nat) (f : RoleEntry → RoleEntry) (s : State) : (updRole n f s).now = s.now := rfl
@[simp] theorem updRole_freeCount (n : Nat) (f : RoleEntry → RoleEntry) (s : State) : (updRole n f s).freeCount = s.freeCount := rfl
@[simp] theorem updRole_part (n : Nat) (f : RoleEntry → RoleEntry) (s : State) : (updRole n f s).part = s.part := rfl
@[simp] theorem updRole_boot (n : Nat) (f : RoleEntry → RoleEntry) (s : State) : (updRole n f s).boot = s.boot := rfl
@[simp] theorem updRole_life (n : Nat) (f : RoleEntry → RoleEntry) (s : State) : (updRole n f s).life = s.life := rfl
@[simp] theorem updRole_cfg (n : Nat) (f : RoleEntry → RoleEntry) (s : State) : (updRole n f s).cfg = s.cfg := rfl
@[simp] theorem updRole_roles (n : Nat) (f : RoleEntry → RoleEntry) (s : State) : (updRole n f s).roles = s.roles.update {} n f := rfl
@[simp] theorem updRole_groveResets (n : Nat) (f : RoleEntry → RoleEntry) (s : State) : (updRole n f s).groveResets = s.groveResets := rfl
@[simp] theorem updRole_mem (n : Nat) (f : RoleEntry → RoleEntry) (s : State) : (updRole n f s).mem = s.mem := rfl
@[simp] theorem updRole_scratch (n : Nat) (f : RoleEntry → RoleEntry) (s : State) : (updRole n f s).scratch = s.scratch := rfl
@[simp] theorem updRole_benches (n : Nat) (f : RoleEntry → RoleEntry) (s : State) : (updRole n f s).benches = s.benches := rfl
@[simp] theorem updRole_decks (n : Nat) (f : RoleEntry → RoleEntry) (s : State) : (updRole n f s).decks = s.decks := rfl
@[simp] theorem updRole_rings (n : Nat) (f : RoleEntry → RoleEntry) (s : State) : (updRole n f s).rings = s.rings := rfl
@[simp] theorem updRole_tasks (n : Nat) (f : RoleEntry → RoleEntry) (s : State) : (updRole n f s).tasks = s.tasks := rfl
@[simp] theorem updRole_groups (n : Nat) (f : RoleEntry → RoleEntry) (s : State) : (updRole n f s).groups = s.groups := rfl
@[simp] theorem updRole_stageTurns (n : Nat) (f : RoleEntry → RoleEntry) (s : State) : (updRole n f s).stageTurns = s.stageTurns := rfl
@[simp] theorem updRole_issueTurns (n : Nat) (f : RoleEntry → RoleEntry) (s : State) : (updRole n f s).issueTurns = s.issueTurns := rfl
@[simp] theorem updRole_tallyIssued (n : Nat) (f : RoleEntry → RoleEntry) (s : State) : (updRole n f s).tallyIssued = s.tallyIssued := rfl
@[simp] theorem updRole_tier (n : Nat) (f : RoleEntry → RoleEntry) (s : State) : (updRole n f s).tier = s.tier := rfl
@[simp] theorem updRole_tu (n : Nat) (f : RoleEntry → RoleEntry) (s : State) : (updRole n f s).tu = s.tu := rfl
@[simp] theorem updRole_stakes (n : Nat) (f : RoleEntry → RoleEntry) (s : State) : (updRole n f s).stakes = s.stakes := rfl
@[simp] theorem updRole_opLines (n : Nat) (f : RoleEntry → RoleEntry) (s : State) : (updRole n f s).opLines = s.opLines := rfl
@[simp] theorem updRole_scatAdds (n : Nat) (f : RoleEntry → RoleEntry) (s : State) : (updRole n f s).scatAdds = s.scatAdds := rfl
@[simp] theorem updRole_outsideWrites (n : Nat) (f : RoleEntry → RoleEntry) (s : State) : (updRole n f s).outsideWrites = s.outsideWrites := rfl
@[simp] theorem updRole_opRegs (n : Nat) (f : RoleEntry → RoleEntry) (s : State) : (updRole n f s).opRegs = s.opRegs := rfl
@[simp] theorem updRole_hartContext (n : Nat) (f : RoleEntry → RoleEntry) (s : State) : (updRole n f s).hartContext = s.hartContext := rfl
@[simp] theorem updRole_kerf (n : Nat) (f : RoleEntry → RoleEntry) (s : State) : (updRole n f s).kerf = s.kerf := rfl
@[simp] theorem updRole_fabric (n : Nat) (f : RoleEntry → RoleEntry) (s : State) : (updRole n f s).fabric = s.fabric := rfl
@[simp] theorem updRole_power (n : Nat) (f : RoleEntry → RoleEntry) (s : State) : (updRole n f s).power = s.power := rfl
@[simp] theorem updRole_landing (n : Nat) (f : RoleEntry → RoleEntry) (s : State) : (updRole n f s).landing = s.landing := rfl
@[simp] theorem updRole_mgmt (n : Nat) (f : RoleEntry → RoleEntry) (s : State) : (updRole n f s).mgmt = s.mgmt := rfl
@[simp] theorem updRole_err (n : Nat) (f : RoleEntry → RoleEntry) (s : State) : (updRole n f s).err = s.err := rfl
@[simp] theorem updRole_scaler (n : Nat) (f : RoleEntry → RoleEntry) (s : State) : (updRole n f s).scaler = s.scaler := rfl

/-! ### updRing -/

@[simp] theorem updRing_pending (r : Nat) (f : Ring → Ring) (s : State) : (updRing r f s).pending = s.pending := rfl
@[simp] theorem updRing_now (r : Nat) (f : Ring → Ring) (s : State) : (updRing r f s).now = s.now := rfl
@[simp] theorem updRing_freeCount (r : Nat) (f : Ring → Ring) (s : State) : (updRing r f s).freeCount = s.freeCount := rfl
@[simp] theorem updRing_part (r : Nat) (f : Ring → Ring) (s : State) : (updRing r f s).part = s.part := rfl
@[simp] theorem updRing_boot (r : Nat) (f : Ring → Ring) (s : State) : (updRing r f s).boot = s.boot := rfl
@[simp] theorem updRing_life (r : Nat) (f : Ring → Ring) (s : State) : (updRing r f s).life = s.life := rfl
@[simp] theorem updRing_cfg (r : Nat) (f : Ring → Ring) (s : State) : (updRing r f s).cfg = s.cfg := rfl
@[simp] theorem updRing_roles (r : Nat) (f : Ring → Ring) (s : State) : (updRing r f s).roles = s.roles := rfl
@[simp] theorem updRing_groveResets (r : Nat) (f : Ring → Ring) (s : State) : (updRing r f s).groveResets = s.groveResets := rfl
@[simp] theorem updRing_mem (r : Nat) (f : Ring → Ring) (s : State) : (updRing r f s).mem = s.mem := rfl
@[simp] theorem updRing_scratch (r : Nat) (f : Ring → Ring) (s : State) : (updRing r f s).scratch = s.scratch := rfl
@[simp] theorem updRing_benches (r : Nat) (f : Ring → Ring) (s : State) : (updRing r f s).benches = s.benches := rfl
@[simp] theorem updRing_decks (r : Nat) (f : Ring → Ring) (s : State) : (updRing r f s).decks = s.decks := rfl
@[simp] theorem updRing_rings (r : Nat) (f : Ring → Ring) (s : State) : (updRing r f s).rings = s.rings.update {} r f := rfl
@[simp] theorem updRing_tasks (r : Nat) (f : Ring → Ring) (s : State) : (updRing r f s).tasks = s.tasks := rfl
@[simp] theorem updRing_groups (r : Nat) (f : Ring → Ring) (s : State) : (updRing r f s).groups = s.groups := rfl
@[simp] theorem updRing_stageTurns (r : Nat) (f : Ring → Ring) (s : State) : (updRing r f s).stageTurns = s.stageTurns := rfl
@[simp] theorem updRing_issueTurns (r : Nat) (f : Ring → Ring) (s : State) : (updRing r f s).issueTurns = s.issueTurns := rfl
@[simp] theorem updRing_tallyIssued (r : Nat) (f : Ring → Ring) (s : State) : (updRing r f s).tallyIssued = s.tallyIssued := rfl
@[simp] theorem updRing_tier (r : Nat) (f : Ring → Ring) (s : State) : (updRing r f s).tier = s.tier := rfl
@[simp] theorem updRing_tu (r : Nat) (f : Ring → Ring) (s : State) : (updRing r f s).tu = s.tu := rfl
@[simp] theorem updRing_stakes (r : Nat) (f : Ring → Ring) (s : State) : (updRing r f s).stakes = s.stakes := rfl
@[simp] theorem updRing_opLines (r : Nat) (f : Ring → Ring) (s : State) : (updRing r f s).opLines = s.opLines := rfl
@[simp] theorem updRing_scatAdds (r : Nat) (f : Ring → Ring) (s : State) : (updRing r f s).scatAdds = s.scatAdds := rfl
@[simp] theorem updRing_outsideWrites (r : Nat) (f : Ring → Ring) (s : State) : (updRing r f s).outsideWrites = s.outsideWrites := rfl
@[simp] theorem updRing_opRegs (r : Nat) (f : Ring → Ring) (s : State) : (updRing r f s).opRegs = s.opRegs := rfl
@[simp] theorem updRing_hartContext (r : Nat) (f : Ring → Ring) (s : State) : (updRing r f s).hartContext = s.hartContext := rfl
@[simp] theorem updRing_kerf (r : Nat) (f : Ring → Ring) (s : State) : (updRing r f s).kerf = s.kerf := rfl
@[simp] theorem updRing_fabric (r : Nat) (f : Ring → Ring) (s : State) : (updRing r f s).fabric = s.fabric := rfl
@[simp] theorem updRing_power (r : Nat) (f : Ring → Ring) (s : State) : (updRing r f s).power = s.power := rfl
@[simp] theorem updRing_landing (r : Nat) (f : Ring → Ring) (s : State) : (updRing r f s).landing = s.landing := rfl
@[simp] theorem updRing_mgmt (r : Nat) (f : Ring → Ring) (s : State) : (updRing r f s).mgmt = s.mgmt := rfl
@[simp] theorem updRing_err (r : Nat) (f : Ring → Ring) (s : State) : (updRing r f s).err = s.err := rfl
@[simp] theorem updRing_scaler (r : Nat) (f : Ring → Ring) (s : State) : (updRing r f s).scaler = s.scaler := rfl

/-! ### dropTask -/

@[simp] theorem dropTask_pending (r seq : Nat) (s : State) : (dropTask r seq s).pending = s.pending := rfl
@[simp] theorem dropTask_now (r seq : Nat) (s : State) : (dropTask r seq s).now = s.now := rfl
@[simp] theorem dropTask_freeCount (r seq : Nat) (s : State) : (dropTask r seq s).freeCount = s.freeCount := rfl
@[simp] theorem dropTask_part (r seq : Nat) (s : State) : (dropTask r seq s).part = s.part := rfl
@[simp] theorem dropTask_boot (r seq : Nat) (s : State) : (dropTask r seq s).boot = s.boot := rfl
@[simp] theorem dropTask_life (r seq : Nat) (s : State) : (dropTask r seq s).life = s.life := rfl
@[simp] theorem dropTask_cfg (r seq : Nat) (s : State) : (dropTask r seq s).cfg = s.cfg := rfl
@[simp] theorem dropTask_roles (r seq : Nat) (s : State) : (dropTask r seq s).roles = s.roles := rfl
@[simp] theorem dropTask_groveResets (r seq : Nat) (s : State) : (dropTask r seq s).groveResets = s.groveResets := rfl
@[simp] theorem dropTask_mem (r seq : Nat) (s : State) : (dropTask r seq s).mem = s.mem := rfl
@[simp] theorem dropTask_scratch (r seq : Nat) (s : State) : (dropTask r seq s).scratch = s.scratch := rfl
@[simp] theorem dropTask_benches (r seq : Nat) (s : State) : (dropTask r seq s).benches = s.benches := rfl
@[simp] theorem dropTask_decks (r seq : Nat) (s : State) : (dropTask r seq s).decks = s.decks := rfl
@[simp] theorem dropTask_rings (r seq : Nat) (s : State) : (dropTask r seq s).rings = s.rings := rfl
@[simp] theorem dropTask_tasks (r seq : Nat) (s : State) : (dropTask r seq s).tasks = s.tasks.filter fun t => !t.is r seq := rfl
@[simp] theorem dropTask_groups (r seq : Nat) (s : State) : (dropTask r seq s).groups = s.groups := rfl
@[simp] theorem dropTask_stageTurns (r seq : Nat) (s : State) : (dropTask r seq s).stageTurns = s.stageTurns := rfl
@[simp] theorem dropTask_issueTurns (r seq : Nat) (s : State) : (dropTask r seq s).issueTurns = s.issueTurns := rfl
@[simp] theorem dropTask_tallyIssued (r seq : Nat) (s : State) : (dropTask r seq s).tallyIssued = s.tallyIssued := rfl
@[simp] theorem dropTask_tier (r seq : Nat) (s : State) : (dropTask r seq s).tier = s.tier := rfl
@[simp] theorem dropTask_tu (r seq : Nat) (s : State) : (dropTask r seq s).tu = s.tu := rfl
@[simp] theorem dropTask_stakes (r seq : Nat) (s : State) : (dropTask r seq s).stakes = s.stakes := rfl
@[simp] theorem dropTask_opLines (r seq : Nat) (s : State) : (dropTask r seq s).opLines = s.opLines := rfl
@[simp] theorem dropTask_scatAdds (r seq : Nat) (s : State) : (dropTask r seq s).scatAdds = s.scatAdds := rfl
@[simp] theorem dropTask_outsideWrites (r seq : Nat) (s : State) : (dropTask r seq s).outsideWrites = s.outsideWrites := rfl
@[simp] theorem dropTask_opRegs (r seq : Nat) (s : State) : (dropTask r seq s).opRegs = s.opRegs := rfl
@[simp] theorem dropTask_hartContext (r seq : Nat) (s : State) : (dropTask r seq s).hartContext = s.hartContext := rfl
@[simp] theorem dropTask_kerf (r seq : Nat) (s : State) : (dropTask r seq s).kerf = s.kerf := rfl
@[simp] theorem dropTask_fabric (r seq : Nat) (s : State) : (dropTask r seq s).fabric = s.fabric := rfl
@[simp] theorem dropTask_power (r seq : Nat) (s : State) : (dropTask r seq s).power = s.power := rfl
@[simp] theorem dropTask_landing (r seq : Nat) (s : State) : (dropTask r seq s).landing = s.landing := rfl
@[simp] theorem dropTask_mgmt (r seq : Nat) (s : State) : (dropTask r seq s).mgmt = s.mgmt := rfl
@[simp] theorem dropTask_err (r seq : Nat) (s : State) : (dropTask r seq s).err = s.err := rfl
@[simp] theorem dropTask_scaler (r seq : Nat) (s : State) : (dropTask r seq s).scaler = s.scaler := rfl

/-! ### updBenchState -/

@[simp] theorem updBenchState_pending (n : Nat) (f : Bench → Bench) (s : State) : (updBenchState n f s).pending = s.pending := rfl
@[simp] theorem updBenchState_now (n : Nat) (f : Bench → Bench) (s : State) : (updBenchState n f s).now = s.now := rfl
@[simp] theorem updBenchState_freeCount (n : Nat) (f : Bench → Bench) (s : State) : (updBenchState n f s).freeCount = s.freeCount := rfl
@[simp] theorem updBenchState_part (n : Nat) (f : Bench → Bench) (s : State) : (updBenchState n f s).part = s.part := rfl
@[simp] theorem updBenchState_boot (n : Nat) (f : Bench → Bench) (s : State) : (updBenchState n f s).boot = s.boot := rfl
@[simp] theorem updBenchState_life (n : Nat) (f : Bench → Bench) (s : State) : (updBenchState n f s).life = s.life := rfl
@[simp] theorem updBenchState_cfg (n : Nat) (f : Bench → Bench) (s : State) : (updBenchState n f s).cfg = s.cfg := rfl
@[simp] theorem updBenchState_roles (n : Nat) (f : Bench → Bench) (s : State) : (updBenchState n f s).roles = s.roles := rfl
@[simp] theorem updBenchState_groveResets (n : Nat) (f : Bench → Bench) (s : State) : (updBenchState n f s).groveResets = s.groveResets := rfl
@[simp] theorem updBenchState_mem (n : Nat) (f : Bench → Bench) (s : State) : (updBenchState n f s).mem = s.mem := rfl
@[simp] theorem updBenchState_scratch (n : Nat) (f : Bench → Bench) (s : State) : (updBenchState n f s).scratch = s.scratch := rfl
@[simp] theorem updBenchState_benches (n : Nat) (f : Bench → Bench) (s : State) : (updBenchState n f s).benches = s.benches.update {} n f := rfl
@[simp] theorem updBenchState_decks (n : Nat) (f : Bench → Bench) (s : State) : (updBenchState n f s).decks = s.decks := rfl
@[simp] theorem updBenchState_rings (n : Nat) (f : Bench → Bench) (s : State) : (updBenchState n f s).rings = s.rings := rfl
@[simp] theorem updBenchState_tasks (n : Nat) (f : Bench → Bench) (s : State) : (updBenchState n f s).tasks = s.tasks := rfl
@[simp] theorem updBenchState_groups (n : Nat) (f : Bench → Bench) (s : State) : (updBenchState n f s).groups = s.groups := rfl
@[simp] theorem updBenchState_stageTurns (n : Nat) (f : Bench → Bench) (s : State) : (updBenchState n f s).stageTurns = s.stageTurns := rfl
@[simp] theorem updBenchState_issueTurns (n : Nat) (f : Bench → Bench) (s : State) : (updBenchState n f s).issueTurns = s.issueTurns := rfl
@[simp] theorem updBenchState_tallyIssued (n : Nat) (f : Bench → Bench) (s : State) : (updBenchState n f s).tallyIssued = s.tallyIssued := rfl
@[simp] theorem updBenchState_tier (n : Nat) (f : Bench → Bench) (s : State) : (updBenchState n f s).tier = s.tier := rfl
@[simp] theorem updBenchState_tu (n : Nat) (f : Bench → Bench) (s : State) : (updBenchState n f s).tu = s.tu := rfl
@[simp] theorem updBenchState_stakes (n : Nat) (f : Bench → Bench) (s : State) : (updBenchState n f s).stakes = s.stakes := rfl
@[simp] theorem updBenchState_opLines (n : Nat) (f : Bench → Bench) (s : State) : (updBenchState n f s).opLines = s.opLines := rfl
@[simp] theorem updBenchState_scatAdds (n : Nat) (f : Bench → Bench) (s : State) : (updBenchState n f s).scatAdds = s.scatAdds := rfl
@[simp] theorem updBenchState_outsideWrites (n : Nat) (f : Bench → Bench) (s : State) : (updBenchState n f s).outsideWrites = s.outsideWrites := rfl
@[simp] theorem updBenchState_opRegs (n : Nat) (f : Bench → Bench) (s : State) : (updBenchState n f s).opRegs = s.opRegs := rfl
@[simp] theorem updBenchState_hartContext (n : Nat) (f : Bench → Bench) (s : State) : (updBenchState n f s).hartContext = s.hartContext := rfl
@[simp] theorem updBenchState_kerf (n : Nat) (f : Bench → Bench) (s : State) : (updBenchState n f s).kerf = s.kerf := rfl
@[simp] theorem updBenchState_fabric (n : Nat) (f : Bench → Bench) (s : State) : (updBenchState n f s).fabric = s.fabric := rfl
@[simp] theorem updBenchState_power (n : Nat) (f : Bench → Bench) (s : State) : (updBenchState n f s).power = s.power := rfl
@[simp] theorem updBenchState_landing (n : Nat) (f : Bench → Bench) (s : State) : (updBenchState n f s).landing = s.landing := rfl
@[simp] theorem updBenchState_mgmt (n : Nat) (f : Bench → Bench) (s : State) : (updBenchState n f s).mgmt = s.mgmt := rfl
@[simp] theorem updBenchState_err (n : Nat) (f : Bench → Bench) (s : State) : (updBenchState n f s).err = s.err := rfl
@[simp] theorem updBenchState_scaler (n : Nat) (f : Bench → Bench) (s : State) : (updBenchState n f s).scaler = s.scaler := rfl

/-! ### updGroup -/

@[simp] theorem updGroup_pending (g : Nat) (f : SpecGroup → SpecGroup) (s : State) : (updGroup g f s).pending = s.pending := rfl
@[simp] theorem updGroup_now (g : Nat) (f : SpecGroup → SpecGroup) (s : State) : (updGroup g f s).now = s.now := rfl
@[simp] theorem updGroup_freeCount (g : Nat) (f : SpecGroup → SpecGroup) (s : State) : (updGroup g f s).freeCount = s.freeCount := rfl
@[simp] theorem updGroup_part (g : Nat) (f : SpecGroup → SpecGroup) (s : State) : (updGroup g f s).part = s.part := rfl
@[simp] theorem updGroup_boot (g : Nat) (f : SpecGroup → SpecGroup) (s : State) : (updGroup g f s).boot = s.boot := rfl
@[simp] theorem updGroup_life (g : Nat) (f : SpecGroup → SpecGroup) (s : State) : (updGroup g f s).life = s.life := rfl
@[simp] theorem updGroup_cfg (g : Nat) (f : SpecGroup → SpecGroup) (s : State) : (updGroup g f s).cfg = s.cfg := rfl
@[simp] theorem updGroup_roles (g : Nat) (f : SpecGroup → SpecGroup) (s : State) : (updGroup g f s).roles = s.roles := rfl
@[simp] theorem updGroup_groveResets (g : Nat) (f : SpecGroup → SpecGroup) (s : State) : (updGroup g f s).groveResets = s.groveResets := rfl
@[simp] theorem updGroup_mem (g : Nat) (f : SpecGroup → SpecGroup) (s : State) : (updGroup g f s).mem = s.mem := rfl
@[simp] theorem updGroup_scratch (g : Nat) (f : SpecGroup → SpecGroup) (s : State) : (updGroup g f s).scratch = s.scratch := rfl
@[simp] theorem updGroup_benches (g : Nat) (f : SpecGroup → SpecGroup) (s : State) : (updGroup g f s).benches = s.benches := rfl
@[simp] theorem updGroup_decks (g : Nat) (f : SpecGroup → SpecGroup) (s : State) : (updGroup g f s).decks = s.decks := rfl
@[simp] theorem updGroup_rings (g : Nat) (f : SpecGroup → SpecGroup) (s : State) : (updGroup g f s).rings = s.rings := rfl
@[simp] theorem updGroup_tasks (g : Nat) (f : SpecGroup → SpecGroup) (s : State) : (updGroup g f s).tasks = s.tasks := rfl
@[simp] theorem updGroup_groups (g : Nat) (f : SpecGroup → SpecGroup) (s : State) : (updGroup g f s).groups = s.groups.update {} g f := rfl
@[simp] theorem updGroup_stageTurns (g : Nat) (f : SpecGroup → SpecGroup) (s : State) : (updGroup g f s).stageTurns = s.stageTurns := rfl
@[simp] theorem updGroup_issueTurns (g : Nat) (f : SpecGroup → SpecGroup) (s : State) : (updGroup g f s).issueTurns = s.issueTurns := rfl
@[simp] theorem updGroup_tallyIssued (g : Nat) (f : SpecGroup → SpecGroup) (s : State) : (updGroup g f s).tallyIssued = s.tallyIssued := rfl
@[simp] theorem updGroup_tier (g : Nat) (f : SpecGroup → SpecGroup) (s : State) : (updGroup g f s).tier = s.tier := rfl
@[simp] theorem updGroup_tu (g : Nat) (f : SpecGroup → SpecGroup) (s : State) : (updGroup g f s).tu = s.tu := rfl
@[simp] theorem updGroup_stakes (g : Nat) (f : SpecGroup → SpecGroup) (s : State) : (updGroup g f s).stakes = s.stakes := rfl
@[simp] theorem updGroup_opLines (g : Nat) (f : SpecGroup → SpecGroup) (s : State) : (updGroup g f s).opLines = s.opLines := rfl
@[simp] theorem updGroup_scatAdds (g : Nat) (f : SpecGroup → SpecGroup) (s : State) : (updGroup g f s).scatAdds = s.scatAdds := rfl
@[simp] theorem updGroup_outsideWrites (g : Nat) (f : SpecGroup → SpecGroup) (s : State) : (updGroup g f s).outsideWrites = s.outsideWrites := rfl
@[simp] theorem updGroup_opRegs (g : Nat) (f : SpecGroup → SpecGroup) (s : State) : (updGroup g f s).opRegs = s.opRegs := rfl
@[simp] theorem updGroup_hartContext (g : Nat) (f : SpecGroup → SpecGroup) (s : State) : (updGroup g f s).hartContext = s.hartContext := rfl
@[simp] theorem updGroup_kerf (g : Nat) (f : SpecGroup → SpecGroup) (s : State) : (updGroup g f s).kerf = s.kerf := rfl
@[simp] theorem updGroup_fabric (g : Nat) (f : SpecGroup → SpecGroup) (s : State) : (updGroup g f s).fabric = s.fabric := rfl
@[simp] theorem updGroup_power (g : Nat) (f : SpecGroup → SpecGroup) (s : State) : (updGroup g f s).power = s.power := rfl
@[simp] theorem updGroup_landing (g : Nat) (f : SpecGroup → SpecGroup) (s : State) : (updGroup g f s).landing = s.landing := rfl
@[simp] theorem updGroup_mgmt (g : Nat) (f : SpecGroup → SpecGroup) (s : State) : (updGroup g f s).mgmt = s.mgmt := rfl
@[simp] theorem updGroup_err (g : Nat) (f : SpecGroup → SpecGroup) (s : State) : (updGroup g f s).err = s.err := rfl
@[simp] theorem updGroup_scaler (g : Nat) (f : SpecGroup → SpecGroup) (s : State) : (updGroup g f s).scaler = s.scaler := rfl

/-! ### tick -/

@[simp] theorem tick_pending (s : State) : (tick s).pending = s.pending := rfl
@[simp] theorem tick_now (s : State) : (tick s).now = s.now + 1 := rfl
@[simp] theorem tick_freeCount (s : State) : (tick s).freeCount = s.freeCount := rfl
@[simp] theorem tick_part (s : State) : (tick s).part = s.part := rfl
@[simp] theorem tick_boot (s : State) : (tick s).boot = s.boot := rfl
@[simp] theorem tick_life (s : State) : (tick s).life = s.life := rfl
@[simp] theorem tick_cfg (s : State) : (tick s).cfg = s.cfg := rfl
@[simp] theorem tick_roles (s : State) : (tick s).roles = s.roles := rfl
@[simp] theorem tick_groveResets (s : State) : (tick s).groveResets = s.groveResets := rfl
@[simp] theorem tick_mem (s : State) : (tick s).mem = s.mem := rfl
@[simp] theorem tick_scratch (s : State) : (tick s).scratch = s.scratch := rfl
@[simp] theorem tick_benches (s : State) : (tick s).benches = s.benches := rfl
@[simp] theorem tick_decks (s : State) : (tick s).decks = s.decks := rfl
@[simp] theorem tick_rings (s : State) : (tick s).rings = s.rings := rfl
@[simp] theorem tick_tasks (s : State) : (tick s).tasks = s.tasks := rfl
@[simp] theorem tick_groups (s : State) : (tick s).groups = s.groups := rfl
@[simp] theorem tick_stageTurns (s : State) : (tick s).stageTurns = s.stageTurns := rfl
@[simp] theorem tick_issueTurns (s : State) : (tick s).issueTurns = s.issueTurns := rfl
@[simp] theorem tick_tallyIssued (s : State) : (tick s).tallyIssued = s.tallyIssued := rfl
@[simp] theorem tick_tier (s : State) : (tick s).tier = s.tier := rfl
@[simp] theorem tick_tu (s : State) : (tick s).tu = s.tu := rfl
@[simp] theorem tick_stakes (s : State) : (tick s).stakes = s.stakes := rfl
@[simp] theorem tick_opLines (s : State) : (tick s).opLines = s.opLines := rfl
@[simp] theorem tick_scatAdds (s : State) : (tick s).scatAdds = s.scatAdds := rfl
@[simp] theorem tick_outsideWrites (s : State) : (tick s).outsideWrites = s.outsideWrites := rfl
@[simp] theorem tick_opRegs (s : State) : (tick s).opRegs = s.opRegs := rfl
@[simp] theorem tick_hartContext (s : State) : (tick s).hartContext = s.hartContext := rfl
@[simp] theorem tick_kerf (s : State) : (tick s).kerf = s.kerf := rfl
@[simp] theorem tick_fabric (s : State) : (tick s).fabric = fabricTick s.now s.fabric := rfl
@[simp] theorem tick_power (s : State) : (tick s).power = s.power := rfl
@[simp] theorem tick_landing (s : State) : (tick s).landing = s.landing := rfl
@[simp] theorem tick_mgmt (s : State) : (tick s).mgmt = s.mgmt := rfl
@[simp] theorem tick_err (s : State) : (tick s).err = s.err := rfl
@[simp] theorem tick_scaler (s : State) : (tick s).scaler = s.scaler := rfl

/-! ### updTask -/

@[simp] theorem updTask_pending (r seq : Nat) (f : Task → Task) (s : State) : (updTask r seq f s).pending = s.pending := rfl
@[simp] theorem updTask_now (r seq : Nat) (f : Task → Task) (s : State) : (updTask r seq f s).now = s.now := rfl
@[simp] theorem updTask_freeCount (r seq : Nat) (f : Task → Task) (s : State) : (updTask r seq f s).freeCount = s.freeCount := rfl
@[simp] theorem updTask_part (r seq : Nat) (f : Task → Task) (s : State) : (updTask r seq f s).part = s.part := rfl
@[simp] theorem updTask_boot (r seq : Nat) (f : Task → Task) (s : State) : (updTask r seq f s).boot = s.boot := rfl
@[simp] theorem updTask_life (r seq : Nat) (f : Task → Task) (s : State) : (updTask r seq f s).life = s.life := rfl
@[simp] theorem updTask_cfg (r seq : Nat) (f : Task → Task) (s : State) : (updTask r seq f s).cfg = s.cfg := rfl
@[simp] theorem updTask_roles (r seq : Nat) (f : Task → Task) (s : State) : (updTask r seq f s).roles = s.roles := rfl
@[simp] theorem updTask_groveResets (r seq : Nat) (f : Task → Task) (s : State) : (updTask r seq f s).groveResets = s.groveResets := rfl
@[simp] theorem updTask_mem (r seq : Nat) (f : Task → Task) (s : State) : (updTask r seq f s).mem = s.mem := rfl
@[simp] theorem updTask_scratch (r seq : Nat) (f : Task → Task) (s : State) : (updTask r seq f s).scratch = s.scratch := rfl
@[simp] theorem updTask_benches (r seq : Nat) (f : Task → Task) (s : State) : (updTask r seq f s).benches = s.benches := rfl
@[simp] theorem updTask_decks (r seq : Nat) (f : Task → Task) (s : State) : (updTask r seq f s).decks = s.decks := rfl
@[simp] theorem updTask_rings (r seq : Nat) (f : Task → Task) (s : State) : (updTask r seq f s).rings = s.rings := rfl
@[simp] theorem updTask_groups (r seq : Nat) (f : Task → Task) (s : State) : (updTask r seq f s).groups = s.groups := rfl
@[simp] theorem updTask_stageTurns (r seq : Nat) (f : Task → Task) (s : State) : (updTask r seq f s).stageTurns = s.stageTurns := rfl
@[simp] theorem updTask_issueTurns (r seq : Nat) (f : Task → Task) (s : State) : (updTask r seq f s).issueTurns = s.issueTurns := rfl
@[simp] theorem updTask_tallyIssued (r seq : Nat) (f : Task → Task) (s : State) : (updTask r seq f s).tallyIssued = s.tallyIssued := rfl
@[simp] theorem updTask_tier (r seq : Nat) (f : Task → Task) (s : State) : (updTask r seq f s).tier = s.tier := rfl
@[simp] theorem updTask_tu (r seq : Nat) (f : Task → Task) (s : State) : (updTask r seq f s).tu = s.tu := rfl
@[simp] theorem updTask_stakes (r seq : Nat) (f : Task → Task) (s : State) : (updTask r seq f s).stakes = s.stakes := rfl
@[simp] theorem updTask_opLines (r seq : Nat) (f : Task → Task) (s : State) : (updTask r seq f s).opLines = s.opLines := rfl
@[simp] theorem updTask_scatAdds (r seq : Nat) (f : Task → Task) (s : State) : (updTask r seq f s).scatAdds = s.scatAdds := rfl
@[simp] theorem updTask_outsideWrites (r seq : Nat) (f : Task → Task) (s : State) : (updTask r seq f s).outsideWrites = s.outsideWrites := rfl
@[simp] theorem updTask_opRegs (r seq : Nat) (f : Task → Task) (s : State) : (updTask r seq f s).opRegs = s.opRegs := rfl
@[simp] theorem updTask_hartContext (r seq : Nat) (f : Task → Task) (s : State) : (updTask r seq f s).hartContext = s.hartContext := rfl
@[simp] theorem updTask_kerf (r seq : Nat) (f : Task → Task) (s : State) : (updTask r seq f s).kerf = s.kerf := rfl
@[simp] theorem updTask_fabric (r seq : Nat) (f : Task → Task) (s : State) : (updTask r seq f s).fabric = s.fabric := rfl
@[simp] theorem updTask_power (r seq : Nat) (f : Task → Task) (s : State) : (updTask r seq f s).power = s.power := rfl
@[simp] theorem updTask_landing (r seq : Nat) (f : Task → Task) (s : State) : (updTask r seq f s).landing = s.landing := rfl
@[simp] theorem updTask_mgmt (r seq : Nat) (f : Task → Task) (s : State) : (updTask r seq f s).mgmt = s.mgmt := rfl
@[simp] theorem updTask_err (r seq : Nat) (f : Task → Task) (s : State) : (updTask r seq f s).err = s.err := rfl
@[simp] theorem updTask_scaler (r seq : Nat) (f : Task → Task) (s : State) : (updTask r seq f s).scaler = s.scaler := rfl

/-! ### updHart -/

@[simp] theorem updHart_pending (h : Nat) (f : Hart → Hart) (s : State) : (updHart h f s).pending = s.pending := rfl
@[simp] theorem updHart_now (h : Nat) (f : Hart → Hart) (s : State) : (updHart h f s).now = s.now := rfl
@[simp] theorem updHart_freeCount (h : Nat) (f : Hart → Hart) (s : State) : (updHart h f s).freeCount = s.freeCount := rfl
@[simp] theorem updHart_part (h : Nat) (f : Hart → Hart) (s : State) : (updHart h f s).part = s.part := rfl
@[simp] theorem updHart_boot (h : Nat) (f : Hart → Hart) (s : State) : (updHart h f s).boot = s.boot := rfl
@[simp] theorem updHart_life (h : Nat) (f : Hart → Hart) (s : State) : (updHart h f s).life = s.life := rfl
@[simp] theorem updHart_cfg (h : Nat) (f : Hart → Hart) (s : State) : (updHart h f s).cfg = s.cfg := rfl
@[simp] theorem updHart_roles (h : Nat) (f : Hart → Hart) (s : State) : (updHart h f s).roles = s.roles := rfl
@[simp] theorem updHart_groveResets (h : Nat) (f : Hart → Hart) (s : State) : (updHart h f s).groveResets = s.groveResets := rfl
@[simp] theorem updHart_mem (h : Nat) (f : Hart → Hart) (s : State) : (updHart h f s).mem = s.mem := rfl
@[simp] theorem updHart_scratch (h : Nat) (f : Hart → Hart) (s : State) : (updHart h f s).scratch = s.scratch := rfl
@[simp] theorem updHart_benches (h : Nat) (f : Hart → Hart) (s : State) : (updHart h f s).benches = s.benches := rfl
@[simp] theorem updHart_decks (h : Nat) (f : Hart → Hart) (s : State) : (updHart h f s).decks = s.decks := rfl
@[simp] theorem updHart_rings (h : Nat) (f : Hart → Hart) (s : State) : (updHart h f s).rings = s.rings := rfl
@[simp] theorem updHart_tasks (h : Nat) (f : Hart → Hart) (s : State) : (updHart h f s).tasks = s.tasks := rfl
@[simp] theorem updHart_groups (h : Nat) (f : Hart → Hart) (s : State) : (updHart h f s).groups = s.groups := rfl
@[simp] theorem updHart_stageTurns (h : Nat) (f : Hart → Hart) (s : State) : (updHart h f s).stageTurns = s.stageTurns := rfl
@[simp] theorem updHart_issueTurns (h : Nat) (f : Hart → Hart) (s : State) : (updHart h f s).issueTurns = s.issueTurns := rfl
@[simp] theorem updHart_tallyIssued (h : Nat) (f : Hart → Hart) (s : State) : (updHart h f s).tallyIssued = s.tallyIssued := rfl
@[simp] theorem updHart_tier (h : Nat) (f : Hart → Hart) (s : State) : (updHart h f s).tier = s.tier := rfl
@[simp] theorem updHart_tu (h : Nat) (f : Hart → Hart) (s : State) : (updHart h f s).tu = s.tu := rfl
@[simp] theorem updHart_stakes (h : Nat) (f : Hart → Hart) (s : State) : (updHart h f s).stakes = s.stakes := rfl
@[simp] theorem updHart_opLines (h : Nat) (f : Hart → Hart) (s : State) : (updHart h f s).opLines = s.opLines := rfl
@[simp] theorem updHart_scatAdds (h : Nat) (f : Hart → Hart) (s : State) : (updHart h f s).scatAdds = s.scatAdds := rfl
@[simp] theorem updHart_outsideWrites (h : Nat) (f : Hart → Hart) (s : State) : (updHart h f s).outsideWrites = s.outsideWrites := rfl
@[simp] theorem updHart_opRegs (h : Nat) (f : Hart → Hart) (s : State) : (updHart h f s).opRegs = s.opRegs := rfl
@[simp] theorem updHart_hartContext (h : Nat) (f : Hart → Hart) (s : State) : (updHart h f s).hartContext = s.hartContext := rfl
@[simp] theorem updHart_kerf (h : Nat) (f : Hart → Hart) (s : State) : (updHart h f s).kerf = s.kerf := rfl
@[simp] theorem updHart_fabric (h : Nat) (f : Hart → Hart) (s : State) : (updHart h f s).fabric = s.fabric := rfl
@[simp] theorem updHart_power (h : Nat) (f : Hart → Hart) (s : State) : (updHart h f s).power = s.power := rfl
@[simp] theorem updHart_mgmt (h : Nat) (f : Hart → Hart) (s : State) : (updHart h f s).mgmt = s.mgmt := rfl
@[simp] theorem updHart_err (h : Nat) (f : Hart → Hart) (s : State) : (updHart h f s).err = s.err := rfl
@[simp] theorem updHart_scaler (h : Nat) (f : Hart → Hart) (s : State) : (updHart h f s).scaler = s.scaler := rfl

/-! ### updKerf -/

@[simp] theorem updKerf_pending (f : KerfBlock → KerfBlock) (s : State) : (updKerf f s).pending = s.pending := rfl
@[simp] theorem updKerf_now (f : KerfBlock → KerfBlock) (s : State) : (updKerf f s).now = s.now := rfl
@[simp] theorem updKerf_freeCount (f : KerfBlock → KerfBlock) (s : State) : (updKerf f s).freeCount = s.freeCount := rfl
@[simp] theorem updKerf_part (f : KerfBlock → KerfBlock) (s : State) : (updKerf f s).part = s.part := rfl
@[simp] theorem updKerf_boot (f : KerfBlock → KerfBlock) (s : State) : (updKerf f s).boot = s.boot := rfl
@[simp] theorem updKerf_life (f : KerfBlock → KerfBlock) (s : State) : (updKerf f s).life = s.life := rfl
@[simp] theorem updKerf_cfg (f : KerfBlock → KerfBlock) (s : State) : (updKerf f s).cfg = s.cfg := rfl
@[simp] theorem updKerf_roles (f : KerfBlock → KerfBlock) (s : State) : (updKerf f s).roles = s.roles := rfl
@[simp] theorem updKerf_groveResets (f : KerfBlock → KerfBlock) (s : State) : (updKerf f s).groveResets = s.groveResets := rfl
@[simp] theorem updKerf_mem (f : KerfBlock → KerfBlock) (s : State) : (updKerf f s).mem = s.mem := rfl
@[simp] theorem updKerf_scratch (f : KerfBlock → KerfBlock) (s : State) : (updKerf f s).scratch = s.scratch := rfl
@[simp] theorem updKerf_benches (f : KerfBlock → KerfBlock) (s : State) : (updKerf f s).benches = s.benches := rfl
@[simp] theorem updKerf_decks (f : KerfBlock → KerfBlock) (s : State) : (updKerf f s).decks = s.decks := rfl
@[simp] theorem updKerf_rings (f : KerfBlock → KerfBlock) (s : State) : (updKerf f s).rings = s.rings := rfl
@[simp] theorem updKerf_tasks (f : KerfBlock → KerfBlock) (s : State) : (updKerf f s).tasks = s.tasks := rfl
@[simp] theorem updKerf_groups (f : KerfBlock → KerfBlock) (s : State) : (updKerf f s).groups = s.groups := rfl
@[simp] theorem updKerf_stageTurns (f : KerfBlock → KerfBlock) (s : State) : (updKerf f s).stageTurns = s.stageTurns := rfl
@[simp] theorem updKerf_issueTurns (f : KerfBlock → KerfBlock) (s : State) : (updKerf f s).issueTurns = s.issueTurns := rfl
@[simp] theorem updKerf_tallyIssued (f : KerfBlock → KerfBlock) (s : State) : (updKerf f s).tallyIssued = s.tallyIssued := rfl
@[simp] theorem updKerf_tier (f : KerfBlock → KerfBlock) (s : State) : (updKerf f s).tier = s.tier := rfl
@[simp] theorem updKerf_tu (f : KerfBlock → KerfBlock) (s : State) : (updKerf f s).tu = s.tu := rfl
@[simp] theorem updKerf_stakes (f : KerfBlock → KerfBlock) (s : State) : (updKerf f s).stakes = s.stakes := rfl
@[simp] theorem updKerf_opLines (f : KerfBlock → KerfBlock) (s : State) : (updKerf f s).opLines = s.opLines := rfl
@[simp] theorem updKerf_scatAdds (f : KerfBlock → KerfBlock) (s : State) : (updKerf f s).scatAdds = s.scatAdds := rfl
@[simp] theorem updKerf_outsideWrites (f : KerfBlock → KerfBlock) (s : State) : (updKerf f s).outsideWrites = s.outsideWrites := rfl
@[simp] theorem updKerf_opRegs (f : KerfBlock → KerfBlock) (s : State) : (updKerf f s).opRegs = s.opRegs := rfl
@[simp] theorem updKerf_hartContext (f : KerfBlock → KerfBlock) (s : State) : (updKerf f s).hartContext = s.hartContext := rfl
@[simp] theorem updKerf_kerf (f : KerfBlock → KerfBlock) (s : State) : (updKerf f s).kerf = f s.kerf := rfl
@[simp] theorem updKerf_fabric (f : KerfBlock → KerfBlock) (s : State) : (updKerf f s).fabric = s.fabric := rfl
@[simp] theorem updKerf_power (f : KerfBlock → KerfBlock) (s : State) : (updKerf f s).power = s.power := rfl
@[simp] theorem updKerf_landing (f : KerfBlock → KerfBlock) (s : State) : (updKerf f s).landing = s.landing := rfl
@[simp] theorem updKerf_mgmt (f : KerfBlock → KerfBlock) (s : State) : (updKerf f s).mgmt = s.mgmt := rfl
@[simp] theorem updKerf_err (f : KerfBlock → KerfBlock) (s : State) : (updKerf f s).err = s.err := rfl
@[simp] theorem updKerf_scaler (f : KerfBlock → KerfBlock) (s : State) : (updKerf f s).scaler = s.scaler := rfl

/-! ### updBundle -/

@[simp] theorem updBundle_pending (e b : Nat) (f : KerfBundle → KerfBundle) (s : State) : (updBundle e b f s).pending = s.pending := rfl
@[simp] theorem updBundle_now (e b : Nat) (f : KerfBundle → KerfBundle) (s : State) : (updBundle e b f s).now = s.now := rfl
@[simp] theorem updBundle_freeCount (e b : Nat) (f : KerfBundle → KerfBundle) (s : State) : (updBundle e b f s).freeCount = s.freeCount := rfl
@[simp] theorem updBundle_part (e b : Nat) (f : KerfBundle → KerfBundle) (s : State) : (updBundle e b f s).part = s.part := rfl
@[simp] theorem updBundle_boot (e b : Nat) (f : KerfBundle → KerfBundle) (s : State) : (updBundle e b f s).boot = s.boot := rfl
@[simp] theorem updBundle_life (e b : Nat) (f : KerfBundle → KerfBundle) (s : State) : (updBundle e b f s).life = s.life := rfl
@[simp] theorem updBundle_cfg (e b : Nat) (f : KerfBundle → KerfBundle) (s : State) : (updBundle e b f s).cfg = s.cfg := rfl
@[simp] theorem updBundle_roles (e b : Nat) (f : KerfBundle → KerfBundle) (s : State) : (updBundle e b f s).roles = s.roles := rfl
@[simp] theorem updBundle_groveResets (e b : Nat) (f : KerfBundle → KerfBundle) (s : State) : (updBundle e b f s).groveResets = s.groveResets := rfl
@[simp] theorem updBundle_mem (e b : Nat) (f : KerfBundle → KerfBundle) (s : State) : (updBundle e b f s).mem = s.mem := rfl
@[simp] theorem updBundle_scratch (e b : Nat) (f : KerfBundle → KerfBundle) (s : State) : (updBundle e b f s).scratch = s.scratch := rfl
@[simp] theorem updBundle_benches (e b : Nat) (f : KerfBundle → KerfBundle) (s : State) : (updBundle e b f s).benches = s.benches := rfl
@[simp] theorem updBundle_decks (e b : Nat) (f : KerfBundle → KerfBundle) (s : State) : (updBundle e b f s).decks = s.decks := rfl
@[simp] theorem updBundle_rings (e b : Nat) (f : KerfBundle → KerfBundle) (s : State) : (updBundle e b f s).rings = s.rings := rfl
@[simp] theorem updBundle_tasks (e b : Nat) (f : KerfBundle → KerfBundle) (s : State) : (updBundle e b f s).tasks = s.tasks := rfl
@[simp] theorem updBundle_groups (e b : Nat) (f : KerfBundle → KerfBundle) (s : State) : (updBundle e b f s).groups = s.groups := rfl
@[simp] theorem updBundle_stageTurns (e b : Nat) (f : KerfBundle → KerfBundle) (s : State) : (updBundle e b f s).stageTurns = s.stageTurns := rfl
@[simp] theorem updBundle_issueTurns (e b : Nat) (f : KerfBundle → KerfBundle) (s : State) : (updBundle e b f s).issueTurns = s.issueTurns := rfl
@[simp] theorem updBundle_tallyIssued (e b : Nat) (f : KerfBundle → KerfBundle) (s : State) : (updBundle e b f s).tallyIssued = s.tallyIssued := rfl
@[simp] theorem updBundle_tier (e b : Nat) (f : KerfBundle → KerfBundle) (s : State) : (updBundle e b f s).tier = s.tier := rfl
@[simp] theorem updBundle_tu (e b : Nat) (f : KerfBundle → KerfBundle) (s : State) : (updBundle e b f s).tu = s.tu := rfl
@[simp] theorem updBundle_stakes (e b : Nat) (f : KerfBundle → KerfBundle) (s : State) : (updBundle e b f s).stakes = s.stakes := rfl
@[simp] theorem updBundle_opLines (e b : Nat) (f : KerfBundle → KerfBundle) (s : State) : (updBundle e b f s).opLines = s.opLines := rfl
@[simp] theorem updBundle_scatAdds (e b : Nat) (f : KerfBundle → KerfBundle) (s : State) : (updBundle e b f s).scatAdds = s.scatAdds := rfl
@[simp] theorem updBundle_outsideWrites (e b : Nat) (f : KerfBundle → KerfBundle) (s : State) : (updBundle e b f s).outsideWrites = s.outsideWrites := rfl
@[simp] theorem updBundle_opRegs (e b : Nat) (f : KerfBundle → KerfBundle) (s : State) : (updBundle e b f s).opRegs = s.opRegs := rfl
@[simp] theorem updBundle_hartContext (e b : Nat) (f : KerfBundle → KerfBundle) (s : State) : (updBundle e b f s).hartContext = s.hartContext := rfl
@[simp] theorem updBundle_kerf (e b : Nat) (f : KerfBundle → KerfBundle) (s : State) : (updBundle e b f s).kerf = { s.kerf with bundles := s.kerf.bundles.update {} (e * 32 + b) f } := rfl
@[simp] theorem updBundle_fabric (e b : Nat) (f : KerfBundle → KerfBundle) (s : State) : (updBundle e b f s).fabric = s.fabric := rfl
@[simp] theorem updBundle_power (e b : Nat) (f : KerfBundle → KerfBundle) (s : State) : (updBundle e b f s).power = s.power := rfl
@[simp] theorem updBundle_landing (e b : Nat) (f : KerfBundle → KerfBundle) (s : State) : (updBundle e b f s).landing = s.landing := rfl
@[simp] theorem updBundle_mgmt (e b : Nat) (f : KerfBundle → KerfBundle) (s : State) : (updBundle e b f s).mgmt = s.mgmt := rfl
@[simp] theorem updBundle_err (e b : Nat) (f : KerfBundle → KerfBundle) (s : State) : (updBundle e b f s).err = s.err := rfl
@[simp] theorem updBundle_scaler (e b : Nat) (f : KerfBundle → KerfBundle) (s : State) : (updBundle e b f s).scaler = s.scaler := rfl

/-! ### updSite -/

@[simp] theorem updSite_pending (k : Nat) (f : Site → Site) (s : State) : (updSite k f s).pending = s.pending := rfl
@[simp] theorem updSite_now (k : Nat) (f : Site → Site) (s : State) : (updSite k f s).now = s.now := rfl
@[simp] theorem updSite_freeCount (k : Nat) (f : Site → Site) (s : State) : (updSite k f s).freeCount = s.freeCount := rfl
@[simp] theorem updSite_part (k : Nat) (f : Site → Site) (s : State) : (updSite k f s).part = s.part := rfl
@[simp] theorem updSite_boot (k : Nat) (f : Site → Site) (s : State) : (updSite k f s).boot = s.boot := rfl
@[simp] theorem updSite_life (k : Nat) (f : Site → Site) (s : State) : (updSite k f s).life = s.life := rfl
@[simp] theorem updSite_cfg (k : Nat) (f : Site → Site) (s : State) : (updSite k f s).cfg = s.cfg := rfl
@[simp] theorem updSite_roles (k : Nat) (f : Site → Site) (s : State) : (updSite k f s).roles = s.roles := rfl
@[simp] theorem updSite_groveResets (k : Nat) (f : Site → Site) (s : State) : (updSite k f s).groveResets = s.groveResets := rfl
@[simp] theorem updSite_mem (k : Nat) (f : Site → Site) (s : State) : (updSite k f s).mem = s.mem := rfl
@[simp] theorem updSite_scratch (k : Nat) (f : Site → Site) (s : State) : (updSite k f s).scratch = s.scratch := rfl
@[simp] theorem updSite_benches (k : Nat) (f : Site → Site) (s : State) : (updSite k f s).benches = s.benches := rfl
@[simp] theorem updSite_decks (k : Nat) (f : Site → Site) (s : State) : (updSite k f s).decks = s.decks := rfl
@[simp] theorem updSite_rings (k : Nat) (f : Site → Site) (s : State) : (updSite k f s).rings = s.rings := rfl
@[simp] theorem updSite_tasks (k : Nat) (f : Site → Site) (s : State) : (updSite k f s).tasks = s.tasks := rfl
@[simp] theorem updSite_groups (k : Nat) (f : Site → Site) (s : State) : (updSite k f s).groups = s.groups := rfl
@[simp] theorem updSite_stageTurns (k : Nat) (f : Site → Site) (s : State) : (updSite k f s).stageTurns = s.stageTurns := rfl
@[simp] theorem updSite_issueTurns (k : Nat) (f : Site → Site) (s : State) : (updSite k f s).issueTurns = s.issueTurns := rfl
@[simp] theorem updSite_tallyIssued (k : Nat) (f : Site → Site) (s : State) : (updSite k f s).tallyIssued = s.tallyIssued := rfl
@[simp] theorem updSite_tier (k : Nat) (f : Site → Site) (s : State) : (updSite k f s).tier = s.tier := rfl
@[simp] theorem updSite_tu (k : Nat) (f : Site → Site) (s : State) : (updSite k f s).tu = s.tu := rfl
@[simp] theorem updSite_stakes (k : Nat) (f : Site → Site) (s : State) : (updSite k f s).stakes = s.stakes := rfl
@[simp] theorem updSite_opLines (k : Nat) (f : Site → Site) (s : State) : (updSite k f s).opLines = s.opLines := rfl
@[simp] theorem updSite_scatAdds (k : Nat) (f : Site → Site) (s : State) : (updSite k f s).scatAdds = s.scatAdds := rfl
@[simp] theorem updSite_outsideWrites (k : Nat) (f : Site → Site) (s : State) : (updSite k f s).outsideWrites = s.outsideWrites := rfl
@[simp] theorem updSite_opRegs (k : Nat) (f : Site → Site) (s : State) : (updSite k f s).opRegs = s.opRegs := rfl
@[simp] theorem updSite_hartContext (k : Nat) (f : Site → Site) (s : State) : (updSite k f s).hartContext = s.hartContext := rfl
@[simp] theorem updSite_kerf (k : Nat) (f : Site → Site) (s : State) : (updSite k f s).kerf = { s.kerf with sites := s.kerf.sites.update {} k f } := rfl
@[simp] theorem updSite_fabric (k : Nat) (f : Site → Site) (s : State) : (updSite k f s).fabric = s.fabric := rfl
@[simp] theorem updSite_power (k : Nat) (f : Site → Site) (s : State) : (updSite k f s).power = s.power := rfl
@[simp] theorem updSite_landing (k : Nat) (f : Site → Site) (s : State) : (updSite k f s).landing = s.landing := rfl
@[simp] theorem updSite_mgmt (k : Nat) (f : Site → Site) (s : State) : (updSite k f s).mgmt = s.mgmt := rfl
@[simp] theorem updSite_err (k : Nat) (f : Site → Site) (s : State) : (updSite k f s).err = s.err := rfl
@[simp] theorem updSite_scaler (k : Nat) (f : Site → Site) (s : State) : (updSite k f s).scaler = s.scaler := rfl

/-! ### updObject -/

@[simp] theorem updObject_pending (o : Nat) (f : TierObject → TierObject) (s : State) : (updObject o f s).pending = s.pending := rfl
@[simp] theorem updObject_now (o : Nat) (f : TierObject → TierObject) (s : State) : (updObject o f s).now = s.now := rfl
@[simp] theorem updObject_freeCount (o : Nat) (f : TierObject → TierObject) (s : State) : (updObject o f s).freeCount = s.freeCount := rfl
@[simp] theorem updObject_part (o : Nat) (f : TierObject → TierObject) (s : State) : (updObject o f s).part = s.part := rfl
@[simp] theorem updObject_boot (o : Nat) (f : TierObject → TierObject) (s : State) : (updObject o f s).boot = s.boot := rfl
@[simp] theorem updObject_life (o : Nat) (f : TierObject → TierObject) (s : State) : (updObject o f s).life = s.life := rfl
@[simp] theorem updObject_cfg (o : Nat) (f : TierObject → TierObject) (s : State) : (updObject o f s).cfg = s.cfg := rfl
@[simp] theorem updObject_roles (o : Nat) (f : TierObject → TierObject) (s : State) : (updObject o f s).roles = s.roles := rfl
@[simp] theorem updObject_groveResets (o : Nat) (f : TierObject → TierObject) (s : State) : (updObject o f s).groveResets = s.groveResets := rfl
@[simp] theorem updObject_mem (o : Nat) (f : TierObject → TierObject) (s : State) : (updObject o f s).mem = s.mem := rfl
@[simp] theorem updObject_scratch (o : Nat) (f : TierObject → TierObject) (s : State) : (updObject o f s).scratch = s.scratch := rfl
@[simp] theorem updObject_benches (o : Nat) (f : TierObject → TierObject) (s : State) : (updObject o f s).benches = s.benches := rfl
@[simp] theorem updObject_decks (o : Nat) (f : TierObject → TierObject) (s : State) : (updObject o f s).decks = s.decks := rfl
@[simp] theorem updObject_rings (o : Nat) (f : TierObject → TierObject) (s : State) : (updObject o f s).rings = s.rings := rfl
@[simp] theorem updObject_tasks (o : Nat) (f : TierObject → TierObject) (s : State) : (updObject o f s).tasks = s.tasks := rfl
@[simp] theorem updObject_groups (o : Nat) (f : TierObject → TierObject) (s : State) : (updObject o f s).groups = s.groups := rfl
@[simp] theorem updObject_stageTurns (o : Nat) (f : TierObject → TierObject) (s : State) : (updObject o f s).stageTurns = s.stageTurns := rfl
@[simp] theorem updObject_issueTurns (o : Nat) (f : TierObject → TierObject) (s : State) : (updObject o f s).issueTurns = s.issueTurns := rfl
@[simp] theorem updObject_tallyIssued (o : Nat) (f : TierObject → TierObject) (s : State) : (updObject o f s).tallyIssued = s.tallyIssued := rfl
@[simp] theorem updObject_tu (o : Nat) (f : TierObject → TierObject) (s : State) : (updObject o f s).tu = s.tu := rfl
@[simp] theorem updObject_stakes (o : Nat) (f : TierObject → TierObject) (s : State) : (updObject o f s).stakes = s.stakes := rfl
@[simp] theorem updObject_opLines (o : Nat) (f : TierObject → TierObject) (s : State) : (updObject o f s).opLines = s.opLines := rfl
@[simp] theorem updObject_scatAdds (o : Nat) (f : TierObject → TierObject) (s : State) : (updObject o f s).scatAdds = s.scatAdds := rfl
@[simp] theorem updObject_outsideWrites (o : Nat) (f : TierObject → TierObject) (s : State) : (updObject o f s).outsideWrites = s.outsideWrites := rfl
@[simp] theorem updObject_opRegs (o : Nat) (f : TierObject → TierObject) (s : State) : (updObject o f s).opRegs = s.opRegs := rfl
@[simp] theorem updObject_hartContext (o : Nat) (f : TierObject → TierObject) (s : State) : (updObject o f s).hartContext = s.hartContext := rfl
@[simp] theorem updObject_kerf (o : Nat) (f : TierObject → TierObject) (s : State) : (updObject o f s).kerf = s.kerf := rfl
@[simp] theorem updObject_fabric (o : Nat) (f : TierObject → TierObject) (s : State) : (updObject o f s).fabric = s.fabric := rfl
@[simp] theorem updObject_power (o : Nat) (f : TierObject → TierObject) (s : State) : (updObject o f s).power = s.power := rfl
@[simp] theorem updObject_landing (o : Nat) (f : TierObject → TierObject) (s : State) : (updObject o f s).landing = s.landing := rfl
@[simp] theorem updObject_mgmt (o : Nat) (f : TierObject → TierObject) (s : State) : (updObject o f s).mgmt = s.mgmt := rfl
@[simp] theorem updObject_err (o : Nat) (f : TierObject → TierObject) (s : State) : (updObject o f s).err = s.err := rfl
@[simp] theorem updObject_scaler (o : Nat) (f : TierObject → TierObject) (s : State) : (updObject o f s).scaler = s.scaler := rfl

/-! ### updTransfer -/

@[simp] theorem updTransfer_pending (id : Nat) (f : Transfer → Transfer) (s : State) : (updTransfer id f s).pending = s.pending := rfl
@[simp] theorem updTransfer_now (id : Nat) (f : Transfer → Transfer) (s : State) : (updTransfer id f s).now = s.now := rfl
@[simp] theorem updTransfer_freeCount (id : Nat) (f : Transfer → Transfer) (s : State) : (updTransfer id f s).freeCount = s.freeCount := rfl
@[simp] theorem updTransfer_part (id : Nat) (f : Transfer → Transfer) (s : State) : (updTransfer id f s).part = s.part := rfl
@[simp] theorem updTransfer_boot (id : Nat) (f : Transfer → Transfer) (s : State) : (updTransfer id f s).boot = s.boot := rfl
@[simp] theorem updTransfer_life (id : Nat) (f : Transfer → Transfer) (s : State) : (updTransfer id f s).life = s.life := rfl
@[simp] theorem updTransfer_cfg (id : Nat) (f : Transfer → Transfer) (s : State) : (updTransfer id f s).cfg = s.cfg := rfl
@[simp] theorem updTransfer_roles (id : Nat) (f : Transfer → Transfer) (s : State) : (updTransfer id f s).roles = s.roles := rfl
@[simp] theorem updTransfer_groveResets (id : Nat) (f : Transfer → Transfer) (s : State) : (updTransfer id f s).groveResets = s.groveResets := rfl
@[simp] theorem updTransfer_mem (id : Nat) (f : Transfer → Transfer) (s : State) : (updTransfer id f s).mem = s.mem := rfl
@[simp] theorem updTransfer_scratch (id : Nat) (f : Transfer → Transfer) (s : State) : (updTransfer id f s).scratch = s.scratch := rfl
@[simp] theorem updTransfer_benches (id : Nat) (f : Transfer → Transfer) (s : State) : (updTransfer id f s).benches = s.benches := rfl
@[simp] theorem updTransfer_decks (id : Nat) (f : Transfer → Transfer) (s : State) : (updTransfer id f s).decks = s.decks := rfl
@[simp] theorem updTransfer_rings (id : Nat) (f : Transfer → Transfer) (s : State) : (updTransfer id f s).rings = s.rings := rfl
@[simp] theorem updTransfer_tasks (id : Nat) (f : Transfer → Transfer) (s : State) : (updTransfer id f s).tasks = s.tasks := rfl
@[simp] theorem updTransfer_groups (id : Nat) (f : Transfer → Transfer) (s : State) : (updTransfer id f s).groups = s.groups := rfl
@[simp] theorem updTransfer_stageTurns (id : Nat) (f : Transfer → Transfer) (s : State) : (updTransfer id f s).stageTurns = s.stageTurns := rfl
@[simp] theorem updTransfer_issueTurns (id : Nat) (f : Transfer → Transfer) (s : State) : (updTransfer id f s).issueTurns = s.issueTurns := rfl
@[simp] theorem updTransfer_tallyIssued (id : Nat) (f : Transfer → Transfer) (s : State) : (updTransfer id f s).tallyIssued = s.tallyIssued := rfl
@[simp] theorem updTransfer_tier (id : Nat) (f : Transfer → Transfer) (s : State) : (updTransfer id f s).tier = s.tier := rfl
@[simp] theorem updTransfer_tu (id : Nat) (f : Transfer → Transfer) (s : State) : (updTransfer id f s).tu = s.tu := rfl
@[simp] theorem updTransfer_stakes (id : Nat) (f : Transfer → Transfer) (s : State) : (updTransfer id f s).stakes = s.stakes := rfl
@[simp] theorem updTransfer_opLines (id : Nat) (f : Transfer → Transfer) (s : State) : (updTransfer id f s).opLines = s.opLines := rfl
@[simp] theorem updTransfer_scatAdds (id : Nat) (f : Transfer → Transfer) (s : State) : (updTransfer id f s).scatAdds = s.scatAdds := rfl
@[simp] theorem updTransfer_outsideWrites (id : Nat) (f : Transfer → Transfer) (s : State) : (updTransfer id f s).outsideWrites = s.outsideWrites := rfl
@[simp] theorem updTransfer_opRegs (id : Nat) (f : Transfer → Transfer) (s : State) : (updTransfer id f s).opRegs = s.opRegs := rfl
@[simp] theorem updTransfer_hartContext (id : Nat) (f : Transfer → Transfer) (s : State) : (updTransfer id f s).hartContext = s.hartContext := rfl
@[simp] theorem updTransfer_kerf (id : Nat) (f : Transfer → Transfer) (s : State) : (updTransfer id f s).kerf = s.kerf := rfl
@[simp] theorem updTransfer_power (id : Nat) (f : Transfer → Transfer) (s : State) : (updTransfer id f s).power = s.power := rfl
@[simp] theorem updTransfer_landing (id : Nat) (f : Transfer → Transfer) (s : State) : (updTransfer id f s).landing = s.landing := rfl
@[simp] theorem updTransfer_mgmt (id : Nat) (f : Transfer → Transfer) (s : State) : (updTransfer id f s).mgmt = s.mgmt := rfl
@[simp] theorem updTransfer_err (id : Nat) (f : Transfer → Transfer) (s : State) : (updTransfer id f s).err = s.err := rfl
@[simp] theorem updTransfer_scaler (id : Nat) (f : Transfer → Transfer) (s : State) : (updTransfer id f s).scaler = s.scaler := rfl

/-! ### reportAs -/

/-- Frames of port 71 change the rows it has sent and what it counts of them (R473). -/
theorem sendMaint_shape (rows : List (List Byte)) (s : State) (e : ErrBlock) :
    ∃ (b : ErrBlock) (ps : Table Port),
      sendMaint rows { s with err := e } = { s with err := b, fabric := { s.fabric with ports := ps } } := by
  unfold sendMaint
  split
  · exact ⟨_, _, rfl⟩
  · exact ⟨e, s.fabric.ports, rfl⟩

/-- A record changes the error unit's state and, where it is sent, what port 71 counts of its frames (R452, R473). -/
theorem reportAs_shape (cls : ErrClass) (e : ErrRecord) (s : State) :
    ∃ (b : ErrBlock) (ps : Table Port), reportAs cls e s = { s with err := b, fabric := { s.fabric with ports := ps } } := by
  unfold reportAs
  dsimp only
  split
  · exact ⟨s.err, s.fabric.ports, rfl⟩
  · exact sendMaint_shape _ s _

@[simp] theorem reportAs_pending (cls : ErrClass) (e : ErrRecord) (s : State) : (reportAs cls e s).pending = s.pending := by
  obtain ⟨_, _, h⟩ := reportAs_shape cls e s
  rw [h]
@[simp] theorem reportAs_now (cls : ErrClass) (e : ErrRecord) (s : State) : (reportAs cls e s).now = s.now := by
  obtain ⟨_, _, h⟩ := reportAs_shape cls e s
  rw [h]
@[simp] theorem reportAs_freeCount (cls : ErrClass) (e : ErrRecord) (s : State) : (reportAs cls e s).freeCount = s.freeCount := by
  obtain ⟨_, _, h⟩ := reportAs_shape cls e s
  rw [h]
@[simp] theorem reportAs_part (cls : ErrClass) (e : ErrRecord) (s : State) : (reportAs cls e s).part = s.part := by
  obtain ⟨_, _, h⟩ := reportAs_shape cls e s
  rw [h]
@[simp] theorem reportAs_boot (cls : ErrClass) (e : ErrRecord) (s : State) : (reportAs cls e s).boot = s.boot := by
  obtain ⟨_, _, h⟩ := reportAs_shape cls e s
  rw [h]
@[simp] theorem reportAs_life (cls : ErrClass) (e : ErrRecord) (s : State) : (reportAs cls e s).life = s.life := by
  obtain ⟨_, _, h⟩ := reportAs_shape cls e s
  rw [h]
@[simp] theorem reportAs_cfg (cls : ErrClass) (e : ErrRecord) (s : State) : (reportAs cls e s).cfg = s.cfg := by
  obtain ⟨_, _, h⟩ := reportAs_shape cls e s
  rw [h]
@[simp] theorem reportAs_roles (cls : ErrClass) (e : ErrRecord) (s : State) : (reportAs cls e s).roles = s.roles := by
  obtain ⟨_, _, h⟩ := reportAs_shape cls e s
  rw [h]
@[simp] theorem reportAs_groveResets (cls : ErrClass) (e : ErrRecord) (s : State) : (reportAs cls e s).groveResets = s.groveResets := by
  obtain ⟨_, _, h⟩ := reportAs_shape cls e s
  rw [h]
@[simp] theorem reportAs_mem (cls : ErrClass) (e : ErrRecord) (s : State) : (reportAs cls e s).mem = s.mem := by
  obtain ⟨_, _, h⟩ := reportAs_shape cls e s
  rw [h]
@[simp] theorem reportAs_scratch (cls : ErrClass) (e : ErrRecord) (s : State) : (reportAs cls e s).scratch = s.scratch := by
  obtain ⟨_, _, h⟩ := reportAs_shape cls e s
  rw [h]
@[simp] theorem reportAs_benches (cls : ErrClass) (e : ErrRecord) (s : State) : (reportAs cls e s).benches = s.benches := by
  obtain ⟨_, _, h⟩ := reportAs_shape cls e s
  rw [h]
@[simp] theorem reportAs_decks (cls : ErrClass) (e : ErrRecord) (s : State) : (reportAs cls e s).decks = s.decks := by
  obtain ⟨_, _, h⟩ := reportAs_shape cls e s
  rw [h]
@[simp] theorem reportAs_rings (cls : ErrClass) (e : ErrRecord) (s : State) : (reportAs cls e s).rings = s.rings := by
  obtain ⟨_, _, h⟩ := reportAs_shape cls e s
  rw [h]
@[simp] theorem reportAs_tasks (cls : ErrClass) (e : ErrRecord) (s : State) : (reportAs cls e s).tasks = s.tasks := by
  obtain ⟨_, _, h⟩ := reportAs_shape cls e s
  rw [h]
@[simp] theorem reportAs_groups (cls : ErrClass) (e : ErrRecord) (s : State) : (reportAs cls e s).groups = s.groups := by
  obtain ⟨_, _, h⟩ := reportAs_shape cls e s
  rw [h]
@[simp] theorem reportAs_stageTurns (cls : ErrClass) (e : ErrRecord) (s : State) : (reportAs cls e s).stageTurns = s.stageTurns := by
  obtain ⟨_, _, h⟩ := reportAs_shape cls e s
  rw [h]
@[simp] theorem reportAs_issueTurns (cls : ErrClass) (e : ErrRecord) (s : State) : (reportAs cls e s).issueTurns = s.issueTurns := by
  obtain ⟨_, _, h⟩ := reportAs_shape cls e s
  rw [h]
@[simp] theorem reportAs_tallyIssued (cls : ErrClass) (e : ErrRecord) (s : State) : (reportAs cls e s).tallyIssued = s.tallyIssued := by
  obtain ⟨_, _, h⟩ := reportAs_shape cls e s
  rw [h]
@[simp] theorem reportAs_tier (cls : ErrClass) (e : ErrRecord) (s : State) : (reportAs cls e s).tier = s.tier := by
  obtain ⟨_, _, h⟩ := reportAs_shape cls e s
  rw [h]
@[simp] theorem reportAs_tu (cls : ErrClass) (e : ErrRecord) (s : State) : (reportAs cls e s).tu = s.tu := by
  obtain ⟨_, _, h⟩ := reportAs_shape cls e s
  rw [h]
@[simp] theorem reportAs_stakes (cls : ErrClass) (e : ErrRecord) (s : State) : (reportAs cls e s).stakes = s.stakes := by
  obtain ⟨_, _, h⟩ := reportAs_shape cls e s
  rw [h]
@[simp] theorem reportAs_opLines (cls : ErrClass) (e : ErrRecord) (s : State) : (reportAs cls e s).opLines = s.opLines := by
  obtain ⟨_, _, h⟩ := reportAs_shape cls e s
  rw [h]
@[simp] theorem reportAs_scatAdds (cls : ErrClass) (e : ErrRecord) (s : State) : (reportAs cls e s).scatAdds = s.scatAdds := by
  obtain ⟨_, _, h⟩ := reportAs_shape cls e s
  rw [h]
@[simp] theorem reportAs_outsideWrites (cls : ErrClass) (e : ErrRecord) (s : State) : (reportAs cls e s).outsideWrites = s.outsideWrites := by
  obtain ⟨_, _, h⟩ := reportAs_shape cls e s
  rw [h]
@[simp] theorem reportAs_opRegs (cls : ErrClass) (e : ErrRecord) (s : State) : (reportAs cls e s).opRegs = s.opRegs := by
  obtain ⟨_, _, h⟩ := reportAs_shape cls e s
  rw [h]
@[simp] theorem reportAs_hartContext (cls : ErrClass) (e : ErrRecord) (s : State) : (reportAs cls e s).hartContext = s.hartContext := by
  obtain ⟨_, _, h⟩ := reportAs_shape cls e s
  rw [h]
@[simp] theorem reportAs_kerf (cls : ErrClass) (e : ErrRecord) (s : State) : (reportAs cls e s).kerf = s.kerf := by
  obtain ⟨_, _, h⟩ := reportAs_shape cls e s
  rw [h]
@[simp] theorem reportAs_power (cls : ErrClass) (e : ErrRecord) (s : State) : (reportAs cls e s).power = s.power := by
  obtain ⟨_, _, h⟩ := reportAs_shape cls e s
  rw [h]
@[simp] theorem reportAs_landing (cls : ErrClass) (e : ErrRecord) (s : State) : (reportAs cls e s).landing = s.landing := by
  obtain ⟨_, _, h⟩ := reportAs_shape cls e s
  rw [h]
@[simp] theorem reportAs_mgmt (cls : ErrClass) (e : ErrRecord) (s : State) : (reportAs cls e s).mgmt = s.mgmt := by
  obtain ⟨_, _, h⟩ := reportAs_shape cls e s
  rw [h]
@[simp] theorem reportAs_scaler (cls : ErrClass) (e : ErrRecord) (s : State) : (reportAs cls e s).scaler = s.scaler := by
  obtain ⟨_, _, h⟩ := reportAs_shape cls e s
  rw [h]

/-! ### report -/

@[simp] theorem report_pending (e : ErrRecord) (s : State) : (report e s).pending = s.pending := by
  obtain ⟨_, _, h⟩ := reportAs_shape (classOf e.code) e s
  rw [report, h]
@[simp] theorem report_now (e : ErrRecord) (s : State) : (report e s).now = s.now := by
  obtain ⟨_, _, h⟩ := reportAs_shape (classOf e.code) e s
  rw [report, h]
@[simp] theorem report_freeCount (e : ErrRecord) (s : State) : (report e s).freeCount = s.freeCount := by
  obtain ⟨_, _, h⟩ := reportAs_shape (classOf e.code) e s
  rw [report, h]
@[simp] theorem report_part (e : ErrRecord) (s : State) : (report e s).part = s.part := by
  obtain ⟨_, _, h⟩ := reportAs_shape (classOf e.code) e s
  rw [report, h]
@[simp] theorem report_boot (e : ErrRecord) (s : State) : (report e s).boot = s.boot := by
  obtain ⟨_, _, h⟩ := reportAs_shape (classOf e.code) e s
  rw [report, h]
@[simp] theorem report_life (e : ErrRecord) (s : State) : (report e s).life = s.life := by
  obtain ⟨_, _, h⟩ := reportAs_shape (classOf e.code) e s
  rw [report, h]
@[simp] theorem report_cfg (e : ErrRecord) (s : State) : (report e s).cfg = s.cfg := by
  obtain ⟨_, _, h⟩ := reportAs_shape (classOf e.code) e s
  rw [report, h]
@[simp] theorem report_roles (e : ErrRecord) (s : State) : (report e s).roles = s.roles := by
  obtain ⟨_, _, h⟩ := reportAs_shape (classOf e.code) e s
  rw [report, h]
@[simp] theorem report_groveResets (e : ErrRecord) (s : State) : (report e s).groveResets = s.groveResets := by
  obtain ⟨_, _, h⟩ := reportAs_shape (classOf e.code) e s
  rw [report, h]
@[simp] theorem report_mem (e : ErrRecord) (s : State) : (report e s).mem = s.mem := by
  obtain ⟨_, _, h⟩ := reportAs_shape (classOf e.code) e s
  rw [report, h]
@[simp] theorem report_scratch (e : ErrRecord) (s : State) : (report e s).scratch = s.scratch := by
  obtain ⟨_, _, h⟩ := reportAs_shape (classOf e.code) e s
  rw [report, h]
@[simp] theorem report_benches (e : ErrRecord) (s : State) : (report e s).benches = s.benches := by
  obtain ⟨_, _, h⟩ := reportAs_shape (classOf e.code) e s
  rw [report, h]
@[simp] theorem report_decks (e : ErrRecord) (s : State) : (report e s).decks = s.decks := by
  obtain ⟨_, _, h⟩ := reportAs_shape (classOf e.code) e s
  rw [report, h]
@[simp] theorem report_rings (e : ErrRecord) (s : State) : (report e s).rings = s.rings := by
  obtain ⟨_, _, h⟩ := reportAs_shape (classOf e.code) e s
  rw [report, h]
@[simp] theorem report_tasks (e : ErrRecord) (s : State) : (report e s).tasks = s.tasks := by
  obtain ⟨_, _, h⟩ := reportAs_shape (classOf e.code) e s
  rw [report, h]
@[simp] theorem report_groups (e : ErrRecord) (s : State) : (report e s).groups = s.groups := by
  obtain ⟨_, _, h⟩ := reportAs_shape (classOf e.code) e s
  rw [report, h]
@[simp] theorem report_stageTurns (e : ErrRecord) (s : State) : (report e s).stageTurns = s.stageTurns := by
  obtain ⟨_, _, h⟩ := reportAs_shape (classOf e.code) e s
  rw [report, h]
@[simp] theorem report_issueTurns (e : ErrRecord) (s : State) : (report e s).issueTurns = s.issueTurns := by
  obtain ⟨_, _, h⟩ := reportAs_shape (classOf e.code) e s
  rw [report, h]
@[simp] theorem report_tallyIssued (e : ErrRecord) (s : State) : (report e s).tallyIssued = s.tallyIssued := by
  obtain ⟨_, _, h⟩ := reportAs_shape (classOf e.code) e s
  rw [report, h]
@[simp] theorem report_tier (e : ErrRecord) (s : State) : (report e s).tier = s.tier := by
  obtain ⟨_, _, h⟩ := reportAs_shape (classOf e.code) e s
  rw [report, h]
@[simp] theorem report_tu (e : ErrRecord) (s : State) : (report e s).tu = s.tu := by
  obtain ⟨_, _, h⟩ := reportAs_shape (classOf e.code) e s
  rw [report, h]
@[simp] theorem report_stakes (e : ErrRecord) (s : State) : (report e s).stakes = s.stakes := by
  obtain ⟨_, _, h⟩ := reportAs_shape (classOf e.code) e s
  rw [report, h]
@[simp] theorem report_opLines (e : ErrRecord) (s : State) : (report e s).opLines = s.opLines := by
  obtain ⟨_, _, h⟩ := reportAs_shape (classOf e.code) e s
  rw [report, h]
@[simp] theorem report_scatAdds (e : ErrRecord) (s : State) : (report e s).scatAdds = s.scatAdds := by
  obtain ⟨_, _, h⟩ := reportAs_shape (classOf e.code) e s
  rw [report, h]
@[simp] theorem report_outsideWrites (e : ErrRecord) (s : State) : (report e s).outsideWrites = s.outsideWrites := by
  obtain ⟨_, _, h⟩ := reportAs_shape (classOf e.code) e s
  rw [report, h]
@[simp] theorem report_opRegs (e : ErrRecord) (s : State) : (report e s).opRegs = s.opRegs := by
  obtain ⟨_, _, h⟩ := reportAs_shape (classOf e.code) e s
  rw [report, h]
@[simp] theorem report_hartContext (e : ErrRecord) (s : State) : (report e s).hartContext = s.hartContext := by
  obtain ⟨_, _, h⟩ := reportAs_shape (classOf e.code) e s
  rw [report, h]
@[simp] theorem report_kerf (e : ErrRecord) (s : State) : (report e s).kerf = s.kerf := by
  obtain ⟨_, _, h⟩ := reportAs_shape (classOf e.code) e s
  rw [report, h]
@[simp] theorem report_power (e : ErrRecord) (s : State) : (report e s).power = s.power := by
  obtain ⟨_, _, h⟩ := reportAs_shape (classOf e.code) e s
  rw [report, h]
@[simp] theorem report_landing (e : ErrRecord) (s : State) : (report e s).landing = s.landing := by
  obtain ⟨_, _, h⟩ := reportAs_shape (classOf e.code) e s
  rw [report, h]
@[simp] theorem report_mgmt (e : ErrRecord) (s : State) : (report e s).mgmt = s.mgmt := by
  obtain ⟨_, _, h⟩ := reportAs_shape (classOf e.code) e s
  rw [report, h]
@[simp] theorem report_scaler (e : ErrRecord) (s : State) : (report e s).scaler = s.scaler := by
  obtain ⟨_, _, h⟩ := reportAs_shape (classOf e.code) e s
  rw [report, h]

@[simp] theorem reportAs_fabric_time (cls : ErrClass) (e : ErrRecord) (s : State) : (reportAs cls e s).fabric.time = s.fabric.time := by
  obtain ⟨_, _, h⟩ := reportAs_shape cls e s
  rw [h]
@[simp] theorem reportAs_fabric_counting (cls : ErrClass) (e : ErrRecord) (s : State) : (reportAs cls e s).fabric.counting = s.fabric.counting := by
  obtain ⟨_, _, h⟩ := reportAs_shape cls e s
  rw [h]
@[simp] theorem report_fabric_time (e : ErrRecord) (s : State) : (report e s).fabric.time = s.fabric.time := by
  obtain ⟨_, _, h⟩ := reportAs_shape (classOf e.code) e s
  rw [report, h]
@[simp] theorem report_fabric_counting (e : ErrRecord) (s : State) : (report e s).fabric.counting = s.fabric.counting := by
  obtain ⟨_, _, h⟩ := reportAs_shape (classOf e.code) e s
  rw [report, h]

/-! ### rawWrite -/

@[simp] theorem rawWrite_pending (pa : Nat) (bs : List Byte) (s : State) : (rawWrite pa bs s).pending = s.pending := rfl
@[simp] theorem rawWrite_now (pa : Nat) (bs : List Byte) (s : State) : (rawWrite pa bs s).now = s.now := rfl
@[simp] theorem rawWrite_freeCount (pa : Nat) (bs : List Byte) (s : State) : (rawWrite pa bs s).freeCount = s.freeCount := rfl
@[simp] theorem rawWrite_part (pa : Nat) (bs : List Byte) (s : State) : (rawWrite pa bs s).part = s.part := rfl
@[simp] theorem rawWrite_boot (pa : Nat) (bs : List Byte) (s : State) : (rawWrite pa bs s).boot = s.boot := rfl
@[simp] theorem rawWrite_life (pa : Nat) (bs : List Byte) (s : State) : (rawWrite pa bs s).life = s.life := rfl
@[simp] theorem rawWrite_cfg (pa : Nat) (bs : List Byte) (s : State) : (rawWrite pa bs s).cfg = s.cfg := rfl
@[simp] theorem rawWrite_roles (pa : Nat) (bs : List Byte) (s : State) : (rawWrite pa bs s).roles = s.roles := rfl
@[simp] theorem rawWrite_groveResets (pa : Nat) (bs : List Byte) (s : State) : (rawWrite pa bs s).groveResets = s.groveResets := rfl
@[simp] theorem rawWrite_mem (pa : Nat) (bs : List Byte) (s : State) : (rawWrite pa bs s).mem = memWrite s.mem pa bs := rfl
@[simp] theorem rawWrite_scratch (pa : Nat) (bs : List Byte) (s : State) : (rawWrite pa bs s).scratch = s.scratch := rfl
@[simp] theorem rawWrite_benches (pa : Nat) (bs : List Byte) (s : State) : (rawWrite pa bs s).benches = s.benches := rfl
@[simp] theorem rawWrite_decks (pa : Nat) (bs : List Byte) (s : State) : (rawWrite pa bs s).decks = s.decks := rfl
@[simp] theorem rawWrite_rings (pa : Nat) (bs : List Byte) (s : State) : (rawWrite pa bs s).rings = s.rings := rfl
@[simp] theorem rawWrite_tasks (pa : Nat) (bs : List Byte) (s : State) : (rawWrite pa bs s).tasks = s.tasks := rfl
@[simp] theorem rawWrite_groups (pa : Nat) (bs : List Byte) (s : State) : (rawWrite pa bs s).groups = s.groups := rfl
@[simp] theorem rawWrite_stageTurns (pa : Nat) (bs : List Byte) (s : State) : (rawWrite pa bs s).stageTurns = s.stageTurns := rfl
@[simp] theorem rawWrite_issueTurns (pa : Nat) (bs : List Byte) (s : State) : (rawWrite pa bs s).issueTurns = s.issueTurns := rfl
@[simp] theorem rawWrite_tallyIssued (pa : Nat) (bs : List Byte) (s : State) : (rawWrite pa bs s).tallyIssued = s.tallyIssued := rfl
@[simp] theorem rawWrite_tu (pa : Nat) (bs : List Byte) (s : State) : (rawWrite pa bs s).tu = s.tu := rfl
@[simp] theorem rawWrite_stakes (pa : Nat) (bs : List Byte) (s : State) : (rawWrite pa bs s).stakes = s.stakes := rfl
@[simp] theorem rawWrite_opLines (pa : Nat) (bs : List Byte) (s : State) : (rawWrite pa bs s).opLines = s.opLines := rfl
@[simp] theorem rawWrite_scatAdds (pa : Nat) (bs : List Byte) (s : State) : (rawWrite pa bs s).scatAdds = s.scatAdds := rfl
@[simp] theorem rawWrite_outsideWrites (pa : Nat) (bs : List Byte) (s : State) : (rawWrite pa bs s).outsideWrites = s.outsideWrites := rfl
@[simp] theorem rawWrite_opRegs (pa : Nat) (bs : List Byte) (s : State) : (rawWrite pa bs s).opRegs = s.opRegs := rfl
@[simp] theorem rawWrite_hartContext (pa : Nat) (bs : List Byte) (s : State) : (rawWrite pa bs s).hartContext = s.hartContext := rfl
@[simp] theorem rawWrite_kerf (pa : Nat) (bs : List Byte) (s : State) : (rawWrite pa bs s).kerf = s.kerf := rfl
@[simp] theorem rawWrite_fabric (pa : Nat) (bs : List Byte) (s : State) : (rawWrite pa bs s).fabric = s.fabric := rfl
@[simp] theorem rawWrite_power (pa : Nat) (bs : List Byte) (s : State) : (rawWrite pa bs s).power = s.power := rfl
@[simp] theorem rawWrite_mgmt (pa : Nat) (bs : List Byte) (s : State) : (rawWrite pa bs s).mgmt = s.mgmt := rfl
@[simp] theorem rawWrite_err (pa : Nat) (bs : List Byte) (s : State) : (rawWrite pa bs s).err = s.err := rfl
@[simp] theorem rawWrite_scaler (pa : Nat) (bs : List Byte) (s : State) : (rawWrite pa bs s).scaler = s.scaler := rfl

/-! ### zeroRange -/

@[simp] theorem zeroRange_pending (pa n : Nat) (s : State) : (zeroRange pa n s).pending = s.pending := rfl
@[simp] theorem zeroRange_now (pa n : Nat) (s : State) : (zeroRange pa n s).now = s.now := rfl
@[simp] theorem zeroRange_freeCount (pa n : Nat) (s : State) : (zeroRange pa n s).freeCount = s.freeCount := rfl
@[simp] theorem zeroRange_part (pa n : Nat) (s : State) : (zeroRange pa n s).part = s.part := rfl
@[simp] theorem zeroRange_boot (pa n : Nat) (s : State) : (zeroRange pa n s).boot = s.boot := rfl
@[simp] theorem zeroRange_life (pa n : Nat) (s : State) : (zeroRange pa n s).life = s.life := rfl
@[simp] theorem zeroRange_cfg (pa n : Nat) (s : State) : (zeroRange pa n s).cfg = s.cfg := rfl
@[simp] theorem zeroRange_roles (pa n : Nat) (s : State) : (zeroRange pa n s).roles = s.roles := rfl
@[simp] theorem zeroRange_groveResets (pa n : Nat) (s : State) : (zeroRange pa n s).groveResets = s.groveResets := rfl
@[simp] theorem zeroRange_mem (pa n : Nat) (s : State) : (zeroRange pa n s).mem = memZero s.mem pa n := rfl
@[simp] theorem zeroRange_scratch (pa n : Nat) (s : State) : (zeroRange pa n s).scratch = s.scratch := rfl
@[simp] theorem zeroRange_benches (pa n : Nat) (s : State) : (zeroRange pa n s).benches = s.benches := rfl
@[simp] theorem zeroRange_decks (pa n : Nat) (s : State) : (zeroRange pa n s).decks = s.decks := rfl
@[simp] theorem zeroRange_rings (pa n : Nat) (s : State) : (zeroRange pa n s).rings = s.rings := rfl
@[simp] theorem zeroRange_tasks (pa n : Nat) (s : State) : (zeroRange pa n s).tasks = s.tasks := rfl
@[simp] theorem zeroRange_groups (pa n : Nat) (s : State) : (zeroRange pa n s).groups = s.groups := rfl
@[simp] theorem zeroRange_stageTurns (pa n : Nat) (s : State) : (zeroRange pa n s).stageTurns = s.stageTurns := rfl
@[simp] theorem zeroRange_issueTurns (pa n : Nat) (s : State) : (zeroRange pa n s).issueTurns = s.issueTurns := rfl
@[simp] theorem zeroRange_tallyIssued (pa n : Nat) (s : State) : (zeroRange pa n s).tallyIssued = s.tallyIssued := rfl
@[simp] theorem zeroRange_tu (pa n : Nat) (s : State) : (zeroRange pa n s).tu = s.tu := rfl
@[simp] theorem zeroRange_stakes (pa n : Nat) (s : State) : (zeroRange pa n s).stakes = s.stakes := rfl
@[simp] theorem zeroRange_opLines (pa n : Nat) (s : State) : (zeroRange pa n s).opLines = s.opLines := rfl
@[simp] theorem zeroRange_scatAdds (pa n : Nat) (s : State) : (zeroRange pa n s).scatAdds = s.scatAdds := rfl
@[simp] theorem zeroRange_outsideWrites (pa n : Nat) (s : State) : (zeroRange pa n s).outsideWrites = s.outsideWrites := rfl
@[simp] theorem zeroRange_opRegs (pa n : Nat) (s : State) : (zeroRange pa n s).opRegs = s.opRegs := rfl
@[simp] theorem zeroRange_hartContext (pa n : Nat) (s : State) : (zeroRange pa n s).hartContext = s.hartContext := rfl
@[simp] theorem zeroRange_kerf (pa n : Nat) (s : State) : (zeroRange pa n s).kerf = s.kerf := rfl
@[simp] theorem zeroRange_fabric (pa n : Nat) (s : State) : (zeroRange pa n s).fabric = s.fabric := rfl
@[simp] theorem zeroRange_power (pa n : Nat) (s : State) : (zeroRange pa n s).power = s.power := rfl
@[simp] theorem zeroRange_mgmt (pa n : Nat) (s : State) : (zeroRange pa n s).mgmt = s.mgmt := rfl
@[simp] theorem zeroRange_err (pa n : Nat) (s : State) : (zeroRange pa n s).err = s.err := rfl
@[simp] theorem zeroRange_scaler (pa n : Nat) (s : State) : (zeroRange pa n s).scaler = s.scaler := rfl

/-! ### scratchWrite -/

@[simp] theorem scratchWrite_pending (bench off : Nat) (bs : List Byte) (s : State) : (scratchWrite bench off bs s).pending = s.pending := rfl
@[simp] theorem scratchWrite_now (bench off : Nat) (bs : List Byte) (s : State) : (scratchWrite bench off bs s).now = s.now := rfl
@[simp] theorem scratchWrite_freeCount (bench off : Nat) (bs : List Byte) (s : State) : (scratchWrite bench off bs s).freeCount = s.freeCount := rfl
@[simp] theorem scratchWrite_part (bench off : Nat) (bs : List Byte) (s : State) : (scratchWrite bench off bs s).part = s.part := rfl
@[simp] theorem scratchWrite_boot (bench off : Nat) (bs : List Byte) (s : State) : (scratchWrite bench off bs s).boot = s.boot := rfl
@[simp] theorem scratchWrite_life (bench off : Nat) (bs : List Byte) (s : State) : (scratchWrite bench off bs s).life = s.life := rfl
@[simp] theorem scratchWrite_cfg (bench off : Nat) (bs : List Byte) (s : State) : (scratchWrite bench off bs s).cfg = s.cfg := rfl
@[simp] theorem scratchWrite_roles (bench off : Nat) (bs : List Byte) (s : State) : (scratchWrite bench off bs s).roles = s.roles := rfl
@[simp] theorem scratchWrite_groveResets (bench off : Nat) (bs : List Byte) (s : State) : (scratchWrite bench off bs s).groveResets = s.groveResets := rfl
@[simp] theorem scratchWrite_mem (bench off : Nat) (bs : List Byte) (s : State) : (scratchWrite bench off bs s).mem = s.mem := rfl
@[simp] theorem scratchWrite_scratch (bench off : Nat) (bs : List Byte) (s : State) : (scratchWrite bench off bs s).scratch = memWrite s.scratch (bench * scratchSize + off) bs := rfl
@[simp] theorem scratchWrite_benches (bench off : Nat) (bs : List Byte) (s : State) : (scratchWrite bench off bs s).benches = s.benches := rfl
@[simp] theorem scratchWrite_decks (bench off : Nat) (bs : List Byte) (s : State) : (scratchWrite bench off bs s).decks = s.decks := rfl
@[simp] theorem scratchWrite_rings (bench off : Nat) (bs : List Byte) (s : State) : (scratchWrite bench off bs s).rings = s.rings := rfl
@[simp] theorem scratchWrite_tasks (bench off : Nat) (bs : List Byte) (s : State) : (scratchWrite bench off bs s).tasks = s.tasks := rfl
@[simp] theorem scratchWrite_groups (bench off : Nat) (bs : List Byte) (s : State) : (scratchWrite bench off bs s).groups = s.groups := rfl
@[simp] theorem scratchWrite_stageTurns (bench off : Nat) (bs : List Byte) (s : State) : (scratchWrite bench off bs s).stageTurns = s.stageTurns := rfl
@[simp] theorem scratchWrite_issueTurns (bench off : Nat) (bs : List Byte) (s : State) : (scratchWrite bench off bs s).issueTurns = s.issueTurns := rfl
@[simp] theorem scratchWrite_tallyIssued (bench off : Nat) (bs : List Byte) (s : State) : (scratchWrite bench off bs s).tallyIssued = s.tallyIssued := rfl
@[simp] theorem scratchWrite_tier (bench off : Nat) (bs : List Byte) (s : State) : (scratchWrite bench off bs s).tier = s.tier := rfl
@[simp] theorem scratchWrite_tu (bench off : Nat) (bs : List Byte) (s : State) : (scratchWrite bench off bs s).tu = s.tu := rfl
@[simp] theorem scratchWrite_stakes (bench off : Nat) (bs : List Byte) (s : State) : (scratchWrite bench off bs s).stakes = s.stakes := rfl
@[simp] theorem scratchWrite_opLines (bench off : Nat) (bs : List Byte) (s : State) : (scratchWrite bench off bs s).opLines = s.opLines := rfl
@[simp] theorem scratchWrite_scatAdds (bench off : Nat) (bs : List Byte) (s : State) : (scratchWrite bench off bs s).scatAdds = s.scatAdds := rfl
@[simp] theorem scratchWrite_outsideWrites (bench off : Nat) (bs : List Byte) (s : State) : (scratchWrite bench off bs s).outsideWrites = s.outsideWrites := rfl
@[simp] theorem scratchWrite_opRegs (bench off : Nat) (bs : List Byte) (s : State) : (scratchWrite bench off bs s).opRegs = s.opRegs := rfl
@[simp] theorem scratchWrite_hartContext (bench off : Nat) (bs : List Byte) (s : State) : (scratchWrite bench off bs s).hartContext = s.hartContext := rfl
@[simp] theorem scratchWrite_kerf (bench off : Nat) (bs : List Byte) (s : State) : (scratchWrite bench off bs s).kerf = s.kerf := rfl
@[simp] theorem scratchWrite_fabric (bench off : Nat) (bs : List Byte) (s : State) : (scratchWrite bench off bs s).fabric = s.fabric := rfl
@[simp] theorem scratchWrite_power (bench off : Nat) (bs : List Byte) (s : State) : (scratchWrite bench off bs s).power = s.power := rfl
@[simp] theorem scratchWrite_landing (bench off : Nat) (bs : List Byte) (s : State) : (scratchWrite bench off bs s).landing = s.landing := rfl
@[simp] theorem scratchWrite_mgmt (bench off : Nat) (bs : List Byte) (s : State) : (scratchWrite bench off bs s).mgmt = s.mgmt := rfl
@[simp] theorem scratchWrite_err (bench off : Nat) (bs : List Byte) (s : State) : (scratchWrite bench off bs s).err = s.err := rfl
@[simp] theorem scratchWrite_scaler (bench off : Nat) (bs : List Byte) (s : State) : (scratchWrite bench off bs s).scaler = s.scaler := rfl

end Sys2Proof.Machine
end

