-- ==== Sys2Proof/Laws/Xts.lean ====
section
/-!
SUPPORT. Laws/Xts.lean: data units through XTS keep their length (R307).
-/

namespace Sys2Proof.Machine

theorem length_bytesOfNat (n v : Nat) : (bytesOfNat n v).length = n := by
  induction n generalizing v with
  | zero => rfl
  | succ n ih => simp [bytesOfNat, ih]

theorem length_xorBytes (a b : List Byte) : (xorBytes a b).length = min a.length b.length := by simp [xorBytes]

theorem length_aesShift (k : Nat) (st : List Byte) : (aesShift k st).length = 16 := by simp [aesShift]

/-- The key schedule grows by one word of four bytes at a time. -/
theorem aesExpand_words (k : Nat) : ∀ (i : Nat) (rc : Byte) (ws : List (List Byte)), 8 ≤ ws.length → (∀ w ∈ ws, w.length = 4) →
    (aesExpand k i rc ws).length = ws.length + k ∧ ∀ w ∈ aesExpand k i rc ws, w.length = 4 := by
  induction k with
  | zero => intro i rc ws _ h; exact ⟨rfl, h⟩
  | succ k ih =>
    intro i rc ws hl h
    have at_ (j : Nat) (hj : j < 8) : (ws.getD j []).length = 4 := by
      rw [List.getD_eq_getElem _ _ (by omega)]; exact h _ (List.getElem_mem _)
    have h0 := at_ 0 (by omega)
    have h7 := at_ 7 (by omega)
    unfold aesExpand
    have key : ∀ t : List Byte, t.length = 4 → ∀ w ∈ xorBytes (ws.getD 7 []) t :: ws, w.length = 4 := by
      intro t ht w hw
      rcases List.mem_cons.mp hw with rfl | hw
      · simp only [length_xorBytes, h7, ht]; rfl
      · exact h w hw
    dsimp only
    have fin : ∀ (t : List Byte) (rc' : Byte), t.length = 4 →
        (aesExpand k (i + 1) rc' (xorBytes (ws.getD 7 []) t :: ws)).length = ws.length + (k + 1) ∧
        ∀ w ∈ aesExpand k (i + 1) rc' (xorBytes (ws.getD 7 []) t :: ws), w.length = 4 := by
      intro t rc' ht
      have := ih (i + 1) rc' (xorBytes (ws.getD 7 []) t :: ws) (by simp; omega) (key t ht)
      refine ⟨?_, this.2⟩
      rw [this.1]; simp; omega
    apply fin
    split
    · have hr : ((ws.getD 0 []).drop 1 ++ (ws.getD 0 []).take 1).length = 4 := by
        rw [List.length_append, List.length_drop, List.length_take, h0]; rfl
      split
      · rename_i b bs hb
        have := congrArg List.length hb
        simp only [List.length_map, hr, List.length_cons] at this
        simp; omega
      · rename_i hb
        have := congrArg List.length hb
        simp only [List.length_map, hr, List.length_nil] at this
        omega
    · split
      · simpa using h0
      · exact h0

/-- A round key has sixteen bytes. -/
theorem length_aesKeys (key : List Byte) (r : Nat) (hr : r < 15) : ((aesKeys key).getD r []).length = 16 := by
  have hw : ∀ w ∈ ((List.range 8).map fun i => sliceBytes key (4 * i) 4).reverse, w.length = 4 := by
    intro w h
    simp only [List.mem_reverse, List.mem_map, List.mem_range] at h
    obtain ⟨i, hi, rfl⟩ := h
    simp [sliceBytes]; try omega
  have h := aesExpand_words 52 8 1#8 _ (by simp) hw
  unfold aesKeys
  dsimp only
  rw [List.getD_eq_getElem _ _ (by simpa using hr)]
  simp only [List.getElem_map, List.getElem_range]
  have hl : (List.take 4 (List.drop (4 * r) (aesExpand 52 8 1#8 ((List.range 8).map fun i => sliceBytes key (4 * i) 4).reverse).reverse)).length = 4 := by
    have h1 := h.1
    simp only [List.length_reverse, List.length_map, List.length_range] at h1
    simp [h1]; omega
  have hall : ∀ w ∈ List.take 4 (List.drop (4 * r) (aesExpand 52 8 1#8 ((List.range 8).map fun i => sliceBytes key (4 * i) 4).reverse).reverse), w.length = 4 := by
    intro w hw2
    exact h.2 w (List.mem_reverse.mp (List.mem_of_mem_drop (List.mem_of_mem_take hw2)))
  revert hl hall
  generalize List.take 4 _ = l
  intro hl hall
  rw [List.length_flatten]
  have : l.map List.length = List.replicate 4 4 :=
    List.eq_replicate_iff.mpr ⟨by simp [hl], fun b hb => by obtain ⟨w, hw3, rfl⟩ := List.mem_map.mp hb; exact hall w hw3⟩
  rw [this]; rfl

theorem length_xtsBlocks (f : List Byte → List Byte) (hf : ∀ b, (f b).length = 16) (n t : Nat) (bs : List Byte) :
    (xtsBlocks f n t bs).length = 16 * n := by
  induction n generalizing t bs with
  | zero => rfl
  | succ n ih => simp [xtsBlocks, ih, length_xorBytes, hf, length_bytesOfNat]; omega

/-- A data unit has 512 bytes. -/
theorem length_xtsUnit (enc : Bool) (key : BitVec 512) (unit : Nat) (bs : List Byte) : (xtsUnit enc key unit bs).length = 512 := by
  unfold xtsUnit
  dsimp only
  rw [length_xtsBlocks]
  intro b
  cases enc
  · simp only [Bool.false_eq_true, if_false, aesDecrypt, length_xorBytes, length_aesKeys _ 0 (by omega)]
    refine Nat.min_eq_right ?_
    have : ∀ (ks : List (List Byte)) (st : List Byte), st.length = 16 → (ks.foldl
        (fun st k => (aesShift 3 (aesMix [14#8, 11#8, 13#8, 9#8] (xorBytes st k))).map aesInvSub) st).length = 16 := by
      intro ks
      induction ks with
      | nil => intro st h; exact h
      | cons k ks ih => intro st h; exact ih _ (by simp [length_aesShift])
    rw [this]; simp [length_aesShift]
  · simp only [if_true, aesEncrypt, length_xorBytes, length_aesShift, length_aesKeys _ 14 (by omega)]; rfl

/-- A range of data units keeps its length. -/
theorem length_xtsRange (enc : Bool) (key : BitVec 512) (k unit : Nat) (bs : List Byte) : (xtsRange enc key k unit bs).length = 512 * k := by
  induction k generalizing unit bs with
  | zero => rfl
  | succ k ih => simp [xtsRange, ih, length_xtsUnit]; omega

end Sys2Proof.Machine
end

