-- ==== Sys2Proof/WellFormed.lean ====
section
/-!
DEFINITION. WellFormed.lean: which commands name things that exist: the ranges that the spec gives groves, benches, rings, ports,
windows, edges and the rest. A command that is not well formed names nothing; its meaning then leaves the state as it is or
answers the refusal the spec gives.
-/

namespace Sys2Proof

open Sys2Proof.Machine

/-! ### Ranges -/

/-- A grove and a bench number: 4 groves of 128 benches (R22). -/
def okGrove (g : Nat) : Bool := decide (g < 4)
def okBench (n : Nat) : Bool := decide (n < 512)
/-- A ring (R223). -/
def okRing (r : Nat) : Bool := decide (r < 1024)
/-- A Genpex port (R362), a root port (R433), a window (R372), a module index (R23). -/
def okPort (p : Nat) : Bool := decide (p < 72)
def okRootPort (p : Nat) : Bool := decide (p < 2)
def okWindow (w : Nat) : Bool := decide (w < 256)
def okModule (m : Nat) : Bool := decide (m < 49152)
/-- A Kerf bundle of an edge (R337). -/
def okBundle (e b : Nat) : Bool := decide (e < 10) && decide (b < if e < 8 then 32 else 16)
/-- A flit of 256 bytes between two dies: two rows of one 2 KiB unit, messages, or a frame of a port, which runs to or from a fabric port
die (R339, R346). -/
def okFlit (f : KerfFlit) : Bool :=
  decide (f.source < 7 ∧ f.dest < 7 ∧ f.source ≠ f.dest) && decide (f.bytes.length = 256) && match f.content with
    | .rows a b => decide (a % 128 = 0 ∧ b % 128 = 0 ∧ a / 2048 = b / 2048 ∧ a ≠ b)
    | .hub ms => !ms.isEmpty
    | .frame p _ => decide (p < 72)
/-- A site (R353), a hart (R424), a channel (R470), an injection slot (R464), an APLIC source (R432). -/
def okSite (k : Nat) : Bool := decide (k < 2)
def okHart (h : Nat) : Bool := decide (h < 64)
def okChannel (c : Nat) : Bool := decide (c < 16)
def okSlot (k : Nat) : Bool := decide (k < 16)
def okSource (i : Nat) : Bool := decide (1 ≤ i ∧ i ≤ 9)
/-- A physical address of 48 bits (R475), a tier object (R283), a fault batch slot (R295). -/
def okPa (a : Nat) : Bool := decide (a < 2 ^ 48)
def okObject (o : Nat) : Bool := decide (o < 4096)
def okBatch (k : Nat) : Bool := decide (k < 8)
/-- The tier offset of an ashlar (R264, R265). -/
def okAshlar (a : Nat) : Bool := decide (a < 0x400000000000 ∧ a % 0x10000 = 0)
/-- A stack or package (R281), a temperature byte (R283). -/
def okDevice (d : Nat) : Bool := decide (d < 24)
def okTemp (t : Nat) : Bool := decide (t < 256)
/-- A context of 16 bits (R286), a cord key epoch (R367), a cord (R52). -/
def okContext (c : Nat) : Bool := decide (c < 2 ^ 16)
def okEpoch (e : Nat) : Bool := decide (e < 2)
def okCord (c : Nat) : Bool := decide (c < 1024)
/-- Input voltages that the spec characterises (R490, R492). -/
def okMv (mv : Nat) : Bool := decide (mv ≤ 26400)
/-- The address of a hart's access, of 64 bits, with the root page tables that translate it (R15, R288, R289). -/
def okRoot (align : Nat) (root : Option Nat) : Bool := root.all fun t => decide (t < 2 ^ 56 ∧ t % align = 0)
def okHartAddr (x : HartView) (a : Nat) : Bool := decide (a < 2 ^ 64) && okRoot 4096 x.root && okRoot 16384 x.guest
/-- Sizes of an access of a hart, up to a block of Zicboz (R327, R424, R426). -/
def okSize (n : Nat) : Bool := decide (1 ≤ n ∧ n ≤ 64)
def okAtomicSize (op : AmoOp) (n : Nat) : Bool := n == 4 || n == 8 || (n == 16 && decide (op = .cas))

/-- The parts a start finds exist. -/
def okInputs (x : StartInputs) : Bool :=
  x.silentDies.all (fun d => decide (d < 6)) && x.steppings.all (fun e => decide (e.1 < 7 ∧ e.2 < 256)) &&
  x.lanes.all (fun l => okBundle l.edge l.bundle) && x.deviceLanes.all (fun e => okDevice e.1) && x.badGroves.all okGrove &&
  x.badBenches.all okBench && decide (x.sites.length ≤ 2) && decide (x.straps < 8) && decide (x.pcie.length ≤ 2)

/-- A sensor of R407. -/
def okSensor : Sensor → Bool
  | .grove g i => okGrove g && decide (i < 16)
  | .stack n => decide (n < 12)
  | .package n => decide (n < 12)
  | .landing i => decide (i < 8)
  | .portDie d i => decide (d < 2) && decide (i < 4)
  | .alwaysOn i => decide (i < 256)

/-- What each command names exists. -/
def Instr.wf (i : Instr) : Bool :=
  match i with
  | .coldStart x | .warmResetResume x | .brownOutRestart x => okInputs x
  | .portTrainTimeout | .moduleResetNRecognised | .powerLoss => true
  | .inputBrownOut mv | .inputLowLimit mv | .inputLowLimitEnd mv => okMv mv
  | .groveResetRequest g | .deckZeroingDone g | .opcacheInvalDone g | .grant g | .staggeredStart g | .poolRefill g | .pllSleep g
  | .pllRelockDone g | .droop g | .droopRecover g | .droopStartHoldoffEnd g | .tallyStateError g => okGrove g
  | .groveResetComplete g bad => okGrove g && bad.all okBench
  | .benchQuarantine g b => okGrove g && decide (b < 128)
  | .epochAdvance n => okBench n
  | .unitMessage m => okModule m.origin || m.origin == 0xFFFF
  | .staleEpochNotice n => decide (1 ≤ n.state ∧ n.state ≤ 3)
  | .stageOpen _ slot => decide (slot < 2)
  | .stageWrite _ off data => decide (1 ≤ data.length ∧ data.length ≤ 64) && decide (off + data.length ≤ 32505856)
  | .stageVerify _ | .stageSelect _ | .stageAbort _ | .imageConfirm _ => true
  | .startRecordRead _ n => decide (n ≤ 16)
  | .ringDoorbell r _ => okRing r
  | .ringEnable r | .ringPause r | .ringResume r | .ringReset r | .failureAcknowledge r | .taskStage r => okRing r
  | .benchReport r n => okRing r && okBench n
  | .counterChangeObserved pa => okPa pa
  | .fenceTimeout o => match o with
    | .task r _ => okRing r
    | .group _ => true
  | .matmul r _ | .semiring r _ | .vector r _ | .fenceWait r _ | .fenceSignal r _ | .enqueue r _ | .enqueueAppend r _ | .barrier r _
  | .barrierComplete r _ | .taskComplete r _ | .deckCreate r _ | .deckExtendProvisional r _ | .deckExtendCommitted r _ | .deckWrite r _
  | .deckRead r _ | .deckCommit r _ | .deckRollback r _ | .deckFork r _ | .deckRelease r _ | .deckQuery r _ | .copy r _ | .fill r _
  | .prefetch r _ | .evict r _ | .flashWrite r _ | .pageWalkDone r _ => okRing r
  | .passStart n | .tileDrain n | .tileBoundary n | .dresserEntryStart n | .skidEntryFree n | .dresserParityError n | .nop n | .load n
  | .loadskid n | .store n | .sload n | .sstore n | .gather n | .scatter n | .scatadd n | .mov n | .iota n | .select n | .add n | .sub n
  | .mul n | .fma n | .min n | .max n | .abs n | .neg n | .clamp n | .rcp n | .sqrt n | .rsqrt n | .exp n | .log n | .tanh n | .sigmoid n
  | .silu n | .gelu n | .relu n | .rope n | .div n | .cmp n | .mand n | .mor n | .mnot n | .iadd n | .isub n | .imul n | .imin n | .imax n
  | .ishr n | .cvti n | .cvtf n | .rsum n | .rmax n | .rmin n | .topkClear n | .topk n | .topkEmit n | .grantRequest n
  | .topUpRequest n => okBench n
  | .arrayParityError n code => okBench n && decide (0x2201 ≤ code.toNat ∧ code.toNat ≤ 0x2204)
  | .skidEntryError n _ => okBench n
  | .deckEnable g _ | .opcacheInval g _ => okGrove g
  | .deckScrubDone g slot => okGrove g && decide (slot < 16384)
  | .deckTruncation _ _ | .deckRelabel _ _ => true
  | .migration off => decide (off < 0x400000000000)
  | .migrationComplete a | .replicaTimeout a => okAshlar a
  | .replicaFetchArrival a data => okAshlar a && decide (data.length = 0x10000)
  | .correctedError pa | .uncorrectableRead pa | .systemCacheLineError pa => okPa pa
  | .tierEnable _ | .tierStatusRead => true
  | .objectValidate o _ | .objectDrain o _ => okObject o
  | .objectDrainDone o => okObject o
  | .stackTempReport d t => okDevice d && okTemp t
  | .batchTimerClose | .flush | .tuFbDone _ | .tuCtxEnable _ | .tuFbEnable _ | .tuInval _ | .invalidationDrainDone => true
  | .batchAnswerTimeout k => okBatch k
  | .assign _ | .release _ | .revokeSeal _ | .stakeReleaseDone | .stakeAssignDone => true
  | .sealContext _ c _ | .unsealContext _ c => okContext c
  | .sealStakes _ c a _ => okContext c && okPa a
  | .setExport _ c a _ _ => okContext c && okPa a
  | .installCordKey _ c e _ _ _ => okCord c && okEpoch e
  | .activateCordKey _ c e | .eraseCordKey _ c e => okCord c && okEpoch e
  | .hartLoad h _ a n _ x => okHart h && okHartAddr x a && okSize n
  | .hartStore h _ a n _ x => okHart h && okHartAddr x a && okSize n
  | .hartAtomic h _ op a n _ _ _ x => okHart h && okHartAddr x a && okAtomicSize op n
  | .combinedStoreSend h _ | .accFaultAccess h _ _ _ => okHart h
  | .loadBarrier h | .storeBarrier h | .fullBarrier h | .deferredStoreFault h _ => okHart h
  | .postedWriteCheckFail a c _ => okPa a && okContext c
  | .imsicMsi a _ => okPa a
  | .aplicSourceChange i => okSource i
  | .pcieInbound p _ | .pcieLinkChange p _ _ _ => okRootPort p
  | .mailboxGo _ | .mgmtResponse | .mgmtHeartbeat | .mgmtLongOpDone => true
  | .mctpControl _ m => !m.isEmpty
  | .getIdentity _ | .getStatus _ | .moduleReset _ => true
  | .readRegister _ a | .writeRegister _ a _ => okPa a
  | .readErrorRecords _ n => decide (1 ≤ n ∧ n ≤ 16)
  | .retrain _ kind p => (kind == 0 && okPort p) || (kind == 1 && okRootPort p)
  | .inject _ _ _ _ => true
  | .getVersion | .getCapabilities | .negotiateAlgorithms | .getDigests => true
  | .getCertificate slot _ _ | .challenge slot _ => decide (slot < 8)
  | .getMeasurements _ i _ => decide (i < 256)
  | .keyExchange _ | .finish _ _ | .heartbeat _ | .keyUpdate _ | .endSession _ => true
  | .vendorDefinedRequest _ standard vendor op _ => decide (standard < 2 ^ 16 ∧ vendor < 2 ^ 16 ∧ op < 256)
  | .kerfFlitReceive e b _ _ _ fs => okBundle e b && fs.all okFlit
  | .kerfLaneCheck e b _ _ | .pausedRepairDone e b _ _ | .kerfRetrainDone e b _ _ => okBundle e b
  | .kerfReplay e b _ | .kerfClockLoss e b _ => okBundle e b
  | .siteTempReport k t => okSite k && okTemp t
  | .siteReportTimeout k | .siteWindowTimeout k => okSite k
  | .siteMainbandFailure k _ m l r => okSite k && decide (m ≤ 4) && (l == 64 || l == 32) && (r == 16 || r == 24 || r == 32)
  | .siteWindowAccess k h off _ _ => okSite k && (okHart h || h == 64) && decide (off < 0x10000)
  | .linkSetup p x => okPort p && decide (x.gen < 2 ^ 16) && x.globals.all fun e => decide (47 ≤ e.1 ∧ e.1 < 71) && okCord e.2
  | .dataFrameReceive p _ | .frameReplay p _ => okPort p
  | .portReceiveTimeout p | .portRetrainTimer p | .frameKeepalive p => okPort p
  | .timeExchange x => okPort x.port && okModule x.module
  | .holdoverExpire | .rootSyncTimeout | .slotStart | .arm | .cancel | .slotTableSwitch | .slotTableLoad | .slotTableLoadDone => true
  | .selfNotice m _ arrival | .linkNotice m _ arrival => okModule m && decide (arrival < 72)
  | .transferHandover _ | .offerSend _ | .offerAnswer _ _ | .offerForfeit _ | .bestEffortAck _ _ | .bestEffortResend _ | .remoteReply _ _ _
  | .remoteLoadTimeout _ => true
  | .offerReceive o => okPort o.port && okModule o.origin && okWindow o.window
  | .remoteReadRequest q | .remoteAtomicRequest q _ _ _ => okModule q.origin && okWindow q.window
  | .windowEnable w _ | .windowDrain w _ => okWindow w
  | .windowDrainDone w => okWindow w
  | .reclaimReview used => used.all fun x => okBench x.1
  | .budgetUpdate | .episodeTimeout | .measuredControlStep | .measuredPowerMissing | .groveCapUpdate | .thermNRelease | .powerBrake
  | .powerBrakeRelease => true
  | .estimateSample p => okMv p.inputMv
  | .tempSample x t => okSensor x && okTemp t
  | .sensorTimeout x => okSensor x
  | .marginSample g _ => okGrove g
  | .boomCtlWrite _ | .errRead _ | .ack | .landingStateError | .go _ | .abort | .diagScanDone _ _ => true
  | .opcacheLineError g _ => okGrove g
  | .injectionArm k _ => okSlot k
  | .injectionDisarm k => okSlot k
  | .scalerArm c _ | .scalerSample c _ => okChannel c
  | .scalerAbort c | .scalerCaptureStart c | .scalerCaptureStop c => okChannel c
  | .registerWrite a _ => okPa a

end Sys2Proof
end

