-- ==== Sys2Proof/Tests/Slice0.lean ====
section
/-!
SUPPORT. Tests/Slice0.lean: tests and witnesses.
-/

namespace Sys2Proof.Tests

set_option Elab.async false

open Sys2Proof Sys2Proof.Machine

/-- An answer is a next state that a test accepts. -/
def holds (a : Answer) (p : State → Bool) : Bool :=
  match a with
  | .next t => p t
  | .fault _ | .refused _ => false

/-- An answer is a fault. -/
def stops (a : Answer) : Bool :=
  match a with
  | .fault _ => true
  | .next _ | .refused _ => false

/-- A module in service, started from the factory record in slot 0, with nothing in it. -/
def up : State :=
  { State.reset with
    life := { State.reset.life with power := .running, stage := 0, alwaysOn := true, identified := true, inputMv := 24000 }
    boot := { State.reset.boot with copy0 := some { factoryRecord with startCount := 1, sequence := 1, runningSlot := some 0 } }
    fabric := { State.reset.fabric with counting := true, time := 1000 }
    cfg := some {}, now := 5000 }

/-- Hart 1 as given. -/
def upHart (x : Hart) : State := updHart 1 (fun _ => { x with state := .running }) up

/-- The record a command has written first. -/
def newRecord (s t : State) : ErrRecord := recordAt t.err s.err.written

/-- A MOVE of ring 3 staged for bench 5. -/
def aMove : Task := { ring := 3, seq := 0, header := { type := .move }, body := .move { op := .fill, length := 128 }, bench := some 5, waitDone := true }

/-- An address field in scratch. -/
def inS (a : Nat) : Nat := 2 ^ 62 + a

/-- A stake owned by a context. -/
def owned (o : Nat) : Stake := { owner := o, state := .owned }

/-! ### Well-formed commands: one that each check refuses -/

theorem test_ill_formed : [Instr.groveResetRequest 4, .grantRequest 512, .ringEnable 1024, .frameKeepalive 72, .pcieLinkChange 2 0 0 false,
    .windowDrainDone 256, .selfNotice 49152 0 0, .linkNotice 0 0 72, .kerfReplay 8 16 true, .kerfReplay 10 0 true, .siteReportTimeout 2, .loadBarrier 64, .scalerAbort 16,
    .injectionDisarm 16, .aplicSourceChange 0, .aplicSourceChange 10, .correctedError (2 ^ 48), .objectDrainDone 4096, .batchAnswerTimeout 8,
    .stackTempReport 24 0, .stackTempReport 0 256, .unsealContext 1 0x10000, .activateCordKey 1 0 2, .eraseCordKey 1 1024 0, .inputLowLimit 26401,
    .hartLoad 0 .hs 0 65 false {}, .hartAtomic 0 .hs .add 0 16 0 0 false {}, .coldStart { straps := 8 }, .coldStart { badBenches := [512] },
    .sensorTimeout (.grove 0 16), .sensorTimeout (.package 12), .benchQuarantine 0 128, .stageOpen .port 2, .stageWrite .port 0 [],
    .stageWrite .port 32505856 [1], .startRecordRead .port 17, .arrayParityError 0 0x2205, .deckScrubDone 0 16384, .migration 0x400000000000,
    .migrationComplete 0x8000, .replicaFetchArrival 0 [], .readErrorRecords .port 0, .retrain .port 1 2, .getCertificate 8 0 0, .getMeasurements none 256 false,
    .vendorDefinedRequest none 3 0 256 [], .siteMainbandFailure 0 true 5 64 0, .siteMainbandFailure 0 true 1 33 0, .siteWindowAccess 0 0 0x10000 none none,
    .mctpControl true [], .hartStore 0 .hs 0 8 0 { root := some 0x1001 }, .hartLoad 0 .vs 0 8 true { guest := some 0x1000 },
    .deferredStoreFault 64 {}, .accFaultAccess 64 .m .read {}, .vendorDefinedRequest none 0x10000 0 1 [], .coldStart { sites := [{}, {}, {}] }, .kerfFlitReceive 0 0 true 0 true [⟨4, 4, .hub [.tally], List.replicate 256 0, 0⟩],
    .linkSetup 0 { gen := 0x10000 }, .siteMainbandFailure 0 true 1 64 8].all (fun i => !i.wf) = true ∧
    [Instr.kerfReplay 7 31 true, .hartAtomic 0 .hs .cas 0 16 0 0 false {}, .migrationComplete 0x10000, .readErrorRecords .port 16].all Instr.wf = true := by
  decide +kernel
/-! ### Error records -/

def aRecord : ErrRecord := { code := 0x5201, source := 7 }

theorem test_record_takes_next_place : (classOf aRecord.code ≠ .corrected ∧ QueueBounded up ∧ queueFull up.err = false) ∧
    (recordAt (report aRecord up).err 0).code = 0x5201 ∧ (report aRecord up).err.written = 1 := by decide +kernel

/-- 1,024 records unread. -/
def fullUp : State := { up with err := { up.err with written := 1024 } }

theorem test_full_queue_counts_lost : queueFull fullUp.err = true ∧ (report aRecord fullUp).err.written = 1024 ∧
    (report aRecord fullUp).err.lostTotal = 1 ∧ (report aRecord fullUp).err.lost.failure = 1 ∧
    (report { code := 0x4101, source := 7 } fullUp).err.lost.corrected = 1 := by decide +kernel

theorem test_fatal_with_full_queue : fullUp.err.fatalActive = false ∧ (raiseFatal (.grove 1) { code := 0x9305 } fullUp).err.fatalActive = true ∧
    (raiseFatal (.grove 1) { code := 0x9305 } fullUp).err.fatalCode = 0x9305 ∧
    (raiseFatal (.grove 1) { code := 0x9305 } fullUp).err.written = 1024 ∧
    (raiseFatal .module { code := 0x9303 } fullUp).err.fatalScope = .module := by decide +kernel

/-- No unit generation is exhausted after reset. -/
theorem test_no_generation_exhausted : ∀ n, genExhausted fullUp n = false := by
  intro n
  show genExhausted { fullUp with roles := {} } n = false
  simp [genExhausted, roleOf, Table.get, cellsFind]

/-- Sixteen corrected records of one source within the last millisecond. -/
def corrUp (n : Nat) : State := { up with err := { up.err with suppressed := [⟨0x4101, 7, List.replicate n 4000, 3⟩] } }
def aCorrected : ErrRecord := { code := 0x4101, source := 7 }

theorem test_corrected_records_limited : classOf aCorrected.code = .corrected ∧ (report aCorrected (corrUp 16)).err.written = 0 ∧
    ((report aCorrected (corrUp 16)).err.suppressed.find? (Suppression.isOf aCorrected)).map (·.count) = some 4 ∧
    (report aCorrected (corrUp 15)).err.written = 1 ∧ (recordAt (report aCorrected (corrUp 15)).err 0).repeats = 3 := by decide +kernel

/-- Three records written, one read. -/
def threeUp : State := { up with err := { up.err with written := 3, read := 1 } }

theorem test_err_read : holds (exec (.errRead 3) threeUp) (fun t => t.err.read = 3) ∧ holds (exec (.errRead 1) threeUp) (fun t => t = threeUp) ∧
    holds (exec (.errRead 4) threeUp) (fun t => t = threeUp) := by decide +kernel

def fatalUp (n : Option Nat) : State := { threeUp with err := { threeUp.err with fatalActive := true, fatalRecord := n } }

theorem test_ack : holds (exec .ack (fatalUp (some 0))) (fun t => !t.err.fatalActive) ∧ holds (exec .ack (fatalUp none)) (fun t => !t.err.fatalActive) ∧
    holds (exec .ack (fatalUp (some 1))) (fun t => t.err.fatalActive) := by decide +kernel

def lostUp : State := { threeUp with err := { threeUp.err with lost := { failure := 2 } } }

theorem test_err_read_tells_loss : QueueBounded lostUp ∧ lostUp.err.lost.none = false ∧ holds (exec (.errRead 3) lostUp) (fun t =>
    t.err.written = 4 ∧ t.err.lost.none ∧ (recordAt t.err 3).code = 0x9301 ∧ (recordAt t.err 3).detail0 = 0x200000000) := by decide +kernel

def lineUp : State := { up with opLines := [⟨2, 9, 1, [], none⟩, ⟨1, 9, 1, [], none⟩] }

theorem test_line_errors : holds (exec (.opcacheLineError 2 9) lineUp) (fun t =>
      t.opLines = [⟨1, 9, 1, [], none⟩] ∧ (newRecord lineUp t).code = 0x3902 ∧ (newRecord lineUp t).address = 0x1200) ∧
    holds (exec (.systemCacheLineError 0x1234) up) (fun t =>
      (newRecord up t).code = 0x9304 ∧ (newRecord up t).address = 0x1200) := by decide +kernel

/-- A ring of partition 0 that runs, a sealed context with its key, a cord key and a port that is UP. -/
def keyedUp : State := { up with
  cfg := some { rings := Table.set {} 0 3 1 }
  rings := Table.set {} {} 3 { status := .running }
  stakes := { up.stakes with sealedContexts := [⟨9, some 5, false, 0⟩] }
  fabric := { up.fabric with keys := [⟨0, 0, 5⟩], ports := Table.set {} {} 7 { state := .up } } }

theorem test_landing_state_error : (inService keyedUp = true ∧ QueueBounded keyedUp ∧ queueFull keyedUp.err = false ∧
      keyedUp.err.fatalActive = false ∧ (keyedUp.tasks.all fun t => !t.running) = true) ∧
    holds (exec .landingStateError keyedUp) (fun t => (newRecord keyedUp t).code = 0x9303 ∧ (newRecord keyedUp t).cls = .fatal ∧
      t.err.fatalActive ∧ t.err.fatalCode = 0x9303 ∧ t.err.fatalRecord = some 0 ∧ t.err.moduleStopped ∧ t.fabric.keys = [] ∧
      t.stakes.sealedContexts.map (·.key) = [none] ∧ (ringOf t 3).status = .faulted ∧ (portOf t 7).state = .keyWait) := by decide +kernel

def tallyUp (n : Nat) : State := { up with err := { up.err with groveResets := List.replicate n (1, 0) } }

def fencedTally : State := { up with err := { up.err with fenced := [1] } }

theorem test_tally_state_error : groveResetTaken (tallyUp 1) 1 ∧ groveResetTaken (tallyUp 2) 1 ∧ !groveResetTaken (fencedTally) 1 ∧
    holds (exec (.tallyStateError 1) fencedTally) (fun t => (newRecord up t).code = 0x3901 ∧ t.err.groveResets = [] ∧ !t.err.fatalActive) ∧
    (tallyUp 1).err.groveResets.length < 2 ∧
    holds (exec (.tallyStateError 1) (tallyUp 1)) (fun t => (newRecord up t).code = 0x3901 ∧ (t.groveResets.get {} 1).busy ∧
      t.err.groveResets.length = 2) ∧
    2 ≤ ((tallyUp 2).err.groveResets.filter fun e => decide (up.now < e.2 + 60000000000)).length ∧ (tallyUp 2).err.fatalActive = false ∧
    holds (exec (.groveResetRequest 1) (tallyUp 1)) (fun t => t.err.groveResets.length = 1) := by decide +kernel

/-- Injection allowed to the management port and to software. -/
def injUp (x : InjSlot) : State := { up with
  cfg := some { injection := 2 }, err := { up.err with inj := Table.set {} {} 4 x } }

theorem test_injection : mayInject (injUp {}) false = true ∧
    locatorForm (injUp {}) 0x4101 0x1000 = true ∧
    holds (exec (.injectionArm 4 1) (injUp { code := 0x4101, count := 1, locator := 0x1000 })) (fun t => (slotOf t 4).state = .armed) ∧
    holds (exec (.injectionArm 4 1) (injUp { code := 0x4101, count := 0, locator := 0x1000 })) (fun t =>
      (slotOf t 4).state = .refused ∧ (slotOf t 4).result = 0x9311) ∧
    holds (exec (.injectionDisarm 4) (injUp { state := .armed, fired := 2 })) (fun t => (slotOf t 4).state = .free ∧ (slotOf t 4).fired = 2) := by
  decide +kernel

/-- The scan's locator names bench 2 of grove 0, which is idle, or nothing. -/
def scanUp (l : W64) (d : ScanState) : State := { up with err := { up.err with diagLocator := l, scanLocator := l, diagState := d } }

def bench2 : W64 := BitVec.ofNat 64 (writeUnitId false ⟨0xFFFF, .bench 2⟩)

theorem test_scan_go : (scanPlace (scanUp bench2 .idle)).bind placeBench = some 2 ∧ (roleOf up 2).state = .idle ∧
    groveIneligible up 0 = false ∧ scanPlace (scanUp 0x7000000000000 .idle) = none ∧
    holds (exec (.go 1) (scanUp bench2 .idle)) (fun t => t.err.diagState = .running ∧
      t.power.requests = [{ bench := 2, kind := .fresh, quanta := 6, since := 5000 }]) ∧
    holds (exec (.go 1) (scanUp 0x7000000000000 .idle)) (fun t => t.err.diagState = .idle ∧ t.err.diagCode = 0x9314) := by decide +kernel

/-- The same scan at work, with its quanta granted. -/
def scanningUp : State := { scanUp bench2 .running with power := { up.power with
  benches := Table.set {} {} 2 { clock := .running, granted := 6 }, order := [2] } }

theorem test_scan_ends : scanRuns scanningUp 2 = true ∧ scanPlace scanningUp = some (.bench 2) ∧
    holds (exec .abort scanningUp) (fun t => t.err.diagState = .idle ∧ (benchPow t.power 2).granted = 0) ∧
    holds (exec (.diagScanDone 0 0) scanningUp) (fun t => t.err.diagState = .passed ∧ (benchPow t.power 2).granted = 0) := by decide +kernel

/-- Channel 3 of Scaler as given. -/
def chanUp (c : Channel) : State := { up with scaler := { up.scaler with channels := Table.set {} {} 3 c } }
def aChannel : Channel := { source := 16, select := 0xFFFF, start := 2000, stop := 9000 }

theorem test_scaler_arm : armRefused 1000 aChannel = false ∧
    holds (exec (.scalerArm 3 1) (chanUp aChannel)) (fun t => (channelOf t 3).state = .armed) ∧
    holds (exec (.scalerArm 3 1) (chanUp { aChannel with stop := 900 })) (fun t => (channelOf t 3).refused) ∧
    holds (exec (.scalerCaptureStart 3) (chanUp { aChannel with state := .armed })) (fun t => (channelOf t 3).state = .running) ∧
    [Instr.scalerCaptureStop 3, .scalerAbort 3].all fun c =>
      holds (exec c (chanUp { aChannel with state := .running })) fun t => (channelOf t 3).state = .done ∧ t.scaler.done = 8 := by decide +kernel

theorem test_scaler_sample : (sourceOf 16).1 = false ∧ watchedGrove aChannel = none ∧
    holds (exec (.scalerSample 3 40) (chanUp { aChannel with state := .running, count := 2, sum := 9, min := 50, max := 60 })) (fun t =>
      (channelOf t 3).min = 40 ∧ (channelOf t 3).max = 60 ∧ (channelOf t 3).count = 3 ∧ (channelOf t 3).sum = 49 ∧
      (channelOf t 3).bins = ({} : Table Nat).update 0 (binOf aChannel 40) (· + 1)) ∧
    holds (exec (.scalerSample 3 40) (chanUp { aChannel with state := .running, lastSample := some 4999 })) (fun t =>
      (channelOf t 3).dropped = 1 ∧ (channelOf t 3).count = 0) := by decide +kernel

/-! ### Start, reset, power -/

theorem test_first_image_is_good : newestRecord State.reset.boot = some factoryRecord ∧ factoryRecord.trial = false ∧
    State.reset.err.injStart = 0 ∧ discoveryFailure {} {} 0 = 0 ∧
    (validateSlot (writeRecord { factoryRecord with startCount := 1 } State.reset.boot) {} 0 [] 0).code = 0 := by decide +kernel

theorem test_warm_reset_and_brown_out : up.life.power = .running ∧
    holds (exec .moduleResetNRecognised up) (fun t => t.life.power = .warmReset ∧ t.life.keptCause = some 0x120A) ∧
    holds (exec (.inputBrownOut 12000) up) (fun t => t.life.power = .brownOut) ∧
    holds (exec (.inputBrownOut 19500) up) (fun t => t.life.power = .running ∧ t.power.vIn = 1950) ∧
    holds (exec (.inputBrownOut 11999) up) (fun t => t.life.power = .off) ∧
    stops (exec (.inputBrownOut 26401) up) := by decide +kernel

/-! ### Roles, epochs, grove resets -/

/-- Bench 2 holds role 5 of partition 0 and bench 130 stands by for it. -/
def roleUp2 : State := { up with
  roles := (Table.set {} {} 2 { state := .active, role := some 5, startRole := some 5, partition := some 0, unitGen := 3 } : Table RoleEntry).set {} 130
    { state := .standby, partition := some 0 }
  fabric := { up.fabric with windows := Table.set {} {} 255 { enable := true, write := true } } }
/-- Bench 2 as a notice names it: the module of index 0. -/
def bench2Here : W64 := BitVec.ofNat 64 (writeUnitId false ⟨0, .bench 2⟩)
def aMessage : UnitMsg := { target := bench2, epoch := 0x10003, offset := 0x40, data := [7, 8, 9] }

theorem test_unit_message_taken : unitBench roleUp2 aMessage.target = .ok 2 ∧ epochOf roleUp2 2 = aMessage.epoch ∧
    holds (exec (.unitMessage aMessage) roleUp2) (fun t => memRead t.scratch (2 * scratchSize + 0x40) 3 = [7, 8, 9] ∧
      t = countArrival 255 3 false { roleUp2 with scratch := t.scratch }) := by decide +kernel

theorem test_unit_message_stale :
    holds (exec (.unitMessage { aMessage with epoch := 0x10002, origin := 9 }) roleUp2) (fun t =>
      t = { roleUp2 with fabric := { roleUp2.fabric with answer := t.fabric.answer } } ∧
      (t.fabric.answer.map (·.code)) = some 0x1401 ∧ (t.fabric.answer.map (·.module)) = some 9) ∧
    holds (exec (.unitMessage { aMessage with epoch := 0x10002 }) roleUp2) (fun t =>
      (newRecord roleUp2 t).code = 0x1401 ∧ (newRecord roleUp2 t).detail0 = bench2Here ∧ t.scratch = roleUp2.scratch) ∧
    holds (exec (.unitMessage { aMessage with epoch := 0x10002, hart := some (4, 0x1230) }) roleUp2) (fun t =>
      (newRecord roleUp2 t).code = 0x1401 ∧ (newRecord roleUp2 t).address = 0x1230 ∧ (newRecord roleUp2 t).detail0 = bench2Here) := by
  decide +kernel

/-- A task of ring 3 that a test gives, alone, on a ring that runs. -/
def oneTask (t : Task) : State := { roleUp2 with rings := Table.set {} {} t.ring { status := .running, head := t.seq + 1, tail := t.seq + 1 }, tasks := [t] }
def anIssued : Task := { ring := 3, seq := 0, header := { type := .move }, body := .move {}, phase := .issued, bench := some 2 }

theorem test_unit_message_fails_task : findTask (oneTask anIssued) 3 0 = some anIssued ∧
    holds (exec (.unitMessage { aMessage with epoch := 0x10002, task := some (3, 0) }) (oneTask anIssued)) (fun t =>
      (findTask t 3 0).map (·.phase) = some .failed ∧ (newRecord up t).code = 0x1401 ∧ (newRecord up t).detail0 = bench2Here ∧
      (newRecord up t).detail2 = 1 ∧ t.scratch = {}) := by decide +kernel

def sentUp : State := { oneTask anIssued with fabric := { roleUp2.fabric with transfers := [{ id := 4, ring := some 3, seq := 0, state := .sent 0 }] } }
def aNotice : StaleNotice := { transfer := 4, present := 0x20001, holder := bench2, holderEpoch := 7 }

theorem test_stale_notice : (findTransfer sentUp 4).isSome ∧ (findTask sentUp 3 0 = some anIssued) ∧
    holds (exec (.staleEpochNotice aNotice) sentUp) (fun t =>
      t = failTask anIssued 0x1401 (updRing 3 (fun q => { q with lost := q.lost ++ [(0, 0x1401, 0)] }) (dropTransfer 4 sentUp)) 0 bench2.toNat (0x20001 * 2 ^ 32 + 7) 1) := by decide +kernel

theorem test_epoch_advance : holds (exec (.epochAdvance 2) (updRole 2 (fun e => { e with advances := 2 }) roleUp2)) (fun t =>
    (roleOf t 2).advances = 1 ∧ epochOf t 2 = 0x10004) := by decide +kernel

def scratchUp : State := { up with scratch := memWrite (memWrite {} 5 [1]) (200 * scratchSize) [2] }

theorem test_grove_reset : (groveTasks scratchUp 0 = [] ∧ (grovesBenches 0).any (genExhausted scratchUp) = false) ∧
    holds (exec (.groveResetRequest 0) scratchUp) (fun t => (t.groveResets.get {} 0).busy ∧ memGet t.scratch 5 = 0 ∧
      memGet t.scratch (200 * scratchSize) = 2 ∧ (roleOf t 7).advances = 1 ∧ (roleOf t 200).advances = 0) ∧
    holds (exec (.groveResetComplete 0 []) { up with groveResets := Table.set {} {} 0 { busy := true, count := 4 } }) (fun t =>
      (newRecord up t).code = 0x1210 ∧ (t.groveResets.get {} 0).count = 5 ∧ !(t.groveResets.get {} 0).busy) := by decide +kernel

theorem test_quarantine : (QueueBounded roleUp2 ∧ queueFull roleUp2.err = false ∧ quarantineExhausts roleUp2 2 = false ∧
      runningOn roleUp2 2 = []) ∧ standbyFor roleUp2 2 = some 130 ∧
    holds (exec (.benchQuarantine 0 2) roleUp2) (fun t => (roleOf t 2).state = .quarantined ∧ (roleOf t 2).role = none ∧ (roleOf t 2).changes = [(4, none)] ∧
      (roleOf t 2).advances = 1 ∧ (roleOf t 130).state = .active ∧ (roleOf t 130).role = some 5 ∧ (roleOf t 130).advances = 1 ∧
      (newRecord roleUp2 t).code = 0x1211 ∧ (newRecord roleUp2 t).detail0 = 4 ∧ (newRecord roleUp2 t).detail1 = 0 ∧
      (newRecord roleUp2 t).detail2 = 0) := by decide +kernel

/-! ### The Genpex fabric -/

/-- Port 0 as given, the key of cord 0 installed under epoch 0 and in use, module 1 REACHABLE, window 3 open. -/
def fab (p : Port) (f : FabricBlock → FabricBlock) : State := { up with fabric := f { up.fabric with
  ports := Table.set {} {} 0 p, keys := [⟨0, 0, 5⟩], sendEpoch := Table.set {} 0 0 1
  peers := Table.set {} {} 1 { reach := .reachable, gen := 7 }
  windows := Table.set {} {} 3 { base := 0x200000, units := 1, enable := true, context := 1, read := true, write := true, atomic := true, tally := 0x600000 } } }
def portUp0 : Port := { state := .up, peer := 1, peerPort := 46, taken := 4, sent := 9 }
def fabUp : State := fab portUp0 id

theorem test_link_setup : peerExpected fabUp 0 { systemId := 0, module := 1, port := 46 } = true ∧
    sendingEpoch fabUp (receivingCord fabUp 0) = some 0 ∧ hasKey fabUp (receivingCord fabUp 0) 0 = true ∧
    holds (exec (.linkSetup 0 { module := 1, port := 46 }) (fab { state := .training } id)) (fun t =>
      (portOf t 0).state = .up ∧ (portOf t 0).keyEpoch = 0 ∧ (portOf t 0).peer = 1) ∧
    holds (exec (.linkSetup 0 { module := 1, port := 46 }) (fab { state := .training } fun f => { f with sendEpoch := {} })) (fun t =>
      (portOf t 0).state = .keyWait ∧ (portOf t 0).peerPort = 46) ∧
    holds (exec (.linkSetup 0 { module := 1, port := 45 }) (fab { state := .training } id)) (fun t =>
      (portOf t 0).state = .down ∧ (portOf t 0).code = 0x7102) ∧
    holds (exec (.linkSetup 0 { systemId := 9, module := 1, port := 46 }) (fab { state := .training } id)) (fun t =>
      (portOf t 0).state = .down) := by decide +kernel

/-- The last step of a start: ports train. -/
def lastStep (p : Port) : State := { fab p id with life := { up.life with power := .starting, stage := 0x0C } }

theorem test_start_ends : portsTrain (lastStep { state := .training }) = true ∧ portSettled portUp0 = true ∧
    holds (exec .portTrainTimeout (lastStep { state := .training })) (fun t => t.life.power = .running ∧ (portOf t 0).state = .down) ∧
    holds (exec (.linkSetup 0 {}) (lastStep portUp0)) (fun t => t.life.power = .running) := by decide +kernel

theorem test_port_timers : holds (exec (.portReceiveTimeout 0) fabUp) (fun t => (portOf t 0).state = .down ∧ (portOf t 0).code = 0x7101) ∧
    holds (exec (.portRetrainTimer 0) (fab { state := .down } id)) (fun t => (portOf t 0).state = .training ∧ (portOf t 0).attempts = 1) ∧
    holds (exec (.frameKeepalive 0) fabUp) (fun t => (portOf t 0).sent = 10 ∧ (portOf t 0).nonce0 = 1) ∧
    holds (exec (.frameReplay 0 6) fabUp) (fun t => (portOf t 0).replays = 3) := by decide +kernel

/-- A frame of module 1, port 46, generation 0, under key epoch 0 and counter 0; three bytes of it encrypted. -/
def aNonce : Nat := frameNonce 1 46 0 0 0
def aFrame : DataFrame :=
  { number := 4, origin := 1, transfer := 6, tag := 1, window := 3, offset := 0x20, length := 3, payload := [91, 98, 26]
    authTag := gcmTag 5 aNonce [] [91, 98, 26] }

/-- Its tag is good under the key of cord 0, and its payload is decrypted (R367). -/
theorem test_frame_opens : openFrame fabUp 0 aFrame = some { aFrame with payload := gcmCrypt 5 aNonce [91, 98, 26] } := by
  have key : cordKey fabUp (ownCord fabUp) aFrame.keyEpoch = some 5 := by decide +kernel
  have nonce : nonceOf fabUp 0 aFrame = aNonce := rfl
  have tag : gcmTag 5 aNonce aFrame.header aFrame.payload = aFrame.authTag := by dsimp only [aFrame]
  simp only [openFrame, key, nonce, tag, if_true]
  rfl

/-- What the decrypted frame does at window 3. -/
theorem test_frame_writes_window : windowRefusal fabUp 3 .write 1 1 0x20 3 false = none ∧
    ServesWrite (windowRequester (windowOf fabUp 3) false) 0x200020 3 fabUp ∧ InPlain fabUp 0x200020 3 ∧
    (let t := frameTaken 0 { aFrame with payload := [4, 5, 6] } fabUp
     memRead t.mem 0x200020 3 = [4, 5, 6] ∧ memNat t.mem 0x600000 8 = 3 ∧ t.fabric.answer = some ⟨1, 0, []⟩ ∧ t.fabric.received = [(1, 6)]) := by
  decide +kernel

/-- A frame whose correction fails asks for a replay from the number expected; one for another module in reach is sent on (R365, R366). -/
theorem test_frame_not_taken :
    holds (exec (.dataFrameReceive 0 { aFrame with corrected := false }) fabUp) (fun t => (portOf t 0).replayFrom = some 4 ∧
      (portOf t 0).taken = 4 ∧ t.fabric.received = []) ∧
    (let t := frameTaken 0 { aFrame with destination := 1, origin := 2 } fabUp
     (portOf t 0).sent = 10 ∧ t.fabric.received = []) := by decide +kernel

def anExchange : TimeExchange := { module := 1, root := 1, sourceTime := 1700 }

theorem test_time_follows_source :
    holds (exec (.timeExchange anExchange) fabUp) (fun t => t.fabric.timeState = .acquiring ∧ t.fabric.time = 1700 ∧ t.fabric.source = some (1, 0)) ∧
    holds (exec (.timeExchange { anExchange with root := 2 }) fabUp) (fun t => t.fabric.source = none) ∧
    holds (exec (.timeExchange anExchange) (fab portUp0 fun f => { f with timeState := .holdover })) (fun t =>
      t.fabric.timeState = .sync ∧ t.fabric.time = 1000 ∧ t.fabric.slew = 700 ∧ t.fabric.offset = 7000) ∧
    holds (exec .holdoverExpire (fab portUp0 fun f => { f with timeState := .holdover })) (fun t =>
      t.fabric.timeState = .unsync ∧ (newRecord up t).code = 0x7112) ∧
    holds (exec .rootSyncTimeout { fab portUp0 (fun f => { f with timeState := .acquiring }) with cfg := some { timeRole := 2 } }) (fun t =>
      t.fabric.timeState = .sync) := by decide +kernel

theorem test_notices : (1 ≠ moduleIndex fabUp ∧ 1 < systemModules fabUp ∧ anyUp fabUp = true) ∧
    holds (exec (.selfNotice 1 8 0) fabUp) (fun t => (peerOf t 1).reach = .reachable ∧ (peerOf t 1).gen = 8) ∧
    (let linked (x : Peer) : State := { fab portUp0 (fun f => { f with peers := Table.set {} {} 1 x }) with cfg := some { portEnable := 2 ^ 47 - 1 } }
     enabledLinks (linked {}) = 47 ∧
     holds (exec (.linkNotice 1 6 0) (linked { reach := .reachable })) (fun t => (peerOf t 1).portsDown = [6] ∧ (peerOf t 1).reach = .reachable) ∧
     holds (exec (.linkNotice 1 46 0) (linked { reach := .reachable, gen := 7, portsDown := List.range 23 })) (fun t =>
       (peerOf t 1).reach = .unreachable ∧ (peerOf t 1).gen = 7) ∧
     holds (exec (.selfNotice 1 7 0) (linked { reach := .unreachable, gen := 7 })) (fun t => (peerOf t 1).reach = .unreachable)) := by decide +kernel

/-- The only transfer, to window 3 of module 1. -/
def aTransfer : Transfer := { id := 4, handle := 1 * 2 ^ 48 + 3 * 2 ^ 40 + 0x20, data := [1, 2, 3], remaining := 3 }
def sendUp (x : Transfer) (f : FabricBlock → FabricBlock) : State := fab portUp0 fun b => f { b with transfers := [x] }

theorem test_handover : handleMalformed (sendUp aTransfer id) aTransfer.handle 3 = false ∧ handleTarget (sendUp aTransfer id) aTransfer.handle = 1 ∧
    handoverRefusal (sendUp aTransfer id) aTransfer = none ∧
    holds (exec (.transferHandover 4) (sendUp aTransfer id)) (fun t =>
      t.fabric.transfers = [{ aTransfer with module := 1, tag := 7, handedAt := 1000, state := .sent 5000 }]) ∧
    holds (exec (.transferHandover 4) (sendUp aTransfer fun f => { f with peers := {} })) (fun t => t.fabric.transfers = [] ∧
      (newRecord up t).code = 0x7301) := by decide +kernel

def aSent : Transfer := { aTransfer with module := 1, tag := 7, state := .sent 4000 }

theorem test_best_effort : holds (exec (.bestEffortAck 4 0) (sendUp aSent id)) (fun t => t.fabric.transfers = []) ∧
    holds (exec (.bestEffortAck 4 0x7202) (sendUp aSent id)) (fun t => t.fabric.transfers = [] ∧ (newRecord up t).code = 0x7202) ∧
    holds (exec (.bestEffortResend 4) (sendUp aSent id)) (fun t => t.fabric.transfers = [{ aSent with state := .sent 5000 }]) ∧
    holds (exec (.bestEffortResend 4) (sendUp { aSent with tag := 6 } id)) (fun t => (newRecord up t).code = 0x7204) := by decide +kernel

/-- Slots to and from module 1 at port 0, in synchronised time. -/
def slotted (x : Transfer) (f : FabricBlock → FabricBlock) : State := sendUp x fun b => f { b with
  timeState := .sync, time := 6000, active := { period := 4, entries := [{ slot := 1, port := 0, peer := 1, window := 3, bytes := 2 },
    { slot := 3, port := 0, receive := true, peer := 1, window := 3, bytes := 8 }] } }
def aTimed : Transfer := { aTransfer with module := 1, tag := 7, timed := true, state := .held, handedAt := 1000 }

/-- A claim of slot 10000 with its bytes; offered 1.5 µs ago; admitted. -/
def aPart : SlotPart := { slotStart := 10000, entry := 0, bytes := 2 }
def oneClaim (q : SlotPart) : State :=
  slotted { aTimed with remaining := 1, parts := [q] } fun f => { f with claims := [⟨q.slotStart, q.entry, q.bytes⟩] }

theorem test_offers :
    holds (exec (.offerSend 4) (slotted { aTimed with remaining := 2 } id)) (fun t => t.fabric.claims = [⟨10000, 0, 2⟩] ∧
      t.fabric.transfers = [{ aTimed with remaining := 0, parts := [aPart] }]) ∧
    holds (exec (.offerSend 4) (oneClaim aPart)) (fun t => t.fabric.claims = [⟨10000, 0, 2⟩] ∧
      t.fabric.transfers = [{ aTimed with remaining := 1, parts := [{ aPart with offered := some 5000 }] }]) ∧
    (let s := oneClaim { aPart with offered := some 3500 }
     holds (exec (.offerAnswer 4 0) s) (fun t => (t.fabric.transfers.map (·.parts)) = [[{ aPart with offered := some 3500, admitted := true }]]) ∧
     holds (exec (.offerForfeit 4) s) (fun t => t.fabric.claims = [⟨10000, 0, 2⟩, ⟨18000, 0, 1⟩] ∧ t.fabric.forfeits = 1) ∧
     holds (exec (.offerAnswer 4 0x7206) s) (fun t => t.fabric.transfers = [] ∧ t.fabric.claims = [] ∧ (newRecord up t).code = 0x7206)) ∧
    holds (exec (.offerAnswer 4 0) (oneClaim { aPart with offered := some 2999 })) (fun t => t = oneClaim { aPart with offered := some 2999 }) ∧
    holds (exec .slotStart (oneClaim { aPart with slotStart := 6000, offered := some 1500, admitted := true })) (fun t =>
      t.fabric.transfers = [{ aTimed with remaining := 1, parts := [] }] ∧ t.fabric.claims = []) := by
  decide +kernel

/-- A transfer of three bytes takes two slots of two bytes at its hand-over (R380). -/
theorem test_claims : holds (exec (.transferHandover 4) (slotted { aTransfer with timed := true } id)) (fun t =>
    t.fabric.claims = [⟨18000, 0, 2⟩, ⟨26000, 0, 1⟩]) := by decide +kernel

def anOffer : Offer := { port := 0, origin := 1, destination := 0, slotStart := 14000, window := 3, offset := 0, length := 8, tag := 1 }

theorem test_offer_received : offerRefusal (slotted aTimed id) anOffer = none ∧
    holds (exec (.offerReceive anOffer) (slotted aTimed id)) (fun t => t.fabric.claims = [⟨14000, 1, 8⟩] ∧ t.fabric.answer = some ⟨1, 0, []⟩) ∧
    holds (exec (.offerReceive { anOffer with length := 9 }) (slotted aTimed id)) (fun t => t.fabric.claims = [] ∧
      t.fabric.answer = some ⟨1, 0x7206, []⟩) := by decide +kernel

def memUp : State := { fabUp with mem := memWrite {} 0x200020 [9, 0, 0, 0, 0, 0, 0, 0x80] }
def anAccess : RemoteAccess := { origin := 1, window := 3, offset := 0x20, tag := 1 }

theorem test_remote_access : windowRefusal memUp 3 .read 1 1 0x20 8 false = none ∧ windowRefusal memUp 3 .atomic 1 1 0x20 8 false = none ∧
    ServesRead (windowRequester (windowOf memUp 3) false) 0x200020 8 memUp ∧
    ServesWrite { windowRequester (windowOf memUp 3) false with atomic := true } 0x200020 8 memUp ∧ InPlain memUp 0x200020 8 ∧ remoteForm .add anAccess = true ∧
    holds (exec (.remoteReadRequest anAccess) memUp) (fun t => t.fabric.answer = some ⟨1, 0, [9, 0, 0, 0, 0, 0, 0, 0x80]⟩) ∧
    holds (exec (.remoteReadRequest { anAccess with tag := 2 }) memUp) (fun t => t.fabric.answer = some ⟨1, 0x7204, []⟩) ∧
    holds (exec (.remoteAtomicRequest anAccess .add 7 0) memUp) (fun t => memNat t.mem 0x200020 8 = 0x8000000000000010 ∧
      t.fabric.answer = some ⟨1, 0, [9, 0, 0, 0, 0, 0, 0, 0x80]⟩) ∧
    holds (exec (.remoteAtomicRequest { anAccess with tag := 2 } .add 7 0) memUp) (fun t => t.fabric.answer = some ⟨1, 0x7204, []⟩) := by
  decide +kernel

def waitingUp : State := { upHart { waiting := .remote 5 } with fabric := { up.fabric with remoteOps := [⟨1, 5, 0, 0x1000, 0x1000, false, 0, 1⟩] } }

theorem test_remote_reply : holds (exec (.remoteReply 5 0 77) waitingUp) (fun t => (hartOf t 1).value = 77 ∧ (hartOf t 1).waiting = .nothing ∧
      t.fabric.remoteOps = []) ∧
    [Instr.remoteReply 5 0x7303 0, .remoteLoadTimeout 5].all fun c => holds (exec c waitingUp) fun t =>
      t = failRemote ⟨1, 5, 0, 0x1000, 0x1000, false, 0, 1⟩ 0x7303 waitingUp := by decide +kernel

def enableV : W64 := 0x8000000100000003

theorem test_window_registers :
    holds (exec (.windowEnable 3 enableV) (fab portUp0 fun f => { f with
      windows := Table.set {} {} 3 { base := 0x200000, units := 1, tally := 0x600000 } })) (fun t =>
        (windowOf t 3).enable ∧ (windowOf t 3).context = 1 ∧ (windowOf t 3).read) ∧
    holds (exec (.windowEnable 3 enableV) (fab portUp0 fun f => { f with windows := {} })) (fun t =>
      !(windowOf t 3).enable ∧ (windowOf t 3).cfgErr) ∧
    holds (exec (.windowDrain 3 0) fabUp) (fun t => (windowOf t 3).busy ∧ !(windowOf t 3).enable ∧ t.fabric.drainIssued = 1) ∧
    holds (exec (.windowDrainDone 3) (fab portUp0 fun f => { f with windows := Table.set {} {} 3 { busy := true } })) (fun t =>
      !(windowOf t 3).busy ∧ t.fabric.drainDone = 1) := by decide +kernel

def tableUp (st : StandbyState) (at_ : Nat) : State := fab portUp0 fun f => { f with
  standby := st, switchTime := at_, standbyTable := { period := 8 } }

theorem test_slot_tables : switchNear (tableUp .empty 0).fabric = false ∧ runtimeTable (tableUp .loading 0) = none ∧
    holds (exec .slotTableLoad (tableUp .empty 0)) (fun t => t.fabric.standby = .loading) ∧
    holds (exec .cancel (tableUp .loaded 0)) (fun t => t.fabric.standby = .empty) ∧
    holds (exec .slotTableLoadDone (tableUp .loading 0)) (fun t => t.fabric.standby = .empty ∧ t.fabric.stCode = 0x7207) ∧
    holds (exec .slotTableLoadDone { tableUp .loading 0 with mem := memWriteNat {} 0 4 8 }) (fun t =>
      t.fabric.standby = .loaded ∧ t.fabric.standbyTable = { period := 8 }) ∧
    holds (exec .arm (tableUp .loaded 102000)) (fun t => t.fabric.standby = .armed) ∧
    holds (exec .arm (tableUp .loaded 100000)) (fun t => t.fabric.standby = .loaded ∧ t.fabric.stCode = 0x7207) ∧
    holds (exec .slotTableSwitch (tableUp .armed 900)) (fun t => t.fabric.active.period = 8 ∧ t.fabric.standby = .empty) := by decide +kernel

/-! ### Boom -/

/-- Boom with limits of 2,600 and 3,200 W, as given. -/
def pw (f : PowerBlock → PowerBlock) : State :=
  { up with cfg := some { sustainedW := 2600, peakW := 3200, peakMs := 5, groveQuanta := [500, 500, 500, 500] }, power := f up.power }
def bench5 (b : BenchPower) (p : PowerBlock) : PowerBlock := updBench p 5 fun _ => b
def grove0 (x : GrovePower) (p : PowerBlock) : PowerBlock := updGrove p 0 fun _ => x

def withMove (s : State) : State := { s with tasks := [aMove], rings := Table.set {} {} 3 { status := .running, priority := 2 } }
def fresh5 : GrantRequest := { bench := 5, kind := .fresh, quanta := 20, priority := 2 }

theorem test_requests : requestTask (withMove (pw id)) 5 = some aMove ∧
    holds (exec (.grantRequest 5) (withMove (pw id))) (fun t => t.power.requests.map (fun q => (q.bench, q.quanta, q.priority)) = [(5, 1, 2)] ∧
      (benchPow t.power 5).demand = 1) ∧
    holds (exec (.topUpRequest 5) { pw (bench5 { granted := 4, demand := 9, clock := .running }) with
      benches := Table.set {} {} 5 { governor := 3841 } }) (fun t =>
      t.power.requests.map (fun q => (q.bench, q.kind, q.quanta)) = [(5, .topUp, 9)]) ∧
    holds (exec (.reclaimReview [(5, 1300)]) (pw fun p => { bench5 { granted := 9, demand := 9, clock := .running } p with
      requests := [{ fresh5 with bench := 6 }] })) (fun t => (benchPow t.power 5).granted = 4 ∧ (grovePow t.power 0).pool = 5) := by decide +kernel

theorem test_grants :
    (let s := pw fun p => { grove0 { pool := 48, cap := 500, pll := .running } p with requests := [fresh5] }
     bestRequest 0 s.power.requests = some fresh5 ∧ poolServes s.power fresh5 = true ∧ heldAll s.power + 20 ≤ baseQuanta s ∧
     holds (exec (.grant 0) s) (fun t => (benchPow t.power 5).granted = 20 ∧ (grovePow t.power 0).pool = 28 ∧ t.power.order = [5] ∧
       t.power.requests = [] ∧ (benchPow t.power 5).clock = .running)) ∧
    holds (exec (.staggeredStart 0) (pw (grove0 { pll := .running, deferred := [5, 6] }))) (fun t =>
      (benchPow t.power 5).clock = .running ∧ (grovePow t.power 0).deferred = [6]) ∧
    startAllowed 5000 { pll := .running, startTimes := [4990] } = false ∧
    holds (exec (.poolRefill 0) (pw (grove0 { pool := 7, cap := 500 }))) (fun t => (grovePow t.power 0).pool = 55 ∧ t.power.turn = 1) ∧
    holds (exec (.poolRefill 0) (pw (grove0 { pool := 7, cap := 20 }))) (fun t => (grovePow t.power 0).pool = 20) := by decide +kernel

/-- 2,600 W at 800 mV on every grove: 91,000 · 2,600 · 40 / 3,200,000 quanta. -/
theorem test_budgets : holds (exec .budgetUpdate (pw id)) (fun t => t.power.budget = 2957) ∧
    holds (exec .episodeTimeout (pw fun p => { p with episode := true, episodeStart := 2000 })) (fun t =>
      t.power.recovering ∧ t.power.recoveryNs = 3000 ∧ t.power.lastEpisodeUs = 3 ∧ t.power.budget = 2957) ∧
    holds (exec (.boomCtlWrite 0x0000000A00000258) (pw id)) (fun t => t.power.softLimit = 600 ∧ t.power.sleepUs = 10) ∧
    holds (exec (.boomCtlWrite 0x0000000900000257) (pw id)) (fun t => t.power.softLimit = 0 ∧ t.power.sleepUs = 200) ∧
    holds (exec (.boomCtlWrite 0x0000000A00000ED9) (pw fun p => { p with softLimit := 700 })) (fun t => t.power.softLimit = 700) ∧
    holds (exec (.boomCtlWrite 0x0000000A00000000) (pw fun p => { p with softLimit := 700 })) (fun t => t.power.softLimit = 0) := by
  decide +kernel

/-- E of 1,000 W. -/
def sample (m : Option Nat) (mv : Nat) : PowerSample := { benchMw := 600000, otherMw := 310000, measured := m, inputMv := mv }

theorem test_measured :
    holds (exec (.estimateSample (sample (some 900) 24000)) (pw id)) (fun t => t.power.estimatedW = 1000 ∧ t.power.measuredW = 900 ∧
      t.power.energy = 900 ∧ t.power.vIn = 2400 ∧ t.power.measured = false ∧ t.power.divergedSince = none) ∧
    (QueueBounded (pw id) ∧ queueFull up.err = false) ∧
    holds (exec (.estimateSample (sample (some 800) 24000)) { pw (fun p => { p with divergedSince := some 5000 }) with now := 205000 })
      (fun t => t.power.measured = true ∧ (newRecord up t).code = 0x8201 ∧ t.power.energy = 800) ∧
    stops (exec (.estimateSample (sample (some 800) 26401)) (pw id)) ∧
    holds (exec .measuredControlStep (pw fun p => { p with measured := true, measuredW := 2400, budget := 100 })) (fun t => t.power.budget = 36) ∧
    holds (exec .measuredControlStep (pw fun p => { p with measured := true, measuredW := 2300, budget := 100 })) (fun t => t.power.budget = 145) ∧
    holds (exec .measuredPowerMissing (pw id)) (fun t => t.power.fallback ∧ (newRecord up t).code = 0x8202 ∧ t.power.budget = 2366) := by
  decide +kernel

theorem test_brake :
    holds (exec .powerBrake (pw fun p => { bench5 { granted := 9, demand := 9, clock := .running } p with order := [5], episode := true })) (fun t =>
      t.power.braked ∧ t.power.episode = false ∧ t.power.budget = 0 ∧ boundQuanta t = 0 ∧ (benchPow t.power 5).clock = .revoked ∧
      (benchPow t.power 5).revoked = 9 ∧ (benchPow t.power 5).granted = 0 ∧ t.life.brakePinLow ∧
      (t.power.running.any fun r => r.reason == 3)) ∧
    holds (exec .powerBrakeRelease (pw fun p => { p with braked := true })) (fun t => t.power.braked = false ∧
      t.power.compareFrom = 205000 ∧ t.power.budget = 2957 ∧ t.life.brakePinLow = false) := by decide +kernel

theorem test_low_input :
    holds (exec (.inputLowLimit 21000) { pw id with cfg := some { sustainedW := 3400, peakW := 3800 } }) (fun t =>
      sustainedLimit t = 3150 ∧ peakLimit t = 3150 ∧ (t.power.running.any fun r => r.reason == 8) ∧ t.power.budget = boundQuanta t) ∧
    holds (exec (.inputLowLimitEnd 21600) (pw fun p => { p with inputLow := true, vIn := 2100, running := [⟨8, 0, moduleScope, 1, 0⟩] })) (fun t =>
      t.power.inputLow = false ∧ t.power.vIn = 2160 ∧ peakLimit t = 3200 ∧ t.power.running = []) := by decide +kernel

theorem test_clocks :
    holds (exec (.pllSleep 0) (pw (grove0 { pll := .running }))) (fun t => (grovePow t.power 0).pll = .sleep) ∧
    holds (exec (.pllRelockDone 0) (pw (grove0 { pll := .locking }))) (fun t => (grovePow t.power 0).pll = .running) ∧
    holds (exec (.droop 0) (pw fun p => updBench (bench5 { granted := 9, clock := .running } p) 300 fun _ => { granted := 3, clock := .running }))
      (fun t => (grovePow t.power 0).stretched ∧ (benchPow t.power 5).clock = .stretched ∧ (benchPow t.power 300).clock = .running ∧
        (t.power.running.any fun r => r.reason == 4 && r.scope == groveScope 0)) ∧
    holds (exec (.droopRecover 0) (pw fun p => grove0 { stretched := true, pll := .running } (bench5 { granted := 9, clock := .stretched } p)))
      (fun t => (grovePow t.power 0).stretched = false ∧ (grovePow t.power 0).holdoff = some 10000 ∧ (benchPow t.power 5).clock = .running) ∧
    holds (exec (.droopStartHoldoffEnd 0) (pw (grove0 { holdoff := some 5000 }))) (fun t => (grovePow t.power 0).holdoff = none) := by
  decide +kernel

theorem test_temperatures :
    holds (exec (.tempSample (.grove 0 0) 85) (pw id)) (fun t => (sensorState t.power (.grove 0 0)).temp = 85 ∧ t.power.thermAsserted = false ∧
      t.err.written = 0) ∧
    holds (exec (.tempSample (.grove 0 0) 105) (pw id)) (fun t => t.power.thermAsserted ∧ (newRecord up t).code = 0x8103 ∧
      t.life.power = .running) ∧
    holds (exec (.tempSample (.grove 0 0) 109) (pw id)) (fun t => t.life.power = .running) ∧
    holds (exec (.tempSample (.stack 3) 100) (pw id)) (fun t => t.life.power = .trip ∧ t.power.trip = some (.stack 3) ∧ t.power.thermAsserted) ∧
    holds (exec (.sensorTimeout (.stack 3)) (pw id)) (fun t => (sensorState t.power (.stack 3)).silent ∧ (newRecord up t).code = 0x8102 ∧
      (newRecord up t).detail1 = 0) ∧
    holds (exec (.stackTempReport 11 70) (pw id)) (fun t => (sensorState t.power (.stack 11)).temp = 70) ∧
    holds (exec (.stackTempReport 12 70) (pw id)) (fun t => (sensorState t.power (.package 0)).temp = 70) ∧
    holds (exec .groveCapUpdate (pw (grove0 { temp := 97, cap := 500 }))) (fun t => (grovePow t.power 0).cap = 400) ∧
    holds (exec .thermNRelease (pw fun p => { p with thermAsserted := true, sensors := [{ sensor := .stack 3, temp := 90 }] })) (fun t =>
      t.power.thermAsserted = false) ∧
    holds (exec .thermNRelease (pw fun p => { p with thermAsserted := true, sensors := [{ sensor := .stack 3, temp := 91 }] })) (fun t =>
      t.power.thermAsserted = true) := by decide +kernel

/-- Grove 0 with bench 5 running and its steps as given. -/
def aged (x : GrovePower) : State := pw fun p => grove0 x (bench5 { granted := 9, clock := .running } p)

theorem test_ageing : groveBusy (aged {}).power 0 = true ∧
    holds (exec (.marginSample 0 9) (aged { trimSteps := 23 })) (fun t => (grovePow t.power 0).trimSteps = 24 ∧ (newRecord up t).code = 0x8301) ∧
    holds (exec (.marginSample 0 24) (aged { trimSteps := 3, lowStreak := 59 })) (fun t => (grovePow t.power 0).trimSteps = 4) ∧
    holds (exec (.marginSample 0 24) (aged { trimSteps := 3, lowStreak := 58 })) (fun t => (grovePow t.power 0).trimSteps = 3) ∧
    holds (exec (.marginSample 0 9) (aged { trimSteps := 24, fmaxSteps := 23 })) (fun t => (grovePow t.power 0).fmaxSteps = 24 ∧
      (newRecord up t).code = 0x8302) ∧
    holds (exec (.marginSample 0 9) (aged { trimSteps := 24, fmaxSteps := 24, cap := 500 })) (fun t => (grovePow t.power 0).ended ∧
      (grovePow t.power 0).cap = 0 ∧ (newRecord up t).code = 0x8303) ∧
    holds (exec .powerLoss (aged { trimSteps := 24, fmaxSteps := 3 })) (fun t => (grovePow t.power 0).fmaxSteps = 3) ∧
    holds (exec .moduleResetNRecognised (aged { trimSteps := 24, fmaxSteps := 3 })) (fun t => (grovePow t.power 0).trimSteps = 24) ∧
    holds (exec (.groveResetRequest 0) (aged { trimSteps := 24, fmaxSteps := 3 })) (fun t => (grovePow t.power 0).trimSteps = 24 ∧
      (grovePow t.power 0).fmaxSteps = 3) := by decide +kernel

/-! ### Rings and scheduling -/

/-- Ring 3 of partition 0 and its tasks as given; context 7 owns the first stake and maps its addresses to themselves. -/
def ring3 (q : Ring) (ts : List Task) : State :=
  { up with
    cfg := some { rings := Table.set (Table.set {} 0 3 1) 0 4 1 }
    rings := Table.set {} {} 3 q
    tasks := ts
    stakes := { up.stakes with table := Table.set {} {} 0 { owner := 7, state := .owned } }
    tu := { up.tu with ctxEnable := true, groveCache := [⟨some 0, 7, 0, 262144, 0xD7⟩] } }
def runs : Ring := { status := .running, base := 0x1000, context := 7, head := 2, tail := 3 }
def gate (k : TaskType) : Task := { ring := 3, seq := 2, header := { type := k }, body := .gate, waitDone := true, context := 1 }
def held (ofRing : Bool) : Ring := { runs with status := .faulted, failures := [⟨2, ofRing, 0x3102⟩] }

theorem test_ring_commands : ringExists (ring3 runs []) 3 = true ∧
    holds (exec (.ringDoorbell 3 18) (ring3 runs [])) (fun t => (ringOf t 3).tail = 18) ∧
    holds (exec (.ringDoorbell 3 19) (ring3 runs [])) (fun t => (ringOf t 3).tail = 3 ∧ (ringOf t 3).status = .faulted ∧
      (newRecord up t).code = 0x3102) ∧
    holds (exec (.ringDoorbell 3 2) (ring3 runs [])) (fun t => (ringOf t 3).status = .faulted) ∧
    holds (exec (.ringDoorbell 3 18) (ring3 { runs with device := true } [])) (fun t => (ringOf t 3).dropped ∧ (ringOf t 3).tail = 3) ∧
    holds (exec (.ringEnable 3) (ring3 { base := 0x1000, tail := 4 } [])) (fun t => (ringOf t 3).status = .running ∧ (ringOf t 3).tail = 0) ∧
    holds (exec (.ringPause 3) (ring3 (held true) [])) (fun t => (ringOf t 3).status = .paused) ∧
    holds (exec (.ringResume 3) (ring3 { held true with status := .paused } [])) (fun t => (ringOf t 3).status = .faulted) ∧
    holds (exec (.failureAcknowledge 3) (ring3 (held true) [])) (fun t => (ringOf t 3).failures = [] ∧ (ringOf t 3).status = .running) ∧
    holds (exec (.failureAcknowledge 3) (ring3 (held false) [{ gate .barrier with phase := .failed }])) (fun t => (ringOf t 3).failures = [] ∧
      t.tasks = [] ∧ (ringOf t 3).status = .running) := by decide +kernel

theorem test_ring_reset :
    holds (exec (.ringReset 3) (ring3 { runs with tail := 9 } [gate .barrier, { gate .fenceSignal with seq := 3 }, { gate .barrier with ring := 4 }]))
      (fun t => (ringOf t 3).status = .disabled ∧ (ringOf t 3).head = 0 ∧ t.tasks = [{ gate .barrier with ring := 4 }] ∧
        (newRecord up t).code = 0x3110 ∧ (newRecord up t).detail0 = 2) ∧
    holds (exec (.benchReport 3 5) (ring3 { status := .resetting, pending := [5, 6], head := 2 } [])) (fun t => (ringOf t 3).pending = [6]) ∧
    holds (exec (.benchReport 3 5) (ring3 { status := .resetting, pending := [5], head := 2 } [gate .barrier])) (fun t =>
      (ringOf t 3).status = .disabled ∧ t.tasks = [] ∧ (ringOf t 3).head = 0) := by decide +kernel

/-- A BARRIER descriptor at sequence number 2; one with a reserved bit of FLAGS. -/
def barrierBytes : List Byte := [0x0B, 0, 0, 0, 0, 0, 0, 0] ++ bytesOfNat 8 (writeUnitId false ⟨0, .module⟩) ++ List.replicate 112 0
def badBytes : List Byte := [0x0B, 0x08] ++ barrierBytes.drop 2
def withBytes (bs : List Byte) : State := { ring3 runs [] with mem := memWrite {} 0x1100 bs }
def readerOf (s : State) : Requester :=
  { agent := .tally, context := (ringOf s 3).context, grove := homeGrove 3, ring := 3, seq := (ringOf s 3).head, descriptor := true }
def staged3 : Task := { gate .barrier with header := { type := .barrier, target := writeUnitId false ⟨0, .module⟩ }, context := 7, slice := 3, waitSince := 5000 }

theorem test_staging : (let s := withBytes barrierBytes;
      mayStage s 3 = true ∧ engineRead (readerOf s) (descriptorAddr (ringOf s 3)) 128 s = (.done barrierBytes, s) ∧
      stageChecks 3 0 barrierBytes s = (.ok staged3, s) ∧ sliceTakes s staged3 = true ∧
      holds (exec (.taskStage 3) s) (fun t => t.tasks = [staged3] ∧ (ringOf t 3).head = 3)) ∧
    (let s := withBytes badBytes;
      engineRead (readerOf s) (descriptorAddr (ringOf s 3)) 128 s = (.done badBytes, s) ∧ headerCheck badBytes = some 0x3001 ∧
      holds (exec (.taskStage 3) s) (fun t => (ringOf t 3).status = .faulted ∧ (ringOf t 3).head = 3 ∧
        (ringOf t 3).failures = [⟨2, false, 0x3001⟩])) := by decide +kernel

def waiting : Task := { gate .barrier with waitDone := false, waitPa := some 0x600000, header := { type := .barrier, waitTarget := 4 } }
def counter (v : Nat) : State := { ring3 runs [waiting] with mem := memWriteNat {} 0x600000 8 v }

theorem test_waits : waitSeen (counter 4) (counterRequester waiting) 0x600000 4 = .ok .resolved ∧
    waitSeen (counter 3) (counterRequester waiting) 0x600000 4 = .ok .unresolved ∧
    waitSeen (counter 0x8000000000000003) (counterRequester waiting) 0x600000 4 = .ok .aborted ∧
    holds (exec (.counterChangeObserved 0x600000) (counter 4)) (fun t => t.tasks = [{ waiting with waitDone := true }]) ∧
    holds (exec (.counterChangeObserved 0x600000) (counter 3)) (fun t => t = counter 3) ∧
    holds (exec (.counterChangeObserved 0x600000) (counter 0x8000000000000003)) (fun t => (ringOf t 3).failures = [⟨2, false, 0x3202⟩]) ∧
    holds (exec (.fenceTimeout (.task 3 2)) (counter 3)) (fun t => (ringOf t 3).failures = [⟨2, false, 0x3201⟩]) := by decide +kernel

/-- A bench task at bench 5 that may issue. -/
def benchTask (k : TaskType) (b : TaskBody) : Task := { gate k with body := b, bench := some 5, context := 7 }
def granted (ts : List Task) : State :=
  let s := ring3 runs ts
  { s with power := updBench s.power 5 fun _ => { granted := 200, demand := 200, clock := .running } }
def oneProduct : MatDesc := { problems := [{ m := 1, k := 1, n := 1 }] }
def aVector : VectorDesc := { d0 := 1, d1 := 1, d2 := 1, d3 := 1 }

theorem test_issue : (let t := benchTask .matmul (.mat oneProduct);
      mayIssue (granted [t]) t = true ∧ taskTiles oneProduct ≠ 0 ∧
      holds (exec (.matmul 3 2) (granted [t])) (fun u => u.tasks = [{ t with phase := .issued }] ∧ u.tallyIssued.get 0 0 = 1 ∧
        (benchOf u 5).run = some { ring := 3, seq := 2 }) ∧
      holds (exec (.matmul 3 2) (ring3 runs [t])) (fun u => u = ring3 runs [t])) ∧
    (let t := benchTask .semiring (.mat oneProduct);
      holds (exec (.semiring 3 2) (granted [t])) (fun u => (benchOf u 5).run = some { ring := 3, seq := 2 })) ∧
    (let t := benchTask .vector (.vector aVector);
      holds (exec (.vector 3 2) (granted [t])) (fun u => (benchOf u 5).dresser = some (atStripStart { ring := 3, seq := 2, desc := aVector }) ∧
        (benchOf u 5).regs = {} ∧ (benchOf u 5).activity = .vector)) := by decide +kernel

def signals (k : TaskType) : Task := { gate k with signalPa := some 0x600000, header := { type := k, signalAddr := 0x600000, signalAdd := 5 } }
def retires (a : Answer) : Bool := holds a fun u =>
  u.tasks = [] ∧ (ringOf u 3).completed = 1 ∧ memNat u.mem 0x600000 8 = 5 ∧ u.err = up.err

theorem test_retire : (let q : Ring := { runs with completed := 0 };
    let one (t : Task) : State := ring3 q [t];
    let at0 (k : TaskType) : Task := { signals k with seq := 0 };
    MayEnd (at0 .fenceWait) (one (at0 .fenceWait)) ∧ mayIssue (one (at0 .fenceSignal)) (at0 .fenceSignal) = true ∧
    retires (exec (.fenceWait 3 0) (one (at0 .fenceWait))) ∧ retires (exec (.fenceSignal 3 0) (one (at0 .fenceSignal))) ∧
    holds (exec (.barrier 3 0) (one (at0 .barrier))) (fun t => t.tasks = [{ at0 .barrier with phase := .issued }] ∧ t.tallyIssued.get 0 0 = 1) ∧
    retires (exec (.barrierComplete 3 0) (one { at0 .barrier with phase := .issued })) ∧
    retires (exec (.taskComplete 3 0) (one { at0 .vector with phase := .issued, workDone := true }))) := by decide +kernel

/-- An ENQUEUE of one descriptor to ring 4, and ring 4 in DEVICE mode. -/
def anEnqueue (p : TaskPhase) : Task := { gate .enqueue with body := .enqueue { ring := 4, count := 1, source := 2 ^ 63 + 0x1100 }, context := 7, phase := p }
def toRing4 (device : Bool) (p : TaskPhase) : State :=
  let s := { ring3 runs [anEnqueue p] with mem := memWrite {} 0x1100 barrierBytes }
  { s with rings := s.rings.set {} 4 { status := .running, base := 0x3000, context := 7, device := device } }

theorem test_enqueue : mayIssue (toRing4 true .staged) (anEnqueue .staged) = true ∧
    holds (exec (.enqueue 3 2) (toRing4 true .staged)) (fun t => t.tasks = [anEnqueue .issued]) ∧
    holds (exec (.enqueue 3 2) (toRing4 false .staged)) (fun t => (ringOf t 3).failures = [⟨2, false, 0x3302⟩]) ∧
    hasRoom (toRing4 true .issued) { ring := 4, count := 1, source := 2 ^ 63 + 0x1100 } = true ∧
    holds (exec (.enqueueAppend 3 2) (toRing4 true .issued)) (fun t => (ringOf t 4).tail = 1 ∧ t.tasks = [] ∧
      memRead t.mem 0x3000 128 = barrierBytes) := by decide +kernel

/-! ### The array and the Dresser -/

/-- One product of two elements in the small geometry, its output at 0x4000 of scratch. -/
def small : MatDesc := { geometry := .g16, problems := [{ m := 1, n := 1, k := 1, aElem := inS 0, bElem := inS 0x1000, cAddr := inS 0x4000 }] }
def matTask (d : MatDesc) : Task := { benchTask .matmul (.mat d) with phase := .issued }
/-- Bench 5 at work on the given tasks, with A = 2 and B = 3 in scratch (0x40 and 0x44 in FP8). -/
def atWork (ts : List Task) (b : Bench) : State :=
  { granted ts with
    benches := Table.set {} {} 5 b
    scratch := memWrite (memWrite {} (5 * scratchSize) [0x40]) (5 * scratchSize + 0x1000) [0x44] }
def startRun : ArrayRun := { ring := 3, seq := 2 }
/-- The bench once the tile is open. -/
def opened (d : MatDesc) : Bench := openTile (matTask d) d 0 { scales := [(0, ([], []))], cells := freshCells d 0 [(0, ([], []))] [], inits := {} } { run := some startRun }
def done? {α : Type} (r : Reply α × State) (s : State) : Bool := match r.1 with
  | .done _ => decide (r.2 = s)
  | _ => false

theorem test_pass : worksOn (atWork [matTask small] {}) 5 (matTask small) = true ∧ taskPasses small = 1 ∧
    done? (readTile (moveRequester (matTask small) 5) small 0 { run := some startRun } (atWork [matTask small] { run := some startRun })) (atWork [matTask small] { run := some startRun }) ∧
    scratchHeld (atWork [matTask small] { run := some startRun }) (matTask small) 5 (passRuns small startRun) = false ∧
    done? (passWeights (moveRequester (matTask small) 5) small startRun (opened small) (atWork [matTask small] (opened small))) (atWork [matTask small] (opened small)) ∧
    done? (readStreams (moveRequester (matTask small) 5) small 0 0 (atWork [matTask small] (opened small))) (atWork [matTask small] (opened small)) ∧
    holds (exec (.passStart 5) (atWork [matTask small] { run := some startRun })) (fun t =>
      (benchOf t 5).run = none ∧ (benchOf t 5).nextB ∧ (benchOf t 5).skid.length = 1 ∧ (benchOf t 5).passes = 1 ∧
      ((benchOf t 5).bankA.map fun k => (convertOut .fp32 (bankResult small k 0), k.full)) = some (0x40C00000, true)) := by decide +kernel

/-- The same product as the second pass of its tile. -/
theorem test_second_pass : (let d : MatDesc := { small with problems := [{ m := 1, n := 1, k := 33, aElem := inS 0, bElem := inS 0x1000, cAddr := inS 0x4000 }] };
    let b : Bench := { opened d with run := some { startRun with kp := 1 } };
    done? (readStreams (moveRequester (matTask d) 5) d 0 1 (atWork [matTask d] b)) (atWork [matTask d] b) ∧
    holds (exec (.passStart 5) (atWork [matTask d] b)) (fun t => (benchOf t 5).run = none ∧ (benchOf t 5).passes = 1)) := by decide +kernel

theorem test_pass_again : tileOpen (opened small) startRun ∧
    holds (exec (.passStart 5) (atWork [matTask small] (opened small))) (fun t =>
      (benchOf t 5).run = none ∧ (benchOf t 5).skid.length = 1 ∧ (benchOf t 5).passes = 1) := by decide +kernel

theorem test_pass_withheld : !vectorWaits (atWork [matTask small] { run := some startRun }) 5 ∧
    holds (exec (.passStart 5) (atWork [matTask small] { run := some startRun, skid := List.replicate 16 { ring := 1, seq := 1 } })) (fun t =>
      (benchOf t 5).bankA = none ∧ (benchOf t 5).skid.length = 16 ∧ t.freeCount = 1) := by decide +kernel

/-- A full bank that holds 6, and its reserved entry. -/
def fullBank (b : Bool) : Bank := { ring := 3, seq := 2, tile := 0, full := true, draining := b }
def anEntry (draining drained : Bool) : SkidEntry :=
  { ring := 3, seq := 2, draining := draining, drained := drained, tag := { problems := [0], first := true, last := true }
    outputs := if drained then Table.set {} 0 0 0x40C00000 else {} }
def copies : VectorDesc := { program := [{ opcode := 0x02, phase := 1 }] }
def storedRun : DresserRun := { ring := 3, seq := 2, desc := {}, entry := some (anEntry false true).tag, done := true }

theorem test_drain :
    holds (exec (.tileDrain 5) (atWork [matTask small] { bankA := some (fullBank false), skid := [anEntry false false] })) (fun t =>
      (benchOf t 5).bankA = some (fullBank true) ∧ ((benchOf t 5).skid.map fun e => (e.draining, e.outputs.cells)) = [(true, [])]) ∧
    holds (exec (.tileBoundary 5) (atWork [matTask small] { bankA := some (fullBank true), skid := [anEntry true false] })) (fun t =>
      (benchOf t 5).bankA = none ∧ ((benchOf t 5).skid.map fun e => (e.draining, e.drained)) = [(false, true)]) ∧
    holds (exec (.dresserEntryStart 5) (atWork [matTask small] { skid := [anEntry false true] })) (fun t =>
      (benchOf t 5).activity = .storing ∧ memRead t.scratch (5 * scratchSize + 0x4000) 4 = [0, 0, 0xC0, 0x40] ∧
      (benchOf t 5).dresser.map (·.done) = some true) ∧
    (let d : MatDesc := { small with epilogue := some copies };
      holds (exec (.dresserEntryStart 5) (atWork [matTask d] { skid := [anEntry false true] })) (fun t =>
        (benchOf t 5).activity = .epilogue ∧ (benchOf t 5).dresser.map (fun r => (r.phase, r.d2, r.done)) = some (1, 0, false))) ∧
    holds (exec (.skidEntryFree 5) (atWork [matTask small] { dresser := some storedRun, skid := [anEntry false true], activity := .storing })) (fun t =>
      (benchOf t 5).dresser = none ∧ (benchOf t 5).skid = [] ∧ (benchOf t 5).activity = .idle ∧ t.tasks = [{ matTask small with workDone := true }]) := by
  decide +kernel

/-- The bench with the pass of its tile taken in. -/
def inTile : Bench := { opened small with activeB := some { ring := 3, seq := 2, tile := 0, kp := 0 } }
/-- A block of a VECTOR task under way. -/
def nops : VectorDesc := { program := [{ opcode := 0, phase := 1 }] }
def nopRun : DresserRun := { ring := 3, seq := 2, desc := nops, phase := 1, pc := 0, begun := true, blockOpen := true }
def midBlock : State := atWork [benchTask .vector (.vector nops)] { dresser := some nopRun }

theorem test_bench_errors : arrayTask (atWork [matTask small] { run := some startRun }) 5 = none ∧
    arrayTask (atWork [matTask small] inTile) 5 = some (matTask small) ∧ dresserTask (atWork [matTask small] { dresser := some storedRun }) 5 0x2321 =
      some (matTask small) ∧
    holds (exec (.arrayParityError 5 0x2204) (atWork [matTask small] { run := some startRun })) (fun t => (newRecord up t).code = 0x2204 ∧
      t.tasks = [matTask small]) ∧
    holds (exec (.arrayParityError 5 0x2203) (atWork [matTask small] inTile)) (fun t => (ringOf t 3).failures = [⟨2, false, 0x2203⟩] ∧
      (benchOf t 5).bankA = none) ∧
    vectorMidBlock (benchOf midBlock 5) = true ∧
    holds (exec (.dresserParityError 5) midBlock) (fun t => ((benchOf t 5).dresser.bind (·.ends)).map (·.code) = some 0x2320 ∧ t.err.written = 0) ∧
    holds (exec (.arrayParityError 5 0x2201) (atWork [matTask small] inTile)) (fun t => (newRecord up t).code = 0x2201 ∧
      (ringOf t 3).failures = [⟨2, false, 0x2201⟩]) ∧
    holds (exec (.arrayParityError 5 0x2201) (atWork [] {})) (fun t => (newRecord up t).code = 0x2201) ∧
    holds (exec (.dresserParityError 5) (atWork [matTask small] { dresser := some storedRun })) (fun t => (ringOf t 3).failures = [⟨2, false, 0x2320⟩]) ∧
    holds (exec (.skidEntryError 5 false) (atWork [matTask small] { dresser := some storedRun })) (fun t => (ringOf t 3).failures = [⟨2, false, 0x2321⟩]) ∧
    holds (exec (.skidEntryError 5 true) (atWork [matTask small] {})) (fun t => (newRecord up t).code = 0x2322 ∧ t.tasks = [matTask small]) := by
  decide +kernel

/-- A VECTOR task of one column and two rows whose program is the given instruction and a NOP, in bench 5's Dresser, its run begun. -/
def dvec (i : DInstr) : VectorDesc :=
  { d0 := 1, d1 := 2, d2 := 1, d3 := 1, program := [i, { opcode := 0, phase := i.phase }], tensors := [{ address := inS 0x100, stride1 := 4 }, { address := inS 0x800, stride1 := 256 }] }
def drun (i : DInstr) : DresserRun := { ring := 3, seq := 2, desc := dvec i, phase := i.phase, pc := 0, begun := true, blockOpen := i.phase % 2 == 1 }
def dtask (i : DInstr) : Task := { benchTask .vector (.vector (dvec i)) with phase := .issued }
/-- Tile registers 1 to 3 hold 2.0, 3.0 and 1.0 in row 0 and −2.0, 3.0, 1.0 in row 1; strip registers 1 to 3 hold 2.0, 3.0 and 1.0. -/
def dregs : DresserRegs :=
  { tiles := [(256, 0x40000000), (272, 0xC0000000), (512, 0x40400000), (528, 0x40400000), (768, 0x3F800000), (784, 0x3F800000)].foldl
      (fun t x => t.set 0 x.1 x.2) {}
    strips := [(16, 0x40000000), (32, 0x40400000), (48, 0x3F800000)].foldl (fun t x => t.set 0 x.1 x.2) {} }
def dst (i : DInstr) (g : DresserRegs) : State := atWork [dtask i] { dresser := some (drun i), regs := g }
def dctx (i : DInstr) : DCtx := { bench := 5, task := dtask i, run := drun i, instr := i }
/-- An instruction of phase 1 on tile registers 1 and 2 into 3; one of phase 2 on strip registers. -/
def blockI (op : Nat) (imm : W32) : DInstr := { opcode := op, phase := 1, dst := 3, srcA := 1, srcB := 2, imm := imm }
def stripI (op : Nat) (imm : W32) : DInstr := { opcode := op, phase := 2, dst := 3, srcA := 1, srcB := 2, imm := imm }
/-- What rows 0 and 1 of tile register 3 hold after a command on a block. -/
def tile3 (c : Instr) (op : Nat) (imm : W32) : List W32 := match exec c (dst (blockI op imm) dregs) with
  | .next t => [tileLane (benchOf t 5).regs 3 0, tileLane (benchOf t 5).regs 3 16]
  | _ => []
def afterPc (c : Instr) (i : DInstr) : Bool := holds (exec c (dst i dregs)) fun t => (benchOf t 5).dresser = some { drun i with pc := 1, midStrip := true }

theorem test_dresser_ready : DresserReady 0x10 5 (dctx (blockI 0x10 0)) (dst (blockI 0x10 0) dregs) (dst (blockI 0x10 0) dregs) ∧
    (nextInstr none (drun (blockI 0x10 0))).done = false := by decide +kernel

theorem test_lane_operations : tile3 (.add 5) 0x10 0 = [0x40A00000, 0x3F800000] ∧ tile3 (.sub 5) 0x11 0 = [0xBF800000, 0xC0A00000] ∧
    tile3 (.mul 5) 0x12 0 = [0x40C00000, 0xC0C00000] ∧ tile3 (.fma 5) 0x13 0 = [0x40E00000, 0xC0A00000] ∧
    tile3 (.min 5) 0x14 0 = [0x40000000, 0xC0000000] ∧ tile3 (.max 5) 0x15 0 = [0x40400000, 0x40400000] ∧
    tile3 (.abs 5) 0x16 0 = [0x40000000, 0x40000000] ∧ tile3 (.neg 5) 0x17 0 = [0xC0000000, 0x40000000] ∧
    tile3 (.clamp 5) 0x18 0x3F800000 = [0x3F800000, 0x3F800000] ∧ tile3 (.relu 5) 0x22 0 = [0x40000000, 0] ∧
    tile3 (.iota 5) 0x0A 0 = [0, 1] ∧ tile3 (.mov 5) 0x09 0 = [0x40400000, 0x40400000] ∧ tile3 (.nop 5) 0 0 = [0x3F800000, 0x3F800000] ∧
    afterPc (.add 5) (blockI 0x10 0) := by decide +kernel

theorem test_integer_lanes : tile3 (.iadd 5) 0x38 0 = [0x80400000, 0x00400000] ∧ tile3 (.isub 5) 0x39 0 = [0xFFC00000, 0x7FC00000] ∧
    tile3 (.imul 5) 0x3A 0 = [0, 0] ∧ tile3 (.imin 5) 0x3B 0 = [0x40000000, 0xC0000000] ∧ tile3 (.imax 5) 0x3C 0 = [0x40400000, 0x40400000] ∧
    tile3 (.ishr 5) 0x3D 28 = [4, 0xFFFFFFFC] ∧ tile3 (.cvti 5) 0x3E 0 = [0x4E800000, 0xCE800000] ∧ tile3 (.cvtf 5) 0x3F 0 = [2, 0xFFFFFFFE] := by
  decide +kernel

theorem test_function_lanes : tile3 (.div 5) 0x24 0 = [0x3F2AAAAB, 0xBF2AAAAB] ∧ tile3 (.rcp 5) 0x19 0 = [0x3F000000, 0xBF000000] ∧
    tile3 (.sqrt 5) 0x1A 0 = [0x3FB504F3, 0x7FC00000] ∧ tile3 (.exp 5) 0x1C 0 = [0x40EC7326, 0x3E0A9555] ∧
    afterPc (.rsqrt 5) (blockI 0x1B 0) ∧ afterPc (.log 5) (blockI 0x1D 0) ∧ afterPc (.tanh 5) (blockI 0x1E 0) ∧
    afterPc (.sigmoid 5) (blockI 0x1F 0) ∧ afterPc (.silu 5) (blockI 0x20 0) ∧ afterPc (.gelu 5) (blockI 0x21 0) := by decide +kernel

theorem test_lane_writes_keep_the_rest : (let c := dctx (blockI 0x10 0);
    let g := c.mapLanes (fun _ _ => 7) dregs;
    tileLane g 3 0 = 7 ∧ tileLane g 3 16 = 7 ∧ tileLane g 3 1 = tileLane dregs 3 1 ∧ tileLane g 3 32 = 0 ∧ tileLane g 1 0 = tileLane dregs 1 0 ∧
    g.strips = dregs.strips ∧
    (let u := pastInstr c g (dst (blockI 0x10 0) dregs);
      u.scratch = (dst (blockI 0x10 0) dregs).scratch ∧ (benchOf u 5).regs = g ∧ u.tasks = [dtask (blockI 0x10 0)])) := by decide +kernel

/-- Registers after a command. -/
def after (c : Instr) (i : DInstr) (g : DresserRegs) (p : DresserRegs → Bool) : Bool := holds (exec c (dst i g)) fun t => p (benchOf t 5).regs
def withMasks : DresserRegs := { dregs with masks := [(256, true), (512, true), (528, true)].foldl (fun t x => t.set false x.1 x.2) {} }

theorem test_masks : after (.cmp 5) (blockI 0x30 0) dregs (fun g => maskLane g 3 0 ∧ maskLane g 3 16) ∧
    after (.cmp 5) (blockI 0x30 4) dregs (fun g => !maskLane g 3 0 ∧ !maskLane g 3 16) ∧
    after (.mand 5) (blockI 0x31 0) withMasks (fun g => maskLane g 3 0 ∧ !maskLane g 3 16) ∧
    after (.mor 5) (blockI 0x32 0) withMasks (fun g => maskLane g 3 0 ∧ maskLane g 3 16) ∧
    after (.mnot 5) (blockI 0x33 0) withMasks (fun g => !maskLane g 3 0 ∧ maskLane g 3 16) ∧
    after (.select 5) { blockI 0x0B 0 with mask := 1 } withMasks (fun g => tileLane g 3 0 = 0x40000000 ∧ tileLane g 3 16 = 0x40400000) := by
  decide +kernel

/-- Two columns: the pair (x, y) = (2, 3) in row 0, cosine 1 in both lanes of register 2, sine 0.5 in register 4. -/
def ropeI : DInstr := { blockI 0x23 4 with dst := 3 }
def ropeState : State :=
  let v : VectorDesc := { dvec ropeI with d0 := 2 }
  let t : Task := { benchTask .vector (.vector v) with phase := .issued }
  atWork [t] { dresser := some { drun ropeI with desc := v }, regs :=
    { tiles := [(256, 0x40000000), (257, 0x40400000), (512, 0x3F800000), (513, 0x3F800000), (1024, 0x3F000000)].foldl (fun t x => t.set 0 x.1 x.2) {} } }

theorem test_rope : holds (exec (.rope 5) ropeState) fun t => tileLane (benchOf t 5).regs 3 0 = 0x3F000000 ∧
    tileLane (benchOf t 5).regs 3 1 = 0x40800000 := by decide +kernel

theorem test_reductions : after (.rsum 5) (blockI 0x40 0) dregs (fun g => stripLane g 3 0 = 0x40400000 ∧ stripLane g 3 1 = 0xC0000000) ∧
    after (.rmax 5) (blockI 0x41 0) dregs (fun g => stripLane g 3 0 = 0x40000000 ∧ stripLane g 3 1 = 0 ∧ stripLane g 3 2 = 0) ∧
    after (.rmin 5) (blockI 0x42 0) dregs (fun g => stripLane g 3 0 = 0x3F800000 ∧ stripLane g 3 1 = 0xC0000000) := by decide +kernel

theorem test_topk : after (.topkClear 5) (stripI 0x48 0x102) dregs (fun g => g.topk.get {} 0 = { k := 2, ascending := true }) ∧
    after (.topk 5) (blockI 0x49 0) { dregs with topk := Table.set {} {} 0 { k := 2, items := [(0x40400000, 9), (0x3F800000, 4)] } }
      (fun g => (g.topk.get {} 0).items = [(0x40400000, 9), (0x40000000, 0)]) ∧
    (topkMerge (0x40000000, 0) { k := 0 }).items = [] := by decide +kernel

/-- The elements at 0x100 and 0x104 of scratch: 5 and 6. -/
def loaded (i : DInstr) : State :=
  let s := dst i dregs
  { s with scratch := memWrite (memWrite s.scratch (5 * scratchSize + 0x100) (bytesOfNat 4 0x40A00000)) (5 * scratchSize + 0x104) (bytesOfNat 4 0x40C00000) }
def word (s : State) (a : Nat) : Nat := natOfBytes (memRead s.scratch (5 * scratchSize + a) 4)
/-- Element mode, an index register, LIMIT 2. -/
def indexRegs : DresserRegs := { dregs with tiles := (dregs.tiles.set 0 256 1).set 0 272 5 }

theorem test_loads :
    holds (exec (.load 5) (loaded (blockI 0x01 0))) (fun t => tileLane (benchOf t 5).regs 3 0 = 0x40A00000 ∧ tileLane (benchOf t 5).regs 3 16 = 0x40C00000) ∧
    holds (exec (.sload 5) (loaded (stripI 0x04 0))) (fun t => stripLane (benchOf t 5).regs 3 0 = 0x40A00000 ∧ stripLane (benchOf t 5).regs 3 1 = 0x40C00000) ∧
    (let i := blockI 0x06 0x200;
      let s : State := { loaded i with benches := (dst i indexRegs).benches };
      holds (exec (.gather 5) s) (fun t => tileLane (benchOf t 5).regs 3 0 = 0x40C00000 ∧ tileLane (benchOf t 5).regs 3 16 = 0)) ∧
    (let d : MatDesc := { small with epilogue := some copies };
      holds (exec (.loadskid 5) (atWork [matTask d] { skid := [anEntry false true], activity := .epilogue
                                                      dresser := some { ring := 3, seq := 2, desc := copies, entry := some (anEntry false true).tag, phase := 1, begun := true } }))
        (fun t => tileLane (benchOf t 5).regs 0 0 = 0x40C00000)) := by decide +kernel

theorem test_stores :
    holds (exec (.store 5) (dst (blockI 0x03 0) dregs)) (fun t => word t 0x100 = 0x40000000 ∧ word t 0x104 = 0xC0000000 ∧ word t 0x108 = 0) ∧
    holds (exec (.sstore 5) (dst (stripI 0x05 0) dregs)) (fun t => word t 0x100 = 0x40000000 ∧ word t 0x104 = 0) ∧
    holds (exec (.scatter 5) (dst (blockI 0x07 0x200) indexRegs)) (fun t => word t 0x100 = 0 ∧ word t 0x104 = 0x40400000) ∧
    (let i := blockI 0x08 0x200;
      holds (exec (.scatadd 5) { loaded i with benches := (dst i indexRegs).benches }) (fun t => word t 0x100 = 0x40A00000 ∧ word t 0x104 = 0x41100000)) ∧
    holds (exec (.topkEmit 5) (dst (stripI 0x4A 0x10) { dregs with topk := Table.set {} {} 0 { k := 1, items := [(0x3F800000, 4)] } })) (fun t =>
      word t 0x100 = 0x3F800000 ∧ word t 0x800 = 4) := by decide +kernel

/-! ### Deck -/

/-- Slot 4 of grove 0's Deck unit as given, under generation 2; partition 0 may hold 8 sequences; pages of 64 KiB. -/
def hand : Nat := handleOf 0 4 2
def deckU (e : SeqEntry) : DeckUnit :=
  { pageLog2 := 16, listLog2 := 12, enable := true, areaBase := 0x200000, poolPages := 8, seqs := Table.set {} {} 4 e, neverUsed := 1
    refs := Table.set {} 0 0 1 }
def live : SeqEntry := { gen := 2, state := .live, context := 7, streamsLog2 := 3, committed := 3, pages := [0] }
def deckTask (d : DeckDesc) : Task := { benchTask .deck (.deck d) with phase := .issued }
def deckUp (e : SeqEntry) (t : Task) : State :=
  { granted [t] with
    cfg := some { rings := Table.set {} 0 3 1, partitions := Table.set {} {} 0 { deckQuota := 8 } }
    decks := Table.set {} {} 0 (deckU e)
    stakes := { up.stakes with table := (List.range 40).foldl (fun t i => t.set {} i { owner := 0xFFF0, state := .owned }) {} } }
/-- A DECK operation on slot 4 and what it leaves there, its task done. -/
def deckRun (c : Instr) (d : DeckDesc) (e : SeqEntry) (p : SeqEntry → Bool) : Bool :=
  holds (exec c (deckUp e (deckTask d))) fun t => (findTask t 3 2).map (·.workDone) = some true && p (seqOf (deckOf t 0) 4)
def onSlot (op : DeckOp) (count : Nat) : DeckDesc := { op := op, handle := hand, count := count }

theorem test_deck_runs : ([(.extendCommitted, 40), (.extendProvisional, 2), (.commit, 1), (.rollback, 0), (.release, 0), (.query, 0), (.fork, 0)] :
    List (DeckOp × Nat)).all fun x => decide (DeckRuns x.1 (deckTask (onSlot x.1 x.2)) (onSlot x.1 x.2) 5 (deckUp live (deckTask (onSlot x.1 x.2)))) := by
  decide +kernel

theorem test_deck_operations :
    deckRun (.deckExtendCommitted 3 2) (onSlot .extendCommitted 40) live (fun e => e.committed = 43 ∧ e.pages = [0, 1, 2]) ∧
    deckRun (.deckExtendProvisional 3 2) (onSlot .extendProvisional 2) { live with groups := [0] } (fun e => e.committed = 3 ∧ e.groups = [0, 0, 0]) ∧
    deckRun (.deckCommit 3 2) (onSlot .commit 1) { live with groups := [0, 0] } (fun e => e = { live with committed := 4 }) ∧
    deckRun (.deckRollback 3 2) (onSlot .rollback 0) { live with groups := [0, 0] } (fun e => e = live) ∧
    deckRun (.deckRelease 3 2) (onSlot .release 0) live (fun e => e = { live with gen := 3, state := .scrubbing }) ∧
    deckRun (.deckQuery 3 2) (onSlot .query 0) live (fun e => e = live) ∧
    deckRun (.deckFork 3 2) (onSlot .fork 0) live (fun e => e = live) := by decide +kernel

theorem test_deck_create : (let d : DeckDesc := { op := .create, streamsLog2 := 3 };
    DeckRuns .create (deckTask d) d 5 (deckUp live (deckTask d)) ∧ newSeqRefusal (deckUp live (deckTask d)) 0 0 = none ∧
    freeSlotOf (deckU live) = some 0 ∧
    holds (exec (.deckCreate 3 2) (deckUp live (deckTask d))) (fun t => seqOf (deckOf t 0) 0 =
      { gen := 1, state := .live, streamsLog2 := 3, context := 7 } ∧ seqOf (deckOf t 0) 4 = live ∧ (deckOf t 0).ops = 1)) := by decide +kernel

/-- Rows of 512 bytes, to and from 0x1000 of scratch. -/
def rowsOf (op : DeckOp) (first : Nat) : DeckDesc := { op := op, handle := hand, count := 1, first := first, streamCount := 1, streamFirst := 1, data := inS 0x1000 }

theorem test_deck_rows : rowBytes (deckU live) live = 512 ∧ readTokens live (rowsOf .read 2) = 1 ∧
    rowWritable (deckUp live (deckTask (rowsOf .write 2))) (deckTask (rowsOf .write 2)) (deckU live) live 1 2 0 512 = true ∧
    ServesWrite deckRequester (rowAddr (deckU live) live 1 2) 512 (deckUp live (deckTask (rowsOf .write 2))) ∧
    ServesRead deckRequester (rowAddr (deckU live) live 1 2) 512 (deckUp live (deckTask (rowsOf .read 2))) ∧
    InPlain (deckUp live (deckTask (rowsOf .write 2))) (rowAddr (deckU live) live 1 2) 512 ∧
    (let s := deckUp live (deckTask (rowsOf .write 2));
      holds (exec (.deckWrite 3 2) { s with scratch := memWrite {} (5 * scratchSize + 0x1000) [1, 2, 3] }) (fun t =>
        memRead t.mem (rowAddr (deckU live) live 1 2) 4 = [1, 2, 3, 0] ∧ (findTask t 3 2).map (·.workDone) = some true)) ∧
    (let s := deckUp live (deckTask (rowsOf .read 2));
      holds (exec (.deckRead 3 2) { s with mem := memWrite {} (rowAddr (deckU live) live 1 2) [1, 2, 3] }) (fun t =>
        memRead t.scratch (5 * scratchSize + 0x1000) 4 = [1, 2, 3, 0] ∧ (findTask t 3 2).map (·.workDone) = some true)) ∧
    holds (exec (.deckWrite 3 2) (deckUp live (deckTask (rowsOf .write 3)))) (fun t => (ringOf t 3).failures = [⟨2, false, 0x3809⟩] ∧ t.mem = {}) := by
  decide +kernel

/-- The unit not enabled; a group that ends. -/
def idleDeck (u : DeckUnit) : State := { deckUp live aMove with decks := Table.set {} {} 0 u }
def ending (st : GroupState) : State :=
  { deckUp { live with groups := [0, 9, 9] } aMove with groups := Table.set {} {} 9 { state := st, deckPending := [hand] } }

theorem test_deck_units :
    holds (exec (.deckEnable 0 0x100C01) (idleDeck { deckU live with enable := false, poolPages := 2, pageLog2 := 0 })) (fun t => (deckOf t 0).zeroing ∧
      (deckOf t 0).pageLog2 = 16) = deckConfigGood (idleDeck (deckU live)) { deckU live with poolPages := 2 } ∧
    holds (exec (.deckEnable 0 0x100C01) (idleDeck { deckU live with enable := false, poolPages := 0 })) (fun t => (deckOf t 0).configErr ∧ !(deckOf t 0).zeroing) ∧
    holds (exec (.deckZeroingDone 0) (idleDeck { deckU live with enable := false, zeroing := true, poolPages := 0 })) (fun t => (deckOf t 0).enable ∧ !(deckOf t 0).zeroing) ∧
    holds (exec (.deckScrubDone 0 4) (deckUp { gen := 3, state := .scrubbing } aMove)) (fun t => seqOf (deckOf t 0) 4 = { gen := 3 }) ∧
    holds (exec (.deckScrubDone 0 4) (deckUp { gen := 0xFFFF, state := .scrubbing } aMove)) (fun t => (seqOf (deckOf t 0) 4).state = .retired) ∧
    holds (exec (.deckTruncation hand 9) (ending .squashing)) (fun t => (seqOf (deckOf t 0) 4).groups = [0]) ∧
    holds (exec (.deckRelabel hand 9) (ending .confirming)) (fun t => (seqOf (deckOf t 0) 4).groups = [0, 0, 0]) := by decide +kernel

/-! ### MOVE and the tiers -/

def moveTask (d : MoveDesc) : Task := { benchTask .move (.move d) with phase := .issued }
/-- Bench 5 moves, with bytes 1 to 4 at the start of its scratch; an object of context 7 has a copy of its first ashlar; context 7's page 0x100000 names it. -/
def anObject : TierObject := { valid := true, granules := 1, context := 7, homeBase := bulkBase, policy := 1 }
def aFrame0 (copying : Bool) : PoolFrame := { grove := 0, index := 0, ashlar := 0, stream := false, lastUse := 3, copying := copying }
def tiered (t : Task) (frames : List PoolFrame) : State :=
  let s := granted [t]
  { s with
    scratch := memWrite {} (5 * scratchSize) [1, 2, 3, 4]
    tier := { s.tier with enable := true, pools := Table.set {} {} 0 { base := 0x400000, frames := 4 }, objects := Table.set {} {} 9 anObject
                          frames := frames, useClock := 8 }
    tu := { s.tu with groveCache := [⟨some 0, 7, 0x100000, 16, 0x800000000 * 1024 + 0xD7⟩] }
    stakes := { s.stakes with table := [(2, 0xFFF1), (3, 0xFFF1), (stakeIndex bulkBase, 0xFFF1)].foldl (fun t x => t.set {} x.1 { owner := x.2, state := .owned }) {} } }
def moveRun (c : Instr) (d : MoveDesc) (frames : List PoolFrame) (p : State → Bool) : Bool :=
  holds (exec c (tiered (moveTask d) frames)) fun t => (findTask t 3 2).map (·.workDone) = some true && p t
def aCopy : MoveDesc := { op := .copy, src := inS 0, dst := inS 0x1000, length := 128 }
def aFill : MoveDesc := { op := .fill, dst := inS 0x1000, length := 128, pattern := 0x0807060504030201 }
/-- Two bytes further on: the overlap keeps no value. -/
def onto : MoveDesc := { aCopy with dst := inS 126 }
def aside : MoveDesc := { op := .evict, src := 0x100000000, length := 4096 }

theorem test_move_runs : MoveRuns .copy (moveTask aCopy) aCopy 5 (tiered (moveTask aCopy) []) ∧ InScratch (inS 0) 128 ∧ InScratch (inS 0x1000) 128 ∧
    MoveRuns .fill (moveTask aFill) aFill 5 (tiered (moveTask aFill) []) ∧ MoveRuns .copy (moveTask onto) onto 5 (tiered (moveTask onto) []) ∧
    overlaps onto (addrOffset onto.dst + 2) = false ∧
    MoveRuns .evict (moveTask aside) aside 5 (tiered (moveTask aside) []) ∧
    (let s := tiered (moveTask aside) [aFrame0 false];
      translatePieces (moveRequester (moveTask aside) 5) false (pagePieces (addrOffset (aside.src + 0)) 4096) s = (.done [apertureBase], s) ∧
      ashlarsOf [apertureBase] = some [0] ∧ tieredObject s (moveRequester (moveTask aside) 5) 0 = .ok anObject ∧
      frameOf s 0 = some (aFrame0 false)) := by decide +kernel

theorem test_moves :
    moveRun (.copy 3 2) aCopy [] (fun t => memRead t.scratch (5 * scratchSize + 0x1000) 5 = [1, 2, 3, 4, 0]) ∧
    moveRun (.fill 3 2) aFill [] (fun t => memRead t.scratch (5 * scratchSize + 0x1000 + 120) 9 = [1, 2, 3, 4, 5, 6, 7, 8, 0]) ∧
    moveRun (.copy 3 2) { aCopy with dstHandle := true, dst := 2 ^ 48 + 0x20 } [] (fun t =>
      t.fabric.transfers.map (fun x => (x.handle, x.data.take 5, x.seq)) = [(2 ^ 48 + 0x20, [1, 2, 3, 4, 0], 2)]) ∧
    moveRun (.evict 3 2) aside [aFrame0 false] (fun t => t.tier.frames = [] ∧ t.tier.evictions = 1) ∧
    moveRun (.prefetch 3 2) { aside with op := .prefetch } [aFrame0 false] (fun t => t.tier.frames = [{ aFrame0 false with lastUse := 8 }]) := by
  decide +kernel

/-- A migration of the object's first ashlar in progress. -/
def migrating (m : Migration) (frames : List PoolFrame) : State :=
  let s := tiered aMove frames
  { s with tier := { s.tier with inProgress := [m] } }

theorem test_tier_copies :
    (let s := tiered aMove [];
      objectAt s 0 = some (9, anObject) ∧ servedFromHome s anObject 0 = false ∧
      holds (exec (.migration 0x20) s) (fun t => t.tier.inProgress = [{ ashlar := 0, frame := some (0, 0) }] ∧ (frameOf t 0).map (·.copying) = some true)) ∧
    (let s := migrating { ashlar := 0, frame := some (0, 0) } [aFrame0 true];
      servingObject s 0 = some (9, anObject) ∧ tierRefusal s false (homeAddr anObject 0) ashlarSize = none ∧ poisonIn s bulkBase ashlarSize = false ∧
      homeKey s anObject = .plain) ∧
    holds (exec (.correctedError 0x1000) up) (fun t => (newRecord up t).code = 0x4101) ∧
    holds (exec (.uncorrectableRead 0x1000) up) (fun t => t.tier.poison.get false 8) ∧
    (let s := migrating { ashlar := 0, frame := none, repair := [bulkBase] } [];
      holds (exec (.replicaTimeout 0) s) (fun t => t.tier.poison.get false (bulkBase / 512) ∧ t.tier.inProgress = [] ∧ (newRecord up t).code = 0x4304)) := by
  decide +kernel

def statusOf (i : Nat) (s : State) : Bool × Bool := ((objectOf s i).valid, (objectOf s i).busy)
def validV : W64 := 0x8000000100070001
def objectUp (o : TierObject) : State :=
  let s := tiered aMove [aFrame0 false]
  { s with tier := { s.tier with objects := Table.set {} {} 9 o, objErr := 5 } }

theorem test_tier_registers :
    holds (exec (.tierEnable 1) (let s := tiered aMove []; { s with tier := { s.tier with enable := false } })) (fun t => t.tier.enable ∧ !t.tier.cfgErr) ∧
    holds (exec (.tierEnable 0x6400000001) (let s := tiered aMove []; { s with tier := { s.tier with enable := false }, stakes := up.stakes })) (fun t =>
      !t.tier.enable ∧ t.tier.cfgErr ∧ t.tier.replicaTimeoutUs = 100) ∧
    holds (exec (.tierEnable 0x6300000000) up) (fun t => t.tier.replicaTimeoutUs = 2000) ∧
    holds (exec (.objectValidate 9 validV) (objectUp { homeBase := bulkBase })) (fun t => objectOf t 9 = anObject ∧ t.tier.objErr = 5) ∧
    holds (exec (.objectValidate 9 0x8000000000070001) (objectUp { homeBase := bulkBase })) (fun t => statusOf 9 t = (false, false) ∧ t.tier.objErr = 1) ∧
    holds (exec (.objectDrain 9 0x100070001) (objectUp anObject)) (fun t => statusOf 9 t = (false, true)) ∧
    holds (exec (.objectDrainDone 9) (objectUp { anObject with valid := false, busy := true })) (fun t => statusOf 9 t = (false, false) ∧ t.tier.frames = []) ∧
    holds (exec .tierStatusRead (objectUp anObject)) (fun t => t.tier.objErr = 0) := by decide +kernel

/-! ### Translation and protection -/

def wait0 : FaultWaiter := { source := .movePort, ring := 3, bench := 5, seq := 2, write := false }
def entry0 : FaultEntry := { page := 0x40, context := 7, cause := 1, level := 0, read := true, write := false, waiters := [wait0], tags := [wait0] }
def batch (seq at_ : Nat) : FaultBatch := { slot := 1, openedAt := 0, entries := [entry0], sequence := seq, deliveredAt := at_ }
/-- Bench 5's task waits; the slots stand at 0x800000, in a stake that is free. -/
def faulty (f : TuBlock → TuBlock) : State :=
  let s := granted [{ benchTask .matmul (.mat oneProduct) with phase := .issued, blocked := true }]
  { s with tu := f { s.tu with fbBase := 0x800000, fbEnable := true, nextSequence := 6 } }

theorem test_batches :
    ServesWrite { agent := .transUnit, context := 1 } 0x808000 0x8000 (faulty fun u => { u with openBatch := some (batch 0 0) }) ∧
    holds (exec .batchTimerClose (faulty fun u => { u with openBatch := some (batch 0 0) })) (fun t => t.tu.openBatch = none ∧
      t.tu.delivered = [batch 6 5000] ∧ memNat t.mem 0x80C100 8 = 6 ∧ memNat t.mem 0x80C108 2 = 1 ∧ memNat t.mem 0x80C10A 1 = 2 ∧
      memNat t.mem 0x808000 8 = 0x40000) ∧
    holds (exec .flush (faulty fun u => { u with openBatch := some (batch 0 0) })) (fun t => memNat t.mem 0x80C10A 1 = 3) ∧
    (let s := faulty fun u => { u with delivered := [batch 6 0] };
      responseRetry s 1 0 = true ∧
      holds (exec (.tuFbDone (BitVec.ofNat 64 (6 * 8 + 1))) s) (fun t => t.tu.walking = [⟨0x40, 7, 1, 0, wait0⟩] ∧ t.tu.delivered = []) ∧
      holds (exec (.tuFbDone (BitVec.ofNat 64 (6 * 8 + 1))) { s with mem := memWriteNat {} 0x80C000 1 1 }) (fun t => t.tu.walking = [] ∧
        (ringOf t 3).failures = [⟨2, false, 0x5101⟩]) ∧
      holds (exec (.tuFbDone (BitVec.ofNat 64 (5 * 8 + 1))) s) (fun t => t.tu.delivered = [batch 6 0]) ∧
      holds (exec (.batchAnswerTimeout 1) s) (fun t => (ringOf t 3).failures = [⟨2, false, 0x5104⟩] ∧ t.tu.delivered = [])) := by decide +kernel

/-- A context table at 0x900000, and a walk of one level that finds a leaf of 512 GiB. -/
def mapped : State :=
  let s := faulty fun u => { u with ctxBase := 0x900000, ctxEnable := true, groveCache := [], walking := [⟨0x40, 7, 1, 0, wait0⟩] }
  { s with mem := memWriteNat (memWriteNat {} 0x900070 8 (9 * 2 ^ 60 + 0xA00)) 0xA00000 8 0xD7 }

theorem test_walks : (walkingOf mapped 3 2).isSome ∧
    holds (exec (.pageWalkDone 3 2) mapped) (fun t => t.tu.groveCache.length = 1 ∧ t.tu.walking = [] ∧ (t.tasks.map (·.blocked)) = [false]) ∧
    (let s : State := { mapped with mem := memWriteNat {} 0x900070 8 (9 * 2 ^ 60 + 0xA00), tu := { mapped.tu with fbEnable := false } };
      (translate { agent := .movePort, context := 7 } 0x40000 false s).1 = .fail 0x5106 0) := by decide +kernel

theorem test_translation_registers :
    holds (exec (.tuCtxEnable 0x300001) up) (fun t => t.tu.ctxBase = 0x300000 ∧ t.tu.ctxEnable) ∧
    holds (exec (.tuCtxEnable 0x300000) mapped) (fun t => t.tu.ctxBase = 0x900000 ∧ t.tu.ctxEnable) ∧
    holds (exec (.tuFbEnable 0x40001) up) (fun t => t.tu.fbBase = 0x40000 ∧ t.tu.fbEnable) ∧
    holds (exec (.tuInval (BitVec.ofNat 64 (7 * 2 ^ 32 + 2 ^ 28))) (ring3 runs [])) (fun t => t.tu.groveCache = [] ∧ t.tu.invalIssued = 1 ∧
      t.tu.invals = [.context 7]) ∧
    holds (exec (.tuInval 0) (faulty fun u => { u with invals := List.replicate 16 .all })) (fun t => t.tu.invalWaiting = [(.all, .nobody)]) ∧
    holds (exec .invalidationDrainDone (faulty fun u => { u with invals := [.all] })) (fun t => t.tu.invals = [] ∧ t.tu.invalDone = 1) ∧
    holds (exec (.opcacheInval 0 1) { up with opLines := [⟨0, 127, 7, [], none⟩, ⟨0, 128, 7, [], none⟩, ⟨1, 5, 7, [], none⟩] }) (fun t =>
      t.opLines = [⟨0, 128, 7, [], none⟩, ⟨1, 5, 7, [], none⟩] ∧ (t.opRegs.get {} 0).issued = 1) ∧
    holds (exec (.opcacheInvalDone 0) { up with opRegs := Table.set {} {} 0 { held := [none] } }) (fun t => (t.opRegs.get {} 0).done = 1) := by
  decide +kernel

/-- Stake 2 as given, STAKE_ADDR at it. -/
def staked (k : Stake) (w : StakeWork) : State :=
  { up with stakes := { up.stakes with addr := 0x400000, table := Table.set {} {} 2 k, work := w, busy := decide (w ≠ .none) } }
def cmd (owner count : Nat) : W64 := BitVec.ofNat 64 (owner * 2 ^ 32 + count)

def sealedUp : State := { staked (owned 7) .none with stakes := { (staked (owned 7) .none).stakes with sealedContexts := [⟨7, some 5, true, 3⟩] } }

theorem test_stakes : stakeIgnored (cmd 7 1) (staked {} .none) = false ∧ stakeRangeOk (staked {} .none) 1 = true ∧
    holds (exec (.assign (cmd 7 1)) (staked {} .none)) (fun t => t.stakes.busy ∧ t.stakes.work = .assign 2 1 7) ∧
    holds (exec (.assign (cmd 7 1)) (staked (owned 8) .none)) (fun t => t.stakes.result = 0x5301 ∧ !t.stakes.busy) ∧
    holds (exec (.release (cmd 0 1)) (staked (owned 8) .none)) (fun t => stakeEntry t 2 = { owned 8 with state := .releasing } ∧ t.stakes.busy) ∧
    holds (exec (.revokeSeal (cmd 7 1)) (staked (owned 7) .none)) (fun t => t.stakes.result = 0x5305) ∧
    holds (exec (.revokeSeal (cmd 7 1)) sealedUp) (fun t => isSealed t 7 = false ∧ (stakeEntry t 2).state = .releasing) ∧
    holds (exec (.assign (cmd 7 0)) (staked {} .none)) (fun t => !t.stakes.busy) ∧
    holds (exec .stakeAssignDone (staked {} (.assign 2 1 7))) (fun t => stakeEntry t 2 = owned 7 ∧ !t.stakes.busy) ∧
    holds (exec .stakeReleaseDone { staked { owned 7 with state := .releasing } (.release [2]) with mem := memWrite {} 0x400000 [9] }) (fun t =>
      stakeEntry t 2 = {} ∧ memGet t.mem 0x400000 = 9) ∧
    holds (exec .stakeReleaseDone { staked { owned 0xFFF1 with state := .releasing } (.release [2]) with mem := memWrite {} 0x400000 [9] }) (fun t =>
      memGet t.mem 0x400000 = 0) := by decide +kernel

/-- Session 1 is open, its requester is 3. -/
def spdmUp (s : State) : State :=
  { s with
    cfg := some { sealing := true }
    mgmt := { s.mgmt with spdm := .negotiated, sessions := [{ id := 1, established := true, requester := 3 }] }
    fabric := { s.fabric with keys := [⟨0, 0, 5⟩, ⟨0, 1, 6⟩], sendEpoch := Table.set {} 0 0 1 } }
def result (c : Nat) (t : State) : Bool := decide (t.mgmt.long.map (·.response) = some (enclaveResponse t (BitVec.ofNat 16 c)))

theorem test_enclave : SpdmServes (some 1) (spdmUp sealedUp) ∧ sealedBy (spdmUp sealedUp) 1 7 = true ∧ enclaveStakes 0x400000 1 = some [2] := by
  refine ⟨⟨by decide +kernel, by decide +kernel, ?_⟩, by decide +kernel, by decide +kernel⟩
  intro i h
  cases h
  decide +kernel

theorem test_enclave_operations :
    holds (exec (.sealContext 1 9 (.imported 4)) (spdmUp up)) (fun t => result 0 t ∧ t.stakes.sealedContexts = [⟨9, some 4, true, 3⟩]) ∧
    holds (exec (.sealStakes 1 7 0x400000 1) { spdmUp sealedUp with mem := memWrite {} 0x400000 [9] }) (fun t => result 0 t ∧
      stakeEntry t 2 = { owned 7 with sealed := true } ∧ memGet t.mem 0x400000 = 0) ∧
    holds (exec (.setExport 1 7 0x400000 1 true) (spdmUp sealedUp)) (fun t => result 0 t ∧ stakeEntry t 2 = { owned 7 with export_ := true }) ∧
    holds (exec (.unsealContext 1 7) (spdmUp sealedUp)) (fun t => result 0 t ∧ isSealed t 7 = false) ∧
    holds (exec (.unsealContext 1 8) (spdmUp sealedUp)) (fun t => result 0x5313 t ∧ isSealed t 7) ∧
    holds (exec (.installCordKey 1 0 1 5 0 0) (spdmUp up)) (fun t => result 0x7401 t) ∧ holdsCord (spdmUp up) 0 = true ∧
    holds (exec (.activateCordKey 1 0 1) (spdmUp up)) (fun t => result 0 t ∧ sendingEpoch t 0 = some 1) ∧
    holds (exec (.eraseCordKey 1 0 1) (spdmUp up)) (fun t => result 0 t ∧ hasKey t 0 1 = false ∧ hasKey t 0 0) ∧
    holds (exec (.vendorDefinedRequest (some 1) 3 0 0x04 [7, 0]) (spdmUp sealedUp)) (fun t => result 0 t ∧ isSealed t 7 = false) ∧
    holds (exec (.vendorDefinedRequest (some 1) 4 0 0x04 [7, 0]) (spdmUp sealedUp)) (fun t => t.mgmt.portResponse = spdmError 1 ∧ isSealed t 7) := by
  decide +kernel

/-- A connection at a stage, with sessions. -/
def conn (st : SpdmStage) (xs : List SpdmSession) : State := { up with mgmt := { up.mgmt with spdm := st, sessions := xs } }
def sess (e : Bool) : SpdmSession := { id := 1, established := e }
def sent (c : Nat) (t : State) : Bool := decide (t.mgmt.portResponse[1]? = some (BitVec.ofNat 8 c) ∧ t.mgmt.long = none)
def later (c : Nat) (t : State) : Bool := decide ((t.mgmt.long.map fun l => l.response[1]?) = some (some (BitVec.ofNat 8 c)))

theorem test_spdm : MgmtServes up ∧ holds (exec .getVersion (conn .negotiated [sess true])) (fun t => sent 0x04 t ∧ t.mgmt.spdm = .version ∧ t.mgmt.sessions = []) ∧
    holds (exec .getCapabilities (conn .version [])) (fun t => sent 0x61 t ∧ t.mgmt.spdm = .capabilities) ∧
    holds (exec .negotiateAlgorithms (conn .capabilities [])) (fun t => sent 0x63 t ∧ t.mgmt.spdm = .negotiated) ∧
    holds (exec .getDigests (conn .negotiated [])) (sent 0x01) ∧ holds (exec (.getCertificate 0 0 8) (conn .negotiated [])) (sent 0x02) ∧
    holds (exec (.challenge 0 [1, 2]) (conn .negotiated [])) (later 0x03) ∧
    holds (exec (.getMeasurements none 0 false) (conn .negotiated [])) (fun t => t.mgmt.portResponse = spdmMessage 0x60 0 0 [8]) ∧
    holds (exec (.keyExchange 3) (conn .negotiated [])) (fun t => later 0x64 t ∧ t.mgmt.sessions = [{ id := 1, requester := 3 }]) ∧
    holds (exec (.keyExchange 3) (conn .negotiated (List.replicate 4 (sess true)))) (fun t => t.mgmt.portResponse = spdmError 0x0A) ∧
    holds (exec (.finish 1 true) (conn .negotiated [sess false])) (fun t => later 0x65 t ∧ t.mgmt.sessions.map (·.established) = [true]) ∧
    holds (exec (.heartbeat 1) (conn .negotiated [sess true])) (sent 0x68) ∧
    holds (exec (.keyUpdate 1) (conn .negotiated [sess true])) (fun t => sent 0x69 t ∧ t.mgmt.sessions.map (·.keyUpdates) = [1]) ∧
    holds (exec (.endSession 1) (conn .negotiated [sess true])) (fun t => sent 0x6C t ∧ t.mgmt.sessions = []) := by decide +kernel

/-! ### Landing harts -/

/-- The answer is exactly this state; only the harts, only the management processor, only the Kerf bundles have changed. -/
def nx (a : Answer) (t : State) : Bool := holds a fun u => u = t
def fr (s t : State) : Bool :=
  decide (t = { s with landing := { s.landing with harts := t.landing.harts, systemCache := t.landing.systemCache } })
def om (s t : State) : Bool := decide (t = { s with mgmt := t.mgmt })
/-- A hart with bytes 1 to 8 at 0x1000. -/
def h1 (x : Hart) : State := { upHart x with mem := memWrite {} 0x1000 [1, 2, 3, 4, 5, 6, 7, 8] }

theorem test_hart_hypotheses : hartRuns (h1 {}) 1 = true ∧ ServesWrite (hartRequester (h1 {}) 1) 0x1000 8 (h1 {}) ∧
    ServesRead (hartRequester (h1 {}) 1) 0x1000 8 (h1 {}) ∧ InPlain (h1 {}) 0x1000 8 ∧ storesAcked (h1 {}) 1 = true ∧
    MapsTo 1 .hs .load {} 0x1000 8 0x1000 false (h1 {}) ∧ hartPlace 0x1008 8 = .tier ∧ siteWindowOf 0xC00000 = none := by decide +kernel

theorem test_hart_loads :
    holds (exec (.hartLoad 1 .hs 0x1000 8 false {}) (h1 {})) (fun t => fr (h1 {}) t ∧ t.landing.systemCache = [8] ∧ (hartOf t 1).value = 0x0807060504030201 ∧ (hartOf t 1).mode = .hs) ∧
    holds (exec (.hartLoad 1 .hs 0x1000 8 false {}) (h1 { combined := [⟨8, [(1, 0xAA)], 0, 1⟩] })) (fun t => (hartOf t 1).value = 0x080706050403AA01) ∧
    holds (exec (.hartLoad 1 .hs 0x400000C00000 8 false {}) (h1 {})) (fun t => (hartOf t 1).value = 0) := by decide +kernel

theorem test_hart_atomics :
    ([(.swap, 4), (.add, 5), (.and, 0), (.or, 5), (.xor, 5), (.min, 1), (.max, 4), (.minu, 1), (.maxu, 4)] : List (AmoOp × Nat)).all (fun x =>
      holds (exec (.hartAtomic 1 .hs x.1 0x1000 8 4 0 false {}) { h1 {} with mem := memWriteNat {} 0x1000 8 1 }) fun t =>
        (hartOf t 1).value = 1 ∧ memNat t.mem 0x1000 8 = x.2) ∧
    holds (exec (.hartAtomic 1 .hs .cas 0x1000 4 0x04030201 0x99 false {}) (h1 {})) (fun t => (hartOf t 1).value = 0x04030201 ∧ memNat t.mem 0x1000 8 = 0x0807060500000099) ∧
    holds (exec (.hartAtomic 1 .hs .lr 0x1000 8 0 0 false {}) (h1 {})) (fun t => (hartOf t 1).reservation = some 64 ∧ t.mem = (h1 {}).mem) ∧
    holds (exec (.hartAtomic 1 .hs .sc 0x1000 8 7 0 false {}) (h1 { reservation := some 64 })) (fun t => (hartOf t 1).reservation = none ∧ (hartOf t 1).value = 0 ∧
      memNat t.mem 0x1000 8 = 7) ∧
    holds (exec (.hartAtomic 1 .hs .sc 0x1000 8 7 0 false {}) (h1 {})) (fun t => (hartOf t 1).value = 1 ∧ t.mem = (h1 {}).mem) := by decide +kernel

theorem test_hart_stores :
    holds (exec (.hartStore 1 .hs 0x1008 8 0x1122334455667788 {}) (h1 {})) (fun t => fr (h1 {}) t ∧ (hartOf t 1).combined =
      [⟨8, (bytesOfNat 8 0x1122334455667788).zipIdx.map (fun b => (8 + b.2, b.1)), 5000, 1⟩]) ∧
    holds (exec (.hartStore 1 .hs 0x400000C00008 8 0 {}) (h1 {})) (fun t => (hartOf t 1).waiting = .nothing) ∧ nx (exec (.loadBarrier 1) (h1 {})) (h1 {}) ∧
    (let s := h1 { combined := [⟨8, ([9, 8, 7] : List Byte).zipIdx.map (fun b => (5 + b.2, b.1)), 3, 1⟩] };
      [Instr.combinedStoreSend 1 8, .storeBarrier 1, .fullBarrier 1].all fun c => holds (exec c s) fun t =>
        (hartOf t 1).combined = [] ∧ memRead t.mem 0x1000 10 = [1, 2, 3, 4, 5, 9, 8, 7, 0, 0]) := by decide +kernel

theorem test_hart_faults : accFaultAfter 0 true 0x9103 = 0xC000000000009103 ∧ accFaultAfter 0x8000000000000000 false 0x9103 = 0xA000000000009103 ∧
    holds (exec (.hartLoad 1 .hs 0x400000C00004 8 false {}) (h1 {})) (fun t => (hartOf t 1).trap = some (.loadAccess, 0x400000C00004) ∧
      (hartOf t 1).accFault = 0x8000000000009103 ∧ t.err = up.err) ∧
    holds (exec (.hartStore 1 .vu 0x400000C00008 8 0 {}) (h1 {})) (fun t => (hartOf t 1).trap = some (.storeAccess, 0x400000C00008)) ∧
    holds (exec (.hartLoad 1 .hs 0x1000 8 false {}) { h1 {} with stakes := { up.stakes with table := Table.set {} {} 0 (owned 5) } }) (fun t =>
      (newRecord up t).code = 0x5201 ∧ (hartOf t 1).accFault = 0x8000000000005201) ∧
    holds (exec (.deferredStoreFault 1 {}) (h1 { deferred := [⟨0x5201, 3⟩, ⟨0x5202, 4⟩] })) (fun t => (hartOf t 1).deferred = [⟨0x5202, 4⟩] ∧
      (hartOf t 1).accFault = 0xC000000000005201) ∧
    holds (exec (.accFaultAccess 1 .hs .read {}) (h1 { accFault := 5 })) (fun t => (hartOf t 1).value = 5) ∧
    holds (exec (.accFaultAccess 1 .m (.write 0xFFFFFFFFFFFFFFFF) {}) (h1 {})) (fun t => (hartOf t 1).accFault = 0xE00000000000FFFF) ∧
    holds (exec (.accFaultAccess 1 .vs .read {}) (h1 {})) (fun t => (hartOf t 1).trap = some (.virtualInstruction, 0)) ∧
    holds (exec (.accFaultAccess 1 .u .read {}) (h1 {})) (fun t => (hartOf t 1).trap = some (.illegalInstruction, 0)) ∧
    holds (exec (.postedWriteCheckFail 0x1000 7 0x5201) { up with cfg := some { regions := [⟨0, 1, false, true⟩] } }) (fun t =>
      (newRecord up t).code = 0x5201 ∧ (newRecord up t).posted) ∧
    nx (exec (.postedWriteCheckFail 0x1000 7 0x5201) up) up := by decide +kernel

/-! ### Interrupts and PCIe -/

def aplic (en : Bool) : State :=
  { up with
    err := { up.err with written := 1 }
    landing := { up.landing with aplicM := { enabled := en, sources := Table.set {} 0 1 4, enables := Table.set {} false 1 true
                                             targets := Table.set {} 0 1 (3 * 2 ^ 18 + 9) } } }

theorem test_interrupts : msiFile 0x400002401000 = some 16 ∧
    holds (exec (.imsicMsi 0x400002401000 2047) up) (fun t => t.landing.pendingMsi.get false (16 * 2048 + 2047)) ∧
    nx (exec (.imsicMsi 0x400002401000 2048) up) up ∧ nx (exec (.imsicMsi 0x400002401000 0) up) up ∧ nx (exec (.imsicMsi 0x400002401008 5) up) up ∧
    sourceAsserted (aplic true) 1 = true ∧
    holds (exec (.aplicSourceChange 1) (aplic true)) (fun t => t.landing.pendingMsi.get false (3 * 16 * 2048 + 9) ∧
      !t.landing.aplicM.pending.get false 1 ∧ t.landing.wires.get false 1) ∧
    holds (exec (.aplicSourceChange 1) (aplic false)) (fun t => t.landing.pendingMsi = {} ∧ t.landing.aplicM.pending.get false 1) := by decide +kernel

def port1 (inbound : Bool) : State := { h1 {} with landing := { up.landing with pcie := Table.set {} {} 1 { inbound := inbound, width := 4, rate := 3 } } }

theorem test_pcie : ServesRead { agent := .pcie, context := 1 } 0x1000 8 (port1 true) ∧ ServesWrite { agent := .pcie, context := 1 } 0x1002 2 (port1 true) ∧
    InPlain (port1 true) 0x1002 2 ∧ linkForm 8 3 = true ∧ linkForm 0 0 = true ∧
    holds (exec (.pcieInbound 1 { addr := 0x1000, length := 8, write := none }) (port1 true)) (fun t => (pcieOf t 1).completion = .data [1, 2, 3, 4, 5, 6, 7, 8]) ∧
    holds (exec (.pcieInbound 1 { addr := 0x1002, length := 8, write := some [9, 9] }) (port1 true)) (fun t => memRead t.mem 0x1000 8 = [1, 2, 9, 9, 5, 6, 7, 8]) ∧
    holds (exec (.pcieInbound 1 { addr := 0x1000, length := 8, write := none }) (port1 false)) (fun t => (pcieOf t 1).completion = .unsupported ∧
      (pcieOf t 1).refused = 1 ∧ (newRecord up t).code = 0x9202) ∧
    holds (exec (.pcieLinkChange 1 0 0 false) (port1 true)) (fun t => (pcieOf t 1).width = 0 ∧ (pcieOf t 1).reports ∧ (newRecord up t).code = 0x9204) ∧
    holds (exec (.pcieLinkChange 1 8 3 false) (port1 true)) (fun t => (pcieOf t 1).width = 8 ∧ (pcieOf t 1).reports ∧ t.err = up.err) := by decide +kernel

/-! ### The management processor -/

/-- Answered at once, answered later, by what answer. -/
def ans (m : List Byte) (s t : State) : Bool := decide (t.mgmt.portResponse = m ∧ t.mgmt.served = s.mgmt.served + 1 ∧ t.mgmt.long = none)
def lat (m : List Byte) (bound : Nat) (t : State) : Bool := decide (t.mgmt.long.map (fun l => (l.response, l.bound)) = some (m, bound))
def vdone (c status : Nat) (data : List Byte) : List Byte := vendorResponse up c 0 status 0 data
def twoRecords : State := report { code := 0x5201 } (report { code := 0x5202 } up)
def injects : State := { up with cfg := some { injection := 1 } }

theorem test_vendor_commands :
    holds (exec (.getIdentity .port) up) (fun t => ans (vdone 1 0 ((identityRegs up).flatMap (bytesOfNat 8))) up t ∧ om up t) ∧
    holds (exec (.getStatus .port) up) (fun t => (t.mgmt.portResponse.drop 8).take 2 = (vdone 2 0 [0, 2]).drop 8 ∧ om up t) ∧
    holds (exec (.readRegister .port 0x400000C00000) up) (ans (vdone 3 0 (bytesOfNat 8 0)) up) ∧
    holds (exec (.writeRegister .port 0x400000C00008 0) up) (ans (vdone 4 0 []) up) ∧
    holds (exec (.readRegister .port 0x400000C00004) up) (ans (vdone 3 0x9106 []) up) ∧
    holds (exec (.writeRegister .port 0x400000C00004 0) up) (ans (vdone 4 0x9106 []) up) ∧
    holds (exec (.readErrorRecords .port 1) twoRecords) (ans (vdone 5 0 (recordBytes (recordAt twoRecords.err 0))) twoRecords) ∧
    holds (exec (.readErrorRecords .port 0) up) (ans (vdone 5 0x9105 []) up) ∧ holds (exec (.readErrorRecords .port 17) up) (ans (vdone 5 0x9105 []) up) ∧
    mayInject up false = false ∧ holds (exec (.inject .port 3 0 0) up) (ans (vdone 0x30 0x9310 []) up) ∧ mayInject injects false = true ∧
    holds (exec (.inject .port 3 0 0) injects) (fun t => ans (vdone 0x30 0x9311 []) up t ∧ (slotOf t 3).state = .refused ∧ (slotOf t 3).result = 0x9311) ∧
    holds (exec (.inject .port 3 0x100005102 7) injects) (fun t => ans (vdone 0x30 0 []) up t ∧
      slotOf t 3 = { code := 0x5102, count := 1, locator := 7, state := .armed }) ∧
    holds (exec (.mctpControl true [0, 0x81, 2]) up) (fun t => t.mgmt.portResponse = mctpResponse [0, 0x81, 2] (mctpAnswer [0, 0x81, 2] 0).1) := by decide +kernel

def boxed : State := { up with mgmt := { up.mgmt with request := memWrite {} 0 [0x7E, 0, 0, 1, 9] } }
def asksIdentity : List Byte := [0x7E] ++ bytesOfNat 2 up.part.vendor ++ bytesOfNat 1 1 ++ bytesOfNat 1 9
def backlogged : State := { up with mgmt := { up.mgmt with posted := true, backlog := [⟨.mailbox, .vendor asksIdentity, 3⟩] } }
def portSeven : State := { up with fabric := { up.fabric with ports := Table.set {} {} 7 { state := .up } } }
def longOp (s : State) (l : LongOp) : State := { s with mgmt := { s.mgmt with long := some l } }

theorem test_requests_complete :
    holds (exec (.mailboxGo 0x50001) boxed) (fun t => om boxed t ∧ t.mgmt.posted ∧ t.mgmt.reqLen = 5 ∧ t.mgmt.backlog = [⟨.mailbox, .vendor [0x7E, 0, 0, 1, 9], 5000⟩]) ∧
    nx (exec (.mailboxGo 0x50001) backlogged) { backlogged with mgmt := { backlogged.mgmt with reqLen := 5 } } ∧
    holds (exec .mgmtResponse backlogged) (fun t => t.mgmt.backlog = [] ∧ t.mgmt.rspReady ∧ !t.mgmt.posted ∧
      memRead t.mgmt.response 0 t.mgmt.rspLen = vendorResponse up 1 9 0 0 ((identityRegs up).flatMap (bytesOfNat 8))) ∧
    holds (exec (.moduleReset .port) up) (fun t => t.life.power = .warmReset ∧ t.life.keptCause = some 0x120B ∧ t.mgmt.portResponse = vdone 0x10 0 []) ∧
    holds (exec (.retrain .port 0 7) portSeven) (fun t => (portOf t 7).state = .training ∧ t.mgmt.long.map (·.kind) = some (.retrain 0 7)) ∧
    holds (exec .mgmtLongOpDone (longOp portSeven ⟨.retrain 0 7, .port, [0], 0, 0⟩)) (ans (vdone 0x11 0 [3]) up) ∧
    holds (exec .mgmtLongOpDone (longOp up ⟨.vendor 0x20, .port, [5], 0, 0⟩)) (ans [5] up) := by decide +kernel

/-- Slot 1 open for staging, as given. -/
def staging (x : StageSession) (r : StartRecord → StartRecord) : State :=
  { up with boot := { up.boot with session := some x, slot1 := .staged {}, copy0 := up.boot.copy0.map r } }
def record1 (t : State) : Option SlotState := (newestRecord t.boot).map (slotState 1)

theorem test_staging_commands :
    holds (exec (.stageOpen .port 1) up) (fun t => lat (vdone 0x20 0 []) 45000000 t ∧ t.boot.session = some { slot := 1 } ∧ record1 t = some .empty) ∧
    holds (exec (.stageOpen .port 0) up) (ans (vdone 0x20 0x111A []) up) ∧
    holds (exec (.stageWrite .port 0 [1, 2, 3]) (staging { slot := 1 } id)) (fun t => lat (vdone 0x21 0 []) 2000 t ∧
      t.boot.session = some { slot := 1, next := 3, wrote := true } ∧ (List.range 4).map ((stagedBytes t.boot 1).get 0xFF ·) = [1, 2, 3, 255]) ∧
    holds (exec (.stageWrite .port 4 [1]) (staging { slot := 1 } id)) (ans (vdone 0x21 0x1118 []) up) ∧
    holds (exec (.stageVerify .port) (staging { slot := 1 } id)) (ans (vdone 0x22 0x1119 []) up) ∧
    holds (exec (.stageSelect .port) (staging { slot := 1 } id)) (ans (vdone 0x23 0x1119 []) up) ∧
    holds (exec (.stageSelect .port) (staging { slot := 1 } (markSlot 1 .verified))) (lat (vdone 0x23 0 []) 200000) ∧
    holds (exec (.stageAbort .port) (staging { slot := 1 } id)) (fun t => ans (vdone 0x24 0 []) up t ∧ t.boot.session = none ∧ record1 t = some .empty) ∧
    holds (exec (.imageConfirm .port) up) (lat (vdone 0x25 0 []) 200000) ∧
    holds (exec (.startRecordRead .port 16) up) (fun t => ans (vdone 0x26 0 (up.boot.copy0.toList.flatMap startRecordBytes ++ up.boot.log.flatMap logEntryBytes)) up t) ∧
    holds (exec .mgmtLongOpDone (longOp (staging { slot := 1 } (markSlot 1 .verified)) ⟨.select, .port, [], 0, 0⟩)) (fun t => t.boot.session = none ∧
      (newestRecord t.boot).map (·.pendingSlot) = some (some 1)) ∧
    holds (exec .mgmtLongOpDone (longOp (staging { slot := 1 } fun r => { r with trial := true, runningSlot := some 1 }) ⟨.confirm, .port, [], 0, 0⟩)) (fun t =>
      (newestRecord t.boot).map (fun r => (r.trial, r.activeSlot)) = some (false, 1)) := by decide +kernel

theorem test_stage_verify : (let s := staging { slot := 1, wrote := true, next := 3 } id;
    let v := validateSlot s.boot s.part s.life.common s.life.sites 1;
    v.code ≠ 0 ∧ v.code ≠ 0x1119 ∧ v.code ≠ 0x111B ∧ holds (exec (.stageVerify .port) s) (lat (vdone 0x22 v.code.toNat []) 1500000)) := by decide +kernel

/-! ### Kerf links, admitted dies, registers -/

/-- Two rows from grove 2 to the Landing die. -/
def aFlit : KerfFlit := { source := 2, dest := 4, content := .rows 0x1000 0x1080, bytes := List.replicate 256 7 }

def kerfUp (d : LaneDir) (k : KerfBundle) : State := updBundle 2 3 (fun _ => { k with role := .direct, width := .full, dirB := d }) up
def bAfter (t : State) : LaneDir := dirOf (bundleOf t 2 3) true

theorem test_kerf : carriesFlits (bundleOf (kerfUp {} {}) 2 3) = true ∧ 3 < bundlesOf 2 ∧
    holds (exec (.kerfFlitReceive 2 3 true 1 true []) (kerfUp { delivered := 1, sent := 2, queue := [aFlit, aFlit], replayFrom := some 5 } {})) (fun t =>
      bAfter t = { delivered := 2, sent := 2, queue := [aFlit] } ∧ t.kerf.waiting = []) ∧
    holds (exec (.kerfFlitReceive 2 3 true 3 true []) (kerfUp { delivered := 1, sent := 2, queue := [aFlit, aFlit] } {})) (fun t =>
      bAfter t = { delivered := 1, sent := 2, queue := [aFlit, aFlit] }) ∧
    holds (exec (.kerfFlitReceive 2 3 true 2 false []) (kerfUp { delivered := 1, queue := [aFlit, aFlit], replayFrom := some 5 } {})) (fun t =>
      bAfter t = { delivered := 1, sent := 3, queue := [aFlit, aFlit], replayFrom := some 2 }) ∧
    holds (exec (.kerfReplay 2 3 true) (kerfUp { delivered := 1, sent := 20, replayFrom := some 5 } {})) (fun t => (bundleOf t 2 3).replays = 15) ∧
    holds (exec (.kerfLaneCheck 2 3 true [9]) (kerfUp { bursts := [1, 2] } {})) (fun t => (bAfter t).suspect = [9] ∧ (bAfter t).replaced = []) ∧
    holds (exec (.kerfLaneCheck 2 3 true [63]) (kerfUp { suspect := [63, 10] } {})) (fun t => (bAfter t).failed = [63] ∧ (bAfter t).replaced.length = 1 ∧
      (newRecord up t).code = 0x6101) ∧
    holds (exec (.kerfLaneCheck 2 3 true []) (kerfUp { bursts := [1, 2, 3] } {})) (fun t => (bundleOf t 2 3).retraining ∧ (newRecord up t).code = 0x6105) ∧
    holds (exec (.pausedRepairDone 2 3 [] []) (kerfUp {} { repairing := true })) (fun t => !(bundleOf t 2 3).repairing) ∧
    holds (exec (.kerfRetrainDone 2 3 [] []) (kerfUp {} { retraining := true })) (fun t => !(bundleOf t 2 3).retraining) ∧
    holds (exec (.kerfClockLoss 2 3 true) (kerfUp {} {})) (fun t => (bundleOf t 2 3).width = .down ∧ (newRecord up t).code = 0x6103) := by decide +kernel

def siteUp (x : Site) : State := updSite 1 (fun _ => { x with state := .admitted, tempLimit := 90 }) (upHart {})
def shut (t : State) : Bool := decide ((siteOf t 1).state = .shutDown ∧ (siteOf t 1).code = 0x6205 ∧ (newRecord up t).code = 0x6205)

theorem test_sites : admittedSite (siteUp {}) 1 = true ∧ (siteUp {}).part.orderCode ≠ 1 ∧
    holds (exec (.siteTempReport 1 94) (siteUp {})) (fun t => (siteOf t 1).temp = 94 ∧ t.err = up.err) ∧ holds (exec (.siteTempReport 1 95) (siteUp {})) shut ∧
    holds (exec (.siteReportTimeout 1) (siteUp {})) shut ∧ holds (exec (.siteMainbandFailure 1 false 1 1 1) (siteUp {})) shut ∧
    holds (exec (.siteMainbandFailure 1 true 1 16 8) (siteUp {})) shut ∧
    holds (exec (.siteMainbandFailure 1 true 2 32 24) (siteUp {})) (fun t => (siteOf t 1).lanes = 32 ∧ (siteOf t 1).code = 0x6206 ∧ (newRecord up t).code = 0x6206) ∧
    windowForwards (upHart {}) 1 = false ∧ holds (exec (.siteWindowAccess 1 1 8 none none) (upHart {})) (fun t => (hartOf t 1).value = 0) ∧
    nx (exec (.siteWindowAccess 1 1 8 (some 5) none) (upHart {})) (upHart {}) ∧ windowForwards (siteUp { cls := 2 }) 1 = true ∧
    holds (exec (.siteWindowAccess 1 1 8 none none) (siteUp { cls := 2 })) (fun t => (hartOf t 1).waiting = .site 1 ∧ (siteOf t 1).access.length = 1) ∧
    holds (exec (.siteWindowTimeout 1) (siteUp { access := [⟨.hart 1, 5, 0, false⟩] })) (fun t => (siteOf t 1).access = [] ∧
      (hartOf t 1).value = 0xFFFFFFFFFFFFFFFF ∧ (newRecord up t).code = 0x6208) := by decide +kernel

theorem test_register_writes :
    holds (exec (.registerWrite 0x400000C00008 1) twoRecords) (fun t => nx (exec (.errRead 1) twoRecords) t) ∧
    holds (exec (.registerWrite 0x400001100010 0x50001) boxed) (fun t => nx (exec (.mailboxGo 0x50001) boxed) t) ∧
    holds (exec (.registerWrite 0x400001101FF8 0x0102030405060708) boxed) (fun t => om boxed t ∧ memNat t.mgmt.request 0xFF8 8 = 0x0102030405060708) ∧
    holds (exec (.registerWrite 0x400002901000 0x0000007700000001) up) (fun t => pcieOf t 1 = { pcieOf up 1 with inbound := true, context := 0x77 }) ∧
    (inNoBlock 0x500000 = true ∧ nx (exec (.registerWrite 0x400000500000 5) up) up ∧ (regRead 0x500000 up).1 = 0) ∧
    nx (exec (.registerWrite 0x4000000FFFF8 5) up) up ∧ (ringExists up 1023 = false ∧ nx (exec (.registerWrite 0x4000004FFFF8 5) up) up) := by decide +kernel
/-! ### Hypotheses of further clauses -/

theorem test_fitted_inputs : (fitInputs { orderCode := 0 } { sites := [{ present := true }] }).sites.all (fun x => !x.present) = true ∧
    ((fitInputs { orderCode := 1, vendor := 0x5150 } { sites := [{}] }).sites.map fun x => (x.vendor, x.device)) = [(0x5150, 0x0E01)] := by
  decide +kernel

/-- Bench 3 is idle; UNIT_TARGET_ID of a bench of another module, and of a grove. -/
theorem test_unit_message_refused : unitBench roleUp2 (BitVec.ofNat 64 (writeUnitId false ⟨0, .bench 3⟩)) = .ok 3 ∧ (roleOf roleUp2 3).state = .idle ∧
    holds (exec (.unitMessage { aMessage with target := BitVec.ofNat 64 (writeUnitId false ⟨0, .bench 3⟩), epoch := 0x10000 }) roleUp2) (fun t =>
      t.scratch = {} ∧ (newRecord roleUp2 t).code = 0x1401 ∧ (newRecord roleUp2 t).detail2 = 0) ∧
    unitBench roleUp2 (BitVec.ofNat 64 (writeUnitId false ⟨0, .grove 1⟩)) = .error 0x7305 ∧
    holds (exec (.unitMessage { aMessage with target := BitVec.ofNat 64 (writeUnitId false ⟨0, .grove 1⟩), origin := 9 }) roleUp2) (fun t =>
      t.scratch = {} ∧ t.fabric.answer = some ⟨9, 0x7305, []⟩) := by decide +kernel

theorem test_epoch_exhausted : holds (exec (.epochAdvance 2) (updRole 2 (fun e => { e with advances := 1, unitGen := 0xFFFF }) roleUp2)) (fun t =>
    t.life.power = .warmReset ∧ t.life.keptCause = some 0x1404) := by decide +kernel

theorem test_fence_clocks : (let s := ring3 { runs with status := .paused } [{ waiting with clockStarted := true }];
    clockRuns s { waiting with clockStarted := true } = false ∧ clockRuns s waiting = false ∧
    holds (exec (.fenceTimeout (.task 3 2)) s) (fun t => (ringOf t 3).failures = [⟨2, false, 0x3201⟩]) ∧
    nx (exec (.fenceTimeout (.task 3 2)) (ring3 { runs with status := .paused } [waiting])) (ring3 { runs with status := .paused } [waiting])) := by
  decide +kernel

/-- A task of the same queue, earlier, that has yet to write the scratch at 0. -/
def writer : Task := { matTask { small with problems := [{ m := 1, n := 1, k := 1, aElem := inS 0x8000, bElem := inS 0x9000, cAddr := inS 0 }] } with seq := 1 }

theorem test_pass_waits_for_scratch : (let s := atWork [writer, matTask small] { run := some startRun };
    scratchHeld s (matTask small) 5 (passRuns small startRun) = true ∧ nx (exec (.passStart 5) s) s) := by decide +kernel

/-- A bank under drain and no run: an error of the bank ends its task, its other units none. -/
theorem test_bank_error : (let s := atWork [matTask small] { bankA := some (fullBank true), skid := [anEntry true false] };
    findTask s 3 2 = some (matTask small) ∧ arrayTask (atWork [matTask small] inTile) 5 = some (matTask small) ∧
    holds (exec (.arrayParityError 5 0x2203) s) (fun t => (benchOf t 5).bankA = none ∧ (benchOf t 5).skid = [] ∧
      (ringOf t 3).failures = [⟨2, false, 0x2203⟩])) := by decide +kernel

/-- A scrub of one page that no other sequence holds, and of one that another does. -/
theorem test_scrub_pages : [1, 2].all fun refs =>
    let s := idleDeck { deckU live with refs := Table.set {} 0 1 refs, seqs := Table.set {} {} 4 { gen := 3, state := .scrubbing, pages := [1] } }
    holds (exec (.deckScrubDone 0 4) s) fun t => (seqOf (deckOf t 0) 4).state = .free ∧ (deckOf t 0).refs.get 0 1 = refs - 1 ∧
      ((deckOf t 0).freeStack.contains 1) = (refs == 1 || (deckU live).freeStack.contains 1) := by decide +kernel

/-- A sealed object's near home, and its drain done. -/
theorem test_sealed_drain : (let s := objectUp { anObject with valid := false, busy := true, zeroes := true };
    (s.tier.inProgress.all fun m => !({ anObject with busy := true } : TierObject).holds m.ashlar) = true ∧
    (s.tier.admitted.all fun x => !(({ anObject with busy := true } : TierObject).holds x.2 && stillWaits s x.1)) = true ∧
    holds (exec (.objectDrainDone 9) s) (fun t => statusOf 9 t = (false, false) ∧ !(objectOf t 9).zeroes)) := by decide +kernel

theorem test_opcache_inval_done : (let s : State := { up with opLines := [⟨1, 9, 1, [], none⟩, ⟨1, 70, 1, [], none⟩], opRegs := Table.set {} {} 1 { held := [some (0, 64)] } };
    holds (exec (.opcacheInvalDone 1) s) (fun t => t.opLines = [⟨1, 70, 1, [], none⟩] ∧ (t.opRegs.get {} 1).done = 1)) := by decide +kernel

/-- A sealed stake of the bulk tier and its key. -/
def bulkSealed : State := { up with stakes := { up.stakes with
  table := Table.set {} {} (stakeIndex bulkBase) { owner := 9, state := .owned, sealed := true }, sealedContexts := [⟨9, some 5, false, 0⟩] } }

theorem test_sealed_stake : stakeKey bulkSealed bulkBase = .sealed 5 ∧ regionOf bulkBase = .bulk ∧
    ServesWrite { agent := .movePort, context := 9 } bulkBase 512 bulkSealed ∧ ServesRead { agent := .movePort, context := 9 } bulkBase 512 bulkSealed := by
  decide +kernel

/-! ### A hart's tables -/

/-- Tables from 0x10000 on: page 5 at 0x1000, page 7 the same uncached, page 8 not valid. -/
def tables : List (Nat × Nat) := [(0x10000, 0x4401), (0x11000, 0x4801), (0x12000, 0x4C01), (0x13028, 0x4C7), (0x13038, 2 ^ 61 + 0x4C7)]
def hv (x : Hart) : State := { h1 x with mem := tables.foldl (fun m e => memWriteNat m e.1 8 e.2) (h1 x).mem }
def rt : HartView := { root := some 0x10000 }

theorem test_hart_tables : physRead (hartRequester (hv {}) 1) 0x10000 8 (hv {}) = (.done (bytesOfNat 8 0x4401), hv {}) ∧
    MapsTo 1 .hs .load rt 0x5008 8 0x1008 false (hv {}) ∧ MapsTo 1 .hs .load rt 0x7000 8 0x1000 true (hv {}) ∧
    hartMap 1 .hs .store rt 0x8000 8 (beginAccess 1 .hs rt (hv {})) = (.error (0x8000, .page), beginAccess 1 .hs rt (hv {})) ∧
    holds (exec (.hartLoad 1 .hs 0x5000 8 false rt) (hv {})) (fun t => (hartOf t 1).value = 0x0807060504030201 ∧ (hartOf t 1).trap = none) ∧
    holds (exec (.hartLoad 1 .u 0x5000 8 false rt) (hv {})) (fun t => (hartOf t 1).trap = some (.loadPage, 0x5000) ∧ (hartOf t 1).accFault = 0) ∧
    holds (exec (.hartStore 1 .hs 0x8000 8 5 rt) (hv {})) (fun t => (hartOf t 1).trap = some (.storePage, 0x8000) ∧ t.mem = (hv {}).mem) ∧
    holds (exec (.hartStore 1 .hs 0x7000 1 0x55 rt) (hv {})) (fun t => (hartOf t 1).combined = [] ∧ memRead t.mem 0x1000 2 = [0x55, 2]) ∧
    holds (exec (.hartLoad 1 .m 0x1000 8 false rt) (hv {})) (fun t => (hartOf t 1).value = 0x0807060504030201) := by decide +kernel

theorem test_wrs : holds (exec (.hartAtomic 1 .hs .wrs 0x1000 8 0 0 false {}) (h1 { reservation := some 64 })) (fun t => (hartOf t 1).waiting = .stalled 64) ∧
    holds (exec (.hartAtomic 1 .hs .wrs 0x1000 8 0 0 false {}) (h1 {})) (fun t => (hartOf t 1).waiting = .nothing) := by decide +kernel

/-! ### Kerf traffic -/

/-- Bundles of edge 2: 3 and 4 BULK, 5 HUB, 6 HUB_OVERFLOW; of edge 6, between groves 2 and 3: 0 DIRECT; of edge 9: 0 PORT. -/
def kerfNet : State :=
  let put (e b : Nat) (r : KerfRole) (s : State) : State := updBundle e b (fun _ => { role := r, width := .full }) s
  put 9 0 .port (put 6 0 .direct (put 2 6 .hubOverflow (put 2 5 .hub (put 2 3 .bulk up))))
def hubFlit (m : HubMessage) (seq : Nat) : KerfFlit := { source := 2, dest := 4, content := .hub [m], bytes := List.replicate 256 0, seq := seq }
def queueOf (s : State) (e b : Nat) (dirB : Bool) : Nat := (dirOf (bundleOf s e b) dirB).queue.length

theorem test_kerf_traffic : roleBundles kerfNet 2 .bulk = [3] ∧ flitRole kerfNet 2 true aFlit = .bulk ∧ nextHop kerfNet 2 aFlit = (2, true) ∧
    queueOf (assignFlit 2 aFlit kerfNet) 2 3 true = 1 ∧ (assignFlit 1 { aFlit with source := 1 } kerfNet).kerf.waiting.length = 1 ∧
    nextHop kerfNet 2 { aFlit with dest := 3 } = (6, false) ∧ queueOf (assignFlit 2 { aFlit with dest := 3 } kerfNet) 6 0 false = 1 ∧
    nextHop kerfNet 4 { aFlit with dest := 6 } = (9, false) ∧ queueOf (assignFlit 4 { aFlit with dest := 6, content := .frame 40 0 } kerfNet) 9 0 false = 1 ∧
    queueOf (assignFlit 2 (hubFlit .boom 0) kerfNet) 2 5 true = 1 := by decide +kernel

/-- The HUB bundle holds 10,000 flits: a message that keeps no order takes the overflow bundle, one that keeps it does not. -/
theorem test_hub_overflow : (let s := updBundle 2 5 (setDir true { queue := List.replicate 10000 (hubFlit .boom 0) }) kerfNet;
    flitRole s 2 true (hubFlit .errorRecord 0) = .hubOverflow ∧ flitRole s 2 true (hubFlit .boom 0) = .hub ∧
    (assignFlit 2 (hubFlit .errorRecord 0) s).kerf.overflowTurn.get 0 5 = 1 ∧ queueOf (assignFlit 2 (hubFlit .errorRecord 0) s) 2 6 true = 1) := by
  decide +kernel

theorem test_hub_order : (takeFlit (hubFlit .tally 1) kerfNet).kerf.hubHeld.length = 1 ∧
    (takeFlit (hubFlit .tally 0) (takeFlit (hubFlit .tally 1) kerfNet)).kerf.hubHeld = [] ∧
    (takeFlit (hubFlit .tally 0) (takeFlit (hubFlit .tally 1) kerfNet)).kerf.hubNext.get 0 18 = 2 ∧
    (let s := updBundle 2 3 (fun k => { k with repairing := true }) kerfNet;
      carriesFlits (bundleOf s 2 3) = false ∧
      holds (exec (.kerfFlitReceive 2 3 true 0 true [aFlit]) s) (fun t => t.kerf.waiting = [(2, aFlit)]) ∧
      holds (exec (.pausedRepairDone 2 3 [] []) { s with kerf := { s.kerf with waiting := [(2, aFlit)] } }) (fun t =>
        t.kerf.waiting = [] ∧ queueOf t 2 3 true = 1)) := by decide +kernel

/-- A clock pair lost while another bundle of the role carries on: the flits of the bundle move there. -/
theorem test_flits_move : (let s := updBundle 2 4 (fun _ => { role := .bulk, width := .full }) (updBundle 2 3 (setDir true { queue := [aFlit] }) kerfNet);
    holds (exec (.kerfClockLoss 2 3 true) s) (fun t => (bundleOf t 2 3).width = .down ∧ queueOf t 2 3 true = 0 ∧ queueOf t 2 4 true = 1 ∧
      (newRecord up t).code = 0x6103)) := by decide +kernel

/-! ### Site windows of the management processor, staging after a reset -/

theorem test_site_windows : (let s := siteUp { cls := 2 };
    siteWindowOf (0x400001050008 - controlBase) = some (1, 8) ∧ forwardedWindow s (0x400001050008 - controlBase) = some (1, 8) ∧
    holds (exec (.readRegister .port 0x400001050008) s) (fun t => t.mgmt.writing ∧ (siteOf t 1).access.map (·.addr) = [0x400001050008]) ∧
    holds (exec (.writeRegister .port 0x400001050008 3) s) (fun t => t.mgmt.writing ∧ (siteOf t 1).access.map (·.write) = [true]) ∧
    holds (exec (.readRegister .port 0x400001050008) (siteUp {})) (ans (vdone 3 0 (bytesOfNat 8 0)) up) ∧
    holds (exec (.siteWindowTimeout 1) (siteUp { access := [⟨.mgmt false 7, 5, 0, false⟩] })) (fun t =>
      t.mgmt.portResponse = vendorResponse up 3 7 0 0 (List.replicate 8 0xFF) ∧ !t.mgmt.writing)) ∧
    ((siteUp { cls := 1 }).part.orderCode ≠ 1 ∧ engineCapacity { cls := 1 } 1 32 16 = false ∧
      holds (exec (.siteMainbandFailure 1 true 1 32 16) (siteUp { cls := 1 })) shut) := by decide +kernel

def endedSession : State := { up with boot := { up.boot with sessionEnded := true } }

theorem test_session_ended :
    [(Instr.stageWrite .port 0 [1], 0x21), (.stageVerify .port, 0x22), (.stageSelect .port, 0x23), (.imageConfirm .port, 0x25)].all (fun x =>
      holds (exec x.1 endedSession) fun t => ans (vdone x.2 0x111B []) up t ∧ !t.boot.sessionEnded) = true ∧
    holds (exec (.stageAbort .port) endedSession) (fun t => ans (vdone 0x24 0 []) up t ∧ !t.boot.sessionEnded) := by decide +kernel

/-! ### Clauses of the second review -/

/-- The one HUB bundle of grove 1 is down. -/
def hubDown : State := { up with kerf := { up.kerf with bundles := Table.set {} {} 37 { role := .hub, width := .down } } }

theorem test_undelivered : undelivered hubDown { code := 0x5201, source := srcGrove up 1 } = true ∧
    report { code := 0x5201, source := srcGrove up 1 } hubDown = hubDown ∧
    undelivered hubDown { code := 0x6104, source := srcGrove up 1 } = false ∧ undelivered hubDown aRecord = false ∧
    undelivered hubDown { code := 0x5201, source := srcGrove up 2 } = false := by decide +kernel

/-- Port 71 is UP, and the detector of 0x5201 has fired. -/
def firedUp : State := { up with
  err := { up.err with firing := some 0x5201 }
  fabric := { up.fabric with ports := Table.set {} {} 71 { state := .up, sent := 4 } } }

theorem test_record_of_firing : maintUp firedUp = true ∧ undelivered firedUp aRecord = false ∧
    (newRecord firedUp (report aRecord firedUp)).injected = true ∧ (report aRecord firedUp).err.maintRows.length = 1 ∧
    ((report aRecord firedUp).fabric.ports.get {} 71).sent = 5 ∧ (report aRecord firedUp).err.firing = none := by decide +kernel

/-- The stake of address 0x1000 is sealed. -/
theorem test_injection_of_sealed : (let s := { injUp { code := 0x4101, count := 1, locator := 0x1000 } with
      stakes := { up.stakes with table := Table.set {} {} (stakeIndex 0x1000) { owner := 9, state := .owned, sealed := true } } };
    locatorForm s 0x4101 0x1000 = true ∧ (addressPoint 0x4101 && sealedData s 0x1000) = true ∧
    holds (exec (.injectionArm 4 1) s) fun t => (slotOf t 4).state = .refused ∧ (slotOf t 4).result = 0x9312) := by decide +kernel

/-- DIAG_LOCATOR names bench 2, which is active. -/
theorem test_scan_refused : (let s := { scanUp bench2 .idle with roles := roleUp2.roles };
    (locatorPlace s s.err.diagLocator.toNat).bind placeBench = some 2 ∧ (roleOf s 2).state = .active ∧
    holds (exec (.go 1) s) fun t => t.err.diagState = .idle ∧ t.err.diagCode = 0x9314 ∧ t.power.requests = []) ∧
    scanningUp.err.inj.cells = [] ∧
    holds (exec (.diagScanDone 70000 9) scanningUp) (fun t => t.err.diagState = .failed ∧ t.err.diagFails = 0xFFFF ∧ t.err.diagFirst = 9) := by
  decide +kernel

/-- Channel 3 with a start that has come, and with a level source. -/
theorem test_scaler_levels : armRefused 1000 { aChannel with start := 1000 } = false ∧
    holds (exec (.scalerArm 3 1) (chanUp { aChannel with start := 1000 })) (fun t => (channelOf t 3).state = .running) ∧
    (let c : Channel := { source := 4, select := 3, start := 900, stop := 9000, state := .running }
     sampleDue (chanUp c) c = true ∧ (sourceOf 4).1 = true ∧ levelValue (chanUp c) c = some 0 ∧
     holds (exec (.scalerSample 3 40) (chanUp c)) (fun t => (channelOf t 3).sum = 0 ∧ (channelOf t 3).count = 1) ∧
     sampleDue (chanUp { c with periodUs := 3 }) { c with periodUs := 3 } = false) ∧
    sampleDue (chanUp aChannel) aChannel = true := by decide +kernel

theorem test_reset_pin_at_start : State.reset.life.power = .off ∧
    holds (exec (.coldStart { resetLow := true }) State.reset) (fun t => t.life.power = .warmReset ∧ t.life.keptCause = some 0x120A) ∧
    (let s := { up with life := { up.life with power := .brownOut, resetPinHigh := none } };
     holds (exec (.brownOutRestart {}) s) fun t => t.life.power = .warmReset ∧ t.life.keptCause = some 0x120D ∧ t.life.resetPinHigh = none) := by
  decide +kernel

/-- Bench 3, of no partition, whose unit generation a message gets right; window 255 counts where the spec has it count and refuses when it is
not in service. -/
theorem test_unit_messages : (roleOf roleUp2 3).partition = none ∧ epochOf roleUp2 3 = 0x10000 ∧
    (let m := { aMessage with target := BitVec.ofNat 64 (writeUnitId false ⟨0, .bench 3⟩), epoch := 0x10000, origin := 9 }
     holds (exec (.unitMessage m) roleUp2) fun t => t.scratch = {} ∧ t.fabric.answer.map (·.code) = some 0x1401) ∧
    (let s := updFabric (fun f => { f with windows := {} }) (oneTask anIssued)
     unitRefusal s 9 false = some 0x7201 ∧
     holds (exec (.unitMessage { aMessage with origin := 9 }) s) (fun t => t.scratch = {} ∧ t.fabric.answer = some ⟨9, 0x7201, []⟩) ∧
     holds (exec (.unitMessage { aMessage with task := some (3, 0) }) s) (fun t => (findTask t 3 0).map (·.phase) = some .failed ∧
       (newRecord s t).code = 0x7201 ∧ t.scratch = {})) := by decide +kernel

/-- The stake that a read of module 1 meets at window 3 is sealed. -/
theorem test_remote_read_sealed : (let s := { memUp with stakes := { up.stakes with
      table := Table.set {} {} (stakeIndex 0x200020) { owner := 1, state := .owned, sealed := true } } };
    windowRefusal s 3 .read 1 1 0x20 8 false = none ∧ coreLoadSealed s 0x200020 8 = true ∧ coreLoadSealed memUp 0x200020 8 = false ∧
    holds (exec (.remoteReadRequest anAccess) s) fun t => t.fabric.answer = some ⟨1, 0x5202, []⟩) := by decide +kernel

/-- Bench 5 with room for a top-up and a governor that withholds nothing; a top-up granted 1 µs ago keeps its grant in the review; a restore
that waits for the budget in grove 1 is served before a fresh request of grove 0. -/
theorem test_top_ups : (let s := pw (bench5 { granted := 4, demand := 9, clock := .running })
      governorWithholds s 5 = false ∧ holds (exec (.topUpRequest 5) s) (fun t => t = s)) ∧
    (let s := pw fun p => { bench5 { granted := 9, demand := 9, clock := .running, toppedAt := some 4000 } p with requests := [{ fresh5 with bench := 6 }] }
     ((benchPow s.power 5).toppedAt.any fun a => decide (s.now < a + 10000)) = true ∧ holds (exec (.reclaimReview [(5, 1300)]) s) (fun t => t = s)) ∧
    (let s := pw fun p => { grove0 { pool := 48, cap := 500, pll := .running } p with
       requests := [fresh5, { bench := 130, kind := .restore, quanta := 30, reason := 2 }] }
     bestRequest 0 s.power.requests = some fresh5 ∧ outranked fresh5 s.power = true ∧
     holds (exec (.grant 0) s) fun t => (benchPow t.power 5).granted = 0 ∧ (grovePow t.power 0).pool = 48) := by decide +kernel

/-- A brake released with one bench whose quanta its pool covers. -/
theorem test_brake_restores : (let s := pw fun p => { grove0 { pool := 48, cap := 500, pll := .running } (bench5 { revoked := 9, demand := 9, clock := .revoked } p) with
      braked := true, requests := [{ bench := 5, kind := .restore, quanta := 9, reason := 3 }] };
    heldAll s.power + pooledAll s.power ≤ sustainedQuanta s ∧
    holds (exec .powerBrakeRelease s) fun t => (benchPow t.power 5).granted = 9 ∧ t.power.requests = [] ∧ t.power.braked = false) := by
  decide +kernel

/-- Records of correctable codes that R454 lets through, and one that it does not. -/
theorem test_under_rate : ([0x8201, 0x8103, 0x8301, 0x4303, 0x6101, 0x6105, 0x6206] : List W16).all (fun c =>
      decide (UnderRate c (srcModule up) up)) = true ∧
    ¬ UnderRate 0x8103 (srcModule up) { up with err := { up.err with suppressed := [⟨0x8103, srcModule up, List.replicate 16 4000, 0⟩] } } := by
  decide +kernel

/-- A sample below 21.6 V limits both budgets. -/
theorem test_low_sample : holds (exec (.estimateSample (sample (some 900) 21000)) (pw id)) (fun t => t.power.inputLow ∧ t.power.vIn = 2100 ∧
    sustainedLimit t = 2600 ∧ peakLimit t = 3150) := by decide +kernel

/-- An array task with no output tile; a member of an open group, which issues all the same (R249). -/
theorem test_issue_corners : (let none_ : MatDesc := { problems := [] };
      let t := benchTask .matmul (.mat none_);
      mayIssue (granted [t]) t = true ∧ taskTiles none_ = 0 ∧
      holds (exec (.matmul 3 2) (granted [t])) fun u => (findTask u 3 2).map (fun x => (x.phase, x.workDone, x.arrayDone)) = some (.issued, true, true)) ∧
    (let t : Task := { benchTask .matmul (.mat oneProduct) with header := { type := .matmul, group := 6 }, member := true };
      let s : State := { granted [t] with groups := Table.set {} {} 6 { state := .opened } };
      mayIssue s t = true ∧ holds (exec (.matmul 3 2) s) fun u => (benchOf u 5).run = some { ring := 3, seq := 2 }) := by decide +kernel

/-- A BARRIER whose ring has lost a transfer of task 1. -/
theorem test_barrier_of_lost_transfer : (let s := ring3 { runs with lost := [(1, 0x7301, 9)] } [gate .barrier];
    MayEnd (gate .barrier) s ∧ mayIssue s (gate .barrier) = true ∧
    holds (exec (.barrier 3 2) s) fun t => (ringOf t 3).failures = [⟨2, false, 0x7301⟩] ∧ (ringOf t 3).lost = []) := by decide +kernel

/-- A bench that holds one quantum takes no rows (R396). -/
theorem test_pass_under_governor : (let s0 := atWork [matTask small] { run := some startRun };
    let s : State := { s0 with power := updBench s0.power 5 fun b => { b with granted := 1 } };
    worksOn s 5 (matTask small) = true ∧ governorAdmits s 5 small startRun = false ∧ governorAdmits s0 5 small startRun = true ∧
    holds (exec (.passStart 5) s) fun t => t = s) := by decide +kernel

/-- Errors while entries of the task are left in the skid, and a second register error in a block. -/
theorem test_error_corners : (let s := atWork [matTask small] { inTile with run := some { startRun with tile := 1 }, skid := [anEntry false true], activeB := some { ring := 3, seq := 2, tile := 1, kp := 0 } };
      holds (exec (.arrayParityError 5 0x2201) s) fun t => (ringOf t 3).failures = [] ∧
        (findTask t 3 2).map (fun x => (x.ends.map (·.code), x.arrayDone)) = some (some 0x2201, true)) ∧
    (let s := atWork [benchTask .vector (.vector nops)] { dresser := some { nopRun with ends := some { code := 0x2320 } } };
      holds (exec (.dresserParityError 5) s) fun t => (newRecord up t).code = 0x2320 ∧ (benchOf t 5).dresser = (benchOf s 5).dresser) := by
  decide +kernel

/-! ### Deck operations with a result address -/

/-- The operation with its record at 0x3000 of scratch, and what stands there after it. -/
def recorded (c : Instr) (d : DeckDesc) (p : State → List Byte → Bool) : Bool :=
  let d := { d with result := inS 0x3000 }
  hasResult d && holds (exec c (deckUp live (deckTask d))) fun t => p t (memRead t.scratch (5 * scratchSize + 0x3000) 16)

theorem test_deck_records :
    recorded (.deckExtendCommitted 3 2) (onSlot .extendCommitted 40) (fun t r => (r.take 8 = bytesOfNat 4 hand ++ bytesOfNat 4 43) ∧ (ringOf t 3).failures = []) ∧
    recorded (.deckCommit 3 2) (onSlot .commit 1) (fun t r => (r.take 8 = bytesOfNat 4 hand ++ bytesOfNat 4 3) ∧ (ringOf t 3).failures.length = 1) ∧
    recorded (.deckQuery 3 2) (onSlot .query 0) (fun _ r => r = (seqBytes live).take 16) := by decide +kernel

/-! ### Premises of the tiers, the Deck units and the stakes -/

theorem test_area_served : tableRefusal (deckUp live aMove) 0 [4] [0, 1, 2] = none ∧
    accessRefusal (deckUp live aMove) rowRequester true (pageAddr (deckU live) 0) 65536 = none ∧
    placesRefusal (ending .squashing) [((deckU live).areaBase + 64 * 4, 64)] = none ∧
    rowsRefusal (deckUp live aMove) (deckU live) live (deckRows (rowsOf .write 2) 1) = none := by decide +kernel

theorem test_copies_served :
    (let s := migrating { ashlar := 0, frame := some (0, 0) } [aFrame0 true];
      s.err.firing = none ∧ s.err.inj.cells = [] ∧ tierRefusal s false (homeAddr anObject 0) ashlarSize true = none ∧
      frameRefused s 0 = false ∧ flashMet s (homeAddr anObject 0) ashlarSize = false ∧
      tierRefusal s true (homeAddr anObject 0) ashlarSize true = none ∧ readsInFlight s 0 = false) ∧
    (let s := faulty fun u => { u with invals := [.all] }; invalHeld s 1 = false) := by decide +kernel

theorem test_stake_refusals :
    holds (exec (.assign (cmd 7 0xFFFFF)) (staked {} .none)) (fun t => t.stakes.result = 0x5304) ∧
    holds (exec (.release (cmd 0 0xFFFFF)) (staked (owned 8) .none)) (fun t => t.stakes.result = 0x5304) ∧
    holds (exec (.release (cmd 0 1)) (staked {} .none)) (fun t => t.stakes.result = 0x5302 ∧ !t.stakes.busy) ∧
    (let s := staked (owned 8) (.release [2]);
      holds (exec (.assign (cmd 7 1)) s) (fun t => t = s) ∧ migrationUses s 2 = false ∧ deckUses s 2 = false) := by decide +kernel

theorem test_responder_serves : MgmtServes up ∧ SpdmServes none (conn .negotiated []) := by
  refine ⟨by decide +kernel, by decide +kernel, by decide +kernel, ?_⟩
  intro i h
  cases h

/-! ### A hart's tables, and requests turned away -/

/-- A table whose entry 0 is as given: a leaf of its level, from address 0 on. -/
def tabled (pte : Nat) : State := { h1 {} with mem := memWriteNat (memWrite {} 0x1000 [1, 2, 3]) 0x800000 8 pte }
def viewed : HartView := { root := some 0x800000, pc := 0x44 }

theorem test_hart_accesses_under_tables :
    holds (exec (.hartLoad 1 .hs 0x1000 3 false viewed) (tabled 0xCF)) (fun t => (hartOf t 1).value = 0x030201) ∧
    holds (exec (.hartLoad 1 .hs 0x1000 3 true { viewed with sv39 := true }) (tabled 0xCF)) (fun t => (hartOf t 1).value = 0x030201) ∧
    holds (exec (.hartLoad 1 .hs 0x1000 3 true viewed) (tabled 0xC7)) (fun t => (hartOf t 1).trap = some (.fetchPage, 0x1000) ∧ (hartOf t 1).epc = 0x44) ∧
    holds (exec (.hartStore 1 .hs 0x1000 8 0 viewed) (tabled 0xC3)) (fun t => (hartOf t 1).trap = some (.storePage, 0x1000)) ∧
    holds (exec (.hartLoad 1 .hs 0x800000000000 3 false viewed) (tabled 0xCF)) (fun t => (hartOf t 1).trap = some (.loadPage, 0x800000000000)) ∧
    holds (exec (.hartLoad 1 .vs 0x1000 3 false { guest := some 0x800000 }) (tabled 0)) (fun t => (hartOf t 1).trap = some (.loadGuest, 0x1000) ∧
      (hartOf t 1).tval2 = 0x400) ∧
    holds (exec (.hartLoad 1 .m 0x400002800000 4 true {}) (h1 {})) (fun t => (hartOf t 1).trap = none) ∧
    holds (exec (.hartStore 1 .hs apertureBase 8 0 {}) { h1 {} with tier := { up.tier with enable := true } }) (fun t =>
      (hartOf t 1).trap = some (.storeAccess, BitVec.ofNat 64 apertureBase) ∧ (hartOf t 1).accFault = 0x8000000000009103) := by decide +kernel

theorem test_pcie_sizes : pcieSized { addr := 0x1000, length := 4097, write := none } = false ∧
    holds (exec (.pcieInbound 1 { addr := 0x1000, length := 4097, write := none }) (port1 true)) (fun t => (pcieOf t 1).reports ∧
      (newRecord up t).code = 0x9201) := by decide +kernel

theorem test_port_messages :
    holds (exec (.mctpControl true (vendorHead up 5 9 ++ [0])) up) (fun t => t.mgmt.portResponse = vendorResponse up 5 9 0x9105 0 []) ∧
    nx (exec (.mctpControl false [0, 0x81, 2]) up) up ∧ nx (exec (.mctpControl true [5, 1, 2]) up) up := by decide +kernel

theorem test_requests_turned_away :
    (let s := longOp boxed ⟨.vendor 0x20, .port, [5], 0, 0⟩;
      holds (exec (.mailboxGo 0x50001) s) (fun t => t.mgmt.rspReady ∧ t.mgmt.long = s.mgmt.long ∧ t.mgmt.backlog = [] ∧
        (memRead t.mgmt.response 0 7).drop 5 = bytesOfNat 2 0x9101)) ∧
    holds (exec (.mailboxGo 0x50001) { up with mgmt := { up.mgmt with request := memWrite {} 0 (vendorHead up 0x10 0) } }) (fun t =>
      t.life.power = .warmReset ∧ t.life.keptCause = some 0x120B) ∧
    holds (exec (.retrain .port 1 1) (port1 true)) (fun t => t.mgmt.long.map (fun l => (l.kind, l.bound)) = some (.retrain 1 1, 2200000)) ∧
    holds (exec (.stageOpen .port 1) (staging { slot := 1 } fun r => { r with trial := true })) (ans (vdone 0x20 0x111A []) up) := by decide +kernel

end Sys2Proof.Tests
end

