-- ==== Sys2Proof/Proofs/UnitMessages.lean ====
section
/-!
PROOFS. Unit messages at their target (R33, R35): counting a message in window 255's tally leaves bench scratch as it is, so what an
accepted message leaves in scratch is its own write; what UNIT_MESSAGE does to an accepted and to a dropped message; and who is told of
a dropped one.
-/

namespace Sys2Proof.Machine

/-! ### What leaves bench scratch as it is -/

@[simp] theorem homeStore_scratch (key : HomeKey) (pa : Nat) (bs : List Byte) (s : State) : (homeStore key pa bs s).scratch = s.scratch := by
  cases key <;> rfl

@[simp] theorem plainWrite_scratch (pa : Nat) (bs : List Byte) (s : State) : (plainWrite pa bs s).scratch = s.scratch := by
  refine List.foldlRecOn (motive := fun t : State => t.scratch = s.scratch) _ _ rfl fun t ht p _ => ?_
  rw [homeStore_scratch, ht]

@[simp] theorem drawFree_scratch (s : State) : (drawFree s).2.scratch = s.scratch := rfl

@[simp] theorem spoilBytes_scratch (ts : List Task) (scatAdds : List (Nat × Nat × Nat)) (a : Nat) (bs : List Byte) (s : State) :
    (spoilBytes ts scatAdds a bs s).2.scratch = s.scratch := by
  induction bs generalizing a s with
  | nil => rfl
  | cons b bs ih =>
    unfold spoilBytes
    split
    · exact (ih (a + 1) (drawFree s).2).trans (drawFree_scratch s)
    · exact ih (a + 1) s

@[simp] theorem outsideWrite_scratch (q : Requester) (pa : Nat) (bs : List Byte) (s : State) :
    (outsideWrite q pa bs s).2.scratch = s.scratch := by
  unfold outsideWrite
  split
  · rfl
  · exact spoilBytes_scratch ..

@[simp] theorem signalBy_scratch (f : Nat → Nat) (q : Requester) (pa : Nat) (s : State) : (signalBy f q pa s).scratch = s.scratch := by
  unfold signalBy
  split
  · rfl
  · simp

@[simp] theorem countArrival_scratch (win n : Nat) (mark : Bool) (s : State) : (countArrival win n mark s).scratch = s.scratch := by
  unfold countArrival
  dsimp only
  split
  · rfl
  · split
    · simp [reportModule]
    · simp [signalAdd]

/-! ### A message that is taken -/

theorem takeMessage_scratch (n off : Nat) (bs : List Byte) (s : State) :
    (takeMessage n off bs s).scratch = memWrite s.scratch (n * scratchSize + off) bs := by
  simp [takeMessage]

/-- A taken message changes scratch by its own write and everything else by the count of its arrival. -/
theorem takeMessage_eq_countArrival (n off : Nat) (bs : List Byte) (s : State) :
    takeMessage n off bs s = countArrival 255 bs.length false { s with scratch := (takeMessage n off bs s).scratch } := by
  rw [takeMessage_scratch]
  rfl

/-! ### The fate of a message at a bench of this module -/

theorem unitFate_taken {s : State} {id : W64} {epoch n : Nat} (hbench : unitBench s id = .ok n) (hpart : (roleOf s n).partition ≠ none)
    (heq : epochOf s n = epoch) : unitFate s id epoch = .taken n := by
  simp [unitFate, hbench, heq, Option.isSome_iff_ne_none.mpr hpart]

theorem unitFate_stale {s : State} {id : W64} {epoch n : Nat} (hbench : unitBench s id = .ok n) (hne : epochOf s n ≠ epoch) :
    unitFate s id epoch = .stale n := by
  simp [unitFate, hbench, hne]

/-! ### UNIT_MESSAGE by the fate of its message -/

theorem exec_unitMessage (m : UnitMsg) (s : State) : exec (.unitMessage m) s = .next (unitMessage m s) := rfl

/-- A unit message came from this module. -/
def MessageFromHere (m : UnitMsg) (s : State) : Prop := m.origin = 0xFFFF ∨ m.origin = moduleIndex s

/-- The module that window 255 admits, or not, as the sender of a unit message. -/
def messageOrigin (m : UnitMsg) (s : State) : Nat := if m.origin = 0xFFFF then moduleIndex s else m.origin

/-- UNIT_MESSAGE acts on the message: the module is in service, and the bytes fit a message and the scratch of its target. -/
structure MessageArrives (m : UnitMsg) (s : State) : Prop where
  service : inService s = true
  length : m.data.length ≤ 65536
  fits : m.offset + m.data.length ≤ scratchSize

theorem messageFromHere_iff (m : UnitMsg) (s : State) :
    (m.origin == 0xFFFF || m.origin == moduleIndex s) = true ↔ MessageFromHere m s := by
  simp [MessageFromHere]

theorem ownIndex_eq_messageOrigin (m : UnitMsg) (s : State) :
    (if m.origin == 0xFFFF || m.origin == moduleIndex s then moduleIndex s else m.origin) = messageOrigin m s := by
  unfold messageOrigin
  by_cases hmark : m.origin = 0xFFFF
  · simp [hmark]
  · by_cases hindex : m.origin = moduleIndex s <;> simp [hmark, hindex]

section Fates

variable {m : UnitMsg} {s : State} {n : Nat}

/-- The guards of UNIT_MESSAGE let a message that arrives through. -/
theorem MessageArrives.not_ignored (h : MessageArrives m s) :
    ¬(!inService s || decide (65536 < m.data.length) || decide (scratchSize < m.offset + m.data.length)) = true := by
  simp [h.service, h.length, h.fits]

theorem unitMessage_of_taken (harrives : MessageArrives m s) (hfate : unitFate s m.target m.epoch = .taken n)
    (hadmit : unitRefusal s (messageOrigin m s) false = none) : unitMessage m s = takeMessage n m.offset m.data s := by
  simp only [unitMessage, if_neg harrives.not_ignored, hfate, ownIndex_eq_messageOrigin, hadmit]

theorem unitMessage_of_stale_own (harrives : MessageArrives m s) (hfate : unitFate s m.target m.epoch = .stale n)
    (hown : MessageFromHere m s) : unitMessage m s = staleAtSender (messageSender s m) (staleDetails s n m.epoch) s := by
  simp only [unitMessage, if_neg harrives.not_ignored, hfate, if_pos ((messageFromHere_iff m s).mpr hown)]

theorem unitMessage_of_stale_foreign (harrives : MessageArrives m s) (hfate : unitFate s m.target m.epoch = .stale n)
    (hforeign : ¬ MessageFromHere m s) : unitMessage m s = noticeTo m.origin (staleDetails s n m.epoch) s := by
  simp only [unitMessage, if_neg harrives.not_ignored, hfate, if_neg (mt (messageFromHere_iff m s).mp hforeign)]

end Fates

/-! ### The sender of this module that is told -/

theorem transferTask_messageSender_of_task {m : UnitMsg} {s : State} {r q : Nat} {t : Task} (htask : m.task = some (r, q))
    (hfind : findTask s r q = some t) (hphase : t.phase = .issued) : transferTask s (messageSender s m) = some t := by
  simp [transferTask, messageSender, htask, hfind, Task.running, hphase]

theorem transferTask_messageSender_of_no_task {m : UnitMsg} (s : State) (htask : m.task = none) :
    transferTask s (messageSender s m) = none := by
  simp [transferTask, messageSender, htask]

/-- The record of a stale message that a hart stored: the hart's context and the address it stored to (R35, R449). -/
theorem transferRecord_messageSender_of_hart {m : UnitMsg} {h pa : Nat} (s : State) (htask : m.task = none) (hhart : m.hart = some (h, pa))
    (d0 d1 d2 : Nat) : transferRecord (messageSender s m) 0x1401 d0 d1 d2 s =
      { code := 0x1401, source := srcModule s, address := BitVec.ofNat 64 pa, context := BitVec.ofNat 16 (hartContextOf s h)
        detail0 := BitVec.ofNat 64 d0, detail1 := BitVec.ofNat 64 d1, detail2 := BitVec.ofNat 32 d2 } := by
  simp [transferRecord, messageSender, htask, hhart]

theorem staleAtSender_of_task {x : Transfer} {s : State} {t : Task} (h : transferTask s x = some t) (d : Nat × Nat × Nat) :
    staleAtSender x d s = failTask t 0x1401 s 0 d.1 d.2.1 d.2.2 := by
  simp [staleAtSender, h]

theorem staleAtSender_of_no_task {x : Transfer} {s : State} (h : transferTask s x = none) (d : Nat × Nat × Nat) :
    staleAtSender x d s = report (transferRecord x 0x1401 d.1 d.2.1 d.2.2 s) s := by
  simp [staleAtSender, h]

/-! ### R33 -/

/-- A message whose epoch is the bench's own: its bytes stand in the bench's scratch, every other byte of scratch is as it was, and
beyond scratch only the count of its arrival differs. -/
theorem unitMessage_writes_whole {m : UnitMsg} {s : State} {n : Nat} (harrives : MessageArrives m s)
    (hfate : unitFate s m.target m.epoch = .taken n) (hadmit : unitRefusal s (messageOrigin m s) false = none) :
    memRead (unitMessage m s).scratch (n * scratchSize + m.offset) m.data.length = m.data ∧
    (∀ a, a < n * scratchSize + m.offset ∨ n * scratchSize + m.offset + m.data.length ≤ a →
      memGet (unitMessage m s).scratch a = memGet s.scratch a) ∧
    unitMessage m s = countArrival 255 m.data.length false { s with scratch := (unitMessage m s).scratch } := by
  rw [unitMessage_of_taken harrives hfate hadmit]
  refine ⟨?_, fun a ha => ?_, takeMessage_eq_countArrival n m.offset m.data s⟩
  · rw [takeMessage_scratch, memRead_memWrite]
  · rw [takeMessage_scratch, memGet_memWrite_of_out _ _ _ ha]

/-- Settles O14: by the fate of the message. A taken one is `takeMessage`, whose only write to scratch is the message's own; a stale one
reaches its sender by `noticeTo` or `staleAtSender`, which tells the sending task or, where there is none, writes the record. -/
theorem unitMessageChecksEpoch : Obligations.UnitMessageChecksEpoch := by
  unfold Obligations.UnitMessageChecksEpoch
  intro m n s hservice hlength hfits hbench hpart own sender d
  have harrives : MessageArrives m s := ⟨hservice, hlength, hfits⟩
  constructor
  · intro heq hadmit
    obtain ⟨hread, hrest, hcount⟩ := unitMessage_writes_whole harrives (unitFate_taken hbench hpart heq) hadmit
    exact ⟨_, exec_unitMessage m s, hread, hrest, fun _ => hcount⟩
  · intro hne
    have hfate : unitFate s m.target m.epoch = .stale n := unitFate_stale hbench hne
    refine ⟨fun hforeign => ?_, fun h pa hown htask hhart => ?_, fun r q t0 hown htask hfind hphase => ?_⟩
    · refine ⟨noticeTo m.origin d s, ?_, rfl, rfl⟩
      rw [exec_unitMessage, unitMessage_of_stale_foreign harrives hfate hforeign]
    · rw [exec_unitMessage, unitMessage_of_stale_own harrives hfate hown,
        staleAtSender_of_no_task (transferTask_messageSender_of_no_task s htask), transferRecord_messageSender_of_hart s htask hhart]
    · rw [exec_unitMessage, unitMessage_of_stale_own harrives hfate hown,
        staleAtSender_of_task (transferTask_messageSender_of_task htask hfind hphase)]

end Sys2Proof.Machine
end

