-- ==== Sys2Proof/Proofs/FullQueue.lean ====
section
/-!
PROOFS. The record queue with 1,024 records unread (R453): a record is counted as lost; the scope action of a fatal error, records of
tasks and rings that it ends included, leaves the queue and the handling as they are; an advance of ERR_READ tells the loss first.
-/

namespace Sys2Proof.Machine

/-! ### A record while 1,024 are unread (R453, R454) -/

theorem not_queueFull {b : ErrBlock} (h : b.written < b.read + 1024) : queueFull b = false := by
  have hunread : ¬ 1024 ≤ unreadOf b := by unfold unreadOf; omega
  exact decide_eq_false hunread

/-- The error block with one more record of a class counted as lost. -/
def ErrBlock.countLost (cls : ErrClass) (b : ErrBlock) : ErrBlock :=
  { b with lostTotal := min (b.lostTotal + 1) (2 ^ 32 - 1), lost := b.lost.bump cls }

theorem queueRecord_of_full {b : ErrBlock} (hfull : queueFull b = true) (e : ErrRecord) : queueRecord e b = b.countLost e.cls := by
  simp [queueRecord, hfull, ErrBlock.countLost, satAdd]

theorem queueRecord_of_room {b : ErrBlock} (hroom : queueFull b = false) (e : ErrRecord) : queueRecord e b =
    { b with queue := b.queue.set {} (b.written % 1024) { e with nested := nestedFlag b e }, written := b.written + 1 } := by
  simp [queueRecord, hroom]

/-- What R454 remembers of records of this one's CODE and SOURCE. -/
def suppressionOf (e : ErrRecord) (b : ErrBlock) : Suppression :=
  (b.suppressed.find? (Suppression.isOf e)).getD ⟨e.code, e.source, [], 0⟩

/-- How many of these the last 1 ms has seen written. -/
def recentWritten (now : Nat) (e : ErrRecord) (b : ErrBlock) : Nat :=
  ((suppressionOf e b).written.filter fun t => decide (now < t + 1000000)).length

/-- A CORRECTED record that finds the queue full is suppressed or counted as lost. -/
theorem queueCorrected_of_full {b : ErrBlock} (hfull : queueFull b = true) (now : Nat) (e : ErrRecord) :
    (16 ≤ recentWritten now e b ∧ ∃ xs, queueCorrected now e b = { b with suppressed := xs }) ∨
      (recentWritten now e b < 16 ∧ queueCorrected now e b = b.countLost e.cls) := by
  unfold queueCorrected
  by_cases h : 16 ≤ recentWritten now e b
  · exact .inl ⟨h, _, if_pos h⟩
  · refine .inr ⟨by omega, (if_neg h).trans ?_⟩
    simp [hfull, queueRecord_of_full]

/-- A record that R454 does not suppress is counted as lost. -/
theorem pushRecord_counts_lost {b : ErrBlock} (hfull : queueFull b = true) (now : Nat) (e : ErrRecord)
    (h : e.cls ≠ .corrected ∨ recentWritten now e b < 16) : pushRecord now e b = b.countLost e.cls := by
  cases hcls : e.cls with
  | corrected =>
    have hfew : recentWritten now e b < 16 := h.resolve_left (not_not_intro hcls)
    obtain ⟨hmany, _⟩ | ⟨_, heq⟩ := queueCorrected_of_full hfull now e
    · omega
    · simp [pushRecord, hcls, heq]
  | info | failure | fatal => simp [pushRecord, hcls, queueRecord_of_full hfull]

/-- What a record cannot change while the queue is full: the error block but for the counts of what was lost, the memory of R454 and a
firing that waits for its record. -/
def ErrBlock.standing (b : ErrBlock) : ErrBlock := { b with lostTotal := 0, lost := {}, suppressed := [], firing := none }

@[simp] theorem standing_fenced (b : ErrBlock) : b.standing.fenced = b.fenced := rfl

theorem queueFull_of_standing {b c : ErrBlock} (h : b.standing = c.standing) (hfull : queueFull c = true) : queueFull b = true :=
  (congrArg queueFull h : _).trans hfull

/-- Blocks that differ in nothing else have the same fatal handling and have written as many records. -/
theorem handling_of_standing {b c : ErrBlock} (h : b.standing = c.standing) :
    b.fatalActive = c.fatalActive ∧ b.fatalCode = c.fatalCode ∧ b.fatalScope = c.fatalScope ∧ b.written = c.written :=
  ⟨(congrArg ErrBlock.fatalActive h : _), (congrArg ErrBlock.fatalCode h : _), (congrArg ErrBlock.fatalScope h : _),
    (congrArg ErrBlock.written h : _)⟩

theorem pushRecord_standing {b : ErrBlock} (hfull : queueFull b = true) (now : Nat) (e : ErrRecord) :
    (pushRecord now e b).standing = b.standing := by
  cases hcls : e.cls with
  | corrected =>
    obtain ⟨_, xs, heq⟩ | ⟨_, heq⟩ := queueCorrected_of_full hfull now e <;> simp only [pushRecord, hcls, heq] <;> rfl
  | info | failure | fatal => simp only [pushRecord, hcls, queueRecord_of_full hfull]; rfl

/-! ### What a delivered record leaves -/

/-- A record as it is pushed: its class, its time, and INJECTED after a firing of its point (R447, R465). -/
def stamped (cls : ErrClass) (e : ErrRecord) (s : State) : ErrRecord :=
  { e with
    cls := cls, time := BitVec.ofNat 64 s.fabric.time, timeUnsync := timeUnsyncFlag s.fabric
    injected := e.injected || s.err.firing == some e.code }

/-- A record uses up a firing of its point (R465). -/
def ErrBlock.clearFiring (fired : Bool) (b : ErrBlock) : ErrBlock := if fired then { b with firing := none } else b

@[simp] theorem clearFiring_written (fired : Bool) (b : ErrBlock) : (b.clearFiring fired).written = b.written := by cases fired <;> rfl
@[simp] theorem clearFiring_read (fired : Bool) (b : ErrBlock) : (b.clearFiring fired).read = b.read := by cases fired <;> rfl
@[simp] theorem clearFiring_lost (fired : Bool) (b : ErrBlock) : (b.clearFiring fired).lost = b.lost := by cases fired <;> rfl
@[simp] theorem clearFiring_queue (fired : Bool) (b : ErrBlock) : (b.clearFiring fired).queue = b.queue := by cases fired <;> rfl
@[simp] theorem clearFiring_standing (fired : Bool) (b : ErrBlock) : (b.clearFiring fired).standing = b.standing := by cases fired <;> rfl

/-- The error block that a delivered record leaves, but for the row of it on port 71. -/
def recorded (cls : ErrClass) (e : ErrRecord) (s : State) : ErrBlock :=
  (pushRecord s.now (stamped cls e s) s.err).clearFiring (s.err.firing == some e.code)

/-- `reportAs` by these parts. -/
theorem reportAs_eq (cls : ErrClass) (e : ErrRecord) (s : State) : reportAs cls e s =
    if undelivered s e then s
    else sendMaint (if (recorded cls e s).written = s.err.written then []
      else [maintRow 0 (recordBytes (recordAt (recorded cls e s) s.err.written))]) { s with err := recorded cls e s } := rfl

theorem recorded_standing {s : State} (hfull : queueFull s.err = true) (cls : ErrClass) (e : ErrRecord) :
    (recorded cls e s).standing = s.err.standing := by
  rw [recorded, clearFiring_standing, pushRecord_standing hfull]

/-- A delivered record that finds the queue full changes the error block alone: port 71 has no row to send. -/
theorem reportAs_of_full {s : State} {e : ErrRecord} (hfull : queueFull s.err = true) (h : undelivered s e = false) (cls : ErrClass) :
    reportAs cls e s = { s with err := recorded cls e s } := by
  obtain ⟨-, -, -, hw⟩ := handling_of_standing (recorded_standing hfull cls e)
  simp [reportAs_eq, h, hw, sendMaint]

theorem reportAs_standing {s : State} (hfull : queueFull s.err = true) (cls : ErrClass) (e : ErrRecord) :
    (reportAs cls e s).err.standing = s.err.standing := by
  cases h : undelivered s e with
  | true => simp [reportAs_eq, h]
  | false => rw [reportAs_of_full hfull h]; exact recorded_standing hfull cls e

/-- Of the error block, frames of port 71 change only the rows it has sent (R473). -/
theorem sendMaint_err (rows : List (List Byte)) (s : State) :
    ∃ sent, (sendMaint rows s).err = { s.err with maintRows := sent } := by
  unfold sendMaint
  split
  · exact ⟨_, rfl⟩
  · exact ⟨_, rfl⟩

/-- Of the ports, they change only port 71 (R473). -/
theorem sendMaint_onlyRecords (rows : List (List Byte)) (s : State) : OnlyRecords s (sendMaint rows s) := by
  unfold sendMaint
  split
  · refine ⟨rfl, fun q hq => ?_⟩
    show (s.fabric.ports.update {} 71 _).get {} q = _
    rw [Table.get_update, if_neg hq]
  · exact ⟨rfl, fun _ _ => rfl⟩

theorem reportAs_onlyRecords (cls : ErrClass) (e : ErrRecord) (s : State) : OnlyRecords s (reportAs cls e s) := by
  rw [reportAs_eq]
  split
  · exact ⟨rfl, fun _ _ => rfl⟩
  · exact (sendMaint_onlyRecords _ { s with err := recorded cls e s } : _)

/-- A delivered record of a class other than CORRECTED that finds room takes the next place in the queue (R452). -/
theorem reportAs_of_room {s : State} {e : ErrRecord} {cls : ErrClass} (hroom : queueFull s.err = false) (h : undelivered s e = false)
    (hcls : cls ≠ .corrected) :
    (reportAs cls e s).err.written = s.err.written + 1 ∧ (reportAs cls e s).err.read = s.err.read ∧
      (reportAs cls e s).err.lost = s.err.lost ∧
      recordAt (reportAs cls e s).err s.err.written = { stamped cls e s with nested := nestedFlag s.err (stamped cls e s) } := by
  have hpush : pushRecord s.now (stamped cls e s) s.err = queueRecord (stamped cls e s) s.err := by
    cases cls with
    | corrected => exact absurd rfl hcls
    | info | failure | fatal => rfl
  rw [reportAs_eq, h, if_neg Bool.false_ne_true]
  obtain ⟨sent, hsent⟩ := sendMaint_err _ { s with err := recorded cls e s }
  rw [hsent]
  simp [recorded, hpush, queueRecord_of_room hroom, recordAt, Table.get_set_self]

/-- A module-level record of a class other than CORRECTED is delivered, so where it finds room it is written. -/
theorem reportModule_of_room {s : State} {code : W16} (hroom : queueFull s.err = false) (hcls : classOf code ≠ .corrected)
    (addr d0 d1 d2 context : Nat) :
    let t := reportModule code s addr d0 d1 d2 context
    OnlyRecords s t ∧ t.err.written = s.err.written + 1 ∧ t.err.read = s.err.read ∧ t.err.lost = s.err.lost ∧
      (recordAt t.err s.err.written).code = code ∧ (recordAt t.err s.err.written).detail0 = BitVec.ofNat 64 d0 := by
  intro t
  obtain ⟨hwritten, hread, hlost, hrecord⟩ := reportAs_of_room hroom (undelivered_module s
    { code := code, source := srcModule s, address := BitVec.ofNat 64 addr, detail0 := BitVec.ofNat 64 d0,
      detail1 := BitVec.ofNat 64 d1, detail2 := BitVec.ofNat 32 d2, context := BitVec.ofNat 16 context } rfl) hcls
  exact ⟨reportAs_onlyRecords _ _ s, hwritten, hread, hlost, congrArg ErrRecord.code hrecord, congrArg ErrRecord.detail0 hrecord⟩

/-! ### The loss told (R453) -/

/-- DETAIL0 of 0x9301: how many records of each class were lost, each count saturating (R449). -/
def lostDetail (l : LostCounts) : Nat :=
  min l.info 0xFFFF + min l.corrected 0xFFFF * 2 ^ 16 + min l.failure 0xFFFF * 2 ^ 32 + min l.fatal 0xFFFF * 2 ^ 48

/-- An advance of ERR_READ while records are counted as lost: 0x9301 is written, with no loss in force any more. -/
theorem errReadWrite_of_loss {v : W64} {s : State} (hread : s.err.read < v.toNat) (hwritten : v.toNat ≤ s.err.written)
    (hlost : s.err.lost.none = false) :
    errReadWrite v s = reportModule 0x9301 { s with err := { s.err with read := v.toNat, lost := {} } } 0 (lostDetail s.err.lost) := by
  simp [errReadWrite, hread, hwritten, tellLost, updErr, hlost, lostField, lostDetail, Nat.shiftLeft_eq]

theorem errReadWrite_tells_loss {v : W64} {s : State} (hbounded : QueueBounded s) (hread : s.err.read < v.toNat)
    (hwritten : v.toNat ≤ s.err.written) (hlost : s.err.lost.none = false) :
    let t := errReadWrite v s
    OnlyRecords s t ∧ t.err.read = v.toNat ∧ t.err.lost = {} ∧ t.err.written = s.err.written + 1 ∧
      (recordAt t.err s.err.written).code = 0x9301 ∧
      (recordAt t.err s.err.written).detail0 = BitVec.ofNat 64 (lostDetail s.err.lost) := by
  intro t
  have hroom : queueFull { s.err with read := v.toNat, lost := {} } = false := not_queueFull (by
    obtain ⟨_, hle⟩ := hbounded
    show s.err.written < v.toNat + 1024
    omega)
  have hcls : classOf 0x9301 ≠ .corrected := by decide
  obtain ⟨honly, hw, hr, hl, hcode, hdetail⟩ := reportModule_of_room
    (s := { s with err := { s.err with read := v.toNat, lost := {} } }) hroom hcls 0 (lostDetail s.err.lost) 0 0 0
  simp only [t, errReadWrite_of_loss hread hwritten hlost]
  exact ⟨honly, hr, hl, hw, hcode, hdetail⟩

/-! ### What the end of a task by a reset keeps -/

/-- What the scope action of a fatal error goes by: the standing error block and the roles. -/
def kept (s : State) : ErrBlock × Table RoleEntry := (s.err.standing, s.roles)

theorem kept_of_eq {s t : State} (herr : t.err = s.err) (hroles : t.roles = s.roles) : kept t = kept s := by
  rw [kept, kept, herr, hroles]

theorem standing_of_kept {s t : State} (h : kept t = kept s) : t.err.standing = s.err.standing := congrArg Prod.fst h

theorem roles_of_kept {s t : State} (h : kept t = kept s) : t.roles = s.roles := congrArg Prod.snd h

theorem queueFull_of_kept {s t : State} (h : kept t = kept s) (hfull : queueFull s.err = true) : queueFull t.err = true :=
  queueFull_of_standing (standing_of_kept h) hfull

/-- While the queue is full a record is not written. -/
theorem kept_report {s : State} (hfull : queueFull s.err = true) (e : ErrRecord) : kept (report e s) = kept s := by
  simp [kept, report, reportAs_standing hfull]

@[simp] theorem kept_updTask (r seq : Nat) (f : Task → Task) (s : State) : kept (updTask r seq f s) = kept s := rfl
@[simp] theorem kept_updRing (r : Nat) (f : Ring → Ring) (s : State) : kept (updRing r f s) = kept s := rfl
@[simp] theorem kept_updGroup (g : Nat) (f : SpecGroup → SpecGroup) (s : State) : kept (updGroup g f s) = kept s := rfl
@[simp] theorem kept_updBenchState (n : Nat) (f : Bench → Bench) (s : State) : kept (updBenchState n f s) = kept s := rfl
@[simp] theorem kept_noteClocks (s : State) : kept (noteClocks s) = kept s := rfl
@[simp] theorem kept_forgetWaits (r seq : Nat) (s : State) : kept (forgetWaits r seq s) = kept s := rfl
@[simp] theorem kept_dropHolds (g : Nat) (s : State) : kept (dropHolds g s) = kept s := rfl
@[simp] theorem kept_closeGroup (g : Nat) (s : State) : kept (closeGroup g s) = kept s := rfl
@[simp] theorem kept_discardLeaving (p : Task → Bool) (s : State) : kept (discardLeaving p s) = kept s := rfl
@[simp] theorem kept_drawFree (s : State) : kept (drawFree s).2 = kept s := rfl

/-- A fold of operations that keep this, each where the queue is full. -/
theorem kept_foldl {α : Type} {f : State → α → State} (hf : ∀ s x, queueFull s.err = true → kept (f s x) = kept s) (l : List α)
    {s : State} (hfull : queueFull s.err = true) : kept (l.foldl f s) = kept s :=
  List.foldlRecOn (motive := fun t => kept t = kept s) _ _ rfl fun t ht x _ => (hf t x (queueFull_of_kept ht hfull)).trans ht

@[simp] theorem kept_homeStore (key : HomeKey) (pa : Nat) (bs : List Byte) (s : State) : kept (homeStore key pa bs s) = kept s := by
  cases key <;> rfl

@[simp] theorem kept_plainWrite (pa : Nat) (bs : List Byte) (s : State) : kept (plainWrite pa bs s) = kept s :=
  List.foldlRecOn (motive := fun t => kept t = kept s) _ _ rfl fun t ht _ _ => (kept_homeStore _ _ _ t).trans ht

@[simp] theorem kept_spoilBytes (ts : List Task) (scatAdds : List (Nat × Nat × Nat)) (a : Nat) (bs : List Byte) (s : State) :
    kept (spoilBytes ts scatAdds a bs s).2 = kept s := by
  induction bs generalizing a s with
  | nil => rfl
  | cons b bs ih =>
    unfold spoilBytes
    split
    · exact (ih (a + 1) (drawFree s).2).trans (kept_drawFree s)
    · exact ih (a + 1) s

@[simp] theorem kept_outsideWrite (q : Requester) (pa : Nat) (bs : List Byte) (s : State) :
    kept (outsideWrite q pa bs s).2 = kept s := by
  unfold outsideWrite
  split
  · rfl
  · exact kept_spoilBytes ..

@[simp] theorem kept_signalAbort (q : Requester) (pa : Nat) (s : State) : kept (signalAbort q pa s) = kept s := by
  unfold signalAbort signalBy
  split
  · rfl
  · simp

@[simp] theorem kept_abortSignal (t : Task) (s : State) : kept (abortSignal t s) = kept s := by
  unfold abortSignal
  split
  · split
    · exact kept_signalAbort ..
    · rfl
  · rfl

@[simp] theorem kept_takeVector (n : Nat) (s : State) : kept (takeVector n s) = kept s := by
  simp only [takeVector]
  split
  · rfl
  · split <;> rfl

@[simp] theorem kept_settleGrant (n : Nat) (s : State) : kept (settleGrant n s) = kept s := by
  unfold settleGrant
  extract_lets
  split
  · exact kept_of_eq rfl rfl
  · split <;> exact kept_of_eq rfl rfl

@[simp] theorem kept_settleBenchOf (t : Task) (s : State) : kept (settleBenchOf t s) = kept s := by
  unfold settleBenchOf
  split
  · simp
  · rfl

@[simp] theorem kept_freeGroup (g : Nat) (s : State) : kept (freeGroup g s) = kept s := by
  simp only [freeGroup]
  split
  · split <;> simp
  · split
    · split <;> simp
    · rfl
  · rfl
  · rfl

/-- The failure of a task of no group keeps the standing error block while the queue is full: its record is not written. -/
theorem kept_failTask {t : Task} (hmember : t.member = false) (code : W16) {s : State} (hfull : queueFull s.err = true) :
    kept (failTask t code s) = kept s := by
  have hreport : ∀ e u, kept u = kept s → kept (report e u) = kept s := fun e u hu =>
    (kept_report (queueFull_of_kept hu hfull) e).trans hu
  simp only [failTask, hmember, Bool.false_eq_true, if_false, kept_settleBenchOf, kept_abortSignal]
  refine hreport _ _ ?_
  simp only [kept_updRing, kept_updTask, kept_forgetWaits, kept_noteClocks]
  split
  · exact kept_updBenchState ..
  · rfl

/-- So does the end of a task by a reset, which squashes no group (R95, R257). -/
theorem kept_resetEndsTask (t : Task) (code : W16) {s : State} (hfull : queueFull s.err = true) :
    kept (resetEndsTask t code s) = kept s := by
  simp only [resetEndsTask, kept_freeGroup]
  generalize hs1 : updTask _ _ _ _ = s1
  have hkept : kept s1 = kept s := by
    rw [← hs1, kept_updTask]
    split <;> simp
  exact (kept_failTask rfl code (queueFull_of_kept hkept hfull)).trans hkept

/-! ### Quarantine (R29, R32, R92) -/

/-- Who takes a role stands by in a grove that is not fenced (R29, R458). -/
theorem standbyFor_spec {s : State} {n m : Nat} (h : standbyFor s n = some m) :
    (roleOf s m).state = .standby ∧ s.err.fenced.contains (benchGrove m) = false := by
  rcases (Option.orElse_eq_some _ _ _).mp h with h | ⟨_, h⟩
  · have hfits := List.find?_some h
    simp only [Bool.and_eq_true, decide_eq_true_eq, Bool.not_eq_true', groveIneligible, Bool.or_eq_false_iff] at hfits
    obtain ⟨⟨⟨hstate, _⟩, _, hfree⟩, _⟩ := hfits
    exact ⟨hstate, hfree⟩
  · have hfits := List.find?_some h
    simp only [Bool.and_eq_true, decide_eq_true_eq, Bool.not_eq_true', groveIneligible, Bool.or_eq_false_iff] at hfits
    obtain ⟨⟨hstate, _⟩, _, hfree⟩ := hfits
    exact ⟨hstate, hfree⟩

theorem roleOf_updRole (n k : Nat) (f : RoleEntry → RoleEntry) (s : State) :
    roleOf (updRole n f s) k = if k = n then f (roleOf s n) else roleOf s k := Table.get_update ..

theorem roleOf_dueAdvance_state (n k : Nat) (s : State) : (roleOf (dueAdvance n s) k).state = (roleOf s k).state := by
  rw [dueAdvance, roleOf_updRole]
  split
  · next h => rw [h]
  · rfl

theorem roleOf_dueAdvance_ne {n k : Nat} (h : k ≠ n) (s : State) : roleOf (dueAdvance n s) k = roleOf s k := by
  rw [dueAdvance, roleOf_updRole, if_neg h]

/-- A bench that neither gives nor takes the role keeps its entry. -/
theorem roleOf_handRole_ne {n k : Nat} {taker : Option Nat} (hn : k ≠ n) (htaker : taker ≠ some k) (role : Option Nat) (s : State) :
    roleOf (handRole n role taker s) k = roleOf s k := by
  cases taker with
  | none => simp [handRole, roleOf_dueAdvance_ne hn, roleOf_updRole, hn]
  | some m =>
    have hm : k ≠ m := fun h => htaker (h ▸ rfl)
    simp [handRole, roleOf_dueAdvance_ne hn, roleOf_dueAdvance_ne hm, roleOf_updRole, hn, hm]

/-- The taker of a role is active. -/
theorem roleOf_handRole_taker (n m : Nat) (role : Option Nat) (s : State) :
    (roleOf (handRole n role (some m) s) m).state = .active := by
  simp [handRole, roleOf_dueAdvance_state, roleOf_updRole]

@[simp] theorem handRole_err (n : Nat) (role taker : Option Nat) (s : State) : (handRole n role taker s).err = s.err := by
  cases taker <;> rfl

theorem roles_handRole_congr {s t : State} (h : t.roles = s.roles) (n : Nat) (role taker : Option Nat) :
    (handRole n role taker t).roles = (handRole n role taker s).roles := by
  cases taker <;> simp [handRole, dueAdvance, updRole, h]

/-- A quarantine while the queue is full: its tasks' records are lost, and its role goes to a bench that stands by in a grove not fenced,
or to none. -/
theorem quarantineCore_of_full {s : State} (hfull : queueFull s.err = true) (n : Nat) :
    ∃ taker, (∀ m, taker = some m → (roleOf s m).state = .standby ∧ s.err.fenced.contains (benchGrove m) = false) ∧
      (quarantineCore n s).err.standing = s.err.standing ∧
      (quarantineCore n s).roles = (handRole n (roleOf s n).role taker s).roles := by
  let s1 := (runningOn s n).foldl (fun s t => resetEndsTask t 0x120F s) (discardLeaving (fun t => t.bench == some n) s)
  have hs1 : kept s1 = kept s := kept_foldl (fun _ t h => kept_resetEndsTask t _ h) _ (queueFull_of_kept (kept_discardLeaving _ s) hfull)
  have hstanding : s1.err.standing = s.err.standing := standing_of_kept hs1
  have hroles : s1.roles = s.roles := roles_of_kept hs1
  refine ⟨if (roleOf s n).role.isSome then standbyFor s1 n else none, fun m hm => ?_, ?_, ?_⟩
  · obtain ⟨hstate, hfree⟩ := standbyFor_spec (Option.ite_none_right_eq_some.mp hm).2
    refine ⟨by simpa [roleOf, hroles] using hstate, ?_⟩
    rwa [← standing_fenced, ← hstanding, standing_fenced]
  · exact (congrArg ErrBlock.standing (handRole_err n _ _ s1)).trans hstanding
  · exact roles_handRole_congr hroles ..

/-- Every bench still to be quarantined has an advance of its unit generation left, and so has every bench outside its grove that
stands by (R32). -/
def AdvancesLeft (g : Nat) (ns : List Nat) (s : State) : Prop :=
  (∀ n ∈ ns, genExhausted s n = false) ∧ ∀ m, benchGrove m ≠ g → (roleOf s m).state = .standby → genExhausted s m = false

theorem genExhausted_congr {s t : State} {n : Nat} (h : roleOf t n = roleOf s n) : genExhausted t n = genExhausted s n := by
  simp only [genExhausted, h]

/-- A quarantine uses up advances of its bench, which is not quarantined twice, and of the taker, which stands by no longer. -/
theorem advancesLeft_quarantineCore {g n : Nat} {ns : List Nat} {s : State} (hfull : queueFull s.err = true)
    (hfenced : s.err.fenced.contains g = true) (hn : benchGrove n = g) (hns : ∀ k ∈ ns, benchGrove k = g) (hnew : n ∉ ns)
    (hleft : AdvancesLeft g (n :: ns) s) : AdvancesLeft g ns (quarantineCore n s) := by
  obtain ⟨hown, hothers⟩ := hleft
  obtain ⟨taker, htaker, -, hroles⟩ := quarantineCore_of_full hfull n
  have hrole (k : Nat) : roleOf (quarantineCore n s) k = roleOf (handRole n (roleOf s n).role taker s) k := by
    simp only [roleOf, hroles]
  refine ⟨fun k hk => ?_, fun m hm hstandby => ?_⟩
  · have hkn : k ≠ n := fun h => hnew (h ▸ hk)
    have hkt : taker ≠ some k := fun h => by
      obtain ⟨-, hfree⟩ := htaker k h
      rw [hns k hk, hfenced] at hfree
      exact Bool.noConfusion hfree
    rw [genExhausted_congr ((hrole k).trans (roleOf_handRole_ne hkn hkt _ s))]
    exact hown k (List.mem_cons_of_mem _ hk)
  · have hmn : m ≠ n := fun h => hm (h ▸ hn)
    have hmt : taker ≠ some m := fun h => by
      subst h
      rw [hrole, roleOf_handRole_taker] at hstandby
      exact absurd hstandby (by decide)
    have hkeep := (hrole m).trans (roleOf_handRole_ne hmn hmt _ s)
    rw [genExhausted_congr hkeep]
    exact hothers m hm (hkeep ▸ hstandby)

theorem quarantineExhausts_of_advancesLeft {g n : Nat} {ns : List Nat} {s : State} (hfenced : s.err.fenced.contains g = true)
    (hleft : AdvancesLeft g (n :: ns) s) : quarantineExhausts s n = false := by
  obtain ⟨hown, hothers⟩ := hleft
  simp only [quarantineExhausts, hown n List.mem_cons_self, Bool.false_or, Bool.and_eq_false_iff]
  right
  split
  · next m hm =>
    obtain ⟨hstate, hfree⟩ := standbyFor_spec hm
    refine hothers m (fun h => ?_) hstate
    rw [h, hfenced] at hfree
    exact Bool.noConfusion hfree
  · rfl

/-- Benches of a fenced grove are all quarantined while the queue is full, where the advances suffice. -/
theorem quarantineEach_of_full {g : Nat} {ns : List Nat} (hnodup : ns.Nodup) (hns : ∀ n ∈ ns, benchGrove n = g) {s : State}
    (hfull : queueFull s.err = true) (hfenced : s.err.fenced.contains g = true) (hleft : AdvancesLeft g ns s) :
    ∃ t, quarantineEach ns s = some t ∧ t.err.standing = s.err.standing := by
  induction ns generalizing s with
  | nil => exact ⟨s, rfl, rfl⟩
  | cons n ns ih =>
    obtain ⟨hnew, hnodup'⟩ := List.nodup_cons.mp hnodup
    have hns' : ∀ k ∈ ns, benchGrove k = g := fun k hk => hns k (List.mem_cons_of_mem _ hk)
    obtain ⟨-, -, hstanding, -⟩ := quarantineCore_of_full hfull n
    have hfull' : queueFull (quarantineCore n s).err = true := queueFull_of_standing hstanding hfull
    have hfenced' : (quarantineCore n s).err.fenced.contains g = true := by
      rw [← standing_fenced, hstanding, standing_fenced, hfenced]
    obtain ⟨t, ht, hts⟩ := ih hnodup' hns' hfull' hfenced'
      (advancesLeft_quarantineCore hfull hfenced (hns n List.mem_cons_self) hns' hnew hleft)
    refine ⟨t, ?_, hts.trans hstanding⟩
    rw [quarantineEach, quarantineExhausts_of_advancesLeft hfenced hleft, if_neg Bool.false_ne_true, ht]

theorem grovesBenches_nodup (g : Nat) : (grovesBenches g).Nodup :=
  List.nodup_range.map (add_left_injective _)

theorem benchGrove_of_mem_grovesBenches {g n : Nat} (h : n ∈ grovesBenches g) : benchGrove n = g := by
  simp only [grovesBenches, List.mem_map, List.mem_range] at h
  obtain ⟨i, hi, rfl⟩ := h
  simp only [benchGrove]
  omega

/-! ### The scope action while the queue is full (R453, R458) -/

theorem quarantineAll_standing {g : Nat} {s : State} (hfull : queueFull s.err = true) (hfenced : s.err.fenced.contains g = true)
    (hgen : ∀ n, genExhausted s n = false) (cause : W16) :
    (quarantineAll g (grovesBenches g) cause s).err.standing = s.err.standing := by
  unfold quarantineAll
  dsimp only
  split
  · split <;> rfl
  · unfold quarantineNow
    dsimp only
    split
    · rfl
    · obtain ⟨t, ht, hts⟩ := quarantineEach_of_full (ns := (grovesBenches g).filter fun n => decide ((roleOf s n).state ≠ .quarantined))
        ((grovesBenches_nodup g).filter _) (fun n hn => benchGrove_of_mem_grovesBenches (List.mem_of_mem_filter hn)) hfull hfenced
        ⟨fun n _ => hgen n, fun m _ _ => hgen m⟩
      rw [ht]
      exact (reportAs_standing (queueFull_of_standing hts hfull) _ _).trans hts

theorem kept_failRing (r : Nat) (code : W16) {s : State} (hfull : queueFull s.err = true) : kept (failRing r code s) = kept s :=
  (kept_report (queueFull_of_kept (by simp) hfull) _).trans (by simp)

theorem fenceRings_standing (g : Nat) {s : State} (hfull : queueFull s.err = true) :
    (fenceRings g s).err.standing = s.err.standing := by
  have hkept : kept (fenceRings g s) = kept s := by
    unfold fenceRings
    refine kept_foldl (fun u r hu => ?_) _ hfull
    split
    · exact kept_failRing r _ hu
    · rfl
  exact standing_of_kept hkept

/-- The fence of a grove adds it to the fenced ones and writes no record. -/
theorem fenceGrove_standing (g : Nat) (code : W16) {s : State} (hfull : queueFull s.err = true) (hgen : ∀ n, genExhausted s n = false) :
    (fenceGrove g code s).err.standing = { s.err with fenced := s.err.fenced ++ [g] }.standing := by
  have hquar := quarantineAll_standing (s := { s with err := { s.err with fenced := s.err.fenced ++ [g] } }) (g := g)
    hfull (by simp) hgen code
  exact (fenceRings_standing g (queueFull_of_standing hquar hfull)).trans hquar

/-- The module-scope action with no task issued. -/
theorem stopModule_err {s : State} (hidle : s.tasks.all (fun t => !t.running) = true) :
    (stopModule s).err = { s.err with moduleStopped := true } := by
  have hnone : s.tasks.filter Task.running = [] := by
    simpa [List.filter_eq_nil_iff] using hidle
  simp [stopModule, hnone]

/-- Whatever its scope, the action of a fatal error leaves the handling begun and the queue as they are, the queue being full. -/
theorem scopeAction_of_full (scope : FatalScope) (code : W16) {s : State} (hfull : queueFull s.err = true)
    (hgen : ∀ n, genExhausted s n = false) (hidle : scope = .module → s.tasks.all (fun t => !t.running) = true) :
    let t := scopeAction scope code s
    t.err.fatalActive = s.err.fatalActive ∧ t.err.fatalCode = s.err.fatalCode ∧ t.err.fatalScope = s.err.fatalScope ∧
      t.err.written = s.err.written := by
  cases scope with
  | none => exact ⟨rfl, rfl, rfl, rfl⟩
  | grove g =>
    simp only [scopeAction]
    obtain ⟨hactive, hcode, hscope, hwritten⟩ := handling_of_standing (fenceGrove_standing g code hfull hgen)
    exact ⟨hactive, hcode, hscope, hwritten⟩
  | portDie d => exact ⟨rfl, rfl, rfl, rfl⟩
  | module => simp [scopeAction, stopModule_err (hidle rfl)]

theorem raiseFatal_of_full (scope : FatalScope) (e : ErrRecord) {s : State} (hfull : queueFull s.err = true)
    (hactive : s.err.fatalActive = false) (hgen : ∀ n, genExhausted s n = false)
    (hidle : scope = .module → s.tasks.all (fun t => !t.running) = true) :
    let t := raiseFatal scope e s
    t.err.fatalActive = true ∧ t.err.fatalCode = e.code ∧ t.err.fatalScope = scope ∧ t.err.written = s.err.written := by
  have hstanding := reportAs_standing hfull .fatal e
  obtain ⟨-, -, -, hwritten⟩ := handling_of_standing hstanding
  have hfull' : queueFull (reportAs .fatal e s).err = true := queueFull_of_standing hstanding hfull
  have hgen' (n : Nat) : genExhausted (reportAs .fatal e s) n = false :=
    (genExhausted_congr (congrArg (fun t => t.get {} n) (reportAs_roles .fatal e s))).trans (hgen n)
  simp only [raiseFatal, hactive, Bool.false_eq_true, if_false]
  obtain ⟨ha, hc, hs, hw⟩ := scopeAction_of_full scope e.code
    (s := { reportAs .fatal e s with err := { (reportAs .fatal e s).err with
      fatalActive := true, fatalCode := e.code, fatalScope := scope
      fatalRecord := if queueFull s.err then none else some s.err.written, fatalTime := BitVec.ofNat 64 s.fabric.time } })
    hfull' hgen' (by simpa using hidle)
  exact ⟨ha, hc, hs, hw.trans hwritten⟩

/-! ### R453 -/

/-- The record is counted in LOST and in its class. -/
theorem report_of_full {e : ErrRecord} {s : State} (hfull : queueFull s.err = true) (hdelivered : undelivered s e = false)
    (hcounted : classOf e.code ≠ .corrected ∨ recentWritten s.now e s.err < 16) :
    report e s = { s with err := { s.err with
      firing := if s.err.firing = some e.code then none else s.err.firing
      lostTotal := min (s.err.lostTotal + 1) (2 ^ 32 - 1), lost := s.err.lost.bump (classOf e.code) } } := by
  have hpush : pushRecord s.now (stamped (classOf e.code) e s) s.err = s.err.countLost (classOf e.code) :=
    pushRecord_counts_lost hfull s.now _ hcounted
  rw [report, reportAs_of_full hfull hdelivered, recorded, hpush]
  by_cases hfired : s.err.firing = some e.code
  · simp [hfired, ErrBlock.clearFiring, ErrBlock.countLost]
  · simp [hfired, ErrBlock.clearFiring, ErrBlock.countLost]

/-- Settles O6: what a record meets in a full queue (`report_of_full`); that the scope action of a fatal error keeps the queue and the
handling begun, for every scope (`raiseFatal_of_full`); and 0x9301 (`errReadWrite_tells_loss`). -/
theorem fullQueueCountsLost : Obligations.FullQueueCountsLost := by
  unfold Obligations.FullQueueCountsLost
  exact ⟨fun e s hfull hdelivered hcounted => report_of_full hfull hdelivered hcounted,
    fun scope e s hfull hactive hgen hidle => raiseFatal_of_full scope e hfull hactive hgen hidle,
    fun v s hbounded hread hwritten hlost => ⟨errReadWrite v s, rfl, errReadWrite_tells_loss hbounded hread hwritten hlost⟩⟩

end Sys2Proof.Machine
end

