-- ==== Sys2Proof/Proofs/Steps.lean ====
section
/-!
PROOFS. The step of the block: what it takes from the queue, what it does on an empty one, that it keeps a state sound, and that the
state after reset is one.
-/

namespace Sys2Proof.Machine

/-! ### What one step runs -/

/-- Settles O1: both sides are the arm of `step` for a queue that is not empty. -/
theorem stepRunsFrontCommand : Obligations.StepRunsFrontCommand := by
  unfold Obligations.StepRunsFrontCommand
  intro c rest s
  rfl

theorem step_of_empty {s : State} (h : s.pending = []) : step s = .next (tick s) := by
  simp only [step, h]

theorem fabricTick_of_stopped {f : FabricBlock} (h : f.counting = false) (now : Nat) : fabricTick now f = f := by
  simp [fabricTick, h]

theorem fabricTick_of_counting {f : FabricBlock} (h : f.counting = true) (hslew : f.slew = 0) (now : Nat) :
    fabricTick now f = { f with time := (f.time + 1) % 2 ^ 64 } := by
  simp [fabricTick, h, hslew, wrapAdd]

/-- Settles O2: the step is `tick`, which counts the clock and lets the Genpex block count its own. -/
theorem emptyQueueIsOneNanosecond : Obligations.EmptyQueueIsOneNanosecond := by
  unfold Obligations.EmptyQueueIsOneNanosecond
  intro s hempty
  refine ⟨tick s, step_of_empty hempty, rfl, fun hstopped => ?_, fun hcounting hslew => ?_⟩
  · exact fabricTick_of_stopped hstopped s.now
  · exact fabricTick_of_counting hcounting hslew s.now

/-! ### Soundness -/

/-- Memory with no byte listed reads zero. -/
theorem memGet_empty (a : Nat) : memGet {} a = 0 := rfl

/-- Settles O3: the reset state lists no memory and no record. -/
theorem resetIsSound : Obligations.ResetIsSound := by
  unfold Obligations.ResetIsSound
  have hcanonical : MemoryCanonical State.reset := ⟨Table.wf_empty unlistedByte, Table.wf_empty unlistedByte⟩
  have hbounded : QueueBounded State.reset := ⟨Nat.le_refl 0, Nat.zero_le 1024⟩
  exact ⟨⟨hcanonical, hbounded, rfl⟩, rfl, rfl, rfl, rfl, rfl, rfl, memGet_empty⟩

/-- Every command keeps a state sound: one lemma of Laws/Sound for each. -/
theorem exec_sound {p : Part} (i : Instr) (s : State) (hs : Sound p s) : SoundAnswer p (exec i s) := by
  cases i with
  | coldStart inp => exact execColdStart_sound inp s hs
  | portTrainTimeout => exact execPortTrainTimeout_sound s hs
  | moduleResetNRecognised => exact execModuleResetNRecognised_sound s hs
  | warmResetResume inp => exact execWarmResetResume_sound inp s hs
  | inputBrownOut mv => exact execInputBrownOut_sound mv s hs
  | brownOutRestart inp => exact execBrownOutRestart_sound inp s hs
  | powerLoss => exact execPowerLoss_sound s hs
  | groveResetRequest g => exact execGroveResetRequest_sound g s hs
  | groveResetComplete g bad => exact execGroveResetComplete_sound g bad s hs
  | benchQuarantine g b => exact execBenchQuarantine_sound g b s hs
  | epochAdvance n => exact execEpochAdvance_sound n s hs
  | unitMessage m => exact execUnitMessage_sound m s hs
  | staleEpochNotice n => exact execStaleEpochNotice_sound n s hs
  | stageOpen src slot => exact execStageOpen_sound src slot s hs
  | stageWrite src offset data => exact execStageWrite_sound src offset data s hs
  | stageVerify src => exact execStageVerify_sound src s hs
  | stageSelect src => exact execStageSelect_sound src s hs
  | stageAbort src => exact execStageAbort_sound src s hs
  | imageConfirm src => exact execImageConfirm_sound src s hs
  | startRecordRead src n => exact execStartRecordRead_sound src n s hs
  | ringDoorbell r v => exact execRingDoorbell_sound r v s hs
  | ringEnable r => exact execRingEnable_sound r s hs
  | ringPause r => exact execRingPause_sound r s hs
  | ringResume r => exact execRingResume_sound r s hs
  | ringReset r => exact execRingReset_sound r s hs
  | benchReport r n => exact execBenchReport_sound r n s hs
  | failureAcknowledge r => exact execFailureAcknowledge_sound r s hs
  | taskStage r => exact execTaskStage_sound r s hs
  | counterChangeObserved pa => exact execCounterChangeObserved_sound pa s hs
  | fenceTimeout o => exact execFenceTimeout_sound o s hs
  | matmul r seq => exact execMatmul_sound r seq s hs
  | semiring r seq => exact execSemiring_sound r seq s hs
  | vector r seq => exact execVector_sound r seq s hs
  | fenceWait r seq => exact execFenceWait_sound r seq s hs
  | fenceSignal r seq => exact execFenceSignal_sound r seq s hs
  | enqueue r seq => exact execEnqueue_sound r seq s hs
  | enqueueAppend r seq => exact execEnqueueAppend_sound r seq s hs
  | barrier r seq => exact execBarrier_sound r seq s hs
  | barrierComplete r seq => exact execBarrierComplete_sound r seq s hs
  | taskComplete r seq => exact execTaskComplete_sound r seq s hs
  | passStart n => exact execPassStart_sound n s hs
  | tileDrain n => exact execTileDrain_sound n s hs
  | tileBoundary n => exact execTileBoundary_sound n s hs
  | arrayParityError n code => exact execArrayParityError_sound n code s hs
  | dresserEntryStart n => exact execDresserEntryStart_sound n s hs
  | skidEntryFree n => exact execSkidEntryFree_sound n s hs
  | dresserParityError n => exact execDresserParityError_sound n s hs
  | skidEntryError n corrected => exact execSkidEntryError_sound n corrected s hs
  | nop n => exact execNop_sound n s hs
  | load n => exact execLoad_sound n s hs
  | loadskid n => exact execLoadskid_sound n s hs
  | store n => exact execStore_sound n s hs
  | sload n => exact execSload_sound n s hs
  | sstore n => exact execSstore_sound n s hs
  | gather n => exact execGather_sound n s hs
  | scatter n => exact execScatter_sound n s hs
  | scatadd n => exact execScatadd_sound n s hs
  | mov n => exact execMov_sound n s hs
  | iota n => exact execIota_sound n s hs
  | select n => exact execSelect_sound n s hs
  | add n => exact execAdd_sound n s hs
  | sub n => exact execSub_sound n s hs
  | mul n => exact execMul_sound n s hs
  | fma n => exact execFma_sound n s hs
  | min n => exact execMin_sound n s hs
  | max n => exact execMax_sound n s hs
  | abs n => exact execAbs_sound n s hs
  | neg n => exact execNeg_sound n s hs
  | clamp n => exact execClamp_sound n s hs
  | rcp n => exact execRcp_sound n s hs
  | sqrt n => exact execSqrt_sound n s hs
  | rsqrt n => exact execRsqrt_sound n s hs
  | exp n => exact execExp_sound n s hs
  | log n => exact execLog_sound n s hs
  | tanh n => exact execTanh_sound n s hs
  | sigmoid n => exact execSigmoid_sound n s hs
  | silu n => exact execSilu_sound n s hs
  | gelu n => exact execGelu_sound n s hs
  | relu n => exact execRelu_sound n s hs
  | rope n => exact execRope_sound n s hs
  | div n => exact execDiv_sound n s hs
  | cmp n => exact execCmp_sound n s hs
  | mand n => exact execMand_sound n s hs
  | mor n => exact execMor_sound n s hs
  | mnot n => exact execMnot_sound n s hs
  | iadd n => exact execIadd_sound n s hs
  | isub n => exact execIsub_sound n s hs
  | imul n => exact execImul_sound n s hs
  | imin n => exact execImin_sound n s hs
  | imax n => exact execImax_sound n s hs
  | ishr n => exact execIshr_sound n s hs
  | cvti n => exact execCvti_sound n s hs
  | cvtf n => exact execCvtf_sound n s hs
  | rsum n => exact execRsum_sound n s hs
  | rmax n => exact execRmax_sound n s hs
  | rmin n => exact execRmin_sound n s hs
  | topkClear n => exact execTopkClear_sound n s hs
  | topk n => exact execTopk_sound n s hs
  | topkEmit n => exact execTopkEmit_sound n s hs
  | deckEnable g v => exact execDeckEnable_sound g v s hs
  | deckZeroingDone g => exact execDeckZeroingDone_sound g s hs
  | deckCreate r seq => exact execDeckCreate_sound r seq s hs
  | deckExtendProvisional r seq => exact execDeckExtendProvisional_sound r seq s hs
  | deckExtendCommitted r seq => exact execDeckExtendCommitted_sound r seq s hs
  | deckWrite r seq => exact execDeckWrite_sound r seq s hs
  | deckRead r seq => exact execDeckRead_sound r seq s hs
  | deckCommit r seq => exact execDeckCommit_sound r seq s hs
  | deckRollback r seq => exact execDeckRollback_sound r seq s hs
  | deckFork r seq => exact execDeckFork_sound r seq s hs
  | deckRelease r seq => exact execDeckRelease_sound r seq s hs
  | deckQuery r seq => exact execDeckQuery_sound r seq s hs
  | deckScrubDone g slot => exact execDeckScrubDone_sound g slot s hs
  | deckTruncation handle group => exact execDeckTruncation_sound handle group s hs
  | deckRelabel handle group => exact execDeckRelabel_sound handle group s hs
  | copy r seq => exact execCopy_sound r seq s hs
  | fill r seq => exact execFill_sound r seq s hs
  | prefetch r seq => exact execPrefetch_sound r seq s hs
  | evict r seq => exact execEvict_sound r seq s hs
  | flashWrite r seq => exact execFlashWrite_sound r seq s hs
  | migration offset => exact execMigration_sound offset s hs
  | migrationComplete ashlar => exact execMigrationComplete_sound ashlar s hs
  | correctedError pa => exact execCorrectedError_sound pa s hs
  | uncorrectableRead pa => exact execUncorrectableRead_sound pa s hs
  | replicaFetchArrival ashlar data => exact execReplicaFetchArrival_sound ashlar data s hs
  | replicaTimeout ashlar => exact execReplicaTimeout_sound ashlar s hs
  | tierEnable v => exact execTierEnable_sound v s hs
  | objectValidate o v => exact execObjectValidate_sound o v s hs
  | objectDrain o v => exact execObjectDrain_sound o v s hs
  | objectDrainDone o => exact execObjectDrainDone_sound o s hs
  | tierStatusRead => exact execTierStatusRead_sound s hs
  | stackTempReport device temp => exact execStackTempReport_sound device temp s hs
  | pageWalkDone r seq => exact execPageWalkDone_sound r seq s hs
  | batchTimerClose => exact execBatchTimerClose_sound s hs
  | flush => exact execFlush_sound s hs
  | tuFbDone v => exact execTuFbDone_sound v s hs
  | batchAnswerTimeout slot => exact execBatchAnswerTimeout_sound slot s hs
  | tuCtxEnable v => exact execTuCtxEnable_sound v s hs
  | tuFbEnable v => exact execTuFbEnable_sound v s hs
  | tuInval v => exact execTuInval_sound v s hs
  | invalidationDrainDone => exact execInvalidationDrainDone_sound s hs
  | assign v => exact execAssign_sound v s hs
  | release v => exact execRelease_sound v s hs
  | revokeSeal v => exact execRevokeSeal_sound v s hs
  | stakeReleaseDone => exact execStakeReleaseDone_sound s hs
  | sealContext session context key => exact execSealContext_sound session context key s hs
  | sealStakes session context addr count => exact execSealStakes_sound session context addr count s hs
  | setExport session context addr count on => exact execSetExport_sound session context addr count on s hs
  | unsealContext session context => exact execUnsealContext_sound session context s hs
  | installCordKey session cord epoch key sigR sigS => exact execInstallCordKey_sound session cord epoch key sigR sigS s hs
  | activateCordKey session cord epoch => exact execActivateCordKey_sound session cord epoch s hs
  | eraseCordKey session cord epoch => exact execEraseCordKey_sound session cord epoch s hs
  | opcacheInval g v => exact execOpcacheInval_sound g v s hs
  | opcacheInvalDone g => exact execOpcacheInvalDone_sound g s hs
  | hartLoad h mode addr size fetch x => exact execHartLoad_sound h mode addr size fetch x s hs
  | hartStore h mode addr size v x => exact execHartStore_sound h mode addr size v x s hs
  | hartAtomic h mode op addr size a b rl x => exact execHartAtomic_sound h mode op addr size a b rl x s hs
  | combinedStoreSend h codeword => exact execCombinedStoreSend_sound h codeword s hs
  | loadBarrier h => exact execLoadBarrier_sound h s hs
  | storeBarrier h => exact execStoreBarrier_sound h s hs
  | fullBarrier h => exact execFullBarrier_sound h s hs
  | deferredStoreFault h x => exact execDeferredStoreFault_sound h x s hs
  | postedWriteCheckFail addr context code => exact execPostedWriteCheckFail_sound addr context code s hs
  | accFaultAccess h mode a x => exact execAccFaultAccess_sound h mode a x s hs
  | imsicMsi addr v => exact execImsicMsi_sound addr v s hs
  | aplicSourceChange source => exact execAplicSourceChange_sound source s hs
  | pcieInbound p q => exact execPcieInbound_sound p q s hs
  | pcieLinkChange p width rate aer => exact execPcieLinkChange_sound p width rate aer s hs
  | mailboxGo v => exact execMailboxGo_sound v s hs
  | mgmtResponse => exact execMgmtResponse_sound s hs
  | mgmtHeartbeat => exact execMgmtHeartbeat_sound s hs
  | mctpControl pec message => exact execMctpControl_sound pec message s hs
  | getIdentity src => exact execGetIdentity_sound src s hs
  | getStatus src => exact execGetStatus_sound src s hs
  | readRegister src addr => exact execReadRegister_sound src addr s hs
  | writeRegister src addr v => exact execWriteRegister_sound src addr v s hs
  | readErrorRecords src count => exact execReadErrorRecords_sound src count s hs
  | moduleReset src => exact execModuleReset_sound src s hs
  | retrain src kind port => exact execRetrain_sound src kind port s hs
  | inject src slot ctl locator => exact execInject_sound src slot ctl locator s hs
  | mgmtLongOpDone => exact execMgmtLongOpDone_sound s hs
  | getVersion => exact execGetVersion_sound s hs
  | getCapabilities => exact execGetCapabilities_sound s hs
  | negotiateAlgorithms => exact execNegotiateAlgorithms_sound s hs
  | getDigests => exact execGetDigests_sound s hs
  | getCertificate slot offset length => exact execGetCertificate_sound slot offset length s hs
  | challenge slot nonce => exact execChallenge_sound slot nonce s hs
  | getMeasurements session index signed => exact execGetMeasurements_sound session index signed s hs
  | keyExchange requester => exact execKeyExchange_sound requester s hs
  | finish session verifies => exact execFinish_sound session verifies s hs
  | heartbeat session => exact execHeartbeat_sound session s hs
  | keyUpdate session => exact execKeyUpdate_sound session s hs
  | endSession session => exact execEndSession_sound session s hs
  | vendorDefinedRequest session standard vendor opcode payload => exact execVendorDefinedRequest_sound session standard vendor opcode payload s hs
  | kerfFlitReceive edge bundle dirB number good offered => exact execKerfFlitReceive_sound edge bundle dirB number good offered s hs
  | kerfReplay edge bundle dirB => exact execKerfReplay_sound edge bundle dirB s hs
  | kerfLaneCheck edge bundle dirB bad => exact execKerfLaneCheck_sound edge bundle dirB bad s hs
  | pausedRepairDone edge bundle badA badB => exact execPausedRepairDone_sound edge bundle badA badB s hs
  | kerfRetrainDone edge bundle badA badB => exact execKerfRetrainDone_sound edge bundle badA badB s hs
  | kerfClockLoss edge bundle dirB => exact execKerfClockLoss_sound edge bundle dirB s hs
  | siteTempReport site temp => exact execSiteTempReport_sound site temp s hs
  | siteReportTimeout site => exact execSiteReportTimeout_sound site s hs
  | siteMainbandFailure site recovered modules lanes rate => exact execSiteMainbandFailure_sound site recovered modules lanes rate s hs
  | siteWindowAccess site h offset write answer => exact execSiteWindowAccess_sound site h offset write answer s hs
  | siteWindowTimeout site => exact execSiteWindowTimeout_sound site s hs
  | linkSetup port peer => exact execLinkSetup_sound port peer s hs
  | portReceiveTimeout port => exact execPortReceiveTimeout_sound port s hs
  | portRetrainTimer port => exact execPortRetrainTimer_sound port s hs
  | frameKeepalive port => exact execFrameKeepalive_sound port s hs
  | dataFrameReceive port f => exact execDataFrameReceive_sound port f s hs
  | frameReplay port fromFrame => exact execFrameReplay_sound port fromFrame s hs
  | timeExchange x => exact execTimeExchange_sound x s hs
  | holdoverExpire => exact execHoldoverExpire_sound s hs
  | rootSyncTimeout => exact execRootSyncTimeout_sound s hs
  | selfNotice module gen arrival => exact execSelfNotice_sound module gen arrival s hs
  | linkNotice module port arrival => exact execLinkNotice_sound module port arrival s hs
  | transferHandover id => exact execTransferHandover_sound id s hs
  | offerSend id => exact execOfferSend_sound id s hs
  | offerReceive o => exact execOfferReceive_sound o s hs
  | offerAnswer id code => exact execOfferAnswer_sound id code s hs
  | offerForfeit id => exact execOfferForfeit_sound id s hs
  | slotStart => exact execSlotStart_sound s hs
  | bestEffortAck id code => exact execBestEffortAck_sound id code s hs
  | bestEffortResend id => exact execBestEffortResend_sound id s hs
  | remoteReadRequest q => exact execRemoteReadRequest_sound q s hs
  | remoteAtomicRequest q op a b => exact execRemoteAtomicRequest_sound q op a b s hs
  | remoteReply id code v => exact execRemoteReply_sound id code v s hs
  | remoteLoadTimeout id => exact execRemoteLoadTimeout_sound id s hs
  | windowEnable w v => exact execWindowEnable_sound w v s hs
  | windowDrain w v => exact execWindowDrain_sound w v s hs
  | windowDrainDone w => exact execWindowDrainDone_sound w s hs
  | arm => exact execArm_sound s hs
  | cancel => exact execCancel_sound s hs
  | slotTableSwitch => exact execSlotTableSwitch_sound s hs
  | grantRequest n => exact execGrantRequest_sound n s hs
  | grant g => exact execGrant_sound g s hs
  | staggeredStart g => exact execStaggeredStart_sound g s hs
  | poolRefill g => exact execPoolRefill_sound g s hs
  | topUpRequest n => exact execTopUpRequest_sound n s hs
  | reclaimReview used => exact execReclaimReview_sound used s hs
  | budgetUpdate => exact execBudgetUpdate_sound s hs
  | episodeTimeout => exact execEpisodeTimeout_sound s hs
  | estimateSample p => exact execEstimateSample_sound p s hs
  | measuredControlStep => exact execMeasuredControlStep_sound s hs
  | measuredPowerMissing => exact execMeasuredPowerMissing_sound s hs
  | pllSleep g => exact execPllSleep_sound g s hs
  | pllRelockDone g => exact execPllRelockDone_sound g s hs
  | droop g => exact execDroop_sound g s hs
  | droopRecover g => exact execDroopRecover_sound g s hs
  | droopStartHoldoffEnd g => exact execDroopStartHoldoffEnd_sound g s hs
  | tempSample x temp => exact execTempSample_sound x temp s hs
  | groveCapUpdate => exact execGroveCapUpdate_sound s hs
  | sensorTimeout x => exact execSensorTimeout_sound x s hs
  | thermNRelease => exact execThermNRelease_sound s hs
  | inputLowLimit mv => exact execInputLowLimit_sound mv s hs
  | inputLowLimitEnd mv => exact execInputLowLimitEnd_sound mv s hs
  | powerBrake => exact execPowerBrake_sound s hs
  | powerBrakeRelease => exact execPowerBrakeRelease_sound s hs
  | marginSample g ps => exact execMarginSample_sound g ps s hs
  | boomCtlWrite v => exact execBoomCtlWrite_sound v s hs
  | errRead v => exact execErrRead_sound v s hs
  | ack => exact execAck_sound s hs
  | tallyStateError g => exact execTallyStateError_sound g s hs
  | opcacheLineError g line => exact execOpcacheLineError_sound g line s hs
  | systemCacheLineError pa => exact execSystemCacheLineError_sound pa s hs
  | landingStateError => exact execLandingStateError_sound s hs
  | injectionArm slot v => exact execInjectionArm_sound slot v s hs
  | injectionDisarm slot => exact execInjectionDisarm_sound slot s hs
  | go v => exact execGo_sound v s hs
  | abort => exact execAbort_sound s hs
  | diagScanDone fails first => exact execDiagScanDone_sound fails first s hs
  | scalerArm ch v => exact execScalerArm_sound ch v s hs
  | scalerAbort ch => exact execScalerAbort_sound ch s hs
  | scalerCaptureStart ch => exact execScalerCaptureStart_sound ch s hs
  | scalerSample ch v => exact execScalerSample_sound ch v s hs
  | scalerCaptureStop ch => exact execScalerCaptureStop_sound ch s hs
  | registerWrite addr v => exact execRegisterWrite_sound addr v s hs
  | slotTableLoad => exact execSlotTableLoad_sound s hs
  | slotTableLoadDone => exact execSlotTableLoadDone_sound s hs
  | stakeAssignDone => exact execStakeAssignDone_sound s hs

/-- A step keeps a state sound, on an empty queue too. -/
theorem step_sound {p : Part} (s : State) (h : Sound p s) : SoundAnswer p (step s) := by
  unfold step
  split
  · exact soundAnswer_next (tick_sound s h)
  · exact exec_sound _ _ h

/-- Settles O4: `Sound` is kept by every command, as it is by the passing of time. -/
theorem stepKeepsSound : Obligations.StepKeepsSound := by
  unfold Obligations.StepKeepsSound
  intro p s t hs hstep
  have h := step_sound s hs
  rwa [hstep] at h

end Sys2Proof.Machine
end

