-- ==== Sys2Proof/Proofs/Records.lean ====
section
/-!
PROOFS. Error records with room in the queue (R449–R457): what one leaves of the error block and of port 71; the limit on CORRECTED
records; ERR_READ and ACK; the escalation of Tally state errors (R461).
-/

namespace Sys2Proof.Machine

/-! ### The fields of the error block that no record touches -/

/-- What of the error block no record touches: all but the queue and its counts, what was lost or suppressed, a firing that waits for its
record, and the rows that port 71 has sent. -/
def ErrBlock.beyondRecords (b : ErrBlock) : ErrBlock :=
  { b with queue := {}, written := 0, lostTotal := 0, lost := {}, suppressed := [], firing := none, maintRows := [] }

theorem queueRecord_beyondRecords (e : ErrRecord) (b : ErrBlock) : (queueRecord e b).beyondRecords = b.beyondRecords := by
  unfold queueRecord
  split <;> rfl

theorem queueCorrected_beyondRecords (now : Nat) (e : ErrRecord) (b : ErrBlock) :
    (queueCorrected now e b).beyondRecords = b.beyondRecords := by
  unfold queueCorrected
  dsimp only
  split
  · rfl
  · split <;> exact queueRecord_beyondRecords _ _

theorem pushRecord_beyondRecords (now : Nat) (e : ErrRecord) (b : ErrBlock) : (pushRecord now e b).beyondRecords = b.beyondRecords := by
  unfold pushRecord
  split
  · exact queueCorrected_beyondRecords now e b
  · exact queueRecord_beyondRecords e b

theorem clearFiring_beyondRecords (fired : Bool) (b : ErrBlock) : (b.clearFiring fired).beyondRecords = b.beyondRecords := by
  cases fired <;> rfl

theorem sendMaint_beyondRecords (rows : List (List Byte)) (s : State) :
    (sendMaint rows s).err.beyondRecords = s.err.beyondRecords := by
  obtain ⟨sent, h⟩ := sendMaint_err rows s
  rw [h]
  rfl

theorem reportAs_beyondRecords (cls : ErrClass) (e : ErrRecord) (s : State) :
    (reportAs cls e s).err.beyondRecords = s.err.beyondRecords := by
  rw [reportAs_eq]
  split
  · rfl
  · rw [sendMaint_beyondRecords]
    exact (clearFiring_beyondRecords _ _).trans (pushRecord_beyondRecords _ _ _)

theorem report_beyondRecords (e : ErrRecord) (s : State) : (report e s).err.beyondRecords = s.err.beyondRecords :=
  reportAs_beyondRecords _ e s

@[simp] theorem report_err_read (e : ErrRecord) (s : State) : (report e s).err.read = s.err.read :=
  (congrArg ErrBlock.read (report_beyondRecords e s) : _)
@[simp] theorem report_err_fenced (e : ErrRecord) (s : State) : (report e s).err.fenced = s.err.fenced :=
  (congrArg ErrBlock.fenced (report_beyondRecords e s) : _)
@[simp] theorem report_err_groveResets (e : ErrRecord) (s : State) : (report e s).err.groveResets = s.err.groveResets :=
  (congrArg ErrBlock.groveResets (report_beyondRecords e s) : _)
@[simp] theorem report_err_inj (e : ErrRecord) (s : State) : (report e s).err.inj = s.err.inj :=
  (congrArg ErrBlock.inj (report_beyondRecords e s) : _)
@[simp] theorem report_err_fatalActive (e : ErrRecord) (s : State) : (report e s).err.fatalActive = s.err.fatalActive :=
  (congrArg ErrBlock.fatalActive (report_beyondRecords e s) : _)

/-! ### Port 71 -/

theorem sendMaint_of_down {s : State} (h : maintUp s = false) (rows : List (List Byte)) : sendMaint rows s = s := by
  simp [sendMaint, h]

theorem sendMaint_of_up {s : State} (h : maintUp s = true) {rows : List (List Byte)} (hrows : rows ≠ []) :
    sendMaint rows s = countFrames rows.length 71 { s with err := { s.err with maintRows := s.err.maintRows ++ rows } } := by
  simp [sendMaint, h, hrows]

theorem countFrames_sent (n p : Nat) (s : State) :
    ((countFrames n p s).fabric.ports.get {} p).sent = (s.fabric.ports.get {} p).sent + n := by
  simp [countFrames, Table.get_update]

@[simp] theorem countFrames_err (n p : Nat) (s : State) : (countFrames n p s).err = s.err := rfl

/-! ### A record that finds room (R452, R465, R473) -/

theorem report_of_undelivered {s : State} {e : ErrRecord} (h : undelivered s e = true) : report e s = s := by
  simp [report, reportAs_eq, h]

theorem pushRecord_of_not_corrected {e : ErrRecord} (h : e.cls ≠ .corrected) (now : Nat) (b : ErrBlock) :
    pushRecord now e b = queueRecord e b := by
  cases hcls : e.cls with
  | corrected => exact absurd hcls h
  | info | failure | fatal => simp [pushRecord, hcls]

/-- While fewer than 1,024 records are unread, the next place of the queue is none of theirs. -/
theorem queue_place_free {read n written : Nat} (hread : read ≤ n) (hn : n < written) (hroom : written < read + 1024) :
    n % 1024 ≠ written % 1024 := by
  omega

theorem written_lt_of_room {b : ErrBlock} (hroom : queueFull b = false) : b.written < b.read + 1024 := by
  have h : ¬ 1024 ≤ b.written - b.read := of_decide_eq_false hroom
  omega

theorem queueRecord_keeps_unread {b : ErrBlock} (hroom : queueFull b = false) (e : ErrRecord) {n : Nat}
    (hread : b.read ≤ n) (hn : n < b.written) : recordAt (queueRecord e b) n = recordAt b n := by
  rw [queueRecord_of_room hroom]
  exact Table.get_set_ne _ _ _ (queue_place_free hread hn (written_lt_of_room hroom))

theorem recordAt_clearFiring (fired : Bool) (b : ErrBlock) (n : Nat) : recordAt (b.clearFiring fired) n = recordAt b n := by
  simp [recordAt]

/-- The error block that a record of any class but CORRECTED leaves. -/
theorem recorded_of_not_corrected {cls : ErrClass} (hcls : cls ≠ .corrected) (e : ErrRecord) (s : State) :
    recorded cls e s = (queueRecord (stamped cls e s) s.err).clearFiring (s.err.firing == some e.code) := by
  rw [recorded, pushRecord_of_not_corrected hcls]

theorem recorded_maintRows_of_room {s : State} (hroom : queueFull s.err = false) {cls : ErrClass} (hcls : cls ≠ .corrected)
    (e : ErrRecord) : (recorded cls e s).maintRows = s.err.maintRows := by
  rw [recorded_of_not_corrected hcls, queueRecord_of_room hroom]
  cases s.err.firing == some e.code <;> rfl

theorem recordAt_recorded_of_unread {s : State} (hroom : queueFull s.err = false) {cls : ErrClass} (hcls : cls ≠ .corrected)
    (e : ErrRecord) {n : Nat} (hread : s.err.read ≤ n) (hn : n < s.err.written) : recordAt (recorded cls e s) n = recordAt s.err n := by
  rw [recorded_of_not_corrected hcls, recordAt_clearFiring, queueRecord_keeps_unread hroom _ hread hn]

theorem recorded_written_of_room {s : State} (hroom : queueFull s.err = false) {cls : ErrClass} (hcls : cls ≠ .corrected) (e : ErrRecord) :
    (recorded cls e s).written = s.err.written + 1 := by
  simp [recorded_of_not_corrected hcls, queueRecord_of_room hroom]

/-- A record that is delivered and written is sent on port 71 as one row. -/
theorem report_sends_row {s : State} {e : ErrRecord} (hdelivered : undelivered s e = false)
    (hwritten : (recorded (classOf e.code) e s).written ≠ s.err.written) :
    report e s = sendMaint [maintRow 0 (recordBytes (recordAt (recorded (classOf e.code) e s) s.err.written))]
      { s with err := recorded (classOf e.code) e s } := by
  simp [report, reportAs_eq, hdelivered, hwritten]

/-- Of the queue, sending its rows changes nothing. -/
theorem recordAt_sendMaint (rows : List (List Byte)) (s : State) (n : Nat) : recordAt (sendMaint rows s).err n = recordAt s.err n := by
  obtain ⟨sent, h⟩ := sendMaint_err rows s
  rw [h]
  rfl

section Room

variable {s : State} {e : ErrRecord} (hroom : queueFull s.err = false) (hdelivered : undelivered s e = false)
  (hcls : classOf e.code ≠ .corrected)

include hroom hdelivered hcls

theorem report_sends_row_of_room :
    report e s = sendMaint [maintRow 0 (recordBytes (recordAt (recorded (classOf e.code) e s) s.err.written))]
      { s with err := recorded (classOf e.code) e s } :=
  report_sends_row hdelivered (by rw [recorded_written_of_room hroom hcls]; omega)

theorem recordAt_report_of_room (n : Nat) : recordAt (report e s).err n = recordAt (recorded (classOf e.code) e s) n := by
  rw [report_sends_row_of_room hroom hdelivered hcls, recordAt_sendMaint]

/-- With port 71 DOWN the record stays in the queue alone. -/
theorem report_of_room_of_down (hdown : maintUp s = false) :
    (report e s).fabric = s.fabric ∧ (report e s).err.maintRows = s.err.maintRows := by
  rw [report_sends_row_of_room hroom hdelivered hcls, sendMaint_of_down (s := { s with err := recorded _ e s }) hdown]
  exact ⟨rfl, recorded_maintRows_of_room hroom hcls e⟩

/-- With port 71 UP it goes out as one more row. -/
theorem report_of_room_of_up (hup : maintUp s = true) :
    ((report e s).fabric.ports.get {} 71).sent = (s.fabric.ports.get {} 71).sent + 1 ∧
      (report e s).err.maintRows = s.err.maintRows ++ [maintRow 0 (recordBytes (recordAt (report e s).err s.err.written))] := by
  rw [recordAt_report_of_room hroom hdelivered hcls, report_sends_row_of_room hroom hdelivered hcls, sendMaint_of_up (s := { s with err := recorded _ e s }) hup (by simp)]
  refine ⟨countFrames_sent _ _ _, ?_⟩
  simp [recorded_maintRows_of_room hroom hcls]

end Room

/-- A record that is written says what it was made with (R449). -/
theorem report_written_fields {s : State} {e : ErrRecord} (hroom : queueFull s.err = false) (hdelivered : undelivered s e = false)
    (hcls : classOf e.code ≠ .corrected) :
    let r := recordAt (report e s).err s.err.written
    r.code = e.code ∧ r.source = e.source ∧ r.address = e.address ∧ r.context = e.context ∧ r.ring = e.ring ∧ r.seq = e.seq ∧
      r.detail0 = e.detail0 ∧ r.detail1 = e.detail1 ∧ r.detail2 = e.detail2 ∧ r.cls = classOf e.code := by
  obtain ⟨-, -, -, hrecord⟩ := reportAs_of_room hroom hdelivered hcls
  rw [report, hrecord]
  exact ⟨rfl, rfl, rfl, rfl, rfl, rfl, rfl, rfl, rfl, rfl⟩

theorem report_written_of_room {s : State} {e : ErrRecord} (hroom : queueFull s.err = false) (hdelivered : undelivered s e = false)
    (hcls : classOf e.code ≠ .corrected) : (report e s).err.written = s.err.written + 1 :=
  (reportAs_of_room hroom hdelivered hcls).1

/-! ### ERR_READ and ACK (R455, R457) -/

theorem errReadWrite_of_advance {v : W64} {s : State} (hread : s.err.read < v.toNat) (hwritten : v.toNat ≤ s.err.written)
    (hlost : s.err.lost.none = true) : errReadWrite v s = { s with err := { s.err with read := v.toNat } } := by
  simp [errReadWrite, hread, hwritten, tellLost, hlost, updErr]

theorem errReadWrite_of_ignored {v : W64} {s : State} (h : v.toNat ≤ s.err.read ∨ s.err.written < v.toNat) : errReadWrite v s = s := by
  have hignored : ¬ (s.err.read < v.toNat ∧ v.toNat ≤ s.err.written) := by omega
  simp [errReadWrite, hignored]

theorem errAck_of_passed {s : State} (hactive : s.err.fatalActive = true) (hpassed : ∀ n, s.err.fatalRecord = some n → n < s.err.read) :
    errAck s = { s with err := { s.err with fatalActive := false, fatalRecord := none } } := by
  cases hrecord : s.err.fatalRecord with
  | none => simp [errAck, hactive, hrecord, updErr]
  | some n => simp [errAck, hactive, hrecord, updErr, hpassed n hrecord]

theorem errAck_of_unread {s : State} {n : Nat} (hrecord : s.err.fatalRecord = some n) (hunread : s.err.read ≤ n) : errAck s = s := by
  simp [errAck, hrecord, hunread]

/-- Settles O5: a record in a queue with room (`reportAs_of_room`, `recordAt_recorded_of_unread`, `report_of_room_of_up`), ERR_READ
(`errReadWrite_of_advance`, `errReadWrite_of_ignored`) and ACK (`errAck_of_passed`, `errAck_of_unread`). -/
theorem recordsQueueAndAreRead : Obligations.RecordsQueueAndAreRead := by
  unfold Obligations.RecordsQueueAndAreRead
  refine ⟨fun e s => ⟨report_of_undelivered, fun hdelivered _ hcls _ hroom => ?_⟩, fun v s hread hwritten hlost => ?_, fun v s h => ?_,
    fun s hactive hpassed => ?_, fun s n hrecord hunread => ?_⟩
  · obtain ⟨hwritten, hread, -, hrecord⟩ := reportAs_of_room hroom hdelivered hcls
    exact ⟨reportAs_onlyRecords _ e s, hwritten, hread, hrecord,
      fun n hn hlt => (recordAt_report_of_room hroom hdelivered hcls n).trans (recordAt_recorded_of_unread hroom hcls e hn hlt),
      report_of_room_of_down hroom hdelivered hcls, report_of_room_of_up hroom hdelivered hcls⟩
  · exact congrArg _ (errReadWrite_of_advance hread hwritten hlost)
  · exact congrArg _ (errReadWrite_of_ignored h)
  · exact congrArg _ (errAck_of_passed hactive hpassed)
  · exact congrArg _ (errAck_of_unread hrecord hunread)

/-! ### CORRECTED records (R454) -/

theorem suppressionOf_isOf (e : ErrRecord) (b : ErrBlock) : Suppression.isOf e (suppressionOf e b) = true := by
  unfold suppressionOf
  cases h : b.suppressed.find? (Suppression.isOf e) with
  | none => simp [Suppression.isOf]
  | some x => exact List.find?_some h

/-- What R454 remembers after a record of this CODE and SOURCE that it suppresses. -/
def ErrBlock.remember (now : Nat) (e : ErrRecord) (count : Nat) (b : ErrBlock) : ErrBlock :=
  { b with suppressed :=
    { suppressionOf e b with written := (suppressionOf e b).written.filter fun t => decide (now < t + 1000000), count := count } ::
      b.suppressed.filter fun x => !Suppression.isOf e x }

theorem queueCorrected_of_many {now : Nat} {e : ErrRecord} {b : ErrBlock} (hmany : 16 ≤ recentWritten now e b) :
    queueCorrected now e b = b.remember now e ((suppressionOf e b).count + 1) :=
  if_pos hmany

theorem suppressionOf_remember (now : Nat) (e : ErrRecord) (count : Nat) (b : ErrBlock) :
    ((b.remember now e count).suppressed.find? (Suppression.isOf e)).map (·.count) = some count := by
  have h : Suppression.isOf e { suppressionOf e b with
      written := (suppressionOf e b).written.filter fun t => decide (now < t + 1000000), count := count } = true :=
    suppressionOf_isOf e b
  simp [ErrBlock.remember, List.find?_cons_of_pos h]

/-- REPEATS of a CORRECTED record that is written: how many were suppressed since the last. -/
def repeatsOf (e : ErrRecord) (b : ErrBlock) : W32 := BitVec.ofNat 32 (min (suppressionOf e b).count (2 ^ 32 - 1))

theorem queueCorrected_of_few {now : Nat} {e : ErrRecord} {b : ErrBlock} (hfew : recentWritten now e b < 16)
    (hroom : queueFull b = false) :
    ∃ xs, queueCorrected now e b = queueRecord { e with repeats := repeatsOf e b } { b with suppressed := xs } := by
  have hnot : ¬ 16 ≤ recentWritten now e b := by omega
  have hnotFull : ¬ queueFull b = true := by simp [hroom]
  exact ⟨_, (if_neg hnot).trans (if_neg hnotFull)⟩

/-- The sixteenth of a millisecond is the last: the next is counted and not written. -/
theorem recorded_of_many {s : State} {e : ErrRecord} (hmany : 16 ≤ recentWritten s.now e s.err) :
    recorded .corrected e s = (s.err.remember s.now e ((suppressionOf e s.err).count + 1)).clearFiring (s.err.firing == some e.code) :=
  congrArg (ErrBlock.clearFiring _) (queueCorrected_of_many (e := stamped .corrected e s) hmany)

theorem report_of_corrected {s : State} {e : ErrRecord} (hcls : classOf e.code = .corrected) (hdelivered : undelivered s e = false) :
    report e s = sendMaint (if (recorded .corrected e s).written = s.err.written then []
      else [maintRow 0 (recordBytes (recordAt (recorded .corrected e s) s.err.written))]) { s with err := recorded .corrected e s } := by
  rw [report, reportAs_eq, hcls, hdelivered, if_neg Bool.false_ne_true]

theorem report_suppressed {s : State} {e : ErrRecord} (hcls : classOf e.code = .corrected) (hdelivered : undelivered s e = false)
    (hmany : 16 ≤ recentWritten s.now e s.err) : report e s = { s with err := recorded .corrected e s } := by
  have hwritten : (recorded .corrected e s).written = s.err.written := by rw [recorded_of_many hmany, clearFiring_written]; rfl
  simp [report_of_corrected hcls hdelivered, hwritten, sendMaint]

theorem recordAt_queueRecord_of_room {b : ErrBlock} (hroom : queueFull b = false) (e : ErrRecord) :
    recordAt (queueRecord e b) b.written = { e with nested := nestedFlag b e } := by
  rw [queueRecord_of_room hroom]
  exact Table.get_set_self ..

/-- With fewer, and room, it is written with REPEATS. -/
theorem report_corrected_of_room {s : State} {e : ErrRecord} (hcls : classOf e.code = .corrected) (hdelivered : undelivered s e = false)
    (hfew : recentWritten s.now e s.err < 16) (hroom : queueFull s.err = false) :
    (report e s).err.written = s.err.written + 1 ∧ (recordAt (report e s).err s.err.written).repeats = repeatsOf e s.err := by
  obtain ⟨xs, hpush⟩ := queueCorrected_of_few (e := stamped .corrected e s) hfew hroom
  have hrecorded : recorded .corrected e s =
      (queueRecord { stamped .corrected e s with repeats := repeatsOf e s.err } { s.err with suppressed := xs }).clearFiring
        (s.err.firing == some e.code) := congrArg (ErrBlock.clearFiring _) hpush
  have hroom' : queueFull { s.err with suppressed := xs } = false := hroom
  rw [report_of_corrected hcls hdelivered]
  refine ⟨?_, ?_⟩
  · obtain ⟨sent, hsent⟩ := sendMaint_err _ { s with err := recorded .corrected e s }
    rw [hsent]
    simp [hrecorded, queueRecord_of_room hroom']
  · rw [recordAt_sendMaint, hrecorded, recordAt_clearFiring]
    exact congrArg ErrRecord.repeats (recordAt_queueRecord_of_room hroom' _)

/-- Settles O7: the record is suppressed (`report_suppressed`) or written with REPEATS (`report_corrected_of_room`). -/
theorem correctedRecordsLimited : Obligations.CorrectedRecordsLimited := by
  unfold Obligations.CorrectedRecordsLimited
  intro e s _ hcls hdelivered x recent
  refine ⟨fun hmany => ?_, fun hfew hroom => report_corrected_of_room hcls hdelivered hfew hroom⟩
  rw [report_suppressed hcls hdelivered hmany, recorded_of_many hmany]
  refine ⟨clearFiring_written _ _, clearFiring_queue _ _, ?_⟩
  have hsuppressed (fired : Bool) (b : ErrBlock) : (b.clearFiring fired).suppressed = b.suppressed := by cases fired <;> rfl
  rw [hsuppressed]
  exact suppressionOf_remember ..

end Sys2Proof.Machine
end

