-- ==== Sys2Proof/Proofs/GroveResets.lean ====
section
/-!
PROOFS. Grove resets, quarantines and fences with room for records (R29, R91–R95, R458, R461): the error block beyond its records and the
roles outlive the end of tasks; a fence quarantines its grove where the unit generations suffice; what a grove reset clears.
-/

namespace Sys2Proof.Machine

/-! ### What the end of a task by a reset leaves -/

/-- What a quarantine or a fence goes by: the error block beyond its records, and the roles. -/
def lasting (s : State) : ErrBlock × Table RoleEntry := (s.err.beyondRecords, s.roles)

theorem lasting_of_kept {s t : State} (h : kept t = kept s) : lasting t = lasting s := by
  have herr : t.err.beyondRecords = s.err.beyondRecords := (congrArg ErrBlock.beyondRecords (standing_of_kept h) : _)
  rw [lasting, lasting, herr, roles_of_kept h]

theorem fenced_of_lasting {s t : State} (h : lasting t = lasting s) : t.err.fenced = s.err.fenced :=
  (congrArg (fun p => ErrBlock.fenced p.1) h : _)

theorem groveResets_of_lasting {s t : State} (h : lasting t = lasting s) : t.err.groveResets = s.err.groveResets :=
  (congrArg (fun p => ErrBlock.groveResets p.1) h : _)

theorem roles_of_lasting {s t : State} (h : lasting t = lasting s) : t.roles = s.roles := congrArg Prod.snd h

theorem roleOf_of_lasting {s t : State} (h : lasting t = lasting s) (n : Nat) : roleOf t n = roleOf s n := by
  rw [roleOf, roleOf, roles_of_lasting h]

@[simp] theorem lasting_report (e : ErrRecord) (s : State) : lasting (report e s) = lasting s := by
  simp [lasting, report_beyondRecords]

theorem lasting_foldl {α : Type} {f : State → α → State} (hf : ∀ s x, lasting (f s x) = lasting s) (l : List α) (s : State) :
    lasting (l.foldl f s) = lasting s :=
  List.foldlRecOn (motive := fun t => lasting t = lasting s) _ _ rfl fun t ht x _ => (hf t x).trans ht

/-- The failure of a task of no group changes neither. -/
theorem lasting_failTask {t : Task} (hmember : t.member = false) (code : W16) (s : State) :
    lasting (failTask t code s) = lasting s := by
  simp only [failTask, hmember, Bool.false_eq_true, if_false]
  rw [lasting_of_kept (kept_settleBenchOf _ _), lasting_of_kept (kept_abortSignal _ _), lasting_report]
  refine lasting_of_kept ?_
  simp only [kept_updRing, kept_updTask, kept_forgetWaits, kept_noteClocks]
  split
  · exact kept_updBenchState ..
  · rfl

theorem lasting_resetEndsTask (t : Task) (code : W16) (s : State) : lasting (resetEndsTask t code s) = lasting s := by
  simp only [resetEndsTask]
  rw [lasting_of_kept (kept_freeGroup _ _), lasting_failTask rfl]
  refine lasting_of_kept ?_
  rw [kept_updTask]
  split <;> simp

theorem lasting_failRing (r : Nat) (code : W16) (s : State) : lasting (failRing r code s) = lasting s :=
  (lasting_report _ _).trans (lasting_of_kept (by simp))

theorem lasting_fenceRings (g : Nat) (s : State) : lasting (fenceRings g s) = lasting s := by
  refine lasting_foldl (fun u r => ?_) _ s
  split
  · exact lasting_failRing r _ u
  · rfl

/-! ### Quarantines (R29, R92) -/

/-- The tasks of a bench ended, as a quarantine begins. -/
def quarantineEnds (n : Nat) (s : State) : State :=
  (runningOn s n).foldl (fun s t => resetEndsTask t 0x120F s) (discardLeaving (fun t => t.bench == some n) s)

theorem lasting_quarantineEnds (n : Nat) (s : State) : lasting (quarantineEnds n s) = lasting s :=
  (lasting_foldl (fun u t => lasting_resetEndsTask t _ u) _ _).trans (lasting_of_kept (kept_discardLeaving _ s))

/-- The bench that takes the role of a quarantined one. -/
def quarantineTaker (n : Nat) (s : State) : Option Nat :=
  if (roleOf s n).role.isSome then standbyFor (quarantineEnds n s) n else none

/-- Who takes a role stands by in a grove that is not fenced. -/
theorem quarantineTaker_spec {n m : Nat} {s : State} (h : quarantineTaker n s = some m) :
    (roleOf s m).state = .standby ∧ s.err.fenced.contains (benchGrove m) = false := by
  obtain ⟨hstate, hfree⟩ := standbyFor_spec (Option.ite_none_right_eq_some.mp h).2
  rw [roleOf_of_lasting (lasting_quarantineEnds n s)] at hstate
  rw [fenced_of_lasting (lasting_quarantineEnds n s)] at hfree
  exact ⟨hstate, hfree⟩

theorem quarantineCore_roles (n : Nat) (s : State) :
    (quarantineCore n s).roles = (handRole n (roleOf s n).role (quarantineTaker n s) s).roles :=
  roles_handRole_congr (roles_of_lasting (lasting_quarantineEnds n s)) ..

theorem roleOf_quarantineCore (n k : Nat) (s : State) :
    roleOf (quarantineCore n s) k = roleOf (handRole n (roleOf s n).role (quarantineTaker n s) s) k := by
  simp only [roleOf, quarantineCore_roles]

@[simp] theorem quarantineCore_fenced (n : Nat) (s : State) : (quarantineCore n s).err.fenced = s.err.fenced :=
  (congrArg ErrBlock.fenced (handRole_err n _ _ (quarantineEnds n s))).trans (fenced_of_lasting (lasting_quarantineEnds n s))

/-- A quarantine uses up advances of its bench, which is not quarantined twice, and of the taker, which stands by no longer. -/
theorem AdvancesLeft.quarantine {g n : Nat} {ns : List Nat} {s : State} (hleft : AdvancesLeft g (n :: ns) s)
    (hfenced : s.err.fenced.contains g = true) (hn : benchGrove n = g) (hns : ∀ k ∈ ns, benchGrove k = g) (hnew : n ∉ ns) :
    AdvancesLeft g ns (quarantineCore n s) := by
  obtain ⟨hown, hothers⟩ := hleft
  have hkeep {k : Nat} (hkn : k ≠ n) (hkt : quarantineTaker n s ≠ some k) : roleOf (quarantineCore n s) k = roleOf s k :=
    (roleOf_quarantineCore n k s).trans (roleOf_handRole_ne hkn hkt _ s)
  refine ⟨fun k hk => ?_, fun m hm hstandby => ?_⟩
  · have hkt : quarantineTaker n s ≠ some k := fun h => by
      obtain ⟨-, hfree⟩ := quarantineTaker_spec h
      rw [hns k hk, hfenced] at hfree
      exact Bool.noConfusion hfree
    rw [genExhausted_congr (hkeep (fun h => hnew (h ▸ hk)) hkt)]
    exact hown k (List.mem_cons_of_mem _ hk)
  · have hmt : quarantineTaker n s ≠ some m := fun h => by
      rw [roleOf_quarantineCore, h, roleOf_handRole_taker] at hstandby
      exact absurd hstandby (by decide)
    have hmkeep := hkeep (fun h => hm ((congrArg benchGrove h).trans hn)) hmt
    rw [genExhausted_congr hmkeep]
    exact hothers m hm (hmkeep ▸ hstandby)

/-- Benches of a fenced grove are all quarantined where the advances suffice. -/
theorem quarantineEach_of_advancesLeft {g : Nat} {ns : List Nat} (hnodup : ns.Nodup) (hns : ∀ n ∈ ns, benchGrove n = g) {s : State}
    (hfenced : s.err.fenced.contains g = true) (hleft : AdvancesLeft g ns s) :
    ∃ t, quarantineEach ns s = some t ∧ t.err.fenced = s.err.fenced := by
  induction ns generalizing s with
  | nil => exact ⟨s, rfl, rfl⟩
  | cons n ns ih =>
    obtain ⟨hnew, hnodup'⟩ := List.nodup_cons.mp hnodup
    have hns' : ∀ k ∈ ns, benchGrove k = g := fun k hk => hns k (List.mem_cons_of_mem _ hk)
    obtain ⟨t, ht, hts⟩ := ih hnodup' hns' ((quarantineCore_fenced n s).symm ▸ hfenced)
      (hleft.quarantine hfenced (hns n List.mem_cons_self) hns' hnew)
    refine ⟨t, ?_, hts.trans (quarantineCore_fenced n s)⟩
    rw [quarantineEach, quarantineExhausts_of_advancesLeft hfenced hleft, if_neg Bool.false_ne_true, ht]

/-! ### The fence of a grove (R458) -/

theorem quarantineAll_fenced {g : Nat} {s : State} (hfenced : s.err.fenced.contains g = true) (hgen : ∀ n, genExhausted s n = false)
    (cause : W16) : (quarantineAll g (grovesBenches g) cause s).err.fenced = s.err.fenced := by
  unfold quarantineAll
  dsimp only
  split
  · split <;> rfl
  · unfold quarantineNow
    dsimp only
    split
    · rfl
    · obtain ⟨t, ht, hts⟩ := quarantineEach_of_advancesLeft (ns := (grovesBenches g).filter fun n => decide ((roleOf s n).state ≠ .quarantined))
        ((grovesBenches_nodup g).filter _) (fun n hn => benchGrove_of_mem_grovesBenches (List.mem_of_mem_filter hn)) hfenced
        ⟨fun n _ => hgen n, fun m _ _ => hgen m⟩
      rw [ht]
      exact (report_err_fenced _ _).trans hts

theorem fenceGrove_fenced (g : Nat) (code : W16) {s : State} (hgen : ∀ n, genExhausted s n = false) :
    (fenceGrove g code s).err.fenced.contains g = true := by
  have hmem : (s.err.fenced ++ [g]).contains g = true := by simp
  have hquar := quarantineAll_fenced (s := { s with err := { s.err with fenced := s.err.fenced ++ [g] } }) (g := g) hmem hgen code
  rw [fenceGrove, fenced_of_lasting (lasting_fenceRings g _), hquar]
  exact hmem

/-- The fatal error of a grove fences it, unless a unit generation is exhausted. -/
theorem raiseFatal_grove_fenced (g : Nat) (e : ErrRecord) {s : State} (hactive : s.err.fatalActive = false)
    (hgen : ∀ n, genExhausted s n = false) : (raiseFatal (.grove g) e s).err.fenced.contains g = true := by
  have hgen' (n : Nat) : genExhausted (reportAs .fatal e s) n = false :=
    (genExhausted_congr (congrArg (fun t => t.get {} n) (reportAs_roles .fatal e s))).trans (hgen n)
  simp only [raiseFatal, hactive, Bool.false_eq_true, if_false, scopeAction]
  exact fenceGrove_fenced g e.code hgen'

/-! ### What a grove reset clears (R91, R94) -/

/-- The answer to who waits for a register write changes a hart or the management processor alone. -/
theorem releaseWriter_shape (w : Option RegWriter) (s : State) :
    ∃ l m, releaseWriter w s = { s with landing := l, mgmt := m } := by
  unfold releaseWriter
  split
  · exact ⟨_, _, rfl⟩
  · exact ⟨_, _, rfl⟩
  · exact ⟨s.landing, s.mgmt, rfl⟩
  · exact ⟨s.landing, s.mgmt, rfl⟩

theorem foldl_releaseWriter_shape {α : Type} (w : α → Option RegWriter) (l : List α) (s : State) :
    ∃ a b, l.foldl (fun s x => releaseWriter (w x) s) s = { s with landing := a, mgmt := b } := by
  induction l generalizing s with
  | nil => exact ⟨s.landing, s.mgmt, rfl⟩
  | cons x xs ih =>
    obtain ⟨a, b, h⟩ := releaseWriter_shape (w x) s
    obtain ⟨a', b', h'⟩ := ih (releaseWriter (w x) s)
    exact ⟨a', b', by rw [List.foldl_cons, h', h]⟩

/-- The tasks of a grove ended, as its reset begins. -/
def groveEnds (g : Nat) (s : State) : State :=
  (groveTasks s g).foldl (fun s t => resetEndsTask t 0x120E s) (discardLeaving (fun t => t.grove == g) (noteClocks s))

theorem lasting_groveEnds (g : Nat) (s : State) : lasting (groveEnds g s) = lasting s :=
  (lasting_foldl (fun u t => lasting_resetEndsTask t _ u) _ _).trans (lasting_of_kept (by simp))

theorem groveEnds_of_idle {g : Nat} {s : State} (hidle : groveTasks s g = []) :
    groveEnds g s = discardLeaving (fun t => t.grove == g) (noteClocks s) := by
  simp [groveEnds, hidle]

/-- The start of a grove reset, field by field, from the state in which the grove's tasks have ended. -/
theorem groveResetStart_fields (g : Nat) (s : State) :
    let s1 := groveEnds g s
    let t := groveResetStart g s
    t.groveResets = s1.groveResets.update {} g (fun x => { x with busy := true, since := s1.now }) ∧
      t.roles = (grovesBenches g).foldl (fun t n => t.update {} n fun e => { e with advances := e.advances + 1 }) s1.roles ∧
      t.scratch = s1.scratch.dropWhere (fun a => benchGrove (a / scratchSize) == g) ∧ t.mem = s1.mem ∧ t.tasks = s1.tasks ∧
      t.opLines = s1.opLines.filter (fun l => l.grove != g) ∧ (t.opRegs.get {} g).waiting = [] ∧
      t.err.groveResets = s1.err.groveResets := by
  have hends : (groveTasks s g).foldl (fun s t => resetEndsTask t 0x120E s) (discardLeaving (fun t => t.grove == g) (noteClocks s)) =
      groveEnds g s := rfl
  simp only [groveResetStart, hends]
  generalize groveEnds g s = s1
  have hshape := foldl_releaseWriter_shape (fun x : Option (Nat × Nat) × RegWriter => some x.2) (s1.opRegs.get {} g).waiting
  generalize hstart : List.foldl _ _ _ = t
  obtain ⟨a, b, h⟩ := hshape _
  rw [h] at hstart
  rw [← hstart]
  refine ⟨rfl, ?_, rfl, rfl, rfl, rfl, by simp [Table.get_set_self], rfl⟩
  dsimp only

/-- Each of distinct indices updated once. -/
theorem get_foldl_update {α : Type} [DecidableEq α] (d : α) (f : α → α) {ns : List Nat} (hnodup : ns.Nodup) (t : Table α) (k : Nat) :
    (ns.foldl (fun t n => t.update d n f) t).get d k = if k ∈ ns then f (t.get d k) else t.get d k := by
  induction ns generalizing t with
  | nil => simp
  | cons n ns ih =>
    obtain ⟨hnew, hnodup'⟩ := List.nodup_cons.mp hnodup
    rw [List.foldl_cons, ih hnodup', Table.get_update]
    by_cases hkn : k = n
    · subst hkn
      simp [hnew]
    · simp [hkn]

theorem mem_grovesBenches {g n : Nat} : n ∈ grovesBenches g ↔ benchGrove n = g := by
  refine ⟨benchGrove_of_mem_grovesBenches, fun h => ?_⟩
  simp only [benchGrove] at h
  simp only [grovesBenches, List.mem_map, List.mem_range]
  exact ⟨n - 128 * g, by omega, by omega⟩

theorem groveResetTaken_iff {s : State} {g : Nat} : groveResetTaken s g = true ↔
    s.life.power = .running ∧ g < 4 ∧ (s.groveResets.get {} g).busy = false ∧ s.err.fenced.contains g = false := by
  simp [groveResetTaken, and_assoc]

theorem requestGroveReset_of_taken {g : Nat} {s : State} (htaken : groveResetTaken s g = true)
    (hgen : (grovesBenches g).any (genExhausted s) = false) : requestGroveReset g s = groveResetStart g s := by
  simp [requestGroveReset, htaken, hgen]

theorem requestGroveReset_of_not_taken {g : Nat} {s : State} (htaken : groveResetTaken s g = false) : requestGroveReset g s = s := by
  simp [requestGroveReset, htaken]

/-- The end of a grove reset with no bench found bad and no quarantine held. -/
theorem completeGroveReset_of_clean {g : Nat} {s : State} (hpower : s.life.power = .running)
    (hheld : (s.groveResets.get {} g).held = []) :
    completeGroveReset g [] s = report { code := 0x1210, source := srcGrove s g }
      { s with groveResets := s.groveResets.update {} g fun y => { y with busy := false, count := (y.count + 1) % 2 ^ 32, held := [] } } := by
  simp [completeGroveReset, quarantineNow, applyHeld, quarantineEach, hheld, hpower, wrapAdd, srcGrove]

/-- Settles O16: the reset that starts is `groveResetStart`, of whose fields `groveResetStart_fields` tells; its end is
`completeGroveReset_of_clean`. -/
theorem groveResetClearsItsGrove : Obligations.GroveResetClearsItsGrove := by
  unfold Obligations.GroveResetClearsItsGrove
  refine ⟨fun g s hpower hg hbusy hfenced hgen hidle => ?_, fun g s hpower hbusy hheld => ?_⟩
  · obtain ⟨hresets, hroles, hscratch, hmem, htasks, hlines, hwaiting, -⟩ := groveResetStart_fields g s
    rw [groveEnds_of_idle hidle] at hresets hroles hscratch hmem htasks hlines
    have hrole (n : Nat) : roleOf (groveResetStart g s) n =
        if n / 128 = g then { roleOf s n with advances := (roleOf s n).advances + 1 } else roleOf s n := by
      rw [roleOf, hroles, get_foldl_update _ _ (grovesBenches_nodup g)]
      simp only [mem_grovesBenches]
      rfl
    refine ⟨groveResetStart g s, ?_, ?_, hmem, htasks, fun a ha => ?_, fun a ha => ?_, fun l hl => ?_, hwaiting, fun n hn => ?_,
      fun n hn => ?_⟩
    · exact congrArg _ (requestGroveReset_of_taken (groveResetTaken_iff.mpr ⟨hpower, hg, hbusy, hfenced⟩) hgen)
    · simp [hresets, Table.get_update]
    · rw [memGet, hscratch, Table.get_dropWhere]
      simp [ha, unlistedByte]
    · rw [memGet, hscratch, Table.get_dropWhere]
      simp [ha, memGet, discardLeaving, noteClocks]
    · rw [hlines] at hl
      simpa using (List.mem_filter.mp hl).2
    · rw [hrole, if_pos hn]
    · rw [hrole, if_neg hn]
  · show (if (s.groveResets.get {} g).busy then _ else _) = _
    rw [if_pos hbusy, completeGroveReset_of_clean hpower hheld]

/-! ### Tally state errors (R461) -/

section Tally

variable {g : Nat} {s : State}

/-- The record of a Tally state error, written. -/
def tallyReported (g : Nat) (s : State) : State := report { code := 0x3901, source := srcGrove s g } s

/-- The error-requested grove resets of the last 60 s. -/
def recentResets (s : State) : List (Nat × Nat) := s.err.groveResets.filter fun e => decide (s.now < e.2 + 60000000000)

theorem groveResetTaken_tallyReported (g k : Nat) (s : State) : groveResetTaken (tallyReported g s) k = groveResetTaken s k := by
  simp [groveResetTaken, tallyReported]

theorem tallyStateError_of_not_taken (htaken : groveResetTaken s g = false) : tallyStateError g false s = tallyReported g s := by
  rw [← groveResetTaken_tallyReported g] at htaken
  simp only [tallyStateError]
  rw [if_pos (by simpa [tallyReported] using htaken)]
  rfl

theorem tallyStateError_of_taken (htaken : groveResetTaken s g = true) : tallyStateError g false s =
    if 2 ≤ ((recentResets s).filter fun e => e.1 == g).length then
      raiseFatal (.grove g) { code := 0x9305, source := srcGrove s g } (tallyReported g s)
    else requestGroveReset g { tallyReported g s with err := { (tallyReported g s).err with groveResets := (g, s.now) :: recentResets s } } := by
  rw [← groveResetTaken_tallyReported g] at htaken
  simp only [tallyStateError]
  rw [if_neg (by simpa [tallyReported] using htaken), report_err_groveResets]
  rfl

theorem execTallyStateError_of_inService (hservice : inService s = true) (hg : g < 4) :
    exec (.tallyStateError g) s = .next (tallyStateError g false s) :=
  if_pos ⟨hservice, hg⟩

end Tally

/-- A request that no error makes leaves the count of the three as it is. -/
theorem requestGroveReset_groveResets {g : Nat} {s : State} (hgen : (grovesBenches g).any (genExhausted s) = false) :
    (requestGroveReset g s).err.groveResets = s.err.groveResets := by
  cases htaken : groveResetTaken s g with
  | false => rw [requestGroveReset_of_not_taken htaken]
  | true =>
    obtain ⟨-, -, -, -, -, -, -, hcount⟩ := groveResetStart_fields g s
    rw [requestGroveReset_of_taken htaken hgen, hcount, groveResets_of_lasting (lasting_groveEnds g s)]

/-- Settles O9: by whether a reset would be taken up and by how many the last 60 s have seen; the fence by `raiseFatal_grove_fenced`. -/
theorem tallyStateErrorEscalates : Obligations.TallyStateErrorEscalates := by
  unfold Obligations.TallyStateErrorEscalates
  intro g s hservice hg r recent
  rw [execTallyStateError_of_inService hservice hg]
  refine ⟨fun htaken => ?_, fun htaken hfew => ?_, fun htaken hmany => ⟨?_, fun hactive hgen => ?_⟩, fun hgen => ?_⟩
  · rw [tallyStateError_of_not_taken htaken]
    rfl
  · have hfew' : ¬ 2 ≤ ((recentResets s).filter fun e => e.1 == g).length := not_le.mpr hfew
    rw [tallyStateError_of_taken htaken, if_neg hfew']
    rfl
  · have hmany' : 2 ≤ ((recentResets s).filter fun e => e.1 == g).length := hmany
    rw [tallyStateError_of_taken htaken, if_pos hmany']
    rfl
  · exact raiseFatal_grove_fenced g _ ((report_err_fatalActive _ s).trans hactive)
      fun n => (genExhausted_congr (congrArg (fun t => t.get {} n) (report_roles _ s))).trans (hgen n)
  · exact ⟨_, rfl, requestGroveReset_groveResets hgen⟩

end Sys2Proof.Machine
end

