-- ==== Sys2Proof/Proofs/Diagnostics.lean ====
section
/-!
PROOFS. Injection slots, the array scan and Scaler channels (R464, R469–R472): what each command leaves, by the guards of its operation.
-/

namespace Sys2Proof.Machine

/-! ### Injection slots (R464) -/

theorem injCtlWrite_arm (k : Nat) (s : State) : injCtlWrite k 1 s = armSlot k s := rfl

section Slots

variable {s : State} {k : Nat}

theorem exec_injectionArm (hservice : inService s = true) (hk : k < 16) (hmay : mayInject s false = true) :
    exec (.injectionArm k 1) s = .next (armSlot k s) :=
  if_pos ⟨hservice, hk, hmay⟩

theorem exec_injectionDisarm (hservice : inService s = true) (hk : k < 16) (hmay : mayInject s false = true) :
    exec (.injectionDisarm k) s = .next (disarmSlot k s) :=
  if_pos ⟨hservice, hk, hmay⟩

/-- A slot that is armed, or refused with the code of its refusal. -/
theorem armSlot_of_refusal {c : W16}
    (h : armRefusal s (s.err.inj.get {} k).code.toNat (s.err.inj.get {} k).count (s.err.inj.get {} k).locator.toNat = c) :
    armSlot k s = updSlot k (fun x => { x with state := if c = 0 then .armed else .refused, fired := 0, result := c }) s := by
  simp only [armSlot, slotOf, h]

end Slots

theorem armRefusal_of_good {s : State} {code count w : Nat} (hform : locatorForm s code w = true) (hcount : count ≠ 0)
    (hopen : (addressPoint code && sealedData s w) = false) : armRefusal s code count w = 0 := by
  simp [armRefusal, hform, hcount, hopen]

theorem armRefusal_of_sealed {s : State} {code count w : Nat} (hform : locatorForm s code w = true) (hcount : count ≠ 0)
    (hsealed : (addressPoint code && sealedData s w) = true) : armRefusal s code count w = 0x9312 := by
  simp [armRefusal, hform, hcount, hsealed]

theorem armRefusal_of_bad {s : State} {code count w : Nat} (hbad : locatorForm s code w = false ∨ count = 0) :
    armRefusal s code count w = 0x9311 := by
  rcases hbad with h | h <;> simp [armRefusal, h]

/-! ### The array scan (R469) -/

theorem throttleRows_of_logCount {before after : PowerBlock} (h : after.logCount = before.logCount) : throttleRows before after = [] := by
  simp [throttleRows, h]

/-- A change of Boom that logs no episode sends no row. -/
theorem updPower_of_logCount {f : PowerBlock → PowerBlock} {s : State} (h : (f s.power).logCount = s.power.logCount) :
    updPower f s = { s with power := f s.power } := by
  simp [updPower, throttleRows_of_logCount h, sendMaint]

@[simp] theorem updBench_logCount (p : PowerBlock) (n : Nat) (f : BenchPower → BenchPower) : (updBench p n f).logCount = p.logCount := rfl
@[simp] theorem updGrove_logCount (p : PowerBlock) (g : Nat) (f : GrovePower → GrovePower) : (updGrove p g f).logCount = p.logCount := rfl
@[simp] theorem poolAdd_logCount (p : PowerBlock) (g q : Nat) : (poolAdd p g q).logCount = p.logCount := rfl
@[simp] theorem forgetBench_logCount (p : PowerBlock) (n : Nat) : (forgetBench p n).logCount = p.logCount := rfl

@[simp] theorem noteIdle_logCount (now : Nat) (p : PowerBlock) (g : Nat) : (noteIdle now p g).logCount = p.logCount := by
  unfold noteIdle
  split
  · rfl
  · simp

@[simp] theorem returnQuanta_logCount (now n : Nat) (p : PowerBlock) : (returnQuanta now n p).logCount = p.logCount := by
  simp [returnQuanta]

/-- A scan that ends gives back the quanta of its bench. -/
theorem leaveScan_of_bench {s : State} {n : Nat} (hbench : (scanPlace s).bind placeBench = some n) (state : ScanState) :
    leaveScan state s = { s with power := returnQuanta s.now n s.power, err := { s.err with diagState := state } } := by
  simp only [leaveScan, hbench]
  rw [updPower_of_logCount (returnQuanta_logCount ..)]
  rfl

theorem abortScan_of_running {s : State} {n : Nat} (hrunning : s.err.diagState = .running)
    (hbench : (scanPlace s).bind placeBench = some n) :
    abortScan s = { s with power := returnQuanta s.now n s.power, err := { s.err with diagState := .idle } } := by
  rw [abortScan, if_pos hrunning, leaveScan_of_bench hbench]

theorem diagCtlWrite_go (s : State) : diagCtlWrite 1 s = startScan s := rfl

/-- The place that DIAG_LOCATOR names is the one that a scan started on it scans. -/
theorem bench_of_scanPlace_started (s : State) :
    (scanPlace { s with err := { s.err with scanLocator := s.err.diagLocator } }).bind placeBench =
      (locatorPlace s s.err.diagLocator.toNat).bind placeBench := by
  show (match locatorPlace s s.err.diagLocator.toNat with
    | some u => if (placeBench u).isSome then some u else none
    | none => none).bind placeBench = _
  cases hplace : locatorPlace s s.err.diagLocator.toNat with
  | none => rfl
  | some u => cases hbench : placeBench u <;> simp [hbench]

theorem startScan_of_idle_bench {s : State} {n : Nat} (hidle : s.err.diagState ≠ .running)
    (hbench : (locatorPlace s s.err.diagLocator.toNat).bind placeBench = some n)
    (hstate : (roleOf s n).state = .idle ∨ (roleOf s n).state = .quarantined) (hgrove : groveIneligible s (benchGrove n) = false) :
    startScan s = { s with
      power := { updBench s.power n (fun b => { b with demand := 6 }) with
        requests := s.power.requests ++ [{ bench := n, kind := .fresh, quanta := 6, since := s.now }] }
      err := { s.err with scanLocator := s.err.diagLocator, diagState := .running, diagCode := 0, diagFails := 0 } } := by
  have hplace := (bench_of_scanPlace_started s).trans hbench
  have hfits : (((roleOf s n).state = .idle ∨ (roleOf s n).state = .quarantined) ∧ (!groveIneligible s (benchGrove n)) = true) :=
    ⟨hstate, by simp [hgrove]⟩
  simp only [startScan, if_neg hidle, updErr, hplace]
  refine (if_pos hfits).trans ?_
  rw [updPower_of_logCount rfl]
  rfl

theorem startScan_refused {s : State} (hidle : s.err.diagState ≠ .running)
    (hnone : ∀ n, (locatorPlace s s.err.diagLocator.toNat).bind placeBench = some n →
      (roleOf s n).state = .active ∨ (roleOf s n).state = .standby ∨ groveIneligible s (benchGrove n) = true) :
    startScan s = { s with err := { s.err with scanLocator := s.err.diagLocator, diagState := .idle, diagCode := 0x9314 } } := by
  simp only [startScan, if_neg hidle, updErr, bench_of_scanPlace_started]
  cases hbench : (locatorPlace s s.err.diagLocator.toNat).bind placeBench with
  | none => rfl
  | some n =>
    refine if_neg fun ⟨hstate, hgrove⟩ => ?_
    change (roleOf s n).state = .idle ∨ (roleOf s n).state = .quarantined at hstate
    change (!groveIneligible s (benchGrove n)) = true at hgrove
    rcases hnone n hbench with h | h | h <;> simp_all

/-- With no injection point armed none hits. -/
theorem scanInjections_of_unarmed {s : State} (hunarmed : s.err.inj.cells = []) (scan : UnitPlace) : scanInjections scan s = s :=
  List.foldlRecOn (motive := fun t : State => t = s) _ _ rfl fun t ht c _ => by
    subst ht
    simp [fireInjection, hunarmed]

theorem finishScan_of_unarmed {s : State} {u : UnitPlace} {n : Nat} (hunarmed : s.err.inj.cells = [])
    (hbench : (scanPlace s).bind placeBench = some n) (fails : Nat) (first : W64) :
    finishScan u fails first s = if fails = 0 then
      { s with
        freeCount := s.freeCount + 1, power := returnQuanta s.now n s.power
        err := { s.err with diagState := .passed, diagFails := 0, diagFirst := Config.freeWord s.freeCount } }
      else
      { s with
        power := returnQuanta s.now n s.power
        err := { s.err with diagState := .failed, diagFails := min fails 0xFFFF, diagFirst := first } } := by
  have hpoints : scannedPoints u s = [] := by simp [scannedPoints, hunarmed]
  simp only [finishScan, hpoints, scanInjections_of_unarmed hunarmed]
  by_cases hfails : fails = 0
  · subst hfails
    exact leaveScan_of_bench (s := { s with
      freeCount := s.freeCount + 1, err := { s.err with diagFails := 0, diagFirst := Config.freeWord s.freeCount } }) hbench .passed
  · have hfailed : ¬ fails + 0 = 0 := hfails
    simp only [List.length_nil, if_neg hfails, if_neg hfailed, if_pos hfails]
    exact leaveScan_of_bench (s := { s with err := { s.err with diagFails := min fails 0xFFFF, diagFirst := first } }) hbench .failed

/-- Settles O10: the arming of a slot by its refusal; a scan by the place that its locator names. -/
theorem diagnosticsRun : Obligations.DiagnosticsRun := by
  unfold Obligations.DiagnosticsRun
  refine ⟨fun k s hservice hk hmay => ?_, fun s n hservice hidle hbench hstate hgrove => ?_, fun s hservice hidle hnone => ?_,
    fun s n hrunning hbench => ?_, fun s u n fails first hrunning hplace hbench hruns hunarmed => ?_⟩
  · rw [exec_injectionArm hservice hk hmay, exec_injectionDisarm hservice hk hmay]
    refine ⟨⟨fun hform hcount hopen => ?_, fun hform hcount hsealed => ?_, fun hbad => ?_⟩, rfl⟩
    · rw [armSlot_of_refusal (armRefusal_of_good hform hcount hopen)]
      rfl
    · rw [armSlot_of_refusal (armRefusal_of_sealed hform hcount hsealed)]
      rfl
    · rw [armSlot_of_refusal (armRefusal_of_bad hbad)]
      rfl
  · exact ⟨_, (if_pos hservice).trans (congrArg _ (startScan_of_idle_bench hidle hbench hstate hgrove)), rfl, rfl, rfl, rfl, rfl, rfl⟩
  · exact (if_pos hservice).trans (congrArg _ (startScan_refused hidle hnone))
  · exact congrArg _ (abortScan_of_running hrunning hbench)
  · show execDiagScanDone fails first s = _
    have hruns' : s.err.diagState = .running ∧ scanRuns s n = true := ⟨hrunning, hruns⟩
    simp only [execDiagScanDone, hplace, hbench, if_pos hruns']
    exact congrArg _ (finishScan_of_unarmed hunarmed (by simp [hplace, hbench]) fails first)

/-! ### Scaler channels (R470, R471) -/

theorem updChannel_congr {ch : Nat} {f g : Channel → Channel} {s : State} (h : f (channelOf s ch) = g (channelOf s ch)) :
    updChannel ch f s = updChannel ch g s := by
  have hupdate : s.scaler.channels.update {} ch f = s.scaler.channels.update {} ch g := congrArg (s.scaler.channels.set {} ch) h
  simp only [updChannel, hupdate]

theorem channelOf_updChannel (ch : Nat) (f : Channel → Channel) (s : State) : channelOf (updChannel ch f s) ch = f (channelOf s ch) := by
  simp [channelOf, updChannel, Table.get_update]

theorem exec_scalerArm {ch : Nat} {s : State} (hservice : inService s = true) (hch : ch < 16) :
    exec (.scalerArm ch 1) s = .next (updChannel ch (armChannel s.fabric) s) :=
  if_pos ⟨hservice, hch⟩

theorem armChannel_of_refused {f : FabricBlock} {c : Channel} (hidle : c.busy = false) (hrefused : armRefused f.time c = true) :
    armChannel f c = { c with refused := true } := by
  simp [armChannel, hidle, hrefused]

theorem armChannel_of_good {f : FabricBlock} {c : Channel} (hidle : c.busy = false) (hgood : armRefused f.time c = false) :
    armChannel f c = if c.start ≤ f.time then runChannel f { clearStats c with state := .armed } else { clearStats c with state := .armed } := by
  simp [armChannel, hidle, hgood]

theorem endCapture_of_busy {ch : Nat} {s : State} (hbusy : (channelOf s ch).busy = true) :
    endCapture ch s = { s with scaler := { s.scaler with
      channels := s.scaler.channels.update {} ch fun c => { c with state := .done }, done := s.scaler.done ||| BitVec.ofNat 16 (2 ^ ch) } } :=
  if_pos hbusy

/-- What the module holds are levels: of an event source it holds nothing (log 93). -/
theorem levelOf_of_event {s : State} {source : Nat} (hevent : (sourceOf source).1 = false) (unit : Nat) : levelOf s source unit = none := by
  unfold levelOf
  split <;> simp_all [sourceOf]

theorem levelValue_of_event {s : State} {c : Channel} (hevent : (sourceOf c.source).1 = false) : levelValue s c = none := by
  have hlevel (unit : Nat) : levelOf s c.source unit = none := levelOf_of_event hevent unit
  unfold levelValue
  split
  · exact hlevel _
  · split
    · exact hlevel _
    · have hnone (units : List Nat) : units.filterMap (levelOf s c.source) = [] := by simp [hlevel]
      simp [hnone]

theorem sourceSample_of_running {s : State} {c : Channel} (hrunning : c.state = .running) (hstop : s.fabric.time < c.stop)
    (hdue : sampleDue s c = true) (v : Nat) : sourceSample s v c = sampleChannel s v c := by
  simp [sourceSample, hrunning, hstop, hdue]

theorem sampleChannel_of_apart {s : State} {c : Channel} (hapart : ∀ x, c.lastSample = some x → x + 2 ≤ s.now) (v : Nat) :
    sampleChannel s v c = takeSample s.now (v % 2 ^ 64) c := by
  refine if_neg ?_
  cases hlast : c.lastSample with
  | none => simp
  | some x => simp [hapart x hlast]

theorem sampleChannel_of_close {s : State} {c : Channel} {x : Nat} (hlast : c.lastSample = some x) (hclose : s.now < x + 2) (v : Nat) :
    sampleChannel s v c = { c with dropped := min (c.dropped + 1) (2 ^ 32 - 1) } := by
  simp [sampleChannel, hlast, hclose, satAdd]

/-- A sample of a running channel, at its value. -/
theorem channelOf_scalerSample {s : State} {ch : Nat} (hrunning : (channelOf s ch).state = .running) (hsource : (channelOf s ch).source ≠ 17)
    (hstop : s.fabric.time < (channelOf s ch).stop) (hdue : sampleDue s (channelOf s ch) = true) (v : Nat) :
    channelOf (updChannel ch (fun c => if c.source = 17 then c else sourceSample s ((levelValue s c).getD v) c) s) ch =
      sampleChannel s ((levelValue s (channelOf s ch)).getD v) (channelOf s ch) := by
  rw [channelOf_updChannel, if_neg hsource, sourceSample_of_running hrunning hstop hdue]

/-- Settles O11: the commands of a channel by its state; a sample by the time since the last. -/
theorem scalerChannelsCapture : Obligations.ScalerChannelsCapture := by
  unfold Obligations.ScalerChannelsCapture
  refine ⟨⟨fun ch s hservice hch hidle hrefused => ?_, fun ch s hservice hch hidle hgood hstart => ?_,
    fun ch s hservice hch hidle hgood hstart => ?_, fun ch s harmed => ?_, fun ch s hch hstate => ?_⟩,
    fun ch v s => ⟨levelValue_of_event, fun hrunning hsource hstop hdue => ?_⟩⟩
  · rw [exec_scalerArm hservice hch]
    exact congrArg _ (updChannel_congr (armChannel_of_refused hidle hrefused))
  · rw [exec_scalerArm hservice hch]
    refine congrArg _ (updChannel_congr ((armChannel_of_good hidle hgood).trans ?_))
    exact if_neg (Nat.not_le.mpr hstart)
  · rw [exec_scalerArm hservice hch]
    refine congrArg _ (updChannel_congr ((armChannel_of_good hidle hgood).trans ?_))
    exact if_pos hstart
  · exact congrArg _ (updChannel_congr (if_pos harmed))
  · have hbusy : (channelOf s ch).busy = true := by rcases hstate with h | h <;> simp [Channel.busy, h]
    have hend : (if ch < 16 then endCapture ch s else s) = _ := (if_pos hch).trans (endCapture_of_busy hbusy)
    exact ⟨congrArg _ hend, congrArg _ hend⟩
  · refine ⟨_, rfl, rfl, fun hapart => ?_, fun x hlast hclose => ?_⟩
    · rw [channelOf_scalerSample hrunning hsource hstop hdue, sampleChannel_of_apart hapart]
      exact ⟨rfl, rfl, rfl, rfl, rfl, rfl⟩
    · rw [channelOf_scalerSample hrunning hsource hstop hdue, sampleChannel_of_close hlast hclose]

end Sys2Proof.Machine
end

