-- ==== Sys2Proof/Proofs/Starts.lean ====
section
/-!
PROOFS. Starts, module warm resets and the loss of input (R47, R65, R67, R76, R88–R90): the state in which a start begins, the image it
runs first, and what a reset clears and keeps.
-/

namespace Sys2Proof.Machine

/-! ### The boot flash (R46, R47, R72) -/

theorem endSession_of_no_session {b : BootBlock} (h : b.session = none) : endSession b = b := by
  simp [endSession, h]

theorem endSession_session (b : BootBlock) : (endSession b).session = none := by
  unfold endSession
  split
  · rfl
  · rfl
  · assumption

/-- A session ends once. -/
@[simp] theorem endSession_endSession (b : BootBlock) : endSession (endSession b) = endSession b :=
  endSession_of_no_session (endSession_session b)

theorem writeRecord_fuses (r : StartRecord) (b : BootBlock) :
    (writeRecord r b).revoked = b.revoked ∧ (writeRecord r b).minVersion = b.minVersion := by
  unfold writeRecord
  split
  · split <;> exact ⟨rfl, rfl⟩
  all_goals exact ⟨rfl, rfl⟩

theorem endSession_fuses (b : BootBlock) : (endSession b).revoked = b.revoked ∧ (endSession b).minVersion = b.minVersion := by
  unfold endSession
  split
  · exact writeRecord_fuses _ b
  · exact ⟨rfl, rfl⟩
  · exact ⟨rfl, rfl⟩

/-- A record that is written is the newest, under the next sequence number. -/
theorem newestRecord_writeRecord {b : BootBlock} {q : StartRecord} (hnewest : newestRecord b = some q) (hsequence : q.sequence + 1 < 2 ^ 32)
    (r : StartRecord) : newestRecord (writeRecord r b) = some { r with sequence := q.sequence + 1 } := by
  have hnext : (q.sequence + 1) % 4294967296 = q.sequence + 1 := Nat.mod_eq_of_lt hsequence
  have hnot : ¬ q.sequence + 1 < q.sequence := by omega
  cases h0 : b.copy0 with
  | none =>
    cases h1 : b.copy1 with
    | none => simp [newestRecord, h0, h1] at hnewest
    | some y =>
      obtain rfl : y = q := by simpa [newestRecord, h0, h1] using hnewest
      simp [writeRecord, newestRecord, h0, h1, wrapAdd, hnext, hnot]
  | some x =>
    cases h1 : b.copy1 with
    | none =>
      obtain rfl : x = q := by simpa [newestRecord, h0, h1] using hnewest
      simp [writeRecord, newestRecord, h0, h1, wrapAdd, hnext]
    | some y =>
      by_cases hlt : x.sequence < y.sequence
      · obtain rfl : y = q := by simpa [newestRecord, h0, h1, hlt] using hnewest
        simp [writeRecord, newestRecord, h0, h1, hlt, wrapAdd, hnext, hnot]
      · obtain rfl : x = q := by simpa [newestRecord, h0, h1, hlt] using hnewest
        simp [writeRecord, newestRecord, h0, h1, hlt, wrapAdd, hnext]

/-! ### Blank stores (R84, R89) -/

/-- What a reset leaves of memory. -/
def flashOnly (m : Memory) : Memory := m.dropWhere fun a => decide (a < flashBase)

theorem memGet_flashOnly (m : Memory) (a : Nat) : memGet (flashOnly m) a = if a < flashBase then 0 else memGet m a := by
  simp only [flashOnly, memGet, Table.get_dropWhere, decide_eq_true_eq]
  rfl

theorem memGet_flashOnly_below (m : Memory) {a : Nat} (ha : a < flashBase) : memGet (flashOnly m) a = 0 := by
  rw [memGet_flashOnly, if_pos ha]

theorem memGet_flashOnly_flash (m : Memory) {a : Nat} (ha : flashBase ≤ a) : memGet (flashOnly m) a = memGet m a := by
  rw [memGet_flashOnly, if_neg (Nat.not_lt.mpr ha)]

/-- Two states with the same flash tier, part and boot flash, but for a session that has ended. -/
def SameFlash (s s1 : State) : Prop :=
  (∀ a, flashBase ≤ a → memGet s1.mem a = memGet s.mem a) ∧ s1.part = s.part ∧ endSession s1.boot = endSession s.boot

theorem sameFlash_of_eq {s s1 : State} (hmem : s1.mem = s.mem) (hpart : s1.part = s.part) (hboot : s1.boot = s.boot) : SameFlash s s1 :=
  ⟨fun _ _ => by rw [hmem], hpart, by rw [hboot]⟩

theorem sameFlash_resetSteps (stand : PowerState) (cause : Option W16) (s : State) : SameFlash s (resetSteps stand cause s) :=
  ⟨fun _ ha => memGet_flashOnly_flash s.mem ha, rfl, endSession_endSession s.boot⟩

theorem blankStart_blankModule {s s1 : State} (h : SameFlash s s1) (warm : Bool) (inp : StartInputs) (p : Part) :
    BlankStart inp warm s (blankModule warm (fitInputs p inp) s1) := by
  obtain ⟨hflash, hpart, hboot⟩ := h
  refine ⟨fun a ha => ?_, fun a ha => ?_, rfl, rfl, rfl, rfl, hpart, rfl, rfl, rfl, rfl, rfl, hboot⟩
  · exact memGet_flashOnly_below s1.mem ha
  · exact (memGet_flashOnly_flash s1.mem ha).trans (hflash a ha)

/-! ### What begins a start (R76, R89, R90) -/

theorem exec_coldStart_of_off {inp : StartInputs} {s : State} (hoff : s.life.power = .off) :
    exec (.coldStart inp) s = .next (coldStart inp s) := congrArg _ (if_pos hoff)

theorem exec_brownOutRestart_of_off {inp : StartInputs} {s : State} (hoff : s.life.power = .off) :
    exec (.brownOutRestart inp) s = .next (coldStart inp s) := by
  show execBrownOutRestart inp s = _
  simp [execBrownOutRestart, hoff]

theorem exec_brownOutRestart_of_wait {inp : StartInputs} {s : State} (hwait : s.life.power = .brownOut) :
    exec (.brownOutRestart inp) s = .next (if s.life.resetPinHigh.isNone then beginWarmReset 0x120D (withInput 21600 s)
      else warmStart inp (beginWarmReset 0x120D (withInput 21600 s))) := by
  show execBrownOutRestart inp s = _
  simp [execBrownOutRestart, hwait]

theorem exec_warmResetResume_of_warmReset {inp : StartInputs} {s : State} (hreset : s.life.power = .warmReset) :
    exec (.warmResetResume inp) s = .next (warmStart inp { s with life := { s.life with resetPinHigh := some s.now } }) := by
  show execWarmResetResume inp s = _
  simp [execWarmResetResume, hreset]

theorem coldStart_of_reset_low {inp : StartInputs} {s : State} (hlow : inp.resetLow = true) :
    coldStart inp s = resetPinLow (beginWarmReset 0x120A
      { freshAlwaysOn s with life := { (freshAlwaysOn s).life with brakePinLow := inp.brakeLow } }) := if_pos hlow

theorem coldStart_of_reset_high {inp : StartInputs} {s : State} (hhigh : inp.resetLow = false) :
    coldStart inp s = startModule false inp
      { freshAlwaysOn s with life := { (freshAlwaysOn s).life with brakePinLow := inp.brakeLow } } := by
  simp [coldStart, hhigh]

/-- What the sites of a part show: the order code's fit changes nothing else of what a start finds. -/
theorem fitInputs_spec (p : Part) (inp : StartInputs) :
    (p.orderCode = 0 → ∀ x ∈ (fitInputs p inp).sites, x.present = false) ∧
      (p.orderCode = 1 → ∀ x ∈ (fitInputs p inp).sites, x.vendor = p.vendor ∧ x.device = 0x0E01) ∧
      { fitInputs p inp with sites := inp.sites } = inp := by
  refine ⟨fun hcode x hx => ?_, fun hcode x hx => ?_, rfl⟩
  · obtain ⟨f, -, rfl⟩ := List.mem_map.mp hx
    simp [fitSite, hcode]
  · obtain ⟨f, -, rfl⟩ := List.mem_map.mp hx
    simp [fitSite, hcode]

/-! ### The image that a start runs (R47, R65, R67) -/

/-- The slot that a start tries first. -/
def firstSlot (r : StartRecord) : Nat := r.pendingSlot.getD r.activeSlot

theorem slotOrder_head (r : StartRecord) : ∃ ks, slotOrder false r = firstSlot r :: ks := by
  cases hpending : r.pendingSlot with
  | none => exact ⟨[], by simp [slotOrder, firstSlot, hpending]⟩
  | some p =>
    by_cases hactive : p = r.activeSlot
    · exact ⟨[], by simp [slotOrder, firstSlot, hpending, hactive]⟩
    · exact ⟨[r.activeSlot], by simp [slotOrder, firstSlot, hpending, hactive]⟩

/-- The record of a start that runs the image of a slot: on trial where the slot was pending. -/
def runningRecord (k : Nat) (r : StartRecord) : StartRecord :=
  { (if r.pendingSlot = some k then { r with trial := true } else { r with activeSlot := k }) with
    runningSlot := some k, pendingSlot := none }

theorem runningRecord_firstSlot {r : StartRecord} (htrial : r.trial = false) :
    (runningRecord (firstSlot r) r).trial = r.pendingSlot.isSome := by
  cases hpending : r.pendingSlot with
  | none => simp [runningRecord, firstSlot, hpending, htrial]
  | some p => simp [runningRecord, firstSlot, hpending]

theorem runningRecord_startCount (k : Nat) (r : StartRecord) : (runningRecord k r).startCount = r.startCount := by
  simp only [runningRecord]
  split <;> rfl

/-- The state in which a slot that passes its checks is run. -/
def imageChosen (k : Nat) (imageId : Nat) (r : StartRecord) (s : State) : State :=
  { logStart 0 (some k) imageId s with
    boot := writeRecord (runningRecord k r) (logStart 0 (some k) imageId s).boot }

theorem tryImages_of_good {inp : StartInputs} {k : Nat} {r : StartRecord} {s : State} (ks : List Nat)
    (hgood : (validateSlot s.boot s.part s.life.common inp.sites k).code = 0) :
    tryImages inp (k :: ks) 0 r s = (some (validateSlot s.boot s.part s.life.common inp.sites k).settings,
      imageChosen k (validateSlot s.boot s.part s.life.common inp.sites k).imageId r s) := by
  simp [tryImages, hgood, injectedCheck, imageChosen, runningRecord]

theorem chooseImage_of_good {inp : StartInputs} {r : StartRecord} {s : State} (hinj : s.err.injStart = 0)
    (hgood : (validateSlot s.boot s.part s.life.common inp.sites (firstSlot r)).code = 0) :
    chooseImage inp false r s = runImage inp (validateSlot s.boot s.part s.life.common inp.sites (firstSlot r)).settings
      (imageChosen (firstSlot r) (validateSlot s.boot s.part s.life.common inp.sites (firstSlot r)).imageId r s) := by
  obtain ⟨ks, hks⟩ := slotOrder_head r
  simp only [chooseImage, hks, hinj, tryImages_of_good ks hgood]

/-- The state in which a start with a valid record chooses its image. -/
def startOpened (inp : StartInputs) (r : StartRecord) (s : State) : State :=
  identify s.part inp { s with boot := writeRecord { r with startCount := r.startCount + 1 } s.boot }

theorem discover_of_found {inp : StartInputs} {s : State} (hinj : s.err.injStart = 0) (hfound : discoveryFailure s.part inp 0 = 0)
    (rebuilt : Bool) (r : StartRecord) : discover inp rebuilt r s = chooseImage inp rebuilt r (identify s.part inp s) := by
  simp only [discover, hinj, hfound]
  rfl

theorem startFrom_of_record {inp : StartInputs} {r : StartRecord} {s : State} (hnewest : newestRecord s.boot = some r)
    (htrial : r.trial = false) (hinj : s.err.injStart = 0) (hflash : inp.flashAnswers = true)
    (hfound : discoveryFailure s.part inp 0 = 0) :
    startFrom inp s = chooseImage inp false { r with startCount := r.startCount + 1 } (startOpened inp r s) := by
  have hopened : startFrom inp s = discover inp false { r with startCount := r.startCount + 1 }
      { s with boot := writeRecord { r with startCount := r.startCount + 1 } s.boot } := by
    simp [startFrom, hflash, hinj, openRecord, hnewest, revertTrial, htrial]
  rw [hopened]
  exact discover_of_found (by exact hinj) (by exact hfound) false _

/-- The newest record once the image is chosen. -/
theorem newestRecord_imageChosen {k imageId : Nat} {inp : StartInputs} {r : StartRecord} {s : State}
    (hnewest : newestRecord s.boot = some r) (hsequence : r.sequence < 2 ^ 32 - 3) :
    newestRecord (imageChosen k imageId { r with startCount := r.startCount + 1 } (startOpened inp r s)).boot =
      some { runningRecord k { r with startCount := r.startCount + 1 } with sequence := r.sequence + 1 + 1 } := by
  have hopened := newestRecord_writeRecord hnewest (by omega) { r with startCount := r.startCount + 1 }
  exact newestRecord_writeRecord (b := (logStart 0 (some k) imageId (startOpened inp r s)).boot) hopened (by show r.sequence + 1 + 1 < _; omega) _

/-- Settles O12: each kind of start reaches `blankModule` (`blankStart_blankModule`), and a start with a good record the image of its first
slot (`startFrom_of_record`, `chooseImage_of_good`). -/
theorem startsRunTheFirstGoodImage : Obligations.StartsRunTheFirstGoodImage := by
  unfold Obligations.StartsRunTheFirstGoodImage
  refine ⟨⟨fun inp s hoff hlow => ?_, fun inp s hwait hpin => ?_, fun inp s hoff hhigh => ?_, fun inp s hreset => ?_,
    fun inp s hwait hpin => ?_, fitInputs_spec⟩, fun inp s r hnewest htrial hinj hflash hfound hsequence => ?_⟩
  · exact ⟨_, (exec_coldStart_of_off hoff).trans (congrArg _ (coldStart_of_reset_low hlow)), rfl, rfl, rfl⟩
  · refine ⟨_, (exec_brownOutRestart_of_wait hwait).trans (congrArg _ (if_pos (by simp [hpin]))), rfl, rfl, hpin⟩
  · refine ⟨_, (exec_coldStart_of_off hoff).trans (congrArg _ (coldStart_of_reset_high hhigh)),
      blankStart_blankModule (sameFlash_of_eq rfl rfl rfl) false inp _, rfl, rfl,
      (exec_brownOutRestart_of_off hoff).trans (congrArg _ (coldStart_of_reset_high hhigh))⟩
  · exact ⟨_, exec_warmResetResume_of_warmReset hreset, blankStart_blankModule (sameFlash_of_eq rfl rfl rfl) true inp _, rfl, rfl⟩
  · have hhigh : ¬ s.life.resetPinHigh.isNone = true := by simpa using hpin
    exact ⟨_, (exec_brownOutRestart_of_wait hwait).trans (congrArg _ (if_neg hhigh)),
      blankStart_blankModule (sameFlash_resetSteps _ _ (withInput 21600 s)) true inp _, rfl⟩
  · intro b k v hgood
    refine ⟨imageChosen k v.imageId { r with startCount := r.startCount + 1 } (startOpened inp r s), ?_, ?_, ?_, ?_, ?_, rfl, rfl, rfl, rfl⟩
    · rw [startFrom_of_record hnewest htrial hinj hflash hfound]
      exact chooseImage_of_good (s := startOpened inp r s) hinj hgood
    · rw [startCount, newestRecord_imageChosen hnewest hsequence]
      exact runningRecord_startCount _ _
    · rw [newestRecord_imageChosen hnewest hsequence]
      rfl
    · rw [newestRecord_imageChosen hnewest hsequence]
      exact congrArg some (runningRecord_firstSlot (r := { r with startCount := r.startCount + 1 }) htrial)
    · rw [newestRecord_imageChosen hnewest hsequence]
      rfl

/-! ### Module warm resets and the loss of input (R88–R90, R492) -/

theorem moduleResetN_of_reset {s : State}
    (h : s.life.power = .running ∨ s.life.power = .starting ∨ s.life.power = .hold ∨ s.life.power = .trip) :
    moduleResetN s = resetPinLow (beginWarmReset 0x120A s) := by
  rcases h with h | h | h | h <;> simp [moduleResetN, h]

theorem moduleResetN_of_waiting {s : State} (h : s.life.power = .warmReset ∨ s.life.power = .brownOut) :
    moduleResetN s = resetPinLow s := by
  rcases h with h | h <;> simp [moduleResetN, h]

theorem exec_inputBrownOut_of_powered {mv : Nat} {s : State} (hmv : mv ≤ 26400) (hon : s.life.power ≠ .off) :
    exec (.inputBrownOut mv) s = .next (if mv < 12000 then losePower s
      else if mv < 19500 ∧ s.life.power ≠ .trip ∧ s.life.power ≠ .hold then withInput mv (resetSteps .brownOut s.life.keptCause s)
      else withInput mv s) :=
  (if_neg (Nat.not_lt.mpr hmv)).trans (congrArg _ (if_neg hon))

/-- An input in range is noted in units of 10 mV. -/
theorem withInput_of_range {mv : Nat} (hmv : mv ≤ 26400) (s : State) :
    withInput mv s = { s with life := { s.life with inputMv := mv }, power := { s.power with vIn := mv / 10 } } := by
  have hmin : min (mv / 10) 0xFFFF = mv / 10 := by omega
  simp only [withInput, hmin]

/-- Settles O13: a warm reset and a brown-out are `resetSteps`, the loss of the always-on domain `losePower`. -/
theorem resetsAndInputLossClear : Obligations.ResetsAndInputLossClear := by
  unfold Obligations.ResetsAndInputLossClear
  refine ⟨⟨fun s hpower => ?_, fun s hpower => ?_⟩, ⟨fun mv s hon htrip hhold hlow hhigh => ?_, fun mv s hon hkeep hmv => ?_, fun s => ?_⟩,
    fun mv x s hmv hx => ?_⟩
  · obtain ⟨hrevoked, hversion⟩ := endSession_fuses s.boot
    exact ⟨_, congrArg Host.Outcome.next (moduleResetN_of_reset hpower), rfl, rfl, rfl, fun a => memGet_flashOnly_below s.mem,
      fun a => memGet_flashOnly_flash s.mem, rfl, rfl, rfl, rfl, rfl, rfl, rfl, rfl, rfl, rfl, rfl, rfl, rfl, rfl, rfl, hrevoked, hversion⟩
  · exact congrArg _ (moduleResetN_of_waiting hpower)
  · have hbrown : mv < 19500 ∧ s.life.power ≠ .trip ∧ s.life.power ≠ .hold := ⟨hhigh, htrip, hhold⟩
    have hmv : mv ≤ 26400 := by omega
    rw [exec_inputBrownOut_of_powered hmv hon, if_neg (Nat.not_lt.mpr hlow), if_pos hbrown, withInput_of_range hmv]
    exact ⟨_, rfl, rfl, rfl, rfl, fun a => memGet_flashOnly_below s.mem, fun a => memGet_flashOnly_flash s.mem, rfl, rfl, rfl, rfl⟩
  · have hnotBrown : ¬ (mv < 19500 ∧ s.life.power ≠ .trip ∧ s.life.power ≠ .hold) := by
      rintro ⟨hlt, htrip, hhold⟩
      rcases hkeep with h | ⟨h | h, _⟩
      · omega
      · exact htrip h
      · exact hhold h
    have hnotLost : ¬ mv < 12000 := by omega
    rw [exec_inputBrownOut_of_powered hmv hon, if_neg hnotLost, if_neg hnotBrown, withInput_of_range hmv]
  · refine ⟨losePower s, rfl, fun hon mv hmv => ?_, rfl, rfl, rfl, rfl, fun a => memGet_flashOnly_below s.mem,
      fun a => memGet_flashOnly_flash s.mem, rfl, rfl, rfl, rfl, rfl⟩
    rw [exec_inputBrownOut_of_powered (by omega) hon, if_pos hmv]
  · subst hx
    exact ⟨if_pos hmv, if_pos hmv, if_pos hmv, if_pos hmv⟩

end Sys2Proof.Machine
end

