-- ==== Sys2Proof/Proofs/EpochsAndRoles.lean ====
section
/-!
PROOFS. Stale-epoch notices, epoch advances, unit messages that are refused, and the quarantine of an idle bench (R25–R36, R92, R374).
-/

namespace Sys2Proof.Machine

/-! ### A stale-epoch notice (R35, R36, R244) -/

theorem transferTask_of_issued {s : State} {x : Transfer} {r : Nat} {t : Task} (hring : x.ring = some r)
    (hfind : findTask s r x.seq = some t) (hphase : t.phase = .issued) : transferTask s x = some t := by
  simp [transferTask, hring, hfind, Task.running, hphase]

/-- With no BARRIER behind the transfer its ring keeps the loss. -/
theorem failBarriers_of_none {x : Transfer} {r : Nat} {s : State} (hring : x.ring = some r)
    (hnone : (s.tasks.all fun t => !(t.ring == r && t.header.type == .barrier && t.running && decide (x.seq < t.seq))) = true) (code : W16) :
    failBarriers x code s = updRing r (fun q => { q with lost := q.lost ++ [(x.seq, code, x.handle)] }) s := by
  have hempty : (s.tasks.filter fun t => t.ring == r && t.header.type == .barrier && t.running && decide (x.seq < t.seq)) = [] := by
    rw [List.filter_eq_nil_iff]
    intro t ht
    simpa only [Bool.not_eq_true', Bool.not_eq_true] using List.all_eq_true.mp hnone t ht
  simp only [failBarriers, hring, hempty]

theorem exec_staleEpochNotice {n : StaleNotice} {x : Transfer} {s : State} (hfind : findTransfer s n.transfer = some x)
    (hstate : x.state ≠ .leaving) : exec (.staleEpochNotice n) s =
      .next (staleAtSender x (n.holder.toNat, n.present * 2 ^ 32 + n.holderEpoch, n.state) (failBarriers x 0x1401 (dropTransfer x.id s))) := by
  show execStaleEpochNotice n s = _
  cases hx : x.state with
  | leaving => exact absurd hx hstate
  | held => simp [execStaleEpochNotice, hfind, hx]
  | sent a => simp [execStaleEpochNotice, hfind, hx]

/-! ### Epoch advances (R31, R32) -/

theorem roleOf_updRole_self (n : Nat) (f : RoleEntry → RoleEntry) (s : State) : roleOf (updRole n f s) n = f (roleOf s n) := by
  rw [roleOf_updRole, if_pos rfl]

theorem epochOf_updRole_self (n : Nat) (f : RoleEntry → RoleEntry) (s : State) :
    epochOf (updRole n f s) n = moduleGen s * 65536 + (f (roleOf s n)).unitGen := by
  rw [epochOf, roleOf_updRole_self]
  rfl

/-! ### Unit messages beside R33's -/

section Messages

variable {m : UnitMsg} {s : State} {n : Nat}

theorem unitFate_of_error {id : W64} {epoch : Nat} {c : W16} (h : unitBench s id = .error c) : unitFate s id epoch = .refused c := by
  simp [unitFate, h]

theorem unitFate_of_no_partition {id : W64} {epoch : Nat} (hbench : unitBench s id = .ok n) (hpart : (roleOf s n).partition = none) :
    unitFate s id epoch = .stale n := by
  simp [unitFate, hbench, hpart]

theorem unitFate_of_stale_or_no_partition (hbench : unitBench s m.target = .ok n)
    (h : epochOf s n ≠ m.epoch ∨ (roleOf s n).partition = none) : unitFate s m.target m.epoch = .stale n :=
  h.elim (unitFate_stale hbench) (unitFate_of_no_partition hbench)

/-- UNIT_MESSAGE refuses a message with a code: its bench is none of this module's, or window 255 is closed to its sender. -/
inductive MessageRefused (m : UnitMsg) (s : State) (c : W16) : Prop
  | target (h : unitBench s m.target = .error c)
  | window (n : Nat) (hfate : unitFate s m.target m.epoch = .taken n) (h : unitRefusal s (messageOrigin m s) false = some c)

/-- It is answered with its code, or told to its sender of this module. -/
theorem unitMessage_of_refused (harrives : MessageArrives m s) {c : W16} (hrefused : MessageRefused m s c) : unitMessage m s =
    if m.origin == 0xFFFF || m.origin == moduleIndex s then rejectedAtSender (messageSender s m) c s else answerTo m.origin c [] s := by
  cases hrefused with
  | target h => simp only [unitMessage, if_neg harrives.not_ignored, unitFate_of_error h]
  | window n hfate h => simp only [unitMessage, if_neg harrives.not_ignored, hfate, ownIndex_eq_messageOrigin, h]

theorem unitMessage_of_refused_foreign (harrives : MessageArrives m s) {c : W16} (hrefused : MessageRefused m s c)
    (hforeign : ¬ MessageFromHere m s) : unitMessage m s = answerTo m.origin c [] s := by
  rw [unitMessage_of_refused harrives hrefused, if_neg (mt (messageFromHere_iff m s).mp hforeign)]

theorem unitMessage_of_refused_task (harrives : MessageArrives m s) {c : W16} (hrefused : MessageRefused m s c)
    (hown : MessageFromHere m s) {r q : Nat} {t : Task} (htask : m.task = some (r, q)) (hfind : findTask s r q = some t)
    (hphase : t.phase = .issued) : unitMessage m s = failTask t c s := by
  rw [unitMessage_of_refused harrives hrefused, if_pos ((messageFromHere_iff m s).mpr hown), rejectedAtSender,
    transferTask_messageSender_of_task htask hfind hphase]

/-- The record of a stale message of no task and no hart. -/
theorem transferRecord_messageSender_of_nobody (s : State) (htask : m.task = none) (hhart : m.hart = none) (d0 d1 d2 : Nat) :
    transferRecord (messageSender s m) 0x1401 d0 d1 d2 s =
      { code := 0x1401, source := srcModule s, detail0 := BitVec.ofNat 64 d0, detail1 := BitVec.ofNat 64 d1
        detail2 := BitVec.ofNat 32 d2 } := by
  simp [transferRecord, messageSender, htask, hhart]

end Messages

/-! ### The quarantine of a bench with nothing running (R29, R92, R449) -/

section Quarantine

variable {s : State} {n : Nat}

theorem quarantineEnds_of_idle (hidle : runningOn s n = []) :
    quarantineEnds n s = discardLeaving (fun t => t.bench == some n) s := by
  simp [quarantineEnds, hidle]

/-- With nothing to end, its role goes to the bench that stands by for it. -/
theorem quarantineTaker_of_idle (hidle : runningOn s n = []) (hrole : (roleOf s n).role ≠ none) :
    quarantineTaker n s = standbyFor s n := by
  rw [quarantineTaker, if_pos (Option.isSome_iff_ne_none.mpr hrole), quarantineEnds_of_idle hidle]
  rfl

/-- The fields of a quarantine that its roles do not hold. -/
theorem quarantineCore_stores (n : Nat) (s : State) :
    (quarantineCore n s).mem = (quarantineEnds n s).mem ∧ (quarantineCore n s).err = (quarantineEnds n s).err ∧
      (quarantineCore n s).scratch = (quarantineEnds n s).scratch.dropWhere (fun a => a / scratchSize == n) := by
  have hrole (u : State) (role taker : Option Nat) : (handRole n role taker u).mem = u.mem ∧ (handRole n role taker u).scratch = u.scratch := by
    cases taker <;> exact ⟨rfl, rfl⟩
  obtain ⟨hmem, hscratch⟩ := hrole (quarantineEnds n s) (roleOf s n).role
    (if (roleOf s n).role.isSome then standbyFor (quarantineEnds n s) n else none)
  exact ⟨hmem, handRole_err n _ _ (quarantineEnds n s), congrArg (fun m => m.dropWhere fun a => a / scratchSize == n) hscratch⟩

theorem quarantine_of_active {cause : W16} (hbusy : (s.groveResets.get {} (benchGrove n)).busy = false)
    (hstate : (roleOf s n).state ≠ .quarantined) (hadvances : quarantineExhausts s n = false) :
    quarantine n cause s = recordQuarantine (benchGrove n) [n] cause (quarantineCore n s) := by
  simp [quarantine, quarantineAll, hbusy, quarantineNow, hstate, quarantineEach, hadvances]

theorem roleOf_handRole_bench {taker : Option Nat} (htaker : taker ≠ some n) (role : Option Nat) (s : State) :
    roleOf (handRole n role taker s) n =
      { changeRole none (roleOf s n) with state := .quarantined, advances := (roleOf s n).advances + 1 } := by
  have hgone : roleOf (dueAdvance n (updRole n (fun e => { changeRole none e with state := .quarantined }) s)) n =
      { changeRole none (roleOf s n) with state := .quarantined, advances := (roleOf s n).advances + 1 } := by
    rw [dueAdvance, roleOf_updRole_self, roleOf_updRole_self]
    rfl
  cases taker with
  | none => exact hgone
  | some m =>
    have hm : n ≠ m := fun h => htaker (h ▸ rfl)
    simp only [handRole]
    rw [roleOf_dueAdvance_ne hm, roleOf_updRole, if_neg hm]
    exact hgone

theorem roleOf_handRole_some {m : Nat} (hm : m ≠ n) (role : Option Nat) (s : State) :
    roleOf (handRole n role (some m) s) m = { changeRole role (roleOf s m) with state := .active, advances := (roleOf s m).advances + 1 } := by
  simp only [handRole]
  rw [dueAdvance, roleOf_updRole_self, roleOf_updRole_self, roleOf_dueAdvance_ne hm, roleOf_updRole, if_neg hm]
  rfl

end Quarantine

theorem benchBits_of_bench (lo n : Nat) :
    benchBits lo [n] = if lo ≤ n % 128 ∧ n % 128 < lo + 64 then 2 ^ (n % 128 - lo) else 0 := by
  simp [benchBits]

/-- DETAIL0 and DETAIL1 name one bench of the grove by its bit (R449). -/
theorem detailBits_of_bench (n : Nat) :
    BitVec.ofNat 64 (benchBits 0 [n]) = (if n % 128 < 64 then BitVec.ofNat 64 (2 ^ (n % 128)) else 0) ∧
      BitVec.ofNat 64 (benchBits 64 [n]) = if n % 128 < 64 then 0 else BitVec.ofNat 64 (2 ^ (n % 128 - 64)) := by
  have hlt : n % 128 < 128 := Nat.mod_lt _ (by decide)
  generalize hb : n % 128 = b at hlt
  simp only [benchBits_of_bench, hb]
  by_cases h : b < 64
  · have hlow : 0 ≤ b ∧ b < 0 + 64 := ⟨Nat.zero_le _, h⟩
    have hnotHigh : ¬ (64 ≤ b ∧ b < 64 + 64) := fun hb => Nat.not_le.mpr h hb.1
    simp only [if_pos h, if_pos hlow, if_neg hnotHigh, Nat.sub_zero, BitVec.ofNat_eq_ofNat, and_self]
  · have hnotLow : ¬ (0 ≤ b ∧ b < 0 + 64) := fun hb => h (by simpa using hb.2)
    have hhigh : 64 ≤ b ∧ b < 64 + 64 := ⟨Nat.not_lt.mp h, hlt⟩
    simp only [if_neg h, if_neg hnotLow, if_pos hhigh, BitVec.ofNat_eq_ofNat, and_self]

/-- The record of a quarantine is delivered though its grove has lost its HUB (R452). -/
theorem undelivered_of_quarantine {e : ErrRecord} (hcode : e.code = 0x1211) (s : State) : undelivered s e = false := by
  simp [undelivered, hcode]

theorem srcGrove_congr {s t : State} (h : t.cfg = s.cfg) (g : Nat) : srcGrove t g = srcGrove s g := by
  simp only [srcGrove, mladyth, moduleIndex, h]

section Idle

variable {s : State} {n : Nat}

theorem roleOf_quarantineCore_of_idle (hidle : runningOn s n = []) (hrole : (roleOf s n).role ≠ none) (k : Nat) :
    roleOf (quarantineCore n s) k = roleOf (handRole n (roleOf s n).role (standbyFor s n) s) k := by
  rw [roleOf_quarantineCore, quarantineTaker_of_idle hidle hrole]

theorem quarantineCore_mem_of_idle (hidle : runningOn s n = []) : (quarantineCore n s).mem = s.mem := by
  rw [(quarantineCore_stores n s).1, quarantineEnds_of_idle hidle]
  rfl

theorem quarantineCore_err_of_idle (hidle : runningOn s n = []) : (quarantineCore n s).err = s.err := by
  rw [(quarantineCore_stores n s).2.1, quarantineEnds_of_idle hidle]
  rfl

theorem quarantineCore_cfg_of_idle (hidle : runningOn s n = []) : (quarantineCore n s).cfg = s.cfg := by
  have hcfg (taker : Option Nat) : (handRole n (roleOf s n).role taker (quarantineEnds n s)).cfg = (quarantineEnds n s).cfg := by
    cases taker <;> rfl
  refine (hcfg _).trans ?_
  rw [quarantineEnds_of_idle hidle]
  rfl

/-- The bench's own scratch reads zero after it, and every other byte as before. -/
theorem quarantineCore_scratch_of_idle (hidle : runningOn s n = []) (a : Nat) :
    memGet (quarantineCore n s).scratch a = if a / scratchSize = n then 0 else memGet s.scratch a := by
  rw [(quarantineCore_stores n s).2.2, quarantineEnds_of_idle hidle, memGet, Table.get_dropWhere]
  simp only [beq_iff_eq]
  rfl

end Idle

@[simp] theorem roleOf_recordQuarantine (g : Nat) (ns : List Nat) (cause : W16) (s : State) (k : Nat) :
    roleOf (recordQuarantine g ns cause s) k = roleOf s k := by
  simp [roleOf, recordQuarantine]

/-- What the record of a quarantine says (R449). -/
theorem recordQuarantine_of_room {s : State} (hroom : queueFull s.err = false) (g : Nat) (ns : List Nat) (cause : W16) :
    let r := recordAt (recordQuarantine g ns cause s).err s.err.written
    r.code = 0x1211 ∧ r.source = srcGrove s g ∧ r.detail0 = BitVec.ofNat 64 (benchBits 0 ns) ∧
      r.detail1 = BitVec.ofNat 64 (benchBits 64 ns) ∧ r.detail2 = BitVec.ofNat 32 cause.toNat := by
  have hclass : classOf 0x1211 ≠ .corrected := by decide
  rw [recordQuarantine]
  obtain ⟨hcode, hsource, -, -, -, -, hdetail0, hdetail1, hdetail2, -⟩ :=
    report_written_fields (e := { code := 0x1211, source := srcGrove s g, detail0 := BitVec.ofNat 64 (benchBits 0 ns)
                                  detail1 := BitVec.ofNat 64 (benchBits 64 ns), detail2 := BitVec.ofNat 32 cause.toNat })
      hroom (undelivered_of_quarantine rfl s) hclass
  exact ⟨hcode, hsource, hdetail0, hdetail1, hdetail2⟩

theorem standbyFor_ne {s : State} {n m : Nat} (hstate : (roleOf s n).state = .active) (h : standbyFor s n = some m) : m ≠ n := by
  rintro rfl
  rw [(standbyFor_spec h).1] at hstate
  exact absurd hstate (by decide)

/-- Settles O15: a notice by `staleAtSender`; a message by its fate; the quarantine by `quarantineCore` and its record. -/
theorem epochsAndRolesMove : Obligations.EpochsAndRolesMove := by
  unfold Obligations.EpochsAndRolesMove
  refine ⟨⟨fun n x r t0 s hfind hstate hring htask hphase hnone => ?_, fun n s hdue hlast => ?_, fun n s hdue hmore => ⟨?_, ?_⟩⟩,
    fun m s hservice hlength hfits => ?_, fun g b s hservice hg hb _ hroom => ?_⟩
  · rw [exec_staleEpochNotice hfind hstate, failBarriers_of_none hring (by exact hnone)]
    exact congrArg _ (staleAtSender_of_task (transferTask_of_issued hring (by exact htask) hphase) _)
  · exact congrArg _ ((if_neg (by omega)).trans (if_pos hlast))
  · exact congrArg _ ((if_neg (by omega)).trans (if_neg (by omega)))
  · rw [epochOf_updRole_self]
    exact (Nat.add_assoc _ _ _).symm
  · intro own sender refused
    have harrives : MessageArrives m s := ⟨hservice, hlength, hfits⟩
    have hrefused {c : W16} (h : MessageRefused m s c) : refused c :=
      ⟨fun hforeign => congrArg _ (unitMessage_of_refused_foreign harrives h hforeign),
        fun r q t0 hown htask hfind hphase => congrArg _ (unitMessage_of_refused_task harrives h hown htask hfind hphase)⟩
    refine ⟨fun n hbench => ?_, fun c herror => hrefused (.target herror)⟩
    intro d
    refine ⟨fun heq hpart _ hadmit => ?_, fun c heq hpart hdenied => hrefused (.window n (unitFate_taken hbench hpart heq) hdenied),
      fun hpart hforeign => ?_, fun hstale hown htask hhart => ?_⟩
    · obtain ⟨-, -, hcount⟩ := unitMessage_writes_whole harrives (unitFate_taken hbench hpart heq) hadmit
      exact ⟨_, exec_unitMessage m s, hcount⟩
    · refine ⟨noticeTo m.origin d s, ?_, rfl, rfl⟩
      rw [exec_unitMessage, unitMessage_of_stale_foreign harrives (unitFate_of_no_partition hbench hpart) hforeign]
    · rw [exec_unitMessage, unitMessage_of_stale_own harrives (unitFate_of_stale_or_no_partition hbench hstale) hown,
        staleAtSender_of_no_task (transferTask_messageSender_of_no_task s htask), transferRecord_messageSender_of_nobody s htask hhart]
  · intro n hstate hrole hbusy hadvances hidle
    have hgrove : benchGrove n = g := by simp only [n, benchGrove]; omega
    have hplace : n % 128 = b := by simp only [n]; omega
    have hexec : exec (.benchQuarantine g b) s = .next (quarantine n 0 s) := if_pos ⟨hservice, hg, hb⟩
    clear_value n
    have hnotYet : (roleOf s n).state ≠ .quarantined := by rw [hstate]; decide
    have hquarantine : quarantine n 0 s = recordQuarantine g [n] 0 (quarantineCore n s) := by
      rw [quarantine_of_active (by rw [hgrove]; exact hbusy) hnotYet hadvances, hgrove]
    have hroles (k : Nat) := roleOf_quarantineCore_of_idle hidle hrole k
    have hbench := (hroles n).trans (roleOf_handRole_bench (fun h => standbyFor_ne hstate h rfl) _ s)
    have herr := quarantineCore_err_of_idle hidle
    obtain ⟨hcode, hsource, hdetail0, hdetail1, hdetail2⟩ :=
      recordQuarantine_of_room (s := quarantineCore n s) (by rw [herr]; exact hroom) g [n] 0
    rw [herr] at hcode hsource hdetail0 hdetail1 hdetail2
    rw [srcGrove_congr (quarantineCore_cfg_of_idle hidle)] at hsource
    obtain ⟨hlow, hhigh⟩ := detailBits_of_bench n
    rw [hplace] at hlow hhigh
    rw [hexec, hquarantine]
    refine ⟨_, rfl, ?_, ?_, ?_, ?_, fun m hm => ?_, hcode, hsource, hdetail0.trans hlow,
      hdetail1.trans hhigh, hdetail2, ?_, fun a ha => ?_, fun a ha => ?_⟩
    · rw [roleOf_recordQuarantine, hbench]
    · rw [roleOf_recordQuarantine, hbench]
      rfl
    · rw [roleOf_recordQuarantine, hbench]
      rfl
    · rw [roleOf_recordQuarantine, hbench]
    · rw [roleOf_recordQuarantine, hroles m, hm, roleOf_handRole_some (standbyFor_ne hstate hm)]
      exact ⟨rfl, rfl, rfl⟩
    · rw [recordQuarantine, report_mem, quarantineCore_mem_of_idle hidle]
    · rw [recordQuarantine, report_scratch, quarantineCore_scratch_of_idle hidle, if_pos ha]
    · rw [recordQuarantine, report_scratch, quarantineCore_scratch_of_idle hidle, if_neg ha]

end Sys2Proof.Machine
end

