-- ==== Sys2Proof/Proofs/WindowsAndSlots.lean ====
section
/-!
PROOFS. Window registers (R375, R390) and run-time slot tables (R383).
-/

namespace Sys2Proof.Machine

/-! ### Window registers (R375) -/

theorem windowOf_updWindow (w n : Nat) (f : Window → Window) (s : State) :
    windowOf (updWindow w f s) n = if n = w then f (windowOf s w) else windowOf s n :=
  Table.get_update s.fabric.windows {} n w f

theorem windowOf_updWindow_self (w : Nat) (f : Window → Window) (s : State) : windowOf (updWindow w f s) w = f (windowOf s w) := by
  rw [windowOf_updWindow, if_pos rfl]

theorem windowOf_updWindow_ne {w n : Nat} (h : n ≠ w) (f : Window → Window) (s : State) :
    windowOf (updWindow w f s) n = windowOf s n := by
  rw [windowOf_updWindow, if_neg h]

/-- ENABLE of a window that is neither enabled nor draining. -/
theorem windowCtlWrite_of_enable {w : Nat} {v : W64} {s : State} (hw : w < 256) (hbusy : (windowOf s w).busy = false)
    (henable : (windowOf s w).enable = false) (hv : v.getLsbD 63 = true) :
    windowCtlWrite w v s = updWindow w (fun _ =>
      if windowInOrder s w (windowFields v (windowOf s w)) then { windowFields v (windowOf s w) with enable := true, cfgErr := false }
      else { windowFields v (windowOf s w) with cfgErr := true }) s := by
  have hin : ¬ 256 ≤ w := by omega
  by_cases hok : windowInOrder s w (windowFields v (windowOf s w)) = true
  · simp [windowCtlWrite, hin, hbusy, henable, hv, hok]
  · simp [windowCtlWrite, hin, hbusy, henable, hv, hok]

/-- Clearing ENABLE of an enabled window. -/
theorem windowCtlWrite_of_clear {w : Nat} {v : W64} {s : State} (hw : w < 256) (hbusy : (windowOf s w).busy = false)
    (henable : (windowOf s w).enable = true) (hv : v.getLsbD 63 = false) :
    windowCtlWrite w v s = updFabric (fun f => { f with drainIssued := wrapAdd 32 f.drainIssued 1 })
      (updWindow w (fun w => { w with enable := false, busy := true }) s) := by
  have hin : ¬ 256 ≤ w := by omega
  simp only [windowCtlWrite, hin, hbusy, henable, hv, Bool.false_eq_true, or_self, if_false, if_true]

/-! ### Run-time slot tables (R383) -/

/-- With no timed transfer the switch moves the standby table and drops the claims of later slots. -/
theorem slotTableSwitch_of_untimed {s : State} (harmed : s.fabric.standby = .armed) (htime : s.fabric.switchTime ≤ s.fabric.time)
    (huntimed : (s.fabric.transfers.any (·.timed)) = false) : slotTableSwitch s = updFabric (fun f => { f with
      active := f.standbyTable, standby := .empty, standbyTable := {}
      claims := f.claims.filter fun c => decide (c.slotStart < s.fabric.switchTime) }) s := by
  have hnone : (s.fabric.transfers.filter (·.timed)) = [] := by
    rw [List.filter_eq_nil_iff]
    intro x hx
    exact Bool.not_eq_true _ ▸ List.any_eq_false.mp huntimed x hx
  have hnow : ¬ s.fabric.time < s.fabric.switchTime := by omega
  simp [slotTableSwitch, harmed, hnow, updFabric, hnone]

/-- Settles O23: each register write and each end of a copy, drain or switch takes its one branch. -/
theorem windowsAndSlotTablesSwitch : Obligations.WindowsAndSlotTablesSwitch := by
  unfold Obligations.WindowsAndSlotTablesSwitch
  refine ⟨fun w v s hw => ⟨fun hbusy henable hv => ?_, fun hbusy henable hv => ?_, fun hbusy => ?_⟩, fun s => ⟨fun hnear => ?_, fun hload => ?_,
    fun hloaded => ?_, fun harmed htime huntimed => ?_⟩⟩
  · refine ⟨_, congrArg Host.Outcome.next (windowCtlWrite_of_enable hw hbusy henable hv), rfl, windowOf_updWindow_self _ _ _,
      fun n hn => windowOf_updWindow_ne hn _ _⟩
  · exact ⟨_, congrArg Host.Outcome.next (windowCtlWrite_of_clear hw hbusy henable hv), windowOf_updWindow_self _ _ _, rfl, rfl,
      fun n hn => windowOf_updWindow_ne hn _ _⟩
  · exact ⟨_, congrArg Host.Outcome.next (if_pos hbusy), windowOf_updWindow_self _ _ _, rfl, rfl,
      fun n hn => windowOf_updWindow_ne hn _ _⟩
  · exact ⟨congrArg Host.Outcome.next (if_neg (by simp [hnear])), congrArg Host.Outcome.next (if_neg (by simp [hnear]))⟩
  · refine ⟨fun t ht => ?_, fun hnone => ?_⟩
    · show execSlotTableLoadDone s = _
      simp [execSlotTableLoadDone, hload, ht, updFabric]
    · show execSlotTableLoadDone s = _
      simp [execSlotTableLoadDone, hload, hnone, updFabric]
  · refine ⟨fun h => congrArg Host.Outcome.next (if_pos ⟨.inl hloaded, h⟩), fun h => congrArg Host.Outcome.next (if_neg fun hc => h hc.2)⟩
  · exact congrArg Host.Outcome.next (slotTableSwitch_of_untimed harmed htime huntimed)

end Sys2Proof.Machine
end

