-- ==== Sys2Proof/Proofs/BoomState.lean ====
section
/-!
PROOFS. Boom's operations: what each of them leaves of Boom's settings, of the error block and of the rest of the state (R394–R402, R415,
R416, R473).
-/

namespace Sys2Proof.Machine

/-! ### Tables of benches and groves -/

theorem benchPow_updBench (p : PowerBlock) (n m : Nat) (f : BenchPower → BenchPower) :
    benchPow (updBench p n f) m = if m = n then f (benchPow p n) else benchPow p m :=
  Table.get_update p.benches {} m n f

theorem grovePow_updGrove (p : PowerBlock) (g h : Nat) (f : GrovePower → GrovePower) :
    grovePow (updGrove p g f) h = if h = g then f (grovePow p g) else grovePow p h :=
  Table.get_update p.groves {} h g f

@[simp] theorem benchPow_updBench_self (p : PowerBlock) (n : Nat) (f : BenchPower → BenchPower) :
    benchPow (updBench p n f) n = f (benchPow p n) := by
  rw [benchPow_updBench, if_pos rfl]

theorem benchPow_updBench_ne (p : PowerBlock) {n m : Nat} (h : m ≠ n) (f : BenchPower → BenchPower) :
    benchPow (updBench p n f) m = benchPow p m := by
  rw [benchPow_updBench, if_neg h]

@[simp] theorem grovePow_updGrove_self (p : PowerBlock) (g : Nat) (f : GrovePower → GrovePower) :
    grovePow (updGrove p g f) g = f (grovePow p g) := by
  rw [grovePow_updGrove, if_pos rfl]

theorem grovePow_updGrove_ne (p : PowerBlock) {g h : Nat} (hne : h ≠ g) (f : GrovePower → GrovePower) :
    grovePow (updGrove p g f) h = grovePow p h := by
  rw [grovePow_updGrove, if_neg hne]

@[simp] theorem grovePow_updBench (p : PowerBlock) (n g : Nat) (f : BenchPower → BenchPower) :
    grovePow (updBench p n f) g = grovePow p g := rfl
@[simp] theorem benchPow_updGrove (p : PowerBlock) (n g : Nat) (f : GrovePower → GrovePower) :
    benchPow (updGrove p g f) n = benchPow p n := rfl
@[simp] theorem benches_updGrove (p : PowerBlock) (g : Nat) (f : GrovePower → GrovePower) : (updGrove p g f).benches = p.benches := rfl
@[simp] theorem groves_updBench (p : PowerBlock) (n : Nat) (f : BenchPower → BenchPower) : (updBench p n f).groves = p.groves := rfl
@[simp] theorem requests_updBench (p : PowerBlock) (n : Nat) (f : BenchPower → BenchPower) : (updBench p n f).requests = p.requests := rfl
@[simp] theorem requests_updGrove (p : PowerBlock) (g : Nat) (f : GrovePower → GrovePower) : (updGrove p g f).requests = p.requests := rfl

/-! ### Boom's settings -/

/-- What of a grove no grant, start or end of a start changes. -/
def GrovePower.settings (x : GrovePower) : GrovePower :=
  { x with pool := 0, pll := .off, startTimes := [], deferred := [], idleSince := 0 }

/-- What of Boom no grant and no throttle reason changes. -/
def PowerBlock.settings (p : PowerBlock) : PowerBlock :=
  { p with benches := {}, groves := {}, requests := [], order := [], turn := 0, acc := {}, running := [], activeFrom := {}, log := {},
           logCount := 0 }

/-- Both: what grants and throttle reasons leave of Boom. -/
def PowerBlock.core (p : PowerBlock) : PowerBlock × (Nat → GrovePower) := (p.settings, fun g => (grovePow p g).settings)

theorem core_updGrove {f : GrovePower → GrovePower} (hf : ∀ x, (f x).settings = x.settings) (p : PowerBlock) (g : Nat) :
    (updGrove p g f).core = p.core := by
  refine Prod.ext rfl (funext fun h => ?_)
  show (grovePow (updGrove p g f) h).settings = (grovePow p h).settings
  rw [grovePow_updGrove]
  split
  case isTrue heq => rw [hf, heq]
  case isFalse => rfl

@[simp] theorem core_updBench (p : PowerBlock) (n : Nat) (f : BenchPower → BenchPower) : (updBench p n f).core = p.core := rfl
theorem core_waits (p : PowerBlock) (os : List Nat) (rs : List GrantRequest) : { p with order := os, requests := rs }.core = p.core := rfl

@[simp] theorem core_poolAdd (p : PowerBlock) (g q : Nat) : (poolAdd p g q).core = p.core := by
  exact core_updGrove (by intro _; rfl) p g

@[simp] theorem core_revokeGrant (now reason n : Nat) (p : PowerBlock) : (revokeGrant now reason n p).core = p.core := by
  have hgrove := core_updGrove (f := fun x => { x with deferred := x.deferred.filter fun m => m != n }) (by intro _; rfl)
    (updBench p n fun b => { b with clock := .revoked, revoked := b.granted, granted := 0 }) (benchGrove n)
  rw [revokeGrant, core_waits, hgrove, core_updBench]

@[simp] theorem core_lowerGrant (n q : Nat) (p : PowerBlock) : (lowerGrant n q p).core = p.core := by
  simp [lowerGrant]

@[simp] theorem core_revokeUntil (now reason : Nat) (inScope : Nat → Bool) (ns : List Nat) (excess : Nat) (p : PowerBlock) :
    (revokeUntil now reason inScope ns excess p).core = p.core := by
  induction ns generalizing excess p with
  | nil => rfl
  | cons n ns ih =>
    unfold revokeUntil
    split
    · rfl
    · split
      · rw [ih, core_revokeGrant]
      · exact ih _ _

@[simp] theorem core_drainPools (gs : List Nat) (excess : Nat) (p : PowerBlock) : (drainPools gs excess p).core = p.core := by
  induction gs generalizing excess p with
  | nil => rfl
  | cons g gs ih => exact (ih _ _).trans (core_updGrove (f := fun x => { x with pool := x.pool - min excess (grovePow p g).pool }) (fun _ => rfl) p g)

@[simp] theorem core_fitBudget (now reason q : Nat) (p : PowerBlock) : (fitBudget now reason q p).core = p.core := by
  simp [fitBudget]

@[simp] theorem core_fitCap (now g : Nat) (p : PowerBlock) : (fitCap now g p).core = p.core := by
  simp [fitCap]

@[simp] theorem core_revokeAll (now reason : Nat) (p : PowerBlock) : (revokeAll now reason p).core = p.core := by
  simp [revokeAll]

@[simp] theorem core_reasonOn (time reason scope depth : Nat) (p : PowerBlock) : (reasonOn time reason scope depth p).core = p.core := by
  unfold reasonOn
  split <;> rfl

@[simp] theorem core_addReason (time reason : Nat) (before p : PowerBlock) : (addReason time reason before p).core = p.core := by
  unfold addReason
  split <;> rfl

@[simp] theorem core_reasonOff (time reason scope : Nat) (p : PowerBlock) : (reasonOff time reason scope p).core = p.core := by
  unfold reasonOff
  split
  · rfl
  · dsimp only
    split
    · rw [core_addReason]; rfl
    · exact (core_addReason _ _ _ _ :)

@[simp] theorem core_settleWaits (time : Nat) (p : PowerBlock) : (settleWaits time p).core = p.core := by
  unfold settleWaits
  dsimp only
  split <;> split <;> simp

@[simp] theorem core_lowerDepth (scope depth : Nat) (p : PowerBlock) : (lowerDepth scope depth p).core = p.core := rfl

@[simp] theorem core_setBudget (q : Nat) (p : PowerBlock) : (setBudget q p).core = { p with budget := q }.core := rfl

@[simp] theorem core_markRequest (r : GrantRequest) (reason : Nat) (p : PowerBlock) : (markRequest r reason p).core = p.core := rfl

@[simp] theorem core_startClock (now n : Nat) (p : PowerBlock) : (startClock now n p).core = p.core := by
  exact (core_updBench ..).trans (core_updGrove (by intro _; rfl) _ _)

@[simp] theorem core_startOrDefer (now n : Nat) (p : PowerBlock) : (startOrDefer now n p).core = p.core := by
  unfold startOrDefer
  dsimp only
  split
  · rfl
  · rfl
  all_goals
    split
    · exact core_startClock ..
    · exact (core_updGrove (by intro _; rfl) _ _).trans (core_updBench ..)

@[simp] theorem core_giveGrant (now : Nat) (r : GrantRequest) (p : PowerBlock) : (giveGrant now r p).core = p.core := by
  simp only [giveGrant, core_startOrDefer, core_waits, core_updBench]
  exact core_updGrove (by intro _; rfl) _ _

@[simp] theorem core_stretchClocks (g : Nat) (on : Bool) (p : PowerBlock) : (stretchClocks g on p).core = p.core := rfl

theorem settings_of_core {p q : PowerBlock} (h : q.core = p.core) : q.settings = p.settings := congrArg Prod.fst h
theorem groveSettings_of_core {p q : PowerBlock} (h : q.core = p.core) (g : Nat) : (grovePow q g).settings = (grovePow p g).settings :=
  congrFun (congrArg Prod.snd h) g

theorem budget_of_core {p q : PowerBlock} (h : q.core = p.core) : q.budget = p.budget := (congrArg PowerBlock.budget (settings_of_core h) :)
theorem measured_of_core {p q : PowerBlock} (h : q.core = p.core) : q.measured = p.measured :=
  (congrArg PowerBlock.measured (settings_of_core h) :)
theorem episode_of_core {p q : PowerBlock} (h : q.core = p.core) : q.episode = p.episode :=
  (congrArg PowerBlock.episode (settings_of_core h) :)

/-! ### Requests, pools and grants -/

@[simp] theorem benches_drainPools (gs : List Nat) (excess : Nat) (p : PowerBlock) : (drainPools gs excess p).benches = p.benches := by
  induction gs generalizing excess p with
  | nil => rfl
  | cons g gs ih => exact ih _ _

@[simp] theorem requests_drainPools (gs : List Nat) (excess : Nat) (p : PowerBlock) : (drainPools gs excess p).requests = p.requests := by
  induction gs generalizing excess p with
  | nil => rfl
  | cons g gs ih => exact ih _ _

@[simp] theorem order_drainPools (gs : List Nat) (excess : Nat) (p : PowerBlock) : (drainPools gs excess p).order = p.order := by
  induction gs generalizing excess p with
  | nil => rfl
  | cons g gs ih => exact ih _ _

theorem grovePow_drainPools_zero (gs : List Nat) (p : PowerBlock) (g : Nat) : grovePow (drainPools gs 0 p) g = grovePow p g := by
  induction gs generalizing p with
  | nil => rfl
  | cons h hs ih =>
    unfold drainPools
    simp only [Nat.zero_min, Nat.sub_zero, ih]
    rw [grovePow_updGrove]
    split
    case isTrue heq => rw [heq]
    case isFalse => rfl

theorem heldAll_congr {p q : PowerBlock} (h : q.benches = p.benches) : heldAll q = heldAll p := by
  simp only [heldAll, h]

theorem pooledAll_congr {p q : PowerBlock} (h : ∀ g, grovePow q g = grovePow p g) : pooledAll q = pooledAll p := by
  simp only [pooledAll, h]

@[simp] theorem revokeUntil_zero (now reason : Nat) (inScope : Nat → Bool) (ns : List Nat) (p : PowerBlock) :
    revokeUntil now reason inScope ns 0 p = p := by
  cases ns <;> simp [revokeUntil]

/-- Nothing is revoked while what is held and pooled lies within the budget. -/
theorem fitBudget_within {now reason q : Nat} {p : PowerBlock} (h : heldAll p + pooledAll p ≤ q) :
    fitBudget now reason q p = drainPools [0, 1, 2, 3] 0 p := by
  have hheld : heldAll (drainPools [0, 1, 2, 3] 0 p) - q = 0 := by
    rw [heldAll_congr (benches_drainPools ..)]; omega
  have hexcess : heldAll p + pooledAll p - q = 0 := by omega
  simp only [fitBudget, hexcess, hheld, revokeUntil_zero]

/-! ### Throttle reasons -/

/-- Fields of Boom that a throttle reason leaves: benches, groves, requests. -/
theorem reasonOn_shape (time reason scope depth : Nat) (p : PowerBlock) :
    ∃ xs fs, reasonOn time reason scope depth p = { p with running := xs, activeFrom := fs } := by
  unfold reasonOn
  split <;> exact ⟨_, _, rfl⟩

theorem reasonOff_shape (time reason scope : Nat) (p : PowerBlock) :
    ∃ xs as ls k, reasonOff time reason scope p = { p with running := xs, acc := as, log := ls, logCount := k } := by
  unfold reasonOff addReason logThrottle
  split
  · exact ⟨_, _, _, _, rfl⟩
  · dsimp only
    split <;> split <;> exact ⟨_, _, _, _, rfl⟩

theorem settleWaits_shape (time : Nat) (p : PowerBlock) :
    ∃ xs fs as ls k, settleWaits time p = { p with running := xs, activeFrom := fs, acc := as, log := ls, logCount := k } := by
  unfold settleWaits
  dsimp only
  split
  · obtain ⟨xs, fs, hone⟩ := reasonOn_shape time 1 moduleScope p.budget p
    simp only [hone]
    split
    · obtain ⟨ys, gs, htwo⟩ := reasonOn_shape time 2 moduleScope p.budget { p with running := xs, activeFrom := fs }
      exact ⟨_, _, _, _, _, htwo⟩
    · obtain ⟨ys, as, ls, k, htwo⟩ := reasonOff_shape time 2 moduleScope { p with running := xs, activeFrom := fs }
      exact ⟨_, _, _, _, _, htwo⟩
  · obtain ⟨xs, as, ls, k, hone⟩ := reasonOff_shape time 1 moduleScope p
    simp only [hone]
    split
    · obtain ⟨ys, gs, htwo⟩ := reasonOn_shape time 2 moduleScope p.budget { p with running := xs, acc := as, log := ls, logCount := k }
      exact ⟨_, _, _, _, _, htwo⟩
    · obtain ⟨ys, bs, ms, j, htwo⟩ := reasonOff_shape time 2 moduleScope { p with running := xs, acc := as, log := ls, logCount := k }
      exact ⟨_, _, _, _, _, htwo⟩

section
variable (time reason scope depth : Nat) (p : PowerBlock)

@[simp] theorem benches_reasonOn : (reasonOn time reason scope depth p).benches = p.benches := by
  obtain ⟨_, _, h⟩ := reasonOn_shape time reason scope depth p; rw [h]
@[simp] theorem groves_reasonOn : (reasonOn time reason scope depth p).groves = p.groves := by
  obtain ⟨_, _, h⟩ := reasonOn_shape time reason scope depth p; rw [h]
@[simp] theorem requests_reasonOn : (reasonOn time reason scope depth p).requests = p.requests := by
  obtain ⟨_, _, h⟩ := reasonOn_shape time reason scope depth p; rw [h]
@[simp] theorem order_reasonOn : (reasonOn time reason scope depth p).order = p.order := by
  obtain ⟨_, _, h⟩ := reasonOn_shape time reason scope depth p; rw [h]
@[simp] theorem benches_reasonOff : (reasonOff time reason scope p).benches = p.benches := by
  obtain ⟨_, _, _, _, h⟩ := reasonOff_shape time reason scope p; rw [h]
@[simp] theorem groves_reasonOff : (reasonOff time reason scope p).groves = p.groves := by
  obtain ⟨_, _, _, _, h⟩ := reasonOff_shape time reason scope p; rw [h]
@[simp] theorem requests_reasonOff : (reasonOff time reason scope p).requests = p.requests := by
  obtain ⟨_, _, _, _, h⟩ := reasonOff_shape time reason scope p; rw [h]
@[simp] theorem order_reasonOff : (reasonOff time reason scope p).order = p.order := by
  obtain ⟨_, _, _, _, h⟩ := reasonOff_shape time reason scope p; rw [h]
@[simp] theorem benches_settleWaits : (settleWaits time p).benches = p.benches := by
  obtain ⟨_, _, _, _, _, h⟩ := settleWaits_shape time p; rw [h]
@[simp] theorem groves_settleWaits : (settleWaits time p).groves = p.groves := by
  obtain ⟨_, _, _, _, _, h⟩ := settleWaits_shape time p; rw [h]
@[simp] theorem requests_settleWaits : (settleWaits time p).requests = p.requests := by
  obtain ⟨_, _, _, _, _, h⟩ := settleWaits_shape time p; rw [h]
@[simp] theorem order_settleWaits : (settleWaits time p).order = p.order := by
  obtain ⟨_, _, _, _, _, h⟩ := settleWaits_shape time p; rw [h]

/-- A reason that has been set is active. -/
theorem active_reasonOn : ((reasonOn time reason scope depth p).running.any fun r => r.reason == reason && r.scope == scope) = true := by
  unfold reasonOn
  split
  case isTrue h =>
    obtain ⟨r, hr, hits⟩ := List.any_eq_true.mp h
    have hboth : r.reason = reason ∧ r.scope = scope := by simpa using hits
    exact List.any_eq_true.mpr ⟨{ r with depth := min r.depth depth }, List.mem_map.mpr ⟨r, hr, if_pos hboth⟩, by simpa using hboth⟩
  case isFalse => simp

theorem active_reasonOn_anyScope : ((reasonOn time reason scope depth p).running.any fun r => r.reason == reason) = true := by
  obtain ⟨r, hr, hits⟩ := List.any_eq_true.mp (active_reasonOn time reason scope depth p)
  exact List.any_eq_true.mpr ⟨r, hr, (Bool.and_eq_true_iff.mp hits).1⟩

@[simp] theorem running_addReason (before : PowerBlock) : (addReason time reason before p).running = p.running := by
  unfold addReason
  split <;> rfl

/-- A reason that has ended is active no more. -/
theorem inactive_reasonOff : ((reasonOff time reason scope p).running.any fun r => r.reason == reason && r.scope == scope) = false := by
  unfold reasonOff
  split
  case h_1 hnone =>
    rw [List.find?_eq_none] at hnone
    exact List.any_eq_false.mpr hnone
  case h_2 =>
    have hgone : ((p.running.filter fun q => !(q.reason == reason && q.scope == scope)).any fun r =>
        r.reason == reason && r.scope == scope) = false := by
      rw [List.any_eq_false]
      intro r hr
      simpa only [Bool.not_eq_true', Bool.not_eq_true] using (List.mem_filter.mp hr).2
    dsimp only
    split
    · rw [running_addReason]; exact hgone
    · rw [logThrottle, running_addReason]; exact hgone

end

/-- Where no request waits for the peak budget, reason 0x02 is not active of the module. -/
theorem inactive_settleWaits {time : Nat} {p : PowerBlock} (h : (p.requests.any fun q => q.reason == 2) = false) :
    ((settleWaits time p).running.any fun r => r.reason == 2 && r.scope == moduleScope) = false := by
  unfold settleWaits
  dsimp only
  have htwo : ∀ q : PowerBlock, q.requests = p.requests → (q.requests.any fun q => q.reason == 2) = false := fun q hq => by rw [hq]; exact h
  split
  · rw [if_neg (by rw [htwo _ (by simp)]; simp)]
    exact inactive_reasonOff ..
  · rw [if_neg (by rw [htwo _ (by simp)]; simp)]
    exact inactive_reasonOff ..

/-! ### Changes of Boom in the state -/

/-- The state without Boom, the error block and the ports: what Boom's commands leave. -/
def State.beyondBoom (s : State) : State := { s with power := {}, err := {}, fabric := { s.fabric with ports := {} } }

@[simp] theorem beyondBoom_sendMaint (rows : List (List Byte)) (s : State) : (sendMaint rows s).beyondBoom = s.beyondBoom := by
  unfold sendMaint
  split <;> rfl

@[simp] theorem power_sendMaint (rows : List (List Byte)) (s : State) : (sendMaint rows s).power = s.power := by
  unfold sendMaint
  split <;> rfl

@[simp] theorem beyondBoom_updPower (f : PowerBlock → PowerBlock) (s : State) : (updPower f s).beyondBoom = s.beyondBoom :=
  beyondBoom_sendMaint _ { s with power := f s.power }

@[simp] theorem power_updPower (f : PowerBlock → PowerBlock) (s : State) : (updPower f s).power = f s.power :=
  power_sendMaint _ { s with power := f s.power }

@[simp] theorem beyondBoom_report (e : ErrRecord) (s : State) : (report e s).beyondBoom = s.beyondBoom := by
  obtain ⟨b, ps, h⟩ := reportAs_shape (classOf e.code) e s
  rw [report, h]; rfl

@[simp] theorem power_report (e : ErrRecord) (s : State) : (report e s).power = s.power := by
  obtain ⟨b, ps, h⟩ := reportAs_shape (classOf e.code) e s
  rw [report, h]

/-- What a change of Boom leaves of the error block: all but the rows the maintenance port sends. -/
theorem updPower_err (f : PowerBlock → PowerBlock) (s : State) : ∃ sent, (updPower f s).err = { s.err with maintRows := sent } :=
  sendMaint_err _ { s with power := f s.power }

@[simp] theorem recordAt_updPower (f : PowerBlock → PowerBlock) (s : State) (n : Nat) : recordAt (updPower f s).err n = recordAt s.err n :=
  recordAt_sendMaint _ _ n

@[simp] theorem written_updPower (f : PowerBlock → PowerBlock) (s : State) : (updPower f s).err.written = s.err.written := by
  obtain ⟨_, h⟩ := updPower_err f s; rw [h]
@[simp] theorem read_updPower (f : PowerBlock → PowerBlock) (s : State) : (updPower f s).err.read = s.err.read := by
  obtain ⟨_, h⟩ := updPower_err f s; rw [h]
@[simp] theorem inj_updPower (f : PowerBlock → PowerBlock) (s : State) : (updPower f s).err.inj = s.err.inj := by
  obtain ⟨_, h⟩ := updPower_err f s; rw [h]
@[simp] theorem suppressed_updPower (f : PowerBlock → PowerBlock) (s : State) : (updPower f s).err.suppressed = s.err.suppressed := by
  obtain ⟨_, h⟩ := updPower_err f s; rw [h]
@[simp] theorem queueFull_updPower (f : PowerBlock → PowerBlock) (s : State) : queueFull (updPower f s).err = queueFull s.err := by
  obtain ⟨_, h⟩ := updPower_err f s; rw [h]; rfl
@[simp] theorem firing_updPower (f : PowerBlock → PowerBlock) (s : State) : (updPower f s).err.firing = s.err.firing := by
  obtain ⟨_, h⟩ := updPower_err f s; rw [h]

section
variable {s t : State} (h : t.beyondBoom = s.beyondBoom)
include h

theorem mem_of_beyondBoom : t.mem = s.mem := (congrArg State.mem h :)
theorem tasks_of_beyondBoom : t.tasks = s.tasks := (congrArg State.tasks h :)
theorem rings_of_beyondBoom : t.rings = s.rings := (congrArg State.rings h :)
theorem life_of_beyondBoom : t.life = s.life := (congrArg State.life h :)
theorem cfg_of_beyondBoom : t.cfg = s.cfg := (congrArg State.cfg h :)
theorem part_of_beyondBoom : t.part = s.part := (congrArg State.part h :)
theorem now_of_beyondBoom : t.now = s.now := (congrArg State.now h :)
theorem time_of_beyondBoom : t.fabric.time = s.fabric.time := (congrArg (fun x : State => x.fabric.time) h :)

theorem boomRuns_of_beyondBoom : boomRuns t = boomRuns s := by
  simp only [boomRuns, life_of_beyondBoom h]

theorem srcModule_of_beyondBoom : srcModule t = srcModule s := by
  simp only [srcModule, moduleIndex, mladyth, cfg_of_beyondBoom h]

end

/-! ### Limits and budgets -/

/-- What of Boom the limits in W and P_other are formed from. -/
def PowerBlock.limitSettings (p : PowerBlock) : PowerBlock :=
  { inputLow := p.inputLow, vIn := p.vIn, fallback := p.fallback, softLimit := p.softLimit, otherMw := p.otherMw }

/-- What of Boom the limits and their quanta are formed from. -/
def PowerBlock.limits (p : PowerBlock) : PowerBlock × (Nat → Nat) := (p.limitSettings, fun g => (grovePow p g).trimSteps)

theorem limits_of_core {p q : PowerBlock} (h : q.core = p.core) : q.limits = p.limits :=
  Prod.ext (congrArg PowerBlock.limitSettings (settings_of_core h) :)
    (funext fun g => (congrArg GrovePower.trimSteps (groveSettings_of_core h g) :))

section
variable {s t : State} (hstate : t.beyondBoom = s.beyondBoom) (hlimits : t.power.limits = s.power.limits)
include hstate hlimits

theorem setpointMv_congr (g : Nat) : setpointMv t g = setpointMv s g := by
  have htrim : (grovePow t.power g).trimSteps = (grovePow s.power g).trimSteps := congrFun (congrArg Prod.snd hlimits) g
  simp only [setpointMv, part_of_beyondBoom hstate, htrim]

theorem quantaFor_congr (limit : Nat) : quantaFor t limit = quantaFor s limit := by
  have hother : t.power.otherMw = s.power.otherMw := (congrArg (fun x => x.1.otherMw) hlimits :)
  simp only [quantaFor, setpointMv_congr hstate hlimits, hother]

theorem sustainedLimit_congr : sustainedLimit t = sustainedLimit s := by
  have hlow : t.power.inputLow = s.power.inputLow := (congrArg (fun x => x.1.inputLow) hlimits :)
  have hvin : t.power.vIn = s.power.vIn := (congrArg (fun x => x.1.vIn) hlimits :)
  have hback : t.power.fallback = s.power.fallback := (congrArg (fun x => x.1.fallback) hlimits :)
  have hsoft : t.power.softLimit = s.power.softLimit := (congrArg (fun x => x.1.softLimit) hlimits :)
  simp only [sustainedLimit, softBudget, inputCap, fallbackCap, powerCfg, cfg_of_beyondBoom hstate, hlow, hvin, hback, hsoft]

theorem peakLimit_congr : peakLimit t = peakLimit s := by
  have hlow : t.power.inputLow = s.power.inputLow := (congrArg (fun x => x.1.inputLow) hlimits :)
  have hvin : t.power.vIn = s.power.vIn := (congrArg (fun x => x.1.vIn) hlimits :)
  have hback : t.power.fallback = s.power.fallback := (congrArg (fun x => x.1.fallback) hlimits :)
  simp only [peakLimit, inputCap, fallbackCap, powerCfg, cfg_of_beyondBoom hstate, hlow, hvin, hback]

theorem sustainedQuanta_congr : sustainedQuanta t = sustainedQuanta s := by
  rw [sustainedQuanta, sustainedLimit_congr hstate hlimits, quantaFor_congr hstate hlimits]; rfl

theorem peakQuanta_congr : peakQuanta t = peakQuanta s := by
  rw [peakQuanta, peakLimit_congr hstate hlimits, quantaFor_congr hstate hlimits]; rfl

end

section
variable {s t : State} (hstate : t.beyondBoom = s.beyondBoom) (hcore : t.power.core = s.power.core)
include hstate hcore

theorem baseQuanta_congr : baseQuanta t = baseQuanta s := by
  have hbraked : t.power.braked = s.power.braked := (congrArg PowerBlock.braked (settings_of_core hcore) :)
  have hmeasured : t.power.measured = s.power.measured := (congrArg PowerBlock.measured (settings_of_core hcore) :)
  have hbudget : t.power.budget = s.power.budget := (congrArg PowerBlock.budget (settings_of_core hcore) :)
  simp only [baseQuanta, hbraked, hmeasured, hbudget, sustainedQuanta_congr hstate (limits_of_core hcore)]

theorem boundQuanta_congr : boundQuanta t = boundQuanta s := by
  have hbraked : t.power.braked = s.power.braked := (congrArg PowerBlock.braked (settings_of_core hcore) :)
  have hepisode : t.power.episode = s.power.episode := (congrArg PowerBlock.episode (settings_of_core hcore) :)
  simp only [boundQuanta, hbraked, hepisode, peakQuanta_congr hstate (limits_of_core hcore), baseQuanta_congr hstate hcore]

end

/-- The budget in force does not change when it is stored. -/
theorem boundQuanta_setBudget (s : State) : boundQuanta { s with power := { s.power with budget := boundQuanta s } } = boundQuanta s := by
  show (if s.power.episode && !s.power.braked then peakQuanta s
    else if s.power.braked then 0 else if s.power.measured then boundQuanta s else sustainedQuanta s) = _
  cases hbraked : s.power.braked with
  | true => simp [boundQuanta, baseQuanta, hbraked]
  | false =>
    cases hepisode : s.power.episode with
    | true => simp [boundQuanta, hbraked, hepisode]
    | false =>
      cases hmeasured : s.power.measured with
      | true => simp
      | false => simp [boundQuanta, baseQuanta, hbraked, hepisode, hmeasured]

@[simp] theorem beyondBoom_refreshBudget (s : State) : (refreshBudget s).beyondBoom = s.beyondBoom := by
  simp [refreshBudget]

@[simp] theorem core_refreshBudget (s : State) : (refreshBudget s).power.core = { s.power with budget := boundQuanta s }.core := by
  simp [refreshBudget]

theorem budget_refreshBudget (s : State) : (refreshBudget s).power.budget = boundQuanta s :=
  (congrArg PowerBlock.budget (settings_of_core (core_refreshBudget s)) :)

theorem settings_refreshBudget (s : State) : (refreshBudget s).power.settings = { s.power with budget := boundQuanta s }.settings :=
  settings_of_core (core_refreshBudget s)

@[simp] theorem braked_refreshBudget (s : State) : (refreshBudget s).power.braked = s.power.braked :=
  (congrArg PowerBlock.braked (settings_refreshBudget s) :)
@[simp] theorem measured_refreshBudget (s : State) : (refreshBudget s).power.measured = s.power.measured :=
  (congrArg PowerBlock.measured (settings_refreshBudget s) :)
@[simp] theorem episode_refreshBudget (s : State) : (refreshBudget s).power.episode = s.power.episode :=
  (congrArg PowerBlock.episode (settings_refreshBudget s) :)
@[simp] theorem recovering_refreshBudget (s : State) : (refreshBudget s).power.recovering = s.power.recovering :=
  (congrArg PowerBlock.recovering (settings_refreshBudget s) :)
@[simp] theorem compareFrom_refreshBudget (s : State) : (refreshBudget s).power.compareFrom = s.power.compareFrom :=
  (congrArg PowerBlock.compareFrom (settings_refreshBudget s) :)
@[simp] theorem inputLow_refreshBudget (s : State) : (refreshBudget s).power.inputLow = s.power.inputLow :=
  (congrArg PowerBlock.inputLow (settings_refreshBudget s) :)
@[simp] theorem vIn_refreshBudget (s : State) : (refreshBudget s).power.vIn = s.power.vIn :=
  (congrArg PowerBlock.vIn (settings_refreshBudget s) :)
@[simp] theorem fallback_refreshBudget (s : State) : (refreshBudget s).power.fallback = s.power.fallback :=
  (congrArg PowerBlock.fallback (settings_refreshBudget s) :)
@[simp] theorem softLimit_refreshBudget (s : State) : (refreshBudget s).power.softLimit = s.power.softLimit :=
  (congrArg PowerBlock.softLimit (settings_refreshBudget s) :)
@[simp] theorem sleepUs_refreshBudget (s : State) : (refreshBudget s).power.sleepUs = s.power.sleepUs :=
  (congrArg PowerBlock.sleepUs (settings_refreshBudget s) :)
@[simp] theorem energy_refreshBudget (s : State) : (refreshBudget s).power.energy = s.power.energy :=
  (congrArg PowerBlock.energy (settings_refreshBudget s) :)
@[simp] theorem otherMw_refreshBudget (s : State) : (refreshBudget s).power.otherMw = s.power.otherMw :=
  (congrArg PowerBlock.otherMw (settings_refreshBudget s) :)
@[simp] theorem estimatedW_refreshBudget (s : State) : (refreshBudget s).power.estimatedW = s.power.estimatedW :=
  (congrArg PowerBlock.estimatedW (settings_refreshBudget s) :)
@[simp] theorem measuredW_refreshBudget (s : State) : (refreshBudget s).power.measuredW = s.power.measuredW :=
  (congrArg PowerBlock.measuredW (settings_refreshBudget s) :)
@[simp] theorem divergedSince_refreshBudget (s : State) : (refreshBudget s).power.divergedSince = s.power.divergedSince :=
  (congrArg PowerBlock.divergedSince (settings_refreshBudget s) :)

section
variable (time reason scope depth : Nat) (p : PowerBlock)

@[simp] theorem braked_reasonOff : (reasonOff time reason scope p).braked = p.braked :=
  (congrArg PowerBlock.braked (settings_of_core (core_reasonOff time reason scope p)) :)
@[simp] theorem measured_reasonOff : (reasonOff time reason scope p).measured = p.measured :=
  (congrArg PowerBlock.measured (settings_of_core (core_reasonOff time reason scope p)) :)
@[simp] theorem compareFrom_reasonOff : (reasonOff time reason scope p).compareFrom = p.compareFrom :=
  (congrArg PowerBlock.compareFrom (settings_of_core (core_reasonOff time reason scope p)) :)
@[simp] theorem inputLow_reasonOff : (reasonOff time reason scope p).inputLow = p.inputLow :=
  (congrArg PowerBlock.inputLow (settings_of_core (core_reasonOff time reason scope p)) :)
@[simp] theorem vIn_reasonOff : (reasonOff time reason scope p).vIn = p.vIn :=
  (congrArg PowerBlock.vIn (settings_of_core (core_reasonOff time reason scope p)) :)
@[simp] theorem budget_reasonOff : (reasonOff time reason scope p).budget = p.budget :=
  (congrArg PowerBlock.budget (settings_of_core (core_reasonOff time reason scope p)) :)
@[simp] theorem episode_reasonOff : (reasonOff time reason scope p).episode = p.episode :=
  (congrArg PowerBlock.episode (settings_of_core (core_reasonOff time reason scope p)) :)
@[simp] theorem braked_reasonOn : (reasonOn time reason scope depth p).braked = p.braked :=
  (congrArg PowerBlock.braked (settings_of_core (core_reasonOn time reason scope depth p)) :)
@[simp] theorem measured_reasonOn : (reasonOn time reason scope depth p).measured = p.measured :=
  (congrArg PowerBlock.measured (settings_of_core (core_reasonOn time reason scope depth p)) :)
@[simp] theorem compareFrom_reasonOn : (reasonOn time reason scope depth p).compareFrom = p.compareFrom :=
  (congrArg PowerBlock.compareFrom (settings_of_core (core_reasonOn time reason scope depth p)) :)
@[simp] theorem inputLow_reasonOn : (reasonOn time reason scope depth p).inputLow = p.inputLow :=
  (congrArg PowerBlock.inputLow (settings_of_core (core_reasonOn time reason scope depth p)) :)
@[simp] theorem vIn_reasonOn : (reasonOn time reason scope depth p).vIn = p.vIn :=
  (congrArg PowerBlock.vIn (settings_of_core (core_reasonOn time reason scope depth p)) :)
@[simp] theorem budget_reasonOn : (reasonOn time reason scope depth p).budget = p.budget :=
  (congrArg PowerBlock.budget (settings_of_core (core_reasonOn time reason scope depth p)) :)
@[simp] theorem episode_reasonOn : (reasonOn time reason scope depth p).episode = p.episode :=
  (congrArg PowerBlock.episode (settings_of_core (core_reasonOn time reason scope depth p)) :)

end

theorem boundQuanta_refreshBudget (s : State) : boundQuanta (refreshBudget s) = boundQuanta s :=
  (boundQuanta_congr (s := { s with power := { s.power with budget := boundQuanta s } }) (beyondBoom_refreshBudget s) (core_refreshBudget s)).trans
    (boundQuanta_setBudget s)

end Sys2Proof.Machine
end

