-- ==== Sys2Proof/Proofs/BudgetsAndBrake.lean ====
section
/-!
PROOFS. Budgets, episodes and the power brake (R397–R404, R412, R413, R420).
-/

namespace Sys2Proof.Machine

/-! ### Refills and restores -/

/-- A property that every grant, refill and mark keeps, and the beginning of an episode with them, is kept by restores. -/
structure KeptByGrants (P : State → Prop) : Prop where
  grant : ∀ s f, P s → (f s.power).core = s.power.core → P (updPower f s)
  episode : ∀ s f, P s → episodeAllowed s = true →
    (∀ p, (f p).core = { p with budget := peakQuanta (updPower (beginEpisode s.now) s) }.core) → P (updPower f (updPower (beginEpisode s.now) s))

theorem core_turn (p : PowerBlock) (k : Nat) : { p with turn := k }.core = p.core := rfl

variable {P : State → Prop}

theorem KeptByGrants.refill (h : KeptByGrants P) (g : Nat) {s : State} (hs : P s) : P (refill g s) := by
  unfold Machine.refill
  split
  · exact hs
  · exact h.grant _ _ hs ((core_turn _ _).trans (core_updGrove (by intro _; rfl) _ _))

theorem KeptByGrants.serveRequest (h : KeptByGrants P) (r : GrantRequest) {s : State} (hs : P s) : P (serveRequest r s) := by
  unfold Machine.serveRequest
  dsimp only
  split
  · exact h.grant _ _ hs (by simp)
  split
  · exact h.grant _ _ hs (by simp)
  split
  · exact h.grant _ _ hs (by simp)
  split
  case isTrue hpeak =>
    exact h.episode _ _ hs (Bool.and_eq_true_iff.mp hpeak).1 fun p => by simp
  case isFalse => exact h.grant _ _ hs (by simp)

theorem KeptByGrants.serveRestores (h : KeptByGrants P) (k : Nat) (passed : List Nat) {s : State} (hs : P s) :
    P (serveRestores k passed s) := by
  induction k generalizing passed s with
  | zero => exact hs
  | succ k ih =>
    unfold Machine.serveRestores
    split
    · exact hs
    case h_2 r _ =>
      have hpooled : P (if poolServes s.power r then s else Machine.refill (benchGrove r.bench) s) := by
        split
        · exact hs
        · exact h.refill _ hs
      dsimp only
      generalize (if poolServes s.power r then s else Machine.refill (benchGrove r.bench) s) = u at hpooled ⊢
      split
      · exact h.grant _ _ hpooled (by simp)
      · split
        · exact ih _ (h.serveRequest r hpooled)
        · exact ih _ hpooled

theorem KeptByGrants.restoreAll (h : KeptByGrants P) {s : State} (hs : P s) : P (restoreAll s) := by
  unfold Machine.restoreAll
  refine List.foldlRecOn (motive := P) _ _ (h.serveRestores _ _ hs) fun t ht i _ => ?_
  dsimp only
  split
  · exact ht
  · exact h.refill _ ht

/-! ### Budgets (R402, R403) -/

/-- The budget is the one under the binding limit, and Boom is not braked; the pins and the time of the next comparison stand. -/
def BudgetSettled (s t : State) : Prop :=
  t.beyondBoom = s.beyondBoom ∧ t.power.braked = false ∧ t.power.compareFrom = s.power.compareFrom ∧ t.power.budget = boundQuanta t

theorem budgetSettled_keptByGrants (s0 : State) : KeptByGrants (BudgetSettled s0) where
  grant := by
    intro s f ⟨hbeyond, hbraked, hcompare, hbudget⟩ hcore
    have hsettings : (f s.power).settings = s.power.settings := settings_of_core hcore
    refine ⟨by rw [beyondBoom_updPower, hbeyond], ?_, ?_, ?_⟩
    · rw [power_updPower]; exact (congrArg PowerBlock.braked hsettings).trans hbraked
    · rw [power_updPower]; exact (congrArg PowerBlock.compareFrom hsettings).trans hcompare
    · rw [boundQuanta_congr (beyondBoom_updPower f s) (by rw [power_updPower, hcore]), ← hbudget, power_updPower]
      exact (congrArg PowerBlock.budget hsettings :)
  episode := by
    intro s f ⟨hbeyond, hbraked, hcompare, _⟩ _ hcore
    have hpower : (updPower f (updPower (beginEpisode s.now) s)).power.core =
        { beginEpisode s.now s.power with budget := peakQuanta (updPower (beginEpisode s.now) s) }.core := by
      rw [power_updPower, power_updPower, hcore]
    have hsettings := settings_of_core hpower
    have hepisode : (updPower f (updPower (beginEpisode s.now) s)).power.episode = true := (congrArg PowerBlock.episode hsettings :)
    have hfree : (updPower f (updPower (beginEpisode s.now) s)).power.braked = false :=
      (congrArg PowerBlock.braked hsettings).trans hbraked
    refine ⟨by simp [hbeyond], hfree, (congrArg PowerBlock.compareFrom hsettings).trans hcompare, ?_⟩
    have hpeak : peakQuanta (updPower f (updPower (beginEpisode s.now) s)) = peakQuanta (updPower (beginEpisode s.now) s) :=
      peakQuanta_congr (beyondBoom_updPower ..) (by rw [limits_of_core hpower, power_updPower]; rfl)
    rw [boundQuanta, hepisode, hfree, hpeak]
    exact (congrArg PowerBlock.budget hsettings :)

theorem settled_refreshBudget (s : State) : (refreshBudget s).power.budget = boundQuanta (refreshBudget s) := by
  rw [budget_refreshBudget, boundQuanta_refreshBudget]

section
variable {s : State}

/-- Nothing but pools of no grant change when what is held and pooled lies within the budget. -/
theorem refreshBudget_within (h : heldAll s.power + pooledAll s.power ≤ boundQuanta s) :
    (refreshBudget s).power.benches = s.power.benches ∧ (refreshBudget s).power.requests = s.power.requests ∧
      ∀ g, grovePow (refreshBudget s).power g = grovePow s.power g := by
  have hfit : fitBudget s.now (budgetReason s) (boundQuanta s) (setBudget (boundQuanta s) s.power) =
      drainPools [0, 1, 2, 3] 0 (setBudget (boundQuanta s) s.power) := fitBudget_within h
  have hpower : (refreshBudget s).power =
      settleWaits s.fabric.time (drainPools [0, 1, 2, 3] 0 (setBudget (boundQuanta s) s.power)) := by
    rw [refreshBudget, power_updPower, hfit]
  rw [hpower]
  refine ⟨by simp [setBudget, lowerDepth], by simp [setBudget, lowerDepth], fun g => ?_⟩
  rw [grovePow, groves_settleWaits]
  exact grovePow_drainPools_zero _ _ g

/-- What a refill of the pools leaves. -/
theorem refill_keeps (g : Nat) (s : State) : (refill g s).beyondBoom = s.beyondBoom ∧ (refill g s).power.benches = s.power.benches ∧
    (refill g s).power.requests = s.power.requests ∧ (refill g s).power.core = s.power.core := by
  unfold refill
  split
  · exact ⟨rfl, rfl, rfl, rfl⟩
  · refine ⟨by simp, by simp, by simp, ?_⟩
    rw [power_updPower, core_turn]
    exact core_updGrove (by intro _; rfl) _ _

/-- What central Boom's turn over the groves leaves. -/
theorem refillRound_keeps (turn : Nat) (is : List Nat) (s : State) :
    let t := is.foldl (fun s i => let g := (turn + i) % 4; if refillQuanta s g = 0 then s else refill g s) s
    t.beyondBoom = s.beyondBoom ∧ t.power.benches = s.power.benches ∧ t.power.requests = s.power.requests ∧
      t.power.core = s.power.core := by
  refine List.foldlRecOn (motive := fun t : State => t.beyondBoom = s.beyondBoom ∧ t.power.benches = s.power.benches ∧
    t.power.requests = s.power.requests ∧ t.power.core = s.power.core) _ _ ⟨rfl, rfl, rfl, rfl⟩ fun t ht i _ => ?_
  obtain ⟨hbeyond, hbenches, hrequests, hcore⟩ := ht
  dsimp only
  split
  · exact ⟨hbeyond, hbenches, hrequests, hcore⟩
  · obtain ⟨hbeyond', hbenches', hrequests', hcore'⟩ := refill_keeps ((turn + i) % 4) t
    exact ⟨hbeyond'.trans hbeyond, hbenches'.trans hbenches, hrequests'.trans hrequests, hcore'.trans hcore⟩

theorem serveRestores_of_no_requests (hnone : s.power.requests = []) (k : Nat) : serveRestores k [] s = s := by
  cases k <;> simp [serveRestores, hnone, bestRestore]

/-- With no restore waiting, only the pools are refilled. -/
theorem restoreAll_of_no_requests (hnone : s.power.requests = []) : (restoreAll s).beyondBoom = s.beyondBoom ∧
    (restoreAll s).power.benches = s.power.benches ∧ (restoreAll s).power.requests = s.power.requests ∧
    (restoreAll s).power.core = s.power.core := by
  rw [restoreAll, serveRestores_of_no_requests hnone]
  exact refillRound_keeps s.power.turn [0, 1, 2, 3] s

/-! ### Episodes (R403) -/

theorem endEpisode_of_episode (now : Nat) {p : PowerBlock} (h : p.episode = true) : endEpisode now p =
    { p with
      episode := false, recovering := true, recoverSince := none
      recoveryNs := now - p.episodeStart, lastEpisodeUs := min ((now - p.episodeStart) / 1000) 0xFFFFFFFF
      requests := p.requests.map fun r => if r.reason = 2 then { r with reason := 1 } else r } := by
  simp [endEpisode, h]

/-- Every request of Boom waits for another reason than the peak budget. -/
def NoPeakWait (p : PowerBlock) : Prop := (p.requests.any fun q => q.reason == 2) = false

theorem noPeakWait_endEpisode (now : Nat) {p : PowerBlock} (h : p.episode = true) : NoPeakWait (endEpisode now p) := by
  rw [endEpisode_of_episode now h]
  show ((p.requests.map fun r => if r.reason = 2 then { r with reason := 1 } else r).any fun q => q.reason == 2) = false
  rw [List.any_eq_false]
  intro q hq
  obtain ⟨r, -, rfl⟩ := List.mem_map.mp hq
  split
  · simp
  · simpa using ‹¬ r.reason = 2›

theorem noPeakWait_revokeGrant {reason : Nat} (hreason : reason ≠ 2) (now n : Nat) {p : PowerBlock} (h : NoPeakWait p) :
    NoPeakWait (revokeGrant now reason n p) := by
  show ((p.requests.filter (fun r : GrantRequest => r.bench != n) ++ [_]).any fun q => q.reason == 2) = false
  rw [List.any_append, List.any_cons, List.any_nil, Bool.or_false, Bool.or_eq_false_iff]
  refine ⟨?_, by simpa using hreason⟩
  rw [List.any_eq_false]
  exact fun q hq => List.any_eq_false.mp h q (List.mem_filter.mp hq).1

theorem noPeakWait_revokeUntil {reason : Nat} (hreason : reason ≠ 2) (now : Nat) (inScope : Nat → Bool) (ns : List Nat) (excess : Nat)
    {p : PowerBlock} (h : NoPeakWait p) : NoPeakWait (revokeUntil now reason inScope ns excess p) := by
  induction ns generalizing excess p with
  | nil => exact h
  | cons n ns ih =>
    unfold revokeUntil
    split
    · exact h
    · split
      · exact ih _ (noPeakWait_revokeGrant hreason now n h)
      · exact ih _ h

theorem noPeakWait_fitBudget {reason : Nat} (hreason : reason ≠ 2) (now q : Nat) {p : PowerBlock} (h : NoPeakWait p) :
    NoPeakWait (fitBudget now reason q p) := by
  refine noPeakWait_revokeUntil hreason _ _ _ _ ?_
  rw [NoPeakWait, requests_drainPools]
  exact h

/-- An episode ends: the recovery begins, the sustained budget is in force again, and reason 0x02 is over. -/
theorem endEpisode_refreshed (hepisode : s.power.episode = true) (hbraked : s.power.braked = false) (hmeasured : s.power.measured = false) :
    let t := refreshBudget (updPower (endEpisode s.now) s)
    t.beyondBoom = s.beyondBoom ∧ t.power.episode = false ∧ t.power.recovering = true ∧ t.power.recoveryNs = s.now - s.power.episodeStart ∧
      t.power.lastEpisodeUs = min ((s.now - s.power.episodeStart) / 1000) 0xFFFFFFFF ∧ t.power.budget = sustainedQuanta s ∧
      (t.power.running.any fun r => r.reason == 2 && r.scope == moduleScope) = false := by
  intro t
  have hended := endEpisode_of_episode s.now hepisode
  have hpower : (updPower (endEpisode s.now) s).power = endEpisode s.now s.power := power_updPower _ _
  have hsettings : t.power.settings = { endEpisode s.now s.power with budget := boundQuanta (updPower (endEpisode s.now) s) }.settings := by
    rw [← hpower]; exact settings_of_core (core_refreshBudget _)
  have hbound : boundQuanta (updPower (endEpisode s.now) s) = sustainedQuanta s := by
    have heps : (updPower (endEpisode s.now) s).power.episode = false := by rw [hpower, hended]
    have hbrk : (updPower (endEpisode s.now) s).power.braked = false := by rw [hpower, hended]; exact hbraked
    have hmeas : (updPower (endEpisode s.now) s).power.measured = false := by rw [hpower, hended]; exact hmeasured
    have hlimits : (updPower (endEpisode s.now) s).power.limits = s.power.limits := by rw [hpower, hended]; rfl
    simp only [boundQuanta, baseQuanta, heps, hbrk, hmeas, Bool.false_and, Bool.false_eq_true, if_false]
    exact sustainedQuanta_congr (beyondBoom_updPower ..) hlimits
  have hreason : budgetReason (updPower (endEpisode s.now) s) ≠ 2 := by
    unfold budgetReason
    simp only [hpower, hended, hbraked, hmeasured, Bool.false_eq_true, if_false]
    split <;> decide
  rw [hended] at hsettings
  refine ⟨by simp [t], congrArg PowerBlock.episode hsettings, congrArg PowerBlock.recovering hsettings,
    congrArg PowerBlock.recoveryNs hsettings, congrArg PowerBlock.lastEpisodeUs hsettings, ?_, ?_⟩
  · exact (budget_refreshBudget _).trans hbound
  · show ((refreshBudget (updPower (endEpisode s.now) s)).power.running.any fun r => r.reason == 2 && r.scope == moduleScope) = false
    rw [refreshBudget, power_updPower]
    refine inactive_settleWaits (noPeakWait_fitBudget hreason _ _ ?_)
    rw [hpower]
    exact noPeakWait_endEpisode s.now hepisode

/-! ### The power brake (R412, R413) -/

end

theorem granted_le_of_cellsFind {n : Nat} {b : BenchPower} (cs : List (Nat × BenchPower)) (k : Nat) (h : cellsFind n cs = some b) :
    b.granted + k ≤ cs.foldl (fun k c => k + c.2.granted) k := by
  have hgrows : ∀ (cs : List (Nat × BenchPower)) (k : Nat), k ≤ cs.foldl (fun k c => k + c.2.granted) k := fun cs k =>
    List.foldlRecOn (motive := fun m => k ≤ m) _ _ le_rfl fun m hm c _ => by omega
  induction cs generalizing k with
  | nil => simp [cellsFind] at h
  | cons c cs ih =>
    simp only [cellsFind] at h
    split at h
    · obtain rfl : c.2 = b := Option.some.inj h
      have := hgrows cs (k + c.2.granted)
      simp only [List.foldl_cons]; omega
    · have := ih (k + c.2.granted) h
      simp only [List.foldl_cons]; omega

/-- A bench's grant is part of what is held. -/
theorem granted_le_heldAll (p : PowerBlock) (n : Nat) : (benchPow p n).granted ≤ heldAll p := by
  unfold benchPow Table.get
  cases h : cellsFind n p.benches.cells with
  | none => exact Nat.zero_le _
  | some b => exact granted_le_of_cellsFind p.benches.cells 0 h

theorem pool_le_pooledAll (p : PowerBlock) {g : Nat} (hg : g < 4) : (grovePow p g).pool ≤ pooledAll p := by
  show _ ≤ 0 + (grovePow p 0).pool + (grovePow p 1).pool + (grovePow p 2).pool + (grovePow p 3).pool
  obtain rfl | rfl | rfl | rfl : g = 0 ∨ g = 1 ∨ g = 2 ∨ g = 3 := by omega
  all_goals omega

theorem benchPow_revokeGrant (now reason n m : Nat) (p : PowerBlock) : benchPow (revokeGrant now reason n p) m =
    if m = n then { benchPow p n with clock := .revoked, revoked := (benchPow p n).granted, granted := 0 } else benchPow p m :=
  benchPow_updBench p n m _

theorem revokeAll_single {p : PowerBlock} {n : Nat} (horder : p.order = [n]) (hgranted : 0 < (benchPow p n).granted) (now reason : Nat) :
    revokeAll now reason p = revokeGrant now reason n p := by
  have hheld : heldAll p ≠ 0 := by have := granted_le_heldAll p n; omega
  simp [revokeAll, horder, revokeUntil, hheld, hgranted]

theorem endEpisode_order (now : Nat) (p : PowerBlock) : (endEpisode now p).order = p.order := by
  unfold endEpisode; split <;> rfl
theorem endEpisode_benches (now : Nat) (p : PowerBlock) : (endEpisode now p).benches = p.benches := by
  unfold endEpisode; split <;> rfl
theorem endEpisode_episode (now : Nat) (p : PowerBlock) : (endEpisode now p).episode = false := by
  unfold endEpisode
  split
  · simpa using ‹(!p.episode) = true›
  · rfl

theorem boomRuns_not_off {s : State} (h : boomRuns s = true) : s.life.power ≠ .off := by
  intro hoff
  simp [boomRuns, hoff] at h

theorem exec_powerBrake {s : State} (h : boomRuns s = true) :
    exec .powerBrake s = .next (applyBrake { s with life := { s.life with brakePinLow := true } }) := by
  show execPowerBrake s = _
  simp only [execPowerBrake, if_neg (boomRuns_not_off h), h, if_true]

/-- Boom as the brake leaves it, where one bench holds quanta. -/
theorem applyBrake_single {s : State} {n : Nat} (hbraked : s.power.braked = false) (horder : s.power.order = [n])
    (hgranted : 0 < (benchPow s.power n).granted) :
    (applyBrake s).power = reasonOn s.fabric.time 3 moduleScope 0 (settleWaits s.fabric.time
      (revokeGrant s.now 3 n (setBudget 0 { endEpisode s.now s.power with braked := true }))) := by
  have hbenches : ∀ m, benchPow (setBudget 0 { endEpisode s.now s.power with braked := true }) m = benchPow s.power m := fun m => by
    show (endEpisode s.now s.power).benches.get {} m = _
    rw [endEpisode_benches]; rfl
  have hsingle := revokeAll_single (p := setBudget 0 { endEpisode s.now s.power with braked := true }) (n := n)
    ((endEpisode_order s.now s.power).trans horder) (by rw [hbenches]; exact hgranted) s.now 3
  simp only [applyBrake, hbraked, Bool.false_eq_true, if_false]
  rw [power_updPower, hsingle]

theorem powerBrake_single {s : State} {n : Nat} (hbraked : s.power.braked = false) (horder : s.power.order = [n])
    (hgranted : 0 < (benchPow s.power n).granted) :
    let t := applyBrake s
    t.beyondBoom = s.beyondBoom ∧ t.power.braked = true ∧ t.power.episode = false ∧ t.power.budget = 0 ∧ boundQuanta t = 0 ∧
      (∀ m, benchPow t.power m = if m = n then { benchPow s.power n with clock := .revoked, revoked := (benchPow s.power n).granted, granted := 0 }
        else benchPow s.power m) ∧
      (t.power.running.any fun r => r.reason == 3) = true := by
  intro t
  have hpower := applyBrake_single hbraked horder hgranted
  have hcore : t.power.core = (setBudget 0 { endEpisode s.now s.power with braked := true }).core := by
    show (applyBrake s).power.core = _
    rw [hpower]; simp
  have hsettings := settings_of_core hcore
  have hset : t.power.braked = true := (congrArg PowerBlock.braked hsettings :)
  refine ⟨?_, hset, ?_, (congrArg PowerBlock.budget hsettings :), ?_, fun m => ?_, ?_⟩
  · simp [t, applyBrake, hbraked]
  · exact (congrArg PowerBlock.episode hsettings).trans (endEpisode_episode s.now s.power)
  · simp [boundQuanta, baseQuanta, hset]
  · show benchPow (applyBrake s).power m = _
    rw [hpower, benchPow, benches_reasonOn, benches_settleWaits]
    refine (benchPow_revokeGrant ..).trans ?_
    have hbenches : ∀ m, benchPow (setBudget 0 { endEpisode s.now s.power with braked := true }) m = benchPow s.power m := fun m => by
      show (endEpisode s.now s.power).benches.get {} m = _
      rw [endEpisode_benches]; rfl
    simp only [hbenches]
  · show ((applyBrake s).power.running.any fun r => r.reason == 3) = true
    rw [hpower]
    exact active_reasonOn_anyScope ..

theorem exec_powerBrakeRelease {s : State} (h : boomRuns s = true) :
    exec .powerBrakeRelease s = .next (releaseBrake { s with life := { s.life with brakePinLow := false } }) := by
  show execPowerBrakeRelease s = _
  unfold execPowerBrakeRelease
  dsimp only
  split
  case h_1 hpower hwaiting => simp [boomRuns, hpower, hwaiting] at h
  case h_2 => rw [if_pos h]

/-- BRAKED cleared: reason 0x03 ends, and no comparison is made for 200 µs. -/
def unbraked (s : State) : State :=
  updPower (fun p => reasonOff s.fabric.time 3 moduleScope { p with braked := false, compareFrom := s.now + 200000 }) s

@[simp] theorem beyondBoom_unbraked (s : State) : (unbraked s).beyondBoom = s.beyondBoom := beyondBoom_updPower ..

theorem power_unbraked (s : State) : (unbraked s).power =
    reasonOff s.fabric.time 3 moduleScope { s.power with braked := false, compareFrom := s.now + 200000 } := power_updPower ..

/-- Boom as the release leaves it before the restores: the budget is formed again, from the measured budget where that is in force. -/
def releasedBudget (s : State) : State :=
  refreshBudget (if (unbraked s).power.measured then
    updPower (fun p => { p with budget := quantaFor (unbraked s) (sustainedLimit (unbraked s) * 9 / 10) }) (unbraked s) else unbraked s)

theorem releaseBrake_of_braked {s : State} (h : s.power.braked = true) : releaseBrake s = restoreAll (releasedBudget s) := by
  simp only [releaseBrake, h, Bool.not_true, Bool.false_eq_true, if_false]
  rfl

theorem releasedBudget_settled (s : State) : (releasedBudget s).beyondBoom = s.beyondBoom ∧ (releasedBudget s).power.braked = false ∧
    (releasedBudget s).power.compareFrom = s.now + 200000 ∧
    (releasedBudget s).power.budget = boundQuanta (releasedBudget s) := by
  refine ⟨?_, ?_, ?_, settled_refreshBudget _⟩
  all_goals
    rw [releasedBudget]
    split
    · simp [power_unbraked]
    · simp [power_unbraked]

theorem budgetSettled_releaseBrake {s : State} (h : s.power.braked = true) :
    (releaseBrake s).beyondBoom = s.beyondBoom ∧ (releaseBrake s).power.braked = false ∧
    (releaseBrake s).power.compareFrom = s.now + 200000 ∧ (releaseBrake s).power.budget = boundQuanta (releaseBrake s) := by
  obtain ⟨hbeyond, hbraked, hcompare, hbudget⟩ := releasedBudget_settled s
  obtain ⟨hbeyond', hbraked', hcompare', hbudget'⟩ :=
    (budgetSettled_keptByGrants (releasedBudget s)).restoreAll ⟨rfl, hbraked, rfl, hbudget⟩
  rw [releaseBrake_of_braked h]
  exact ⟨hbeyond'.trans hbeyond, hbraked', hcompare'.trans hcompare, hbudget'⟩

/-- Not in measured-power control and outside an episode, the release changes no grant that lies within the sustained budget. -/
theorem releasedBudget_within {s : State} (hmeasured : s.power.measured = false) (hepisode : s.power.episode = false)
    (hfits : heldAll s.power + pooledAll s.power ≤ sustainedQuanta s) :
    (releasedBudget s).power.benches = s.power.benches ∧ (releasedBudget s).power.requests = s.power.requests ∧
      (∀ g, grovePow (releasedBudget s).power g = grovePow s.power g) ∧ baseQuanta (releasedBudget s) = sustainedQuanta s := by
  have hlimits : (unbraked s).power.limits = s.power.limits := by rw [power_unbraked, limits_of_core (core_reasonOff ..)]; rfl
  have hmeas : (unbraked s).power.measured = false := by rw [power_unbraked]; simpa using hmeasured
  have heps : (unbraked s).power.episode = false := by rw [power_unbraked]; simpa using hepisode
  have hbrk : (unbraked s).power.braked = false := by rw [power_unbraked]; simp
  have hbound : boundQuanta (unbraked s) = sustainedQuanta s := by
    simp only [boundQuanta, baseQuanta, heps, hmeas, hbrk, Bool.false_and, Bool.false_eq_true, if_false]
    exact sustainedQuanta_congr (beyondBoom_unbraked s) hlimits
  have hbenches : (unbraked s).power.benches = s.power.benches := by rw [power_unbraked]; simp
  have hgroves : ∀ g, grovePow (unbraked s).power g = grovePow s.power g := fun g => by rw [power_unbraked, grovePow, groves_reasonOff]; rfl
  have hrequests : (unbraked s).power.requests = s.power.requests := by rw [power_unbraked]; simp
  have hwithin := refreshBudget_within (s := unbraked s)
    (by rw [hbound, heldAll_congr hbenches, pooledAll_congr hgroves]; exact hfits)
  obtain ⟨hbenches', hrequests', hgroves'⟩ := hwithin
  have hrefreshed : releasedBudget s = refreshBudget (unbraked s) := by rw [releasedBudget, hmeas]; rfl
  rw [hrefreshed]
  refine ⟨hbenches'.trans hbenches, hrequests'.trans hrequests, fun g => (hgroves' g).trans (hgroves g), ?_⟩
  have hsame : boundQuanta (refreshBudget (unbraked s)) = baseQuanta (refreshBudget (unbraked s)) := by
    simp [boundQuanta, heps]
  rw [← hsame, boundQuanta_refreshBudget, hbound]

/-! ### Grants (R397) -/

@[simp] theorem granted_startOrDefer (now n m : Nat) (p : PowerBlock) :
    (benchPow (startOrDefer now n p) m).granted = (benchPow p m).granted := by
  unfold startOrDefer
  dsimp only
  split
  · rfl
  · rfl
  all_goals
    split
    · simp only [startClock, benchPow_updBench, benchPow_updGrove]
      split
      case isTrue h => rw [h]
      case isFalse => rfl
    · simp only [benchPow_updBench, benchPow_updGrove]
      split
      case isTrue h => rw [h]
      case isFalse => rfl

theorem benchPow_startOrDefer_ne {n m : Nat} (h : m ≠ n) (now : Nat) (p : PowerBlock) :
    benchPow (startOrDefer now n p) m = benchPow p m := by
  unfold startOrDefer
  dsimp only
  split
  · rfl
  · rfl
  all_goals
    split
    · simp only [startClock, benchPow_updBench_ne _ h, benchPow_updGrove]
    · simp only [benchPow_updBench_ne _ h, benchPow_updGrove]

@[simp] theorem requests_startOrDefer (now n : Nat) (p : PowerBlock) : (startOrDefer now n p).requests = p.requests := by
  unfold startOrDefer
  dsimp only
  split
  · rfl
  · rfl
  all_goals
    split
    · rfl
    · rfl

@[simp] theorem order_startOrDefer (now n : Nat) (p : PowerBlock) : (startOrDefer now n p).order = p.order := by
  unfold startOrDefer
  dsimp only
  split
  · rfl
  · rfl
  all_goals
    split
    · rfl
    · rfl

@[simp] theorem pool_startOrDefer (now n g : Nat) (p : PowerBlock) : (grovePow (startOrDefer now n p) g).pool = (grovePow p g).pool := by
  unfold startOrDefer
  dsimp only
  split
  · rfl
  · rfl
  all_goals
    split
    · simp only [startClock, grovePow_updBench, grovePow_updGrove]
      split
      case isTrue h => rw [h]
      case isFalse => rfl
    · simp only [grovePow_updBench, grovePow_updGrove]
      split
      case isTrue h => rw [h]
      case isFalse => rfl

theorem granted_giveGrant (now : Nat) (r : GrantRequest) (p : PowerBlock) :
    (benchPow (giveGrant now r p) r.bench).granted = max (benchPow p r.bench).granted r.quanta := by
  rw [giveGrant, granted_startOrDefer]
  exact congrArg BenchPower.granted (benchPow_updBench_self ..)

theorem benchPow_giveGrant_ne {r : GrantRequest} {m : Nat} (h : m ≠ r.bench) (now : Nat) (p : PowerBlock) :
    benchPow (giveGrant now r p) m = benchPow p m := by
  rw [giveGrant, benchPow_startOrDefer_ne h]
  exact benchPow_updBench_ne _ h _

theorem requests_giveGrant (now : Nat) (r : GrantRequest) (p : PowerBlock) :
    (giveGrant now r p).requests = p.requests.filter fun q => !(q.bench == r.bench && q.kind == r.kind) := by
  rw [giveGrant, requests_startOrDefer]; rfl

theorem order_giveGrant (now : Nat) (r : GrantRequest) (p : PowerBlock) :
    (giveGrant now r p).order = r.bench :: p.order.filter fun m => m != r.bench := by
  rw [giveGrant, order_startOrDefer]; rfl

theorem pool_giveGrant (now : Nat) (r : GrantRequest) (p : PowerBlock) :
    (grovePow (giveGrant now r p) (benchGrove r.bench)).pool =
      (grovePow p (benchGrove r.bench)).pool - (r.quanta - (benchPow p r.bench).granted) := by
  rw [giveGrant, pool_startOrDefer]
  exact congrArg GrovePower.pool (grovePow_updGrove_self ..)

/-- A request that its pool and the budget cover is granted. -/
theorem serveRequest_within {s : State} {r : GrantRequest} (hbraked : s.power.braked = false) (hpool : poolServes s.power r = true)
    (hbudget : heldAll s.power + (r.quanta - (benchPow s.power r.bench).granted) ≤ baseQuanta s) :
    serveRequest r s = updPower (fun p => settleWaits s.fabric.time (giveGrant s.now r p)) s := by
  simp [serveRequest, hbraked, hpool, hbudget]

/-- The only request, a restore that its pool and the budget cover, is granted. -/
theorem restoreAll_single {s : State} {r : GrantRequest} (hrequests : s.power.requests = [r]) (hkind : r.kind = .restore)
    (hbraked : s.power.braked = false) (hgranted : (benchPow s.power r.bench).granted = 0)
    (hpool : r.quanta ≤ (grovePow s.power (benchGrove r.bench)).pool) (hbudget : heldAll s.power + r.quanta ≤ baseQuanta s) :
    (benchPow (restoreAll s).power r.bench).granted = r.quanta ∧ (restoreAll s).power.requests = [] := by
  have hserves : poolServes s.power r = true := by simpa [poolServes, hgranted] using hpool
  have hreach : ¬ reachQuanta s < heldAll s.power + r.quanta := by
    have : baseQuanta s ≤ reachQuanta s := by unfold reachQuanta; split <;> omega
    omega
  have hserve := serveRequest_within (r := r) hbraked hserves (by rw [hgranted]; exact hbudget)
  have hrest : (serveRequest r s).power.requests = [] := by
    rw [hserve, power_updPower, requests_settleWaits, requests_giveGrant, hrequests]; simp
  have hone : serveRestores (s.power.requests.length + 4) [] s = serveRequest r s := by
    have hbest : bestRestore [] s.power.requests = some r := by simp [hrequests, bestRestore, hkind]
    rw [hrequests]
    show serveRestores (4 + 1) [] s = _
    unfold serveRestores
    simp only [hbest, hserves, if_true, if_neg hreach]
    exact serveRestores_of_no_requests hrest 4
  obtain ⟨_, hbenches, hrequests', _⟩ := refillRound_keeps (serveRequest r s).power.turn [0, 1, 2, 3] (serveRequest r s)
  rw [restoreAll, hone]
  refine ⟨?_, hrequests'.trans hrest⟩
  rw [benchPow, hbenches, hserve, power_updPower, benches_settleWaits]
  exact (granted_giveGrant ..).trans (by rw [hgranted, Nat.zero_max])

/-! ### BOOM_CTL (R420) -/

theorem boomCtlWrite_fields (v : W64) (s : State) : (boomCtlWrite v s).beyondBoom = s.beyondBoom ∧
    (boomCtlWrite v s).power.softLimit = (if bitsOf v.toNat 15 0 = 0 ∨ (600 ≤ bitsOf v.toNat 15 0 ∧ bitsOf v.toNat 15 0 ≤ 3800)
      then bitsOf v.toNat 15 0 else s.power.softLimit) ∧
    (boomCtlWrite v s).power.sleepUs = if 10 ≤ bitsOf v.toNat 47 32 then bitsOf v.toNat 47 32 else s.power.sleepUs := by
  unfold boomCtlWrite
  dsimp only
  split
  · exact ⟨by simp, by simp, by simp⟩
  · exact ⟨by simp, by simp, by simp⟩

/-- With no request and nothing beyond the budget a budget update moves no grant. -/
theorem budgetUpdate_within {s : State} (hepisode : s.power.episode = false) (hrequests : s.power.requests = [])
    (hfits : heldAll s.power + pooledAll s.power ≤ baseQuanta s) :
    let t := restoreAll (refreshBudget (settleEpisode s))
    t.beyondBoom = s.beyondBoom ∧ t.power.budget = baseQuanta s ∧ t.power.benches = s.power.benches ∧ t.power.requests = [] := by
  intro t
  have hsettle : settleEpisode s = s := by simp [settleEpisode, hepisode]
  have hbound : boundQuanta s = baseQuanta s := by simp [boundQuanta, hepisode]
  obtain ⟨hbenches, hrequests', _⟩ := refreshBudget_within (s := s) (by rw [hbound]; exact hfits)
  obtain ⟨hbeyond, hbenches', hrequests'', hcore⟩ := restoreAll_of_no_requests (hrequests'.trans hrequests)
  simp only [t, hsettle]
  refine ⟨hbeyond.trans (by simp), ?_, hbenches'.trans hbenches, hrequests''.trans (hrequests'.trans hrequests)⟩
  rw [budget_of_core hcore, budget_refreshBudget, hbound]

theorem exec_budgetUpdate {s : State} (h : boomRuns s = true) :
    exec .budgetUpdate s = .next (restoreAll (refreshBudget (settleEpisode s))) := if_neg (by simp [h])

theorem exec_episodeTimeout {s : State} (h : s.power.episode = true) :
    exec .episodeTimeout s = .next (refreshBudget (updPower (endEpisode s.now) s)) := if_neg (by simp [h])

/-- Settles O25: every command forms the budget again, and what it serves is kept within it. -/
theorem budgetsAndTheBrake : Obligations.BudgetsAndTheBrake := by
  unfold Obligations.BudgetsAndTheBrake
  refine ⟨⟨fun s hruns hepisode hrequests hfits => ?_, fun s hepisode hbraked hmeasured => ?_, fun v s hservice => ?_⟩,
    fun n s hruns hbraked horder hgranted => ?_, fun s hruns hbraked => ?_⟩
  · obtain ⟨hbeyond, hbudget, hbenches, hreqs⟩ := budgetUpdate_within hepisode hrequests hfits
    exact ⟨_, exec_budgetUpdate hruns, hbudget, hbenches, hreqs, mem_of_beyondBoom hbeyond, tasks_of_beyondBoom hbeyond⟩
  · obtain ⟨hbeyond, heps, hrecovers, hns, hus, hbudget, hreason⟩ := endEpisode_refreshed hepisode hbraked hmeasured
    exact ⟨_, exec_episodeTimeout hepisode, heps, hrecovers, hns, hus, hbudget, hreason, mem_of_beyondBoom hbeyond,
      tasks_of_beyondBoom hbeyond⟩
  · obtain ⟨hbeyond, hsoft, hsleep⟩ := boomCtlWrite_fields v s
    exact ⟨_, congrArg Host.Outcome.next (if_pos hservice), mem_of_beyondBoom hbeyond, tasks_of_beyondBoom hbeyond, rings_of_beyondBoom hbeyond,
      fun h => hsoft.trans (if_pos h), fun h => hsoft.trans (if_neg h), fun h => hsleep.trans (if_pos h),
      fun h => hsleep.trans (if_neg (by omega))⟩
  · obtain ⟨hbeyond, hset, heps, hbudget, hbound, hpow, hreason⟩ :=
      powerBrake_single (s := { s with life := { s.life with brakePinLow := true } }) hbraked horder hgranted
    refine ⟨_, exec_powerBrake hruns, hset, heps, hbudget, hbound, ?_, ?_, ?_, fun m hm => ?_, hreason,
      (congrArg (fun x => x.life.brakePinLow) hbeyond :), (mem_of_beyondBoom hbeyond :), (tasks_of_beyondBoom hbeyond :)⟩
    · rw [hpow, if_pos rfl]
    · rw [hpow, if_pos rfl]
    · rw [hpow, if_pos rfl]
    · rw [hpow, if_neg hm]
  · obtain ⟨hbeyond, hset, hcompare, hbudget⟩ :=
      budgetSettled_releaseBrake (s := { s with life := { s.life with brakePinLow := false } }) hbraked
    refine ⟨_, exec_powerBrakeRelease hruns, hset, hcompare, hbudget,
      (congrArg (fun x => x.life.brakePinLow) hbeyond :), (mem_of_beyondBoom hbeyond :), (tasks_of_beyondBoom hbeyond :),
      fun r hrequests hkind hgranted hmeasured hepisode hfits hgrove hpool => ?_⟩
    obtain ⟨hbenches, hrequests', hgroves, hbase⟩ :=
      releasedBudget_within (s := { s with life := { s.life with brakePinLow := false } }) hmeasured hepisode hfits
    rw [releaseBrake_of_braked (s := { s with life := { s.life with brakePinLow := false } }) hbraked]
    have hlow := pool_le_pooledAll s.power hgrove
    refine restoreAll_single (hrequests'.trans hrequests) hkind (releasedBudget_settled _).2.1 ?_ ?_ ?_
    · rw [benchPow, hbenches]; exact hgranted
    · rw [hgroves]; exact hpool
    · rw [hbase, heldAll_congr hbenches]
      show heldAll s.power + r.quanta ≤ sustainedQuanta s
      omega

end Sys2Proof.Machine
end

