-- ==== Sys2Proof/Proofs/MeasuredPower.lean ====
section
/-!
PROOFS. Records of the module's power control, estimated and measured power, and the input voltage (R404, R405, R411, R419, R454).
-/

namespace Sys2Proof.Machine

/-! ### A record of the module (R449, R454) -/

/-- Fields of a CORRECTED record that is written. -/
theorem report_corrected_fields {s : State} {e : ErrRecord} (hcls : classOf e.code = .corrected) (hdelivered : undelivered s e = false)
    (hfew : recentWritten s.now e s.err < 16) (hroom : queueFull s.err = false) :
    let r := recordAt (report e s).err s.err.written
    r.code = e.code ∧ r.source = e.source ∧ r.detail0 = e.detail0 ∧ r.detail1 = e.detail1 := by
  obtain ⟨xs, hpush⟩ := queueCorrected_of_few (e := stamped .corrected e s) hfew hroom
  have hrecorded : recorded .corrected e s =
      (queueRecord { stamped .corrected e s with repeats := repeatsOf e s.err } { s.err with suppressed := xs }).clearFiring
        (s.err.firing == some e.code) := congrArg (ErrBlock.clearFiring _) hpush
  have hroom' : queueFull { s.err with suppressed := xs } = false := hroom
  intro r
  have hr : r = { { stamped .corrected e s with repeats := repeatsOf e s.err } with
      nested := nestedFlag { s.err with suppressed := xs } { stamped .corrected e s with repeats := repeatsOf e s.err } } := by
    show recordAt (report e s).err s.err.written = _
    rw [report_of_corrected hcls hdelivered, recordAt_sendMaint, hrecorded, recordAt_clearFiring]
    exact recordAt_queueRecord_of_room hroom' _
  rw [hr]
  exact ⟨rfl, rfl, rfl, rfl⟩

/-- The code and details of a record of the module that is not suppressed. -/
theorem report_module_fields {s : State} {e : ErrRecord} (hsource : e.source = srcModule s) (hroom : queueFull s.err = false)
    (hrate : classOf e.code = .corrected → UnderRate e.code (srcModule s) s) :
    let r := recordAt (report e s).err s.err.written
    r.code = e.code ∧ r.detail0 = e.detail0 ∧ r.detail1 = e.detail1 := by
  by_cases hcls : classOf e.code = .corrected
  · have hfew : recentWritten s.now e s.err < 16 := by
      have h := hrate hcls
      rw [← hsource] at h
      exact h
    obtain ⟨hcode, -, hzero, hone⟩ := report_corrected_fields hcls (undelivered_module s e hsource) hfew hroom
    exact ⟨hcode, hzero, hone⟩
  · obtain ⟨hcode, -, -, -, -, -, hzero, hone, -, -⟩ := report_written_fields hroom (undelivered_module s e hsource) hcls
    exact ⟨hcode, hzero, hone⟩

theorem underRate_congr {s t : State} (hnow : t.now = s.now) (hsuppressed : t.err.suppressed = s.err.suppressed) (code : W16)
    (source : W64) : UnderRate code source t ↔ UnderRate code source s := by
  simp only [UnderRate, hnow, hsuppressed]

/-! ### Samples of power (R404, R405) -/

@[simp] theorem beyondBoom_fireInjection (code : W16) (hit : Nat → Bool) (s : State) :
    (fireInjection code hit s).2.beyondBoom = s.beyondBoom := by
  unfold fireInjection; split <;> rfl

@[simp] theorem power_fireInjection (code : W16) (hit : Nat → Bool) (s : State) : (fireInjection code hit s).2.power = s.power := by
  unfold fireInjection; split <;> rfl

theorem fireInjection_of_unarmed {s : State} (h : s.err.inj.cells = []) (code : W16) (hit : Nat → Bool) :
    fireInjection code hit s = (false, s) := by
  simp [fireInjection, h]

/-- A change of Boom that leaves its log keeps everything else as it is. -/
theorem err_updPower_of_logCount {f : PowerBlock → PowerBlock} {s : State} (h : (f s.power).logCount = s.power.logCount) :
    (updPower f s).err = s.err := by
  rw [updPower_of_logCount h]

/-- Where E and M agree, no injection point is armed and no recovery runs, a sample forms both figures and counts the energy. -/
theorem compareSample_agreeing {e m : Nat} {s : State} (hbraked : s.power.braked = false) (hfrom : s.power.compareFrom ≤ s.now)
    (hmeasured : s.power.measured = false) (hagree : 100 * ((e - m) + (m - e)) ≤ 12 * m) (injected : Bool) :
    compareSample e m injected s = updPower (fun p =>
      { p with
        divergedSince := none
        agreedSince := sinceWhen (decide (100 * ((e - m) + (m - e)) ≤ 4 * m)) s.now p.agreedSince }) s := by
  have hnot : ¬ (s.power.braked = true ∨ s.now < s.power.compareFrom) := by rw [hbraked]; simp; omega
  have hdiverged : decide (12 * m < 100 * ((e - m) + (m - e))) = false := by simp; omega
  simp only [compareSample, if_neg hnot, hdiverged]
  simp [sinceWhen, lasted, hmeasured]

/-- The state as a sample that finds E and M apart leaves it before the control changes. -/
def diverged (e m : Nat) (s : State) : State :=
  { s with power := { s.power with
      divergedSince := sinceWhen (decide (12 * m < 100 * ((e - m) + (m - e)))) s.now s.power.divergedSince
      agreedSince := sinceWhen (decide (100 * ((e - m) + (m - e)) ≤ 4 * m)) s.now s.power.agreedSince } }

/-- A divergence that has lasted 200 µs puts measured-power control in force. -/
theorem compareSample_diverging {e m t0 : Nat} {s : State} (hbraked : s.power.braked = false) (hfrom : s.power.compareFrom ≤ s.now)
    (hmeasured : s.power.measured = false) (hdiverged : 12 * m < 100 * ((e - m) + (m - e))) (hsince : s.power.divergedSince = some t0)
    (hlong : t0 + 200000 ≤ s.now) (injected : Bool) :
    compareSample e m injected s = enterMeasured injected (diverged e m s) := by
  have hnot : ¬ (s.power.braked = true ∨ s.now < s.power.compareFrom) := by rw [hbraked]; simp; omega
  simp only [compareSample, if_neg hnot]
  rw [updPower_of_logCount rfl, if_pos (by simp [hmeasured, hdiverged, sinceWhen, hsince, lasted, hlong])]
  rfl

theorem recoverSample_of_settled {s : State} (h : s.power.recovering = false) (m : Nat) : recoverSample m s = s := by
  simp [recoverSample, h]

@[simp] theorem beyondBoom_recoverSample (m : Nat) (s : State) : (recoverSample m s).beyondBoom = s.beyondBoom := by
  unfold recoverSample; split <;> simp

/-- What a sample of a recovery leaves. -/
theorem recoverSample_fields (m : Nat) (s : State) : (recoverSample m s).power.measured = s.power.measured ∧
    (recoverSample m s).power.episode = s.power.episode ∧ (recoverSample m s).power.energy = s.power.energy ∧
    (recoverSample m s).power.inputLow = s.power.inputLow ∧ (recoverSample m s).power.vIn = s.power.vIn ∧
    ∀ n, recordAt (recoverSample m s).err n = recordAt s.err n := by
  unfold recoverSample
  split
  · exact ⟨rfl, rfl, rfl, rfl, rfl, fun _ => rfl⟩
  · exact ⟨by simp, by simp, by simp, by simp, by simp, fun n => by simp⟩

theorem endEpisode_keeps (now : Nat) (p : PowerBlock) : (endEpisode now p).energy = p.energy ∧ (endEpisode now p).inputLow = p.inputLow ∧
    (endEpisode now p).vIn = p.vIn := by
  unfold endEpisode
  split <;> exact ⟨rfl, rfl, rfl⟩

@[simp] theorem recordAt_refreshBudget (s : State) (n : Nat) : recordAt (refreshBudget s).err n = recordAt s.err n := by
  rw [refreshBudget, recordAt_updPower]

@[simp] theorem energy_reasonOn (time reason scope depth : Nat) (p : PowerBlock) : (reasonOn time reason scope depth p).energy = p.energy :=
  (congrArg PowerBlock.energy (settings_of_core (core_reasonOn time reason scope depth p)) :)

/-- Entry into measured-power control: its record, and what it leaves. -/
theorem enterMeasured_fields (injected : Bool) (s : State) :
    let t := enterMeasured injected s
    t.beyondBoom = s.beyondBoom ∧ t.power.measured = true ∧ t.power.episode = false ∧ t.power.energy = s.power.energy ∧
      t.power.inputLow = s.power.inputLow ∧ t.power.vIn = s.power.vIn ∧
      (queueFull s.err = false → UnderRate 0x8201 (srcModule s) s → (recordAt t.err s.err.written).code = 0x8201) := by
  obtain ⟨henergy, hlow, hvin⟩ := endEpisode_keeps s.now s.power
  refine ⟨by simp [enterMeasured], ?_, ?_, ?_, ?_, ?_, fun hroom hrate => ?_⟩
  · simp [enterMeasured]
  · simp [enterMeasured, endEpisode_episode]
  · simp [enterMeasured, henergy]
  · simp [enterMeasured, hlow]
  · simp [enterMeasured, hvin]
  · simp only [enterMeasured, recordAt_refreshBudget, recordAt_updPower]
    exact (report_module_fields (e := { code := 0x8201, source := srcModule s, injected := injected }) rfl hroom fun _ => hrate).1

/-- Return to estimate control leaves the input's limit. -/
theorem leaveMeasured_fields (s : State) : (leaveMeasured s).beyondBoom = s.beyondBoom ∧
    (leaveMeasured s).power.inputLow = s.power.inputLow ∧ (leaveMeasured s).power.vIn = s.power.vIn :=
  ⟨by simp [leaveMeasured], by simp [leaveMeasured], by simp [leaveMeasured]⟩

/-- Missing or implausible measurement: the record, the fallback, and the budget formed again. -/
theorem measuredMissing_fields (injected : Bool) (s : State) :
    let t := measuredMissing injected s
    t.beyondBoom = s.beyondBoom ∧ t.power.fallback = true ∧ t.power.budget = boundQuanta t ∧ t.power.inputLow = s.power.inputLow ∧
      t.power.vIn = s.power.vIn ∧ (queueFull s.err = false → (recordAt t.err s.err.written).code = 0x8202) := by
  refine ⟨by simp [measuredMissing], by simp [measuredMissing], settled_refreshBudget _, by simp [measuredMissing],
    by simp [measuredMissing], fun hroom => ?_⟩
  simp only [measuredMissing, recordAt_refreshBudget, recordAt_updPower]
  refine (report_module_fields (e := { code := 0x8202, source := srcModule s, injected := injected }) rfl hroom fun hcls => ?_).1
  exact absurd hcls (show classOf 0x8202 ≠ .corrected by decide)

/-- The state as a sample of power finds it: the input measured, the energy counted. -/
def sampled (mv m : Nat) (s : State) : State := countEnergy m (withInput mv s)

theorem sampled_fields (mv m : Nat) (s : State) : (sampled mv m s).power =
    { s.power with vIn := min (mv / 10) 0xFFFF, energy := s.power.energy + m } ∧ (sampled mv m s).err = s.err ∧
    (sampled mv m s).mem = s.mem ∧ (sampled mv m s).tasks = s.tasks ∧ (sampled mv m s).now = s.now ∧
    (sampled mv m s).life.power = s.life.power ∧ (sampled mv m s).life.waiting = s.life.waiting ∧ (sampled mv m s).cfg = s.cfg := by
  rw [sampled, countEnergy, updPower_of_logCount rfl]
  exact ⟨rfl, rfl, rfl, rfl, rfl, rfl, rfl, rfl⟩

theorem exec_estimateSample {x : PowerSample} {s : State} (hlow : 21600 ≤ x.inputMv) (hhigh : x.inputMv ≤ 26400) (hruns : boomRuns s = true) :
    exec (.estimateSample x) s = .next (boomSample x (sampled x.inputMv (x.measured.getD 0) s)) := by
  show execEstimateSample x s = _
  have hnot : ¬ (x.inputMv < 21600 ∧ boomRuns s = true) := fun h => by omega
  simp only [execEstimateSample, if_neg (show ¬ 26400 < x.inputMv by omega), if_neg (boomRuns_not_off hruns), if_neg hnot, if_pos hruns]
  rfl

/-- The figures of a sample, before E and M are compared. -/
def withFigures (x : PowerSample) (e m : Nat) (s : State) : State :=
  { s with power := { s.power with otherMw := x.otherMw, estimatedW := min e 0xFFFF, measuredW := min m 0xFFFF } }

theorem boomSample_of_measured {x : PowerSample} {m : Nat} {s : State} (hunarmed : s.err.inj.cells = []) (hmeasured : x.measured = some m)
    (hm : m ≤ 6000) : boomSample x s = recoverSample m (compareSample ((x.benchMw + x.otherMw) * 100 / 91000) m false
      (withFigures x ((x.benchMw + x.otherMw) * 100 / 91000) m s)) := by
  have hnot : ¬ 6000 < m := by omega
  simp only [boomSample, fireInjection_of_unarmed hunarmed, hmeasured, Bool.false_eq_true, if_false, if_neg hnot]
  rw [updPower_of_logCount rfl, updPower_of_logCount rfl]
  rfl

/-! ### The measured-power budget (R405) -/

/-- In measured-power control the budget stands while grants are made. -/
def MeasuredBudget (q : Nat) (s t : State) : Prop :=
  t.beyondBoom = s.beyondBoom ∧ t.power.measured = true ∧ t.power.episode = false ∧ t.power.budget = q

theorem measuredBudget_keptByGrants (q : Nat) (s0 : State) : KeptByGrants (MeasuredBudget q s0) where
  grant := by
    intro s f ⟨hbeyond, hmeasured, hepisode, hbudget⟩ hcore
    refine ⟨by rw [beyondBoom_updPower, hbeyond], ?_, ?_, ?_⟩
    · rw [power_updPower, measured_of_core hcore, hmeasured]
    · rw [power_updPower, episode_of_core hcore, hepisode]
    · rw [power_updPower, budget_of_core hcore, hbudget]
  episode := by
    intro s f ⟨_, hmeasured, _, _⟩ hallowed _
    simp [episodeAllowed, hmeasured] at hallowed

/-- The step of measured-power control stores its budget. -/
theorem measuredControlStep_budget {s : State} (hmeasured : s.power.measured = true) (hbraked : s.power.braked = false)
    (hepisode : s.power.episode = false) (q : Nat) :
    MeasuredBudget q s (restoreAll (refreshBudget (updPower (fun p => { p with budget := q }) s))) := by
  have hbound : boundQuanta (updPower (fun p => { p with budget := q }) s) = q := by
    simp only [boundQuanta, baseQuanta, power_updPower, hmeasured, hbraked, hepisode, Bool.false_and, Bool.false_eq_true, if_false, if_true]
  refine (measuredBudget_keptByGrants q s).restoreAll ⟨?_, ?_, ?_, ?_⟩
  · rw [beyondBoom_refreshBudget, beyondBoom_updPower]
  · rw [measured_refreshBudget, power_updPower, hmeasured]
  · rw [episode_refreshBudget, power_updPower, hepisode]
  · rw [budget_refreshBudget, hbound]

theorem exec_measuredControlStep {s : State} (hmeasured : s.power.measured = true) (hbraked : s.power.braked = false) :
    exec .measuredControlStep s = .next (restoreAll (refreshBudget (updPower (fun p => { p with budget :=
      (min (max ((s.power.budget : Int) + max (-64) (min 64 ((900 * (sustainedLimit s : Int) - 1000 * (s.power.measuredW : Int)) / 879))) 0)
        0xFFFF).toNat }) s))) := by
  exact if_neg (by simp [hmeasured, hbraked])

/-- What the sample leaves after a divergence of 200 µs. -/
theorem divergedSample_fields {e m t0 : Nat} {s : State} (hbraked : s.power.braked = false) (hfrom : s.power.compareFrom ≤ s.now)
    (hmeasured : s.power.measured = false) (hdiverged : 12 * m < 100 * ((e - m) + (m - e))) (hsince : s.power.divergedSince = some t0)
    (hlong : t0 + 200000 ≤ s.now) (hroom : queueFull s.err = false) (hrate : UnderRate 0x8201 (srcModule s) s) :
    let t := recoverSample m (compareSample e m false s)
    t.beyondBoom = s.beyondBoom ∧ t.power.measured = true ∧ t.power.episode = false ∧ t.power.energy = s.power.energy ∧
      (recordAt t.err s.err.written).code = 0x8201 := by
  rw [compareSample_diverging hbraked hfrom hmeasured hdiverged hsince hlong]
  obtain ⟨hset, heps, henergy, -, -, hrecord⟩ := recoverSample_fields m (enterMeasured false (diverged e m s))
  obtain ⟨hbeyond, hset', heps', henergy', -, -, hcode⟩ := enterMeasured_fields false (diverged e m s)
  exact ⟨(beyondBoom_recoverSample ..).trans hbeyond, hset.trans hset', heps.trans heps', henergy.trans henergy', by
    rw [hrecord]; exact hcode hroom hrate⟩

/-- What the sample leaves where E and M agree. -/
theorem agreeingSample_fields {e m : Nat} {s : State} (hbraked : s.power.braked = false) (hfrom : s.power.compareFrom ≤ s.now)
    (hmeasured : s.power.measured = false) (hrecovering : s.power.recovering = false) (hagree : 100 * ((e - m) + (m - e)) ≤ 12 * m) :
    ∃ since, recoverSample m (compareSample e m false s) =
      { s with power := { s.power with divergedSince := none, agreedSince := since } } := by
  rw [compareSample_agreeing hbraked hfrom hmeasured hagree, updPower_of_logCount rfl]
  refine ⟨_, recoverSample_of_settled ?_ m⟩
  exact hrecovering

/-- Settles O26: a sample takes the branch of its divergence, and each branch stores what the figures name. -/
theorem measuredPowerControls : Obligations.MeasuredPowerControls := by
  unfold Obligations.MeasuredPowerControls
  refine ⟨fun x m s hlow hhigh hruns hunarmed hmeasured hm hbraked hfrom hcontrol hrecovering => ?_, fun s hmeasured hbraked hepisode => ?_,
    fun s hruns hqueue hroom => ?_⟩
  · intro e
    obtain ⟨hpower, herr, hmem, htasks, hnow, -, -, hcfg⟩ := sampled_fields x.inputMv m s
    have hexec : exec (.estimateSample x) s = .next (recoverSample m (compareSample e m false
        (withFigures x e m (sampled x.inputMv m s)))) := by
      rw [exec_estimateSample hlow hhigh hruns, hmeasured, Option.getD_some,
        boomSample_of_measured (by rw [herr]; exact hunarmed) hmeasured hm]
    have hfields : (withFigures x e m (sampled x.inputMv m s)).power = { s.power with
        vIn := min (x.inputMv / 10) 0xFFFF, energy := s.power.energy + m, otherMw := x.otherMw, estimatedW := min e 0xFFFF
        measuredW := min m 0xFFFF } :=
      congrArg (fun p : PowerBlock => { p with otherMw := x.otherMw, estimatedW := min e 0xFFFF, measuredW := min m 0xFFFF }) hpower
    have hsource : srcModule (withFigures x e m (sampled x.inputMv m s)) = srcModule s := by
      simp only [srcModule, moduleIndex, mladyth, show (withFigures x e m (sampled x.inputMv m s)).cfg = s.cfg from hcfg]
    have herr' : (withFigures x e m (sampled x.inputMv m s)).err = s.err := herr
    have hmem' : (withFigures x e m (sampled x.inputMv m s)).mem = s.mem := hmem
    have htasks' : (withFigures x e m (sampled x.inputMv m s)).tasks = s.tasks := htasks
    have hnow' : (withFigures x e m (sampled x.inputMv m s)).now = s.now := hnow
    generalize withFigures x e m (sampled x.inputMv m s) = u at hexec hfields hsource herr' hmem' htasks' hnow'
    have hbraked' : u.power.braked = false := by rw [hfields]; exact hbraked
    have hfrom' : u.power.compareFrom ≤ u.now := by rw [hfields, hnow']; exact hfrom
    have hcontrol' : u.power.measured = false := by rw [hfields]; exact hcontrol
    refine ⟨fun hagree => ?_, fun t0 hdiverged hsince hlong hqueue hroom hrate => ?_⟩
    · obtain ⟨since, hsame⟩ := agreeingSample_fields hbraked' hfrom' hcontrol' (by rw [hfields]; exact hrecovering) hagree
      have hvin : min (x.inputMv / 10) 0xFFFF = x.inputMv / 10 := by omega
      have hwatts : min m 0xFFFF = m := by omega
      refine ⟨_, hexec.trans (congrArg Host.Outcome.next hsame), ?_⟩
      simp only [hfields, hvin, hwatts, herr', hmem', hcontrol, true_and]
    · obtain ⟨hbeyond, hset, heps, henergy, hcode⟩ := divergedSample_fields hbraked' hfrom' hcontrol' hdiverged
        (by rw [hfields]; exact hsince) (by rw [hnow']; exact hlong) (by rw [herr']; exact hroom)
        (by rw [hsource, underRate_congr hnow' (congrArg ErrBlock.suppressed herr')]; exact hrate)
      refine ⟨_, hexec, hset, heps, ?_, ?_, (mem_of_beyondBoom hbeyond).trans hmem', (tasks_of_beyondBoom hbeyond).trans htasks'⟩
      · rw [← herr']; exact hcode
      · rw [henergy, hfields]
  · obtain ⟨hbeyond, -, -, hbudget⟩ := measuredControlStep_budget hmeasured hbraked hepisode _
    exact ⟨_, exec_measuredControlStep hmeasured hbraked, hbudget, mem_of_beyondBoom hbeyond, tasks_of_beyondBoom hbeyond⟩
  · obtain ⟨hbeyond, hback, hbudget, -, -, hcode⟩ := measuredMissing_fields false s
    exact ⟨_, if_pos hruns, hback, hcode hroom, hbudget, mem_of_beyondBoom hbeyond, tasks_of_beyondBoom hbeyond⟩

/-! ### The input voltage (R411) -/

theorem min_inputCap_le {p : PowerBlock} (hlow : p.inputLow = true) (w : Nat) : inputCap p w ≤ p.vIn * 150 / 100 := by
  simp only [inputCap, hlow, if_true]
  exact Nat.min_le_right _ _

/-- What the limit of a low input leaves: both limits bound by V_in × 150 A, the budget formed again, reason 0x08 active. -/
theorem limitInput_fields (s : State) :
    (limitInput s).beyondBoom = s.beyondBoom ∧ (limitInput s).power.inputLow = true ∧ (limitInput s).power.vIn = s.power.vIn ∧
      (limitInput s).power.budget = boundQuanta (limitInput s) ∧ ((limitInput s).power.running.any fun r => r.reason == 8) = true := by
  have hcore : (limitInput s).power.core = (refreshBudget (updPower (fun p => { p with inputLow := true }) s)).power.core := by
    simp only [limitInput, power_updPower, core_reasonOn]
  have hbeyond : (limitInput s).beyondBoom = (refreshBudget (updPower (fun p => { p with inputLow := true }) s)).beyondBoom := by
    simp only [limitInput, beyondBoom_updPower]
  refine ⟨hbeyond.trans (by simp), by simp [limitInput], by simp [limitInput], ?_, ?_⟩
  · rw [boundQuanta_congr hbeyond hcore, budget_of_core hcore, settled_refreshBudget]
  · simp only [limitInput, power_updPower]
    exact active_reasonOn_anyScope ..

/-- A part of Boom keeps the limit of the input. -/
def InputKept (s t : State) : Prop :=
  t.beyondBoom = s.beyondBoom ∧ t.power.inputLow = s.power.inputLow ∧ t.power.vIn = s.power.vIn

theorem InputKept.trans {s t u : State} (h : InputKept s t) (h' : InputKept t u) : InputKept s u :=
  ⟨h'.1.trans h.1, h'.2.1.trans h.2.1, h'.2.2.trans h.2.2⟩

theorem InputKept.updPower {f : PowerBlock → PowerBlock} {s t : State} (h : InputKept s t) (hlow : (f t.power).inputLow = t.power.inputLow)
    (hvin : (f t.power).vIn = t.power.vIn) : InputKept s (updPower f t) :=
  h.trans ⟨beyondBoom_updPower f t, by rw [power_updPower, hlow], by rw [power_updPower, hvin]⟩

theorem InputKept.refl (s : State) : InputKept s s := ⟨rfl, rfl, rfl⟩

theorem inputKept_enterMeasured (injected : Bool) (s : State) : InputKept s (enterMeasured injected s) := by
  obtain ⟨hbeyond, -, -, -, hlow, hvin, -⟩ := enterMeasured_fields injected s
  exact ⟨hbeyond, hlow, hvin⟩

theorem inputKept_compareSample (e m : Nat) (injected : Bool) (s : State) : InputKept s (compareSample e m injected s) := by
  unfold compareSample
  split
  · exact (InputKept.refl s).updPower rfl rfl
  · dsimp only
    split
    · refine InputKept.trans ?_ (inputKept_enterMeasured ..)
      exact (InputKept.refl s).updPower rfl rfl
    · split
      · refine InputKept.trans ?_ (leaveMeasured_fields _)
        exact (InputKept.refl s).updPower rfl rfl
      · exact (InputKept.refl s).updPower rfl rfl

theorem inputKept_recoverSample (m : Nat) (s : State) : InputKept s (recoverSample m s) := by
  obtain ⟨-, -, -, hlow, hvin, -⟩ := recoverSample_fields m s
  exact ⟨beyondBoom_recoverSample m s, hlow, hvin⟩

theorem inputKept_measuredMissing (injected : Bool) (s : State) : InputKept s (measuredMissing injected s) := by
  obtain ⟨hbeyond, -, -, hlow, hvin, -⟩ := measuredMissing_fields injected s
  exact ⟨hbeyond, hlow, hvin⟩

theorem inputKept_fireInjection (code : W16) (hit : Nat → Bool) (s : State) : InputKept s (fireInjection code hit s).2 :=
  ⟨beyondBoom_fireInjection code hit s, by rw [power_fireInjection], by rw [power_fireInjection]⟩

theorem inputKept_boomSample (x : PowerSample) (s : State) : InputKept s (boomSample x s) := by
  unfold boomSample
  dsimp only
  have hfired := (inputKept_fireInjection 0x8201 (fun w => w == 0) s).trans
    (inputKept_fireInjection 0x8202 (fun w => w == 0) (fireInjection 0x8201 (fun w => w == 0) s).2)
  generalize (fireInjection 0x8202 (fun w => w == 0) (fireInjection 0x8201 (fun w => w == 0) s).2) = b at hfired ⊢
  split
  · exact InputKept.trans (hfired.updPower rfl rfl) (inputKept_measuredMissing ..)
  · split
    case h_1 => exact hfired.updPower rfl rfl
    case h_2 m _ =>
      have hfigures : ∀ e m : Nat, InputKept s (updPower (fun p => { p with estimatedW := min e 0xFFFF, measuredW := min m 0xFFFF })
          (updPower (fun p => { p with
            otherMw := x.otherMw, estimatedW := min ((x.benchMw + x.otherMw) * 100 / 91000) 0xFFFF }) b.2)) := fun e m => by
        refine InputKept.updPower ?_ rfl rfl
        exact InputKept.updPower hfired rfl rfl
      generalize (if (fireInjection 0x8201 (fun w => w == 0) s).1 then m * 115 / 100 else (x.benchMw + x.otherMw) * 100 / 91000) = e
      split
      · split
        · exact hfigures _ _
        · exact InputKept.trans (hfigures _ _) (inputKept_measuredMissing ..)
      · exact InputKept.trans (InputKept.trans (hfigures _ _) (inputKept_compareSample ..)) (inputKept_recoverSample ..)

theorem exec_inputLowLimit {mv : Nat} {s : State} (hruns : boomRuns s = true) (hlow : mv < 21600) :
    exec (.inputLowLimit mv) s = .next (limitInput (withInput mv s)) := by
  show execInputLowLimit mv s = _
  have hnot : ¬ (21600 ≤ mv ∨ (!boomRuns s) = true) := by rw [hruns]; simp; omega
  simp only [execInputLowLimit, if_neg (show ¬ 26400 < mv by omega), if_neg (boomRuns_not_off hruns), if_neg hnot]

theorem exec_inputLowLimitEnd {mv : Nat} {s : State} (hruns : boomRuns s = true) (hlow : 21600 ≤ mv) (hhigh : mv ≤ 26400) :
    exec (.inputLowLimitEnd mv) s = .next (refreshBudget (updPower
      (fun p => reasonOff s.fabric.time 8 moduleScope { p with inputLow := false }) (withInput mv s))) := by
  show execInputLowLimitEnd mv s = _
  simp only [execInputLowLimitEnd, if_neg (show ¬ 26400 < mv by omega), if_neg (boomRuns_not_off hruns), if_neg (show ¬ mv < 21600 by omega),
    if_pos hruns]

theorem exec_estimateSample_low {x : PowerSample} {s : State} (hruns : boomRuns s = true) (hlow : x.inputMv < 21600) :
    exec (.estimateSample x) s = .next (boomSample x (limitInput (sampled x.inputMv (x.measured.getD 0) s))) := by
  show execEstimateSample x s = _
  simp only [execEstimateSample, if_neg (show ¬ 26400 < x.inputMv by omega), if_neg (boomRuns_not_off hruns), hruns, and_true, if_pos hlow,
    if_true]
  rfl

/-! ### A reason that has ended stays so (R415) -/

section
variable {reason reason' scope : Nat} (hne : reason' ≠ reason)
include hne

theorem active_reasonOn_ne (time scope' depth : Nat) (p : PowerBlock) :
    ((reasonOn time reason' scope' depth p).running.any fun r => r.reason == reason && r.scope == scope) =
      p.running.any fun r => r.reason == reason && r.scope == scope := by
  unfold reasonOn
  split
  · rw [List.any_map]
    refine List.any_congr rfl fun r => ?_
    simp only [Function.comp_apply]
    split <;> rfl
  · simp [hne]

omit hne in
theorem inactive_reasonOff_other (time scope' : Nat) (p : PowerBlock)
    (h : (p.running.any fun r => r.reason == reason && r.scope == scope) = false) :
    ((reasonOff time reason' scope' p).running.any fun r => r.reason == reason && r.scope == scope) = false := by
  have hgone : ((p.running.filter fun q => !(q.reason == reason' && q.scope == scope')).any fun r =>
      r.reason == reason && r.scope == scope) = false := by
    rw [List.any_eq_false]
    exact fun r hr => List.any_eq_false.mp h r (List.mem_filter.mp hr).1
  unfold reasonOff
  split
  · exact h
  · dsimp only
    split
    · rw [running_addReason]; exact hgone
    · rw [logThrottle, running_addReason]; exact hgone

end

/-- One of the two reasons of waiting requests, active or not as a request waits for it. -/
def settleWait (time r : Nat) (p : PowerBlock) : PowerBlock :=
  if p.requests.any fun q => q.reason == r then reasonOn time r moduleScope p.budget p else reasonOff time r moduleScope p

theorem settleWaits_eq (time : Nat) (p : PowerBlock) : settleWaits time p = settleWait time 2 (settleWait time 1 p) := rfl

theorem inactive_settleWait_ne {reason scope r : Nat} (hne : r ≠ reason) (time : Nat) {p : PowerBlock}
    (h : (p.running.any fun r => r.reason == reason && r.scope == scope) = false) :
    ((settleWait time r p).running.any fun r => r.reason == reason && r.scope == scope) = false := by
  unfold settleWait
  split
  · rw [active_reasonOn_ne hne]; exact h
  · exact inactive_reasonOff_other _ _ _ h

theorem inactive_settleWaits_ne {reason scope : Nat} (hone : 1 ≠ reason) (htwo : 2 ≠ reason) (time : Nat) {p : PowerBlock}
    (h : (p.running.any fun r => r.reason == reason && r.scope == scope) = false) :
    ((settleWaits time p).running.any fun r => r.reason == reason && r.scope == scope) = false := by
  rw [settleWaits_eq]
  exact inactive_settleWait_ne htwo _ (inactive_settleWait_ne hone _ h)

@[simp] theorem running_drainPools (gs : List Nat) (excess : Nat) (p : PowerBlock) : (drainPools gs excess p).running = p.running := by
  induction gs generalizing excess p with
  | nil => rfl
  | cons g gs ih => exact ih _ _

@[simp] theorem running_revokeUntil (now reason : Nat) (inScope : Nat → Bool) (ns : List Nat) (excess : Nat) (p : PowerBlock) :
    (revokeUntil now reason inScope ns excess p).running = p.running := by
  induction ns generalizing excess p with
  | nil => rfl
  | cons n ns ih =>
    unfold revokeUntil
    split
    · rfl
    · split
      · exact (ih _ _).trans rfl
      · exact ih _ _

@[simp] theorem running_fitBudget (now reason q : Nat) (p : PowerBlock) : (fitBudget now reason q p).running = p.running := by
  simp [fitBudget]

/-- A budget formed again starts no reason but those of requests that wait. -/
theorem inactive_refreshBudget {reason scope : Nat} (hone : 1 ≠ reason) (htwo : 2 ≠ reason) {s : State}
    (h : (s.power.running.any fun r => r.reason == reason && r.scope == scope) = false) :
    ((refreshBudget s).power.running.any fun r => r.reason == reason && r.scope == scope) = false := by
  rw [refreshBudget, power_updPower]
  refine inactive_settleWaits_ne hone htwo _ ?_
  rw [running_fitBudget, setBudget, lowerDepth, List.any_map]
  refine (List.any_congr rfl fun r => ?_).trans h
  simp only [Function.comp_apply]
  split <;> rfl

/-- The end of the limit: the peak limit is the image's again, and reason 0x08 is over. -/
theorem inputLimitEnded_fields (s : State) :
    let t := refreshBudget (updPower (fun p => reasonOff s.fabric.time 8 moduleScope { p with inputLow := false }) s)
    t.beyondBoom = s.beyondBoom ∧ t.power.inputLow = false ∧ t.power.vIn = s.power.vIn ∧ peakLimit t = fallbackCap t.power (powerCfg t).peakW ∧
      t.power.budget = boundQuanta t ∧ (t.power.running.any fun r => r.reason == 8 && r.scope == moduleScope) = false := by
  intro t
  have hlow : t.power.inputLow = false := by simp [t]
  refine ⟨by simp [t], hlow, by simp [t], ?_, settled_refreshBudget _, inactive_refreshBudget (by decide) (by decide) ?_⟩
  · simp [peakLimit, inputCap, hlow]
  · rw [power_updPower]
    exact inactive_reasonOff ..

/-- Settles O27: the input voltage bounds both limits as long as Boom holds the limit of R411. -/
theorem lowInputLimitsBudgets : Obligations.LowInputLimitsBudgets := by
  unfold Obligations.LowInputLimitsBudgets
  refine ⟨fun mv s hruns hlow => ?_, fun x s hruns hlow => ?_, fun mv s hruns hlow hhigh => ?_⟩
  · obtain ⟨hbeyond, hset, hvin, hbudget, hreason⟩ := limitInput_fields (withInput mv s)
    have hv : (limitInput (withInput mv s)).power.vIn = mv / 10 := hvin.trans (show min (mv / 10) 0xFFFF = mv / 10 by omega)
    have hsustained : sustainedLimit (limitInput (withInput mv s)) ≤ mv / 10 * 150 / 100 := hv ▸ min_inputCap_le hset _
    have hpeak : peakLimit (limitInput (withInput mv s)) ≤ mv / 10 * 150 / 100 := hv ▸ min_inputCap_le hset _
    refine ⟨_, exec_inputLowLimit hruns hlow, hv, hsustained, hpeak, hbudget, hreason, fun hmv => ⟨?_, ?_⟩,
      (mem_of_beyondBoom hbeyond :), (tasks_of_beyondBoom hbeyond :)⟩
    · subst hmv; exact hsustained
    · subst hmv; exact hpeak
  · obtain ⟨hbeyond, hset, hvin, -, -⟩ := limitInput_fields (sampled x.inputMv (x.measured.getD 0) s)
    obtain ⟨hpower, -, hmem, htasks, -⟩ := sampled_fields x.inputMv (x.measured.getD 0) s
    obtain ⟨hbeyond', hset', hvin'⟩ := inputKept_boomSample x (limitInput (sampled x.inputMv (x.measured.getD 0) s))
    have hv : (boomSample x (limitInput (sampled x.inputMv (x.measured.getD 0) s))).power.vIn = x.inputMv / 10 := by
      rw [hvin', hvin, hpower]
      show min (x.inputMv / 10) 0xFFFF = x.inputMv / 10
      omega
    exact ⟨_, exec_estimateSample_low hruns hlow, hv, hset'.trans hset, hv ▸ min_inputCap_le (hset'.trans hset) _,
      hv ▸ min_inputCap_le (hset'.trans hset) _, (mem_of_beyondBoom (hbeyond'.trans hbeyond)).trans hmem,
      (tasks_of_beyondBoom (hbeyond'.trans hbeyond)).trans htasks⟩
  · obtain ⟨hbeyond, hset, hvin, hpeak, hbudget, hreason⟩ := inputLimitEnded_fields (withInput mv s)
    exact ⟨_, exec_inputLowLimitEnd hruns hlow hhigh, hset, hvin.trans (show min (mv / 10) 0xFFFF = mv / 10 by omega), hpeak, hbudget, hreason,
      (mem_of_beyondBoom hbeyond :), (tasks_of_beyondBoom hbeyond :)⟩

end Sys2Proof.Machine
end

