-- ==== Sys2Proof/Proofs/GrantsOfQuanta.lean ====
section
/-!
PROOFS. Requests for quanta, grants, deferred starts, reviews and refills (R397–R399).
-/

namespace Sys2Proof.Machine

/-! ### Requests and reviews (R397, R398) -/

/-- An idle bench asks for the demand of its next task. -/
theorem exec_grantRequest_idle {n : Nat} {t : Task} {s : State} (hruns : boomRuns s = true)
    (hended : (grovePow s.power (benchGrove n)).ended = false) (htask : requestTask s n = some t) (hidle : benchDemand s n = 0)
    (hgranted : (benchPow s.power n).granted = 0) (hclock : (benchPow s.power n).clock ≠ .revoked)
    (hnone : (s.power.requests.any fun q => q.bench == n) = false) :
    exec (.grantRequest n) s = .next { s with power := { updBench s.power n (fun b => { b with demand := demandOf t }) with
      requests := s.power.requests ++
        [{ bench := n, kind := .fresh, quanta := demandOf t, priority := (ringOf s t.ring).priority, since := s.now }] } } := by
  have hdemand : demandOf t ≠ 0 := by
    have h := Option.filter_eq_some_iff.mp htask
    simpa using h.2
  show execGrantRequest n s = _
  have hpos : ¬ demandOf t ≤ 0 := by omega
  simp only [execGrantRequest, hruns, hended, htask, hidle, hgranted, hclock, hnone, Nat.zero_max]
  simp only [Bool.not_true, Bool.or_self, Bool.false_eq_true, if_false, ne_eq, not_true_eq_false, false_and, or_self, if_neg hpos, if_true]
  rw [updPower_of_logCount rfl]

theorem exec_topUpRequest {n : Nat} {s : State} (hgranted : (benchPow s.power n).granted ≠ 0)
    (hdemand : (benchPow s.power n).granted < (benchPow s.power n).demand)
    (hnone : (s.power.requests.any fun q => q.bench == n && q.kind == .topUp) = false) (hwithholds : governorWithholds s n = true) :
    exec (.topUpRequest n) s = .next { s with power := { s.power with requests := s.power.requests ++
       [{ bench := n, kind := .topUp, quanta := (benchPow s.power n).demand, since := s.now }] } } := by
  show execTopUpRequest n s = _
  have hnot : ¬ (benchPow s.power n).demand ≤ (benchPow s.power n).granted := by omega
  simp only [execTopUpRequest, hgranted, hwithholds, hnot, hnone, Bool.not_true, Bool.false_eq_true, or_self, if_false]
  rw [updPower_of_logCount rfl]

theorem exec_topUpRequest_covered {n : Nat} {s : State} (hcovers : governorWithholds s n = false) : exec (.topUpRequest n) s = .next s := by
  show execTopUpRequest n s = _
  simp [execTopUpRequest, hcovers]

theorem exec_reclaimReview {used : List (Nat × Nat)} {s : State} (hruns : boomRuns s = true) (hwaits : s.power.requests.isEmpty = false) :
    exec (.reclaimReview used) s = .next (updPower (fun p => used.foldl (fun p x => reclaim s.now x.1 x.2 p) p) s) :=
  if_neg (by simp [hruns, hwaits])

theorem reclaim_of_recent {now n u : Nat} {p : PowerBlock} (h : ((benchPow p n).toppedAt.any fun a => decide (now < a + 10000)) = true) :
    reclaim now n u p = p := by
  simp [reclaim, h]

theorem reclaim_of_unused {now n u : Nat} {p : PowerBlock}
    (hnone : (p.requests.any fun q => q.bench == n && q.kind == .topUp) = false) (hspare : 1 + ceilDiv u 1280 + 2 ≤ (benchPow p n).granted)
    (hold : ((benchPow p n).toppedAt.any fun a => decide (now < a + 10000)) = false) :
    reclaim now n u p = lowerGrant n (max 2 (2 + ceilDiv u 1280)) p := by
  rw [show 2 + ceilDiv u 1280 = 1 + ceilDiv u 1280 + 1 by omega]
  exact if_pos ⟨hspare, by simp [hnone], by simp [hold]⟩

theorem lowerGrant_fields {n q : Nat} {p : PowerBlock} (hq : q ≤ (benchPow p n).granted) :
    (benchPow (lowerGrant n q p) n).granted = q ∧ (grovePow (lowerGrant n q p) (benchGrove n)).pool =
      min 96 ((grovePow p (benchGrove n)).pool + ((benchPow p n).granted - q)) := by
  refine ⟨?_, ?_⟩
  · simp only [lowerGrant, poolAdd, benchPow_updGrove, benchPow_updBench_self]
    omega
  · simp only [lowerGrant, poolAdd, grovePow_updGrove_self, grovePow_updBench]

/-! ### Grants (R397, R399) -/

theorem grove_of_bestRequest {g : Nat} {r : GrantRequest} (rs : List GrantRequest) (h : bestRequest g rs = some r) :
    benchGrove r.bench = g := by
  induction rs with
  | nil => simp [bestRequest] at h
  | cons q qs ih =>
    unfold bestRequest at h
    split at h
    · split at h
      case isTrue hg => obtain rfl := Option.some.inj h; exact hg
      case isFalse => cases h
    · split at h
      case isTrue hg => obtain rfl := Option.some.inj h; exact hg.1
      case isFalse q' hrest hnot => exact ih (hrest.trans h)

theorem exec_grant {g : Nat} {r : GrantRequest} {s : State} (hruns : boomRuns s = true) (hbest : bestRequest g s.power.requests = some r) :
    exec (.grant g) s = .next (if outranked r s.power then updPower (fun p => settleWaits s.fabric.time (markRequest r (budgetReason s) p)) s
      else serveRequest r s) := by
  show execGrant g s = _
  simp only [execGrant, hruns, hbest, Bool.not_true, Bool.false_eq_true, if_false]

/-- A clock that starts: running or stretched, its start counted, its grant kept. -/
theorem startClock_fields (now n : Nat) (p : PowerBlock) :
    ((benchPow (startClock now n p) n).clock = .running ∨ (benchPow (startClock now n p) n).clock = .stretched) ∧
      (benchPow (startClock now n p) n).starts = min ((benchPow p n).starts + 1) (2 ^ 32 - 1) ∧
      (benchPow (startClock now n p) n).granted = (benchPow p n).granted ∧
      ∀ m, m ≠ n → benchPow (startClock now n p) m = benchPow p m := by
  have hbench : benchPow (startClock now n p) n = { benchPow p n with
      clock := if (grovePow p (benchGrove n)).marginStretch || (grovePow p (benchGrove n)).stretched then .stretched else .running
      starts := satAdd 32 (benchPow p n).starts 1 } := benchPow_updBench_self ..
  rw [hbench]
  refine ⟨?_, rfl, rfl, fun m hm => (benchPow_updBench_ne _ hm _).trans (benchPow_updGrove ..)⟩
  dsimp only
  split
  · exact .inr rfl
  · exact .inl rfl

theorem startDeferred_of_allowed {now g n : Nat} {ns : List Nat} {p : PowerBlock} (hdeferred : (grovePow p g).deferred = n :: ns)
    (hallowed : startAllowed now (grovePow p g) = true) : startDeferred now g p = startClock now n p := by
  simp [startDeferred, hdeferred, hallowed]

/-! ### Refills (R397) -/

/-- Boom after a refill of a grove's pool. -/
def refilled (g : Nat) (s : State) : PowerBlock :=
  { updGrove s.power g (fun x => { x with pool := x.pool + refillQuanta s g }) with turn := (g + 1) % 4 }

theorem grovePow_refilled (g : Nat) (s : State) : grovePow (refilled g s) g =
    { grovePow s.power g with pool := (grovePow s.power g).pool + refillQuanta s g } := grovePow_updGrove_self ..

theorem grovePow_refilled_ne {g h : Nat} (hne : h ≠ g) (s : State) : grovePow (refilled g s) h = grovePow s.power h :=
  grovePow_updGrove_ne _ hne _

theorem benches_refilled (g : Nat) (s : State) : (refilled g s).benches = s.power.benches := by
  simp [refilled]
theorem turn_refilled (g : Nat) (s : State) : (refilled g s).turn = (g + 1) % 4 := by
  simp [refilled]

theorem heldIn_congr {p q : PowerBlock} (h : q.benches = p.benches) (g : Nat) : heldIn q g = heldIn p g := by
  simp only [heldIn, h]

theorem refill_of_short {g : Nat} {s : State} (hshort : (grovePow s.power g).pool < 48) : refill g s = { s with power := refilled g s } := by
  have hnot : ¬ 48 ≤ (grovePow s.power g).pool := by omega
  simp only [refill, if_neg hnot]
  exact updPower_of_logCount rfl

theorem exec_poolRefill {g : Nat} {s : State} (hruns : boomRuns s = true) (hbraked : s.power.braked = false)
    (hturn : refillTurn s g = true) (hshort : (grovePow s.power g).pool < 48) :
    exec (.poolRefill g) s = .next { s with power := refilled g s } := by
  show execPoolRefill g s = _
  rw [execPoolRefill, hruns, hbraked, hturn]
  exact congrArg Host.Outcome.next (refill_of_short hshort)

theorem refillQuanta_le_block (s : State) (g : Nat) : refillQuanta s g ≤ 48 := Nat.min_le_left ..

theorem refillQuanta_le_cap (s : State) (g : Nat) :
    refillQuanta s g ≤ (grovePow s.power g).cap - (heldIn s.power g + (grovePow s.power g).pool) :=
  (Nat.min_le_right ..).trans (Nat.min_le_right ..)

/-- Settles O24: each command of Boom changes the one request, grant, start or pool it names. -/
theorem grantsAreAskedAndMade : Obligations.GrantsAreAskedAndMade := by
  unfold Obligations.GrantsAreAskedAndMade
  refine ⟨⟨fun n t s hruns hended htask hidle hgranted hclock hnone => ?_, fun n s hgranted hdemand hnone => ?_,
    fun n u s hruns hwaits hnone hspare => ?_⟩, fun g r s hruns hbraked hbest => ?_, fun g n ns s hdeferred hallowed => ?_,
    fun g s hruns hbraked hturn hshort => ?_⟩
  · exact ⟨_, exec_grantRequest_idle hruns hended htask hidle hgranted hclock hnone, rfl, congrArg BenchPower.demand (benchPow_updBench_self ..),
      fun m hm => benchPow_updBench_ne _ hm _, rfl, rfl⟩
  · exact ⟨exec_topUpRequest_covered, exec_topUpRequest hgranted hdemand hnone⟩
  · refine ⟨fun hrecent => ?_, fun hold => ?_⟩
    · rw [exec_reclaimReview hruns hwaits]
      simp only [List.foldl_cons, List.foldl_nil]
      rw [updPower_of_logCount (by rw [reclaim_of_recent hrecent]), reclaim_of_recent hrecent]
    · obtain ⟨hgrant, hpool⟩ := lowerGrant_fields (n := n) (p := s.power) (q := max 2 (2 + ceilDiv u 1280)) (by omega)
      have hpower : (updPower (fun p => [(n, u)].foldl (fun p x => reclaim s.now x.1 x.2 p) p) s).power =
          lowerGrant n (max 2 (2 + ceilDiv u 1280)) s.power := by
        rw [power_updPower]
        exact reclaim_of_unused hnone hspare hold
      exact ⟨_, exec_reclaimReview hruns hwaits, by rw [hpower, hgrant], by rw [hpower, hpool],
        mem_of_beyondBoom (beyondBoom_updPower ..), tasks_of_beyondBoom (beyondBoom_updPower ..)⟩
  · refine ⟨fun hout => ?_, fun hout hpool _ hbudget => ?_⟩
    · refine ⟨_, (exec_grant hruns hbest).trans (congrArg _ (if_pos hout)), ?_, ?_, mem_of_beyondBoom (beyondBoom_updPower ..),
        tasks_of_beyondBoom (beyondBoom_updPower ..)⟩
      · rw [power_updPower, benches_settleWaits]; rfl
      · rw [power_updPower, groves_settleWaits]; rfl
    · have hgrove := grove_of_bestRequest _ hbest
      have hserve := serveRequest_within hbraked hpool hbudget
      have hpower : (serveRequest r s).power = settleWaits s.fabric.time (giveGrant s.now r s.power) := by rw [hserve, power_updPower]
      have hbench : ∀ m, benchPow (serveRequest r s).power m = benchPow (giveGrant s.now r s.power) m := fun m => by
        rw [hpower, benchPow, benches_settleWaits]; rfl
      have hbeyond : (serveRequest r s).beyondBoom = s.beyondBoom := by rw [hserve, beyondBoom_updPower]
      refine ⟨_, (exec_grant hruns hbest).trans (congrArg _ (if_neg (by simp [hout]))), hgrove, ?_, ?_, ?_, ?_, fun m hm => ?_,
        mem_of_beyondBoom hbeyond, tasks_of_beyondBoom hbeyond⟩
      · rw [hbench, granted_giveGrant]
      · rw [hpower, grovePow, groves_settleWaits, ← hgrove]
        exact pool_giveGrant ..
      · rw [hpower, order_settleWaits, order_giveGrant]; rfl
      · rw [hpower, requests_settleWaits, requests_giveGrant]
        intro q hq hboth
        simpa [hboth.1, hboth.2] using (List.mem_filter.mp hq).2
      · rw [hbench, benchPow_giveGrant_ne hm]
  · have hstart := startDeferred_of_allowed hdeferred hallowed
    have hsame : updPower (startDeferred s.now g) s = { s with power := startClock s.now n s.power } := by
      have hlog : (startDeferred s.now g s.power).logCount = s.power.logCount := by rw [hstart]; rfl
      rw [updPower_of_logCount hlog, hstart]
    obtain ⟨hclock, hstarts, hgranted, hother⟩ := startClock_fields s.now n s.power
    exact ⟨_, congrArg Host.Outcome.next hsame, rfl, hclock, hstarts, hgranted, hother⟩
  · have hcap := refillQuanta_le_cap s g
    have hpool := grovePow_refilled g s
    refine ⟨_, exec_poolRefill hruns hbraked hturn hshort, rfl, congrArg GrovePower.pool hpool, refillQuanta_le_block s g,
      fun hwithin => ?_, fun h hh => grovePow_refilled_ne hh s, benches_refilled g s, turn_refilled g s⟩
    dsimp only
    rw [hpool, heldIn_congr (benches_refilled g s)]
    dsimp only
    omega

end Sys2Proof.Machine
end

