-- ==== Sys2Proof/Proofs/AgeingOfGroves.lean ====
section
/-!
PROOFS. Ageing of a grove (R417, R418): its margin, its trim steps and F_MAX, its end, and what resets leave of them.
-/

namespace Sys2Proof.Machine

/-! ### What a margin sample leaves -/

theorem trimSteps_of_core {p q : PowerBlock} (h : q.core = p.core) (g : Nat) : (grovePow q g).trimSteps = (grovePow p g).trimSteps :=
  (congrArg GrovePower.trimSteps (groveSettings_of_core h g) :)
theorem fmaxSteps_of_core {p q : PowerBlock} (h : q.core = p.core) (g : Nat) : (grovePow q g).fmaxSteps = (grovePow p g).fmaxSteps :=
  (congrArg GrovePower.fmaxSteps (groveSettings_of_core h g) :)
theorem ended_of_core {p q : PowerBlock} (h : q.core = p.core) (g : Nat) : (grovePow q g).ended = (grovePow p g).ended :=
  (congrArg GrovePower.ended (groveSettings_of_core h g) :)
theorem marginPs_of_core {p q : PowerBlock} (h : q.core = p.core) (g : Nat) : (grovePow q g).marginPs = (grovePow p g).marginPs :=
  (congrArg GrovePower.marginPs (groveSettings_of_core h g) :)
theorem cap_of_core {p q : PowerBlock} (h : q.core = p.core) (g : Nat) : (grovePow q g).cap = (grovePow p g).cap :=
  (congrArg GrovePower.cap (groveSettings_of_core h g) :)

@[simp] theorem core_endStretch (time g : Nat) (p : PowerBlock) : (endStretch time g p).core = p.core := by
  unfold endStretch
  split
  · rfl
  · rw [core_reasonOff, core_stretchClocks]

/-- A grove's cap set: its figure and reason are stored, and the rest of Boom's settings stand. -/
theorem core_setCap (g : Nat) (s : State) : (setCap g s).power.core =
    (updGrove s.power g fun x => { x with cap := (capOf s g).1, capReason := (capOf s g).2 }).core := by
  simp only [setCap, power_updPower, core_fitCap]
  split <;> split <;> simp

@[simp] theorem beyondBoom_setCap (g : Nat) (s : State) : (setCap g s).beyondBoom = s.beyondBoom := by
  simp [setCap]

@[simp] theorem recordAt_setCap (g : Nat) (s : State) (n : Nat) : recordAt (setCap g s).err n = recordAt s.err n := by
  simp [setCap]

/-- With no injection point armed no ageing record is injected. -/
theorem ageInjections_of_unarmed {s : State} (h : s.err.inj.cells = []) (g : Nat) : ageInjections g s = s := by
  simp [ageInjections, fireInjection_of_unarmed h]

/-- The grove as a margin sample that leads to a step finds it. -/
def sampledGrove (ps : Nat) (x : GrovePower) : GrovePower := { x with marginPs := min ps 0xFFFF, lowStreak := 0, marginStretch := decide (ps < 10) }

/-- The state before the step of a short margin. -/
def marginNoted (g ps : Nat) (s : State) : State :=
  let s1 := updPower (fun p => updGrove p g (sampledGrove ps)) s
  if ps < 10 then updPower (fun p => reasonOn s.fabric.time 4 (groveScope g) (grovePow s.power g).cap (stretchClocks g true p)) s1
  else updPower (endStretch s.fabric.time g) s1

theorem marginNoted_fields (g ps : Nat) (s : State) :
    (marginNoted g ps s).beyondBoom = s.beyondBoom ∧ (marginNoted g ps s).power.core = (updGrove s.power g (sampledGrove ps)).core ∧
      (marginNoted g ps s).err.written = s.err.written ∧ (marginNoted g ps s).err.inj = s.err.inj ∧
      (marginNoted g ps s).err.suppressed = s.err.suppressed ∧ queueFull (marginNoted g ps s).err = queueFull s.err := by
  unfold marginNoted
  dsimp only
  split
  · exact ⟨by simp, by simp, by simp, by simp, by simp, by simp⟩
  · exact ⟨by simp, by simp, by simp, by simp, by simp, by simp⟩

theorem exec_marginSample {g ps : Nat} {s : State} (hruns : boomRuns s = true) (hg : g < 4) (hbusy : groveBusy s.power g = true)
    (hshort : ps < 10 ∨ (ps < 25 ∧ 59 ≤ (grovePow s.power g).lowStreak)) :
    exec (.marginSample g ps) s = .next (ageInjections g (ageStep g (marginNoted g ps s))) := by
  have hgrove : decide (4 ≤ g) = false := by simp; omega
  have hps : ps < 25 := by omega
  have hsteps : (decide (ps < 10) || decide (60 ≤ (grovePow s.power g).lowStreak + 1)) = true := by
    simp only [Bool.or_eq_true, decide_eq_true_eq]; omega
  show execMarginSample g ps s = _
  simp only [execMarginSample, hruns, hgrove, hbusy, Bool.not_true, Bool.or_self, Bool.false_eq_true, if_false, if_pos hps, hsteps, if_true]
  rfl

/-! ### The steps of ageing (R417, R418) -/

theorem ageStep_of_trim {g : Nat} {s : State} (h : (grovePow s.power g).trimSteps < 24) : ageStep g s =
    report { code := 0x8301, source := srcModule s }
      (updPower (fun p => updGrove p g fun x => { x with trimSteps := x.trimSteps + 1 }) s) := by
  have hsource : srcModule (updPower (fun p => updGrove p g fun x => { x with trimSteps := x.trimSteps + 1 }) s) = srcModule s :=
    srcModule_of_beyondBoom (beyondBoom_updPower ..)
  simp only [ageStep, if_pos h, hsource]

theorem ageStep_of_fmax {g : Nat} {s : State} (htrim : ¬ (grovePow s.power g).trimSteps < 24) (h : (grovePow s.power g).fmaxSteps < 24) :
    ageStep g s = report { code := 0x8302, source := srcModule s } (updPower (fun p =>
      reasonOn s.fabric.time 9 (groveScope g) (grovePow s.power g).cap (updGrove p g fun x => { x with fmaxSteps := x.fmaxSteps + 1 })) s) := by
  have hsource : srcModule (updPower (fun p =>
      reasonOn s.fabric.time 9 (groveScope g) (grovePow s.power g).cap (updGrove p g fun x => { x with fmaxSteps := x.fmaxSteps + 1 })) s) =
      srcModule s := srcModule_of_beyondBoom (beyondBoom_updPower ..)
  simp only [ageStep, if_neg htrim, if_pos h, hsource]

theorem ageStep_of_end {g : Nat} {s : State} (htrim : ¬ (grovePow s.power g).trimSteps < 24) (hfmax : ¬ (grovePow s.power g).fmaxSteps < 24)
    (h : (grovePow s.power g).ended = false) : ageStep g s =
    setCap g (report { code := 0x8303, source := srcModule s } (updPower (fun p => updGrove p g fun x => { x with ended := true }) s)) := by
  have hsource : srcModule (updPower (fun p => updGrove p g fun x => { x with ended := true }) s) = srcModule s :=
    srcModule_of_beyondBoom (beyondBoom_updPower ..)
  simp only [ageStep, if_neg htrim, if_neg hfmax, h, Bool.false_eq_true, if_false, hsource]

/-- The cap of a grove that has ended is 0. -/
theorem capOf_of_ended {s : State} {g : Nat} (h : (grovePow s.power g).ended = true) : (capOf s g).1 = 0 := by
  simp [capOf, h]

/-- A step of age leaves the margin that was read, the armed points and everything beyond Boom. -/
theorem ageStep_keeps (g : Nat) (s : State) : (ageStep g s).beyondBoom = s.beyondBoom ∧ (ageStep g s).err.inj = s.err.inj ∧
    (grovePow (ageStep g s).power g).marginPs = (grovePow s.power g).marginPs := by
  by_cases htrim : (grovePow s.power g).trimSteps < 24
  · rw [ageStep_of_trim htrim]
    exact ⟨by simp, by simp, by simp⟩
  · by_cases hfmax : (grovePow s.power g).fmaxSteps < 24
    · rw [ageStep_of_fmax htrim hfmax]
      refine ⟨by simp, by simp, ?_⟩
      rw [power_report, power_updPower, marginPs_of_core (core_reasonOn ..), grovePow_updGrove_self]
    · cases hended : (grovePow s.power g).ended with
      | true => simp [ageStep, htrim, hfmax, hended]
      | false =>
        rw [ageStep_of_end htrim hfmax hended]
        refine ⟨by simp, ?_, ?_⟩
        · simp [setCap]
        · rw [marginPs_of_core (core_setCap ..), grovePow_updGrove_self]
          simp

section
variable {g : Nat} {s : State} (hroom : queueFull s.err = false)
include hroom

/-- A trim step (R417). -/
theorem ageStep_trim_fields (htrim : (grovePow s.power g).trimSteps < 24) :
    (grovePow (ageStep g s).power g).trimSteps = (grovePow s.power g).trimSteps + 1 ∧
      (grovePow (ageStep g s).power g).fmaxSteps = (grovePow s.power g).fmaxSteps ∧
      (UnderRate 0x8301 (srcModule s) s → (recordAt (ageStep g s).err s.err.written).code = 0x8301) := by
  rw [ageStep_of_trim htrim]
  refine ⟨by simp, by simp, fun hrate => ?_⟩
  have hbeyond := beyondBoom_updPower (fun p => updGrove p g fun x => { x with trimSteps := x.trimSteps + 1 }) s
  have hfields := report_module_fields (s := updPower (fun p => updGrove p g fun x => { x with trimSteps := x.trimSteps + 1 }) s)
    (e := { code := 0x8301, source := srcModule s }) (srcModule_of_beyondBoom hbeyond).symm (by simpa using hroom) fun _ => by
      rw [srcModule_of_beyondBoom hbeyond, underRate_congr (now_of_beyondBoom hbeyond) (suppressed_updPower ..)]
      exact hrate
  rw [written_updPower] at hfields
  exact hfields.1

/-- A step of F_MAX (R418). -/
theorem ageStep_fmax_fields (htrim : (grovePow s.power g).trimSteps = 24) (hfmax : (grovePow s.power g).fmaxSteps < 24) :
    (grovePow (ageStep g s).power g).trimSteps = 24 ∧
      (grovePow (ageStep g s).power g).fmaxSteps = (grovePow s.power g).fmaxSteps + 1 ∧
      (recordAt (ageStep g s).err s.err.written).code = 0x8302 := by
  rw [ageStep_of_fmax (by omega) hfmax]
  refine ⟨?_, ?_, ?_⟩
  · rw [power_report, power_updPower, trimSteps_of_core (core_reasonOn ..), grovePow_updGrove_self]
    exact htrim
  · rw [power_report, power_updPower, fmaxSteps_of_core (core_reasonOn ..), grovePow_updGrove_self]
  · rw [← written_updPower (fun p => reasonOn s.fabric.time 9 (groveScope g) (grovePow s.power g).cap
      (updGrove p g fun x => { x with fmaxSteps := x.fmaxSteps + 1 })) s]
    refine (report_module_fields (e := { code := 0x8302, source := srcModule s }) ?_ (by simpa using hroom) fun hcls => ?_).1
    · exact (srcModule_of_beyondBoom (beyondBoom_updPower ..)).symm
    · exact absurd hcls (show classOf 0x8302 ≠ .corrected by decide)

/-- The end of a grove (R418). -/
theorem ageStep_end_fields (htrim : (grovePow s.power g).trimSteps = 24) (hfmax : (grovePow s.power g).fmaxSteps = 24)
    (hended : (grovePow s.power g).ended = false) :
    (grovePow (ageStep g s).power g).ended = true ∧ (grovePow (ageStep g s).power g).cap = 0 ∧
      (recordAt (ageStep g s).err s.err.written).code = 0x8303 := by
  rw [ageStep_of_end (by omega) (by omega) hended]
  refine ⟨?_, ?_, ?_⟩
  · rw [ended_of_core (core_setCap ..), grovePow_updGrove_self]
    simp
  · rw [cap_of_core (core_setCap ..), grovePow_updGrove_self]
    exact capOf_of_ended (by simp)
  · rw [recordAt_setCap, ← written_updPower (fun p => updGrove p g fun x => { x with ended := true }) s]
    refine (report_module_fields (e := { code := 0x8303, source := srcModule s }) ?_ (by simpa using hroom) fun hcls => ?_).1
    · exact (srcModule_of_beyondBoom (beyondBoom_updPower ..)).symm
    · exact absurd hcls (show classOf 0x8303 ≠ .corrected by decide)

end

/-- No task issues to a grove that has ended. -/
theorem mayIssue_of_ended {s : State} {x : Task} {n : Nat} (hbench : x.bench = some n) (h : (grovePow s.power (benchGrove n)).ended = true) :
    mayIssue s x = false := by
  simp [mayIssue, clockRuns, queuedNext, groveServes, hbench, h]

theorem exec_grantRequest_ended {s : State} {n : Nat} (h : (grovePow s.power (benchGrove n)).ended = true) :
    exec (.grantRequest n) s = .next s := if_pos (by simp [h])

/-! ### What resets leave of a grove's age -/

/-- Trim steps, F_MAX and the end of a grove. -/
def agesAs (g : Nat) (p q : PowerBlock) : Prop :=
  (grovePow q g).trimSteps = (grovePow p g).trimSteps ∧ (grovePow q g).fmaxSteps = (grovePow p g).fmaxSteps ∧
    (grovePow q g).ended = (grovePow p g).ended

theorem agesAs_of_core {p q : PowerBlock} (h : q.core = p.core) (g : Nat) : agesAs g p q :=
  ⟨trimSteps_of_core h g, fmaxSteps_of_core h g, ended_of_core h g⟩

theorem grovePow_powerAfterReset (p : PowerBlock) (g : Nat) : grovePow (powerAfterReset p) g =
    { fmaxSteps := (grovePow p g).fmaxSteps, trimSteps := (grovePow p g).trimSteps, ended := (grovePow p g).ended } :=
  Table.get_mapListed _ _ _ _ rfl

theorem agesAs_powerAfterReset (g : Nat) (p : PowerBlock) : agesAs g p (powerAfterReset p) := by
  rw [agesAs, grovePow_powerAfterReset]
  exact ⟨rfl, rfl, rfl⟩

theorem agesAs_moduleResetN (g : Nat) (s : State) : agesAs g s.power (moduleResetN s).power := by
  unfold moduleResetN
  split
  · exact ⟨rfl, rfl, rfl⟩
  · exact ⟨rfl, rfl, rfl⟩
  · exact ⟨rfl, rfl, rfl⟩
  all_goals exact agesAs_powerAfterReset g s.power

@[simp] theorem power_homeStore (key : HomeKey) (pa : Nat) (bs : List Byte) (s : State) : (homeStore key pa bs s).power = s.power := by
  cases key <;> rfl

@[simp] theorem power_plainWrite (pa : Nat) (bs : List Byte) (s : State) : (plainWrite pa bs s).power = s.power :=
  List.foldlRecOn (motive := fun t : State => t.power = s.power) _ _ rfl fun t ht _ _ => (power_homeStore _ _ _ t).trans ht

@[simp] theorem power_spoilBytes (ts : List Task) (scatAdds : List (Nat × Nat × Nat)) (a : Nat) (bs : List Byte) (s : State) :
    (spoilBytes ts scatAdds a bs s).2.power = s.power := by
  induction bs generalizing a s with
  | nil => rfl
  | cons b bs ih =>
    unfold spoilBytes
    split
    · exact (ih (a + 1) (drawFree s).2).trans rfl
    · exact ih (a + 1) s

@[simp] theorem power_outsideWrite (q : Requester) (pa : Nat) (bs : List Byte) (s : State) : (outsideWrite q pa bs s).2.power = s.power := by
  unfold outsideWrite
  split
  · rfl
  · exact power_spoilBytes ..

@[simp] theorem power_signalBy (f : Nat → Nat) (q : Requester) (pa : Nat) (s : State) : (signalBy f q pa s).power = s.power := by
  unfold signalBy
  split
  · rfl
  · simp

@[simp] theorem power_abortSignal (t : Task) (s : State) : (abortSignal t s).power = s.power := by
  unfold abortSignal
  split
  · split
    · exact power_signalBy ..
    · rfl
  · rfl

@[simp] theorem core_noteIdle (now : Nat) (p : PowerBlock) (g : Nat) : (noteIdle now p g).core = p.core := by
  unfold noteIdle
  split
  · rfl
  · exact core_updGrove (by intro _; rfl) _ _

@[simp] theorem core_returnQuanta (now n : Nat) (p : PowerBlock) : (returnQuanta now n p).core = p.core := by
  simp only [returnQuanta, core_noteIdle, core_poolAdd]
  exact (core_updGrove (by intro _; rfl) _ _).trans rfl

theorem core_requests (p : PowerBlock) (rs : List GrantRequest) : { p with requests := rs }.core = p.core := rfl

/-- The quanta a bench wants once a task of it has ended: those of its running tasks, else of its next one. -/
def wantedQuanta (n : Nat) (s : State) : Nat :=
  if benchDemand s n = 0 then (match preloadedNext s n with
    | some t => demandOf t
    | none => 0) else benchDemand s n

/-- Boom after a bench's grant is settled to what it wants. -/
def settledGrant (n : Nat) (s : State) : PowerBlock :=
  updBench (lowerGrant n (wantedQuanta n s) s.power) n fun b =>
    { b with demand := wantedQuanta n s, stopping := (runningOn s n).any (·.stopping) }

theorem settleGrant_cases (n : Nat) (s : State) : settleGrant n s = { s with power := returnQuanta s.now n s.power } ∨
    ∃ rs, settleGrant n s = { s with power := { settledGrant n s with requests := rs } } := by
  let kept := fitRequests n (wantedQuanta n s) (benchPow (settledGrant n s) n).granted (settledGrant n s).requests
  have heq : settleGrant n s = if wantedQuanta n s = 0 ∨ (benchDemand s n = 0 ∧ (benchPow s.power n).granted = 0) then
      { s with power := returnQuanta s.now n s.power }
    else if (benchPow s.power n).granted < wantedQuanta n s ∧ 0 < (benchPow s.power n).granted then
      { s with power := { settledGrant n s with requests := kept.filter (fun q => !(q.bench == n && q.kind == .topUp)) ++
          [{ bench := n, kind := .topUp, quanta := wantedQuanta n s, since := s.now }] } }
    else { s with power := { settledGrant n s with requests := kept } } := rfl
  rw [heq]
  split
  · exact .inl rfl
  · split
    · exact .inr ⟨_, rfl⟩
    · exact .inr ⟨_, rfl⟩

theorem core_settleGrant (n : Nat) (s : State) : (settleGrant n s).power.core = s.power.core := by
  rcases settleGrant_cases n s with h | ⟨rs, h⟩
  · rw [h]; exact core_returnQuanta ..
  · rw [h]
    exact (core_requests _ _).trans ((core_updBench ..).trans (core_lowerGrant ..))

@[simp] theorem power_takeVector (n : Nat) (s : State) : (takeVector n s).power = s.power := by
  unfold takeVector
  dsimp only
  split
  · rfl
  · split <;> rfl

theorem core_settleBenchOf (t : Task) (s : State) : (settleBenchOf t s).power.core = s.power.core := by
  unfold settleBenchOf
  split
  · rw [core_settleGrant, power_takeVector]
  · rfl

@[simp] theorem power_noteClocks (s : State) : (noteClocks s).power = s.power := rfl
@[simp] theorem power_forgetWaits (r seq : Nat) (s : State) : (forgetWaits r seq s).power = s.power := rfl

/-- The failure of a task of no group leaves Boom's settings. -/
theorem core_failTask {t : Task} (hmember : t.member = false) (code : W16) (s : State) :
    (failTask t code s).power.core = s.power.core := by
  simp only [failTask, hmember, Bool.false_eq_true, if_false]
  rw [core_settleBenchOf, power_abortSignal, power_report, updRing_power, updTask_power, power_forgetWaits, power_noteClocks]
  split
  · rw [updBenchState_power]
  · rfl

@[simp] theorem power_freeGroup (g : Nat) (s : State) : (freeGroup g s).power = s.power := by
  unfold freeGroup
  dsimp only
  split
  · split <;> rfl
  · split
    · split <;> rfl
    · rfl
  all_goals rfl

theorem core_resetEndsTask (t : Task) (code : W16) (s : State) : (resetEndsTask t code s).power.core = s.power.core := by
  simp only [resetEndsTask, power_freeGroup]
  rw [core_failTask rfl]
  split <;> rfl

theorem core_groveEnds (g : Nat) (s : State) : (groveEnds g s).power.core = s.power.core :=
  List.foldlRecOn (motive := fun t : State => t.power.core = s.power.core) _ _ rfl fun t ht x _ => (core_resetEndsTask x _ t).trans ht

/-- The start of a grove reset leaves Boom's settings. -/
theorem core_groveResetStart (g : Nat) (s : State) : (groveResetStart g s).power.core = s.power.core := by
  have hends : (groveTasks s g).foldl (fun s t => resetEndsTask t 0x120E s) (discardLeaving (fun t => t.grove == g) (noteClocks s)) =
      groveEnds g s := rfl
  rw [← core_groveEnds g s]
  simp only [groveResetStart, hends]
  generalize groveEnds g s = s1
  have hshape := foldl_releaseWriter_shape (fun x : Option (Nat × Nat) × RegWriter => some x.2) (s1.opRegs.get {} g).waiting
  generalize hstart : List.foldl _ _ _ = t
  obtain ⟨a, b, h⟩ := hshape _
  rw [h] at hstart
  rw [← hstart]
  refine (core_updGrove (by intro _; rfl) _ _).trans ?_
  exact List.foldlRecOn (motive := fun p : PowerBlock => p.core = s1.power.core) _ _ rfl fun p hp n _ => (core_returnQuanta ..).trans hp

theorem agesAs_requestGroveReset (g h : Nat) (s : State) : agesAs g s.power (requestGroveReset h s).power := by
  unfold requestGroveReset
  split
  · exact ⟨rfl, rfl, rfl⟩
  · split
    · exact agesAs_powerAfterReset g s.power
    · exact agesAs_of_core (core_groveResetStart h s) g

/-- Settles O29: each margin sample that counts takes one step of the grove's age, and resets keep it. -/
theorem ageingEndsAGrove : Obligations.AgeingEndsAGrove := by
  unfold Obligations.AgeingEndsAGrove
  refine ⟨fun g ps s hruns hg hbusy hunarmed hqueue hroom hshort => ?_, fun g s => ?_⟩
  · obtain ⟨hbeyond, hcore, hwritten, hinj, hsuppressed, hfull⟩ := marginNoted_fields g ps s
    have hnow := now_of_beyondBoom hbeyond
    have hsource := srcModule_of_beyondBoom hbeyond
    have hsampled : grovePow (updGrove s.power g (sampledGrove ps)) g = sampledGrove ps (grovePow s.power g) := grovePow_updGrove_self ..
    have htrim : (grovePow (marginNoted g ps s).power g).trimSteps = (grovePow s.power g).trimSteps := by
      rw [trimSteps_of_core hcore, hsampled]; rfl
    have hfmax : (grovePow (marginNoted g ps s).power g).fmaxSteps = (grovePow s.power g).fmaxSteps := by
      rw [fmaxSteps_of_core hcore, hsampled]; rfl
    have hended : (grovePow (marginNoted g ps s).power g).ended = (grovePow s.power g).ended := by
      rw [ended_of_core hcore, hsampled]; rfl
    have hmargin : (grovePow (marginNoted g ps s).power g).marginPs = ps := by
      rw [marginPs_of_core hcore, hsampled]
      show min ps 0xFFFF = ps
      omega
    have hexec := exec_marginSample hruns hg hbusy hshort
    have hrate : ∀ code, UnderRate code (srcModule s) s → UnderRate code (srcModule (marginNoted g ps s)) (marginNoted g ps s) :=
      fun code h => by rw [hsource, underRate_congr hnow hsuppressed]; exact h
    have hroom' : queueFull (marginNoted g ps s).err = false := hfull.trans hroom
    have hunarmed' : (marginNoted g ps s).err.inj.cells = [] := by rw [hinj]; exact hunarmed
    obtain ⟨hbeyond', hinj', hmargin'⟩ := ageStep_keeps g (marginNoted g ps s)
    rw [ageInjections_of_unarmed (by rw [hinj']; exact hunarmed')] at hexec
    refine ⟨_, hexec, hmargin'.trans hmargin, mem_of_beyondBoom (hbeyond'.trans hbeyond), tasks_of_beyondBoom (hbeyond'.trans hbeyond),
      fun h => ?_, fun h h' => ?_, fun h h' h'' => ?_⟩
    · obtain ⟨hstep, hsame, hcode⟩ := ageStep_trim_fields hroom' (g := g) (by rw [htrim]; exact h)
      exact ⟨by rw [hstep, htrim], by rw [hsame, hfmax], fun hr => by rw [← hwritten]; exact hcode (hrate _ hr)⟩
    · obtain ⟨hsame, hstep, hcode⟩ := ageStep_fmax_fields hroom' (g := g) (by rw [htrim, h]) (by rw [hfmax]; exact h')
      rw [hwritten] at hcode
      rw [hfmax] at hstep
      exact ⟨hsame, hstep, by rw [hstep]; omega, by rw [hstep]; omega, hcode⟩
    · obtain ⟨hend, hcap, hcode⟩ := ageStep_end_fields hroom' (g := g) (by rw [htrim, h]) (by rw [hfmax, h']) (by rw [hended, h''])
      rw [hwritten] at hcode
      exact ⟨hend, hcap, capOf_of_ended hend, hcode, fun n hn => exec_grantRequest_ended (by rw [hn]; exact hend),
        fun x n hx hn => mayIssue_of_ended hx (by rw [hn]; exact hend)⟩
  · refine ⟨⟨_, rfl, agesAs_powerAfterReset g s.power⟩, ⟨_, rfl, agesAs_moduleResetN g s⟩, fun h => ⟨_, rfl, agesAs_requestGroveReset g h s⟩⟩

end Sys2Proof.Machine
end

