-- ==== Sys2Proof/Proofs/ClocksAndTemperatures.lean ====
section
/-!
PROOFS. Grove clocks, droop, temperatures, and records that later ones leave as they are (R394, R399, R406–R410, R452).
-/

namespace Sys2Proof.Machine

/-! ### Records that stay (R452) -/

/-- Record n is unread, and later records leave it. -/
def RecordStays (n : Nat) (b b' : ErrBlock) : Prop := recordAt b' n = recordAt b n ∧ b'.read = b.read ∧ b.written ≤ b'.written

theorem RecordStays.refl (n : Nat) (b : ErrBlock) : RecordStays n b b := ⟨rfl, rfl, le_rfl⟩

theorem RecordStays.trans {n : Nat} {a b c : ErrBlock} (h : RecordStays n a b) (h' : RecordStays n b c) : RecordStays n a c :=
  ⟨h'.1.trans h.1, h'.2.1.trans h.2.1, h.2.2.trans h'.2.2⟩

theorem recordStays_queueRecord {n : Nat} {b : ErrBlock} (hread : b.read ≤ n) (hwritten : n < b.written) (e : ErrRecord) :
    RecordStays n b (queueRecord e b) := by
  cases hfull : queueFull b with
  | true =>
    rw [queueRecord_of_full hfull]
    exact ⟨rfl, rfl, le_rfl⟩
  | false =>
    rw [queueRecord_of_room hfull]
    have hroom : b.written - b.read < 1024 := Nat.lt_of_not_le (of_decide_eq_false hfull)
    have hplace : n % 1024 ≠ b.written % 1024 := by omega
    exact ⟨Table.get_set_ne _ _ _ hplace, rfl, Nat.le_succ _⟩

theorem recordStays_suppressed (n : Nat) (b : ErrBlock) (xs : List Suppression) : RecordStays n b { b with suppressed := xs } :=
  ⟨rfl, rfl, le_rfl⟩

theorem recordStays_clearFiring (n : Nat) (fired : Bool) (b : ErrBlock) : RecordStays n b (b.clearFiring fired) :=
  ⟨recordAt_clearFiring .., clearFiring_read .., (clearFiring_written ..).ge⟩

theorem recordStays_pushRecord {n : Nat} {b : ErrBlock} (hread : b.read ≤ n) (hwritten : n < b.written) (now : Nat) (e : ErrRecord) :
    RecordStays n b (pushRecord now e b) := by
  unfold pushRecord
  split
  · unfold queueCorrected
    dsimp only
    split
    · exact ⟨rfl, rfl, le_rfl⟩
    · split
      · exact recordStays_queueRecord hread hwritten _
      · refine RecordStays.trans (recordStays_suppressed n b _) (recordStays_queueRecord ?_ ?_ _)
        · exact hread
        · exact hwritten
  · exact recordStays_queueRecord hread hwritten _

theorem recordStays_sendMaint (n : Nat) (rows : List (List Byte)) (s : State) : RecordStays n s.err (sendMaint rows s).err := by
  obtain ⟨sent, h⟩ := sendMaint_err rows s
  rw [h]
  exact ⟨rfl, rfl, le_rfl⟩

/-- An unread record is not overwritten by a later one. -/
theorem recordStays_report {n : Nat} {s : State} (hread : s.err.read ≤ n) (hwritten : n < s.err.written) (e : ErrRecord) :
    RecordStays n s.err (report e s).err := by
  rw [report, reportAs_eq]
  split
  · exact RecordStays.refl _ _
  · refine RecordStays.trans ?_ (recordStays_sendMaint ..)
    exact (recordStays_pushRecord hread hwritten s.now (stamped (classOf e.code) e s)).trans (recordStays_clearFiring ..)

theorem recordStays_updPower (n : Nat) (f : PowerBlock → PowerBlock) (s : State) : RecordStays n s.err (updPower f s).err :=
  ⟨recordAt_updPower .., read_updPower .., (written_updPower ..).ge⟩

/-! ### PLLs and droop (R394, R399, R406) -/

theorem startDeferred_of_none {now g : Nat} {p : PowerBlock} (h : (grovePow p g).deferred = []) : startDeferred now g p = p := by
  simp [startDeferred, h]

theorem exec_pllSleep {g : Nat} {s : State} (hpll : (grovePow s.power g).pll = .running) (hidle : groveGranted s.power g = false) :
    exec (.pllSleep g) s = .next { s with power := updGrove s.power g fun x => { x with pll := .sleep } } := by
  have hcond : (grovePow s.power g).pll = .running ∧ (!groveGranted s.power g) = true := ⟨hpll, by simp [hidle]⟩
  refine (if_pos hcond).trans ?_
  rw [updPower_of_logCount rfl]

theorem exec_pllRelockDone {g : Nat} {s : State} (hpll : (grovePow s.power g).pll = .locking) (hnone : (grovePow s.power g).deferred = []) :
    exec (.pllRelockDone g) s = .next { s with power := updGrove s.power g fun x => { x with pll := .running } } := by
  have hstart : startDeferred s.now g (updGrove s.power g fun x => { x with pll := .running }) =
      updGrove s.power g fun x => { x with pll := .running } := startDeferred_of_none (by rw [grovePow_updGrove_self]; exact hnone)
  refine (if_pos hpll).trans ?_
  rw [updPower_of_logCount (by rw [hstart]; rfl), hstart]

theorem exec_droopStartHoldoffEnd {g : Nat} {s : State} (hheld : (grovePow s.power g).holdoff.isSome = true)
    (hnone : (grovePow s.power g).deferred = []) :
    exec (.droopStartHoldoffEnd g) s = .next { s with power := updGrove s.power g fun x => { x with holdoff := none } } := by
  have hstart : startDeferred s.now g (updGrove s.power g fun x => { x with holdoff := none }) =
      updGrove s.power g fun x => { x with holdoff := none } := startDeferred_of_none (by rw [grovePow_updGrove_self]; exact hnone)
  refine (if_pos hheld).trans ?_
  rw [updPower_of_logCount (by rw [hstart]; rfl), hstart]

/-- A bench after its grove's clocks are stretched, or are back. -/
theorem benchPow_stretchClocks (g : Nat) (on : Bool) (p : PowerBlock) (n : Nat) : benchPow (stretchClocks g on p) n =
    if benchGrove n = g ∧ ((benchPow p n).clock = .running ∨ (benchPow p n).clock = .stretched) then
      { benchPow p n with clock := if on then .stretched else .running } else benchPow p n :=
  Table.get_mapListed p.benches {} _ n (if_neg (by simp))

theorem grovePow_stretchClocks (g h : Nat) (on : Bool) (p : PowerBlock) : grovePow (stretchClocks g on p) h = grovePow p h := rfl

/-- Boom as a droop leaves it. -/
theorem droop_fields {g : Nat} {s : State} (hruns : boomRuns s = true) (hg : g < 4) :
    ∃ u, exec (.droop g) s = .next u ∧ u.beyondBoom = s.beyondBoom ∧ (grovePow u.power g).stretched = true ∧
      (∀ n, benchPow u.power n = benchPow (stretchClocks g true s.power) n) ∧
      (u.power.running.any fun r => r.reason == 4 && r.scope == groveScope g) = true := by
  have hcond : ¬ (!boomRuns s || decide (4 ≤ g)) = true := by simp [hruns]; omega
  refine ⟨_, if_neg hcond, beyondBoom_updPower .., ?_, fun n => ?_, ?_⟩
  · rw [power_updPower, grovePow, groves_reasonOn]
    exact congrArg GrovePower.stretched (grovePow_updGrove_self s.power g fun x => { x with stretched := true })
  · rw [power_updPower, benchPow, benches_reasonOn]
    rfl
  · rw [power_updPower]
    exact active_reasonOn ..

/-- Boom as the end of a droop leaves it, where the margin does not hold the stretch. -/
theorem droopRecover_fields {g : Nat} {s : State} (hmargin : (grovePow s.power g).marginStretch = false)
    (hstretched : (grovePow s.power g).stretched = true) :
    ∃ u, exec (.droopRecover g) s = .next u ∧ u.beyondBoom = s.beyondBoom ∧
      grovePow u.power g = { grovePow s.power g with stretched := false, holdoff := some (s.now + 5000) } ∧
      ∀ n, benchPow u.power n = benchPow (stretchClocks g false s.power) n := by
  have hgrove : grovePow (updGrove s.power g fun x => { x with stretched := false, holdoff := some (s.now + 5000) }) g =
      { grovePow s.power g with stretched := false, holdoff := some (s.now + 5000) } := grovePow_updGrove_self ..
  have hend : endStretch s.fabric.time g (updGrove s.power g fun x => { x with stretched := false, holdoff := some (s.now + 5000) }) =
      reasonOff s.fabric.time 4 (groveScope g) (stretchClocks g false
        (updGrove s.power g fun x => { x with stretched := false, holdoff := some (s.now + 5000) })) := by
    refine if_neg ?_
    rw [hgrove]
    simp [hmargin]
  refine ⟨_, if_pos hstretched, beyondBoom_updPower .., ?_, fun n => ?_⟩
  · rw [power_updPower, hend, grovePow, groves_reasonOff]
    exact hgrove
  · rw [power_updPower, hend, benchPow, benches_reasonOff]
    rfl

theorem startAllowed_of_holdoff {now : Nat} {x : GrovePower} {t : Nat} (h : x.holdoff = some t) (hlate : now < t) :
    startAllowed now x = false := by
  have hnot : decide (t ≤ now) = false := by simp; omega
  simp [startAllowed, h, hnot]

/-! ### Sensors (R407–R410) -/

theorem sensorState_putSensor (e : SensorState) (p : PowerBlock) : sensorState (putSensor e p) e.sensor = e := by
  simp [sensorState, putSensor]

/-- The sensor that a state was looked up by. -/
theorem sensor_sensorState (p : PowerBlock) (x : Sensor) : (sensorState p x).sensor = x := by
  unfold sensorState
  cases h : p.sensors.find? fun e => e.sensor == x with
  | none => rfl
  | some e => simpa using List.find?_some h

/-- The temperatures of the groves noted: all else of Boom stands. -/
theorem noteTemps_shape (p : PowerBlock) : ∃ gs, noteTemps p = { p with groves := gs } :=
  List.foldlRecOn (motive := fun q : PowerBlock => ∃ gs, q = { p with groves := gs }) _ _ ⟨p.groves, rfl⟩ fun q ⟨gs, hq⟩ g _ =>
    by subst hq; exact ⟨_, rfl⟩

/-- The state after a reading has been noted, where no injection point is armed. -/
def withReading (x : Sensor) (temp : Nat) (s : State) : State :=
  updPower (fun p => noteTemps (putSensor { sensorState s.power x with temp := min temp 255, at_ := s.now, silent := false } p)) s

/-- The state with a device's temperature noted in the tier controller (R282). -/
def withDevice (x : Sensor) (temp : Nat) (s : State) : State := { s with tier := noteDevice x (min temp 255) s.tier }

theorem takeReading_of_unarmed {x : Sensor} {temp : Nat} {s : State} (hruns : boomRuns s = true) (hexists : sensorExists x = true)
    (hunarmed : s.err.inj.cells = []) : takeReading x temp s = tempResponse x false (withDevice x temp (withReading x temp s)) := by
  have hcond : ¬ (s.life.power = .off ∨ (!sensorExists x) = true) := by simp [hexists, boomRuns_not_off hruns]
  have hfired : ([0x8101, 0x8103, 0x8104, 0x8105] : List W16).foldl
      (fun s c => (fireInjection c (fun w => w % 65536 == sensorLocator x) s).2) s = s := by
    simp [fireInjection_of_unarmed hunarmed]
  have hoverride : firstSome (fun c => firedOverride c (fun w => w % 65536 == sensorLocator x) s) [0x8101, 0x8103, 0x8104, 0x8105] = none := by
    simp [firstSome, firedOverride, hunarmed]
  unfold takeReading
  rw [if_neg hcond]
  simp only [hfired, hoverride]
  exact if_pos hruns

theorem power_withDevice (x : Sensor) (temp : Nat) (s : State) : (withDevice x temp s).power = s.power := rfl
theorem err_withDevice (x : Sensor) (temp : Nat) (s : State) : (withDevice x temp s).err = s.err := rfl

theorem power_withReading (x : Sensor) (temp : Nat) (s : State) : ∃ gs, (withDevice x temp (withReading x temp s)).power =
    { putSensor { sensorState s.power x with temp := min temp 255, at_ := s.now, silent := false } s.power with groves := gs } := by
  obtain ⟨gs, h⟩ := noteTemps_shape (putSensor { sensorState s.power x with temp := min temp 255, at_ := s.now, silent := false } s.power)
  exact ⟨gs, by rw [power_withDevice, withReading, power_updPower, h]⟩

theorem err_withReading (x : Sensor) (temp : Nat) (s : State) : (withDevice x temp (withReading x temp s)).err = s.err := by
  obtain ⟨gs, h⟩ := noteTemps_shape (putSensor { sensorState s.power x with temp := min temp 255, at_ := s.now, silent := false } s.power)
  rw [err_withDevice, withReading]
  refine err_updPower_of_logCount ?_
  rw [h]
  rfl

/-- What a sensor's part does beside the alarm: the throttle of a package, that of the Landing die (R407). -/
def partResponse (x : Sensor) (t : Nat) (injected : Bool) (s : State) : State :=
  match x with
  | .package n => packageResponse n t injected s
  | .landing _ => landingResponse injected s
  | _ => s

theorem tempResponse_of_trip {x : Sensor} {k : Nat} {s : State} (htrip : tripAt x = some k) (hhot : k ≤ (sensorState s.power x).counts)
    (injected : Bool) : tempResponse x injected s = tripModule x injected s :=
  if_pos (by simp [htrip, hhot])

theorem tempResponse_of_alarm {x : Sensor} {a k : Nat} {s : State} (halarm : alarmAt x = some a) (htrip : tripAt x = some k)
    (hbelow : (sensorState s.power x).counts < k) (hhot : a ≤ (sensorState s.power x).counts) (injected : Bool) :
    tempResponse x injected s = partResponse x (sensorState s.power x).counts injected (assertTherm injected s) := by
  refine (if_neg (by simp [htrip]; omega)).trans ?_
  rw [if_pos (by simp [halarm, hhot])]
  cases x <;> rfl

theorem tempResponse_of_cool {x : Sensor} {a k : Nat} {s : State} (halarm : alarmAt x = some a) (htrip : tripAt x = some k)
    (hbelow : (sensorState s.power x).counts < k) (hcool : (sensorState s.power x).counts < a) (injected : Bool) :
    tempResponse x injected s = partResponse x (sensorState s.power x).counts injected s := by
  refine (if_neg (by simp [htrip]; omega)).trans ?_
  rw [if_neg (by simp [halarm]; omega)]
  cases x <;> rfl

/-- A change of Boom, or a record, after which the sensors, THERM_N and every unread record stand. -/
def SensorsKept (s t : State) : Prop :=
  t.beyondBoom = s.beyondBoom ∧ t.power.sensors = s.power.sensors ∧ (s.power.thermAsserted = true → t.power.thermAsserted = true) ∧
    ∀ n, s.err.read ≤ n → n < s.err.written → RecordStays n s.err t.err

theorem SensorsKept.refl (s : State) : SensorsKept s s := ⟨rfl, rfl, id, fun n _ _ => RecordStays.refl n _⟩

theorem SensorsKept.trans {s t u : State} (h : SensorsKept s t) (h' : SensorsKept t u) : SensorsKept s u := by
  refine ⟨h'.1.trans h.1, h'.2.1.trans h.2.1, h'.2.2.1 ∘ h.2.2.1, fun n hread hwritten => ?_⟩
  obtain ⟨hsame, hread', hwritten'⟩ := h.2.2.2 n hread hwritten
  exact RecordStays.trans ⟨hsame, hread', hwritten'⟩ (h'.2.2.2 n (by omega) (by omega))

theorem SensorsKept.updPower {f : PowerBlock → PowerBlock} {s t : State} (h : SensorsKept s t) (hsensors : (f t.power).sensors = t.power.sensors)
    (htherm : t.power.thermAsserted = true → (f t.power).thermAsserted = true) : SensorsKept s (updPower f t) :=
  h.trans ⟨beyondBoom_updPower f t, by rw [power_updPower, hsensors], by rw [power_updPower]; exact htherm,
    fun n _ _ => recordStays_updPower n f t⟩

theorem SensorsKept.report {s t : State} (h : SensorsKept s t) (e : ErrRecord) : SensorsKept s (report e t) :=
  h.trans ⟨beyondBoom_report e t, by rw [power_report], by rw [power_report]; exact id,
    fun _ hread hwritten => recordStays_report hread hwritten e⟩

theorem sensorsKept_partResponse (x : Sensor) (t : Nat) (injected : Bool) (s : State) : SensorsKept s (partResponse x t injected s) := by
  unfold partResponse
  split
  · unfold packageResponse
    split
    · refine SensorsKept.report ?_ _
      exact (SensorsKept.refl s).updPower rfl id
    · split
      · exact (SensorsKept.refl s).updPower rfl id
      · exact SensorsKept.refl s
  · unfold landingResponse
    dsimp only
    split
    · refine SensorsKept.report ?_ _
      exact (SensorsKept.refl s).updPower rfl id
    · split
      · exact (SensorsKept.refl s).updPower rfl id
      · exact SensorsKept.refl s
  · exact SensorsKept.refl s

theorem sensorsKept_assertTherm (injected : Bool) (s : State) : SensorsKept s (assertTherm injected s) := by
  unfold assertTherm
  split
  · exact SensorsKept.refl s
  · refine SensorsKept.report ?_ _
    exact (SensorsKept.refl s).updPower rfl fun _ => rfl

theorem thermAsserted_assertTherm (injected : Bool) (s : State) : (assertTherm injected s).power.thermAsserted = true := by
  unfold assertTherm
  split
  · assumption
  · simp

/-- Below its trip threshold a reading changes nothing of the sensors or of an unread record. -/
theorem sensorsKept_tempResponse {x : Sensor} {a k : Nat} {s : State} (halarm : alarmAt x = some a) (htrip : tripAt x = some k)
    (hbelow : (sensorState s.power x).counts < k) (injected : Bool) : SensorsKept s (tempResponse x injected s) := by
  by_cases hhot : a ≤ (sensorState s.power x).counts
  · rw [tempResponse_of_alarm halarm htrip hbelow hhot]
    exact (sensorsKept_assertTherm ..).trans (sensorsKept_partResponse ..)
  · rw [tempResponse_of_cool halarm htrip hbelow (by omega)]
    exact sensorsKept_partResponse ..

/-- Each threshold of a part, and the alarm before the trip. -/
theorem thresholds_of_alarm {x : Sensor} {a k : Nat} (halarm : alarmAt x = some a) (htrip : tripAt x = some k) :
    95 ≤ a ∧ a < k ∧ k ≤ 110 := by
  cases x <;> simp only [alarmAt, tripAt, Option.some.injEq, reduceCtorEq] at halarm htrip <;> omega

/-- A part's throttle below its lower threshold: nothing is recorded, the sensors and THERM_N stand. -/
theorem partResponse_of_cool {x : Sensor} {t : Nat} {s : State} (ht : t ≤ 85) (hhot : hottest s.power isLandingSensor ≤ 85)
    (injected : Bool) :
    ∃ p, partResponse x t injected s = { s with power := p } ∧ p.sensors = s.power.sensors ∧ p.thermAsserted = s.power.thermAsserted := by
  unfold partResponse
  split
  · refine ⟨_, (if_neg (by omega)).trans ((if_pos ht).trans (updPower_of_logCount rfl)), rfl, rfl⟩
  · refine ⟨_, (if_neg (by omega)).trans ((if_pos (by omega)).trans (updPower_of_logCount rfl)), rfl, rfl⟩
  · exact ⟨s.power, rfl, rfl, rfl⟩

/-- The reading that a sensor's state holds. -/
def readingOf (x : Sensor) (temp : Nat) (s : State) : SensorState :=
  { sensorState s.power x with temp := min temp 255, at_ := s.now, silent := false }

/-- A reading noted: the sensor holds it, and nothing else of what the thresholds go by has changed. -/
theorem reading_noted (x : Sensor) (temp : Nat) (s : State) :
    let u := withDevice x temp (withReading x temp s)
    sensorState u.power x = readingOf x temp s ∧ u.power.sensors = readingOf x temp s :: s.power.sensors.filter (fun y => y.sensor != x) ∧
      u.power.thermAsserted = s.power.thermAsserted ∧ u.err = s.err ∧ u.life = s.life ∧ u.mem = s.mem ∧ u.now = s.now ∧ u.cfg = s.cfg := by
  intro u
  obtain ⟨gs, hpower⟩ := power_withReading x temp s
  have hsensor := sensor_sensorState s.power x
  have hbeyond : (withReading x temp s).beyondBoom = s.beyondBoom := beyondBoom_updPower ..
  refine ⟨?_, ?_, by rw [hpower]; rfl, err_withReading x temp s, (life_of_beyondBoom hbeyond :), (mem_of_beyondBoom hbeyond :),
    (now_of_beyondBoom hbeyond :), (cfg_of_beyondBoom hbeyond :)⟩
  · rw [hpower]
    have h := sensorState_putSensor (readingOf x temp s) s.power
    rw [show (readingOf x temp s).sensor = x from hsensor] at h
    exact h
  · rw [hpower]
    show readingOf x temp s :: s.power.sensors.filter (fun y => y.sensor != (sensorState s.power x).sensor) = _
    rw [hsensor]

theorem counts_readingOf (x : Sensor) (temp : Nat) (s : State) : (readingOf x temp s).counts = min temp 255 := rfl

/-- A module trip (R409). -/
theorem tripModule_fields (x : Sensor) (injected : Bool) (s : State) : (tripModule x injected s).life.power = .trip ∧
    (tripModule x injected s).power.trip = some x ∧ (tripModule x injected s).power.thermAsserted = true ∧
    (tripModule x injected s).tasks = [] ∧ (tripModule x injected s).scratch = {} := by
  rw [tripModule]
  have hbeyond := beyondBoom_updPower (fun p => { p with trip := some x, tripInjected := injected, thermAsserted := true })
    (keepIdentity s (resetSteps .trip s.life.keptCause s))
  have hscratch := congrArg State.scratch hbeyond
  refine ⟨?_, ?_, ?_, ?_, hscratch⟩
  · rw [life_of_beyondBoom hbeyond]; rfl
  · rw [power_updPower]
  · rw [power_updPower]
  · rw [tasks_of_beyondBoom hbeyond]; rfl

/-- The record of a sensor that has fallen silent (R408). -/
def silentRecord (x : Sensor) (s : State) : ErrRecord :=
  { code := 0x8102, source := srcModule s, detail0 := BitVec.ofNat 64 (sensorLocator x),
    detail1 := BitVec.ofNat 64 (sensorState s.power x).temp }

/-- The state with a sensor's silence noted. -/
def silentNoted (x : Sensor) (s : State) : State :=
  updPower (fun p => noteTemps (putSensor { sensorState s.power x with silent := true } p)) s

theorem silentNoted_sensor (x : Sensor) (s : State) :
    sensorState (silentNoted x s).power x = { sensorState s.power x with silent := true } := by
  obtain ⟨gs, hnoted⟩ := noteTemps_shape (putSensor { sensorState s.power x with silent := true } s.power)
  rw [silentNoted, power_updPower, hnoted]
  have h := sensorState_putSensor { sensorState s.power x with silent := true } s.power
  rw [show ({ sensorState s.power x with silent := true } : SensorState).sensor = x from sensor_sensorState s.power x] at h
  exact h

/-- The record of an alarm that is not suppressed. -/
theorem alarm_recorded {u : State} (hfree : u.power.thermAsserted = false) (hroom : queueFull u.err = false)
    (hrate : UnderRate 0x8103 (srcModule u) u) : (recordAt (assertTherm false u).err u.err.written).code = 0x8103 ∧
      (assertTherm false u).err.written = u.err.written + 1 ∧ (assertTherm false u).err.read = u.err.read := by
  have hbeyond := beyondBoom_updPower (fun p => { p with thermAsserted := true }) u
  have hsame : assertTherm false u = report { code := 0x8103, source := srcModule u } (updPower (fun p => { p with thermAsserted := true }) u) :=
    if_neg (by simp [hfree])
  have hsource : ({ code := 0x8103, source := srcModule u } : ErrRecord).source =
      srcModule (updPower (fun p => { p with thermAsserted := true }) u) := (srcModule_of_beyondBoom hbeyond).symm
  have hroom' : queueFull (updPower (fun p => { p with thermAsserted := true }) u).err = false := by simpa using hroom
  have hrate' : UnderRate 0x8103 (srcModule u) (updPower (fun p => { p with thermAsserted := true }) u) :=
    (underRate_congr (now_of_beyondBoom hbeyond) (suppressed_updPower ..) _ _).mpr hrate
  have hcls : classOf 0x8103 = .corrected := by decide
  rw [hsame]
  refine ⟨?_, ?_, by simp⟩
  · rw [← written_updPower (fun p => { p with thermAsserted := true }) u]
    exact (report_corrected_fields hcls (undelivered_module _ _ hsource) hrate' hroom').1
  · rw [(report_corrected_of_room (e := { code := 0x8103, source := srcModule u }) hcls (undelivered_module _ _ hsource) hrate' hroom').1,
      written_updPower]

section
variable {x : Sensor} {temp a k : Nat} {s : State} (hruns : boomRuns s = true) (hexists : sensorExists x = true)
  (hunarmed : s.err.inj.cells = []) (halarm : alarmAt x = some a) (htrip : tripAt x = some k)
include hruns hexists hunarmed halarm htrip

/-- A cool reading, where no other sensor has read: it is noted and records nothing. -/
theorem takeReading_cool (hcool : temp ≤ 85) (hsensors : s.power.sensors = []) :
    ∃ t, takeReading x temp s = t ∧ sensorState t.power x = readingOf x temp s ∧ t.power.thermAsserted = s.power.thermAsserted ∧
      t.err = s.err ∧ t.life = s.life ∧ t.mem = s.mem := by
  obtain ⟨hstate, hlist, htherm, herr, hlife, hmem, -, -⟩ := reading_noted x temp s
  obtain ⟨hlow, hbelow, hhigh⟩ := thresholds_of_alarm halarm htrip
  have hcounts : (sensorState (withDevice x temp (withReading x temp s)).power x).counts = min temp 255 := by rw [hstate]; rfl
  have hhot : hottest (withDevice x temp (withReading x temp s)).power isLandingSensor ≤ 85 := by
    rw [hottest, hlist, hsensors]
    simp only [List.filter_nil, List.foldl_cons, List.foldl_nil, counts_readingOf]
    split <;> omega
  obtain ⟨p, hpart, hsame, htherm'⟩ := partResponse_of_cool (x := x) (t := min temp 255) (by omega) hhot false
  refine ⟨_, rfl, ?_⟩
  rw [takeReading_of_unarmed hruns hexists hunarmed, tempResponse_of_cool halarm htrip (by rw [hcounts]; omega) (by rw [hcounts]; omega),
    hcounts, hpart]
  refine ⟨?_, htherm'.trans htherm, herr, hlife, hmem⟩
  rw [← hstate, sensorState, sensorState, hsame]

/-- A reading at the alarm: THERM_N is asserted, with its record where R454 does not suppress it. -/
theorem takeReading_alarm (hhot : a ≤ temp) (hbelow : temp < k) (hqueue : QueueBounded s) (hroom : queueFull s.err = false)
    (hfree : s.power.thermAsserted = false) :
    ∃ t, takeReading x temp s = t ∧ sensorState t.power x = readingOf x temp s ∧ t.power.thermAsserted = true ∧
      (UnderRate 0x8103 (srcModule s) s → (recordAt t.err s.err.written).code = 0x8103) ∧ t.life = s.life ∧ t.mem = s.mem := by
  obtain ⟨hstate, hlist, htherm, herr, hlife, hmem, hnow, hcfg⟩ := reading_noted x temp s
  obtain ⟨hlow, habove, hhigh⟩ := thresholds_of_alarm halarm htrip
  have hcounts : (sensorState (withDevice x temp (withReading x temp s)).power x).counts = min temp 255 := by rw [hstate]; rfl
  refine ⟨_, rfl, ?_⟩
  rw [takeReading_of_unarmed hruns hexists hunarmed, tempResponse_of_alarm halarm htrip (by rw [hcounts]; omega) (by rw [hcounts]; omega),
    hcounts]
  have hsource : srcModule (withDevice x temp (withReading x temp s)) = srcModule s := by
    simp only [srcModule, moduleIndex, mladyth, hcfg]
  generalize withDevice x temp (withReading x temp s) = u at *
  obtain ⟨hbeyond, hsensors, -, -⟩ := sensorsKept_assertTherm false u
  obtain ⟨hbeyond', hsensors', htherm', hstays⟩ := sensorsKept_partResponse x (min temp 255) false (assertTherm false u)
  refine ⟨?_, htherm' (thermAsserted_assertTherm ..), fun hrate => ?_, (life_of_beyondBoom (hbeyond'.trans hbeyond)).trans hlife,
    (mem_of_beyondBoom (hbeyond'.trans hbeyond)).trans hmem⟩
  · rw [← hstate, sensorState, sensorState, hsensors', hsensors]
  · have hrecord := alarm_recorded (u := u) (by rw [htherm]; exact hfree) (by rw [herr]; exact hroom)
      (by rw [hsource, underRate_congr hnow (by rw [herr])]; exact hrate)
    obtain ⟨hcode, hwritten, hread⟩ := hrecord
    rw [herr] at hcode hwritten hread
    rw [(hstays s.err.written (by rw [hread]; exact hqueue.1) (by omega)).1]
    exact hcode

/-- A reading at the trip threshold: the module trips. -/
theorem takeReading_trip (hhot : k ≤ temp) :
    ∃ t, takeReading x temp s = t ∧ t.life.power = .trip ∧ t.power.trip = some x ∧ t.power.thermAsserted = true ∧ t.tasks = [] ∧
      t.scratch = {} := by
  obtain ⟨hstate, -⟩ := reading_noted x temp s
  obtain ⟨hlow, habove, hhigh⟩ := thresholds_of_alarm halarm htrip
  have hcounts : (sensorState (withDevice x temp (withReading x temp s)).power x).counts = min temp 255 := by rw [hstate]; rfl
  refine ⟨_, rfl, ?_⟩
  rw [takeReading_of_unarmed hruns hexists hunarmed, tempResponse_of_trip htrip (by rw [hcounts]; omega)]
  exact tripModule_fields ..

omit hruns hexists hunarmed in
theorem silentTemp_of_alarm : silentTemp x = a ∧ a < k := by
  obtain ⟨-, habove, -⟩ := thresholds_of_alarm halarm htrip
  exact ⟨by simp [silentTemp, halarm], habove⟩

/-- A sensor that has fallen silent: it is recorded with its locator and its last reading. -/
theorem sensorSilent_recorded (hqueue : QueueBounded s) (hroom : queueFull s.err = false) (hheard : (sensorState s.power x).silent = false) :
    ∃ t, sensorSilent x s = t ∧ (sensorState t.power x).silent = true ∧ (recordAt t.err s.err.written).code = 0x8102 ∧
      (recordAt t.err s.err.written).detail0 = BitVec.ofNat 64 (sensorLocator x) ∧
      (recordAt t.err s.err.written).detail1 = BitVec.ofNat 64 (sensorState s.power x).temp ∧ t.mem = s.mem := by
  obtain ⟨hsilent, habove⟩ := silentTemp_of_alarm halarm htrip
  have hcls : classOf (silentRecord x s).code ≠ .corrected := show classOf 0x8102 ≠ .corrected by decide
  have hbeyond : (silentNoted x s).beyondBoom = s.beyondBoom := by rw [silentNoted, beyondBoom_updPower]
  have hwritten : (silentNoted x s).err.written = s.err.written := by rw [silentNoted, written_updPower]
  have hread : (silentNoted x s).err.read = s.err.read := by rw [silentNoted, read_updPower]
  have hroom' : queueFull (silentNoted x s).err = false := by rw [silentNoted, queueFull_updPower]; exact hroom
  have hnoted := silentNoted_sensor x s
  have hsame : sensorSilent x s = tempResponse x false (report (silentRecord x s) (silentNoted x s)) := by
    unfold sensorSilent
    simp only [fireInjection_of_unarmed hunarmed, hruns, hexists, hheard, Bool.not_true, Bool.or_self, Bool.false_eq_true, if_false]
    rfl
  generalize silentNoted x s = u at *
  have hdelivered := undelivered_module u (silentRecord x s) (srcModule_of_beyondBoom hbeyond).symm
  obtain ⟨hcode, -, -, -, -, -, hzero, hone, -, -⟩ := report_written_fields hroom' hdelivered hcls
  have hwritten' := report_written_of_room hroom' hdelivered hcls
  have hstate : sensorState (report (silentRecord x s) u).power x = { sensorState s.power x with silent := true } := by
    rw [power_report, hnoted]
  have hbelow : (sensorState (report (silentRecord x s) u).power x).counts < k := by
    rw [hstate]
    show silentTemp (sensorState s.power x).sensor < k
    rw [sensor_sensorState, hsilent]
    exact habove
  obtain ⟨hbeyond', hsensors, -, hstays⟩ := sensorsKept_tempResponse halarm htrip hbelow false
  obtain ⟨hstays', -, -⟩ := hstays s.err.written (by rw [report_err_read, hread]; exact hqueue.1) (by rw [hwritten', hwritten]; omega)
  rw [hwritten] at hcode hzero hone
  refine ⟨_, hsame, ?_, ?_, ?_, ?_, ?_⟩
  · rw [sensorState, hsensors]
    exact congrArg SensorState.silent hstate
  · rw [hstays']; exact hcode
  · rw [hstays']; exact hzero
  · rw [hstays']; exact hone
  · exact (mem_of_beyondBoom hbeyond').trans ((mem_of_beyondBoom (beyondBoom_report ..)).trans (mem_of_beyondBoom hbeyond))

end

/-! ### Caps and THERM_N (R408, R410) -/

theorem cap_setCap (g h : Nat) (s : State) :
    (grovePow (setCap g s).power h).cap = if h = g then (capOf s g).1 else (grovePow s.power h).cap := by
  rw [cap_of_core (core_setCap ..), grovePow_updGrove]
  split <;> rfl

/-- A cap that is set leaves what caps are formed from. -/
theorem capOf_setCap (g h : Nat) (s : State) : (capOf (setCap g s) h).1 = (capOf s h).1 := by
  have hsettings := groveSettings_of_core (core_setCap g s) h
  have hgrove : (grovePow (updGrove s.power g fun x => { x with cap := (capOf s g).1, capReason := (capOf s g).2 }) h).temp =
      (grovePow s.power h).temp ∧ (grovePow (updGrove s.power g fun x => { x with cap := (capOf s g).1, capReason := (capOf s g).2 }) h).stackTemp =
      (grovePow s.power h).stackTemp ∧ (grovePow (updGrove s.power g fun x => { x with cap := (capOf s g).1, capReason := (capOf s g).2 }) h).ended =
      (grovePow s.power h).ended := by
    rw [grovePow_updGrove]
    split
    case isTrue heq => rw [heq]; exact ⟨rfl, rfl, rfl⟩
    case isFalse => exact ⟨rfl, rfl, rfl⟩
  obtain ⟨htemp, hstack, hended⟩ := hgrove
  have htemp' : (grovePow (setCap g s).power h).temp = (grovePow s.power h).temp := (congrArg GrovePower.temp hsettings).trans htemp
  have hstack' : (grovePow (setCap g s).power h).stackTemp = (grovePow s.power h).stackTemp :=
    (congrArg GrovePower.stackTemp hsettings).trans hstack
  have hended' : (grovePow (setCap g s).power h).ended = (grovePow s.power h).ended := (congrArg GrovePower.ended hsettings).trans hended
  simp only [capOf, powerCfg, cfg_of_beyondBoom (beyondBoom_setCap g s), htemp', hstack', hended']

theorem groveCapUpdate_caps (s : State) {g : Nat} (hg : g < 4) :
    (grovePow (([0, 1, 2, 3] : List Nat).foldl (fun s g => setCap g s) s).power g).cap = (capOf s g).1 := by
  simp only [List.foldl_cons, List.foldl_nil, cap_setCap, capOf_setCap]
  obtain rfl | rfl | rfl | rfl : g = 0 ∨ g = 1 ∨ g = 2 ∨ g = 3 := by omega
  all_goals rfl

theorem exec_thermNRelease {s : State} (htrip : s.life.power ≠ .trip) (hhold : s.life.power ≠ .hold)
    (hcool : ∀ e ∈ s.power.sensors, ∀ a, alarmAt e.sensor = some a → e.counts + 5 ≤ a) :
    exec .thermNRelease s = .next { s with power := { s.power with thermAsserted := false } } := by
  show execThermNRelease s = _
  unfold execThermNRelease
  dsimp only
  rw [if_neg, updPower_of_logCount rfl]
  rintro (h | h)
  · exact htrip h
  · obtain ⟨e, he, hhot⟩ := List.any_eq_true.mp h
    cases halarm : alarmAt e.sensor with
    | none => simp [halarm, hhold] at hhot
    | some a =>
      have := hcool e he a halarm
      simp only [halarm, decide_eq_true_eq] at hhot
      omega

/-- Settles O28: each clock command changes its grove, each reading takes the branch of its threshold. -/
theorem clocksAndTemperaturesAct : Obligations.ClocksAndTemperaturesAct := by
  unfold Obligations.ClocksAndTemperaturesAct
  refine ⟨fun g s hmargin => ⟨exec_pllSleep, exec_pllRelockDone, fun hruns hg => ?_, fun hstretched => ?_, exec_droopStartHoldoffEnd⟩,
    fun x temp a k s hruns hexists hunarmed halarm htrip hqueue hroom hfree => ⟨fun hcool hsensors hpackages => ?_, fun hhot hbelow => ?_,
      fun hhot => ?_, fun hheard => ?_⟩, fun d temp s => ⟨fun hd => ?_, fun hd => ?_⟩, fun s hruns => ?_, fun s => exec_thermNRelease⟩
  · obtain ⟨u, hexec, hbeyond, hset, hbenches, hreason⟩ := droop_fields hruns hg
    refine ⟨u, hexec, hset, fun n hn hclock => ?_, fun n hn => ?_, hreason, mem_of_beyondBoom hbeyond, tasks_of_beyondBoom hbeyond⟩
    · rw [hbenches, benchPow_stretchClocks, if_pos ⟨hn, .inl hclock⟩]
      exact ⟨rfl, rfl⟩
    · rw [hbenches, benchPow_stretchClocks, if_neg fun h => hn h.1]
  · obtain ⟨u, hexec, hbeyond, hgrove, hbenches⟩ := droopRecover_fields hmargin hstretched
    refine ⟨u, hexec, by rw [hgrove], by rw [hgrove], fun n hn hclock => ?_, ?_, mem_of_beyondBoom hbeyond, tasks_of_beyondBoom hbeyond⟩
    · rw [hbenches, benchPow_stretchClocks, if_pos ⟨hn, .inr hclock⟩]
      rfl
    · exact startAllowed_of_holdoff (t := s.now + 5000) (by rw [hgrove]) (by omega)
  · obtain ⟨t, ht, hstate, htherm, herr, hlife, hmem⟩ := takeReading_cool hruns hexists hunarmed halarm htrip hcool hsensors
    have hmin : min temp 255 = temp := by omega
    exact ⟨t, congrArg Host.Outcome.next ht, by rw [hstate]; exact hmin, by rw [hstate]; rfl, htherm.trans hfree, herr, hlife, hmem⟩
  · obtain ⟨t, ht, hstate, htherm, hcode, hlife, hmem⟩ := takeReading_alarm hruns hexists hunarmed halarm htrip hhot hbelow hqueue hroom hfree
    have hmin : min temp 255 = temp := by have := thresholds_of_alarm halarm htrip; omega
    exact ⟨t, congrArg Host.Outcome.next ht, by rw [hstate]; exact hmin, htherm, hcode, hlife, hmem⟩
  · obtain ⟨t, ht, hfields⟩ := takeReading_trip hruns hexists hunarmed halarm htrip hhot
    exact ⟨t, congrArg Host.Outcome.next ht, hfields⟩
  · obtain ⟨t, ht, hfields⟩ := sensorSilent_recorded hruns hexists hunarmed halarm htrip hqueue hroom hheard
    exact ⟨t, congrArg Host.Outcome.next ht, hfields⟩
  · exact congrArg (fun x => Host.Outcome.next (takeReading x temp s)) (if_pos hd)
  · exact congrArg (fun x => Host.Outcome.next (takeReading x temp s)) (if_neg (by omega))
  · have hbeyond : (([0, 1, 2, 3] : List Nat).foldl (fun s g => setCap g s) s).beyondBoom = s.beyondBoom := by simp
    exact ⟨_, if_neg (by simp [hruns]), fun g hg => groveCapUpdate_caps s hg, mem_of_beyondBoom hbeyond, tasks_of_beyondBoom hbeyond⟩

end Sys2Proof.Machine
end

