-- ==== Sys2Proof/Proofs/DresserWalk.lean ====
section
/-!
PROOFS. The walk of a Dresser run: an instruction of a run that is ready takes its effect and the run goes on past it (R171, R194, R195);
lanes and what writes of lanes leave (R168, R172).
-/

namespace Sys2Proof.Machine

/-! ### The next instruction -/

theorem benchOf_updBenchState (n m : Nat) (f : Bench → Bench) (s : State) :
    benchOf (updBenchState n f s) m = if m = n then f (benchOf s n) else benchOf s m :=
  Table.get_update s.benches {} m n f

@[simp] theorem benchOf_updBenchState_self (n : Nat) (f : Bench → Bench) (s : State) :
    benchOf (updBenchState n f s) n = f (benchOf s n) := by
  rw [benchOf_updBenchState, if_pos rfl]

theorem benchOf_updBenchState_ne {n m : Nat} (h : m ≠ n) (f : Bench → Bench) (s : State) :
    benchOf (updBenchState n f s) m = benchOf s m := by
  rw [benchOf_updBenchState, if_neg h]

/-- Whether a task's run may take an instruction of an opcode now. -/
def instrDue (op n : Nat) (s : State) (r : DresserRun) (t : Task) (i : DInstr) : Bool :=
  !r.done && i.opcode == op && worksOn s n t && !(r.entry.isNone && t.stopping && !r.midStrip)

theorem dresserNext_eq_some {op n : Nat} {s : State} {c : DCtx} : dresserNext op n s = some c ↔
    (benchOf s n).dresser = some c.run ∧ findTask s c.run.ring c.run.seq = some c.task ∧ c.run.desc.program[c.run.pc]? = some c.instr ∧
      instrDue op n s c.run c.task c.instr = true ∧ c.bench = n ∧ c.mat = matOf c.task := by
  constructor
  · intro h
    unfold dresserNext at h
    split at h
    · cases h
    · rename_i r hrun
      split at h
      · rename_i t i htask hinstr
        obtain ⟨hdue, hc⟩ := Option.ite_none_right_eq_some.mp h
        obtain rfl := Option.some.inj hc
        exact ⟨hrun, htask, hinstr, hdue, rfl, rfl⟩
      · cases h
  · rintro ⟨hrun, htask, hinstr, hdue, hbench, hmat⟩
    unfold dresserNext
    simp only [hrun, htask, hinstr]
    refine (if_pos hdue).trans ?_
    rw [← hbench, ← hmat]

@[simp] theorem benchOf_openBlock_regs (n : Nat) (s : State) : (benchOf (openBlock n s) n).regs = (benchOf s n).regs := by
  simp [openBlock]

/-- A run inside its block. -/
def DresserRun.opened (r : DresserRun) : DresserRun := { r with blockOpen := r.phase % 2 == 1 }

theorem dresser_openBlock (n : Nat) (s : State) : (benchOf (openBlock n s) n).dresser = (benchOf s n).dresser.map DresserRun.opened := by
  rw [openBlock, benchOf_updBenchState_self]
  rfl

/-- An instruction that is next inside the block was next before it. -/
theorem dresserNext_of_openBlock {op n : Nat} {s : State} {c : DCtx} (h : dresserNext op n (openBlock n s) = some c) :
    ∃ r, c.run = r.opened ∧ dresserNext op n s = some { c with run := r } := by
  obtain ⟨hrun, htask, hinstr, hdue, hbench, hmat⟩ := dresserNext_eq_some.mp h
  rw [dresser_openBlock] at hrun
  obtain ⟨r, hr, hopened⟩ := Option.map_eq_some_iff.mp hrun
  refine ⟨r, hopened.symm, dresserNext_eq_some.mpr ⟨hr, ?_, ?_, ?_, hbench, hmat⟩⟩
  · rw [← hopened] at htask; exact htask
  · rw [← hopened] at hinstr; exact hinstr
  · rw [← hopened] at hdue; exact hdue

theorem benchInject_of_unarmed {s : State} (h : s.err.inj.cells = []) (codes : List Nat) (n : Nat) (sections : List Nat)
    (act : W16 → W64 → State → State) : benchInject codes n sections act s = s := by
  unfold benchInject
  exact List.foldlRecOn (motive := fun t : State => t = s) _ _ rfl fun t ht c _ => by
    subst ht
    simp [fireInjection_of_unarmed h]

theorem parityPoint_of_unarmed {s : State} (h : s.err.inj.cells = []) (c : DCtx) : parityPoint c s = s := by
  unfold parityPoint
  split
  · rfl
  · exact benchInject_of_unarmed h ..

/-- A run with an instruction due, which no cause ends, is not settled. -/
theorem settleRun_of_due {op n : Nat} {s : State} {c : DCtx} (h : dresserNext op n s = some c) (hends : c.run.ends = none) :
    settleRun n s = s := by
  obtain ⟨hrun, htask, -, hdue, -, -⟩ := dresserNext_eq_some.mp h
  unfold settleRun
  simp only [hrun, htask, hends]
  simp only [instrDue, Bool.and_eq_true, Bool.not_eq_true'] at hdue
  obtain ⟨⟨⟨hgoing, -⟩, -⟩, hstays⟩ := hdue
  cases hentry : c.run.entry with
  | some e => simp
  | none =>
    simp only [hentry, Option.isNone_none, Bool.true_and] at hstays
    simp [hgoing, hstays]

theorem beginAppends_of_begun {c : DCtx} (h : c.run.begun = true) (s : State) : beginAppends c s = (.done (), s) := by
  simp [beginAppends, h]

/-- What an instruction's effect leads to: past the instruction, to a wait, or to the end of the run. -/
def afterInstr (c : DCtx) : Reply DresserRegs × State → State
  | (.wait, w) => blockTask c.task w
  | (.fail code pa, w) => endOfRun c.bench c.task c.run code pa w
  | (.done g, w) => pastInstr c g w

/-- The step of a run that is ready: its instruction takes effect. -/
theorem dresserStep_of_ready {op n : Nat} {c : DCtx} {s v : State} (h : DresserReady op n c s v) (f : Effect) :
    dresserStep op f n s = afterInstr c (f c (benchOf v n).regs v) := by
  obtain ⟨rfl, hnext, hbegun, hends, hunarmed⟩ := h
  obtain ⟨r, hopened, hbefore⟩ := dresserNext_of_openBlock hnext
  have hbegun' : r.begun = true := by rw [hopened] at hbegun; exact hbegun
  have hpoint : parityPoint { c with run := r } (openBlock n s) = openBlock n s :=
    parityPoint_of_unarmed (by simpa [openBlock] using hunarmed) _
  obtain ⟨-, -, -, -, rfl, -⟩ := dresserNext_eq_some.mp hnext
  unfold dresserStep
  simp only [hbefore, beginAppends_of_begun (c := { c with run := r }) hbegun', hpoint, settleRun_of_due hnext hends, hnext]
  obtain ⟨reply, w⟩ := f c (benchOf (openBlock c.bench s) c.bench).regs (openBlock c.bench s)
  cases reply with
  | done g => rfl
  | wait => rfl
  | fail code pa => rfl

section
variable {op n : Nat} {c : DCtx} {s v : State} (h : DresserReady op n c s v)
include h

theorem dresserStep_of_done {f : Effect} {g : DresserRegs} {w : State} (hf : f c (benchOf v n).regs v = (.done g, w)) :
    dresserStep op f n s = pastInstr c g w := by
  rw [dresserStep_of_ready h, hf]; rfl

/-- A command that gives the active lanes a value. -/
theorem exec_of_mapLanes {i : Instr} {f : DCtx → DresserRegs → Nat → W32}
    (hexec : exec i s = .next (dresserStep op (onRegs fun d => d.mapLanes (f d)) n s)) :
    exec i s = .next (pastInstr c (c.mapLanes (f c) (benchOf v n).regs) v) := by
  rw [hexec, dresserStep_of_done h (f := onRegs fun d => d.mapLanes (f d)) rfl]

/-- A command whose effect is one of registers alone. -/
theorem exec_of_onRegs {i : Instr} {f : DCtx → DresserRegs → DresserRegs} (hexec : exec i s = .next (dresserStep op (onRegs f) n s)) :
    exec i s = .next (pastInstr c (f c (benchOf v n).regs) v) := by
  rw [hexec, dresserStep_of_done h rfl]

end

theorem lanes2_apply (f : W32 → W32 → W32) (c : DCtx) (g : DresserRegs) (s : State) :
    lanes2 f c g s = (.done (c.mapLanes (fun g l => f (c.opA g l) (c.opB g l)) g), s) := rfl

theorem lanes1_apply (f : W32 → W32) (c : DCtx) (g : DresserRegs) (s : State) :
    lanes1 f c g s = (.done (c.mapLanes (fun g l => f (c.opA g l)) g), s) := rfl

/-- What the commands of this list do. -/
def lanesCommand2 (n : Nat) (s : State) (x : Nat × Instr × (W32 → W32 → W32)) : Prop :=
  exec x.2.1 s = .next (dresserStep x.1 (lanes2 x.2.2) n s)

theorem exec_of_mem_laneOps2 {n op : Nat} {i : Instr} {f : W32 → W32 → W32} (s : State) (hmem : (op, i, f) ∈ laneOps2 n) :
    exec i s = .next (dresserStep op (lanes2 f) n s) := by
  have hall : ∀ x ∈ laneOps2 n, lanesCommand2 n s x := by
    simp only [laneOps2, List.forall_mem_cons, List.not_mem_nil, false_implies, implies_true, and_true]
    exact ⟨rfl, rfl, rfl, rfl, rfl, rfl, rfl, rfl, rfl, rfl, rfl, rfl⟩
  exact hall _ hmem

/-- What the commands of this list do. -/
def lanesCommand1 (n : Nat) (s : State) (x : Nat × Instr × (W32 → W32)) : Prop :=
  exec x.2.1 s = .next (dresserStep x.1 (lanes1 x.2.2) n s)

theorem exec_of_mem_laneOps1 {n op : Nat} {i : Instr} {f : W32 → W32} (s : State) (hmem : (op, i, f) ∈ laneOps1 n) :
    exec i s = .next (dresserStep op (lanes1 f) n s) := by
  have hall : ∀ x ∈ laneOps1 n, lanesCommand1 n s x := by
    simp only [laneOps1, List.forall_mem_cons, List.not_mem_nil, false_implies, implies_true, and_true]
    exact ⟨rfl, rfl, rfl, rfl, rfl, rfl, rfl, rfl, rfl, rfl, rfl, rfl, rfl⟩
  exact hall _ hmem

theorem iotaEffect_eq : iotaEffect = onRegs fun c => c.mapLanes fun _ l => BitVec.ofNat 32
    (if bitsOf c.instr.imm.toNat 1 0 = 0 then c.grow (l / 16) else if bitsOf c.instr.imm.toNat 1 0 = 1 then c.gcol (l % 16)
     else if bitsOf c.instr.imm.toNat 1 0 = 2 then c.run.d2 else c.run.d3) := by
  unfold iotaEffect
  congr 1
  funext c
  congr 1
  funext g l
  split
  · rename_i h; rw [if_pos h]
  · rename_i h; rw [if_neg (by omega), if_pos h]
  · rename_i h; rw [if_neg (by omega), if_neg (by omega), if_pos h]
  · rename_i h0 h1 h2; rw [if_neg h0, if_neg h1, if_neg h2]

/-- Settles O36: each operation is an effect of registers alone, and CVTF of registers and the tallies. -/
theorem laneOperationsWriteActiveLanes : Obligations.LaneOperationsWriteActiveLanes := by
  intro op n i c s v hready
  refine ⟨?_, ?_, ?_, ?_, ?_, ?_, ?_, ?_⟩
  · intro f hmem
    rw [exec_of_mem_laneOps2 s hmem, dresserStep_of_done hready (lanes2_apply f c _ v)]
  · intro f hmem
    rw [exec_of_mem_laneOps1 s hmem, dresserStep_of_done hready (lanes1_apply f c _ v)]
  · rintro rfl; exact exec_of_mapLanes hready (f := fun c g l => fp32Fma (c.opA g l) (c.opB g l) (c.opD g l)) rfl
  · rintro rfl; exact exec_of_mapLanes hready (f := fun c g l => fp32Min (fp32Max (c.opA g l) (c.opB g l)) c.instr.imm) rfl
  · rintro rfl; exact exec_of_mapLanes hready (f := fun c g l => (c.opA g l).sshiftRight (bitsOf c.instr.imm.toNat 4 0)) rfl
  · rintro rfl
    have hexec : exec (.iota n) s = .next (dresserStep 0x0A iotaEffect n s) := rfl
    rw [hexec, iotaEffect_eq, dresserStep_of_done hready rfl]
  · rintro rfl; exact exec_of_onRegs hready (f := fun _ g => g) rfl
  · rintro rfl
    obtain ⟨-, -, -, -, hbench, -⟩ := dresserNext_eq_some.mp hready.2.1
    refine (congrArg Host.Outcome.next (dresserStep_of_done (f := cvtfEffect) hready rfl) :).trans ?_
    rw [hbench]

end Sys2Proof.Machine
end

