-- ==== Sys2Proof/Proofs/Lanes.lean ====
section
/-!
PROOFS. What writes of lanes leave (R168, R172), what a run that goes on past an instruction leaves, and the lists of top-k (R188).
-/

namespace Sys2Proof.Machine

/-! ### Writes of lanes -/

theorem lanes_lt {c : DCtx} {l : Nat} (h : l ∈ c.lanes) : if c.block then l < 256 else l < 16 := by
  have hl := List.mem_range.mp h
  split at hl <;> simp [*]

theorem opD_setD (c : DCtx) (l m : Nat) (w : W32) (g : DresserRegs) :
    c.opD (c.setD l w g) m = if m = l then w else c.opD g m := by
  unfold DCtx.opD DCtx.setD
  by_cases hm : m = l
  · subst hm
    split <;> simp [tileLane, stripLane, Table.get_set_self]
  · have hne (k : Nat) : c.instr.dst * k + m ≠ c.instr.dst * k + l := by omega
    split <;> simp [tileLane, stripLane, Table.get_set_ne _ _ _ (hne _)]

/-- What a write of lanes of the destination leaves: every lane of the other registers, the masks and the lists. -/
structure DCtx.KeepsOthers (c : DCtx) (g h : DresserRegs) : Prop where
  tile : ∀ r l, l < 256 → r ≠ c.instr.dst ∨ c.block = false → tileLane h r l = tileLane g r l
  strip : ∀ r l, l < 16 → r ≠ c.instr.dst ∨ c.block = true → stripLane h r l = stripLane g r l
  masks : h.masks = g.masks
  topk : h.topk = g.topk

theorem DCtx.KeepsOthers.refl (c : DCtx) (g : DresserRegs) : c.KeepsOthers g g :=
  ⟨fun _ _ _ _ => rfl, fun _ _ _ _ => rfl, rfl, rfl⟩

theorem DCtx.KeepsOthers.trans {c : DCtx} {g h i : DresserRegs} (hgh : c.KeepsOthers g h) (hhi : c.KeepsOthers h i) : c.KeepsOthers g i :=
  ⟨fun r l hl hr => (hhi.tile r l hl hr).trans (hgh.tile r l hl hr), fun r l hl hr => (hhi.strip r l hl hr).trans (hgh.strip r l hl hr),
    hhi.masks.trans hgh.masks, hhi.topk.trans hgh.topk⟩

/-- A lane of another register of `k` lanes lies at another place. -/
theorem lane_place_ne {k r d l m : Nat} (hr : r ≠ d) (hl : l < k) (hm : m < k) : r * k + l ≠ d * k + m := by
  intro heq
  have hdiv := congrArg (· / k) heq
  have hk : 0 < k := by omega
  simp only [Nat.mul_comm _ k, Nat.mul_add_div hk, Nat.div_eq_of_lt hl, Nat.div_eq_of_lt hm, Nat.add_zero] at hdiv
  exact hr hdiv

theorem keepsOthers_setD {c : DCtx} {l : Nat} (hl : l ∈ c.lanes) (w : W32) (g : DresserRegs) : c.KeepsOthers g (c.setD l w g) := by
  have hlt := lanes_lt hl
  unfold DCtx.setD
  cases hblock : c.block
  · simp only [hblock, Bool.false_eq_true, if_false] at hlt ⊢
    refine ⟨fun r m hm hr => rfl, fun r m hm hr => ?_, rfl, rfl⟩
    have hne : r ≠ c.instr.dst := hr.resolve_right (by simp [hblock])
    exact Table.get_set_ne _ _ _ (lane_place_ne hne hm hlt)
  · simp only [hblock, if_true] at hlt ⊢
    refine ⟨fun r m hm hr => ?_, fun r m hm hr => rfl, rfl, rfl⟩
    have hne : r ≠ c.instr.dst := hr.resolve_right (by simp [hblock])
    exact Table.get_set_ne _ _ _ (lane_place_ne hne hm hlt)

/-- Lanes of a list given values, those a predicate names. -/
def DCtx.putLanes (c : DCtx) (p : Nat → Bool) (f : Nat → W32) (ls : List Nat) (g : DresserRegs) : DresserRegs :=
  ls.foldl (fun h l => if p l then c.setD l (f l) h else h) g

theorem opD_putLanes (c : DCtx) (p : Nat → Bool) (f : Nat → W32) (ls : List Nat) (g : DresserRegs) (m : Nat) :
    c.opD (c.putLanes p f ls g) m = if m ∈ ls ∧ p m then f m else c.opD g m := by
  unfold DCtx.putLanes
  induction ls generalizing g with
  | nil => simp
  | cons l ls ih =>
    rw [List.foldl_cons, ih]
    by_cases hls : m ∈ ls ∧ p m
    · simp [hls]
    · rw [if_neg hls]
      by_cases hml : m = l
      · subst hml
        by_cases hp : p m <;> simp [hp, opD_setD]
      · have hsame : c.opD (if p l then c.setD l (f l) g else g) m = c.opD g m := by
          split
          · rw [opD_setD, if_neg hml]
          · rfl
        rw [hsame]
        simp [hml, hls]

theorem keepsOthers_putLanes (c : DCtx) (p : Nat → Bool) (f : Nat → W32) {ls : List Nat} (hls : ∀ l ∈ ls, l ∈ c.lanes) (g : DresserRegs) :
    c.KeepsOthers g (c.putLanes p f ls g) := by
  unfold DCtx.putLanes
  refine List.foldlRecOn (motive := fun h => c.KeepsOthers g h) _ _ (.refl c g) fun h hkept l hl => ?_
  split
  · exact hkept.trans (keepsOthers_setD (hls l hl) _ _)
  · exact hkept

theorem mapLanes_eq_putLanes (c : DCtx) (f : DresserRegs → Nat → W32) (g : DresserRegs) :
    c.mapLanes f g = c.putLanes (c.active g) (f g) c.lanes g := rfl

/-! ### A run that goes on -/

/-- What tells a run whose it is, and whether it is to end. -/
def DresserRun.whose (r : DresserRun) : Nat × Nat × Option TileTag × Option RunEnd := (r.ring, r.seq, r.entry, r.ends)

theorem whose_atStripStart (r : DresserRun) : (atStripStart r).whose = r.whose := by
  unfold atStripStart; split <;> rfl

theorem whose_nextStrip (d : Option MatDesc) (r : DresserRun) : (nextStrip d r).whose = r.whose := by
  unfold nextStrip
  split
  · exact whose_atStripStart _
  · cases d with
    | some d =>
      simp only
      split
      · exact whose_atStripStart _
      · rfl
    | none =>
      simp only
      split
      · exact whose_atStripStart _
      · split
        · exact whose_atStripStart _
        · rfl

theorem whose_nextInstr (d : Option MatDesc) (r : DresserRun) : (nextInstr d r).whose = r.whose := by
  unfold nextInstr
  split
  · rfl
  · simp only
    split
    · split <;> rfl
    · split
      · rfl
      · exact whose_nextStrip _ _

/-- What a change of one bench's Dresser leaves. -/
structure LeavesRest (n : Nat) (s u : State) : Prop where
  mem : u.mem = s.mem
  scratch : u.scratch = s.scratch
  err : u.err = s.err
  power : u.power = s.power
  rings : u.rings = s.rings
  bench : ∀ m, m ≠ n → benchOf u m = benchOf s m

theorem LeavesRest.refl (n : Nat) (s : State) : LeavesRest n s s := ⟨rfl, rfl, rfl, rfl, rfl, fun _ _ => rfl⟩

theorem LeavesRest.trans {n : Nat} {s u w : State} (hsu : LeavesRest n s u) (huw : LeavesRest n u w) : LeavesRest n s w :=
  ⟨huw.mem.trans hsu.mem, huw.scratch.trans hsu.scratch, huw.err.trans hsu.err, huw.power.trans hsu.power, huw.rings.trans hsu.rings,
    fun m hm => (huw.bench m hm).trans (hsu.bench m hm)⟩

theorem leavesRest_updBenchState (n : Nat) (f : Bench → Bench) (s : State) : LeavesRest n s (updBenchState n f s) :=
  ⟨rfl, rfl, rfl, rfl, rfl, fun _ hm => benchOf_updBenchState_ne hm f s⟩

theorem leavesRest_markWorkDone (n r seq : Nat) (s : State) : LeavesRest n s (markWorkDone r seq s) := ⟨rfl, rfl, rfl, rfl, rfl, fun _ _ => rfl⟩

theorem leavesRest_takeVector (n : Nat) (s : State) : LeavesRest n s (takeVector n s) := by
  simp only [takeVector]
  split
  · exact .refl n s
  · split
    · exact leavesRest_updBenchState n _ s
    · exact .refl n s

theorem leavesRest_leaveDresser (n : Nat) (s : State) : LeavesRest n s (leaveDresser n s) :=
  (leavesRest_updBenchState n _ s).trans (leavesRest_takeVector n _)

@[simp] theorem tasks_takeVector (n : Nat) (s : State) : (takeVector n s).tasks = s.tasks := by
  simp only [takeVector]
  split
  · rfl
  · split <;> rfl

@[simp] theorem tasks_leaveDresser (n : Nat) (s : State) : (leaveDresser n s).tasks = s.tasks := by
  simp [leaveDresser]

theorem names_of_findTask {s : State} {r seq : Nat} {t : Task} (h : findTask s r seq = some t) : t.ring = r ∧ t.seq = seq := by
  simpa [Task.is] using List.find?_some h

/-- A task found after an update of the one it names. -/
theorem findTask_updTask_self {r seq : Nat} {f : Task → Task} (hf : ∀ t : Task, (f t).is r seq = t.is r seq) (s : State) :
    findTask (updTask r seq f s) r seq = (findTask s r seq).map f := by
  unfold findTask updTask
  induction s.tasks with
  | nil => rfl
  | cons t ts ih =>
    simp only [List.map_cons, List.find?_cons]
    by_cases ht : t.is r seq = true
    · simp [ht, hf]
    · simpa [ht] using ih

theorem settleStop_of_going {r seq : Nat} {s : State} (h : ∀ t, findTask s r seq = some t → t.stopping = false) : settleStop r seq s = s := by
  unfold settleStop
  cases htask : findTask s r seq with
  | none => rfl
  | some t => simp [h t htask]

/-- Settling a run that no cause ends, of a task that is not to stop: only a run that is done leaves its Dresser. -/
theorem settleRun_of_going {n : Nat} {s : State} {r : DresserRun} {t : Task} (hrun : (benchOf s n).dresser = some r)
    (htask : findTask s r.ring r.seq = some t) (hends : r.ends = none) (hgoing : t.stopping = false) :
    LeavesRest n s (settleRun n s) ∧ (r.done = false → settleRun n s = s) := by
  have hfound : findTask (leaveDresser n (markWorkDone r.ring r.seq s)) r.ring r.seq = some { t with workDone := true } := by
    have htasks : findTask (leaveDresser n (markWorkDone r.ring r.seq s)) = findTask (markWorkDone r.ring r.seq s) := by
      funext a b
      unfold findTask
      rw [tasks_leaveDresser]
    rw [htasks, markWorkDone, findTask_updTask_self (f := fun t => { t with workDone := true }) (fun _ => rfl), htask]
    rfl
  have hstop : settleStop r.ring r.seq (leaveDresser n (markWorkDone r.ring r.seq s)) = leaveDresser n (markWorkDone r.ring r.seq s) :=
    settleStop_of_going fun t' ht' => by
      obtain rfl := Option.some.inj (hfound.symm.trans ht')
      exact hgoing
  have hsettle : settleRun n s = if r.entry.isSome then s else if r.done then leaveDresser n (markWorkDone r.ring r.seq s) else s := by
    unfold settleRun
    obtain ⟨hring, hseq⟩ := names_of_findTask htask
    simp only [hrun, htask, hends, hgoing, hring, hseq, hstop, Bool.false_and, Bool.false_eq_true, if_false]
  rw [hsettle]
  split
  · exact ⟨.refl n s, fun _ => rfl⟩
  · split
    · rename_i hdone
      exact ⟨(leavesRest_markWorkDone n _ _ s).trans (leavesRest_leaveDresser n _), fun hnot => absurd (hdone.symm.trans hnot) (by decide)⟩
    · exact ⟨.refl n s, fun _ => rfl⟩

/-- The bench of a run past an instruction. -/
def movedOn (c : DCtx) (g : DresserRegs) (b : Bench) : Bench := { b with regs := g, dresser := b.dresser.map (nextInstr c.mat) }

theorem pastInstr_of_going {op n : Nat} {c : DCtx} {s v : State} (hready : DresserReady op n c s v) (hgoing : c.task.stopping = false)
    (g : DresserRegs) : LeavesRest n s (pastInstr c g v) ∧
      ((nextInstr c.mat c.run).done = false → pastInstr c g v = updBenchState n (movedOn c g) v) := by
  obtain ⟨rfl, hnext, -, hends, -⟩ := hready
  obtain ⟨hrun, htask, -, -, hbench, -⟩ := dresserNext_eq_some.mp hnext
  have hpast : pastInstr c g (openBlock n s) = settleRun n (updBenchState n (movedOn c g) (openBlock n s)) := by
    rw [pastInstr, hbench]
    rfl
  have hwhose := whose_nextInstr c.mat c.run
  simp only [DresserRun.whose, Prod.mk.injEq] at hwhose
  obtain ⟨hring, hseq, -, hends'⟩ := hwhose
  have hrun' : (benchOf (updBenchState n (movedOn c g) (openBlock n s)) n).dresser = some (nextInstr c.mat c.run) := by
    rw [benchOf_updBenchState_self, movedOn, hrun]
    rfl
  have htask' : findTask (updBenchState n (movedOn c g) (openBlock n s)) (nextInstr c.mat c.run).ring (nextInstr c.mat c.run).seq =
      some c.task := by
    rw [hring, hseq]
    exact htask
  obtain ⟨hleaves, hstays⟩ := settleRun_of_going hrun' htask' (hends'.trans hends) hgoing
  rw [hpast]
  exact ⟨((leavesRest_updBenchState n _ s).trans (leavesRest_updBenchState n _ _)).trans hleaves, hstays⟩

/-- Settles O37: writes of lanes fold over the lanes of the phase; a run that goes on changes its own bench alone. -/
theorem laneWritesKeepTheRest : Obligations.LaneWritesKeepTheRest := by
  refine ⟨fun c f g => ?_, fun op n c g s v hready hgoing => ?_⟩
  · have hkept : c.KeepsOthers g (c.mapLanes f g) := keepsOthers_putLanes c _ _ (fun _ hl => hl) g
    refine ⟨fun l hl => ?_, hkept.tile, hkept.strip, hkept.masks, hkept.topk⟩
    rw [mapLanes_eq_putLanes, opD_putLanes]
    simp only [hl, true_and]
  · obtain ⟨hleaves, hstays⟩ := pastInstr_of_going hready hgoing g
    refine ⟨hleaves.mem, hleaves.scratch, hleaves.err, hleaves.power, hleaves.rings, hleaves.bench, fun hnot => ?_⟩
    obtain ⟨hv, hnext, -⟩ := hready
    obtain ⟨hrun, -⟩ := dresserNext_eq_some.mp hnext
    have hmoved : benchOf (pastInstr c g v) n = movedOn c g (benchOf v n) := by
      rw [hstays hnot, benchOf_updBenchState_self]
    refine ⟨by rw [hmoved]; rfl, by rw [hmoved, movedOn, hrun]; rfl, ?_⟩
    rw [hstays hnot, hv]
    rfl

/-! ### Masks, pairs, rows and lists -/

section
variable {op n : Nat} {c : DCtx} {s v : State} (h : DresserReady op n c s v)
include h

/-- A command that gives the active lanes of a mask register a value. -/
theorem exec_of_mapMask {i : Instr} (f : DCtx → DresserRegs → Nat → Bool)
    (hexec : exec i s = .next (dresserStep op (onRegs fun d => d.mapMask (f d)) n s)) :
    exec i s = .next (pastInstr c (c.lanes.foldl (fun h l => if c.active (benchOf v n).regs l then
      c.setM l (f c (benchOf v n).regs l) h else h) (benchOf v n).regs) v) := by
  rw [hexec, dresserStep_of_done h (f := onRegs fun d => d.mapMask (f d)) rfl]
  rfl

end

/-- A pair of an even lane and the next one written, for each lane of a list. -/
def DCtx.putPairs (c : DCtx) (x y : Nat → W32) (ls : List Nat) (g : DresserRegs) : DresserRegs :=
  ls.foldl (fun h l => c.setD (l + 1) (y l) (c.setD l (x l) h)) g

theorem opD_putPairs (c : DCtx) (x y : Nat → W32) {ls : List Nat} (heven : ∀ l ∈ ls, l % 2 = 0) (g : DresserRegs) {m : Nat} (hm : m % 2 = 0) :
    c.opD (c.putPairs x y ls g) m = (if m ∈ ls then x m else c.opD g m) ∧
      c.opD (c.putPairs x y ls g) (m + 1) = if m ∈ ls then y m else c.opD g (m + 1) := by
  unfold DCtx.putPairs
  induction ls generalizing g with
  | nil => simp
  | cons l ls ih =>
    have hl : l % 2 = 0 := heven l (List.mem_cons_self ..)
    obtain ⟨hfst, hsnd⟩ := ih (fun k hk => heven k (List.mem_cons_of_mem _ hk)) (c.setD (l + 1) (y l) (c.setD l (x l) g))
    rw [List.foldl_cons, hfst, hsnd]
    by_cases hls : m ∈ ls
    · simp [hls]
    · simp only [hls, if_false, opD_setD, List.mem_cons, or_false]
      by_cases hml : m = l
      · subst hml; simp
      · have h1 : m ≠ l + 1 := by omega
        have h2 : m + 1 ≠ l := by omega
        have h3 : m + 1 ≠ l + 1 := by omega
        simp [hml, h1, h2]

theorem keepsOthers_putPairs (c : DCtx) (x y : Nat → W32) {ls : List Nat} (hls : ∀ l ∈ ls, l ∈ c.lanes ∧ l + 1 ∈ c.lanes) (g : DresserRegs) :
    c.KeepsOthers g (c.putPairs x y ls g) := by
  unfold DCtx.putPairs
  refine List.foldlRecOn (motive := fun h => c.KeepsOthers g h) _ _ (.refl c g) fun h hkept l hl => ?_
  exact (hkept.trans (keepsOthers_setD (hls l hl).1 _ _)).trans (keepsOthers_setD (hls l hl).2 _ _)

/-- The context of the strip phase at the same instruction: a row written there is a lane written. -/
def DCtx.inStrip (c : DCtx) : DCtx := { c with run := { c.run with phase := 0 } }

theorem setD_inStrip (c : DCtx) (r : Nat) (w : W32) (g : DresserRegs) : c.inStrip.setD r w g = c.setS r w g := rfl

theorem reduce_eq_putLanes (c : DCtx) (identity : W32) (row : W32 → List W32 → W32) (g : DresserRegs) :
    c.reduce identity row g = c.inStrip.putLanes (fun r => (List.range 16).any fun k => c.active g (r * 16 + k))
      (fun r => row (stripLane g c.instr.dst r)
        ((List.range 16).map fun k => if c.active g (r * 16 + k) then c.opA g (r * 16 + k) else identity)) (List.range 16) g := rfl

theorem get_foldl_set_same {α : Type} [DecidableEq α] (d v : α) (ks : List Nat) (t : Table α) (j : Nat) :
    (ks.foldl (fun t k => t.set d k v) t).get d j = if j ∈ ks then v else t.get d j := by
  induction ks generalizing t with
  | nil => simp
  | cons k ks ih =>
    rw [List.foldl_cons, ih]
    by_cases hks : j ∈ ks
    · simp [hks]
    · by_cases hjk : j = k
      · subst hjk; simp [hks, Table.get_set_self]
      · simp [hks, hjk, Table.get_set_ne]

theorem mem_activeLanes {c : DCtx} {g : DresserRegs} {l : Nat} : l ∈ c.activeLanes g ↔ l ∈ c.lanes ∧ c.active g l = true :=
  List.mem_filter

/-- The two lanes that ROPE leaves for a pair (R186), and the pairs it turns. -/
def DCtx.ropeFst (c : DCtx) (g : DresserRegs) (l : Nat) : W32 :=
  fp32Of (((fp32Val (c.opA g l)).mul (fp32Val (c.opB g l))).add
    ((fp32Val (c.opA g (l + 1))).mul (fp32Val (tileLane g (bitsOf c.instr.imm.toNat 4 0) l))).neg)
def DCtx.ropeSnd (c : DCtx) (g : DresserRegs) (l : Nat) : W32 :=
  fp32Of (((fp32Val (c.opA g l)).mul (fp32Val (tileLane g (bitsOf c.instr.imm.toNat 4 0) l))).add
    ((fp32Val (c.opA g (l + 1))).mul (fp32Val (c.opB g l))))
def DCtx.ropePairs (c : DCtx) (g : DresserRegs) : List Nat := c.lanes.filter fun l => l % 2 == 0 && c.active g l && c.active g (l + 1)

theorem mem_ropePairs {c : DCtx} (hblock : c.block = true) (g : DresserRegs) (l : Nat) :
    l ∈ c.ropePairs g ↔ l < 256 ∧ l % 2 = 0 ∧ c.active g l = true ∧ c.active g (l + 1) = true := by
  simp [DCtx.ropePairs, DCtx.lanes, hblock, and_assoc]

section
variable {op n : Nat} {c : DCtx} {s v : State} (h : DresserReady op n c s v)
include h

/-- A reduction writes the rows that have an active lane, in a strip register. -/
theorem exec_of_reduce {i : Instr} (identity : W32) (row : W32 → List W32 → W32)
    (hexec : exec i s = .next (dresserStep op (onRegs fun d => d.reduce identity row) n s)) :
    ∃ k, exec i s = .next (pastInstr c k v) ∧ k.tiles = (benchOf v n).regs.tiles ∧ k.masks = (benchOf v n).regs.masks ∧
      (∀ r l, l < 16 → r ≠ c.instr.dst → stripLane k r l = stripLane (benchOf v n).regs r l) ∧
      ∀ r, r < 16 → stripLane k c.instr.dst r =
        (if (List.range 16).any (fun k => c.active (benchOf v n).regs (r * 16 + k)) then
           row (stripLane (benchOf v n).regs c.instr.dst r) ((List.range 16).map fun k =>
             if c.active (benchOf v n).regs (r * 16 + k) then c.opA (benchOf v n).regs (r * 16 + k) else identity)
         else stripLane (benchOf v n).regs c.instr.dst r) := by
  generalize hg : (benchOf v n).regs = g
  have hkept : c.inStrip.KeepsOthers g (c.reduce identity row g) :=
    reduce_eq_putLanes c identity row g ▸ keepsOthers_putLanes c.inStrip _ _ (fun _ hl => hl) g
  refine ⟨c.reduce identity row g, ?_, ?_, hkept.masks, fun r l hl hr => hkept.strip r l hl (.inl hr), fun r hr => ?_⟩
  · rw [hexec, dresserStep_of_done h (f := onRegs fun d => d.reduce identity row) rfl, hg]
  · unfold DCtx.reduce
    exact List.foldlRecOn (motive := fun k : DresserRegs => k.tiles = g.tiles) _ _ rfl fun k hk r _ => by
      dsimp only
      split
      · exact hk
      · exact hk
  · have hrow := opD_putLanes c.inStrip (fun r => (List.range 16).any fun k => c.active g (r * 16 + k))
      (fun r => row (stripLane g c.instr.dst r)
        ((List.range 16).map fun k => if c.active g (r * 16 + k) then c.opA g (r * 16 + k) else identity)) (List.range 16) g r
    rw [← reduce_eq_putLanes] at hrow
    simp only [List.mem_range, hr, true_and] at hrow
    exact hrow

/-- ROPE turns every pair of an even lane and the next that are both active. -/
theorem exec_rope (hop : op = 0x23) (hblock : c.block = true) : ∃ k, exec (.rope n) s = .next (pastInstr c k v) ∧
    k.masks = (benchOf v n).regs.masks ∧ k.strips = (benchOf v n).regs.strips ∧
    (∀ r l, l < 256 → r ≠ c.instr.dst → tileLane k r l = tileLane (benchOf v n).regs r l) ∧
    ∀ l, l < 256 → l % 2 = 0 → c.active (benchOf v n).regs l = true → c.active (benchOf v n).regs (l + 1) = true →
      let x := fp32Val (c.opA (benchOf v n).regs l)
      let y := fp32Val (c.opA (benchOf v n).regs (l + 1))
      let co := fp32Val (c.opB (benchOf v n).regs l)
      let si := fp32Val (tileLane (benchOf v n).regs (bitsOf c.instr.imm.toNat 4 0) l)
      tileLane k c.instr.dst l = fp32Of ((x.mul co).add (y.mul si).neg) ∧
        tileLane k c.instr.dst (l + 1) = fp32Of ((x.mul si).add (y.mul co)) := by
  subst hop
  generalize hg : (benchOf v n).regs = g
  have hmem {l : Nat} := mem_ropePairs (c := c) hblock g l
  have hlanes : ∀ l ∈ c.ropePairs g, l ∈ c.lanes ∧ l + 1 ∈ c.lanes := fun l hl => by
    obtain ⟨hlt, heven, -⟩ := hmem.mp hl
    simp only [DCtx.lanes, hblock, if_true, List.mem_range]
    omega
  have hkept := keepsOthers_putPairs c (c.ropeFst g) (c.ropeSnd g) hlanes g
  refine ⟨c.putPairs (c.ropeFst g) (c.ropeSnd g) (c.ropePairs g) g, ?_, hkept.masks, ?_, fun r l hl hr => hkept.tile r l hl (.inl hr), fun l hl heven hon hnext => ?_⟩
  · have hexec : exec (.rope n) s = .next (dresserStep 0x23 ropeEffect n s) := rfl
    rw [hexec, dresserStep_of_done h (f := ropeEffect) rfl, hg]
    rfl
  · unfold DCtx.putPairs
    exact List.foldlRecOn (motive := fun k : DresserRegs => k.strips = g.strips) _ _ rfl fun k hk l _ => by
      simp only [DCtx.setD, hblock, if_true, hk]
  · obtain ⟨hfst, hsnd⟩ := opD_putPairs c (c.ropeFst g) (c.ropeSnd g) (fun l hl => (hmem.mp hl).2.1) g heven
    rw [if_pos (hmem.mpr ⟨hl, heven, hon, hnext⟩), DCtx.opD, if_pos hblock] at hfst hsnd
    exact ⟨hfst, hsnd⟩

end

/-- Settles O38: masks, pairs and rows fold over their lanes, and lists take their candidates in lane order. -/
theorem masksRowsAndLists : Obligations.MasksRowsAndLists := by
  intro op n c s v hready
  refine ⟨?_, ?_, ?_, ?_, ?_, fun hop hblock => exec_rope hready hop hblock, ?_, ?_, ?_⟩
  · rintro rfl
    exact exec_of_mapMask hready (fun c g l => cmpLane (bitsOf c.instr.imm.toNat 2 0) (c.opA g l) (c.opB g l)) rfl
  · rintro rfl
    exact exec_of_mapMask hready (fun c g l => c.maskAt g c.instr.srcA l && c.maskAt g c.instr.srcB l) rfl
  · rintro rfl
    exact exec_of_mapMask hready (fun c g l => c.maskAt g c.instr.srcA l || c.maskAt g c.instr.srcB l) rfl
  · rintro rfl
    exact exec_of_mapMask hready (fun c g l => !c.maskAt g c.instr.srcA l) rfl
  · rintro rfl
    have hexec : exec (.select n) s = .next (dresserStep 0x0B selectEffect n s) := rfl
    rw [hexec, dresserStep_of_done hready (f := selectEffect) rfl]
  · intro id f i hmem
    simp only [List.mem_cons, Prod.mk.injEq, List.not_mem_nil, or_false] at hmem
    obtain ⟨rfl, rfl, rfl, rfl⟩ | ⟨rfl, rfl, rfl, rfl⟩ | ⟨rfl, rfl, rfl, rfl⟩ := hmem
    · exact exec_of_reduce hready fp32NegZero (fun x ls => fp32Add x (treeSum 4 ls)) rfl
    · exact exec_of_reduce hready 0xFF800000#32 (fun x ls => fp32Max x (ls.foldl fp32Max 0xFF800000#32)) rfl
    · exact exec_of_reduce hready 0x7F800000#32 (fun x ls => fp32Min x (ls.foldl fp32Min 0x7F800000#32)) rfl
  · rintro rfl hblock
    have hexec : exec (.topkClear n) s = .next (dresserStep 0x48 topkClearEffect n s) := rfl
    refine ⟨_, hexec.trans (congrArg Host.Outcome.next (dresserStep_of_done hready (f := topkClearEffect) rfl)), rfl, rfl, rfl, fun r hr => ?_⟩
    rw [get_foldl_set_same]
    have hlane : r ∈ c.lanes := by simpa [DCtx.lanes, hblock] using hr
    simp only [mem_activeLanes, hlane, true_and]
  · rintro rfl
    have hexec : exec (.topk n) s = .next (dresserStep 0x49 topkEffect n s) := rfl
    rw [hexec, dresserStep_of_done hready (f := topkEffect) rfl]

/-! ### Top-k lists -/

/-- A number in the order of values (R180). -/
noncomputable def Val.order : Val → EReal
  | .nan => 0
  | .inf neg => if neg then ⊥ else ⊤
  | .fin neg m e => (((if neg then -(m : ℝ) else m) * 2 ^ e : ℝ) : EReal)

theorem signedAt_cast {neg : Bool} {m : Nat} {exp e : Int} (h : e ≤ exp) :
    ((signedAt neg m exp e : Int) : ℝ) = (if neg then -(m : ℝ) else m) * 2 ^ (exp - e) := by
  obtain ⟨k, hk⟩ := Int.le.dest h
  have hexp : exp - e = (k : Int) := by omega
  unfold signedAt
  rw [hexp, Int.toNat_natCast, Nat.shiftLeft_eq, zpow_natCast]
  split <;> push_cast <;> ring

theorem lt_iff_order {x y : Val} (hx : x.isNan = false) (hy : y.isNan = false) : Val.lt x y = true ↔ x.order < y.order := by
  match x, y with
  | .nan, _ => cases hx
  | _, .nan => cases hy
  | .inf a, .inf b => cases a <;> cases b <;> simp [Val.lt, Val.order]
  | .inf a, .fin _ _ _ => cases a <;> simp [Val.lt, Val.order]
  | .fin _ _ _, .inf b => cases b <;> simp [Val.lt, Val.order]
  | .fin na ma ea, .fin nb mb eb =>
    have hpos : (0 : ℝ) < 2 ^ min ea eb := by positivity
    have hsplit (e : Int) : (2 : ℝ) ^ e = 2 ^ (e - min ea eb) * 2 ^ min ea eb := by
      rw [← zpow_add₀ (by norm_num)]
      congr 1
      omega
    simp only [Val.lt, Val.order, decide_eq_true_eq, EReal.coe_lt_coe_iff]
    rw [hsplit ea, hsplit eb, ← mul_assoc, ← mul_assoc, mul_lt_mul_iff_left₀ hpos, ← signedAt_cast (min_le_left ea eb),
      ← signedAt_cast (min_le_right ea eb), Int.cast_lt]

/-- The rank of a candidate: NaNs after the numbers, then by value in the list's order, then by index (R188). -/
noncomputable def topkRank (ascending : Bool) (a : W32 × W32) : ℕ ×ₗ EReal ×ₗ ℕ :=
  toLex (if (fp32Val a.1).isNan then 1 else 0,
    toLex (if ascending then (fp32Val a.1).order else -(fp32Val a.1).order, a.2.toNat))

theorem eq_nan_of_isNan {x : Val} (h : x.isNan = true) : x = .nan := by
  cases x with
  | nan => rfl
  | inf _ => cases h
  | fin _ _ _ => cases h

theorem topkBefore_iff_rank (ascending : Bool) (a b : W32 × W32) :
    topkBefore ascending a b = true ↔ topkRank ascending a < topkRank ascending b := by
  unfold topkBefore topkRank
  generalize fp32Val a.1 = x
  generalize fp32Val b.1 = y
  simp only [Prod.Lex.toLex_lt_toLex]
  cases hx : x.isNan <;> cases hy : y.isNan
  · simp only [Bool.or_self, Bool.false_eq_true, if_false, lt_irrefl, true_and, false_or, lt_iff_order hx hy, lt_iff_order hy hx]
    obtain hlt | heq | hgt := lt_trichotomy x.order y.order
    · cases ascending <;> simp [hlt, hlt.not_gt, hlt.ne]
    · simp [heq]
    · cases ascending <;> simp [hgt, hgt.not_gt, hgt.ne']
  · simp
  · simp
  · rw [eq_nan_of_isNan hx, eq_nan_of_isNan hy]
    simp

theorem not_topkBefore_iff_rank (ascending : Bool) (a b : W32 × W32) :
    topkBefore ascending a b = false ↔ topkRank ascending b ≤ topkRank ascending a := by
  rw [← not_lt, ← topkBefore_iff_rank, Bool.not_eq_true]

theorem mem_topkInsert {ascending : Bool} {a x : W32 × W32} {l : List (W32 × W32)} :
    x ∈ topkInsert ascending a l ↔ x = a ∨ x ∈ l := by
  induction l with
  | nil => simp [topkInsert]
  | cons b bs ih =>
    unfold topkInsert
    split
    · simp
    · simp only [List.mem_cons, ih]
      tauto

theorem length_topkInsert (ascending : Bool) (a : W32 × W32) (l : List (W32 × W32)) :
    (topkInsert ascending a l).length = l.length + 1 := by
  induction l with
  | nil => rfl
  | cons b bs ih =>
    unfold topkInsert
    split
    · rfl
    · simp [ih]

theorem pairwise_topkInsert {ascending : Bool} (a : W32 × W32) {l : List (W32 × W32)}
    (h : l.Pairwise fun x y => topkRank ascending x ≤ topkRank ascending y) :
    (topkInsert ascending a l).Pairwise fun x y => topkRank ascending x ≤ topkRank ascending y := by
  induction l with
  | nil => exact List.pairwise_singleton _ _
  | cons b bs ih =>
    obtain ⟨hb, hbs⟩ := List.pairwise_cons.mp h
    unfold topkInsert
    split
    · rename_i hbefore
      have hab := ((topkBefore_iff_rank ascending a b).mp hbefore).le
      refine List.pairwise_cons.mpr ⟨fun y hy => ?_, h⟩
      obtain rfl | hy := List.mem_cons.mp hy
      · exact hab
      · exact hab.trans (hb y hy)
    · rename_i hbefore
      have hba := (not_topkBefore_iff_rank ascending a b).mp (Bool.not_eq_true _ ▸ hbefore)
      refine List.pairwise_cons.mpr ⟨fun y hy => ?_, ih hbs⟩
      obtain rfl | hy := mem_topkInsert.mp hy
      · exact hba
      · exact hb y hy

/-- Settles O39: candidates have a rank, and a candidate is put into its place of a list sorted by it. -/
theorem topkKeepsTheBest : Obligations.TopkKeepsTheBest := by
  intro a t hsorted hlen
  simp only [not_topkBefore_iff_rank] at hsorted ⊢
  have hput := pairwise_topkInsert (ascending := t.ascending) a hsorted
  refine ⟨hput.sublist (List.take_sublist _ _), ?_, fun x hx => mem_topkInsert.mp (List.mem_of_mem_take hx), fun x hx hgone y hy => ?_⟩
  · rw [topkMerge, List.length_take, length_topkInsert, Nat.min_comm]
  · have hx' := mem_topkInsert (ascending := t.ascending) |>.mpr hx
    rw [← List.take_append_drop t.k (topkInsert t.ascending a t.items)] at hput hx'
    have hdropped := (List.mem_append.mp hx').resolve_left hgone
    exact (List.pairwise_append.mp hput).2.2 y hy x hdropped

/-! ### Loads -/

theorem mem_lanes_of_active {c : DCtx} {g : DresserRegs} : ∀ l ∈ c.activeLanes g, l ∈ c.lanes := fun _ h => (mem_activeLanes.mp h).1

/-- Lanes read into the destination leave every lane that is not of the list, and the other registers. -/
theorem loadInto_keeps {c : DCtx} {rd : Nat → State → Reply W32 × State} {ls : List Nat} (hls : ∀ l ∈ ls, l ∈ c.lanes)
    {g h : DresserRegs} {s w : State} (hload : loadInto c rd ls g s = (.done h, w)) :
    c.KeepsOthers g h ∧ ∀ m, m ∉ ls → c.opD h m = c.opD g m := by
  induction ls generalizing g s with
  | nil =>
    cases hload
    exact ⟨.refl c _, fun _ _ => rfl⟩
  | cons l ls ih =>
    unfold loadInto Reply.andThen at hload
    split at hload
    · rename_i x u hread
      obtain ⟨hkept, hrest⟩ := ih (fun k hk => hls k (List.mem_cons_of_mem _ hk)) hload
      refine ⟨(keepsOthers_setD (hls l (List.mem_cons_self ..)) x g).trans hkept, fun m hm => ?_⟩
      rw [List.mem_cons, not_or] at hm
      rw [hrest m hm.2, opD_setD, if_neg hm.1]
    · cases hload
    · cases hload

/-- Lanes that can each be read as they stand are written one after the other. -/
theorem loadInto_of_stands {c : DCtx} {rd : Nat → State → Reply W32 × State} {x : Nat → W32} {ls : List Nat} {s : State}
    (hread : ∀ l ∈ ls, rd l s = (.done (x l), s)) (g : DresserRegs) :
    loadInto c rd ls g s = (.done (ls.foldl (fun h l => c.setD l (x l) h) g), s) := by
  induction ls generalizing g with
  | nil => rfl
  | cons l ls ih =>
    unfold loadInto
    rw [hread l (List.mem_cons_self ..)]
    exact ih (fun k hk => hread k (List.mem_cons_of_mem _ hk)) _

theorem foldl_activeLanes (c : DCtx) (x : Nat → W32) (g : DresserRegs) :
    (c.activeLanes g).foldl (fun h l => c.setD l (x l) h) g = c.mapLanes (fun _ l => x l) g := by
  rw [DCtx.activeLanes, List.foldl_filter]
  rfl

theorem loadInto_activeLanes {c : DCtx} {rd : Nat → State → Reply W32 × State} {x : Nat → W32} {g : DresserRegs} {s : State}
    (hread : ∀ l ∈ c.activeLanes g, rd l s = (.done (x l), s)) :
    loadInto c rd (c.activeLanes g) g s = (.done (c.mapLanes (fun _ l => x l) g), s) := by
  rw [loadInto_of_stands hread, foldl_activeLanes]

/-- An element of a scalar tensor in bench scratch can always be read. -/
theorem loadLane_of_scratch {c : DCtx} {t : Tensor} {row : Nat} {s : State} (hscratch : addrScratch (t.address + c.rowOffset t row) = true)
    (hscalar : isMx t.format = false) : ∃ w, c.loadLane t row 0 s = (.done w, s) := by
  have hcol : tensorCol t 0 = 0 := by simp [tensorCol]
  have hread : ∃ code, readElem { c.requester with cached := true } (formatBits t.format) (t.address + c.rowOffset t row) 0 s =
      (.done code, s) := by
    simp only [readElem, fieldRead, Nat.zero_mul, Nat.zero_div, Nat.add_zero, hscratch, if_true, Nat.zero_add, Nat.sub_zero,
      Nat.add_one_ne_zero, if_false]
    exact ⟨_, rfl⟩
  obtain ⟨code, hread⟩ := hread
  refine ⟨laneOf t.format 0x7F code, ?_⟩
  simp only [DCtx.loadLane, hcol, hread, Reply.andThen, hscalar, Bool.false_eq_true, if_false]

/-- Settles O40: loads read the active lanes one after the other into the destination. -/
theorem loadsFillActiveLanes : Obligations.LoadsFillActiveLanes := by
  intro op n c x s v hready
  have hloads : exec (.load n) s = .next (dresserStep 0x01 loadEffect n s) ∧ exec (.sload n) s = .next (dresserStep 0x04 sloadEffect n s) ∧
      exec (.gather n) s = .next (dresserStep 0x06 gatherEffect n s) := ⟨rfl, rfl, rfl⟩
  obtain ⟨hloadExec, hsloadExec, hgatherExec⟩ := hloads
  refine ⟨fun f i h w hmem hdone => ?_, ?_, ?_, ?_, fun e es hop hskid => ?_, fun l hout => ?_, fun hkind hscratch hscalar hbits => ?_⟩
  · have hfacts : exec i s = .next (pastInstr c h w) ∧ ∃ rd, loadInto c rd (c.activeLanes (benchOf v n).regs) (benchOf v n).regs v = (.done h, w) := by
      simp only [List.mem_cons, Prod.mk.injEq, List.not_mem_nil, or_false] at hmem
      obtain ⟨rfl, rfl, rfl⟩ | ⟨rfl, rfl, rfl⟩ | ⟨rfl, rfl, rfl⟩ := hmem
      · exact ⟨by rw [hloadExec, dresserStep_of_done hready hdone], _, hdone⟩
      · exact ⟨by rw [hsloadExec, dresserStep_of_done hready hdone], _, hdone⟩
      · exact ⟨by rw [hgatherExec, dresserStep_of_done hready hdone], _, hdone⟩
    obtain ⟨hexec, rd, hload⟩ := hfacts
    obtain ⟨hkept, hrest⟩ := loadInto_keeps mem_lanes_of_active hload
    refine ⟨hexec, fun l _ hoff => hrest l fun hmem => ?_, hkept.tile, hkept.strip, hkept.masks, hkept.topk⟩
    rw [(mem_activeLanes.mp hmem).2] at hoff
    cases hoff
  · rintro rfl hread
    rw [hloadExec, dresserStep_of_done hready (f := loadEffect) (loadInto_activeLanes hread)]
  · rintro rfl hread
    rw [hsloadExec, dresserStep_of_done hready (f := sloadEffect) (loadInto_activeLanes hread)]
  · rintro rfl hread
    rw [hgatherExec, dresserStep_of_done hready (f := gatherEffect) (loadInto_activeLanes hread)]
  · subst hop
    have hexec : exec (.loadskid n) s = .next (dresserStep 0x02 loadskidEffect n s) := rfl
    obtain ⟨-, -, -, -, hbench, -⟩ := dresserNext_eq_some.mp hready.2.1
    have heffect : loadskidEffect c (benchOf v n).regs v = (.done (c.mapLanes (fun _ l => c.skidLane e l) (benchOf v n).regs), v) := by
      simp only [loadskidEffect, hbench, hskid]
    rw [hexec, dresserStep_of_done hready heffect]
  · simp only [DCtx.gatherLane, hout]
  · exact loadLane_of_scratch hscratch hscalar

end Sys2Proof.Machine
end

