-- ==== Sys2Proof/Proofs/RegisterWrites.lean ====
section
/-!
PROOFS. Writes of the control space by address (R478, R480–R484).
-/

namespace Sys2Proof.Machine

theorem firstWrite_some (s : State) (r : Bool × State) (rs : List (Option (Bool × State))) : firstWrite s (some r :: rs) = r := rfl
theorem firstWrite_none (s : State) (rs : List (Option (Bool × State))) : firstWrite s (none :: rs) = firstWrite s rs := rfl

theorem wblock_of_in {off base size : Nat} {f : Nat → Bool × State} (h : base ≤ off ∧ off < base + size) :
    wblock off base size f = some (f (off - base)) := if_pos h

theorem wblock_of_out {off base size : Nat} {f : Nat → Bool × State} (h : ¬(base ≤ off ∧ off < base + size)) :
    wblock off base size f = none := if_neg h

theorem blockAt_of_in {off base size : Nat} {f : Nat → Nat} (h : base ≤ off ∧ off < base + size) :
    blockAt off base size f = some (f (off - base)) := if_pos h

theorem blockAt_of_out {off base size : Nat} {f : Nat → Nat} (h : ¬(base ≤ off ∧ off < base + size)) :
    blockAt off base size f = none := if_neg h

theorem siteWindowOf_of_out {off : Nat} (h : ¬(0x1040000 ≤ off ∧ off < 0x1060000)) : siteWindowOf off = none := if_neg h

theorem registerWrite_of_out {off : Nat} (h : ¬(0x1040000 ≤ off ∧ off < 0x1060000)) (v : W64) (s : State) :
    registerWrite off v s = (regWrite .nobody off v s).2 := by
  simp only [registerWrite, siteWindowOf_of_out h]

/-- A write that no one waits for, while the module serves. -/
theorem exec_registerWrite {s : State} (h : inService s = true) {off : Nat} (haddr : registerAddress (0x400000000000 + off) = true) (v : W64) :
    exec (.registerWrite (0x400000000000 + off) v) s = .next (registerWrite off v s) := by
  show execRegisterWrite _ v s = _
  rw [execRegisterWrite, if_pos ⟨h, haddr⟩, controlBase, Nat.add_sub_cancel_left]

/-- A write at an address where no register may be named, or that the registers ignore. -/
theorem exec_registerWrite_of_ignored {s : State} {off : Nat} {v : W64} (h : registerWrite off v s = s) :
    exec (.registerWrite (0x400000000000 + off) v) s = .next s := by
  show execRegisterWrite _ v s = _
  rw [execRegisterWrite, controlBase, Nat.add_sub_cancel_left, h, ite_self]

theorem registerAddress_of_aligned {off : Nat} (hsize : off < 0x10000000) (halign : off % 8 = 0) (hfour : fourByteOffset off = false) :
    registerAddress (0x400000000000 + off) = true := by
  have hmod : (0x400000000000 + off) % 8 = 0 := by omega
  simp [registerAddress, controlBase, controlSize, hfour, hmod]
  omega

/-- The numbers of a little-endian field. -/
theorem natOfBytes_bytesOfNat (n v : Nat) : natOfBytes (bytesOfNat n v) = v % 256 ^ n := by
  induction n generalizing v with
  | zero => simp [bytesOfNat, natOfBytes, Nat.mod_one]
  | succ n ih =>
    rw [bytesOfNat, natOfBytes, ih, BitVec.toNat_ofNat, show 2 ^ 8 = 256 from rfl, Nat.pow_succ', Nat.mod_mul]

theorem memRead_memWrite_bytesOfNat (m : Memory) (a n v : Nat) : memRead (memWrite m a (bytesOfNat n v)) a n = bytesOfNat n v := by
  have h := memRead_memWrite m a (bytesOfNat n v)
  rwa [length_bytesOfNat] at h

theorem memNat_memWrite_bytesOfNat (m : Memory) (a n v : Nat) : memNat (memWrite m a (bytesOfNat n v)) a n = v % 256 ^ n := by
  rw [memNat, memRead_memWrite_bytesOfNat, natOfBytes_bytesOfNat]

theorem memNat_memWrite_word (m : Memory) (a : Nat) (v : W64) : memNat (memWrite m a (bytesOfNat 8 v.toNat)) a 8 = v.toNat := by
  rw [memNat_memWrite_bytesOfNat, show 256 ^ 8 = 2 ^ 64 by norm_num, Nat.mod_eq_of_lt v.isLt]

theorem getLsbD_eq_bitOf {w : Nat} (v : BitVec w) (i : Nat) : v.getLsbD i = bitOf v.toNat i := by
  rw [BitVec.getLsbD, Nat.testBit_eq_decide_div_mod_eq, bitOf, bitsOf, Nat.shiftRight_eq_div_pow, Nat.add_sub_cancel_left, Nat.pow_one]
  rfl

/-! ### What a write reaches -/

/-- A write at an offset of no block that has registers to write is acknowledged and ignored. -/
theorem regWrite_of_out {w : RegWriter} {off : Nat} {v : W64} {s : State}
    (h : ∀ b ∈ [(0x100000, 0x400000), (0x800000, 0x40000), (0xA00000, 0x10000), (0xB00000, 0x10000), (0xC00000, 0x20000), (0xD00000, 0x1000),
      (0xE00000, 0x30000), (0xF00000, 0x70000), (0x1100000, 0x3000), (0x2900000, 0x2000)], ¬(b.1 ≤ off ∧ off < b.1 + b.2)) :
    regWrite w off v s = (true, s) := by
  simp only [List.forall_mem_cons, List.not_mem_nil, false_implies, implies_true, and_true] at h
  obtain ⟨h0, h1, h2, h3, h4, h5, h6, h7, h8, h9⟩ := h
  rw [regWrite, wblock_of_out h0, wblock_of_out h1, wblock_of_out h2, wblock_of_out h3, wblock_of_out h4, wblock_of_out h5, wblock_of_out h6,
    wblock_of_out h7, wblock_of_out h8, wblock_of_out h9]
  rfl

theorem regValue_of_inNoBlock {off : Nat} (h : inNoBlock off = true) (s : State) : regValue s off = 0 := by
  simp only [inNoBlock, List.any_cons, List.any_nil, Bool.or_false, Bool.not_eq_true', Bool.or_eq_false_iff, decide_eq_false_iff_not] at h
  obtain ⟨h0, h1, h2, h3, h4, h5, h6, h7, h8, h9, h10, -, -, -, h11, h12⟩ := h
  rw [regValue, blockAt_of_out h0, blockAt_of_out h1, blockAt_of_out h2, blockAt_of_out h3, blockAt_of_out h4, blockAt_of_out h5,
    blockAt_of_out h6, blockAt_of_out h7, blockAt_of_out h8, blockAt_of_out h9, blockAt_of_out h10, blockAt_of_out h11, blockAt_of_out h12]
  rfl

theorem regWrite_of_inNoBlock {w : RegWriter} {off : Nat} (h : inNoBlock off = true) (v : W64) (s : State) : regWrite w off v s = (true, s) := by
  refine regWrite_of_out fun b hb hin => ?_
  simp only [inNoBlock, Bool.not_eq_true', List.any_eq_false, decide_eq_true_eq] at h
  refine h b ?_ hin
  simp only [List.mem_cons] at hb ⊢
  tauto

theorem regRead_of_ne {off : Nat} (h : off ≠ 0xE00008) (s : State) : regRead off s = (BitVec.ofNat 64 (regValue s off), s) := if_neg h

/-- The registers of a ring's page. -/
theorem regWrite_ringPage {w : RegWriter} {r o : Nat} (hr : r < 1024) (ho : o < 0x1000) (v : W64) (s : State) :
    regWrite w (0x100000 + r * 0x1000 + o) v s = ringPageWrite r o v.toNat s := by
  have hoff : 0x100000 + r * 0x1000 + o - 0x100000 = r * 0x1000 + o := by omega
  have hpage : (r * 0x1000 + o) / 0x1000 = r := by omega
  have hrest : (r * 0x1000 + o) % 0x1000 = o := by omega
  rw [regWrite, wblock_of_in (by omega), firstWrite_some, hoff, hpage, hrest]

theorem regValue_ringPage {r o : Nat} (hr : r < 1024) (ho : o < 0x1000) (s : State) :
    regValue s (0x100000 + r * 0x1000 + o) = readRingPage s r o := by
  have hoff : 0x100000 + r * 0x1000 + o - 0x100000 = r * 0x1000 + o := by omega
  have hpage : (r * 0x1000 + o) / 0x1000 = r := by omega
  have hrest : (r * 0x1000 + o) % 0x1000 = o := by omega
  rw [regValue, blockAt_of_out (by omega), blockAt_of_in (by omega), firstReg, firstReg, hoff, hpage, hrest]

theorem regWrite_mgmt {w : RegWriter} {o : Nat} (ho : o < 0x3000) (v : W64) (s : State) :
    regWrite w (0x1100000 + o) v s = (true, mgmtWrite o v s) := by
  rw [regWrite]
  iterate 8 rw [wblock_of_out (by omega), firstWrite_none]
  rw [wblock_of_in (by omega), firstWrite_some, Nat.add_sub_cancel_left]
  rfl

theorem regWrite_pcie {w : RegWriter} {p : Nat} (hp : p < 2) (v : W64) (s : State) :
    regWrite w (0x2900000 + 0x1000 * p) v s = (true, pcieCtlWrite p v.toNat s) := by
  rw [regWrite]
  iterate 9 rw [wblock_of_out (by omega), firstWrite_none]
  rw [wblock_of_in (by omega), firstWrite_some, Nat.add_sub_cancel_left, if_pos (by omega), Nat.mul_div_cancel_left _ (by norm_num)]
  rfl

theorem regWrite_err {w : RegWriter} {o : Nat} (ho : o < 0x20000) (v : W64) (s : State) :
    regWrite w (0xC00000 + o) v s = errWrite w o v s := by
  rw [regWrite]
  iterate 4 rw [wblock_of_out (by omega), firstWrite_none]
  rw [wblock_of_in (by omega), firstWrite_some, Nat.add_sub_cancel_left]

/-- Settles O60: each write is taken to the block its offset lies in. -/
theorem registerWritesAct : Obligations.RegisterWritesAct := by
  intro v s hserves
  refine ⟨?_, ?_, fun i hi => ?_, fun p hp => ?_, fun off halign hsize hout => ?_, fun off halign hid => ?_, fun r o hr ho halign hnot => ?_⟩
  · rw [show 0x400000C00008 = 0x400000000000 + (0xC00000 + 8) from rfl, exec_registerWrite hserves (by decide),
      registerWrite_of_out (by omega), regWrite_err (by omega)]
    rfl
  · rw [show 0x400001100010 = 0x400000000000 + (0x1100000 + 0x10) from rfl, exec_registerWrite hserves (by decide),
      registerWrite_of_out (by omega), regWrite_mgmt (by omega)]
    show _ = execMailboxGo v s
    rw [execMailboxGo, if_pos hserves]
    rfl
  · have hplace : 0x400001101000 + 8 * i = 0x400000000000 + (0x1100000 + (0x1000 + 8 * i)) := by omega
    have hwrite : mgmtWrite (0x1000 + 8 * i) v s =
        updMgmt (fun m => { m with request := memWrite m.request (8 * i) (bytesOfNat 8 v.toNat) }) s := by
      rw [mgmtWrite, if_neg (by omega), if_pos (by omega), Nat.add_sub_cancel_left]
    have hexec : exec (.registerWrite (0x400001101000 + 8 * i) v) s = .next (updMgmt (fun m => { m with
        request := memWrite m.request (8 * i) (bytesOfNat 8 v.toNat) }) s) := by
      rw [hplace, exec_registerWrite hserves (registerAddress_of_aligned (by omega) (by omega) (by simp [fourByteOffset]; omega)),
        registerWrite_of_out (by omega), regWrite_mgmt (by omega), hwrite]
    refine ⟨_, hexec, rfl, memNat_memWrite_word _ _ v, fun a ha => ?_⟩
    exact memGet_memWrite_of_out _ _ _ (by rwa [length_bytesOfNat])
  · have hplace : 0x400002900000 + 0x1000 * p = 0x400000000000 + (0x2900000 + 0x1000 * p) := by omega
    have hexec : exec (.registerWrite (0x400002900000 + 0x1000 * p) v) s = .next (pcieCtlWrite p v.toNat s) := by
      rw [hplace, exec_registerWrite hserves (registerAddress_of_aligned (by omega) (by omega) (by simp [fourByteOffset]; omega)),
        registerWrite_of_out (by omega), regWrite_pcie hp]
    refine ⟨_, hexec, rfl, ?_⟩
    rw [getLsbD_eq_bitOf]
    exact (Table.get_update ..).trans (if_pos rfl)
  · have hsite : ¬(0x1040000 ≤ off ∧ off < 0x1060000) := fun hin => by
      simp only [inNoBlock, Bool.not_eq_true', List.any_eq_false, decide_eq_true_eq] at hout
      exact hout (0x1000000, 0x60000) (by simp) (by simp only; omega)
    have hstatus : off ≠ 0xE00008 := by
      rintro rfl
      revert hout
      decide
    refine ⟨exec_registerWrite_of_ignored ?_, ?_⟩
    · rw [registerWrite_of_out hsite, regWrite_of_inNoBlock hout]
    · rw [regRead_of_ne hstatus, regValue_of_inNoBlock hout]
      rfl
  · refine exec_registerWrite_of_ignored ?_
    rw [registerWrite_of_out (by omega), regWrite_of_out]
    simp only [List.forall_mem_cons, List.not_mem_nil, false_implies, implies_true, and_true]
    omega
  · have hplace : 0x400000100000 + r * 0x1000 + o = 0x400000000000 + (0x100000 + r * 0x1000 + o) := by omega
    constructor
    · rw [hplace]
      refine exec_registerWrite_of_ignored ?_
      rw [registerWrite_of_out (by omega), regWrite_ringPage hr ho, ringPageWrite, hnot]
      rfl
    · rw [regRead_of_ne (by omega), regValue_ringPage hr ho, readRingPage, hnot]
      rfl

end Sys2Proof.Machine
end

