-- ==== Sys2Proof/Proofs/Sites.lean ====
section
/-!
PROOFS. Admitted dies in service and their windows (R356, R357).
-/

namespace Sys2Proof.Machine

@[simp] theorem siteOf_updSite_self (k : Nat) (f : Site → Site) (s : State) : siteOf (updSite k f s) k = f (siteOf s k) :=
  (Table.get_update ..).trans (if_pos rfl)

theorem hartOf_updHart (h j : Nat) (f : Hart → Hart) (s : State) : hartOf (updHart h f s) j = if j = h then f (hartOf s h) else hartOf s j :=
  Table.get_update s.landing.harts {} j h f

@[simp] theorem hartOf_updHart_self (h : Nat) (f : Hart → Hart) (s : State) : hartOf (updHart h f s) h = f (hartOf s h) := by
  rw [hartOf_updHart, if_pos rfl]

theorem siteOf_report (e : ErrRecord) (s : State) (k : Nat) : siteOf (report e s) k = siteOf s k := by
  rw [siteOf, report_kerf, ← siteOf]

/-- The site of a shut-down (R356). -/
def Site.shut (x : Site) : Site := { x with state := .shutDown, code := 0x6205, modules := 0, lanes := 0, rate := 0 }

theorem shutSite_of_part {s : State} (hpart : s.part.orderCode ≠ 1) (k : Nat) (injected : Bool) :
    shutSite k injected s = report { code := 0x6205, source := srcModule s, injected := injected } (updSite k Site.shut s) := by
  have hmark : markSitePorts k (updSite k Site.shut s) = updSite k Site.shut s := if_neg hpart
  exact congrArg (report _) hmark

/-- A site that is shut down is so with its record, and memory stands. -/
theorem shutSite_fields {s : State} (hpart : s.part.orderCode ≠ 1) (hroom : queueFull s.err = false) (k : Nat) (injected : Bool) :
    (siteOf (shutSite k injected s) k).state = .shutDown ∧ (siteOf (shutSite k injected s) k).code = 0x6205 ∧
      (siteOf (shutSite k injected s) k).modules = 0 ∧ (siteOf (shutSite k injected s) k).lanes = 0 ∧
      (siteOf (shutSite k injected s) k).rate = 0 ∧ (recordAt (shutSite k injected s).err s.err.written).code = 0x6205 ∧
      (shutSite k injected s).mem = s.mem := by
  rw [shutSite_of_part hpart]
  have hsite := siteOf_report { code := 0x6205, source := srcModule s, injected := injected } (updSite k Site.shut s) k
  rw [siteOf_updSite_self] at hsite
  obtain ⟨hcode, -⟩ := report_module_fields (s := updSite k Site.shut s)
    (e := { code := 0x6205, source := srcModule s, injected := injected }) rfl hroom fun h => absurd (show classOf 0x6205 = .corrected from h) (by decide)
  rw [hsite]
  exact ⟨rfl, rfl, rfl, rfl, rfl, hcode, report_mem ..⟩

theorem lt_of_hartRuns {s : State} {h : Nat} (hruns : hartRuns s h = true) : h < 64 := by
  simp only [hartRuns, Bool.and_eq_true, decide_eq_true_eq] at hruns
  exact hruns.1.1.1

theorem hartFree_of_hartRuns {s : State} {h : Nat} (hruns : hartRuns s h = true) : hartFree s h = true := by
  simp only [hartRuns, Bool.and_eq_true] at hruns
  exact hruns.1.2

theorem not_waiting_site_of_hartFree {s : State} {h : Nat} (hfree : hartFree s h = true) (k : Nat) : (hartOf s h).waiting ≠ .site k := by
  intro hwaiting
  rw [hartFree, hwaiting] at hfree
  cases hfree

/-- An access of a hart that runs to a site window, before the die has answered. -/
theorem exec_siteWindowAccess {s : State} {k h off : Nat} (hk : k < 2) (hoff : off < 0x10000) (halign : off % 8 = 0)
    (hruns : hartRuns s h = true) (write : Option W64) :
    exec (.siteWindowAccess k h off write none) s = .next (if windowForwards s k then
      forwardAccess k (.hart h) off write.isSome (updHart h (fun x => { x with waiting := .site k }) s)
    else if write.isSome then s else updHart h (fun x => { x with value := 0 }) s) := by
  have hlt := lt_of_hartRuns hruns
  have hfree := not_waiting_site_of_hartFree (hartFree_of_hartRuns hruns) k
  have hin : ¬(2 ≤ k ∨ 0x10000 ≤ off ∨ off % 8 ≠ 0) := by omega
  have hbegins : ¬(h = 64 ∨ (hartOf s h).waiting = .site k) := by
    rintro (heq | heq)
    · omega
    · exact hfree heq
  show execSiteWindowAccess k h off write none s = _
  rw [execSiteWindowAccess, siteWindowAccess, if_neg hin, if_neg hbegins, hruns]
  cases windowForwards s k <;> rfl

/-- An access that ends changes neither the sites nor the error block nor the part. -/
theorem endSiteAccess_fields (a : SiteAccess) (v : W64) (s : State) :
    (endSiteAccess a v s).kerf = s.kerf ∧ (endSiteAccess a v s).err = s.err := by
  unfold endSiteAccess
  split
  · exact ⟨rfl, rfl⟩
  · split
    · rename_i haccessor _
      rw [haccessor]
      exact ⟨rfl, rfl⟩
    · exact ⟨rfl, rfl⟩
  · exact ⟨rfl, rfl⟩

theorem exec_siteWindowTimeout {s : State} {k : Nat} {a : SiteAccess} {rest : List SiteAccess} (h : (siteOf s k).access = a :: rest) :
    exec (.siteWindowTimeout k) s = .next (reportModule 0x6208
      (endSiteAccess a 0xFFFFFFFFFFFFFFFF (updSite k (fun x => { x with access := rest }) s)) a.addr) := by
  show execSiteWindowTimeout k s = _
  simp only [execSiteWindowTimeout, h]

/-- Settles O59: a site is shut down by one function, and a window's access ends by another. -/
theorem sitesStayWithinLimits : Obligations.SitesStayWithinLimits := by
  refine ⟨fun k s hadmitted hunarmed hpart hbounded hroom => ?_, fun k h off s hk hoff halign hruns => ?_,
    fun k a rest s haccess hbounded hroom hread => ?_⟩
  · have hfire : fireInjection 0x6205 (fun l => l == k) s = (false, s) := fireInjection_of_unarmed hunarmed ..
    refine ⟨fun temp hlow => ?_, fun temp hhigh => ?_, ?_, fun m l r good hbad => ?_, fun m l r hsupported hcapacity => ?_⟩
    · refine ⟨updSite k (fun x => { x with temp := temp, lastReport := s.now }) s, ?_, siteOf_updSite_self .., rfl⟩
      show execSiteTempReport k temp s = _
      simp only [execSiteTempReport, hadmitted, hfire, Bool.not_true, Bool.false_eq_true, if_false, false_or]
      rw [if_neg (by omega)]
    · have hshut := shutSite_fields (s := updSite k (fun x => { x with temp := temp, lastReport := s.now }) s) hpart hroom k false
      refine ⟨_, ?_, hshut⟩
      show execSiteTempReport k temp s = _
      simp only [execSiteTempReport, hadmitted, hfire, Bool.not_true, Bool.false_eq_true, if_false, false_or]
      rw [if_pos hhigh]
    · refine ⟨_, ?_, shutSite_fields hpart hroom k false⟩
      show execSiteReportTimeout k s = _
      rw [execSiteReportTimeout, if_pos hadmitted]
    · refine ⟨_, ?_, shutSite_fields hpart hroom k false⟩
      show execSiteMainbandFailure k good m l r s = _
      rw [execSiteMainbandFailure]
      simp only [hadmitted, Bool.not_true, Bool.false_eq_true, if_false]
      refine congrArg Host.Outcome.next (if_pos ?_)
      obtain rfl | hnot | ⟨hcls, hcap⟩ := hbad
      · simp
      · simp [hnot]
      · simp [hcls, hcap]
    · let u := updSite k (fun x => { x with modules := m, lanes := l, rate := r, code := 0x6206 }) s
      refine ⟨report { code := 0x6206, source := srcModule s } u, ?_, ?_, fun hrate => ?_, report_mem ..⟩
      · show execSiteMainbandFailure k true m l r s = _
        rw [execSiteMainbandFailure]
        simp only [hadmitted, Bool.not_true, Bool.false_eq_true, if_false]
        refine congrArg Host.Outcome.next (if_neg ?_)
        obtain hcls | hcap := hcapacity
        · simp [hsupported, hcls]
        · simp [hsupported, hcap]
      · rw [siteOf_report, siteOf_updSite_self]
      · exact (report_module_fields (s := u) (e := { code := 0x6206, source := srcModule s }) rfl hroom fun _ => hrate).1
  · refine ⟨fun hno => ⟨⟨updHart h (fun x => { x with value := 0 }) s, ?_, ?_, rfl, ?_⟩, fun v => ?_⟩, fun hforwards => ?_⟩
    · rw [exec_siteWindowAccess hk hoff halign hruns, hno]; rfl
    · rw [hartOf_updHart_self]
    · rw [hartOf_updHart_self]
    · rw [exec_siteWindowAccess hk hoff halign hruns, hno]; rfl
    · let u := updHart h (fun x => { x with waiting := .site k }) s
      refine ⟨forwardAccess k (.hart h) off false u, ?_, ?_, ?_⟩
      · rw [exec_siteWindowAccess hk hoff halign hruns, hforwards]; rfl
      · have hu : (hartOf u h).waiting = .site k := by rw [hartOf_updHart_self]
        exact hu
      · rw [forwardAccess, siteOf_updSite_self]
        rfl
  · let u := updSite k (fun x => { x with access := rest }) s
    obtain ⟨hkerf, herr⟩ := endSiteAccess_fields a 0xFFFFFFFFFFFFFFFF u
    refine ⟨_, exec_siteWindowTimeout haccess, ?_, ?_, fun h haccessor => ?_, fun tag haccessor => ?_⟩
    · rw [reportModule, siteOf_report, siteOf, hkerf]
      exact congrArg Site.access (siteOf_updSite_self k _ s)
    · have hroom' : queueFull (endSiteAccess a 0xFFFFFFFFFFFFFFFF u).err = false := herr ▸ hroom
      obtain ⟨hcode, -⟩ := report_module_fields (s := endSiteAccess a 0xFFFFFFFFFFFFFFFF u)
        (e := { code := 0x6208, source := srcModule (endSiteAccess a 0xFFFFFFFFFFFFFFFF u), address := BitVec.ofNat 64 a.addr })
        rfl hroom' fun h => absurd (show classOf 0x6208 = .corrected from h) (by decide)
      rw [herr] at hcode
      exact hcode
    · have hend : endSiteAccess a 0xFFFFFFFFFFFFFFFF u = updHart h (fun x => { x with value := 0xFFFFFFFFFFFFFFFF, waiting := .nothing }) u := by
        simp only [endSiteAccess, haccessor, hread, Bool.false_eq_true, if_false]
      have hhart : hartOf (reportModule 0x6208 (endSiteAccess a 0xFFFFFFFFFFFFFFFF u) a.addr) h = hartOf (endSiteAccess a 0xFFFFFFFFFFFFFFFF u) h := by
        rw [hartOf, reportModule, report_landing, ← hartOf]
      rw [hhart, hend, hartOf_updHart_self]
      exact ⟨rfl, rfl⟩
    · have hend : endSiteAccess a 0xFFFFFFFFFFFFFFFF u = mgmtSend .port (vendorResponse s 3 tag 0 0 (bytesOfNat 8 0xFFFFFFFFFFFFFFFF))
          (updMgmt (fun m => { m with writing := false }) u) := by
        simp only [endSiteAccess, haccessor, hread, Bool.false_eq_true, if_false]
        rfl
      have hmgmt : (reportModule 0x6208 (endSiteAccess a 0xFFFFFFFFFFFFFFFF u) a.addr).mgmt = (endSiteAccess a 0xFFFFFFFFFFFFFFFF u).mgmt :=
        report_mgmt ..
      rw [hmgmt, hend]
      exact ⟨rfl, rfl⟩

end Sys2Proof.Machine
end

