-- ==== Sys2Proof/Proofs/Requests.lean ====
section
/-!
PROOFS. Requests of the management port that are served as they come (R437, R440, R441), and the staging commands (R70–R73).
-/

namespace Sys2Proof.Machine

/-- The state in which a request of the port is served: it has passed through the backlog. -/
def noted (s : State) : State := updMgmt (noteBacklog .port) s

theorem mgmtGate_of_serves {s : State} (h : MgmtServes s) (inHold : Bool) : mgmtGate s .port inHold = .serve := by
  obtain ⟨hpower, hlong, hwriting, hbacklog⟩ := h
  simp [mgmtGate, gateWork, hpower, hlong, hwriting, hbacklog]

theorem vendorGated_of_serves {s : State} (h : MgmtServes s) (m : List Byte) (f : State → State) : vendorGated .port m f s = f (noted s) := by
  rw [vendorGated, mgmtGate_of_serves h]
  rfl

theorem long_noted {s : State} (h : MgmtServes s) : (noted s).mgmt.long = none := h.2.1

theorem satAdd_one (n : Nat) : satAdd 32 n 1 = min (n + 1) (2 ^ 32 - 1) := rfl

/-- An answer at once from a state that differs in what no answer looks at. -/
theorem answered_vendorAnswer {s u : State} (hpart : u.part = s.part) (hserved : u.mgmt.served = s.mgmt.served) (hlong : u.mgmt.long = none)
    (cmd tag : Nat) (r : VendorResult) : Answered (vendorResponse s cmd tag r.status 0 r.data) s (vendorAnswer .port cmd tag (r, u)) := by
  refine ⟨?_, ?_, hlong⟩
  · simp only [vendorAnswer, mgmtSend, updMgmt, placeResponse, vendorResponse, vendorHead, hpart]
  · simp only [vendorAnswer, mgmtSend, updMgmt, placeResponse, hserved, satAdd_one]

theorem answeredLater_beginVendorLong {s u : State} (hpart : u.part = s.part) (hnow : u.now = s.now) (kind : LongKind)
    (cmd tag bound : Nat) (r : VendorResult) : AnsweredLater (vendorResponse s cmd tag r.status 0 r.data) bound s
      (beginVendorLong kind .port cmd tag bound (r, u)) := by
  refine ⟨_, rfl, rfl, ?_, hnow, rfl⟩
  simp only [vendorResponse, vendorHead, hpart]

theorem boot_vendorAnswer (src : MgmtSource) (cmd tag : Nat) (r : VendorResult × State) : (vendorAnswer src cmd tag r).boot = r.2.boot := rfl
theorem boot_beginVendorLong (kind : LongKind) (src : MgmtSource) (cmd tag bound : Nat) (r : VendorResult × State) :
    (beginVendorLong kind src cmd tag bound r).boot = r.2.boot := rfl

theorem stageLong_of_refused {kind : LongKind} {src : MgmtSource} {cmd tag bound : Nat} {r : VendorResult × State} (h : r.1.status ≠ 0) :
    stageLong kind src cmd tag bound r = vendorAnswer src cmd tag r := if_neg h
theorem stageLong_of_accepted {kind : LongKind} {src : MgmtSource} {cmd tag bound : Nat} {r : VendorResult × State} (h : r.1.status = 0) :
    stageLong kind src cmd tag bound r = beginVendorLong kind src cmd tag bound r := if_pos h

/-! ### The start record and the slots -/

theorem rewrite_of_record {b : BootBlock} {r : StartRecord} (h : newestRecord b = some r) (f : StartRecord → StartRecord) :
    rewrite f b = writeRecord (f r) b := by
  rw [rewrite, h, Option.getD_some]

/-- A record rewritten is the newest, under the next sequence number. -/
theorem newestRecord_rewrite {b : BootBlock} {r : StartRecord} (h : newestRecord b = some r) (hsequence : r.sequence < 2 ^ 32 - 3)
    (f : StartRecord → StartRecord) : newestRecord (rewrite f b) = some { f r with sequence := r.sequence + 1 } := by
  rw [rewrite_of_record h, newestRecord_writeRecord h (by omega)]

theorem writeRecord_rest (r : StartRecord) (b : BootBlock) : (writeRecord r b).slot0 = b.slot0 ∧ (writeRecord r b).slot1 = b.slot1 ∧
    (writeRecord r b).session = b.session ∧ (writeRecord r b).sessionEnded = b.sessionEnded ∧ (writeRecord r b).revoked = b.revoked ∧
    (writeRecord r b).minVersion = b.minVersion := by
  unfold writeRecord
  split
  · dsimp only
    split <;> exact ⟨rfl, rfl, rfl, rfl, rfl, rfl⟩
  · exact ⟨rfl, rfl, rfl, rfl, rfl, rfl⟩
  · exact ⟨rfl, rfl, rfl, rfl, rfl, rfl⟩
  · exact ⟨rfl, rfl, rfl, rfl, rfl, rfl⟩

theorem slotContents_rewrite (f : StartRecord → StartRecord) (b : BootBlock) (k : Nat) : slotContents (rewrite f b) k = slotContents b k := by
  obtain ⟨h0, h1, -⟩ := writeRecord_rest (f ((newestRecord b).getD {})) b
  rw [slotContents, rewrite, h0, h1, ← slotContents]

theorem slotContents_setContents_self {k : Nat} (c : SlotContents) (b : BootBlock) : slotContents (setContents k c b) k = c := by
  unfold slotContents setContents
  split <;> rfl

theorem slotContents_setContents_other {k : Nat} (hk : k < 2) (c : SlotContents) (b : BootBlock) :
    slotContents (setContents k c b) (1 - k) = slotContents b (1 - k) := by
  obtain rfl | rfl : k = 0 ∨ k = 1 := by omega
  · rfl
  · rfl

theorem newestRecord_setContents (k : Nat) (c : SlotContents) (b : BootBlock) : newestRecord (setContents k c b) = newestRecord b := by
  unfold setContents
  split <;> rfl

theorem programBytes_get (t : Table Byte) (a : Nat) (data : List Byte) (c : Nat) :
    (programBytes t a data).get 0xFF c = if a ≤ c ∧ c < a + data.length then data.getD (c - a) 0 else t.get 0xFF c := by
  induction data generalizing t a with
  | nil => simp [programBytes]
  | cons b bs ih =>
    rw [programBytes, ih, List.length_cons]
    by_cases hca : c = a
    · subst hca
      rw [if_neg (by omega), if_pos (by omega), Table.get_set_self, Nat.sub_self]
      rfl
    · by_cases hin : a + 1 ≤ c ∧ c < a + 1 + bs.length
      · rw [if_pos hin, if_pos (by omega), show c - a = c - (a + 1) + 1 by omega]
        rfl
      · rw [if_neg hin, if_neg (by omega), Table.get_set_ne _ _ _ hca]

/-! ### The staging commands as they are served -/

section
variable {s : State} (h : MgmtServes s)
include h

theorem exec_stageOpen (k : Nat) : exec (.stageOpen .port k) s =
    .next (stageLong (.vendor 0x20) .port 0x20 0 45000000 (stageOpen k (noted s))) :=
  congrArg Host.Outcome.next (vendorGated_of_serves h _ _)

theorem exec_stageWrite (off : Nat) (data : List Byte) : exec (.stageWrite .port off data) s =
    .next (stageLong (.vendor 0x21) .port 0x21 0 2000 (stageWrite off data (noted s))) :=
  congrArg Host.Outcome.next (vendorGated_of_serves h _ _)

theorem exec_stageVerify : exec (.stageVerify .port) s = .next (verifyLong .port 0 (stageVerify (noted s))) :=
  congrArg Host.Outcome.next (vendorGated_of_serves h _ _)

theorem exec_stageSelect : exec (.stageSelect .port) s = .next (stageLong .select .port 0x23 0 200000 (stageSelect (noted s))) :=
  congrArg Host.Outcome.next (vendorGated_of_serves h _ _)

theorem exec_stageAbort : exec (.stageAbort .port) s = .next (vendorAnswer .port 0x24 0 (stageAbort (noted s))) :=
  congrArg Host.Outcome.next (vendorGated_of_serves h _ _)

theorem exec_imageConfirm : exec (.imageConfirm .port) s = .next (stageLong .confirm .port 0x25 0 200000 (imageConfirm (noted s))) :=
  congrArg Host.Outcome.next (vendorGated_of_serves h _ _)

theorem exec_startRecordRead (n : Nat) : exec (.startRecordRead .port n) s =
    .next (vendorAnswer .port 0x26 0 (startRecordRead n (noted s))) :=
  congrArg Host.Outcome.next (vendorGated_of_serves h _ _)

/-- A staging command that is refused is answered with its code at once, and leaves what its result's state holds. -/
theorem stageLong_refused {kind : LongKind} {cmd bound code : Nat} {r : VendorResult × State} {u : State} (hr : r = refusal code u)
    (hu : u.part = s.part ∧ u.mgmt = (noted s).mgmt) (hcode : code ≠ 0) :
    Answered (vendorResponse s cmd 0 code 0 []) s (stageLong kind .port cmd 0 bound r) ∧ (stageLong kind .port cmd 0 bound r).boot = u.boot := by
  subst hr
  obtain ⟨hpart, hmgmt⟩ := hu
  rw [stageLong_of_refused (show (refusal code u).1.status ≠ 0 from hcode)]
  exact ⟨answered_vendorAnswer hpart (by rw [hmgmt]; rfl) (by rw [hmgmt]; exact h.2.1) cmd 0 _, rfl⟩

omit h in
/-- A staging command that is accepted runs as a long operation. -/
theorem stageLong_accepted {kind : LongKind} {cmd bound : Nat} {r : VendorResult × State} {u : State} (hr : r = success [] u)
    (hpart : u.part = s.part) (hnow : u.now = s.now) :
    AnsweredLater (vendorResponse s cmd 0 0 0 []) bound s (stageLong kind .port cmd 0 bound r) ∧
      (stageLong kind .port cmd 0 bound r).boot = u.boot ∧ (stageLong kind .port cmd 0 bound r).mem = u.mem := by
  subst hr
  rw [stageLong_of_accepted rfl]
  exact ⟨answeredLater_beginVendorLong hpart hnow kind cmd 0 bound _, rfl, rfl⟩

end

theorem inStage_of_ended {s : State} (h : s.boot.sessionEnded = true) (f : State → VendorResult × State) :
    inStage f s = refusal 0x111B { s with boot := { s.boot with sessionEnded := false } } := if_pos h

theorem inStage_of_open {s : State} (h : s.boot.sessionEnded = false) (f : State → VendorResult × State) : inStage f s = f s :=
  if_neg (by simp [h])

/-- A session that a reset ended: its next command is answered 0x111B (R72). -/
theorem answered_ended {s : State} (h : MgmtServes s) (hended : s.boot.sessionEnded = true) {off : Nat} {data : List Byte}
    (hdata : 1 ≤ data.length) (hlength : data.length ≤ 64) :
    ∀ x ∈ [(Instr.stageWrite .port off data, 0x21), (.stageVerify .port, 0x22), (.stageSelect .port, 0x23), (.imageConfirm .port, 0x25)],
      ∃ t, exec x.1 s = .next t ∧ Answered (vendorResponse s x.2 0 0x111B 0 []) s t ∧ t.boot = { s.boot with sessionEnded := false } := by
  have hnoted : (noted s).boot.sessionEnded = true := hended
  have hin (f : State → VendorResult × State) := inStage_of_ended hnoted f
  have hwrite : stageWrite off data (noted s) = refusal 0x111B { noted s with boot := { s.boot with sessionEnded := false } } := by
    have hfits : ¬(data.isEmpty = true ∨ 64 < data.length) := by
      rw [List.isEmpty_iff_length_eq_zero]
      omega
    rw [stageWrite, if_neg hfits, hin]
    rfl
  simp only [List.forall_mem_cons, List.not_mem_nil, false_implies, implies_true, and_true]
  refine ⟨⟨_, exec_stageWrite h off data, stageLong_refused h hwrite ⟨rfl, rfl⟩ (by decide)⟩, ⟨_, exec_stageVerify h, ?_⟩,
    ⟨_, exec_stageSelect h, stageLong_refused h (hin _) ⟨rfl, rfl⟩ (by decide)⟩,
    ⟨_, exec_imageConfirm h, stageLong_refused h (hin _) ⟨rfl, rfl⟩ (by decide)⟩⟩
  rw [stageVerify, hin]
  exact ⟨answered_vendorAnswer rfl rfl h.2.1 0x22 0 _, rfl⟩

/-- The boot flash after STAGE_OPEN of a slot, and after a STAGE_WRITE of a session (R70, R71). -/
def opened (k : Nat) (b : BootBlock) : BootBlock :=
  let b1 := rewrite (fun r => clearPendingSlot k (markSlot k .empty r)) (setContents k .erased b)
  { b1 with session := some { slot := k }, sessionEnded := false }
def staged (x : StageSession) (off : Nat) (data : List Byte) (b : BootBlock) : BootBlock :=
  let b1 := rewrite (markSlot x.slot .written) (setContents x.slot (.staged (programBytes (stagedBytes b x.slot) off data)) b)
  { b1 with session := some { x with next := off + data.length, wrote := true } }

theorem stagedBytes_staged (x : StageSession) (off : Nat) (data : List Byte) (b : BootBlock) :
    stagedBytes (staged x off data b) x.slot = programBytes (stagedBytes b x.slot) off data := by
  have hcontents : slotContents (staged x off data b) x.slot = .staged (programBytes (stagedBytes b x.slot) off data) :=
    (slotContents_rewrite _ _ _).trans (slotContents_setContents_self _ _)
  rw [stagedBytes, hcontents]

/-- The state as a long operation leaves it, before its answer. -/
def longEnded (l : LongOp) (s : State) : State := endLong l.kind (updMgmt (fun m => { m with long := none }) s)

theorem exec_mgmtLongOpDone {s : State} {l : LongOp} (h : s.mgmt.long = some l) :
    exec .mgmtLongOpDone s = .next (mgmtSend l.source (longResponse l (longEnded l s)) (longEnded l s)) := by
  show execMgmtLongOpDone s = _
  simp only [execMgmtLongOpDone, h, longEnded]

theorem boot_mgmtSend (src : MgmtSource) (bs : List Byte) (s : State) : (mgmtSend src bs s).boot = s.boot := rfl
theorem mem_mgmtSend (src : MgmtSource) (bs : List Byte) (s : State) : (mgmtSend src bs s).mem = s.mem := rfl

/-- The record once its image is confirmed (R73). -/
def confirmed (r : StartRecord) : StartRecord := { r with activeSlot := r.runningSlot.getD r.activeSlot, trial := false }

/-- What the port finds while it serves: the record in use, and no session ended by a reset. -/
structure Staging (r : StartRecord) (s : State) : Prop where
  serves : MgmtServes s
  newest : newestRecord s.boot = some r
  sequence : r.sequence < 2 ^ 32 - 3
  goesOn : s.boot.sessionEnded = false

section
variable {r : StartRecord} {s : State} (h : Staging r s)
include h

theorem recordOf_noted : recordOf (noted s) = r := by
  rw [recordOf, show (noted s).boot = s.boot from rfl, h.newest, Option.getD_some]

theorem runningSlot_noted : runningSlot (noted s) = r.runningSlot := by
  rw [runningSlot, recordOf_noted h, if_neg]
  rw [show (noted s).life.power = .running from h.serves.1]
  decide

theorem stageOpen_of_free {k : Nat} (hk : k < 2) (hfree : r.runningSlot ≠ some k) (htrial : r.trial = false) : stageOpen k (noted s) =
    success [] { noted s with boot := opened k s.boot } := by
  rw [stageOpen, if_neg (by omega), if_neg (by rw [runningSlot_noted h, recordOf_noted h]; simp [hfree, htrial])]
  rfl

theorem stageOpen_of_taken {k : Nat} (hk : k < 2) (htaken : r.runningSlot = some k ∨ r.trial = true) :
    stageOpen k (noted s) = refusal 0x111A (noted s) := by
  rw [stageOpen, if_neg (by omega), if_pos (by rw [runningSlot_noted h, recordOf_noted h]; exact htaken)]

theorem stageWrite_of_session {x : StageSession} (hsession : s.boot.session = some x) {off : Nat} {data : List Byte}
    (hdata : 1 ≤ data.length) (hlength : data.length ≤ 64) : stageWrite off data (noted s) =
    if (off ≠ 0 ∧ off ≠ x.next) ∨ 32505856 < off + data.length then refusal 0x1118 (noted s)
    else success [] { noted s with boot := staged x off data s.boot } := by
  have hfits : ¬(data.isEmpty = true ∨ 64 < data.length) := by
    rw [List.isEmpty_iff_length_eq_zero]
    omega
  rw [stageWrite, if_neg hfits, inStage_of_open (s := noted s) h.goesOn]
  simp only [show (noted s).boot = s.boot from rfl, hsession]
  rfl

theorem stageVerify_of_session {x : StageSession} (hsession : s.boot.session = some x) : stageVerify (noted s) =
    if !x.wrote then refusal 0x1119 (noted s)
    else
      let v := validateSlot s.boot s.part s.life.common s.life.sites x.slot
      let b := rewrite (fun r => if v.code = 0 then markSlot x.slot .verified r else failSlot x.slot v.code r) s.boot
      ({ status := v.code.toNat }, { noted s with boot := b }) := by
  rw [stageVerify, inStage_of_open (s := noted s) h.goesOn]
  simp only [show (noted s).boot = s.boot from rfl, hsession]
  rfl

theorem stageSelect_of_session {x : StageSession} (hsession : s.boot.session = some x) : stageSelect (noted s) =
    if slotState x.slot r = .verified then success [] (noted s) else refusal 0x1119 (noted s) := by
  rw [stageSelect, inStage_of_open (s := noted s) h.goesOn]
  simp only [show (noted s).boot = s.boot from rfl, hsession, recordOf_noted h]

/-- STAGE_OPEN of a slot that does not run, with no image on trial. -/
theorem opens {k : Nat} (hk : k < 2) (hfree : r.runningSlot ≠ some k) (htrial : r.trial = false) :
    ∃ t, exec (.stageOpen .port k) s = .next t ∧ AnsweredLater (vendorResponse s 0x20 0 0 0 []) 45000000 s t ∧ slotContents t.boot k = .erased ∧
      slotContents t.boot (1 - k) = slotContents s.boot (1 - k) ∧ t.boot.session = some { slot := k } ∧
      newestRecord t.boot = some { clearPendingSlot k (markSlot k .empty r) with sequence := r.sequence + 1 } ∧ t.mem = s.mem := by
  obtain ⟨hlater, hboot, hmem⟩ := stageLong_accepted (s := s) (kind := .vendor 0x20) (cmd := 0x20) (bound := 45000000)
    (stageOpen_of_free h hk hfree htrial) rfl rfl
  refine ⟨_, exec_stageOpen h.serves k, hlater, ?_, ?_, ?_, ?_, hmem⟩
  · rw [hboot]
    exact (slotContents_rewrite _ _ k).trans (slotContents_setContents_self _ _)
  · rw [hboot]
    exact (slotContents_rewrite _ _ _).trans (slotContents_setContents_other hk _ _)
  · rw [hboot, opened]
  · rw [hboot]
    exact newestRecord_rewrite ((newestRecord_setContents ..).trans h.newest) h.sequence _

/-- STAGE_WRITE at the next offset, or at 0. -/
theorem writes {x : StageSession} (hsession : s.boot.session = some x) {off : Nat} {data : List Byte}
    (hdata : 1 ≤ data.length) (hlength : data.length ≤ 64) (hoff : off = 0 ∨ off = x.next) (hfits : off + data.length ≤ 32505856) :
    ∃ t, exec (.stageWrite .port off data) s = .next t ∧ AnsweredLater (vendorResponse s 0x21 0 0 0 []) 2000 s t ∧
      (∀ i, i < data.length → (stagedBytes t.boot x.slot).get 0xFF (off + i) = data.getD i 0) ∧
      (∀ a, a < off ∨ off + data.length ≤ a → (stagedBytes t.boot x.slot).get 0xFF a = (stagedBytes s.boot x.slot).get 0xFF a) ∧
      t.boot.session = some { x with next := off + data.length, wrote := true } ∧
      newestRecord t.boot = some { markSlot x.slot .written r with sequence := r.sequence + 1 } := by
  have hwrite := stageWrite_of_session h hsession hdata hlength (off := off)
  rw [if_neg (by omega)] at hwrite
  obtain ⟨hlater, hboot, -⟩ := stageLong_accepted (s := s) (kind := .vendor 0x21) (cmd := 0x21) (bound := 2000) hwrite rfl rfl
  refine ⟨_, exec_stageWrite h.serves off data, hlater, fun i hi => ?_, fun a ha => ?_, ?_, ?_⟩
  · rw [hboot, stagedBytes_staged, programBytes_get, if_pos (by omega), Nat.add_sub_cancel_left]
  · rw [hboot, stagedBytes_staged, programBytes_get, if_neg (by omega)]
  · rw [hboot, staged]
  · rw [hboot]
    exact newestRecord_rewrite ((newestRecord_setContents ..).trans h.newest) h.sequence _

/-- STAGE_VERIFY of a slot that has been written. -/
theorem verifies {x : StageSession} (hsession : s.boot.session = some x) (hwrote : x.wrote = true) {v : W16}
    (hv : (validateSlot s.boot s.part s.life.common s.life.sites x.slot).code = v) (hnone : v ≠ 0x1119) (hended : v ≠ 0x111B) :
    ∃ t, exec (.stageVerify .port) s = .next t ∧ AnsweredLater (vendorResponse s 0x22 0 v.toNat 0 []) 1500000 s t ∧
      newestRecord t.boot = some { (if v = 0 then markSlot x.slot .verified r else failSlot x.slot v r) with sequence := r.sequence + 1 } ∧
      t.boot.session = some x := by
  have hverify := stageVerify_of_session h hsession
  rw [hwrote, Bool.not_true, if_neg (by decide)] at hverify
  simp only [hv] at hverify
  have hstatus : ¬(v.toNat = 0x1119 ∨ v.toNat = 0x111B) := by
    rintro (heq | heq)
    · exact hnone (BitVec.eq_of_toNat_eq heq)
    · exact hended (BitVec.eq_of_toNat_eq heq)
  refine ⟨_, exec_stageVerify h.serves, ?_⟩
  rw [hverify, verifyLong, if_neg hstatus]
  refine ⟨answeredLater_beginVendorLong rfl rfl _ 0x22 0 1500000 _, newestRecord_rewrite h.newest h.sequence _, ?_⟩
  obtain ⟨-, -, hkept, -⟩ := writeRecord_rest (if v = 0 then markSlot x.slot .verified r else failSlot x.slot v r) s.boot
  rw [← rewrite_of_record h.newest fun r => if v = 0 then markSlot x.slot .verified r else failSlot x.slot v r] at hkept
  exact hkept.trans hsession

/-- STAGE_ABORT empties the slot of the session. -/
theorem aborts {x : StageSession} (hsession : s.boot.session = some x) :
    ∃ t, exec (.stageAbort .port) s = .next t ∧ Answered (vendorResponse s 0x24 0 0 0 []) s t ∧ t.boot.session = none ∧
      newestRecord t.boot = some { markSlot x.slot .empty r with pendingSlot := none, sequence := r.sequence + 1 } := by
  have habort : stageAbort (noted s) = success [] { noted s with boot :=
      { rewrite (fun r => { markSlot x.slot .empty r with pendingSlot := none }) s.boot with session := none, sessionEnded := false } } := by
    simp only [stageAbort, show (noted s).boot = s.boot from rfl, hsession]
  refine ⟨_, exec_stageAbort h.serves, ?_⟩
  rw [habort]
  exact ⟨answered_vendorAnswer rfl rfl h.serves.2.1 0x24 0 _, rfl, newestRecord_rewrite h.newest h.sequence _⟩

/-- The end of a STAGE_SELECT names the slot. -/
theorem selectEnds {x : StageSession} (hsession : s.boot.session = some x) {l : LongOp} (hkind : l.kind = .select) :
    ∃ t, exec .mgmtLongOpDone { s with mgmt := { s.mgmt with long := some l } } = .next t ∧ t.boot.session = none ∧
      newestRecord t.boot = some { r with pendingSlot := some x.slot, sequence := r.sequence + 1 } := by
  refine ⟨_, exec_mgmtLongOpDone rfl, ?_⟩
  rw [boot_mgmtSend, longEnded, hkind]
  simp only [endLong, updMgmt, selectSlot, hsession]
  exact ⟨trivial, newestRecord_rewrite h.newest h.sequence _⟩

/-- The end of an IMAGE_CONFIRM writes the record and burns the fuses. -/
theorem confirmEnds {k : Nat} (htrial : r.trial = true) (hrunning : r.runningSlot = some k) {l : LongOp} (hkind : l.kind = .confirm) :
    let b : State := { s with mgmt := { s.mgmt with long := some l } }
    ∃ t, exec .mgmtLongOpDone b = .next t ∧
      newestRecord t.boot = some { r with activeSlot := k, trial := false, sequence := r.sequence + 1 } ∧ t.mem = s.mem ∧
      t.boot.revoked = (burnFuses (trialSettings b) s.boot).revoked ∧ t.boot.minVersion = (burnFuses (trialSettings b) s.boot).minVersion := by
  intro b
  have hb : recordOf (updMgmt (fun m => { m with long := none }) b) = r := by
    rw [recordOf, show (updMgmt (fun m => { m with long := none }) b).boot = s.boot from rfl, h.newest, Option.getD_some]
  have hended : longEnded l b = { updMgmt (fun m => { m with long := none }) b with
      boot := burnFuses (trialSettings b) (rewrite confirmed s.boot) } := by
    rw [longEnded, hkind]
    simp only [endLong]
    rw [confirmImage, hb, htrial, Bool.not_true, if_neg (by decide)]
    rfl
  refine ⟨_, exec_mgmtLongOpDone rfl, ?_⟩
  rw [boot_mgmtSend, mem_mgmtSend, hended]
  obtain ⟨-, -, -, -, hrevoked, hversion⟩ := writeRecord_rest (confirmed r) s.boot
  rw [← rewrite_of_record h.newest confirmed] at hrevoked hversion
  refine ⟨?_, rfl, ?_, ?_⟩
  · have hnewest := newestRecord_rewrite h.newest h.sequence confirmed
    have hslot : r.runningSlot.getD r.activeSlot = k := by rw [hrunning, Option.getD_some]
    rw [← hslot]
    exact hnewest
  · simp only [burnFuses, hrevoked]
  · simp only [burnFuses, hversion]

end

/-- Settles O57: each command's result on the boot flash, and how it is answered. -/
theorem stagingMovesSlots : Obligations.StagingMovesSlots := by
  refine ⟨fun off data s hserves hended hdata hlength => answered_ended hserves hended hdata hlength, fun r s hserves hnewest hsequence hgoes => ?_⟩
  have h : Staging r s := ⟨hserves, hnewest, hsequence, hgoes⟩
  refine ⟨fun k hk hfree htrial => opens h hk hfree htrial, fun k hk htaken => ?_, fun x off data hsession hslot hdata hlength => ⟨?_, ?_⟩,
    fun x hsession hslot => ⟨?_, ?_, ?_, ?_, aborts h hsession⟩, ?_, fun n hn => ?_,
    fun l => ⟨fun x hkind hsession => selectEnds h hsession hkind, fun k hkind htrial hrunning => confirmEnds h htrial hrunning hkind⟩⟩
  · exact ⟨_, exec_stageOpen hserves k, stageLong_refused hserves (u := noted s) (stageOpen_of_taken h hk htaken) ⟨rfl, rfl⟩ (by decide)⟩
  · exact fun hoff hfits => writes h hsession hdata hlength hoff hfits
  · intro hbad
    have hwrite := stageWrite_of_session h hsession hdata hlength (off := off)
    rw [if_pos hbad] at hwrite
    exact ⟨_, exec_stageWrite hserves off data, stageLong_refused hserves (u := noted s) hwrite ⟨rfl, rfl⟩ (by decide)⟩
  · intro hwrote hnone hended
    obtain ⟨t, hexec, hlater, hrecord, hkept⟩ := verifies h hsession hwrote rfl hnone hended
    refine ⟨t, hexec, hlater, fun hzero => ?_, fun hnonzero => ?_, hkept⟩
    · exact hrecord.trans (by rw [if_pos hzero])
    · exact hrecord.trans (by rw [if_neg hnonzero])
  · intro hwrote
    have hverify := stageVerify_of_session h hsession
    rw [hwrote, Bool.not_false, if_pos rfl] at hverify
    refine ⟨_, exec_stageVerify hserves, ?_⟩
    rw [hverify]
    exact ⟨answered_vendorAnswer rfl rfl hserves.2.1 0x22 0 _, rfl⟩
  · intro hverified
    have hselect := stageSelect_of_session h hsession
    rw [if_pos hverified] at hselect
    have hexec : exec (.stageSelect .port) s = .next (beginVendorLong .select .port 0x23 0 200000 (success [] (noted s))) := by
      rw [exec_stageSelect hserves, hselect]
      rfl
    exact ⟨_, _, hexec, rfl, rfl, rfl, rfl, rfl⟩
  · intro hnot
    have hselect := stageSelect_of_session h hsession
    rw [if_neg hnot] at hselect
    exact ⟨_, exec_stageSelect hserves, stageLong_refused hserves (u := noted s) hselect ⟨rfl, rfl⟩ (by decide)⟩
  · have hexec : exec (.imageConfirm .port) s = .next (beginVendorLong .confirm .port 0x25 0 200000 (success [] (noted s))) := by
      rw [exec_imageConfirm hserves, imageConfirm, inStage_of_open (s := noted s) hgoes]
      rfl
    exact ⟨_, _, hexec, rfl, rfl, rfl, rfl, rfl⟩
  · refine ⟨_, exec_startRecordRead hserves n, ?_⟩
    rw [startRecordRead, if_neg (by omega), show (noted s).boot = s.boot from rfl, hnewest]
    exact ⟨rfl, answered_vendorAnswer rfl rfl hserves.2.1 0x26 0 _⟩

end Sys2Proof.Machine
end

