-- ==== Sys2Proof/Proofs/LinkSetup.lean ====
section
/-!
PROOFS. Ports: what changes of one port leave of the others, link setup, and the end of a start (R76, R83, R364, R367).
-/

namespace Sys2Proof.Machine

/-! ### Ports -/

theorem portOf_updPort (p q : Nat) (f : Port → Port) (s : State) : portOf (updPort p f s) q = if q = p then f (portOf s p) else portOf s q :=
  Table.get_update s.fabric.ports {} q p f

@[simp] theorem portOf_updPort_self (p : Nat) (f : Port → Port) (s : State) : portOf (updPort p f s) p = f (portOf s p) := by
  rw [portOf_updPort, if_pos rfl]

theorem portOf_updPort_ne {p q : Nat} (h : q ≠ p) (f : Port → Port) (s : State) : portOf (updPort p f s) q = portOf s q := by
  rw [portOf_updPort, if_neg h]

@[simp] theorem portOf_notePort (p : Nat) (s : State) : portOf (notePort s) p = portOf s p := rfl

/-- A port but for the frames it has sent. -/
def Port.unsent (q : Port) : Port := { q with sent := 0, lastSent := 0, nonce0 := 0, nonce1 := 0 }

theorem state_of_unsent {q r : Port} (h : q.unsent = r.unsent) : q.state = r.state := (congrArg Port.state h :)
theorem code_of_unsent {q r : Port} (h : q.unsent = r.unsent) : q.code = r.code := (congrArg Port.code h :)

theorem unsent_countFrames (n p q : Nat) (s : State) : (portOf (countFrames n p s) q).unsent = (portOf s q).unsent := by
  rw [countFrames, portOf_updPort]
  split
  · rename_i h
    subst h
    rfl
  · rfl

theorem portOf_countFrames_ne {p q : Nat} (h : q ≠ p) (n : Nat) (s : State) : portOf (countFrames n p s) q = portOf s q :=
  portOf_updPort_ne h _ s

theorem sendMaint_forms (rows : List (List Byte)) (s : State) : ∃ b, sendMaint rows s = { s with err := b } ∨
    ∃ n, sendMaint rows s = countFrames n 71 { s with err := b } := by
  unfold sendMaint
  split
  · exact ⟨_, .inr ⟨_, rfl⟩⟩
  · exact ⟨s.err, .inl rfl⟩

/-- A record changes the error unit, and sends at most frames of port 71 (R452, R473). -/
theorem report_forms (e : ErrRecord) (s : State) : ∃ b, report e s = { s with err := b } ∨
    ∃ n, report e s = countFrames n 71 { s with err := b } := by
  unfold report reportAs
  dsimp only
  split
  · exact ⟨s.err, .inl rfl⟩
  · exact sendMaint_forms _ _

theorem portOf_report_ne {p : Nat} (h : p ≠ 71) (e : ErrRecord) (s : State) : portOf (report e s) p = portOf s p := by
  obtain ⟨b, hform | ⟨n, hform⟩⟩ := report_forms e s
  · rw [hform]; rfl
  · rw [hform, portOf_countFrames_ne h]; rfl

theorem unsent_report (e : ErrRecord) (s : State) (p : Nat) : (portOf (report e s) p).unsent = (portOf s p).unsent := by
  obtain ⟨b, hform | ⟨n, hform⟩⟩ := report_forms e s
  · rw [hform]; rfl
  · rw [hform, unsent_countFrames]; rfl

@[simp] theorem portOf_updFabric {f : FabricBlock → FabricBlock} (hf : ∀ b, (f b).ports = b.ports) (s : State) (p : Nat) :
    portOf (updFabric f s) p = portOf s p := by
  simp only [portOf, updFabric, hf]

theorem portOf_loseSource (p q : Nat) (s : State) : portOf (loseSource p s) q = portOf s q := by
  unfold loseSource
  dsimp only
  split
  · split <;> rfl
  · rfl

/-! ### Link setup (R364, R367) -/

/-- The peer a port found at setup. -/
def metPeer (x : LinkPeer) (q : Port) : Port := { q with peer := x.module, peerPort := x.port, peerGen := x.gen, peerGlobals := x.globals }

theorem linkSetup_of_training {p : Nat} {x : LinkPeer} {c : Settings} {s : State} (hcfg : s.cfg = some c)
    (htraining : (portOf s p).state = .training) : linkSetup p x s =
    if x.systemId = c.systemId ∧ peerExpected s p x then portReady p (updPort p (metPeer x) s) else portDown p 0x7102 false s := by
  rw [linkSetup, if_neg (by rw [htraining]; decide)]
  simp only [hcfg]
  rfl

theorem settleStart_of_running {s : State} (h : s.life.power = .running) : settleStart s = s := by
  simp [settleStart, portsTrain, h]

theorem exec_linkSetup_of_running {p : Nat} {x : LinkPeer} {s t : State} (h : linkSetup p x s = t) (hpower : t.life.power = .running) :
    exec (.linkSetup p x) s = .next t := by
  show execLinkSetup p x s = _
  rw [execLinkSetup, h, settleStart_of_running hpower]

/-- A port that has gone DOWN with a code at a time (R366). -/
def wentDown (code : W16) (now : Nat) (q : Port) : Port :=
  { q with
    state := .down
    code := code
    downs := min (q.downs + 1) 65535
    downSince := now
    attempts := 0
    tagFailTimes := []
    replayFrom := none
    wasUp := q.wasUp || decide (q.state = .up) }

theorem portDown_of_not_up {p : Nat} {s : State} (h : (portOf s p).state ≠ .up) (code : W16) (injected : Bool) :
    portDown p code injected s = loseSource p (report { code := code, source := srcModule s, injected := injected }
      (notePort (updPort p (wentDown code s.now) s))) := by
  have hlost (t : State) : linkLost p (portOf s p) t = t := if_pos (.inl h)
  unfold portDown
  dsimp only
  rw [hlost, if_neg h]
  rfl

theorem life_loseSource (p : Nat) (s : State) : (loseSource p s).life = s.life := by
  unfold loseSource
  dsimp only
  split
  · split <;> rfl
  · rfl

/-- A port that goes DOWN while it was not UP. -/
theorem portDown_fields {p : Nat} {s : State} (h : (portOf s p).state ≠ .up) (code : W16) (injected : Bool) :
    (portOf (portDown p code injected s) p).state = .down ∧ (portOf (portDown p code injected s) p).code = code ∧
      (portDown p code injected s).life = s.life := by
  have hunsent := unsent_report { code := code, source := srcModule s, injected := injected } (notePort (updPort p (wentDown code s.now) s)) p
  rw [portOf_notePort, portOf_updPort_self] at hunsent
  rw [portDown_of_not_up h, portOf_loseSource, life_loseSource, report_life]
  exact ⟨state_of_unsent hunsent, code_of_unsent hunsent, rfl⟩

/-- A port that has come UP under a key epoch at a time, and was not UP before (R366, R367). -/
def cameUp (epoch now : Nat) (q : Port) : Port :=
  { q with
    state := .up, keyEpoch := epoch, lastSent := now, lastReceived := now, sent := 0, taken := 0, replayFrom := none
    code := if q.wasUp then 0x7104 else q.code, wasUp := false }

/-- What the Genpex block notes of the peer of a local port that comes UP (R364, R386). -/
def tookPeer (q : Port) (b : FabricBlock) : FabricBlock :=
  takeRoutes q { b with peers := b.peers.update {} q.peer fun x => { x with portsDown := x.portsDown.filter fun i => i != q.peerPort } }

/-- What a port that comes UP for the first time changes: itself, and what the Genpex block keeps beside its ports. -/
theorem portUp_shape {p : Nat} {s : State} (h : (portOf s p).wasUp = false) (epoch : Nat) :
    ∃ f : FabricBlock → FabricBlock, (∀ b, (f b).ports = b.ports) ∧ portUp p epoch s =
      updFabric f (countFrames (if p < 71 then 1 else 0) p (updPort p (cameUp epoch s.now) (notePort s))) := by
  generalize hup : countFrames (if p < 71 then 1 else 0) p (updPort p (cameUp epoch s.now) (notePort s)) = u
  have hpeers : ∃ f : FabricBlock → FabricBlock, (∀ b, (f b).ports = b.ports) ∧
      (if p < 47 then updFabric (tookPeer (portOf s p)) u else u) = updFabric f u := by
    split
    · exact ⟨tookPeer (portOf s p), fun _ => rfl, rfl⟩
    · exact ⟨id, fun _ => rfl, rfl⟩
  obtain ⟨f, hf, hpeers⟩ := hpeers
  have hportUp : portUp p epoch s = match (updFabric f u).cfg with
      | some c =>
        if c.timeRole = 2 ∧ p < 47 ∧ (updFabric f u).fabric.timeState = .unsync then
          updFabric (fun f => { f with timeState := .acquiring, rootSince := some s.now }) (updFabric f u)
        else updFabric f u
      | none => updFabric f u := by
    rw [← hpeers, ← hup]
    unfold portUp
    simp only [h, Bool.false_eq_true, if_false]
    rfl
  rw [hportUp]
  split
  · split
    · exact ⟨fun b => { f b with timeState := .acquiring, rootSince := some s.now }, hf, rfl⟩
    · exact ⟨f, hf, rfl⟩
  · exact ⟨f, hf, rfl⟩

theorem receivingCord_updPort (p q : Nat) (f : Port → Port) (s : State) : receivingCord (updPort p f s) q = receivingCord s q := rfl
theorem sendingEpoch_updPort (p : Nat) (f : Port → Port) (s : State) (c : Nat) : sendingEpoch (updPort p f s) c = sendingEpoch s c := rfl
theorem hasKey_updPort (p : Nat) (f : Port → Port) (s : State) (c e : Nat) : hasKey (updPort p f s) c e = hasKey s c e := rfl

theorem portReady_of_no_epoch {p : Nat} {s : State} (h : sendingEpoch s (receivingCord s p) = none) :
    portReady p s = updPort p (fun q => { q with state := .keyWait }) (notePort s) := by
  simp only [portReady, h]

theorem portReady_of_key {p e : Nat} {s : State} (h : sendingEpoch s (receivingCord s p) = some e)
    (hkey : hasKey s (receivingCord s p) e = true) : portReady p s = portUp p e s := by
  simp only [portReady, h, hkey, if_true]

/-! ### The end of a start (R76, R83, R87) -/

theorem completeStart_fields (s : State) : (completeStart s).life.power = .running ∧ (completeStart s).life.stage = 0 ∧
    (completeStart s).fabric.ports = s.fabric.ports ∧ (completeStart s).mem = s.mem ∧ (completeStart s).err = s.err ∧
    (completeStart s).rings = s.rings := by
  refine ⟨rfl, rfl, ?_, rfl, rfl, rfl⟩
  unfold completeStart
  dsimp only
  split <;> rfl

theorem mem_cellsMap {α : Type} [DecidableEq α] {d : α} {f : Nat → α → α} {cs : List (Nat × α)} {x : Nat × α} (h : x ∈ cellsMap d f cs) :
    ∃ y ∈ cs, x = (y.1, f y.1 y.2) := by
  induction cs with
  | nil => cases h
  | cons c cs ih =>
    unfold cellsMap at h
    have hrest (h : x ∈ cellsMap d f cs) : ∃ y ∈ c :: cs, x = (y.1, f y.1 y.2) := by
      obtain ⟨y, hy, hx⟩ := ih h
      exact ⟨y, List.mem_cons_of_mem _ hy, hx⟩
    split at h
    · exact hrest (mem_cellsErase h)
    · obtain rfl | h := List.mem_cons.mp h
      · exact ⟨c, List.mem_cons_self .., rfl⟩
      · exact hrest h

/-- The port of PORT_TRAIN_TIMEOUT: one that has not trained is DOWN. -/
def trainedOrDown (now : Nat) (q : Port) : Port :=
  if portSettled q then q
  else { q with state := .down, downSince := now, attempts := 0, downs := if q.state = .training then min (q.downs + 1) 65535 else q.downs }

theorem state_trainedOrDown (now : Nat) (q : Port) : (trainedOrDown now q).state ≠ .training := by
  unfold trainedOrDown
  split
  · rename_i h
    intro heq
    simp [portSettled, heq] at h
  · exact fun h => by cases h

theorem portTrainTimeout_eq (s : State) : portTrainTimeout s =
    completeStart (notePort (updFabric (fun f => { f with ports := f.ports.mapListed {} fun _ => trainedOrDown s.now }) s)) := rfl

/-- Settles O17: setup leads a port to UP, KEY_WAIT or DOWN, and a start ends with `completeStart`. -/
theorem portsComeUp : Obligations.PortsComeUp := by
  refine ⟨fun p x c s hpower hcfg htraining => ⟨fun hsystem hexpected hepoch => ?_, fun e hsystem hexpected hepoch hkey hwas => ?_, fun hbad => ?_⟩,
    fun s htrains => ?_, fun p x s htrains hstate hsettled => ?_⟩
  · have hlink : linkSetup p x s = updPort p (fun q => { q with state := .keyWait }) (notePort (updPort p (metPeer x) s)) := by
      rw [linkSetup_of_training hcfg htraining, if_pos ⟨hsystem, hexpected⟩]
      exact portReady_of_no_epoch (by rw [receivingCord_updPort, sendingEpoch_updPort, hepoch])
    have hruns : (updPort p (fun q => { q with state := .keyWait }) (notePort (updPort p (metPeer x) s))).life.power = .running := by
      simp [notePort, hpower]
    have hexec := exec_linkSetup_of_running hlink hruns
    refine ⟨_, hexec, ?_⟩
    rw [portOf_updPort_self, portOf_notePort, portOf_updPort_self]
    refine ⟨rfl, rfl, rfl, by simp [notePort], fun q hq => ?_, by simp [notePort], by simp [notePort]⟩
    rw [portOf_updPort_ne hq, portOf_notePort, portOf_updPort_ne hq]
  · have hmet : (portOf (updPort p (metPeer x) s) p).wasUp = false := by rw [portOf_updPort_self]; exact hwas
    obtain ⟨f, hports, hup⟩ := portUp_shape hmet e
    have hlink : linkSetup p x s = updFabric f (countFrames (if p < 71 then 1 else 0) p
        (updPort p (cameUp e s.now) (notePort (updPort p (metPeer x) s)))) := by
      rw [linkSetup_of_training hcfg htraining, if_pos ⟨hsystem, hexpected⟩, portReady_of_key (e := e)
        (by rw [receivingCord_updPort, sendingEpoch_updPort, hepoch]) (by rw [receivingCord_updPort, hasKey_updPort, hkey]), hup]
      rfl
    have hruns : (updFabric f (countFrames (if p < 71 then 1 else 0) p
        (updPort p (cameUp e s.now) (notePort (updPort p (metPeer x) s))))).life.power = .running := by
      simp [countFrames, notePort, hpower]
    refine ⟨_, exec_linkSetup_of_running hlink hruns, ?_⟩
    rw [portOf_updFabric hports, countFrames, portOf_updPort_self, portOf_updPort_self, portOf_notePort, portOf_updPort_self]
    refine ⟨rfl, rfl, rfl, Nat.zero_add _, rfl, rfl, by simp [countFrames, notePort], fun q hq => ?_⟩
    rw [portOf_updFabric hports, portOf_updPort_ne hq, portOf_updPort_ne hq, portOf_notePort, portOf_updPort_ne hq]
  · have hnotUp : (portOf s p).state ≠ .up := by rw [htraining]; decide
    obtain ⟨hstate, hcode, hlife⟩ := portDown_fields hnotUp 0x7102 false
    have hlink : linkSetup p x s = portDown p 0x7102 false s := by
      rw [linkSetup_of_training hcfg htraining, if_neg]
      rintro ⟨hsystem, hexpected⟩
      obtain h | h := hbad
      · exact h hsystem
      · rw [h] at hexpected; cases hexpected
    exact ⟨exec_linkSetup_of_running hlink (by rw [hlife]; exact hpower), hstate, hcode⟩
  · refine ⟨_, congrArg Host.Outcome.next (if_pos htrains), ?_⟩
    rw [portTrainTimeout_eq]
    obtain ⟨hpower, hstage, hports, hmem, herr, hrings⟩ := completeStart_fields
      (notePort (updFabric (fun f => { f with ports := f.ports.mapListed {} fun _ => trainedOrDown s.now }) s))
    refine ⟨hpower, hstage, fun x hx => ?_, hmem.trans (by simp [notePort]), herr.trans (by simp [notePort]), hrings.trans (by simp [notePort])⟩
    rw [hports] at hx
    obtain ⟨y, -, rfl⟩ := mem_cellsMap hx
    exact state_trainedOrDown _ _
  · have hlink : linkSetup p x s = s := if_pos hstate
    have hall : (List.range 72).all (fun p => portSettled (portOf s p)) = true :=
      List.all_eq_true.mpr fun q hq => hsettled q (List.mem_range.mp hq)
    refine ⟨?_, rfl⟩
    show execLinkSetup p x s = _
    rw [execLinkSetup, hlink, settleStart, htrains, hall]
    rfl

end Sys2Proof.Machine
end

