-- ==== Sys2Proof/Proofs/TimeAndPeers.lean ====
section
/-!
PROOFS. Control frames of the Genpex links: fabric time and its source (R369–R371), and the notices of other modules (R386, R387).
-/

namespace Sys2Proof.Machine

/-! ### Control frames -/

theorem siteFlit_of_unarmed {s : State} (h : s.err.inj.cells = []) (p : Nat) : siteFlit p s = s := by
  unfold siteFlit
  split
  · rfl
  · simp [fireInjection_of_unarmed h]

/-- A port that has heard a frame. -/
def heardAt (p : Nat) (s : State) : State := updPort p (fun q => { q with lastReceived := s.now }) s

/-- With no injection point armed a control frame is received, and acts. -/
theorem controlFrame_of_unarmed {s : State} (h : s.err.inj.cells = []) (p : Nat) (act : State → State) :
    controlFrame p act s = if isUp s p then act (heardAt p s) else act s := by
  unfold controlFrame
  simp only [siteFlit_of_unarmed h, fireInjection_of_unarmed h, Bool.false_eq_true, if_false]
  cases isUp s p <;> rfl

/-- Only the ports have changed, none in its state. -/
structure PortsMoved (s u : State) : Prop where
  shape : ∃ ps, u = { s with fabric := { s.fabric with ports := ps } }
  state : ∀ p, (portOf u p).state = (portOf s p).state

theorem PortsMoved.refl (s : State) : PortsMoved s s := ⟨⟨s.fabric.ports, rfl⟩, fun _ => rfl⟩

theorem PortsMoved.trans {s u v : State} (hsu : PortsMoved s u) (huv : PortsMoved u v) : PortsMoved s v := by
  obtain ⟨⟨ps, hu⟩, hstate⟩ := hsu
  obtain ⟨⟨qs, hv⟩, hstate'⟩ := huv
  exact ⟨⟨qs, by rw [hv, hu]⟩, fun p => (hstate' p).trans (hstate p)⟩

theorem portsMoved_updPort {p : Nat} {f : Port → Port} {s : State} (hf : (f (portOf s p)).state = (portOf s p).state) :
    PortsMoved s (updPort p f s) := by
  refine ⟨⟨_, rfl⟩, fun q => ?_⟩
  rw [portOf_updPort]
  split
  · rename_i h
    rw [hf, h]
  · rfl

theorem portsMoved_heardAt (p : Nat) (s : State) : PortsMoved s (heardAt p s) := portsMoved_updPort rfl

theorem portsMoved_floodFrames (ps : List Nat) (s : State) : PortsMoved s (floodFrames ps s) :=
  List.foldlRecOn (motive := fun u => PortsMoved s u) _ _ (.refl s) fun _ hu _ _ => hu.trans (portsMoved_updPort rfl)

theorem portsMoved_passNotice (arrival : Nat) (s : State) : PortsMoved s (passNotice arrival s) := by
  unfold passNotice
  split
  · exact portsMoved_floodFrames _ s
  · exact .refl s

theorem isUp_of_portsMoved {s u : State} (h : PortsMoved s u) (p : Nat) : isUp u p = isUp s p := by
  unfold isUp
  rw [h.state p]

theorem anyUp_of_portsMoved {s u : State} (h : PortsMoved s u) : anyUp u = anyUp s := by
  unfold anyUp
  exact List.any_congr rfl fun p => isUp_of_portsMoved h p

/-! ### Fabric time (R369–R371) -/

/-- What a record leaves of the Genpex block: all but its ports. -/
theorem report_fabric_ports (e : ErrRecord) (s : State) : ∃ ps, (report e s).fabric = { s.fabric with ports := ps } := by
  obtain ⟨b, ps, h⟩ := reportAs_shape (classOf e.code) e s
  exact ⟨ps, by rw [report, h]⟩

theorem stepTime_fields (time : Nat) (s : State) : (stepTime time s).fabric.timeState = s.fabric.timeState ∧
    (stepTime time s).fabric.time = time % 2 ^ 64 ∧ (stepTime time s).fabric.slew = 0 ∧ (stepTime time s).fabric.source = s.fabric.source ∧
    (stepTime time s).mem = s.mem := by
  unfold stepTime
  dsimp only
  split
  · obtain ⟨ps, hfabric⟩ := report_fabric_ports { code := 0x7111, source := srcModule _ }
      (updFabric (fun f => { f with time := time % 2 ^ 64, slew := 0 })
        { s with power := { s.power with stepped := s.power.stepped + ((time : Int) - s.fabric.time) } })
    rw [hfabric, report_mem]
    exact ⟨rfl, rfl, rfl, rfl, rfl⟩
  · exact ⟨rfl, rfl, rfl, rfl, rfl⟩

/-- A module that is heard to be no root (R371). -/
def notRoot (m : Nat) (s : State) : State := updFabric (fun f => { f with rootsSeen := f.rootsSeen.filter fun r => r.1 != m }) s

theorem fromSource_congr {s u : State} (hcfg : u.cfg = s.cfg) (hroutes : u.fabric.routes = s.fabric.routes) (c : Settings) (x : TimeExchange) :
    fromSource u c x = fromSource s c x := by
  have hindex : moduleIndex u = moduleIndex s := by simp only [moduleIndex, hcfg]
  have hport (cord : Nat) : rootPort u cord = rootPort s cord := by simp only [rootPort, portEnabled, globalPeer, hcfg]
  have hmate (cord : Nat) : rootMate u cord = rootMate s cord := by simp only [rootMate, hroutes]
  unfold fromSource
  rw [hport, hmate, ownCord, hindex, ← ownCord]

theorem timeExchange_of_heard {x : TimeExchange} {c : Settings} {s : State} (hcfg : s.cfg = some c) (hrole : c.timeRole ≠ 2) (hx : x.role ≠ 2)
    (hup : isUp s x.port = true) (hstate : x.state = .sync ∨ x.state = .holdover) :
    timeExchange x s = if fromSource s c x then followSource x (notRoot x.module s) else notRoot x.module s := by
  have hin : (x.state == TimeState.sync || x.state == TimeState.holdover) = true := by
    obtain h | h := hstate <;> rw [h] <;> decide
  have hnote : noteRoot x s = notRoot x.module s := if_pos hx
  have hsource : fromSource (notRoot x.module s) c x = fromSource s c x := fromSource_congr rfl rfl c x
  unfold timeExchange
  simp only [hup, hin, hcfg, hrole, hx, hnote, hsource, Bool.not_true, Bool.or_self, Bool.false_eq_true, if_false, false_and]

theorem exec_timeExchange {x : TimeExchange} {s : State} (hunarmed : s.err.inj.cells = []) :
    exec (.timeExchange x) s = .next (if isUp s x.port then timeExchange x (heardAt x.port s) else timeExchange x s) := by
  show execTimeExchange x s = _
  have hheard : (heardAt x.port s).err.inj.cells = [] := by simpa [heardAt] using hunarmed
  rw [execTimeExchange, controlFrame_of_unarmed hunarmed]
  simp only [fireInjection_of_unarmed hunarmed, fireInjection_of_unarmed hheard, Bool.false_eq_true, false_and, if_false]

/-- An exchange with the source once the module is synchronised or about to be: it slews (R370). -/
theorem followSource_of_slewing {x : TimeExchange} {s : State} (h : s.fabric.timeState ≠ .unsync) :
    followSource x s = updFabric (fun f => { f with
      timeState := .sync, source := some (x.module, x.port), slew := (x.sourceTime : Int) - s.fabric.time
      offset := ((x.sourceTime : Int) - s.fabric.time) * 10 }) s := by
  unfold followSource
  cases hstate : s.fabric.timeState with
  | unsync => exact absurd hstate h
  | acquiring => rfl
  | sync => rfl
  | holdover => rfl

theorem followSource_of_unsync {x : TimeExchange} {s : State} (h : s.fabric.timeState = .unsync) (htime : x.sourceTime < 2 ^ 64) :
    (followSource x s).fabric.timeState = .acquiring ∧ (followSource x s).fabric.time = x.sourceTime ∧ (followSource x s).fabric.slew = 0 ∧
      (followSource x s).fabric.source = some (x.module, x.port) ∧ (followSource x s).mem = s.mem := by
  have hfollow : followSource x s = stepTime x.sourceTime (takeSource x .acquiring s) := by
    simp only [followSource, h]
  obtain ⟨hstate, hstep, hslew, hsource, hmem⟩ := stepTime_fields x.sourceTime (takeSource x .acquiring s)
  rw [hfollow, hstate, hstep, hslew, hsource, hmem]
  exact ⟨rfl, Nat.mod_eq_of_lt htime, rfl, rfl, rfl⟩

/-- The module without a source (R370, R472). -/
def unsynced (s : State) : State :=
  { s with fabric := { s.fabric with timeState := .unsync, source := none }, scaler := noteUnsync s.scaler }

theorem channelOf_noteUnsync {s : State} {ch : Nat} (h : (channelOf s ch).state = .running) : (channelOf (unsynced s) ch).unsync = true := by
  have hget : channelOf (unsynced s) ch = if (channelOf s ch).state = .running then { channelOf s ch with unsync := true } else channelOf s ch :=
    Table.get_mapListed s.scaler.channels {} _ ch rfl
  rw [hget, if_pos h]

/-! ### Notices (R386, R387) -/

theorem peerOf_setPeer_self (m : Nat) (reach : PeerReach) (gen : Nat) (s : State) :
    (peerOf (setPeer m reach gen s) m).reach = reach ∧ (peerOf (setPeer m reach gen s) m).gen = gen ∧
      (peerOf (setPeer m reach gen s) m).portsDown = (peerOf s m).portsDown := by
  unfold setPeer
  dsimp only
  split
  · rename_i h
    exact ⟨h.1, h.2, rfl⟩
  · simp only [peerOf, Table.get_set_self, and_self]

theorem peerOf_setPeer_ne {m n : Nat} (h : n ≠ m) (reach : PeerReach) (gen : Nat) (s : State) :
    peerOf (setPeer m reach gen s) n = peerOf s n := by
  unfold setPeer
  dsimp only
  split
  · rfl
  · exact Table.get_set_ne _ _ _ h

/-- What a change of a peer leaves. -/
theorem setPeer_rest (m : Nat) (reach : PeerReach) (gen : Nat) (s : State) :
    (setPeer m reach gen s).err = s.err ∧ (setPeer m reach gen s).mem = s.mem ∧ (setPeer m reach gen s).tier = s.tier ∧
      (setPeer m reach gen s).fabric.transfers = s.fabric.transfers ∧ (setPeer m reach gen s).fabric.incoming = s.fabric.incoming := by
  unfold setPeer
  dsimp only
  split <;> exact ⟨rfl, rfl, rfl, rfl, rfl⟩

theorem failRepairsTo_of_none {s : State} (h : s.tier.inProgress = []) (m : Nat) : failRepairsTo m s = s := by
  simp [failRepairsTo, h]

theorem cutOff_of_quiet {s : State} (htransfers : s.fabric.transfers = []) (hincoming : s.fabric.incoming = [])
    (hrepairs : s.tier.inProgress = []) (m : Nat) : cutOff m s = s := by
  have hsame : updFabric (fun f => { f with incoming := f.incoming.filter fun i => i.origin != m }) s = s := by
    show { s with fabric := { s.fabric with incoming := s.fabric.incoming.filter fun i => i.origin != m } } = s
    rw [hincoming, List.filter_nil, ← hincoming]
  simp only [cutOff, failRepairsTo_of_none hrepairs, htransfers, hincoming, List.filter_nil, List.foldl_nil, hsame]

/-- A module found quiet: some port of it is UP, and nothing that another module's loss would end is under way. -/
structure Quiet (s : State) : Prop where
  up : anyUp s = true
  transfers : s.fabric.transfers = []
  incoming : s.fabric.incoming = []
  repairs : s.tier.inProgress = []

theorem Quiet.portsMoved {s u : State} (h : Quiet s) (hmoved : PortsMoved s u) : Quiet u := by
  have hup := anyUp_of_portsMoved hmoved
  obtain ⟨⟨ps, rfl⟩, -⟩ := hmoved
  exact ⟨hup.trans h.up, h.transfers, h.incoming, h.repairs⟩

/-- What a notice of module `m` does to what is kept of the modules, of itself and of the others, and nothing else of note. -/
structure OnlyPeer (m : Nat) (s t : State) : Prop where
  other : ∀ n, n ≠ m → peerOf t n = peerOf s n
  err : t.err = s.err
  mem : t.mem = s.mem

theorem OnlyPeer.of_portsMoved {m : Nat} {s u t : State} (hmoved : PortsMoved s u) (h : OnlyPeer m u t) : OnlyPeer m s t := by
  obtain ⟨⟨ps, rfl⟩, -⟩ := hmoved
  exact ⟨h.other, h.err, h.mem⟩

/-- The state once a module has announced itself with a generation (R386). -/
def announced (m gen : Nat) (s : State) : State :=
  updFabric (fun f => { f with peers := f.peers.update {} m fun x => { x with portsDown := [] } }) (setPeer m .reachable gen s)

theorem announced_fields (m gen : Nat) (s : State) : OnlyPeer m s (announced m gen s) ∧ (peerOf (announced m gen s) m).reach = .reachable ∧
    (peerOf (announced m gen s) m).gen = gen ∧ (peerOf (announced m gen s) m).portsDown = [] := by
  obtain ⟨herr, hmem, -⟩ := setPeer_rest m .reachable gen s
  obtain ⟨hreach, hgen, -⟩ := peerOf_setPeer_self m .reachable gen s
  have hget (n : Nat) : peerOf (announced m gen s) n = if n = m then { peerOf (setPeer m .reachable gen s) m with portsDown := [] } else
      peerOf (setPeer m .reachable gen s) n := Table.get_update ..
  refine ⟨⟨fun n hn => ?_, herr, hmem⟩, ?_⟩
  · rw [hget, if_neg hn, peerOf_setPeer_ne hn]
  · rw [hget, if_pos rfl]
    exact ⟨hreach, hgen, rfl⟩

/-- What was received from a module, and what is still to come, forgotten (R384, R386). -/
def forgotten (m : Nat) (s : State) : State := updFabric (fun f => { f with
  received := f.received.filter fun x => x.1 != m, incoming := f.incoming.filter fun i => i.origin != m }) s

theorem announce_ends_nothing {s : State} (htransfers : s.fabric.transfers = []) (hrepairs : s.tier.inProgress = []) (m gen : Nat) :
    (s.fabric.transfers.filter fun x => x.module == m && x.state != .leaving && x.unit.isNone && x.tag != gen).foldl
      (fun s x => failTransfer x 0x7204 s) (failRepairsTo m s) = s := by
  rw [htransfers, List.filter_nil, List.foldl_nil, failRepairsTo_of_none hrepairs]

theorem selfNotice_of_old {m k : Nat} {s : State} (hold : (peerOf s m).reach = .unreachable ∧ (peerOf s m).gen = k) : selfNotice m k s = s :=
  if_pos (.inr (.inr (.inr hold)))

theorem selfNotice_of_quiet {m k : Nat} {s : State} (hquiet : Quiet s) (hother : m ≠ moduleIndex s) (hin : m < systemModules s)
    (hnew : ¬((peerOf s m).reach = .unreachable ∧ (peerOf s m).gen = k)) : OnlyPeer m s (selfNotice m k s) ∧
      (peerOf (selfNotice m k s) m).reach = .reachable ∧ (peerOf (selfNotice m k s) m).gen = k ∧
      (peerOf (selfNotice m k s) m).portsDown = [] := by
  have hnotice : ¬(m = moduleIndex s ∨ systemModules s ≤ m ∨ (!anyUp s) = true ∨ ((peerOf s m).reach = .unreachable ∧ (peerOf s m).gen = k)) := by
    rw [hquiet.up]
    simp only [Bool.not_true, Bool.false_eq_true, false_or, not_or]
    exact ⟨hother, by omega, hnew⟩
  obtain ⟨-, -, htier, htransfers, -⟩ := setPeer_rest m .reachable k s
  obtain ⟨honly, hfields⟩ := announced_fields m k s
  have hforgets := announce_ends_nothing (s := forgotten m (announced m k s)) (htransfers.trans hquiet.transfers)
    ((congrArg TierBlock.inProgress htier).trans hquiet.repairs) m k
  have hself : selfNotice m k s = announced m k s ∨ selfNotice m k s = forgotten m (announced m k s) := by
    unfold selfNotice
    rw [if_neg hnotice]
    dsimp only
    split
    · exact .inl rfl
    · exact .inr hforgets
  obtain h | h := hself
  · rw [h]
    exact ⟨honly, hfields⟩
  · rw [h]
    exact ⟨⟨honly.other, honly.err, honly.mem⟩, hfields⟩

/-- The ports of a module known to be DOWN once one more is (R386). -/
def portsDownWith (k : Nat) (q : Peer) : List Nat := if q.portsDown.contains k then q.portsDown else k :: q.portsDown

/-- A link of a module noted as DOWN. -/
def linkNoted (m k : Nat) (s : State) : State :=
  updFabric (fun f => { f with peers := f.peers.set {} m { peerOf s m with portsDown := portsDownWith k (peerOf s m) } }) s

theorem noteLinkDown_eq (m k : Nat) (s : State) : noteLinkDown m k s =
    if enabledLinks s < 2 * ((portsDownWith k (peerOf s m)).filter fun p => decide (p < 47)).length then markUnreachable m (linkNoted m k s)
    else linkNoted m k s := rfl

theorem linkNoted_fields (m k : Nat) (s : State) : OnlyPeer m s (linkNoted m k s) ∧
    peerOf (linkNoted m k s) m = { peerOf s m with portsDown := portsDownWith k (peerOf s m) } :=
  ⟨⟨fun _ hn => Table.get_set_ne _ _ _ hn, rfl, rfl⟩, Table.get_set_self ..⟩

theorem markUnreachable_of_quiet {m : Nat} {s : State} (hquiet : Quiet s) : OnlyPeer m s (markUnreachable m s) ∧
    (peerOf (markUnreachable m s) m).reach = .unreachable ∧ (peerOf (markUnreachable m s) m).gen = (peerOf s m).gen := by
  unfold markUnreachable
  split
  · rename_i hreach
    exact ⟨⟨fun _ _ => rfl, rfl, rfl⟩, hreach, rfl⟩
  · obtain ⟨herr, hmem, htier, htransfers, hincoming⟩ := setPeer_rest m .unreachable (peerOf s m).gen s
    obtain ⟨hreach, hgen, -⟩ := peerOf_setPeer_self m .unreachable (peerOf s m).gen s
    rw [cutOff_of_quiet (s := updFabric (fun f => { f with rootsSeen := f.rootsSeen.filter fun x => x.1 != m })
      (setPeer m .unreachable (peerOf s m).gen s)) (htransfers.trans hquiet.transfers) (hincoming.trans hquiet.incoming)
      ((congrArg TierBlock.inProgress htier).trans hquiet.repairs)]
    exact ⟨⟨fun n hn => peerOf_setPeer_ne hn _ _ s, herr, hmem⟩, hreach, hgen⟩

theorem noteLinkDown_of_quiet {m k : Nat} {s : State} (hquiet : Quiet s) :
    OnlyPeer m s (noteLinkDown m k s) ∧
      (2 * ((portsDownWith k (peerOf s m)).filter fun p => decide (p < 47)).length ≤ enabledLinks s →
        (peerOf (noteLinkDown m k s) m).portsDown = portsDownWith k (peerOf s m) ∧
        (peerOf (noteLinkDown m k s) m).reach = (peerOf s m).reach) ∧
      (enabledLinks s < 2 * ((portsDownWith k (peerOf s m)).filter fun p => decide (p < 47)).length →
        (peerOf (noteLinkDown m k s) m).reach = .unreachable ∧ (peerOf (noteLinkDown m k s) m).gen = (peerOf s m).gen) := by
  obtain ⟨honly, hnoted⟩ := linkNoted_fields m k s
  rw [noteLinkDown_eq]
  split
  · rename_i hmany
    obtain ⟨honly', hreach, hgen⟩ := markUnreachable_of_quiet (m := m) (s := linkNoted m k s)
      ⟨hquiet.up, hquiet.transfers, hquiet.incoming, hquiet.repairs⟩
    refine ⟨⟨fun n hn => (honly'.other n hn).trans (honly.other n hn), honly'.err.trans honly.err, honly'.mem.trans honly.mem⟩,
      fun hfew => absurd hfew (by omega), fun _ => ⟨hreach, ?_⟩⟩
    rw [hgen, hnoted]
  · rename_i hfew
    refine ⟨honly, fun _ => ?_, fun hmany => absurd hmany hfew⟩
    rw [hnoted]
    exact ⟨rfl, rfl⟩

/-- A notice of another module acts on the state in which its frame has been heard and passed on. -/
theorem exec_selfNotice {m k arrival : Nat} {s : State} (hunarmed : s.err.inj.cells = []) (hup : anyUp s = true) (hother : m ≠ moduleIndex s)
    (hin : m < systemModules s) : ∃ u, PortsMoved s u ∧ exec (.selfNotice m k arrival) s = .next (selfNotice m k u) := by
  have hnotice : ¬(m = moduleIndex s ∨ systemModules s ≤ m ∨ (!anyUp s) = true) := by
    rw [hup]
    simp only [Bool.not_true, Bool.false_eq_true, or_false, not_or]
    exact ⟨hother, by omega⟩
  have hexec : exec (.selfNotice m k arrival) s =
      .next (if isUp s arrival then selfNotice m k (passNotice arrival (heardAt arrival s)) else selfNotice m k (passNotice arrival s)) := by
    show execSelfNotice m k arrival s = _
    rw [execSelfNotice, if_neg hnotice, controlFrame_of_unarmed hunarmed]
  rw [hexec]
  split
  · exact ⟨_, (portsMoved_heardAt arrival s).trans (portsMoved_passNotice arrival _), rfl⟩
  · exact ⟨_, portsMoved_passNotice arrival s, rfl⟩

theorem exec_linkNotice {m k arrival : Nat} {s : State} (hunarmed : s.err.inj.cells = []) (hup : anyUp s = true) (hother : m ≠ moduleIndex s)
    (hin : m < systemModules s) : ∃ u, PortsMoved s u ∧ exec (.linkNotice m k arrival) s = .next (noteLinkDown m k u) := by
  have hnotice : ¬(m = moduleIndex s ∨ systemModules s ≤ m ∨ (!anyUp s) = true) := by
    rw [hup]
    simp only [Bool.not_true, Bool.false_eq_true, or_false, not_or]
    exact ⟨hother, by omega⟩
  have hexec : exec (.linkNotice m k arrival) s =
      .next (if isUp s arrival then noteLinkDown m k (passNotice arrival (heardAt arrival s)) else noteLinkDown m k (passNotice arrival s)) := by
    show execLinkNotice m k arrival s = _
    rw [execLinkNotice, if_neg hnotice, controlFrame_of_unarmed hunarmed]
  rw [hexec]
  split
  · exact ⟨_, (portsMoved_heardAt arrival s).trans (portsMoved_passNotice arrival _), rfl⟩
  · exact ⟨_, portsMoved_passNotice arrival s, rfl⟩

/-- Settles O19: control frames act on what is kept of the source and of the modules. -/
theorem timeAndPeersAreKept : Obligations.TimeAndPeersAreKept := by
  refine ⟨⟨fun x c s hunarmed hcfg hrole hx => ?_, fun s hholdover hbounded hroom => ?_, fun c s hcfg hrole hacquiring => ?_⟩,
    fun m k arrival s hother hin hup htransfers hincoming hrepairs hunarmed => ⟨?_, ?_⟩⟩
  · have hexec := exec_timeExchange (x := x) hunarmed
    refine ⟨fun hdown => ?_, fun hup hstate => ?_⟩
    · have hnot : isUp s x.port = false := decide_eq_false hdown
      have hstays : timeExchange x s = s := if_pos (by rw [hnot]; rfl)
      rw [hexec, hnot, hstays]
      rfl
    · have hisUp : isUp s x.port = true := decide_eq_true hup
      have hheard : isUp (heardAt x.port s) x.port = true := (isUp_of_portsMoved (portsMoved_heardAt ..) _).trans hisUp
      have hfrom : fromSource (heardAt x.port s) c x = fromSource s c x := fromSource_congr rfl rfl c x
      have hexchange := timeExchange_of_heard (s := heardAt x.port s) hcfg hrole hx hheard hstate
      rw [hfrom] at hexchange
      rw [if_pos hisUp, hexchange] at hexec
      refine ⟨fun hsource htime => ⟨fun hunsync => ?_, fun hsync => ?_⟩, fun hno => ?_⟩
      · obtain ⟨hacquiring, htook, hslew, hnoted, hmem⟩ := followSource_of_unsync (x := x) (s := notRoot x.module (heardAt x.port s)) hunsync htime
        rw [hsource] at hexec
        exact ⟨_, hexec, hacquiring, htook, hslew, hnoted, hmem⟩
      · rw [hexec, hsource, if_pos rfl, followSource_of_slewing (s := notRoot x.module (heardAt x.port s)) hsync]
        rfl
      · rw [hexec, hno]
        rfl
  · obtain ⟨ps, hfabric⟩ := report_fabric_ports { code := 0x7112, source := srcModule s } (unsynced s)
    obtain ⟨hcode, -⟩ := report_module_fields (s := unsynced s) (e := { code := 0x7112, source := srcModule s }) rfl hroom
      fun h => absurd (show classOf 0x7112 = .corrected from h) (by decide)
    refine ⟨report { code := 0x7112, source := srcModule s } (unsynced s), congrArg Host.Outcome.next (if_pos hholdover), ?_⟩
    rw [hfabric, report_mem]
    refine ⟨rfl, rfl, rfl, hcode, fun p hp => portOf_report_ne hp _ _, rfl, fun ch hch => ?_⟩
    rw [channelOf, report_scaler, ← channelOf]
    exact channelOf_noteUnsync hch
  · show execRootSyncTimeout s = _
    unfold execRootSyncTimeout
    split
    · rename_i c' hcfg'
      obtain rfl : c = c' := Option.some.inj (hcfg.symm.trans hcfg')
      exact congrArg Host.Outcome.next (if_pos ⟨hrole, hacquiring⟩)
    · rename_i hnone
      rw [hcfg] at hnone
      cases hnone
  · obtain ⟨u, hmoved, hexec⟩ := exec_selfNotice (k := k) (arrival := arrival) hunarmed hup hother hin
    have hquiet : Quiet u := Quiet.portsMoved ⟨hup, htransfers, hincoming, hrepairs⟩ hmoved
    have hpeer (n : Nat) : peerOf u n = peerOf s n := by obtain ⟨⟨ps, rfl⟩, -⟩ := hmoved; rfl
    have hother' : m ≠ moduleIndex u := by obtain ⟨⟨ps, rfl⟩, -⟩ := hmoved; exact hother
    have hin' : m < systemModules u := by obtain ⟨⟨ps, rfl⟩, -⟩ := hmoved; exact hin
    refine ⟨_, hexec, ?_⟩
    by_cases hold : (peerOf s m).reach = .unreachable ∧ (peerOf s m).gen = k
    · rw [if_pos hold, selfNotice_of_old (by rw [hpeer]; exact hold)]
      have honly : OnlyPeer m s u := .of_portsMoved hmoved ⟨fun _ _ => rfl, rfl, rfl⟩
      exact ⟨hpeer m, honly.other, honly.err, honly.mem⟩
    · obtain ⟨honly, hfields⟩ := selfNotice_of_quiet hquiet hother' hin' (k := k) (by rw [hpeer]; exact hold)
      have honly' := OnlyPeer.of_portsMoved hmoved honly
      rw [if_neg hold]
      exact ⟨hfields, honly'.other, honly'.err, honly'.mem⟩
  · obtain ⟨u, hmoved, hexec⟩ := exec_linkNotice (k := k) (arrival := arrival) hunarmed hup hother hin
    have hquiet : Quiet u := Quiet.portsMoved ⟨hup, htransfers, hincoming, hrepairs⟩ hmoved
    have hpeer : peerOf u m = peerOf s m := by obtain ⟨⟨ps, rfl⟩, -⟩ := hmoved; rfl
    have hlinks : enabledLinks u = enabledLinks s := by obtain ⟨⟨ps, rfl⟩, -⟩ := hmoved; rfl
    obtain ⟨honly, hfew, hmany⟩ := noteLinkDown_of_quiet (m := m) (k := k) hquiet
    rw [hpeer, hlinks] at hfew hmany
    have honly' := OnlyPeer.of_portsMoved hmoved honly
    exact ⟨_, hexec, honly'.other, hfew, hmany, honly'.err, honly'.mem⟩

end Sys2Proof.Machine
end

