-- ==== Sys2Proof/Proofs/CrossingRead.lean ====
section
/-!
PROOFS. Proofs/CrossingRead.lean: a remote read whose range begins in the bulk tier and ends in the flash tier; its last byte comes
from the loader the module shipped with (R430), not from what memory lists.
-/

namespace Sys2Proof.Machine

/-! ### Ranges and the last byte of a read -/

theorem memRead_succ (m : Memory) (a n : Nat) : memRead m a (n + 1) = memRead m a n ++ [memGet m (a + n)] := by
  induction n generalizing a with
  | zero => rfl
  | succ n ih =>
    calc memRead m a (n + 1 + 1) = memGet m a :: memRead m (a + 1) (n + 1) := rfl
      _ = memGet m a :: (memRead m (a + 1) n ++ [memGet m (a + 1 + n)]) := by rw [ih]
      _ = memRead m a (n + 1) ++ [memGet m (a + (n + 1))] := by rw [Nat.add_right_comm, Nat.add_assoc]; rfl

theorem firstSome_eq_none {α β : Type} {f : α → Option β} (l : List α) (h : ∀ x ∈ l, f x = none) : firstSome f l = none := by
  induction l with
  | nil => rfl
  | cons a as ih => simp only [firstSome, h a List.mem_cons_self]; exact ih fun x hx => h x (List.mem_cons_of_mem _ hx)

/-! ### The read -/

/-- A running port 0, and window 0 over the bulk tier and what follows it, of context 1, open for reads. -/
def crossingModule : State :=
  { State.reset with fabric := { State.reset.fabric with
      ports := { cells := [(0, { state := .up })] }
      windows := { cells := [(0, { base := bulkBase, units := 0x1F0000001, enable := true, read := true, context := 1 })] } } }

/-- A read of all from the bulk tier's first byte to the flash tier's. -/
def crossingAccess : RemoteAccess := { size := 0x1F0000000000 + 1 }

theorem stakeAt_crossing (pa : Nat) : stakeAt crossingModule pa = {} := rfl

theorem stakeKey_crossing (pa : Nat) : stakeKey crossingModule pa = .plain := by simp [stakeKey, stakeAt_crossing]

theorem stakeRefusalIn_crossing (write : Bool) (pa n : Nat) :
    stakeRefusalIn crossingModule { agent := .portDie false, context := 1 } write pa n = none :=
  firstSome_eq_none _ fun i _ => by simp [stakeRefusal, stakeAt_crossing, stakeServes]

theorem poisonIn_crossing (pa n : Nat) : poisonIn crossingModule pa n = false := by
  have hflash : ∀ u, crossingModule.tier.flashPoison.get false u = false := fun _ => rfl
  have hpoison : ∀ c, crossingModule.tier.poison.get false c = false := fun _ => rfl
  unfold poisonIn
  split <;> simp [hflash, hpoison]

theorem windowOf_crossing :
    windowOf crossingModule 0 = { base := bulkBase, units := 0x1F0000001, enable := true, read := true, context := 1 } := rfl

theorem windowRefusal_crossing : windowRefusal crossingModule 0 .read 0 0 0 crossingAccess.size false = none := by
  have hgen : moduleGen crossingModule = 0 := by decide
  have hroom : ¬ ((0 : Nat) = 255 ∨ 0x1F0000001 * 65536 < 0 + crossingAccess.size) := by decide
  unfold windowRefusal
  rw [hgen, windowOf_crossing, if_neg (by decide), if_neg (by decide), if_neg (by decide), if_neg hroom]
  exact stakeRefusalIn_crossing _ _ _

theorem servesRead_crossing (n : Nat) : ServesRead { agent := .portDie false, context := 1 } bulkBase n crossingModule := by
  refine ⟨.inr (by decide), rfl, rfl, ?_, poisonIn_crossing _ _, rfl⟩
  have hkey : keyGone crossingModule bulkBase n = false := List.any_eq_false.2 fun p _ => by simp [stakeKey_crossing]
  simp [accessRefusal, needsFenced, Agent.engine, stakeRefusalIn_crossing, hkey]

theorem coreLoadSealed_crossing (pa n : Nat) : coreLoadSealed crossingModule pa n = false := by
  have hany : ((blocksOf stakeSize pa n).any fun b => (stakeAt crossingModule (b * stakeSize)).sealed) = false :=
    List.any_eq_false.2 fun b _ => by simp [stakeAt_crossing]
  simp [coreLoadSealed, hany]

theorem piecesOf_of_blocksOf {b pa n k : Nat} {ks : List Nat} (h : blocksOf b pa n = ks ++ [k]) :
    ∃ ps, piecesOf b pa n = ps ++ [(max pa (k * b), min (pa + n) (k * b + b) - max pa (k * b))] :=
  ⟨_, by rw [piecesOf, h, List.map_append]; rfl⟩

/-- The last piece of the range is the flash tier's first byte. -/
theorem piecesOf_crossing : ∃ ps, piecesOf stakeSize bulkBase crossingAccess.size = ps ++ [(flashBase, 1)] := by
  have hblocks : blocksOf stakeSize bulkBase crossingAccess.size = (List.range 0xF80000).map (· + 0x80000) ++ [0x1000000] := by
    have hcount : (bulkBase + crossingAccess.size - 1) / stakeSize + 1 - bulkBase / stakeSize = 0xF80000 + 1 := by decide
    have hfirst : bulkBase / stakeSize = 0x80000 := by decide
    rw [blocksOf, if_neg (by decide), hcount, hfirst, List.range_succ, List.map_append]
    rfl
  have hpiece : (max bulkBase (0x1000000 * stakeSize), min (bulkBase + crossingAccess.size) (0x1000000 * stakeSize + stakeSize)
      - max bulkBase (0x1000000 * stakeSize)) = (flashBase, 1) := by decide
  rw [← hpiece]
  exact piecesOf_of_blocksOf hblocks

theorem flashByte_crossing : homeBytes crossingModule .plain flashBase 1 = [0x51#8] := by
  decide

theorem memGet_crossing (a : Nat) : memGet crossingModule.mem a = 0#8 := rfl

theorem plainRead_crossing : plainRead crossingModule bulkBase crossingAccess.size ≠ memRead crossingModule.mem bulkBase crossingAccess.size := by
  obtain ⟨ps, hps⟩ := piecesOf_crossing
  intro h
  have hsize : crossingAccess.size = 0x1F0000000000 + 1 := rfl
  rw [plainRead, hps, List.flatMap_append, hsize, memRead_succ] at h
  have hlast := (List.append_inj' h (by simp [stakeKey_crossing, flashByte_crossing])).2
  simp [stakeKey_crossing, flashByte_crossing, memGet_crossing] at hlast

/-- Refutes O22: no bound keeps the range of a remote read in one tier. Window 0 spans the bulk tier and what follows it, and a read from
the bulk tier's first byte to the flash tier's ends in a byte of the loader the module shipped with, which memory does not list. -/
theorem not_remoteAccesses : ¬ Obligations.RemoteAccesses := by
  unfold Obligations.RemoteAccesses
  rintro ⟨hreads, -⟩
  have hread := hreads crossingAccess crossingModule (by decide) windowRefusal_crossing
  obtain ⟨-, hplain⟩ := hread.2 (coreLoadSealed_crossing _ _) (servesRead_crossing _)
  exact plainRead_crossing (hplain fun p _ => stakeKey_crossing p.1)

end Sys2Proof.Machine
end

