-- ==== Sys2Proof/Proofs/MemoryPath.lean ====
section
/-!
PROOFS. Proofs/MemoryPath.lean: what a served read or write of the near or bulk tier does (R261, R303, R321): a read returns the bytes
there and changes nothing; a write puts its bytes in their place, whole or granule by granule, and leaves all but the stores alone.
-/

namespace Sys2Proof.Machine

/-! ### Ranges cut at block boundaries -/

theorem memWrite_append (m : Memory) (a : Nat) (xs ys : List Byte) :
    memWrite m a (xs ++ ys) = memWrite (memWrite m a xs) (a + xs.length) ys := by
  induction xs generalizing m a with
  | nil => rfl
  | cons x xs ih =>
    rw [List.cons_append, memWrite, ih, memWrite, List.length_cons, Nat.add_assoc, Nat.add_comm 1]

theorem memRead_append (m : Memory) (a n k : Nat) : memRead m a (n + k) = memRead m a n ++ memRead m (a + n) k := by
  induction k with
  | zero => simp [memRead]
  | succ k ih => rw [← Nat.add_assoc, memRead_succ, ih, memRead_succ, List.append_assoc, Nat.add_assoc]

theorem memRead_congr {m m' : Memory} {a n : Nat} (h : ∀ c, a ≤ c → c < a + n → memGet m c = memGet m' c) :
    memRead m a n = memRead m' a n := by
  induction n with
  | zero => rfl
  | succ n ih =>
    rw [memRead_succ, memRead_succ, ih fun c hc hn => h c hc (by omega), h (a + n) (by omega) (by omega)]

@[simp] theorem length_memRead (m : Memory) (a n : Nat) : (memRead m a n).length = n := by
  induction n generalizing a with
  | zero => rfl
  | succ n ih => rw [memRead, List.length_cons, ih]

/-- The first `j` blocks that a range meets reach to here within it. -/
def cutAt (b pa n j : Nat) : Nat := min (pa + n) ((pa / b + j) * b) - pa

theorem cutAt_zero (b pa n : Nat) : cutAt b pa n 0 = 0 := by
  have h : pa / b * b ≤ pa := Nat.div_mul_le_self ..
  simp only [cutAt, Nat.add_zero]
  omega

theorem cutAt_le (b pa n j : Nat) : cutAt b pa n j ≤ n := by simp only [cutAt]; omega

theorem cutAt_all {b pa n : Nat} (hb : 0 < b) (hn : n ≠ 0) : cutAt b pa n ((pa + n - 1) / b + 1 - pa / b) = n := by
  have hle : pa / b ≤ (pa + n - 1) / b := Nat.div_le_div_right (by omega)
  have hend : pa + n - 1 < ((pa + n - 1) / b + 1) * b := by
    rw [Nat.add_mul, Nat.one_mul]; exact Nat.lt_div_mul_add hb
  have hsum : pa / b + ((pa + n - 1) / b + 1 - pa / b) = (pa + n - 1) / b + 1 := by omega
  rw [cutAt, hsum]
  omega

/-- The block `j` of a range, as the piece of it that the range has. -/
theorem piece_at {b pa n j : Nat} (hb : 0 < b) (hj : j < (pa + n - 1) / b + 1 - pa / b) :
    max pa ((j + pa / b) * b) = pa + cutAt b pa n j ∧
      cutAt b pa n j + (min (pa + n) ((j + pa / b) * b + b) - max pa ((j + pa / b) * b)) = cutAt b pa n (j + 1) := by
  have hlow : (pa / b + j) * b ≤ pa + n - 1 := by
    have : pa / b + j ≤ (pa + n - 1) / b := by omega
    exact le_trans (Nat.mul_le_mul_right b this) (Nat.div_mul_le_self ..)
  have hhigh : pa < (pa / b + (j + 1)) * b := by
    have h0 : pa < pa / b * b + b := Nat.lt_div_mul_add hb
    have h1 : (pa / b + 1) * b ≤ (pa / b + (j + 1)) * b := Nat.mul_le_mul_right b (by omega)
    rw [Nat.add_mul, Nat.one_mul] at h1
    omega
  have hnext : (pa / b + (j + 1)) * b = (pa / b + j) * b + b := by rw [← Nat.add_assoc, Nat.add_mul _ 1, Nat.one_mul]
  have hcomm : j + pa / b = pa / b + j := Nat.add_comm ..
  simp only [cutAt, hcomm, hnext] at *
  omega

/-- A fact about the pieces of a range, by the blocks it meets from the first on: what holds of nothing, and goes on by each piece, holds of
the whole range. -/
theorem foldl_pieces {α : Type} {b pa n : Nat} (hb : 0 < b) (f : α → Nat × Nat → α) (P : Nat → α → Prop) {x : α} (h0 : P 0 x)
    (hstep : ∀ k l x, k + l ≤ n → (pa + k, l) ∈ piecesOf b pa n → P k x → P (k + l) (f x (pa + k, l))) :
    P n ((piecesOf b pa n).foldl f x) := by
  by_cases hn : n = 0
  · subst hn; simpa [piecesOf, blocksOf] using h0
  · have hall : ∀ j, j ≤ (pa + n - 1) / b + 1 - pa / b → P (cutAt b pa n j) ((((List.range j).map (· + pa / b)).map fun k =>
        (max pa (k * b), min (pa + n) (k * b + b) - max pa (k * b))).foldl f x) := by
      intro j hj
      induction j with
      | zero => simpa [cutAt_zero] using h0
      | succ j ih =>
        obtain ⟨hlow, hlen⟩ := piece_at hb (Nat.lt_of_succ_le hj)
        rw [List.range_succ, List.map_append, List.map_append, List.foldl_append]
        simp only [List.map_cons, List.map_nil, List.foldl_cons, List.foldl_nil]
        have hmem : (max pa ((j + pa / b) * b), min (pa + n) ((j + pa / b) * b + b) - max pa ((j + pa / b) * b)) ∈ piecesOf b pa n := by
          simp only [piecesOf, blocksOf, if_neg hn, List.mem_map, List.mem_range]
          exact ⟨_, ⟨j, by omega, rfl⟩, rfl⟩
        rw [hlow] at hlen hmem ⊢
        rw [← hlen]
        exact hstep _ _ _ (hlen ▸ cutAt_le ..) hmem (ih (by omega))
    have hwhole := hall _ le_rfl
    rw [cutAt_all hb hn] at hwhole
    rwa [piecesOf, blocksOf, if_neg hn]

theorem flatMap_pieces {α : Type} {b pa n : Nat} (hb : 0 < b) (f : Nat × Nat → List α) (P : Nat → List α → Prop) (h0 : P 0 [])
    (hstep : ∀ k l x, k + l ≤ n → (pa + k, l) ∈ piecesOf b pa n → P k x → P (k + l) (x ++ f (pa + k, l))) :
    P n ((piecesOf b pa n).flatMap f) := by
  have hfold : ∀ (ps : List (Nat × Nat)) (x : List α), ps.foldl (fun x p => x ++ f p) x = x ++ ps.flatMap f := by
    intro ps
    induction ps with
    | nil => simp
    | cons p ps ih => intro x; rw [List.foldl_cons, ih, List.flatMap_cons, List.append_assoc]
  have h := foldl_pieces (x := ([] : List α)) hb (fun x p => x ++ f p) P h0 hstep
  rwa [hfold, List.nil_append] at h

theorem sliceBytes_of_le {bs : List Byte} {off n : Nat} (h : off + n ≤ bs.length) : sliceBytes bs off n = (bs.drop off).take n := by
  have hlen : ((bs.drop off).take n).length = n := by simp; omega
  simp [sliceBytes, hlen]

/-- A piece of a range that a block holds is one piece. -/
theorem piecesOf_of_within {b pa n : Nat} (hb : 0 < b) (hn : n ≠ 0) (h : pa / b = (pa + n - 1) / b) : piecesOf b pa n = [(pa, n)] := by
  have h0 : pa / b * b ≤ pa := Nat.div_mul_le_self ..
  have h1 : pa + n - 1 < (pa + n - 1) / b * b + b := Nat.lt_div_mul_add hb
  rw [← h] at h1
  have hone : (pa + n - 1) / b + 1 - pa / b = 1 := by omega
  simp only [piecesOf, blocksOf, if_neg hn, hone, List.range_one, List.map_cons, List.map_nil, Nat.zero_add, List.cons.injEq, and_true,
    Prod.mk.injEq]
  omega

theorem within_of_mem_piecesOf {b pa n : Nat} {p : Nat × Nat} (hb : 0 < b) (h : p ∈ piecesOf b pa n) :
    p.2 ≠ 0 ∧ p.1 / b = (p.1 + p.2 - 1) / b ∧ pa ≤ p.1 ∧ p.1 + p.2 ≤ pa + n := by
  by_cases hn : n = 0
  · subst hn; simp [piecesOf, blocksOf] at h
  simp only [piecesOf, blocksOf, if_neg hn, List.mem_map, List.mem_range] at h
  obtain ⟨_, ⟨j, hj, rfl⟩, rfl⟩ := h
  have hlow : (j + pa / b) * b ≤ pa + n - 1 := by
    have : j + pa / b ≤ (pa + n - 1) / b := by omega
    exact le_trans (Nat.mul_le_mul_right b this) (Nat.div_mul_le_self ..)
  have hhigh : pa < (j + pa / b) * b + b := by
    have h0 : pa < pa / b * b + b := Nat.lt_div_mul_add hb
    have h1 : pa / b * b ≤ (j + pa / b) * b := Nat.mul_le_mul_right b (by omega)
    omega
  generalize hc : j + pa / b = c at *
  have hdiv : ∀ x, c * b ≤ x → x < c * b + b → x / b = c := by
    intro x h1 h2
    exact Nat.div_eq_of_lt_le h1 (by rw [Nat.add_mul, Nat.one_mul]; exact h2)
  refine ⟨?_, ?_, ?_, ?_⟩
  · show min (pa + n) (c * b + b) - max pa (c * b) ≠ 0
    omega
  · show max pa (c * b) / b = (max pa (c * b) + (min (pa + n) (c * b + b) - max pa (c * b)) - 1) / b
    rw [hdiv _ (by omega) (by omega), hdiv _ (by omega) (by omega)]
  · show pa ≤ max pa (c * b)
    omega
  · show max pa (c * b) + (min (pa + n) (c * b + b) - max pa (c * b)) ≤ pa + n
    omega

/-! ### What a write may change besides memory -/

/-- All of a state but what a write to a tier may touch: memory, operand cache lines, poison, and the harts and system cache. -/
def State.beyondStores (s : State) : State :=
  { s with mem := {}, opLines := [], tier := { s.tier with poison := {} }
           landing := { s.landing with harts := {}, systemCache := [] } }

/-- What writes to the tiers leave of a state: no location is poisoned by them, and a hart loses at most its reservation (R278, R327). -/
structure MemMoved (s t : State) : Prop where
  beyond : t.beyondStores = s.beyondStores
  poison : ∀ c, t.tier.poison.get false c = true → s.tier.poison.get false c = true
  harts : ∀ h, { hartOf t h with reservation := none } = { hartOf s h with reservation := none }

theorem MemMoved.refl (s : State) : MemMoved s s := ⟨rfl, fun _ h => h, fun _ => rfl⟩

theorem MemMoved.trans {s t u : State} (h : MemMoved s t) (h' : MemMoved t u) : MemMoved s u :=
  ⟨h'.beyond.trans h.beyond, fun c hc => h.poison c (h'.poison c hc), fun k => (h'.harts k).trans (h.harts k)⟩

theorem MemMoved.foldl {α : Type} {f : State → α → State} {s t : State} (l : List α) (hf : ∀ a ∈ l, ∀ u, MemMoved s u → MemMoved s (f u a))
    (h : MemMoved s t) : MemMoved s (l.foldl f t) := by
  induction l generalizing t with
  | nil => exact h
  | cons a l ih => exact ih (fun a ha => hf a (List.mem_cons_of_mem _ ha)) (hf a List.mem_cons_self t h)

section
variable {s t : State} (h : MemMoved s t)
include h

theorem MemMoved.now : t.now = s.now := (congrArg State.now h.beyond :)
theorem MemMoved.err : t.err = s.err := (congrArg State.err h.beyond :)
theorem MemMoved.stakes : t.stakes = s.stakes := (congrArg State.stakes h.beyond :)
theorem MemMoved.tasks : t.tasks = s.tasks := (congrArg State.tasks h.beyond :)
theorem MemMoved.fabric : t.fabric = s.fabric := (congrArg State.fabric h.beyond :)
theorem MemMoved.scratch : t.scratch = s.scratch := (congrArg State.scratch h.beyond :)
theorem MemMoved.rings : t.rings = s.rings := (congrArg State.rings h.beyond :)
theorem MemMoved.decks : t.decks = s.decks := (congrArg State.decks h.beyond :)
theorem MemMoved.benches : t.benches = s.benches := (congrArg State.benches h.beyond :)
theorem MemMoved.power : t.power = s.power := (congrArg State.power h.beyond :)
theorem MemMoved.cfg : t.cfg = s.cfg := (congrArg State.cfg h.beyond :)
theorem MemMoved.life : t.life = s.life := (congrArg State.life h.beyond :)
theorem MemMoved.part : t.part = s.part := (congrArg State.part h.beyond :)
theorem MemMoved.boot : t.boot = s.boot := (congrArg State.boot h.beyond :)
theorem MemMoved.mgmt : t.mgmt = s.mgmt := (congrArg State.mgmt h.beyond :)
theorem MemMoved.roles : t.roles = s.roles := (congrArg State.roles h.beyond :)
theorem MemMoved.inProgress : t.tier.inProgress = s.tier.inProgress := (congrArg (·.tier.inProgress) h.beyond :)

end

theorem moved_rawWrite (pa : Nat) (bs : List Byte) (s : State) : MemMoved s (rawWrite pa bs s) := by
  refine ⟨rfl, fun c hc => ?_, fun k => ?_⟩
  · have hget : (rawWrite pa bs s).tier.poison.get false c = if c ∈ wholeBlocks 512 pa bs.length then false else s.tier.poison.get false c :=
      get_foldl_set_same ..
    rw [hget] at hc
    split at hc
    · cases hc
    · exact hc
  · have hhart : hartOf (rawWrite pa bs s) k = loseReservation pa bs.length (hartOf s k) := Table.get_mapListed _ _ _ _ rfl
    rw [hhart, loseReservation]
    split
    · split <;> rfl
    · rfl

theorem moved_mem {s t : State} (h : MemMoved s t) (m : Memory) : MemMoved s { t with mem := m } := ⟨h.beyond, h.poison, h.harts⟩

theorem moved_homeStore (key : HomeKey) (pa : Nat) (bs : List Byte) (s : State) : MemMoved s (homeStore key pa bs s) := by
  cases key with
  | plain => exact moved_rawWrite pa bs s
  | gone => exact moved_rawWrite pa bs s
  | sealed k => exact moved_mem (moved_rawWrite pa bs s) _

theorem moved_plainWrite (pa : Nat) (bs : List Byte) (s : State) : MemMoved s (plainWrite pa bs s) :=
  .foldl _ (fun _ _ _ h => h.trans (moved_homeStore ..)) (.refl s)

theorem moved_dropOpLines (pa n : Nat) (s : State) : MemMoved s (dropOpLines pa n s) := ⟨rfl, fun _ h => h, fun _ => rfl⟩

/-! ### What serves an access goes on serving it -/

theorem accessRefusal_beyondStores (s : State) (q : Requester) (write : Bool) (pa n : Nat) :
    accessRefusal s.beyondStores q write pa n = accessRefusal s q write pa n := rfl

theorem accessRefusal_of_moved {s t : State} (h : MemMoved s t) (q : Requester) (write : Bool) (pa n : Nat) :
    accessRefusal t q write pa n = accessRefusal s q write pa n := by
  rw [← accessRefusal_beyondStores, h.beyond, accessRefusal_beyondStores]

theorem stakeKey_of_moved {s t : State} (h : MemMoved s t) (pa : Nat) : stakeKey t pa = stakeKey s pa := by
  have hkey : ∀ u : State, stakeKey u.beyondStores pa = stakeKey u pa := fun _ => rfl
  rw [← hkey, h.beyond, hkey]

theorem inPlain_of_moved {s t : State} (h : MemMoved s t) {pa n : Nat} (hp : InPlain s pa n) : InPlain t pa n :=
  fun p hm => (stakeKey_of_moved h p.1).trans (hp p hm)

theorem scattersAround_of_moved {s t : State} (h : MemMoved s t) (q : Requester) : scattersAround t q = scattersAround s q := by
  unfold scattersAround
  rw [h.tasks]

theorem partialPoison_of_moved {s t : State} (h : MemMoved s t) {pa n : Nat} (hs : partialPoison s pa n = false) :
    partialPoison t pa n = false := by
  rw [partialPoison, List.any_eq_false] at hs ⊢
  exact fun c hc ht => hs c hc (h.poison c ht)

theorem pieceRefusal_eq_none {s : State} {q : Requester} {p : Nat × Nat} :
    pieceRefusal s q p = none ↔ accessRefusal s q true p.1 p.2 = none ∧ partialPoison s p.1 p.2 = false := by
  unfold pieceRefusal
  split
  · next c hc => simp [hc]
  · next hc => simp [hc]

theorem pieceRefusal_of_moved {s t : State} (h : MemMoved s t) {q : Requester} {p : Nat × Nat} (hs : pieceRefusal s q p = none) :
    pieceRefusal t q p = none := by
  rw [pieceRefusal_eq_none] at hs ⊢
  exact ⟨(accessRefusal_of_moved h ..).trans hs.1, partialPoison_of_moved h hs.2⟩

/-! ### The bytes of a write in plain stakes -/

theorem stakeSize_pos : 0 < stakeSize := by decide

theorem take_add_drop {α : Type} (l : List α) (k n : Nat) : l.take (k + n) = l.take k ++ (l.drop k).take n := by
  rw [List.take_add]

/-- Pieces written one by one leave what the whole write does. -/
theorem mem_foldl_pieces {f : State → Nat × Nat → State} {s : State} {pa : Nat} {bs : List Byte} (hf : ∀ k l t, k + l ≤ bs.length →
      (pa + k, l) ∈ piecesOf stakeSize pa bs.length → MemMoved s t →
      MemMoved s (f t (pa + k, l)) ∧ (f t (pa + k, l)).mem = memWrite t.mem (pa + k) (sliceBytes bs k l)) :
    MemMoved s ((piecesOf stakeSize pa bs.length).foldl f s) ∧
      ((piecesOf stakeSize pa bs.length).foldl f s).mem = memWrite s.mem pa bs := by
  have h := foldl_pieces (pa := pa) (n := bs.length) (x := s) stakeSize_pos f
    (fun k t => MemMoved s t ∧ t.mem = memWrite s.mem pa (bs.take k)) ⟨.refl s, by simp [memWrite]⟩
    (fun k l t hle hmem ⟨hmoved, ht⟩ => by
      obtain ⟨hm, hw⟩ := hf k l t hle hmem hmoved
      refine ⟨hm, ?_⟩
      have hk : (bs.take k).length = k := by simp; omega
      rw [hw, ht, sliceBytes_of_le hle, take_add_drop, memWrite_append, hk])
  simpa using h

theorem mem_plainWrite {s : State} {pa : Nat} {bs : List Byte} (hp : InPlain s pa bs.length) :
    (plainWrite pa bs s).mem = memWrite s.mem pa bs := by
  refine (mem_foldl_pieces fun k l t hle hmem hm => ?_).2
  have hkey : stakeKey s (pa + k) = .plain := hp _ hmem
  have hoff : pa + k - pa = k := by omega
  simp only [hkey, hoff]
  exact ⟨hm.trans (moved_rawWrite ..), rfl⟩

/-! ### Served writes -/

theorem outsideWrite_of_quiet {q : Requester} {s : State} (h : scattersAround s q = []) (pa : Nat) (bs : List Byte) :
    outsideWrite q pa bs s = (bs, s) := by
  unfold outsideWrite
  rw [h]

/-- The state a quiet write is made in: harts and PCIe drop operand cache lines first (R317, R329). -/
theorem placeBytes_of_quiet {q : Requester} {s : State} (h : scattersAround s q = []) (pa : Nat) (bs : List Byte) :
    ∃ t, placeBytes q pa bs s = plainWrite pa bs t ∧ MemMoved s t ∧ t.mem = s.mem := by
  unfold placeBytes
  rw [outsideWrite_of_quiet h]
  cases q.agent with
  | hart k => exact ⟨_, rfl, moved_dropOpLines .., rfl⟩
  | pcie => exact ⟨_, rfl, moved_dropOpLines .., rfl⟩
  | _ => exact ⟨s, rfl, .refl s, rfl⟩

theorem moved_placeBytes {q : Requester} {s : State} (h : scattersAround s q = []) (pa : Nat) (bs : List Byte) :
    MemMoved s (placeBytes q pa bs s) := by
  obtain ⟨t, heq, hm, -⟩ := placeBytes_of_quiet h pa bs
  exact heq ▸ hm.trans (moved_plainWrite ..)

theorem mem_placeBytes {q : Requester} {s : State} (h : scattersAround s q = []) {pa : Nat} {bs : List Byte}
    (hp : InPlain s pa bs.length) : (placeBytes q pa bs s).mem = memWrite s.mem pa bs := by
  obtain ⟨t, heq, hm, hmem⟩ := placeBytes_of_quiet h pa bs
  rw [heq, mem_plainWrite (inPlain_of_moved hm hp), hmem]

theorem stakeTableRead_of_unarmed {s : State} (h : s.err.inj.cells = []) (q : Requester) : stakeTableRead q s = s := by
  simp [stakeTableRead, fireInjection_of_unarmed h]

/-- A piece of a served write is placed. -/
theorem writePiece_of_served {q : Requester} {s t : State} {p : Nat × Nat} (hm : MemMoved s t) (hp : pieceRefusal s q p = none) (pa : Nat)
    (bs : List Byte) : writePiece q pa bs t p = placeBytes q p.1 (sliceBytes bs (p.1 - pa) p.2) t := by
  unfold writePiece
  rw [pieceRefusal_of_moved hm hp]

/-- A write that is served takes its place, and changes no more than its stores; in plain stakes memory takes its bytes (R303, R307). -/
theorem physWrite_of_serves {q : Requester} {pa : Nat} {bs : List Byte} {s : State} (h : ServesWrite q pa bs.length s) :
    ∃ t, physWrite q pa bs s = (.done (), t) ∧ MemMoved s t ∧ (InPlain s pa bs.length → t.mem = memWrite s.mem pa bs) := by
  obtain ⟨hregion, harmed, hscat, hpieces⟩ := h
  have hnone : firstSome (fun p => if writePosted s q false p.1 then none else (pieceRefusal s q p).map fun c => (c, p.1))
      (piecesOf stakeSize pa bs.length) = none :=
    firstSome_eq_none _ fun p hp => by simp [hpieces p hp]
  refine ⟨(piecesOf stakeSize pa bs.length).foldl (writePiece q pa bs) s, ?_, ?_, fun hplain => ?_⟩
  · unfold physWrite
    rcases hregion with hr | hr <;> simp only [hr, stakeTableRead_of_unarmed harmed, hnone]
  · refine .foldl _ (fun p hp u hu => ?_) (.refl s)
    rw [writePiece_of_served hu (hpieces p hp)]
    exact hu.trans (moved_placeBytes ((scattersAround_of_moved hu q).trans hscat) ..)
  · refine (mem_foldl_pieces fun k l t hle hmem hm => ?_).2
    have hoff : pa + k - pa = k := by omega
    have hquiet : scattersAround t q = [] := (scattersAround_of_moved hm q).trans hscat
    rw [writePiece_of_served hm (hpieces _ hmem), hoff]
    refine ⟨hm.trans (moved_placeBytes hquiet ..), mem_placeBytes hquiet fun p hp => ?_⟩
    have hwithin := within_of_mem_piecesOf stakeSize_pos hmem
    have hlen : (sliceBytes bs k l).length = l := by rw [sliceBytes_of_le hle]; simp; omega
    rw [hlen, piecesOf_of_within stakeSize_pos hwithin.1 hwithin.2.1, List.mem_singleton] at hp
    rw [hp, stakeKey_of_moved hm]
    exact hplain _ hmem

/-! ### Signals -/

/-- A signal that nothing refuses leaves the changed word, and no more than its stores (R232). -/
theorem signalBy_of_quiet {f : Nat → Nat} {q : Requester} {pa : Nat} {s : State} (h : signalRefusal q pa s = none)
    (hq : scattersAround s q = []) : signalBy f q pa s = plainWrite pa (bytesOfNat 8 (f (natOfBytes (plainRead s pa 8)))) s := by
  simp [signalBy, h, outsideWrite_of_quiet hq]

theorem moved_signalBy {f : Nat → Nat} {q : Requester} {pa : Nat} {s : State} (hq : scattersAround s q = []) :
    MemMoved s (signalBy f q pa s) := by
  cases h : signalRefusal q pa s with
  | none => exact signalBy_of_quiet h hq ▸ moved_plainWrite ..
  | some c => simpa [signalBy, h] using MemMoved.refl s

theorem mem_signalBy {f : Nat → Nat} {q : Requester} {pa : Nat} {s : State} (h : signalRefusal q pa s = none)
    (hq : scattersAround s q = []) (hp : InPlain s pa 8) :
    (signalBy f q pa s).mem = memWrite s.mem pa (bytesOfNat 8 (f (natOfBytes (plainRead s pa 8)))) := by
  rw [signalBy_of_quiet h hq]
  exact mem_plainWrite (by rwa [length_bytesOfNat])

/-! ### Served reads -/

theorem injectRead_of_unarmed {q : Requester} {s : State} (h : s.err.inj.cells = []) (hf : s.err.firing = none) (pa n : Nat) :
    injectRead q pa n s = (false, s) := by
  have hsame : { s with err := { s.err with firing := none } } = s := by rw [← hf]
  unfold injectRead
  rw [hsame]
  simp [fireInjection_of_unarmed h]

/-- A read that is served returns the bytes as its requester reads them, and changes nothing (R303, R307). -/
theorem physRead_of_serves {q : Requester} {pa n : Nat} {s : State} (h : ServesRead q pa n s) :
    physRead q pa n s = (.done (plainRead s pa n), s) := by
  obtain ⟨hregion, harmed, hfiring, hrefusal, hpoison, hrepair⟩ := h
  unfold physRead
  rw [injectRead_of_unarmed harmed hfiring]
  rcases hregion with hr | hr <;>
    simp [hr, stakeTableRead_of_unarmed harmed, hrefusal, hrepair, hpoison, flashMet]

theorem regionOf_ne_flash {a : Nat} (h : a < flashBase) : regionOf a ≠ .flash := by
  have hbulk : bulkBase + bulkSize ≤ flashBase := by decide
  simp only [regionOf]
  repeat' split
  all_goals simp

/-- Below the flash tier, in plain stakes, what is read is what memory holds. -/
theorem plainRead_of_plain {s : State} {pa n : Nat} (hp : InPlain s pa n) (hn : pa + n ≤ flashBase) : plainRead s pa n = memRead s.mem pa n := by
  refine flatMap_pieces stakeSize_pos _ (fun k x => x = memRead s.mem pa k) rfl fun k l x hle hmem hx => ?_
  obtain ⟨hl, -⟩ := within_of_mem_piecesOf stakeSize_pos hmem
  have hkey : stakeKey s (pa + k) = .plain := hp _ hmem
  have hregion : regionOf (pa + k) ≠ .flash := regionOf_ne_flash (by simp at hl; omega)
  rw [hx, memRead_append]
  simp only [hkey, homeBytes, if_neg hregion, rawRead]

end Sys2Proof.Machine
end

