-- ==== Sys2Proof/Proofs/StrayTally.lean ====
section
/-!
PROOFS. Proofs/StrayTally.lean: a window whose tally lies in the flash tier, over a copy of the loader the module shipped with (R430):
its tally is read from the loader, and what the arrival leaves there counts on from that.
-/

namespace Sys2Proof.Machine

/-- Port 0 is UP, the key of cord 0 installed, and window 0 open for writes of context 1, its tally at the flash tier's first byte. -/
def strayTally : State :=
  { State.reset with
    cfg := some {}
    fabric := { State.reset.fabric with
      ports := { cells := [(0, { state := .up })] }
      keys := [⟨0, 0, 0⟩]
      windows := { cells := [(0, { base := bulkBase, units := 1, enable := true, write := true, context := 1, tally := flashBase })] } } }

/-- A frame of one byte for window 0, encrypted and tagged under the key of cord 0; and as it opens. -/
def strayFrame : DataFrame := { length := 1, payload := [0], authTag := gcmTag 0 0 [] [0] }
def strayOpened : DataFrame := { strayFrame with payload := [206] }

theorem openFrame_stray : openFrame strayTally 0 strayFrame = some strayOpened := by
  have hkey : cordKey strayTally (ownCord strayTally) strayFrame.keyEpoch = some 0 := by decide
  have hnonce : nonceOf strayTally 0 strayFrame = 0 := by decide
  have htag : gcmTag 0 0 strayFrame.header strayFrame.payload = strayFrame.authTag := by dsimp only [strayFrame]
  have hplain : gcmCrypt 0 0 strayFrame.payload = [206] := by decide +kernel
  simp only [openFrame, hkey, hnonce, htag, if_true, hplain]
  rfl

/-- A port that has taken one more frame. -/
def heardFrame (p : Nat) (s : State) : State :=
  updPort p (fun q => { q with taken := q.taken + 1, replayFrom := none }) (updPort p (fun q => { q with lastReceived := s.now }) s)

theorem dataFrameReceive_of_good {p : Nat} {f g : DataFrame} {s : State} (hup : isUp s p = true) (harmed : s.err.inj.cells = [])
    (hcorrected : f.corrected = true) (hopen : openFrame s p f = some g) (hnumber : f.number = (portOf s p).taken) :
    dataFrameReceive p f s = frameTaken p g (heardFrame p s) := by
  have htaken : (portOf (updPort p (fun q => { q with lastReceived := s.now }) s) p).taken = f.number := by
    rw [portOf_updPort_self, hnumber]
  simp only [dataFrameReceive, hup, siteFlit_of_unarmed harmed, fireInjection_of_unarmed harmed, hcorrected, hopen, htaken, lt_irrefl]
  rfl

/-- The module once it has noted the frame on its link. -/
def strayTaken : State := heardFrame 0 strayTally

/-! ### What the frame leaves in memory -/

theorem mem_takeMemoryFrame {f : DataFrame} {s t : State} (h : windowWrite f.window f.origin f.tag f.offset f.payload f.sealed s = (none, t)) :
    (takeMemoryFrame f s).mem = t.mem := by
  have hlate : (noteLate f t).mem = t.mem := by
    unfold noteLate
    repeat' split
    all_goals rfl
  have harrived : (noteArrived f false (noteLate f t)).mem = t.mem := by
    rw [← hlate]
    simp only [noteArrived]
    split <;> rfl
  unfold takeMemoryFrame
  rw [h]
  dsimp only
  split
  · exact harrived
  · exact harrived

/-- A word at the flash tier's first byte is read from the loader, of whose head its first byte is. -/
theorem plainRead_loader {t : State} (hkey : stakeKey t flashBase = .plain) (hshipped : t.boot.shipped0 = true)
    (hwritten : t.tier.flashWritten.get false (flashBase / ashlarSize) = false) : ∃ bs, plainRead t flashBase 8 = 0x51#8 :: bs := by
  have hpieces : piecesOf stakeSize flashBase 8 = [(flashBase, 8)] := by decide
  have hregion : regionOf flashBase = .flash := by decide
  have hcopy : shippedCopy t flashBase = some 0 := by
    have hlast : flashBase ≤ flashBase ∧ flashBase < flashBase + bootCopySize := by decide
    simp [shippedCopy, hwritten, hshipped, hlast]
  have hlow : ((t.boot.shipped0 || t.boot.shipped1) && decide (flashBase < flashBase + 2 * bootCopySize)) = true := by
    rw [hshipped, Bool.true_or, Bool.true_and]
    decide
  have hrest : ∃ bs, flashBytes t flashBase 8 = 0x51#8 :: bs := by
    rw [flashBytes, if_pos hlow, List.range_succ_eq_map, List.map_cons, Nat.add_zero, hcopy]
    exact ⟨_, rfl⟩
  rw [plainRead, hpieces, List.flatMap_singleton, hkey, homeBytes, if_pos hregion]
  exact hrest

theorem counterAdded_one_mod (bs : List Byte) : counterAdded (natOfBytes (0x51#8 :: bs)) 1 % 256 = 0x52 := by
  have hhead : (0x51#8).toNat = 0x51 := rfl
  simp only [counterAdded, counterCount, bitsOf, natOfBytes, Nat.shiftRight_zero, hhead]
  split <;> omega

/-- The requester of window 0, and the window itself. -/
def strayAgent : Requester := { agent := .portDie false, context := 1 }
def strayWindow : Window := windowOf strayTally 0

theorem signalRefusal_stray {u : State} (h : MemMoved strayTaken u) : signalRefusal strayAgent flashBase u = none := by
  have hpoison : poisonIn u flashBase 8 = false := by
    have hbeyond : ∀ s : State, poisonIn s.beyondStores flashBase 8 = poisonIn s flashBase 8 := fun _ => rfl
    rw [← hbeyond, h.beyond]
    decide
  have haccess : accessRefusal strayTaken strayAgent true flashBase 8 = none := by decide
  simp [signalRefusal, accessRefusal_of_moved h, haccess, hpoison]

theorem windowWrite_of_served {win origin tag offset : Nat} {bs : List Byte} {mark : Bool} {s u : State}
    (hrefusal : windowRefusal s win .write origin tag offset bs.length mark = none)
    (hwrite : physWrite (windowRequester (windowOf s win) mark) ((windowOf s win).base + offset) bs s = (.done (), u)) :
    windowWrite win origin tag offset bs mark s = (none, countArrival win
      (bytesPlaced s (windowRequester (windowOf s win) mark) ((windowOf s win).base + offset) bs.length) mark u) := by
  unfold windowWrite
  rw [hrefusal]
  dsimp only
  rw [hwrite]

/-- The byte is written and counted. -/
theorem windowWrite_stray : ∃ u, MemMoved strayTaken u ∧ windowWrite strayOpened.window strayOpened.origin strayOpened.tag strayOpened.offset
    strayOpened.payload strayOpened.sealed strayTaken = (none, signalAdd strayAgent flashBase 1 u) := by
  obtain ⟨u, hwrite, hmoved, -⟩ := physWrite_of_serves (q := strayAgent) (pa := bulkBase) (bs := strayOpened.payload)
    (s := strayTaken) (by decide)
  have hwindow : windowOf u 0 = strayWindow := congrArg (fun f : FabricBlock => f.windows.get {} 0) hmoved.fabric
  have harrival : countArrival 0 1 false u = signalAdd strayAgent flashBase 1 u := by
    have hagent : tallyAccess strayWindow false u = strayAgent := rfl
    have htally : strayWindow.tally = flashBase := rfl
    have henable : strayWindow.enable = true := rfl
    simp [countArrival, hwindow, hagent, htally, henable, signalRefusal_stray hmoved]
  have hrefusal : windowRefusal strayTaken 0 .write 0 0 0 1 false = none := by decide
  have hplaced : bytesPlaced strayTaken strayAgent bulkBase 1 = 1 := by decide
  exact ⟨u, hmoved, by rw [← harrival, ← hplaced]; exact windowWrite_of_served hrefusal hwrite⟩

theorem mem_stray : memNat (frameTaken 0 strayOpened strayTaken).mem flashBase 8 ≠ 1 := by
  obtain ⟨u, hmoved, hwrite⟩ := windowWrite_stray
  have hwritten : u.tier.flashWritten = strayTaken.tier.flashWritten := (congrArg (·.tier.flashWritten) hmoved.beyond :)
  obtain ⟨bs, hbs⟩ := plainRead_loader (t := u) (stakeKey_of_moved hmoved _) (by rw [hmoved.boot]; rfl) (by rw [hwritten]; rfl)
  have hquiet : scattersAround u strayAgent = [] := scattersAround_of_moved hmoved _
  have hplain : InPlain u flashBase 8 := inPlain_of_moved hmoved (by decide)
  have hmem : (frameTaken 0 strayOpened strayTaken).mem = (signalAdd strayAgent flashBase 1 u).mem := mem_takeMemoryFrame hwrite
  rw [hmem, signalAdd, mem_signalBy (signalRefusal_stray hmoved) hquiet hplain, hbs, memNat_memWrite_bytesOfNat]
  have hmod := counterAdded_one_mod bs
  omega

/-- Refutes O18: nothing keeps the tally of a window out of the flash tier, where a copy of the loader that the module shipped with is
read. A frame of one byte counts on from the loader's first eight bytes there, where memory lists none. -/
theorem not_portsCarryFrames : ¬ Obligations.PortsCarryFrames := by
  unfold Obligations.PortsCarryFrames
  rintro ⟨-, hframe⟩
  obtain ⟨t, hexec, -, -, -, -, hmem⟩ := hframe 0 strayFrame strayOpened strayTally (by decide) rfl rfl openFrame_stray (by decide)
    (by decide) (.inl rfl) (by decide) rfl (by decide) (by decide) (by decide) (by decide)
  have ht : frameTaken 0 strayOpened strayTaken = t := by
    rw [strayTaken, ← dataFrameReceive_of_good (f := strayFrame) (by decide) rfl rfl openFrame_stray (by decide)]
    exact Host.Outcome.next.inj hexec
  obtain ⟨-, hbytes⟩ := hmem (by decide) (by decide)
  obtain ⟨-, htally⟩ := hbytes (.inr (by decide))
  exact mem_stray (ht ▸ htally (by decide) (by decide) (by decide))

end Sys2Proof.Machine
end

