-- ==== Sys2Proof/Proofs/StraySignal.lean ====
section
/-!
PROOFS. Proofs/StraySignal.lean: a task whose signal counter lies in the flash tier, over a copy of the loader the module shipped with
(R430): its signal counts on from the loader's bytes.
-/

namespace Sys2Proof.Machine

/-- A task of context 1 that has done its work, its counter at the flash tier's first byte; and a module with that task alone. -/
def strayTask : Task :=
  { ring := 0, seq := 0, header := { type := .barrier, signalAdd := 1 }, body := .gate, context := 1, phase := .issued, workDone := true
    signalPa := some flashBase }
def straySignal : State := { State.reset with tasks := [strayTask] }

theorem findTask_straySignal : findTask straySignal 0 0 = some strayTask := by decide

theorem signalRefusal_straySignal : signalRefusal (counterRequester strayTask) flashBase straySignal = none := by decide

theorem mayEnd_straySignal : MayEnd strayTask straySignal := by
  refine ⟨findTask_straySignal, rfl, signalRefusal_straySignal, fun pa hpa => ?_⟩
  obtain rfl : flashBase = pa := Option.some.inj hpa
  exact ⟨by decide, by decide, fun x hx => absurd hx (List.not_mem_nil)⟩

/-- The task retires with its signal. -/
theorem taskComplete_straySignal :
    taskComplete 0 0 straySignal = retireTask 0 0 (signalAdd (counterRequester strayTask) flashBase 1 straySignal) := by
  have hrefused : signalRefused strayTask straySignal = none := signalRefusal_straySignal
  have hruns : strayTask.running ∧ strayTask.workDone ∧ !strayTask.blocked ∧ strayTask.transfers.isEmpty := by decide
  rw [taskComplete, findTask_straySignal]
  dsimp only
  rw [if_pos hruns, completeTask, if_neg (by decide)]
  dsimp only
  rw [finishTask, hrefused]
  rfl

theorem mem_straySignal : memNat (signalAdd (counterRequester strayTask) flashBase 1 straySignal).mem flashBase 8 ≠ 1 := by
  obtain ⟨bs, hbs⟩ := plainRead_loader (t := straySignal) (by decide) rfl rfl
  have hmod := counterAdded_one_mod bs
  rw [signalAdd, mem_signalBy signalRefusal_straySignal (by decide) (by decide), hbs, memNat_memWrite_bytesOfNat]
  omega

/-- Refutes O33: nothing keeps the signal counter of a task out of the flash tier, where a copy of the loader that the module shipped with
is read. TASK_COMPLETE signals there: the counter goes on from the loader's first eight bytes, where memory lists none. -/
theorem not_tasksEndAndEnqueue : ¬ Obligations.TasksEndAndEnqueue := by
  unfold Obligations.TasksEndAndEnqueue
  rintro ⟨hends, -⟩
  obtain ⟨-, -, -, -, hcomplete⟩ := hends strayTask straySignal mayEnd_straySignal
  obtain ⟨u, hexec, htasks, -, -, -, -, -, hsignal⟩ := hcomplete rfl rfl rfl rfl
  have hnone : u.tasks = [] := by rw [htasks]; decide
  have hidle : preloadBenches u = u := preloadBenches_idle u fun n => by simp [runningOn, hnone]
  have hu : preloadBenches (taskComplete 0 0 straySignal) = u := by
    rw [← hidle]
    exact Host.Outcome.next.inj hexec
  have hdone : (taskComplete 0 0 straySignal).tasks = [] := by
    rw [taskComplete_straySignal]
    have hmoved := moved_signalBy (f := fun w => counterAdded w 1) (q := counterRequester strayTask) (pa := flashBase) (s := straySignal) (by decide)
    have hone : (signalAdd (counterRequester strayTask) flashBase 1 straySignal).tasks = [strayTask] := hmoved.tasks
    have hretire : ∀ v : State, (retireTask 0 0 v).tasks = v.tasks.filter fun t => !t.is 0 0 := fun _ => rfl
    rw [hretire, hone]
    decide
  rw [preloadBenches_idle _ fun n => by simp [runningOn, hdone], taskComplete_straySignal] at hu
  obtain ⟨hcount, -⟩ := hsignal flashBase rfl
  exact mem_straySignal (by rw [← hu] at hcount; exact hcount)

end Sys2Proof.Machine
end

