-- ==== Sys2Proof/Proofs/Withdrawals.lean ====
section
/-!
PROOFS. Proofs/Withdrawals.lean: what withdraws translations, operand cache lines and stakes (R300, R303–R305, R331): the registers of
the Trans Unit and the operand cache, and the stake commands.
-/

namespace Sys2Proof.Machine

/-! ### Invalidations (R300, R331) -/

theorem exec_tuInval_of_room {v : W64} {x : InvalScope} {s : State} (hx : invalOf s.tu v = some x) (hroom : s.tu.invals.length < 16) :
    exec (.tuInval v) s = .next { s with tu := issueInval x s.tu } := by
  show Host.Outcome.next (tuInvalWrite .nobody v s).2 = _
  rw [tuInvalWrite, hx]
  simp [hroom]

theorem exec_tuInval_of_full {v : W64} {x : InvalScope} {s : State} (hx : invalOf s.tu v = some x) (hfull : 16 ≤ s.tu.invals.length) :
    exec (.tuInval v) s = .next { s with tu := { s.tu with invalWaiting := s.tu.invalWaiting ++ [(x, .nobody)] } } := by
  show Host.Outcome.next (tuInvalWrite .nobody v s).2 = _
  rw [tuInvalWrite, hx]
  simp [Nat.not_lt.2 hfull]

theorem groveCache_issueInval (x : InvalScope) (tu : TuBlock) :
    (issueInval x tu).groveCache = tu.groveCache.filter fun e => !invalNames x e.context e.vpn e.pages := rfl

theorem sharedCache_issueInval (x : InvalScope) (tu : TuBlock) :
    (issueInval x tu).sharedCache = tu.sharedCache.filter fun e => !invalNames x e.context e.vpn e.pages := rfl

theorem exec_invalidationDrainDone_of_held {s : State} (h : invalHeld s ((s.tu.invalDone + 1) % 2 ^ 32) = true) :
    exec .invalidationDrainDone s = .next s := by
  have hdrained : invalDrained s = (none, s) := by
    unfold invalDrained
    split
    · rfl
    · exact if_pos h
  show Host.Outcome.next (releaseWriter (invalDrained s).1 (invalDrained s).2) = _
  rw [hdrained]
  rfl

theorem exec_invalidationDrainDone_of_drained {x : InvalScope} {xs : List InvalScope} {s : State} (hx : s.tu.invals = x :: xs)
    (hwaiting : s.tu.invalWaiting = []) (h : invalHeld s ((s.tu.invalDone + 1) % 2 ^ 32) = false) :
    exec .invalidationDrainDone s = .next { s with tu := { s.tu with invals := xs, invalDone := (s.tu.invalDone + 1) % 2 ^ 32 } } := by
  have hdrained : invalDrained s = (none, { s with tu := { s.tu with invals := xs, invalDone := wrapAdd 32 s.tu.invalDone 1 } }) := by
    have hheld : ¬ invalHeld s (wrapAdd 32 s.tu.invalDone 1) = true := by rw [wrapAdd, h]; exact Bool.false_ne_true
    simp [invalDrained, hx, hheld, hwaiting]
  show Host.Outcome.next (releaseWriter (invalDrained s).1 (invalDrained s).2) = _
  rw [hdrained]
  rfl

/-- The lines a write of OPCACHE_INVAL names. -/
def opInvalRange (g : Nat) (v : W64) (s : State) : Option (Nat × Nat) :=
  if v.getLsbD 63 then none else some ((s.opRegs.get {} g).base / 512, bitsOf v.toNat 31 0 * 128)

theorem exec_opcacheInval_of_room {g : Nat} {v : W64} {s : State} (hg : g < 4) (hv : v.getLsbD 63 = true ∨ bitsOf v.toNat 31 0 ≠ 0)
    (hroom : (s.opRegs.get {} g).held.length < 8) : exec (.opcacheInval g v) s = .next (issueOpInval g (opInvalRange g v s) s) := by
  have hnamed : ¬ (!v.getLsbD 63 && bitsOf v.toNat 31 0 == 0) = true := by
    rcases hv with hall | hunits
    · simp [hall]
    · simp [hunits]
  show Host.Outcome.next (if g < 4 then (opcacheInvalWrite .nobody g v s).2 else s) = _
  rw [if_pos hg]
  simp only [opcacheInvalWrite, if_neg hnamed, if_pos hroom]
  rfl

theorem exec_opcacheInvalDone_of_held {g : Nat} {y : Option (Nat × Nat)} {ys : List (Option (Nat × Nat))} {s : State}
    (hheld : (s.opRegs.get {} g).held = y :: ys) (hwaiting : (s.opRegs.get {} g).waiting = []) :
    exec (.opcacheInvalDone g) s = .next { s with
      opLines := s.opLines.filter fun l => !(l.grove == g && opRangeHas y l.line)
      opRegs := s.opRegs.set {} g { s.opRegs.get {} g with held := ys, done := ((s.opRegs.get {} g).done + 1) % 2 ^ 32 } } := by
  show Host.Outcome.next (releaseWriter (opInvalDone g s).1 (opInvalDone g s).2) = _
  simp only [opInvalDone, hheld, hwaiting, releaseWriter, wrapAdd]

theorem not_named_iff {g : Nat} {x : Option (Nat × Nat)} {l : OpLine} :
    (!(l.grove == g && opRangeHas x l.line)) = true ↔ ¬(l.grove = g ∧ opRangeHas x l.line = true) := by
  by_cases hg : l.grove = g <;> simp [hg]

/-- Settles O47: the arms of the register writes and drains, and the filters they drop caches with. -/
theorem translationsAreWithdrawn : Obligations.TranslationsAreWithdrawn := by
  unfold Obligations.TranslationsAreWithdrawn
  intro v g s
  refine ⟨rfl, rfl, fun x hx => ⟨fun hroom => ?_, exec_tuInval_of_full hx⟩, exec_invalidationDrainDone_of_held,
    fun x xs hx hwaiting h => exec_invalidationDrainDone_of_drained hx hwaiting h, fun hg hv => ⟨fun hroom => ?_, fun y ys hheld hwaiting => ?_⟩⟩
  · refine ⟨_, exec_tuInval_of_room hx hroom, rfl, rfl, rfl, fun e he => ?_, fun e he => ?_, fun e he hn => ?_⟩
    · rw [groveCache_issueInval, List.mem_filter, Bool.not_eq_true'] at he
      exact he.2
    · rw [sharedCache_issueInval, List.mem_filter, Bool.not_eq_true'] at he
      exact he.2
    · rw [groveCache_issueInval, List.mem_filter, Bool.not_eq_true']
      exact ⟨he, hn⟩
  · refine ⟨_, exec_opcacheInval_of_room hg hv hroom, fun l hl => ?_, fun l hl hn => ?_, ?_, rfl⟩
    · exact not_named_iff.1 (List.mem_filter.1 hl).2
    · exact List.mem_filter.2 ⟨hl, not_named_iff.2 hn⟩
    · exact (Table.get_update ..).trans (if_pos rfl)
  · exact ⟨_, exec_opcacheInvalDone_of_held hheld hwaiting, Table.get_set_self .., rfl, rfl⟩

/-! ### Stake entries -/

theorem stakeEntry_updStakes (f : Stake → Stake) (is : List Nat) (s : State) (i : Nat) (hf : ∀ k, f (f k) = f k) :
    stakeEntry (updStakes f is s) i = if i ∈ is then f (stakeEntry s i) else stakeEntry s i := by
  have hfold : ∀ (is : List Nat) (t : Table Stake), (is.foldl (fun t i => t.update {} i f) t).get {} i =
      if i ∈ is then f (t.get {} i) else t.get {} i := by
    intro is
    induction is with
    | nil => intro t; rfl
    | cons k ks ih =>
      intro t
      rw [List.foldl_cons, ih, Table.get_update]
      by_cases hk : i = k <;> by_cases hks : i ∈ ks <;> simp [hk, hks, hf]
  exact hfold is s.stakes.table

theorem stakeEntry_congr {s t : State} (h : t.stakes.table = s.stakes.table) (i : Nat) : stakeEntry t i = stakeEntry s i := by
  rw [stakeEntry, h, stakeEntry]

/-- A listed value of a table stands at its place. -/
theorem mem_cells_of_get {α : Type} [DecidableEq α] {t : Table α} {d v : α} {k : Nat} (h : t.get d k = v) (hv : v ≠ d) : (k, v) ∈ t.cells := by
  have hfind : ∀ (cs : List (Nat × α)) (x : α), cellsFind k cs = some x → (k, x) ∈ cs := by
    intro cs x hx
    induction cs with
    | nil => simp [cellsFind] at hx
    | cons c cs ih =>
      obtain ⟨i, w⟩ := c
      simp only [cellsFind] at hx
      split at hx
      · next hi =>
        obtain rfl := Option.some.inj hx
        exact hi ▸ List.mem_cons_self
      · exact List.mem_cons_of_mem _ (ih hx)
  unfold Table.get at h
  cases hc : cellsFind k t.cells with
  | none => rw [hc] at h; exact absurd h.symm hv
  | some x =>
    rw [hc] at h
    exact h ▸ hfind _ _ hc

theorem carryAssign_of_idle {s : State} (h : s.stakes.work = .none) : carryAssign s = s := by
  unfold carryAssign
  rw [h]

theorem beginRelease_of_idle {s : State} (h : s.stakes.work = .none) (is : List Nat) : beginRelease is s =
    { dropStakeLines is (updStakes (fun k => { k with state := .releasing }) is s) with
      stakes := { (updStakes (fun k => { k with state := .releasing }) is s).stakes with busy := true, work := .release is } } := by
  simp only [beginRelease, carryAssign_of_idle h, h, List.nil_append]
  rfl

theorem stakeEntry_beginRelease {s : State} (h : s.stakes.work = .none) (is : List Nat) (i : Nat) :
    stakeEntry (beginRelease is s) i = if i ∈ is then { stakeEntry s i with state := .releasing } else stakeEntry s i := by
  rw [beginRelease_of_idle h]
  exact stakeEntry_updStakes _ is s i fun _ => rfl

theorem mem_ownedStakes {s : State} {i c : Nat} (hstate : (stakeEntry s i).state = .owned) (howner : (stakeEntry s i).owner = c) :
    i ∈ ownedStakes s c := by
  have hcell : (i, stakeEntry s i) ∈ s.stakes.table.cells := mem_cells_of_get rfl fun h => by
    have hfree : (stakeEntry s i).state = .free := by rw [h]
    rw [hstate] at hfree
    cases hfree
  exact List.mem_map.2 ⟨_, List.mem_filter.2 ⟨hcell, by simp [hstate, howner]⟩, rfl⟩

theorem isSealed_unsealContext (c : Nat) (s : State) : isSealed (unsealContext c s) c = false := by
  have hcontexts : (unsealContext c s).stakes.sealedContexts =
      (beginRelease (ownedStakes (carryAssign s) c) s).stakes.sealedContexts.filter fun x => x.context != c := rfl
  unfold isSealed sealedContext
  rw [hcontexts, Option.isSome_eq_false_iff, Option.isNone_iff_eq_none, List.find?_eq_none]
  intro x hx
  have hne := (List.mem_filter.1 hx).2
  simpa using hne

/-! ### Stake commands (R304, R305) -/

section
variable {v : W64} {s : State} (hv : stakeIgnored v s = false)
include hv

theorem exec_assign : exec (.assign v) s = .next (stakeAssign (cmdOwner v) (cmdCount v) s) :=
  congrArg Host.Outcome.next (if_neg (by rw [hv]; exact Bool.false_ne_true))

theorem exec_release : exec (.release v) s = .next (stakeRelease (cmdCount v) s) :=
  congrArg Host.Outcome.next (if_neg (by rw [hv]; exact Bool.false_ne_true))

theorem exec_revokeSeal : exec (.revokeSeal v) s = .next (stakeRevoke (cmdOwner v) (cmdCount v) s) :=
  congrArg Host.Outcome.next (if_neg (by rw [hv]; exact Bool.false_ne_true))

/-- A command whose range leaves the tiers (R304). -/
theorem exec_stakeCommands_of_range (hrange : stakeRangeOk s (cmdCount v) = false) :
    exec (.assign v) s = .next (stakeResult 0x5304 s) ∧ exec (.release v) s = .next (stakeResult 0x5304 s) ∧
      exec (.revokeSeal v) s = .next (stakeResult 0x5304 s) := by
  rw [exec_assign hv, exec_release hv, exec_revokeSeal hv]
  simp [stakeAssign, stakeRelease, stakeRevoke, hrange]

variable (hrange : stakeRangeOk s (cmdCount v) = true)
include hrange

theorem exec_assign_of_free (hfree : ∀ i ∈ stakeRange s.stakes.addr (cmdCount v), (stakeEntry s i).state = .free) (hlow : 2 ≤ cmdOwner v)
    (hhigh : cmdOwner v ≤ 0xFFF1) : exec (.assign v) s = .next { s with stakes := { s.stakes with
      busy := true, result := 0, work := .assign (stakeIndex s.stakes.addr) (cmdCount v) (cmdOwner v) } } := by
  have hany : ((stakeRange s.stakes.addr (cmdCount v)).any fun i => decide ((stakeEntry s i).state ≠ .free)) = false :=
    List.any_eq_false.2 fun i hi => by simp [hfree i hi]
  have howner : ¬(cmdOwner v < 2 ∨ 0xFFF1 < cmdOwner v) := by omega
  rw [exec_assign hv]
  simp only [stakeAssign, hrange, hany, if_neg howner]
  rfl

theorem exec_assign_of_taken {i : Nat} (hi : i ∈ stakeRange s.stakes.addr (cmdCount v)) (htaken : (stakeEntry s i).state ≠ .free) :
    exec (.assign v) s = .next (stakeResult 0x5301 s) := by
  have hany : ((stakeRange s.stakes.addr (cmdCount v)).any fun i => decide ((stakeEntry s i).state ≠ .free)) = true :=
    List.any_eq_true.2 ⟨i, hi, by simp [htaken]⟩
  rw [exec_assign hv]
  simp only [stakeAssign, hrange, hany]
  rfl

theorem exec_release_of_not_owned {i : Nat} (hi : i ∈ stakeRange s.stakes.addr (cmdCount v)) (hstate : (stakeEntry s i).state ≠ .owned) :
    exec (.release v) s = .next (stakeResult 0x5302 s) := by
  have hany : ((stakeRange s.stakes.addr (cmdCount v)).any fun i => decide ((stakeEntry s i).state ≠ .owned)) = true :=
    List.any_eq_true.2 ⟨i, hi, by simp [hstate]⟩
  rw [exec_release hv]
  simp only [stakeRelease, hrange, hany]
  rfl

theorem exec_release_of_owned (howned : ∀ i ∈ stakeRange s.stakes.addr (cmdCount v), (stakeEntry s i).state = .owned) :
    exec (.release v) s = .next (stakeResult 0 (beginRelease (stakeRange s.stakes.addr (cmdCount v)) s)) := by
  have hany : ((stakeRange s.stakes.addr (cmdCount v)).any fun i => decide ((stakeEntry s i).state ≠ .owned)) = false :=
    List.any_eq_false.2 fun i hi => by simp [howned i hi]
  rw [exec_release hv]
  simp only [stakeRelease, hrange, hany]
  rfl

theorem exec_revokeSeal_of_plain (hsealed : isSealed s (cmdOwner v) = false) : exec (.revokeSeal v) s = .next (stakeResult 0x5305 s) := by
  rw [exec_revokeSeal hv]
  simp [stakeRevoke, hrange, hsealed]

theorem exec_revokeSeal_of_sealed (hsealed : isSealed s (cmdOwner v) = true) :
    exec (.revokeSeal v) s = .next (stakeResult 0 (unsealContext (cmdOwner v) s)) := by
  rw [exec_revokeSeal hv]
  simp [stakeRevoke, hrange, hsealed]

end

theorem mem_opLines_beginRelease {s : State} (h : s.stakes.work = .none) {is : List Nat} {l : OpLine}
    (hl : l ∈ (beginRelease is s).opLines) (hnear : nearOrBulk (l.line * 512) = true) : stakeIndex (l.line * 512) ∉ is := by
  rw [beginRelease_of_idle h] at hl
  have hkept := (List.mem_filter.1 hl).2
  simpa [hnear] using hkept

theorem work_beginRelease {s : State} (h : s.stakes.work = .none) (is : List Nat) :
    (beginRelease is s).stakes.busy = true ∧ (beginRelease is s).stakes.work = .release is := by
  rw [beginRelease_of_idle h]
  exact ⟨rfl, rfl⟩

theorem mem_beginRelease {s : State} (h : s.stakes.work = .none) (is : List Nat) : (beginRelease is s).mem = s.mem := by
  rw [beginRelease_of_idle h]
  rfl

/-! ### The end of a stake command -/

theorem carryAssign_of_assign {s : State} {first count owner : Nat} (h : s.stakes.work = .assign first count owner) :
    (carryAssign s).stakes.busy = false ∧ (carryAssign s).stakes.work = .none ∧ (carryAssign s).mem = s.mem ∧
      ∀ i, stakeEntry (carryAssign s) i = if first ≤ i ∧ i < first + count then { owner := owner, state := .owned } else stakeEntry s i := by
  unfold carryAssign
  rw [h]
  refine ⟨rfl, rfl, rfl, fun i => ?_⟩
  have hentry := stakeEntry_updStakes (fun _ => { owner := owner, state := .owned }) ((List.range count).map (· + first)) s i fun _ => rfl
  have hmem : i ∈ (List.range count).map (· + first) ↔ first ≤ i ∧ i < first + count := by
    simp only [List.mem_map, List.mem_range]
    exact ⟨fun ⟨k, hk, hki⟩ => by omega, fun hi => ⟨i - first, by omega, by omega⟩⟩
  simp only [hmem] at hentry
  exact hentry

theorem stakeReleaseDone_of_idle {s : State} {i : Nat} (h : s.stakes.work = .release [i]) (hm : migrationUses s i = false)
    (hd : deckUses s i = false) :
    stakeReleaseDone s = { freeStakes [i] s with stakes := { (freeStakes [i] s).stakes with busy := false, work := .none } } := by
  have hany : ¬ ([i].any fun i => migrationUses s i || deckUses s i) = true := by simp [hm, hd]
  unfold stakeReleaseDone
  rw [h]
  exact if_neg hany

theorem mem_freeStakes_one (i : Nat) (s : State) :
    (freeStakes [i] s).mem = if zeroedAtRelease (stakeEntry s i) then memZero s.mem (stakeAddr i) stakeSize else s.mem := by
  show (if zeroedAtRelease (stakeEntry s i) = true then _ else s : State).mem = _
  split <;> rfl

theorem stakes_foldl {α : Type} {f : State → α → State} (hf : ∀ t a, (f t a).stakes = t.stakes) (l : List α) (s : State) :
    (l.foldl f s).stakes = s.stakes := by
  induction l generalizing s with
  | nil => rfl
  | cons a l ih => exact (ih (f s a)).trans (hf s a)

theorem stakeEntry_freeStakes_one (i j : Nat) (s : State) : stakeEntry (freeStakes [i] s) j = if j = i then {} else stakeEntry s j := by
  have hentry : stakeEntry (freeStakes [i] s) j = _ := stakeEntry_updStakes (fun _ => {}) [i] _ j fun _ => rfl
  rw [hentry, stakeEntry_congr (congrArg StakeBlock.table (stakes_foldl (fun t k => by dsimp only; split <;> rfl) [i] s))]
  simp only [List.mem_singleton]

/-- Settles O48: the checks of each command in their order, then what `beginRelease`, `carryAssign` and `freeStakes` leave of the table. -/
theorem stakeCommandsAct : Obligations.StakeCommandsAct := by
  unfold Obligations.StakeCommandsAct
  intro v s
  refine ⟨fun hi => ?_, fun hv hr => ?_, fun hv hr => ?_, fun first count owner h => ?_, fun i h hm hd => ?_⟩
  · exact ⟨congrArg Host.Outcome.next (if_pos hi), congrArg Host.Outcome.next (if_pos hi), congrArg Host.Outcome.next (if_pos hi)⟩
  · obtain ⟨hassign, hrelease, -⟩ := exec_stakeCommands_of_range hv hr
    exact ⟨hassign, hrelease⟩
  · refine ⟨exec_assign_of_free hv hr, fun i hi => exec_assign_of_taken hv hr hi, fun ⟨i, hi, hs⟩ => exec_release_of_not_owned hv hr hi hs,
      fun howned hwork => ?_, exec_revokeSeal_of_plain hv hr, fun hsealed hwork => ?_⟩
    · have hexec := exec_release_of_owned hv hr howned
      have hentry := stakeEntry_beginRelease hwork (stakeRange s.stakes.addr (cmdCount v))
      have hmem := mem_beginRelease hwork (stakeRange s.stakes.addr (cmdCount v))
      obtain ⟨hbusy, hnow⟩ := work_beginRelease hwork (stakeRange s.stakes.addr (cmdCount v))
      have hlines := fun l => mem_opLines_beginRelease (l := l) hwork (is := stakeRange s.stakes.addr (cmdCount v))
      generalize beginRelease (stakeRange s.stakes.addr (cmdCount v)) s = u at *
      exact ⟨_, hexec, hbusy, rfl, hnow, fun i hi => (hentry i).trans (if_pos hi), fun i hi => (hentry i).trans (if_neg hi), hlines, hmem⟩
    · have hexec := exec_revokeSeal_of_sealed hv hr hsealed
      have hplain := isSealed_unsealContext (cmdOwner v) s
      have hmem : (unsealContext (cmdOwner v) s).mem = s.mem := mem_beginRelease hwork (ownedStakes (carryAssign s) (cmdOwner v))
      have hentry : ∀ i, stakeEntry (unsealContext (cmdOwner v) s) i = _ := stakeEntry_beginRelease hwork (ownedStakes (carryAssign s) (cmdOwner v))
      generalize unsealContext (cmdOwner v) s = u at *
      refine ⟨_, hexec, hplain, rfl, fun i hstate howner => ?_, hmem⟩
      have howned : i ∈ ownedStakes (carryAssign s) (cmdOwner v) := by
        rw [carryAssign_of_idle hwork]
        exact mem_ownedStakes hstate howner
      exact congrArg Stake.state ((hentry i).trans (if_pos howned))
  · obtain ⟨hbusy, hwork, hmem, hentry⟩ := carryAssign_of_assign h
    exact ⟨_, rfl, hbusy, hwork, fun i hlow hhigh => (hentry i).trans (if_pos ⟨hlow, hhigh⟩),
      fun i hout => (hentry i).trans (if_neg (by omega)), hmem⟩
  · have hexec : exec .stakeReleaseDone s = .next (stakeReleaseDone s) := rfl
    rw [hexec, stakeReleaseDone_of_idle h hm hd]
    refine ⟨_, rfl, rfl, rfl, (stakeEntry_freeStakes_one i i s).trans (if_pos rfl), fun j hj => (stakeEntry_freeStakes_one i j s).trans (if_neg hj),
      fun hz => ?_, fun hz => ⟨fun a hlow hhigh => ?_, fun a hout => ?_⟩⟩
    · exact (mem_freeStakes_one i s).trans (if_neg (by rw [hz]; exact Bool.false_ne_true))
    · show memGet (freeStakes [i] s).mem a = 0
      rw [mem_freeStakes_one, if_pos hz, memGet_memZero, if_pos ⟨hlow, hhigh⟩]
    · show memGet (freeStakes [i] s).mem a = _
      rw [mem_freeStakes_one, if_pos hz, memGet_memZero_of_out _ _ _ hout]

end Sys2Proof.Machine
end

