-- ==== Sys2Proof/Proofs/Spdm.lean ====
section
/-!
PROOFS. Proofs/Spdm.lean: the SPDM responder of a module that serves its management port (R442, R443): the stages of the connection,
its sessions, and the requests that are answered at once or by a long operation.
-/

namespace Sys2Proof.Machine

/-! ### Answers -/

theorem answered_mgmtSend {s u : State} (hserved : u.mgmt.served = s.mgmt.served) (hlong : u.mgmt.long = none) (m : List Byte) :
    Answered m s (mgmtSend .port m u) := by
  refine ⟨rfl, ?_, hlong⟩
  show satAdd 32 u.mgmt.served 1 = _
  rw [hserved, satAdd_one]

theorem answeredLater_beginLong {s u : State} (hnow : u.now = s.now) (kind : LongKind) (m : List Byte) (bound : Nat) :
    AnsweredLater m bound s (beginLong kind bound m u) :=
  ⟨_, rfl, rfl, rfl, hnow, rfl⟩

/-- Free bytes come from the count of free values alone, eight for each value. -/
theorem freeBytes_shape (n : Nat) (s : State) : (freeBytes n s).1.length = 8 * n ∧ ∃ k, (freeBytes n s).2 = { s with freeCount := k } := by
  induction n generalizing s with
  | zero => exact ⟨rfl, s.freeCount, rfl⟩
  | succ n ih =>
    obtain ⟨hlength, k, hstate⟩ := ih (drawFree s).2
    refine ⟨?_, k, ?_⟩
    · rw [freeBytes, List.length_append, hlength, length_bytesOfNat]
      omega
    · rw [freeBytes, hstate]
      rfl

/-! ### Requests as they are served -/

theorem spdmGated_of_serves {s : State} (h : MgmtServes s) (r : SpdmRequest) : spdmGated r s = serveSpdm r (noted s) := by
  rw [spdmGated, mgmtGate_of_serves h]
  rfl

theorem afterNegotiation_noted {s : State} (h : s.mgmt.spdm = .negotiated) (f : State → State) : afterNegotiation f (noted s) = f (noted s) :=
  if_pos h

section
variable {s : State} (h : MgmtServes s)
include h

theorem exec_getVersion : exec .getVersion s = .next (spdmStep .version (spdmMessage 0x04 0 0 ([0, 1] ++ bytesOfNat 2 0x1300))
    (updMgmt (fun m => { m with sessions := [] }) (noted s))) := congrArg Host.Outcome.next (spdmGated_of_serves h .getVersion)

theorem exec_getCapabilities (hstage : s.mgmt.spdm = .version) : exec .getCapabilities s =
    .next (spdmStep .capabilities (spdmMessage 0x61 0 0 (capabilities (noted s)).1) (capabilities (noted s)).2) :=
  congrArg Host.Outcome.next ((spdmGated_of_serves h .getCapabilities).trans (if_pos hstage))

theorem exec_negotiateAlgorithms (hstage : s.mgmt.spdm = .capabilities) : exec .negotiateAlgorithms s =
    .next (spdmStep .negotiated (spdmMessage 0x63 4 0 algorithms) (noted s)) :=
  congrArg Host.Outcome.next ((spdmGated_of_serves h .negotiateAlgorithms).trans (if_pos hstage))

theorem spdmStep_answers {u : State} (hserved : u.mgmt.served = s.mgmt.served) (hlong : u.mgmt.long = s.mgmt.long) (hmem : u.mem = s.mem)
    (stage : SpdmStage) (m : List Byte) : Answered m s (spdmStep stage m u) ∧ (spdmStep stage m u).mgmt.spdm = stage ∧
      (spdmStep stage m u).mgmt.sessions = u.mgmt.sessions ∧ (spdmStep stage m u).mem = s.mem :=
  ⟨answered_mgmtSend hserved (hlong.trans h.2.1) m, rfl, rfl, hmem⟩

end

section
variable {session : Option Nat} {s : State} (h : SpdmServes session s)
include h

theorem exec_getDigests : exec .getDigests s =
    .next (mgmtSend .port (spdmMessage 0x01 0 1 (digestBytes (sha384 Config.certificateChain))) (noted s)) := by
  show Host.Outcome.next (spdmGated .getDigests s) = _
  rw [spdmGated_of_serves h.1, serveSpdm, getDigests, afterNegotiation_noted h.2.1]

theorem exec_getCertificate_of_in {off : Nat} (len : Nat) (hoff : off ≤ Config.certificateChain.length) :
    exec (.getCertificate 0 off len) s = .next (mgmtSend .port (spdmMessage 0x02 0 0
      (bytesOfNat 2 ((Config.certificateChain.drop off).take len).length ++
        bytesOfNat 2 ((Config.certificateChain.drop off).length - ((Config.certificateChain.drop off).take len).length) ++
        (Config.certificateChain.drop off).take len)) (noted s)) := by
  show Host.Outcome.next (spdmGated (.getCertificate 0 off len) s) = _
  rw [spdmGated_of_serves h.1, serveSpdm, getCertificate, afterNegotiation_noted h.2.1]
  dsimp only
  rw [if_pos ⟨rfl, hoff⟩]

theorem exec_getCertificate_of_out {off : Nat} (len : Nat) (hoff : Config.certificateChain.length < off) :
    exec (.getCertificate 0 off len) s = .next (mgmtSend .port (spdmError 1) (noted s)) := by
  show Host.Outcome.next (spdmGated (.getCertificate 0 off len) s) = _
  rw [spdmGated_of_serves h.1, serveSpdm, getCertificate, afterNegotiation_noted h.2.1]
  dsimp only
  rw [if_neg fun hin => Nat.not_le.2 hoff hin.2]

theorem exec_challenge (nonce : List Byte) : exec (.challenge 0 nonce) s =
    .next (beginLong .spdm 200000 (spdmMessage 0x03 0 1 (nonce ++ (freeBytes 12 (noted s)).1)) (freeBytes 12 (noted s)).2) := by
  show Host.Outcome.next (spdmGated (.challenge 0 nonce) s) = _
  rw [spdmGated_of_serves h.1, serveSpdm, challenge, afterNegotiation_noted h.2.1, if_pos rfl]

theorem exec_getMeasurements {i : Nat} {bs : List Byte} (hbs : measurements s i = some bs) : exec (.getMeasurements none i false) s =
    .next (mgmtSend .port (spdmMessage 0x60 0 0 bs) (noted s)) := by
  have hnoted : measurements (noted s) i = some bs := hbs
  show Host.Outcome.next (spdmGated (.getMeasurements none i false) s) = _
  rw [spdmGated_of_serves h.1, serveSpdm, getMeasurements, afterNegotiation_noted h.2.1]
  simp [hnoted]

/-- A session begun by a requester, under the next identifier. -/
def addedSession (r : Nat) (m : MgmtBlock) : MgmtBlock :=
  { m with sessions := m.sessions ++ [{ id := m.nextSession, requester := r }], nextSession := m.nextSession + 1 }

theorem exec_keyExchange_of_room (r : Nat) (hroom : s.mgmt.sessions.length < 4) : exec (.keyExchange r) s =
    .next (beginLong .spdm 300000 (spdmMessage 0x64 0 0 (bytesOfNat 2 s.mgmt.nextSession ++ [1, 0] ++ (freeBytes 28 (noted s)).1))
      (updMgmt (addedSession r) (freeBytes 28 (noted s)).2)) := by
  obtain ⟨-, k, hstate⟩ := freeBytes_shape 28 (noted s)
  have hfew : ¬ 4 ≤ (noted s).mgmt.sessions.length := Nat.not_le.2 hroom
  show Host.Outcome.next (spdmGated (.keyExchange r) s) = _
  rw [spdmGated_of_serves h.1, serveSpdm, keyExchange, afterNegotiation_noted h.2.1, if_neg hfew]
  dsimp only
  rw [hstate]
  rfl

theorem exec_keyExchange_of_full (r : Nat) (hfull : 4 ≤ s.mgmt.sessions.length) :
    exec (.keyExchange r) s = .next (mgmtSend .port (spdmError 0x0A) (noted s)) := by
  have hfour : 4 ≤ (noted s).mgmt.sessions.length := hfull
  show Host.Outcome.next (spdmGated (.keyExchange r) s) = _
  rw [spdmGated_of_serves h.1, serveSpdm, keyExchange, afterNegotiation_noted h.2.1, if_pos hfour]

end

/-! ### The session of a connection that has one -/

section
variable {i : Nat} {x : SpdmSession} {s : State} (h : SpdmServes none s) (hx : s.mgmt.sessions = [x]) (hi : x.id = i)
include hx hi

theorem sessionOf_noted : sessionOf (noted s) i = some x := by
  show s.mgmt.sessions.find? _ = _
  rw [hx]
  simp [hi]

theorem sessions_updSession (f : SpdmSession → SpdmSession) : (updSession i f (noted s)).mgmt.sessions = [f x] := by
  show s.mgmt.sessions.map _ = _
  rw [hx]
  simp [hi]

theorem sessions_dropSession : (dropSession i (noted s)).mgmt.sessions = [] := by
  show s.mgmt.sessions.filter _ = _
  rw [hx]
  simp [hi]

include h

theorem exec_finish (hnew : x.established = false) : exec (.finish i true) s =
    .next (beginLong .spdm 50000 (spdmMessage 0x65 0 0 [])
      (updSession i (fun x => { x with established := true, lastHeartbeat := s.now }) (noted s))) := by
  show Host.Outcome.next (spdmGated (.finish i true) s) = _
  rw [spdmGated_of_serves h.1, serveSpdm, finish, afterNegotiation_noted h.2.1, sessionOf_noted hx hi]
  dsimp only
  rw [hnew]
  rfl

theorem inSession_noted (hestablished : x.established = true) (f : State → State) : inSession i f (noted s) = f (noted s) := by
  have hin : established (noted s) i = true := by
    rw [established, sessionOf_noted hx hi]
    exact hestablished
  rw [inSession, afterNegotiation_noted h.2.1, if_pos hin]

theorem exec_heartbeat (hestablished : x.established = true) : exec (.heartbeat i) s =
    .next (mgmtSend .port (spdmMessage 0x68 0 0 []) (updSession i (fun x => { x with lastHeartbeat := s.now }) (noted s))) := by
  show Host.Outcome.next (spdmGated (.heartbeat i) s) = _
  rw [spdmGated_of_serves h.1, serveSpdm, heartbeat, inSession_noted h hx hi hestablished]
  rfl

theorem exec_keyUpdate (hestablished : x.established = true) : exec (.keyUpdate i) s =
    .next (mgmtSend .port (spdmMessage 0x69 0 0 []) (updSession i (fun x => { x with keyUpdates := x.keyUpdates + 1 }) (noted s))) := by
  show Host.Outcome.next (spdmGated (.keyUpdate i) s) = _
  rw [spdmGated_of_serves h.1, serveSpdm, keyUpdate, inSession_noted h hx hi hestablished]

theorem exec_endSession (hestablished : x.established = true) : exec (.endSession i) s =
    .next (mgmtSend .port (spdmMessage 0x6C 0 0 []) (dropSession i (noted s))) := by
  show Host.Outcome.next (spdmGated (.endSession i) s) = _
  rw [spdmGated_of_serves h.1, serveSpdm, closeSession, inSession_noted h hx hi hestablished]

end

/-- Settles O50: each request as it is served, and the answer it leaves. -/
theorem spdmConnectionMoves : Obligations.SpdmConnectionMoves := by
  refine ⟨fun s h => ⟨?_, fun hstage => ?_, fun hstage => ?_⟩, fun s h => ⟨?_, fun off len => ?_, fun nonce => ?_, fun i bs hbs => ?_,
    fun r hroom => ?_, fun r hfull => ?_⟩, fun i x s h hx hi => ⟨fun hnew => ?_, fun hestablished => ⟨?_, ?_, ?_⟩⟩⟩
  · obtain ⟨hanswer, hspdm, hsessions, hmem⟩ := spdmStep_answers h (u := updMgmt (fun m => { m with sessions := [] }) (noted s)) rfl rfl rfl
      .version (spdmMessage 0x04 0 0 ([0, 1] ++ bytesOfNat 2 0x1300))
    exact ⟨_, exec_getVersion h, hanswer, hspdm, hsessions, hmem⟩
  · obtain ⟨hanswer, hspdm, -, hmem⟩ := spdmStep_answers h (u := (capabilities (noted s)).2) rfl rfl rfl
      .capabilities (spdmMessage 0x61 0 0 (capabilities (noted s)).1)
    exact ⟨_, _, exec_getCapabilities h hstage, length_bytesOfNat 8 (drawFree (noted s)).1.toNat, hanswer, hspdm, hmem⟩
  · obtain ⟨hanswer, hspdm, -, hmem⟩ := spdmStep_answers h (u := noted s) rfl rfl rfl .negotiated (spdmMessage 0x63 4 0 algorithms)
    exact ⟨_, exec_negotiateAlgorithms h hstage, hanswer, hspdm, hmem⟩
  · refine ⟨_, _, exec_getDigests h, answered_mgmtSend rfl h.1.2.1 _, ?_, rfl⟩
    rw [digestBytes, List.length_reverse, length_bytesOfNat]
  · by_cases hin : off ≤ Config.certificateChain.length
    · exact ⟨_, exec_getCertificate_of_in h len hin, rfl, fun _ => answered_mgmtSend rfl h.1.2.1 _, fun hout => absurd hin (Nat.not_le.2 hout)⟩
    · exact ⟨_, exec_getCertificate_of_out h len (Nat.not_le.1 hin), rfl, fun h => absurd h hin, fun _ => answered_mgmtSend rfl h.1.2.1 _⟩
  · obtain ⟨hlength, k, hstate⟩ := freeBytes_shape 12 (noted s)
    exact ⟨_, _, exec_challenge h nonce, answeredLater_beginLong (by rw [hstate]; rfl) _ _ _, hlength, by rw [hstate]; rfl⟩
  · exact ⟨_, exec_getMeasurements h hbs, answered_mgmtSend rfl h.1.2.1 _, rfl⟩
  · obtain ⟨-, k, hstate⟩ := freeBytes_shape 28 (noted s)
    refine ⟨_, _, exec_keyExchange_of_room h r hroom, answeredLater_beginLong (by rw [hstate]; rfl) _ _ _, ?_, ?_⟩
    · rw [hstate]; rfl
    · rw [hstate]; rfl
  · exact ⟨_, exec_keyExchange_of_full h r hfull, answered_mgmtSend rfl h.1.2.1 _, rfl⟩
  · exact ⟨_, exec_finish h hx hi hnew, answeredLater_beginLong rfl _ _ _, sessions_updSession hx hi _, rfl⟩
  · exact ⟨_, exec_heartbeat h hx hi hestablished, answered_mgmtSend rfl h.1.2.1 _, sessions_updSession hx hi _⟩
  · exact ⟨_, exec_keyUpdate h hx hi hestablished, answered_mgmtSend rfl h.1.2.1 _, sessions_updSession hx hi _⟩
  · exact ⟨_, exec_endSession h hx hi hestablished, answered_mgmtSend rfl h.1.2.1 _, sessions_dropSession hx hi⟩

end Sys2Proof.Machine
end

