-- ==== Sys2Proof/Proofs/EnclaveOps.lean ====
section
/-!
PROOFS. Proofs/EnclaveOps.lean: the sealed stakes of the bulk tier as memory holds them (R261, R307), and the enclave operations that a
session asks for (R306, R310, R368, R444).
-/

namespace Sys2Proof.Machine

/-! ### Whole units of a sealed stake (R307) -/

section
variable {pa k : Nat} (hunit : pa % 512 = 0)
include hunit

theorem units_of_range : (pa + k * 512 + 511) / 512 - pa / 512 = k := by omega

theorem unit_addr : pa / 512 * 512 = pa := by omega

/-- Whole units are replaced: nothing that stood there before is mixed in. -/
theorem mem_homeStore_sealed {bs : List Byte} (hbs : bs.length = k * 512) (key : BitVec 512) (s : State) :
    (homeStore (.sealed key) pa bs s).mem = memWrite s.mem pa (xtsRange true key k (pa / 512) bs) := by
  have hold (x : List Byte) : (xtsRange false key k (pa / 512) x).drop bs.length = [] := by
    rw [List.drop_eq_nil_iff, length_xtsRange, hbs]
    omega
  show memWrite s.mem _ _ = _
  simp only [hbs, units_of_range hunit, unit_addr hunit, Nat.sub_self, List.take_zero, List.nil_append, Nat.zero_add]
  rw [← hbs, hold, List.append_nil]

theorem decryptedAt_of_units (s : State) (key : BitVec 512) :
    decryptedAt s key pa (k * 512) = xtsRange false key k (pa / 512) (memRead s.mem pa (k * 512)) := by
  have hlength (x : List Byte) : (xtsRange false key k (pa / 512) x).length = k * 512 := by rw [length_xtsRange, Nat.mul_comm]
  simp only [decryptedAt, units_of_range hunit, unit_addr hunit, Nat.sub_self, rawRead]
  rw [sliceBytes_of_le (by rw [hlength]; omega), List.drop_zero, List.take_of_length_le (by rw [hlength])]

end

theorem physWrite_of_within {q : Requester} {pa : Nat} {bs : List Byte} {s : State} (h : ServesWrite q pa bs.length s) (hbs : bs.length ≠ 0)
    (hwithin : pa / stakeSize = (pa + bs.length - 1) / stakeSize) : physWrite q pa bs s = (.done (), placeBytes q pa bs s) := by
  obtain ⟨hregion, harmed, -, hpieces⟩ := h
  have hpiece := piecesOf_of_within stakeSize_pos hbs hwithin
  have hrefusal : pieceRefusal s q (pa, bs.length) = none := hpieces _ (by rw [hpiece]; exact List.mem_singleton_self _)
  have hslice : sliceBytes bs (pa - pa) bs.length = bs := by
    rw [Nat.sub_self, sliceBytes_of_le (by omega), List.drop_zero, List.take_length]
  have hnone : firstSome (fun p => if writePosted s q false p.1 then none else (pieceRefusal s q p).map fun c => (c, p.1))
      [(pa, bs.length)] = none :=
    firstSome_eq_none _ fun p hp => by simp [List.mem_singleton.1 hp, hrefusal]
  unfold physWrite
  rcases hregion with hr | hr <;>
    simp only [hr, stakeTableRead_of_unarmed harmed, hpiece, hnone, List.foldl_cons, List.foldl_nil, writePiece, hrefusal, hslice]

/-- A write of one stake goes to its home under the stake's key. -/
theorem mem_placeBytes_of_within {q : Requester} {pa : Nat} {bs : List Byte} {s : State} (hquiet : scattersAround s q = [])
    (hbs : bs.length ≠ 0) (hwithin : pa / stakeSize = (pa + bs.length - 1) / stakeSize) :
    ∃ t, t.mem = s.mem ∧ (placeBytes q pa bs s).mem = (homeStore (stakeKey s pa) pa bs t).mem := by
  obtain ⟨t, heq, hmoved, hmem⟩ := placeBytes_of_quiet hquiet pa bs
  refine ⟨t, hmem, ?_⟩
  have hslice : sliceBytes bs (pa - pa) bs.length = bs := by
    rw [Nat.sub_self, sliceBytes_of_le (by omega), List.drop_zero, List.take_length]
  rw [heq, plainWrite, piecesOf_of_within stakeSize_pos hbs hwithin, List.foldl_cons, List.foldl_nil, hslice, stakeKey_of_moved hmoved]

/-- Sealed bulk stakes hold what XTS-AES leaves of the units written, and read as what was written. -/
theorem sealedUnits {q : Requester} {pa k : Nat} {key : BitVec 512} {bs : List Byte} {s : State} (hk : 0 < k) (hunit : pa % 512 = 0)
    (hwithin : pa / stakeSize = (pa + k * 512 - 1) / stakeSize) (hregion : regionOf pa = .bulk) (hkey : stakeKey s pa = .sealed key)
    (hbs : bs.length = k * 512) :
    (ServesWrite q pa (k * 512) s → ∃ t, physWrite q pa bs s = (.done (), t) ∧
      t.mem = memWrite s.mem pa (xtsRange true key k (pa / 512) bs)) ∧
    (ServesRead q pa (k * 512) s → physRead q pa (k * 512) s = (.done (xtsRange false key k (pa / 512) (memRead s.mem pa (k * 512))), s)) := by
  have hnonzero : k * 512 ≠ 0 := by omega
  refine ⟨fun hserves => ?_, fun hserves => ?_⟩
  · rw [← hbs] at hserves hwithin hnonzero
    obtain ⟨t, ht, hmem⟩ := mem_placeBytes_of_within (q := q) hserves.2.2.1 hnonzero hwithin
    exact ⟨_, physWrite_of_within hserves hnonzero hwithin, by rw [hmem, hkey, mem_homeStore_sealed hunit hbs, ht]⟩
  · have hflash : ¬ regionOf pa = .flash := by rw [hregion]; decide
    rw [physRead_of_serves hserves, plainRead, piecesOf_of_within stakeSize_pos hnonzero hwithin, List.flatMap_singleton, hkey, homeBytes,
      if_neg hflash, decryptedAt_of_units hunit]

/-! ### A session's operation as it is served (R444) -/

/-- An operation that leaves a code and a state is answered with that code, later. -/
theorem exec_enclaveOp {session bound : Nat} {op : State → W16 × State} {code : W16} {s v : State} (h : SpdmServes (some session) s)
    (hop : op (noted s) = (code, v)) (hpart : v.part = s.part) :
    enclaveOp session bound op (noted s) = beginLong .enclave bound (enclaveResponse s code) v := by
  have hestablished : established (noted s) session = true := h.2.2 session rfl
  rw [enclaveOp, inSession, afterNegotiation_noted h.2.1, if_pos hestablished, runEnclave, hop, enclaveResponse, hpart]
  rfl

section
variable {session : Nat} {s v : State} (h : SpdmServes (some session) s) {code : W16}
include h

theorem exec_sealContext {context : Nat} {k : KeySource} (hop : sealContext session context k (noted s) = (code, v)) (hpart : v.part = s.part) :
    exec (.sealContext session context k) s = .next (beginLong .enclave 10000 (enclaveResponse s code) v) := by
  show Host.Outcome.next (spdmGated (.sealContext session context k) s) = _
  rw [spdmGated_of_serves h.1, serveSpdm, exec_enclaveOp h hop hpart]

theorem exec_sealStakes {context addr count : Nat} (hop : sealStakes session context addr count (noted s) = (code, v)) (hpart : v.part = s.part) :
    exec (.sealStakes session context addr count) s = .next (beginLong .enclave (sealBound count) (enclaveResponse s code) v) := by
  show Host.Outcome.next (spdmGated (.sealStakes session context addr count) s) = _
  rw [spdmGated_of_serves h.1, serveSpdm, exec_enclaveOp h hop hpart]

theorem exec_setExport {context addr count : Nat} {on : Bool} (hop : setExport session context addr count on (noted s) = (code, v))
    (hpart : v.part = s.part) :
    exec (.setExport session context addr count on) s = .next (beginLong .enclave 10000 (enclaveResponse s code) v) := by
  show Host.Outcome.next (spdmGated (.setExport session context addr count on) s) = _
  rw [spdmGated_of_serves h.1, serveSpdm, exec_enclaveOp h hop hpart]

theorem exec_unsealContext {context : Nat} (hop : unsealByRequester session context (noted s) = (code, v)) (hpart : v.part = s.part) :
    exec (.unsealContext session context) s = .next (beginLong .enclave 10000 (enclaveResponse s code) v) := by
  show Host.Outcome.next (spdmGated (.unsealContext session context) s) = _
  rw [spdmGated_of_serves h.1, serveSpdm, exec_enclaveOp h hop hpart]

theorem exec_installCordKey {cord epoch r q : Nat} {key : BitVec 256} (hepoch : epoch < 2)
    (hop : installCordKey cord epoch key r q (noted s) = (code, v)) (hpart : v.part = s.part) :
    exec (.installCordKey session cord epoch key r q) s = .next (beginLong .enclave 10000 (enclaveResponse s code) v) := by
  show Host.Outcome.next (if epoch < 2 then spdmGated (.installCordKey session cord epoch key r q) s else s) = _
  rw [if_pos hepoch, spdmGated_of_serves h.1, serveSpdm, exec_enclaveOp h hop hpart]

theorem exec_activateCordKey {cord epoch : Nat} (hop : activateCordKey cord epoch (noted s) = (code, v)) (hpart : v.part = s.part) :
    exec (.activateCordKey session cord epoch) s = .next (beginLong .enclave 10000 (enclaveResponse s code) v) := by
  show Host.Outcome.next (spdmGated (.activateCordKey session cord epoch) s) = _
  rw [spdmGated_of_serves h.1, serveSpdm, exec_enclaveOp h hop hpart]

theorem exec_eraseCordKey {cord epoch : Nat} (hop : eraseCordKey cord epoch (noted s) = (code, v)) (hpart : v.part = s.part) :
    exec (.eraseCordKey session cord epoch) s = .next (beginLong .enclave 10000 (enclaveResponse s code) v) := by
  show Host.Outcome.next (spdmGated (.eraseCordKey session cord epoch) s) = _
  rw [spdmGated_of_serves h.1, serveSpdm, exec_enclaveOp h hop hpart]

theorem exec_vendorDefined {opcode bound : Nat} {payload : List Byte} {op : State → W16 × State}
    (hop : vendorOp session opcode payload = some (bound, op)) :
    exec (.vendorDefinedRequest (some session) 3 s.part.vendor opcode payload) s = .next (runEnclave bound op (noted s)) := by
  have hestablished : established (noted s) session = true := h.2.2 session rfl
  have hvendor : ¬((3 : Nat) ≠ 3 ∨ s.part.vendor ≠ (noted s).part.vendor) := by simp [noted]
  show Host.Outcome.next (spdmGated (.vendorDefined (some session) 3 s.part.vendor opcode payload) s) = _
  rw [spdmGated_of_serves h.1, serveSpdm, vendorDefined, afterNegotiation_noted h.2.1]
  simp only [hestablished, if_neg hvendor, hop, Bool.not_true, Bool.false_eq_true, if_false]

theorem exec_vendorDefined_of_other {standard vendor opcode : Nat} {payload : List Byte} (hother : standard ≠ 3 ∨ vendor ≠ s.part.vendor) :
    exec (.vendorDefinedRequest (some session) standard vendor opcode payload) s = .next (mgmtSend .port (spdmError 1) (noted s)) := by
  have hestablished : established (noted s) session = true := h.2.2 session rfl
  have hvendor : standard ≠ 3 ∨ vendor ≠ (noted s).part.vendor := hother
  show Host.Outcome.next (spdmGated (.vendorDefined (some session) standard vendor opcode payload) s) = _
  rw [spdmGated_of_serves h.1, serveSpdm, vendorDefined, afterNegotiation_noted h.2.1]
  simp only [hestablished, if_pos hvendor, Bool.not_true, Bool.false_eq_true, if_false]

end

/-! ### Contexts and stakes (R306, R310) -/

theorem sealContext_of_new {session context : Nat} {c : Settings} {k : BitVec 512} {s : State} (hcfg : s.cfg = some c) (hsealing : c.sealing = true)
    (hlow : 2 ≤ context) (hhigh : context ≤ 0xFFEF) (hplain : isSealed s context = false) (hnone : ownedStakes s context = [])
    (hroom : s.stakes.sealedContexts.length < 1024) : sealContext session context (.imported k) s = (0, { s with stakes := { s.stakes with
      sealedContexts := ⟨context, some k, true, requesterOf s session⟩ :: s.stakes.sealedContexts } }) := by
  have hchecks : ¬(context < 2 ∨ 0xFFEF < context ∨ isSealed s context = true ∨ (!(ownedStakes s context).isEmpty) = true ∨
      1024 ≤ s.stakes.sealedContexts.length) := by
    rw [hplain, hnone]
    simp
    omega
  simp only [sealContext, hcfg, hsealing, if_neg hchecks, keyFrom, Bool.not_true, Bool.false_eq_true, if_false]

theorem mem_beginLong (kind : LongKind) (bound : Nat) (m : List Byte) (u : State) : (beginLong kind bound m u).mem = u.mem := rfl

theorem mem_updStakes (f : Stake → Stake) (is : List Nat) (s : State) : (updStakes f is s).mem = s.mem := rfl

theorem stakeAddr_mod_unit (i : Nat) : stakeAddr i % 512 = 0 := by
  simp only [stakeAddr, stakeSize, bulkBase]
  split <;> omega

theorem contextKey_of_sealedBy {s : State} {session context : Nat} (h : sealedBy s session context = true) : contextKey s context ≠ .plain := by
  unfold sealedBy at h
  unfold contextKey
  split
  · next hc => simp [hc] at h
  · split
    · exact fun hc => by cases hc
    · exact fun hc => by cases hc

section
variable {context i : Nat} {s : State}

theorem stakes_zeroSealed : (zeroSealed context s i).stakes = s.stakes ∧ (zeroSealed context s i).part = s.part ∧
    (zeroSealed context s i).now = s.now := by
  unfold zeroSealed
  dsimp only
  split
  · have hmoved := moved_homeStore (contextKey s context) (stakeAddr i) (List.replicate stakeSize 0) s
    exact ⟨hmoved.stakes, hmoved.part, hmoved.now⟩
  · exact ⟨rfl, rfl, rfl⟩

/-- A stake zeroed outside the package stands in memory as the ciphertext of zeros (log 68). -/
theorem mem_zeroSealed_of_bulk (hregion : regionOf (stakeAddr i) = .bulk) {key : BitVec 512} (hkey : contextKey s context = .sealed key) :
    (zeroSealed context s i).mem = memWrite s.mem (stakeAddr i) (xtsRange true key 4096 (stakeAddr i / 512) (List.replicate stakeSize 0)) := by
  have hlength : (List.replicate stakeSize (0 : Byte)).length = 4096 * 512 := by rw [List.length_replicate]; rfl
  simp only [zeroSealed, if_pos hregion, hkey]
  exact mem_homeStore_sealed (stakeAddr_mod_unit i) hlength key s

theorem memRead_zeroSealed_of_bulk (hregion : regionOf (stakeAddr i) = .bulk) {key : BitVec 512} (hkey : contextKey s context = .sealed key) :
    memRead (zeroSealed context s i).mem (stakeAddr i) stakeSize =
      xtsRange true key 4096 (stakeAddr i / 512) (List.replicate stakeSize 0) := by
  rw [mem_zeroSealed_of_bulk hregion hkey]
  generalize List.replicate stakeSize (0 : Byte) = zeros
  have hlength : (xtsRange true key 4096 (stakeAddr i / 512) zeros).length = stakeSize := by rw [length_xtsRange]; rfl
  rw [← hlength, memRead_memWrite]

theorem mem_zeroSealed_of_gone (hregion : regionOf (stakeAddr i) = .bulk) (hkey : contextKey s context = .gone) :
    (zeroSealed context s i).mem = memWrite s.mem (stakeAddr i) (List.replicate stakeSize 0) := by
  simp only [zeroSealed, if_pos hregion, hkey, homeStore, rawWrite_mem]

theorem mem_zeroSealed_of_near (hregion : regionOf (stakeAddr i) ≠ .bulk) :
    (zeroSealed context s i).mem = memZero s.mem (stakeAddr i) stakeSize := by
  simp only [zeroSealed, if_neg hregion, zeroRange_mem]

theorem sealStakes_of_owned {session addr : Nat} (his : enclaveStakes addr 1 = some [i]) (hstate : (stakeEntry s i).state = .owned)
    (howner : (stakeEntry s i).owner = context) (hsealed : (stakeEntry s i).sealed = false) (hexport : (stakeEntry s i).export_ = false)
    (hby : sealedBy s session context = true) : sealStakes session context addr 1 s =
      (0, updStakes (fun k => { k with sealed := true }) [i] (zeroSealed context s i)) := by
  simp [sealStakes, his, hstate, howner, hsealed, hexport, hby]

theorem setExport_of_owned {session addr : Nat} {on : Bool} (his : enclaveStakes addr 1 = some [i]) (hstate : (stakeEntry s i).state = .owned)
    (howner : (stakeEntry s i).owner = context) (hsealed : (stakeEntry s i).sealed = false) (hby : sealedBy s session context = true) :
    setExport session context addr 1 on s = (0, updStakes (fun k => { k with export_ := on }) [i] s) := by
  simp [setExport, his, hstate, howner, hsealed, hby]

theorem unsealContext_rest (c : Nat) (s : State) : (unsealContext c s).mem = s.mem ∧ (unsealContext c s).part = s.part ∧
    (unsealContext c s).now = s.now := by
  have hcarry : (carryAssign s).mem = s.mem ∧ (carryAssign s).part = s.part ∧ (carryAssign s).now = s.now := by
    unfold carryAssign
    split <;> exact ⟨rfl, rfl, rfl⟩
  have hunseal : ∀ is, (beginRelease is s).mem = (carryAssign s).mem ∧ (beginRelease is s).part = (carryAssign s).part ∧
      (beginRelease is s).now = (carryAssign s).now := fun is => ⟨rfl, rfl, rfl⟩
  obtain ⟨hmem, hpart, hnow⟩ := hunseal (ownedStakes (carryAssign s) c)
  exact ⟨hmem.trans hcarry.1, hpart.trans hcarry.2.1, hnow.trans hcarry.2.2⟩

end

/-! ### Cord keys (R368) -/

/-- What goes on when ports look for their keys: memory, the clock, the part, and the keys themselves. -/
structure KeysStay (s t : State) : Prop where
  mem : t.mem = s.mem
  part : t.part = s.part
  now : t.now = s.now
  keys : t.fabric.keys = s.fabric.keys
  sendEpoch : t.fabric.sendEpoch = s.fabric.sendEpoch

theorem KeysStay.refl (s : State) : KeysStay s s := ⟨rfl, rfl, rfl, rfl, rfl⟩

theorem KeysStay.trans {s t u : State} (h : KeysStay s t) (h' : KeysStay t u) : KeysStay s u :=
  ⟨h'.mem.trans h.mem, h'.part.trans h.part, h'.now.trans h.now, h'.keys.trans h.keys, h'.sendEpoch.trans h.sendEpoch⟩

theorem keysStay_updPort (p : Nat) (f : Port → Port) (s : State) : KeysStay s (updPort p f s) := ⟨rfl, rfl, rfl, rfl, rfl⟩

theorem keysStay_notePort (s : State) : KeysStay s (notePort s) := ⟨rfl, rfl, rfl, rfl, rfl⟩

theorem keysStay_updFabric {f : FabricBlock → FabricBlock} (hf : ∀ b, (f b).keys = b.keys ∧ (f b).sendEpoch = b.sendEpoch) (s : State) :
    KeysStay s (updFabric f s) := ⟨rfl, rfl, rfl, (hf s.fabric).1, (hf s.fabric).2⟩

theorem keysStay_report (e : ErrRecord) (s : State) : KeysStay s (report e s) := by
  obtain ⟨b, hform | ⟨n, hform⟩⟩ := report_forms e s
  · rw [hform]; exact ⟨rfl, rfl, rfl, rfl, rfl⟩
  · rw [hform]; exact (⟨rfl, rfl, rfl, rfl, rfl⟩ : KeysStay s { s with err := b }).trans (keysStay_updPort ..)

theorem keysStay_ite {c : Prop} [Decidable c] {s t u : State} (ht : KeysStay s t) (hu : KeysStay s u) : KeysStay s (if c then t else u) := by
  split
  · exact ht
  · exact hu

/-- The system root begins to acquire its time. -/
def acquiredAt (now : Nat) (b : FabricBlock) : FabricBlock := { b with timeState := .acquiring, rootSince := some now }

theorem keysStay_portUp (p epoch : Nat) (s : State) : KeysStay s (portUp p epoch s) := by
  unfold portUp
  dsimp only
  generalize hq : portOf s p = q
  have hup : KeysStay s (countFrames (if p < 71 then 1 else 0) p (updPort p (fun q => { q with
      state := .up, keyEpoch := epoch, lastSent := s.now, lastReceived := s.now, sent := 0, taken := 0, replayFrom := none
      code := if q.wasUp then 0x7104 else q.code, wasUp := false }) (notePort s))) :=
    ((keysStay_notePort s).trans (keysStay_updPort ..)).trans (keysStay_updPort ..)
  have htold := keysStay_ite (c := q.wasUp = true) (hup.trans (keysStay_report { code := 0x7104, source := srcModule s } _)) hup
  have hpeer := keysStay_ite (c := p < 47) (htold.trans (keysStay_updFabric (f := tookPeer q) (fun _ => ⟨rfl, rfl⟩) _)) htold
  split
  · exact keysStay_ite (hpeer.trans (keysStay_updFabric (f := acquiredAt s.now) (fun _ => ⟨rfl, rfl⟩) _)) hpeer
  · exact hpeer

theorem keysStay_portReady (p : Nat) (s : State) : KeysStay s (portReady p s) := by
  have hwait : KeysStay s (updPort p (fun q => { q with state := .keyWait }) (notePort s)) :=
    (keysStay_notePort s).trans (keysStay_updPort ..)
  unfold portReady
  split
  · exact keysStay_ite (keysStay_portUp ..) hwait
  · exact hwait

theorem keysStay_foldl {α : Type} {f : State → α → State} (hf : ∀ a t, KeysStay t (f t a)) (l : List α) (s : State) :
    KeysStay s (l.foldl f s) := by
  induction l generalizing s with
  | nil => exact .refl s
  | cons a l ih => exact (hf a s).trans (ih _)

theorem keysStay_wakePorts (s : State) : KeysStay s (wakePorts s) := keysStay_foldl (fun p => keysStay_portReady p) _ s

theorem keysStay_clearNonces (cord epoch : Nat) (s : State) : KeysStay s (clearNonces cord epoch s) :=
  keysStay_foldl (fun p => keysStay_updPort p _) _ s

theorem hasKey_of_keysStay {s t : State} (h : KeysStay s t) (cord epoch : Nat) : hasKey t cord epoch = hasKey s cord epoch := by
  rw [hasKey, h.keys, hasKey]

theorem sendingEpoch_of_keysStay {s t : State} (h : KeysStay s t) (cord : Nat) : sendingEpoch t cord = sendingEpoch s cord := by
  rw [sendingEpoch, h.sendEpoch, sendingEpoch]

/-- The keys of the Genpex block with one more, the first of a cord in use at once (log 33). -/
def keyInstalled (cord epoch : Nat) (key : BitVec 256) (f : FabricBlock) : FabricBlock :=
  { f with
    keys := ⟨cord, epoch, key⟩ :: f.keys.filter fun k => !(k.cord == cord && k.epoch == epoch)
    sendEpoch := if f.sendEpoch.get 0 cord = 0 then f.sendEpoch.set 0 cord (epoch + 1) else f.sendEpoch }

/-- A cord key that verifies is installed. -/
theorem installCordKey_of_signed {cord epoch r q : Nat} {key : BitVec 256} {s : State} (hsigned : cordKeySigned s cord epoch key r q = true)
    (hcord : holdsCord s cord = true) (hother : sendingEpoch s cord ≠ some epoch) :
    ∃ v, installCordKey cord epoch key r q s = (0, v) ∧ hasKey v cord epoch = true ∧ v.mem = s.mem ∧ v.part = s.part ∧ v.now = s.now := by
  have hstay := (keysStay_clearNonces cord epoch (updFabric (keyInstalled cord epoch key) s)).trans (keysStay_wakePorts _)
  refine ⟨_, ?_, ?_, hstay.mem, hstay.part, hstay.now⟩
  · simp only [installCordKey, hsigned, hcord, if_neg hother, Bool.not_true, Bool.false_eq_true, if_false]
    rfl
  · rw [hasKey_of_keysStay hstay]
    simp [hasKey, keyInstalled, updFabric]

/-- The ports of a cord that are UP send under an epoch. -/
def sentUnder (cord epoch : Nat) (s : State) : State :=
  ((List.range 72).filter fun p => receivingCord s p == cord && isUp s p).foldl (fun s p => updPort p (fun q => { q with keyEpoch := epoch }) s) s

theorem activateCordKey_of_key {cord epoch : Nat} {s : State} (hkey : hasKey s cord epoch = true) :
    ∃ v, activateCordKey cord epoch s = (0, v) ∧ sendingEpoch v cord = some epoch ∧ v.mem = s.mem ∧ v.part = s.part ∧ v.now = s.now := by
  generalize hs1 : updFabric (fun f => { f with sendEpoch := f.sendEpoch.set 0 cord (epoch + 1) }) s = s1
  have hstay : KeysStay s1 (wakePorts (sentUnder cord epoch s1)) :=
    (keysStay_foldl (fun p => keysStay_updPort p _) _ s1).trans (keysStay_wakePorts _)
  have hactivate : activateCordKey cord epoch s = (0, wakePorts (sentUnder cord epoch s1)) := by
    simp only [activateCordKey, hkey, Bool.not_true, Bool.false_eq_true, if_false, hs1, sentUnder]
  subst hs1
  refine ⟨_, hactivate, ?_, hstay.mem, hstay.part, hstay.now⟩
  rw [sendingEpoch_of_keysStay hstay]
  have hset : (s.fabric.sendEpoch.set 0 cord (epoch + 1)).get 0 cord = epoch + 1 := Table.get_set_self ..
  simp [sendingEpoch, updFabric, hset]

theorem eraseCordKey_of_unused {cord epoch : Nat} {s : State} (hother : sendingEpoch s cord ≠ some epoch) :
    ∃ v, eraseCordKey cord epoch s = (0, v) ∧ hasKey v cord epoch = false ∧ v.mem = s.mem ∧ v.part = s.part ∧ v.now = s.now := by
  refine ⟨_, if_neg hother, ?_, rfl, rfl, rfl⟩
  simp only [hasKey, updFabric, List.any_filter, List.any_eq_false]
  intro k _
  cases (k.cord == cord && k.epoch == epoch) <;> exact Bool.false_ne_true

/-- Settles O49: whole units under XTS-AES, then each operation of a session by what it leaves. -/
theorem enclaveOperationsAct : Obligations.EnclaveOperationsAct := by
  refine ⟨fun q pa k key bs s hk hunit hwithin hregion hkey hbs => ?_, fun session context s h => ⟨fun c k hcfg hsealing hlow hhigh hplain hnone
    hroom => ?_, fun addr i his hstate howner hsealed hby => ⟨fun hexport => ?_, fun on => ?_⟩, fun hby => ?_, fun hby => ?_,
    fun cord epoch key r q hepoch hsigned hcord hother => ?_, fun cord epoch key r q hepoch hsigned => ?_, fun cord epoch hkey => ?_,
    fun cord epoch hother => ?_, fun opcode payload op bound hop => exec_vendorDefined h hop, fun standard vendor opcode payload hother => ?_⟩⟩
  · obtain ⟨hwrite, hread⟩ := sealedUnits (q := q) hk hunit hwithin hregion hkey hbs
    have hlength : (xtsRange true key k (pa / 512) bs).length = k * 512 := by rw [length_xtsRange, Nat.mul_comm]
    refine ⟨fun hserves => ?_, hread⟩
    obtain ⟨t, hphys, hmem⟩ := hwrite hserves
    refine ⟨t, hphys, ?_, fun a ha => ?_⟩
    · rw [hmem, ← hlength, memRead_memWrite]
    · rw [hmem, memGet_memWrite_of_out _ _ _ (by rw [hlength]; exact ha)]
  · exact ⟨_, exec_sealContext h (sealContext_of_new (s := noted s) hcfg hsealing hlow hhigh hplain hnone hroom) rfl,
      answeredLater_beginLong rfl _ _ _, rfl, rfl⟩
  · obtain ⟨hstakes, hpart, hnow⟩ := stakes_zeroSealed (context := context) (i := i) (s := noted s)
    have hexec := exec_sealStakes h (sealStakes_of_owned (s := noted s) his hstate howner hsealed hexport hby) hpart
    have hentry : ∀ j, stakeEntry (updStakes (fun k => { k with sealed := true }) [i] (zeroSealed context (noted s) i)) j =
        if j ∈ [i] then { stakeEntry s j with sealed := true } else stakeEntry s j := by
      intro j
      rw [stakeEntry_updStakes (fun k => { k with sealed := true }) _ _ _ fun _ => rfl, stakeEntry_congr (congrArg StakeBlock.table hstakes)]
      rfl
    have hlength (x : List Byte) (key : BitVec 512) : (xtsRange true key 4096 (stakeAddr i / 512) x).length = stakeSize := by
      rw [length_xtsRange]; rfl
    refine ⟨_, hexec, answeredLater_beginLong hnow _ _ _, (hentry i).trans (if_pos (List.mem_singleton_self i)),
      fun j hj => (hentry j).trans (if_neg (by simpa using hj)), fun hzero a hlow hhigh => ?_, fun key hregion hkey => ?_, fun a hout => ?_⟩
    · rw [mem_beginLong, mem_updStakes]
      have hnear : regionOf (stakeAddr i) ≠ .bulk := hzero.resolve_right (contextKey_of_sealedBy hby)
      rw [mem_zeroSealed_of_near hnear, memGet_memZero, if_pos ⟨hlow, hhigh⟩]
    · rw [mem_beginLong, mem_updStakes]
      exact memRead_zeroSealed_of_bulk (s := noted s) hregion hkey
    · rw [mem_beginLong, mem_updStakes]
      by_cases hregion : regionOf (stakeAddr i) = .bulk
      · cases hkey : contextKey s context with
        | plain => exact absurd hkey (contextKey_of_sealedBy hby)
        | sealed key =>
          rw [mem_zeroSealed_of_bulk (s := noted s) hregion hkey]
          exact memGet_memWrite_of_out _ _ _ (by rw [hlength]; exact hout)
        | gone =>
          rw [mem_zeroSealed_of_gone (s := noted s) hregion hkey]
          exact memGet_memWrite_of_out _ _ _ (by rw [List.length_replicate]; exact hout)
      · rw [mem_zeroSealed_of_near hregion]
        exact memGet_memZero_of_out _ _ _ hout
  · have hexec := exec_setExport h (setExport_of_owned (s := noted s) (on := on) his hstate howner hsealed hby) rfl
    have hentry := fun j => stakeEntry_updStakes (fun k => { k with export_ := on }) [i] (noted s) j fun _ => rfl
    exact ⟨_, hexec, answeredLater_beginLong rfl _ _ _, (hentry i).trans (if_pos (List.mem_singleton_self i)),
      fun j hj => (hentry j).trans (if_neg (by simpa using hj)), rfl⟩
  · obtain ⟨hmem, hpart, hnow⟩ := unsealContext_rest context (noted s)
    have hplain := isSealed_unsealContext context (noted s)
    have hexec := exec_unsealContext h (v := unsealContext context (noted s)) (code := 0) (if_pos hby) hpart
    exact ⟨_, hexec, answeredLater_beginLong hnow _ _ _, hplain, hmem⟩
  · have hexec := exec_unsealContext h (context := context) (v := noted s) (code := 0x5313)
      (if_neg (show ¬ sealedBy (noted s) session context = true by rw [show sealedBy (noted s) session context = false from hby]; decide)) rfl
    exact ⟨_, hexec, answeredLater_beginLong rfl _ _ _, rfl, rfl⟩
  · obtain ⟨v, hop, hkey, hmem, hpart, hnow⟩ := installCordKey_of_signed (s := noted s) hsigned hcord hother
    exact ⟨_, exec_installCordKey h hepoch hop hpart, answeredLater_beginLong hnow _ _ _, hkey, hmem⟩
  · have hop : installCordKey cord epoch key r q (noted s) = (0x7401, noted s) := by
      have hbad : cordKeySigned (noted s) cord epoch key r q = false := hsigned
      simp [installCordKey, hbad]
    exact ⟨_, exec_installCordKey h hepoch hop rfl, answeredLater_beginLong rfl _ _ _, rfl⟩
  · obtain ⟨v, hop, hepoch, hmem, hpart, hnow⟩ := activateCordKey_of_key (s := noted s) hkey
    exact ⟨_, exec_activateCordKey h hop hpart, answeredLater_beginLong hnow _ _ _, hepoch, hmem⟩
  · obtain ⟨v, hop, hkey, hmem, hpart, hnow⟩ := eraseCordKey_of_unused (s := noted s) hother
    exact ⟨_, exec_eraseCordKey h hop hpart, answeredLater_beginLong hnow _ _ _, hkey, hmem⟩
  · exact ⟨_, exec_vendorDefined_of_other h hother, answered_mgmtSend rfl h.1.2.1 _, rfl⟩

end Sys2Proof.Machine
end

