-- ==== Sys2Proof/Proofs/Transfers.lean ====
section
/-!
PROOFS. Proofs/Transfers.lean: the only transfer of the port dies, of no task: its hand-over, its claims on slots, its offers, and its
end (R378–R384, R387); and an offer at its destination (R380, R381).
-/

namespace Sys2Proof.Machine

/-! ### The only transfer -/

section
variable {x : Transfer} {s : State} (h : s.fabric.transfers = [x])
include h

theorem findTransfer_only : findTransfer s x.id = some x := by simp [findTransfer, h]

theorem updTransfer_only (g : Transfer → Transfer) :
    updTransfer x.id g s = updFabric (fun f => { f with transfers := [g x] }) s := by
  simp [updTransfer, updFabric, h]

theorem dropTransfer_only : dropTransfer x.id s = { s with fabric := { s.fabric with transfers := [] } } := by
  simp [dropTransfer, updFabric, h]

theorem failTransfer_only (hring : x.ring = none) (c : W16) : failTransfer x c s =
    report (transferRecord x c x.handle (handleEntry c x.handle) 0 s) { s with fabric := { s.fabric with transfers := [] } } := by
  rw [failTransfer, dropTransfer_only h, failBarriers, hring]

theorem failHandover_only (hring : x.ring = none) (c : W16) : failHandover x c s =
    report (transferRecord x c x.handle (handleEntry c x.handle) 0 s) { s with fabric := { s.fabric with transfers := [] } } := by
  rw [failHandover, transferTask, hring, failTransfer_only h hring]

end

/-! ### Claims (R380) -/

/-- Bytes of a transfer that are still to be sent: those without a slot, and those of its parts. -/
def Transfer.bytesLeft (x : Transfer) : Nat := x.remaining + (x.parts.map (·.bytes)).sum

/-- A transfer that has only claimed slots for its bytes. -/
structure ClaimedFor (x y : Transfer) : Prop where
  same : y = { x with remaining := y.remaining, parts := y.parts }
  left : y.bytesLeft = x.bytesLeft

theorem ClaimedFor.refl (x : Transfer) : ClaimedFor x x := ⟨rfl, rfl⟩

theorem ClaimedFor.trans {x y z : Transfer} (h : ClaimedFor x y) (h' : ClaimedFor y z) : ClaimedFor x z :=
  ⟨by rw [h'.same, h.same], h'.left.trans h.left⟩

/-- What claiming leaves: memory, the records and the count of forfeits. -/
structure ClaimsOnly (s t : State) : Prop where
  mem : t.mem = s.mem
  err : t.err = s.err
  forfeits : t.fabric.forfeits = s.fabric.forfeits

theorem ClaimsOnly.refl (s : State) : ClaimsOnly s s := ⟨rfl, rfl, rfl⟩

theorem ClaimsOnly.trans {s t u : State} (h : ClaimsOnly s t) (h' : ClaimsOnly t u) : ClaimsOnly s u :=
  ⟨h'.mem.trans h.mem, h'.err.trans h.err, h'.forfeits.trans h.forfeits⟩

theorem claimsOnly_countFrames (n p : Nat) (s : State) : ClaimsOnly s (countFrames n p s) := ⟨rfl, rfl, rfl⟩

theorem transfers_countFrames (n p : Nat) (s : State) : (countFrames n p s).fabric.transfers = s.fabric.transfers := rfl

/-- A transfer that claims n bytes of a slot. -/
def claimedPart (t i n : Nat) (x : Transfer) : Transfer :=
  { x with remaining := x.remaining - n, parts := x.parts ++ [{ slotStart := t, entry := i, bytes := n }] }

theorem claimedFor_claimedPart {x : Transfer} {n : Nat} (h : n ≤ x.remaining) (t i : Nat) : ClaimedFor x (claimedPart t i n x) := by
  refine ⟨rfl, ?_⟩
  simp only [claimedPart, Transfer.bytesLeft, List.map_append, List.sum_append, List.map_cons, List.map_nil, List.sum_cons, List.sum_nil]
  omega

theorem claimSlots_none {x : Transfer} {s : State} (h : s.fabric.transfers = [x]) (hnone : x.remaining = 0) (k : Nat) :
    claimSlots x.id k s = s := by
  cases k with
  | zero => rfl
  | succ k => rw [claimSlots, findTransfer_only h]; exact if_pos hnone

theorem claimSlots_succ {x : Transfer} {s : State} (h : s.fabric.transfers = [x]) (hleft : x.remaining ≠ 0) {t : Nat}
    {e : SlotEntry × Nat × Bool} (hslot : chooseSlot s x (firstStart s x) = some (t, e)) (k : Nat) : claimSlots x.id (k + 1) s =
      claimSlots x.id k (addClaim t e.2.1 (min x.remaining (unclaimed s t e))
        (updTransfer x.id (claimedPart t e.2.1 (min x.remaining (unclaimed s t e))) s)) := by
  rw [claimSlots, findTransfer_only h]
  dsimp only
  rw [if_neg hleft, hslot]
  rfl

theorem claimSlots_only (k : Nat) {x : Transfer} {s : State} (h : s.fabric.transfers = [x]) :
    ∃ y, (claimSlots x.id k s).fabric.transfers = [y] ∧ ClaimedFor x y ∧ ClaimsOnly s (claimSlots x.id k s) := by
  induction k generalizing x s with
  | zero => exact ⟨x, h, .refl x, .refl s⟩
  | succ k ih =>
    by_cases hleft : x.remaining = 0
    · rw [claimSlots_none h hleft]
      exact ⟨x, h, .refl x, .refl s⟩
    · cases hslot : chooseSlot s x (firstStart s x) with
      | none =>
        have hsame : claimSlots x.id (k + 1) s = s := by
          rw [claimSlots, findTransfer_only h]
          dsimp only
          rw [if_neg hleft, hslot]
        rw [hsame]
        exact ⟨x, h, .refl x, .refl s⟩
      | some c =>
        obtain ⟨t, e⟩ := c
        rw [claimSlots_succ h hleft hslot]
        generalize hn : min x.remaining (unclaimed s t e) = n
        have hclaimed := claimedFor_claimedPart (x := x) (n := n) (by omega) t e.2.1
        have htransfers : (addClaim t e.2.1 n (updTransfer x.id (claimedPart t e.2.1 n) s)).fabric.transfers = [claimedPart t e.2.1 n x] := by
          rw [updTransfer_only h]
          rfl
        obtain ⟨y, hy, hfor, honly⟩ := ih htransfers
        have hfirst : ClaimsOnly s (addClaim t e.2.1 n (updTransfer x.id (claimedPart t e.2.1 n) s)) := ⟨rfl, rfl, rfl⟩
        exact ⟨y, hy, hclaimed.trans hfor, hfirst.trans honly⟩

/-! ### Hand-over and best effort (R378, R384, R387) -/

theorem leftBench_of_none {x : Transfer} (hring : x.ring = none) (s : State) : leftBench x s = s := by
  rw [leftBench, hring]

/-- A transfer handed over to another module, under its generation. -/
def handedOver (s : State) (x : Transfer) : Transfer :=
  { x with
    module := handleTarget s x.handle
    unit := if handleWindow x.handle = 255 then some (unitEntry x.handle) else none
    tag := (peerOf s (handleTarget s x.handle)).gen
    handedAt := s.fabric.time
    state := if x.timed then .held else .sent s.now }

section
variable {x : Transfer} {s : State} (h : s.fabric.transfers = [x]) (hring : x.ring = none) (hleaving : x.state = .leaving)
  (hform : handleMalformed s x.handle x.data.length = false) (haway : handleTarget s x.handle ≠ moduleIndex s)
include h hring hleaving hform haway

theorem exec_transferHandover_of_taken (hrefusal : handoverRefusal s x = none) : exec (.transferHandover x.id) s =
    .next (if x.timed then claimSlots x.id x.remaining (updFabric (fun f => { f with transfers := [handedOver s x] }) s)
      else countFrames (framesOf x.data.length) (firstPort s (handleTarget s x.handle))
        (updFabric (fun f => { f with transfers := [handedOver s x] }) s)) := by
  show execTransferHandover x.id s = _
  rw [execTransferHandover, findTransfer_only h]
  dsimp only
  rw [if_pos hleaving, handOver]
  dsimp only
  rw [hform, if_neg Bool.false_ne_true, if_neg haway, hrefusal]
  dsimp only
  rw [updTransfer_only h, leftBench_of_none hring]
  rfl

theorem exec_transferHandover_of_refused {c : W16} (hrefusal : handoverRefusal s x = some c) : exec (.transferHandover x.id) s =
    .next (report (transferRecord x c x.handle (handleEntry c x.handle) 0 s) { s with fabric := { s.fabric with transfers := [] } }) := by
  show execTransferHandover x.id s = _
  rw [execTransferHandover, findTransfer_only h]
  dsimp only
  rw [if_pos hleaving, handOver]
  dsimp only
  rw [hform, if_neg Bool.false_ne_true, if_neg haway, hrefusal]
  dsimp only
  rw [failHandover_only h hring]

end

section
variable {x : Transfer} {s : State} {n : Nat} (h : s.fabric.transfers = [x]) (hsent : x.state = .sent n)
include h hsent

theorem exec_bestEffortAck (c : W16) : exec (.bestEffortAck x.id c) s = .next (if c = 0 then dropTransfer x.id s else failTransfer x c s) := by
  show execBestEffortAck x.id c s = _
  rw [execBestEffortAck, findTransfer_only h]
  dsimp only
  rw [hsent]

theorem exec_bestEffortResend : exec (.bestEffortResend x.id) s = .next (bestEffortResend x s) := by
  show execBestEffortResend x.id s = _
  rw [execBestEffortResend, findTransfer_only h]
  dsimp only
  rw [hsent]

end

/-- Settles O20: a hand-over, an acknowledgement and a resend of the only transfer. -/
theorem bestEffortEndToEnd : Obligations.BestEffortEndToEnd := by
  intro x s h hring
  refine ⟨fun hleaving hform haway => ⟨fun hrefusal => ?_, fun c hrefusal => exec_transferHandover_of_refused h hring hleaving hform haway hrefusal⟩,
    fun n hsent => ⟨?_, fun c hc => ?_, fun hunit htag hpath => ?_, fun hunit htag => ?_⟩⟩
  · have hexec := exec_transferHandover_of_taken h hring hleaving hform haway hrefusal
    by_cases htimed : x.timed = true
    · rw [if_pos htimed] at hexec
      obtain ⟨y, hy, hfor, honly⟩ := claimSlots_only x.remaining (x := handedOver s x)
        (s := updFabric (fun f => { f with transfers := [handedOver s x] }) s) rfl
      rw [hfor.same] at hy
      exact ⟨_, _, hexec, hy, rfl, rfl, rfl, rfl, rfl, honly.err, honly.mem⟩
    · rw [if_neg htimed] at hexec
      exact ⟨_, handedOver s x, hexec, rfl, rfl, rfl, rfl, rfl, rfl, rfl, rfl⟩
  · rw [exec_bestEffortAck h hsent, if_pos rfl, dropTransfer_only h]
  · rw [exec_bestEffortAck h hsent, if_neg hc, failTransfer_only h hring]
  · have hold : ¬(x.unit.isNone = true ∧ x.tag ≠ (peerOf s x.module).gen) := fun hgen => hgen.2 htag
    have hresend : bestEffortResend x s = countFrames (framesOf x.data.length) (firstPort s x.module)
        (updFabric (fun f => { f with transfers := [{ x with state := .sent s.now }] }) s) := by
      rw [bestEffortResend, if_neg hold, hpath, Bool.not_true, if_neg Bool.false_ne_true, updTransfer_only h]
    refine ⟨_, exec_bestEffortResend h hsent, ?_⟩
    rw [hresend]
    exact ⟨rfl, rfl, rfl⟩
  · have hold : x.unit.isNone = true ∧ x.tag ≠ (peerOf s x.module).gen := ⟨by rw [hunit]; rfl, htag⟩
    rw [exec_bestEffortResend h hsent, bestEffortResend, if_pos hold, failTransfer_only h hring]

/-! ### Offers of the only transfer (R380, R381) -/

theorem claimsOnly_dropClaim (t i n : Nat) (s : State) : ClaimsOnly s (dropClaim t i n s) := ⟨rfl, rfl, rfl⟩

theorem claimsOnly_updTransfer (id : Nat) (f : Transfer → Transfer) (s : State) : ClaimsOnly s (updTransfer id f s) := ⟨rfl, rfl, rfl⟩

theorem transfers_dropClaim (t i n : Nat) (s : State) : (dropClaim t i n s).fabric.transfers = s.fabric.transfers := rfl

section
variable {x : Transfer} {s : State} {q : SlotPart} (h : s.fabric.transfers = [x]) (hpart : x.parts = [q])
include h hpart

theorem updPart_only (f : SlotPart → SlotPart) :
    updPart x q f s = updFabric (fun g => { g with transfers := [{ x with parts := [f q] }] }) s := by
  rw [updPart, updTransfer_only h, hpart]
  simp

theorem freeParts_only : freeParts x [q] s = updFabric (fun f => { f with
    transfers := [{ x with remaining := x.remaining + q.bytes, parts := [] }]
    claims := f.claims.erase ⟨q.slotStart, q.entry, q.bytes⟩ }) s := by
  have hclaims : (dropClaim q.slotStart q.entry q.bytes s).fabric.transfers = [x] := h
  rw [freeParts]
  show updTransfer _ _ (dropClaim q.slotStart q.entry q.bytes s) = _
  rw [updTransfer_only hclaims, hpart]
  simp [dropClaim, updFabric]

theorem exec_offerSend_of_claimed (hsync : s.fabric.timeState ≠ .unsync) (hheld : x.state = .held) (htimed : x.timed = true)
    (hoffered : q.offered = none) (hbefore : s.fabric.time < q.slotStart) : exec (.offerSend x.id) s =
      .next (countFrames 1 (s.fabric.active.entries[q.entry]?.getD {}).port
        (updFabric (fun f => { f with transfers := [{ x with parts := [{ q with offered := some s.now }] }] }) s)) := by
  have hnext : nextPart x = some q := by simp [nextPart, hpart, hoffered, firstPart]
  show execOfferSend x.id s = _
  rw [execOfferSend, findTransfer_only h]
  dsimp only
  rw [if_pos ⟨hheld, htimed⟩, offerSend, if_neg hsync, hnext]
  dsimp only
  rw [if_neg (by omega), updPart_only h hpart]

section
variable {n : Nat} (hoffered : q.offered = some n) (hopen : q.admitted = false)
include hoffered hopen

omit h in
theorem openOffer_only : openOffer x = some q := by simp [openOffer, hpart, hoffered, hopen, firstPart]

theorem exec_offerAnswer_of_late (hlate : n + 2000 < s.now) (c : W16) : exec (.offerAnswer x.id c) s = .next s := by
  show execOfferAnswer x.id c s = _
  rw [execOfferAnswer, findTransfer_only h]
  dsimp only
  rw [offerAnswer, openOffer_only hpart hoffered hopen]
  simp only [hoffered, Option.any_some]
  rw [decide_eq_false (by omega), Bool.not_false, if_pos rfl]

theorem exec_offerAnswer_of_timely (htime : s.now ≤ n + 2000) (c : W16) : exec (.offerAnswer x.id c) s =
    .next (if c = 0 then (if s.fabric.timeState = .unsync then s else updPart x q (fun z => { z with admitted := true }) s)
      else failTransfer x c (freeParts x [q] s)) := by
  show execOfferAnswer x.id c s = _
  rw [execOfferAnswer, findTransfer_only h]
  dsimp only
  rw [offerAnswer, openOffer_only hpart hoffered hopen]
  simp only [hoffered, Option.any_some]
  rw [decide_eq_true htime, Bool.not_true, if_neg Bool.false_ne_true, hpart]

theorem exec_offerForfeit : exec (.offerForfeit x.id) s = .next (claimSlots x.id (x.remaining + q.bytes)
    (updFabric (fun f => { f with forfeits := wrapAdd 64 f.forfeits 1 }) (freeParts x [q] s))) := by
  show execOfferForfeit x.id s = _
  rw [execOfferForfeit, findTransfer_only h]
  dsimp only
  rw [offerForfeit, openOffer_only hpart hoffered hopen]

end

end

/-- A refusal of the offer of a claim fails its transfer, of no task, and gives the claim up. -/
theorem failTransfer_freeParts_only {x : Transfer} {s : State} {q : SlotPart} (h : s.fabric.transfers = [x]) (hpart : x.parts = [q])
    (hring : x.ring = none) (hclaims : s.fabric.claims = [⟨q.slotStart, q.entry, q.bytes⟩]) (c : W16) :
    failTransfer x c (freeParts x [q] s) = report (transferRecord x c x.handle (handleEntry c x.handle) 0 s)
      (updFabric (fun f => { f with transfers := [], claims := [] }) s) := by
  have hfreed : freeParts x [q] s = updFabric (fun f => { f with
      transfers := [{ x with remaining := x.remaining + q.bytes, parts := [] }], claims := [] }) s := by
    rw [freeParts_only h hpart]
    simp [updFabric, hclaims]
  have hrecord : ∀ f : FabricBlock, transferRecord x c x.handle (handleEntry c x.handle) 0 { s with fabric := f } =
      transferRecord x c x.handle (handleEntry c x.handle) 0 s := fun _ => rfl
  rw [failTransfer, hfreed, dropTransfer, failBarriers, hring]
  simp [updFabric, hrecord]

/-! ### Slots (R381) -/

theorem transfers_sendAdmitted {x : Transfer} {s : State} {q : SlotPart} (h : s.fabric.transfers = [x]) (hpart : x.parts = [q])
    (hadmitted : q.admitted = true) : (sendAdmitted q.slotStart x s).fabric.transfers =
      [{ x with parts := [], state := if x.remaining = 0 then .sent s.now else .held }] := by
  have hall : admittedTo q.slotStart x = [q] := by simp [admittedTo, hpart, hadmitted]
  simp only [sendAdmitted, hall, List.foldl_cons, List.foldl_nil]
  rw [updTransfer_only (x := x) (by rw [transfers_dropClaim, transfers_countFrames, h]), hpart]
  simp [updFabric, dropClaim, countFrames]

theorem kept_sendAdmitted_only {x : Transfer} {s : State} {q : SlotPart} (hpart : x.parts = [q])
    (hadmitted : q.admitted = true) : ClaimsOnly s (sendAdmitted q.slotStart x s) := by
  have hall : admittedTo q.slotStart x = [q] := by simp [admittedTo, hpart, hadmitted]
  simp only [sendAdmitted, hall, List.foldl_cons, List.foldl_nil]
  exact (claimsOnly_countFrames _ _ s).trans ((claimsOnly_dropClaim _ _ _ _).trans (claimsOnly_updTransfer _ _ _))

/-- What a slot does before its bytes are sent: an overbooked slot is counted and past claims go. -/
def slotBegun (s : State) : State := updFabric (fun f => { f with
  overbooked := wrapAdd 64 f.overbooked ((activeEntries s).filter fun e =>
    e.2.2 && e.1.slot == s.fabric.time / 2000 % s.fabric.active.period).length
  claims := f.claims.filter fun c => decide (s.fabric.time / 2000 * 2000 < c.slotStart + 2000) }) s

theorem exec_slotStart_only {x : Transfer} {s : State} {q : SlotPart} (h : s.fabric.transfers = [x]) (hpart : x.parts = [q])
    (hsync : s.fabric.timeState ≠ .unsync) (hadmitted : q.admitted = true) (hslot : q.slotStart = s.fabric.time / 2000 * 2000)
    (hperiod : s.fabric.active.period ≠ 0) : exec .slotStart s = .next (sendAdmitted q.slotStart x (slotBegun s)) := by
  have hall : admittedTo q.slotStart x = [q] := by simp [admittedTo, hpart, hadmitted]
  have hidle : ¬(s.fabric.timeState = .unsync ∨ s.fabric.active.period = 0) := by
    rintro (hunsync | hzero)
    · exact hsync hunsync
    · exact hperiod hzero
  have hbegun : (slotBegun s).fabric.transfers = [x] := h
  have hfold : ((slotBegun s).fabric.transfers.filter fun x => !(admittedTo q.slotStart x).isEmpty).foldl
      (fun s x => sendAdmitted q.slotStart x s) (slotBegun s) = sendAdmitted q.slotStart x (slotBegun s) := by
    rw [hbegun]
    simp [hall]
  rw [← hfold, hslot]
  show Host.Outcome.next (slotStart s) = _
  rw [slotStart, if_neg hidle]
  rfl

/-! ### Offers at their destination (R380) -/

theorem offerRefusal_heardAt (o : Offer) (s : State) : offerRefusal (heardAt o.port s) o = offerRefusal s o := rfl

theorem exec_offerReceive_here {o : Offer} {s : State} (hup : (portOf s o.port).state = .up) (hhere : o.destination = moduleIndex s)
    (hunarmed : s.err.inj.cells = []) : exec (.offerReceive o) s =
      .next (answerTo o.origin (offerAtTarget o (heardAt o.port s)).1 [] (offerAtTarget o (heardAt o.port s)).2) := by
  have hisUp : isUp s o.port = true := by simp [isUp, hup]
  have hhere' : o.destination = moduleIndex (heardAt o.port s) := hhere
  show execOfferReceive o s = _
  rw [execOfferReceive, hisUp, if_pos rfl, controlFrame_of_unarmed hunarmed, hisUp, if_pos rfl, offerReceive, if_pos hhere']

section
variable {o : Offer} {s : State} (hsync : s.fabric.timeState ≠ .unsync) (hallowed : offerRefusal s o = none)
include hsync hallowed

theorem offerAtTarget_of_room {e : SlotEntry × Nat × Bool} (hfind : (slotEntries s o true o.origin).find? (fun e =>
    decide (o.length ≤ unclaimed s o.slotStart e)) = some e) : offerAtTarget o s = (0, addClaim o.slotStart e.2.1 o.length s) := by
  rw [offerAtTarget, hallowed]
  dsimp only
  rw [if_neg hsync, hfind]

theorem offerAtTarget_of_full (hfind : (slotEntries s o true o.origin).find? (fun e =>
    decide (o.length ≤ unclaimed s o.slotStart e)) = none) : offerAtTarget o s = (0x7206, s) := by
  rw [offerAtTarget, hallowed]
  dsimp only
  rw [if_neg hsync, hfind]

end

theorem find?_eq_head?_filter {α : Type} (p : α → Bool) (l : List α) : l.find? p = (l.filter p).head? := by
  rw [List.head?_filter]

/-- Settles O21: the only transfer claims, offers, is answered, forfeits and is sent; an offer at its destination. -/
theorem offersClaimSlots : Obligations.OffersClaimSlots := by
  refine ⟨fun x s h hring hsync hheld => ⟨fun t e htimed hparts hchoose hleft hroom => ?_, fun q hpart =>
    ⟨fun hoffered htimed hbefore => ?_, fun n hoffered hopen => ⟨fun htime => ⟨?_, fun hclaims c hc => ?_⟩, fun hlate c => ?_, ?_⟩,
      fun hadmitted hslot hperiod => ?_⟩⟩, fun o s hup hhere hsync hunarmed hallowed => ⟨fun e es hfits => ?_, fun hfits => ?_⟩⟩
  · have hnext : nextPart x = none := by simp [nextPart, hparts, firstPart]
    have hmin : min x.remaining (unclaimed s t e) = x.remaining := by omega
    obtain ⟨k, hk⟩ : ∃ k, x.remaining = k + 1 := ⟨x.remaining - 1, by omega⟩
    have hclaim : claimSlots x.id x.remaining s =
        claimSlots x.id k (addClaim t e.2.1 x.remaining (updTransfer x.id (claimedPart t e.2.1 x.remaining) s)) := by
      have hone := claimSlots_succ h (by omega) hchoose k
      rw [hmin, ← hk] at hone
      exact hone
    have hall : claimedPart t e.2.1 x.remaining x =
        { x with remaining := 0, parts := [{ slotStart := t, entry := e.2.1, bytes := x.remaining }] } := by
      rw [claimedPart, hparts, Nat.sub_self, List.nil_append]
    have hdone := claimSlots_none (x := claimedPart t e.2.1 x.remaining x)
      (s := addClaim t e.2.1 x.remaining (updTransfer x.id (claimedPart t e.2.1 x.remaining) s))
      (by rw [updTransfer_only h]; rfl) (by rw [hall]) k
    show execOfferSend x.id s = _
    rw [execOfferSend, findTransfer_only h]
    dsimp only
    rw [if_pos ⟨hheld, htimed⟩, offerSend, if_neg hsync, hnext]
    dsimp only
    rw [hclaim]
    refine congrArg Host.Outcome.next (hdone.trans ?_)
    rw [updTransfer_only h, hall]
    rfl
  · exact ⟨_, exec_offerSend_of_claimed h hpart hsync hheld htimed hoffered hbefore, rfl, rfl, rfl, rfl⟩
  · rw [exec_offerAnswer_of_timely h hpart hoffered hopen htime, if_pos rfl, if_neg hsync, updPart_only h hpart]
  · rw [exec_offerAnswer_of_timely h hpart hoffered hopen htime, if_neg hc, failTransfer_freeParts_only h hpart hring hclaims]
  · exact exec_offerAnswer_of_late h hpart hoffered hopen hlate c
  · generalize hfreed : updFabric (fun f => { f with forfeits := wrapAdd 64 f.forfeits 1 }) (freeParts x [q] s) = freed
    have htransfers : freed.fabric.transfers = [{ x with remaining := x.remaining + q.bytes, parts := [] }] := by
      rw [← hfreed, freeParts_only h hpart]
      rfl
    obtain ⟨y, hy, hfor, honly⟩ := claimSlots_only (x.remaining + q.bytes) htransfers
    refine ⟨_, y, exec_offerForfeit h hpart hoffered hopen, ?_⟩
    rw [hfreed]
    refine ⟨?_, hy, ?_, ?_, ?_, ?_, ?_, ?_⟩
    · rw [honly.forfeits, ← hfreed]
      rfl
    · rw [hfor.same]
    · rw [hfor.same]
    · rw [hfor.same]
      exact hheld
    · have hleft := hfor.left
      simpa [Transfer.bytesLeft] using hleft
    · rw [honly.mem, ← hfreed]
      rfl
    · rw [honly.err, ← hfreed]
      rfl
  · have hkept := kept_sendAdmitted_only (s := slotBegun s) hpart hadmitted
    exact ⟨_, exec_slotStart_only h hpart hsync hadmitted hslot hperiod, transfers_sendAdmitted h hpart hadmitted, hkept.mem, hkept.err⟩
  · have hfind : ((slotEntries (heardAt o.port s) o true o.origin).find? fun e =>
        decide (o.length ≤ unclaimed (heardAt o.port s) o.slotStart e)) = some e := by
      rw [find?_eq_head?_filter]
      exact (congrArg List.head? hfits :)
    have htarget := offerAtTarget_of_room (s := heardAt o.port s) hsync ((offerRefusal_heardAt o s).trans hallowed) hfind
    rw [exec_offerReceive_here hup hhere hunarmed, htarget]
    rfl
  · have hfind : ((slotEntries (heardAt o.port s) o true o.origin).find? fun e =>
        decide (o.length ≤ unclaimed (heardAt o.port s) o.slotStart e)) = none := by
      rw [find?_eq_head?_filter]
      exact (congrArg List.head? hfits :)
    have htarget := offerAtTarget_of_full (s := heardAt o.port s) hsync ((offerRefusal_heardAt o s).trans hallowed) hfind
    rw [exec_offerReceive_here hup hhere hunarmed, htarget]
    rfl

end Sys2Proof.Machine
end

