-- ==== Sys2Proof/Proofs/HartAccess.lean ====
section
/-!
PROOFS. Proofs/HartAccess.lean: accesses of the Landing harts at one physical address (R427–R429): what begins one, what bars it, what
refuses it, and what it leaves of its hart.
-/

namespace Sys2Proof.Machine

/-! ### One hart changed -/

theorem onlyHart_updHart (h : Nat) (f : Hart → Hart) (s : State) : OnlyHart h (f (hartOf s h)) s (updHart h f s) :=
  ⟨rfl, hartOf_updHart_self .., fun k hk => by rw [hartOf_updHart, if_neg hk]⟩

theorem onlyHart_updHart_of {h : Nat} {y : Hart} {s t : State} (ht : OnlyHart h y s t) (f : Hart → Hart) :
    OnlyHart h (f y) s (updHart h f t) := by
  obtain ⟨hsame, hself, hothers⟩ := ht
  refine ⟨?_, by rw [hartOf_updHart_self, hself], fun k hk => by rw [hartOf_updHart, if_neg hk, hothers k hk]⟩
  rw [hsame]
  rfl

theorem mem_of_onlyHart {h : Nat} {y : Hart} {s t : State} (ht : OnlyHart h y s t) : t.mem = s.mem := (congrArg State.mem ht.1 :)

theorem onlyHart_beginAccess (h : Nat) (mode : HartMode) (x : HartView) (s : State) :
    OnlyHart h (hartBegun mode x (hartOf s h)) s (beginAccess h mode x s) := onlyHart_updHart ..

@[simp] theorem hartOf_beginAccess (h : Nat) (mode : HartMode) (x : HartView) (s : State) :
    hartOf (beginAccess h mode x s) h = hartBegun mode x (hartOf s h) := hartOf_updHart_self ..

/-! ### Exceptions (R428, R429) -/

/-- A hart that has taken an exception which the module causes. -/
def Hart.faulted (trap : HartTrap) (stval : Nat) (deferred : Bool) (code : W16) (x : Hart) : Hart :=
  { x.take trap stval with accFault := accFaultAfter x.accFault deferred code }

theorem sendAllCombined_of_none {h : Nat} {s : State} (hnone : (hartOf s h).combined = []) : sendAllCombined h s = s := by
  rw [sendAllCombined, hnone]
  rfl

theorem hartFault_of_none {h : Nat} {s : State} (hnone : (hartOf s h).combined = []) (trap : HartTrap) (stval : Nat) (deferred : Bool)
    (code : W16) : hartFault h trap stval deferred code s = updHart h (Hart.faulted trap stval deferred code) s := by
  rw [hartFault, sendAllCombined_of_none hnone]
  rfl

theorem hartTrap_of_none {h : Nat} {s : State} (hnone : (hartOf s h).combined = []) (trap : HartTrap) (stval tval2 : Nat) :
    hartTrap h trap stval tval2 s = updHart h (fun x => { x.take trap stval with tval2 := BitVec.ofNat 64 tval2 }) s := by
  rw [hartTrap, sendAllCombined_of_none hnone]

theorem onlyHart_hartBarred {h : Nat} {y : Hart} {s t : State} (ht : OnlyHart h y s t) (hnone : y.combined = []) (trap : HartTrap) (va : Nat) :
    OnlyHart h (y.faulted trap va false 0x9103) s (hartBarred h trap va t) := by
  rw [hartBarred, hartFault_of_none (by rw [ht.2.1]; exact hnone)]
  exact onlyHart_updHart_of ht _

theorem sendMaint_withLanding (rows : List (List Byte)) (l : LandingBlock) (s : State) :
    sendMaint rows { s with landing := l } = { sendMaint rows s with landing := l } := by
  have hup : maintUp { s with landing := l } = maintUp s := rfl
  by_cases hsent : maintUp s = true ∧ rows ≠ []
  · rw [sendMaint, sendMaint, hup, if_pos hsent, if_pos hsent]
    rfl
  · rw [sendMaint, sendMaint, hup, if_neg hsent, if_neg hsent]

/-- A record leaves the Landing block alone, and the Landing block leaves it alone. -/
theorem report_withLanding (e : ErrRecord) (l : LandingBlock) (s : State) :
    report e { s with landing := l } = { report e s with landing := l } := by
  have hundelivered : undelivered { s with landing := l } e = undelivered s e := rfl
  by_cases hlost : undelivered s e = true
  · rw [report, report, reportAs, reportAs]
    rw [hundelivered, if_pos hlost, if_pos hlost]
  · rw [report, report, reportAs, reportAs]
    rw [hundelivered, if_neg hlost, if_neg hlost, ← sendMaint_withLanding]

theorem report_updHart (e : ErrRecord) (h : Nat) (f : Hart → Hart) (s : State) :
    report e (updHart h f s) = updHart h f (report e s) := by
  rw [updHart, report_withLanding, updHart, report_landing]

theorem toNat_accFaultAfter (old : W64) (deferred : Bool) (code : W16) : (accFaultAfter old deferred code).toNat =
    2 ^ 63 + bitNat deferred * 2 ^ 62 + bitNat (old.getLsbD 63 || old.getLsbD 61) * 2 ^ 61 + code.toNat := by
  have hcode := code.isLt
  have hbit : ∀ b : Bool, bitNat b ≤ 1 := by decide
  have hd := hbit deferred
  have ho := hbit (old.getLsbD 63 || old.getLsbD 61)
  rw [accFaultAfter, BitVec.toNat_ofNat, Nat.mod_eq_of_lt]
  omega

theorem testBit_accFaultAfter (d o : Bool) {c : Nat} (hc : c < 2 ^ 16) : let n := 2 ^ 63 + bitNat d * 2 ^ 62 + bitNat o * 2 ^ 61 + c
    n.testBit 63 = true ∧ n.testBit 62 = d ∧ n.testBit 61 = o ∧ n % 2 ^ 61 = c := by
  cases d <;> cases o <;> simp only [bitNat, Nat.testBit_eq_decide_div_mod_eq, decide_eq_true_eq, decide_eq_false_iff_not] <;>
    simp <;> omega

theorem accFaultAfter_fields (old : W64) (deferred : Bool) (code : W16) : let x := accFaultAfter old deferred code
    x.getLsbD 63 = true ∧ x.getLsbD 62 = deferred ∧ x.getLsbD 61 = (old.getLsbD 63 || old.getLsbD 61) ∧ x.toNat % 2 ^ 61 = code.toNat := by
  have hfields := testBit_accFaultAfter deferred (old.getLsbD 63 || old.getLsbD 61) code.isLt
  rw [← toNat_accFaultAfter] at hfields
  exact hfields

/-! ### An access that its tables put at one address (R15) -/

/-- The kind of a load or fetch. -/
def loadKind (fetch : Bool) : HartKind := if fetch then .fetch else .load

theorem accessTrap_loadKind (fetch : Bool) : (loadKind fetch).accessTrap = if fetch then .fetchAccess else .loadAccess := by
  cases fetch <;> rfl

theorem hartAt_of_mapsTo {h n va pa : Nat} {mode : HartMode} {kind : HartKind} {x : HartView} {uncached : Bool} {s : State}
    (hmap : MapsTo h mode kind x va n pa uncached s) (go : List HartPiece → Bool → State → State) :
    hartAt h mode kind x va n go (beginAccess h mode x s) = go [⟨va, pa, n⟩] uncached (beginAccess h mode x s) := by
  rw [hartAt, hmap.2]

theorem not_idle_of_runs {h n : Nat} {s : State} (hruns : hartRuns s h = true) (hn : 0 < n) : ¬((!hartRuns s h || n == 0) = true) := by
  have hne : (n == 0) = false := by simp; omega
  rw [hruns, hne]
  decide

/-- A load or fetch at one address, by its place. -/
theorem hartLoad_of_mapsTo {h n va pa : Nat} {mode : HartMode} {fetch : Bool} {x : HartView} {uncached : Bool} {s : State}
    (hruns : hartRuns s h = true) (hmap : MapsTo h mode (loadKind fetch) x va n pa uncached s) :
    (placeAccepts mode fetch pa n (hartPlace pa n) = false →
      exec (.hartLoad h mode va n fetch x) s = .next (hartBarred h (loadKind fetch).accessTrap va (beginAccess h mode x s))) ∧
    (hartPlace pa n = .tier → exec (.hartLoad h mode va n fetch x) s =
      .next (hartTierLoad h (hartContextOf s h) fetch (!uncached) [⟨va, pa, n⟩] (beginAccess h mode x s))) ∧
    (hartPlace pa n = .register → placeAccepts mode fetch pa n .register = true → exec (.hartLoad h mode va n fetch x) s =
      .next (if fetch then updHart h (Hart.loaded (romBytes (pa - controlBase) n)) (beginAccess h mode x s)
        else hartRegLoad h pa (beginAccess h mode x s))) := by
  have hexec : exec (.hartLoad h mode va n fetch x) s = .next (hartLoad h mode va n fetch x s) := rfl
  have hcontext : hartContextOf (beginAccess h mode x s) h = hartContextOf s h := rfl
  refine ⟨fun hbarred => ?_, fun htier => ?_, fun hregister haccepts => ?_⟩
  · rw [hexec, hartLoad, if_neg (not_idle_of_runs hruns hmap.1), ← loadKind, hartAt_of_mapsTo hmap]
    dsimp only [piecesPlace, List.head?, Option.map, Option.getD]
    rw [hbarred, Bool.not_false, if_pos rfl]
  · rw [hexec, hartLoad, if_neg (not_idle_of_runs hruns hmap.1), ← loadKind, hartAt_of_mapsTo hmap]
    dsimp only [piecesPlace, List.head?, Option.map, Option.getD]
    have haccepts : placeAccepts mode fetch pa n .tier = true := rfl
    rw [htier, haccepts, Bool.not_true, if_neg Bool.false_ne_true, hcontext]
  · rw [hexec, hartLoad, if_neg (not_idle_of_runs hruns hmap.1), ← loadKind, hartAt_of_mapsTo hmap]
    dsimp only [piecesPlace, List.head?, Option.map, Option.getD]
    rw [hregister, haccepts, Bool.not_true, if_neg Bool.false_ne_true]

theorem storeBarred_beginAccess (h : Nat) (mode : HartMode) (x : HartView) (s : State) (p : HartPiece) :
    storeBarred (beginAccess h mode x s) p = storeBarred s p := rfl

/-- A store at one address, by its place. -/
theorem hartStore_of_mapsTo {h n va pa : Nat} {mode : HartMode} {x : HartView} {uncached : Bool} {s : State} (v : BitVec 512)
    (hruns : hartRuns s h = true) (hmap : MapsTo h mode .store x va n pa uncached s) :
    (placeAccepts mode false pa n (hartPlace pa n) = false ∨ (hartPlace pa n = .tier ∧ storeBarred s ⟨va, pa, n⟩ = true) →
      exec (.hartStore h mode va n v x) s = .next (hartBarred h .storeAccess va (beginAccess h mode x s))) ∧
    (hartPlace pa n = .tier → storeBarred s ⟨va, pa, n⟩ = false → exec (.hartStore h mode va n v x) s =
      .next (hartTierStore h uncached [⟨va, pa, n⟩] (bytesOfNat n v.toNat) (beginAccess h mode x s))) ∧
    (hartPlace pa n = .register → placeAccepts mode false pa n .register = true → exec (.hartStore h mode va n v x) s =
      .next (hartRegStore h pa (v.setWidth 64) (beginAccess h mode x s))) := by
  have hexec : exec (.hartStore h mode va n v x) s = .next (hartStore h mode va n v x s) := rfl
  have hbars : ([⟨va, pa, n⟩] : List HartPiece).any (storeBarred (beginAccess h mode x s)) = storeBarred s ⟨va, pa, n⟩ := by
    rw [List.any_cons, List.any_nil, Bool.or_false, storeBarred_beginAccess]
  refine ⟨fun hbarred => ?_, fun htier hfree => ?_, fun hregister haccepts => ?_⟩
  · have hstop : (!placeAccepts mode false pa n (hartPlace pa n) || (hartPlace pa n == .tier && storeBarred s ⟨va, pa, n⟩)) = true := by
      rcases hbarred with hplace | ⟨htier, hbar⟩
      · rw [hplace]
        rfl
      · rw [htier, hbar]
        rfl
    rw [hexec, hartStore, if_neg (not_idle_of_runs hruns hmap.1), hartAt_of_mapsTo hmap]
    dsimp only [piecesPlace, List.head?, Option.map, Option.getD]
    rw [hbars, if_pos hstop]
  · rw [hexec, hartStore, if_neg (not_idle_of_runs hruns hmap.1), hartAt_of_mapsTo hmap]
    dsimp only [piecesPlace, List.head?, Option.map, Option.getD]
    rw [hbars, hfree, htier]
    rfl
  · rw [hexec, hartStore, if_neg (not_idle_of_runs hruns hmap.1), hartAt_of_mapsTo hmap]
    dsimp only [piecesPlace, List.head?, Option.map, Option.getD]
    have hopen : (!true || (HartPlace.register == .tier && storeBarred s ⟨va, pa, n⟩)) = false := rfl
    rw [hbars, hregister, haccepts, hopen, if_neg Bool.false_ne_true]

/-! ### An access within a codeword of the near or bulk tier -/

theorem regionOf_codeword (a : Nat) : regionOf (a / 512 * 512) = regionOf a := by
  have hlt : ∀ c, c % 512 = 0 → (a / 512 * 512 < c ↔ a < c) := fun c hc => ⟨fun h => by omega, fun h => by omega⟩
  simp only [regionOf, hlt nearSize (by decide), hlt bulkBase (by decide), hlt (bulkBase + bulkSize) (by decide),
    hlt flashBase (by decide), hlt (flashBase + flashSize) (by decide), hlt (controlBase + controlSize) (by decide),
    hlt apertureBase (by decide), hlt (apertureBase + apertureSize) (by decide), hlt (pcieBase + 0x80000000000) (by decide),
    hlt (pcieBase + 0x100000000000) (by decide)]

theorem regionOf_of_codeword {a b : Nat} (h : a / 512 = b / 512) : regionOf a = regionOf b := by
  rw [← regionOf_codeword a, h, regionOf_codeword]

theorem lt_of_region {pa : Nat} (h : regionOf pa = .near ∨ regionOf pa = .bulk) : pa < bulkBase + bulkSize := by
  by_contra hge
  have hnear : ¬pa < nearSize := by simp only [nearSize, bulkBase, bulkSize] at hge ⊢; omega
  have hbulk : ¬pa < bulkBase := by simp only [bulkBase, bulkSize] at hge ⊢; omega
  simp only [regionOf, if_neg hnear, if_neg hbulk, if_neg hge] at h
  revert h
  repeat' split
  all_goals decide

theorem inOverlay_of_region {pa : Nat} (h : regionOf pa = .near ∨ regionOf pa = .bulk) : inOverlay pa = false := by
  have hlt := lt_of_region h
  have hbelow : bulkBase + bulkSize ≤ outBase := by decide
  simp only [inOverlay, decide_eq_false_iff_not, not_and]
  omega

theorem hartPlace_of_codeword {pa n : Nat} (h : regionOf pa = .near ∨ regionOf pa = .bulk) (hin : pa / 512 = (pa + n - 1) / 512) :
    hartPlace pa n = .tier := by
  have hlast := regionOf_of_codeword hin
  have hover := inOverlay_of_region h
  have hoverLast : inOverlay (pa + n - 1) = false := inOverlay_of_region (by rw [← hlast]; exact h)
  rw [hartPlace, hover, hoverLast, Bool.or_self, if_neg Bool.false_ne_true, if_neg (fun hne => hne hlast)]
  rcases h with hr | hr <;> rw [hr]

theorem codewordPieces_of_codeword {va pa n : Nat} (hn : 0 < n) (hin : pa / 512 = (pa + n - 1) / 512) :
    codewordPieces ⟨va, pa, n⟩ = [⟨va, pa, n⟩] := by
  have hone : blocksOf 512 pa n = [pa / 512] := by
    rw [blocksOf, if_neg (by omega), ← hin]
    simp
  have hlow : pa / 512 * 512 ≤ pa := Nat.div_mul_le_self ..
  have hhigh : pa + n ≤ pa / 512 * 512 + 512 := by omega
  simp only [codewordPieces, hone, List.map_cons, List.map_nil, List.cons.injEq, and_true, HartPiece.mk.injEq]
  omega

theorem placeRead_of_region {pa : Nat} (h : regionOf pa = .near ∨ regionOf pa = .bulk) (q : Requester) (n : Nat) (s : State) :
    placeRead q pa n s = physRead q pa n s := by
  unfold placeRead
  rcases h with hr | hr <;> rw [hr]

theorem physRead_of_refused {q : Requester} {pa n : Nat} {s : State} {c : W16} (hregion : regionOf pa = .near ∨ regionOf pa = .bulk)
    (hunarmed : s.err.inj.cells = []) (hfiring : s.err.firing = none) (hrefusal : accessRefusal s q false pa n = some c) :
    physRead q pa n s = (.fail c pa, s) := by
  unfold physRead
  rw [injectRead_of_unarmed hunarmed hfiring]
  rcases hregion with hr | hr <;> simp [hr, stakeTableRead_of_unarmed hunarmed, hrefusal]

theorem accessRefusal_updHart (h : Nat) (f : Hart → Hart) (s : State) (q : Requester) (write : Bool) (pa n : Nat) :
    accessRefusal (updHart h f s) q write pa n = accessRefusal s q write pa n := by
  rw [← accessRefusal_beyondStores, ← accessRefusal_beyondStores s]
  rfl

/-! ### The faults of a hart that runs -/

/-- A load or fetch that the stake check refuses leaves its record and faults with its code (R428). -/
theorem hartTierLoad_of_refused {h n va pa : Nat} {mode : HartMode} {x : HartView} {s : State} (hcombined : (hartOf s h).combined = [])
    (hn : 0 < n) (hin : pa / 512 = (pa + n - 1) / 512) (hregion : regionOf pa = .near ∨ regionOf pa = .bulk)
    (hunarmed : s.err.inj.cells = []) (hfiring : s.err.firing = none) {c : W16}
    (hrefusal : accessRefusal s (hartRequester s h) false pa n = some c) (fetch cached : Bool) :
    hartTierLoad h (hartContextOf s h) fetch cached [⟨va, pa, n⟩] (beginAccess h mode x s) =
      updHart h (Hart.faulted (loadTrap fetch) va false c) (reportHart (hartRequester s h) c pa
        (updHart h (fun x => { x with waiting := .nothing }) (beginAccess h mode x s))) := by
  have hread : physRead (hartRequester s h) pa n (beginAccess h mode x s) = (.fail c pa, beginAccess h mode x s) :=
    physRead_of_refused hregion hunarmed hfiring (by rw [beginAccess, accessRefusal_updHart]; exact hrefusal)
  have hpieces : readPiecesOf (hartRequester s h) h [⟨va, pa, n⟩] (beginAccess h mode x s) = (.fail c pa, va, beginAccess h mode x s) := by
    rw [readPiecesOf, placeRead_of_region hregion, hread]
  rw [hartTierLoad, ← hartRequester, List.flatMap_cons, List.flatMap_nil, List.append_nil, codewordPieces_of_codeword hn hin, hpieces]
  dsimp only
  rw [hartRefused, hartFault_of_none]
  rw [reportHart, report_updHart, hartOf_updHart_self]
  have hkept : hartOf (report { code := c, source := srcModule (updHart h (fun x => { x with waiting := .nothing }) (beginAccess h mode x s)), address := BitVec.ofNat 64 pa, context := BitVec.ofNat 16 (hartRequester s h).context, detail2 := BitVec.ofNat 32 (hartRequester s h).hartId } (beginAccess h mode x s)) h = hartOf (beginAccess h mode x s) h := by
    rw [hartOf, report_landing, ← hartOf]
  rw [hkept, hartOf_beginAccess]
  exact hcombined

/-- Settles O53: accesses the map bars, a refused load, a refusal that comes back, ACC_FAULT, and a posted write that fails its check. -/
theorem hartFaultsTellTheirCode : Obligations.HartFaultsTellTheirCode := by
  refine ⟨accFaultAfter_fields, fun trap stval y => ⟨rfl, rfl, by simp [Hart.take]⟩,
    fun h n va pa mode x uncached v s hruns hcombined => ⟨fun fetch hbarred hmap => ?_, fun hbarred hmap => ?_,
      fun c fetch hmap hregion hin hunarmed hfiring hrefusal => ?_, fun d ds hdeferred => ?_, fun hmode => ⟨?_, fun w => ?_⟩,
      fun a hmode => ?_⟩, fun addr context code s hin hregion => ?_⟩
  · have hexec := (hartLoad_of_mapsTo (fetch := fetch) hruns hmap).1 hbarred
    rw [accessTrap_loadKind] at hexec
    exact ⟨_, hexec, onlyHart_hartBarred (onlyHart_beginAccess ..) hcombined _ va⟩
  · exact ⟨_, (hartStore_of_mapsTo v hruns hmap).1 hbarred, onlyHart_hartBarred (onlyHart_beginAccess ..) hcombined _ va⟩
  · have hexec := (hartLoad_of_mapsTo (fetch := fetch) hruns hmap).2.1 (hartPlace_of_codeword hregion hin)
    rw [hartTierLoad_of_refused hcombined hmap.1 hin hregion hunarmed hfiring hrefusal] at hexec
    refine ⟨_, hexec, ?_, ?_, ?_⟩
    · rw [updHart_mem, reportHart, report_mem]
      rfl
    · rw [updHart_err, reportHart, report_updHart, updHart_err, beginAccess, report_updHart, updHart_err]
      rfl
    · rw [hartOf_updHart_self, hartOf, reportHart, report_landing, ← hartOf, hartOf_updHart_self, hartOf_beginAccess]
      rfl
  · have hexec : exec (.deferredStoreFault h x) s = .next (hartFault h .storeAccess 0 true d.code
        (updHart h (fun y => { y with deferred := ds, pc := x.pc, medeleg := x.medeleg }) s)) := by
      show execDeferredStoreFault h x s = _
      rw [execDeferredStoreFault, hdeferred]
    rw [hartFault_of_none (by rw [hartOf_updHart_self]; exact hcombined)] at hexec
    exact ⟨_, hexec, onlyHart_updHart_of (onlyHart_updHart ..) _⟩
  · refine ⟨accFaultAccess h mode .read x s, rfl, ?_⟩
    unfold accFaultAccess
    rw [hruns, Bool.not_true, if_neg Bool.false_ne_true]
    rcases hmode with rfl | rfl
    · exact ⟨by rw [hartOf_updHart_self, hartOf_updHart_self], by rw [hartOf_updHart_self, hartOf_updHart_self], rfl⟩
    · exact ⟨by rw [hartOf_updHart_self, hartOf_updHart_self], by rw [hartOf_updHart_self, hartOf_updHart_self], rfl⟩
  · refine ⟨accFaultAccess h mode (.write w) x s, rfl, ?_⟩
    unfold accFaultAccess
    rw [hruns, Bool.not_true, if_neg Bool.false_ne_true]
    rcases hmode with rfl | rfl
    · exact ⟨by rw [hartOf_updHart_self]; rfl, rfl⟩
    · exact ⟨by rw [hartOf_updHart_self]; rfl, rfl⟩
  · have htaken : ∀ trap, hartTrap h trap x.insn.toNat 0
        (updHart h (fun y => { y with mode := mode, pc := x.pc, medeleg := x.medeleg }) s) =
          updHart h (fun y => { y.take trap x.insn.toNat with tval2 := BitVec.ofNat 64 0 })
            (updHart h (fun y => { y with mode := mode, pc := x.pc, medeleg := x.medeleg }) s) :=
      fun trap => hartTrap_of_none (by rw [hartOf_updHart_self]; exact hcombined) ..
    refine ⟨accFaultAccess h mode a x s, rfl, ?_⟩
    unfold accFaultAccess
    rw [hruns, Bool.not_true, if_neg Bool.false_ne_true]
    rcases hmode with rfl | rfl | rfl
    · dsimp only
      rw [htaken, hartOf_updHart_self, hartOf_updHart_self, ← BitVec.ofNat_toNat]
      exact ⟨rfl, rfl, rfl, rfl⟩
    · dsimp only
      rw [htaken, hartOf_updHart_self, hartOf_updHart_self, ← BitVec.ofNat_toNat]
      exact ⟨rfl, rfl, rfl, rfl⟩
    · dsimp only
      rw [htaken, hartOf_updHart_self, hartOf_updHart_self, ← BitVec.ofNat_toNat]
      exact ⟨rfl, rfl, rfl, rfl⟩
  · have hnot : decide (regionOf addr = .aperture) = false := by
      rcases hregion with hr | hr <;> rw [hr] <;> rfl
    refine ⟨fun hposted => ?_, fun hposted => ?_⟩
    · show execPostedWriteCheckFail addr context code s = _
      rw [execPostedWriteCheckFail, hnot]
      rw [if_neg Bool.false_ne_true, if_pos ⟨hin, hposted⟩]
      rfl
    · show execPostedWriteCheckFail addr context code s = _
      rw [execPostedWriteCheckFail, hnot]
      rw [if_neg Bool.false_ne_true, if_neg (fun h => by rw [hposted] at h; exact Bool.false_ne_true h.2)]

end Sys2Proof.Machine
end

