-- ==== Sys2Proof/Proofs/HartStores.lean ====
section
/-!
PROOFS. Proofs/HartStores.lean: the stores of a Landing hart (R322, R426): how they combine by codeword, and how what is combined leaves as
one write.
-/

namespace Sys2Proof.Machine

/-! ### The bytes of a combined store -/

/-- Bytes by offset, from one offset on. -/
def cellsAt : Nat → List Byte → List (Nat × Byte)
  | _, [] => []
  | o, b :: bs => (o, b) :: cellsAt (o + 1) bs

theorem map_zipIdx_eq_cellsAt (o : Nat) (bs : List Byte) (k : Nat) :
    (bs.zipIdx k).map (fun b => (o + b.2, b.1)) = cellsAt (o + k) bs := by
  induction bs generalizing k with
  | nil => rfl
  | cons b bs ih => rw [List.zipIdx_cons, List.map_cons, ih, cellsAt, Nat.add_assoc]

theorem cellsAt_eq (o : Nat) (bs : List Byte) : bs.zipIdx.map (fun b => (o + b.2, b.1)) = cellsAt o bs := map_zipIdx_eq_cellsAt o bs 0

theorem find?_cellsAt_of_lt {o i : Nat} (h : i < o) (bs : List Byte) : (cellsAt o bs).find? (fun x => x.1 == i) = none := by
  induction bs generalizing o with
  | nil => rfl
  | cons b bs ih =>
    have hne : ((o, b).1 == i) = false := by simp; omega
    rw [cellsAt, List.find?_cons, hne]
    exact ih (by omega)

theorem filterMap_find?_cellsAt (o n : Nat) (bs : List Byte) (h : bs.length ≤ n) :
    (List.range' o n).filterMap (fun i => (cellsAt o bs).find? fun x => x.1 == i) = cellsAt o bs := by
  induction bs generalizing o n with
  | nil => simp [cellsAt]
  | cons b bs ih =>
    obtain ⟨n, rfl⟩ : ∃ k, n = k + 1 := ⟨n - 1, by simp at h; omega⟩
    have hfirst : (cellsAt o (b :: bs)).find? (fun x => x.1 == o) = some (o, b) := by simp [cellsAt]
    have hrest : (List.range' (o + 1) n).filterMap (fun i => (cellsAt o (b :: bs)).find? fun x => x.1 == i) =
        (List.range' (o + 1) n).filterMap (fun i => (cellsAt (o + 1) bs).find? fun x => x.1 == i) := by
      refine List.filterMap_congr fun i hi => ?_
      have hne : ((o, b).1 == i) = false := by
        rw [List.mem_range'_1] at hi
        simp
        omega
      rw [cellsAt, List.find?_cons, hne]
    rw [List.range'_succ, List.filterMap_cons, hfirst]
    dsimp only
    rw [hrest, ih (o + 1) n (by simpa using h), ← cellsAt]

/-- Bytes of a run within a codeword stand in order. -/
theorem sortedBytes_cellsAt {o : Nat} {bs : List Byte} (h : o + bs.length ≤ 512) : sortedBytes (cellsAt o bs) = cellsAt o bs := by
  have hrange : List.range 512 = List.range' 0 o ++ List.range' o (512 - o) := by
    have happend := List.range'_append (s := 0) (m := o) (n := 512 - o) (step := 1)
    rw [Nat.one_mul, Nat.zero_add] at happend
    rw [happend, List.range_eq_range']
    congr 1
    omega
  have hbefore : (List.range' 0 o).filterMap (fun i => (cellsAt o bs).find? fun x => x.1 == i) = [] := by
    refine List.filterMap_eq_nil_iff.2 fun i hi => find?_cellsAt_of_lt ?_ bs
    rw [List.mem_range'_1] at hi
    omega
  rw [sortedBytes, hrange, List.filterMap_append, hbefore, List.nil_append, filterMap_find?_cellsAt o _ bs (by omega)]

theorem byteRuns_cellsAt (o : Nat) (b : Byte) (bs : List Byte) : byteRuns (cellsAt o (b :: bs)) = [(o, b :: bs)] := by
  induction bs generalizing o b with
  | nil => rfl
  | cons c cs ih =>
    rw [cellsAt, byteRuns, ih]
    exact if_pos rfl

/-! ### A combined store leaves (R426) -/

theorem servesWrite_updHart {q : Requester} {pa n : Nat} {s : State} (hw : ServesWrite q pa n s) (h : Nat) (f : Hart → Hart) :
    ServesWrite q pa n (updHart h f s) := by
  obtain ⟨hregion, hunarmed, hscatters, hpieces⟩ := hw
  refine ⟨hregion, hunarmed, hscatters, fun p hp => ?_⟩
  have hfree := pieceRefusal_eq_none.1 (hpieces p hp)
  exact pieceRefusal_eq_none.2 ⟨by rw [accessRefusal_updHart]; exact hfree.1, hfree.2⟩

theorem inPlain_updHart {pa n : Nat} {s : State} (hp : InPlain s pa n) (h : Nat) (f : Hart → Hart) : InPlain (updHart h f s) pa n :=
  fun p hm => hp p hm

theorem codeword_within {w o n : Nat} (hn : n ≠ 0) (h : o + n ≤ 512) : (w * 512 + o) / stakeSize = (w * 512 + o + n - 1) / stakeSize := by
  simp only [stakeSize]
  omega

/-- A store of one codeword's bytes, in its place and memory. -/
structure StorePlaced (a : Nat) (bs : List Byte) (s t : State) : Prop where
  moved : MemMoved s t
  mem : InPlain s a bs.length → t.mem = memWrite s.mem a bs

theorem writeRuns_of_serves {q : Requester} {w o : Nat} {bs : List Byte} {s : State} (hbs : bs ≠ []) (hin : o + bs.length ≤ 512)
    (hw : ServesWrite q (w * 512 + o) bs.length s) :
    ∃ u, writeRuns q (w * 512) [(o, bs)] s = (.done (), u) ∧ StorePlaced (w * 512 + o) bs s u := by
  obtain ⟨hregion, hunarmed, hscatters, hpieces⟩ := hw
  have hlen : bs.length ≠ 0 := fun h => hbs (List.length_eq_zero_iff.1 h)
  have hone : pieceRefusal s q (w * 512 + o, bs.length) = none := hpieces _ (by
    rw [piecesOf_of_within stakeSize_pos hlen (codeword_within hlen hin)]
    exact List.mem_singleton_self _)
  have hrefusal : runsRefusal s q (w * 512) [(o, bs)] = none := by
    refine firstSome_eq_none _ fun r hr => ?_
    rw [List.mem_singleton.1 hr]
    exact hone
  have hsame : regionOf (w * 512) = regionOf (w * 512 + o) := regionOf_of_codeword (by omega)
  refine ⟨placeBytes q (w * 512 + o) bs s, ?_, moved_placeBytes hscatters .., fun hplain => mem_placeBytes hscatters hplain⟩
  unfold writeRuns
  rw [hsame, stakeTableRead_of_unarmed hunarmed]
  rcases hregion with hr | hr <;> simp only [hr, hrefusal, List.foldl_cons, List.foldl_nil]

theorem combined_of_moved {s t : State} (hm : MemMoved s t) (h : Nat) : (hartOf t h).combined = (hartOf s h).combined :=
  (congrArg Hart.combined (hm.harts h) :)

/-- What a hart's only combined bytes leave when they go. -/
structure CombinedGone (h a : Nat) (bs : List Byte) (s t : State) : Prop where
  combined : (hartOf t h).combined = []
  scratch : t.scratch = s.scratch
  err : t.err = s.err
  mem : InPlain s a bs.length → t.mem = memWrite s.mem a bs

theorem sendCombined_only {h w o since context : Nat} {bs : List Byte} {s : State} (hbs : bs ≠ []) (hin : o + bs.length ≤ 512)
    (hcombined : (hartOf s h).combined = [⟨w, cellsAt o bs, since, context⟩])
    (hw : ServesWrite (hartRequesterIn h context) (w * 512 + o) bs.length s) :
    CombinedGone h (w * 512 + o) bs s (sendCombined h w s) := by
  obtain ⟨u, hwrite, hplaced⟩ := writeRuns_of_serves hbs hin hw
  have hruns : byteRuns (sortedBytes (cellsAt o bs)) = [(o, bs)] := by
    rw [sortedBytes_cellsAt hin]
    cases bs with
    | nil => exact absurd rfl hbs
    | cons b bs => exact byteRuns_cellsAt o b bs
  have hgone : sendCombined h w s = updHart h (fun x => { x with
      combined := x.combined.filter fun y => y != ⟨w, cellsAt o bs, since, context⟩ }) u := by
    unfold sendCombined
    rw [hcombined, List.find?_cons, beq_self_eq_true]
    dsimp only
    rw [hruns, hwrite]
  rw [hgone]
  refine ⟨?_, hplaced.moved.scratch, hplaced.moved.err, hplaced.mem⟩
  rw [hartOf_updHart_self, combined_of_moved hplaced.moved, hcombined]
  simp

theorem CombinedGone.read {h a : Nat} {bs : List Byte} {s t : State} (hgone : CombinedGone h a bs s t) (hplain : InPlain s a bs.length) :
    memRead t.mem a bs.length = bs ∧ ∀ c, c < a ∨ a + bs.length ≤ c → memGet t.mem c = memGet s.mem c := by
  rw [hgone.mem hplain]
  exact ⟨memRead_memWrite .., fun c hc => memGet_memWrite_of_out _ _ _ hc⟩

/-! ### A store combines (R426) -/

theorem blocksOf_of_codeword {pa n : Nat} (hn : 0 < n) (hin : pa / 512 = (pa + n - 1) / 512) : blocksOf 512 pa n = [pa / 512] := by
  rw [blocksOf, if_neg (by omega), ← hin]
  simp

theorem cells_of_codeword {pa : Nat} {bs : List Byte} (hn : 0 < bs.length) (hin : pa / 512 = (pa + bs.length - 1) / 512) :
    (((bs.zipIdx.map fun b => (pa + b.2, b.1)).filter fun x => x.1 / 512 == pa / 512).map fun x => (x.1 % 512, x.2)) =
      bs.zipIdx.map fun b => (pa % 512 + b.2, b.1) := by
  have hoffset : ∀ b ∈ bs.zipIdx, b.2 < bs.length := fun b hb => by
    have := List.mem_zipIdx hb
    omega
  have hall : (bs.zipIdx.map fun b => (pa + b.2, b.1)).filter (fun x => x.1 / 512 == pa / 512) = bs.zipIdx.map fun b => (pa + b.2, b.1) := by
    refine List.filter_eq_self.2 fun x hx => ?_
    obtain ⟨b, hb, rfl⟩ := List.mem_map.1 hx
    have := hoffset b hb
    rw [beq_iff_eq]
    show (pa + b.2) / 512 = pa / 512
    omega
  rw [hall, List.map_map]
  refine List.map_congr_left fun b hb => ?_
  have := hoffset b hb
  show ((pa + b.2) % 512, b.1) = (pa % 512 + b.2, b.1)
  congr 1
  omega

/-- The hart that has combined its first bytes. -/
def Hart.combining (pa now context : Nat) (bs : List Byte) (x : Hart) : Hart :=
  { x with combined := [⟨pa / 512, bs.zipIdx.map (fun b => (pa % 512 + b.2, b.1)), now, context⟩] }

theorem combineStore_of_none {h pa : Nat} {bs : List Byte} {s : State} (hnone : (hartOf s h).combined = []) (hn : 0 < bs.length)
    (hin : pa / 512 = (pa + bs.length - 1) / 512) :
    OnlyHart h ((hartOf s h).combining pa s.now (hartContextOf s h) bs) s (combineStore h pa bs s) := by
  have hothers : sendOthers h (pa / 512) (hartContextOf s h) s = s := by
    rw [sendOthers, hnone]
    rfl
  have hstore : combineStore h pa bs s =
      updHart h (combineInto s.now (pa / 512) (hartContextOf s h) (bs.zipIdx.map fun b => (pa % 512 + b.2, b.1))) s := by
    rw [combineStore, blocksOf_of_codeword hn hin, List.foldl_cons, List.foldl_nil, cells_of_codeword hn hin, hothers]
  have hinto : combineInto s.now (pa / 512) (hartContextOf s h) (bs.zipIdx.map fun b => (pa % 512 + b.2, b.1)) (hartOf s h) =
      (hartOf s h).combining pa s.now (hartContextOf s h) bs := by
    unfold combineInto Hart.combining
    rw [hnone]
    rfl
  rw [hstore, ← hinto]
  exact onlyHart_updHart ..

theorem systemCacheAccess_of_unarmed {s : State} (hunarmed : s.err.inj.cells = []) (context codeword : Nat) :
    systemCacheAccess context false s codeword = s := by
  unfold systemCacheAccess
  rw [fireInjection_of_unarmed hunarmed]
  simp

theorem systemCacheRange_of_unarmed {s : State} (hunarmed : s.err.inj.cells = []) (context : Nat) (ps : List HartPiece) :
    systemCacheRange context false ps s = s := by
  unfold systemCacheRange
  induction ps.flatMap fun p => blocksOf 512 p.pa p.n with
  | nil => rfl
  | cons c cs ih => rw [List.foldl_cons, systemCacheAccess_of_unarmed hunarmed, ih]

theorem sendCombined_of_none {h : Nat} {s : State} (hnone : (hartOf s h).combined = []) (codeword : Nat) : sendCombined h codeword s = s := by
  rw [sendCombined, hnone]
  rfl

/-- A store to an uncached page leaves at once. -/
theorem hartTierStore_uncached {h va pa : Nat} {bs : List Byte} {s : State} (hnone : (hartOf s h).combined = []) (hn : 0 < bs.length)
    (hin : pa / 512 = (pa + bs.length - 1) / 512) (hw : ServesWrite (hartRequester s h) pa bs.length s) :
    CombinedGone h pa bs s (hartTierStore h true [⟨va, pa, bs.length⟩] bs s) := by
  obtain ⟨hsame, hself, -⟩ := combineStore_of_none hnone hn hin
  have hstore : hartTierStore h true [⟨va, pa, bs.length⟩] bs s = sendCombined h (pa / 512) (combineStore h pa bs s) := by
    simp only [hartTierStore, blocksOf_of_codeword hn hin, List.foldl_cons, List.foldl_nil, List.take_length, if_true,
      sendCombined_of_none hnone]
  have hbase : pa / 512 * 512 + pa % 512 = pa := by omega
  have hserves : ServesWrite (hartRequesterIn h (hartContextOf s h)) (pa / 512 * 512 + pa % 512) bs.length (combineStore h pa bs s) := by
    rw [hbase, hsame]
    exact servesWrite_updHart hw h fun _ => hartOf (combineStore h pa bs s) h
  have hcombined : (hartOf (combineStore h pa bs s) h).combined = [⟨pa / 512, cellsAt (pa % 512) bs, s.now, hartContextOf s h⟩] := by
    rw [hself, Hart.combining, cellsAt_eq]
  have hbs : bs ≠ [] := fun hnil => by simp [hnil] at hn
  have hgone := sendCombined_only hbs (by omega) hcombined hserves
  rw [hbase] at hgone
  rw [hstore]
  refine ⟨hgone.combined, hgone.scratch.trans ?_, hgone.err.trans ?_, fun hplain => ?_⟩
  · rw [hsame]
  · rw [hsame]
  · have hmem : (combineStore h pa bs s).mem = s.mem := by rw [hsame]
    rw [← hmem]
    refine hgone.mem fun p hp => ?_
    rw [hsame]
    exact hplain p hp

/-! ### Stores to the control space -/

theorem hartPlace_of_register {pa : Nat} (h : registerAddress pa = true) : hartPlace pa 8 = .register := by
  simp only [registerAddress, Bool.and_eq_true, decide_eq_true_eq, beq_iff_eq, Bool.not_eq_true'] at h
  obtain ⟨⟨⟨hlow, hhigh⟩, halign⟩, hfour⟩ := h
  have hcontrol : ∀ a, controlBase ≤ a → a < controlBase + controlSize → regionOf a = .control ∧ inOverlay a = false := by
    intro a ha hb
    have hnear : nearSize ≤ controlBase ∧ bulkBase ≤ controlBase ∧ bulkBase + bulkSize ≤ controlBase ∧ flashBase ≤ controlBase ∧
        flashBase + flashSize ≤ controlBase ∧ controlBase + controlSize ≤ outBase := by decide
    obtain ⟨h1, h2, h3, h4, h5, h6⟩ := hnear
    refine ⟨?_, by rw [inOverlay, decide_eq_false_iff_not]; omega⟩
    rw [regionOf, if_neg (by omega), if_neg (by omega), if_neg (by omega), if_neg (by omega), if_neg (by omega), if_pos hb]
  have hlast : pa + 8 - 1 < controlBase + controlSize := by
    have : (controlBase + controlSize) % 8 = 0 := by decide
    omega
  obtain ⟨hregion, hover⟩ := hcontrol pa hlow hhigh
  obtain ⟨hregionLast, hoverLast⟩ := hcontrol (pa + 8 - 1) (by omega) hlast
  rw [hartPlace, hover, hoverLast, Bool.or_self, if_neg Bool.false_ne_true, hregion, hregionLast, if_neg (fun hne => hne rfl)]
  dsimp only
  rw [hfour, if_neg Bool.false_ne_true]

theorem placeAccepts_register {mode : HartMode} {pa : Nat} (hmode : mode.reachesControl = true) (h : registerAddress pa = true) :
    placeAccepts mode false pa 8 .register = true := by
  simp only [registerAddress, Bool.and_eq_true, decide_eq_true_eq, beq_iff_eq, Bool.not_eq_true'] at h
  simp [placeAccepts, hmode, h.1.2]

theorem hartRegStore_of_register {h pa : Nat} (hsite : siteWindowOf (pa - controlBase) = none) (v : W64) (s : State) :
    hartRegStore h pa v s = if (regWrite (.hart h) (pa - controlBase) v s).1 then (regWrite (.hart h) (pa - controlBase) v s).2
      else updHart h (fun x => { x with waiting := .write }) (regWrite (.hart h) (pa - controlBase) v s).2 := by
  rw [hartRegStore, hartRegStoreAt, hsite]

/-- Settles O52: a hart's stores combine, leave as one write when their time ends or a barrier asks, or go to the control space. -/
theorem storesCombineThenLeave : Obligations.StoresCombineThenLeave := by
  intro h n va pa mode x v s hruns y
  have hbegun := onlyHart_beginAccess h mode x s
  refine ⟨fun hmap hin hnone hserves hplain => ?_, fun hmap htier hfree hin hnone hunarmed => ?_,
    fun uncached hmap hregister hmode hsite => ?_, ?_, fun w o since context bs hbs hin hcombined hserves hplain => ?_⟩
  · have hlen : (bytesOfNat n v.toNat).length = n := length_bytesOfNat ..
    have hexec := (hartStore_of_mapsTo v hruns hmap).2.1 (hartPlace_of_codeword hserves.1 hin) (by
      rcases hserves.1 with hr | hr <;> simp [storeBarred, hr])
    have hgone := hartTierStore_uncached (va := va) (bs := bytesOfNat n v.toNat) (s := beginAccess h mode x s) (h := h) (pa := pa)
      (by rw [hartOf_beginAccess]; exact hnone) (by rw [hlen]; exact hmap.1) (by rw [hlen]; exact hin)
      (by rw [hlen]; exact servesWrite_updHart hserves h _)
    rw [hlen] at hgone
    have hread := hgone.read (by rw [hlen]; exact inPlain_updHart hplain h _)
    rw [hlen] at hread
    exact ⟨_, hexec, hgone.combined, hread.1, hread.2, hgone.scratch, hgone.err⟩
  · have hlen : (bytesOfNat n v.toNat).length = n := length_bytesOfNat ..
    have hexec := (hartStore_of_mapsTo v hruns hmap).2.1 htier hfree
    have hstore : hartTierStore h false [⟨va, pa, n⟩] (bytesOfNat n v.toNat) (beginAccess h mode x s) =
        combineStore h pa (bytesOfNat n v.toNat) (beginAccess h mode x s) := by
      have htake : (bytesOfNat n v.toNat).take n = bytesOfNat n v.toNat := List.take_of_length_le (by omega)
      have hcache := systemCacheRange_of_unarmed (s := beginAccess h mode x s) hunarmed (hartContextOf (beginAccess h mode x s) h) [⟨va, pa, n⟩]
      simp only [hartTierStore, htake, Bool.false_eq_true, if_false, hcache]
    have hcombining := combineStore_of_none (h := h) (pa := pa) (bs := bytesOfNat n v.toNat) (s := beginAccess h mode x s)
      (by rw [hartOf_beginAccess]; exact hnone) (by rw [hlen]; exact hmap.1) (by rw [hlen]; exact hin)
    obtain ⟨hsame, hself, hothers⟩ := hcombining
    rw [hstore] at hexec
    refine ⟨_, hexec, ?_, ?_, fun k hk => (hothers k hk).trans (hbegun.2.2 k hk)⟩
    · rw [hsame]
      rfl
    · rw [hself, hartOf_beginAccess]
      rfl
  · have hexec := (hartStore_of_mapsTo v hruns hmap).2.2 (hartPlace_of_register hregister) (placeAccepts_register hmode hregister)
    rw [hartRegStore_of_register hsite] at hexec
    exact hexec
  · show execLoadBarrier h s = _
    rw [execLoadBarrier, if_pos hruns]
  · have hgone := sendCombined_only hbs hin (by rw [hcombined, cellsAt_eq]) hserves
    have hread := hgone.read hplain
    have hin : inService s = true := by
      simp only [hartRuns, Bool.and_eq_true] at hruns
      exact hruns.2
    have hbarrier : storeBarrier h s = updHart h (fun x => { x with waiting := .barrier }) (sendCombined h w s) := by
      rw [storeBarrier, if_pos hruns, sendAllCombined, hcombined]
      rfl
    have hwaits : ∃ t, storeBarrier h s = t ∧ (hartOf t h).combined = [] ∧ memRead t.mem (w * 512 + o) bs.length = bs ∧
        (∀ a, a < w * 512 + o ∨ w * 512 + o + bs.length ≤ a → memGet t.mem a = memGet s.mem a) ∧ (hartOf t h).waiting = .barrier ∧
        t.scratch = s.scratch ∧ t.err = s.err := by
      refine ⟨_, hbarrier, ?_, hread.1, hread.2, ?_, hgone.scratch, hgone.err⟩
      · rw [hartOf_updHart_self]
        exact hgone.combined
      · rw [hartOf_updHart_self]
    obtain ⟨t, ht, hnone, hbytes, hrest, hwaiting, hscratch, herr⟩ := hwaits
    intro c hc
    simp only [List.mem_cons, List.not_mem_nil, or_false] at hc
    rcases hc with rfl | rfl | rfl
    · have hexec : exec (.combinedStoreSend h w) s = .next (sendCombined h w s) := by
        show execCombinedStoreSend h w s = _
        rw [execCombinedStoreSend, if_pos hin]
      exact ⟨_, hexec, hgone.combined, hread.1, hread.2, fun hno => by simp at hno, hgone.scratch, hgone.err⟩
    · exact ⟨t, congrArg Host.Outcome.next ht, hnone, hbytes, hrest, fun _ => hwaiting, hscratch, herr⟩
    · exact ⟨t, congrArg Host.Outcome.next ht, hnone, hbytes, hrest, fun _ => hwaiting, hscratch, herr⟩

end Sys2Proof.Machine
end

