-- ==== Sys2Proof/Proofs/HartMemory.lean ====
section
/-!
PROOFS. Proofs/HartMemory.lean: how a Landing hart translates (R15, R288), what its loads return, and what its atomics leave (R326, R327,
R426, R430).
-/

namespace Sys2Proof.Machine

/-! ### The translation of a hart (R15, R288, R290) -/

theorem hartMap_of_bare {mode : HartMode} {x : HartView} (hbare : mode = .m ∨ (x.root = none ∧ (x.guest = none ∨ mode.virtual = false)))
    (h va n : Nat) (kind : HartKind) (s : State) : hartMap h mode kind x va n s = (.ok ([⟨va, va, n⟩], false), s) := by
  have hcond : mode = .m ∨ (x.root = none ∧ (x.guest = none ∨ (!mode.virtual) = true)) := by
    rcases hbare with hm | ⟨hroot, hguest | hvirtual⟩
    · exact .inl hm
    · exact .inr ⟨hroot, .inl hguest⟩
    · exact .inr ⟨hroot, .inr (by rw [hvirtual]; rfl)⟩
  rw [hartMap, if_pos hcond]

theorem readEntry_of_served {q : Requester} {a pte : Nat} {s : State} (hrange : rangeNearOrBulk a 8 = true) (hpte : pte < 2 ^ 64)
    (hread : physRead q a 8 s = (.done (bytesOfNat 8 pte), s)) : readEntry q a s = (.ok pte, s) := by
  rw [readEntry, hrange, Bool.not_true, if_neg Bool.false_ne_true, hread]
  dsimp only
  rw [natOfBytes_bytesOfNat, Nat.mod_eq_of_lt (by omega)]

theorem readEntry_of_out {q : Requester} {a : Nat} {s : State} (hrange : rangeNearOrBulk a 8 = false) :
    readEntry q a s = (.error (.access 0x9103 a), s) := by
  rw [readEntry, hrange, Bool.not_false, if_pos rfl]

/-- An address keeps its offset in a page through a leaf. -/
theorem leafPa_mod (base vpn v : Nat) (h : vpn * 4096 ≤ v) : (base * 4096 + (v - vpn * 4096)) % 4096 = v % 4096 := by omega

section
variable {read : Nat → State → Except HartStop Nat × State} {ok : Nat → Bool} {v n extra table pte : Nat} {s : State}
  (hread : read (table + bitsOf v (20 + 9 * n + extra) (12 + 9 * n) * 8) s = (.ok pte, s))
include hread

theorem hartWalk_of_invalid (hbad : bitOf pte 0 = false ∨ pteMalformed pte n = true ∨ bitsOf pte 62 61 = 3) :
    hartWalk read ok v (n + 1) extra table s = (.error .page, s) := by
  have hstop : (!bitOf pte 0 || pteMalformed pte n || bitsOf pte 62 61 == 3) = true := by
    rcases hbad with hv | hm | hp
    · simp [hv]
    · simp [hm]
    · simp [hp]
  rw [hartWalk, hread]
  exact if_pos hstop

theorem hartWalk_of_valid (hvalid : bitOf pte 0 = true) (hformed : pteMalformed pte n = false) (hpbmt : bitsOf pte 62 61 ≠ 3) :
    hartWalk read ok v (n + 1) extra table s =
      if pteLeaf pte then (if ok pte then (.ok (leafPa ⟨none, 0, v / 4096 / leafPages pte n * leafPages pte n, leafPages pte n, pte⟩ v,
        bitsOf pte 62 61 != 0), s) else (.error .page, s)) else hartWalk read ok v n 0 (ptePpn pte * 4096) s := by
  have hgo : ¬((!bitOf pte 0 || pteMalformed pte n || bitsOf pte 62 61 == 3) = true) := by simp [hvalid, hformed, hpbmt]
  rw [hartWalk, hread]
  exact if_neg hgo

end

theorem leafPa_page (k pte v : Nat) : leafPa ⟨none, 0, v / 4096 / k * k, k, pte⟩ v % 4096 = v % 4096 := by
  have hpage : v / 4096 / k * k ≤ v / 4096 := Nat.div_mul_le_self ..
  have hbelow : v / 4096 / k * k * 4096 ≤ v := by omega
  exact leafPa_mod _ _ _ hbelow

theorem hartPage_of_host {q : Requester} {x : HartView} {mode : HartMode} {r : Nat} (hmode : mode = .hs ∨ mode = .u) (hroot : x.root = some r)
    (kind : HartKind) (va : Nat) (s : State) : hartPage q x mode kind va s =
      if va / 2 ^ ((if x.sv39 then 39 else 48) - 1) ≠ 0 ∧
          va / 2 ^ ((if x.sv39 then 39 else 48) - 1) ≠ 2 ^ (65 - if x.sv39 then 39 else 48) - 1 then (.error .page, s)
      else hartWalk (readEntry q) (hartLeafOk x mode kind) (va % 2 ^ (if x.sv39 then 39 else 48)) (if x.sv39 then 3 else 4) 0 r s := by
  have hhost : mode ≠ .m ∧ mode.virtual = false := by
    rcases hmode with rfl | rfl
    · exact ⟨by decide, rfl⟩
    · exact ⟨by decide, rfl⟩
  rw [hartPage, if_neg hhost.1, hroot]
  dsimp only
  rw [hhost.2]
  refine if_congr Iff.rfl rfl ?_
  rw [if_neg Bool.false_ne_true]
  cases hartWalk (readEntry q) (hartLeafOk x mode kind) (va % 2 ^ (if x.sv39 then 39 else 48)) (if x.sv39 then 3 else 4) 0 r s with
  | mk a t => cases a <;> rfl

/-- A leaf permits an access as its bits say (R15). -/
theorem hartLeafOk_iff {x : HartView} {mode : HartMode} (hmode : mode ≠ .m) (kind : HartKind) (pte : Nat) : hartLeafOk x mode kind pte = true ↔
    (bitOf pte 6 = true ∧ (kind = .store → bitOf pte 7 = true) ∧
      (match kind with
        | .fetch => bitOf pte 3 = true
        | .load => bitOf pte 1 = true ∨ (x.mxr = true ∧ bitOf pte 3 = true)
        | .store => bitOf pte 2 = true) ∧
      (bitOf pte 4 = true ↔ mode = .u ∨ mode = .vu) ∨ (bitOf pte 6 = true ∧ (kind = .store → bitOf pte 7 = true) ∧
      (match kind with
        | .fetch => False
        | .load => bitOf pte 1 = true ∨ (x.mxr = true ∧ bitOf pte 3 = true)
        | .store => bitOf pte 2 = true) ∧ bitOf pte 4 = true ∧ x.sum = true)) := by
  have huser : mode = .u ∨ mode = .vu ∨ mode = .hs ∨ mode = .vs := by cases mode <;> simp at hmode ⊢
  cases hpage : bitOf pte 4 <;> rcases huser with rfl | rfl | rfl | rfl <;> cases kind <;> simp [hartLeafOk, leafAllows, hpage] <;> tauto

/-! ### Page faults (R15) -/

section
variable {h va a gpa n : Nat} {mode : HartMode} {x : HartView} {s : State} (hruns : hartRuns s h = true) (hn : 0 < n)
  (hnone : (hartOf s h).combined = [])
include hruns hn hnone

omit hruns hn in
theorem hartTrap_beginAccess (trap : HartTrap) (stval tval2 : Nat) : hartTrap h trap stval tval2 (beginAccess h mode x s) =
    updHart h (fun y => { y.take trap stval with tval2 := BitVec.ofNat 64 tval2 }) (beginAccess h mode x s) :=
  hartTrap_of_none (by rw [hartOf_beginAccess]; exact hnone) ..

theorem exec_hartLoad_of_page {fetch : Bool} (hmap : hartMap h mode (loadKind fetch) x va n (beginAccess h mode x s) =
      (.error (a, .page), beginAccess h mode x s)) : exec (.hartLoad h mode va n fetch x) s =
    .next (updHart h (fun y => { y.take (loadKind fetch).pageTrap a with tval2 := BitVec.ofNat 64 0 }) (beginAccess h mode x s)) := by
  show Host.Outcome.next (hartLoad h mode va n fetch x s) = _
  rw [hartLoad, if_neg (not_idle_of_runs hruns hn), ← loadKind, hartAt, hmap]
  exact congrArg Host.Outcome.next (hartTrap_beginAccess hnone ..)

theorem exec_hartLoad_of_guest {fetch : Bool} (hmap : hartMap h mode (loadKind fetch) x va n (beginAccess h mode x s) =
      (.error (a, .guest gpa), beginAccess h mode x s)) : exec (.hartLoad h mode va n fetch x) s =
    .next (updHart h (fun y => { y.take (loadKind fetch).guestTrap a with tval2 := BitVec.ofNat 64 (gpa / 4) }) (beginAccess h mode x s)) := by
  show Host.Outcome.next (hartLoad h mode va n fetch x s) = _
  rw [hartLoad, if_neg (not_idle_of_runs hruns hn), ← loadKind, hartAt, hmap]
  exact congrArg Host.Outcome.next (hartTrap_beginAccess hnone ..)

theorem exec_hartStore_of_page (v : BitVec 512) (hmap : hartMap h mode .store x va n (beginAccess h mode x s) =
      (.error (a, .page), beginAccess h mode x s)) : exec (.hartStore h mode va n v x) s =
    .next (updHart h (fun y => { y.take .storePage a with tval2 := BitVec.ofNat 64 0 }) (beginAccess h mode x s)) := by
  show Host.Outcome.next (hartStore h mode va n v x s) = _
  rw [hartStore, if_neg (not_idle_of_runs hruns hn), hartAt, hmap]
  exact congrArg Host.Outcome.next (hartTrap_beginAccess hnone ..)

theorem exec_hartStore_of_guest (v : BitVec 512) (hmap : hartMap h mode .store x va n (beginAccess h mode x s) =
      (.error (a, .guest gpa), beginAccess h mode x s)) : exec (.hartStore h mode va n v x) s =
    .next (updHart h (fun y => { y.take .storeGuest a with tval2 := BitVec.ofNat 64 (gpa / 4) }) (beginAccess h mode x s)) := by
  show Host.Outcome.next (hartStore h mode va n v x s) = _
  rw [hartStore, if_neg (not_idle_of_runs hruns hn), hartAt, hmap]
  exact congrArg Host.Outcome.next (hartTrap_beginAccess hnone ..)

end

/-! ### Loads of the tiers (R426, R427) -/

theorem servesRead_updHart {q : Requester} {pa n : Nat} {s : State} (hr : ServesRead q pa n s) (h : Nat) (f : Hart → Hart) :
    ServesRead q pa n (updHart h f s) := by
  obtain ⟨hregion, hunarmed, hfiring, hrefusal, hpoison, hrepair⟩ := hr
  exact ⟨hregion, hunarmed, hfiring, by rw [accessRefusal_updHart]; exact hrefusal, hpoison, hrepair⟩

theorem plainRead_updHart (h : Nat) (f : Hart → Hart) (s : State) (pa n : Nat) : plainRead (updHart h f s) pa n = plainRead s pa n := rfl

theorem length_homeBytes {pa : Nat} (hregion : regionOf pa = .near ∨ regionOf pa = .bulk) (s : State) (key : HomeKey) (n : Nat) :
    (homeBytes s key pa n).length = n := by
  have hflash : regionOf pa ≠ .flash := by rcases hregion with hr | hr <;> rw [hr] <;> decide
  match key with
  | .sealed k =>
    rw [homeBytes, if_neg hflash, decryptedAt]
    simp only [sliceBytes, List.length_append, List.length_replicate]
    have := List.length_take_le n ((xtsRange false k ((pa + n + 511) / 512 - pa / 512) (pa / 512) (rawRead s (pa / 512 * 512) (((pa + n + 511) / 512 - pa / 512) * 512))).drop (pa - pa / 512 * 512))
    omega
  | .plain => rw [homeBytes, if_neg hflash]; exact length_memRead ..
  | .gone => rw [homeBytes, if_neg hflash]; exact length_memRead ..

theorem stake_of_codeword {pa n : Nat} (hn : 0 < n) (hin : pa / 512 = (pa + n - 1) / 512) : piecesOf stakeSize pa n = [(pa, n)] := by
  refine piecesOf_of_within stakeSize_pos (by omega) ?_
  simp only [stakeSize]
  omega

theorem length_plainRead {pa n : Nat} (hregion : regionOf pa = .near ∨ regionOf pa = .bulk) (hn : 0 < n)
    (hin : pa / 512 = (pa + n - 1) / 512) (s : State) : (plainRead s pa n).length = n := by
  rw [plainRead, stake_of_codeword hn hin, List.flatMap_cons, List.flatMap_nil, List.append_nil]
  exact length_homeBytes hregion ..

/-- A codeword of the near or bulk tier that is looked up for a load is in the system cache afterwards. -/
theorem systemCacheRange_fill {va pa n : Nat} {s : State} (hunarmed : s.err.inj.cells = []) (hregion : regionOf pa = .near ∨ regionOf pa = .bulk)
    (hn : 0 < n) (hin : pa / 512 = (pa + n - 1) / 512) (context : Nat) : ∃ c, pa / 512 ∈ c ∧
      systemCacheRange context true [⟨va, pa, n⟩] s = { s with landing := { s.landing with systemCache := c } } := by
  have hcached : cachedRegion (regionOf (pa / 512 * 512)) = true := by
    rw [regionOf_codeword]
    rcases hregion with hr | hr <;> rw [hr] <;> rfl
  have hone : systemCacheRange context true [⟨va, pa, n⟩] s = systemCacheAccess context true s (pa / 512) := by
    rw [systemCacheRange, List.flatMap_cons, List.flatMap_nil, List.append_nil, blocksOf_of_codeword hn hin]
    rfl
  rw [hone, systemCacheAccess, hcached, Bool.not_true, if_neg Bool.false_ne_true]
  by_cases hheld : s.landing.systemCache.contains (pa / 512) = true
  · refine ⟨s.landing.systemCache, by simpa using hheld, ?_⟩
    rw [if_pos hheld, fireInjection_of_unarmed hunarmed]
    rfl
  · refine ⟨(pa / 512 :: s.landing.systemCache).take systemCacheLines, ?_, ?_⟩
    · exact List.mem_cons_self
    · rw [if_neg hheld, if_pos rfl]

theorem readPiecesOf_of_serves {q : Requester} {h va pa n : Nat} {s : State} (hserves : ServesRead q pa n s) :
    readPiecesOf q h [⟨va, pa, n⟩] s = (.done (overlayOwn (hartOf s h) pa (plainRead s pa n)), 0, s) := by
  rw [readPiecesOf, placeRead_of_region hserves.1, physRead_of_serves hserves]
  dsimp only
  rw [readPiecesOf]
  simp

theorem hartTierLoad_of_serves {h va pa n : Nat} {s : State} (hn : 0 < n) (hin : pa / 512 = (pa + n - 1) / 512)
    (hserves : ServesRead (hartRequester s h) pa n s) (fetch cached : Bool) :
    hartTierLoad h (hartContextOf s h) fetch cached [⟨va, pa, n⟩] s =
      updHart h (fun x => { x.loaded (overlayOwn (hartOf s h) pa (plainRead s pa n)) with waiting := .nothing })
        (if cached then systemCacheRange (hartContextOf s h) true [⟨va, pa, n⟩] s else s) := by
  rw [hartTierLoad, ← hartRequester, List.flatMap_cons, List.flatMap_nil, List.append_nil, codewordPieces_of_codeword hn hin,
    readPiecesOf_of_serves hserves]

/-- What a load of the near or bulk tier leaves (R426, R427). -/
theorem exec_hartLoad_of_serves {h n va pa : Nat} {mode : HartMode} {x : HartView} {uncached fetch : Bool} {s : State}
    (hruns : hartRuns s h = true) (hmap : MapsTo h mode (loadKind fetch) x va n pa uncached s) (hin : pa / 512 = (pa + n - 1) / 512)
    (hserves : ServesRead (hartRequester s h) pa n s) : ∃ c t, exec (.hartLoad h mode va n fetch x) s = .next t ∧
      t = updHart h (fun y => { y.loaded (overlayOwn (hartOf s h) pa (plainRead s pa n)) with waiting := .nothing })
        { beginAccess h mode x s with landing := { (beginAccess h mode x s).landing with systemCache := c } } ∧
      if uncached then c = s.landing.systemCache else pa / 512 ∈ c := by
  have hexec := (hartLoad_of_mapsTo (fetch := fetch) hruns hmap).2.1 (hartPlace_of_codeword hserves.1 hin)
  have hown : overlayOwn (hartOf (beginAccess h mode x s) h) pa (plainRead (beginAccess h mode x s) pa n) =
      overlayOwn (hartOf s h) pa (plainRead s pa n) := by
    rw [hartOf_beginAccess]
    rfl
  have hserves0 : ServesRead (hartRequester (beginAccess h mode x s) h) pa n (beginAccess h mode x s) := servesRead_updHart hserves h _
  have hload := hartTierLoad_of_serves (va := va) hmap.1 hin hserves0 fetch (!uncached)
  rw [hown] at hload
  cases uncached with
  | true => exact ⟨s.landing.systemCache, _, hexec, hload, rfl⟩
  | false =>
    obtain ⟨c, hc, hcache⟩ := systemCacheRange_fill (va := va) (s := beginAccess h mode x s) hserves.2.1 hserves.1 hmap.1 hin
      (hartContextOf s h)
    refine ⟨c, _, hexec, hload.trans ?_, hc⟩
    rw [Bool.not_false, if_pos rfl]
    exact congrArg _ hcache

/-! ### Fetches from the core ROM (R430) -/

theorem hartPlace_of_rom {pa n : Nat} (hn : 0 < n) (hlow : controlBase ≤ pa) (hrom : 0x2800000 ≤ pa - controlBase)
    (hend : pa - controlBase + n ≤ 0x2810000) : hartPlace pa n = .register := by
  have hcontrol : ∀ a, controlBase ≤ a → a < controlBase + 0x2810000 → regionOf a = .control ∧ inOverlay a = false := by
    intro a ha hb
    have hbounds : nearSize ≤ controlBase ∧ bulkBase ≤ controlBase ∧ bulkBase + bulkSize ≤ controlBase ∧ flashBase ≤ controlBase ∧
        flashBase + flashSize ≤ controlBase ∧ controlBase + controlSize ≤ outBase := by decide
    have hsize : 0x2810000 ≤ controlSize := by norm_num [controlSize]
    obtain ⟨h1, h2, h3, h4, h5, h6⟩ := hbounds
    have hin : a < controlBase + controlSize := lt_of_lt_of_le hb (Nat.add_le_add_left hsize _)
    refine ⟨?_, by rw [inOverlay, decide_eq_false_iff_not]; omega⟩
    rw [regionOf, if_neg (by omega), if_neg (by omega), if_neg (by omega), if_neg (by omega), if_neg (by omega), if_pos hin]
  obtain ⟨hregion, hover⟩ := hcontrol pa hlow (by omega)
  obtain ⟨hregionLast, hoverLast⟩ := hcontrol (pa + n - 1) (by omega) (by omega)
  have hfour : fourByteOffset (pa - controlBase) = false := by simp [fourByteOffset]; omega
  rw [hartPlace, hover, hoverLast, Bool.or_self, if_neg Bool.false_ne_true, hregion, hregionLast, if_neg (fun hne => hne rfl)]
  dsimp only
  rw [hfour, if_neg Bool.false_ne_true]

theorem placeAccepts_rom {mode : HartMode} {pa n : Nat} (hmode : mode.reachesControl = true) (hrom : 0x2800000 ≤ pa - controlBase)
    (hend : pa - controlBase + n ≤ 0x2810000) : placeAccepts mode true pa n .register = true := by
  have hin : inCoreRom (pa - controlBase) n = true := decide_eq_true ⟨hrom, hend⟩
  rw [placeAccepts, hmode, Bool.true_and, if_pos rfl, hin]

/-! ### Atomics (R326, R327) -/

theorem atomicSize_of_word (op : AmoOp) {n : Nat} (hn : n = 4 ∨ n = 8) : atomicSize op n = true := by
  rcases hn with rfl | rfl <;> rfl

theorem size_of_atomicSize {op : AmoOp} {n : Nat} (h : atomicSize op n = true) : n = 4 ∨ n = 8 ∨ n = 16 := by
  simp only [atomicSize, Bool.or_eq_true, Bool.and_eq_true, beq_iff_eq] at h
  rcases h with (h | h) | ⟨-, h⟩
  · exact .inl h
  · exact .inr (.inl h)
  · exact .inr (.inr h)

theorem codeword_of_aligned {pa n : Nat} (hn : n = 4 ∨ n = 8 ∨ n = 16) (halign : pa % n = 0) : pa / 512 = (pa + n - 1) / 512 := by
  rcases hn with rfl | rfl | rfl <;> omega

theorem rangeNearOrBulk_of_codeword {pa n : Nat} (hregion : regionOf pa = .near ∨ regionOf pa = .bulk) (hin : pa / 512 = (pa + n - 1) / 512) :
    rangeNearOrBulk pa n = true := by
  have hlast := regionOf_of_codeword hin
  rcases hregion with hr | hr <;> simp [rangeNearOrBulk, rangeIn, ← hlast, hr]

theorem not_idle_of_atomic {h n : Nat} {op : AmoOp} {s : State} (hruns : hartRuns s h = true) (hsize : atomicSize op n = true) :
    ¬((!hartRuns s h || !atomicSize op n) = true) := by
  rw [hruns, hsize]
  decide

theorem storesAcked_beginAccess (h : Nat) (mode : HartMode) (x : HartView) (s : State) :
    storesAcked (beginAccess h mode x s) h = storesAcked s h := by
  rw [storesAcked, hartOf_beginAccess, storesAcked]
  rfl

/-- An atomic at one address of the near or bulk tier reaches the location's ordering point (R326). -/
theorem exec_hartAtomic_here {h n va pa : Nat} {mode : HartMode} {op : AmoOp} {x : HartView} {uncached rl : Bool} {a b : BitVec 128} {s : State}
    (hruns : hartRuns s h = true) (hsize : atomicSize op n = true) (hop : op ≠ .wrs)
    (hmap : MapsTo h mode (if op = .lr then .load else .store) x va n pa uncached s) (halign : pa % n = 0)
    (hregion : regionOf pa = .near ∨ regionOf pa = .bulk) (hnone : (hartOf s h).combined = []) (hacked : rl = false ∨ storesAcked s h = true) :
    exec (.hartAtomic h mode op va n a b rl x) s = .next (atomicHere h op va pa n a.toNat b.toNat (beginAccess h mode x s)) := by
  have hnone0 : (hartOf (beginAccess h mode x s) h).combined = [] := by rw [hartOf_beginAccess]; exact hnone
  have hwaits : ((!(hartOf (beginAccess h mode x s) h).combined.isEmpty) || (rl && !storesAcked (beginAccess h mode x s) h)) = false := by
    rw [hnone0, storesAcked_beginAccess]
    rcases hacked with hrl | hacked
    · rw [hrl]
      rfl
    · rw [hacked]
      simp
  have hrange := rangeNearOrBulk_of_codeword hregion (codeword_of_aligned (size_of_atomicSize hsize) halign)
  have hplace : ([⟨va, pa, n⟩] : List HartPiece).length = 1 ∧ rangeNearOrBulk pa n = true ∧ pa % n = 0 := ⟨rfl, hrange, halign⟩
  show Host.Outcome.next (hartAtomic h mode op va n a b rl x s) = _
  rw [hartAtomic, if_neg (not_idle_of_atomic hruns hsize), if_neg hop, hartAt_of_mapsTo hmap]
  dsimp only [List.head?, Option.map, Option.getD]
  rw [inOverlay_of_region hregion, Bool.false_and, if_neg Bool.false_ne_true, sendAllCombined_of_none hnone0, hwaits,
    if_neg Bool.false_ne_true, if_pos hplace]

theorem reservation_beginAccess (h : Nat) (mode : HartMode) (x : HartView) (s : State) :
    (hartOf (beginAccess h mode x s) h).reservation = (hartOf s h).reservation := by
  rw [hartOf_beginAccess]
  rfl

/-- What an atomic that is served leaves: the old value with its hart, and its result in its place. -/
theorem atomicHere_of_serves {h n va pa a b : Nat} {op : AmoOp} {s : State} (hop : op ≠ .sc) (hserves : ServesRead (hartRequester s h) pa n s)
    (hscatters : scattersAround s (hartRequester s h) = []) (hplain : InPlain s pa n) :
    (hartOf (atomicHere h op va pa n a b s) h).value = BitVec.ofNat 64 (natOfBytes (plainRead s pa n)) ∧
    (hartOf (atomicHere h op va pa n a b s) h).valueHi = BitVec.ofNat 64 (natOfBytes (plainRead s pa n) / 2 ^ 64) ∧
    (atomicHere h op va pa n a b s).scratch = s.scratch ∧ (atomicHere h op va pa n a b s).err = s.err ∧
    (∀ v, amoResult op (8 * n) (natOfBytes (plainRead s pa n)) (a % 2 ^ (8 * n)) (b % 2 ^ (8 * n)) = some v →
      (atomicHere h op va pa n a b s).mem = memWrite s.mem pa (bytesOfNat n v)) ∧
    (amoResult op (8 * n) (natOfBytes (plainRead s pa n)) (a % 2 ^ (8 * n)) (b % 2 ^ (8 * n)) = none →
      (atomicHere h op va pa n a b s).mem = s.mem) := by
  unfold atomicHere
  rw [if_neg hop, physRead_of_serves hserves]
  dsimp only
  cases amoResult op (8 * n) (natOfBytes (plainRead s pa n)) (a % 2 ^ (8 * n)) (b % 2 ^ (8 * n)) with
  | none =>
    rw [hartOf_updHart_self]
    exact ⟨rfl, rfl, rfl, rfl, fun v hv => by simp at hv, fun _ => rfl⟩
  | some v =>
    have hmoved := moved_placeBytes hscatters pa (bytesOfNat n v)
    have hmem := mem_placeBytes (bs := bytesOfNat n v) hscatters (by rw [length_bytesOfNat]; exact hplain)
    rw [hartOf_updHart_self]
    refine ⟨rfl, rfl, hmoved.scratch, hmoved.err, fun w hw => ?_, fun hno => by simp at hno⟩
    obtain rfl := Option.some.inj hw
    exact hmem

/-- LR reserves the block it reads, and changes nothing else (R327). -/
theorem atomicHere_lr {h n va pa a b : Nat} {s : State} (hserves : ServesRead (hartRequester s h) pa n s) :
    (hartOf (atomicHere h .lr va pa n a b s) h).value = BitVec.ofNat 64 (natOfBytes (plainRead s pa n)) ∧
    (hartOf (atomicHere h .lr va pa n a b s) h).reservation = some (pa / 64) ∧
    (atomicHere h .lr va pa n a b s).mem = s.mem ∧ (atomicHere h .lr va pa n a b s).err = s.err := by
  unfold atomicHere
  rw [if_neg (by decide), physRead_of_serves hserves]
  dsimp only [amoResult]
  rw [hartOf_updHart_self]
  exact ⟨rfl, rfl, rfl, rfl⟩

/-! ### SC (R327) -/

theorem reservation_loseReservation {x : Hart} (hx : x.reservation = none) (pa n : Nat) : loseReservation pa n x = x := by
  rw [loseReservation, hx]

theorem unreserved_rawWrite {h : Nat} {s : State} (hs : (hartOf s h).reservation = none) (pa : Nat) (bs : List Byte) :
    (hartOf (rawWrite pa bs s) h).reservation = none := by
  have hhart : hartOf (rawWrite pa bs s) h = loseReservation pa bs.length (hartOf s h) := Table.get_mapListed _ _ _ _ rfl
  rw [hhart, reservation_loseReservation hs, hs]

theorem unreserved_homeStore {h : Nat} {s : State} (hs : (hartOf s h).reservation = none) (key : HomeKey) (pa : Nat) (bs : List Byte) :
    (hartOf (homeStore key pa bs s) h).reservation = none := by
  match key with
  | .sealed k => exact unreserved_rawWrite hs pa bs
  | .plain => exact unreserved_rawWrite hs pa bs
  | .gone => exact unreserved_rawWrite hs pa bs

theorem unreserved_plainWrite {h : Nat} {s : State} (hs : (hartOf s h).reservation = none) (pa : Nat) (bs : List Byte) :
    (hartOf (plainWrite pa bs s) h).reservation = none := by
  have hfold : ∀ (f : Nat × Nat → HomeKey) (g : Nat × Nat → List Byte) (ps : List (Nat × Nat)) (t : State),
      (hartOf t h).reservation = none → (hartOf (ps.foldl (fun t p => homeStore (f p) p.1 (g p) t) t) h).reservation = none := by
    intro f g ps
    induction ps with
    | nil => exact fun t ht => ht
    | cons p ps ih => exact fun t ht => ih _ (unreserved_homeStore ht ..)
  exact hfold _ _ _ s hs

theorem unreserved_placeBytes {q : Requester} {h : Nat} {s : State} (hscatters : scattersAround s q = [])
    (hs : (hartOf s h).reservation = none) (pa : Nat) (bs : List Byte) : (hartOf (placeBytes q pa bs s) h).reservation = none := by
  unfold placeBytes
  rw [outsideWrite_of_quiet hscatters]
  cases q.agent with
  | hart k => exact unreserved_plainWrite (s := dropOpLines pa bs.length s) hs _ _
  | pcie => exact unreserved_plainWrite (s := dropOpLines pa bs.length s) hs _ _
  | _ => exact unreserved_plainWrite hs _ _

theorem storeConditional_of_held {h n va pa v : Nat} {s : State} (hn : 0 < n) (hin : pa / 512 = (pa + n - 1) / 512)
    (hserves : ServesWrite (hartRequester s h) pa n s) (hplain : InPlain s pa n) (hheld : (hartOf s h).reservation = some (pa / 64)) :
    (hartOf (storeConditional h va pa n v s) h).value = 0 ∧ (hartOf (storeConditional h va pa n v s) h).reservation = none ∧
      (storeConditional h va pa n v s).mem = memWrite s.mem pa (bytesOfNat n v) ∧ (storeConditional h va pa n v s).err = s.err := by
  generalize hs1 : updHart h (fun x => { x with reservation := none }) s = s1
  have hserves1 : ServesWrite (hartRequester s h) pa n s1 := hs1 ▸ servesWrite_updHart hserves h _
  have hplain1 : InPlain s1 pa n := hs1 ▸ inPlain_updHart hplain h _
  have hfree := pieceRefusal_eq_none.1 (hserves1.2.2.2 (pa, n) (by rw [stake_of_codeword hn hin]; exact List.mem_singleton_self _))
  have hrefusal : atomicRefusal s1 (hartRequester s h) pa n = none := by
    rw [atomicRefusal, hfree.1, hfree.2, if_neg Bool.false_ne_true]
  have hstore : storeConditional h va pa n v s = updHart h (atomicValue 0) (placeBytes (hartRequester s h) pa (bytesOfNat n v) s1) := by
    rw [storeConditional, hs1, hheld]
    rw [decide_eq_true rfl, Bool.not_true, if_neg Bool.false_ne_true, hrefusal]
  have hmoved := moved_placeBytes hserves1.2.2.1 pa (bytesOfNat n v)
  have hunreserved : (hartOf s1 h).reservation = none := by rw [← hs1, hartOf_updHart_self]
  have hmem := mem_placeBytes (bs := bytesOfNat n v) hserves1.2.2.1 (by rw [length_bytesOfNat]; exact hplain1)
  rw [hstore, hartOf_updHart_self]
  refine ⟨rfl, unreserved_placeBytes hserves1.2.2.1 hunreserved _ _, hmem.trans ?_, hmoved.err.trans ?_⟩
  · rw [← hs1]
    rfl
  · rw [← hs1]
    rfl

theorem storeConditional_of_free {h n va pa v : Nat} {s : State} (hfree : (hartOf s h).reservation ≠ some (pa / 64)) :
    storeConditional h va pa n v s = updHart h (atomicValue 1) (updHart h (fun x => { x with reservation := none }) s) := by
  rw [storeConditional, decide_eq_false hfree]
  exact if_pos rfl

/-- Settles O51: how a hart translates, what its loads return, and what its atomics leave. -/
theorem hartsReadAndUpdateMemory : Obligations.HartsReadAndUpdateMemory := by
  refine ⟨⟨fun h va n mode kind x s hbare => hartMap_of_bare hbare h va n kind s,
      fun q a pte s => ⟨fun hrange hpte hread => readEntry_of_served hrange hpte hread, readEntry_of_out⟩,
      fun read ok v n extra table pte s hread => ⟨hartWalk_of_invalid hread, fun hvalid hformed hpbmt => ?_⟩,
      fun x mode kind pte hmode => hartLeafOk_iff hmode kind pte,
      fun q x mode kind va r s hmode hroot => ⟨fun hne hne' => ?_, fun hcanonical => ?_⟩,
      fun q x kind gpa s => ⟨fun hguest => ?_, fun r t hguest hgpa hwalk => ?_⟩,
      fun h va a gpa n mode fetch x v s hruns hn hnone => ⟨exec_hartLoad_of_page hruns hn hnone, exec_hartLoad_of_guest hruns hn hnone,
        exec_hartStore_of_page hruns hn hnone v, exec_hartStore_of_guest hruns hn hnone v⟩⟩,
    fun h n va pa mode x uncached s hruns => ⟨fun fetch hmap hin hserves => ?_, fun hmap hregister hmode hsite => ?_,
      fun hmap hmode hrom hlow hend => ?_, fun a b rl hn => ?_, fun rl halign hnone hacked => ⟨fun op a b hsize hsc hlr hwrs hmap hserves hplain
        hscatters => ?_, fun a b hn hmap hserves => ?_, fun a b hn hmap hserves hplain hheld => ?_, fun a b hn hmap hregion hfree => ?_⟩⟩⟩
  · have hwalk := hartWalk_of_valid (ok := ok) hread hvalid hformed hpbmt
    refine ⟨fun hleaf => ?_, fun hleaf hok => ?_, fun hleaf hok => ⟨_, ?_, leafPa_page (leafPages pte n) pte v⟩⟩
    · rw [hwalk, hleaf, if_neg Bool.false_ne_true]
    · rw [hwalk, if_pos hleaf, hok, if_neg Bool.false_ne_true]
    · rw [hwalk, if_pos hleaf, if_pos hok]
      simp [bne, beq_eq_decide]
  · rw [hartPage_of_host hmode hroot, if_pos ⟨hne, hne'⟩]
  · rw [hartPage_of_host hmode hroot, if_neg]
    rintro ⟨hne, hne'⟩
    exact hcanonical.elim hne hne'
  · rw [guestPage, hguest]
  · rw [guestPage, hguest]
    dsimp only
    rw [if_neg (by omega), hwalk]
  · obtain ⟨c, t, hexec, ht, hcache⟩ := exec_hartLoad_of_serves hruns hmap hin hserves
    have hself : hartOf t h = (hartBegun mode x (hartOf s h)).loaded (overlayOwn (hartOf s h) pa (plainRead s pa n)) := by
      rw [ht, hartOf_updHart_self]
      show { (hartOf (beginAccess h mode x s) h).loaded _ with waiting := .nothing } = _
      rw [hartOf_beginAccess]
      rfl
    have hothers : ∀ k, k ≠ h → hartOf t k = hartOf s k := fun k hk => by
      rw [ht, hartOf_updHart, if_neg hk]
      exact (onlyHart_beginAccess h mode x s).2.2 k hk
    refine ⟨t, hexec, by rw [ht]; rfl, ?_, hself, fun hn => ?_, hothers⟩
    · rw [ht]
      cases uncached with
      | true => exact hcache
      | false => exact hcache
    · have hlen : (overlayOwn (hartOf s h) pa (plainRead s pa n)).length = n := by
        rw [overlayOwn, List.length_map, List.length_range, length_plainRead hserves.1 hmap.1 hin]
      rw [hself, Hart.loaded, List.take_of_length_le (by omega)]
  · have hexec := (hartLoad_of_mapsTo (fetch := false) hruns hmap).2.2 (hartPlace_of_register hregister) (placeAccepts_register hmode hregister)
    rw [if_neg Bool.false_ne_true, hartRegLoad, hartRegLoadAt, hsite] at hexec
    exact hexec
  · have hexec := (hartLoad_of_mapsTo (fetch := true) hruns hmap).2.2 (hartPlace_of_rom hmap.1 hlow hrom hend) (placeAccepts_rom hmode hrom hend)
    rw [if_pos rfl] at hexec
    exact ⟨_, hexec, onlyHart_updHart_of (onlyHart_beginAccess h mode x s) _⟩
  · have hexec : exec (.hartAtomic h mode .wrs va n a b rl x) s = .next (hartStall h (beginAccess h mode x s)) := by
      show Host.Outcome.next (hartAtomic h mode .wrs va n a b rl x s) = _
      rw [hartAtomic, if_neg (not_idle_of_atomic hruns (atomicSize_of_word _ hn)), if_pos rfl]
    cases hheld : (hartOf s h).reservation with
    | none => simp only [hexec, hartStall, reservation_beginAccess, hheld]
    | some k => simp only [hexec, hartStall, reservation_beginAccess, hheld]
  · have hexec := exec_hartAtomic_here (a := a) (b := b) hruns hsize hwrs (by rw [if_neg hlr]; exact hmap) halign hserves.1 hnone hacked
    obtain ⟨hvalue, hhi, hscratch, herr, hstored, hkept⟩ := atomicHere_of_serves (va := va) (a := a.toNat) (b := b.toNat)
      (s := beginAccess h mode x s) (h := h) hsc (servesRead_updHart hserves h _) hscatters (inPlain_updHart hplain h _)
    refine ⟨_, hexec, hvalue, hhi, hscratch, herr, fun c hc => ?_, fun v hv => ?_, hkept⟩
    · cases hresult : amoResult op (8 * n) (natOfBytes (plainRead s pa n)) (a.toNat % 2 ^ (8 * n)) (b.toNat % 2 ^ (8 * n)) with
      | none => rw [hkept hresult]; rfl
      | some v =>
        rw [hstored v hresult]
        exact memGet_memWrite_of_out _ _ _ (by rwa [length_bytesOfNat])
    · rw [hstored v hv]
      exact memRead_memWrite_bytesOfNat ..
  · have hexec := exec_hartAtomic_here (a := a) (b := b) (op := .lr) hruns (atomicSize_of_word _ hn) (by decide) hmap halign hserves.1 hnone
      hacked
    obtain ⟨hvalue, hreserved, hmem, herr⟩ := atomicHere_lr (va := va) (a := a.toNat) (b := b.toNat) (s := beginAccess h mode x s) (h := h)
      (servesRead_updHart hserves h _)
    exact ⟨_, hexec, hvalue, hreserved, hmem, herr⟩
  · have hexec := exec_hartAtomic_here (a := a) (b := b) (op := .sc) hruns (atomicSize_of_word _ hn) (by decide) hmap halign hserves.1 hnone
      hacked
    have hin := codeword_of_aligned (by rcases hn with h | h <;> simp [h]) halign
    obtain ⟨hvalue, hreserved, hmem, herr⟩ := storeConditional_of_held (va := va) (v := a.toNat) (s := beginAccess h mode x s) (h := h)
      hmap.1 hin (servesWrite_updHart hserves h _) (inPlain_updHart hplain h _) (by rw [hartOf_beginAccess]; exact hheld)
    rw [atomicHere, if_pos rfl] at hexec
    refine ⟨_, hexec, hvalue, hreserved, ?_, fun c hc => ?_, herr⟩
    · rw [hmem]
      exact memRead_memWrite_bytesOfNat ..
    · rw [hmem]
      exact memGet_memWrite_of_out _ _ _ (by rwa [length_bytesOfNat])
  · have hexec := exec_hartAtomic_here (a := a) (b := b) (op := .sc) hruns (atomicSize_of_word _ hn) (by decide) hmap halign hregion hnone
      hacked
    rw [atomicHere, if_pos rfl, storeConditional_of_free (by rw [hartOf_beginAccess]; exact hfree)] at hexec
    refine ⟨_, hexec, ?_, ?_, ?_, ?_⟩
    · rw [hartOf_updHart_self]
      rfl
    · rw [hartOf_updHart_self, hartOf_updHart_self]
      rfl
    · rw [updHart_mem, updHart_mem, beginAccess, updHart_mem]
    · rw [updHart_err, updHart_err, beginAccess, updHart_err]

end Sys2Proof.Machine
end

