-- ==== Sys2Proof/Proofs/Devices.lean ====
section
/-!
PROOFS. Proofs/Devices.lean: message-signalled interrupts, a source of the APLIC whose wire rises (R431, R432), and the requests and link
changes of the PCIe root ports (R433–R435).
-/

namespace Sys2Proof.Machine

/-! ### Message-signalled interrupts (R431) -/

/-- A hart woken by an interrupt changes the harts alone. -/
theorem wakeHart_shape (l : LandingBlock) (file identity : Nat) : ∃ hs, wakeHart l file identity = { l with harts := hs } ∧
    (l.bootEntry = none → hs = l.harts) := by
  unfold wakeHart
  dsimp only
  split
  · next entry copy hboot =>
    split
    · exact ⟨_, rfl, fun hno => by rw [hno] at hboot; cases hboot⟩
    · exact ⟨l.harts, rfl, fun _ => rfl⟩
  · exact ⟨l.harts, rfl, fun _ => rfl⟩

/-- An MSI makes its identity pend in its file, and may wake a hart. -/
theorem deliverMsi_of_file {pa identity f : Nat} (hfile : msiFile pa = some f) (halign : pa % 0x1000 = 0) (hlow : 1 ≤ identity)
    (hhigh : identity ≤ 2047) (l : LandingBlock) : ∃ hs, deliverMsi pa identity l =
      { l with pendingMsi := l.pendingMsi.set false (f * 2048 + identity) true, harts := hs } ∧ (l.bootEntry = none → hs = l.harts) := by
  have hmsi : deliverMsi pa identity l =
      wakeHart { l with pendingMsi := l.pendingMsi.set false (f * 2048 + identity) true } f identity := by
    rw [deliverMsi, hfile]
    exact if_pos ⟨halign, hlow, hhigh⟩
  obtain ⟨hs, hwake, hboot⟩ := wakeHart_shape { l with pendingMsi := l.pendingMsi.set false (f * 2048 + identity) true } f identity
  exact ⟨hs, hmsi.trans hwake, hboot⟩

theorem deliverMsi_of_none {pa identity : Nat} (hno : ¬(pa % 0x1000 = 0 ∧ 1 ≤ identity ∧ identity ≤ 2047)) (l : LandingBlock) :
    deliverMsi pa identity l = l := by
  rw [deliverMsi]
  cases msiFile pa with
  | none => rfl
  | some f => exact if_neg hno

theorem exec_imsicMsi {addr : Nat} {v : W32} {s : State} (hin : inService s = true) :
    exec (.imsicMsi addr v) s = .next (updLanding (deliverMsi addr v.toNat) s) := by
  show execImsicMsi addr v s = _
  rw [execImsicMsi, if_pos hin]

/-! ### A source of the APLIC (R432) -/

/-- What a source that is cleared leaves of the Landing block. -/
theorem clearSource_fields (source : Nat) (s : State) : (clearSource source s).landing.aplicM = s.landing.aplicM ∧
    (clearSource source s).landing.pendingMsi = s.landing.pendingMsi ∧ (clearSource source s).landing.wires = s.landing.wires ∧
    (clearSource source s).mem = s.mem := by
  unfold clearSource
  split <;> exact ⟨rfl, rfl, rfl, rfl⟩

theorem deliverSource_of_idle {s : State} {i : Nat} (hidle : s.landing.aplicM.enabled = false ∨ s.landing.aplicM.pending.get false i = false) :
    deliverSource true s i = s := by
  have hstop : ((domainOf s.landing true).enabled && (domainOf s.landing true).pending.get false i &&
      (domainOf s.landing true).enables.get false i) = false := by
    show (s.landing.aplicM.enabled && s.landing.aplicM.pending.get false i && s.landing.aplicM.enables.get false i) = false
    rcases hidle with h | h <;> simp [h]
  rw [deliverSource]
  exact if_neg (by rw [hstop]; exact Bool.false_ne_true)

theorem foldl_deliverSource_of_idle {s : State} (hidle : ∀ i, deliverSource true s i = s) (l : List Nat) :
    l.foldl (deliverSource true) s = s := by
  induction l with
  | nil => rfl
  | cons i l ih => rw [List.foldl_cons, hidle, ih]

/-- The one source that can be delivered is. -/
theorem foldl_deliverSource_of_only {s : State} {k : Nat} (hothers : ∀ i, i ≠ k → deliverSource true s i = s)
    (hdone : ∀ i, deliverSource true (deliverSource true s k) i = deliverSource true s k) (l : List Nat) (hk : k ∈ l) :
    l.foldl (deliverSource true) s = deliverSource true s k := by
  induction l with
  | nil => cases hk
  | cons i l ih =>
    rw [List.foldl_cons]
    by_cases hi : i = k
    · rw [hi, foldl_deliverSource_of_idle hdone]
    · rw [hothers i hi]
      exact ih ((List.mem_cons.1 hk).resolve_left (Ne.symm hi))

/-- The module with the wire of a source risen, and the source pending in the M domain. -/
def sourceRisen (source : Nat) (s : State) : State :=
  { s with landing := { s.landing with
      wires := s.landing.wires.set false source true
      aplicM := { s.landing.aplicM with pending := s.landing.aplicM.pending.set false source true } } }

theorem exec_aplicSourceChange_of_risen {source : Nat} {s : State} (hin : inService s = true) (hlow : 1 ≤ source) (hhigh : source ≤ 9)
    (hmode : s.landing.aplicM.sources.get 0 source = 4) (hwire : s.landing.wires.get false source = false)
    (hasserted : sourceAsserted s source = true) :
    exec (.aplicSourceChange source) s = .next (deliverDomain true (sourceRisen source s)) := by
  have hmember : aplicSources.contains source = true := by
    simp only [aplicSources, List.contains_eq_mem, List.mem_cons, List.not_mem_nil, or_false, decide_eq_true_eq]
    omega
  have hdelegated : delegated s.landing source = false := by
    rw [delegated, hmode]
    decide
  have hedge : sourceMode s.landing true source = 4 := by
    rw [sourceMode, hdelegated]
    show s.landing.aplicM.sources.get 0 source % 8 = 4
    rw [hmode]
  show Host.Outcome.next (aplicSourceChange source s) = _
  rw [aplicSourceChange, hin, hmember]
  dsimp only
  rw [hdelegated, Bool.not_false, hedge, hwire, hasserted]
  rfl

theorem mem_aplicSources {source : Nat} (hlow : 1 ≤ source) (hhigh : source ≤ 9) : source ∈ aplicSources := by
  simp only [aplicSources, List.mem_cons, List.not_mem_nil, or_false]
  omega

theorem pending_sourceRisen {s : State} (hnone : s.landing.aplicM.pending.cells = []) (source i : Nat) :
    (sourceRisen source s).landing.aplicM.pending.get false i = decide (i = source) := by
  have hempty : s.landing.aplicM.pending.get false i = false := by simp [Table.get, hnone, cellsFind]
  show (s.landing.aplicM.pending.set false source true).get false i = _
  by_cases hi : i = source
  · rw [hi, Table.get_set_self, decide_eq_true rfl]
  · rw [Table.get_set_ne _ _ _ hi, hempty, decide_eq_false hi]

theorem msiFile_targetFile {t : Nat} (ht : bitsOf t 31 18 < 64) : msiFile (targetFile true t) = some (bitsOf t 31 18 * 16) ∧
    targetFile true t % 0x1000 = 0 := by
  have hfile : targetFile true t = 0x400002400000 + bitsOf t 31 18 * 0x1000 := rfl
  rw [hfile]
  generalize bitsOf t 31 18 = k at ht
  have hpage : (0x400002400000 + k * 0x1000) / 0x1000 * 0x1000 = 0x400002400000 + k * 0x1000 := by omega
  refine ⟨?_, by omega⟩
  have hin : 0x400002400000 ≤ 0x400002400000 + k * 0x1000 ∧ 0x400002400000 + k * 0x1000 < 0x400002440000 := by omega
  have hindex : (0x400002400000 + k * 0x1000 - 0x400002400000) / 0x1000 = k := by omega
  rw [msiFile]
  dsimp only
  rw [hpage, if_pos hin, hindex]

theorem bitsOf_lt (w hi lo : Nat) : bitsOf w hi lo < 2 ^ (hi + 1 - lo) := Nat.mod_lt _ (Nat.two_pow_pos _)

/-- A source that pends and is enabled in the enabled M domain, and whose target is a hart's M-level file, is sent there (R432). -/
theorem deliverSource_of_enabled {source : Nat} {s : State} (henabled : s.landing.aplicM.enabled = true)
    (hpending : s.landing.aplicM.pending.get false source = true) (henables : s.landing.aplicM.enables.get false source = true)
    (htarget : bitsOf (s.landing.aplicM.targets.get 0 source) 31 18 < 64) (hidentity : 1 ≤ bitsOf (s.landing.aplicM.targets.get 0 source) 10 0) :
    (deliverSource true s source).landing.pendingMsi = s.landing.pendingMsi.set false
      (bitsOf (s.landing.aplicM.targets.get 0 source) 31 18 * 16 * 2048 + bitsOf (s.landing.aplicM.targets.get 0 source) 10 0) true ∧
    (deliverSource true s source).landing.aplicM =
      { s.landing.aplicM with pending := s.landing.aplicM.pending.set false source false } ∧
    (deliverSource true s source).landing.wires = s.landing.wires ∧ (deliverSource true s source).mem = s.mem := by
  generalize ht : s.landing.aplicM.targets.get 0 source = t at htarget hidentity
  obtain ⟨hfile, halign⟩ := msiFile_targetFile htarget
  have hhigh : bitsOf t 10 0 ≤ 2047 := by have := bitsOf_lt t 10 0; omega
  obtain ⟨hs, hmsi, -⟩ := deliverMsi_of_file hfile halign hidentity hhigh s.landing
  have hgo : ((domainOf s.landing true).enabled && (domainOf s.landing true).pending.get false source &&
      (domainOf s.landing true).enables.get false source) = true := by
    show (s.landing.aplicM.enabled && s.landing.aplicM.pending.get false source && s.landing.aplicM.enables.get false source) = true
    rw [henabled, hpending, henables]
    rfl
  have hsent : deliverSource true s source = clearSource source
      (updDomain true (fun d => { d with pending := d.pending.set false source false })
        (updLanding (deliverMsi (targetFile true t) (bitsOf t 10 0)) s)) := by
    have hplaces : bitsOf t 31 18 < 64 ∧ (true = true ∨ bitsOf t 17 12 < 8) := ⟨htarget, .inl rfl⟩
    rw [deliverSource]
    dsimp only
    rw [if_pos hgo]
    show clearSource source (updDomain true _ (if bitsOf (s.landing.aplicM.targets.get 0 source) 31 18 < 64 ∧ (true = true ∨
      bitsOf (s.landing.aplicM.targets.get 0 source) 17 12 < 8) then updLanding (deliverMsi (targetFile true
        (s.landing.aplicM.targets.get 0 source)) (bitsOf (s.landing.aplicM.targets.get 0 source) 10 0)) s else s)) = _
    rw [ht, if_pos hplaces]
  obtain ⟨haplic, hmsis, hwires, hmem⟩ := clearSource_fields source
    (updDomain true (fun d => { d with pending := d.pending.set false source false })
      (updLanding (deliverMsi (targetFile true t) (bitsOf t 10 0)) s))
  rw [hsent]
  refine ⟨hmsis.trans ?_, haplic.trans ?_, hwires.trans ?_, hmem⟩
  · show (deliverMsi (targetFile true t) (bitsOf t 10 0) s.landing).pendingMsi = _
    rw [hmsi]
  · show { (deliverMsi (targetFile true t) (bitsOf t 10 0) s.landing).aplicM with
      pending := (deliverMsi (targetFile true t) (bitsOf t 10 0) s.landing).aplicM.pending.set false source false } = _
    rw [hmsi]
  · show (deliverMsi (targetFile true t) (bitsOf t 10 0) s.landing).wires = _
    rw [hmsi]

/-! ### PCIe root ports (R433–R435) -/

@[simp] theorem pcieOf_updPcie_self (p : Nat) (f : PciePort → PciePort) (s : State) : pcieOf (updPcie p f s) p = f (pcieOf s p) :=
  (Table.get_update ..).trans (if_pos rfl)

theorem pcieOf_report (e : ErrRecord) (s : State) (p : Nat) : pcieOf (report e s) p = pcieOf s p := by
  rw [pcieOf, report_landing, ← pcieOf]

theorem err_report_updPcie (e : ErrRecord) (p : Nat) (f : PciePort → PciePort) (s : State) :
    (report e (updPcie p f s)).err = (report e s).err := by
  rw [updPcie, updLanding, report_withLanding]

theorem exec_pcieInbound {p : Nat} {r : PcieRequest} {s : State} (hin : inService s = true) (hp : p < 2) (hup : (pcieOf s p).width ≠ 0)
    (hunarmed : s.err.inj.cells = []) : exec (.pcieInbound p r) s = .next (pcieRequest p r s) := by
  have hgo : (!inService s || decide (2 ≤ p) || (pcieOf s p).width == 0) = false := by
    rw [hin, decide_eq_false (by omega)]
    simpa using hup
  show execPcieInbound p r s = _
  rw [execPcieInbound, hgo, fireInjection_of_unarmed hunarmed]
  rfl

theorem pcieRequest_of_read {p addr n : Nat} {s : State} (hsize : n ≤ 4096) :
    pcieRequest p { addr := addr, length := n, write := none } s =
      if !(pcieOf s p).inbound then pcieRefuse p 0x9202 addr s else pcieMemory p { addr := addr, length := n, write := none } s := by
  have hsized : pcieSized { addr := addr, length := n, write := none } = true := decide_eq_true hsize
  rw [pcieRequest, hsized, Bool.not_true, if_neg Bool.false_ne_true]

theorem lt_bulkEnd_of_range {addr n : Nat} (hrange : rangeNearOrBulk addr n = true) :
    (regionOf addr = .near ∨ regionOf addr = .bulk) ∧ regionOf (addr + n - 1) = regionOf addr := by
  simp only [rangeNearOrBulk, rangeIn, Bool.or_eq_true, Bool.and_eq_true, beq_iff_eq] at hrange
  rcases hrange with ⟨h, h'⟩ | ⟨h, h'⟩
  · exact ⟨.inl h, by rw [h, h']⟩
  · exact ⟨.inr h, by rw [h, h']⟩

theorem msiFile_of_range {addr n : Nat} (hrange : rangeNearOrBulk addr n = true) : msiFile addr = none := by
  have hlt := lt_of_region (lt_bulkEnd_of_range hrange).1
  have hend : bulkBase + bulkSize ≤ 0x400002000000 := by decide
  have hpage : addr / 0x1000 * 0x1000 ≤ addr := Nat.div_mul_le_self ..
  rw [msiFile]
  dsimp only
  rw [if_neg (by omega), if_neg (by omega)]

theorem pcieRequest_of_write {p addr n : Nat} {bs : List Byte} {s : State} (hsize : bs.length ≤ 512)
    (hrange : rangeNearOrBulk addr bs.length = true) (hinbound : (pcieOf s p).inbound = true) :
    pcieRequest p { addr := addr, length := n, write := some bs } s = pcieMemory p { addr := addr, length := n, write := some bs } s := by
  have hsized : pcieSized { addr := addr, length := n, write := some bs } = true := decide_eq_true hsize
  rw [pcieRequest, hsized, Bool.not_true, if_neg Bool.false_ne_true]
  dsimp only
  rw [msiFile_of_range hrange]
  dsimp only
  rw [hinbound]
  rfl

theorem stakeRefusalIn_of_access {s : State} {q : Requester} {write : Bool} {pa n : Nat} (h : accessRefusal s q write pa n = none) :
    stakeRefusalIn s q write pa n = none := by
  unfold accessRefusal at h
  split at h
  · cases h
  · split at h
    · cases h
    · next hnone => exact hnone

theorem firstSome_singleton {α β : Type} (f : α → Option β) (a : α) : firstSome f [a] = f a := by
  simp only [firstSome]
  cases f a <;> rfl

/-- A stake of a range is that of its piece in it. -/
theorem stakeIndex_of_piece {addr n b : Nat} (hrange : rangeNearOrBulk addr n = true) (hb : b ∈ blocksOf stakeSize addr n) :
    ∃ p ∈ piecesOf stakeSize addr n, blocksOf stakeSize p.1 p.2 = [b] ∧ (p.1 < bulkBase ↔ addr < bulkBase) := by
  have hmem : (max addr (b * stakeSize), min (addr + n) (b * stakeSize + stakeSize) - max addr (b * stakeSize)) ∈ piecesOf stakeSize addr n :=
    List.mem_map.2 ⟨b, hb, rfl⟩
  obtain ⟨hlen, hwithin, hlow, hhigh⟩ := within_of_mem_piecesOf stakeSize_pos hmem
  refine ⟨_, hmem, ?_, ?_⟩
  · have hblock : max addr (b * stakeSize) / stakeSize = b := by
      have hpos : 0 < stakeSize := stakeSize_pos
      have hend : min (addr + n) (b * stakeSize + stakeSize) - max addr (b * stakeSize) ≠ 0 := hlen
      refine Nat.div_eq_of_lt_le (by omega) ?_
      rw [Nat.add_mul, Nat.one_mul]
      omega
    rw [blocksOf, if_neg hlen]
    dsimp only at hwithin ⊢
    rw [← hwithin, hblock]
    simp
  · obtain ⟨hregion, hlast⟩ := lt_bulkEnd_of_range hrange
    dsimp only at hlen hlow hhigh ⊢
    have hnear : nearSize ≤ bulkBase := by decide
    refine ⟨fun h => by omega, fun h => ?_⟩
    by_contra hge
    have hfirst : regionOf addr = .near := by
      rcases hregion with hr | hr
      · exact hr
      · exfalso
        rw [regionOf] at hr
        split at hr
        · cases hr
        · cases hr
    have hlastRegion : regionOf (addr + n - 1) = .near := hlast.trans hfirst
    have hbeyond : ¬addr + n - 1 < bulkBase := by omega
    rw [regionOf, if_neg (by omega), if_neg hbeyond] at hlastRegion
    revert hlastRegion
    repeat' split
    all_goals decide

theorem stakeRefusalIn_of_pieces {s : State} {q : Requester} {addr n : Nat} (hrange : rangeNearOrBulk addr n = true)
    (hpieces : ∀ p ∈ piecesOf stakeSize addr n, pieceRefusal s q p = none) : stakeRefusalIn s q true addr n = none := by
  refine firstSome_eq_none _ fun i hi => ?_
  obtain ⟨b, hb, rfl⟩ := List.mem_map.1 hi
  obtain ⟨p, hp, hone, hside⟩ := stakeIndex_of_piece hrange hb
  have hpiece := stakeRefusalIn_of_access (pieceRefusal_eq_none.1 (hpieces p hp)).1
  rw [stakeRefusalIn, hone, List.map_cons, List.map_nil, firstSome_singleton] at hpiece
  by_cases hnear : addr < bulkBase
  · rw [if_pos hnear]
    rwa [if_pos (hside.2 hnear)] at hpiece
  · rw [if_neg hnear]
    rwa [if_neg (fun h => hnear (hside.1 h))] at hpiece

theorem pcieMemory_of_read {p addr n : Nat} {s : State} (hn : 0 < n) (hrange : rangeNearOrBulk addr n = true)
    (hserves : ServesRead { agent := .pcie, context := (pcieOf s p).context } addr n s) :
    pcieMemory p { addr := addr, length := n, write := none } s = updPcie p (fun x => { x with completion := .data (plainRead s addr n) }) s := by
  have hallowed : (!rangeNearOrBulk addr n || n == 0) = false := by
    rw [hrange]
    simp
    omega
  unfold pcieMemory
  dsimp only [Option.map, Option.getD, Option.isSome]
  rw [hallowed, if_neg Bool.false_ne_true, stakeRefusalIn_of_access hserves.2.2.2.1]
  dsimp only
  rw [physRead_of_serves hserves]

theorem pcieMemory_of_write {p addr n : Nat} {bs : List Byte} {s : State} (hbs : bs ≠ []) (hrange : rangeNearOrBulk addr bs.length = true)
    (hserves : ServesWrite { agent := .pcie, context := (pcieOf s p).context } addr bs.length s) :
    ∃ t, pcieMemory p { addr := addr, length := n, write := some bs } s = updPcie p (fun x => { x with completion := .none }) t ∧
      MemMoved s t ∧ (InPlain s addr bs.length → t.mem = memWrite s.mem addr bs) := by
  obtain ⟨t, hwrite, hmoved, hmem⟩ := physWrite_of_serves hserves
  have hallowed : (!rangeNearOrBulk addr bs.length || bs.length == 0) = false := by
    rw [hrange]
    simpa using hbs
  refine ⟨t, ?_, hmoved, hmem⟩
  unfold pcieMemory
  dsimp only [Option.map, Option.getD, Option.isSome]
  rw [hallowed, if_neg Bool.false_ne_true, stakeRefusalIn_of_pieces hrange hserves.2.2.2]
  dsimp only
  rw [hwrite]

/-- Settles O54: MSIs, a source of the APLIC, inbound PCIe requests, and changes of a PCIe link. -/
theorem devicesInterruptAndAccess : Obligations.DevicesInterruptAndAccess := by
  refine ⟨⟨fun addr f v s hin hfile => ⟨fun halign hlow hhigh => ?_, fun hno => ?_⟩,
      fun source s hin hlow hhigh hmode hwire hasserted hnone => ⟨fun henabled henables htarget hidentity => ?_, fun hdisabled => ?_⟩⟩,
    fun p s hin hp => ⟨fun addr n hup hn hsize hrange hserves hinbound => ?_,
      fun addr n bs hup hbs hsize hrange hserves hplain hinbound => ?_, fun r hup hunarmed hsized => ?_,
      fun addr n hup hsize hunarmed hinbound => ?_, fun width rate hform hchange => ?_⟩⟩
  · obtain ⟨hs, hmsi, hboot⟩ := deliverMsi_of_file hfile halign hlow hhigh s.landing
    refine ⟨_, exec_imsicMsi hin, ?_⟩
    rw [updLanding, hmsi]
    exact ⟨Table.get_set_self .., fun k hk => Table.get_set_ne _ _ _ hk, hboot, rfl, rfl⟩
  · have hstays : deliverMsi addr v.toNat s.landing = s.landing := deliverMsi_of_none (by omega) s.landing
    rw [exec_imsicMsi hin, updLanding, hstays]
  · have hothers : ∀ i, i ≠ source → deliverSource true (sourceRisen source s) i = sourceRisen source s := fun i hi =>
      deliverSource_of_idle (.inr (by rw [pending_sourceRisen hnone, decide_eq_false hi]))
    have hpends : (sourceRisen source s).landing.aplicM.pending.get false source = true := by
      rw [pending_sourceRisen hnone, decide_eq_true rfl]
    obtain ⟨hmsis, haplic, hwires, hmem⟩ := deliverSource_of_enabled (s := sourceRisen source s) (source := source) henabled hpends henables
      htarget hidentity
    have hidle : ∀ i, (deliverSource true (sourceRisen source s) source).landing.aplicM.pending.get false i = false := by
      intro i
      rw [haplic]
      by_cases hi : i = source
      · rw [hi]
        exact Table.get_set_self ..
      · exact (Table.get_set_ne _ _ _ hi).trans (by rw [pending_sourceRisen hnone, decide_eq_false hi])
    have hall := foldl_deliverSource_of_only hothers (fun i => deliverSource_of_idle (.inr (hidle i))) aplicSources (mem_aplicSources hlow hhigh)
    have hexec := exec_aplicSourceChange_of_risen hin hlow hhigh hmode hwire hasserted
    rw [deliverDomain, hall] at hexec
    refine ⟨_, hexec, ?_, hidle source, ?_, hmem⟩
    · rw [hmsis]
      exact Table.get_set_self ..
    · rw [hwires]
      exact Table.get_set_self ..
  · have hexec := exec_aplicSourceChange_of_risen hin hlow hhigh hmode hwire hasserted
    have hidle := foldl_deliverSource_of_idle (s := sourceRisen source s) (fun i => deliverSource_of_idle (.inl hdisabled)) aplicSources
    rw [deliverDomain, hidle] at hexec
    refine ⟨_, hexec, ?_, rfl, Table.get_set_self .., rfl⟩
    rw [pending_sourceRisen hnone, decide_eq_true rfl]
  · have hexec := exec_pcieInbound (r := { addr := addr, length := n, write := none }) hin hp hup hserves.2.1
    rw [pcieRequest_of_read hsize, hinbound, Bool.not_true, if_neg Bool.false_ne_true, pcieMemory_of_read hn hrange hserves] at hexec
    exact ⟨_, hexec, rfl, pcieOf_updPcie_self ..⟩
  · have hexec := exec_pcieInbound (r := { addr := addr, length := n, write := some bs }) hin hp hup hserves.2.1
    obtain ⟨t, hmemory, hmoved, hmem⟩ := pcieMemory_of_write (n := n) hbs hrange hserves
    rw [pcieRequest_of_write hsize hrange hinbound, hmemory] at hexec
    have hpcie : pcieOf t p = pcieOf s p := (congrArg (fun u : State => pcieOf u p) hmoved.beyond :)
    have hbytes : (updPcie p (fun x => { x with completion := .none }) t).mem = memWrite s.mem addr bs := hmem hplain
    refine ⟨_, hexec, ?_, fun a ha => ?_, ?_, hmoved.err, hmoved.scratch⟩
    · rw [hbytes]
      exact memRead_memWrite ..
    · rw [hbytes]
      exact memGet_memWrite_of_out _ _ _ ha
    · rw [pcieOf_updPcie_self, hpcie]
  · have hexec := exec_pcieInbound (r := r) hin hp hup hunarmed
    rw [pcieRequest, hsized, Bool.not_false, if_pos rfl] at hexec
    exact hexec
  · have hexec := exec_pcieInbound (r := { addr := addr, length := n, write := none }) hin hp hup hunarmed
    rw [pcieRequest_of_read hsize, hinbound, Bool.not_false, if_pos rfl, pcieRefuse] at hexec
    refine ⟨_, hexec, ?_, ?_, ?_, ?_⟩
    · rw [report_mem]
      rfl
    · rw [pcieOf_report, pcieOf_updPcie_self]
    · rw [pcieOf_report, pcieOf_updPcie_self]
      exact satAdd_one _
    · rw [err_report_updPcie]
  · have hgo : (!inService s || decide (2 ≤ p) || !linkForm width rate) = false := by
      rw [hin, decide_eq_false (by omega), hform]
      rfl
    have hnew : ¬((pcieOf s p).width = width ∧ (pcieOf s p).rate = rate) := fun h => hchange h.1
    have hexec : exec (.pcieLinkChange p width rate false) s = .next
        (if (decide ((pcieOf s p).width ≠ 0) && width == 0) = true
          then reportModule 0x9204 (updPcie p (fun q => { q with width := width, rate := rate, reports := true }) s)
          else updPcie p (fun q => { q with width := width, rate := rate, reports := true }) s) := by
      show execPcieLinkChange p width rate false s = _
      rw [execPcieLinkChange, hgo, if_neg Bool.false_ne_true]
      dsimp only
      rw [if_neg hnew, if_neg Bool.false_ne_true]
    by_cases hlost : width = 0
    · have hgone : (decide ((pcieOf s p).width ≠ 0) && width == 0) = true := by
        rw [decide_eq_true (by rw [hlost] at hchange; exact hchange), hlost]
        rfl
      rw [if_pos hgone] at hexec
      refine ⟨_, hexec, ?_, ?_, fun h => absurd hlost h, fun _ => ?_⟩
      · rw [reportModule, pcieOf_report, pcieOf_updPcie_self]
      · rw [reportModule, report_mem]
        rfl
      · rw [reportModule, err_report_updPcie]
        rfl
    · have hkept : (decide ((pcieOf s p).width ≠ 0) && width == 0) = false := by simp [hlost]
      rw [hkept, if_neg Bool.false_ne_true] at hexec
      exact ⟨_, hexec, pcieOf_updPcie_self .., rfl, fun _ => rfl, fun h => absurd h hlost⟩

end Sys2Proof.Machine
end

