-- ==== Sys2Proof/Proofs/StruckBatch.lean ====
section
/-!
PROOFS. Proofs/StruckBatch.lean: a fault batch whose slot write is where an injected 0x9303 fires while a fatal error is being handled: the
module escalates to a warm reset, which clears memory outside the slot (R89, R457, R465, R466).
-/

namespace Sys2Proof.Machine

/-- An open batch without entries, in slot 0. -/
def emptyBatch : FaultBatch := { slot := 0, openedAt := 0 }

/-- A module that handles a fatal error, with 0x9303 armed for its next stake-table read, a byte of memory at 0x10000, and an open batch. -/
def struckBatch : State := { State.reset with
  mem := memWrite {} 0x10000 [1]
  tu := { State.reset.tu with openBatch := some emptyBatch }
  err := { State.reset.err with
    fatalActive := true
    inj := State.reset.err.inj.set {} 0 { code := 0x9303, count := 1, state := .armed } } }

theorem memGet_struckBatch : memGet struckBatch.mem 0x10000 = 1 := by decide

/-- The write of the slot reads the stake table, where the point fires: a second fatal error resets the module. -/
theorem memGet_closeBatch_struckBatch : memGet (closeBatch .time struckBatch).mem 0x10000 = 0 := by decide +kernel

/-- Refutes O46: nothing keeps an injection point of the stake table's reads from being armed, nor a fatal error from being handled. The
write of a batch that closes is such a read; 0x9303 then escalates to a module warm reset, and a byte outside the batch's slot is lost. -/
theorem not_faultBatchesAreAnswered : ¬ Obligations.FaultBatchesAreAnswered := by
  unfold Obligations.FaultBatchesAreAnswered
  rintro ⟨⟨hcloses, -⟩, -⟩
  obtain ⟨t, u, hexec, -, -, -, -, -, houtside, -⟩ := hcloses emptyBatch struckBatch rfl (by decide)
  have ht : closeBatch .time struckBatch = t := Host.Outcome.next.inj hexec
  obtain ⟨hkept, -⟩ := houtside 0x10000 (.inr (by decide))
  rw [← ht, memGet_closeBatch_struckBatch, memGet_struckBatch] at hkept
  exact absurd hkept (by decide)

end Sys2Proof.Machine
end

