-- ==== Sys2Proof/Proofs/TwinTask.lean ====
section
/-!
PROOFS. Proofs/TwinTask.lean: a ring's next descriptor whose sequence number a staged task of the ring already bears: Tally, looking its
new task up by number, runs ahead on the other (R247).
-/

namespace Sys2Proof.Machine

/-- The descriptor of a BARRIER at this module. -/
def twinDescriptor : List Byte := [0x0B] ++ List.replicate 9 0 ++ [0x04] ++ List.replicate 117 0

/-- A staged COPY of ring 0, whose WAIT is unresolved, with the number of the ring's next descriptor. -/
def twinTask : Task :=
  { ring := 0, seq := 0, header := { type := .move }, body := .move { op := .copy, src := 0x5000, length := 128 }, context := 9
    bench := some 0 }

/-- A module in service with that task alone, and ring 0 about to stage the BARRIER, which a cached leaf maps at physical address 0. -/
def twinModule : State := { State.reset with
  life := { State.reset.life with power := .running }
  cfg := some { rings := ({} : Table Nat).set 0 0 1 }
  rings := ({} : Table Ring).set {} 0 { base := 0x1000, context := 7, tail := 1, status := .running }
  mem := memWrite {} 0 twinDescriptor
  stakes := { State.reset.stakes with table := ({} : Table Stake).set {} 0 { owner := 7, state := .owned } }
  tu := { State.reset.tu with ctxEnable := true, groveCache := [⟨some (homeGrove 0), 7, 1, 1, 0xD7⟩] }
  tasks := [twinTask] }

/-- The read of the descriptor, and what it leaves. -/
def twinRead : Reply (List Byte) × State :=
  engineRead { agent := .tally, context := (ringOf twinModule 0).context, grove := homeGrove 0, ring := 0
               seq := (ringOf twinModule 0).head, descriptor := true } (descriptorAddr (ringOf twinModule 0)) 128 (takeTurn 0 twinModule)

/-- The checks of the descriptor, and what they leave. -/
def twinChecks : StageEnd Task × State := stageChecks 0 ((ringPartition twinRead.2 0).getD 0) twinDescriptor twinRead.2

/-- The task that the checks accept. -/
def twinStaged : Task :=
  { ring := 0, seq := 0, header := { type := .barrier, target := 0x40000 }, body := .gate, context := 7, waitDone := true }

theorem eq_mk_of_fst {α β : Type} {p : α × β} {a : α} (h : p.1 = a) : p = (a, p.2) := by rw [← h]

theorem twinRead_done : twinRead = (.done twinDescriptor, twinRead.2) :=
  eq_mk_of_fst (by decide +kernel)

theorem twinChecks_ok : twinChecks = (.ok twinStaged, twinChecks.2) :=
  eq_mk_of_fst (by decide +kernel)

theorem unarmed_twinModule : twinModule.err.inj.cells = [] := by decide +kernel

/-- Tally walks the tables for the other task's source and requests its ashlar. -/
theorem walks_stageNext : (stageNext 0 twinModule).tu.walks = 2 := by decide +kernel

theorem walks_twinChecks : twinChecks.2.tu.walks = 0 := by decide +kernel

theorem benches_twinChecks : twinChecks.2.benches.cells = [] := by decide +kernel

theorem walks_preloadBenches_passHead {w : State} (hnone : w.benches.cells = []) (r : Nat) (ts : List Task) :
    (preloadBenches { passHead r w with tasks := ts }).tu.walks = w.tu.walks := by
  have hcells : ({ passHead r w with tasks := ts } : State).benches.cells = [] := hnone
  rw [preloadBenches, hcells]
  rfl

theorem exec_taskStage_twinModule : exec (.taskStage 0) twinModule = .next (stageNext 0 twinModule) := by
  have hmay : mayStage twinModule 0 ∧ (!isSealed twinModule (ringOf twinModule 0).context) = true := by decide +kernel
  show execTaskStage 0 twinModule = _
  rw [execTaskStage, if_pos hmay, fireInjection_of_unarmed unarmed_twinModule]
  exact congrArg Host.Outcome.next (if_neg Bool.false_ne_true)

/-- Refutes O31: nothing keeps a task of the ring from bearing the number of its next descriptor. Once the descriptor is staged, Tally finds
the other task under that number and runs ahead on it: the translation unit walks twice more than the choice of next tasks does. -/
theorem not_tasksStageAndWait : ¬ Obligations.TasksStageAndWait := by
  unfold Obligations.TasksStageAndWait
  rintro ⟨hstages, -⟩
  have hmay : mayStage twinModule 0 = true := by decide +kernel
  have hfails : (ringOf twinRead.2 0).stageFails = none := by decide +kernel
  have htakes : sliceTakes twinChecks.2 twinStaged = true := by decide +kernel
  obtain ⟨-, -, -, -, hexec, -⟩ := hstages 0 twinDescriptor twinStaged twinModule twinRead.2 twinChecks.2 hmay unarmed_twinModule
    twinRead_done hfails twinChecks_ok htakes rfl rfl
  have hsame := Host.Outcome.next.inj (exec_taskStage_twinModule.symm.trans hexec)
  have hwalks := walks_preloadBenches_passHead benches_twinChecks 0 (twinChecks.2.tasks ++ [twinStaged])
  have hmore := walks_stageNext
  rw [hsame, hwalks, walks_twinChecks] at hmore
  exact absurd hmore (by decide)

end Sys2Proof.Machine
end

