-- ==== Sys2Proof/Proofs/BenchIssue.lean ====
section
/-!
PROOFS. Proofs/BenchIssue.lean: what the issue of a bench task leaves (R159, R169, R194, R235, R238).
-/

namespace Sys2Proof.Machine

/-- A shadow scratch held changes the groups alone. -/
theorem holdShadow_shape (t : Task) (s : State) : ∃ gs, holdShadow t s = { s with groups := gs } := by
  unfold holdShadow
  split
  · split
    · exact ⟨_, rfl⟩
    · exact ⟨s.groups, rfl⟩
  · exact ⟨s.groups, rfl⟩

/-- The bench whose turn has been served: the issued task is preloaded no more. -/
def Bench.served (t : Task) (b : Bench) : Bench := { b with preloaded := if b.preloaded = some (t.ring, t.seq) then none else b.preloaded }

theorem takeIssueTurn_of_bench {t : Task} {n : Nat} (hbench : t.bench = some n) (s : State) : takeIssueTurn t s =
    updBenchState n (Bench.served t) { s with issueTurns := s.issueTurns.set 1023 (n * 4 + (ringOf s t.ring).priority) t.ring } := by
  rw [takeIssueTurn, hbench]
  rfl

/-- What the issue of a task leaves: the task issued, its bench with it no longer preloaded, one more issue counted. -/
structure IssuedOn (t : Task) (n : Nat) (s u : State) : Prop where
  tasks : u.tasks = (noteClocks s).tasks.map fun x => if x.is t.ring t.seq then { x with phase := .issued } else x
  bench : benchOf u n = (benchOf s n).served t
  others : ∀ m, m ≠ n → benchOf u m = benchOf s m
  issued : u.tallyIssued.get 0 t.grove = wrapAdd 64 (s.tallyIssued.get 0 t.grove) 1
  mem : u.mem = s.mem
  scratch : u.scratch = s.scratch
  power : u.power = s.power
  rings : u.rings = s.rings

theorem issuedOn_markIssued {t : Task} {n : Nat} (hbench : t.bench = some n) (s : State) : IssuedOn t n s (markIssued t s) := by
  have hmark : markIssued t s = holdShadow t { dropTentative t.ring t.seq (updTask t.ring t.seq (fun t => { t with phase := .issued })
      (takeIssueTurn t (noteClocks s))) with tallyIssued := s.tallyIssued.update 0 t.grove fun n => wrapAdd 64 n 1 } := by
    rw [markIssued, takeIssueTurn_of_bench hbench]
    rfl
  obtain ⟨gs, hshadow⟩ := holdShadow_shape t { dropTentative t.ring t.seq (updTask t.ring t.seq (fun t => { t with phase := .issued })
      (takeIssueTurn t (noteClocks s))) with tallyIssued := s.tallyIssued.update 0 t.grove fun n => wrapAdd 64 n 1 }
  rw [hmark, hshadow, takeIssueTurn_of_bench hbench]
  refine ⟨rfl, ?_, fun m hm => ?_, ?_, rfl, rfl, rfl, rfl⟩
  · exact (benchOf_updBenchState_self n (Bench.served t) _ :)
  · exact (benchOf_updBenchState_ne hm (Bench.served t) _ :)
  · exact (Table.get_update ..).trans (if_pos rfl)

/-! ### What comes of the issue -/

section
variable {t : Task} {n : Nat} {s : State} (hfind : findTask s t.ring t.seq = some t) (hbench : t.bench = some n)
include hfind hbench

theorem issueTyped_of_barred (hbarred : mayIssue s t = false) (ty : TaskType) (start : Task → State → State) :
    issueTyped ty start t.ring t.seq s = s := by
  have hstays : issueBench t start s = s := by
    rw [issueBench, hbench]
    dsimp only
    rw [hbarred, if_neg Bool.false_ne_true]
  rw [issueTyped, hfind]
  dsimp only
  rw [hstays, ite_self]

theorem issueTyped_of_may (hmay : mayIssue s t = true) {ty : TaskType} (hty : t.header.type = ty) (start : Task → State → State) :
    issueTyped ty start t.ring t.seq s = preload n (start t (markIssued t s)) := by
  have hphase : t.phase = .staged := by
    simp only [mayIssue, clockRuns, queuedNext, Bool.and_eq_true, decide_eq_true_eq] at hmay
    exact hmay.1.1.1.1.1.1.1.1.1.1.1.1
  rw [issueTyped, hfind]
  dsimp only
  rw [if_pos ⟨hty, hphase⟩, issueBench, hbench]
  dsimp only
  rw [if_pos hmay]

end

/-- The array task begins: its run on the array, over a stage area undefined where it has operands in virtual space (R156). -/
def arrayBegun (t : Task) (n : Nat) (d : MatDesc) (s : State) : State :=
  updBenchState n (fun b => { b with
    run := some { ring := t.ring, seq := t.seq }
    nextB := b.nextB && (b.bankA.isSome || b.bankB.isSome) }) (if hasVirtualInput d then fillStageArea n s else s)

theorem startArray_of_tiles {t : Task} {n : Nat} {d : MatDesc} (hbench : t.bench = some n) (hbody : t.body = .mat d) (htiles : taskTiles d ≠ 0)
    (s : State) : startArray t s = arrayBegun t n d s := by
  rw [startArray, hbody, hbench]
  exact if_neg htiles

theorem startArray_of_none {t : Task} {n : Nat} {d : MatDesc} (hbench : t.bench = some n) (hbody : t.body = .mat d) (htiles : taskTiles d = 0)
    (s : State) : startArray t s = updTask t.ring t.seq (fun t => { t with arrayDone := true, workDone := true }) s := by
  rw [startArray, hbody, hbench]
  exact if_pos htiles

theorem length_drawFreeBytes (k : Nat) (s : State) : (drawFreeBytes k s).1.length = k := by simp [drawFreeBytes]

theorem scratch_fillStageArea (n : Nat) (s : State) : (fillStageArea n s).scratch =
    memWrite s.scratch (n * scratchSize + stageBase) (drawFreeBytes (scratchSize - stageBase) s).1 := by
  unfold fillStageArea
  generalize scratchSize - stageBase = k
  rfl

/-- The stage area made undefined: only scratch of its bench from the area on changes. -/
theorem fillStageArea_fields (n : Nat) (s : State) : (fillStageArea n s).tasks = s.tasks ∧ (fillStageArea n s).benches = s.benches ∧
    (fillStageArea n s).tallyIssued = s.tallyIssued ∧ (fillStageArea n s).mem = s.mem ∧ (fillStageArea n s).power = s.power ∧
    (fillStageArea n s).rings = s.rings ∧ ∀ a, a < n * scratchSize + stageBase ∨ (n + 1) * scratchSize ≤ a →
      memGet (fillStageArea n s).scratch a = memGet s.scratch a := by
  refine ⟨rfl, rfl, rfl, rfl, rfl, rfl, fun a ha => ?_⟩
  have hend : n * scratchSize + stageBase + (scratchSize - stageBase) = (n + 1) * scratchSize := by
    rw [Nat.add_assoc, Nat.add_sub_cancel' (by decide), Nat.add_mul, Nat.one_mul]
  have hout : a < n * scratchSize + stageBase ∨
      n * scratchSize + stageBase + (drawFreeBytes (scratchSize - stageBase) s).1.length ≤ a := by
    rw [length_drawFreeBytes, hend]
    exact ha
  rw [scratch_fillStageArea]
  generalize (drawFreeBytes (scratchSize - stageBase) s).1 = bs at hout ⊢
  exact memGet_memWrite_of_out _ _ _ hout

theorem scratch_arrayBegun (t : Task) (n : Nat) (d : MatDesc) (s : State) : (hasVirtualInput d = false → (arrayBegun t n d s).scratch = s.scratch) ∧
    ∀ a, a < n * scratchSize + stageBase ∨ (n + 1) * scratchSize ≤ a → memGet (arrayBegun t n d s).scratch a = memGet s.scratch a := by
  rw [arrayBegun, updBenchState_scratch]
  cases hasVirtualInput d with
  | false => exact ⟨fun _ => rfl, fun _ _ => rfl⟩
  | true => exact ⟨fun hno => by simp at hno, (fillStageArea_fields n s).2.2.2.2.2.2⟩

/-- What an array task that begins leaves besides scratch. -/
theorem arrayBegun_fields (t : Task) (n : Nat) (d : MatDesc) (s : State) : (arrayBegun t n d s).tasks = s.tasks ∧
    (benchOf (arrayBegun t n d s) n).run = some { ring := t.ring, seq := t.seq } ∧
    (benchOf (arrayBegun t n d s) n).regs = (benchOf s n).regs ∧ (∀ m, m ≠ n → benchOf (arrayBegun t n d s) m = benchOf s m) ∧
    (arrayBegun t n d s).tallyIssued = s.tallyIssued ∧ (arrayBegun t n d s).mem = s.mem ∧ (arrayBegun t n d s).power = s.power ∧
    (arrayBegun t n d s).rings = s.rings := by
  have hfilled : ∀ u : State, u.tasks = s.tasks → u.benches = s.benches → u.tallyIssued = s.tallyIssued → u.mem = s.mem → u.power = s.power →
      u.rings = s.rings → let v := updBenchState n (fun b : Bench => { b with
        run := some { ring := t.ring, seq := t.seq }
        nextB := b.nextB && (b.bankA.isSome || b.bankB.isSome) }) u
      v.tasks = s.tasks ∧ (benchOf v n).run = some { ring := t.ring, seq := t.seq } ∧ (benchOf v n).regs = (benchOf s n).regs ∧
        (∀ m, m ≠ n → benchOf v m = benchOf s m) ∧ v.tallyIssued = s.tallyIssued ∧ v.mem = s.mem ∧ v.power = s.power ∧ v.rings = s.rings := by
    intro u htasks hbenches htally hmem hpower hrings
    have hbench : ∀ m, benchOf u m = benchOf s m := fun m => by rw [benchOf, hbenches, ← benchOf]
    refine ⟨htasks, by rw [benchOf_updBenchState_self], by rw [benchOf_updBenchState_self, hbench], fun m hm => ?_, htally, hmem, hpower, hrings⟩
    rw [benchOf_updBenchState_ne hm, hbench]
  rw [arrayBegun]
  cases hasVirtualInput d with
  | false => exact hfilled s rfl rfl rfl rfl rfl rfl
  | true =>
    obtain ⟨htasks, hbenches, htally, hmem, hpower, hrings, -⟩ := fillStageArea_fields n s
    exact hfilled _ htasks hbenches htally hmem hpower hrings

theorem wrapAdd_one_of_lt {k : Nat} (hk : k < 2 ^ 64 - 1) : wrapAdd 64 k 1 = k + 1 := by
  rw [wrapAdd, Nat.mod_eq_of_lt (by omega)]

/-- A VECTOR task that is alone on its bench begins on the Dresser. -/
theorem vectorDue_of_only {x : Task} {n : Nat} {d : VectorDesc} {s : State} (htasks : s.tasks = [x]) (hphase : x.phase = .issued)
    (hbench : x.bench = some n) (hbody : x.body = .vector d) (htype : x.header.type = .vector) (hdone : x.workDone = false)
    (hstopping : x.stopping = false) : vectorDue s n = some (x, d) := by
  have hrunning : runningOn s n = [x] := by simp [runningOn, htasks, Task.running, hphase, hbench]
  have hdue : x.header.type = .vector ∧ (!x.workDone) = true ∧ (!x.stopping) = true := by simp [htype, hdone, hstopping]
  rw [vectorDue, hrunning, firstSome_singleton, hbody]
  exact if_pos hdue

theorem noteClocks_only {t : Task} {s : State} (htasks : s.tasks = [t]) : ∃ c, (noteClocks s).tasks = [{ t with clockStarted := c }] := by
  rw [noteClocks, htasks]
  dsimp only [List.map]
  split
  · exact ⟨true, rfl⟩
  · exact ⟨t.clockStarted, rfl⟩

theorem exec_array_of_may {t : Task} {n : Nat} {s : State} (hfind : findTask s t.ring t.seq = some t) (hbench : t.bench = some n)
    (hmay : mayIssue s t = true) :
    (t.header.type = .matmul → exec (.matmul t.ring t.seq) s = .next (preload n (startArray t (markIssued t s)))) ∧
      (t.header.type = .semiring → exec (.semiring t.ring t.seq) s = .next (preload n (startArray t (markIssued t s)))) :=
  ⟨fun hty => congrArg Host.Outcome.next (issueTyped_of_may hfind hbench hmay hty startArray),
    fun hty => congrArg Host.Outcome.next (issueTyped_of_may hfind hbench hmay hty startArray)⟩

/-- Settles O32: a bench task issues when every condition is met, and not otherwise. -/
theorem benchTasksIssue : Obligations.BenchTasksIssue := by
  intro t n s hfind hbench
  refine ⟨fun hbarred => ⟨fun _ => ?_, fun _ => ?_, fun _ => ?_⟩, fun hmay hcount => ⟨fun d hbody htiles => ?_, fun d hbody htiles => ?_,
    fun d hbody htype h0 h1 h2 h3 hdone hstopping hidle hskid hrunning honly => ?_⟩⟩
  · exact congrArg Host.Outcome.next (issueTyped_of_barred hfind hbench hbarred .matmul startArray)
  · exact congrArg Host.Outcome.next (issueTyped_of_barred hfind hbench hbarred .semiring startArray)
  · exact congrArg Host.Outcome.next (issueTyped_of_barred hfind hbench hbarred .vector startVector)
  · obtain ⟨hmatmul, hsemiring⟩ := exec_array_of_may hfind hbench hmay
    have hissued := issuedOn_markIssued hbench s
    obtain ⟨htasks, hrun, hregs, hothers, htally, hmem, hpower, hrings⟩ := arrayBegun_fields t n d (markIssued t s)
    obtain ⟨hscratch, hstage⟩ := scratch_arrayBegun t n d (markIssued t s)
    rw [startArray_of_tiles hbench hbody htiles] at hmatmul hsemiring
    refine ⟨_, hmatmul, hsemiring, htasks.trans hissued.tasks, hrun, ?_, fun m hm => (hothers m hm).trans (hissued.others m hm), ?_,
      hmem.trans hissued.mem, fun hno => (hscratch hno).trans hissued.scratch, fun a ha => ?_, hpower.trans hissued.power,
      hrings.trans hissued.rings⟩
    · rw [hregs, hissued.bench]
      rfl
    · rw [htally, hissued.issued, wrapAdd_one_of_lt hcount]
    · rw [hstage a ha, hissued.scratch]
  · obtain ⟨hmatmul, hsemiring⟩ := exec_array_of_may hfind hbench hmay
    have hissued := issuedOn_markIssued hbench s
    rw [startArray_of_none hbench hbody htiles] at hmatmul hsemiring
    refine ⟨_, hmatmul, hsemiring, ?_, ?_, ?_, hissued.mem, hissued.scratch, hissued.power⟩
    · rw [updTask, hissued.tasks, List.map_map]
      refine List.map_congr_left fun x _ => ?_
      by_cases hx : x.is t.ring t.seq = true
      · have hsame : ({ x with phase := .issued } : Task).is t.ring t.seq = true := hx
        simp only [Function.comp, if_pos hx, if_pos hsame]
      · simp only [Function.comp, if_neg hx]
    · show (benchOf (markIssued t s) n).run = _
      rw [hissued.bench]
      rfl
    · exact hissued.issued.trans (wrapAdd_one_of_lt hcount)
  · have hissued := issuedOn_markIssued hbench s
    obtain ⟨i, hi⟩ := honly
    have htask : s.tasks = [t] := by
      have hmem := List.mem_of_find?_eq_some hfind
      rw [hi, List.mem_singleton] at hmem
      rw [hi, hmem]
    obtain ⟨c, hnoted⟩ := noteClocks_only htask
    have his : t.is t.ring t.seq = true := by simp [Task.is]
    have htasks : (markIssued t s).tasks = [{ t with clockStarted := c, phase := .issued }] := by
      rw [hissued.tasks, hnoted]
      exact congrArg (fun x => [x]) (if_pos his)
    have hdue := vectorDue_of_only (n := n) (d := d) htasks rfl hbench hbody htype hdone hstopping
    have hfree : ((benchOf (markIssued t s) n).dresser.isSome || !(benchOf (markIssued t s) n).skid.isEmpty) = false := by
      rw [hissued.bench, Bench.served, hidle, hskid]
      rfl
    have htake : startVector t (markIssued t s) =
        updBenchState n (beginRun { ring := t.ring, seq := t.seq, desc := d } .vector) (markIssued t s) := by
      rw [startVector, hbody, hbench]
      dsimp only
      rw [if_neg (by simp [h0, h1, h2, h3]), takeVector, ← benchOf, hfree, if_neg Bool.false_ne_true, hdue]
    have hexec : exec (.vector t.ring t.seq) s = .next (preload n (startVector t (markIssued t s))) :=
      congrArg Host.Outcome.next (issueTyped_of_may hfind hbench hmay htype startVector)
    rw [htake] at hexec
    refine ⟨_, hexec, ?_, ?_, ?_, fun m hm => ?_, hissued.mem, hissued.scratch⟩
    · rw [benchOf_updBenchState_self, beginRun]
    · rw [benchOf_updBenchState_self, beginRun]
    · rw [benchOf_updBenchState_self, beginRun]
    · rw [benchOf_updBenchState_ne hm, hissued.others m hm]

end Sys2Proof.Machine
end

