-- ==== Sys2Proof/Proofs/RingCommands.lean ====
section
/-!
PROOFS. Proofs/RingCommands.lean: what the commands of a ring's page and a ring reset leave (R225–R227, R242, R253, R254).
-/

namespace Sys2Proof.Machine

/-! ### The identifier of a grove -/

/-- An identifier of the grove level names that grove or no place at all, in either presentation. -/
theorem groveLevel_place (ml : Bool) {w g : Nat} (hlevel : bitsOf w 18 16 = if ml then 5 else 3) (hgrove : bitsOf w 8 7 = g) :
    ((readUnitId ml w).orElse fun _ => readDiagId ml w).map (·.place) = some (.grove g) ∨
      ((readUnitId ml w).orElse fun _ => readDiagId ml w).map (·.place) = none := by
  cases ml
  · simp only [readUnitId, readNativeId, readDiagId, hlevel, hgrove]
    split <;> split <;> simp_all [Decidable.em]
  · simp only [readUnitId, readMladythId, readDiagId, hlevel, hgrove]
    split <;> split <;> simp_all [Decidable.em]

/-- The identifier of a grove names no grove but it. -/
theorem sourceGrove_grove (s : State) {g : Nat} (hg : g < 4) :
    sourceGrove s (srcGrove s g).toNat = some g ∨ sourceGrove s (srcGrove s g).toNat = none := by
  have hlevel : bitsOf (srcGrove s g).toNat 18 16 = if mladyth s then 5 else 3 := by
    simp only [srcGrove, writeUnitId, BitVec.toNat_ofNat, bitsOf_eq, Nat.shiftLeft_eq]
    cases mladyth s <;> simp <;> omega
  have hgrove : bitsOf (srcGrove s g).toNat 8 7 = g := by
    simp only [srcGrove, writeUnitId, BitVec.toNat_ofNat, bitsOf_eq, Nat.shiftLeft_eq]
    cases mladyth s <;> simp <;> omega
  rcases groveLevel_place (mladyth s) hlevel hgrove with e | e
  · exact .inl (by simp only [sourceGrove, e])
  · exact .inr (by simp only [sourceGrove, e])

/-- A record of a grove that has a HUB is delivered. -/
theorem undelivered_grove {s : State} {g : Nat} (hg : g < 4) (hhub : hubLost s g = false) (e : ErrRecord) (h : e.source = srcGrove s g) :
    undelivered s e = false := by
  rcases sourceGrove_grove s hg with hs | hs
  · simp [undelivered, h, hs, hhub]
  · simp [undelivered, h, hs]

theorem hubLost_congr {s t : State} (h : t.kerf = s.kerf) (g : Nat) : hubLost t g = hubLost s g := by
  simp only [hubLost, h]

/-! ### Rings -/

@[simp] theorem ringOf_updRing_self (r : Nat) (f : Ring → Ring) (s : State) : ringOf (updRing r f s) r = f (ringOf s r) :=
  (Table.get_update ..).trans (if_pos rfl)

@[simp] theorem failures_ringRetire (seq : Nat) (q : Ring) : (ringRetire seq q).failures = q.failures := rfl

theorem homeGrove_lt_of_ringExists {r : Nat} {s : State} (h : ringExists s r = true) : homeGrove r < 4 := by
  have hsome : (ringPartition s r).isSome = true := (Bool.and_eq_true .. ▸ h).1
  have hr : r < 1024 := by
    rw [ringPartition] at hsome
    split at hsome
    · by_contra hge
      rw [if_neg (fun hc => hge hc.1)] at hsome
      cases hsome
    · cases hsome
  rw [homeGrove]
  omega

/-- A change of a ring is what it makes of the ring as it stands. -/
theorem updRing_congr {r : Nat} {f g : Ring → Ring} {s : State} (h : f (ringOf s r) = g (ringOf s r)) : updRing r f s = updRing r g s := by
  rw [ringOf] at h
  rw [updRing, updRing, Table.update, Table.update, h]

/-! ### The commands of a ring's page -/

section Commands

variable {r : Nat} {s : State}

theorem doorbell_of_raise {t : Nat} (hex : ringExists s r = true) (hrun : (ringOf s r).status = .running) (hdev : (ringOf s r).device = false)
    (hlow : (ringOf s r).tail < t) (hhigh : t ≤ (ringOf s r).head + ringSize (ringOf s r)) :
    doorbell r t s = updRing r (fun q => { q with tail := t }) s := by
  have hne : t ≠ (ringOf s r).tail := by omega
  simp only [doorbell, hex, hrun, hdev, Bool.not_true, Bool.not_false, Bool.false_eq_true, if_false, if_neg hne, if_pos (And.intro hlow hhigh)]

theorem doorbell_of_out {t : Nat} (hex : ringExists s r = true) (hrun : (ringOf s r).status = .running) (hdev : (ringOf s r).device = false)
    (hout : t < (ringOf s r).tail ∨ (ringOf s r).head + ringSize (ringOf s r) < t) (hne : t ≠ (ringOf s r).tail) :
    doorbell r t s = failRing r 0x3102 s := by
  have hno : ¬((ringOf s r).tail < t ∧ t ≤ (ringOf s r).head + ringSize (ringOf s r)) := by omega
  simp only [doorbell, hex, hrun, hdev, Bool.not_true, Bool.not_false, Bool.false_eq_true, if_false, if_neg hne, if_neg hno]

theorem doorbell_of_closed {t : Nat} (hex : ringExists s r = true)
    (h : (ringOf s r).status = .disabled ∨ (ringOf s r).status = .resetting ∨ (ringOf s r).device = true) :
    doorbell r t s = updRing r (fun q => { q with dropped := true }) s := by
  rcases h with h | h | h
  · simp only [doorbell, hex, h, Bool.not_true, Bool.not_false, Bool.false_eq_true, if_false, if_true]
  · simp only [doorbell, hex, h, Bool.not_true, Bool.not_false, Bool.false_eq_true, if_false, if_true]
  · cases hstatus : (ringOf s r).status <;>
      simp only [doorbell, hex, h, hstatus, Bool.not_true, Bool.not_false, Bool.false_eq_true, if_false, if_true]

theorem ringEnable_of_good (hex : ringExists s r = true) (hdis : (ringOf s r).status = .disabled) (hbase : (ringOf s r).base ≠ 0)
    (hsize : (ringOf s r).sizeLog2 ≤ 12) : ringEnable r s = updRing r (fun q => { q with
      head := 0, tail := 0, completed := 0, retired := [], failures := [], sliceWait := none, lost := [], status := .running }) s := by
  have hgo : (!ringExists s r || decide ((ringOf s r).status ≠ .disabled)) = false := by simp [hex, hdis]
  simp only [ringEnable, hgo, Bool.false_eq_true, if_false, if_pos (And.intro hbase hsize)]

theorem ringPause_of_live (hex : ringExists s r = true) (h : (ringOf s r).status = .running ∨ (ringOf s r).status = .faulted) :
    ringPause r s = updRing r (fun q => { q with status := .paused }) (noteClocks s) := by
  rcases h with h | h <;> simp only [ringPause, hex, h, Bool.not_true, Bool.false_eq_true, if_false]

theorem ringResume_of_paused (hex : ringExists s r = true) (h : (ringOf s r).status = .paused) :
    ringResume r s = preloadBenches
      (updRing r (fun p => { p with status := if (ringOf s r).failures.isEmpty then .running else .faulted }) s) := by
  have hgo : (!ringExists s r || decide ((ringOf s r).status ≠ .paused)) = false := by simp [hex, h]
  simp only [ringResume, hgo, Bool.false_eq_true, if_false]
  exact congrArg preloadBenches (updRing_congr rfl)

theorem acknowledge_of_failure {f : HeldFailure} {fs : List HeldFailure} (hex : ringExists s r = true) (h : (ringOf s r).failures = f :: fs) :
    acknowledge r s = preloadBenches (updRing r (fun q => { q with
      failures := fs, status := if fs.isEmpty ∧ q.status = .faulted then .running else q.status })
        (if f.ofRing then s else retireFailed r f.at_ s)) := by
  simp only [acknowledge, hex, h, Bool.not_true, Bool.false_eq_true, if_false]

theorem retireFailed_of_free {seq : Nat} {t : Task} (hfind : findTask s r seq = some t) (hfree : t.member = false) :
    retireFailed r seq s = retireTask r seq s := by
  simp only [retireFailed, hfind, hfree, Bool.false_eq_true, if_false]

end Commands

/-! ### The end of tasks by a ring reset -/

/-- Only what holds work differs: benches, power, tasks, and the waits and lines of tasks. -/
def OnlyWork (s t : State) : Prop :=
  t = { s with
    benches := t.benches, power := t.power, tasks := t.tasks, tu := t.tu, tier := t.tier, opLines := t.opLines, scatAdds := t.scatAdds }

theorem onlyWork_refl (s : State) : OnlyWork s s := rfl

theorem onlyWork_trans {s t u : State} (hst : OnlyWork s t) (htu : OnlyWork t u) : OnlyWork s u := by
  rw [OnlyWork] at hst htu ⊢
  rw [htu, hst]

theorem onlyWork_foldl {α : Type} {f : State → α → State} (l : List α) (hf : ∀ x ∈ l, ∀ s, OnlyWork s (f s x)) (s : State) :
    OnlyWork s (l.foldl f s) :=
  List.foldlRecOn (motive := OnlyWork s) l f (onlyWork_refl s) fun _ ht x hx => onlyWork_trans ht (hf x hx _)

theorem onlyWork_takeVector (n : Nat) (s : State) : OnlyWork s (takeVector n s) := by
  simp only [takeVector]
  split
  · exact onlyWork_refl s
  · split <;> rfl

theorem onlyWork_settleGrant (n : Nat) (s : State) : OnlyWork s (settleGrant n s) := by
  rcases settleGrant_cases n s with h | ⟨rs, h⟩ <;> rw [h] <;> rfl

theorem onlyWork_settleBenchOf (t : Task) (s : State) : OnlyWork s (settleBenchOf t s) := by
  unfold settleBenchOf
  split
  · exact onlyWork_trans (onlyWork_takeVector _ _) (onlyWork_settleGrant _ _)
  · exact onlyWork_refl s

@[simp] theorem tasks_settleGrant (n : Nat) (s : State) : (settleGrant n s).tasks = s.tasks := by
  rcases settleGrant_cases n s with h | ⟨rs, h⟩ <;> rw [h]

@[simp] theorem tasks_settleBenchOf (t : Task) (s : State) : (settleBenchOf t s).tasks = s.tasks := by
  unfold settleBenchOf
  split
  · rw [tasks_settleGrant, tasks_takeVector]
  · rfl

/-- A task on which a reset has nothing to settle beside its own work: staged, of no group and with no signal. -/
structure QuietTask (t : Task) : Prop where
  staged : t.phase = .staged
  free : t.member = false
  noSignal : t.signalPa = none

/-- The bench and the waits of a task that a reset ends. -/
def letGo (s : State) (t : Task) : State :=
  forgetWaits t.ring t.seq (match t.bench with
    | some n => updBenchState n (stopOnBench t.ring t.seq) s
    | none => s)

theorem onlyWork_letGo (s : State) (t : Task) : OnlyWork s (letGo s t) := by
  unfold letGo
  split <;> rfl

@[simp] theorem tasks_letGo (s : State) (t : Task) : (letGo s t).tasks = s.tasks := by
  unfold letGo
  split <;> rfl

theorem endByRingReset_of_quiet {t : Task} (h : QuietTask t) (s : State) :
    endByRingReset s t = settleBenchOf t (dropTask t.ring t.seq (letGo s t)) := by
  have hnot : t.phase ≠ .awaiting := by simp [h.staged]
  have hlive : t.phase ≠ .failed := by simp [h.staged]
  cases hbench : t.bench <;>
    simp only [endByRingReset, if_neg hnot, if_neg hlive, abortSignal, h.noSignal, h.free, Bool.false_eq_true, if_false, letGo, hbench]

theorem onlyWork_endByRingReset {t : Task} (h : QuietTask t) (s : State) : OnlyWork s (endByRingReset s t) := by
  rw [endByRingReset_of_quiet h]
  refine onlyWork_trans (onlyWork_letGo s t) (onlyWork_trans ?_ (onlyWork_settleBenchOf _ _))
  rfl

theorem tasks_endByRingReset {t : Task} (h : QuietTask t) (s : State) :
    (endByRingReset s t).tasks = s.tasks.filter fun x => !x.is t.ring t.seq := by
  rw [endByRingReset_of_quiet h, tasks_settleBenchOf]
  exact congrArg (List.filter _) (tasks_letGo s t)

/-- What stays once quiet tasks have ended: every task that is none of them. -/
theorem mem_tasks_foldl_endByRingReset {ts : List Task} (h : ∀ t ∈ ts, QuietTask t) (s : State) (x : Task) :
    x ∈ (ts.foldl endByRingReset s).tasks ↔ x ∈ s.tasks ∧ ∀ t ∈ ts, x.is t.ring t.seq = false := by
  induction ts generalizing s with
  | nil => simp
  | cons t ts ih =>
    rw [List.foldl_cons, ih (fun u hu => h u (List.mem_cons_of_mem _ hu)), tasks_endByRingReset (h t List.mem_cons_self)]
    simp [and_assoc]

/-! ### Tasks stopped by a ring reset -/

/-- A staged task that a ring reset stops. -/
def Task.stopped (t : Task) : Task := { t with stopping := true, blocked := false, arrayDone := t.arrayDone || t.onArray }

theorem stopByRingReset_of_staged {t : Task} (h : t.phase = .staged) (s : State) :
    stopByRingReset s t = updTask t.ring t.seq Task.stopped s := by
  cases hb : t.bench <;> simp only [stopByRingReset, h, hb] <;> rfl

/-- A change of tasks that tells no task of ring r from a quiet one, and leaves the tasks of other rings as they are. -/
structure MarksRing (r : Nat) (g : Task → Task) : Prop where
  key : ∀ x, (g x).ring = x.ring ∧ (g x).seq = x.seq
  quiet : ∀ x, QuietTask x → QuietTask (g x)
  others : ∀ x, x.ring ≠ r → g x = x

theorem marksRing_comp {r : Nat} {f g : Task → Task} (hf : MarksRing r f) (hg : MarksRing r g) : MarksRing r (g ∘ f) where
  key x := ⟨(hg.key _).1.trans (hf.key x).1, (hg.key _).2.trans (hf.key x).2⟩
  quiet x hx := hg.quiet _ (hf.quiet x hx)
  others x hx := by rw [Function.comp_apply, hf.others x hx, hg.others x hx]

theorem marksRing_stopped {r : Nat} {t : Task} (ht : t.ring = r) :
    MarksRing r (fun x => if x.is t.ring t.seq then x.stopped else x) where
  key x := by split <;> exact ⟨rfl, rfl⟩
  quiet x hx := by
    split
    · exact ⟨hx.staged, hx.free, hx.noSignal⟩
    · exact hx
  others x hx := if_neg (by
    simp only [Task.is, Bool.and_eq_true, beq_iff_eq]
    exact fun h => hx (h.1.trans ht))

/-- Staged tasks of a ring stopped: that the ring's tasks are marked is all that differs. -/
theorem foldl_stopByRingReset {r : Nat} {ts : List Task} (h : ∀ t ∈ ts, t.ring = r ∧ t.phase = .staged) (s : State) :
    ∃ g, MarksRing r g ∧ ts.foldl stopByRingReset s = { s with tasks := s.tasks.map g } := by
  induction ts generalizing s with
  | nil => exact ⟨id, ⟨fun _ => ⟨rfl, rfl⟩, fun _ hx => hx, fun _ _ => rfl⟩, by rw [List.map_id]; rfl⟩
  | cons t ts ih =>
    obtain ⟨hring, hstaged⟩ := h t List.mem_cons_self
    obtain ⟨g, hg, hfold⟩ := ih (fun u hu => h u (List.mem_cons_of_mem _ hu)) (updTask t.ring t.seq Task.stopped s)
    refine ⟨g ∘ fun x => if x.is t.ring t.seq then x.stopped else x, marksRing_comp (marksRing_stopped hring) hg, ?_⟩
    rw [List.foldl_cons, stopByRingReset_of_staged hstaged, hfold, updTask, List.map_map]

/-! ### The end of a ring reset (R254) -/

/-- The tasks of a ring. -/
def tasksOf (s : State) (r : Nat) : List Task := s.tasks.filter fun t => t.ring == r

theorem mem_tasksOf {s : State} {r : Nat} {t : Task} : t ∈ tasksOf s r ↔ t ∈ s.tasks ∧ t.ring = r := by
  simp [tasksOf]

/-- The record of a ring reset (R254). -/
def resetRecord (r ended : Nat) (s : State) : ErrRecord :=
  { code := 0x3110, ring := BitVec.ofNat 16 r, source := srcGrove s (homeGrove r), context := BitVec.ofNat 16 (ringOf s r).context,
    detail0 := BitVec.ofNat 64 ended }

/-- A ring's adds of scatters gone. -/
def withoutAdds (r : Nat) (s : State) : State := { s with scatAdds := s.scatAdds.filter fun x => x.2.1 != r }

/-- A ring as its reset leaves it. -/
def Ring.closed (q : Ring) : Ring := { q with
  head := 0, tail := 0, completed := 0, failures := [], retired := [], dropped := false, status := .disabled, pending := []
  readWaits := false, descriptorWaits := false, stageFails := none, stageAddr := 0, sliceWait := none, lost := [] }

/-- How many tasks of the ring end by its reset. -/
def endedBy (s : State) (r : Nat) : Nat :=
  ((tasksOf s r).filter fun t => decide (t.phase = .staged) || decide (t.phase = .issued)).length

theorem finishRingReset_eq (r : Nat) (s : State) : finishRingReset r s =
    updRing r Ring.closed (report (resetRecord r (endedBy s r) s) (withoutAdds r ((tasksOf s r).foldl endByRingReset s))) := rfl

theorem ringOf_finishRingReset (r : Nat) (s : State) :
    (ringOf (finishRingReset r s) r).status = .disabled ∧ (ringOf (finishRingReset r s) r).head = 0 ∧
      (ringOf (finishRingReset r s) r).tail = 0 ∧ (ringOf (finishRingReset r s) r).completed = 0 ∧
      (ringOf (finishRingReset r s) r).failures = [] ∧ (ringOf (finishRingReset r s) r).pending = [] := by
  simp only [finishRingReset_eq, ringOf_updRing_self, Ring.closed, and_self]

theorem tasks_finishRingReset (r : Nat) (s : State) :
    (finishRingReset r s).tasks = ((tasksOf s r).foldl endByRingReset s).tasks := by
  simp only [finishRingReset_eq, updRing_tasks, report_tasks, withoutAdds]

/-- The end of a ring reset all of whose tasks are quiet: they are gone, no other task and no byte of memory is, and one record tells
their number. -/
theorem finishRingReset_of_quiet {r : Nat} {s : State} (hquiet : ∀ t ∈ tasksOf s r, QuietTask t) (hgrove : homeGrove r < 4)
    (hroom : queueFull s.err = false) (hhub : hubLost s (homeGrove r) = false) :
    let u := finishRingReset r s
    (∀ t ∈ u.tasks, t.ring ≠ r) ∧ (∀ t ∈ s.tasks, t.ring ≠ r → t ∈ u.tasks) ∧ u.mem = s.mem ∧
      (recordAt u.err s.err.written).code = 0x3110 ∧
      (recordAt u.err s.err.written).detail0 = BitVec.ofNat 64 (tasksOf s r).length := by
  intro u
  have htasks : ∀ x, x ∈ u.tasks ↔ x ∈ s.tasks ∧ ∀ t ∈ tasksOf s r, x.is t.ring t.seq = false := fun x => by
    rw [show u.tasks = _ from tasks_finishRingReset r s, mem_tasks_foldl_endByRingReset hquiet]
  have hended : endedBy s r = (tasksOf s r).length :=
    congrArg List.length (List.filter_eq_self.mpr fun t ht => by simp [(hquiet t ht).staged])
  have hu : ∃ v, OnlyWork s v ∧ u.mem = v.mem ∧ u.err = (report (resetRecord r (tasksOf s r).length s) v).err := by
    refine ⟨withoutAdds r ((tasksOf s r).foldl endByRingReset s), onlyWork_trans
      (onlyWork_foldl _ (fun t ht s => onlyWork_endByRingReset (hquiet t ht) s) s) rfl, ?_, ?_⟩
    · simp only [u, finishRingReset_eq, updRing_mem, report_mem]
    · simp only [u, finishRingReset_eq, updRing_err, hended]
  obtain ⟨v, hv, hmem, herr⟩ := hu
  have hverr : v.err = s.err := (congrArg State.err hv :)
  have hvmem : v.mem = s.mem := (congrArg State.mem hv :)
  have hvhub : hubLost v (homeGrove r) = false := (hubLost_congr (congrArg State.kerf hv :) _).trans hhub
  have hsource : srcGrove s (homeGrove r) = srcGrove v (homeGrove r) := (srcGrove_congr (congrArg State.cfg hv :) _).symm
  have hcls : classOf (resetRecord r (tasksOf s r).length s).code ≠ .corrected := (by decide : classOf 0x3110 ≠ .corrected)
  have hrecord := report_written_fields (hverr ▸ hroom) (undelivered_grove hgrove hvhub _ hsource) hcls
  rw [hverr, ← herr] at hrecord
  obtain ⟨hcode, -, -, -, -, -, hdetail, -⟩ := hrecord
  refine ⟨fun t ht hr => ?_, fun t ht hr => ?_, hmem.trans hvmem, hcode, hdetail⟩
  · obtain ⟨hin, hout⟩ := (htasks t).mp ht
    have hself := hout t (mem_tasksOf.mpr ⟨hin, hr⟩)
    simp [Task.is] at hself
  · refine (htasks t).mpr ⟨ht, fun x hx => ?_⟩
    have hxr := (mem_tasksOf.mp hx).2
    simp only [Task.is, Bool.and_eq_false_iff, beq_eq_false_iff_ne]
    exact .inl fun he => hr (he.trans hxr)

/-! ### RESET of a ring none of whose tasks is issued (R253) -/

/-- The ring under reset, with nothing of it at work. -/
def underReset (r : Nat) (s : State) : State :=
  forgetRing r (updRing r (fun q => { q with
    status := .resetting, pending := [], readWaits := false, descriptorWaits := false, stageFails := none, sliceWait := none }) s)

theorem ringReset_of_quiet {r : Nat} {s : State} (hex : ringExists s r = true) (hrun : (ringOf s r).status = .running)
    (hquiet : ∀ t ∈ tasksOf s r, QuietTask t) (henq : enqueuesTo s r = []) :
    ∃ g, MarksRing r g ∧ ringReset r s = finishRingReset r { underReset r s with tasks := s.tasks.map g } := by
  have hbenches : ((s.tasks.filter fun t => t.ring == r).filterMap fun t => if t.running then t.bench else none) = [] := by
    rw [List.filterMap_eq_nil_iff]
    intro t ht
    have hnot : t.running = false := by simp [Task.running, (hquiet t ht).staged]
    rw [hnot]
    rfl
  obtain ⟨g, hg, hstop⟩ := foldl_stopByRingReset (r := r) (ts := tasksOf s r)
    (fun t ht => ⟨(mem_tasksOf.mp ht).2, (hquiet t ht).staged⟩) (underReset r s)
  have hnone : enqueuesTo { underReset r s with tasks := s.tasks.map g } r = [] := by
    rw [enqueuesTo, List.filter_eq_nil_iff] at henq ⊢
    intro y hy
    obtain ⟨x, hx, rfl⟩ := List.mem_map.mp hy
    by_cases hr : x.ring = r
    · have hnot : (g x).running = false := by
        simp [Task.running, (hg.quiet x (hquiet x (mem_tasksOf.mpr ⟨hx, hr⟩))).staged]
      simp [hnot]
    · rw [hg.others x hr]
      exact henq x hx
  have hlive : (!ringExists s r || !((ringOf s r).status == .running || (ringOf s r).status == .paused ||
      (ringOf s r).status == .faulted)) = false := by simp [hex, hrun]
  refine ⟨g, hg, ?_⟩
  simp only [ringReset, hlive, Bool.false_eq_true, if_false, hbenches, List.eraseDups_nil, List.isEmpty_nil, if_true]
  rw [← underReset, ← tasksOf, hstop]
  exact congrArg (finishRingReset r) (by rw [show (underReset r s).tasks = s.tasks from rfl, hnone]; rfl)

/-! ### A report of the last bench (R253, R254) -/

/-- The place of a task in Tally's tables. -/
def Task.key (t : Task) : Nat × Nat := (t.ring, t.seq)

@[simp] theorem tasks_homeStore (key : HomeKey) (pa : Nat) (bs : List Byte) (s : State) : (homeStore key pa bs s).tasks = s.tasks := by
  cases key <;> rfl

@[simp] theorem tasks_plainWrite (pa : Nat) (bs : List Byte) (s : State) : (plainWrite pa bs s).tasks = s.tasks :=
  List.foldlRecOn (motive := fun t => t.tasks = s.tasks) _ _ rfl fun t ht _ _ => (tasks_homeStore _ _ _ t).trans ht

@[simp] theorem tasks_spoilBytes (ts : List Task) (adds : List (Nat × Nat × Nat)) (a : Nat) (bs : List Byte) (s : State) :
    (spoilBytes ts adds a bs s).2.tasks = s.tasks := by
  induction bs generalizing a s with
  | nil => rfl
  | cons b bs ih =>
    unfold spoilBytes
    split
    · exact ih (a + 1) (drawFree s).2
    · exact ih (a + 1) s

@[simp] theorem tasks_outsideWrite (q : Requester) (pa : Nat) (bs : List Byte) (s : State) : (outsideWrite q pa bs s).2.tasks = s.tasks := by
  unfold outsideWrite
  split
  · rfl
  · exact tasks_spoilBytes ..

@[simp] theorem tasks_abortSignal (t : Task) (s : State) : (abortSignal t s).tasks = s.tasks := by
  unfold abortSignal
  split
  · split
    · unfold signalAbort signalBy
      split <;> simp
    · rfl
  · rfl

@[simp] theorem keys_closeGroup (g : Nat) (s : State) : (closeGroup g s).tasks.map Task.key = s.tasks.map Task.key := by
  simp only [closeGroup, updGroup_tasks, List.map_map]
  refine List.map_congr_left fun t _ => ?_
  rw [Function.comp_apply]
  split <;> rfl

@[simp] theorem keys_freeGroup (g : Nat) (s : State) : (freeGroup g s).tasks.map Task.key = s.tasks.map Task.key := by
  simp only [freeGroup]
  split
  · split <;> simp
  · split
    · split
      · rw [keys_closeGroup]
        rfl
      · rfl
    · rfl
  · rfl
  · rfl

theorem keys_dropTask (r seq : Nat) (s : State) :
    (dropTask r seq s).tasks.map Task.key = (s.tasks.map Task.key).filter fun k => decide (k ≠ (r, seq)) := by
  rw [dropTask, List.filter_map]
  refine congrArg (List.map Task.key) (List.filter_congr fun t _ => ?_)
  simp only [Function.comp_apply, Task.key, Task.is, ne_eq, Prod.mk.injEq, decide_not, Bool.decide_and]
  rfl

/-- Whatever a task is doing, its end by a ring reset takes its place, and no other, out of Tally's tables. -/
theorem keys_endByRingReset (s : State) (t : Task) :
    (endByRingReset s t).tasks.map Task.key = (s.tasks.map Task.key).filter fun k => decide (k ≠ t.key) := by
  have hdrop : ∀ u : State, u.tasks = s.tasks →
      (dropTask t.ring t.seq u).tasks.map Task.key = (s.tasks.map Task.key).filter fun k => decide (k ≠ t.key) := fun u hu => by
    rw [keys_dropTask, hu]
    rfl
  have hlet := tasks_letGo s t
  rw [letGo] at hlet
  by_cases hawait : t.phase = .awaiting
  · simp only [endByRingReset, if_pos hawait, deferMember, updGroup_tasks]
    exact hdrop s rfl
  · simp only [endByRingReset, if_neg hawait]
    have hs3 : ∀ c : Prop, [Decidable c] → ∀ u : State, u.tasks = s.tasks → (if c then u else abortSignal t u).tasks = s.tasks := fun c _ u hu => by
      split
      · exact hu
      · rw [tasks_abortSignal, hu]
    split
    · rw [keys_freeGroup, updGroup_tasks, tasks_settleBenchOf]
      exact hdrop _ (hs3 _ _ hlet)
    · rw [tasks_settleBenchOf]
      exact hdrop _ (hs3 _ _ hlet)

theorem mem_keys_foldl_endByRingReset (ts : List Task) (s : State) (k : Nat × Nat) :
    k ∈ (ts.foldl endByRingReset s).tasks.map Task.key ↔ k ∈ s.tasks.map Task.key ∧ ∀ t ∈ ts, k ≠ t.key := by
  induction ts generalizing s with
  | nil => simp
  | cons t ts ih =>
    rw [List.foldl_cons, ih, keys_endByRingReset]
    simp [and_assoc]

/-- No task of a ring is left at the end of its reset. -/
theorem ring_of_mem_finishRingReset {r : Nat} {s : State} {t : Task} (h : t ∈ (finishRingReset r s).tasks) : t.ring ≠ r := by
  rw [tasks_finishRingReset] at h
  obtain ⟨hin, hout⟩ := (mem_keys_foldl_endByRingReset (tasksOf s r) s t.key).mp (List.mem_map_of_mem h)
  obtain ⟨x, hx, hkey⟩ := List.mem_map.mp hin
  intro hr
  have hxr : x.ring = r := (congrArg Prod.fst hkey).trans hr
  exact hout x (mem_tasksOf.mpr ⟨hx, hxr⟩) hkey.symm

theorem benchReport_of_due {r n : Nat} {s : State} (hres : (ringOf s r).status = .resetting) (hmem : (ringOf s r).pending.contains n = true)
    (hmay : mayReport s r n = true) :
    benchReport r n s =
      let left := (ringOf s r).pending.filter fun m => m != n
      let s1 := updRing r (fun q => { q with pending := left }) s
      if left.isEmpty then finishRingReset r s1 else s1 := by
  have hgo : ¬((ringOf s r).status ≠ .resetting ∨ (!(ringOf s r).pending.contains n) = true ∨ (!mayReport s r n) = true) := by
    rw [hres, hmem, hmay]
    simp
  simp only [benchReport, if_neg hgo]

/-- Settles O30: the register commands by their cases; a ring reset, whose tasks are quiet, by what their end keeps, and any other by the
places it takes out of Tally's tables. -/
theorem ringsObeyAndReset : Obligations.RingsObeyAndReset := by
  unfold Obligations.RingsObeyAndReset
  refine ⟨fun r v s hex => ⟨?_, ?_, ?_, ?_, ?_, ?_, ?_, ?_⟩, fun r s hex hrun hall henq _ hroom hhub => ?_, fun r n m s hres hmay => ⟨?_, ?_⟩⟩
  · intro hrun hdev hlow hhigh
    exact congrArg Host.Outcome.next (doorbell_of_raise hex hrun hdev hlow hhigh)
  · intro hrun hdev hout hne
    exact congrArg Host.Outcome.next (doorbell_of_out hex hrun hdev hout hne)
  · intro h
    exact congrArg Host.Outcome.next (doorbell_of_closed hex h)
  · intro hdis hbase hsize
    exact congrArg Host.Outcome.next (ringEnable_of_good hex hdis hbase hsize)
  · intro h
    exact congrArg Host.Outcome.next (ringPause_of_live hex h)
  · intro h
    exact congrArg Host.Outcome.next (ringResume_of_paused hex h)
  · intro f fs hfail hring
    refine congrArg Host.Outcome.next ((acknowledge_of_failure hex hfail).trans ?_)
    rw [if_pos hring]
  · intro f fs t hfail hring hfind hfree
    refine ⟨_, congrArg Host.Outcome.next (acknowledge_of_failure hex hfail), ?_⟩
    rw [if_neg (by simp [hring]), retireFailed_of_free hfind hfree]
    exact ⟨rfl, congrArg Ring.failures (ringOf_updRing_self ..), rfl, rfl⟩
  · have hquiet : ∀ t ∈ tasksOf s r, QuietTask t := fun t ht => by
      obtain ⟨hin, hr⟩ := mem_tasksOf.mp ht
      obtain ⟨hstaged, hfree, hnone⟩ := hall t hin hr
      exact ⟨hstaged, hfree, hnone⟩
    obtain ⟨g, hg, hreset⟩ := ringReset_of_quiet hex hrun hquiet henq
    have hmarked : ∀ x, x ∈ s.tasks.map g ↔ ∃ t ∈ s.tasks, g t = x := fun x => List.mem_map
    have hquiet' : ∀ t ∈ tasksOf { underReset r s with tasks := s.tasks.map g } r, QuietTask t := fun t ht => by
      obtain ⟨hin, hr⟩ := mem_tasksOf.mp ht
      obtain ⟨x, hx, rfl⟩ := (hmarked t).mp hin
      exact hg.quiet x (hquiet x (mem_tasksOf.mpr ⟨hx, (hg.key x).1.symm.trans hr⟩))
    have hlength : (tasksOf { underReset r s with tasks := s.tasks.map g } r).length = (tasksOf s r).length := by
      rw [tasksOf, tasksOf, List.filter_map, List.length_map]
      exact congrArg List.length (List.filter_congr fun x _ => by rw [Function.comp_apply, (hg.key x).1])
    obtain ⟨hgone, hothers, hmem, hcode, hdetail⟩ := finishRingReset_of_quiet hquiet' (homeGrove_lt_of_ringExists hex) hroom hhub
    obtain ⟨hstatus, hhead, htail, hcompleted, hfailures, -⟩ := ringOf_finishRingReset r { underReset r s with tasks := s.tasks.map g }
    refine ⟨_, congrArg (fun u => Host.Outcome.next (preloadBenches u)) hreset, hstatus, hhead, htail, hcompleted, hfailures, hgone, ?_, hmem,
      hcode, hlength ▸ hdetail⟩
    exact fun t ht hr => hothers t ((hmarked t).mpr ⟨t, ht, hg.others t hr⟩) hr
  · intro hpending hne
    refine congrArg (fun u => Host.Outcome.next (preloadBenches u)) ?_
    rw [benchReport_of_due hres (by simp [hpending]) hmay, hpending]
    simp [hne.symm]
  · intro hpending
    have hleft : benchReport r n s = finishRingReset r (updRing r (fun q => { q with pending := [] }) s) := by
      rw [benchReport_of_due hres (by simp [hpending]) hmay, hpending]
      simp
    obtain ⟨hstatus, hhead, htail, -, -, hnone⟩ := ringOf_finishRingReset r (updRing r (fun q => { q with pending := [] }) s)
    exact ⟨_, congrArg (fun u => Host.Outcome.next (preloadBenches u)) hleft, hstatus, hhead, htail, hnone, fun t => ring_of_mem_finishRingReset⟩

end Sys2Proof.Machine
end

