-- ==== Sys2Proof/Proofs/TierDirectory.lean ====
section
/-!
PROOFS. Proofs/TierDirectory.lean: the tier directory: migrations, errors, repairs, and its registers (R267–R271, R277–R283).
-/

namespace Sys2Proof.Machine

/-! ### The bytes of a home -/

theorem length_sliceBytes (bs : List Byte) (off n : Nat) : (sliceBytes bs off n).length = n := by
  simp only [sliceBytes, List.length_append, List.length_replicate]
  have := List.length_take_le n (bs.drop off)
  omega

theorem length_flashBytes (s : State) (pa n : Nat) : (flashBytes s pa n).length = n := by
  unfold flashBytes
  split
  · rw [List.length_map, List.length_range]
  · exact length_memRead ..

/-- A home gives as many bytes as are read of it, in whatever tier it lies. -/
theorem length_homeBytes_any (s : State) (key : HomeKey) (pa n : Nat) : (homeBytes s key pa n).length = n := by
  have hunsealed : (if regionOf pa = .flash then flashBytes s pa n else rawRead s pa n).length = n := by
    split
    · exact length_flashBytes ..
    · exact length_memRead ..
  match key with
  | .sealed k =>
    rw [homeBytes]
    split
    · refine flatMap_pieces (pa := pa) (n := n) (by decide : 0 < ashlarSize) _ (fun m bs => bs.length = m) rfl fun m l bs _ _ hbs => ?_
      rw [List.length_append, hbs]
      congr 1
      split
      · exact length_sliceBytes ..
      · exact List.length_replicate
    · exact length_sliceBytes ..
  | .plain => exact hunsealed
  | .gone => exact hunsealed

/-! ### Migrations (R267, R269, R271) -/

/-- A frame taken for an ashlar changes the tiers alone, and its copying copy is the ashlar's from then on. -/
def TakesFrame (a : Nat) (s : State) (r : Option PoolFrame × State) : Prop :=
  r.2 = { s with tier := { r.2.tier with inProgress := s.tier.inProgress } } ∧
    ∀ f, r.1 = some f → r.2.tier.frames.head? = some f ∧ f.ashlar = a ∧ f.copying = true ∧ f.leaving = false

theorem takesFrame_takeFrame (g a : Nat) (stream : Bool) (s : State) : TakesFrame a s (takeFrame g a stream s) := by
  have hnone : TakesFrame a s (none, dropLeaving s) := ⟨rfl, fun f hf => nomatch hf⟩
  have htaken (i : Nat) (t : State) (ht : t = { s with tier := { t.tier with inProgress := s.tier.inProgress } })
      (hhead : t.tier.frames.head? = some ⟨g, i, a, stream, (dropLeaving s).tier.useClock, true, false⟩) :
      TakesFrame a s (some ⟨g, i, a, stream, (dropLeaving s).tier.useClock, true, false⟩, t) := by
    refine ⟨ht, fun f hf => ?_⟩
    obtain rfl := Option.some.inj hf
    exact ⟨hhead, rfl, rfl, rfl⟩
  cases hfree : freeFrame (dropLeaving s) g with
  | some i =>
    simp only [takeFrame, hfree]
    exact htaken i _ rfl rfl
  | none =>
    cases hstream : reclaimable (dropLeaving s) g true with
    | some v =>
      simp only [takeFrame, hfree, hstream]
      exact htaken v.index _ rfl rfl
    | none =>
      cases hany : reclaimable (dropLeaving s) g false with
      | some v =>
        simp only [takeFrame, hfree, hstream, hany]
        exact htaken v.index _ rfl rfl
      | none =>
        simp only [takeFrame, hfree, hstream, hany]
        exact hnone

/-- The copy of an ashlar begun, with nobody waiting for it: the first of its frames is the one it is to fill, if it found one. -/
theorem beginMigration_fresh {o : TierObject} {a : Nat} {s : State} (hnone : s.tier.inProgress = []) :
    ∃ m, (beginMigration o a none s).tier.inProgress = [m] ∧ m.ashlar = a ∧ m.waiters = [] ∧
      (beginMigration o a none s).mem = s.mem ∧ (beginMigration o a none s).err = s.err ∧
      (m.frame.isSome = true → (frameOf (beginMigration o a none s) a).map (·.copying) = some true) := by
  have htake := takesFrame_takeFrame (poolGrove o a) a (o.policy == 2) s
  have hidle : (s.tier.inProgress.any fun m => m.ashlar == a) = false := by rw [hnone]; rfl
  simp only [beginMigration, hidle, Bool.false_eq_true, if_false, Migration.join]
  generalize takeFrame (poolGrove o a) a (o.policy == 2) s = r at htake ⊢
  obtain ⟨honly, hhead⟩ := htake
  have hidle' : r.2.tier.inProgress = [] := (congrArg (·.tier.inProgress) honly :).trans hnone
  refine ⟨_, by rw [hidle', List.nil_append], rfl, rfl, (congrArg State.mem honly :), (congrArg State.err honly :), fun hsome => ?_⟩
  obtain ⟨f, hf⟩ := Option.isSome_iff_exists.mp (by simpa using hsome)
  obtain ⟨hfirst, hashlar, hcopying, hstays⟩ := hhead f hf
  obtain ⟨fs, hfs⟩ := List.head?_eq_some_iff.mp hfirst
  have hfound : (f.ashlar == a && !f.leaving) = true := by simp [hashlar, hstays]
  simp only [frameOf, hfs, List.find?_cons, hfound, Option.map_some, hcopying]

theorem migration_of_miss {o : TierObject} {offset i a : Nat} {s : State} (ha : offset / ashlarSize * ashlarSize = a) (hon : s.tier.enable = true)
    (hin : inService s = true) (hnone : s.tier.inProgress = []) (hobj : objectAt s a = some (i, o)) (hframe : frameOf s a = none)
    (hhome : servedFromHome s o a = false) (hgood : o.failed = false) : migration offset s = beginMigration o a none s := by
  subst ha
  simp only [migration, hnone, List.find?_nil, hon, hin, hobj, hframe, hhome, hgood]
  rfl

/-- The end of the only migration takes it out, and marks the copies of its ashlar as there. -/
theorem endMigration_only {m : Migration} {s : State} (hm : s.tier.inProgress = [m]) (keep : Bool) :
    (endMigration m keep s).tier.inProgress = [] := by
  simp [endMigration, hm]

/-- A frame of an ashlar whose copy has been made. -/
def PoolFrame.filled (a clock : Nat) (x : PoolFrame) : PoolFrame :=
  if x.ashlar = a ∧ !x.leaving then { x with copying := false, lastUse := clock } else x

theorem isCopyOf_filled (a clock : Nat) (x : PoolFrame) :
    ((x.filled a clock).ashlar == a && !(x.filled a clock).leaving) = (x.ashlar == a && !x.leaving) := by
  unfold PoolFrame.filled
  split <;> rfl

theorem frameOf_endMigration {m : Migration} {f : PoolFrame} {s : State} (hf : frameOf s m.ashlar = some f) :
    (frameOf (endMigration m true s) m.ashlar).map (·.copying) = some false := by
  have hframes : (endMigration m true s).tier.frames = s.tier.frames.map (PoolFrame.filled m.ashlar s.tier.useClock) := rfl
  have hcopy := List.find?_some hf
  simp only [Bool.and_eq_true, beq_iff_eq] at hcopy
  have hfilled : (f.filled m.ashlar s.tier.useClock).copying = false := by rw [PoolFrame.filled, if_pos hcopy]
  rw [frameOf] at hf ⊢
  simp only [hframes, List.find?_map, Function.comp_def, isCopyOf_filled, hf, Option.map_some, hfilled]

theorem serveWaiters_nil (a : Nat) (s : State) : serveWaiters a [] s = s := by simp [serveWaiters]

theorem failMigration_of_alone {m : Migration} (h : m.waiters = []) (code : W16) (pa : Nat) (s : State) :
    failMigration m code pa s = endMigration m false s := by
  rw [failMigration, h, List.foldl_nil]

/-- The copy of an ashlar nobody waits for, made: its frame holds the bytes, and no other byte of memory changed. -/
theorem finishCopy_of_alone {m : Migration} {f : PoolFrame} {s : State} (hm : s.tier.inProgress = [m]) (hf : frameOf s m.ashlar = some f)
    (halone : m.waiters = []) {bs : List Byte} (hbs : bs.length = ashlarSize) :
    let t := finishCopy m bs s
    memRead t.mem (frameAddr s f) ashlarSize = bs ∧
      (∀ x, x < frameAddr s f ∨ frameAddr s f + ashlarSize ≤ x → memGet t.mem x = memGet s.mem x) ∧ t.tier.inProgress = [] ∧
      (frameOf t m.ashlar).map (·.copying) = some false ∧ t.tier.migrations = (s.tier.migrations + 1) % 2 ^ 64 ∧ t.err = s.err := by
  intro t
  have ht : t = endMigration m true { rawWrite (frameAddr s f) bs s with
      tier := { (rawWrite (frameAddr s f) bs s).tier with migrations := wrapAdd 64 s.tier.migrations 1 } } := by
    simp only [t, finishCopy, hf, halone, serveWaiters_nil]
  rw [ht, ← hbs]
  exact ⟨memRead_memWrite .., fun x hx => memGet_memWrite_of_out _ _ _ hx, endMigration_only hm true, frameOf_endMigration hf, rfl, rfl⟩

/-- A copy that nothing refuses ends with the home's bytes. -/
theorem migrationComplete_of_served {a i : Nat} {o : TierObject} {m : Migration} {s : State} (hm : s.tier.inProgress = [m])
    (ha : m.ashlar = a) (hframe : m.frame.isNone = false) (hrepair : m.repair = []) (hobj : servingObject s a = some (i, o))
    (hcells : s.err.inj.cells = []) (hfiring : s.err.firing = none) (hserved : m.refused = false)
    (hstake : tierRefusal s false (homeAddr o a) ashlarSize true = none) (hwrite : frameRefused s a = false)
    (hmet : flashMet s (homeAddr o a) ashlarSize = false) (hpoison : poisonIn s (homeAddr o a) ashlarSize = false)
    (hkey : homeKey s o ≠ .gone) : migrationComplete a s = finishCopy m (homeBytes s (homeKey s o) (homeAddr o a) ashlarSize) s := by
  have hfind : (s.tier.inProgress.find? fun m => m.ashlar == a) = some m := by rw [hm]; simp [ha]
  simp only [migrationComplete, hfind, hframe, hrepair, List.isEmpty_nil, hobj, injectRead_of_unarmed hcells hfiring, hserved, hstake, hwrite,
    hmet, hpoison, Bool.not_true, Option.isSome_none, Bool.or_self, Bool.false_eq_true, if_false]

/-! ### Errors and repairs (R277–R280) -/

theorem poisonAt_of_nearOrBulk {pa : Nat} (h : regionOf pa = .near ∨ regionOf pa = .bulk) (s : State) :
    poisonAt pa s = { s with tier := { s.tier with poison := s.tier.poison.set false (pa / 512) true } } := by
  rcases h with h | h <;> simp only [poisonAt, h]

theorem failFlashRead_of_nearOrBulk {pa : Nat} (h : regionOf pa = .near ∨ regionOf pa = .bulk) (s : State) : failFlashRead pa s = s := by
  have hnot : ¬(regionOf pa = .flash ∧ (!s.tier.flashPoison.get false (pa / ashlarSize)) = true) := by
    rcases h with h | h <;> simp [h]
  rw [failFlashRead, if_neg hnot]

/-- Places of the near and bulk tiers poisoned: every one of them is, and nothing but the poison changed. -/
theorem foldl_poisonAt {ps : List Nat} (h : ∀ pa ∈ ps, regionOf pa = .near ∨ regionOf pa = .bulk) (s : State) :
    ∃ x, (ps.foldl (fun s a => poisonAt a s) s) = { s with tier := { s.tier with poison := x } } ∧
      (∀ c, s.tier.poison.get false c = true → x.get false c = true) ∧ ∀ pa ∈ ps, x.get false (pa / 512) = true := by
  induction ps generalizing s with
  | nil => exact ⟨s.tier.poison, rfl, fun _ hc => hc, fun _ hpa => nomatch hpa⟩
  | cons p ps ih =>
    have hset (c : Nat) : (s.tier.poison.set false (p / 512) true).get false c = if c = p / 512 then true else s.tier.poison.get false c := by
      by_cases hc : c = p / 512
      · rw [hc, Table.get_set_self, if_pos rfl]
      · rw [Table.get_set_ne _ _ _ hc, if_neg hc]
    obtain ⟨x, hx, hkeep, hall⟩ := ih (fun pa hpa => h pa (List.mem_cons_of_mem _ hpa))
      { s with tier := { s.tier with poison := s.tier.poison.set false (p / 512) true } }
    refine ⟨x, by rw [List.foldl_cons, poisonAt_of_nearOrBulk (h p List.mem_cons_self), hx], fun c hc => hkeep c ?_, fun pa hpa => ?_⟩
    · show (s.tier.poison.set false (p / 512) true).get false c = true
      rw [hset, hc, ite_self]
    · rcases List.mem_cons.mp hpa with rfl | hpa
      · refine hkeep _ ?_
        show (s.tier.poison.set false (pa / 512) true).get false (pa / 512) = true
        rw [hset, if_pos rfl]
      · exact hall pa hpa

/-- A repair of near and bulk places that fails: they are poisoned, and the record tells it. -/
theorem repairFailed_of_alone {a i : Nat} {o : TierObject} {m : Migration} {s : State} (hm : s.tier.inProgress = [m]) (ha : m.ashlar = a)
    (halone : m.waiters = []) (hobj : servingObject s a = some (i, o))
    (hplaces : ∀ pa ∈ m.repair, regionOf pa = .near ∨ regionOf pa = .bulk) :
    let t := repairFailed m s
    (∀ pa ∈ m.repair, t.tier.poison.get false (pa / 512) = true) ∧ t.tier.inProgress = [] ∧
      (queueFull s.err = false → (recordAt t.err s.err.written).code = 0x4304) ∧ t.mem = s.mem := by
  subst ha
  obtain ⟨x, hx, -, hall⟩ := foldl_poisonAt hplaces s
  intro t
  obtain ⟨e, v, ht, hsource, hcode, hv⟩ : ∃ e v, t = report e v ∧ e.source = srcModule s ∧ e.code = 0x4304 ∧
      v = endMigration m false { s with tier := { s.tier with poison := x, repairFailed := satAdd 32 s.tier.repairFailed 1 } } := by
    refine ⟨{ code := 0x4304, source := srcModule s, address := BitVec.ofNat 64 (m.repair.headD 0), context := BitVec.ofNat 16 o.context,
              detail0 := BitVec.ofNat 64 (replicaHandle o m.ashlar) }, _, ?_, rfl, rfl, rfl⟩
    simp only [t, repairFailed, hobj, hx, failMigration_of_alone halone]
  have htier : v.tier.poison = x ∧ v.tier.inProgress = [] := by
    rw [hv]
    exact ⟨rfl, endMigration_only hm false⟩
  obtain ⟨herr, hsrc, hmem⟩ : v.err = s.err ∧ srcModule v = srcModule s ∧ v.mem = s.mem := by
    rw [hv]
    exact ⟨rfl, rfl, rfl⟩
  rw [ht, report_tier, report_mem, htier.1, htier.2, hmem]
  refine ⟨hall, rfl, fun hroom => ?_, rfl⟩
  have hcls : classOf e.code ≠ .corrected := by rw [hcode]; decide
  obtain ⟨hrecord, -, -⟩ := report_module_fields (hsource.trans hsrc.symm) (herr ▸ hroom) (fun hc => absurd hc hcls)
  rw [← herr, hrecord, hcode]

/-- The bytes of a replica that arrive for a home of the bulk tier: they are its bytes, and no other byte of memory changed. -/
theorem replicaArrival_of_bulk {a i : Nat} {o : TierObject} {m : Migration} {bs : List Byte} {s : State} (hm : s.tier.inProgress = [m])
    (ha : m.ashlar = a) (halone : m.waiters = []) (hobj : servingObject s a = some (i, o)) (hrepair : m.repair ≠ []) (hframe : m.frame = none)
    (hbs : bs.length = ashlarSize) (hkey : homeKey s o = .plain) (hregion : regionOf (homeAddr o a) = .bulk)
    (hstake : tierRefusal s true (homeAddr o a) ashlarSize true = none) (hwrite : frameRefused s a = false) :
    let t := replicaArrival a bs s
    memRead t.mem (homeAddr o a) ashlarSize = bs ∧
      (∀ x, x < homeAddr o a ∨ homeAddr o a + ashlarSize ≤ x → memGet t.mem x = memGet s.mem x) ∧ t.tier.inProgress = [] ∧
      t.tier.repaired = min (s.tier.repaired + 1) (2 ^ 32 - 1) ∧
      (queueFull s.err = false → UnderRate 0x4303 (srcModule s) s → (recordAt t.err s.err.written).code = 0x4303) := by
  intro t
  have hfind : (s.tier.inProgress.find? fun m => m.ashlar == a) = some m := by rw [hm]; simp [ha]
  have hnotFlash : regionOf (homeAddr o a) ≠ .flash := by rw [hregion]; decide
  have hempty : (m.repair.isEmpty || bs.length != ashlarSize) = false := by
    rw [hbs, List.isEmpty_eq_false_iff.mpr hrepair]
    rfl
  obtain ⟨e, v, ht, hsource, hcode, hv⟩ : ∃ e v, t = report e v ∧ e.source = srcModule s ∧ e.code = 0x4303 ∧
      v = endMigration m true { rawWrite (homeAddr o a) bs s with
        tier := { (rawWrite (homeAddr o a) bs s).tier with repaired := satAdd 32 s.tier.repaired 1 } } := by
    refine ⟨{ code := 0x4303, source := srcModule s, address := BitVec.ofNat 64 (homeAddr o a), context := BitVec.ofNat 16 o.context }, _,
      ?_, rfl, rfl, rfl⟩
    simp only [t, replicaArrival, hfind, hempty, hobj, hstake, hwrite, hkey, if_neg hnotFlash, hframe, halone, serveWaiters_nil, homeStore,
      Option.isSome_none, Bool.or_self, Bool.false_eq_true, if_false]
    rfl
  have htier : v.tier.inProgress = [] ∧ v.tier.repaired = min (s.tier.repaired + 1) (2 ^ 32 - 1) := by
    rw [hv]
    exact ⟨endMigration_only hm true, rfl⟩
  have hrest : v.err = s.err ∧ v.now = s.now ∧ srcModule v = srcModule s ∧ v.mem = memWrite s.mem (homeAddr o a) bs := by
    rw [hv]
    exact ⟨rfl, rfl, rfl, rfl⟩
  obtain ⟨herr, hnow, hsrc, hmem⟩ := hrest
  rw [ht, report_tier, report_mem, htier.1, htier.2, hmem, ← hbs]
  refine ⟨memRead_memWrite .., fun x hx => memGet_memWrite_of_out _ _ _ hx, rfl, rfl, fun hroom hrate => ?_⟩
  have hrate' : UnderRate 0x4303 (srcModule v) v := by
    rw [hsrc, underRate_congr hnow (congrArg ErrBlock.suppressed herr)]
    exact hrate
  obtain ⟨hrecord, -, -⟩ := report_module_fields (hsource.trans hsrc.symm) (herr ▸ hroom) (fun _ => hcode ▸ hrate')
  rw [← herr, hrecord, hcode]

/-! ### Registers (R268, R271, R283) -/

theorem objectOf_updObject (i j : Nat) (f : TierObject → TierObject) (s : State) :
    objectOf (updObject i f s) j = if j = i then f (objectOf s i) else objectOf s j := by
  by_cases h : j = i
  · rw [h, if_pos rfl]
    exact (Table.get_update ..).trans (if_pos rfl)
  · rw [if_neg h]
    exact (Table.get_update ..).trans (if_neg h)

theorem tierRefusal_congr {s t : State} (h : t.stakes = s.stakes) (write : Bool) (pa n : Nat) (accepted : Bool) :
    tierRefusal t write pa n accepted = tierRefusal s write pa n accepted := by
  simp only [tierRefusal, stakeRefusalIn, stakeRefusal, stakeAt, isSealed, sealedContext, h]

/-- A piece of a range zeroed where its stake serves the tier directory. -/
def zeroPiece (s : State) (p : Nat × Nat) : State := match tierRefusal s true p.1 p.2 true with
  | some c => reportModule c s p.1 0 0 0 0xFFF1
  | none => zeroRange p.1 p.2 s

theorem zeroServed_eq (pa n : Nat) (s : State) : zeroServed pa n s = (piecesOf stakeSize pa n).foldl zeroPiece s := rfl

/-- What a drain goes by: the objects, their copies, and the stakes. -/
def directory (s : State) : Table TierObject × List PoolFrame × List (Waiter × Nat) × StakeBlock :=
  (s.tier.objects, s.tier.frames, s.tier.admitted, s.stakes)

theorem directory_zeroServed (pa n : Nat) (s : State) : directory (zeroServed pa n s) = directory s := by
  rw [zeroServed_eq]
  refine List.foldlRecOn (motive := fun t => directory t = directory s) _ _ rfl fun t ht p _ => ?_
  unfold zeroPiece
  split
  · rw [directory, reportModule, report_tier, report_stakes, ← directory, ht]
  · exact ht

theorem directory_foldl_zeroServed {α : Type} (l : List α) (pa : State → α → Nat) (n : Nat) (s : State) :
    directory (l.foldl (fun s x => zeroServed (pa s x) n s) s) = directory s :=
  List.foldlRecOn (motive := fun t => directory t = directory s) _ _ rfl fun _ ht _ _ => (directory_zeroServed ..).trans ht

/-- A range whose stakes serve the tier directory reads zero once it has been zeroed. -/
theorem memGet_zeroServed {pa n a : Nat} {s : State} (h : ∀ p ∈ piecesOf stakeSize pa n, tierRefusal s true p.1 p.2 true = none)
    (hlow : pa ≤ a) (hhigh : a < pa + n) : memGet (zeroServed pa n s).mem a = 0 := by
  have hall := foldl_pieces (pa := pa) (n := n) (by decide : 0 < stakeSize) zeroPiece
    (fun k u => u.stakes = s.stakes ∧ ∀ b, pa ≤ b → b < pa + k → memGet u.mem b = 0)
    (x := s) ⟨rfl, fun b hb hb' => by omega⟩ (fun k l _ _ hp ht => by
      obtain ⟨hstakes, hzero⟩ := ht
      have hnone : tierRefusal _ true (pa + k) l true = none := (tierRefusal_congr hstakes ..).trans (h _ hp)
      simp only [zeroPiece, hnone]
      refine ⟨hstakes, fun b hb hb' => ?_⟩
      rw [zeroRange_mem, memGet_memZero]
      split
      · rfl
      · exact hzero b hb (by omega))
  rw [zeroServed_eq]
  exact hall.2 a hlow hhigh

section Drain

variable {i : Nat} {s : State}

/-- The copies and a near home zeroed, where the object's context was sealed. -/
def drainZeroed (o : TierObject) (s : State) : State :=
  if o.zeroes then
    let s0 := (s.tier.frames.filter fun f => o.holds f.ashlar).foldl (fun s f => zeroServed (frameAddr s f) ashlarSize s) s
    if regionOf o.homeBase = .near then zeroServed o.homeBase (o.granules * stakeSize) s0 else s0
  else s

theorem directory_drainZeroed (o : TierObject) (s : State) : directory (drainZeroed o s) = directory s := by
  unfold drainZeroed
  split
  · dsimp only
    split
    · rw [directory_zeroServed]
      exact directory_foldl_zeroServed ..
    · exact directory_foldl_zeroServed ..
  · rfl

theorem memGet_drainZeroed {o : TierObject} {a : Nat} (hzero : o.zeroes = true) (hregion : regionOf o.homeBase = .near)
    (h : ∀ p ∈ piecesOf stakeSize o.homeBase (o.granules * stakeSize), tierRefusal s true p.1 p.2 true = none) (hlow : o.homeBase ≤ a)
    (hhigh : a < o.homeBase + o.granules * stakeSize) : memGet (drainZeroed o s).mem a = 0 := by
  rw [drainZeroed, if_pos hzero, if_pos hregion]
  refine memGet_zeroServed (fun p hp => ?_) hlow hhigh
  have hstakes := congrArg (fun d => d.2.2.2) (directory_foldl_zeroServed (s.tier.frames.filter fun f => o.holds f.ashlar) frameAddr ashlarSize s)
  exact (tierRefusal_congr hstakes ..).trans (h p hp)

theorem objectDrainDone_of_over (hbusy : (objectOf s i).busy = true)
    (hprogress : (s.tier.inProgress.all fun m => !(objectOf s i).holds m.ashlar) = true)
    (hadmitted : (s.tier.admitted.all fun x => !((objectOf s i).holds x.2 && stillWaits s x.1)) = true) :
    objectDrainDone i s = updObject i (fun o => { o with busy := false, zeroes := false })
      { drainZeroed (objectOf s i) s with tier := { (drainZeroed (objectOf s i) s).tier with
        frames := (drainZeroed (objectOf s i) s).tier.frames.filter fun f => !(objectOf s i).holds f.ashlar
        admitted := (drainZeroed (objectOf s i) s).tier.admitted.filter fun x => !(objectOf s i).holds x.2 } } := by
  have hgo : (!(objectOf s i).busy || (s.tier.inProgress.any fun m => (objectOf s i).holds m.ashlar) ||
      (s.tier.admitted.any fun x => (objectOf s i).holds x.2 && stillWaits s x.1)) = false := by
    rw [hbusy, List.any_eq_not_all_not, hprogress, List.any_eq_not_all_not, hadmitted]
    rfl
  simp only [objectDrainDone, hgo, Bool.false_eq_true, if_false]
  rfl

end Drain

/-- A valid object is drained by a VALID of 0. -/
theorem objPolicyWrite_of_valid {i v : Nat} {s : State} (hbusy : (objectOf s i).busy = false) (hvalid : (objectOf s i).valid = true)
    (hv : bitOf v 63 = false) : objPolicyWrite i v s =
      updObject i (fun o => { o with valid := false, busy := true, failed := false, zeroes := isSealed s o.context }) s := by
  simp only [objPolicyWrite, hbusy, hvalid, hv, Bool.false_eq_true, if_false, if_true]

/-- An object with the settings of a write of OBJ_POLICY. -/
def TierObject.policed (v : Nat) (o : TierObject) : TierObject := { o with
  granules := bitsOf v 57 32, context := bitsOf v 31 16, replicated := bitOf v 11, writable := bitOf v 10
  affinity := bitsOf v 9 7, policy := bitsOf v 2 0, failed := false }

theorem objPolicyWrite_of_good {i v : Nat} {s : State} (hbusy : (objectOf s i).busy = false) (hvalid : (objectOf s i).valid = false)
    (hv : bitOf v 63 = true) (h : objectCheck s i ((objectOf s i).policed v) = none) :
    objPolicyWrite i v s = updObject i (fun _ => { (objectOf s i).policed v with valid := true }) s := by
  rw [TierObject.policed] at h ⊢
  simp only [objPolicyWrite]
  rw [if_neg (by simp [hbusy]), if_neg (by simp [hvalid]), if_neg (by simp [hv]), h]

theorem objPolicyWrite_of_bad {i v e : Nat} {s : State} (hbusy : (objectOf s i).busy = false) (hvalid : (objectOf s i).valid = false)
    (hv : bitOf v 63 = true) (h : objectCheck s i ((objectOf s i).policed v) = some e) : objPolicyWrite i v s =
      let s1 := updObject i (fun _ => (objectOf s i).policed v) s
      { s1 with tier := { s1.tier with objErr := e } } := by
  rw [TierObject.policed] at h ⊢
  simp only [objPolicyWrite]
  rw [if_neg (by simp [hbusy]), if_neg (by simp [hvalid]), if_neg (by simp [hv]), h]

/-- TIER_CTL with another REPLICA_TIMEOUT_US. -/
def replicaTimed (us : Nat) (s : State) : State := { s with tier := { s.tier with
  replicaTimeoutUs := if 100 ≤ us ∧ us ≤ 1000000 then us else s.tier.replicaTimeoutUs } }

theorem tierCtlWrite_eq (v : Nat) (s : State) : tierCtlWrite v s =
    if !bitOf v 0 || s.tier.enable then replicaTimed (bitsOf v 63 32) s
    else if (List.range 4).all (poolGood s) then
      { s with tier := { (replicaTimed (bitsOf v 63 32) s).tier with enable := true, cfgErr := false } }
    else { s with tier := { (replicaTimed (bitsOf v 63 32) s).tier with cfgErr := true } } := by
  by_cases h : 100 ≤ bitsOf v 63 32 ∧ bitsOf v 63 32 ≤ 1000000
  · simp only [tierCtlWrite, replicaTimed, if_pos h]
    rfl
  · simp only [tierCtlWrite, replicaTimed, if_neg h]

/-- Settles O45: each event of the tier directory by the case it meets, with what that leaves; the registers by their writes. -/
theorem tierCopiesAndRegisters : Obligations.TierCopiesAndRegisters := by
  unfold Obligations.TierCopiesAndRegisters
  refine ⟨⟨?_, ?_, ?_, ?_, ?_⟩, fun i v s hin hi => ⟨⟨?_, ?_⟩, ?_, ?_, ?_, rfl⟩⟩
  · intro offset i o s a hon hin hnone hobj hframe hhome hgood
    obtain ⟨m, hm, ha, hw, hmem, herr, hcopying⟩ := beginMigration_fresh (o := o) (a := a) hnone
    exact ⟨_, m, congrArg Host.Outcome.next (migration_of_miss rfl hon hin hnone hobj hframe hhome hgood), hm, ha, hw, hmem, herr, hcopying⟩
  · intro a i o f m s hm ha hframe hrepair halone hobj hf hcells hfiring hserved hstake hwrite hmet hpoison hkey
    subst ha
    obtain ⟨hread, hrest, hnone, hcopying, hcount, herr⟩ :=
      finishCopy_of_alone hm hf halone (length_homeBytes_any s (homeKey s o) (homeAddr o m.ashlar) ashlarSize)
    refine ⟨_, congrArg Host.Outcome.next (migrationComplete_of_served hm rfl (by rw [hframe]; rfl) hrepair hobj hcells hfiring hserved
      hstake hwrite hmet hpoison hkey), hread, fun hplain hregion => ?_, hrest, hnone, hcopying, hcount, herr⟩
    rw [hread, hplain, homeBytes, if_neg hregion, rawRead]
  · intro pa s htier hin
    show Host.Outcome.next (if (inTier pa && inService s) = true then _ else s) = _
    rw [htier, hin]
    rfl
  · intro pa s hregion hin hframe hobj
    have htier : (!inTier pa || !inService s) = false := by
      rw [hin, inTier]
      rcases hregion with h | h <;> rw [h] <;> rfl
    refine congrArg Host.Outcome.next ?_
    simp only [uncorrectableRead, htier, hframe, hobj, Bool.false_eq_true, if_false, failFlashRead_of_nearOrBulk hregion,
      poisonAt_of_nearOrBulk hregion]
  · intro a i o m bs s hm ha halone hobj
    have hfind : (s.tier.inProgress.find? fun m => m.ashlar == a) = some m := by rw [hm]; simp [ha]
    constructor
    · intro hrepair _ hplaces
      obtain ⟨hpoison, hnone, hcode, hmem⟩ := repairFailed_of_alone hm ha halone hobj hplaces
      refine ⟨_, congrArg Host.Outcome.next (?_ : replicaTimeout a s = repairFailed m s), hpoison, hnone, fun _ => hcode, hmem⟩
      simp only [replicaTimeout, hfind, List.isEmpty_eq_false_iff.mpr hrepair, Bool.false_eq_true, if_false]
    · intro hrepair hframe hbs hkey hregion hstake hwrite
      obtain ⟨hread, hrest, hnone, hcount, hcode⟩ :=
        replicaArrival_of_bulk hm ha halone hobj hrepair hframe hbs hkey hregion hstake hwrite
      exact ⟨_, rfl, hread, hrest, hnone, hcount, fun _ => hcode⟩
  · intro hv hoff
    have hb : (!bitOf v.toNat 0 || s.tier.enable) = false := by rw [← getLsbD_eq_bitOf, hv, hoff]; rfl
    show Host.Outcome.next (if inService s = true then tierCtlWrite v.toNat s else s) = _
    rw [if_pos hin, tierCtlWrite_eq, hb, if_neg Bool.false_ne_true]
    rfl
  · intro h
    have hb : (!bitOf v.toNat 0 || s.tier.enable) = true := by
      rw [← getLsbD_eq_bitOf]
      rcases h with h | h <;> rw [h]
      · rfl
      · exact Bool.or_true _
    show Host.Outcome.next (if inService s = true then tierCtlWrite v.toNat s else s) = _
    rw [if_pos hin, tierCtlWrite_eq, hb, if_pos rfl]
    rfl
  · intro hv hbusy hvalid
    have hb : bitOf v.toNat 63 = true := getLsbD_eq_bitOf v 63 ▸ hv
    have hexec : exec (.objectValidate i v) s = .next (objPolicyWrite i v.toNat s) := congrArg Host.Outcome.next (if_pos ⟨hi, hin, hv⟩)
    cases hcheck : objectCheck s i ((objectOf s i).policed v.toNat) with
    | none =>
      refine ⟨_, hexec.trans (congrArg Host.Outcome.next (objPolicyWrite_of_good hbusy hvalid hb hcheck)), fun _ => ⟨?_, rfl⟩, fun e he => ?_,
        fun j hj => ?_, rfl⟩
      · exact (objectOf_updObject ..).trans (if_pos rfl)
      · exact nomatch hcheck.symm.trans he
      · exact (objectOf_updObject ..).trans (if_neg hj)
    | some e =>
      refine ⟨_, hexec.trans (congrArg Host.Outcome.next (objPolicyWrite_of_bad hbusy hvalid hb hcheck)), fun h => ?_, fun x hx => ⟨?_, ?_⟩,
        fun j hj => ?_, rfl⟩
      · exact nomatch hcheck.symm.trans h
      · exact (objectOf_updObject ..).trans (if_pos rfl)
      · exact Option.some.inj (hcheck.symm.trans hx)
      · exact (objectOf_updObject ..).trans (if_neg hj)
  · intro hv hbusy hvalid
    have hexec : exec (.objectDrain i v) s = .next (objPolicyWrite i v.toNat s) :=
      congrArg Host.Outcome.next (if_pos ⟨hi, hin, by rw [hv]; rfl⟩)
    exact ⟨_, hexec.trans (congrArg Host.Outcome.next (objPolicyWrite_of_valid hbusy hvalid (getLsbD_eq_bitOf v 63 ▸ hv))),
      (objectOf_updObject ..).trans (if_pos rfl), fun j hj => (objectOf_updObject ..).trans (if_neg hj), rfl⟩
  · intro hbusy hprogress hadmitted
    have hdir := directory_drainZeroed (objectOf s i) s
    have hobjects : (drainZeroed (objectOf s i) s).tier.objects = s.tier.objects := congrArg Prod.fst hdir
    have hframes : (drainZeroed (objectOf s i) s).tier.frames = s.tier.frames := congrArg (fun d => d.2.1) hdir
    refine ⟨_, congrArg Host.Outcome.next (objectDrainDone_of_over hbusy hprogress hadmitted), ?_, fun f hf => ?_, fun f hf hout => ?_,
      fun hz => ?_, fun hz hregion hserved a hlow hhigh => memGet_drainZeroed hz hregion hserved hlow hhigh⟩
    · rw [objectOf_updObject, if_pos rfl, objectOf]
      simp only [hobjects]
      rw [← objectOf]
    · exact by simpa using (List.mem_filter.mp hf).2
    · refine List.mem_filter.mpr ⟨hframes ▸ hf, by rw [hout]; rfl⟩
    · show (drainZeroed (objectOf s i) s).mem = s.mem
      rw [drainZeroed, hz]
      rfl

end Sys2Proof.Machine
end

