-- ==== Sys2Proof/Proofs/StruckRetrain.lean ====
section
/-!
PROOFS. Proofs/StruckRetrain.lean: the retraining of the last port that is UP, where a repair over it fails for a hart whose combined store
is where an injected 0x9303 fires while a fatal error is being handled: the module escalates to a warm reset, and the port does not train
(R89, R280, R386, R457, R465, R466).
-/

namespace Sys2Proof.Machine

/-- A hart that waits for a migration, with a store combined for a codeword of the bulk tier. -/
def strandedHart : Hart :=
  { waiting := .migration false [] 1 false, combined := [{ codeword := bulkBase / 512, bytes := [(0, 1)], since := 0 }] }

/-- An object whose replica module 1 holds. -/
def farObject : TierObject :=
  { valid := true, homeBase := bulkBase, granules := 1, replicated := true, replica := BitVec.ofNat 64 (2 ^ 48) }

/-- A running module whose port 0 alone is UP. Hart 0 waits for the repair of an ashlar from module 1; a fatal error is being handled, and
0x9303 is armed for the next read of the stake table. -/
def struckRepair : State := { State.reset with
  life := { State.reset.life with power := .running }
  fabric := { State.reset.fabric with ports := State.reset.fabric.ports.set {} 0 { state := .up, peer := 1 } }
  tier := { State.reset.tier with
    inProgress := [{ ashlar := 0, frame := none, repair := [bulkBase], waiters := [.hart 0] }]
    objects := State.reset.tier.objects.set {} 0 farObject }
  landing := { State.reset.landing with harts := State.reset.landing.harts.set {} 0 strandedHart }
  err := { State.reset.err with
    fatalActive := true
    inj := State.reset.err.inj.set {} 0 { code := 0x9303, count := 1, state := .armed } } }

theorem mgmtServes_struckRepair : MgmtServes struckRepair := ⟨rfl, rfl, rfl, rfl⟩

theorem portOf_struckRepair : (portOf struckRepair 0).state = .up := by decide

/-- The port leaves, its module is cut off, the repair and its hart's load fail, and the hart's combined store reads the stake table. -/
theorem portOf_retrain_struckRepair : (portOf (beginRetrainPort .port 0 0 0 (noted struckRepair)) 0).state = .disabled := by
  decide +kernel

/-- Refutes O56: RETRAIN of the last port that is UP ends the repairs that went over it, and a hart that waited for one sends what it has
combined. Nothing keeps an injection point of the stake table's reads from being armed, nor a fatal error from being handled: 0x9303 then
escalates to a module warm reset, and the port that was to train is off. -/
theorem not_requestsQueueAndComplete : ¬ Obligations.RequestsQueueAndComplete := by
  unfold Obligations.RequestsQueueAndComplete
  rintro ⟨-, -, -, hretrain, -⟩
  obtain ⟨hport, -⟩ := hretrain 0 struckRepair mgmtServes_struckRepair
  obtain ⟨t, l, hexec, htraining, -⟩ := hport (by decide) (by rw [portOf_struckRepair]; decide) (by rw [portOf_struckRepair]; decide)
  have ht : beginRetrainPort .port 0 0 0 (noted struckRepair) = t :=
    (vendorGated_of_serves mgmtServes_struckRepair ..).symm.trans (Host.Outcome.next.inj hexec)
  rw [← ht, portOf_retrain_struckRepair] at htraining
  exact absurd htraining (by decide)

end Sys2Proof.Machine
end

