-- ==== Sys2Proof/Proofs/DeckSequences.lean ====
section
/-!
PROOFS. Proofs/DeckSequences.lean: the operations of DECK tasks on sequences, and their result records (R201, R206, R209, R210, R214, R221).
-/

namespace Sys2Proof.Machine

/-! ### Deck units, their entries, and bytes -/

theorem deckOf_updDeck (g k : Nat) (f : DeckUnit → DeckUnit) (s : State) :
    deckOf (updDeck g f s) k = if k = g then f (deckOf s g) else deckOf s k := by
  by_cases h : k = g
  · rw [h, if_pos rfl]
    exact (Table.get_update ..).trans (if_pos rfl)
  · rw [if_neg h]
    exact (Table.get_update ..).trans (if_neg h)

@[simp] theorem deckOf_updDeck_self (g : Nat) (f : DeckUnit → DeckUnit) (s : State) : deckOf (updDeck g f s) g = f (deckOf s g) := by
  rw [deckOf_updDeck, if_pos rfl]

theorem seqOf_updSeq (i k : Nat) (f : SeqEntry → SeqEntry) (u : DeckUnit) :
    seqOf (updSeq i f u) k = if k = i then f (seqOf u i) else seqOf u k := by
  by_cases h : k = i
  · rw [h, if_pos rfl]
    exact (Table.get_update ..).trans (if_pos rfl)
  · rw [if_neg h]
    exact (Table.get_update ..).trans (if_neg h)

@[simp] theorem seqOf_updSeq_self (i : Nat) (f : SeqEntry → SeqEntry) (u : DeckUnit) : seqOf (updSeq i f u) i = f (seqOf u i) := by
  rw [seqOf_updSeq, if_pos rfl]

theorem seqOf_updSeq_ne {i k : Nat} (h : k ≠ i) (f : SeqEntry → SeqEntry) (u : DeckUnit) : seqOf (updSeq i f u) k = seqOf u k := by
  rw [seqOf_updSeq, if_neg h]

theorem bytesOfNat_natOfBytes (bs : List Byte) : bytesOfNat bs.length (natOfBytes bs) = bs := by
  induction bs with
  | nil => rfl
  | cons b bs ih =>
    have hlow : BitVec.ofNat 8 (b.toNat + 256 * natOfBytes bs) = b := by
      apply BitVec.eq_of_toNat_eq
      rw [BitVec.toNat_ofNat]
      have := b.isLt
      omega
    have hhigh : (b.toNat + 256 * natOfBytes bs) / 256 = natOfBytes bs := by
      have := b.isLt
      omega
    rw [List.length_cons, natOfBytes, bytesOfNat, hlow, hhigh, ih]

theorem length_resultRecord (h : Nat) (e : SeqEntry) (word : Nat) : (resultRecord h e word).length = 16 := by
  simp [resultRecord, length_bytesOfNat]

theorem length_seqBytes (e : SeqEntry) : (seqBytes e).length = 64 := by
  simp [seqBytes, length_bytesOfNat, List.length_flatMap]

theorem length_failedRecord (s : State) (d : DeckDesc) : (failedRecord s d).length = 16 := by
  simp only [failedRecord]
  split
  · exact length_bytesOfNat ..
  · exact length_resultRecord ..

theorem handleGrove_handleOf {g slot : Nat} (hg : g < 4) (hslot : slot < 16384) (gen : Nat) : handleGrove (handleOf g slot gen) = g := by
  rw [handleGrove, handleOf]
  omega

theorem handleSlot_handleOf {slot : Nat} (hslot : slot < 16384) (g gen : Nat) : handleSlot (handleOf g slot gen) = slot := by
  rw [handleSlot, handleOf]
  omega

theorem freeSlotOf_spec {u : DeckUnit} {j : Nat} (h : freeSlotOf u = some j) : j < 16384 ∧ (seqOf u j).state = .free := by
  unfold freeSlotOf at h
  have hstate := List.find?_some h
  exact ⟨List.mem_range.mp (List.mem_of_find?_eq_some h), of_decide_eq_true hstate⟩

/-! ### A write of a result in scratch -/

theorem fieldWrite_of_scratch {q : Requester} {a n : Nat} {bs : List Byte} (hin : InScratch a n) (hlen : bs.length = n) (hn : 0 < n)
    (s : State) : fieldWrite q a bs s = (.done (), scratchWrite q.bench (addrOffset a) bs s) := by
  have hsome : bs.isEmpty = false := List.isEmpty_eq_false_iff.mpr (List.ne_nil_of_length_pos (hlen ▸ hn))
  have hscratch : addrScratch a = true := (hin 0 hn).1
  simp only [fieldWrite, hsome, hscratch, Bool.false_eq_true, if_false, if_true]

/-- The result record of an operation, where it has one, and nothing else of scratch, once it stands there. -/
theorem resultIn_of_written {d : DeckDesc} {n : Nat} {rec : List Byte} {s u : State}
    (hu : u.scratch = if hasResult d then memWrite s.scratch (n * scratchSize + addrOffset d.result) rec else s.scratch) :
    ResultIn d n rec s u := by
  refine ⟨fun hno => ?_, fun hyes => ?_⟩
  · rw [hu, hno, if_neg Bool.false_ne_true]
  · rw [hyes, if_pos rfl] at hu
    rw [scratchRead, hu]
    exact ⟨memRead_memWrite .., fun a ha => memGet_memWrite_of_out _ _ _ ha⟩

/-- A state with a result record in scratch, where there is one to write. -/
def withRecord (d : DeckDesc) (n : Nat) (rec : List Byte) (s : State) : State :=
  if hasResult d then scratchWrite n (addrOffset d.result) rec s else s

theorem withRecord_shape (d : DeckDesc) (n : Nat) (rec : List Byte) (s : State) :
    withRecord d n rec s = { s with scratch := (withRecord d n rec s).scratch } := by
  unfold withRecord
  split <;> rfl

theorem resultIn_withRecord {d : DeckDesc} {n : Nat} {rec : List Byte} {s u v : State} (hv : v.scratch = s.scratch)
    (hu : u.scratch = (withRecord d n rec v).scratch) : ResultIn d n rec s u := by
  refine resultIn_of_written (hu.trans ?_)
  unfold withRecord
  split
  · rw [scratchWrite_scratch, hv]
  · exact hv

/-! ### An operation that reaches its Deck unit (R209, R222) -/

section Operations

variable {op : DeckOp} {f : Task → DeckDesc → State → DeckEffect} {t : Task} {d : DeckDesc} {n : Nat} {s : State}

theorem deckStep_of_works (h : DeckWorks op t d n s) : deckStep op f t.ring t.seq s = runDeck f t d n s := by
  obtain ⟨hfind, hbody, hop, hbench, hphase, hblocked, hstopping, hdone, -, -, hdemand, -, hheld, hrows⟩ := h
  have hrows' : (deckWritesRows d && rowsHeld s t n) = false := by
    cases hw : deckWritesRows d with
    | false => rfl
    | true => exact hrows hw
  have hnot : ¬(d.op = op ∧ t.phase = .staged) := by simp [hphase]
  rw [hbody] at hheld
  simp only [deckStep, hfind, hbody, if_neg hnot, hbench]
  rw [if_pos (by simp [hop, Task.running, hphase, hblocked, hstopping, hdone, hdemand, hheld, hrows'])]

/-- The record of an operation by its effect. -/
def effectRecord (d : DeckDesc) (e : SeqEntry) (h word : Nat) : List Byte := if d.op = .query then seqBytes e else resultRecord h e word

theorem length_effectRecord (d : DeckDesc) (e : SeqEntry) (h word : Nat) :
    (effectRecord d e h word).length = if d.op = .query then 64 else 16 := by
  unfold effectRecord
  split
  · exact length_seqBytes e
  · exact length_resultRecord ..

/-- The state of an operation that has taken effect: it is counted, and its task keeps its record. -/
def begunDeck (t : Task) (d : DeckDesc) (rec : List Byte) (u : State) : State :=
  updTask t.ring t.seq (fun t => { t with snapshot := some (natOfBytes rec) }) (countDeckOp (homeOf t d) u)

/-- The record of an operation whose effect is a state, a handle and the last word. -/
abbrev deckRecord (d : DeckDesc) (u : State) (h word : Nat) : List Byte :=
  effectRecord d (seqOf (deckOf u (handleGrove h)) (handleSlot h)) h word

theorem runDeck_of_ok (h : DeckWorks op t d n s) (hgood : deckRefusal s t d = none) {u : State} {hdl word : Nat}
    (hf : f t d s = .ok (u, hdl, word)) {t1 : Task} (hfind : findTask (begunDeck t d (deckRecord d u hdl word) u) t.ring t.seq = some t1) :
    runDeck f t d n s = afterEffect t1 d n (natOfBytes (deckRecord d u hdl word)) (begunDeck t d (deckRecord d u hdl word) u) := by
  obtain ⟨-, -, -, -, -, -, -, -, hends, hsnapshot, -, hbusy, -, -⟩ := h
  rw [begunDeck, deckRecord, effectRecord] at hfind ⊢
  simp only [runDeck, hsnapshot, hends, hbusy, hgood, hf, Bool.false_eq_true, if_false, hfind]

theorem afterEffect_of_plain (hw : d.op ≠ .write) (hr : d.op ≠ .read) (rec : Nat) (v : State) :
    afterEffect t d n rec v = deckResult t d n (if d.op = .query then 64 else 16) rec v := by
  have hnot : ¬((d.op = .write ∨ d.op = .read) ∧ t.ends.isNone) := by simp [hw, hr]
  simp only [afterEffect, if_neg hnot, moveRows]

/-- What an operation keeps for the end of its task: a task with the same place, context and bench, that has met nothing. -/
structure SameWork (t t1 : Task) : Prop where
  ring : t1.ring = t.ring
  seq : t1.seq = t.seq
  requester : ∀ n, moveRequester t1 n = moveRequester t n
  ends : t1.ends = none

theorem deckResult_of_absent {t1 : Task} (h : SameWork t t1) (hno : hasResult d = false) (bytes rec : Nat) (v : State) :
    deckResult t1 d n bytes rec v = markWorkDone t.ring t.seq v := by
  simp only [deckResult, hno, Bool.not_false, if_true, h.ends, h.ring, h.seq]

theorem deckResult_of_written {t1 : Task} (h : SameWork t t1) (hyes : hasResult d = true) {bytes rec : Nat} {v w : State}
    (hwrite : fieldWrite (moveRequester t n) d.result (bytesOfNat bytes rec) v = (.done (), w)) :
    deckResult t1 d n bytes rec v = markWorkDone t.ring t.seq w := by
  simp only [deckResult, hyes, Bool.not_true, Bool.false_eq_true, if_false, h.requester, hwrite, h.ends, h.ring, h.seq]

/-- What an effect leaves of the tasks: its own, which may have extended a sequence, and every other. -/
structure KeepsTasks (t : Task) (s u : State) : Prop where
  own : ∃ xs, findTask u t.ring t.seq = some { t with extended := xs }
  others : ∀ x ∈ s.tasks, x.is t.ring t.seq = false → x ∈ u.tasks

theorem findTask_begunDeck {u : State} {xs : List Nat} (h : findTask u t.ring t.seq = some { t with extended := xs }) (rec : List Byte) :
    findTask (begunDeck t d rec u) t.ring t.seq = some { t with extended := xs, snapshot := some (natOfBytes rec) } := by
  refine (findTask_updTask_self (by intro _; rfl) (countDeckOp (homeOf t d) u)).trans ?_
  show Option.map _ (findTask u t.ring t.seq) = _
  rw [h]
  rfl

/-- An operation with an effect, to the end of its task: its record is written, and its work is done. -/
theorem deckStep_of_ok (hruns : DeckRuns op t d n s) (hw : op ≠ .write) (hr : op ≠ .read) {u : State} {hdl word : Nat}
    (hf : f t d s = .ok (u, hdl, word)) (htasks : KeepsTasks t s u) :
    (hasResult d = false → deckStep op f t.ring t.seq s = markWorkDone t.ring t.seq (begunDeck t d (deckRecord d u hdl word) u)) ∧
    (hasResult d = true → ∀ w, fieldWrite (moveRequester t n) d.result (deckRecord d u hdl word) (begunDeck t d (deckRecord d u hdl word) u) =
        (.done (), w) → deckStep op f t.ring t.seq s = markWorkDone t.ring t.seq w) := by
  obtain ⟨hworks, hgood⟩ := hruns
  obtain ⟨xs, hown⟩ := htasks.own
  have hop : d.op = op := hworks.2.2.1
  have hends : t.ends = none := by
    obtain ⟨-, -, -, -, -, -, -, -, hends, -⟩ := hworks
    exact hends
  have hsame : SameWork t { t with extended := xs, snapshot := some (natOfBytes (deckRecord d u hdl word)) } :=
    ⟨rfl, rfl, fun _ => rfl, hends⟩
  have hstep := (deckStep_of_works (f := f) hworks).trans (runDeck_of_ok hworks hgood hf (findTask_begunDeck hown _))
  rw [hstep, afterEffect_of_plain (hop ▸ hw) (hop ▸ hr), ← length_effectRecord d (seqOf (deckOf u (handleGrove hdl)) (handleSlot hdl)) hdl word]
  refine ⟨fun hno => deckResult_of_absent hsame hno .., fun hyes w hwrite => deckResult_of_written hsame hyes ?_⟩
  rw [bytesOfNat_natOfBytes]
  exact hwrite

/-- An operation whose record goes to scratch, to the end of its task. -/
theorem deckStep_of_scratch (hruns : DeckRuns op t d n s) (hw : op ≠ .write) (hr : op ≠ .read) {u : State} {hdl word : Nat}
    (hf : f t d s = .ok (u, hdl, word)) (htasks : KeepsTasks t s u)
    (hin : hasResult d = true → InScratch d.result (if d.op = .query then 64 else 16)) :
    deckStep op f t.ring t.seq s = markWorkDone t.ring t.seq
      (withRecord d n (deckRecord d u hdl word) (begunDeck t d (deckRecord d u hdl word) u)) := by
  obtain ⟨habsent, hpresent⟩ := deckStep_of_ok hruns hw hr hf htasks
  unfold withRecord
  cases hyes : hasResult d with
  | false => exact habsent hyes
  | true =>
    refine hpresent hyes _ ?_
    rw [fieldWrite_of_scratch (hin hyes) (length_effectRecord ..) (by split <;> decide)]
    rfl

theorem workDone_markWorkDone {r seq : Nat} {v : State} {t1 : Task} (h : findTask v r seq = some t1) :
    (findTask (markWorkDone r seq v) r seq).map (·.workDone) = some true := by
  have hself := findTask_updTask_self (r := r) (seq := seq) (f := fun t => { t with workDone := true }) (by intro _; rfl) v
  rw [h] at hself
  rw [markWorkDone, hself]
  rfl

/-- An effect on the entries of the home Deck unit alone. -/
structure ActsAtHome (t : Task) (d : DeckDesc) (s u : State) : Prop where
  beyond : u = { s with decks := u.decks, tasks := u.tasks }
  tasks : KeepsTasks t s u
  others : ∀ g, g ≠ homeOf t d → deckOf u g = deckOf s g
  ops : (deckOf u (homeOf t d)).ops = (deckOf s (homeOf t d)).ops

theorem seqOf_withRecord (g k : Nat) (rec : List Byte) (u : State) :
    seqOf (deckOf (markWorkDone t.ring t.seq (withRecord d n rec (begunDeck t d rec u))) g) k = seqOf (deckOf u g) k ∧
      (deckOf (markWorkDone t.ring t.seq (withRecord d n rec (begunDeck t d rec u))) g).refs = (deckOf u g).refs ∧
      (deckOf (markWorkDone t.ring t.seq (withRecord d n rec (begunDeck t d rec u))) g).freeStack = (deckOf u g).freeStack := by
  have hdecks : deckOf (markWorkDone t.ring t.seq (withRecord d n rec (begunDeck t d rec u))) g = deckOf (countDeckOp (homeOf t d) u) g := by
    rw [withRecord_shape]
    rfl
  rw [hdecks, countDeckOp, deckOf_updDeck]
  split
  · next h => subst h; exact ⟨rfl, rfl, rfl⟩
  · exact ⟨rfl, rfl, rfl⟩

/-- An operation that acts at its home alone is done, with its record. -/
theorem deckDone_of_acts {u : State} (h : ActsAtHome t d s u) (rec : List Byte) :
    DeckDone t d n rec s (markWorkDone t.ring t.seq (withRecord d n rec (begunDeck t d rec u))) := by
  obtain ⟨xs, hown⟩ := h.tasks.own
  have hu := h.beyond
  have hdecks (g : Nat) : deckOf (markWorkDone t.ring t.seq (withRecord d n rec (begunDeck t d rec u))) g =
      deckOf (countDeckOp (homeOf t d) u) g := by
    rw [withRecord_shape]
    rfl
  refine ⟨?_, fun x hx hne => ?_, resultIn_withRecord (v := begunDeck t d rec u) (congrArg State.scratch hu :) rfl, ?_, fun g hg => ?_,
    ?_, ?_, ?_, ?_, ?_⟩
  · exact workDone_markWorkDone (t1 := { t with extended := xs, snapshot := some (natOfBytes rec) })
      (by rw [withRecord_shape]; exact findTask_begunDeck hown rec)
  · have hkeep : ∀ (g : Task → Task) (v : State), x ∈ v.tasks → x ∈ (updTask t.ring t.seq g v).tasks := fun g v hv =>
      List.mem_map.mpr ⟨x, hv, by rw [hne]; rfl⟩
    rw [markWorkDone]
    refine hkeep _ _ ?_
    rw [withRecord_shape]
    exact hkeep _ (countDeckOp (homeOf t d) u) (h.tasks.others x hx hne)
  · rw [hdecks, countDeckOp, deckOf_updDeck_self, h.ops]
    rfl
  · rw [hdecks, countDeckOp, deckOf_updDeck, if_neg hg, h.others g hg]
  all_goals rw [withRecord_shape, hu]; rfl

/-- The tables of a Deck unit that an operation's result is told by. -/
structure SameTables (u v : DeckUnit) : Prop where
  seqs : ∀ k, seqOf u k = seqOf v k
  refs : u.refs = v.refs
  freeStack : u.freeStack = v.freeStack

/-- An operation that acts at its home alone, to the end of its task. -/
theorem exec_of_acts {c : Instr} (hexec : exec c s = .next (deckStep op f t.ring t.seq s)) (hruns : DeckRuns op t d n s)
    (hw : op ≠ .write) (hr : op ≠ .read) {u : State} {hdl word : Nat} (hf : f t d s = .ok (u, hdl, word)) (hacts : ActsAtHome t d s u)
    (hin : hasResult d = true → InScratch d.result (if d.op = .query then 64 else 16)) :
    ∃ w, exec c s = .next w ∧ DeckDone t d n (deckRecord d u hdl word) s w ∧ ∀ g, SameTables (deckOf w g) (deckOf u g) := by
  refine ⟨_, hexec.trans (congrArg Host.Outcome.next (deckStep_of_scratch hruns hw hr hf hacts.tasks hin)), deckDone_of_acts hacts _,
    fun g => ⟨fun k => (seqOf_withRecord g k ..).1, (seqOf_withRecord g 0 ..).2.1, (seqOf_withRecord g 0 ..).2.2⟩⟩

theorem keepsTasks_refl (hfind : findTask s t.ring t.seq = some t) {u : State} (hu : u.tasks = s.tasks) : KeepsTasks t s u where
  own := ⟨t.extended, by rw [findTask, hu]; exact hfind⟩
  others x hx _ := hu ▸ hx

/-- A change of the home Deck unit that counts no operation. -/
theorem actsAtHome_updDeck (hfind : findTask s t.ring t.seq = some t) {g : Nat} (hhome : homeOf t d = g) {f : DeckUnit → DeckUnit}
    (hops : (f (deckOf s g)).ops = (deckOf s g).ops) : ActsAtHome t d s (updDeck g f s) where
  beyond := rfl
  tasks := keepsTasks_refl hfind rfl
  others k hk := by rw [deckOf_updDeck, if_neg (hhome ▸ hk)]
  ops := by rw [hhome, deckOf_updDeck_self, hops]

/-- A sequence noted as extended by the task changes its task alone. -/
theorem actsAtHome_extended (f : List Nat → List Nat) {u : State} (h : ActsAtHome t d s u) :
    ActsAtHome t d s (updTask t.ring t.seq (fun t => { t with extended := f t.extended }) u) where
  beyond := by
    have hu := h.beyond
    rw [hu]
    rfl
  tasks := by
    obtain ⟨⟨xs, hown⟩, hothers⟩ := h.tasks
    refine ⟨⟨f xs, ?_⟩, fun x hx hne => List.mem_map.mpr ⟨x, hothers x hx hne, by rw [hne]; rfl⟩⟩
    have hself := findTask_updTask_self (r := t.ring) (seq := t.seq) (f := fun t => { t with extended := f t.extended }) (by intro _; rfl) u
    rw [hself, hown]
    rfl
  others := h.others
  ops := h.ops

/-! ### Pages taken for a sequence (R206) -/

theorem takePage_keeps {u w : DeckUnit} {p : Nat} (h : takePage u = some (p, w)) : w.seqs = u.seqs ∧ w.ops = u.ops := by
  unfold takePage at h
  split at h
  · obtain ⟨-, rfl⟩ := Prod.mk.inj (Option.some.inj h)
    exact ⟨rfl, rfl⟩
  · split at h
    · obtain ⟨-, rfl⟩ := Prod.mk.inj (Option.some.inj h)
      exact ⟨rfl, rfl⟩
    · cases h

/-- Pages taken stand at the end of the slot's page list; no other entry changes. -/
theorem takePages_appends {i k : Nat} {u v : DeckUnit} (h : takePages i k u = some v) :
    (∃ ps, ps.length = k ∧ seqOf v i = { seqOf u i with pages := (seqOf u i).pages ++ ps }) ∧ (∀ m, m ≠ i → seqOf v m = seqOf u m) ∧
      v.ops = u.ops := by
  induction k generalizing u with
  | zero =>
    obtain rfl := Option.some.inj h
    exact ⟨⟨[], rfl, by rw [List.append_nil]⟩, fun _ _ => rfl, rfl⟩
  | succ k ih =>
    rw [takePages] at h
    cases htake : takePage u with
    | none => rw [htake] at h; cases h
    | some x =>
      obtain ⟨p, w⟩ := x
      rw [htake] at h
      obtain ⟨hseqs, hops⟩ := takePage_keeps htake
      have hw : ∀ m, seqOf w m = seqOf u m := fun m => by rw [seqOf, hseqs, ← seqOf]
      obtain ⟨⟨ps, hlen, hown⟩, hothers, hops'⟩ := ih h
      refine ⟨⟨p :: ps, by rw [List.length_cons, hlen], ?_⟩, fun m hm => ?_, hops'.trans hops⟩
      · rw [hown, seqOf_updSeq_self, hw, List.append_assoc]
        rfl
      · rw [hothers m hm, seqOf_updSeq_ne hm, hw]

/-! ### The effects (R209) -/

theorem extendSeq_of_good {tokens : Nat} {g : SeqEntry → SeqEntry} {v : DeckUnit} (hlimit : tokens ≤ tokenLimit (deckOf s (handleGrove d.handle)))
    (htake : takePages (handleSlot d.handle) (pagesShort (namedSeq s d) tokens) (deckOf s (handleGrove d.handle)) = some v)
    (htable : tableRefusal s (handleGrove d.handle) [] (nextPages (deckOf s (handleGrove d.handle)) (pagesShort (namedSeq s d) tokens)) = none) :
    extendSeq d tokens g s = .ok (updDeck (handleGrove d.handle) (fun _ => updSeq (handleSlot d.handle) g v) s, d.handle,
      (namedSeq s d).committed + provOf (namedSeq s d)) := by
  simp only [extendSeq, if_neg (Nat.not_lt.mpr hlimit), htake, htable]

theorem homeOf_of_named (h : d.op ≠ .create) : homeOf t d = handleGrove d.handle := if_neg h

/-- A result record of an operation other than QUERY. -/
theorem deckRecord_of_record (h : d.op ≠ .query) (u : State) (hdl word : Nat) :
    deckRecord d u hdl word = resultRecord hdl (seqOf (deckOf u (handleGrove hdl)) (handleSlot hdl)) word := if_neg h

/-- What CREATE and FORK make of a free slot: a new sequence in the next generation. -/
theorem deckCreate_of_free {j : Nat} (hbytes : rowBytesShort (deckOf s t.grove).pageLog2 d.streamsLog2 = false)
    (hnew : newSeqRefusal s t.partition t.grove = none) (hfree : freeSlotOf (deckOf s t.grove) = some j) :
    deckCreate t d s = .ok (updDeck t.grove (updSeq j fun _ => { gen := min ((seqOf (deckOf s t.grove) j).gen + 1) 0xFFFF, state := .live
                                                                 streamsLog2 := d.streamsLog2, context := t.context
                                                                 partition := t.partition }) s,
      handleOf t.grove j (min ((seqOf (deckOf s t.grove) j).gen + 1) 0xFFFF), 0) := by
  simp only [deckCreate, hbytes, hnew, hfree, Bool.false_eq_true, if_false, nextGen]

theorem deckExtendCommitted_of_good {v : DeckUnit} (hprov : provOf (namedSeq s d) = 0) (hlow : 1 ≤ d.count) (hhigh : d.count ≤ 65536)
    (hlimit : (namedSeq s d).committed + d.count ≤ tokenLimit (deckOf s (handleGrove d.handle)))
    (htake : takePages (handleSlot d.handle) (pagesShort (namedSeq s d) ((namedSeq s d).committed + d.count))
      (deckOf s (handleGrove d.handle)) = some v)
    (htable : tableRefusal s (handleGrove d.handle) []
      (nextPages (deckOf s (handleGrove d.handle)) (pagesShort (namedSeq s d) ((namedSeq s d).committed + d.count))) = none) :
    deckExtendCommitted t d s = .ok (updDeck (handleGrove d.handle)
      (fun _ => updSeq (handleSlot d.handle) (fun e => { e with committed := e.committed + d.count }) v) s, d.handle, (namedSeq s d).committed) := by
  have hgo : ¬(provOf (namedSeq s d) ≠ 0 ∨ d.count = 0 ∨ 65536 < d.count) := by omega
  rw [deckExtendCommitted, if_neg hgo, extendSeq_of_good hlimit htake htable, hprov, Nat.add_zero]

theorem deckCommit_of_good (hcount : d.count ≤ provOf (namedSeq s d)) (hopen : groupsOpen s (namedSeq s d) = false) :
    deckCommit t d s = .ok (updNamed d (fun e => { e with committed := e.committed + d.count, groups := [] }) s, d.handle, 0) := by
  simp only [deckCommit, if_neg (Nat.not_lt.mpr hcount), hopen, Bool.false_eq_true, if_false]

theorem deckRollback_of_good (hopen : groupsOpen s (namedSeq s d) = false) :
    deckRollback t d s = .ok (updNamed d (fun e => { e with groups := [] }) s, d.handle, 0) := by
  simp only [deckRollback, hopen, Bool.false_eq_true, if_false]

/-- The sequence that a FORK of whole pages makes in slot `j`. -/
def forkedSeq (d : DeckDesc) (e child : SeqEntry) : SeqEntry :=
  { e with gen := min (child.gen + 1) 0xFFFF, committed := d.count, groups := [], pages := e.pages.take (d.count / 16) }

theorem deckFork_of_whole {j : Nat} (hcount : d.count ≤ (namedSeq s d).committed) (hwhole : d.count % 16 = 0)
    (hnew : newSeqRefusal s t.partition (handleGrove d.handle) = none) (hfree : freeSlotOf (deckOf s (handleGrove d.handle)) = some j)
    (htable : tableRefusal s (handleGrove d.handle) [] ((namedSeq s d).pages.take (d.count / 16)) = none) :
    deckFork t d s = .ok (updDeck (handleGrove d.handle) (fun _ => updSeq j
        (fun _ => forkedSeq d (namedSeq s d) (seqOf (deckOf s (handleGrove d.handle)) j))
        (sharePages ((namedSeq s d).pages.take (d.count / 16)) (deckOf s (handleGrove d.handle)))) s,
      handleOf (handleGrove d.handle) j (min ((seqOf (deckOf s (handleGrove d.handle)) j).gen + 1) 0xFFFF), 0) := by
  simp only [deckFork, if_neg (Nat.not_lt.mpr hcount), hnew, hfree, hwhole, if_true, List.append_nil, htable, nextGen, forkedSeq]

/-- EXTEND, provisional: the sequence is noted as the task's where the tokens carry a group. -/
theorem deckExtendProvisional_of_good {v : DeckUnit} (hlow : 1 ≤ d.count) (hprov : provOf (namedSeq s d) + d.count ≤ 16)
    (hlabels : labelsGood (((namedSeq s d).groups ++ List.replicate d.count (deckGroup s t)).map (countsAs s)) = true)
    (hlimit : (namedSeq s d).committed + provOf (namedSeq s d) + d.count ≤ tokenLimit (deckOf s (handleGrove d.handle)))
    (htake : takePages (handleSlot d.handle) (pagesShort (namedSeq s d) ((namedSeq s d).committed + provOf (namedSeq s d) + d.count))
      (deckOf s (handleGrove d.handle)) = some v)
    (htable : tableRefusal s (handleGrove d.handle) [] (nextPages (deckOf s (handleGrove d.handle))
      (pagesShort (namedSeq s d) ((namedSeq s d).committed + provOf (namedSeq s d) + d.count))) = none) :
    ∃ f : List Nat → List Nat, deckExtendProvisional t d s = .ok (updTask t.ring t.seq (fun t => { t with extended := f t.extended })
      (updDeck (handleGrove d.handle) (fun _ => updSeq (handleSlot d.handle)
        (fun e => { e with groups := (namedSeq s d).groups ++ List.replicate d.count (deckGroup s t) }) v) s), d.handle,
      (namedSeq s d).committed + provOf (namedSeq s d)) := by
  have hgo : ¬(d.count = 0 ∨ 16 < provOf (namedSeq s d) + d.count) := by omega
  have hsame (u : State) : updTask t.ring t.seq (fun t => { t with extended := t.extended }) u = u := by
    have hmap : (u.tasks.map fun x => if x.is t.ring t.seq then { x with extended := x.extended } else x) = u.tasks :=
      (List.map_congr_left fun x _ => ite_self x).trans (List.map_id u.tasks)
    rw [updTask, hmap]
  simp only [deckExtendProvisional, if_neg hgo, hlabels, Bool.not_true, Bool.false_eq_true, if_false, extendSeq_of_good hlimit htake htable]
  by_cases hgroup : deckGroup s t = 0
  · refine ⟨id, ?_⟩
    simp only [hgroup, ne_eq, not_true_eq_false, if_false, id]
    rw [hsame]
  · exact ⟨fun xs => if xs.contains d.handle then xs else d.handle :: xs, by rw [if_pos hgroup]⟩

end Operations

/-! ### FORK of part of a page -/

/-- No task and no injection point is touched. -/
def Undisturbed (s t : State) : Prop := t.tasks = s.tasks ∧ t.err.inj = s.err.inj

theorem undisturbed_refl (s : State) : Undisturbed s s := ⟨rfl, rfl⟩

theorem undisturbed_trans {s t u : State} (hst : Undisturbed s t) (htu : Undisturbed t u) : Undisturbed s u :=
  ⟨htu.1.trans hst.1, htu.2.trans hst.2⟩

theorem undisturbed_of_kept {s t : State} (htasks : t.tasks = s.tasks) (hkept : kept t = kept s) : Undisturbed s t :=
  ⟨htasks, (congrArg ErrBlock.inj (standing_of_kept hkept) :)⟩

theorem undisturbed_placeBytes (q : Requester) (pa : Nat) (bs : List Byte) (s : State) : Undisturbed s (placeBytes q pa bs s) := by
  have hplain (v : State) (b : List Byte) (hv : Undisturbed s v) : Undisturbed s (plainWrite pa b v) :=
    undisturbed_trans hv (undisturbed_of_kept (tasks_plainWrite ..) (kept_plainWrite ..))
  have houtside := undisturbed_of_kept (tasks_outsideWrite q pa bs s) (kept_outsideWrite q pa bs s)
  simp only [placeBytes]
  split <;> exact hplain _ _ houtside

theorem undisturbed_writePiece (q : Requester) (pa : Nat) (bs : List Byte) (s : State) (p : Nat × Nat) :
    Undisturbed s (writePiece q pa bs s p) := by
  unfold writePiece
  split
  · exact ⟨report_tasks .., report_err_inj ..⟩
  · exact undisturbed_placeBytes ..

theorem undisturbed_physWrite {s : State} (hcells : s.err.inj.cells = []) (q : Requester) (pa : Nat) (bs : List Byte) :
    Undisturbed s (physWrite q pa bs s).2 := by
  have hfold (ps : List (Nat × Nat)) : Undisturbed s (ps.foldl (writePiece q pa bs) s) :=
    List.foldlRecOn (motive := Undisturbed s) _ _ (undisturbed_refl s) fun _ ht p _ => undisturbed_trans ht (undisturbed_writePiece ..)
  simp only [physWrite, stakeTableRead_of_unarmed hcells]
  split
  · split <;> exact hfold _
  · split <;> exact hfold _
  · exact undisturbed_refl s
  · exact undisturbed_refl s

theorem undisturbed_injectRead {s : State} (hcells : s.err.inj.cells = []) (q : Requester) (pa n : Nat) :
    Undisturbed s (injectRead q pa n s).2 := by
  have hquiet : ({ s with err := { s.err with firing := none } } : State).err.inj.cells = [] := hcells
  unfold injectRead
  split
  · exact undisturbed_refl s
  · simp only [fireInjection_of_unarmed hquiet, Bool.false_eq_true, if_false]
    exact ⟨rfl, rfl⟩

theorem undisturbed_physRead {s v : State} (hcells : s.err.inj.cells = []) {q : Requester} {pa n : Nat} {bs : List Byte}
    (h : physRead q pa n s = (.done bs, v)) : Undisturbed s v := by
  have hinject := undisturbed_injectRead hcells q pa n
  have hcells' : (injectRead q pa n s).2.err.inj.cells = [] := by rw [hinject.2, hcells]
  have hend (c : Prop) [Decidable c] {x : List Byte} (h : (if c then (.fail 0x4301 pa, (injectRead q pa n s).2) else
      (.done x, (injectRead q pa n s).2)) = ((.done bs, v) : Reply (List Byte) × State)) : Undisturbed s v := by
    split at h
    · cases h
    · obtain ⟨-, rfl⟩ := Prod.mk.inj h
      exact hinject
  unfold physRead at h
  simp only [stakeTableRead_of_unarmed hcells'] at h
  split at h
  case h_1 | h_2 =>
    split at h
    · cases h
    · split at h
      · cases h
      · split at h
        · cases h
        · exact hend _ h
  case h_3 =>
    split at h
    · cases h
    · split at h
      · cases h
      · exact hend _ h
  case h_4 => cases h

theorem andThen_done {α β : Type} {r : Reply α × State} {f : α → State → Reply β × State} {b : β} {w : State}
    (h : Reply.andThen r f = (.done b, w)) : ∃ a v, r = (.done a, v) ∧ f a v = (.done b, w) := by
  obtain ⟨reply, s⟩ := r
  cases reply with
  | done a => exact ⟨a, s, rfl, h⟩
  | fail c pa => cases h
  | wait => cases h

/-- The rows of a page copied into another disturb no task. -/
theorem undisturbed_copyRows {u : DeckUnit} {e : SeqEntry} {src dst rows : Nat} (sts : List Nat) {s w : State}
    (hcells : s.err.inj.cells = []) (h : copyRows u e src dst rows sts s = (.done (), w)) : Undisturbed s w := by
  induction sts generalizing s with
  | nil =>
    obtain ⟨-, rfl⟩ := Prod.mk.inj h
    exact undisturbed_refl s
  | cons st sts ih =>
    rw [copyRows] at h
    obtain ⟨bs, v, hread, h⟩ := andThen_done h
    have hv := undisturbed_physRead hcells hread
    obtain ⟨x, y, hwrite, h⟩ := andThen_done h
    have hy : Undisturbed v y := by
      have hphys := undisturbed_physWrite (s := v) (hv.2 ▸ hcells) deckRequester (pageAddr u dst + st * 16 * rowBytes u e) bs
      rw [hwrite] at hphys
      exact hphys
    have hall := undisturbed_trans hv hy
    exact undisturbed_trans hall (ih (by rw [hall.2, hcells]) h)

/-! ### What an effect leaves of the tasks -/

section Effects

variable {t : Task} {d : DeckDesc} {s u : State} {h word : Nat}

theorem ok_inj {x : State × Nat × Nat} (hx : (Except.ok x : DeckEffect) = .ok (u, h, word)) : x.1 = u := by
  rw [Except.ok.inj hx]

theorem tasks_of_extendSeq {tokens : Nat} {f : SeqEntry → SeqEntry} (hok : extendSeq d tokens f s = .ok (u, h, word)) : u.tasks = s.tasks := by
  simp only [extendSeq] at hok
  split at hok
  · cases hok
  · split at hok
    · cases hok
    · cases hok
    · rw [← ok_inj hok]
      rfl

theorem tasks_of_deckCreate (hok : deckCreate t d s = .ok (u, h, word)) : u.tasks = s.tasks := by
  simp only [deckCreate] at hok
  split at hok
  · cases hok
  · split at hok
    · cases hok
    · cases hok
    · rw [← ok_inj hok]
      rfl

theorem tasks_of_deckExtendCommitted (hok : deckExtendCommitted t d s = .ok (u, h, word)) : u.tasks = s.tasks := by
  simp only [deckExtendCommitted] at hok
  split at hok
  · cases hok
  · exact tasks_of_extendSeq hok

theorem tasks_of_deckCommit (hok : deckCommit t d s = .ok (u, h, word)) : u.tasks = s.tasks := by
  simp only [deckCommit] at hok
  split at hok
  · cases hok
  · split at hok
    · cases hok
    · rw [← ok_inj hok]
      rfl

theorem tasks_of_deckRollback (hok : deckRollback t d s = .ok (u, h, word)) : u.tasks = s.tasks := by
  simp only [deckRollback] at hok
  split at hok
  · cases hok
  · rw [← ok_inj hok]
    rfl

theorem tasks_of_deckFork (hcells : s.err.inj.cells = []) (hok : deckFork t d s = .ok (u, h, word)) : u.tasks = s.tasks := by
  simp only [deckFork] at hok
  split at hok
  · cases hok
  · split at hok
    · cases hok
    · cases hok
    · split at hok
      · cases hok
      · split at hok
        · rw [← ok_inj hok]
          rfl
        · split at hok
          · cases hok
          · split at hok
            · next hcopy =>
              rw [← ok_inj hok]
              exact (undisturbed_copyRows _ (by exact hcells) hcopy).1
            · cases hok
            · cases hok

/-- EXTEND, provisional, changes the task's own list of sequences at most. -/
theorem keepsTasks_of_deckExtendProvisional (hfind : findTask s t.ring t.seq = some t)
    (hok : deckExtendProvisional t d s = .ok (u, h, word)) : KeepsTasks t s u := by
  simp only [deckExtendProvisional] at hok
  split at hok
  · cases hok
  · split at hok
    · cases hok
    · split at hok
      · cases hok
      · next v hv w hext =>
        rw [← ok_inj hok]
        have hkeep := keepsTasks_refl hfind (tasks_of_extendSeq hext)
        dsimp only
        split
        · obtain ⟨⟨xs, hown⟩, hothers⟩ := hkeep
          refine ⟨⟨if xs.contains hv then xs else hv :: xs, ?_⟩, fun x hx hne => List.mem_map.mpr ⟨x, hothers x hx hne, by rw [hne]; rfl⟩⟩
          have hself := findTask_updTask_self (r := t.ring) (seq := t.seq)
            (f := fun t => { t with extended := if t.extended.contains hv then t.extended else hv :: t.extended }) (by intro _; rfl) v
          rw [hself, hown]
          rfl
        · exact hkeep

end Effects

/-! ### Refused operations (R209, R210) -/

theorem mem_insertFailure (f : HeldFailure) (fs : List HeldFailure) : f ∈ insertFailure f fs := by
  induction fs with
  | nil => exact List.mem_singleton.mpr rfl
  | cons g gs ih =>
    rw [insertFailure]
    split
    · exact List.mem_cons_self
    · exact List.mem_cons_of_mem _ ih

/-- What the failure of a task takes off its bench, its waits and its entry. -/
def failedWork (t : Task) (s : State) : State :=
  updTask t.ring t.seq (fun t => { t with phase := .failed, blocked := false, stopping := false, ends := none })
    (forgetWaits t.ring t.seq (noteClocks (match t.bench with
      | some n => updBenchState n (stopOnBench t.ring t.seq) s
      | none => s)))

theorem onlyWork_failedWork (t : Task) (s : State) : OnlyWork s (failedWork t s) := by
  have hrest (v : State) (hv : OnlyWork s v) : OnlyWork s (updTask t.ring t.seq
      (fun t => { t with phase := .failed, blocked := false, stopping := false, ends := none }) (forgetWaits t.ring t.seq (noteClocks v))) :=
    onlyWork_trans (onlyWork_trans hv (t := v) (u := noteClocks v) rfl) rfl
  cases hb : t.bench with
  | none =>
    simp only [failedWork, hb]
    exact hrest s (onlyWork_refl s)
  | some n =>
    simp only [failedWork, hb]
    exact hrest _ rfl

theorem abortSignal_of_none {t : Task} (habort : t.header.abortOnFail = false) (s : State) : abortSignal t s = s := by
  unfold abortSignal
  split
  · rw [habort, if_neg Bool.false_ne_true]
  · rfl

theorem failTask_of_alone {t : Task} (hmember : t.member = false) (habort : t.header.abortOnFail = false) (code : W16) (s : State)
    (addr d0 d1 d2 : Nat) (injected : Bool) (source : Option W64) : failTask t code s addr d0 d1 d2 injected source =
      settleBenchOf t (report (taskRecord t code addr d0 d1 d2 injected source s)
        (updRing t.ring (holdFailure ⟨t.seq, false, code⟩) (failedWork t s))) := by
  cases hb : t.bench <;>
    simp only [failTask, hmember, Bool.false_eq_true, if_false, abortSignal_of_none habort, failedWork, hb]

/-- The failure of a task of no group that asks for no ABORT: it is held by its ring, and memory, scratch and the Deck units stand. -/
theorem failTask_of_free {t : Task} (hmember : t.member = false) (habort : t.header.abortOnFail = false) (code : W16) (s : State)
    (addr d0 d1 d2 : Nat) (injected : Bool) (source : Option W64) :
    let u := failTask t code s addr d0 d1 d2 injected source
    u.mem = s.mem ∧ u.scratch = s.scratch ∧ u.decks = s.decks ∧ ∃ x ∈ (ringOf u t.ring).failures, x.code = code ∧ x.at_ = t.seq := by
  intro u
  have hwork := onlyWork_failedWork t s
  generalize hv : updRing t.ring (holdFailure ⟨t.seq, false, code⟩) (failedWork t s) = v
  have hu : OnlyWork (report (taskRecord t code addr d0 d1 d2 injected source s) v) u := by
    rw [show u = _ from failTask_of_alone hmember habort code s addr d0 d1 d2 injected source, hv]
    exact onlyWork_settleBenchOf ..
  have hheld : (⟨t.seq, false, code⟩ : HeldFailure) ∈ (ringOf v t.ring).failures := by
    rw [← hv, ringOf_updRing_self]
    exact mem_insertFailure ..
  have hrings : u.rings = v.rings := (congrArg State.rings hu :).trans (report_rings ..)
  refine ⟨?_, ?_, ?_, ⟨t.seq, false, code⟩, ?_, rfl, rfl⟩
  · rw [(congrArg State.mem hu :), report_mem, ← hv]
    exact (congrArg State.mem hwork :)
  · rw [(congrArg State.scratch hu :), report_scratch, ← hv]
    exact (congrArg State.scratch hwork :)
  · rw [(congrArg State.decks hu :), report_decks, ← hv]
    exact (congrArg State.decks hwork :)
  · rw [ringOf, hrings, ← ringOf]
    exact hheld

section Refusals

variable {op : DeckOp} {f : Task → DeckDesc → State → DeckEffect} {t : Task} {d : DeckDesc} {n : Nat} {s : State} {code : W16}

theorem runDeck_of_refused (h : DeckWorks op t d n s) (href : deckRefusal s t d = some code ∨ (deckRefusal s t d = none ∧ f t d s = .error code)) :
    runDeck f t d n s = refuseDeck t d n code 0 s := by
  obtain ⟨-, -, -, -, -, -, -, -, hends, hsnapshot, -, hbusy, -, -⟩ := h
  rcases href with href | ⟨hnone, hf⟩
  · simp only [runDeck, hsnapshot, hends, hbusy, href, Bool.false_eq_true, if_false]
  · simp only [runDeck, hsnapshot, hends, hbusy, hnone, hf, Bool.false_eq_true, if_false]

/-- A refused task: its record is the failed one, and it ends with the code. -/
def Task.refused (rec : List Byte) (code : W16) (t : Task) : Task :=
  { t with snapshot := some (natOfBytes rec), ends := some { code := code, addr := 0 } }

theorem refuseDeck_of_scratch (hop : d.op ≠ .query) (hin : hasResult d = true → InScratch d.result 16) :
    refuseDeck t d n code 0 s = failAs (t.refused (failedRecord s d) code) { code := code, addr := 0 }
      (withRecord d n (failedRecord s d) (updTask t.ring t.seq (fun _ => t.refused (failedRecord s d) code) s)) := by
  have hbytes : bytesOfNat 16 (natOfBytes (failedRecord s d)) = failedRecord s d := by
    rw [← length_failedRecord s d, bytesOfNat_natOfBytes]
  simp only [refuseDeck, if_neg hop, deckResult, hbytes, withRecord, Task.refused]
  cases hyes : hasResult d with
  | false => rfl
  | true =>
    simp only [Bool.not_true, Bool.false_eq_true, if_false, fieldWrite_of_scratch (hin hyes) (length_failedRecord s d) (by decide), if_true]
    rfl

/-- What a refused operation leaves: the failure, its record, and nothing else of memory, scratch and the Deck units. -/
theorem refuseDeck_leaves (hmember : t.member = false) (habort : t.header.abortOnFail = false)
    (hin : hasResult d = true → InScratch d.result 16) :
    let u := refuseDeck t d n code 0 s
    (∃ x ∈ (ringOf u t.ring).failures, x.code = code ∧ x.at_ = t.seq) ∧ u.mem = s.mem ∧ u.decks = s.decks ∧
      (d.op = .query → u.scratch = s.scratch) ∧ (d.op ≠ .query → ResultIn d n (failedRecord s d) s u) := by
  intro u
  by_cases hop : d.op = .query
  · have hu : u = failTask t code s 0 := if_pos hop
    obtain ⟨hmem, hscratch, hdecks, hheld⟩ := failTask_of_free hmember habort code s 0 0 0 0 false none
    rw [hu]
    exact ⟨hheld, hmem, hdecks, fun _ => hscratch, fun h => absurd hop h⟩
  · obtain ⟨hmem, hscratch, hdecks, hheld⟩ := failTask_of_free (t := t.refused (failedRecord s d) code) hmember habort code
      (withRecord d n (failedRecord s d) (updTask t.ring t.seq (fun _ => t.refused (failedRecord s d) code) s)) 0 0 0 0 false none
    have hu : u = failTask (t.refused (failedRecord s d) code) code (withRecord d n (failedRecord s d)
        (updTask t.ring t.seq (fun _ => t.refused (failedRecord s d) code) s)) 0 := refuseDeck_of_scratch hop hin
    rw [hu]
    refine ⟨hheld, ?_, ?_, fun h => absurd h hop, fun _ => resultIn_withRecord
      (v := updTask t.ring t.seq (fun _ => t.refused (failedRecord s d) code) s) rfl hscratch⟩
    · rw [hmem, withRecord_shape]
      rfl
    · rw [hdecks, withRecord_shape]
      rfl

end Refusals

/-! ### The statement -/

/-- The operations on sequences, each with its effect and the command that runs it. -/
def sequenceOps (t : Task) : List (DeckOp × (Task → DeckDesc → State → DeckEffect) × Instr) :=
  [(.create, deckCreate, .deckCreate t.ring t.seq), (.extendCommitted, deckExtendCommitted, .deckExtendCommitted t.ring t.seq),
    (.extendProvisional, deckExtendProvisional, .deckExtendProvisional t.ring t.seq), (.commit, deckCommit, .deckCommit t.ring t.seq),
    (.rollback, deckRollback, .deckRollback t.ring t.seq), (.release, deckRelease, .deckRelease t.ring t.seq),
    (.fork, deckFork, .deckFork t.ring t.seq), (.query, deckQuery, .deckQuery t.ring t.seq)]

/-- What the two general clauses need of an operation: its command runs it, it moves no rows, and its effect keeps the tasks. -/
structure SequenceOp (op : DeckOp) (f : Task → DeckDesc → State → DeckEffect) (c : Instr) (t : Task) : Prop where
  exec : ∀ s, exec c s = .next (deckStep op f t.ring t.seq s)
  noWrite : op ≠ .write
  noRead : op ≠ .read
  keeps : ∀ {d s u h word}, findTask s t.ring t.seq = some t → s.err.inj.cells = [] → f t d s = .ok (u, h, word) → KeepsTasks t s u

theorem sequenceOp_of_mem {op : DeckOp} {f : Task → DeckDesc → State → DeckEffect} {c : Instr} {t : Task} (h : (op, f, c) ∈ sequenceOps t) :
    SequenceOp op f c t := by
  simp only [sequenceOps, List.mem_cons, Prod.mk.injEq, List.not_mem_nil, or_false] at h
  rcases h with ⟨rfl, rfl, rfl⟩ | ⟨rfl, rfl, rfl⟩ | ⟨rfl, rfl, rfl⟩ | ⟨rfl, rfl, rfl⟩ | ⟨rfl, rfl, rfl⟩ | ⟨rfl, rfl, rfl⟩ | ⟨rfl, rfl, rfl⟩ | ⟨rfl, rfl, rfl⟩
  · exact ⟨fun _ => rfl, nofun, nofun, fun hfind _ hok => keepsTasks_refl hfind (tasks_of_deckCreate hok)⟩
  · exact ⟨fun _ => rfl, nofun, nofun, fun hfind _ hok => keepsTasks_refl hfind (tasks_of_deckExtendCommitted hok)⟩
  · exact ⟨fun _ => rfl, nofun, nofun, fun hfind _ hok => keepsTasks_of_deckExtendProvisional hfind hok⟩
  · exact ⟨fun _ => rfl, nofun, nofun, fun hfind _ hok => keepsTasks_refl hfind (tasks_of_deckCommit hok)⟩
  · exact ⟨fun _ => rfl, nofun, nofun, fun hfind _ hok => keepsTasks_refl hfind (tasks_of_deckRollback hok)⟩
  · exact ⟨fun _ => rfl, nofun, nofun, fun hfind _ hok => keepsTasks_refl hfind (by rw [← ok_inj hok]; rfl)⟩
  · exact ⟨fun _ => rfl, nofun, nofun, fun hfind hcells hok => keepsTasks_refl hfind (tasks_of_deckFork hcells hok)⟩
  · exact ⟨fun _ => rfl, nofun, nofun, fun hfind _ hok => keepsTasks_refl hfind (by rw [← ok_inj hok])⟩

/-- Settles O42: what each operation's effect is where its conditions hold, and that it acts at its home alone; its record stands in scratch
and its task is done. The general clauses follow from what every effect keeps of the tasks, and a refusal from the failure of a task. -/
theorem deckOperationsTakeEffect : Obligations.DeckOperationsTakeEffect := by
  unfold Obligations.DeckOperationsTakeEffect
  refine ⟨fun t d n s hin => ?_, fun op f c t d n s hmem => ?_⟩
  · intro g i e only
    have hown (u w : State) (hsame : ∀ g, SameTables (deckOf w g) (deckOf u g)) (k : Nat) : seqOf (deckOf w g) k = seqOf (deckOf u g) k :=
      (hsame g).seqs k
    refine ⟨?_, ?_, ?_, ?_, ?_, ?_, ?_, ?_⟩
    · intro j hruns hg hbytes hnew hfree x
      have hop : d.op = .create := hruns.1.2.2.1
      obtain ⟨hj, -⟩ := freeSlotOf_spec hfree
      obtain ⟨w, hexec, hdone, hsame⟩ := exec_of_acts (c := .deckCreate t.ring t.seq) rfl hruns nofun nofun
        (deckCreate_of_free hbytes hnew hfree) (actsAtHome_updDeck hruns.1.1 (if_pos hop) (f := updSeq j fun _ => x) rfl) hin
      have hx : seqOf (deckOf (updDeck t.grove (updSeq j fun _ => x) s) t.grove) j = x := by rw [deckOf_updDeck_self, seqOf_updSeq_self]
      rw [deckRecord_of_record (by rw [hop]; nofun), handleGrove_handleOf hg hj, handleSlot_handleOf hj, hx] at hdone
      refine ⟨w, hexec, hdone, ((hsame t.grove).seqs j).trans hx, fun k hk => ((hsame t.grove).seqs k).trans ?_⟩
      rw [deckOf_updDeck_self, seqOf_updSeq_ne hk]
    · intro v hruns hprov hlow hhigh hlimit htake htable
      have hop : d.op = .extendCommitted := hruns.1.2.2.1
      have hhome : homeOf t d = g := homeOf_of_named (by rw [hop]; nofun)
      obtain ⟨⟨ps, hlen, hpages⟩, hothers, hops⟩ := takePages_appends htake
      obtain ⟨w, hexec, hdone, hsame⟩ := exec_of_acts (c := .deckExtendCommitted t.ring t.seq) rfl hruns nofun nofun
        (deckExtendCommitted_of_good hprov hlow hhigh hlimit htake htable) (actsAtHome_updDeck hruns.1.1 hhome hops) hin
      rw [deckRecord_of_record (by rw [hop]; nofun), ← hown _ _ hsame] at hdone
      have hseq (k : Nat) : seqOf (deckOf w g) k = seqOf (updSeq i (fun e => { e with committed := e.committed + d.count }) v) k := by
        rw [hown _ _ hsame, deckOf_updDeck_self]
      have hi : seqOf (deckOf w g) i = { e with committed := e.committed + d.count, pages := e.pages ++ ps } := by
        rw [hseq, seqOf_updSeq_self, hpages]
      have hgroups : e.groups = [] := List.length_eq_zero_iff.mp hprov
      refine ⟨w, hexec, hdone, ?_, ?_, ?_, fun m hm => ?_⟩
      · rw [hi]
      · rw [hi]; exact hgroups
      · rw [hi, List.length_append, hlen]
      · rw [hseq, seqOf_updSeq_ne hm, hothers m hm]
    · intro v hruns hlow hprov hlabels hlimit htake htable
      have hop : d.op = .extendProvisional := hruns.1.2.2.1
      have hhome : homeOf t d = g := homeOf_of_named (by rw [hop]; nofun)
      obtain ⟨⟨ps, hlen, hpages⟩, hothers, hops⟩ := takePages_appends htake
      obtain ⟨x, heffect⟩ := deckExtendProvisional_of_good hlow hprov hlabels hlimit htake htable
      obtain ⟨w, hexec, hdone, hsame⟩ := exec_of_acts (c := .deckExtendProvisional t.ring t.seq) rfl hruns nofun nofun heffect
        (actsAtHome_extended x (actsAtHome_updDeck hruns.1.1 hhome hops)) hin
      rw [deckRecord_of_record (by rw [hop]; nofun), ← hown _ _ hsame] at hdone
      have hseq (k : Nat) : seqOf (deckOf w g) k =
          seqOf (updSeq i (fun y => { y with groups := e.groups ++ List.replicate d.count (deckGroup s t) }) v) k := by
        rw [hown _ _ hsame]
        exact congrArg (seqOf · k) (deckOf_updDeck_self ..)
      have hi : seqOf (deckOf w g) i =
          { e with groups := e.groups ++ List.replicate d.count (deckGroup s t), pages := e.pages ++ ps } := by
        rw [hseq, seqOf_updSeq_self, hpages]
      refine ⟨w, hexec, hdone, ?_, ?_, fun m hm => ?_⟩
      · rw [hi]
      · rw [hi]
      · rw [hseq, seqOf_updSeq_ne hm, hothers m hm]
    · intro hruns hcount hopen x
      have hop : d.op = .commit := hruns.1.2.2.1
      have hhome : homeOf t d = g := homeOf_of_named (by rw [hop]; nofun)
      obtain ⟨w, hexec, hdone, hsame⟩ := exec_of_acts (c := .deckCommit t.ring t.seq) rfl hruns nofun nofun
        (deckCommit_of_good hcount hopen) (actsAtHome_updDeck hruns.1.1 hhome rfl) hin
      have hseq (k : Nat) : seqOf (deckOf w g) k = if k = i then x else seqOf (deckOf s g) k := by
        rw [hown _ _ hsame, updNamed, deckOf_updDeck_self, seqOf_updSeq]
      rw [deckRecord_of_record (by rw [hop]; nofun), ← hown _ _ hsame, hseq, if_pos rfl] at hdone
      exact ⟨w, hexec, hdone, (hseq i).trans (if_pos rfl), fun m hm => (hseq m).trans (if_neg hm)⟩
    · intro hruns hopen x
      have hop : d.op = .rollback := hruns.1.2.2.1
      have hhome : homeOf t d = g := homeOf_of_named (by rw [hop]; nofun)
      obtain ⟨w, hexec, hdone, hsame⟩ := exec_of_acts (c := .deckRollback t.ring t.seq) rfl hruns nofun nofun
        (deckRollback_of_good hopen) (actsAtHome_updDeck hruns.1.1 hhome rfl) hin
      have hseq (k : Nat) : seqOf (deckOf w g) k = if k = i then x else seqOf (deckOf s g) k := by
        rw [hown _ _ hsame, updNamed, deckOf_updDeck_self, seqOf_updSeq]
      rw [deckRecord_of_record (by rw [hop]; nofun), ← hown _ _ hsame, hseq, if_pos rfl] at hdone
      exact ⟨w, hexec, hdone, (hseq i).trans (if_pos rfl), fun m hm => (hseq m).trans (if_neg hm)⟩
    · intro hruns x
      have hop : d.op = .release := hruns.1.2.2.1
      have hhome : homeOf t d = g := homeOf_of_named (by rw [hop]; nofun)
      obtain ⟨w, hexec, hdone, hsame⟩ := exec_of_acts (f := deckRelease) (c := .deckRelease t.ring t.seq) rfl hruns nofun nofun rfl
        (actsAtHome_updDeck hruns.1.1 hhome (f := updSeq i fun e => { e with gen := nextGen e.gen, state := .scrubbing }) rfl) hin
      have hseq (k : Nat) : seqOf (deckOf w g) k = if k = i then x else seqOf (deckOf s g) k := by
        rw [hown _ _ hsame, updNamed, deckOf_updDeck_self, seqOf_updSeq]
        rfl
      rw [deckRecord_of_record (by rw [hop]; nofun), ← hown _ _ hsame, hseq, if_pos rfl] at hdone
      exact ⟨w, hexec, hdone, (hseq i).trans (if_pos rfl), fun m hm => (hseq m).trans (if_neg hm)⟩
    · intro j hruns hcount hwhole hnew hfree htable x
      have hop : d.op = .fork := hruns.1.2.2.1
      have hhome : homeOf t d = g := homeOf_of_named (by rw [hop]; nofun)
      have hg : g < 4 := by
        show handleGrove d.handle < 4
        rw [handleGrove]
        omega
      obtain ⟨hj, -⟩ := freeSlotOf_spec hfree
      obtain ⟨w, hexec, hdone, hsame⟩ := exec_of_acts (c := .deckFork t.ring t.seq) rfl hruns nofun nofun
        (deckFork_of_whole hcount hwhole hnew hfree htable) (actsAtHome_updDeck hruns.1.1 hhome rfl) hin
      have hseq (k : Nat) : seqOf (deckOf w g) k = if k = j then x else seqOf (deckOf s g) k := by
        rw [hown _ _ hsame, deckOf_updDeck_self, seqOf_updSeq]
        rfl
      rw [deckRecord_of_record (by rw [hop]; nofun), handleGrove_handleOf hg hj, handleSlot_handleOf hj, ← hown _ _ hsame, hseq,
        if_pos rfl] at hdone
      refine ⟨w, hexec, hdone, (hseq j).trans (if_pos rfl), fun m hm => (hseq m).trans (if_neg hm), (hsame g).refs.trans ?_,
        (hsame g).freeStack.trans ?_⟩
      · rw [deckOf_updDeck_self]; rfl
      · rw [deckOf_updDeck_self]; rfl
    · intro hruns
      have hop : d.op = .query := hruns.1.2.2.1
      obtain ⟨w, hexec, hdone, hsame⟩ := exec_of_acts (f := deckQuery) (c := .deckQuery t.ring t.seq) rfl hruns nofun nofun rfl
        ⟨rfl, keepsTasks_refl hruns.1.1 rfl, fun _ _ => rfl, rfl⟩ hin
      rw [deckRecord, effectRecord, if_pos hop] at hdone
      exact ⟨w, hexec, hdone, hown _ _ hsame⟩
  · have hop := sequenceOp_of_mem (t := t) hmem
    refine ⟨fun u h word w hruns hcells hf => ?_, fun code hworks href hmember habort hin => ?_⟩
    · intro e record v
      have hd : d.op = op := hruns.1.2.2.1
      obtain ⟨habsent, hpresent⟩ := deckStep_of_ok hruns hop.noWrite hop.noRead hf (hop.keeps hruns.1.1 hcells hf)
      have hrecord : deckRecord d u h word = record := by rw [deckRecord, effectRecord, hd]
      rw [hrecord] at habsent hpresent
      exact ⟨fun hno => (hop.exec s).trans (congrArg Host.Outcome.next (habsent hno)),
        fun hyes hwrite => (hop.exec s).trans (congrArg Host.Outcome.next (hpresent hyes w hwrite))⟩
    · have hd : d.op = op := hworks.2.2.1
      obtain ⟨hheld, hmem, hdecks, hquery, hrecord⟩ := refuseDeck_leaves (s := s) (n := n) (code := code) hmember habort hin
      exact ⟨_, (hop.exec s).trans (congrArg Host.Outcome.next ((deckStep_of_works hworks).trans (runDeck_of_refused hworks href))),
        hheld, hmem, fun g => by rw [deckOf, hdecks, ← deckOf], fun h => hquery (hd.trans h), fun h => hrecord (hd ▸ h)⟩

end Sys2Proof.Machine
end

