-- ==== Sys2Proof/Proofs/DeckRows.lean ====
section
/-!
PROOFS. Proofs/DeckRows.lean: rows of a sequence moved between scratch and the page pool, and what a Deck unit does for itself (R204, R205,
R210, R212–R214, R217, R251, R303).
-/

namespace Sys2Proof.Machine

/-! ### The last word of a record -/

theorem natOfBytes_append (xs ys : List Byte) : natOfBytes (xs ++ ys) = natOfBytes xs + 256 ^ xs.length * natOfBytes ys := by
  induction xs with
  | nil => simp [natOfBytes]
  | cons x xs ih =>
    rw [List.cons_append, natOfBytes, natOfBytes, ih, List.length_cons, Nat.pow_succ]
    ring

theorem natOfBytes_lt (xs : List Byte) : natOfBytes xs < 256 ^ xs.length := by
  induction xs with
  | nil => exact Nat.one_pos
  | cons x xs ih =>
    have hx := x.isLt
    rw [natOfBytes, List.length_cons, Nat.pow_succ]
    omega

theorem word_of_resultRecord (h : Nat) (e : SeqEntry) {word : Nat} (hword : word < 2 ^ 32) :
    natOfBytes (resultRecord h e word) / 2 ^ 96 = word := by
  have hhead : (bytesOfNat 4 h ++ bytesOfNat 4 e.committed ++ bytesOfNat 1 (provOf e) ++ bytesOfNat 3 0).length = 12 := by
    simp [length_bytesOfNat]
  have hlow := natOfBytes_lt (bytesOfNat 4 h ++ bytesOfNat 4 e.committed ++ bytesOfNat 1 (provOf e) ++ bytesOfNat 3 0)
  rw [hhead] at hlow
  rw [resultRecord, natOfBytes_append, hhead, natOfBytes_bytesOfNat]
  omega

theorem memRead_memWrite_of_length {bs : List Byte} {k : Nat} (h : bs.length = k) (m : Memory) (a : Nat) : memRead (memWrite m a bs) a k = bs :=
  h ▸ memRead_memWrite m a bs

/-! ### Rows in the page pool -/

section Rows

variable {t : Task} {d : DeckDesc} {n : Nat} {s : State}

/-- A row lies beyond as many bytes as it has: the pool begins after a whole page. -/
theorem rowBytes_le_rowAddr (u : DeckUnit) (e : SeqEntry) (stream tok : Nat) : rowBytes u e ≤ rowAddr u e stream tok := by
  have hbytes : rowBytes u e ≤ 2 ^ u.pageLog2 := Nat.pow_le_pow_right (by decide) (by omega)
  have hpool : 2 ^ u.pageLog2 ≤ poolOffset u := by
    have ha : 0 < max 0x200000 (2 ^ u.pageLog2) := by omega
    have hone : 1 ≤ ceilDiv (0x100000 + 16384 * 2 ^ u.listLog2 + u.poolPages * 8) (max 0x200000 (2 ^ u.pageLog2)) := by
      rw [ceilDiv, Nat.one_le_div_iff ha]
      omega
    calc 2 ^ u.pageLog2 ≤ 1 * max 0x200000 (2 ^ u.pageLog2) := by omega
      _ ≤ poolOffset u := Nat.mul_le_mul_right _ hone
  rw [rowAddr, pageAddr]
  omega

/-- A row whose first byte lies in the near or bulk tier ends before the flash tier. -/
theorem row_below_flash {u : DeckUnit} {e : SeqEntry} {stream tok : Nat}
    (h : regionOf (rowAddr u e stream tok) = .near ∨ regionOf (rowAddr u e stream tok) = .bulk) :
    rowAddr u e stream tok + rowBytes u e ≤ flashBase := by
  have hlow := rowBytes_le_rowAddr u e stream tok
  have hhigh := lt_of_region h
  simp only [bulkBase, bulkSize, flashBase] at hhigh ⊢
  omega

/-! ### Operations that move rows (R210, R212, R213) -/

theorem seqRefusal_of_good (hop : d.op ≠ .create) (h : deckRefusal s t d = none) : seqRefusal s t d.handle = none := by
  simp only [deckRefusal, if_neg hop] at h
  split at h
  · cases h
  · split at h
    · cases h
    · split at h
      · cases h
      · split at h
        · cases h
        · next hnone => exact hnone

/-- The record of an operation that fails on a good handle tells the entry as it stands. -/
theorem failedRecord_of_good (hop : d.op ≠ .create) (h : deckRefusal s t d = none) :
    failedRecord s d = resultRecord d.handle (namedSeq s d) 0 := by
  have hseq := seqRefusal_of_good hop h
  simp only [seqRefusal] at hseq
  split at hseq
  · cases hseq
  · next hgood =>
    obtain ⟨hhandle, hlive, hgen⟩ := not_or.mp hgood |>.imp_right not_or.mp
    rw [failedRecord, if_neg]
    rintro (h | h | h | h)
    · exact hop h
    · exact hhandle h
    · exact hlive h
    · exact hgen h

theorem deckWrite_of_unwritable
    (htable : tableRefusal s (handleGrove d.handle) [] (rowPages (namedSeq s d) (deckRows d d.count)) = none)
    (hrow : ((deckRows d d.count).all fun r => rowWritable s t (deckOf s (handleGrove d.handle)) (namedSeq s d) r.1 r.2 0
      (rowBytes (deckOf s (handleGrove d.handle)) (namedSeq s d))) = false) : deckWrite t d s = .error 0x3809 := by
  simp only [deckWrite, htable, hrow, Bool.false_eq_true, if_false]

theorem deckWrite_of_good
    (htable : tableRefusal s (handleGrove d.handle) [] (rowPages (namedSeq s d) (deckRows d d.count)) = none)
    (hrow : ((deckRows d d.count).all fun r => rowWritable s t (deckOf s (handleGrove d.handle)) (namedSeq s d) r.1 r.2 0
      (rowBytes (deckOf s (handleGrove d.handle)) (namedSeq s d))) = true)
    (hstakes : rowsRefusal s (deckOf s (handleGrove d.handle)) (namedSeq s d) (deckRows d d.count) = none) :
    deckWrite t d s = .ok (s, d.handle, 0) := by
  simp only [deckWrite, htable, hrow, if_true, hstakes]

theorem deckRead_of_good (hstreams : d.streamFirst + d.streamCount ≤ 2 ^ (namedSeq s d).streamsLog2)
    (hstakes : rowsRefusal s (deckOf s (handleGrove d.handle)) (namedSeq s d) (deckRows d (readTokens (namedSeq s d) d)) = none) :
    deckRead t d s = .ok (s, d.handle, readTokens (namedSeq s d) d) := by
  simp only [deckRead, if_neg (Nat.not_lt.mpr hstreams), hstakes]

theorem afterEffect_of_rows {t1 : Task} {rec tokens : Nat} {v w : State} (hop : d.op = .write ∨ d.op = .read) (hends : t1.ends = none)
    (hprogress : t1.progress = 0) (htokens : (if d.op = .write then d.count else rec / 2 ^ 96) = tokens)
    (hmove : moveRows t1 d n (deckRows d tokens) v = (.done (), w)) : afterEffect t1 d n rec v = deckResult t1 d n 16 rec w := by
  have hmoves : (d.op = .write ∨ d.op = .read) ∧ t1.ends.isNone := ⟨hop, by rw [hends]; rfl⟩
  have hquery : d.op ≠ .query := by rcases hop with h | h <;> rw [h] <;> nofun
  simp only [afterEffect, htokens, if_pos hmoves, hprogress, List.drop_zero, hmove, if_neg hquery]

/-- An operation that moves rows, once they have moved, to the end of its task. -/
theorem deckStep_of_rows {op : DeckOp} {f : Task → DeckDesc → State → DeckEffect} (hruns : DeckRuns op t d n s)
    (hop : op = .write ∨ op = .read) (hprogress : t.progress = 0) {word tokens : Nat} {w : State} (hf : f t d s = .ok (s, d.handle, word))
    (htokens : (if op = .write then d.count else word) = tokens) (hword : word < 2 ^ 32)
    (hmove : moveRows { t with snapshot := some (natOfBytes (resultRecord d.handle (namedSeq s d) word)) } d n (deckRows d tokens)
      (begunDeck t d (resultRecord d.handle (namedSeq s d) word) s) = (.done (), w)) :
    (hasResult d = false → deckStep op f t.ring t.seq s = markWorkDone t.ring t.seq w) ∧
    (∀ x, hasResult d = true → fieldWrite (moveRequester t n) d.result (resultRecord d.handle (namedSeq s d) word) w = (.done (), x) →
      deckStep op f t.ring t.seq s = markWorkDone t.ring t.seq x) := by
  obtain ⟨hworks, hgood⟩ := hruns
  have hd : d.op = op := hworks.2.2.1
  have hends : t.ends = none := by
    obtain ⟨-, -, -, -, -, -, -, -, hends, -⟩ := hworks
    exact hends
  have hquery : d.op ≠ .query := by rw [hd]; rcases hop with h | h <;> rw [h] <;> nofun
  have hrecord : deckRecord d s d.handle word = resultRecord d.handle (namedSeq s d) word := deckRecord_of_record hquery ..
  have hfind := findTask_begunDeck (d := d) (u := s) (xs := t.extended) hworks.1 (resultRecord d.handle (namedSeq s d) word)
  have hsame : SameWork t { t with snapshot := some (natOfBytes (resultRecord d.handle (namedSeq s d) word)) } := ⟨rfl, rfl, fun _ => rfl, hends⟩
  have hrun := runDeck_of_ok hworks hgood hf (hrecord ▸ hfind)
  rw [hrecord] at hrun
  have hafter := afterEffect_of_rows (rec := natOfBytes (resultRecord d.handle (namedSeq s d) word)) (tokens := tokens)
    (t1 := { t with snapshot := some (natOfBytes (resultRecord d.handle (namedSeq s d) word)) }) (hd ▸ hop) hends hprogress
    (by rw [word_of_resultRecord _ _ hword, hd]; exact htokens) hmove
  have hstep := (deckStep_of_works (f := f) hworks).trans (hrun.trans hafter)
  rw [hstep]
  refine ⟨fun hno => deckResult_of_absent hsame hno .., fun x hyes hwrite => deckResult_of_written hsame hyes ?_⟩
  rw [← length_resultRecord d.handle (namedSeq s d) word, bytesOfNat_natOfBytes]
  exact hwrite

/-! ### One row moved -/

/-- A state whose tasks and Deck units may be other than another's, with the same scatters around. -/
structure SameBut (s v : State) : Prop where
  beyond : v = { s with tasks := v.tasks, decks := v.decks }
  scatters : ∀ q, scattersAround s q = [] → scattersAround v q = []

theorem sameBut_begunDeck (rec : List Byte) : SameBut s (begunDeck t d rec s) where
  beyond := rfl
  scatters q h := by
    simp only [scattersAround, List.filter_eq_nil_iff] at h ⊢
    intro x hx
    obtain ⟨y, hy, rfl⟩ := List.mem_map.mp hx
    have hnot := h y hy
    split <;> exact hnot

theorem servesWrite_of_sameBut {v : State} (h : SameBut s v) {q : Requester} {pa k : Nat} (hs : ServesWrite q pa k s) : ServesWrite q pa k v := by
  obtain ⟨hregion, hcells, hscatters, hpieces⟩ := hs
  have hv := h.beyond
  refine ⟨hregion, ?_, h.scatters q hscatters, fun p hp => ?_⟩
  · rw [hv]; exact hcells
  · have hpiece := hpieces p hp
    rw [hv]
    exact hpiece

theorem servesRead_of_sameBut {v : State} (h : SameBut s v) {q : Requester} {pa k : Nat} (hs : ServesRead q pa k s) : ServesRead q pa k v := by
  obtain ⟨hregion, hrest⟩ := hs
  have hv := h.beyond
  refine ⟨hregion, ?_⟩
  rw [hv]
  exact hrest

theorem inPlain_of_sameBut {v : State} (h : SameBut s v) {pa k : Nat} (hs : InPlain s pa k) : InPlain v pa k := by
  have hv := h.beyond
  intro p hp
  have hkey := hs p hp
  rw [hv]
  exact hkey

theorem deckRows_one (hstreams : d.streamCount = 1) : deckRows d 1 = [(d.streamFirst, d.first)] := by
  simp [deckRows, hstreams]

/-- A row and its entry are told alike once the operation is counted. -/
theorem row_begunDeck (rec : List Byte) (stream tok : Nat) :
    let u := deckOf s (handleGrove d.handle)
    let v := begunDeck t d rec s
    namedSeq v d = namedSeq s d ∧ rowBytes (deckOf v (handleGrove d.handle)) (namedSeq s d) = rowBytes u (namedSeq s d) ∧
      rowAddr (deckOf v (handleGrove d.handle)) (namedSeq s d) stream tok = rowAddr u (namedSeq s d) stream tok := by
  intro u v
  obtain ⟨k, hdeck⟩ : ∃ k, deckOf v (handleGrove d.handle) = { u with ops := k } := by
    show ∃ k, deckOf (countDeckOp (homeOf t d) s) _ = _
    rw [countDeckOp, deckOf_updDeck]
    split
    · next h => exact ⟨_, by rw [← h]⟩
    · exact ⟨u.ops, rfl⟩
  refine ⟨?_, ?_, ?_⟩
  · rw [namedSeq, hdeck]; rfl
  · rw [hdeck]; rfl
  · rw [hdeck]; rfl

theorem fieldRead_of_scratch {q : Requester} {a k : Nat} (ha : addrScratch a = true) (hk : 0 < k) (v : State) :
    fieldRead q a k v = (.done (scratchRead v q.bench (addrOffset a) k), v) := by
  rw [fieldRead, if_neg (by omega), if_pos ha]

/-- The row that a WRITE moves: its bytes stand in the pool, and no other byte of memory and no task changed. -/
theorem moveRows_write {t1 : Task} {v : State} (hop : d.op = .write) (hdata : addrScratch d.data = true) {u : DeckUnit} {e : SeqEntry}
    (hu : deckOf v (handleGrove d.handle) = u) (he : namedSeq v d = e) (hbytes : 0 < rowBytes u e)
    (hserves : ServesWrite rowRequester (rowAddr u e d.streamFirst d.first) (rowBytes u e) v)
    (hplain : InPlain v (rowAddr u e d.streamFirst d.first) (rowBytes u e)) :
    ∃ x, moveRows t1 d n [(d.streamFirst, d.first)] v =
        (.done (), updTask t1.ring t1.seq (fun t => { t with progress := t.progress + 1 }) x) ∧
      x.tasks = v.tasks ∧ x.scratch = v.scratch ∧
      x.mem = memWrite v.mem (rowAddr u e d.streamFirst d.first) (scratchRead v n (addrOffset d.data) (rowBytes u e)) := by
  subst hu he
  generalize hbs : scratchRead v n (addrOffset d.data) (rowBytes (deckOf v (handleGrove d.handle)) (namedSeq v d)) = bs
  have hlen : bs.length = rowBytes (deckOf v (handleGrove d.handle)) (namedSeq v d) := by rw [← hbs]; exact length_memRead ..
  rw [← hlen] at hserves hplain
  obtain ⟨x, hwrite, hmoved, hmem⟩ := physWrite_of_serves hserves
  refine ⟨x, ?_, hmoved.tasks, hmoved.scratch, hmem hplain⟩
  simp only [moveRows, if_pos hop, Nat.sub_self, Nat.zero_mul, Nat.add_zero, fieldRead_of_scratch hdata hbytes]
  rw [show (moveRequester t1 n).bench = n from rfl, hbs]
  simp only [Reply.andThen, rowWrite, Nat.add_zero, hwrite]

/-- The row that a READ moves: its bytes stand in scratch, and no other byte of scratch and no task changed. -/
theorem moveRows_read {t1 : Task} {v : State} (hop : d.op ≠ .write) (hdata : addrScratch d.data = true) {u : DeckUnit} {e : SeqEntry}
    (hu : deckOf v (handleGrove d.handle) = u) (he : namedSeq v d = e) (hbytes : 0 < rowBytes u e)
    (hserves : ServesRead rowRequester (rowAddr u e d.streamFirst d.first) (rowBytes u e) v)
    (hplain : InPlain v (rowAddr u e d.streamFirst d.first) (rowBytes u e)) :
    moveRows t1 d n [(d.streamFirst, d.first)] v = (.done (), updTask t1.ring t1.seq (fun t => { t with progress := t.progress + 1 })
      (scratchWrite n (addrOffset d.data) (memRead v.mem (rowAddr u e d.streamFirst d.first) (rowBytes u e)) v)) := by
  subst hu he
  have hread := physRead_of_serves hserves
  rw [plainRead_of_plain hplain (row_below_flash hserves.1)] at hread
  have hsome : (memRead v.mem (rowAddr (deckOf v (handleGrove d.handle)) (namedSeq v d) d.streamFirst d.first)
      (rowBytes (deckOf v (handleGrove d.handle)) (namedSeq v d))).isEmpty = false :=
    List.isEmpty_eq_false_iff.mpr (List.ne_nil_of_length_pos (by rw [length_memRead]; exact hbytes))
  simp only [moveRows, if_neg hop, Nat.sub_self, Nat.zero_mul, Nat.add_zero, rowRead, hread, Reply.andThen, fieldWrite, hsome,
    Bool.false_eq_true, if_false, hdata, if_true]
  rfl

/-- What the row of a READ leaves. -/
theorem moveRows_read_into {t1 : Task} {v : State} (hop : d.op ≠ .write) (hdata : addrScratch d.data = true) {u : DeckUnit} {e : SeqEntry}
    (hu : deckOf v (handleGrove d.handle) = u) (he : namedSeq v d = e) (hbytes : 0 < rowBytes u e)
    (hserves : ServesRead rowRequester (rowAddr u e d.streamFirst d.first) (rowBytes u e) v)
    (hplain : InPlain v (rowAddr u e d.streamFirst d.first) (rowBytes u e)) :
    ∃ x, moveRows t1 d n [(d.streamFirst, d.first)] v = (.done (), updTask t1.ring t1.seq (fun t => { t with progress := t.progress + 1 }) x) ∧
      x.tasks = v.tasks ∧ x.mem = v.mem ∧ x.scratch = memWrite v.scratch (n * scratchSize + addrOffset d.data)
        (memRead v.mem (rowAddr u e d.streamFirst d.first) (rowBytes u e)) :=
  ⟨_, moveRows_read hop hdata hu he hbytes hserves hplain, rfl, rfl, rfl⟩

end Rows

/-! ### The Deck unit for itself (R205, R214, R217, R251) -/

section Units

variable {g i : Nat} {s : State}

theorem deckCtlWrite_of_enable {v : Nat} (hoff : (deckOf s g).enable = false) (hidle : (deckOf s g).zeroing = false) (hv : bitOf v 0 = true) :
    deckCtlWrite g v s =
      let u := { deckOf s g with pageLog2 := bitsOf v 20 16, listLog2 := bitsOf v 12 8 }
      updDeck g (fun x => if deckConfigGood s u then { x with zeroing := true, configErr := false } else { x with configErr := true })
        (updDeck g (fun _ => u) s) := by
  have hgo : ((deckOf s g).enable || (deckOf s g).zeroing) = false := by rw [hoff, hidle]; rfl
  have hsame (u : DeckUnit) : deckConfigGood (updDeck g (fun _ => u) s) u = deckConfigGood s u := rfl
  simp only [deckCtlWrite, hgo, hv, Bool.not_true, Bool.false_eq_true, if_false, hsame]
  split <;> rfl

/-- A page dropped changes its unit's counts and free stack, and memory, at most. -/
theorem dropPage_keeps (g : Nat) (s : State) (p : Nat) :
    (∀ k, (deckOf (dropPage g s p) k).seqs = (deckOf s k).seqs) := by
  have hupd (f : DeckUnit → DeckUnit) (hf : ∀ u, (f u).seqs = u.seqs) (v : State) (k : Nat) :
      (deckOf (updDeck g f v) k).seqs = (deckOf v k).seqs := by
    rw [deckOf_updDeck]
    split
    · next h => rw [hf, h]
    · rfl
  have hreport (c : W16) (pa : Nat) (v : State) (k : Nat) : deckOf (reportDeck g c pa v) k = deckOf v k := by
    rw [deckOf, reportDeck, report_decks, ← deckOf]
  intro k
  simp only [dropPage]
  split
  · rw [hreport]
  · split
    · simp only [freePage]
      split
      · rw [hreport]
        exact hupd _ (by intro _; rfl) s k
      · exact (hupd _ (by intro _; rfl) _ k).trans (hupd _ (by intro _; rfl) s k)
    · exact hupd _ (by intro _; rfl) s k

theorem seqs_foldl_dropPage (g : Nat) (ps : List Nat) (s : State) (k : Nat) : (deckOf (ps.foldl (dropPage g) s) k).seqs = (deckOf s k).seqs :=
  List.foldlRecOn (motive := fun t => (deckOf t k).seqs = (deckOf s k).seqs) _ _ rfl fun _ ht _ _ => (dropPage_keeps ..).trans ht

theorem deckScrubDone_of_due (hscrub : (seqOf (deckOf s g) i).state = .scrubbing) (huse : seqInUse s g i = false)
    (hbusy : (s.groveResets.get {} g).busy = false) (htable : tableRefusal s g [i] [] = none) :
    deckScrubDone g i s = updDeck g (updSeq i fun e => { gen := e.gen, state := if e.gen = 0xFFFF then .retired else .free })
      ((seqOf (deckOf s g) i).pages.foldl (dropPage g) s) := by
  have hgo : ¬((seqOf (deckOf s g) i).state ≠ .scrubbing ∨ seqInUse s g i = true ∨ (s.groveResets.get {} g).busy = true) := by
    simp [hscrub, huse, hbusy]
  simp only [deckScrubDone, if_neg hgo, htable]

theorem dropPage_of_last {p : Nat} (htable : tableRefusal s g [] [p] = none) (href : (deckOf s g).refs.get 0 p = 1)
    (hserved : accessRefusal s rowRequester true (pageAddr (deckOf s g) p) (2 ^ (deckOf s g).pageLog2) = none) :
    (deckOf (dropPage g s p) g).freeStack = p :: (deckOf s g).freeStack ∧
      (dropPage g s p).mem = memZero s.mem (pageAddr (deckOf s g) p) (2 ^ (deckOf s g).pageLog2) := by
  have hserved' (x : DeckUnit → DeckUnit) : accessRefusal (updDeck g x s) rowRequester true (pageAddr (deckOf s g) p)
      (2 ^ (deckOf s g).pageLog2) = none := hserved
  have hunit : deckOf (updDeck g (fun u => { u with refs := u.refs.set 0 p ((deckOf s g).refs.get 0 p - 1) }) s) g =
      { deckOf s g with refs := (deckOf s g).refs.set 0 p ((deckOf s g).refs.get 0 p - 1) } := deckOf_updDeck_self ..
  have hzero : (deckOf s g).refs.get 0 p - 1 = 0 := by rw [href]
  have haddr : pageAddr { deckOf s g with refs := (deckOf s g).refs.set 0 p ((deckOf s g).refs.get 0 p - 1) } p = pageAddr (deckOf s g) p := rfl
  have hdrop : dropPage g s p = updDeck g (fun u => { u with freeStack := p :: u.freeStack }) (zeroRange (pageAddr (deckOf s g) p)
      (2 ^ (deckOf s g).pageLog2) (updDeck g (fun u => { u with refs := u.refs.set 0 p ((deckOf s g).refs.get 0 p - 1) }) s)) := by
    simp only [dropPage, htable, if_pos hzero, freePage, hunit, haddr, hserved']
  rw [hdrop]
  refine ⟨?_, rfl⟩
  rw [deckOf_updDeck_self]
  exact (congrArg (fun u : DeckUnit => p :: u.freeStack) hunit :)

theorem dropPage_of_shared {p : Nat} (htable : tableRefusal s g [] [p] = none) (href : 1 < (deckOf s g).refs.get 0 p) :
    dropPage g s p = updDeck g (fun u => { u with refs := u.refs.set 0 p ((deckOf s g).refs.get 0 p - 1) }) s := by
  have hleft : (deckOf s g).refs.get 0 p - 1 ≠ 0 := by omega
  simp only [dropPage, htable, if_neg hleft]

/-- Groups that become free change neither memory nor the Deck units. -/
theorem freeGroup_keeps (k : Nat) (s : State) : (freeGroup k s).mem = s.mem ∧ (freeGroup k s).decks = s.decks := by
  simp only [freeGroup]
  split
  · split <;> exact ⟨rfl, rfl⟩
  · split
    · split <;> exact ⟨rfl, rfl⟩
    · exact ⟨rfl, rfl⟩
  · exact ⟨rfl, rfl⟩
  · exact ⟨rfl, rfl⟩

/-- A group's action on a sequence that is still live changes the labels of its provisional tokens. -/
theorem groupAction_of_live {st : GroupState} {f : List Nat → List Nat} {h k : Nat} (hstate : (groupOf s k).state = st)
    (hpending : (groupOf s k).deckPending.contains h = true) (hbusy : (s.groveResets.get {} (handleGrove h)).busy = false)
    (hlive : (seqOf (deckOf s (handleGrove h)) (handleSlot h)).state = .live)
    (hgen : (seqOf (deckOf s (handleGrove h)) (handleSlot h)).gen = handleGen h)
    (hplaces : placesRefusal s [((deckOf s (handleGrove h)).areaBase + 64 * handleSlot h, 64)] = none) :
    seqOf (deckOf (groupAction st f h k s) (handleGrove h)) (handleSlot h) =
        { seqOf (deckOf s (handleGrove h)) (handleSlot h) with groups := f (seqOf (deckOf s (handleGrove h)) (handleSlot h)).groups } ∧
      (groupAction st f h k s).mem = s.mem := by
  have hgo : ¬((groupOf s k).state ≠ st ∨ (!(groupOf s k).deckPending.contains h) = true ∨ (s.groveResets.get {} (handleGrove h)).busy = true) := by
    rw [hpending, hbusy]
    simp [hstate]
  have haction : groupAction st f h k s = freeGroup k (updGroup k (fun x => { x with deckPending := x.deckPending.filter fun y => y != h })
      (updDeck (handleGrove h) (updSeq (handleSlot h) fun e => { e with groups := f e.groups }) s)) := by
    simp only [groupAction, if_neg hgo, if_pos (And.intro hlive hgen), hplaces]
  obtain ⟨hmem, hdecks⟩ := freeGroup_keeps k (updGroup k (fun x => { x with deckPending := x.deckPending.filter fun y => y != h })
    (updDeck (handleGrove h) (updSeq (handleSlot h) fun e => { e with groups := f e.groups }) s))
  rw [haction, hmem]
  refine ⟨?_, rfl⟩
  rw [deckOf, hdecks]
  show seqOf (deckOf (updDeck (handleGrove h) (updSeq (handleSlot h) fun e => { e with groups := f e.groups }) s) (handleGrove h)) _ = _
  rw [deckOf_updDeck_self, seqOf_updSeq_self]

/-- `DECK_CTL.ENABLE` of an idle unit begins the zeroing of its area, or sets CONFIG_ERR (R205). -/
theorem deckEnable_begins {g : Nat} {v : W64} {s : State} :
    g < 4 → inService s = true → (deckOf s g).enable = false → (deckOf s g).zeroing = false → v.getLsbD 0 = true →
      let u := { deckOf s g with pageLog2 := bitsOf v.toNat 20 16, listLog2 := bitsOf v.toNat 12 8 }
      ∃ t, exec (.deckEnable g v) s = .next t ∧
        deckOf t g = (if deckConfigGood s u then { u with zeroing := true, configErr := false } else { u with configErr := true }) ∧
        (∀ h, h ≠ g → deckOf t h = deckOf s h) ∧ t.mem = s.mem := by
  intro hg hin hoff hidle hv u
  have hexec : exec (.deckEnable g v) s = .next (deckCtlWrite g v.toNat s) := congrArg Host.Outcome.next (if_pos ⟨hg, hin⟩)
  refine ⟨_, hexec.trans (congrArg Host.Outcome.next (deckCtlWrite_of_enable hoff hidle (getLsbD_eq_bitOf v 0 ▸ hv))), ?_, fun h hh => ?_, rfl⟩
  · dsimp only
    rw [deckOf_updDeck_self, deckOf_updDeck_self]
  · dsimp only
    rw [deckOf_updDeck, if_neg hh, deckOf_updDeck, if_neg hh]

/-- The end of the zeroing enables the unit over an area of zeros (R205). -/
theorem deckZeroingDone_enables {g : Nat} {s : State} :
    (deckOf s g).zeroing = true → ∃ t, exec (.deckZeroingDone g) s = .next t ∧
      deckOf t g = { deckOf s g with zeroing := false, enable := true } ∧
      (∀ a, (deckOf s g).areaBase ≤ a → a < (deckOf s g).areaBase + areaBytes (deckOf s g) → memGet t.mem a = 0) ∧
      (∀ a, a < (deckOf s g).areaBase ∨ (deckOf s g).areaBase + areaBytes (deckOf s g) ≤ a → memGet t.mem a = memGet s.mem a) := by
  intro hzero
  have hdone : deckZeroingDone g s = updDeck g (fun u => { u with zeroing := false, enable := true })
      (zeroRange (deckOf s g).areaBase (areaBytes (deckOf s g)) s) := by
    simp only [deckZeroingDone, hzero, Bool.not_true, Bool.false_eq_true, if_false]
  refine ⟨_, congrArg Host.Outcome.next hdone, deckOf_updDeck_self .., fun a hlow hhigh => ?_, fun a ha => ?_⟩
  · exact (memGet_memZero ..).trans (if_pos ⟨hlow, hhigh⟩)
  · exact memGet_memZero_of_out _ _ _ ha

/-- A scrubbed sequence is FREE or RETIRED; its page is zeroed and freed, or loses a reference (R214). -/
theorem deckScrubDone_frees {g i : Nat} {s : State} :
    (seqOf (deckOf s g) i).state = .scrubbing → seqInUse s g i = false → (s.groveResets.get {} g).busy = false → tableRefusal s g [i] [] = none →
      ∃ t, exec (.deckScrubDone g i) s = .next t ∧ seqOf (deckOf t g) i =
        { gen := (seqOf (deckOf s g) i).gen, state := if (seqOf (deckOf s g) i).gen = 0xFFFF then .retired else .free } ∧
        (∀ k, k ≠ i → seqOf (deckOf t g) k = seqOf (deckOf s g) k) ∧
        ((seqOf (deckOf s g) i).pages = [] → t.mem = s.mem) ∧
        ∀ p, (seqOf (deckOf s g) i).pages = [p] → tableRefusal s g [] [p] = none →
          ((deckOf s g).refs.get 0 p = 1 → accessRefusal s rowRequester true (pageAddr (deckOf s g) p) (2 ^ (deckOf s g).pageLog2) = none →
            (deckOf t g).freeStack = p :: (deckOf s g).freeStack ∧ ∀ a, memGet t.mem a =
            (if pageAddr (deckOf s g) p ≤ a ∧ a < pageAddr (deckOf s g) p + 2 ^ (deckOf s g).pageLog2 then 0 else memGet s.mem a)) ∧
          (1 < (deckOf s g).refs.get 0 p → (deckOf t g).refs.get 0 p = (deckOf s g).refs.get 0 p - 1 ∧ t.mem = s.mem ∧
            (deckOf t g).freeStack = (deckOf s g).freeStack) := by
  intro hscrub huse hbusy htable
  have hseqs (k : Nat) : seqOf (deckOf ((seqOf (deckOf s g) i).pages.foldl (dropPage g) s) g) k = seqOf (deckOf s g) k := by
    rw [seqOf, seqs_foldl_dropPage, ← seqOf]
  refine ⟨_, congrArg Host.Outcome.next (deckScrubDone_of_due hscrub huse hbusy htable), ?_, fun k hk => ?_, fun hnone => ?_,
    fun p hp hpage => ⟨fun href hserved => ?_, fun href => ?_⟩⟩
  · rw [deckOf_updDeck_self, seqOf_updSeq_self, hseqs]
  · rw [deckOf_updDeck_self, seqOf_updSeq_ne hk, hseqs]
  · rw [hnone]; rfl
  · obtain ⟨hstack, hmem⟩ := dropPage_of_last hpage href hserved
    rw [hp, List.foldl_cons, List.foldl_nil, deckOf_updDeck_self]
    refine ⟨hstack, fun a => ?_⟩
    show memGet (dropPage g s p).mem a = _
    rw [hmem, memGet_memZero]
  · rw [hp, List.foldl_cons, List.foldl_nil, deckOf_updDeck_self, dropPage_of_shared hpage href]
    refine ⟨?_, rfl, ?_⟩
    · show (deckOf (updDeck g _ s) g).refs.get 0 p = _
      rw [deckOf_updDeck_self]
      exact Table.get_set_self ..
    · show (deckOf (updDeck g _ s) g).freeStack = _
      rw [deckOf_updDeck_self]

/-- A truncation drops a group's provisional tokens, a relabel confirms them (R251). -/
theorem deckGroups_settle {g i : Nat} {s : State} (h k : Nat) : handleGrove h = g → handleSlot h = i →
    (seqOf (deckOf s g) i).state = .live → (seqOf (deckOf s g) i).gen = handleGen h →
      (groupOf s k).deckPending.contains h = true → (s.groveResets.get {} g).busy = false →
      placesRefusal s [((deckOf s g).areaBase + 64 * i, 64)] = none →
      ((groupOf s k).state = .squashing → ∃ t, exec (.deckTruncation h k) s = .next t ∧
        (seqOf (deckOf t g) i).groups = (seqOf (deckOf s g) i).groups.takeWhile (fun x => x != k) ∧
        (seqOf (deckOf t g) i).committed = (seqOf (deckOf s g) i).committed ∧ t.mem = s.mem) ∧
      ((groupOf s k).state = .confirming → ∃ t, exec (.deckRelabel h k) s = .next t ∧
        (seqOf (deckOf t g) i).groups = (seqOf (deckOf s g) i).groups.map (fun x => if x = k then 0 else x) ∧
        (seqOf (deckOf t g) i).committed = (seqOf (deckOf s g) i).committed ∧ t.mem = s.mem) := by
  intro hg hi hlive hgen hpending hbusy hplaces
  subst hg hi
  refine ⟨fun hstate => ?_, fun hstate => ?_⟩
  · obtain ⟨hseq, hmem⟩ := groupAction_of_live (f := fun l => l.takeWhile fun x => x != k) hstate hpending hbusy hlive hgen hplaces
    exact ⟨_, rfl, (congrArg SeqEntry.groups hseq :), (congrArg SeqEntry.committed hseq :), hmem⟩
  · obtain ⟨hseq, hmem⟩ := groupAction_of_live (f := fun l => l.map fun x => if x = k then 0 else x) hstate hpending hbusy hlive hgen hplaces
    exact ⟨_, rfl, (congrArg SeqEntry.groups hseq :), (congrArg SeqEntry.committed hseq :), hmem⟩

end Units

/-- Settles O43: the rows of a WRITE or READ by the moves of their row, and what a Deck unit does for itself by the case it meets. -/
theorem deckRowsAndUnits : Obligations.DeckRowsAndUnits := by
  unfold Obligations.DeckRowsAndUnits
  refine ⟨fun t d n s => ?_, fun g i v s => ?_⟩
  · intro g u e pages stakes writable begun ends wrote read
    have hbegun (hop : d.op ≠ .create) (rec : List Byte) : begunDeck t d rec s = begun rec := by rw [begunDeck, homeOf_of_named hop]
    have hworkDone (rec : List Byte) (x : State) (hx : x.tasks = (begunDeck t d rec s).tasks) (hfind : findTask s t.ring t.seq = some t) :
        (findTask (markWorkDone t.ring t.seq (updTask t.ring t.seq (fun t => { t with progress := t.progress + 1 }) x)) t.ring t.seq).map
          (·.workDone) = some true := by
      have hown : findTask x t.ring t.seq = some { t with snapshot := some (natOfBytes rec) } := by
        rw [findTask, hx]
        exact findTask_begunDeck (xs := t.extended) hfind rec
      have hself := findTask_updTask_self (r := t.ring) (seq := t.seq) (f := fun t => { t with progress := t.progress + 1 }) (by intro _; rfl) x
      rw [hown] at hself
      exact workDone_markWorkDone hself
    refine ⟨?_, ?_, ?_, ?_, ?_⟩
    · intro hruns htable hrow hmember habort hin
      have hop : d.op = .write := hruns.1.2.2.1
      obtain ⟨hheld, hmem, -, -, hrecord⟩ := refuseDeck_leaves (s := s) (n := n) (code := 0x3809) hmember habort hin
      refine ⟨_, congrArg Host.Outcome.next ((deckStep_of_works hruns.1).trans
        (runDeck_of_refused hruns.1 (.inr ⟨hruns.2, deckWrite_of_unwritable htable hrow⟩))), hheld, hmem, ?_⟩
      have hfailed := hrecord (by rw [hop]; nofun)
      rw [failedRecord_of_good (by rw [hop]; nofun) hruns.2] at hfailed
      exact hfailed
    · intro w hruns hprogress htable hstakes hrow hmove
      have hop : d.op = .write := hruns.1.2.2.1
      rw [← hbegun (by rw [hop]; nofun)] at hmove
      obtain ⟨habsent, hwritten⟩ := deckStep_of_rows hruns (.inl rfl) hprogress (deckWrite_of_good htable hrow hstakes) (if_pos rfl) (by decide)
        hmove
      exact ⟨fun hno => congrArg Host.Outcome.next (habsent hno), fun x hyes hwrite => congrArg Host.Outcome.next (hwritten x hyes hwrite)⟩
    · intro w hruns hprogress hstreams htokens hstakes hmove
      have hop : d.op = .read := hruns.1.2.2.1
      rw [← hbegun (by rw [hop]; nofun)] at hmove
      obtain ⟨habsent, hwritten⟩ := deckStep_of_rows hruns (.inr rfl) hprogress (deckRead_of_good hstreams hstakes) (if_neg (by decide)) htokens
        hmove
      exact ⟨fun hno => congrArg Host.Outcome.next (habsent hno), fun x hyes hwrite => congrArg Host.Outcome.next (hwritten x hyes hwrite)⟩
    · intro hruns hprogress hcount hstreams hno htable hstakes hrow hdata hbytes hserves hplain
      have hop : d.op = .write := hruns.1.2.2.1
      have hone := deckRows_one hstreams
      have hsame := sameBut_begunDeck (t := t) (d := d) (s := s) wrote
      obtain ⟨hseq, hrowBytes, hrowAddr⟩ := row_begunDeck (t := t) (d := d) (s := s) wrote d.streamFirst d.first
      obtain ⟨x, hmove, htasks, hscratch, hmem⟩ := moveRows_write (n := n) (t1 := { t with snapshot := some (natOfBytes wrote) }) hop hdata rfl hseq
        (by rw [hrowBytes]; exact hbytes) (by rw [hrowAddr, hrowBytes]; exact servesWrite_of_sameBut hsame hserves)
        (by rw [hrowAddr, hrowBytes]; exact inPlain_of_sameBut hsame hplain)
      rw [hrowAddr, hrowBytes] at hmem
      rw [← hone] at hmove
      have hrow' : ((deckRows d d.count).all fun r => rowWritable s t u e r.1 r.2 0 (rowBytes u e)) = true := by
        rw [hcount, hone]
        simp [hrow]
      have hstep := (deckStep_of_rows (tokens := d.count) hruns (.inl rfl) hprogress (deckWrite_of_good (by rw [hcount]; exact htable) hrow'
        (by rw [hcount]; exact hstakes)) (if_pos rfl) (by decide) (by rw [hcount]; exact hmove)).1 hno
      have hlen : (scratchRead s n (addrOffset d.data) (rowBytes u e)).length = rowBytes u e := length_memRead ..
      have hmem' : x.mem = memWrite s.mem (rowAddr u e d.streamFirst d.first) (scratchRead s n (addrOffset d.data) (rowBytes u e)) := hmem
      refine ⟨_, congrArg Host.Outcome.next hstep, hworkDone wrote x htasks hruns.1.1, ?_, fun a ha => ?_, hscratch⟩
      · show memRead x.mem _ _ = _
        rw [hmem']
        exact memRead_memWrite_of_length hlen ..
      · show memGet x.mem a = _
        rw [hmem']
        exact memGet_memWrite_of_out _ _ _ (by rw [hlen]; exact ha)
    · intro hruns hprogress htokens hstreams hlow hno hstakes hdata hbytes hserves hplain
      have hop : d.op = .read := hruns.1.2.2.1
      have hone := deckRows_one hstreams
      have hsame := sameBut_begunDeck (t := t) (d := d) (s := s) read
      obtain ⟨hseq, hrowBytes, hrowAddr⟩ := row_begunDeck (t := t) (d := d) (s := s) read d.streamFirst d.first
      obtain ⟨x, hmove, htasks, hmem, hscratch⟩ := moveRows_read_into (n := n) (t1 := { t with snapshot := some (natOfBytes read) })
        (by rw [hop]; nofun) hdata rfl hseq
        (by rw [hrowBytes]; exact hbytes) (by rw [hrowAddr, hrowBytes]; exact servesRead_of_sameBut hsame hserves)
        (by rw [hrowAddr, hrowBytes]; exact inPlain_of_sameBut hsame hplain)
      rw [← hone] at hmove
      rw [hrowAddr, hrowBytes] at hscratch
      have hread : deckRead t d s = .ok (s, d.handle, readTokens e d) :=
        deckRead_of_good (by rw [hstreams]; exact hlow) (by
          show rowsRefusal s u e (deckRows d (readTokens e d)) = none
          rw [htokens]
          exact hstakes)
      have hstep := (deckStep_of_rows (tokens := 1) hruns (.inr rfl) hprogress hread ((if_neg (by decide)).trans htokens)
        (by rw [htokens]; decide) hmove).1 hno
      have hlen : (memRead s.mem (rowAddr u e d.streamFirst d.first) (rowBytes u e)).length = rowBytes u e := length_memRead ..
      have hscratch' : x.scratch = memWrite s.scratch (n * scratchSize + addrOffset d.data)
        (memRead s.mem (rowAddr u e d.streamFirst d.first) (rowBytes u e)) := hscratch
      refine ⟨_, congrArg Host.Outcome.next hstep, hworkDone read x htasks hruns.1.1, hmem, ?_, fun a ha => ?_⟩
      · show memRead x.scratch _ _ = _
        rw [hscratch']
        exact memRead_memWrite_of_length hlen ..
      · show memGet x.scratch a = _
        rw [hscratch']
        exact memGet_memWrite_of_out _ _ _ (by rw [hlen]; exact ha)
  · exact ⟨deckEnable_begins, deckZeroingDone_enables, deckScrubDone_frees, deckGroups_settle⟩

end Sys2Proof.Machine
end

