-- ==== Sys2Proof/Proofs/KerfFlits.lean ====
section
/-!
PROOFS. Proofs/KerfFlits.lean: the bundle that a flit takes, the order of the hub class, and what flits in motion leave of a bundle (R340,
R345–R347, R351).
-/

namespace Sys2Proof.Machine

/-! ### Bundles -/

theorem bundleKey_inj {e b e' b' : Nat} (hb : b < 32) (hb' : b' < 32) (h : e' * 32 + b' = e * 32 + b) : e' = e ∧ b' = b := by omega

theorem bundlesOf_le (e : Nat) : bundlesOf e ≤ 32 := by
  unfold bundlesOf
  split <;> omega

theorem bundleOf_updBundle (e b e' b' : Nat) (f : KerfBundle → KerfBundle) (s : State) :
    bundleOf (updBundle e b f s) e' b' = if e' * 32 + b' = e * 32 + b then f (bundleOf s e b) else bundleOf s e' b' :=
  Table.get_update ..

@[simp] theorem bundleOf_updBundle_self (e b : Nat) (f : KerfBundle → KerfBundle) (s : State) :
    bundleOf (updBundle e b f s) e b = f (bundleOf s e b) :=
  (bundleOf_updBundle ..).trans (if_pos rfl)

theorem bundleOf_congr {s t : State} (h : t.kerf.bundles = s.kerf.bundles) (e b : Nat) : bundleOf t e b = bundleOf s e b := by
  rw [bundleOf, h, ← bundleOf]

/-- A change of a bundle is seen at every place through the bundle it is made of. -/
theorem bundleOf_updBundle_image {α : Type} (v : KerfBundle → α) (e b e' b' : Nat) {f : KerfBundle → KerfBundle} {s : State}
    (hf : v (f (bundleOf s e b)) = v (bundleOf s e b)) : v (bundleOf (updBundle e b f s) e' b') = v (bundleOf s e' b') := by
  rw [bundleOf_updBundle]
  split
  · rename_i hkey
    rw [hf, bundleOf, bundleOf, hkey]
  · rfl

@[simp] theorem dirOf_setDir (dirB : Bool) (d : LaneDir) (k : KerfBundle) : dirOf (setDir dirB d k) dirB = d := by
  cases dirB <;> rfl

@[simp] theorem setDir_dirOf (dirB : Bool) (k : KerfBundle) : setDir dirB (dirOf k dirB) k = k := by
  cases dirB <;> rfl

@[simp] theorem setDir_width (dirB : Bool) (d : LaneDir) (k : KerfBundle) : (setDir dirB d k).width = k.width := by
  cases dirB <;> rfl

@[simp] theorem setDir_role (dirB : Bool) (d : LaneDir) (k : KerfBundle) : (setDir dirB d k).role = k.role := by
  cases dirB <;> rfl

/-! ### The bundle of a flit (R346, R347) -/

theorem hubClass_of_ordered {f : KerfFlit} (h : hubOrdered f = true) : hubClass f = true := by
  cases hc : f.content <;> simp_all [hubOrdered, hubClass]

theorem bundleAt_mem {s : State} {e : Nat} {dirB : Bool} {bs : List Nat} (h : bs ≠ []) (at_ : Nat) :
    ∃ b ∈ bs, bundleAt s e dirB at_ bs = some b := by
  induction bs generalizing at_ with
  | nil => exact absurd rfl h
  | cons b bs ih =>
    cases bs with
    | nil => exact ⟨b, List.mem_singleton_self b, by simp [bundleAt]⟩
    | cons c cs =>
      by_cases hat : at_ < dirRate (bundleOf s e b) (dirOf (bundleOf s e b) dirB)
      · exact ⟨b, List.mem_cons_self, by simp only [bundleAt, if_pos hat]⟩
      · obtain ⟨x, hx, hfound⟩ := ih (List.cons_ne_nil c cs) (at_ - dirRate (bundleOf s e b) (dirOf (bundleOf s e b) dirB))
        exact ⟨x, List.mem_cons_of_mem b hx, by simp only [bundleAt, if_neg hat, hfound]⟩

/-- Where a flit falls in the rates of the bundles of its role laid end to end. -/
def spreadPlace (s : State) (e : Nat) (dirB : Bool) (bs : List Nat) (f : KerfFlit) : Nat :=
  Config.kerfSpread (spreadKey e f) % max 1 (roleRate s e dirB bs)

section Assigned
variable {die e : Nat} {f : KerfFlit} {s : State} {dirB : Bool} {r : KerfRole}

theorem assignFlit_of_spread {b : Nat} (hhop : nextHop s die f = (e, dirB)) (hrole : flitRole s e dirB f = r) (hne : r ≠ .hubOverflow)
    (hat : bundleAt s e dirB (spreadPlace s e dirB (roleBundles s e r) f) (roleBundles s e r) = some b) :
    assignFlit die f s = queueFlit e b dirB f s := by
  simp only [spreadPlace] at hat
  simp only [assignFlit, hhop, hrole, if_neg hne, hat]

theorem assignFlit_of_turn {b : Nat} (hhop : nextHop s die f = (e, dirB)) (hrole : flitRole s e dirB f = .hubOverflow)
    (hturn : (roleBundles s e .hubOverflow)[s.kerf.overflowTurn.get 0 (e * 2 + bitNat dirB) % (roleBundles s e .hubOverflow).length]? = some b) :
    assignFlit die f s = updKerf (fun k => { k with
      overflowTurn := k.overflowTurn.set 0 (e * 2 + bitNat dirB) (s.kerf.overflowTurn.get 0 (e * 2 + bitNat dirB) + 1) })
      (queueFlit e b dirB f s) := by
  simp only [assignFlit, hhop, hrole, if_true, hturn]

theorem assignFlit_of_none (hhop : nextHop s die f = (e, dirB)) (hrole : flitRole s e dirB f = r) (hnone : roleBundles s e r = []) :
    assignFlit die f s = updKerf (fun k => { k with waiting := k.waiting ++ [(die, f)] }) s := by
  by_cases hover : r = .hubOverflow
  · subst hover
    simp only [assignFlit, hhop, hrole, hnone, if_true, List.getElem?_nil]
  · simp only [assignFlit, hhop, hrole, hnone, if_neg hover, bundleAt]

/-- A flit waits at its die, or is queued on a bundle that takes flits. -/
theorem assignFlit_forms (die : Nat) (f : KerfFlit) (s : State) :
    assignFlit die f s = updKerf (fun k => { k with waiting := k.waiting ++ [(die, f)] }) s ∨
      ∃ e b dirB, carriesFlits (bundleOf s e b) = true ∧ (assignFlit die f s = queueFlit e b dirB f s ∨
        ∃ turns, assignFlit die f s = updKerf (fun k => { k with overflowTurn := turns }) (queueFlit e b dirB f s)) := by
  obtain ⟨e, dirB, hhop⟩ : ∃ e dirB, nextHop s die f = (e, dirB) := ⟨_, _, rfl⟩
  have hcarries {b : Nat} {r : KerfRole} (hb : b ∈ roleBundles s e r) : carriesFlits (bundleOf s e b) = true := by
    obtain ⟨-, h⟩ := List.mem_filter.mp hb
    simp only [Bool.and_eq_true] at h
    exact h.2
  by_cases hnone : roleBundles s e (flitRole s e dirB f) = []
  · exact .inl (assignFlit_of_none hhop rfl hnone)
  · by_cases hover : flitRole s e dirB f = .hubOverflow
    · rw [hover] at hnone
      have hlt := Nat.mod_lt (s.kerf.overflowTurn.get 0 (e * 2 + bitNat dirB)) (List.length_pos_iff.mpr hnone)
      exact .inr ⟨e, _, dirB, hcarries (List.getElem_mem hlt), .inr ⟨_, assignFlit_of_turn hhop hover (List.getElem?_eq_getElem hlt)⟩⟩
    · obtain ⟨b, hb, hat⟩ := bundleAt_mem hnone (spreadPlace s e dirB (roleBundles s e (flitRole s e dirB f)) f)
      exact .inr ⟨e, b, dirB, hcarries hb, .inl (assignFlit_of_spread hhop rfl hover hat)⟩

end Assigned

/-! ### The order of the hub class (R345) -/

theorem takeFlit_in_turn {f : KerfFlit} {s : State} (hordered : hubOrdered f = true) (hheld : s.kerf.hubHeld = [])
    (hnext : f.seq = s.kerf.hubNext.get 0 (flitPair f)) :
    (takeFlit f s).kerf.hubNext.get 0 (flitPair f) = s.kerf.hubNext.get 0 (flitPair f) + 1 ∧ (takeFlit f s).kerf.hubHeld = [] := by
  have hdeliver : deliverHeld (flitPair f) 1 (s.kerf.hubNext.get 0 (flitPair f)) [f] = (s.kerf.hubNext.get 0 (flitPair f) + 1, []) := by
    simp [deliverHeld, hnext]
  have htake : takeFlit f s = updKerf (fun k => { k with
      hubNext := k.hubNext.set 0 (flitPair f) (s.kerf.hubNext.get 0 (flitPair f) + 1), hubHeld := [] }) s := by
    simp only [takeFlit, hordered, hheld, Bool.not_true, Bool.false_eq_true, if_false, List.nil_append, List.length_singleton, hdeliver]
  rw [htake]
  exact ⟨Table.get_set_self .., rfl⟩

theorem takeFlit_early {f : KerfFlit} {s : State} (hordered : hubOrdered f = true) (hheld : s.kerf.hubHeld = [])
    (hnext : f.seq ≠ s.kerf.hubNext.get 0 (flitPair f)) :
    (takeFlit f s).kerf.hubNext.get 0 (flitPair f) = s.kerf.hubNext.get 0 (flitPair f) ∧ (takeFlit f s).kerf.hubHeld = [f] := by
  have hdeliver : deliverHeld (flitPair f) 1 (s.kerf.hubNext.get 0 (flitPair f)) [f] = (s.kerf.hubNext.get 0 (flitPair f), [f]) := by
    simp [deliverHeld, hnext]
  have htake : takeFlit f s = updKerf (fun k => { k with
      hubNext := k.hubNext.set 0 (flitPair f) (s.kerf.hubNext.get 0 (flitPair f)), hubHeld := [f] }) s := by
    simp only [takeFlit, hordered, hheld, Bool.not_true, Bool.false_eq_true, if_false, List.nil_append, List.length_singleton, hdeliver]
  rw [htake]
  exact ⟨Table.get_set_self .., rfl⟩

/-! ### What flits in motion leave -/

/-- A bundle but for the flits on it. -/
def KerfBundle.withoutFlits (k : KerfBundle) : KerfBundle :=
  { k with dirA := { k.dirA with queue := [], sent := 0, replayFrom := none }, dirB := { k.dirB with queue := [], sent := 0, replayFrom := none } }

/-- Flits have moved: only the Kerf block has changed, no bundle but for its flits, and none that takes no flits. -/
structure FlitsMoved (s t : State) : Prop where
  only : t = { s with kerf := t.kerf }
  lanes : ∀ e b, (bundleOf t e b).withoutFlits = (bundleOf s e b).withoutFlits
  still : ∀ e b, carriesFlits (bundleOf s e b) = false → bundleOf t e b = bundleOf s e b

theorem carriesFlits_of_lanes {k k' : KerfBundle} (h : k'.withoutFlits = k.withoutFlits) : carriesFlits k' = carriesFlits k := by
  have hwidth : k'.width = k.width := (congrArg KerfBundle.width h :)
  have hretraining : k'.retraining = k.retraining := (congrArg KerfBundle.retraining h :)
  have hrepairing : k'.repairing = k.repairing := (congrArg KerfBundle.repairing h :)
  simp only [carriesFlits, hwidth, hretraining, hrepairing]

namespace FlitsMoved
variable {s t u : State}

theorem refl (s : State) : FlitsMoved s s := ⟨rfl, fun _ _ => rfl, fun _ _ _ => rfl⟩

theorem trans (h : FlitsMoved s t) (h' : FlitsMoved t u) : FlitsMoved s u where
  only := by
    have hu := h'.only
    rw [h.only] at hu
    exact hu
  lanes := fun e b => (h'.lanes e b).trans (h.lanes e b)
  still := fun e b hb => (h'.still e b ((carriesFlits_of_lanes (h.lanes e b)).trans hb)).trans (h.still e b hb)

theorem foldl {α : Type} {f : State → α → State} (hf : ∀ s x, FlitsMoved s (f s x)) (l : List α) (s : State) : FlitsMoved s (l.foldl f s) :=
  List.foldlRecOn (motive := FlitsMoved s) l f (refl s) fun t ht x _ => ht.trans (hf t x)

/-- What changes no bundle of the Kerf block. -/
theorem of_bundles (f : KerfBlock → KerfBlock) (hf : (f s.kerf).bundles = s.kerf.bundles) : FlitsMoved s (updKerf f s) :=
  ⟨rfl, fun e b => congrArg _ (bundleOf_congr hf e b), fun e b _ => bundleOf_congr hf e b⟩

end FlitsMoved

theorem flitsMoved_queueFlit {e b : Nat} {s : State} (h : carriesFlits (bundleOf s e b) = true) (dirB : Bool) (f : KerfFlit) :
    FlitsMoved s (queueFlit e b dirB f s) where
  only := rfl
  lanes := fun e' b' => bundleOf_updBundle_image _ e b e' b' (by cases dirB <;> rfl)
  still := fun e' b' hb => by
    rw [queueFlit, bundleOf_updBundle, if_neg]
    intro hkey
    rw [bundleOf, hkey, ← bundleOf, h] at hb
    exact absurd hb (by decide)

theorem flitsMoved_assignFlit (die : Nat) (f : KerfFlit) (s : State) : FlitsMoved s (assignFlit die f s) := by
  obtain hwait | ⟨e, b, dirB, hcarries, hqueued | ⟨turns, hturn⟩⟩ := assignFlit_forms die f s
  · rw [hwait]
    exact .of_bundles _ rfl
  · rw [hqueued]
    exact flitsMoved_queueFlit hcarries dirB f
  · rw [hturn]
    exact (flitsMoved_queueFlit hcarries dirB f).trans (.of_bundles _ rfl)

theorem flitsMoved_offerFlit (f : KerfFlit) (s : State) : FlitsMoved s (offerFlit f s) := by
  simp only [offerFlit]
  split
  · exact (FlitsMoved.of_bundles _ rfl).trans (flitsMoved_assignFlit ..)
  · exact flitsMoved_assignFlit ..

theorem flitsMoved_wakeFlits (s : State) : FlitsMoved s (wakeFlits s) :=
  (FlitsMoved.of_bundles _ rfl).trans (.foldl (fun t (x : Nat × KerfFlit) => flitsMoved_assignFlit x.1 x.2 t) _ _)

/-- With no flit waiting none is woken. -/
theorem wakeFlits_of_none {s : State} (h : s.kerf.waiting = []) : wakeFlits s = s := by
  have hsame : updKerf (fun k => { k with waiting := [] }) s = s := by
    rw [updKerf, ← h]
  rw [wakeFlits, h, List.foldl_nil, hsame]

/-- The flits of a bundle leave it; then they are only flits in motion. -/
theorem flitsMoved_moveFlits (e b : Nat) (s : State) :
    FlitsMoved (updBundle e b (fun k => { k with dirA := emptyDir k.dirA, dirB := emptyDir k.dirB }) s) (moveFlits e b s) :=
  ((FlitsMoved.foldl (fun t f => flitsMoved_assignFlit (sendingDie e false) f t) _ _).trans
    (.foldl (fun t f => flitsMoved_assignFlit (sendingDie e true) f t) _ _)).trans (flitsMoved_wakeFlits _)

/-! ### Flits of a direction (R340) -/

/-- Only the bundles of the Kerf block have changed. -/
def OnlyBundles (s t : State) : Prop := t = { s with kerf := { s.kerf with bundles := t.kerf.bundles } }

theorem onlyBundles_updBundle (e b : Nat) (f : KerfBundle → KerfBundle) (s : State) : OnlyBundles s (updBundle e b f s) := rfl

theorem OnlyBundles.trans {s t u : State} (h : OnlyBundles s t) (h' : OnlyBundles t u) : OnlyBundles s u := by
  rw [OnlyBundles, h] at h'
  exact h'

section Direction
variable {e b number : Nat} {dirB : Bool} {s : State}

theorem kerfFlitReceive_of_none (hno : carriesFlits (bundleOf s e b) = false) (good : Bool) (offered : List KerfFlit) :
    exec (.kerfFlitReceive e b dirB number good offered) s = .next (offered.foldl (fun s f => offerFlit f s) s) := by
  have hmoved := FlitsMoved.foldl (fun t f => flitsMoved_offerFlit f t) offered s
  exact congrArg Host.Outcome.next (if_neg fun h => absurd ((carriesFlits_of_lanes (hmoved.lanes e b)).symm.trans h.2.2) (by rw [hno]; decide))

theorem kerfFlitReceive_of_carries (he : e < 10) (hb : b < bundlesOf e) (hcarries : carriesFlits (bundleOf s e b) = true) (good : Bool) :
    exec (.kerfFlitReceive e b dirB number good []) s = .next (flitArrives e b dirB number good s) :=
  congrArg Host.Outcome.next (if_pos ⟨he, hb, hcarries⟩)

/-- A flit that the sender does not keep. -/
theorem flitArrives_of_out (hout : number < (dirOf (bundleOf s e b) dirB).delivered ∨
      (dirOf (bundleOf s e b) dirB).delivered + min 64 (dirOf (bundleOf s e b) dirB).queue.length ≤ number) (good : Bool) :
    flitArrives e b dirB number good s = updBundle e b (setDir dirB (dirOf (bundleOf s e b) dirB)) s := by
  simp only [flitArrives, flitReceive, if_pos hout]

/-- A bad flit. -/
theorem flitArrives_of_bad (hlow : (dirOf (bundleOf s e b) dirB).delivered ≤ number)
    (hhigh : number < (dirOf (bundleOf s e b) dirB).delivered + min 64 (dirOf (bundleOf s e b) dirB).queue.length) :
    flitArrives e b dirB number false s = updBundle e b (setDir dirB { dirOf (bundleOf s e b) dirB with
      sent := max (dirOf (bundleOf s e b) dirB).sent (number + 1)
      replayFrom := some (min ((dirOf (bundleOf s e b) dirB).replayFrom.getD number) number) }) s := by
  have hin : ¬(number < (dirOf (bundleOf s e b) dirB).delivered ∨
      (dirOf (bundleOf s e b) dirB).delivered + min 64 (dirOf (bundleOf s e b) dirB).queue.length ≤ number) := by omega
  simp only [flitArrives, flitReceive, if_neg hin, Bool.not_false, if_true]

/-- The good flit whose turn it is. -/
theorem flitReceive_in_turn {d : LaneDir} {f : KerfFlit} {fs : List KerfFlit} (hqueue : d.queue = f :: fs) (hnumber : number = d.delivered) :
    flitReceive number true d = (some f, { d with sent := max d.sent (number + 1), delivered := number + 1, queue := fs, replayFrom := none }) := by
  have hin : ¬(number < d.delivered ∨ d.delivered + min 64 d.queue.length ≤ number) := by
    rw [hqueue, List.length_cons]
    omega
  have hzero : number - d.delivered = 0 := by omega
  simp only [flitReceive, if_neg hin, Bool.not_true, Bool.false_eq_true, if_false, hzero]
  split
  · rename_i hq
    rw [hqueue] at hq
    obtain ⟨rfl, rfl⟩ := List.cons.inj hq
    rfl
  · rename_i hnot
    exact absurd hqueue (hnot f fs rfl)

theorem flitArrives_in_turn {f : KerfFlit} {fs : List KerfFlit} (hqueue : (dirOf (bundleOf s e b) dirB).queue = f :: fs)
    (hnumber : number = (dirOf (bundleOf s e b) dirB).delivered) :
    flitArrives e b dirB number true s = arriveFlit (receivingDie e dirB) f (updBundle e b (setDir dirB { dirOf (bundleOf s e b) dirB with
      sent := max (dirOf (bundleOf s e b) dirB).sent (number + 1), delivered := number + 1, queue := fs, replayFrom := none }) s) := by
  simp only [flitArrives, flitReceive_in_turn hqueue hnumber]

/-- An unordered flit at its destination leaves nothing behind. -/
theorem arriveFlit_of_unordered {f : KerfFlit} {die : Nat} (hdest : f.dest = die) (hordered : hubOrdered f = false) (s : State) :
    arriveFlit die f s = s := by
  rw [arriveFlit, if_pos hdest.symm, takeFlit, hordered]
  rfl

theorem countReplays_lanes (now n : Nat) (d : LaneDir) : (countReplays now n d).delivered = d.delivered := by
  simp only [countReplays]
  split <;> rfl

/-- A replay, with no injection point armed. -/
theorem kerfReplay_of_unarmed {m : Nat} (hcells : s.err.inj.cells = []) (hfrom : (dirOf (bundleOf s e b) dirB).replayFrom = some m) :
    kerfReplay e b dirB s = updBundle e b (fun k => { setDir dirB { countReplays s.now (min 64 ((dirOf (bundleOf s e b) dirB).sent - m)) (dirOf k dirB) with
        replayFrom := none, burstInjected := (dirOf k dirB).burstInjected || false } k with
      replays := satAdd 32 k.replays (min 64 ((dirOf (bundleOf s e b) dirB).sent - m)) }) s := by
  simp only [kerfReplay, hfrom, fireInjection_of_unarmed hcells, Bool.false_eq_true, if_false]

end Direction

end Sys2Proof.Machine
end

