-- ==== Sys2Proof/Proofs/LaneRepairs.lean ====
section
/-!
PROOFS. Proofs/LaneRepairs.lean: the lane check of a bundle, the repair of a lane that fails twice in a row, retraining, and the end of
both (R340–R343, R350).
-/

namespace Sys2Proof.Machine

/-! ### A failed lane and its spare (R342) -/

theorem spareLanes_cons (below above : Bool) : ∃ x xs, spareLanes below above = x :: xs ∧ 64 ≤ x := by
  cases below <;> cases above <;> exact ⟨_, _, rfl, by decide⟩

section OneLane
variable {d : LaneDir} {l x : Nat} {xs : List Nat}

theorem brokenPositions_of_sound (hfailed : d.failed = []) : brokenPositions d = [] := by
  simp [brokenPositions, hfailed]

theorem brokenPositions_of_one (hfailed : d.failed = [l]) (hreplaced : d.replaced = []) (hl : l < 64) : brokenPositions d = [l] := by
  have hcarrier (p : Nat) : carrier d p = p := by simp [carrier, hreplaced]
  have hfilter : brokenPositions d = (List.range 64).filter (· == l) := by
    simp only [brokenPositions, hcarrier, hfailed, List.contains_cons, List.contains_nil, Bool.or_false]
  rw [hfilter, List.filter_beq, List.count_eq_one_of_mem List.nodup_range (List.mem_range.mpr hl), List.replicate_one]

/-- A direction without a failed lane is as it was. -/
theorem repairDir_of_sound (hfailed : d.failed = []) (spares : List Nat) : repairDir spares d = d := by
  rw [repairDir, brokenPositions_of_sound hfailed, List.foldl_nil]

/-- One failed lane is carried by the first spare. -/
theorem repairDir_of_one (hfailed : d.failed = [l]) (hreplaced : d.replaced = []) (hl : l < 64) (hx : 64 ≤ x) :
    repairDir (x :: xs) d = { d with
      replaced := [(l, x)], borrowed := if 66 ≤ x ∧ !d.borrowed.contains x then d.borrowed ++ [x] else d.borrowed } := by
  have hne : x ≠ l := by omega
  have hfree : (x :: xs).find? (fun y => !d.failed.contains y && !(d.replaced.any fun z => z.2 == y)) = some x := by
    rw [List.find?_cons_of_pos (by simp [hfailed, hreplaced, hne])]
  rw [repairDir, brokenPositions_of_one hfailed hreplaced hl, List.foldl_cons, List.foldl_nil]
  simp only [repairPosition, hfree]
  rw [hreplaced, List.filter_nil, List.nil_append]

theorem runsFull_of_sound (hfailed : d.failed = []) (hclock : d.clockFailed = false) : runsFull d = true := by
  simp [runsFull, hclock, brokenPositions_of_sound hfailed]

theorem runsFull_of_replaced (hfailed : d.failed = [l]) (hreplaced : d.replaced = [(l, x)]) (hclock : d.clockFailed = false) (hl : l < 64)
    (hx : 64 ≤ x) : runsFull d = true := by
  have hbroken : brokenPositions d = [] := List.filter_eq_nil_iff.mpr fun p _ => by
    by_cases hp : p = l
    · subst hp
      have : x ≠ p := by omega
      simp [carrier, hreplaced, hfailed, this]
    · simp [carrier, hreplaced, hfailed, hp, Ne.symm hp]
  simp [runsFull, hclock, hbroken]

end OneLane

/-! ### The bundle of a lane that has failed -/

section Bundle
variable {k : KerfBundle} {dirB : Bool} {l x : Nat} {xs : List Nat}

theorem fitBundle_of_full {spares : List Nat} (hwidth : k.width = .full) (ha : runsFull (repairDir spares k.dirA) = true)
    (hb : runsFull (repairDir spares k.dirB) = true) :
    fitBundle spares k = { k with dirA := repairDir spares k.dirA, dirB := repairDir spares k.dirB } := by
  simp [fitBundle, hwidth, ha, hb]

/-- A bundle of which one direction has lost one lane. -/
structure OneLost (k : KerfBundle) (dirB : Bool) (l : Nat) : Prop where
  width : k.width = .full
  failed : (dirOf k dirB).failed = [l]
  replaced : (dirOf k dirB).replaced = []
  clock : (dirOf k dirB).clockFailed = false
  otherFailed : (dirOf k (!dirB)).failed = []
  otherClock : (dirOf k (!dirB)).clockFailed = false

theorem fitBundle_of_oneLost (h : OneLost k dirB l) (hl : l < 64) (hx : 64 ≤ x) :
    fitBundle (x :: xs) k = setDir dirB (repairDir (x :: xs) (dirOf k dirB)) k := by
  obtain ⟨hwidth, hfailed, hreplaced, hclock, hother, hotherClock⟩ := h
  have hlost : runsFull (repairDir (x :: xs) (dirOf k dirB)) = true := by
    rw [repairDir_of_one hfailed hreplaced hl hx]
    exact runsFull_of_replaced (by exact hfailed) (by rfl) (by exact hclock) hl hx
  have hsame := repairDir_of_sound hother (x :: xs)
  have hfull := runsFull_of_sound hother hotherClock
  cases dirB with
  | false =>
    rw [fitBundle_of_full hwidth hlost (hsame.symm ▸ hfull)]
    exact congrArg (fun y => { k with dirA := repairDir (x :: xs) k.dirA, dirB := y }) hsame
  | true =>
    rw [fitBundle_of_full hwidth (hsame.symm ▸ hfull) hlost]
    exact congrArg (fun y => { k with dirA := y, dirB := repairDir (x :: xs) k.dirB }) hsame

theorem repairKind_of_oneLost (h : OneLost k dirB l) (hl : l < 64) (hx : 64 ≤ x) :
    repairKind k (setDir dirB (repairDir (x :: xs) (dirOf k dirB)) k) = .lane := by
  have hreplaced : (repairDir (x :: xs) (dirOf k dirB)).replaced ≠ (dirOf k dirB).replaced := by
    rw [repairDir_of_one h.failed h.replaced hl hx, h.replaced]
    exact List.cons_ne_nil (l, x) []
  have hhalf : k.width ≠ .half := by rw [h.width]; decide
  cases dirB with
  | false => simp only [repairKind, setDir_width, ne_eq, not_true_eq_false, if_false, hhalf, false_and]; exact if_pos (.inl hreplaced)
  | true => simp only [repairKind, setDir_width, ne_eq, not_true_eq_false, if_false, hhalf, false_and]; exact if_pos (.inr hreplaced)

end Bundle

/-! ### Settling the lanes of a bundle -/

section Settle
variable {e b l : Nat} {dirB : Bool} {s : State}

theorem fitPorts_of_inner (he : e < 8) (s : State) : fitPorts e s = s := if_pos he

/-- A pause keeps what a bundle is but for its flits. -/
theorem pauseBundle_lanes (e b : Nat) (s : State) :
    (bundleOf (pauseBundle e b s) e b).withoutFlits = { bundleOf s e b with repairing := true }.withoutFlits := by
  rw [pauseBundle, (flitsMoved_moveFlits e b _).lanes e b, bundleOf_updBundle_self, bundleOf_updBundle_self]
  rfl

theorem pauseBundle_only (e b : Nat) (s : State) : pauseBundle e b s = { s with kerf := (pauseBundle e b s).kerf } :=
  (flitsMoved_moveFlits e b _).only

/-- The bundle of a lane repair: its lane steered, the repair counted, and paused but where the repair is live (R350). -/
def laneRepaired (e b : Nat) (dirB : Bool) (s : State) : State :=
  let old := bundleOf s e b
  let new := setDir dirB (repairDir (spareLanes (lentBelow s e b) (lentAbove s e b)) (dirOf old dirB)) old
  let s1 := updBundle e b (fun k => { k with repairs := min (k.repairs + 1) 65535 }) (updBundle e b (fun _ => new) s)
  if liveRepair s old then s1 else pauseBundle e b s1

theorem settleBundle_of_oneLost (h : OneLost (bundleOf s e b) dirB l) (hl : l < 64) (he : e < 8) (injected : Bool) :
    settleBundle e b dirB l injected false s = report (kerfRecord 0x6101 e b dirB l injected (laneRepaired e b dirB s)) (laneRepaired e b dirB s) := by
  obtain ⟨x, xs, hspares, hx⟩ := spareLanes_cons (lentBelow s e b) (lentAbove s e b)
  have hfit := fitBundle_of_oneLost (xs := xs) h hl hx
  have hkind := repairKind_of_oneLost (xs := xs) h hl hx
  have hup : (bundleOf s e b).width ≠ .down := by rw [h.width]; decide
  have hname : laneName (dirOf (bundleOf s e b) dirB) l = l := by
    rw [laneName, if_neg (by omega), if_pos (by omega)]
  simp only [settleBundle, hspares, hfit, setDir_width, if_neg hup, hkind, hname, fitPorts_of_inner he, laneRepaired, decide_true, ne_eq,
    reduceCtorEq, not_false_eq_true, Bool.not_false, Bool.and_true, Bool.true_and, if_true, if_false]
  cases liveRepair s (bundleOf s e b) <;> rfl

theorem laneRepaired_only (e b : Nat) (dirB : Bool) (s : State) : laneRepaired e b dirB s = { s with kerf := (laneRepaired e b dirB s).kerf } := by
  simp only [laneRepaired]
  split
  · rfl
  · exact pauseBundle_only ..

theorem laneRepaired_lanes (e b : Nat) (dirB : Bool) (s : State) :
    (bundleOf (laneRepaired e b dirB s) e b).withoutFlits =
      { setDir dirB (repairDir (spareLanes (lentBelow s e b) (lentAbove s e b)) (dirOf (bundleOf s e b) dirB)) (bundleOf s e b) with
        repairs := min ((bundleOf s e b).repairs + 1) 65535
        repairing := (bundleOf s e b).repairing || !liveRepair s (bundleOf s e b) }.withoutFlits := by
  simp only [laneRepaired]
  cases liveRepair s (bundleOf s e b) with
  | true =>
    simp only [if_true, bundleOf_updBundle_self]
    cases dirB <;> simp [setDir, KerfBundle.withoutFlits]
  | false =>
    simp only [Bool.false_eq_true, if_false]
    rw [pauseBundle_lanes, bundleOf_updBundle_self, bundleOf_updBundle_self]
    cases dirB <;> simp [setDir, KerfBundle.withoutFlits]

end Settle

/-! ### The lane check (R340, R341) -/

section Check
variable {e b l : Nat} {dirB : Bool} {s : State}

/-- What a check with no injection point armed tests: the bad lanes that are checked. -/
def testedLanes (e b : Nat) (dirB : Bool) (bad : List Nat) (s : State) : List Nat :=
  bad.filter fun l => (checkedLanes (bundleOf s e b) (dirOf (bundleOf s e b) dirB)).contains l

/-- The lanes that fail a check for the second time in a row. -/
def freshLanes (e b : Nat) (dirB : Bool) (bad : List Nat) (s : State) : List Nat :=
  (testedLanes e b dirB bad s).filter fun l =>
    (dirOf (bundleOf s e b) dirB).suspect.contains l && !(dirOf (bundleOf s e b) dirB).failed.contains l

/-- The check noted in its direction. -/
def checkNoted (e b : Nat) (dirB : Bool) (bad : List Nat) (s : State) : State :=
  updBundle e b (setDir dirB { dirOf (bundleOf s e b) dirB with
    suspect := testedLanes e b dirB bad s, checksDue := (dirOf (bundleOf s e b) dirB).checksDue - 1 }) s

theorem injectedLanes_of_unarmed (hcells : s.err.inj.cells = []) : injectedLanes e b dirB s = [] := by
  rw [injectedLanes, hcells]
  rfl

theorem laneCheck_of_none {bad : List Nat} (hcells : s.err.inj.cells = []) (hfresh : freshLanes e b dirB bad s = []) :
    laneCheck e b dirB bad s =
      if 3 ≤ (dirOf (bundleOf s e b) dirB).bursts.length ∧ (dirOf (bundleOf s e b) dirB).checksDue ≤ 1 ∧ !(bundleOf s e b).retraining then
        beginRetrain e b dirB (dirOf (bundleOf s e b) dirB).burstInjected (checkNoted e b dirB bad s)
      else checkNoted e b dirB bad s := by
  simp only [freshLanes, testedLanes] at hfresh
  simp only [laneCheck, injectedLanes_of_unarmed hcells, fireInjection_of_unarmed hcells, List.map_nil, List.append_nil, hfresh, checkNoted,
    testedLanes]

theorem laneCheck_of_fresh {bad ls : List Nat} (hcells : s.err.inj.cells = []) (hfresh : freshLanes e b dirB bad s = l :: ls) :
    laneCheck e b dirB bad s = settleBundle e b dirB l false ((bundleOf s e b).repairing || (bundleOf s e b).retraining)
      (updBundle e b (fun k => setDir dirB (failLanes (l :: ls) (dirOf k dirB)) k) (checkNoted e b dirB bad s)) := by
  simp only [freshLanes, testedLanes] at hfresh
  simp only [laneCheck, injectedLanes_of_unarmed hcells, fireInjection_of_unarmed hcells, List.map_nil, List.append_nil, hfresh, checkNoted,
    testedLanes, List.contains_nil]

theorem execKerfLaneCheck_of_up (he : e < 10) (hb : b < bundlesOf e) (hup : (bundleOf s e b).width ≠ .down) (bad : List Nat) :
    exec (.kerfLaneCheck e b dirB bad) s = .next (laneCheck e b dirB bad s) :=
  congrArg Host.Outcome.next (if_pos ⟨he, hb, hup⟩)

theorem testedLanes_one (h : (checkedLanes (bundleOf s e b) (dirOf (bundleOf s e b) dirB)).contains l = true) :
    testedLanes e b dirB [l] s = [l] := by
  rw [testedLanes, List.filter_cons_of_pos h, List.filter_nil]

end Check

end Sys2Proof.Machine
end

