-- ==== Sys2Proof/Proofs/PortLoss.lean ====
section
/-!
PROOFS. Proofs/PortLoss.lean: what follows the loss of ports, while no injection point is armed, adds records and leaves the Kerf block and
the unread records as they are (R366, R386, R452).
-/

namespace Sys2Proof.Machine

/-! ### A record that stands -/

/-- Record w waits unread in a bounded queue, with this code, and no injection point is armed. -/
structure Standing (code : W16) (w : Nat) (b : ErrBlock) : Prop where
  unarmed : b.inj.cells = []
  bounded : b.written ≤ b.read + 1024
  unread : b.read ≤ w
  written : w < b.written
  same : (recordAt b w).code = code

/-- Standing goes by the queue and the injection slots alone. -/
theorem Standing.of_queue {code : W16} {w : Nat} {b c : ErrBlock} (h : Standing code w b) (hinj : c.inj = b.inj) (hread : c.read = b.read)
    (hwritten : c.written = b.written) (hqueue : c.queue = b.queue) : Standing code w c := by
  obtain ⟨hcells, hbounded, hunread, hlt, hcode⟩ := h
  refine ⟨?_, ?_, ?_, ?_, ?_⟩
  · rw [hinj]; exact hcells
  · rw [hwritten, hread]; exact hbounded
  · rw [hread]; exact hunread
  · rw [hwritten]; exact hlt
  · rw [recordAt, hqueue]; exact hcode

section Blocks
variable {code : W16} {w : Nat} {b : ErrBlock}

theorem standing_queueRecord (h : Standing code w b) (e : ErrRecord) : Standing code w (queueRecord e b) := by
  cases hfull : queueFull b with
  | true =>
    simp only [queueRecord, hfull, if_true]
    exact h.of_queue rfl rfl rfl rfl
  | false =>
    have hroom := written_lt_of_room hfull
    have hsame := queueRecord_keeps_unread hfull e h.unread h.written
    refine ⟨?_, ?_, ?_, ?_, hsame ▸ h.same⟩ <;> rw [queueRecord_of_room hfull]
    · exact h.unarmed
    · exact hroom
    · exact h.unread
    · exact Nat.lt_succ_of_lt h.written

theorem standing_queueCorrected (h : Standing code w b) (now : Nat) (e : ErrRecord) : Standing code w (queueCorrected now e b) := by
  simp only [queueCorrected]
  split
  · exact h.of_queue rfl rfl rfl rfl
  · split
    · exact standing_queueRecord h _
    · refine standing_queueRecord ?_ _
      exact h.of_queue rfl rfl rfl rfl

theorem standing_pushRecord (h : Standing code w b) (now : Nat) (e : ErrRecord) : Standing code w (pushRecord now e b) := by
  unfold pushRecord
  split
  · exact standing_queueCorrected h now e
  · exact standing_queueRecord h e

end Blocks

/-! ### The loss of ports leaves it -/

/-- Record w stands, and the Kerf block is this one. -/
def Calm (code : W16) (w : Nat) (kerf : KerfBlock) (s : State) : Prop := Standing code w s.err ∧ s.kerf = kerf

section Calm
variable {code : W16} {w : Nat} {kerf : KerfBlock} {s : State}

theorem calm_foldl {α : Type} {f : State → α → State} (hf : ∀ s x, Calm code w kerf s → Calm code w kerf (f s x)) (l : List α)
    (h : Calm code w kerf s) : Calm code w kerf (l.foldl f s) :=
  List.foldlRecOn (motive := Calm code w kerf) l f h fun t ht x _ => hf t x ht

theorem calm_of_same {t : State} (h : Calm code w kerf s) (herr : t.err = s.err) (hkerf : t.kerf = s.kerf) : Calm code w kerf t := by
  rw [Calm, herr, hkerf]
  exact h

theorem calm_report (h : Calm code w kerf s) (e : ErrRecord) : Calm code w kerf (report e s) := by
  refine ⟨?_, (report_kerf e s).trans h.2⟩
  rw [report, reportAs_eq]
  split
  · exact h.1
  · obtain ⟨rows, hrows⟩ := sendMaint_err (if (recorded (classOf e.code) e s).written = s.err.written then [] else
      [maintRow 0 (recordBytes (recordAt (recorded (classOf e.code) e s) s.err.written))]) { s with err := recorded (classOf e.code) e s }
    rw [hrows]
    have hpushed : Standing code w (recorded (classOf e.code) e s) := by
      rw [recorded, ErrBlock.clearFiring]
      split
      · exact (standing_pushRecord h.1 s.now _).of_queue rfl rfl rfl rfl
      · exact standing_pushRecord h.1 s.now _
    exact hpushed.of_queue rfl rfl rfl rfl

/-! ### What tasks, groups and counters do -/

theorem calm_spoilBytes (h : Calm code w kerf s) (ts : List Task) (adds : List (Nat × Nat × Nat)) (a : Nat) (bs : List Byte) :
    Calm code w kerf (spoilBytes ts adds a bs s).2 := by
  induction bs generalizing a s with
  | nil => exact h
  | cons b bs ih =>
    unfold spoilBytes
    split
    · exact ih (s := (drawFree s).2) h (a + 1)
    · exact ih h (a + 1)

theorem calm_outsideWrite (h : Calm code w kerf s) (q : Requester) (pa : Nat) (bs : List Byte) : Calm code w kerf (outsideWrite q pa bs s).2 := by
  unfold outsideWrite
  split
  · exact h
  · exact calm_spoilBytes h ..

theorem calm_homeStore (h : Calm code w kerf s) (key : HomeKey) (pa : Nat) (bs : List Byte) : Calm code w kerf (homeStore key pa bs s) := by
  cases key <;> exact h

theorem calm_plainWrite (h : Calm code w kerf s) (pa : Nat) (bs : List Byte) : Calm code w kerf (plainWrite pa bs s) :=
  calm_foldl (fun _ _ hu => calm_homeStore hu ..) _ h

theorem calm_signalAbort (h : Calm code w kerf s) (q : Requester) (pa : Nat) : Calm code w kerf (signalAbort q pa s) := by
  unfold signalAbort signalBy
  split
  · exact h
  · exact calm_plainWrite (calm_outsideWrite h ..) ..

theorem calm_abortSignal (h : Calm code w kerf s) (t : Task) : Calm code w kerf (abortSignal t s) := by
  unfold abortSignal
  split
  · split
    · exact calm_signalAbort h ..
    · exact h
  · exact h

theorem calm_of_onlyWork {t : State} (h : Calm code w kerf s) (hwork : OnlyWork s t) : Calm code w kerf t :=
  calm_of_same h (congrArg State.err hwork :) (congrArg State.kerf hwork :)

theorem calm_settleBenchOf (h : Calm code w kerf s) (t : Task) : Calm code w kerf (settleBenchOf t s) :=
  calm_of_onlyWork h (onlyWork_settleBenchOf t s)

theorem calm_freeGroup (h : Calm code w kerf s) (g : Nat) : Calm code w kerf (freeGroup g s) := by
  simp only [freeGroup]
  split
  · split <;> exact h
  · split
    · split <;> exact h
    · exact h
  · exact h
  · exact h

theorem calm_retireSquashed (h : Calm code w kerf s) (t : Task) : Calm code w kerf (retireSquashed t s) := by
  refine calm_settleBenchOf ?_ t
  show Calm code w kerf (abortSignal t _)
  refine calm_abortSignal ?_ t
  cases t.bench <;> exact h

theorem calm_squashMember (h : Calm code w kerf s) (t : Task) : Calm code w kerf (squashMember s t) := by
  simp only [squashMember]
  cases t.phase with
  | failed => exact h
  | staged => exact calm_retireSquashed h t
  | awaiting => exact calm_retireSquashed h t
  | issued =>
    cases t.bench with
    | none => dsimp only; split <;> [exact calm_retireSquashed h t; exact h]
    | some n => dsimp only; split <;> [exact calm_retireSquashed (s := updBenchState n _ s) h t; exact h]

theorem calm_squashGroup (h : Calm code w kerf s) (g : Nat) (outcome : GroupOutcome) : Calm code w kerf (squashGroup g outcome s) := by
  simp only [squashGroup]
  split
  · exact h
  · exact calm_freeGroup (calm_foldl (fun _ t hu => calm_squashMember hu t) _
      (calm_foldl (fun _ t hu => calm_abortSignal hu t) _ (s := updGroup g _ s) h)) g

/-- The failure of a task: it leaves its work, its ring holds the failure, its record and its counter tell it, and its group is squashed. -/
theorem failTask_eq (t : Task) (c : W16) (s : State) (addr d0 d1 d2 : Nat) (injected : Bool) (source : Option W64) :
    failTask t c s addr d0 d1 d2 injected source =
      let u := settleBenchOf t (abortSignal t (report (taskRecord t c addr d0 d1 d2 injected source s)
        (updRing t.ring (holdFailure ⟨t.seq, false, c⟩) (failedWork t s))))
      if t.member then squashGroup t.header.group .squashedOther u else u := by
  cases hb : t.bench <;> simp only [failTask, failedWork, hb]

theorem calm_failTask (h : Calm code w kerf s) (t : Task) (c : W16) (addr d0 d1 d2 : Nat) (injected : Bool) (source : Option W64) :
    Calm code w kerf (failTask t c s addr d0 d1 d2 injected source) := by
  have hwork := calm_of_onlyWork h (onlyWork_failedWork t s)
  have hended : Calm code w kerf (updRing t.ring (holdFailure ⟨t.seq, false, c⟩) (failedWork t s)) := calm_of_same hwork (updRing_err ..) (updRing_kerf ..)
  have hsettled := calm_settleBenchOf (calm_abortSignal (calm_report hended (taskRecord t c addr d0 d1 d2 injected source s)) t) t
  rw [failTask_eq]
  dsimp only
  split
  · exact calm_squashGroup hsettled ..
  · exact hsettled

theorem calm_failRing (h : Calm code w kerf s) (r : Nat) (c : W16) : Calm code w kerf (failRing r c s) := by
  unfold failRing
  refine calm_report ?_ _
  exact calm_of_same h rfl rfl

theorem calm_endEarly (h : Calm code w kerf s) (t : Task) (c : W16) (addr d0 : Nat) : Calm code w kerf (endEarly t c s addr d0) := by
  simp only [endEarly, endAtTile]
  split
  · split
    · exact h
    · exact calm_failTask (s := updBenchState _ _ s) h ..
  · exact calm_failTask h ..

theorem calm_endWaiting (h : Calm code w kerf s) (t : Task) (c : W16) (pa : Nat) : Calm code w kerf (endWaiting t c pa s) := by
  unfold endWaiting
  split
  · exact h
  · exact calm_endEarly h ..

theorem calm_failStaging (h : Calm code w kerf s) (c : W16) (pa : Option Nat) (r : Nat) : Calm code w kerf (failStaging c pa r s) := by
  simp only [failStaging]
  split
  · exact calm_failRing (s := updRing r _ s) h ..
  · exact h

/-! ### What a hart had combined -/

theorem calm_stakeTableRead (h : Calm code w kerf s) (q : Requester) : Calm code w kerf (stakeTableRead q s) := by
  rw [stakeTableRead, fireInjection_of_unarmed h.1.unarmed]
  exact h

theorem calm_placeBytes (h : Calm code w kerf s) (q : Requester) (pa : Nat) (bs : List Byte) : Calm code w kerf (placeBytes q pa bs s) := by
  have hwrite := calm_outsideWrite h q pa bs
  simp only [placeBytes]
  split
  · exact calm_plainWrite (s := dropOpLines pa bs.length (outsideWrite q pa bs s).2) hwrite ..
  · exact calm_plainWrite (s := dropOpLines pa bs.length (outsideWrite q pa bs s).2) hwrite ..
  · exact calm_plainWrite hwrite ..

theorem calm_settled {α : Type} {r : Reply α × State} (h : Calm code w kerf r.2) (q : Requester) (t n : Nat) :
    Calm code w kerf (settled q t n r).2 := by
  have hsettle (m : Nat) : Calm code w kerf (settleAdmitted q t m r.2) := by
    unfold settleAdmitted
    split <;> exact h
  unfold settled
  split
  · split <;> exact h
  · exact hsettle n
  · exact hsettle ashlarSize

theorem calm_tieredWriteOf (h : Calm code w kerf s) (q : Requester) (t : Nat) (runs : List (Nat × List Byte)) :
    Calm code w kerf (tieredWriteOf q t runs s).2 := by
  have hrefuse (c : W16) (pa : Nat) : Calm code w kerf (if writePosted s q true t then ((.done (), reportPosted q c pa s) : Reply Unit × State)
      else (.fail c pa, s)).2 := by
    split
    · exact calm_report h _
    · exact h
  simp only [tieredWriteOf]
  split
  · exact hrefuse ..
  · rename_i o _
    split
    · exact hrefuse ..
    · split
      · exact h
      · split
        · exact hrefuse ..
        · split
          · exact hrefuse ..
          · split
            · exact hrefuse ..
            · split
              · exact hrefuse ..
              · split
                · exact hrefuse ..
                · refine calm_foldl (fun u x hu => ?_) runs h
                  have hstore := calm_homeStore (calm_outsideWrite hu q (apertureBase + t + x.1) x.2)
                  split
                  · exact hstore ..
                  · exact hstore ..

theorem calm_writeRuns (h : Calm code w kerf s) (q : Requester) (base : Nat) (runs : List (Nat × List Byte)) :
    Calm code w kerf (writeRuns q base runs s).2 := by
  have hread := calm_stakeTableRead h q
  have hplain : Calm code w kerf (match runsRefusal (stakeTableRead q s) q base runs with
    | some c => if writePosted (stakeTableRead q s) q false base then ((.done (), reportPosted q c base (stakeTableRead q s)) : Reply Unit × State)
        else (.fail c base, stakeTableRead q s)
    | none => (.done (), runs.foldl (fun s (r : Nat × List Byte) => placeBytes q (base + r.1) r.2 s) (stakeTableRead q s))).2 := by
    split
    · split
      · exact calm_report hread _
      · exact hread
    · exact calm_foldl (fun _ r hu => calm_placeBytes hu q (base + r.1) r.2) runs hread
  unfold writeRuns
  split
  · exact calm_settled (calm_tieredWriteOf h ..) ..
  · exact hplain
  · exact hplain
  · exact h
  · exact h

theorem calm_sendCombined (h : Calm code w kerf s) (i codeword : Nat) : Calm code w kerf (sendCombined i codeword s) := by
  simp only [sendCombined]
  split
  · exact h
  · rename_i c _
    have hwrite := calm_writeRuns h (hartRequesterIn i c.context) (codeword * 512) (byteRuns (sortedBytes c.bytes))
    generalize writeRuns (hartRequesterIn i c.context) (codeword * 512) (byteRuns (sortedBytes c.bytes)) s = r at hwrite ⊢
    obtain ⟨reply, u⟩ := r
    cases reply with
    | done _ => exact hwrite
    | wait => exact hwrite
    | fail c' pa => exact calm_report (s := updHart i _ u) hwrite _

theorem calm_hartRefused (h : Calm code w kerf s) (q : Requester) (i : Nat) (trap : HartTrap) (c : W16) (va pa : Nat) :
    Calm code w kerf (hartRefused q i trap c va pa s) :=
  calm_foldl (fun _ x hu => calm_sendCombined hu i x) _ (calm_report h _)

theorem calm_hartFailWait (h : Calm code w kerf s) (i : Nat) (c : W16) (pa : Nat) : Calm code w kerf (hartFailWait i c pa s) := by
  unfold hartFailWait
  split
  · exact calm_hartRefused (s := updHart i _ s) h ..
  all_goals exact h

/-! ### What is lost with a peer -/

theorem calm_failTierWaiter (h : Calm code w kerf s) (c : W16) (pa : Nat) (x : Waiter) : Calm code w kerf (failTierWaiter c pa s x) := by
  cases x with
  | task r seq =>
    simp only [failTierWaiter]
    split
    · split
      · exact h
      · exact calm_endWaiting h ..
    · exact calm_failStaging h ..
  | hart i => exact calm_hartFailWait h ..
  | external => exact h

theorem calm_poisonAt (h : Calm code w kerf s) (pa : Nat) : Calm code w kerf (poisonAt pa s) := by
  simp only [poisonAt]
  split
  · split
    · exact h
    · split
      · exact h
      · refine calm_report ?_ _
        exact calm_of_same h rfl rfl
  · exact h

theorem calm_repairFailed (h : Calm code w kerf s) (m : Migration) : Calm code w kerf (repairFailed m s) := by
  simp only [repairFailed]
  split
  · exact h
  · refine calm_report (calm_foldl (fun _ x hu => calm_failTierWaiter hu _ _ x) m.waiters ?_) _
    have hpoison := calm_foldl (fun _ a hu => calm_poisonAt hu a) m.repair h
    exact hpoison

theorem calm_failBarriers (h : Calm code w kerf s) (x : Transfer) (c : W16) : Calm code w kerf (failBarriers x c s) := by
  unfold failBarriers
  split
  · exact h
  · split
    · exact h
    · exact calm_foldl (fun _ t hu => calm_failTask hu t c 0 x.handle 0 0 false none) _ h

theorem calm_failTransfer (h : Calm code w kerf s) (x : Transfer) (c : W16) : Calm code w kerf (failTransfer x c s) :=
  calm_failBarriers (calm_report (s := dropTransfer x.id s) h _) x c

theorem calm_cutIncoming (h : Calm code w kerf s) (i : Incoming) : Calm code w kerf (cutIncoming i s) := by
  simp only [cutIncoming]
  split
  · exact calm_signalAbort (calm_report h _) ..
  · exact calm_report h _

theorem calm_cutOff (h : Calm code w kerf s) (m : Nat) : Calm code w kerf (cutOff m s) := by
  have hrepairs : Calm code w kerf (failRepairsTo m s) := calm_foldl (fun _ x hu => calm_repairFailed hu x) _ h
  have htransfers := calm_foldl (fun _ x hu => calm_failTransfer hu x 0x7301)
    ((s.fabric.transfers.filter fun x => x.module == m && x.state != .leaving)) hrepairs
  exact calm_foldl (fun _ i hu => calm_cutIncoming hu i) _ (s := updFabric _ _) htransfers

theorem calm_updFabric (h : Calm code w kerf s) (f : FabricBlock → FabricBlock) : Calm code w kerf (updFabric f s) := h

theorem calm_updPort (h : Calm code w kerf s) (p : Nat) (f : Port → Port) : Calm code w kerf (updPort p f s) := h

theorem calm_setPeer (h : Calm code w kerf s) (m : Nat) (reach : PeerReach) (gen : Nat) : Calm code w kerf (setPeer m reach gen s) := by
  simp only [setPeer]
  split <;> exact h

theorem calm_markUnreachable (h : Calm code w kerf s) (m : Nat) : Calm code w kerf (markUnreachable m s) := by
  unfold markUnreachable
  split
  · exact h
  · exact calm_cutOff (calm_updFabric (calm_setPeer h m .unreachable _) _) m

theorem calm_noteLinkDown (h : Calm code w kerf s) (m port : Nat) : Calm code w kerf (noteLinkDown m port s) := by
  unfold noteLinkDown
  extract_lets old ps s1
  have hs1 : Calm code w kerf s1 := calm_updFabric h _
  split
  · exact calm_markUnreachable hs1 m
  · exact hs1

theorem calm_noteIsolation (h : Calm code w kerf s) : Calm code w kerf (noteIsolation s) := by
  simp only [noteIsolation]
  split
  · exact h
  · refine calm_foldl (fun u m hu => ?_) _ h
    split
    · exact hu
    · exact calm_cutOff hu m

theorem calm_loseSource (h : Calm code w kerf s) (p : Nat) : Calm code w kerf (loseSource p s) := by
  simp only [loseSource]
  split
  · split <;> exact h
  · exact h

theorem calm_linkLost (h : Calm code w kerf s) (p : Nat) (before : Port) : Calm code w kerf (linkLost p before s) := by
  have hflood : Calm code w kerf (floodFrames (List.range 71) s) := calm_foldl (fun _ _ hu => calm_updPort hu ..) _ h
  simp only [linkLost]
  split
  · exact h
  · split
    · exact calm_noteLinkDown hflood ..
    · exact hflood

theorem calm_followPorts (h : Calm code w kerf s) (before : State) : Calm code w kerf (followPorts before s) := by
  simp only [followPorts]
  split
  · exact h
  · refine calm_noteIsolation ?_
    exact calm_foldl (fun _ p hu => calm_loseSource (calm_linkLost hu p _) p) _ h

/-- The ports that the rate left does not carry are marked down; the record stands (R349). -/
theorem calm_fitPorts (h : Calm code w kerf s) (e : Nat) : Calm code w kerf (fitPorts e s) := by
  have hmark (ps : List Nat) : Calm code w kerf (ps.foldl (fun s p => updPort p (fun q => { q with state := .markedDown }) s) s) :=
    calm_foldl (fun _ _ hu => calm_updPort hu ..) ps h
  simp only [fitPorts]
  split
  · exact h
  · split
    · exact h
    · exact calm_followPorts (calm_report (hmark _) _) s

end Calm

end Sys2Proof.Machine
end

