-- ==== Sys2Proof/Proofs/KerfService.lean ====
section
/-!
PROOFS. Proofs/KerfService.lean: Kerf links in service: what a lane check, a repair, a retraining and the loss of a clock pair leave of a
bundle, with their records (R340–R348, R350).
-/

namespace Sys2Proof.Machine

/-! ### What a bundle is but for its flits -/

section Lanes
variable {k k' : KerfBundle} (h : k'.withoutFlits = k.withoutFlits)
include h

theorem width_of_lanes : k'.width = k.width := (congrArg KerfBundle.width h :)
theorem role_of_lanes : k'.role = k.role := (congrArg KerfBundle.role h :)
theorem repairing_of_lanes : k'.repairing = k.repairing := (congrArg KerfBundle.repairing h :)

theorem failed_of_lanes (dirB : Bool) : (dirOf k' dirB).failed = (dirOf k dirB).failed := by
  cases dirB
  · exact (congrArg (fun x => x.dirA.failed) h :)
  · exact (congrArg (fun x => x.dirB.failed) h :)

theorem replaced_of_lanes (dirB : Bool) : (dirOf k' dirB).replaced = (dirOf k dirB).replaced := by
  cases dirB
  · exact (congrArg (fun x => x.dirA.replaced) h :)
  · exact (congrArg (fun x => x.dirB.replaced) h :)

end Lanes

/-! ### The repair of one lane (R342, R350) -/

section Repair
variable {e b l : Nat} {dirB : Bool} {s : State}

/-- A lane declared failed by a check that is noted. -/
def laneFailed (e b : Nat) (dirB : Bool) (l : Nat) (s : State) : State :=
  updBundle e b (fun k => setDir dirB (failLanes [l] (dirOf k dirB)) k) (checkNoted e b dirB [l] s)

theorem bundleOf_laneFailed (e b : Nat) (dirB : Bool) (l : Nat) (s : State) :
    bundleOf (laneFailed e b dirB l s) e b = setDir dirB (failLanes [l] { dirOf (bundleOf s e b) dirB with
      suspect := testedLanes e b dirB [l] s, checksDue := (dirOf (bundleOf s e b) dirB).checksDue - 1 }) (bundleOf s e b) := by
  rw [laneFailed, bundleOf_updBundle_self, checkNoted, bundleOf_updBundle_self]
  cases dirB <;> rfl

theorem role_laneFailed (e b : Nat) (dirB : Bool) (l : Nat) (s : State) (e' b' : Nat) :
    (bundleOf (laneFailed e b dirB l s) e' b').role = (bundleOf s e' b').role := by
  have hnoted : (bundleOf (checkNoted e b dirB [l] s) e' b').role = (bundleOf s e' b').role :=
    bundleOf_updBundle_image KerfBundle.role e b e' b' (setDir_role ..)
  exact (bundleOf_updBundle_image KerfBundle.role e b e' b' (setDir_role ..)).trans hnoted

/-- A direction that ran full and of which one lane has failed. -/
theorem oneLost_laneFailed (hl : l < 64) (hwidth : (bundleOf s e b).width = .full)
    (hclean : ∀ x ∈ [(bundleOf s e b).dirA, (bundleOf s e b).dirB], x.failed = [] ∧ x.replaced = [] ∧ x.clockFailed = false) :
    OneLost (bundleOf (laneFailed e b dirB l s) e b) dirB l := by
  obtain ⟨hfailedA, hreplacedA, hclockA⟩ := hclean _ List.mem_cons_self
  obtain ⟨hfailedB, hreplacedB, hclockB⟩ := hclean _ (List.mem_cons_of_mem _ List.mem_cons_self)
  have hlane : l ≠ 1000 := by omega
  have hone : [l].eraseDups = [l] := rfl
  rw [bundleOf_laneFailed]
  cases dirB <;> constructor <;>
    simp [setDir, dirOf, failLanes, hfailedA, hfailedB, hreplacedA, hreplacedB, hclockA, hclockB, hwidth, hlane, hlane.symm, hone]

/-- A lane that fails its second check in a row is carried by the first spare, with record 0x6101. -/
theorem laneCheck_steers (hcells : s.err.inj.cells = []) (hrate : UnderRate 0x6101 (srcModule s) s) (hl : l < 64) (he : e < 8)
    (hsuspect : (dirOf (bundleOf s e b) dirB).suspect.contains l = true) (hwidth : (bundleOf s e b).width = .full)
    (hrepairing : (bundleOf s e b).repairing = false) (hretraining : (bundleOf s e b).retraining = false)
    (hclean : ∀ x ∈ [(bundleOf s e b).dirA, (bundleOf s e b).dirB], x.failed = [] ∧ x.replaced = [] ∧ x.clockFailed = false)
    (hroom : queueFull s.err = false) :
    let t := laneCheck e b dirB [l] s
    (dirOf (bundleOf t e b) dirB).failed = [l] ∧
      (dirOf (bundleOf t e b) dirB).replaced = [(l, (spareLanes (lentBelow s e b) (lentAbove s e b)).headD 64)] ∧
      (bundleOf t e b).width = .full ∧ (bundleOf t e b).repairing = !liveRepair s (bundleOf s e b) ∧
      (recordAt t.err s.err.written).code = 0x6101 ∧
      (recordAt t.err s.err.written).detail0 = BitVec.ofNat 64 (laneLocator e b dirB l) ∧
      (recordAt t.err s.err.written).detail1 = BitVec.ofNat 64 (roleCode (bundleOf s e b).role) ∧ t.mem = s.mem := by
  intro t
  have hfailedNone : (dirOf (bundleOf s e b) dirB).failed = [] := by
    cases dirB
    · exact (hclean _ List.mem_cons_self).1
    · exact (hclean _ (List.mem_cons_of_mem _ List.mem_cons_self)).1
  have htested : testedLanes e b dirB [l] s = [l] := testedLanes_one (by
    simp only [checkedLanes, hwidth, hfailedNone]
    simp
    omega)
  have hfresh : freshLanes e b dirB [l] s = [l] := by
    rw [freshLanes, htested, List.filter_cons_of_pos (by rw [hsuspect, hfailedNone]; rfl), List.filter_nil]
  have hlost := oneLost_laneFailed (dirB := dirB) hl hwidth hclean
  have ht : t = report (kerfRecord 0x6101 e b dirB l false (laneRepaired e b dirB (laneFailed e b dirB l s)))
      (laneRepaired e b dirB (laneFailed e b dirB l s)) := by
    show laneCheck e b dirB [l] s = _
    rw [laneCheck_of_fresh hcells hfresh, hrepairing, hretraining]
    exact settleBundle_of_oneLost hlost hl he false
  obtain ⟨x, xs, hspares, hx⟩ := spareLanes_cons (lentBelow s e b) (lentAbove s e b)
  have hlanes := laneRepaired_lanes e b dirB (laneFailed e b dirB l s)
  have hbelow : lentBelow (laneFailed e b dirB l s) e b = lentBelow s e b := by simp only [lentBelow, role_laneFailed]
  have habove : lentAbove (laneFailed e b dirB l s) e b = lentAbove s e b := by simp only [lentAbove, role_laneFailed]
  have hlive : liveRepair (laneFailed e b dirB l s) (bundleOf (laneFailed e b dirB l s) e b) = liveRepair s (bundleOf s e b) := by
    simp only [liveRepair, role_laneFailed]
    rfl
  have hpaused : (bundleOf (laneFailed e b dirB l s) e b).repairing = false := by
    rw [bundleOf_laneFailed, ← hrepairing]
    cases dirB <;> rfl
  rw [hbelow, habove, hlive, hpaused, hspares, repairDir_of_one hlost.failed hlost.replaced hl hx] at hlanes
  have honly := laneRepaired_only e b dirB (laneFailed e b dirB l s)
  have hsameRole := role_laneFailed e b dirB l s e b
  generalize laneRepaired e b dirB (laneFailed e b dirB l s) = u at ht hlanes honly
  generalize bundleOf (laneFailed e b dirB l s) e b = k at hlanes hlost hsameRole
  have hbundle : bundleOf t e b = bundleOf u e b := bundleOf_congr (by rw [ht, report_kerf]) e b
  have herr : u.err = s.err := (congrArg State.err honly :)
  have hnow : u.now = s.now := (congrArg State.now honly :)
  have hmem : u.mem = s.mem := (congrArg State.mem honly :)
  have hsource : srcModule u = srcModule s := by
    rw [honly]
    rfl
  obtain ⟨hcode, hdetail0, hdetail1⟩ := report_module_fields (s := u) (e := kerfRecord 0x6101 e b dirB l false u) rfl (by rw [herr]; exact hroom)
    fun _ => by
      show UnderRate 0x6101 (srcModule u) u
      rw [hsource, underRate_congr hnow (congrArg ErrBlock.suppressed herr)]
      exact hrate
  rw [herr, ← ht] at hcode hdetail0 hdetail1
  have hrole : (bundleOf u e b).role = (bundleOf s e b).role := by
    rw [role_of_lanes hlanes]
    exact (setDir_role ..).trans hsameRole
  rw [hbundle]
  refine ⟨?_, ?_, ?_, ?_, hcode, hdetail0, hdetail1.trans (by rw [kerfRecord, hrole]), ?_⟩
  · rw [failed_of_lanes hlanes]
    cases dirB <;> exact hlost.failed
  · rw [replaced_of_lanes hlanes, hspares]
    cases dirB <;> rfl
  · rw [width_of_lanes hlanes]
    exact (setDir_width ..).trans hlost.width
  · rw [repairing_of_lanes hlanes]
    exact Bool.false_or _
  · rw [ht, report_mem, hmem]

end Repair

/-! ### Checks that fail no lane (R341) -/

section Check
variable {e b : Nat} {dirB : Bool} {s : State}

/-- A bad lane that was not suspect is noted. -/
theorem laneCheck_notes {l : Nat} (hcells : s.err.inj.cells = []) (hchecked : (checkedLanes (bundleOf s e b) (dirOf (bundleOf s e b) dirB)).contains l = true)
    (hsuspect : (dirOf (bundleOf s e b) dirB).suspect.contains l = false) (hbursts : (dirOf (bundleOf s e b) dirB).bursts.length < 3) :
    laneCheck e b dirB [l] s = checkNoted e b dirB [l] s ∧ testedLanes e b dirB [l] s = [l] := by
  have htested := testedLanes_one hchecked
  have hfresh : freshLanes e b dirB [l] s = [] := by
    rw [freshLanes, htested, List.filter_cons_of_neg (by rw [hsuspect, Bool.false_and]; exact Bool.false_ne_true), List.filter_nil]
  exact ⟨(laneCheck_of_none hcells hfresh).trans (if_neg (by omega)), htested⟩

/-- Three bursts without a failed lane retrain the bundle, with record 0x6105. -/
theorem laneCheck_retrains (hcells : s.err.inj.cells = []) (hrate : UnderRate 0x6105 (srcModule s) s)
    (hbursts : 3 ≤ (dirOf (bundleOf s e b) dirB).bursts.length) (hdue : (dirOf (bundleOf s e b) dirB).checksDue ≤ 1)
    (hretraining : (bundleOf s e b).retraining = false) (hroom : queueFull s.err = false) :
    let t := laneCheck e b dirB [] s
    (bundleOf t e b).retraining = true ∧ (bundleOf t e b).width = (bundleOf s e b).width ∧
      (recordAt t.err s.err.written).code = 0x6105 ∧ t.mem = s.mem := by
  intro t
  have ht : t = beginRetrain e b dirB (dirOf (bundleOf s e b) dirB).burstInjected (checkNoted e b dirB [] s) :=
    (laneCheck_of_none hcells (by rfl)).trans (if_pos ⟨hbursts, hdue, by rw [hretraining]; rfl⟩)
  rw [ht]
  unfold beginRetrain
  extract_lets u
  obtain ⟨hcode, -⟩ := report_module_fields (s := u) (e := kerfRecord 0x6105 e b dirB 0 (dirOf (bundleOf s e b) dirB).burstInjected u) rfl hroom
    fun _ => hrate
  have hretrains : (bundleOf u e b).retraining = true := by rw [bundleOf_updBundle_self]
  have hwidth : (bundleOf u e b).width = (bundleOf s e b).width := by
    rw [bundleOf_updBundle_self, checkNoted, bundleOf_updBundle_self]
    exact setDir_width ..
  rw [bundleOf_congr (congrArg KerfBlock.bundles (report_kerf _ u))]
  exact ⟨hretrains, hwidth, hcode, report_mem ..⟩

end Check

/-! ### The loss of a bundle (R341, R343, R347, R348) -/

section Down
variable {e b : Nat} {s : State}

/-- A bundle that is down, and none of whose lent lanes are kept. -/
def downBundle (e b : Nat) (s : State) : State :=
  updBundle e b (fun k => { k with
    width := .down, repairing := false, retraining := false
    dirA := { k.dirA with borrowed := [] }, dirB := { k.dirB with borrowed := [] } }) s

/-- The bundle that is down has no flits left. -/
theorem bundleOf_moveFlits_down (e b : Nat) (s : State) : bundleOf (moveFlits e b (downBundle e b s)) e b = { bundleOf s e b with
    width := .down, repairing := false, retraining := false
    dirA := emptyDir { (bundleOf s e b).dirA with borrowed := [] }, dirB := emptyDir { (bundleOf s e b).dirB with borrowed := [] } } := by
  have hbundle : bundleOf (updBundle e b (fun k => { k with dirA := emptyDir k.dirA, dirB := emptyDir k.dirB }) (downBundle e b s)) e b =
      { bundleOf s e b with
        width := .down, repairing := false, retraining := false
        dirA := emptyDir { (bundleOf s e b).dirA with borrowed := [] }, dirB := emptyDir { (bundleOf s e b).dirB with borrowed := [] } } := by
    rw [bundleOf_updBundle_self, downBundle, bundleOf_updBundle_self]
  rw [(flitsMoved_moveFlits e b (downBundle e b s)).still e b (by rw [hbundle]; rfl), hbundle]

/-- Another bundle is as it was but for its flits. -/
theorem lanes_moveFlits_down {c : Nat} (hb : b < 32) (hc : c < 32) (hne : c ≠ b) :
    (bundleOf (moveFlits e b (downBundle e b s)) e c).withoutFlits = (bundleOf s e c).withoutFlits := by
  have hkey : ¬e * 32 + c = e * 32 + b := by omega
  rw [(flitsMoved_moveFlits e b (downBundle e b s)).lanes e c, bundleOf_updBundle, if_neg hkey, downBundle, bundleOf_updBundle, if_neg hkey]

/-- A bundle goes down, with record 0x6103, while another one of its role stays up. -/
theorem bundleDown_of_mate {c : Nat} (hcells : s.err.inj.cells = []) (hb : b < bundlesOf e) (hbounded : QueueBounded s)
    (hroom : queueFull s.err = false) (hc : c < bundlesOf e) (hne : c ≠ b) (hrole : (bundleOf s e c).role = (bundleOf s e b).role)
    (hup : (bundleOf s e c).width ≠ .down) (injected : Bool) :
    let t := bundleDown e b injected s
    bundleOf t e b = bundleOf (moveFlits e b (downBundle e b s)) e b ∧ (recordAt t.err s.err.written).code = 0x6103 := by
  intro t
  have hle := bundlesOf_le e
  have hmoved := lanes_moveFlits_down (s := s) (e := e) (show b < 32 by omega) (show c < 32 by omega) hne
  have hself := bundleOf_moveFlits_down e b s
  have herr : (moveFlits e b (downBundle e b s)).err = s.err := (congrArg State.err (flitsMoved_moveFlits e b (downBundle e b s)).only :)
  have ht : t = if roleUp (report (kerfRecord 0x6103 e b false 0 injected (moveFlits e b (downBundle e b s))) (moveFlits e b (downBundle e b s))) e
      (bundleOf (report (kerfRecord 0x6103 e b false 0 injected (moveFlits e b (downBundle e b s))) (moveFlits e b (downBundle e b s))) e b).role then
      fitPorts e (report (kerfRecord 0x6103 e b false 0 injected (moveFlits e b (downBundle e b s))) (moveFlits e b (downBundle e b s)))
    else roleLost e b (report (kerfRecord 0x6103 e b false 0 injected (moveFlits e b (downBundle e b s))) (moveFlits e b (downBundle e b s))) := rfl
  generalize moveFlits e b (downBundle e b s) = u at hmoved hself herr ht ⊢
  have hsame (i : Nat) : bundleOf (report (kerfRecord 0x6103 e b false 0 injected u) u) e i = bundleOf u e i :=
    bundleOf_congr (congrArg KerfBlock.bundles (report_kerf _ u)) e i
  have hmate : roleUp (report (kerfRecord 0x6103 e b false 0 injected u) u) e (bundleOf (report (kerfRecord 0x6103 e b false 0 injected u) u) e b).role =
      true := List.any_eq_true.mpr ⟨c, List.mem_range.mpr hc, by
    rw [hsame, hsame, hself, width_of_lanes hmoved, role_of_lanes hmoved, hrole]
    simp [hup]⟩
  rw [if_pos hmate] at ht
  have hroom' : queueFull u.err = false := by rw [herr]; exact hroom
  obtain ⟨hcode, -⟩ := report_module_fields (s := u) (e := kerfRecord 0x6103 e b false 0 injected u) rfl hroom'
    fun h => absurd (show classOf 0x6103 = .corrected from h) (by decide)
  have hwritten := report_written_of_room (s := u) (e := kerfRecord 0x6103 e b false 0 injected u) hroom' (undelivered_module u _ rfl)
    (show classOf 0x6103 ≠ .corrected by decide)
  have hlt := written_lt_of_room hroom'
  have hread : u.err.read ≤ u.err.written := by rw [herr]; exact hbounded.1
  have hcalm : Calm 0x6103 u.err.written u.kerf (report (kerfRecord 0x6103 e b false 0 injected u) u) := by
    refine ⟨⟨?_, ?_, ?_, ?_, hcode⟩, report_kerf ..⟩
    · rw [report_err_inj, herr, hcells]
    · rw [hwritten, report_err_read]
      exact hlt
    · rw [report_err_read]
      exact hread
    · rw [hwritten]
      exact Nat.lt_succ_self _
  obtain ⟨hstands, hkerf⟩ := calm_fitPorts hcalm e
  rw [← ht] at hstands hkerf
  exact ⟨bundleOf_congr (congrArg KerfBlock.bundles hkerf) e b, by rw [← herr]; exact hstands.same⟩

end Down

/-- A bundle whose clock pair has failed in one direction. -/
def clockLost (e b : Nat) (dirB : Bool) (s : State) : State :=
  updBundle e b (fun k => setDir dirB { dirOf k dirB with clockFailed := true } k) s

theorem role_clockLost (e b : Nat) (dirB : Bool) (s : State) (e' b' : Nat) : (bundleOf (clockLost e b dirB s) e' b').role = (bundleOf s e' b').role :=
  bundleOf_updBundle_image KerfBundle.role e b e' b' (setDir_role ..)

theorem width_clockLost (e b : Nat) (dirB : Bool) (s : State) (e' b' : Nat) : (bundleOf (clockLost e b dirB s) e' b').width = (bundleOf s e' b').width :=
  bundleOf_updBundle_image KerfBundle.width e b e' b' (setDir_width ..)

/-! ### Where a flit goes (R345–R347) -/

section Hop
variable {die : Nat} {f : KerfFlit} {s : State}

theorem nextHop_of_hub (hdie : die < 4) (hhub : hubClass f = true) : nextHop s die f = (die, true) := by
  have h4 : die ≠ 4 := by omega
  have hlow : ¬4 < die := by omega
  simp only [nextHop, if_neg h4, if_neg hlow, hhub, if_true]

theorem nextHop_of_neighbour (hdie : die < 4) (hhub : hubClass f = false) (hdest : f.dest = (die + 1) % 4) (hup : directUp s (4 + die) = true) :
    nextHop s die f = (4 + die, false) := by
  have h4 : die ≠ 4 := by omega
  have hlow : ¬4 < die := by omega
  simp only [nextHop, if_neg h4, if_neg hlow, hhub, Bool.false_eq_true, if_false, if_pos (And.intro hdest hup)]

theorem flitRole_of_port {e : Nat} (he : 8 ≤ e) (dirB : Bool) : flitRole s e dirB f = .port := if_pos he

theorem flitRole_of_direct {e : Nat} (hlow : 4 ≤ e) (hhigh : e < 8) (dirB : Bool) : flitRole s e dirB f = .direct :=
  (if_neg (by omega)).trans (if_pos hlow)

theorem flitRole_of_bulk {e : Nat} (he : e < 4) (hhub : hubClass f = false) (dirB : Bool) : flitRole s e dirB f = .bulk := by
  rw [flitRole, if_neg (by omega), if_neg (by omega), if_pos (by rw [hhub]; rfl)]

theorem flitRole_of_ordered {e : Nat} (he : e < 4) (hordered : hubOrdered f = true) (dirB : Bool) : flitRole s e dirB f = .hub := by
  rw [flitRole, if_neg (by omega), if_neg (by omega), if_neg (by rw [hubClass_of_ordered hordered]; decide),
    if_neg (by rw [hordered]; simp)]

/-- A flit takes HUB_OVERFLOW only where one of its bundles takes flits. -/
theorem overflow_nonempty {e : Nat} {dirB : Bool} (h : flitRole s e dirB f = .hubOverflow) : roleBundles s e .hubOverflow ≠ [] := by
  intro hnone
  simp only [flitRole, hnone, List.isEmpty_nil, Bool.not_true, Bool.and_false, Bool.false_eq_true, if_false] at h
  split at h
  · cases h
  · split at h
    · cases h
    · split at h <;> cases h

end Hop

theorem flitsTakeBundles (die : Nat) (f : KerfFlit) (s : State) :
    let e := (nextHop s die f).1
    let dirB := (nextHop s die f).2
    let r := flitRole s e dirB f
    let bs := roleBundles s e r
    (bs ≠ [] → r ≠ .hubOverflow → ∃ b ∈ bs, ∀ g, nextHop s die g = nextHop s die f → flitRole s e dirB g = r →
      spreadKey e g = spreadKey e f → assignFlit die g s = queueFlit e b dirB g s) ∧
    (r = .hubOverflow → let turn := s.kerf.overflowTurn.get 0 (e * 2 + bitNat dirB)
      ∃ b, bs[turn % bs.length]? = some b ∧ ∃ t, assignFlit die f s = t ∧
        (dirOf (bundleOf t e b) dirB).queue = (dirOf (bundleOf s e b) dirB).queue ++ [f] ∧
        t.kerf.overflowTurn.get 0 (e * 2 + bitNat dirB) = turn + 1) := by
  intro e dirB r bs
  refine ⟨fun hsome hne => ?_, fun hover => ?_⟩
  · obtain ⟨b, hb, hat⟩ := bundleAt_mem (s := s) (e := e) (dirB := dirB) hsome (spreadPlace s e dirB bs f)
    refine ⟨b, hb, fun g hhop hrole hkey => assignFlit_of_spread hhop hrole hne ?_⟩
    rw [spreadPlace, hkey]
    exact hat
  · intro turn
    have hbs : bs = roleBundles s e .hubOverflow := congrArg (roleBundles s e) hover
    have hlt : turn % (roleBundles s e .hubOverflow).length < (roleBundles s e .hubOverflow).length :=
      Nat.mod_lt _ (List.length_pos_iff.mpr (overflow_nonempty hover))
    refine ⟨(roleBundles s e .hubOverflow)[turn % (roleBundles s e .hubOverflow).length], by rw [hbs]; exact List.getElem?_eq_getElem hlt, _,
      assignFlit_of_turn (e := e) (dirB := dirB) rfl hover (List.getElem?_eq_getElem hlt), ?_, Table.get_set_self ..⟩
    show (dirOf (bundleOf (queueFlit e _ dirB f s) e _) dirB).queue = _
    rw [queueFlit, bundleOf_updBundle_self, dirOf_setDir]

/-- Settles O58: flits by the bundle that they take, lanes by the check, repair, retraining or loss that they meet. -/
theorem kerfLanesRepair : Obligations.KerfLanesRepair := by
  unfold Obligations.KerfLanesRepair
  refine ⟨⟨fun die f s => ?_, fun f s hordered hheld => ?_, fun e b number dirB good offered s hno => kerfFlitReceive_of_none hno good offered⟩,
    fun e b dirB s he hb hup hcells => ?_⟩
  · intro e dirB r bs
    obtain ⟨hspread, hturn⟩ := flitsTakeBundles die f s
    refine ⟨fun h => flitRole_of_port h _, fun hlow hhigh => flitRole_of_direct hlow hhigh _, fun h hhub => flitRole_of_bulk h hhub _,
      fun h hordered => flitRole_of_ordered h hordered _, fun hdie hhub => ?_, fun hdie hhub hdest hdirect => ?_,
      fun hnone => assignFlit_of_none rfl rfl hnone, hspread, hturn⟩
    · have h := nextHop_of_hub (s := s) hdie hhub
      exact ⟨congrArg Prod.fst h, congrArg Prod.snd h⟩
    · have h := nextHop_of_neighbour hdie hhub hdest hdirect
      exact ⟨congrArg Prod.fst h, congrArg Prod.snd h⟩
  · exact ⟨takeFlit_in_turn hordered hheld, takeFlit_early hordered hheld⟩
  · intro k d only
    refine ⟨fun number hcarries => ⟨fun hout good => ?_, fun hlow hhigh => ?_, fun f fs hqueue hnumber => ?_⟩, fun m hcarries hfrom => ?_,
      fun l hchecked hsuspect hbursts => ?_, fun hrate l hl hinner hsuspect hfull hrepairing hretraining hclean _ hroom => ?_,
      fun hrate hbursts hdue hretraining _ hroom => ?_, fun hrepairing hwaiting => ?_, fun hretraining hwaiting => ?_,
      fun hbounded hroom hmate => ?_⟩
    · refine ⟨_, (kerfFlitReceive_of_carries he hb hcarries good).trans (congrArg Host.Outcome.next (flitArrives_of_out hout good)),
        onlyBundles_updBundle .., ?_⟩
      rw [bundleOf_updBundle_self, setDir_dirOf]
    · refine ⟨_, (kerfFlitReceive_of_carries he hb hcarries false).trans (congrArg Host.Outcome.next (flitArrives_of_bad hlow hhigh)),
        onlyBundles_updBundle .., ?_⟩
      rw [bundleOf_updBundle_self]
    · exact ⟨(kerfFlitReceive_of_carries he hb hcarries true).trans (congrArg Host.Outcome.next (flitArrives_in_turn hqueue hnumber)),
        fun hdest hordered => arriveFlit_of_unordered hdest hordered _⟩
    · have hexec : exec (.kerfReplay e b dirB) s = .next (kerfReplay e b dirB s) := congrArg Host.Outcome.next (if_pos ⟨he, hb, hcarries⟩)
      refine ⟨_, hexec.trans (congrArg Host.Outcome.next (kerfReplay_of_unarmed hcells hfrom)), onlyBundles_updBundle .., ?_⟩
      rw [bundleOf_updBundle_self]
      refine ⟨rfl, ?_, ?_⟩
      · cases dirB <;> rfl
      · cases dirB <;> exact countReplays_lanes ..
    · obtain ⟨hcheck, htested⟩ := laneCheck_notes hcells hchecked hsuspect hbursts
      refine ⟨_, (execKerfLaneCheck_of_up he hb hup [l]).trans (congrArg Host.Outcome.next hcheck), onlyBundles_updBundle .., ?_⟩
      rw [checkNoted, bundleOf_updBundle_self, dirOf_setDir, htested]
      exact ⟨rfl, setDir_width .., rfl⟩
    · exact ⟨_, execKerfLaneCheck_of_up he hb hup [l], laneCheck_steers hcells hrate hl hinner hsuspect hfull hrepairing hretraining hclean hroom⟩
    · exact ⟨_, execKerfLaneCheck_of_up he hb hup [], laneCheck_retrains hcells hrate hbursts hdue hretraining hroom⟩
    · have hexec : exec (.pausedRepairDone e b [] []) s = .next (updBundle e b (fun k => { k with repairing := false }) s) := by
        refine congrArg Host.Outcome.next ((if_neg ?_).trans ((if_pos rfl).trans (wakeFlits_of_none hwaiting)))
        rw [show (bundleOf s e b).repairing = true from hrepairing]
        simp [he, hb]
      refine ⟨_, hexec, onlyBundles_updBundle .., ?_⟩
      rw [bundleOf_updBundle_self]
    · have hexec : exec (.kerfRetrainDone e b [] []) s = .next (updBundle e b (fun k => { k with retraining := false }) (takeFailures e b [] [] s)) := by
        refine congrArg Host.Outcome.next ((if_neg ?_).trans (wakeFlits_of_none hwaiting))
        rw [show (bundleOf s e b).retraining = true from hretraining]
        simp [he, hb]
      refine ⟨_, hexec, OnlyBundles.trans (onlyBundles_updBundle ..) (onlyBundles_updBundle ..), ?_⟩
      rw [bundleOf_updBundle_self, takeFailures, bundleOf_updBundle_self]
      exact ⟨rfl, rfl, rfl, rfl⟩
    · obtain ⟨c, hc, hne, hrole, hmateUp⟩ := hmate
      have hexec : exec (.kerfClockLoss e b dirB) s = .next (bundleDown e b false (clockLost e b dirB s)) :=
        congrArg Host.Outcome.next (if_pos ⟨he, hb, hup⟩)
      obtain ⟨hbundle, hcode⟩ := bundleDown_of_mate (s := clockLost e b dirB s) hcells hb hbounded hroom hc hne
        (by rw [role_clockLost, role_clockLost]; exact hrole) (by rw [width_clockLost]; exact hmateUp) false
      refine ⟨_, hexec, ?_, ?_, hcode, ?_, ?_⟩ <;> rw [hbundle, bundleOf_moveFlits_down]
      · rw [clockLost, bundleOf_updBundle_self]
        cases dirB <;> rfl
      · rfl
      · rfl

end Sys2Proof.Machine
end

