-- ==== Sys2Proof/Proofs/ArrayPasses.lean ====
section
/-!
PROOFS. Proofs/ArrayPasses.lean: a pass of the array: when it waits, how its tile begins, and what it adds to the bank (R123–R125, R157,
R159, R190, R396).
-/

namespace Sys2Proof.Machine

/-! ### Banks -/

@[simp] theorem getBank_setBank (b : Bench) (inB : Bool) (k : Option Bank) : getBank (setBank b inB k) inB = k := by
  cases inB <;> rfl

@[simp] theorem getBank_setBank_other (b : Bench) (inB : Bool) (k : Option Bank) : getBank (setBank b inB k) (!inB) = getBank b (!inB) := by
  cases inB <;> rfl

@[simp] theorem setBank_skid (b : Bench) (inB : Bool) (k : Option Bank) : (setBank b inB k).skid = b.skid := by
  cases inB <;> rfl

@[simp] theorem setBank_nextB (b : Bench) (inB : Bool) (k : Option Bank) : (setBank b inB k).nextB = b.nextB := by
  cases inB <;> rfl

/-- A bank is all that getBank reads. -/
theorem getBank_congr {b c : Bench} (ha : c.bankA = b.bankA) (hb : c.bankB = b.bankB) (inB : Bool) : getBank c inB = getBank b inB := by
  cases inB
  · exact ha
  · exact hb

/-! ### The start of a pass (R123, R159, R319, R396) -/

section Start
variable {n : Nat} {a : ArrayRun} {t : Task} {d : MatDesc} {s : State}

/-- Bench n runs the array task t, which works on. -/
structure PassDue (n : Nat) (a : ArrayRun) (t : Task) (d : MatDesc) (s : State) : Prop where
  run : (benchOf s n).run = some a
  task : findTask s a.ring a.seq = some t
  body : t.body = .mat d
  works : worksOn s n t = true
  goes : t.stopping = false
  passes : taskPasses d ≠ 0

theorem passStart_of_due (h : PassDue n a t d s) : passStart n s =
    if scratchHeld s t n (passRuns d a) || !governorAdmits s n d a then s
    else if a.kp = 0 && !tileOpen (benchOf s n) a then beginTile n t d a (runPass n t d a) s
    else runPass n t d a s := by
  obtain ⟨hrun, htask, hbody, hworks, hgoes, hpasses⟩ := h
  simp [passStart, hrun, htask, hbody, hworks, hgoes, hpasses]

theorem passStart_of_held (h : PassDue n a t d s) (hheld : scratchHeld s t n (passRuns d a) = true ∨ governorAdmits s n d a = false) :
    passStart n s = s := by
  rw [passStart_of_due h, if_pos]
  rcases hheld with hheld | hheld <;> simp [hheld]

theorem passStart_of_free (h : PassDue n a t d s) (hheld : scratchHeld s t n (passRuns d a) = false) (hadmits : governorAdmits s n d a = true) :
    passStart n s = if a.kp = 0 && !tileOpen (benchOf s n) a then beginTile n t d a (runPass n t d a) s else runPass n t d a s := by
  rw [passStart_of_due h, if_neg (by simp [hheld, hadmits])]

/-! ### The start of a tile (R124, R190) -/

theorem beginTile_of_room {go : State → State} (hvector : vectorWaits s n = false) (hbank : getBank (benchOf s n) (benchOf s n).nextB = none)
    (hroom : (benchOf s n).skid.length + tileEntries d ≤ 16) {r : Except W16 TileInput} {s1 : State}
    (hread : readTile (moveRequester t n) d a.tile (benchOf s n) s = (.done r, s1)) :
    (∀ x, r = .ok x → beginTile n t d a go s = go (updBenchState n (openTile t d a.tile x) s1)) ∧
      (∀ e, r = .error e → beginTile n t d a go s = endEarly t e s1) := by
  have hfree : ((getBank (benchOf s n) (benchOf s n).nextB).isSome || vectorWaits s n) = false := by rw [hbank, hvector]; rfl
  constructor <;> intro x hx <;> subst hx <;>
    simp only [beginTile, hfree, Bool.false_eq_true, if_false, if_neg (Nat.not_lt.mpr hroom), hread, arrayReply]

theorem beginTile_of_full {go : State → State} (hvector : vectorWaits s n = false) (hbank : getBank (benchOf s n) (benchOf s n).nextB = none)
    (hfull : 16 < (benchOf s n).skid.length + tileEntries d) : beginTile n t d a go s = withhold n s := by
  have hfree : ((getBank (benchOf s n) (benchOf s n).nextB).isSome || vectorWaits s n) = false := by rw [hbank, hvector]; rfl
  simp only [beginTile, hfree, Bool.false_eq_true, if_false, if_pos hfull]

/-- A withheld row counts in SKID_WAIT and does nothing else. -/
theorem withhold_keeps (n : Nat) (s : State) : (withhold n s).mem = s.mem ∧ (withhold n s).scratch = s.scratch ∧ (withhold n s).tasks = s.tasks ∧
    { benchOf (withhold n s) n with skidWait := 0 } = { benchOf s n with skidWait := 0 } ∧ ∀ m, m ≠ n → benchOf (withhold n s) m = benchOf s m := by
  refine ⟨rfl, rfl, rfl, ?_, fun m hm => ?_⟩
  · simp only [withhold, benchOf_updBenchState_self]
    rfl
  · exact benchOf_updBenchState_ne hm _ _

theorem length_reservedEntries (t : Task) (d : MatDesc) (tile : Nat) : (reservedEntries t d tile).length = tileEntries d := by
  simp [reservedEntries]

/-- A tile that is opened has its entries and its bank. -/
theorem openTile_opens (t : Task) (d : MatDesc) (tile : Nat) (x : TileInput) (b : Bench) :
    (openTile t d tile x b).skid = b.skid ++ reservedEntries t d tile ∧ (reservedEntries t d tile).length = tileEntries d ∧
      ∃ k, getBank (openTile t d tile x b) b.nextB = some k ∧ k.cells = x.cells ∧ k.scales = x.scales ∧ k.full = false ∧ k.draining = false := by
  refine ⟨rfl, length_reservedEntries t d tile, _, (getBank_congr rfl rfl _).trans (getBank_setBank b b.nextB _), rfl, rfl, rfl, rfl⟩

end Start

/-! ### What a pass adds (R104, R123, R133) -/

section Pass
variable {n : Nat} {a : ArrayRun} {t : Task} {d : MatDesc} {s : State} {ps : List (Nat × SlotPanels)}

/-- A pass changes its bench, and may draw a free number. -/
theorem addPass_forms (n : Nat) (d : MatDesc) (a : ArrayRun) (ps : List (Nat × SlotPanels)) (s : State) :
    ∃ gated weight c, addPass n d a ps s = updBenchState n (takePass d a ps gated weight) { s with freeCount := c } ∧
      ((passGated d a ps).2 = 0 → gated = (passGated d a ps).1) := by
  by_cases hzero : (passGated d a ps).2 = 0
  · exact ⟨_, _, s.freeCount, (if_pos hzero).trans rfl, fun _ => rfl⟩
  · exact ⟨_, _, s.freeCount + 1, (if_neg hzero).trans rfl, fun h => absurd h hzero⟩

theorem takePass_passes (gated weight : Nat) (b : Bench) :
    (takePass d a ps gated weight b).passes = (b.passes + if ps.isEmpty then 0 else 1) % 2 ^ 64 := by
  cases hempty : ps.isEmpty <;> simp [takePass, wrapAdd, hempty, bitNat]

theorem runPass_of_read {ws as : List (Nat × List Nat)} {x s0 s1 : State}
    (hweights : passWeights (moveRequester t n) d a (benchOf x n) x = (.done ws, s0))
    (hstreams : readStreams (moveRequester t n) d a.tile a.kp s0 = (.done as, s1)) :
    let u := addPass n d a (passPanels (getBank (benchOf s1 n) (benchOf s1 n).nextB) ws as) s1
    let v := loadShadow n (noteArrayDone t n (updBenchState n (nextPass d a) (if a.kp = 0 then loadScales n t d a.tile u else u)))
    v.err.inj.cells = [] → runPass n t d a x = v := by
  intro u v hcells
  unfold runPass
  extract_lets q
  rw [hweights]
  dsimp only [arrayReply]
  rw [hstreams]
  show (if benchSealed v t = true then v else benchInject _ n _ _ v) = v
  rw [benchInject_of_unarmed hcells, ite_self]

end Pass

/-- Settles O34: a pass by what holds it, its first one by the tile that it opens, and what it adds by the bank of its tile. -/
theorem passesAddIntoTheBank : Obligations.PassesAddIntoTheBank := by
  unfold Obligations.PassesAddIntoTheBank
  intro n a t d s hrun htask hbody hworks hgoes hpasses
  have hdue : PassDue n a t d s := ⟨hrun, htask, hbody, hworks, hgoes, hpasses⟩
  refine ⟨fun hheld => congrArg Host.Outcome.next (passStart_of_held hdue hheld), fun hheld hadmits hopen => ?_,
    fun hheld hadmits hfirst hclosed hvector hbank => ?_, fun x ws as s0 s1 hweights hstreams => ?_⟩
  · refine congrArg Host.Outcome.next ((passStart_of_free hdue hheld hadmits).trans (if_neg ?_))
    rcases hopen with hopen | hopen <;> simp [hopen]
  · have hbegin : exec (.passStart n) s = .next (beginTile n t d a (runPass n t d a) s) :=
      congrArg Host.Outcome.next ((passStart_of_free hdue hheld hadmits).trans (if_pos (by simp [hfirst, hclosed])))
    refine ⟨fun r s1 hroom hread => ?_, fun hfull => ?_⟩
    · obtain ⟨hok, herror⟩ := beginTile_of_room (go := runPass n t d a) hvector hbank hroom hread
      exact ⟨fun x hx => ⟨hbegin.trans (congrArg Host.Outcome.next (hok x hx)), openTile_opens t d a.tile x⟩,
        fun e he => hbegin.trans (congrArg Host.Outcome.next (herror e he))⟩
    · exact ⟨_, hbegin.trans (congrArg Host.Outcome.next (beginTile_of_full hvector hbank hfull)), withhold_keeps n s⟩
  · intro b ps u v
    obtain ⟨gated, weight, c, hu, hgated⟩ := addPass_forms n d a ps s1
    have hbench : benchOf u n = takePass d a ps gated weight b := by
      show benchOf (addPass n d a ps s1) n = _
      rw [hu, benchOf_updBenchState_self]
      rfl
    refine ⟨runPass_of_read hweights hstreams, fun m hm => ?_, ?_, ?_, ?_, ?_, ?_, ?_, ?_, fun k hk => ?_, fun hzero => ?_⟩
    · show benchOf (addPass n d a ps s1) m = _
      rw [hu]
      exact benchOf_updBenchState_ne hm _ _
    · exact (congrArg State.mem hu :)
    · exact (congrArg State.scratch hu :)
    · exact (congrArg State.err hu :)
    · exact (congrArg State.power hu :)
    · rw [hbench]
      exact setBank_skid ..
    · rw [hbench, takePass_passes]
    · rw [hbench]
      exact (getBank_setBank_other b b.nextB _).symm.trans (getBank_congr rfl rfl _).symm
    · rw [hbench]
      refine (getBank_congr (b := setBank b b.nextB ((getBank b b.nextB).map _)) rfl rfl b.nextB).trans ?_
      rw [getBank_setBank, hk]
      rfl
    · rw [hbench, ← hgated hzero]
      rfl

end Sys2Proof.Machine
end

