-- ==== Sys2Proof/Proofs/TileDrains.lean ====
section
/-!
PROOFS. Proofs/TileDrains.lean: the drain of a tile, the entries the Dresser takes and frees, and what the detectors of a bench do (R107, R124,
R145, R191–R193, R198, R460).
-/

namespace Sys2Proof.Machine

/-! ### The drain of a tile (R107, R124) -/

section Drain
variable {n : Nat} {s : State} {inB : Bool} {k : Bank} {t : Task} {d : MatDesc}

/-- What a tile's entries take: its conversion, or free values. -/
def tileResult (d : MatDesc) (k : Bank) (s : State) : Drained :=
  if outputsOverlap d then freeDrained d k.tile s.freeCount (drainTile d k) else drainTile d k

theorem tileResult_sat (d : MatDesc) (k : Bank) (s : State) : (tileResult d k s).sat = (drainTile d k).sat := by
  unfold tileResult
  split <;> rfl

/-- A bench whose bank drains. -/
def drainedInto (t : Task) (inB : Bool) (k : Bank) (o : Drained) (b : Bench) : Bench :=
  { setBank b inB (some { k with draining := true }) with skid := fillEntries t k.tile o b.skid, accSat := wrapAdd 64 b.accSat o.sat.length }

theorem drainBank_of_task (hbank : getBank (benchOf s n) inB = some k) (htask : findTask s k.ring k.seq = some t) (hbody : t.body = .mat d) :
    ∃ c, drainBank n inB s = updBenchState n (drainedInto t inB k (tileResult d k s)) { s with freeCount := c } := by
  by_cases hover : outputsOverlap d = true
  · exact ⟨s.freeCount + freeTileWords, by simp only [drainBank, hbank, htask, hbody, hover, if_true, tileResult]; rfl⟩
  · exact ⟨s.freeCount, by simp only [drainBank, hbank, htask, hbody, hover, Bool.false_eq_true, if_false, tileResult]; rfl⟩

theorem tileDrain_of_due (hclock : clockOn s n = true) (hdue : drainDue (benchOf s n) = some inB)
    (hA : ((benchOf s n).bankA.all fun b => !b.draining) = true) (hB : ((benchOf s n).bankB.all fun b => !b.draining) = true) :
    tileDrain n s = drainBank n inB s := by
  cases ha : (benchOf s n).bankA <;> cases hb : (benchOf s n).bankB <;> rw [ha] at hA <;> rw [hb] at hB <;>
    simp_all [tileDrain]

end Drain

/-! ### The boundary of a tile (R124) -/

theorem tileBoundary_banks (b : Bench) (k : Bank) (h : (tileBoundary b).bankA = some k ∨ (tileBoundary b).bankB = some k) : k.draining = false := by
  cases ha : b.bankA <;> cases hb : b.bankB <;> simp [tileBoundary, ha, hb] at h <;> grind

theorem tileBoundary_skid (b : Bench) : (∀ e ∈ (tileBoundary b).skid, e.draining = false) ∧ (tileBoundary b).skid.length = b.skid.length ∧
    ∀ e ∈ b.skid, e.draining = true → { e with draining := false, drained := true } ∈ (tileBoundary b).skid := by
  refine ⟨fun e he => ?_, List.length_map _, fun e he hdraining => ?_⟩
  · obtain ⟨x, -, hx⟩ := List.mem_map.mp he
    rw [← hx]
    split
    · rfl
    · rename_i hnot
      exact Bool.eq_false_iff.mpr hnot
  · exact List.mem_map.mpr ⟨e, he, if_pos hdraining⟩

/-! ### Entries of the skid (R191–R193) -/

section Entry
variable {n : Nat} {s : State} {e : SkidEntry} {es : List SkidEntry} {t : Task} {d : MatDesc}

/-- The Dresser of bench n may take the entry e of the array task t. -/
structure EntryDue (n : Nat) (e : SkidEntry) (es : List SkidEntry) (t : Task) (d : MatDesc) (s : State) : Prop where
  clock : clockOn s n = true
  idle : (benchOf s n).dresser = none
  first : (benchOf s n).skid = e :: es
  drained : e.drained = true
  task : findTask s e.ring e.seq = some t
  ring : t.ring = e.ring
  seq : t.seq = e.seq
  body : t.body = .mat d
  goes : t.blocked = false
  unarmed : s.err.inj.cells = []

/-- The run of an entry that is only stored. -/
def storeRun (t : Task) (tag : TileTag) : DresserRun := { ring := t.ring, seq := t.seq, desc := {}, entry := some tag, done := true }

theorem entryStart_of_store (h : EntryDue n e es t d s) (hepilogue : d.epilogue = none) {s1 : State}
    (hwrite : writeAll (dresserRequester t n) (entryWrites d e) s = (.done (), s1)) :
    entryStart n s = updBenchState n (fun b => { b with regs := {}, dresser := some (storeRun t e.tag), activity := .storing }) s1 := by
  obtain ⟨hclock, hidle, hfirst, hdrained, htask, hring, hseq, hbody, hgoes, hcells⟩ := h
  have howned : ownedBy e.ring e.seq e.ring e.seq = true := by simp [ownedBy]
  simp only [entryStart, hidle, hfirst, hdrained, hclock, htask, hbody, hgoes, benchInject_of_unarmed hcells, ite_self, hepilogue, hwrite,
    hring, hseq, howned, Bool.not_true, Bool.or_false, Bool.false_eq_true, if_false, List.head?_cons, Option.map_some, ne_eq, not_true_eq_false,
    storeRun]

theorem entryStart_of_epilogue (h : EntryDue n e es t d s) {v : VectorDesc} (hepilogue : d.epilogue = some v) {x : Nat} {xs : List Nat}
    (hproblems : e.tag.problems = x :: xs) : entryStart n s = updBenchState n (beginRun
      { ring := t.ring, seq := t.seq, desc := v, entry := some e.tag, slotsLeft := xs, d2 := x } .epilogue) s := by
  obtain ⟨hclock, hidle, hfirst, hdrained, htask, hring, hseq, hbody, hgoes, hcells⟩ := h
  have howned : ownedBy e.ring e.seq e.ring e.seq = true := by simp [ownedBy]
  simp only [entryStart, hidle, hfirst, hdrained, hclock, htask, hbody, hgoes, benchInject_of_unarmed hcells, ite_self, hepilogue, hproblems,
    hring, hseq, howned, Bool.not_true, Bool.or_false, Bool.false_eq_true, if_false, List.head?_cons, Option.map_some, ne_eq, not_true_eq_false]

end Entry

/-! ### The end of an entry -/

/-- No VECTOR task is due where the only task is of another type. -/
theorem vectorDue_of_other {x : Task} {s : State} (htasks : s.tasks = [x]) (htype : x.header.type ≠ .vector) (n : Nat) : vectorDue s n = none := by
  have hruns : runningOn s n = [] ∨ runningOn s n = [x] := by
    rw [runningOn, htasks, List.filter_singleton]
    cases x.running && x.bench == some n
    · exact .inl rfl
    · exact .inr rfl
  rw [vectorDue]
  rcases hruns with hruns | hruns <;> rw [hruns]
  · rfl
  · rw [firstSome_singleton]
    cases x.body <;> simp only [htype, false_and, if_false]

theorem takeVector_of_other {x : Task} {s : State} (htasks : s.tasks = [x]) (htype : x.header.type ≠ .vector) (n : Nat) : takeVector n s = s := by
  simp only [takeVector, vectorDue_of_other htasks htype, ite_self]

/-- A task that neither ends nor stops is left as it is. -/
theorem settle_of_going {r seq : Nat} {t : Task} {s : State} (htask : findTask s r seq = some t) (hends : t.ends = none) (hgoes : t.stopping = false) :
    settleStop r seq (settleEnds r seq s) = s := by
  have hsettle : settleEnds r seq s = s := by simp only [settleEnds, htask, hends]
  rw [hsettle]
  simp only [settleStop, htask, hgoes, Bool.false_and, Bool.and_false, Bool.false_eq_true, if_false]

/-- The bench of an entry that is freed. -/
def entryFreed (b : Bench) : Bench := { b with dresser := none, activity := .idle, skid := b.skid.drop 1 }

theorem entryFree_of_only {n : Nat} {r : DresserRun} {tag : TileTag} {t : Task} {s : State} (hrun : (benchOf s n).dresser = some r)
    (hentry : r.entry = some tag) (hdone : r.done = true) (htasks : s.tasks = [t]) (hring : t.ring = r.ring) (hseq : t.seq = r.seq)
    (hends : t.ends = none) (hgoes : t.stopping = false) (htype : t.header.type ≠ .vector) :
    entryFree n s = { updBenchState n entryFreed s with tasks := [if tag.last then { t with workDone := true } else t] } := by
  have his (x : Task) (hx : x.ring = t.ring ∧ x.seq = t.seq) : Task.is r.ring r.seq x = true := by simp [Task.is, hx.1, hx.2, hring, hseq]
  have hmark : (if tag.last then markWorkDone r.ring r.seq (updBenchState n entryFreed s) else updBenchState n entryFreed s) =
      { updBenchState n entryFreed s with tasks := [if tag.last then { t with workDone := true } else t] } := by
    cases tag.last with
    | false => simp [updBenchState, htasks]
    | true => simp [markWorkDone, updTask, updBenchState, htasks, his t ⟨rfl, rfl⟩]
  have hfree : entryFree n s = takeVector n (settleStop r.ring r.seq (settleEnds r.ring r.seq
      (if tag.last then markWorkDone r.ring r.seq (updBenchState n entryFreed s) else updBenchState n entryFreed s))) := by
    simp only [entryFree, hrun, hentry, hdone, Bool.not_true, Bool.false_eq_true, if_false]
    rfl
  rw [hfree, hmark]
  generalize htail : (if tag.last then { t with workDone := true } else t) = x
  have hx : x.ring = t.ring ∧ x.seq = t.seq ∧ x.ends = none ∧ x.stopping = false ∧ x.header.type ≠ .vector := by
    rw [← htail]
    split <;> exact ⟨rfl, rfl, hends, hgoes, htype⟩
  obtain ⟨hxring, hxseq, hxends, hxgoes, hxtype⟩ := hx
  have htask : findTask { updBenchState n entryFreed s with tasks := [x] } r.ring r.seq = some x := by
    rw [findTask, List.find?_cons_of_pos (his x ⟨hxring, hxseq⟩)]
  rw [settle_of_going htask hxends hxgoes]
  exact takeVector_of_other (x := x) rfl hxtype n

/-! ### Detectors of a bench (R145, R198, R460) -/

section Detectors
variable {n : Nat} {s : State}

/-- What the array makes of a detector's code. -/
theorem arrayParityError_of_code (hn : n < 512) {c : W16} (hlow : 0x2201 ≤ c.toNat) (hhigh : c.toNat ≤ 0x2204) :
    exec (.arrayParityError n c) s = .next (arrayError n c false (srcBench s n) s) :=
  congrArg Host.Outcome.next (if_pos ⟨hn, hlow, hhigh⟩)

theorem dresserParityError_of_bench (hn : n < 512) : exec (.dresserParityError n) s = .next (dresserError n 0x2320 false s) :=
  congrArg Host.Outcome.next (if_pos hn)

theorem skidEntryError_of_bench (hn : n < 512) (corrected : Bool) :
    exec (.skidEntryError n corrected) s = .next (dresserError n (if corrected then 0x2322 else 0x2321) false s) :=
  congrArg Host.Outcome.next (if_pos hn)

/-- An error of the array's registers or of its adders meets the task whose pass the array holds. -/
theorem arrayParityError_of_pass (hn : n < 512) {c : W16} (hc : c = 0x2201 ∨ c = 0x2202) :
    exec (.arrayParityError n c) s = .next (uncorrectedBench n c false (srcBench s n) (arrayTask s n) true s) := by
  rcases hc with rfl | rfl <;>
    exact (arrayParityError_of_code hn (by decide) (by decide)).trans
      (congrArg Host.Outcome.next ((if_neg (by decide)).trans (if_neg (by decide))))

theorem arrayParityError_of_bank (hn : n < 512) :
    exec (.arrayParityError n 0x2203) s = .next (bankError n false (srcBench s n) s) :=
  (arrayParityError_of_code hn (by decide) (by decide)).trans (congrArg Host.Outcome.next ((if_neg (by decide)).trans (if_pos rfl)))

/-- The end of a task at the tile in which an array error lies. -/
theorem endAtTile_of_array {tile : Bench → Nat} {t : Task} (harray : t.onArray = true) (hbench : t.bench = some n) (e : TaskEnd) :
    endAtTile tile t e s = if entriesLeft (updBenchState n (fun b => abandonTile (tile b) t.ring t.seq b) s) t then
        updTask t.ring t.seq (fun t => { t with ends := some e, arrayDone := true, blocked := false })
          (updBenchState n (fun b => abandonTile (tile b) t.ring t.seq b) s)
      else failAs t e (updBenchState n (fun b => abandonTile (tile b) t.ring t.seq b) s) := by
  simp only [endAtTile, hbench, harray, Bool.true_and]

/-- An error of the only bank that holds a tile, whose task is known. -/
theorem bankError_of_bank {k : Bank} {t : Task} {v : State} (hbank : faultyBank n s = (some k, v)) (htask : findTask v k.ring k.seq = some t)
    (source : W64) : bankError n false source s = countBenchError n true 0x2203
      (endAtTile (erroneousTile t.ring t.seq) t { code := 0x2203, source := some source } (updBenchState n (discardTile k) v)) := by
  simp only [bankError, hbank, htask, uncorrectedBench, if_true]

theorem faultyBank_of_one {k : Bank} (h : ((benchOf s n).bankA = some k ∧ (benchOf s n).bankB = none) ∨
    ((benchOf s n).bankA = none ∧ (benchOf s n).bankB = some k)) : faultyBank n s = (some k, s) := by
  rcases h with ⟨ha, hb⟩ | ⟨ha, hb⟩ <;> simp only [faultyBank, ha, hb]

theorem faultyBank_of_two {k l : Bank} (ha : (benchOf s n).bankA = some k) (hb : (benchOf s n).bankB = some l) :
    ∃ x, (x = k ∨ x = l) ∧ faultyBank n s = (some x, { s with freeCount := s.freeCount + 1 }) := by
  refine ⟨if (drawFree s).1.toNat % 2 = 0 then k else l, ?_, by simp only [faultyBank, ha, hb]; rfl⟩
  split
  · exact .inl rfl
  · exact .inr rfl

/-- A Dresser register error outside the blocks of a VECTOR task. -/
theorem dresserError_of_task {c : W16} {t : Task} (hc : c ≠ 0x2322) (hblock : c = 0x2320 → vectorMidBlock (benchOf s n) = false)
    (htask : dresserTask s n c = some t) : dresserError n c false s =
      countBenchError n true c (failAs t { code := c, source := some (srcBench s n) } s) := by
  have hnot : ¬(c = 0x2320 ∧ vectorMidBlock (benchOf s n) = true) := fun h => by rw [hblock h.1] at h; exact absurd h.2 Bool.false_ne_true
  simp only [dresserError, if_neg hc, if_neg hnot, htask, uncorrectedBench, Bool.false_eq_true, if_false]

section MidBlock
variable {r : DresserRun} (hrun : (benchOf s n).dresser = some r) (hentry : r.entry = none) (hmid : r.midBlock = true)
include hrun hentry hmid

theorem vectorMidBlock_of_run : vectorMidBlock (benchOf s n) = true := by
  simp only [vectorMidBlock, hrun, hentry, hmid, Option.isNone_none, Bool.and_true]

/-- The block's end ends the task. -/
theorem dresserError_of_block (hends : r.ends = none) : dresserError n 0x2320 false s = countBenchError n true 0x2320
    (updBenchState n (fun b => { b with dresser := some { r with ends := some { code := 0x2320 } } }) s) := by
  have hsame : updBenchState n (fun b => { b with dresser := b.dresser.map fun r => { r with ends := some { code := 0x2320, injected := false } } }) s =
      updBenchState n (fun b => { b with dresser := some { r with ends := some { code := 0x2320 } } }) s := by
    have hbench : (s.benches.get {} n).dresser = some r := hrun
    simp only [updBenchState, Table.update, hbench, Option.map_some]
  have hany : ((benchOf s n).dresser.any fun r => r.ends.isSome) = false := by rw [hrun, Option.any_some, hends]; rfl
  rw [dresserError, if_neg (by decide), if_pos ⟨rfl, vectorMidBlock_of_run hrun hentry hmid⟩, if_neg (by rw [hany]; exact Bool.false_ne_true), hsame]

/-- In a block that already ends, the error has its record alone. -/
theorem dresserError_of_ending (hends : r.ends.isSome = true) : dresserError n 0x2320 false s =
    countBenchError n true 0x2320 (report { code := 0x2320, source := srcBench s n } s) := by
  have hany : ((benchOf s n).dresser.any fun r => r.ends.isSome) = true := by rw [hrun, Option.any_some, hends]
  rw [dresserError, if_neg (by decide), if_pos ⟨rfl, vectorMidBlock_of_run hrun hentry hmid⟩, if_pos hany]
  rfl

end MidBlock

end Detectors

/-- Settles O35: a tile by its drain and boundary, an entry by its beginning and end, an error by the detector and what it meets. -/
theorem tilesDrainOrFail : Obligations.TilesDrainOrFail := by
  unfold Obligations.TilesDrainOrFail
  refine ⟨fun n s hclock => ⟨fun inB k t d hdue hbank htask hbody hA hB => ?_, fun hn => ?_,
    fun e es t d hidle hfirst hdrained htask hring hseq hbody hgoes hcells => ?_,
    fun r tag t hrun hentry hdone htasks hring hseq hends hgoes htype => ?_⟩, fun n s hn => ?_⟩
  · intro o
    obtain ⟨c, hdrain⟩ := drainBank_of_task hbank htask hbody
    refine ⟨_, congrArg Host.Outcome.next ((tileDrain_of_due hclock hdue hA hB).trans hdrain), ?_, ?_, ?_, rfl, rfl, rfl⟩ <;>
      rw [benchOf_updBenchState_self]
    · exact (getBank_congr rfl rfl inB).trans (getBank_setBank (benchOf s n) inB _)
    · rfl
    · show wrapAdd 64 _ (tileResult d k s).sat.length = _
      rw [tileResult_sat]
      rfl
  · have hexec : exec (.tileBoundary n) s = .next (updBenchState n tileBoundary s) := congrArg Host.Outcome.next (if_pos ⟨hn, hclock⟩)
    obtain ⟨hdraining, hlength, hdrained⟩ := tileBoundary_skid (benchOf s n)
    refine ⟨_, hexec, ?_⟩
    rw [benchOf_updBenchState_self]
    exact ⟨tileBoundary_banks _, hdraining, hlength, hdrained, rfl, rfl, rfl⟩
  · have hentry : EntryDue n e es t d s := ⟨hclock, hidle, hfirst, hdrained, htask, hring, hseq, hbody, hgoes, hcells⟩
    refine ⟨fun s1 hepilogue hwrite => ?_, fun v x xs hepilogue hproblems => ?_⟩
    · refine ⟨_, congrArg Host.Outcome.next (entryStart_of_store hentry hepilogue hwrite), ?_⟩
      rw [benchOf_updBenchState_self]
      exact ⟨rfl, rfl, rfl, rfl, rfl⟩
    · refine ⟨_, congrArg Host.Outcome.next (entryStart_of_epilogue hentry hepilogue hproblems), ?_⟩
      rw [benchOf_updBenchState_self]
      exact ⟨rfl, rfl, rfl, rfl, rfl, rfl⟩
  · have hfree := entryFree_of_only hrun hentry hdone htasks hring hseq hends hgoes htype
    have hbench : benchOf { updBenchState n entryFreed s with tasks := [if tag.last then { t with workDone := true } else t] } n =
        entryFreed (benchOf s n) := benchOf_updBenchState_self n entryFreed s
    refine ⟨_, congrArg Host.Outcome.next hfree, ?_, ?_, ?_, rfl, rfl, rfl⟩ <;> rw [hbench] <;> rfl
  · refine ⟨?_, ?_, fun c hc => ⟨fun hnone => ?_, fun t htask harray hbench => ?_⟩, fun hA hB => ?_, ?_⟩
    · exact (arrayParityError_of_code hn (by decide) (by decide)).trans (congrArg Host.Outcome.next (if_pos rfl))
    · exact (skidEntryError_of_bench hn true).trans (congrArg Host.Outcome.next (if_pos rfl))
    · rw [arrayParityError_of_pass hn hc, hnone]
      rfl
    · intro u e
      have hexec : exec (.arrayParityError n c) s = .next (countBenchError n true c (endAtTile (erroneousTile t.ring t.seq) t e s)) := by
        rw [arrayParityError_of_pass hn hc, htask]
        rfl
      rw [hexec, endAtTile_of_array harray hbench]
      exact ⟨fun hleft => congrArg (fun x => Host.Outcome.next (countBenchError n true c x)) (if_neg (by rw [hleft]; exact Bool.false_ne_true)),
        fun hleft => congrArg (fun x => Host.Outcome.next (countBenchError n true c x)) (if_pos hleft)⟩
    · have hbank : faultyBank n s = (none, s) := by simp only [faultyBank, hA, hB]
      rw [arrayParityError_of_bank hn, bankError, hbank]
      rfl
    · intro bankEnd
      refine ⟨fun k t hone htask => ?_, fun k l hA hB => ?_, fun t hblock htask => ?_, fun r hrun hentry hmid => ⟨fun hends => ?_, fun hends => ?_⟩,
        fun t htask => ?_⟩
      · rw [arrayParityError_of_bank hn, bankError_of_bank (faultyBank_of_one hone) htask]
      · obtain ⟨x, hx, hbank⟩ := faultyBank_of_two hA hB
        refine ⟨x, _, hx, rfl, fun t htask => ?_⟩
        rw [arrayParityError_of_bank hn, bankError_of_bank hbank htask]
      · rw [dresserParityError_of_bench hn, dresserError_of_task (by decide) (fun _ => hblock) htask]
      · rw [dresserParityError_of_bench hn, dresserError_of_block hrun hentry hmid hends]
      · rw [dresserParityError_of_bench hn, dresserError_of_ending hrun hentry hmid hends]
      · rw [skidEntryError_of_bench hn]
        exact congrArg Host.Outcome.next (dresserError_of_task (by decide) (fun h => absurd h (by decide)) htask)

end Sys2Proof.Machine
end
